-- ==== Sys2Proof/Word.lean ====
section
/-! DEFINITION. The word types of Chorad and the plain data that travels in messages: capabilities as 128 bits and a tag
(R13), vector, predicate and tile registers (R164), fabric requests and replies (R395, R396), network packets (R320), event
records (R313). -/
namespace Sys2Proof

abbrev U8 := BitVec 8
abbrev U16 := BitVec 16
abbrev U32 := BitVec 32
abbrev U64 := BitVec 64
abbrev U128 := BitVec 128
/-- A vector register (R164). -/
abbrev Vec := BitVec 1024
/-- A predicate register (R164); also a lane mask (R358). -/
abbrev Pred := BitVec 128
/-- The 8 KiB of a tile register, byte 0 lowest (R237). -/
abbrev TileData := BitVec 65536
/-- The 128 zero points of a tile, entry 0 lowest (R237). -/
abbrev Strip := BitVec 1024

/-- A 16-byte value with its tag: a g register, a capability register or a tagged word (R13, R164). -/
structure Cap where
  bits : U128
  tag : Bool
deriving DecidableEq, Repr, Inhabited

/-- The untagged zero. -/
def Cap.zero : Cap := { bits := 0, tag := false }

/-- An untagged 64-bit integer, as R23 writes it. -/
def Cap.ofInt (x : U64) : Cap := { bits := x.setWidth 128, tag := false }

/-- What chains of a launch say between the devices that run its shops (R259; log 25): a task asks for a chain entry at its successor, the
entry is reserved for it, a message fills it, a task has ended. -/
inductive ChainSaid where
  | ask
  | reserved
  | message (regs : List Vec)
  | ended
deriving DecidableEq, Repr, Inhabited

/-- It is about a launch, by the device that accepted it and its number there; from a task of a stage, about another one. -/
structure ChainNote where
  device : BitVec 14
  launch : Nat
  stage : Nat
  source : Nat
  target : Nat
  said : ChainSaid
deriving DecidableEq, Repr, Inhabited

/-- A request that reaches a hardware handler of this device through the fabric (R396). `unit` and `slot` name the
requesting agent as the other-agent word of R123 does. `addr` is the 48-bit fabric offset (R12). -/
structure FabricReq where
  device : BitVec 14
  unit : BitVec 15
  slot : BitVec 4
  /-- the agent is an engine command, of context `unit` -/
  engine : Bool
  owner : U16
  txn : Nat
  addr : BitVec 48
  /-- bytes, 1 to 16 for loads, stores and atomics -/
  size : Nat
  /-- the access moves a capability with its tag (LC, SC, a q-size atomic) -/
  capability : Bool
  /-- the value that it writes was tagged before the fabric's rule (R25, R198, R204) -/
  tagged : Bool := false
  /-- the ATOM op code of R171 -/
  op : BitVec 4
  data : Cap
  /-- the expected value of a CAS -/
  expect : Cap
  /-- the tail of a bulk store, and its tagged granules (R22) -/
  tail : List U8
  tags : List Nat
  /-- what it brings to the chains of a launch (R259) -/
  chain : Option ChainNote := none
deriving DecidableEq, Repr, Inhabited

/-- A message that creates a task or a steward request: the entry, four words, the origin word, a tail (R274, R279). -/
structure Msg where
  entry : Cap
  w4 : Cap
  w5 : Cap
  w6 : Cap
  w7 : Cap
  origin : U64
  tail : List U8
  /-- slot field of a SPAWN target (R265); 15 for a SEND -/
  place : BitVec 4
  /-- created by SPAWN: the entry is unsealed (R276) -/
  spawned : Bool
  /-- requester of a steward request: core, slot, and true when on this device -/
  replyCore : Nat
  replySlot : Nat
  replyLocal : Bool
  txn : Nat
  /-- handler number of an emulated message (R398) -/
  emul : Option Nat
deriving DecidableEq, Repr, Inhabited

/-- A reply to a request this device sent (R396, handler 0). -/
structure Reply where
  txn : Nat
  /-- a status of R300 for an access, of R273 for a message -/
  status : U16
  value : Cap
  w4 : Cap
  w5 : Cap
  w6 : Cap
  w7 : Cap
  detail : U64
deriving DecidableEq, Repr, Inhabited

/-- What an arriving Ultra Ethernet packet carries (R320, R321). -/
structure Packet where
  ctx : Nat
  /-- identity of the remote endpoint and message, for matching packets of one message -/
  msg : Nat
  /-- the flow it belongs to, by the remote endpoint, and its sequence number in it -/
  flow : Nat
  seq : Nat
  /-- 0 message, 1 write into a window, 2 read request on a window, 3 read response -/
  kind : BitVec 2
  tag : U32
  total : Nat
  offset : Nat
  /-- the window offset of the whole transfer -/
  base : Nat
  /-- sequence-order delivery (ROD) -/
  rod : Bool
  data : List U8
  /-- for kind 3: number of the NREAD it answers -/
  number : Nat
deriving DecidableEq, Repr, Inhabited

/-- A 32-byte event record (R313). -/
structure EvRec where
  kind : U16
  status : U16
  source : U32
  number : U64
  d0 : U64
  d1 : U64
deriving DecidableEq, Repr, Inhabited

end Sys2Proof
end

