-- ==== Sys2Proof/Config.lean ====
section
/-! DEFINITION. What is fixed for the machine: the sizes of the device (R2, R38) and the values the manual leaves open or
secret, which are constants without a body, so that nothing can be proved about what they are. -/
namespace Sys2Proof.Config

/-- Cores of a device (R2, R38). -/
def cores : Nat := 4608
/-- Benches of a device (R11). -/
def benches : Nat := 96
/-- Seats of a bench (R2). -/
def seats : Nat := 48
/-- HBM data frames (R38, R79). -/
def hbmFrames : Nat := 172032
/-- Scratchpad frames (R11). -/
def spadFrames : Nat := 73728
/-- Host-window segments and host frames (R10, R38). -/
def hostFrames : Nat := 2 ^ 27
/-- The house's owner ID (R40). -/
def house : U16 := 1
/-- Rated clock in MHz (R2, R413). -/
def ratedMHz : Nat := 1750

/-- R158: whether the n-th read of a register with an outstanding write returns the value before that write. -/
opaque stale : Nat → Bool
/-- R158: whether the n-th second write of a register in a window gives way to the earlier one. -/
opaque lostWrite : Nat → Bool
/-- R158: the subset of a window's new FLAGS bits that the n-th RDC of FLAGS shows. -/
opaque flagsSubset : Nat → U64
/-- R301: whether the n-th byte of overlapping ranges takes the byte written by the same command. -/
opaque overlapNew : Nat → Bool
/-- R78, R302: whether a line is still in a cache at the n-th moment at which that shows. -/
opaque lineStillCached : Nat → Nat → Bool
/-- R88: what the shadow-tag monitor of the n-th class counts in an interval, by stack position; 0 the misses. -/
opaque shadowHits : Nat → Nat → Nat
/-- R98: the n-th salt the assay core makes. -/
opaque salt : Nat → BitVec 256
/-- R99: the free data line that the n-th allocation of a region takes, as a rank among the free lines. -/
opaque freeLine : Nat → Nat
/-- R59, R79, R367, R407: what the assay core draws at the n-th boot: the table key, the image key, and the key of the link between two
dies. -/
opaque tableKey : Nat → BitVec 256
opaque imageKey : Nat → BitVec 256
opaque interDieKey : Nat → Nat → Nat → BitVec 256
/-- R401: the 256 random bits that this device, and its peer, draw at the n-th training. -/
opaque linkSecret : Nat → BitVec 256
opaque peerSecret : Nat → BitVec 256
/-- R57: whether a location of the n-th frame that SCRUB zeroes shows an uncorrectable error and fails its read-back. -/
opaque scrubFails : Nat → Bool
/-- R406: moduli of the identity key and the import key. -/
opaque identityModulus : BitVec 4096
opaque importModulus : BitVec 4096
/-- R407: SHA-512 of the firmware, as measured at reset. -/
opaque firmwareMeasurement : BitVec 512
/-- R57, R406: RSASSA-PSS with SHA-512 under the identity key over a byte string (the n-th signature made). -/
opaque identitySignature : Nat → List U8 → BitVec 4096
/-- R406: RSAES-OAEP with SHA-512 under the import key; none when the unwrap fails. -/
opaque importUnwrap : List U8 → Option (BitVec 256)
/-- R234: the sign of the zero that VDEQ writes for a zero quantum, by the scale and the code (1 = negative). -/
opaque dequantZeroSign : BitVec 16 → BitVec 8 → BitVec 1
/-- R353: whether the n-th swatch instruction reaches its unit after a later one of its window. -/
opaque swatchLater : Nat → Bool
/-- R129: how many of the newest writes of unchecked memory that are not ordered before it the n-th plain read misses, for byte i. -/
opaque older : Nat → Nat → Nat
/-- R131: whether the n-th relaxed AMOFADD meets others in a router. -/
opaque merged : Nat → Bool
/-- R70, R72: the set of a slice that a CACHED line, by line address, lies in. -/
opaque sliceSet : Nat → Nat
/-- A value the manual does not state, the n-th drawn. -/
opaque free : Nat → U64

end Sys2Proof.Config
end

