-- ==== Sys2Proof/Syntax.lean ====
section
/-! DEFINITION. The instructions of Chorad: one constructor for each row of spec/opcode_table.json. A row with an encoding
carries the fields of its word but the settle marker (bit 31, R154), which the decoder gives beside the instruction. A row
without an encoding is a whole step of the part that no word names (spec/95): an engine command, a hardware event, an input
from outside; it carries which unit acts and what arrives. -/
namespace Sys2Proof

inductive Instr where
  /-- R182: Writes the 64-bit sum of ga and gb to gd, untagged. -/
  | add (d : BitVec 5) (a : BitVec 5) (b : BitVec 5)
  /-- R182: Writes ga minus gb to gd. -/
  | sub (d : BitVec 5) (a : BitVec 5) (b : BitVec 5)
  /-- R182: Writes the bitwise AND of ga and gb to gd. -/
  | and (d : BitVec 5) (a : BitVec 5) (b : BitVec 5)
  /-- R182: Writes the bitwise OR of ga and gb to gd. -/
  | or (d : BitVec 5) (a : BitVec 5) (b : BitVec 5)
  /-- R182: Writes the bitwise XOR of ga and gb to gd. -/
  | xor (d : BitVec 5) (a : BitVec 5) (b : BitVec 5)
  /-- R182: Writes ga AND NOT gb to gd. -/
  | andn (d : BitVec 5) (a : BitVec 5) (b : BitVec 5)
  /-- R182: Shifts ga left by gb[5:0]. -/
  | sll (d : BitVec 5) (a : BitVec 5) (b : BitVec 5)
  /-- R182: Shifts ga right logically by gb[5:0]. -/
  | srl (d : BitVec 5) (a : BitVec 5) (b : BitVec 5)
  /-- R182: Shifts ga right arithmetically by gb[5:0]. -/
  | sra (d : BitVec 5) (a : BitVec 5) (b : BitVec 5)
  /-- R182: Writes 1 if ga is less than gb signed, else 0. -/
  | slt (d : BitVec 5) (a : BitVec 5) (b : BitVec 5)
  /-- R182: Writes 1 if ga is less than gb unsigned, else 0. -/
  | sltu (d : BitVec 5) (a : BitVec 5) (b : BitVec 5)
  /-- R182: Writes the signed minimum of ga and gb. -/
  | min (d : BitVec 5) (a : BitVec 5) (b : BitVec 5)
  /-- R182: Writes the signed maximum of ga and gb. -/
  | max (d : BitVec 5) (a : BitVec 5) (b : BitVec 5)
  /-- R182: Writes the unsigned minimum of ga and gb. -/
  | minu (d : BitVec 5) (a : BitVec 5) (b : BitVec 5)
  /-- R182: Writes the unsigned maximum of ga and gb. -/
  | maxu (d : BitVec 5) (a : BitVec 5) (b : BitVec 5)
  /-- R182: Writes the low 64 bits of ga times gb. -/
  | mul (d : BitVec 5) (a : BitVec 5) (b : BitVec 5)
  /-- R182: Writes the high 64 bits of the signed product. -/
  | mulh (d : BitVec 5) (a : BitVec 5) (b : BitVec 5)
  /-- R182: Writes the high 64 bits of the unsigned product. -/
  | mulhu (d : BitVec 5) (a : BitVec 5) (b : BitVec 5)
  /-- R183: Signed division truncated toward zero, with defined results for zero and overflow. -/
  | div (d : BitVec 5) (a : BitVec 5) (b : BitVec 5)
  /-- R183: Unsigned division; division by zero gives all ones. -/
  | divu (d : BitVec 5) (a : BitVec 5) (b : BitVec 5)
  /-- R183: Signed remainder with the sign of the dividend. -/
  | rem (d : BitVec 5) (a : BitVec 5) (b : BitVec 5)
  /-- R183: Unsigned remainder; by zero gives the dividend. -/
  | remu (d : BitVec 5) (a : BitVec 5) (b : BitVec 5)
  /-- R182: Writes the count of leading zero bits of ga. -/
  | clz (d : BitVec 5) (a : BitVec 5)
  /-- R182: Writes the count of trailing zero bits of ga. -/
  | ctz (d : BitVec 5) (a : BitVec 5)
  /-- R182: Writes the count of one bits of ga. -/
  | popc (d : BitVec 5) (a : BitVec 5)
  /-- R188: Writes ga to the low and gb to the high half of gd, untagged. -/
  | gpair (d : BitVec 5) (a : BitVec 5) (b : BitVec 5)
  /-- R188: Writes the high 64 bits of ga zero-extended to gd. -/
  | ghi (d : BitVec 5) (a : BitVec 5)
  /-- R184: 32-bit add, sign-extended result. -/
  | addw (d : BitVec 5) (a : BitVec 5) (b : BitVec 5)
  /-- R184: 32-bit subtract, sign-extended result. -/
  | subw (d : BitVec 5) (a : BitVec 5) (b : BitVec 5)
  /-- R184: 32-bit left shift by gb[4:0], sign-extended. -/
  | sllw (d : BitVec 5) (a : BitVec 5) (b : BitVec 5)
  /-- R184: 32-bit logical right shift, sign-extended. -/
  | srlw (d : BitVec 5) (a : BitVec 5) (b : BitVec 5)
  /-- R184: 32-bit arithmetic right shift, sign-extended. -/
  | sraw (d : BitVec 5) (a : BitVec 5) (b : BitVec 5)
  /-- R184: 32-bit multiply, sign-extended. -/
  | mulw (d : BitVec 5) (a : BitVec 5) (b : BitVec 5)
  /-- R184: 32-bit signed division, sign-extended. -/
  | divw (d : BitVec 5) (a : BitVec 5) (b : BitVec 5)
  /-- R184: 32-bit unsigned division, sign-extended. -/
  | divuw (d : BitVec 5) (a : BitVec 5) (b : BitVec 5)
  /-- R184: 32-bit signed remainder, sign-extended. -/
  | remw (d : BitVec 5) (a : BitVec 5) (b : BitVec 5)
  /-- R184: 32-bit unsigned remainder, sign-extended. -/
  | remuw (d : BitVec 5) (a : BitVec 5) (b : BitVec 5)
  /-- R185: Adds a sign-extended 15-bit immediate to ga. -/
  | addi (d : BitVec 5) (a : BitVec 5) (i : BitVec 15)
  /-- R185: ANDs ga with a sign-extended immediate. -/
  | andi (d : BitVec 5) (a : BitVec 5) (i : BitVec 15)
  /-- R185: ORs ga with a sign-extended immediate. -/
  | ori (d : BitVec 5) (a : BitVec 5) (i : BitVec 15)
  /-- R185: XORs ga with a sign-extended immediate. -/
  | xori (d : BitVec 5) (a : BitVec 5) (i : BitVec 15)
  /-- R185: Signed compare of ga with an immediate. -/
  | slti (d : BitVec 5) (a : BitVec 5) (i : BitVec 15)
  /-- R185: Unsigned compare of ga with a sign-extended immediate. -/
  | sltiu (d : BitVec 5) (a : BitVec 5) (i : BitVec 15)
  /-- R185: 32-bit add of an immediate, sign-extended. -/
  | addiw (d : BitVec 5) (a : BitVec 5) (i : BitVec 15)
  /-- R186: Shifts ga left by an immediate amount. -/
  | slli (d : BitVec 5) (a : BitVec 5) (n : BitVec 6)
  /-- R186: Shifts ga right logically by an immediate. -/
  | srli (d : BitVec 5) (a : BitVec 5) (n : BitVec 6)
  /-- R186: Shifts ga right arithmetically by an immediate. -/
  | srai (d : BitVec 5) (a : BitVec 5) (n : BitVec 6)
  /-- R186: 32-bit left shift by an immediate, sign-extended. -/
  | slliw (d : BitVec 5) (a : BitVec 5) (n : BitVec 5)
  /-- R186: 32-bit logical right shift by an immediate, sign-extended. -/
  | srliw (d : BitVec 5) (a : BitVec 5) (n : BitVec 5)
  /-- R186: 32-bit arithmetic right shift by an immediate, sign-extended. -/
  | sraiw (d : BitVec 5) (a : BitVec 5) (n : BitVec 5)
  /-- R187: Writes the 20-bit immediate shifted left 14, sign-extended. -/
  | lui (d : BitVec 5) (i : BitVec 20)
  /-- R193: Derives a capability from the PCC with a PC-relative cursor. -/
  | capc (d : BitVec 5) (i : BitVec 20)
  /-- R190: PC-relative jump, checking the new PCC and writing a link. -/
  | jal (d : BitVec 5) (o : BitVec 20)
  /-- R191: Jumps through capability ga plus an offset, writing a link. -/
  | jalr (d : BitVec 5) (a : BitVec 5) (i : BitVec 15)
  /-- R192: Branches if ga equals gb. -/
  | beq (a : BitVec 5) (b : BitVec 5) (o : BitVec 12)
  /-- R192: Branches if ga differs from gb. -/
  | bne (a : BitVec 5) (b : BitVec 5) (o : BitVec 12)
  /-- R192: Branches if ga is less than gb signed. -/
  | blt (a : BitVec 5) (b : BitVec 5) (o : BitVec 12)
  /-- R192: Branches if ga is at least gb signed. -/
  | bge (a : BitVec 5) (b : BitVec 5) (o : BitVec 12)
  /-- R192: Branches if ga is less than gb unsigned. -/
  | bltu (a : BitVec 5) (b : BitVec 5) (o : BitVec 12)
  /-- R192: Branches if ga is at least gb unsigned. -/
  | bgeu (a : BitVec 5) (b : BitVec 5) (o : BitVec 12)
  /-- R192: Branches if ga is tagged. -/
  | btag (a : BitVec 5) (o : BitVec 12)
  /-- R192: Branches if ga is untagged. -/
  | bntag (a : BitVec 5) (o : BitVec 12)
  /-- R197: Loads one byte sign-extended through a capability. -/
  | lb (d : BitVec 5) (a : BitVec 5) (i : BitVec 12)
  /-- R197: Loads two bytes sign-extended. -/
  | lh (d : BitVec 5) (a : BitVec 5) (i : BitVec 12)
  /-- R197: Loads four bytes sign-extended. -/
  | lw (d : BitVec 5) (a : BitVec 5) (i : BitVec 12)
  /-- R197: Loads eight bytes. -/
  | ld (d : BitVec 5) (a : BitVec 5) (i : BitVec 12)
  /-- R197: Loads one byte zero-extended. -/
  | lbn (d : BitVec 5) (a : BitVec 5) (i : BitVec 12)
  /-- R197: Loads two bytes zero-extended. -/
  | lhn (d : BitVec 5) (a : BitVec 5) (i : BitVec 12)
  /-- R197: Loads four bytes zero-extended. -/
  | lwn (d : BitVec 5) (a : BitVec 5) (i : BitVec 12)
  /-- R198: Loads 16 bytes with a tag under the LC, C and revocation rules. -/
  | lc (d : BitVec 5) (a : BitVec 5) (i : BitVec 12)
  /-- R197: Stores one byte, clearing the granule tag. -/
  | sb (d : BitVec 5) (a : BitVec 5) (i : BitVec 12)
  /-- R197: Stores two bytes. -/
  | sh (d : BitVec 5) (a : BitVec 5) (i : BitVec 12)
  /-- R197: Stores four bytes. -/
  | sw (d : BitVec 5) (a : BitVec 5) (i : BitVec 12)
  /-- R197: Stores eight bytes. -/
  | sd (d : BitVec 5) (a : BitVec 5) (i : BitVec 12)
  /-- R198: Stores 16 bytes and a tag under the SC, C and revocation rules. -/
  | sc (d : BitVec 5) (a : BitVec 5) (i : BitVec 12)
  /-- R199: Writes the capability's cursor. -/
  | cgetaddr (d : BitVec 5) (a : BitVec 5)
  /-- R199: Writes the decoded base. -/
  | cgetbase (d : BitVec 5) (a : BitVec 5)
  /-- R199: Writes the decoded length. -/
  | cgetlen (d : BitVec 5) (a : BitVec 5)
  /-- R199: Writes the permission bits. -/
  | cgetperm (d : BitVec 5) (a : BitVec 5)
  /-- R199: Writes the otype. -/
  | cgettype (d : BitVec 5) (a : BitVec 5)
  /-- R199: Writes the tag bit. -/
  | cgettag (d : BitVec 5) (a : BitVec 5)
  /-- R200: Sets the cursor; the tag survives only if representable. -/
  | csetaddr (d : BitVec 5) (a : BitVec 5) (b : BitVec 5)
  /-- R200: Adds gb to the cursor under the representability rule. -/
  | cinc (d : BitVec 5) (a : BitVec 5) (b : BitVec 5)
  /-- R200: Sets exact bounds at the cursor; untagged if not exact or not within. -/
  | csetb (d : BitVec 5) (a : BitVec 5) (b : BitVec 5)
  /-- R200: Sets bounds rounded outward at the cursor. -/
  | csetbx (d : BitVec 5) (a : BitVec 5) (b : BitVec 5)
  /-- R200: Masks the permissions with gb[11:0]. -/
  | candp (d : BitVec 5) (a : BitVec 5) (b : BitVec 5)
  /-- R26: Seals ga with authority gb after ordered checks. -/
  | cseal (d : BitVec 5) (a : BitVec 5) (b : BitVec 5)
  /-- R27: Unseals ga with authority gb after ordered checks. -/
  | cunseal (d : BitVec 5) (a : BitVec 5) (b : BitVec 5)
  /-- R201: Writes 1 if gb is a subset of ga. -/
  | ctestsub (d : BitVec 5) (a : BitVec 5) (b : BitVec 5)
  /-- R199: Copies ga with its tag cleared. -/
  | cclrtag (d : BitVec 5) (a : BitVec 5)
  /-- R201: Moves a capability keeping its tag unless revoked. -/
  | cmove (d : BitVec 5) (a : BitVec 5)
  /-- R201: Writes the representable length for the length in the cursor. -/
  | creplen (d : BitVec 5) (a : BitVec 5)
  /-- R202: Adds a 14-bit signed immediate to the cursor. -/
  | cinci (d : BitVec 5) (a : BitVec 5) (i : BitVec 14)
  /-- R202: Sets exact bounds of an immediate length. -/
  | csetbi (d : BitVec 5) (a : BitVec 5) (i : BitVec 14)
  /-- R204: Atomic add at the home, returning the old value. -/
  | amoadd (d : BitVec 5) (a : BitVec 5) (b : BitVec 5) (z : BitVec 1) (o : BitVec 2) (c : BitVec 2)
  /-- R204: Atomic AND. -/
  | amoand (d : BitVec 5) (a : BitVec 5) (b : BitVec 5) (z : BitVec 1) (o : BitVec 2) (c : BitVec 2)
  /-- R204: Atomic OR. -/
  | amoor (d : BitVec 5) (a : BitVec 5) (b : BitVec 5) (z : BitVec 1) (o : BitVec 2) (c : BitVec 2)
  /-- R204: Atomic XOR. -/
  | amoxor (d : BitVec 5) (a : BitVec 5) (b : BitVec 5) (z : BitVec 1) (o : BitVec 2) (c : BitVec 2)
  /-- R204: Atomic signed minimum. -/
  | amomin (d : BitVec 5) (a : BitVec 5) (b : BitVec 5) (z : BitVec 1) (o : BitVec 2) (c : BitVec 2)
  /-- R204: Atomic signed maximum. -/
  | amomax (d : BitVec 5) (a : BitVec 5) (b : BitVec 5) (z : BitVec 1) (o : BitVec 2) (c : BitVec 2)
  /-- R204: Atomic unsigned minimum. -/
  | amominu (d : BitVec 5) (a : BitVec 5) (b : BitVec 5) (z : BitVec 1) (o : BitVec 2) (c : BitVec 2)
  /-- R204: Atomic unsigned maximum. -/
  | amomaxu (d : BitVec 5) (a : BitVec 5) (b : BitVec 5) (z : BitVec 1) (o : BitVec 2) (c : BitVec 2)
  /-- R204: Atomic swap, including q-size with tags. -/
  | amoswap (d : BitVec 5) (a : BitVec 5) (b : BitVec 5) (z : BitVec 2) (o : BitVec 2) (c : BitVec 2)
  /-- R204: Atomic compare-and-swap; always a write for race judgement. -/
  | cas (d : BitVec 5) (a : BitVec 5) (b : BitVec 5) (z : BitVec 2) (o : BitVec 2) (c : BitVec 2)
  /-- R205: Atomic FP32 add rounded RNE. -/
  | amofadd (d : BitVec 5) (a : BitVec 5) (b : BitVec 5) (o : BitVec 2) (c : BitVec 2)
  /-- R204: Atomic load, relaxed or acquire. -/
  | lda (d : BitVec 5) (a : BitVec 5) (z : BitVec 2) (o : BitVec 1) (c : BitVec 2)
  /-- R204: Atomic store, relaxed or release. -/
  | stl (d : BitVec 5) (a : BitVec 5) (z : BitVec 2) (o : BitVec 1) (c : BitVec 2)
  /-- R208: Orders named prior and later access sets at a scope and cuts the span. -/
  | fence (f : BitVec 4) (c : BitVec 2)
  /-- R209: Arrives at bench barrier k and waits for the generation. -/
  | barb (k : BitVec 2)
  /-- R209: Arrives at bench barrier k with a release. -/
  | bara (k : BitVec 2)
  /-- R209: Waits for the generation of the slot's outstanding arrival. -/
  | barw (k : BitVec 2)
  /-- R221: Vector integer add. -/
  | vadd (d : BitVec 5) (a : BitVec 5) (b : BitVec 5) (p : BitVec 3) (e : BitVec 3)
  /-- R221: Vector integer subtract. -/
  | vsub (d : BitVec 5) (a : BitVec 5) (b : BitVec 5) (p : BitVec 3) (e : BitVec 3)
  /-- R221: Vector low multiply. -/
  | vmul (d : BitVec 5) (a : BitVec 5) (b : BitVec 5) (p : BitVec 3) (e : BitVec 3)
  /-- R221: Vector high multiply. -/
  | vmulh (d : BitVec 5) (a : BitVec 5) (b : BitVec 5) (p : BitVec 3) (e : BitVec 3)
  /-- R221: Vector minimum. -/
  | vmin (d : BitVec 5) (a : BitVec 5) (b : BitVec 5) (p : BitVec 3) (e : BitVec 3)
  /-- R221: Vector maximum. -/
  | vmax (d : BitVec 5) (a : BitVec 5) (b : BitVec 5) (p : BitVec 3) (e : BitVec 3)
  /-- R221: Vector AND. -/
  | vand (d : BitVec 5) (a : BitVec 5) (b : BitVec 5) (p : BitVec 3) (e : BitVec 3)
  /-- R221: Vector OR. -/
  | vor (d : BitVec 5) (a : BitVec 5) (b : BitVec 5) (p : BitVec 3) (e : BitVec 3)
  /-- R221: Vector XOR. -/
  | vxor (d : BitVec 5) (a : BitVec 5) (b : BitVec 5) (p : BitVec 3) (e : BitVec 3)
  /-- R221: Vector left shift. -/
  | vsll (d : BitVec 5) (a : BitVec 5) (b : BitVec 5) (p : BitVec 3) (e : BitVec 3)
  /-- R221: Vector logical right shift. -/
  | vsrl (d : BitVec 5) (a : BitVec 5) (b : BitVec 5) (p : BitVec 3) (e : BitVec 3)
  /-- R221: Vector arithmetic right shift. -/
  | vsra (d : BitVec 5) (a : BitVec 5) (b : BitVec 5) (p : BitVec 3) (e : BitVec 3)
  /-- R221: Vector saturating add. -/
  | vaddsat (d : BitVec 5) (a : BitVec 5) (b : BitVec 5) (p : BitVec 3) (e : BitVec 3)
  /-- R221: Vector saturating subtract. -/
  | vsubsat (d : BitVec 5) (a : BitVec 5) (b : BitVec 5) (p : BitVec 3) (e : BitVec 3)
  /-- R222: Accumulates four-byte dot products into 32-bit lanes. -/
  | vdot4 (d : BitVec 5) (a : BitVec 5) (b : BitVec 5) (p : BitVec 3) (e : BitVec 1)
  /-- R222: Widening exact multiply. -/
  | vmulw (d : BitVec 5) (a : BitVec 5) (b : BitVec 5) (p : BitVec 3) (e : BitVec 3)
  /-- R222: Narrows two registers with clamping. -/
  | vnarrow (d : BitVec 5) (a : BitVec 5) (b : BitVec 5) (p : BitVec 3) (e : BitVec 3)
  /-- R222: Selects elements of va or vb by predicate. -/
  | vsel (d : BitVec 5) (a : BitVec 5) (b : BitVec 5) (p : BitVec 3) (e : BitVec 3)
  /-- R222: Vector move. -/
  | vmov (d : BitVec 5) (a : BitVec 5) (p : BitVec 3) (e : BitVec 3)
  /-- R222: Writes each element's index. -/
  | vidx (d : BitVec 5) (p : BitVec 3) (e : BitVec 3)
  /-- R223: Floating-point add. -/
  | vfadd (d : BitVec 5) (a : BitVec 5) (b : BitVec 5) (p : BitVec 3) (e : BitVec 2)
  /-- R223: Floating-point subtract. -/
  | vfsub (d : BitVec 5) (a : BitVec 5) (b : BitVec 5) (p : BitVec 3) (e : BitVec 2)
  /-- R223: Floating-point multiply. -/
  | vfmul (d : BitVec 5) (a : BitVec 5) (b : BitVec 5) (p : BitVec 3) (e : BitVec 2)
  /-- R223: Fused multiply-add. -/
  | vfma (d : BitVec 5) (a : BitVec 5) (b : BitVec 5) (p : BitVec 3) (e : BitVec 2)
  /-- R223: Fused multiply-subtract. -/
  | vfms (d : BitVec 5) (a : BitVec 5) (b : BitVec 5) (p : BitVec 3) (e : BitVec 2)
  /-- R223: Fused negated multiply-add. -/
  | vfnma (d : BitVec 5) (a : BitVec 5) (b : BitVec 5) (p : BitVec 3) (e : BitVec 2)
  /-- R223: Floating-point divide. -/
  | vfdiv (d : BitVec 5) (a : BitVec 5) (b : BitVec 5) (p : BitVec 3) (e : BitVec 2)
  /-- R223: Floating-point square root. -/
  | vfsqrt (d : BitVec 5) (a : BitVec 5) (p : BitVec 3) (e : BitVec 2)
  /-- R223: Floating-point minimum. -/
  | vfmin (d : BitVec 5) (a : BitVec 5) (b : BitVec 5) (p : BitVec 3) (e : BitVec 2)
  /-- R223: Floating-point maximum. -/
  | vfmax (d : BitVec 5) (a : BitVec 5) (b : BitVec 5) (p : BitVec 3) (e : BitVec 2)
  /-- R223: Clears the sign bit. -/
  | vfabs (d : BitVec 5) (a : BitVec 5) (p : BitVec 3) (e : BitVec 2)
  /-- R223: Inverts the sign bit. -/
  | vfneg (d : BitVec 5) (a : BitVec 5) (p : BitVec 3) (e : BitVec 2)
  /-- R223: Correctly rounded base-2 exponential. -/
  | vfexp2 (d : BitVec 5) (a : BitVec 5) (p : BitVec 3) (e : BitVec 2)
  /-- R223: Pairwise 16-bit dot product accumulated into FP32 lanes. -/
  | vfdot2 (d : BitVec 5) (a : BitVec 5) (b : BitVec 5) (p : BitVec 3) (e : BitVec 2)
  /-- R224: Broadcasts g's low W bits to every active element. -/
  | vbcast (d : BitVec 5) (w : BitVec 2) (g : BitVec 5) (p : BitVec 3)
  /-- R224: FP32 multiply-add by a scalar from g. -/
  | vfmas (d : BitVec 5) (a : BitVec 5) (g : BitVec 5) (p : BitVec 3)
  /-- R225: Scales an F32P drained row and accumulates with one rounding. -/
  | vscacc (d : BitVec 5) (a : BitVec 5) (b : BitVec 5) (g : BitVec 5) (p : BitVec 3)
  /-- R224: Inserts g[31:0] into 32-bit lane k. -/
  | vins (d : BitVec 5) (k : BitVec 5) (g : BitVec 5)
  /-- R227: Unit-stride vector load with lane-masked checks. -/
  | vld (d : BitVec 5) (a : BitVec 5) (b : BitVec 5) (p : BitVec 3) (z : BitVec 2)
  /-- R227: Strided vector load. -/
  | vlds (d : BitVec 5) (a : BitVec 5) (b : BitVec 5) (p : BitVec 3) (z : BitVec 2)
  /-- R227: Indexed vector load. -/
  | vldx (d : BitVec 5) (a : BitVec 5) (b : BitVec 5) (p : BitVec 3) (z : BitVec 1)
  /-- R227: Broadcast load of one element. -/
  | vldb (d : BitVec 5) (a : BitVec 5) (b : BitVec 5) (p : BitVec 3) (z : BitVec 2)
  /-- R227: Unit-stride vector store. -/
  | vst (d : BitVec 5) (a : BitVec 5) (b : BitVec 5) (p : BitVec 3) (z : BitVec 2)
  /-- R227: Strided vector store. -/
  | vsts (d : BitVec 5) (a : BitVec 5) (b : BitVec 5) (p : BitVec 3) (z : BitVec 2)
  /-- R227: Indexed vector store. -/
  | vstx (d : BitVec 5) (a : BitVec 5) (b : BitVec 5) (p : BitVec 3) (z : BitVec 1)
  /-- R228: Permutes va by indices in vb. -/
  | vperm (d : BitVec 5) (a : BitVec 5) (b : BitVec 5) (p : BitVec 3) (e : BitVec 3)
  /-- R228: Slides elements up by one. -/
  | vslideup (d : BitVec 5) (a : BitVec 5) (b : BitVec 5) (p : BitVec 3) (e : BitVec 3)
  /-- R228: Slides elements down by one. -/
  | vslidedn (d : BitVec 5) (a : BitVec 5) (b : BitVec 5) (p : BitVec 3) (e : BitVec 3)
  /-- R228: Integer sum reduction into element 0. -/
  | vredadd (d : BitVec 5) (a : BitVec 5) (b : BitVec 5) (p : BitVec 3) (e : BitVec 3)
  /-- R228: Integer minimum reduction. -/
  | vredmin (d : BitVec 5) (a : BitVec 5) (b : BitVec 5) (p : BitVec 3) (e : BitVec 3)
  /-- R228: Integer maximum reduction. -/
  | vredmax (d : BitVec 5) (a : BitVec 5) (b : BitVec 5) (p : BitVec 3) (e : BitVec 3)
  /-- R229: Floating-point sum reduction in a fixed pairwise tree. -/
  | vfredadd (d : BitVec 5) (a : BitVec 5) (b : BitVec 5) (p : BitVec 3) (e : BitVec 2)
  /-- R228: Floating-point maximum reduction. -/
  | vfredmax (d : BitVec 5) (a : BitVec 5) (b : BitVec 5) (p : BitVec 3) (e : BitVec 2)
  /-- R228: Packs the active elements to the bottom. -/
  | vcompress (d : BitVec 5) (a : BitVec 5) (p : BitVec 3) (e : BitVec 3)
  /-- R228: Extracts element k into a g register. -/
  | vextg (d : BitVec 5) (a : BitVec 5) (k : BitVec 5) (e : BitVec 3)
  /-- R230: Integer equality compare into a p register. -/
  | vcmpeq (d : BitVec 3) (a : BitVec 5) (b : BitVec 5) (p : BitVec 3) (e : BitVec 3)
  /-- R230: Integer less-than compare. -/
  | vcmplt (d : BitVec 3) (a : BitVec 5) (b : BitVec 5) (p : BitVec 3) (e : BitVec 3)
  /-- R230: Integer less-or-equal compare. -/
  | vcmple (d : BitVec 3) (a : BitVec 5) (b : BitVec 5) (p : BitVec 3) (e : BitVec 3)
  /-- R230: Floating-point equality compare. -/
  | vfcmpeq (d : BitVec 3) (a : BitVec 5) (b : BitVec 5) (p : BitVec 3) (e : BitVec 2)
  /-- R230: Floating-point less-than compare. -/
  | vfcmplt (d : BitVec 3) (a : BitVec 5) (b : BitVec 5) (p : BitVec 3) (e : BitVec 2)
  /-- R230: Floating-point less-or-equal compare. -/
  | vfcmple (d : BitVec 3) (a : BitVec 5) (b : BitVec 5) (p : BitVec 3) (e : BitVec 2)
  /-- R230: Unordered compare. -/
  | vfcmpun (d : BitVec 3) (a : BitVec 5) (b : BitVec 5) (p : BitVec 3) (e : BitVec 2)
  /-- R230: Predicate AND. -/
  | pand (d : BitVec 3) (a : BitVec 3) (b : BitVec 3)
  /-- R230: Predicate OR. -/
  | por (d : BitVec 3) (a : BitVec 3) (b : BitVec 3)
  /-- R230: Predicate XOR. -/
  | pxor (d : BitVec 3) (a : BitVec 3) (b : BitVec 3)
  /-- R230: Predicate inverse. -/
  | pnot (d : BitVec 3) (a : BitVec 3)
  /-- R230: Sets the lowest k predicate bits. -/
  | psetn (d : BitVec 3) (g : BitVec 5)
  /-- R230: Counts predicate bits into a g register. -/
  | pcnt (d : BitVec 5) (a : BitVec 3)
  /-- R230: Writes the index of the lowest set predicate bit. -/
  | pfirst (d : BitVec 5) (a : BitVec 3)
  /-- R231: Converts elements between formats with rounding and saturation. -/
  | vcvt (d : BitVec 5) (a : BitVec 5) (x : BitVec 5) (y : BitVec 5) (r : BitVec 3) (t : BitVec 1)
  /-- R233: Quantises a group into narrow codes with scale and zero point. -/
  | vquant (d : BitVec 5) (a : BitVec 5) (g : BitVec 5) (r : BitVec 2) (f : BitVec 2)
  /-- R234: Dequantises a group to FP32. -/
  | vdeq (d : BitVec 5) (a : BitVec 5) (g : BitVec 5) (r : BitVec 2) (f : BitVec 2)
  /-- R234: Packs bytes into clamped 4-bit codes. -/
  | vpack (d : BitVec 5) (a : BitVec 5) (f : BitVec 1)
  /-- R234: Unpacks 4-bit codes into bytes. -/
  | vunpk (d : BitVec 5) (a : BitVec 5) (f : BitVec 1)
  /-- R241: Loads a tile row by row, waiting until it is unlocked. -/
  | tld (d : BitVec 3) (x : BitVec 5) (y : BitVec 5)
  /-- R241: Stores a tile row by row. -/
  | tst (a : BitVec 3) (x : BitVec 5) (y : BitVec 5)
  /-- R242: Zeroes a tile and its strip. -/
  | tzero (d : BitVec 3)
  /-- R242: Loads a tile's zero-point strip. -/
  | tzp (d : BitVec 3) (x : BitVec 5)
  /-- R242: Reads one strip entry into a g register. -/
  | tgetzp (a : BitVec 3) (x : BitVec 5) (y : BitVec 5)
  /-- R245: Requests a loom lease and parks until granted. -/
  | lease (x : BitVec 5) (y : BitVec 5)
  /-- R253: Sets the window exponent while accumulators are clear. -/
  | mwin (x : BitVec 5)
  /-- R255: Drains the accumulators in a format and ends the lease. -/
  | mdrain (x : BitVec 5)
  /-- R249: Reads the state of a loom of the bench. -/
  | lstat (x : BitVec 5) (y : BitVec 5)
  /-- R251: Checks shapes, consumes budget, locks tiles and queues a matrix command. -/
  | mma (a : BitVec 3) (b : BitVec 3) (p : BitVec 4)
  /-- R251: Matrix command subtracting zero points exactly. -/
  | mmaz (a : BitVec 3) (b : BitVec 3) (p : BitVec 4)
  /-- R308: Places a command block into the bound engine context. -/
  | push (d : BitVec 5) (a : BitVec 5) (k : BitVec 3)
  /-- R309: Writes an entry to the outbound stage queue, parking while full. -/
  | movq (b : BitVec 5) (k : BitVec 3)
  /-- R309: Pops a stage-queue entry or result word. -/
  | qpop (d : BitVec 5) (k : BitVec 3)
  /-- R310: Reads a queue register's status. -/
  | qstat (d : BitVec 5) (k : BitVec 3)
  /-- R310: Binds or unbinds a queue register to an engine context handle. -/
  | bindq (a : BitVec 5) (k : BitVec 3)
  /-- R312: Parks until the timeline reaches a value, then acquires. -/
  | tlwait (b : BitVec 5) (k : BitVec 4)
  /-- R312: Tests the timeline, acquiring on success. -/
  | tltest (d : BitVec 5) (b : BitVec 5) (k : BitVec 4)
  /-- R312: Reads the counter and accepted count. -/
  | tlread (d : BitVec 5) (k : BitVec 4)
  /-- R313: Pops an event record into two registers. -/
  | evpop (d : BitVec 5)
  /-- R313: Parks for a record or a cycle limit, then pops. -/
  | evwait (d : BitVec 5) (a : BitVec 5)
  /-- R313: Reports queue occupancy and head without removing. -/
  | evtry (d : BitVec 5)
  /-- R274: Sends a message that becomes a task on the target core. -/
  | send (d : BitVec 5) (a : BitVec 5) (b : BitVec 5)
  /-- R274: Sends a message with a data tail. -/
  | sendt (d : BitVec 5) (a : BitVec 5) (b : BitVec 5) (k : BitVec 4)
  /-- R276: Asks a named slot to run the issuer's code, or raises inline depth on refusal. -/
  | spawn (d : BitVec 5) (a : BitVec 5) (b : BitVec 5)
  /-- R279: Sends a delegation request and waits for the reply. -/
  | dlg (d : BitVec 5) (a : BitVec 5) (b : BitVec 5)
  /-- R279: Sends a delegation request without waiting. -/
  | dlga (d : BitVec 5) (a : BitVec 5) (b : BitVec 5)
  /-- R283: Parks until cycles pass, a record or message arrives, or slice end. -/
  | tyield (d : BitVec 5) (a : BitVec 5)
  /-- R285: Writes the slot's place word. -/
  | tself (d : BitVec 5)
  /-- R333: Offers a held resource to a recipient. -/
  | give (d : BitVec 5) (a : BitVec 5) (b : BitVec 5)
  /-- R42: Accepts an offer or loan, running the change of holder. -/
  | accept (d : BitVec 5) (a : BitVec 5) (b : BitVec 5)
  /-- R42: Declines a pending offer. -/
  | decline (d : BitVec 5) (a : BitVec 5)
  /-- R333: Offers a held resource as a loan with terms. -/
  | lend (d : BitVec 5) (a : BitVec 5) (b : BitVec 5)
  /-- R42: Borrower returns a loan, beginning recovery. -/
  | returnLoan (d : BitVec 5) (a : BitVec 5)
  /-- R42: Withdraws an offer or recovers a loan after term. -/
  | reclaim (d : BitVec 5) (a : BitVec 5)
  /-- R334: Reads a holding entry and, for parties, its terms or handle. -/
  | hquery (d : BitVec 5) (a : BitVec 5) (b : BitVec 5)
  /-- R51: Creates an owner from a charter and starts its seed task. -/
  | ownnew (d : BitVec 5) (a : BitVec 5)
  /-- R54: Dissolves the issuing owner, passing its entries to its successor. -/
  | ownend (d : BitVec 5)
  /-- R53: Keeps the issuing owner alive. -/
  | renew (d : BitVec 5)
  /-- R54: Heir recovers every entry of a lapsed owner. -/
  | claim (d : BitVec 5) (a : BitVec 5)
  /-- R55: Sets the issuer's heir. -/
  | setheir (d : BitVec 5) (a : BitVec 5)
  /-- R339: Creates or updates a segment's own entry and a page's translation. -/
  | map (d : BitVec 5) (a : BitVec 5) (b : BitVec 5)
  /-- R340: Removes a translation, a whole segment's entries or a share. -/
  | unmap (d : BitVec 5) (a : BitVec 5) (b : BitVec 5)
  /-- R341: Writes one field of a segment, core-time or way unit. -/
  | setclass (d : BitVec 5) (a : BitVec 5) (b : BitVec 5)
  /-- R342: Sets revocation bits and places a SWEEP command. -/
  | revoke (d : BitVec 5) (a : BitVec 5) (b : BitVec 5)
  /-- R343: Zeroes held frames and optionally writes a signed receipt. -/
  | scrub (d : BitVec 5) (a : BitVec 5) (b : BitVec 5)
  /-- R344: Gives another owner a domain-rights entry on a unit. -/
  | share (d : BitVec 5) (a : BitVec 5) (b : BitVec 5)
  /-- R99: Looks up or allocates a swatch by content. -/
  | swname (d : BitVec 5) (a : BitVec 5) (b : BitVec 5) (k : BitVec 2)
  /-- R104: Computes a swatch hash without probing. -/
  | swhash (d : BitVec 5) (a : BitVec 5) (b : BitVec 5) (k : BitVec 2)
  /-- R104: Reads a live swatch into two vector registers. -/
  | swread (d : BitVec 5) (a : BitVec 5) (b : BitVec 5) (v : BitVec 5)
  /-- R101: Adds a reference to a swatch. -/
  | swref (d : BitVec 5) (a : BitVec 5) (b : BitVec 5)
  /-- R101: Drops a reference, freeing the swatch at zero. -/
  | swrel (d : BitVec 5) (a : BitVec 5) (b : BitVec 5)
  /-- R104: Walks child indexes from a node to a depth. -/
  | swwalk (d : BitVec 5) (a : BitVec 5) (b : BitVec 5)
  /-- R347: Reads a control register. -/
  | rdc (d : BitVec 5) (n : BitVec 12)
  /-- R347: Writes a control register that has no row of its own. -/
  | wrc (a : BitVec 5) (n : BitVec 12)
  /-- R348: Raises a software trap. -/
  | trap (a : BitVec 5)
  /-- R361: Returns from a trap, optionally ending a cooperative pre-emption as a yield. -/
  | tret (y : BitVec 1)
  /-- R253: Ends the lease after queued commands without draining. -/
  | lrel
  /-- R253: Clears accumulators, flags and extents after queued commands. -/
  | mclr
  /-- R280: Replies to the requester, ends the request and starts the next. -/
  | dlgret
  /-- R259: Adds the predecessor's registers and sends the sum to the successor. -/
  | chain
  /-- R278: Porter moves the head overflow record into the inbox. -/
  | replay
  /-- R282: Returns at inline depth above 0, else ends the task with a release. -/
  | tend
  /-- R361: Returns from an upcall handler, replaying undone words. -/
  | upret
  /-- R348: Raises a breakpoint trap. -/
  | brk
  /-- R348: Does nothing. -/
  | nop
  /-- R251: The loom array performs a queued matrix command exactly and unlocks its tiles. -/
  | arrayMatrixCommand (bench loom : Nat)
  /-- R246: A loom grants the next pending lease request round robin and clears its state. -/
  | loomGrant (bench loom : Nat)
  /-- R247: 4,096 cycles pass with another request pending after the holder's last command. -/
  | loomIdleExpiry (bench loom : Nat)
  /-- R256: A drained row at the buffer head starts a selvage handler in a free slot 1-7. -/
  | selvageHandlerStart (bench loom : Nat)
  /-- R372: Writes a WATCH pair, installing a local watch or a home-slice write monitor. -/
  | watchWrite (n : BitVec 3) (a : BitVec 5)
  /-- R397: Writes the owner's emulation entry and records EMULCORE. -/
  | emulentWrite (a : BitVec 5)
  /-- R404: Binds or unbinds a host work queue's context after earlier blocks pass. -/
  | hqctxWrite (a : BitVec 5)
  /-- R404: Sets a host queue's word-0 or word-1 capability. -/
  | hqcapWrite (w : BitVec 1) (a : BitVec 5)
  /-- R406: Assay core makes an otype-1 endpoint handle. -/
  | assayEndpointHandle (owner : U16)
  /-- R406: Assay core signs an attestation over a nonce. -/
  | assayAttestation (owner : U16)
  /-- R406: Assay core unwraps a key into a held key slot. -/
  | assayKeyImport (owner : U16)
  /-- R406: Assay core writes the identity key and import-key certificate. -/
  | assayPublicKeys (owner : U16)
  /-- R301: Copies bytes between capabilities, faulting and parking on absent pages. -/
  | copy (ctx : Nat)
  /-- R301: Copies rows with source and destination strides. -/
  | copy2d (ctx : Nat)
  /-- R301: Fills a destination with a 16-byte pattern. -/
  | fill (ctx : Nat)
  /-- R303: Re-queues a parked command to move its recorded sectors. -/
  | resume (ctx : Nat)
  /-- R302: Copies a page or frame from backing store with lines unchanged. -/
  | framecopy (ctx : Nat)
  /-- R375: Starts migration tracking and copies the whole frame. -/
  | framecopyPass1 (ctx : Nat)
  /-- R375: Copies units marked in the dirty log. -/
  | framecopyPass2 (ctx : Nat)
  /-- R375: Stalls writes, collects dirty lines, copies, moves translations and exchanges holdings. -/
  | framecopyPass3 (ctx : Nat)
  /-- R304: Gathers table elements by n32 indices. -/
  | gather (ctx : Nat)
  /-- R305: Reduces elementwise across members into every destination. -/
  | allreduce (ctx : Nat) (agree reach : Bool) (peers : List (List U8))
  /-- R305: Reduces and scatters one slice per member. -/
  | redscat (ctx : Nat) (agree reach : Bool) (peers : List (List U8))
  /-- R305: Places every member's bytes at every member. -/
  | allgather (ctx : Nat) (agree reach : Bool) (peers : List (List U8))
  /-- R305: Places the source's bytes at every listed member. -/
  | mcast (ctx : Nat) (reach : Bool)
  /-- R266: Checks a launch block and queues the launch for placement. -/
  | launch (ctx : Nat)
  /-- R268: Places and starts a waiting launch's tasks once eligible slots and its precondition allow. -/
  | launchPlacement (launch core : Nat)
  /-- R108: Copies a swatch tree's leaves out to a destination. -/
  | swout (ctx : Nat)
  /-- R102: Applies SWREL to each child of a freed node. -/
  | releaseCommand (ctx : Nat)
  /-- R109: A held release command enters the release context when it has room. -/
  | releaseCommandPlacement (region : Nat)
  /-- R32: Clears tags of revoked capabilities device-wide and then clears the map bits. -/
  | sweep (ctx : Nat)
  /-- R320: Sends a tagged message to a remote endpoint in packets. -/
  | nsend (ctx : Nat)
  /-- R321: Posts a receive or window for matching messages. -/
  | nrecv (ctx : Nat)
  /-- R319: Writes into a remote exposed window. -/
  | nwrite (ctx : Nat)
  /-- R319: Reads from a remote exposed window. -/
  | nread (ctx : Nat)
  /-- R321: An arriving packet is matched and placed, or refused. -/
  | packetArrival (pkt : Packet)
  /-- R320: Acknowledgements complete packets and may declare a packet lost. -/
  | selectiveAckArrival (ctx number : Nat) (acked marked : List Nat) (status : U16)
  /-- R320: A packet's timeout passes; it is declared lost and resent or the command ends UNREACHABLE. -/
  | retransmissionTimeout (ctx number seq : Nat) (nacked : Bool)
  /-- R313: A held record enters an event queue when an entry frees. -/
  | eventRecordPost (core : Nat)
  /-- R403: A 64-byte posted write to a push window enqueues or drops a block. -/
  | hostPush (q : Nat) (link : BitVec 1) (whole : Bool) (w0 w1 w2 w3 : U128)
  /-- R405: A host queue derives capability words and passes a block to its context. -/
  | hostQueuePass (q : Nat)
  /-- R277: A message reaches a core's inbox, overflow heap, or is refused. -/
  | messageArrival (core : Nat) (m : Msg)
  /-- R275: The inbox head starts a message task in a free general slot. -/
  | inboxTaskStart (core : Nat)
  /-- R280: Slot 8 starts the next delegation request. -/
  | stewardRequestStart (core : Nat)
  /-- R279: A delegation reply writes the requester's registers and acquires. -/
  | dlgReplyArrival (core slot : Nat)
  /-- R279: A request returned from a full steward queue is resent after 1 µs. -/
  | dlgResend (core slot : Nat)
  /-- R263: Each cycle the core issues from the highest ready class round robin. -/
  | issueCycle (core cycles : Nat)
  /-- R263: A class-4 slot ready for 7 cycles issues in the 8th. -/
  | issueGuardExpiry (core slot : Nat)
  /-- R287: The next rota entry's turn begins. -/
  | rotaTurnStart (core : Nat)
  /-- R288: At slice end no new task starts and the lease takes a budget drain. -/
  | sliceEnd (core : Nat)
  /-- R288: At the latency limit running slots take cooperative pre-emption. -/
  | sliceLimitExpiry (core : Nat)
  /-- R288: At budget end slots not done are force-saved or discarded. -/
  | sliceBudgetEnd (core : Nat)
  /-- R357: Delivers a trap, upcall or cooperative pre-emption in settle-precise form to its vector. -/
  | trapDelivery (core slot : Nat)
  /-- R369: Restores a saved slot image into a free slot. -/
  | imageRestore (core slot : Nat)
  /-- R376: A write stopped by write-protect tracking retries after 1 µs. -/
  | writeProtectRetry (core slot : Nat)
  /-- R373: An uncorrectable memory error retires, poisons or refills as the page state gives. -/
  | uncorrectableError (addr : U64) (inSlice dirtyInSlice : Bool)
  /-- R374: A sealed line fails its MAC; an integrity fault is raised and recorded. -/
  | macFailure (addr : U64)
  /-- R42: An offer's deadline passes and the entry returns to the holder. -/
  | offerDeadline (res : U64)
  /-- R42: A loan's term ends, posting term-expired and recovering if INHERITED. -/
  | termEnd (res : U64)
  /-- R53: An owner's keep-alive interval passes and its entries become LAPSED. -/
  | ownerLapse (owner : U16)
  /-- R47: At the save budget's end slots still running are force-saved or discarded. -/
  | recoveryBudgetEnd (res : U64)
  /-- R48: Recovery finishes; the entry becomes HELD and a reclaim record is posted. -/
  | recoveryComplete (res : U64)
  /-- R33: A forced register scan clears revoked tags within 64 µs of REVOKE. -/
  | registerScanDeadline (core : Nat)
  /-- R88: Every 1 ms the die moves L2 ways between cache classes by shadow-tag gain. -/
  | classRebalance (die : BitVec 2)
  /-- R396: A reply message completes its request at the initiator. -/
  | replyHandler (r : Reply)
  /-- R396: The target's fabric agent performs a remote load. -/
  | loadHandler (r : FabricReq)
  /-- R396: The target performs a remote store. -/
  | storeHandler (r : FabricReq)
  /-- R396: The target performs a remote atomic. -/
  | atomicHandler (r : FabricReq)
  /-- R103: The target hands a remote SWREF or SWREL to the region's swatch unit. -/
  | swatchCountHandler (r : FabricReq)
  /-- R396: The target serves a remote SPAWN. -/
  | spawnHandler (core : Nat) (r : FabricReq) (m : Msg)
  /-- R396: The target places an engine, collective or network tail. -/
  | bulkStoreHandler (r : FabricReq)
  /-- R268: The target's launch engine takes a shop of a launch. -/
  | launchHandler (r : FabricReq) (w0 w1 : Cap) (w2 : U128) (shop : Nat) (priority : BitVec 2)
  /-- R398: A message naming an unimplemented handler replies UNIMPL or starts an emulation task. -/
  | unimplementedHandler (handler : U8) (r : FabricReq) (m : Msg)
  /-- R401: A link trains, agreeing a per-link key and learning the peer's number. -/
  | linkTraining (link : Nat) (peer : BitVec 14) (signed : Bool)
  /-- R399: A link loses lanes, pauses, replays flits and rescales windows. -/
  | linkNarrowing (link : Nat)
  /-- R399: A link fails below its narrowest width and traffic reroutes. -/
  | linkDown (link : Nat)
  /-- R400: The optical switch requests a drain; the device sends a drain marker. -/
  | ocsDrainRequest (link : Nat)
  /-- R400: The peer returns the marker; the link goes dark and retrains. -/
  | drainMarkerReturn (link : Nat)
  /-- R400: Held traffic without a route after 1 ms is treated as unreachable. -/
  | routeHoldTimeout (peer : BitVec 14)
  /-- R410: Writing START begins link training and starts the house's seed task. -/
  | start (value : U64)
  /-- R409: Sets the device number before START; ignored after. -/
  | devnumWrite (value : U64)
  /-- R407: Verifies firmware, draws keys, tests HBM and endows the holdings. -/
  | reset (verified : Bool) (bad : List Nat)
  /-- R412: Near the power or coolant limit the clock steps down or back up by 25 MHz. -/
  | clockStep (up : Bool)
  /-- R125: An access stalled 65,536 cycles for lack of a holder record raises SPAN-CAPACITY at a slot, or completes an engine command or handler with that status. -/
  | spanCapacityStallLimit (core slot : Nat)
  /-- R283: A TYIELD park ends after ga[31:0] cycles and writes gd = 0. -/
  | tyieldCycleLimit (core slot : Nat)
  /-- R313: An EVWAIT park ends after ga[31:0] cycles and acts as EVPOP on the empty or filled queue. -/
  | evwaitCycleLimit (core slot : Nat)
  /-- R402: A PCI Express link's IDE stream is keyed, after which the device accepts traffic on that link. -/
  | ideStreamKeying (link : BitVec 1)
  /-- R5: A bench becomes quarantined, setting DEVSTAT bit 2 and REPLACE while the device runs on without it. -/
  | benchQuarantine (bench : Nat)
deriving DecidableEq, Repr

end Sys2Proof
end

