-- ==== Sys2Proof/Machine/State.lean ====
section
/-! DEFINITION. The state of one Chorad device as plain data: the issuing slot, the other slots, the cores, the looms, the
engine contexts, the holdings map, the rights and translation stores, memory with its tags, the race records, the swatch
regions, the host queues, the links; and the machine right after reset. -/
namespace Sys2Proof.Machine

/-- Reasons the machine stops with a fault: none. Every trap, status and error of the manual is a next state (R41, R300,
R357), so no meaning raises a fault and no claim can rest on one (safe). -/
inductive Fault where
deriving DecidableEq, Repr

/-- Reasons an instruction has no meaning. -/
inductive Refusal where
  /-- Raised by exec's arm of an instruction that is not modelled yet; safe: the run stops there. -/
  | notModelled (mnemonic : String)
deriving DecidableEq, Repr

/-- A register as the settle rule counts them (R157): g, v, p and t registers and control registers. -/
inductive Reg where
  | g (n : BitVec 5)
  | v (n : BitVec 5)
  | p (n : BitVec 3)
  | t (n : BitVec 3)
  | cr (n : BitVec 12)
deriving DecidableEq, Repr

/-- The value of a register. -/
inductive RegVal where
  | cap (c : Cap)
  | vec (x : Vec)
  | pred (x : Pred)
  | tile (d : TileData) (z : Strip)
deriving DecidableEq, Repr

/-- What a slot runs (R262, R264). -/
inductive Role where
  | free
  /-- a task of launch `id` at logical core `lcn`, stage `stage` (R264, R269) -/
  | launch (id lcn stage : Nat)
  | message
  | spawned
  /-- a selvage handler of a lease held by `core` (R257) -/
  | selvage (core : Nat)
  | steward
  | porter
  | seed
deriving DecidableEq, Repr

/-- What a parked slot waits for (R156, R263). -/
inductive Park where
  | no
  /-- bench barrier `k`, generation `gen` (R209) -/
  | barrier (k gen : Nat)
  /-- a context's counter to reach a value (R312) -/
  | timeline (ctx value : Nat)
  /-- an entry of the inbound stage queue (true), or room in the outbound one (R309) -/
  | stage (pop : Bool)
  /-- a result word (R309) -/
  | result (k : Nat)
  /-- EVWAIT into register d: an event record, until a cycle (R313) -/
  | event (d : BitVec 5) (limit : Option Nat)
  /-- TYIELD into register d: until a cycle, or a cause noted since it began (R283): 1 a record has arrived, 2 a message has
  entered the inbox, 3 slice end -/
  | yield (d : BitVec 5) (limit : Option Nat) (cause : BitVec 2)
  /-- replies to remote requests (R133, R273) -/
  | reply
  /-- a delegation reply or a free reply entry (R279) -/
  | delegate
  /-- a settle point: the reply of an outstanding DLGA (R157, R279) -/
  | settle
  /-- LEASE with the registers d and b: the loom's grant (R245) -/
  | grant (d b : BitVec 5)
  /-- a matrix command: the grant it asked for again, or room in the loom's queue (R251, R254) -/
  | loom
  /-- a locked tile (R243) -/
  | tile (t : BitVec 3)
  /-- a chain message or a reserved entry (R259) -/
  | chain
  /-- a fifth race record of a line, since a cycle; the detail address and lanes of its trap (R125) -/
  | record (line since : Nat) (ea : U64) (lanes : Pred)
  /-- write-protect tracking: the write is retried at a cycle (R376) -/
  | protect (due : Nat)
  /-- a write to a page in its final migration pass (R91, R375) -/
  | migrate (addr : U64)
  /-- a page or the fault queue, without an upcall (R364, R373) -/
  | page (addr : U64)
  /-- room in a context's queue (R342) -/
  | ctxRoom (ctx : Nat)
  /-- room in the inbox (R278) -/
  | inboxRoom
  /-- the blocks waiting in a host queue (R404) -/
  | hostqRoom (q : Nat)
  /-- a change of holder that its own ACCEPT began (R44, R336) -/
  | change (id : U64)
  /-- a change of holder under way at an entry's unit (R37) -/
  | unit (id : U64)
  /-- CLAIM of an owner, and the entries passed once every one has (R335) -/
  | claim (owner : U16) (passed : Option Nat)
deriving DecidableEq, Repr

/-- An agent (R113): a slot, by the core and slot its task started in and a number of its own, so that a saved slot keeps its
identity wherever it is restored (R136); one command of an engine context; or one execution of a hardware message handler
on a die for a requester, named by its device, its core or context, and its slot (R123); its span ends with the execution. -/
inductive Agent where
  | slot (core idx run : Nat)
  | cmd (ctx number : Nat)
  | handler (die : Nat) (device : BitVec 14) (unit : BitVec 15) (slot : BitVec 4)
deriving DecidableEq, Repr

/-- A trap on its way to delivery: class, detail address, lane mask, other-agent word (R358, R359). -/
structure Trap where
  cls : BitVec 6
  addr : U64
  lanes : Pred
  agent : U64
deriving DecidableEq, Repr

/-- A swatch instruction whose request has not reached its region's unit, though a later one of its window may (R353): where it stands, its
member and operands as it read them, and the content that SWNAME has loaded. -/
structure SwLater where
  pc : U64
  word : U32
  /-- the member's position in SWT (R345) -/
  member : BitVec 3
  node : Bool
  d : BitVec 5
  v : BitVec 5
  /-- the address of the region capability, and the region -/
  cursor : U64
  seg : Nat
  name : U128
  path : U64
  content : BitVec 2048
deriving DecidableEq, Repr

/-- One thread slot: its registers (R164, R168), its trap frame (R359), its window (R155 to R159), its spans (R124). -/
structure Slot where
  core : Nat
  idx : Nat
  /-- the agent the slot is (R113, R136) -/
  agent : Agent
  role : Role
  owner : U16
  pcc : Cap
  g : Vector Cap 32
  v : Vector Vec 32
  p : Vector Pred 8
  trapvec : Cap
  upvec : Cap
  traphold : U64
  flags : U64
  round : U64
  coord : U64
  settlemode : U64
  tfpcc : Cap
  tfpc : U64
  tfdone : U64
  tfclass : U64
  tfaddr : U64
  tflane0 : U64
  tflane1 : U64
  tfagent : U64
  tftime : U64
  tstack : Cap
  hqsel : U64
  /-- address of the window's first word (R155) -/
  winStart : U64
  /-- words of the window that are complete (R159) -/
  winDone : U32
  /-- registers read, and written with the value written over, in the window (R157) -/
  winReads : List Reg
  winWrites : List (Reg × RegVal)
  /-- the number of the free choices of the word that is being executed (the model's own) -/
  draw : Nat
  /-- the flags that floating-point instructions of the window have newly set (R158) -/
  winFlags : U64
  /-- SETTLEMODE and TRAPHOLD in force, taken at the last settle point (R160, R347) -/
  strict : Bool
  hold : Bool
  /-- the last instruction was a control transfer (R155) -/
  afterTransfer : Bool
  /-- a return has just resumed a window: its done mask stands and no fetch watch matches (R159, R361) -/
  replay : Bool
  /-- issue class 1 (R263, R357) -/
  class1 : Bool
  depth : Nat
  span : Nat
  /-- closing marks for bench, die, device and fabric scope (R124) -/
  marks : Vector Nat 4
  /-- stage queues bound to q6 and q7 (R270) -/
  q6 : Option Nat
  q7 : Option Nat
  /-- outstanding arrival at each bench barrier: its generation, and where the BARB that made it stands: its address, and whether
  a trap handler runs it (R209, R210) -/
  arrivals : Vector (Option (Nat × Option (U64 × Bool))) 4
  park : Park
  /-- remote requests sent and not yet consumed, and their replies (R133) -/
  sent : List Nat
  replies : List Reply
  /-- the outstanding delegation request: the destination register, true for DLGA, its message, and its target: the core, plus
  8,192 × (1 + device) when it is on another device (R279) -/
  delegated : Option (BitVec 5 × Bool × Msg × Nat)
  /-- the reply to it, once arrived -/
  delegateReply : Option Reply
  /-- a delegation request that a full steward queue returned: the cycle at which it is sent again (R279) -/
  resend : Option Nat
  /-- the tail that a SENDT has read, while its message is on its way (R274) -/
  tail : Option (List U8)
  /-- the requester a steward request answers (R280), or the message an emulation task answers (R398) -/
  answers : Option Msg
  /-- swatch instructions of the window that are on their way to their units, and whether the next is to wait for a later one (R353) -/
  swLater : List SwLater
  swDefer : Bool
  /-- a watch trap that follows at the settle point, with the address and word of its instruction (R371) -/
  watchTrap : Option (Trap × U64 × U32)
  /-- a cooperative pre-emption is due; the vector that delivers it when tagged (R288, R47) -/
  coopDue : Bool
  coopVec : Cap
  /-- cycles a ready class-4 slot has not issued (R263) -/
  starved : Nat
deriving DecidableEq, Repr

/-- A lease as the core that asked for it sees it (R245, R248). State 0 none, 1 requested, 2 held, 3 REARM. -/
structure Lease where
  state : BitVec 2
  request : U64
  handler : Cap
  larg : Cap
  trapvec : Cap
  upvec : Cap
  owner : U16
deriving DecidableEq, Repr

/-- A rota entry (R287). -/
structure Rota where
  slice : U32
  limit : U32
  budget : U32
  handler : Cap
deriving DecidableEq, Repr

/-- Phase of the running turn: 0 no rota, 1 running, 2 slice ended, 3 limit passed (R287, R288). -/
structure Turn where
  entry : Nat
  phase : BitVec 2
  /-- TIMEUS of the turn's start and of its slice end, and its limit's passing in cycles of the rated clock -/
  start : Nat
  ended : Nat
  limited : Nat
deriving DecidableEq, Repr

/-- A chain message that waits for its task, wherever that runs (R259, R261). -/
structure ChainMsg where
  launch : Nat
  stage : Nat
  source : Nat
  target : Nat
  regs : List Vec
deriving DecidableEq, Repr

/-- One core: its per-core registers (R167, R168), tiles (R237), queues (R307), stores (R271), rota (R287). -/
structure Core where
  idx : Nat
  shapes : Vector U64 8
  tiles : Vector TileData 8
  strips : Vector Strip 8
  larg : Cap
  lease : Lease
  /-- selvage handlers started by this core's drains and not ended (R248) -/
  out : Nat
  chain : Vector U64 4
  /-- WATCH0 address, WATCH0 mask, ... (R370) -/
  watch : Vector U64 8
  /-- write monitors installed, by line address, for each WATCH pair (R372) -/
  monitors : Vector (Option Nat) 4
  /-- q0 to q5: context index and generation of the bound handle (R307, R310) -/
  qbind : Vector (Option (Nat × Nat)) 6
  /-- how often each has been bound or unbound: the number of its binding (R309) -/
  bindNo : Vector Nat 6
  /-- their result FIFOs (R309) -/
  results : Vector (List U128) 6
  events : List EvRec
  held : List EvRec
  inbox : List Msg
  steward : List Msg
  /-- slots of this core that hold a reply entry (R271, R279) -/
  replyEntries : List Nat
  overflow : Bool
  /-- its FIFO in the overflow heap, with the records that each message takes there (R277) -/
  overflowed : List (Msg × List Nat)
  lastIssued : Nat
  /-- the first cycle in which the core may issue again: at most one instruction a cycle (R263) -/
  nextAt : Nat
  rota : Vector Rota 8
  turn : Turn
  /-- slots reserved for a resident launch (R268) -/
  reserved : List Nat
deriving DecidableEq, Repr

/-- A command in a loom's queue (R254). -/
structure MatCmd where
  ta : BitVec 3
  tb : BitVec 3
  /-- its operands as it read them: a tile, its strip and its shape (R158, R243) -/
  opA : TileData × Strip × U64
  opB : TileData × Strip × U64
  pair : Nat
  zp : Bool
deriving DecidableEq, Repr

/-- A row that leaves the array (R255, R257). -/
structure DrainRow where
  index : Nat
  regs : List Vec
  flags : BitVec 3
deriving DecidableEq, Repr

/-- A drain with rows still to start (R255 to R257). -/
structure Drain where
  rows : List DrainRow
  format : BitVec 2
  budget : Bool
  seats : List Nat
  lease : Lease
  holder : Nat
  number : Nat
  w : BitVec 8
  r : Nat
  c : Nat
  discarded : Bool
deriving DecidableEq, Repr

/-- One loom (R244 to R256). Accumulators that are not listed are 0. -/
structure Loom where
  bench : Nat
  idx : Nat
  holder : Option Nat
  last : Nat
  pending : List Nat
  left : Nat
  w : BitVec 8
  dflt : Bool
  clear : Bool
  r : Nat
  c : Nat
  acc : List (Nat × U128)
  flags : List (Nat × BitVec 3)
  queue : List MatCmd
  drains : List Drain
  count : Nat
  lastCmd : Nat
deriving DecidableEq, Repr

/-- A command block with its number, and the q register it was pushed through (R298, R308, R309). -/
structure Cmd where
  number : Nat
  w0 : Cap
  w1 : Cap
  w2 : Cap
  w3 : Cap
  /-- the core, the q register and the number of its binding (R309) -/
  via : Option (Nat × Nat × Nat)
  /-- a status that ends it at once: a host block whose capability came out untagged (R405) -/
  doomed : Option U16
deriving DecidableEq, Repr

/-- A parked command: bytes done and the sectors still to move, by page address (R303). -/
structure ParkedCmd where
  cmd : Cmd
  done : Nat
  pages : List (Nat × Pred)
deriving DecidableEq, Repr

/-- A receive posted on a network context (R319, R321). -/
structure Recv where
  cmd : Cmd
  mode : BitVec 2
  tag : U32
  capacity : Nat
  /-- the message it matched, and its length -/
  msg : Option (Nat × Nat)
  /-- ranges dealt with: message, offset, bytes -/
  placed : List (Nat × Nat × Nat)
  /-- packets that wait for earlier ones of their flow under ROD -/
  held : List Packet
  /-- a placement waits for a place among the records of a line, since a cycle (R125) -/
  stalled : Option Nat
deriving DecidableEq, Repr

/-- A packet as it is sent (R320): kind 0 message, 1 write into a window, 2 read request; `flow` is the remote endpoint, its IPv6
address over its context index. -/
structure OutPacket where
  ctx : Nat
  number : Nat
  flow : BitVec 160
  kind : BitVec 2
  tag : U32
  total : Nat
  offset : Nat
  /-- the window offset of the whole transfer -/
  base : Nat
  /-- payload bytes, sent or asked for -/
  len : Nat
  seq : Nat
  entropy : Nat
  delivery : BitVec 2
  rccc : Bool
  data : List U8
deriving DecidableEq, Repr

/-- A packet in flight (R320). -/
structure Flight where
  p : OutPacket
  /-- times sent, and TIMEUS of the last time -/
  sends : Nat
  sentAt : Nat
  acked : Bool
  /-- the receiving end has refused it (R321) -/
  refused : Bool
  /-- later packets reported received since its latest transmission -/
  later : List Nat
deriving DecidableEq, Repr

/-- A request of an engine command to another device (R133, R396): its transaction, the command, for a load the address that its
bytes go to, or their offset in the command's buffer, and their number. -/
structure FarOp where
  txn : Nat
  number : Nat
  dst : Option Nat
  buffered : Bool
  n : Nat
deriving DecidableEq, Repr

/-- What a command that waits for other devices has come to: its status, its bytes done, what detail 1 adds, the pages it found
absent, and what its loads have brought by offset. -/
structure FarRun where
  number : Nat
  status : Nat
  done : Nat
  extra : Nat
  pages : List (Nat × Pred)
  /-- those of them on the writing side, and the lowest address met in each -/
  wrote : List Nat
  first : List (Nat × Nat)
  buffer : List (Nat × List U8)
  /-- the sectors that a RESUME moves (R303) -/
  only : Option (List (Nat × Pred))
deriving DecidableEq, Repr

/-- One engine context (R295, R297, R303, R320). -/
structure Ctx where
  idx : Nat
  gen : Nat
  accepted : Nat
  counter : Nat
  waiting : List Cmd
  active : List Cmd
  parked : List ParkedCmd
  /-- completed commands above the counter -/
  done : List Nat
  /-- result words and records that a full FIFO or queue holds back (R309, R312), with the number they hold -/
  heldResults : List (Nat × Nat × Nat × U128)
  /-- started commands that wait, since a cycle: for a place among the records of a line (R125), or for a page (R91, R376) -/
  stalls : List (Nat × Option Nat × Nat)
  far : List FarOp
  farRuns : List FarRun
  recvs : List Recv
  /-- receives that are complete: a late copy of a packet is placed again (R324) -/
  past : List Recv
  /-- packets taken of each flow: those below a sequence number, and others (R321) -/
  got : List (Nat × Nat × List Nat)
  flights : List Flight
  /-- the next sequence number by remote endpoint -/
  flows : List (BitVec 160 × Nat)
  /-- per entropy value: congestion marks and losses (R322) -/
  entropy : List (Nat × U32 × U32)
deriving DecidableEq, Repr

/-- States of a holding entry, with the codes of R41. -/
inductive HState where
  | held
  | offered
  | offeredLoan
  | lent
  | recalling
  | lapsed
  | retired
deriving DecidableEq, Repr

/-- A recovery under way (R47, R48). -/
structure Recovery where
  /-- who holds the resource afterwards, and from whom it is recovered -/
  taker : U16
  fromOwner : U16
  /-- began by RETURN -/
  returned : Bool
  /-- a reclaim record is posted at the end -/
  record : Bool
  /-- contents kept (a voluntary RETURN with KEEP on both sides) -/
  keep : Bool
  /-- the sweep it waits for: context and number, or a sweep outside any context -/
  sweep : Option Nat
  number : Nat
  forced : Bool
  saved : Nat
  /-- TIMEUS in cycles of the rated clock at which the save budget ends -/
  budgetEnd : Nat
  budgetDone : Bool
deriving DecidableEq, Repr

/-- A holding entry (R39). -/
structure Entry where
  id : U64
  state : HState
  holder : U16
  other : U16
  terms : U128
  /-- TIMEUS of the offer's deadline and of the term end, and the cycles of the rated clock by which the one that is set lies later -/
  deadline : Option Nat
  termEnd : Option Nat
  frac : Nat
  /-- the term-expired record has been posted -/
  termPosted : Bool
  keepBoth : Bool
  lapsedBorrower : Bool
  inherited : Bool
  recovery : Option Recovery
deriving DecidableEq, Repr

/-- A slot image (R366, R368, R369): where it lies in the save area, if it lies there, how long it is, the turn it waits for
(core × 8 + entry; none after a recovery), whether it is a yield image, and what it restores. -/
structure Image where
  offset : Option Nat
  size : Nat
  turn : Option Nat
  isYield : Bool
  slot : Slot
  /-- of slot 0: the lease that waits in REARM (log 35) -/
  lease : Lease
  shapes : Vector U64 8
  tiles : Vector TileData 8
  strips : Vector Strip 8
  larg : Cap
  chain : Vector U64 4
  watch : Vector U64 8
  qbind : Vector (Option (Nat × Nat)) 6
deriving DecidableEq, Repr

/-- An owner (R40, R51 to R55, R316, R363, R397). -/
structure Owner where
  id : U16
  heir : U16
  keepAlive : Nat
  /-- TIMEUS of the last RENEW, and the cycles of the rated clock by which it lies later -/
  renewed : Nat
  renewedFrac : Nat
  lapsed : Bool
  /-- core index of the notice queue -/
  notice : Nat
  dumpKey : Option Nat
  saveFrame : Option Nat
  salt : Nat
  dumpCursor : Nat
  images : List Image
  emulent : Cap
  emulcore : Nat
  assayreq : Cap
  assaystat : U64
  /-- the successor of an owner that is being dissolved (R54), and how many entries have passed to it -/
  dissolving : Option (U16 × Nat)
  /-- its seed and entry while its first task has not started (R51) -/
  seed : Option (U64 × Cap)
  /-- who created it, from which seed, and TIMEUS then (R350) -/
  founded : Option (U16 × U64 × Nat)
deriving DecidableEq, Repr

/-- A domain-rights entry (R63) and its position in its die's store (R65). -/
structure Rights where
  owner : U16
  /-- false: segment; true: scratchpad frame -/
  frame : Bool
  index : Nat
  r : Bool
  w : Bool
  x : Bool
  c : Bool
  place : BitVec 2
  unchecked : Bool
  sealedSeg : Bool
  key : BitVec 12
  named : Bool
  migration : BitVec 2
  home : BitVec 2
  cls : BitVec 6
  /-- page size of the segment (R74): true for 2 MiB -/
  big : Bool
  own : Bool
  pos : Nat
  /-- pinning position (R72) -/
  pin : Option Nat
deriving DecidableEq, Repr

/-- A translation entry (R75) and its position in its die's store (R76). -/
structure Trans where
  vpn : Nat
  size : Bool
  present : Bool
  /-- absent since an uncorrectable error of a clean line of it (R373) -/
  lost : Bool
  clean : Bool
  migrating : BitVec 2
  protect : Bool
  key : BitVec 12
  host : Bool
  /-- 16 KiB backing page: frame × 128 + page in frame -/
  page : Nat
  pos : Nat
deriving DecidableEq, Repr

/-- A holder record of a race granule (R124), granule = virtual address div 32. -/
structure Rec where
  granule : Nat
  agent : Agent
  span : Nat
  write : Bool
  atomic : Bool
deriving DecidableEq, Repr

/-- A line that a cache holds apart from its page's frame, since MAP moved the page (R78): its virtual line number and its dirty
sectors. -/
structure KeptLine where
  line : Nat
  dirty : BitVec 2
deriving DecidableEq, Repr

/-- What a write to unchecked memory has overwritten: its first address, the bytes and the tagged granules before it, and whose it was
(R129). -/
structure OldWrite where
  addr : Nat
  bytes : List U8
  tags : List Nat
  agent : Agent
  span : Nat
deriving DecidableEq, Repr

/-- An access to memory by an agent for an owner, after the capability checks. -/
structure Acc where
  agent : Agent
  owner : U16
  addr : Nat
  size : Nat
  write : Bool
  read : Bool
  atomic : Bool
  fetch : Bool
deriving DecidableEq, Repr

/-- A relaxed AMOFADD that has met others in a router (R131): its slot, its transaction, its access, its operand. -/
structure Routed where
  core : Nat
  idx : Nat
  txn : Nat
  acc : Acc
  operand : U32
deriving DecidableEq, Repr

/-- What a fault record says (R315). -/
structure FaultRec where
  kind : Nat
  /-- [0] write, [1] atomic, [2] fetch, [3] engine -/
  access : Nat
  requester : U32
  addr : Nat
  done : Nat
  number : Nat
  sectors : Pred
  page : Nat
deriving DecidableEq, Repr

/-- A unit of the revocation map (R30): segment index of R10, or scratchpad frame. -/
structure Unit30 where
  frame : Bool
  index : Nat
deriving DecidableEq, Repr

/-- A sweep under way (R32 to R34): its units, its context and number if it runs on one. -/
structure Sweep where
  id : Nat
  units : List Unit30
  ctx : Option Nat
  number : Nat
  /-- TIMEUS by which every core scans its registers, until they have (R33) -/
  scanBy : Option Nat
deriving DecidableEq, Repr

/-- A name-index entry of a swatch region (R95): its position in the index, and what it holds. -/
structure SwEntry where
  pos : Nat
  name : U128
  count : U32
  line : Nat
  node : Bool
deriving DecidableEq, Repr

/-- A release command that waits for room on its context (R109): the children it drops, whether they could not be read, and who
waits for its number: the transaction of a slot, the device and transaction of a remote request, or the number of the release
command that caused it. -/
structure HeldRelease where
  children : List U128
  lost : Bool
  txn : Option Nat
  device : Option (BitVec 14 × Nat)
  parent : Option Nat
deriving DecidableEq, Repr

/-- A swatch region (R92 to R95) as its unit knows it: its index and its data lie in the lines of its segments, in memory; its header
says how many swatches live and how many data lines are free, and the unit which data lines are in use. -/
structure Region where
  seg : Nat
  n : Nat
  saltOwner : U16
  salt : Nat
  relCtx : U64
  lastRel : U64
  live : Nat
  used : List Nat
  heldReleases : List HeldRelease
deriving DecidableEq, Repr

/-- A release command that is not complete (R102), by context and number: the children it drops; whether it has run, with
which status, and the numbers of the release commands it caused. -/
structure Release where
  ctx : Nat
  number : Nat
  region : Nat
  children : List U128
  lost : Bool
  ran : Bool
  status : Nat
  waits : List Nat
deriving DecidableEq, Repr

/-- A launch accepted by a launch engine (R266 to R268). -/
structure Launch where
  id : Nat
  ctx : Nat
  number : Nat
  owner : U16
  entry : Cap
  data : Cap
  w2 : U128
  priority : Nat
  ev : Bool
  /-- shop placed here, none when every shop is elsewhere, and the request it answers when another device launched it -/
  shop : Option Nat
  answers : Option (BitVec 14 × Nat)
  /-- tasks placed so far, in placement order: logical core, stage, core -/
  placed : List (Nat × Nat × Nat)
  ended : List (Nat × Nat)
  aborted : Nat
  /-- physical benches taken by logical benches of a resident launch -/
  benches : List (Nat × Nat)
  /-- requests for shops that run on other devices and have not ended -/
  remote : List Nat
  /-- shops have been sent, and the first failure of a shop elsewhere -/
  begun : Bool
  failed : Nat
  /-- the device that accepted it, and its number there -/
  token : BitVec 14 × Nat
  /-- chains between devices (R259; log 25), as source, target and stage: entries asked for and reserved at tasks elsewhere; those that
  tasks elsewhere have asked for, and have been given, here; and the tasks elsewhere that have ended, by number and stage -/
  asked : List (Nat × Nat × Nat)
  granted : List (Nat × Nat × Nat)
  asks : List (Nat × Nat × Nat)
  given : List (Nat × Nat × Nat)
  farEnded : List (Nat × Nat)
deriving DecidableEq, Repr

/-- A bench barrier of a launch (R209). -/
structure Barrier where
  launch : Nat
  bench : Nat
  k : Nat
  gen : Nat
  arrived : List (Nat × Nat)
deriving DecidableEq, Repr

/-- A stage queue (R270): from stage `stage` of coordinate `lcn`. -/
structure StageQ where
  id : Nat
  launch : Nat
  lcn : Nat
  stage : Nat
  items : List Cap
  producerEnded : Bool
deriving DecidableEq, Repr

/-- A host work queue (R403, R404). -/
structure HostQ where
  q : Nat
  ctx : Option (Nat × Nat)
  cap0 : Cap
  cap1 : Cap
  blocks : List (U128 × U128 × U128 × U128)
  dropped : U32
deriving DecidableEq, Repr

/-- A cache class of a die (R87, R88). -/
structure Cls where
  die : BitVec 2
  cls : BitVec 6
  owner : U16
  floor : Nat
  ceiling : Nat
  ways : Nat
  hits : List Nat
  misses : Nat
deriving DecidableEq, Repr

/-- A fabric link (R393, R399, R400). `full` is its full width in lanes or wavelengths. -/
structure Link where
  idx : Nat
  peer : BitVec 14
  up : Bool
  full : Nat
  width : Nat
  draining : Bool
  dark : Bool
  /-- the key that the two assay cores agreed at its latest training (R401) -/
  key : BitVec 256
deriving DecidableEq, Repr

/-- The secrets that the assay core draws at a boot (R59, R79, R367); which dies have a link of their own is not stated: a key for each
pair (log 104). -/
structure BootKeys where
  table : BitVec 256
  image : BitVec 256
  interDie : List (Nat × Nat × BitVec 256)
deriving DecidableEq, Repr

def BootKeys.drawn (n : Nat) : BootKeys :=
  { table := Config.tableKey n, image := Config.imageKey n
    interDie := [(0, 1), (0, 2), (0, 3), (1, 2), (1, 3), (2, 3)].map (fun p => (p.1, p.2, Config.interDieKey n p.1 p.2)) }

/-- What this device has sent to others (R395, R320). -/
inductive OutMsg where
  | load (device : BitVec 14) (r : FabricReq)
  | store (device : BitVec 14) (r : FabricReq)
  | atomic (device : BitVec 14) (r : FabricReq)
  | swatch (device : BitVec 14) (r : FabricReq)
  | message (device : BitVec 14) (core : Nat) (txn : Nat) (m : Msg)
  /-- a bulk store, with the entropy value of a multicast's packet (R305) -/
  | bulk (device : BitVec 14) (r : FabricReq) (entropy : Option (BitVec 8))
  /-- one 4 KiB chunk of this device's contribution to a collective, with its tag and entropy value (R305) -/
  | contribution (device : BitVec 14) (tag : BitVec 24) (chunk : Nat) (entropy : BitVec 8) (data : List U8)
  | launch (device : BitVec 14) (r : FabricReq) (w0 w1 : Cap) (w2 : U128) (shop : Nat) (priority : BitVec 2)
  | reply (device : BitVec 14) (r : Reply)
  | packet (attempt : Nat) (p : OutPacket)
  /-- what a context answers a packet of a message with: a status, and the bytes of a read (R320, R321) -/
  | packetReply (ctx msg offset : Nat) (status : Nat) (data : List U8)
  | drainMarker (link : Nat)
  | chain (device : BitVec 14) (note : ChainNote)
deriving DecidableEq, Repr

/-- A remote endpoint that the assay core has made a handle for (R318, R406; log 20). -/
structure Endpoint where
  id : Nat
  owner : U16
  address : U128
  context : U32
  /-- local network context -/
  ctx : Nat
deriving DecidableEq, Repr

/-- What backing store holds of a line while a newer version is in a cache (R302): its nonzero bytes by offset, its tags by
granule, its MAC when it is sealed, its poison bit. -/
structure OldLine where
  line : Nat
  bytes : List Host.Cell
  tags : List Nat
  mac : Option U64
  poison : Bool
  /-- the 128-byte sectors written since, sector 0 lowest (R377) -/
  dirty : BitVec 2
deriving DecidableEq, Repr

/-- A hardware handler's execution that waits (R91, R125, R316): handler number, request, and the line whose records it waits for,
since a cycle. -/
structure HeldReq where
  handler : Nat
  req : FabricReq
  line : Option Nat
  since : Nat
deriving DecidableEq, Repr

/-- One Chorad device. -/
structure State where
  /-- the slot that issues -/
  self : Slot
  /-- every other slot that runs something -/
  others : List Slot
  /-- cores whose state differs from a blank core -/
  cores : List Core
  looms : List Loom
  ctxs : List Ctx
  /-- the context each engine last started a command for: die × 8 + engine, context (R297) -/
  engines : List (Nat × Nat)
  entries : List Entry
  owners : List Owner
  rights : List Rights
  /-- host-window segments whose reset entry and translation are gone (R411) -/
  hostGone : List Nat
  trans : List Trans
  mem : List Host.Cell
  /-- lines written in a cache whose older version backing store may still hold (R302, R377) -/
  behind : List OldLine
  /-- lines still cached of pages that MAP has moved to another frame (R78) -/
  kept : List KeptLine
  tags : List Nat
  poison : List Nat
  /-- sealed lines, by physical line, and their MACs (R80, R82) -/
  sealedLines : List (Nat × U64)
  recs : List Rec
  /-- writes to unchecked memory, the newest first (R129) -/
  older : List OldWrite
  /-- merged groups in the routers, in the order they began (R131) -/
  routed : List (List Routed)
  /-- lines lost to an uncorrectable error that no access has met yet, by virtual address (R373) -/
  errorsOwed : List Nat
  /-- absent pages that slots' upcalls have named and MAP has not made present: the slot, the owner, the address (R364) -/
  upcalls : List (Agent × U16 × Nat)
  /-- fault records that wait for room in an owner's ring (R316) -/
  faultsHeld : List (U16 × FaultRec)
  revoked : List Unit30
  sweeps : List Sweep
  keys : List (Nat × BitVec 256)
  /-- frames under migration and the marked sectors of their dirty logs (R375 to R377) -/
  dirtyLog : List (Nat × List Nat)
  regions : List Region
  releases : List Release
  launches : List Launch
  /-- chain messages by target, each task with two entries (R259), and what has come for launches that are not known here yet -/
  chainMsgs : List ChainMsg
  chainNotes : List ChainNote
  barriers : List Barrier
  stageqs : List StageQ
  hostqs : List HostQ
  endpoints : List Endpoint
  classes : List Cls
  /-- the last millisecond in which each die moved ways between classes (R88) -/
  rebalanced : List (Nat × Nat)
  /-- way units assigned to a class: die, way, class; the others: in the pool (R87) -/
  ways : List (BitVec 2 × Nat × BitVec 6)
  pool : List (BitVec 2 × Nat)
  /-- receipt serials issued since reset (R57) -/
  receipts : Nat
  cycle : Nat
  us : Nat
  usFrac : Nat
  clock : Nat
  devstat : U64
  devnum : BitVec 14
  bootstat : U64
  startReg : U64
  links : List Link
  /-- resets before this one, and the secrets of this boot (R59, R367, R407) -/
  boots : Nat
  bootKeys : BootKeys
  unreachable : List (BitVec 14)
  ide : List (BitVec 1)
  requests : List HeldReq
  quarantined : List Nat
  out : List OutMsg
  nextTxn : Nat
  nextId : Nat
  /-- the events that happen next, in order (the model's own) -/
  agenda : List Instr
  /-- free values drawn so far (the model's own) -/
  free : Nat
  /-- `self` has been picked and issues next (the model's own) -/
  picked : Bool
deriving DecidableEq, Repr

/-- A slot that runs nothing, every register zero and untagged (R45, R269). -/
def Slot.blank (core idx : Nat) : Slot :=
  { core := core, idx := idx, agent := .slot core idx 0, role := .free, owner := 0, pcc := .zero
    g := Vector.replicate 32 .zero, v := Vector.replicate 32 0, p := Vector.replicate 8 0
    trapvec := .zero, upvec := .zero, traphold := 0, flags := 0, round := 0, coord := 0, settlemode := 0
    tfpcc := .zero, tfpc := 0, tfdone := 0, tfclass := 0, tfaddr := 0, tflane0 := 0, tflane1 := 0, tfagent := 0
    tftime := 0, tstack := .zero, hqsel := 0
    winStart := 0, winDone := 0, winReads := [], winWrites := [], draw := 0, winFlags := 0, strict := false, hold := false
    afterTransfer := true, replay := false, class1 := false, depth := 0, span := 1
    marks := Vector.replicate 4 0, q6 := none, q7 := none, arrivals := Vector.replicate 4 none, park := .no
    sent := [], replies := [], delegated := none, delegateReply := none, resend := none, tail := none, answers := none
    swLater := [], swDefer := false, watchTrap := none, coopDue := false, coopVec := .zero, starved := 0 }

def Lease.none : Lease :=
  { state := 0, request := 0, handler := .zero, larg := .zero, trapvec := .zero, upvec := .zero, owner := 0 }

def Rota.blank : Rota :=
  { slice := 0, limit := 0, budget := 0, handler := .zero }

/-- A core after reset: R238, R258, R287 and log 1. -/
def Core.blank (idx : Nat) : Core :=
  { idx := idx, shapes := Vector.replicate 8 0, tiles := Vector.replicate 8 0, strips := Vector.replicate 8 0
    larg := .zero, lease := .none, out := 0, chain := Vector.replicate 4 0
    watch := Vector.replicate 8 0, monitors := Vector.replicate 4 none
    qbind := Vector.replicate 6 none, bindNo := Vector.replicate 6 0, results := Vector.replicate 6 [], events := [], held := [], inbox := []
    steward := [], replyEntries := [], overflow := false, overflowed := [], lastIssued := 9, nextAt := 0
    rota := Vector.replicate 8 .blank, turn := { entry := 7, phase := 0, start := 0, ended := 0, limited := 0 }
    reserved := [] }

/-- A loom after reset: free, last holder seat 47 (R246). -/
def Loom.blank (bench idx : Nat) : Loom :=
  { bench := bench, idx := idx, holder := none, last := 47, pending := [], left := 0, w := 0, dflt := true, clear := true
    r := 0, c := 0, acc := [], flags := [], queue := [], drains := [], count := 0, lastCmd := 0 }

/-- A context after reset: every count 0 (R295). -/
def Ctx.blank (idx : Nat) : Ctx :=
  { idx := idx, gen := 0, accepted := 0, counter := 0, waiting := [], active := [], parked := [], done := []
    heldResults := [], stalls := [], far := [], farRuns := [], recvs := [], past := [], got := [], flights := [], flows := [], entropy := [] }

/-- An entry at reset: HELD by the house (R56). -/
def Entry.atReset (id : U64) : Entry :=
  { id := id, state := .held, holder := Config.house, other := 0, terms := 0, deadline := none, termEnd := none, frac := 0
    termPosted := false, keepBoth := false, lapsedBorrower := false, inherited := false, recovery := none }

/-- The house at reset (R52, R56). -/
def Owner.house : Owner :=
  { id := Config.house, heir := Config.house, keepAlive := 0, renewed := 0, renewedFrac := 0, lapsed := false, notice := 0, dumpKey := none
    saveFrame := none, salt := 0, dumpCursor := 0xC0000, images := [], emulent := .zero, emulcore := 0
    assayreq := .zero, assaystat := 0, dissolving := none, seed := none, founded := none }

/-- The capability of a host queue 0 at START: R, W, X, EN and FB over the host window (R410). -/
def hostWindowCap (cursor : U64) : Cap :=
  -- perms 0xE60, otype 0, E = 31, T = 2^17, B = 0: base 0x0080 × 2^48, length 2^48
  { bits := (0xE60#12 ++ 0#8 ++ 31#6 ++ 0x20000#18 ++ 0#18 ++ 0#2 ++ cursor : BitVec 128), tag := true }

/-- Host work queue 0 starts bound to launch context 0 of die 0 (R410). -/
def HostQ.zero : HostQ :=
  { q := 0, ctx := some (0, 0), cap0 := hostWindowCap 0x0080000000000000#64, cap1 := hostWindowCap 0x0080000000000000#64
    blocks := [], dropped := 0 }

/-- Class 0 of a die at reset (R87). -/
def Cls.zero (die : BitVec 2) : Cls :=
  { die := die, cls := 0, owner := Config.house, floor := 32, ceiling := 32, ways := 32, hits := List.replicate 32 0
    misses := 0 }

/-- The machine right after reset: firmware verified, memory tested, holdings endowed, waiting for the host (R407); no slot
runs until START (R410). -/
def State.reset : State :=
  { self := Slot.blank 0 0, others := [], cores := [], looms := [], ctxs := [], engines := [], entries := [], owners := [Owner.house]
    rights := [], hostGone := [], trans := [], mem := [], behind := [], kept := [], tags := [], poison := [], sealedLines := []
    recs := [], older := [], routed := [], errorsOwed := [], upcalls := [], faultsHeld := [], revoked := [], sweeps := [], keys := [], dirtyLog := [], regions := [], releases := []
    launches := [], chainMsgs := [], chainNotes := [], barriers := [], stageqs := [], hostqs := [HostQ.zero], endpoints := []
    classes := [Cls.zero 0, Cls.zero 1, Cls.zero 2, Cls.zero 3], rebalanced := [], ways := [], pool := [], receipts := 0, cycle := 0
    us := 0, usFrac := 0, clock := Config.ratedMHz, devstat := 0, devnum := 0, bootstat := 3, startReg := 0, links := [], boots := 0, bootKeys := BootKeys.drawn 0
    unreachable := [], ide := [], requests := [], quarantined := [], out := [], nextTxn := 0, nextId := 0, agenda := [], free := 0, picked := false }

end Sys2Proof.Machine
end

