-- ==== Sys2Proof/Machine/Flags.lean ====
section
/-! DEFINITION. The floating-point flags (R216) and how they gather in FLAGS (R167). -/
namespace Sys2Proof.Machine

/-- The five flags: invalid, divide by zero, overflow, underflow, inexact. -/
structure FFlags where
  nv : Bool
  dz : Bool
  ofl : Bool
  ufl : Bool
  nx : Bool
deriving DecidableEq, Repr

def FFlags.none : FFlags := { nv := false, dz := false, ofl := false, ufl := false, nx := false }
def FFlags.or (a b : FFlags) : FFlags :=
  { nv := a.nv || b.nv, dz := a.dz || b.dz, ofl := a.ofl || b.ofl, ufl := a.ufl || b.ufl, nx := a.nx || b.nx }
/-- The flags at their places in FLAGS: [4] NV, [3] DZ, [2] OF, [1] UF, [0] NX. -/
def FFlags.bits (f : FFlags) : U64 :=
  (if f.nv then 16 else 0) ||| (if f.dz then 8 else 0) ||| (if f.ofl then 4 else 0) ||| (if f.ufl then 2 else 0)
    ||| (if f.nx then 1 else 0)

/-- FLAGS only gathers: a set bit stays set (R216). The bits that were clear are the window's (R158). -/
def State.addFlags (s : State) (f : FFlags) : State :=
  { s with self := { s.self with
      flags := s.self.flags ||| f.bits, winFlags := s.self.winFlags ||| (f.bits &&& ~~~s.self.flags) } }

end Sys2Proof.Machine
end

