-- ==== Sys2Proof/Machine/Float.lean ====
section
/-! DEFINITION. The floating-point formats (R213, R214), exact values, rounding (R215), the operations of R223, R225 and R229
on exact values, the narrowings of R217 and the conversions of R232. Every result is the exact one rounded once. -/
namespace Sys2Proof.Machine

/-- A floating-point format: exponent width, mantissa width, bias; `ieee` is false for E4M3, which has no infinity (R213). -/
structure Fmt where
  ew : Nat
  mw : Nat
  bias : Nat
  ieee : Bool
deriving DecidableEq, Repr

def Fmt.f32 : Fmt := { ew := 8, mw := 23, bias := 127, ieee := true }
def Fmt.f16 : Fmt := { ew := 5, mw := 10, bias := 15, ieee := true }
def Fmt.bf16 : Fmt := { ew := 8, mw := 7, bias := 127, ieee := true }
def Fmt.e4m3 : Fmt := { ew := 4, mw := 3, bias := 7, ieee := false }
def Fmt.e5m2 : Fmt := { ew := 5, mw := 2, bias := 15, ieee := true }

def Fmt.width (f : Fmt) : Nat := 1 + f.ew + f.mw
/-- The exponent of the last mantissa place of subnormals. -/
def Fmt.minQ (f : Fmt) : Int := 1 - (f.bias : Int) - f.mw
/-- The largest finite value is `maxM` × 2 ^ `maxQ`. -/
def Fmt.maxM (f : Fmt) : Nat := if f.ieee then 2 ^ (f.mw + 1) - 1 else 2 ^ (f.mw + 1) - 2
def Fmt.maxField (f : Fmt) : Nat := if f.ieee then 2 ^ f.ew - 2 else 2 ^ f.ew - 1
def Fmt.maxQ (f : Fmt) : Int := (f.maxField : Int) - f.bias - f.mw
/-- The canonical NaN (R214). -/
def Fmt.nan (f : Fmt) : Nat :=
  if f.ieee then (2 ^ f.ew - 1) * 2 ^ f.mw + 2 ^ (f.mw - 1) else 2 ^ (f.ew + f.mw) - 1
def Fmt.inf (f : Fmt) (neg : Bool) : Nat :=
  (if neg then 2 ^ (f.ew + f.mw) else 0) + (2 ^ f.ew - 1) * 2 ^ f.mw
def Fmt.largest (f : Fmt) (neg : Bool) : Nat :=
  (if neg then 2 ^ (f.ew + f.mw) else 0) + f.maxField * 2 ^ f.mw + (f.maxM - 2 ^ f.mw)
def Fmt.zero (f : Fmt) (neg : Bool) : Nat := if neg then 2 ^ (f.ew + f.mw) else 0

/-- What a field of bits denotes: a NaN, an infinity, or (−1)^neg × m × 2^e. -/
inductive FVal where
  | nan (signalling : Bool)
  | inf (neg : Bool)
  | fin (neg : Bool) (m : Nat) (e : Int)
deriving DecidableEq, Repr

/-- The value of a field (R213, R214). -/
def Fmt.decode (f : Fmt) (b : Nat) : FVal :=
  let neg := decide (b / 2 ^ (f.ew + f.mw) % 2 = 1)
  let e := b / 2 ^ f.mw % 2 ^ f.ew
  let m := b % 2 ^ f.mw
  if f.ieee ∧ e = 2 ^ f.ew - 1 then
    if m = 0 then .inf neg else .nan (decide (m < 2 ^ (f.mw - 1)))
  else if ¬ f.ieee ∧ e = 2 ^ f.ew - 1 ∧ m = 2 ^ f.mw - 1 then .nan false
  else if e = 0 then .fin neg m f.minQ
  else .fin neg (2 ^ f.mw + m) ((e : Int) - f.bias - f.mw)

def FVal.isNan : FVal → Bool
  | .nan _ => true
  | _ => false
def FVal.isSig : FVal → Bool
  | .nan q => q
  | _ => false
def FVal.isZero : FVal → Bool
  | .fin _ m _ => m == 0
  | _ => false
def FVal.sign : FVal → Bool
  | .nan _ => false
  | .inf n => n
  | .fin n _ _ => n
def FVal.negate : FVal → FVal
  | .nan q => .nan q
  | .inf n => .inf (!n)
  | .fin n m e => .fin (!n) m e

/-- The four rounding modes (R215). -/
inductive RMode where
  | rne | rtz | rdn | rup
deriving DecidableEq, Repr

def RMode.ofCode (c : Nat) : RMode := match c % 4 with
  | 0 => .rne
  | 1 => .rtz
  | 2 => .rdn
  | _ => .rup

/-- A power of two of an integer exponent, as a numerator and a denominator. -/
def scaleNum (n : Nat) (e : Int) : Nat := if 0 ≤ e then n * 2 ^ e.toNat else n
def scaleDen (e : Int) : Nat := if 0 ≤ e then 1 else 2 ^ (-e).toNat

/-- num / den rounded to an integer in a mode, for a value of the given sign, and whether it was inexact. -/
def roundQuot (mode : RMode) (neg : Bool) (num den : Nat) : Nat × Bool :=
  let q := num / den
  let r := num % den
  let up := match mode with
    | .rne => decide (2 * r > den) || (decide (2 * r = den) && decide (q % 2 = 1))
    | .rtz => false
    | .rdn => neg && decide (0 < r)
    | .rup => !neg && decide (0 < r)
  (if up then q + 1 else q, decide (0 < r))

/-- The exponent of the highest bit of num / den. -/
def ratLog2 (num den : Nat) : Int :=
  let e : Int := (Nat.log2 num : Int) - Nat.log2 den
  if scaleNum num (-e) < den * scaleNum 1 e then e - 1 else e

/-- The bits of mant × 2^q, with mant at most 2^(mw+1). -/
def Fmt.pack (f : Fmt) (neg : Bool) (mant : Nat) (q : Int) : Nat :=
  let s := if neg then 2 ^ (f.ew + f.mw) else 0
  if mant < 2 ^ f.mw then s + mant
  else if mant = 2 ^ (f.mw + 1) then s + (q + 1 + f.mw + f.bias).toNat * 2 ^ f.mw
  else s + (q + f.mw + f.bias).toNat * 2 ^ f.mw + (mant - 2 ^ f.mw)

/-- What an overflow gives (R215). -/
def overflowBits (f : Fmt) (mode : RMode) (neg : Bool) : Nat :=
  let inf := match mode with
    | .rne => true
    | .rtz => false
    | .rdn => neg
    | .rup => !neg
  if inf then (if f.ieee then f.inf neg else f.nan) else f.largest neg

/-- The nonzero value (−1)^neg × num / den rounded once to a format, with its flags (R215, R216). -/
def roundRat (f : Fmt) (mode : RMode) (neg : Bool) (num den : Nat) : Nat × FFlags :=
  let l := ratLog2 num den
  let q := max (l - f.mw) f.minQ
  let r := roundQuot mode neg (scaleNum num (-q)) (den * scaleNum 1 q)
  let m := r.1
  let spent := decide (f.maxQ < q) || (decide (q = f.maxQ) && decide (f.maxM < m))
  if spent then (overflowBits f mode neg, { FFlags.none with ofl := true, nx := true })
  else
    (f.pack neg m q, { FFlags.none with ufl := r.2 && decide (l < f.minQ + f.mw), nx := r.2 })

/-- A value rounded once to a format. -/
def roundVal (f : Fmt) (mode : RMode) : FVal → Nat × FFlags
  | .nan _ => (f.nan, .none)
  | .inf n => (if f.ieee then f.inf n else f.nan, .none)
  | .fin n m e => if m = 0 then (f.zero n, .none) else roundRat f mode n (scaleNum m e) (scaleDen e)

/-- The flag an invalid operation or a signalling operand sets. -/
def invalid (b : Bool) : FFlags := { FFlags.none with nv := b }

/-- The exact product, and whether it is 0 × ∞ (R216). -/
def mulVal : FVal → FVal → FVal × Bool
  | .nan _, .inf _ => (.nan false, false)
  | .nan _, _ => (.nan false, false)
  | _, .nan _ => (.nan false, false)
  | .inf a, .inf b => (.inf (a != b), false)
  | .inf a, .fin b m _ => if m = 0 then (.nan false, true) else (.inf (a != b), false)
  | .fin a m _, .inf b => if m = 0 then (.nan false, true) else (.inf (a != b), false)
  | .fin a m e, .fin b n k => (.fin (a != b) (m * n) (e + k), false)

/-- A finite value as an integer at exponent `k`, which is at most its own. -/
def finInt (neg : Bool) (m : Nat) (e k : Int) : Int :=
  let v : Int := (m * 2 ^ (e - k).toNat : Nat)
  if neg then -v else v

/-- The exact sum, and whether it is ∞ − ∞; a zero sum of opposite signs follows R215. -/
def addVal (mode : RMode) : FVal → FVal → FVal × Bool
  | .nan _, _ => (.nan false, false)
  | _, .nan _ => (.nan false, false)
  | .inf a, .inf b => if a = b then (.inf a, false) else (.nan false, true)
  | .inf a, .fin _ _ _ => (.inf a, false)
  | .fin _ _ _, .inf b => (.inf b, false)
  | .fin a m e, .fin b n k =>
    let q := min e k
    let v := finInt a m e q + finInt b n k q
    if v = 0 then (.fin (if a = b then a else mode == .rdn) 0 0, false)
    else (.fin (decide (v < 0)) v.natAbs q, false)

/-- x × y + z with one rounding (R223), flags included. -/
def fmaBits (f : Fmt) (mode : RMode) (x y z : FVal) : Nat × FFlags :=
  let p := mulVal x y
  let t := addVal mode p.1 z
  let r := roundVal f mode t.1
  (r.1, r.2.or (invalid (x.isSig || y.isSig || z.isSig || p.2 || t.2)))

def addBits (f : Fmt) (mode : RMode) (x y : FVal) : Nat × FFlags :=
  let t := addVal mode x y
  let r := roundVal f mode t.1
  (r.1, r.2.or (invalid (x.isSig || y.isSig || t.2)))

def mulBits (f : Fmt) (mode : RMode) (x y : FVal) : Nat × FFlags :=
  let p := mulVal x y
  let r := roundVal f mode p.1
  (r.1, r.2.or (invalid (x.isSig || y.isSig || p.2)))

/-- x / y rounded once (R223). -/
def divBits (f : Fmt) (mode : RMode) (x y : FVal) : Nat × FFlags :=
  match x, y with
  | .nan _, _ => (f.nan, invalid (x.isSig || y.isSig))
  | _, .nan _ => (f.nan, invalid (x.isSig || y.isSig))
  | .inf _, .inf _ => (f.nan, invalid true)
  | .inf a, .fin b _ _ => (f.inf (a != b), .none)
  | .fin a _ _, .inf b => (f.zero (a != b), .none)
  | .fin a m e, .fin b n k =>
    if n = 0 then
      if m = 0 then (f.nan, invalid true) else (f.inf (a != b), { FFlags.none with dz := true })
    else if m = 0 then (f.zero (a != b), .none)
    else roundRat f mode (a != b) (scaleNum m (e - k)) (n * scaleDen (e - k))

/-- The integer square root, `k` bits of it still to find, below `r` + 2^k. -/
def isqrtFrom (n : Nat) : Nat → Nat → Nat
  | 0, r => r
  | k + 1, r => if (r + 2 ^ k) * (r + 2 ^ k) ≤ n then isqrtFrom n k (r + 2 ^ k) else isqrtFrom n k r
def isqrt (n : Nat) : Nat := isqrtFrom n (Nat.log2 n / 2 + 1) 0

/-- √x rounded once (R223). -/
def sqrtBits (f : Fmt) (mode : RMode) (x : FVal) : Nat × FFlags :=
  match x with
  | .nan q => (f.nan, invalid q)
  | .inf n => if n then (f.nan, invalid true) else (f.inf false, .none)
  | .fin n m e =>
    if m = 0 then (f.zero n, .none)
    else if n then (f.nan, invalid true)
    else
      -- an even exponent, and 64 places below the last that can matter; the last place is sticky
      let odd := decide (e % 2 = 1)
      let m2 := (if odd then 2 * m else m) * 2 ^ 128
      let e2 := ((if odd then e - 1 else e) - 128) / 2
      let r := isqrt m2
      let st := 2 * r + (if r * r = m2 then 0 else 1)
      roundRat f mode false (scaleNum st (e2 - 1)) (scaleDen (e2 - 1))

/-- Numeric order of two values that are not NaNs: negative, zero or positive as x is below, equal to or above y. -/
def cmpVal : FVal → FVal → Int
  | .nan _, _ => 0
  | _, .nan _ => 0
  | .inf a, .inf b => if a = b then 0 else if a then -1 else 1
  | .inf a, .fin _ _ _ => if a then -1 else 1
  | .fin _ _ _, .inf b => if b then 1 else -1
  | .fin a m e, .fin b n k =>
    let q := min e k
    finInt a m e q - finInt b n k q

/-- VFMIN, or VFMAX with `big` (R223): −0 below +0, a NaN ignored beside a number. -/
def minMaxBits (f : Fmt) (big : Bool) (bx bz : Nat) : Nat × FFlags :=
  let x := f.decode bx
  let z := f.decode bz
  let fl := invalid (x.isSig || z.isSig)
  if x.isNan && z.isNan then (f.nan, fl)
  else if x.isNan then (bz, fl)
  else if z.isNan then (bx, fl)
  else
    let c := cmpVal x z
    let xLess := if c = 0 then x.sign && !z.sign else decide (c < 0)
    let zLess := if c = 0 then z.sign && !x.sign else decide (0 < c)
    (if big then (if xLess then bz else bx) else (if zLess then bz else bx), fl)

/-! ### 2^x, correctly rounded (R223) -/

/-- Binary places of the working values of 2^x; the largest result's last place lies 2^-150 below 1 at the least. -/
def expPlaces : Nat := 512

/-- ln 2 × 2^expPlaces, from below: the sum of 1 / (k 2^k). -/
def ln2Below : Nat := (List.range 520).foldl (fun s k => s + 2 ^ expPlaces / ((k + 1) * 2 ^ (k + 1))) 0

/-- The powers of a reduced argument over factorials, summed, from below. -/
def expSeries (y : Nat) : Nat → Nat → Nat → Nat
  | 0, _, _ => 0
  | n + 1, k, t => t + expSeries y n (k + 1) (t * y / 2 ^ expPlaces / (k + 1))

/-- 2^x rounded once. An x that is no integer gives an irrational power, so the places below the last kept are sticky. -/
def exp2Bits (f : Fmt) (mode : RMode) (x : FVal) : Nat × FFlags :=
  match x with
  | .nan q => (f.nan, invalid q)
  | .inf n => if n then (f.zero false, .none) else (f.inf false, .none)
  | .fin n m e =>
    if m = 0 then roundRat f mode false 1 1
    else if decide (20 < (Nat.log2 m : Int) + e) then
      -- |x| above 2^20: far outside the range of every format
      if n then roundRat f mode false 1 (2 ^ 2000) else roundRat f mode false (2 ^ 2000) 1
    else
      let v := finInt n m e (min e 0)
      let d : Int := (2 ^ (-(min e 0)).toNat : Nat)
      let whole := v / d
      let frac := v % d
      if frac = 0 then roundRat f mode false (scaleNum 1 whole) (scaleDen whole)
      else
        let y := ln2Below * frac.toNat / d.toNat
        let s := expSeries y 160 0 (2 ^ expPlaces)
        let st := 2 * s + 1
        let k := whole - expPlaces - 1
        roundRat f mode false (scaleNum st k) (scaleDen k)

/-! ### Conversions (R217, R232) -/

/-- A float to a float of another format; `sat` is the VC field. -/
def convertFF (src dst : Fmt) (mode : RMode) (sat : Bool) (b : Nat) : Nat × FFlags :=
  let narrow := decide (dst.width = 8)
  match src.decode b with
  | .nan q => (dst.nan, invalid q)
  | .inf n =>
    if dst.ieee then
      if narrow && sat then (dst.largest n, .none) else (dst.inf n, .none)
    else if sat then (dst.largest n, .none) else (dst.nan, invalid true)
  | .fin n m e =>
    if m = 0 then (dst.zero n, .none)
    else
      let r := roundRat dst mode n (scaleNum m e) (scaleDen e)
      if narrow && sat && r.2.ofl then (dst.largest n, r.2) else r

/-- An integer to a float. -/
def convertIF (dst : Fmt) (mode : RMode) (sat : Bool) (v : Int) : Nat × FFlags :=
  if v = 0 then (dst.zero false, .none)
  else
    let r := roundRat dst mode (decide (v < 0)) v.natAbs 1
    if decide (dst.width = 8) && sat && r.2.ofl then (dst.largest (decide (v < 0)), r.2) else r

/-- A float to an integer between `lo` and `hi`: rounded, then clamped. -/
def convertFI (src : Fmt) (mode : RMode) (lo hi : Int) (b : Nat) : Int × FFlags :=
  match src.decode b with
  | .nan _ => (0, invalid true)
  | .inf n => (if n then lo else hi, invalid true)
  | .fin n m e =>
    let r := roundQuot mode n (scaleNum m e) (scaleDen e)
    let v : Int := if n then -(r.1 : Int) else r.1
    if v < lo then (lo, invalid true)
    else if hi < v then (hi, invalid true)
    else (v, { FFlags.none with nx := r.2 })

/-! ### Rationals of VQUANT (R233) -/

/-- A signed rational: numerator and positive denominator. -/
structure Rat2 where
  num : Int
  den : Nat
deriving DecidableEq, Repr

def Rat2.ofVal : FVal → Rat2
  | .fin n m e => { num := if n then -(scaleNum m e : Int) else scaleNum m e, den := scaleDen e }
  | _ => { num := 0, den := 1 }
def Rat2.le (a b : Rat2) : Bool := decide (a.num * b.den ≤ b.num * a.den)
def Rat2.sub (a b : Rat2) : Rat2 := { num := a.num * b.den - b.num * a.den, den := a.den * b.den }
def Rat2.abs (a : Rat2) : Rat2 := { a with num := a.num.natAbs }
/-- The nearest integer of a / b, ties to even; b is positive. -/
def Rat2.rneDiv (a b : Rat2) : Int :=
  let n := a.num.natAbs * b.den
  let d := a.den * b.num.natAbs
  let q := (roundQuot .rne (decide (a.num < 0)) n d).1
  if a.num < 0 then -(q : Int) else q
/-- The least FP16 value at or above a non-negative rational, or 65,504 where it exceeds that. -/
def rup16 (a : Rat2) : Nat :=
  if a.num ≤ 0 then 0
  else
    let r := roundRat .f16 .rup false a.num.toNat a.den
    if r.2.ofl then Fmt.f16.largest false else r.1

end Sys2Proof.Machine
end

