-- ==== Sys2Proof/Machine/Mem.lean ====
section
/-! DEFINITION. Memory as a list of (address, byte) in one canonical form: addresses strictly rising and no zero byte listed,
since an unlisted byte reads 0 (log 2). Keyed lists of records, and sets of numbers, in rising order. -/
namespace Sys2Proof.Machine

/-- The canonical form of a memory list. -/
abbrev Memory.wf (m : List Host.Cell) : Prop :=
  m.Pairwise (fun c d => c.1 < d.1) ∧ ∀ c ∈ m, c.2 ≠ 0#8

/-- The byte at an address. -/
def Memory.get : List Host.Cell → Nat → U8
  | [], _ => 0
  | (b, w) :: m, a => if a = b then w else Memory.get m a

/-- A byte put before the first higher address. -/
def Memory.put : List Host.Cell → Nat → U8 → List Host.Cell
  | [], a, v => [(a, v)]
  | (b, w) :: m, a, v => if a < b then (a, v) :: (b, w) :: m else (b, w) :: Memory.put m a v

/-- Write one byte: the address is no longer listed, and then it is, unless the byte is 0. -/
def Memory.set (m : List Host.Cell) (a : Nat) (v : U8) : List Host.Cell :=
  let r := m.filter (fun c => c.1 != a)
  if v = 0 then r else Memory.put r a v

/-- The `n` bytes at `a` as a little-endian number (R197). -/
def Memory.readN (m : List Host.Cell) (a : Nat) : Nat → Nat
  | 0 => 0
  | n + 1 => (Memory.get m a).toNat + 256 * Memory.readN m (a + 1) n

/-- Write the low `n` bytes of a number, little-endian (R197). -/
def Memory.writeN (m : List Host.Cell) (a : Nat) : Nat → Nat → List Host.Cell
  | 0, _ => m
  | n + 1, v => Memory.writeN (Memory.set m a (BitVec.ofNat 8 v)) (a + 1) n (v / 256)

/-- The bytes at `a`. -/
def Memory.readList (m : List Host.Cell) (a n : Nat) : List U8 :=
  (List.range n).map (fun i => Memory.get m (a + i))

/-- Zero the addresses from `lo` up to `hi`. -/
def Memory.clear (m : List Host.Cell) (lo hi : Nat) : List Host.Cell :=
  m.filter (fun c => decide (c.1 < lo) || decide (hi ≤ c.1))

/-- The listed bytes from `lo` up to `hi`. -/
def Memory.part (m : List Host.Cell) (lo hi : Nat) : List Host.Cell :=
  m.filter (fun c => decide (lo ≤ c.1) && decide (c.1 < hi))

/-- Replace everything from `lo` up to `hi` by cells that lie there in rising order. -/
def Memory.splice (m : List Host.Cell) (lo hi : Nat) (new : List Host.Cell) : List Host.Cell :=
  m.filter (fun c => decide (c.1 < lo)) ++ new ++ m.filter (fun c => decide (hi ≤ c.1))

/-- A list of bytes as cells from `a` on. -/
def Memory.cells (a : Nat) : List U8 → List Host.Cell
  | [] => []
  | v :: l => if v = 0 then Memory.cells (a + 1) l else (a, v) :: Memory.cells (a + 1) l

/-- Write a list of bytes. -/
def Memory.writeList (m : List Host.Cell) (a : Nat) (l : List U8) : List Host.Cell :=
  Memory.splice m a (a + l.length) (Memory.cells a l)

/-- Copy `n` bytes from `src` to `dst`, all read before any is written. -/
def Memory.copy (m : List Host.Cell) (src dst n : Nat) : List Host.Cell :=
  Memory.splice m dst (dst + n) ((Memory.part m src (src + n)).map (fun c => (c.1 - src + dst, c.2)))

/-- A set of numbers as a rising list: add one. -/
def setAdd : List Nat → Nat → List Nat
  | [], a => [a]
  | b :: l, a => if a < b then a :: b :: l else if a = b then b :: l else b :: setAdd l a

/-- Remove the numbers from `lo` up to `hi`. -/
def setClear (l : List Nat) (lo hi : Nat) : List Nat :=
  l.filter (fun a => decide (a < lo) || decide (hi ≤ a))

/-- Put one number into a set or take it out. -/
def setPut (l : List Nat) (a : Nat) (present : Bool) : List Nat :=
  if present then setAdd l a else l.filter (fun b => decide (b ≠ a))

/-- The members from `lo` up to `hi`. -/
def setPart (l : List Nat) (lo hi : Nat) : List Nat :=
  l.filter (fun a => decide (lo ≤ a) && decide (a < hi))

/-- The record with a key. -/
def findBy {α : Type} (key : α → Nat) (k : Nat) : List α → Option α
  | [] => none
  | y :: l => if key y = k then some y else findBy key k l

/-- Put a record in its place by key, replacing one of the same key. -/
def putBy {α : Type} (key : α → Nat) (x : α) : List α → List α
  | [] => [x]
  | y :: l => if key x < key y then x :: y :: l else if key x = key y then x :: l else y :: putBy key x l

/-- Take the record with a key out. -/
def dropBy {α : Type} (key : α → Nat) (k : Nat) (l : List α) : List α :=
  l.filter (fun y => decide (key y ≠ k))

end Sys2Proof.Machine
end

