-- ==== Sys2Proof/Machine/Array.lean ====
section
/-! DEFINITION. Tiles and the loom's arithmetic: shapes (R238, R239), elements (R237, R218), the exact accumulation of a matrix
command (R251, R252), the rows of a drain (R255). -/
namespace Sys2Proof.Machine

/-! ### Shapes -/

def shapeRows (w : U64) : Nat := (w.extractLsb' 0 8).toNat + 1
def shapeCols (w : U64) : Nat := (w.extractLsb' 8 8).toNat + 1
def shapeFmt (w : U64) : Nat := (w.extractLsb' 16 4).toNat
def shapeStrip (w : U64) : Bool := w.getLsbD 20

/-- The width in bits of tile format codes 0 to 7 (R170). -/
def fmtBits (c : Nat) : Nat := if c = 2 ∨ c = 3 then 16 else if c = 6 ∨ c = 7 then 4 else 8

/-- R239. -/
def shapeValid (w : U64) : Bool :=
  let b := fmtBits (shapeFmt w)
  decide (shapeFmt w < 8) && decide (shapeRows w * shapeCols w * b ≤ 65536) && decide (shapeCols w * b % 8 = 0)

/-- Bytes of a row (R241). -/
def shapeRowBytes (w : U64) : Nat := shapeCols w * fmtBits (shapeFmt w) / 8

/-- The bits of element (r, c) (R237). -/
def tileElem (t : TileData) (w : U64) (r c : Nat) : Nat :=
  let b := fmtBits (shapeFmt w)
  (t.extractLsb' ((r * shapeCols w + c) * b) b).toNat

/-- The floating-point format of tile format codes 0 to 3. -/
def tileFloat : Nat → Fmt
  | 0 => .e4m3
  | 1 => .e5m2
  | 2 => .f16
  | _ => .bf16

/-- A two's-complement field of `b` bits as an integer. -/
def signedOf (b v : Nat) : Int := if v < 2 ^ (b - 1) then v else (v : Int) - 2 ^ b

/-- val of R251 as an integer and an exponent of two; none for a NaN or an infinity. -/
def tileVal (fmt v : Nat) : Option (Int × Int) :=
  if fmt < 4 then
    match (tileFloat fmt).decode v with
    | .fin n m e => some (if n then -(m : Int) else m, e)
    | _ => none
  else if fmt = 4 then some (signedOf 8 v, 0)
  else if fmt = 6 then some (signedOf 4 v, 0)
  else some (v, 0)

/-! ### Pairs (R250) -/

/-- The formats of a pair, A then B. -/
def pairFormats : Nat → Nat × Nat
  | 0 => (0, 0)
  | 1 => (0, 1)
  | 2 => (1, 0)
  | 3 => (1, 1)
  | 4 => (2, 2)
  | 5 => (3, 3)
  | 6 => (4, 4)
  | 7 => (4, 5)
  | 8 => (5, 5)
  | 9 => (4, 6)
  | 10 => (4, 7)
  | 11 => (5, 7)
  | 12 => (6, 6)
  | 13 => (7, 7)
  | _ => (6, 7)

/-- The largest K of a pair. -/
def pairKMax (p : Nat) : Nat := if p = 4 ∨ p = 5 then 32 else if 12 ≤ p then 128 else 64

/-- The default window exponent of a pair. -/
def pairWindow : Nat → Int
  | 0 => -18
  | 1 => -25
  | 2 => -25
  | 3 => -32
  | 4 => -48
  | 5 => -64
  | _ => 0

/-- Whether two shapes fit a pair (R251). -/
def shapesFit (p : Nat) (a b : U64) : Bool :=
  shapeValid a && shapeValid b && decide (shapeFmt a = (pairFormats p).1) && decide (shapeFmt b = (pairFormats p).2)
    && decide (shapeCols a = shapeRows b) && decide (shapeCols a ≤ pairKMax p)

/-! ### The array -/

/-- The INVALID marker (R252). -/
def accInvalid : U128 := BitVec.ofInt 128 (-2 ^ 127)
def accMax : Int := 2 ^ 127 - 1

/-- x × 2^e rounded to an integer, ties to even, and whether it was inexact. -/
def rneScaled (x e : Int) : Int × Bool :=
  if 0 ≤ e then (x * 2 ^ e.toNat, false)
  else
    let r := roundQuot .rne (decide (x < 0)) x.natAbs (2 ^ (-e).toNat)
    (if x < 0 then -(r.1 : Int) else r.1, r.2)

/-- The sum over k of the rounded products of one cell, with `za` and `zb` subtracted; none when an operand is no number. -/
def dotCell (za zb w : Int) : List (Option (Int × Int)) → List (Option (Int × Int)) → Option (Int × Bool)
  | some (x, e) :: l, some (y, k) :: m =>
    match dotCell za zb w l m with
    | none => none
    | some (s, ix) =>
      -- zero points exist only beside integer codes, whose exponent is 0
      let t := rneScaled ((x - za) * (y - zb)) (e + k - w)
      some (s + t.1, ix || t.2)
  | [], _ => some (0, false)
  | _, [] => some (0, false)
  | _, _ => none

/-- What one command adds to a cell: the new accumulator and the flags INEXACT, OVERFLOW, INVALID from bit 0 up. -/
def accStep (old : U128) (d : Option (Int × Bool)) : U128 × BitVec 3 :=
  match d with
  | none => (accInvalid, 4#3)
  | some (s, ix) =>
    let f : BitVec 3 := if ix then 1 else 0
    if old = accInvalid then (old, f)
    else
      let v := old.toInt + s
      if v.natAbs ≤ accMax.natAbs then (BitVec.ofInt 128 v, f)
      else (BitVec.ofInt 128 (if v < 0 then -accMax else accMax), f ||| 2#3)

/-- Sum two rising keyed lists of cells: every update is applied to the old accumulator or to 0. -/
def accMerge : Nat → List (Nat × U128) → List (Nat × Option (Int × Bool)) → List (Nat × U128)
  | 0, old, _ => old
  | _, old, [] => old
  | n + 1, [], (k, d) :: u =>
    let r := accStep 0 d
    if r.1 = 0 then accMerge n [] u else (k, r.1) :: accMerge n [] u
  | n + 1, (j, x) :: old, (k, d) :: u =>
    if j < k then (j, x) :: accMerge n old ((k, d) :: u)
    else if j = k then
      let r := accStep x d
      if r.1 = 0 then accMerge n old u else (k, r.1) :: accMerge n old u
    else
      let r := accStep 0 d
      if r.1 = 0 then accMerge n ((j, x) :: old) u else (k, r.1) :: accMerge n ((j, x) :: old) u

/-- The accumulator of cell (i, j); unlisted cells are 0. -/
def Loom.cell (l : Loom) (i j : Nat) : U128 :=
  match findBy (·.1) (i * 128 + j) l.acc with
  | some x => x.2
  | none => 0

/-- The flags of row i. -/
def Loom.rowFlags (l : Loom) (i : Nat) : BitVec 3 :=
  match findBy (·.1) i l.flags with
  | some x => x.2
  | none => 0

/-- A matrix command performed by the array on tiles `a` and `b` with their shapes and strips (R251). -/
def Loom.perform (l : Loom) (pair : Nat) (zp : Bool) (ta : TileData) (sa : Strip) (wa : U64) (tb : TileData) (sb : Strip)
    (wb : U64) : Loom :=
  let w : Int := if l.dflt then pairWindow pair else l.w.toInt
  -- the array has 128 rows and 128 columns of cells; what a larger shape names beyond them has no cell (log 26)
  let m := min 128 (shapeRows wa)
  let kk := shapeCols wa
  let n := min 128 (shapeCols wb)
  let fa := shapeFmt wa
  let fb := shapeFmt wb
  let za (i : Nat) : Int :=
    if zp && (fa == 5 || fa == 7) && shapeStrip wa then ((sa.extractLsb' (8 * i) (fmtBits fa)).toNat : Int) else 0
  let zb (j : Nat) : Int :=
    if zp && (fb == 5 || fb == 7) && shapeStrip wb then ((sb.extractLsb' (8 * j) (fmtBits fb)).toNat : Int) else 0
  let rows := (List.range m).map (fun i => (i, (List.range kk).map (fun k => tileVal fa (tileElem ta wa i k))))
  let cols := (List.range n).map (fun j => (j, (List.range kk).map (fun k => tileVal fb (tileElem tb wb k j))))
  let ups := rows.map (fun r => cols.map (fun c => (r.1 * 128 + c.1, dotCell (za r.1) (zb c.1) w r.2 c.2)))
  let flags := (List.range m).foldl
    (fun fl i =>
      let f := ((ups.getD i []).foldl (fun f u => f ||| (accStep (l.cell i (u.1 % 128)) u.2).2) (l.rowFlags i))
      if f = 0 then fl else putBy (·.1) (i, f) fl) l.flags
  let u := ups.flatten
  { l with
    w := BitVec.ofInt 8 w, dflt := false, clear := false, r := max l.r m, c := max l.c n
    acc := accMerge (l.acc.length + u.length) l.acc u, flags := flags }

/-- The accumulators, row flags and extents cleared. -/
def Loom.cleared (l : Loom) : Loom := { l with acc := [], flags := [], r := 0, c := 0, clear := true }

/-! ### Drain rows (R255) -/

/-- The exact value of an accumulator as a float operand. -/
def accVal (a : U128) (w : Int) : FVal := .fin (decide (a.toInt < 0)) a.toInt.natAbs w

/-- Lanes of `b` bits put side by side, lane 0 lowest. -/
def packLanes (b : Nat) : List Nat → Nat
  | [] => 0
  | x :: l => x + 2 ^ b * packLanes b l

/-- A list of numbers of `b` bits as vector registers of `n` lanes. -/
def laneRegs (b n count : Nat) (l : List Nat) : List Vec :=
  (List.range count).map (fun q => BitVec.ofNat 1024 (packLanes b ((l.drop (q * n)).take n)))

def drainF32 (a : U128) (w : Int) : Nat :=
  if a = accInvalid then Fmt.f32.nan else (roundVal .f32 .rne (accVal a w)).1
def drainLow (a : U128) (w : Int) : Nat :=
  if a = accInvalid then Fmt.f32.nan
  else
    match Fmt.f32.decode (drainF32 a w) with
    | .fin n m e => (roundVal .f32 .rne (addVal .rne (accVal a w) (.fin (!n) m e)).1).1
    | _ => 0
def drainS32 (a : U128) (w : Int) : Nat :=
  if a = accInvalid then 0
  else
    let v := (rneScaled a.toInt w).1
    (BitVec.ofInt 32 (if v < -2 ^ 31 then -2 ^ 31 else if 2 ^ 31 - 1 < v then 2 ^ 31 - 1 else v)).toNat

/-- Row i of a drain in a format. -/
def Loom.drainRow (l : Loom) (format : BitVec 2) (i : Nat) : DrainRow :=
  let w := l.w.toInt
  let cells := (List.range 128).map (fun j => if j < l.c then l.cell i j else 0)
  let live (f : U128 → Nat) : List Nat :=
    ((List.range 128).zip cells).map (fun x => if x.1 < l.c then f x.2 else 0)
  let regs := match format.toNat with
    | 0 => laneRegs 32 32 4 (live (fun a => drainF32 a w))
    | 1 =>
      let hi := laneRegs 32 32 4 (live (fun a => drainF32 a w))
      let lo := laneRegs 32 32 4 (live (fun a => drainLow a w))
      (hi.zip lo).flatMap (fun x => [x.1, x.2])
    | 2 => laneRegs 32 32 4 (live (fun a => drainS32 a w))
    | _ => laneRegs 128 8 16 (live (fun a => a.toNat))
  { index := i, regs := regs, flags := l.rowFlags i }

end Sys2Proof.Machine
end

