-- ==== Sys2Proof/Machine/Caps.lean ====
section
/-! DEFINITION. Capabilities: their fields and permissions (R13, R14), their bounds (R16), the representable region (R17),
setting bounds (R18), and the derivations that keep or clear a tag (R21, R200), all as arithmetic on 128 bits and a tag. -/
namespace Sys2Proof

/-- The permissions (R14). -/
inductive Perm where
  | r | w | x | lc | sc | en | fb | sw | se | us
deriving DecidableEq, Repr

/-- The bit of a permission within the 12 bits of perms: R is bit 11. -/
def Perm.index : Perm → Nat
  | .r => 11 | .w => 10 | .x => 9 | .lc => 8 | .sc => 7 | .en => 6 | .fb => 5 | .sw => 4 | .se => 3 | .us => 2

def Cap.perms (c : Cap) : BitVec 12 := c.bits.extractLsb' 116 12
def Cap.otype (c : Cap) : BitVec 8 := c.bits.extractLsb' 108 8
def Cap.expo (c : Cap) : BitVec 6 := c.bits.extractLsb' 102 6
def Cap.mantT (c : Cap) : BitVec 18 := c.bits.extractLsb' 84 18
def Cap.mantB (c : Cap) : BitVec 18 := c.bits.extractLsb' 66 18
def Cap.addr (c : Cap) : U64 := c.bits.extractLsb' 0 64
def Cap.high (c : Cap) : U64 := c.bits.extractLsb' 64 64
def Cap.holds (c : Cap) (q : Perm) : Bool := c.perms.getLsbD q.index
def Cap.isSealed (c : Cap) : Bool := c.otype != 0

/-- The high 64 bits over a new cursor; the tag as it was. -/
def Cap.withAddrBits (c : Cap) (a : U64) : Cap := { c with bits := c.high ++ a }
/-- The value untagged, every bit kept. -/
def Cap.untag (c : Cap) : Cap := { c with tag := false }
/-- The value with another object type (R26, R27). -/
def Cap.withOtype (c : Cap) (o : BitVec 8) : Cap :=
  { c with bits := c.bits.extractLsb' 116 12 ++ o ++ c.bits.extractLsb' 0 108 }
/-- The value with other permissions. -/
def Cap.withPerms (c : Cap) (p : BitVec 12) : Cap := { c with bits := p ++ c.bits.extractLsb' 0 116 }

/-- Base, top and representable region as exact integers (R16). -/
structure Bounds where
  base : Int
  top : Int
  region : Int
  size : Int
deriving DecidableEq, Repr

/-- 1 when the condition holds (R16). -/
def iver (b : Bool) : Int := if b then 1 else 0

/-- R16's decode, with `a` as the cursor. -/
def Cap.boundsAt (c : Cap) (a : U64) : Bounds :=
  let e := Nat.min c.expo.toNat 46
  let t := c.mantT.toNat
  let b := c.mantB.toNat
  if e = 46 then
    { base := b * 2 ^ 46, top := if t = 0 then 2 ^ 64 else t * 2 ^ 46, region := 0, size := 2 ^ 64 }
  else
    let lm := (t + 2 ^ 18 - b) % 2 ^ 18
    let gap := 2 ^ 18 - lm
    let lim := (t + (gap + 1) / 2) % 2 ^ 18
    let aMid := a.toNat / 2 ^ e % 2 ^ 18
    let aTop : Int := (a.toNat / 2 ^ (e + 18) : Nat)
    let low := iver (aMid < lim)
    { base := (aTop + iver (b < lim) - low) * 2 ^ (e + 18) + b * 2 ^ e
      top := (aTop + iver (t < lim) - low) * 2 ^ (e + 18) + t * 2 ^ e
      region := (aTop - low) * 2 ^ (e + 18) + lim * 2 ^ e
      size := 2 ^ (e + 18) }

/-- The bounds of a capability (R16). -/
def Cap.bounds (c : Cap) : Bounds := c.boundsAt c.addr

/-- Whether a cursor is representable, by the present cursor's region (R17). -/
def Cap.representable (c : Cap) (a : U64) : Bool :=
  let k := c.bounds
  decide (k.region ≤ (a.toNat : Int)) && decide ((a.toNat : Int) < k.region + k.size)

/-- The cursor moved under R17: the address is kept, the tag survives only where it is representable. -/
def Cap.moveCursor (c : Cap) (a : U64) : Cap :=
  { c.withAddrBits a with tag := c.tag && c.representable a }

/-- The encoding of base `b` and length `l` at exponent `e` fits 18 bits of length (R18). -/
def boundsFit (b l e : Nat) : Bool :=
  decide ((b + l + 2 ^ e - 1) / 2 ^ e - b / 2 ^ e ≤ 2 ^ 18 - 1)

/-- R18's search, with `k` exponents still to try below 46: exponent, B, T. -/
def encodeBoundsFrom (b l : Nat) : Nat → Nat × Nat × Nat
  | 0 => (46, b / 2 ^ 46 % 2 ^ 18, (b + l + 2 ^ 46 - 1) / 2 ^ 46 % 2 ^ 18)
  | k + 1 =>
    let e := 45 - k
    if boundsFit b l e then (e, b / 2 ^ e % 2 ^ 18, (b + l + 2 ^ e - 1) / 2 ^ e % 2 ^ 18) else encodeBoundsFrom b l k

/-- R18: exponent, B and T for base `b` and length `l`. -/
def encodeBounds (b l : Nat) : Nat × Nat × Nat := encodeBoundsFrom b l 46

/-- The value with bounds re-encoded at its cursor, tag untouched. -/
def Cap.withBounds (c : Cap) (b l : Nat) : Cap :=
  let e := encodeBounds b l
  { c with bits := c.perms ++ c.otype ++ BitVec.ofNat 6 e.1 ++ BitVec.ofNat 18 e.2.2 ++ BitVec.ofNat 18 e.2.1 ++ 0#2 ++ c.addr }

/-- Whether the bounds of `k` lie within those of `c`. -/
def Bounds.within (k c : Bounds) : Bool := decide (c.base ≤ k.base) && decide (k.top ≤ c.top)

/-- CSETB and CSETBX (R200); `ok` is R200's condition on the source, `exact` asks for exact bounds. -/
def Cap.setBounds (c : Cap) (l : Nat) (exact ok : Bool) : Cap :=
  let a := c.addr.toNat
  if a + l > 2 ^ 64 then c.untag
  else
    let n := c.withBounds a l
    let k := n.bounds
    let fits := k.within c.bounds
    let isExact := decide (k.base = (a : Int)) && decide (k.top = ((a + l : Nat) : Int))
    { n with tag := ok && fits && (!exact || isExact) }

/-- CREPLEN (R201): the representable length for length `l`. -/
def repLengthFrom (l : Nat) : Nat → Nat
  | 0 => (l + 2 ^ 46 - 1) / 2 ^ 46 * 2 ^ 46
  | k + 1 =>
    let e := 45 - k
    if (l + 2 ^ e - 1) / 2 ^ e ≤ 2 ^ 18 - 1 then (l + 2 ^ e - 1) / 2 ^ e * 2 ^ e else repLengthFrom l k

def repLength (l : Nat) : Nat := repLengthFrom l 46

/-- Step 5 of R19: an access of `n` bytes at `a` lies within the bounds. -/
def Cap.inBounds (c : Cap) (a n : Nat) : Bool :=
  decide (c.bounds.base ≤ (a : Int)) && decide (((a + n : Nat) : Int) ≤ c.bounds.top)

/-- Tagged, unsealed and holding X: what a trap vector must be (R357). -/
def Cap.isVector (c : Cap) : Bool := c.tag && !c.isSealed && c.holds .x

/-- CTESTSUB (R201): whether `b` is a subset of `a`. -/
def Cap.subset (a b : Cap) : Bool :=
  a.tag && b.tag && !a.isSealed && !b.isSealed && b.bounds.within a.bounds && (b.perms &&& a.perms == b.perms)

/-- A capability with the given bounds at its base, as hardware makes one. -/
def Cap.make (perms : BitVec 12) (otype : BitVec 8) (base length cursor : Nat) : Cap :=
  let e := encodeBounds base length
  { bits := perms ++ otype ++ BitVec.ofNat 6 e.1 ++ BitVec.ofNat 18 e.2.2 ++ BitVec.ofNat 18 e.2.1 ++ 0#2 ++ BitVec.ofNat 64 cursor
    tag := true }

end Sys2Proof
end

