-- ==== Sys2Proof/Machine/Crypto.lean ====
section
/-! DEFINITION. The ciphers and the hash that the sealing units, the swatch units and the assay core apply: AES-256 with
XTS and CMAC (R82, R367), SHA-512 (R57, R98). Byte strings are lists, first byte first. -/
namespace Sys2Proof.Machine

/-! ### Bytes -/

/-- `n` bytes of a number, lowest first. -/
def bytesLE (n v : Nat) : List U8 := (List.range n).map (fun i => BitVec.ofNat 8 (v / 256 ^ i))
/-- The number whose bytes, lowest first, are given. -/
def ofBytesLE : List U8 → Nat
  | [] => 0
  | b :: l => b.toNat + 256 * ofBytesLE l
/-- The number whose bytes, highest first, are given. -/
def ofBytesBE (l : List U8) : Nat := l.foldl (fun n b => n * 256 + b.toNat) 0
/-- `n` bytes of a number, highest first. -/
def bytesBE (n v : Nat) : List U8 := (bytesLE n v).reverse
def xorBytes (a b : List U8) : List U8 := List.zipWith (· ^^^ ·) a b
/-- A list cut into pieces of `k`, at most `n` of them. -/
def chunks (k : Nat) : Nat → List U8 → List (List U8)
  | 0, _ => []
  | n + 1, l => l.take k :: chunks k n (l.drop k)

/-! ### AES-256 -/

/-- Multiplication by x in the field of AES. -/
def xtime (b : U8) : U8 := (b <<< 1) ^^^ (if b.getLsbD 7 then 0x1B#8 else 0#8)
/-- The product of two field elements, by the low `n` bits of the second. -/
def gmulFrom (a b : U8) : Nat → U8
  | 0 => 0
  | n + 1 => xtime (gmulFrom a b n) ^^^ (if b.getLsbD (7 - n) then a else 0#8)
def gmul (a b : U8) : U8 := gmulFrom a b 8
/-- The inverse in the field: the power 254. -/
def ginv (a : U8) : U8 :=
  let a2 := gmul a a
  let a3 := gmul a2 a
  let a6 := gmul a3 a3
  let a12 := gmul a6 a6
  let a15 := gmul a12 a3
  let a30 := gmul a15 a15
  let a60 := gmul a30 a30
  let a120 := gmul a60 a60
  let a126 := gmul a120 a6
  let a127 := gmul a126 a
  gmul a127 a127
def subByte (a : U8) : U8 :=
  let b := ginv a
  b ^^^ b.rotateLeft 1 ^^^ b.rotateLeft 2 ^^^ b.rotateLeft 3 ^^^ b.rotateLeft 4 ^^^ 0x63#8
def invSubByte (a : U8) : U8 := ginv (a.rotateLeft 1 ^^^ a.rotateLeft 3 ^^^ a.rotateLeft 6 ^^^ 0x05#8)

/-- The permutation of a state's bytes: row r moves by `k` r columns. -/
def shiftRowsBy (k : Nat) (s : List U8) : List U8 :=
  (List.range 16).map (fun i => s.getD ((i % 4) + 4 * ((i / 4 + k * (i % 4)) % 4)) 0)
/-- One column times a circulant of four coefficients. -/
def mixWith (c0 c1 c2 c3 : U8) (s : List U8) : List U8 :=
  (List.range 16).map (fun i =>
    let b (j : Nat) := s.getD (4 * (i / 4) + (i + j) % 4) 0
    gmul c0 (b 0) ^^^ gmul c1 (b 1) ^^^ gmul c2 (b 2) ^^^ gmul c3 (b 3))

/-- One more word of the key schedule, from the words so far, latest first; `i` is its number. -/
def keyWord (i : Nat) (w : List (List U8)) : List U8 :=
  let t := w.getD 0 []
  let rcon := (List.range (i / 8 - 1)).foldl (fun r _ => xtime r) 1#8
  let u :=
    if i % 8 = 0 then xorBytes ((t.drop 1 ++ t.take 1).map subByte) [rcon, 0, 0, 0]
    else if i % 8 = 4 then t.map subByte
    else t
  xorBytes (w.getD 7 []) u
/-- The 60 words of the key schedule. -/
def keySchedule (k : BitVec 256) : List (List U8) :=
  let first := (chunks 4 8 (bytesBE 32 k.toNat)).reverse
  ((List.range 52).foldl (fun w j => keyWord (j + 8) w :: w) first).reverse
/-- The 15 round keys. -/
def roundKeys (k : BitVec 256) : List (List U8) :=
  let w := keySchedule k
  (List.range 15).map (fun r => w.getD (4 * r) [] ++ w.getD (4 * r + 1) [] ++ w.getD (4 * r + 2) [] ++ w.getD (4 * r + 3) [])

/-- AES-256 of a 16-byte block. -/
def aesEncrypt (k : BitVec 256) (p : List U8) : List U8 :=
  let rk := roundKeys k
  let s := (List.range 13).foldl
    (fun s r => xorBytes (mixWith 2 3 1 1 (shiftRowsBy 1 (s.map subByte))) (rk.getD (r + 1) [])) (xorBytes p (rk.getD 0 []))
  xorBytes (shiftRowsBy 1 (s.map subByte)) (rk.getD 14 [])
/-- The inverse of AES-256. -/
def aesDecrypt (k : BitVec 256) (c : List U8) : List U8 :=
  let rk := roundKeys k
  let s := (List.range 13).foldl
    (fun s r => mixWith 14 11 13 9 (xorBytes ((shiftRowsBy 3 s).map invSubByte) (rk.getD (13 - r) [])))
    (xorBytes c (rk.getD 14 []))
  xorBytes ((shiftRowsBy 3 s).map invSubByte) (rk.getD 0 [])

/-- The 256-bit key a list of 32 bytes gives. -/
def keyOf (l : List U8) : BitVec 256 := BitVec.ofNat 256 (ofBytesBE l)

/-- The next XTS tweak: times x in the field of 2^128, bytes lowest first. -/
def xtsNext (t : List U8) : List U8 :=
  let v := ofBytesLE t
  let d := v * 2 % 2 ^ 128
  bytesLE 16 (if v / 2 ^ 127 = 1 then (BitVec.ofNat 128 d ^^^ 0x87#128).toNat else d)
/-- XTS over 16-byte blocks, with `f` the block cipher under the data key. -/
def xtsBlocks (f : List U8 → List U8) : List (List U8) → List U8 → List U8
  | [], _ => []
  | b :: l, t => xorBytes (f (xorBytes b t)) t ++ xtsBlocks f l (xtsNext t)
/-- AES-256-XTS encryption of whole blocks under a data key and a tweak key. -/
def xtsEncrypt (kd kt : BitVec 256) (tweak : Nat) (p : List U8) : List U8 :=
  xtsBlocks (aesEncrypt kd) (chunks 16 (p.length / 16) p) (aesEncrypt kt (bytesLE 16 tweak))
def xtsDecrypt (kd kt : BitVec 256) (tweak : Nat) (c : List U8) : List U8 :=
  xtsBlocks (aesDecrypt kd) (chunks 16 (c.length / 16) c) (aesEncrypt kt (bytesLE 16 tweak))

/-- Doubling of a CMAC subkey, bytes highest first. -/
def cmacDouble (b : List U8) : List U8 :=
  let v := ofBytesBE b
  let d := v * 2 % 2 ^ 128
  bytesBE 16 (if v / 2 ^ 127 = 1 then (BitVec.ofNat 128 d ^^^ 0x87#128).toNat else d)
/-- AES-CMAC with AES-256. -/
def cmac (k : BitVec 256) (m : List U8) : List U8 :=
  let k1 := cmacDouble (aesEncrypt k (bytesLE 16 0))
  let n := (m.length + 15) / 16
  let full := m.length % 16 = 0 ∧ m ≠ []
  let head := 16 * (if full then n - 1 else m.length / 16)
  let rest := m.drop head
  let last :=
    if full then xorBytes rest k1
    else xorBytes (rest ++ [0x80#8] ++ List.replicate (15 - rest.length) 0#8) (cmacDouble k1)
  aesEncrypt k (xorBytes ((chunks 16 (head / 16) (m.take head)).foldl (fun x b => aesEncrypt k (xorBytes x b)) (bytesLE 16 0)) last)

/-- The three keys of R82 from a root key: data, tweak and MAC. -/
def rootKey (k : BitVec 256) (i : Nat) : BitVec 256 :=
  keyOf (aesEncrypt k (bytesLE 16 i) ++ aesEncrypt k (bytesLE 16 (i + 1)))

/-! ### SHA-512 -/

def shaK0 : List U64 :=
  [0x428A2F98D728AE22, 0x7137449123EF65CD, 0xB5C0FBCFEC4D3B2F, 0xE9B5DBA58189DBBC, 0x3956C25BF348B538,
   0x59F111F1B605D019, 0x923F82A4AF194F9B, 0xAB1C5ED5DA6D8118, 0xD807AA98A3030242, 0x12835B0145706FBE]
def shaK1 : List U64 :=
  [0x243185BE4EE4B28C, 0x550C7DC3D5FFB4E2, 0x72BE5D74F27B896F, 0x80DEB1FE3B1696B1, 0x9BDC06A725C71235,
   0xC19BF174CF692694, 0xE49B69C19EF14AD2, 0xEFBE4786384F25E3, 0x0FC19DC68B8CD5B5, 0x240CA1CC77AC9C65]
def shaK2 : List U64 :=
  [0x2DE92C6F592B0275, 0x4A7484AA6EA6E483, 0x5CB0A9DCBD41FBD4, 0x76F988DA831153B5, 0x983E5152EE66DFAB,
   0xA831C66D2DB43210, 0xB00327C898FB213F, 0xBF597FC7BEEF0EE4, 0xC6E00BF33DA88FC2, 0xD5A79147930AA725]
def shaK3 : List U64 :=
  [0x06CA6351E003826F, 0x142929670A0E6E70, 0x27B70A8546D22FFC, 0x2E1B21385C26C926, 0x4D2C6DFC5AC42AED,
   0x53380D139D95B3DF, 0x650A73548BAF63DE, 0x766A0ABB3C77B2A8, 0x81C2C92E47EDAEE6, 0x92722C851482353B]
def shaK4 : List U64 :=
  [0xA2BFE8A14CF10364, 0xA81A664BBC423001, 0xC24B8B70D0F89791, 0xC76C51A30654BE30, 0xD192E819D6EF5218,
   0xD69906245565A910, 0xF40E35855771202A, 0x106AA07032BBD1B8, 0x19A4C116B8D2D0C8, 0x1E376C085141AB53]
def shaK5 : List U64 :=
  [0x2748774CDF8EEB99, 0x34B0BCB5E19B48A8, 0x391C0CB3C5C95A63, 0x4ED8AA4AE3418ACB, 0x5B9CCA4F7763E373,
   0x682E6FF3D6B2B8A3, 0x748F82EE5DEFB2FC, 0x78A5636F43172F60, 0x84C87814A1F0AB72, 0x8CC702081A6439EC]
def shaK6 : List U64 :=
  [0x90BEFFFA23631E28, 0xA4506CEBDE82BDE9, 0xBEF9A3F7B2C67915, 0xC67178F2E372532B, 0xCA273ECEEA26619C,
   0xD186B8C721C0C207, 0xEADA7DD6CDE0EB1E, 0xF57D4F7FEE6ED178, 0x06F067AA72176FBA, 0x0A637DC5A2C898A6]
def shaK7 : List U64 :=
  [0x113F9804BEF90DAE, 0x1B710B35131C471B, 0x28DB77F523047D84, 0x32CAAB7B40C72493, 0x3C9EBE0A15C9BEBC,
   0x431D67C49C100D4C, 0x4CC5D4BECB3E42B6, 0x597F299CFC657E2A, 0x5FCB6FAB3AD6FAEC, 0x6C44198C4A475817]
/-- The round constants. -/
def shaK : List U64 := shaK0 ++ shaK1 ++ shaK2 ++ shaK3 ++ shaK4 ++ shaK5 ++ shaK6 ++ shaK7
/-- The initial hash value. -/
def shaInit : List U64 :=
  [0x6A09E667F3BCC908, 0xBB67AE8584CAA73B, 0x3C6EF372FE94F82B, 0xA54FF53A5F1D36F1,
   0x510E527FADE682D1, 0x9B05688C2B3E6C1F, 0x1F83D9ABFB41BD6B, 0x5BE0CD19137E2179]

/-- One more word of the message schedule, from the words so far, latest first. -/
def shaWord (w : List U64) : U64 :=
  let a := w.getD 1 0
  let b := w.getD 14 0
  let s1 := a.rotateRight 19 ^^^ a.rotateRight 61 ^^^ (a >>> 6)
  let s0 := b.rotateRight 1 ^^^ b.rotateRight 8 ^^^ (b >>> 7)
  s1 + w.getD 6 0 + s0 + w.getD 15 0
/-- One round on the eight working words. -/
def shaRound (h : List U64) (kw : U64 × U64) : List U64 :=
  let a := h.getD 0 0
  let e := h.getD 4 0
  let t1 := h.getD 7 0 + (e.rotateRight 14 ^^^ e.rotateRight 18 ^^^ e.rotateRight 41)
    + ((e &&& h.getD 5 0) ^^^ (~~~e &&& h.getD 6 0)) + kw.1 + kw.2
  let t2 := (a.rotateRight 28 ^^^ a.rotateRight 34 ^^^ a.rotateRight 39)
    + ((a &&& h.getD 1 0) ^^^ (a &&& h.getD 2 0) ^^^ (h.getD 1 0 &&& h.getD 2 0))
  [t1 + t2, a, h.getD 1 0, h.getD 2 0, h.getD 3 0 + t1, e, h.getD 5 0, h.getD 6 0]
def shaBlock (h : List U64) (b : List U8) : List U64 :=
  let first := ((chunks 8 16 b).map (fun x => BitVec.ofNat 64 (ofBytesBE x))).reverse
  let w := ((List.range 64).foldl (fun w _ => shaWord w :: w) first).reverse
  List.zipWith (· + ·) h ((shaK.zip w).foldl shaRound h)
/-- SHA-512 of a byte string. -/
def sha512 (m : List U8) : List U8 :=
  let pad := (128 - (m.length + 17) % 128) % 128
  let p := m ++ [0x80#8] ++ List.replicate pad 0#8 ++ bytesBE 16 (8 * m.length)
  (((chunks 128 (p.length / 128) p).foldl shaBlock shaInit).map (fun x => bytesBE 8 x.toNat)).flatten

end Sys2Proof.Machine
end

