-- ==== Sys2Proof/Machine/Base.lean ====
section
/-! DEFINITION. The stores of State by key, the registers of the issuing slot (R164), resource identifiers (R38), who may use a
resource (R39, R42), and the places of an address (R9 to R12). -/
namespace Sys2Proof.Machine

/-! ### Keyed stores -/

def slotKey (x : Slot) : Nat := x.core * 16 + x.idx
def loomKey (x : Loom) : Nat := x.bench * 3 + x.idx
def entryKey (x : Entry) : Nat := x.id.toNat
def ownerKey (x : Owner) : Nat := x.id.toNat

def State.core (s : State) (i : Nat) : Core := (findBy Core.idx i s.cores).getD (Core.blank i)
def State.putCore (s : State) (c : Core) : State := { s with cores := putBy Core.idx c s.cores }
def State.myCore (s : State) : Core := s.core s.self.core

def State.slot (s : State) (core idx : Nat) : Slot :=
  if slotKey s.self = core * 16 + idx then s.self
  else (findBy slotKey (core * 16 + idx) s.others).getD (Slot.blank core idx)
def State.putSlot (s : State) (x : Slot) : State :=
  if slotKey s.self = slotKey x then { s with self := x } else { s with others := putBy slotKey x s.others }
/-- Another slot becomes the issuing slot. -/
def State.switchTo (s : State) (core idx : Nat) : State :=
  if slotKey s.self = core * 16 + idx then s
  else
    { s with self := s.slot core idx, others := putBy slotKey s.self (dropBy slotKey (core * 16 + idx) s.others) }
/-- Every slot that is not blank. -/
def State.slots (s : State) : List Slot := s.self :: s.others
def Slot.running (x : Slot) : Bool := x.role != .free

def State.loom (s : State) (bench idx : Nat) : Loom :=
  (findBy loomKey (bench * 3 + idx) s.looms).getD (Loom.blank bench idx)
def State.putLoom (s : State) (l : Loom) : State := { s with looms := putBy loomKey l s.looms }

def State.ctx (s : State) (i : Nat) : Ctx := (findBy Ctx.idx i s.ctxs).getD (Ctx.blank i)
def State.putCtx (s : State) (c : Ctx) : State := { s with ctxs := putBy Ctx.idx c s.ctxs }

def State.entry (s : State) (id : U64) : Entry := (findBy entryKey id.toNat s.entries).getD (Entry.atReset id)
def State.putEntry (s : State) (e : Entry) : State := { s with entries := putBy entryKey e s.entries }

def State.owner (s : State) (id : U16) : Option Owner := findBy ownerKey id.toNat s.owners
def State.putOwner (s : State) (o : Owner) : State := { s with owners := putBy ownerKey o s.owners }
/-! ### Time (R413) -/

/-- Now, in cycles of the rated clock since the last TIMEUS, and since reset. -/
def State.nowFrac (s : State) : Nat := s.usFrac * Config.ratedMHz / s.clock
def State.ratedNow (s : State) : Nat := s.us * Config.ratedMHz + s.nowFrac
/-- A moment has come: a TIMEUS and the cycles of the rated clock by which it lies later. -/
def State.timeUp (s : State) (us frac : Nat) : Bool := decide (us * Config.ratedMHz + frac ≤ s.ratedNow)

/-! ### Owners -/

/-- An owner's keep-alive interval has passed, and it is not yet lapsed (R53). -/
def State.lapseDue (s : State) (o : Owner) : Bool :=
  !o.lapsed && o.id != Config.house && o.keepAlive != 0 && s.timeUp (o.renewed + o.keepAlive) o.renewedFrac
/-- The owner has lapsed: its interval has passed, whether or not its record has been posted (R53). -/
def State.lapsed (s : State) (id : U16) : Bool :=
  match s.owner id with
  | some o => o.lapsed || s.lapseDue o
  | none => false
/-- An owner that has been created, has not lapsed and is not being dissolved. -/
def State.lives (s : State) (id : U16) : Bool :=
  match s.owner id with
  | some o => !o.lapsed && !s.lapseDue o && o.dissolving.isNone
  | none => false

def hostqKey (x : HostQ) : Nat := x.q
def HostQ.blank (q : Nat) : HostQ := { q := q, ctx := none, cap0 := .zero, cap1 := .zero, blocks := [], dropped := 0 }
def State.hostq (s : State) (q : Nat) : HostQ := (findBy hostqKey q s.hostqs).getD (HostQ.blank q)
def State.putHostq (s : State) (h : HostQ) : State := { s with hostqs := putBy hostqKey h s.hostqs }

def State.launch (s : State) (id : Nat) : Option Launch := findBy Launch.id id s.launches
def State.putLaunch (s : State) (l : Launch) : State := { s with launches := putBy Launch.id l s.launches }

/-- Change the issuing slot. -/
def State.setSelf (s : State) (f : Slot → Slot) : State := { s with self := f s.self }

/-- The next free value, by its number (Config.free and the other opaque choices). -/
def State.drawn (s : State) : State := { s with free := s.free + 1 }

/-! ### Registers of the issuing slot -/

/-- A g register; g0 reads as the untagged zero (R164). -/
def Slot.getG (x : Slot) (n : BitVec 5) : Cap := if n = 0 then .zero else x.g[n.toNat]'n.isLt
/-- Write a g register; a write of g0 is ignored (R164). -/
def Slot.setG (x : Slot) (n : BitVec 5) (c : Cap) : Slot :=
  if n = 0 then x else { x with g := x.g.set n.toNat c n.isLt }
def Slot.getV (x : Slot) (n : BitVec 5) : Vec := x.v[n.toNat]'n.isLt
def Slot.setV (x : Slot) (n : BitVec 5) (y : Vec) : Slot := { x with v := x.v.set n.toNat y n.isLt }
/-- A p register; p0 reads as all ones (R164). -/
def Slot.getP (x : Slot) (n : BitVec 3) : Pred := if n = 0 then BitVec.allOnes 128 else x.p[n.toNat]'n.isLt
def Slot.setP (x : Slot) (n : BitVec 3) (y : Pred) : Slot :=
  if n = 0 then x else { x with p := x.p.set n.toNat y n.isLt }

def State.g (s : State) (n : BitVec 5) : Cap := s.self.getG n
/-- The low 64 bits of a g register. -/
def State.x (s : State) (n : BitVec 5) : U64 := (s.g n).addr
def State.setG (s : State) (n : BitVec 5) (c : Cap) : State := { s with self := s.self.setG n c }
/-- Write an integer: the low half, the high half zero, untagged (R23). -/
def State.wr (s : State) (n : BitVec 5) (x : U64) : State := s.setG n (Cap.ofInt x)
def State.v (s : State) (n : BitVec 5) : Vec := s.self.getV n
def State.setV (s : State) (n : BitVec 5) (y : Vec) : State := { s with self := s.self.setV n y }
def State.p (s : State) (n : BitVec 3) : Pred := s.self.getP n
def State.setP (s : State) (n : BitVec 3) (y : Pred) : State := { s with self := s.self.setP n y }

/-- A tile of the issuing core, its strip and its shape (R237, R238). -/
def State.tile (s : State) (n : BitVec 3) : TileData := s.myCore.tiles[n.toNat]'n.isLt
def State.strip (s : State) (n : BitVec 3) : Strip := s.myCore.strips[n.toNat]'n.isLt
def State.shape (s : State) (n : BitVec 3) : U64 := s.myCore.shapes[n.toNat]'n.isLt
def State.setTile (s : State) (n : BitVec 3) (t : TileData) (z : Strip) : State :=
  let c := s.myCore
  s.putCore { c with tiles := c.tiles.set n.toNat t n.isLt, strips := c.strips.set n.toNat z n.isLt }

/-- The address of the executing word (R189). -/
def State.pc (s : State) : U64 := s.self.pcc.addr

/-! ### Resources (R38) -/

def mkRes (kind index : Nat) : U64 := BitVec.ofNat 64 (kind * 2 ^ 56 + index)
def resKind (id : U64) : Nat := (id.extractLsb' 56 8).toNat
def resIndex (id : U64) : Nat := (id.extractLsb' 0 56).toNat

/-- Whether an identifier names a resource. -/
def resValid (id : U64) : Bool :=
  let i := resIndex id
  match resKind id with
  | 1 => decide (i < Config.cores)
  | 2 => decide (i < Config.cores * 8)
  | 3 => decide (i < Config.hbmFrames)
  | 4 => decide (i < Config.spadFrames)
  | 5 => (decide (1 ≤ i) && decide (i < 2 ^ 26)) || (decide (2 ^ 26 ≤ i) && decide (i < 2 ^ 26 + Config.hostFrames))
  | 6 => decide (i < 4 * 8192) && decide (i % 8192 < 7 * 1024)
  | 7 => decide (i < 65536)
  | 8 => decide (i < 4096)
  | 9 => decide (i < 128)
  | 10 => decide (i < Config.cores)
  | 11 => decide (i < Config.hostFrames)
  | 12 => decide (1 ≤ i) && decide (i < 65536)
  | _ => false

def coreDie (core : Nat) : Nat := core / 48 / 24
def coreBench (core : Nat) : Nat := core / 48
def coreSeat (core : Nat) : Nat := core % 48

/-- The home die of a resource. -/
def homeDie (id : U64) : Nat :=
  let i := resIndex id
  match resKind id with
  | 1 => coreDie i
  | 2 => coreDie (i / 8)
  | 3 => i / 21504 / 2
  | 4 => coreDie (i / 16)
  | 5 => if i < 2 ^ 26 then i % 4 else 0
  | 6 => i / 8192
  | 7 => i % 4
  | 8 => i % 4
  | 9 => i / 32
  | 10 => coreDie i
  | 11 => 0
  | _ => i % 4

/-- The engine kind of a context: 0 launch to 6 sweep. -/
def ctxKind (i : Nat) : Nat := i % 8192 / 1024
def ctxDie (i : Nat) : Nat := i / 8192

/-- State codes of R41. -/
def HState.code : HState → Nat
  | .held => 1
  | .offered => 2
  | .offeredLoan => 3
  | .lent => 4
  | .recalling => 5
  | .lapsed => 6
  | .retired => 7

/-- The owner that may use a resource: the holder, or the borrower while it is LENT (R272, R296, R314); nobody while it changes
holder or is recovered (R44, R47). -/
def Entry.user (e : Entry) : U16 :=
  if e.recovery.isSome then 0
  else match e.state with
  | .held => e.holder
  | .offered => e.holder
  | .offeredLoan => e.holder
  | .lent => e.other
  | .recalling => 0
  | .lapsed => e.holder
  | .retired => 0
def State.userOf (s : State) (id : U64) : U16 := (s.entry id).user
/-- The owner holds a resource or has borrowed it. -/
def State.uses (s : State) (owner : U16) (id : U64) : Bool := s.userOf id == owner && owner != 0
/-- The owner is a resource's holder in state HELD. -/
def State.holds (s : State) (owner : U16) (id : U64) : Bool :=
  (s.entry id).state == .held && (s.entry id).holder == owner
/-- A core's user (R272). -/
def State.coreUser (s : State) (core : Nat) : U16 := s.userOf (mkRes 1 core)

/-! ### Places of an address -/

inductive Place where
  /-- null region and unmapped ranges -/
  | none
  | seg (index : Nat)
  | frame (index : Nat)
  | coreArea
  | fabric (device : BitVec 14) (offset : Nat)
deriving DecidableEq, Repr

def spadBase : Nat := 2 ^ 52
def hostBase : Nat := 2 ^ 55

/-- The place of a byte address (R9, R10, R11, R12). -/
def placeOf (a : Nat) : Place :=
  if a < 2 ^ 21 then .none
  else if a < 2 ^ 47 then .seg (a / 2 ^ 21)
  else if a < spadBase then .none
  else if a < spadBase + Config.benches * 2 ^ 24 then
    let o := (a - spadBase) % 2 ^ 24
    let seat := o / 2 ^ 18
    if 48 ≤ seat then .none
    else if 0x3E000 ≤ o % 2 ^ 18 then .coreArea
    else .frame (((a - spadBase) / 2 ^ 24 * 48 + seat) * 16 + o % 2 ^ 18 / 2 ^ 14)
  else if a < hostBase then .none
  else if a < hostBase + 2 ^ 48 then .seg (2 ^ 26 + (a - hostBase) / 2 ^ 21)
  else if a < 2 ^ 63 then .none
  else if a < 2 ^ 63 + 2 ^ 62 then .fabric (BitVec.ofNat 14 (a / 2 ^ 48)) (a % 2 ^ 48)
  else .none

/-- The local address that a fabric offset names at the target (R12). -/
def fabricLocal (off : Nat) : Nat :=
  if off < 2 ^ 47 then off
  else if off < 2 ^ 47 + 2 ^ 46 then spadBase + off % 2 ^ 46
  else hostBase + off % 2 ^ 46

/-- The address an access is performed at when its device number names this device (R12). -/
def State.localAddr (s : State) (a : Nat) : Nat :=
  match placeOf a with
  | .fabric d o => if d = s.devnum then fabricLocal o else a
  | _ => a

/-- The device of an address that another device serves. -/
def State.remoteOf (s : State) (a : Nat) : Option (BitVec 14 × Nat) :=
  match placeOf a with
  | .fabric d o => if d = s.devnum then Option.none else some (d, o)
  | _ => Option.none

/-- Whether a segment is a host-window segment. -/
def segIsHost (i : Nat) : Bool := decide (2 ^ 26 ≤ i)
/-- The first address of a segment (R10). -/
def segBase (i : Nat) : Nat := if i < 2 ^ 26 then i * 2 ^ 21 else hostBase + (i - 2 ^ 26) * 2 ^ 21
/-- The first address of a scratchpad frame (R11). -/
def spadFrameBase (f : Nat) : Nat := spadBase + f / 16 / 48 * 2 ^ 24 + f / 16 % 48 * 2 ^ 18 + f % 16 * 2 ^ 14
/-- The core whose scratchpad holds a frame. -/
def frameCore (f : Nat) : Nat := f / 16

end Sys2Proof.Machine
end

