-- ==== Sys2Proof/Machine/Access.lean ====
section
/-! DEFINITION. An access after the capability checks: revocation (R31), domain rights (R63, R64), translation (R75, R76),
sealed lines (R82), the race check (R122 to R125), and reading and writing bytes and tags. -/
namespace Sys2Proof.Machine

/-! ### Revocation (R30, R31) -/

/-- Whether an address lies in a range whose map bit is set. -/
def State.revokedAddr (s : State) (a : Nat) : Bool :=
  match placeOf a with
  | .seg i => s.revoked.contains { frame := false, index := i }
  | .frame f => s.revoked.contains { frame := true, index := f }
  | _ => false

/-- A capability is revoked when its base lies in such a range; an untagged value is not (R31). -/
def State.isRevoked (s : State) (c : Cap) : Bool := c.tag && s.revokedAddr c.bounds.base.toNat

/-- A value as a capability load or a tag-setting write leaves it (R24). -/
def State.dropRevoked (s : State) (c : Cap) : Cap := if s.isRevoked c then c.untag else c

/-! ### Domain rights -/

/-- The reset entry of a host-window segment (R411). -/
def Rights.hostReset (h : Nat) : Rights :=
  { owner := Config.house, frame := false, index := 2 ^ 26 + h, r := true, w := true, x := true, c := true, place := 3
    unchecked := true, sealedSeg := false, key := 0, named := false, migration := 0, home := 0, cls := 0, big := true
    own := true, pos := 0, pin := none }

/-- The own entry of a scratchpad frame's holder, or of its borrower while it is LENT (R58). -/
def Rights.frameOwn (owner : U16) (f : Nat) : Rights :=
  { owner := owner, frame := true, index := f, r := true, w := true, x := true, c := true, place := 0
    unchecked := false, sealedSeg := false, key := 0, named := false, migration := 0
    home := BitVec.ofNat 2 (coreDie (frameCore f)), cls := 0, big := false, own := true, pos := 0, pin := none }

/-- Whether a host-window segment still has its reset entry and translation. -/
def State.hostReset (s : State) (seg : Nat) : Bool :=
  decide (2 ^ 26 ≤ seg) && decide (seg < 2 ^ 26 + 8192) && !s.hostGone.contains (seg - 2 ^ 26)

/-- The domain-rights entry of an owner on a segment or a scratchpad frame (R65). -/
def State.rightsOn (s : State) (owner : U16) (frame : Bool) (index : Nat) : Option Rights :=
  match s.rights.find? (fun e => e.owner == owner && e.frame == frame && e.index == index) with
  | some e => some e
  | none =>
    if frame then
      if s.uses owner (mkRes 4 index) then some (Rights.frameOwn owner index) else none
    else if s.hostReset index && owner == Config.house then some (Rights.hostReset (index - 2 ^ 26))
    else none

/-- The entry that decides an access to an address (R9, R58, R64). -/
def State.rightsAt (s : State) (owner : U16) (a : Nat) : Option Rights :=
  match placeOf a with
  | .seg i => s.rightsOn owner false i
  | .frame f => s.rightsOn owner true f
  | _ => none

/-- The attributes of a segment, which every entry of it shares (R63). -/
def State.segAttr (s : State) (i : Nat) : Option Rights :=
  match s.rights.find? (fun e => !e.frame && e.index == i) with
  | some e => some e
  | none => if s.hostReset i then some (Rights.hostReset (i - 2 ^ 26)) else none

/-- Whether race checking applies at an address (R58, R61). -/
def State.isChecked (s : State) (a : Nat) : Bool :=
  match placeOf a with
  | .frame _ => true
  | .seg i =>
    match s.segAttr i with
    | some e => !e.unchecked
    | none => false
  | _ => false

/-- Whether an address lies in a content-named segment (R96). -/
def State.isNamed (s : State) (a : Nat) : Bool :=
  match placeOf a with
  | .seg i =>
    match s.segAttr i with
    | some e => e.named
    | none => false
  | _ => false

/-! ### Translation -/

def transKey (t : Trans) : Nat := t.vpn * 2 + (if t.size then 1 else 0)

/-- The reset translation of a host-window segment (R411). -/
def Trans.hostReset (h : Nat) : Trans :=
  { vpn := (hostBase + h * 2 ^ 21) / 2 ^ 14 % 2 ^ 42, size := true, present := true, lost := false, clean := true, migrating := 0
    protect := false, key := 0, host := true, page := h * 128, pos := 0 }

/-- The translation entry of an address: the 2 MiB probe first (R76). -/
def State.transAt (s : State) (a : Nat) : Option Trans :=
  let vpn := a / 2 ^ 14 % 2 ^ 42
  match findBy transKey (vpn / 128 * 128 * 2 + 1) s.trans with
  | some t => some t
  | none =>
    match findBy transKey (vpn * 2) s.trans with
    | some t => some t
    | none =>
      match placeOf a with
      | .seg i => if s.hostReset i then some (Trans.hostReset (i - 2 ^ 26)) else none
      | _ => none

/-- Where a translation entry puts an address: HBM frames from 0, host frames from hostBase. -/
def Trans.phys (t : Trans) (a : Nat) : Nat :=
  (if t.host then hostBase else 0) + t.page * 2 ^ 14 + a % (if t.size then 2 ^ 21 else 2 ^ 14)

/-- The first physical byte of a page, and its size. -/
def Trans.base (t : Trans) : Nat := (if t.host then hostBase else 0) + t.page * 2 ^ 14
def Trans.bytes (t : Trans) : Nat := if t.size then 2 ^ 21 else 2 ^ 14

/-- Where the model keeps the content of lines that only a cache holds, by virtual address (R78); no frame lies there. -/
def keptBase : Nat := 2 ^ 60
/-- Whether a physical place keeps tags: host memory does not (R24). -/
def keepsTags (p : Nat) : Bool := decide (p < hostBase) || decide (keptBase ≤ p)
def State.isKept (s : State) (a : Nat) : Bool := s.kept.any (fun k => k.line == a / 256)

/-- The physical place of a byte; none where the page is absent (R77). Scratchpad is direct-mapped (R58). A line that a cache has kept
over a change of its page's frame still hits, and a hit is not translated (R74, R78). -/
def State.phys (s : State) (a : Nat) : Option Nat :=
  match placeOf a with
  | .frame _ => some a
  | .seg _ =>
    if s.isKept a then some (keptBase + a)
    else
      match s.transAt a with
      | some t => if t.present then some (t.phys a) else none
      | none => none
  | _ => none

/-- Physical bytes zeroed with their tags, whole lines, so that poison, ciphertext and older versions are gone (R45, R80). -/
def State.zeroPhys (s : State) (p n : Nat) : State :=
  { s with
    mem := Memory.clear s.mem p (p + n)
    tags := setClear s.tags (p / 16) ((p + n) / 16)
    poison := setClear s.poison (p / 256) ((p + n) / 256)
    sealedLines := s.sealedLines.filter (fun x => decide (x.1 < p / 256) || decide ((p + n) / 256 ≤ x.1))
    behind := s.behind.filter (fun o => decide (o.line < p / 256) || decide ((p + n) / 256 ≤ o.line)) }

/-- The page of an address, aligned to its page size, and that size; 16 KiB where there is no entry. -/
def State.pageOf (s : State) (a : Nat) : Nat × Nat :=
  match s.transAt a with
  | some t => if t.size then (a / 2 ^ 21 * 2 ^ 21, 2 ^ 21) else (a / 2 ^ 14 * 2 ^ 14, 2 ^ 14)
  | none =>
    match placeOf a with
    | .seg i =>
      match s.segAttr i with
      | some e => if e.big then (a / 2 ^ 21 * 2 ^ 21, 2 ^ 21) else (a / 2 ^ 14 * 2 ^ 14, 2 ^ 14)
      | none => (a / 2 ^ 14 * 2 ^ 14, 2 ^ 14)
    | _ => (a / 2 ^ 14 * 2 ^ 14, 2 ^ 14)

/-! ### Sealed lines (R82, R83) -/

/-- The 256-bit key in a key slot. -/
def State.keySlot (s : State) (k : Nat) : BitVec 256 :=
  match findBy (fun x : Nat × BitVec 256 => x.1) k s.keys with
  | some x => x.2
  | none => 0

/-- The root key of the line at an address, when its segment is sealed. -/
def State.sealKey (s : State) (a : Nat) : Option (BitVec 256) :=
  match placeOf a with
  | .seg i =>
    match s.segAttr i with
    | some e => if e.sealedSeg then some (s.keySlot e.key.toNat) else none
    | none => none
  | _ => none

/-- The tag bits of a physical line as a number, granule 0 lowest (R80). -/
def State.lineTags (s : State) (line : Nat) : Nat :=
  (setPart s.tags (line * 16) (line * 16 + 16)).foldl (fun n g => n + 2 ^ (g - line * 16)) 0

/-- The MAC of a sealed line: `va` its line address times 256, `data` its ciphertext (R82). -/
def lineMac (k : BitVec 256) (va : Nat) (data : List U8) (tags : Nat) : U64 :=
  BitVec.ofNat 64 (ofBytesBE ((cmac (rootKey k 5) (bytesLE 8 va ++ data ++ bytesLE 2 tags ++ List.replicate 6 0#8)).take 8))

/-- The stored MAC of a physical line, when its sealed bit is set. -/
def State.storedMac (s : State) (line : Nat) : Option U64 :=
  match findBy (fun x : Nat × U64 => x.1) line s.sealedLines with
  | some x => some x.2
  | none => none

/-- The bytes of a physical line as stored. -/
def State.rawLine (s : State) (line : Nat) : List U8 := Memory.readList s.mem (line * 256) 256

/-- Whether the line at an address passes its MAC; lines that are not sealed do. -/
def State.macOk (s : State) (a : Nat) : Bool :=
  match s.sealKey a, s.phys a with
  | some k, some p =>
    match s.storedMac (p / 256) with
    | some m => lineMac k (a / 256 * 256) (s.rawLine (p / 256)) (s.lineTags (p / 256)) == m
    | none => true
  | _, _ => true

/-- The plaintext of the line at an address, stored at physical line `line` under key `k`. -/
def State.plainLine (s : State) (k : BitVec 256) (a line : Nat) : List U8 :=
  match s.storedMac line with
  | some _ => xtsDecrypt (rootKey k 1) (rootKey k 3) (a / 256 * 256) (s.rawLine line)
  | none => s.rawLine line

/-- The line sealed again with new plaintext. -/
def State.sealLine (s : State) (k : BitVec 256) (a line : Nat) (plain : List U8) : State :=
  let c := xtsEncrypt (rootKey k 1) (rootKey k 3) (a / 256 * 256) plain
  { s with
    mem := Memory.writeList s.mem (line * 256) c
    sealedLines := putBy (fun x : Nat × U64 => x.1) (line, lineMac k (a / 256 * 256) c (s.lineTags line)) s.sealedLines }

/-! ### Bytes and tags -/

/-- The byte at an address, as an access that passes its checks reads it. -/
def State.byteAt (s : State) (a : Nat) : U8 :=
  match s.phys a with
  | none => 0
  | some p =>
    match s.sealKey a with
    | none => Memory.get s.mem p
    | some k => (s.plainLine k a (p / 256)).getD (p % 256) 0

/-- The `n` bytes at an address as a little-endian number. -/
def State.loadN (s : State) (a : Nat) : Nat → Nat
  | 0 => 0
  | n + 1 => (s.byteAt a).toNat + 256 * s.loadN (a + 1) n

/-- Write one byte; the race record, the tag and the page's clean bit are written by `commit`. -/
def State.putByte (s : State) (a : Nat) (v : U8) : State :=
  match s.phys a with
  | none => s
  | some p =>
    match s.sealKey a with
    | none => { s with mem := Memory.set s.mem p v }
    | some k => s.sealLine k a (p / 256) ((s.plainLine k a (p / 256)).set (p % 256) v)

/-- Write the low `n` bytes of a number, little-endian. -/
def State.storeN (s : State) (a : Nat) : Nat → Nat → State
  | 0, _ => s
  | n + 1, v => (s.putByte a (BitVec.ofNat 8 v)).storeN (a + 1) n (v / 256)

/-- The tag of the granule of an address; host memory has none (R24). -/
def State.tagAt (s : State) (a : Nat) : Bool :=
  match s.phys a with
  | none => false
  | some p => s.tags.contains (p / 16)

/-- Set or clear the tag of the granule of an address; host memory keeps none; a sealed line's MAC covers its tags. -/
def State.setTag (s : State) (a : Nat) (t : Bool) : State :=
  match s.phys a with
  | none => s
  | some p =>
    let s1 := { s with tags := setPut s.tags (p / 16) (t && keepsTags p) }
    match s.sealKey a, s.storedMac (p / 256) with
    | some k, some _ =>
      { s1 with
        sealedLines := putBy (fun x : Nat × U64 => x.1)
          (p / 256, lineMac k (a / 256 * 256) (s.rawLine (p / 256)) (s1.lineTags (p / 256))) s.sealedLines }
    | _, _ => s1

/-- Clear the tags of `k` granules from granule `g` on. -/
def State.clearTagsFrom (s : State) (g : Nat) : Nat → State
  | 0 => s
  | k + 1 => (s.setTag (g * 16) false).clearTagsFrom (g + 1) k

/-- Clear the tag of every granule that an access of `n` bytes touches (R24). -/
def State.clearTags (s : State) (a n : Nat) : State :=
  if n = 0 then s else s.clearTagsFrom (a / 16) ((a + n - 1) / 16 - a / 16 + 1)

/-- Data written over memory: the bytes, and the tags of the granules touched cleared (R24). -/
def State.storeData (s : State) (a n v : Nat) : State := (s.storeN a n v).clearTags a n

/-- A 16-byte value with its tag, and its 16 bytes. -/
def State.capAt (s : State) (a : Nat) : Cap := { bits := BitVec.ofNat 128 (s.loadN a 16), tag := s.tagAt a }
def State.storeCap (s : State) (a : Nat) (c : Cap) (tag : Bool) : State := (s.storeN a 16 c.bits.toNat).setTag a tag

/-! ### Agents and records (R113, R122 to R127) -/

/-- Every slot state the device holds: in slots and in images. -/
def State.heldSlots (s : State) : List Slot := s.slots ++ s.owners.flatMap (fun o => o.images.map Image.slot)

/-- The slot state of an agent. -/
def State.agentSlot (s : State) (a : Agent) : Option Slot := s.heldSlots.find? (fun x => x.agent == a && x.running)

def State.agentDie (s : State) (a : Agent) : Nat :=
  match a with
  | .slot c _ _ =>
    match s.agentSlot a with
    | some x => coreDie x.core
    | none => coreDie c
  | .cmd c _ => ctxDie c
  | .handler d _ _ _ => d

def State.agentBench (s : State) (a : Agent) : Option Nat :=
  match a with
  | .slot c _ _ =>
    match s.agentSlot a with
    | some x => some (coreBench x.core)
    | none => some (coreBench c)
  | _ => none

/-- The narrowest scope that contains both agents (R116): 0 bench, 1 die, 2 device. -/
def State.scopeOf (s : State) (a b : Agent) : Fin 4 :=
  if s.agentDie a = s.agentDie b then
    match s.agentBench a, s.agentBench b with
    | some x, some y => if x = y then 0 else 1
    | _, _ => 1
  else 2

/-- Whether a record is live for a requesting agent (R124). -/
def State.recLive (s : State) (r : Rec) (q : Agent) : Bool :=
  match r.agent with
  | .slot _ _ _ =>
    match s.agentSlot r.agent with
    | some x => decide (x.marks[s.scopeOf r.agent q] < r.span)
    | none => false
  | .cmd c n => decide ((s.ctx c).counter < n)
  | .handler _ _ _ _ => false

/-- Whether a record is kept: it is discarded only when it is dead for every agent (R124). -/
def State.recKept (s : State) (r : Rec) : Bool :=
  match r.agent with
  | .slot _ _ _ =>
    match s.agentSlot r.agent with
    | some x => decide (x.marks[3] < r.span)
    | none => false
  | .cmd c n => decide ((s.ctx c).counter < n)
  | .handler _ _ _ _ => false

/-- The other-agent word of R123. -/
def State.agentWord (s : State) (a : Agent) (span : Nat) : U64 :=
  match a with
  | .slot c i _ => 1#3 ++ s.devnum ++ BitVec.ofNat 15 c ++ BitVec.ofNat 4 i ++ BitVec.ofNat 28 span
  | .cmd c n => 2#3 ++ s.devnum ++ BitVec.ofNat 15 c ++ 0#4 ++ BitVec.ofNat 28 n
  | .handler _ d u i => 3#3 ++ d ++ u ++ i ++ BitVec.ofNat 28 span

/-- What an access meets, in the order in which it is judged (R19 step 7, R77, R91, R376, R80, R83, R122, R125). -/
inductive AccErr where
  | rights
  | absent (addr : Nat)
  | migrate (addr : Nat)
  | protect (addr : Nat)
  | dataLost (addr : Nat)
  | integrity (addr : Nat)
  | conflict (addr : Nat) (who : U64)
  | capacity (addr : Nat)
deriving DecidableEq, Repr

/-- The order of judgement. -/
def AccErr.rank : AccErr → Nat
  | .rights => 0
  | .absent _ => 1
  | .migrate _ => 2
  | .protect _ => 2
  | .dataLost _ => 3
  | .integrity _ => 4
  | .conflict _ _ => 5
  | .capacity _ => 6

/-- The last byte of an access. -/
def Acc.last (x : Acc) : Nat := x.addr + x.size - 1

/-- Step 7 at one byte (R64, R96, R206). -/
def State.rightsOk (s : State) (x : Acc) (a : Nat) : Bool :=
  match s.rightsAt x.owner a with
  | none => false
  | some e =>
    (!x.read || e.r) && (!x.write || e.w) && (!x.fetch || e.x) && !s.isNamed a
      && !(x.atomic && decide (hostBase ≤ a))

def State.isAbsent (s : State) (a : Nat) : Bool := (s.phys a).isNone

/-- The die of an address's home. -/
def State.dieAt (s : State) (a : Nat) : Nat :=
  match placeOf a with
  | .frame f => coreDie (frameCore f)
  | .seg i => ((s.segAttr i).map (fun e => e.home.toNat)).getD 0
  | _ => 0
/-- A page that an uncorrectable error of a clean line took away (R373). -/
def State.isLost (s : State) (a : Nat) : Bool :=
  match placeOf a with
  | .seg _ => (s.transAt a).any (fun t => !t.present && t.lost)
  | _ => false

/-- A write to a page in its final migration pass (R91). -/
def State.isFinalPass (s : State) (a : Nat) : Bool :=
  match placeOf a with
  | .seg _ =>
    match s.transAt a with
    | some t => t.migrating == 2
    | none => false
  | _ => false
/-- A write to a page whose first write takes the fault of migration (R376). -/
def State.isProtected (s : State) (a : Nat) : Bool :=
  match placeOf a with
  | .seg _ =>
    match s.transAt a with
    | some t => t.protect
    | none => false
  | _ => false
/-- The owner that maps a page: of the own entry of its segment. -/
def State.mapperOf (s : State) (a : Nat) : U16 :=
  match placeOf a with
  | .seg i => ((s.rights.find? (fun e => !e.frame && e.index == i && e.own)).map Rights.owner).getD 0
  | _ => 0

/-- The physical base of an owner's save-area frame, if the owner still has it (R47, R51). -/
def State.saveArea (s : State) (owner : U16) : Option Nat :=
  match s.owner owner with
  | some o =>
    match o.saveFrame with
    | some f => if s.uses owner (mkRes 3 f) then some (f * 2 ^ 21) else none
    | none => none
  | none => none

/-- Whether an owner has a fault queue (R316). -/
def State.hasFaultQueue (s : State) (owner : U16) : Bool := (s.saveArea owner).isSome

/-- A clean page that an error took away from an owner with no fault queue: its accesses meet data lost (R373). -/
def State.isGone (s : State) (a : Nat) : Bool := s.isLost a && !s.hasFaultQueue (s.mapperOf a)

/-- The line of an address is lost: its poison bit is set (R80), or its page is gone. -/
def State.isPoisoned (s : State) (a : Nat) : Bool :=
  match s.phys a with
  | some p => s.poison.contains (p / 256)
  | none => s.isGone a

/-- The lowest line of an access, by line number, for which a test holds. -/
def Acc.lineWhere (x : Acc) (f : Nat → Bool) : Option Nat :=
  (List.range (x.last / 256 - x.addr / 256 + 1)).findSome?
    (fun i => let a := max x.addr ((x.addr / 256 + i) * 256); if f a then some a else none)

/-- Whether a record conflicts with an access to its granule (R122). -/
def State.clashes (s : State) (x : Acc) (r : Rec) : Bool :=
  r.agent != x.agent && (r.write || x.write) && !(r.atomic && x.atomic) && s.recLive r x.agent

/-- The first conflicting record: of the lowest granule (R123). -/
def State.clash (s : State) (x : Acc) : Option Rec :=
  (s.recs.filter (fun r => decide (x.addr / 32 ≤ r.granule) && decide (r.granule ≤ x.last / 32) && s.clashes x r)).foldl
    (fun best r =>
      match best with
      | none => some r
      | some b => if r.granule < b.granule then some r else best) none

/-- The span an agent's record names. A handler's execution has no number that the manual gives: a free value. -/
def State.agentSpan (s : State) (a : Agent) : Nat :=
  match a with
  | .slot _ _ _ =>
    match s.agentSlot a with
    | some x => x.span
    | none => 0
  | .cmd _ n => n
  | .handler _ _ _ _ => (Config.free (4 * s.free + 2)).toNat

/-- The holder records of a line: each an agent and a span (R124, R126). -/
def State.holdersOf (s : State) (line : Nat) : List (Agent × Nat) :=
  ((s.recs.filter (fun r => decide (r.granule / 8 = line) && s.recKept r)).map (fun r => (r.agent, r.span))).eraseDups

/-- An access to a line needs a fifth record, for which the line has no place (R125, R126). -/
def State.lineFull (s : State) (x : Acc) (a : Nat) : Bool :=
  s.isChecked a && decide (4 ≤ (s.holdersOf (a / 256)).length)
    && !(s.holdersOf (a / 256)).contains (x.agent, s.agentSpan x.agent)

/-- The home slice of the line at an address, die × 64 + slice, in a CACHED or SLICE-PINNED segment (R70, R72). -/
def homeSlice (e : Rights) (a : Nat) : Nat :=
  let l := a / 256
  let hash := (List.range 10).foldl (fun h i => h ^^^ (l / 2 ^ (6 * i) % 64)) 0
  e.home.toNat * 64 + (if e.place = 1 then a % 2 ^ 21 / 256 % 64 else hash)

/-- The ways that a class may fill in a set of its home die's slices: those it holds, but for the ways that pinned segments take
there (R72, R87). -/
def State.waysFor (s : State) (e : Rights) (set : Nat) : Nat :=
  let held := ((s.classes.find? (fun c => c.die == e.home && c.cls == e.cls)).map Cls.ways).getD 0
  held - (s.rights.filter (fun q => !q.frame && q.own && q.place == 1 && q.home == e.home && q.cls == e.cls
    && q.pin.any (fun k => k % 8 == set / 128))).length

/-- The fill of a CACHED line finds no way: every way of its class holds a line with live records in the line's set (R125). -/
def State.fillFull (s : State) (a : Nat) : Bool :=
  match placeOf a with
  | .seg i =>
    match s.segAttr i with
    | some e =>
      let line := a / 256
      let set := Config.sliceSet line % 1024
      let same (l : Nat) : Bool :=
        l != line && Config.sliceSet l % 1024 == set && (match placeOf (l * 256) with
          | .seg j => (s.segAttr j).any (fun f => f.place == 2 && f.home == e.home && f.cls == e.cls
              && homeSlice f (l * 256) == homeSlice e a)
          | _ => false)
      e.place == 2 && (s.holdersOf line).isEmpty && decide (0 < s.waysFor e set)
        && decide (s.waysFor e set ≤ (((s.recs.filter s.recKept).map (fun r => r.granule / 8)).eraseDups.filter same).length)
    | none => false
  | _ => false

/-- The race check of an access: conflict, then room for its record (R122, R125); fetches make no byte events (R208). -/
def State.raceErr (s : State) (x : Acc) : Option AccErr :=
  if x.fetch then none
  else
    match (if s.isChecked x.addr || s.isChecked x.last then s.clash x else none) with
    | some r => some (.conflict (max x.addr (r.granule * 32)) (s.agentWord r.agent r.span))
    | none =>
      match x.lineWhere (fun a => s.lineFull x a || s.fillFull a) with
      | some a => some (.capacity a)
      | none => none

/-- Everything an access can meet from step 7 of R19 on; none when it goes through. -/
def State.accErr (s : State) (x : Acc) : Option AccErr :=
  if x.size = 0 then none
  else if !(s.rightsOk x x.addr) || !(s.rightsOk x x.last) then some .rights
  else
    match x.lineWhere (fun a => s.isAbsent a && !s.isGone a) with
    | some a => some (.absent a)
    | none =>
      if x.write && (s.isFinalPass x.addr || s.isFinalPass x.last) then
        some (.migrate (if s.isFinalPass x.addr then x.addr else x.last))
      else if x.write && (s.isProtected x.addr || s.isProtected x.last) then
        some (.protect (if s.isProtected x.addr then x.addr else x.last))
      else
        match x.lineWhere s.isPoisoned with
        | some a => some (.dataLost a)
        | none =>
          match x.lineWhere (fun a => !s.macOk a) with
          | some a => some (.integrity a)
          | none => s.raceErr x

/-! ### What an access leaves behind -/

/-- Add one record, unless it is there. -/
def addRec (l : List Rec) (r : Rec) : List Rec := if l.contains r then l else l ++ [r]

/-- Records of an access at the granules from `g` on (R124); a read and a write where it is both (R127). -/
def addRecs (l : List Rec) (a : Agent) (span : Nat) (write atomic : Bool) (g : Nat) : Nat → List Rec
  | 0 => l
  | k + 1 =>
    addRecs (addRec l { granule := g, agent := a, span := span, write := write, atomic := atomic }) a span write atomic (g + 1) k

/-- The record of an access in checked memory. A handler's execution is a span of its own, so it leaves none (R133). -/
def State.record (s : State) (x : Acc) : State :=
  match x.agent with
  | .handler _ _ _ _ => s
  | _ =>
    if x.size = 0 || x.fetch || !(s.isChecked x.addr || s.isChecked x.last) then s
    else
      { s with
        recs := addRecs s.recs x.agent (s.agentSpan x.agent) x.write x.atomic (x.addr / 32)
          (x.last / 32 - x.addr / 32 + 1) }

/-- The page of a written line is no longer clean (R77). -/
def State.soil (s : State) (a : Nat) : State :=
  match placeOf a with
  | .seg i =>
    match s.transAt a with
    | some t =>
      if t.clean then
        if s.hostReset i && (findBy transKey (transKey t) s.trans).isNone then s
        else { s with trans := putBy transKey { t with clean := false } s.trans }
      else s
    | none => s
  | _ => s

/-- The sectors of a line that an access writes; a sealed line goes back whole (R69, R73). -/
def Acc.sectorsOf (x : Acc) (line : Nat) (whole : Bool) : BitVec 2 :=
  if whole then 3
  else BitVec.ofBool (decide (line * 256 + 128 ≤ x.last)) ++ BitVec.ofBool (decide (x.addr < line * 256 + 128))

/-- A physical line as it stands. -/
def State.lineNow (s : State) (line : Nat) : OldLine :=
  { line := line
    bytes := (Memory.part s.mem (line * 256) (line * 256 + 256)).map (fun c => (c.1 - line * 256, c.2))
    tags := setPart s.tags (line * 16) (line * 16 + 16)
    mac := s.storedMac line, poison := s.poison.contains line, dirty := 0 }

/-- Backing store keeps the older version of a line that a cache has written (R302). -/
def State.keepOld (s : State) (x : Acc) (line : Nat) : State :=
  let a := line * 256
  match placeOf a with
  | .seg i =>
    match s.segAttr i, s.phys a with
    | some e, some p =>
      if s.isKept a then
        { s with kept := s.kept.map (fun k => if k.line = line then { k with dirty := k.dirty ||| x.sectorsOf line e.sealedSeg } else k) }
      else if e.place == 1 || e.place == 2 then
        let old := (findBy OldLine.line (p / 256) s.behind).getD (s.lineNow (p / 256))
        { s with behind := putBy OldLine.line { old with dirty := old.dirty ||| x.sectorsOf line e.sealedSeg } s.behind }
      else s
    | _, _ => s
  | _ => s

/-- The frame that backs a page in the dirty logs: HBM frames by index, host frames above them. -/
def Trans.frameId (t : Trans) : Nat := (if t.host then 2 ^ 40 else 0) + t.page / 128

/-- Mark units of a frame's dirty log: 128-byte sectors by number in the frame (R375 to R377). -/
def State.markLog (s : State) (frame lo n : Nat) : State :=
  match findBy (fun x : Nat × List Nat => x.1) frame s.dirtyLog with
  | none => s
  | some x =>
    { s with
      dirtyLog := putBy (fun x : Nat × List Nat => x.1) (frame, (List.range n).foldl (fun l i => setAdd l (lo + i)) x.2)
        s.dirtyLog }

/-- An atomic at its home slice marks its sector of a page under sector-delta at once, and its value is what a later pass moves
(R377, R378). -/
def State.markAtomic (s : State) (x : Acc) (line : Nat) : Option State :=
  let a := line * 256
  match placeOf a with
  | .seg i =>
    match s.segAttr i, s.transAt a with
    | some e, some t =>
      if x.atomic && t.present && t.migrating == 1 && e.migration == 2 && !s.isKept a then
        let p := t.phys a / 256
        let d := x.sectorsOf line e.sealedSeg ||| ((findBy OldLine.line p s.behind).map OldLine.dirty).getD 0
        let k := p % 8192 * 2
        let s1 := if d.getLsbD 0 then s.markLog t.frameId k 1 else s
        let s2 := if d.getLsbD 1 then s1.markLog t.frameId (k + 1) 1 else s1
        some { s2 with behind := dropBy OldLine.line p s2.behind }
      else none
    | _, _ => none
  | _ => none

/-- The lines of a write are soiled one by one. -/
def State.soilLines (s : State) (x : Acc) (line : Nat) : Nat → State
  | 0 => s
  | k + 1 => (((s.markAtomic x line).getD (s.keepOld x line)).soil (line * 256)).soilLines x (line + 1) k

/-! ### Unchecked memory (R129) -/

/-- A write to unchecked memory keeps what it overwrites. -/
def State.keepWrite (s : State) (x : Acc) : State :=
  if s.isChecked x.addr && s.isChecked x.last then s
  else
    { s with
      older := { addr := x.addr, bytes := (List.range x.size).map (fun i => s.byteAt (x.addr + i))
                 tags := ((List.range ((x.addr + x.size + 15) / 16 - x.addr / 16)).map (fun i => x.addr / 16 + i)).filter
                   (fun g => s.tagAt (g * 16))
                 agent := x.agent, span := s.agentSpan x.agent } :: s.older }

/-- Kept writes to addresses from `lo` up to `hi` are forgotten. -/
def State.forgetOlder (s : State) (lo hi : Nat) : State :=
  { s with older := s.older.filter (fun w => decide (w.addr + w.bytes.length ≤ lo) || decide (hi ≤ w.addr)) }

/-- A write is not ordered before a reader's access while the writer's span is open for the reader. -/
def State.mayMiss (s : State) (q : Agent) (w : OldWrite) : Bool :=
  w.agent != q && s.recLive { granule := 0, agent := w.agent, span := w.span, write := true, atomic := false } q

/-- The newest writes to some of `n` bytes at `a` that a plain read by `q` may miss, the newest first. -/
def State.missable (s : State) (q : Agent) (a n : Nat) : List OldWrite :=
  (s.older.filter (fun w => decide (a < w.addr + w.bytes.length) && decide (w.addr < a + n))).takeWhile (s.mayMiss q)

/-- The byte before a write, where the write covers it. -/
def OldWrite.under (w : OldWrite) (a : Nat) (v : U8) : U8 :=
  if w.addr ≤ a && a < w.addr + w.bytes.length then w.bytes.getD (a - w.addr) 0 else v

/-- The byte before some writes, the newest first. -/
def bytesUnder (l : List OldWrite) (a : Nat) (v : U8) : U8 := l.foldl (fun v w => w.under a v) v

/-- The tag of a granule before some writes, the newest first. -/
def tagUnder (l : List OldWrite) (a : Nat) (t : Bool) : Bool :=
  l.foldl (fun t w => if w.addr / 16 ≤ a / 16 && a < w.addr + w.bytes.length then w.tags.contains (a / 16) else t) t

/-- The writes that the read misses at byte `i` of an access: an aligned access of up to 16 bytes is single-copy atomic (R110). -/
def State.missedAt (s : State) (q : Agent) (a n i : Nat) : List OldWrite :=
  if a % n = 0 && n ≤ 16 then (s.missable q a n).take (Config.older s.free 0 % ((s.missable q a n).length + 1))
  else (s.missable q (a + i) 1).take (Config.older s.free i % ((s.missable q (a + i) 1).length + 1))

/-- `n` bytes as a plain read by `q` sees them, as a little-endian number. -/
def State.seenN (s : State) (q : Agent) (a n : Nat) : Nat :=
  if s.older.isEmpty then s.loadN a n
  else
    ofBytesLE ((List.range n).map (fun i => bytesUnder (s.missedAt q a n i) (a + i) (s.byteAt (a + i))))

/-- A capability as a plain load by `q` sees it. -/
def State.seenCap (s : State) (q : Agent) (a : Nat) : Cap :=
  if s.older.isEmpty then s.capAt a
  else
    { bits := BitVec.ofNat 128 (s.seenN q a 16)
      tag := tagUnder (s.missedAt q a 16 0) a (s.tagAt a) }

/-- A plain read that may miss a write draws a choice. -/
def State.looked (s : State) (q : Agent) (a n : Nat) : State :=
  if s.older.isEmpty || (s.missable q a n).isEmpty then s else { s with free := s.free + 1 }

/-- An access that goes through: its record, and for a write the state of its pages and lines. -/
def State.commit (s : State) (x : Acc) : State :=
  let s1 := if x.write && decide (0 < x.size) then (s.record x).keepWrite x else s.record x
  if x.write && decide (0 < x.size) then s1.soilLines x (x.addr / 256) (x.last / 256 - x.addr / 256 + 1) else s1

end Sys2Proof.Machine
end

