-- ==== Sys2Proof/Machine/Ops.lean ====
section
/-! DEFINITION. The shared operations: event records (R313), fault records (R315, R316), spans (R117, R124), completions of
engine commands (R300, R312), loom drains (R247, R255), slot images and fault dumps (R363, R366), the end of a task, taking a
trap (R357) and returning from one (R361), and how an instruction ends. -/
namespace Sys2Proof.Machine

/-! ### Event records -/

/-- The source word of a record: kind 0 a core, 1 an engine context, 2 the holdings unit, 3 a slice (R313). -/
def State.source (s : State) (kind v : Nat) : U32 := BitVec.ofNat 2 kind ++ s.devnum ++ BitVec.ofNat 16 v

/-- Whether the cycle that limits a park has passed. -/
def State.past (s : State) (limit : Option Nat) : Bool :=
  match limit with
  | none => false
  | some c => decide (c ≤ s.cycle)

/-- A cause for a slot parked in TYIELD to go on, unless it has one or its cycles have passed (R283). -/
def Slot.noteYield (x : Slot) (s : State) (core : Nat) (cause : BitVec 2) : Slot :=
  match x.park with
  | .yield d l 0 => if x.core = core && !s.past l then { x with park := .yield d l cause } else x
  | _ => x

/-- A cause for every slot of a core that is parked in TYIELD. -/
def State.noteYield (s : State) (core : Nat) (cause : BitVec 2) : State :=
  { s with
    self := s.self.noteYield s core cause
    others := s.others.map (fun x => x.noteYield s core cause) }

/-- A record enters a core's event queue (R313). -/
def State.enterEvent (s : State) (core : Nat) (r : EvRec) : State :=
  let c := s.core core
  (s.putCore { c with events := c.events ++ [r] }).noteYield core 1

/-- Post a record to a core's event queue; a full queue leaves it held by its source (R313). -/
def State.postEvent (s : State) (core : Nat) (r : EvRec) : State :=
  let c := s.core core
  if c.events.length < 64 && c.held.isEmpty then s.enterEvent core r
  else s.putCore { c with held := c.held ++ [r] }

/-- Post a record to an owner's notice queue (R52). -/
def State.notice (s : State) (owner : U16) (r : EvRec) : State :=
  match s.owner owner with
  | some o => s.postEvent o.notice r
  | none => s

/-! ### Save-area frames and fault records -/

/-- Bytes of a record with serial n. -/
def FaultRec.bytes (f : FaultRec) (n : Nat) : List U8 :=
  bytesLE 2 f.kind ++ bytesLE 2 f.access ++ bytesLE 4 f.requester.toNat ++ bytesLE 8 f.addr ++ bytesLE 8 f.done
    ++ bytesLE 8 f.number ++ bytesLE 16 f.sectors.toNat ++ bytesLE 8 f.page ++ bytesLE 8 n

/-- The fault queue's head: the count of records written. -/
def State.faultHead (s : State) (base : Nat) : Nat := Memory.readN s.mem (base + 0xFC000) 8
/-- Whether an owner's ring has room (R316). -/
def State.faultRoom (s : State) (owner : U16) : Bool :=
  match s.saveArea owner with
  | some b => decide ((s.faultHead b + 2 ^ 64 - Memory.readN s.mem (b + 0xFC008) 8) % 2 ^ 64 < 255)
  | none => true

/-- Write a fault record, then the head, then post the notice; nothing for an owner with no fault queue (R316, R388). -/
def State.faultRecord (s : State) (owner : U16) (f : FaultRec) : State :=
  match s.saveArea owner with
  | none => s
  | some b =>
    let n := s.faultHead b
    let m := Memory.writeList s.mem (b + 0xFC040 + 64 * (n % 255)) (f.bytes n)
    ({ s with mem := Memory.writeN m (b + 0xFC000) 8 (n + 1) }).notice owner
      { kind := 4, status := 0, source := f.requester, number := 0, d0 := BitVec.ofNat 64 n, d1 := BitVec.ofNat 64 f.page }

/-- A record of what is not an access that can wait: it is written when the ring has room (R316). -/
def State.postFault (s : State) (owner : U16) (f : FaultRec) : State :=
  if s.faultRoom owner && s.faultsHeld.isEmpty then s.faultRecord owner f
  else { s with faultsHeld := s.faultsHeld ++ [(owner, f)] }

/-- The first waiting record whose ring has room is written. -/
def State.postHeldFault (s : State) : State :=
  match s.faultsHeld.find? (fun h => s.faultRoom h.1) with
  | some h => ({ s with faultsHeld := s.faultsHeld.erase h }).faultRecord h.1 h.2
  | none => s

/-- An uncorrectable error at a virtual address owes a fault record. -/
def State.owesError (s : State) (a : Nat) : State := { s with errorsOwed := (a / 256) :: s.errorsOwed }
/-- The first access that meets a lost line, or a page that is gone with it, writes the record of kind 2, for the owner that maps the
page (R315, R373). -/
def State.metError (s : State) (a : Nat) (f : FaultRec) : State :=
  match s.errorsOwed.find? (fun l => l == a / 256 || (s.isLost a && (s.pageOf (l * 256)).1 == (s.pageOf a).1)) with
  | none => s
  | some l => ({ s with errorsOwed := s.errorsOwed.erase l }).postFault (s.mapperOf a) { f with kind := 2 }

/-- The sectors of a page, or the 16 KiB units of a 2 MiB page, that accesses touch (R315). -/
def touchedSectors (page size : Nat) (l : List Acc) : Pred :=
  let u := size / 128
  BitVec.ofNat 128 ((List.range 128).foldl
    (fun m j =>
      if l.any (fun x => decide (x.addr < page + (j + 1) * u) && decide (page + j * u ≤ x.last)) then m + 2 ^ j else m) 0)

/-! ### Spans (R114, R117, R124) -/

/-- The span ends at a scope: every mark of that scope and narrower takes its number. -/
def Slot.closeSpan (x : Slot) (scope : Nat) : Slot :=
  { x with marks := x.marks.mapFinIdx (fun i m _ => if i ≤ scope then x.span else m), span := x.span + 1 }
/-- A synchronising operation of the issuing slot at a scope (R117). -/
def State.sync (s : State) (scope : Nat) : State := s.setSelf (fun x => x.closeSpan scope)

/-! ### Watches and write monitors (R370 to R372) -/

/-- The lowest byte of an access that a watch of address `wa` and mask `wm` matches. -/
def watchMatch (wa wm : U64) (a last : Nat) : Option Nat :=
  (List.range (last / 16 - a / 16 + 1)).findSome? (fun i =>
    let g := (a / 16 + i) * 16
    if ((BitVec.ofNat 64 g ^^^ wa) &&& wm) >>> 4 = 0 then some (max a g) else none)

def Core.watchAddr (c : Core) (i : Fin 4) : U64 := c.watch[2 * i.val]
def Core.watchMask (c : Core) (i : Fin 4) : U64 := c.watch[2 * i.val + 1]

/-- The lowest byte of an access of the issuing core's slots that a local watch matches; outside class 1 only (R371). -/
def State.watched (s : State) (x : Acc) : Option Nat :=
  if s.self.class1 then none
  else
    let c := s.myCore
    (List.finRange 4).foldl (fun best i =>
      let m := c.watchMask i
      let on := !m.getLsbD 3 && ((m.getLsbD 2 && x.fetch) || (m.getLsbD 1 && (x.write || x.atomic))
        || (m.getLsbD 0 && (x.read || x.atomic)))
      match (if on then watchMatch (c.watchAddr i) m x.addr x.last else none) with
      | none => best
      | some a =>
        match best with
        | none => some a
        | some b => some (min a b)) none

/-- A write monitor posts to its core's event queue (R372). -/
def State.monitorPost (s : State) (x : Acc) : State :=
  if !x.write then s
  else
    s.cores.foldl (fun t c =>
      (List.finRange 4).foldl (fun t i =>
        match c.monitors[i] with
        | none => t
        | some slice =>
          match watchMatch (c.watchAddr i) (c.watchMask i) x.addr x.last with
          | none => t
          | some _ =>
            (t.postEvent c.idx
              { kind := 9, status := 0, source := t.source 3 slice, number := 0, d0 := BitVec.ofNat 64 x.addr
                d1 := t.agentWord x.agent (t.agentSpan x.agent) }).drawn) t) s

/-- An access that goes through: its records and its pages, then its bytes by `write`, then the monitors. -/
def State.performed (s : State) (x : Acc) (write : State → State) : State := (write (s.commit x)).monitorPost x

/-! ### Completions (R128, R300, R309, R312) -/

def Cmd.code (c : Cmd) : Nat := (c.w3.bits.extractLsb' 0 8).toNat
def Cmd.flagEV (c : Cmd) : Bool := c.w3.bits.getLsbD 8
def Cmd.flagRES (c : Cmd) : Bool := c.w3.bits.getLsbD 9
def Cmd.cflags (c : Cmd) : Nat := (c.w3.bits.extractLsb' 10 6).toNat
/-- Detail 1 of a data command's record: its code and flags (R300). -/
def Cmd.detail1 (c : Cmd) : Nat := (c.w3.bits.extractLsb' 0 16).toNat
def Cmd.priority (c : Cmd) : Nat := (c.w3.bits.extractLsb' 120 8).toNat

/-- The core a command's record goes to: its event target if the owner may use that queue, else the notice queue (R298). -/
def State.eventTarget (s : State) (owner : U16) (c : Cmd) : Option Nat :=
  let seat := (c.w3.bits.extractLsb' 16 16).toNat
  let bench := (c.w3.bits.extractLsb' 64 7).toNat
  if seat < 48 && bench < 96 && s.uses owner (mkRes 10 (bench * 48 + seat)) then some (bench * 48 + seat)
  else (s.owner owner).map Owner.notice

/-- Whether a completed command still waits for its record or its result word to be placed (R312). -/
def State.unplaced (s : State) (ci n : Nat) : Bool :=
  s.cores.any (fun c => c.held.any (fun r =>
    (r.kind == 1 || r.kind == 2 || r.kind == 7) && r.source == s.source 1 ci && r.number == BitVec.ofNat 64 n))
  || (s.ctx ci).heldResults.any (fun h => h.2.2.1 == n)

/-- The counter moves on over complete commands, at most `k` of them (R128). -/
def State.advance (s : State) (ci : Nat) : Nat → State
  | 0 => s
  | k + 1 =>
    let c := s.ctx ci
    if c.done.contains (c.counter + 1) && !s.unplaced ci (c.counter + 1) then
      ({ (s.putCtx { c with counter := c.counter + 1, done := c.done.filter (· != c.counter + 1) }) with
          recs := s.recs.filter (fun r => r.agent != Agent.cmd ci (c.counter + 1)) }).advance ci k
    else s

/-- Sweeps whose number is reached are over: the map bits that no other sweep covers are cleared (R34, R36). -/
def State.endSweeps (s : State) : State :=
  let spent (w : Sweep) : Bool := match w.ctx with
    | some ci => decide (w.number ≤ (s.ctx ci).counter)
    | none => false
  let rest := s.sweeps.filter (fun w => !spent w)
  let gone := (s.sweeps.filter spent).flatMap Sweep.units
  { s with
    sweeps := rest
    revoked := s.revoked.filter (fun u => !gone.contains u || rest.any (fun w => w.units.contains u)) }

def State.advanceAll (s : State) (ci : Nat) : State := (s.advance ci (s.ctx ci).done.length).endSweeps

/-- Deliver a result word to the register the command came through, if its binding still is the one it was pushed through (R309). -/
def State.deliverResult (s : State) (ci : Nat) (c : Cmd) (word : U128) : State :=
  match c.via with
  | none => s
  | some (core, k, n) =>
    if h : k < 6 then
      let co := s.core core
      if co.bindNo[k] ≠ n then s
      else if co.results[k].length < 8 then s.putCore { co with results := co.results.set k (co.results[k] ++ [word]) }
      else
        let x := s.ctx ci
        s.putCtx { x with heldResults := x.heldResults ++ [(core, k, c.number, word)] }
    else s

/-- A command completes for an owner with a status and two details (R300): the record, the result word, the number. A detail
the manual does not state is a free value. -/
def State.complete (s : State) (owner : U16) (ci : Nat) (c : Cmd) (status : Nat) (d0 d1 : Option Nat) : State :=
  let launch := c.code == 0x40 && (status == 0 || status == 0x13)
  let kind := if launch then 7 else if status = 0 then 1 else 2
  let posts := status != 0 || c.flagEV
  let v0 : U64 := (d0.map (BitVec.ofNat 64)).getD (Config.free (4 * s.free))
  let v1 : U64 := (d1.map (BitVec.ofNat 64)).getD (Config.free (4 * s.free + 1))
  let s0 := if d0.isSome && d1.isSome then s else s.drawn
  let rec0 : EvRec :=
    { kind := BitVec.ofNat 16 kind, status := BitVec.ofNat 16 status, source := s.source 1 ci
      number := BitVec.ofNat 64 c.number, d0 := v0, d1 := v1 }
  let s1 := match (if posts then s0.eventTarget owner c else none) with
    | some q => s0.postEvent q rec0
    | none => s0
  let word : U128 := v0.setWidth 32 ++ 0#8 ++ BitVec.ofNat 8 c.code ++ BitVec.ofNat 16 status ++ BitVec.ofNat 64 c.number
  let s2 := if c.flagRES then s1.deliverResult ci c word else s1
  let x := s2.ctx ci
  (s2.putCtx { x with
      waiting := x.waiting.filter (fun y => y.number != c.number)
      active := x.active.filter (fun y => y.number != c.number)
      parked := x.parked.filter (fun y => y.cmd.number != c.number)
      stalls := x.stalls.filter (fun y => y.1 != c.number)
      done := setAdd x.done c.number }).advanceAll ci

/-! ### Handles (R15, R49; log 20) -/

/-- The handle of an engine context at a generation: otype 4, index in [14:0] of the cursor, generation above. -/
def ctxHandle (ci gen : Nat) : Cap := Cap.make 0 4 0 (2 ^ 64) (gen * 2 ^ 15 + ci)
def handleCtx (c : Cap) : Nat := c.addr.toNat % 2 ^ 15
def handleGen (c : Cap) : Nat := c.addr.toNat / 2 ^ 15

/-! ### The loom's queue and drains (R247, R254 to R256) -/

/-- The loom that a core leases or asks for: named by its request word. -/
def Core.loomIdx (c : Core) : Nat := (c.lease.request.extractLsb' 0 2).toNat
def Core.hasLease (c : Core) : Bool := c.lease.state == 2

/-- Tiles locked by commands the loom has not yet performed (R243). -/
def State.tileLocked (s : State) (core : Nat) (t : BitVec 3) : Bool :=
  let c := s.core core
  c.hasLease && (s.loom (coreBench core) c.loomIdx).queue.any (fun m => m.ta == t || m.tb == t)

/-- The array performs the first queued command of a loom (R251). -/
def State.arrayStep (s : State) (bench idx : Nat) : State :=
  let l := s.loom bench idx
  match l.queue with
  | m :: rest =>
    s.putLoom { (l.perform m.pair m.zp m.opA.1 m.opA.2.1 m.opA.2.2 m.opB.1 m.opB.2.1 m.opB.2.2) with
      queue := rest, lastCmd := s.cycle }
  | [] => s

/-- Every queued command is performed. -/
def State.flushLoom (s : State) (bench idx : Nat) : Nat → State
  | 0 => s
  | k + 1 => (s.arrayStep bench idx).flushLoom bench idx k
def State.flushed (s : State) (bench idx : Nat) : State := s.flushLoom bench idx (s.loom bench idx).queue.length

/-- The seats of a request's drain set (R244). -/
def drainSeats (request : U64) : List Nat := (List.range 48).filter (fun i => request.getLsbD (16 + i))

/-- The budget-drain record (R247). -/
def Drain.record (d : Drain) (s : State) (idx : Nat) : EvRec :=
  { kind := 6, status := if d.discarded then 1 else 0, source := s.source 0 d.holder, number := 0
    d0 := BitVec.ofNat 64 (d.number % 2 ^ 32 * 2 ^ 32 + idx), d1 := BitVec.ofNat 64 d.r }

/-- A drain ends when every row has started a handler or been discarded; a budget drain then posts its record (R247). -/
def State.endDrain (s : State) (idx : Nat) (d : Drain) : State :=
  if d.budget then s.postEvent d.holder (d.record s idx) else s

/-- The lease of a core ends with a drain in a format; the loom is free again (R247, R255). `lease` is what the core keeps. -/
def State.drainLease (s : State) (core : Nat) (format : BitVec 2) (budget : Bool) (after : BitVec 2) : State :=
  let c := s.core core
  let bench := coreBench core
  let s1 := s.flushed bench c.loomIdx
  let l := s1.loom bench c.loomIdx
  let d : Drain :=
    { rows := (List.range l.r).map (l.drainRow format), format := format, budget := budget
      seats := drainSeats c.lease.request, lease := c.lease, holder := core, number := l.count + 1, w := l.w, r := l.r
      c := l.c, discarded := false }
  let l1 := { l.cleared with holder := none, count := l.count + 1, drains := if l.r = 0 then l.drains else l.drains ++ [d] }
  let s2 := (s1.putLoom l1).putCore { c with lease := if after = 0 then .none else { c.lease with state := after } }
  if l.r = 0 then s2.endDrain c.loomIdx d else s2

/-- A slot whose LEASE waits for its grant. -/
def Slot.leasing (x : Slot) : Bool :=
  match x.park with
  | .grant _ _ => true
  | _ => false

/-- A pending request of a core is withdrawn: LEASE's leaves nothing (R245), that of a matrix command leaves REARM, from which a replay
makes it again (R247). -/
def State.withdraw (s : State) (core : Nat) : State :=
  let c := s.core core
  if c.lease.state = 1 then
    let l := s.loom (coreBench core) c.loomIdx
    (s.putLoom { l with pending := l.pending.filter (· != coreSeat core) }).putCore
      { c with lease := if (s.slot core 0).leasing then .none else { c.lease with state := 3 } }
  else s

/-- A budget drain of the lease a core holds (R247). -/
def State.budgetDrain (s : State) (core : Nat) : State :=
  let c := s.core core
  if c.lease.state = 2 then s.drainLease core (c.lease.request.extractLsb' 2 2) true 3 else s

/-! ### Slot images (R366, R367) and fault dumps (R363) -/

def capBytes (c : Cap) : List U8 := bytesLE 16 c.bits.toNat
def pad (n : Nat) (l : List U8) : List U8 := l ++ List.replicate (n - l.length) 0#8

/-- The issue class of a slot (R263). -/
def Slot.cls (x : Slot) : Nat :=
  if x.class1 then 1
  else
    match x.role with
    | .selvage _ => 2
    | .steward => 3
    | .porter => 3
    | _ => 4

def Slot.pendingArrivals (x : Slot) : Nat :=
  (List.finRange 4).foldl (fun n i => if x.arrivals[i].isSome then n + 2 ^ i.val else n) 0

def Slot.launchId (x : Slot) : Nat :=
  match x.role with
  | .launch id _ _ => id
  | _ => 0

/-- The header of an image but its MAC. -/
def State.imageHeader (s : State) (x : Slot) (kind size : Nat) : List U8 :=
  pad 248 (bytesLE 2 kind ++ bytesLE 1 x.idx ++ bytesLE 1 x.cls ++ bytesLE 4 x.core ++ bytesLE 2 x.owner.toNat
    ++ bytesLE 2 s.devnum.toNat ++ bytesLE 4 size ++ bytesLE 8 x.span ++ x.marks.toList.flatMap (bytesLE 8)
    ++ bytesLE 8 s.us ++ bytesLE 8 x.coord.toNat ++ bytesLE 1 x.depth ++ bytesLE 1 x.pendingArrivals ++ bytesLE 6 0
    ++ bytesLE 8 ((x.q6.map (· + 1)).getD 0) ++ bytesLE 8 ((x.q7.map (· + 1)).getD 0) ++ bytesLE 8 x.launchId)

/-- The 256 bytes of the frame (R359). -/
def Slot.frameBytes (x : Slot) : List U8 :=
  pad 256 (capBytes x.tfpcc ++ [x.tfpc, x.tfdone, x.tfclass, x.tfaddr, x.tflane0, x.tflane1, x.tfagent, x.tftime].flatMap
    (fun w => bytesLE 8 w.toNat))

/-- The bytes of an image after its header. A yield image ends after g31 (R368). -/
def State.imageBody (s : State) (x : Slot) (isYield : Bool) : List U8 :=
  let head := x.frameBytes ++ x.g.toList.flatMap capBytes
  if isYield then head
  else
    let c := s.core x.core
    let general := x.v.toList.flatMap (fun y => bytesLE 128 y.toNat) ++ x.p.toList.flatMap (fun y => bytesLE 16 y.toNat)
      ++ pad 384 (capBytes x.trapvec ++ capBytes x.upvec ++ capBytes x.tstack
        ++ [x.traphold, x.flags, x.round, x.settlemode].flatMap (fun w => bytesLE 8 w.toNat))
    if x.idx = 0 then
      head ++ general
        ++ pad 512 (c.shapes.toList.flatMap (fun w => bytesLE 8 w.toNat) ++ capBytes c.larg
          ++ c.chain.toList.flatMap (fun w => bytesLE 8 w.toNat) ++ c.watch.toList.flatMap (fun w => bytesLE 8 w.toNat)
          ++ c.qbind.toList.flatMap (fun b => match b with
            | some (ci, gen) => capBytes (ctxHandle ci gen)
            | none => bytesLE 16 0))
        ++ c.tiles.toList.flatMap (fun t => bytesLE 8192 t.toNat) ++ c.strips.toList.flatMap (fun z => bytesLE 128 z.toNat)
    else head ++ general

/-- The size of an image (R366, R368). -/
def imageSize (idx : Nat) (isYield : Bool) : Nat := if isYield then 1024 else if idx = 0 then 72704 else 5632

/-- The key that signs, and the keys that encrypt, an owner's images (R367). -/
def State.dumpKey (s : State) (owner : U16) : Option (BitVec 256) :=
  match s.owner owner with
  | some o => o.dumpKey.map s.keySlot
  | none => none
def State.imageMac (s : State) (owner : U16) (rest : List U8) : List U8 :=
  let k := match s.dumpKey owner with
    | some k => rootKey k 5
    | none => s.bootKeys.image
  (cmac k rest).take 8

/-- An image in clear, its MAC in bytes 248 to 255. -/
def State.imageBytes (s : State) (x : Slot) (isYield : Bool) : List U8 :=
  let size := imageSize x.idx isYield
  let h := s.imageHeader x (if isYield then 2 else 1) size
  let b := s.imageBody x isYield
  h ++ s.imageMac x.owner (h ++ b) ++ b

/-- Bytes as they are stored in the save area from `off` on: encrypted in 256-byte units under a dump key (R367). -/
def State.dumpEncrypt (s : State) (owner : U16) (off : Nat) (l : List U8) : List U8 :=
  match s.dumpKey owner with
  | none => l
  | some k =>
    ((chunks 256 ((l.length + 255) / 256) l).zipIdx.map
      (fun x => xtsEncrypt (rootKey k 1) (rootKey k 3) (off + 256 * x.2) x.1)).flatten
def State.dumpDecrypt (s : State) (owner : U16) (off : Nat) (l : List U8) : List U8 :=
  match s.dumpKey owner with
  | none => l
  | some k =>
    ((chunks 256 ((l.length + 255) / 256) l).zipIdx.map
      (fun x => xtsDecrypt (rootKey k 1) (rootKey k 3) (off + 256 * x.2) x.1)).flatten

/-- The tagged granules of an image: offsets of its capabilities, and their tags as R24 leaves them. -/
def State.imageTags (s : State) (x : Slot) (isYield : Bool) : List (Nat × Bool) :=
  let t (c : Cap) : Bool := (s.dropRevoked c).tag
  [(256, t x.tfpcc)] ++ x.g.toList.zipIdx.map (fun y => (512 + 16 * y.2, t y.1))
    ++ (if isYield then [] else
      [(5248, t x.trapvec), (5264, t x.upvec), (5280, t x.tstack)]
        ++ (if x.idx = 0 then
          [(5696, t (s.core x.core).larg)]
            ++ (s.core x.core).qbind.toList.zipIdx.map (fun y => (5808 + 16 * y.2, y.1.isSome))
          else []))

/-- Write bytes into a frame, every granule of theirs untagged, then the tags given. -/
def State.writeFrame (s : State) (at_ : Nat) (l : List U8) (tags : List (Nat × Bool)) : State :=
  let t := setClear s.tags (at_ / 16) ((at_ + l.length + 15) / 16)
  { s with
    mem := Memory.writeList s.mem at_ l
    tags := tags.foldl (fun t x => if x.2 then setAdd t ((at_ + x.1) / 16) else t) t }

/-- A fault dump: the header in clear, then the slot's image; the dump-written record (R363). -/
def State.dump (s : State) (x : Slot) (reason cls : Nat) : State :=
  let ev (off len : Nat) : EvRec :=
    { kind := 10, status := BitVec.ofNat 16 reason, source := s.source 0 x.core, number := 0, d0 := BitVec.ofNat 64 off
      d1 := BitVec.ofNat 64 len }
  match s.owner x.owner, s.saveArea x.owner with
  | some o, some b =>
    let len := 64 + imageSize x.idx false
    let off := if 0xFC000 < o.dumpCursor + len then 0xC0000 else o.dumpCursor
    let head := pad 64 (bytesLE 8 len ++ bytesLE 2 reason ++ bytesLE 2 cls ++ bytesLE 4 0 ++ bytesLE 2 x.owner.toNat
      ++ bytesLE 6 0 ++ bytesLE 8 s.us)
    let body := s.dumpEncrypt x.owner (off + 64) (s.imageBytes x false)
    let tags := (s.imageTags x false).map (fun t => (64 + t.1, t.2))
    ((s.writeFrame (b + off) (head ++ body) tags).putOwner { o with dumpCursor := off + len }).notice x.owner (ev off len)
  | _, _ => s.notice x.owner (ev 0 0)

/-- First-fit: the lowest offset of `size` bytes in units of 256 that no pending image uses (R365). -/
def firstFit (used : List (Nat × Nat)) (size : Nat) : Option Nat :=
  (List.range (0xC0000 / 256)).findSome? (fun i =>
    let o := i * 256
    if o + size ≤ 0xC0000 && used.all (fun u => decide (o + size ≤ u.1) || decide (u.1 + u.2 ≤ o)) then some o else none)

/-- The frame words of a slot saved outside class 1: where its window stands (R159, R366; log 30). -/
def Slot.framed (x : Slot) : Slot :=
  if x.class1 then x
  else { x with tfpcc := x.pcc.withAddrBits x.winStart, tfpc := x.pcc.addr, tfdone := 0#32 ++ x.winDone }

/-- The bytes of an image in the save area, in clear, and where it lies. -/
def State.imageAt (s : State) (owner : U16) (i : Image) : Option (Nat × List U8) :=
  match i.offset, s.saveArea owner with
  | some off, some b => some (b + off, s.dumpDecrypt owner off (Memory.readList s.mem (b + off) i.size))
  | _, _ => none

/-- The MAC in the header is that of the rest. -/
def State.imageMacOk (s : State) (owner : U16) (l : List U8) : Bool :=
  (l.drop 248).take 8 == s.imageMac owner (l.take 248 ++ l.drop 256)

/-- Bytes put over a list at an offset. -/
def spliceList (l : List U8) (o : Nat) (new : List U8) : List U8 := l.take o ++ new ++ l.drop (o + new.length)

/-- An image in the save area with some of its g registers written, and its span and marks (R279); one whose MAC fails stays as it is. -/
def State.patchImage (s : State) (owner : U16) (i : Image) (x : Slot) (regs : List (BitVec 5)) : State :=
  match i.offset, s.imageAt owner i with
  | some off, some (at_, l) =>
    if !s.imageMacOk owner l then s
    else
      let l1 := spliceList l 16 (bytesLE 8 x.span ++ x.marks.toList.flatMap (bytesLE 8))
      let l2 := regs.foldl (fun l n => spliceList l (512 + 16 * n.toNat) (capBytes (x.getG n))) l1
      let l3 := spliceList l2 248 (s.imageMac owner (l2.take 248 ++ l2.drop 256))
      { s with
        mem := Memory.writeList s.mem at_ (s.dumpEncrypt owner off l3)
        tags := regs.foldl (fun t n => setPut t ((at_ + 512) / 16 + n.toNat) (s.dropRevoked (x.getG n)).tag) s.tags }
  | _, _ => s

/-- Place a slot's image in its owner's save area; none where there is no area or no room (R365). -/
def State.saveImage (s : State) (x : Slot) (isYield : Bool) (turn : Option Nat) : Option State :=
  match s.owner x.owner, s.saveArea x.owner with
  | some o, some b =>
    let size := imageSize x.idx isYield
    match firstFit (o.images.filterMap (fun i => i.offset.map (fun f => (f, (i.size + 255) / 256 * 256)))) size with
    | none => none
    | some off =>
      let c := s.core x.core
      let im : Image :=
        { offset := some off, size := size, turn := turn, isYield := isYield, slot := x, lease := if x.idx = 0 && !isYield then c.lease else .none, shapes := c.shapes, tiles := c.tiles
          strips := c.strips, larg := c.larg, chain := c.chain, watch := c.watch, qbind := c.qbind }
      let y := if isYield then x else x.framed
      some ((s.writeFrame (b + off) (s.dumpEncrypt x.owner off (s.imageBytes y isYield)) (s.imageTags y isYield)).putOwner
        { o with images := o.images ++ [im] })
  | _, _ => none

/-! ### Replies to requests (R273, R279, R280) -/

/-- A value the manual does not state, the n-th drawn, as 16 untagged bytes. -/
def freeCap (n : Nat) : Cap := { bits := Config.free (4 * n + 1) ++ Config.free (4 * n), tag := false }

/-- A reply reaches the requester's reserved entry, wherever its slot now is: in a slot, or in an image (R279). -/
def State.replyTo (s : State) (txn : Nat) (r : Reply) : State :=
  let hit (x : Slot) : Bool := match x.delegated with
    | some d => d.2.2.1.txn == txn && x.running
    | none => false
  if hit s.self then s.setSelf (fun x => { x with delegateReply := some r })
  else
    { s with
      others := s.others.map (fun x => if hit x then { x with delegateReply := some r } else x)
      owners := s.owners.map (fun o => { o with
        images := o.images.map (fun i => if hit i.slot then { i with slot := { i.slot with delegateReply := some r } } else i) }) }

/-- Answer the requester of a message with a status and four words (R280); a revoked word moves untagged (R31), and through the fabric a word
needs FB (R25). -/
def State.answer (s : State) (m : Msg) (status : U16) (w4 w5 w6 w7 : Cap) : State :=
  let f (c : Cap) : Cap := if m.replyLocal || c.holds .fb then s.dropRevoked c else c.untag
  let r : Reply := { txn := m.txn, status := status, value := .zero, w4 := f w4, w5 := f w5, w6 := f w6, w7 := f w7, detail := 0 }
  if m.replyLocal then s.replyTo m.txn r else { s with out := s.out ++ [.reply (m.origin.extractLsb' 13 14) r] }

/-! ### The scan of a core's registers (R33) -/

def mapMsg (f : Cap → Cap) (m : Msg) : Msg :=
  { m with entry := f m.entry, w4 := f m.w4, w5 := f m.w5, w6 := f m.w6, w7 := f m.w7 }
def mapReply (f : Cap → Cap) (r : Reply) : Reply :=
  { r with value := f r.value, w4 := f r.w4, w5 := f r.w5, w6 := f r.w6, w7 := f r.w7 }

/-- The capability registers of a slot and what it has in flight. -/
def Slot.mapCaps (f : Cap → Cap) (x : Slot) : Slot :=
  { x with
    pcc := f x.pcc, g := x.g.map f, trapvec := f x.trapvec, upvec := f x.upvec, tfpcc := f x.tfpcc, tstack := f x.tstack
    replies := x.replies.map (mapReply f), delegateReply := x.delegateReply.map (mapReply f)
    delegated := x.delegated.map (fun d => (d.1, d.2.1, mapMsg f d.2.2.1, d.2.2.2))
    answers := x.answers.map (mapMsg f), coopVec := f x.coopVec }

def Lease.mapCaps (f : Cap → Cap) (l : Lease) : Lease :=
  { l with handler := f l.handler, larg := f l.larg, trapvec := f l.trapvec, upvec := f l.upvec }

def Image.mapCaps (f : Cap → Cap) (i : Image) : Image := { i with slot := i.slot.mapCaps f, lease := i.lease.mapCaps f, larg := f i.larg }

/-- The registers of a core's running and saved slots lose the tags of revoked capabilities (R33). -/
def State.registerScan (s : State) (core : Nat) : State :=
  let f := s.dropRevoked
  let slot (x : Slot) : Slot := if x.core = core then x.mapCaps f else x
  { s with
    self := slot s.self, others := s.others.map slot
    cores := s.cores.map (fun c => if c.idx = core then { c with larg := f c.larg, lease := c.lease.mapCaps f } else c)
    owners := s.owners.map (fun o => { o with images := o.images.map (fun i =>
      if i.slot.core = core then i.mapCaps f else i) }) }

/-- At a task boundary a core scans its registers, while any range is revoked. -/
def State.scanCore (s : State) (core : Nat) : State := if s.revoked.isEmpty then s else s.registerScan core

/-! ### The end of a task (R264, R282, R362) -/

/-- How a task ends: by TEND or DLGRET, by an abort, by a discard at recovery. -/
inductive TaskEnd where
  | tend
  | abort
  | discard
deriving DecidableEq, Repr

/-- The tasks a launch has here. -/
def Launch.tasks (l : Launch) : Nat :=
  match l.shop with
  | some _ =>
    ((l.w2.extractLsb' 6 7).toNat + 1) * ((l.w2.extractLsb' 0 6).toNat + 1) * ((l.w2.extractLsb' 26 4).toNat + 1)
  | none => 0
def Launch.stages (l : Launch) : Nat := (l.w2.extractLsb' 26 4).toNat + 1
def Launch.seats (l : Launch) : Nat := (l.w2.extractLsb' 0 6).toNat + 1
def Launch.benchesN (l : Launch) : Nat := (l.w2.extractLsb' 6 7).toNat + 1
def Launch.shops (l : Launch) : Nat := (l.w2.extractLsb' 13 13).toNat + 1

/-- The tasks of a launch that have started on a physical bench and have not ended: the participants of its barriers (R209). -/
def Launch.participants (l : Launch) (bench : Nat) : List (Nat × Nat) :=
  (l.placed.filter (fun t => coreBench t.2.2 == bench && !l.ended.contains (t.1, t.2.1))).map (fun t => (t.1, t.2.1))

/-- A generation completes when every participant still running has arrived (R209). -/
def State.settleBarriers (s : State) (l : Launch) : State :=
  { s with
    barriers := s.barriers.map (fun b =>
      if b.launch = l.id && !b.arrived.isEmpty && (l.participants b.bench).all (fun t => b.arrived.contains t) then
        { b with gen := b.gen + 1, arrived := [] }
      else b) }

/-- The devices of the other shops of a launch (R268). -/
def Launch.peers (l : Launch) (dev : BitVec 14) : List (BitVec 14) :=
  (((List.range l.shops).map (fun k => l.w2.extractLsb' 33 14 + BitVec.ofNat 14 k)).filter (· != dev))
/-- What chains say to a device (R259). -/
def State.chainSay (s : State) (l : Launch) (dev : BitVec 14) (stage source target : Nat) (said : ChainSaid) : State :=
  { s with
    out := s.out ++ [.chain dev { device := l.token.1, launch := l.token.2, stage := stage, source := source, target := target, said := said }] }

/-- A launch whose every task has ended completes its command, or answers the device that sent the shop (R267, R300). -/
def State.launchEnd (s : State) (l : Launch) : State :=
  if l.ended.length < l.tasks || !l.remote.isEmpty then s
  else
    let s1 := { s with
      launches := dropBy Launch.id l.id s.launches
      stageqs := s.stageqs.filter (fun q => q.launch != l.id)
      chainMsgs := s.chainMsgs.filter (fun m => m.launch != l.id)
      barriers := s.barriers.filter (fun b => b.launch != l.id) }
    match l.answers with
    | some (dev, txn) =>
      { s1 with
        out := s1.out ++ [.reply dev { txn := txn, status := 0, value := .zero, w4 := .zero, w5 := .zero, w6 := .zero
                                       w7 := .zero, detail := BitVec.ofNat 64 l.aborted }] }
    | none =>
      match (s1.ctx l.ctx).active.find? (fun c => c.number == l.number) with
      | some c =>
        if l.failed ≠ 0 then s1.complete l.owner l.ctx c l.failed (some 0) (some c.detail1)
        else
          s1.complete l.owner l.ctx c (if l.aborted = 0 then 0 else 0x13) none (if l.aborted = 0 then none else some l.aborted)
      | none => s1

/-- A task of a launch ends: its barriers, its outbound stage queue, its count (R209, R270, R362). -/
def State.launchTaskEnd (s : State) (id lcn stage : Nat) (aborted : Bool) : State :=
  match s.launch id with
  | none => s
  | some l =>
    let l1 := { l with ended := l.ended ++ [(lcn, stage)], aborted := if aborted then l.aborted + 1 else l.aborted }
    let s1 := { (s.putLaunch l1) with
      stageqs := s.stageqs.map (fun (q : StageQ) =>
        if q.launch = id && q.lcn = lcn && q.stage = stage then { q with producerEnded := true } else q) }
    let s2 := (l1.peers s.devnum).foldl (fun t dev => t.chainSay l1 dev stage lcn lcn .ended) (s1.settleBarriers l1)
    s2.launchEnd l1

/-- A slot becomes free: its span ended for every agent, its records gone, nothing outstanding (R117, R124). -/
def Slot.freed (x : Slot) : Slot :=
  { (x.closeSpan 3) with
    role := .free, class1 := false, depth := 0, park := .no, q6 := none, q7 := none, arrivals := Vector.replicate 4 none
    sent := [], replies := [], delegated := none, delegateReply := none, resend := none, tail := none, answers := none
    swLater := [], swDefer := false, watchTrap := none, coopDue := false, coopVec := .zero, starved := 0, winDone := 0, winReads := [], winWrites := []
    replay := false, afterTransfer := true }

/-- What the end of a task does besides freeing its slot. `x` is the slot state that ends, in a slot or in an image. -/
def State.afterTask (s : State) (x : Slot) (how : TaskEnd) : State :=
  let s0 := { s with recs := s.recs.filter (fun r => r.agent != x.agent), upcalls := s.upcalls.filter (fun u => u.1 != x.agent) }
  -- a reply still to come finds nobody: the reserved entry frees now (R279)
  let s1 := match x.delegated with
    | some _ =>
      let c := s0.core x.core
      s0.putCore { c with replyEntries := c.replyEntries.erase x.idx }
    | none => s0
  match x.role with
  | .launch id lcn stage => s1.launchTaskEnd id lcn stage (how != .tend)
  | .selvage core =>
    let c := s1.core core
    s1.putCore { c with out := c.out - 1 }
  | .steward =>
    match x.answers, how with
    | some m, .abort => s1.answer m 4 .zero .zero .zero .zero
    | some m, .discard => s1.answer m 4 .zero .zero .zero .zero
    | _, _ => s1
  | .message =>
    -- an emulation task answers the message it serves (R398)
    match x.answers, how with
    | some m, .tend => s1.answer m 0 (x.getG 4) (x.getG 5) (x.getG 6) (x.getG 7)
    | some m, _ => s1.answer m 4 .zero .zero .zero .zero
    | none, _ => s1
  | _ => s1

/-- A task in a slot ends: a task boundary of its core. -/
def State.endTask (s : State) (core idx : Nat) (how : TaskEnd) : State :=
  let x := s.slot core idx
  ((s.putSlot x.freed).afterTask x how).scanCore core

/-- An abort (R362): the task and its span end, a held lease closes by a budget drain, a fault dump is written. Only slot 0
uses the loom (R174), so only its abort closes a lease. -/
def State.abort (s : State) (core idx : Nat) (reason cls : Nat) : State :=
  let x := s.slot core idx
  let s1 := s.dump x reason cls
  let s2 := if idx = 0 then (s1.budgetDrain core).withdraw core else s1
  s2.endTask core idx .abort

/-! ### Taking a trap and returning from one -/

/-- The word at an address, as stored; 0 where it cannot be read. -/
def State.wordAt (s : State) (a : U64) : U32 := BitVec.ofNat 32 (s.loadN (s.localAddr a.toNat) 4)

/-- The vector of a class (R357). -/
def Slot.vectorFor (x : Slot) (cls : BitVec 6) : Cap :=
  if cls = 0x08 then x.upvec
  else if cls = 0x15 && x.coopVec.tag then x.coopVec
  else x.trapvec

/-- The kind of a class: 1 trap, 2 upcall, 3 cooperative (R359). -/
def trapKind (cls : BitVec 6) : BitVec 2 := if cls = 0x08 then 2 else if cls = 0x15 then 3 else 1

/-- The slot after delivery: class 1, the frame written, g2 and TSTACK exchanged, the PCC at the vector (R357, R359, R360).
`pc` and `word` are the faulting instruction's. -/
def Slot.deliver (x : Slot) (t : Trap) (pc : U64) (word : U32) (us : Nat) : Slot :=
  let y := { x with
    class1 := true
    tfpcc := x.pcc.withAddrBits x.winStart, tfpc := pc, tfdone := word ++ x.winDone
    tfclass := 0#54 ++ trapKind t.cls ++ 0#2 ++ t.cls
    tfaddr := t.addr, tflane0 := t.lanes.extractLsb' 0 64, tflane1 := t.lanes.extractLsb' 64 64, tfagent := t.agent
    tftime := BitVec.ofNat 64 us
    tstack := x.getG 2, pcc := x.vectorFor t.cls
    afterTransfer := true, replay := false, winDone := 0, winReads := [], winWrites := [], watchTrap := none, park := .no
    sent := [], replies := [], tail := none
    coopDue := if t.cls = 0x15 then false else x.coopDue }
  y.setG 2 x.tstack

/-- Take a trap, an upcall or a cooperative pre-emption at the issuing slot (R357): in class 1 the task aborts with reason 1;
with a bad vector it aborts with reason 2 (R362). -/
def State.takeTrapAt (s : State) (t : Trap) (pc : U64) (word : U32) : State :=
  if s.self.class1 then s.abort s.self.core s.self.idx 1 t.cls.toNat
  else
    -- a LEASE that parks withdraws its request (R245)
    let s0 := if s.self.leasing then s.withdraw s.self.core else s
    let s1 := s0.setSelf (fun x => x.deliver t pc word s.us)
    if (s.self.vectorFor t.cls).isVector then s1 else s1.abort s.self.core s.self.idx 2 t.cls.toNat

/-- A trap at the executing instruction, which is left undone. A pending watch trap gives way to it (R371). -/
def State.takeTrap (s : State) (t : Trap) : State := s.takeTrapAt t s.pc (s.wordAt s.pc)

/-- A trap of a class with a detail address and nothing else. -/
def Trap.plain (cls : BitVec 6) (addr : U64) : Trap := { cls := cls, addr := addr, lanes := 0, agent := 0 }

/-- The instruction traps. -/
def State.trap (s : State) (cls : BitVec 6) (addr : U64) : State := s.takeTrap (.plain cls addr)

/-- Return from a trap or an upcall (R361): g2 and TSTACK exchanged, kind 0, class 1 left, the window of TFPCC resumed with its
done mask (R159). -/
def Slot.resume (x : Slot) : Slot :=
  let y := { x with
    tstack := x.getG 2, tfclass := x.tfclass &&& ~~~(0x300#64), class1 := false, pcc := x.tfpcc
    winStart := x.tfpcc.addr, winDone := x.tfdone.extractLsb' 0 32, winReads := [], winWrites := []
    afterTransfer := true, replay := true }
  y.setG 2 x.tstack

/-! ### How an instruction ends -/

/-- The result of an instruction's parts: a value, or the state in which the instruction ended early (a trap taken, a park). -/
abbrev Run (α : Type) := Except State α

/-- The outcome of an instruction. -/
def finish (r : Run State) : Host.Outcome State Fault Refusal :=
  match r with
  | .ok s => .next s
  | .error s => .next s

/-- The done bit of a word of the window (R159). -/
def doneBit (start pc : U64) : U32 :=
  if (pc - start).toNat / 4 < 32 then 1#32 <<< ((pc - start).toNat / 4) else 0

/-- An instruction that parks so is a window of its own (R210, R243). -/
def Park.alone : Park → Bool
  | .barrier _ _ => true
  | .tile _ => true
  | _ => false

/-- A HOLD instruction that parks so has reached its unit: nothing is delivered before its status is written (R336). -/
def Park.holding : Park → Bool
  | .change _ => true
  | .unit _ => true
  | .claim _ _ => true
  | .ctxRoom _ => true
  | _ => false

/-- The slot's instruction is complete: its done bit is set, the slot is not parked, the PCC moves to the next word (R159, R189). The
word after a window of its own begins another. -/
def Slot.retired (x : Slot) : Slot :=
  { x with
    winDone := x.winDone ||| doneBit x.winStart x.pcc.addr, park := .no, afterTransfer := x.park.alone, replay := false
    pcc := x.pcc.withAddrBits (x.pcc.addr + 4) }

/-- The instruction is complete. -/
def State.retire (s : State) : State := s.setSelf Slot.retired

/-- The instruction is complete and the PCC is replaced (R189). -/
def State.jumpTo (s : State) (c : Cap) : State :=
  s.setSelf (fun x => { x with
    winDone := x.winDone ||| doneBit x.winStart x.pcc.addr, park := .no, pcc := c, afterTransfer := true, replay := false })

/-- A control transfer is complete and goes on at the next word (R155). -/
def State.passOn (s : State) : State := s.jumpTo (s.self.pcc.withAddrBits (s.self.pcc.addr + 4))

/-- The instruction waits: nothing of it is done, and the slot is not ready until the reason goes (R263). -/
def State.wait (s : State) (p : Park) : State := s.setSelf (fun x => { x with park := p })

/-- The position of the next word in the window. -/
def Slot.pos (x : Slot) : Nat := (x.pcc.addr - x.winStart).toNat / 4

/-- A window begins at the next word; SETTLEMODE and TRAPHOLD take effect (R160, R347). -/
def Slot.startWindow (x : Slot) : Slot :=
  { x with
    winStart := x.pcc.addr, winDone := 0, winReads := [], winWrites := [], winFlags := 0
    strict := x.settlemode.getLsbD 0, hold := x.traphold.getLsbD 0, afterTransfer := false }

/-- The instruction becomes a window of its own, for it is going to stall (R210, R243): earlier instructions complete first, and a
watch trap of theirs is delivered. -/
def State.alone (s : State) : Run State :=
  if s.self.winStart = s.pc then .ok s
  else if s.self.delegated.isSome then .error (s.wait .settle)
  else
    match s.self.watchTrap with
    | some (t, pc, w) => .error (s.takeTrapAt t pc w)
    | none => .ok (s.setSelf Slot.startWindow)

/-- The instruction waits in a window of its own. -/
def State.waitAlone (s : State) (p : Park) : State :=
  match s.alone with
  | .error t => t
  | .ok t => t.wait p

/-- Steps 1 to 4 of R19: the class of the first that fails. -/
def State.capClass (s : State) (c : Cap) (need : Perm) : Option (BitVec 6) :=
  if !c.tag then some 0x03
  else if c.isSealed then some 0x06
  else if s.isRevoked c then some 0x16
  else if !c.holds need then some 0x05
  else none

/-- A failing capability check at register `r`: use of a revoked capability as authority clears its tag (R31). -/
def State.capTrap (s : State) (r : BitVec 5) (cls : BitVec 6) (t : Trap) : State :=
  if cls = 0x16 then ((s.setG r (s.g r).untag).takeTrap t) else s.takeTrap t

/-- The agent the issuing slot is. -/
def State.me (s : State) : Agent := s.self.agent

/-- An access of the issuing slot. -/
def State.acc (s : State) (a n : Nat) (read write atomic : Bool) : Acc :=
  { agent := s.me, owner := s.self.owner, addr := a, size := n, write := write, read := read, atomic := atomic, fetch := false }

/-- The access bits of a fault record for a slot (R315). -/
def Acc.bits (x : Acc) : Nat :=
  (if x.write then 1 else 0) + (if x.atomic then 2 else 0) + (if x.fetch then 4 else 0)

/-- The fault record of a slot's access (R315, R364). -/
def State.slotFault (s : State) (kind : Nat) (a : Nat) (l : List Acc) : FaultRec :=
  let p := s.pageOf a
  let bits := match l with
    | x :: _ => x.bits
    | [] => 0
  { kind := kind, access := bits, requester := s.source 0 s.self.core
    addr := a, done := 0, number := s.self.span, sectors := touchedSectors p.1 p.2 l, page := p.1 }

/-- The upcall of the issuing slot names an absent page: a core is told when MAP makes it present (R364). -/
def State.owesNotice (s : State) (a : Nat) : State :=
  if s.hasFaultQueue s.self.owner then { s with upcalls := (s.me, s.self.owner, a) :: s.upcalls.erase (s.me, s.self.owner, a) } else s

/-- The owner that migrates a page: the user of the frame that backs it (R302, R375). -/
def State.migrator (s : State) (a : Nat) : U16 :=
  match s.transAt a with
  | none => 0
  | some t => s.userOf (mkRes (if t.host then 11 else 3) (t.page / 128))

/-- The fault of write-protect tracking: the page's units marked, the protection cleared, a record of kind 4 to the migrating owner
(R376). -/
def State.unprotect (s : State) (a : Nat) (f : FaultRec) : State :=
  match s.transAt a with
  | none => s
  | some t =>
    let s1 := { s with trans := putBy transKey { t with protect := false } s.trans }
    let s2 := s1.markLog t.frameId (if t.size then 0 else t.page % 128 * 128) (if t.size then 16384 else 128)
    s2.faultRecord (s.migrator a) { f with kind := 4 }

/-- What becomes of a slot's access that an error meets: the trap or upcall of its class, or a stall. `ea` is the detail
address for the classes that name ea, `lanes` the lane mask, `l` the accesses made. -/
def State.accStop (s : State) (e : AccErr) (ea : U64) (lanes : Pred) (l : List Acc) : State :=
  let mk (cls : BitVec 6) (a : U64) : Trap := { cls := cls, addr := a, lanes := lanes, agent := 0 }
  match e with
  | .rights => s.takeTrap (mk 0x07 ea)
  | .absent a =>
    -- a page that an uncorrectable error took away: no upcall, and its record is that of the error (R373)
    if s.isLost a then (s.metError a (s.slotFault 2 a l)).wait (.page (BitVec.ofNat 64 a))
    else if s.faultRoom s.self.owner then
      ((s.faultRecord s.self.owner (s.slotFault 1 a l)).owesNotice a).takeTrap (mk 0x08 (BitVec.ofNat 64 a))
    else s.wait (.page (BitVec.ofNat 64 a))
  | .migrate a => s.wait (.migrate (BitVec.ofNat 64 a))
  | .protect a =>
    -- a full ring leaves the page protected, and the write is tried again (R316, R376)
    (if s.faultRoom (s.migrator a) then s.unprotect a (s.slotFault 4 a l) else s).wait (.protect (s.cycle + s.clock))
  | .dataLost a => (s.metError a (s.slotFault 2 a l)).takeTrap (mk 0x11 ea)
  | .integrity a =>
    if s.faultRoom s.self.owner then (s.faultRecord s.self.owner (s.slotFault 3 a l)).takeTrap (mk 0x12 ea)
    else s.wait (.page (BitVec.ofNat 64 a))
  | .conflict a who => s.takeTrap { cls := 0x09, addr := BitVec.ofNat 64 a, lanes := lanes, agent := who }
  | .capacity a =>
    match s.self.park with
    | .record line since _ _ =>
      if line = a / 256 && 65536 ≤ s.cycle - since then s.takeTrap (mk 0x0A ea)
      else s.wait (.record (a / 256) (if line = a / 256 then since else s.cycle) ea lanes)
    | _ => s.wait (.record (a / 256) s.cycle ea lanes)

/-- A data match of a local watch: the trap follows at the window's settle point, its done bit set (R371). `lanes` is what the
access adds to a lane mask; of an instruction's accesses the lowest matching byte is named, and every lane that matches (R358). -/
def State.noteWatch (s : State) (x : Acc) (lanes : Pred) : State :=
  match s.watched x, s.self.watchTrap with
  | some a, none =>
    s.setSelf (fun y => { y with
      watchTrap := some ({ cls := 0x14, addr := BitVec.ofNat 64 a, lanes := lanes, agent := 0 }, s.pc, s.wordAt s.pc) })
  | some a, some (t, pc, w) =>
    if pc = s.pc then
      s.setSelf (fun y => { y with
        watchTrap := some ({ t with addr := BitVec.ofNat 64 (min a t.addr.toNat), lanes := t.lanes ||| lanes }, pc, w) })
    else s
  | none, _ => s

end Sys2Proof.Machine
end

