-- ==== Sys2Proof/Machine/Scalar.lean ====
section
/-! DEFINITION. The scalar instructions: OP (R182, R183, R188), OPW (R184), the immediate forms (R185, R186, R187). -/
namespace Sys2Proof.Machine

/-- An integer result: written under R23, then the next word (R181). -/
def State.put (s : State) (d : BitVec 5) (v : U64) : Host.Outcome State Fault Refusal := .next ((s.wr d v).retire)

/-- The low 32 bits of a register. -/
def State.x32 (s : State) (n : BitVec 5) : U32 := (s.x n).setWidth 32
/-- A 32-bit result is sign-extended (R184). -/
def State.put32 (s : State) (d : BitVec 5) (v : U32) : Host.Outcome State Fault Refusal := s.put d (v.signExtend 64)

/-- 1 when the condition holds (R182). -/
def boolWord (b : Bool) : U64 := if b then 1 else 0

/-- Leading zero bits of a word: the width when it is zero (R182). -/
def leadingZeros (x : U64) : Nat := if x = 0 then 64 else 63 - Nat.log2 x.toNat
/-- Trailing zero bits, `k` places still to look at. -/
def trailingFrom (x : U64) (i : Nat) : Nat → Nat
  | 0 => i
  | k + 1 => if x.getLsbD i then i else trailingFrom x (i + 1) k
def trailingZeros (x : U64) : Nat := trailingFrom x 0 64
def oneBits (x : U64) : Nat := (List.range 64).countP (fun i => x.getLsbD i)

/-- DIV at any width (R183): all ones for a zero divisor, the dividend's least value for its overflow. -/
def divS {n : Nat} (x y : BitVec n) : BitVec n := if y = 0 then BitVec.allOnes n else BitVec.ofInt n (x.toInt.tdiv y.toInt)
/-- REM at any width. -/
def remS {n : Nat} (x y : BitVec n) : BitVec n := if y = 0 then x else BitVec.ofInt n (x.toInt.tmod y.toInt)
def divU {n : Nat} (x y : BitVec n) : BitVec n := if y = 0 then BitVec.allOnes n else BitVec.ofNat n (x.toNat / y.toNat)
def remU {n : Nat} (x y : BitVec n) : BitVec n := if y = 0 then x else BitVec.ofNat n (x.toNat % y.toNat)

/-- A shift amount of R182 and R184. -/
def amount (y : U64) (w : Nat) : Nat := y.toNat % w

/-! ### OP (R182, R183, R188) -/

def execAdd (d a b : BitVec 5) (s : State) : Host.Outcome State Fault Refusal :=
  s.put d (s.x a + s.x b)
def execSub (d a b : BitVec 5) (s : State) : Host.Outcome State Fault Refusal :=
  s.put d (s.x a - s.x b)
def execAnd (d a b : BitVec 5) (s : State) : Host.Outcome State Fault Refusal :=
  s.put d (s.x a &&& s.x b)
def execOr (d a b : BitVec 5) (s : State) : Host.Outcome State Fault Refusal :=
  s.put d (s.x a ||| s.x b)
def execXor (d a b : BitVec 5) (s : State) : Host.Outcome State Fault Refusal :=
  s.put d (s.x a ^^^ s.x b)
def execAndn (d a b : BitVec 5) (s : State) : Host.Outcome State Fault Refusal :=
  s.put d (s.x a &&& ~~~(s.x b))
def execSll (d a b : BitVec 5) (s : State) : Host.Outcome State Fault Refusal :=
  s.put d (s.x a <<< amount (s.x b) 64)
def execSrl (d a b : BitVec 5) (s : State) : Host.Outcome State Fault Refusal :=
  s.put d (s.x a >>> amount (s.x b) 64)
def execSra (d a b : BitVec 5) (s : State) : Host.Outcome State Fault Refusal :=
  s.put d ((s.x a).sshiftRight (amount (s.x b) 64))
def execSlt (d a b : BitVec 5) (s : State) : Host.Outcome State Fault Refusal :=
  s.put d (boolWord ((s.x a).slt (s.x b)))
def execSltu (d a b : BitVec 5) (s : State) : Host.Outcome State Fault Refusal :=
  s.put d (boolWord ((s.x a).ult (s.x b)))
def execMin (d a b : BitVec 5) (s : State) : Host.Outcome State Fault Refusal :=
  s.put d (if (s.x b).slt (s.x a) then s.x b else s.x a)
def execMax (d a b : BitVec 5) (s : State) : Host.Outcome State Fault Refusal :=
  s.put d (if (s.x a).slt (s.x b) then s.x b else s.x a)
def execMinu (d a b : BitVec 5) (s : State) : Host.Outcome State Fault Refusal :=
  s.put d (if (s.x b).ult (s.x a) then s.x b else s.x a)
def execMaxu (d a b : BitVec 5) (s : State) : Host.Outcome State Fault Refusal :=
  s.put d (if (s.x a).ult (s.x b) then s.x b else s.x a)
def execMul (d a b : BitVec 5) (s : State) : Host.Outcome State Fault Refusal :=
  s.put d (s.x a * s.x b)
def execMulh (d a b : BitVec 5) (s : State) : Host.Outcome State Fault Refusal :=
  s.put d (BitVec.ofInt 64 ((s.x a).toInt * (s.x b).toInt / 2 ^ 64))
def execMulhu (d a b : BitVec 5) (s : State) : Host.Outcome State Fault Refusal :=
  s.put d (BitVec.ofNat 64 ((s.x a).toNat * (s.x b).toNat / 2 ^ 64))
def execDiv (d a b : BitVec 5) (s : State) : Host.Outcome State Fault Refusal :=
  s.put d (divS (s.x a) (s.x b))
def execDivu (d a b : BitVec 5) (s : State) : Host.Outcome State Fault Refusal :=
  s.put d (divU (s.x a) (s.x b))
def execRem (d a b : BitVec 5) (s : State) : Host.Outcome State Fault Refusal :=
  s.put d (remS (s.x a) (s.x b))
def execRemu (d a b : BitVec 5) (s : State) : Host.Outcome State Fault Refusal :=
  s.put d (remU (s.x a) (s.x b))
def execClz (d a : BitVec 5) (s : State) : Host.Outcome State Fault Refusal :=
  s.put d (BitVec.ofNat 64 (leadingZeros (s.x a)))
def execCtz (d a : BitVec 5) (s : State) : Host.Outcome State Fault Refusal :=
  s.put d (BitVec.ofNat 64 (trailingZeros (s.x a)))
def execPopc (d a : BitVec 5) (s : State) : Host.Outcome State Fault Refusal :=
  s.put d (BitVec.ofNat 64 (oneBits (s.x a)))
/-- GPAIR writes both halves, untagged (R188). -/
def execGpair (d a b : BitVec 5) (s : State) : Host.Outcome State Fault Refusal :=
  .next ((s.setG d { bits := s.x b ++ s.x a, tag := false }).retire)
/-- GHI reads the high half (R188). -/
def execGhi (d a : BitVec 5) (s : State) : Host.Outcome State Fault Refusal :=
  s.put d ((s.g a).high)

/-! ### OPW (R184) -/

def execAddw (d a b : BitVec 5) (s : State) : Host.Outcome State Fault Refusal :=
  s.put32 d (s.x32 a + s.x32 b)
def execSubw (d a b : BitVec 5) (s : State) : Host.Outcome State Fault Refusal :=
  s.put32 d (s.x32 a - s.x32 b)
def execSllw (d a b : BitVec 5) (s : State) : Host.Outcome State Fault Refusal :=
  s.put32 d (s.x32 a <<< amount (s.x b) 32)
def execSrlw (d a b : BitVec 5) (s : State) : Host.Outcome State Fault Refusal :=
  s.put32 d (s.x32 a >>> amount (s.x b) 32)
def execSraw (d a b : BitVec 5) (s : State) : Host.Outcome State Fault Refusal :=
  s.put32 d ((s.x32 a).sshiftRight (amount (s.x b) 32))
def execMulw (d a b : BitVec 5) (s : State) : Host.Outcome State Fault Refusal :=
  s.put32 d (s.x32 a * s.x32 b)
def execDivw (d a b : BitVec 5) (s : State) : Host.Outcome State Fault Refusal :=
  s.put32 d (divS (s.x32 a) (s.x32 b))
def execDivuw (d a b : BitVec 5) (s : State) : Host.Outcome State Fault Refusal :=
  s.put32 d (divU (s.x32 a) (s.x32 b))
def execRemw (d a b : BitVec 5) (s : State) : Host.Outcome State Fault Refusal :=
  s.put32 d (remS (s.x32 a) (s.x32 b))
def execRemuw (d a b : BitVec 5) (s : State) : Host.Outcome State Fault Refusal :=
  s.put32 d (remU (s.x32 a) (s.x32 b))

/-! ### Immediate forms (R185, R186, R187) -/

def execAddi (d a : BitVec 5) (i : BitVec 15) (s : State) : Host.Outcome State Fault Refusal :=
  s.put d (s.x a + i.signExtend 64)
def execAndi (d a : BitVec 5) (i : BitVec 15) (s : State) : Host.Outcome State Fault Refusal :=
  s.put d (s.x a &&& i.signExtend 64)
def execOri (d a : BitVec 5) (i : BitVec 15) (s : State) : Host.Outcome State Fault Refusal :=
  s.put d (s.x a ||| i.signExtend 64)
def execXori (d a : BitVec 5) (i : BitVec 15) (s : State) : Host.Outcome State Fault Refusal :=
  s.put d (s.x a ^^^ i.signExtend 64)
def execSlti (d a : BitVec 5) (i : BitVec 15) (s : State) : Host.Outcome State Fault Refusal :=
  s.put d (boolWord ((s.x a).slt (i.signExtend 64)))
def execSltiu (d a : BitVec 5) (i : BitVec 15) (s : State) : Host.Outcome State Fault Refusal :=
  s.put d (boolWord ((s.x a).ult (i.signExtend 64)))
def execAddiw (d a : BitVec 5) (i : BitVec 15) (s : State) : Host.Outcome State Fault Refusal :=
  s.put32 d (s.x32 a + i.signExtend 32)
def execSlli (d a : BitVec 5) (n : BitVec 6) (s : State) : Host.Outcome State Fault Refusal :=
  s.put d (s.x a <<< n.toNat)
def execSrli (d a : BitVec 5) (n : BitVec 6) (s : State) : Host.Outcome State Fault Refusal :=
  s.put d (s.x a >>> n.toNat)
def execSrai (d a : BitVec 5) (n : BitVec 6) (s : State) : Host.Outcome State Fault Refusal :=
  s.put d ((s.x a).sshiftRight n.toNat)
def execSlliw (d a : BitVec 5) (n : BitVec 5) (s : State) : Host.Outcome State Fault Refusal :=
  s.put32 d (s.x32 a <<< n.toNat)
def execSrliw (d a : BitVec 5) (n : BitVec 5) (s : State) : Host.Outcome State Fault Refusal :=
  s.put32 d (s.x32 a >>> n.toNat)
def execSraiw (d a : BitVec 5) (n : BitVec 5) (s : State) : Host.Outcome State Fault Refusal :=
  s.put32 d ((s.x32 a).sshiftRight n.toNat)
def execLui (d : BitVec 5) (i : BitVec 20) (s : State) : Host.Outcome State Fault Refusal :=
  s.put d ((i ++ 0#14).signExtend 64)

end Sys2Proof.Machine
end

