-- ==== Sys2Proof/Machine/CapOps.lean ====
section
/-! DEFINITION. The capability group (R199 to R202, R26, R27). -/
namespace Sys2Proof.Machine

/-- A derivation's result and the next word. -/
def State.putCap (s : State) (d : BitVec 5) (c : Cap) : Host.Outcome State Fault Refusal := .next ((s.setG d c).retire)

/-- R200's condition on the source: tagged, unsealed, not revoked. -/
def State.derivable (s : State) (c : Cap) : Bool := c.tag && !c.isSealed && !s.isRevoked c

/-- CSETADDR and CINC: a new cursor (R200). -/
def State.recursor (s : State) (c : Cap) (a : U64) : Cap :=
  { c.withAddrBits a with tag := s.derivable c && c.representable a }

/-! ### Queries (R199) -/

def execCgetaddr (d a : BitVec 5) (s : State) : Host.Outcome State Fault Refusal := s.put d (s.g a).addr
def execCgetbase (d a : BitVec 5) (s : State) : Host.Outcome State Fault Refusal :=
  s.put d (BitVec.ofInt 64 (s.g a).bounds.base)
def execCgetlen (d a : BitVec 5) (s : State) : Host.Outcome State Fault Refusal :=
  let k := (s.g a).bounds
  s.put d (BitVec.ofInt 64 (min (k.top - k.base) (2 ^ 64 - 1)))
def execCgetperm (d a : BitVec 5) (s : State) : Host.Outcome State Fault Refusal := s.put d ((s.g a).perms.setWidth 64)
def execCgettype (d a : BitVec 5) (s : State) : Host.Outcome State Fault Refusal := s.put d ((s.g a).otype.setWidth 64)
def execCgettag (d a : BitVec 5) (s : State) : Host.Outcome State Fault Refusal := s.put d (boolWord (s.g a).tag)

/-! ### Derivations (R200, R202) -/

def execCsetaddr (d a b : BitVec 5) (s : State) : Host.Outcome State Fault Refusal :=
  s.putCap d (s.recursor (s.g a) (s.x b))
def execCinc (d a b : BitVec 5) (s : State) : Host.Outcome State Fault Refusal :=
  s.putCap d (s.recursor (s.g a) (s.x a + s.x b))
def execCsetb (d a b : BitVec 5) (s : State) : Host.Outcome State Fault Refusal :=
  s.putCap d ((s.g a).setBounds (s.x b).toNat true (s.derivable (s.g a)))
def execCsetbx (d a b : BitVec 5) (s : State) : Host.Outcome State Fault Refusal :=
  s.putCap d ((s.g a).setBounds (s.x b).toNat false (s.derivable (s.g a)))
def execCandp (d a b : BitVec 5) (s : State) : Host.Outcome State Fault Refusal :=
  s.putCap d { (s.g a).withPerms ((s.g a).perms &&& (s.x b).setWidth 12) with tag := s.derivable (s.g a) }
def execCinci (d a : BitVec 5) (i : BitVec 14) (s : State) : Host.Outcome State Fault Refusal :=
  s.putCap d (s.recursor (s.g a) (s.x a + i.signExtend 64))
def execCsetbi (d a : BitVec 5) (i : BitVec 14) (s : State) : Host.Outcome State Fault Refusal :=
  s.putCap d ((s.g a).setBounds i.toNat true (s.derivable (s.g a)))

/-! ### Sealing (R26, R27) -/

/-- Checks 1 to 5 of R26 and R27; `sealed` is what c's seal must be. -/
def State.sealClass (s : State) (c k : Cap) (need : Perm) (isSealed : Bool) : Option (BitVec 6) :=
  if !(c.tag && k.tag) then some 0x03
  else if c.isSealed != isSealed || k.isSealed then some 0x06
  else if s.isRevoked c || s.isRevoked k then some 0x16
  else if !k.holds need then some 0x05
  else if !k.inBounds k.addr.toNat 1 then some 0x04
  else none

/-- The trap of a seal or unseal: a revoked operand loses its tag (R31). -/
def State.sealTrap (s : State) (a b : BitVec 5) (cls : BitVec 6) : State :=
  let drop (t : State) (r : BitVec 5) : State := if s.isRevoked (s.g r) then t.setG r (s.g r).untag else t
  (if cls = 0x16 then drop (drop s a) b else s).trap cls 0

/-- CSEAL (R26). -/
def execCseal (d a b : BitVec 5) (s : State) : Host.Outcome State Fault Refusal :=
  let c := s.g a
  let k := s.g b
  let o := k.addr.toNat
  match s.sealClass c k .se false with
  | some cls => .next (s.sealTrap a b cls)
  | none =>
    if !(o == 2 || o == 3 || o == 5 || (decide (16 ≤ o) && decide (o < 256))) then .next (s.sealTrap a b 0x06)
    else if o < 16 && !c.holds .x then .next (s.sealTrap a b 0x06)
    else s.putCap d (c.withOtype (BitVec.ofNat 8 o))

/-- CUNSEAL (R27). -/
def execCunseal (d a b : BitVec 5) (s : State) : Host.Outcome State Fault Refusal :=
  let c := s.g a
  let k := s.g b
  match s.sealClass c k .us true with
  | some cls => .next (s.sealTrap a b cls)
  | none =>
    if c.otype.toNat < 16 then .next (s.sealTrap a b 0x06)
    else if k.addr.toNat ≠ c.otype.toNat then .next (s.sealTrap a b 0x06)
    else s.putCap d (c.withOtype 0)

/-! ### The rest (R199, R201) -/

def execCtestsub (d a b : BitVec 5) (s : State) : Host.Outcome State Fault Refusal :=
  s.put d (boolWord ((s.g a).subset (s.g b)))
def execCclrtag (d a : BitVec 5) (s : State) : Host.Outcome State Fault Refusal := s.putCap d (s.g a).untag
def execCmove (d a : BitVec 5) (s : State) : Host.Outcome State Fault Refusal := s.putCap d (s.dropRevoked (s.g a))
def execCreplen (d a : BitVec 5) (s : State) : Host.Outcome State Fault Refusal :=
  s.put d (BitVec.ofNat 64 (repLength (s.x a).toNat))

end Sys2Proof.Machine
end

