-- ==== Sys2Proof/Machine/Operands.lean ====
section
/-! DEFINITION. Operand forms: memory operands through a capability (R19, R197), here or on another device (R12, R133), and
what a slot does with the reply to a remote request (R396, R400). -/
namespace Sys2Proof.Machine

/-! ### Checks -/

/-- Steps 1 to 6 of R19 for an access of `n` bytes at `ea` through the capability in register `r`; a failure is the trap. -/
def State.capCheck (s : State) (r : BitVec 5) (c : Cap) (ea : U64) (n : Nat) (needs : List Perm) (align : Bool) : Run Unit :=
  match needs.findSome? (s.capClass c) with
  | some k => .error (s.capTrap r k (.plain k ea))
  | none =>
    if !c.inBounds ea.toNat n then .error (s.trap 0x04 ea)
    else if align && ea.toNat % n != 0 then .error (s.trap 0x0B ea)
    else .ok ()

/-- Where an access is performed: at a local address, or at an offset of another device. -/
inductive Site where
  | here (a : Nat)
  | there (device : BitVec 14) (offset : Nat)
deriving DecidableEq, Repr

def State.site (s : State) (ea : U64) : Site :=
  match s.remoteOf ea.toNat with
  | some (d, o) => .there d o
  | none => .here (s.localAddr ea.toNat)

/-- An address in the fabric window, whichever device it names. -/
def isFabric (ea : U64) : Bool := ea.extractLsb' 62 2 == 2

/-- Step 7 of R19 and everything after it for the issuing slot. -/
def State.accCheck (s : State) (x : Acc) (ea : U64) : Run Unit :=
  match s.accErr x with
  | some e => .error (s.accStop e ea 0 [x])
  | none => .ok ()

/-- The access is performed by the issuing slot: `write` moves its bytes; a local watch may match (R371). `lanes` is what it adds to
a lane mask. -/
def State.accessLane (s : State) (x : Acc) (lanes : Pred) (write : State → State) : State := (s.performed x write).noteWatch x lanes
def State.access (s : State) (x : Acc) (write : State → State) : State := s.accessLane x 0 write

/-- The C right of the issuing owner at an address. -/
def State.rightC (s : State) (a : Nat) : Bool :=
  match s.rightsAt s.self.owner a with
  | some e => e.c
  | none => false

/-- The tag of a capability load of value `v` through `c` (R198). -/
def State.loadedTag (s : State) (c v : Cap) (right : Bool) (ea : U64) : Bool :=
  v.tag && c.holds .lc && right && !s.isRevoked v && (!isFabric ea || v.holds .fb)

/-- The tag that a capability store of value `v` writes (R198). -/
def State.storedTag (s : State) (v : Cap) (ea : U64) : Bool :=
  v.tag && !s.isRevoked v && (!isFabric ea || v.holds .fb)

/-! ### Remote requests (R133, R396, R400) -/

/-- Whether a route to a device exists (R393, R400, R409): a link is up or its traffic is held, and the peer is not given up. -/
def State.reaches (s : State) (d : BitVec 14) : Bool :=
  decide (d.toNat < 8192) && decide (s.devnum.toNat < 8192) && !s.unreachable.contains d
    && s.links.any (fun l => l.up || l.dark || l.draining)

/-- A request of the issuing slot. -/
def State.request (s : State) (offset size : Nat) : FabricReq :=
  { device := s.devnum, unit := BitVec.ofNat 15 s.self.core, slot := BitVec.ofNat 4 s.self.idx, engine := false, owner := s.self.owner
    txn := 0, addr := BitVec.ofNat 48 offset, size := size, capability := false, op := 0, data := .zero, expect := .zero
    tagged := false, tail := [], tags := [] }

/-- Send one request under the next transaction number. A peer that no route reaches answers at once (R400). -/
def State.sendOne (s : State) (r : BitVec 14 × (Nat → OutMsg)) : State :=
  let t := { s with nextTxn := s.nextTxn + 1 }
  let u := t.setSelf (fun x => { x with sent := x.sent ++ [s.nextTxn] })
  if s.reaches r.1 then { u with out := u.out ++ [r.2 s.nextTxn] }
  else
    u.setSelf (fun x => { x with
      replies := x.replies ++ [{ txn := s.nextTxn, status := 0x0E, value := .zero, w4 := .zero, w5 := .zero, w6 := .zero
                                 w7 := .zero, detail := 0 }] })

/-- Send requests and wait; once every reply is there, take them in order. An instruction that is executed again after a wait
sends nothing new, and one that has stalled in a window of its own stays so (R243). -/
def State.exchange (s : State) (reqs : List (BitVec 14 × (Nat → OutMsg))) : Run (State × List Reply) :=
  let t := if s.self.sent.isEmpty then reqs.foldl State.sendOne s else s
  match t.self.sent.mapM (fun n => t.self.replies.find? (fun r => r.txn == n)) with
  | some l => .ok (t.setSelf (fun x => { x with sent := [], replies := [] }), l)
  | none => .error (if t.self.park.alone then t else t.wait .reply)

/-- The class that a reply's status raises at a remote access other than a store to an unreachable peer (R133, R398, R400). -/
def replyClass (status : U16) : Option (BitVec 6) :=
  if status = 0 then none
  else if status = 0x3 then some 0x05
  else if status = 0x4 then some 0x04
  else if status = 0x5 then some 0x07
  else if status = 0x6 then some 0x08
  else if status = 0x8 then some 0x09
  else if status = 0x9 then some 0x0A
  else if status = 0xC then some 0x12
  else some 0x11

/-- The order of judgement of those classes (R227). -/
def classRank (k : BitVec 6) : Nat :=
  if k = 0x05 then 0 else if k = 0x04 then 1 else if k = 0x07 then 2 else if k = 0x08 then 3 else if k = 0x11 then 4
  else if k = 0x12 then 5 else if k = 0x09 then 6 else 7

/-- The trap of a failed reply: the first byte concerned and the other agent for CONFLICT, the first absent byte, else ea. -/
def replyTrap (r : Reply) (cls : BitVec 6) (ea : U64) (lanes : Pred) : Trap :=
  { cls := cls, addr := if cls = 0x09 ∨ cls = 0x08 then ea + r.w4.addr else ea, lanes := lanes
    agent := if cls = 0x09 then r.detail else 0 }

/-- The record of a store to an unreachable peer (R400). -/
def State.lostStore (s : State) (ea : U64) : State :=
  s.postEvent s.self.core
    { kind := 2, status := 0x0E, source := s.source 0 s.self.core, number := 0, d0 := ea
      d1 := BitVec.ofNat 64 s.self.idx }

/-- One remote access of `n` bytes that reads (a load or an atomic): the reply, or its trap; a local watch may match (R371). -/
def State.remoteRead (s : State) (d : BitVec 14) (ea : U64) (n : Nat) (atomic : Bool) (make : Nat → OutMsg) : Run (State × Reply) :=
  match s.exchange [(d, make)] with
  | .error t => .error t
  | .ok (t, r :: _) =>
    match replyClass r.status with
    | some k => .error (t.takeTrap (replyTrap r k ea 0))
    | none => .ok (t.noteWatch (s.acc ea.toNat n true false atomic) 0, r)
  | .ok (t, []) => .error t

/-- One remote store: it completes without a trap where the peer is unreachable (R400). -/
def State.remoteWrite (s : State) (d : BitVec 14) (ea : U64) (n : Nat) (atomic : Bool) (make : Nat → OutMsg) : Run State :=
  match s.exchange [(d, make)] with
  | .error t => .error t
  | .ok (t, r :: _) =>
    let watch (t : State) : State := t.noteWatch (s.acc ea.toNat n false true atomic) 0
    if r.status = 0x0E then .ok (watch (t.lostStore ea))
    else
      match replyClass r.status with
      | some k => .error (t.takeTrap (replyTrap r k ea 0))
      | none => .ok (watch t)
  | .ok (t, []) => .error t

/-! ### Data and capability accesses -/

/-- A number read as signed at `n` bytes, in 64 bits. -/
def sextBytes (n v : Nat) : U64 := (BitVec.ofNat (8 * n) v).signExtend 64

/-- A data load of `n` bytes: the bytes as a number, and the state after it (R197). -/
def State.loadData (s : State) (r : BitVec 5) (ea : U64) (n : Nat) : Run (State × Nat) :=
  match s.capCheck r (s.g r) ea n [.r] false with
  | .error t => .error t
  | .ok _ =>
    match s.site ea with
    | .here a =>
      let x := s.acc a n true false false
      match s.accCheck x ea with
      | .error t => .error t
      | .ok _ => .ok ((s.looked s.me a n).access x id, s.seenN s.me a n)
    | .there d o =>
      match s.remoteRead d ea n false (fun t => .load d { s.request o n with txn := t }) with
      | .error t => .error t
      | .ok (t, rep) => .ok (t, rep.value.bits.toNat % 2 ^ (8 * n))

/-- A data store of the low `n` bytes of a number (R197). -/
def State.saveData (s : State) (r : BitVec 5) (ea : U64) (n v : Nat) : Run State :=
  match s.capCheck r (s.g r) ea n [.w] false with
  | .error t => .error t
  | .ok _ =>
    match s.site ea with
    | .here a =>
      let x := s.acc a n false true false
      match s.accCheck x ea with
      | .error t => .error t
      | .ok _ => .ok (s.access x (fun t => t.storeData a n v))
    | .there d o =>
      s.remoteWrite d ea n false (fun t => .store d { s.request o n with
        txn := t, data := { bits := BitVec.ofNat 128 (v % 2 ^ (8 * n)), tag := false } })

/-- The SC rule of R198 for a tagged value: SC in the capability, C in the rights of the owner. The check of step 7 comes
first, so `right` is asked for only where it passed. -/
def State.scRule (s : State) (c v : Cap) (ea : U64) (right : Bool) : Run Unit :=
  if v.tag && !c.holds .sc then .error (s.trap 0x05 ea)
  else if v.tag && !right then .error (s.trap 0x07 ea)
  else .ok ()

/-! ### Accesses in lanes: vector elements and tile rows (R227, R241) -/

/-- One lane of an access: its number, its address, its bytes, and what it adds to a lane mask. -/
structure Lane where
  i : Nat
  ea : U64
  n : Nat
  mask : Pred
deriving DecidableEq, Repr

/-- A lane that stands for itself. -/
def Lane.single (i : Nat) (ea : U64) (n : Nat) : Lane := { i := i, ea := ea, n := n, mask := 1#128 <<< i }
def laneMask (l : List Lane) : Pred := l.foldl (fun m x => m ||| x.mask) 0

/-- A lane's pieces of at most 16 bytes, as fabric requests carry them (R396). -/
def Lane.pieces (x : Lane) : List Lane :=
  (List.range ((x.n + 15) / 16)).map (fun j =>
    { x with ea := x.ea + BitVec.ofNat 64 (16 * j), n := min 16 (x.n - 16 * j) })

/-- The access of a local lane. -/
def State.laneAcc (s : State) (x : Lane) (write : Bool) : Acc := s.acc (s.localAddr x.ea.toNat) x.n (!write) write false

def State.isRemote (s : State) (x : Lane) : Bool := (s.remoteOf x.ea.toNat).isSome

/-- Where an error in memory is met. -/
def AccErr.addr : AccErr → Nat
  | .rights => 0
  | .absent a => a
  | .migrate a => a
  | .protect a => a
  | .dataLost a => a
  | .integrity a => a
  | .conflict a _ => a
  | .capacity a => a

/-- Of the lanes that meet an error of the lowest rank: the lowest lane, but for CONFLICT the lowest address (R123, R227). -/
def pickErr (l : List (Lane × AccErr)) : Option (Lane × AccErr) :=
  l.foldl (fun best x =>
    match best with
    | none => some x
    | some b =>
      if x.2.rank < b.2.rank then some x
      else if x.2.rank = b.2.rank && b.2.rank = 5 && x.2.addr < b.2.addr then some x
      else some b) none

/-- Steps 1 to 4 of R19 once for the capability, steps 5 and 6 for every lane, the rest for every local lane (R227). `first`
is the detail address where no lane is active. -/
def State.laneCheck (s : State) (r : BitVec 5) (c : Cap) (need : Perm) (write align : Bool) (lanes : List Lane)
    (first : U64) : Run Unit :=
  let at0 := match lanes with
    | x :: _ => x.ea
    | [] => first
  let stop (k : BitVec 6) (l : List Lane) : Run Unit :=
    match l with
    | x :: _ => .error (s.takeTrap { cls := k, addr := x.ea, lanes := laneMask l, agent := 0 })
    | [] => .ok ()
  match s.capClass c need with
  | some k => .error (s.capTrap r k { cls := k, addr := at0, lanes := laneMask lanes, agent := 0 })
  | none => do
    stop 0x04 (lanes.filter (fun x => !c.inBounds x.ea.toNat x.n))
    stop 0x0B (if align then lanes.filter (fun x => x.ea.toNat % x.n != 0) else [])
    let loc := lanes.filter (fun x => !s.isRemote x)
    let errs := loc.filterMap (fun x => (s.accErr (s.laneAcc x write)).map (fun e => (x, e)))
    match pickErr errs with
    | some (x, e) =>
      .error (s.accStop e x.ea (laneMask ((errs.filter (fun y => y.2.rank == e.rank)).map Prod.fst))
        (loc.map (fun y => s.laneAcc y write)))
    | none => .ok ()

/-- The trap of the failed remote pieces: the first class in the order of R227, with every lane that fails with it. -/
def State.laneReplies (s : State) (l : List (Lane × Reply)) (write : Bool) : Run State :=
  let lost := if write then l.filter (fun x => x.2.status == 0x0E) else []
  let t := lost.foldl (fun t x => t.lostStore x.1.ea) s
  let bad := l.filterMap (fun x => if write && x.2.status == 0x0E then none else (replyClass x.2.status).map (fun k => (x, k)))
  let best := bad.foldl (fun (b : Option ((Lane × Reply) × BitVec 6)) y =>
    match b with
    | none => some y
    | some z => if classRank y.2 < classRank z.2 then some y else some z) none
  match best with
  | none => .ok t
  | some ((x, r), k) =>
    .error (t.takeTrap (replyTrap r k x.ea (laneMask ((bad.filter (fun y => y.2 == k)).map (fun y => y.1.1)))))

/-- The watches over remote lanes, which their requests have served (R371). -/
def State.watchLanes (s : State) (lanes : List Lane) (write : Bool) : State :=
  lanes.foldl (fun t x => t.noteWatch (s.acc x.ea.toNat x.n (!write) write false) x.mask) s

/-- Load every lane: their values by lane number (R227). -/
def State.loadLanes (s : State) (r : BitVec 5) (c : Cap) (align : Bool) (lanes : List Lane) (first : U64) :
    Run (State × List (Nat × Nat)) := do
  s.laneCheck r c .r false align lanes first
  let far := (lanes.filter s.isRemote).flatMap Lane.pieces
  let (t, replies) ← s.exchange (far.filterMap (fun x => (s.remoteOf x.ea.toNat).map (fun y =>
    (y.1, fun n => OutMsg.load y.1 { s.request y.2 x.n with txn := n }))))
  let u ← t.laneReplies (far.zip replies) false
  let near := lanes.filter (fun x => !s.isRemote x)
  let v := near.foldl (fun v x => v.accessLane (s.laneAcc x false) x.mask id) (u.watchLanes (lanes.filter s.isRemote) false)
  -- lanes that may miss writes to unchecked memory choose by their numbers (R129)
  let w := if near.any (fun x => !(s.missable s.me (s.localAddr x.ea.toNat) x.n).isEmpty) then { v with free := v.free + lanes.length } else v
  .ok (w, lanes.map (fun x =>
    (x.i,
      if s.isRemote x then
        (((far.zip replies).filter (fun y => y.1.i == x.i)).map (fun y => y.2.value.bits.toNat)).zipIdx.foldl
          (fun n y => n + 2 ^ (128 * y.2) * (y.1 % 2 ^ (8 * min 16 (x.n - 16 * y.2)))) 0
      else ({ s with free := s.free + x.i }).seenN s.me (s.localAddr x.ea.toNat) x.n)))

/-- Store every lane, in ascending order; the local lanes when the remote ones are sent (R227). -/
def State.saveLanes (s : State) (r : BitVec 5) (c : Cap) (align : Bool) (lanes : List Lane) (first : U64)
    (value : Nat → Nat) : Run State := do
  let t ←
    if s.self.sent.isEmpty then
      s.laneCheck r c .w true align lanes first
      pure ((lanes.filter (fun x => !s.isRemote x)).foldl
        (fun v x => v.accessLane (s.laneAcc x true) x.mask (fun w => w.storeData (s.localAddr x.ea.toNat) x.n (value x.i))) s)
    else pure s
  let far := (lanes.filter s.isRemote).flatMap (fun x => x.pieces.zipIdx)
  let (u, replies) ← t.exchange (far.filterMap (fun x => (s.remoteOf x.1.ea.toNat).map (fun y =>
    (y.1, fun n => OutMsg.store y.1 { s.request y.2 x.1.n with
      txn := n, data := { bits := BitVec.ofNat 128 (value x.1.i / 2 ^ (128 * x.2) % 2 ^ (8 * x.1.n)), tag := false } }))))
  let v ← u.laneReplies ((far.map Prod.fst).zip replies) true
  .ok (v.watchLanes (lanes.filter s.isRemote) true)

end Sys2Proof.Machine
end

