-- ==== Sys2Proof/Machine/Atomics.lean ====
section
/-! DEFINITION. The atomics (R203 to R206), FENCE (R130, R208) and the bench barriers (R209, R210). -/
namespace Sys2Proof.Machine

/-! ### Atomics -/

/-- Bytes of an sz code. -/
def atomBytes (z : BitVec 2) : Nat := 4 * 2 ^ z.toNat

/-- What a read-modify-write of `n` bytes writes, by its op code of R171: the old value `v`, the operand `x` (R204, R205). -/
def amoNew (op n v x : Nat) : Nat :=
  let w := 8 * n
  let sv := (BitVec.ofNat w v).toInt
  let sx := (BitVec.ofNat w x).toInt
  match op with
  | 0 => (v + x) % 2 ^ w
  | 1 => v &&& x
  | 2 => v ||| x
  | 3 => v ^^^ x
  | 4 => if sv ≤ sx then v else x
  | 5 => if sx ≤ sv then v else x
  | 6 => min v x
  | 7 => max v x
  | 8 => x
  | 10 => (addBits .f32 .rne (Fmt.f32.decode v) (Fmt.f32.decode x)).1
  | _ => x

/-- What an atomic writes: none for LDA and an unequal CAS (R204). `v` is the old value, `x` the operand, `e` the value a CAS
expects. -/
def atomNew (op n : Nat) (v x e : Cap) : Option Cap :=
  if op = 11 then none
  else if op = 9 then
    if n = 16 then (if v == e then some x else none)
    else if v.bits.toNat % 2 ^ (8 * n) = e.bits.toNat % 2 ^ (8 * n) then some x else none
  else if n = 16 then some x
  else
    some { bits := BitVec.ofNat 128 (amoNew op n (v.bits.toNat % 2 ^ (8 * n)) (x.bits.toNat % 2 ^ (8 * n))), tag := false }

/-- What an atomic returns of the old bytes at sizes w and d (R204). -/
def atomRet (op n v : Nat) : U64 :=
  if n = 4 && !(op == 6 || op == 7 || op == 10) then sextBytes 4 v else BitVec.ofNat 64 v

/-- The permissions an atomic needs (R203). -/
def atomNeeds (op : Nat) : List Perm := if op = 11 then [.r] else if op = 12 then [.w] else [.r, .w]

/-- Acquire and release roles of an order code (R114, R206). -/
def acquires (o : BitVec 2) : Bool := o == 1 || o == 3

/-- The span effect of an atomic around `f`, which performs it: an acquire cuts before its record is made, so that the
record lies in the span it begins; a release alone cuts after it (log 21). -/
def State.ordered (s : State) (o c : BitVec 2) (f : State → State) : State :=
  if o = 0 then f s
  else if acquires o then f (s.sync c.toNat)
  else (f s).sync c.toNat

/-- The register an atomic writes: none for STL. -/
def State.atomPut (s : State) (op n : Nat) (d : BitVec 5) (c v : Cap) (right : Bool) (ea : U64) : State :=
  if op = 12 then s
  else if n = 16 then s.setG d { v with tag := s.loadedTag c v right ea }
  else s.wr d (atomRet op n (v.bits.toNat % 2 ^ (8 * n)))

/-! ### Merged groups (R131, R132) -/

/-- A waiting relaxed AMOFADD is answered with the value before its own add. -/
def State.routedReply (s : State) (m : Routed) (v : Nat) : State :=
  let x := s.slot m.core m.idx
  let r : Reply := { txn := m.txn, status := 0, value := Cap.ofInt (BitVec.ofNat 64 v), w4 := .zero, w5 := .zero, w6 := .zero
                     w7 := .zero, detail := 0 }
  if x.sent.contains m.txn then s.putSlot { x with replies := x.replies ++ [r] } else s

/-- The values that a group's requests return: what the location would hold before each, rounded at each step. -/
def routedValues (v : Nat) : List Routed → List (Routed × Nat)
  | [] => []
  | m :: l => (m, v) :: routedValues (amoNew 10 4 v m.operand.toNat) l

/-- A group reaches the home: its operands are added first, then their sum to the location (R132). -/
def State.routedApply (s : State) (l : List Routed) : State :=
  match l with
  | [] => s
  | m :: rest =>
    let a := m.acc.addr
    let sum := rest.foldl (fun n r => amoNew 10 4 n r.operand.toNat) m.operand.toNat
    let v := s.loadN a 4
    let u := s.storeData a 4 (amoNew 10 4 v sum)
    let w := l.foldl (fun t r => t.monitorPost r.acc) u
    (routedValues v l).foldl (fun t r => t.routedReply r.1 r.2) w

/-- Every group reaches its home. -/
def State.routersEmpty (s : State) : State := s.routed.foldl State.routedApply { s with routed := [] }

/-- The issuing slot's relaxed AMOFADD joins the group of its address in the routers, or begins one. -/
def State.route (s : State) (x : Acc) (v : U32) : State :=
  let m : Routed := { core := s.self.core, idx := s.self.idx, txn := s.nextTxn, acc := x, operand := v }
  let here (l : List Routed) : Bool := l.any (fun r => r.acc.addr == x.addr)
  let groups := if s.routed.any here then s.routed.map (fun l => if here l then l ++ [m] else l) else s.routed ++ [[m]]
  ({ (s.commit x) with routed := groups, nextTxn := s.nextTxn + 1, free := s.free + 1 }).setSelf (fun y => { y with
    sent := y.sent ++ [s.nextTxn], park := .reply })

/-- An AMOFADD that has been in a router ends with the value that the router gives it. -/
def State.routedEnd (s : State) (d : BitVec 5) (x : Acc) : State :=
  match s.exchange [] with
  | .error t => t
  | .ok (t, r :: _) => ((t.noteWatch x 0).wr d ((r.value.addr.setWidth 32).setWidth 64)).retire
  | .ok (t, []) => t

/-- An atomic of op code `op` with operand `x` and expected value `e` (R204), performed at its home. -/
def State.atomicHome (s : State) (op : Nat) (d a : BitVec 5) (x e : Cap) (z o c : BitVec 2) (routes : Bool) :
    Host.Outcome State Fault Refusal :=
  let auth := s.g a
  let ea := s.x a
  let n := atomBytes z
  -- a tagged value that a q-size atomic may write
  let w : Cap := if n = 16 && op != 11 then x else x.untag
  finish (do
    s.capCheck a auth ea n (atomNeeds op) true
    match s.site ea with
    | .here m =>
      let k := s.acc m n (op != 12) (op != 11) true
      if s.accErr k == some .rights then s.accCheck k ea
      s.scRule auth w ea (s.rightC m)
      s.accCheck k ea
      if routes then .error (s.route k (x.bits.setWidth 32))
      let v := if n = 16 then s.capAt m else { bits := BitVec.ofNat 128 (s.loadN m n), tag := false }
      let new := (atomNew op n v x e).map (fun y => { y with tag := s.storedTag { y with tag := y.tag && n == 16 } ea })
      let put (t : State) : State := match new with
        | none => t
        | some y => if n = 16 then t.storeCap m y y.tag else t.storeData m n y.bits.toNat
      let t := s.ordered o c (fun t => t.access k put)
      .ok ((t.atomPut op n d auth v (s.rightC m) ea).retire)
    | .there dev off =>
      s.scRule auth w ea true
      let req : FabricReq := { s.request off n with
        capability := n == 16, tagged := w.tag, op := BitVec.ofNat 4 op, data := { w with tag := s.storedTag w ea }
        expect := if n = 16 then e else e.untag }
      if op = 12 then
        let t ← s.remoteWrite dev ea n true (fun t => .store dev { req with txn := t })
        .ok ((t.ordered o c id).retire)
      else
        let (t, rep) ← s.remoteRead dev ea n true
          (fun t => if op = 11 then .load dev { req with txn := t } else .atomic dev { req with txn := t })
        .ok (((t.ordered o c id).atomPut op n d auth rep.value true ea).retire))

/-- An atomic. Whether a relaxed AMOFADD meets others in a router is a free choice (R131, R132). -/
def State.atomic (s : State) (op : Nat) (d a : BitVec 5) (x e : Cap) (z o c : BitVec 2) : Host.Outcome State Fault Refusal :=
  if op = 10 && o = 0 then
    match s.site (s.x a) with
    | .here m =>
      if !s.self.sent.isEmpty then .next (s.routedEnd d (s.acc m 4 true true true))
      else if Config.merged s.free then s.atomicHome op d a x e z o c true
      else ({ s.routersEmpty with free := s.free + 1 }).atomicHome op d a x e z o c false
    | .there _ _ => s.atomicHome op d a x e z o c false
  else s.atomicHome op d a x e z o c false

def execAmoadd (d a b : BitVec 5) (z : BitVec 1) (o c : BitVec 2) (s : State) : Host.Outcome State Fault Refusal :=
  s.atomic 0 d a (s.g b) .zero (z.setWidth 2) o c
def execAmoand (d a b : BitVec 5) (z : BitVec 1) (o c : BitVec 2) (s : State) : Host.Outcome State Fault Refusal :=
  s.atomic 1 d a (s.g b) .zero (z.setWidth 2) o c
def execAmoor (d a b : BitVec 5) (z : BitVec 1) (o c : BitVec 2) (s : State) : Host.Outcome State Fault Refusal :=
  s.atomic 2 d a (s.g b) .zero (z.setWidth 2) o c
def execAmoxor (d a b : BitVec 5) (z : BitVec 1) (o c : BitVec 2) (s : State) : Host.Outcome State Fault Refusal :=
  s.atomic 3 d a (s.g b) .zero (z.setWidth 2) o c
def execAmomin (d a b : BitVec 5) (z : BitVec 1) (o c : BitVec 2) (s : State) : Host.Outcome State Fault Refusal :=
  s.atomic 4 d a (s.g b) .zero (z.setWidth 2) o c
def execAmomax (d a b : BitVec 5) (z : BitVec 1) (o c : BitVec 2) (s : State) : Host.Outcome State Fault Refusal :=
  s.atomic 5 d a (s.g b) .zero (z.setWidth 2) o c
def execAmominu (d a b : BitVec 5) (z : BitVec 1) (o c : BitVec 2) (s : State) : Host.Outcome State Fault Refusal :=
  s.atomic 6 d a (s.g b) .zero (z.setWidth 2) o c
def execAmomaxu (d a b : BitVec 5) (z : BitVec 1) (o c : BitVec 2) (s : State) : Host.Outcome State Fault Refusal :=
  s.atomic 7 d a (s.g b) .zero (z.setWidth 2) o c
def execAmoswap (d a b : BitVec 5) (z o c : BitVec 2) (s : State) : Host.Outcome State Fault Refusal :=
  s.atomic 8 d a (s.g b) .zero z o c
def execCas (d a b : BitVec 5) (z o c : BitVec 2) (s : State) : Host.Outcome State Fault Refusal :=
  s.atomic 9 d a (s.g b) (s.g d) z o c
def execAmofadd (d a b : BitVec 5) (o c : BitVec 2) (s : State) : Host.Outcome State Fault Refusal :=
  s.atomic 10 d a (s.g b) .zero 0 o c
/-- LDA: relaxed or acquire. -/
def execLda (d a : BitVec 5) (z : BitVec 2) (o : BitVec 1) (c : BitVec 2) (s : State) : Host.Outcome State Fault Refusal :=
  s.atomic 11 d a .zero .zero z (o.setWidth 2) c
/-- STL: relaxed or release; its data register is d. -/
def execStl (d a : BitVec 5) (z : BitVec 2) (o : BitVec 1) (c : BitVec 2) (s : State) : Host.Outcome State Fault Refusal :=
  s.atomic 12 d a (s.g d) .zero z (if o = 1 then 2 else 0) c

/-! ### FENCE and barriers -/

/-- FENCE (R115, R130, R208): every FENCE cuts the span at its scope; accesses are performed in program order here, and a fetch
always reads the newest word, so its sets add nothing (log 22). -/
def execFence (_f : BitVec 4) (c : BitVec 2) (s : State) : Host.Outcome State Fault Refusal :=
  .next ((s.sync c.toNat).retire)

/-- A bench barrier; generation 0 before anything arrives (R209). -/
def State.barrier (s : State) (launch bench k : Nat) : Barrier :=
  (s.barriers.find? (fun b => b.launch == launch && b.bench == bench && b.k == k)).getD
    { launch := launch, bench := bench, k := k, gen := 0, arrived := [] }
def State.putBarrier (s : State) (b : Barrier) : State :=
  { s with
    barriers := s.barriers.filter (fun c => !(c.launch == b.launch && c.bench == b.bench && c.k == b.k)) ++ [b] }

/-- The launch task a slot runs. -/
def Slot.launchTask (x : Slot) : Option (Nat × Nat × Nat) :=
  match x.role with
  | .launch id lcn stage => some (id, lcn, stage)
  | _ => none

/-- The bench on which a slot's task started, whose barriers it takes part in wherever it is restored (R209, R210). -/
def Slot.homeBench (x : Slot) : Nat :=
  match x.agent with
  | .slot core _ _ => coreBench core
  | _ => coreBench x.core

/-- The generation of a barrier as the issuing slot sees it. -/
def State.barrierGen (s : State) (launch k : Nat) : Nat := (s.barrier launch s.self.homeBench k).gen

def Slot.setArrival (x : Slot) (k : BitVec 2) (v : Option (Nat × Option (U64 × Bool))) : Slot :=
  { x with arrivals := x.arrivals.set k.toNat v k.isLt }

/-- Where the executing BARB stands: its address, and whether a trap handler runs it. -/
def State.barSite (s : State) : U64 × Bool := (s.pc, s.self.class1)

/-- The slot arrives in the current generation, which may complete it, and its span ends at bench scope (R209). `waits` marks the
arrival of a BARB. -/
def State.arrive (s : State) (id lcn stage : Nat) (k : BitVec 2) (waits : Bool) : State :=
  let b := s.barrier id s.self.homeBench k.toNat
  let s1 := (s.putBarrier { b with arrived := b.arrived ++ [(lcn, stage)] }).setSelf
    (fun x => x.setArrival k (some (b.gen, if waits then some s.barSite else none)))
  let s2 := match s1.launch id with
    | some l => s1.settleBarriers l
    | none => s1
  s2.sync 0

/-- The outstanding arrival's generation is complete: none is outstanding, and the instruction is complete. -/
def State.barDone (s : State) (k : BitVec 2) : State := (s.setSelf (fun x => x.setArrival k none)).retire

/-- BARW: wait for the outstanding arrival's generation; then acquire at bench scope (R209). -/
def State.barWait (s : State) (id : Nat) (k : BitVec 2) : State :=
  match s.self.arrivals[k.toNat]'k.isLt with
  | none => (s.sync 0).retire
  | some (g, _) => if g < s.barrierGen id k.toNat then (s.sync 0).barDone k else s.waitAlone (.barrier k.toNat g)

/-- BARB after its arrival, whose cut serves for its acquire too (R124): wait for the generation. -/
def State.barbWait (s : State) (id : Nat) (k : BitVec 2) : State :=
  match s.self.arrivals[k.toNat]'k.isLt with
  | none => s.retire
  | some (g, _) => if g < s.barrierGen id k.toNat then s.barDone k else s.waitAlone (.barrier k.toNat g)

/-- The generation of an outstanding arrival that an arrival must wait for (R209). -/
def State.barBefore (s : State) (id : Nat) (k : BitVec 2) : Option Nat :=
  match s.self.arrivals[k.toNat]'k.isLt with
  | some (g, _) => if g < s.barrierGen id k.toNat then none else some g
  | none => none

/-- BARA (R209). -/
def execBara (k : BitVec 2) (s : State) : Host.Outcome State Fault Refusal :=
  match s.self.launchTask with
  | none => .next (s.trap 0x01 0)
  | some (id, lcn, stage) =>
    match s.barBefore id k with
    | some g => .next (s.waitAlone (.barrier k.toNat g))
    | none => .next (s.arrive id lcn stage k false).retire

/-- BARW (R209). -/
def execBarw (k : BitVec 2) (s : State) : Host.Outcome State Fault Refusal :=
  match s.self.launchTask with
  | none => .next (s.trap 0x01 0)
  | some (id, _, _) => .next (s.barWait id k)

/-- The arrival that this BARB has made before a trap or a wait: its replay only waits (R210). -/
def State.barReplay (s : State) (k : BitVec 2) : Bool :=
  match s.self.arrivals[k.toNat]'k.isLt with
  | some (_, some w) => w == s.barSite
  | _ => false

/-- BARB (R209): arrive, then wait. One that is going to wait is a window of its own (R210), so earlier instructions complete first. -/
def execBarb (k : BitVec 2) (s : State) : Host.Outcome State Fault Refusal :=
  match s.self.launchTask with
  | none => .next (s.trap 0x01 0)
  | some (id, lcn, stage) =>
    if s.barReplay k then .next (s.barbWait id k)
    else
      match s.barBefore id k with
      | some g => .next (s.waitAlone (.barrier k.toNat g))
      | none =>
        let t := s.arrive id lcn stage k true
        if (t.barBefore id k).isNone then .next (t.barDone k)
        else
          match s.alone with
          | .error u => .next u
          | .ok u => .next ((u.arrive id lcn stage k true).barbWait id k)

end Sys2Proof.Machine
end

