-- ==== Sys2Proof/Machine/Queue.lean ====
section
/-! DEFINITION. The queue registers (R307 to R310), the timelines (R311, R312) and the event queue of a core (R313). -/
namespace Sys2Proof.Machine

/-! ### Bindings (R307, R310, R311) -/

/-- The context and generation that qk is bound to; none for q6 and q7. -/
def Core.bound (c : Core) (k : Nat) : Option (Nat × Nat) := if h : k < 6 then c.qbind[k] else none
/-- The result FIFO of qk. -/
def Core.fifo (c : Core) (k : Nat) : List U128 := if h : k < 6 then c.results[k] else []
def Core.setFifo (c : Core) (k : Nat) (l : List U128) : Core :=
  if h : k < 6 then { c with results := c.results.set k l } else c
def Core.setBound (c : Core) (k : Nat) (b : Option (Nat × Nat)) : Core :=
  if h : k < 6 then { c with qbind := c.qbind.set k b, bindNo := c.bindNo.set k (c.bindNo[k] + 1) } else c
/-- The number of the present binding of qk. -/
def Core.binding (c : Core) (k : Nat) : Nat := if h : k < 6 then c.bindNo[k] else 0

/-- A context is HELD by the issuing owner, or LENT to it, at a generation (R296). -/
def State.ctxCurrent (s : State) (ci gen : Nat) : Bool :=
  let e := s.entry (mkRes 6 ci)
  resValid (mkRes 6 ci) && s.uses s.self.owner (mkRes 6 ci) && (e.state == .held || e.state == .lent) && (s.ctx ci).gen == gen

/-- The binding of qk loses its result words, those waiting and those held back (R309). -/
def State.unbindQ (s : State) (core k : Nat) : State :=
  let c := s.core core
  let s1 := s.putCore ((c.setBound k none).setFifo k [])
  match c.bound k with
  | none => s1
  | some (ci, _) =>
    let x := s1.ctx ci
    (s1.putCtx { x with heldResults := x.heldResults.filter (fun h => !(h.1 == core && h.2.1 == k)) }).advanceAll ci

/-- The context of qk for a member that needs a current binding: queue where there is none, holding where it is stale. -/
def State.boundCtx (s : State) (k : Nat) : Run Nat :=
  match s.myCore.bound k with
  | none => .error (s.trap 0x0E 0)
  | some (ci, gen) => if s.ctxCurrent ci gen then .ok ci else .error (s.trap 0x0F 0)

/-! ### PUSH (R308) -/

/-- How a command code uses words 0 and 1: 0 an integer, 1 a capability, 2 an endpoint handle, 3 a capability when tagged. -/
def wordUse (code : Nat) : Nat × Nat :=
  match code with
  | 0x01 => (1, 1)
  | 0x02 => (1, 1)
  | 0x03 => (0, 1)
  | 0x10 => (1, 1)
  | 0x20 => (1, 1)
  | 0x21 => (1, 1)
  | 0x22 => (1, 1)
  | 0x23 => (1, 1)
  | 0x30 => (1, 2)
  | 0x31 => (0, 1)
  | 0x32 => (1, 2)
  | 0x33 => (2, 1)
  | 0x40 => (1, 3)
  | 0x50 => (1, 1)
  | _ => (0, 0)

/-- The check of one word of a block: the class of the first that fails. -/
def State.wordClass (s : State) (use : Nat) (c : Cap) : Option (BitVec 6) :=
  if use = 0 || (use = 3 && !c.tag) then none
  else if !c.tag then some 0x03
  else if c.isSealed && !(use == 2 && c.otype == 1) then some 0x06
  else if s.isRevoked c then some 0x16
  else if !c.holds .en then some 0x05
  else none

/-- A context accepts a block under the next number (R295, R308). -/
def State.accept (s : State) (ci : Nat) (w0 w1 w2 w3 : Cap) (via : Option (Nat × Nat × Nat)) (doomed : Option U16) :
    State :=
  let x := s.ctx ci
  s.putCtx { x with
    accepted := x.accepted + 1
    waiting := x.waiting ++ [{ number := x.accepted + 1, w0 := w0, w1 := w1, w2 := w2, w3 := w3, via := via
                               doomed := doomed }] }

/-- PUSH. -/
def execPush (d a : BitVec 5) (k : BitVec 3) (s : State) : Host.Outcome State Fault Refusal :=
  finish (do
    if 6 ≤ k.toNat then .error (s.trap 0x0E 0)
    match s.myCore.bound k.toNat with
    | none => .error (s.trap 0x0E 0)
    | some (ci, gen) =>
      if (s.ctx ci).gen ≠ gen then .error (s.trap 0x0F 0)
      let w0 := s.g a
      let w1 := s.g (a + 1)
      let w3 := s.g (a + 3)
      let use := wordUse (w3.bits.extractLsb' 0 8).toNat
      match s.wordClass use.1 w0, s.wordClass use.2 w1 with
      | some cls, _ => .error (s.capTrap a cls (.plain cls 0))
      | none, some cls => .error (s.capTrap (a + 1) cls (.plain cls 0))
      | none, none =>
        if 32 ≤ (s.ctx ci).waiting.length then .ok ((s.wr d 1).retire)
        else
          .ok ((((s.accept ci w0 w1 (s.g (a + 2)) w3 (some (s.self.core, k.toNat, s.myCore.binding k.toNat)) none).sync 2).wr d 0).retire))

/-! ### Stage queues and result words (R270, R309) -/

def State.stageq (s : State) (id : Nat) : Option StageQ := findBy StageQ.id id s.stageqs
def State.putStageq (s : State) (q : StageQ) : State := { s with stageqs := putBy StageQ.id q s.stageqs }

/-- The stage queue that the issuing slot's q6 or q7 is bound to. -/
def State.stageOf (s : State) (q : Option Nat) : Option StageQ := q.bind s.stageq

/-- MOVQ. -/
def execMovq (b : BitVec 5) (k : BitVec 3) (s : State) : Host.Outcome State Fault Refusal :=
  if k ≠ 7 then .next (s.trap 0x0E 0)
  else
    match s.stageOf s.self.q7 with
    | none => .next (s.trap 0x0E 0)
    | some q =>
      if 16 ≤ q.items.length then .next (s.wait (.stage false))
      else .next (((s.putStageq { q with items := q.items ++ [s.dropRevoked (s.g b)] }).sync 0).retire)

/-- A popped word makes room for one that a full FIFO held back, and its command completes (R309). -/
def State.fifoRoom (s : State) (core k ci : Nat) : State :=
  let x := s.ctx ci
  match x.heldResults.find? (fun h => h.1 == core && h.2.1 == k) with
  | none => s
  | some h =>
    let c := s.core core
    ((s.putCore (c.setFifo k (c.fifo k ++ [h.2.2.2]))).putCtx { x with heldResults := x.heldResults.erase h }).advanceAll ci

/-- A command of the binding with RES set that is accepted and not complete. -/
def Ctx.owesResult (x : Ctx) (core k n : Nat) : Bool :=
  (x.waiting ++ x.active ++ x.parked.map ParkedCmd.cmd).any (fun c => c.via == some (core, k, n) && c.flagRES)

/-- QPOP. -/
def execQpop (d : BitVec 5) (k : BitVec 3) (s : State) : Host.Outcome State Fault Refusal :=
  if k = 7 then .next (s.trap 0x0E 0)
  else if k = 6 then
    match s.stageOf s.self.q6 with
    | none => .next (s.trap 0x0E 0)
    | some q =>
      match q.items with
      | c :: rest => .next ((((s.putStageq { q with items := rest }).setG d c).sync 0).retire)
      | [] => if q.producerEnded then .next (s.trap 0x0E 0) else .next (s.wait (.stage true))
  else
    match s.myCore.bound k.toNat with
    | none => .next (s.trap 0x0E 0)
    | some (ci, _) =>
      match s.myCore.fifo k.toNat with
      | w :: rest =>
        .next ((((s.putCore (s.myCore.setFifo k.toNat rest)).setG d { bits := w, tag := false }).fifoRoom
          s.self.core k.toNat ci).retire)
      | [] =>
        if (s.ctx ci).owesResult s.self.core k.toNat (s.myCore.binding k.toNat) then .next (s.wait (.result k.toNat)) else .next (s.trap 0x0E 0)

/-- QSTAT. -/
def execQstat (d : BitVec 5) (k : BitVec 3) (s : State) : Host.Outcome State Fault Refusal :=
  let items (q : Option Nat) : Nat := ((s.stageOf q).map (fun x => x.items.length)).getD 0
  if k = 6 then s.put d (BitVec.ofNat 64 (items s.self.q6))
  else if k = 7 then s.put d (if (s.stageOf s.self.q7).isSome then BitVec.ofNat 64 (16 - items s.self.q7) else 0)
  else
    match s.myCore.bound k.toNat with
    | none => s.put d 0
    | some (ci, _) =>
      s.put d (0#17 ++ BitVec.ofNat 15 ci ++ 0#12 ++ BitVec.ofNat 3 (ctxKind ci) ++ 1#1
        ++ BitVec.ofNat 8 (s.myCore.fifo k.toNat).length ++ BitVec.ofNat 8 (32 - (s.ctx ci).waiting.length))

/-- BINDQ. -/
def execBindq (a : BitVec 5) (k : BitVec 3) (s : State) : Host.Outcome State Fault Refusal :=
  finish (do
    if 6 ≤ k.toNat then .error (s.trap 0x0E 0)
    if a = 0 then .ok ((s.unbindQ s.self.core k.toNat).retire)
    else
      let h := s.g a
      if !h.tag then .error (s.trap 0x03 0)
      if h.otype != 4 then .error (s.trap 0x06 0)
      if s.isRevoked h then .error (s.capTrap a 0x16 (.plain 0x16 0))
      if !s.ctxCurrent (handleCtx h) (handleGen h) then .error (s.trap 0x0F 0)
      let t := s.unbindQ s.self.core k.toNat
      .ok ((t.putCore (t.myCore.setBound k.toNat (some (handleCtx h, handleGen h)))).retire))

/-! ### Timelines (R312) -/

/-- TLWAIT. -/
def execTlwait (b : BitVec 5) (k : BitVec 4) (s : State) : Host.Outcome State Fault Refusal :=
  finish (do
    let ci ← s.boundCtx k.toNat
    if (s.x b).toNat ≤ (s.ctx ci).counter then .ok ((s.sync 2).retire)
    else .ok (s.wait (.timeline ci (s.x b).toNat)))

/-- TLTEST. -/
def execTltest (d b : BitVec 5) (k : BitVec 4) (s : State) : Host.Outcome State Fault Refusal :=
  finish (do
    let ci ← s.boundCtx k.toNat
    if (s.x b).toNat ≤ (s.ctx ci).counter then .ok (((s.sync 2).wr d 1).retire)
    else .ok ((s.wr d 0).retire))

/-- TLREAD. -/
def execTlread (d : BitVec 5) (k : BitVec 4) (s : State) : Host.Outcome State Fault Refusal :=
  finish (do
    let ci ← s.boundCtx k.toNat
    .ok ((s.setG d { bits := BitVec.ofNat 64 (s.ctx ci).accepted ++ BitVec.ofNat 64 (s.ctx ci).counter, tag := false }).retire))

/-! ### Events (R313) -/

/-- The issuing owner holds or has borrowed its core's event queue. -/
def State.hasEvents (s : State) : Run Unit :=
  if s.uses s.self.owner (mkRes 10 s.self.core) then .ok () else .error (s.trap 0x0F 0)

/-- Bytes 0 to 15 and 16 to 31 of a record. -/
def evLow (r : EvRec) : Cap := { bits := r.number ++ r.source ++ r.status ++ r.kind, tag := false }
def evHigh (r : EvRec) : Cap := { bits := r.d1 ++ r.d0, tag := false }

/-- Pop the head record into gd and g(d + 1); zeros where the queue is empty. -/
def State.popEvent (s : State) (d : BitVec 5) : State :=
  match s.myCore.events with
  | [] => (s.wr d 0).wr (d + 1) 0
  | r :: rest => ((s.putCore { s.myCore with events := rest }).setG d (evLow r)).setG (d + 1) (evHigh r)

/-- EVPOP. -/
def execEvpop (d : BitVec 5) (s : State) : Host.Outcome State Fault Refusal :=
  finish (do
    s.hasEvents
    .ok ((s.popEvent d).retire))

/-- The cycle at which a park of `n` cycles ends; 0 sets no limit. -/
def State.limitFrom (s : State) (n : U64) : Option Nat :=
  let k := n.toNat % 2 ^ 32
  if k = 0 then none else some (s.cycle + k)

/-- EVWAIT. -/
def execEvwait (d a : BitVec 5) (s : State) : Host.Outcome State Fault Refusal :=
  finish (do
    s.hasEvents
    let limit := match s.self.park with
      | .event _ l => l
      | _ => s.limitFrom (s.x a)
    if !s.myCore.events.isEmpty || s.past limit then .ok ((s.popEvent d).retire)
    else .ok (s.wait (.event d limit)))

/-- EVTRY. -/
def execEvtry (d : BitVec 5) (s : State) : Host.Outcome State Fault Refusal :=
  finish (do
    s.hasEvents
    let head : U32 := match s.myCore.events with
      | [] => 0
      | r :: _ => r.status ++ r.kind
    .ok ((s.wr d (0#16 ++ head ++ 0#9 ++ BitVec.ofNat 7 s.myCore.events.length)).retire))

/-- An EVWAIT whose cycles have passed ends (R313). -/
def State.evwaitEnds (s : State) (core idx : Nat) : State :=
  let t := s.switchTo core idx
  match t.self.park with
  | .event d limit => if t.past limit then (t.popEvent d).retire else s
  | _ => s

def execEvwaitCycleLimit (core slot : Nat) (s : State) : Host.Outcome State Fault Refusal := .next (s.evwaitEnds core slot)

/-- A held record enters the queue when an entry is free, and a command it belongs to may now count (R312, R313). -/
def State.postHeld (s : State) (core : Nat) : State :=
  let c := s.core core
  match c.held with
  | [] => s
  | r :: rest =>
    if 64 ≤ c.events.length then s
    else
      let t := (s.putCore { c with held := rest }).enterEvent core r
      if r.source.extractLsb' 30 2 = 1 then t.advanceAll (r.source.extractLsb' 0 15).toNat else t

def execEventRecordPost (core : Nat) (s : State) : Host.Outcome State Fault Refusal := .next (s.postHeld core)

end Sys2Proof.Machine
end

