-- ==== Sys2Proof/Machine/Swatch.lean ====
section
/-! DEFINITION. Swatch regions: names, counts, releases, walks (R92 to R109), the SWT group (R345, R346), the release commands
(R102) and the swatch count handler (R103). -/
namespace Sys2Proof.Machine

/-! ### Regions (R92, R93) -/

def Region.indexLines (r : Region) : Nat := 910 * r.n
def Region.dataLines (r : Region) : Nat := 7280 * r.n
/-- Data lines not in use. -/
def Region.freeCount (r : Region) : Nat := r.dataLines - r.used.length

def State.region (s : State) (seg : Nat) : Option Region := findBy Region.seg seg s.regions
def State.putRegion (s : State) (r : Region) : State := { s with regions := putBy Region.seg r s.regions }
/-- The region that begins at an address. -/
def State.regionAt (s : State) (a : Nat) : Option Region := s.regions.find? (fun r => decide (segBase r.seg = a))
/-- The owner that may use a region. -/
def State.regionOwner (s : State) (r : Region) : U16 := s.userOf (mkRes 5 r.seg)

/-- The address of a line of a region; the line of a data line. -/
def Region.addr (r : Region) (line : Nat) : Nat := segBase r.seg + 256 * line
def Region.dataLine (r : Region) (l : Nat) : Nat := r.indexLines + 1 + l

/-! ### Lines (R80, R83, R93 to R95) -/

/-- What an operation of a swatch unit ends with: a value; a refusal with its status and detail (R100); a trap of class swatch
with its detail; a line that is lost or fails its MAC; a number that is still to come (R109). -/
inductive SwEnd where
  | value (v : U128)
  | refuse (status detail : Nat)
  | swatch (detail : Nat)
  | lost (addr : Nat)
  | integrity (addr : Nat)
  | held
deriving DecidableEq, Repr

/-- The 256 bytes of the line at an address in clear, as a number. -/
def State.lineNum (s : State) (a : Nat) : Nat :=
  match s.phys a with
  | none => 0
  | some p =>
    match s.sealKey a with
    | none => (Memory.part s.mem p (p + 256)).foldl (fun n c => n + c.2.toNat * 256 ^ (c.1 - p)) 0
    | some k => ofBytesLE (s.plainLine k a (p / 256))

/-- What stops a swatch unit that reads a line that is present. -/
def State.lineBad (s : State) (a : Nat) : Option SwEnd :=
  if s.isPoisoned a then some (.lost a) else if !s.macOk a then some (.integrity a) else none
/-- What stops one that needs some lines: first an absent page. -/
def State.linesBad (s : State) (l : List Nat) : Option SwEnd :=
  if l.any s.isAbsent then some (.swatch 5) else l.findSome? s.lineBad

/-- A swatch unit writes bytes within a line. Its whole line takes a line's poison away (R80). -/
def State.unitWrite (s : State) (a : Nat) (l : List U8) : State :=
  match s.phys a with
  | none => s
  | some p =>
    let x : Acc :=
      { agent := .handler (s.dieAt a) s.devnum 0 0, owner := 0, addr := a, size := l.length, write := true, read := false, atomic := false
        fetch := false }
    let t := (s.keepOld x (a / 256)).soil a
    let u := { t with
      tags := setClear t.tags (p / 16) ((p + l.length + 15) / 16)
      poison := if l.length = 256 then t.poison.filter (· != p / 256) else t.poison }
    match u.sealKey a with
    | none => { u with mem := Memory.writeList u.mem p l }
    | some k => u.sealLine k a (p / 256) (spliceList (u.plainLine k a (p / 256)) (a % 256) l)

/-- An index entry as it is stored, in a state: 1 live, 2 freed (R95). -/
def SwEntry.bits (e : SwEntry) (state : BitVec 2) : BitVec 256 :=
  e.name ++ e.count ++ BitVec.ofNat 32 e.line ++ state ++ (if e.node then 2#2 else 1#2) ++ 0#60
/-- The live entry that 32 bytes describe. -/
def liveEntry (pos : Nat) (b : BitVec 256) : Option SwEntry :=
  if b.extractLsb' 62 2 = 1 then
    some { pos := pos, name := b.extractLsb' 128 128, count := b.extractLsb' 96 32, line := (b.extractLsb' 64 32).toNat
           node := b.extractLsb' 60 2 == 2 }
  else none

/-- The live entries of an index line, counted from the first. -/
def State.indexLine (s : State) (r : Region) (k : Nat) : List SwEntry :=
  let n := s.lineNum (r.addr (1 + k))
  if n = 0 then [] else (List.range 8).filterMap (fun j => liveEntry (8 * k + j) (BitVec.ofNat 256 (n / 2 ^ (256 * j))))

/-- An index entry is written. -/
def State.putSw (s : State) (r : Region) (e : SwEntry) (state : BitVec 2) : State :=
  s.unitWrite (r.addr (1 + e.pos / 8) + 32 * (e.pos % 8)) (bytesLE 32 (e.bits state).toNat)

/-- The content of a data line. -/
def State.content (s : State) (r : Region) (l : Nat) : BitVec 2048 := BitVec.ofNat 2048 (s.lineNum (r.addr (r.dataLine l)))

/-- What the header line says (R94): its last 224 bytes are zero. -/
def Region.header (r : Region) : List U8 :=
  bytesLE 2 r.saltOwner.toNat ++ bytesLE 2 r.n ++ bytesLE 4 r.dataLines ++ bytesLE 4 r.live ++ bytesLE 4 r.freeCount
    ++ bytesLE 8 r.relCtx.toNat ++ bytesLE 8 r.lastRel.toNat
/-- A region changes, and its header line with it. -/
def State.putHead (s : State) (r : Region) : State := (s.putRegion r).unitWrite (segBase r.seg) r.header

/-! ### Names (R97) -/

/-- The hash of content, as the 128-bit name with collision index 0. -/
def Region.hash (r : Region) (c : BitVec 2048) (node : Bool) : U128 :=
  let h := sha512 (bytesBE 32 (Config.salt r.salt).toNat ++ [if node then 2#8 else 1#8] ++ bytesLE 256 c.toNat)
  BitVec.ofNat 128 (ofBytesBE (h.take 15) * 256)

/-- Content whose hash begins with 56 zero bits has no name. -/
def unnameable (h : U128) : Bool := h.extractLsb' 72 56 == 0
def sameHash (a b : U128) : Bool := a.extractLsb' 8 120 == b.extractLsb' 8 120

/-- The first index line of a hash (R99). -/
def Region.firstLine (r : Region) (h : U128) : Nat := (h.extractLsb' 96 32).toNat % r.indexLines
/-- The k-th index line of the probe window of a hash. -/
def Region.windowLine (r : Region) (h : U128) (k : Nat) : Nat := (r.firstLine h + k) % r.indexLines
/-- The live entries of the window, in order. -/
def State.window (s : State) (r : Region) (h : U128) : List SwEntry := (List.range 64).flatMap (fun k => s.indexLine r (r.windowLine h k))
/-- The live entry of a name: it lies in the window of its hash. -/
def State.liveIn (s : State) (r : Region) (name : U128) : Option SwEntry := (s.window r name).find? (fun e => e.name == name)

/-- Child j of a node's content. -/
def child (c : BitVec 2048) (j : Nat) : U128 := c.extractLsb' (128 * j) 128
def children (c : BitVec 2048) : List U128 := (List.range 16).map (child c)

/-- What stops a look-up by hash: it needs the header and the window, and their pages (log 102). -/
def State.windowBad (s : State) (r : Region) (h : U128) : Option SwEnd :=
  s.linesBad (r.addr 0 :: (List.range 64).map (fun k => r.addr (1 + r.windowLine h k)))

/-- What stops an operation on a name: a look-up, or an absent page of the swatch's data line. -/
def State.nameBad (s : State) (r : Region) (name : U128) : Option SwEnd :=
  match s.windowBad r name with
  | some e => some e
  | none =>
    match s.liveIn r name with
    | some e => if s.isAbsent (r.addr (r.dataLine e.line)) then some (.swatch 5) else none
    | none => none

/-! ### Counts (R101) -/

def pinned : U32 := 0xFFFFFFFF#32

/-- Add 1 unless the count is pinned. -/
def State.addRef (s : State) (r : Region) (name : U128) : State :=
  match s.liveIn r name with
  | some e => if e.count = pinned then s else s.putSw r { e with count := e.count + 1 } 1
  | none => s

/-- A status as a 128-bit result. -/
def swStatus (status detail : Nat) : U128 := BitVec.ofNat 128 (status + detail % 2 ^ 32 * 2 ^ 32)

/-! ### SWNAME (R99) -/

/-- The data line that the n-th allocation takes: of the lines not in use, the one of a given rank. -/
def Region.pickLine (r : Region) (rank : Nat) : Nat := r.used.foldl (fun l x => if x ≤ l then l + 1 else l) rank

/-- The lowest collision index that no live entry of a window with the hash holds. -/
def collision (w : List SwEntry) (h : U128) : Option Nat :=
  (List.range 256).find? (fun x => !w.any (fun e => e.name == h ||| BitVec.ofNat 128 x))
/-- The first position of the window without a live entry. -/
def Region.place (r : Region) (w : List SwEntry) (h : U128) : Option Nat :=
  ((List.range 512).map (fun k => 8 * r.windowLine h (k / 8) + k % 8)).find? (fun p => !w.any (fun e => e.pos == p))

/-- A child that a node may not name: the first that is not live, or whose look-up is stopped. -/
def State.badChild (s : State) (r : Region) (c : BitVec 2048) : Option SwEnd :=
  (List.range 16).findSome? (fun j =>
    let n := child c j
    if n = 0 then none
    else
      match s.windowBad r n with
      | some e => some e
      | none => if (s.liveIn r n).isNone then some (.refuse 1 j) else none)

/-- Name content in a region. -/
def State.swname (s : State) (r : Region) (c : BitVec 2048) (node : Bool) : State × SwEnd :=
  let h := r.hash c node
  if unnameable h then (s, .swatch 1)
  else
    match s.windowBad r h with
    | some e => (s, e)
    | none =>
      let w := s.window r h
      let m := w.filter (fun e => sameHash e.name h && e.node == node)
      if m.any (fun e => s.isAbsent (r.addr (r.dataLine e.line))) then (s, .swatch 5)
      else
        match m.find? (fun e => s.content r e.line == c) with
        | some e =>
          match s.lineBad (r.addr (r.dataLine e.line)) with
          | some b => (s, b)
          | none => (s.addRef r e.name, .value e.name)
        | none =>
          match (if node then s.badChild r c else none) with
          | some b => (s, b)
          | none =>
            match collision w h, r.place w h with
            | none, _ => (s, .swatch 1)
            | _, none => (s, .swatch 2)
            | some x, some p =>
              if r.freeCount = 0 then (s, .swatch 2)
              else
                let l := r.pickLine (Config.freeLine s.free % r.freeCount)
                let a := r.addr (r.dataLine l)
                if s.isAbsent a then (s.drawn, .swatch 5)
                else
                  let name := h ||| BitVec.ofNat 128 x
                  let t := s.drawn.unitWrite a (bytesLE 256 c.toNat)
                  let u := if node then ((children c).filter (· != 0)).foldl (fun u n => u.addRef r n) t else t
                  ((u.putSw r { pos := p, name := name, count := 1, line := l, node := node } 1).putHead
                    { r with used := setAdd r.used l, live := r.live + 1 }, .value name)

/-! ### Releases (R102, R109) -/

/-- The context that counts a region's releases. -/
def Region.ctxIndex (r : Region) : Nat := resIndex r.relCtx

/-- A release command enters the context: its number. The code is 0x51, EV and RES clear, the event target none, so that its
records go to the notice queue. -/
def State.enterRelease (s : State) (r : Region) (h : HeldRelease) : State × Nat :=
  let ci := r.ctxIndex
  let n := (s.ctx ci).accepted + 1
  let t := s.accept ci .zero .zero .zero { bits := 0xFFFF0051#128, tag := false } none none
  ({ (t.putHead { r with lastRel := BitVec.ofNat 64 n }) with
      releases := t.releases ++ [{ ctx := ci, number := n, region := r.seg, children := h.children, lost := h.lost
                                   ran := false, status := 0, waits := [] }] }, n)

/-- Place a release command, or hold it while the context is full. -/
def State.placeRelease (s : State) (r : Region) (h : HeldRelease) : State × Option Nat :=
  if (s.ctx r.ctxIndex).waiting.length < 32 then
    let x := s.enterRelease r h
    (x.1, some x.2)
  else (s.putRegion { r with heldReleases := r.heldReleases ++ [h] }, none)

/-- What a SWREL did: its status, and for a freed node its release number, or that the number is still to come. -/
structure Dropped where
  status : Nat
  number : Option Nat
  held : Bool
deriving DecidableEq, Repr

/-- Nobody waits for the number. -/
def HeldRelease.quiet : HeldRelease := { children := [], lost := false, txn := none, device := none, parent := none }

/-- SWREF of a name. -/
def State.swref (s : State) (r : Region) (name : U128) : State × Nat :=
  match s.liveIn r name with
  | none => (s, 1)
  | some e => if e.count = pinned then (s, 2) else (s.addRef r name, 0)

/-- SWREL of a name (R101, R102); `who` waits for the number of the release command. A freed entry keeps its name. -/
def State.swrel (s : State) (r : Region) (name : U128) (who : HeldRelease) : State × Dropped :=
  match s.liveIn r name with
  | none => (s, { status := 1, number := none, held := false })
  | some e =>
    if e.count = pinned then (s, { status := 2, number := none, held := false })
    else if e.count ≠ 1 then (s.putSw r { e with count := e.count - 1 } 1, { status := 0, number := none, held := false })
    else
      let a := r.addr (r.dataLine e.line)
      let c := s.content r e.line
      let bad := (s.lineBad a).isSome
      let r1 := { r with used := r.used.filter (· != e.line), live := r.live - 1 }
      let s1 := ((s.putSw r { e with count := 0 } 2).unitWrite a (List.replicate 256 0#8)).putHead r1
      if e.node then
        let p := s1.placeRelease r1 { who with children := if bad then [] else children c, lost := bad }
        (p.1, { status := 3, number := p.2, held := p.2.isNone })
      else (s1, { status := 3, number := none, held := false })

/-- The status of a command that a region's lines stop: an absent page, a lost line, a MAC that fails (R102, R108). -/
def SwEnd.status (e : SwEnd) : Nat :=
  match e with
  | .lost _ => 0x0D
  | .integrity _ => 0x0C
  | _ => 6

/-- Drop the children of a release command in order: the state, the numbers caused, and the status. -/
def State.dropChildren (s : State) (seg number : Nat) (waits : List Nat) : List U128 → State × List Nat × Nat
  | [] => (s, waits, 0)
  | n :: l =>
    if n = 0 then s.dropChildren seg number waits l
    else
      match s.region seg with
      | none => (s, waits, 0)
      | some r =>
        match s.nameBad r n with
        | some e => (s, waits, e.status)
        | none =>
          let x := s.swrel r n { HeldRelease.quiet with parent := some number }
          x.1.dropChildren seg number (waits ++ x.2.number.toList) l

/-- A release command that has run and whose own release commands are complete. -/
def State.releaseReady (s : State) (x : Release) : Bool :=
  x.ran && x.waits.all (fun n => !s.releases.any (fun y => y.ctx == x.ctx && y.number == n))
    && !(s.regions.any (fun r => r.heldReleases.any (fun h => h.parent == some x.number) && r.seg == x.region))

/-- Whether it is this command. -/
def Release.is (x : Release) (ci n : Nat) : Bool := x.ctx == ci && x.number == n

/-- A release command completes; the details of its record are not stated. -/
def State.finishRelease (s : State) (x : Release) : State :=
  match (s.ctx x.ctx).active.find? (fun c => c.number == x.number) with
  | none => { s with releases := s.releases.filter (fun y => !y.is x.ctx x.number) }
  | some c =>
    let owner := match s.region x.region with
      | some r => s.regionOwner r
      | none => s.userOf (mkRes 6 x.ctx)
    ({ s with releases := s.releases.filter (fun y => !y.is x.ctx x.number) }).complete owner x.ctx c x.status none none

/-- Complete the release commands that can, at most `k`. -/
def State.settleReleases (s : State) : Nat → State
  | 0 => s
  | k + 1 =>
    match s.releases.find? s.releaseReady with
    | none => s
    | some x => (s.finishRelease x).settleReleases k

/-- The commands of a context that are in progress. A release command that has run and only waits for those it caused is not counted
among them, as a parked command is not: else nested releases could wait for each other for ever (R102, R297; log 97). -/
def State.inProgress (s : State) (c : Ctx) : List Cmd :=
  c.active.filter (fun x => !s.releases.any (fun r => r.is c.idx x.number && r.ran))
/-- A context whose next command may start: fewer than 8 of its commands are in progress (R297). -/
def State.mayStart (s : State) (c : Ctx) : Bool := !c.waiting.isEmpty && decide ((s.inProgress c).length < 8)
/-- Priority of a context's next command. -/
def Ctx.nextPriority (c : Ctx) : Nat := ((c.waiting.head?).map Cmd.priority).getD 0

def engineOf (ci : Nat) : Nat := ci / 1024
/-- The context that an engine last started a command for. -/
def State.lastOf (s : State) (e : Nat) : Nat :=
  match findBy (fun x : Nat × Nat => x.1) e s.engines with
  | some x => x.2
  | none => e * 1024 + 1023

/-- The context that an engine serves next: of those that may start a command, the highest priority, round robin (R297). -/
def State.served (s : State) (e : Nat) : Option Nat :=
  let l := s.ctxs.filter (fun c => engineOf c.idx == e && s.mayStart c)
  let best := l.foldl (fun n c => max n c.nextPriority) 0
  let l1 := l.filter (fun c => c.nextPriority == best)
  match l1.find? (fun c => decide (s.lastOf e < c.idx)) with
  | some c => some c.idx
  | none => (l1.head?).map Ctx.idx

/-- The command of a context that its engine starts next, if the context's turn it is (R297). -/
def State.startable (s : State) (ci : Nat) : Option Cmd :=
  if s.served (engineOf ci) = some ci then (s.ctx ci).waiting.head? else none

/-- A command starts. -/
def State.startCmd (s : State) (ci : Nat) (c : Cmd) : State :=
  let x := s.ctx ci
  { (s.putCtx { x with waiting := x.waiting.filter (fun y => y.number != c.number), active := x.active ++ [c] }) with
    engines := putBy (fun x : Nat × Nat => x.1) (engineOf ci, ci) s.engines }

/-- RELEASE_COMMAND: the next command of a context, if it is one (R102). -/
def State.runRelease (s : State) (ci : Nat) : State :=
  match s.startable ci with
  | none => s
  | some c =>
    if c.code ≠ 0x51 then s
    else
      match s.releases.find? (fun x => x.is ci c.number) with
      | none => s
      | some x =>
        let s1 := s.startCmd ci c
        let r := if x.lost then (s1, [], 0x0D) else s1.dropChildren x.region x.number [] x.children
        let t := { r.1 with
          releases := r.1.releases.map (fun (y : Release) =>
            if y.is ci c.number then { y with ran := true, status := r.2.2, waits := r.2.1 } else y) }
        t.settleReleases t.releases.length

def execReleaseCommand (ctx : Nat) (s : State) : Host.Outcome State Fault Refusal := .next (s.runRelease ctx)

/-- The answer to a slot's request. -/
def okReply (txn : Nat) (v : U128) : Reply :=
  { txn := txn, status := 0, value := { bits := v, tag := false }, w4 := .zero, w5 := .zero, w6 := .zero, w7 := .zero
    detail := 0 }

/-- The result of a SWREL that freed a node (R345). -/
def freedWord (number : Nat) : U128 := BitVec.ofNat 64 number ++ BitVec.ofNat 32 number ++ 3#32

/-- A reply for the slot that sent a request. -/
def State.deliverReply (s : State) (r : Reply) : State :=
  let f (x : Slot) : Slot :=
    if x.sent.contains r.txn && !x.replies.any (fun y => y.txn == r.txn) then { x with replies := x.replies ++ [r] } else x
  { s with
    self := f s.self
    others := s.others.map f
    owners := s.owners.map (fun o => { o with images := o.images.map (fun i => { i with slot := f i.slot }) }) }

/-- A held release command enters its context when it has room, and who waits for its number hears of it (R109). -/
def State.releaseEnters (s : State) (seg : Nat) : State :=
  match s.region seg with
  | none => s
  | some r =>
    match r.heldReleases with
    | [] => s
    | h :: rest =>
      if 32 ≤ (s.ctx r.ctxIndex).waiting.length then s
      else
        let x := s.enterRelease { r with heldReleases := rest } h
        let s1 := match h.txn with
          | some t => x.1.deliverReply (okReply t (freedWord x.2))
          | none => x.1
        let s2 := match h.device with
          | some (d, t) => { s1 with out := s1.out ++ [.reply d (okReply t (freedWord x.2))] }
          | none => s1
        match h.parent with
        | some p =>
          { s2 with
            releases := s2.releases.map (fun y => if y.is r.ctxIndex p then { y with waits := y.waits ++ [x.2] } else y) }
        | none => s2

def execReleaseCommandPlacement (region : Nat) (s : State) : Host.Outcome State Fault Refusal := .next (s.releaseEnters region)

/-! ### Discarding a region (R109) -/

/-- The release commands of a region end RECLAIMED, one after another. -/
def State.dropReleases (s : State) (l : List Release) : State :=
  l.foldl (fun t x =>
    let c := t.ctx x.ctx
    match (c.waiting ++ c.active).find? (fun y => y.number == x.number) with
    | none => t
    | some y => t.complete (t.userOf (mkRes 6 x.ctx)) x.ctx y 0x0B none none) s

/-- A SWREL that came before the discard of its region has freed its node, and answers so, though its release command was held; it gets no
number (R109, R350; log 102). -/
def State.dropHeld (s : State) (l : List HeldRelease) : State :=
  l.foldl (fun t h =>
    let freed (n : Nat) : Reply := okReply n (freedWord 0)
    let t1 := match h.txn with
      | some n => t.deliverReply (freed n)
      | none => t
    match h.device with
    | some (d, n) => { t1 with out := t1.out ++ [.reply d (freed n)] }
    | none => t1) s

/-- The bytes of a segment from one line to another become zero, page by page where a page is present, and in the lines that a cache has
kept of a page that has moved. -/
def State.zeroLines (s : State) (base lo hi : Nat) : State :=
  let pages := (List.range (2 ^ 21 / 2 ^ 14)).foldl (fun t i =>
    let a := max (base + i * 2 ^ 14) lo
    let b := min (base + (i + 1) * 2 ^ 14) hi
    if b ≤ a then t
    else
      match t.transAt a with
      | none => t
      | some x => if x.present then t.zeroPhys (x.phys a) (b - a) else t) s
  (s.kept.filter (fun k => decide (max base lo ≤ k.line * 256) && decide (k.line * 256 < min (base + 2 ^ 21) hi))).foldl
    (fun t k => t.zeroPhys (keptBase + k.line * 256) 256) pages

/-- Discard a region: its names denote nothing, its index and data lines are zeroed, its segments are plain again. -/
def State.discardRegion (s : State) (r : Region) : State :=
  let s1 := { s with
    regions := dropBy Region.seg r.seg s.regions
    rights := s.rights.map (fun (e : Rights) =>
      if !e.frame && decide (r.seg ≤ e.index) && decide (e.index < r.seg + r.n) then { e with named := false } else e) }
  let base := segBase r.seg
  let s2 := (List.range r.n).foldl (fun t i =>
    t.zeroLines (segBase (r.seg + i)) (base + 256) (base + 256 * (8190 * r.n + 1))) s1
  let mine := s2.releases.filter (fun (x : Release) => x.region == r.seg)
  (({ s2 with releases := s2.releases.filter (fun (x : Release) => x.region != r.seg) }).dropReleases mine).dropHeld r.heldReleases

/-- The region that a segment belongs to is discarded. -/
def State.discardAt (s : State) (seg : Nat) : State :=
  match s.regions.find? (fun r => decide (r.seg ≤ seg) && decide (seg < r.seg + r.n)) with
  | some r => s.discardRegion r
  | none => s

/-! ### The SWT group (R345, R346) -/

/-- The region of a capability for an owner: the class and detail of the check that fails (R96). -/
def State.findRegion (s : State) (c : Cap) (owner : U16) (write : Bool) : Except (BitVec 6 × Nat) Region :=
  match s.regionAt (s.localAddr c.addr.toNat) with
  | none => .error (0x10, 3)
  | some r =>
    if !c.inBounds c.addr.toNat 256 then .error (0x10, 3)
    else
      match s.rightsOn owner false r.seg with
      | some e => if e.r && (!write || e.w) then .ok r else .error (0x07, c.addr.toNat)
      | none => .error (0x07, c.addr.toNat)

/-- Steps 1 to 4 of R19 on a region capability. -/
def State.regionCap (s : State) (a : BitVec 5) : Run Unit :=
  match s.capClass (s.g a) .sw with
  | some k => .error (s.capTrap a k (.plain k (s.x a)))
  | none => .ok ()

/-- The region of ga for a member that acts on local regions only. -/
def State.localRegion (s : State) (a : BitVec 5) (write : Bool) : Run Region := do
  s.regionCap a
  if isFabric (s.x a) then .error (s.trap 0x10 4)
  match s.findRegion (s.g a) s.self.owner write with
  | .ok r => .ok r
  | .error (k, d) => .error (s.trap k (BitVec.ofNat 64 d))

/-- A status, or the 128 bits a member answers. -/
def State.swDone (s : State) (d : BitVec 5) (v : U128) : State := (s.setG d { bits := v, tag := false }).retire

/-- The end of a swatch operation; data lost and integrity name the region capability's address, in their records the line (R315). -/
def State.swFail (s : State) (cursor : U64) (d : BitVec 5) (e : SwEnd) : State :=
  match e with
  | .value v => s.swDone d v
  | .refuse st k => s.swDone d (swStatus st k)
  | .swatch k => s.trap 0x10 (BitVec.ofNat 64 k)
  | .lost a => s.accStop (.dataLost a) cursor 0 [s.acc a 256 true false false]
  | .integrity a => s.accStop (.integrity a) cursor 0 [s.acc a 256 true false false]
  | .held => s

/-- SWREAD of a name: the two v registers' content, and the status. -/
def State.swread (s : State) (r : Region) (name : U128) : Option (BitVec 2048) × SwEnd :=
  match s.nameBad r name with
  | some e => (none, e)
  | none =>
    match s.liveIn r name with
    | none => (some 0, .refuse 1 0)
    | some e =>
      match s.lineBad (r.addr (r.dataLine e.line)) with
      | some b => (none, b)
      | none => (some (s.content r e.line), .value (swStatus 0 (if e.node then 2 else 1)))

/-- A swatch's 256 bytes in two v registers. -/
def State.setPair (s : State) (v : BitVec 5) (c : Option (BitVec 2048)) : State :=
  match c with
  | some c => (s.setV v (c.extractLsb' 0 1024)).setV (v + 1) (c.extractLsb' 1024 1024)
  | none => s

/-- A walk from a name at level `i`, with `k` steps to take (R104). -/
def State.walk (s : State) (r : Region) (path : U64) (name : U128) (i : Nat) : Nat → SwEnd
  | 0 =>
    match s.nameBad r name with
    | some e => e
    | none => if (s.liveIn r name).isSome then .value name else .refuse 1 i
  | k + 1 =>
    match s.nameBad r name with
    | some e => e
    | none =>
      match s.liveIn r name with
      | none => .refuse 1 i
      | some e =>
        match s.lineBad (r.addr (r.dataLine e.line)) with
        | some b => b
        | none =>
          if !e.node then .refuse 5 i
          else
            let next := child (s.content r e.line) (path.extractLsb' (4 * i + 4) 4).toNat
            if next = 0 then .refuse 4 i else s.walk r path next (i + 1) k

/-- What a count on a name answers here; `held` where the number is still to come. -/
def State.countHere (s : State) (r : Region) (rel : Bool) (name : U128) (who : HeldRelease) : State × SwEnd :=
  match s.nameBad r name with
  | some e => (s, e)
  | none =>
    if rel then
      let x := s.swrel r name who
      if x.2.held then (x.1, .held)
      else
        match x.2.number with
        | some n => (x.1, .value (freedWord n))
        | none => (x.1, .value (swStatus x.2.status 0))
    else
      let x := s.swref r name
      (x.1, .value (swStatus x.2 0))

/-! ### The order of a window's swatch instructions (R353) -/

/-- The instruction is complete; its request reaches the unit later. -/
def State.swPut (s : State) (q : SwLater) : State :=
  (s.setSelf (fun x => { x with swLater := x.swLater ++ [q], swDefer := false })).retire

/-- A request reaches its region's unit: the state, what it ends with, and the content that SWREAD brings. -/
def State.swReach (s : State) (q : SwLater) : State × SwEnd × Option (BitVec 2048) :=
  match s.region q.seg with
  | none => (s, .swatch 3, none)
  | some r =>
    match q.member with
    | 0 => let x := s.swname r q.content q.node; (x.1, x.2, none)
    | 2 => let x := s.swread r q.name; (s, x.2, x.1)
    | 3 => let x := s.countHere r false q.name HeldRelease.quiet; (x.1, x.2, none)
    | 4 => let x := s.countHere r true q.name HeldRelease.quiet; (x.1, x.2, none)
    | _ => (s, s.walk r q.path q.name 0 (q.path.extractLsb' 0 4).toNat, none)

/-- The requests that are still on their way when one traps are made again by the replay. -/
def State.swRedo (s : State) : State :=
  s.setSelf (fun x => { x with
    swLater := [], winDone := x.swLater.foldl (fun m q => m &&& ~~~(doneBit x.winStart q.pc)) x.winDone })

/-- The first request on its way arrives: its registers are written, or the trap is that of its instruction, which is not done. While the
release context of its region is full, the slot waits. -/
def State.swArrive (s : State) (q : SwLater) : Run State :=
  let t := s.setSelf (fun x => { x with swLater := x.swLater.erase q })
  let full := match s.region q.seg with
    | some r => q.member == 4 && decide (32 ≤ (s.ctx r.ctxIndex).waiting.length)
    | none => false
  if full then .error (s.wait (.ctxRoom (((s.region q.seg).map Region.ctxIndex).getD 0)))
  else
    let (u, e, c) := t.swReach q
    match e with
    | .value v => .ok ((u.setPair q.v c).setG q.d { bits := v, tag := false })
    | .refuse st k => .ok ((u.setPair q.v c).setG q.d { bits := swStatus st k, tag := false })
    | .held => .ok u
    | .swatch k => .error (u.swRedo.takeTrapAt (.plain 0x10 (BitVec.ofNat 64 k)) q.pc q.word)
    | .lost a => .error ((u.metError a (u.slotFault 2 a [u.acc a 256 true false false])).swRedo.takeTrapAt (.plain 0x11 q.cursor) q.pc q.word)
    | .integrity a =>
      .error ((u.postFault u.self.owner (u.slotFault 3 a [u.acc a 256 true false false])).swRedo.takeTrapAt (.plain 0x12 q.cursor) q.pc q.word)

/-- The requests of the window that a test picks arrive, in order. A trap's instruction is left undone. -/
def State.swSettle (s : State) (f : SwLater → Nat → Bool) : Run State :=
  (s.self.swLater.zipIdx.filter (fun x => f x.1 x.2)).foldlM (fun (t : State) x =>
    (t.setSelf (fun y => { y with winDone := y.winDone &&& ~~~(doneBit y.winStart x.1.pc) })).swArrive x.1 |>.map (fun u =>
      u.setSelf (fun y => { y with winDone := y.winDone ||| doneBit y.winStart x.1.pc }))) s

/-- The 256 source bytes of SWNAME and SWHASH: a data load needing R in the slot's span. -/
def State.swSource (s : State) (b : BitVec 5) : Run (State × BitVec 2048) := do
  let (t, l) ← s.loadLanes b (s.g b) false [{ i := 0, ea := s.x b, n := 256, mask := 0 }] (s.x b)
  .ok (t, BitVec.ofNat 2048 ((l.map Prod.snd).sum))

/-- Every request of the window arrives; a wait for one of them is over. -/
def State.swAll (s : State) : Run State :=
  if s.self.swLater.isEmpty then .ok s
  else (s.swSettle (fun _ _ => true)).map (fun t => t.setSelf (fun x => { x with park := .no }))

/-- A swatch instruction of the executing word, as a request. -/
def State.swReq (s : State) (member : BitVec 3) (d a : BitVec 5) (r : Region) : SwLater :=
  { pc := s.pc, word := s.wordAt s.pc, member := member, node := false, d := d, v := 0, cursor := s.x a, seg := r.seg, name := 0
    path := 0, content := 0 }

/-- SWNAME; kind 1 leaf, 2 node. -/
def execSwname (d a b : BitVec 5) (k : BitVec 2) (s : State) : Host.Outcome State Fault Refusal :=
  finish (do
    let r ← s.localRegion a true
    let (t, c) ← s.swSource b
    if s.self.swDefer then .error (t.swPut { s.swReq 0 d a r with node := k == 2, content := c })
    let x := t.swname r c (k == 2)
    .ok (x.1.swFail (s.x a) d x.2))

/-- SWHASH. -/
def execSwhash (d a b : BitVec 5) (k : BitVec 2) (s : State) : Host.Outcome State Fault Refusal :=
  finish (do
    let r ← s.localRegion a false
    let (t, c) ← s.swSource b
    let h := r.hash c (k == 2)
    if unnameable h then .error (t.trap 0x10 1)
    .ok (t.swDone d h))

/-- SWREAD. -/
def execSwread (d a b v : BitVec 5) (s : State) : Host.Outcome State Fault Refusal :=
  finish (do
    let r ← s.localRegion a false
    let name := (s.g b).bits
    if s.self.swDefer then .error (s.swPut { s.swReq 2 d a r with v := v, name := name })
    let x := s.swread r name
    .ok ((s.setPair v x.1).swFail (s.x a) d x.2))

/-- SWWALK: the path word is gd at issue. -/
def execSwwalk (d a b : BitVec 5) (s : State) : Host.Outcome State Fault Refusal :=
  finish (do
    let r ← s.localRegion a false
    let path := s.x d
    if s.self.swDefer then .error (s.swPut { s.swReq 5 d a r with name := (s.g b).bits, path := path })
    .ok (s.swFail (s.x a) d (s.walk r path (s.g b).bits 0 (path.extractLsb' 0 4).toNat)))

/-- The reply to a count, or its trap: NO_REGION and an absent page are swatch traps (R103, R109). -/
def State.countReply (s : State) (d a : BitVec 5) (r : Reply) : Run State :=
  if r.status = 0 then .ok (s.swDone d r.value.bits)
  else if r.status = 0x15 then .error (s.trap 0x10 3)
  else if r.status = 0x06 then .error (s.trap 0x10 5)
  else if r.status = 0x05 then .error (s.trap 0x07 (s.x a))
  else if r.status = 0x03 then .error (s.trap 0x05 (s.x a))
  else .error (s.trap 0x11 (s.x a))

/-- SWREF and SWREL. -/
def State.count (s : State) (d a b : BitVec 5) (rel : Bool) : Run State := do
  s.regionCap a
  let c := s.g a
  let name := (s.g b).bits
  if isFabric c.addr && !c.holds .fb then .error (s.trap 0x05 c.addr)
  match s.remoteOf c.addr.toNat with
  | some (dev, off) =>
    -- the bounds must cover the header line wherever the region is (R96)
    if !c.inBounds c.addr.toNat 256 then .error (s.trap 0x10 3)
    let (t, l) ← s.exchange [(dev, fun n => OutMsg.swatch dev { s.request off 16 with
      txn := n, op := if rel then 1 else 0, data := { bits := name, tag := false } })]
    match l with
    | r :: _ => t.countReply d a r
    | [] => .error t
  | none =>
    if !s.self.sent.isEmpty then
      let (t, l) ← s.exchange []
      match l with
      | r :: _ => t.countReply d a r
      | [] => .error t
    else
      match s.findRegion c s.self.owner true with
      | .error (k, e) => .error (s.trap k (BitVec.ofNat 64 e))
      | .ok r =>
        if s.self.swDefer then .error (s.swPut { s.swReq (if rel then 4 else 3) d a r with name := name })
        match s.countHere r rel name { HeldRelease.quiet with txn := some s.nextTxn } with
        | (t, .held) =>
          .error ((({ t with nextTxn := s.nextTxn + 1 }).setSelf (fun x => { x with sent := [s.nextTxn] })).wait .reply)
        | (t, e) => .ok (t.swFail (s.x a) d e)

def execSwref (d a b : BitVec 5) (s : State) : Host.Outcome State Fault Refusal := finish (s.count d a b false)
def execSwrel (d a b : BitVec 5) (s : State) : Host.Outcome State Fault Refusal := finish (s.count d a b true)

/-- SWATCH_COUNT_HANDLER: a count from another device; op 0 SWREF, 1 SWREL (R103). -/
def execSwatchCountHandler (r : FabricReq) (s : State) : Host.Outcome State Fault Refusal :=
  let send (t : State) (st : U16) (v : U128) : State :=
    { t with out := t.out ++ [.reply r.device { okReply r.txn v with status := st }] }
  let seg := match placeOf (fabricLocal r.addr.toNat) with
    | .seg i => i
    | _ => 0
  match s.regionAt (fabricLocal r.addr.toNat) with
  | none => .next (send s 0x15 0)
  | some g =>
    match s.rightsOn r.owner false seg with
    | none => .next (send s 0x05 0)
    | some e =>
      if !(e.r && e.w) then .next (send s 0x05 0)
      else
        match s.countHere g (r.op == 1) r.data.bits { HeldRelease.quiet with device := some (r.device, r.txn) } with
        | (t, .value v) => .next (send t 0 v)
        | (t, .refuse st k) => .next (send t 0 (swStatus st k))
        | (t, .held) => .next t
        | (t, e) => .next (send t (BitVec.ofNat 16 e.status) 0)

end Sys2Proof.Machine
end

