-- ==== Sys2Proof/Machine/Sweep.lean ====
section
/-! DEFINITION. What sweeps, removals and scrubs do to memory and registers: every capability the device holds (R32, R33), the
write-back of cached lines (R67, R78, R377), the removal of rights and translations (R47, R340), the zeroing of frames (R45,
R80). -/
namespace Sys2Proof.Machine

/-! ### Every capability that registers and queues hold (R32, R33) -/

def Core.mapCaps (f : Cap → Cap) (c : Core) : Core :=
  { c with
    larg := f c.larg, lease := c.lease.mapCaps f, inbox := c.inbox.map (mapMsg f), steward := c.steward.map (mapMsg f)
    overflowed := c.overflowed.map (fun x => (mapMsg f x.1, x.2)), rota := c.rota.map (fun r => { r with handler := f r.handler }) }

/-- The words of a block. A command that is to use one as a capability and finds it revoked completes REVOKED (R36). -/
def Cmd.mapCaps (f : Cap → Cap) (c : Cmd) : Cmd :=
  let lost (use : Nat) (w : Cap) : Bool := use != 0 && w.tag && !(f w).tag
  let u := wordUse c.code
  { c with
    w0 := f c.w0, w1 := f c.w1, w2 := f c.w2, w3 := f c.w3
    doomed := if c.doomed.isNone && (lost u.1 c.w0 || lost u.2 c.w1) then some 0x0A else c.doomed }

def Ctx.mapCaps (f : Cap → Cap) (c : Ctx) : Ctx :=
  { c with
    waiting := c.waiting.map (Cmd.mapCaps f), active := c.active.map (Cmd.mapCaps f)
    parked := c.parked.map (fun p => { p with cmd := p.cmd.mapCaps f })
    recvs := c.recvs.map (fun r => { r with cmd := r.cmd.mapCaps f }), past := c.past.map (fun r => { r with cmd := r.cmd.mapCaps f }) }

/-- A change of every capability outside memory: slots, images, cores, queues, command blocks. -/
def State.mapCaps (f : Cap → Cap) (s : State) : State :=
  { s with
    self := s.self.mapCaps f, others := s.others.map (Slot.mapCaps f), cores := s.cores.map (Core.mapCaps f)
    looms := s.looms.map (fun l => { l with drains := l.drains.map (fun d => { d with lease := d.lease.mapCaps f }) })
    ctxs := s.ctxs.map (Ctx.mapCaps f)
    owners := s.owners.map (fun o => { o with
      images := o.images.map (Image.mapCaps f), emulent := f o.emulent, assayreq := f o.assayreq })
    launches := s.launches.map (fun l => { l with entry := f l.entry, data := f l.data })
    stageqs := s.stageqs.map (fun q => { q with items := q.items.map f })
    hostqs := s.hostqs.map (fun q => { q with cap0 := f q.cap0, cap1 := f q.cap1 }) }

/-- Whether a capability's base lies in one of the units. -/
def capIn (units : List Unit30) (c : Cap) : Bool :=
  c.tag && (match placeOf c.bounds.base.toNat with
    | .seg i => units.contains { frame := false, index := i }
    | .frame i => units.contains { frame := true, index := i }
    | _ => false)

def untagIn (units : List Unit30) (c : Cap) : Cap := if capIn units c then c.untag else c

/-! ### Memory -/

/-- A virtual address that a translation puts at a physical one. -/
def State.virtOf (s : State) (p : Nat) : Option Nat :=
  if keptBase ≤ p then some (p - keptBase)
  else s.trans.findSome? (fun t =>
    if t.present && decide (t.base ≤ p) && decide (p < t.base + t.bytes) then some (t.vpn * 2 ^ 14 + (p - t.base)) else none)

/-- The 16 bytes in clear of a granule of a slot image that a dump key encrypts (R367). -/
def State.imageGranule (s : State) (p : Nat) : Option U128 :=
  s.owners.findSome? (fun o =>
    if o.dumpKey.isNone then none
    else
      o.images.findSome? (fun i =>
        match i.offset, s.saveArea o.id with
        | some off, some b =>
          if b + off ≤ p && p < b + off + i.size then
            (s.imageAt o.id i).map (fun x => BitVec.ofNat 128 (ofBytesLE ((x.2.drop (p - b - off)).take 16)))
          else none
        | _, _ => none))

/-- The 16 bytes of a physical granule in clear, with its tag. -/
def State.granule (s : State) (g : Nat) : Cap :=
  let raw : Cap := { bits := BitVec.ofNat 128 (Memory.readN s.mem (g * 16) 16), tag := s.tags.contains g }
  match s.storedMac (g / 16), s.virtOf (g * 16) with
  | some _, some a => { bits := BitVec.ofNat 128 (s.loadN a 16), tag := raw.tag }
  | _, _ => { raw with bits := (s.imageGranule (g * 16)).getD raw.bits }

/-- Clear the tag of a physical granule; a sealed line's MAC covers it. -/
def State.dropTag (s : State) (g : Nat) : State :=
  match s.storedMac (g / 16), s.virtOf (g * 16) with
  | some _, some a => s.setTag a false
  | _, _ => { s with tags := setPut s.tags g false }

/-- The plaintext of an older version of a line. -/
def State.oldPlain (s : State) (o : OldLine) : List U8 :=
  let raw := Memory.readList o.bytes 0 256
  match o.mac, s.virtOf (o.line * 256) with
  | some _, some a =>
    match s.sealKey a with
    | some k => xtsDecrypt (rootKey k 1) (rootKey k 3) (a / 256 * 256) raw
    | none => raw
  | _, _ => raw

/-- The sweep of an older version of a line that backing store holds. A sealed one keeps a MAC that covers its tags. -/
def State.sweepOld (s : State) (units : List Unit30) (o : OldLine) : OldLine :=
  let plain := s.oldPlain o
  let tags := o.tags.filter (fun g =>
    !capIn units { bits := BitVec.ofNat 128 (ofBytesLE ((plain.drop (g % 16 * 16)).take 16)), tag := true })
  let mac := match o.mac, (s.virtOf (o.line * 256)).bind (fun a => (s.sealKey a).map (fun k => (a, k))) with
    | some _, some (a, k) =>
      some (lineMac k (a / 256 * 256) (Memory.readList o.bytes 0 256) (tags.foldl (fun n g => n + 2 ^ (g % 16)) 0))
    | m, _ => m
  if tags = o.tags then o else { o with tags := tags, mac := mac }

/-- The sweep of some units: every tag of a capability that is based in them, in memory and out of it (R32, R33). -/
def State.sweepAll (s : State) (units : List Unit30) : State :=
  let t := s.tags.foldl (fun t g => if capIn units (t.granule g) then t.dropTag g else t) s
  { (t.mapCaps (untagIn units)) with behind := s.behind.map (s.sweepOld units) }

/-- A register scan is due: 64 µs have passed since a REVOKE, and not every core has scanned (R33). -/
def State.scanDue (s : State) : Bool := s.sweeps.any (fun w => w.scanBy.any (fun t => decide (t ≤ s.us)))
/-- Every core scans its registers. -/
def State.scanAll (s : State) : State :=
  let cores := (s.heldSlots.map Slot.core ++ s.cores.map Core.idx).eraseDups
  let t := cores.foldl (fun t c => t.registerScan c) s
  { t with sweeps := t.sweeps.map (fun w => { w with scanBy := none }) }

/-- Sweeps outside any context that cover a unit run, and the map bits that no other sweep covers are cleared (R34, R380). -/
def State.runLooseSweeps (s : State) (u : Unit30) : State :=
  let mine (w : Sweep) : Bool := w.ctx.isNone && w.units.contains u
  let units := (s.sweeps.filter mine).flatMap Sweep.units
  let rest := s.sweeps.filter (fun w => !mine w)
  if units.isEmpty then s
  else
    let t := s.sweepAll units
    { t with
      sweeps := rest
      revoked := t.revoked.filter (fun v => !units.contains v || rest.any (fun w => w.units.contains v)) }

/-- The segment of a translation entry. -/
def Trans.seg (t : Trans) : Nat :=
  let a := t.vpn * 2 ^ 14
  if a < hostBase then a / 2 ^ 21 else 2 ^ 26 + (a - hostBase) / 2 ^ 21

/-- A written-back line of a migrating page marks its dirty sectors in the log (R377, R378). -/
def State.markWritten (s : State) (line : Nat) (dirty : BitVec 2) : State :=
  match s.trans.find? (fun x => x.present && x.migrating != 0 && decide (x.base ≤ line * 256) && decide (line * 256 < x.base + x.bytes)) with
  | some x =>
    let k := line % 8192 * 2
    let t := if dirty.getLsbD 0 then s.markLog x.frameId k 1 else s
    if dirty.getLsbD 1 then t.markLog x.frameId (k + 1) 1 else t
  | none => s

/-- A line put at a physical place: its bytes, tags, MAC and poison. -/
def State.putLine (s : State) (line : Nat) (o : OldLine) : State :=
  let z := s.zeroPhys (line * 256) 256
  { z with
    mem := Memory.splice z.mem (line * 256) (line * 256 + 256) (o.bytes.map (fun c => (c.1 + line * 256, c.2)))
    tags := o.tags.foldl (fun l g => setAdd l (g % 16 + line * 16)) z.tags
    poison := if o.poison then setAdd z.poison line else z.poison
    sealedLines := match o.mac with
      | some m => putBy (fun x : Nat × U64 => x.1) (line, m) z.sealedLines
      | none => z.sealedLines }

/-- One 128-byte sector of a line that is clear and not poisoned put at a physical place. -/
def State.putSector (s : State) (line : Nat) (o : OldLine) (k : Nat) : State :=
  let b := line * 256 + k * 128
  { s with
    mem := Memory.splice s.mem b (b + 128) ((o.bytes.filter (fun c => decide (c.1 / 128 = k))).map (fun c => (c.1 + line * 256, c.2)))
    tags := (o.tags.filter (fun g => g % 16 / 8 == k)).foldl (fun l g => setAdd l (g % 16 + line * 16))
      (setClear s.tags (b / 16) (b / 16 + 8)) }

/-- Some sectors of a line put at a physical place; a sealed or poisoned line goes whole. -/
def State.putSectors (s : State) (line : Nat) (o : OldLine) (d : BitVec 2) : State :=
  if d = 3 || o.mac.isSome || o.poison then s.putLine line o
  else
    let t := if d.getLsbD 0 then s.putSector line o 0 else s
    if d.getLsbD 1 then t.putSector line o 1 else t

/-- A line that a cache has kept leaves it: its dirty sectors go to the frame that its page has now (R78). -/
def State.evictLine (s : State) (k : KeptLine) : State :=
  let a := k.line * 256
  let t := { s with kept := s.kept.filter (fun x => x.line != k.line) }
  let u := match t.transAt a with
    | some x =>
      if x.present && k.dirty != 0 then
        ((t.putSectors (x.phys a / 256) (s.lineNow ((keptBase + a) / 256)) k.dirty).markWritten (x.phys a / 256) k.dirty).soil a
      else t
    | none => t
  u.zeroPhys (keptBase + a) 256

def State.evictIf (s : State) (f : KeptLine → Bool) : State := (s.kept.filter f).foldl (fun t k => t.evictLine k) s

/-- An address lies in a SLICE-PINNED segment, whose lines are never evicted (R72). -/
def State.pinnedAt (s : State) (a : Nat) : Bool :=
  match placeOf a with
  | .seg i => (s.segAttr i).any (fun e => e.place == 1)
  | _ => false
/-- The line at a physical line number is one of a SLICE-PINNED segment. -/
def State.pinnedLine (s : State) (line : Nat) : Bool := (s.virtOf (line * 256)).any s.pinnedAt

/-- Kept lines may leave their caches at any time: which do is a free choice; pinned ones stay (R72, R78), and written ones while their
page is absent, for they have no frame to go to (log 9). -/
def State.evict (s : State) : State :=
  if s.kept.isEmpty then s
  else s.drawn.evictIf (fun k => !s.pinnedAt (k.line * 256) && !Config.lineStillCached s.free k.line
    && (k.dirty == 0 || (s.transAt (k.line * 256)).any Trans.present))

/-- The place and class of a segment's lines, where caches may hold and evict them: those of a CACHED segment (R60, R87). -/
def State.inClass (s : State) (die : BitVec 2) (c : BitVec 6) (a : Nat) : Bool :=
  match placeOf a with
  | .seg i => (s.segAttr i).any (fun e => e.place == 2 && e.home == die && e.cls == c)
  | _ => false

/-- Lines of a physical range are written back and invalidated: backing store holds their newest version; the sectors written
are marked where the page is migrating (R67, R78, R377). -/
def State.writeBack (s : State) (lo hi : Nat) : State :=
  let mine (o : OldLine) : Bool := decide (lo / 256 ≤ o.line) && decide (o.line * 256 < hi)
  let t := { s with behind := s.behind.filter (fun o => !mine o) }
  let u := (s.behind.filter mine).foldl (fun t o => t.markWritten o.line o.dirty) t
  u.evictIf (fun k => (s.transAt (k.line * 256)).any (fun x =>
    x.present && decide (lo ≤ x.phys (k.line * 256)) && decide (x.phys (k.line * 256) < hi)))

/-- Write back every present page of a segment (R67). -/
def State.writeBackSeg (s : State) (seg : Nat) : State :=
  (s.trans.filter (fun t => t.present && !t.host && t.seg == seg)).foldl (fun t x => t.writeBack x.base (x.base + x.bytes)) s

/-- A class loses a way: its lines in it are written back and invalidated (R45, R89). Which lines lie in that way is a free choice; of a class
that keeps none, all do. -/
def State.loseWay (s : State) (die : BitVec 2) (c : BitVec 6) (all : Bool) : State :=
  if s.behind.isEmpty && s.kept.isEmpty then s
  else
    let gone (line : Nat) : Bool := all || !Config.lineStillCached s.free line
    let t := s.drawn
    let l := t.behind.filter (fun o => gone o.line && (t.virtOf (o.line * 256)).any (t.inClass die c))
    (l.foldl (fun u o => u.writeBack (o.line * 256) (o.line * 256 + 256)) t).evictIf
      (fun k => gone k.line && s.inClass die c (k.line * 256))

/-- Where a frame lies: its first physical byte and its size. -/
def frameSpan (id : U64) : Nat × Nat :=
  match resKind id with
  | 3 => (resIndex id * 2 ^ 21, 2 ^ 21)
  | 11 => (hostBase + resIndex id * 2 ^ 21, 2 ^ 21)
  | _ => (spadFrameBase (resIndex id), 2 ^ 14)

def State.zeroFrame (s : State) (id : U64) : State := s.zeroPhys (frameSpan id).1 (frameSpan id).2

/-! ### Translations and rights -/

/-- A translation entry goes, its lines written back first (R78). -/
def State.dropTrans (s : State) (t : Trans) : State :=
  let s1 := if t.present then s.writeBack t.base (t.base + t.bytes) else s
  -- kept lines of an absent page have no frame to go to
  let s2 := s1.evictIf (fun k => decide (t.vpn ≤ k.line / 64) && decide (k.line / 64 < t.vpn + t.bytes / 2 ^ 14))
  { s2 with trans := dropBy transKey (transKey t) s2.trans }

/-- Every translation entry that a test picks goes. -/
def State.dropTransIf (s : State) (f : Trans → Bool) : State := (s.trans.filter f).foldl (fun t x => t.dropTrans x) s

/-- A host-window segment loses its reset entry and translation (R411). -/
def State.hostLeaves (s : State) (seg : Nat) : State :=
  if s.hostReset seg then { s with hostGone := setAdd s.hostGone (seg - 2 ^ 26) } else s

/-- Every rights entry of a segment or a scratchpad frame goes. -/
def State.dropRights (s : State) (frame : Bool) (index : Nat) : State :=
  { s with rights := s.rights.filter (fun e => !(e.frame == frame && e.index == index)) }

/-- A class without way units that no segment names is free (R341; log 101). -/
def State.freeClasses (s : State) : State :=
  { s with
    classes := s.classes.map (fun x =>
      if x.owner != 0 && x.floor == 0 && !s.rights.any (fun e => !e.frame && e.home == x.die && e.cls == x.cls) then
        { x with owner := 0 }
      else x) }

/-- Every mapping and every right on a segment goes, and the region it belongs to is discarded (R47, R109, R340). -/
def State.dropSegment (s : State) (seg : Nat) : State :=
  ((((s.discardAt seg).dropTransIf (fun t => t.seg == seg)).dropRights false seg).hostLeaves seg).freeClasses

/-- The translation entries that a frame backs. -/
def Trans.backedBy (t : Trans) (id : U64) : Bool :=
  t.present && t.page / 128 == resIndex id && t.host == (resKind id == 11)

/-- The frame backs some translation entry; a host frame also through its reset translation. -/
def State.backs (s : State) (id : U64) : Bool :=
  s.trans.any (fun t => t.backedBy id) || (resKind id == 11 && s.hostReset (2 ^ 26 + resIndex id))

/-- Every translation entry that a frame backs goes (R47). -/
def State.dropBacking (s : State) (id : U64) : State :=
  let t := s.dropTransIf (fun t => t.backedBy id)
  -- the reset translation of its host-window segment, whose own entry stays (R411)
  if resKind id = 11 ∧ t.hostReset (2 ^ 26 + resIndex id) then
    { (t.hostLeaves (2 ^ 26 + resIndex id)) with
      rights := t.rights ++ (if t.rights.any (fun e => !e.frame && e.index == 2 ^ 26 + resIndex id && e.owner == Config.house) then []
        else [Rights.hostReset (resIndex id)]) }
  else t

/-! ### Commands that end -/

/-- A command ends, and with it the RESUMEs that wait for it, with the same status (R300, R303). -/
def State.endCmd (s : State) (owner : U16) (ci : Nat) (c : Cmd) (status : Nat) (d0 d1 : Option Nat) : State :=
  let l := (s.ctx ci).active.filter (fun x => x.code == 4 && x.number != c.number && x.w0.addr.toNat == c.number)
  l.foldl (fun t x => t.complete owner ci x status d0 (some x.detail1)) (s.complete owner ci c status d0 d1)

/-- Parked commands with a capability of a revoked range complete REVOKED (R36, R303). -/
def State.revokeParked (s : State) : State :=
  s.ctxs.foldl (fun t x =>
    x.parked.foldl (fun t p =>
      if t.isRevoked p.cmd.w0 || t.isRevoked p.cmd.w1 then
        t.endCmd (t.userOf (mkRes 6 x.idx)) x.idx p.cmd 0x0A (some p.done) (some p.cmd.detail1)
      else t) t) s

/-! ### Frames and segments by kind -/

/-- The revocation unit of a segment or a scratchpad frame. -/
def unitOf (id : U64) : Unit30 := { frame := resKind id == 4, index := resIndex id }
def isRevUnit (id : U64) : Bool := resKind id == 4 || resKind id == 5

/-- A key slot that a segment's entry names (R333). -/
def State.keyInUse (s : State) (k : Nat) : Bool := s.rights.any (fun e => !e.frame && e.sealedSeg && e.key.toNat == k)
/-! ### The rights store (R65) -/

def golden : Nat := 0x9E3779B97F4A7C15

/-- The die whose rights store keeps an entry. -/
def rightsDie (frame : Bool) (index : Nat) : Nat := homeDie (mkRes (if frame then 4 else 5) index)
/-- The first bucket of a rights entry. -/
def rightsBucket (owner : U16) (frame : Bool) (index : Nat) : Nat :=
  (owner.toNat * 2 ^ 32 + (if frame then 2 ^ 31 else 0) + index) * golden % 2 ^ 64 / 2 ^ 48
/-- A place of the rights store that an entry made at reset takes (R411): the own entry of a frame the last of its first bucket, that of a
host-window segment the last but one (log 31). -/
def State.resetRightsAt (s : State) (die p : Nat) : Bool :=
  let b := p / 16
  if p % 16 = 15 then
    (List.range (Config.spadFrames / 4)).any (fun i =>
      let f := die * (Config.spadFrames / 4) + i
      rightsBucket Config.house true f == b && s.uses Config.house (mkRes 4 f))
  else if p % 16 = 14 && die = 0 then
    (List.range 8192).any (fun h => rightsBucket Config.house false (2 ^ 26 + h) == b && s.hostReset (2 ^ 26 + h))
  else false

/-- The first free position of an entry's four buckets, bucket × 16 + place. -/
def State.rightsPos (s : State) (owner : U16) (frame : Bool) (index : Nat) : Option Nat :=
  let b := rightsBucket owner frame index
  let die := rightsDie frame index
  ((List.range 64).map (fun j => (b + j / 16) % 2 ^ 16 * 16 + j % 16)).find? (fun p =>
    !s.rights.any (fun e => e.pos == p && rightsDie e.frame e.index == die) && !s.resetRightsAt die p)

/-! ### Cache classes (R87) -/

/-- The class of a way unit; none in the pool. -/
def State.wayClass (s : State) (die : BitVec 2) (way : Nat) : Option (BitVec 6) :=
  if s.pool.contains (die, way) then none
  else
    match s.ways.find? (fun w => w.1 == die && w.2.1 == way) with
    | some w => some w.2.2
    | none => some 0

def State.cls (s : State) (die : BitVec 2) (c : BitVec 6) : Cls :=
  (s.classes.find? (fun x => x.die == die && x.cls == c)).getD
    { die := die, cls := c, owner := 0, floor := 0, ceiling := 0, ways := 0, hits := List.replicate 32 0, misses := 0 }
def clsKey (x : Cls) : Nat := x.die.toNat * 64 + x.cls.toNat
def State.putCls (s : State) (x : Cls) : State := { s with classes := putBy clsKey x s.classes }

/-- The lines of an owner's classes in a way unit leave it when the unit is lent or given (R45, R89). The way of a unit in the pool serves
some class that holds more than its floor. -/
def State.loseUnit (s : State) (unit : Nat) (owner : U16) : State :=
  let die := BitVec.ofNat 2 (unit / 32)
  let mine (x : Cls) : Bool := x.die == die && x.owner == owner
  match s.wayClass die (unit % 32) with
  | some k => if mine (s.cls die k) then s.loseWay die k (decide ((s.cls die k).ways ≤ 1)) else s
  | none => (s.classes.filter (fun x => mine x && decide (x.floor < x.ways))).foldl (fun t x => t.loseWay die x.cls false) s

/-- A way unit that holds pinned segments. -/
def State.wayPins (s : State) (die way : Nat) : Bool :=
  s.rights.any (fun e => !e.frame && e.own && e.place == 1 && e.home.toNat == die
    && (e.pin.map (· / 8)) == some way)

end Sys2Proof.Machine
end

