-- ==== Sys2Proof/Machine/Control.lean ====
section
/-! DEFINITION. The control transfers and CAPC (R189 to R193). -/
namespace Sys2Proof.Machine

/-- Steps 1 to 6 of R19 for a new PCC at the target (R189): the class of the first that fails. -/
def State.jumpClass (s : State) (c : Cap) : Option (BitVec 6) :=
  match s.capClass c .x with
  | some k => some k
  | none =>
    if !c.inBounds c.addr.toNat 4 then some 0x04
    else if c.addr.toNat % 4 ≠ 0 then some 0x0B
    else none

/-- The link: the PCC at the next word. -/
def State.link (s : State) : Cap := s.self.pcc.moveCursor (s.pc + 4)

/-- A transfer to `c`, with the link written to `d` (R189). -/
def State.transfer (s : State) (d : BitVec 5) (c : Cap) : State := (s.setG d s.link).jumpTo c

/-- The PCC lost its tag to a revocation (R31): a transfer under it traps. -/
def State.untagPcc (s : State) : State := s.setSelf (fun x => { x with pcc := x.pcc.untag })

/-- A transfer whose source is the PCC, to a number of words away. -/
def State.transferPc (s : State) (d : BitVec 5) (words : U64) : State :=
  let c := s.self.pcc.moveCursor (s.pc + 4 * words)
  match s.jumpClass c with
  | some k => (if k = 0x16 then s.untagPcc else s).trap k c.addr
  | none => s.transfer d c

/-- JAL (R190). -/
def execJal (d : BitVec 5) (o : BitVec 20) (s : State) : Host.Outcome State Fault Refusal :=
  .next (s.transferPc d (o.signExtend 64))

/-- JALR (R191). -/
def execJalr (d a : BitVec 5) (i : BitVec 15) (s : State) : Host.Outcome State Fault Refusal :=
  let c := (s.g a).moveCursor (s.x a + i.signExtend 64)
  .next (match s.jumpClass c with
    | some k => s.capTrap a k (.plain k c.addr)
    | none => s.transfer d c)

/-- A branch (R192): taken, a transfer of the PCC; else the next word. -/
def State.branch (s : State) (taken : Bool) (o : BitVec 12) : Host.Outcome State Fault Refusal :=
  .next (if taken then s.transferPc 0 (o.signExtend 64)
    else s.passOn)

def execBeq (a b : BitVec 5) (o : BitVec 12) (s : State) : Host.Outcome State Fault Refusal :=
  s.branch (s.x a == s.x b) o
def execBne (a b : BitVec 5) (o : BitVec 12) (s : State) : Host.Outcome State Fault Refusal :=
  s.branch (s.x a != s.x b) o
def execBlt (a b : BitVec 5) (o : BitVec 12) (s : State) : Host.Outcome State Fault Refusal :=
  s.branch ((s.x a).slt (s.x b)) o
def execBge (a b : BitVec 5) (o : BitVec 12) (s : State) : Host.Outcome State Fault Refusal :=
  s.branch (!(s.x a).slt (s.x b)) o
def execBltu (a b : BitVec 5) (o : BitVec 12) (s : State) : Host.Outcome State Fault Refusal :=
  s.branch ((s.x a).ult (s.x b)) o
def execBgeu (a b : BitVec 5) (o : BitVec 12) (s : State) : Host.Outcome State Fault Refusal :=
  s.branch (!(s.x a).ult (s.x b)) o
def execBtag (a : BitVec 5) (o : BitVec 12) (s : State) : Host.Outcome State Fault Refusal :=
  s.branch (s.g a).tag o
def execBntag (a : BitVec 5) (o : BitVec 12) (s : State) : Host.Outcome State Fault Refusal :=
  s.branch (!(s.g a).tag) o

/-- CAPC (R193). -/
def execCapc (d : BitVec 5) (i : BitVec 20) (s : State) : Host.Outcome State Fault Refusal :=
  .next ((s.setG d (s.self.pcc.moveCursor (s.pc + 4 * i.signExtend 64))).retire)

end Sys2Proof.Machine
end

