-- ==== Sys2Proof/Machine/Tasks.lean ====
section
/-! DEFINITION. Tasks, messages and delegation (R262 to R286): place words, the start of a task, message stores and the overflow
heap, SEND, SENDT, SPAWN, DLG, DLGA, DLGRET, REPLAY, TEND, TYIELD, TSELF, and the events of the message stores. -/
namespace Sys2Proof.Machine

/-! ### Place words (R265) -/

/-- The place word of the issuing slot: with its inline depth for TSELF, with depth 0 as an origin word. -/
def State.placeWord (s : State) (depth : Nat) (remote : BitVec 1) : U64 :=
  s.self.owner ++ 0#8 ++ BitVec.ofNat 4 depth ++ BitVec.ofNat 4 s.self.idx ++ 0#4 ++ remote ++ s.devnum
    ++ BitVec.ofNat 7 (coreBench s.self.core) ++ BitVec.ofNat 6 (coreSeat s.self.core)

/-- A target: the device when it is another one, the core, the slot field. -/
structure Target where
  device : Option (BitVec 14)
  core : Nat
  slot : BitVec 4
deriving DecidableEq, Repr

/-- The target of a place word, none when the word breaks the table. -/
def State.targetOf (s : State) (w : U64) (spawn : Bool) : Option Target :=
  let bench := (w.extractLsb' 6 7).toNat
  let seat := (w.extractLsb' 0 6).toNat
  let slot := w.extractLsb' 32 4
  if 95 < bench || 47 < seat || w.extractLsb' 36 28 != 0 || w.extractLsb' 28 4 != 0 then none
  else if !spawn && slot != 0 then none
  else if spawn && !(slot.toNat < 8 || slot == 15) then none
  else
    let d := w.extractLsb' 13 14
    some { device := if w.getLsbD 27 && d != s.devnum then some d else none, core := bench * 48 + seat, slot := slot }

/-- TSELF (R285). -/
def execTself (d : BitVec 5) (s : State) : Host.Outcome State Fault Refusal := s.put d (s.placeWord s.self.depth 0)

/-! ### The start of a task (R269, R275, R280) -/

/-- A slot with the state of R269: a new agent in it, every register of the task zero but the PCC and g3 to g7. -/
def Slot.begin (x : Slot) (run : Nat) (role : Role) (owner : U16) (pcc g3 : Cap) (w4 w5 w6 w7 : Cap) : Slot :=
  let y := { x.freed with
    agent := .slot x.core x.idx run, role := role, owner := owner, pcc := pcc
    g := Vector.replicate 32 .zero, v := Vector.replicate 32 0, p := Vector.replicate 8 0
    trapvec := .zero, upvec := .zero, traphold := 0, flags := 0, round := 0, coord := 0, settlemode := 0
    tfpcc := .zero, tfpc := 0, tfdone := 0, tfclass := 0, tfaddr := 0, tflane0 := 0, tflane1 := 0, tfagent := 0, tftime := 0
    tstack := .zero, hqsel := 0, winStart := pcc.addr, winFlags := 0, strict := false, hold := false }
  ((((y.setG 3 g3).setG 4 w4).setG 5 w5).setG 6 w6).setG 7 w7

/-- Start a task in a slot: a task boundary of its core (R33). -/
def State.startTask (s : State) (core idx : Nat) (role : Role) (owner : U16) (pcc g3 w4 w5 w6 w7 : Cap) : State :=
  (({ s with nextId := s.nextId + 1 }).putSlot ((s.slot core idx).begin s.nextId role owner pcc g3 w4 w5 w6 w7)).scanCore core

/-- The rota of a core runs: an entry is LENT with a slice, and the core as a whole is not (R287). -/
def State.rotaRuns (s : State) (core : Nat) : Bool :=
  (s.entry (mkRes 1 core)).state != .lent
    && (s.core core).rota.toList.zipIdx.any (fun r => r.1.slice != 0 && (s.entry (mkRes 2 (core * 8 + r.2))).state == .lent)

/-- No turn runs and none is to begin. -/
def State.noTurn (s : State) (core : Nat) : Bool := (s.core core).turn.phase == 0 && !s.rotaRuns core

/-- Whether work of a core's user may start: no rota runs, or a turn of an entry of the user's own does and its slice has not ended (R272,
R287, R288); a lapsed user's queued messages go on (R53). -/
def State.userMayRun (s : State) (core : Nat) : Bool :=
  let t := (s.core core).turn
  s.coreUser core != 0
    && (s.noTurn core || (t.phase == 1 && s.uses (s.coreUser core) (mkRes 2 (core * 8 + t.entry))))

/-- A general slot that may take new work: free, not reserved (R268), on a bench in service (R5). -/
def State.openSlot (s : State) (core idx : Nat) : Bool :=
  !(s.slot core idx).running && !s.quarantined.contains (coreBench core) && !(s.core core).reserved.contains idx

/-- The slot that a message at the inbox's head takes: the named one, or the lowest free of 1 to 7, then 0 (R265, R276). -/
def State.slotFor (s : State) (core : Nat) (place : BitVec 4) : Option Nat :=
  if place.toNat < 8 then (if s.openSlot core place.toNat then some place.toNat else none)
  else [1, 2, 3, 4, 5, 6, 7, 0].find? (fun i => s.openSlot core i)

/-- A tail spread over v registers: byte j in byte j mod 128 of v(j div 128) (R275). -/
def Slot.withTail (x : Slot) (tail : List U8) : Slot :=
  (chunks 128 ((tail.length + 127) / 128) tail).zipIdx.foldl
    (fun y c => y.setV (BitVec.ofNat 5 c.2) (BitVec.ofNat 1024 (ofBytesLE c.1))) x

/-- g3 of a message task: the origin word; of an emulation task the handler number in [71:64] too (R275, R398). -/
def originWord (m : Msg) : Cap :=
  { bits := BitVec.ofNat 64 (m.emul.getD 0 % 256) ++ m.origin, tag := false }

/-- The head of a core's inbox starts its task, if the user's work may run and the slot it needs is free (R271, R275, R276). -/
def State.inboxStart (s : State) (core : Nat) : State :=
  let c := s.core core
  match c.inbox with
  | [] => s
  | m :: rest =>
    if !s.userMayRun core then s
    else
      match s.slotFor core (if m.spawned then m.place else 15) with
      | none => s
      | some i =>
        let s1 := s.putCore { c with inbox := rest }
        let s2 := s1.startTask core i (if m.spawned then .spawned else .message) (s.coreUser core)
          (if m.spawned then m.entry else m.entry.withOtype 0) (originWord m) m.w4 m.w5 m.w6 m.w7
        s2.putSlot { (s2.slot core i).withTail m.tail with answers := if m.emul.isSome then some m else none }

def execInboxTaskStart (core : Nat) (s : State) : Host.Outcome State Fault Refusal := .next (s.inboxStart core)

/-- Slot 8 starts the next delegation request (R280). -/
def State.stewardStart (s : State) (core : Nat) : State :=
  let c := s.core core
  match c.steward with
  | [] => s
  | m :: rest =>
    if (s.slot core 8).running || !s.userMayRun core then s
    else
      let s1 := s.putCore { c with steward := rest }
      let s2 := s1.startTask core 8 .steward (s.coreUser core) (m.entry.withOtype 0) (Cap.ofInt m.origin) m.w4 m.w5 m.w6 m.w7
      s2.putSlot { s2.slot core 8 with answers := some m }

def execStewardRequestStart (core : Nat) (s : State) : Host.Outcome State Fault Refusal := .next (s.stewardStart core)

/-! ### Message stores (R271, R277) -/

/-- Room for a message: an entry of the inbox, and its tail in the 32 KiB tail store. -/
def Core.hasRoom (c : Core) (m : Msg) : Bool :=
  decide (c.inbox.length < 64) && decide ((c.inbox.map (fun x => x.tail.length)).sum + m.tail.length ≤ 32768)

/-- The records of the overflow heap that a message takes. -/
def heapRecords (m : Msg) : Nat := 1 + m.tail.length / 128

/-- The records of an owner's overflow heap that are in use: the heap is shared by the owner's cores. -/
def State.heapUsed (s : State) (owner : U16) : List Nat :=
  (s.cores.filter (fun c => s.coreUser c.idx == owner)).flatMap (fun c => c.overflowed.flatMap (fun x => x.2))

/-- Whether an owner's overflow heap has room for a message. -/
def State.heapRoom (s : State) (owner : U16) (m : Msg) : Bool :=
  owner != Config.house && (s.saveArea owner).isSome && decide ((s.heapUsed owner).length + heapRecords m ≤ 8192)

/-- The records that a message takes: the lowest free ones (R277: which is not architectural). -/
def State.heapTake (s : State) (owner : U16) (m : Msg) : List Nat :=
  let used := s.heapUsed owner
  ((List.range (used.length + heapRecords m)).filter (fun k => !used.contains k)).take (heapRecords m)

/-- What the records of a message hold, 128 bytes each: its words and its origin word, then its tail (R277; log 85). -/
def heapBytes (m : Msg) : List (List U8) :=
  pad 128 ((capBytes m.entry ++ capBytes m.w4 ++ capBytes m.w5 ++ capBytes m.w6 ++ capBytes m.w7) ++ bytesLE 8 m.origin.toNat)
    :: chunks 128 (m.tail.length / 128) m.tail

/-- The message is written into the heap, with the tags of its words. -/
def State.heapWrite (s : State) (owner : U16) (m : Msg) (l : List Nat) : State :=
  match s.saveArea owner with
  | none => s
  | some b =>
    (l.zip (heapBytes m)).zipIdx.foldl (fun t x =>
      t.writeFrame (b + 0x100000 + 128 * x.1.1) x.1.2
        (if x.2 = 0 then ([m.entry, m.w4, m.w5, m.w6, m.w7].zipIdx.map (fun c => (16 * c.2, c.1.tag))) else [])) s

/-- The message as the heap holds it: a revoked word arrives untagged (R24). -/
def State.heapRead (s : State) (owner : U16) (m : Msg) (l : List Nat) : Msg :=
  match s.saveArea owner, l with
  | some b, r :: more =>
    let a (k : Nat) : Nat := b + 0x100000 + 128 * k
    let c (i : Nat) : Cap :=
      s.dropRevoked { bits := BitVec.ofNat 128 (Memory.readN s.mem (a r + 16 * i) 16), tag := s.tags.contains (a r / 16 + i) }
    { m with
      entry := c 0, w4 := c 1, w5 := c 2, w6 := c 3, w7 := c 4, origin := BitVec.ofNat 64 (Memory.readN s.mem (a r + 80) 8)
      tail := more.flatMap (fun k => Memory.readList s.mem (a k) 128) }
  | _, _ => m

/-- A message enters the inbox. -/
def State.enterInbox (s : State) (core : Nat) (m : Msg) : State :=
  let c := s.core core
  (s.putCore { c with inbox := c.inbox ++ [m] }).noteYield core 2

/-- The porter wakes (R277). -/
def State.wakePorter (s : State) (core : Nat) : State :=
  if (s.slot core 9).running then s
  else s.startTask core 9 .porter (s.coreUser core) .zero .zero .zero .zero .zero .zero

/-- A message reaches a core: the inbox, or the overflow heap, or refused (false). -/
def State.arriveMessage (s : State) (core : Nat) (m : Msg) : State × Bool :=
  let c := s.core core
  if !c.overflow && c.hasRoom m then (s.enterInbox core m, true)
  else if s.heapRoom (s.coreUser core) m then
    let l := s.heapTake (s.coreUser core) m
    ((((s.heapWrite (s.coreUser core) m l).putCore { c with overflow := true, overflowed := c.overflowed ++ [(m, l)] })).wakePorter core, true)
  else (s, false)

/-- A SPAWN reaches a core for an owner: it never enters the overflow heap (R276). -/
def State.arriveSpawn (s : State) (core : Nat) (owner : U16) (m : Msg) : State × Bool :=
  let c := s.core core
  if s.coreUser core == owner && !c.overflow && c.hasRoom m then (s.enterInbox core m, true) else (s, false)

/-- The head record of the core's FIFO in the heap moves into the inbox (R278). -/
def State.replayHead (s : State) (core : Nat) : State :=
  let c := s.core core
  match c.overflowed with
  | [] => s
  | (m, l) :: rest => (s.putCore { c with overflowed := rest }).enterInbox core (s.heapRead (s.coreUser core) m l)

/-- REPLAY (R278). -/
def execReplay (s : State) : Host.Outcome State Fault Refusal :=
  if s.self.idx ≠ 9 then .next (s.trap 0x01 0)
  else
    match s.myCore.overflowed with
    | [] => .next ((s.sync 2).retire)
    | (m, _) :: _ =>
      if s.myCore.hasRoom m then .next (((s.replayHead s.self.core).sync 2).retire) else .next (s.wait .inboxRoom)

/-- The porter's routine ends: overflow mode is over and slot 9 sleeps (R277). -/
def State.porterSleeps (s : State) (core : Nat) : State :=
  let x := s.slot core 9
  (s.putCore { s.core core with overflow := false }).putSlot x.freed

/-! ### Sending -/

/-- The check of a sealed entry in ga (R274, R279). -/
def State.entryCheck (s : State) (a : BitVec 5) (otype : BitVec 8) : Run Unit :=
  let c := s.g a
  if !c.tag then .error (s.trap 0x03 0)
  else if c.otype != otype then .error (s.trap 0x06 0)
  else if s.isRevoked c then .error (s.capTrap a 0x16 (.plain 0x16 0))
  else .ok ()

/-- The target in gb, else queue (R265). -/
def State.target (s : State) (b : BitVec 5) (spawn : Bool) : Run Target :=
  match s.targetOf (s.x b) spawn with
  | some t => .ok t
  | none => .error (s.trap 0x0E 0)

/-- A word that enters a fabric message keeps its tag only if it holds FB (R25). -/
def throughFabric (remote : Bool) (c : Cap) : Cap := if remote && !c.holds .fb then c.untag else c

/-- The message of the issuing slot with an entry: words g4 to g7 with their tags, the origin word, a tail. A revoked word moves untagged, as
between registers: only the entry raises revoked (R31, R286). -/
def State.message (s : State) (entry : Cap) (t : Target) (spawned : Bool) (tail : List U8) : Msg :=
  let f (c : Cap) : Cap := throughFabric t.device.isSome (s.dropRevoked c)
  { entry := f entry, w4 := f (s.g 4), w5 := f (s.g 5), w6 := f (s.g 6), w7 := f (s.g 7)
    origin := s.placeWord 0 (if t.device.isSome then 1 else 0), tail := tail, place := t.slot, spawned := spawned
    replyCore := s.self.core, replySlot := s.self.idx, replyLocal := t.device.isNone, txn := s.nextTxn, emul := none }

/-- The status of a reply to a message: a peer without a route is UNREACHABLE (R273, R400). -/
def messageStatus (r : Reply) : U16 := if r.status = 0x0E then 2 else r.status

/-- The scope of a message's release (R114). -/
def Target.scope (t : Target) : Nat := if t.device.isSome then 3 else 2

/-- The message-refused record (R274). -/
def State.refused (s : State) (place : U64) (fn : Nat) (status : U16) : State :=
  s.postEvent s.self.core
    { kind := 3, status := status, source := s.source 0 s.self.core, number := 0, d0 := place, d1 := BitVec.ofNat 64 fn }

/-- The issuing slot sends a message to a core: its status (R273). A remote one is sent once, and waits for the reply. -/
def State.sendTo (s : State) (t : Target) (m : Msg) (here : State → State × Bool) : Run (State × U16) :=
  match t.device with
  | none =>
    let r := here (s.sync t.scope)
    .ok (r.1, if r.2 then 0 else 1)
  | some d => do
    let u := if s.self.sent.isEmpty then s.sync t.scope else s
    let (v, l) ← u.exchange [(d, fun n => OutMsg.message d t.core n { m with txn := n })]
    .ok (v, ((l.map messageStatus).head?).getD 2)

/-- SEND and SENDT; `k` is SENDT's field (R274). -/
def State.send (s : State) (d a b : BitVec 5) (k : Option (BitVec 4)) : Run State := do
  if s.self.sent.isEmpty then
    s.entryCheck a 3
  let t ← s.target b false
  -- a message to another device waits with its tail
  let far := t.device.isSome
  let (u, tail) ← match k, (if far then s.self.tail else none) with
    | none, _ => pure (s, [])
    | some _, some l => pure (s, l)
    | some k, none => do
      let n := (k.toNat + 1) * 256
      let (u, l) ← s.loadLanes d (s.g d) false [{ i := 0, ea := s.x d, n := n, mask := 0 }] (s.x d)
      let tail := bytesLE n ((l.map Prod.snd).sum)
      pure (if far then u.setSelf (fun x => { x with tail := some tail }) else u, tail)
  let m := u.message (u.g a) t false tail
  let (v, st) ← u.sendTo t m (fun w => w.arriveMessage t.core m)
  let done (w : State) : State := (if far then w.setSelf (fun x => { x with tail := none }) else w).wr d (st.setWidth 64)
  if st = 0 then .ok (done v).retire
  else
    -- the words come back as they were sent
    let w := done (v.refused (v.x b) (if k.isSome then 1 else 0) st)
    .ok (((((w.setG 4 m.w4).setG 5 m.w5).setG 6 m.w6).setG 7 m.w7).retire)

def execSend (d a b : BitVec 5) (s : State) : Host.Outcome State Fault Refusal := finish (s.send d a b none)
def execSendt (d a b : BitVec 5) (k : BitVec 4) (s : State) : Host.Outcome State Fault Refusal :=
  finish (s.send d a b (some k))

/-- SPAWN (R276): a refused one raises the inline depth. -/
def execSpawn (d a b : BitVec 5) (s : State) : Host.Outcome State Fault Refusal :=
  let c := s.g a
  finish (do
    if s.self.sent.isEmpty then
      match s.jumpClass c with
      | some k => .error (s.capTrap a k (.plain k c.addr))
      | none => pure ()
    let t ← s.target b true
    let m := s.message c t true []
    let (u, st) ←
      if t.device.isSome && !c.holds .fb then pure (s.sync t.scope, (1 : U16))
      else s.sendTo t m (fun w => w.arriveSpawn t.core s.self.owner m)
    if st = 0 then .ok ((u.wr d 0).retire)
    else if s.self.depth = 15 then .error ((s.setSelf (fun x => { x with sent := [], replies := [] })).trap 0x0E 0)
    else .ok (((u.setSelf (fun x => { x with depth := x.depth + 1 })).wr d (st.setWidth 64)).retire))

/-! ### Delegation (R279, R280) -/

/-- A request reaches a core's steward queue, unless it is full. -/
def State.queueSteward (s : State) (core : Nat) (m : Msg) : Option State :=
  let c := s.core core
  if c.steward.length < 32 then some (s.putCore { c with steward := c.steward ++ [m] }) else none

/-- A target as a number: the core, plus 8,192 × (1 + device) for another device. -/
def Target.code (t : Target) : Nat :=
  match t.device with
  | none => t.core
  | some d => t.core + 8192 * (d.toNat + 1)

/-- A request goes to its target; none where a full steward queue of this device returns it. -/
def State.sendRequest (s : State) (target : Nat) (m : Msg) : Option State :=
  if target < 8192 then s.queueSteward target m
  else some { s with out := s.out ++ [.message (BitVec.ofNat 14 (target / 8192 - 1)) (target % 8192) m.txn m] }

/-- The issuing slot's request reserves a reply entry and goes out; a full steward queue returns it for 1 µs. -/
def State.delegate (s : State) (d : BitVec 5) (t : Target) (m : Msg) (async : Bool) : State :=
  let c := s.myCore
  let s1 := (({ s with nextTxn := s.nextTxn + 1 }).putCore { c with replyEntries := c.replyEntries ++ [s.self.idx] }).setSelf
    (fun x => { x with delegated := some (d, async, m, t.code) })
  let s2 := s1.sync t.scope
  match s2.sendRequest t.code m with
  | some s3 => s3
  | none => s2.setSelf (fun x => { x with resend := some (s2.cycle + s2.clock) })

/-- DLG and DLGA. -/
def State.dlg (s : State) (d a b : BitVec 5) (async : Bool) : Run State :=
  if s.self.delegated.isSome then .ok (s.wait .delegate)
  else do
    s.entryCheck a 2
    let t ← s.target b false
    if t.device.any (fun x => !s.reaches x) then .ok (((s.sync t.scope).wr d 2).retire)
    else if 8 ≤ s.myCore.replyEntries.length then .ok (s.wait .delegate)
    else
      let u := s.delegate d t (s.message (s.g a) t false []) async
      .ok (if async then u.retire else u.wait .delegate)

def execDlg (d a b : BitVec 5) (s : State) : Host.Outcome State Fault Refusal := finish (s.dlg d a b false)
def execDlga (d a b : BitVec 5) (s : State) : Host.Outcome State Fault Refusal := finish (s.dlg d a b true)

/-- What a reply writes into a slot's registers (R279). -/
def Slot.takeReply (x : Slot) (d : BitVec 5) (r : Reply) : Slot :=
  ((((x.setG 4 r.w4).setG 5 r.w5).setG 6 r.w6).setG 7 r.w7).setG d (Cap.ofInt ((messageStatus r).setWidth 64))

/-- The reply has been written: acquire, and the entry is free. -/
def Slot.endDelegation (x : Slot) (d : BitVec 5) (m : Msg) (r : Reply) : Slot :=
  { (x.takeReply d r).closeSpan (if m.replyLocal then 2 else 3) with delegated := none, delegateReply := none, resend := none }

/-- A delegation reply writes the requester's registers; a DLG is then complete (R279). -/
def State.dlgReplied (s : State) (core idx : Nat) : State :=
  let x := s.slot core idx
  match x.delegated, x.delegateReply with
  | some (d, async, m, _), some r =>
    let c := s.core core
    let s1 := (s.putCore { c with replyEntries := c.replyEntries.erase idx }).switchTo core idx
    let s2 := s1.setSelf (fun y => y.endDelegation d m r)
    if async then s2 else s2.retire
  | _, _ => s

/-- The reply of a request whose slot was force-saved is written into the image, in its record and in the save area (R279). -/
def State.imageReplied (s : State) (core idx : Nat) : State :=
  let hit (i : Image) : Bool := i.slot.core == core && i.slot.idx == idx && i.slot.delegateReply.isSome
  match s.owners.find? (fun o => o.images.any hit) with
  | none => s
  | some o =>
    match o.images.find? hit with
    | none => s
    | some i =>
      match i.slot.delegated, i.slot.delegateReply with
      | some (d, _, m, _), some r =>
        let x := i.slot.endDelegation d m r
        let c := s.core core
        let s1 := (s.putCore { c with replyEntries := c.replyEntries.erase idx }).putOwner
          { o with images := o.images.map (fun j => if j = i then { j with slot := x } else j) }
        s1.patchImage o.id i x [d, 4, 5, 6, 7]
      | _, _ => s

/-- DLG_REPLY_ARRIVAL: at the slot, else at an image of it. -/
def execDlgReplyArrival (core slot : Nat) (s : State) : Host.Outcome State Fault Refusal :=
  if (s.slot core slot).delegateReply.isSome then .next (s.dlgReplied core slot) else .next (s.imageReplied core slot)

/-- A request that a full steward queue returned is sent again after 1 µs (R279). -/
def State.resent (s : State) (x : Slot) : Option (State × Option Nat) :=
  match x.resend, x.delegated with
  | some due, some (_, _, m, target) =>
    if s.cycle < due then none
    else
      match s.sendRequest target m with
      | some t => some (t, none)
      | none => some (s, some (s.cycle + s.clock))
  | _, _ => none

def State.resend (s : State) (core idx : Nat) : State :=
  match s.resent (s.slot core idx) with
  | some (t, r) => t.putSlot { t.slot core idx with resend := r }
  | none =>
    let hit (i : Image) : Bool := i.slot.core == core && i.slot.idx == idx && i.slot.resend.isSome
    match (s.owners.flatMap Owner.images).find? hit with
    | none => s
    | some i =>
      match s.resent i.slot with
      | none => s
      | some (t, r) =>
        { t with
          owners := t.owners.map (fun o => { o with
            images := o.images.map (fun j => if j = i then { j with slot := { j.slot with resend := r } } else j) }) }

def execDlgResend (core slot : Nat) (s : State) : Host.Outcome State Fault Refusal := .next (s.resend core slot)

/-- DLGRET (R280). -/
def execDlgret (s : State) : Host.Outcome State Fault Refusal :=
  if s.self.idx ≠ 8 then .next (s.trap 0x01 0)
  else
    let core := s.self.core
    match s.self.answers with
    | some m =>
      -- the end of the task ends the span for every agent: the release before the reply is that same cut (R117, R124)
      .next (((s.answer m 0 (s.g 4) (s.g 5) (s.g 6) (s.g 7)).endTask core 8 .tend).stewardStart core)
    | none => .next ((s.endTask core 8 .tend).stewardStart core)

/-! ### The TASK group (R282, R283) -/

/-- TEND (R282). -/
def execTend (s : State) : Host.Outcome State Fault Refusal :=
  if s.self.idx = 8 then .next (s.trap 0x01 0)
  else if s.self.depth = 0 then .next (s.endTask s.self.core s.self.idx .tend)
  else
    let c := s.g 1
    match s.jumpClass c with
    | some k => .next (s.capTrap 1 k (.plain k c.addr))
    | none => .next (((s.sync 3).setSelf (fun x => { x with depth := x.depth - 1 })).jumpTo c)

/-- TYIELD (R283): a pending cooperative pre-emption ends it at once with 3. -/
def execTyield (d a : BitVec 5) (s : State) : Host.Outcome State Fault Refusal :=
  match s.self.park with
  | .yield e limit cause =>
    if cause ≠ 0 then .next ((s.wr d (cause.setWidth 64)).passOn)
    else if s.past limit then .next ((s.wr d 0).passOn)
    else .next (s.wait (.yield e limit 0))
  | _ =>
    if s.self.coopDue then .next ((s.wr d 3).passOn)
    else
      let k := (s.x a).toNat % 2 ^ 32
      .next (s.wait (.yield d (if k = 0 then none else some (s.cycle + k)) 0))

/-- A TYIELD whose cycles have passed ends with 0. -/
def State.tyieldEnds (s : State) (core idx : Nat) : State :=
  let t := s.switchTo core idx
  match t.self.park with
  | .yield d limit 0 => if t.past limit then (t.wr d 0).passOn else s
  | _ => s

def execTyieldCycleLimit (core slot : Nat) (s : State) : Host.Outcome State Fault Refusal := .next (s.tyieldEnds core slot)

/-! ### Messages from elsewhere (R273, R277, R396) -/

/-- Reply to the device a message came from. -/
def State.replyStatus (s : State) (dev : BitVec 14) (txn : Nat) (status : U16) : State :=
  { s with
    out := s.out ++ [.reply dev { txn := txn, status := status, value := .zero, w4 := .zero, w5 := .zero, w6 := .zero
                                  w7 := .zero, detail := 0 }] }

/-- MESSAGE_ARRIVAL: a SEND or a delegation request from another device, told apart by its entry's object type; an entry that
arrives untagged is answered NO_ENTRY. -/
def execMessageArrival (core : Nat) (m : Msg) (s : State) : Host.Outcome State Fault Refusal :=
  let dev := m.origin.extractLsb' 13 14
  let m1 := { m with replyLocal := false }
  if Config.cores ≤ core then .next s
  else if !m.entry.tag then .next (s.replyStatus dev m.txn 5)
  else if m.entry.otype = 2 then
    match s.queueSteward core m1 with
    | some t => .next t
    -- a full steward queue returns the request to its sender, which sends it again (R279)
    | none => .next (s.replyStatus dev m.txn 1)
  else
    let r := s.arriveMessage core m1
    .next (r.1.replyStatus dev m.txn (if r.2 then 0 else 1))

/-- SPAWN_HANDLER: a SPAWN from another device, whose entry must have kept its tag (R276). -/
def execSpawnHandler (core : Nat) (r : FabricReq) (m : Msg) (s : State) : Host.Outcome State Fault Refusal :=
  if Config.cores ≤ core then .next s
  else if !m.entry.tag then .next (s.replyStatus r.device r.txn 1)
  else
    let a := s.arriveSpawn core r.owner { m with spawned := true, replyLocal := false }
    .next (a.1.replyStatus r.device r.txn (if a.2 then 0 else 1))

end Sys2Proof.Machine
end

