-- ==== Sys2Proof/Machine/Holdings.lean ====
section
/-! DEFINITION. Changes of holder (R44), scrubs (R45), recovery (R47 to R50), forced saves (R288, R365), lapse and dissolution of
owners (R53 to R55), and the events of the holdings units. -/
namespace Sys2Proof.Machine

/-! ### Terms and times (R46, R413) -/

def termsParty (t : U128) : U16 := t.extractLsb' 0 16
def termsKeep (t : U128) : Bool := t.getLsbD 16
def termsZero (t : U128) : BitVec 15 := t.extractLsb' 17 15
def termsBudget (t : U128) : Nat := (t.extractLsb' 32 32).toNat
def termsTerm (t : U128) : Nat := (t.extractLsb' 64 32).toNat
def termsTimeout (t : U128) : Nat := (t.extractLsb' 96 32).toNat

/-- The source word of the holdings unit: owner `o` (R313). -/
def State.holdSource (s : State) (o : U16) : U32 := s.source 2 o.toNat

/-! ### The slots concerned (R47) -/

/-- The core of a core or core-time entry, and its rota entry. -/
def resCore (id : U64) : Nat := if resKind id = 1 then resIndex id else resIndex id / 8
def resRota (id : U64) : Nat := resIndex id % 8
def isCoreKind (id : U64) : Bool := resKind id == 1 || resKind id == 2

/-- The slots of a core run for a core-time entry: its turn is the running one, or the owner is not the core's user. -/
def State.rotaConcerns (s : State) (id : U64) (owner : U16) : Bool :=
  let t := (s.core (resCore id)).turn
  resKind id == 1 || (t.phase != 0 && t.entry == resRota id) || s.coreUser (resCore id) != owner

/-- The slots of an owner that an entry's recovery concerns. -/
def State.entrySlots (s : State) (id : U64) (owner : U16) : List Slot :=
  if isCoreKind id && s.rotaConcerns id owner then
    s.slots.filter (fun x => x.running && x.core == resCore id && x.owner == owner && x.role != .porter)
  else []

/-- Each of some slots takes cooperative pre-emption at a vector, or at TRAPVEC when it is untagged (R47, R288). -/
def State.preempt (s : State) (l : List Slot) (vec : Cap) : State :=
  l.foldl (fun t x => t.putSlot { (t.slot x.core x.idx).noteYield t x.core 3 with coopDue := true, coopVec := vec }) s

/-! ### Forced saves (R47, R288, R365) -/

/-- A slot whose state can be saved now: its instruction does not wait for an answer that only its slot can take. -/
def Slot.savable (x : Slot) : Bool :=
  x.sent.isEmpty && x.swLater.isEmpty && !x.park.holding

/-- The slot as it is saved: a DLG that waits is complete, and its reply comes later (R279). -/
def Slot.forSave (x : Slot) : Slot :=
  match x.delegated, x.park with
  | some (d, false, m, t), .delegate =>
    { x with
      delegated := some (d, true, m, t), park := .no, winDone := x.winDone ||| doneBit x.winStart x.pcc.addr
      pcc := x.pcc.moveCursor (x.pcc.addr + 4) }
  | _, _ => { x with park := .no }

/-- Force-save a slot, for the turn it waits for: the bytes saved; without room its state is discarded and its task aborted. -/
def State.forceSave (s : State) (core idx : Nat) (turn : Option Nat) : State × Nat :=
  let x := s.slot core idx
  if !x.savable then (s, 0)
  else
    -- a saved slot 0 has no lease, no request and no locked tile (R366)
    let s1 := if idx = 0 then (s.budgetDrain core).withdraw core else s
    let y := { x.forSave with coopDue := false, coopVec := .zero }
    match s1.saveImage y false turn with
    | some t => (t.putSlot x.freed, imageSize idx false)
    | none => ((s1.putSlot y).abort core idx 3 0x15, 0)

/-- Force-save every slot of a list: the state and the bytes saved. -/
def State.forceSaves (s : State) (l : List Slot) (turn : Option Nat) : State × Nat :=
  l.foldl (fun r x =>
    let t := r.1.forceSave x.core x.idx turn
    (t.1, r.2 + t.2)) (s, 0)

/-! ### Scrubs (R45) -/

/-- The per-core registers 0x100 to 0x1FF, the tiles, the queue bindings and the write monitors of a core (R45, R289). -/
def State.scrubCoreRegs (s : State) (core : Nat) : State :=
  let s1 := (List.range 6).foldl (fun t k => t.unbindQ core k) (s.budgetDrain core)
  let c := s1.core core
  s1.putCore { c with
    lease := .none
    shapes := Vector.replicate 8 0, tiles := Vector.replicate 8 0, strips := Vector.replicate 8 0, larg := .zero
    chain := Vector.replicate 4 0, watch := Vector.replicate 8 0, monitors := Vector.replicate 4 none }

/-- The registers of the slots of a core that run nothing, or the porter; span numbers and marks go on (R124). -/
def State.scrubSlots (s : State) (core : Nat) (idx : List Nat) : State :=
  idx.foldl (fun t i =>
    let x := t.slot core i
    if x.running && x.role != .porter then t
    else t.putSlot { Slot.blank core i with agent := x.agent, span := x.span, marks := x.marks }) s

/-- Waiting delegation requests are answered RECLAIMED when a core changes holder (R279). -/
def State.reclaimRequests (s : State) (core : Nat) : State :=
  let c := s.core core
  c.steward.foldl (fun t m => t.answer m 3 .zero .zero .zero .zero) (s.putCore { c with steward := [] })

/-- A core's inbox, with what overflowed from it. -/
def State.scrubInbox (s : State) (core : Nat) : State :=
  s.putCore { s.core core with inbox := [], overflow := false, overflowed := [], reserved := [] }

/-- An engine context's commands complete RECLAIMED for the old owner; launches that have been accepted run on (R45, R49). -/
def State.scrubCtx (s : State) (ci : Nat) (owner : U16) : State :=
  let x := s.ctx ci
  let launched (c : Cmd) : Bool := s.launches.any (fun l => l.ctx == ci && l.number == c.number)
  let l := x.waiting ++ x.active.filter (fun c => !launched c) ++ x.parked.map ParkedCmd.cmd
  let t := l.foldl (fun t c => t.complete owner ci c 0x0B (some 0) (some c.detail1)) s
  let y := t.ctx ci
  { (t.putCtx { y with recvs := [], flights := [], flows := [], entropy := [] }) with
    releases := t.releases.filter (fun r => r.ctx != ci) }

/-- What an owner has left on a core through a core-time entry: its turn is the running one; or it ran there without turns, and nothing
else does. -/
def State.rotaFinds (s : State) (id : U64) (owner : U16) : Bool :=
  let t := (s.core (resCore id)).turn
  (t.phase != 0 && t.entry == resRota id)
    || (t.phase == 0 && s.coreUser (resCore id) != owner
      && !(s.slots.any (fun x => x.running && x.core == resCore id && x.role != .porter)))

/-- Scrub a resource that leaves an owner (R45). -/
def State.scrub (s : State) (id : U64) (owner : U16) : State :=
  let i := resIndex id
  match resKind id with
  | 1 => ((s.scrubSlots i (List.range 10)).scrubCoreRegs i).scrubInbox i
  | 2 =>
    -- the inbox is the core's user's (R289)
    let t := if s.rotaFinds id owner then (s.scrubCoreRegs (i / 8)).scrubSlots (i / 8) (List.range 8) else s
    if s.rotaFinds id owner && s.coreUser (i / 8) == owner then t.scrubInbox (i / 8) else t
  | 3 => s.zeroFrame id
  | 4 => s.zeroFrame id
  | 6 => s.scrubCtx i owner
  | 7 => s.putHostq (HostQ.blank i)
  | 8 => { s with keys := dropBy (fun x : Nat × BitVec 256 => x.1) i s.keys }
  | 9 => s.loseUnit i owner
  | 10 =>
    let c := s.core i
    let t := s.putCore { c with events := [], held := [] }
    t.ctxs.foldl (fun t x => t.advanceAll x.idx) t
  | 11 => s.zeroFrame id
  | _ => s

/-! ### Sweeps of a recovery (R380) -/

/-- A command block as hardware places it: a code and two integers. -/
def State.placeBlock (s : State) (ci code w0 w2 : Nat) : State × Nat :=
  (s.accept ci (Cap.ofInt (BitVec.ofNat 64 w0)) .zero { bits := BitVec.ofNat 128 w2, tag := false } { bits := BitVec.ofNat 128 code, tag := false } none none,
    (s.ctx ci).accepted + 1)

/-- The lowest sweep context of a die that an owner holds. -/
def State.sweepCtx (s : State) (owner : U16) (die : Nat) : Option Nat :=
  ((List.range 1024).map (fun n => die * 8192 + 6 * 1024 + n)).find? (fun ci => s.holds owner (mkRes 6 ci))

/-- Units come under a sweep: on a context, with its number, or outside any. -/
def State.sweepOn (s : State) (units : List Unit30) (ctx : Option Nat) (first : U64) : State × Nat :=
  let r := match ctx with
    | some ci => s.placeBlock ci 0x60 first.toNat units.length
    | none => (s, 0)
  let t : State := { r.1 with
    nextId := s.nextId + 1
    revoked := r.1.revoked ++ units.filter (fun u => !r.1.revoked.contains u)
    sweeps := r.1.sweeps ++ [{ id := s.nextId, units := units, ctx := ctx, number := r.2, scanBy := some (s.us + 64) }] }
  (t.revokeParked, r.2)

/-! ### Beginning -/

/-- How a resource passes. -/
structure Passing where
  taker : U16
  fromOwner : U16
  returned : Bool
  record : Bool
  keep : Bool
  /-- a recovery, not a change of holder that both parties agreed to -/
  recovery : Bool
deriving DecidableEq, Repr

/-- Step 1 of R44 and of R47: the old party's use of the resource ends. -/
def State.endUse (s : State) (id : U64) (owner : U16) : State :=
  let i := resIndex id
  match resKind id with
  | 3 => s.dropBacking id
  | 11 => s.dropBacking id
  | 4 => s.dropRights true i
  | 5 => s.dropSegment i
  | 8 =>
    let segs := (s.rights.filter (fun e => !e.frame && e.sealedSeg && e.key.toNat == i)).map Rights.index
    let t := segs.foldl (fun t i => t.writeBackSeg i) s
    State.freeClasses { t with rights := t.rights.filter (fun e => e.frame || !segs.contains e.index) }
  | 1 => s.budgetDrain i
  | 2 => if (s.core (i / 8)).lease.owner == owner && s.rotaConcerns id owner then s.budgetDrain (i / 8) else s
  | _ => s

/-- The vector of a recovery's cooperative pre-emption (R47). -/
def State.coopVector (s : State) (id : U64) : Cap :=
  if resKind id = 2 then
    match (s.core (resCore id)).rota[resRota id]? with
    | some r => r.handler
    | none => .zero
  else .zero

/-- A change of holder or a recovery begins; `st` is the entry's state meanwhile (R44, R47, R380). -/
def State.beginPassing (s : State) (e : Entry) (st : HState) (p : Passing) : State :=
  let id := e.id
  let concerned := s.entrySlots id p.fromOwner
  let s1 := (s.endUse id p.fromOwner).preempt concerned (s.coopVector id)
  let sweeps := resKind id == 5 || (resKind id == 4 && p.recovery)
  let ctx := if p.recovery then s1.sweepCtx p.taker (homeDie id) else none
  let r := if sweeps then s1.sweepOn [unitOf id] ctx id else (s1, 0)
  r.1.putEntry { e with
    state := st
    recovery := some
      { taker := p.taker, fromOwner := p.fromOwner, returned := p.returned, record := p.record
        keep := p.keep && resKind id != 5 && resKind id != 6 && resKind id != 8
        sweep := if sweeps then ctx else none, number := r.2, forced := !(isCoreKind id), saved := 0
        budgetEnd := s.ratedNow + termsBudget e.terms, budgetDone := concerned.isEmpty } }

/-! ### Finishing -/

/-- Whether everything a change of holder or a recovery waits for has happened. -/
def State.passingReady (s : State) (e : Entry) (r : Recovery) : Bool :=
  (s.entrySlots e.id r.fromOwner).isEmpty && (!isRevUnit e.id || !s.revoked.contains (unitOf e.id))

/-- The entry's next state: held, lent, or lapsed with a holder that has lapsed. -/
def State.passed (s : State) (e : Entry) (r : Recovery) : Entry :=
  let done := { e with recovery := none, deadline := none }
  -- a borrower that lapses before its ACCEPT is over borrows as one that lapses after it (R42)
  if e.state = .offeredLoan then { done with state := .lent, other := r.taker, lapsedBorrower := s.lapsed r.taker }
  else
    { done with
      state := if s.lapsed r.taker then .lapsed else .held
      holder := r.taker, other := 0, terms := 0, termEnd := none, termPosted := false, keepBoth := false
      lapsedBorrower := false, inherited := false }

/-- The reclaim record (R48). -/
def State.reclaimRecord (s : State) (e : Entry) (r : Recovery) (status : Nat) : State :=
  s.notice r.taker
    { kind := 5, status := BitVec.ofNat 16 status, source := s.holdSource r.fromOwner
      number := BitVec.ofNat 64 r.number, d0 := e.id, d1 := BitVec.ofNat 64 r.saved }

/-- A frame's own entry in the store, for whoever may use it (R58, R411); that of the house has the place it had at reset. -/
def State.frameEntry (s : State) (e : Entry) : State :=
  let f := resIndex e.id
  if e.user = 0 || e.user = Config.house then s
  else { s with rights := s.rights ++ [{ Rights.frameOwn e.user f with pos := (s.rightsPos e.user true f).getD (2 ^ 20) }] }

/-- What a new holder of a kind finds: a frame its own entry; an engine context has a new generation (R49), borrowed core-time its budget (R287). -/
def State.installed (s : State) (e : Entry) : State :=
  match resKind e.id with
  | 4 => s.frameEntry e
  | 6 =>
    let c := s.ctx (resIndex e.id)
    s.putCtx { c with gen := c.gen + 1 }
  | 2 =>
    if e.state = .lent then
      let c := s.core (resCore e.id)
      s.putCore { c with
        rota := c.rota.mapFinIdx (fun k x _ =>
          if k = resRota e.id then { x with budget := BitVec.ofNat 32 (termsBudget e.terms) } else x) }
    else s
  | _ => s

/-- A slice image of an entry that leaves its owner waits for a core; a yield image is final (R368, R369). -/
def State.releaseImages (s : State) (id : U64) (owner : U16) : State :=
  if resKind id ≠ 2 then s
  else
    match s.owner owner with
    | none => s
    | some o =>
      let mine (i : Image) : Bool := i.turn == some (resIndex id)
      let gone := o.images.filter (fun i => mine i && i.isYield)
      let rest := (o.images.filter (fun i => !(mine i && i.isYield))).map (fun i => if mine i then { i with turn := none } else i)
      gone.foldl (fun t i => t.afterTask i.slot .discard) (s.putOwner { o with images := rest })

/-- A change of holder or a recovery ends: scrub, new holder, record (R44, R47, R48, R382). -/
def State.finishPassing (s : State) (e : Entry) (r : Recovery) : State :=
  let s0 := if resKind e.id = 1 then s.reclaimRequests (resIndex e.id) else s
  let s1 := if r.keep then s0 else s0.scrub e.id r.fromOwner
  let e1 := s1.passed e r
  let s2 := ((s1.releaseImages e.id r.fromOwner).putEntry e1).installed e1
  if r.record then s2.reclaimRecord e r (if r.returned then 1 else if r.forced then 3 else 2) else s2

/-- Finish an entry's change if it is ready; sweeps outside any context are run first. -/
def State.settleEntry (s : State) (id : U64) : State :=
  let s1 := if isRevUnit id then s.runLooseSweeps (unitOf id) else s
  let e := s1.entry id
  match e.recovery with
  | some r => if s1.passingReady e r then s1.finishPassing e r else s1
  | none => s1

/-- Whether an entry's change could finish now. -/
def State.canSettle (s : State) (e : Entry) : Bool :=
  match e.recovery with
  | some r =>
    (s.entrySlots e.id r.fromOwner).isEmpty
      && (!isRevUnit e.id || !s.revoked.contains (unitOf e.id)
        || s.sweeps.any (fun w => w.ctx.isNone && w.units.contains (unitOf e.id)))
  | none => false

/-! ### Dissolving an owner (R54, R55) -/

/-- The first live owner along the chain of heirs; the house ends every chain. -/
def State.successorFrom (s : State) (x : U16) : Nat → U16
  | 0 => Config.house
  | k + 1 =>
    match s.owner x with
    | none => Config.house
    | some o => if o.lapsed || o.dissolving.isSome then s.successorFrom o.heir k else x
def State.successor (s : State) (o : Owner) : U16 := s.successorFrom o.heir s.owners.length

/-- An offer is withdrawn: held by its giver again. -/
def Entry.withdrawn (e : Entry) : Entry := { e with state := .held, other := 0, terms := 0, deadline := none, keepBoth := false }

/-- One entry meets the dissolution of owner X in favour of S: at OWNEND a change of holder, at CLAIM a recovery (R42). An entry whose
change is under way passes when that is over; one that X recovers goes to S. -/
def State.passEntry (s : State) (x taker : U16) (e0 : Entry) : State :=
  let e := s.entry e0.id
  let claimed := s.lapsed x
  let pass (e : Entry) (st : HState) (target fromOwner : U16) (rec0 recovery : Bool) : State :=
    (s.beginPassing e st { taker := target, fromOwner := fromOwner, returned := false, record := rec0, keep := false
                           recovery := recovery }).settleEntry e.id
  if e.id == mkRes 12 x.toNat then s
  else
    match e.recovery with
    | some r =>
      if r.taker == x && e.state == .recalling then
        s.putEntry { e with recovery := some { r with taker := taker }, holder := if e.holder == x then taker else e.holder }
      else s
    | none =>
      match e.state with
      | .lent =>
        if e.other == x then pass e .recalling e.holder x true true
        else if e.holder == x then
          let e1 := { e with holder := taker, inherited := true }
          if e1.termPosted then pass e1 .recalling taker e1.other true true else s.putEntry e1
        else s
      | .retired => s
      | .recalling => s
      | _ =>
        if e.holder == x then pass e.withdrawn (if claimed then .recalling else .held) taker x false claimed
        else if e.other == x then s.putEntry e.withdrawn
        else s

/-- The entries that an owner is a party of, its own slot apart. -/
def State.partyOf (s : State) (x : U16) : List Entry :=
  s.entries.filter (fun e => e.id != mkRes 12 x.toNat && e.state != .retired
    && (match e.recovery with
      | some r => r.fromOwner == x || r.taker == x
      | none => e.holder == x || (e.other == x && e.state != .held && e.state != .lapsed)))

/-- Dissolution begins: pending images are discarded, every entry starts to pass (R54, R369). -/
def State.beginDissolve (s : State) (x taker : U16) : State :=
  match s.owner x with
  | none => s
  | some o =>
    let l := s.partyOf x
    let s0 := s.putOwner { o with images := [], dissolving := some (taker, l.length + 1), seed := none }
    -- what was on its way to X goes on to its successor
    let s1 := { s0 with
      owners := s0.owners.map (fun y => { y with dissolving := y.dissolving.map (fun d => if d.1 == x then (taker, d.2) else d) }) }
    let s2 := o.images.foldl (fun t i => t.afterTask i.slot .discard) s1
    l.foldl (fun t e => t.passEntry x taker e) s2

/-- The dissolution of X goes on with entries that a change of holder has brought it meanwhile. -/
def State.goOnDissolve (s : State) (x taker : U16) : State :=
  ((s.partyOf x).filter (fun e => e.recovery.isNone)).foldl (fun t e => t.passEntry x taker e) s

/-- The end of a dissolution: the owner slot passes, heirs are replaced, CLAIM hears of it; no record refers to X any more (R54, R55). -/
def State.endDissolve (s0 : State) (x : U16) : State :=
  match s0.owner x with
  | none => s0
  | some o =>
    match o.dissolving with
    | none => s0
    | some (taker, n) =>
      let s := s0.goOnDissolve x taker
      if !(s.partyOf x).isEmpty then s
      else
        let told (y : Slot) : Slot := match y.park with
          | .claim z none => if z == x then { y with park := .claim z (some n) } else y
          | _ => y
        let t := s.putEntry { Entry.atReset (mkRes 12 x.toNat) with
          holder := taker, state := if s.lapsed taker then .lapsed else .held }
        { t with
          classes := t.classes.map (fun k => if k.owner == x then { k with owner := 0 } else k)
          endpoints := t.endpoints.filter (fun p => p.owner != x)
          faultsHeld := t.faultsHeld.filter (fun f => f.1 != x)
          entries := t.entries.map (fun e => if e.state == .retired && e.holder == x then { e with holder := taker } else e)
          self := told s.self, others := s.others.map told
          launches := s.launches.filter (fun l => l.owner != x)
          owners := (dropBy ownerKey x.toNat s.owners).map (fun y =>
            if y.heir == x then { y with heir := if o.heir == y.id then Config.house else o.heir } else y) }

/-! ### Lapse, deadlines, terms, retirement (R42, R53) -/

/-- Whether an offer's deadline has passed. -/
def State.offerOver (s : State) (e : Entry) : Bool :=
  (e.state == .offered || e.state == .offeredLoan) && e.recovery.isNone
    && (match e.deadline with
      | some d => s.timeUp d e.frac
      | none => false)

/-- OFFER_DEADLINE. -/
def State.applyDeadline (s : State) (id : U64) : State :=
  if s.offerOver (s.entry id) then s.putEntry (s.entry id).withdrawn else s

def execOfferDeadline (res : U64) (s : State) : Host.Outcome State Fault Refusal := .next (s.applyDeadline res)

/-- Whether a loan's term has ended without its record. -/
def State.termOver (s : State) (e : Entry) : Bool :=
  e.state == .lent && !e.termPosted
    && (match e.termEnd with
      | some d => s.timeUp d e.frac
      | none => false)

/-- TERM_END: the term-expired record; an INHERITED loan is recovered (R42, R381). -/
def State.endTerm (s : State) (id : U64) : State :=
  let e := s.entry id
  if !s.termOver e then s
  else
    let s1 := (s.putEntry { e with termPosted := true }).notice e.holder
      { kind := 11, status := 0, source := s.holdSource e.other, number := 0, d0 := id
        d1 := BitVec.ofNat 64 (e.termEnd.getD 0) }
    if e.inherited then
      (s1.beginPassing { e with termPosted := true } .recalling
        { taker := e.holder, fromOwner := e.other, returned := false, record := true, keep := false
          recovery := true }).settleEntry id
    else s1

def execTermEnd (res : U64) (s : State) : Host.Outcome State Fault Refusal := .next (s.endTerm res)

/-- An entry when an owner lapses (R42). -/
def Entry.whenLapsed (x : U16) (e : Entry) : Entry :=
  if e.recovery.isSome then e
  else
    match e.state with
    | .held => if e.holder == x then { e with state := .lapsed } else e
    | .lent => if e.other == x then { e with lapsedBorrower := true } else e
    | .offered => if e.holder == x then { e.withdrawn with state := .lapsed } else if e.other == x then e.withdrawn else e
    | .offeredLoan => if e.holder == x then { e.withdrawn with state := .lapsed } else if e.other == x then e.withdrawn else e
    | _ => e

/-- OWNER_LAPSE: the fields of the record that the manual does not state are free values. -/
def State.lapse (s : State) (x : U16) : State :=
  match s.owner x with
  | none => s
  | some o =>
    if !s.lapseDue o then s
    else
      let s1 := { (s.putOwner { o with lapsed := true }) with entries := s.entries.map (Entry.whenLapsed x), free := s.free + 1 }
      s1.notice o.heir
        { kind := 8, status := (Config.free (4 * s.free)).setWidth 16, source := s.holdSource x
          number := Config.free (4 * s.free + 1), d0 := Config.free (4 * s.free + 2), d1 := Config.free (4 * s.free + 3) }

/-- Every owner whose interval has passed lapses: each unit applies a lapse before any later request (R53). -/
def State.lapses (s : State) : State := s.owners.foldl (fun t o => t.lapse o.id) s

def execOwnerLapse (owner : U16) (s : State) : Host.Outcome State Fault Refusal := .next (s.lapse owner)

/-- A frame is retired by the device; a loan of it ends with a reclaim record (R42, R50, R373). The entry keeps its last holder,
for whom SCRUB lists the frame as withdrawn (R57; log 33). -/
def State.retireEntry (s : State) (id : U64) : State :=
  let e := s.entry id
  let gone := { Entry.atReset id with state := .retired, holder := e.holder }
  match e.recovery, e.state with
  | _, .retired => s
  | some r, _ => if r.record then (s.putEntry gone).reclaimRecord e { r with number := 0, saved := 0 } 3 else s.putEntry gone
  | none, .lent =>
    (s.putEntry gone).reclaimRecord e
      { taker := e.holder, fromOwner := e.other, returned := false, record := true, keep := false, sweep := none, number := 0
        forced := true, saved := 0, budgetEnd := 0, budgetDone := true } 3
  | none, _ => s.putEntry gone

/-- More than 1% of the HBM frames are retired (R5). -/
def State.countRetired (s : State) : State :=
  let n := (s.entries.filter (fun e => e.state == .retired && resKind e.id == 3)).length
  if Config.hbmFrames < 100 * n then { s with devstat := s.devstat ||| 3 } else s

/-! ### Events of a recovery -/

/-- Whether the save budget of an entry's recovery has passed with slots not done. -/
def State.budgetOver (s : State) (e : Entry) : Bool :=
  match e.recovery with
  | some r => !r.budgetDone && decide (r.budgetEnd ≤ s.ratedNow) && (s.entrySlots e.id r.fromOwner).any Slot.savable
  | none => false

/-- RECOVERY_BUDGET_END (R47). -/
def State.endBudget (s : State) (id : U64) : State :=
  let e := s.entry id
  if !s.budgetOver e then s
  else
    match e.recovery with
    | none => s
    | some r =>
      let t := s.forceSaves (s.entrySlots id r.fromOwner) none
      let e1 := t.1.entry id
      t.1.putEntry { e1 with
        recovery := some { r with forced := true, saved := r.saved + t.2
                                  budgetDone := (t.1.entrySlots id r.fromOwner).isEmpty } }

def execRecoveryBudgetEnd (res : U64) (s : State) : Host.Outcome State Fault Refusal := .next (s.endBudget res)

/-- RECOVERY_COMPLETE (R44, R48), and the end of a dissolution that it completes (R54). -/
def State.completeRecovery (s : State) (id : U64) : State :=
  let t := s.settleEntry id
  t.owners.foldl (fun u o => if o.dissolving.isSome then u.endDissolve o.id else u) t

def execRecoveryComplete (res : U64) (s : State) : Host.Outcome State Fault Refusal := .next (s.completeRecovery res)

end Sys2Proof.Machine
end

