-- ==== Sys2Proof/Machine/Memory.lean ====
section
/-! DEFINITION. The scalar and capability loads and stores: LOAD, STORE (R196, R197), LC and SC (R198). -/
namespace Sys2Proof.Machine

/-- ea of an M-format operand of size `n`. -/
def State.mea (s : State) (a : BitVec 5) (i : BitVec 12) (n : Nat) : U64 := s.x a + i.signExtend 64 * BitVec.ofNat 64 n

/-- A load: `f` makes the register value of the bytes. -/
def State.load (s : State) (d a : BitVec 5) (i : BitVec 12) (n : Nat) (f : Nat → U64) : Host.Outcome State Fault Refusal :=
  finish (match s.loadData a (s.mea a i n) n with
    | .error t => .error t
    | .ok (t, v) => .ok ((t.wr d (f v)).retire))

/-- A store of the low bytes of gd. -/
def State.store (s : State) (d a : BitVec 5) (i : BitVec 12) (n : Nat) : Host.Outcome State Fault Refusal :=
  finish (match s.saveData a (s.mea a i n) n (s.x d).toNat with
    | .error t => .error t
    | .ok t => .ok t.retire)

def execLb (d a : BitVec 5) (i : BitVec 12) (s : State) : Host.Outcome State Fault Refusal := s.load d a i 1 (sextBytes 1)
def execLh (d a : BitVec 5) (i : BitVec 12) (s : State) : Host.Outcome State Fault Refusal := s.load d a i 2 (sextBytes 2)
def execLw (d a : BitVec 5) (i : BitVec 12) (s : State) : Host.Outcome State Fault Refusal := s.load d a i 4 (sextBytes 4)
def execLd (d a : BitVec 5) (i : BitVec 12) (s : State) : Host.Outcome State Fault Refusal :=
  s.load d a i 8 (BitVec.ofNat 64)
def execLbn (d a : BitVec 5) (i : BitVec 12) (s : State) : Host.Outcome State Fault Refusal :=
  s.load d a i 1 (BitVec.ofNat 64)
def execLhn (d a : BitVec 5) (i : BitVec 12) (s : State) : Host.Outcome State Fault Refusal :=
  s.load d a i 2 (BitVec.ofNat 64)
def execLwn (d a : BitVec 5) (i : BitVec 12) (s : State) : Host.Outcome State Fault Refusal :=
  s.load d a i 4 (BitVec.ofNat 64)
def execSb (d a : BitVec 5) (i : BitVec 12) (s : State) : Host.Outcome State Fault Refusal := s.store d a i 1
def execSh (d a : BitVec 5) (i : BitVec 12) (s : State) : Host.Outcome State Fault Refusal := s.store d a i 2
def execSw (d a : BitVec 5) (i : BitVec 12) (s : State) : Host.Outcome State Fault Refusal := s.store d a i 4
def execSd (d a : BitVec 5) (i : BitVec 12) (s : State) : Host.Outcome State Fault Refusal := s.store d a i 8

/-- LC (R198). -/
def execLc (d a : BitVec 5) (i : BitVec 12) (s : State) : Host.Outcome State Fault Refusal :=
  let c := s.g a
  let ea := s.mea a i 16
  finish (do
    s.capCheck a c ea 16 [.r] true
    match s.site ea with
    | .here m =>
      let x := s.acc m 16 true false false
      s.accCheck x ea
      let v := s.seenCap s.me m
      .ok ((((s.looked s.me m 16).access x id).setG d { v with tag := s.loadedTag c v (s.rightC m) ea }).retire)
    | .there dev o =>
      let (t, rep) ← s.remoteRead dev ea 16 false (fun t => .load dev { s.request o 16 with txn := t, capability := true })
      .ok ((t.setG d { rep.value with tag := s.loadedTag c rep.value true ea }).retire))

/-- SC (R198): its permission and rights traps come before any byte is written. -/
def execSc (d a : BitVec 5) (i : BitVec 12) (s : State) : Host.Outcome State Fault Refusal :=
  let c := s.g a
  let v := s.g d
  let ea := s.mea a i 16
  finish (do
    s.capCheck a c ea 16 [.w] true
    match s.site ea with
    | .here m =>
      let x := s.acc m 16 false true false
      if s.accErr x == some .rights then s.accCheck x ea
      s.scRule c v ea (s.rightC m)
      s.accCheck x ea
      .ok ((s.access x (fun t => t.storeCap m v (s.storedTag v ea))).retire)
    | .there dev o =>
      s.scRule c v ea true
      let t ← s.remoteWrite dev ea 16 false (fun t => .store dev { s.request o 16 with
        txn := t, capability := true, tagged := v.tag, data := { v with tag := s.storedTag v ea } })
      .ok t.retire)

end Sys2Proof.Machine
end

