-- ==== Sys2Proof/Machine/Hold.lean ====
section
/-! DEFINITION. The HOLD group: GIVE, ACCEPT, DECLINE, LEND, RETURN, RECLAIM (R332, R333), HQUERY (R334), the owner members
(R335). -/
namespace Sys2Proof.Machine

/-! ### Statuses (R41, R331) -/

/-- A status and its detail written to gd; the instruction is complete. -/
def State.status (s : State) (d : BitVec 5) (code detail : Nat) : State :=
  (s.setG d { bits := swStatus code detail, tag := false }).retire

/-- A refusal: it synchronises as every HOLD member does (R336), and changes nothing else. -/
def State.refuse (s : State) (d : BitVec 5) (code detail : Nat) : Run State := .error ((s.sync 2).status d code detail)

def State.meOwner (s : State) : U16 := s.self.owner

/-- Steps 1 and 2 of R333. -/
def State.holdStart (s : State) (d : BitVec 5) (id : U64) : Run Unit :=
  if !resValid id then (s.refuse d 4 0).map (fun _ => ())
  else if s.lapsed s.meOwner then (s.refuse d 10 0).map (fun _ => ())
  else .ok ()

/-- A unit serialises the changes to an entry: while it changes holder, another operation waits (R37). -/
def State.unitBusy (s : State) (e : Entry) : Run Unit :=
  if e.recovery.isSome && e.state != .recalling then .error (s.wait (.unit e.id)) else .ok ()

/-- The entry as the unit sees it: lapses, deadlines and term ends that have passed are applied first (R50, R53). -/
def State.fresh (s : State) (id : U64) : State := (s.lapses.applyDeadline id).endTerm id

def refuseU (s : State) (d : BitVec 5) (code detail : Nat) : Run Unit := (s.refuse d code detail).map (fun _ => ())

/-! ### GIVE and LEND -/

/-- The sweep number of a unit under sweep: the latest (R34). -/
def State.sweepNumber (s : State) (u : Unit30) : Nat :=
  ((s.sweeps.filter (fun w => w.units.contains u)).getLast?.map Sweep.number).getD 0

/-- A core-time slice below budget / 1,750 + 2 µs (R46, R341, R413). -/
def sliceTooShort (slice budget : Nat) : Bool := slice != 0 && decide (slice * Config.ratedMHz < budget + 2 * Config.ratedMHz)

def State.rotaOf (s : State) (id : U64) : Rota := ((s.core (resCore id)).rota[resRota id]?).getD .blank

/-- Step 5 of R333 for GIVE and LEND (R46). -/
def State.badTerms (s : State) (id : U64) (t : U128) (lend : Bool) : Bool :=
  let p := termsParty t
  termsZero t != 0 || p == 0 || p == s.meOwner || !s.lives p
    || (resKind id == 12 && (lend || resIndex id == s.meOwner.toNat))
    || (lend && termsTerm t == 0)
    || (lend && resKind id == 2 && sliceTooShort (s.rotaOf id).slice.toNat (termsBudget t))

/-- Step 6 of R333. -/
def State.inUse (s : State) (id : U64) : Bool :=
  match resKind id with
  | 8 => s.keyInUse (resIndex id)
  | 9 => s.wayPins (resIndex id / 32) (resIndex id % 32)
  | _ => false

/-- The seed that the issuer's OWNNEW has just passed on: the two meet at the units (R350; log 99). -/
def State.justFounded (s : State) (e : Entry) : Bool :=
  match s.owner e.holder with
  | some o => o.founded == some (s.meOwner, e.id, s.us)
  | none => false

/-- GIVE and LEND. -/
def State.offer (s : State) (d a b : BitVec 5) (lend : Bool) : Run State := do
  let id := s.x a
  s.holdStart d id
  let u := s.fresh id
  let e := u.entry id
  let terms := (s.g b).bits
  let me := s.meOwner
  u.unitBusy e
  if e.state = .lent ∧ e.other = me then refuseU u d 5 0
  match e.state with
  | .held =>
    if u.justFounded e then refuseU u d 2 1
    if e.holder ≠ me then refuseU u d 1 0
  | .lent => refuseU u d 1 0
  | st => refuseU u d 2 st.code
  if u.badTerms id terms lend then refuseU u d 6 0
  if u.inUse id then refuseU u d 16 0
  if isRevUnit id && u.revoked.contains (unitOf id) then refuseU u d 7 (u.sweepNumber (unitOf id))
  let t := (u.sync 2).putEntry { e with
    state := if lend then .offeredLoan else .offered, other := termsParty terms, terms := terms
    deadline := if termsTimeout terms = 0 then none else some (u.us + termsTimeout terms)
    frac := u.nowFrac }
  .ok ((t.notice (termsParty terms)
    { kind := 12, status := if lend then 1 else 0, source := t.holdSource me, number := 0, d0 := id
      d1 := if lend then BitVec.ofNat 64 (termsTerm terms) else 0 }).status d 0 0)

def execGive (d a b : BitVec 5) (s : State) : Host.Outcome State Fault Refusal := finish (s.offer d a b false)
def execLend (d a b : BitVec 5) (s : State) : Host.Outcome State Fault Refusal := finish (s.offer d a b true)

/-! ### ACCEPT and DECLINE -/

/-- The party check of an operation on an offer (R42). -/
def State.offerParty (s : State) (d : BitVec 5) (e : Entry) (party : Entry → U16) : Run Unit :=
  match e.state with
  | .offered => if party e ≠ s.meOwner then refuseU s d 1 0 else .ok ()
  | .offeredLoan => if party e ≠ s.meOwner then refuseU s d 1 0 else .ok ()
  | st => refuseU s d 2 st.code

/-- ACCEPT: the change of holder runs at the unit; the instruction parks until it is over (R44, R336). -/
def execAccept (d a b : BitVec 5) (s : State) : Host.Outcome State Fault Refusal :=
  let id := s.x a
  let finished (t : State) : State :=
    if (t.entry id).recovery.isNone then (t.sync 2).status d 0 0 else t.wait (.change id)
  if s.self.park = .change id then .next (finished s)
  else
    finish (do
      s.holdStart d id
      let u := s.fresh id
      let e := u.entry id
      u.unitBusy e
      u.offerParty d e Entry.other
      if s.x b &&& ~~~(0x10000#64) ≠ 0 then refuseU u d 6 0
      let loan := e.state == .offeredLoan
      let keep := termsKeep e.terms && (s.x b).getLsbD 16
      let e1 := { e with
        keepBoth := keep, deadline := none, termEnd := if loan then some (u.us + termsTerm e.terms) else none
        frac := u.nowFrac }
      .ok (finished ((u.beginPassing e1 e.state
        { taker := u.meOwner, fromOwner := e.holder, returned := false, record := false, keep := keep
          recovery := false }).settleEntry id)))

/-- DECLINE. -/
def execDecline (d a : BitVec 5) (s : State) : Host.Outcome State Fault Refusal :=
  finish (do
    let id := s.x a
    s.holdStart d id
    let u := s.fresh id
    let e := u.entry id
    u.unitBusy e
    u.offerParty d e Entry.other
    .ok (((u.sync 2).putEntry e.withdrawn).status d 0 0))

/-! ### RETURN and RECLAIM -/

/-- A loan's recovery begins: OK with the low half of the sweep number, and then recovery goes on (R333). -/
def State.recall (s : State) (d : BitVec 5) (e : Entry) (returned : Bool) : State :=
  let t := (s.sync 2).beginPassing e .recalling
    { taker := e.holder, fromOwner := e.other, returned := returned, record := true, keep := returned && e.keepBoth
      recovery := true }
  let n := match (t.entry e.id).recovery with
    | some r => r.number
    | none => 0
  (t.status d 0 n).settleEntry e.id

/-- RETURN. -/
def execReturnLoan (d a : BitVec 5) (s : State) : Host.Outcome State Fault Refusal :=
  finish (do
    let id := s.x a
    s.holdStart d id
    let u := s.fresh id
    let e := u.entry id
    u.unitBusy e
    match e.state with
    | .lent => if e.other ≠ u.meOwner then refuseU u d 1 0
    | st => refuseU u d 2 st.code
    .ok (u.recall d e true))

/-- RECLAIM. -/
def execReclaim (d a : BitVec 5) (s : State) : Host.Outcome State Fault Refusal :=
  finish (do
    let id := s.x a
    s.holdStart d id
    let u := s.fresh id
    let e := u.entry id
    u.unitBusy e
    if e.state = .lent then
      if e.holder ≠ u.meOwner then refuseU u d 1 0
      let left := match e.termEnd with
        | some t => (t * Config.ratedMHz + e.frac - u.ratedNow + (Config.ratedMHz - 1)) / Config.ratedMHz
        | none => 0
      if left ≠ 0 ∧ !e.lapsedBorrower then refuseU u d 3 left
      .ok (u.recall d e false)
    else
      u.offerParty d e Entry.holder
      .ok (((u.sync 2).putEntry e.withdrawn).status d 0 0))

/-! ### HQUERY (R334) -/

/-- The parties of an entry. -/
def Entry.isParty (e : Entry) (me : U16) : Bool := me != 0 && (e.holder == me || e.other == me)

/-- The 128 bits that HQUERY writes to gd. -/
def Entry.word (e : Entry) (me : U16) : U128 :=
  let time : Nat :=
    if !e.isParty me then 0
    else
      match e.state with
      | .offered => e.deadline.getD 0
      | .offeredLoan => e.deadline.getD 0
      | .lent => e.termEnd.getD 0
      | _ => 0
  BitVec.ofNat 64 time ++ e.other ++ (if e.state = .retired then 0#16 else e.holder) ++ 0#6 ++ BitVec.ofBool e.inherited ++ BitVec.ofBool e.lapsedBorrower
    ++ 0#4 ++ BitVec.ofNat 4 e.state.code ++ 0#16

/-- What HQUERY writes to gb. -/
def State.queryWord (s : State) (e : Entry) : Cap :=
  if resKind e.id == 6 && s.meOwner != 0 && e.recovery.isNone
      && ((e.state == .held && e.holder == s.meOwner) || (e.state == .lent && e.other == s.meOwner)) then
    ctxHandle (resIndex e.id) (s.ctx (resIndex e.id)).gen
  else if e.isParty s.meOwner then { bits := e.terms, tag := false }
  else .zero

/-- HQUERY: gd is written before gb. -/
def execHquery (d a b : BitVec 5) (s : State) : Host.Outcome State Fault Refusal :=
  let id := s.x a
  if !resValid id then .next ((((s.sync 2).wr d 4).setG b .zero).retire)
  else
    let u := s.fresh id
    let e := u.entry id
    .next ((((u.sync 2).setG d { bits := e.word u.meOwner, tag := false }).setG b (u.queryWord e)).retire)

/-! ### Owners (R335) -/

/-- A free owner slot of an owner (R40). -/
def State.freeOwnerSlot (s : State) (me : U16) : Option Nat :=
  let free (n : Nat) : Bool := s.holds me (mkRes 12 n) && (s.owner (BitVec.ofNat 16 n)).isNone
  if me = Config.house then ((List.range 65534).map (· + 2)).find? free
  else (s.entries.filterMap (fun e => if resKind e.id = 12 ∧ free (resIndex e.id) then some (resIndex e.id) else none)).head?

/-- A core on which no slot runs and whose inbox is empty (R51). -/
def State.coreIdle (s : State) (core : Nat) : Bool :=
  !(s.slots.any (fun x => x.running && x.core == core)) && (s.core core).inbox.isEmpty

/-- The charter's fields. -/
structure Charter where
  heir : U16
  keepAlive : Nat
  seed : U64
  notice : U64
  dumpKey : U64
  saveFrame : U64
  entry : Cap
deriving DecidableEq, Repr

/-- The offset of the first field of a charter that breaks R51's table. -/
def State.badCharter (s : State) (l : List Cap) (new : Nat) : Option Nat :=
  let w (i : Nat) : U64 :=
    let c := (l[i / 2]?).getD .zero
    if i % 2 = 0 then c.addr else c.high
  let me := s.meOwner
  let mine (id : U64) (kind : Nat) : Bool := resKind id == kind && resValid id && s.holds me id && (s.entry id).recovery.isNone
  let heir := (w 0).extractLsb' 0 16
  let e := (l[3]?).getD .zero
  if !s.lives heir || heir.toNat == new then some 0
  else if (w 0).extractLsb' 16 16 != 0 then some 2
  else if !(mine (w 1) 1 || mine (w 1) 2) then some 8
  else if !mine (w 2) 10 then some 16
  else if w 3 != 0 && !mine (w 3) 8 then some 24
  else if w 4 != 0 && !mine (w 4) 3 then some 32
  else if w 5 != 0 then some 40
  else if !e.tag || e.isSealed || !e.holds .x then some 48
  else none

def charterOf (l : List Cap) : Charter :=
  let c (i : Nat) : Cap := (l[i]?).getD .zero
  { heir := (c 0).addr.extractLsb' 0 16, keepAlive := ((c 0).addr.extractLsb' 32 32).toNat, seed := (c 0).high
    notice := (c 1).addr, dumpKey := (c 1).high, saveFrame := (c 2).addr, entry := c 3 }

/-- The 64 bytes of the charter as four capability loads, and the state after them (R198, R335). -/
def State.readCharter (s : State) (a : BitVec 5) : Run (State × List Cap) := do
  let c := s.g a
  let ea := s.x a
  s.capCheck a c ea 64 [.r] false
  if ea.toNat % 16 ≠ 0 then .error (s.trap 0x0B ea)
  match s.site ea with
  | .here m =>
    let x := s.acc m 64 true false false
    s.accCheck x ea
    let (t, l) := (List.range 4).foldl (fun (r : State × List Cap) i =>
      let g := m + 16 * i
      let v := r.1.seenCap s.me g
      (r.1.looked s.me g 16, r.2 ++ [{ v with tag := s.loadedTag c v (s.rightC g) ea }])) (s, [])
    .ok (t.access x id, l)
  | .there dev o =>
    let (t, l) ← s.exchange ((List.range 4).map (fun i =>
      (dev, fun n => OutMsg.load dev { s.request (o + 16 * i) 16 with txn := n, capability := true })))
    match l.find? (fun r => (replyClass r.status).isSome) with
    | some r => .error (t.takeTrap (replyTrap r ((replyClass r.status).getD 0x11) ea 0))
    | none => .ok (t, l.map (fun r => { r.value with tag := s.loadedTag c r.value true ea }))

/-- A seed that OWNNEW may take: a core must be idle (R51). -/
def State.seedFree (s : State) (id : U64) : Bool := resKind id != 1 || s.coreIdle (resIndex id)

/-- Where a seed task starts: slot 0 of a core; on core-time, once its work may run there, the lowest free general slot (log 98). -/
def State.seedSlot (s : State) (id : U64) : Option Nat :=
  let core := resCore id
  let t := (s.core core).turn
  if resKind id = 1 then (if s.openSlot core 0 then some 0 else none)
  else if s.noTurn core || (t.phase == 1 && t.entry == resRota id) then
    [0, 1, 2, 3, 4, 5, 6, 7].find? (fun i => s.openSlot core i)
  else none

/-- A new owner's first task starts as soon as its seed has passed to it and has a slot (R51). -/
def State.startSeed (s : State) (o : Owner) : State :=
  match o.seed with
  | none => s
  | some (id, entry) =>
    if !s.holds o.id id || (s.entry id).recovery.isSome then s
    else
      match s.seedSlot id with
      | none => s
      | some i => (s.putOwner { o with seed := none }).startTask (resCore id) i .seed o.id entry entry .zero .zero .zero .zero

/-- One named entry passes from the creator to the new owner. -/
def State.endow (s : State) (id : U64) (new : U16) : State :=
  if id = 0 then s
  else
    (s.beginPassing (s.entry id) .held
      { taker := new, fromOwner := s.meOwner, returned := false, record := false, keep := false, recovery := false }).settleEntry id

/-- A new owner comes to be (R51). -/
def State.found (s : State) (n : Nat) (c : Charter) : State :=
  let id := BitVec.ofNat 16 n
  let s1 := ({ s with free := s.free + 1 }).putOwner
    { Owner.house with
      id := id, heir := c.heir, keepAlive := c.keepAlive, renewed := s.us, renewedFrac := s.nowFrac, notice := resIndex c.notice
      dumpKey := if c.dumpKey = 0 then none else some (resIndex c.dumpKey)
      saveFrame := if c.saveFrame = 0 then none else some (resIndex c.saveFrame), salt := s.free + 1
      seed := some (c.seed, c.entry), founded := some (s.meOwner, c.seed, s.us) }
  let s2 := (((s1.endow c.seed id).endow c.notice id).endow c.dumpKey id).endow c.saveFrame id
  let s3 := s2.putEntry { Entry.atReset (mkRes 12 n) with holder := id }
  match s3.owner id with
  | some o => s3.startSeed o
  | none => s3

/-- OWNNEW. -/
def execOwnnew (d a : BitVec 5) (s : State) : Host.Outcome State Fault Refusal :=
  finish (do
    let (u, l) ← s.readCharter a
    if u.lapsed u.meOwner then refuseU u d 10 0
    match u.freeOwnerSlot u.meOwner with
    | none => u.refuse d 4 0
    | some n =>
      match u.badCharter l n with
      | some off => u.refuse d 8 off
      | none =>
        let c := charterOf l
        if !u.seedFree c.seed then refuseU u d 9 0
        .ok (((u.sync 2).found n c).status d 0 n))

/-- OWNEND: OK, then the issuer is dissolved. -/
def execOwnend (d : BitVec 5) (s : State) : Host.Outcome State Fault Refusal :=
  finish (do
    if s.meOwner = Config.house then refuseU s d 11 0
    if s.lapsed s.meOwner then refuseU s d 10 0
    match s.owner s.meOwner with
    | none => s.refuse d 4 0
    | some o => .ok (((((s.sync 2).status d 0 0).beginDissolve o.id (s.successor o)).endDissolve o.id)))

/-- RENEW. -/
def execRenew (d : BitVec 5) (s : State) : Host.Outcome State Fault Refusal :=
  if s.lapsed s.meOwner then .next ((s.sync 2).status d 10 0)
  else
    match s.owner s.meOwner with
    | none => .next ((s.sync 2).status d 0 0)
    | some o => .next (((s.sync 2).putOwner { o with renewed := s.us, renewedFrac := s.nowFrac }).status d 0 0)

/-- An owner ID in ga: the bits above it must be zero. -/
def ownerWord (w : U64) : Option U16 := if w.extractLsb' 16 48 = 0 then some (w.extractLsb' 0 16) else none

/-- CLAIM: it parks until every entry has passed. -/
def execClaim (d a : BitVec 5) (s : State) : Host.Outcome State Fault Refusal :=
  let done (t : State) : State :=
    match t.self.park with
    | .claim _ (some n) => (t.sync 2).status d 0 n
    | _ => t
  match s.self.park with
  | .claim _ _ => .next (done s)
  | _ =>
    let s := s.lapses
    finish (do
      match (ownerWord (s.x a)).bind s.owner with
      | none => s.refuse d 4 0
      | some o =>
        if s.lapsed s.meOwner then refuseU s d 10 0
        if !o.lapsed then refuseU s d 2 6
        if s.successor o ≠ s.meOwner then refuseU s d 1 0
        let t := s.wait (.claim o.id none)
        let u := if o.dissolving.isSome then t else t.beginDissolve o.id s.meOwner
        .ok (done (u.endDissolve o.id)))

/-- SETHEIR. -/
def execSetheir (d a : BitVec 5) (s : State) : Host.Outcome State Fault Refusal :=
  finish (do
    if s.meOwner = Config.house then refuseU s d 11 0
    match ownerWord (s.x a) with
    | none => s.refuse d 4 0
    | some h =>
      if !s.lives h then refuseU s d 4 0
      if s.lapsed s.meOwner then refuseU s d 10 0
      if h = s.meOwner then refuseU s d 1 0
      match s.owner s.meOwner with
      | none => s.refuse d 4 0
      | some o => .ok (((s.sync 2).putOwner { o with heir := h }).status d 0 0))

end Sys2Proof.Machine
end

