-- ==== Sys2Proof/Machine/Vector.lean ====
section
/-! DEFINITION. Vector arithmetic: element lanes (R164, R165, R169, R219), VIA (R221), VIB (R222), VF (R223), VS (R224, R225). -/
namespace Sys2Proof.Machine

/-! ### Element lanes -/

/-- Element i of width `w` (R164). -/
def lane (w : Nat) (x : Vec) (i : Nat) : Nat := (x.extractLsb' (w * i) w).toNat
/-- The register with element i the low `w` bits of `f i`, for `n` elements; the bits above them zero. -/
def ofLanes (w n : Nat) (f : Nat → Nat) : Vec :=
  BitVec.ofNat 1024 (packLanes w ((List.range n).map (fun i => f i % 2 ^ w)))
/-- Active elements take `f`, the others keep their value (R165). -/
def mergeLanes (w n : Nat) (p : Pred) (old : Vec) (f : Nat → Nat) : Vec :=
  ofLanes w n (fun i => if p.getLsbD i then f i else lane w old i)

/-- The integer element types of R169: width and signedness. -/
def etWidth (e : BitVec 3) : Nat := 8 * 2 ^ (e.toNat % 4)
def etSigned (e : BitVec 3) : Bool := e.toNat < 4
/-- A field as the integer its type makes it. -/
def laneInt (sgn : Bool) (w v : Nat) : Int := if sgn then signedOf w v else v
/-- An integer as a field of `w` bits. -/
def laneBits (w : Nat) (v : Int) : Nat := (BitVec.ofInt w v).toNat
/-- Clamped to the range of the type. -/
def clampTo (sgn : Bool) (w : Nat) (v : Int) : Int :=
  if sgn then max (-2 ^ (w - 1)) (min (2 ^ (w - 1) - 1) v) else max 0 (min (2 ^ w - 1) v)

/-- The floating-point element types of R169. -/
def fpFmt (e : BitVec 2) : Fmt := if e = 0 then .f32 else if e = 1 then .f16 else .bf16
/-- The rounding mode of ROUND (R167, R215). -/
def State.mode (s : State) : RMode := .ofCode s.self.round.toNat

/-- A vector result and the next word. -/
def State.putV (s : State) (d : BitVec 5) (x : Vec) : Host.Outcome State Fault Refusal := .next ((s.setV d x).retire)

/-! ### VIA (R221) -/

/-- A predicated integer operation of two elements, given their signedness, width and fields. -/
def State.via (s : State) (d a b : BitVec 5) (p e : BitVec 3) (f : Bool → Nat → Nat → Nat → Nat) :
    Host.Outcome State Fault Refusal :=
  let w := etWidth e
  s.putV d (mergeLanes w (1024 / w) (s.p p) (s.v d)
    (fun i => f (etSigned e) w (lane w (s.v a) i) (lane w (s.v b) i)))

def execVadd (d a b : BitVec 5) (p e : BitVec 3) (s : State) : Host.Outcome State Fault Refusal :=
  s.via d a b p e (fun _ _ x y => x + y)
def execVsub (d a b : BitVec 5) (p e : BitVec 3) (s : State) : Host.Outcome State Fault Refusal :=
  s.via d a b p e (fun _ w x y => x + 2 ^ w - y)
def execVmul (d a b : BitVec 5) (p e : BitVec 3) (s : State) : Host.Outcome State Fault Refusal :=
  s.via d a b p e (fun _ _ x y => x * y)
def execVmulh (d a b : BitVec 5) (p e : BitVec 3) (s : State) : Host.Outcome State Fault Refusal :=
  s.via d a b p e (fun g w x y => laneBits w (laneInt g w x * laneInt g w y / 2 ^ w))
def execVmin (d a b : BitVec 5) (p e : BitVec 3) (s : State) : Host.Outcome State Fault Refusal :=
  s.via d a b p e (fun g w x y => if laneInt g w x ≤ laneInt g w y then x else y)
def execVmax (d a b : BitVec 5) (p e : BitVec 3) (s : State) : Host.Outcome State Fault Refusal :=
  s.via d a b p e (fun g w x y => if laneInt g w y ≤ laneInt g w x then x else y)
def execVand (d a b : BitVec 5) (p e : BitVec 3) (s : State) : Host.Outcome State Fault Refusal :=
  s.via d a b p e (fun _ _ x y => x &&& y)
def execVor (d a b : BitVec 5) (p e : BitVec 3) (s : State) : Host.Outcome State Fault Refusal :=
  s.via d a b p e (fun _ _ x y => x ||| y)
def execVxor (d a b : BitVec 5) (p e : BitVec 3) (s : State) : Host.Outcome State Fault Refusal :=
  s.via d a b p e (fun _ _ x y => x ^^^ y)
def execVsll (d a b : BitVec 5) (p e : BitVec 3) (s : State) : Host.Outcome State Fault Refusal :=
  s.via d a b p e (fun _ w x y => x * 2 ^ (y % w))
def execVsrl (d a b : BitVec 5) (p e : BitVec 3) (s : State) : Host.Outcome State Fault Refusal :=
  s.via d a b p e (fun _ w x y => x / 2 ^ (y % w))
def execVsra (d a b : BitVec 5) (p e : BitVec 3) (s : State) : Host.Outcome State Fault Refusal :=
  s.via d a b p e (fun _ w x y => laneBits w (signedOf w x / 2 ^ (y % w)))
def execVaddsat (d a b : BitVec 5) (p e : BitVec 3) (s : State) : Host.Outcome State Fault Refusal :=
  s.via d a b p e (fun g w x y => laneBits w (clampTo g w (laneInt g w x + laneInt g w y)))
def execVsubsat (d a b : BitVec 5) (p e : BitVec 3) (s : State) : Host.Outcome State Fault Refusal :=
  s.via d a b p e (fun g w x y => laneBits w (clampTo g w (laneInt g w x - laneInt g w y)))

/-! ### VIB (R222) -/

/-- VDOT4: signed bytes for s8 (code 0), unsigned for n8. -/
def execVdot4 (d a b : BitVec 5) (p : BitVec 3) (e : BitVec 1) (s : State) : Host.Outcome State Fault Refusal :=
  let g := e == 0
  s.putV d (mergeLanes 32 32 (s.p p) (s.v d) (fun i =>
    laneBits 32 ((List.range 4).foldl
      (fun t j => t + laneInt g 8 (lane 8 (s.v a) (4 * i + j)) * laneInt g 8 (lane 8 (s.v b) (4 * i + j)))
      (lane 32 (s.v d) i : Int))))
/-- VMULW: the products of the low half of the elements. -/
def execVmulw (d a b : BitVec 5) (p e : BitVec 3) (s : State) : Host.Outcome State Fault Refusal :=
  let w := etWidth e
  let g := etSigned e
  s.putV d (mergeLanes (2 * w) (1024 / (2 * w)) (s.p p) (s.v d) (fun i =>
    laneBits (2 * w) (laneInt g w (lane w (s.v a) i) * laneInt g w (lane w (s.v b) i))))
/-- VNARROW: va's elements, then vb's, clamped. -/
def execVnarrow (d a b : BitVec 5) (p e : BitVec 3) (s : State) : Host.Outcome State Fault Refusal :=
  let w := etWidth e
  let g := etSigned e
  let h := 1024 / (2 * w)
  s.putV d (mergeLanes w (1024 / w) (s.p p) (s.v d) (fun i =>
    laneBits w (clampTo g w (laneInt g (2 * w)
      (if i < h then lane (2 * w) (s.v a) i else lane (2 * w) (s.v b) (i - h))))))
/-- VSEL: the predicate selects. -/
def execVsel (d a b : BitVec 5) (p e : BitVec 3) (s : State) : Host.Outcome State Fault Refusal :=
  let w := etWidth e
  s.putV d (mergeLanes w (1024 / w) (s.p p) (s.v b) (lane w (s.v a)))
def execVmov (d a : BitVec 5) (p e : BitVec 3) (s : State) : Host.Outcome State Fault Refusal :=
  let w := etWidth e
  s.putV d (mergeLanes w (1024 / w) (s.p p) (s.v d) (lane w (s.v a)))
def execVidx (d : BitVec 5) (p e : BitVec 3) (s : State) : Host.Outcome State Fault Refusal :=
  let w := etWidth e
  s.putV d (mergeLanes w (1024 / w) (s.p p) (s.v d) id)

/-! ### VF (R223) -/

/-- The flags of the active elements (R216). -/
def laneFlags (n : Nat) (p : Pred) (f : Nat → Nat × FFlags) : FFlags :=
  (List.range n).foldl (fun fl i => if p.getLsbD i then fl.or (f i).2 else fl) .none

/-- A predicated floating-point operation: the results of the active elements, and their flags. -/
def State.fpLanes (s : State) (d : BitVec 5) (p : BitVec 3) (w : Nat) (f : Nat → Nat × FFlags) :
    Host.Outcome State Fault Refusal :=
  let n := 1024 / w
  (s.addFlags (laneFlags n (s.p p) f)).putV d (mergeLanes w n (s.p p) (s.v d) (fun i => (f i).1))

/-- Element i of a register as a value of the format. -/
def fpLane (k : Fmt) (x : Vec) (i : Nat) : FVal := k.decode (lane k.width x i)

/-- An operation of two elements and the old destination element. -/
def State.vf (s : State) (d a b : BitVec 5) (p : BitVec 3) (e : BitVec 2)
    (f : Fmt → RMode → FVal → FVal → FVal → Nat × FFlags) : Host.Outcome State Fault Refusal :=
  let k := fpFmt e
  s.fpLanes d p k.width (fun i => f k s.mode (fpLane k (s.v a) i) (fpLane k (s.v b) i) (fpLane k (s.v d) i))

def execVfadd (d a b : BitVec 5) (p : BitVec 3) (e : BitVec 2) (s : State) : Host.Outcome State Fault Refusal :=
  s.vf d a b p e (fun k m x y _ => addBits k m x y)
def execVfsub (d a b : BitVec 5) (p : BitVec 3) (e : BitVec 2) (s : State) : Host.Outcome State Fault Refusal :=
  s.vf d a b p e (fun k m x y _ => addBits k m x y.negate)
def execVfmul (d a b : BitVec 5) (p : BitVec 3) (e : BitVec 2) (s : State) : Host.Outcome State Fault Refusal :=
  s.vf d a b p e (fun k m x y _ => mulBits k m x y)
def execVfma (d a b : BitVec 5) (p : BitVec 3) (e : BitVec 2) (s : State) : Host.Outcome State Fault Refusal :=
  s.vf d a b p e (fun k m x y z => fmaBits k m x y z)
def execVfms (d a b : BitVec 5) (p : BitVec 3) (e : BitVec 2) (s : State) : Host.Outcome State Fault Refusal :=
  s.vf d a b p e (fun k m x y z => fmaBits k m x y z.negate)
def execVfnma (d a b : BitVec 5) (p : BitVec 3) (e : BitVec 2) (s : State) : Host.Outcome State Fault Refusal :=
  s.vf d a b p e (fun k m x y z => fmaBits k m x.negate y z)
def execVfdiv (d a b : BitVec 5) (p : BitVec 3) (e : BitVec 2) (s : State) : Host.Outcome State Fault Refusal :=
  s.vf d a b p e (fun k m x y _ => divBits k m x y)
def execVfsqrt (d a : BitVec 5) (p : BitVec 3) (e : BitVec 2) (s : State) : Host.Outcome State Fault Refusal :=
  s.vf d a a p e (fun k m x _ _ => sqrtBits k m x)
/-- VFMIN. -/
def execVfmin (d a b : BitVec 5) (p : BitVec 3) (e : BitVec 2) (s : State) : Host.Outcome State Fault Refusal :=
  let k := fpFmt e
  s.fpLanes d p k.width (fun i => minMaxBits k false (lane k.width (s.v a) i) (lane k.width (s.v b) i))
/-- VFMAX. -/
def execVfmax (d a b : BitVec 5) (p : BitVec 3) (e : BitVec 2) (s : State) : Host.Outcome State Fault Refusal :=
  let k := fpFmt e
  s.fpLanes d p k.width (fun i => minMaxBits k true (lane k.width (s.v a) i) (lane k.width (s.v b) i))
/-- VFABS changes the sign bit only. -/
def execVfabs (d a : BitVec 5) (p : BitVec 3) (e : BitVec 2) (s : State) : Host.Outcome State Fault Refusal :=
  let w := (fpFmt e).width
  s.putV d (mergeLanes w (1024 / w) (s.p p) (s.v d) (fun i => lane w (s.v a) i % 2 ^ (w - 1)))
/-- VFNEG changes the sign bit only. -/
def execVfneg (d a : BitVec 5) (p : BitVec 3) (e : BitVec 2) (s : State) : Host.Outcome State Fault Refusal :=
  let w := (fpFmt e).width
  s.putV d (mergeLanes w (1024 / w) (s.p p) (s.v d) (fun i => lane w (s.v a) i + 2 ^ (w - 1)))
def execVfexp2 (d a : BitVec 5) (p : BitVec 3) (e : BitVec 2) (s : State) : Host.Outcome State Fault Refusal :=
  s.vf d a a p e (fun k m x _ _ => exp2Bits k m x)

/-- x + the exact sum of products, rounded once to FP32; NV for an invalid product or sum and for a signalling operand. -/
def dotBits (m : RMode) (z : FVal) (l : List (FVal × FVal)) : Nat × FFlags :=
  let t := l.foldl (fun (t : FVal × Bool) xy =>
    let q := mulVal xy.1 xy.2
    let u := addVal m t.1 q.1
    (u.1, t.2 || q.2 || u.2 || xy.1.isSig || xy.2.isSig)) (z, z.isSig)
  let r := roundVal .f32 m t.1
  (r.1, r.2.or (invalid t.2))

/-- VFDOT2 (R223). -/
def execVfdot2 (d a b : BitVec 5) (p : BitVec 3) (e : BitVec 2) (s : State) : Host.Outcome State Fault Refusal :=
  let k := fpFmt e
  s.fpLanes d p 32 (fun i =>
    dotBits s.mode (fpLane .f32 (s.v d) i)
      [(fpLane k (s.v a) (2 * i), fpLane k (s.v b) (2 * i)), (fpLane k (s.v a) (2 * i + 1), fpLane k (s.v b) (2 * i + 1))])

/-! ### VS (R224, R225) -/

/-- VBCAST of the low bits of a g register. -/
def execVbcast (d : BitVec 5) (w : BitVec 2) (g : BitVec 5) (p : BitVec 3) (s : State) : Host.Outcome State Fault Refusal :=
  let k := 8 * 2 ^ w.toNat
  s.putV d (mergeLanes k (1024 / k) (s.p p) (s.v d) (fun _ => (s.x g).toNat))
/-- A g register's low 32 bits as FP32. -/
def State.scalar32 (s : State) (g : BitVec 5) : FVal := Fmt.f32.decode ((s.x g).toNat % 2 ^ 32)
def execVfmas (d a g : BitVec 5) (p : BitVec 3) (s : State) : Host.Outcome State Fault Refusal :=
  s.fpLanes d p 32 (fun i => fmaBits .f32 s.mode (fpLane .f32 (s.v a) i) (s.scalar32 g) (fpLane .f32 (s.v d) i))

/-- One lane of VSCACC (R225): exact inside, rounded once to nearest. -/
def scaccBits (z sc c hi lo : FVal) : Nat × FFlags :=
  let k := mulVal sc c
  let h := addVal .rne hi lo
  let m := mulVal k.1 h.1
  let t := addVal .rne z m.1
  let r := roundVal .f32 .rne t.1
  (r.1, r.2.or (invalid (k.2 || h.2 || m.2 || t.2 || z.isSig || sc.isSig || c.isSig || hi.isSig || lo.isSig)))
def execVscacc (d a b g : BitVec 5) (p : BitVec 3) (s : State) : Host.Outcome State Fault Refusal :=
  s.fpLanes d p 32 (fun i =>
    scaccBits (fpLane .f32 (s.v d) i) (fpLane .f16 (s.v b) i) (s.scalar32 g) (fpLane .f32 (s.v a) i)
      (fpLane .f32 (s.v (a + 1)) i))
/-- VINS of one 32-bit lane. -/
def execVins (d k g : BitVec 5) (s : State) : Host.Outcome State Fault Refusal :=
  s.putV d (ofLanes 32 32 (fun i => if i = k.toNat then (s.x g).toNat else lane 32 (s.v d) i))

end Sys2Proof.Machine
end

