-- ==== Sys2Proof/Machine/Tile.lean ====
section
/-! DEFINITION. The tile instructions (R240 to R243). Every member is confined to slot 0 (R174). -/
namespace Sys2Proof.Machine

/-- The rows of a tile in memory: L bytes each, at the stride in gb, or L where that is 0 (R241). -/
def tileRows (w : U64) (base stride : U64) : List Lane :=
  let l := shapeRowBytes w
  let st := if stride = 0 then BitVec.ofNat 64 l else stride
  (List.range (shapeRows w)).map (fun r => .single r (base + BitVec.ofNat 64 r * st) l)

/-- Rows put one after another from byte 0; the bytes beyond them zero. -/
def packRows (l : Nat) (rows : List (Nat × Nat)) : TileData := BitVec.ofNat 65536 (packLanes (8 * l) (rows.map Prod.snd))

/-- Slot 0 only: any other slot takes an illegal-instruction trap (R174). -/
def State.slotZero (s : State) : Run Unit := if s.self.idx = 0 then .ok () else .error (s.trap 0x01 0)

/-- A write to a tile waits until it is unlocked, as a window of its own (R243). -/
def State.unlocked (s : State) (t : BitVec 3) : Run Unit :=
  if s.tileLocked s.self.core t then .error (s.waitAlone (.tile t)) else .ok ()

/-- TLD. -/
def execTld (d : BitVec 3) (x y : BitVec 5) (s : State) : Host.Outcome State Fault Refusal :=
  finish (do
    s.slotZero
    let w := s.shape d
    if !shapeValid w then .error (s.trap 0x0C 0)
    let rows := tileRows w (s.x x) (s.x y)
    s.laneCheck x (s.g x) .r false false rows (s.x x)
    s.unlocked d
    let (t, l) ← s.loadLanes x (s.g x) false rows (s.x x)
    .ok ((t.setTile d (packRows (shapeRowBytes w) l) (s.strip d)).retire))

/-- TST. -/
def execTst (a : BitVec 3) (x y : BitVec 5) (s : State) : Host.Outcome State Fault Refusal :=
  finish (do
    s.slotZero
    let w := s.shape a
    if !shapeValid w then .error (s.trap 0x0C 0)
    let l := shapeRowBytes w
    let t ← s.saveLanes x (s.g x) false (tileRows w (s.x x) (s.x y)) (s.x x)
      (fun r => ((s.tile a).extractLsb' (8 * l * r) (8 * l)).toNat)
    .ok t.retire)

/-- TZERO. -/
def execTzero (d : BitVec 3) (s : State) : Host.Outcome State Fault Refusal :=
  finish (do
    s.slotZero
    s.unlocked d
    .ok ((s.setTile d 0 0).retire))

/-- TZP: 128 bytes into the strip. -/
def execTzp (d : BitVec 3) (x : BitVec 5) (s : State) : Host.Outcome State Fault Refusal :=
  finish (do
    s.slotZero
    let lanes := [Lane.single 0 (s.x x) 128]
    s.laneCheck x (s.g x) .r false false lanes (s.x x)
    s.unlocked d
    let (t, l) ← s.loadLanes x (s.g x) false lanes (s.x x)
    .ok ((t.setTile d (s.tile d) (BitVec.ofNat 1024 (packLanes 1024 (l.map Prod.snd)))).retire))

/-- TGETZP. -/
def execTgetzp (a : BitVec 3) (x y : BitVec 5) (s : State) : Host.Outcome State Fault Refusal :=
  finish (do
    s.slotZero
    .ok ((s.wr x (((s.strip a).extractLsb' (8 * ((s.x y).toNat % 128)) 8).setWidth 64)).retire))

end Sys2Proof.Machine
end

