-- ==== Sys2Proof/Machine/Loom.lean ====
section
/-! DEFINITION. Leases and matrix commands (R244 to R254), LSTATE (R248), and CHAIN (R258, R259). -/
namespace Sys2Proof.Machine

/-! ### Grants (R246) -/

/-- The pending seat that comes first after the last holder's. -/
def Loom.nextSeat (l : Loom) : Option Nat :=
  (List.range 48).findSome? (fun i => let q := (l.last + 1 + i) % 48; if l.pending.contains q then some q else none)

/-- Rows of drains that have not started a handler; the first 8 are in the drain buffer, the others still in the array. -/
def Loom.waitingRows (l : Loom) : Nat := l.drains.foldl (fun n d => n + d.rows.length) 0

/-- The LEASE that a grant ends: OK is written and the instruction is complete (R245). -/
def State.leaseGranted (s : State) (core : Nat) : State :=
  let x := s.slot core 0
  match x.park with
  | .grant d b =>
    s.putSlot ({ x with
      winReads := x.winReads ++ (if d = 0 then [] else [Reg.g d]) ++ (if b = 0 then [] else [Reg.g b])
      winWrites := x.winWrites ++ (if d = 0 then [] else [(Reg.g d, RegVal.cap (x.getG d))]) }.setG d (Cap.ofInt 0)).retired
  | _ => s

/-- A free loom whose rows have all left the array grants its next pending request (R246, R256). -/
def State.grant (s : State) (bench idx : Nat) : State :=
  let l := s.loom bench idx
  match l.holder, (if 8 < l.waitingRows then none else l.nextSeat) with
  | none, some q =>
    let c := s.core (bench * 48 + q)
    let l1 := { l.cleared with
      holder := some q, last := q, pending := l.pending.filter (· != q)
      left := (c.lease.request.extractLsb' 8 6).toNat + 1, w := 0, dflt := true, queue := [], lastCmd := s.cycle }
    ((s.putLoom l1).putCore { c with lease := { c.lease with state := 2 } }).leaseGranted (bench * 48 + q)
  | _, _ => s

/-- The issuing core places its request at its loom; a free loom grants at once. -/
def State.askLoom (s : State) (lease : Lease) : State :=
  let core := s.self.core
  let c := s.core core
  let s1 := s.putCore { c with lease := { lease with state := 1 } }
  let i := (lease.request.extractLsb' 0 2).toNat
  let l := s1.loom (coreBench core) i
  (s1.putLoom { l with pending := setAdd l.pending (coreSeat core) }).grant (coreBench core) i

/-! ### LEASE (R244, R245) -/

/-- The status of a request, none when every check passes. -/
def State.leaseStatus (s : State) (w : U64) : Option U64 :=
  let seats := drainSeats w
  if w.extractLsb' 14 2 != 0 || w.extractLsb' 4 4 != 0 then some 5
  else if w.extractLsb' 0 2 == 3 then some 1
  else if seats.isEmpty || 16 < seats.length then some 2
  else if s.myCore.lease.state != 0 then some 3
  else if seats.any (fun q => s.coreUser (coreBench s.self.core * 48 + q) != s.self.owner) then some 4
  else none

/-- LEASE. -/
def execLease (x y : BitVec 5) (s : State) : Host.Outcome State Fault Refusal :=
  let h := s.g y
  finish (do
    s.slotZero
    if s.self.leasing && s.myCore.lease.state == 1 then .error (s.wait s.self.park)
    if !h.tag then .error (s.trap 0x03 0)
    if h.otype != 5 then .error (s.trap 0x06 0)
    if s.isRevoked h then .error (s.capTrap y 0x16 (.plain 0x16 0))
    match s.leaseStatus (s.x x) with
    | some st => .ok ((s.wr x st).retire)
    | none =>
      let ask : Lease := { state := 1, request := s.x x, handler := h, larg := s.myCore.larg, trapvec := s.self.trapvec
                           upvec := s.self.upvec, owner := s.self.owner }
      let t := (s.setSelf (fun x => { x with park := .no })).askLoom ask
      -- a grant ends a LEASE that waits; here it has not waited
      if t.myCore.lease.state == 2 then .ok ((t.wr x 0).retire) else .ok (t.wait (.grant x y)))

/-! ### Matrix commands (R251) -/

/-- A matrix command of a pair; `zp` for MMAZ. -/
def State.matrix (s : State) (a b : BitVec 3) (pair : Nat) (zp : Bool) : Run State := do
  s.slotZero
  let st := s.myCore.lease.state
  if st = 0 then .error (s.trap 0x0D 0)
  let bench := coreBench s.self.core
  -- a spent budget drains first; then, and in REARM, the request is made again (R247)
  let spent := st == 2 && (s.loom bench s.myCore.loomIdx).left == 0
  let s1 := if spent then s.budgetDrain s.self.core else s
  let s2 := if s1.myCore.lease.state == 3 then s1.askLoom s1.myCore.lease else s1
  if s2.myCore.lease.state ≠ 2 then .error (s2.wait .loom)
  if !shapesFit pair (s2.shape a) (s2.shape b) then .error (s2.trap 0x0C 0)
  let l := s2.loom bench s2.myCore.loomIdx
  if 4 ≤ l.queue.length then .error (s2.wait .loom)
  .ok ((s2.putLoom { l with
    left := l.left - 1
    queue := l.queue ++ [{ ta := a, tb := b, opA := (s.tile a, s.strip a, s.shape a), opB := (s.tile b, s.strip b, s.shape b)
                           pair := pair, zp := zp }] }).retire)

def execMma (a b : BitVec 3) (p : BitVec 4) (s : State) : Host.Outcome State Fault Refusal :=
  finish (s.matrix a b p.toNat false)
def execMmaz (a b : BitVec 3) (p : BitVec 4) (s : State) : Host.Outcome State Fault Refusal :=
  finish (s.matrix a b p.toNat true)

/-! ### The other members (R253, R254) -/

/-- The lease of the issuing core must be held, or in REARM where the member allows it. -/
def State.leased (s : State) (rearm : Bool) : Run Unit := do
  s.slotZero
  let st := s.myCore.lease.state
  if st = 2 || (rearm && st == 3) then .ok () else .error (s.trap 0x0D 0)

/-- The issuing core's loom after the commands queued before. -/
def State.settledLoom (s : State) : State × Loom :=
  let t := s.flushed (coreBench s.self.core) s.myCore.loomIdx
  (t, t.loom (coreBench s.self.core) s.myCore.loomIdx)

def State.dropLease (s : State) : State := s.putCore { s.myCore with lease := .none }

/-- LREL: the lease ends with nothing drained. -/
def execLrel (s : State) : Host.Outcome State Fault Refusal :=
  finish (do
    s.leased true
    if s.myCore.lease.state = 3 then .ok s.dropLease.retire
    else
      let (t, l) := s.settledLoom
      .ok (((t.putLoom { l.cleared with holder := none }).dropLease).retire))

/-- MCLR. -/
def execMclr (s : State) : Host.Outcome State Fault Refusal :=
  finish (do
    s.leased false
    let (t, l) := s.settledLoom
    .ok ((t.putLoom l.cleared).retire))

/-- MWIN. -/
def execMwin (x : BitVec 5) (s : State) : Host.Outcome State Fault Refusal :=
  finish (do
    s.leased false
    let (t, l) := s.settledLoom
    if !l.clear then .error (s.trap 0x0D 1)
    .ok ((t.putLoom { l with w := (s.x x).setWidth 8, dflt := false }).retire))

/-- MDRAIN. -/
def execMdrain (x : BitVec 5) (s : State) : Host.Outcome State Fault Refusal :=
  finish (do
    s.leased true
    if s.myCore.lease.state = 3 then .ok s.dropLease.retire
    else .ok ((s.drainLease s.self.core ((s.x x).setWidth 2) false 0).retire))

/-- LSTAT (R249). -/
def execLstat (x y : BitVec 5) (s : State) : Host.Outcome State Fault Refusal :=
  let i := (s.x y).toNat % 4
  if i = 3 then .next ((s.wr x 0).retire)
  else
    let l := s.loom (coreBench s.self.core) i
    let held : BitVec 7 := match l.holder with
      | some q => 1#1 ++ BitVec.ofNat 6 q
      | none => 0#1 ++ 0x3F#6
    .next ((s.wr x (BitVec.ofNat 32 l.count ++ BitVec.ofNat 8 l.pending.length ++ 0#2 ++ BitVec.ofNat 6 l.last ++ 0#4
      ++ BitVec.ofNat 4 (min 8 l.waitingRows) ++ (if l.drains.isEmpty then 0#1 else 1#1) ++ held)).retire)

/-- LSTATE (R248). With no lease its fields but `out` read 0; in the default state the window exponent is not said (log 24). -/
def State.lstate (s : State) : U64 :=
  let c := s.myCore
  let out : BitVec 8 := BitVec.ofNat 8 (min 255 c.out)
  let tail : BitVec 6 := c.lease.state ++ c.lease.request.extractLsb' 2 2 ++ c.lease.request.extractLsb' 0 2
  if c.lease.state = 0 then 0#16 ++ out ++ 0#40
  else if c.lease.state = 2 then
    let l := s.loom (coreBench s.self.core) c.loomIdx
    let w : BitVec 8 := if l.dflt then (Config.free (4 * s.free)).setWidth 8 else l.w
    0#16 ++ out ++ BitVec.ofNat 8 l.c ++ BitVec.ofNat 8 l.r ++ 0#1 ++ BitVec.ofNat 7 l.left ++ w
      ++ (if l.clear then 1#1 else 0#1) ++ (if l.dflt then 1#1 else 0#1) ++ tail
  else 0#16 ++ out ++ 0#34 ++ tail

/-! ### CHAIN (R258, R259) -/

/-- What CHAIN0 to CHAIN3 say. -/
structure ChainSetup where
  pred : Option Nat
  succ : Option Nat
  op : BitVec 2
  first : BitVec 5
  count : Nat
deriving DecidableEq, Repr

def Core.chainSetup (c : Core) : ChainSetup :=
  let side (w : U64) : Option Nat := if w.getLsbD 63 then none else some (w.toNat % 2 ^ 32)
  { pred := side c.chain[0], succ := side c.chain[1], op := c.chain[2].extractLsb' 0 2
    first := c.chain[3].extractLsb' 8 5, count := (c.chain[3].extractLsb' 0 4).toNat }

/-- The tasks of one stage of a launch. -/
def Launch.width (l : Launch) : Nat := l.shops * l.benchesN * l.seats

/-- Two 128-bit accumulators added (R259). -/
def rawAdd (a b : U128) : U128 :=
  if a = accInvalid ∨ b = accInvalid then accInvalid
  else
    let v := a.toInt + b.toInt
    BitVec.ofInt 128 (if accMax < v then accMax else if v < -accMax then -accMax else v)

/-- A member's register combined with the message's, and the flags. -/
def chainCombine (op : BitVec 2) (m v : Vec) : Vec × FFlags :=
  if op = 0 then
    let f (i : Nat) := addBits .f32 .rne (fpLane .f32 m i) (fpLane .f32 v i)
    (ofLanes 32 32 (fun i => (f i).1), laneFlags 32 (BitVec.allOnes 128) f)
  else if op = 1 then (ofLanes 32 32 (fun i => lane 32 m i + lane 32 v i), .none)
  else (ofLanes 128 8 (fun i => (rawAdd (m.extractLsb' (128 * i) 128) (v.extractLsb' (128 * i) 128)).toNat), .none)

/-- What a chain finds on one side: ready, not yet, or never. -/
inductive Side where
  | ready
  | notYet
  | never
deriving DecidableEq, Repr

/-- The first message from the predecessor for this task. -/
def State.chainMsg (s : State) (id stage target source : Nat) : Option ChainMsg :=
  s.chainMsgs.find? (fun m => m.launch == id && m.stage == stage && m.target == target && m.source == source)

def State.predSide (s : State) (l : Launch) (stage lcn : Nat) (pred : Option Nat) : Side :=
  match pred with
  | none => .ready
  | some q =>
    if (s.chainMsg l.id stage lcn q).isSome then .ready
    else if l.ended.contains (q, stage) || l.farEnded.contains (q, stage) then .never
    else .notYet

/-- The core where a task of the launch has started, if it has started here. -/
def Launch.coreOf (l : Launch) (lcn stage : Nat) : Option Nat :=
  (l.placed.find? (fun t => t.1 == lcn && t.2.1 == stage)).map (fun t => t.2.2)

/-- The shop of a logical core number. -/
def Launch.shopOf (l : Launch) (lcn : Nat) : Nat := lcn / (l.benchesN * l.seats)

/-- A task of the launch has started here, and one of its two chain entries is free: neither filled nor reserved for a task elsewhere. -/
def State.chainRoom (s : State) (l : Launch) (stage q : Nat) : Bool :=
  (l.coreOf q stage).isSome
    && decide ((s.chainMsgs.filter (fun m => m.launch == l.id && m.stage == stage && m.target == q)).length
      + (l.given.filter (fun g => g.2 == (q, stage))).length < 2)

/-- A task elsewhere has an entry once its device has reserved one (log 25). -/
def State.succSide (s : State) (l : Launch) (stage lcn : Nat) (succ : Option Nat) : Side :=
  match succ with
  | none => .ready
  | some q =>
    if l.ended.contains (q, stage) || l.farEnded.contains (q, stage) then .never
    else if l.shop = some (l.shopOf q) then (if s.chainRoom l stage q then .ready else .notYet)
    else if l.granted.contains (lcn, q, stage) then .ready
    else .notYet

/-- The device of a task of another shop. -/
def Launch.deviceOf (l : Launch) (lcn : Nat) : BitVec 14 := l.w2.extractLsb' 33 14 + BitVec.ofNat 14 (l.shopOf lcn)

/-- A CHAIN whose successor runs elsewhere asks for an entry there, once. -/
def State.chainAsk (s : State) (l : Launch) (stage lcn : Nat) (succ : Option Nat) : State :=
  match succ with
  | none => s
  | some q =>
    if l.shop = some (l.shopOf q) || l.asked.contains (lcn, q, stage) || l.granted.contains (lcn, q, stage) then s
    else (s.putLaunch { l with asked := l.asked ++ [(lcn, q, stage)] }).chainSay l (l.deviceOf q) stage lcn q .ask

/-- The combining and the send, which take effect together. -/
def State.chainGo (s : State) (l : Launch) (stage lcn : Nat) (k : ChainSetup) : State :=
  let regs := (List.range k.count).map (fun q => k.first + BitVec.ofNat 5 q)
  let s1 := match k.pred.bind (fun q => s.chainMsg l.id stage lcn q) with
    | none => s
    | some m =>
      let done := (regs.zip m.regs).map (fun x => (x.1, chainCombine k.op x.2 (s.v x.1)))
      let t := done.foldl (fun t x => (t.setV x.1 x.2.1).addFlags x.2.2) s
      { t with chainMsgs := t.chainMsgs.erase m }
  match k.succ with
  | none => s1
  | some q =>
    let out := regs.map s1.v
    if l.shop = some (l.shopOf q) then
      { s1 with chainMsgs := s1.chainMsgs ++ [{ launch := l.id, stage := stage, source := lcn, target := q, regs := out }] }
    else (s1.putLaunch { l with granted := l.granted.erase (lcn, q, stage) }).chainSay l (l.deviceOf q) stage lcn q (.message out)

/-- CHAIN. -/
def execChain (s : State) : Host.Outcome State Fault Refusal :=
  let k := s.myCore.chainSetup
  match s.self.role with
  | .launch id lcn stage =>
    match s.launch id with
    | none => .next (s.trap 0x01 0)
    | some l =>
      if k.op = 3 || k.count < 1 || 8 < k.count || 31 < k.first.toNat + k.count - 1 then .next (s.trap 0x01 0)
      else if k.pred.any (fun q => decide (l.width ≤ q)) || k.succ.any (fun q => decide (l.width ≤ q)) then
        .next (s.trap 0x0E 0)
      else
        match s.predSide l stage lcn k.pred, s.succSide l stage lcn k.succ with
        | .never, _ => .next (s.trap 0x0E 0)
        | _, .never => .next (s.trap 0x0E 0)
        | .ready, .ready => .next ((s.chainGo l stage lcn k).sync 2).retire
        | _, _ => .next ((s.chainAsk l stage lcn k.succ).wait .chain)
  | _ => .next (s.trap 0x01 0)

/-! ### Chains between devices (R259; log 25) -/

/-- A task elsewhere is given an entry here, if it asks for one and there is room. -/
def State.chainGive (s : State) (l : Launch) : State :=
  match l.asks.find? (fun a => s.chainRoom l a.2.2 a.2.1) with
  | none => s
  | some a =>
    (s.putLaunch { l with asks := l.asks.erase a, given := l.given ++ [a] }).chainSay l (l.deviceOf a.1) a.2.2 a.1 a.2.1 .reserved

/-- What another device says about a launch known here. -/
def State.chainHear (s : State) (l : Launch) (n : ChainNote) : State :=
  let a := (n.source, n.target, n.stage)
  match n.said with
  | .ask => s.putLaunch { l with asks := l.asks ++ [a] }
  | .reserved => s.putLaunch { l with asked := l.asked.erase a, granted := l.granted ++ [a] }
  | .message regs =>
    { (s.putLaunch { l with given := l.given.erase a }) with
      chainMsgs := s.chainMsgs ++ [{ launch := l.id, stage := n.stage, source := n.source, target := n.target, regs := regs }] }
  | .ended => s.putLaunch { l with farEnded := l.farEnded ++ [(n.source, n.stage)] }

/-- The launch that a note is about, if it has come here. -/
def State.chainLaunch (s : State) (n : ChainNote) : Option Launch := s.launches.find? (fun l => l.token == (n.device, n.launch))

/-- A note is heard, or kept until its launch has come. -/
def State.takeChain (s : State) (n : ChainNote) : State :=
  match s.chainLaunch n with
  | some l => s.chainHear l n
  | none => { s with chainNotes := s.chainNotes ++ [n] }

/-- A kept note whose launch has come is heard. -/
def State.hearNotes (s : State) : State :=
  match s.chainNotes.find? (fun n => (s.chainLaunch n).isSome) with
  | none => s
  | some n => ({ s with chainNotes := s.chainNotes.erase n }).takeChain n

end Sys2Proof.Machine
end

