-- ==== Sys2Proof/Machine/System.lean ====
section
/-! DEFINITION. The control registers (R167, R168, R347, R359, R370 to R372, R397, R404), and TRAP, TRET, UPRET, BRK, NOP (R348,
R361, R368). -/
namespace Sys2Proof.Machine

/-! ### Reading -/

/-- FLAGS as an RDC in the window of floating-point instructions may see them: those that these have newly set may be missing
(R158). -/
def State.seenFlags (s : State) : U64 := s.self.flags &&& (~~~s.self.winFlags ||| Config.flagsSubset s.free)

/-- The statistics of entropy value `e` in the network context bound to q5 (R322). -/
def State.netStat (s : State) (e : Nat) : U64 :=
  match s.myCore.bound 5 with
  | none => 0
  | some (ci, _) =>
    if ctxKind ci ≠ 4 then 0
    else
      match findBy (fun x : Nat × U32 × U32 => x.1) e (s.ctx ci).entropy with
      | some x => x.2.1 ++ x.2.2
      | none => 0

/-- EVQSTAT (R314). -/
def State.evqstat (s : State) : U64 :=
  0#24 ++ BitVec.ofNat 8 (min 255 s.myCore.held.length) ++ s.userOf (mkRes 10 s.self.core) ++ 0#9
    ++ BitVec.ofNat 7 s.myCore.events.length

/-- The queue that HQSEL names, as the issuing owner sees it: none when the owner is not a party (R404). -/
def State.myHostq (s : State) : Option HostQ :=
  let q := (s.self.hqsel.extractLsb' 0 16).toNat
  if s.uses s.self.owner (mkRes 7 q) then some (s.hostq q) else none

/-- The issuing owner's registers 0x400 to 0x4FF (R397). -/
def State.myOwner (s : State) : Option Owner := s.owner s.self.owner

/-- The value of a control register; none for an unassigned number. -/
def State.readCtl (s : State) (n : BitVec 12) : Option Cap :=
  let x := s.self
  let int (v : U64) : Option Cap := some (Cap.ofInt v)
  let c := s.myCore
  match n.toNat with
  | 0x001 => some x.trapvec
  | 0x002 => some x.upvec
  | 0x003 => int x.traphold
  | 0x004 => int s.seenFlags
  | 0x005 => int x.round
  | 0x006 => int x.coord
  | 0x007 => int x.settlemode
  | 0x008 => int (BitVec.ofNat 64 x.idx)
  | 0x009 => int (x.owner.setWidth 64)
  | 0x00A => int (BitVec.ofNat 64 s.cycle)
  | 0x00B => int (BitVec.ofNat 64 s.us)
  | 0x010 => some x.tfpcc
  | 0x011 => int x.tfpc
  | 0x012 => int x.tfdone
  | 0x013 => int x.tfclass
  | 0x014 => int x.tfaddr
  | 0x015 => int x.tflane0
  | 0x016 => int x.tflane1
  | 0x017 => int x.tfagent
  | 0x018 => int x.tftime
  | 0x019 => some x.tstack
  | 0x020 => int x.hqsel
  | 0x021 =>
    match s.myHostq with
    | some q => some ((q.ctx.map (fun b => ctxHandle b.1 b.2)).getD .zero)
    | none => int 0
  | 0x022 => some ((s.myHostq.map HostQ.cap0).getD .zero)
  | 0x023 => some ((s.myHostq.map HostQ.cap1).getD .zero)
  | 0x100 => int c.shapes[0]
  | 0x101 => int c.shapes[1]
  | 0x102 => int c.shapes[2]
  | 0x103 => int c.shapes[3]
  | 0x104 => int c.shapes[4]
  | 0x105 => int c.shapes[5]
  | 0x106 => int c.shapes[6]
  | 0x107 => int c.shapes[7]
  | 0x108 => some c.larg
  | 0x109 => int s.lstate
  | 0x110 => int c.chain[0]
  | 0x111 => int c.chain[1]
  | 0x112 => int c.chain[2]
  | 0x113 => int c.chain[3]
  | 0x120 => int c.watch[0]
  | 0x121 => int c.watch[1]
  | 0x122 => int c.watch[2]
  | 0x123 => int c.watch[3]
  | 0x124 => int c.watch[4]
  | 0x125 => int c.watch[5]
  | 0x126 => int c.watch[6]
  | 0x127 => int c.watch[7]
  | 0x130 => int s.evqstat
  | 0x300 => int s.devstat
  | 0x400 => some ((s.myOwner.map Owner.emulent).getD .zero)
  | 0x401 => int (BitVec.ofNat 64 ((s.myOwner.map Owner.emulcore).getD 0))
  | 0x420 => some ((s.myOwner.map Owner.assayreq).getD .zero)
  | 0x421 => int ((s.myOwner.map Owner.assaystat).getD 0)
  | k => if 0x200 ≤ k && k < 0x300 then int (s.netStat (k - 0x200)) else none

/-- RDC. -/
def execRdc (d : BitVec 5) (n : BitVec 12) (s : State) : Host.Outcome State Fault Refusal :=
  match s.readCtl n with
  | none => .next (s.trap 0x01 0)
  | some v =>
    let t := if n = 0x004 || n = 0x109 then s.drawn else s
    .next ((t.setG d v).retire)

/-! ### Watches and write monitors (R370, R372) -/

/-- The slice where a monitor of the issuing core would stand; none when it is refused. -/
def State.monitorSlice (s : State) (addr mask : U64) : Option Nat :=
  match placeOf addr.toNat with
  | .seg i =>
    match s.segAttr i, s.rightsOn s.self.owner false i with
    | some e, some r =>
      let k := homeSlice e addr.toNat
      let used := (s.cores.map (fun c => (c.monitors.toList.filter (fun m => m == some k)).length)).sum
      if mask.extractLsb' 8 56 != BitVec.allOnes 56 || mask.getLsbD 0 || mask.getLsbD 2 || !(e.place == 1 || e.place == 2)
          || !r.r || 4 ≤ used then
        none
      else some k
    | _, _ => none
  | _ => none

/-- A write of one register of WATCH pair n / 2: any monitor of the pair is removed, and the pair asks for one anew. -/
def State.setWatch (s : State) (n : BitVec 3) (w : U64) : State :=
  let i : Fin 4 := ⟨n.toNat / 2, by have := n.isLt; omega⟩
  let c := s.myCore
  let v := if n.getLsbD 0 then w else w &&& ~~~(0xF#64)
  let c1 := { c with watch := c.watch.set n.toNat v, monitors := c.monitors.set i.val none }
  let s1 := s.putCore c1
  let mask := c1.watchMask i
  let k := if mask.getLsbD 3 then s1.monitorSlice (c1.watchAddr i &&& ~~~(0xF#64)) mask else none
  let err : U64 := if mask.getLsbD 3 && k.isNone then 1 else 0
  s1.putCore { c1 with
    watch := c1.watch.set (2 * i.val) ((c1.watchAddr i &&& ~~~(0xF#64)) ||| err), monitors := c1.monitors.set i.val k }

/-! ### Writes with effects of their own -/

/-- EMULENT (R397). -/
def State.setEmulent (s : State) (c : Cap) : State :=
  match s.myOwner with
  | none => s
  | some o => s.putOwner { o with emulent := if c.tag && c.otype == 3 then c else c.untag, emulcore := s.self.core }

/-- HQSEL's ERR bit. -/
def State.hqErr (s : State) (e : Bool) : State :=
  s.setSelf (fun x => { x with hqsel := (x.hqsel &&& 0xFFFF#64) ||| (if e then 1#64 <<< 63 else 0) })

/-- A write to HQCTX, HQCAP0 or HQCAP1: `ok` is the register's own condition, `f` the change; it parks until the blocks that
wait have been passed on (R404). -/
def State.setHostq (s : State) (ok : Bool) (f : HostQ → HostQ) : Run State :=
  match s.myHostq with
  | none => .ok (s.hqErr true)
  | some q =>
    if !ok then .ok (s.hqErr true)
    else if !q.blocks.isEmpty then .error (s.wait (.hostqRoom q.q))
    else .ok ((s.putHostq (f q)).hqErr false)

/-- HQCTX. -/
def State.setHqctx (s : State) (c : Cap) : Run State :=
  if !c.tag then s.setHostq true (fun q => { q with ctx := none })
  else
    s.setHostq (c.otype == 4 && s.ctxCurrent (handleCtx c) (handleGen c))
      (fun q => { q with ctx := some (handleCtx c, handleGen c), dropped := 0 })

/-- HQCAP0 and HQCAP1. -/
def State.setHqcap (s : State) (w : BitVec 1) (c : Cap) : Run State :=
  s.setHostq (c.tag && !c.isSealed && c.holds .en) (fun q => if w = 0 then { q with cap0 := c } else { q with cap1 := c })

/-- ASSAYREQ (R406): ASSAYSTAT is [0] busy, [15:8] operation, [31:16] status, [47:32] status of the last refused write. -/
def State.setAssayreq (s : State) (c : Cap) : State :=
  match s.myOwner with
  | none => s
  | some o =>
    let refuse (code : U64) : State := s.putOwner { o with assaystat := (o.assaystat &&& 0xFFFFFFFF#64) ||| (code <<< 32) }
    if o.assaystat.getLsbD 0 then refuse 0x0009
    else if (([.r, .w, .sc] : List Perm).findSome? (s.capClass c)).isSome || !c.inBounds c.addr.toNat 2048
        || c.addr.toNat % 16 != 0 then
      refuse 0x0011
    else s.putOwner { o with assayreq := c, assaystat := (o.assaystat &&& 0xFFFFFFFF#64) ||| 1 }

/-! ### Writing -/

/-- TSHAPE of a tile: slot 0 only, and only while the tile is unlocked (R168, R243). -/
def State.setShape (s : State) (t : BitVec 3) (w : U64) : Run State := do
  s.slotZero
  s.unlocked t
  .ok (s.putCore { s.myCore with shapes := s.myCore.shapes.set t.toNat (w &&& 0x1FFFFF#64) t.isLt })

/-- CHAIN0 to CHAIN3 keep their listed fields (R258). -/
def chainMask (k : BitVec 2) : U64 :=
  if k = 0 ∨ k = 1 then 0x80000000FFFFFFFF#64 else if k = 2 then 3#64 else 0x1F0F#64

/-- Write a control register; an unassigned or read-only number is an illegal instruction (R168). -/
def State.writeCtl (s : State) (n : BitVec 12) (c : Cap) : Run State :=
  let w := c.addr
  let self (f : Slot → Slot) : Run State := .ok (s.setSelf f)
  match n.toNat with
  | 0x001 => self (fun x => { x with trapvec := c })
  | 0x002 => self (fun x => { x with upvec := c })
  | 0x003 => self (fun x => { x with traphold := w &&& 1 })
  | 0x004 => self (fun x => { x with flags := w &&& 0x1F, winFlags := 0 })
  | 0x005 => self (fun x => { x with round := w &&& 3 })
  | 0x007 => self (fun x => { x with settlemode := w &&& 1 })
  | 0x010 => self (fun x => { x with tfpcc := c })
  | 0x012 => self (fun x => { x with tfdone := x.tfdone.extractLsb' 32 32 ++ w.extractLsb' 0 32 })
  | 0x013 => self (fun x => { x with tfclass := (x.tfclass &&& ~~~(0x300#64)) ||| (w &&& 0x300#64) })
  | 0x019 => self (fun x => { x with tstack := c })
  | 0x020 => self (fun x => { x with hqsel := (x.hqsel &&& (1#64 <<< 63)) ||| (w &&& 0xFFFF#64) })
  | 0x021 => s.setHqctx c
  | 0x022 => s.setHqcap 0 c
  | 0x023 => s.setHqcap 1 c
  | 0x100 => s.setShape 0 w
  | 0x101 => s.setShape 1 w
  | 0x102 => s.setShape 2 w
  | 0x103 => s.setShape 3 w
  | 0x104 => s.setShape 4 w
  | 0x105 => s.setShape 5 w
  | 0x106 => s.setShape 6 w
  | 0x107 => s.setShape 7 w
  | 0x108 => .ok (s.putCore { s.myCore with larg := c })
  | 0x110 => .ok (s.putCore { s.myCore with chain := s.myCore.chain.set 0 (w &&& chainMask 0) })
  | 0x111 => .ok (s.putCore { s.myCore with chain := s.myCore.chain.set 1 (w &&& chainMask 1) })
  | 0x112 => .ok (s.putCore { s.myCore with chain := s.myCore.chain.set 2 (w &&& chainMask 2) })
  | 0x113 => .ok (s.putCore { s.myCore with chain := s.myCore.chain.set 3 (w &&& chainMask 3) })
  | 0x120 => .ok (s.setWatch 0 w)
  | 0x121 => .ok (s.setWatch 1 w)
  | 0x122 => .ok (s.setWatch 2 w)
  | 0x123 => .ok (s.setWatch 3 w)
  | 0x124 => .ok (s.setWatch 4 w)
  | 0x125 => .ok (s.setWatch 5 w)
  | 0x126 => .ok (s.setWatch 6 w)
  | 0x127 => .ok (s.setWatch 7 w)
  | 0x400 => .ok (s.setEmulent c)
  | 0x420 => .ok (s.setAssayreq c)
  | _ => .error (s.trap 0x01 0)

/-- The end of a write: the next word. -/
def wrote (r : Run State) : Host.Outcome State Fault Refusal := finish (r.map State.retire)

/-- WRC. -/
def execWrc (a : BitVec 5) (n : BitVec 12) (s : State) : Host.Outcome State Fault Refusal := wrote (s.writeCtl n (s.g a))

/-- The WRCs that the opcode table lists as steps of their own: the write of the register, and the next word. -/
def execWatchWrite (n : BitVec 3) (a : BitVec 5) (s : State) : Host.Outcome State Fault Refusal :=
  wrote (.ok (s.setWatch n (s.x a)))
def execEmulentWrite (a : BitVec 5) (s : State) : Host.Outcome State Fault Refusal := wrote (.ok (s.setEmulent (s.g a)))
def execHqctxWrite (a : BitVec 5) (s : State) : Host.Outcome State Fault Refusal := wrote (s.setHqctx (s.g a))
def execHqcapWrite (w : BitVec 1) (a : BitVec 5) (s : State) : Host.Outcome State Fault Refusal :=
  wrote (s.setHqcap w (s.g a))

/-! ### SYS (R348) and the returns (R361) -/

/-- A trap whose instruction counts as complete (R358). -/
def State.trapDone (s : State) (cls : BitVec 6) (addr : U64) : State :=
  (s.setSelf (fun x => { x with winDone := x.winDone ||| doneBit x.winStart x.pcc.addr })).trap cls addr

def execTrap (a : BitVec 5) (s : State) : Host.Outcome State Fault Refusal := .next (s.trapDone 0x13 (s.x a))
def execBrk (s : State) : Host.Outcome State Fault Refusal := .next (s.trapDone 0x14 0)
def execNop (s : State) : Host.Outcome State Fault Refusal := .next s.retire

/-- The kind in the slot's frame (R359). -/
def Slot.kind (x : Slot) : BitVec 2 := x.tfclass.extractLsb' 8 2

/-- UPRET needs kind 2 (R284, R361). -/
def execUpret (s : State) : Host.Outcome State Fault Refusal :=
  if s.self.kind = 2 then .next (s.setSelf Slot.resume) else .next (s.trap 0x01 0)

/-- A core or core-time of the issuing core is being recovered from an owner (R47). -/
def State.recovering (s : State) (core : Nat) (owner : U16) : Bool :=
  s.entries.any (fun e =>
    (e.id == mkRes 1 core || (List.range 8).any (fun k => e.id == mkRes 2 (core * 8 + k)))
      && (match e.recovery with
        | some r => r.fromOwner == owner
        | none => false))

/-- A yield image of the issuing slot for the running turn; kept in hardware where the owner has no room for it (R368). -/
def State.yieldImage (s : State) : State :=
  let x := s.self
  let turn := some (x.core * 8 + s.myCore.turn.entry)
  match s.saveImage x true turn with
  | some t => t.putSlot { x.freed with role := .free }
  | none =>
    match s.owner x.owner with
    | none => s.endTask x.core x.idx .discard
    | some o =>
      let c := s.myCore
      let im : Image :=
        { offset := none, size := 1024, turn := turn, isYield := true, slot := x, lease := .none, shapes := c.shapes, tiles := c.tiles
          strips := c.strips, larg := c.larg, chain := c.chain, watch := c.watch, qbind := c.qbind }
      (s.putOwner { o with images := o.images ++ [im] }).putSlot { x.freed with role := .free }

/-- TRET.yield: final at a recovery, a yield image in a rota turn that has ended, else a plain return. -/
def State.yieldNow (s : State) : State :=
  if s.recovering s.self.core s.self.owner then s.endTask s.self.core s.self.idx .discard
  else if 2 ≤ s.myCore.turn.phase.toNat then s.yieldImage
  else s.setSelf Slot.resume

/-- TRET (R361, R368). -/
def execTret (y : BitVec 1) (s : State) : Host.Outcome State Fault Refusal :=
  if s.self.kind = 1 || s.self.kind = 3 then
    if y = 0 then .next (s.setSelf Slot.resume)
    else if s.self.tfclass.extractLsb' 0 6 = 0x15 then .next s.yieldNow
    else .next (s.trap 0x01 0)
  else .next (s.trap 0x01 0)

end Sys2Proof.Machine
end

