-- ==== Sys2Proof/Machine/Maps.lean ====
section
/-! DEFINITION. The MAPS group: MAP (R338, R339), UNMAP (R340), SETCLASS (R341), REVOKE (R342), SCRUB (R57, R343), SHARE (R344);
cache classes (R87, R88) and the register scan (R33). -/
namespace Sys2Proof.Machine

/-! ### Helpers -/

/-- A MAPS refusal: nothing changes, and the member does not synchronise (R336). -/
def State.deny (s : State) (d : BitVec 5) (code detail : Nat) : Run Unit := .error (s.status d code detail)

/-- The lowest set bit of a number below 2^w, as BAD_OPERAND reports it. -/
def lowBit {w : Nat} (x : BitVec w) : Nat := ((List.range w).find? (fun i => x.getLsbD i)).getD 0

/-- The issuing owner holds a resource (HELD) or has borrowed it (LENT). -/
def State.mayUse (s : State) (id : U64) : Bool :=
  let e := s.entry id
  e.recovery.isNone && ((e.state == .held && e.holder == s.meOwner) || (e.state == .lent && e.other == s.meOwner))
/-- The issuing owner has borrowed it. -/
def State.borrows (s : State) (id : U64) : Bool :=
  let e := s.entry id
  e.recovery.isNone && e.state == .lent && e.other == s.meOwner
/-- HELD by the issuing owner. -/
def State.heldByMe (s : State) (id : U64) : Bool := (s.entry id).recovery.isNone && s.holds s.meOwner id

/-- The segment of an address. -/
def segOf (a : U64) : Option Nat := match placeOf a.toNat with
  | .seg i => some i
  | _ => none

/-! ### The stores (R65, R76) -/

/-- The first bucket of a translation entry. -/
def transBucket (key : Nat) : Nat := key * golden % 2 ^ 64 / 2 ^ 44
/-- The home die of a segment, as its entries name it. -/
def State.segHome (s : State) (i : Nat) : Nat := ((s.segAttr i).map (fun e => e.home.toNat)).getD 0
/-- A place of die 0's translation store that a reset translation takes (R411): the last of its first bucket (log 31). -/
def State.resetTransAt (s : State) (home p : Nat) : Bool :=
  p % 16 == 15 && home == 0
    && (List.range 8192).any (fun h => transBucket (transKey (Trans.hostReset h)) == p / 16 && s.hostReset (2 ^ 26 + h))
def State.transPos (s : State) (key : Nat) (home : Nat) : Option Nat :=
  let b := transBucket key
  ((List.range 64).map (fun j => (b + j / 16) % 2 ^ 20 * 16 + j % 16)).find? (fun p =>
    !s.trans.any (fun t => t.pos == p && s.segHome t.seg == home) && !s.resetTransAt home p)

/-- Put a rights entry: one of its owner and unit is replaced. -/
def State.putRights (s : State) (e : Rights) : State :=
  { s with
    rights := s.rights.filter (fun x => !(x.owner == e.owner && x.frame == e.frame && x.index == e.index)) ++ [e] }

/-! ### Cache classes (R87) -/

/-- The lowest free pinning position of a class: way × 8 + position (R72). -/
def State.pinFor (s : State) (die : BitVec 2) (c : BitVec 6) : Option Nat :=
  ((List.range 256).filter (fun p => s.wayClass die (p / 8) == some c)).find? (fun p =>
    !s.rights.any (fun e => !e.frame && e.own && e.home == die && e.pin == some p))

/-! ### The map word (R338) -/

def mapZero (m : U128) : U64 := (m.extractLsb' 0 64) &&& 0xFFFFF00000000F80#64

def mapHome (m : U128) : BitVec 2 := m.extractLsb' 42 2
def mapCls (m : U128) : BitVec 6 := m.extractLsb' 36 6
def mapBig (m : U128) : Bool := m.getLsbD 35
def mapMigration (m : U128) : BitVec 2 := m.extractLsb' 33 2
def mapKey (m : U128) : BitVec 12 := m.extractLsb' 20 12
def mapSealed (m : U128) : Bool := m.getLsbD 19
def mapUnchecked (m : U128) : Bool := m.getLsbD 18
def mapPlace (m : U128) : BitVec 2 := m.extractLsb' 16 2
def mapFrame (m : U128) : U64 := m.extractLsb' 64 64
def mapPage (m : U128) : Nat := (m.extractLsb' 0 7).toNat

/-- The first field of the attributes that R61, R63 and R87 do not allow on a segment for the issuing owner. -/
def State.badAttr (s : State) (seg : Nat) (m : U128) : Option Nat :=
  let host := segIsHost seg
  let unc := mapPlace m == 3
  if mapPlace m == 0 || (host && !unc) then some 16
  else if unc && !mapUnchecked m then some 18
  else if unc && mapSealed m then some 19
  else if mapSealed m && !s.mayUse (mkRes 8 (mapKey m).toNat) then some 20
  else if !mapSealed m && mapKey m != 0 then some 20
  else if mapMigration m == 3 || (unc && mapMigration m != 0) then some 33
  else if (s.cls (mapHome m) (mapCls m)).owner != s.meOwner then some 36
  else if host && mapHome m != 0 then some 42
  else none

/-- The first attribute in which a word differs from a segment's own entry; content-named is left out (R339). -/
def attrDiff (e : Rights) (m : U128) : Option Nat :=
  if mapPlace m != e.place then some 16
  else if mapUnchecked m != e.unchecked then some 18
  else if mapSealed m != e.sealedSeg then some 19
  else if mapKey m != e.key then some 20
  else if mapMigration m != e.migration then some 33
  else if mapBig m != e.big then some 35
  else if mapCls m != e.cls then some 36
  else if mapHome m != e.home then some 42
  else none

/-- A new own entry of a segment with a word's attributes. -/
def ownEntry (owner : U16) (seg : Nat) (m : U128) (pos : Nat) (pin : Option Nat) : Rights :=
  { owner := owner, frame := false, index := seg, r := m.getLsbD 15, w := m.getLsbD 14, x := m.getLsbD 13
    c := m.getLsbD 12, place := mapPlace m, unchecked := mapUnchecked m, sealedSeg := mapSealed m, key := mapKey m
    named := false, migration := mapMigration m, home := mapHome m, cls := mapCls m, big := mapBig m, own := true
    pos := pos, pin := pin }

/-- The own entry of a segment (R63). -/
def State.ownOf (s : State) (seg : Nat) : Option Rights :=
  match s.rights.find? (fun e => !e.frame && e.index == seg && e.own) with
  | some e => some e
  | none => if s.hostReset seg && !(s.rights.any (fun e => !e.frame && e.index == seg)) then some (Rights.hostReset (seg - 2 ^ 26)) else none

/-! ### MAP (R339) -/

/-- A frame is some owner's save-area frame (R365). -/
def State.isSaveFrame (s : State) (id : U64) : Bool :=
  resKind id == 3 && s.owners.any (fun o => o.saveFrame == some (resIndex id) && s.uses o.id id)

/-- Another entry than the one of key `k` is backed by one of `n` 16 KiB pages from page `p` on. -/
def State.pageTaken (s : State) (host : Bool) (p n k : Nat) : Bool :=
  s.trans.any (fun t => t.present && t.host == host && transKey t != k
      && decide (t.page < p + n) && decide (p < t.page + (if t.size then 128 else 1)))
    || (host && s.hostReset (2 ^ 26 + p / 128) && transKey (Trans.hostReset (p / 128)) != k)

/-- The serial of the fault record that a core's access to a page left in an owner's ring: the last one (R364). -/
def State.serialOf (s : State) (owner : U16) (req : U32) (page : Nat) : Option Nat :=
  match s.saveArea owner with
  | none => none
  | some b =>
    let head := s.faultHead b
    (List.range (min head 255)).findSome? (fun i =>
      let n := head - 1 - i
      let at0 := b + 0xFC040 + 64 * (n % 255)
      if Memory.readN s.mem at0 2 = 1 ∧ Memory.readN s.mem (at0 + 4) 4 = req.toNat ∧ Memory.readN s.mem (at0 + 48) 8 = page then
        some n
      else none)

/-- A page becomes present: the notice to each core with a slot whose outstanding or saved upcall names it, that of a fibre that its
scheduler has put aside among them (R364). -/
def State.announce (s : State) (page size : Nat) : State :=
  let hit (u : Agent × U16 × Nat) : Bool := decide (page ≤ u.2.2) && decide (u.2.2 < page + size)
  let l := (s.upcalls.filter hit).filterMap (fun u => (s.agentSlot u.1).map (fun x => (x.core, u.2.1)))
  l.eraseDups.foldl (fun t c =>
    let serial := t.serialOf c.2 (t.source 0 c.1) page
    let t1 := if serial.isNone then t.drawn else t
    t1.postEvent c.1
      { kind := 4, status := 1, source := t.source 0 c.1, number := 0, d0 := BitVec.ofNat 64 page
        d1 := (serial.map (BitVec.ofNat 64)).getD (Config.free (4 * t.free)) })
    { s with upcalls := s.upcalls.filter (fun u => !hit u) }

/-- One line of a page that MAP moves to another frame, or takes away (R74, R78): a cache may still hold it, and then it goes on serving hits
by its virtual address; the old frame has what backing store held. Which lines still are cached is a free choice, but for those written of
a SLICE-PINNED segment, which always are (R72). -/
def State.keepLine (s : State) (pinned : Bool) (o : Trans) (i : Nat) : State :=
  let p := o.base / 256 + i
  let line := (o.vpn * 2 ^ 14) / 256 + i
  let old := s.behind.find? (fun x => x.line == p)
  if !((pinned && old.isSome) || Config.lineStillCached s.free line) then { s with behind := s.behind.filter (fun x => x.line != p) }
  else
    let t := s.putLine ((keptBase + line * 256) / 256) (s.lineNow p)
    let u := match old with
      | some b => t.putLine p b
      | none => t
    { u with kept := u.kept ++ [{ line := line, dirty := (old.map OldLine.dirty).getD 0 }] }

/-- The lines of a page whose entry MAP replaces. -/
def State.keepLines (s : State) (o : Trans) : State :=
  let e := s.segAttr o.seg
  if o.host || !o.present || e.all (fun x => x.place == 3) then s
  else
    let pinned := e.any (fun x => x.place == 1)
    -- a line that stayed cached over an earlier move is kept as it is
    let l := (List.range (o.bytes / 256)).filter (fun i => !s.isKept (o.vpn * 2 ^ 14 + i * 256))
    (l.foldl (fun t i => t.keepLine pinned o i) s).drawn

/-- MAP. -/
def State.map (s : State) (d : BitVec 5) (a : U64) (m : U128) : Run State := do
  match segOf a with
  | none => .error (s.status d 4 0)
  | some seg =>
    let me := s.meOwner
    let size := if mapBig m then 2 ^ 21 else 2 ^ 14
    if a.toNat % size ≠ 0 then s.deny d 0x11 (lowBit a)
    if mapZero m ≠ 0 then s.deny d 0x11 (lowBit (mapZero m))
    if mapBig m && mapPage m != 0 then s.deny d 0x11 (lowBit (m.extractLsb' 0 7))
    if !s.mayUse (mkRes 5 seg) then s.deny d 1 0
    if s.revoked.contains { frame := false, index := seg } then s.deny d 7 (s.sweepNumber { frame := false, index := seg })
    if m.getLsbD 32 then s.deny d 0xC 32
    let own ←
      match s.ownOf seg with
      | some e =>
        match attrDiff e m with
        | some k => (s.deny d 0xC k).map (fun _ => e)
        | none => pure e
      | none =>
        match s.badAttr seg m with
        | some k => (s.deny d 0xC k).map (fun _ => ownEntry me seg m 0 none)
        | none =>
          let pin := if mapPlace m = 1 then s.pinFor (mapHome m) (mapCls m) else none
          if mapPlace m = 1 ∧ pin.isNone then s.deny d 0xD 0
          match s.rightsPos me false seg with
          | some p => pure (ownEntry me seg m p pin)
          | none => (s.deny d 0xD 0).map (fun _ => ownEntry me seg m 0 none)
    let frame := mapFrame m
    let host := segIsHost seg
    let key := (a.toNat / 2 ^ 14 % 2 ^ 42) * 2 + (if mapBig m then 1 else 0)
    let page := resIndex frame * 128 + mapPage m
    if frame ≠ 0 then
      if resKind frame ≠ (if host then 11 else 3) || !resValid frame then s.deny d 0xC 120
      if !s.mayUse frame then s.deny d 1 0
      if !host && homeDie frame != (mapHome m).toNat then s.deny d 0xC 42
      if s.isSaveFrame frame then s.deny d 0x10 0
      if s.pageTaken host page (if mapBig m then 128 else 1) key then s.deny d 0xE 0
    let old := (findBy transKey key s.trans).orElse (fun _ =>
      if s.hostReset seg && transKey (Trans.hostReset (seg - 2 ^ 26)) == key then some (Trans.hostReset (seg - 2 ^ 26)) else none)
    let pos ←
      match findBy transKey key s.trans with
      | some t => pure t.pos
      | none =>
        match s.transPos key (mapHome m).toNat with
        | some p => pure p
        | none => (s.deny d 0xD 0).map (fun _ => 0)
    let new : Trans :=
      { vpn := a.toNat / 2 ^ 14 % 2 ^ 42, size := mapBig m, present := frame != 0, lost := false, clean := true, migrating := 0
        protect := mapMigration m == 1, key := mapKey m, host := host, page := if frame = 0 then 0 else page, pos := pos }
    let t := (s.hostLeaves seg).putRights { own with r := m.getLsbD 15, w := m.getLsbD 14, x := m.getLsbD 13, c := m.getLsbD 12 }
    let k := match old with
      | some o => if new.present && o.page == new.page then t else t.keepLines o
      | none => t
    let u := { k with trans := putBy transKey new k.trans }
    .ok ((if frame = 0 then u else u.announce a.toNat size).status d 0 (if old.isSome then 1 else 0))

def execMap (d a b : BitVec 5) (s : State) : Host.Outcome State Fault Refusal :=
  finish (s.map d (s.x a) (s.g b).bits)

/-! ### UNMAP (R340) -/

/-- The own entry of a host-window segment whose reset entry goes becomes an entry of the store. -/
def State.keepHostRights (s : State) (seg : Nat) : State :=
  if s.hostReset seg ∧ (s.rights.find? (fun e => !e.frame && e.index == seg && e.own)).isNone then
    s.putRights (Rights.hostReset (seg - 2 ^ 26))
  else s

def execUnmap (d a b : BitVec 5) (s : State) : Host.Outcome State Fault Refusal :=
  finish (do
    let w := s.x b
    let bad := w &&& 0xFFFFFFFF0000FFFC#64
    match segOf (s.x a) with
    | none => .error (s.status d 4 0)
    | some seg =>
      if bad ≠ 0 then s.deny d 0x11 (lowBit bad)
      if w &&& 3 = 3 then s.deny d 0x11 0
      if !s.mayUse (mkRes 5 seg) then s.deny d 1 0
      if w &&& 3 = 0 then
        match s.transAt (s.x a).toNat with
        | none => .error (s.status d 0xF 0)
        | some t => .ok ((((s.keepHostRights seg).hostLeaves seg).dropTrans t).status d 0 0)
      else if w &&& 3 = 1 then
        if (s.ownOf seg).isNone ∧ !(s.trans.any (fun t => t.seg == seg)) ∧ !(s.rights.any (fun e => !e.frame && e.index == seg)) then
          s.deny d 0xF 0
        .ok ((s.dropSegment seg).status d 0 0)
      else
        let o := w.extractLsb' 16 16
        let mine (e : Rights) : Bool := !e.frame && e.index == seg && !e.own && e.owner == o
        if !s.rights.any mine then s.deny d 0xF 0
        -- its lines are written back before it goes (R67)
        let t := s.writeBackSeg seg
        .ok (({ t with rights := t.rights.filter (fun e => !mine e) }).status d 0 0))

/-! ### SETCLASS (R341) -/

/-- The bits of an integer value above a field must be zero. -/
def State.zeroAbove (s : State) (d : BitVec 5) (v : U128) (mask : U128) : Run Unit :=
  if v &&& ~~~mask ≠ 0 then s.deny d 0x11 (lowBit (v &&& ~~~mask)) else .ok ()

/-- Some page of a segment is present. -/
def State.somePresent (s : State) (seg : Nat) : Bool := s.trans.any (fun t => t.present && t.seg == seg) || s.hostReset seg

/-- The segments of the region that a segment belongs to; 0 where it belongs to none. -/
def State.regionSize (s : State) (seg : Nat) : Nat :=
  ((s.regions.find? (fun r => decide (r.seg ≤ seg) && decide (seg < r.seg + r.n))).map Region.n).getD 0

/-- The first field of an attribute word that a segment may not take: R61, R63 and R87, and what must equal its own; the segments of a
region stay alike (R92, R341). -/
def State.badChange (s : State) (seg : Nat) (e : Rights) (m : U128) : Option Nat :=
  let runs := decide (1 < s.regionSize seg)
  let own : Option Nat :=
    if e.named && (mapPlace m != 2) then some 16
    else if mapSealed m != e.sealedSeg && (runs || s.somePresent seg) then some 19
    else if mapKey m ≠ e.key then some 20
    else if m.getLsbD 32 != e.named then some 32
    else if e.named && mapMigration m != 0 then some 33
    else if mapBig m ≠ e.big then some 35
    else if runs && mapCls m != e.cls then some 36
    else if mapHome m ≠ e.home then some 42
    else none
  match own, s.badAttr seg m with
  | some a, some b => some (min a b)
  | some a, none => some a
  | none, b => b

/-- A segment's race checking changes: its records, and what its unchecked writes have overwritten, are met no more (R129, R136). -/
def State.recheck (s : State) (seg : Nat) : State :=
  let lo := segBase seg
  let t := s.forgetOlder lo (lo + 2 ^ 21)
  { t with recs := t.recs.filter (fun r => decide (r.granule * 32 < lo) || decide (lo + 2 ^ 21 ≤ r.granule * 32)) }

/-- Field 0 of a segment: its attributes. -/
def State.setAttr (s : State) (d : BitVec 5) (seg : Nat) (m : U128) : Run State := do
  if !s.mayUse (mkRes 5 seg) then s.deny d 1 0
  if mapZero m ≠ 0 then s.deny d 0x11 (lowBit (mapZero m))
  match s.ownOf seg with
  | none => .error (s.status d 0xC 16)
  | some e =>
    match s.badChange seg e m with
    | some k => s.deny d 0xC k
    | none => .ok ()
    let stays := e.place == 1 && mapPlace m == 1 && mapCls m == e.cls
    let pin := if stays then e.pin else if mapPlace m = 1 then s.pinFor e.home (mapCls m) else none
    if mapPlace m = 1 ∧ pin.isNone then s.deny d 0xD 0
    let moved := mapPlace m != e.place || mapCls m != e.cls || mapSealed m != e.sealedSeg
    let t := if moved then s.writeBackSeg seg else s
    let u := (if mapUnchecked m = e.unchecked then t else t.recheck seg).keepHostRights seg
    .ok ((State.freeClasses { u with
      rights := u.rights.map (fun (x : Rights) =>
        if !x.frame && x.index == seg then
          { x with
            place := mapPlace m, unchecked := mapUnchecked m, sealedSeg := mapSealed m, migration := mapMigration m
            cls := mapCls m, pin := if x.own then pin else none }
        else x) }).status d 0 0)

/-- Some segment has no own entry, or one of which `f` holds. -/
def State.someOwn (s : State) (segs : List Nat) (f : Rights → Bool) : Bool :=
  segs.any (fun i => match s.ownOf i with
    | some x => f x
    | none => true)

/-- Field 1 of a segment: form a region of n segments (R92 to R94). -/
def State.formRegion (s : State) (d : BitVec 5) (seg : Nat) (v : U128) : Run State := do
  let n := (v.extractLsb' 0 12).toNat
  let ctx := v.extractLsb' 64 64
  let me := s.meOwner
  if v.extractLsb' 12 52 ≠ 0 then s.deny d 0x11 (lowBit (v.extractLsb' 12 52) + 12)
  if n = 0 then s.deny d 0x11 0
  if resKind ctx ≠ 6 || !resValid ctx || ctxKind (resIndex ctx) ≠ 5 then s.deny d 0x11 64
  let segs := (List.range n).map (fun i => seg + i)
  if segs.any (fun i => !resValid (mkRes 5 i)) then s.deny d 4 0
  if segs.any (fun i => !s.heldByMe (mkRes 5 i)) then s.deny d 1 0
  match s.ownOf seg with
  | none => .error (s.status d 0xC 16)
  | some e =>
    let bad (f : Rights → Bool) : Bool := s.someOwn segs f
    if bad (fun x => x.place != 2) then s.deny d 0xC 16
    if bad (fun x => x.sealedSeg != e.sealedSeg) then s.deny d 0xC 19
    if bad (fun x => x.key != e.key) then s.deny d 0xC 20
    if bad (fun x => x.named) then s.deny d 0xC 32
    if bad (fun x => x.migration != 0) then s.deny d 0xC 33
    if bad (fun x => x.cls != e.cls) then s.deny d 0xC 36
    if !s.heldByMe ctx then s.deny d 1 0
    let r : Region :=
      { seg := seg, n := n, saltOwner := me, salt := ((s.owner me).map Owner.salt).getD 0, relCtx := ctx, lastRel := 0
        live := 0, used := [], heldReleases := [] }
    -- its index lines are zeroed, and its header line is written (R92)
    let z := segs.foldl (fun t i => t.zeroLines (segBase i) (segBase seg) (segBase seg + 256 * (910 * n + 1))) s
    let t := z.putHead r
    .ok (({ t with
      rights := t.rights.map (fun (x : Rights) =>
        if !x.frame && segs.contains x.index then { x with named := true } else x) }).status d 0 0)

/-- Fields of a core-time entry (R287). -/
def State.setRota (s : State) (d : BitVec 5) (id : U64) (field : Nat) (c : Cap) : Run State := do
  let e := s.entry id
  let core := s.core (resCore id)
  let put (f : Rota → Rota) : Run State :=
    .ok ((s.putCore { core with rota := core.rota.mapFinIdx (fun k x _ => if k = resRota id then f x else x) }).status d 0 0)
  if field = 3 then
    if e.user ≠ s.meOwner then s.deny d 1 0
    put (fun x => { x with handler := s.dropRevoked c })
  else
    s.zeroAbove d c.bits 0xFFFFFFFF
    if (s.entry (mkRes 1 (resCore id))).holder ≠ s.meOwner then s.deny d 1 0
    let v := c.bits.extractLsb' 0 32
    if field = 0 then
      if e.state = .lent && sliceTooShort v.toNat (s.rotaOf id).budget.toNat then s.deny d 6 0
      put (fun x => { x with slice := v })
    else if field = 1 then put (fun x => { x with limit := v })
    else
      if e.state = .lent then s.deny d 2 4
      put (fun x => { x with budget := v })

/-- A way unit leaves its class, whose lines in it are written back (R89); a class without way units that no segment names becomes free, and
keeps its ceiling and its ways above the floor (log 101). -/
def State.leaveClass (s : State) (die : BitVec 2) (c : BitVec 6) : State :=
  let x := s.cls die c
  ((s.loseWay die c (decide (x.ways ≤ 1))).putCls { x with floor := x.floor - 1, ways := x.ways - 1 }).freeClasses

/-- Ways that no class holds: the pool less the ways that classes hold above their floors (R87). -/
def State.freeWays (s : State) (die : BitVec 2) : Nat :=
  (s.pool.filter (fun p => p.1 == die)).length
    - ((s.classes.filter (fun x => x.die == die)).map (fun x => x.ways - x.floor)).sum

/-- A way unit leaves the pool: where no way is free, the lowest class above its floor gives one up (log 101). -/
def State.leavePool (s : State) (die : BitVec 2) (way : Nat) : State :=
  let t := if 0 < s.freeWays die then s
    else
      match s.classes.find? (fun x => x.die == die && decide (x.floor < x.ways)) with
      | some x => (s.loseWay die x.cls (decide (x.ways ≤ 1))).putCls { x with ways := x.ways - 1 }
      | none => s
  { t with pool := t.pool.filter (fun p => p != (die, way)) }

/-- Fields of an L2 way unit. -/
def State.setWay (s : State) (d : BitVec 5) (id : U64) (field : Nat) (c : Cap) : Run State := do
  let die := BitVec.ofNat 2 (resIndex id / 32)
  let way := resIndex id % 32
  let cur := s.wayClass die way
  let unassign (t : State) : State := match cur with
    | some k => t.leaveClass die k
    | none => t.leavePool die way
  if field = 0 then
    s.zeroAbove d c.bits 0x3F
    if !s.heldByMe id then s.deny d 1 0
    let k := c.bits.extractLsb' 0 6
    let row := s.cls die k
    if row.owner ≠ 0 ∧ row.owner ≠ s.meOwner then s.deny d 1 0
    if cur = some k then .ok (s.status d 0 0)
    else
      if s.wayPins die.toNat way then s.deny d 0x10 0
      let t := unassign s
      let x := t.cls die k
      let u := t.putCls { x with
        owner := s.meOwner, floor := x.floor + 1, ways := x.ways + 1, ceiling := max x.ceiling (x.floor + 1) }
      .ok (({ u with ways := u.ways.filter (fun (w : BitVec 2 × Nat × BitVec 6) => !(w.1 == die && w.2.1 == way)) ++ [(die, way, k)] }).status d 0 0)
  else if field = 1 then
    s.zeroAbove d c.bits 0
    if !s.heldByMe id then s.deny d 1 0
    if s.wayPins die.toNat way then s.deny d 0x10 0
    match cur with
    | none => .ok (s.status d 0 0)
    | some k =>
      let t := s.leaveClass die k
      .ok (({ t with
        pool := t.pool ++ [(die, way)], ways := t.ways.filter (fun w => !(w.1 == die && w.2.1 == way)) }).status d 0 0)
  else
    s.zeroAbove d c.bits 0x3F
    let v := (c.bits.extractLsb' 0 6).toNat
    if 32 < v then s.deny d 0x11 0
    match cur with
    | none => .error (s.status d 1 0)
    | some k =>
      let x := s.cls die k
      if x.owner ≠ s.meOwner then s.deny d 1 0
      let ceil := max v x.floor
      let t := if ceil < x.ways then s.loseWay die k (decide (ceil = 0)) else s
      .ok ((t.putCls { x with ceiling := ceil, ways := min x.ways ceil }).status d 0 0)

/-- SETCLASS. -/
def State.setClass (s : State) (d : BitVec 5) (sel : U128) (c : Cap) : Run State := do
  let id := sel.extractLsb' 0 64
  let field := (sel.extractLsb' 64 8).toNat
  if sel.extractLsb' 72 56 ≠ 0 then s.deny d 0x11 (lowBit (sel.extractLsb' 72 56) + 72)
  if !resValid id then s.deny d 4 0
  let limit := match resKind id with
    | 5 => 3
    | 2 => 4
    | 9 => 3
    | _ => 0
  if limit = 0 then s.deny d 0x11 56
  if limit ≤ field then s.deny d 0x11 64
  match resKind id with
  | 2 => s.setRota d id field c
  | 9 => s.setWay d id field c
  | _ =>
    if field = 0 then s.setAttr d (resIndex id) c.bits
    else if field = 1 then s.formRegion d (resIndex id) c.bits
    else
      s.zeroAbove d c.bits 0
      if !s.heldByMe id then s.deny d 1 0
      match s.region (resIndex id) with
      | none => .error (s.status d 4 0)
      | some r => .ok ((s.discardRegion r).status d 0 0)

def execSetclass (d a b : BitVec 5) (s : State) : Host.Outcome State Fault Refusal :=
  finish (s.setClass d (s.g a).bits (s.g b))

/-! ### REVOKE (R342) -/

/-- The units that REVOKE names: none where they are not all of one kind or name no resource. -/
def revokeUnits (first : U64) (count : Nat) : Option (List Unit30) :=
  let i := resIndex first
  let all (frame : Bool) : Option (List Unit30) := some ((List.range count).map (fun j => { frame := frame, index := i + j }))
  if !resValid first then none
  else if resKind first = 4 then (if i + count ≤ Config.spadFrames then all true else none)
  else if resKind first = 5 then
    if i < 2 ^ 26 then (if i + count ≤ 2 ^ 26 then all false else none)
    else if i + count ≤ 2 ^ 26 + Config.hostFrames then all false else none
  else none

def unitRes (u : Unit30) : U64 := mkRes (if u.frame then 4 else 5) u.index

/-- The traps of REVOKE on its context handle. -/
def State.sweepHandle (s : State) (b : BitVec 5) : Run Nat := do
  let h := s.g b
  if !h.tag then .error (s.trap 0x03 0)
  if h.otype ≠ 4 then .error (s.trap 0x06 0)
  if s.isRevoked h then .error (s.capTrap b 0x16 (.plain 0x16 0))
  if !s.ctxCurrent (handleCtx h) (handleGen h) || ctxKind (handleCtx h) ≠ 6 then .error (s.trap 0x0F 0)
  .ok (handleCtx h)

/-- The SWEEP block is placed once the context has room, and REVOKE completes. -/
def State.placeSweep (s : State) (d : BitVec 5) (ci : Nat) (units : List Unit30) (first : U64) : State :=
  if 32 ≤ (s.ctx ci).waiting.length then s.wait (.ctxRoom ci)
  else
    let r := s.sweepOn units (some ci) first
    ((r.1.sync 2).setG d { bits := BitVec.ofNat 64 r.2 ++ (swStatus 0 r.2).setWidth 64, tag := false }).retire

def execRevoke (d a b : BitVec 5) (s : State) : Host.Outcome State Fault Refusal :=
  let first := s.x a
  let count := (s.g a).high.toNat
  finish (match s.self.park with
    | .ctxRoom ci => .ok (s.placeSweep d ci ((revokeUnits first count).getD []) first)
    | _ => do
      let ci ← s.sweepHandle b
      if count = 0 ∨ 65536 < count then refuseU s d 0x11 64
      match revokeUnits first count with
      | none => s.refuse d 4 0
      | some units =>
        if s.lapsed s.meOwner then refuseU s d 10 0
        if units.any (fun u => !s.mayUse (unitRes u)) then refuseU s d 1 0
        .ok (({ s with revoked := s.revoked ++ units.filter (fun u => !s.revoked.contains u) }).placeSweep d ci units first))

/-! ### SCRUB (R57, R343) -/

/-- SHA-512 of the identity public key: of its modulus, as the assay core writes it (R406; log 32). -/
def identityHash : List U8 := sha512 (bytesLE 512 Config.identityModulus.toNat)

/-- A receipt of `n` scrubbed and `m` withdrawn frames. -/
def State.receipt (s : State) (serial : Nat) (done gone : List U64) : List U8 :=
  let l := bytesLE 8 serial ++ bytesLE 2 s.meOwner.toNat ++ bytesLE 2 0 ++ bytesLE 4 done.length ++ bytesLE 4 gone.length
    ++ bytesLE 4 0 ++ bytesLE 8 s.us ++ identityHash ++ (done ++ gone).flatMap (fun f => bytesLE 8 f.toNat)
  l ++ bytesLE 512 (Config.identitySignature s.free l).toNat

/-- The status of a frame that SCRUB names, with RETIRED frames of the issuer withdrawn. -/
def State.scrubCheck (s : State) (id : U64) : Option Nat :=
  let e := s.entry id
  if !resValid id then some 4
  else if e.holder ≠ s.meOwner then some 1
  else if e.state = .retired then none
  else if e.state ≠ .held then some 2
  else if e.recovery.isSome then some 2
  else if s.backs id then some 0x10
  else none

/-- SCRUB zeroes a frame. An uncorrectable error met in it is rewritten and read back; where that fails, the frame is retired at once (R57):
of an HBM frame, a free choice. -/
def State.scrubFrame (s : State) (id : U64) : State :=
  let t := (s.zeroFrame id).drawn
  if resKind id = 3 && Config.scrubFails s.free then (t.retireEntry id).countRetired else t

/-- Pieces of at most 256 bytes that a long store makes. -/
def longLanes (a : U64) (n : Nat) : List Lane :=
  (List.range ((n + 255) / 256)).map (fun i => { i := i, ea := a + BitVec.ofNat 64 (256 * i), n := min 256 (n - 256 * i), mask := 0 })

def execScrub (d a b : BitVec 5) (s : State) : Host.Outcome State Fault Refusal :=
  let first := s.x a
  let count := (s.g a).high.toNat
  let out := s.g b
  finish (do
    if count = 0 ∨ 4096 < count then s.deny d 0x11 64
    let lanes := longLanes (s.x b) (608 + 8 * count)
    if out.tag && s.self.sent.isEmpty then
      s.capCheck b out (s.x b) (608 + 8 * count) [.w] false
      s.laneCheck b out .w true false lanes (s.x b)
    let ids := (List.range count).map (fun i => first + BitVec.ofNat 64 i)
    if resKind first ≠ 3 ∧ resKind first ≠ 11 then s.deny d 4 0
    if s.self.sent.isEmpty then
      match ids.zipIdx.findSome? (fun x => (s.scrubCheck x.1).map (fun k => (k, x.2))) with
      | some (k, i) => s.deny d k i
      | none => .ok ()
    let t := if s.self.sent.isEmpty then (ids.filter (fun f => (s.entry f).state != .retired)).foldl State.scrubFrame s else s
    let gone := ids.filter (fun f => (t.entry f).state == .retired)
    let done := ids.filter (fun f => (t.entry f).state != .retired)
    if !out.tag then .ok (t.status d 0 gone.length)
    else
      let serial := s.receipts + 1
      let l := t.receipt serial done gone
      let u ← t.saveLanes b out false lanes (s.x b) (fun i => ofBytesLE ((l.drop (256 * i)).take 256))
      .ok (((({ u with receipts := serial, free := u.free + 1 }).setG d
        { bits := BitVec.ofNat 64 serial ++ (swStatus 0 gone.length).setWidth 64, tag := false })).retire))

/-! ### SHARE (R344) -/

def execShare (d a b : BitVec 5) (s : State) : Host.Outcome State Fault Refusal :=
  finish (do
    let id := s.x a
    let w := s.x b
    let o := w.extractLsb' 0 16
    let frame := resKind id == 4
    let i := resIndex id
    let me := s.meOwner
    if w &&& ~~~(0xFFFFF#64) ≠ 0 then s.deny d 0x11 (lowBit (w &&& ~~~(0xFFFFF#64)))
    if !isRevUnit id || !resValid id then s.deny d 4 0
    if s.borrows id then s.deny d 5 0
    if !s.heldByMe id then s.deny d 1 0
    if !s.lives o || o == me then s.deny d 4 0
    let ask := w.extractLsb' 16 4
    let mine (e : Rights) : Bool := e.owner == o && e.frame == frame && e.index == i
    -- no rights lie within any: they remove the share, its lines written back first (R67)
    if ask = 0 then
      let t := if !frame && s.rights.any mine then s.writeBackSeg i else s
      .error (({ t with rights := t.rights.filter (fun e => !mine e) }).status d 0 0)
    match s.rightsOn me frame i with
    | none => .error (s.status d 0x11 (lowBit ask + 16))
    | some own =>
      let has : BitVec 4 := BitVec.ofBool own.r ++ BitVec.ofBool own.w ++ BitVec.ofBool own.x ++ BitVec.ofBool own.c
      let out := ask &&& ~~~has
      if out ≠ 0 then s.deny d 0x11 (lowBit out + 16)
      let t := s.keepHostRights i
      let pos ←
        match t.rights.find? mine with
        | some e => pure e.pos
        | none =>
          match t.rightsPos o frame i with
          | some p => pure p
          | none => (s.deny d 0xD 0).map (fun _ => 0)
      .ok ((t.putRights { own with
        owner := o, r := ask.getLsbD 3, w := ask.getLsbD 2, x := ask.getLsbD 1, c := ask.getLsbD 0, own := false
        pos := pos, pin := none }).status d 0 0))

/-! ### Events -/

/-- Estimated misses of a class with `w` ways, over its shadow tags (R88). -/
def Cls.missesAt (x : Cls) (w : Nat) : Nat := x.misses + (x.hits.drop w).sum
def Cls.gain (x : Cls) : Nat := x.missesAt x.ways - x.missesAt (x.ways + 1)
def Cls.loss (x : Cls) : Nat := x.missesAt (x.ways - 1) - x.missesAt x.ways

/-- The first class of the best value. -/
def bestCls (better : Nat → Nat → Bool) (f : Cls → Nat) (l : List Cls) : Option Cls :=
  l.foldl (fun (b : Option Cls) x =>
    match b with
    | none => some x
    | some y => if better (f x) (f y) then some x else b) none

/-- The moves of one interval: each class gains or gives at most one way. -/
def State.rebalance (s : State) (die : BitVec 2) (moved : List (BitVec 6)) : Nat → State
  | 0 => s
  | k + 1 =>
    let l := s.classes.filter (fun x => x.die == die && !moved.contains x.cls)
    match bestCls (fun a b => decide (b < a)) Cls.gain (l.filter (fun x => decide (x.ways < x.ceiling))) with
    | none => s
    | some r =>
      if 0 < s.freeWays die then (s.putCls { r with ways := r.ways + 1 }).rebalance die (r.cls :: moved) k
      else
        match bestCls (fun a b => decide (a < b)) Cls.loss (l.filter (fun x => x.cls != r.cls && decide (x.floor < x.ways))) with
        | none => s
        | some g =>
          if g.loss < r.gain then
            -- the lines of the class that gives are written back before the way serves the other (R89)
            ((((s.loseWay die g.cls (decide (g.ways ≤ 1))).putCls { r with ways := r.ways + 1 })).putCls { g with ways := g.ways - 1 }).rebalance die
              (r.cls :: g.cls :: moved) k
          else s

/-- Whether a millisecond has begun since the die last moved ways. -/
def State.rebalanceDue (s : State) (die : BitVec 2) : Bool :=
  decide (((findBy (fun x : Nat × Nat => x.1) die.toNat s.rebalanced).map (fun x => x.2)).getD 0 < s.us / 1000)

/-- What the monitors of a die have counted since its classes last moved ways, for classes that a segment names: free values (R88; log 9). -/
def State.monitored (s : State) (die : BitVec 2) : State :=
  let named (x : Cls) : Bool := s.rights.any (fun e => !e.frame && e.cls == x.cls)
  { s with
    free := s.free + 64
    classes := s.classes.map (fun x =>
      if x.die == die && named x then
        { x with
          hits := x.hits.zipIdx.map (fun h => h.1 + Config.shadowHits (s.free + x.cls.toNat) (h.2 + 1))
          misses := x.misses + Config.shadowHits (s.free + x.cls.toNat) 0 }
      else x) }

/-- CLASS_REBALANCE (R88). -/
def State.classRebalanced (s : State) (die : BitVec 2) : State :=
  if !s.rebalanceDue die then s
  else
    let t := (s.monitored die).rebalance die [] 64
    { t with
      rebalanced := putBy (fun x : Nat × Nat => x.1) (die.toNat, s.us / 1000) t.rebalanced
      classes := t.classes.map (fun x =>
        if x.die == die then { x with hits := x.hits.map (· / 2), misses := x.misses / 2 } else x) }

def execClassRebalance (die : BitVec 2) (s : State) : Host.Outcome State Fault Refusal := .next (s.classRebalanced die)

/-- REGISTER_SCAN_DEADLINE (R33). -/
def execRegisterScanDeadline (core : Nat) (s : State) : Host.Outcome State Fault Refusal := .next (s.registerScan core)

end Sys2Proof.Machine
end

