-- ==== Sys2Proof/Machine/Engines.lean ====
section
/-! DEFINITION. The engines: the checks of a block as its engine starts it (R297 to R300), the copy engine with its faulting copies
and RESUME (R301 to R303, R387), FRAMECOPY and its migration passes (R302, R375 to R378), GATHER (R304), collectives (R305) and
SWEEP (R32). -/
namespace Sys2Proof.Machine

/-! ### Starting a block (R298, R299) -/

/-- The engine kind of a code; none for a code that names no command. -/
def codeEngine (code : Nat) : Option Nat :=
  match code with
  | 0x01 => some 1
  | 0x02 => some 1
  | 0x03 => some 1
  | 0x04 => some 1
  | 0x05 => some 1
  | 0x10 => some 2
  | 0x20 => some 3
  | 0x21 => some 3
  | 0x22 => some 3
  | 0x23 => some 3
  | 0x30 => some 4
  | 0x31 => some 4
  | 0x32 => some 4
  | 0x33 => some 4
  | 0x40 => some 0
  | 0x50 => some 5
  | _ => none

/-- The code of a block is one its engine runs; internal codes only where REVOKE or a swatch unit placed them. -/
def State.codeOk (s : State) (ci : Nat) (c : Cmd) : Bool :=
  if c.code = 0x60 then s.sweeps.any (fun w => w.ctx == some ci && w.number == c.number)
  else if c.code = 0x51 then s.releases.any (fun r => r.is ci c.number)
  else if c.code = 0x04 then ctxKind ci == 1 || ctxKind ci == 2
  else codeEngine c.code == some (ctxKind ci)

/-- The field cflags, when its code does not allow it, as its lowest bit of the block (R299, R306, R319, R375). -/
def badFlags (code : Nat) (f : BitVec 6) : Option Nat :=
  let n := f.toNat
  let bad : Bool :=
    if code = 0x05 then decide (4 ≤ n)
    else if code = 0x50 then decide (8 ≤ n)
    else if code = 0x30 then decide (1 < n % 4) || decide (8 ≤ n)
    else if code = 0x32 ∨ code = 0x33 then n % 2 == 1 || decide (8 ≤ n)
    else n != 0
  if bad then some 394 else none

/-- The first field of word 3 that fails, as a bit of the block. -/
def Cmd.badWord3 (c : Cmd) : Option Nat :=
  let w := c.w3.bits
  let bench := (w.extractLsb' 64 7).toNat
  if 3 < c.priority then some 504
  else if w.extractLsb' 73 47 ≠ 0 then some 457
  else if (w.extractLsb' 71 2).toNat ≠ bench / 24 then some 455
  else if 95 < bench then some 448
  else if w.extractLsb' 32 32 ≠ 0 then some 416
  else if 47 < (w.extractLsb' 16 16).toNat then some 400
  else badFlags c.code (w.extractLsb' 10 6)

/-- Low and high half of word 2. -/
def Cmd.len (c : Cmd) : U64 := c.w2.bits.extractLsb' 0 64
def Cmd.extra (c : Cmd) : U64 := c.w2.bits.extractLsb' 64 64

/-- A power of two from 1 to 4,096. -/
def elemOk (e : Nat) : Bool := (List.range 13).any (fun k => e == 2 ^ k)

/-- The devices of a collective, by rank (R305). -/
def Cmd.members (c : Cmd) : List (BitVec 14) :=
  (List.range ((c.extra.extractLsb' 28 14).toNat + 1)).map (fun r =>
    c.extra.extractLsb' 0 14 + BitVec.ofNat 14 r * c.extra.extractLsb' 14 14)

/-- The first field of words 0 to 2 that fails, by code (R301, R304, R305, R319); LAUNCH has a check of its own. -/
def Cmd.badWords (c : Cmd) : Option Nat :=
  let w0 := c.w0.bits
  let w1 := c.w1.bits
  match c.code with
  | 0x01 => if c.extra ≠ 0 then some 320 else none
  | 0x03 => if c.extra ≠ 0 then some 320 else none
  | 0x04 =>
    if w0.extractLsb' 64 64 ≠ 0 then some 64 else if w1 ≠ 0 then some 128 else if c.w2.bits ≠ 0 then some 256 else none
  | 0x05 =>
    if w0.extractLsb' 71 57 ≠ 0 then some 71 else if w1.extractLsb' 71 57 ≠ 0 then some 199
    else if 1 < c.len.toNat then some 256
    else if c.len = 0 ∧ c.cflags ≠ 0 then some 256
    else if c.len = 1 ∧ w0.extractLsb' 64 7 ≠ 0 then some 64
    else if c.len = 1 ∧ w1.extractLsb' 64 7 ≠ 0 then some 192
    else none
  | 0x10 =>
    if !elemOk (c.len.extractLsb' 32 32).toNat then some 288
    else if (c.extra.extractLsb' 0 32).toNat < 4 * (c.len.extractLsb' 0 32).toNat then some 320
    else if c.extra.extractLsb' 32 32 ≠ 0 then some 352
    else none
  | 0x30 =>
    if c.len.extractLsb' 32 32 ≠ 0 then some 288 else if c.extra.extractLsb' 48 16 ≠ 0 then some 368 else none
  | 0x31 =>
    if w0 ≠ 0 then some 0 else if c.len.extractLsb' 32 32 ≠ 0 then some 288
    else if c.extra.extractLsb' 32 2 = 3 then some 352 else if c.extra.extractLsb' 34 30 ≠ 0 then some 354 else none
  | 0x32 => if c.extra.extractLsb' 48 16 ≠ 0 then some 368 else none
  | 0x33 => if c.extra.extractLsb' 48 16 ≠ 0 then some 368 else none
  | _ =>
    if c.code = 0x20 ∨ c.code = 0x21 ∨ c.code = 0x22 ∨ c.code = 0x23 then
      let l := (c.len.extractLsb' 0 40).toNat
      let m := c.members.length
      if c.code = 0x20 ∧ l % 4 ≠ 0 then some 256
      else if c.code = 0x21 ∧ l % (4 * m) ≠ 0 then some 256
      else if c.code ≠ 0x22 ∧ c.code ≠ 0x23 ∧ 3 < (c.extra.extractLsb' 44 4).toNat then some 364
      else if 1 < (c.extra.extractLsb' 42 2).toNat then some 362
      else if c.members.eraseDups.length ≠ m then some 334
      else none
    else none

/-- The owner that a context acts for (R296). -/
def State.actsFor (s : State) (ci : Nat) : U16 := s.userOf (mkRes 6 ci)

/-- End a started command of a context. -/
def State.ends (s : State) (ci : Nat) (c : Cmd) (status done : Nat) : State :=
  s.endCmd (s.actsFor ci) ci c status (some done) (some c.detail1)

/-- What running a command comes to: a state, or a wait: for a line's records (R125), or for a page (R91, R376). -/
abbrev Ran := Except (Option Nat) State

def stallKey (x : Nat × Option Nat × Nat) : Nat := x.1
/-- The cycle since which a command waits for a line: the present one, where it has not waited for it yet. -/
def State.stalledSince (s : State) (ci number : Nat) (line : Option Nat) : Nat :=
  match findBy stallKey number (s.ctx ci).stalls with
  | some x => if x.2.1 = line then x.2.2 else s.cycle
  | none => s.cycle
/-- A wait for a line has lasted 65,536 cycles (R125). -/
def State.spent (s : State) (ci number : Nat) (line : Option Nat) : Bool :=
  line.isSome && decide (65536 ≤ s.cycle - s.stalledSince ci number line)
/-- A started command waits. -/
def State.stallOn (s : State) (ci number : Nat) (line : Option Nat) : State :=
  s.putCtx { s.ctx ci with stalls := putBy stallKey (number, line, s.stalledSince ci number line) (s.ctx ci).stalls }
/-- The started commands of a context that wait. -/
def Ctx.stalled (x : Ctx) : List Cmd := x.active.filter (fun c => x.stalls.any (fun y => y.1 == c.number))

/-- A started command runs, or waits with nothing of this pass done: its engine goes on with others meanwhile (R297). -/
def State.attempt (s : State) (ci : Nat) (c : Cmd) (run : State → Cmd → Ran) : State :=
  match c.doomed with
  | some st => s.ends ci c st.toNat 0
  | none =>
    match run s c with
    | .ok v => v.putCtx { v.ctx ci with stalls := dropBy stallKey c.number (v.ctx ci).stalls }
    | .error line => s.stallOn ci c.number line

/-- The next command of a context starts, its block is checked, and it runs (R297, R299), if the code is its event's or if it is a block
that its engine refuses. -/
def State.startNext (s : State) (ci code : Nat) (run : State → Cmd → Ran) : State :=
  match s.startable ci with
  | none => s
  | some c =>
    let u := s.startCmd ci c
    if !s.codeOk ci c then u.ends ci c 1 384
    else if c.code ≠ code then s
    else
      match c.badWord3.orElse (fun _ => c.badWords) with
      | some bit => if c.doomed.isNone then u.ends ci c 1 bit else u.attempt ci c run
      | none => u.attempt ci c run

/-- A command of a context that waits goes on, if it can; else its next command starts. -/
def State.engineRun (s : State) (ci code : Nat) (run : State → Cmd → Ran) : State :=
  match (s.ctx ci).stalled.findSome? (fun c =>
      let t := s.attempt ci c run
      if c.code = code && t != s then some t else none) with
  | some t => t
  | none => s.startNext ci code run

/-! ### What an engine may touch -/

/-- Steps 1 to 4 of R19, and FB through the fabric window: the status (R25, R300). -/
def State.engCap (s : State) (c : Cap) (need : Perm) (a : Nat) : Option Nat :=
  if !c.tag || c.isSealed then some 3
  else if s.isRevoked c then some 0x0A
  else if !c.holds need then some 3
  else if isFabric (BitVec.ofNat 64 a) && !c.holds .fb then some 3
  else none

/-- An access of a command. -/
def State.engAcc (s : State) (ci : Nat) (c : Cmd) (a n : Nat) (write : Bool) : Acc :=
  { agent := .cmd ci c.number, owner := s.actsFor ci, addr := s.localAddr a, size := n, write := write, read := !write
    atomic := false, fetch := false }

/-- R19 for one unit of a command at one capability: the status of the first step that fails. -/
def State.unitCheck (s : State) (ci : Nat) (c : Cmd) (k : Cap) (need : Perm) (a n : Nat) : Option Nat :=
  match (c.doomed.map BitVec.toNat).orElse (fun _ => s.engCap k need a) with
  | some st => some st
  | none =>
    if !k.inBounds a n then some 4
    else if (s.remoteOf a).isSome then none
    else
      let x := s.engAcc ci c a n (need == .w)
      if !(s.rightsOk x x.addr) || !(s.rightsOk x x.last) then some 5 else none

/-- The status of an error in memory, and where it stands for a capacity stall. -/
def AccErr.engine (e : AccErr) : Nat :=
  match e with
  | .rights => 5
  | .absent _ => 6
  -- these two only stall (R91, R376)
  | .migrate _ => 6
  | .protect _ => 6
  | .dataLost _ => 0x0D
  | .integrity _ => 0x0C
  | .conflict _ _ => 8
  | .capacity _ => 9

/-! ### Pieces (R303, R387) -/

/-- One piece of a command's work: bytes from an address (or a pattern) to an address, within one granule of each, and for GATHER
the index that named it. -/
structure Piece where
  src : Option Nat
  dst : Nat
  n : Nat
  index : Option Nat
deriving DecidableEq, Repr

/-- A unit: R19 is checked for the whole of it before any of it moves (R301). -/
structure CopyUnit where
  src : Option Nat
  dst : Nat
  n : Nat
  index : Option Nat
deriving DecidableEq, Repr

/-- Bytes from an address to the end of its granule. -/
def toEdge (a : Nat) : Nat := 32 - a % 32

/-- The pieces of a unit, at most `k` of them. -/
def CopyUnit.pieces (u : CopyUnit) : Nat → List Piece
  | 0 => []
  | k + 1 =>
    if u.n = 0 then []
    else
      let m := min u.n (min (toEdge u.dst) ((u.src.map toEdge).getD 32))
      { src := u.src, dst := u.dst, n := m, index := u.index }
        :: ({ u with src := u.src.map (· + m), dst := u.dst + m, n := u.n - m }).pieces k

/-- The sector of a page, or the 16 KiB unit of a 2 MiB page, that an address lies in: page address and bit. -/
def State.sectorOf (s : State) (a : Nat) : Nat × Nat :=
  let p := s.pageOf a
  (p.1, (a - p.1) / (p.2 / 128))

/-- Sectors still to move, by page address. -/
abbrev Pages := List (Nat × Pred)

def addSector (l : Pages) (x : Nat × Nat) : Pages :=
  let m := match findBy (fun y : Nat × Pred => y.1) x.1 l with
    | some y => y.2
    | none => 0
  putBy (fun y : Nat × Pred => y.1) (x.1, m ||| (1#128 <<< x.2)) l

def hasSector (l : Pages) (x : Nat × Nat) : Bool :=
  match findBy (fun y : Nat × Pred => y.1) x.1 l with
  | some y => y.2.getLsbD x.2
  | none => false

/-- The local addresses a piece touches. -/
def State.pieceAddrs (s : State) (p : Piece) : List Nat :=
  ((p.index.toList ++ p.src.toList ++ [p.dst]).filter (fun a => (s.remoteOf a).isNone)).map s.localAddr

/-- A replay moves a piece only when one of its sectors is recorded (R303). -/
def State.replays (s : State) (only : Option Pages) (p : Piece) : Bool :=
  match only with
  | none => true
  | some l => (s.pieceAddrs p).any (fun a => hasSector l (s.sectorOf a))

/-- How far a command has come. -/
structure Move where
  s : State
  done : Nat
  pages : Pages
  /-- pages found absent on the writing side -/
  wrote : List Nat
  /-- the lowest address met in each absent page -/
  first : List (Nat × Nat)
deriving DecidableEq, Repr

/-- How a command's pass ends early: with a status, or in a stall. -/
inductive Stop where
  | status (k : Nat) (m : Move)
  | stall (line : Option Nat) (m : Move)
deriving DecidableEq, Repr

/-- The job of a command: its capabilities, its pattern, and the state it started in. -/
structure Job where
  ci : Nat
  cmd : Cmd
  src : Option Cap
  dst : Cap
  pattern : U128
  start : State
deriving DecidableEq, Repr

/-- The fault record of a command's access. -/
def Move.fault (m : Move) (kind : Nat) (x : Acc) (a : Nat) : FaultRec :=
  let p := m.s.pageOf a
  let ci := match x.agent with
    | .cmd ci _ => ci
    | .handler _ _ u _ => u.toNat
    | .slot c _ _ => c
  { kind := kind, access := x.bits + 8, requester := m.s.source 1 ci, addr := a, done := m.done
    number := m.s.agentSpan x.agent, sectors := touchedSectors p.1 p.2 [x], page := p.1 }

/-- The error of one access of a piece; a write that write-protect tracking stops takes its fault and is tried again, at most `k` times
(R376). A handler's access to an absent page leaves a record (R396). -/
def Move.checkN (m : Move) (x : Acc) : Nat → Except Stop Move
  | 0 => .error (.stall none m)
  | k + 1 =>
    match m.s.accErr x with
    | none => .ok m
    | some (.protect a) =>
      if m.s.faultRoom (m.s.migrator a) then { m with s := m.s.unprotect a (m.fault 4 x a) }.checkN x k else .error (.stall none m)
    | some (.migrate _) => .error (.stall none m)
    | some (.capacity a) => .error (.stall (some (a / 256)) m)
    | some (.integrity a) => .error (.status 0x0C { m with s := m.s.postFault x.owner (m.fault 3 x a) })
    | some (.absent a) =>
      .error (.status 6 (match x.agent with
        | .handler _ _ _ _ => { m with s := m.s.postFault x.owner (m.fault 1 x a) }
        | _ => m))
    | some (.dataLost a) => .error (.status 0x0D { m with s := m.s.metError a (m.fault 2 x a) })
    | some e => .error (.status e.engine m)
def Move.check (m : Move) (x : Acc) : Except Stop Move := m.checkN x 3

/-- A source byte of a copy whose ranges overlap: as it was when the command started, or as it is (R301). -/
def Move.srcByte (m : Move) (j : Job) (overlap : Bool) (a i : Nat) : U8 :=
  if overlap && !(Config.overlapNew (m.s.free + i)) then j.start.byteAt a else m.s.byteAt a

/-- The ranges of a job overlap in memory. -/
def overlaps (units : List CopyUnit) : Bool :=
  units.any (fun u => match u.src with
    | none => false
    | some a => units.any (fun v => decide (a < v.dst + v.n) && decide (v.dst < a + u.n)))

/-- Whether tags may move between two places of a command of the copy engine: equal offsets, LC and SC (R24). -/
def Job.carries (j : Job) (src dst : Nat) : Bool :=
  match j.src with
  | some k => ctxKind j.ci == 1 && src % 16 == dst % 16 && k.holds .lc && j.dst.holds .sc
  | none => false

/-- The granule at a source address as a copy moves it: where ranges overlap its bytes may be old, new or some of each, and only a granule
that is wholly one of them is a capability. -/
def Move.srcCap (m : Move) (j : Job) (overlap : Bool) (g i : Nat) : Cap :=
  let new (k : Nat) : Bool := Config.overlapNew (m.s.free + i + k)
  if !overlap then m.s.seenCap (.cmd j.ci j.cmd.number) g
  else if (List.range 16).all new then m.s.capAt g
  else if (List.range 16).all (fun k => !new k) then j.start.capAt g
  else .zero

/-- Tags move with whole granules where a job carries them, outside the host window; a granule for another device needs FB, and its
C right is judged there (R24, R25). -/
def Move.tags (m : Move) (j : Job) (overlap : Bool) (p : Piece) : List Nat :=
  match p.src with
  | some a =>
    let la := m.s.localAddr a
    let ld := m.s.localAddr p.dst
    let owner := m.s.actsFor j.ci
    let right (x : Nat) : Bool := match m.s.rightsAt owner x with
      | some e => e.c
      | none => false
    let far := (m.s.remoteOf p.dst).isSome
    if j.carries a p.dst && right la && (far || (right ld && decide (ld < hostBase))) then
      (List.range (p.n / 16 + 1)).filterMap (fun i =>
        let g := (la + 15) / 16 * 16 + 16 * i
        let c := m.s.dropRevoked (m.srcCap j overlap g (g - la))
        if g + 16 ≤ la + p.n && c.tag && (!far || c.holds .fb) then some (g - la + ld) else none)
    else []
  | none => []

/-- A range of `n` bytes from `a` cut at granules: offset and bytes of each part. -/
def granuleParts (a n : Nat) : List (Nat × Nat) :=
  (List.range ((a % 16 + n + 15) / 16)).map (fun i =>
    let lo := max (16 * i) (a % 16)
    (lo - a % 16, min (16 * (i + 1)) (a % 16 + n) - lo))

/-- The bytes of a local piece; a plain read of unchecked memory may miss writes (R129). -/
def Move.bytes (m : Move) (j : Job) (overlap : Bool) (p : Piece) : List U8 :=
  match p.src with
  | none => (List.range p.n).map (fun i => j.pattern.extractLsb' (8 * ((p.dst + i) % 16)) 8)
  | some a =>
    let la := m.s.localAddr a
    if overlap then (List.range p.n).map (fun i => m.srcByte j overlap (la + i) i)
    else (granuleParts la p.n).flatMap (fun x => bytesLE x.2 (m.s.seenN (.cmd j.ci j.cmd.number) (la + x.1) x.2))

/-- Note the absent pages of a piece. -/
def Move.absent (m : Move) (p : Piece) (l : List Nat) : Move :=
  l.foldl (fun m a =>
    let x := m.s.sectorOf a
    { m with
      pages := addSector m.pages x
      wrote := if a = m.s.localAddr p.dst && !m.wrote.contains x.1 then x.1 :: m.wrote else m.wrote
      first := if m.first.any (fun y => y.1 == x.1) then m.first.map (fun y => if y.1 = x.1 then (y.1, min y.2 a) else y)
        else (x.1, a) :: m.first }) m

/-- Pages among those found absent that an error took away: the records of the errors (R373). -/
def Move.errorsMet (m : Move) (j : Job) (l : List Nat) : Move :=
  l.foldl (fun m a => if m.s.isLost a then { m with s := m.s.metError a (m.fault 2 (m.s.engAcc j.ci j.cmd a 1 false) a) } else m) m

/-- A request of a command to another device. -/
def Job.request (j : Job) (s : State) (offset n : Nat) : FabricReq :=
  { device := s.devnum, unit := BitVec.ofNat 15 j.ci, slot := 0, engine := true, owner := s.actsFor j.ci, txn := s.nextTxn
    addr := BitVec.ofNat 48 offset, size := n, capability := false, tagged := false, op := 0, data := .zero, expect := .zero, tail := []
    tags := [] }

/-- Send a request, and remember it. -/
def Job.far (j : Job) (s : State) (m : OutMsg) (dst : Option Nat) (n : Nat) (buffered : Bool := false) : State :=
  let x := s.ctx j.ci
  { (s.putCtx { x with far := x.far ++ [{ txn := s.nextTxn, number := j.cmd.number, dst := dst, buffered := buffered, n := n }] }) with
    out := s.out ++ [m], nextTxn := s.nextTxn + 1 }

/-- Local bytes reach their destination: stored here, or sent as a bulk store (R396). -/
def Move.place (m : Move) (j : Job) (dst : Nat) (l : List U8) (tags : List Nat) : Except Stop Move :=
  match m.s.remoteOf dst with
  | some (dev, off) =>
    if !m.s.reaches dev then .error (.status 0x0E m)
    else
      .ok { m with
        s := j.far m.s (.bulk dev { j.request m.s off l.length with tail := l, tags := tags.map (fun g => g - dst) } none) none l.length
        done := m.done + l.length }
  | none => do
    let x := m.s.engAcc j.ci j.cmd dst l.length true
    let m1 ← m.check x
    let a := x.addr
    .ok { m1 with
      s := m1.s.performed x (fun t =>
        tags.foldl (fun t g => t.setTag g true) (((l.zipIdx).foldl (fun t y => t.putByte (a + y.2) y.1) t).clearTags a l.length))
      done := m1.done + l.length }

/-- Move one piece; a piece with an absent page is left for a replay. -/
def Move.piece (m : Move) (j : Job) (overlap : Bool) (p : Piece) : Except Stop Move :=
  let gone := (m.s.pieceAddrs p).filter (fun a => m.s.isAbsent a && !m.s.isGone a)
  if !gone.isEmpty then
    .ok ((m.absent p gone).errorsMet j gone)
  else
    match p.src.bind m.s.remoteOf with
    | some (dev, off) =>
      if !m.s.reaches dev then .error (.status 0x0E m)
      else
        -- loads of at most 16 bytes; their bytes are placed as the replies come (R396)
        .ok { m with
          s := (granuleParts off p.n).foldl (fun t x =>
            let req := { j.request t (off + x.1) x.2 with capability := x.2 == 16 && j.carries off p.dst }
            j.far t (.load dev req) (some (p.dst + x.1)) x.2) m.s }
    | none => do
      let m1 ← match p.src with
        | some a =>
          let x := m.s.engAcc j.ci j.cmd a p.n false
          let m1 ← m.check x
          pure { m1 with s := m1.s.performed x id }
        | none => pure m
      let drawn : State := match p.src with
        | some a => if overlap then { m1.s with free := m1.s.free + p.n } else m1.s.looked (.cmd j.ci j.cmd.number) (m1.s.localAddr a) p.n
        | none => m1.s
      { m1 with s := drawn }.place j p.dst (m1.bytes j overlap p) (m1.tags j overlap p)

/-- Move one unit: R19 for all of it, then its pieces. -/
def Move.unit (m : Move) (j : Job) (overlap : Bool) (only : Option Pages) (u : CopyUnit) : Except Stop Move := do
  match (u.src.bind (fun a => j.src.bind (fun k => m.s.unitCheck j.ci j.cmd k .r a u.n))).orElse
      (fun _ => m.s.unitCheck j.ci j.cmd j.dst .w u.dst u.n) with
  | some st => .error (.status st m)
  | none => ((u.pieces (u.n + 1)).filter (m.s.replays only)).foldlM (fun m p => m.piece j overlap p) m

/-- Units of at most 4 KiB from the start of a range; they end at granules of the destination, so that no unit cuts a granule that moves
whole; no bytes are no units (R301). -/
def units4k (src : Option Nat) (dst n : Nat) : List CopyUnit :=
  let r := dst % 16
  (List.range (if n = 0 then 0 else (n + r + 4095) / 4096)).map (fun i =>
    let lo := 4096 * i - r
    { src := src.map (· + lo), dst := dst + lo, n := min (4096 * (i + 1) - r) n - lo, index := none })

/-- Absent pages write their records, in page order, now or when the ring has room; the command parks (R303, R316, R387). -/
def Move.park (m : Move) (j : Job) : State :=
  let owner := m.s.actsFor j.ci
  let s1 := m.pages.foldl (fun t y =>
    t.postFault owner
      { kind := 1, access := (if m.wrote.contains y.1 then 1 else 0) + 8, requester := t.source 1 j.ci
        addr := ((m.first.find? (fun z => z.1 == y.1)).map (fun z => z.2)).getD y.1, done := m.done
        number := j.cmd.number, sectors := y.2, page := y.1 }) m.s
  let x := s1.ctx j.ci
  s1.putCtx { x with
    active := x.active.filter (fun c => c.number != j.cmd.number)
    parked := x.parked ++ [{ cmd := j.cmd, done := m.done, pages := m.pages }] }

/-- How a pass over a command ends: the command stalls, waits for other devices, parks, or completes. -/
def Job.finish (j : Job) (r : Except Stop Move) (only : Option Pages := none) : Ran :=
  match r with
  | .error (.stall line m) => if j.start.spent j.ci j.cmd.number line then .ok (m.s.ends j.ci j.cmd 9 m.done) else .error line
  | .error (.status k m) => .ok (m.s.ends j.ci j.cmd k m.done)
  | .ok m =>
    let x := m.s.ctx j.ci
    if x.far.any (fun f => f.number == j.cmd.number) then
      let q : FarRun :=
        { number := j.cmd.number, status := 0, done := m.done, extra := 0, pages := m.pages, wrote := m.wrote, first := m.first
          buffer := [], only := only }
      .ok (m.s.putCtx { x with farRuns := x.farRuns ++ [q] })
    else if m.pages.isEmpty then .ok (m.s.ends j.ci j.cmd 0 m.done)
    else if m.s.hasFaultQueue (m.s.actsFor j.ci) then .ok (m.park j)
    else .ok (m.s.ends j.ci j.cmd 6 m.done)

/-- A pass over a list of units, from `done` bytes on, over every sector or over recorded ones. -/
def Job.pass (j : Job) (units : List CopyUnit) (done : Nat) (only : Option Pages) : Ran :=
  let overlap := overlaps units
  j.finish (units.foldlM (fun m u => m.unit j overlap only u)
    { s := j.start, done := done, pages := [], wrote := [], first := [] }) only

/-! ### COPY, COPY2D, FILL, RESUME (R301, R303) -/

/-- Rows of COPY2D, each in units of 4 KiB. -/
def rows2d (c : Cmd) : List CopyUnit :=
  let n := (c.len.extractLsb' 0 32).toNat
  (List.range (c.len.extractLsb' 32 32).toNat).flatMap (fun r =>
    units4k (some (c.w0.addr + BitVec.ofNat 64 (r * (c.extra.extractLsb' 0 32).toNat)).toNat)
      (c.w1.addr + BitVec.ofNat 64 (r * (c.extra.extractLsb' 32 32).toNat)).toNat n)

/-- The job of a copy command. -/
def jobOf (s : State) (ci : Nat) (c : Cmd) : Job :=
  { ci := ci, cmd := c, src := if c.code = 0x03 then none else some c.w0, dst := c.w1, pattern := c.w0.bits, start := s }

def copyUnits (c : Cmd) : List CopyUnit :=
  match c.code with
  | 0x01 => units4k (some c.w0.addr.toNat) c.w1.addr.toNat c.len.toNat
  | 0x02 => rows2d c
  | _ => units4k none c.w1.addr.toNat c.len.toNat

def State.runCopy (s : State) (ci : Nat) (c : Cmd) : Ran := (jobOf s ci c).pass (copyUnits c) 0 none

/-! ### GATHER (R304) -/

/-- A pass of GATHER over its elements from `k` on: the index is read, or stands in the list that another device has sent, then the
element moves. -/
def Job.elements (j : Job) (only : Option Pages) (e : Nat) (far : List Nat) : Nat → Nat → Move → Except Stop Move
  | _, 0, m => .ok m
  | k, left + 1, m =>
    let c := j.cmd
    let ia := c.w1.addr.toNat + 4 * k
    let off := (c.extra.extractLsb' 0 32).toNat
    let da := c.w1.addr.toNat + off + k * e
    let whole (r : Except Stop Move) : Except Stop Move := match r with
      | .error (.status st n) => .error (.status st { n with done := m.done })
      | x => x
    let li := m.s.localAddr ia
    let r : Except Stop Move := do
      match m.s.unitCheck j.ci c c.w1 .r ia 4, far[k]? with
      | some st, _ => .error (.status st m)
      | none, some i => m.unit j false only { src := some (c.w0.addr.toNat + i * e), dst := da, n := e, index := none }
      | none, none =>
        let skip := match only with
          | some l => !hasSector l (m.s.sectorOf li)
          | none => false
        if (m.s.isAbsent li && !m.s.isGone li) || (m.s.isAbsent (li + 3) && !m.s.isGone (li + 3)) then
          .ok (if skip then m else m.absent { src := none, dst := da, n := 4, index := some ia } ([li, li + 3].filter (fun a => m.s.isAbsent a && !m.s.isGone a)))
        else
          let x := m.s.engAcc j.ci c ia 4 false
          let m1 ← m.check x
          let m2 := { m1 with s := m1.s.performed x id }
          m2.unit j false only
            { src := some (c.w0.addr.toNat + m2.s.loadN li 4 * e), dst := da, n := e, index := some ia }
    match whole r with
    | .ok m' => j.elements only e far (k + 1) left m'
    | .error x => .error x

/-- GATHER with its index list at hand, or in local memory. -/
def Job.gatherWith (j : Job) (far : List Nat) (done : Nat) (only : Option Pages) : Ran :=
  j.finish (j.elements only (j.cmd.len.extractLsb' 32 32).toNat far 0 (j.cmd.len.extractLsb' 0 32).toNat
    { s := j.start, done := done, pages := [], wrote := [], first := [] }) only

/-- GATHER: an index list on another device is loaded first, as far as the checks of R19 let it (R304). -/
def Job.gather (j : Job) (done : Nat) (only : Option Pages) : Ran :=
  let c := j.cmd
  let a := c.w1.addr.toNat
  let n := ((List.range (c.len.extractLsb' 0 32).toNat).takeWhile (fun k => (j.start.unitCheck j.ci c c.w1 .r (a + 4 * k) 4).isNone)).length
  match (if n = 0 then none else j.start.remoteOf a) with
  | none => j.gatherWith [] done only
  | some (dev, off) =>
    if !j.start.reaches dev then .ok (j.start.ends j.ci c 0x0E done)
    else
      let t := (granuleParts off (4 * n)).foldl (fun t x =>
        j.far t (.load dev (j.request t (off + x.1) x.2)) (some x.1) x.2 (buffered := true)) j.start
      let x := t.ctx j.ci
      let q : FarRun :=
        { number := c.number, status := 0, done := done, extra := 0, pages := [], wrote := [], first := [], buffer := [], only := only }
      .ok (t.putCtx { x with farRuns := x.farRuns ++ [q] })

def State.runGather (s : State) (ci : Nat) (c : Cmd) : Ran := (jobOf s ci c).gather 0 none

/-- Pages whose refill a RESUME has moved are clean again (R77). -/
def State.refilled (s : State) (pages : List Nat) : State :=
  { s with
    trans := s.trans.map (fun t =>
      if t.present && pages.contains (t.vpn * 2 ^ 14) then { t with clean := true } else t) }

/-- RESUME: the parked command moves its recorded sectors; without one the block is bad. -/
def State.runResume (s : State) (ci : Nat) (c : Cmd) : Ran :=
  let x := s.ctx ci
  match x.parked.find? (fun p => p.cmd.number == c.w0.addr.toNat) with
  | none => .ok (s.ends ci c 1 0)
  | some p =>
    let t := s.putCtx { x with
      parked := x.parked.filter (fun q => q.cmd.number != p.cmd.number), active := x.active ++ [p.cmd] }
    let j := jobOf t ci p.cmd
    (if p.cmd.code = 0x10 then j.gather p.done (some p.pages) else j.pass (copyUnits p.cmd) p.done (some p.pages)).map (fun u =>
      let again := ((u.ctx ci).parked.filter (fun q => q.cmd.number == p.cmd.number)).flatMap (fun q => q.pages.map (fun y => y.1))
      u.refilled ((p.pages.map (fun y => y.1)).filter (fun a => !again.contains a)))

/-! ### FRAMECOPY (R302) -/

/-- The backing store's version of the lines of a physical range, in `s` with every newer line that is still in a cache laid aside
(R302): which lines still are is not defined, so each is a free choice, but for pinned ones, which always are (R72); the others have been
written back. -/
def State.settleCaches (s : State) (lo hi : Nat) : State :=
  let t := s.evict
  (t.behind.filter (fun o => decide (lo / 256 ≤ o.line) && decide (o.line * 256 < hi) && !t.pinnedLine o.line)).foldl (fun u o =>
    if Config.lineStillCached t.free o.line then u else u.writeBack (o.line * 256) (o.line * 256 + 256)) t.drawn

/-- Move `n` physical bytes of backing store, whole lines, from `src` to `dst` (R302): between HBM frames with everything, from
host memory data only, into host memory data only. -/
def State.copyLines (s : State) (src dst n : Nat) : State :=
  let hbm := decide (src < hostBase) && decide (dst < hostBase)
  let z := s.zeroPhys dst n
  let shift (a u : Nat) : Nat := a - src / u + dst / u
  let t : State :=
    { z with
      mem := Memory.copy s.mem src dst n
      tags := if hbm then (setPart s.tags (src / 16) ((src + n) / 16)).foldl (fun l g => setAdd l (shift g 16)) z.tags else z.tags
      poison := if hbm then (setPart s.poison (src / 256) ((src + n) / 256)).foldl (fun l g => setAdd l (shift g 256)) z.poison
        else z.poison
      sealedLines := if hbm then
          (s.sealedLines.filter (fun x => decide (src / 256 ≤ x.1) && decide (x.1 < (src + n) / 256))).foldl
            (fun l x => putBy (fun y : Nat × U64 => y.1) (shift x.1 256, x.2) l) z.sealedLines
        else z.sealedLines }
  -- lines still newer in a cache arrive as backing store holds them
  (s.behind.filter (fun o => decide (src / 256 ≤ o.line) && decide (o.line < (src + n) / 256))).foldl (fun t o =>
    if hbm then t.putLine (shift o.line 256) o
    else t.putLine (shift o.line 256) { o with tags := [], mac := none, poison := false }) t

/-- Pages filled whole from backing are clean again (R77). -/
def State.filled (s : State) (dst n : Nat) : State :=
  { s with
    trans := s.trans.map (fun t =>
      if t.present && decide (dst ≤ t.base) && decide (t.base + t.bytes ≤ dst + n) then { t with clean := true } else t) }

/-- Whether an owner holds a frame, or has borrowed it. -/
def State.frameFor (s : State) (owner : U16) (id : U64) : Bool :=
  let e := s.entry id
  (resKind id == 3 || resKind id == 11) && resValid id && e.recovery.isNone
    && ((e.state == .held && e.holder == owner) || (e.state == .lent && e.other == owner))

def Cmd.srcFrame (c : Cmd) : U64 := c.w0.addr
def Cmd.dstFrame (c : Cmd) : U64 := c.w1.addr
/-- Bits [11:10] of word 3: the pass (R375). -/
def Cmd.passNo (c : Cmd) : Nat := c.cflags % 4

/-- A plain FRAMECOPY. -/
def State.runFramecopy (s : State) (ci : Nat) (c : Cmd) : Ran :=
  let owner := s.actsFor ci
  if !s.frameFor owner c.srcFrame || !s.frameFor owner c.dstFrame then .ok (s.ends ci c 0x14 0)
  else
    let n := if c.len = 0 then 2 ^ 14 else 2 ^ 21
    let src := (frameSpan c.srcFrame).1 + (c.w0.bits.extractLsb' 64 7).toNat * 2 ^ 14
    let dst := (frameSpan c.dstFrame).1 + (c.w1.bits.extractLsb' 64 7).toNat * 2 ^ 14
    let t := (((s.settleCaches src (src + n)).copyLines src dst n).filled dst n)
    .ok (t.ends ci c 0 n)

/-! ### Migration passes (R375 to R378) -/

/-- The entries that a frame backs. -/
def State.backedBy (s : State) (id : U64) : List Trans := s.trans.filter (fun t => t.backedBy id)
/-- An entry that a frame backs, or backed until an uncorrectable error took its page away (R373, R378). -/
def State.backedOrLost (s : State) (id : U64) : Bool := s.trans.any (fun t => ({ t with present := t.present || t.lost } : Trans).backedBy id)
/-- The migration class of an entry's segment. -/
def State.migClass (s : State) (t : Trans) : BitVec 2 := ((s.segAttr t.seg).map Rights.migration).getD 0

def State.mapBacked (s : State) (id : U64) (f : Trans → Trans) : State :=
  { s with trans := s.trans.map (fun t => if t.backedBy id then f t else t) }

/-- The number of a frame in the dirty logs. -/
def logId (id : U64) : Nat := (if resKind id = 11 then 2 ^ 40 else 0) + resIndex id
/-- The marked sectors of a frame's log. -/
def State.logOf (s : State) (id : U64) : Option (List Nat) :=
  (findBy (fun x : Nat × List Nat => x.1) (logId id) s.dirtyLog).map (fun x => x.2)
def State.setLog (s : State) (id : U64) (l : List Nat) : State :=
  { s with dirtyLog := putBy (fun x : Nat × List Nat => x.1) (logId id, l) s.dirtyLog }
def isDataFrame (id : U64) : Bool := (resKind id == 3 || resKind id == 11) && resValid id

/-- The checks that every pass makes: a status, or none. -/
def State.passCheck (s : State) (owner : U16) (c : Cmd) (first : Bool) : Option (Nat × Nat) :=
  let e := s.entry c.srcFrame
  let d := s.entry c.dstFrame
  let lentOut := isDataFrame c.srcFrame && e.state == .lent && e.holder == owner
  if c.len ≠ 1 then some (1, 256)
  else if e.state = .retired ∧ s.backedOrLost c.srcFrame then some (0x0D, 0)
  else if e.recovery.isSome then some (0x0B, 0)
  else if !(s.frameFor owner c.srcFrame || lentOut) then some (0x14, 0)
  else if !(isDataFrame c.dstFrame && d.state == .held && d.holder == owner && d.recovery.isNone
      && !s.backs c.dstFrame) then some (0x14, 0)
  -- the reset translation of a host frame: its segment does not migrate (R411)
  else if (s.backedBy c.srcFrame).any (fun t => s.migClass t == 0) || (s.backs c.srcFrame && (s.backedBy c.srcFrame).isEmpty) then some (1, 0)
  else if first && (s.backedBy c.srcFrame).any (fun t => t.migrating == 1) then some (1, 0)
  else if !first && (s.logOf c.srcFrame).isNone then some (1, 0)
  else none

/-- Copy the marked 128-byte sectors of a frame: a sector of a line as backing store holds it; a line whose two sectors are marked
as a whole. -/
def State.copySector (s : State) (src dst k : Nat) : State :=
  let line := (src + 128 * k) / 256
  let o := (findBy OldLine.line line s.behind).getD (s.lineNow line)
  -- between HBM frames with everything; host memory keeps data only (R302)
  let hbm := decide (src < hostBase) && decide (dst < hostBase)
  s.putSectors ((dst + 128 * k) / 256) (if hbm then o else { o with tags := [], mac := none, poison := false })
    (if k % 2 = 0 then 1 else 2)

/-- Pass 1. -/
def State.runPass1 (s : State) (ci : Nat) (c : Cmd) : Ran :=
  let owner := s.actsFor ci
  match s.passCheck owner c true with
  | some (k, d) => .ok (s.ends ci c k d)
  | none =>
    let src := (frameSpan c.srcFrame).1
    let dst := (frameSpan c.dstFrame).1
    let t := (s.mapBacked c.srcFrame (fun t => { t with migrating := 1, protect := s.migClass t == 1 })).setLog c.srcFrame []
    let u := (t.settleCaches src (src + 2 ^ 21)).copyLines src dst (2 ^ 21)
    .ok (u.ends ci c 0 (2 ^ 21))

/-- Pass 2: each marked unit is cleared and copied; write-protect pages copied are protected again. -/
def State.runPass2 (s : State) (ci : Nat) (c : Cmd) : Ran :=
  let owner := s.actsFor ci
  match s.passCheck owner c false with
  | some (k, d) => .ok (s.ends ci c k d)
  | none =>
    let src := (frameSpan c.srcFrame).1
    let dst := (frameSpan c.dstFrame).1
    let t := s.settleCaches src (src + 2 ^ 21)
    let l := (t.logOf c.srcFrame).getD []
    let u := l.foldl (fun u k => u.copySector src dst k) (t.setLog c.srcFrame [])
    let v := u.mapBacked c.srcFrame (fun x =>
      let lo := if x.size then 0 else x.page % 128 * 128
      let n := if x.size then 16384 else 128
      if s.migClass x == 1 && l.any (fun k => decide (lo ≤ k) && decide (k < lo + n)) then { x with protect := true } else x)
    .ok (v.ends ci c 0 (128 * l.length))

/-- Pass 3: writes stall, dirty lines are collected, marked units are copied, the entries move, the frames exchange their holding
entries, the source is scrubbed. -/
def State.runPass3 (s : State) (ci : Nat) (c : Cmd) : Ran :=
  let owner := s.actsFor ci
  match s.passCheck owner c false with
  | some (k, d) => .ok (s.ends ci c k d)
  | none =>
    let src := (frameSpan c.srcFrame).1
    let dst := (frameSpan c.dstFrame).1
    let t := s.writeBack src (src + 2 ^ 21)
    let l := (t.logOf c.srcFrame).getD []
    let u := l.foldl (fun u k => u.copySector src dst k) t
    let e := u.entry c.srcFrame
    let v := u.mapBacked c.srcFrame (fun x =>
      { x with migrating := 0, protect := false, host := resKind c.dstFrame == 11, page := resIndex c.dstFrame * 128 + x.page % 128 })
    let w := { v with dirtyLog := dropBy (fun x : Nat × List Nat => x.1) (logId c.srcFrame) v.dirtyLog }
    let y := ((w.putEntry { e with id := c.dstFrame }).putEntry { Entry.atReset c.srcFrame with holder := owner }).zeroFrame c.srcFrame
    .ok (y.ends ci c 0 (128 * l.length))

/-- FRAMECOPY and its passes are one code, told apart by cflags. -/
def State.frameRun (s : State) (ci pass : Nat) (run : State → Cmd → Ran) : State :=
  match s.startable ci with
  | none => s
  | some c => if c.code = 0x05 ∧ c.passNo ≠ pass then s else s.engineRun ci 0x05 run

/-! ### SWEEP (R32 to R34) -/

def State.runSweep (s : State) (ci : Nat) (c : Cmd) : Ran :=
  match s.sweeps.find? (fun w => w.ctx == some ci && w.number == c.number) with
  | none => .ok (s.ends ci c 1 384)
  | some w =>
    let t := s.sweepAll w.units
    .ok (t.endCmd (t.actsFor ci) ci c 0 none none)

/-! ### Collectives (R305) -/

/-- One element of a reduction: F32 add, S32 wrapping add, F32 max, S32 max. -/
def reduceOp (op : Nat) (a b : U32) : U32 :=
  match op with
  | 0 => BitVec.ofNat 32 (addBits .f32 .rne (Fmt.f32.decode a.toNat) (Fmt.f32.decode b.toNat)).1
  | 1 => a + b
  | 2 => BitVec.ofNat 32 (minMaxBits .f32 true a.toNat b.toNat).1
  | _ => if a.toInt < b.toInt then b else a

/-- The identity of a reduction, for absent ranks of the tree: −0 (R229), 0, −infinity, the most negative. -/
def reduceId (op : Nat) : U32 :=
  match op with
  | 0 => 0x80000000
  | 1 => 0
  | 2 => 0xFF800000
  | _ => 0x80000000

/-- The tree of R229 over a list whose length is a power of two, `k` levels of it. -/
def reduceTree (op : Nat) : Nat → List U32 → U32
  | 0, l => l.headD (reduceId op)
  | k + 1, l =>
    let h := l.length / 2
    reduceTree op k (((l.take h).zip (l.drop h)).map (fun x => reduceOp op x.1 x.2))

/-- The levels of the tree over n ranks: the next power of 2. -/
def treeLevels (n : Nat) : Nat := ((List.range 15).find? (fun k => decide (n ≤ 2 ^ k))).getD 15

/-- One element over all ranks, in rank order or in the tree. -/
def reduceList (op : Nat) (tree : Bool) (l : List U32) : U32 :=
  if tree then
    reduceTree op (treeLevels l.length) (l ++ List.replicate (2 ^ treeLevels l.length - l.length) (reduceId op))
  else
    match l with
    | [] => reduceId op
    | x :: rest => rest.foldl (reduceOp op) x

/-- Word i of a byte list. -/
def wordOf (l : List U8) (i : Nat) : U32 := BitVec.ofNat 32 (ofBytesLE ((l.drop (4 * i)).take 4))

/-- The members' byte lists reduced word by word. -/
def reduceBytes (op : Nat) (tree : Bool) (l : List (List U8)) (n : Nat) : List U8 :=
  (List.range (n / 4)).flatMap (fun i => bytesLE 4 (reduceList op tree (l.map (fun b => wordOf b i))).toNat)

/-- Read `n` bytes of the source, unit by unit and granule by granule; an absent page ends the command with ABSENT (log 34). -/
def Move.read (m : Move) (j : Job) (k : Cap) (a n : Nat) : Except Stop (Move × List U8) :=
  (units4k none a n).foldlM (fun (r : Move × List U8) u => do
    match r.1.s.unitCheck j.ci j.cmd k .r u.dst u.n with
    | some st => .error (.status st r.1)
    | none =>
      (u.pieces (u.n + 1)).foldlM (fun (r : Move × List U8) p => do
        let x := r.1.s.engAcc j.ci j.cmd p.dst p.n false
        let m1 ← r.1.check x
        -- a plain read of unchecked memory may miss writes (R129)
        pure ({ m1 with s := (m1.s.looked x.agent x.addr p.n).performed x id }
            , r.2 ++ bytesLE p.n (m1.s.seenN x.agent x.addr p.n))) r) (m, [])

/-- Place bytes at the destination, unit by unit; here granule by granule, so that the command stops at the granule that fails (R123). -/
def Move.write (m : Move) (j : Job) (k : Cap) (a : Nat) (l : List U8) : Except Stop Move :=
  (units4k none a l.length).foldlM (fun (m : Move) (u : CopyUnit) => do
    match m.s.unitCheck j.ci j.cmd k .w u.dst u.n with
    | some st => .error (.status st m)
    | none =>
      if (m.s.remoteOf u.dst).isSome then m.place j u.dst ((l.drop (u.dst - a)).take u.n) []
      else (u.pieces (u.n + 1)).foldlM (fun (m : Move) p => m.place j p.dst ((l.drop (p.dst - a)).take p.n) []) m) m

/-- The members' contributions by rank: the own one, and the others' as they reach this device. -/
def contributions (own : BitVec 14) (mine : List U8) (n : Nat) : List (BitVec 14) → List (List U8) → List (List U8)
  | [], _ => []
  | d :: rest, peers =>
    if d = own then mine :: contributions own mine n rest peers
    else
      match peers with
      | [] => List.replicate n 0#8 :: contributions own mine n rest []
      | p :: more => pad n (p.take n) :: contributions own mine n rest more

/-- The entropy value of the packets of a 4 KiB chunk (R305). -/
def Cmd.entropyOf (c : Cmd) (chunk : Nat) : BitVec 8 :=
  c.extra.extractLsb' 48 8 + BitVec.ofNat 8 (chunk % ((c.extra.extractLsb' 56 8).toNat + 1))

/-- This device's contribution goes to every other member, in chunks of 4 KiB. -/
def State.contribute (s : State) (c : Cmd) (l : List U8) : State :=
  { s with
    out := s.out ++ (c.members.filter (fun d => d != s.devnum)).flatMap (fun d =>
      (List.range ((l.length + 4095) / 4096)).map (fun k =>
        .contribution d (c.len.extractLsb' 40 24) k (c.entropyOf k) ((l.drop (4096 * k)).take 4096))) }

/-- A collective that every member issues: `agree` and `reach` say whether all agree and are reached; `out` is what this member
receives, from the contributions and its own rank. -/
def State.collective (s : State) (ci : Nat) (c : Cmd) (agree reach : Bool) (peers : List (List U8))
    (out : List (List U8) → Nat → Nat → List U8) : Ran :=
  if !agree then .ok (s.ends ci c 0x10 0)
  else if !reach then .ok (s.ends ci c 0x0E 0)
  else
    let j := jobOf s ci c
    let n := (c.len.extractLsb' 0 40).toNat
    let rank := (c.members.zipIdx.find? (fun x => x.1 == s.devnum)).map (fun x => x.2)
    j.finish (do
      let (m, mine) ← ({ s := s, done := 0, pages := [], wrote := [], first := [] } : Move).read j c.w0 c.w0.addr.toNat n
      { m with s := m.s.contribute c mine }.write j c.w1 c.w1.addr.toNat
        (out (contributions s.devnum mine n c.members peers) n (rank.getD 0)))

def Cmd.redOp (c : Cmd) : Nat := (c.extra.extractLsb' 44 4).toNat
def Cmd.redTree (c : Cmd) : Bool := c.extra.extractLsb' 42 2 == 1

/-- The fabric offset of a local address (R12). -/
def fabricOffset (a : Nat) : Nat :=
  if a < 2 ^ 47 then a
  else if a < hostBase then 2 ^ 47 + (a - spadBase)
  else 2 ^ 47 + 2 ^ 46 + (a - hostBase)

/-- The own placement of a multicast: a handler's execution for the command (R134). -/
def Move.own (m : Move) (j : Job) (a : Nat) (l : List U8) : Except Stop Move :=
  (units4k none a l.length).foldlM (fun (m : Move) (u : CopyUnit) => do
    match m.s.unitCheck j.ci j.cmd j.cmd.w1 .w u.dst u.n with
    | some st => .error (.status st m)
    | none =>
      (u.pieces (u.n + 1)).foldlM (fun (m : Move) p => do
        let y := m.s.engAcc j.ci j.cmd p.dst p.n true
        let x := { y with agent := .handler (m.s.dieAt y.addr) m.s.devnum (BitVec.ofNat 15 j.ci) 0 }
        let m1 ← m.check x
        .ok { m1 with
          s := m1.s.performed x (fun t =>
            (((l.drop (p.dst - a)).take p.n).zipIdx.foldl (fun t y => t.putByte (x.addr + y.2) y.1) t).clearTags x.addr p.n)
          done := m1.done + p.n }) m) m

/-- MCAST: one bulk store per 4 KiB to each other member, and the own placement (R134). -/
def State.runMcast (s : State) (ci : Nat) (c : Cmd) (reach : Bool) : Ran :=
  if !reach then .ok (s.ends ci c 0x0E 0)
  else
    let j := jobOf s ci c
    let n := (c.len.extractLsb' 0 40).toNat
    let a := s.localAddr c.w1.addr.toNat
    j.finish (do
      let (m, l) ← ({ s := s, done := 0, pages := [], wrote := [], first := [] } : Move).read j c.w0 c.w0.addr.toNat n
      let others := c.members.filter (fun d => d != s.devnum)
      let m1 := { m with
        s := others.foldl (fun t d =>
          (List.range ((n + 4095) / 4096)).foldl (fun (t : State) k =>
            let chunk := (l.drop (4096 * k)).take 4096
            j.far t (.bulk d { j.request t (fabricOffset (a + 4096 * k)) chunk.length with tail := chunk } (some (c.entropyOf k))) none
              chunk.length) t) m.s }
      if c.members.contains s.devnum then m1.own j c.w1.addr.toNat l else .ok { m1 with done := n })

/-! ### The events -/

def execCopy (ctx : Nat) (s : State) : Host.Outcome State Fault Refusal :=
  .next (s.engineRun ctx 0x01 (fun t c => t.runCopy ctx c))
def execCopy2d (ctx : Nat) (s : State) : Host.Outcome State Fault Refusal :=
  .next (s.engineRun ctx 0x02 (fun t c => t.runCopy ctx c))
def execFill (ctx : Nat) (s : State) : Host.Outcome State Fault Refusal :=
  .next (s.engineRun ctx 0x03 (fun t c => t.runCopy ctx c))
def execResume (ctx : Nat) (s : State) : Host.Outcome State Fault Refusal :=
  .next (s.engineRun ctx 0x04 (fun t c => t.runResume ctx c))
def execFramecopy (ctx : Nat) (s : State) : Host.Outcome State Fault Refusal :=
  .next (s.frameRun ctx 0 (fun t c => t.runFramecopy ctx c))
def execFramecopyPass1 (ctx : Nat) (s : State) : Host.Outcome State Fault Refusal :=
  .next (s.frameRun ctx 1 (fun t c => t.runPass1 ctx c))
def execFramecopyPass2 (ctx : Nat) (s : State) : Host.Outcome State Fault Refusal :=
  .next (s.frameRun ctx 2 (fun t c => t.runPass2 ctx c))
def execFramecopyPass3 (ctx : Nat) (s : State) : Host.Outcome State Fault Refusal :=
  .next (s.frameRun ctx 3 (fun t c => t.runPass3 ctx c))
def execGather (ctx : Nat) (s : State) : Host.Outcome State Fault Refusal :=
  .next (s.engineRun ctx 0x10 (fun t c => t.runGather ctx c))
def execAllreduce (ctx : Nat) (agree reach : Bool) (peers : List (List U8)) (s : State) :
    Host.Outcome State Fault Refusal :=
  .next (s.engineRun ctx 0x20 (fun t c => t.collective ctx c agree reach peers
    (fun l n _ => reduceBytes c.redOp c.redTree l n)))
def execRedscat (ctx : Nat) (agree reach : Bool) (peers : List (List U8)) (s : State) :
    Host.Outcome State Fault Refusal :=
  .next (s.engineRun ctx 0x21 (fun t c => t.collective ctx c agree reach peers
    (fun l n r => ((reduceBytes c.redOp c.redTree l n).drop (n / l.length * r)).take (n / l.length))))
def execAllgather (ctx : Nat) (agree reach : Bool) (peers : List (List U8)) (s : State) :
    Host.Outcome State Fault Refusal :=
  .next (s.engineRun ctx 0x22 (fun t c => t.collective ctx c agree reach peers (fun l _ _ => l.flatten)))
def execMcast (ctx : Nat) (reach : Bool) (s : State) : Host.Outcome State Fault Refusal :=
  .next (s.engineRun ctx 0x23 (fun t c => t.runMcast ctx c reach))
def execSweep (ctx : Nat) (s : State) : Host.Outcome State Fault Refusal :=
  .next (s.engineRun ctx 0x60 (fun t c => t.runSweep ctx c))

end Sys2Proof.Machine
end

