-- ==== Sys2Proof/Machine/Launches.lean ====
section
/-! DEFINITION. Launches (R266 to R270): the check of a LAUNCH block, the order in which launches are served, placement of tasks and
of shops on other devices. -/
namespace Sys2Proof.Machine

/-! ### LAUNCH (R266) -/

/-- The first check of R266 that fails, as a bit of the block. -/
def State.badLaunch (s : State) (ci : Nat) (c : Cmd) : Option Nat :=
  let w := c.len
  let field (lo n : Nat) : Nat := (w.extractLsb' lo n).toNat
  if !c.w0.holds .x then some 125
  else if 47 < field 0 6 then some 256
  else if 95 < field 6 7 then some 262
  else if w.getLsbD 47 then some 303
  else if w.getLsbD 63 then some 319
  else if w.getLsbD 32 && !(resValid (mkRes 6 (field 48 15)) && s.uses (s.actsFor ci) (mkRes 6 (field 48 15))) then some 304
  else if w.getLsbD 30 && decide ((if w.getLsbD 31 then 8 else 7) < field 26 4 + 1) then some 282
  else if 0 < field 13 13 && !c.w0.holds .fb then some 121
  else if 0 < field 13 13 && c.w1.tag && !c.w1.holds .fb then some 249
  else none

/-- The shop of a launch that this device places, if any (R268). -/
def localShop (w2 : U128) (dev : BitVec 14) : Option Nat :=
  let k := (dev - w2.extractLsb' 33 14).toNat
  if k ≤ (w2.extractLsb' 13 13).toNat then some k else none

def State.runLaunch (s : State) (ci : Nat) (c : Cmd) : Ran :=
  if s.isRevoked c.w0 || s.isRevoked c.w1 then .ok (s.ends ci c 0x0A 0)
  else match s.badLaunch ci c with
  | some bit => .ok (s.ends ci c 2 bit)
  | none =>
    .ok { s with
      nextId := s.nextId + 1
      launches := putBy Launch.id
        { id := s.nextId, ctx := ci, number := c.number, owner := s.actsFor ci, entry := c.w0, data := c.w1, w2 := c.w2.bits
          priority := c.priority, ev := c.flagEV, shop := localShop c.w2.bits s.devnum, answers := none, placed := [], ended := []
          aborted := 0, benches := [], remote := [], begun := false, failed := 0, token := (s.devnum, s.nextId), asked := []
          granted := [], asks := [], given := [], farEnded := [] } s.launches }

def execLaunch (ctx : Nat) (s : State) : Host.Outcome State Fault Refusal :=
  .next (s.engineRun ctx 0x40 (fun t c => t.runLaunch ctx c))

/-! ### The order of service (R267) -/

def Launch.pre (l : Launch) : Bool := l.w2.getLsbD 32
def Launch.slot0 (l : Launch) : Bool := l.w2.getLsbD 31
def Launch.resident (l : Launch) : Bool := l.w2.getLsbD 30

/-- The precondition is met; the device that sent a shop has seen to it. -/
def State.preMet (s : State) (l : Launch) : Bool :=
  !l.pre || l.answers.isSome
    || decide ((l.w2.extractLsb' 64 64).toNat ≤ (s.ctx (l.w2.extractLsb' 48 15).toNat).counter)

/-- Tasks, or shops, still to place. -/
def Launch.unplaced (l : Launch) : Bool := !l.begun || decide (l.placed.length < l.tasks)

/-- One launch is served before another: its priority is higher, or it was accepted earlier (R267). -/
def Launch.before (a b : Launch) : Bool :=
  if a.priority ≠ b.priority then decide (b.priority < a.priority) else decide (a.id < b.id)

/-- A launch has been started: a task of it, or a shop elsewhere. -/
def Launch.started (l : Launch) : Bool := !l.placed.isEmpty || (l.begun && l.answers.isNone && decide (1 < l.shops || l.shop.isNone))

/-- The launch of an owner that is served next; images saved at a recovery come before a new one (R369). -/
def State.servedLaunch (s : State) (owner : U16) : Option Launch :=
  let l := s.launches.filter (fun l => l.owner == owner && l.unplaced && s.preMet l && (l.started || !s.lapsed owner))
  let best := l.foldl (fun (b : Option Launch) x =>
    match b with
    | none => some x
    | some y => if x.before y then some x else some y) none
  match best with
  | some x =>
    let waits := match s.owner owner with
      | some o => o.images.any (fun i => i.turn.isNone && !i.isYield)
      | none => false
    if !x.started && waits then none else some x
  | none => none

/-! ### The start of a launch task (R269, R270) -/

/-- Logical core number of the n-th coordinate of the local shop. -/
def Launch.lcn (l : Launch) (n : Nat) : Nat := l.shop.getD 0 * l.benchesN * l.seats + n

/-- COORD (R168): stage, shop, bench, seat. -/
def Launch.coord (l : Launch) (n stage : Nat) : U64 :=
  0#34 ++ BitVec.ofNat 4 stage ++ BitVec.ofNat 13 (l.shop.getD 0) ++ BitVec.ofNat 7 (n / l.seats) ++ BitVec.ofNat 6 (n % l.seats)

/-- Start the task of a coordinate and stage in a slot. -/
def State.startLaunchTask (s : State) (l : Launch) (n stage core idx : Nat) : State :=
  let lcn := l.lcn n
  let q6 := if stage = 0 then none
    else (s.stageqs.find? (fun q => q.launch == l.id && q.lcn == lcn && q.stage + 1 == stage)).map StageQ.id
  let last := stage + 1 == l.stages
  let qid := s.nextId
  let s1 : State :=
    if last then s
    else
      { s with
        nextId := s.nextId + 1
        stageqs := putBy StageQ.id { id := qid, launch := l.id, lcn := lcn, stage := stage, items := [], producerEnded := false }
          s.stageqs }
  let s2 := s1.startTask core idx (.launch l.id lcn stage) l.owner l.entry (s.dropRevoked l.data) (Cap.ofInt (BitVec.ofNat 64 lcn))
    (Cap.ofInt (l.w2.extractLsb' 0 64)) .zero .zero
  let s3 := s2.putSlot { s2.slot core idx with
    coord := l.coord n stage, q6 := q6, q7 := if last then none else some qid }
  match s3.launch l.id with
  | some y => s3.putLaunch { y with placed := y.placed ++ [(lcn, stage, core)] }
  | none => s3

/-- Work of an owner may start on a core: no rota runs and the owner is the core's user, or the running turn is the owner's (R287). -/
def State.ownerMayRun (s : State) (core : Nat) (owner : U16) : Bool :=
  let t := (s.core core).turn
  if s.noTurn core then s.coreUser core == owner && owner != 0
  else t.phase == 1 && s.uses owner (mkRes 2 (core * 8 + t.entry))

/-! ### Shops on other devices (R268) -/

/-- The shops of a launch that other devices place. -/
def Launch.remoteShops (l : Launch) (dev : BitVec 14) : List (Nat × BitVec 14) :=
  if l.answers.isSome then []
  else
    ((List.range l.shops).map (fun k => (k, l.w2.extractLsb' 33 14 + BitVec.ofNat 14 k))).filter (fun x => x.2 != dev)

/-- A launch begins: its shops elsewhere are sent. One that cannot be reached ends the command. -/
def State.beginLaunch (s : State) (l : Launch) : State :=
  if l.begun then s
  else
    let far := l.remoteShops s.devnum
    if far.any (fun x => !s.reaches x.2) then
      let t := { s with launches := dropBy Launch.id l.id s.launches }
      match (t.ctx l.ctx).active.find? (fun c => c.number == l.number) with
      | some c => t.complete l.owner l.ctx c 0x0E (some 0) (some c.detail1)
      | none => t
    else
      let f (c : Cap) : Cap := if c.holds .fb then c else c.untag
      let r : FabricReq :=
        { device := s.devnum, unit := BitVec.ofNat 15 l.ctx, slot := 0, engine := true, owner := l.owner, txn := 0, addr := BitVec.ofNat 48 l.id, size := 0
          capability := false, op := 0, data := .zero, expect := .zero, tail := [], tags := [] }
      let t := far.zipIdx.foldl (fun (t : State) x =>
        { t with
          out := t.out ++ [.launch x.1.2 { r with txn := s.nextTxn + x.2 } (f l.entry) (f l.data) l.w2 x.1.1
            (BitVec.ofNat 2 l.priority)] }) s
      { (t.putLaunch { l with
            begun := true, remote := (List.range far.length).map (· + s.nextTxn) }) with
        nextTxn := s.nextTxn + far.length }

/-! ### Placement (R268) -/

/-- A slot of a core for a stage: slot 0 for a stage 0 that needs it, else the lowest free of 1 to 7, then 0. `ok` says which
slots may be taken. -/
def Launch.slotFor (l : Launch) (stage : Nat) (ok : Nat → Bool) : Option Nat :=
  if stage = 0 && l.slot0 then (if ok 0 then some 0 else none)
  else [1, 2, 3, 4, 5, 6, 7, 0].find? ok

/-- The inbox's head takes a freed slot of a core before the launch engine does (R268). -/
def State.inboxFirst (s : State) (core : Nat) : Bool :=
  match (s.core core).inbox with
  | [] => false
  | m :: _ => s.userMayRun core && (s.slotFor core (if m.spawned then m.place else 15)).isSome

/-- The core where a task of the launch is: in a slot, in an image, or, once it has ended, where it started. -/
def State.taskCore (s : State) (l : Launch) (lcn stage : Nat) : Option Nat :=
  match s.heldSlots.find? (fun x => x.role == .launch l.id lcn stage) with
  | some x => some x.core
  | none => l.coreOf lcn stage

/-- The core and slot for the next task of a launch that is not resident, on a given core. -/
def State.placeOn (s : State) (l : Launch) (core : Nat) : Option Nat :=
  let i := l.placed.length
  let stage := i % l.stages
  let same := stage == 0 || s.taskCore l (l.lcn (i / l.stages)) 0 == some core
  if l.tasks ≤ i || !same || Config.cores ≤ core || !s.ownerMayRun core l.owner || s.inboxFirst core then none
  else l.slotFor stage (s.openSlot core)

/-- One task of a launch that is not resident. -/
def State.placeTask (s : State) (l : Launch) (core : Nat) : State :=
  match s.placeOn l core with
  | none => s
  | some i => s.startLaunchTask l (l.placed.length / l.stages) (l.placed.length % l.stages) core i

/-- The cores of a bench that a resident launch may take: whole cores of its owner. -/
def State.residentCores (s : State) (owner : U16) (bench : Nat) : List Nat :=
  ((List.range 48).map (fun q => bench * 48 + q)).filter
    (fun c => s.coreUser c == owner && !s.quarantined.contains bench)

/-- The slots that the stages of a resident launch take on one core, all at once; none while they are not free. -/
def Launch.coreSlots (l : Launch) (ok : Nat → Bool) : Option (List Nat) :=
  (List.range l.stages).foldlM (fun taken st =>
    (l.slotFor st (fun i => ok i && !taken.contains i)).map (fun i => taken ++ [i])) []

/-- The eligible cores of a bench: those with enough free slots (R268). -/
def State.eligibleCores (s : State) (l : Launch) (bench : Nat) : List Nat :=
  (s.residentCores l.owner bench).filter (fun c => (l.coreSlots (fun i => !(s.slot c i).running)).isSome)

/-- Physical benches for the logical ones that have none yet, in ascending order, each at most once: those whose cores pass a test. -/
def Launch.choose (l : Launch) (cores : Nat → List Nat) : Launch :=
  (List.range l.benchesN).foldl (fun (l : Launch) b =>
    if l.benches.any (fun x => x.1 == b) then l
    else
      match (List.range Config.benches).find? (fun p =>
          !l.benches.any (fun x => x.2 == p) && decide (l.seats ≤ (cores p).length)) with
      | some p => { l with benches := l.benches ++ [(b, p)] }
      | none => l) l

/-- Benches with enough eligible cores first; a bench with enough cores of the owner waits for their slots to free. -/
def State.chooseBenches (s : State) (l : Launch) : Launch := (l.choose (s.eligibleCores l)).choose (s.residentCores l.owner)

/-- The slots reserved on a core: every free slot, while they are fewer than the stages or the one needed is missing. -/
def State.reserveCore (s : State) (l : Launch) (core : Nat) : State :=
  let c := s.core core
  let free (i : Nat) : Bool := !(s.slot core i).running
  match l.coreSlots free with
  | some k => s.putCore { c with reserved := k }
  | none =>
    let want := if l.slot0 then l.stages - 1 else l.stages
    let others := ([1, 2, 3, 4, 5, 6, 7].filter free).take want
    s.putCore { c with reserved := if l.slot0 && free 0 then 0 :: others else others }

/-- A logical bench that has its physical bench: its slots reserved, and its tasks started when each core has all of them. -/
def State.placeBench (s : State) (l : Launch) (b p : Nat) : State :=
  if l.placed.any (fun t => (t.1 - l.lcn 0) / l.seats == b) then s
  else
    let fit := s.eligibleCores l p
    let cores := (if l.seats ≤ fit.length then fit else s.residentCores l.owner p).take l.seats
    let t := cores.foldl (fun t c => t.reserveCore l c) s
    let free (c i : Nat) : Bool := !(t.slot c i).running
    let ready := decide (cores.length = l.seats)
      && cores.all (fun c => (l.coreSlots (free c)).isSome && t.ownerMayRun c l.owner)
    if !ready then t
    else
      cores.zipIdx.foldl (fun t x =>
        let u := ((l.coreSlots (free x.1)).getD []).zipIdx.foldl
          (fun (u : State) k => u.startLaunchTask l (b * l.seats + x.2) k.2 x.1 k.1) t
        u.putCore { u.core x.1 with reserved := [] }) t

/-- A resident launch: benches chosen, slots reserved, benches that are ready started. -/
def State.placeResident (s : State) (l0 : Launch) : State :=
  -- a bench that has not started is chosen anew, and its slots are reserved anew
  let started (b : Nat) : Bool := l0.placed.any (fun t => (t.1 - l0.lcn 0) / l0.seats == b)
  let l := s.chooseBenches { l0 with benches := l0.benches.filter (fun x => started x.1) }
  let t := State.putLaunch
    { s with cores := s.cores.map (fun (c : Core) => if s.coreUser c.idx = l0.owner then { c with reserved := [] } else c) } l
  l.benches.foldl (fun t x => t.placeBench l x.1 x.2) t

/-- LAUNCH_PLACEMENT: the launch that its owner's queue serves places what it can; `core` is the choice of core, which is not
architectural (R268). -/
def State.place (s : State) (id core : Nat) : State :=
  match s.launch id with
  | none => s
  | some l =>
    if (s.servedLaunch l.owner).map Launch.id ≠ some id then s
    else
      let t := s.beginLaunch l
      match t.launch id with
      | none => t
      | some k =>
        if k.shop.isNone then t
        else if k.resident then t.placeResident k
        else t.placeTask k core

def execLaunchPlacement (launch core : Nat) (s : State) : Host.Outcome State Fault Refusal := .next (s.place launch core)

/-- LAUNCH_HANDLER: a shop that another device sent (R268). -/
def execLaunchHandler (r : FabricReq) (w0 w1 : Cap) (w2 : U128) (shop : Nat) (priority : BitVec 2) (s : State) :
    Host.Outcome State Fault Refusal :=
  .next { s with
    nextId := s.nextId + 1
    launches := putBy Launch.id
      { id := s.nextId, ctx := r.unit.toNat, number := 0, owner := r.owner, entry := w0, data := w1, w2 := w2
        priority := priority.toNat, ev := false, shop := some shop, answers := some (r.device, r.txn), placed := [], ended := []
        aborted := 0, benches := [], remote := [], begun := false, failed := 0, token := (r.device, r.addr.toNat), asked := []
        granted := [], asks := [], given := [], farEnded := [] } s.launches }

/-- A shop on another device has ended: its aborted tasks are counted, a failure is kept. -/
def State.shopEnded (s : State) (l : Launch) (r : Reply) : State :=
  let y := { l with
    remote := l.remote.filter (· != r.txn), aborted := l.aborted + r.detail.toNat
    failed := if l.failed = 0 then r.status.toNat else l.failed }
  (s.putLaunch y).launchEnd y

end Sys2Proof.Machine
end

