-- ==== Sys2Proof/Machine/Network.lean ====
section
/-! DEFINITION. SWOUT (R108) and the network engine (R317 to R322): NSEND, NRECV, NWRITE, NREAD, arriving packets,
acknowledgements, retransmission. -/
namespace Sys2Proof.Machine

/-! ### SWOUT (R108) -/

/-- How a copy out ends early: as a command does, with the cause of an ABSENT. -/
abbrev SwoutStop := Stop × Nat

/-- Write bytes at the destination; an absent page there is cause 2. -/
def Move.swWrite (m : Move) (j : Job) (a : Nat) (l : List U8) : Except SwoutStop Move :=
  match m.write j j.dst a l with
  | .ok m1 => .ok m1
  | .error e => .error (e, 2)

/-- Write zeros over the span of a null child, in blocks of 4 KiB at most. -/
def Move.swZero (m : Move) (j : Job) (a n : Nat) : Except SwoutStop Move :=
  (List.range ((n + 4095) / 4096)).foldlM (fun m i => m.swWrite j (a + 4096 * i) (List.replicate (min 4096 (n - 4096 * i)) 0#8)) m

/-- A step of the walk: the region's lines give the swatch of a name and its content, or the copy out ends. -/
def Move.swAt (m : Move) (r : Region) (name : U128) (node : Bool) : Except SwoutStop (BitVec 2048) :=
  match m.s.nameBad r name with
  | some e => .error (.status e.status m, 1)
  | none =>
    match m.s.liveIn r name with
    | none => .error (.status 6 m, 0)
    | some e =>
      if e.node != node then .error (.status 7 m, 0)
      else
        match m.s.lineBad (r.addr (r.dataLine e.line)) with
        | some b => .error (.status b.status m, 0)
        | none => .ok (m.s.content r e.line)

/-- The bytes at and below a name, with `k` levels below it (R108). -/
def Move.swNode (j : Job) (r : Region) : Nat → Nat → U128 → Move → Except SwoutStop Move
  | 0, a, name, m =>
    if name = 0 then m.swZero j a 256
    else do
      let c ← m.swAt r name false
      m.swWrite j a (bytesLE 256 c.toNat)
  | k + 1, a, name, m =>
    if name = 0 then m.swZero j a (256 * 16 ^ (k + 1))
    else do
      let c ← m.swAt r name true
      (List.range 16).foldlM (fun m i => Move.swNode j r k (a + i * (256 * 16 ^ k)) (child c i) m) m

/-- The checks of SWOUT before it takes a reference: a status, or the region. -/
def State.swoutCheck (s : State) (ci : Nat) (c : Cmd) (d : Nat) : Except Nat Region :=
  match s.engCap c.w0 .sw c.w0.addr.toNat with
  | some st => .error st
  | none =>
    match s.findRegion c.w0 (s.actsFor ci) true, s.engCap c.w1 .w c.w1.addr.toNat with
    | .error (k, _), _ => .error (if k = 0x07 then 5 else 0x15)
    | .ok _, some st => .error st
    | .ok r, none =>
      if !c.w1.inBounds c.w1.addr.toNat (256 * 16 ^ (d - 1)) then .error 4
      else .ok r

/-- Requests of a command to other devices are outstanding. -/
def Ctx.waitsFar (x : Ctx) (number : Nat) : Bool := x.far.any (fun f => f.number == number)
/-- A command waits for other devices with what it has come to. -/
def Ctx.farPart (x : Ctx) (number status done extra : Nat) : Ctx :=
  let q : FarRun :=
    { number := number, status := status, done := done, extra := extra, pages := [], wrote := [], first := [], buffer := [], only := none }
  { x with farRuns := x.farRuns ++ [q] }

/-- Complete a SWOUT; an ABSENT names its cause. -/
def State.endSwout (s : State) (ci : Nat) (c : Cmd) (status done cause : Nat) : State :=
  s.endCmd (s.actsFor ci) ci c status (some done) (some (c.detail1 + (if status = 6 then cause * 2 ^ 32 else 0)))

/-- SWREL of the root at the end; a release command that it causes goes its own way. -/
def State.swoutEnd (s : State) (seg : Nat) (root : U128) : State :=
  match s.region seg with
  | some r => (s.swrel r root HeldRelease.quiet).1
  | none => s

def State.runSwout (s : State) (ci : Nat) (c : Cmd) : Ran :=
  let d := c.cflags % 8 + 1
  match s.swoutCheck ci c d with
  | .error st => .ok (s.endSwout ci c st 0 0)
  | .ok r =>
    let root := c.w2.bits
    match s.nameBad r root with
    | some e => .ok (s.endSwout ci c e.status 0 1)
    | none =>
      match s.liveIn r root with
      | none => .ok (s.endSwout ci c 6 0 0)
      | some _ =>
        let t := (s.swref r root).1
        let j : Job := { ci := ci, cmd := c, src := none, dst := c.w1, pattern := 0, start := s }
        match Move.swNode j r (d - 1) c.w1.addr.toNat root { s := t, done := 0, pages := [], wrote := [], first := [] } with
        | .ok m =>
          let u := m.s.swoutEnd r.seg root
          if (u.ctx ci).waitsFar c.number then .ok (u.putCtx ((u.ctx ci).farPart c.number 0 m.done 0))
          else .ok (u.endSwout ci c 0 m.done 0)
        | .error (.status k m, cause) => .ok ((m.s.swoutEnd r.seg root).endSwout ci c k m.done cause)
        | .error (.stall line m, _) =>
          if s.spent ci c.number line then .ok ((m.s.swoutEnd r.seg root).endSwout ci c 9 m.done 0) else .error line

def execSwout (ctx : Nat) (s : State) : Host.Outcome State Fault Refusal :=
  .next (s.engineRun ctx 0x50 (fun t c => t.runSwout ctx c))

/-! ### Sending (R318 to R320) -/

/-- Delivery and congestion control of a network command. -/
def Cmd.delivery (c : Cmd) : BitVec 2 := c.w3.bits.extractLsb' 10 2
def Cmd.rccc (c : Cmd) : Bool := c.w3.bits.getLsbD 12
/-- Bytes, window offset, tag, ebase and ecount - 1. -/
def Cmd.netBytes (c : Cmd) : Nat := (c.len.extractLsb' 0 32).toNat
def Cmd.netOffset (c : Cmd) : Nat := (c.len.extractLsb' 32 32).toNat
def Cmd.netTag (c : Cmd) : U32 := c.extra.extractLsb' 0 32
def Cmd.ebase (c : Cmd) : Nat := (c.extra.extractLsb' 32 8).toNat
def Cmd.ecount (c : Cmd) : Nat := (c.extra.extractLsb' 40 8).toNat

def endpointKey (x : Endpoint) : Nat := x.id

/-- The endpoint that a handle names, if it was granted to an owner and may be used (R318). -/
def State.endpointOf (s : State) (h : Cap) (owner : U16) : Option Endpoint :=
  if !h.tag || h.otype != 1 || s.isRevoked h || !h.holds .fb then none
  else
    match findBy endpointKey h.addr.toNat s.endpoints with
    | some e => if e.owner == owner then some e else none
    | none => none

def Endpoint.flow (e : Endpoint) : BitVec 160 := e.address ++ e.context

/-- The next sequence number of a flow. -/
def Ctx.nextSeq (x : Ctx) (flow : BitVec 160) : Nat :=
  match x.flows.find? (fun y => y.1 == flow) with
  | some y => y.2
  | none => 0
def Ctx.setSeq (x : Ctx) (flow : BitVec 160) (n : Nat) : Ctx :=
  { x with flows := (flow, n) :: x.flows.filter (fun y => y.1 != flow) }

/-- The packets of a command: `n` bytes in packets of 2,048, at offsets from `base` on; `data` is empty for a read. -/
def packetsOf (c : Cmd) (ci : Nat) (e : Endpoint) (kind : BitVec 2) (n base seq : Nat) (data : List U8) : List OutPacket :=
  (List.range (max 1 ((n + 2047) / 2048))).map (fun i =>
    { ctx := ci, number := c.number, flow := e.flow, kind := kind, tag := c.netTag, total := n, offset := base + 2048 * i
      base := base, len := min 2048 (n - 2048 * i), seq := seq + i, entropy := (c.ebase + (seq + i) % (c.ecount + 1)) % 256
      delivery := c.delivery, rccc := c.rccc, data := (data.drop (2048 * i)).take 2048 })

/-- Send the packets of a command for the first time. -/
def State.sendPackets (s : State) (ci : Nat) (l : List OutPacket) : State :=
  let x := s.ctx ci
  let y := match l with
    | p :: _ => x.setSeq p.flow (x.nextSeq p.flow + l.length)
    | [] => x
  { (s.putCtx { y with
        flights := y.flights ++ l.map (fun p => { p := p, sends := 1, sentAt := s.us, acked := false, refused := false, later := [] }) }) with
    out := s.out ++ l.map (fun p => .packet 1 p) }

/-- A capability that a network command reads or writes through must hold FB (R319). -/
def State.netCap (s : State) (c : Cap) (need : Perm) : Option Nat :=
  match s.engCap c need c.addr.toNat with
  | some st => some st
  | none => if c.holds .fb then none else some 3

/-- The packets of an NSEND or NWRITE whose bytes are at hand. -/
def State.sendBytes (s : State) (ci : Nat) (c : Cmd) (e : Endpoint) (l : List U8) : State :=
  s.sendPackets ci (packetsOf c ci e (if c.code = 0x32 then 1 else 0) c.netBytes (if c.code = 0x32 then c.netOffset else 0)
    ((s.ctx ci).nextSeq e.flow) l)

/-- Loads of a source on another device, into the command's buffer (R396). -/
def State.loadFar (s : State) (ci : Nat) (c : Cmd) (dev : BitVec 14) (off n : Nat) : State :=
  let j := jobOf s ci c
  let t := s.putCtx ((s.ctx ci).farPart c.number 0 0 0)
  (List.range ((n + 15) / 16)).foldl (fun t i =>
    let k := min 16 (n - 16 * i)
    j.far t (.load dev (j.request t (off + 16 * i) k)) (some (16 * i)) k true) t

/-- NSEND and NWRITE. -/
def State.runSend (s : State) (ci : Nat) (c : Cmd) : Ran :=
  match s.endpointOf c.w1 (s.actsFor ci), s.netCap c.w0 .r with
  | none, _ => .ok (s.ends ci c 3 0)
  | some _, some st => .ok (s.ends ci c st 0)
  | some e, none =>
    let n := c.netBytes
    if n = 0 && c.code == 0x32 then .ok (s.ends ci c 0 0)
    else if !c.w0.inBounds c.w0.addr.toNat n then .ok (s.ends ci c 4 0)
    else
      match (if n = 0 then none else s.remoteOf c.w0.addr.toNat) with
      | some (dev, off) => if s.reaches dev then .ok (s.loadFar ci c dev off n) else .ok (s.ends ci c 0x0E 0)
      | none =>
        let j := jobOf s ci c
        match Move.read { s := s, done := 0, pages := [], wrote := [], first := [] } j c.w0 c.w0.addr.toNat n with
        | .error x => j.finish (.error x)
        | .ok (m, l) => .ok (m.s.sendBytes ci c e l)

/-- NREAD: a request for each packet. -/
def State.runNread (s : State) (ci : Nat) (c : Cmd) : Ran :=
  match s.endpointOf c.w0 (s.actsFor ci), s.netCap c.w1 .w with
  | none, _ => .ok (s.ends ci c 3 0)
  | some _, some st => .ok (s.ends ci c st 0)
  | some e, none =>
    if c.netBytes = 0 then .ok (s.ends ci c 0 0)
    else .ok (s.sendPackets ci (packetsOf c ci e 2 c.netBytes c.netOffset ((s.ctx ci).nextSeq e.flow) []))

def execNsend (ctx : Nat) (s : State) : Host.Outcome State Fault Refusal :=
  .next (s.engineRun ctx 0x30 (fun t c => t.runSend ctx c))
def execNwrite (ctx : Nat) (s : State) : Host.Outcome State Fault Refusal :=
  .next (s.engineRun ctx 0x32 (fun t c => t.runSend ctx c))
def execNread (ctx : Nat) (s : State) : Host.Outcome State Fault Refusal :=
  .next (s.engineRun ctx 0x33 (fun t c => t.runNread ctx c))

/-! ### The end of a sending command -/

/-- Payload bytes of a command that have been acknowledged. -/
def Ctx.ackedBytes (x : Ctx) (number : Nat) : Nat :=
  ((x.flights.filter (fun f => f.p.number == number && f.acked)).map (fun f => f.p.len)).sum

/-- A sending command ends with a status, its packets forgotten. -/
def State.endSend (s : State) (ci number status : Nat) : State :=
  let x := s.ctx ci
  match x.active.find? (fun c => c.number == number) with
  | none => s
  | some c =>
    let y := { x with flights := x.flights.filter (fun f => f.p.number != number) }
    if status = 0 && y.waitsFar number then s.putCtx (y.farPart number 0 (x.ackedBytes number) 0)
    else (s.putCtx y).ends ci c status (x.ackedBytes number)

/-- It ends when every packet is acknowledged (R320). -/
def State.sendDone (s : State) (ci number : Nat) : State :=
  let l := (s.ctx ci).flights.filter (fun f => f.p.number == number)
  if !l.isEmpty && l.all Flight.acked then s.endSend ci number 0 else s

/-- Count congestion marks or losses at an entropy value (R322). -/
def Ctx.countAt (x : Ctx) (e : Nat) (ecn lost : U32) : Ctx :=
  let old := ((findBy (fun y : Nat × U32 × U32 => y.1) e x.entropy).map (fun y => y.2)).getD (0, 0)
  { x with entropy := putBy (fun y : Nat × U32 × U32 => y.1) (e, old.1 + ecn, old.2 + lost) x.entropy }

def Ctx.putFlight (x : Ctx) (f : Flight) : Ctx :=
  { x with flights := x.flights.map (fun g => if g.p.flow = f.p.flow ∧ g.p.seq = f.p.seq then f else g) }

/-- A packet is declared lost: counted, and sent again, or after eight times its command ends: NO_RECEIVE where the receiving end has
refused it (R320, R321). -/
def State.lose (s : State) (f : Flight) : State :=
  let s1 := s.putCtx ((s.ctx f.p.ctx).countAt f.p.entropy 0 1)
  if 8 ≤ f.sends then s1.endSend f.p.ctx f.p.number (if f.refused then 0x12 else 0x0E)
  else
    { (s1.putCtx ((s1.ctx f.p.ctx).putFlight { f with sends := f.sends + 1, sentAt := s.us, later := [] })) with
      out := s1.out ++ [.packet (f.sends + 1) f.p] }

/-- The flight of a sequence number of a flow that still waits for its acknowledgement. -/
def Ctx.flight (x : Ctx) (flow : BitVec 160) (seq : Nat) : Option Flight :=
  x.flights.find? (fun f => f.p.flow == flow && f.p.seq == seq && !f.acked)

/-- One packet of a flow meets a report: acknowledged, or reported missing with later ones received. A read is acknowledged by its
bytes alone. -/
def State.reportOne (s : State) (flow : BitVec 160) (ci : Nat) (acked marked : List Nat) (seq : Nat) : State :=
  let x := s.ctx ci
  match x.flight flow seq with
  | none => s
  | some f =>
    if acked.contains seq then
      if f.p.kind = 2 then s
      else
        let y := x.putFlight { f with acked := true }
        (s.putCtx (if marked.contains seq then y.countAt f.p.entropy 1 0 else y)).sendDone ci f.p.number
    else
      let later := (acked.filter (fun q => decide (seq < q))).foldl setAdd f.later
      if 3 ≤ later.length then s.lose f else s.putCtx (x.putFlight { f with later := later })

/-- SELECTIVE_ACK_ARRIVAL: the report covers the flow of the command; a status other than 0 is the receiving end's (R320, R321). One
that says NO_RECEIVE refuses the packets it lists: each is sent again when its timeout passes. -/
def State.report (s : State) (ci number : Nat) (acked marked : List Nat) (status : Nat) : State :=
  match (s.ctx ci).flights.find? (fun f => f.p.number == number) with
  | none => s
  | some f =>
    let flow := f.p.flow
    if status = 0x12 then
      let x := s.ctx ci
      s.putCtx { x with
        flights := x.flights.map (fun g =>
          if g.p.number = number && acked.contains g.p.seq && !g.acked then { g with refused := true } else g) }
    else if status ≠ 0 then
      let x := s.ctx ci
      let y := { x with
        flights := x.flights.map (fun g =>
          if g.p.number = number ∧ acked.contains g.p.seq then { g with acked := true } else g) }
      (s.putCtx y).endSend ci number status
    else
      (((s.ctx ci).flights.filter (fun g => g.p.flow == flow)).map (fun g => g.p.seq)).foldl
        (fun t q => t.reportOne flow ci acked marked q) s

def execSelectiveAckArrival (ctx number : Nat) (acked marked : List Nat) (status : U16) (s : State) :
    Host.Outcome State Fault Refusal :=
  .next (s.report ctx number acked marked status.toNat)

/-- Whether a packet's timeout has passed: 64 µs, doubled at each retransmission (R320). -/
def State.timedOut (s : State) (f : Flight) : Bool := !f.acked && decide (f.sentAt + 64 * 2 ^ (f.sends - 1) ≤ s.us)

/-- RETRANSMISSION_TIMEOUT. -/
def State.retransmit (s : State) (ci number seq : Nat) (refused : Bool) : State :=
  match (s.ctx ci).flights.find? (fun f => f.p.number == number && f.p.seq == seq) with
  | none => s
  | some f => if s.timedOut f then s.lose { f with refused := f.refused || refused } else s

def execRetransmissionTimeout (ctx number seq : Nat) (refused : Bool) (s : State) : Host.Outcome State Fault Refusal :=
  .next (s.retransmit ctx number seq refused)

/-! ### Receiving (R319, R321) -/

/-- NRECV: posted; a window of no bytes is complete. -/
def State.runNrecv (s : State) (ci : Nat) (c : Cmd) : Ran :=
  let mode := c.extra.extractLsb' 32 2
  match s.netCap c.w1 (if mode = 2 then .r else .w) with
  | some st => .ok (s.ends ci c st 0)
  | none =>
    if mode ≠ 0 ∧ c.netBytes = 0 then .ok (s.ends ci c 0 0)
    else
      let x := s.ctx ci
      .ok (s.putCtx { x with
        recvs := x.recvs ++ [{ cmd := c, mode := mode, tag := c.netTag, capacity := c.netBytes, msg := none, placed := []
                               held := [], stalled := none }] })

def execNrecv (ctx : Nat) (s : State) : Host.Outcome State Fault Refusal :=
  .next (s.engineRun ctx 0x31 (fun t c => t.runNrecv ctx c))

def Ctx.putRecv (x : Ctx) (r : Recv) : Ctx :=
  { x with recvs := x.recvs.map (fun q => if q.cmd.number = r.cmd.number then r else q) }

/-- Bytes dealt with so far. -/
def Recv.count (r : Recv) : Nat := (r.placed.map (fun p => p.2.2)).sum
/-- Note a range, once. -/
def Recv.note (r : Recv) (msg offset n : Nat) : Recv :=
  if r.placed.any (fun p => p.1 == msg && p.2.1 == offset) then r else { r with placed := r.placed ++ [(msg, offset, n)] }

/-- Answer a packet. -/
def State.answerPacket (s : State) (p : Packet) (status : Nat) (data : List U8) : State :=
  { s with out := s.out ++ [.packetReply p.ctx p.msg p.offset status data] }

/-- A receive completes: bytes done, and the message length above the code and flags (R300, R321). -/
def State.endRecv (s : State) (ci : Nat) (r : Recv) (status done len : Nat) : State :=
  let x := { s.ctx ci with recvs := (s.ctx ci).recvs.filter (fun q => q.cmd.number != r.cmd.number), past := r :: (s.ctx ci).past }
  let extra := len % 2 ^ 32 * 2 ^ 32
  if status = 0 && x.waitsFar r.cmd.number then s.putCtx (x.farPart r.cmd.number 0 done extra)
  else (s.putCtx x).complete (s.actsFor ci) ci r.cmd status (some done) (some (r.cmd.detail1 + extra))

/-- Place bytes at an offset of a receive's buffer, those beyond its capacity dropped: the state, or how it failed. -/
def State.placeAt (s : State) (ci : Nat) (r : Recv) (offset : Nat) (l : List U8) : Except Stop State :=
  let j : Job := { ci := ci, cmd := r.cmd, src := none, dst := r.cmd.w1, pattern := 0, start := s }
  match Move.write { s := s, done := 0, pages := [], wrote := [], first := [] } j r.cmd.w1
      (r.cmd.w1.addr + BitVec.ofNat 64 offset).toNat (l.take (r.capacity - offset)) with
  | .ok m => .ok m.s
  | .error e => .error e

/-- A placement failed: the receive completes with its status and the sender hears it; one that waits for a record is left to be sent
again, for 65,536 cycles (R125). -/
def State.placeFailed (s : State) (p : Packet) (r : Recv) (len : Nat) (e : Stop) : State :=
  let done := min r.capacity r.count
  match e with
  | .status k m => (m.s.answerPacket p k []).endRecv p.ctx r k (done + m.done) len
  | .stall _ _ =>
    match r.stalled with
    | none => s.putCtx ((s.ctx p.ctx).putRecv { r with stalled := some s.cycle })
    | some c => if 65536 ≤ s.cycle - c then (s.answerPacket p 9 []).endRecv p.ctx r 9 done len else s

/-- A receive has taken a packet: it is over when the message, or the window, is full. -/
def State.recvMore (s : State) (p : Packet) (r : Recv) (data : List U8) : State :=
  match r.msg with
  | some (_, len) =>
    let st := if r.capacity < len then 0x11 else 0
    if len ≤ r.count then (s.answerPacket p st data).endRecv p.ctx r st (min r.capacity len) len
    else (s.putCtx ((s.ctx p.ctx).putRecv r)).answerPacket p 0 data
  | none =>
    if r.capacity ≤ r.count then (s.answerPacket p 0 data).endRecv p.ctx r 0 r.capacity r.capacity
    else (s.putCtx ((s.ctx p.ctx).putRecv r)).answerPacket p 0 data

/-! #### Flows -/

def gotKey (x : Nat × Nat × List Nat) : Nat := x.1
/-- The next sequence number of a flow that has not come, and later ones that have. -/
def Ctx.gotOf (x : Ctx) (flow : Nat) : Nat × List Nat := ((findBy gotKey flow x.got).map (fun y => y.2)).getD (0, [])
/-- Whether a packet of a flow has been taken. -/
def Ctx.taken (x : Ctx) (p : Packet) : Bool := decide (p.seq < (x.gotOf p.flow).1) || (x.gotOf p.flow).2.contains p.seq
/-- The first number from `n` on that a list lacks, at most `k` further. -/
def firstGap (l : List Nat) (n : Nat) : Nat → Nat
  | 0 => n
  | k + 1 => if l.contains n then firstGap l (n + 1) k else n
/-- A packet of a flow has been taken. -/
def Ctx.take (x : Ctx) (p : Packet) : Ctx :=
  let g := x.gotOf p.flow
  let l := setAdd g.2 p.seq
  let n := firstGap l g.1 l.length
  if x.taken p then x else { x with got := putBy gotKey (p.flow, n, l.filter (fun q => decide (n ≤ q))) x.got }
def State.tookPacket (s : State) (p : Packet) : State := s.putCtx ((s.ctx p.ctx).take p)

/-! #### Messages -/

/-- One packet of a message is placed into its receive. -/
def State.placePacket (s : State) (p : Packet) (r : Recv) : State :=
  match s.placeAt p.ctx r p.offset p.data with
  | .error e =>
    match e with
    | .status _ _ => (s.placeFailed p r p.total e).tookPacket p
    | .stall _ _ => s.placeFailed p r p.total e
  | .ok t => (t.tookPacket p).recvMore p (r.note p.msg p.offset p.data.length) []

/-- The receive that a message has matched. -/
def Ctx.recvOf (x : Ctx) (msg : Nat) : Option Recv :=
  x.recvs.find? (fun r => r.mode == 0 && (r.msg.map (fun m => m.1)) == some msg)

/-- Packets held under ROD that are next in their flow are placed, at most `k` of them. -/
def State.placeHeld (s : State) (ci flow : Nat) : Nat → State
  | 0 => s
  | k + 1 =>
    let x := s.ctx ci
    match (x.recvs.flatMap Recv.held).find? (fun p => p.flow == flow && p.seq == (x.gotOf flow).1) with
    | none => s
    | some p =>
      match x.recvOf p.msg with
      | none => s
      | some r =>
        let t := s.placePacket p { r with held := r.held.filter (fun q => q.seq != p.seq) }
        if (t.ctx ci).taken p then t.placeHeld ci flow k else s.placePacket p r

/-- A packet of a message: matched to the oldest unfinished receive with its tag, or refused (R321). Under ROD it waits for the earlier
packets of its flow. -/
def State.takeMessage (s : State) (p : Packet) : State :=
  let x := s.ctx p.ctx
  match (x.recvOf p.msg).orElse (fun _ => x.recvs.find? (fun r => r.mode == 0 && r.msg.isNone && r.tag == p.tag)) with
  | none => s.answerPacket p 0x12 []
  | some r0 =>
    let r := { r0 with msg := some (p.msg, p.total) }
    if p.rod && r.placed.any (fun q => q.2.1 == p.offset) then s.answerPacket p 0 []
    else if p.rod then
      let r1 := { r with held := p :: r.held.filter (fun h => h.seq != p.seq) }
      (s.putCtx (x.putRecv r1)).placeHeld p.ctx p.flow ((x.recvs.flatMap Recv.held).length + 1)
    else
      -- packets that wait for this one may follow it
      ((s.putCtx (x.putRecv r)).placePacket p r).placeHeld p.ctx p.flow (x.recvs.flatMap Recv.held).length

/-! #### Windows -/

/-- The window of a mode that serves a whole transfer (R321). -/
def Ctx.window (x : Ctx) (mode : BitVec 2) (p : Packet) : Option Recv :=
  x.recvs.find? (fun r => r.mode == mode && r.tag == p.tag && decide (p.base + p.total ≤ r.capacity))

/-- A packet written into a window. -/
def State.takeWrite (s : State) (p : Packet) : State :=
  match (s.ctx p.ctx).window 1 p with
  | none => s.answerPacket p 0x12 []
  | some r =>
    match s.placeAt p.ctx r p.offset p.data with
    | .error e => s.placeFailed p r r.capacity e
    | .ok t => (t.tookPacket p).recvMore p (r.note p.msg p.offset p.data.length) []

/-- The bytes of a packet's read of a window: what is left of the transfer there, at most a packet's. -/
def packetAsks (p : Packet) : Nat := min 2048 (p.base + p.total - p.offset)
/-- A window's bytes. -/
def State.windowBytes (s : State) (p : Packet) (r : Recv) : Except Stop (Move × List U8) :=
  let j : Job := { ci := p.ctx, cmd := r.cmd, src := none, dst := r.cmd.w1, pattern := 0, start := s }
  Move.read { s := s, done := 0, pages := [], wrote := [], first := [] } j r.cmd.w1 (r.cmd.w1.addr + BitVec.ofNat 64 p.offset).toNat (packetAsks p)

/-- A read of a window. -/
def State.takeRead (s : State) (p : Packet) : State :=
  match (s.ctx p.ctx).window 2 p with
  | none => s.answerPacket p 0x12 []
  | some r =>
    match s.windowBytes p r with
    | .error e => s.placeFailed p r r.capacity e
    | .ok (m, l) => (m.s.tookPacket p).recvMore p (r.note p.msg p.offset (packetAsks p)) l

/-- A late copy of a packet that a receive has taken which is complete: the same bytes again, and nothing else changes (R324, R330). -/
def State.takeAgain (s : State) (p : Packet) : Option State :=
  let x := s.ctx p.ctx
  match x.past.find? (fun r => r.placed.any (fun q => q.1 == p.msg && q.2.1 == p.offset)) with
  | none => none
  | some r =>
    if !x.taken p || (x.recvOf p.msg).isSome then none
    else if r.mode = 2 then
      match s.windowBytes p r with
      | .ok (m, l) => some (m.s.answerPacket p 0 l)
      | .error _ => some s
    else
      match s.placeAt p.ctx r p.offset p.data with
      | .ok t => some (t.answerPacket p (if r.mode = 0 && decide (r.capacity < p.total) then 0x11 else 0) [])
      | .error _ => some s

/-- The bytes of a read of this device: writes of its NREAD, which is over when every packet's bytes are there (R320, R321). One that
waits for a record is left to be sent again, for 65,536 cycles (R125). -/
def State.takeReadBytes (s : State) (p : Packet) : State :=
  let x := s.ctx p.ctx
  match x.active.find? (fun c => c.number == p.number),
      x.flights.find? (fun f => f.p.number == p.number && f.p.kind == 2 && f.p.offset == p.offset && !f.acked) with
  | some c, some f =>
    match Move.write { s := s, done := 0, pages := [], wrote := [], first := [] } (jobOf s p.ctx c) c.w1
        (c.w1.addr + BitVec.ofNat 64 (p.offset - c.netOffset)).toNat (p.data.take f.p.len) with
    | .ok m => (m.s.putCtx ((m.s.ctx p.ctx).putFlight { f with acked := true })).sendDone p.ctx p.number
    | .error (.status k m) => m.s.endSend p.ctx p.number k
    | .error (.stall line _) => if s.spent p.ctx p.number line then s.endSend p.ctx p.number 9 else s.stallOn p.ctx p.number line
  | _, _ => s

/-- PACKET_ARRIVAL at a network context of this device (R321). -/
def State.takePacket (s : State) (p : Packet) : State :=
  if ctxKind p.ctx ≠ 4 || !resValid (mkRes 6 p.ctx) then s
  else
    match s.takeAgain p with
    | some t => t
    | none =>
      match p.kind.toNat with
      | 0 => s.takeMessage p
      | 1 => s.takeWrite p
      | 2 => s.takeRead p
      | _ => s.takeReadBytes p

def execPacketArrival (pkt : Packet) (s : State) : Host.Outcome State Fault Refusal := .next (s.takePacket pkt)

end Sys2Proof.Machine
end

