-- ==== Sys2Proof/Machine/Fabric.lean ====
section
/-! DEFINITION. The hardware message handlers (R396): loads, stores, atomics and bulk stores for other devices, the reply handler,
unimplemented numbers (R398); accesses that wait for a record or for write-protect tracking (R125, R376); memory errors (R373,
R374). -/
namespace Sys2Proof.Machine

/-! ### Serving a request (R133, R396) -/

/-- The local address of a request. -/
def reqLocal (r : FabricReq) : Nat := fabricLocal r.addr.toNat

/-- The access of a handler. -/
def State.reqAcc (s : State) (r : FabricReq) (n : Nat) (write read atomic : Bool) : Acc :=
  { agent := .handler (s.dieAt (reqLocal r)) r.device r.unit r.slot, owner := r.owner, addr := reqLocal r, size := n, write := write, read := read
    atomic := atomic, fetch := false }

/-- The reply to a request. -/
def repOf (r : FabricReq) (status : U16) (value : Cap) : Reply :=
  { txn := r.txn, status := status, value := value, w4 := .zero, w5 := .zero, w6 := .zero, w7 := .zero, detail := 0 }

def State.sendReply (s : State) (r : FabricReq) (rep : Reply) : State := { s with out := s.out ++ [.reply r.device rep] }

/-- The fault record of a handler's access: its requester is the agent that sent the request (R313, R315). -/
def State.reqFault (s : State) (r : FabricReq) (kind : Nat) (x : Acc) (a : Nat) : FaultRec :=
  let p := s.pageOf a
  { kind := kind, access := x.bits + (if r.engine then 8 else 0)
    requester := BitVec.ofNat 2 (if r.engine then 1 else 0) ++ r.device ++ r.unit.setWidth 16
    addr := a, done := 0, number := 0, sectors := touchedSectors p.1 p.2 [x], page := p.1 }

/-- What a handler's execution comes to: a state, or a wait: for a line's records, or for a page or a fault queue. -/
abbrev Served := Except (Option Nat) State

/-- What becomes of a request that an error meets: its reply, or a wait. -/
def State.reqStop (s : State) (r : FabricReq) (x : Acc) (e : AccErr) : Served :=
  let at0 (a : Nat) : Cap := Cap.ofInt (BitVec.ofNat 64 (a - x.addr))
  let record (k a : Nat) : Served :=
    if s.faultRoom x.owner then
      .ok ((s.faultRecord x.owner (s.reqFault r k x a)).sendReply r
        { repOf r (if k = 1 then 6 else 0xC) .zero with w4 := at0 a })
    else .error none
  match e with
  | .rights => .ok (s.sendReply r (repOf r 5 .zero))
  | .absent a =>
    if s.isLost a then .error none else record 1 a
  | .migrate _ => .error none
  | .protect _ => .error none
  | .dataLost a => .ok ((s.metError a (s.reqFault r 2 x a)).sendReply r (repOf r 0xD .zero))
  | .integrity a => record 3 a
  | .conflict a who => .ok (s.sendReply r { repOf r 8 .zero with w4 := at0 a, detail := who })
  | .capacity a => .error (some (a / 256))

/-- Protected pages of a write take the fault of write-protect tracking, and the write is tried again (R376). -/
def State.unprotected (s : State) (r : FabricReq) (x : Acc) : Nat → State
  | 0 => s
  | k + 1 =>
    match s.accErr x with
    | some (.protect a) => if !s.faultRoom (s.migrator a) then s else (s.unprotect a (s.reqFault r 4 x a)).unprotected r x k
    | _ => s

/-- A request whose access is judged, then performed by `run`; `cap` is a tagged value that it writes: it needs the C right of the
owner at the target (R64, R198). -/
def State.serveAccess (s : State) (r : FabricReq) (x : Acc) (cap : Bool) (run : State → State) : Served :=
  let right := (s.rightsAt r.owner x.addr).any (fun e => e.c)
  let t := s.unprotected r x 2
  match t.accErr x with
  | some .rights => t.reqStop r x .rights
  | e =>
    if cap && !right then .ok (t.sendReply r (repOf r 5 .zero))
    else
      match e with
      | some e => t.reqStop r x e
      | none => .ok (run t)

/-- A value that a load or an atomic returns through the fabric (R24, R25). -/
def State.fabricValue (s : State) (r : FabricReq) (c : Cap) : Cap :=
  if (s.rightsAt r.owner (reqLocal r)).any (fun e => e.c) && !s.isRevoked c && c.holds .fb then c else c.untag

/-- LOAD_HANDLER: 1 to 16 bytes; an LDA is atomic. -/
def State.serveLoad (s : State) (r : FabricReq) : Served :=
  let x := s.reqAcc r r.size false true (r.op == 11)
  s.serveAccess r x false (fun t =>
    -- a plain load of unchecked memory may miss writes (R129)
    let c : Cap := if x.atomic then t.capAt x.addr else t.seenCap x.agent x.addr
    let n : Nat := if x.atomic then t.loadN x.addr r.size else t.seenN x.agent x.addr r.size
    let v : Cap := if r.capability then t.fabricValue r c else { bits := BitVec.ofNat 128 n, tag := false }
    ((if x.atomic then t else t.looked x.agent x.addr r.size).performed x id).sendReply r (repOf r 0 v))

/-- STORE_HANDLER: 1 to 16 bytes; an STL is atomic. -/
def State.serveStore (s : State) (r : FabricReq) : Served :=
  let x := s.reqAcc r r.size true false (r.op == 12)
  s.serveAccess r x (r.capability && (r.data.tag || r.tagged)) (fun t =>
    (t.performed x (fun u =>
      if r.capability then u.storeCap x.addr r.data (u.dropRevoked r.data).tag
      else u.storeData x.addr r.size r.data.bits.toNat)).sendReply r (repOf r 0 .zero))

/-- ATOMIC_HANDLER (R203 to R206). -/
def State.serveAtomic (s : State) (r : FabricReq) : Served :=
  let n := r.size
  let x := s.reqAcc r n (r.op != 11) (r.op != 12) true
  s.serveAccess r x (r.capability && (r.data.tag || r.tagged)) (fun t =>
    let v := if r.capability then t.capAt x.addr else { bits := BitVec.ofNat 128 (t.loadN x.addr n), tag := false }
    let new := atomNew r.op.toNat n v (t.dropRevoked r.data) r.expect
    (t.performed x (fun u => match new with
      | none => u
      | some y => if r.capability then u.storeCap x.addr y y.tag else u.storeData x.addr n y.bits.toNat)).sendReply r
      (repOf r 0 (t.fabricValue r v)))

/-- BULK_STORE_HANDLER: a tail of 1 to 4,096 bytes and its tags. -/
def State.serveBulk (s : State) (r : FabricReq) : Served :=
  let n := r.tail.length
  let x := s.reqAcc r n true false false
  s.serveAccess r x false (fun t =>
    (t.performed x (fun u =>
      let v := ((r.tail.zipIdx).foldl (fun w y => w.putByte (x.addr + y.2) y.1) u).clearTags x.addr n
      r.tags.foldl (fun w g =>
        let a := x.addr + g
        if g + 16 ≤ n && a % 16 == 0 && (w.rightsAt r.owner a).any (fun e => e.c)
            && (w.dropRevoked { (w.capAt a) with tag := true }).tag then w.setTag a true else w) v)).sendReply r (repOf r 0 .zero))

/-- The execution of a handler by its number. -/
def State.serve (s : State) (handler : Nat) (r : FabricReq) : Served :=
  match handler with
  | 1 => s.serveLoad r
  | 2 => s.serveStore r
  | 3 => s.serveAtomic r
  | _ => s.serveBulk r

/-- A request arrives: it is served, or waits. -/
def State.takeRequest (s : State) (handler : Nat) (r : FabricReq) : State :=
  match s.serve handler r with
  | .ok t => t
  | .error line =>
    -- a page that an error took away: the record of the error (R373)
    let x := s.reqAcc r (if handler = 6 then r.tail.length else r.size) (handler != 1) (handler == 1) false
    let s := match s.accErr x with
      | some (.absent a) => if s.isLost a then s.metError a (s.reqFault r 2 x a) else s
      | _ => s
    { s with requests := s.requests ++ [{ handler := handler, req := r, line := line, since := s.cycle }] }

def execLoadHandler (r : FabricReq) (s : State) : Host.Outcome State Fault Refusal := .next (s.takeRequest 1 r)
def execStoreHandler (r : FabricReq) (s : State) : Host.Outcome State Fault Refusal := .next (s.takeRequest 2 r)
def execAtomicHandler (r : FabricReq) (s : State) : Host.Outcome State Fault Refusal := .next (s.takeRequest 3 r)
/-- A bulk store; one that brings something for the chains of a launch is heard there (R259). -/
def execBulkStoreHandler (r : FabricReq) (s : State) : Host.Outcome State Fault Refusal :=
  match r.chain with
  | some n => .next (s.takeChain n)
  | none => .next (s.takeRequest 6 r)

/-! ### Replies (R396, handler 0) -/

/-- The request of an engine command that a transaction names. -/
def State.farOf (s : State) (txn : Nat) : Option (Nat × FarOp) :=
  s.ctxs.findSome? (fun x => (x.far.find? (fun f => f.txn == txn)).map (fun f => (x.idx, f)))

def Ctx.farRun (x : Ctx) (number : Nat) : Option FarRun := x.farRuns.find? (fun q => q.number == number)
def Ctx.putFarRun (x : Ctx) (q : FarRun) : Ctx :=
  { x with farRuns := x.farRuns.map (fun y => if y.number = q.number then q else y) }
/-- Nothing of a command's requests is left. -/
def Ctx.dropFar (x : Ctx) (number : Nat) : Ctx :=
  { x with far := x.far.filter (fun f => f.number != number), farRuns := x.farRuns.filter (fun q => q.number != number) }

/-- The bytes that a command's loads have brought, in order. -/
def FarRun.bytes (q : FarRun) : List U8 :=
  (((q.buffer.map (fun x => x.1)).mergeSort).filterMap (fun o => q.buffer.find? (fun x => x.1 == o))).flatMap (fun x => x.2)

/-- A command whose every request is answered goes on: its packets go out, it parks, or it completes. -/
def State.farDone (s : State) (ci number : Nat) : State :=
  let x := s.ctx ci
  if x.waitsFar number then s
  else
    match x.farRun number, x.active.find? (fun c => c.number == number) with
    | some q, some c =>
      let t := s.putCtx (x.dropFar number)
      if !q.buffer.isEmpty && c.code == 0x10 then
        -- the index list of a GATHER is there (R304)
        let l := q.bytes
        match (jobOf t ci c).gatherWith ((List.range (l.length / 4)).map (fun k => (wordOf l k).toNat)) q.done q.only with
        | .ok u => u
        | .error line => s.stallOn ci number line
      else if !q.buffer.isEmpty then
        match s.endpointOf c.w1 (s.actsFor ci) with
        | some e => t.sendBytes ci c e q.bytes
        | none => t.ends ci c 3 0
      else if q.pages.isEmpty then
        t.endCmd (t.actsFor ci) ci c q.status (some q.done) (some (c.detail1 + q.extra))
      else
        match (jobOf t ci c).finish (.ok { s := t, done := q.done, pages := q.pages, wrote := q.wrote, first := q.first }) with
        | .ok u => u
        | .error line => s.stallOn ci number line
    | _, _ => s.putCtx (x.dropFar number)

/-- The status of a running command one of whose capabilities has been revoked (R36). -/
def State.revokedCmd (s : State) (c : Cmd) : Option Nat :=
  let u := wordUse c.code
  match c.doomed with
  | some st => some st.toNat
  | none => if (u.1 != 0 && s.isRevoked c.w0) || (u.2 != 0 && s.isRevoked c.w1) then some 0x0A else none

/-- A reply to a request of an engine command: bytes of a load reach their place, or wait for a record. -/
def State.farReply (s : State) (ci : Nat) (f : FarOp) (r : Reply) : Served :=
  let x := s.ctx ci
  let t := s.putCtx { x with far := x.far.filter (fun g => g.txn != f.txn) }
  let y := t.ctx ci
  match y.farRun f.number, y.active.find? (fun c => c.number == f.number) with
  | some q, some c =>
    let fail (u : State) (status : Nat) : State := (u.putCtx ((u.ctx ci).dropFar f.number)).ends ci c status q.done
    -- the map is looked at before each line (R36)
    if r.status ≠ 0 || (t.revokedCmd c).isSome then .ok (fail t ((t.revokedCmd c).getD r.status.toNat))
    else
      let l := bytesLE f.n r.value.bits.toNat
      match f.dst with
      | none => .ok (t.farDone ci f.number)
      | some a =>
        if f.buffered then .ok ((t.putCtx (y.putFarRun { q with buffer := q.buffer ++ [(a, l)] })).farDone ci f.number)
        else
          let j := jobOf t ci c
          let m : Move := { s := t, done := q.done, pages := q.pages, wrote := q.wrote, first := q.first }
          let p : Piece := { src := none, dst := a, n := f.n, index := none }
          let gone := (t.pieceAddrs p).filter (fun a => t.isAbsent a && !t.isGone a)
          let put (m : Move) : State :=
            (m.s.putCtx ((m.s.ctx ci).putFarRun
              { q with done := m.done, pages := m.pages, wrote := m.wrote, first := m.first })).farDone ci f.number
          if !gone.isEmpty then .ok (put (m.absent p gone))
          else
            let la := t.localAddr a
            let tagged := (t.dropRevoked r.value).tag && f.n == 16 && ((t.remoteOf a).isSome
              || ((t.rightsAt (t.actsFor ci) la).any (fun e => e.c) && decide (la < hostBase)))
            match m.place j a l (if tagged then [if (t.remoteOf a).isSome then a else la] else []) with
            | .ok m1 => .ok (put m1)
            | .error (.status k m1) => .ok (fail m1.s k)
            | .error (.stall line _) => .error line
  | _, _ => .ok t

/-- A delegation request that a full steward queue of another device returned (R279). -/
def Slot.returned (x : Slot) (r : Reply) : Bool :=
  match x.delegated with
  | some d => d.2.2.1.txn == r.txn && r.status == 1 && decide (8192 ≤ d.2.2.2) && x.running
  | none => false

/-- It is sent again after 1 µs. -/
def State.sendAgain (s : State) (r : Reply) : State :=
  let f (x : Slot) : Slot := if x.returned r then { x with resend := some (s.cycle + s.clock) } else x
  { s with
    self := f s.self
    others := s.others.map f
    owners := s.owners.map (fun o => { o with images := o.images.map (fun i => { i with slot := f i.slot }) }) }

/-- Whether a slot, in place or in an image, waits for a delegation reply under a transaction. -/
def State.delegates (s : State) (txn : Nat) : Bool :=
  s.heldSlots.any (fun x => match x.delegated with
    | some d => d.2.2.1.txn == txn && x.running && x.delegateReply.isNone
    | none => false)

/-- A reply whose bytes wait for a record is held as the request of handler 0. -/
def State.holdReply (s : State) (r : Reply) (line : Option Nat) : State :=
  let q : FabricReq := { (default : FabricReq) with txn := r.txn, data := r.value }
  { s with requests := s.requests ++ [{ handler := 0, req := q, line := line, since := s.cycle }] }

/-- A reply completes its request: of a launch, of an engine command, of a delegation, of a slot's access. -/
def State.takeReply (s : State) (r : Reply) : State :=
  match s.launches.find? (fun l => l.remote.contains r.txn) with
  | some l => s.shopEnded l r
  | none =>
    match s.farOf r.txn with
    | some (ci, f) =>
      match s.farReply ci f r with
      | .ok t => t
      | .error line => s.holdReply r line
    | none =>
      if s.heldSlots.any (fun x => x.returned r) then s.sendAgain r
      else if s.delegates r.txn then s.replyTo r.txn r
      else s.deliverReply r

/-- REPLY_HANDLER. -/
def execReplyHandler (r : Reply) (s : State) : Host.Outcome State Fault Refusal := .next (s.takeReply r)

/-! ### What waits -/

/-- A waiting execution is tried again; after 65,536 cycles at a line it is answered SPAN-CAPACITY, and a command whose bytes wait
ends so (R125). -/
def State.retried (s : State) (h : HeldReq) : Option State :=
  let spent (line : Option Nat) : Bool := line.isSome && h.line == line && decide (65536 ≤ s.cycle - h.since)
  if h.handler = 0 then
    match s.farOf h.req.txn with
    | none => some s
    | some (ci, f) =>
      match s.farReply ci f (repOf h.req 0 h.req.data) with
      | .ok t => some t
      | .error line =>
        if spent line then
          match s.farReply ci f (repOf h.req 9 .zero) with
          | .ok t => some t
          | .error _ => none
        else none
  else
    match s.serve h.handler h.req with
    | .ok t => some t
    | .error line => if spent line then some (s.sendReply h.req (repOf h.req 9 .zero)) else none

/-- The first waiting execution that goes on. -/
def State.retryRequests (s : State) : Option State :=
  s.requests.findSome? (fun h => ({ s with requests := s.requests.erase h }).retried h)

/-! ### Unimplemented handlers (R398) -/

/-- UNIMPLEMENTED_HANDLER: UNIMPL, or a message for the owner's emulation entry. -/
def execUnimplementedHandler (handler : U8) (r : FabricReq) (m : Msg) (s : State) : Host.Outcome State Fault Refusal :=
  match s.owner r.owner with
  | none => .next (s.sendReply r (repOf r 0xF .zero))
  | some o =>
    if !o.emulent.tag then .next (s.sendReply r (repOf r 0xF .zero))
    else
      let n := (m.tail.length + 255) / 256 * 256
      let a := s.arriveMessage o.emulcore
        { m with
          entry := o.emulent, spawned := false, replyLocal := false, emul := some handler.toNat, tail := pad n m.tail, txn := r.txn
          place := 15 }
      .next (if a.2 then a.1 else a.1.sendReply r (repOf r 1 .zero))

/-! ### Waiting accesses of slots (R125, R376) -/

/-- WRITE_PROTECT_RETRY: the write is tried again. -/
def execWriteProtectRetry (core slot : Nat) (s : State) : Host.Outcome State Fault Refusal :=
  match (s.slot core slot).park with
  | .protect due => .next (if due ≤ s.cycle then s.putSlot { s.slot core slot with park := .no } else s)
  | _ => .next s

/-- The cycles of a stall at a full line have passed. -/
def State.stalledOut (s : State) (x : Slot) : Bool :=
  match x.park with
  | .record _ since _ _ => decide (65536 ≤ s.cycle - since)
  | _ => false

/-- SPAN_CAPACITY_STALL_LIMIT at a slot; an engine command and a handler end so in their own steps. -/
def execSpanCapacityStallLimit (core slot : Nat) (s : State) : Host.Outcome State Fault Refusal :=
  let x := s.slot core slot
  match x.park with
  | .record _ _ ea lanes =>
    if s.stalledOut x then
      .next ((s.switchTo core slot).takeTrap { cls := 0x0A, addr := ea, lanes := lanes, agent := 0 })
    else .next s
  | _ => .next s

/-! ### Memory errors (R86, R373, R374) -/

/-- The translation entry whose page holds an HBM line, and the virtual address of the line in it. -/
def State.mappedAt (s : State) (p : Nat) : Option (Trans × Nat) :=
  match s.trans.find? (fun t =>
      t.present && !t.host && decide (t.page * 2 ^ 14 ≤ p) && decide (p < t.page * 2 ^ 14 + (if t.size then 2 ^ 21 else 2 ^ 14))) with
  | some t =>
    -- a VPN has 42 bits, which is all of a general segment's address (R75)
    some (t, t.vpn * 2 ^ 14 + (p - t.page * 2 ^ 14))
  | none => none

/-- An uncorrectable error of an HBM line: the frame is retired; a clean page becomes absent, a dirty one keeps a poisoned line. -/
def State.hbmError (s : State) (p : Nat) : State :=
  let s1 := (s.retireEntry (mkRes 3 (p / 2 ^ 21))).countRetired
  match s.mappedAt p with
  | none => { s1 with poison := setAdd s1.poison (p / 256) }
  | some (t, a) =>
    let s2 := s1.owesError a
    if t.clean then { s2 with trans := putBy transKey { t with present := false, lost := true } s2.trans }
    else { s2 with poison := setAdd s2.poison (p / 256) }

/-- UNCORRECTABLE_ERROR at a physical line: in HBM, or in a slice whose copy of it is dirty or not. The access that meets it writes the
fault record, which names that access (R315; log 54). -/
def execUncorrectableError (addr : U64) (inSlice dirtyInSlice : Bool) (s : State) : Host.Outcome State Fault Refusal :=
  let p := addr.toNat
  if inSlice then
    if dirtyInSlice then
      match s.mappedAt p with
      | some (_, a) =>
        let t := s.owesError a
        .next { t with poison := setAdd t.poison (p / 256) }
      | none => .next { s with poison := setAdd s.poison (p / 256) }
    else .next s
  else if p / 2 ^ 21 < Config.hbmFrames then .next (s.hbmError p)
  else .next s

/-- MAC_FAILURE at a physical line: the line fails every later unsealing until it is written afresh (R83, R374); its record is
written by the access that meets it. -/
def execMacFailure (addr : U64) (s : State) : Host.Outcome State Fault Refusal :=
  let line := addr.toNat / 256
  match s.storedMac line with
  | none => .next s
  | some m => .next { s with sealedLines := putBy (fun x : Nat × U64 => x.1) (line, ~~~m) s.sealedLines }

end Sys2Proof.Machine
end

