-- ==== Sys2Proof/Machine/Links.lean ====
section
/-! DEFINITION. The fabric links (R393, R399 to R401, R409), bring-up (R407 to R411), the clock (R412), PCI Express keying (R402),
and benches that leave service (R5). -/
namespace Sys2Proof.Machine

/-! ### Links -/

def linkKey (l : Link) : Nat := l.idx
def State.linkAt (s : State) (i : Nat) : Option Link := findBy linkKey i s.links
def State.putLink (s : State) (l : Link) : State := { s with links := putBy linkKey l s.links }

/-- Links 0 to 30 are local, of 4 lanes; 31 to 46 are global, of 8 wavelengths (R393, R399). -/
def fullWidth (i : Nat) : Nat := if i < 31 then 4 else 8
/-- The narrowest width at which a link runs. -/
def leastWidth (i : Nat) : Nat := if i < 31 then 1 else 2

def State.started (s : State) : Bool := s.bootstat.getLsbD 2

/-- The key of a link: the first 256 bits of SHA-512 of the two assay cores' values, the lower device number's first (R401). -/
def linkKeyOf (dev peer : BitVec 14) (own theirs : BitVec 256) : BitVec 256 :=
  let a := bytesBE 32 own.toNat
  let b := bytesBE 32 theirs.toNat
  BitVec.ofNat 256 (ofBytesBE ((sha512 (if dev.toNat < peer.toNat then a ++ b else b ++ a)).take 32))

/-- LINK_TRAINING: a signed peer in the fabric's range is learned, and routes are rebuilt (R393, R401, R409). Each training
agrees a key of its own; a link always trains at its full width (log 103). -/
def execLinkTraining (link : Nat) (peer : BitVec 14) (signed : Bool) (s : State) : Host.Outcome State Fault Refusal :=
  if s.started && signed && decide (link < 47) && decide (peer.toNat < 8192) && decide (s.devnum.toNat < 8192)
      && peer != s.devnum && !(s.linkAt link).any Link.up then
    let l : Link :=
      { idx := link, peer := peer, up := true, full := fullWidth link, width := fullWidth link, draining := false, dark := false
        key := linkKeyOf s.devnum peer (Config.linkSecret s.free) (Config.peerSecret s.free) }
    .next { (s.drawn.putLink l) with unreachable := s.unreachable.filter (· != peer) }
  else .next s

/-- A request that this device sent: its transaction. -/
def outRequest : OutMsg → Option (BitVec 14 × Nat)
  | .load d r => some (d, r.txn)
  | .store d r => some (d, r.txn)
  | .atomic d r => some (d, r.txn)
  | .swatch d r => some (d, r.txn)
  | .message d _ txn _ => some (d, txn)
  | .bulk d r _ => some (d, r.txn)
  | .contribution _ _ _ _ _ => none
  | .chain _ _ => none
  | .launch d r _ _ _ _ _ => some (d, r.txn)
  | .reply _ _ => none
  | .packet _ _ => none
  | .packetReply _ _ _ _ _ => none
  | .drainMarker _ => none

/-- Requests to peers that are given up are answered UNREACHABLE (R400); answered ones hear nothing more. -/
def State.giveUp (s : State) (gone : BitVec 14 → Bool) : State :=
  (s.out.filterMap outRequest).foldl (fun t x =>
    if gone x.1 then
      t.takeReply { txn := x.2, status := 0x0E, value := .zero, w4 := .zero, w5 := .zero, w6 := .zero, w7 := .zero, detail := 0 }
    else t) s

/-- A link fails below its narrowest width; its traffic takes other routes, and with no link left every peer is unreachable (R394,
R399, R400). -/
def State.dropLink (s : State) (l : Link) : State :=
  let t := s.putLink { l with up := false, draining := false, dark := false }
  if t.links.any (fun l => l.up || l.dark || l.draining) then t else t.giveUp (fun _ => true)

/-- LINK_NARROWING: half the lanes or wavelengths; the first narrowing sets DEVSTAT bit 3 and REPLACE (R5, R399). -/
def execLinkNarrowing (link : Nat) (s : State) : Host.Outcome State Fault Refusal :=
  match s.linkAt link with
  | none => .next s
  | some l =>
    if !l.up then .next s
    else if l.width ≤ leastWidth link then .next (s.dropLink l)
    else .next { (s.putLink { l with width := l.width / 2 }) with devstat := s.devstat ||| 9 }

/-- LINK_DOWN. -/
def execLinkDown (link : Nat) (s : State) : Host.Outcome State Fault Refusal :=
  match s.linkAt link with
  | none => .next s
  | some l => .next (s.dropLink l)

/-- OCS_DRAIN_REQUEST: a global link sends a drain marker and nothing after it (R400). -/
def execOcsDrainRequest (link : Nat) (s : State) : Host.Outcome State Fault Refusal :=
  match s.linkAt link with
  | none => .next s
  | some l =>
    if l.up && !l.draining && decide (31 ≤ link) then
      .next { (s.putLink { l with draining := true }) with out := s.out ++ [.drainMarker link] }
    else .next s

/-- DRAIN_MARKER_RETURN: the link goes dark, its traffic held until it trains again (R400). -/
def execDrainMarkerReturn (link : Nat) (s : State) : Host.Outcome State Fault Refusal :=
  match s.linkAt link with
  | none => .next s
  | some l => if l.draining then .next (s.putLink { l with up := false, draining := false, dark := true }) else .next s

/-- ROUTE_HOLD_TIMEOUT: a peer still without a route 1 ms after a link went dark is unreachable (R400). -/
def execRouteHoldTimeout (peer : BitVec 14) (s : State) : Host.Outcome State Fault Refusal :=
  if s.links.any Link.dark && !(s.links.any (fun l => l.up && l.peer == peer)) then
    .next (({ s with unreachable := setAdd' s.unreachable peer }).giveUp (· == peer))
  else .next s
where
  setAdd' (l : List (BitVec 14)) (x : BitVec 14) : List (BitVec 14) := if l.contains x then l else x :: l

/-! ### Bring-up -/

/-- A word of the bring-up block arrives only over a link whose IDE stream is keyed (R402, R408). -/
def State.hostHeard (s : State) : Bool := !s.ide.isEmpty

/-- IDE_STREAM_KEYING (R402). -/
def execIdeStreamKeying (link : BitVec 1) (s : State) : Host.Outcome State Fault Refusal :=
  .next (if s.ide.contains link then s else { s with ide := link :: s.ide })

/-- DEVNUM_WRITE: bits [13:0], until the device has started (R408, R409, R414). -/
def execDevnumWrite (value : U64) (s : State) : Host.Outcome State Fault Refusal :=
  .next (if s.hostHeard && !s.started then { s with devnum := value.extractLsb' 0 14 } else s)

/-- R, X, EN and FB over the host window (R410). -/
def seedPcc (offset : BitVec 48) : Cap := Cap.make 0xA60 0 hostBase (2 ^ 48) (hostBase + offset.toNat)
/-- The device root: every permission but SE and US over all of memory, E = 46 (R410). -/
def deviceRoot : Cap := { bits := 0xFF0#12 ++ 0#8 ++ 46#6 ++ 0#18 ++ 0#18 ++ 0#2 ++ 0#64, tag := true }
/-- The otype root: SE and US over otypes 0 to 255 (R28). -/
def otypeRoot : Cap := Cap.make 0x00C 0 0 256 0

/-- The house's seed task (R269, R410). -/
def State.seed (s : State) (offset : BitVec 48) : State :=
  s.startTask 0 0 .seed Config.house (seedPcc offset) deviceRoot .zero otypeRoot .zero .zero

/-- START: bits [62:48] read zero; the first write with bit 63 set starts the device once its firmware is verified and its memory
tested (R408, R410). -/
def execStart (value : U64) (s : State) : Host.Outcome State Fault Refusal :=
  if !s.hostHeard then .next s
  else
    let t := { s with startReg := value &&& 0x8000FFFFFFFFFFFF#64 }
    if value.getLsbD 63 && !s.started && s.bootstat.extractLsb' 0 2 == 3 then
      .next (({ t with bootstat := t.bootstat ||| 4 }).seed (value.extractLsb' 0 48))
    else .next t

/-- RESET: the machine as R407 leaves it; frames found bad, or on the retirement list, are RETIRED (R56) and judged against R5.
A device whose firmware does not verify starts nothing. Values drawn and transaction numbers are not drawn again. -/
def execReset (verified : Bool) (bad : List Nat) (s : State) : Host.Outcome State Fault Refusal :=
  let t := { State.reset with
    free := s.free, nextTxn := s.nextTxn, nextId := s.nextId, out := s.out, boots := s.boots + 1, bootKeys := BootKeys.drawn (s.boots + 1) }
  if !verified then .next { t with bootstat := 0 }
  else
    .next ((bad.filter (fun f => decide (f < Config.hbmFrames))).foldl
      (fun t f => t.putEntry { Entry.atReset (mkRes 3 f) with state := .retired }) t).countRetired

/-- CLOCK_STEP: 25 MHz, between 1.0 GHz and the rated clock (R412). -/
def execClockStep (up : Bool) (s : State) : Host.Outcome State Fault Refusal :=
  .next { s with
    clock := if up then (if s.clock + 25 ≤ Config.ratedMHz then s.clock + 25 else s.clock)
      else (if 1000 ≤ s.clock - 25 then s.clock - 25 else s.clock) }

/-- BENCH_QUARANTINE: DEVSTAT bit 2 and REPLACE; nothing starts or issues on the bench (R5). -/
def execBenchQuarantine (bench : Nat) (s : State) : Host.Outcome State Fault Refusal :=
  if Config.benches ≤ bench then .next s
  else
    .next { s with
      quarantined := if s.quarantined.contains bench then s.quarantined else bench :: s.quarantined
      devstat := s.devstat ||| 5 }

end Sys2Proof.Machine
end

