-- ==== Sys2Proof/Machine/Hostq.lean ====
section
/-! DEFINITION. Host work queues (R403 to R405). -/
namespace Sys2Proof.Machine

/-- HOST_PUSH: a write to queue `q`'s window over a link; only one whole, aligned 64-byte write pushes a block. A push that finds the
queue full or unbound, or of another shape, is dropped and counted (R403). -/
def execHostPush (q : Nat) (link : BitVec 1) (whole : Bool) (w0 w1 w2 w3 : U128) (s : State) :
    Host.Outcome State Fault Refusal :=
  if !s.ide.contains link || !resValid (mkRes 7 q) then .next s
  else
    let h := s.hostq q
    if whole && h.ctx.isSome && h.blocks.length < 16 then .next (s.putHostq { h with blocks := h.blocks ++ [(w0, w1, w2, w3)] })
    else .next (s.putHostq { h with dropped := h.dropped + 1 })

/-- A word derived from a queue's capability: cursor at base + offset, exact bounds of the length (R405). -/
def State.deriveWord (s : State) (c : Cap) (w : U128) : Cap :=
  let at0 := s.recursor c (BitVec.ofInt 64 c.bounds.base + w.extractLsb' 0 64)
  at0.setBounds (w.extractLsb' 64 64).toNat true (s.derivable at0)

/-- A word as its command code takes it: an integer as the host wrote it, or a capability. -/
def State.hostWord (s : State) (use : Nat) (c : Cap) (w : U128) : Cap :=
  if use = 0 then { bits := w, tag := false } else s.deriveWord c w

/-- The head block of a queue passes to its bound context, if the context has room (R403, R405, R414). A block whose context has
changed holder since the binding is dropped and counted. -/
def State.passBlock (s : State) (q : Nat) : State :=
  let h := s.hostq q
  match h.blocks, h.ctx with
  | (w0, w1, w2, w3) :: rest, some (ci, gen) =>
    if (s.ctx ci).gen ≠ gen then s.putHostq { h with blocks := rest, dropped := h.dropped + 1 }
    else if 32 ≤ (s.ctx ci).waiting.length then s
    else
      let use := wordUse (w3.extractLsb' 0 8).toNat
      let c0 := s.hostWord use.1 h.cap0 w0
      let c1 := s.hostWord use.2 h.cap1 w1
      let bad := (use.1 != 0 && !c0.tag) || (use.2 != 0 && !c1.tag)
      (s.putHostq { h with blocks := rest }).accept ci c0 c1 { bits := w2, tag := false } { bits := w3, tag := false } none (if bad then some 4 else none)
  | _, _ => s

/-- HOST_QUEUE_PASS. -/
def execHostQueuePass (q : Nat) (s : State) : Host.Outcome State Fault Refusal := .next (s.passBlock q)

end Sys2Proof.Machine
end

