-- ==== Sys2Proof/Machine/Assay.lean ====
section
/-! DEFINITION. The assay core's requests (R406): endpoint handles, attestations, key import, public keys. -/
namespace Sys2Proof.Machine

/-- The assay core's access to an owner's request block. -/
def State.assayAcc (s : State) (o : Owner) (write : Bool) : Acc :=
  let a := s.localAddr o.assayreq.addr.toNat
  { agent := .handler (s.dieAt a) s.devnum 0 0, owner := o.id, addr := a, size := 2048, write := write, read := !write, atomic := false
    fetch := false }

/-- What keeps the block from being read and written: rights, an absent page, data lost, integrity. -/
def State.assayBlocked (s : State) (o : Owner) : Bool :=
  let bad (e : Option AccErr) : Bool := match e with
    | some .rights => true
    | some (.absent _) => true
    | some (.dataLost _) => true
    | some (.integrity _) => true
    | some (.migrate _) => false
    | some (.protect _) => false
    | some (.conflict _ _) => false
    | some (.capacity _) => false
    | none => false
  bad (s.accErr (s.assayAcc o false)) || bad (s.accErr (s.assayAcc o true))

/-- A write that migration holds up (R91, R376). -/
def State.assayWaits (s : State) (o : Owner) : Bool :=
  match s.accErr (s.assayAcc o true) with
  | some (.migrate _) => true
  | _ => false

/-- The bytes of the block from `off` on. -/
def State.assayIn (s : State) (o : Owner) (off n : Nat) : List U8 :=
  (List.range n).map (fun i => s.byteAt (s.localAddr o.assayreq.addr.toNat + off + i))

/-- Bytes written into the block: data, so their granules lose their tags (R24). -/
def State.assayOut (s : State) (o : Owner) (off : Nat) (l : List U8) : State :=
  let a := s.localAddr o.assayreq.addr.toNat + off
  let x := { (s.assayAcc o true) with addr := a, size := l.length }
  s.performed x (fun t => ((l.zipIdx).foldl (fun t y => t.putByte (a + y.2) y.1) t).clearTags a l.length)

/-- The request is over: not busy, its operation and status (R397). -/
def State.assayEnd (s : State) (owner : U16) (op status : Nat) : State :=
  match s.owner owner with
  | none => s
  | some o =>
    s.putOwner { o with
      assaystat := (o.assaystat &&& 0x0000FFFF00000000#64) ||| BitVec.ofNat 64 (status % 65536 * 65536 + op % 256 * 256) }

/-- A protected page takes its fault before the block is written (R376). -/
def State.assayReady (s : State) (o : Owner) : State :=
  s.unprotected { (default : FabricReq) with owner := o.id } (s.assayAcc o true) 2

/-- An outstanding request with operation `op` is carried out by `run`: a state and a status. A block that cannot be reached, or whose
operation is none of 1 to 4, ends BAD_OPERAND with no result. -/
def State.assay (s : State) (owner : U16) (op : Nat) (run : State → Owner → State × Nat) : State :=
  match s.owner owner with
  | none => s
  | some o =>
    if !o.assaystat.getLsbD 0 then s
    else if (s.remoteOf o.assayreq.addr.toNat).isSome || s.assayBlocked o then
      -- the operation could not be read: a free value stands for it
      (s.drawn).assayEnd owner (Config.free (4 * s.free)).toNat 0x11
    else if s.assayWaits o then s
    else
      let k := ofBytesLE (s.assayIn o 0 2)
      if k = 0 || 4 < k then s.assayEnd owner k 0x11
      else if k ≠ op then s
      else
        let r := run (s.assayReady o) o
        r.1.assayEnd owner op r.2

/-- Op 1: an endpoint handle, tagged, with EN and FB, in bytes 48 to 63 (log 20). -/
def State.assayHandle (s : State) (o : Owner) : State × Nat :=
  let a := s.localAddr o.assayreq.addr.toNat
  let right := (s.rightsAt o.id a).any (fun e => e.c) && (s.rightsAt o.id (a + 2047)).any (fun e => e.c) && decide (a < hostBase)
  let ci := ofBytesLE (s.assayIn o 36 2)
  if !right then (s, 0x11)
  else if !resValid (mkRes 6 ci) || !s.uses o.id (mkRes 6 ci) then (s, 1)
  else if ctxKind ci ≠ 4 then (s, 0x11)
  else
    let e : Endpoint :=
      { id := s.nextId, owner := o.id, address := BitVec.ofNat 128 (ofBytesLE (s.assayIn o 16 16))
        context := BitVec.ofNat 32 (ofBytesLE (s.assayIn o 32 4)), ctx := ci }
    let t := { s with nextId := s.nextId + 1, endpoints := s.endpoints ++ [e] }
    let x := { (t.assayAcc o true) with addr := a + 48, size := 16 }
    (t.performed x (fun u => u.storeCap (a + 48) (Cap.make 0x060 1 0 (2 ^ 64) e.id) true), 0)

def execAssayEndpointHandle (owner : U16) (s : State) : Host.Outcome State Fault Refusal :=
  .next (s.assay owner 1 State.assayHandle)

/-- Op 2: an attestation over the nonce of bytes 16 to 79. -/
def State.assayAttest (s : State) (o : Owner) : State × Nat :=
  let l := s.assayIn o 16 64 ++ bytesLE 2 o.id.toNat ++ bytesLE 6 0 ++ bytesLE 64 Config.firmwareMeasurement.toNat ++ identityHash
  let t := { s with free := s.free + 1 }
  (t.assayOut o 256 (l ++ bytesLE 512 (Config.identitySignature s.free l).toNat), 0)

def execAssayAttestation (owner : U16) (s : State) : Host.Outcome State Fault Refusal :=
  .next (s.assay owner 2 State.assayAttest)

/-- Op 3: the wrapped key of bytes 512 to 1,023 into a key slot that the owner holds. -/
def State.assayImport (s : State) (o : Owner) : State × Nat :=
  let id : U64 := BitVec.ofNat 64 (ofBytesLE (s.assayIn o 16 8))
  if resKind id ≠ 8 || !resValid id then (s, 4)
  else if !s.holds o.id id then (s, 1)
  else
    match Config.importUnwrap (s.assayIn o 512 512) with
    | none => (s, 0x11)
    | some k => ({ s with keys := putBy (fun x : Nat × BitVec 256 => x.1) (resIndex id, k) s.keys }, 0)

def execAssayKeyImport (owner : U16) (s : State) : Host.Outcome State Fault Refusal :=
  .next (s.assay owner 3 State.assayImport)

/-- Op 4: the identity key's modulus and the import-key certificate. -/
def State.assayKeys (s : State) (o : Owner) : State × Nat :=
  let head := bytesLE 4 1 ++ bytesLE 4 65537 ++ bytesLE 8 0 ++ bytesLE 512 Config.importModulus.toNat
  let t := { s with free := s.free + 1 }
  (t.assayOut o 256 (bytesLE 512 Config.identityModulus.toNat ++ head
    ++ bytesLE 512 (Config.identitySignature s.free head).toNat), 0)

def execAssayPublicKeys (owner : U16) (s : State) : Host.Outcome State Fault Refusal :=
  .next (s.assay owner 4 State.assayKeys)

end Sys2Proof.Machine
end

