-- ==== Sys2Proof/WellFormed.lean ====
section
/-! DEFINITION. Which instructions a word may hold: the limits that the instruction chapters put on a word's fields beyond
their widths (R173). `Instr.wf` is false for a row without an encoding: no word holds it. -/
namespace Sys2Proof

/-- Number of elements of an integer element type (R169). -/
def etCount (e : BitVec 3) : Nat := 128 / 2 ^ (e.toNat % 4)

/-- Format codes VCVT accepts (R170). -/
def cvtCode (c : BitVec 5) : Bool := c.toNat < 16 && c.toNat != 5 && c.toNat != 7

/-- The field limits of R203, R207, R222, R223, R224, R226, R228, R230, R231, R233, R234, R250, R307, R311, R345. -/
def Instr.wf : Instr → Bool
  | .add _ _ _ => true
  | .sub _ _ _ => true
  | .and _ _ _ => true
  | .or _ _ _ => true
  | .xor _ _ _ => true
  | .andn _ _ _ => true
  | .sll _ _ _ => true
  | .srl _ _ _ => true
  | .sra _ _ _ => true
  | .slt _ _ _ => true
  | .sltu _ _ _ => true
  | .min _ _ _ => true
  | .max _ _ _ => true
  | .minu _ _ _ => true
  | .maxu _ _ _ => true
  | .mul _ _ _ => true
  | .mulh _ _ _ => true
  | .mulhu _ _ _ => true
  | .div _ _ _ => true
  | .divu _ _ _ => true
  | .rem _ _ _ => true
  | .remu _ _ _ => true
  | .clz _ _ => true
  | .ctz _ _ => true
  | .popc _ _ => true
  | .gpair _ _ _ => true
  | .ghi _ _ => true
  | .addw _ _ _ => true
  | .subw _ _ _ => true
  | .sllw _ _ _ => true
  | .srlw _ _ _ => true
  | .sraw _ _ _ => true
  | .mulw _ _ _ => true
  | .divw _ _ _ => true
  | .divuw _ _ _ => true
  | .remw _ _ _ => true
  | .remuw _ _ _ => true
  | .addi _ _ _ => true
  | .andi _ _ _ => true
  | .ori _ _ _ => true
  | .xori _ _ _ => true
  | .slti _ _ _ => true
  | .sltiu _ _ _ => true
  | .addiw _ _ _ => true
  | .slli _ _ _ => true
  | .srli _ _ _ => true
  | .srai _ _ _ => true
  | .slliw _ _ _ => true
  | .srliw _ _ _ => true
  | .sraiw _ _ _ => true
  | .lui _ _ => true
  | .capc _ _ => true
  | .jal _ _ => true
  | .jalr _ _ _ => true
  | .beq _ _ _ => true
  | .bne _ _ _ => true
  | .blt _ _ _ => true
  | .bge _ _ _ => true
  | .bltu _ _ _ => true
  | .bgeu _ _ _ => true
  | .btag _ _ => true
  | .bntag _ _ => true
  | .lb _ _ _ => true
  | .lh _ _ _ => true
  | .lw _ _ _ => true
  | .ld _ _ _ => true
  | .lbn _ _ _ => true
  | .lhn _ _ _ => true
  | .lwn _ _ _ => true
  | .lc _ _ _ => true
  | .sb _ _ _ => true
  | .sh _ _ _ => true
  | .sw _ _ _ => true
  | .sd _ _ _ => true
  | .sc _ _ _ => true
  | .cgetaddr _ _ => true
  | .cgetbase _ _ => true
  | .cgetlen _ _ => true
  | .cgetperm _ _ => true
  | .cgettype _ _ => true
  | .cgettag _ _ => true
  | .csetaddr _ _ _ => true
  | .cinc _ _ _ => true
  | .csetb _ _ _ => true
  | .csetbx _ _ _ => true
  | .candp _ _ _ => true
  | .cseal _ _ _ => true
  | .cunseal _ _ _ => true
  | .ctestsub _ _ _ => true
  | .cclrtag _ _ => true
  | .cmove _ _ => true
  | .creplen _ _ => true
  | .cinci _ _ _ => true
  | .csetbi _ _ _ => true
  | .amoadd _ _ _ _ _ _ => true
  | .amoand _ _ _ _ _ _ => true
  | .amoor _ _ _ _ _ _ => true
  | .amoxor _ _ _ _ _ _ => true
  | .amomin _ _ _ _ _ _ => true
  | .amomax _ _ _ _ _ _ => true
  | .amominu _ _ _ _ _ _ => true
  | .amomaxu _ _ _ _ _ _ => true
  | .amofadd _ _ _ _ _ => true
  | .barb _ => true
  | .bara _ => true
  | .barw _ => true
  | .vadd _ _ _ _ _ => true
  | .vsub _ _ _ _ _ => true
  | .vmul _ _ _ _ _ => true
  | .vmulh _ _ _ _ _ => true
  | .vmin _ _ _ _ _ => true
  | .vmax _ _ _ _ _ => true
  | .vand _ _ _ _ _ => true
  | .vor _ _ _ _ _ => true
  | .vxor _ _ _ _ _ => true
  | .vsll _ _ _ _ _ => true
  | .vsrl _ _ _ _ _ => true
  | .vsra _ _ _ _ _ => true
  | .vaddsat _ _ _ _ _ => true
  | .vsubsat _ _ _ _ _ => true
  | .vdot4 _ _ _ _ _ => true
  | .vsel _ _ _ _ _ => true
  | .vmov _ _ _ _ => true
  | .vidx _ _ _ => true
  | .vbcast _ _ _ _ => true
  | .vfmas _ _ _ _ => true
  | .vins _ _ _ => true
  | .vld _ _ _ _ _ => true
  | .vlds _ _ _ _ _ => true
  | .vldb _ _ _ _ _ => true
  | .vst _ _ _ _ _ => true
  | .vsts _ _ _ _ _ => true
  | .vperm _ _ _ _ _ => true
  | .vslideup _ _ _ _ _ => true
  | .vslidedn _ _ _ _ _ => true
  | .vredadd _ _ _ _ _ => true
  | .vredmin _ _ _ _ _ => true
  | .vredmax _ _ _ _ _ => true
  | .vcompress _ _ _ _ => true
  | .vcmpeq _ _ _ _ _ => true
  | .vcmplt _ _ _ _ _ => true
  | .vcmple _ _ _ _ _ => true
  | .pand _ _ _ => true
  | .por _ _ _ => true
  | .pxor _ _ _ => true
  | .pnot _ _ => true
  | .psetn _ _ => true
  | .pcnt _ _ => true
  | .pfirst _ _ => true
  | .vpack _ _ _ => true
  | .vunpk _ _ _ => true
  | .tld _ _ _ => true
  | .tst _ _ _ => true
  | .tzero _ => true
  | .tzp _ _ => true
  | .tgetzp _ _ _ => true
  | .lease _ _ => true
  | .lrel => true
  | .mclr => true
  | .mwin _ => true
  | .mdrain _ => true
  | .lstat _ _ => true
  | .movq _ _ => true
  | .qpop _ _ => true
  | .qstat _ _ => true
  | .bindq _ _ => true
  | .tlwait _ _ => true
  | .tltest _ _ _ => true
  | .tlread _ _ => true
  | .evtry _ => true
  | .send _ _ _ => true
  | .sendt _ _ _ _ => true
  | .spawn _ _ _ => true
  | .dlg _ _ _ => true
  | .dlga _ _ _ => true
  | .dlgret => true
  | .chain => true
  | .replay => true
  | .tend => true
  | .tyield _ _ => true
  | .upret => true
  | .tself _ => true
  | .give _ _ _ => true
  | .accept _ _ _ => true
  | .decline _ _ => true
  | .lend _ _ _ => true
  | .returnLoan _ _ => true
  | .reclaim _ _ => true
  | .hquery _ _ _ => true
  | .ownnew _ _ => true
  | .ownend _ => true
  | .renew _ => true
  | .claim _ _ => true
  | .setheir _ _ => true
  | .map _ _ _ => true
  | .unmap _ _ _ => true
  | .setclass _ _ _ => true
  | .revoke _ _ _ => true
  | .scrub _ _ _ => true
  | .share _ _ _ => true
  | .swref _ _ _ => true
  | .swrel _ _ _ => true
  | .swwalk _ _ _ => true
  | .rdc _ _ => true
  | .wrc _ _ => true
  | .trap _ => true
  | .tret _ => true
  | .brk => true
  | .nop => true
  | .fence f _ => f.extractLsb' 2 2 != 0 && f.extractLsb' 0 2 != 0
  | .amoswap _ _ _ z _ _ => z != 3
  | .cas _ _ _ z _ _ => z != 3
  | .lda _ _ z _ _ => z != 3
  | .stl _ _ z _ _ => z != 3
  | .vmulw _ _ _ _ e => e.toNat % 4 != 3
  | .vnarrow _ _ _ _ e => e.toNat % 4 != 3
  | .vfadd _ _ _ _ e => e != 3
  | .vfsub _ _ _ _ e => e != 3
  | .vfmul _ _ _ _ e => e != 3
  | .vfma _ _ _ _ e => e != 3
  | .vfms _ _ _ _ e => e != 3
  | .vfnma _ _ _ _ e => e != 3
  | .vfdiv _ _ _ _ e => e != 3
  | .vfsqrt _ _ _ e => e != 3
  | .vfmin _ _ _ _ e => e != 3
  | .vfmax _ _ _ _ e => e != 3
  | .vfabs _ _ _ e => e != 3
  | .vfneg _ _ _ e => e != 3
  | .vfexp2 _ _ _ e => e != 3
  | .vfdot2 _ _ _ _ e => e == 1 || e == 2
  | .vscacc _ a _ _ _ => a != 31
  | .vldx d _ _ _ _ => d != 31
  | .vstx d _ _ _ _ => d != 31
  | .vfredadd _ _ _ _ e => e != 3
  | .vfredmax _ _ _ _ e => e != 3
  | .vextg _ _ k e => k.toNat < etCount e
  | .vfcmpeq _ _ _ _ e => e != 3
  | .vfcmplt _ _ _ _ e => e != 3
  | .vfcmple _ _ _ _ e => e != 3
  | .vfcmpun _ _ _ _ e => e != 3
  | .vcvt _ _ x y r t => cvtCode x && cvtCode y && x != y && r.toNat < 5 && !(t == 1 && (y == 2 || y == 3 || y == 8))
  | .vquant _ a _ r _ => r != 3 && a.toNat + 2 ^ r.toNat < 33
  | .vdeq d _ _ r _ => r != 3 && d.toNat + 2 ^ r.toNat < 33
  | .mma _ _ p => p != 15
  | .mmaz _ _ p => p != 15 && 5 < p.toNat
  | .push _ a _ => a != 0 && a.toNat < 29
  | .evpop d => d != 0 && d != 31
  | .evwait d _ => d != 0 && d != 31
  | .swname _ _ _ k => k == 1 || k == 2
  | .swhash _ _ _ k => k == 1 || k == 2
  | .swread _ _ _ v => v != 31
  | .arrayMatrixCommand _ _ => false
  | .loomGrant _ _ => false
  | .loomIdleExpiry _ _ => false
  | .selvageHandlerStart _ _ => false
  | .watchWrite _ _ => false
  | .emulentWrite _ => false
  | .hqctxWrite _ => false
  | .hqcapWrite _ _ => false
  | .assayEndpointHandle _ => false
  | .assayAttestation _ => false
  | .assayKeyImport _ => false
  | .assayPublicKeys _ => false
  | .copy _ => false
  | .copy2d _ => false
  | .fill _ => false
  | .resume _ => false
  | .framecopy _ => false
  | .framecopyPass1 _ => false
  | .framecopyPass2 _ => false
  | .framecopyPass3 _ => false
  | .gather _ => false
  | .allreduce _ _ _ _ => false
  | .redscat _ _ _ _ => false
  | .allgather _ _ _ _ => false
  | .mcast _ _ => false
  | .launch _ => false
  | .launchPlacement _ _ => false
  | .swout _ => false
  | .releaseCommand _ => false
  | .releaseCommandPlacement _ => false
  | .sweep _ => false
  | .nsend _ => false
  | .nrecv _ => false
  | .nwrite _ => false
  | .nread _ => false
  | .packetArrival _ => false
  | .selectiveAckArrival _ _ _ _ _ => false
  | .retransmissionTimeout _ _ _ _ => false
  | .eventRecordPost _ => false
  | .hostPush _ _ _ _ _ _ _ => false
  | .hostQueuePass _ => false
  | .messageArrival _ _ => false
  | .inboxTaskStart _ => false
  | .stewardRequestStart _ => false
  | .dlgReplyArrival _ _ => false
  | .dlgResend _ _ => false
  | .issueCycle _ _ => false
  | .issueGuardExpiry _ _ => false
  | .rotaTurnStart _ => false
  | .sliceEnd _ => false
  | .sliceLimitExpiry _ => false
  | .sliceBudgetEnd _ => false
  | .trapDelivery _ _ => false
  | .imageRestore _ _ => false
  | .writeProtectRetry _ _ => false
  | .uncorrectableError _ _ _ => false
  | .macFailure _ => false
  | .offerDeadline _ => false
  | .termEnd _ => false
  | .ownerLapse _ => false
  | .recoveryBudgetEnd _ => false
  | .recoveryComplete _ => false
  | .registerScanDeadline _ => false
  | .classRebalance _ => false
  | .replyHandler _ => false
  | .loadHandler _ => false
  | .storeHandler _ => false
  | .atomicHandler _ => false
  | .swatchCountHandler _ => false
  | .spawnHandler _ _ _ => false
  | .bulkStoreHandler _ => false
  | .launchHandler _ _ _ _ _ _ => false
  | .unimplementedHandler _ _ _ => false
  | .linkTraining _ _ _ => false
  | .linkNarrowing _ => false
  | .linkDown _ => false
  | .ocsDrainRequest _ => false
  | .drainMarkerReturn _ => false
  | .routeHoldTimeout _ => false
  | .start _ => false
  | .devnumWrite _ => false
  | .reset _ _ => false
  | .clockStep _ => false
  | .spanCapacityStallLimit _ _ => false
  | .tyieldCycleLimit _ _ => false
  | .evwaitCycleLimit _ _ => false
  | .ideStreamKeying _ => false
  | .benchQuarantine _ => false

end Sys2Proof
end

