-- ==== Sys2Proof/Decode.lean ====
section
/-! DEFINITION. The decoder (R154, R162, R171 to R173) and, after it, the encoder, both written from the formats of R162 and
the opcode map of R171 and R172. -/
namespace Sys2Proof

/-- Why a word is no instruction (R154, R173). -/
inductive DecodeError where
  /-- the word 0x0000_0000 or 0xFFFF_FFFF -/
  | never
  /-- a major opcode that R171 does not assign -/
  | major
  /-- a value of fn, cond, w, op or mode that the group does not assign -/
  | selector
  /-- a nonzero field named zero, or a field bit that the member fixes -/
  | zeroField
  /-- a value that the member's chapter declares illegal -/
  | value
deriving DecidableEq, Repr

/-- Bits [lo + n - 1 : lo] of the word must be `v`. -/
def fixedAt (w : U32) (lo n v : Nat) (k : Except DecodeError Instr) : Except DecodeError Instr :=
  if (w.extractLsb' lo n).toNat = v then k else .error .zeroField

/-- Major opcode 0x01 (R182). -/
def decodeOp (w : U32) : Except DecodeError Instr :=
  match (w.extractLsb' 0 10).toNat with
  | 0x00 => pure (.add (w.extractLsb' 20 5) (w.extractLsb' 15 5) (w.extractLsb' 10 5))
  | 0x01 => pure (.sub (w.extractLsb' 20 5) (w.extractLsb' 15 5) (w.extractLsb' 10 5))
  | 0x02 => pure (.and (w.extractLsb' 20 5) (w.extractLsb' 15 5) (w.extractLsb' 10 5))
  | 0x03 => pure (.or (w.extractLsb' 20 5) (w.extractLsb' 15 5) (w.extractLsb' 10 5))
  | 0x04 => pure (.xor (w.extractLsb' 20 5) (w.extractLsb' 15 5) (w.extractLsb' 10 5))
  | 0x05 => pure (.andn (w.extractLsb' 20 5) (w.extractLsb' 15 5) (w.extractLsb' 10 5))
  | 0x06 => pure (.sll (w.extractLsb' 20 5) (w.extractLsb' 15 5) (w.extractLsb' 10 5))
  | 0x07 => pure (.srl (w.extractLsb' 20 5) (w.extractLsb' 15 5) (w.extractLsb' 10 5))
  | 0x08 => pure (.sra (w.extractLsb' 20 5) (w.extractLsb' 15 5) (w.extractLsb' 10 5))
  | 0x0B => pure (.slt (w.extractLsb' 20 5) (w.extractLsb' 15 5) (w.extractLsb' 10 5))
  | 0x0C => pure (.sltu (w.extractLsb' 20 5) (w.extractLsb' 15 5) (w.extractLsb' 10 5))
  | 0x0D => pure (.min (w.extractLsb' 20 5) (w.extractLsb' 15 5) (w.extractLsb' 10 5))
  | 0x0E => pure (.max (w.extractLsb' 20 5) (w.extractLsb' 15 5) (w.extractLsb' 10 5))
  | 0x0F => pure (.minu (w.extractLsb' 20 5) (w.extractLsb' 15 5) (w.extractLsb' 10 5))
  | 0x10 => pure (.maxu (w.extractLsb' 20 5) (w.extractLsb' 15 5) (w.extractLsb' 10 5))
  | 0x11 => pure (.mul (w.extractLsb' 20 5) (w.extractLsb' 15 5) (w.extractLsb' 10 5))
  | 0x12 => pure (.mulh (w.extractLsb' 20 5) (w.extractLsb' 15 5) (w.extractLsb' 10 5))
  | 0x13 => pure (.mulhu (w.extractLsb' 20 5) (w.extractLsb' 15 5) (w.extractLsb' 10 5))
  | 0x15 => pure (.div (w.extractLsb' 20 5) (w.extractLsb' 15 5) (w.extractLsb' 10 5))
  | 0x16 => pure (.divu (w.extractLsb' 20 5) (w.extractLsb' 15 5) (w.extractLsb' 10 5))
  | 0x17 => pure (.rem (w.extractLsb' 20 5) (w.extractLsb' 15 5) (w.extractLsb' 10 5))
  | 0x18 => pure (.remu (w.extractLsb' 20 5) (w.extractLsb' 15 5) (w.extractLsb' 10 5))
  | 0x19 => fixedAt w 10 5 0 (pure (.clz (w.extractLsb' 20 5) (w.extractLsb' 15 5)))
  | 0x1A => fixedAt w 10 5 0 (pure (.ctz (w.extractLsb' 20 5) (w.extractLsb' 15 5)))
  | 0x1B => fixedAt w 10 5 0 (pure (.popc (w.extractLsb' 20 5) (w.extractLsb' 15 5)))
  | 0x1C => pure (.gpair (w.extractLsb' 20 5) (w.extractLsb' 15 5) (w.extractLsb' 10 5))
  | 0x1D => fixedAt w 10 5 0 (pure (.ghi (w.extractLsb' 20 5) (w.extractLsb' 15 5)))
  | _ => .error .selector

/-- Major opcode 0x02 (R184). -/
def decodeOpW (w : U32) : Except DecodeError Instr :=
  match (w.extractLsb' 0 10).toNat with
  | 0x00 => pure (.addw (w.extractLsb' 20 5) (w.extractLsb' 15 5) (w.extractLsb' 10 5))
  | 0x01 => pure (.subw (w.extractLsb' 20 5) (w.extractLsb' 15 5) (w.extractLsb' 10 5))
  | 0x06 => pure (.sllw (w.extractLsb' 20 5) (w.extractLsb' 15 5) (w.extractLsb' 10 5))
  | 0x07 => pure (.srlw (w.extractLsb' 20 5) (w.extractLsb' 15 5) (w.extractLsb' 10 5))
  | 0x08 => pure (.sraw (w.extractLsb' 20 5) (w.extractLsb' 15 5) (w.extractLsb' 10 5))
  | 0x11 => pure (.mulw (w.extractLsb' 20 5) (w.extractLsb' 15 5) (w.extractLsb' 10 5))
  | 0x15 => pure (.divw (w.extractLsb' 20 5) (w.extractLsb' 15 5) (w.extractLsb' 10 5))
  | 0x16 => pure (.divuw (w.extractLsb' 20 5) (w.extractLsb' 15 5) (w.extractLsb' 10 5))
  | 0x17 => pure (.remw (w.extractLsb' 20 5) (w.extractLsb' 15 5) (w.extractLsb' 10 5))
  | 0x18 => pure (.remuw (w.extractLsb' 20 5) (w.extractLsb' 15 5) (w.extractLsb' 10 5))
  | _ => .error .selector

/-- Major opcode 0x07 (R186). -/
def decodeShi (w : U32) : Except DecodeError Instr :=
  match (w.extractLsb' 12 3).toNat with
  | 0x00 => fixedAt w 6 6 0 (pure (.slli (w.extractLsb' 20 5) (w.extractLsb' 15 5) (w.extractLsb' 0 6)))
  | 0x01 => fixedAt w 6 6 0 (pure (.srli (w.extractLsb' 20 5) (w.extractLsb' 15 5) (w.extractLsb' 0 6)))
  | 0x02 => fixedAt w 6 6 0 (pure (.srai (w.extractLsb' 20 5) (w.extractLsb' 15 5) (w.extractLsb' 0 6)))
  | 0x03 => fixedAt w 5 7 0 (pure (.slliw (w.extractLsb' 20 5) (w.extractLsb' 15 5) (w.extractLsb' 0 5)))
  | 0x04 => fixedAt w 5 7 0 (pure (.srliw (w.extractLsb' 20 5) (w.extractLsb' 15 5) (w.extractLsb' 0 5)))
  | 0x05 => fixedAt w 5 7 0 (pure (.sraiw (w.extractLsb' 20 5) (w.extractLsb' 15 5) (w.extractLsb' 0 5)))
  | _ => .error .selector

/-- Major opcode 0x0E (R192). -/
def decodeBr (w : U32) : Except DecodeError Instr :=
  match (w.extractLsb' 12 3).toNat with
  | 0x00 => pure (.beq (w.extractLsb' 20 5) (w.extractLsb' 15 5) (w.extractLsb' 0 12))
  | 0x01 => pure (.bne (w.extractLsb' 20 5) (w.extractLsb' 15 5) (w.extractLsb' 0 12))
  | 0x02 => pure (.blt (w.extractLsb' 20 5) (w.extractLsb' 15 5) (w.extractLsb' 0 12))
  | 0x03 => pure (.bge (w.extractLsb' 20 5) (w.extractLsb' 15 5) (w.extractLsb' 0 12))
  | 0x04 => pure (.bltu (w.extractLsb' 20 5) (w.extractLsb' 15 5) (w.extractLsb' 0 12))
  | 0x05 => pure (.bgeu (w.extractLsb' 20 5) (w.extractLsb' 15 5) (w.extractLsb' 0 12))
  | 0x06 => fixedAt w 15 5 0 (pure (.btag (w.extractLsb' 20 5) (w.extractLsb' 0 12)))
  | 0x07 => fixedAt w 15 5 0 (pure (.bntag (w.extractLsb' 20 5) (w.extractLsb' 0 12)))
  | _ => .error .selector

/-- Major opcode 0x10 (R196). -/
def decodeLoad (w : U32) : Except DecodeError Instr :=
  match (w.extractLsb' 12 3).toNat with
  | 0x00 => pure (.lb (w.extractLsb' 20 5) (w.extractLsb' 15 5) (w.extractLsb' 0 12))
  | 0x01 => pure (.lh (w.extractLsb' 20 5) (w.extractLsb' 15 5) (w.extractLsb' 0 12))
  | 0x02 => pure (.lw (w.extractLsb' 20 5) (w.extractLsb' 15 5) (w.extractLsb' 0 12))
  | 0x03 => pure (.ld (w.extractLsb' 20 5) (w.extractLsb' 15 5) (w.extractLsb' 0 12))
  | 0x04 => pure (.lbn (w.extractLsb' 20 5) (w.extractLsb' 15 5) (w.extractLsb' 0 12))
  | 0x05 => pure (.lhn (w.extractLsb' 20 5) (w.extractLsb' 15 5) (w.extractLsb' 0 12))
  | 0x06 => pure (.lwn (w.extractLsb' 20 5) (w.extractLsb' 15 5) (w.extractLsb' 0 12))
  | 0x07 => pure (.lc (w.extractLsb' 20 5) (w.extractLsb' 15 5) (w.extractLsb' 0 12))
  | _ => .error .selector

/-- Major opcode 0x11 (R196). -/
def decodeStore (w : U32) : Except DecodeError Instr :=
  match (w.extractLsb' 12 3).toNat with
  | 0x00 => pure (.sb (w.extractLsb' 20 5) (w.extractLsb' 15 5) (w.extractLsb' 0 12))
  | 0x01 => pure (.sh (w.extractLsb' 20 5) (w.extractLsb' 15 5) (w.extractLsb' 0 12))
  | 0x02 => pure (.sw (w.extractLsb' 20 5) (w.extractLsb' 15 5) (w.extractLsb' 0 12))
  | 0x03 => pure (.sd (w.extractLsb' 20 5) (w.extractLsb' 15 5) (w.extractLsb' 0 12))
  | 0x07 => pure (.sc (w.extractLsb' 20 5) (w.extractLsb' 15 5) (w.extractLsb' 0 12))
  | _ => .error .selector

/-- Major opcode 0x12 (R199). -/
def decodeCap (w : U32) : Except DecodeError Instr :=
  match (w.extractLsb' 0 10).toNat with
  | 0x00 => fixedAt w 10 5 0 (pure (.cgetaddr (w.extractLsb' 20 5) (w.extractLsb' 15 5)))
  | 0x01 => fixedAt w 10 5 0 (pure (.cgetbase (w.extractLsb' 20 5) (w.extractLsb' 15 5)))
  | 0x02 => fixedAt w 10 5 0 (pure (.cgetlen (w.extractLsb' 20 5) (w.extractLsb' 15 5)))
  | 0x03 => fixedAt w 10 5 0 (pure (.cgetperm (w.extractLsb' 20 5) (w.extractLsb' 15 5)))
  | 0x04 => fixedAt w 10 5 0 (pure (.cgettype (w.extractLsb' 20 5) (w.extractLsb' 15 5)))
  | 0x05 => fixedAt w 10 5 0 (pure (.cgettag (w.extractLsb' 20 5) (w.extractLsb' 15 5)))
  | 0x06 => pure (.csetaddr (w.extractLsb' 20 5) (w.extractLsb' 15 5) (w.extractLsb' 10 5))
  | 0x07 => pure (.cinc (w.extractLsb' 20 5) (w.extractLsb' 15 5) (w.extractLsb' 10 5))
  | 0x08 => pure (.csetb (w.extractLsb' 20 5) (w.extractLsb' 15 5) (w.extractLsb' 10 5))
  | 0x09 => pure (.csetbx (w.extractLsb' 20 5) (w.extractLsb' 15 5) (w.extractLsb' 10 5))
  | 0x0A => pure (.candp (w.extractLsb' 20 5) (w.extractLsb' 15 5) (w.extractLsb' 10 5))
  | 0x0B => pure (.cseal (w.extractLsb' 20 5) (w.extractLsb' 15 5) (w.extractLsb' 10 5))
  | 0x0C => pure (.cunseal (w.extractLsb' 20 5) (w.extractLsb' 15 5) (w.extractLsb' 10 5))
  | 0x0D => pure (.ctestsub (w.extractLsb' 20 5) (w.extractLsb' 15 5) (w.extractLsb' 10 5))
  | 0x0E => fixedAt w 10 5 0 (pure (.cclrtag (w.extractLsb' 20 5) (w.extractLsb' 15 5)))
  | 0x0F => fixedAt w 10 5 0 (pure (.cmove (w.extractLsb' 20 5) (w.extractLsb' 15 5)))
  | 0x10 => fixedAt w 10 5 0 (pure (.creplen (w.extractLsb' 20 5) (w.extractLsb' 15 5)))
  | _ => .error .selector

/-- Major opcode 0x13 (R202). -/
def decodeCapi (w : U32) : Except DecodeError Instr :=
  match (w.extractLsb' 14 1).toNat with
  | 0x00 => pure (.cinci (w.extractLsb' 20 5) (w.extractLsb' 15 5) (w.extractLsb' 0 14))
  | 0x01 => pure (.csetbi (w.extractLsb' 20 5) (w.extractLsb' 15 5) (w.extractLsb' 0 14))
  | _ => .error .selector

/-- Major opcode 0x14 (R203). -/
def decodeAtom (w : U32) : Except DecodeError Instr :=
  match (w.extractLsb' 6 4).toNat with
  | 0x00 => fixedAt w 5 1 0 (pure (.amoadd (w.extractLsb' 20 5) (w.extractLsb' 15 5) (w.extractLsb' 10 5) (w.extractLsb' 4 1) (w.extractLsb' 2 2) (w.extractLsb' 0 2)))
  | 0x01 => fixedAt w 5 1 0 (pure (.amoand (w.extractLsb' 20 5) (w.extractLsb' 15 5) (w.extractLsb' 10 5) (w.extractLsb' 4 1) (w.extractLsb' 2 2) (w.extractLsb' 0 2)))
  | 0x02 => fixedAt w 5 1 0 (pure (.amoor (w.extractLsb' 20 5) (w.extractLsb' 15 5) (w.extractLsb' 10 5) (w.extractLsb' 4 1) (w.extractLsb' 2 2) (w.extractLsb' 0 2)))
  | 0x03 => fixedAt w 5 1 0 (pure (.amoxor (w.extractLsb' 20 5) (w.extractLsb' 15 5) (w.extractLsb' 10 5) (w.extractLsb' 4 1) (w.extractLsb' 2 2) (w.extractLsb' 0 2)))
  | 0x04 => fixedAt w 5 1 0 (pure (.amomin (w.extractLsb' 20 5) (w.extractLsb' 15 5) (w.extractLsb' 10 5) (w.extractLsb' 4 1) (w.extractLsb' 2 2) (w.extractLsb' 0 2)))
  | 0x05 => fixedAt w 5 1 0 (pure (.amomax (w.extractLsb' 20 5) (w.extractLsb' 15 5) (w.extractLsb' 10 5) (w.extractLsb' 4 1) (w.extractLsb' 2 2) (w.extractLsb' 0 2)))
  | 0x06 => fixedAt w 5 1 0 (pure (.amominu (w.extractLsb' 20 5) (w.extractLsb' 15 5) (w.extractLsb' 10 5) (w.extractLsb' 4 1) (w.extractLsb' 2 2) (w.extractLsb' 0 2)))
  | 0x07 => fixedAt w 5 1 0 (pure (.amomaxu (w.extractLsb' 20 5) (w.extractLsb' 15 5) (w.extractLsb' 10 5) (w.extractLsb' 4 1) (w.extractLsb' 2 2) (w.extractLsb' 0 2)))
  | 0x08 => pure (.amoswap (w.extractLsb' 20 5) (w.extractLsb' 15 5) (w.extractLsb' 10 5) (w.extractLsb' 4 2) (w.extractLsb' 2 2) (w.extractLsb' 0 2))
  | 0x09 => pure (.cas (w.extractLsb' 20 5) (w.extractLsb' 15 5) (w.extractLsb' 10 5) (w.extractLsb' 4 2) (w.extractLsb' 2 2) (w.extractLsb' 0 2))
  | 0x0A => fixedAt w 4 2 0 (pure (.amofadd (w.extractLsb' 20 5) (w.extractLsb' 15 5) (w.extractLsb' 10 5) (w.extractLsb' 2 2) (w.extractLsb' 0 2)))
  | 0x0B => fixedAt w 10 5 0 (fixedAt w 3 1 0 (pure (.lda (w.extractLsb' 20 5) (w.extractLsb' 15 5) (w.extractLsb' 4 2) (w.extractLsb' 2 1) (w.extractLsb' 0 2))))
  | 0x0C => fixedAt w 10 5 0 (fixedAt w 2 1 0 (pure (.stl (w.extractLsb' 20 5) (w.extractLsb' 15 5) (w.extractLsb' 4 2) (w.extractLsb' 3 1) (w.extractLsb' 0 2))))
  | _ => .error .selector

/-- Major opcode 0x16 (R207). -/
def decodeSync (w : U32) : Except DecodeError Instr :=
  match (w.extractLsb' 0 4).toNat with
  | 0x00 => fixedAt w 10 15 0 (pure (.fence (w.extractLsb' 6 4) (w.extractLsb' 4 2)))
  | 0x01 => fixedAt w 10 15 0 (fixedAt w 4 4 0 (pure (.barb (w.extractLsb' 8 2))))
  | 0x02 => fixedAt w 10 15 0 (fixedAt w 4 4 0 (pure (.bara (w.extractLsb' 8 2))))
  | 0x03 => fixedAt w 10 15 0 (fixedAt w 4 4 0 (pure (.barw (w.extractLsb' 8 2))))
  | _ => .error .selector

/-- Major opcode 0x18 (R221). -/
def decodeVia (w : U32) : Except DecodeError Instr :=
  match (w.extractLsb' 0 4).toNat with
  | 0x00 => pure (.vadd (w.extractLsb' 20 5) (w.extractLsb' 15 5) (w.extractLsb' 10 5) (w.extractLsb' 7 3) (w.extractLsb' 4 3))
  | 0x01 => pure (.vsub (w.extractLsb' 20 5) (w.extractLsb' 15 5) (w.extractLsb' 10 5) (w.extractLsb' 7 3) (w.extractLsb' 4 3))
  | 0x02 => pure (.vmul (w.extractLsb' 20 5) (w.extractLsb' 15 5) (w.extractLsb' 10 5) (w.extractLsb' 7 3) (w.extractLsb' 4 3))
  | 0x03 => pure (.vmulh (w.extractLsb' 20 5) (w.extractLsb' 15 5) (w.extractLsb' 10 5) (w.extractLsb' 7 3) (w.extractLsb' 4 3))
  | 0x04 => pure (.vmin (w.extractLsb' 20 5) (w.extractLsb' 15 5) (w.extractLsb' 10 5) (w.extractLsb' 7 3) (w.extractLsb' 4 3))
  | 0x05 => pure (.vmax (w.extractLsb' 20 5) (w.extractLsb' 15 5) (w.extractLsb' 10 5) (w.extractLsb' 7 3) (w.extractLsb' 4 3))
  | 0x06 => pure (.vand (w.extractLsb' 20 5) (w.extractLsb' 15 5) (w.extractLsb' 10 5) (w.extractLsb' 7 3) (w.extractLsb' 4 3))
  | 0x07 => pure (.vor (w.extractLsb' 20 5) (w.extractLsb' 15 5) (w.extractLsb' 10 5) (w.extractLsb' 7 3) (w.extractLsb' 4 3))
  | 0x08 => pure (.vxor (w.extractLsb' 20 5) (w.extractLsb' 15 5) (w.extractLsb' 10 5) (w.extractLsb' 7 3) (w.extractLsb' 4 3))
  | 0x09 => pure (.vsll (w.extractLsb' 20 5) (w.extractLsb' 15 5) (w.extractLsb' 10 5) (w.extractLsb' 7 3) (w.extractLsb' 4 3))
  | 0x0A => pure (.vsrl (w.extractLsb' 20 5) (w.extractLsb' 15 5) (w.extractLsb' 10 5) (w.extractLsb' 7 3) (w.extractLsb' 4 3))
  | 0x0B => pure (.vsra (w.extractLsb' 20 5) (w.extractLsb' 15 5) (w.extractLsb' 10 5) (w.extractLsb' 7 3) (w.extractLsb' 4 3))
  | 0x0C => pure (.vaddsat (w.extractLsb' 20 5) (w.extractLsb' 15 5) (w.extractLsb' 10 5) (w.extractLsb' 7 3) (w.extractLsb' 4 3))
  | 0x0D => pure (.vsubsat (w.extractLsb' 20 5) (w.extractLsb' 15 5) (w.extractLsb' 10 5) (w.extractLsb' 7 3) (w.extractLsb' 4 3))
  | _ => .error .selector

/-- Major opcode 0x19 (R222). -/
def decodeVib (w : U32) : Except DecodeError Instr :=
  match (w.extractLsb' 0 4).toNat with
  | 0x00 => fixedAt w 4 2 0 (pure (.vdot4 (w.extractLsb' 20 5) (w.extractLsb' 15 5) (w.extractLsb' 10 5) (w.extractLsb' 7 3) (w.extractLsb' 6 1)))
  | 0x01 => pure (.vmulw (w.extractLsb' 20 5) (w.extractLsb' 15 5) (w.extractLsb' 10 5) (w.extractLsb' 7 3) (w.extractLsb' 4 3))
  | 0x02 => pure (.vnarrow (w.extractLsb' 20 5) (w.extractLsb' 15 5) (w.extractLsb' 10 5) (w.extractLsb' 7 3) (w.extractLsb' 4 3))
  | 0x03 => pure (.vsel (w.extractLsb' 20 5) (w.extractLsb' 15 5) (w.extractLsb' 10 5) (w.extractLsb' 7 3) (w.extractLsb' 4 3))
  | 0x04 => fixedAt w 10 5 0 (pure (.vmov (w.extractLsb' 20 5) (w.extractLsb' 15 5) (w.extractLsb' 7 3) (w.extractLsb' 4 3)))
  | 0x05 => fixedAt w 10 10 0 (pure (.vidx (w.extractLsb' 20 5) (w.extractLsb' 7 3) (w.extractLsb' 4 3)))
  | _ => .error .selector

/-- Major opcode 0x1A (R223). -/
def decodeVf (w : U32) : Except DecodeError Instr :=
  match (w.extractLsb' 0 4).toNat with
  | 0x00 => fixedAt w 6 1 0 (pure (.vfadd (w.extractLsb' 20 5) (w.extractLsb' 15 5) (w.extractLsb' 10 5) (w.extractLsb' 7 3) (w.extractLsb' 4 2)))
  | 0x01 => fixedAt w 6 1 0 (pure (.vfsub (w.extractLsb' 20 5) (w.extractLsb' 15 5) (w.extractLsb' 10 5) (w.extractLsb' 7 3) (w.extractLsb' 4 2)))
  | 0x02 => fixedAt w 6 1 0 (pure (.vfmul (w.extractLsb' 20 5) (w.extractLsb' 15 5) (w.extractLsb' 10 5) (w.extractLsb' 7 3) (w.extractLsb' 4 2)))
  | 0x03 => fixedAt w 6 1 0 (pure (.vfma (w.extractLsb' 20 5) (w.extractLsb' 15 5) (w.extractLsb' 10 5) (w.extractLsb' 7 3) (w.extractLsb' 4 2)))
  | 0x04 => fixedAt w 6 1 0 (pure (.vfms (w.extractLsb' 20 5) (w.extractLsb' 15 5) (w.extractLsb' 10 5) (w.extractLsb' 7 3) (w.extractLsb' 4 2)))
  | 0x05 => fixedAt w 6 1 0 (pure (.vfnma (w.extractLsb' 20 5) (w.extractLsb' 15 5) (w.extractLsb' 10 5) (w.extractLsb' 7 3) (w.extractLsb' 4 2)))
  | 0x06 => fixedAt w 6 1 0 (pure (.vfdiv (w.extractLsb' 20 5) (w.extractLsb' 15 5) (w.extractLsb' 10 5) (w.extractLsb' 7 3) (w.extractLsb' 4 2)))
  | 0x07 => fixedAt w 10 5 0 (fixedAt w 6 1 0 (pure (.vfsqrt (w.extractLsb' 20 5) (w.extractLsb' 15 5) (w.extractLsb' 7 3) (w.extractLsb' 4 2))))
  | 0x08 => fixedAt w 6 1 0 (pure (.vfmin (w.extractLsb' 20 5) (w.extractLsb' 15 5) (w.extractLsb' 10 5) (w.extractLsb' 7 3) (w.extractLsb' 4 2)))
  | 0x09 => fixedAt w 6 1 0 (pure (.vfmax (w.extractLsb' 20 5) (w.extractLsb' 15 5) (w.extractLsb' 10 5) (w.extractLsb' 7 3) (w.extractLsb' 4 2)))
  | 0x0A => fixedAt w 10 5 0 (fixedAt w 6 1 0 (pure (.vfabs (w.extractLsb' 20 5) (w.extractLsb' 15 5) (w.extractLsb' 7 3) (w.extractLsb' 4 2))))
  | 0x0B => fixedAt w 10 5 0 (fixedAt w 6 1 0 (pure (.vfneg (w.extractLsb' 20 5) (w.extractLsb' 15 5) (w.extractLsb' 7 3) (w.extractLsb' 4 2))))
  | 0x0C => fixedAt w 10 5 0 (fixedAt w 6 1 0 (pure (.vfexp2 (w.extractLsb' 20 5) (w.extractLsb' 15 5) (w.extractLsb' 7 3) (w.extractLsb' 4 2))))
  | 0x0D => fixedAt w 6 1 0 (pure (.vfdot2 (w.extractLsb' 20 5) (w.extractLsb' 15 5) (w.extractLsb' 10 5) (w.extractLsb' 7 3) (w.extractLsb' 4 2)))
  | _ => .error .selector

/-- Major opcode 0x1B (R224). -/
def decodeVs (w : U32) : Except DecodeError Instr :=
  match (w.extractLsb' 0 2).toNat with
  | 0x00 => fixedAt w 12 8 0 (pure (.vbcast (w.extractLsb' 20 5) (w.extractLsb' 10 2) (w.extractLsb' 5 5) (w.extractLsb' 2 3)))
  | 0x01 => fixedAt w 10 5 0 (pure (.vfmas (w.extractLsb' 20 5) (w.extractLsb' 15 5) (w.extractLsb' 5 5) (w.extractLsb' 2 3)))
  | 0x02 => pure (.vscacc (w.extractLsb' 20 5) (w.extractLsb' 15 5) (w.extractLsb' 10 5) (w.extractLsb' 5 5) (w.extractLsb' 2 3))
  | 0x03 => fixedAt w 10 5 0 (fixedAt w 2 3 0 (pure (.vins (w.extractLsb' 20 5) (w.extractLsb' 15 5) (w.extractLsb' 5 5))))
  | _ => .error .selector

/-- Major opcode 0x1C (R226). -/
def decodeVmld (w : U32) : Except DecodeError Instr :=
  match (w.extractLsb' 4 3).toNat with
  | 0x00 => fixedAt w 0 2 0 (pure (.vld (w.extractLsb' 20 5) (w.extractLsb' 15 5) (w.extractLsb' 10 5) (w.extractLsb' 7 3) (w.extractLsb' 2 2)))
  | 0x01 => fixedAt w 0 2 0 (pure (.vlds (w.extractLsb' 20 5) (w.extractLsb' 15 5) (w.extractLsb' 10 5) (w.extractLsb' 7 3) (w.extractLsb' 2 2)))
  | 0x02 => fixedAt w 3 1 1 (fixedAt w 0 2 0 (pure (.vldx (w.extractLsb' 20 5) (w.extractLsb' 15 5) (w.extractLsb' 10 5) (w.extractLsb' 7 3) (w.extractLsb' 2 1))))
  | 0x03 => fixedAt w 0 2 0 (pure (.vldb (w.extractLsb' 20 5) (w.extractLsb' 15 5) (w.extractLsb' 10 5) (w.extractLsb' 7 3) (w.extractLsb' 2 2)))
  | _ => .error .selector

/-- Major opcode 0x1D (R226). -/
def decodeVmst (w : U32) : Except DecodeError Instr :=
  match (w.extractLsb' 4 3).toNat with
  | 0x00 => fixedAt w 0 2 0 (pure (.vst (w.extractLsb' 20 5) (w.extractLsb' 15 5) (w.extractLsb' 10 5) (w.extractLsb' 7 3) (w.extractLsb' 2 2)))
  | 0x01 => fixedAt w 0 2 0 (pure (.vsts (w.extractLsb' 20 5) (w.extractLsb' 15 5) (w.extractLsb' 10 5) (w.extractLsb' 7 3) (w.extractLsb' 2 2)))
  | 0x02 => fixedAt w 3 1 1 (fixedAt w 0 2 0 (pure (.vstx (w.extractLsb' 20 5) (w.extractLsb' 15 5) (w.extractLsb' 10 5) (w.extractLsb' 7 3) (w.extractLsb' 2 1))))
  | _ => .error .selector

/-- Major opcode 0x1E (R228). -/
def decodeVprm (w : U32) : Except DecodeError Instr :=
  match (w.extractLsb' 0 4).toNat with
  | 0x00 => pure (.vperm (w.extractLsb' 20 5) (w.extractLsb' 15 5) (w.extractLsb' 10 5) (w.extractLsb' 7 3) (w.extractLsb' 4 3))
  | 0x01 => pure (.vslideup (w.extractLsb' 20 5) (w.extractLsb' 15 5) (w.extractLsb' 10 5) (w.extractLsb' 7 3) (w.extractLsb' 4 3))
  | 0x02 => pure (.vslidedn (w.extractLsb' 20 5) (w.extractLsb' 15 5) (w.extractLsb' 10 5) (w.extractLsb' 7 3) (w.extractLsb' 4 3))
  | 0x03 => pure (.vredadd (w.extractLsb' 20 5) (w.extractLsb' 15 5) (w.extractLsb' 10 5) (w.extractLsb' 7 3) (w.extractLsb' 4 3))
  | 0x04 => pure (.vredmin (w.extractLsb' 20 5) (w.extractLsb' 15 5) (w.extractLsb' 10 5) (w.extractLsb' 7 3) (w.extractLsb' 4 3))
  | 0x05 => pure (.vredmax (w.extractLsb' 20 5) (w.extractLsb' 15 5) (w.extractLsb' 10 5) (w.extractLsb' 7 3) (w.extractLsb' 4 3))
  | 0x06 => fixedAt w 6 1 0 (pure (.vfredadd (w.extractLsb' 20 5) (w.extractLsb' 15 5) (w.extractLsb' 10 5) (w.extractLsb' 7 3) (w.extractLsb' 4 2)))
  | 0x07 => fixedAt w 6 1 0 (pure (.vfredmax (w.extractLsb' 20 5) (w.extractLsb' 15 5) (w.extractLsb' 10 5) (w.extractLsb' 7 3) (w.extractLsb' 4 2)))
  | 0x08 => fixedAt w 10 5 0 (pure (.vcompress (w.extractLsb' 20 5) (w.extractLsb' 15 5) (w.extractLsb' 7 3) (w.extractLsb' 4 3)))
  | 0x09 => fixedAt w 7 3 0 (pure (.vextg (w.extractLsb' 20 5) (w.extractLsb' 15 5) (w.extractLsb' 10 5) (w.extractLsb' 4 3)))
  | _ => .error .selector

/-- Major opcode 0x1F (R230). -/
def decodeVprd (w : U32) : Except DecodeError Instr :=
  match (w.extractLsb' 0 4).toNat with
  | 0x00 => fixedAt w 23 2 0 (pure (.vcmpeq (w.extractLsb' 20 3) (w.extractLsb' 15 5) (w.extractLsb' 10 5) (w.extractLsb' 7 3) (w.extractLsb' 4 3)))
  | 0x01 => fixedAt w 23 2 0 (pure (.vcmplt (w.extractLsb' 20 3) (w.extractLsb' 15 5) (w.extractLsb' 10 5) (w.extractLsb' 7 3) (w.extractLsb' 4 3)))
  | 0x02 => fixedAt w 23 2 0 (pure (.vcmple (w.extractLsb' 20 3) (w.extractLsb' 15 5) (w.extractLsb' 10 5) (w.extractLsb' 7 3) (w.extractLsb' 4 3)))
  | 0x03 => fixedAt w 23 2 0 (fixedAt w 6 1 0 (pure (.vfcmpeq (w.extractLsb' 20 3) (w.extractLsb' 15 5) (w.extractLsb' 10 5) (w.extractLsb' 7 3) (w.extractLsb' 4 2))))
  | 0x04 => fixedAt w 23 2 0 (fixedAt w 6 1 0 (pure (.vfcmplt (w.extractLsb' 20 3) (w.extractLsb' 15 5) (w.extractLsb' 10 5) (w.extractLsb' 7 3) (w.extractLsb' 4 2))))
  | 0x05 => fixedAt w 23 2 0 (fixedAt w 6 1 0 (pure (.vfcmple (w.extractLsb' 20 3) (w.extractLsb' 15 5) (w.extractLsb' 10 5) (w.extractLsb' 7 3) (w.extractLsb' 4 2))))
  | 0x06 => fixedAt w 23 2 0 (fixedAt w 6 1 0 (pure (.vfcmpun (w.extractLsb' 20 3) (w.extractLsb' 15 5) (w.extractLsb' 10 5) (w.extractLsb' 7 3) (w.extractLsb' 4 2))))
  | 0x07 => fixedAt w 23 2 0 (fixedAt w 18 2 0 (fixedAt w 13 2 0 (fixedAt w 4 6 0 (pure (.pand (w.extractLsb' 20 3) (w.extractLsb' 15 3) (w.extractLsb' 10 3))))))
  | 0x08 => fixedAt w 23 2 0 (fixedAt w 18 2 0 (fixedAt w 13 2 0 (fixedAt w 4 6 0 (pure (.por (w.extractLsb' 20 3) (w.extractLsb' 15 3) (w.extractLsb' 10 3))))))
  | 0x09 => fixedAt w 23 2 0 (fixedAt w 18 2 0 (fixedAt w 13 2 0 (fixedAt w 4 6 0 (pure (.pxor (w.extractLsb' 20 3) (w.extractLsb' 15 3) (w.extractLsb' 10 3))))))
  | 0x0A => fixedAt w 23 2 0 (fixedAt w 18 2 0 (fixedAt w 4 11 0 (pure (.pnot (w.extractLsb' 20 3) (w.extractLsb' 15 3)))))
  | 0x0B => fixedAt w 23 2 0 (fixedAt w 4 11 0 (pure (.psetn (w.extractLsb' 20 3) (w.extractLsb' 15 5))))
  | 0x0C => fixedAt w 18 2 0 (fixedAt w 4 11 0 (pure (.pcnt (w.extractLsb' 20 5) (w.extractLsb' 15 3))))
  | 0x0D => fixedAt w 18 2 0 (fixedAt w 4 11 0 (pure (.pfirst (w.extractLsb' 20 5) (w.extractLsb' 15 3))))
  | _ => .error .selector

/-- Major opcode 0x21 (R233, R234). -/
def decodeVq (w : U32) : Except DecodeError Instr :=
  match (w.extractLsb' 0 6).toNat with
  | 0x00 => pure (.vquant (w.extractLsb' 20 5) (w.extractLsb' 15 5) (w.extractLsb' 10 5) (w.extractLsb' 8 2) (w.extractLsb' 6 2))
  | 0x01 => pure (.vdeq (w.extractLsb' 20 5) (w.extractLsb' 15 5) (w.extractLsb' 10 5) (w.extractLsb' 8 2) (w.extractLsb' 6 2))
  | 0x02 => fixedAt w 8 7 0 (fixedAt w 6 1 1 (pure (.vpack (w.extractLsb' 20 5) (w.extractLsb' 15 5) (w.extractLsb' 7 1))))
  | 0x03 => fixedAt w 8 7 0 (fixedAt w 6 1 1 (pure (.vunpk (w.extractLsb' 20 5) (w.extractLsb' 15 5) (w.extractLsb' 7 1))))
  | _ => .error .selector

/-- Major opcode 0x22 (R240). -/
def decodeTile (w : U32) : Except DecodeError Instr :=
  match (w.extractLsb' 0 6).toNat with
  | 0x00 => fixedAt w 16 6 0 (pure (.tld (w.extractLsb' 22 3) (w.extractLsb' 11 5) (w.extractLsb' 6 5)))
  | 0x01 => fixedAt w 22 3 0 (fixedAt w 16 3 0 (pure (.tst (w.extractLsb' 19 3) (w.extractLsb' 11 5) (w.extractLsb' 6 5))))
  | 0x02 => fixedAt w 6 16 0 (pure (.tzero (w.extractLsb' 22 3)))
  | 0x03 => fixedAt w 16 6 0 (fixedAt w 6 5 0 (pure (.tzp (w.extractLsb' 22 3) (w.extractLsb' 11 5))))
  | 0x04 => fixedAt w 22 3 0 (fixedAt w 16 3 0 (pure (.tgetzp (w.extractLsb' 19 3) (w.extractLsb' 11 5) (w.extractLsb' 6 5))))
  | _ => .error .selector

/-- Major opcode 0x23 (R250, R253). -/
def decodeLoom (w : U32) : Except DecodeError Instr :=
  match (w.extractLsb' 0 6).toNat with
  | 0x00 => fixedAt w 16 9 0 (pure (.lease (w.extractLsb' 11 5) (w.extractLsb' 6 5)))
  | 0x01 => fixedAt w 6 19 0 (pure .lrel)
  | 0x02 => fixedAt w 6 19 0 (pure .mclr)
  | 0x03 => fixedAt w 16 9 0 (fixedAt w 6 5 0 (pure (.mwin (w.extractLsb' 11 5))))
  | 0x04 => fixedAt w 16 9 0 (fixedAt w 6 5 0 (pure (.mdrain (w.extractLsb' 11 5))))
  | 0x05 => fixedAt w 16 9 0 (pure (.lstat (w.extractLsb' 11 5) (w.extractLsb' 6 5)))
  | _ =>
    match (w.extractLsb' 4 2).toNat with
    | 1 => fixedAt w 22 3 0 (fixedAt w 6 10 0 (pure (.mma (w.extractLsb' 19 3) (w.extractLsb' 16 3) (w.extractLsb' 0 4))))
    | 2 => fixedAt w 22 3 0 (fixedAt w 6 10 0 (pure (.mmaz (w.extractLsb' 19 3) (w.extractLsb' 16 3) (w.extractLsb' 0 4))))
    | _ => .error .selector

/-- Major opcode 0x24 (R307). -/
def decodeQue (w : U32) : Except DecodeError Instr :=
  match (w.extractLsb' 4 6).toNat with
  | 0x00 => fixedAt w 10 5 0 (fixedAt w 3 1 0 (pure (.push (w.extractLsb' 20 5) (w.extractLsb' 15 5) (w.extractLsb' 0 3))))
  | 0x01 => fixedAt w 15 10 0 (fixedAt w 3 1 0 (pure (.movq (w.extractLsb' 10 5) (w.extractLsb' 0 3))))
  | 0x02 => fixedAt w 10 10 0 (fixedAt w 3 1 0 (pure (.qpop (w.extractLsb' 20 5) (w.extractLsb' 0 3))))
  | 0x03 => fixedAt w 10 10 0 (fixedAt w 3 1 0 (pure (.qstat (w.extractLsb' 20 5) (w.extractLsb' 0 3))))
  | 0x04 => fixedAt w 20 5 0 (fixedAt w 10 5 0 (fixedAt w 3 1 0 (pure (.bindq (w.extractLsb' 15 5) (w.extractLsb' 0 3)))))
  | _ => .error .selector

/-- Major opcode 0x25 (R311). -/
def decodeTln (w : U32) : Except DecodeError Instr :=
  match (w.extractLsb' 4 6).toNat with
  | 0x00 => fixedAt w 15 10 0 (pure (.tlwait (w.extractLsb' 10 5) (w.extractLsb' 0 4)))
  | 0x01 => fixedAt w 15 5 0 (pure (.tltest (w.extractLsb' 20 5) (w.extractLsb' 10 5) (w.extractLsb' 0 4)))
  | 0x02 => fixedAt w 10 10 0 (pure (.tlread (w.extractLsb' 20 5) (w.extractLsb' 0 4)))
  | 0x03 => fixedAt w 10 10 0 (fixedAt w 0 4 0 (pure (.evpop (w.extractLsb' 20 5))))
  | 0x04 => fixedAt w 10 5 0 (fixedAt w 0 4 0 (pure (.evwait (w.extractLsb' 20 5) (w.extractLsb' 15 5))))
  | 0x05 => fixedAt w 10 10 0 (fixedAt w 0 4 0 (pure (.evtry (w.extractLsb' 20 5))))
  | _ => .error .selector

/-- Major opcode 0x26 (R274 to R280). -/
def decodeMsg (w : U32) : Except DecodeError Instr :=
  match (w.extractLsb' 4 6).toNat with
  | 0x00 => fixedAt w 0 4 0 (pure (.send (w.extractLsb' 20 5) (w.extractLsb' 15 5) (w.extractLsb' 10 5)))
  | 0x01 => pure (.sendt (w.extractLsb' 20 5) (w.extractLsb' 15 5) (w.extractLsb' 10 5) (w.extractLsb' 0 4))
  | 0x02 => fixedAt w 0 4 0 (pure (.spawn (w.extractLsb' 20 5) (w.extractLsb' 15 5) (w.extractLsb' 10 5)))
  | 0x03 => fixedAt w 0 4 0 (pure (.dlg (w.extractLsb' 20 5) (w.extractLsb' 15 5) (w.extractLsb' 10 5)))
  | 0x04 => fixedAt w 0 4 0 (pure (.dlga (w.extractLsb' 20 5) (w.extractLsb' 15 5) (w.extractLsb' 10 5)))
  | 0x05 => fixedAt w 10 15 0 (fixedAt w 0 4 0 (pure .dlgret))
  | 0x06 => fixedAt w 10 15 0 (fixedAt w 0 4 0 (pure .chain))
  | 0x07 => fixedAt w 10 15 0 (fixedAt w 0 4 0 (pure .replay))
  | _ => .error .selector

/-- Major opcode 0x27 (R281). -/
def decodeTask (w : U32) : Except DecodeError Instr :=
  match (w.extractLsb' 0 10).toNat with
  | 0x00 => fixedAt w 10 15 0 (pure .tend)
  | 0x01 => fixedAt w 10 5 0 (pure (.tyield (w.extractLsb' 20 5) (w.extractLsb' 15 5)))
  | 0x02 => fixedAt w 10 15 0 (pure .upret)
  | 0x03 => fixedAt w 10 10 0 (pure (.tself (w.extractLsb' 20 5)))
  | _ => .error .selector

/-- Major opcode 0x28 (R332). -/
def decodeHold (w : U32) : Except DecodeError Instr :=
  match (w.extractLsb' 0 10).toNat with
  | 0x00 => pure (.give (w.extractLsb' 20 5) (w.extractLsb' 15 5) (w.extractLsb' 10 5))
  | 0x01 => pure (.accept (w.extractLsb' 20 5) (w.extractLsb' 15 5) (w.extractLsb' 10 5))
  | 0x02 => fixedAt w 10 5 0 (pure (.decline (w.extractLsb' 20 5) (w.extractLsb' 15 5)))
  | 0x03 => pure (.lend (w.extractLsb' 20 5) (w.extractLsb' 15 5) (w.extractLsb' 10 5))
  | 0x04 => fixedAt w 10 5 0 (pure (.returnLoan (w.extractLsb' 20 5) (w.extractLsb' 15 5)))
  | 0x05 => fixedAt w 10 5 0 (pure (.reclaim (w.extractLsb' 20 5) (w.extractLsb' 15 5)))
  | 0x06 => pure (.hquery (w.extractLsb' 20 5) (w.extractLsb' 15 5) (w.extractLsb' 10 5))
  | 0x07 => fixedAt w 10 5 0 (pure (.ownnew (w.extractLsb' 20 5) (w.extractLsb' 15 5)))
  | 0x08 => fixedAt w 10 10 0 (pure (.ownend (w.extractLsb' 20 5)))
  | 0x09 => fixedAt w 10 10 0 (pure (.renew (w.extractLsb' 20 5)))
  | 0x0A => fixedAt w 10 5 0 (pure (.claim (w.extractLsb' 20 5) (w.extractLsb' 15 5)))
  | 0x0B => fixedAt w 10 5 0 (pure (.setheir (w.extractLsb' 20 5) (w.extractLsb' 15 5)))
  | _ => .error .selector

/-- Major opcode 0x29 (R337). -/
def decodeMaps (w : U32) : Except DecodeError Instr :=
  match (w.extractLsb' 0 10).toNat with
  | 0x00 => pure (.map (w.extractLsb' 20 5) (w.extractLsb' 15 5) (w.extractLsb' 10 5))
  | 0x01 => pure (.unmap (w.extractLsb' 20 5) (w.extractLsb' 15 5) (w.extractLsb' 10 5))
  | 0x02 => pure (.setclass (w.extractLsb' 20 5) (w.extractLsb' 15 5) (w.extractLsb' 10 5))
  | 0x03 => pure (.revoke (w.extractLsb' 20 5) (w.extractLsb' 15 5) (w.extractLsb' 10 5))
  | 0x04 => pure (.scrub (w.extractLsb' 20 5) (w.extractLsb' 15 5) (w.extractLsb' 10 5))
  | 0x05 => pure (.share (w.extractLsb' 20 5) (w.extractLsb' 15 5) (w.extractLsb' 10 5))
  | _ => .error .selector

/-- Major opcode 0x2A (R345). -/
def decodeSwt (w : U32) : Except DecodeError Instr :=
  match (w.extractLsb' 0 4).toNat with
  | 0x00 => fixedAt w 6 4 0 (pure (.swname (w.extractLsb' 20 5) (w.extractLsb' 15 5) (w.extractLsb' 10 5) (w.extractLsb' 4 2)))
  | 0x01 => fixedAt w 6 4 0 (pure (.swhash (w.extractLsb' 20 5) (w.extractLsb' 15 5) (w.extractLsb' 10 5) (w.extractLsb' 4 2)))
  | 0x02 => fixedAt w 9 1 0 (pure (.swread (w.extractLsb' 20 5) (w.extractLsb' 15 5) (w.extractLsb' 10 5) (w.extractLsb' 4 5)))
  | 0x03 => fixedAt w 4 6 0 (pure (.swref (w.extractLsb' 20 5) (w.extractLsb' 15 5) (w.extractLsb' 10 5)))
  | 0x04 => fixedAt w 4 6 0 (pure (.swrel (w.extractLsb' 20 5) (w.extractLsb' 15 5) (w.extractLsb' 10 5)))
  | 0x05 => fixedAt w 4 6 0 (pure (.swwalk (w.extractLsb' 20 5) (w.extractLsb' 15 5) (w.extractLsb' 10 5)))
  | _ => .error .selector

/-- Major opcode 0x2B (R347). -/
def decodeCtl (w : U32) : Except DecodeError Instr :=
  match (w.extractLsb' 0 3).toNat with
  | 0x00 => fixedAt w 15 5 0 (pure (.rdc (w.extractLsb' 20 5) (w.extractLsb' 3 12)))
  | 0x01 => fixedAt w 20 5 0 (pure (.wrc (w.extractLsb' 15 5) (w.extractLsb' 3 12)))
  | _ => .error .selector

/-- Major opcode 0x2C (R348). -/
def decodeSys (w : U32) : Except DecodeError Instr :=
  match (w.extractLsb' 0 10).toNat with
  | 0x00 => fixedAt w 20 5 0 (fixedAt w 10 5 0 (pure (.trap (w.extractLsb' 15 5))))
  | 0x01 => fixedAt w 21 4 0 (fixedAt w 10 10 0 (pure (.tret (w.extractLsb' 20 1))))
  | 0x02 => fixedAt w 10 15 0 (pure .brk)
  | 0x03 => fixedAt w 10 15 0 (pure .nop)
  | _ => .error .selector

/-- The major opcode map (R171). -/
def decodeMajor (w : U32) : Except DecodeError Instr :=
  match (w.extractLsb' 25 6).toNat with
  | 0x01 => decodeOp w
  | 0x02 => decodeOpW w
  | 0x03 => pure (.addi (w.extractLsb' 20 5) (w.extractLsb' 15 5) (w.extractLsb' 0 15))
  | 0x04 => pure (.andi (w.extractLsb' 20 5) (w.extractLsb' 15 5) (w.extractLsb' 0 15))
  | 0x05 => pure (.ori (w.extractLsb' 20 5) (w.extractLsb' 15 5) (w.extractLsb' 0 15))
  | 0x06 => pure (.xori (w.extractLsb' 20 5) (w.extractLsb' 15 5) (w.extractLsb' 0 15))
  | 0x07 => decodeShi w
  | 0x08 => pure (.slti (w.extractLsb' 20 5) (w.extractLsb' 15 5) (w.extractLsb' 0 15))
  | 0x09 => pure (.sltiu (w.extractLsb' 20 5) (w.extractLsb' 15 5) (w.extractLsb' 0 15))
  | 0x0A => pure (.lui (w.extractLsb' 20 5) (w.extractLsb' 0 20))
  | 0x0B => pure (.capc (w.extractLsb' 20 5) (w.extractLsb' 0 20))
  | 0x0C => pure (.jal (w.extractLsb' 20 5) (w.extractLsb' 0 20))
  | 0x0D => pure (.jalr (w.extractLsb' 20 5) (w.extractLsb' 15 5) (w.extractLsb' 0 15))
  | 0x0E => decodeBr w
  | 0x0F => pure (.addiw (w.extractLsb' 20 5) (w.extractLsb' 15 5) (w.extractLsb' 0 15))
  | 0x10 => decodeLoad w
  | 0x11 => decodeStore w
  | 0x12 => decodeCap w
  | 0x13 => decodeCapi w
  | 0x14 => decodeAtom w
  | 0x16 => decodeSync w
  | 0x18 => decodeVia w
  | 0x19 => decodeVib w
  | 0x1A => decodeVf w
  | 0x1B => decodeVs w
  | 0x1C => decodeVmld w
  | 0x1D => decodeVmst w
  | 0x1E => decodeVprm w
  | 0x1F => decodeVprd w
  | 0x20 => fixedAt w 0 1 0 (pure (.vcvt (w.extractLsb' 20 5) (w.extractLsb' 15 5) (w.extractLsb' 10 5) (w.extractLsb' 5 5) (w.extractLsb' 2 3) (w.extractLsb' 1 1)))
  | 0x21 => decodeVq w
  | 0x22 => decodeTile w
  | 0x23 => decodeLoom w
  | 0x24 => decodeQue w
  | 0x25 => decodeTln w
  | 0x26 => decodeMsg w
  | 0x27 => decodeTask w
  | 0x28 => decodeHold w
  | 0x29 => decodeMaps w
  | 0x2A => decodeSwt w
  | 0x2B => decodeCtl w
  | 0x2C => decodeSys w
  | _ => .error .major

/-- Decode a word: the settle marker S (R154) and the instruction, or why the word is none. -/
def decode (w : U32) : Except DecodeError (Bool × Instr) :=
  if w = 0 ∨ w = 0xFFFFFFFF#32 then .error .never
  else
    match decodeMajor w with
    | .error e => .error e
    | .ok i => if i.wf then .ok (w.getLsbD 31, i) else .error .value

/-- The word stored at four bytes, the lowest address first: little-endian (R154). -/
def wordOfBytes (b0 b1 b2 b3 : U8) : U32 := b3 ++ b2 ++ b1 ++ b0

/-- The instruction the decoder reads from a table word: the table gives every word 32 bits, and bytes are laid out as R154
stores them. -/
def decodeTableWord (nbits w : Nat) : Option Instr :=
  if nbits = 32 then
    let v : U32 := BitVec.ofNat 32 w
    match decode (wordOfBytes (v.extractLsb' 0 8) (v.extractLsb' 8 8) (v.extractLsb' 16 8) (v.extractLsb' 24 8)) with
    | .ok (_, i) => some i
    | .error _ => none
  else none

/-- The word of a well-formed instruction with settle marker `s`; 0, which is never an instruction, for a row without an
encoding. -/
def encode (s : Bool) : Instr → U32
  | .add d a b => BitVec.ofBool s ++ 0x01#6 ++ d ++ a ++ b ++ 0#10
  | .sub d a b => BitVec.ofBool s ++ 0x01#6 ++ d ++ a ++ b ++ 1#10
  | .and d a b => BitVec.ofBool s ++ 0x01#6 ++ d ++ a ++ b ++ 2#10
  | .or d a b => BitVec.ofBool s ++ 0x01#6 ++ d ++ a ++ b ++ 3#10
  | .xor d a b => BitVec.ofBool s ++ 0x01#6 ++ d ++ a ++ b ++ 4#10
  | .andn d a b => BitVec.ofBool s ++ 0x01#6 ++ d ++ a ++ b ++ 5#10
  | .sll d a b => BitVec.ofBool s ++ 0x01#6 ++ d ++ a ++ b ++ 6#10
  | .srl d a b => BitVec.ofBool s ++ 0x01#6 ++ d ++ a ++ b ++ 7#10
  | .sra d a b => BitVec.ofBool s ++ 0x01#6 ++ d ++ a ++ b ++ 8#10
  | .slt d a b => BitVec.ofBool s ++ 0x01#6 ++ d ++ a ++ b ++ 11#10
  | .sltu d a b => BitVec.ofBool s ++ 0x01#6 ++ d ++ a ++ b ++ 12#10
  | .min d a b => BitVec.ofBool s ++ 0x01#6 ++ d ++ a ++ b ++ 13#10
  | .max d a b => BitVec.ofBool s ++ 0x01#6 ++ d ++ a ++ b ++ 14#10
  | .minu d a b => BitVec.ofBool s ++ 0x01#6 ++ d ++ a ++ b ++ 15#10
  | .maxu d a b => BitVec.ofBool s ++ 0x01#6 ++ d ++ a ++ b ++ 16#10
  | .mul d a b => BitVec.ofBool s ++ 0x01#6 ++ d ++ a ++ b ++ 17#10
  | .mulh d a b => BitVec.ofBool s ++ 0x01#6 ++ d ++ a ++ b ++ 18#10
  | .mulhu d a b => BitVec.ofBool s ++ 0x01#6 ++ d ++ a ++ b ++ 19#10
  | .div d a b => BitVec.ofBool s ++ 0x01#6 ++ d ++ a ++ b ++ 21#10
  | .divu d a b => BitVec.ofBool s ++ 0x01#6 ++ d ++ a ++ b ++ 22#10
  | .rem d a b => BitVec.ofBool s ++ 0x01#6 ++ d ++ a ++ b ++ 23#10
  | .remu d a b => BitVec.ofBool s ++ 0x01#6 ++ d ++ a ++ b ++ 24#10
  | .clz d a => BitVec.ofBool s ++ 0x01#6 ++ d ++ a ++ 25#15
  | .ctz d a => BitVec.ofBool s ++ 0x01#6 ++ d ++ a ++ 26#15
  | .popc d a => BitVec.ofBool s ++ 0x01#6 ++ d ++ a ++ 27#15
  | .gpair d a b => BitVec.ofBool s ++ 0x01#6 ++ d ++ a ++ b ++ 28#10
  | .ghi d a => BitVec.ofBool s ++ 0x01#6 ++ d ++ a ++ 29#15
  | .addw d a b => BitVec.ofBool s ++ 0x02#6 ++ d ++ a ++ b ++ 0#10
  | .subw d a b => BitVec.ofBool s ++ 0x02#6 ++ d ++ a ++ b ++ 1#10
  | .sllw d a b => BitVec.ofBool s ++ 0x02#6 ++ d ++ a ++ b ++ 6#10
  | .srlw d a b => BitVec.ofBool s ++ 0x02#6 ++ d ++ a ++ b ++ 7#10
  | .sraw d a b => BitVec.ofBool s ++ 0x02#6 ++ d ++ a ++ b ++ 8#10
  | .mulw d a b => BitVec.ofBool s ++ 0x02#6 ++ d ++ a ++ b ++ 17#10
  | .divw d a b => BitVec.ofBool s ++ 0x02#6 ++ d ++ a ++ b ++ 21#10
  | .divuw d a b => BitVec.ofBool s ++ 0x02#6 ++ d ++ a ++ b ++ 22#10
  | .remw d a b => BitVec.ofBool s ++ 0x02#6 ++ d ++ a ++ b ++ 23#10
  | .remuw d a b => BitVec.ofBool s ++ 0x02#6 ++ d ++ a ++ b ++ 24#10
  | .addi d a i => BitVec.ofBool s ++ 0x03#6 ++ d ++ a ++ i
  | .andi d a i => BitVec.ofBool s ++ 0x04#6 ++ d ++ a ++ i
  | .ori d a i => BitVec.ofBool s ++ 0x05#6 ++ d ++ a ++ i
  | .xori d a i => BitVec.ofBool s ++ 0x06#6 ++ d ++ a ++ i
  | .slti d a i => BitVec.ofBool s ++ 0x08#6 ++ d ++ a ++ i
  | .sltiu d a i => BitVec.ofBool s ++ 0x09#6 ++ d ++ a ++ i
  | .addiw d a i => BitVec.ofBool s ++ 0x0F#6 ++ d ++ a ++ i
  | .slli d a n => BitVec.ofBool s ++ 0x07#6 ++ d ++ a ++ 0#9 ++ n
  | .srli d a n => BitVec.ofBool s ++ 0x07#6 ++ d ++ a ++ 64#9 ++ n
  | .srai d a n => BitVec.ofBool s ++ 0x07#6 ++ d ++ a ++ 128#9 ++ n
  | .slliw d a n => BitVec.ofBool s ++ 0x07#6 ++ d ++ a ++ 384#10 ++ n
  | .srliw d a n => BitVec.ofBool s ++ 0x07#6 ++ d ++ a ++ 512#10 ++ n
  | .sraiw d a n => BitVec.ofBool s ++ 0x07#6 ++ d ++ a ++ 640#10 ++ n
  | .lui d i => BitVec.ofBool s ++ 0x0A#6 ++ d ++ i
  | .capc d i => BitVec.ofBool s ++ 0x0B#6 ++ d ++ i
  | .jal d o => BitVec.ofBool s ++ 0x0C#6 ++ d ++ o
  | .jalr d a i => BitVec.ofBool s ++ 0x0D#6 ++ d ++ a ++ i
  | .beq a b o => BitVec.ofBool s ++ 0x0E#6 ++ a ++ b ++ 0#3 ++ o
  | .bne a b o => BitVec.ofBool s ++ 0x0E#6 ++ a ++ b ++ 1#3 ++ o
  | .blt a b o => BitVec.ofBool s ++ 0x0E#6 ++ a ++ b ++ 2#3 ++ o
  | .bge a b o => BitVec.ofBool s ++ 0x0E#6 ++ a ++ b ++ 3#3 ++ o
  | .bltu a b o => BitVec.ofBool s ++ 0x0E#6 ++ a ++ b ++ 4#3 ++ o
  | .bgeu a b o => BitVec.ofBool s ++ 0x0E#6 ++ a ++ b ++ 5#3 ++ o
  | .btag a o => BitVec.ofBool s ++ 0x0E#6 ++ a ++ 6#8 ++ o
  | .bntag a o => BitVec.ofBool s ++ 0x0E#6 ++ a ++ 7#8 ++ o
  | .lb d a i => BitVec.ofBool s ++ 0x10#6 ++ d ++ a ++ 0#3 ++ i
  | .lh d a i => BitVec.ofBool s ++ 0x10#6 ++ d ++ a ++ 1#3 ++ i
  | .lw d a i => BitVec.ofBool s ++ 0x10#6 ++ d ++ a ++ 2#3 ++ i
  | .ld d a i => BitVec.ofBool s ++ 0x10#6 ++ d ++ a ++ 3#3 ++ i
  | .lbn d a i => BitVec.ofBool s ++ 0x10#6 ++ d ++ a ++ 4#3 ++ i
  | .lhn d a i => BitVec.ofBool s ++ 0x10#6 ++ d ++ a ++ 5#3 ++ i
  | .lwn d a i => BitVec.ofBool s ++ 0x10#6 ++ d ++ a ++ 6#3 ++ i
  | .lc d a i => BitVec.ofBool s ++ 0x10#6 ++ d ++ a ++ 7#3 ++ i
  | .sb d a i => BitVec.ofBool s ++ 0x11#6 ++ d ++ a ++ 0#3 ++ i
  | .sh d a i => BitVec.ofBool s ++ 0x11#6 ++ d ++ a ++ 1#3 ++ i
  | .sw d a i => BitVec.ofBool s ++ 0x11#6 ++ d ++ a ++ 2#3 ++ i
  | .sd d a i => BitVec.ofBool s ++ 0x11#6 ++ d ++ a ++ 3#3 ++ i
  | .sc d a i => BitVec.ofBool s ++ 0x11#6 ++ d ++ a ++ 7#3 ++ i
  | .cgetaddr d a => BitVec.ofBool s ++ 0x12#6 ++ d ++ a ++ 0#15
  | .cgetbase d a => BitVec.ofBool s ++ 0x12#6 ++ d ++ a ++ 1#15
  | .cgetlen d a => BitVec.ofBool s ++ 0x12#6 ++ d ++ a ++ 2#15
  | .cgetperm d a => BitVec.ofBool s ++ 0x12#6 ++ d ++ a ++ 3#15
  | .cgettype d a => BitVec.ofBool s ++ 0x12#6 ++ d ++ a ++ 4#15
  | .cgettag d a => BitVec.ofBool s ++ 0x12#6 ++ d ++ a ++ 5#15
  | .csetaddr d a b => BitVec.ofBool s ++ 0x12#6 ++ d ++ a ++ b ++ 6#10
  | .cinc d a b => BitVec.ofBool s ++ 0x12#6 ++ d ++ a ++ b ++ 7#10
  | .csetb d a b => BitVec.ofBool s ++ 0x12#6 ++ d ++ a ++ b ++ 8#10
  | .csetbx d a b => BitVec.ofBool s ++ 0x12#6 ++ d ++ a ++ b ++ 9#10
  | .candp d a b => BitVec.ofBool s ++ 0x12#6 ++ d ++ a ++ b ++ 10#10
  | .cseal d a b => BitVec.ofBool s ++ 0x12#6 ++ d ++ a ++ b ++ 11#10
  | .cunseal d a b => BitVec.ofBool s ++ 0x12#6 ++ d ++ a ++ b ++ 12#10
  | .ctestsub d a b => BitVec.ofBool s ++ 0x12#6 ++ d ++ a ++ b ++ 13#10
  | .cclrtag d a => BitVec.ofBool s ++ 0x12#6 ++ d ++ a ++ 14#15
  | .cmove d a => BitVec.ofBool s ++ 0x12#6 ++ d ++ a ++ 15#15
  | .creplen d a => BitVec.ofBool s ++ 0x12#6 ++ d ++ a ++ 16#15
  | .cinci d a i => BitVec.ofBool s ++ 0x13#6 ++ d ++ a ++ 0#1 ++ i
  | .csetbi d a i => BitVec.ofBool s ++ 0x13#6 ++ d ++ a ++ 1#1 ++ i
  | .amoadd d a b z o c => BitVec.ofBool s ++ 0x14#6 ++ d ++ a ++ b ++ 0#5 ++ z ++ o ++ c
  | .amoand d a b z o c => BitVec.ofBool s ++ 0x14#6 ++ d ++ a ++ b ++ 2#5 ++ z ++ o ++ c
  | .amoor d a b z o c => BitVec.ofBool s ++ 0x14#6 ++ d ++ a ++ b ++ 4#5 ++ z ++ o ++ c
  | .amoxor d a b z o c => BitVec.ofBool s ++ 0x14#6 ++ d ++ a ++ b ++ 6#5 ++ z ++ o ++ c
  | .amomin d a b z o c => BitVec.ofBool s ++ 0x14#6 ++ d ++ a ++ b ++ 8#5 ++ z ++ o ++ c
  | .amomax d a b z o c => BitVec.ofBool s ++ 0x14#6 ++ d ++ a ++ b ++ 10#5 ++ z ++ o ++ c
  | .amominu d a b z o c => BitVec.ofBool s ++ 0x14#6 ++ d ++ a ++ b ++ 12#5 ++ z ++ o ++ c
  | .amomaxu d a b z o c => BitVec.ofBool s ++ 0x14#6 ++ d ++ a ++ b ++ 14#5 ++ z ++ o ++ c
  | .amoswap d a b z o c => BitVec.ofBool s ++ 0x14#6 ++ d ++ a ++ b ++ 8#4 ++ z ++ o ++ c
  | .cas d a b z o c => BitVec.ofBool s ++ 0x14#6 ++ d ++ a ++ b ++ 9#4 ++ z ++ o ++ c
  | .amofadd d a b o c => BitVec.ofBool s ++ 0x14#6 ++ d ++ a ++ b ++ 40#6 ++ o ++ c
  | .lda d a z o c => BitVec.ofBool s ++ 0x14#6 ++ d ++ a ++ 11#9 ++ z ++ 0#1 ++ o ++ c
  | .stl d a z o c => BitVec.ofBool s ++ 0x14#6 ++ d ++ a ++ 12#9 ++ z ++ o ++ 0#1 ++ c
  | .fence f c => BitVec.ofBool s ++ 0x16#6 ++ 0#15 ++ f ++ c ++ 0#4
  | .barb k => BitVec.ofBool s ++ 0x16#6 ++ 0#15 ++ k ++ 1#8
  | .bara k => BitVec.ofBool s ++ 0x16#6 ++ 0#15 ++ k ++ 2#8
  | .barw k => BitVec.ofBool s ++ 0x16#6 ++ 0#15 ++ k ++ 3#8
  | .vadd d a b p e => BitVec.ofBool s ++ 0x18#6 ++ d ++ a ++ b ++ p ++ e ++ 0#4
  | .vsub d a b p e => BitVec.ofBool s ++ 0x18#6 ++ d ++ a ++ b ++ p ++ e ++ 1#4
  | .vmul d a b p e => BitVec.ofBool s ++ 0x18#6 ++ d ++ a ++ b ++ p ++ e ++ 2#4
  | .vmulh d a b p e => BitVec.ofBool s ++ 0x18#6 ++ d ++ a ++ b ++ p ++ e ++ 3#4
  | .vmin d a b p e => BitVec.ofBool s ++ 0x18#6 ++ d ++ a ++ b ++ p ++ e ++ 4#4
  | .vmax d a b p e => BitVec.ofBool s ++ 0x18#6 ++ d ++ a ++ b ++ p ++ e ++ 5#4
  | .vand d a b p e => BitVec.ofBool s ++ 0x18#6 ++ d ++ a ++ b ++ p ++ e ++ 6#4
  | .vor d a b p e => BitVec.ofBool s ++ 0x18#6 ++ d ++ a ++ b ++ p ++ e ++ 7#4
  | .vxor d a b p e => BitVec.ofBool s ++ 0x18#6 ++ d ++ a ++ b ++ p ++ e ++ 8#4
  | .vsll d a b p e => BitVec.ofBool s ++ 0x18#6 ++ d ++ a ++ b ++ p ++ e ++ 9#4
  | .vsrl d a b p e => BitVec.ofBool s ++ 0x18#6 ++ d ++ a ++ b ++ p ++ e ++ 10#4
  | .vsra d a b p e => BitVec.ofBool s ++ 0x18#6 ++ d ++ a ++ b ++ p ++ e ++ 11#4
  | .vaddsat d a b p e => BitVec.ofBool s ++ 0x18#6 ++ d ++ a ++ b ++ p ++ e ++ 12#4
  | .vsubsat d a b p e => BitVec.ofBool s ++ 0x18#6 ++ d ++ a ++ b ++ p ++ e ++ 13#4
  | .vdot4 d a b p e => BitVec.ofBool s ++ 0x19#6 ++ d ++ a ++ b ++ p ++ e ++ 0#6
  | .vmulw d a b p e => BitVec.ofBool s ++ 0x19#6 ++ d ++ a ++ b ++ p ++ e ++ 1#4
  | .vnarrow d a b p e => BitVec.ofBool s ++ 0x19#6 ++ d ++ a ++ b ++ p ++ e ++ 2#4
  | .vsel d a b p e => BitVec.ofBool s ++ 0x19#6 ++ d ++ a ++ b ++ p ++ e ++ 3#4
  | .vmov d a p e => BitVec.ofBool s ++ 0x19#6 ++ d ++ a ++ 0#5 ++ p ++ e ++ 4#4
  | .vidx d p e => BitVec.ofBool s ++ 0x19#6 ++ d ++ 0#10 ++ p ++ e ++ 5#4
  | .vfadd d a b p e => BitVec.ofBool s ++ 0x1A#6 ++ d ++ a ++ b ++ p ++ 0#1 ++ e ++ 0#4
  | .vfsub d a b p e => BitVec.ofBool s ++ 0x1A#6 ++ d ++ a ++ b ++ p ++ 0#1 ++ e ++ 1#4
  | .vfmul d a b p e => BitVec.ofBool s ++ 0x1A#6 ++ d ++ a ++ b ++ p ++ 0#1 ++ e ++ 2#4
  | .vfma d a b p e => BitVec.ofBool s ++ 0x1A#6 ++ d ++ a ++ b ++ p ++ 0#1 ++ e ++ 3#4
  | .vfms d a b p e => BitVec.ofBool s ++ 0x1A#6 ++ d ++ a ++ b ++ p ++ 0#1 ++ e ++ 4#4
  | .vfnma d a b p e => BitVec.ofBool s ++ 0x1A#6 ++ d ++ a ++ b ++ p ++ 0#1 ++ e ++ 5#4
  | .vfdiv d a b p e => BitVec.ofBool s ++ 0x1A#6 ++ d ++ a ++ b ++ p ++ 0#1 ++ e ++ 6#4
  | .vfsqrt d a p e => BitVec.ofBool s ++ 0x1A#6 ++ d ++ a ++ 0#5 ++ p ++ 0#1 ++ e ++ 7#4
  | .vfmin d a b p e => BitVec.ofBool s ++ 0x1A#6 ++ d ++ a ++ b ++ p ++ 0#1 ++ e ++ 8#4
  | .vfmax d a b p e => BitVec.ofBool s ++ 0x1A#6 ++ d ++ a ++ b ++ p ++ 0#1 ++ e ++ 9#4
  | .vfabs d a p e => BitVec.ofBool s ++ 0x1A#6 ++ d ++ a ++ 0#5 ++ p ++ 0#1 ++ e ++ 10#4
  | .vfneg d a p e => BitVec.ofBool s ++ 0x1A#6 ++ d ++ a ++ 0#5 ++ p ++ 0#1 ++ e ++ 11#4
  | .vfexp2 d a p e => BitVec.ofBool s ++ 0x1A#6 ++ d ++ a ++ 0#5 ++ p ++ 0#1 ++ e ++ 12#4
  | .vfdot2 d a b p e => BitVec.ofBool s ++ 0x1A#6 ++ d ++ a ++ b ++ p ++ 0#1 ++ e ++ 13#4
  | .vbcast d w g p => BitVec.ofBool s ++ 0x1B#6 ++ d ++ 0#8 ++ w ++ g ++ p ++ 0#2
  | .vfmas d a g p => BitVec.ofBool s ++ 0x1B#6 ++ d ++ a ++ 0#5 ++ g ++ p ++ 1#2
  | .vscacc d a b g p => BitVec.ofBool s ++ 0x1B#6 ++ d ++ a ++ b ++ g ++ p ++ 2#2
  | .vins d k g => BitVec.ofBool s ++ 0x1B#6 ++ d ++ k ++ 0#5 ++ g ++ 3#5
  | .vld d a b p z => BitVec.ofBool s ++ 0x1C#6 ++ d ++ a ++ b ++ p ++ 0#3 ++ z ++ 0#2
  | .vlds d a b p z => BitVec.ofBool s ++ 0x1C#6 ++ d ++ a ++ b ++ p ++ 1#3 ++ z ++ 0#2
  | .vldx d a b p z => BitVec.ofBool s ++ 0x1C#6 ++ d ++ a ++ b ++ p ++ 5#4 ++ z ++ 0#2
  | .vldb d a b p z => BitVec.ofBool s ++ 0x1C#6 ++ d ++ a ++ b ++ p ++ 3#3 ++ z ++ 0#2
  | .vst d a b p z => BitVec.ofBool s ++ 0x1D#6 ++ d ++ a ++ b ++ p ++ 0#3 ++ z ++ 0#2
  | .vsts d a b p z => BitVec.ofBool s ++ 0x1D#6 ++ d ++ a ++ b ++ p ++ 1#3 ++ z ++ 0#2
  | .vstx d a b p z => BitVec.ofBool s ++ 0x1D#6 ++ d ++ a ++ b ++ p ++ 5#4 ++ z ++ 0#2
  | .vperm d a b p e => BitVec.ofBool s ++ 0x1E#6 ++ d ++ a ++ b ++ p ++ e ++ 0#4
  | .vslideup d a b p e => BitVec.ofBool s ++ 0x1E#6 ++ d ++ a ++ b ++ p ++ e ++ 1#4
  | .vslidedn d a b p e => BitVec.ofBool s ++ 0x1E#6 ++ d ++ a ++ b ++ p ++ e ++ 2#4
  | .vredadd d a b p e => BitVec.ofBool s ++ 0x1E#6 ++ d ++ a ++ b ++ p ++ e ++ 3#4
  | .vredmin d a b p e => BitVec.ofBool s ++ 0x1E#6 ++ d ++ a ++ b ++ p ++ e ++ 4#4
  | .vredmax d a b p e => BitVec.ofBool s ++ 0x1E#6 ++ d ++ a ++ b ++ p ++ e ++ 5#4
  | .vfredadd d a b p e => BitVec.ofBool s ++ 0x1E#6 ++ d ++ a ++ b ++ p ++ 0#1 ++ e ++ 6#4
  | .vfredmax d a b p e => BitVec.ofBool s ++ 0x1E#6 ++ d ++ a ++ b ++ p ++ 0#1 ++ e ++ 7#4
  | .vcompress d a p e => BitVec.ofBool s ++ 0x1E#6 ++ d ++ a ++ 0#5 ++ p ++ e ++ 8#4
  | .vextg d a k e => BitVec.ofBool s ++ 0x1E#6 ++ d ++ a ++ k ++ 0#3 ++ e ++ 9#4
  | .vcmpeq d a b p e => BitVec.ofBool s ++ 0x1F#6 ++ 0#2 ++ d ++ a ++ b ++ p ++ e ++ 0#4
  | .vcmplt d a b p e => BitVec.ofBool s ++ 0x1F#6 ++ 0#2 ++ d ++ a ++ b ++ p ++ e ++ 1#4
  | .vcmple d a b p e => BitVec.ofBool s ++ 0x1F#6 ++ 0#2 ++ d ++ a ++ b ++ p ++ e ++ 2#4
  | .vfcmpeq d a b p e => BitVec.ofBool s ++ 0x1F#6 ++ 0#2 ++ d ++ a ++ b ++ p ++ 0#1 ++ e ++ 3#4
  | .vfcmplt d a b p e => BitVec.ofBool s ++ 0x1F#6 ++ 0#2 ++ d ++ a ++ b ++ p ++ 0#1 ++ e ++ 4#4
  | .vfcmple d a b p e => BitVec.ofBool s ++ 0x1F#6 ++ 0#2 ++ d ++ a ++ b ++ p ++ 0#1 ++ e ++ 5#4
  | .vfcmpun d a b p e => BitVec.ofBool s ++ 0x1F#6 ++ 0#2 ++ d ++ a ++ b ++ p ++ 0#1 ++ e ++ 6#4
  | .pand d a b => BitVec.ofBool s ++ 0x1F#6 ++ 0#2 ++ d ++ 0#2 ++ a ++ 0#2 ++ b ++ 7#10
  | .por d a b => BitVec.ofBool s ++ 0x1F#6 ++ 0#2 ++ d ++ 0#2 ++ a ++ 0#2 ++ b ++ 8#10
  | .pxor d a b => BitVec.ofBool s ++ 0x1F#6 ++ 0#2 ++ d ++ 0#2 ++ a ++ 0#2 ++ b ++ 9#10
  | .pnot d a => BitVec.ofBool s ++ 0x1F#6 ++ 0#2 ++ d ++ 0#2 ++ a ++ 10#15
  | .psetn d g => BitVec.ofBool s ++ 0x1F#6 ++ 0#2 ++ d ++ g ++ 11#15
  | .pcnt d a => BitVec.ofBool s ++ 0x1F#6 ++ d ++ 0#2 ++ a ++ 12#15
  | .pfirst d a => BitVec.ofBool s ++ 0x1F#6 ++ d ++ 0#2 ++ a ++ 13#15
  | .vcvt d a x y r t => BitVec.ofBool s ++ 0x20#6 ++ d ++ a ++ x ++ y ++ r ++ t ++ 0#1
  | .vquant d a g r f => BitVec.ofBool s ++ 0x21#6 ++ d ++ a ++ g ++ r ++ f ++ 0#6
  | .vdeq d a g r f => BitVec.ofBool s ++ 0x21#6 ++ d ++ a ++ g ++ r ++ f ++ 1#6
  | .vpack d a f => BitVec.ofBool s ++ 0x21#6 ++ d ++ a ++ 0#7 ++ f ++ 66#7
  | .vunpk d a f => BitVec.ofBool s ++ 0x21#6 ++ d ++ a ++ 0#7 ++ f ++ 67#7
  | .tld d x y => BitVec.ofBool s ++ 0x22#6 ++ d ++ 0#6 ++ x ++ y ++ 0#6
  | .tst a x y => BitVec.ofBool s ++ 0x22#6 ++ 0#3 ++ a ++ 0#3 ++ x ++ y ++ 1#6
  | .tzero d => BitVec.ofBool s ++ 0x22#6 ++ d ++ 2#22
  | .tzp d x => BitVec.ofBool s ++ 0x22#6 ++ d ++ 0#6 ++ x ++ 3#11
  | .tgetzp a x y => BitVec.ofBool s ++ 0x22#6 ++ 0#3 ++ a ++ 0#3 ++ x ++ y ++ 4#6
  | .lease x y => BitVec.ofBool s ++ 0x23#6 ++ 0#9 ++ x ++ y ++ 0#6
  | .lrel => BitVec.ofBool s ++ 0x23#6 ++ 1#25
  | .mclr => BitVec.ofBool s ++ 0x23#6 ++ 2#25
  | .mwin x => BitVec.ofBool s ++ 0x23#6 ++ 0#9 ++ x ++ 3#11
  | .mdrain x => BitVec.ofBool s ++ 0x23#6 ++ 0#9 ++ x ++ 4#11
  | .lstat x y => BitVec.ofBool s ++ 0x23#6 ++ 0#9 ++ x ++ y ++ 5#6
  | .mma a b p => BitVec.ofBool s ++ 0x23#6 ++ 0#3 ++ a ++ b ++ 1#12 ++ p
  | .mmaz a b p => BitVec.ofBool s ++ 0x23#6 ++ 0#3 ++ a ++ b ++ 2#12 ++ p
  | .push d a k => BitVec.ofBool s ++ 0x24#6 ++ d ++ a ++ 0#12 ++ k
  | .movq b k => BitVec.ofBool s ++ 0x24#6 ++ 0#10 ++ b ++ 2#7 ++ k
  | .qpop d k => BitVec.ofBool s ++ 0x24#6 ++ d ++ 4#17 ++ k
  | .qstat d k => BitVec.ofBool s ++ 0x24#6 ++ d ++ 6#17 ++ k
  | .bindq a k => BitVec.ofBool s ++ 0x24#6 ++ 0#5 ++ a ++ 8#12 ++ k
  | .tlwait b k => BitVec.ofBool s ++ 0x25#6 ++ 0#10 ++ b ++ 0#6 ++ k
  | .tltest d b k => BitVec.ofBool s ++ 0x25#6 ++ d ++ 0#5 ++ b ++ 1#6 ++ k
  | .tlread d k => BitVec.ofBool s ++ 0x25#6 ++ d ++ 2#16 ++ k
  | .evpop d => BitVec.ofBool s ++ 0x25#6 ++ d ++ 48#20
  | .evwait d a => BitVec.ofBool s ++ 0x25#6 ++ d ++ a ++ 64#15
  | .evtry d => BitVec.ofBool s ++ 0x25#6 ++ d ++ 80#20
  | .send d a b => BitVec.ofBool s ++ 0x26#6 ++ d ++ a ++ b ++ 0#10
  | .sendt d a b k => BitVec.ofBool s ++ 0x26#6 ++ d ++ a ++ b ++ 1#6 ++ k
  | .spawn d a b => BitVec.ofBool s ++ 0x26#6 ++ d ++ a ++ b ++ 32#10
  | .dlg d a b => BitVec.ofBool s ++ 0x26#6 ++ d ++ a ++ b ++ 48#10
  | .dlga d a b => BitVec.ofBool s ++ 0x26#6 ++ d ++ a ++ b ++ 64#10
  | .dlgret => BitVec.ofBool s ++ 0x26#6 ++ 80#25
  | .chain => BitVec.ofBool s ++ 0x26#6 ++ 96#25
  | .replay => BitVec.ofBool s ++ 0x26#6 ++ 112#25
  | .tend => BitVec.ofBool s ++ 0x27#6 ++ 0#25
  | .tyield d a => BitVec.ofBool s ++ 0x27#6 ++ d ++ a ++ 1#15
  | .upret => BitVec.ofBool s ++ 0x27#6 ++ 2#25
  | .tself d => BitVec.ofBool s ++ 0x27#6 ++ d ++ 3#20
  | .give d a b => BitVec.ofBool s ++ 0x28#6 ++ d ++ a ++ b ++ 0#10
  | .accept d a b => BitVec.ofBool s ++ 0x28#6 ++ d ++ a ++ b ++ 1#10
  | .decline d a => BitVec.ofBool s ++ 0x28#6 ++ d ++ a ++ 2#15
  | .lend d a b => BitVec.ofBool s ++ 0x28#6 ++ d ++ a ++ b ++ 3#10
  | .returnLoan d a => BitVec.ofBool s ++ 0x28#6 ++ d ++ a ++ 4#15
  | .reclaim d a => BitVec.ofBool s ++ 0x28#6 ++ d ++ a ++ 5#15
  | .hquery d a b => BitVec.ofBool s ++ 0x28#6 ++ d ++ a ++ b ++ 6#10
  | .ownnew d a => BitVec.ofBool s ++ 0x28#6 ++ d ++ a ++ 7#15
  | .ownend d => BitVec.ofBool s ++ 0x28#6 ++ d ++ 8#20
  | .renew d => BitVec.ofBool s ++ 0x28#6 ++ d ++ 9#20
  | .claim d a => BitVec.ofBool s ++ 0x28#6 ++ d ++ a ++ 10#15
  | .setheir d a => BitVec.ofBool s ++ 0x28#6 ++ d ++ a ++ 11#15
  | .map d a b => BitVec.ofBool s ++ 0x29#6 ++ d ++ a ++ b ++ 0#10
  | .unmap d a b => BitVec.ofBool s ++ 0x29#6 ++ d ++ a ++ b ++ 1#10
  | .setclass d a b => BitVec.ofBool s ++ 0x29#6 ++ d ++ a ++ b ++ 2#10
  | .revoke d a b => BitVec.ofBool s ++ 0x29#6 ++ d ++ a ++ b ++ 3#10
  | .scrub d a b => BitVec.ofBool s ++ 0x29#6 ++ d ++ a ++ b ++ 4#10
  | .share d a b => BitVec.ofBool s ++ 0x29#6 ++ d ++ a ++ b ++ 5#10
  | .swname d a b k => BitVec.ofBool s ++ 0x2A#6 ++ d ++ a ++ b ++ 0#4 ++ k ++ 0#4
  | .swhash d a b k => BitVec.ofBool s ++ 0x2A#6 ++ d ++ a ++ b ++ 0#4 ++ k ++ 1#4
  | .swread d a b v => BitVec.ofBool s ++ 0x2A#6 ++ d ++ a ++ b ++ 0#1 ++ v ++ 2#4
  | .swref d a b => BitVec.ofBool s ++ 0x2A#6 ++ d ++ a ++ b ++ 3#10
  | .swrel d a b => BitVec.ofBool s ++ 0x2A#6 ++ d ++ a ++ b ++ 4#10
  | .swwalk d a b => BitVec.ofBool s ++ 0x2A#6 ++ d ++ a ++ b ++ 5#10
  | .rdc d n => BitVec.ofBool s ++ 0x2B#6 ++ d ++ 0#5 ++ n ++ 0#3
  | .wrc a n => BitVec.ofBool s ++ 0x2B#6 ++ 0#5 ++ a ++ n ++ 1#3
  | .trap a => BitVec.ofBool s ++ 0x2C#6 ++ 0#5 ++ a ++ 0#15
  | .tret y => BitVec.ofBool s ++ 0x2C#6 ++ 0#4 ++ y ++ 1#20
  | .brk => BitVec.ofBool s ++ 0x2C#6 ++ 2#25
  | .nop => BitVec.ofBool s ++ 0x2C#6 ++ 3#25
  | .arrayMatrixCommand _ _ => 0
  | .loomGrant _ _ => 0
  | .loomIdleExpiry _ _ => 0
  | .selvageHandlerStart _ _ => 0
  | .watchWrite _ _ => 0
  | .emulentWrite _ => 0
  | .hqctxWrite _ => 0
  | .hqcapWrite _ _ => 0
  | .assayEndpointHandle _ => 0
  | .assayAttestation _ => 0
  | .assayKeyImport _ => 0
  | .assayPublicKeys _ => 0
  | .copy _ => 0
  | .copy2d _ => 0
  | .fill _ => 0
  | .resume _ => 0
  | .framecopy _ => 0
  | .framecopyPass1 _ => 0
  | .framecopyPass2 _ => 0
  | .framecopyPass3 _ => 0
  | .gather _ => 0
  | .allreduce _ _ _ _ => 0
  | .redscat _ _ _ _ => 0
  | .allgather _ _ _ _ => 0
  | .mcast _ _ => 0
  | .launch _ => 0
  | .launchPlacement _ _ => 0
  | .swout _ => 0
  | .releaseCommand _ => 0
  | .releaseCommandPlacement _ => 0
  | .sweep _ => 0
  | .nsend _ => 0
  | .nrecv _ => 0
  | .nwrite _ => 0
  | .nread _ => 0
  | .packetArrival _ => 0
  | .selectiveAckArrival _ _ _ _ _ => 0
  | .retransmissionTimeout _ _ _ _ => 0
  | .eventRecordPost _ => 0
  | .hostPush _ _ _ _ _ _ _ => 0
  | .hostQueuePass _ => 0
  | .messageArrival _ _ => 0
  | .inboxTaskStart _ => 0
  | .stewardRequestStart _ => 0
  | .dlgReplyArrival _ _ => 0
  | .dlgResend _ _ => 0
  | .issueCycle _ _ => 0
  | .issueGuardExpiry _ _ => 0
  | .rotaTurnStart _ => 0
  | .sliceEnd _ => 0
  | .sliceLimitExpiry _ => 0
  | .sliceBudgetEnd _ => 0
  | .trapDelivery _ _ => 0
  | .imageRestore _ _ => 0
  | .writeProtectRetry _ _ => 0
  | .uncorrectableError _ _ _ => 0
  | .macFailure _ => 0
  | .offerDeadline _ => 0
  | .termEnd _ => 0
  | .ownerLapse _ => 0
  | .recoveryBudgetEnd _ => 0
  | .recoveryComplete _ => 0
  | .registerScanDeadline _ => 0
  | .classRebalance _ => 0
  | .replyHandler _ => 0
  | .loadHandler _ => 0
  | .storeHandler _ => 0
  | .atomicHandler _ => 0
  | .swatchCountHandler _ => 0
  | .spawnHandler _ _ _ => 0
  | .bulkStoreHandler _ => 0
  | .launchHandler _ _ _ _ _ _ => 0
  | .unimplementedHandler _ _ _ => 0
  | .linkTraining _ _ _ => 0
  | .linkNarrowing _ => 0
  | .linkDown _ => 0
  | .ocsDrainRequest _ => 0
  | .drainMarkerReturn _ => 0
  | .routeHoldTimeout _ => 0
  | .start _ => 0
  | .devnumWrite _ => 0
  | .reset _ _ => 0
  | .clockStep _ => 0
  | .spanCapacityStallLimit _ _ => 0
  | .tyieldCycleLimit _ _ => 0
  | .evwaitCycleLimit _ _ => 0
  | .ideStreamKeying _ => 0
  | .benchQuarantine _ => 0

end Sys2Proof
end

