-- ==== Sys2Proof/Machine/Selvage.lean ====
section
/-! DEFINITION. What a loom does by itself: performing queued commands (R251), granting (R246), the idle rule (R247), starting
selvage handlers for drained rows (R256, R257). -/
namespace Sys2Proof.Machine

/-- ARRAY_MATRIX_COMMAND: the first queued command; none does nothing (R251). -/
def execArrayMatrixCommand (bench loom : Nat) (s : State) : Host.Outcome State Fault Refusal := .next (s.arrayStep bench loom)

/-- LOOM_GRANT (R246). -/
def execLoomGrant (bench loom : Nat) (s : State) : Host.Outcome State Fault Refusal := .next (s.grant bench loom)

/-- Another seat waits, and 4,096 cycles have passed since the holder's last command or its grant (R247). -/
def State.loomIdle (s : State) (l : Loom) : Bool :=
  match l.holder with
  | some q => l.queue.isEmpty && l.pending.any (· != q) && decide (l.lastCmd + 4096 ≤ s.cycle)
  | none => false

/-- The budget drain of an idle lease. -/
def State.loomExpires (s : State) (bench idx : Nat) : State :=
  let l := s.loom bench idx
  match l.holder with
  | some q => if s.loomIdle l then s.budgetDrain (bench * 48 + q) else s
  | none => s

def execLoomIdleExpiry (bench loom : Nat) (s : State) : Host.Outcome State Fault Refusal := .next (s.loomExpires bench loom)

/-! ### Selvage handlers (R256, R257) -/

/-- The core that a row goes to: its seat's, if the lease's owner is that core's user, else the first of the drain set whose core's
user it is; none where there is no such core. -/
def State.rowCore (s : State) (bench : Nat) (d : Drain) (row : Nat) : Option Nat :=
  let mine (q : Nat) : Bool := s.coreUser (bench * 48 + q) == d.lease.owner && d.lease.owner != 0
  match d.seats[row % d.seats.length]? with
  | some q => if mine q then some (bench * 48 + q) else (d.seats.find? mine).map (bench * 48 + ·)
  | none => none

/-- The lowest slot of 1 to 7 that runs nothing. -/
def State.selvageSlot (s : State) (core : Nat) : Option Nat := [1, 2, 3, 4, 5, 6, 7].find? (fun i => !(s.slot core i).running)

/-- Whether handlers may start on a core: no rota runs, or a turn of a held entry does, its slice ended or not (R287, R288). -/
def State.handlerMayRun (s : State) (core : Nat) : Bool :=
  let t := (s.core core).turn
  s.noTurn core || (1 ≤ t.phase.toNat && t.phase.toNat ≤ 2 && s.holds (s.coreUser core) (mkRes 2 (core * 8 + t.entry)))

/-- g6 of a handler (R257). -/
def Drain.g6 (d : Drain) (idx : Nat) (row : DrainRow) : U64 :=
  BitVec.ofNat 32 d.number ++ 0#8 ++ BitVec.ofNat 2 idx ++ BitVec.ofNat 6 (coreSeat d.holder) ++ d.w ++ 0#2 ++ d.format
    ++ row.flags ++ BitVec.ofBool d.budget

/-- A handler for a row in a slot (R257). -/
def State.startHandler (s : State) (core idx loom : Nat) (d : Drain) (row : DrainRow) : State :=
  let t := s.startTask core idx (.selvage d.holder) d.lease.owner (d.lease.handler.withOtype 0) .zero
    (Cap.ofInt (BitVec.ofNat 64 row.index)) (s.dropRevoked d.lease.larg) (Cap.ofInt (d.g6 loom row)) (Cap.ofInt (BitVec.ofNat 64 d.c))
  let x := t.slot core idx
  let y := row.regs.zipIdx.foldl (fun (x : Slot) v => x.setV (BitVec.ofNat 5 (8 + v.2)) v.1) x
  let h := t.core d.holder
  (t.putSlot { y with trapvec := d.lease.trapvec, upvec := d.lease.upvec }).putCore { h with out := h.out + 1 }

/-- The head row of a loom's drains leaves it: the drain goes when it is its last, and the drain ends. -/
def State.popRow (s : State) (bench idx : Nat) (d : Drain) : State :=
  let l := s.loom bench idx
  let rest := d.rows.drop 1
  if rest.isEmpty then (s.putLoom { l with drains := l.drains.drop 1 }).endDrain idx { d with rows := [] }
  else s.putLoom { l with drains := { d with rows := rest } :: l.drains.drop 1 }

/-- SELVAGE_HANDLER_START: the row at the buffer's head starts a handler, waits for a slot, or is discarded (R256). -/
def State.selvageStart (s : State) (bench idx : Nat) : State :=
  match (s.loom bench idx).drains with
  | [] => s
  | d :: _ =>
    match d.rows with
    | [] => s.popRow bench idx d
    | row :: _ =>
      match s.rowCore bench d row.index with
      | none => s.popRow bench idx { d with discarded := true }
      | some core =>
        match (if s.handlerMayRun core then s.selvageSlot core else none) with
        | none => s
        | some i => (s.startHandler core i idx d row).popRow bench idx d

/-- Whether the head row can start or is discarded now. -/
def State.selvageReady (s : State) (l : Loom) : Bool :=
  match l.drains with
  | [] => false
  | d :: _ =>
    match d.rows with
    | [] => true
    | row :: _ =>
      match s.rowCore l.bench d row.index with
      | none => true
      | some core => s.handlerMayRun core && (s.selvageSlot core).isSome

def execSelvageHandlerStart (bench loom : Nat) (s : State) : Host.Outcome State Fault Refusal := .next (s.selvageStart bench loom)

end Sys2Proof.Machine
end

