-- ==== Sys2Proof/Machine/Rota.lean ====
section
/-! DEFINITION. Time sharing (R287 to R290) and the restore of slot images (R366 to R369). -/
namespace Sys2Proof.Machine

/-! ### Work of an entry (R283, R287) -/

/-- A rota entry of a core as a resource. -/
def turnRes (core entry : Nat) : U64 := mkRes 2 (core * 8 + entry)
/-- The fields of a rota entry. -/
def Core.rotaAt (c : Core) (k : Nat) : Rota := (c.rota[k]?).getD .blank

/-- Tasks of an owner that a core may take: of a launch that is not resident, or of a resident one on a core of its own. -/
def State.launchWaits (s : State) (core : Nat) (owner : U16) : Bool :=
  match s.servedLaunch owner with
  | some l => !l.resident || s.coreUser core == owner
  | none => false

/-- Images that wait for an entry's turn, or for a core where an owner's work may run. -/
def State.imageWaits (s : State) (core entry : Nat) (owner : U16) : Bool :=
  match s.owner owner with
  | some o => o.images.any (fun i => i.turn == some (core * 8 + entry) || i.turn.isNone)
  | none => false

/-- A task waits to start for an entry: a message or request where the entry runs the user's work, a launch task, an image. -/
def State.taskWaits (s : State) (core entry : Nat) : Bool :=
  let owner := s.userOf (turnRes core entry)
  let c := s.core core
  owner != 0
    && ((s.coreUser core == owner && !(c.inbox.isEmpty && c.steward.isEmpty))
      || s.launchWaits core owner || s.imageWaits core entry owner
      || (s.owner owner).any (fun o => o.seed.any (fun x => x.1 == turnRes core entry)))

/-- The slots of a core that run something, the porter apart. -/
def State.turnSlots (s : State) (core : Nat) : List Slot :=
  s.slots.filter (fun x => x.core == core && x.running && x.role != .porter)

/-- A slot parked in TYIELD without a cause to go on. -/
def Slot.yields (x : Slot) : Bool :=
  match x.park with
  | .yield _ _ 0 => true
  | _ => false

/-- The running entry has no runnable work. -/
def State.turnIdle (s : State) (core : Nat) : Bool :=
  (s.turnSlots core).all Slot.yields && !s.taskWaits core (s.core core).turn.entry

/-! ### Turns (R287, R288, R289) -/

/-- The slice of the running turn has ended, or its work; a slice of 0, written while the turn runs, ends it also where no other entry keeps
the rota running (R290). -/
def State.sliceOver (s : State) (core : Nat) : Bool :=
  let c := s.core core
  c.turn.phase == 1 && (s.rotaRuns core || s.userOf (turnRes core c.turn.entry) != s.coreUser core)
    && (decide (c.turn.start + (c.rotaAt c.turn.entry).slice.toNat ≤ s.us) || s.turnIdle core)

/-- SLICE_END: no new task starts, slot 0's lease takes a budget drain, TYIELD hears of it (R283, R288). -/
def State.endSlice (s : State) (core : Nat) : State :=
  if !s.sliceOver core then s
  else
    let c := s.core core
    let t := s.putCore { c with turn := { c.turn with phase := 2, ended := s.us } }
    let u := if (t.core core).lease.state = 2 then t.budgetDrain core else t
    u.noteYield core 3

def execSliceEnd (core : Nat) (s : State) : Host.Outcome State Fault Refusal := .next (s.endSlice core)

/-- The latency limit has passed with slots still running. -/
def State.limitOver (s : State) (core : Nat) : Bool :=
  let c := s.core core
  c.turn.phase == 2 && !(s.turnSlots core).isEmpty && decide (c.turn.ended + (c.rotaAt c.turn.entry).limit.toNat ≤ s.us)

/-- SLICE_LIMIT_EXPIRY: every slot still running takes cooperative pre-emption at the entry's handler. -/
def State.passLimit (s : State) (core : Nat) : State :=
  if !s.limitOver core then s
  else
    let c := s.core core
    let t := s.putCore { c with turn := { c.turn with phase := 3, limited := s.ratedNow } }
    t.preempt (t.turnSlots core) (c.rotaAt c.turn.entry).handler

def execSliceLimitExpiry (core : Nat) (s : State) : Host.Outcome State Fault Refusal := .next (s.passLimit core)

/-- The save budget has passed with slots that can be saved. -/
def State.sliceBudgetOver (s : State) (core : Nat) : Bool :=
  let c := s.core core
  c.turn.phase == 3 && (s.turnSlots core).any Slot.savable
    && decide (c.turn.limited + (c.rotaAt c.turn.entry).budget.toNat ≤ s.ratedNow)

/-- SLICE_BUDGET_END: each slot not done is force-saved, or discarded. -/
def State.endSliceBudget (s : State) (core : Nat) : State :=
  if !s.sliceBudgetOver core then s
  else (s.forceSaves (s.turnSlots core) (some (core * 8 + (s.core core).turn.entry))).1

def execSliceBudgetEnd (core : Nat) (s : State) : Host.Outcome State Fault Refusal := .next (s.endSliceBudget core)

/-- The entries that may have a turn, from the one after the last turn's on, wrapping. -/
def State.nextTurn (s : State) (core : Nat) : Option Nat :=
  let c := s.core core
  ((List.range 8).map (fun i => (c.turn.entry + 1 + i) % 8)).find? (fun k =>
    (c.rotaAt k).slice != 0 && (s.entry (turnRes core k)).recovery.isNone && s.taskWaits core k)

/-- A held entry of the core's user, whose work is running when the rota begins. -/
def State.heldEntry (s : State) (core : Nat) : Option Nat :=
  (List.range 8).find? (fun k => s.uses (s.coreUser core) (turnRes core k))

/-- The turn that begins now: none, the end of turns, or an entry. -/
inductive TurnStep where
  | wait
  | stop
  | go (entry : Nat)
deriving DecidableEq, Repr

def State.turnStep (s : State) (core : Nat) : TurnStep :=
  let c := s.core core
  if !s.rotaRuns core then
    -- a turn of the user's own goes on as work without turns; another ends when its slots are done
    if c.turn.phase = 0 then .wait
    else if (s.turnSlots core).all (fun x => x.owner == s.coreUser core) && c.turn.phase == 1 then .stop
    else if (s.turnSlots core).isEmpty then .stop
    else .wait
  else if c.turn.phase = 0 && !(s.turnSlots core).isEmpty then
    match s.heldEntry core with
    | some k => .go k
    | none => .wait
  else if c.turn.phase = 0 || (2 ≤ c.turn.phase.toNat && (s.turnSlots core).isEmpty) then
    match s.nextTurn core with
    | some k => .go k
    | none => .wait
  else .wait

/-- ROTA_TURN_START: the next entry with a slice and runnable work; between owners the per-core registers and tiles are scrubbed
(R287, R289). -/
def State.startTurn (s : State) (core : Nat) : State :=
  let c := s.core core
  match s.turnStep core with
  | .wait => s
  | .stop =>
    -- what follows is work of the core's user
    let t := if s.userOf (turnRes core c.turn.entry) = s.coreUser core then s else s.scrubCoreRegs core
    t.putCore { t.core core with turn := { c.turn with phase := 0 } }
  | .go k =>
    let before := if c.turn.phase = 0 then s.coreUser core else s.userOf (turnRes core c.turn.entry)
    let t := if before = s.userOf (turnRes core k) then s else s.scrubCoreRegs core
    let d := t.core core
    t.putCore { d with turn := { entry := k, phase := 1, start := s.us, ended := s.us, limited := 0 } }

def execRotaTurnStart (core : Nat) (s : State) : Host.Outcome State Fault Refusal := .next (s.startTurn core)

/-! ### Restoring images (R366 to R369) -/

/-- A field of an image as a number; a capability of it with the tag of its granule. -/
def imgNat (l : List U8) (o n : Nat) : Nat := ofBytesLE ((l.drop o).take n)
def imgWord (l : List U8) (o : Nat) : U64 := BitVec.ofNat 64 (imgNat l o 8)
def State.imgCap (s : State) (at_ : Nat) (l : List U8) (o : Nat) : Cap :=
  { bits := BitVec.ofNat 128 (imgNat l o 16), tag := s.tags.contains ((at_ + o) / 16) }

/-- The frame and the g registers of an image. -/
def State.imgFrame (s : State) (at_ : Nat) (l : List U8) (x : Slot) : Slot :=
  { x with
    tfpcc := s.imgCap at_ l 256, tfpc := imgWord l 272, tfdone := imgWord l 280, tfclass := imgWord l 288
    tfaddr := imgWord l 296, tflane0 := imgWord l 304, tflane1 := imgWord l 312, tfagent := imgWord l 320
    tftime := imgWord l 328, g := Vector.ofFn (fun k => s.imgCap at_ l (512 + 16 * k.val)) }

/-- A slot as a forced save's image describes it; outside class 1 its frame words say where its window stands (log 30). -/
def State.imgSlot (s : State) (at_ : Nat) (l : List U8) (x : Slot) : Slot :=
  let f := s.imgFrame at_ l x
  let y := if x.class1 then f
    else
      { x with
        g := f.g, winStart := f.tfpcc.addr, winDone := f.tfdone.extractLsb' 0 32, pcc := f.tfpcc.withAddrBits f.tfpc }
  { y with
    v := Vector.ofFn (fun k => BitVec.ofNat 1024 (imgNat l (1024 + 128 * k.val) 128))
    p := Vector.ofFn (fun k => BitVec.ofNat 128 (imgNat l (5120 + 16 * k.val) 16))
    trapvec := s.imgCap at_ l 5248, upvec := s.imgCap at_ l 5264, tstack := s.imgCap at_ l 5280
    traphold := imgWord l 5296, flags := imgWord l 5304, round := imgWord l 5312, settlemode := imgWord l 5320 }

/-- What slot 0's image says of its core. -/
def State.imgCore (s : State) (at_ : Nat) (l : List U8) (i : Image) (c : Core) : Core :=
  { c with
    shapes := Vector.ofFn (fun k => imgWord l (5632 + 8 * k.val)), larg := s.imgCap at_ l 5696
    chain := Vector.ofFn (fun k => imgWord l (5712 + 8 * k.val)), watch := Vector.ofFn (fun k => imgWord l (5744 + 8 * k.val))
    monitors := Vector.replicate 4 none, qbind := i.qbind
    tiles := Vector.ofFn (fun k => BitVec.ofNat 65536 (imgNat l (6144 + 8192 * k.val) 8192))
    strips := Vector.ofFn (fun k => BitVec.ofNat 1024 (imgNat l (71680 + 128 * k.val) 128)), lease := i.lease }

/-- Free values for the vector registers that a yield does not keep. -/
def freeVec (n : Nat) : Vec := BitVec.ofNat 1024 (packLanes 64 ((List.range 16).map (fun i => (Config.free (16 * n + i)).toNat)))

/-- A yielded slot restarts in class 1 at the entry's handler, with g4 = 1 (R368). -/
def State.imgYield (s : State) (at_ : Nat) (l : List U8) (x : Slot) (handler : Cap) : Slot :=
  let f := s.imgFrame at_ l x
  let y := { f with
    v := Vector.ofFn (fun k => freeVec (s.free + k.val)), p := Vector.ofFn (fun k => (freeVec (s.free + 32 + k.val)).setWidth 128)
    class1 := true, tfclass := (f.tfclass &&& ~~~(0x300#64)) ||| 0x300#64, winDone := 0, winReads := [], winWrites := []
    afterTransfer := true, replay := false, coopDue := false, coopVec := .zero, park := .no
    pcc := if handler.tag then handler else x.trapvec }
  y.setG 4 (Cap.ofInt 1)

/-- An owner's images without one of them. -/
def State.dropImage (s : State) (owner : U16) (i : Image) : State :=
  match s.owner owner with
  | some o => s.putOwner { o with images := o.images.erase i }
  | none => s

/-- An image whose MAC fails is freed, with a dump-written record of reason 3 (R369). -/
def State.refuseImage (s : State) (owner : U16) (i : Image) : State :=
  ((s.dropImage owner i).afterTask i.slot .discard).notice owner
    { kind := 10, status := 3, source := s.source 0 i.slot.core, number := 0, d0 := 0, d1 := 0 }

/-- A restored slot takes its place. Its launch goes on counting it where it started: as a participant of that bench's barriers (R209,
R212). -/
def State.seatSlot (s : State) (core idx : Nat) (x : Slot) : State := s.putSlot { x with core := core, idx := idx }

/-- Restore one image into a slot. -/
def State.restore (s : State) (owner : U16) (i : Image) (core idx : Nat) : State :=
  let t := s.dropImage owner i
  let h := ((s.core core).rotaAt (s.core core).turn.entry).handler
  match i.offset, s.imageAt owner i with
  | some _, some (at_, l) =>
    if !s.imageMacOk owner l then s.refuseImage owner i
    else if i.isYield then
      let u := ({ t with free := t.free + 40 }).seatSlot core idx (s.imgYield at_ l i.slot h)
      if (u.slot core idx).pcc.isVector then u else u.abort core idx 2 0x15
    else
      let u := t.seatSlot core idx (s.imgSlot at_ l i.slot)
      if i.slot.idx = 0 && idx = 0 then u.putCore (s.imgCore at_ l i (u.core core)) else u
  -- an image that was kept in hardware
  | _, _ =>
    let l := s.imageBytes i.slot true
    let x := s.imgYield 0 l i.slot h
    let u := ({ t with free := t.free + 40 }).seatSlot core idx { x with tfpcc := i.slot.tfpcc, g := (i.slot.setG 4 (Cap.ofInt 1)).g }
    if (u.slot core idx).pcc.isVector then u else u.abort core idx 2 0x15

/-- An image fits a slot of a core now: of the entry whose turn runs, in its own slot of its own core; or saved at a recovery, slot 0
in slot 0, the steward in slot 8, another in any general slot (R288, R369). -/
def State.imageFits (s : State) (core idx : Nat) (i : Image) : Bool :=
  i.slot.delegated.isNone && !(s.slot core idx).running && !s.quarantined.contains (coreBench core)
    -- the tiles of slot 0's image wait for the unlock of the core's (R243)
    && (i.isYield || i.slot.idx != 0 || idx != 0 || ([0, 1, 2, 3, 4, 5, 6, 7] : List (BitVec 3)).all (fun t => !s.tileLocked core t))
    && (match i.turn with
      | some k =>
        k / 8 == core && i.slot.idx == idx
          && (s.noTurn core || ((s.core core).turn.phase == 1 && (s.core core).turn.entry == k % 8))
      | none =>
        if i.slot.idx = 0 || i.slot.idx = 8 then i.slot.idx == idx else decide (idx < 8) && !(s.core core).reserved.contains idx)

/-- The oldest image of an owner whose work may run on a core that fits a slot there. -/
def State.imageFor (s : State) (core idx : Nat) : Option (U16 × Image) :=
  s.owners.findSome? (fun o =>
    if s.ownerMayRun core o.id then (o.images.find? (s.imageFits core idx)).map (fun i => (o.id, i)) else none)

/-- IMAGE_RESTORE. -/
def State.restoreAt (s : State) (core idx : Nat) : State :=
  match s.imageFor core idx with
  | some (o, i) => s.restore o i core idx
  | none => s

def execImageRestore (core slot : Nat) (s : State) : Host.Outcome State Fault Refusal := .next (s.restoreAt core slot)

end Sys2Proof.Machine
end

