-- ==== Sys2Proof/Machine/Settle.lean ====
section
/-! DEFINITION. What the settle rule counts (R155, R157, R165): the control transfers, the registers an instruction reads and
writes. -/
namespace Sys2Proof.Machine

/-! ### Control transfers and words -/

/-- The control transfers (R155). -/
def isTransfer : Instr → Bool
  | .add _ _ _ => false
  | .sub _ _ _ => false
  | .and _ _ _ => false
  | .or _ _ _ => false
  | .xor _ _ _ => false
  | .andn _ _ _ => false
  | .sll _ _ _ => false
  | .srl _ _ _ => false
  | .sra _ _ _ => false
  | .slt _ _ _ => false
  | .sltu _ _ _ => false
  | .min _ _ _ => false
  | .max _ _ _ => false
  | .minu _ _ _ => false
  | .maxu _ _ _ => false
  | .mul _ _ _ => false
  | .mulh _ _ _ => false
  | .mulhu _ _ _ => false
  | .div _ _ _ => false
  | .divu _ _ _ => false
  | .rem _ _ _ => false
  | .remu _ _ _ => false
  | .clz _ _ => false
  | .ctz _ _ => false
  | .popc _ _ => false
  | .gpair _ _ _ => false
  | .ghi _ _ => false
  | .addw _ _ _ => false
  | .subw _ _ _ => false
  | .sllw _ _ _ => false
  | .srlw _ _ _ => false
  | .sraw _ _ _ => false
  | .mulw _ _ _ => false
  | .divw _ _ _ => false
  | .divuw _ _ _ => false
  | .remw _ _ _ => false
  | .remuw _ _ _ => false
  | .addi _ _ _ => false
  | .andi _ _ _ => false
  | .ori _ _ _ => false
  | .xori _ _ _ => false
  | .slti _ _ _ => false
  | .sltiu _ _ _ => false
  | .addiw _ _ _ => false
  | .slli _ _ _ => false
  | .srli _ _ _ => false
  | .srai _ _ _ => false
  | .slliw _ _ _ => false
  | .srliw _ _ _ => false
  | .sraiw _ _ _ => false
  | .lui _ _ => false
  | .capc _ _ => false
  | .jal _ _ => true
  | .jalr _ _ _ => true
  | .beq _ _ _ => true
  | .bne _ _ _ => true
  | .blt _ _ _ => true
  | .bge _ _ _ => true
  | .bltu _ _ _ => true
  | .bgeu _ _ _ => true
  | .btag _ _ => true
  | .bntag _ _ => true
  | .lb _ _ _ => false
  | .lh _ _ _ => false
  | .lw _ _ _ => false
  | .ld _ _ _ => false
  | .lbn _ _ _ => false
  | .lhn _ _ _ => false
  | .lwn _ _ _ => false
  | .lc _ _ _ => false
  | .sb _ _ _ => false
  | .sh _ _ _ => false
  | .sw _ _ _ => false
  | .sd _ _ _ => false
  | .sc _ _ _ => false
  | .cgetaddr _ _ => false
  | .cgetbase _ _ => false
  | .cgetlen _ _ => false
  | .cgetperm _ _ => false
  | .cgettype _ _ => false
  | .cgettag _ _ => false
  | .csetaddr _ _ _ => false
  | .cinc _ _ _ => false
  | .csetb _ _ _ => false
  | .csetbx _ _ _ => false
  | .candp _ _ _ => false
  | .cseal _ _ _ => false
  | .cunseal _ _ _ => false
  | .ctestsub _ _ _ => false
  | .cclrtag _ _ => false
  | .cmove _ _ => false
  | .creplen _ _ => false
  | .cinci _ _ _ => false
  | .csetbi _ _ _ => false
  | .amoadd _ _ _ _ _ _ => false
  | .amoand _ _ _ _ _ _ => false
  | .amoor _ _ _ _ _ _ => false
  | .amoxor _ _ _ _ _ _ => false
  | .amomin _ _ _ _ _ _ => false
  | .amomax _ _ _ _ _ _ => false
  | .amominu _ _ _ _ _ _ => false
  | .amomaxu _ _ _ _ _ _ => false
  | .amoswap _ _ _ _ _ _ => false
  | .cas _ _ _ _ _ _ => false
  | .amofadd _ _ _ _ _ => false
  | .lda _ _ _ _ _ => false
  | .stl _ _ _ _ _ => false
  | .fence _ _ => false
  | .barb _ => false
  | .bara _ => false
  | .barw _ => false
  | .vadd _ _ _ _ _ => false
  | .vsub _ _ _ _ _ => false
  | .vmul _ _ _ _ _ => false
  | .vmulh _ _ _ _ _ => false
  | .vmin _ _ _ _ _ => false
  | .vmax _ _ _ _ _ => false
  | .vand _ _ _ _ _ => false
  | .vor _ _ _ _ _ => false
  | .vxor _ _ _ _ _ => false
  | .vsll _ _ _ _ _ => false
  | .vsrl _ _ _ _ _ => false
  | .vsra _ _ _ _ _ => false
  | .vaddsat _ _ _ _ _ => false
  | .vsubsat _ _ _ _ _ => false
  | .vdot4 _ _ _ _ _ => false
  | .vmulw _ _ _ _ _ => false
  | .vnarrow _ _ _ _ _ => false
  | .vsel _ _ _ _ _ => false
  | .vmov _ _ _ _ => false
  | .vidx _ _ _ => false
  | .vfadd _ _ _ _ _ => false
  | .vfsub _ _ _ _ _ => false
  | .vfmul _ _ _ _ _ => false
  | .vfma _ _ _ _ _ => false
  | .vfms _ _ _ _ _ => false
  | .vfnma _ _ _ _ _ => false
  | .vfdiv _ _ _ _ _ => false
  | .vfsqrt _ _ _ _ => false
  | .vfmin _ _ _ _ _ => false
  | .vfmax _ _ _ _ _ => false
  | .vfabs _ _ _ _ => false
  | .vfneg _ _ _ _ => false
  | .vfexp2 _ _ _ _ => false
  | .vfdot2 _ _ _ _ _ => false
  | .vbcast _ _ _ _ => false
  | .vfmas _ _ _ _ => false
  | .vscacc _ _ _ _ _ => false
  | .vins _ _ _ => false
  | .vld _ _ _ _ _ => false
  | .vlds _ _ _ _ _ => false
  | .vldx _ _ _ _ _ => false
  | .vldb _ _ _ _ _ => false
  | .vst _ _ _ _ _ => false
  | .vsts _ _ _ _ _ => false
  | .vstx _ _ _ _ _ => false
  | .vperm _ _ _ _ _ => false
  | .vslideup _ _ _ _ _ => false
  | .vslidedn _ _ _ _ _ => false
  | .vredadd _ _ _ _ _ => false
  | .vredmin _ _ _ _ _ => false
  | .vredmax _ _ _ _ _ => false
  | .vfredadd _ _ _ _ _ => false
  | .vfredmax _ _ _ _ _ => false
  | .vcompress _ _ _ _ => false
  | .vextg _ _ _ _ => false
  | .vcmpeq _ _ _ _ _ => false
  | .vcmplt _ _ _ _ _ => false
  | .vcmple _ _ _ _ _ => false
  | .vfcmpeq _ _ _ _ _ => false
  | .vfcmplt _ _ _ _ _ => false
  | .vfcmple _ _ _ _ _ => false
  | .vfcmpun _ _ _ _ _ => false
  | .pand _ _ _ => false
  | .por _ _ _ => false
  | .pxor _ _ _ => false
  | .pnot _ _ => false
  | .psetn _ _ => false
  | .pcnt _ _ => false
  | .pfirst _ _ => false
  | .vcvt _ _ _ _ _ _ => false
  | .vquant _ _ _ _ _ => false
  | .vdeq _ _ _ _ _ => false
  | .vpack _ _ _ => false
  | .vunpk _ _ _ => false
  | .tld _ _ _ => false
  | .tst _ _ _ => false
  | .tzero _ => false
  | .tzp _ _ => false
  | .tgetzp _ _ _ => false
  | .lease _ _ => false
  | .mwin _ => false
  | .mdrain _ => false
  | .lstat _ _ => false
  | .mma _ _ _ => false
  | .mmaz _ _ _ => false
  | .push _ _ _ => false
  | .movq _ _ => false
  | .qpop _ _ => false
  | .qstat _ _ => false
  | .bindq _ _ => false
  | .tlwait _ _ => false
  | .tltest _ _ _ => false
  | .tlread _ _ => false
  | .evpop _ => false
  | .evwait _ _ => false
  | .evtry _ => false
  | .send _ _ _ => false
  | .sendt _ _ _ _ => false
  | .spawn _ _ _ => false
  | .dlg _ _ _ => false
  | .dlga _ _ _ => false
  | .tyield _ _ => true
  | .tself _ => false
  | .give _ _ _ => false
  | .accept _ _ _ => false
  | .decline _ _ => false
  | .lend _ _ _ => false
  | .returnLoan _ _ => false
  | .reclaim _ _ => false
  | .hquery _ _ _ => false
  | .ownnew _ _ => false
  | .ownend _ => false
  | .renew _ => false
  | .claim _ _ => false
  | .setheir _ _ => false
  | .map _ _ _ => false
  | .unmap _ _ _ => false
  | .setclass _ _ _ => false
  | .revoke _ _ _ => false
  | .scrub _ _ _ => false
  | .share _ _ _ => false
  | .swname _ _ _ _ => false
  | .swhash _ _ _ _ => false
  | .swread _ _ _ _ => false
  | .swref _ _ _ => false
  | .swrel _ _ _ => false
  | .swwalk _ _ _ => false
  | .rdc _ _ => false
  | .wrc _ _ => false
  | .trap _ => true
  | .tret _ => true
  | .lrel => false
  | .mclr => false
  | .dlgret => false
  | .chain => false
  | .replay => false
  | .tend => true
  | .upret => true
  | .brk => true
  | .nop => false
  | .arrayMatrixCommand _ _ => false
  | .loomGrant _ _ => false
  | .loomIdleExpiry _ _ => false
  | .selvageHandlerStart _ _ => false
  | .watchWrite _ _ => false
  | .emulentWrite _ => false
  | .hqctxWrite _ => false
  | .hqcapWrite _ _ => false
  | .assayEndpointHandle _ => false
  | .assayAttestation _ => false
  | .assayKeyImport _ => false
  | .assayPublicKeys _ => false
  | .copy _ => false
  | .copy2d _ => false
  | .fill _ => false
  | .resume _ => false
  | .framecopy _ => false
  | .framecopyPass1 _ => false
  | .framecopyPass2 _ => false
  | .framecopyPass3 _ => false
  | .gather _ => false
  | .allreduce _ _ _ _ => false
  | .redscat _ _ _ _ => false
  | .allgather _ _ _ _ => false
  | .mcast _ _ => false
  | .launch _ => false
  | .launchPlacement _ _ => false
  | .swout _ => false
  | .releaseCommand _ => false
  | .releaseCommandPlacement _ => false
  | .sweep _ => false
  | .nsend _ => false
  | .nrecv _ => false
  | .nwrite _ => false
  | .nread _ => false
  | .packetArrival _ => false
  | .selectiveAckArrival _ _ _ _ _ => false
  | .retransmissionTimeout _ _ _ _ => false
  | .eventRecordPost _ => false
  | .hostPush _ _ _ _ _ _ _ => false
  | .hostQueuePass _ => false
  | .messageArrival _ _ => false
  | .inboxTaskStart _ => false
  | .stewardRequestStart _ => false
  | .dlgReplyArrival _ _ => false
  | .dlgResend _ _ => false
  | .issueCycle _ _ => false
  | .issueGuardExpiry _ _ => false
  | .rotaTurnStart _ => false
  | .sliceEnd _ => false
  | .sliceLimitExpiry _ => false
  | .sliceBudgetEnd _ => false
  | .trapDelivery _ _ => false
  | .imageRestore _ _ => false
  | .writeProtectRetry _ _ => false
  | .uncorrectableError _ _ _ => false
  | .macFailure _ => false
  | .offerDeadline _ => false
  | .termEnd _ => false
  | .ownerLapse _ => false
  | .recoveryBudgetEnd _ => false
  | .recoveryComplete _ => false
  | .registerScanDeadline _ => false
  | .classRebalance _ => false
  | .replyHandler _ => false
  | .loadHandler _ => false
  | .storeHandler _ => false
  | .atomicHandler _ => false
  | .swatchCountHandler _ => false
  | .spawnHandler _ _ _ => false
  | .bulkStoreHandler _ => false
  | .launchHandler _ _ _ _ _ _ => false
  | .unimplementedHandler _ _ _ => false
  | .linkTraining _ _ _ => false
  | .linkNarrowing _ => false
  | .linkDown _ => false
  | .ocsDrainRequest _ => false
  | .drainMarkerReturn _ => false
  | .routeHoldTimeout _ => false
  | .start _ => false
  | .devnumWrite _ => false
  | .reset _ _ => false
  | .clockStep _ => false
  | .spanCapacityStallLimit _ _ => false
  | .tyieldCycleLimit _ _ => false
  | .evwaitCycleLimit _ _ => false
  | .ideStreamKeying _ => false
  | .benchQuarantine _ => false

/-- The instructions that have a word; the others are steps without one (spec/95). -/
def isWord : Instr → Bool
  | .add _ _ _ => true
  | .sub _ _ _ => true
  | .and _ _ _ => true
  | .or _ _ _ => true
  | .xor _ _ _ => true
  | .andn _ _ _ => true
  | .sll _ _ _ => true
  | .srl _ _ _ => true
  | .sra _ _ _ => true
  | .slt _ _ _ => true
  | .sltu _ _ _ => true
  | .min _ _ _ => true
  | .max _ _ _ => true
  | .minu _ _ _ => true
  | .maxu _ _ _ => true
  | .mul _ _ _ => true
  | .mulh _ _ _ => true
  | .mulhu _ _ _ => true
  | .div _ _ _ => true
  | .divu _ _ _ => true
  | .rem _ _ _ => true
  | .remu _ _ _ => true
  | .clz _ _ => true
  | .ctz _ _ => true
  | .popc _ _ => true
  | .gpair _ _ _ => true
  | .ghi _ _ => true
  | .addw _ _ _ => true
  | .subw _ _ _ => true
  | .sllw _ _ _ => true
  | .srlw _ _ _ => true
  | .sraw _ _ _ => true
  | .mulw _ _ _ => true
  | .divw _ _ _ => true
  | .divuw _ _ _ => true
  | .remw _ _ _ => true
  | .remuw _ _ _ => true
  | .addi _ _ _ => true
  | .andi _ _ _ => true
  | .ori _ _ _ => true
  | .xori _ _ _ => true
  | .slti _ _ _ => true
  | .sltiu _ _ _ => true
  | .addiw _ _ _ => true
  | .slli _ _ _ => true
  | .srli _ _ _ => true
  | .srai _ _ _ => true
  | .slliw _ _ _ => true
  | .srliw _ _ _ => true
  | .sraiw _ _ _ => true
  | .lui _ _ => true
  | .capc _ _ => true
  | .jal _ _ => true
  | .jalr _ _ _ => true
  | .beq _ _ _ => true
  | .bne _ _ _ => true
  | .blt _ _ _ => true
  | .bge _ _ _ => true
  | .bltu _ _ _ => true
  | .bgeu _ _ _ => true
  | .btag _ _ => true
  | .bntag _ _ => true
  | .lb _ _ _ => true
  | .lh _ _ _ => true
  | .lw _ _ _ => true
  | .ld _ _ _ => true
  | .lbn _ _ _ => true
  | .lhn _ _ _ => true
  | .lwn _ _ _ => true
  | .lc _ _ _ => true
  | .sb _ _ _ => true
  | .sh _ _ _ => true
  | .sw _ _ _ => true
  | .sd _ _ _ => true
  | .sc _ _ _ => true
  | .cgetaddr _ _ => true
  | .cgetbase _ _ => true
  | .cgetlen _ _ => true
  | .cgetperm _ _ => true
  | .cgettype _ _ => true
  | .cgettag _ _ => true
  | .csetaddr _ _ _ => true
  | .cinc _ _ _ => true
  | .csetb _ _ _ => true
  | .csetbx _ _ _ => true
  | .candp _ _ _ => true
  | .cseal _ _ _ => true
  | .cunseal _ _ _ => true
  | .ctestsub _ _ _ => true
  | .cclrtag _ _ => true
  | .cmove _ _ => true
  | .creplen _ _ => true
  | .cinci _ _ _ => true
  | .csetbi _ _ _ => true
  | .amoadd _ _ _ _ _ _ => true
  | .amoand _ _ _ _ _ _ => true
  | .amoor _ _ _ _ _ _ => true
  | .amoxor _ _ _ _ _ _ => true
  | .amomin _ _ _ _ _ _ => true
  | .amomax _ _ _ _ _ _ => true
  | .amominu _ _ _ _ _ _ => true
  | .amomaxu _ _ _ _ _ _ => true
  | .amoswap _ _ _ _ _ _ => true
  | .cas _ _ _ _ _ _ => true
  | .amofadd _ _ _ _ _ => true
  | .lda _ _ _ _ _ => true
  | .stl _ _ _ _ _ => true
  | .fence _ _ => true
  | .barb _ => true
  | .bara _ => true
  | .barw _ => true
  | .vadd _ _ _ _ _ => true
  | .vsub _ _ _ _ _ => true
  | .vmul _ _ _ _ _ => true
  | .vmulh _ _ _ _ _ => true
  | .vmin _ _ _ _ _ => true
  | .vmax _ _ _ _ _ => true
  | .vand _ _ _ _ _ => true
  | .vor _ _ _ _ _ => true
  | .vxor _ _ _ _ _ => true
  | .vsll _ _ _ _ _ => true
  | .vsrl _ _ _ _ _ => true
  | .vsra _ _ _ _ _ => true
  | .vaddsat _ _ _ _ _ => true
  | .vsubsat _ _ _ _ _ => true
  | .vdot4 _ _ _ _ _ => true
  | .vmulw _ _ _ _ _ => true
  | .vnarrow _ _ _ _ _ => true
  | .vsel _ _ _ _ _ => true
  | .vmov _ _ _ _ => true
  | .vidx _ _ _ => true
  | .vfadd _ _ _ _ _ => true
  | .vfsub _ _ _ _ _ => true
  | .vfmul _ _ _ _ _ => true
  | .vfma _ _ _ _ _ => true
  | .vfms _ _ _ _ _ => true
  | .vfnma _ _ _ _ _ => true
  | .vfdiv _ _ _ _ _ => true
  | .vfsqrt _ _ _ _ => true
  | .vfmin _ _ _ _ _ => true
  | .vfmax _ _ _ _ _ => true
  | .vfabs _ _ _ _ => true
  | .vfneg _ _ _ _ => true
  | .vfexp2 _ _ _ _ => true
  | .vfdot2 _ _ _ _ _ => true
  | .vbcast _ _ _ _ => true
  | .vfmas _ _ _ _ => true
  | .vscacc _ _ _ _ _ => true
  | .vins _ _ _ => true
  | .vld _ _ _ _ _ => true
  | .vlds _ _ _ _ _ => true
  | .vldx _ _ _ _ _ => true
  | .vldb _ _ _ _ _ => true
  | .vst _ _ _ _ _ => true
  | .vsts _ _ _ _ _ => true
  | .vstx _ _ _ _ _ => true
  | .vperm _ _ _ _ _ => true
  | .vslideup _ _ _ _ _ => true
  | .vslidedn _ _ _ _ _ => true
  | .vredadd _ _ _ _ _ => true
  | .vredmin _ _ _ _ _ => true
  | .vredmax _ _ _ _ _ => true
  | .vfredadd _ _ _ _ _ => true
  | .vfredmax _ _ _ _ _ => true
  | .vcompress _ _ _ _ => true
  | .vextg _ _ _ _ => true
  | .vcmpeq _ _ _ _ _ => true
  | .vcmplt _ _ _ _ _ => true
  | .vcmple _ _ _ _ _ => true
  | .vfcmpeq _ _ _ _ _ => true
  | .vfcmplt _ _ _ _ _ => true
  | .vfcmple _ _ _ _ _ => true
  | .vfcmpun _ _ _ _ _ => true
  | .pand _ _ _ => true
  | .por _ _ _ => true
  | .pxor _ _ _ => true
  | .pnot _ _ => true
  | .psetn _ _ => true
  | .pcnt _ _ => true
  | .pfirst _ _ => true
  | .vcvt _ _ _ _ _ _ => true
  | .vquant _ _ _ _ _ => true
  | .vdeq _ _ _ _ _ => true
  | .vpack _ _ _ => true
  | .vunpk _ _ _ => true
  | .tld _ _ _ => true
  | .tst _ _ _ => true
  | .tzero _ => true
  | .tzp _ _ => true
  | .tgetzp _ _ _ => true
  | .lease _ _ => true
  | .mwin _ => true
  | .mdrain _ => true
  | .lstat _ _ => true
  | .mma _ _ _ => true
  | .mmaz _ _ _ => true
  | .push _ _ _ => true
  | .movq _ _ => true
  | .qpop _ _ => true
  | .qstat _ _ => true
  | .bindq _ _ => true
  | .tlwait _ _ => true
  | .tltest _ _ _ => true
  | .tlread _ _ => true
  | .evpop _ => true
  | .evwait _ _ => true
  | .evtry _ => true
  | .send _ _ _ => true
  | .sendt _ _ _ _ => true
  | .spawn _ _ _ => true
  | .dlg _ _ _ => true
  | .dlga _ _ _ => true
  | .tyield _ _ => true
  | .tself _ => true
  | .give _ _ _ => true
  | .accept _ _ _ => true
  | .decline _ _ => true
  | .lend _ _ _ => true
  | .returnLoan _ _ => true
  | .reclaim _ _ => true
  | .hquery _ _ _ => true
  | .ownnew _ _ => true
  | .ownend _ => true
  | .renew _ => true
  | .claim _ _ => true
  | .setheir _ _ => true
  | .map _ _ _ => true
  | .unmap _ _ _ => true
  | .setclass _ _ _ => true
  | .revoke _ _ _ => true
  | .scrub _ _ _ => true
  | .share _ _ _ => true
  | .swname _ _ _ _ => true
  | .swhash _ _ _ _ => true
  | .swread _ _ _ _ => true
  | .swref _ _ _ => true
  | .swrel _ _ _ => true
  | .swwalk _ _ _ => true
  | .rdc _ _ => true
  | .wrc _ _ => true
  | .trap _ => true
  | .tret _ => true
  | .lrel => true
  | .mclr => true
  | .dlgret => true
  | .chain => true
  | .replay => true
  | .tend => true
  | .upret => true
  | .brk => true
  | .nop => true
  | .arrayMatrixCommand _ _ => false
  | .loomGrant _ _ => false
  | .loomIdleExpiry _ _ => false
  | .selvageHandlerStart _ _ => false
  | .watchWrite _ _ => false
  | .emulentWrite _ => false
  | .hqctxWrite _ => false
  | .hqcapWrite _ _ => false
  | .assayEndpointHandle _ => false
  | .assayAttestation _ => false
  | .assayKeyImport _ => false
  | .assayPublicKeys _ => false
  | .copy _ => false
  | .copy2d _ => false
  | .fill _ => false
  | .resume _ => false
  | .framecopy _ => false
  | .framecopyPass1 _ => false
  | .framecopyPass2 _ => false
  | .framecopyPass3 _ => false
  | .gather _ => false
  | .allreduce _ _ _ _ => false
  | .redscat _ _ _ _ => false
  | .allgather _ _ _ _ => false
  | .mcast _ _ => false
  | .launch _ => false
  | .launchPlacement _ _ => false
  | .swout _ => false
  | .releaseCommand _ => false
  | .releaseCommandPlacement _ => false
  | .sweep _ => false
  | .nsend _ => false
  | .nrecv _ => false
  | .nwrite _ => false
  | .nread _ => false
  | .packetArrival _ => false
  | .selectiveAckArrival _ _ _ _ _ => false
  | .retransmissionTimeout _ _ _ _ => false
  | .eventRecordPost _ => false
  | .hostPush _ _ _ _ _ _ _ => false
  | .hostQueuePass _ => false
  | .messageArrival _ _ => false
  | .inboxTaskStart _ => false
  | .stewardRequestStart _ => false
  | .dlgReplyArrival _ _ => false
  | .dlgResend _ _ => false
  | .issueCycle _ _ => false
  | .issueGuardExpiry _ _ => false
  | .rotaTurnStart _ => false
  | .sliceEnd _ => false
  | .sliceLimitExpiry _ => false
  | .sliceBudgetEnd _ => false
  | .trapDelivery _ _ => false
  | .imageRestore _ _ => false
  | .writeProtectRetry _ _ => false
  | .uncorrectableError _ _ _ => false
  | .macFailure _ => false
  | .offerDeadline _ => false
  | .termEnd _ => false
  | .ownerLapse _ => false
  | .recoveryBudgetEnd _ => false
  | .recoveryComplete _ => false
  | .registerScanDeadline _ => false
  | .classRebalance _ => false
  | .replyHandler _ => false
  | .loadHandler _ => false
  | .storeHandler _ => false
  | .atomicHandler _ => false
  | .swatchCountHandler _ => false
  | .spawnHandler _ _ _ => false
  | .bulkStoreHandler _ => false
  | .launchHandler _ _ _ _ _ _ => false
  | .unimplementedHandler _ _ _ => false
  | .linkTraining _ _ _ => false
  | .linkNarrowing _ => false
  | .linkDown _ => false
  | .ocsDrainRequest _ => false
  | .drainMarkerReturn _ => false
  | .routeHoldTimeout _ => false
  | .start _ => false
  | .devnumWrite _ => false
  | .reset _ _ => false
  | .clockStep _ => false
  | .spanCapacityStallLimit _ _ => false
  | .tyieldCycleLimit _ _ => false
  | .evwaitCycleLimit _ _ => false
  | .ideStreamKeying _ => false
  | .benchQuarantine _ => false

/-! ### Registers read and written (R157) -/

/-- The predicate register a field names, when it names one that a write can change. -/
def predReg (p : BitVec 3) : List Reg := if p = 0 then [] else [.p p]
/-- Registers of a quantised group of a grp code (R233, R234). -/
def groupRegs (r : BitVec 2) : Nat := 2 ^ r.toNat
/-- `n` vector registers from `a` on. -/
def vecRange (a : BitVec 5) (n : Nat) : List Reg := (List.range n).map (fun i => .v (a + BitVec.ofNat 5 i))
/-- The vector registers that CHAIN names, as CHAIN3 stands (R259). -/
def chainRegs (s : State) : List Reg :=
  let w := s.myCore.chain[3]
  vecRange (w.extractLsb' 8 5) (w.extractLsb' 0 4).toNat

/-- The registers an instruction reads. A predicated instruction that keeps its inactive elements reads its destination (R165). -/
def instrReads (s : State) : Instr → List Reg
  | .add _ a b => [.g a, .g b]
  | .sub _ a b => [.g a, .g b]
  | .and _ a b => [.g a, .g b]
  | .or _ a b => [.g a, .g b]
  | .xor _ a b => [.g a, .g b]
  | .andn _ a b => [.g a, .g b]
  | .sll _ a b => [.g a, .g b]
  | .srl _ a b => [.g a, .g b]
  | .sra _ a b => [.g a, .g b]
  | .slt _ a b => [.g a, .g b]
  | .sltu _ a b => [.g a, .g b]
  | .min _ a b => [.g a, .g b]
  | .max _ a b => [.g a, .g b]
  | .minu _ a b => [.g a, .g b]
  | .maxu _ a b => [.g a, .g b]
  | .mul _ a b => [.g a, .g b]
  | .mulh _ a b => [.g a, .g b]
  | .mulhu _ a b => [.g a, .g b]
  | .div _ a b => [.g a, .g b]
  | .divu _ a b => [.g a, .g b]
  | .rem _ a b => [.g a, .g b]
  | .remu _ a b => [.g a, .g b]
  | .clz _ a => [.g a]
  | .ctz _ a => [.g a]
  | .popc _ a => [.g a]
  | .gpair _ a b => [.g a, .g b]
  | .ghi _ a => [.g a]
  | .addw _ a b => [.g a, .g b]
  | .subw _ a b => [.g a, .g b]
  | .sllw _ a b => [.g a, .g b]
  | .srlw _ a b => [.g a, .g b]
  | .sraw _ a b => [.g a, .g b]
  | .mulw _ a b => [.g a, .g b]
  | .divw _ a b => [.g a, .g b]
  | .divuw _ a b => [.g a, .g b]
  | .remw _ a b => [.g a, .g b]
  | .remuw _ a b => [.g a, .g b]
  | .addi _ a _ => [.g a]
  | .andi _ a _ => [.g a]
  | .ori _ a _ => [.g a]
  | .xori _ a _ => [.g a]
  | .slti _ a _ => [.g a]
  | .sltiu _ a _ => [.g a]
  | .addiw _ a _ => [.g a]
  | .slli _ a _ => [.g a]
  | .srli _ a _ => [.g a]
  | .srai _ a _ => [.g a]
  | .slliw _ a _ => [.g a]
  | .srliw _ a _ => [.g a]
  | .sraiw _ a _ => [.g a]
  | .lui _ _ => []
  | .capc _ _ => []
  | .jal _ _ => []
  | .jalr _ a _ => [.g a]
  | .beq a b _ => [.g a, .g b]
  | .bne a b _ => [.g a, .g b]
  | .blt a b _ => [.g a, .g b]
  | .bge a b _ => [.g a, .g b]
  | .bltu a b _ => [.g a, .g b]
  | .bgeu a b _ => [.g a, .g b]
  | .btag a _ => [.g a]
  | .bntag a _ => [.g a]
  | .lb _ a _ => [.g a]
  | .lh _ a _ => [.g a]
  | .lw _ a _ => [.g a]
  | .ld _ a _ => [.g a]
  | .lbn _ a _ => [.g a]
  | .lhn _ a _ => [.g a]
  | .lwn _ a _ => [.g a]
  | .lc _ a _ => [.g a]
  | .sb d a _ => [.g d, .g a]
  | .sh d a _ => [.g d, .g a]
  | .sw d a _ => [.g d, .g a]
  | .sd d a _ => [.g d, .g a]
  | .sc d a _ => [.g d, .g a]
  | .cgetaddr _ a => [.g a]
  | .cgetbase _ a => [.g a]
  | .cgetlen _ a => [.g a]
  | .cgetperm _ a => [.g a]
  | .cgettype _ a => [.g a]
  | .cgettag _ a => [.g a]
  | .csetaddr _ a b => [.g a, .g b]
  | .cinc _ a b => [.g a, .g b]
  | .csetb _ a b => [.g a, .g b]
  | .csetbx _ a b => [.g a, .g b]
  | .candp _ a b => [.g a, .g b]
  | .cseal _ a b => [.g a, .g b]
  | .cunseal _ a b => [.g a, .g b]
  | .ctestsub _ a b => [.g a, .g b]
  | .cclrtag _ a => [.g a]
  | .cmove _ a => [.g a]
  | .creplen _ a => [.g a]
  | .cinci _ a _ => [.g a]
  | .csetbi _ a _ => [.g a]
  | .amoadd _ a b _ _ _ => [.g a, .g b]
  | .amoand _ a b _ _ _ => [.g a, .g b]
  | .amoor _ a b _ _ _ => [.g a, .g b]
  | .amoxor _ a b _ _ _ => [.g a, .g b]
  | .amomin _ a b _ _ _ => [.g a, .g b]
  | .amomax _ a b _ _ _ => [.g a, .g b]
  | .amominu _ a b _ _ _ => [.g a, .g b]
  | .amomaxu _ a b _ _ _ => [.g a, .g b]
  | .amoswap _ a b _ _ _ => [.g a, .g b]
  | .cas d a b _ _ _ => [.g d, .g a, .g b]
  | .amofadd _ a b _ _ => [.g a, .g b]
  | .lda _ a _ _ _ => [.g a]
  | .stl d a _ _ _ => [.g d, .g a]
  | .fence _ _ => []
  | .barb _ => []
  | .bara _ => []
  | .barw _ => []
  | .vadd d a b p _ => [.v a, .v b] ++ predReg p ++ (if p = 0 then [] else [.v d])
  | .vsub d a b p _ => [.v a, .v b] ++ predReg p ++ (if p = 0 then [] else [.v d])
  | .vmul d a b p _ => [.v a, .v b] ++ predReg p ++ (if p = 0 then [] else [.v d])
  | .vmulh d a b p _ => [.v a, .v b] ++ predReg p ++ (if p = 0 then [] else [.v d])
  | .vmin d a b p _ => [.v a, .v b] ++ predReg p ++ (if p = 0 then [] else [.v d])
  | .vmax d a b p _ => [.v a, .v b] ++ predReg p ++ (if p = 0 then [] else [.v d])
  | .vand d a b p _ => [.v a, .v b] ++ predReg p ++ (if p = 0 then [] else [.v d])
  | .vor d a b p _ => [.v a, .v b] ++ predReg p ++ (if p = 0 then [] else [.v d])
  | .vxor d a b p _ => [.v a, .v b] ++ predReg p ++ (if p = 0 then [] else [.v d])
  | .vsll d a b p _ => [.v a, .v b] ++ predReg p ++ (if p = 0 then [] else [.v d])
  | .vsrl d a b p _ => [.v a, .v b] ++ predReg p ++ (if p = 0 then [] else [.v d])
  | .vsra d a b p _ => [.v a, .v b] ++ predReg p ++ (if p = 0 then [] else [.v d])
  | .vaddsat d a b p _ => [.v a, .v b] ++ predReg p ++ (if p = 0 then [] else [.v d])
  | .vsubsat d a b p _ => [.v a, .v b] ++ predReg p ++ (if p = 0 then [] else [.v d])
  | .vdot4 d a b p _ => [.v a, .v b, .v d] ++ predReg p
  | .vmulw d a b p _ => [.v a, .v b] ++ predReg p ++ (if p = 0 then [] else [.v d])
  | .vnarrow d a b p _ => [.v a, .v b] ++ predReg p ++ (if p = 0 then [] else [.v d])
  | .vsel _ a b p _ => [.v a, .v b] ++ predReg p
  | .vmov d a p _ => [.v a] ++ predReg p ++ (if p = 0 then [] else [.v d])
  | .vidx d p _ => predReg p ++ (if p = 0 then [] else [.v d])
  | .vfadd d a b p _ => [.v a, .v b, .cr 5] ++ predReg p ++ (if p = 0 then [] else [.v d])
  | .vfsub d a b p _ => [.v a, .v b, .cr 5] ++ predReg p ++ (if p = 0 then [] else [.v d])
  | .vfmul d a b p _ => [.v a, .v b, .cr 5] ++ predReg p ++ (if p = 0 then [] else [.v d])
  | .vfma d a b p _ => [.v a, .v b, .v d, .cr 5] ++ predReg p
  | .vfms d a b p _ => [.v a, .v b, .v d, .cr 5] ++ predReg p
  | .vfnma d a b p _ => [.v a, .v b, .v d, .cr 5] ++ predReg p
  | .vfdiv d a b p _ => [.v a, .v b, .cr 5] ++ predReg p ++ (if p = 0 then [] else [.v d])
  | .vfsqrt d a p _ => [.v a, .cr 5] ++ predReg p ++ (if p = 0 then [] else [.v d])
  | .vfmin d a b p _ => [.v a, .v b, .cr 5] ++ predReg p ++ (if p = 0 then [] else [.v d])
  | .vfmax d a b p _ => [.v a, .v b, .cr 5] ++ predReg p ++ (if p = 0 then [] else [.v d])
  | .vfabs d a p _ => [.v a, .cr 5] ++ predReg p ++ (if p = 0 then [] else [.v d])
  | .vfneg d a p _ => [.v a, .cr 5] ++ predReg p ++ (if p = 0 then [] else [.v d])
  | .vfexp2 d a p _ => [.v a, .cr 5] ++ predReg p ++ (if p = 0 then [] else [.v d])
  | .vfdot2 d a b p _ => [.v a, .v b, .v d, .cr 5] ++ predReg p
  | .vbcast d _ g p => [.g g] ++ predReg p ++ (if p = 0 then [] else [.v d])
  | .vfmas d a g p => [.v a, .v d, .g g, .cr 5] ++ predReg p
  | .vscacc d a b g p => [.v a, .v (a + 1), .v b, .v d, .g g] ++ predReg p
  | .vins d _ g => [.v d, .g g]
  | .vld d a b p _ => [.g a, .g b] ++ predReg p ++ (if p = 0 then [] else [.v d])
  | .vlds d a b p _ => [.g a, .g b] ++ predReg p ++ (if p = 0 then [] else [.v d])
  | .vldx d a b p _ => [.g a, .g b, .v (d + 1)] ++ predReg p ++ (if p = 0 then [] else [.v d])
  | .vldb d a b p _ => [.g a, .g b] ++ predReg p ++ (if p = 0 then [] else [.v d])
  | .vst d a b p _ => [.g a, .g b, .v d] ++ predReg p
  | .vsts d a b p _ => [.g a, .g b, .v d] ++ predReg p
  | .vstx d a b p _ => [.g a, .g b, .v d, .v (d + 1)] ++ predReg p
  | .vperm d a b p _ => [.v a, .v b] ++ predReg p ++ (if p = 0 then [] else [.v d])
  | .vslideup d a b p _ => [.v a, .v b] ++ predReg p ++ (if p = 0 then [] else [.v d])
  | .vslidedn d a b p _ => [.v a, .v b] ++ predReg p ++ (if p = 0 then [] else [.v d])
  | .vredadd _ a b p _ => [.v a, .v b] ++ predReg p
  | .vredmin _ a b p _ => [.v a, .v b] ++ predReg p
  | .vredmax _ a b p _ => [.v a, .v b] ++ predReg p
  | .vfredadd _ a b p _ => [.v a, .v b, .cr 5] ++ predReg p
  | .vfredmax _ a b p _ => [.v a, .v b] ++ predReg p
  | .vcompress _ a p _ => [.v a] ++ predReg p
  | .vextg _ a _ _ => [.v a]
  | .vcmpeq d a b p _ => [.v a, .v b] ++ predReg p ++ (if p = 0 then [] else [.p d])
  | .vcmplt d a b p _ => [.v a, .v b] ++ predReg p ++ (if p = 0 then [] else [.p d])
  | .vcmple d a b p _ => [.v a, .v b] ++ predReg p ++ (if p = 0 then [] else [.p d])
  | .vfcmpeq d a b p _ => [.v a, .v b] ++ predReg p ++ (if p = 0 then [] else [.p d])
  | .vfcmplt d a b p _ => [.v a, .v b] ++ predReg p ++ (if p = 0 then [] else [.p d])
  | .vfcmple d a b p _ => [.v a, .v b] ++ predReg p ++ (if p = 0 then [] else [.p d])
  | .vfcmpun d a b p _ => [.v a, .v b] ++ predReg p ++ (if p = 0 then [] else [.p d])
  | .pand _ a b => [.p a, .p b]
  | .por _ a b => [.p a, .p b]
  | .pxor _ a b => [.p a, .p b]
  | .pnot _ a => [.p a]
  | .psetn _ g => [.g g]
  | .pcnt _ a => [.p a]
  | .pfirst _ a => [.p a]
  | .vcvt _ a _ _ r _ => [.v a] ++ (if r = 4 then [.cr 5] else [])
  | .vquant _ a _ r _ => vecRange a (groupRegs r)
  | .vdeq _ a g _ _ => [.v a, .g g]
  | .vpack _ a _ => [.v a]
  | .vunpk _ a _ => [.v a]
  | .tld d x y => [.g x, .g y, .cr (0x100 + d.setWidth 12)]
  | .tst a x y => [.g x, .g y, .t a, .cr (0x100 + a.setWidth 12)]
  | .tzero _ => []
  | .tzp d x => [.g x, .t d]
  | .tgetzp a _ y => [.t a, .g y]
  | .lease x y => [.g x, .g y, .cr 0x108, .cr 1, .cr 2]
  | .mwin x => [.g x]
  | .mdrain x => [.g x]
  | .lstat _ y => [.g y]
  | .mma a b _ => [.t a, .t b, .cr (0x100 + a.setWidth 12), .cr (0x100 + b.setWidth 12)]
  | .mmaz a b _ => [.t a, .t b, .cr (0x100 + a.setWidth 12), .cr (0x100 + b.setWidth 12)]
  | .push _ a _ => [.g a, .g (a + 1), .g (a + 2), .g (a + 3)]
  | .movq b _ => [.g b]
  | .qpop _ _ => []
  | .qstat _ _ => []
  | .bindq a _ => [.g a]
  | .tlwait b _ => [.g b]
  | .tltest _ b _ => [.g b]
  | .tlread _ _ => []
  | .evpop _ => []
  | .evwait _ a => [.g a]
  | .evtry _ => []
  | .send _ a b => [.g a, .g b, .g 4, .g 5, .g 6, .g 7]
  | .sendt d a b _ => [.g d, .g a, .g b, .g 4, .g 5, .g 6, .g 7]
  | .spawn _ a b => [.g a, .g b, .g 4, .g 5, .g 6, .g 7]
  | .dlg _ a b => [.g a, .g b, .g 4, .g 5, .g 6, .g 7]
  | .dlga _ a b => [.g a, .g b, .g 4, .g 5, .g 6, .g 7]
  | .tyield _ a => [.g a]
  | .tself _ => []
  | .give _ a b => [.g a, .g b]
  | .accept _ a b => [.g a, .g b]
  | .decline _ a => [.g a]
  | .lend _ a b => [.g a, .g b]
  | .returnLoan _ a => [.g a]
  | .reclaim _ a => [.g a]
  | .hquery _ a _ => [.g a]
  | .ownnew _ a => [.g a]
  | .ownend _ => []
  | .renew _ => []
  | .claim _ a => [.g a]
  | .setheir _ a => [.g a]
  | .map _ a b => [.g a, .g b]
  | .unmap _ a b => [.g a, .g b]
  | .setclass _ a b => [.g a, .g b]
  | .revoke _ a b => [.g a, .g b]
  | .scrub _ a b => [.g a, .g b]
  | .share _ a b => [.g a, .g b]
  | .swname _ a b _ => [.g a, .g b]
  | .swhash _ a b _ => [.g a, .g b]
  | .swread _ a b _ => [.g a, .g b]
  | .swref _ a b => [.g a, .g b]
  | .swrel _ a b => [.g a, .g b]
  | .swwalk d a b => [.g d, .g a, .g b]
  | .rdc _ n => [.cr n]
  | .wrc a _ => [.g a]
  | .trap a => [.g a]
  | .tret _ => []
  | .lrel => []
  | .mclr => []
  | .dlgret => []
  | .chain => chainRegs s ++ [.cr 0x110, .cr 0x111, .cr 0x112, .cr 0x113]
  | .replay => []
  | .tend => []
  | .upret => []
  | .brk => []
  | .nop => []
  | .arrayMatrixCommand _ _ => []
  | .loomGrant _ _ => []
  | .loomIdleExpiry _ _ => []
  | .selvageHandlerStart _ _ => []
  | .watchWrite _ _ => []
  | .emulentWrite _ => []
  | .hqctxWrite _ => []
  | .hqcapWrite _ _ => []
  | .assayEndpointHandle _ => []
  | .assayAttestation _ => []
  | .assayKeyImport _ => []
  | .assayPublicKeys _ => []
  | .copy _ => []
  | .copy2d _ => []
  | .fill _ => []
  | .resume _ => []
  | .framecopy _ => []
  | .framecopyPass1 _ => []
  | .framecopyPass2 _ => []
  | .framecopyPass3 _ => []
  | .gather _ => []
  | .allreduce _ _ _ _ => []
  | .redscat _ _ _ _ => []
  | .allgather _ _ _ _ => []
  | .mcast _ _ => []
  | .launch _ => []
  | .launchPlacement _ _ => []
  | .swout _ => []
  | .releaseCommand _ => []
  | .releaseCommandPlacement _ => []
  | .sweep _ => []
  | .nsend _ => []
  | .nrecv _ => []
  | .nwrite _ => []
  | .nread _ => []
  | .packetArrival _ => []
  | .selectiveAckArrival _ _ _ _ _ => []
  | .retransmissionTimeout _ _ _ _ => []
  | .eventRecordPost _ => []
  | .hostPush _ _ _ _ _ _ _ => []
  | .hostQueuePass _ => []
  | .messageArrival _ _ => []
  | .inboxTaskStart _ => []
  | .stewardRequestStart _ => []
  | .dlgReplyArrival _ _ => []
  | .dlgResend _ _ => []
  | .issueCycle _ _ => []
  | .issueGuardExpiry _ _ => []
  | .rotaTurnStart _ => []
  | .sliceEnd _ => []
  | .sliceLimitExpiry _ => []
  | .sliceBudgetEnd _ => []
  | .trapDelivery _ _ => []
  | .imageRestore _ _ => []
  | .writeProtectRetry _ _ => []
  | .uncorrectableError _ _ _ => []
  | .macFailure _ => []
  | .offerDeadline _ => []
  | .termEnd _ => []
  | .ownerLapse _ => []
  | .recoveryBudgetEnd _ => []
  | .recoveryComplete _ => []
  | .registerScanDeadline _ => []
  | .classRebalance _ => []
  | .replyHandler _ => []
  | .loadHandler _ => []
  | .storeHandler _ => []
  | .atomicHandler _ => []
  | .swatchCountHandler _ => []
  | .spawnHandler _ _ _ => []
  | .bulkStoreHandler _ => []
  | .launchHandler _ _ _ _ _ _ => []
  | .unimplementedHandler _ _ _ => []
  | .linkTraining _ _ _ => []
  | .linkNarrowing _ => []
  | .linkDown _ => []
  | .ocsDrainRequest _ => []
  | .drainMarkerReturn _ => []
  | .routeHoldTimeout _ => []
  | .start _ => []
  | .devnumWrite _ => []
  | .reset _ _ => []
  | .clockStep _ => []
  | .spanCapacityStallLimit _ _ => []
  | .tyieldCycleLimit _ _ => []
  | .evwaitCycleLimit _ _ => []
  | .ideStreamKeying _ => []
  | .benchQuarantine _ => []

/-- The registers an instruction writes. -/
def instrWrites (s : State) : Instr → List Reg
  | .add d _ _ => [.g d]
  | .sub d _ _ => [.g d]
  | .and d _ _ => [.g d]
  | .or d _ _ => [.g d]
  | .xor d _ _ => [.g d]
  | .andn d _ _ => [.g d]
  | .sll d _ _ => [.g d]
  | .srl d _ _ => [.g d]
  | .sra d _ _ => [.g d]
  | .slt d _ _ => [.g d]
  | .sltu d _ _ => [.g d]
  | .min d _ _ => [.g d]
  | .max d _ _ => [.g d]
  | .minu d _ _ => [.g d]
  | .maxu d _ _ => [.g d]
  | .mul d _ _ => [.g d]
  | .mulh d _ _ => [.g d]
  | .mulhu d _ _ => [.g d]
  | .div d _ _ => [.g d]
  | .divu d _ _ => [.g d]
  | .rem d _ _ => [.g d]
  | .remu d _ _ => [.g d]
  | .clz d _ => [.g d]
  | .ctz d _ => [.g d]
  | .popc d _ => [.g d]
  | .gpair d _ _ => [.g d]
  | .ghi d _ => [.g d]
  | .addw d _ _ => [.g d]
  | .subw d _ _ => [.g d]
  | .sllw d _ _ => [.g d]
  | .srlw d _ _ => [.g d]
  | .sraw d _ _ => [.g d]
  | .mulw d _ _ => [.g d]
  | .divw d _ _ => [.g d]
  | .divuw d _ _ => [.g d]
  | .remw d _ _ => [.g d]
  | .remuw d _ _ => [.g d]
  | .addi d _ _ => [.g d]
  | .andi d _ _ => [.g d]
  | .ori d _ _ => [.g d]
  | .xori d _ _ => [.g d]
  | .slti d _ _ => [.g d]
  | .sltiu d _ _ => [.g d]
  | .addiw d _ _ => [.g d]
  | .slli d _ _ => [.g d]
  | .srli d _ _ => [.g d]
  | .srai d _ _ => [.g d]
  | .slliw d _ _ => [.g d]
  | .srliw d _ _ => [.g d]
  | .sraiw d _ _ => [.g d]
  | .lui d _ => [.g d]
  | .capc d _ => [.g d]
  | .jal d _ => [.g d]
  | .jalr d _ _ => [.g d]
  | .beq _ _ _ => []
  | .bne _ _ _ => []
  | .blt _ _ _ => []
  | .bge _ _ _ => []
  | .bltu _ _ _ => []
  | .bgeu _ _ _ => []
  | .btag _ _ => []
  | .bntag _ _ => []
  | .lb d _ _ => [.g d]
  | .lh d _ _ => [.g d]
  | .lw d _ _ => [.g d]
  | .ld d _ _ => [.g d]
  | .lbn d _ _ => [.g d]
  | .lhn d _ _ => [.g d]
  | .lwn d _ _ => [.g d]
  | .lc d _ _ => [.g d]
  | .sb _ _ _ => []
  | .sh _ _ _ => []
  | .sw _ _ _ => []
  | .sd _ _ _ => []
  | .sc _ _ _ => []
  | .cgetaddr d _ => [.g d]
  | .cgetbase d _ => [.g d]
  | .cgetlen d _ => [.g d]
  | .cgetperm d _ => [.g d]
  | .cgettype d _ => [.g d]
  | .cgettag d _ => [.g d]
  | .csetaddr d _ _ => [.g d]
  | .cinc d _ _ => [.g d]
  | .csetb d _ _ => [.g d]
  | .csetbx d _ _ => [.g d]
  | .candp d _ _ => [.g d]
  | .cseal d _ _ => [.g d]
  | .cunseal d _ _ => [.g d]
  | .ctestsub d _ _ => [.g d]
  | .cclrtag d _ => [.g d]
  | .cmove d _ => [.g d]
  | .creplen d _ => [.g d]
  | .cinci d _ _ => [.g d]
  | .csetbi d _ _ => [.g d]
  | .amoadd d _ _ _ _ _ => [.g d]
  | .amoand d _ _ _ _ _ => [.g d]
  | .amoor d _ _ _ _ _ => [.g d]
  | .amoxor d _ _ _ _ _ => [.g d]
  | .amomin d _ _ _ _ _ => [.g d]
  | .amomax d _ _ _ _ _ => [.g d]
  | .amominu d _ _ _ _ _ => [.g d]
  | .amomaxu d _ _ _ _ _ => [.g d]
  | .amoswap d _ _ _ _ _ => [.g d]
  | .cas d _ _ _ _ _ => [.g d]
  | .amofadd d _ _ _ _ => [.g d]
  | .lda d _ _ _ _ => [.g d]
  | .stl _ _ _ _ _ => []
  | .fence _ _ => []
  | .barb _ => []
  | .bara _ => []
  | .barw _ => []
  | .vadd d _ _ _ _ => [.v d]
  | .vsub d _ _ _ _ => [.v d]
  | .vmul d _ _ _ _ => [.v d]
  | .vmulh d _ _ _ _ => [.v d]
  | .vmin d _ _ _ _ => [.v d]
  | .vmax d _ _ _ _ => [.v d]
  | .vand d _ _ _ _ => [.v d]
  | .vor d _ _ _ _ => [.v d]
  | .vxor d _ _ _ _ => [.v d]
  | .vsll d _ _ _ _ => [.v d]
  | .vsrl d _ _ _ _ => [.v d]
  | .vsra d _ _ _ _ => [.v d]
  | .vaddsat d _ _ _ _ => [.v d]
  | .vsubsat d _ _ _ _ => [.v d]
  | .vdot4 d _ _ _ _ => [.v d]
  | .vmulw d _ _ _ _ => [.v d]
  | .vnarrow d _ _ _ _ => [.v d]
  | .vsel d _ _ _ _ => [.v d]
  | .vmov d _ _ _ => [.v d]
  | .vidx d _ _ => [.v d]
  | .vfadd d _ _ _ _ => [.v d]
  | .vfsub d _ _ _ _ => [.v d]
  | .vfmul d _ _ _ _ => [.v d]
  | .vfma d _ _ _ _ => [.v d]
  | .vfms d _ _ _ _ => [.v d]
  | .vfnma d _ _ _ _ => [.v d]
  | .vfdiv d _ _ _ _ => [.v d]
  | .vfsqrt d _ _ _ => [.v d]
  | .vfmin d _ _ _ _ => [.v d]
  | .vfmax d _ _ _ _ => [.v d]
  | .vfabs d _ _ _ => [.v d]
  | .vfneg d _ _ _ => [.v d]
  | .vfexp2 d _ _ _ => [.v d]
  | .vfdot2 d _ _ _ _ => [.v d]
  | .vbcast d _ _ _ => [.v d]
  | .vfmas d _ _ _ => [.v d]
  | .vscacc d _ _ _ _ => [.v d]
  | .vins d _ _ => [.v d]
  | .vld d _ _ _ _ => [.v d]
  | .vlds d _ _ _ _ => [.v d]
  | .vldx d _ _ _ _ => [.v d]
  | .vldb d _ _ _ _ => [.v d]
  | .vst _ _ _ _ _ => []
  | .vsts _ _ _ _ _ => []
  | .vstx _ _ _ _ _ => []
  | .vperm d _ _ _ _ => [.v d]
  | .vslideup d _ _ _ _ => [.v d]
  | .vslidedn d _ _ _ _ => [.v d]
  | .vredadd d _ _ _ _ => [.v d]
  | .vredmin d _ _ _ _ => [.v d]
  | .vredmax d _ _ _ _ => [.v d]
  | .vfredadd d _ _ _ _ => [.v d]
  | .vfredmax d _ _ _ _ => [.v d]
  | .vcompress d _ _ _ => [.v d]
  | .vextg d _ _ _ => [.g d]
  | .vcmpeq d _ _ _ _ => [.p d]
  | .vcmplt d _ _ _ _ => [.p d]
  | .vcmple d _ _ _ _ => [.p d]
  | .vfcmpeq d _ _ _ _ => [.p d]
  | .vfcmplt d _ _ _ _ => [.p d]
  | .vfcmple d _ _ _ _ => [.p d]
  | .vfcmpun d _ _ _ _ => [.p d]
  | .pand d _ _ => [.p d]
  | .por d _ _ => [.p d]
  | .pxor d _ _ => [.p d]
  | .pnot d _ => [.p d]
  | .psetn d _ => [.p d]
  | .pcnt d _ => [.g d]
  | .pfirst d _ => [.g d]
  | .vcvt d _ _ _ _ _ => [.v d]
  | .vquant d _ g _ _ => [.v d, .g g, .p 7]
  | .vdeq d _ _ r _ => vecRange d (groupRegs r)
  | .vpack d _ _ => [.v d]
  | .vunpk d _ _ => [.v d]
  | .tld d _ _ => [.t d]
  | .tst _ _ _ => []
  | .tzero d => [.t d]
  | .tzp d _ => [.t d]
  | .tgetzp _ x _ => [.g x]
  | .lease x _ => [.g x]
  | .mwin _ => []
  | .mdrain _ => []
  | .lstat x _ => [.g x]
  | .mma _ _ _ => []
  | .mmaz _ _ _ => []
  | .push d _ _ => [.g d]
  | .movq _ _ => []
  | .qpop d _ => [.g d]
  | .qstat d _ => [.g d]
  | .bindq _ _ => []
  | .tlwait _ _ => []
  | .tltest d _ _ => [.g d]
  | .tlread d _ => [.g d]
  | .evpop d => [.g d, .g (d + 1)]
  | .evwait d _ => [.g d, .g (d + 1)]
  | .evtry d => [.g d]
  | .send d _ _ => [.g d, .g 4, .g 5, .g 6, .g 7]
  | .sendt d _ _ _ => [.g d, .g 4, .g 5, .g 6, .g 7]
  | .spawn d _ _ => [.g d]
  | .dlg d _ _ => [.g d, .g 4, .g 5, .g 6, .g 7]
  | .dlga d _ _ => [.g d, .g 4, .g 5, .g 6, .g 7]
  | .tyield d _ => [.g d]
  | .tself d => [.g d]
  | .give d _ _ => [.g d]
  | .accept d _ _ => [.g d]
  | .decline d _ => [.g d]
  | .lend d _ _ => [.g d]
  | .returnLoan d _ => [.g d]
  | .reclaim d _ => [.g d]
  | .hquery d _ b => [.g d, .g b]
  | .ownnew d _ => [.g d]
  | .ownend d => [.g d]
  | .renew d => [.g d]
  | .claim d _ => [.g d]
  | .setheir d _ => [.g d]
  | .map d _ _ => [.g d]
  | .unmap d _ _ => [.g d]
  | .setclass d _ _ => [.g d]
  | .revoke d _ _ => [.g d]
  | .scrub d _ _ => [.g d]
  | .share d _ _ => [.g d]
  | .swname d _ _ _ => [.g d]
  | .swhash d _ _ _ => [.g d]
  | .swread d _ _ v => [.g d, .v v, .v (v + 1)]
  | .swref d _ _ => [.g d]
  | .swrel d _ _ => [.g d]
  | .swwalk d _ _ => [.g d]
  | .rdc d _ => [.g d]
  | .wrc _ n => [.cr n]
  | .trap _ => []
  | .tret _ => []
  | .lrel => []
  | .mclr => []
  | .dlgret => []
  | .chain => chainRegs s
  | .replay => []
  | .tend => []
  | .upret => []
  | .brk => []
  | .nop => []
  | .arrayMatrixCommand _ _ => []
  | .loomGrant _ _ => []
  | .loomIdleExpiry _ _ => []
  | .selvageHandlerStart _ _ => []
  | .watchWrite _ _ => []
  | .emulentWrite _ => []
  | .hqctxWrite _ => []
  | .hqcapWrite _ _ => []
  | .assayEndpointHandle _ => []
  | .assayAttestation _ => []
  | .assayKeyImport _ => []
  | .assayPublicKeys _ => []
  | .copy _ => []
  | .copy2d _ => []
  | .fill _ => []
  | .resume _ => []
  | .framecopy _ => []
  | .framecopyPass1 _ => []
  | .framecopyPass2 _ => []
  | .framecopyPass3 _ => []
  | .gather _ => []
  | .allreduce _ _ _ _ => []
  | .redscat _ _ _ _ => []
  | .allgather _ _ _ _ => []
  | .mcast _ _ => []
  | .launch _ => []
  | .launchPlacement _ _ => []
  | .swout _ => []
  | .releaseCommand _ => []
  | .releaseCommandPlacement _ => []
  | .sweep _ => []
  | .nsend _ => []
  | .nrecv _ => []
  | .nwrite _ => []
  | .nread _ => []
  | .packetArrival _ => []
  | .selectiveAckArrival _ _ _ _ _ => []
  | .retransmissionTimeout _ _ _ _ => []
  | .eventRecordPost _ => []
  | .hostPush _ _ _ _ _ _ _ => []
  | .hostQueuePass _ => []
  | .messageArrival _ _ => []
  | .inboxTaskStart _ => []
  | .stewardRequestStart _ => []
  | .dlgReplyArrival _ _ => []
  | .dlgResend _ _ => []
  | .issueCycle _ _ => []
  | .issueGuardExpiry _ _ => []
  | .rotaTurnStart _ => []
  | .sliceEnd _ => []
  | .sliceLimitExpiry _ => []
  | .sliceBudgetEnd _ => []
  | .trapDelivery _ _ => []
  | .imageRestore _ _ => []
  | .writeProtectRetry _ _ => []
  | .uncorrectableError _ _ _ => []
  | .macFailure _ => []
  | .offerDeadline _ => []
  | .termEnd _ => []
  | .ownerLapse _ => []
  | .recoveryBudgetEnd _ => []
  | .recoveryComplete _ => []
  | .registerScanDeadline _ => []
  | .classRebalance _ => []
  | .replyHandler _ => []
  | .loadHandler _ => []
  | .storeHandler _ => []
  | .atomicHandler _ => []
  | .swatchCountHandler _ => []
  | .spawnHandler _ _ _ => []
  | .bulkStoreHandler _ => []
  | .launchHandler _ _ _ _ _ _ => []
  | .unimplementedHandler _ _ _ => []
  | .linkTraining _ _ _ => []
  | .linkNarrowing _ => []
  | .linkDown _ => []
  | .ocsDrainRequest _ => []
  | .drainMarkerReturn _ => []
  | .routeHoldTimeout _ => []
  | .start _ => []
  | .devnumWrite _ => []
  | .reset _ _ => []
  | .clockStep _ => []
  | .spanCapacityStallLimit _ _ => []
  | .tyieldCycleLimit _ _ => []
  | .evwaitCycleLimit _ _ => []
  | .ideStreamKeying _ => []
  | .benchQuarantine _ => []

/-- Registers the settle rule does not count: g0, p0 and FLAGS (R157). -/
def Reg.counts : Reg → Bool
  | .g n => n != 0
  | .v _ => true
  | .p n => n != 0
  | .t _ => true
  | .cr n => n != 4

def readsOf (s : State) (i : Instr) : List Reg := (instrReads s i).filter Reg.counts
def writesOf (s : State) (i : Instr) : List Reg := (instrWrites s i).filter Reg.counts

end Sys2Proof.Machine
end

