-- ==== Sys2Proof/Machine/Issue.lean ====
section
/-! DEFINITION. How a core picks a slot (R263), and how a slot issues a word: windows and settle points (R154 to R161), the fetch
(R19, R189, R371), hazards (R157, R158, R160), delivery of what is pending (R357, R371). -/
namespace Sys2Proof.Machine

/-! ### Readiness (R263) -/

/-- Whether what a chain waits for has come (R259). -/
def State.chainReady (s : State) : Bool :=
  let k := s.myCore.chainSetup
  match s.self.role with
  | .launch id lcn stage =>
    match s.launch id with
    | none => true
    | some l =>
      match s.predSide l stage lcn k.pred, s.succSide l stage lcn k.succ with
      | .ready, .ready => true
      | .never, _ => true
      | _, .never => true
      | _, _ => false
  | _ => true

/-- Whether the reason of a park is gone, so that the instruction may be executed again. -/
def State.wakes (s : State) (x : Slot) : Bool :=
  match x.park with
  | .no => true
  | .barrier k g =>
    match x.launchTask with
    | some (id, _, _) => decide (g < (s.barrier id x.homeBench k).gen)
    | none => true
  | .timeline ci v => decide (v ≤ (s.ctx ci).counter) || !s.uses x.owner (mkRes 6 ci)
  | .stage true =>
    match s.stageOf x.q6 with
    | some q => !q.items.isEmpty || q.producerEnded
    | none => true
  | .stage false =>
    match s.stageOf x.q7 with
    | some q => decide (q.items.length < 16)
    | none => true
  | .result k =>
    match (s.core x.core).bound k with
    | some (ci, _) => !((s.core x.core).fifo k).isEmpty || !(s.ctx ci).owesResult x.core k ((s.core x.core).binding k)
    | none => true
  | .event _ limit => !(s.core x.core).events.isEmpty || s.past limit || !s.uses x.owner (mkRes 10 x.core)
  | .yield _ limit cause => cause != 0 || s.past limit
  | .reply => x.sent.all (fun n => x.replies.any (fun r => r.txn == n))
  | .delegate => x.delegated.isNone && decide ((s.core x.core).replyEntries.length < 8)
  | .settle => x.delegated.isNone
  | .grant _ _ => (s.core x.core).lease.state != 1
  | .loom =>
    let c := s.core x.core
    c.lease.state != 1 && !(c.lease.state == 2 && decide (4 ≤ (s.loom (coreBench x.core) c.loomIdx).queue.length))
  | .tile t => !s.tileLocked x.core t && x.sent.all (fun n => x.replies.any (fun r => r.txn == n))
  | .chain => (s.switchTo x.core x.idx).chainReady
  | .record line since _ _ => decide (65536 ≤ s.cycle - since) || (decide ((s.holdersOf line).length < 4) && !s.fillFull (line * 256))
  | .protect due => decide (due ≤ s.cycle)
  | .migrate a => !s.isFinalPass a.toNat
  | .page a => !s.isAbsent a.toNat || (s.faultRoom x.owner && !s.isLost a.toNat)
  | .ctxRoom ci => decide ((s.ctx ci).waiting.length < 32)
  | .inboxRoom =>
    match (s.core x.core).overflowed with
    | (m, _) :: _ => (s.core x.core).hasRoom m
    | [] => true
  | .hostqRoom q => (s.hostq q).blocks.isEmpty
  | .change id => (s.entry id).recovery.isNone
  | .unit id => (s.entry id).recovery.isNone || (s.entry id).state == .recalling
  | .claim _ passed => passed.isSome

/-- A slot whose next instruction may issue. -/
def State.ready (s : State) (x : Slot) : Bool :=
  x.running && !s.quarantined.contains (coreBench x.core) && s.wakes x

/-- The slots of a core in the order of the round robin: first the one after the last that issued. -/
def Core.order (c : Core) : List Nat := (List.range 10).map (fun k => (c.lastIssued + 1 + k) % 10)

/-- The slot that a core issues from: a class-4 slot held up for 7 cycles, else the first of the highest class. -/
def State.pick (s : State) (core : Nat) : Option Nat :=
  let l := (s.core core).order.filter (fun i => s.ready (s.slot core i))
  match l.find? (fun i => (s.slot core i).cls == 4 && decide (7 ≤ (s.slot core i).starved)) with
  | some i => some i
  | none => ([1, 2, 3, 4] : List Nat).findSome? (fun k => l.find? (fun i => (s.slot core i).cls == k))

/-- A slot is picked: it is the issuing slot, and issues next; its core issues no more in this cycle. -/
def State.pickSlot (s : State) (core idx : Nat) : State :=
  let t := { (s.switchTo core idx) with picked := true }
  (t.putCore { t.core core with lastIssued := idx, nextAt := s.cycle + 1 }).setSelf (fun x => { x with starved := 0 })

/-- Whether a core may still issue in this cycle. -/
def State.mayIssue (s : State) (core : Nat) : Bool := decide ((s.core core).nextAt ≤ s.cycle)

/-- What the end of a cycle adds to the count of a slot: a class-4 slot that was ready and did not issue in it. -/
def State.waitCount (s : State) (x : Slot) : Slot :=
  let c := s.core x.core
  if x.cls == 4 && s.ready x && !(c.nextAt == s.cycle + 1 && c.lastIssued == x.idx) then { x with starved := x.starved + 1 }
  else { x with starved := 0 }

/-- A cycle passes; TIMEUS follows the clock (R412). -/
def State.tick (s : State) : State :=
  { s with
    cycle := s.cycle + 1, us := s.us + (s.usFrac + 1) / s.clock, usFrac := (s.usFrac + 1) % s.clock
    self := s.waitCount s.self, others := s.others.map s.waitCount }

/-- How far a core lies after the issuing slot's, counting upward. -/
def State.coreDist (s : State) (core : Nat) : Nat := (core + Config.cores - 1 - s.self.core) % Config.cores

/-- The next core that may issue in this cycle and has a ready slot. -/
def State.nextCore (s : State) : Option Nat :=
  (s.slots.filter (fun x => s.mayIssue x.core && s.ready x)).foldl (fun b x =>
    match b with
    | none => some x.core
    | some c => if s.coreDist x.core < s.coreDist c then some x.core else b) none

/-- Up to `n` cycles pass: a cycle ends when every core that can issue in it has issued. -/
def State.pass (s : State) : Nat → State
  | 0 => s
  | n + 1 => if s.nextCore.isSome then s else s.tick.pass n

/-- ISSUE_CYCLE: cycles of a core, in the last of which it picks a slot. -/
def execIssueCycle (core cycles : Nat) (s : State) : Host.Outcome State Fault Refusal :=
  let t := s.pass cycles
  match (if t.mayIssue core then t.pick core else none) with
  | some i => .next (t.pickSlot core i)
  | none => .next t

/-- ISSUE_GUARD_EXPIRY: a class-4 slot that has been ready for 7 cycles is picked. -/
def execIssueGuardExpiry (core slot : Nat) (s : State) : Host.Outcome State Fault Refusal :=
  let x := s.slot core slot
  if s.mayIssue core && s.ready x && x.cls == 4 && decide (7 ≤ x.starved) then .next (s.pickSlot core slot) else .next s

/-- The next core picks a slot: the state in which that slot issues. -/
def State.nextIssuer (s : State) : Option State :=
  match s.nextCore with
  | none => none
  | some c => (s.pick c).map (fun i => { (s.pickSlot c i) with picked := false })

/-! ### Windows (R155, R159) -/

/-- The next word begins a window whatever it is: it follows a control transfer, or it is the 33rd. -/
def Slot.mustStart (x : Slot) : Bool := (x.afterTransfer && !x.replay) || decide (32 ≤ x.pos)

/-- Words of the window whose done bit is set are passed over. -/
def Slot.skip (x : Slot) : Nat → Slot
  | 0 => x
  | k + 1 =>
    if !x.mustStart && x.winDone.getLsbD x.pos then { x with pcc := x.pcc.moveCursor (x.pcc.addr + 4) }.skip k else x

/-- The word is a control transfer (R155). -/
def transferWord (w : U32) : Bool :=
  match decode w with
  | .ok (_, i) => isTransfer i
  | .error _ => false

/-- The slot at the next word that it executes: a return has resumed a window, and the words that are complete are passed over (R159).
A word after a control transfer that is complete begins a window (R155). -/
def State.atNext (s : State) : State :=
  let t := s.setSelf (fun x => x.skip 32)
  if t.pc ≠ s.pc && transferWord (t.wordAt (t.pc - 4)) then t.setSelf Slot.startWindow else t

/-- The word is a settle point: R155 by its place, or it has S set or transfers control, and is not the window's first. -/
def Slot.settles (x : Slot) (w : U32) : Bool :=
  x.mustStart || (decide (0 < x.pos) && (w.getLsbD 31 || transferWord w))

/-! ### Pending deliveries (R288, R357, R371) -/

/-- A cooperative pre-emption may be delivered now. -/
def Slot.coopReady (x : Slot) : Bool :=
  x.coopDue && !x.class1 && !x.hold && x.sent.isEmpty && x.swLater.isEmpty && x.delegated.isNone && !x.park.holding && x.running

/-- Cooperative pre-emption at the first word that has not issued. A watch trap of the window comes first (R159, R371). -/
def State.deliverCoop (s : State) : State :=
  let u := s.atNext
  match u.self.watchTrap with
  | some (t, pc, w) => u.takeTrapAt t pc w
  | none =>
    let t := if u.self.mustStart then u.setSelf Slot.startWindow else u
    t.takeTrapAt (.plain 0x15 0) t.pc 0

/-- A pending trap of a slot: a watch trap at its settle point, a cooperative pre-emption. A slot parked in TYIELD ends that first
(R283). -/
def State.deliver (s : State) (core idx : Nat) : State :=
  let t := (s.switchTo core idx).atNext
  let x := t.self
  let yields := match x.park with
    | .yield _ _ _ => true
    | _ => false
  match x.watchTrap with
  | some (tr, pc, w) => if x.settles (t.wordAt t.pc) && x.delegated.isNone && x.swLater.isEmpty then t.takeTrapAt tr pc w else s
  | none => if x.coopReady && !yields then (s.switchTo core idx).deliverCoop else s

/-- TRAP_DELIVERY. -/
def execTrapDelivery (core slot : Nat) (s : State) : Host.Outcome State Fault Refusal :=
  .next (if (s.slot core slot).running then s.deliver core slot else s)

/-! ### Registers as values (R157, R158) -/

/-- The registers whose outstanding writes a read may miss: those with no effect beyond their value. -/
def Reg.plain : Reg → Bool
  | .g _ => true
  | .v _ => true
  | .p _ => true
  | .t _ => true
  | .cr n =>
    n == 0x001 || n == 0x002 || n == 0x003 || n == 0x005 || n == 0x007 || n == 0x010 || n == 0x012 || n == 0x013 || n == 0x019
      || n.extractLsb' 3 9 == 0x20 || n == 0x108 || n.extractLsb' 2 10 == 0x44

/-- The value of a register of the issuing slot. -/
def State.regVal (s : State) (r : Reg) : RegVal :=
  match r with
  | .g n => .cap (s.g n)
  | .v n => .vec (s.v n)
  | .p n => .pred (s.p n)
  | .t n => .tile (s.tile n) (s.strip n)
  | .cr n => .cap ((s.readCtl n).getD .zero)

/-- A control register as it was. -/
def State.setCtl (s : State) (n : BitVec 12) (c : Cap) : State :=
  let w := c.addr
  if n.extractLsb' 3 9 = 0x20 then
    s.putCore { s.myCore with shapes := s.myCore.shapes.set (n.extractLsb' 0 3).toNat w (n.extractLsb' 0 3).isLt }
  else if n.extractLsb' 2 10 = 0x44 then
    s.putCore { s.myCore with chain := s.myCore.chain.set (n.extractLsb' 0 2).toNat w (n.extractLsb' 0 2).isLt }
  else if n = 0x108 then s.putCore { s.myCore with larg := c }
  else
    s.setSelf (fun x =>
      if n = 0x001 then { x with trapvec := c }
      else if n = 0x002 then { x with upvec := c }
      else if n = 0x003 then { x with traphold := w }
      else if n = 0x005 then { x with round := w }
      else if n = 0x007 then { x with settlemode := w }
      else if n = 0x010 then { x with tfpcc := c }
      else if n = 0x012 then { x with tfdone := w }
      else if n = 0x013 then { x with tfclass := w }
      else if n = 0x019 then { x with tstack := c }
      else x)

/-- A register set to a value of its kind. -/
def State.setReg (s : State) (r : Reg) (v : RegVal) : State :=
  match r, v with
  | .g n, .cap c => s.setG n c
  | .v n, .vec x => s.setV n x
  | .p n, .pred x => s.setP n x
  | .t n, .tile d z => s.setTile n d z
  | .cr n, .cap c => s.setCtl n c
  | _, _ => s

/-- The same after a trap has exchanged g2 and TSTACK. -/
def State.setRegTrapped (s : State) (r : Reg) (v : RegVal) : State :=
  match r with
  | .g 2 => s.setReg (.cr 0x019) v
  | .cr 0x019 => s.setReg (.g 2) v
  | _ => s.setReg r v

/-! ### Executing a word -/

/-- The hazards of R157 that strict mode checks (R160). -/
def Slot.unsettled (x : Slot) (reads writes : List Reg) : Bool :=
  let out := x.winWrites.map Prod.fst
  reads.any out.contains || writes.any (fun r => out.contains r || x.winReads.contains r)

/-- The window's outstanding writes that the n-th choices let an instruction miss. -/
def missed (l : List (Reg × RegVal)) (reads : List Reg) (n : Nat) : List (Reg × RegVal) :=
  ((l.filter (fun w => reads.contains w.1 && w.1.plain)).zipIdx.filter (fun y => Config.stale (n + y.2))).map Prod.fst

/-- The instructions of SWT that a region's unit serves. -/
def isSwatch : Instr → Bool
  | .swname _ _ _ _ => true
  | .swread _ _ _ _ => true
  | .swref _ _ _ => true
  | .swrel _ _ _ => true
  | .swwalk _ _ _ => true
  | _ => false

/-- Instructions that only compute on g registers, and meet nothing that a swatch request on its way could change. -/
def passive : Instr → Bool
  | .add _ _ _ => true
  | .addi _ _ _ => true
  | .sub _ _ _ => true
  | .and _ _ _ => true
  | .or _ _ _ => true
  | .xor _ _ _ => true
  | .nop => true
  | _ => false

/-- What an execution has come to: the slot goes on in its window, waits, was delivered a trap, or runs something else. -/
inductive After where
  | done
  | waits
  | trapped
  | other
deriving DecidableEq, Repr

def afterOf (s t : State) : After :=
  if t.self.agent ≠ s.self.agent || !t.self.running then .other
  else if t.self.class1 && !s.self.class1 then .trapped
  else if t.self.class1 ≠ s.self.class1 then .other
  else if t.self.park ≠ .no then .waits
  else .done

/-- Registers that an instruction saw as they were take their values again, but for those it has written; of two writes of a
register the later may give way (R158). -/
def State.mend (s t : State) (old : List (Reg × RegVal)) (writes : List Reg) (n : Nat) : State :=
  match afterOf s t with
  | .other => t
  | .waits => old.foldl (fun t w => t.setReg w.1 (s.regVal w.1)) t
  | .trapped => old.foldl (fun t w => t.setRegTrapped w.1 (s.regVal w.1)) t
  | .done =>
    let t1 := (old.filter (fun w => !writes.contains w.1)).foldl (fun t w => t.setReg w.1 (s.regVal w.1)) t
    let twice := (writes.filter (fun r => r.plain && (s.self.winWrites.map Prod.fst).contains r)).zipIdx
    (twice.filter (fun y => Config.lostWrite (n + y.2))).foldl (fun t y => t.setReg y.1 (s.regVal y.1)) t1

/-- Every swatch request of the window has reached its unit, or one of them has trapped. -/
def State.swSettled (s : State) : State :=
  match s.swAll with
  | .ok t => t
  | .error t => t

/-- Whether a swatch instruction of the slot may still come in this window (R353): the next words, up to the one that settles. -/
def State.swatchAhead (s : State) (pc : U64) : Nat → Bool
  | 0 => false
  | k + 1 =>
    let w := s.wordAt (pc + 4)
    if w.getLsbD 31 || transferWord w then false
    else
      match decode w with
      | .ok (_, i) => isSwatch i || s.swatchAhead (pc + 4) k
      | .error _ => false

/-- A swatch instruction may reach its unit after a later one of its window: a free choice (R353). Others find what is on its way settled
before they can meet it. -/
def State.swOrder (s : State) (i : Instr) (reads writes : List Reg) : Run State :=
  if isSwatch i then
    let may := s.swatchAhead s.pc (31 - s.self.pos)
    .ok (if may then (s.drawn).setSelf (fun x => { x with swDefer := Config.swatchLater s.free })
      else if s.self.swDefer then s.setSelf (fun x => { x with swDefer := false }) else s)
  else if s.self.swLater.isEmpty then .ok s
  else
    let later := s.self.swLater.flatMap (fun q => if q.member = 2 then [.g q.d, .v q.v, .v (q.v + 1)] else [.g q.d])
    if passive i && !(reads ++ writes).any later.contains then .ok s else s.swAll

/-- After a swatch instruction that has reached its unit, those before it follow, each or later still. -/
def State.swFollow (s t : State) (i : Instr) : State :=
  if !isSwatch i || t.self.swLater.isEmpty || t.self.swLater.length ≠ s.self.swLater.length then t
  else
    match t.drawn.swSettle (fun _ k => !Config.swatchLater (t.free + k)) with
    | .ok u => u
    | .error u => u

/-- What has come of an execution, when it is a trap: it waits for an outstanding DLGA of the window (R159, R279), and the watch trap of
an earlier instruction takes its place, for the first in program order is delivered (R159, R371). -/
def State.trapsAs (s t : State) : State :=
  if afterOf s t ≠ .trapped then t
  else if s.self.delegated.isSome then s.wait .settle
  else if !s.self.swLater.isEmpty then s.swSettled
  else
    match s.self.watchTrap with
    | some (w, pc, u) => s.takeTrapAt w pc u
    | none => t

/-- The registers that an executed word read and wrote join the window. -/
def State.noteWindow (s t : State) (reads writes : List Reg) : State :=
  match afterOf s t with
  | .done =>
    t.setSelf (fun x => { x with
      winReads := x.winReads ++ reads, winWrites := x.winWrites ++ writes.map (fun r => (r, s.regVal r)) })
  | _ => t

/-- Execute an instruction of the issuing slot by `run`, with the outcomes that R158 allows a window that breaks R157. -/
def State.runInstr (run : Instr → State → Host.Outcome State Fault Refusal) (s0 : State) (i : Instr) :
    Host.Outcome State Fault Refusal :=
  -- only another relaxed AMOFADD joins those that are in a router
  let s1 := match i with
    | .amofadd _ _ _ 0 _ => s0
    | _ => s0.routersEmpty
  let reads := readsOf s1 i
  let writes := writesOf s1 i
  match s1.swOrder i reads writes with
  | .error t => .next t
  | .ok s =>
  let clean := !s.self.unsettled reads writes
  if s.self.strict && !clean then .next (s.trapsAs (s.trap 0x02 0))
  else if clean then
    match run i s with
    | .next t => .next (s.swFollow (s.noteWindow (s.trapsAs t) reads writes) i)
    | .fault f => .fault f
    | .refused f => .refused f
  else
    -- the choices are drawn once, however often the instruction waits
    let u := if s.self.park = .no then
        { (s.setSelf (fun x => { x with draw := s.free })) with free := s.free + s.self.winWrites.length }
      else s
    let n := u.self.draw
    let old := missed u.self.winWrites reads n
    match run i (old.foldl (fun t w => t.setReg w.1 w.2) u) with
    | .next t => .next (u.swFollow (u.noteWindow (u.mend (u.trapsAs t) old writes n) reads writes) i)
    | .fault f => .fault f
    | .refused f => .refused f

/-! ### The fetch -/

/-- A fetch watch matches the next word; never the first word after a return (R361, R371). -/
def State.fetchWatch (s : State) : Bool :=
  if s.self.replay then false
  else (s.watched { (s.acc s.pc.toNat 4 false false false) with fetch := true }).isSome

/-- The checks of a fetch: R19 for 4 bytes that need X, in memory of this device, and the fetch watches. -/
def State.fetch (s : State) : Run Unit :=
  let pc := s.pc
  match s.capClass s.self.pcc .x with
  | some k =>
    -- a revoked PCC loses its tag (R31)
    .error ((if k = 0x16 then s.setSelf (fun x => { x with pcc := x.pcc.untag }) else s).trap k pc)
  | none =>
    if !s.self.pcc.inBounds pc.toNat 4 then .error (s.trap 0x04 pc)
    else if pc.toNat % 4 ≠ 0 then .error (s.trap 0x0B pc)
    else
      let x : Acc := { (s.acc (s.localAddr pc.toNat) 4 false false false) with fetch := true }
      match s.accErr x with
      | some e => .error (s.accStop e pc 0 [x])
      | none => if s.fetchWatch then .error (s.trap 0x14 pc) else .ok ()

/-- The next word has been fetched: the slot waits in it for what its execution met. -/
def Slot.fetched (x : Slot) : Bool :=
  match x.park with
  | .no => false
  | .settle => false
  | .page _ => false
  | _ => true

/-- The issuing slot issues its next word (R156): `run` gives the instructions their meanings. The porter's routine is fixed: it
replays until its FIFO is empty, then sleeps (R277, R278). -/
def State.issue (run : Instr → State → Host.Outcome State Fault Refusal) (s : State) : Host.Outcome State Fault Refusal :=
  if s.self.role = .porter then
    if s.myCore.overflowed.isEmpty then .next (s.porterSleeps s.self.core) else run .replay s
  else
    let s0 := s.atNext
    let w := s0.wordAt s0.pc
    let settles := s0.self.settles w
    if settles && s0.self.delegated.isSome then .next (s0.wait .settle)
    else if settles && !s0.self.swLater.isEmpty then .next s0.swSettled
    else
      match (if settles then s0.self.watchTrap else none) with
      | some (t, pc, u) => .next (s0.takeTrapAt t pc u)
      | none =>
        let s1 := if settles then s0.setSelf Slot.startWindow else s0
        if s1.self.coopReady && s1.self.park = .no then .next s1.deliverCoop
        else
          match (if s1.self.fetched then .ok () else s1.fetch) with
          | .error t => .next (s1.trapsAs t)
          | .ok _ =>
            match decode w with
            | .error _ => .next (s1.trapsAs (s1.trap 0x01 0))
            | .ok (_, i) => s1.runInstr run i

/-! ### Placing a word where the next fetch is -/

/-- A slot to issue from: the issuing slot, or on a machine that has not started, the seed task that START begins (R410). -/
def State.withIssuer (s : State) : State :=
  if s.self.running then s else ({ s with bootstat := s.bootstat ||| 4 }).seed 0

/-- Four bytes at an address, in its page or frame, in the order in which a word is stored (R154). -/
def State.putWord (s : State) (a : Nat) (w : U32) : State :=
  (((s.putByte a (w.extractLsb' 0 8)).putByte (a + 1) (w.extractLsb' 8 8)).putByte (a + 2) (w.extractLsb' 16 8)).putByte (a + 3)
    (w.extractLsb' 24 8)

/-- The word at the issuing slot's next address, and that slot picked to issue. -/
def State.withWord (s : State) (w : U32) : State :=
  let t := s.withIssuer
  { (t.putWord (t.localAddr t.pc.toNat) w) with picked := true }

end Sys2Proof.Machine
end

