-- ==== Sys2Proof/Machine/Quant.lean ====
section
/-! DEFINITION. Conversions (R231, R232) and quantisation (R233, R234). -/
namespace Sys2Proof.Machine

/-- What a format code of R170 names: a float, or an integer of a width and signedness. -/
inductive CvtType where
  | float (f : Fmt)
  | int (w : Nat) (sgn : Bool)
deriving DecidableEq, Repr

def cvtType (c : Nat) : CvtType :=
  match c with
  | 0 => .float .e4m3
  | 1 => .float .e5m2
  | 2 => .float .f16
  | 3 => .float .bf16
  | 4 => .int 8 true
  | 6 => .int 4 true
  | 8 => .float .f32
  | 9 => .int 16 true
  | 10 => .int 32 true
  | 11 => .int 64 true
  | 12 => .int 8 false
  | 13 => .int 16 false
  | 14 => .int 32 false
  | _ => .int 64 false

def CvtType.width : CvtType → Nat
  | .float f => f.width
  | .int w _ => w

/-- One element converted (R232). -/
def cvtBits (x y : CvtType) (m : RMode) (sat : Bool) (b : Nat) : Nat × FFlags :=
  match x, y with
  | .float f, .float g => convertFF f g m sat b
  | .float f, .int w sgn =>
    let r := convertFI f m (if sgn then -2 ^ (w - 1) else 0) (if sgn then 2 ^ (w - 1) - 1 else 2 ^ w - 1) b
    (laneBits w r.1, r.2)
  | .int w sgn, .float g => convertIF g m sat (laneInt sgn w b)
  | .int w sgn, .int v t => (laneBits v (if sat then clampTo t v (laneInt sgn w b) else laneInt sgn w b), .none)

/-- VCVT: x is the source format, y the destination format, r the rounding, t the saturation (R231). -/
def execVcvt (d a x y : BitVec 5) (r : BitVec 3) (t : BitVec 1) (s : State) : Host.Outcome State Fault Refusal :=
  let src := cvtType x.toNat
  let dst := cvtType y.toNat
  let m := 1024 / max src.width dst.width
  let mode := if r = 4 then s.mode else .ofCode r.toNat
  let f (i : Nat) := cvtBits src dst mode (t == 1) (lane src.width (s.v a) i)
  (s.addFlags (laneFlags m (BitVec.allOnes 128) f)).putV d (ofLanes dst.width m (fun i => (f i).1))

/-! ### VQ -/

def groupSize (r : BitVec 2) : Nat := 32 * 2 ^ r.toNat
/-- VQ fmt: 0 A8, 1 A4, 2 S8, 3 S4 (R170). -/
def quantBits (f : BitVec 2) : Nat := if f.getLsbD 0 then 4 else 8
def quantSigned (f : BitVec 2) : Bool := f.getLsbD 1

def maxRat (l : List Rat2) (z : Rat2) : Rat2 := l.foldl (fun m x => if m.le x then x else m) z
def minRat (l : List Rat2) (z : Rat2) : Rat2 := l.foldl (fun m x => if x.le m then x else m) z
def clampInt (lo hi v : Int) : Int := max lo (min hi v)

/-- The scale a group gets: the least FP16 value at or above range / steps, 1.0 where that is 0 (R233). -/
def quantScale (range : Rat2) (steps : Nat) : Nat :=
  let r := rup16 { num := range.num, den := range.den * steps }
  if r = 0 then 0x3C00 else r

/-- Scale, zero point and codes of a group of numbers (R233). -/
def quantise (f : BitVec 2) (l : List Rat2) : Nat × Nat × List Nat :=
  let b := quantBits f
  let zero : Rat2 := { num := 0, den := 1 }
  if quantSigned f then
    let top : Int := 2 ^ (b - 1) - 1
    let sc := quantScale (maxRat (l.map Rat2.abs) zero) (2 ^ (b - 1) - 1)
    let s := Rat2.ofVal (Fmt.f16.decode sc)
    (sc, 0, l.map (fun x => laneBits b (clampInt (-top) top (x.rneDiv s))))
  else
    let top : Int := 2 ^ b - 1
    let mn := minRat l zero
    let mx := maxRat l zero
    let sc := quantScale (mx.sub mn) (2 ^ b - 1)
    let s := Rat2.ofVal (Fmt.f16.decode sc)
    let z := clampInt 0 top ((zero.sub mn).rneDiv s)
    (sc, z.toNat, l.map (fun x => laneBits b (clampInt 0 top (x.rneDiv s + z))))

/-- VQUANT (R233). -/
def execVquant (d a g : BitVec 5) (r f : BitVec 2) (s : State) : Host.Outcome State Fault Refusal :=
  let n := groupSize r
  let x (i : Nat) : FVal := fpLane .f32 (s.v (a + BitVec.ofNat 5 (i / 32))) (i % 32)
  let odd (i : Nat) : Bool := match x i with
    | .fin _ _ _ => false
    | _ => true
  let bad := (List.range n).any odd
  if bad then
    .next (((((s.setV d 0).wr g 0x7E00).addFlags (invalid true)).setP 7
      (BitVec.ofNat 128 (packLanes 1 ((List.range n).map (fun i => if odd i then 1 else 0))))).retire)
  else
    let q := quantise f ((List.range n).map (fun i => Rat2.ofVal (x i)))
    .next ((((s.setV d (BitVec.ofNat 1024 (packLanes (quantBits f) q.2.2))).wr g
      (BitVec.ofNat 64 (q.1 + 65536 * q.2.1))).setP 7 0).retire)

/-- One element of VDEQ: the scale's 16 bits, the code, the code less the zero point (R234). -/
def dequantBits (sc code : Nat) (q : Int) : Nat × FFlags :=
  match Fmt.f16.decode sc with
  | .nan sig => (Fmt.f32.nan, invalid sig)
  | .inf n => if q = 0 then (Fmt.f32.nan, invalid true) else (Fmt.f32.inf (n != decide (q < 0)), .none)
  | .fin n m e =>
    if q = 0 && n then (Fmt.f32.zero (Config.dequantZeroSign (BitVec.ofNat 16 sc) (BitVec.ofNat 8 code) == 1), .none)
    else roundVal .f32 .rne (.fin (n != decide (q < 0)) (m * q.natAbs) e)

/-- VDEQ (R234). -/
def execVdeq (d a g : BitVec 5) (r f : BitVec 2) (s : State) : Host.Outcome State Fault Refusal :=
  let b := quantBits f
  let sc := (s.x g).toNat % 65536
  let z : Int := if quantSigned f then 0 else ((s.x g).toNat / 65536 % 256 : Nat)
  let one (i : Nat) : Nat × FFlags :=
    let c := lane b (s.v a) i
    dequantBits sc c (laneInt (quantSigned f) b c - z)
  let reg (k : Nat) : Vec := ofLanes 32 32 (fun j => (one (32 * k + j)).1)
  let t := s.addFlags ((List.range (groupSize r)).foldl (fun fl i => fl.or (one i).2) .none)
  .next (((List.range (groupSize r / 32)).foldl (fun t k => t.setV (d + BitVec.ofNat 5 k) (reg k)) t).retire)

/-- VPACK: f 0 for A4, 1 for S4. -/
def execVpack (d a : BitVec 5) (f : BitVec 1) (s : State) : Host.Outcome State Fault Refusal :=
  s.putV d (ofLanes 4 128 (fun i =>
    if f = 0 then min (lane 8 (s.v a) i) 15 else laneBits 4 (clampTo true 4 (signedOf 8 (lane 8 (s.v a) i)))))
/-- VUNPK. -/
def execVunpk (d a : BitVec 5) (f : BitVec 1) (s : State) : Host.Outcome State Fault Refusal :=
  s.putV d (ofLanes 8 128 (fun i => if f = 0 then lane 4 (s.v a) i else laneBits 8 (signedOf 4 (lane 4 (s.v a) i))))

end Sys2Proof.Machine
end

