-- ==== Sys2Proof/Machine/VectorMem.lean ====
section
/-! DEFINITION. Vector loads and stores (R226, R227). -/
namespace Sys2Proof.Machine

/-- The active lanes of `n` bytes each, with their addresses. -/
def State.vlanes (s : State) (p : BitVec 3) (n : Nat) (f : Nat → U64) : List Lane :=
  ((List.range (128 / n)).filter (fun i => (s.p p).getLsbD i)).map (fun i => .single i (f i) n)

/-- Lanes in memory order at c.address + gb (mode 0). -/
def State.unitLanes (s : State) (a b : BitVec 5) (p : BitVec 3) (n : Nat) : List Lane :=
  s.vlanes p n (fun i => s.x a + s.x b + BitVec.ofNat 64 (i * n))
/-- Lanes at a signed stride (mode 1). -/
def State.strideLanes (s : State) (a b : BitVec 5) (p : BitVec 3) (n : Nat) : List Lane :=
  s.vlanes p n (fun i => s.x a + BitVec.ofNat 64 i * s.x b)
/-- Lanes at indices of v(vd + 1) (mode 2). -/
def State.indexLanes (s : State) (d a b : BitVec 5) (p : BitVec 3) (n : Nat) : List Lane :=
  s.vlanes p n (fun i => s.x a + s.x b + BitVec.ofNat 64 (lane 32 (s.v (d + 1)) i * n))

/-- The value that a list of lane values gives a lane. -/
def laneValue (l : List (Nat × Nat)) (i : Nat) : Nat :=
  match findBy (fun x : Nat × Nat => x.1) i l with
  | some x => x.2
  | none => 0

/-- A vector load. -/
def State.vload (s : State) (d a b : BitVec 5) (p : BitVec 3) (n : Nat) (lanes : List Lane) :
    Host.Outcome State Fault Refusal :=
  finish (do
    let (t, l) ← s.loadLanes a (s.g a) true lanes (s.x a + s.x b)
    .ok ((t.setV d (mergeLanes (8 * n) (128 / n) (s.p p) (s.v d) (laneValue l))).retire))

/-- A vector store. -/
def State.vstore (s : State) (d a b : BitVec 5) (n : Nat) (lanes : List Lane) : Host.Outcome State Fault Refusal :=
  finish (do
    let t ← s.saveLanes a (s.g a) true lanes (s.x a + s.x b) (lane (8 * n) (s.v d))
    .ok t.retire)

def execVld (d a b : BitVec 5) (p : BitVec 3) (z : BitVec 2) (s : State) : Host.Outcome State Fault Refusal :=
  s.vload d a b p (2 ^ z.toNat) (s.unitLanes a b p (2 ^ z.toNat))
def execVlds (d a b : BitVec 5) (p : BitVec 3) (z : BitVec 2) (s : State) : Host.Outcome State Fault Refusal :=
  s.vload d a b p (2 ^ z.toNat) (s.strideLanes a b p (2 ^ z.toNat))
/-- sz 2 or 3. -/
def execVldx (d a b : BitVec 5) (p : BitVec 3) (z : BitVec 1) (s : State) : Host.Outcome State Fault Refusal :=
  s.vload d a b p (4 * 2 ^ z.toNat) (s.indexLanes d a b p (4 * 2 ^ z.toNat))
/-- VLDB makes one read when any lane is active; the mask of a trap names every active lane. -/
def execVldb (d a b : BitVec 5) (p : BitVec 3) (z : BitVec 2) (s : State) : Host.Outcome State Fault Refusal :=
  let n := 2 ^ z.toNat
  let all := s.vlanes p n (fun _ => s.x a + s.x b)
  finish (do
    let (t, l) ← s.loadLanes a (s.g a) true ((all.take 1).map (fun x => { x with mask := laneMask all })) (s.x a + s.x b)
    let v := match l with
      | x :: _ => x.2
      | [] => 0
    .ok ((t.setV d (mergeLanes (8 * n) (128 / n) (s.p p) (s.v d) (fun _ => v))).retire))
def execVst (d a b : BitVec 5) (p : BitVec 3) (z : BitVec 2) (s : State) : Host.Outcome State Fault Refusal :=
  s.vstore d a b (2 ^ z.toNat) (s.unitLanes a b p (2 ^ z.toNat))
def execVsts (d a b : BitVec 5) (p : BitVec 3) (z : BitVec 2) (s : State) : Host.Outcome State Fault Refusal :=
  s.vstore d a b (2 ^ z.toNat) (s.strideLanes a b p (2 ^ z.toNat))
/-- sz 2 or 3. -/
def execVstx (d a b : BitVec 5) (p : BitVec 3) (z : BitVec 1) (s : State) : Host.Outcome State Fault Refusal :=
  s.vstore d a b (4 * 2 ^ z.toNat) (s.indexLanes d a b p (4 * 2 ^ z.toNat))

end Sys2Proof.Machine
end

