-- ==== Sys2Proof/Machine/VectorPerm.lean ====
section
/-! DEFINITION. Permutes and reductions (R228, R229), compares and predicates (R230). -/
namespace Sys2Proof.Machine

/-! ### VPRM (R228) -/

def execVperm (d a b : BitVec 5) (p e : BitVec 3) (s : State) : Host.Outcome State Fault Refusal :=
  let w := etWidth e
  let n := 1024 / w
  s.putV d (mergeLanes w n (s.p p) (s.v d) (fun i => lane w (s.v a) (lane w (s.v b) i % n)))
def execVslideup (d a b : BitVec 5) (p e : BitVec 3) (s : State) : Host.Outcome State Fault Refusal :=
  let w := etWidth e
  let n := 1024 / w
  s.putV d (mergeLanes w n (s.p p) (s.v d) (fun i => if i = 0 then lane w (s.v b) (n - 1) else lane w (s.v a) (i - 1)))
def execVslidedn (d a b : BitVec 5) (p e : BitVec 3) (s : State) : Host.Outcome State Fault Refusal :=
  let w := etWidth e
  let n := 1024 / w
  s.putV d (mergeLanes w n (s.p p) (s.v d) (fun i => if i = n - 1 then lane w (s.v b) 0 else lane w (s.v a) (i + 1)))

/-- The active elements of a register, in order. -/
def activeLanes (w n : Nat) (p : Pred) (x : Vec) : List Nat :=
  ((List.range n).filter (fun i => p.getLsbD i)).map (lane w x)

/-- A reduction into element 0, the rest zero, starting from element 0 of vb. -/
def State.reduce (s : State) (d a b : BitVec 5) (p e : BitVec 3) (f : Bool → Nat → Nat → Nat → Nat) :
    Host.Outcome State Fault Refusal :=
  let w := etWidth e
  let r := (activeLanes w (1024 / w) (s.p p) (s.v a)).foldl (f (etSigned e) w) (lane w (s.v b) 0)
  s.putV d (ofLanes w (1024 / w) (fun i => if i = 0 then r else 0))

def execVredadd (d a b : BitVec 5) (p e : BitVec 3) (s : State) : Host.Outcome State Fault Refusal :=
  s.reduce d a b p e (fun _ _ x y => x + y)
def execVredmin (d a b : BitVec 5) (p e : BitVec 3) (s : State) : Host.Outcome State Fault Refusal :=
  s.reduce d a b p e (fun g w x y => if laneInt g w x ≤ laneInt g w y then x else y)
def execVredmax (d a b : BitVec 5) (p e : BitVec 3) (s : State) : Host.Outcome State Fault Refusal :=
  s.reduce d a b p e (fun g w x y => if laneInt g w y ≤ laneInt g w x then x else y)

/-- One level of the tree: the halves added element by element (R229). -/
def treeLevel (m : RMode) (l : List FVal) : List FVal × FFlags :=
  let h := l.length / 2
  ((l.take h).zip (l.drop h)).foldr
    (fun xy acc =>
      let r := addBits .f32 m xy.1 xy.2
      (Fmt.f32.decode r.1 :: acc.1, acc.2.or r.2)) ([], .none)
/-- The tree, `k` levels of it. -/
def treeSum (m : RMode) : Nat → List FVal → FFlags → FVal × FFlags
  | 0, l, f => (l.headD (.fin false 0 0), f)
  | k + 1, l, f =>
    let r := treeLevel m l
    treeSum m k r.1 (f.or r.2)
/-- VFREDADD (R229). -/
def execVfredadd (d a b : BitVec 5) (p : BitVec 3) (e : BitVec 2) (s : State) : Host.Outcome State Fault Refusal :=
  let k := fpFmt e
  let n := 1024 / k.width
  let l := (List.range n).map (fun i => if (s.p p).getLsbD i then fpLane k (s.v a) i else .fin true 0 0)
  let t := treeSum s.mode (Nat.log2 n) l .none
  let r := addBits .f32 s.mode (fpLane .f32 (s.v b) 0) t.1
  (s.addFlags (t.2.or r.2)).putV d (BitVec.ofNat 1024 r.1)
/-- VFREDMAX (R228): where no lane is active, the VFMAX of vb's value alone, whose NaN is the canonical one (R214). -/
def execVfredmax (d a b : BitVec 5) (p : BitVec 3) (e : BitVec 2) (s : State) : Host.Outcome State Fault Refusal :=
  let k := fpFmt e
  let l := (activeLanes k.width (1024 / k.width) (s.p p) (s.v a)).map (convertFF k .f32 .rne false)
  let v0 := lane 32 (s.v b) 0
  let r := l.foldl (fun (acc : Nat × FFlags) x =>
    let y := minMaxBits .f32 true acc.1 x.1
    (y.1, (acc.2.or x.2).or y.2)) (if l.isEmpty then minMaxBits .f32 true v0 v0 else (v0, .none))
  (s.addFlags r.2).putV d (BitVec.ofNat 1024 r.1)

/-- VCOMPRESS: the active elements to the bottom. -/
def execVcompress (d a : BitVec 5) (p e : BitVec 3) (s : State) : Host.Outcome State Fault Refusal :=
  let w := etWidth e
  let n := 1024 / w
  s.putV d (BitVec.ofNat 1024 (packLanes w (activeLanes w n (s.p p) (s.v a))))
/-- VEXTG: element k, extended by its type. -/
def execVextg (d a k : BitVec 5) (e : BitVec 3) (s : State) : Host.Outcome State Fault Refusal :=
  let w := etWidth e
  .next ((s.wr d (BitVec.ofInt 64 (laneInt (etSigned e) w (lane w (s.v a) k.toNat)))).retire)

/-! ### VPRD (R230) -/

/-- A predicate result and the next word. -/
def State.putP (s : State) (d : BitVec 3) (x : Pred) : Host.Outcome State Fault Refusal := .next ((s.setP d x).retire)

/-- The bits of a compare: inactive lanes keep theirs, bits from `n` up are 0 (R165). -/
def compareBits (n : Nat) (p old : Pred) (f : Nat → Bool) : Pred :=
  BitVec.ofNat 128 (packLanes 1 ((List.range n).map (fun i =>
    if (if p.getLsbD i then f i else old.getLsbD i) then 1 else 0)))

def State.vcmp (s : State) (d : BitVec 3) (a b : BitVec 5) (p e : BitVec 3) (f : Int → Int → Bool) :
    Host.Outcome State Fault Refusal :=
  let w := etWidth e
  let g := etSigned e
  s.putP d (compareBits (1024 / w) (s.p p) (s.p d)
    (fun i => f (laneInt g w (lane w (s.v a) i)) (laneInt g w (lane w (s.v b) i))))

def execVcmpeq (d : BitVec 3) (a b : BitVec 5) (p e : BitVec 3) (s : State) : Host.Outcome State Fault Refusal :=
  s.vcmp d a b p e (fun x y => decide (x = y))
def execVcmplt (d : BitVec 3) (a b : BitVec 5) (p e : BitVec 3) (s : State) : Host.Outcome State Fault Refusal :=
  s.vcmp d a b p e (fun x y => decide (x < y))
def execVcmple (d : BitVec 3) (a b : BitVec 5) (p e : BitVec 3) (s : State) : Host.Outcome State Fault Refusal :=
  s.vcmp d a b p e (fun x y => decide (x ≤ y))

/-- A floating-point compare; `f` judges numbers, `un` is the answer beside a NaN, `any` whether any NaN sets NV. -/
def State.vfcmp (s : State) (d : BitVec 3) (a b : BitVec 5) (p : BitVec 3) (e : BitVec 2) (f : Int → Bool) (un any : Bool) :
    Host.Outcome State Fault Refusal :=
  let k := fpFmt e
  let n := 1024 / k.width
  let x (i : Nat) := fpLane k (s.v a) i
  let y (i : Nat) := fpLane k (s.v b) i
  let nv (i : Nat) : FFlags := invalid ((x i).isSig || (y i).isSig || (any && ((x i).isNan || (y i).isNan)))
  (s.addFlags (laneFlags n (s.p p) (fun i => (0, nv i)))).putP d (compareBits n (s.p p) (s.p d)
    (fun i => if (x i).isNan || (y i).isNan then un else f (cmpVal (x i) (y i))))

def execVfcmpeq (d : BitVec 3) (a b : BitVec 5) (p : BitVec 3) (e : BitVec 2) (s : State) :
    Host.Outcome State Fault Refusal :=
  s.vfcmp d a b p e (fun c => decide (c = 0)) false false
def execVfcmplt (d : BitVec 3) (a b : BitVec 5) (p : BitVec 3) (e : BitVec 2) (s : State) :
    Host.Outcome State Fault Refusal :=
  s.vfcmp d a b p e (fun c => decide (c < 0)) false true
def execVfcmple (d : BitVec 3) (a b : BitVec 5) (p : BitVec 3) (e : BitVec 2) (s : State) :
    Host.Outcome State Fault Refusal :=
  s.vfcmp d a b p e (fun c => decide (c ≤ 0)) false true
def execVfcmpun (d : BitVec 3) (a b : BitVec 5) (p : BitVec 3) (e : BitVec 2) (s : State) :
    Host.Outcome State Fault Refusal :=
  s.vfcmp d a b p e (fun _ => false) true false

def execPand (d a b : BitVec 3) (s : State) : Host.Outcome State Fault Refusal := s.putP d (s.p a &&& s.p b)
def execPor (d a b : BitVec 3) (s : State) : Host.Outcome State Fault Refusal := s.putP d (s.p a ||| s.p b)
def execPxor (d a b : BitVec 3) (s : State) : Host.Outcome State Fault Refusal := s.putP d (s.p a ^^^ s.p b)
def execPnot (d a : BitVec 3) (s : State) : Host.Outcome State Fault Refusal := s.putP d (~~~(s.p a))
/-- PSETN: the lowest min(g, 128) bits. -/
def execPsetn (d : BitVec 3) (g : BitVec 5) (s : State) : Host.Outcome State Fault Refusal :=
  s.putP d (BitVec.ofNat 128 (2 ^ min (s.x g).toNat 128 - 1))
def execPcnt (d : BitVec 5) (a : BitVec 3) (s : State) : Host.Outcome State Fault Refusal :=
  .next ((s.wr d (BitVec.ofNat 64 ((List.range 128).countP (fun i => (s.p a).getLsbD i)))).retire)
def execPfirst (d : BitVec 5) (a : BitVec 3) (s : State) : Host.Outcome State Fault Refusal :=
  .next ((s.wr d (BitVec.ofNat 64 (((List.range 128).find? (fun i => (s.p a).getLsbD i)).getD 128))).retire)

end Sys2Proof.Machine
end

