-- ==== Sys2Proof/Machine/Dispatch.lean ====
section
/-! DEFINITION. One arm for each instruction: the call of its meaning. -/
namespace Sys2Proof.Machine

def exec (i : Instr) (s : State) : Host.Outcome State Fault Refusal :=
  match i with
  | .add d a b => Sys2Proof.Machine.execAdd d a b s
  | .sub d a b => Sys2Proof.Machine.execSub d a b s
  | .and d a b => Sys2Proof.Machine.execAnd d a b s
  | .or d a b => Sys2Proof.Machine.execOr d a b s
  | .xor d a b => Sys2Proof.Machine.execXor d a b s
  | .andn d a b => Sys2Proof.Machine.execAndn d a b s
  | .sll d a b => Sys2Proof.Machine.execSll d a b s
  | .srl d a b => Sys2Proof.Machine.execSrl d a b s
  | .sra d a b => Sys2Proof.Machine.execSra d a b s
  | .slt d a b => Sys2Proof.Machine.execSlt d a b s
  | .sltu d a b => Sys2Proof.Machine.execSltu d a b s
  | .min d a b => Sys2Proof.Machine.execMin d a b s
  | .max d a b => Sys2Proof.Machine.execMax d a b s
  | .minu d a b => Sys2Proof.Machine.execMinu d a b s
  | .maxu d a b => Sys2Proof.Machine.execMaxu d a b s
  | .mul d a b => Sys2Proof.Machine.execMul d a b s
  | .mulh d a b => Sys2Proof.Machine.execMulh d a b s
  | .mulhu d a b => Sys2Proof.Machine.execMulhu d a b s
  | .div d a b => Sys2Proof.Machine.execDiv d a b s
  | .divu d a b => Sys2Proof.Machine.execDivu d a b s
  | .rem d a b => Sys2Proof.Machine.execRem d a b s
  | .remu d a b => Sys2Proof.Machine.execRemu d a b s
  | .clz d a => Sys2Proof.Machine.execClz d a s
  | .ctz d a => Sys2Proof.Machine.execCtz d a s
  | .popc d a => Sys2Proof.Machine.execPopc d a s
  | .gpair d a b => Sys2Proof.Machine.execGpair d a b s
  | .ghi d a => Sys2Proof.Machine.execGhi d a s
  | .addw d a b => Sys2Proof.Machine.execAddw d a b s
  | .subw d a b => Sys2Proof.Machine.execSubw d a b s
  | .sllw d a b => Sys2Proof.Machine.execSllw d a b s
  | .srlw d a b => Sys2Proof.Machine.execSrlw d a b s
  | .sraw d a b => Sys2Proof.Machine.execSraw d a b s
  | .mulw d a b => Sys2Proof.Machine.execMulw d a b s
  | .divw d a b => Sys2Proof.Machine.execDivw d a b s
  | .divuw d a b => Sys2Proof.Machine.execDivuw d a b s
  | .remw d a b => Sys2Proof.Machine.execRemw d a b s
  | .remuw d a b => Sys2Proof.Machine.execRemuw d a b s
  | .addi d a imm => Sys2Proof.Machine.execAddi d a imm s
  | .andi d a imm => Sys2Proof.Machine.execAndi d a imm s
  | .ori d a imm => Sys2Proof.Machine.execOri d a imm s
  | .xori d a imm => Sys2Proof.Machine.execXori d a imm s
  | .slti d a imm => Sys2Proof.Machine.execSlti d a imm s
  | .sltiu d a imm => Sys2Proof.Machine.execSltiu d a imm s
  | .addiw d a imm => Sys2Proof.Machine.execAddiw d a imm s
  | .slli d a n => Sys2Proof.Machine.execSlli d a n s
  | .srli d a n => Sys2Proof.Machine.execSrli d a n s
  | .srai d a n => Sys2Proof.Machine.execSrai d a n s
  | .slliw d a n => Sys2Proof.Machine.execSlliw d a n s
  | .srliw d a n => Sys2Proof.Machine.execSrliw d a n s
  | .sraiw d a n => Sys2Proof.Machine.execSraiw d a n s
  | .lui d imm => Sys2Proof.Machine.execLui d imm s
  | .capc d imm => Sys2Proof.Machine.execCapc d imm s
  | .jal d o => Sys2Proof.Machine.execJal d o s
  | .jalr d a imm => Sys2Proof.Machine.execJalr d a imm s
  | .beq a b o => Sys2Proof.Machine.execBeq a b o s
  | .bne a b o => Sys2Proof.Machine.execBne a b o s
  | .blt a b o => Sys2Proof.Machine.execBlt a b o s
  | .bge a b o => Sys2Proof.Machine.execBge a b o s
  | .bltu a b o => Sys2Proof.Machine.execBltu a b o s
  | .bgeu a b o => Sys2Proof.Machine.execBgeu a b o s
  | .btag a o => Sys2Proof.Machine.execBtag a o s
  | .bntag a o => Sys2Proof.Machine.execBntag a o s
  | .lb d a imm => Sys2Proof.Machine.execLb d a imm s
  | .lh d a imm => Sys2Proof.Machine.execLh d a imm s
  | .lw d a imm => Sys2Proof.Machine.execLw d a imm s
  | .ld d a imm => Sys2Proof.Machine.execLd d a imm s
  | .lbn d a imm => Sys2Proof.Machine.execLbn d a imm s
  | .lhn d a imm => Sys2Proof.Machine.execLhn d a imm s
  | .lwn d a imm => Sys2Proof.Machine.execLwn d a imm s
  | .lc d a imm => Sys2Proof.Machine.execLc d a imm s
  | .sb d a imm => Sys2Proof.Machine.execSb d a imm s
  | .sh d a imm => Sys2Proof.Machine.execSh d a imm s
  | .sw d a imm => Sys2Proof.Machine.execSw d a imm s
  | .sd d a imm => Sys2Proof.Machine.execSd d a imm s
  | .sc d a imm => Sys2Proof.Machine.execSc d a imm s
  | .cgetaddr d a => Sys2Proof.Machine.execCgetaddr d a s
  | .cgetbase d a => Sys2Proof.Machine.execCgetbase d a s
  | .cgetlen d a => Sys2Proof.Machine.execCgetlen d a s
  | .cgetperm d a => Sys2Proof.Machine.execCgetperm d a s
  | .cgettype d a => Sys2Proof.Machine.execCgettype d a s
  | .cgettag d a => Sys2Proof.Machine.execCgettag d a s
  | .csetaddr d a b => Sys2Proof.Machine.execCsetaddr d a b s
  | .cinc d a b => Sys2Proof.Machine.execCinc d a b s
  | .csetb d a b => Sys2Proof.Machine.execCsetb d a b s
  | .csetbx d a b => Sys2Proof.Machine.execCsetbx d a b s
  | .candp d a b => Sys2Proof.Machine.execCandp d a b s
  | .cseal d a b => Sys2Proof.Machine.execCseal d a b s
  | .cunseal d a b => Sys2Proof.Machine.execCunseal d a b s
  | .ctestsub d a b => Sys2Proof.Machine.execCtestsub d a b s
  | .cclrtag d a => Sys2Proof.Machine.execCclrtag d a s
  | .cmove d a => Sys2Proof.Machine.execCmove d a s
  | .creplen d a => Sys2Proof.Machine.execCreplen d a s
  | .cinci d a imm => Sys2Proof.Machine.execCinci d a imm s
  | .csetbi d a imm => Sys2Proof.Machine.execCsetbi d a imm s
  | .amoadd d a b z o c => Sys2Proof.Machine.execAmoadd d a b z o c s
  | .amoand d a b z o c => Sys2Proof.Machine.execAmoand d a b z o c s
  | .amoor d a b z o c => Sys2Proof.Machine.execAmoor d a b z o c s
  | .amoxor d a b z o c => Sys2Proof.Machine.execAmoxor d a b z o c s
  | .amomin d a b z o c => Sys2Proof.Machine.execAmomin d a b z o c s
  | .amomax d a b z o c => Sys2Proof.Machine.execAmomax d a b z o c s
  | .amominu d a b z o c => Sys2Proof.Machine.execAmominu d a b z o c s
  | .amomaxu d a b z o c => Sys2Proof.Machine.execAmomaxu d a b z o c s
  | .amoswap d a b z o c => Sys2Proof.Machine.execAmoswap d a b z o c s
  | .cas d a b z o c => Sys2Proof.Machine.execCas d a b z o c s
  | .amofadd d a b o c => Sys2Proof.Machine.execAmofadd d a b o c s
  | .lda d a z o c => Sys2Proof.Machine.execLda d a z o c s
  | .stl d a z o c => Sys2Proof.Machine.execStl d a z o c s
  | .fence f c => Sys2Proof.Machine.execFence f c s
  | .barb k => Sys2Proof.Machine.execBarb k s
  | .bara k => Sys2Proof.Machine.execBara k s
  | .barw k => Sys2Proof.Machine.execBarw k s
  | .vadd d a b p e => Sys2Proof.Machine.execVadd d a b p e s
  | .vsub d a b p e => Sys2Proof.Machine.execVsub d a b p e s
  | .vmul d a b p e => Sys2Proof.Machine.execVmul d a b p e s
  | .vmulh d a b p e => Sys2Proof.Machine.execVmulh d a b p e s
  | .vmin d a b p e => Sys2Proof.Machine.execVmin d a b p e s
  | .vmax d a b p e => Sys2Proof.Machine.execVmax d a b p e s
  | .vand d a b p e => Sys2Proof.Machine.execVand d a b p e s
  | .vor d a b p e => Sys2Proof.Machine.execVor d a b p e s
  | .vxor d a b p e => Sys2Proof.Machine.execVxor d a b p e s
  | .vsll d a b p e => Sys2Proof.Machine.execVsll d a b p e s
  | .vsrl d a b p e => Sys2Proof.Machine.execVsrl d a b p e s
  | .vsra d a b p e => Sys2Proof.Machine.execVsra d a b p e s
  | .vaddsat d a b p e => Sys2Proof.Machine.execVaddsat d a b p e s
  | .vsubsat d a b p e => Sys2Proof.Machine.execVsubsat d a b p e s
  | .vdot4 d a b p e => Sys2Proof.Machine.execVdot4 d a b p e s
  | .vmulw d a b p e => Sys2Proof.Machine.execVmulw d a b p e s
  | .vnarrow d a b p e => Sys2Proof.Machine.execVnarrow d a b p e s
  | .vsel d a b p e => Sys2Proof.Machine.execVsel d a b p e s
  | .vmov d a p e => Sys2Proof.Machine.execVmov d a p e s
  | .vidx d p e => Sys2Proof.Machine.execVidx d p e s
  | .vfadd d a b p e => Sys2Proof.Machine.execVfadd d a b p e s
  | .vfsub d a b p e => Sys2Proof.Machine.execVfsub d a b p e s
  | .vfmul d a b p e => Sys2Proof.Machine.execVfmul d a b p e s
  | .vfma d a b p e => Sys2Proof.Machine.execVfma d a b p e s
  | .vfms d a b p e => Sys2Proof.Machine.execVfms d a b p e s
  | .vfnma d a b p e => Sys2Proof.Machine.execVfnma d a b p e s
  | .vfdiv d a b p e => Sys2Proof.Machine.execVfdiv d a b p e s
  | .vfsqrt d a p e => Sys2Proof.Machine.execVfsqrt d a p e s
  | .vfmin d a b p e => Sys2Proof.Machine.execVfmin d a b p e s
  | .vfmax d a b p e => Sys2Proof.Machine.execVfmax d a b p e s
  | .vfabs d a p e => Sys2Proof.Machine.execVfabs d a p e s
  | .vfneg d a p e => Sys2Proof.Machine.execVfneg d a p e s
  | .vfexp2 d a p e => Sys2Proof.Machine.execVfexp2 d a p e s
  | .vfdot2 d a b p e => Sys2Proof.Machine.execVfdot2 d a b p e s
  | .vbcast d w g p => Sys2Proof.Machine.execVbcast d w g p s
  | .vfmas d a g p => Sys2Proof.Machine.execVfmas d a g p s
  | .vscacc d a b g p => Sys2Proof.Machine.execVscacc d a b g p s
  | .vins d k g => Sys2Proof.Machine.execVins d k g s
  | .vld d a b p z => Sys2Proof.Machine.execVld d a b p z s
  | .vlds d a b p z => Sys2Proof.Machine.execVlds d a b p z s
  | .vldx d a b p z => Sys2Proof.Machine.execVldx d a b p z s
  | .vldb d a b p z => Sys2Proof.Machine.execVldb d a b p z s
  | .vst d a b p z => Sys2Proof.Machine.execVst d a b p z s
  | .vsts d a b p z => Sys2Proof.Machine.execVsts d a b p z s
  | .vstx d a b p z => Sys2Proof.Machine.execVstx d a b p z s
  | .vperm d a b p e => Sys2Proof.Machine.execVperm d a b p e s
  | .vslideup d a b p e => Sys2Proof.Machine.execVslideup d a b p e s
  | .vslidedn d a b p e => Sys2Proof.Machine.execVslidedn d a b p e s
  | .vredadd d a b p e => Sys2Proof.Machine.execVredadd d a b p e s
  | .vredmin d a b p e => Sys2Proof.Machine.execVredmin d a b p e s
  | .vredmax d a b p e => Sys2Proof.Machine.execVredmax d a b p e s
  | .vfredadd d a b p e => Sys2Proof.Machine.execVfredadd d a b p e s
  | .vfredmax d a b p e => Sys2Proof.Machine.execVfredmax d a b p e s
  | .vcompress d a p e => Sys2Proof.Machine.execVcompress d a p e s
  | .vextg d a k e => Sys2Proof.Machine.execVextg d a k e s
  | .vcmpeq d a b p e => Sys2Proof.Machine.execVcmpeq d a b p e s
  | .vcmplt d a b p e => Sys2Proof.Machine.execVcmplt d a b p e s
  | .vcmple d a b p e => Sys2Proof.Machine.execVcmple d a b p e s
  | .vfcmpeq d a b p e => Sys2Proof.Machine.execVfcmpeq d a b p e s
  | .vfcmplt d a b p e => Sys2Proof.Machine.execVfcmplt d a b p e s
  | .vfcmple d a b p e => Sys2Proof.Machine.execVfcmple d a b p e s
  | .vfcmpun d a b p e => Sys2Proof.Machine.execVfcmpun d a b p e s
  | .pand d a b => Sys2Proof.Machine.execPand d a b s
  | .por d a b => Sys2Proof.Machine.execPor d a b s
  | .pxor d a b => Sys2Proof.Machine.execPxor d a b s
  | .pnot d a => Sys2Proof.Machine.execPnot d a s
  | .psetn d g => Sys2Proof.Machine.execPsetn d g s
  | .pcnt d a => Sys2Proof.Machine.execPcnt d a s
  | .pfirst d a => Sys2Proof.Machine.execPfirst d a s
  | .vcvt d a x y r t => Sys2Proof.Machine.execVcvt d a x y r t s
  | .vquant d a g r f => Sys2Proof.Machine.execVquant d a g r f s
  | .vdeq d a g r f => Sys2Proof.Machine.execVdeq d a g r f s
  | .vpack d a f => Sys2Proof.Machine.execVpack d a f s
  | .vunpk d a f => Sys2Proof.Machine.execVunpk d a f s
  | .tld d x y => Sys2Proof.Machine.execTld d x y s
  | .tst a x y => Sys2Proof.Machine.execTst a x y s
  | .tzero d => Sys2Proof.Machine.execTzero d s
  | .tzp d x => Sys2Proof.Machine.execTzp d x s
  | .tgetzp a x y => Sys2Proof.Machine.execTgetzp a x y s
  | .lease x y => Sys2Proof.Machine.execLease x y s
  | .mwin x => Sys2Proof.Machine.execMwin x s
  | .mdrain x => Sys2Proof.Machine.execMdrain x s
  | .lstat x y => Sys2Proof.Machine.execLstat x y s
  | .mma a b p => Sys2Proof.Machine.execMma a b p s
  | .mmaz a b p => Sys2Proof.Machine.execMmaz a b p s
  | .push d a k => Sys2Proof.Machine.execPush d a k s
  | .movq b k => Sys2Proof.Machine.execMovq b k s
  | .qpop d k => Sys2Proof.Machine.execQpop d k s
  | .qstat d k => Sys2Proof.Machine.execQstat d k s
  | .bindq a k => Sys2Proof.Machine.execBindq a k s
  | .tlwait b k => Sys2Proof.Machine.execTlwait b k s
  | .tltest d b k => Sys2Proof.Machine.execTltest d b k s
  | .tlread d k => Sys2Proof.Machine.execTlread d k s
  | .evpop d => Sys2Proof.Machine.execEvpop d s
  | .evwait d a => Sys2Proof.Machine.execEvwait d a s
  | .evtry d => Sys2Proof.Machine.execEvtry d s
  | .send d a b => Sys2Proof.Machine.execSend d a b s
  | .sendt d a b k => Sys2Proof.Machine.execSendt d a b k s
  | .spawn d a b => Sys2Proof.Machine.execSpawn d a b s
  | .dlg d a b => Sys2Proof.Machine.execDlg d a b s
  | .dlga d a b => Sys2Proof.Machine.execDlga d a b s
  | .tyield d a => Sys2Proof.Machine.execTyield d a s
  | .tself d => Sys2Proof.Machine.execTself d s
  | .give d a b => Sys2Proof.Machine.execGive d a b s
  | .accept d a b => Sys2Proof.Machine.execAccept d a b s
  | .decline d a => Sys2Proof.Machine.execDecline d a s
  | .lend d a b => Sys2Proof.Machine.execLend d a b s
  | .returnLoan d a => Sys2Proof.Machine.execReturnLoan d a s
  | .reclaim d a => Sys2Proof.Machine.execReclaim d a s
  | .hquery d a b => Sys2Proof.Machine.execHquery d a b s
  | .ownnew d a => Sys2Proof.Machine.execOwnnew d a s
  | .ownend d => Sys2Proof.Machine.execOwnend d s
  | .renew d => Sys2Proof.Machine.execRenew d s
  | .claim d a => Sys2Proof.Machine.execClaim d a s
  | .setheir d a => Sys2Proof.Machine.execSetheir d a s
  | .map d a b => Sys2Proof.Machine.execMap d a b s
  | .unmap d a b => Sys2Proof.Machine.execUnmap d a b s
  | .setclass d a b => Sys2Proof.Machine.execSetclass d a b s
  | .revoke d a b => Sys2Proof.Machine.execRevoke d a b s
  | .scrub d a b => Sys2Proof.Machine.execScrub d a b s
  | .share d a b => Sys2Proof.Machine.execShare d a b s
  | .swname d a b k => Sys2Proof.Machine.execSwname d a b k s
  | .swhash d a b k => Sys2Proof.Machine.execSwhash d a b k s
  | .swread d a b v => Sys2Proof.Machine.execSwread d a b v s
  | .swref d a b => Sys2Proof.Machine.execSwref d a b s
  | .swrel d a b => Sys2Proof.Machine.execSwrel d a b s
  | .swwalk d a b => Sys2Proof.Machine.execSwwalk d a b s
  | .rdc d n => Sys2Proof.Machine.execRdc d n s
  | .wrc a n => Sys2Proof.Machine.execWrc a n s
  | .trap a => Sys2Proof.Machine.execTrap a s
  | .tret y => Sys2Proof.Machine.execTret y s
  | .lrel => Sys2Proof.Machine.execLrel s
  | .mclr => Sys2Proof.Machine.execMclr s
  | .dlgret => Sys2Proof.Machine.execDlgret s
  | .chain => Sys2Proof.Machine.execChain s
  | .replay => Sys2Proof.Machine.execReplay s
  | .tend => Sys2Proof.Machine.execTend s
  | .upret => Sys2Proof.Machine.execUpret s
  | .brk => Sys2Proof.Machine.execBrk s
  | .nop => Sys2Proof.Machine.execNop s
  | .arrayMatrixCommand bench loom => Sys2Proof.Machine.execArrayMatrixCommand bench loom s
  | .loomGrant bench loom => Sys2Proof.Machine.execLoomGrant bench loom s
  | .loomIdleExpiry bench loom => Sys2Proof.Machine.execLoomIdleExpiry bench loom s
  | .selvageHandlerStart bench loom => Sys2Proof.Machine.execSelvageHandlerStart bench loom s
  | .watchWrite n a => Sys2Proof.Machine.execWatchWrite n a s
  | .emulentWrite a => Sys2Proof.Machine.execEmulentWrite a s
  | .hqctxWrite a => Sys2Proof.Machine.execHqctxWrite a s
  | .hqcapWrite w a => Sys2Proof.Machine.execHqcapWrite w a s
  | .assayEndpointHandle owner => Sys2Proof.Machine.execAssayEndpointHandle owner s
  | .assayAttestation owner => Sys2Proof.Machine.execAssayAttestation owner s
  | .assayKeyImport owner => Sys2Proof.Machine.execAssayKeyImport owner s
  | .assayPublicKeys owner => Sys2Proof.Machine.execAssayPublicKeys owner s
  | .copy ctx => Sys2Proof.Machine.execCopy ctx s
  | .copy2d ctx => Sys2Proof.Machine.execCopy2d ctx s
  | .fill ctx => Sys2Proof.Machine.execFill ctx s
  | .resume ctx => Sys2Proof.Machine.execResume ctx s
  | .framecopy ctx => Sys2Proof.Machine.execFramecopy ctx s
  | .framecopyPass1 ctx => Sys2Proof.Machine.execFramecopyPass1 ctx s
  | .framecopyPass2 ctx => Sys2Proof.Machine.execFramecopyPass2 ctx s
  | .framecopyPass3 ctx => Sys2Proof.Machine.execFramecopyPass3 ctx s
  | .gather ctx => Sys2Proof.Machine.execGather ctx s
  | .allreduce ctx agree reach peers => Sys2Proof.Machine.execAllreduce ctx agree reach peers s
  | .redscat ctx agree reach peers => Sys2Proof.Machine.execRedscat ctx agree reach peers s
  | .allgather ctx agree reach peers => Sys2Proof.Machine.execAllgather ctx agree reach peers s
  | .mcast ctx reach => Sys2Proof.Machine.execMcast ctx reach s
  | .launch ctx => Sys2Proof.Machine.execLaunch ctx s
  | .launchPlacement launch core => Sys2Proof.Machine.execLaunchPlacement launch core s
  | .swout ctx => Sys2Proof.Machine.execSwout ctx s
  | .releaseCommand ctx => Sys2Proof.Machine.execReleaseCommand ctx s
  | .releaseCommandPlacement region => Sys2Proof.Machine.execReleaseCommandPlacement region s
  | .sweep ctx => Sys2Proof.Machine.execSweep ctx s
  | .nsend ctx => Sys2Proof.Machine.execNsend ctx s
  | .nrecv ctx => Sys2Proof.Machine.execNrecv ctx s
  | .nwrite ctx => Sys2Proof.Machine.execNwrite ctx s
  | .nread ctx => Sys2Proof.Machine.execNread ctx s
  | .packetArrival pkt => Sys2Proof.Machine.execPacketArrival pkt s
  | .selectiveAckArrival ctx number acked marked status => Sys2Proof.Machine.execSelectiveAckArrival ctx number acked marked status s
  | .retransmissionTimeout ctx number seq nacked => Sys2Proof.Machine.execRetransmissionTimeout ctx number seq nacked s
  | .eventRecordPost core => Sys2Proof.Machine.execEventRecordPost core s
  | .hostPush q link whole w0 w1 w2 w3 => Sys2Proof.Machine.execHostPush q link whole w0 w1 w2 w3 s
  | .hostQueuePass q => Sys2Proof.Machine.execHostQueuePass q s
  | .messageArrival core m => Sys2Proof.Machine.execMessageArrival core m s
  | .inboxTaskStart core => Sys2Proof.Machine.execInboxTaskStart core s
  | .stewardRequestStart core => Sys2Proof.Machine.execStewardRequestStart core s
  | .dlgReplyArrival core slot => Sys2Proof.Machine.execDlgReplyArrival core slot s
  | .dlgResend core slot => Sys2Proof.Machine.execDlgResend core slot s
  | .issueCycle core cycles => Sys2Proof.Machine.execIssueCycle core cycles s
  | .issueGuardExpiry core slot => Sys2Proof.Machine.execIssueGuardExpiry core slot s
  | .rotaTurnStart core => Sys2Proof.Machine.execRotaTurnStart core s
  | .sliceEnd core => Sys2Proof.Machine.execSliceEnd core s
  | .sliceLimitExpiry core => Sys2Proof.Machine.execSliceLimitExpiry core s
  | .sliceBudgetEnd core => Sys2Proof.Machine.execSliceBudgetEnd core s
  | .trapDelivery core slot => Sys2Proof.Machine.execTrapDelivery core slot s
  | .imageRestore core slot => Sys2Proof.Machine.execImageRestore core slot s
  | .writeProtectRetry core slot => Sys2Proof.Machine.execWriteProtectRetry core slot s
  | .uncorrectableError addr inSlice dirtyInSlice => Sys2Proof.Machine.execUncorrectableError addr inSlice dirtyInSlice s
  | .macFailure addr => Sys2Proof.Machine.execMacFailure addr s
  | .offerDeadline res => Sys2Proof.Machine.execOfferDeadline res s
  | .termEnd res => Sys2Proof.Machine.execTermEnd res s
  | .ownerLapse owner => Sys2Proof.Machine.execOwnerLapse owner s
  | .recoveryBudgetEnd res => Sys2Proof.Machine.execRecoveryBudgetEnd res s
  | .recoveryComplete res => Sys2Proof.Machine.execRecoveryComplete res s
  | .registerScanDeadline core => Sys2Proof.Machine.execRegisterScanDeadline core s
  | .classRebalance die => Sys2Proof.Machine.execClassRebalance die s
  | .replyHandler r => Sys2Proof.Machine.execReplyHandler r s
  | .loadHandler r => Sys2Proof.Machine.execLoadHandler r s
  | .storeHandler r => Sys2Proof.Machine.execStoreHandler r s
  | .atomicHandler r => Sys2Proof.Machine.execAtomicHandler r s
  | .swatchCountHandler r => Sys2Proof.Machine.execSwatchCountHandler r s
  | .spawnHandler core r m => Sys2Proof.Machine.execSpawnHandler core r m s
  | .bulkStoreHandler r => Sys2Proof.Machine.execBulkStoreHandler r s
  | .launchHandler r w0 w1 w2 shop priority => Sys2Proof.Machine.execLaunchHandler r w0 w1 w2 shop priority s
  | .unimplementedHandler handler r m => Sys2Proof.Machine.execUnimplementedHandler handler r m s
  | .linkTraining link peer signed => Sys2Proof.Machine.execLinkTraining link peer signed s
  | .linkNarrowing link => Sys2Proof.Machine.execLinkNarrowing link s
  | .linkDown link => Sys2Proof.Machine.execLinkDown link s
  | .ocsDrainRequest link => Sys2Proof.Machine.execOcsDrainRequest link s
  | .drainMarkerReturn link => Sys2Proof.Machine.execDrainMarkerReturn link s
  | .routeHoldTimeout peer => Sys2Proof.Machine.execRouteHoldTimeout peer s
  | .start value => Sys2Proof.Machine.execStart value s
  | .devnumWrite value => Sys2Proof.Machine.execDevnumWrite value s
  | .reset verified bad => Sys2Proof.Machine.execReset verified bad s
  | .clockStep up => Sys2Proof.Machine.execClockStep up s
  | .spanCapacityStallLimit core slot => Sys2Proof.Machine.execSpanCapacityStallLimit core slot s
  | .tyieldCycleLimit core slot => Sys2Proof.Machine.execTyieldCycleLimit core slot s
  | .evwaitCycleLimit core slot => Sys2Proof.Machine.execEvwaitCycleLimit core slot s
  | .ideStreamKeying link => Sys2Proof.Machine.execIdeStreamKeying link s
  | .benchQuarantine bench => Sys2Proof.Machine.execBenchQuarantine bench s

end Sys2Proof.Machine
end

