-- ==== Sys2Proof/Machine/Due.lean ====
section
/-! DEFINITION. What happens by itself between instructions: the events whose conditions hold in the state, in a fixed order (the order
is the model's own: the manual orders events only at their arbiters, R135). -/
namespace Sys2Proof.Machine

/-- A state that differs from this one. -/
def State.changed (s t : State) : Option State := if t = s then none else some t

/-- The first of some functions whose condition holds and that changes the state. -/
def State.firstOf (s : State) (l : List (Bool × (State → State))) : Option State :=
  l.findSome? (fun f => if f.1 then s.changed (f.2 s) else none)

/-! ### Slots -/

/-- A pending trap of a slot that waits. -/
def State.dueDelivery (s : State) (x : Slot) : Option State :=
  if x.park != .no && x.coopReady && x.running then s.changed (s.deliver x.core x.idx) else none

/-- A delegation reply, or a request to be sent again. -/
def State.dueDelegation (s : State) (x : Slot) : Option State :=
  if x.delegated.isNone then none
  else if x.delegateReply.isSome then s.firstOf [(true, fun t => t.dlgReplied x.core x.idx), (true, fun t => t.imageReplied x.core x.idx)]
  else if x.resend.any (fun c => decide (c ≤ s.cycle)) then s.changed (s.resend x.core x.idx)
  else none

def State.dueSlots (s : State) : Option State :=
  (s.slots.findSome? s.dueDelivery).orElse (fun _ => s.heldSlots.findSome? s.dueDelegation)

/-! ### Cores -/

/-- The porter's FIFO is empty and it sleeps only in its own step; what else a core does by itself. -/
def State.dueCore (s : State) (c : Core) : Option State :=
  let i := c.idx
  if s.quarantined.contains (coreBench i) then none
  else
    s.firstOf [
      (!c.held.isEmpty, fun t => t.postHeld i),
      (!c.rota.toList.all (fun r => r.slice == 0) || c.turn.phase != 0, fun t => t.startTurn i),
      (c.turn.phase == 1 && s.sliceOver i, fun t => t.endSlice i),
      (c.turn.phase == 2 && s.limitOver i, fun t => t.passLimit i),
      (c.turn.phase != 0 && s.sliceBudgetOver i, fun t => t.endSliceBudget i),
      (!c.inbox.isEmpty, fun t => t.inboxStart i),
      (!c.steward.isEmpty, fun t => t.stewardStart i)]

/-- A loom: its array, an idle lease, a row that leaves, a grant (R244 to R257). -/
def State.dueLoom (s : State) (l : Loom) : Option State :=
  if s.quarantined.contains l.bench then none
  else
    s.firstOf [
      (!l.queue.isEmpty, fun t => t.arrayStep l.bench l.idx),
      (s.loomIdle l, fun t => t.loomExpires l.bench l.idx),
      (s.selvageReady l, fun t => t.selvageStart l.bench l.idx),
      (!l.pending.isEmpty, fun t => t.grant l.bench l.idx)]

/-- An image that fits a slot of a core where its owner's work may run. -/
def State.dueImage (s : State) (o : Owner) : Option State :=
  if o.images.isEmpty then none
  else
    ((List.range Config.cores).filter (fun c => s.ownerMayRun c o.id)).findSome? (fun c =>
      ([0, 1, 2, 3, 4, 5, 6, 7, 8] : List Nat).findSome? (fun i =>
        if (s.slot c i).running || (s.imageFor c i).isNone then none else s.changed (s.restoreAt c i)))

/-! ### Engines -/

/-- Who takes part in a collective is this device alone, so that nothing from outside is needed. -/
def State.onlyHere (s : State) (c : Cmd) : Bool := c.members.all (fun d => d == s.devnum)

/-- How a command runs, where it takes nothing from outside. -/
def Cmd.body (c : Cmd) (ci : Nat) : State → Cmd → Ran :=
  match c.code with
  | 0x01 => fun t c => t.runCopy ci c
  | 0x02 => fun t c => t.runCopy ci c
  | 0x03 => fun t c => t.runCopy ci c
  | 0x04 => fun t c => t.runResume ci c
  | 0x05 =>
    if c.passNo = 0 then fun t c => t.runFramecopy ci c
    else if c.passNo = 1 then fun t c => t.runPass1 ci c
    else if c.passNo = 2 then fun t c => t.runPass2 ci c
    else fun t c => t.runPass3 ci c
  | 0x10 => fun t c => t.runGather ci c
  | 0x20 => fun t c => t.collective ci c true true [] (fun l n _ => reduceBytes c.redOp c.redTree l n)
  | 0x21 => fun t c => t.collective ci c true true []
      (fun l n r => ((reduceBytes c.redOp c.redTree l n).drop (n / l.length * r)).take (n / l.length))
  | 0x22 => fun t c => t.collective ci c true true [] (fun l _ _ => l.flatten)
  | 0x23 => fun t c => t.runMcast ci c (c.members.all (fun d => d == t.devnum || t.reaches d))
  | 0x30 => fun t c => t.runSend ci c
  | 0x31 => fun t c => t.runNrecv ci c
  | 0x32 => fun t c => t.runSend ci c
  | 0x33 => fun t c => t.runNread ci c
  | 0x40 => fun t c => t.runLaunch ci c
  | 0x50 => fun t c => t.runSwout ci c
  | 0x60 => fun t c => t.runSweep ci c
  -- a code of no command is refused before it runs
  | _ => fun t _ => .ok t

/-- A collective waits for its other members. -/
def State.selfRuns (s : State) (c : Cmd) : Bool := !(c.code == 0x20 || c.code == 0x21 || c.code == 0x22) || s.onlyHere c

/-- A waiting command of a context goes on, or its next one starts, where its event takes nothing from outside; a block that its engine
refuses does so whichever event meets it. -/
def State.runCtx (s : State) (ci : Nat) : State :=
  match (s.ctx ci).stalled.findSome? (fun c => if s.selfRuns c then s.changed (s.attempt ci c (c.body ci)) else none) with
  | some t => t
  | none =>
    match s.startable ci with
    | none => s
    | some c =>
      let refused := !s.codeOk ci c || c.doomed.isSome || (c.badWord3.orElse (fun _ => c.badWords)).isSome
      if c.code = 0x51 && s.codeOk ci c then s.runRelease ci
      else if refused || s.selfRuns c then s.startNext ci c.code (c.body ci)
      else s

/-- A packet whose timeout has passed. -/
def State.dueFlight (s : State) (f : Flight) : Option State := if s.timedOut f then some (s.lose f) else none

/-- What a context does by itself. -/
def State.dueCtx (s : State) (x : Ctx) : Option State :=
  (s.firstOf [
      (!x.waiting.isEmpty || !x.stalls.isEmpty, fun t => t.runCtx x.idx),
      (!x.farRuns.isEmpty,
        fun t => (x.farRuns.filter (fun q => !x.waitsFar q.number)).foldl (fun t q => t.farDone x.idx q.number) t)]).orElse
    (fun _ => x.flights.findSome? s.dueFlight)

/-! ### Launches -/

/-- A launch places what it can; of the cores that would do, the first takes a task (R268: the choice is not architectural). -/
def State.dueLaunch (s : State) (l : Launch) : Option State :=
  if (s.servedLaunch l.owner).map Launch.id ≠ some l.id then none
  else if !l.begun || l.shop.isNone || l.resident then s.changed (s.place l.id 0)
  else
    match (List.range Config.cores).find? (fun c => (s.placeOn l c).isSome) with
    | some c => s.changed (s.place l.id c)
    | none => none

/-! ### The rest -/

def State.dueEntry (s : State) (e : Entry) : Option State :=
  s.firstOf [
    (s.offerOver e, fun t => t.applyDeadline e.id),
    (s.termOver e, fun t => t.endTerm e.id),
    (s.budgetOver e, fun t => t.endBudget e.id),
    (s.canSettle e, fun t => t.completeRecovery e.id)]

def State.dueOwner (s : State) (o : Owner) : Option State :=
  (s.firstOf [
      (s.lapseDue o, fun t => t.lapse o.id),
      (o.seed.isSome, fun t => t.startSeed o),
      (o.dissolving.isSome, fun t => t.endDissolve o.id),
      (o.assaystat.getLsbD 0, fun t => t.assay o.id 1 State.assayHandle),
      (o.assaystat.getLsbD 0, fun t => t.assay o.id 2 State.assayAttest),
      (o.assaystat.getLsbD 0, fun t => t.assay o.id 3 State.assayImport),
      (o.assaystat.getLsbD 0, fun t => t.assay o.id 4 State.assayKeys)]).orElse
    (fun _ => s.dueImage o)

/-- What happens by itself in this state. -/
def State.dueEvent (s : State) : Option State :=
  s.dueSlots.orElse (fun _ =>
  (s.owners.findSome? s.dueOwner).orElse (fun _ =>
  (s.entries.findSome? s.dueEntry).orElse (fun _ =>
  (s.launches.findSome? s.dueLaunch).orElse (fun _ =>
  (s.cores.findSome? s.dueCore).orElse (fun _ =>
  (s.looms.findSome? s.dueLoom).orElse (fun _ =>
  (s.ctxs.findSome? s.dueCtx).orElse (fun _ =>
  (s.regions.findSome? (fun r => if r.heldReleases.isEmpty then none else s.changed (s.releaseEnters r.seg))).orElse (fun _ =>
  (s.hostqs.findSome? (fun h => if h.blocks.isEmpty then none else s.changed (s.passBlock h.q))).orElse (fun _ =>
  (s.firstOf [(!s.chainNotes.isEmpty, State.hearNotes)]).orElse (fun _ =>
  (s.launches.findSome? (fun l => if l.asks.isEmpty then none else s.changed (s.chainGive l))).orElse (fun _ =>
  (s.firstOf [(!s.faultsHeld.isEmpty, State.postHeldFault), (s.scanDue, State.scanAll)]).orElse (fun _ =>
  s.retryRequests.orElse (fun _ =>
  s.firstOf (([0, 1, 2, 3] : List (BitVec 2)).map (fun d => (s.rebalanceDue d, fun t => t.classRebalanced d))))))))))))))))

/-- What happens as a cycle passes: merged groups reach their homes, and caches may give up kept lines (R78, R131). -/
def State.meanwhile (s : State) : State := s.routersEmpty.evict

end Sys2Proof.Machine
end

