-- ==== Sys2Proof/Machine/Step.lean ====
section
/-! DEFINITION. One step of the device: a slot that has been picked issues; else the next event from outside, else what happens by
itself, else a core picks a slot and the slot issues, else a cycle passes. -/
namespace Sys2Proof.Machine

/-- The events in which a core picks a slot; before any other the routers' merged groups reach their homes (R131). -/
def picks : Instr → Bool
  | .issueCycle _ _ => true
  | .issueGuardExpiry _ _ => true
  | _ => false

/-- One step. Only steps without a word can be events. -/
def step (s : State) : Host.Outcome State Fault Refusal :=
  if s.picked then ({ s with picked := false }).issue exec
  else
    match s.agenda with
    | i :: rest =>
      if isWord i then .next { s with agenda := rest }
      else if picks i then exec i { s with agenda := rest }
      else exec i { s.routersEmpty with agenda := rest }
    | [] =>
      match s.routersEmpty.dueEvent with
      | some t => .next t
      | none =>
        match s.nextIssuer with
        | some t => t.issue exec
        | none => .next s.meanwhile.tick

/-- The word `w` where the next fetch is; every instruction has 32 bits. -/
def State.withFetchWord (s : State) (_nbits w : Nat) : State := s.withWord (BitVec.ofNat 32 w)

end Sys2Proof.Machine
end

