-- ==== Sys2Proof/Safety.lean ====
section
/-! DEFINITION. What counts as a safe run: every step of it answers a next state. Traps, statuses and errors of the manual are next
states; a run that meets a fault or a refusal is not safe. -/
namespace Sys2Proof

/-- The first `k` steps from a state all answer a next state. -/
def SafeFor (k : Nat) (s : Machine.State) : Prop := ∃ t, Host.Core.run Sys2Proof.core k s = .next t

/-- Every step from a state answers a next state. -/
def Safe (s : Machine.State) : Prop := ∀ k, SafeFor k s

end Sys2Proof
end

