-- ==== Sys2Proof/Certificates/Slice0/Obligations.lean ====
section
/-! DEFINITION. The statements for the provers, and before them the words they are said in: what it means that an instruction
completes, what it writes, and that it leaves everything else alone. -/
namespace Sys2Proof.Claims

open Machine

/-! ### What an instruction leaves alone -/

/-- Everything of a slot but its g, v and p registers, FLAGS, the PCC and the marks of the window is as before: the trap frame, the
vectors, the modes, the spans, what is outstanding. The flags that an instruction newly sets are marked as the window's (R158). -/
def SlotFrame (x y : Slot) : Prop :=
  y = { x with
    g := y.g, v := y.v, p := y.p, flags := y.flags, pcc := y.pcc, winDone := y.winDone, park := y.park
    afterTransfer := y.afterTransfer, replay := y.replay, winFlags := x.winFlags ||| (y.flags &&& ~~~x.flags) }

/-- The instruction is complete and the next word follows (R159, R189); after a window of its own, in another window (R210, R243). -/
def Retired (s t : State) : Prop :=
  t.self.pcc = s.self.pcc.withAddrBits (s.pc + 4) ∧ t.self.winDone = s.self.winDone ||| doneBit s.self.winStart s.pc
    ∧ t.self.park = .no ∧ t.self.afterTransfer = s.self.park.alone ∧ t.self.replay = false

/-- The g, v and p registers and FLAGS are as given; the rest of the slot and of the device is as before, and every byte of memory
reads as before. -/
def Registers (s t : State) (g : BitVec 5 → Cap) (v : BitVec 5 → Vec) (p : BitVec 3 → Pred) (fl : U64) : Prop :=
  (∀ n, t.g n = g n) ∧ (∀ n, t.v n = v n) ∧ (∀ n, t.p n = p n) ∧ t.self.flags = fl ∧ SlotFrame s.self t.self
    ∧ t = { s with self := t.self } ∧ ∀ a, t.byteAt a = s.byteAt a

/-- The g registers with one written; g0 discards it (R164). -/
def gSet (s : State) (d : BitVec 5) (c : Cap) (n : BitVec 5) : Cap := if n = d ∧ n ≠ 0 then c else s.g n
/-- The v registers with one written. -/
def vSet (s : State) (d : BitVec 5) (x : Vec) (n : BitVec 5) : Vec := if n = d then x else s.v n
/-- The p registers with one written; p0 discards it (R164). -/
def pSet (s : State) (d : BitVec 3) (x : Pred) (n : BitVec 3) : Pred := if n = d ∧ n ≠ 0 then x else s.p n

/-- The instruction completes, writes `c` to gd and nothing else. -/
def PutsG (i : Instr) (s : State) (d : BitVec 5) (c : Cap) : Prop :=
  ∃ t, exec i s = .next t ∧ Registers s t (gSet s d c) s.v s.p s.self.flags ∧ Retired s t

/-- The instruction completes and writes an integer to gd under R23: the high half zero, untagged. -/
def PutsX (i : Instr) (s : State) (d : BitVec 5) (x : U64) : Prop := PutsG i s d { bits := 0#64 ++ x, tag := false }

/-- The instruction completes, writes `x` to vd, adds the flags `fl` to FLAGS, and nothing else. -/
def PutsV (i : Instr) (s : State) (d : BitVec 5) (x : Vec) (fl : U64) : Prop :=
  ∃ t, exec i s = .next t ∧ Registers s t s.g (vSet s d x) s.p (s.self.flags ||| fl) ∧ Retired s t

/-- The instruction completes, writes `x` to pd, adds the flags `fl` to FLAGS, and nothing else. -/
def PutsP (i : Instr) (s : State) (d : BitVec 3) (x : Pred) (fl : U64) : Prop :=
  ∃ t, exec i s = .next t ∧ Registers s t s.g s.v (pSet s d x) (s.self.flags ||| fl) ∧ Retired s t

/-- An integer cut to 64 bits. -/
def cut (v : Int) : U64 := BitVec.ofInt 64 v
/-- The low 32 bits of a register, signed and unsigned. -/
def low (x : U64) : Nat := x.toNat % 2 ^ 32
def slow (x : U64) : Int := (BitVec.ofNat 32 (low x)).toInt
/-- The sign extension of the low 32 bits of an integer (R184). -/
def sext32 (v : Int) : U64 := cut ((BitVec.ofInt 32 v).toInt)
/-- Quotients truncated toward zero with the corner cases of R183, at a width. -/
def quot (w : Nat) (x y : Int) : Int := if y = 0 then -1 else if x = -2 ^ (w - 1) ∧ y = -1 then -2 ^ (w - 1) else x.tdiv y
def rmdr (w : Nat) (x y : Int) : Int :=
  if y = 0 then x else if x = -2 ^ (w - 1) ∧ y = -1 then 0 else x - y * x.tdiv y

end Sys2Proof.Claims

open Sys2Proof Sys2Proof.Machine Sys2Proof.Claims

/-! ### The scalar instructions -/

/-- R182: CLZ, CTZ and POPC, by what their results mean. -/
def Sys2Proof.Claims.Counts : Prop :=
  ∀ (s : State) (d a : BitVec 5),
    let x := s.x a
    (∃ k : Nat, PutsX (.clz d a) s d (BitVec.ofNat 64 k) ∧ (x = 0 → k = 64)
      ∧ (x ≠ 0 → k < 64 ∧ 2 ^ (63 - k) ≤ x.toNat ∧ x.toNat < 2 ^ (64 - k)))
    ∧ (∃ k : Nat, PutsX (.ctz d a) s d (BitVec.ofNat 64 k) ∧ (x = 0 → k = 64)
      ∧ (x ≠ 0 → k < 64 ∧ x.getLsbD k = true ∧ ∀ j, j < k → x.getLsbD j = false))
    ∧ PutsX (.popc d a) s d (BitVec.ofNat 64 ((List.range 64).map (fun i => (x.getLsbD i).toNat)).sum)

/-- R182, R181, R23: the OP members but division and GPAIR, GHI: every form, g0 among the destinations. The operands are read as
integers, the result is exact and then cut to 64 bits; and the counts. -/
def Obligations.scalar_op : Prop :=
  Claims.Counts ∧ ∀ (s : State) (d a b : BitVec 5),
    let x := s.x a
    let y := s.x b
    PutsX (.add d a b) s d (cut (x.toInt + y.toInt)) ∧ PutsX (.sub d a b) s d (cut (x.toInt - y.toInt))
    ∧ PutsX (.and d a b) s d (x &&& y) ∧ PutsX (.or d a b) s d (x ||| y) ∧ PutsX (.xor d a b) s d (x ^^^ y)
    ∧ PutsX (.andn d a b) s d (x &&& ~~~y)
    ∧ PutsX (.sll d a b) s d (cut (x.toNat * 2 ^ (y.toNat % 64))) ∧ PutsX (.srl d a b) s d (cut (x.toNat / 2 ^ (y.toNat % 64)))
    ∧ PutsX (.sra d a b) s d (cut (x.toInt / 2 ^ (y.toNat % 64)))
    ∧ PutsX (.slt d a b) s d (if x.toInt < y.toInt then 1 else 0) ∧ PutsX (.sltu d a b) s d (if x.toNat < y.toNat then 1 else 0)
    ∧ PutsX (.min d a b) s d (cut (min x.toInt y.toInt)) ∧ PutsX (.max d a b) s d (cut (max x.toInt y.toInt))
    ∧ PutsX (.minu d a b) s d (cut (min x.toNat y.toNat)) ∧ PutsX (.maxu d a b) s d (cut (max x.toNat y.toNat))
    ∧ PutsX (.mul d a b) s d (cut (x.toInt * y.toInt)) ∧ PutsX (.mulh d a b) s d (cut (x.toInt * y.toInt / 2 ^ 64))
    ∧ PutsX (.mulhu d a b) s d (cut (x.toNat * y.toNat / 2 ^ 64))

/-- R183: the four divisions, by zero and of the least number by −1 too. -/
def Obligations.scalar_division : Prop :=
  ∀ (s : State) (d a b : BitVec 5),
    let x := s.x a
    let y := s.x b
    PutsX (.div d a b) s d (cut (quot 64 x.toInt y.toInt)) ∧ PutsX (.rem d a b) s d (cut (rmdr 64 x.toInt y.toInt))
    ∧ PutsX (.divu d a b) s d (cut (if y.toNat = 0 then 2 ^ 64 - 1 else (x.toNat / y.toNat : Nat)))
    ∧ PutsX (.remu d a b) s d (cut (if y.toNat = 0 then x.toNat else x.toNat - y.toNat * (x.toNat / y.toNat)))

/-- R188: GPAIR packs two halves, untagged; GHI reads the high half of a capability register, tagged or not; the words of both, and no word
of GHI with a nonzero b field. -/
def Obligations.gpair_ghi : Prop :=
  ∀ (s : State) (d a b : BitVec 5),
    PutsG (.gpair d a b) s d { bits := s.x b ++ s.x a, tag := false }
    ∧ PutsX (.ghi d a) s d ((s.g a).bits.extractLsb' 64 64)
    ∧ decode (0#1 ++ 0x01#6 ++ d ++ a ++ b ++ 0x1C#10) = .ok (false, .gpair d a b)
    ∧ decode (0#1 ++ 0x01#6 ++ d ++ a ++ 0#5 ++ 0x1D#10) = .ok (false, .ghi d a)
    ∧ (b ≠ 0 → ∃ e, decode (0#1 ++ 0x01#6 ++ d ++ a ++ b ++ 0x1D#10) = .error e)

/-- R184, R183: the OPW members compute with the low 32 bits and write the sign-extended 32-bit result. -/
def Sys2Proof.Claims.ScalarOpw : Prop :=
  ∀ (s : State) (d a b : BitVec 5),
    let x := s.x a
    let y := s.x b
    PutsX (.addw d a b) s d (sext32 (slow x + slow y)) ∧ PutsX (.subw d a b) s d (sext32 (slow x - slow y))
    ∧ PutsX (.sllw d a b) s d (sext32 (low x * 2 ^ (y.toNat % 32))) ∧ PutsX (.srlw d a b) s d (sext32 (low x / 2 ^ (y.toNat % 32)))
    ∧ PutsX (.sraw d a b) s d (sext32 (slow x / 2 ^ (y.toNat % 32))) ∧ PutsX (.mulw d a b) s d (sext32 (slow x * slow y))
    ∧ PutsX (.divw d a b) s d (sext32 (quot 32 (slow x) (slow y))) ∧ PutsX (.remw d a b) s d (sext32 (rmdr 32 (slow x) (slow y)))
    ∧ PutsX (.divuw d a b) s d (sext32 (if low y = 0 then 2 ^ 32 - 1 else (low x / low y : Nat)))
    ∧ PutsX (.remuw d a b) s d (sext32 (if low y = 0 then low x else low x - low y * (low x / low y)))

/-- R185, R186, R187: the immediate forms, the immediate sign-extended; LUI writes its 20 bits over 14 zero bits, sign-extended from
34 bits. -/
def Sys2Proof.Claims.ScalarImmediate : Prop :=
  ∀ (s : State) (d a : BitVec 5) (i : BitVec 15) (n : BitVec 6) (m : BitVec 5) (u : BitVec 20),
    let x := s.x a
    PutsX (.addi d a i) s d (cut (x.toInt + i.toInt)) ∧ PutsX (.andi d a i) s d (x &&& cut i.toInt)
    ∧ PutsX (.ori d a i) s d (x ||| cut i.toInt) ∧ PutsX (.xori d a i) s d (x ^^^ cut i.toInt)
    ∧ PutsX (.slti d a i) s d (if x.toInt < i.toInt then 1 else 0)
    ∧ PutsX (.sltiu d a i) s d (if x.toNat < (cut i.toInt).toNat then 1 else 0)
    ∧ PutsX (.addiw d a i) s d (sext32 (slow x + i.toInt))
    ∧ PutsX (.slli d a n) s d (cut (x.toNat * 2 ^ n.toNat)) ∧ PutsX (.srli d a n) s d (cut (x.toNat / 2 ^ n.toNat))
    ∧ PutsX (.srai d a n) s d (cut (x.toInt / 2 ^ n.toNat)) ∧ PutsX (.slliw d a m) s d (sext32 (low x * 2 ^ m.toNat))
    ∧ PutsX (.srliw d a m) s d (sext32 (low x / 2 ^ m.toNat)) ∧ PutsX (.sraiw d a m) s d (sext32 (slow x / 2 ^ m.toNat))
    ∧ PutsX (.lui d u) s d (cut (u.toInt * 2 ^ 14))

/-- R184 to R187: the OPW members and the immediate forms. -/
def Obligations.scalar_narrow_and_immediate : Prop := Claims.ScalarOpw ∧ Claims.ScalarImmediate

/-! ### Control transfers (R189 to R193) -/

namespace Sys2Proof.Claims

/-- Steps 1 to 6 of R19 pass for a new PCC: tagged, unsealed, not revoked, holding X, four bytes in bounds, aligned. -/
def Enterable (s : State) (c : Cap) : Prop :=
  c.tag = true ∧ c.otype = 0 ∧ s.revokedAddr c.bounds.base.toNat = false ∧ c.holds .x = true
    ∧ c.bounds.base ≤ c.addr.toNat ∧ (c.addr.toNat : Int) + 4 ≤ c.bounds.top ∧ c.addr.toNat % 4 = 0

/-- The class of the first of those checks that fails, in their order. -/
def EntryClass (s : State) (c : Cap) (k : BitVec 6) : Prop :=
  (c.tag = false ∧ k = 0x03)
  ∨ (c.tag = true ∧ c.otype ≠ 0 ∧ k = 0x06)
  ∨ (c.tag = true ∧ c.otype = 0 ∧ s.revokedAddr c.bounds.base.toNat = true ∧ k = 0x16)
  ∨ (c.tag = true ∧ c.otype = 0 ∧ s.revokedAddr c.bounds.base.toNat = false ∧ c.holds .x = false ∧ k = 0x05)
  ∨ (c.tag = true ∧ c.otype = 0 ∧ s.revokedAddr c.bounds.base.toNat = false ∧ c.holds .x = true
      ∧ ¬(c.bounds.base ≤ c.addr.toNat ∧ (c.addr.toNat : Int) + 4 ≤ c.bounds.top) ∧ k = 0x04)
  ∨ (c.tag = true ∧ c.otype = 0 ∧ s.revokedAddr c.bounds.base.toNat = false ∧ c.holds .x = true
      ∧ c.bounds.base ≤ c.addr.toNat ∧ (c.addr.toNat : Int) + 4 ≤ c.bounds.top ∧ c.addr.toNat % 4 ≠ 0 ∧ k = 0x0B)

/-- A capability with its cursor moved under R17. -/
def atCursor (c : Cap) (a : U64) : Cap := { bits := c.bits.extractLsb' 64 64 ++ a, tag := c.tag && c.representable a }

/-- The transfer is complete: the PCC is `c`, and a window begins there (R155, R189). -/
def Moved (s t : State) (c : Cap) : Prop :=
  t.self.pcc = c ∧ t.self.winDone = s.self.winDone ||| doneBit s.self.winStart s.pc ∧ t.self.park = .no
    ∧ t.self.afterTransfer = true ∧ t.self.replay = false

/-- The instruction writes the link to gd, moves the PCC to `c`, and changes nothing else. -/
def Jumps (i : Instr) (s : State) (d : BitVec 5) (c : Cap) : Prop :=
  ∃ t, exec i s = .next t ∧ Registers s t (gSet s d (atCursor s.self.pcc (s.pc + 4))) s.v s.p s.self.flags ∧ Moved s t c

/-- The instruction writes no register and moves the PCC to `c`. -/
def Goes (i : Instr) (s : State) (c : Cap) : Prop :=
  ∃ t, exec i s = .next t ∧ Registers s t s.g s.v s.p s.self.flags ∧ Moved s t c

/-- A branch: not taken it goes on at the next word, and taken to a target that passes the checks, there. -/
def Branches (i : Instr) (s : State) (taken : Prop) (o : BitVec 12) : Prop :=
  (¬taken → Goes i s (s.self.pcc.withAddrBits (s.pc + 4)))
  ∧ (taken → Enterable s (atCursor s.self.pcc (s.pc + cut (4 * o.toInt))) → Goes i s (atCursor s.self.pcc (s.pc + cut (4 * o.toInt))))

end Sys2Proof.Claims

/-- R190, R191: JAL and JALR to a target that passes steps 1 to 6 of R19 write the link, unless it is g0, and replace the PCC; the
target of a JALR is formed from ga before the link is written. -/
def Sys2Proof.Claims.JumpAndLink : Prop :=
  ∀ (s : State) (d a : BitVec 5) (o : BitVec 20) (i : BitVec 15),
    let near := atCursor s.self.pcc (s.pc + cut (4 * o.toInt))
    let far := atCursor (s.g a) (s.x a + cut i.toInt)
    (Enterable s near → Jumps (.jal d o) s d near) ∧ (Enterable s far → Jumps (.jalr d a i) s d far)

/-- R192: the eight branches, and their words in the B format. -/
def Obligations.branches : Prop :=
  ∀ (s : State) (a b : BitVec 5) (o : BitVec 12),
    let x := s.x a
    let y := s.x b
    Branches (.beq a b o) s (x = y) o ∧ Branches (.bne a b o) s (x ≠ y) o
    ∧ Branches (.blt a b o) s (x.toInt < y.toInt) o ∧ Branches (.bge a b o) s (y.toInt ≤ x.toInt) o
    ∧ Branches (.bltu a b o) s (x.toNat < y.toNat) o ∧ Branches (.bgeu a b o) s (y.toNat ≤ x.toNat) o
    ∧ Branches (.btag a o) s ((s.g a).tag = true) o ∧ Branches (.bntag a o) s ((s.g a).tag = false) o
    ∧ (let word (b : BitVec 5) (cond : BitVec 3) := decode (0#1 ++ 0x0E#6 ++ a ++ b ++ cond ++ o)
       word b 0 = .ok (false, .beq a b o) ∧ word b 1 = .ok (false, .bne a b o) ∧ word b 2 = .ok (false, .blt a b o)
       ∧ word b 3 = .ok (false, .bge a b o) ∧ word b 4 = .ok (false, .bltu a b o) ∧ word b 5 = .ok (false, .bgeu a b o)
       ∧ word 0 6 = .ok (false, .btag a o) ∧ word 0 7 = .ok (false, .bntag a o) ∧ (b ≠ 0 → ∀ cond : BitVec 3, 6 ≤ cond.toNat → ∃ e, word b cond = .error e))

/-- R189, R31: a transfer whose target fails a check traps at the transfer with the class of the first check that fails and the
target as detail address, and writes neither link nor PCC; a revoked source loses its tag. Both a jump and a taken branch. -/
def Sys2Proof.Claims.TransferTraps : Prop :=
  ∀ (s : State) (d a b : BitVec 5) (o : BitVec 20) (p : BitVec 12) (i : BitVec 15) (k : BitVec 6),
    let near := atCursor s.self.pcc (s.pc + cut (4 * o.toInt))
    let branch := atCursor s.self.pcc (s.pc + cut (4 * p.toInt))
    let far := atCursor (s.g a) (s.x a + cut i.toInt)
    let u : State := if k = 0x16 then { s with self := { s.self with pcc := s.self.pcc.untag } } else s
    let w : State := if k = 0x16 then s.setG a (s.g a).untag else s
    (EntryClass s near k → exec (.jal d o) s = .next (u.trap k near.addr))
    ∧ (EntryClass s branch k → s.x a = s.x b → exec (.beq a b p) s = .next (u.trap k branch.addr))
    ∧ (EntryClass s far k → exec (.jalr d a i) s = .next (w.trap k far.addr))

/-- R189 to R191, R31: JAL and JALR, and where a transfer traps. -/
def Obligations.jumps_and_transfer_traps : Prop := Claims.JumpAndLink ∧ Claims.TransferTraps


/-- R193: CAPC writes the PCC with its cursor moved; it never traps; its word, in the U format. -/
def Obligations.capc : Prop :=
  ∀ (s : State) (d : BitVec 5) (i : BitVec 20),
    PutsG (.capc d i) s d (atCursor s.self.pcc (s.pc + cut (4 * i.toInt))) ∧ decode (0#1 ++ 0x0B#6 ++ d ++ i) = .ok (false, .capc d i)

/-! ### Capabilities (R16 to R18, R26, R27, R199 to R202) -/

/-- R17: a cursor is representable exactly when decoding with it yields the same base and top, for every value of the 128 bits. -/
def Obligations.representable_iff_same_bounds : Prop :=
  ∀ (c : Cap) (a : U64),
    c.representable a = true ↔ (c.boundsAt a).base = c.bounds.base ∧ (c.boundsAt a).top = c.bounds.top

namespace Sys2Proof.Claims

/-- R200's condition on the source of a derivation. -/
def derivable (s : State) (c : Cap) : Bool := c.tag && c.otype == 0 && !s.revokedAddr c.bounds.base.toNat

/-- The result of CSETB (exact) and CSETBX, for a source `c` and a length `l`: with the bits of `c` and no tag where the range passes
the top of the address space; else bounds that hold the range, the other fields kept, tagged where R200 says so. -/
def BoundsSet (s : State) (c n : Cap) (l : Nat) (exact : Bool) : Prop :=
  if 2 ^ 64 < c.addr.toNat + l then n = { bits := c.bits, tag := false }
  else
    n.addr = c.addr ∧ n.perms = c.perms ∧ n.otype = c.otype
    ∧ n.bounds.base ≤ c.addr.toNat ∧ (c.addr.toNat : Int) + l ≤ n.bounds.top
    ∧ (l < 2 ^ 18 → n.bounds.base = c.addr.toNat ∧ n.bounds.top = (c.addr.toNat : Int) + l)
    ∧ (n.tag = true ↔ derivable s c = true ∧ c.bounds.base ≤ n.bounds.base ∧ n.bounds.top ≤ c.bounds.top
        ∧ (exact = true → n.bounds.base = c.addr.toNat ∧ n.bounds.top = (c.addr.toNat : Int) + l))

end Sys2Proof.Claims

/-- R200, R202, R18: CSETB, CSETBX and CSETBI complete and write a capability whose bounds hold the range asked for, exactly where
the length is below 2^18, tagged under R200's conditions alone. -/
def Obligations.set_bounds : Prop :=
  ∀ (s : State) (d a b : BitVec 5) (i : BitVec 14),
    (∃ n, PutsG (.csetb d a b) s d n ∧ BoundsSet s (s.g a) n (s.x b).toNat true)
    ∧ (∃ n, PutsG (.csetbx d a b) s d n ∧ BoundsSet s (s.g a) n (s.x b).toNat false)
    ∧ (∃ n, PutsG (.csetbi d a i) s d n ∧ BoundsSet s (s.g a) n i.toNat true)

/-- R199, R201: the queries read every field, tagged or not, and never trap; CTESTSUB ignores cursors and revocation; CREPLEN. -/
def Sys2Proof.Claims.CapabilityQueries : Prop :=
  ∀ (s : State) (d a b : BitVec 5),
    let c := s.g a
    let k := s.g b
    let l := (s.x a).toNat
    PutsX (.cgetaddr d a) s d (c.bits.extractLsb' 0 64) ∧ PutsX (.cgetbase d a) s d (cut c.bounds.base)
    ∧ PutsX (.cgetlen d a) s d (cut (min (c.bounds.top - c.bounds.base) (2 ^ 64 - 1)))
    ∧ PutsX (.cgetperm d a) s d (0#52 ++ c.bits.extractLsb' 116 12) ∧ PutsX (.cgettype d a) s d (0#56 ++ c.bits.extractLsb' 108 8)
    ∧ PutsX (.cgettag d a) s d (if c.tag = true then 1 else 0)
    ∧ PutsX (.ctestsub d a b) s d (if c.tag = true ∧ k.tag = true ∧ c.otype = 0 ∧ k.otype = 0 ∧ c.bounds.base ≤ k.bounds.base
        ∧ k.bounds.top ≤ c.bounds.top ∧ k.perms &&& c.perms = k.perms then 1 else 0)
    ∧ ∃ e, e ≤ 46 ∧ (∀ j, j < e → 2 ^ 18 - 1 < (l + 2 ^ j - 1) / 2 ^ j) ∧ (e < 46 → (l + 2 ^ e - 1) / 2 ^ e ≤ 2 ^ 18 - 1)
        ∧ PutsX (.creplen d a) s d (cut ((l + 2 ^ e - 1) / 2 ^ e * 2 ^ e : Nat))

/-- R200, R201, R202, R31: the derivations that keep the bounds. The bits are always written; the tag is kept only for a tagged,
unsealed, unrevoked source, and under R17 where the cursor moves. CMOVE keeps a seal and drops the tag of a revoked capability. -/
def Sys2Proof.Claims.CapabilityDerivations : Prop :=
  ∀ (s : State) (d a b : BitVec 5) (i : BitVec 14),
    let c := s.g a
    let moved (x : U64) : Cap := { bits := c.bits.extractLsb' 64 64 ++ x, tag := derivable s c && c.representable x }
    PutsG (.csetaddr d a b) s d (moved (s.x b)) ∧ PutsG (.cinc d a b) s d (moved (s.x a + s.x b))
    ∧ PutsG (.cinci d a i) s d (moved (s.x a + cut i.toInt))
    ∧ PutsG (.candp d a b) s d
        { bits := (c.bits.extractLsb' 116 12 &&& (s.x b).extractLsb' 0 12) ++ c.bits.extractLsb' 0 116, tag := derivable s c }
    ∧ PutsG (.cclrtag d a) s d { bits := c.bits, tag := false }
    ∧ PutsG (.cmove d a) s d { bits := c.bits, tag := c.tag && !s.revokedAddr c.bounds.base.toNat }

/-- R199 to R202, R31: the queries and the derivations of the capability group. -/
def Obligations.capability_members : Prop := Claims.CapabilityQueries ∧ Claims.CapabilityDerivations


namespace Sys2Proof.Claims

/-- The first of R26's and R27's checks 1 to 5 that fails for c and the authority k, where c is to be sealed or not. -/
def SealClass (s : State) (c k : Cap) (need : Perm) (sealedC : Bool) (cls : BitVec 6) : Prop :=
  let r (x : Cap) : Bool := s.revokedAddr x.bounds.base.toNat
  let inB : Prop := k.bounds.base ≤ k.addr.toNat ∧ (k.addr.toNat : Int) < k.bounds.top
  let c1 : Prop := c.tag = true ∧ k.tag = true
  let c2 : Prop := (c.otype ≠ 0 ↔ sealedC = true) ∧ k.otype = 0
  let c3 : Prop := r c = false ∧ r k = false
  (¬c1 ∧ cls = 0x03) ∨ (c1 ∧ ¬c2 ∧ cls = 0x06) ∨ (c1 ∧ c2 ∧ ¬c3 ∧ cls = 0x16) ∨ (c1 ∧ c2 ∧ c3 ∧ k.holds need = false ∧ cls = 0x05)
    ∨ (c1 ∧ c2 ∧ c3 ∧ k.holds need = true ∧ ¬inB ∧ cls = 0x04)

/-- Those checks pass. -/
def SealPasses (s : State) (c k : Cap) (need : Perm) (sealedC : Bool) : Prop :=
  c.tag = true ∧ k.tag = true ∧ (c.otype ≠ 0 ↔ sealedC = true) ∧ k.otype = 0 ∧ s.revokedAddr c.bounds.base.toNat = false
    ∧ s.revokedAddr k.bounds.base.toNat = false ∧ k.holds need = true ∧ k.bounds.base ≤ k.addr.toNat
    ∧ (k.addr.toNat : Int) < k.bounds.top

/-- The object types that CSEAL gives (R26, check 6). -/
abbrev sealable (o : Nat) : Prop := o = 2 ∨ o = 3 ∨ o = 5 ∨ (16 ≤ o ∧ o ≤ 255)

/-- The operands of a sealing instruction after a use of a revoked one: it has lost its tag, and nothing else has changed (R31). -/
def untagRevoked (s : State) (a b : BitVec 5) : State :=
  let drop (s : State) (n : BitVec 5) : State :=
    if (s.g n).tag = true ∧ s.revokedAddr (s.g n).bounds.base.toNat = true then s.setG n { s.g n with tag := false } else s
  drop (drop s a) b

/-- c with another object type. -/
def retyped (c : Cap) (o : BitVec 8) : Cap :=
  { bits := c.bits.extractLsb' 116 12 ++ o ++ c.bits.extractLsb' 0 108, tag := c.tag }

end Sys2Proof.Claims

/-- R26, R27: CSEAL and CUNSEAL. Where every check passes the instruction completes, and writes c with its object type changed. -/
def Sys2Proof.Claims.SealingCompletes : Prop :=
  ∀ (s : State) (d a b : BitVec 5),
    let c := s.g a
    let k := s.g b
    let o := k.addr.toNat
    (SealPasses s c k .se false → sealable o → (o < 16 → c.holds .x = true) →
      ∃ t, exec (.cseal d a b) s = .next t
        ∧ Registers s t (gSet s d (retyped c (BitVec.ofNat 8 o))) s.v s.p s.self.flags ∧ Retired s t)
    ∧ (SealPasses s c k .us true → 16 ≤ c.otype.toNat → o = c.otype.toNat →
      ∃ t, exec (.cunseal d a b) s = .next t ∧ Registers s t (gSet s d (retyped c 0)) s.v s.p s.self.flags ∧ Retired s t)

/-- R26, R27, R31: a check that fails raises its trap, in the order of the rules, with detail address 0, and nothing is written but the
lost tag of a revoked operand. -/
def Sys2Proof.Claims.SealingTraps : Prop :=
  ∀ (s : State) (d a b : BitVec 5) (cls : BitVec 6),
    let c := s.g a
    let k := s.g b
    let o := k.addr.toNat
    let u : State := if cls = 0x16 then untagRevoked s a b else s
    (SealClass s c k .se false cls → exec (.cseal d a b) s = .next (u.trap cls 0))
    ∧ (SealClass s c k .us true cls → exec (.cunseal d a b) s = .next (u.trap cls 0))
    ∧ (SealPasses s c k .se false → ¬(sealable o ∧ (o < 16 → c.holds .x = true)) → exec (.cseal d a b) s = .next (s.trap 0x06 0))
    ∧ (SealPasses s c k .us true → ¬(16 ≤ c.otype.toNat ∧ o = c.otype.toNat) → exec (.cunseal d a b) s = .next (s.trap 0x06 0))

/-- R26, R27, R31: CSEAL and CUNSEAL complete where their checks pass, and trap where one fails (detail address 0: log 18). -/
def Obligations.sealing : Prop := Claims.SealingCompletes ∧ Claims.SealingTraps

/-! ### Loads and stores (R19, R24, R196 to R198) -/

namespace Sys2Proof.Claims

/-- The bytes from an address on as a number, little-endian (R14): what one load reads. -/
def bytesAt (s : State) (a : Nat) : Nat → Nat
  | 0 => 0
  | n + 1 => (s.byteAt a).toNat + 256 * bytesAt s (a + 1) n

/-- Steps 1 to 5 of R19 pass for `n` bytes at `ea` through `c`. -/
def Authorises (s : State) (c : Cap) (needs : List Perm) (ea : U64) (n : Nat) : Prop :=
  c.tag = true ∧ c.otype = 0 ∧ s.revokedAddr c.bounds.base.toNat = false ∧ (∀ k ∈ needs, c.holds k = true)
    ∧ c.bounds.base ≤ ea.toNat ∧ (ea.toNat : Int) + n ≤ c.bounds.top

/-- The access of the issuing slot of `n` bytes at `ea`. -/
def accessOf (s : State) (ea : U64) (n : Nat) (read write atomic : Bool) : Acc :=
  { agent := s.self.agent, owner := s.self.owner, addr := s.localAddr ea.toNat, size := n, write := write, read := read
    atomic := atomic, fetch := false }

/-- The access is served on this device, and nothing from step 7 of R19 on stops it. -/
def Clear (s : State) (ea : U64) (x : Acc) : Prop := s.remoteOf ea.toNat = none ∧ s.accErr x = none

/-- The records after an access: those before, and its own at each granule it touches, where the memory is checked (R122,
R124); a handler leaves none (R133). -/
def Recorded (s t : State) (x : Acc) : Prop :=
  ∀ r, r ∈ t.recs ↔ r ∈ s.recs ∨
    ((s.isChecked x.addr = true ∨ s.isChecked x.last = true) ∧ (∀ d v u i, x.agent ≠ .handler d v u i) ∧ x.addr / 32 ≤ r.granule ∧ r.granule ≤ x.last / 32
      ∧ r.agent = x.agent ∧ r.span = s.agentSpan x.agent ∧ r.write = x.write ∧ r.atomic = x.atomic)

/-- A local watch (R358, R371): a match of an access is a trap that follows, with the lowest matching byte and the lanes `m` that match.
The trap of an earlier instruction stays; that of another access of the same instruction takes in this one. -/
def Watched (s t : State) (x : Acc) (m : Pred) : Prop :=
  match s.watched x with
  | none => t.self.watchTrap = s.self.watchTrap
  | some a =>
    match s.self.watchTrap with
    | none => ∃ w, t.self.watchTrap = some ({ cls := 0x14, addr := BitVec.ofNat 64 a, lanes := m, agent := 0 }, s.pc, w)
    | some (k, pc, w) =>
      t.self.watchTrap
        = if pc = s.pc then some ({ k with addr := BitVec.ofNat 64 (min a k.addr.toNat), lanes := k.lanes ||| m }, pc, w)
          else some (k, pc, w)

/-- The g, v and p registers and FLAGS are as given; the rest of the slot is as before, but for a pending watch trap. -/
def Holds (s t : State) (g : BitVec 5 → Cap) (v : BitVec 5 → Vec) (p : BitVec 3 → Pred) (fl : U64) : Prop :=
  (∀ n, t.g n = g n) ∧ (∀ n, t.v n = v n) ∧ (∀ n, t.p n = p n) ∧ t.self.flags = fl
    ∧ t.self = { s.self with
        g := t.self.g, v := t.self.v, p := t.self.p, flags := t.self.flags, pcc := t.self.pcc, winDone := t.self.winDone
        park := t.self.park, afterTransfer := t.self.afterTransfer, replay := t.self.replay, watchTrap := t.self.watchTrap }

/-- Of the device, a write of data may change memory, tags and seals, and what R77, R78, R124, R129, R302, R372 and R377 say it leaves:
the races' records, the clean bits of translations, what unchecked memory held before, older versions of lines behind a cache, the dirty
sectors of lines kept in one, dirty logs, records of monitors in event queues and the slots that wait for those. -/
def WriteFrame (s t : State) : Prop :=
  t = { s with
      self := t.self, mem := t.mem, tags := t.tags, sealedLines := t.sealedLines, recs := t.recs, trans := t.trans
      behind := t.behind, kept := t.kept, dirtyLog := t.dirtyLog, cores := t.cores, others := t.others, older := t.older, free := t.free }
  ∧ t.kept.map KeptLine.line = s.kept.map KeptLine.line ∧ (∃ l, t.older = l ++ s.older)
  ∧ (∀ k, (findBy transKey k t.trans).map (fun x => { x with clean := false })
      = (findBy transKey k s.trans).map (fun x => { x with clean := false }))
  ∧ t.others.map (fun x => { x with park := .no }) = s.others.map (fun x => { x with park := .no })
  ∧ ∀ k, { t.core k with events := [], held := [] } = { s.core k with events := [], held := [] }

/-- What a plain read of `n` bytes at `a` may give (R110, R129): the bytes as they are, or as they were before some of the newest writes to
unchecked memory that are not ordered before it; one choice for all bytes of an aligned access of up to 16 bytes, one for each byte else. -/
def MayReadBy (s : State) (q : Agent) (a n v : Nat) : Prop :=
  v < 256 ^ n ∧ (s.older = [] → v = bytesAt s a n)
  ∧ if a % n = 0 ∧ n ≤ 16 then
      ∃ l, l <+: s.missable q a n ∧ ∀ k, k < n → BitVec.ofNat 8 (v / 256 ^ k) = bytesUnder l (a + k) (s.byteAt (a + k))
    else
      ∀ k, k < n → ∃ l, l <+: s.missable q (a + k) 1 ∧ BitVec.ofNat 8 (v / 256 ^ k) = bytesUnder l (a + k) (s.byteAt (a + k))
/-- Of the issuing slot's reads. -/
def MayRead (s : State) (a n v : Nat) : Prop := MayReadBy s s.self.agent a n v

/-- A load writes `c` to gd, makes its record, and changes nothing else; every byte and tag of memory is as before. -/
def Loads (i : Instr) (s : State) (d : BitVec 5) (c : Cap) (x : Acc) : Prop :=
  ∃ t, exec i s = .next t ∧ Holds s t (gSet s d c) s.v s.p s.self.flags ∧ Retired s t ∧ Recorded s t x ∧ Watched s t x 0
    ∧ t = { s with self := t.self, recs := t.recs, free := t.free } ∧ ∀ a, t.byteAt a = s.byteAt a ∧ t.tagAt a = s.tagAt a

/-- What `b` reads is not moved by a store at `a`: it has another place, and where one of the two lies in a sealed segment and they
share a line, the line has one address, so that it is sealed alike for both (R82). -/
def Elsewhere (s : State) (a b : Nat) : Prop :=
  s.phys b ≠ s.phys a
    ∧ ((s.sealKey a).isSome = true ∨ (s.sealKey b).isSome = true → (s.phys b).map (· / 256) = (s.phys a).map (· / 256) → b / 256 = a / 256)

/-- Two addresses lie in one granule of memory. -/
def SameGranule (s : State) (a b : Nat) : Prop := (s.phys a).map (· / 16) = (s.phys b).map (· / 16)

/-- `n` bytes of a value are stored at an address, little-endian, and every other byte reads as before, in sealed lines too. -/
def Stored (s t : State) (a n v : Nat) : Prop :=
  (∀ k, k < n → t.byteAt (a + k) = BitVec.ofNat 8 (v / 256 ^ k))
    ∧ ∀ b, (∀ k, k < n → Elsewhere s (a + k) b) → t.byteAt b = s.byteAt b

/-- The tag of every granule that the bytes touch becomes `g`, of host memory none; no other tag changes. -/
def Tags (s t : State) (a n : Nat) (g : Bool) : Prop :=
  ∀ b, ((∀ k, k < n → ¬SameGranule s (a + k) b) → t.tagAt b = s.tagAt b)
    ∧ ∀ k, k < n → SameGranule s (a + k) b → t.tagAt b = (g && (s.phys b).any keepsTags)

/-- Unchecked memory remembers what a write has overwritten, for reads that the write is not ordered before (R129). -/
def Remembered (s t : State) (x : Acc) : Prop :=
  if s.isChecked x.addr = true ∧ s.isChecked x.last = true then t.older = s.older
  else ∃ w, t.older = w :: s.older ∧ w.addr = x.addr ∧ w.bytes = (List.range x.size).map (fun k => s.byteAt (x.addr + k))
    ∧ w.agent = x.agent ∧ w.span = s.agentSpan x.agent

/-- A store writes no register: the bytes stored, the tags of their granules, its record, and nothing else. -/
def Stores (i : Instr) (s : State) (v : Nat) (g : Bool) (x : Acc) : Prop :=
  ∃ t, exec i s = .next t ∧ Holds s t s.g s.v s.p s.self.flags ∧ Retired s t ∧ Recorded s t x ∧ Watched s t x 0 ∧ WriteFrame s t
    ∧ Remembered s t x ∧ Stored s t x.addr x.size v ∧ Tags s t x.addr x.size g

/-- What a plain read of an aligned granule may give, with its tag (R110, R129). -/
def MayReadCapBy (s : State) (q : Agent) (a : Nat) (v : Cap) : Prop :=
  (s.older = [] → v = { bits := BitVec.ofNat 128 (bytesAt s a 16), tag := s.tagAt a })
  ∧ ∃ l, l <+: s.missable q a 16 ∧ v.tag = tagUnder l a (s.tagAt a)
    ∧ ∀ k, k < 16 → v.bits.extractLsb' (8 * k) 8 = bytesUnder l (a + k) (s.byteAt (a + k))

def MayReadCap (s : State) (a : Nat) (v : Cap) : Prop := MayReadCapBy s s.self.agent a v

/-- The address of an M-format operand of size n (R195). -/
def meaOf (s : State) (a : BitVec 5) (i : BitVec 12) (n : Nat) : U64 := s.x a + cut (i.toInt * n)

/-- A load or a store of `n` bytes: the checks pass. -/
def Passes (s : State) (a : BitVec 5) (ea : U64) (n : Nat) (needs : List Perm) (x : Acc) : Prop :=
  Authorises s (s.g a) needs ea n ∧ Clear s ea x

end Sys2Proof.Claims

/-- R196, R197, R129: the seven loads. Where the checks of R19 pass, the bytes at ea, in any alignment, little-endian, sign-extended by LB,
LH and LW and zero-extended by the others, come to gd as an integer; of unchecked memory, bytes that the read may give. -/
def Obligations.loads : Prop :=
  ∀ (s : State) (d a : BitVec 5) (i : BitVec 12),
    let rd (n : Nat) (f : Nat → Int) (j : Instr) : Prop :=
      let ea := meaOf s a i n
      let x := accessOf s ea n true false false
      Passes s a ea n [.r] x → ∃ v, MayRead s x.addr n v ∧ Loads j s d { bits := 0#64 ++ cut (f v), tag := false } x
    let signed (n v : Nat) : Int := if 2 ^ (8 * n - 1) ≤ v then (v : Int) - 2 ^ (8 * n) else v
    rd 1 (signed 1) (.lb d a i) ∧ rd 2 (signed 2) (.lh d a i) ∧ rd 4 (signed 4) (.lw d a i) ∧ rd 8 (fun v => v) (.ld d a i)
    ∧ rd 1 (fun v => v) (.lbn d a i) ∧ rd 2 (fun v => v) (.lhn d a i) ∧ rd 4 (fun v => v) (.lwn d a i)

/-- R196, R197, R24: the four stores. Where the checks of R19 pass, the low bytes of gd are stored at ea, in any alignment,
little-endian, and the tags of the granules touched are cleared. -/
def Obligations.stores : Prop :=
  ∀ (s : State) (d a : BitVec 5) (i : BitVec 12),
    let wr (n : Nat) (j : Instr) : Prop :=
      let ea := meaOf s a i n
      let x := accessOf s ea n false true false
      Passes s a ea n [.w] x → Stores j s (s.x d).toNat false x
    wr 1 (.sb d a i) ∧ wr 2 (.sh d a i) ∧ wr 4 (.sw d a i) ∧ wr 8 (.sd d a i)

/-- R198, R24: LC and SC move 16 bytes and a tag. LC keeps the tag only through LC and the C right, for a capability that is not
revoked, and from the fabric window for one with FB; SC stores a tag under the same conditions on the value, and needs SC and the C
right for a tagged value. -/
def Obligations.capability_accesses : Prop :=
  ∀ (s : State) (d a : BitVec 5) (i : BitVec 12),
    let ea := meaOf s a i 16
    let c := s.g a
    let fab : Bool := decide (2 ^ 63 ≤ ea.toNat) && decide (ea.toNat < 2 ^ 63 + 2 ^ 62)
    let right : Bool := (s.rightsAt s.self.owner (s.localAddr ea.toNat)).any (fun e => e.c)
    let keeps (v : Cap) : Bool := v.tag && !s.revokedAddr v.bounds.base.toNat && (!fab || v.holds .fb)
    let xl := accessOf s ea 16 true false false
    let xs := accessOf s ea 16 false true false
    (ea.toNat % 16 = 0 → Passes s a ea 16 [.r] xl →
      ∃ v : Cap, MayReadCap s xl.addr v ∧ Loads (.lc d a i) s d { v with tag := c.holds .lc && right && keeps v } xl)
    ∧ (ea.toNat % 16 = 0 → Passes s a ea 16 [.w] xs → ((s.g d).tag = true → c.holds .sc = true ∧ right = true) →
      Stores (.sc d a i) s (s.g d).bits.toNat (keeps (s.g d)) xs)
    ∧ (ea.toNat % 16 = 0 → Passes s a ea 16 [.w] xs → (s.g d).tag = true → c.holds .sc = false →
      exec (.sc d a i) s = .next (s.trap 0x05 ea))
    ∧ (ea.toNat % 16 = 0 → Passes s a ea 16 [.w] xs → (s.g d).tag = true → c.holds .sc = true → right = false →
      exec (.sc d a i) s = .next (s.trap 0x07 ea))

/-! ### Atomics, FENCE and barriers (R203 to R210) -/

namespace Sys2Proof.Claims

/-- The issuing slot's span ends at a scope: the marks of that scope and narrower ones take its number, and the next begins (R117). -/
def spanCut (s : State) (c : BitVec 2) : State :=
  { s with self := { s.self with
      marks := Vector.ofFn (fun i : Fin 4 => if i.val ≤ c.toNat then s.self.span else s.self.marks[i]), span := s.self.span + 1 } }

/-- The state whose slot the instruction leaves its marks and span of: as they are for a relaxed atomic, cut for another (R206). -/
def synced (s : State) (o c : BitVec 2) : State := if o = 0 then s else spanCut s c

/-- An atomic, executed in `r`, is performed in `s`: its registers, its span, its record (an acquire's in the span it begins, log 21), and
what it stores. -/
def AtomicIn (i : Instr) (r s : State) (x : Acc) (o c : BitVec 2) (g : BitVec 5 → Cap) (new : Option (Nat × Bool)) : Prop :=
  ∃ t, exec i r = .next t ∧ Holds (synced s o c) t g s.v s.p s.self.flags ∧ Retired s t
    ∧ Recorded (if o = 1 ∨ o = 3 then spanCut s c else s) t x ∧ Watched s t x 0 ∧ WriteFrame (synced s o c) t
    ∧ match new with
      | none => ∀ a, t.byteAt a = s.byteAt a ∧ t.tagAt a = s.tagAt a
      | some (v, k) => Stored s t x.addr x.size v ∧ Tags s t x.addr x.size k

/-- An atomic is done where it is executed. -/
def AtomicDone (i : Instr) (s : State) (x : Acc) (o c : BitVec 2) (g : BitVec 5 → Cap) (new : Option (Nat × Bool)) : Prop :=
  AtomicIn i s s x o c g new

/-- The machine's FP32 sum rounded to nearest even (R205). -/
def fadd (x y : Nat) : Nat := (addBits .f32 .rne (Fmt.f32.decode x) (Fmt.f32.decode y)).1

/-- An integer in w bits, signed, of the low w bits of a number. -/
def signedAt (w v : Nat) : Int := if 2 ^ (w - 1) ≤ v % 2 ^ w then (v % 2 ^ w : Nat) - 2 ^ w else (v % 2 ^ w : Nat)

/-- An integer as R23 writes it. -/
def int (x : Int) : Cap := { bits := 0#64 ++ cut x, tag := false }

/-- The tag of a capability loaded through `c`, and of one stored (R198). -/
def loadTag (s : State) (c v : Cap) (ea : U64) : Bool :=
  c.holds .lc && (s.rightsAt s.self.owner (s.localAddr ea.toNat)).any (fun e => e.c) && v.tag && !s.revokedAddr v.bounds.base.toNat
    && (!(decide (2 ^ 63 ≤ ea.toNat) && decide (ea.toNat < 2 ^ 63 + 2 ^ 62)) || v.holds .fb)
def storeTag (s : State) (v : Cap) (ea : U64) : Bool :=
  v.tag && !s.revokedAddr v.bounds.base.toNat && (!(decide (2 ^ 63 ≤ ea.toNat) && decide (ea.toNat < 2 ^ 63 + 2 ^ 62)) || v.holds .fb)
/-- A tagged value may be stored through c (R198). -/
def scOk (s : State) (c v : Cap) (ea : U64) : Prop :=
  v.tag = true → c.holds .sc = true ∧ (s.rightsAt s.self.owner (s.localAddr ea.toNat)).any (fun e => e.c) = true

/-- The 16 bytes and the tag at an address. -/
def capOf (s : State) (a : Nat) : Cap := { bits := BitVec.ofNat 128 (bytesAt s a 16), tag := s.tagAt a }

end Sys2Proof.Claims

/-- R203, R204, R206: the eight integer read-modify-writes and AMOSWAP at sizes w and d, in every order and scope. The old value comes
to gd, sign-extended at size w except by AMOMINU and AMOMAXU; the new value is stored and the granule's tag cleared. -/
def Obligations.atomic_integer : Prop :=
  ∀ (s : State) (d a b : BitVec 5) (z : BitVec 1) (o c : BitVec 2),
    let n := 4 * 2 ^ z.toNat
    let w := 8 * n
    let ea := s.x a
    let x := accessOf s ea n true true true
    let v := bytesAt s x.addr n
    let y := (s.x b).toNat % 2 ^ w
    let done (i : Instr) (old : Int) (new : Int) : Prop :=
      Passes s a ea n [.r, .w] x → ea.toNat % n = 0 →
        AtomicDone i s x o c (gSet s d (int old)) (some ((new % 2 ^ w).toNat, false))
    done (.amoadd d a b z o c) (signedAt w v) (v + y) ∧ done (.amoand d a b z o c) (signedAt w v) (v &&& y : Nat)
    ∧ done (.amoor d a b z o c) (signedAt w v) (v ||| y : Nat) ∧ done (.amoxor d a b z o c) (signedAt w v) (v ^^^ y : Nat)
    ∧ done (.amomin d a b z o c) (signedAt w v) (min (signedAt w v) (signedAt w y))
    ∧ done (.amomax d a b z o c) (signedAt w v) (max (signedAt w v) (signedAt w y))
    ∧ done (.amominu d a b z o c) v (min v y : Nat) ∧ done (.amomaxu d a b z o c) v (max v y : Nat)
    ∧ done (.amoswap d a b (z.setWidth 2) o c) (signedAt w v) y

/-- R204, R205: CAS at sizes w and d stores only where the old value equals gd's low bytes, and returns the old value either way. -/
def Sys2Proof.Claims.CompareAndSwap : Prop :=
  ∀ (s : State) (d a b : BitVec 5) (z : BitVec 1) (o c : BitVec 2),
    let n := 4 * 2 ^ z.toNat
    let w := 8 * n
    let ea := s.x a
    let x := accessOf s ea n true true true
    let v := bytesAt s x.addr n
    Passes s a ea n [.r, .w] x → ea.toNat % n = 0 →
      AtomicDone (.cas d a b (z.setWidth 2) o c) s x o c (gSet s d (int (signedAt w v)))
        (if v = (s.x d).toNat % 2 ^ w then some ((s.x b).toNat % 2 ^ w, false) else none)

/-- R204, R205, R131: AMOFADD stores the machine's FP32 sum rounded to nearest even, and returns the old value zero-extended: at once
where it acquires or releases, and at once where it is relaxed and meets no other in a router, after those that are in routers already.
Whether it meets others is a free choice (log 12). One that does waits, and completes with the value that the router gives it. -/
def Sys2Proof.Claims.FloatAdd : Prop :=
  ∀ (s : State) (d a b : BitVec 5) (o c : BitVec 2),
    let ea := s.x a
    let f := accessOf s ea 4 true true true
    let y := (s.x b).toNat % 2 ^ 32
    let u : State := { s.routersEmpty with free := s.free + 1 }
    let fu := accessOf u (u.x a) 4 true true true
    (o ≠ 0 → Passes s a ea 4 [.r, .w] f → ea.toNat % 4 = 0 →
      AtomicDone (.amofadd d a b o c) s f o c (gSet s d (int (bytesAt s f.addr 4))) (some (fadd (bytesAt s f.addr 4) y, false)))
    ∧ (s.self.sent = [] → Passes s a ea 4 [.r, .w] f → Passes u a (u.x a) 4 [.r, .w] fu → ea.toNat % 4 = 0 → (u.x a).toNat % 4 = 0 →
      AtomicIn (.amofadd d a b 0 c) s u fu 0 c (gSet u d (int (bytesAt u fu.addr 4))) (some (fadd (bytesAt u fu.addr 4) y, false))
      ∨ ∃ t, exec (.amofadd d a b 0 c) s = .next t ∧ Holds s { t with self := { t.self with sent := [] } } s.g s.v s.p s.self.flags
        ∧ t.self.sent = [s.nextTxn] ∧ t.self.park = .reply ∧ t.self.pcc = s.self.pcc ∧ t.self.winDone = s.self.winDone ∧ Recorded s t f
        ∧ (∃ l m, m ++ [{ core := s.self.core, idx := s.self.idx, txn := s.nextTxn, acc := f, operand := BitVec.ofNat 32 y }] = l ∧ l ∈ t.routed
          ∧ (m = [] ∨ m ∈ s.routed))
        ∧ ∀ a, t.byteAt a = s.byteAt a ∧ t.tagAt a = s.tagAt a)
    ∧ (∀ (n : Nat) (r : Reply), s.self.sent = [n] → s.self.replies.find? (fun q => q.txn == n) = some r → s.remoteOf ea.toNat = none →
      ∃ t, exec (.amofadd d a b 0 c) s = .next t
        ∧ Holds { s with self := { s.self with sent := [], replies := [] } } t (gSet s d (int (r.value.addr.toNat % 2 ^ 32))) s.v s.p s.self.flags
        ∧ Retired s t ∧ Watched s t f 0 ∧ t = { s with self := t.self })

/-- R132: a group that reaches its location adds its operands together first, with one rounding at each step, and then the sum to the
location with one more. -/
def Sys2Proof.Claims.MergedAdds : Prop :=
  ∀ (s : State) (m : Routed) (l : List Routed), (∀ k, k < 4 → (s.phys (m.acc.addr + k)).isSome = true) →
    let sum := l.foldl (fun n r => fadd n r.operand.toNat) m.operand.toNat
    bytesAt (s.routedApply (m :: l)) m.acc.addr 4 = fadd (bytesAt s m.acc.addr 4) sum

/-- R204, R205, R131, R132: CAS and AMOFADD. -/
def Obligations.atomic_compare : Prop := Claims.CompareAndSwap ∧ Claims.FloatAdd ∧ Claims.MergedAdds

/-- R204, R198: AMOSWAP and CAS at size q move 128 bits and the tag under the rules of LC and SC; a CAS compares bits and tag. -/
def Obligations.atomic_capability : Prop :=
  ∀ (s : State) (d a b : BitVec 5) (o c : BitVec 2),
    let ea := s.x a
    let x := accessOf s ea 16 true true true
    let v := capOf s x.addr
    let old : Cap := { v with tag := loadTag s (s.g a) v ea }
    let new : Nat × Bool := ((s.g b).bits.toNat, storeTag s (s.g b) ea)
    Passes s a ea 16 [.r, .w] x → ea.toNat % 16 = 0 → scOk s (s.g a) (s.g b) ea →
      AtomicDone (.amoswap d a b 2 o c) s x o c (gSet s d old) (some new)
      ∧ AtomicDone (.cas d a b 2 o c) s x o c (gSet s d old) (if v = s.g d then some new else none)

/-- R204, R206: LDA, relaxed or acquire, stores nothing; STL, relaxed or release, writes no register. At size q they follow the
rules of LC and SC. -/
def Obligations.atomic_load_store : Prop :=
  ∀ (s : State) (d a : BitVec 5) (z : BitVec 2) (o : BitVec 1) (c : BitVec 2),
    let n := 4 * 2 ^ z.toNat
    let w := 8 * n
    let ea := s.x a
    let xl := accessOf s ea n true false true
    let xs := accessOf s ea n false true true
    let v := capOf s xl.addr
    z ≠ 3 → ea.toNat % n = 0 →
    (Passes s a ea n [.r] xl →
      AtomicDone (.lda d a z o c) s xl (o.setWidth 2) c
        (gSet s d (if z = 2 then { v with tag := loadTag s (s.g a) v ea } else int (signedAt w (bytesAt s xl.addr n)))) none)
    ∧ (Passes s a ea n [.w] xs → (z = 2 → scOk s (s.g a) (s.g d) ea) →
      AtomicDone (.stl d a z o c) s xs (if o = 1 then 2 else 0) c s.g
        (some ((s.g d).bits.toNat % 2 ^ w, z = 2 ∧ storeTag s (s.g d) ea = true)))

/-- R198, R204: a size-q atomic that would store a tagged value through a capability without SC, or into memory without the C right,
traps, whether or not a CAS would compare equal. -/
def Obligations.atomic_tag_traps : Prop :=
  ∀ (s : State) (d a b : BitVec 5) (o c : BitVec 2),
    let ea := s.x a
    let x := accessOf s ea 16 true true true
    let right : Bool := (s.rightsAt s.self.owner (s.localAddr ea.toNat)).any (fun e => e.c)
    Passes s a ea 16 [.r, .w] x → ea.toNat % 16 = 0 → (s.g b).tag = true →
      ((s.g a).holds .sc = false →
        exec (.amoswap d a b 2 o c) s = .next (s.trap 0x05 ea) ∧ exec (.cas d a b 2 o c) s = .next (s.trap 0x05 ea))
      ∧ ((s.g a).holds .sc = true → right = false →
        exec (.amoswap d a b 2 o c) s = .next (s.trap 0x07 ea) ∧ exec (.cas d a b 2 o c) s = .next (s.trap 0x07 ea))

namespace Sys2Proof.Claims

/-- Barrier k of a launch on the bench where the issuing slot's task started. -/
def barOf (s : State) (id : Nat) (k : BitVec 2) : Barrier := s.barrier id s.self.homeBench k.toNat

/-- The task at (lcn, stage) is the last participant of its launch on the bench to arrive (R209). -/
def LastToArrive (s : State) (id lcn stage : Nat) (k : BitVec 2) : Prop :=
  ∃ l, s.launch id = some l
    ∧ ∀ p ∈ l.participants s.self.homeBench, p ∈ (barOf s id k).arrived ∨ p = (lcn, stage)

/-- The slot's arrival at barrier k, which no BARB that stands here has made, if one is outstanding. -/
abbrev arrivalAt (s : State) (k : BitVec 2) : Option (Nat × Option (U64 × Bool)) := s.self.arrivals[k.toNat]'k.isLt

/-- The slot has no outstanding arrival at barrier k, or the generation it arrived in has completed. -/
def MayArrive (s : State) (id : Nat) (k : BitVec 2) : Prop :=
  arrivalAt s k = none ∨ ∃ g w, arrivalAt s k = some (g, w) ∧ g < (barOf s id k).gen

/-- The BARB that the slot executes has arrived before, in a generation: the same word, in or out of a trap handler as then (R210). -/
def HasArrived (s : State) (k : BitVec 2) (g : Nat) : Prop := arrivalAt s k = some (g, some (s.pc, s.self.class1))

/-- Only the issuing slot's window, span and arrivals, and barriers, differ: every register and every byte is as before. -/
def BarrierFrame (s t : State) : Prop :=
  t.self = { s.self with
      pcc := t.self.pcc, winDone := t.self.winDone, park := t.self.park, afterTransfer := t.self.afterTransfer, replay := t.self.replay
      arrivals := t.self.arrivals, marks := t.self.marks, span := t.self.span }
    ∧ t = { s with self := t.self, barriers := t.barriers } ∧ ∀ a, t.byteAt a = s.byteAt a

/-- Arrival at barrier k holds `v`, and the arrivals at the others are as before. -/
def ArrivalIs (s t : State) (k : BitVec 2) (v : Option (Nat × Option (U64 × Bool))) : Prop :=
  ∀ j : Fin 4, t.self.arrivals[j] = if j.val = k.toNat then v else s.self.arrivals[j]

/-- The span of the slot is cut once at bench scope (R117, R124). -/
def BenchCut (s t : State) : Prop :=
  t.self.span = s.self.span + 1 ∧ ∀ j : Fin 4, t.self.marks[j] = if j.val = 0 then s.self.span else s.self.marks[j]

/-- The barrier has counted an arrival: its generation has completed where it was the last, and the next has none yet. -/
def Counted (s t : State) (id lcn stage : Nat) (k : BitVec 2) (last : Prop) : Prop :=
  (last → (barOf t id k).gen = (barOf s id k).gen + 1 ∧ (barOf t id k).arrived = [])
    ∧ (¬last → (barOf t id k).gen = (barOf s id k).gen ∧ (barOf t id k).arrived = (barOf s id k).arrived ++ [(lcn, stage)])

/-- The state in which the slot's instruction is a window of its own (R155, R160, R347). -/
def ownWindow (s : State) : State :=
  { s with self := { s.self with
      winStart := s.pc, winDone := 0, winReads := [], winWrites := [], winFlags := 0, strict := s.self.settlemode.getLsbD 0
      hold := s.self.traphold.getLsbD 0, afterTransfer := false } }

/-- The instruction does `f` in a window of its own: earlier instructions complete first, among them a DLGA whose reply is out, and a
watch trap of theirs is delivered (R157, R210, R243, R371). -/
def InOwnWindow (i : Instr) (s : State) (f : State → State → Prop) : Prop :=
  (s.self.winStart = s.pc → ∃ t, exec i s = .next t ∧ f s t)
  ∧ (s.self.winStart ≠ s.pc → s.self.delegated.isSome = true →
      exec i s = .next { s with self := { s.self with park := .settle } })
  ∧ (s.self.winStart ≠ s.pc → s.self.delegated = none → ∀ k pc w, s.self.watchTrap = some (k, pc, w) →
      exec i s = .next (s.takeTrapAt k pc w))
  ∧ (s.self.winStart ≠ s.pc → s.self.delegated = none → s.self.watchTrap = none → ∃ t, exec i s = .next t ∧ f (ownWindow s) t)

/-- The instruction parks, and nothing of it is done. -/
def ParksAlone (i : Instr) (s : State) (p : Park) : Prop := InOwnWindow i s (fun s t => t = { s with self := { s.self with park := p } })

end Sys2Proof.Claims

/-- R115, R117, R208: FENCE completes in every slot and ends its span at its scope, whatever sets it orders; it changes nothing
else. -/
def Sys2Proof.Claims.Fences : Prop :=
  ∀ (s : State) (f : BitVec 4) (c : BitVec 2),
    ∃ t, exec (.fence f c) s = .next t ∧ Registers (spanCut s c) t s.g s.v s.p s.self.flags ∧ Retired s t

/-- R209: BARA of a launch's task, with no outstanding arrival of a generation that runs, records the arrival and completes; its span is
cut at bench scope. -/
def Sys2Proof.Claims.BarrierArrives : Prop :=
  ∀ (s : State) (k : BitVec 2) (id lcn stage : Nat), s.self.role = .launch id lcn stage → MayArrive s id k →
    ∃ t, exec (.bara k) s = .next t ∧ BarrierFrame s t ∧ Retired s t ∧ BenchCut s t
      ∧ ArrivalIs s t k (some ((barOf s id k).gen, none)) ∧ Counted s t id lcn stage k (LastToArrive s id lcn stage k)

/-- R209: BARW of a launch's task, with no outstanding arrival of a generation that runs, completes; its span is cut at bench scope. -/
def Sys2Proof.Claims.BarrierWaits : Prop :=
  ∀ (s : State) (k : BitVec 2) (id lcn stage : Nat), s.self.role = .launch id lcn stage → MayArrive s id k →
    ∃ t, exec (.barw k) s = .next t ∧ BarrierFrame s t ∧ t.barriers = s.barriers ∧ Retired s t ∧ BenchCut s t ∧ ArrivalIs s t k none

/-- R209, R210: BARB of a launch's last task to arrive completes; one that has arrived, and whose generation has completed, completes
without another cut of its span. -/
def Sys2Proof.Claims.BarrierBoth : Prop :=
  ∀ (s : State) (k : BitVec 2) (id lcn stage : Nat), s.self.role = .launch id lcn stage →
    (MayArrive s id k → (∀ g, ¬HasArrived s k g) → LastToArrive s id lcn stage k →
      ∃ t, exec (.barb k) s = .next t ∧ BarrierFrame s t ∧ Retired s t ∧ BenchCut s t ∧ ArrivalIs s t k none
        ∧ Counted s t id lcn stage k True)
    ∧ (∀ g, HasArrived s k g → g < (barOf s id k).gen →
      ∃ t, exec (.barb k) s = .next t ∧ BarrierFrame s t ∧ t.barriers = s.barriers ∧ Retired s t ∧ t.self.span = s.self.span
        ∧ t.self.marks = s.self.marks ∧ ArrivalIs s t k none)

/-- R209, R210: where they do not complete. A slot whose task belongs to no launch traps; one whose earlier arrival's generation runs
parks, in a window of its own; so does a BARB that is not the last to arrive, after its arrival, and one that has arrived. -/
def Sys2Proof.Claims.BarrierStops : Prop :=
  ∀ (s : State) (k : BitVec 2),
    ((∀ id lcn stage, s.self.role ≠ .launch id lcn stage) →
      exec (.bara k) s = .next (s.trap 0x01 0) ∧ exec (.barw k) s = .next (s.trap 0x01 0) ∧ exec (.barb k) s = .next (s.trap 0x01 0))
    ∧ ∀ id lcn stage, s.self.role = .launch id lcn stage →
      (∀ g w, arrivalAt s k = some (g, w) → (barOf s id k).gen ≤ g →
        ParksAlone (.bara k) s (.barrier k.toNat g) ∧ ParksAlone (.barw k) s (.barrier k.toNat g)
          ∧ ParksAlone (.barb k) s (.barrier k.toNat g))
      ∧ (MayArrive s id k → (∀ g, ¬HasArrived s k g) → ¬LastToArrive s id lcn stage k →
        InOwnWindow (.barb k) s (fun s t => BarrierFrame s t ∧ Counted s t id lcn stage k False ∧ BenchCut s t
          ∧ t.self.park = .barrier k.toNat (barOf s id k).gen ∧ t.self.pcc = s.self.pcc ∧ t.self.winDone = s.self.winDone
          ∧ ArrivalIs s t k (some ((barOf s id k).gen, some (s.pc, s.self.class1)))))

/-- R115, R117, R208 to R210: FENCE, BARA, BARW and BARB: where they complete and where they do not. -/
def Obligations.fence_and_barriers : Prop :=
  Claims.Fences ∧ Claims.BarrierArrives ∧ Claims.BarrierWaits ∧ Claims.BarrierBoth ∧ Claims.BarrierStops

/-! ### Vectors of integers, permutes and predicates (R164, R165, R169, R221, R222, R224, R228, R230) -/

namespace Sys2Proof.Claims

/-- Element i of a register at width w (R164). -/
def el (w : Nat) (x : Vec) (i : Nat) : Nat := x.toNat / 2 ^ (w * i) % 2 ^ w
/-- The width and the signedness of an integer element type (R169). -/
def wide (e : BitVec 3) : Nat := 8 * 2 ^ (e.toNat % 4)
/-- A field of w bits as the integer its type makes it. -/
def typed (e : BitVec 3) (w v : Nat) : Int := if e.toNat < 4 ∧ 2 ^ (w - 1) ≤ v then (v : Int) - 2 ^ w else v
/-- Clamped to the range of the type at width w. -/
def clamped (e : BitVec 3) (w : Nat) (v : Int) : Int :=
  if e.toNat < 4 then max (-2 ^ (w - 1)) (min (2 ^ (w - 1) - 1) v) else max 0 (min (2 ^ w - 1) v)

/-- The instruction completes and writes vd alone: at width w, element i is `f i` cut to w bits where the predicate bit i is set, and
that of `old` elsewhere (R165). -/
def Elements (i : Instr) (s : State) (d : BitVec 5) (w : Nat) (p : Pred) (old : Vec) (f : Nat → Int) : Prop :=
  ∃ x, PutsV i s d x 0 ∧ ∀ j, j < 1024 / w → el w x j = if p.getLsbD j = true then (f j % 2 ^ w).toNat else el w old j

/-- The active ones of the first n lanes, in order. -/
def active (n : Nat) (p : Pred) : List Nat := (List.range n).filter (fun i => p.getLsbD i)

/-- A compare writes pd alone: active lanes their answer, inactive ones keep their bits, and the bits above the lanes are 0 (R165). -/
def Compares (i : Instr) (s : State) (d : BitVec 3) (n : Nat) (p : Pred) (f : Nat → Prop) (fl : U64) : Prop :=
  ∃ x : Pred, PutsP i s d x fl ∧ ∀ j, j < 128 →
    (x.getLsbD j = true ↔ j < n ∧ ((p.getLsbD j = true ∧ f j) ∨ (p.getLsbD j = false ∧ (s.p d).getLsbD j = true)))

end Sys2Proof.Claims

/-- R221, R165, R169: the fourteen members of VIA at every element type; inactive elements keep their value. -/
def Sys2Proof.Claims.VectorInteger : Prop :=
  ∀ (s : State) (d a b : BitVec 5) (p e : BitVec 3),
    let w := wide e
    let x (i : Nat) : Nat := el w (s.v a) i
    let y (i : Nat) : Nat := el w (s.v b) i
    let xs (i : Nat) : Int := typed e w (x i)
    let ys (i : Nat) : Int := typed e w (y i)
    let is (i : Instr) (f : Nat → Int) : Prop := Elements i s d w (s.p p) (s.v d) f
    is (.vadd d a b p e) (fun i => x i + y i) ∧ is (.vsub d a b p e) (fun i => x i - y i)
    ∧ is (.vmul d a b p e) (fun i => x i * y i) ∧ is (.vmulh d a b p e) (fun i => xs i * ys i / 2 ^ w)
    ∧ is (.vmin d a b p e) (fun i => min (xs i) (ys i)) ∧ is (.vmax d a b p e) (fun i => max (xs i) (ys i))
    ∧ is (.vand d a b p e) (fun i => (x i &&& y i : Nat)) ∧ is (.vor d a b p e) (fun i => (x i ||| y i : Nat))
    ∧ is (.vxor d a b p e) (fun i => (x i ^^^ y i : Nat)) ∧ is (.vsll d a b p e) (fun i => x i * 2 ^ (y i % w))
    ∧ is (.vsrl d a b p e) (fun i => x i / 2 ^ (y i % w)) ∧ is (.vsra d a b p e) (fun i => signedAt w (x i) / 2 ^ (y i % w))
    ∧ is (.vaddsat d a b p e) (fun i => clamped e w (xs i + ys i)) ∧ is (.vsubsat d a b p e) (fun i => clamped e w (xs i - ys i))

/-- R222, R224: VDOT4, VMULW, VNARROW, VSEL, VMOV, VIDX, VBCAST and VINS. -/
def Sys2Proof.Claims.VectorIntegerSpecial : Prop :=
  ∀ (s : State) (d a b k g : BitVec 5) (p e : BitVec 3) (z : BitVec 1) (q : BitVec 2),
    let w := wide e
    let t8 (v : Nat) : Int := if z = 0 then signedAt 8 v else v
    let byte (r : BitVec 5) (i j : Nat) : Int := t8 (el 8 (s.v r) (4 * i + j))
    Elements (.vdot4 d a b p z) s d 32 (s.p p) (s.v d)
      (fun i => el 32 (s.v d) i + byte a i 0 * byte b i 0 + byte a i 1 * byte b i 1 + byte a i 2 * byte b i 2 + byte a i 3 * byte b i 3)
    ∧ Elements (.vmulw d a b p e) s d (2 * w) (s.p p) (s.v d) (fun i => typed e w (el w (s.v a) i) * typed e w (el w (s.v b) i))
    ∧ Elements (.vnarrow d a b p e) s d w (s.p p) (s.v d) (fun i => clamped e w (typed e (2 * w)
        (if i < 1024 / (2 * w) then el (2 * w) (s.v a) i else el (2 * w) (s.v b) (i - 1024 / (2 * w)))))
    ∧ Elements (.vsel d a b p e) s d w (s.p p) (s.v b) (fun i => el w (s.v a) i)
    ∧ Elements (.vmov d a p e) s d w (s.p p) (s.v d) (fun i => el w (s.v a) i)
    ∧ Elements (.vidx d p e) s d w (s.p p) (s.v d) (fun i => i)
    ∧ Elements (.vbcast d q g p) s d (8 * 2 ^ q.toNat) (s.p p) (s.v d) (fun _ => (s.x g).toNat)
    ∧ Elements (.vins d k g) s d 32 (BitVec.allOnes 128) 0 (fun i => if i = k.toNat then (s.x g).toNat else el 32 (s.v d) i)

/-- R221, R222, R224: the members of VIA and VIB, and the moves of VS. -/
def Obligations.vector_integer_members : Prop := Claims.VectorInteger ∧ Claims.VectorIntegerSpecial


/-- R228: the permutes under a predicate; the integer reductions, which begin with element 0 of vb and write element 0 alone, the rest
zero; VCOMPRESS; VEXTG, which extends an element by its type into a g register. -/
def Obligations.vector_permutes : Prop :=
  ∀ (s : State) (d a b k : BitVec 5) (p e : BitVec 3),
    let w := wide e
    let n := 1024 / w
    let m : List Nat := active n (s.p p)
    let x (i : Nat) : Nat := el w (s.v a) i
    let only0 (v : Int) (i : Nat) : Int := if i = 0 then v else 0
    Elements (.vperm d a b p e) s d w (s.p p) (s.v d) (fun i => x (el w (s.v b) i % n))
    ∧ Elements (.vslideup d a b p e) s d w (s.p p) (s.v d) (fun i => if i = 0 then el w (s.v b) (n - 1) else x (i - 1))
    ∧ Elements (.vslidedn d a b p e) s d w (s.p p) (s.v d) (fun i => if i = n - 1 then el w (s.v b) 0 else x (i + 1))
    ∧ Elements (.vredadd d a b p e) s d w (BitVec.allOnes 128) 0 (only0 (el w (s.v b) 0 + (m.map (fun i => (x i : Int))).sum))
    ∧ Elements (.vredmin d a b p e) s d w (BitVec.allOnes 128) 0
        (only0 ((m.map (fun i => typed e w (x i))).foldl min (typed e w (el w (s.v b) 0))))
    ∧ Elements (.vredmax d a b p e) s d w (BitVec.allOnes 128) 0
        (only0 ((m.map (fun i => typed e w (x i))).foldl max (typed e w (el w (s.v b) 0))))
    ∧ Elements (.vcompress d a p e) s d w (BitVec.allOnes 128) 0 (fun i => ((m.map x).getD i 0 : Nat))
    ∧ PutsX (.vextg d a k e) s d (cut (typed e w (el w (s.v a) k.toNat)))

/-- R230: the integer compares, signed or unsigned by the type, and the predicate operations. -/
def Obligations.predicates : Prop :=
  ∀ (s : State) (d p a b : BitVec 3) (e : BitVec 3) (u v g : BitVec 5),
    let w := wide e
    let x (i : Nat) : Int := typed e w (el w (s.v u) i)
    let y (i : Nat) : Int := typed e w (el w (s.v v) i)
    Compares (.vcmpeq d u v p e) s d (1024 / w) (s.p p) (fun i => x i = y i) 0
    ∧ Compares (.vcmplt d u v p e) s d (1024 / w) (s.p p) (fun i => x i < y i) 0
    ∧ Compares (.vcmple d u v p e) s d (1024 / w) (s.p p) (fun i => x i ≤ y i) 0
    ∧ PutsP (.pand d a b) s d (s.p a &&& s.p b) 0 ∧ PutsP (.por d a b) s d (s.p a ||| s.p b) 0
    ∧ PutsP (.pxor d a b) s d (s.p a ^^^ s.p b) 0 ∧ PutsP (.pnot d a) s d (~~~s.p a) 0
    ∧ (∃ q : Pred, PutsP (.psetn d g) s d q 0 ∧ ∀ j, j < 128 → (q.getLsbD j = true ↔ j < (s.x g).toNat))
    ∧ PutsX (.pcnt g a) s g (cut (active 128 (s.p a)).length)
    ∧ PutsX (.pfirst g a) s g (cut ((active 128 (s.p a)).headD 128))

/-! ### Floating point (R213 to R217, R223 to R225, R228 to R232) -/

namespace Sys2Proof.Claims

/-- The rational a finite value denotes (R213); 0 for what is not finite. -/
def valQ : FVal → ℚ
  | .fin n m e => (if n then -1 else 1) * m * (2 : ℚ) ^ e
  | _ => 0
/-- A field of bits that denotes a finite value, and that value. -/
def FiniteAt (f : Fmt) (b : Nat) (y : ℚ) : Prop := b < 2 ^ f.width ∧ ∃ n m e, f.decode b = .fin n m e ∧ y = valQ (.fin n m e)
/-- The formats. -/
def fmts : List Fmt := [.f32, .f16, .bf16, .e4m3, .e5m2]

/-- Bits that denote a value v rounded in a mode among the finite values of a format (R215). -/
def Rounds (f : Fmt) (mode : RMode) (v : ℚ) (b : Nat) : Prop :=
  ∃ y, FiniteAt f b y ∧ ∀ c z, FiniteAt f c z →
    match mode with
    | .rne => |y - v| ≤ |z - v| ∧ (z ≠ y → |z - v| = |y - v| → b % 2 = 0)
    | .rtz => |y| ≤ |v| ∧ 0 ≤ y * v ∧ (|z| ≤ |v| → |z| ≤ |y|)
    | .rdn => y ≤ v ∧ (z ≤ v → z ≤ y)
    | .rup => v ≤ y ∧ (v ≤ z → y ≤ z)

/-- Where an overflow leads (R215). -/
def overflowed (f : Fmt) (mode : RMode) (neg : Bool) : Nat :=
  if mode = .rne ∨ (mode = .rup ∧ neg = false) ∨ (mode = .rdn ∧ neg = true) then (if f.ieee then f.inf neg else f.nan) else f.largest neg

/-- The bits and flags of a nonzero exact result v: without overflow the bits round it, NX says that they differ from it and UF that
they do and that it lies below the smallest normal; with overflow, OF and NX, and the mode's value, only beyond every finite value. -/
def Rounded (f : Fmt) (mode : RMode) (v : ℚ) (r : Nat × FFlags) : Prop :=
  r.2.nv = false ∧ r.2.dz = false
  ∧ (r.2.ofl = false → Rounds f mode v r.1 ∧ (r.2.nx = true ↔ ¬FiniteAt f r.1 v)
      ∧ (r.2.ufl = true ↔ r.2.nx = true ∧ |v| < (2 : ℚ) ^ (1 - (f.bias : Int))))
  ∧ (r.2.ofl = true → r.2.nx = true ∧ r.2.ufl = false ∧ r.1 = overflowed f mode (decide (v < 0)) ∧ ∀ c z, FiniteAt f c z → |z| < |v|)

/-- The flags that the active ones of n lanes raise (R216). -/
def raised (n : Nat) (p : Pred) (r : Nat → Nat × FFlags) : U64 := (active n p).foldl (fun fl i => fl ||| (r i).2.bits) 0

/-- The instruction completes and writes vd and the flags its active lanes raise: at width w, active element i is `(r i).1`. -/
def Floats (i : Instr) (s : State) (d : BitVec 5) (w : Nat) (p : Pred) (r : Nat → Nat × FFlags) : Prop :=
  ∃ x, PutsV i s d x (raised (1024 / w) p r)
    ∧ ∀ j, j < 1024 / w → el w x j = if p.getLsbD j = true then (r j).1 % 2 ^ w else el w (s.v d) j

/-- Element i as a value of a format. -/
def flo (f : Fmt) (x : Vec) (i : Nat) : FVal := f.decode (el f.width x i)
/-- The element types of VF (R169). -/
def fmtOf (e : BitVec 2) : Fmt := if e = 0 then .f32 else if e = 1 then .f16 else .bf16
/-- The mode in ROUND (R215). -/
def roundMode (s : State) : RMode :=
  if s.self.round.toNat % 4 = 0 then .rne else if s.self.round.toNat % 4 = 1 then .rtz
  else if s.self.round.toNat % 4 = 2 then .rdn else .rup

/-- x below y, and x equal to y, as numbers: −0 equals +0, and infinities lie at the ends. -/
def below : FVal → FVal → Prop
  | .fin a m e, .fin b n k => valQ (.fin a m e) < valQ (.fin b n k)
  | .fin _ _ _, .inf b => b = false
  | .inf a, .fin _ _ _ => a = true
  | .inf a, .inf b => a = true ∧ b = false
  | _, _ => False
def alike : FVal → FVal → Prop
  | .fin a m e, .fin b n k => valQ (.fin a m e) = valQ (.fin b n k)
  | .inf a, .inf b => a = b
  | _, _ => False

/-- The flag NV where a condition holds. -/
def nvIf (b : Bool) : Nat × FFlags := (0, { nv := b, dz := false, ofl := false, ufl := false, nx := false })

end Sys2Proof.Claims

/-- R223, R224, R225, R216: the lanes of VF, VFMAS and VSCACC: each active element of vd becomes what the scalar operation of the
machine gives of the elements in its lane in the mode of ROUND, and FLAGS gathers what the active lanes raise; VFABS and VFNEG change
only the sign bit and raise nothing. -/
def Obligations.vector_float : Prop :=
  ∀ (s : State) (d a b g : BitVec 5) (p : BitVec 3) (e : BitVec 2),
    let f := fmtOf e
    let m := roundMode s
    let P := s.p p
    let x (i : Nat) : FVal := flo f (s.v a) i
    let y (i : Nat) : FVal := flo f (s.v b) i
    let z (i : Nat) : FVal := flo f (s.v d) i
    let c := Fmt.f32.decode ((s.x g).toNat % 2 ^ 32)
    Floats (.vfadd d a b p e) s d f.width P (fun i => addBits f m (x i) (y i))
    ∧ Floats (.vfsub d a b p e) s d f.width P (fun i => addBits f m (x i) (y i).negate)
    ∧ Floats (.vfmul d a b p e) s d f.width P (fun i => mulBits f m (x i) (y i))
    ∧ Floats (.vfma d a b p e) s d f.width P (fun i => fmaBits f m (x i) (y i) (z i))
    ∧ Floats (.vfms d a b p e) s d f.width P (fun i => fmaBits f m (x i) (y i) (z i).negate)
    ∧ Floats (.vfnma d a b p e) s d f.width P (fun i => fmaBits f m (x i).negate (y i) (z i))
    ∧ Floats (.vfdiv d a b p e) s d f.width P (fun i => divBits f m (x i) (y i))
    ∧ Floats (.vfsqrt d a p e) s d f.width P (fun i => sqrtBits f m (x i))
    ∧ Floats (.vfexp2 d a p e) s d f.width P (fun i => exp2Bits f m (x i))
    ∧ Floats (.vfdot2 d a b p e) s d 32 P (fun i => dotBits m (flo .f32 (s.v d) i) [(x (2 * i), y (2 * i)), (x (2 * i + 1), y (2 * i + 1))])
    ∧ Floats (.vfmas d a g p) s d 32 P (fun i => fmaBits .f32 m (flo .f32 (s.v a) i) c (flo .f32 (s.v d) i))
    ∧ Floats (.vscacc d a b g p) s d 32 P (fun i => scaccBits (flo .f32 (s.v d) i) (flo .f16 (s.v b) i) c (flo .f32 (s.v a) i) (flo .f32 (s.v (a + 1)) i))
    ∧ Elements (.vfabs d a p e) s d f.width P (s.v d) (fun i => (el f.width (s.v a) i % 2 ^ (f.width - 1) : Nat))
    ∧ Elements (.vfneg d a p e) s d f.width P (s.v d) (fun i => (el f.width (s.v a) i ^^^ 2 ^ (f.width - 1) : Nat))

/-- R213, R215, R216: rounding a nonzero rational to a format, in every mode: the result, the overflow and the flags. -/
def Obligations.rounding : Prop :=
  ∀ f ∈ fmts, ∀ (mode : RMode) (neg : Bool) (num den : Nat), 0 < num → 0 < den →
    Rounded f mode ((if neg then -1 else 1) * num / den) (roundRat f mode neg num den)

/-- R215, R216, R223: on finite operands, sum, product, fused multiply-add and quotient are the exact results rounded once; an exact
zero is signed as IEEE 754 and R215 say, and raises nothing. -/
def Obligations.arithmetic_rounds_once : Prop :=
  ∀ f ∈ fmts, ∀ (mode : RMode) (a b c : Bool) (m n l : Nat) (i j k : Int),
    let x := FVal.fin a m i
    let y := FVal.fin b n j
    let z := FVal.fin c l k
    let is (v : ℚ) (neg : Bool) (r : Nat × FFlags) : Prop :=
      (v ≠ 0 → Rounded f mode v r) ∧ (v = 0 → r = (f.zero neg, .none))
    is (valQ x + valQ y) (if a = b then a else decide (mode = .rdn)) (addBits f mode x y)
    ∧ is (valQ x * valQ y) (a != b) (mulBits f mode x y)
    ∧ is (valQ x * valQ y + valQ z) (if (a != b) = c then c else decide (mode = .rdn)) (fmaBits f mode x y z)
    ∧ (n ≠ 0 → is (valQ x / valQ y) (a != b) (divBits f mode x y))

/-- R223, R230: the lesser and the greater of two elements, −0 below +0, a NaN ignored beside a number; the floating-point compares.
NV is raised for a signalling NaN, by VFCMPLT and VFCMPLE for any NaN. -/
def Obligations.float_order : Prop :=
  ∀ (s : State) (d a b : BitVec 5) (q : BitVec 3) (p : BitVec 3) (e : BitVec 2),
    let f := fmtOf e
    let n := 1024 / f.width
    let P := s.p p
    let u (i : Nat) : Nat := el f.width (s.v a) i
    let w (i : Nat) : Nat := el f.width (s.v b) i
    let x (i : Nat) : FVal := f.decode (u i)
    let y (i : Nat) : FVal := f.decode (w i)
    let sig (i : Nat) : Bool := (x i).isSig || (y i).isSig
    let any (i : Nat) : Bool := (x i).isNan || (y i).isNan
    let first (i : Nat) : Prop := below (x i) (y i) ∨ (alike (x i) (y i) ∧ ((x i).sign = true ∨ (y i).sign = false))
    (∃ r : Nat → Nat, Floats (.vfmin d a b p e) s d f.width P (fun i => (r i, (nvIf (sig i)).2)) ∧ ∀ i,
      ((x i).isNan = true → r i = if (y i).isNan = true then f.nan else w i) ∧ ((x i).isNan = false → (y i).isNan = true → r i = u i)
      ∧ (any i = false → (first i → r i = u i) ∧ (¬first i → r i = w i)))
    ∧ (∃ r : Nat → Nat, Floats (.vfmax d a b p e) s d f.width P (fun i => (r i, (nvIf (sig i)).2)) ∧ ∀ i,
      ((x i).isNan = true → r i = if (y i).isNan = true then f.nan else w i) ∧ ((x i).isNan = false → (y i).isNan = true → r i = u i)
      ∧ (any i = false → (below (x i) (y i) → r i = w i) ∧ (below (y i) (x i) → r i = u i)
        ∧ (alike (x i) (y i) → r i = if (x i).sign = true ∧ (y i).sign = false then w i else u i)))
    ∧ Compares (.vfcmpeq q a b p e) s q n P (fun i => alike (x i) (y i)) (raised n P (fun i => nvIf (sig i)))
    ∧ Compares (.vfcmplt q a b p e) s q n P (fun i => below (x i) (y i)) (raised n P (fun i => nvIf (any i)))
    ∧ Compares (.vfcmple q a b p e) s q n P (fun i => below (x i) (y i) ∨ alike (x i) (y i)) (raised n P (fun i => nvIf (any i)))
    ∧ Compares (.vfcmpun q a b p e) s q n P (fun i => any i = true) (raised n P (fun i => nvIf (sig i)))

/-! ### Reductions, conversions and quantisation (R217, R218, R228, R229, R231 to R234) -/

namespace Sys2Proof.Claims

/-- Element i after k levels of the pairwise tree over n elements x (R229). -/
def tree (m : RMode) (n : Nat) (x : Nat → FVal) : Nat → Nat → FVal
  | 0, i => x i
  | k + 1, i => Fmt.f32.decode (addBits .f32 m (tree m n x k i) (tree m n x k (i + n / 2 ^ (k + 1)))).1
/-- A field of a format as an FP32 field. -/
def widened (f : Fmt) (b : Nat) : Nat := (convertFF f .f32 .rne false b).1

/-- An integer to which a mode rounds a rational (R215). -/
def RoundsInt (mode : RMode) (v : ℚ) (n : Int) : Prop :=
  match mode with
  | .rne => |n - v| ≤ 1 / 2 ∧ (|n - v| = 1 / 2 → n % 2 = 0)
  | .rtz => |(n : ℚ)| ≤ |v| ∧ |v| < |(n : ℚ)| + 1 ∧ 0 ≤ n * v
  | .rdn => n ≤ v ∧ v < n + 1
  | .rup => v ≤ n ∧ n - 1 < v
/-- The range of an integer format of w bits. -/
def leastOf (w : Nat) (sgn : Bool) : Int := if sgn then -2 ^ (w - 1) else 0
def greatestOf (w : Nat) (sgn : Bool) : Int := if sgn then 2 ^ (w - 1) - 1 else 2 ^ w - 1
/-- A field of w bits as an integer, signed or not. -/
def asInt (w : Nat) (sgn : Bool) (b : Nat) : Int := if sgn = true then signedAt w b else (b % 2 ^ w : Nat)
/-- The integer v as a field of w bits. -/
def fieldOf (w : Nat) (v : Int) : Nat := (v % 2 ^ w).toNat
/-- A rounded value to a format, with FP8's saturation (R217). -/
def Narrowed (g : Fmt) (mode : RMode) (sat : Bool) (v : ℚ) (r : Nat × FFlags) : Prop :=
  ∃ x, Rounded g mode v x ∧ r = if (g.width = 8 ∧ sat = true) ∧ x.2.ofl = true then (g.largest (decide (v < 0)), x.2) else x

/-- The bits of a positive finite FP16 value y that serves as the scale of a range: the least at or above it, 65,504 beyond that, 1
for none (R233). -/
def Scale (range : ℚ) (sc : Nat) (y : ℚ) : Prop :=
  FiniteAt .f16 sc y ∧ if range = 0 then sc = 0x3C00 ∧ y = 1 else if 65504 < range then y = 65504
    else range ≤ y ∧ ∀ c z, FiniteAt .f16 c z → range ≤ z → y ≤ z
/-- The least, and the greatest, of 0 and n numbers. -/
def LeastWith0 (n : Nat) (v : Nat → ℚ) (x : ℚ) : Prop := x ≤ 0 ∧ (∀ i, i < n → x ≤ v i) ∧ (x = 0 ∨ ∃ i, i < n ∧ x = v i)
def GreatestWith0 (n : Nat) (v : Nat → ℚ) (x : ℚ) : Prop := 0 ≤ x ∧ (∀ i, i < n → v i ≤ x) ∧ (x = 0 ∨ ∃ i, i < n ∧ x = v i)
/-- Scale bits sc, zero point z and codes q of n numbers: b bits, symmetric or not (R233). -/
def Quantised (b n : Nat) (sym : Bool) (v : Nat → ℚ) (sc : Nat) (z : Int) (q : Nat → Int) : Prop :=
  ∃ (y : ℚ) (k : Nat → Int), (∀ i, i < n → RoundsInt .rne (v i / y) (k i))
    ∧ if sym = true then
        ∃ mx, GreatestWith0 n (fun i => |v i|) mx ∧ Scale (mx / (2 ^ (b - 1) - 1)) sc y ∧ z = 0
          ∧ ∀ i, i < n → q i = max (-(2 ^ (b - 1) - 1)) (min (2 ^ (b - 1) - 1) (k i))
      else
        ∃ mn mx k0, LeastWith0 n v mn ∧ GreatestWith0 n v mx ∧ Scale ((mx - mn) / (2 ^ b - 1)) sc y ∧ RoundsInt .rne (-mn / y) k0
          ∧ z = max 0 (min (2 ^ b - 1) k0) ∧ ∀ i, i < n → q i = max 0 (min (2 ^ b - 1) (k i + z))

end Sys2Proof.Claims

/-- R228, R229: VFREDADD is the fixed pairwise tree over the lanes of va, −0.0 in an inactive one, then added to element 0 of vb, every
sum rounded to FP32 by ROUND, and gathers every addition's flags. VFREDMAX is the greatest of vb[31:0] and the widened active
elements, NaNs ignored beside numbers, the canonical NaN where there is nothing else; a signalling NaN among them raises NV. Each writes
bits [31:0] alone, the rest zero. -/
def Obligations.vector_float_reductions : Prop :=
  ∀ (s : State) (d a b : BitVec 5) (p : BitVec 3) (e : BitVec 2),
    let f := fmtOf e
    let m := roundMode s
    let P := s.p p
    let n := 1024 / f.width
    let x (i : Nat) : FVal := if P.getLsbD i = true then flo f (s.v a) i else .fin true 0 0
    let sum (k i : Nat) : Nat × FFlags := addBits .f32 m (tree m n x k i) (tree m n x k (i + n / 2 ^ (k + 1)))
    let last := addBits .f32 m (flo .f32 (s.v b) 0) (tree m n x (Nat.log2 n) 0)
    let zs := el 32 (s.v b) 0 :: (active n P).map (fun i => widened f (el f.width (s.v a) i))
    let num (b : Nat) : FVal := Fmt.f32.decode b
    (∃ fl : U64, PutsV (.vfredadd d a b p e) s d (BitVec.ofNat 1024 last.1) (fl ||| last.2.bits)
      ∧ ∀ j, fl.getLsbD j = true ↔ ∃ k i, k < Nat.log2 n ∧ i < n / 2 ^ (k + 1) ∧ (sum k i).2.bits.getLsbD j = true)
    ∧ ∃ (r : Nat) (fl : U64), PutsV (.vfredmax d a b p e) s d (BitVec.ofNat 1024 r) fl
      ∧ (∃ nv : Bool, fl = (nvIf nv).2.bits
          ∧ (nv = true ↔ (num (el 32 (s.v b) 0)).isSig = true ∨ ∃ i ∈ active n P, (flo f (s.v a) i).isSig = true))
      ∧ ((∀ z ∈ zs, (num z).isNan = true) → r = Fmt.f32.nan)
      ∧ ((∃ z ∈ zs, (num z).isNan = false) → r ∈ zs ∧ (num r).isNan = false
          ∧ ∀ z ∈ zs, ¬below (num r) (num z) ∧ (alike (num r) (num z) → (num r).sign = true → (num z).sign = true))

/-- R231: VCVT converts as many elements as the wider format allows, in the mode of its rm field or, for 4, of ROUND; the bits above
them are written 0; every element is active. What one element becomes is `conversions`. -/
def Obligations.vector_convert : Prop :=
  ∀ (s : State) (d a x y : BitVec 5) (r : BitVec 3) (t : BitVec 1),
    let src := cvtType x.toNat
    let dst := cvtType y.toNat
    let m := 1024 / max src.width dst.width
    let mode := if r = 4 then roundMode s else RMode.ofCode r.toNat
    let one (i : Nat) : Nat × FFlags := cvtBits src dst mode (t == 1) (el src.width (s.v a) i)
    ∃ v, PutsV (.vcvt d a x y r t) s d v (raised m (BitVec.allOnes 128) one)
      ∧ (∀ i, i < m → el dst.width v i = (one i).1 % 2 ^ dst.width) ∧ v.toNat < 2 ^ (m * dst.width)

/-- R217, R232: what one element becomes: float to float, float to integer, integer to float, integer to integer. -/
def Obligations.conversions : Prop :=
  ∀ f ∈ fmts, ∀ g ∈ fmts, ∀ (mode : RMode) (sat : Bool) (b w v : Nat) (sgn un : Bool), 0 < w → 0 < v →
    let fp := cvtBits (.float f) (.float g) mode sat b
    let fi := cvtBits (.float f) (.int w sgn) mode sat b
    let i := cvtBits (.int w sgn) (.float g) mode sat b
    let z := asInt w sgn b
    let small : Prop := g.width = 8
    let sel (x y : Nat × FFlags) : Nat × FFlags := if sat = true then x else y
    (∀ q, f.decode b = .nan q → fp = (g.nan, (nvIf q).2) ∧ fi = (0, (nvIf true).2))
    ∧ (∀ n, f.decode b = .inf n →
        (small → g.ieee = true → fp = sel (g.largest n, .none) (g.inf n, .none))
        ∧ (g.ieee = false → fp = sel (g.largest n, .none) (g.nan, (nvIf true).2))
        ∧ (¬small → fp = (g.inf n, .none))
        ∧ fi = (fieldOf w (if n = true then leastOf w sgn else greatestOf w sgn), (nvIf true).2))
    ∧ (∀ n m e, f.decode b = .fin n m e →
        (m = 0 → fp = (g.zero n, .none))
        ∧ (m ≠ 0 → Narrowed g mode sat (valQ (.fin n m e)) fp)
        ∧ (f ≠ .f32 → g = .f32 → fp.2 = .none ∧ FiniteAt g fp.1 (valQ (.fin n m e)))
        ∧ ∃ k, RoundsInt mode (valQ (.fin n m e)) k
          ∧ (k < leastOf w sgn → fi = (fieldOf w (leastOf w sgn), (nvIf true).2))
          ∧ (greatestOf w sgn < k → fi = (fieldOf w (greatestOf w sgn), (nvIf true).2))
          ∧ (leastOf w sgn ≤ k → k ≤ greatestOf w sgn →
              fi = (fieldOf w k, { FFlags.none with nx := decide (k ≠ valQ (.fin n m e)) })))
    ∧ (b < 2 ^ w → (z = 0 → i = (g.zero false, .none)) ∧ (z ≠ 0 → Narrowed g mode sat z i))
    ∧ (b < 2 ^ w → cvtBits (.int w sgn) (.int v un) mode sat b
        = (fieldOf v (if sat = true then max (leastOf v un) (min (greatestOf v un) z) else z), .none))

/-- R233, R218: VQUANT: without a NaN or an infinity, scale, zero point and codes by the rule, p7 zero and no flag; with one, zero
codes, the scale a NaN, NV, and the bad elements' bits in p7. -/
def Sys2Proof.Claims.VectorQuantise : Prop :=
  ∀ (s : State) (d a g : BitVec 5) (r f : BitVec 2), (Instr.vquant d a g r f).wf = true →
    let n := 32 * 2 ^ r.toNat
    let b := if f.getLsbD 0 = true then 4 else 8
    let x (i : Nat) : FVal := flo .f32 (s.v (a + BitVec.ofNat 5 (i / 32))) (i % 32)
    let bad (i : Nat) : Prop := ∀ n m e, x i ≠ .fin n m e
    let does (v : Vec) (gw : Nat) (p7 : Pred) (fl : U64) : Prop :=
      ∃ t, exec (.vquant d a g r f) s = .next t
        ∧ Registers s t (gSet s g { bits := 0#64 ++ BitVec.ofNat 64 gw, tag := false }) (vSet s d v) (pSet s 7 p7) (s.self.flags ||| fl) ∧ Retired s t
    ((∃ i, i < n ∧ bad i) → ∃ p7 : Pred, does 0 0x7E00 p7 16 ∧ ∀ i, i < 128 → (p7.getLsbD i = true ↔ i < n ∧ bad i))
    ∧ ((∀ i, i < n → ¬bad i) → ∃ (v : Vec) (sc : Nat) (z : Int) (q : Nat → Int), does v (sc + 65536 * z.toNat) 0 0
        ∧ Quantised b n (f.getLsbD 1) (fun i => valQ (x i)) sc z q
        ∧ (∀ i, i < n → el b v i = fieldOf b (q i)) ∧ v.toNat < 2 ^ (b * n))

/-- R218, R234: VPACK clamps each byte to a nibble and clears the upper half; VUNPK extends each nibble of the lower half to a byte. -/
def Sys2Proof.Claims.Packs : Prop :=
  ∀ (s : State) (d a : BitVec 5) (f : BitVec 1),
    let u (i : Nat) : Nat := el 8 (s.v a) i
    let k (i : Nat) : Nat := el 4 (s.v a) i
    (∃ v, PutsV (.vpack d a f) s d v 0 ∧ v.toNat < 2 ^ 512
      ∧ ∀ i, i < 128 → el 4 v i = if f = 0 then min (u i) 15 else fieldOf 4 (max (-8) (min 7 (signedAt 8 (u i)))))
    ∧ Elements (.vunpk d a f) s d 8 (BitVec.allOnes 128) 0 (fun i => if f = 0 then (k i : Int) else signedAt 4 (k i))


/-- R234: VDEQ writes scale × (code − zero point) as FP32 to as many registers as the group fills. A NaN scale gives the canonical NaN,
an infinite one an infinity or, where the code is the zero point, the canonical NaN and NV. (The sign of the zero that a negative
scale leaves is the model's free value.) And VPACK, VUNPK. -/
def Sys2Proof.Claims.VectorDequantise : Prop :=
  Claims.Packs ∧ ∀ (s : State) (d a g : BitVec 5) (r f : BitVec 2), (Instr.vdeq d a g r f).wf = true →
    let n := 32 * 2 ^ r.toNat
    let b := if f.getLsbD 0 = true then 4 else 8
    let sc := (s.x g).toNat % 2 ^ 16
    let z : Int := if f.getLsbD 1 = true then 0 else ((s.x g).toNat / 2 ^ 16 % 2 ^ 8 : Nat)
    let q (i : Nat) : Int := asInt b (f.getLsbD 1) (el b (s.v a) i) - z
    ∃ (t : State) (y : Nat → Nat) (fl : U64), exec (.vdeq d a g r f) s = .next t ∧ Retired s t
      ∧ Registers s t s.g t.v s.p (s.self.flags ||| fl)
      ∧ (∀ k : BitVec 5, (k - d).toNat < 2 ^ r.toNat → ∀ j, j < 32 → el 32 (t.v k) j = y (32 * (k - d).toNat + j))
      ∧ (∀ k : BitVec 5, 2 ^ r.toNat ≤ (k - d).toNat → t.v k = s.v k)
      ∧ ∀ i, i < n →
        match Fmt.f16.decode sc with
        | .nan sig => y i = Fmt.f32.nan ∧ fl = (nvIf sig).2.bits
        | .inf neg => (q i = 0 → y i = Fmt.f32.nan) ∧ (q i ≠ 0 → y i = Fmt.f32.inf (neg != decide (q i < 0)))
            ∧ fl = (nvIf (decide (∃ j, j < n ∧ q j = 0))).2.bits
        | .fin neg m e => FiniteAt .f32 (y i) (valQ (.fin neg m e) * q i) ∧ fl = 0

/-- R218, R233, R234: VQUANT, VDEQ, VPACK and VUNPK. -/
def Obligations.quantisation : Prop := Claims.VectorQuantise ∧ Claims.VectorDequantise

/-! ### Accesses in lanes: vectors and tiles (R226, R227, R238 to R243) -/

namespace Sys2Proof.Claims

/-- The access of one lane. -/
def laneOf (s : State) (ea : Nat → U64) (n : Nat) (write : Bool) (i : Nat) : Acc := accessOf s (ea i) n (!write) write false

/-- The checks of a lane access pass: steps 1 to 4 of R19 once, the rest in every lane of `L`, all of them on this device (R227);
and the slot has no request outstanding. -/
def LanesPass (s : State) (c : Cap) (need : Perm) (write aligned : Bool) (n : Nat) (L : List Nat) (ea : Nat → U64) : Prop :=
  c.tag = true ∧ c.otype = 0 ∧ s.revokedAddr c.bounds.base.toNat = false ∧ c.holds need = true ∧ s.self.sent = [] ∧ s.self.replies = []
    ∧ ∀ i ∈ L, c.bounds.base ≤ (ea i).toNat ∧ ((ea i).toNat : Int) + n ≤ c.bounds.top ∧ (aligned = true → (ea i).toNat % n = 0)
        ∧ Clear s (ea i) (laneOf s ea n write i)

/-- The records after several accesses, and the watch trap that they make, each with what it adds to a lane mask: the lowest matching byte,
and every lane that matches (`Recorded`, `Watched`). -/
def RecordedAll (s t : State) (xs : List Acc) : Prop :=
  ∀ r, r ∈ t.recs ↔ r ∈ s.recs ∨ ∃ x ∈ xs,
    ((s.isChecked x.addr = true ∨ s.isChecked x.last = true) ∧ (∀ d v u i, x.agent ≠ .handler d v u i) ∧ x.addr / 32 ≤ r.granule ∧ r.granule ≤ x.last / 32
      ∧ r.agent = x.agent ∧ r.span = s.agentSpan x.agent ∧ r.write = x.write ∧ r.atomic = x.atomic)
def WatchedAll (s t : State) (xs : List (Acc × Pred)) : Prop :=
  match xs.filterMap (fun x => (s.watched x.1).map (fun a => (a, x.2))) with
  | [] => t.self.watchTrap = s.self.watchTrap
  | h :: hs =>
    let low := hs.foldl (fun n x => min n x.1) h.1
    let lanes := hs.foldl (fun m x => m ||| x.2) h.2
    match s.self.watchTrap with
    | none => ∃ w, t.self.watchTrap = some ({ cls := 0x14, addr := BitVec.ofNat 64 low, lanes := lanes, agent := 0 }, s.pc, w)
    | some (k, pc, w) =>
      t.self.watchTrap
        = if pc = s.pc then some ({ k with addr := BitVec.ofNat 64 (min low k.addr.toNat), lanes := k.lanes ||| lanes }, pc, w)
          else some (k, pc, w)
/-- The bit of a lane in a mask. -/
def bit (i : Nat) : Pred := 1#128 <<< i

/-- Several stores in order: where no later one comes over it, each leaves its bytes; what none comes over reads as before; the tag of
every granule touched is cleared, and no other changes. -/
def StoredAll (s t : State) (xs : List (Acc × Nat)) : Prop :=
  (∀ pre x post, xs = pre ++ x :: post → ∀ k, k < x.1.size →
      (∀ y ∈ post, ∀ j, j < y.1.size → Elsewhere s (y.1.addr + j) (x.1.addr + k)) →
      t.byteAt (x.1.addr + k) = BitVec.ofNat 8 (x.2 / 256 ^ k))
    ∧ (∀ b, (∀ x ∈ xs, ∀ k, k < x.1.size → Elsewhere s (x.1.addr + k) b) → t.byteAt b = s.byteAt b)
    ∧ ∀ b, ((∀ x ∈ xs, ∀ k, k < x.1.size → ¬SameGranule s (x.1.addr + k) b) → t.tagAt b = s.tagAt b)
        ∧ ((∃ x ∈ xs, ∃ k, k < x.1.size ∧ SameGranule s (x.1.addr + k) b) → t.tagAt b = false)

/-- An instruction reads its lanes and writes v registers: the records, the watch, and nothing else. -/
def LoadsLanes (i : Instr) (s : State) (v : BitVec 5 → Vec) (xs : List (Acc × Pred)) : Prop :=
  ∃ t, exec i s = .next t ∧ Holds s t s.g v s.p s.self.flags ∧ Retired s t ∧ RecordedAll s t (xs.map Prod.fst) ∧ WatchedAll s t xs
    ∧ t = { s with self := t.self, recs := t.recs, free := t.free } ∧ ∀ a, t.byteAt a = s.byteAt a ∧ t.tagAt a = s.tagAt a
/-- An instruction stores its lanes, and writes no register. -/
def StoresLanes (i : Instr) (s : State) (xs : List (Acc × Nat)) (bits : List Pred) : Prop :=
  ∃ t, exec i s = .next t ∧ Holds s t s.g s.v s.p s.self.flags ∧ Retired s t ∧ RecordedAll s t (xs.map Prod.fst)
    ∧ WatchedAll s t ((xs.map Prod.fst).zip bits) ∧ WriteFrame s t ∧ StoredAll s t xs

/-- Addresses at a unit stride, at a signed stride, and at the indices of v(d + 1) (R226). -/
def eaUnit (s : State) (a b : BitVec 5) (n i : Nat) : U64 := s.x a + s.x b + BitVec.ofNat 64 (i * n)
def eaStride (s : State) (a b : BitVec 5) (i : Nat) : U64 := s.x a + BitVec.ofNat 64 i * s.x b
def eaIndex (s : State) (d a b : BitVec 5) (n i : Nat) : U64 := s.x a + s.x b + BitVec.ofNat 64 (el 32 (s.v (d + 1)) i * n)

/-- One tile of the core and its strip take values; of the core nothing else changes, and no other core does. -/
def TilePut (s t : State) (d : BitVec 3) (x : TileData) (z : Strip) : Prop :=
  (∀ e, t.tile e = if e = d then x else s.tile e) ∧ (∀ e, t.strip e = if e = d then z else s.strip e) ∧ (∀ e, t.shape e = s.shape e)
    ∧ ∀ k, { t.core k with tiles := (s.core k).tiles, strips := (s.core k).strips } = s.core k ∧ (k ≠ s.self.core → t.core k = s.core k)

/-- The trap of a lane access: its class, its address, and the lanes that fail with it. -/
def lanesTrap (s : State) (k : BitVec 6) (ea : U64) (L : List Nat) (bad : Nat → Prop) (o : Host.Outcome State Fault Refusal) : Prop :=
  ∃ m : Pred, o = .next (s.takeTrap { cls := k, addr := ea, lanes := m, agent := 0 })
    ∧ ∀ j, j < 128 → (m.getLsbD j = true ↔ j ∈ L ∧ bad j)

end Sys2Proof.Claims

/-- R226, R227, R129: the four vector loads. Where the checks pass in every active lane, each active element is the bytes at its address,
little-endian (of unchecked memory, bytes that the read may give); the others keep their value. VLDB reads once, for all. -/
def Obligations.vector_loads : Prop :=
  ∀ (s : State) (d a b : BitVec 5) (p : BitVec 3) (z : BitVec 2) (y : BitVec 1),
    let n := 2 ^ z.toNat
    let k := 4 * 2 ^ y.toNat
    let c := s.g a
    let L (n : Nat) : List Nat := active (128 / n) (s.p p)
    let ld (i : Instr) (n : Nat) (ea : Nat → U64) : Prop := LanesPass s c .r false true n (L n) ea →
      ∃ v, LoadsLanes i s (vSet s d v) ((L n).map (fun j => (laneOf s ea n false j, bit j))) ∧ ∀ j, j < 128 / n →
        if (s.p p).getLsbD j = true then MayRead s (s.localAddr (ea j).toNat) n (el (8 * n) v j) else el (8 * n) v j = el (8 * n) (s.v d) j
    let one (_ : Nat) : U64 := s.x a + s.x b
    ld (.vld d a b p z) n (eaUnit s a b n) ∧ ld (.vlds d a b p z) n (eaStride s a b) ∧ ld (.vldx d a b p y) k (eaIndex s d a b k)
    ∧ (LanesPass s c .r false true n ((L n).take 1) one →
      ∃ v r, LoadsLanes (.vldb d a b p z) s (vSet s d v) (((L n).take 1).map (fun j => (laneOf s one n false j, (L n).foldl (fun m i => m ||| bit i) 0)))
        ∧ (L n ≠ [] → MayRead s (s.localAddr (one 0).toNat) n r) ∧ ∀ j, j < 128 / n →
        el (8 * n) v j = if (s.p p).getLsbD j = true then r else el (8 * n) (s.v d) j)

/-- R226, R227, R24: the three vector stores. Where the checks pass in every active lane, the active elements are stored in ascending
lane order, and the tags of the granules touched are cleared. -/
def Obligations.vector_stores : Prop :=
  ∀ (s : State) (d a b : BitVec 5) (p : BitVec 3) (z : BitVec 2) (y : BitVec 1),
    let n := 2 ^ z.toNat
    let k := 4 * 2 ^ y.toNat
    let st (i : Instr) (n : Nat) (ea : Nat → U64) : Prop := LanesPass s (s.g a) .w true true n (active (128 / n) (s.p p)) ea →
      StoresLanes i s ((active (128 / n) (s.p p)).map (fun j => (laneOf s ea n true j, el (8 * n) (s.v d) j))) ((active (128 / n) (s.p p)).map bit)
    st (.vst d a b p z) n (eaUnit s a b n) ∧ st (.vsts d a b p z) n (eaStride s a b) ∧ st (.vstx d a b p y) k (eaIndex s d a b k)

/-- R227, steps 2 and 3: a vector access whose capability passes steps 1 to 4 takes, before anything in memory is judged, the bounds
trap (0x04) where an active lane is out of bounds, its mask naming every such lane, and otherwise the alignment trap (0x0B) where
one is misaligned; the address is that of the lowest lane named. -/
def Obligations.vector_lane_traps : Prop :=
  ∀ (s : State) (d a b : BitVec 5) (p : BitVec 3) (z : BitVec 2) (write : Bool),
    let n := 2 ^ z.toNat
    let c := s.g a
    let L := active (128 / n) (s.p p)
    let ea := eaUnit s a b n
    let i : Instr := if write = true then .vst d a b p z else .vld d a b p z
    let out (j : Nat) : Prop := ¬(c.bounds.base ≤ (ea j).toNat ∧ ((ea j).toNat : Int) + n ≤ c.bounds.top)
    let off (j : Nat) : Prop := (ea j).toNat % n ≠ 0
    c.tag = true → c.otype = 0 → s.revokedAddr c.bounds.base.toNat = false → c.holds (if write = true then .w else .r) = true → s.self.sent = [] →
      (∀ j ∈ L, out j → (∀ m ∈ L, m < j → ¬out m) → lanesTrap s 0x04 (ea j) L out (exec i s))
      ∧ ((∀ j ∈ L, ¬out j) → ∀ j ∈ L, off j → (∀ m ∈ L, m < j → ¬off m) → lanesTrap s 0x0B (ea j) L off (exec i s))

/-- R237, R240 to R243: in slot 0, TLD fills the rows of a valid, unlocked tile from memory, zeroes the bytes beyond and leaves the
strip; TST stores the rows in ascending order; TZERO clears a tile and its strip; TZP fills the strip; TGETZP reads one of its
entries. A tile instruction in another slot than 0 is an illegal instruction (R174), and a write to a locked tile waits, in a window of its
own (R243). -/
def Obligations.tiles : Prop :=
  ∀ (s : State) (d : BitVec 3) (x y : BitVec 5),
    (s.self.idx ≠ 0 → ∀ i ∈ [Instr.tld d x y, .tst d x y, .tzero d, .tzp d x, .tgetzp d x y], exec i s = .next (s.trap 0x01 0))
    ∧ (s.self.idx = 0 → s.tileLocked s.self.core d = true → ParksAlone (.tzero d) s (.tile d))
    ∧ (s.self.idx = 0 →
    let c := s.g x
    let w := s.shape d
    let len := (w.toNat / 2 ^ 8 % 2 ^ 8 + 1) * fmtBits (w.toNat / 2 ^ 16 % 2 ^ 4) / 8
    let rows := List.range (w.toNat % 2 ^ 8 + 1)
    let valid : Prop := w.toNat / 2 ^ 16 % 2 ^ 4 < 8 ∧ (w.toNat % 2 ^ 8 + 1) * (w.toNat / 2 ^ 8 % 2 ^ 8 + 1) * fmtBits (w.toNat / 2 ^ 16 % 2 ^ 4) ≤ 2 ^ 16
      ∧ (w.toNat / 2 ^ 8 % 2 ^ 8 + 1) * fmtBits (w.toNat / 2 ^ 16 % 2 ^ 4) % 8 = 0
    let stride : U64 := if s.x y = 0 then BitVec.ofNat 64 len else s.x y
    let ea (r : Nat) : U64 := s.x x + BitVec.ofNat 64 r * stride
    let one (_ : Nat) : U64 := s.x x
    let loads (i : Instr) (n : Nat) (L : List Nat) (ea : Nat → U64) (v : TileData) (z : Strip) : Prop :=
      ∃ t, exec i s = .next t ∧ Holds s t s.g s.v s.p s.self.flags ∧ Retired s t ∧ RecordedAll s t (L.map (laneOf s ea n false))
        ∧ WatchedAll s t (L.map (fun j => (laneOf s ea n false j, bit j)))
        ∧ t = { s with self := t.self, recs := t.recs, cores := t.cores, free := t.free }
        ∧ TilePut s t d v z ∧ ∀ a, t.byteAt a = s.byteAt a ∧ t.tagAt a = s.tagAt a
    (valid → s.tileLocked s.self.core d = false → LanesPass s c .r false false len rows ea →
      ∃ v, loads (.tld d x y) len rows ea v (s.strip d) ∧ v.toNat < 2 ^ (8 * len * rows.length)
        ∧ ∀ r ∈ rows, MayRead s (s.localAddr (ea r).toNat) len (v.toNat / 2 ^ (8 * len * r) % 2 ^ (8 * len)))
    ∧ (valid → LanesPass s c .w true false len rows ea →
      StoresLanes (.tst d x y) s (rows.map (fun r => (laneOf s ea len true r, (s.tile d).toNat / 2 ^ (8 * len * r) % 2 ^ (8 * len)))) (rows.map bit))
    ∧ (¬valid → exec (.tld d x y) s = .next (s.trap 0x0C 0) ∧ exec (.tst d x y) s = .next (s.trap 0x0C 0))
    ∧ (s.tileLocked s.self.core d = false → ∃ t, exec (.tzero d) s = .next t ∧ Holds s t s.g s.v s.p s.self.flags ∧ Retired s t
        ∧ t = { s with self := t.self, cores := t.cores } ∧ TilePut s t d 0 0 ∧ ∀ a, t.byteAt a = s.byteAt a)
    ∧ (s.tileLocked s.self.core d = false → LanesPass s c .r false false 128 [0] one →
      ∃ z : Strip, MayRead s (s.localAddr (s.x x).toNat) 128 z.toNat ∧ loads (.tzp d x) 128 [0] one (s.tile d) z)
    ∧ PutsX (.tgetzp d x y) s x (BitVec.ofNat 64 ((s.strip d).toNat / 2 ^ (8 * ((s.x y).toNat % 128)) % 256)))

/-! ### The loom (R244 to R259) -/

namespace Sys2Proof.Claims

/-- The instruction completes (R159), and apart from that the machine becomes `u`. -/
def Completes (i : Instr) (s u : State) : Prop :=
  ∃ t, exec i s = .next t ∧ Retired u t
    ∧ t = { u with self := { u.self with
        pcc := t.self.pcc, winDone := t.self.winDone, park := t.self.park, afterTransfer := t.self.afterTransfer, replay := t.self.replay } }

/-- The issuing slot does not wait. -/
def unparked (s : State) : State := { s with self := { s.self with park := .no } }
/-- A LEASE of the issuing slot waits for its grant. -/
def Leasing (s : State) : Prop := s.myCore.lease.state = 1 ∧ ∃ d b, s.self.park = .grant d b

/-- The seat of the issuing core on its bench. -/
def mySeat (s : State) : Nat := s.self.core % 48
/-- The loom of the issuing core's bench that a request word names. -/
def loomOf (s : State) (w : U64) : Loom := s.loom (coreBench s.self.core) (w.toNat % 4)

/-- gb is a lease handler entry (R245). -/
def Handler (s : State) (h : Cap) : Prop := h.tag = true ∧ h.otype = 5 ∧ s.revokedAddr h.bounds.base.toNat = false

/-- The seats in a request's mask, and the status of a request that a check turns away, in the order of R245. -/
def seatsOf (w : U64) : List Nat := (List.range 48).filter (fun i => w.getLsbD (16 + i))
def TurnedAway (s : State) (w : U64) (st : U64) : Prop :=
  let c1 : Prop := w.toNat / 2 ^ 14 % 4 = 0 ∧ w.toNat / 2 ^ 4 % 16 = 0
  let c2 : Prop := w.toNat % 4 ≠ 3
  let c3 : Prop := seatsOf w ≠ [] ∧ (seatsOf w).length ≤ 16
  let c4 : Prop := s.myCore.lease.state = 0
  let c5 : Prop := ∀ q ∈ seatsOf w, s.coreUser (coreBench s.self.core * 48 + q) = s.self.owner
  (¬c1 ∧ st = 5) ∨ (c1 ∧ ¬c2 ∧ st = 1) ∨ (c1 ∧ c2 ∧ ¬c3 ∧ st = 2) ∨ (c1 ∧ c2 ∧ c3 ∧ ¬c4 ∧ st = 3) ∨ (c1 ∧ c2 ∧ c3 ∧ c4 ∧ ¬c5 ∧ st = 4)
/-- Every check passes. -/
def Asks (s : State) (w : U64) : Prop :=
  w.toNat / 2 ^ 14 % 4 = 0 ∧ w.toNat / 2 ^ 4 % 16 = 0 ∧ w.toNat % 4 ≠ 3 ∧ seatsOf w ≠ [] ∧ (seatsOf w).length ≤ 16
    ∧ s.myCore.lease.state = 0 ∧ ∀ q ∈ seatsOf w, s.coreUser (coreBench s.self.core * 48 + q) = s.self.owner

/-- What LEASE records with a request (R245). -/
def asked (s : State) (w : U64) (h : Cap) (st : BitVec 2) : Lease :=
  { state := st, request := w, handler := h, larg := s.myCore.larg, trapvec := s.self.trapvec, upvec := s.self.upvec, owner := s.self.owner }
/-- A loom as a grant leaves it (R246): everything cleared, the budget set, the window in the default state. -/
def granted (s : State) (l : Loom) (w : U64) : Loom :=
  { l with
    holder := some (mySeat s), last := mySeat s, pending := [], left := w.toNat / 2 ^ 8 % 2 ^ 6 + 1, w := 0, dflt := true, clear := true
    r := 0, c := 0, acc := [], flags := [], queue := [], lastCmd := s.cycle }
/-- A loom with everything cleared (R253). -/
def emptied (l : Loom) : Loom := { l with acc := [], flags := [], r := 0, c := 0, clear := true }

/-- The loom takes commands and a lease: free, nobody waiting, at most the 8 rows of its buffer still to go (R246, R256). -/
def FreeLoom (l : Loom) : Prop := l.holder = none ∧ l.pending = [] ∧ (l.drains.map (fun d => d.rows.length)).sum ≤ 8

/-- The loom of the lease after the commands that it still has queued (R253). -/
def afterQueue (s : State) : State := s.flushed (coreBench s.self.core) (s.myCore.lease.request.toNat % 4)
def heldLoom (s : State) : Loom := loomOf s s.myCore.lease.request

/-- The drain of a loom that a lease ends with (R247, R255, R256): a row for each below R, none for an empty loom. -/
def drainOf (s : State) (l : Loom) (format : BitVec 2) : List Drain :=
  if l.r = 0 then [] else
    [{ rows := (List.range l.r).map (l.drainRow format), format := format, budget := false, seats := seatsOf s.myCore.lease.request
       lease := s.myCore.lease, holder := s.self.core, number := l.count + 1, w := l.w, r := l.r, c := l.c, discarded := false }]

end Sys2Proof.Claims

/-- R244 to R246: LEASE in slot 0. A check of the request that fails writes its status; a request at a free loom is granted at once,
which clears the loom, and LEASE completes with status 0; at a held one it is recorded and LEASE parks, until the grant ends it. What gb
fails traps. -/
def Obligations.leases : Prop :=
  ∀ (s : State) (x y : BitVec 5), s.self.idx = 0 →
    let h := s.g y
    let w := s.x x
    let l := loomOf s w
    (Leasing s → exec (.lease x y) s = .next s)
    ∧ (¬Leasing s →
      (h.tag = false → exec (.lease x y) s = .next (s.trap 0x03 0))
      ∧ (h.tag = true → h.otype ≠ 5 → exec (.lease x y) s = .next (s.trap 0x06 0))
      ∧ (h.tag = true → h.otype = 5 → s.revokedAddr h.bounds.base.toNat = true → exec (.lease x y) s = .next ((s.setG y h.untag).trap 0x16 0))
      ∧ (Handler s h →
        (∀ st, TurnedAway s w st → PutsX (.lease x y) s x st)
        ∧ (Asks s w → FreeLoom l → Completes (.lease x y) s
            ((((unparked s).putLoom (granted s l w)).putCore { s.myCore with lease := asked s w h 2 }).wr x 0))
        ∧ (Asks s w → l.holder ≠ none → exec (.lease x y) s = .next
            (((s.putCore { s.myCore with lease := asked s w h 1 }).putLoom { l with pending := setAdd l.pending (mySeat s) }).wait (.grant x y)))))

/-- R249: LSTAT in any slot, field by field; loom 3 reads 0. -/
def Sys2Proof.Claims.LoomStatus : Prop :=
  ∀ (s : State) (x y : BitVec 5),
    let l := loomOf s (s.x y)
    let rows := (l.drains.map (fun d => d.rows.length)).sum
    ∃ v : U64, PutsX (.lstat x y) s x v ∧ ((s.x y).toNat % 4 = 3 → v = 0)
      ∧ ((s.x y).toNat % 4 ≠ 3 → v.toNat / 2 ^ 32 = l.count % 2 ^ 32 ∧ v.toNat / 2 ^ 24 % 2 ^ 8 = l.pending.length % 2 ^ 8
        ∧ v.toNat / 2 ^ 22 % 4 = 0 ∧ v.toNat / 2 ^ 16 % 2 ^ 6 = l.last % 2 ^ 6 ∧ v.toNat / 2 ^ 12 % 2 ^ 4 = 0
        ∧ v.toNat / 2 ^ 8 % 2 ^ 4 = min 8 rows ∧ (v.getLsbD 7 = true ↔ l.drains ≠ []) ∧ (v.getLsbD 6 = true ↔ l.holder ≠ none)
        ∧ v.toNat % 2 ^ 6 = (match l.holder with | some q => q % 2 ^ 6 | none => 0x3F))

/-- R247, R253, R254: LREL, MCLR, MWIN and MDRAIN of a held lease take effect after the commands queued; LREL and MDRAIN end the lease,
and MDRAIN leaves the rows below R to drain; both end a lease in REARM. Without a lease each traps, and so does MWIN on a loom that
is not clear; and LSTAT. -/
def Obligations.lease_commands : Prop :=
  Claims.LoomStatus ∧ ∀ (s : State) (x : BitVec 5), s.self.idx = 0 →
    let k := s.myCore.lease
    let t := afterQueue s
    let l := heldLoom t
    let none : State → State := fun u => u.putCore { u.myCore with lease := .none }
    (k.state = 2 →
      Completes .lrel s (none (t.putLoom { emptied l with holder := .none }))
      ∧ Completes .mclr s (t.putLoom (emptied l))
      ∧ (l.clear = true → Completes (.mwin x) s (t.putLoom { l with w := BitVec.ofNat 8 (s.x x).toNat, dflt := false }))
      ∧ (l.clear = false → exec (.mwin x) s = .next (s.trap 0x0D 1))
      ∧ Completes (.mdrain x) s (none (t.putLoom { emptied l with
          holder := .none, count := l.count + 1, drains := l.drains ++ drainOf s l (BitVec.ofNat 2 (s.x x).toNat) })))
    ∧ (k.state = 3 → Completes .lrel s (none s) ∧ Completes (.mdrain x) s (none s))
    ∧ (k.state = 0 ∨ k.state = 1 → ∀ i ∈ [Instr.lrel, .mclr, .mwin x, .mdrain x], exec i s = .next (s.trap 0x0D 0))
    ∧ (k.state = 3 → ∀ i ∈ [Instr.mclr, .mwin x], exec i s = .next (s.trap 0x0D 0))

/-- R250, R251, R254: MMA and MMAZ in slot 0. With a lease held, a command left in its budget, shapes that fit the pair and fewer than
four commands queued, they count against the budget and queue, with the operands as they are now (R158, R243). Else: no lease traps, shapes that do not fit trap, a full queue or a
request not granted waits. -/
def Obligations.matrix_commands : Prop :=
  ∀ (s : State) (a b : BitVec 3) (p : BitVec 4) (z : Bool), s.self.idx = 0 →
    let i : Instr := if z = true then .mmaz a b p else .mma a b p
    let k := s.myCore.lease
    let l := heldLoom s
    let queued : MatCmd := { ta := a, tb := b, opA := (s.tile a, s.strip a, s.shape a), opB := (s.tile b, s.strip b, s.shape b), pair := p.toNat, zp := z }
    let wa := (s.shape a).toNat
    let wb := (s.shape b).toNat
    let valid (w : Nat) : Prop := w / 2 ^ 16 % 2 ^ 4 < 8 ∧ (w % 2 ^ 8 + 1) * (w / 2 ^ 8 % 2 ^ 8 + 1) * fmtBits (w / 2 ^ 16 % 2 ^ 4) ≤ 2 ^ 16
      ∧ (w / 2 ^ 8 % 2 ^ 8 + 1) * fmtBits (w / 2 ^ 16 % 2 ^ 4) % 8 = 0
    let fit : Prop := valid wa ∧ valid wb ∧ wa / 2 ^ 16 % 2 ^ 4 = (pairFormats p.toNat).1 ∧ wb / 2 ^ 16 % 2 ^ 4 = (pairFormats p.toNat).2
      ∧ wa / 2 ^ 8 % 2 ^ 8 = wb % 2 ^ 8 ∧ wa / 2 ^ 8 % 2 ^ 8 + 1 ≤ pairKMax p.toNat
    (k.state = 0 → exec i s = .next (s.trap 0x0D 0))
    ∧ (k.state = 2 → l.left ≠ 0 → ¬fit → exec i s = .next (s.trap 0x0C 0))
    ∧ (k.state = 2 → l.left ≠ 0 → fit → 4 ≤ l.queue.length → exec i s = .next (s.wait .loom))
    ∧ (k.state = 1 → exec i s = .next (s.wait .loom))
    ∧ (k.state = 2 → l.left ≠ 0 → fit → l.queue.length < 4 → Completes i s (s.putLoom { l with
        left := l.left - 1, queue := l.queue ++ [queued] }))

namespace Sys2Proof.Claims

/-- The cells of a loom are listed once each. -/
def CellsListed (l : Loom) : Prop := l.acc.Pairwise (fun x y => x.1 < y.1) ∧ l.flags.Pairwise (fun x y => x.1 < y.1)

/-- Element (r, c) of a tile under its shape word (R237, R218). -/
def element (t : TileData) (w r c : Nat) : Nat :=
  let b := fmtBits (w / 2 ^ 16 % 2 ^ 4)
  t.toNat / 2 ^ ((r * (w / 2 ^ 8 % 2 ^ 8 + 1) + c) * b) % 2 ^ b
/-- The value of an element (R251); none for a NaN or an infinity. -/
def elementVal (w b : Nat) : Option ℚ :=
  match w / 2 ^ 16 % 2 ^ 4 with
  | 4 => some (signedAt 8 b : Int)
  | 6 => some (signedAt 4 b : Int)
  | 5 => some b
  | 7 => some b
  | c => match (if c = 0 then Fmt.e4m3 else if c = 1 then .e5m2 else if c = 2 then .f16 else .bf16).decode b with
    | .fin n m e => some (valQ (.fin n m e))
    | _ => none
/-- The zero point of row or column j: only for MMAZ, unsigned codes and an enabled strip (R239, R251). -/
def zeroPoint (z : Bool) (w : Nat) (st : Strip) (j : Nat) : ℚ :=
  if z = true ∧ (w / 2 ^ 16 % 2 ^ 4 = 5 ∨ w / 2 ^ 16 % 2 ^ 4 = 7) ∧ w / 2 ^ 20 % 2 = 1 then
    (st.toNat / 2 ^ (8 * j) % 2 ^ fmtBits (w / 2 ^ 16 % 2 ^ 4) : Nat) else 0

end Sys2Proof.Claims

/-- R251, R252: what the array makes of a command whose shapes fit its pair, cell by cell: exact products, each rounded once to the
window with ties to even, summed exactly, saturating; INVALID where an operand is no number, and for good; the row flags; R and C; the
window of the first command. Cells and rows outside the command's are untouched. (That what a shape names beyond the 128 rows and
columns of the array has no cell is the model's reading, log 26.) -/
def Obligations.array_arithmetic : Prop :=
  ∀ (l : Loom) (pair : Nat) (z : Bool) (ta : TileData) (sa : Strip) (wa : U64) (tb : TileData) (sb : Strip) (wb : U64), CellsListed l →
    shapesFit pair wa wb = true →
    let u := l.perform pair z ta sa wa tb sb wb
    let M := min 128 (wa.toNat % 2 ^ 8 + 1)
    let K := wa.toNat / 2 ^ 8 % 2 ^ 8 + 1
    let N := min 128 (wb.toNat / 2 ^ 8 % 2 ^ 8 + 1)
    let w : Int := if l.dflt = true then pairWindow pair else l.w.toInt
    let A (i k : Nat) : Option ℚ := elementVal wa.toNat (element ta wa.toNat i k)
    let B (k j : Nat) : Option ℚ := elementVal wb.toNat (element tb wb.toNat k j)
    let p (i j k : Nat) : ℚ := ((A i k).getD 0 - zeroPoint z wa.toNat sa i) * ((B k j).getD 0 - zeroPoint z wb.toNat sb j) / 2 ^ w
    let bad (i j : Nat) : Prop := ∃ k, k < K ∧ (A i k = none ∨ B k j = none)
    let flag (i : Nat) (b : Nat) (c : Nat → Prop) : Prop := (u.rowFlags i).getLsbD b = true ↔ (l.rowFlags i).getLsbD b = true ∨ ∃ j, j < N ∧ c j
    CellsListed u ∧ u.w.toInt = w ∧ u.dflt = false ∧ u.clear = false ∧ u.r = max l.r M ∧ u.c = max l.c N
    ∧ (∀ i j, j < 128 → (M ≤ i ∨ N ≤ j) → u.cell i j = l.cell i j) ∧ (∀ i, M ≤ i → u.rowFlags i = l.rowFlags i)
    ∧ ∃ t : Nat → Nat → Nat → Int, (∀ i j k, RoundsInt .rne (p i j k) (t i j k)) ∧ ∀ i, i < M →
      let S (j : Nat) : Int := ((List.range K).map (t i j)).sum
      let live (j : Nat) : Prop := ¬bad i j ∧ (l.cell i j).toInt ≠ -2 ^ 127
      let beyond (j : Nat) : Prop := 2 ^ 127 - 1 < |(l.cell i j).toInt + S j|
      (∀ j, j < N → (bad i j → (u.cell i j).toInt = -2 ^ 127) ∧ (¬bad i j → (l.cell i j).toInt = -2 ^ 127 → u.cell i j = l.cell i j)
        ∧ (live j → (u.cell i j).toInt = max (-(2 ^ 127 - 1)) (min (2 ^ 127 - 1) ((l.cell i j).toInt + S j))))
      ∧ flag i 2 (bad i) ∧ flag i 1 (fun j => live j ∧ beyond j) ∧ flag i 0 (fun j => ¬bad i j ∧ ∃ k, k < K ∧ (t i j k : ℚ) ≠ p i j k)

namespace Sys2Proof.Claims

/-- What CHAIN0 to CHAIN3 say (R258): predecessor and successor where there is one, the operation, the registers. -/
def chainSide (w : U64) : Option Nat := if w.getLsbD 63 = true then none else some (w.toNat % 2 ^ 32)
def chainOp (s : State) : Nat := s.myCore.chain[2].toNat % 4
def chainFirst (s : State) : Nat := s.myCore.chain[3].toNat / 2 ^ 8 % 2 ^ 5
def chainCount (s : State) : Nat := s.myCore.chain[3].toNat % 2 ^ 4
/-- The configuration is one CHAIN takes. -/
def ChainLegal (s : State) : Prop :=
  chainOp s ≠ 3 ∧ 1 ≤ chainCount s ∧ chainCount s ≤ 8 ∧ chainFirst s + chainCount s - 1 ≤ 31
/-- The registers of a chain. -/
def chainVs (s : State) : List (BitVec 5) := (List.range (chainCount s)).map (fun q => BitVec.ofNat 5 (chainFirst s + q))
/-- A register combined with the one received (R259). -/
def Chained (op : Nat) (m v x : Vec) : Prop :=
  (op = 0 → ∀ e, e < 32 → el 32 x e = (addBits .f32 .rne (flo .f32 m e) (flo .f32 v e)).1 % 2 ^ 32)
  ∧ (op = 1 → ∀ e, e < 32 → el 32 x e = (el 32 m e + el 32 v e) % 2 ^ 32)
  ∧ (op = 2 → ∀ e, e < 8 →
      let a := signedAt 128 (el 128 m e)
      let b := signedAt 128 (el 128 v e)
      signedAt 128 (el 128 x e) = if a = -2 ^ 127 ∨ b = -2 ^ 127 then -2 ^ 127 else max (-(2 ^ 127 - 1)) (min (2 ^ 127 - 1) (a + b)))
/-- A span cut at chip scope, by an acquire and a release in one (R114, R117). -/
def chipCut (s : State) : State := spanCut s 2

end Sys2Proof.Claims

/-- R258, R259: CHAIN of a task of a launch. Once its predecessor's message is there and its successor's task has a free entry, or where
it has no such side, it completes: the registers combined with the message's, the result sent on, and the span cut; the message is
consumed. It waits for a predecessor that has not sent and for an entry; to a task on another device it asks for an entry first, once
(log 25). Illegal configurations, a number that is no task's, and a task that has ended trap. -/
def Obligations.chains : Prop :=
  ∀ (s : State) (id lcn stage : Nat) (l : Launch),
    let pred := chainSide s.myCore.chain[0]
    let succ := chainSide s.myCore.chain[1]
    let width := l.shops * l.benchesN * l.seats
    let msg (q : Nat) : Option ChainMsg :=
      s.chainMsgs.find? (fun m => m.launch == l.id && m.stage == stage && m.target == lcn && m.source == q)
    let ended (q : Nat) : Prop := (q, stage) ∈ l.ended ∨ (q, stage) ∈ l.farEnded
    let near (q : Nat) : Prop := l.shop = some (q / (l.benchesN * l.seats))
    let dev (q : Nat) : BitVec 14 := l.w2.extractLsb' 33 14 + BitVec.ofNat 14 (q / (l.benchesN * l.seats))
    let room (q : Nat) : Prop :=
      (∃ t ∈ l.placed, t.1 = q ∧ t.2.1 = stage)
        ∧ (s.chainMsgs.filter (fun m => m.launch == l.id && m.stage == stage && m.target == q)).length
          + (l.given.filter (fun g => g.2 == (q, stage))).length < 2
    let goes (q : Nat) : Prop := ¬ended q ∧ (near q → room q) ∧ (¬near q → (lcn, q, stage) ∈ l.granted)
    let tells (q : Nat) (what : ChainSaid) : OutMsg :=
      .chain (dev q) { device := l.token.1, launch := l.token.2, stage := stage, source := lcn, target := q, said := what }
    ((∀ a b c, s.self.role ≠ .launch a b c) → exec .chain s = .next (s.trap 0x01 0))
    ∧ (s.self.role = .launch id lcn stage → s.launch id = some l → ¬ChainLegal s → exec .chain s = .next (s.trap 0x01 0))
    ∧ (s.self.role = .launch id lcn stage → s.launch id = some l → ChainLegal s →
      ((∃ q, (pred = some q ∨ succ = some q) ∧ width ≤ q) → exec .chain s = .next (s.trap 0x0E 0))
      ∧ ((∀ q, pred = some q ∨ succ = some q → q < width) →
        ((∃ q, pred = some q ∧ msg q = none ∧ ended q) ∨ (∃ q, succ = some q ∧ ended q) → exec .chain s = .next (s.trap 0x0E 0))
        ∧ (∀ q, pred = some q → msg q = none → ¬ended q → succ = none → exec .chain s = .next (s.wait .chain))
        ∧ (∀ q, succ = some q → ¬ended q → (∀ j, pred = some j → msg j ≠ none) → near q → ¬room q → exec .chain s = .next (s.wait .chain))
        ∧ (∀ q, succ = some q → ¬ended q → (∀ j, pred = some j → msg j ≠ none) → ¬near q → (lcn, q, stage) ∉ l.granted →
          exec .chain s = .next ((if (lcn, q, stage) ∈ l.asked then s else
            { s.putLaunch { l with asked := l.asked ++ [(lcn, q, stage)] } with out := s.out ++ [tells q .ask] }).wait .chain))
        ∧ ((∀ q, pred = some q → ∃ m, msg q = some m ∧ m.regs.length = chainCount s) → (∀ q, succ = some q → goes q) →
          ∃ u : State, Completes .chain s u
            ∧ u = { chipCut s with
                self := { (chipCut s).self with v := u.self.v, flags := u.self.flags, winFlags := u.self.winFlags }
                chainMsgs := u.chainMsgs, launches := u.launches, out := u.out }
            ∧ u.self.winFlags = s.self.winFlags ||| (u.self.flags &&& ~~~s.self.flags)
            ∧ (∀ n, n ∉ chainVs s → u.v n = s.v n) ∧ (∃ fl, u.self.flags = s.self.flags ||| fl ∧ (chainOp s ≠ 0 ∨ pred = none → fl = 0))
            ∧ (pred = none → ∀ n, u.v n = s.v n)
            ∧ (∀ q m, pred = some q → msg q = some m → ∀ j, j < chainCount s →
                Chained (chainOp s) (m.regs.getD j 0) (s.v (BitVec.ofNat 5 (chainFirst s + j))) (u.v (BitVec.ofNat 5 (chainFirst s + j))))
            ∧ (let left := match pred.bind msg with | some m => s.chainMsgs.erase m | none => s.chainMsgs
               (succ = none → u.chainMsgs = left ∧ u.launches = s.launches ∧ u.out = s.out)
               ∧ ∀ q, succ = some q →
                (near q → u.launches = s.launches ∧ u.out = s.out ∧ u.chainMsgs
                  = left ++ [{ launch := l.id, stage := stage, source := lcn, target := q, regs := (chainVs s).map u.v }])
                ∧ (¬near q → u.chainMsgs = left ∧ u.launches = (s.putLaunch { l with granted := l.granted.erase (lcn, q, stage) }).launches
                  ∧ u.out = s.out ++ [tells q (.message ((chainVs s).map u.v))])))))

/-! ### Queue registers, timelines and events (R307 to R313) -/

namespace Sys2Proof.Claims

/-- The context and generation that qk is bound to, and its result words; none for q6 and q7 (R307). -/
def bindingOf (s : State) (k : Nat) : Option (Nat × Nat) := if h : k < 6 then s.myCore.qbind[k] else none
def wordsOf (s : State) (k : Nat) : List U128 := if h : k < 6 then s.myCore.results[k] else []

/-- A word of a command block passes the check that its command makes of it: none, a capability, an endpoint handle, or a capability
when tagged (R308). -/
def WordPasses (s : State) (use : Nat) (c : Cap) : Prop :=
  use = 0 ∨ (use = 3 ∧ c.tag = false)
    ∨ (c.tag = true ∧ (c.otype = 0 ∨ (use = 2 ∧ c.otype = 1)) ∧ s.revokedAddr c.bounds.base.toNat = false ∧ c.holds .en = true)

/-- The stage queue that q6 or q7 is bound to (R270). -/
def stageBound (s : State) (q : Option Nat) : Option StageQ := q.bind s.stageq

/-- The owner may use its core's event queue. -/
def HasEvents (s : State) : Prop := s.uses s.self.owner (mkRes 10 s.self.core) = true
/-- A record in two registers (R313). -/
def recLow (r : EvRec) : Cap := { bits := r.number ++ r.source ++ r.status ++ r.kind, tag := false }
def recHigh (r : EvRec) : Cap := { bits := r.d1 ++ r.d0, tag := false }
/-- The head record is taken into gd and g(d + 1); two zeros where there is none. -/
def taken (s : State) (d : BitVec 5) : State :=
  match s.myCore.events with
  | [] => (s.wr d 0).wr (d + 1) 0
  | r :: l => ((s.putCore { s.myCore with events := l }).setG d (recLow r)).setG (d + 1) (recHigh r)

/-- R307 to R309: PUSH accepts a block under the context's next number and releases at chip scope, or writes 1 to a full context;
MOVQ and QPOP of stage queues; QPOP of a result word; QSTAT. -/
def QueueMoves : Prop :=
  ∀ (s : State) (d a b : BitVec 5) (k : BitVec 3),
    let n := k.toNat
    let use := wordUse ((s.g (a + 3)).bits.toNat % 256)
    (∀ ci gen, bindingOf s n = some (ci, gen) → (s.ctx ci).gen = gen → WordPasses s use.1 (s.g a) → WordPasses s use.2 (s.g (a + 1)) →
      (32 ≤ (s.ctx ci).waiting.length → PutsX (.push d a k) s d 1)
      ∧ ((s.ctx ci).waiting.length < 32 → Completes (.push d a k) s ((chipCut (s.putCtx { s.ctx ci with
          accepted := (s.ctx ci).accepted + 1
          waiting := (s.ctx ci).waiting ++ [{ number := (s.ctx ci).accepted + 1, w0 := s.g a, w1 := s.g (a + 1), w2 := s.g (a + 2)
                                              w3 := s.g (a + 3), via := some (s.self.core, n, s.myCore.binding n), doomed := none }] })).wr d 0)))
    ∧ (bindingOf s n = none → exec (.push d a k) s = .next (s.trap 0x0E 0))
    ∧ (∀ ci gen, bindingOf s n = some (ci, gen) → (s.ctx ci).gen ≠ gen → exec (.push d a k) s = .next (s.trap 0x0F 0))
    ∧ (k ≠ 7 ∨ stageBound s s.self.q7 = none → exec (.movq b k) s = .next (s.trap 0x0E 0))
    ∧ (∀ q, k = 7 → stageBound s s.self.q7 = some q →
      (16 ≤ q.items.length → exec (.movq b k) s = .next (s.wait (.stage false)))
      ∧ (q.items.length < 16 → Completes (.movq b k) s (spanCut (s.putStageq { q with
          items := q.items ++ [{ bits := (s.g b).bits, tag := (s.g b).tag && !s.revokedAddr (s.g b).bounds.base.toNat }] }) 0)))
    ∧ (∀ q, k = 6 → stageBound s s.self.q6 = some q →
      (∀ c l, q.items = c :: l → Completes (.qpop d k) s (spanCut ((s.putStageq { q with items := l }).setG d c) 0))
      ∧ (q.items = [] → q.producerEnded = false → exec (.qpop d k) s = .next (s.wait (.stage true)))
      ∧ (q.items = [] → q.producerEnded = true → exec (.qpop d k) s = .next (s.trap 0x0E 0)))
    ∧ (∀ ci gen w l, (h : n < 6) → bindingOf s n = some (ci, gen) → wordsOf s n = w :: l →
        (∀ x ∈ (s.ctx ci).heldResults, x.1 ≠ s.self.core ∨ x.2.1 ≠ n) →
        Completes (.qpop d k) s ((s.putCore { s.myCore with results := s.myCore.results.set n l h }).setG d { bits := w, tag := false }))
    ∧ (k = 6 → PutsX (.qstat d k) s d (BitVec.ofNat 64 (((stageBound s s.self.q6).map (fun q => q.items.length)).getD 0)))
    ∧ (k = 7 → PutsX (.qstat d k) s d (((stageBound s s.self.q7).map (fun q => BitVec.ofNat 64 (16 - q.items.length))).getD 0))
    ∧ (n < 6 → bindingOf s n = none → PutsX (.qstat d k) s d 0)
    ∧ (∀ ci gen, bindingOf s n = some (ci, gen) → PutsX (.qstat d k) s d (0#17 ++ BitVec.ofNat 15 ci ++ 0#12 ++ BitVec.ofNat 3 (ctxKind ci)
        ++ 1#1 ++ BitVec.ofNat 8 (wordsOf s n).length ++ BitVec.ofNat 8 (32 - (s.ctx ci).waiting.length)))

end Sys2Proof.Claims

/-- R307 to R310: PUSH, MOVQ, QPOP, QSTAT; and BINDQ, which unbinds a register and drops its result words, and binds it to the context
of a current handle. -/
def Obligations.queue_registers : Prop :=
  Claims.QueueMoves ∧ ∀ (s : State) (a : BitVec 5) (k : BitVec 3),
    let h := s.g a
    let u := s.unbindQ s.self.core k.toNat
    let ci := h.addr.toNat % 2 ^ 15
    let gen := h.addr.toNat / 2 ^ 15
    (6 ≤ k.toNat → exec (.bindq a k) s = .next (s.trap 0x0E 0))
    ∧ (k.toNat < 6 → bindingOf u k.toNat = none ∧ wordsOf u k.toNat = [] ∧ u.self = s.self ∧ u.mem = s.mem
        ∧ (a = 0 → Completes (.bindq a k) s u)
        ∧ (a ≠ 0 → h.tag = false → exec (.bindq a k) s = .next (s.trap 0x03 0))
        ∧ (a ≠ 0 → h.tag = true → h.otype ≠ 4 → exec (.bindq a k) s = .next (s.trap 0x06 0))
        ∧ (a ≠ 0 → h.tag = true → h.otype = 4 → s.revokedAddr h.bounds.base.toNat = false → s.ctxCurrent ci gen = false →
            exec (.bindq a k) s = .next (s.trap 0x0F 0)))
    ∧ (∀ hk : k.toNat < 6, a ≠ 0 → h.tag = true → h.otype = 4 → s.revokedAddr h.bounds.base.toNat = false → s.ctxCurrent ci gen = true →
        Completes (.bindq a k) s (u.putCore { u.myCore with
          qbind := u.myCore.qbind.set k.toNat (some (ci, gen)) hk, bindNo := u.myCore.bindNo.set k.toNat (u.myCore.bindNo[k.toNat] + 1) hk }))

/-- R311 to R313: the timelines of a context whose binding is current, and the event queue of a core that the owner may use: TLWAIT
completes, or waits, by the context's counter; TLTEST says so; TLREAD reads both counts; EVPOP, EVWAIT and EVTRY take or look at the
head record. Without the binding, or the queue, they trap. -/
def Obligations.timelines_and_events : Prop :=
  ∀ (s : State) (d a : BitVec 5) (k : BitVec 4),
    let v := (s.x a).toNat
    (bindingOf s k.toNat = none → ∀ i ∈ [Instr.tlwait a k, .tltest d a k, .tlread d k], exec i s = .next (s.trap 0x0E 0))
    ∧ (∀ ci gen, bindingOf s k.toNat = some (ci, gen) → s.ctxCurrent ci gen = false →
      ∀ i ∈ [Instr.tlwait a k, .tltest d a k, .tlread d k], exec i s = .next (s.trap 0x0F 0))
    ∧ (∀ ci gen, bindingOf s k.toNat = some (ci, gen) → s.ctxCurrent ci gen = true →
      (v ≤ (s.ctx ci).counter → Completes (.tlwait a k) s (chipCut s) ∧ Completes (.tltest d a k) s ((chipCut s).wr d 1))
      ∧ ((s.ctx ci).counter < v → exec (.tlwait a k) s = .next (s.wait (.timeline ci v)) ∧ PutsX (.tltest d a k) s d 0)
      ∧ PutsG (.tlread d k) s d { bits := BitVec.ofNat 64 (s.ctx ci).accepted ++ BitVec.ofNat 64 (s.ctx ci).counter, tag := false })
    ∧ (¬HasEvents s → ∀ i ∈ [Instr.evpop d, .evwait d a, .evtry d], exec i s = .next (s.trap 0x0F 0))
    ∧ (HasEvents s →
      Completes (.evpop d) s (taken s d)
      ∧ (s.myCore.events ≠ [] → Completes (.evwait d a) s (taken s d))
      ∧ (s.myCore.events = [] → (∀ e l, s.self.park ≠ .event e l) →
          let n := v % 2 ^ 32
          exec (.evwait d a) s = .next (s.wait (.event d (if n = 0 then none else some (s.cycle + n)))))
      ∧ (∀ e c, s.myCore.events = [] → s.self.park = .event e (some c) → c ≤ s.cycle → Completes (.evwait d a) s (taken s d))
      ∧ PutsX (.evtry d) s d (0#16 ++ (match s.myCore.events with | [] => 0#32 | r :: _ => r.status ++ r.kind) ++ 0#9
          ++ BitVec.ofNat 7 s.myCore.events.length))

/-! ### Tasks, messages and delegation (R264 to R285) -/

namespace Sys2Proof.Claims

/-- A sealed entry in ga passes the checks of SEND or DLG (R274, R279). -/
def EntryOk (s : State) (c : Cap) (o : BitVec 8) : Prop :=
  c.tag = true ∧ c.otype = o ∧ s.revokedAddr c.bounds.base.toNat = false

/-- A word as it moves from a register: untagged where it is revoked (R31). -/
def moved (s : State) (n : BitVec 5) : Cap := { bits := (s.g n).bits, tag := (s.g n).tag && !s.revokedAddr (s.g n).bounds.base.toNat }

/-- A place word names a core of this device (R265): the bench, the seat, the slot field and no reserved bit set. -/
def NamesHere (s : State) (w : U64) (core slot : Nat) : Prop :=
  w.toNat / 2 ^ 6 % 2 ^ 7 ≤ 95 ∧ w.toNat % 2 ^ 6 ≤ 47 ∧ w.toNat / 2 ^ 36 = 0 ∧ w.toNat / 2 ^ 28 % 2 ^ 4 = 0
    ∧ (w.getLsbD 27 = true → w.toNat / 2 ^ 13 % 2 ^ 14 = s.devnum.toNat)
    ∧ core = w.toNat / 2 ^ 6 % 2 ^ 7 * 48 + w.toNat % 2 ^ 6 ∧ slot = w.toNat / 2 ^ 32 % 2 ^ 4

/-- The place word of the issuing slot with an inline depth (R265, R285). -/
def placeOfSelf (s : State) (depth : Nat) : Nat :=
  s.self.core % 48 % 2 ^ 6 + 2 ^ 6 * (s.self.core / 48 % 2 ^ 7) + 2 ^ 13 * s.devnum.toNat + 2 ^ 32 * (s.self.idx % 2 ^ 4)
    + 2 ^ 36 * (depth % 2 ^ 4) + 2 ^ 48 * s.self.owner.toNat

/-- The message that a slot sends within the device (R271, R273). -/
def letter (s : State) (entry : Cap) (slot : BitVec 4) (spawned : Bool) (tail : List U8) : Msg :=
  { entry := entry, w4 := moved s 4, w5 := moved s 5, w6 := moved s 6, w7 := moved s 7, origin := BitVec.ofNat 64 (placeOfSelf s 0), tail := tail, place := slot
    spawned := spawned, replyCore := s.self.core, replySlot := s.self.idx, replyLocal := true, txn := s.nextTxn, emul := none }

/-- A core has room for a message: of 64 entries, and of 32 KiB of tails (R271). -/
def Roomy (c : Core) (n : Nat) : Prop := c.inbox.length < 64 ∧ (c.inbox.map (fun x => x.tail.length)).sum + n ≤ 32768

/-- A message enters a core's inbox, and wakes what yields there for one (R271, R283). -/
def posted (s : State) (core : Nat) (m : Msg) : State :=
  (s.putCore { s.core core with inbox := (s.core core).inbox ++ [m] }).noteYield core 2
/-- The record of a message refused (R274). -/
def refusal (s : State) (place : U64) (fn : Nat) (status : U16) : State :=
  s.postEvent s.self.core
    { kind := 3, status := status, source := s.source 0 s.self.core, number := 0, d0 := place, d1 := BitVec.ofNat 64 fn }
/-- A message enters records of the overflow heap, in its core's FIFO, and the porter wakes (R277). -/
def overflows (s : State) (core : Nat) (m : Msg) (l : List Nat) : State :=
  ((s.heapWrite (s.coreUser core) m l).putCore
    { s.core core with overflow := true, overflowed := (s.core core).overflowed ++ [(m, l)] }).wakePorter core
/-- Records of an owner's heap that are free, as many as a message needs: one, and one for each 128 bytes of its tail (R277). -/
def HeapPlace (s : State) (owner : U16) (m : Msg) (l : List Nat) : Prop :=
  l.length = 1 + m.tail.length / 128 ∧ l.Nodup ∧ ∀ k ∈ l, k < 8192 ∧ k ∉ s.heapUsed owner
/-- The words that were sent, in their registers again: what a refusal leaves there (R274). -/
def wordsBack (s : State) (m : Msg) : State := (((s.setG 4 m.w4).setG 5 m.w5).setG 6 m.w6).setG 7 m.w7

/-- R274, R277: what becomes of a message at a core: the inbox; else the heap; else a refusal, status 1, and the words as sent. -/
def Delivers (i : Instr) (s u : State) (d : BitVec 5) (core : Nat) (m : Msg) (place : U64) (fn : Nat) : Prop :=
  let c := u.core core
  (c.overflow = false → Roomy c m.tail.length → Completes i s ((posted (chipCut u) core m).wr d 0))
  ∧ (c.overflow = true ∨ ¬Roomy c m.tail.length →
      (u.heapRoom (u.coreUser core) m = true →
        ∃ l, HeapPlace u (u.coreUser core) m l ∧ Completes i s ((overflows (chipCut u) core m l).wr d 0))
      ∧ (u.heapRoom (u.coreUser core) m = false → Completes i s (wordsBack ((refusal (chipCut u) place fn 1).wr d 1) m)))

end Sys2Proof.Claims

/-- R273 to R277: SEND and SENDT to a core of this device, and SPAWN: with an entry that passes, a target that the place word names and
no request outstanding, they release at chip scope and the message enters the core's inbox, status 0, or its overflow heap, or is
refused, status 1, with the words as they were sent; SENDT reads its tail from memory first; a SPAWN enters only the inbox of a core that its owner uses, and one
refused raises the inline depth. What is not such an entry or target traps. -/
def Obligations.messages : Prop :=
  ∀ (s : State) (d a b : BitVec 5) (k : BitVec 4) (core slot : Nat),
    let c := s.g a
    let w := s.x b
    let n := (k.toNat + 1) * 256
    let one (_ : Nat) : U64 := s.x d
    (s.self.sent = [] → c.tag = false → exec (.send d a b) s = .next (s.trap 0x03 0) ∧ exec (.sendt d a b k) s = .next (s.trap 0x03 0))
    ∧ (s.self.sent = [] → c.tag = true → c.otype ≠ 3 → exec (.send d a b) s = .next (s.trap 0x06 0))
    ∧ (s.self.sent = [] → EntryOk s c 3 → 95 < w.toNat / 2 ^ 6 % 2 ^ 7 → exec (.send d a b) s = .next (s.trap 0x0E 0))
    ∧ (s.self.sent = [] → s.self.tail = none → EntryOk s c 3 → NamesHere s w core slot → slot = 0 →
        Delivers (.send d a b) s s d core (letter s c 0 false []) w 0)
    ∧ (s.self.tail = none → EntryOk s c 3 → NamesHere s w core slot → slot = 0 → LanesPass s (s.g d) .r false false n [0] one →
        ∃ (u : State) (v : Nat), MayRead s (s.localAddr (s.x d).toNat) n v
          ∧ u = { s with self := { s.self with watchTrap := u.self.watchTrap, park := u.self.park }, recs := u.recs, free := u.free }
          ∧ RecordedAll s u [laneOf s one n false 0] ∧ WatchedAll s u [(laneOf s one n false 0, 0)]
          ∧ Delivers (.sendt d a b k) s u d core (letter s c 0 false ((List.range n).map (fun j => BitVec.ofNat 8 (v / 256 ^ j)))) w 1)
    ∧ (s.self.sent = [] → Enterable s c →
        NamesHere s w core slot → (slot < 8 ∨ slot = 15) →
        let q := s.core core
        (s.coreUser core = s.self.owner → q.overflow = false → Roomy q 0 →
          Completes (.spawn d a b) s ((posted (chipCut s) core (letter s c (BitVec.ofNat 4 slot) true [])).wr d 0))
        ∧ (s.coreUser core ≠ s.self.owner ∨ q.overflow = true ∨ ¬Roomy q 0 →
          (s.self.depth = 15 → exec (.spawn d a b) s = .next (({ s with self := { s.self with sent := [], replies := [] } } : State).trap 0x0E 0))
          ∧ (s.self.depth ≠ 15 → Completes (.spawn d a b) s (({ chipCut s with self := { (chipCut s).self with depth := s.self.depth + 1 } } : State).wr d 1))))

namespace Sys2Proof.Claims

/-- The request of a DLG or DLGA is on its way (R279): a reply entry of the core is reserved, the slot remembers where the status
goes, the span is cut at chip scope, and the request is the last in the steward queue of its core. -/
def Delegates (s t : State) (d : BitVec 5) (async : Bool) (core : Nat) (m : Msg) : Prop :=
  t = { chipCut s with
      nextTxn := s.nextTxn + 1, cores := t.cores
      self := { (chipCut s).self with delegated := some (d, async, m, core) } }
  ∧ (∀ q, t.core q = { s.core q with
      replyEntries := if q = s.self.core then (s.core q).replyEntries ++ [s.self.idx] else (s.core q).replyEntries
      steward := if q = core then (s.core q).steward ++ [m] else (s.core q).steward })

/-- The task of the issuing slot has ended: the slot is free and its span over for every agent, its records and its upcalls' pages are gone
(R117, R124), and the core, at a task boundary, scans its registers (R33). -/
def ended (s : State) : State :=
  ({ s with
    self := s.self.freed, recs := s.recs.filter (fun x => x.agent != s.self.agent)
    upcalls := s.upcalls.filter (fun x => x.1 != s.self.agent) } : State).scanCore s.self.core

/-- A reply's status as the requester sees it. -/
def replyStatusOf (r : Reply) : U16 := if r.status = 0x0E then 2 else r.status
/-- The registers after a reply: g4 to g7 its words, gd its status (R279). -/
def replied (s : State) (d : BitVec 5) (r : Reply) : State :=
  ((((s.setG 4 r.w4).setG 5 r.w5).setG 6 r.w6).setG 7 r.w7).wr d ((replyStatusOf r).setWidth 64)

end Sys2Proof.Claims

/-- R279, R280: delegation within the device. DLG and DLGA send their request to the steward of a core and DLG waits for the reply,
DLGA completes; the reply's event writes g4 to g7 and the status, frees the entry, acquires, and completes a DLG; DLGRET in slot 8
answers a requester of this device with g4 to g7 and ends the request. A slot with a request outstanding waits. -/
def Obligations.delegation : Prop :=
  ∀ (s : State) (d a b : BitVec 5) (core slot : Nat),
    let c := s.g a
    (s.self.delegated ≠ none → exec (.dlg d a b) s = .next (s.wait .delegate) ∧ exec (.dlga d a b) s = .next (s.wait .delegate))
    ∧ (s.self.delegated = none → EntryOk s c 2 → NamesHere s (s.x b) core slot → slot = 0 → s.myCore.replyEntries.length < 8 →
        (s.core core).steward.length < 32 →
        (∃ t, exec (.dlg d a b) s = .next (t.wait .delegate) ∧ Delegates s t d false core (letter s c 0 false []))
        ∧ ∃ t, Completes (.dlga d a b) s t ∧ Delegates s t d true core (letter s c 0 false []))
    ∧ (∀ async m target r, s.self.delegated = some (d, async, m, target) → s.self.delegateReply = some r → m.replyLocal = true →
        let u := s.putCore { s.myCore with replyEntries := s.myCore.replyEntries.erase s.self.idx }
        let v := replied u d r
        let w : State := { chipCut v with self := { (chipCut v).self with delegated := none, delegateReply := none, resend := none } }
        (async = true → exec (.dlgReplyArrival s.self.core s.self.idx) s = .next w)
        ∧ (async = false → Completes (.dlgReplyArrival s.self.core s.self.idx) s w))
    ∧ (s.self.idx ≠ 8 → exec .dlgret s = .next (s.trap 0x01 0))
    ∧ (∀ m r, s.self.idx = 8 → s.self.role = .steward → s.self.delegated = none → s.self.answers = some m → m.replyLocal = true → s.myCore.steward = [] →
        r = s.replyTo m.txn { txn := m.txn, status := 0, value := .zero, w4 := moved s 4, w5 := moved s 5, w6 := moved s 6, w7 := moved s 7, detail := 0 } →
        exec .dlgret s = .next (ended r))

/-- R264, R277, R278, R282, R283, R285: TEND ends a task at depth 0, whose slot is free and whose records go, and at a greater depth
returns to g1, its span over for every agent; TYIELD waits, or completes with the cause that has come, the limit that has passed or the pre-emption that is due;
TSELF writes the place word; REPLAY of the porter takes the head of the heap into the inbox. -/
def Obligations.tasks : Prop :=
  ∀ (s : State) (d a : BitVec 5),
    let passed (x : U64) : Prop := ∃ t, exec (.tyield d a) s = .next t
      ∧ Registers s t (gSet s d { bits := 0#64 ++ x, tag := false }) s.v s.p s.self.flags ∧ Moved s t (s.self.pcc.withAddrBits (s.pc + 4))
    let n := (s.x a).toNat % 2 ^ 32
    PutsX (.tself d) s d (BitVec.ofNat 64 (placeOfSelf s s.self.depth))
    ∧ (s.self.idx = 8 → exec .tend s = .next (s.trap 0x01 0))
    ∧ (s.self.idx ≠ 8 → s.self.depth = 0 → s.self.role = .spawned → s.self.delegated = none → exec .tend s = .next (ended s))
    ∧ (s.self.idx ≠ 8 → s.self.depth ≠ 0 → Enterable s (s.g 1) → ∃ t, exec .tend s = .next t ∧ Moved s t (s.g 1)
        ∧ t = { spanCut s 3 with self := { (spanCut s 3).self with
            depth := s.self.depth - 1, pcc := t.self.pcc, winDone := t.self.winDone, park := .no, afterTransfer := true, replay := false } })
    ∧ ((∀ e l x, s.self.park ≠ .yield e l x) →
        (s.self.coopDue = true → passed 3)
        ∧ (s.self.coopDue = false → exec (.tyield d a) s = .next (s.wait (.yield d (if n = 0 then none else some (s.cycle + n)) 0))))
    ∧ (∀ e l x, s.self.park = .yield e l x →
        (x ≠ 0 → passed (x.setWidth 64))
        ∧ (x = 0 → (∀ c, l = some c → c ≤ s.cycle → passed 0) ∧ ((∀ c, l = some c → s.cycle < c) → exec (.tyield d a) s = .next (s.wait (.yield e l 0)))))
    ∧ (s.self.idx ≠ 9 → exec .replay s = .next (s.trap 0x01 0))
    ∧ (s.self.idx = 9 → s.myCore.overflowed = [] → Completes .replay s (chipCut s))
    ∧ (∀ m k l, s.self.idx = 9 → s.myCore.overflowed = (m, k) :: l →
        (¬Roomy s.myCore m.tail.length → exec .replay s = .next (s.wait .inboxRoom))
        ∧ (Roomy s.myCore m.tail.length → Completes .replay s (chipCut ((s.putCore { s.myCore with
            overflowed := l, inbox := s.myCore.inbox ++ [s.heapRead (s.coreUser s.self.core) m k] }).noteYield s.self.core 2))))

/-! ### Control registers (R167, R168, R359, R370 to R372, R397, R404, R406) -/

namespace Sys2Proof.Claims

/-- The listed fields of a register take their bits from a write; the others stay. -/
def fields (old new mask : U64) : U64 := (old &&& ~~~mask) ||| (new &&& mask)

/-- The capability registers of a slot and its core, by number. -/
def capRegs (s : State) : List (BitVec 12 × Cap) :=
  [(0x001, s.self.trapvec), (0x002, s.self.upvec), (0x010, s.self.tfpcc), (0x019, s.self.tstack), (0x108, s.myCore.larg)]

/-- The integer registers that read as they stand, by number. -/
def intRegs (s : State) : List (BitVec 12 × U64) :=
  [(0x003, s.self.traphold), (0x005, s.self.round), (0x006, s.self.coord), (0x007, s.self.settlemode), (0x008, cut s.self.idx)
    , (0x009, cut s.self.owner.toNat), (0x00A, cut s.cycle), (0x00B, cut s.us), (0x011, s.self.tfpc), (0x012, s.self.tfdone), (0x013, s.self.tfclass)
    , (0x014, s.self.tfaddr), (0x015, s.self.tflane0), (0x016, s.self.tflane1), (0x017, s.self.tfagent), (0x018, s.self.tftime), (0x020, s.self.hqsel)
    , (0x110, s.myCore.chain[0]), (0x111, s.myCore.chain[1]), (0x112, s.myCore.chain[2]), (0x113, s.myCore.chain[3]), (0x300, s.devstat)]

/-- EVQSTAT (R314): records present, the queue's holder or borrower, records held back, at most 255. -/
def eventState (s : State) : U64 :=
  cut (s.myCore.events.length % 2 ^ 7 + 2 ^ 16 * (s.userOf (mkRes 10 s.self.core)).toNat + 2 ^ 32 * min 255 s.myCore.held.length : Nat)

/-- The counters of entropy value `e` of the network context bound to q5 (R322). -/
def entropyState (s : State) (e : Nat) : U64 :=
  match bindingOf s 5 with
  | none => 0
  | some (ci, _) =>
    match (s.ctx ci).entropy.find? (fun x => x.1 = e) with
    | some x => if ctxKind ci = 4 then cut (x.2.2.toNat + 2 ^ 32 * x.2.1.toNat : Nat) else 0
    | none => 0

/-- The host queue that HQSEL names, for a party to it. -/
def hostqOf (s : State) : HostQ := s.hostq (s.self.hqsel.toNat % 2 ^ 16)
def hostqParty (s : State) : Prop := s.userOf (mkRes 7 (s.self.hqsel.toNat % 2 ^ 16)) = s.self.owner ∧ s.self.owner ≠ 0

/-- The registers of a slot that a write changes, by number: the slot afterwards. -/
def slotWrites (x : Slot) (c : Cap) : List (BitVec 12 × Slot) :=
  let w := c.addr
  [(0x001, { x with trapvec := c }), (0x002, { x with upvec := c }), (0x010, { x with tfpcc := c }), (0x019, { x with tstack := c })
    , (0x003, { x with traphold := cut (w.toNat % 2 : Nat) }), (0x004, { x with flags := cut (w.toNat % 2 ^ 5 : Nat), winFlags := 0 })
    , (0x005, { x with round := cut (w.toNat % 4 : Nat) }), (0x007, { x with settlemode := cut (w.toNat % 2 : Nat) })
    , (0x012, { x with tfdone := fields x.tfdone w 0xFFFFFFFF }), (0x013, { x with tfclass := fields x.tfclass w 0x300 })
    , (0x020, { x with hqsel := fields (x.hqsel &&& 0x800000000000FFFF) w 0xFFFF })]

/-- The registers of a core that a write of an integer changes, CHAIN0 to CHAIN3. -/
def chainWrites (c : Core) (w : U64) : List (BitVec 12 × Core) :=
  [(0x110, { c with chain := c.chain.set 0 (fields 0 w 0x80000000FFFFFFFF) }), (0x111, { c with chain := c.chain.set 1 (fields 0 w 0x80000000FFFFFFFF) })
    , (0x112, { c with chain := c.chain.set 2 (fields 0 w 3) }), (0x113, { c with chain := c.chain.set 3 (fields 0 w 0x1F0F) })]

/-- R372: the monitor that a WATCH pair asks for is installed at slice `k`: mask [63:8] all ones, R and X clear, a CACHED or SLICE-PINNED
segment on which the owner has R, a slice with a monitor to spare. `s` is the state without the pair's old monitor. -/
def Installs (s : State) (addr mask : U64) (k : Nat) : Prop :=
  mask.toNat / 2 ^ 8 = 2 ^ 56 - 1 ∧ mask.getLsbD 0 = false ∧ mask.getLsbD 2 = false
    ∧ ∃ i e r, placeOf addr.toNat = .seg i ∧ s.segAttr i = some e ∧ s.rightsOn s.self.owner false i = some r ∧ r.r = true ∧ (e.place = 1 ∨ e.place = 2)
      ∧ k = homeSlice e addr.toNat ∧ (s.cores.map (fun c => c.monitors.toList.countP (fun m => m = some k))).sum < 4

/-- R370, R372: a write of register `n` of the WATCH registers: the state after it. The pair's monitor goes; with MON set one is installed or ERR is set. -/
def Watching (s : State) (n : Fin 8) (w : U64) (u : State) : Prop :=
  let pair : Fin 4 := ⟨n.val / 2, by have := n.isLt; omega⟩
  let old := s.myCore.watch
  let addr := (if n.val % 2 = 0 then w else old[n.val / 2 * 2]) &&& ~~~(0xF : U64)
  let mask := if n.val % 2 = 0 then old[n.val / 2 * 2 + 1] else w
  let bare := s.putCore { s.myCore with monitors := s.myCore.monitors.set pair none }
  let at' (err : U64) (m : Option Nat) : State := s.putCore { s.myCore with
    watch := (old.set (n.val / 2 * 2) (addr ||| err)).set (n.val / 2 * 2 + 1) mask, monitors := s.myCore.monitors.set pair m }
  (mask.getLsbD 3 = false → u = at' 0 none)
    ∧ (mask.getLsbD 3 = true → (∀ k, Installs bare addr mask k → u = at' 0 (some k)) ∧ ((∀ k, ¬Installs bare addr mask k) → u = at' 1 none))

end Sys2Proof.Claims

/-- R167, R168, R314, R322, R347, R397, R404: RDC of every register of the tables. FLAGS may lack flags newly set in the window (R158); an
unassigned number traps. -/
def Obligations.control_register_reads : Prop :=
  ∀ (s : State) (d : BitVec 5) (n : BitVec 12),
    (∀ r ∈ capRegs s, PutsG (.rdc d r.1) s d r.2)
    ∧ (∀ r ∈ intRegs s, PutsX (.rdc d r.1) s d r.2)
    ∧ (∀ i : Fin 8, PutsX (.rdc d (BitVec.ofNat 12 (0x100 + i))) s d s.myCore.shapes[i] ∧ PutsX (.rdc d (BitVec.ofNat 12 (0x120 + i))) s d s.myCore.watch[i])
    ∧ (∃ x, x &&& s.self.flags = x ∧ s.self.flags &&& ~~~s.self.winFlags &&& x = s.self.flags &&& ~~~s.self.winFlags
        ∧ Completes (.rdc d 0x004) s ({ s with free := s.free + 1 }.wr d x))
    ∧ PutsX (.rdc d 0x130) s d (eventState s)
    ∧ (∀ e, e < 256 → PutsX (.rdc d (BitVec.ofNat 12 (0x200 + e))) s d (entropyState s e))
    ∧ (hostqParty s → PutsG (.rdc d 0x021) s d (match (hostqOf s).ctx with | some b => ctxHandle b.1 b.2 | none => .zero))
    ∧ (hostqParty s → PutsG (.rdc d 0x022) s d (hostqOf s).cap0 ∧ PutsG (.rdc d 0x023) s d (hostqOf s).cap1)
    ∧ (¬hostqParty s → ∀ r ∈ [(0x021 : BitVec 12), 0x022, 0x023], PutsX (.rdc d r) s d 0)
    ∧ (∀ o, s.owner s.self.owner = some o → PutsG (.rdc d 0x400) s d o.emulent ∧ PutsX (.rdc d 0x401) s d (cut o.emulcore)
        ∧ PutsG (.rdc d 0x420) s d o.assayreq ∧ PutsX (.rdc d 0x421) s d o.assaystat)
    ∧ (n ∉ [0x001, 0x002, 0x003, 0x004, 0x005, 0x006, 0x007, 0x008, 0x009, 0x00A, 0x00B, 0x010, 0x011, 0x012, 0x013, 0x014, 0x015, 0x016, 0x017, 0x018, 0x019,
        0x020, 0x021, 0x022, 0x023, 0x108, 0x109, 0x110, 0x111, 0x112, 0x113, 0x130, 0x300, 0x400, 0x401, 0x420, 0x421] →
      (∀ lo ∈ [0x100, 0x120], n.toNat < lo ∨ lo + 8 ≤ n.toNat) → (n.toNat < 0x200 ∨ 0x300 ≤ n.toNat) → exec (.rdc d n) s = .next (s.trap 0x01 0))

/-- R167, R168, R347, R370 to R372, R397, R404, R406: WRC, and the table's steps that are such writes. A register takes its listed
fields; a TSHAPE only from slot 0 while its tile is unlocked; a WATCH pair with MON asks for a monitor; EMULENT keeps only a sealed
entry; a host queue's binding is changed by a party with a fit capability once no block waits; ASSAYREQ starts a request; what is
read-only or unassigned traps. -/
def Obligations.control_register_writes : Prop :=
  ∀ (s : State) (a : BitVec 5) (n : BitVec 12),
    let c := s.g a
    let hqErr (u : State) (e : Bool) : State := { u with self := { u.self with hqsel := fields (if e then 0x8000000000000000 else 0) u.self.hqsel 0xFFFF } }
    let binds (i : Instr) (ok : Prop) (q : HostQ) : Prop :=
      (¬hostqParty s ∨ ¬ok → Completes i s (hqErr s true))
      ∧ (hostqParty s → ok → (hostqOf s).blocks ≠ [] → exec i s = .next (s.wait (.hostqRoom (hostqOf s).q)))
      ∧ (hostqParty s → ok → (hostqOf s).blocks = [] → Completes i s (hqErr (s.putHostq q) false))
    let handle := c.otype = 4 ∧ s.ctxCurrent (c.addr.toNat % 2 ^ 15) (c.addr.toNat / 2 ^ 15) = true
    let derives := c.tag = true ∧ c.otype = 0 ∧ c.holds .en = true
    (∀ r ∈ slotWrites s.self c, Completes (.wrc a r.1) s { s with self := r.2 })
    ∧ (∀ r ∈ chainWrites s.myCore c.addr, Completes (.wrc a r.1) s (s.putCore r.2))
    ∧ Completes (.wrc a 0x108) s (s.putCore { s.myCore with larg := c })
    ∧ (∀ t : Fin 8, let i := Instr.wrc a (BitVec.ofNat 12 (0x100 + t))
        (s.self.idx ≠ 0 → exec i s = .next (s.trap 0x01 0))
        ∧ (s.self.idx = 0 → s.tileLocked s.self.core (BitVec.ofNat 3 t) = true → ParksAlone i s (.tile (BitVec.ofNat 3 t)))
        ∧ (s.self.idx = 0 → s.tileLocked s.self.core (BitVec.ofNat 3 t) = false →
            Completes i s (s.putCore { s.myCore with shapes := s.myCore.shapes.set t (fields 0 c.addr 0x1FFFFF) })))
    ∧ (∀ k : Fin 8, ∀ i ∈ [Instr.wrc a (BitVec.ofNat 12 (0x120 + k)), Instr.watchWrite (BitVec.ofNat 3 k) a], ∃ u, Completes i s u ∧ Watching s k c.addr u)
    ∧ (∀ i ∈ [Instr.wrc a 0x400, Instr.emulentWrite a], ∀ o, s.owner s.self.owner = some o →
        Completes i s (s.putOwner { o with emulcore := s.self.core, emulent := if c.tag = true ∧ c.otype = 3 then c else c.untag }))
    ∧ (∀ i ∈ [Instr.wrc a 0x021, Instr.hqctxWrite a],
        (c.tag = true → binds i handle { hostqOf s with ctx := some (c.addr.toNat % 2 ^ 15, c.addr.toNat / 2 ^ 15), dropped := 0 })
        ∧ (c.tag = false → binds i True { hostqOf s with ctx := none }))
    ∧ (∀ i ∈ [Instr.wrc a 0x022, Instr.hqcapWrite 0 a], binds i derives { hostqOf s with cap0 := c })
    ∧ (∀ i ∈ [Instr.wrc a 0x023, Instr.hqcapWrite 1 a], binds i derives { hostqOf s with cap1 := c })
    ∧ (∀ o, s.owner s.self.owner = some o →
        let fit := Authorises s c [.r, .w, .sc] c.addr 2048 ∧ c.addr.toNat % 16 = 0
        let left (st : U64) : State := s.putOwner { o with assaystat := fields (st <<< 32) o.assaystat 0xFFFFFFFF }
        (o.assaystat.getLsbD 0 = true → Completes (.wrc a 0x420) s (left 0x0009))
        ∧ (o.assaystat.getLsbD 0 = false → ¬fit → Completes (.wrc a 0x420) s (left 0x0011))
        ∧ (o.assaystat.getLsbD 0 = false → fit → Completes (.wrc a 0x420) s (s.putOwner { o with assayreq := c, assaystat := fields 0 o.assaystat 0xFFFFFFFF ||| 1 })))
    ∧ (n ∉ [0x001, 0x002, 0x003, 0x004, 0x005, 0x007, 0x010, 0x012, 0x013, 0x019, 0x020, 0x021, 0x022, 0x023, 0x108, 0x110, 0x111, 0x112, 0x113, 0x400, 0x420] →
      (∀ lo ∈ [0x100, 0x120], n.toNat < lo ∨ lo + 8 ≤ n.toNat) → exec (.wrc a n) s = .next (s.trap 0x01 0))

/-! ### Traps, their delivery and the returns (R348, R357 to R361) -/

namespace Sys2Proof.Claims

/-- A tagged and unsealed capability with X: what a vector must be (R357). -/
def GoodVector (c : Cap) : Prop := c.tag = true ∧ c.otype = 0 ∧ c.holds .x = true

/-- The vector of a class (R357): UPVEC, the rota entry's handler when it is tagged, TRAPVEC. -/
def vectorOf (x : Slot) (cls : BitVec 6) : Cap :=
  if cls = 0x08 then x.upvec else if cls = 0x15 ∧ x.coopVec.tag = true then x.coopVec else x.trapvec

/-- The kind of a frame (R359): 1 trap, 2 upcall, 3 cooperative. -/
def kindOf (cls : BitVec 6) : Nat := if cls = 0x08 then 2 else if cls = 0x15 then 3 else 1

/-- g2 and TSTACK are exchanged, tags included (R360); every other g register is as before. -/
def Exchanged (x y : Slot) : Prop :=
  y.tstack = x.getG 2 ∧ y.getG 2 = x.tstack ∧ ∀ n, n ≠ 2 → y.getG n = x.getG n

/-- R357 to R360: a trap has been delivered to the issuing slot with the done mask `done`: class 1, the frame, the exchange, the PCC at
the vector; nothing else of the slot but its window and what waited changes, and nothing of the device. -/
def Delivered (s t : State) (cls : BitVec 6) (addr : U64) (lanes : Pred) (agent : U64) (pc : U64) (word : U32) (done : U32) : Prop :=
  Exchanged s.self t.self
    ∧ t = { s with self := { s.self with
        class1 := true, g := t.self.g, tstack := t.self.tstack, pcc := vectorOf s.self cls
        tfpcc := s.self.pcc.withAddrBits s.self.winStart, tfpc := pc, tfdone := cut (done.toNat + 2 ^ 32 * word.toNat : Nat)
        tfclass := cut (cls.toNat + 2 ^ 8 * kindOf cls : Nat), tfaddr := addr, tflane0 := cut (lanes.toNat % 2 ^ 64 : Nat)
        tflane1 := cut (lanes.toNat / 2 ^ 64 : Nat), tfagent := agent, tftime := cut s.us
        afterTransfer := true, replay := false, winDone := 0, winReads := [], winWrites := [], watchTrap := none, park := .no
        sent := [], replies := [], tail := none, coopDue := s.self.coopDue && decide (cls ≠ 0x15) } }

/-- The word at the PC, as stored. -/
def faulting (s : State) : U32 := BitVec.ofNat 32 (s.loadN (s.localAddr s.pc.toNat) 4)

/-- R361: the slot has returned from its frame: the exchange, kind 0, class 1 left, the window of TFPCC resumed with the done mask. -/
def Returned (s t : State) : Prop :=
  Exchanged s.self t.self
    ∧ t = { s with self := { s.self with
        g := t.self.g, tstack := t.self.tstack, tfclass := fields s.self.tfclass 0 0x300, class1 := false, pcc := s.self.tfpcc
        winStart := s.self.tfpcc.addr, winDone := s.self.tfdone.setWidth 32, winReads := [], winWrites := [], afterTransfer := true, replay := true } }

/-- The kind field of the slot's frame. -/
def frameKind (s : State) : Nat := s.self.tfclass.toNat / 2 ^ 8 % 4

end Sys2Proof.Claims

/-- R357 to R360, R362: a trap of the issuing slot outside class 1 with a good vector is delivered with the frame of its faulting
instruction, which is undone; TRAP and BRK set their done bit first, in class software and breakpoint; in class 1, or with a bad
vector, the task is aborted instead: a dump, the lease of slot 0 closed, the task's end. NOP does nothing. A watch trap that waits for
its settle point and a cooperative pre-emption are delivered by a step of their own. -/
def Sys2Proof.Claims.Traps : Prop :=
  ∀ (s : State) (a : BitVec 5) (x : Trap),
    let abort (u : State) (reason : Nat) : State :=
      let v := u.dump u.self reason x.cls.toNat
      (if u.self.idx = 0 then (v.budgetDrain u.self.core).withdraw u.self.core else v).endTask u.self.core u.self.idx .abort
    let pos := (s.pc - s.self.winStart).toNat / 4
    let doneWith := s.self.winDone ||| doneBit s.self.winStart s.pc
    (s.self.class1 = false → (∀ d b, s.self.park ≠ .grant d b) → GoodVector (vectorOf s.self x.cls) →
        Delivered s (s.takeTrap x) x.cls x.addr x.lanes x.agent s.pc (faulting s) s.self.winDone)
    ∧ (s.self.class1 = true → s.takeTrap x = abort s 1)
    ∧ (s.self.class1 = false → (∀ d b, s.self.park ≠ .grant d b) → ¬GoodVector (vectorOf s.self x.cls) →
        ∃ t, Delivered s t x.cls x.addr x.lanes x.agent s.pc (faulting s) s.self.winDone ∧ s.takeTrap x = abort t 2)
    ∧ (s.self.class1 = false → (∀ d b, s.self.park ≠ .grant d b) → GoodVector s.self.trapvec →
        (∃ t, exec (.trap a) s = .next t ∧ Delivered s t 0x13 (s.x a) 0 0 s.pc (faulting s) doneWith)
        ∧ ∃ t, exec .brk s = .next t ∧ Delivered s t 0x14 0 0 0 s.pc (faulting s) doneWith)
    ∧ Completes .nop s s
    ∧ (∀ pc w, s.self.role ≠ .free → s.self.watchTrap = some (x, pc, w) → s.self.afterTransfer = true → s.self.replay = false → s.self.delegated = none → s.self.swLater = [] →
        s.self.class1 = false → (∀ d b, s.self.park ≠ .grant d b) → GoodVector (vectorOf s.self x.cls) →
        ∃ t, exec (.trapDelivery s.self.core s.self.idx) s = .next t ∧ Delivered s t x.cls x.addr x.lanes x.agent pc w s.self.winDone)
    ∧ (s.self.role ≠ .free → s.self.watchTrap = none → s.self.coopDue = true → s.self.hold = false → s.self.sent = [] → s.self.swLater = [] → s.self.delegated = none →
        s.self.park.holding = false → (∀ e l c, s.self.park ≠ .yield e l c) → s.self.afterTransfer = false → pos < 32 → s.self.winDone.getLsbD pos = false →
        s.self.class1 = false → (∀ d b, s.self.park ≠ .grant d b) → GoodVector (vectorOf s.self 0x15) →
        ∃ t, exec (.trapDelivery s.self.core s.self.idx) s = .next t ∧ Delivered s t 0x15 0 0 0 s.pc 0 s.self.winDone)

/-- R284, R288, R348, R361: TRET returns from a trap or a cooperative pre-emption and UPRET from an upcall; with another kind they
trap; tret.yield returns too where its frame is of class 0x15 and neither a recovery nor the end of a rota turn is at hand, and traps
with another class. -/
def Sys2Proof.Claims.TrapReturns : Prop :=
  ∀ (s : State),
    (frameKind s = 1 ∨ frameKind s = 3 → ∃ t, exec (.tret 0) s = .next t ∧ Returned s t)
    ∧ (frameKind s ≠ 1 → frameKind s ≠ 3 → exec (.tret 0) s = .next (s.trap 0x01 0) ∧ exec (.tret 1) s = .next (s.trap 0x01 0))
    ∧ (s.self.tfclass.toNat % 2 ^ 6 ≠ 0x15 → exec (.tret 1) s = .next (s.trap 0x01 0))
    ∧ (frameKind s = 1 ∨ frameKind s = 3 → s.self.tfclass.toNat % 2 ^ 6 = 0x15 → s.recovering s.self.core s.self.owner = false → s.myCore.turn.phase.toNat < 2 →
        ∃ t, exec (.tret 1) s = .next t ∧ Returned s t)
    ∧ (frameKind s = 2 → ∃ t, exec .upret s = .next t ∧ Returned s t)
    ∧ (frameKind s ≠ 2 → exec .upret s = .next (s.trap 0x01 0))

/-- R284, R288, R348, R357 to R362: what taking a trap and returning from one do. -/
def Obligations.traps_and_returns : Prop := Claims.Traps ∧ Claims.TrapReturns

/-! ### Holdings (R41 to R54, R331 to R336) -/

namespace Sys2Proof.Claims

/-- The status word of R41: the code in [15:0], the detail in [63:32]. -/
def statusWord (code detail : Nat) : U64 := cut (code + detail % 2 ^ 32 * 2 ^ 32 : Nat)

/-- The instruction synchronises at device scope, writes its status to gd, and has changed the state to `u` besides. -/
def Ends (i : Instr) (s u : State) (d : BitVec 5) (code detail : Nat) : Prop := Completes i s ((chipCut u).wr d (statusWord code detail))
/-- A refusal changes nothing (R331). -/
def Refuses (i : Instr) (s : State) (d : BitVec 5) (code detail : Nat) : Prop := Ends i s s d code detail

/-- The moments that units judge terms by (R41, R46): cycles of the rated clock, 1,750 to the microsecond (R413). An entry's moments lie
the fraction of a microsecond later at which they were set. -/
def present (s : State) : Nat := s.us * 1750 + s.usFrac * 1750 / s.clock
def momentOf (e : Entry) (t : Nat) : Nat := t * 1750 + e.frac

/-- No owner's keep-alive interval has passed without its lapse (R53). -/
def NoLapse (s : State) : Prop := ∀ o ∈ s.owners, s.lapseDue o = false

/-- The entry of a resource is at rest: no change of holder or recovery runs, no offer's deadline has come, no term has just ended. -/
def Resting (s : State) (e : Entry) : Prop :=
  NoLapse s ∧ e.recovery = none ∧ (e.state = .offered ∨ e.state = .offeredLoan → ∀ t, e.deadline = some t → present s < momentOf e t)
    ∧ (e.state = .lent → e.termPosted = true ∨ ∀ t, e.termEnd = some t → present s < momentOf e t)

/-- The fields of a terms word (R46). -/
def party (t : U128) : U16 := BitVec.ofNat 16 t.toNat
def field32 (t : U128) (k : Nat) : Nat := t.toNat / 2 ^ k % 2 ^ 32

/-- R46: terms that GIVE (`lend` false) or LEND refuses. -/
def BadTerms (s : State) (id : U64) (t : U128) (lend : Bool) : Prop :=
  t.toNat / 2 ^ 17 % 2 ^ 15 ≠ 0 ∨ party t = 0 ∨ party t = s.self.owner ∨ s.lives (party t) = false
    ∨ (resKind id = 12 ∧ (lend = true ∨ resIndex id = s.self.owner.toNat))
    ∨ (lend = true ∧ field32 t 64 = 0)
    ∨ (lend = true ∧ resKind id = 2 ∧ (s.rotaOf id).slice ≠ 0 ∧ (s.rotaOf id).slice.toNat * 1750 < field32 t 32 + 2 * 1750)

/-- R333 step 6: a key slot that a mapped segment names, a way unit that holds pinned segments. -/
def InUse (s : State) (id : U64) : Prop :=
  (resKind id = 8 ∧ ∃ e ∈ s.rights, e.frame = false ∧ e.sealedSeg = true ∧ e.key.toNat = resIndex id)
    ∨ (resKind id = 9 ∧ ∃ e ∈ s.rights, e.frame = false ∧ e.own = true ∧ e.place = 1 ∧ e.home.toNat = resIndex id / 32 ∧ (e.pin.map (· / 8)) = some (resIndex id % 32))

/-- A segment or scratchpad frame whose range is under sweep (R34). -/
def UnderSweep (s : State) (id : U64) : Prop := (resKind id = 4 ∨ resKind id = 5) ∧ unitOf id ∈ s.revoked

/-- An entry offered by `e`'s holder. -/
def offered (s : State) (e : Entry) (t : U128) (lend : Bool) : Entry :=
  { e with
    state := if lend then .offeredLoan else .offered, other := party t, terms := t
    deadline := if field32 t 96 = 0 then none else some (s.us + field32 t 96), frac := s.usFrac * 1750 / s.clock }

/-- The offer-received record (R42). -/
def offerRecord (s : State) (id : U64) (t : U128) (lend : Bool) : EvRec :=
  { kind := 12, status := if lend then 1 else 0, source := s.source 2 s.self.owner.toNat, number := 0, d0 := id
    d1 := if lend then cut (field32 t 64) else 0 }

/-- The issuer's OWNNEW has passed the resource to its new owner as its seed in this microsecond, and meets it at the unit (R350; log 99). -/
def JustFounded (s : State) (e : Entry) : Prop := ∃ o, s.owner e.holder = some o ∧ o.founded = some (s.self.owner, e.id, s.us)

/-- GIVE and LEND (R42, R333). -/
def Offers (s : State) (d a b : BitVec 5) (i : Instr) (lend : Bool) : Prop :=
  let id := s.x a
  let e := s.entry id
  let t := (s.g b).bits
  Resting s e → resValid id = true → s.lapsed s.self.owner = false →
    (e.state = .lent → Refuses i s d (if e.other = s.self.owner then 5 else 1) 0)
    ∧ (e.state = .held → JustFounded s e → Refuses i s d 2 1)
    ∧ (e.state = .held → e.holder ≠ s.self.owner → ¬JustFounded s e → Refuses i s d 1 0)
    ∧ (e.state ≠ .held → e.state ≠ .lent → Refuses i s d 2 e.state.code)
    ∧ (e.state = .held → e.holder = s.self.owner → ¬JustFounded s e →
        (BadTerms s id t lend → Refuses i s d 6 0)
        ∧ (¬BadTerms s id t lend → InUse s id → Refuses i s d 16 0)
        ∧ (¬BadTerms s id t lend → ¬InUse s id → UnderSweep s id → ∃ n, Refuses i s d 7 n)
        ∧ (¬BadTerms s id t lend → ¬InUse s id → ¬UnderSweep s id →
            Completes i s (((((chipCut s).putEntry (offered s e t lend)).notice (party t) (offerRecord s id t lend)).wr d (statusWord 0 0)))))

/-- The withdrawal of an offer: HELD by its giver, nothing scrubbed (R42). -/
def withdrawn (e : Entry) : Entry := { e with state := .held, other := 0, terms := 0, deadline := none, keepBoth := false }

/-- A resource whose change of holder has nothing to wait for: a way unit, an owner slot. What a scrub of it does (R45): a way unit's
lines of the classes of the owner that loses it leave it. -/
def Plain (id : U64) : Prop := resKind id = 9 ∨ resKind id = 12
def scrubbedIf (keep : Bool) (s : State) (id : U64) (loser : U16) : State :=
  if resKind id = 9 ∧ keep = false then s.loseUnit (resIndex id) loser else s

/-- An entry that has passed to an owner. -/
def passedTo (s : State) (e : Entry) (o : U16) : Entry :=
  { e with
    state := if s.lapsed o then .lapsed else .held, holder := o, other := 0, terms := 0, deadline := none, termEnd := none, termPosted := false
    keepBoth := false, lapsedBorrower := false, inherited := false, recovery := none }

/-- How a resource passes: to an owner from another, returned by its borrower, with a reclaim record, with its contents, by recovery. -/
def passing (heir giver : U16) (returned record keep recovery : Bool) : Passing := ⟨heir, giver, returned, record, keep, recovery⟩

/-- `v` is `u` with the instruction complete, and nothing else. -/
def Past (u v : State) : Prop :=
  Retired u v ∧ v = { u with self := { u.self with
    pcc := v.self.pcc, winDone := v.self.winDone, park := v.self.park, afterTransfer := v.self.afterTransfer, replay := v.self.replay } }

/-- RETURN and RECLAIM of a loan (R47, R48, R333): the status is written as recovery begins; `returned` says which. -/
def Recalls (i : Instr) (s : State) (d : BitVec 5) (e : Entry) (returned : Bool) : Prop :=
  let t := (chipCut s).beginPassing e .recalling (passing e.holder e.other returned true (returned && e.keepBoth) true)
  let number := match (t.entry e.id).recovery with | some r => r.number | none => 0
  (∃ v, Past (t.wr d (statusWord 0 number)) v ∧ exec i s = .next (v.settleEntry e.id))
  ∧ (Plain e.id → ∃ v r, Past ((chipCut s).wr d (statusWord 0 0)) v ∧
      let w := scrubbedIf (returned && e.keepBoth) (v.putEntry { e with state := .recalling, recovery := some r }) e.id e.other
      exec i s = .next ((w.putEntry (passedTo w e e.holder)).notice e.holder
        { kind := 5, status := if returned then 1 else 3, source := w.source 2 e.other.toNat, number := 0, d0 := e.id, d1 := 0 }))

/-- The word that HQUERY writes to gd (R334). -/
def queryWord (s : State) (e : Entry) : U128 :=
  let isParty := s.self.owner ≠ 0 ∧ (e.holder = s.self.owner ∨ e.other = s.self.owner)
  let time := if isParty then (match e.state with | .offered | .offeredLoan => e.deadline.getD 0 | .lent => e.termEnd.getD 0 | _ => 0) else 0
  BitVec.ofNat 128 (e.state.code * 2 ^ 16 + e.lapsedBorrower.toNat * 2 ^ 24 + e.inherited.toNat * 2 ^ 25
    + (if e.state = .retired then 0 else e.holder.toNat) * 2 ^ 32 + e.other.toNat * 2 ^ 48 + time % 2 ^ 64 * 2 ^ 64)

/-- The capability that HQUERY writes to gb (R334). -/
def queryCap (s : State) (e : Entry) : Cap :=
  if resKind e.id = 6 ∧ s.self.owner ≠ 0 ∧ ((e.state = .held ∧ e.holder = s.self.owner) ∨ (e.state = .lent ∧ e.other = s.self.owner)) then ctxHandle (resIndex e.id) (s.ctx (resIndex e.id)).gen
  else if s.self.owner ≠ 0 ∧ (e.holder = s.self.owner ∨ e.other = s.self.owner) then { bits := e.terms, tag := false }
  else .zero

/-- The house, whose members and owner slot are its own (R40). -/
def isHouse (s : State) : Prop := s.self.owner = Config.house

/-- A capability of the charter as a capability load through ga brings it (R198, R335). -/
def IsCharterWord (s : State) (a : BitVec 5) (k : Nat) (c : Cap) : Prop :=
  let m := s.localAddr (s.x a).toNat + 16 * k
  ∃ v, MayReadCap s m v ∧ c = { v with tag := s.loadedTag (s.g a) v (s.rightC m) (s.x a) }

/-- The 64-bit words of a charter. -/
def charterField (l : Nat → Cap) (k : Nat) : U64 := BitVec.ofNat 64 ((l (k / 2)).bits.toNat / 2 ^ (64 * (k % 2)))

/-- R51: a charter that breaks nothing of the table, for the owner slot `n`. -/
def GoodCharter (s : State) (l : Nat → Cap) (n : Nat) : Prop :=
  let w := charterField l
  let mine (id : U64) (kind : Nat) : Prop := resKind id = kind ∧ resValid id = true ∧ s.holds s.self.owner id = true ∧ (s.entry id).recovery = none
  let heir : U16 := BitVec.ofNat 16 (w 0).toNat
  s.lives heir = true ∧ heir.toNat ≠ n ∧ (w 0).toNat / 2 ^ 16 % 2 ^ 16 = 0 ∧ (mine (w 1) 1 ∨ mine (w 1) 2) ∧ mine (w 2) 10
    ∧ (w 3 = 0 ∨ mine (w 3) 8) ∧ (w 4 = 0 ∨ mine (w 4) 3) ∧ w 5 = 0 ∧ (l 3).tag = true ∧ (l 3).otype = 0 ∧ (l 3).holds .x = true

/-- A core on which no slot runs and whose inbox is empty (R51). -/
def IdleCore (s : State) (core : Nat) : Prop := (∀ x ∈ s.slots, x.running = true → x.core ≠ core) ∧ (s.core core).inbox = []

/-- The owner members (R51, R53, R54, R335). -/
def OwnerMembers : Prop :=
  ∀ (s : State) (d a : BitVec 5),
    let me := s.self.owner
    let named : Option U16 := if (s.x a).toNat < 2 ^ 16 then some (BitVec.ofNat 16 (s.x a).toNat) else none
    let x := accessOf s (s.x a) 64 true false false
    -- OWNNEW
    (Authorises s (s.g a) [.r] (s.x a) 64 → (s.x a).toNat % 16 = 0 → Clear s (s.x a) x → ∃ (u : State) (word : Nat → Cap), (∀ k, k < 4 → IsCharterWord s a k (word k))
      ∧ u = { s with self := { s.self with watchTrap := u.self.watchTrap, park := u.self.park }, recs := u.recs, free := u.free }
      ∧ Recorded s u x ∧ Watched s u x 0
      ∧ (s.lapsed me = true → Ends (.ownnew d a) s u d 10 0)
      ∧ (s.lapsed me = false → u.freeOwnerSlot me = none → Ends (.ownnew d a) s u d 4 0)
      ∧ ∀ n, s.lapsed me = false → u.freeOwnerSlot me = some n →
          let charter := [0, 1, 2, 3].map word
          let seed := charterField word 1
          (¬GoodCharter s word n → ∃ off, u.badCharter charter n = some off ∧ Ends (.ownnew d a) s u d 8 off)
          ∧ (GoodCharter s word n →
              (resKind seed = 1 → ¬IdleCore s (resIndex seed) → Ends (.ownnew d a) s u d 9 0)
              ∧ ((resKind seed = 1 → IdleCore s (resIndex seed)) →
                  Completes (.ownnew d a) s (((chipCut u).found n (charterOf charter)).wr d (statusWord 0 n)))))
    -- OWNEND
    ∧ (isHouse s → Refuses (.ownend d) s d 11 0)
    ∧ (¬isHouse s → s.lapsed me = true → Refuses (.ownend d) s d 10 0)
    ∧ (∀ o, ¬isHouse s → s.owner me = some o → s.lapsed me = false → ∃ v, Past ((chipCut s).wr d (statusWord 0 0)) v
        ∧ exec (.ownend d) s = .next ((v.beginDissolve o.id (s.successor o)).endDissolve o.id))
    -- RENEW
    ∧ (s.lapsed me = true → Refuses (.renew d) s d 10 0)
    ∧ (∀ o, s.owner me = some o → o.lapsed = false → s.lapseDue o = false → Ends (.renew d) s (s.putOwner { o with renewed := s.us, renewedFrac := s.usFrac * 1750 / s.clock }) d 0 0)
    -- CLAIM
    ∧ (∀ id n, s.self.park = .claim id (some n) → Ends (.claim d a) s s d 0 n)
    ∧ (NoLapse s → s.self.park = .no → named.bind s.owner = none → Refuses (.claim d a) s d 4 0)
    ∧ (∀ o, NoLapse s → s.self.park = .no → named.bind s.owner = some o →
        (s.lapsed me = true → Refuses (.claim d a) s d 10 0)
        ∧ (s.lapsed me = false → o.lapsed = false → Refuses (.claim d a) s d 2 6)
        ∧ (s.lapsed me = false → o.lapsed = true → s.successor o ≠ me → Refuses (.claim d a) s d 1 0)
        ∧ (s.lapsed me = false → o.lapsed = true → s.successor o = me →
            let w := s.wait (.claim o.id none)
            let t := (if o.dissolving = none then w.beginDissolve o.id me else w).endDissolve o.id
            (∀ id, t.self.park = .claim id none → exec (.claim d a) s = .next t)
            ∧ ∀ id n, t.self.park = .claim id (some n) → Ends (.claim d a) s t d 0 n))
    -- SETHEIR
    ∧ (isHouse s → Refuses (.setheir d a) s d 11 0)
    ∧ (¬isHouse s → named = none ∨ (∃ h, named = some h ∧ s.lives h = false) → Refuses (.setheir d a) s d 4 0)
    ∧ (∀ h o, ¬isHouse s → named = some h → s.lives h = true → s.owner me = some o →
        (s.lapsed me = true → Refuses (.setheir d a) s d 10 0)
        ∧ (s.lapsed me = false → h = me → Refuses (.setheir d a) s d 1 0)
        ∧ (s.lapsed me = false → h ≠ me → Ends (.setheir d a) s (s.putOwner { o with heir := h }) d 0 0))

end Sys2Proof.Claims

/-- R42, R43, R46, R331 to R336: GIVE, ACCEPT, DECLINE, LEND, RETURN, RECLAIM of an entry at rest: the refusals in their order, the
offer and its record, the withdrawal, the change of holder of an ACCEPT, the recovery of a loan; HQUERY of any entry; and OWNNEW,
OWNEND, RENEW, CLAIM, SETHEIR. (The order of refusals that the spec does not give is the model's, log 100; that GIVE and LEND to no live owner are
BAD_TERMS is log 46, a GIVE in the microsecond of its OWNNEW log 99.) -/
def Obligations.holdings : Prop := Claims.OwnerMembers ∧
  ∀ (s : State) (d a b : BitVec 5),
    let id := s.x a
    let e := s.entry id
    let me := s.self.owner
    let accepted := { e with
      keepBoth := e.terms.getLsbD 16 && (s.x b).getLsbD 16, deadline := none, termEnd := if e.state = .offeredLoan then some (s.us + field32 e.terms 64) else none
      frac := s.usFrac * 1750 / s.clock }
    let six := [Instr.give d a b, Instr.accept d a b, Instr.decline d a, Instr.lend d a b, Instr.returnLoan d a, Instr.reclaim d a]
    let recipients := [Instr.accept d a b, Instr.decline d a]
    (s.self.park = .change id → (e.recovery = none → Ends (.accept d a b) s s d 0 0) ∧ (e.recovery ≠ none → exec (.accept d a b) s = .next s))
    ∧ (s.self.park = .no →
    (∀ i ∈ six, (resValid id = false → Refuses i s d 4 0) ∧ (resValid id = true → s.lapsed me = true → Refuses i s d 10 0))
    ∧ Offers s d a b (.give d a b) false ∧ Offers s d a b (.lend d a b) true
    ∧ (Resting s e → resValid id = true → s.lapsed me = false →
        (∀ i ∈ recipients, (e.state ≠ .offered → e.state ≠ .offeredLoan → Refuses i s d 2 e.state.code)
          ∧ (e.state = .offered ∨ e.state = .offeredLoan → e.other ≠ me → Refuses i s d 1 0))
        ∧ (e.state = .offered ∨ e.state = .offeredLoan → e.other = me →
            Ends (.decline d a) s (s.putEntry (withdrawn e)) d 0 0
            ∧ (s.x b &&& ~~~0x10000 ≠ 0 → Refuses (.accept d a b) s d 6 0)
            ∧ (s.x b &&& ~~~0x10000 = 0 →
                (let t := (s.beginPassing accepted e.state (passing me e.holder false false accepted.keepBoth false)).settleEntry id
                ((t.entry id).recovery = none → Ends (.accept d a b) s t d 0 0)
                ∧ ((t.entry id).recovery ≠ none → exec (.accept d a b) s = .next (t.wait (.change id))))
                ∧ (Plain id → ∃ r,
                    let w := scrubbedIf accepted.keepBoth (s.putEntry { accepted with recovery := some r }) id e.holder
                    Ends (.accept d a b) s (w.putEntry
                      (if e.state = .offeredLoan then { accepted with state := .lent, lapsedBorrower := w.lapsed me } else passedTo w accepted me)) d 0 0)))
        ∧ (e.state = .offered ∨ e.state = .offeredLoan → e.holder = me → Ends (.reclaim d a) s (s.putEntry (withdrawn e)) d 0 0)
        ∧ (e.state = .offered ∨ e.state = .offeredLoan → e.holder ≠ me → Refuses (.reclaim d a) s d 1 0)
        ∧ (e.state = .lent → e.holder ≠ me → Refuses (.reclaim d a) s d 1 0)
        ∧ (e.state = .lent → e.holder = me → ∀ t, e.termEnd = some t → present s < momentOf e t → e.lapsedBorrower = false →
            Refuses (.reclaim d a) s d 3 ((momentOf e t - present s + 1749) / 1750))
        ∧ (e.state = .lent → e.holder = me → (∀ t, e.termEnd = some t → present s < momentOf e t → e.lapsedBorrower = true) → Recalls (.reclaim d a) s d e false)
        ∧ (e.state = .lent → e.other = me → Recalls (.returnLoan d a) s d e true)
        ∧ (e.state = .lent → e.other ≠ me → Refuses (.returnLoan d a) s d 1 0)
        ∧ (e.state ≠ .lent → e.state ≠ .offered → e.state ≠ .offeredLoan → Refuses (.reclaim d a) s d 2 e.state.code)
        ∧ (e.state ≠ .lent → Refuses (.returnLoan d a) s d 2 e.state.code)
        ∧ Completes (.hquery d a b) s (((chipCut s).setG d { bits := queryWord s e, tag := false }).setG b (queryCap s e)))
    ∧ (resValid id = false → Completes (.hquery d a b) s (((chipCut s).wr d 4).setG b .zero)))

/-! ### Mappings (R30 to R34, R57, R63 to R78, R87, R338 to R344) -/

namespace Sys2Proof.Claims

/-- The status is written, with no synchronisation (R336); `u` says what changes besides. -/
def Answers (i : Instr) (s u : State) (d : BitVec 5) (code detail : Nat) : Prop := Completes i s (u.wr d (statusWord code detail))
def Denies (i : Instr) (s : State) (d : BitVec 5) (code detail : Nat) : Prop := Answers i s s d code detail

/-- The issuing owner holds a resource, or has borrowed it. -/
def Borrows (s : State) (id : U64) : Prop := (s.entry id).recovery = none ∧ (s.entry id).state = .lent ∧ (s.entry id).other = s.self.owner
def HeldByMe (s : State) (id : U64) : Prop := (s.entry id).recovery = none ∧ (s.entry id).state = .held ∧ (s.entry id).holder = s.self.owner
def MayUse (s : State) (id : U64) : Prop := HeldByMe s id ∨ Borrows s id

/-- A field of a word of 128 bits: n bits from bit k. -/
def fld (m : U128) (k n : Nat) : Nat := m.toNat / 2 ^ k % 2 ^ n

/-- The map word has the attributes of a segment's own entry; content-named is left out (R338, R339). -/
def SameAttr (e : Rights) (m : U128) : Prop :=
  e.place.toNat = fld m 16 2 ∧ e.unchecked = m.getLsbD 18 ∧ e.sealedSeg = m.getLsbD 19 ∧ e.key.toNat = fld m 20 12
    ∧ e.migration.toNat = fld m 33 2 ∧ e.big = m.getLsbD 35 ∧ e.cls.toNat = fld m 36 6 ∧ e.home.toNat = fld m 42 2

/-- What R61, R63, R87 and R338 allow a segment. -/
def GoodAttr (s : State) (seg : Nat) (m : U128) : Prop :=
  fld m 16 2 ≠ 0 ∧ (segIsHost seg = true → fld m 16 2 = 3 ∧ fld m 42 2 = 0)
    ∧ (fld m 16 2 = 3 → m.getLsbD 18 = true ∧ m.getLsbD 19 = false ∧ fld m 33 2 = 0)
    ∧ (m.getLsbD 19 = true → MayUse s (mkRes 8 (fld m 20 12))) ∧ (m.getLsbD 19 = false → fld m 20 12 = 0)
    ∧ fld m 33 2 ≠ 3 ∧ (s.cls (BitVec.ofNat 2 (fld m 42 2)) (BitVec.ofNat 6 (fld m 36 6))).owner = s.self.owner

/-- A new own entry with the attributes of a word (R63, R65). -/
def newOwn (s : State) (seg : Nat) (m : U128) (pos : Nat) (pin : Option Nat) : Rights :=
  { owner := s.self.owner, frame := false, index := seg, r := m.getLsbD 15, w := m.getLsbD 14, x := m.getLsbD 13, c := m.getLsbD 12
    place := BitVec.ofNat 2 (fld m 16 2), unchecked := m.getLsbD 18, sealedSeg := m.getLsbD 19, key := BitVec.ofNat 12 (fld m 20 12)
    named := false, migration := BitVec.ofNat 2 (fld m 33 2), home := BitVec.ofNat 2 (fld m 42 2), cls := BitVec.ofNat 6 (fld m 36 6)
    big := m.getLsbD 35, own := true, pos := pos, pin := pin }

/-- The position at which a class pins a segment of place SLICE-PINNED (R72); none of another place. -/
def Pins (s : State) (m : U128) (pin : Option Nat) : Prop :=
  (fld m 16 2 = 1 → ∃ k, s.pinFor (BitVec.ofNat 2 (fld m 42 2)) (BitVec.ofNat 6 (fld m 36 6)) = some k ∧ pin = some k)
    ∧ (fld m 16 2 ≠ 1 → pin = none)

/-- The own entry that a MAP leaves, before its rights: the segment's, or a new one. -/
def OwnFor (s : State) (seg : Nat) (m : U128) (own : Rights) : Prop :=
  (s.ownOf seg = some own ∧ SameAttr own m)
    ∨ (s.ownOf seg = none ∧ GoodAttr s seg m ∧ ∃ pin p, Pins s m pin ∧ s.rightsPos s.self.owner false seg = some p ∧ own = newOwn s seg m p pin)

/-- The page size of a word, and the key and the first 16 KiB page of the entry it makes. -/
def pageSize (m : U128) : Nat := if m.getLsbD 35 = true then 2 ^ 21 else 2 ^ 14
def pageKey (a : U64) (m : U128) : Nat := a.toNat / 2 ^ 14 % 2 ^ 42 * 2 + if m.getLsbD 35 = true then 1 else 0
def pageOf (m : U128) : Nat := resIndex (m.extractLsb' 64 64) * 128 + fld m 0 7

/-- The backing frame of a map word, absent or good (R339). -/
def GoodFrame (s : State) (a : U64) (m : U128) (seg : Nat) : Prop :=
  let f : U64 := m.extractLsb' 64 64
  f = 0 ∨ (resKind f = (if segIsHost seg = true then 11 else 3) ∧ resValid f = true ∧ MayUse s f ∧ (segIsHost seg = false → homeDie f = fld m 42 2)
    ∧ s.isSaveFrame f = false ∧ s.pageTaken (segIsHost seg) (pageOf m) (if m.getLsbD 35 = true then 128 else 1) (pageKey a m) = false)

/-- The entry of a page that a MAP replaces. -/
def replacedBy (s : State) (a : U64) (m : U128) (seg : Nat) : Option Trans :=
  match findBy transKey (pageKey a m) s.trans with
  | some t => some t
  | none => if s.hostReset seg = true ∧ transKey (Trans.hostReset (seg - 2 ^ 26)) = pageKey a m then some (Trans.hostReset (seg - 2 ^ 26)) else none

/-- The position a translation entry takes: its own where it replaces one (R76). -/
def PosFor (s : State) (a : U64) (m : U128) (pos : Nat) : Prop :=
  (∃ t, findBy transKey (pageKey a m) s.trans = some t ∧ pos = t.pos)
    ∨ (findBy transKey (pageKey a m) s.trans = none ∧ s.transPos (pageKey a m) (fld m 42 2) = some pos)

/-- The entry that a MAP writes (R75, R339). -/
def newPage (a : U64) (m : U128) (seg pos : Nat) : Trans :=
  { vpn := a.toNat / 2 ^ 14 % 2 ^ 42, size := m.getLsbD 35, present := m.extractLsb' 64 64 != 0#64, lost := false, clean := true, migrating := 0
    protect := decide (fld m 33 2 = 1), key := BitVec.ofNat 12 (fld m 20 12), host := segIsHost seg
    page := if m.extractLsb' 64 64 = 0#64 then 0 else pageOf m, pos := pos }

/-- A page that is backed anew, or made absent: lines of it that are cached keep serving hits (R78). -/
def remapped (s : State) (o : Option Trans) (n : Trans) : State :=
  match o with
  | some o => if n.present = true ∧ o.page = n.page then s else s.keepLines o
  | none => s

/-- The state with a page mapped. -/
def mapped (s : State) (a : U64) (m : U128) (seg : Nat) (own : Rights) (pos : Nat) : State :=
  let t := (s.hostLeaves seg).putRights { own with r := m.getLsbD 15, w := m.getLsbD 14, x := m.getLsbD 13, c := m.getLsbD 12 }
  let k := remapped t (replacedBy s a m seg) (newPage a m seg pos)
  let u := { k with trans := putBy transKey (newPage a m seg pos) k.trans }
  if m.extractLsb' 64 64 = 0#64 then u else u.announce a.toNat (pageSize m)

/-- A page address and a map word that name a page of a segment. -/
def GoodPage (a : U64) (m : U128) (seg : Nat) : Prop :=
  placeOf a.toNat = .seg seg ∧ a.toNat % pageSize m = 0 ∧ fld m 44 20 = 0 ∧ fld m 7 5 = 0 ∧ (m.getLsbD 35 = true → fld m 0 7 = 0)

/-- A unit of a segment. -/
def segUnit (seg : Nat) : Unit30 := { frame := false, index := seg }

/-- MAP (R339). -/
def Maps : Prop :=
  ∀ (s : State) (d a b : BitVec 5) (seg : Nat),
    let m := (s.g b).bits
    let x := s.x a
    let i := Instr.map d a b
    ((∀ n, placeOf x.toNat ≠ .seg n) → Denies i s d 4 0)
    ∧ (placeOf x.toNat = .seg seg → x.toNat % pageSize m ≠ 0 → ∃ k, Denies i s d 0x11 k)
    ∧ (GoodPage x m seg → ¬MayUse s (mkRes 5 seg) → Denies i s d 1 0)
    ∧ (GoodPage x m seg → MayUse s (mkRes 5 seg) → segUnit seg ∈ s.revoked → Denies i s d 7 (s.sweepNumber (segUnit seg)))
    ∧ (GoodPage x m seg → MayUse s (mkRes 5 seg) → segUnit seg ∉ s.revoked →
        (m.getLsbD 32 = true → Denies i s d 0xC 32)
        ∧ (m.getLsbD 32 = false → ∀ own pos, OwnFor s seg m own → GoodFrame s x m seg → PosFor s x m pos →
            Answers i s (mapped s x m seg own pos) d 0 (if (replacedBy s x m seg).isSome = true then 1 else 0)))

/-- UNMAP (R340). -/
def Unmaps : Prop :=
  ∀ (s : State) (d a b : BitVec 5) (seg : Nat),
    let w := (s.x b).toNat
    let i := Instr.unmap d a b
    placeOf (s.x a).toNat = .seg seg → w / 4 % 2 ^ 14 = 0 → w / 2 ^ 32 = 0 →
      (w % 4 = 3 → Denies i s d 0x11 0)
      ∧ (w % 4 ≠ 3 → ¬MayUse s (mkRes 5 seg) → Denies i s d 1 0)
      ∧ (MayUse s (mkRes 5 seg) →
          (w % 4 = 0 → s.transAt (s.x a).toNat = none → Denies i s d 0xF 0)
          ∧ (w % 4 = 0 → ∀ t, s.transAt (s.x a).toNat = some t → Answers i s (((s.keepHostRights seg).hostLeaves seg).dropTrans t) d 0 0)
          ∧ (w % 4 = 1 → ((s.ownOf seg).isSome = true ∨ (∃ t ∈ s.trans, t.seg = seg) ∨ ∃ e ∈ s.rights, e.frame = false ∧ e.index = seg) →
              Answers i s (s.dropSegment seg) d 0 0)
          ∧ (w % 4 = 1 → s.ownOf seg = none → (∀ t ∈ s.trans, t.seg ≠ seg) → (∀ e ∈ s.rights, e.frame = false → e.index ≠ seg) → Denies i s d 0xF 0)
          ∧ (w % 4 = 2 →
              let mine (e : Rights) : Bool := e.frame == false && e.index == seg && !e.own && e.owner == BitVec.ofNat 16 (w / 2 ^ 16)
              (s.rights.any mine = true →
                Answers i s { s.writeBackSeg seg with rights := (s.writeBackSeg seg).rights.filter (fun e => !mine e) } d 0 0)
              ∧ (s.rights.any mine = false → Denies i s d 0xF 0)))

/-- A segment's own entry and its shares take new attributes (R341). -/
def attributed (s : State) (seg : Nat) (m : U128) (pin : Option Nat) : State :=
  { s with rights := s.rights.map (fun x =>
      if x.frame = false ∧ x.index = seg then
        { x with
          place := BitVec.ofNat 2 (fld m 16 2), unchecked := m.getLsbD 18, sealedSeg := m.getLsbD 19, migration := BitVec.ofNat 2 (fld m 33 2)
          cls := BitVec.ofNat 6 (fld m 36 6), pin := if x.own then pin else none }
      else x) }

/-- A segment whose race checking changes: its records, and what unchecked writes have overwritten, are met no more (R129, R136). -/
def rechecked (s : State) (seg : Nat) : State :=
  let lo := segBase seg
  let hi := lo + 2 ^ 21
  { s with
    older := s.older.filter (fun w => decide (w.addr + w.bytes.length ≤ lo) || decide (hi ≤ w.addr))
    recs := s.recs.filter (fun r => decide (r.granule * 32 < lo) || decide (hi ≤ r.granule * 32)) }

/-- Cache classes without way units that no segment names are free (R341). -/
def classesFreed (s : State) : State :=
  { s with
    classes := s.classes.map (fun x =>
      if x.owner ≠ 0 ∧ x.floor = 0 ∧ ∀ e ∈ s.rights, e.frame = false → e.home = x.die → e.cls ≠ x.cls then { x with owner := 0 } else x) }

/-- How many segments the region has that a segment belongs to. -/
def InRun (s : State) (seg : Nat) : Prop := 1 < s.regionSize seg

/-- A SETCLASS selector: a resource and a field. -/
def Selects (s : State) (a : BitVec 5) (id : U64) (field : Nat) : Prop :=
  (s.g a).bits.extractLsb' 0 64 = id ∧ fld (s.g a).bits 64 8 = field ∧ (s.g a).bits.toNat / 2 ^ 72 = 0 ∧ resValid id = true

/-- SETCLASS of a segment's attributes. -/
def SetsAttributes : Prop :=
  ∀ (s : State) (d a b : BitVec 5) (seg : Nat) (e : Rights) (pin : Option Nat),
    let m := (s.g b).bits
    resIndex (mkRes 5 seg) = seg → resKind (mkRes 5 seg) = 5 → Selects s a (mkRes 5 seg) 0 →
    (¬MayUse s (mkRes 5 seg) → Denies (.setclass d a b) s d 1 0)
    ∧ (MayUse s (mkRes 5 seg) → fld m 44 20 = 0 → fld m 7 5 = 0 → s.ownOf seg = some e → GoodAttr s seg m →
        e.key.toNat = fld m 20 12 → e.named = m.getLsbD 32 → e.big = m.getLsbD 35 → e.home.toNat = fld m 42 2 →
        (e.named = true → fld m 16 2 = 2 ∧ fld m 33 2 = 0) → (InRun s seg → e.cls.toNat = fld m 36 6) →
        (e.sealedSeg ≠ m.getLsbD 19 → ¬InRun s seg ∧ s.somePresent seg = false) →
        (if e.place = 1 ∧ fld m 16 2 = 1 ∧ e.cls.toNat = fld m 36 6 then pin = e.pin ∧ (pin.isSome = true) else Pins s m pin) →
        let t := if e.place.toNat ≠ fld m 16 2 ∨ e.cls.toNat ≠ fld m 36 6 ∨ e.sealedSeg ≠ m.getLsbD 19 then s.writeBackSeg seg else s
        let u := if e.unchecked = m.getLsbD 18 then t else rechecked t seg
        Answers (.setclass d a b) s (classesFreed (attributed (u.keepHostRights seg) seg m pin)) d 0 0)

/-- A new region, and the state with its index lines zero and its header line written (R92, R94). -/
def newRegion (s : State) (seg n : Nat) (ctx : U64) : Region :=
  { seg := seg, n := n, saltOwner := s.self.owner, salt := ((s.owner s.self.owner).map Owner.salt).getD 0, relCtx := ctx, lastRel := 0
    live := 0, used := [], heldReleases := [] }
def formed (s : State) (seg n : Nat) (ctx : U64) : State :=
  let top := segBase seg + 256 * (910 * n + 1)
  ((List.range n).foldl (fun t i => t.zeroLines (segBase (seg + i)) (segBase seg) top) s).putHead (newRegion s seg n ctx)

/-- SETCLASS that forms or discards a region (R92, R109). -/
def FormsRegions : Prop :=
  ∀ (s : State) (d a b : BitVec 5) (seg : Nat) (e : Rights),
    let v := (s.g b).bits
    let n := fld v 0 12
    let ctx : U64 := v.extractLsb' 64 64
    let i := Instr.setclass d a b
    resIndex (mkRes 5 seg) = seg → resKind (mkRes 5 seg) = 5 →
    (Selects s a (mkRes 5 seg) 1 → 0 < n → fld v 12 52 = 0 → resKind ctx = 6 → resValid ctx = true → ctxKind (resIndex ctx) = 5 →
      (∀ j, j < n → resValid (mkRes 5 (seg + j)) = true ∧ HeldByMe s (mkRes 5 (seg + j))) → s.ownOf seg = some e →
      (∀ j, j < n → ∃ x, s.ownOf (seg + j) = some x ∧ x.place = 2 ∧ x.sealedSeg = e.sealedSeg ∧ x.key = e.key ∧ x.named = false ∧ x.migration = 0 ∧ x.cls = e.cls) →
      HeldByMe s ctx →
      Answers i s { formed s seg n ctx with
        rights := (formed s seg n ctx).rights.map (fun x => if x.frame = false ∧ seg ≤ x.index ∧ x.index < seg + n then { x with named := true } else x) } d 0 0)
    ∧ (Selects s a (mkRes 5 seg) 2 → v = 0 → HeldByMe s (mkRes 5 seg) →
        (∀ r, s.region seg = some r → Answers i s (s.discardRegion r) d 0 0) ∧ (s.region seg = none → Denies i s d 4 0))

/-- The state with one ring entry of a core changed. -/
def withRota (s : State) (id : U64) (f : Rota → Rota) : State :=
  s.putCore { s.core (resCore id) with rota := (s.core (resCore id)).rota.mapFinIdx (fun k x _ => if k = resRota id then f x else x) }

/-- SETCLASS of a core-time entry (R287, R341). -/
def SetsRota : Prop :=
  ∀ (s : State) (d a b : BitVec 5) (id : U64) (k : Nat),
    let v := (s.x b).toNat
    let core := s.entry (mkRes 1 (resCore id))
    let e := s.entry id
    let i := Instr.setclass d a b
    let short := e.state = .lent ∧ v ≠ 0 ∧ v * 1750 < (s.rotaOf id).budget.toNat + 2 * 1750
    resKind id = 2 → Selects s a id k →
    (k = 3 → (e.user = s.self.owner → Answers i s (withRota s id (fun x => { x with handler := if s.isRevoked (s.g b) then (s.g b).untag else s.g b })) d 0 0)
        ∧ (e.user ≠ s.self.owner → Denies i s d 1 0))
    ∧ (k < 3 → (s.g b).bits.toNat < 2 ^ 32 → core.holder ≠ s.self.owner → Denies i s d 1 0)
    ∧ (k < 3 → (s.g b).bits.toNat < 2 ^ 32 → core.holder = s.self.owner →
        (k = 0 → short → Denies i s d 6 0)
        ∧ (k = 0 → ¬short → Answers i s (withRota s id (fun x => { x with slice := BitVec.ofNat 32 v })) d 0 0)
        ∧ (k = 1 → Answers i s (withRota s id (fun x => { x with limit := BitVec.ofNat 32 v })) d 0 0)
        ∧ (k = 2 → e.state = .lent → Denies i s d 2 4)
        ∧ (k = 2 → e.state ≠ .lent → Answers i s (withRota s id (fun x => { x with budget := BitVec.ofNat 32 v })) d 0 0))

/-- A way unit joins the floor of a class. -/
def joined (s : State) (die : BitVec 2) (way : Nat) (c : BitVec 6) : State :=
  let x := s.cls die c
  let u := s.putCls { x with owner := s.self.owner, floor := x.floor + 1, ways := x.ways + 1, ceiling := max x.ceiling (x.floor + 1) }
  { u with ways := u.ways.filter (fun w => !(w.1 == die && w.2.1 == way)) ++ [(die, way, c)] }

/-- SETCLASS of an L2 way unit (R87, R341). -/
def SetsWays : Prop :=
  ∀ (s : State) (d a b : BitVec 5) (id : U64) (k : Nat),
    let v := (s.g b).bits.toNat
    let die := BitVec.ofNat 2 (resIndex id / 32)
    let way := resIndex id % 32
    let i := Instr.setclass d a b
    let c := BitVec.ofNat 6 v
    let cur := s.wayClass die way
    resKind id = 9 → Selects s a id k →
    (k = 0 → v < 64 → ¬HeldByMe s id → Denies i s d 1 0)
    ∧ (k = 0 → v < 64 → HeldByMe s id → (s.cls die c).owner ≠ 0 → (s.cls die c).owner ≠ s.self.owner → Denies i s d 1 0)
    ∧ (k = 0 → v < 64 → HeldByMe s id → ((s.cls die c).owner = 0 ∨ (s.cls die c).owner = s.self.owner) →
        (cur = some c → Denies i s d 0 0)
        ∧ (cur ≠ some c → s.wayPins die.toNat way = true → Denies i s d 0x10 0)
        ∧ (cur ≠ some c → s.wayPins die.toNat way = false →
            Answers i s (joined (match cur with | some x => s.leaveClass die x | none => s.leavePool die way) die way c) d 0 0))
    ∧ (k = 1 → v = 0 → HeldByMe s id → s.wayPins die.toNat way = true → Denies i s d 0x10 0)
    ∧ (k = 1 → v = 0 → HeldByMe s id → s.wayPins die.toNat way = false →
        (cur = none → Denies i s d 0 0)
        ∧ ∀ x, cur = some x → let t := s.leaveClass die x
            Answers i s { t with pool := t.pool ++ [(die, way)], ways := t.ways.filter (fun w => !(w.1 == die && w.2.1 == way)) } d 0 0)
    ∧ (k = 2 → 32 < v → v < 64 → Denies i s d 0x11 0)
    ∧ (k = 2 → v ≤ 32 → ∀ x, cur = some x →
        ((s.cls die x).owner ≠ s.self.owner → Denies i s d 1 0)
        ∧ ((s.cls die x).owner = s.self.owner →
            let top := max v (s.cls die x).floor
            let t := if top < (s.cls die x).ways then s.loseWay die x (decide (top = 0)) else s
            Answers i s (t.putCls { s.cls die x with ceiling := top, ways := min (s.cls die x).ways top }) d 0 0))

/-- The units of a range, of one kind. -/
def RangeOf (first : U64) (n : Nat) (units : List Unit30) : Prop :=
  resValid first = true ∧ units = (List.range n).map (fun j => { frame := decide (resKind first = 4), index := resIndex first + j })
    ∧ ((resKind first = 4 ∧ resIndex first + n ≤ 73728)
      ∨ (resKind first = 5 ∧ resIndex first < 2 ^ 26 ∧ resIndex first + n ≤ 2 ^ 26)
      ∨ (resKind first = 5 ∧ 2 ^ 26 ≤ resIndex first ∧ resIndex first + n ≤ 2 ^ 26 + 2 ^ 27))

/-- A sweep context handle that REVOKE takes (R342). -/
def SweepHandle (s : State) (h : Cap) (ci : Nat) : Prop :=
  h.tag = true ∧ h.otype = 4 ∧ s.isRevoked h = false ∧ s.ctxCurrent (handleCtx h) (handleGen h) = true ∧ ctxKind (handleCtx h) = 6 ∧ ci = handleCtx h

/-- REVOKE (R342). -/
def Revokes : Prop :=
  ∀ (s : State) (d a b : BitVec 5) (units : List Unit30) (ci : Nat),
    let n := (s.g a).bits.toNat / 2 ^ 64
    let i := Instr.revoke d a b
    ((s.g b).tag = false → s.self.park = .no → exec i s = .next (s.trap 0x03 0))
    ∧ (s.self.park = .no → SweepHandle s (s.g b) ci →
        (n = 0 ∨ 65536 < n → Refuses i s d 0x11 64)
        ∧ (0 < n → n ≤ 65536 → RangeOf (s.x a) n units →
            (s.lapsed s.self.owner = true → Refuses i s d 10 0)
            ∧ (s.lapsed s.self.owner = false → (∃ u ∈ units, ¬MayUse s (mkRes (if u.frame then 4 else 5) u.index)) → Refuses i s d 1 0)
            ∧ (s.lapsed s.self.owner = false → (∀ u ∈ units, MayUse s (mkRes (if u.frame then 4 else 5) u.index)) →
                let t := { s with revoked := s.revoked ++ units.filter (fun u => !s.revoked.contains u) }
                (32 ≤ (s.ctx ci).waiting.length → exec i s = .next (t.wait (.ctxRoom ci)))
                ∧ ((s.ctx ci).waiting.length < 32 →
                    let r := t.sweepOn units (some ci) (s.x a)
                    Completes i s ((chipCut r.1).setG d { bits := BitVec.ofNat 64 r.2 ++ statusWord 0 r.2, tag := false })))))

/-- A frame that SCRUB takes: a HELD frame that backs nothing, or a RETIRED one (R343). -/
def Scrubs (s : State) (f : U64) : Prop :=
  resValid f = true ∧ (s.entry f).holder = s.self.owner ∧ ((s.entry f).state = .retired
    ∨ ((s.entry f).state = .held ∧ (s.entry f).recovery = none ∧ s.backs f = false))

/-- The frames that SCRUB names, those it zeroes and those withdrawn. -/
def scrubbed (s : State) (a : BitVec 5) : List U64 := (List.range ((s.g a).bits.toNat / 2 ^ 64)).map (fun i => s.x a + BitVec.ofNat 64 i)

/-- SCRUB (R57, R343): each frame is zeroed; one whose rewriting fails is retired, and listed as withdrawn. -/
def ScrubsFrames : Prop :=
  ∀ (s : State) (d a b : BitVec 5),
    let n := (s.g a).bits.toNat / 2 ^ 64
    let i := Instr.scrub d a b
    let l := scrubbed s a
    let t := (l.filter (fun f => (s.entry f).state != .retired)).foldl State.scrubFrame s
    let gone := l.filter (fun f => (t.entry f).state == .retired)
    let done := l.filter (fun f => (t.entry f).state != .retired)
    (∀ f, let z := { s.zeroFrame f with free := s.free + 1 }
      s.scrubFrame f = z ∨ (resKind f = 3 ∧ s.scrubFrame f = (z.retireEntry f).countRetired))
    ∧ (n = 0 ∨ 4096 < n → Denies i s d 0x11 64)
    ∧ (0 < n → n ≤ 4096 → resKind (s.x a) = 3 ∨ resKind (s.x a) = 11 → (∀ f ∈ l, Scrubs s f) → s.self.sent = [] →
        ((s.g b).tag = false → Answers i s t d 0 gone.length)
        ∧ ((s.g b).tag = true → (s.g b).otype = 0 → s.revokedAddr (s.g b).bounds.base.toNat = false → (s.g b).holds .w = true →
            (s.g b).inBounds (s.x b).toNat (608 + 8 * n) = true → s.laneCheck b (s.g b) .w true false (longLanes (s.x b) (608 + 8 * n)) (s.x b) = .ok () →
            let receipt := t.receipt (s.receipts + 1) done gone
            ∀ u, t.saveLanes b (s.g b) false (longLanes (s.x b) (608 + 8 * n)) (s.x b) (fun i => ofBytesLE ((receipt.drop (256 * i)).take 256)) = .ok u →
              Completes i s (({ u with receipts := s.receipts + 1, free := u.free + 1 } : State).setG d
                { bits := BitVec.ofNat 64 (s.receipts + 1) ++ statusWord 0 gone.length, tag := false })))

/-- SHARE (R344). -/
def Shares : Prop :=
  ∀ (s : State) (d a b : BitVec 5),
    let id := s.x a
    let w := (s.x b).toNat
    let o : U16 := BitVec.ofNat 16 w
    let ask := w / 2 ^ 16
    let i := Instr.share d a b
    let frame := decide (resKind id = 4)
    let unit := resIndex id
    let mine (e : Rights) : Bool := e.owner == o && e.frame == frame && e.index == unit
    w < 2 ^ 20 → resKind id = 4 ∨ resKind id = 5 → resValid id = true →
    (Borrows s id → Denies i s d 5 0)
    ∧ (¬Borrows s id → ¬HeldByMe s id → Denies i s d 1 0)
    ∧ (HeldByMe s id → s.lives o = false ∨ o = s.self.owner → Denies i s d 4 0)
    ∧ (HeldByMe s id → s.lives o = true → o ≠ s.self.owner →
        (ask = 0 → let t := if frame = false ∧ s.rights.any mine = true then s.writeBackSeg unit else s
            Answers i s { t with rights := t.rights.filter (fun e => !mine e) } d 0 0)
        ∧ (ask ≠ 0 → s.rightsOn s.self.owner frame unit = none → ∃ k, Denies i s d 0x11 k)
        ∧ ∀ own, ask ≠ 0 → s.rightsOn s.self.owner frame unit = some own →
            (ask / 8 % 2 = 1 → own.r = true) → (ask / 4 % 2 = 1 → own.w = true) → (ask / 2 % 2 = 1 → own.x = true) → (ask % 2 = 1 → own.c = true) →
            let t := s.keepHostRights unit
            ∀ pos, (∃ e, t.rights.find? mine = some e ∧ pos = e.pos) ∨ (t.rights.find? mine = none ∧ t.rightsPos o frame unit = some pos) →
              Answers i s (t.putRights { own with
                owner := o, r := decide (ask / 8 % 2 = 1), w := decide (ask / 4 % 2 = 1), x := decide (ask / 2 % 2 = 1), c := decide (ask % 2 = 1)
                own := false, pos := pos, pin := none }) d 0 0)

end Sys2Proof.Claims

/-- R338 to R344: what MAP, UNMAP, SETCLASS in each of its fields, REVOKE, SCRUB and SHARE do and refuse. Which position of a store an
entry takes, and at which position of a class a segment is pinned, are the model's functions of R65, R72 and R76. (The model's choices: the
details of logs 44 and 45, the order of SCRUB's and REVOKE's checks, log 48, a retired frame's last holder, log 33, classes without ways, log 101.) -/
def Obligations.mappings : Prop :=
  Claims.Maps ∧ Claims.Unmaps ∧ Claims.SetsAttributes ∧ Claims.FormsRegions ∧ Claims.SetsRota ∧ Claims.SetsWays ∧ Claims.Revokes
    ∧ Claims.ScrubsFrames ∧ Claims.Shares

/-! ### Swatch regions (R92 to R109, R345, R346) -/

namespace Sys2Proof.Claims

/-- The region capability in ga reaches region `r` (R96). -/
def Reaches (s : State) (a : BitVec 5) (r : Region) (write : Bool) : Prop :=
  let c := s.g a
  c.tag = true ∧ c.otype = 0 ∧ s.revokedAddr c.bounds.base.toNat = false ∧ c.holds .sw = true ∧ s.regionAt (s.localAddr (s.x a).toNat) = some r
    ∧ c.inBounds (s.x a).toNat 256 = true ∧ ∃ e, s.rightsOn s.self.owner false r.seg = some e ∧ e.r = true ∧ (write = true → e.w = true)

/-- SWNAME, SWHASH, SWREAD and SWWALK act on local regions only (R103). -/
def Local (s : State) (a : BitVec 5) : Prop := isFabric (s.x a) = false

/-- The source of SWNAME and SWHASH passes as a data load of 256 bytes (R99), and `u` is the state after that load, which brings `c`. -/
def Source (s : State) (b : BitVec 5) : Prop := LanesPass s (s.g b) .r false false 256 [0] (fun _ => s.x b)
def Read (s u : State) (b : BitVec 5) (c : BitVec 2048) : Prop :=
  let x := laneOf s (fun _ => s.x b) 256 false 0
  u = { s with self := { s.self with watchTrap := u.self.watchTrap }, recs := u.recs, free := u.free }
    ∧ RecordedAll s u [x] ∧ WatchedAll s u [(x, 0)] ∧ MayRead s (s.localAddr (s.x b).toNat) 256 c.toNat

/-- An untagged 128-bit result. -/
def word128 (x : U128) : Cap := { bits := x, tag := false }
/-- A failure (R99): bits [127:64] zero, the status, the detail. -/
def failure (code detail : Nat) : U128 := 0#64 ++ statusWord code detail

/-- The hash of content (R97): the leading 120 bits of SHA-512 over the salt, a byte for the kind, and the content; index 0 below them. -/
def hashOf (r : Region) (c : BitVec 2048) (node : Bool) : U128 :=
  let h := sha512 (bytesBE 32 (Config.salt r.salt).toNat ++ [if node then 2#8 else 1#8] ++ bytesLE 256 c.toNat)
  BitVec.ofNat 128 (ofBytesBE (h.take 15) * 2 ^ 8)

/-- The lines of a region, 256 bytes each (R93): the header, 910 index lines for each segment, the data lines. -/
def lineAddr (r : Region) (line : Nat) : Nat := segBase r.seg + 256 * line
def dataAddr (r : Region) (l : Nat) : Nat := lineAddr r (910 * r.n + 1 + l)
/-- The lines that a look-up by a hash needs (R99): the header, and 64 index lines from the one that the hash names on, round the end. -/
def lookup (r : Region) (h : U128) : List Nat :=
  lineAddr r 0 :: (List.range 64).map (fun k => lineAddr r (1 + (h.toNat / 2 ^ 96 % (910 * r.n) + k) % (910 * r.n)))
/-- What the lines of a look-up stop it with, and those of an operation on a name: of a live swatch, the data line's page besides. -/
def stopAt (s : State) (r : Region) (h : U128) : Option SwEnd := s.linesBad (lookup r h)

/-- R80, R83, R109: what stops an operation that needs some lines: an absent page of any of them, else the first that is lost or fails its
MAC. -/
def LinesStop : Prop :=
  ∀ (s : State) (l : List Nat),
    let good (a : Nat) : Prop := s.isPoisoned a = false ∧ s.macOk a = true
    ((∃ a ∈ l, s.isAbsent a = true) → s.linesBad l = some (.swatch 5))
    ∧ ((∀ a ∈ l, s.isAbsent a = false) →
        ((∀ a ∈ l, good a) → s.linesBad l = none)
        ∧ ∀ pre a post, l = pre ++ a :: post → (∀ x ∈ pre, good x) →
            (s.isPoisoned a = true → s.linesBad l = some (.lost a))
            ∧ (s.isPoisoned a = false → s.macOk a = false → s.linesBad l = some (.integrity a)))

/-- R95: an index entry is 32 bytes: its zero field, kind, state, line, count and name, from the lowest; and only one in state live is met. -/
def IndexEntries : Prop :=
  ∀ (e : SwEntry) (state : BitVec 2), e.line < 2 ^ 32 →
    (e.bits state).toNat = ((if e.node then 2 else 1) * 2 ^ 60 + state.toNat * 2 ^ 62 + e.line * 2 ^ 64 + e.count.toNat * 2 ^ 96 + e.name.toNat * 2 ^ 128 : Nat)
    ∧ (state = 1 → liveEntry e.pos (e.bits state) = some e) ∧ (state ≠ 1 → liveEntry e.pos (e.bits state) = none)

/-- R94: the header's 32 bytes, as a number: salt owner, segments, data lines, live swatches, free lines, release context, last number. -/
def Headers : Prop :=
  ∀ (r : Region), r.n < 2 ^ 12 → r.live < 2 ^ 32 → r.lastRel.toNat < 2 ^ 64 →
    r.header.length = 32 ∧
    ofBytesLE r.header = r.saltOwner.toNat + r.n * 2 ^ 16 + 7280 * r.n * 2 ^ 32 + r.live * 2 ^ 64 + (7280 * r.n - r.used.length) * 2 ^ 96
      + r.relCtx.toNat * 2 ^ 128 + r.lastRel.toNat * 2 ^ 192

/-- The instruction ends with what stopped its unit (R100): a swatch trap with its detail; data lost and integrity at the region capability. -/
def StopsBy (i : Instr) (s u : State) (a : BitVec 5) (e : SwEnd) : Prop :=
  match e with
  | .swatch k => exec i s = .next (u.trap 0x10 (BitVec.ofNat 64 k))
  | .lost l => exec i s = .next (u.accStop (.dataLost l) (s.x a) 0 [u.acc l 256 true false false])
  | .integrity l => exec i s = .next (u.accStop (.integrity l) (s.x a) 0 [u.acc l 256 true false false])
  | _ => False

/-- An entry of the probe window of content's hash that names it (R99): live, of its hash and kind, with that content. -/
def Names (s : State) (r : Region) (h : U128) (c : BitVec 2048) (node : Bool) (e : SwEntry) : Prop :=
  e ∈ s.window r h ∧ e.name.toNat / 2 ^ 8 = h.toNat / 2 ^ 8 ∧ e.node = node ∧ s.content r e.line = c

/-- Every entry of the window that may match has its data line present. -/
def LinesPresent (s : State) (r : Region) (h : U128) (node : Bool) : Prop :=
  ∀ e ∈ s.window r h, e.name.toNat / 2 ^ 8 = h.toNat / 2 ^ 8 → e.node = node → s.isAbsent (dataAddr r e.line) = false

/-- A swatch comes to be at a position and a line (R99): its content in the data line, the counts of its children raised, its entry live
with count 1, the header. -/
def withSwatch (u : State) (r : Region) (c : BitVec 2048) (node : Bool) (name : U128) (p l : Nat) : State :=
  let t := u.unitWrite (dataAddr r l) (bytesLE 256 c.toNat)
  let v := if node then ((children c).filter (· != 0)).foldl (fun v n => v.addRef r n) t else t
  (v.putSw r { pos := p, name := name, count := 1, line := l, node := node } 1).putHead { r with used := setAdd r.used l, live := r.live + 1 }

/-- A child of a node that is in place: none, or a live swatch whose look-up nothing stops. -/
def ChildHere (s : State) (r : Region) (n : U128) : Prop := n = 0 ∨ (stopAt s r n = none ∧ (s.liveIn r n).isSome = true)

/-- SWNAME and SWHASH (R97, R99, R104). -/
def NamesContent : Prop :=
  ∀ (s : State) (d a b : BitVec 5) (k : BitVec 2) (r : Region),
    let node := decide (k = 2)
    let hash := Instr.swhash d a b k
    let i := Instr.swname d a b k
    Local s a → Source s b →
    (Reaches s a r false → ∃ u c, Read s u b c
      ∧ ((hashOf r c node).toNat / 2 ^ 72 = 0 → exec hash s = .next (u.trap 0x10 1))
      ∧ ((hashOf r c node).toNat / 2 ^ 72 ≠ 0 → Completes hash s (u.setG d (word128 (hashOf r c node)))))
    ∧ (Reaches s a r true → s.self.swDefer = false → ∃ u c, Read s u b c
      ∧ let h := hashOf r c node
        (h.toNat / 2 ^ 72 = 0 → exec i s = .next (u.trap 0x10 1))
        ∧ (h.toNat / 2 ^ 72 ≠ 0 → ∀ e, stopAt u r h = some e → StopsBy i s u a e)
        ∧ (h.toNat / 2 ^ 72 ≠ 0 → stopAt u r h = none → ¬LinesPresent u r h node → exec i s = .next (u.trap 0x10 5))
        ∧ (h.toNat / 2 ^ 72 ≠ 0 → stopAt u r h = none → LinesPresent u r h node →
          (∀ e, Names u r h c node e → (∀ f, Names u r h c node f → f = e) →
            (∀ x, u.lineBad (dataAddr r e.line) = some x → StopsBy i s u a x)
            ∧ (u.lineBad (dataAddr r e.line) = none → Completes i s ((u.addRef r e.name).setG d (word128 e.name))))
          ∧ ((∀ f, ¬Names u r h c node f) →
              (∀ j, node = true → j < 16 → child c j ≠ 0 → (∀ k, k < j → ChildHere u r (child c k)) →
                (∀ e, stopAt u r (child c j) = some e → StopsBy i s u a e)
                ∧ (stopAt u r (child c j) = none → u.liveIn r (child c j) = none → Completes i s (u.setG d (word128 (failure 1 j)))))
              ∧ ((node = true → ∀ j, j < 16 → ChildHere u r (child c j)) →
                  (collision (u.window r h) h = none → exec i s = .next (u.trap 0x10 1))
                  ∧ ∀ x, collision (u.window r h) h = some x →
                      (r.place (u.window r h) h = none ∨ r.freeCount = 0 → exec i s = .next (u.trap 0x10 2))
                      ∧ ∀ p, r.place (u.window r h) h = some p → r.freeCount ≠ 0 →
                          let l := r.pickLine (Config.freeLine u.free % r.freeCount)
                          let v := { u with free := u.free + 1 }
                          let name := h ||| BitVec.ofNat 128 x
                          (u.isAbsent (dataAddr r l) = true → exec i s = .next (v.trap 0x10 5))
                          ∧ (u.isAbsent (dataAddr r l) = false → Completes i s ((withSwatch v r c node name p l).setG d (word128 name)))))))

/-- What stops an operation on a name. -/
def nameStop (s : State) (r : Region) (name : U128) : Option SwEnd :=
  match stopAt s r name with
  | some e => some e
  | none => (s.liveIn r name).bind (fun e => if s.isAbsent (dataAddr r e.line) = true then some (.swatch 5) else none)

/-- SWREAD (R104). -/
def ReadsSwatch : Prop :=
  ∀ (s : State) (d a b v : BitVec 5) (r : Region),
    let name := (s.g b).bits
    let i := Instr.swread d a b v
    Local s a → Reaches s a r false → s.self.swDefer = false →
    (∀ e, nameStop s r name = some e → StopsBy i s s a e)
    ∧ (nameStop s r name = none →
        (s.liveIn r name = none → Completes i s (((s.setV v 0).setV (v + 1) 0).setG d (word128 (failure 1 0))))
        ∧ ∀ e, s.liveIn r name = some e →
            (∀ x, s.lineBad (dataAddr r e.line) = some x → StopsBy i s s a x)
            ∧ (s.lineBad (dataAddr r e.line) = none → ∃ x y : Vec, x.toNat + y.toNat * 2 ^ 1024 = (s.content r e.line).toNat
                ∧ Completes i s (((s.setV v x).setV (v + 1) y).setG d (word128 (failure 0 (if e.node then 2 else 1))))))

/-- A walk's first `j` steps, by the names at their levels (R104): each is a live node whose selected child is the next name. -/
def Steps (s : State) (r : Region) (path : U64) (at0 : Nat → U128) (j : Nat) : Prop :=
  ∀ i, i < j → nameStop s r (at0 i) = none ∧ ∃ e, s.liveIn r (at0 i) = some e ∧ s.lineBad (dataAddr r e.line) = none ∧ e.node = true
    ∧ child (s.content r e.line) (path.toNat / 2 ^ (4 * i + 4) % 16) = at0 (i + 1) ∧ at0 (i + 1) ≠ 0

/-- SWWALK (R104): the name reached, or the first failure with its level. -/
def Walks : Prop :=
  ∀ (s : State) (d a b : BitVec 5) (r : Region) (at0 : Nat → U128) (j : Nat),
    let path := s.x d
    let depth := path.toNat % 16
    let i := Instr.swwalk d a b
    let fails (code : Nat) : Prop := Completes i s (s.setG d (word128 (failure code j)))
    Local s a → Reaches s a r false → s.self.swDefer = false → at0 0 = (s.g b).bits → Steps s r path at0 j → j ≤ depth →
    (∀ e, nameStop s r (at0 j) = some e → StopsBy i s s a e)
    ∧ (nameStop s r (at0 j) = none →
        (s.liveIn r (at0 j) = none → fails 1)
        ∧ (j = depth → (s.liveIn r (at0 j)).isSome = true → Completes i s (s.setG d (word128 (at0 j))))
        ∧ ∀ e, j < depth → s.liveIn r (at0 j) = some e →
            (∀ x, s.lineBad (dataAddr r e.line) = some x → StopsBy i s s a x)
            ∧ (s.lineBad (dataAddr r e.line) = none → e.node = false → fails 5)
            ∧ (s.lineBad (dataAddr r e.line) = none → e.node = true → child (s.content r e.line) (path.toNat / 2 ^ (4 * j + 4) % 16) = 0 → fails 4))

/-- The region without a swatch that is freed (R102), and the state: its entry freed with its name kept, its line zeroed, the header. -/
def without (r : Region) (e : SwEntry) : Region := { r with used := r.used.filter (· != e.line), live := r.live - 1 }
def freedIn (s : State) (r : Region) (e : SwEntry) : State :=
  ((s.putSw r { e with count := 0 } 2).unitWrite (dataAddr r e.line) (List.replicate 256 0#8)).putHead (without r e)

/-- SWREF and SWREL on this device (R101, R102), and the failures that all members share (R96, R100). -/
def CountsNames : Prop :=
  ∀ (s : State) (d a b : BitVec 5) (r : Region),
    let name := (s.g b).bits
    let ref := Instr.swref d a b
    let rel := Instr.swrel d a b
    let x := s.x a
    (isFabric x = true → (s.g a).holds .fb = true) → s.remoteOf x.toNat = none → s.self.sent = [] → Reaches s a r true → s.self.swDefer = false →
    (∀ i ∈ [ref, rel], ∀ e, nameStop s r name = some e → StopsBy i s s a e)
    ∧ (nameStop s r name = none →
        (∀ i ∈ [ref, rel], (s.liveIn r name = none → Completes i s (s.setG d (word128 (failure 1 0))))
          ∧ ∀ e, s.liveIn r name = some e → e.count = 0xFFFFFFFF → Completes i s (s.setG d (word128 (failure 2 0))))
        ∧ ∀ e, s.liveIn r name = some e → e.count ≠ 0xFFFFFFFF →
            Completes ref s ((s.putSw r { e with count := e.count + 1 } 1).setG d (word128 (failure 0 0)))
            ∧ (e.count ≠ 1 → Completes rel s ((s.putSw r { e with count := e.count - 1 } 1).setG d (word128 (failure 0 0))))
            ∧ (e.count = 1 → e.node = false → Completes rel s ((freedIn s r e).setG d (word128 (failure 3 0))))
            ∧ (e.count = 1 → e.node = true → ((freedIn s r e).ctx r.ctxIndex).waiting.length < 32 →
                let bad := (s.lineBad (dataAddr r e.line)).isSome
                let freed := HeldRelease.mk (if bad then [] else children (s.content r e.line)) bad (some s.nextTxn) none none
                let t := (freedIn s r e).enterRelease (without r e) freed
                Completes rel s (t.1.setG d (word128 (BitVec.ofNat 64 t.2 ++ statusWord 3 t.2)))))

/-- SWREF and SWREL through a fabric window to another device: the request travels, the reply completes the instruction (R103, R109). -/
def CountsAfar : Prop :=
  ∀ (s : State) (d a b : BitVec 5) (dev : BitVec 14) (off : Nat) (rel : Bool),
    let c := s.g a
    let i := if rel then Instr.swrel d a b else .swref d a b
    c.tag = true → c.otype = 0 → s.revokedAddr c.bounds.base.toNat = false → c.holds .sw = true → c.holds .fb = true → s.remoteOf (s.x a).toNat = some (dev, off) →
    (c.inBounds (s.x a).toNat 256 = false → exec i s = .next (s.trap 0x10 3))
    ∧ (c.inBounds (s.x a).toNat 256 = true →
      (s.self.sent = [] → s.self.replies = [] → s.self.park.alone = false → exec i s = .next ((s.sendOne (dev, fun n => .swatch dev { s.request off 16 with
        txn := n, op := if rel then 1 else 0, data := word128 (s.g b).bits })).wait .reply))
      ∧ ∀ n r, s.self.sent = [n] → s.self.replies.find? (fun x => x.txn == n) = some r →
        let t := s.setSelf (fun x => { x with sent := [], replies := [] })
        (r.status = 0 → Completes i s (t.setG d (word128 r.value.bits)))
        ∧ (r.status = 0x15 → exec i s = .next (t.trap 0x10 3))
        ∧ (r.status = 0x06 → exec i s = .next (t.trap 0x10 5))
        ∧ (r.status = 0x05 → exec i s = .next (t.trap 0x07 (s.x a)))
        ∧ (r.status = 0x03 → exec i s = .next (t.trap 0x05 (s.x a)))
        ∧ (r.status = 0x0E → exec i s = .next (t.trap 0x11 (s.x a))))

/-- The failures of a region capability (R96, R100): no region, no rights, a fabric window. -/
def RegionStops : Prop :=
  ∀ (s : State) (d a b v : BitVec 5) (k : BitVec 2),
    let c := s.g a
    let x := s.x a
    let ok := c.tag = true ∧ c.otype = 0 ∧ s.revokedAddr c.bounds.base.toNat = false ∧ c.holds .sw = true
    let local4 := [Instr.swname d a b k, .swhash d a b k, .swread d a b v, .swwalk d a b]
    let counts := [Instr.swref d a b, .swrel d a b]
    let here (i : Instr) : Prop := (i ∈ local4 ∧ isFabric x = false)
      ∨ (i ∈ counts ∧ (isFabric x = true → c.holds .fb = true) ∧ s.remoteOf x.toNat = none ∧ s.self.sent = [])
    (∀ i ∈ local4 ++ counts, c.tag = false → exec i s = .next (s.trap 0x03 x))
    ∧ (ok →
      (∀ i ∈ local4, isFabric x = true → exec i s = .next (s.trap 0x10 4))
      ∧ (∀ i ∈ counts, isFabric x = true → c.holds .fb = false → exec i s = .next (s.trap 0x05 x))
      ∧ (∀ i, here i → s.regionAt (s.localAddr x.toNat) = none → exec i s = .next (s.trap 0x10 3))
      ∧ ∀ i r, here i → s.regionAt (s.localAddr x.toNat) = some r →
        (c.inBounds x.toNat 256 = false → exec i s = .next (s.trap 0x10 3))
        ∧ (c.inBounds x.toNat 256 = true → (∀ e, s.rightsOn s.self.owner false r.seg = some e → e.r = false ∨ e.w = false ∧ i ∈ .swname d a b k :: counts) →
            exec i s = .next (s.trap 0x07 x)))

/-- R353: a swatch instruction whose request is to reach its unit after a later one of its window is complete, and its request on its way. -/
def SetsLater : Prop :=
  ∀ (s : State) (d a b v : BitVec 5) (k : BitVec 2) (r : Region),
    s.self.swDefer = true →
    let later (u : State) (q : SwLater) : State := { u with self := { u.self with swLater := u.self.swLater ++ [q], swDefer := false } }
    let q : SwLater := { pc := s.pc, word := faulting s, member := 0, node := false, d := d, v := 0, cursor := s.x a, seg := r.seg, name := (s.g b).bits, path := 0, content := 0 }
    (Local s a → Reaches s a r false → Completes (.swread d a b v) s (later s { q with member := 2, v := v })
      ∧ Completes (.swwalk d a b) s (later s { q with member := 5, path := s.x d }))
    ∧ (Local s a → Reaches s a r true → Source s b → ∃ u c, Read s u b c
        ∧ Completes (.swname d a b k) s (later u { q with name := 0, node := decide (k = 2), content := c }))
    ∧ ((isFabric (s.x a) = true → (s.g a).holds .fb = true) → s.remoteOf (s.x a).toNat = none → s.self.sent = [] → Reaches s a r true →
        Completes (.swref d a b) s (later s { q with member := 3 }) ∧ Completes (.swrel d a b) s (later s { q with member := 4 }))

end Sys2Proof.Claims

/-- R94 to R104, R353: the SWT members on a region. SWNAME finds content or names it anew, SWHASH hashes it, SWREAD reads a swatch, SWREF
and SWREL count here and through a fabric window, SWWALK follows a path; with the failures and the traps in their order; an index entry's
bits and the header's. Which free data line a new swatch takes, and which requests of a window reach their unit late, are free values. (Which
pages an operation needs, and on which segment rights are judged, are the model's reading, log 102.) -/
def Obligations.swatches : Prop :=
  Claims.LinesStop ∧ Claims.IndexEntries ∧ Claims.Headers ∧ Claims.NamesContent ∧ Claims.ReadsSwatch ∧ Claims.Walks ∧ Claims.CountsNames
    ∧ Claims.CountsAfar ∧ Claims.RegionStops ∧ Claims.SetsLater

/-! ### Events (R5, R297 to R305, R393 to R412) -/

namespace Sys2Proof.Claims

/-- A link as it trains, at its full width and with its key (R393, R399). -/
def linkUp (link : Nat) (peer : BitVec 14) (key : BitVec 256) : Link :=
  let n := if link < 31 then 4 else 8
  { idx := link, peer := peer, up := true, full := n, width := n, draining := false, dark := false, key := key }

/-- The key that two assay cores agree (R401): the leading 256 bits of SHA-512 over their values, that of the lower device number first. -/
def agreedKey (dev peer : BitVec 14) (own theirs : BitVec 256) : BitVec 256 :=
  let l := if dev.toNat < peer.toNat then bytesBE 32 own.toNat ++ bytesBE 32 theirs.toNat else bytesBE 32 theirs.toNat ++ bytesBE 32 own.toNat
  BitVec.ofNat 256 (ofBytesBE ((sha512 l).take 32))

/-- A link that is out of use. -/
def linkOff (l : Link) : Link := { l with up := false, draining := false, dark := false }

/-- Link events (R393, R399, R400, R401, R409). -/
def LinkEvents : Prop :=
  ∀ (s : State) (link : Nat) (l : Link) (peer : BitVec 14) (signed : Bool),
    let trains := s.bootstat.getLsbD 2 = true ∧ signed = true ∧ link < 47 ∧ peer.toNat < 8192 ∧ s.devnum.toNat < 8192 ∧ peer ≠ s.devnum
      ∧ (∀ l, s.linkAt link = some l → l.up = false)
    let least := if link < 31 then 1 else 2
    let kept (t : State) : Prop := ∃ x ∈ t.links, x.up = true ∨ x.dark = true ∨ x.draining = true
    let down := s.putLink (linkOff l)
    (trains → ∃ own theirs, exec (.linkTraining link peer signed) s = .next
        { s.putLink (linkUp link peer (agreedKey s.devnum peer own theirs)) with unreachable := s.unreachable.filter (· != peer), free := s.free + 1 })
    ∧ (¬trains → exec (.linkTraining link peer signed) s = .next s)
    ∧ (s.linkAt link = none → ∀ i ∈ ([.linkNarrowing link, .linkDown link, .ocsDrainRequest link, .drainMarkerReturn link] : List Instr), exec i s = .next s)
    ∧ (s.linkAt link = some l →
        (l.up = false → exec (.linkNarrowing link) s = .next s)
        ∧ (l.up = true → least < l.width →
            exec (.linkNarrowing link) s = .next { s.putLink { l with width := l.width / 2 } with devstat := s.devstat ||| 9 })
        ∧ (l.up = true → l.width ≤ least → exec (.linkNarrowing link) s = exec (.linkDown link) s)
        ∧ (kept down → exec (.linkDown link) s = .next down)
        ∧ (¬kept down → exec (.linkDown link) s = .next (down.giveUp (fun _ => true)))
        ∧ (l.up = true → l.draining = false → 31 ≤ link →
            exec (.ocsDrainRequest link) s = .next { s.putLink { l with draining := true } with out := s.out ++ [.drainMarker link] })
        ∧ (¬(l.up = true ∧ l.draining = false ∧ 31 ≤ link) → exec (.ocsDrainRequest link) s = .next s)
        ∧ (l.draining = true → exec (.drainMarkerReturn link) s = .next (s.putLink { linkOff l with dark := true }))
        ∧ (l.draining = false → exec (.drainMarkerReturn link) s = .next s))
    ∧ (let held := (∃ x ∈ s.links, x.dark = true) ∧ ∀ x ∈ s.links, ¬(x.up = true ∧ x.peer = peer)
       (held → ∃ l, (∀ p, p ∈ l ↔ p = peer ∨ p ∈ s.unreachable)
          ∧ exec (.routeHoldTimeout peer) s = .next ({ s with unreachable := l }.giveUp (· == peer)))
       ∧ (¬held → exec (.routeHoldTimeout peer) s = .next s))

/-- The clock, the streams of PCI Express, benches that leave service (R5, R402, R412). -/
def ServiceEvents : Prop :=
  ∀ (s : State) (up : Bool) (link : BitVec 1) (bench : Nat),
    exec (.clockStep up) s = .next { s with
        clock := if up then (if s.clock + 25 ≤ 1750 then s.clock + 25 else s.clock) else (if 1025 ≤ s.clock then s.clock - 25 else s.clock) }
    ∧ (∃ l, (∀ k, k ∈ l ↔ k = link ∨ k ∈ s.ide) ∧ exec (.ideStreamKeying link) s = .next { s with ide := l })
    ∧ (96 ≤ bench → exec (.benchQuarantine bench) s = .next s)
    ∧ (bench < 96 → ∃ l, (∀ k, k ∈ l ↔ k = bench ∨ k ∈ s.quarantined)
        ∧ exec (.benchQuarantine bench) s = .next { s with quarantined := l, devstat := s.devstat ||| 5 })

/-- The bring-up block, and RESET (R56, R407 to R410, R414). -/
def BringUp : Prop :=
  ∀ (s : State) (v : U64) (bad : List Nat),
    let started := s.bootstat.getLsbD 2 = true
    let t := { s with startReg := v &&& 0x8000FFFFFFFFFFFF }
    let clear := { State.reset with
      free := s.free, nextTxn := s.nextTxn, nextId := s.nextId, out := s.out, boots := s.boots + 1, bootKeys := BootKeys.drawn (s.boots + 1) }
    (s.ide = [] → exec (.devnumWrite v) s = .next s ∧ exec (.start v) s = .next s)
    ∧ (s.ide ≠ [] →
        (started → exec (.devnumWrite v) s = .next s ∧ exec (.start v) s = .next t)
        ∧ (¬started → exec (.devnumWrite v) s = .next { s with devnum := BitVec.ofNat 14 v.toNat })
        ∧ (¬started → (v.getLsbD 63 = false ∨ s.bootstat.toNat % 4 ≠ 3) → exec (.start v) s = .next t)
        ∧ (¬started → v.getLsbD 63 = true → s.bootstat.toNat % 4 = 3 →
            exec (.start v) s = .next ({ t with bootstat := s.bootstat ||| 4 }.startTask 0 0 .seed 1
              (Cap.make 0xA60 0 hostBase (2 ^ 48) (hostBase + v.toNat % 2 ^ 48)) deviceRoot .zero (Cap.make 0x00C 0 0 256 0) .zero .zero)))
    ∧ exec (.reset false bad) s = .next { clear with bootstat := 0 }
    ∧ ∃ u, exec (.reset true bad) s = .next u ∧ u = { clear with entries := u.entries, devstat := u.devstat }
        ∧ (∀ id : U64, (∃ f ∈ bad, f < 172032 ∧ id = mkRes 3 f) → (u.entry id).state = .retired)
        ∧ ∀ id : U64, (¬∃ f ∈ bad, f < 172032 ∧ id = mkRes 3 f) → u.entry id = State.reset.entry id

/-- The host's work queues (R403 to R405, R414). -/
def HostQueues : Prop :=
  ∀ (s : State) (q : Nat) (link : BitVec 1) (whole : Bool) (w0 w1 w2 w3 : U128),
    let h := s.hostq q
    let push := Instr.hostPush q link whole w0 w1 w2 w3
    let reaches := link ∈ s.ide ∧ resValid (mkRes 7 q) = true
    let enters := whole = true ∧ h.ctx.isSome = true ∧ h.blocks.length < 16
    (¬reaches → exec push s = .next s)
    ∧ (reaches → enters → exec push s = .next (s.putHostq { h with blocks := h.blocks ++ [(w0, w1, w2, w3)] }))
    ∧ (reaches → ¬enters → exec push s = .next (s.putHostq { h with dropped := h.dropped + 1 }))
    ∧ (h.blocks = [] ∨ h.ctx = none → exec (.hostQueuePass q) s = .next s)
    ∧ ∀ x0 x1 x2 x3 rest ci gen, h.blocks = (x0, x1, x2, x3) :: rest → h.ctx = some (ci, gen) →
        ((s.ctx ci).gen ≠ gen → exec (.hostQueuePass q) s = .next (s.putHostq { h with blocks := rest, dropped := h.dropped + 1 }))
        ∧ ((s.ctx ci).gen = gen → 32 ≤ (s.ctx ci).waiting.length → exec (.hostQueuePass q) s = .next s)
        ∧ ((s.ctx ci).gen = gen → (s.ctx ci).waiting.length < 32 →
            let use := wordUse (x3.toNat % 2 ^ 8)
            let y0 := if use.1 = 0 then { bits := x0, tag := false } else s.deriveWord h.cap0 x0
            let y1 := if use.2 = 0 then { bits := x1, tag := false } else s.deriveWord h.cap1 x1
            let bad := (use.1 ≠ 0 ∧ y0.tag = false) ∨ (use.2 ≠ 0 ∧ y1.tag = false)
            ∃ doomed, (bad → doomed = some 4) ∧ (¬bad → doomed = none)
              ∧ exec (.hostQueuePass q) s = .next ((s.putHostq { h with blocks := rest }).accept ci y0 y1 (word128 x2) (word128 x3) none doomed))

/-- A reply with a status and nothing else goes to a device (R396). -/
def answered (s : State) (dev : BitVec 14) (txn : Nat) (status : U16) : State :=
  { s with
    out := s.out ++ [.reply dev { txn := txn, status := status, value := .zero, w4 := .zero, w5 := .zero, w6 := .zero, w7 := .zero, detail := 0 }] }

/-- Messages from other devices (R271, R273, R276, R277, R279). -/
def Arrivals : Prop :=
  ∀ (s : State) (core : Nat) (m : Msg) (r : FabricReq),
    let c := s.core core
    let dev : BitVec 14 := BitVec.ofNat 14 (m.origin.toNat / 2 ^ 13)
    let here := { m with replyLocal := false }
    let room := c.overflow = false ∧ Roomy c m.tail.length
    let heap := s.heapRoom (s.coreUser core) here = true
    (4608 ≤ core → exec (.messageArrival core m) s = .next s ∧ exec (.spawnHandler core r m) s = .next s)
    ∧ (core < 4608 → m.entry.tag = false →
        exec (.messageArrival core m) s = .next (answered s dev m.txn 5) ∧ exec (.spawnHandler core r m) s = .next (answered s r.device r.txn 1))
    ∧ (core < 4608 → m.entry.tag = true →
        (m.entry.otype = 2 → c.steward.length < 32 → exec (.messageArrival core m) s = .next (s.putCore { c with steward := c.steward ++ [here] }))
        ∧ (m.entry.otype = 2 → 32 ≤ c.steward.length → exec (.messageArrival core m) s = .next (answered s dev m.txn 1))
        ∧ (m.entry.otype ≠ 2 → room → exec (.messageArrival core m) s = .next (answered (posted s core here) dev m.txn 0))
        ∧ (m.entry.otype ≠ 2 → ¬room → heap → ∃ l, HeapPlace s (s.coreUser core) here l ∧ exec (.messageArrival core m) s = .next (answered (overflows s core here l) dev m.txn 0))
        ∧ (m.entry.otype ≠ 2 → ¬room → ¬heap → exec (.messageArrival core m) s = .next (answered s dev m.txn 1))
        ∧ (s.coreUser core = r.owner → room →
            exec (.spawnHandler core r m) s = .next (answered (posted s core { here with spawned := true }) r.device r.txn 0))
        ∧ (¬(s.coreUser core = r.owner ∧ room) → exec (.spawnHandler core r m) s = .next (answered s r.device r.txn 1)))

/-- Message tasks and steward requests start (R271, R275, R276, R280); a request is sent again (R279); a held record enters its queue
(R312). -/
def Starting : Prop :=
  ∀ (s : State) (core slot : Nat) (m : Msg) (rest : List Msg),
    let c := s.core core
    (c.inbox = [] → exec (.inboxTaskStart core) s = .next s)
    ∧ (c.inbox = m :: rest →
        (s.userMayRun core = false ∨ s.slotFor core (if m.spawned then m.place else 15) = none → exec (.inboxTaskStart core) s = .next s)
        ∧ ∀ i, s.userMayRun core = true → s.slotFor core (if m.spawned then m.place else 15) = some i →
            let u := (s.putCore { c with inbox := rest }).startTask core i (if m.spawned then .spawned else .message) (s.coreUser core)
              (if m.spawned then m.entry else m.entry.withOtype 0)
              { bits := BitVec.ofNat 128 (m.origin.toNat + m.emul.getD 0 % 256 * 2 ^ 64), tag := false } m.w4 m.w5 m.w6 m.w7
            exec (.inboxTaskStart core) s = .next (u.putSlot { (u.slot core i).withTail m.tail with answers := if m.emul.isSome then some m else none }))
    ∧ (c.steward = [] → exec (.stewardRequestStart core) s = .next s)
    ∧ (c.steward = m :: rest →
        ((s.slot core 8).role ≠ .free ∨ s.userMayRun core = false → exec (.stewardRequestStart core) s = .next s)
        ∧ ((s.slot core 8).role = .free → s.userMayRun core = true →
            let u := (s.putCore { c with steward := rest }).startTask core 8 .steward (s.coreUser core) (m.entry.withOtype 0) (Cap.ofInt m.origin)
              m.w4 m.w5 m.w6 m.w7
            exec (.stewardRequestStart core) s = .next (u.putSlot { u.slot core 8 with answers := some m })))
    ∧ (∀ due d async target, (s.slot core slot).resend = some due → (s.slot core slot).delegated = some (d, async, m, target) → due ≤ s.cycle →
        target < 8192 →
        ((s.core target).steward.length < 32 →
          let t := s.putCore { s.core target with steward := (s.core target).steward ++ [m] }
          exec (.dlgResend core slot) s = .next (t.putSlot { t.slot core slot with resend := none }))
        ∧ (32 ≤ (s.core target).steward.length →
          exec (.dlgResend core slot) s = .next (s.putSlot { s.slot core slot with resend := some (s.cycle + s.clock) })))
    ∧ (c.held = [] ∨ 64 ≤ c.events.length → exec (.eventRecordPost core) s = .next s)
    ∧ ∀ (x : EvRec) (more : List EvRec), c.held = x :: more → c.events.length < 64 →
        let t := (s.putCore { c with held := more }).enterEvent core x
        (x.source.toNat / 2 ^ 30 = 1 → exec (.eventRecordPost core) s = .next (t.advanceAll (x.source.toNat % 2 ^ 15)))
        ∧ (x.source.toNat / 2 ^ 30 ≠ 1 → exec (.eventRecordPost core) s = .next t)

/-- What a handler's execution comes to at an access that its checks pass: the state that performs the access, and the reply. -/
def served (s t : State) (r : FabricReq) (value : Cap) : State :=
  { t with out := t.out ++ [.reply r.device { txn := r.txn, status := 0, value := value, w4 := .zero, w5 := .zero, w6 := .zero, w7 := .zero, detail := 0 }] }

/-- The access of a handler for another device passes: rights and memory. -/
def HandlerPass (s : State) (r : FabricReq) (n : Nat) (write read atomic : Bool) : Prop := s.accErr (s.reqAcc r n write read atomic) = none

/-- Loads, stores, atomics and bulk stores for other devices (R396), where the access passes; a request that waits for a line's records,
a page or a fault queue is held, and is answered later. A bulk store that belongs to the chains of a launch is heard there (R259). -/
def Handlers : Prop :=
  ∀ (s : State) (r : FabricReq),
    let a := reqLocal r
    let right := ∃ e, s.rightsAt r.owner a = some e ∧ e.c = true
    let tagged := r.data.tag = true ∨ r.tagged = true
    let mayWrite := r.capability = true → tagged → right
    let xl := s.reqAcc r r.size false true (r.op == 11)
    let xs := s.reqAcc r r.size true false (r.op == 12)
    let xa := s.reqAcc r r.size (r.op != 11) (r.op != 12) true
    let value (n : Nat) : Cap := word128 (BitVec.ofNat 128 n)
    let drew (u : State) : Prop := u = s ∨ u = { s with free := s.free + 1 }
    (HandlerPass s r r.size false true (r.op == 11) → r.capability = false →
        (r.op ≠ 11 → ∃ n u, MayReadBy s xl.agent a r.size n ∧ drew u ∧ exec (.loadHandler r) s = .next (served s (u.performed xl id) r (value n)))
        ∧ (r.op = 11 → exec (.loadHandler r) s = .next (served s (s.performed xl id) r (value (bytesAt s a r.size)))))
    ∧ (HandlerPass s r r.size false true (r.op == 11) → r.capability = true →
        (r.op ≠ 11 → r.size = 16 → a % 16 = 0 → ∃ c u, MayReadCapBy s xl.agent a c ∧ drew u
          ∧ exec (.loadHandler r) s = .next (served s (u.performed xl id) r (s.fabricValue r c)))
        ∧ (r.op = 11 → exec (.loadHandler r) s = .next (served s (s.performed xl id) r (s.fabricValue r (s.capAt a)))))
    ∧ (HandlerPass s r r.size true false (r.op == 12) → r.capability = false →
        exec (.storeHandler r) s = .next (served s (s.performed xs (fun u => u.storeData a r.size r.data.bits.toNat)) r .zero))
    ∧ (HandlerPass s r r.size true false (r.op == 12) → r.capability = true → mayWrite →
        exec (.storeHandler r) s = .next (served s (s.performed xs (fun u => u.storeCap a r.data (u.dropRevoked r.data).tag)) r .zero))
    ∧ (HandlerPass s r r.size true false (r.op == 12) → r.capability = true → tagged → ¬right →
        exec (.storeHandler r) s = .next (answered s r.device r.txn 5))
    ∧ (HandlerPass s r r.size (r.op != 11) (r.op != 12) true → r.capability = true → tagged → ¬right →
        exec (.atomicHandler r) s = .next (answered s r.device r.txn 5))
    ∧ (HandlerPass s r r.size (r.op != 11) (r.op != 12) true → mayWrite →
        let v : Cap := if r.capability = true then s.capAt a else value (s.loadN a r.size)
        exec (.atomicHandler r) s = .next (served s (s.performed xa (fun u =>
              match atomNew r.op.toNat r.size v (s.dropRevoked r.data) r.expect with
              | none => u
              | some y => if r.capability = true then u.storeCap a y y.tag else u.storeData a r.size y.bits.toNat)) r (s.fabricValue r v)))
    ∧ (∀ n, r.chain = none → r.tail.length = n → HandlerPass s r n true false false → r.tags = [] →
        exec (.bulkStoreHandler r) s = .next (served s (s.performed (s.reqAcc r n true false false)
          (fun u => ((r.tail.zipIdx).foldl (fun w y => w.putByte (a + y.2) y.1) u).clearTags a n)) r .zero))
    ∧ (∀ n, r.chain = some n → exec (.bulkStoreHandler r) s = .next (s.takeChain n))
    ∧ (∀ i n w rd at0, (i = Instr.loadHandler r ∧ n = r.size ∧ w = false ∧ rd = true ∧ at0 = (r.op == 11))
          ∨ (i = Instr.storeHandler r ∧ n = r.size ∧ w = true ∧ rd = false ∧ at0 = (r.op == 12))
          ∨ (i = Instr.atomicHandler r ∧ n = r.size ∧ w = (r.op != 11) ∧ rd = (r.op != 12) ∧ at0 = true)
          ∨ (i = Instr.bulkStoreHandler r ∧ r.chain = none ∧ n = r.tail.length ∧ w = true ∧ rd = false ∧ at0 = false) →
        s.accErr (s.reqAcc r n w rd at0) = some .rights → exec i s = .next (answered s r.device r.txn 5))

/-- Counts for other devices (R103, R109): SWREF is op 0, SWREL op 1. -/
def CountHandler : Prop :=
  ∀ (s : State) (r : FabricReq),
    let a := reqLocal r
    let i := Instr.swatchCountHandler r
    let name := r.data.bits
    (s.regionAt a = none → exec i s = .next (answered s r.device r.txn 0x15))
    ∧ ∀ g, s.regionAt a = some g → ∀ seg, placeOf a = .seg seg →
        ((∀ e, s.rightsOn r.owner false seg = some e → ¬(e.r = true ∧ e.w = true)) → exec i s = .next (answered s r.device r.txn 5))
        ∧ ∀ e, s.rightsOn r.owner false seg = some e → e.r = true → e.w = true →
            (∀ x, nameStop s g name = some x → exec i s = .next (answered s r.device r.txn
              (match x with | .lost _ => 0xD | .integrity _ => 0xC | _ => 6)))
            ∧ (nameStop s g name = none →
                (s.liveIn g name = none → exec i s = .next (served s s r (word128 (failure 1 0))))
                ∧ ∀ x, s.liveIn g name = some x →
                    (x.count = 0xFFFFFFFF → exec i s = .next (served s s r (word128 (failure 2 0))))
                    ∧ (x.count ≠ 0xFFFFFFFF →
                      (r.op = 0 → exec i s = .next (served s (s.putSw g { x with count := x.count + 1 } 1) r (word128 (failure 0 0))))
                      ∧ (r.op = 1 → x.count ≠ 1 → exec i s = .next (served s (s.putSw g { x with count := x.count - 1 } 1) r (word128 (failure 0 0))))
                      ∧ (r.op = 1 → x.count = 1 → x.node = false → exec i s = .next (served s (freedIn s g x) r (word128 (failure 3 0))))
                      ∧ (r.op = 1 → x.count = 1 → x.node = true → ((freedIn s g x).ctx g.ctxIndex).waiting.length < 32 →
                          let bad := (s.lineBad (dataAddr g x.line)).isSome
                          let t := (freedIn s g x).enterRelease (without g x)
                            (HeldRelease.mk (if bad then [] else children (s.content g x.line)) bad none (some (r.device, r.txn)) none)
                          exec i s = .next (served s t.1 r (word128 (BitVec.ofNat 64 t.2 ++ statusWord 3 t.2))))))

/-- Replies, launches and unimplemented handlers (R268, R396, R398). -/
def Answers18 : Prop :=
  ∀ (s : State) (r : FabricReq) (rep : Reply) (handler : U8) (m : Msg) (w0 w1 : Cap) (w2 : U128) (shop : Nat) (pr : BitVec 2),
    -- a reply that no launch, engine command or delegation waits for is its slot's
    (s.launches.find? (fun l => l.remote.contains rep.txn) = none → s.farOf rep.txn = none → (∀ x ∈ s.heldSlots, x.returned rep = false) →
        s.delegates rep.txn = false → exec (.replyHandler rep) s = .next (s.deliverReply rep))
    ∧ (∀ l, s.launches.find? (fun l => l.remote.contains rep.txn) = some l → exec (.replyHandler rep) s = .next (s.shopEnded l rep))
    ∧ (∃ l : Launch, exec (.launchHandler r w0 w1 w2 shop pr) s = .next { s with nextId := s.nextId + 1, launches := putBy Launch.id l s.launches }
        ∧ l.id = s.nextId ∧ l.owner = r.owner ∧ l.entry = w0 ∧ l.data = w1 ∧ l.w2 = w2 ∧ l.priority = pr.toNat ∧ l.shop = some shop
        ∧ l.answers = some (r.device, r.txn) ∧ l.placed = [] ∧ l.begun = false ∧ l.token = (r.device, r.addr.toNat))
    ∧ ((s.owner r.owner = none ∨ ∃ o, s.owner r.owner = some o ∧ o.emulent.tag = false) →
        exec (.unimplementedHandler handler r m) s = .next (answered s r.device r.txn 0xF))
    ∧ ∀ o, s.owner r.owner = some o → o.emulent.tag = true →
        let n := (m.tail.length + 255) / 256 * 256
        let letter18 := { m with entry := o.emulent, spawned := false, replyLocal := false, emul := some handler.toNat
                                 tail := m.tail ++ List.replicate (n - m.tail.length) 0, txn := r.txn, place := 15 }
        (s.core o.emulcore).overflow = false → Roomy (s.core o.emulcore) letter18.tail.length →
          exec (.unimplementedHandler handler r m) s = .next (posted s o.emulcore letter18)

end Sys2Proof.Claims

/-- R5, R393, R399 to R403, R407 to R412, R414: links, the clock, the streams of PCI Express, benches that leave service, the bring-up block,
RESET, and the host's work queues. (That a link trains at its full width, and that one that goes down leaves DEVSTAT, are the model's choice, log
103; that nothing is heard before a stream is keyed, log 57; what RESET keeps of the model's counters, log 61.) -/
def Obligations.device_events : Prop := Claims.LinkEvents ∧ Claims.ServiceEvents ∧ Claims.BringUp ∧ Claims.HostQueues

/-- R268, R271 to R280, R312, R396, R398: messages from elsewhere, the tasks that start for them, and the hardware message handlers. (Which records of the
overflow heap a message takes is a free choice, log 85.) -/
def Obligations.message_events : Prop := Claims.Arrivals ∧ Claims.Starting ∧ Claims.Handlers ∧ Claims.CountHandler ∧ Claims.Answers18

/-! ### Scheduling, engines, the units of the device (R32, R53, R88, R246, R251, R263, R283 to R289, R297 to R305, R320, R374, R406) -/

namespace Sys2Proof.Claims

/-- How a core picks the slot that issues (R263): a class-4 slot that has been ready for 7 cycles, else one of the highest class; of several
the first after the slot that issued last, wrapping from 9 to 0. -/
def PickRule (s : State) (core i : Nat) : Prop :=
  let after (j : Nat) : Nat := (j + 19 - (s.core core).lastIssued % 10) % 10
  let held (j : Nat) : Prop := (s.slot core j).cls = 4 ∧ 7 ≤ (s.slot core j).starved
  let ready (j : Nat) : Prop := j < 10 ∧ s.ready (s.slot core j) = true
  ready i
    ∧ ((held i ∧ ∀ j, ready j → held j → after i ≤ after j)
      ∨ ((∀ j, ready j → ¬held j)
        ∧ ∀ j, ready j → (s.slot core i).cls < (s.slot core j).cls ∨ ((s.slot core i).cls = (s.slot core j).cls ∧ after i ≤ after j)))

/-- `k` cycles pass: the microsecond counter follows the clock (R412), and class-4 slots that are held up count them (R263). -/
def Later (s t : State) (k : Nat) : Prop :=
  (∃ x l, t = { s with cycle := s.cycle + k, us := s.us + (s.usFrac + k) / s.clock, usFrac := (s.usFrac + k) % s.clock, self := x, others := l })
    ∧ (∃ n, t.self = { s.self with starved := n }) ∧ t.others.length = s.others.length
    ∧ ∀ (j : Nat) x y, s.others[j]? = some x → t.others[j]? = some y → ∃ n, y = { x with starved := n }

/-- Issue (R263). A cycle passes when no core has a slot to issue in it; the issue guard lets a class-4 slot go first. -/
def IssueEvents : Prop :=
  ∀ (s : State) (core slot n : Nat), s.usFrac < s.clock →
    (∃ t k, exec (.issueCycle core n) s = .next t ∧ k ≤ n ∧ ∃ u, Later s u k ∧ (k < n → u.nextCore.isSome = true)
      ∧ ((t = u ∧ ((u.core core).nextAt ≤ u.cycle → ∀ j < 10, u.ready (u.slot core j) = false))
        ∨ ∃ i, (u.core core).nextAt ≤ u.cycle ∧ PickRule u core i ∧ t = u.pickSlot core i))
    ∧ (let x := s.slot core slot
       let due := (s.core core).nextAt ≤ s.cycle ∧ s.ready x = true ∧ x.cls = 4 ∧ 7 ≤ x.starved
       (due → exec (.issueGuardExpiry core slot) s = .next (s.pickSlot core slot))
       ∧ (¬due → exec (.issueGuardExpiry core slot) s = .next s))

/-- Turns (R283, R287 to R290). -/
def TurnEvents : Prop :=
  ∀ (s : State) (core k : Nat),
    let c := s.core core
    let e := c.rotaAt c.turn.entry
    let user := s.userOf (mkRes 2 (core * 8 + c.turn.entry))
    let slots := s.turnSlots core
    let ends := c.turn.phase = 1 ∧ (s.rotaRuns core = true ∨ user ≠ s.coreUser core)
      ∧ (c.turn.start + e.slice.toNat ≤ s.us ∨ s.turnIdle core = true)
    let limit := c.turn.phase = 2 ∧ slots ≠ [] ∧ c.turn.ended + e.limit.toNat ≤ s.us
    let spent := c.turn.phase = 3 ∧ (∃ x ∈ slots, x.savable = true) ∧ c.turn.limited + e.budget.toNat ≤ s.ratedNow
    (s.turnStep core = .wait → exec (.rotaTurnStart core) s = .next s)
    ∧ (s.turnStep core = .stop →
        let t := if user = s.coreUser core then s else s.scrubCoreRegs core
        exec (.rotaTurnStart core) s = .next (t.putCore { t.core core with turn := { c.turn with phase := 0 } }))
    ∧ (s.turnStep core = .go k →
        let before := if c.turn.phase = 0 then s.coreUser core else user
        let t := if before = s.userOf (mkRes 2 (core * 8 + k)) then s else s.scrubCoreRegs core
        exec (.rotaTurnStart core) s = .next (t.putCore { t.core core with turn := { entry := k, phase := 1, start := s.us, ended := s.us, limited := 0 } }))
    ∧ (ends →
        let t := s.putCore { c with turn := { c.turn with phase := 2, ended := s.us } }
        exec (.sliceEnd core) s = .next ((if (t.core core).lease.state = 2 then t.budgetDrain core else t).noteYield core 3))
    ∧ (¬ends → exec (.sliceEnd core) s = .next s)
    ∧ (limit →
        let t := s.putCore { c with turn := { c.turn with phase := 3, limited := s.ratedNow } }
        exec (.sliceLimitExpiry core) s = .next (t.preempt (t.turnSlots core) e.handler))
    ∧ (¬limit → exec (.sliceLimitExpiry core) s = .next s)
    ∧ (spent → exec (.sliceBudgetEnd core) s = .next (s.forceSaves slots (some (core * 8 + c.turn.entry))).1)
    ∧ (¬spent → exec (.sliceBudgetEnd core) s = .next s)

/-- Waits of slots that end (R125, R283, R314, R376), and images that take a slot (R369). -/
def WaitEvents : Prop :=
  ∀ (s : State) (core slot : Nat) (d : BitVec 5) (limit : Nat),
    let x := s.slot core slot
    let t := s.switchTo core slot
    (∀ due, x.park = .protect due → due ≤ s.cycle → exec (.writeProtectRetry core slot) s = .next (s.putSlot { x with park := .no }))
    ∧ (∀ due, x.park = .protect due → s.cycle < due → exec (.writeProtectRetry core slot) s = .next s)
    ∧ (∀ line since ea lanes, x.park = .record line since ea lanes → since + 65536 ≤ s.cycle →
        exec (.spanCapacityStallLimit core slot) s = .next (t.takeTrap { cls := 0x0A, addr := ea, lanes := lanes, agent := 0 }))
    ∧ (∀ line since ea lanes, x.park = .record line since ea lanes → s.cycle < since + 65536 → exec (.spanCapacityStallLimit core slot) s = .next s)
    ∧ (t.self.park = .yield d (some limit) 0 → limit ≤ t.cycle → exec (.tyieldCycleLimit core slot) s = .next ((t.wr d 0).passOn))
    ∧ (t.self.park = .event d (some limit) → limit ≤ t.cycle → t.myCore.events = [] →
        exec (.evwaitCycleLimit core slot) s = .next (((t.wr d 0).wr (d + 1) 0).retire))
    ∧ (t.self.park = .no → exec (.tyieldCycleLimit core slot) s = .next s ∧ exec (.evwaitCycleLimit core slot) s = .next s)
    ∧ (s.imageFor core slot = none → exec (.imageRestore core slot) s = .next s)
    ∧ ∀ o i, s.imageFor core slot = some (o, i) → exec (.imageRestore core slot) s = .next (s.restore o i core slot)

/-- A LEASE that waits in slot 0 for its grant is complete, with status 0 (R245, R246). -/
def LeaseWritten (y x : Slot) (d : BitVec 5) : Prop :=
  (∀ n, x.getG n = if n = d ∧ n ≠ 0 then Cap.ofInt 0 else y.getG n) ∧ x.pcc = y.pcc.withAddrBits (y.pcc.addr + 4) ∧ x.park = .no
    ∧ x = { y with
        g := x.g, pcc := x.pcc, winDone := y.winDone ||| doneBit y.winStart y.pcc.addr, winReads := x.winReads, winWrites := x.winWrites
        park := .no, afterTransfer := y.park.alone, replay := false }

/-- The looms by themselves (R246, R247, R251, R256). -/
def LoomEvents : Prop :=
  ∀ (s : State) (bench idx : Nat),
    let l := s.loom bench idx
    (∀ m rest, l.queue = m :: rest →
        exec (.arrayMatrixCommand bench idx) s = .next (s.putLoom { l.perform m.pair m.zp m.opA.1 m.opA.2.1 m.opA.2.2 m.opB.1 m.opB.2.1 m.opB.2.2 with
          queue := rest, lastCmd := s.cycle }))
    ∧ (l.queue = [] → exec (.arrayMatrixCommand bench idx) s = .next s)
    ∧ (∀ q, l.holder = none → l.waitingRows ≤ 8 → l.nextSeat = some q →
        let c := s.core (bench * 48 + q)
        let u := (s.putLoom { l with
          acc := [], flags := [], r := 0, c := 0, clear := true, holder := some q, last := q, pending := l.pending.filter (· ≠ q)
          left := c.lease.request.toNat / 2 ^ 8 % 2 ^ 6 + 1, w := 0, dflt := true, queue := [], lastCmd := s.cycle }).putCore
            { c with lease := { c.lease with state := 2 } }
        let y := u.slot (bench * 48 + q) 0
        ((∀ d b, y.park ≠ .grant d b) → exec (.loomGrant bench idx) s = .next u)
        ∧ ∀ d b, y.park = .grant d b → ∃ x, LeaseWritten y x d ∧ exec (.loomGrant bench idx) s = .next (u.putSlot x))
    ∧ (l.holder ≠ none ∨ 8 < l.waitingRows ∨ l.nextSeat = none → exec (.loomGrant bench idx) s = .next s)
    ∧ (∀ q, l.holder = some q → l.queue = [] → (∃ p ∈ l.pending, p ≠ q) → l.lastCmd + 4096 ≤ s.cycle →
        exec (.loomIdleExpiry bench idx) s = .next (s.budgetDrain (bench * 48 + q)))
    ∧ ((∀ q, l.holder = some q → ¬(l.queue = [] ∧ (∃ p ∈ l.pending, p ≠ q) ∧ l.lastCmd + 4096 ≤ s.cycle)) →
        exec (.loomIdleExpiry bench idx) s = .next s)
    ∧ (l.drains = [] → exec (.selvageHandlerStart bench idx) s = .next s)
    ∧ ∀ d more row rows, l.drains = d :: more → d.rows = row :: rows →
        (s.rowCore bench d row.index = none → exec (.selvageHandlerStart bench idx) s = .next (s.popRow bench idx { d with discarded := true }))
        ∧ ∀ core, s.rowCore bench d row.index = some core →
            (s.handlerMayRun core = false ∨ s.selvageSlot core = none → exec (.selvageHandlerStart bench idx) s = .next s)
            ∧ ∀ i, s.handlerMayRun core = true → s.selvageSlot core = some i →
                exec (.selvageHandlerStart bench idx) s = .next ((s.startHandler core i idx d row).popRow bench idx d)

/-- No started command of a context waits, and its engine starts `c` next (R297). -/
def Serves (s : State) (ci : Nat) (c : Cmd) : Prop := (s.ctx ci).stalled = [] ∧ s.startable ci = some c

/-- A block that its engine takes: the code, what was known at its acceptance, word 3, and words 0 to 2 (R298, R299). -/
def Sound (s : State) (ci code : Nat) (c : Cmd) : Prop :=
  s.codeOk ci c = true ∧ c.code = code ∧ c.doomed = none ∧ c.badWord3 = none ∧ c.badWords = none

/-- A command that has run waits no more. -/
def ran (ci : Nat) (c : Cmd) (t : State) : State := t.putCtx { t.ctx ci with stalls := dropBy stallKey c.number (t.ctx ci).stalls }

/-- An engine's event: it starts the context's next command; a bad block ends with its status, a sound one runs, or waits and lets its engine
go on with others; a command that waited goes on (R125, R297, R299, R300). -/
def Engine (i : Instr) (s : State) (ci code : Nat) (run : State → Cmd → Ran) : Prop :=
  ((s.ctx ci).stalled = [] → s.startable ci = none → exec i s = .next s)
  ∧ (∀ c, Serves s ci c →
      let u := s.startCmd ci c
      (s.codeOk ci c = false → exec i s = .next (u.ends ci c 1 384))
      ∧ (s.codeOk ci c = true → c.code ≠ code → exec i s = .next s)
      ∧ (s.codeOk ci c = true → c.code = code →
          (∀ st, c.doomed = some st → exec i s = .next (u.ends ci c st.toNat 0))
          ∧ (c.doomed = none → ∀ bit, c.badWord3 = some bit → exec i s = .next (u.ends ci c 1 bit))
          ∧ (c.doomed = none → c.badWord3 = none → ∀ bit, c.badWords = some bit → exec i s = .next (u.ends ci c 1 bit)))
      ∧ (Sound s ci code c → ∃ t, exec i s = .next t ∧ (∀ v, run u c = .ok v → t = ran ci c v)
          ∧ ∀ line, run u c = .error line → ∃ since, t = u.putCtx { u.ctx ci with stalls := putBy stallKey (c.number, line, since) (u.ctx ci).stalls }))
  ∧ ∀ c, (s.ctx ci).stalled = [c] → c.code = code → c.doomed = none → ∀ v, run s c = .ok v → ran ci c v ≠ s → exec i s = .next (ran ci c v)

/-- The copy engine, GATHER, the collectives, the launch engine, the network engine and SWOUT take their commands (R297 to R305, R319). -/
def EngineCommands : Prop :=
  ∀ (s : State) (ci : Nat) (agree reach : Bool) (peers : List (List U8)),
    let sum (l : List (List U8)) (c : Cmd) (n : Nat) := reduceBytes (c.extra.toNat / 2 ^ 44 % 16) (c.extra.toNat / 2 ^ 42 % 4 == 1) l n
    Engine (.copy ci) s ci 0x01 (fun t c => t.runCopy ci c) ∧ Engine (.copy2d ci) s ci 0x02 (fun t c => t.runCopy ci c)
    ∧ Engine (.fill ci) s ci 0x03 (fun t c => t.runCopy ci c) ∧ Engine (.resume ci) s ci 0x04 (fun t c => t.runResume ci c)
    ∧ Engine (.gather ci) s ci 0x10 (fun t c => t.runGather ci c)
    ∧ Engine (.allreduce ci agree reach peers) s ci 0x20 (fun t c => t.collective ci c agree reach peers (fun l n _ => sum l c n))
    ∧ Engine (.redscat ci agree reach peers) s ci 0x21 (fun t c => t.collective ci c agree reach peers
        (fun l n r => ((sum l c n).drop (n / l.length * r)).take (n / l.length)))
    ∧ Engine (.allgather ci agree reach peers) s ci 0x22 (fun t c => t.collective ci c agree reach peers (fun l _ _ => l.flatten))
    ∧ Engine (.mcast ci reach) s ci 0x23 (fun t c => t.runMcast ci c reach)
    ∧ Engine (.nsend ci) s ci 0x30 (fun t c => t.runSend ci c) ∧ Engine (.nrecv ci) s ci 0x31 (fun t c => t.runNrecv ci c)
    ∧ Engine (.nwrite ci) s ci 0x32 (fun t c => t.runSend ci c) ∧ Engine (.nread ci) s ci 0x33 (fun t c => t.runNread ci c)
    ∧ Engine (.launch ci) s ci 0x40 (fun t c => t.runLaunch ci c) ∧ Engine (.swout ci) s ci 0x50 (fun t c => t.runSwout ci c)
    ∧ Engine (.sweep ci) s ci 0x60 (fun t c => t.runSweep ci c)

/-- Commands of no bytes complete at once, OK with no bytes moved (R301, R304, R305, R319); a collective whose members disagree ends MISMATCH,
one that does not reach them UNREACHABLE (R305). -/
def EmptyCommands : Prop :=
  ∀ (s : State) (ci : Nat) (c : Cmd) (agree reach : Bool) (peers : List (List U8)), Serves s ci c →
    let u := s.startCmd ci c
    let ends (i : Instr) (k : Nat) : Prop := exec i s = .next (ran ci c (u.ends ci c k 0))
    let collectives : List (Nat × Instr) :=
      [(0x20, .allreduce ci agree reach peers), (0x21, .redscat ci agree reach peers), (0x22, .allgather ci agree reach peers)]
    (∀ x ∈ collectives, Sound s ci x.1 c →
        (agree = false → ends x.2 0x10) ∧ (agree = true → reach = false → ends x.2 0x0E))
    ∧ (Sound s ci 0x23 c → reach = false → ends (.mcast ci reach) 0x0E)
    ∧ ((u.ctx ci).waitsFar c.number = false → (c.len = 0 →
          (Sound s ci 0x01 c → ends (.copy ci) 0) ∧ (Sound s ci 0x03 c → ends (.fill ci) 0) ∧ (Sound s ci 0x02 c → ends (.copy2d ci) 0))
        ∧ (Sound s ci 0x10 c → c.len.toNat % 2 ^ 32 = 0 → ends (.gather ci) 0)
        ∧ (c.len.toNat % 2 ^ 40 = 0 → agree = true → reach = true →
            (∀ x ∈ collectives, Sound s ci x.1 c → ends x.2 0) ∧ (Sound s ci 0x23 c → ends (.mcast ci reach) 0)))
    ∧ (∀ e, c.len.toNat % 2 ^ 32 = 0 →
        (Sound s ci 0x32 c → u.endpointOf c.w1 (u.actsFor ci) = some e → u.netCap c.w0 .r = none → ends (.nwrite ci) 0)
        ∧ (Sound s ci 0x33 c → u.endpointOf c.w0 (u.actsFor ci) = some e → u.netCap c.w1 .w = none → ends (.nread ci) 0))

/-- FILL within one granule: its bytes are the pattern's, and the command is complete (R301). NRECV is posted; NSEND of no bytes sends one
packet; NREAD asks for its packets (R318 to R321). RESUME of a command that is not parked is a bad block (R303). -/
def MovingCommands : Prop :=
  ∀ (s : State) (ci : Nat) (c : Cmd), Serves s ci c →
    let u := s.startCmd ci c
    let a := c.w1.addr.toNat
    let n := c.len.toNat
    let m := u.localAddr a
    (Sound s ci 0x03 c → (u.ctx ci).waitsFar c.number = false → 0 < n → n ≤ 32 - a % 32 → u.remoteOf a = none →
        u.unitCheck ci c c.w1 .w a n = none → u.accErr (u.engAcc ci c a n true) = none → u.isAbsent m = false →
        ∃ t : State, exec (.fill ci) s = .next (ran ci c (t.ends ci c 0 n)) ∧ (∀ k < n, t.byteAt (m + k) = c.w0.bits.extractLsb' (8 * ((a + k) % 16)) 8)
          ∧ ∀ b, (∀ k < n, Elsewhere u (m + k) b) → t.byteAt b = u.byteAt b)
    ∧ (Sound s ci 0x04 c → (∀ p ∈ (u.ctx ci).parked, p.cmd.number ≠ c.w0.addr.toNat) → exec (.resume ci) s = .next (ran ci c (u.ends ci c 1 0)))
    ∧ (Sound s ci 0x31 c →
        let mode : BitVec 2 := BitVec.ofNat 2 (c.extra.toNat / 2 ^ 32)
        u.netCap c.w1 (if mode = 2 then .r else .w) = none →
        (mode ≠ 0 → c.len.toNat % 2 ^ 32 = 0 → exec (.nrecv ci) s = .next (ran ci c (u.ends ci c 0 0)))
        ∧ (mode = 0 ∨ c.len.toNat % 2 ^ 32 ≠ 0 →
            exec (.nrecv ci) s = .next (ran ci c (u.putCtx { u.ctx ci with
              recvs := (u.ctx ci).recvs ++ [{ cmd := c, mode := mode, tag := BitVec.ofNat 32 c.extra.toNat, capacity := c.len.toNat % 2 ^ 32, msg := none
                                              placed := [], held := [], stalled := none }] }))))
    ∧ (∀ e, Sound s ci 0x30 c → c.len.toNat % 2 ^ 32 = 0 → u.endpointOf c.w1 (u.actsFor ci) = some e → u.netCap c.w0 .r = none →
        c.w0.inBounds c.w0.addr.toNat 0 = true →
        exec (.nsend ci) s = .next (ran ci c (u.sendPackets ci (packetsOf c ci e 0 0 0 ((u.ctx ci).nextSeq e.flow) []))))
    ∧ ∀ e, Sound s ci 0x33 c → c.len.toNat % 2 ^ 32 ≠ 0 → u.endpointOf c.w0 (u.actsFor ci) = some e → u.netCap c.w1 .w = none →
        exec (.nread ci) s = .next (ran ci c (u.sendPackets ci
          (packetsOf c ci e 2 (c.len.toNat % 2 ^ 32) (c.len.toNat / 2 ^ 32) ((u.ctx ci).nextSeq e.flow) [])))

/-- FRAMECOPY and its passes, told apart by cflags (R302, R375 to R378), where the frames are the acting owner's; SWEEP (R32 to R34). -/
def FrameCommands : Prop :=
  ∀ (s : State) (ci : Nat) (c : Cmd), Serves s ci c →
    let u := s.startCmd ci c
    let mine := u.frameFor (u.actsFor ci) c.srcFrame = true ∧ u.frameFor (u.actsFor ci) c.dstFrame = true
    let whole := if c.len = 0 then 2 ^ 14 else 2 ^ 21
    let src := (frameSpan c.srcFrame).1
    let dst := (frameSpan c.dstFrame).1
    let passes : List (Nat × Instr) := [(0, .framecopy ci), (1, .framecopyPass1 ci), (2, .framecopyPass2 ci), (3, .framecopyPass3 ci)]
    (Sound s ci 0x05 c →
        (∀ x ∈ passes, c.passNo ≠ x.1 → exec x.2 s = .next s)
        ∧ (c.passNo = 0 → ¬mine → exec (.framecopy ci) s = .next (ran ci c (u.ends ci c 0x14 0)))
        ∧ (c.passNo = 0 → mine →
            let a := src + c.w0.bits.toNat / 2 ^ 64 % 2 ^ 7 * 2 ^ 14
            let b := dst + c.w1.bits.toNat / 2 ^ 64 % 2 ^ 7 * 2 ^ 14
            exec (.framecopy ci) s = .next (ran ci c ((((u.settleCaches a (a + whole)).copyLines a b whole).filled b whole).ends ci c 0 whole)))
        ∧ (∀ x ∈ passes, x.1 ≠ 0 → c.passNo = x.1 → ∀ k d, u.passCheck (u.actsFor ci) c (x.1 == 1) = some (k, d) →
            exec x.2 s = .next (ran ci c (u.ends ci c k d)))
        ∧ (c.passNo = 1 → u.passCheck (u.actsFor ci) c true = none →
            let t := (u.mapBacked c.srcFrame (fun t => { t with migrating := 1, protect := u.migClass t == 1 })).setLog c.srcFrame []
            exec (.framecopyPass1 ci) s = .next (ran ci c (((t.settleCaches src (src + 2 ^ 21)).copyLines src dst (2 ^ 21)).ends ci c 0 (2 ^ 21))))
        ∧ (c.passNo = 2 → u.passCheck (u.actsFor ci) c false = none →
            let t := u.settleCaches src (src + 2 ^ 21)
            let l := (t.logOf c.srcFrame).getD []
            ∃ v : State, exec (.framecopyPass2 ci) s = .next (ran ci c (v.ends ci c 0 (128 * l.length)))
              ∧ v = { (l.foldl (fun w k => w.copySector src dst k) (t.setLog c.srcFrame [])) with trans := v.trans })
        ∧ (c.passNo = 3 → u.passCheck (u.actsFor ci) c false = none →
            let t := u.writeBack src (src + 2 ^ 21)
            let l := (t.logOf c.srcFrame).getD []
            let e := (l.foldl (fun w k => w.copySector src dst k) t).entry c.srcFrame
            ∃ v : State, exec (.framecopyPass3 ci) s = .next (ran ci c (((v.putEntry { e with id := c.dstFrame }).putEntry
                { Entry.atReset c.srcFrame with holder := u.actsFor ci }).zeroFrame c.srcFrame |>.ends ci c 0 (128 * l.length)))
              ∧ v = { (l.foldl (fun w k => w.copySector src dst k) t) with trans := v.trans, dirtyLog := v.dirtyLog }))
    ∧ (Sound s ci 0x60 c → ∀ w, u.sweeps.find? (fun w => w.ctx == some ci && w.number == c.number) = some w →
        let t := u.sweepAll w.units
        exec (.sweep ci) s = .next (ran ci c (t.endCmd (t.actsFor ci) ci c 0 none none)))

/-- LAUNCH enters its owner's queue, and places its tasks (R266 to R268); RELEASE commands (R102, R109); SWOUT of a name that is not live, or
through a capability that its engine may not use (R108). -/
def QueueCommands : Prop :=
  ∀ (s : State) (ci id core seg : Nat) (c : Cmd),
    let u := s.startCmd ci c
    (Serves s ci c → Sound s ci 0x40 c →
        (u.isRevoked c.w0 = true ∨ u.isRevoked c.w1 = true → exec (.launch ci) s = .next (ran ci c (u.ends ci c 0x0A 0)))
        ∧ (u.isRevoked c.w0 = false → u.isRevoked c.w1 = false →
            (∀ bit, u.badLaunch ci c = some bit → exec (.launch ci) s = .next (ran ci c (u.ends ci c 2 bit)))
            ∧ (u.badLaunch ci c = none → ∃ l : Launch, l.id = u.nextId ∧ l.ctx = ci ∧ l.number = c.number ∧ l.owner = u.actsFor ci ∧ l.entry = c.w0
                ∧ l.data = c.w1 ∧ l.w2 = c.w2.bits ∧ l.priority = c.priority ∧ l.placed = [] ∧ l.begun = false
                ∧ exec (.launch ci) s = .next (ran ci c { u with nextId := u.nextId + 1, launches := putBy Launch.id l u.launches }))))
    ∧ (s.launch id = none → exec (.launchPlacement id core) s = .next s)
    ∧ (∀ l, s.launch id = some l → (s.servedLaunch l.owner).map Launch.id ≠ some id → exec (.launchPlacement id core) s = .next s)
    ∧ (∀ l i, s.launch id = some l → (s.servedLaunch l.owner).map Launch.id = some id → l.begun = true → l.shop.isSome = true → l.resident = false →
        s.placeOn l core = some i →
        exec (.launchPlacement id core) s = .next (s.startLaunchTask l (l.placed.length / l.stages) (l.placed.length % l.stages) core i))
    ∧ (Serves s ci c → Sound s ci 0x50 c →
        let d := c.w3.bits.toNat / 2 ^ 10 % 8 + 1
        (∀ st, u.swoutCheck ci c d = .error st → exec (.swout ci) s = .next (ran ci c (u.endSwout ci c st 0 0)))
        ∧ ∀ r, u.swoutCheck ci c d = .ok r → u.nameBad r c.w2.bits = none →
            (u.liveIn r c.w2.bits = none → exec (.swout ci) s = .next (ran ci c (u.endSwout ci c 6 0 0)))
            ∧ ∀ e m, u.liveIn r c.w2.bits = some e →
                Move.swNode { ci := ci, cmd := c, src := none, dst := c.w1, pattern := 0, start := u } r (d - 1) c.w1.addr.toNat c.w2.bits
                  { s := (u.swref r c.w2.bits).1, done := 0, pages := [], wrote := [], first := [] } = .ok m →
                let v := m.s.swoutEnd r.seg c.w2.bits
                (v.ctx ci).waitsFar c.number = false → exec (.swout ci) s = .next (ran ci c (v.endSwout ci c 0 m.done 0)))
    ∧ (s.startable ci = none → exec (.releaseCommand ci) s = .next s)
    ∧ (∀ x, s.startable ci = some c → c.code = 0x51 → s.releases.find? (fun x => x.is ci c.number) = some x →
        let r := if x.lost then (u, [], 0x0D) else u.dropChildren x.region x.number [] x.children
        let t : State := { r.1 with releases := r.1.releases.map (fun (y : Release) =>
          if y.ctx == ci && y.number == c.number then { y with ran := true, status := r.2.2, waits := r.2.1 } else y) }
        exec (.releaseCommand ci) s = .next (t.settleReleases t.releases.length))
    ∧ (s.region seg = none → exec (.releaseCommandPlacement seg) s = .next s)
    ∧ ∀ g h rest, s.region seg = some g → g.heldReleases = h :: rest →
        (32 ≤ (s.ctx g.ctxIndex).waiting.length → exec (.releaseCommandPlacement seg) s = .next s)
        ∧ ((s.ctx g.ctxIndex).waiting.length < 32 → h.txn = none → h.device = none → h.parent = none →
            exec (.releaseCommandPlacement seg) s = .next (s.enterRelease { g with heldReleases := rest } h).1)

/-- Packets (R318 to R322, R324). -/
def PacketEvents : Prop :=
  ∀ (s : State) (p : Packet) (ci number seq : Nat) (acked marked : List Nat) (status : U16) (refused : Bool) (f : Flight),
    (ctxKind p.ctx ≠ 4 ∨ resValid (mkRes 6 p.ctx) = false → exec (.packetArrival p) s = .next s)
    ∧ (ctxKind p.ctx = 4 → resValid (mkRes 6 p.ctx) = true →
        let x := s.ctx p.ctx
        (∀ t, s.takeAgain p = some t → exec (.packetArrival p) s = .next t)
        ∧ (s.takeAgain p = none →
            (p.kind = 0 → exec (.packetArrival p) s = .next (s.takeMessage p)) ∧ (p.kind = 1 → exec (.packetArrival p) s = .next (s.takeWrite p))
            ∧ (p.kind = 2 → exec (.packetArrival p) s = .next (s.takeRead p)) ∧ (p.kind = 3 → exec (.packetArrival p) s = .next (s.takeReadBytes p))
            -- no receive takes it: refused
            ∧ (p.kind = 0 → (∀ r ∈ x.recvs, r.mode ≠ 0) → exec (.packetArrival p) s = .next (s.answerPacket p 0x12 []))
            -- a write into a window that serves the whole transfer
            ∧ (p.kind = 1 → (∀ r ∈ x.recvs, ¬(r.mode = 1 ∧ r.tag = p.tag ∧ p.base + p.total ≤ r.capacity)) →
                exec (.packetArrival p) s = .next (s.answerPacket p 0x12 []))
            ∧ ∀ r rest t, x.recvs = r :: rest → p.kind = 1 → r.mode = 1 → r.tag = p.tag → p.base + p.total ≤ r.capacity →
                s.placeAt p.ctx r p.offset p.data = .ok t →
                exec (.packetArrival p) s = .next ((t.tookPacket p).recvMore p (r.note p.msg p.offset p.data.length) [])))
    ∧ ((s.ctx ci).flights.find? (fun f => f.p.number == number) = none → exec (.selectiveAckArrival ci number acked marked status) s = .next s)
    ∧ ((s.ctx ci).flights.find? (fun f => f.p.number == number) = some f →
        let x := s.ctx ci
        let mine (g : Flight) : Bool := g.p.number == number && acked.contains g.p.seq
        (status = 0x12 → exec (.selectiveAckArrival ci number acked marked status) s = .next (s.putCtx { x with
            flights := x.flights.map (fun g => if mine g = true ∧ g.acked = false then { g with refused := true } else g) }))
        ∧ (status ≠ 0 → status ≠ 0x12 →
          exec (.selectiveAckArrival ci number acked marked status) s = .next ((s.putCtx { x with flights := x.flights.map (fun g =>
            if mine g = true then { g with acked := true } else g) }).endSend ci number status.toNat))
        ∧ (status = 0 → exec (.selectiveAckArrival ci number acked marked status) s = .next
            ((((s.ctx ci).flights.filter (fun g => g.p.flow == f.p.flow)).map (fun g => g.p.seq)).foldl (fun t q => t.reportOne f.p.flow ci acked marked q) s)))
    ∧ ((s.ctx ci).flights.find? (fun f => f.p.number == number && f.p.seq == seq) = some f →
        (f.acked = true ∨ s.us < f.sentAt + 64 * 2 ^ (f.sends - 1) → exec (.retransmissionTimeout ci number seq refused) s = .next s)
        ∧ (f.acked = false → f.sentAt + 64 * 2 ^ (f.sends - 1) ≤ s.us →
            let t := s.putCtx ((s.ctx f.p.ctx).countAt f.p.entropy 0 1)
            let g := { f with refused := f.refused || refused }
            (8 ≤ f.sends → exec (.retransmissionTimeout ci number seq refused) s = .next
              (t.endSend f.p.ctx f.p.number (if g.refused then 0x12 else 0x0E)))
            ∧ (f.sends < 8 → exec (.retransmissionTimeout ci number seq refused) s = .next
                { t.putCtx ((t.ctx f.p.ctx).putFlight { g with sends := f.sends + 1, sentAt := s.us, later := [] }) with
                  out := s.out ++ [.packet (f.sends + 1) f.p] })))

/-- The holdings units (R42, R44, R47, R48, R53). -/
def HoldingEvents : Prop :=
  ∀ (s : State) (id : U64) (x : U16),
    let e := s.entry id
    let late := (e.state = .offered ∨ e.state = .offeredLoan) ∧ e.recovery = none ∧ ∃ t, e.deadline = some t ∧ momentOf e t ≤ present s
    let ended := e.state = .lent ∧ e.termPosted = false ∧ ∃ t, e.termEnd = some t ∧ momentOf e t ≤ present s
    (late → exec (.offerDeadline id) s = .next (s.putEntry (withdrawn e)))
    ∧ (¬late → exec (.offerDeadline id) s = .next s)
    ∧ (¬ended → exec (.termEnd id) s = .next s)
    ∧ (∀ t, ended → e.termEnd = some t →
        let u := (s.putEntry { e with termPosted := true }).notice e.holder
          { kind := 11, status := 0, source := s.source 2 e.other.toNat, number := 0, d0 := id, d1 := BitVec.ofNat 64 t }
        (e.inherited = false → exec (.termEnd id) s = .next u)
        ∧ (e.inherited = true → exec (.termEnd id) s = .next
            ((u.beginPassing { e with termPosted := true } .recalling (passing e.holder e.other false true false true)).settleEntry id)))
    ∧ (s.owner x = none → exec (.ownerLapse x) s = .next s)
    ∧ (∀ o, s.owner x = some o →
        let due := o.lapsed = false ∧ o.id ≠ Config.house ∧ o.keepAlive ≠ 0 ∧ (o.renewed + o.keepAlive) * 1750 + o.renewedFrac ≤ present s
        (¬due → exec (.ownerLapse x) s = .next s)
        ∧ (due → ∃ r : EvRec, r.kind = 8 ∧ r.source = s.source 2 x.toNat ∧ exec (.ownerLapse x) s = .next
            (({ s.putOwner { o with lapsed := true } with entries := s.entries.map (Entry.whenLapsed x), free := s.free + 1 }).notice o.heir r)))
    ∧ (e.recovery = none → exec (.recoveryBudgetEnd id) s = .next s)
    ∧ (∀ r, e.recovery = some r →
        let l := s.entrySlots id r.fromOwner
        let spent := r.budgetDone = false ∧ r.budgetEnd ≤ s.ratedNow ∧ ∃ y ∈ l, y.savable = true
        let t := s.forceSaves l none
        (e.id = id → ¬spent → exec (.recoveryBudgetEnd id) s = .next s)
        ∧ (e.id = id → spent → exec (.recoveryBudgetEnd id) s = .next (t.1.putEntry { t.1.entry id with
              recovery := some { r with forced := true, saved := r.saved + t.2, budgetDone := (t.1.entrySlots id r.fromOwner).isEmpty } })))
    ∧ ((∀ o ∈ s.owners, o.dissolving = none) →
        (e.recovery = none → isRevUnit id = false → exec (.recoveryComplete id) s = .next s)
        ∧ (∀ r, e.recovery = some r → isRevUnit id = false → e.id = id →
            (s.entrySlots id r.fromOwner ≠ [] → exec (.recoveryComplete id) s = .next s)))
    ∧ (∀ r, e.recovery = some r → Plain id → e.id = id → s.entrySlots id r.fromOwner = [] → r.keep = false → r.record = false →
        e.state ≠ .offeredLoan → (∀ o ∈ s.owners, o.dissolving = none) →
        exec (.recoveryComplete id) s = .next ((scrubbedIf false s id r.fromOwner).putEntry (passedTo s e r.taker)))

/-- Registers scanned for revoked capabilities (R33); cache classes rebalanced each millisecond (R88); errors in memory (R86, R373, R374). -/
def UnitEvents : Prop :=
  ∀ (s : State) (core : Nat) (die : BitVec 2) (addr : U64) (dirty : Bool),
    let p := addr.toNat
    let line := p / 256
    let lost (t : State) : State := { t with poison := setAdd t.poison line }
    let owed (t : State) (a : Nat) : State := { t with errorsOwed := a / 256 :: t.errorsOwed }
    (∃ t, exec (.registerScanDeadline core) s = .next t ∧ t = { s with self := t.self, others := t.others, cores := t.cores, owners := t.owners }
        ∧ (s.self.core = core → ∀ n : BitVec 5, n ≠ 0 → t.g n = if s.revokedAddr (s.g n).bounds.base.toNat then (s.g n).untag else s.g n)
        ∧ (s.self.core ≠ core → t.self = s.self))
    ∧ (s.rebalanceDue die = false → exec (.classRebalance die) s = .next s)
    ∧ (s.rebalanceDue die = true →
        ∃ t, t = (s.monitored die).rebalance die [] 64 ∧ exec (.classRebalance die) s = .next { t with
          rebalanced := putBy (fun x : Nat × Nat => x.1) (die.toNat, s.us / 1000) t.rebalanced
          classes := t.classes.map (fun x => if x.die = die then { x with hits := x.hits.map (· / 2), misses := x.misses / 2 } else x) })
    ∧ exec (.uncorrectableError addr true false) s = .next s
    ∧ (s.mappedAt p = none → exec (.uncorrectableError addr true true) s = .next (lost s))
    ∧ (∀ t a, s.mappedAt p = some (t, a) → exec (.uncorrectableError addr true true) s = .next (lost (owed s a)))
    ∧ (172032 ≤ p / 2 ^ 21 → exec (.uncorrectableError addr false dirty) s = .next s)
    ∧ (p / 2 ^ 21 < 172032 →
        let u := (s.retireEntry (mkRes 3 (p / 2 ^ 21))).countRetired
        (u.mappedAt p = none → exec (.uncorrectableError addr false dirty) s = .next (lost u))
        ∧ ∀ t a, u.mappedAt p = some (t, a) →
            (t.clean = false → exec (.uncorrectableError addr false dirty) s = .next (lost (owed u a)))
            ∧ (t.clean = true → exec (.uncorrectableError addr false dirty) s = .next
                { owed u a with trans := putBy transKey { t with present := false, lost := true } u.trans }))
    ∧ (s.storedMac line = none → exec (.macFailure addr) s = .next s)
    ∧ ∀ m, s.storedMac line = some m → exec (.macFailure addr) s = .next { s with sealedLines := putBy (fun x : Nat × U64 => x.1) (line, ~~~m) s.sealedLines }

/-- What a request to the assay core leaves in ASSAYSTAT: not busy, the operation, the status (R397, R406). -/
def assayed (s : State) (o : Owner) (op status : Nat) : State :=
  s.putOwner { o with assaystat := (o.assaystat &&& 0x0000FFFF00000000) ||| BitVec.ofNat 64 (status % 65536 * 65536 + op % 256 * 256) }

/-- The assay core's requests (R406). -/
def AssayEvents : Prop :=
  ∀ (s : State) (x : U16),
    let events : List (Nat × Instr) := [(1, .assayEndpointHandle x), (2, .assayAttestation x), (3, .assayKeyImport x), (4, .assayPublicKeys x)]
    (∀ i ∈ events, s.owner x = none → exec i.2 s = .next s)
    ∧ ∀ o, s.owner x = some o → o.id = x →
        (∀ i ∈ events, o.assaystat.getLsbD 0 = false → exec i.2 s = .next s)
        ∧ (o.assaystat.getLsbD 0 = true → s.remoteOf o.assayreq.addr.toNat = none → s.assayBlocked o = false → s.assayWaits o = false →
            let op := ofBytesLE (s.assayIn o 0 2)
            (∀ i ∈ events, (op = 0 ∨ 4 < op) → exec i.2 s = .next (assayed s o op 0x11))
            ∧ (∀ i ∈ events, op ≠ 0 → op ≤ 4 → op ≠ i.1 → exec i.2 s = .next s)
            ∧ (s.assayReady o = s →
                (op = 3 →
                  let id : U64 := BitVec.ofNat 64 (ofBytesLE (s.assayIn o 16 8))
                  (resKind id ≠ 8 ∨ resValid id = false → exec (.assayKeyImport x) s = .next (assayed s o 3 4))
                  ∧ (resKind id = 8 → resValid id = true → s.holds x id = false → exec (.assayKeyImport x) s = .next (assayed s o 3 1))
                  ∧ (resKind id = 8 → resValid id = true → s.holds x id = true →
                      exec (.assayKeyImport x) s = .next (match Config.importUnwrap (s.assayIn o 512 512) with
                        | none => assayed s o 3 0x11
                        | some k => assayed { s with keys := putBy (fun y : Nat × BitVec 256 => y.1) (resIndex id, k) s.keys } o 3 0)))
                ∧ (op = 2 →
                    let l := s.assayIn o 16 64 ++ bytesLE 2 x.toNat ++ bytesLE 6 0 ++ bytesLE 64 Config.firmwareMeasurement.toNat ++ identityHash
                    exec (.assayAttestation x) s = .next
                      (({ s with free := s.free + 1 }.assayOut o 256 (l ++ bytesLE 512 (Config.identitySignature s.free l).toNat)).assayEnd x 2 0))
                ∧ (op = 4 →
                    let l := bytesLE 4 1 ++ bytesLE 4 65537 ++ bytesLE 8 0 ++ bytesLE 512 Config.importModulus.toNat
                    exec (.assayPublicKeys x) s = .next (({ s with free := s.free + 1 }.assayOut o 256
                      (bytesLE 512 Config.identityModulus.toNat ++ l ++ bytesLE 512 (Config.identitySignature s.free l).toNat)).assayEnd x 4 0))
                ∧ (op = 1 → ∃ t st, s.assayHandle o = (t, st) ∧ exec (.assayEndpointHandle x) s = .next (t.assayEnd x 1 st))))

end Sys2Proof.Claims

/-- R125, R246, R247, R251, R256, R263, R283, R287 to R289, R369, R376: how a core picks the slot that issues; turns of a rota; waits that
end; what a loom does by itself. -/
def Obligations.schedule_events : Prop := Claims.IssueEvents ∧ Claims.TurnEvents ∧ Claims.WaitEvents ∧ Claims.LoomEvents

/-- R32, R102, R109, R125, R266 to R268, R297 to R305, R318 to R322, R375 to R378: an engine takes the next command of a context, checks its
block, and runs it or lets it wait; commands of no bytes; FILL of a granule; FRAMECOPY's passes and SWEEP; LAUNCH and its placement; RELEASE; packets. -/
def Obligations.engine_events : Prop :=
  Claims.EngineCommands ∧ Claims.EmptyCommands ∧ Claims.MovingCommands ∧ Claims.FrameCommands ∧ Claims.QueueCommands ∧ Claims.PacketEvents

/-- R33, R42, R44, R47, R48, R53, R86, R88, R373, R374, R397, R406: deadlines, terms, lapses and recoveries; the register scan; cache classes;
errors in memory; the assay core. Fields of a record that the spec does not state are free. (A failing MAC is the model's event, log 51; statuses of
the assay core's failures, log 62.) -/
def Obligations.holding_events : Prop := Claims.HoldingEvents ∧ Claims.UnitEvents ∧ Claims.AssayEvents

/-! ### Steps, encodings, reset -/

namespace Sys2Proof.Claims

/-- The issuing slot is at a word that has not been executed: no park, no delivery due, no request outstanding or on its way, not the porter. -/
def AtWord (s : State) (w : U32) : Prop :=
  s.self.role ≠ .porter ∧ s.self.park = .no ∧ s.self.watchTrap = none ∧ s.self.coopDue = false ∧ s.self.delegated = none ∧ s.self.swLater = []
    ∧ s.self.skip 32 = s.self ∧ s.wordAt s.pc = w

/-- The state in which the word is executed: a settle point begins a window (R155). -/
def issuing (s : State) (w : U32) : State := if s.self.settles w then s.setSelf Slot.startWindow else s

/-- The registers that the word reads and writes are settled (R157). -/
def Settled (s : State) (i : Instr) : Prop := s.self.unsettled (readsOf s i) (writesOf s i) = false

/-- `u` is `t` with the executed word's registers noted in its window, for the rules of R157 and R158, and nothing else. -/
def WindowNoted (t u : State) : Prop := u = { t with self := { t.self with winReads := u.self.winReads, winWrites := u.self.winWrites } }

/-- What the word is executed in: merged groups of atomics reach their homes before anything but another relaxed AMOFADD (R131), and it is a
free choice whether a swatch instruction reaches its unit after a later one of its window (R353). -/
def Executes (i : Instr) (v z : State) : Prop :=
  let u := match i with
    | .amofadd _ _ _ 0 _ => v
    | _ => v.routersEmpty
  (isSwatch i = false → z = u) ∧ ∃ n q, z = { u with free := n, self := { u.self with swDefer := q } }

end Sys2Proof.Claims

/-- R155 to R160, R173, R263: what a step does. A slot that has been picked issues the word at its next address: the step is exec of the
instruction that the word decodes to, in the window that a settle point begins; a word that decodes to nothing raises illegal instruction; in strict
mode an unsettled register raises unsettled. Otherwise the next event from outside is exec of that event, else what happens by itself, else a
cycle passes, in which the next core with a ready slot picks one. Placing a word at the next address picks the issuing slot. -/
def Obligations.step_runs_decoded : Prop :=
  (∀ s w, s.picked = false → Claims.AtWord s w → (Claims.issuing s w).fetch = .ok () →
    let v := Claims.issuing s w
    let p := { s with picked := true }
    (∀ b i, decode w = .ok (b, i) → ∃ z, Claims.Executes i v z
      ∧ (Claims.Settled z i →
        (∀ t, exec i z = .next t → ∃ u, Claims.WindowNoted t u ∧ step p = .next u)
        ∧ (∀ f, exec i z = .fault f → step p = .fault f) ∧ (∀ f, exec i z = .refused f → step p = .refused f))
      ∧ (¬Claims.Settled z i → z.self.strict = true → step p = .next (z.trap 0x02 0)))
    ∧ (∀ e, decode w = .error e → step p = .next (v.trap 0x01 0)))
  ∧ (∀ (s : State) i rest, s.picked = false → s.agenda = i :: rest →
      (isWord i = false → picks i = true → step s = exec i { s with agenda := rest })
      ∧ (isWord i = false → picks i = false → step s = exec i { s.routersEmpty with agenda := rest })
      ∧ (isWord i = true → step s = .next { s with agenda := rest }))
  ∧ (∀ (s : State), s.picked = false → s.agenda = [] →
      (∀ t, s.routersEmpty.dueEvent = some t → step s = .next t)
      ∧ (s.routersEmpty.dueEvent = none →
          (s.nextIssuer = none → ∃ u, Claims.Later s.meanwhile u 1 ∧ step s = .next u)
          ∧ ∀ t, s.nextIssuer = some t → step s = step { t with picked := true }
              ∧ ∃ core i, (s.core core).nextAt ≤ s.cycle ∧ Claims.PickRule s core i ∧ t = { (s.pickSlot core i) with picked := false }))
  ∧ ∀ (s : State) n w, (s.withFetchWord n w).picked = true

/-- R154, R173: words written out from the spec's tables "Encodings side by side" decode to the instructions that the tables give them, with
their settle markers; a nonzero field that must be zero, a reserved function code, and the words 0 and 0xFFFF_FFFF decode to none. -/
def Obligations.decode_words : Prop :=
  (∀ x ∈ ([(0x02C6B815, false, .div 12 13 14), (0x0244A81C, false, .gpair 4 9 10), (0x8694E789, true, .addi 9 9 0x6789), (0x1690_0003, false, .capc 9 3),
      (0x20944003, false, .lbn 9 8 3), (0x28C5366A, false, .cas 12 10 13 2 2 2), (0x2494AC0A, false, .candp 9 9 11), (0x2C000201, false, .barb 2),
      (0x301088CC, false, .vaddsat 1 1 2 1 4), (0x3484A82D, false, .vfdot2 8 9 10 0 2), (0x46130011, false, .mma 2 3 1),
      (0x48CA0000, false, .push 12 20 0), (0xD0D4A803, true, .lend 13 9 10), (0x54C4A820, false, .swname 12 9 10 2), (0x56C00048, false, .rdc 12 9),
      (0x58100001, false, .tret 1)] : List (U32 × Bool × Instr)), decode x.1 = .ok x.2)
  ∧ ∀ w ∈ ([0x0E94D020, 0x02950419, 0x28C43AA2, 0x3484A833, 0x3284A820, 0x46130811, 0x48CE8000, 0, 0xFFFFFFFF] : List U32), ∃ e, decode w = .error e

/-- R56, R87, R124, R246, R268, R269, R407, R410, R411: what reset leaves where the spec states it. Firmware verified and memory tested, nothing started; every
resource held by the house; no slot runs; every span has number 1; every loom is free, its last holder seat 47; class 0 of every die belongs to the house; host
work queue 0 is bound to launch context 0; the house's own right and a 2 MiB page on each of the first 8,192 host-window segments, and none on other
segments. -/
def Obligations.reset_state : Prop :=
  let s := State.reset
  s.bootstat = 3
  ∧ (∀ id, (s.entry id).state = .held ∧ (s.entry id).holder = 1 ∧ (s.entry id).recovery = none)
  ∧ (∀ core idx, (s.slot core idx).role = .free ∧ (s.slot core idx).span = 1)
  ∧ (∀ bench idx, (s.loom bench idx).holder = none ∧ (s.loom bench idx).last = 47)
  ∧ (∀ die : BitVec 2, ∃ c ∈ s.classes, c.die = die ∧ c.cls = 0 ∧ c.owner = 1 ∧ c.floor = 32 ∧ c.ceiling = 32)
  ∧ ((s.hostq 0).ctx = some (0, (s.ctx 0).gen) ∧ ∀ q, 0 < q → (s.hostq q).ctx = none)
  ∧ (∀ h, h < 8192 →
      (∃ e, s.rightsOn 1 false (2 ^ 26 + h) = some e ∧ e.r = true ∧ e.w = true ∧ e.x = true ∧ e.c = true ∧ e.place = 3 ∧ e.unchecked = true
        ∧ e.sealedSeg = false ∧ e.migration = 0 ∧ e.home = 0 ∧ e.cls = 0 ∧ e.own = true)
      ∧ ∃ t, s.transAt (hostBase + h * 2 ^ 21) = some t ∧ t.present = true ∧ t.size = true ∧ t.host = true ∧ t.page = h * 128)
  ∧ (∀ owner seg, seg < 2 ^ 26 ∨ 2 ^ 26 + 8192 ≤ seg → s.rightsOn owner false seg = none)
  ∧ ∀ owner f, (s.rightsOn owner true f).isSome = true ↔ owner = 1

/-- R154, R173: decoding an encoded instruction gives it back, with its settle marker, for every well-formed instruction and every value of its
operands. -/
def Obligations.round_trip : Prop := ∀ (b : Bool) (i : Instr), i.wf = true → decode (encode b i) = .ok (b, i)
end

