-- ==== Sys2Proof/Laws/Memory.lean ====
section
/-! SUPPORT. The laws of memory: what a byte reads after a write, and that every memory operation keeps the canonical form. -/
namespace Sys2Proof.Machine

/-- Reset memory lists nothing. -/
theorem Memory.wf_reset : Memory.wf State.reset.mem := ⟨List.Pairwise.nil, fun _ h => absurd h List.not_mem_nil⟩

/-! ### One byte -/

/-- Every address listed after a write is the written one or was listed. -/
theorem Memory.mem_put (m : List Host.Cell) (a : Nat) (v : U8) (c : Host.Cell) (h : c ∈ Memory.put m a v) :
    c = (a, v) ∨ c ∈ m := by
  induction m with
  | nil => simpa [Memory.put] using h
  | cons d m ih =>
    unfold Memory.put at h
    split at h
    · simpa using h
    · rcases List.mem_cons.1 h with h | h
      · exact .inr (by simp [h])
      · rcases ih h with h | h
        · exact .inl h
        · exact .inr (List.mem_cons_of_mem _ h)

theorem Memory.pairwise_put (m : List Host.Cell) (a : Nat) (v : U8) (h : m.Pairwise (fun c d => c.1 < d.1))
    (ha : ∀ c ∈ m, c.1 ≠ a) : (Memory.put m a v).Pairwise (fun c d => c.1 < d.1) := by
  induction m with
  | nil => simp [Memory.put]
  | cons d m ih =>
    have hd := List.pairwise_cons.1 h
    unfold Memory.put
    split
    · rename_i hlt
      refine List.pairwise_cons.2 ⟨?_, h⟩
      intro c hc
      rcases List.mem_cons.1 hc with rfl | hc
      · exact hlt
      · exact Nat.lt_trans hlt (hd.1 c hc)
    · rename_i hge
      refine List.pairwise_cons.2 ⟨?_, ih hd.2 (fun c hc => ha c (List.mem_cons_of_mem _ hc))⟩
      intro c hc
      rcases Memory.mem_put m a v c hc with rfl | hc
      · have := ha d (by simp)
        show d.1 < a
        omega
      · exact hd.1 c hc

/-- Writing one byte keeps the canonical form. -/
theorem Memory.wf_set (m : List Host.Cell) (a : Nat) (v : U8) (h : Memory.wf m) : Memory.wf (Memory.set m a v) := by
  unfold Memory.set
  simp only
  split
  · exact ⟨h.1.filter _, fun c hc => h.2 c (List.mem_filter.1 hc).1⟩
  · rename_i hv
    refine ⟨Memory.pairwise_put _ a v (h.1.filter _) (fun c hc => by simpa using (List.mem_filter.1 hc).2), ?_⟩
    intro c hc
    rcases Memory.mem_put _ a v c hc with rfl | hc
    · exact hv
    · exact h.2 c (List.mem_filter.1 hc).1

/-! ### Reading back -/

theorem Memory.get_filter (m : List Host.Cell) (a b : Nat) :
    Memory.get (m.filter (fun c => c.1 != a)) b = if b = a then 0 else Memory.get m b := by
  induction m with
  | nil => simp [Memory.get]
  | cons d m ih =>
    obtain ⟨x, w⟩ := d
    by_cases hx : x = a
    · subst hx
      rw [List.filter_cons_of_neg (by simp), ih, Memory.get]
      split <;> rfl
    · rw [List.filter_cons_of_pos (by simpa using hx), Memory.get, ih, Memory.get]
      by_cases hb : b = x
      · rw [if_pos hb, if_pos hb, if_neg (fun e => hx (hb.symm.trans e))]
      · rw [if_neg hb, if_neg hb]

theorem Memory.get_put (m : List Host.Cell) (a b : Nat) (v : U8) (ha : ∀ c ∈ m, c.1 ≠ a) :
    Memory.get (Memory.put m a v) b = if b = a then v else Memory.get m b := by
  induction m with
  | nil => simp [Memory.get, Memory.put]
  | cons d m ih =>
    obtain ⟨x, w⟩ := d
    unfold Memory.put
    split
    · rw [Memory.get]
    · rw [Memory.get, ih (fun c hc => ha c (List.mem_cons_of_mem _ hc)), Memory.get]
      by_cases hb : b = x
      · have := ha (x, w) (by simp)
        rw [if_pos hb, if_pos hb, if_neg (fun e => this (hb.symm.trans e))]
      · rw [if_neg hb, if_neg hb]

/-- A byte reads as the last one written there, and every other address as before: for every list, canonical or not. -/
theorem Memory.get_set (m : List Host.Cell) (a b : Nat) (v : U8) :
    Memory.get (Memory.set m a v) b = if b = a then v else Memory.get m b := by
  unfold Memory.set
  simp only
  split
  · rename_i hv
    rw [Memory.get_filter, hv]
  · rw [Memory.get_put _ a b v (fun c hc => by simpa using (List.mem_filter.1 hc).2), Memory.get_filter]
    split <;> rfl

/-! ### The other operations -/

theorem Memory.wf_filter (m : List Host.Cell) (p : Host.Cell → Bool) (h : Memory.wf m) : Memory.wf (m.filter p) :=
  ⟨h.1.filter p, fun c hc => h.2 c (List.mem_filter.1 hc).1⟩

/-- Zeroing a range keeps the canonical form. -/
theorem Memory.wf_clear (m : List Host.Cell) (lo hi : Nat) (h : Memory.wf m) : Memory.wf (Memory.clear m lo hi) :=
  Memory.wf_filter m _ h

/-- Writing a number keeps the canonical form. -/
theorem Memory.wf_writeN (m : List Host.Cell) (a n v : Nat) (h : Memory.wf m) : Memory.wf (Memory.writeN m a n v) := by
  induction n generalizing m a v with
  | zero => exact h
  | succ n ih => exact ih _ _ _ (Memory.wf_set m a _ h)

/-- Replacing a range by canonical cells of that range keeps the canonical form. -/
theorem Memory.wf_splice (m : List Host.Cell) (lo hi : Nat) (new : List Host.Cell) (h : Memory.wf m) (hn : Memory.wf new)
    (hr : ∀ c ∈ new, lo ≤ c.1 ∧ c.1 < hi) (hl : lo ≤ hi) : Memory.wf (Memory.splice m lo hi new) := by
  refine ⟨?_, fun c hc => ?_⟩
  · unfold Memory.splice
    rw [List.append_assoc]
    refine List.pairwise_append.2 ⟨h.1.filter _, List.pairwise_append.2 ⟨hn.1, h.1.filter _, ?_⟩, ?_⟩
    · intro c hc d hd
      have h1 := hr c hc
      have h2 : hi ≤ d.1 := by simpa using (List.mem_filter.1 hd).2
      omega
    · intro c hc d hd
      have h1 : c.1 < lo := by simpa using (List.mem_filter.1 hc).2
      rcases List.mem_append.1 hd with hd | hd
      · have := hr d hd; omega
      · have h2 : hi ≤ d.1 := by simpa using (List.mem_filter.1 hd).2
        omega
  · unfold Memory.splice at hc
    rcases List.mem_append.1 hc with hc | hc
    · rcases List.mem_append.1 hc with hc | hc
      · exact h.2 c (List.mem_filter.1 hc).1
      · exact hn.2 c hc
    · exact h.2 c (List.mem_filter.1 hc).1

theorem Memory.cells_spec (a : Nat) (l : List U8) :
    Memory.wf (Memory.cells a l) ∧ ∀ c ∈ Memory.cells a l, a ≤ c.1 ∧ c.1 < a + l.length := by
  induction l generalizing a with
  | nil => exact ⟨⟨List.Pairwise.nil, fun _ h => absurd h List.not_mem_nil⟩, fun _ h => absurd h List.not_mem_nil⟩
  | cons v l ih =>
    have hi := ih (a + 1)
    unfold Memory.cells
    split
    · exact ⟨hi.1, fun c hc => by have := hi.2 c hc; simp only [List.length_cons]; omega⟩
    · rename_i hv
      refine ⟨⟨List.pairwise_cons.2 ⟨fun c hc => ?_, hi.1.1⟩, fun c hc => ?_⟩, fun c hc => ?_⟩
      · have := hi.2 c hc
        show a < c.1
        omega
      · rcases List.mem_cons.1 hc with hc | hc
        · rw [hc]; exact hv
        · exact hi.1.2 c hc
      · rcases List.mem_cons.1 hc with hc | hc
        · rw [hc]; simp
        · have := hi.2 c hc; simp only [List.length_cons]; omega

/-- Writing a list of bytes keeps the canonical form. -/
theorem Memory.wf_writeList (m : List Host.Cell) (a : Nat) (l : List U8) (h : Memory.wf m) :
    Memory.wf (Memory.writeList m a l) :=
  Memory.wf_splice m a (a + l.length) _ h (Memory.cells_spec a l).1 (Memory.cells_spec a l).2 (Nat.le_add_right _ _)

/-- Copying a range keeps the canonical form. -/
theorem Memory.wf_copy (m : List Host.Cell) (src dst n : Nat) (h : Memory.wf m) : Memory.wf (Memory.copy m src dst n) := by
  have hp : ∀ c ∈ Memory.part m src (src + n), src ≤ c.1 ∧ c.1 < src + n := fun c hc => by
    simpa [Memory.part] using (List.mem_filter.1 hc).2
  have hw : Memory.wf (Memory.part m src (src + n)) := Memory.wf_filter m _ h
  refine Memory.wf_splice m dst (dst + n) _ h ⟨?_, ?_⟩ ?_ (Nat.le_add_right _ _)
  · refine List.pairwise_map.2 (List.Pairwise.imp_of_mem ?_ hw.1)
    intro c d hc hd hlt
    have h1 := hp c hc
    have h2 := hp d hd
    show c.1 - src + dst < d.1 - src + dst
    omega
  · intro c hc
    obtain ⟨d, hd, rfl⟩ := List.mem_map.1 hc
    exact hw.2 d hd
  · intro c hc
    obtain ⟨d, hd, rfl⟩ := List.mem_map.1 hc
    have := hp d hd
    show dst ≤ d.1 - src + dst ∧ d.1 - src + dst < dst + n
    omega

/-! ### A number of bytes -/

/-- The memory of a machine is in canonical form. -/
abbrev State.memWf (s : State) : Prop := Memory.wf s.mem

end Sys2Proof.Machine
end

