-- ==== Sys2Proof/Laws/State.lean ====
section
/-! SUPPORT. The small lemmas of State: what each update of the issuing slot leaves as it was, field by field, and what the registers
read after it. -/
namespace Sys2Proof.Machine

/-! ### setSelf -/

@[simp] theorem State.setSelf_others (s : State) (f : Slot → Slot) : (s.setSelf f).others = s.others := rfl
@[simp] theorem State.setSelf_cores (s : State) (f : Slot → Slot) : (s.setSelf f).cores = s.cores := rfl
@[simp] theorem State.setSelf_looms (s : State) (f : Slot → Slot) : (s.setSelf f).looms = s.looms := rfl
@[simp] theorem State.setSelf_ctxs (s : State) (f : Slot → Slot) : (s.setSelf f).ctxs = s.ctxs := rfl
@[simp] theorem State.setSelf_entries (s : State) (f : Slot → Slot) : (s.setSelf f).entries = s.entries := rfl
@[simp] theorem State.setSelf_owners (s : State) (f : Slot → Slot) : (s.setSelf f).owners = s.owners := rfl
@[simp] theorem State.setSelf_rights (s : State) (f : Slot → Slot) : (s.setSelf f).rights = s.rights := rfl
@[simp] theorem State.setSelf_trans (s : State) (f : Slot → Slot) : (s.setSelf f).trans = s.trans := rfl
@[simp] theorem State.setSelf_mem (s : State) (f : Slot → Slot) : (s.setSelf f).mem = s.mem := rfl
@[simp] theorem State.setSelf_tags (s : State) (f : Slot → Slot) : (s.setSelf f).tags = s.tags := rfl
@[simp] theorem State.setSelf_recs (s : State) (f : Slot → Slot) : (s.setSelf f).recs = s.recs := rfl
@[simp] theorem State.setSelf_revoked (s : State) (f : Slot → Slot) : (s.setSelf f).revoked = s.revoked := rfl
@[simp] theorem State.setSelf_regions (s : State) (f : Slot → Slot) : (s.setSelf f).regions = s.regions := rfl
@[simp] theorem State.setSelf_launches (s : State) (f : Slot → Slot) : (s.setSelf f).launches = s.launches := rfl
@[simp] theorem State.setSelf_hostqs (s : State) (f : Slot → Slot) : (s.setSelf f).hostqs = s.hostqs := rfl
@[simp] theorem State.setSelf_links (s : State) (f : Slot → Slot) : (s.setSelf f).links = s.links := rfl
@[simp] theorem State.setSelf_out (s : State) (f : Slot → Slot) : (s.setSelf f).out = s.out := rfl
@[simp] theorem State.setSelf_agenda (s : State) (f : Slot → Slot) : (s.setSelf f).agenda = s.agenda := rfl
@[simp] theorem State.setSelf_picked (s : State) (f : Slot → Slot) : (s.setSelf f).picked = s.picked := rfl
@[simp] theorem State.setSelf_cycle (s : State) (f : Slot → Slot) : (s.setSelf f).cycle = s.cycle := rfl
@[simp] theorem State.setSelf_us (s : State) (f : Slot → Slot) : (s.setSelf f).us = s.us := rfl
@[simp] theorem State.setSelf_free (s : State) (f : Slot → Slot) : (s.setSelf f).free = s.free := rfl
@[simp] theorem State.setSelf_behind (s : State) (f : Slot → Slot) : (s.setSelf f).behind = s.behind := rfl
@[simp] theorem State.setSelf_kept (s : State) (f : Slot → Slot) : (s.setSelf f).kept = s.kept := rfl
@[simp] theorem State.setSelf_older (s : State) (f : Slot → Slot) : (s.setSelf f).older = s.older := rfl
@[simp] theorem State.setSelf_routed (s : State) (f : Slot → Slot) : (s.setSelf f).routed = s.routed := rfl
@[simp] theorem State.setSelf_errorsOwed (s : State) (f : Slot → Slot) : (s.setSelf f).errorsOwed = s.errorsOwed := rfl
@[simp] theorem State.setSelf_upcalls (s : State) (f : Slot → Slot) : (s.setSelf f).upcalls = s.upcalls := rfl
@[simp] theorem State.setSelf_faultsHeld (s : State) (f : Slot → Slot) : (s.setSelf f).faultsHeld = s.faultsHeld := rfl
@[simp] theorem State.setSelf_chainMsgs (s : State) (f : Slot → Slot) : (s.setSelf f).chainMsgs = s.chainMsgs := rfl
@[simp] theorem State.setSelf_chainNotes (s : State) (f : Slot → Slot) : (s.setSelf f).chainNotes = s.chainNotes := rfl
@[simp] theorem State.setSelf_requests (s : State) (f : Slot → Slot) : (s.setSelf f).requests = s.requests := rfl
@[simp] theorem State.setSelf_quarantined (s : State) (f : Slot → Slot) : (s.setSelf f).quarantined = s.quarantined := rfl
@[simp] theorem State.setSelf_bootKeys (s : State) (f : Slot → Slot) : (s.setSelf f).bootKeys = s.bootKeys := rfl

/-! ### setG -/

@[simp] theorem State.setG_others (s : State) (n : BitVec 5) (c : Cap) : (s.setG n c).others = s.others := rfl
@[simp] theorem State.setG_cores (s : State) (n : BitVec 5) (c : Cap) : (s.setG n c).cores = s.cores := rfl
@[simp] theorem State.setG_looms (s : State) (n : BitVec 5) (c : Cap) : (s.setG n c).looms = s.looms := rfl
@[simp] theorem State.setG_ctxs (s : State) (n : BitVec 5) (c : Cap) : (s.setG n c).ctxs = s.ctxs := rfl
@[simp] theorem State.setG_entries (s : State) (n : BitVec 5) (c : Cap) : (s.setG n c).entries = s.entries := rfl
@[simp] theorem State.setG_owners (s : State) (n : BitVec 5) (c : Cap) : (s.setG n c).owners = s.owners := rfl
@[simp] theorem State.setG_rights (s : State) (n : BitVec 5) (c : Cap) : (s.setG n c).rights = s.rights := rfl
@[simp] theorem State.setG_trans (s : State) (n : BitVec 5) (c : Cap) : (s.setG n c).trans = s.trans := rfl
@[simp] theorem State.setG_mem (s : State) (n : BitVec 5) (c : Cap) : (s.setG n c).mem = s.mem := rfl
@[simp] theorem State.setG_tags (s : State) (n : BitVec 5) (c : Cap) : (s.setG n c).tags = s.tags := rfl
@[simp] theorem State.setG_recs (s : State) (n : BitVec 5) (c : Cap) : (s.setG n c).recs = s.recs := rfl
@[simp] theorem State.setG_revoked (s : State) (n : BitVec 5) (c : Cap) : (s.setG n c).revoked = s.revoked := rfl
@[simp] theorem State.setG_regions (s : State) (n : BitVec 5) (c : Cap) : (s.setG n c).regions = s.regions := rfl
@[simp] theorem State.setG_launches (s : State) (n : BitVec 5) (c : Cap) : (s.setG n c).launches = s.launches := rfl
@[simp] theorem State.setG_hostqs (s : State) (n : BitVec 5) (c : Cap) : (s.setG n c).hostqs = s.hostqs := rfl
@[simp] theorem State.setG_links (s : State) (n : BitVec 5) (c : Cap) : (s.setG n c).links = s.links := rfl
@[simp] theorem State.setG_out (s : State) (n : BitVec 5) (c : Cap) : (s.setG n c).out = s.out := rfl
@[simp] theorem State.setG_agenda (s : State) (n : BitVec 5) (c : Cap) : (s.setG n c).agenda = s.agenda := rfl
@[simp] theorem State.setG_picked (s : State) (n : BitVec 5) (c : Cap) : (s.setG n c).picked = s.picked := rfl
@[simp] theorem State.setG_cycle (s : State) (n : BitVec 5) (c : Cap) : (s.setG n c).cycle = s.cycle := rfl
@[simp] theorem State.setG_us (s : State) (n : BitVec 5) (c : Cap) : (s.setG n c).us = s.us := rfl
@[simp] theorem State.setG_free (s : State) (n : BitVec 5) (c : Cap) : (s.setG n c).free = s.free := rfl
@[simp] theorem State.setG_behind (s : State) (n : BitVec 5) (c : Cap) : (s.setG n c).behind = s.behind := rfl
@[simp] theorem State.setG_kept (s : State) (n : BitVec 5) (c : Cap) : (s.setG n c).kept = s.kept := rfl
@[simp] theorem State.setG_older (s : State) (n : BitVec 5) (c : Cap) : (s.setG n c).older = s.older := rfl
@[simp] theorem State.setG_routed (s : State) (n : BitVec 5) (c : Cap) : (s.setG n c).routed = s.routed := rfl
@[simp] theorem State.setG_errorsOwed (s : State) (n : BitVec 5) (c : Cap) : (s.setG n c).errorsOwed = s.errorsOwed := rfl
@[simp] theorem State.setG_upcalls (s : State) (n : BitVec 5) (c : Cap) : (s.setG n c).upcalls = s.upcalls := rfl
@[simp] theorem State.setG_faultsHeld (s : State) (n : BitVec 5) (c : Cap) : (s.setG n c).faultsHeld = s.faultsHeld := rfl
@[simp] theorem State.setG_chainMsgs (s : State) (n : BitVec 5) (c : Cap) : (s.setG n c).chainMsgs = s.chainMsgs := rfl
@[simp] theorem State.setG_chainNotes (s : State) (n : BitVec 5) (c : Cap) : (s.setG n c).chainNotes = s.chainNotes := rfl
@[simp] theorem State.setG_requests (s : State) (n : BitVec 5) (c : Cap) : (s.setG n c).requests = s.requests := rfl
@[simp] theorem State.setG_quarantined (s : State) (n : BitVec 5) (c : Cap) : (s.setG n c).quarantined = s.quarantined := rfl
@[simp] theorem State.setG_bootKeys (s : State) (n : BitVec 5) (c : Cap) : (s.setG n c).bootKeys = s.bootKeys := rfl

/-! ### wr -/

@[simp] theorem State.wr_others (s : State) (n : BitVec 5) (x : U64) : (s.wr n x).others = s.others := rfl
@[simp] theorem State.wr_cores (s : State) (n : BitVec 5) (x : U64) : (s.wr n x).cores = s.cores := rfl
@[simp] theorem State.wr_looms (s : State) (n : BitVec 5) (x : U64) : (s.wr n x).looms = s.looms := rfl
@[simp] theorem State.wr_ctxs (s : State) (n : BitVec 5) (x : U64) : (s.wr n x).ctxs = s.ctxs := rfl
@[simp] theorem State.wr_entries (s : State) (n : BitVec 5) (x : U64) : (s.wr n x).entries = s.entries := rfl
@[simp] theorem State.wr_owners (s : State) (n : BitVec 5) (x : U64) : (s.wr n x).owners = s.owners := rfl
@[simp] theorem State.wr_rights (s : State) (n : BitVec 5) (x : U64) : (s.wr n x).rights = s.rights := rfl
@[simp] theorem State.wr_trans (s : State) (n : BitVec 5) (x : U64) : (s.wr n x).trans = s.trans := rfl
@[simp] theorem State.wr_mem (s : State) (n : BitVec 5) (x : U64) : (s.wr n x).mem = s.mem := rfl
@[simp] theorem State.wr_tags (s : State) (n : BitVec 5) (x : U64) : (s.wr n x).tags = s.tags := rfl
@[simp] theorem State.wr_recs (s : State) (n : BitVec 5) (x : U64) : (s.wr n x).recs = s.recs := rfl
@[simp] theorem State.wr_revoked (s : State) (n : BitVec 5) (x : U64) : (s.wr n x).revoked = s.revoked := rfl
@[simp] theorem State.wr_regions (s : State) (n : BitVec 5) (x : U64) : (s.wr n x).regions = s.regions := rfl
@[simp] theorem State.wr_launches (s : State) (n : BitVec 5) (x : U64) : (s.wr n x).launches = s.launches := rfl
@[simp] theorem State.wr_hostqs (s : State) (n : BitVec 5) (x : U64) : (s.wr n x).hostqs = s.hostqs := rfl
@[simp] theorem State.wr_links (s : State) (n : BitVec 5) (x : U64) : (s.wr n x).links = s.links := rfl
@[simp] theorem State.wr_out (s : State) (n : BitVec 5) (x : U64) : (s.wr n x).out = s.out := rfl
@[simp] theorem State.wr_agenda (s : State) (n : BitVec 5) (x : U64) : (s.wr n x).agenda = s.agenda := rfl
@[simp] theorem State.wr_picked (s : State) (n : BitVec 5) (x : U64) : (s.wr n x).picked = s.picked := rfl
@[simp] theorem State.wr_cycle (s : State) (n : BitVec 5) (x : U64) : (s.wr n x).cycle = s.cycle := rfl
@[simp] theorem State.wr_us (s : State) (n : BitVec 5) (x : U64) : (s.wr n x).us = s.us := rfl
@[simp] theorem State.wr_free (s : State) (n : BitVec 5) (x : U64) : (s.wr n x).free = s.free := rfl
@[simp] theorem State.wr_behind (s : State) (n : BitVec 5) (x : U64) : (s.wr n x).behind = s.behind := rfl
@[simp] theorem State.wr_kept (s : State) (n : BitVec 5) (x : U64) : (s.wr n x).kept = s.kept := rfl
@[simp] theorem State.wr_older (s : State) (n : BitVec 5) (x : U64) : (s.wr n x).older = s.older := rfl
@[simp] theorem State.wr_routed (s : State) (n : BitVec 5) (x : U64) : (s.wr n x).routed = s.routed := rfl
@[simp] theorem State.wr_errorsOwed (s : State) (n : BitVec 5) (x : U64) : (s.wr n x).errorsOwed = s.errorsOwed := rfl
@[simp] theorem State.wr_upcalls (s : State) (n : BitVec 5) (x : U64) : (s.wr n x).upcalls = s.upcalls := rfl
@[simp] theorem State.wr_faultsHeld (s : State) (n : BitVec 5) (x : U64) : (s.wr n x).faultsHeld = s.faultsHeld := rfl
@[simp] theorem State.wr_chainMsgs (s : State) (n : BitVec 5) (x : U64) : (s.wr n x).chainMsgs = s.chainMsgs := rfl
@[simp] theorem State.wr_chainNotes (s : State) (n : BitVec 5) (x : U64) : (s.wr n x).chainNotes = s.chainNotes := rfl
@[simp] theorem State.wr_requests (s : State) (n : BitVec 5) (x : U64) : (s.wr n x).requests = s.requests := rfl
@[simp] theorem State.wr_quarantined (s : State) (n : BitVec 5) (x : U64) : (s.wr n x).quarantined = s.quarantined := rfl
@[simp] theorem State.wr_bootKeys (s : State) (n : BitVec 5) (x : U64) : (s.wr n x).bootKeys = s.bootKeys := rfl

/-! ### setV -/

@[simp] theorem State.setV_others (s : State) (n : BitVec 5) (y : Vec) : (s.setV n y).others = s.others := rfl
@[simp] theorem State.setV_cores (s : State) (n : BitVec 5) (y : Vec) : (s.setV n y).cores = s.cores := rfl
@[simp] theorem State.setV_looms (s : State) (n : BitVec 5) (y : Vec) : (s.setV n y).looms = s.looms := rfl
@[simp] theorem State.setV_ctxs (s : State) (n : BitVec 5) (y : Vec) : (s.setV n y).ctxs = s.ctxs := rfl
@[simp] theorem State.setV_entries (s : State) (n : BitVec 5) (y : Vec) : (s.setV n y).entries = s.entries := rfl
@[simp] theorem State.setV_owners (s : State) (n : BitVec 5) (y : Vec) : (s.setV n y).owners = s.owners := rfl
@[simp] theorem State.setV_rights (s : State) (n : BitVec 5) (y : Vec) : (s.setV n y).rights = s.rights := rfl
@[simp] theorem State.setV_trans (s : State) (n : BitVec 5) (y : Vec) : (s.setV n y).trans = s.trans := rfl
@[simp] theorem State.setV_mem (s : State) (n : BitVec 5) (y : Vec) : (s.setV n y).mem = s.mem := rfl
@[simp] theorem State.setV_tags (s : State) (n : BitVec 5) (y : Vec) : (s.setV n y).tags = s.tags := rfl
@[simp] theorem State.setV_recs (s : State) (n : BitVec 5) (y : Vec) : (s.setV n y).recs = s.recs := rfl
@[simp] theorem State.setV_revoked (s : State) (n : BitVec 5) (y : Vec) : (s.setV n y).revoked = s.revoked := rfl
@[simp] theorem State.setV_regions (s : State) (n : BitVec 5) (y : Vec) : (s.setV n y).regions = s.regions := rfl
@[simp] theorem State.setV_launches (s : State) (n : BitVec 5) (y : Vec) : (s.setV n y).launches = s.launches := rfl
@[simp] theorem State.setV_hostqs (s : State) (n : BitVec 5) (y : Vec) : (s.setV n y).hostqs = s.hostqs := rfl
@[simp] theorem State.setV_links (s : State) (n : BitVec 5) (y : Vec) : (s.setV n y).links = s.links := rfl
@[simp] theorem State.setV_out (s : State) (n : BitVec 5) (y : Vec) : (s.setV n y).out = s.out := rfl
@[simp] theorem State.setV_agenda (s : State) (n : BitVec 5) (y : Vec) : (s.setV n y).agenda = s.agenda := rfl
@[simp] theorem State.setV_picked (s : State) (n : BitVec 5) (y : Vec) : (s.setV n y).picked = s.picked := rfl
@[simp] theorem State.setV_cycle (s : State) (n : BitVec 5) (y : Vec) : (s.setV n y).cycle = s.cycle := rfl
@[simp] theorem State.setV_us (s : State) (n : BitVec 5) (y : Vec) : (s.setV n y).us = s.us := rfl
@[simp] theorem State.setV_free (s : State) (n : BitVec 5) (y : Vec) : (s.setV n y).free = s.free := rfl
@[simp] theorem State.setV_behind (s : State) (n : BitVec 5) (y : Vec) : (s.setV n y).behind = s.behind := rfl
@[simp] theorem State.setV_kept (s : State) (n : BitVec 5) (y : Vec) : (s.setV n y).kept = s.kept := rfl
@[simp] theorem State.setV_older (s : State) (n : BitVec 5) (y : Vec) : (s.setV n y).older = s.older := rfl
@[simp] theorem State.setV_routed (s : State) (n : BitVec 5) (y : Vec) : (s.setV n y).routed = s.routed := rfl
@[simp] theorem State.setV_errorsOwed (s : State) (n : BitVec 5) (y : Vec) : (s.setV n y).errorsOwed = s.errorsOwed := rfl
@[simp] theorem State.setV_upcalls (s : State) (n : BitVec 5) (y : Vec) : (s.setV n y).upcalls = s.upcalls := rfl
@[simp] theorem State.setV_faultsHeld (s : State) (n : BitVec 5) (y : Vec) : (s.setV n y).faultsHeld = s.faultsHeld := rfl
@[simp] theorem State.setV_chainMsgs (s : State) (n : BitVec 5) (y : Vec) : (s.setV n y).chainMsgs = s.chainMsgs := rfl
@[simp] theorem State.setV_chainNotes (s : State) (n : BitVec 5) (y : Vec) : (s.setV n y).chainNotes = s.chainNotes := rfl
@[simp] theorem State.setV_requests (s : State) (n : BitVec 5) (y : Vec) : (s.setV n y).requests = s.requests := rfl
@[simp] theorem State.setV_quarantined (s : State) (n : BitVec 5) (y : Vec) : (s.setV n y).quarantined = s.quarantined := rfl
@[simp] theorem State.setV_bootKeys (s : State) (n : BitVec 5) (y : Vec) : (s.setV n y).bootKeys = s.bootKeys := rfl

/-! ### setP -/

@[simp] theorem State.setP_others (s : State) (n : BitVec 3) (y : Pred) : (s.setP n y).others = s.others := rfl
@[simp] theorem State.setP_cores (s : State) (n : BitVec 3) (y : Pred) : (s.setP n y).cores = s.cores := rfl
@[simp] theorem State.setP_looms (s : State) (n : BitVec 3) (y : Pred) : (s.setP n y).looms = s.looms := rfl
@[simp] theorem State.setP_ctxs (s : State) (n : BitVec 3) (y : Pred) : (s.setP n y).ctxs = s.ctxs := rfl
@[simp] theorem State.setP_entries (s : State) (n : BitVec 3) (y : Pred) : (s.setP n y).entries = s.entries := rfl
@[simp] theorem State.setP_owners (s : State) (n : BitVec 3) (y : Pred) : (s.setP n y).owners = s.owners := rfl
@[simp] theorem State.setP_rights (s : State) (n : BitVec 3) (y : Pred) : (s.setP n y).rights = s.rights := rfl
@[simp] theorem State.setP_trans (s : State) (n : BitVec 3) (y : Pred) : (s.setP n y).trans = s.trans := rfl
@[simp] theorem State.setP_mem (s : State) (n : BitVec 3) (y : Pred) : (s.setP n y).mem = s.mem := rfl
@[simp] theorem State.setP_tags (s : State) (n : BitVec 3) (y : Pred) : (s.setP n y).tags = s.tags := rfl
@[simp] theorem State.setP_recs (s : State) (n : BitVec 3) (y : Pred) : (s.setP n y).recs = s.recs := rfl
@[simp] theorem State.setP_revoked (s : State) (n : BitVec 3) (y : Pred) : (s.setP n y).revoked = s.revoked := rfl
@[simp] theorem State.setP_regions (s : State) (n : BitVec 3) (y : Pred) : (s.setP n y).regions = s.regions := rfl
@[simp] theorem State.setP_launches (s : State) (n : BitVec 3) (y : Pred) : (s.setP n y).launches = s.launches := rfl
@[simp] theorem State.setP_hostqs (s : State) (n : BitVec 3) (y : Pred) : (s.setP n y).hostqs = s.hostqs := rfl
@[simp] theorem State.setP_links (s : State) (n : BitVec 3) (y : Pred) : (s.setP n y).links = s.links := rfl
@[simp] theorem State.setP_out (s : State) (n : BitVec 3) (y : Pred) : (s.setP n y).out = s.out := rfl
@[simp] theorem State.setP_agenda (s : State) (n : BitVec 3) (y : Pred) : (s.setP n y).agenda = s.agenda := rfl
@[simp] theorem State.setP_picked (s : State) (n : BitVec 3) (y : Pred) : (s.setP n y).picked = s.picked := rfl
@[simp] theorem State.setP_cycle (s : State) (n : BitVec 3) (y : Pred) : (s.setP n y).cycle = s.cycle := rfl
@[simp] theorem State.setP_us (s : State) (n : BitVec 3) (y : Pred) : (s.setP n y).us = s.us := rfl
@[simp] theorem State.setP_free (s : State) (n : BitVec 3) (y : Pred) : (s.setP n y).free = s.free := rfl
@[simp] theorem State.setP_behind (s : State) (n : BitVec 3) (y : Pred) : (s.setP n y).behind = s.behind := rfl
@[simp] theorem State.setP_kept (s : State) (n : BitVec 3) (y : Pred) : (s.setP n y).kept = s.kept := rfl
@[simp] theorem State.setP_older (s : State) (n : BitVec 3) (y : Pred) : (s.setP n y).older = s.older := rfl
@[simp] theorem State.setP_routed (s : State) (n : BitVec 3) (y : Pred) : (s.setP n y).routed = s.routed := rfl
@[simp] theorem State.setP_errorsOwed (s : State) (n : BitVec 3) (y : Pred) : (s.setP n y).errorsOwed = s.errorsOwed := rfl
@[simp] theorem State.setP_upcalls (s : State) (n : BitVec 3) (y : Pred) : (s.setP n y).upcalls = s.upcalls := rfl
@[simp] theorem State.setP_faultsHeld (s : State) (n : BitVec 3) (y : Pred) : (s.setP n y).faultsHeld = s.faultsHeld := rfl
@[simp] theorem State.setP_chainMsgs (s : State) (n : BitVec 3) (y : Pred) : (s.setP n y).chainMsgs = s.chainMsgs := rfl
@[simp] theorem State.setP_chainNotes (s : State) (n : BitVec 3) (y : Pred) : (s.setP n y).chainNotes = s.chainNotes := rfl
@[simp] theorem State.setP_requests (s : State) (n : BitVec 3) (y : Pred) : (s.setP n y).requests = s.requests := rfl
@[simp] theorem State.setP_quarantined (s : State) (n : BitVec 3) (y : Pred) : (s.setP n y).quarantined = s.quarantined := rfl
@[simp] theorem State.setP_bootKeys (s : State) (n : BitVec 3) (y : Pred) : (s.setP n y).bootKeys = s.bootKeys := rfl

/-! ### addFlags -/

@[simp] theorem State.addFlags_others (s : State) (f : FFlags) : (s.addFlags f).others = s.others := rfl
@[simp] theorem State.addFlags_cores (s : State) (f : FFlags) : (s.addFlags f).cores = s.cores := rfl
@[simp] theorem State.addFlags_looms (s : State) (f : FFlags) : (s.addFlags f).looms = s.looms := rfl
@[simp] theorem State.addFlags_ctxs (s : State) (f : FFlags) : (s.addFlags f).ctxs = s.ctxs := rfl
@[simp] theorem State.addFlags_entries (s : State) (f : FFlags) : (s.addFlags f).entries = s.entries := rfl
@[simp] theorem State.addFlags_owners (s : State) (f : FFlags) : (s.addFlags f).owners = s.owners := rfl
@[simp] theorem State.addFlags_rights (s : State) (f : FFlags) : (s.addFlags f).rights = s.rights := rfl
@[simp] theorem State.addFlags_trans (s : State) (f : FFlags) : (s.addFlags f).trans = s.trans := rfl
@[simp] theorem State.addFlags_mem (s : State) (f : FFlags) : (s.addFlags f).mem = s.mem := rfl
@[simp] theorem State.addFlags_tags (s : State) (f : FFlags) : (s.addFlags f).tags = s.tags := rfl
@[simp] theorem State.addFlags_recs (s : State) (f : FFlags) : (s.addFlags f).recs = s.recs := rfl
@[simp] theorem State.addFlags_revoked (s : State) (f : FFlags) : (s.addFlags f).revoked = s.revoked := rfl
@[simp] theorem State.addFlags_regions (s : State) (f : FFlags) : (s.addFlags f).regions = s.regions := rfl
@[simp] theorem State.addFlags_launches (s : State) (f : FFlags) : (s.addFlags f).launches = s.launches := rfl
@[simp] theorem State.addFlags_hostqs (s : State) (f : FFlags) : (s.addFlags f).hostqs = s.hostqs := rfl
@[simp] theorem State.addFlags_links (s : State) (f : FFlags) : (s.addFlags f).links = s.links := rfl
@[simp] theorem State.addFlags_out (s : State) (f : FFlags) : (s.addFlags f).out = s.out := rfl
@[simp] theorem State.addFlags_agenda (s : State) (f : FFlags) : (s.addFlags f).agenda = s.agenda := rfl
@[simp] theorem State.addFlags_picked (s : State) (f : FFlags) : (s.addFlags f).picked = s.picked := rfl
@[simp] theorem State.addFlags_cycle (s : State) (f : FFlags) : (s.addFlags f).cycle = s.cycle := rfl
@[simp] theorem State.addFlags_us (s : State) (f : FFlags) : (s.addFlags f).us = s.us := rfl
@[simp] theorem State.addFlags_free (s : State) (f : FFlags) : (s.addFlags f).free = s.free := rfl
@[simp] theorem State.addFlags_behind (s : State) (f : FFlags) : (s.addFlags f).behind = s.behind := rfl
@[simp] theorem State.addFlags_kept (s : State) (f : FFlags) : (s.addFlags f).kept = s.kept := rfl
@[simp] theorem State.addFlags_older (s : State) (f : FFlags) : (s.addFlags f).older = s.older := rfl
@[simp] theorem State.addFlags_routed (s : State) (f : FFlags) : (s.addFlags f).routed = s.routed := rfl
@[simp] theorem State.addFlags_errorsOwed (s : State) (f : FFlags) : (s.addFlags f).errorsOwed = s.errorsOwed := rfl
@[simp] theorem State.addFlags_upcalls (s : State) (f : FFlags) : (s.addFlags f).upcalls = s.upcalls := rfl
@[simp] theorem State.addFlags_faultsHeld (s : State) (f : FFlags) : (s.addFlags f).faultsHeld = s.faultsHeld := rfl
@[simp] theorem State.addFlags_chainMsgs (s : State) (f : FFlags) : (s.addFlags f).chainMsgs = s.chainMsgs := rfl
@[simp] theorem State.addFlags_chainNotes (s : State) (f : FFlags) : (s.addFlags f).chainNotes = s.chainNotes := rfl
@[simp] theorem State.addFlags_requests (s : State) (f : FFlags) : (s.addFlags f).requests = s.requests := rfl
@[simp] theorem State.addFlags_quarantined (s : State) (f : FFlags) : (s.addFlags f).quarantined = s.quarantined := rfl
@[simp] theorem State.addFlags_bootKeys (s : State) (f : FFlags) : (s.addFlags f).bootKeys = s.bootKeys := rfl

/-! ### retire -/

@[simp] theorem State.retire_others (s : State) : (s.retire).others = s.others := rfl
@[simp] theorem State.retire_cores (s : State) : (s.retire).cores = s.cores := rfl
@[simp] theorem State.retire_looms (s : State) : (s.retire).looms = s.looms := rfl
@[simp] theorem State.retire_ctxs (s : State) : (s.retire).ctxs = s.ctxs := rfl
@[simp] theorem State.retire_entries (s : State) : (s.retire).entries = s.entries := rfl
@[simp] theorem State.retire_owners (s : State) : (s.retire).owners = s.owners := rfl
@[simp] theorem State.retire_rights (s : State) : (s.retire).rights = s.rights := rfl
@[simp] theorem State.retire_trans (s : State) : (s.retire).trans = s.trans := rfl
@[simp] theorem State.retire_mem (s : State) : (s.retire).mem = s.mem := rfl
@[simp] theorem State.retire_tags (s : State) : (s.retire).tags = s.tags := rfl
@[simp] theorem State.retire_recs (s : State) : (s.retire).recs = s.recs := rfl
@[simp] theorem State.retire_revoked (s : State) : (s.retire).revoked = s.revoked := rfl
@[simp] theorem State.retire_regions (s : State) : (s.retire).regions = s.regions := rfl
@[simp] theorem State.retire_launches (s : State) : (s.retire).launches = s.launches := rfl
@[simp] theorem State.retire_hostqs (s : State) : (s.retire).hostqs = s.hostqs := rfl
@[simp] theorem State.retire_links (s : State) : (s.retire).links = s.links := rfl
@[simp] theorem State.retire_out (s : State) : (s.retire).out = s.out := rfl
@[simp] theorem State.retire_agenda (s : State) : (s.retire).agenda = s.agenda := rfl
@[simp] theorem State.retire_picked (s : State) : (s.retire).picked = s.picked := rfl
@[simp] theorem State.retire_cycle (s : State) : (s.retire).cycle = s.cycle := rfl
@[simp] theorem State.retire_us (s : State) : (s.retire).us = s.us := rfl
@[simp] theorem State.retire_free (s : State) : (s.retire).free = s.free := rfl
@[simp] theorem State.retire_behind (s : State) : (s.retire).behind = s.behind := rfl
@[simp] theorem State.retire_kept (s : State) : (s.retire).kept = s.kept := rfl
@[simp] theorem State.retire_older (s : State) : (s.retire).older = s.older := rfl
@[simp] theorem State.retire_routed (s : State) : (s.retire).routed = s.routed := rfl
@[simp] theorem State.retire_errorsOwed (s : State) : (s.retire).errorsOwed = s.errorsOwed := rfl
@[simp] theorem State.retire_upcalls (s : State) : (s.retire).upcalls = s.upcalls := rfl
@[simp] theorem State.retire_faultsHeld (s : State) : (s.retire).faultsHeld = s.faultsHeld := rfl
@[simp] theorem State.retire_chainMsgs (s : State) : (s.retire).chainMsgs = s.chainMsgs := rfl
@[simp] theorem State.retire_chainNotes (s : State) : (s.retire).chainNotes = s.chainNotes := rfl
@[simp] theorem State.retire_requests (s : State) : (s.retire).requests = s.requests := rfl
@[simp] theorem State.retire_quarantined (s : State) : (s.retire).quarantined = s.quarantined := rfl
@[simp] theorem State.retire_bootKeys (s : State) : (s.retire).bootKeys = s.bootKeys := rfl

/-! ### jumpTo -/

@[simp] theorem State.jumpTo_others (s : State) (c : Cap) : (s.jumpTo c).others = s.others := rfl
@[simp] theorem State.jumpTo_cores (s : State) (c : Cap) : (s.jumpTo c).cores = s.cores := rfl
@[simp] theorem State.jumpTo_looms (s : State) (c : Cap) : (s.jumpTo c).looms = s.looms := rfl
@[simp] theorem State.jumpTo_ctxs (s : State) (c : Cap) : (s.jumpTo c).ctxs = s.ctxs := rfl
@[simp] theorem State.jumpTo_entries (s : State) (c : Cap) : (s.jumpTo c).entries = s.entries := rfl
@[simp] theorem State.jumpTo_owners (s : State) (c : Cap) : (s.jumpTo c).owners = s.owners := rfl
@[simp] theorem State.jumpTo_rights (s : State) (c : Cap) : (s.jumpTo c).rights = s.rights := rfl
@[simp] theorem State.jumpTo_trans (s : State) (c : Cap) : (s.jumpTo c).trans = s.trans := rfl
@[simp] theorem State.jumpTo_mem (s : State) (c : Cap) : (s.jumpTo c).mem = s.mem := rfl
@[simp] theorem State.jumpTo_tags (s : State) (c : Cap) : (s.jumpTo c).tags = s.tags := rfl
@[simp] theorem State.jumpTo_recs (s : State) (c : Cap) : (s.jumpTo c).recs = s.recs := rfl
@[simp] theorem State.jumpTo_revoked (s : State) (c : Cap) : (s.jumpTo c).revoked = s.revoked := rfl
@[simp] theorem State.jumpTo_regions (s : State) (c : Cap) : (s.jumpTo c).regions = s.regions := rfl
@[simp] theorem State.jumpTo_launches (s : State) (c : Cap) : (s.jumpTo c).launches = s.launches := rfl
@[simp] theorem State.jumpTo_hostqs (s : State) (c : Cap) : (s.jumpTo c).hostqs = s.hostqs := rfl
@[simp] theorem State.jumpTo_links (s : State) (c : Cap) : (s.jumpTo c).links = s.links := rfl
@[simp] theorem State.jumpTo_out (s : State) (c : Cap) : (s.jumpTo c).out = s.out := rfl
@[simp] theorem State.jumpTo_agenda (s : State) (c : Cap) : (s.jumpTo c).agenda = s.agenda := rfl
@[simp] theorem State.jumpTo_picked (s : State) (c : Cap) : (s.jumpTo c).picked = s.picked := rfl
@[simp] theorem State.jumpTo_cycle (s : State) (c : Cap) : (s.jumpTo c).cycle = s.cycle := rfl
@[simp] theorem State.jumpTo_us (s : State) (c : Cap) : (s.jumpTo c).us = s.us := rfl
@[simp] theorem State.jumpTo_free (s : State) (c : Cap) : (s.jumpTo c).free = s.free := rfl
@[simp] theorem State.jumpTo_behind (s : State) (c : Cap) : (s.jumpTo c).behind = s.behind := rfl
@[simp] theorem State.jumpTo_kept (s : State) (c : Cap) : (s.jumpTo c).kept = s.kept := rfl
@[simp] theorem State.jumpTo_older (s : State) (c : Cap) : (s.jumpTo c).older = s.older := rfl
@[simp] theorem State.jumpTo_routed (s : State) (c : Cap) : (s.jumpTo c).routed = s.routed := rfl
@[simp] theorem State.jumpTo_errorsOwed (s : State) (c : Cap) : (s.jumpTo c).errorsOwed = s.errorsOwed := rfl
@[simp] theorem State.jumpTo_upcalls (s : State) (c : Cap) : (s.jumpTo c).upcalls = s.upcalls := rfl
@[simp] theorem State.jumpTo_faultsHeld (s : State) (c : Cap) : (s.jumpTo c).faultsHeld = s.faultsHeld := rfl
@[simp] theorem State.jumpTo_chainMsgs (s : State) (c : Cap) : (s.jumpTo c).chainMsgs = s.chainMsgs := rfl
@[simp] theorem State.jumpTo_chainNotes (s : State) (c : Cap) : (s.jumpTo c).chainNotes = s.chainNotes := rfl
@[simp] theorem State.jumpTo_requests (s : State) (c : Cap) : (s.jumpTo c).requests = s.requests := rfl
@[simp] theorem State.jumpTo_quarantined (s : State) (c : Cap) : (s.jumpTo c).quarantined = s.quarantined := rfl
@[simp] theorem State.jumpTo_bootKeys (s : State) (c : Cap) : (s.jumpTo c).bootKeys = s.bootKeys := rfl

/-! ### wait -/

@[simp] theorem State.wait_others (s : State) (p : Park) : (s.wait p).others = s.others := rfl
@[simp] theorem State.wait_cores (s : State) (p : Park) : (s.wait p).cores = s.cores := rfl
@[simp] theorem State.wait_looms (s : State) (p : Park) : (s.wait p).looms = s.looms := rfl
@[simp] theorem State.wait_ctxs (s : State) (p : Park) : (s.wait p).ctxs = s.ctxs := rfl
@[simp] theorem State.wait_entries (s : State) (p : Park) : (s.wait p).entries = s.entries := rfl
@[simp] theorem State.wait_owners (s : State) (p : Park) : (s.wait p).owners = s.owners := rfl
@[simp] theorem State.wait_rights (s : State) (p : Park) : (s.wait p).rights = s.rights := rfl
@[simp] theorem State.wait_trans (s : State) (p : Park) : (s.wait p).trans = s.trans := rfl
@[simp] theorem State.wait_mem (s : State) (p : Park) : (s.wait p).mem = s.mem := rfl
@[simp] theorem State.wait_tags (s : State) (p : Park) : (s.wait p).tags = s.tags := rfl
@[simp] theorem State.wait_recs (s : State) (p : Park) : (s.wait p).recs = s.recs := rfl
@[simp] theorem State.wait_revoked (s : State) (p : Park) : (s.wait p).revoked = s.revoked := rfl
@[simp] theorem State.wait_regions (s : State) (p : Park) : (s.wait p).regions = s.regions := rfl
@[simp] theorem State.wait_launches (s : State) (p : Park) : (s.wait p).launches = s.launches := rfl
@[simp] theorem State.wait_hostqs (s : State) (p : Park) : (s.wait p).hostqs = s.hostqs := rfl
@[simp] theorem State.wait_links (s : State) (p : Park) : (s.wait p).links = s.links := rfl
@[simp] theorem State.wait_out (s : State) (p : Park) : (s.wait p).out = s.out := rfl
@[simp] theorem State.wait_agenda (s : State) (p : Park) : (s.wait p).agenda = s.agenda := rfl
@[simp] theorem State.wait_picked (s : State) (p : Park) : (s.wait p).picked = s.picked := rfl
@[simp] theorem State.wait_cycle (s : State) (p : Park) : (s.wait p).cycle = s.cycle := rfl
@[simp] theorem State.wait_us (s : State) (p : Park) : (s.wait p).us = s.us := rfl
@[simp] theorem State.wait_free (s : State) (p : Park) : (s.wait p).free = s.free := rfl
@[simp] theorem State.wait_behind (s : State) (p : Park) : (s.wait p).behind = s.behind := rfl
@[simp] theorem State.wait_kept (s : State) (p : Park) : (s.wait p).kept = s.kept := rfl
@[simp] theorem State.wait_older (s : State) (p : Park) : (s.wait p).older = s.older := rfl
@[simp] theorem State.wait_routed (s : State) (p : Park) : (s.wait p).routed = s.routed := rfl
@[simp] theorem State.wait_errorsOwed (s : State) (p : Park) : (s.wait p).errorsOwed = s.errorsOwed := rfl
@[simp] theorem State.wait_upcalls (s : State) (p : Park) : (s.wait p).upcalls = s.upcalls := rfl
@[simp] theorem State.wait_faultsHeld (s : State) (p : Park) : (s.wait p).faultsHeld = s.faultsHeld := rfl
@[simp] theorem State.wait_chainMsgs (s : State) (p : Park) : (s.wait p).chainMsgs = s.chainMsgs := rfl
@[simp] theorem State.wait_chainNotes (s : State) (p : Park) : (s.wait p).chainNotes = s.chainNotes := rfl
@[simp] theorem State.wait_requests (s : State) (p : Park) : (s.wait p).requests = s.requests := rfl
@[simp] theorem State.wait_quarantined (s : State) (p : Park) : (s.wait p).quarantined = s.quarantined := rfl
@[simp] theorem State.wait_bootKeys (s : State) (p : Park) : (s.wait p).bootKeys = s.bootKeys := rfl

/-! ### Registers -/

@[simp] theorem State.setSelf_self (s : State) (f : Slot → Slot) : (s.setSelf f).self = f s.self := rfl
@[simp] theorem State.setG_self (s : State) (n : BitVec 5) (c : Cap) : (s.setG n c).self = s.self.setG n c := rfl
@[simp] theorem State.wr_self (s : State) (n : BitVec 5) (x : U64) : (s.wr n x).self = s.self.setG n (Cap.ofInt x) := rfl
@[simp] theorem State.setV_self (s : State) (n : BitVec 5) (y : Vec) : (s.setV n y).self = s.self.setV n y := rfl
@[simp] theorem State.setP_self (s : State) (n : BitVec 3) (y : Pred) : (s.setP n y).self = s.self.setP n y := rfl

/-- g0 reads as the untagged zero, whatever has been written (R164). -/
@[simp] theorem Slot.getG_zero (x : Slot) : x.getG 0 = Cap.zero := rfl
/-- p0 reads as all ones (R164). -/
@[simp] theorem Slot.getP_zero (x : Slot) : x.getP 0 = BitVec.allOnes 128 := rfl
/-- A write of g0 is ignored (R164). -/
@[simp] theorem Slot.setG_zero (x : Slot) (c : Cap) : x.setG 0 c = x := rfl

/-- What a g register reads after a write. -/
theorem Slot.getG_setG (x : Slot) (m n : BitVec 5) (c : Cap) :
    (x.setG n c).getG m = if m = n ∧ n ≠ 0 then c else x.getG m := by
  by_cases hn : n = 0
  · rw [if_neg (fun e => e.2 hn)]; simp [Slot.setG, hn]
  · by_cases h : m = n
    · subst h
      rw [if_pos ⟨rfl, hn⟩]
      unfold Slot.getG Slot.setG
      rw [if_neg hn, if_neg hn]
      simp
    · have h' : n.toNat ≠ m.toNat := fun e => h (BitVec.eq_of_toNat_eq e.symm)
      rw [if_neg (fun e => h e.1)]
      unfold Slot.getG Slot.setG
      rw [if_neg hn]
      split
      · rfl
      · simp [h']

/-- What a v register reads after a write. -/
theorem Slot.getV_setV (x : Slot) (m n : BitVec 5) (y : Vec) :
    (x.setV n y).getV m = if m = n then y else x.getV m := by
  unfold Slot.getV Slot.setV
  by_cases h : m = n
  · subst h; simp
  · have h' : n.toNat ≠ m.toNat := fun e => h (BitVec.eq_of_toNat_eq e.symm)
    simp [h, h']

/-- What a p register reads after a write; p0 keeps reading as all ones. -/
theorem Slot.getP_setP (x : Slot) (m n : BitVec 3) (y : Pred) :
    (x.setP n y).getP m = if m = n ∧ n ≠ 0 then y else x.getP m := by
  by_cases hn : n = 0
  · rw [if_neg (fun e => e.2 hn)]; simp [Slot.setP, hn]
  · by_cases h : m = n
    · subst h
      rw [if_pos ⟨rfl, hn⟩]
      unfold Slot.getP Slot.setP
      rw [if_neg hn, if_neg hn]
      simp
    · have h' : n.toNat ≠ m.toNat := fun e => h (BitVec.eq_of_toNat_eq e.symm)
      rw [if_neg (fun e => h e.1)]
      unfold Slot.getP Slot.setP
      rw [if_neg hn]
      split
      · rfl
      · simp [h']

@[simp] theorem State.g_setG (s : State) (m n : BitVec 5) (c : Cap) :
    (s.setG n c).g m = if m = n ∧ n ≠ 0 then c else s.g m := s.self.getG_setG m n c
@[simp] theorem State.g_wr (s : State) (m n : BitVec 5) (x : U64) :
    (s.wr n x).g m = if m = n ∧ n ≠ 0 then Cap.ofInt x else s.g m := s.self.getG_setG m n _
@[simp] theorem State.v_setV (s : State) (m n : BitVec 5) (y : Vec) :
    (s.setV n y).v m = if m = n then y else s.v m := s.self.getV_setV m n y
@[simp] theorem State.p_setP (s : State) (m n : BitVec 3) (y : Pred) :
    (s.setP n y).p m = if m = n ∧ n ≠ 0 then y else s.p m := s.self.getP_setP m n y

@[simp] theorem State.g_retire (s : State) (n : BitVec 5) : s.retire.g n = s.g n := rfl
@[simp] theorem State.v_retire (s : State) (n : BitVec 5) : s.retire.v n = s.v n := rfl
@[simp] theorem State.p_retire (s : State) (n : BitVec 3) : s.retire.p n = s.p n := rfl
@[simp] theorem State.g_setV (s : State) (m n : BitVec 5) (y : Vec) : (s.setV n y).g m = s.g m := rfl
@[simp] theorem State.g_addFlags (s : State) (m : BitVec 5) (f : FFlags) : (s.addFlags f).g m = s.g m := rfl
@[simp] theorem State.v_addFlags (s : State) (m : BitVec 5) (f : FFlags) : (s.addFlags f).v m = s.v m := rfl
@[simp] theorem State.p_setV (s : State) (m : BitVec 3) (n : BitVec 5) (y : Vec) : (s.setV n y).p m = s.p m := rfl
@[simp] theorem State.g_jumpTo (s : State) (n : BitVec 5) (c : Cap) : (s.jumpTo c).g n = s.g n := rfl
@[simp] theorem State.pc_jumpTo (s : State) (c : Cap) : (s.jumpTo c).pc = c.addr := rfl
@[simp] theorem State.g_wait (s : State) (n : BitVec 5) (p : Park) : (s.wait p).g n = s.g n := rfl

@[simp] theorem Cap.addr_withAddrBits (c : Cap) (a : U64) : (c.withAddrBits a).addr = a := by
  show BitVec.extractLsb' 0 64 (c.high ++ a) = a
  refine BitVec.eq_of_getLsbD_eq fun i hi => ?_
  rw [BitVec.getLsbD_extractLsb', BitVec.getLsbD_append]
  simp [hi]

/-- The next word is 4 bytes on (R189). -/
@[simp] theorem State.pc_retire (s : State) : s.retire.pc = s.pc + 4 := by
  simp [State.retire, State.pc, Slot.retired]

/-! ### Keyed stores -/

theorem findBy_putBy_same {α : Type} (key : α → Nat) (x : α) (l : List α) : findBy key (key x) (putBy key x l) = some x := by
  induction l with
  | nil => simp [putBy, findBy]
  | cons y l ih =>
    unfold putBy
    split
    · simp [findBy]
    · split
      · simp [findBy]
      · rename_i h1 h2
        simp only [findBy]
        rw [if_neg (fun e => h2 e.symm)]
        exact ih

theorem findBy_putBy_other {α : Type} (key : α → Nat) (x : α) (k : Nat) (h : k ≠ key x) (l : List α) :
    findBy key k (putBy key x l) = findBy key k l := by
  induction l with
  | nil => simp [putBy, findBy, h.symm]
  | cons y l ih =>
    unfold putBy
    split
    · simp [findBy, h.symm]
    · split
      · rename_i h1 h2
        simp only [findBy]
        rw [if_neg h.symm, if_neg (fun e => h (by omega))]
      · simp only [findBy, ih]

@[simp] theorem State.core_putCore (s : State) (c : Core) : (s.putCore c).core c.idx = c := by
  simp [State.core, State.putCore, findBy_putBy_same]
theorem State.core_putCore_other (s : State) (c : Core) (i : Nat) (h : i ≠ c.idx) : (s.putCore c).core i = s.core i := by
  simp [State.core, State.putCore, findBy_putBy_other _ _ _ h]
@[simp] theorem State.ctx_putCtx (s : State) (c : Ctx) : (s.putCtx c).ctx c.idx = c := by
  simp [State.ctx, State.putCtx, findBy_putBy_same]
theorem State.ctx_putCtx_other (s : State) (c : Ctx) (i : Nat) (h : i ≠ c.idx) : (s.putCtx c).ctx i = s.ctx i := by
  simp [State.ctx, State.putCtx, findBy_putBy_other _ _ _ h]
@[simp] theorem State.entry_putEntry (s : State) (e : Entry) : (s.putEntry e).entry e.id = e := by
  have h := findBy_putBy_same entryKey e s.entries
  simp only [State.entry, State.putEntry]
  rw [show e.id.toNat = entryKey e from rfl, h]
  rfl
@[simp] theorem State.owner_putOwner (s : State) (o : Owner) : (s.putOwner o).owner o.id = some o :=
  findBy_putBy_same ownerKey o s.owners

end Sys2Proof.Machine
end

