-- ==== Sys2Proof/Laws/Access.lean ====
section
/-! SUPPORT. Laws of accesses: what an access that goes through changes besides the bytes it moves (its record, the state of its
pages, the monitors' records), and that it moves no byte to another place. -/
namespace Sys2Proof.Machine

/-! ### Addresses and places do not depend on what an access leaves behind -/

/-- Two translation stores that differ in clean bits only. -/
def SameTrans (l m : List Trans) : Prop :=
  ∀ k, (findBy transKey k m).map (fun t => { t with clean := false }) = (findBy transKey k l).map (fun t => { t with clean := false })

theorem SameTrans.refl (l : List Trans) : SameTrans l l := fun _ => rfl
theorem SameTrans.trans' {l m n : List Trans} (h : SameTrans l m) (g : SameTrans m n) : SameTrans l n :=
  fun k => (g k).trans (h k)

/-- What `commit` may change: records, the clean bits, the lines behind, the dirty sectors of kept lines, the dirty logs, the writes to
unchecked memory. -/
def Committed (s t : State) : Prop :=
  ∃ r b k d tr o, t = { s with recs := r, behind := b, kept := k, dirtyLog := d, trans := tr, older := o } ∧ SameTrans s.trans tr ∧
    k.map KeptLine.line = s.kept.map KeptLine.line ∧ ∃ l, o = l ++ s.older

theorem Committed.refl (s : State) : Committed s s := ⟨s.recs, s.behind, s.kept, s.dirtyLog, s.trans, s.older, rfl, .refl _, rfl, [], rfl⟩
theorem Committed.trans' {s t u : State} (h : Committed s t) (g : Committed t u) : Committed s u := by
  obtain ⟨r, b, k, d, tr, o, rfl, h1, h3, l, h5⟩ := h
  obtain ⟨r', b', k', d', tr', o', rfl, h2, h4, m, h6⟩ := g
  exact ⟨r', b', k', d', tr', o', rfl, h1.trans' h2, h4.trans h3, m ++ l, by rw [h6, show o = l ++ s.older from h5, List.append_assoc]⟩

theorem findBy_key {α : Type} {key : α → Nat} {k : Nat} {l : List α} {x : α} (h : findBy key k l = some x) : key x = k := by
  induction l with
  | nil => simp [findBy] at h
  | cons y l ih =>
    unfold findBy at h
    split at h
    · rename_i hy
      cases h
      exact hy
    · exact ih h

theorem SameTrans.soil (l : List Trans) (t : Trans) (h : findBy transKey (transKey t) l = some t) :
    SameTrans l (putBy transKey { t with clean := false } l) := by
  intro k
  by_cases hk : k = transKey t
  · subst hk
    have := findBy_putBy_same transKey { t with clean := false } l
    rw [show transKey { t with clean := false } = transKey t from rfl] at this
    rw [this, h]
    rfl
  · rw [findBy_putBy_other transKey { t with clean := false } k hk]

theorem hostReset_key {a i : Nat} (hp : placeOf a = .seg i) (hi : 2 ^ 26 ≤ i) :
    transKey (Trans.hostReset (i - 2 ^ 26)) = a / 2 ^ 14 % 2 ^ 42 / 128 * 128 * 2 + 1 := by
  unfold placeOf at hp
  simp only at hp
  split at hp
  · cases hp
  · split at hp
    · cases hp; omega
    · split at hp
      · cases hp
      · split at hp
        · split at hp
          · cases hp
          · split at hp <;> cases hp
        · split at hp
          · cases hp
          · split at hp
            · rename_i h1 h2
              cases hp
              unfold hostBase at *
              simp only [transKey, Trans.hostReset, if_true, hostBase]
              omega
            · split at hp
              · cases hp
              · split at hp <;> cases hp

theorem Committed.soil (s : State) (a : Nat) : Committed s (s.soil a) := by
  unfold State.soil
  split
  · rename_i i hp
    split
    · rename_i t ht
      split
      · split
        · exact .refl s
        · rename_i hr
          refine ⟨s.recs, s.behind, s.kept, s.dirtyLog, _, s.older, rfl, SameTrans.soil s.trans t ?_, rfl, [], rfl⟩
          unfold State.transAt at ht
          simp only [hp] at ht
          split at ht
          · rename_i u hu
            cases ht
            rw [findBy_key hu]; exact hu
          · split at ht
            · rename_i u hu
              cases ht
              rw [findBy_key hu]; exact hu
            · split at ht
              · rename_i hreset
                simp only [hreset, Bool.true_and] at hr
                cases hf : findBy transKey (transKey t) s.trans with
                | none => simp [hf] at hr
                | some u =>
                  exfalso
                  cases ht
                  rename_i h1 _ h2 _
                  rw [hostReset_key hp (by simp only [State.hostReset, Bool.and_eq_true, decide_eq_true_eq] at hreset; exact hreset.1.1),
                    h1] at hf
                  cases hf
              · cases ht
      · exact .refl s
    · exact .refl s
  · exact .refl s

theorem Committed.markLog (s : State) (frame lo n : Nat) : Committed s (s.markLog frame lo n) := by
  unfold State.markLog
  split
  · exact .refl s
  · exact ⟨s.recs, s.behind, s.kept, _, s.trans, s.older, rfl, .refl _, rfl, [], rfl⟩

theorem Committed.keepOld (s : State) (x : Acc) (line : Nat) : Committed s (s.keepOld x line) := by
  unfold State.keepOld
  simp only
  split
  · split
    · split
      · refine ⟨s.recs, s.behind, _, s.dirtyLog, s.trans, s.older, rfl, .refl _, ?_, [], rfl⟩
        rw [List.map_map]
        apply List.map_congr_left
        intro k _
        dsimp only [Function.comp]
        split <;> rfl
      · split
        · exact ⟨s.recs, _, s.kept, s.dirtyLog, s.trans, s.older, rfl, .refl _, rfl, [], rfl⟩
        · exact .refl s
    · exact .refl s
  · exact .refl s

theorem Committed.keepWrite (s : State) (x : Acc) : Committed s (s.keepWrite x) := by
  unfold State.keepWrite
  split
  · exact .refl s
  · exact ⟨s.recs, s.behind, s.kept, s.dirtyLog, s.trans, _, rfl, .refl _, rfl, [_], rfl⟩

theorem Committed.behind {s t : State} (h : Committed s t) (b : List OldLine) : Committed s { t with behind := b } := by
  obtain ⟨r, _, k, d, tr, o, rfl, h1⟩ := h
  exact ⟨r, b, k, d, tr, o, rfl, h1⟩

theorem Committed.markAtomic (s : State) (x : Acc) (line : Nat) (t : State) (h : s.markAtomic x line = some t) : Committed s t := by
  unfold State.markAtomic at h
  simp only at h
  split at h
  · split at h
    · split at h
      · cases h
        apply Committed.behind
        split
        · split
          · exact (Committed.markLog s _ _ _).trans' (.markLog _ _ _ _)
          · exact .markLog _ _ _ _
        · split
          · exact .markLog _ _ _ _
          · exact .refl s
      · cases h
    · cases h
  · cases h

theorem Committed.soilLines (s : State) (x : Acc) (line k : Nat) : Committed s (s.soilLines x line k) := by
  induction k generalizing s line with
  | zero => exact .refl s
  | succ k ih =>
    unfold State.soilLines
    refine Committed.trans' ?_ (ih _ _)
    refine Committed.trans' ?_ (.soil _ _)
    cases h : s.markAtomic x line with
    | none => exact .keepOld s x line
    | some t => exact .markAtomic s x line t h

theorem Committed.record (s : State) (x : Acc) : Committed s (s.record x) := by
  unfold State.record
  split
  · exact .refl s
  · split
    · exact .refl s
    · exact ⟨_, s.behind, s.kept, s.dirtyLog, s.trans, s.older, rfl, .refl _, rfl, [], rfl⟩

/-- An access that goes through leaves its record and the state of its pages and lines, and nothing else. -/
theorem Committed.commit (s : State) (x : Acc) : Committed s (s.commit x) := by
  unfold State.commit
  simp only
  split
  · exact ((Committed.record s x).trans' (.keepWrite _ _)).trans' (.soilLines _ _ _ _)
  · exact .record s x


/-! ### What reads alike in two states -/

/-- Addresses have the same places in memory and the same keys, and tags and bytes there are the same. -/
def SamePlaces (s t : State) : Prop :=
  (∀ a, t.phys a = s.phys a) ∧ (∀ a, t.sealKey a = s.sealKey a) ∧ t.sealedLines = s.sealedLines ∧ t.mem = s.mem ∧ t.tags = s.tags

theorem SameTrans.transAt {s : State} {l : List Trans} (h : SameTrans s.trans l) (a : Nat) :
    (({ s with trans := l } : State).transAt a).map (fun t => { t with clean := false })
      = (s.transAt a).map (fun t => { t with clean := false }) := by
  have h1 := h (a / 2 ^ 14 % 2 ^ 42 / 128 * 128 * 2 + 1)
  have h2 := h (a / 2 ^ 14 % 2 ^ 42 * 2)
  unfold State.transAt
  simp only
  cases hs : findBy transKey (a / 2 ^ 14 % 2 ^ 42 / 128 * 128 * 2 + 1) s.trans with
  | some x =>
    cases hl : findBy transKey (a / 2 ^ 14 % 2 ^ 42 / 128 * 128 * 2 + 1) l with
    | some y => rw [hs, hl] at h1; exact h1
    | none => rw [hs, hl] at h1; cases h1
  | none =>
    cases hl : findBy transKey (a / 2 ^ 14 % 2 ^ 42 / 128 * 128 * 2 + 1) l with
    | some y => rw [hs, hl] at h1; cases h1
    | none =>
      simp only
      cases hs2 : findBy transKey (a / 2 ^ 14 % 2 ^ 42 * 2) s.trans with
      | some x =>
        cases hl2 : findBy transKey (a / 2 ^ 14 % 2 ^ 42 * 2) l with
        | some y => rw [hs2, hl2] at h2; exact h2
        | none => rw [hs2, hl2] at h2; cases h2
      | none =>
        cases hl2 : findBy transKey (a / 2 ^ 14 % 2 ^ 42 * 2) l with
        | some y => rw [hs2, hl2] at h2; cases h2
        | none => rfl

theorem phys_of_trans (s : State) (l : List Trans) (h : SameTrans s.trans l) (a : Nat) :
    ({ s with trans := l } : State).phys a = s.phys a := by
  have h1 := h.transAt (s := s) a
  unfold State.phys
  split
  · rfl
  · show (if s.isKept a then _ else _) = _
    split
    · rfl
    cases hs : s.transAt a with
    | none =>
      cases hl : ({ s with trans := l } : State).transAt a with
      | none => rfl
      | some y => rw [hs, hl] at h1; cases h1
    | some x =>
      cases hl : ({ s with trans := l } : State).transAt a with
      | none => rw [hs, hl] at h1; cases h1
      | some y =>
        rw [hs, hl] at h1
        have e : ({ y with clean := false } : Trans) = { x with clean := false } := Option.some.inj h1
        simp only [Trans.mk.injEq] at e
        obtain ⟨-, e4, e1, -, -, -, -, -, e2, e3, -⟩ := e
        simp only [Trans.phys, e1, e2, e3, e4]
  · rfl

/-- Which lines are kept depends on their numbers only. -/
theorem isKept_of_lines {s t : State} (h : t.kept.map KeptLine.line = s.kept.map KeptLine.line) (a : Nat) : t.isKept a = s.isKept a := by
  have e : ∀ l : List KeptLine, l.any (fun k => k.line == a / 256) = (l.map KeptLine.line).any (· == a / 256) := fun l => by
    rw [List.any_map]; rfl
  rw [State.isKept, State.isKept, e, e, h]

theorem Committed.same {s t : State} (h : Committed s t) : SamePlaces s t := by
  obtain ⟨r, b, k, d, tr, o, rfl, h1, h3⟩ := h
  refine ⟨fun a => ?_, fun _ => rfl, rfl, rfl, rfl⟩
  rw [← phys_of_trans s tr h1 a]
  have e := isKept_of_lines (s := s) (t := { s with kept := k }) h3.1 a
  unfold State.phys
  split
  · rfl
  · show (if ({ s with kept := k } : State).isKept a then _ else _) = (if s.isKept a then _ else _)
    rw [e]
    rfl
  · rfl

theorem SamePlaces.refl (s : State) : SamePlaces s s := ⟨fun _ => rfl, fun _ => rfl, rfl, rfl, rfl⟩
theorem SamePlaces.trans' {s t u : State} (h : SamePlaces s t) (g : SamePlaces t u) : SamePlaces s u :=
  ⟨fun a => (g.1 a).trans (h.1 a), fun a => (g.2.1 a).trans (h.2.1 a), g.2.2.1.trans h.2.2.1, g.2.2.2.1.trans h.2.2.2.1,
    g.2.2.2.2.trans h.2.2.2.2⟩

theorem SamePlaces.byteAt {s t : State} (h : SamePlaces s t) (a : Nat) : t.byteAt a = s.byteAt a := by
  obtain ⟨h1, h2, h3, h4, h5⟩ := h
  unfold State.byteAt State.plainLine State.storedMac State.rawLine
  rw [h1, h2, h3, h4]

theorem SamePlaces.tagAt {s t : State} (h : SamePlaces s t) (a : Nat) : t.tagAt a = s.tagAt a := by
  unfold State.tagAt
  rw [h.1, h.2.2.2.2]

theorem SamePlaces.loadN {s t : State} (h : SamePlaces s t) (a n : Nat) : t.loadN a n = s.loadN a n := by
  induction n generalizing a with
  | zero => rfl
  | succ n ih => rw [State.loadN, State.loadN, h.byteAt, ih]

/-! ### Records that a monitor posts -/

/-- Event records have been posted: queues of events, records held back, what parked slots have noted, and the draws of the numbers of
handlers' executions. -/
def Noted (s t : State) : Prop :=
  ∃ x c o f, t = { s with self := x, cores := c, others := o, free := f } ∧ x = { s.self with park := x.park } ∧ x.park.alone = s.self.park.alone
    ∧ o.map (fun y => { y with park := Park.no }) = s.others.map (fun y => { y with park := Park.no })
    ∧ ∀ k, { t.core k with events := [], held := [] } = { s.core k with events := [], held := [] }

theorem Noted.refl (s : State) : Noted s s := ⟨s.self, s.cores, s.others, s.free, rfl, rfl, rfl, rfl, fun _ => rfl⟩
theorem Noted.trans' {s t u : State} (h : Noted s t) (g : Noted t u) : Noted s u := by
  obtain ⟨x, c, o, f, rfl, hx, ha, ho, hc⟩ := h
  obtain ⟨x', c', o', f', rfl, hx', ha', ho', hc'⟩ := g
  refine ⟨x', c', o', f', rfl, ?_, ha'.trans ha, ho'.trans ho, fun k => (hc' k).trans (hc k)⟩
  rw [hx']
  show ({ x with park := x'.park } : Slot) = { s.self with park := x'.park }
  rw [hx]

theorem Slot.noteYield_eq (x : Slot) (s : State) (core : Nat) (cause : BitVec 2) :
    x.noteYield s core cause = { x with park := (x.noteYield s core cause).park } := by
  unfold Slot.noteYield
  split
  · split <;> rfl
  · rfl

theorem Noted.noteYield (s : State) (core : Nat) (cause : BitVec 2) : Noted s (s.noteYield core cause) := by
  refine ⟨_, s.cores, _, s.free, rfl, s.self.noteYield_eq s core cause, ?_, ?_, fun _ => rfl⟩
  · unfold Slot.noteYield
    split
    · split
      · rename_i h _; rw [h]; rfl
      · rfl
    · rfl
  rw [List.map_map]
  apply List.map_congr_left
  intro y _
  show ({ y.noteYield s core cause with park := Park.no } : Slot) = _
  rw [y.noteYield_eq]

theorem core_idx (s : State) (k : Nat) : (s.core k).idx = k := by
  unfold State.core
  cases h : findBy Core.idx k s.cores with
  | none => rfl
  | some c => exact findBy_key h

theorem Noted.events (s : State) (core : Nat) (ev hd : List EvRec) :
    Noted s (s.putCore { s.core core with events := ev, held := hd }) := by
  refine ⟨s.self, _, s.others, s.free, rfl, rfl, rfl, rfl, ?_⟩
  intro k
  show ({ (s.putCore { s.core core with events := ev, held := hd }).core k with events := [], held := [] } : Core) = _
  by_cases hk : k = core
  · subst hk
    have h := State.core_putCore s { s.core k with events := ev, held := hd }
    rw [show ({ s.core k with events := ev, held := hd } : Core).idx = k from core_idx s k] at h
    rw [h]
  · rw [State.core_putCore_other _ _ _ (by rw [show ({ s.core core with events := ev, held := hd } : Core).idx = core from core_idx s core]; exact hk)]

theorem Noted.postEvent (s : State) (core : Nat) (r : EvRec) : Noted s (s.postEvent core r) := by
  unfold State.postEvent
  simp only
  split
  · exact (Noted.events s core _ (s.core core).held).trans' (.noteYield _ _ _)
  · exact Noted.events s core (s.core core).events _

theorem Noted.foldl {α : Type} (f : State → α → State) (hf : ∀ t x, Noted t (f t x)) (l : List α) (s : State) :
    Noted s (l.foldl f s) := by
  induction l generalizing s with
  | nil => exact .refl s
  | cons x l ih => exact (hf s x).trans' (ih _)

theorem Noted.monitorPost (s : State) (x : Acc) : Noted s (s.monitorPost x) := by
  unfold State.monitorPost
  split
  · exact .refl s
  · apply Noted.foldl
    intro t c
    apply Noted.foldl
    intro t i
    split
    · exact .refl t
    · split
      · exact .refl t
      · exact (Noted.postEvent _ _ _).trans' ⟨_, _, _, _, rfl, rfl, rfl, rfl, fun _ => rfl⟩

theorem Noted.same {s t : State} (h : Noted s t) : SamePlaces s t := by
  obtain ⟨x, c, o, f, rfl, -, -, -, -⟩ := h
  exact ⟨fun _ => rfl, fun _ => rfl, rfl, rfl, rfl⟩

theorem noteWatch_eq (s : State) (x : Acc) (m : Pred) :
    s.noteWatch x m = { s with self := { s.self with watchTrap := (s.noteWatch x m).self.watchTrap } } := by
  unfold State.noteWatch
  split
  · rfl
  · split <;> rfl
  · rfl

theorem SamePlaces.noteWatch (s : State) (x : Acc) (m : Pred) : SamePlaces s (s.noteWatch x m) := by
  rw [noteWatch_eq]
  exact ⟨fun _ => rfl, fun _ => rfl, rfl, rfl, rfl⟩

/-! ### Stores to lines that are not sealed -/

/-- The place of a byte keeps its offset within a 16 KiB page. -/
theorem phys_mod {s : State} {a p : Nat} (h : s.phys a = some p) : p % 2 ^ 14 = a % 2 ^ 14 := by
  unfold State.phys at h
  split at h
  · cases h; rfl
  · by_cases hk : s.isKept a
    · rw [if_pos hk] at h
      cases h
      unfold keptBase
      omega
    · rw [if_neg hk] at h
      split at h
      · split at h
        · cases h
          unfold Trans.phys hostBase
          split <;> split <;> omega
        · cases h
      · cases h
  · cases h

theorem putByte_plain {s : State} {a p : Nat} {v : U8} (h : s.phys a = some p) (hk : s.sealKey a = none) :
    s.putByte a v = { s with mem := Memory.set s.mem p v } := by
  unfold State.putByte
  rw [h, hk]

end Sys2Proof.Machine
end

