-- ==== Sys2Proof/Laws/Crypto.lean ====
section
/-! SUPPORT. Laws of the ciphers: AES-256 and XTS decryption undo encryption, so that what a sealed line holds reads back as it was
written (R82). -/
set_option Elab.async false
namespace Sys2Proof.Machine

/-! ### Bytes -/

theorem xorBytes_length (a b : List U8) : (xorBytes a b).length = min a.length b.length := by simp [xorBytes]

theorem xorBytes_cancel (a b : List U8) (h : a.length = b.length) : xorBytes (xorBytes a b) b = a := by
  induction a generalizing b with
  | nil => rfl
  | cons x a ih =>
    cases b with
    | nil => simp at h
    | cons y b =>
      have := ih b (by simpa using h)
      unfold xorBytes at this ⊢
      simp only [List.zipWith_cons_cons, this, List.cons.injEq, and_true]
      rw [BitVec.xor_assoc, BitVec.xor_self, BitVec.xor_zero]

theorem bytesLE_length (n v : Nat) : (bytesLE n v).length = n := by simp [bytesLE]

theorem chunks_length (k n : Nat) (l : List U8) : (chunks k n l).length = n := by
  induction n generalizing l with
  | zero => rfl
  | succ n ih => simp [chunks, ih]

theorem chunks_flatten (k n : Nat) (l : List U8) : (chunks k n l).flatten = l.take (k * n) := by
  induction n generalizing l with
  | zero => simp [chunks]
  | succ n ih => rw [chunks, List.flatten_cons, ih, Nat.mul_succ, Nat.add_comm, ← List.take_add]

theorem chunks_mem_length (k n : Nat) (l : List U8) (h : k * n ≤ l.length) : ∀ b ∈ chunks k n l, b.length = k := by
  induction n generalizing l with
  | zero => intro b hb; simp [chunks] at hb
  | succ n ih =>
    intro b hb
    rw [Nat.mul_succ] at h
    rw [chunks, List.mem_cons] at hb
    rcases hb with rfl | hb
    · simp; omega
    · exact ih _ (by simp; omega) b hb

theorem chunks_of_flatten (k : Nat) (ls : List (List U8)) (h : ∀ b ∈ ls, b.length = k) : chunks k ls.length ls.flatten = ls := by
  induction ls with
  | nil => rfl
  | cons b ls ih =>
    have hb := h b (by simp)
    rw [List.length_cons, chunks, List.flatten_cons, List.take_left' hb, List.drop_left' hb, ih (fun x hx => h x (by simp [hx]))]

/-! ### The field and the rounds -/

theorem invSubByte_subByte : ∀ b : U8, invSubByte (subByte b) = b := by decide +kernel

theorem xtime_xor (x y : U8) : xtime (x ^^^ y) = xtime x ^^^ xtime y := by
  unfold xtime
  rw [BitVec.shiftLeft_xor_distrib, BitVec.getLsbD_xor]
  cases x.getLsbD 7 <;> cases y.getLsbD 7 <;> simp
  · ac_rfl
  · ac_rfl
  · rw [show ∀ a b c : U8, a ^^^ c ^^^ (b ^^^ c) = a ^^^ b ^^^ (c ^^^ c) by intros; ac_rfl]; simp

theorem gmulFrom_xor (c x y : U8) (n : Nat) : gmulFrom c (x ^^^ y) n = gmulFrom c x n ^^^ gmulFrom c y n := by
  induction n with
  | zero => simp [gmulFrom]
  | succ n ih =>
    unfold gmulFrom
    rw [ih, xtime_xor, BitVec.getLsbD_xor]
    cases x.getLsbD (7 - n) <;> cases y.getLsbD (7 - n) <;> simp
    · ac_rfl
    · ac_rfl
    · rw [show ∀ a b c : U8, a ^^^ c ^^^ (b ^^^ c) = a ^^^ b ^^^ (c ^^^ c) by intros; ac_rfl]; simp

theorem gmul_xor (c x y : U8) : gmul c (x ^^^ y) = gmul c x ^^^ gmul c y := gmulFrom_xor c x y 8

/-- Rows of the product of the two circulants of MixColumns. -/
theorem mix_row0 : ∀ b : U8, gmul 14 (gmul 2 b) ^^^ gmul 11 (gmul 1 b) ^^^ gmul 13 (gmul 1 b) ^^^ gmul 9 (gmul 3 b) = b := by decide +kernel
theorem mix_row1 : ∀ b : U8, gmul 14 (gmul 3 b) ^^^ gmul 11 (gmul 2 b) ^^^ gmul 13 (gmul 1 b) ^^^ gmul 9 (gmul 1 b) = 0 := by decide +kernel
theorem mix_row2 : ∀ b : U8, gmul 14 (gmul 1 b) ^^^ gmul 11 (gmul 3 b) ^^^ gmul 13 (gmul 2 b) ^^^ gmul 9 (gmul 1 b) = 0 := by decide +kernel
theorem mix_row3 : ∀ b : U8, gmul 14 (gmul 1 b) ^^^ gmul 11 (gmul 1 b) ^^^ gmul 13 (gmul 3 b) ^^^ gmul 9 (gmul 2 b) = 0 := by decide +kernel

/-- One byte of a column, mixed and mixed back. -/
theorem mix_byte (a b c d : U8) :
    gmul 14 (gmul 2 a ^^^ gmul 3 b ^^^ gmul 1 c ^^^ gmul 1 d) ^^^ gmul 11 (gmul 2 b ^^^ gmul 3 c ^^^ gmul 1 d ^^^ gmul 1 a)
      ^^^ gmul 13 (gmul 2 c ^^^ gmul 3 d ^^^ gmul 1 a ^^^ gmul 1 b) ^^^ gmul 9 (gmul 2 d ^^^ gmul 3 a ^^^ gmul 1 b ^^^ gmul 1 c) = a := by
  simp only [gmul_xor]
  have h0 := mix_row0 a
  have h1 := mix_row1 b
  have h2 := mix_row2 c
  have h3 := mix_row3 d
  calc _ = (gmul 14 (gmul 2 a) ^^^ gmul 11 (gmul 1 a) ^^^ gmul 13 (gmul 1 a) ^^^ gmul 9 (gmul 3 a))
      ^^^ (gmul 14 (gmul 3 b) ^^^ gmul 11 (gmul 2 b) ^^^ gmul 13 (gmul 1 b) ^^^ gmul 9 (gmul 1 b))
      ^^^ (gmul 14 (gmul 1 c) ^^^ gmul 11 (gmul 3 c) ^^^ gmul 13 (gmul 2 c) ^^^ gmul 9 (gmul 1 c))
      ^^^ (gmul 14 (gmul 1 d) ^^^ gmul 11 (gmul 1 d) ^^^ gmul 13 (gmul 3 d) ^^^ gmul 9 (gmul 2 d)) := by ac_rfl
    _ = a := by rw [h0, h1, h2, h3]; simp

theorem list16 (l : List U8) (h : l.length = 16) : ∃ a b c d e f g i j k m n o p q r, l = [a, b, c, d, e, f, g, i, j, k, m, n, o, p, q, r] := by
  iterate 16 (rcases l with _ | ⟨_, l⟩; (simp at h))
  have : l = [] := by simpa using h
  subst this
  exact ⟨_, _, _, _, _, _, _, _, _, _, _, _, _, _, _, _, rfl⟩

theorem shiftRows_back (s : List U8) (h : s.length = 16) : shiftRowsBy 3 (shiftRowsBy 1 s) = s := by
  obtain ⟨a, b, c, d, e, f, g, i, j, k, m, n, o, p, q, r, rfl⟩ := list16 s h
  rfl

theorem mix_back (s : List U8) (h : s.length = 16) : mixWith 14 11 13 9 (mixWith 2 3 1 1 s) = s := by
  obtain ⟨a, b, c, d, e, f, g, i, j, k, m, n, o, p, q, r, rfl⟩ := list16 s h
  have e (c0 c1 c2 c3 a b c d e f g i j k m n o p q r : U8) : mixWith c0 c1 c2 c3 [a, b, c, d, e, f, g, i, j, k, m, n, o, p, q, r] =
    [gmul c0 a ^^^ gmul c1 b ^^^ gmul c2 c ^^^ gmul c3 d, gmul c0 b ^^^ gmul c1 c ^^^ gmul c2 d ^^^ gmul c3 a,
     gmul c0 c ^^^ gmul c1 d ^^^ gmul c2 a ^^^ gmul c3 b, gmul c0 d ^^^ gmul c1 a ^^^ gmul c2 b ^^^ gmul c3 c,
     gmul c0 e ^^^ gmul c1 f ^^^ gmul c2 g ^^^ gmul c3 i, gmul c0 f ^^^ gmul c1 g ^^^ gmul c2 i ^^^ gmul c3 e,
     gmul c0 g ^^^ gmul c1 i ^^^ gmul c2 e ^^^ gmul c3 f, gmul c0 i ^^^ gmul c1 e ^^^ gmul c2 f ^^^ gmul c3 g,
     gmul c0 j ^^^ gmul c1 k ^^^ gmul c2 m ^^^ gmul c3 n, gmul c0 k ^^^ gmul c1 m ^^^ gmul c2 n ^^^ gmul c3 j,
     gmul c0 m ^^^ gmul c1 n ^^^ gmul c2 j ^^^ gmul c3 k, gmul c0 n ^^^ gmul c1 j ^^^ gmul c2 k ^^^ gmul c3 m,
     gmul c0 o ^^^ gmul c1 p ^^^ gmul c2 q ^^^ gmul c3 r, gmul c0 p ^^^ gmul c1 q ^^^ gmul c2 r ^^^ gmul c3 o,
     gmul c0 q ^^^ gmul c1 r ^^^ gmul c2 o ^^^ gmul c3 p, gmul c0 r ^^^ gmul c1 o ^^^ gmul c2 p ^^^ gmul c3 q] := rfl
  rw [e, e]
  simp only [mix_byte]

theorem shiftRows_length (k : Nat) (s : List U8) : (shiftRowsBy k s).length = 16 := by simp [shiftRowsBy]
theorem mixWith_length (a b c d : U8) (s : List U8) : (mixWith a b c d s).length = 16 := by simp [mixWith]

/-! ### The key schedule -/

theorem keyWord_length (i : Nat) (w : List (List U8)) (h : ∀ x ∈ w, x.length = 4) (hw : 8 ≤ w.length) : (keyWord i w).length = 4 := by
  have g (j : Nat) (hj : j < w.length) : (w.getD j []).length = 4 := by
    rw [List.getD_eq_getElem _ _ hj]; exact h _ (List.getElem_mem hj)
  unfold keyWord
  simp only
  rw [xorBytes_length, g 7 (by omega)]
  split
  · rw [xorBytes_length, List.length_map, List.length_append, List.length_drop, List.length_take, g 0 (by omega)]; rfl
  · split
    · rw [List.length_map, g 0 (by omega)]; rfl
    · rw [g 0 (by omega)]; rfl

theorem keySchedule_lengths (k : BitVec 256) : (keySchedule k).length = 60 ∧ ∀ x ∈ keySchedule k, x.length = 4 := by
  have key (n : Nat) (w : List (List U8)) (h : ∀ x ∈ w, x.length = 4) (hw : w.length = 8) :
      ((List.range n).foldl (fun w j => keyWord (j + 8) w :: w) w).length = 8 + n
        ∧ ∀ x ∈ (List.range n).foldl (fun w j => keyWord (j + 8) w :: w) w, x.length = 4 := by
    induction n with
    | zero => exact ⟨hw, h⟩
    | succ n ih =>
      rw [List.range_succ, List.foldl_append]
      simp only [List.foldl_cons, List.foldl_nil]
      refine ⟨by rw [List.length_cons, ih.1]; omega, ?_⟩
      intro x hx
      rw [List.mem_cons] at hx
      rcases hx with rfl | hx
      · exact keyWord_length _ _ ih.2 (by rw [ih.1]; omega)
      · exact ih.2 x hx
  have h1 : (bytesBE 32 k.toNat).length = 32 := by simp [bytesBE, bytesLE]
  have := key 52 (chunks 4 8 (bytesBE 32 k.toNat)).reverse
    (fun x hx => chunks_mem_length 4 8 _ (by rw [h1]) x (List.mem_reverse.1 hx)) (by rw [List.length_reverse, chunks_length])
  unfold keySchedule
  exact ⟨by rw [List.length_reverse, this.1], fun x hx => this.2 x (List.mem_reverse.1 hx)⟩

theorem roundKeys_getD (k : BitVec 256) (r : Nat) (h : r < 15) : ((roundKeys k).getD r []).length = 16 := by
  have hk := keySchedule_lengths k
  have g (j : Nat) (hj : j < 60) : ((keySchedule k).getD j []).length = 4 := by
    rw [List.getD_eq_getElem _ _ (by rw [hk.1]; exact hj)]; exact hk.2 _ (List.getElem_mem _)
  unfold roundKeys
  simp only
  rw [List.getD_eq_getElem _ _ (by simpa using h), List.getElem_map, List.getElem_range]
  simp only [List.length_append]
  rw [g _ (by omega), g _ (by omega), g _ (by omega), g _ (by omega)]

/-! ### AES-256 -/

theorem aesEncrypt_length (k : BitVec 256) (p : List U8) : (aesEncrypt k p).length = 16 := by
  unfold aesEncrypt
  simp only
  rw [xorBytes_length, shiftRows_length, roundKeys_getD k 14 (by omega)]
  rfl

/-- The state after the first `r` rounds. -/
def aesAfter (k : BitVec 256) (p : List U8) (r : Nat) : List U8 :=
  (List.range r).foldl
    (fun s r => xorBytes (mixWith 2 3 1 1 (shiftRowsBy 1 (s.map subByte))) ((roundKeys k).getD (r + 1) []))
    (xorBytes p ((roundKeys k).getD 0 []))

theorem aesAfter_length (k : BitVec 256) (p : List U8) (hp : p.length = 16) (r : Nat) (hr : r ≤ 13) : (aesAfter k p r).length = 16 := by
  cases r with
  | zero => unfold aesAfter; simp only [List.range_zero, List.foldl_nil]; rw [xorBytes_length, hp, roundKeys_getD k 0 (by omega)]; rfl
  | succ r =>
    unfold aesAfter
    rw [List.range_succ, List.foldl_append]
    simp only [List.foldl_cons, List.foldl_nil]
    rw [xorBytes_length, mixWith_length, roundKeys_getD k (r + 1) (by omega)]; rfl

theorem aesAfter_succ (k : BitVec 256) (p : List U8) (r : Nat) : aesAfter k p (r + 1)
    = xorBytes (mixWith 2 3 1 1 (shiftRowsBy 1 ((aesAfter k p r).map subByte))) ((roundKeys k).getD (r + 1) []) := by
  unfold aesAfter
  rw [List.range_succ, List.foldl_append]
  rfl

theorem sub_back (s : List U8) (h : s.length = 16) : (shiftRowsBy 3 (shiftRowsBy 1 (s.map subByte))).map invSubByte = s := by
  rw [shiftRows_back _ (by simpa using h), List.map_map]
  conv => rhs; rw [← List.map_id s]
  apply List.map_congr_left
  intro b _
  exact invSubByte_subByte b

/-- AES-256 decryption undoes encryption. -/
theorem aesDecrypt_aesEncrypt (k : BitVec 256) (p : List U8) (hp : p.length = 16) : aesDecrypt k (aesEncrypt k p) = p := by
  have e : aesEncrypt k p = xorBytes (shiftRowsBy 1 ((aesAfter k p 13).map subByte)) ((roundKeys k).getD 14 []) := rfl
  unfold aesDecrypt
  simp only
  rw [e, xorBytes_cancel _ _ (by rw [shiftRows_length, roundKeys_getD k 14 (by omega)])]
  have key (r : Nat) (hr : r ≤ 13) :
      (List.range r).foldl (fun s r => mixWith 14 11 13 9 (xorBytes ((shiftRowsBy 3 s).map invSubByte) ((roundKeys k).getD (13 - r) [])))
        (shiftRowsBy 1 ((aesAfter k p 13).map subByte)) = shiftRowsBy 1 ((aesAfter k p (13 - r)).map subByte) := by
    induction r with
    | zero => rfl
    | succ r ih =>
      rw [List.range_succ, List.foldl_append, ih (by omega)]
      simp only [List.foldl_cons, List.foldl_nil]
      rw [sub_back _ (aesAfter_length k p hp _ (by omega))]
      obtain ⟨m, hm⟩ : ∃ m, 13 - r = m + 1 := ⟨12 - r, by omega⟩
      rw [hm, aesAfter_succ, xorBytes_cancel _ _ (by rw [mixWith_length, roundKeys_getD k (m + 1) (by omega)]),
        mix_back _ (shiftRows_length _ _), show 13 - (r + 1) = m by omega]
  rw [key 13 (le_refl _), sub_back _ (aesAfter_length k p hp _ (by omega))]
  unfold aesAfter
  simp only [Nat.sub_self, List.range_zero, List.foldl_nil]
  exact xorBytes_cancel _ _ (by rw [hp, roundKeys_getD k 0 (by omega)])

/-! ### XTS -/

theorem xtsNext_length (t : List U8) : (xtsNext t).length = 16 := by simp [xtsNext, bytesLE_length]

/-- The tweaked blocks, not yet joined. -/
def xtsList (f : List U8 → List U8) : List (List U8) → List U8 → List (List U8)
  | [], _ => []
  | b :: l, t => xorBytes (f (xorBytes b t)) t :: xtsList f l (xtsNext t)

theorem xtsBlocks_eq (f : List U8 → List U8) (l : List (List U8)) (t : List U8) : xtsBlocks f l t = (xtsList f l t).flatten := by
  induction l generalizing t with
  | nil => rfl
  | cons b l ih => rw [xtsBlocks, xtsList, List.flatten_cons, ih]

theorem xtsList_lengths (f : List U8 → List U8) (hf : ∀ x, (f x).length = 16) (l : List (List U8)) (t : List U8) (ht : t.length = 16) :
    (xtsList f l t).length = l.length ∧ ∀ b ∈ xtsList f l t, b.length = 16 := by
  induction l generalizing t with
  | nil => exact ⟨rfl, by simp [xtsList]⟩
  | cons b l ih =>
    have := ih (xtsNext t) (xtsNext_length t)
    refine ⟨by rw [xtsList, List.length_cons, List.length_cons, this.1], ?_⟩
    intro x hx
    rw [xtsList, List.mem_cons] at hx
    rcases hx with rfl | hx
    · rw [xorBytes_length, hf, ht]; rfl
    · exact this.2 x hx

theorem xtsList_back (k : BitVec 256) (l : List (List U8)) (h : ∀ b ∈ l, b.length = 16) (t : List U8) (ht : t.length = 16) :
    xtsList (aesDecrypt k) (xtsList (aesEncrypt k) l t) t = l := by
  induction l generalizing t with
  | nil => rfl
  | cons b l ih =>
    have hb := h b (by simp)
    rw [xtsList, xtsList, ih (fun x hx => h x (by simp [hx])) _ (xtsNext_length t),
      xorBytes_cancel _ _ (by rw [aesEncrypt_length, ht]),
      aesDecrypt_aesEncrypt _ _ (by rw [xorBytes_length, hb, ht]; rfl), xorBytes_cancel _ _ (by rw [hb, ht])]

theorem flatten_length16 (l : List (List U8)) (h : ∀ b ∈ l, b.length = 16) : l.flatten.length = 16 * l.length := by
  induction l with
  | nil => rfl
  | cons b l ih => rw [List.flatten_cons, List.length_append, ih (fun x hx => h x (by simp [hx])), h b (by simp), List.length_cons]; omega

/-- Encryption of whole blocks keeps the length. -/
theorem xtsEncrypt_length (kd kt : BitVec 256) (tweak : Nat) (p : List U8) : (xtsEncrypt kd kt tweak p).length = 16 * (p.length / 16) := by
  have := xtsList_lengths (aesEncrypt kd) (aesEncrypt_length kd) (chunks 16 (p.length / 16) p) (aesEncrypt kt (bytesLE 16 tweak))
    (aesEncrypt_length _ _)
  unfold xtsEncrypt
  rw [xtsBlocks_eq, flatten_length16 _ this.2, this.1, chunks_length]

theorem aesDecrypt_length (k : BitVec 256) (p : List U8) : (aesDecrypt k p).length = 16 := by
  unfold aesDecrypt
  simp only
  rw [xorBytes_length, List.length_map, shiftRows_length, roundKeys_getD k 0 (by omega)]
  rfl

/-- Decryption of whole blocks keeps the length. -/
theorem xtsDecrypt_length (kd kt : BitVec 256) (tweak : Nat) (p : List U8) : (xtsDecrypt kd kt tweak p).length = 16 * (p.length / 16) := by
  have := xtsList_lengths (aesDecrypt kd) (aesDecrypt_length kd) (chunks 16 (p.length / 16) p) (aesEncrypt kt (bytesLE 16 tweak))
    (aesEncrypt_length _ _)
  unfold xtsDecrypt
  rw [xtsBlocks_eq, flatten_length16 _ this.2, this.1, chunks_length]

/-- XTS decryption undoes encryption of whole blocks. -/
theorem xtsDecrypt_xtsEncrypt (kd kt : BitVec 256) (tweak : Nat) (p : List U8) (h : p.length % 16 = 0) :
    xtsDecrypt kd kt tweak (xtsEncrypt kd kt tweak p) = p := by
  have hl := xtsEncrypt_length kd kt tweak p
  have h1 := xtsList_lengths (aesEncrypt kd) (aesEncrypt_length kd) (chunks 16 (p.length / 16) p) (aesEncrypt kt (bytesLE 16 tweak))
    (aesEncrypt_length _ _)
  unfold xtsDecrypt
  rw [hl]
  unfold xtsEncrypt
  rw [xtsBlocks_eq, xtsBlocks_eq, Nat.mul_div_cancel_left _ (by decide : 0 < 16)]
  have h2 := chunks_of_flatten 16 _ h1.2
  rw [h1.1, chunks_length] at h2
  rw [h2, xtsList_back kd _ (chunks_mem_length 16 _ p (by omega)) _ (aesEncrypt_length _ _), chunks_flatten]
  exact List.take_of_length_le (by omega)

end Sys2Proof.Machine
end

