-- ==== Sys2Proof/Laws/Bytes.lean ====
section
/-! SUPPORT. Laws of bytes and tags: what every address reads after one byte, one tag, a store of data or of a capability, in sealed
lines too, where a line goes back whole and its other bytes read as before (R24, R82). -/
set_option Elab.async false
namespace Sys2Proof.Machine

/-! ### Addresses in one 8 KiB unit -/

theorem placeOf_seg_iff (a i : Nat) : placeOf a = .seg i ↔
    (2 ^ 21 ≤ a ∧ a < 2 ^ 47 ∧ i = a / 2 ^ 21) ∨ (hostBase ≤ a ∧ a < hostBase + 2 ^ 48 ∧ i = 2 ^ 26 + (a - hostBase) / 2 ^ 21) := by
  have hs : spadBase + Config.benches * 2 ^ 24 ≤ hostBase := by decide
  have hs1 : 2 ^ 47 ≤ spadBase := by decide
  unfold placeOf
  simp only
  generalize hb : hostBase = hb at *
  generalize hc : spadBase = sb at *
  obtain ⟨bb, hd⟩ : ∃ bb, Config.benches * 2 ^ 24 = bb := ⟨_, rfl⟩
  rw [hd] at hs ⊢
  split_ifs <;> simp only [Place.seg.injEq, false_iff, not_or] <;> omega

theorem placeOf_frame_iff (a i : Nat) : placeOf a = .frame i ↔
    spadBase ≤ a ∧ a < spadBase + Config.benches * 2 ^ 24 ∧ (a - spadBase) % 2 ^ 24 / 2 ^ 18 < 48
      ∧ (a - spadBase) % 2 ^ 24 % 2 ^ 18 < 0x3E000
      ∧ i = ((a - spadBase) / 2 ^ 24 * 48 + (a - spadBase) % 2 ^ 24 / 2 ^ 18) * 16 + (a - spadBase) % 2 ^ 24 % 2 ^ 18 / 2 ^ 14 := by
  have hs : spadBase + Config.benches * 2 ^ 24 ≤ hostBase := by decide
  have hs1 : 2 ^ 47 ≤ spadBase := by decide
  unfold placeOf
  simp only
  generalize hb : hostBase = hb at *
  generalize hc : spadBase = sb at *
  obtain ⟨bb, hd⟩ : ∃ bb, Config.benches * 2 ^ 24 = bb := ⟨_, rfl⟩
  rw [hd] at hs ⊢
  split_ifs <;> simp only [Place.frame.injEq, false_iff, not_and] <;> omega

theorem placeOf_seg {a b i : Nat} (h : a / 2 ^ 13 = b / 2 ^ 13) (hp : placeOf a = .seg i) : placeOf b = .seg i := by
  rw [placeOf_seg_iff] at hp ⊢
  have hh : hostBase = 2 ^ 55 := rfl
  rw [hh] at hp ⊢
  omega

theorem placeOf_frame {a b i : Nat} (h : a / 2 ^ 13 = b / 2 ^ 13) (hp : placeOf a = .frame i) : placeOf b = .frame i := by
  rw [placeOf_frame_iff] at hp ⊢
  obtain ⟨h1, h2, h3, h4, h5⟩ := hp
  obtain ⟨q, hq⟩ : ∃ q, spadBase = q * 2 ^ 13 := ⟨2 ^ 39, rfl⟩
  obtain ⟨r, hr⟩ : ∃ r, Config.benches * 2 ^ 24 = r * 2 ^ 13 := ⟨196608, rfl⟩
  rw [hr] at h2 ⊢
  rw [hq] at h1 h2 h3 h4 h5 ⊢
  obtain ⟨x, rfl⟩ := Nat.exists_eq_add_of_le h1
  have h6 : q * 2 ^ 13 ≤ b := by omega
  obtain ⟨y, rfl⟩ := Nat.exists_eq_add_of_le h6
  rw [Nat.add_sub_cancel_left] at h3 h4 h5 ⊢
  have hxy : x / 2 ^ 13 = y / 2 ^ 13 := by omega
  refine ⟨h6, by omega, by omega, by omega, by omega⟩

theorem transAt_unit (s : State) {a b : Nat} (h : a / 2 ^ 13 = b / 2 ^ 13) : s.transAt a = s.transAt b := by
  have e : a / 2 ^ 14 % 2 ^ 42 = b / 2 ^ 14 % 2 ^ 42 := by omega
  unfold State.transAt
  simp only [e]
  cases findBy transKey (b / 2 ^ 14 % 2 ^ 42 / 128 * 128 * 2 + 1) s.trans with
  | some x => rfl
  | none =>
    cases findBy transKey (b / 2 ^ 14 % 2 ^ 42 * 2) s.trans with
    | some x => rfl
    | none =>
      simp only
      cases ha : placeOf a with
      | seg i => rw [placeOf_seg h ha]
      | _ =>
        cases hb : placeOf b with
        | seg i => rw [placeOf_seg h.symm hb] at ha; cases ha
        | _ => rfl

theorem sealKey_unit (s : State) {a b : Nat} (h : a / 2 ^ 13 = b / 2 ^ 13) : s.sealKey a = s.sealKey b := by
  unfold State.sealKey
  cases ha : placeOf a with
  | seg i => rw [placeOf_seg h ha]
  | _ =>
    cases hb : placeOf b with
    | seg i => rw [placeOf_seg h.symm hb] at ha; cases ha
    | _ => rfl

theorem isKept_line (s : State) {a b : Nat} (h : a / 256 = b / 256) : s.isKept b = s.isKept a := by
  unfold State.isKept; rw [h]

/-- The bytes of a line lie together. -/
theorem phys_unit (s : State) {a b p : Nat} (hl : a / 256 = b / 256) (hp : s.phys a = some p) :
    s.phys b = some (p - a % 256 + b % 256) ∧ a % 256 ≤ p := by
  have h : a / 2 ^ 13 = b / 2 ^ 13 := by omega
  unfold State.phys at hp ⊢
  cases ha : placeOf a with
  | seg i =>
    rw [ha] at hp
    rw [placeOf_seg h ha, ← transAt_unit s h, isKept_line s hl]
    simp only at hp ⊢
    by_cases hk : s.isKept a
    · rw [if_pos hk] at hp
      rw [if_pos hk]
      cases hp
      exact ⟨by congr 1; omega, by omega⟩
    rw [if_neg hk] at hp
    rw [if_neg hk]
    split at hp
    · rename_i t ht
      split at hp
      · rename_i hpr
        cases hp
        rw [if_pos hpr]
        unfold Trans.phys hostBase
        constructor
        · congr 1
          split <;> split <;> omega
        · split <;> split <;> omega
      · cases hp
    · cases hp
  | frame i =>
    rw [ha] at hp
    cases hp
    rw [placeOf_frame h ha]
    exact ⟨by simp only; congr 1; omega, by omega⟩
  | _ => rw [ha] at hp; cases hp

/-- Where the end bytes of an access of at most a line have a place, every byte has one. -/
theorem phys_between {s : State} {a n : Nat} (hn : n ≤ 256) (h0 : (s.phys a).isSome) (h1 : (s.phys (a + n - 1)).isSome)
    {k : Nat} (hk : k < n) : (s.phys (a + k)).isSome := by
  obtain ⟨p, hp⟩ := Option.isSome_iff_exists.1 h0
  obtain ⟨q, hq⟩ := Option.isSome_iff_exists.1 h1
  by_cases h : (a + k) / 256 = a / 256
  · rw [(phys_unit s h.symm hp).1]; rfl
  · rw [(phys_unit s (a := a + n - 1) (b := a + k) (by omega) hq).1]; rfl

/-! ### Memory lists -/

theorem Memory.get_append (l m : List Host.Cell) (a : Nat) :
    Memory.get (l ++ m) a = if a ∈ l.map Prod.fst then Memory.get l a else Memory.get m a := by
  induction l with
  | nil => simp
  | cons c l ih =>
    obtain ⟨b, w⟩ := c
    simp only [List.cons_append, Memory.get, List.map_cons, List.mem_cons]
    by_cases h : a = b
    · simp [h]
    · simp [h, ih]

theorem Memory.get_filter_of (m : List Host.Cell) (q : Nat → Bool) (a : Nat) :
    Memory.get (m.filter (fun c => q c.1)) a = if q a then Memory.get m a else 0 := by
  induction m with
  | nil => simp [Memory.get]
  | cons c m ih =>
    obtain ⟨b, w⟩ := c
    by_cases hq : q b
    · rw [List.filter_cons_of_pos (by simpa using hq)]
      simp only [Memory.get]
      by_cases h : a = b
      · subst h; simp [hq]
      · simp [h, ih]
    · rw [List.filter_cons_of_neg (by simpa using hq), ih]
      by_cases h : a = b
      · subst h; simp [hq]
      · simp [Memory.get, h]

theorem Memory.get_unlisted (m : List Host.Cell) (a : Nat) (h : a ∉ m.map Prod.fst) : Memory.get m a = 0 := by
  induction m with
  | nil => rfl
  | cons c m ih =>
    obtain ⟨b, w⟩ := c
    simp only [List.map_cons, List.mem_cons, not_or] at h
    simp only [Memory.get, if_neg h.1, ih h.2]

theorem Memory.get_cells (a : Nat) (l : List U8) (b : Nat) :
    Memory.get (Memory.cells a l) b = if a ≤ b ∧ b < a + l.length then l.getD (b - a) 0 else 0 := by
  induction l generalizing a with
  | nil => simp [Memory.cells, Memory.get]
  | cons v l ih =>
    unfold Memory.cells
    by_cases hb : b = a
    · subst hb
      split
      · rename_i hv; rw [ih, if_neg (by omega), if_pos (by simp)]; simp [hv]
      · simp [Memory.get]
    · have e : (if a ≤ b ∧ b < a + (v :: l).length then (v :: l).getD (b - a) 0 else 0)
          = if a + 1 ≤ b ∧ b < a + 1 + l.length then l.getD (b - (a + 1)) 0 else 0 := by
        by_cases h : a + 1 ≤ b ∧ b < a + 1 + l.length
        · rw [if_pos h, if_pos (by simp only [List.length_cons]; omega)]
          obtain ⟨j, hj⟩ : ∃ j, b - a = j + 1 := ⟨b - a - 1, by omega⟩
          rw [hj, show b - (a + 1) = j by omega, List.getD_cons_succ]
        · rw [if_neg h, if_neg (by simp only [List.length_cons]; omega)]
      rw [e]
      split
      · exact ih (a + 1)
      · simp only [Memory.get, if_neg hb]; exact ih (a + 1)

/-- What memory reads after a list of bytes is written. -/
theorem Memory.get_writeList (m : List Host.Cell) (a : Nat) (l : List U8) (b : Nat) :
    Memory.get (Memory.writeList m a l) b = if a ≤ b ∧ b < a + l.length then l.getD (b - a) 0 else Memory.get m b := by
  unfold Memory.writeList Memory.splice
  rw [List.append_assoc, Memory.get_append, Memory.get_append]
  have f1 := Memory.get_filter_of m (fun x => decide (x < a)) b
  have f2 := Memory.get_filter_of m (fun x => decide (a + l.length ≤ x)) b
  have m1 (h : b ∈ (m.filter (fun c => decide (c.1 < a))).map Prod.fst) : b < a := by
    rw [List.mem_map] at h
    obtain ⟨c, hc, rfl⟩ := h
    simpa using (List.mem_filter.1 hc).2
  have m2 (h : b ∈ (Memory.cells a l).map Prod.fst) : a ≤ b ∧ b < a + l.length := by
    rw [List.mem_map] at h
    obtain ⟨c, hc, rfl⟩ := h
    exact (Memory.cells_spec a l).2 c hc
  by_cases hr : a ≤ b ∧ b < a + l.length
  · rw [if_neg (fun h => by have := m1 h; omega), if_pos hr]
    have hc := Memory.get_cells a l b
    rw [if_pos hr] at hc
    split
    · exact hc
    · rename_i hn
      rw [f2, if_neg (by simp; omega), ← hc, Memory.get_unlisted _ _ hn]
  · rw [if_neg hr]
    by_cases h1 : b < a
    · split
      · rw [f1, if_pos (by simpa using h1)]
      · rename_i hn
        rw [if_neg (fun h => hr (m2 h)), f2, if_neg (by simp; omega)]
        have := Memory.get_unlisted _ _ hn
        rw [f1, if_pos (by simpa using h1)] at this
        exact this.symm
    · rw [if_neg (fun h => h1 (m1 h)), if_neg (fun h => hr (m2 h)), f2, if_pos (by simp; omega)]

theorem Memory.readList_writeList (m : List Host.Cell) (a : Nat) (l : List U8) :
    Memory.readList (Memory.writeList m a l) a l.length = l := by
  unfold Memory.readList
  apply List.ext_getElem
  · simp
  · intro i h1 h2
    rw [List.getElem_map, List.getElem_range, Memory.get_writeList, if_pos (by simp at h1; omega), Nat.add_sub_cancel_left,
      List.getD_eq_getElem _ _ h2]

theorem Memory.readList_congr (m m' : List Host.Cell) (a n : Nat) (h : ∀ b, a ≤ b → b < a + n → Memory.get m b = Memory.get m' b) :
    Memory.readList m a n = Memory.readList m' a n := by
  unfold Memory.readList
  apply List.map_congr_left
  intro i hi
  exact h _ (by omega) (by have := List.mem_range.1 hi; omega)

/-! ### Sets of numbers -/

theorem contains_setAdd (l : List Nat) (a b : Nat) : (setAdd l a).contains b = (decide (b = a) || l.contains b) := by
  induction l with
  | nil => simp [setAdd]
  | cons c l ih =>
    unfold setAdd
    split
    · simp
    · split
      · rename_i h; subst h; simp
      · rw [List.contains_cons, ih, List.contains_cons]
        cases (b == c) <;> simp

theorem contains_setPut (l : List Nat) (a b : Nat) (g : Bool) : (setPut l a g).contains b = if b = a then g else l.contains b := by
  unfold setPut
  split
  · rw [contains_setAdd]; by_cases h : b = a <;> simp [*]
  · by_cases h : b = a
    · subst h; simp [*]
    · rw [if_neg h, Bool.eq_iff_iff]; simp [List.mem_filter, h]

/-! ### One byte and one tag -/

/-- Only bytes, seals and tags differ. -/
def MemOnly (s t : State) : Prop := ∃ m z g, t = { s with mem := m, sealedLines := z, tags := g }

theorem MemOnly.refl (s : State) : MemOnly s s := ⟨s.mem, s.sealedLines, s.tags, rfl⟩
theorem MemOnly.trans' {s t u : State} (h : MemOnly s t) (g : MemOnly t u) : MemOnly s u := by
  obtain ⟨m, z, g1, rfl⟩ := h
  obtain ⟨m', z', g', rfl⟩ := g
  exact ⟨m', z', g', rfl⟩
theorem MemOnly.phys {s t : State} (h : MemOnly s t) (a : Nat) : t.phys a = s.phys a := by obtain ⟨m, z, g, rfl⟩ := h; rfl
theorem MemOnly.sealKey {s t : State} (h : MemOnly s t) (a : Nat) : t.sealKey a = s.sealKey a := by obtain ⟨m, z, g, rfl⟩ := h; rfl

/-- A byte stored at `a` leaves what `b` reads alone: another place, and in one sealed line only as a byte of the same line. -/
def Apart (s : State) (a b : Nat) : Prop :=
  s.phys b ≠ s.phys a
    ∧ ((s.sealKey a).isSome = true ∨ (s.sealKey b).isSome = true → (s.phys b).map (· / 256) = (s.phys a).map (· / 256) → b / 256 = a / 256)

theorem MemOnly.apart {s t : State} (h : MemOnly s t) (a b : Nat) : Apart t a b ↔ Apart s a b := by
  unfold Apart; rw [h.phys, h.phys, h.sealKey, h.sealKey]

theorem plainLine_length (s : State) (k : BitVec 256) (a line : Nat) : (s.plainLine k a line).length = 256 := by
  have hr : (s.rawLine line).length = 256 := by simp [State.rawLine, Memory.readList]
  unfold State.plainLine
  split
  · rw [xtsDecrypt_length, hr]
  · exact hr

theorem putByte_spec (s : State) (a p : Nat) (v : U8) (hp : s.phys a = some p) :
    MemOnly s (s.putByte a v) ∧ (s.putByte a v).tags = s.tags ∧ (s.putByte a v).byteAt a = v
      ∧ ∀ b, Apart s a b → (s.putByte a v).byteAt b = s.byteAt b := by
  cases hk : s.sealKey a with
  | none =>
    rw [putByte_plain hp hk]
    refine ⟨⟨_, s.sealedLines, s.tags, rfl⟩, rfl, ?_, ?_⟩
    · unfold State.byteAt
      show (match s.phys a with | none => (0 : U8) | some p => match s.sealKey a with | none => Memory.get _ p | some k => _) = v
      rw [hp, hk]
      simp only
      rw [Memory.get_set, if_pos rfl]
    · rintro b ⟨h1, h2⟩
      unfold State.byteAt
      show (match s.phys b with | none => (0 : U8) | some p => match s.sealKey b with | none => Memory.get _ p | some k => _) = _
      cases hq : s.phys b with
      | none => rfl
      | some q =>
        rw [hq, hp] at h1 h2
        cases hkb : s.sealKey b with
        | none =>
          simp only
          rw [Memory.get_set, if_neg (fun e => h1 (by rw [e]))]
        | some k =>
          simp only
          have hl : q / 256 ≠ p / 256 := by
            intro e
            have e1 := h2 (Or.inr (by rw [hkb]; rfl)) (by simp [e])
            rw [sealKey_unit s (a := b) (b := a) (by omega), hk] at hkb
            cases hkb
          have e : Memory.readList (Memory.set s.mem p v) (q / 256 * 256) 256 = Memory.readList s.mem (q / 256 * 256) 256 := by
            apply Memory.readList_congr
            intro c h3 h4
            rw [Memory.get_set, if_neg (by omega)]
          unfold State.plainLine State.rawLine State.storedMac
          simp only
          rw [e]
  | some k =>
    have hlen := plainLine_length s k a (p / 256)
    have he : s.putByte a v = s.sealLine k a (p / 256) ((s.plainLine k a (p / 256)).set (p % 256) v) := by
      unfold State.putByte; rw [hp, hk]
    have hpl : ((s.plainLine k a (p / 256)).set (p % 256) v).length = 256 := by rw [List.length_set, hlen]
    rw [he]
    generalize hplain : (s.plainLine k a (p / 256)).set (p % 256) v = plain at hpl ⊢
    have hcl : (xtsEncrypt (rootKey k 1) (rootKey k 3) (a / 256 * 256) plain).length = 256 := by rw [xtsEncrypt_length, hpl]
    -- what the line holds afterwards
    have hline (b : Nat) (hb : b / 256 = a / 256) : (s.sealLine k a (p / 256) plain).plainLine k b (p / 256) = plain := by
      unfold State.plainLine State.storedMac State.rawLine State.sealLine
      simp only
      have := findBy_putBy_same (fun x : Nat × U64 => x.1)
        (p / 256, lineMac k (a / 256 * 256) (xtsEncrypt (rootKey k 1) (rootKey k 3) (a / 256 * 256) plain) (s.lineTags (p / 256)))
        s.sealedLines
      rw [this]
      simp only
      have e := Memory.readList_writeList s.mem (p / 256 * 256) (xtsEncrypt (rootKey k 1) (rootKey k 3) (a / 256 * 256) plain)
      rw [hcl] at e
      rw [e, hb, xtsDecrypt_xtsEncrypt _ _ _ _ (by rw [hpl])]
    have hother (l : Nat) (hl : l ≠ p / 256) (k' : BitVec 256) (b : Nat) :
        (s.sealLine k a (p / 256) plain).plainLine k' b l = s.plainLine k' b l := by
      have e : Memory.readList (Memory.writeList s.mem (p / 256 * 256) (xtsEncrypt (rootKey k 1) (rootKey k 3) (a / 256 * 256) plain)) (l * 256) 256
          = Memory.readList s.mem (l * 256) 256 := by
        apply Memory.readList_congr
        intro c h3 h4
        rw [Memory.get_writeList, if_neg (by rw [hcl]; omega)]
      unfold State.plainLine State.storedMac State.rawLine State.sealLine
      simp only
      rw [findBy_putBy_other (fun x : Nat × U64 => x.1) _ _ (by exact hl), e]
    refine ⟨⟨_, _, s.tags, rfl⟩, rfl, ?_, ?_⟩
    · unfold State.byteAt
      rw [show (s.sealLine k a (p / 256) plain).phys a = some p from hp, show (s.sealLine k a (p / 256) plain).sealKey a = some k from hk]
      simp only
      rw [hline a rfl, ← hplain, List.getD_eq_getElem _ _ (by rw [List.length_set, hlen]; omega), List.getElem_set_self]
    · rintro b ⟨h1, h2⟩
      unfold State.byteAt
      rw [show (s.sealLine k a (p / 256) plain).phys b = s.phys b from rfl,
        show (s.sealLine k a (p / 256) plain).sealKey b = s.sealKey b from rfl]
      cases hq : s.phys b with
      | none => rfl
      | some q =>
        rw [hq, hp] at h1 h2
        by_cases hl : q / 256 = p / 256
        · have hb := h2 (Or.inl (by rw [hk]; rfl)) (by simp [hl])
          rw [sealKey_unit s (a := b) (b := a) (by omega), hk]
          simp only
          rw [hl, hline b hb, ← hplain]
          have e : s.plainLine k b (p / 256) = s.plainLine k a (p / 256) := by unfold State.plainLine; rw [hb]
          rw [e, List.getD_eq_getElem _ _ (by rw [List.length_set, hlen]; omega), List.getD_eq_getElem _ _ (by rw [hlen]; omega),
            List.getElem_set_ne (by intro e; apply h1; congr 1; omega)]
        · cases hkb : s.sealKey b with
          | none =>
            simp only
            show Memory.get (Memory.writeList _ _ _) q = _
            rw [Memory.get_writeList, if_neg (by rw [hcl]; omega)]
          | some k' =>
            simp only
            rw [hother _ hl]

/-- A tag put: no byte reads otherwise, and no tag of another granule. -/
theorem setTag_spec (s : State) (a : Nat) (g : Bool) :
    MemOnly s (s.setTag a g) ∧ (∀ b, (s.setTag a g).byteAt b = s.byteAt b)
      ∧ ∀ b, (s.setTag a g).tagAt b = match s.phys a, s.phys b with
        | some p, some q => if q / 16 = p / 16 then (g && keepsTags p) else s.tagAt b
        | _, _ => s.tagAt b := by
  cases hp : s.phys a with
  | none =>
    have e : s.setTag a g = s := by unfold State.setTag; rw [hp]
    rw [e]
    exact ⟨.refl s, fun _ => rfl, fun _ => rfl⟩
  | some p =>
    have key (z : List (Nat × U64)) (hz : ∀ l, (findBy (fun x : Nat × U64 => x.1) l z).isSome = (findBy (fun x : Nat × U64 => x.1) l s.sealedLines).isSome) :
        MemOnly s { s with tags := setPut s.tags (p / 16) (g && keepsTags p), sealedLines := z }
        ∧ (∀ b, ({ s with tags := setPut s.tags (p / 16) (g && keepsTags p), sealedLines := z } : State).byteAt b = s.byteAt b)
        ∧ ∀ b, ({ s with tags := setPut s.tags (p / 16) (g && keepsTags p), sealedLines := z } : State).tagAt b
          = match s.phys b with
            | some q => if q / 16 = p / 16 then (g && keepsTags p) else s.tagAt b
            | none => s.tagAt b := by
      refine ⟨⟨s.mem, z, _, rfl⟩, ?_, ?_⟩
      · intro b
        have hpl (k : BitVec 256) (l : Nat) : ({ s with tags := setPut s.tags (p / 16) (g && keepsTags p), sealedLines := z } : State).plainLine k b l = s.plainLine k b l := by
          have h := hz l
          unfold State.plainLine State.storedMac State.rawLine
          simp only
          cases h1 : findBy (fun x : Nat × U64 => x.1) l z <;> cases h2 : findBy (fun x : Nat × U64 => x.1) l s.sealedLines <;>
            rw [h1, h2] at h <;> first | rfl | cases h
        unfold State.byteAt
        show (match s.phys b with | none => (0 : U8) | some p => match s.sealKey b with | none => Memory.get s.mem p | some k => _) = _
        cases hq : s.phys b with
        | none => rfl
        | some q =>
          simp only
          cases hk : s.sealKey b with
          | none => rfl
          | some k => simp only; rw [hpl]
      · intro b
        unfold State.tagAt
        show (match s.phys b with | none => false | some p_1 => (setPut s.tags (p / 16) (g && keepsTags p)).contains (p_1 / 16)) = _
        cases hq : s.phys b with
        | none => rfl
        | some q => simp only; rw [contains_setPut]
    have hfin : ∃ z, s.setTag a g = { s with tags := setPut s.tags (p / 16) (g && keepsTags p), sealedLines := z }
        ∧ ∀ l, (findBy (fun x : Nat × U64 => x.1) l z).isSome = (findBy (fun x : Nat × U64 => x.1) l s.sealedLines).isSome := by
      unfold State.setTag
      rw [hp]
      simp only
      split
      · rename_i k m hk hm
        refine ⟨_, rfl, ?_⟩
        intro l
        by_cases hl : l = p / 256
        · subst hl
          have h1 := findBy_putBy_same (fun x : Nat × U64 => x.1)
            (p / 256, lineMac k (a / 256 * 256) (s.rawLine (p / 256)) (({ s with tags := setPut s.tags (p / 16) (g && keepsTags p) } : State).lineTags (p / 256)))
            s.sealedLines
          simp only at h1
          rw [h1]
          unfold State.storedMac at hm
          cases h2 : findBy (fun x : Nat × U64 => x.1) (p / 256) s.sealedLines with
          | none => rw [h2] at hm; cases hm
          | some y => rfl
        · rw [findBy_putBy_other (fun x : Nat × U64 => x.1) _ _ (by exact hl)]
      · exact ⟨s.sealedLines, rfl, fun _ => rfl⟩
    obtain ⟨z, e, hz⟩ := hfin
    rw [e]
    obtain ⟨k1, k2, k3⟩ := key z hz
    refine ⟨k1, k2, ?_⟩
    intro b
    rw [k3 b]
    cases s.phys b <;> rfl

/-! ### Stores -/

theorem apart_near {s : State} {a j k n : Nat} (hn : n ≤ 2 ^ 13) (hj : j < n) (hk : k < n) (hjk : j ≠ k)
    (h1 : (s.phys (a + j)).isSome) (h2 : (s.phys (a + k)).isSome) : Apart s (a + j) (a + k) := by
  obtain ⟨p, hp⟩ := Option.isSome_iff_exists.1 h1
  obtain ⟨q, hq⟩ := Option.isSome_iff_exists.1 h2
  have e1 := phys_mod hp
  have e2 := phys_mod hq
  unfold Apart
  rw [hp, hq]
  constructor
  · intro e
    cases e
    omega
  · intro _ e
    have e : q / 256 = p / 256 := by simpa using e
    omega

/-- A store of the low `n` bytes of a number. -/
theorem storeN_spec (n : Nat) : ∀ (s : State) (a v : Nat), n ≤ 2 ^ 13 → (∀ k, k < n → (s.phys (a + k)).isSome) →
    MemOnly s (s.storeN a n v) ∧ (s.storeN a n v).tags = s.tags
      ∧ (∀ k, k < n → (s.storeN a n v).byteAt (a + k) = BitVec.ofNat 8 (v / 256 ^ k))
      ∧ ∀ b, (∀ k, k < n → Apart s (a + k) b) → (s.storeN a n v).byteAt b = s.byteAt b := by
  induction n with
  | zero => intro s a v _ _; exact ⟨.refl s, rfl, fun k h => absurd h (by omega), fun _ _ => rfl⟩
  | succ n ih =>
    intro s a v hn h1
    have h0 := h1 0 (by omega)
    obtain ⟨p, hp⟩ := Option.isSome_iff_exists.1 h0
    rw [Nat.add_zero] at hp
    obtain ⟨c1, c2, c3, c4⟩ := putByte_spec s a p (BitVec.ofNat 8 v) hp
    have e (k : Nat) : a + 1 + k = a + (k + 1) := by omega
    obtain ⟨d1, d2, d3, d4⟩ := ih (s.putByte a (BitVec.ofNat 8 v)) (a + 1) (v / 256) (by omega)
      (fun k hk => by rw [c1.phys, e]; exact h1 (k + 1) (by omega))
    rw [State.storeN]
    refine ⟨c1.trans' d1, d2.trans c2, ?_, ?_⟩
    · intro k hk
      cases k with
      | zero =>
        rw [show a + 0 = a from rfl, d4 a, c3]
        · simp
        · intro k hk
          rw [c1.apart, e]
          exact apart_near (s := s) (a := a) (j := k + 1) (k := 0) (n := n + 1) hn (by omega) (by omega) (by omega) (h1 _ (by omega)) h0
      | succ k =>
        rw [← e k, d3 k (by omega), Nat.div_div_eq_div_mul, Nat.pow_succ, Nat.mul_comm 256]
    · intro b hb
      rw [d4 b, c4 b (by have := hb 0 (by omega); rwa [Nat.add_zero] at this)]
      intro k hk
      rw [c1.apart, e]
      exact hb (k + 1) (by omega)

theorem MemOnly.byteAt_same {s t : State} (h : MemOnly s t) (hm : t.mem = s.mem) (hz : t.sealedLines = s.sealedLines) (a : Nat) :
    t.byteAt a = s.byteAt a := by
  obtain ⟨m, z, g, rfl⟩ := h
  simp only at hm hz
  subst hm hz
  rfl

theorem MemOnly.tagAt_same {s t : State} (h : MemOnly s t) (ht : t.tags = s.tags) (a : Nat) : t.tagAt a = s.tagAt a := by
  unfold State.tagAt
  rw [h.phys, ht]

/-- Tags of `k` granules cleared. -/
theorem clearTagsFrom_spec (k : Nat) : ∀ (s : State) (g : Nat),
    MemOnly s (s.clearTagsFrom g k) ∧ (∀ b, (s.clearTagsFrom g k).byteAt b = s.byteAt b)
      ∧ ∀ b, ((∀ j, j < k → (s.phys ((g + j) * 16)).map (· / 16) ≠ (s.phys b).map (· / 16)) → (s.clearTagsFrom g k).tagAt b = s.tagAt b)
        ∧ ∀ j, j < k → (s.phys b).isSome → (s.phys ((g + j) * 16)).map (· / 16) = (s.phys b).map (· / 16) →
          (s.clearTagsFrom g k).tagAt b = false := by
  induction k with
  | zero => intro s g; exact ⟨.refl s, fun _ => rfl, fun b => ⟨fun _ => rfl, fun j h => absurd h (by omega)⟩⟩
  | succ k ih =>
    intro s g
    obtain ⟨c1, c2, c3⟩ := setTag_spec s (g * 16) false
    obtain ⟨d1, d2, d3⟩ := ih (s.setTag (g * 16) false) (g + 1)
    have e (j : Nat) : g + 1 + j = g + (j + 1) := by omega
    rw [State.clearTagsFrom]
    refine ⟨c1.trans' d1, fun b => (d2 b).trans (c2 b), ?_⟩
    intro b
    have hd := d3 b
    simp only [c1.phys, e] at hd
    constructor
    · intro h
      rw [hd.1 (fun j hj => h (j + 1) (by omega)), c3 b]
      have h0 := h 0 (by omega)
      rw [Nat.add_zero] at h0
      cases h1 : s.phys (g * 16) with
      | none => rfl
      | some p =>
        cases h2 : s.phys b with
        | none => rfl
        | some q =>
          simp only
          rw [h1, h2] at h0
          rw [if_neg (fun e => h0 (by simp [e]))]
    · intro j hj hb h
      by_cases hex : ∃ i, i < k ∧ (s.phys ((g + (i + 1)) * 16)).map (· / 16) = (s.phys b).map (· / 16)
      · obtain ⟨i, hi, he⟩ := hex
        exact hd.2 i hi hb he
      · rw [hd.1 (fun i hi he => hex ⟨i, hi, he⟩)]
        cases j with
        | succ j => exact absurd ⟨j, by omega, h⟩ hex
        | zero =>
          rw [Nat.add_zero] at h
          obtain ⟨q, hq⟩ := Option.isSome_iff_exists.1 hb
          rw [c3 b, hq]
          rw [hq] at h
          cases h1 : s.phys (g * 16) with
          | none => rw [h1] at h; cases h
          | some p =>
            rw [h1] at h
            simp only
            rw [if_pos (by simpa using h.symm)]
            rfl

theorem granule_phys {s : State} {a g : Nat} (h : a / 16 = g) : (s.phys (g * 16)).map (· / 16) = (s.phys a).map (· / 16) := by
  cases hp : s.phys a with
  | none =>
    cases hq : s.phys (g * 16) with
    | none => rfl
    | some q =>
      have := (phys_unit s (a := g * 16) (b := a) (by omega) hq).1
      rw [hp] at this
      cases this
  | some p =>
    obtain ⟨e1, e2⟩ := phys_unit s (a := a) (b := g * 16) (by omega) hp
    rw [e1]
    have := phys_mod hp
    simp only [Option.map_some, Option.some.injEq]
    omega

/-- Data written over memory. -/
theorem storeData_spec (s : State) (a n v : Nat) (h0 : 0 < n) (hn : n ≤ 2 ^ 13) (hp : ∀ k, k < n → (s.phys (a + k)).isSome) :
    MemOnly s (s.storeData a n v)
      ∧ (∀ k, k < n → (s.storeData a n v).byteAt (a + k) = BitVec.ofNat 8 (v / 256 ^ k))
      ∧ (∀ b, (∀ k, k < n → Apart s (a + k) b) → (s.storeData a n v).byteAt b = s.byteAt b)
      ∧ ∀ b, ((∀ k, k < n → (s.phys (a + k)).map (· / 16) ≠ (s.phys b).map (· / 16)) → (s.storeData a n v).tagAt b = s.tagAt b)
        ∧ ∀ k, k < n → (s.phys (a + k)).map (· / 16) = (s.phys b).map (· / 16) → (s.storeData a n v).tagAt b = false := by
  obtain ⟨c1, c2, c3, c4⟩ := storeN_spec n s a v hn hp
  obtain ⟨d1, d2, d3⟩ := clearTagsFrom_spec ((a + n - 1) / 16 - a / 16 + 1) (s.storeN a n v) (a / 16)
  have he : s.storeData a n v = (s.storeN a n v).clearTagsFrom (a / 16) ((a + n - 1) / 16 - a / 16 + 1) := by
    unfold State.storeData State.clearTags
    rw [if_neg (by omega)]
  rw [he]
  refine ⟨c1.trans' d1, fun k hk => (d2 _).trans (c3 k hk), fun b hb => (d2 b).trans (c4 b hb), ?_⟩
  intro b
  have hd := d3 b
  simp only [c1.phys] at hd
  constructor
  · intro h
    rw [hd.1, c1.tagAt_same c2]
    intro j hj e
    rw [granule_phys (a := a + (max a ((a / 16 + j) * 16) - a)) (by omega)] at e
    exact h _ (by omega) e
  · intro k hk e
    have hb : (s.phys b).isSome := by
      obtain ⟨p, hpk⟩ := Option.isSome_iff_exists.1 (hp k hk)
      rw [hpk] at e
      cases h : s.phys b with
      | none => rw [h] at e; cases e
      | some q => rfl
    refine hd.2 ((a + k) / 16 - a / 16) (by omega) hb ?_
    rw [← e]
    exact granule_phys (by omega)

/-- A value with its tag written over an aligned granule. -/
theorem storeCap_spec (s : State) (a : Nat) (c : Cap) (g : Bool) (ha : a % 16 = 0) (hp : ∀ k, k < 16 → (s.phys (a + k)).isSome) :
    MemOnly s (s.storeCap a c g)
      ∧ (∀ k, k < 16 → (s.storeCap a c g).byteAt (a + k) = BitVec.ofNat 8 (c.bits.toNat / 256 ^ k))
      ∧ (∀ b, (∀ k, k < 16 → Apart s (a + k) b) → (s.storeCap a c g).byteAt b = s.byteAt b)
      ∧ ∀ b, ((∀ k, k < 16 → (s.phys (a + k)).map (· / 16) ≠ (s.phys b).map (· / 16)) → (s.storeCap a c g).tagAt b = s.tagAt b)
        ∧ ∀ k, k < 16 → (s.phys (a + k)).map (· / 16) = (s.phys b).map (· / 16) →
          (s.storeCap a c g).tagAt b = (g && (s.phys b).any keepsTags) := by
  obtain ⟨c1, c2, c3, c4⟩ := storeN_spec 16 s a c.bits.toNat (by omega) hp
  obtain ⟨d1, d2, d3⟩ := setTag_spec (s.storeN a 16 c.bits.toNat) a g
  unfold State.storeCap
  refine ⟨c1.trans' d1, fun k hk => (d2 _).trans (c3 k hk), fun b hb => (d2 b).trans (c4 b hb), ?_⟩
  intro b
  have hd := d3 b
  simp only [c1.phys] at hd
  obtain ⟨p, hpa⟩ := Option.isSome_iff_exists.1 (hp 0 (by omega))
  rw [Nat.add_zero] at hpa
  have hmod := phys_mod hpa
  constructor
  · intro h
    have h0 := h 0 (by omega)
    rw [Nat.add_zero] at h0
    rw [hd, hpa]
    rw [hpa] at h0
    cases h2 : s.phys b with
    | none => simp only; rw [c1.tagAt_same c2]
    | some q =>
      rw [h2] at h0
      simp only
      rw [if_neg (fun e => h0 (by simp [e])), c1.tagAt_same c2]
  · intro k hk e
    have e1 := granule_phys (s := s) (a := a) (g := a / 16) rfl
    have e2 := granule_phys (s := s) (a := a + k) (g := a / 16) (by omega)
    rw [e2, e, hpa] at e1
    rw [hd, hpa]
    cases h2 : s.phys b with
    | none => rw [h2] at e1; cases e1
    | some q =>
      rw [h2] at e1
      have e3 : q / 16 = p / 16 := by simpa using e1
      simp only [Option.any_some]
      rw [if_pos e3]
      congr 1
      unfold keepsTags hostBase keptBase
      rw [Bool.eq_iff_iff, Bool.or_eq_true, Bool.or_eq_true]
      simp only [decide_eq_true_eq]
      omega

end Sys2Proof.Machine
end

