-- ==== Sys2Proof/Laws/Claims.lean ====
section
/-! SUPPORT. Laws of the words that the statements are said in: from what an instruction's meaning answers to what the statements
say of it. -/
set_option Elab.async false
namespace Sys2Proof

open Machine Claims


theorem byteAt_self (s : State) (x : Slot) (a : Nat) : ({ s with self := x } : State).byteAt a = s.byteAt a := by
  unfold State.byteAt State.phys State.transAt State.hostReset State.sealKey State.segAttr State.keySlot State.plainLine State.storedMac State.rawLine
  rfl
theorem setG_shape (s : State) (d : BitVec 5) (c : Cap) : ∃ g', s.setG d c = { s with self := { s.self with g := g' } } := by
  unfold State.setG Slot.setG
  split
  · exact ⟨s.self.g, rfl⟩
  · exact ⟨_, rfl⟩
theorem gSet_setG (s : State) (d n : BitVec 5) (c : Cap) : (s.setG d c).g n = gSet s d c n := by
  rw [State.g_setG, gSet]
  by_cases h2 : n = d
  · subst h2; rfl
  · rw [if_neg (fun h => h2 h.1), if_neg (fun h => h2 h.1)]
/-- With FLAGS as they were, no flag is the window's for it. -/
theorem winFlags_same (x : Slot) : x.winFlags ||| (x.flags &&& ~~~x.flags) = x.winFlags := by simp
theorem slotFrame_of {x y : Slot} (hf : y.flags = x.flags)
    (h : y = { x with
      g := y.g, v := y.v, p := y.p, pcc := y.pcc, winDone := y.winDone, park := y.park, afterTransfer := y.afterTransfer, replay := y.replay }) :
    SlotFrame x y := by
  unfold SlotFrame
  rw [hf, winFlags_same]
  exact h
theorem slotFrame_flags {x y : Slot} {f : U64} (hf : y.flags = x.flags ||| f)
    (h : y = { x with
      g := y.g, v := y.v, p := y.p, flags := y.flags, pcc := y.pcc, winDone := y.winDone, park := y.park, afterTransfer := y.afterTransfer
      replay := y.replay, winFlags := x.winFlags ||| (f &&& ~~~x.flags) }) :
    SlotFrame x y := by
  unfold SlotFrame
  have e : y.flags &&& ~~~x.flags = f &&& ~~~x.flags := by
    rw [hf]
    apply BitVec.eq_of_getLsbD_eq
    intro i _
    simp only [BitVec.getLsbD_and, BitVec.getLsbD_or, BitVec.getLsbD_not]
    cases x.flags.getLsbD i <;> cases f.getLsbD i <;> simp
  rw [e]
  exact h
theorem putsG_of {i : Instr} {s : State} {d : BitVec 5} {c : Cap} (h : exec i s = .next ((s.setG d c).retire)) : PutsG i s d c := by
  have hg := gSet_setG s d (c := c)
  obtain ⟨g', e⟩ := setG_shape s d c
  rw [e] at h hg
  exact ⟨_, h, ⟨fun n => hg n, fun _ => rfl, fun _ => rfl, rfl, slotFrame_of rfl rfl, rfl, fun a => byteAt_self s _ a⟩, rfl, rfl, rfl, rfl, rfl⟩
theorem wr_eq (s : State) (d : BitVec 5) (x : U64) : s.wr d x = s.setG d { bits := 0#64 ++ x, tag := false } := by
  have : x.setWidth 128 = 0#64 ++ x := by
    apply BitVec.eq_of_toNat_eq
    rw [BitVec.toNat_append, BitVec.toNat_setWidth]
    have := x.isLt
    simp
    omega
  simp only [State.wr, Cap.ofInt, this]
theorem putsX_of {i : Instr} {s : State} {d : BitVec 5} {x y : U64} (h : exec i s = .next ((s.wr d x).retire)) (e : x = y) : PutsX i s d y := by
  subst e
  exact putsG_of (by rw [h, wr_eq])
theorem putsX32_of {i : Instr} {s : State} {d : BitVec 5} {x : U32} {y : Int} (h : exec i s = .next ((s.wr d (x.signExtend 64)).retire)) (e : x = BitVec.ofInt 32 y) : PutsX i s d (sext32 y) := by
  subst e
  exact putsX_of h rfl

/-! ### Accesses -/
theorem keepOld_recs (s : State) (x : Acc) (l : Nat) : (s.keepOld x l).recs = s.recs := by
  unfold State.keepOld
  simp only
  split
  · split
    · split
      · rfl
      · split <;> rfl
    · rfl
  · rfl
theorem keepWrite_recs (s : State) (x : Acc) : (s.keepWrite x).recs = s.recs := by
  unfold State.keepWrite
  split <;> rfl
theorem markLog_recs (s : State) (f l n : Nat) : (s.markLog f l n).recs = s.recs := by
  unfold State.markLog
  split <;> rfl
theorem markAtomic_recs (s : State) (x : Acc) (l : Nat) (t : State) (h : s.markAtomic x l = some t) : t.recs = s.recs := by
  unfold State.markAtomic at h
  simp only at h
  split at h
  · split at h
    · split at h
      · cases h
        simp only
        split <;> split <;> simp only [markLog_recs]
      · cases h
    · cases h
  · cases h
theorem soil_recs (s : State) (a : Nat) : (s.soil a).recs = s.recs := by
  unfold State.soil
  split
  · split
    · split
      · split <;> rfl
      · rfl
    · rfl
  · rfl
theorem soilLines_recs (s : State) (x : Acc) (l k : Nat) : (s.soilLines x l k).recs = s.recs := by
  induction k generalizing s l with
  | zero => rfl
  | succ k ih =>
    unfold State.soilLines
    rw [ih, soil_recs]
    cases h : s.markAtomic x l with
    | none => exact keepOld_recs s x l
    | some t => exact markAtomic_recs s x l t h
theorem commit_recs (s : State) (x : Acc) : (s.commit x).recs = (s.record x).recs := by
  unfold State.commit
  simp only
  split
  · exact (soilLines_recs _ _ _ _).trans (keepWrite_recs _ _)
  · rfl
theorem mem_addRecs (a : Agent) (sp : Nat) (w at' : Bool) (k : Nat) : ∀ (l : List Rec) (g : Nat) (r : Rec), r ∈ addRecs l a sp w at' g k ↔
    r ∈ l ∨ (g ≤ r.granule ∧ r.granule < g + k ∧ r.agent = a ∧ r.span = sp ∧ r.write = w ∧ r.atomic = at') := by
  induction k with
  | zero => intro l g r; simp only [addRecs]; constructor
            · exact Or.inl
            · rintro (h | h)
              · exact h
              · omega
  | succ k ih =>
    intro l g r
    rw [addRecs, ih]
    have : r ∈ addRec l { granule := g, agent := a, span := sp, write := w, atomic := at' } ↔ r ∈ l ∨ r = { granule := g, agent := a, span := sp, write := w, atomic := at' } := by
      unfold addRec
      split
      · rename_i h
        constructor
        · exact Or.inl
        · rintro (h1 | h1)
          · exact h1
          · subst h1; simpa using h
      · simp
    rw [this]
    obtain ⟨rg, ra, rs, rw', rat⟩ := r
    simp only [Rec.mk.injEq]
    constructor
    · rintro ((h | ⟨h1, h2⟩) | h)
      · exact Or.inl h
      · exact Or.inr ⟨by omega, by omega, h2⟩
      · exact Or.inr ⟨by omega, by omega, h.2.2⟩
    · rintro (h | h)
      · exact Or.inl (Or.inl h)
      · by_cases e : rg = g
        · exact Or.inl (Or.inr ⟨e, h.2.2⟩)
        · exact Or.inr ⟨by omega, by omega, h.2.2⟩
theorem recorded (s : State) (x : Acc) (hf : x.fetch = false) (hn : 0 < x.size) (t : State) (ht : t.recs = (s.record x).recs) : Recorded s t x := by
  intro r
  rw [ht]
  unfold State.record
  cases ha : x.agent with
  | handler d => simp
  | slot a b c =>
    simp only [hf, Nat.ne_of_gt hn, decide_false, Bool.false_or, Bool.or_false]
    split
    · rename_i h
      simp only [Bool.not_eq_true', Bool.or_eq_false_iff] at h
      simp [h.1, h.2]
    · rename_i h
      simp only [mem_addRecs]
      have h' : s.isChecked x.addr = true ∨ s.isChecked x.last = true := by
        cases h1 : s.isChecked x.addr <;> cases h2 : s.isChecked x.last <;> simp [h1, h2] at h ⊢
      have hl : x.addr ≤ x.last := by unfold Acc.last; omega
      constructor
      · rintro (h1 | h1)
        · exact Or.inl h1
        · exact Or.inr ⟨h', by simp, h1.1, by omega, h1.2.2⟩
      · rintro (h1 | h1)
        · exact Or.inl h1
        · exact Or.inr ⟨h1.2.2.1, by omega, h1.2.2.2.2⟩
  | cmd a b =>
    simp only [hf, Nat.ne_of_gt hn, decide_false, Bool.false_or, Bool.or_false]
    split
    · rename_i h
      simp only [Bool.not_eq_true', Bool.or_eq_false_iff] at h
      simp [h.1, h.2]
    · rename_i h
      simp only [mem_addRecs]
      have h' : s.isChecked x.addr = true ∨ s.isChecked x.last = true := by
        cases h1 : s.isChecked x.addr <;> cases h2 : s.isChecked x.last <;> simp [h1, h2] at h ⊢
      have hl : x.addr ≤ x.last := by unfold Acc.last; omega
      constructor
      · rintro (h1 | h1)
        · exact Or.inl h1
        · exact Or.inr ⟨h', by simp, h1.1, by omega, h1.2.2⟩
      · rintro (h1 | h1)
        · exact Or.inl h1
        · exact Or.inr ⟨h1.2.2.1, by omega, h1.2.2.2.2⟩
theorem watched_eq (s u : State) (x : Acc) (h1 : u.self.class1 = s.self.class1) (h2 : (u.core u.self.core).watch = (s.core s.self.core).watch) : u.watched x = s.watched x := by
  simp only [State.watched, Core.watchMask, Core.watchAddr, State.myCore, h1, h2]
  rfl
theorem noted_watch {s t : State} (h : Noted s t) (x : Acc) : t.watched x = s.watched x := by
  obtain ⟨a, c, o, fr, rfl, hx, -, -, hc⟩ := h
  have hcore : a.core = s.self.core := by rw [hx]
  apply watched_eq
  · rw [hx]
  · have := hc s.self.core
    have := congrArg Core.watch this
    show (({ s with self := a, cores := c, others := o, free := fr } : State).core a.core).watch = _
    rw [hcore]
    exact this
theorem noteWatch_watched (s u : State) (x : Acc) (m : Pred) (h1 : u.watched x = s.watched x) (h2 : u.self.watchTrap = s.self.watchTrap) (h3 : u.pc = s.pc) :
    Watched s (u.noteWatch x m) x m := by
  unfold Watched State.noteWatch
  rw [h1]
  cases hw : s.watched x with
  | none => exact h2
  | some a =>
    cases ht : s.self.watchTrap with
    | some y =>
      obtain ⟨k, pc, w⟩ := y
      rw [h2, ht, h3]
      simp only
      split
      · rfl
      · rw [h2, ht]
    | none => rw [h2, ht]; simp only; exact ⟨u.wordAt u.pc, by rw [← h3]; rfl⟩

/-- What a write leaves in memory's history (R129). -/
theorem soil_older (s : State) (a : Nat) : (s.soil a).older = s.older := by
  unfold State.soil
  split
  · split
    · split
      · split <;> rfl
      · rfl
    · rfl
  · rfl
theorem keepOld_older (s : State) (x : Acc) (l : Nat) : (s.keepOld x l).older = s.older := by
  unfold State.keepOld
  simp only
  split
  · split
    · split
      · rfl
      · split <;> rfl
    · rfl
  · rfl
theorem markLog_older (s : State) (f l n : Nat) : (s.markLog f l n).older = s.older := by
  unfold State.markLog
  split <;> rfl
theorem markAtomic_older (s : State) (x : Acc) (l : Nat) (t : State) (h : s.markAtomic x l = some t) : t.older = s.older := by
  unfold State.markAtomic at h
  simp only at h
  split at h
  · split at h
    · split at h
      · cases h
        simp only
        split <;> split <;> simp only [markLog_older]
      · cases h
    · cases h
  · cases h
theorem soilLines_older (s : State) (x : Acc) (l k : Nat) : (s.soilLines x l k).older = s.older := by
  induction k generalizing s l with
  | zero => rfl
  | succ k ih =>
    unfold State.soilLines
    rw [ih, soil_older]
    cases h : s.markAtomic x l with
    | none => exact keepOld_older s x l
    | some t => exact markAtomic_older s x l t h
theorem record_shape (s : State) (x : Acc) : s.record x = { s with recs := (s.record x).recs } := by
  unfold State.record
  split
  · rfl
  · split <;> rfl
theorem remembered_commit (s : State) (x : Acc) (hw : x.write = true) (hn : 0 < x.size) : Remembered s (s.commit x) x := by
  have e : (s.commit x).older = ((s.record x).keepWrite x).older := by
    unfold State.commit
    simp only [hw, hn, decide_true, Bool.and_self, if_true]
    exact soilLines_older _ _ _ _
  rw [record_shape] at e
  unfold Remembered
  rw [e]
  generalize (s.record x).recs = r
  have hc : ∀ a, ({ s with recs := r } : State).isChecked a = s.isChecked a := fun _ => rfl
  unfold State.keepWrite
  rw [hc, hc]
  by_cases h : s.isChecked x.addr = true ∧ s.isChecked x.last = true
  · rw [if_pos h, if_pos (by rw [h.1, h.2]; rfl)]
  · rw [if_neg h, if_neg (by simpa using h)]
    exact ⟨_, rfl, rfl, rfl, rfl, rfl⟩
theorem core_of_cores (s t : State) (h : t.cores = s.cores) (k : Nat) : t.core k = s.core k := by unfold State.core; rw [h]
structure Accessed (s t : State) (x : Acc) (m : Pred) (u : State) : Prop where
  self : ∃ k w, t.self = { s.self with park := k, watchTrap := w } ∧ k.alone = s.self.park.alone
  frame : WriteFrame s t
  recs : Recorded s t x
  watch : Watched s t x m
  older : x.write = true → Remembered s t x
  bytes : ∀ a, t.byteAt a = u.byteAt a
  tags : ∀ a, t.tagAt a = u.tagAt a

theorem accessLane_spec (s : State) (x : Acc) (m : Pred) (f : State → State) (hf : MemOnly (s.commit x) (f (s.commit x))) (hx : x.fetch = false) (hn : 0 < x.size) :
    Accessed s (s.accessLane x m f) x m (f (s.commit x)) := by
  have hc := Committed.commit s x
  have hr := commit_recs s x
  have hrem := remembered_commit s x
  unfold State.accessLane State.performed
  obtain ⟨mm, z, g, hm⟩ := hf
  generalize hu : f (s.commit x) = u at *
  have hN := Noted.monitorPost u x
  have hS := hN.same
  have hS2 := hS.trans' (SamePlaces.noteWatch (u.monitorPost x) x m)
  have hW := noted_watch hN x
  have hW2 : u.watched x = s.watched x := by
    apply watched_eq
    · obtain ⟨r, b, k, d, tr, o, e, -⟩ := hc; rw [hm, e]
    · obtain ⟨r, b, k, d, tr, o, e, -⟩ := hc
      rw [core_of_cores s u (by rw [hm, e]), show u.self = s.self by rw [hm, e]]
  obtain ⟨xx, c, o, fr, e, hxx, hal, ho, hcc⟩ := hN
  obtain ⟨r, b, kp, d, tr, od, e2, htr, hkk, hod⟩ := hc
  have eself : u.self = s.self := by rw [hm, e2]
  have eW := noteWatch_eq (u.monitorPost x) x m
  have hmself : (u.monitorPost x).self = { s.self with park := xx.park } := by rw [e]; show xx = _; rw [hxx, eself]
  have hold : ((u.monitorPost x).noteWatch x m).older = (s.commit x).older := by
    rw [eW, e]; show u.older = _; rw [hm]
  refine ⟨⟨xx.park, ((u.monitorPost x).noteWatch x m).self.watchTrap, ?_, hal.trans (by rw [eself])⟩, ⟨?_, ?_, ?_, ?_, ?_, ?_⟩, ?_, ?_, fun h => ?_, fun a => hS2.byteAt a, fun a => hS2.tagAt a⟩
  · rw [eW]
    show ({ (u.monitorPost x).self with watchTrap := _ } : Slot) = _
    rw [hmself]
  · rw [eW, e, hm, e2]
  · rw [eW, e, hm, e2]; exact hkk
  · rw [hold, e2]; exact hod
  · intro k
    rw [eW, e, hm, e2]
    exact htr k
  · rw [eW, e]
    show o.map _ = _
    rw [ho, hm, e2]
  · intro k
    have e3 : ((u.monitorPost x).noteWatch x m).core k = (u.monitorPost x).core k :=
      core_of_cores _ _ (by rw [eW]) k
    have e4 : u.core k = s.core k := core_of_cores _ _ (by rw [hm, e2]) k
    rw [e3, hcc k, e4]
  · apply recorded s x hx hn
    rw [eW, e]
    show u.recs = _
    rw [← hr, hm]
  · apply noteWatch_watched s (u.monitorPost x) x
    · rw [hW, hW2]
    · rw [hmself]
    · unfold State.pc; rw [hmself]
  · have := hrem h hn
    unfold Remembered at this ⊢
    rw [hold]
    exact this
theorem access_spec (s : State) (x : Acc) (f : State → State) (hf : MemOnly (s.commit x) (f (s.commit x))) (hx : x.fetch = false) (hn : 0 < x.size) :
    Accessed s (s.access x f) x 0 (f (s.commit x)) := accessLane_spec s x 0 f hf hx hn

theorem findSome_none {s : State} {c : Cap} {needs : List Perm} (h1 : c.tag = true) (h2 : c.otype = 0) (h3 : s.revokedAddr c.bounds.base.toNat = false)
    (h4 : ∀ k ∈ needs, c.holds k = true) : needs.findSome? (s.capClass c) = none := by
  rw [List.findSome?_eq_none_iff]
  intro k hk
  unfold State.capClass Cap.isSealed State.isRevoked
  rw [h1, h2, h3, h4 k hk]
  rfl
theorem capCheck_ok {s : State} {r : BitVec 5} {needs : List Perm} {ea : U64} {n : Nat} {al : Bool} (h : Authorises s (s.g r) needs ea n)
    (ha : al = true → ea.toNat % n = 0) : s.capCheck r (s.g r) ea n needs al = .ok () := by
  obtain ⟨h1, h2, h3, h4, h5, h6⟩ := h
  unfold State.capCheck
  rw [findSome_none h1 h2 h3 h4]
  have hb : (s.g r).inBounds ea.toNat n = true := by
    unfold Cap.inBounds
    simp only [Bool.and_eq_true, decide_eq_true_eq]
    exact ⟨by exact_mod_cast h5, by exact_mod_cast h6⟩
  simp only [hb]
  cases al with
  | false => rfl
  | true => simp [ha rfl]
theorem site_here {s : State} {ea : U64} (h : s.remoteOf ea.toNat = none) : s.site ea = .here (s.localAddr ea.toNat) := by
  unfold State.site; rw [h]
theorem accCheck_ok {s : State} {x : Acc} {ea : U64} (h : s.accErr x = none) : s.accCheck x ea = .ok () := by
  unfold State.accCheck; rw [h]
theorem loadN_bytesAt (s : State) (a n : Nat) : s.loadN a n = bytesAt s a n := by
  induction n generalizing a with
  | zero => rfl
  | succ n ih => rw [State.loadN, bytesAt, ih]
theorem meaOf_eq (s : State) (a : BitVec 5) (i : BitVec 12) (n : Nat) : s.mea a i n = meaOf s a i n := by
  unfold State.mea meaOf cut
  rw [BitVec.ofInt_mul]
  congr 2
theorem lineWhere_none {x : Acc} {f : Nat → Bool} (h : x.lineWhere f = none) (hn : 0 < x.size) {k : Nat} (hk : k < x.size) :
    f (max x.addr ((x.addr + k) / 256 * 256)) = false := by
  unfold Acc.lineWhere at h
  rw [List.findSome?_eq_none_iff] at h
  have h1 : x.addr / 256 ≤ (x.addr + k) / 256 := by omega
  have h2 : (x.addr + k) / 256 ≤ x.last / 256 := by unfold Acc.last; omega
  have := h ((x.addr + k) / 256 - x.addr / 256) (List.mem_range.2 (by omega))
  rw [show x.addr / 256 + ((x.addr + k) / 256 - x.addr / 256) = (x.addr + k) / 256 by omega] at this
  simp only at this
  split at this
  · cases this
  · rename_i h3; simpa using h3
theorem present_of_clear {s : State} {x : Acc} (h : s.accErr x = none) (hn : 0 < x.size) {k : Nat} (hk : k < x.size) :
    (s.phys (x.addr + k)).isSome := by
  unfold State.accErr at h
  rw [if_neg (by omega)] at h
  split at h
  · cases h
  · split at h
    · cases h
    · rename_i h1
      split at h
      · cases h
      · split at h
        · cases h
        · split at h
          · cases h
          · rename_i h2
            have e1 := lineWhere_none h1 hn hk
            have e2 := lineWhere_none h2 hn hk
            generalize hb : max x.addr ((x.addr + k) / 256 * 256) = b at *
            cases hp : s.phys b with
            | none =>
              unfold State.isPoisoned at e2
              rw [hp] at e2
              simp only at e2
              unfold State.isAbsent at e1
              rw [hp, e2] at e1
              cases e1
            | some p =>
              rw [(phys_unit s (a := b) (b := x.addr + k) (by omega) hp).1]
              rfl

theorem byteAt_id {s : State} {x : Acc} (a : Nat) : (s.commit x).byteAt a = s.byteAt a := (Committed.commit s x).same.byteAt a
theorem tagAt_id {s : State} {x : Acc} (a : Nat) : (s.commit x).tagAt a = s.tagAt a := (Committed.commit s x).same.tagAt a

/-- what retire and setG do to an accessed state -/
theorem g_setG' (t : State) (d : BitVec 5) (c : Cap) (s : State) (h : ∀ n, t.g n = s.g n) (n : BitVec 5) : (t.setG d c).g n = gSet s d c n := by
  rw [gSet_setG, gSet, gSet, h]

theorem looked_shape (s : State) (q : Agent) (a n : Nat) : ∃ f, s.looked q a n = { s with free := f } := by
  unfold State.looked
  split
  · exact ⟨s.free, rfl⟩
  · exact ⟨_, rfl⟩

theorem loadLane_eff {s t : State} {x : Acc} {m : Pred} (hr : x.write = false) (ht : t = s.accessLane x m id) (hf : x.fetch = false) (hn : 0 < x.size) :
    Accessed s t x m s ∧ t = { s with self := t.self, recs := t.recs } := by
  have A := accessLane_spec s x m id ⟨_, _, _, rfl⟩ hf hn
  subst ht
  refine ⟨⟨A.1, A.2, A.3, A.4, A.5, fun a => (A.bytes a).trans (byteAt_id a), fun a => (A.tags a).trans (tagAt_id a)⟩, ?_⟩
  have e : s.commit x = s.record x := by unfold State.commit; simp [hr]
  have e2 : ∀ u : State, u.monitorPost x = u := by intro u; unfold State.monitorPost; simp [hr]
  unfold State.accessLane State.performed
  rw [e, e2]
  have eW := noteWatch_eq (id (s.record x)) x m
  rw [eW, id, record_shape]
theorem load_eff {s t : State} {x : Acc} (hr : x.write = false) (ht : t = s.access x id) (hf : x.fetch = false) (hn : 0 < x.size) :
    Accessed s t x 0 s ∧ t = { s with self := t.self, recs := t.recs } := loadLane_eff hr ht hf hn

theorem remembered_retire {s t : State} {x : Acc} (h : Remembered s t x) : Remembered s t.retire x := h
theorem writeFrame_retire {s t : State} (h : WriteFrame s t) : WriteFrame s t.retire := by
  obtain ⟨w1, w2, w3, w4, w5, w6⟩ := h
  refine ⟨?_, w2, w3, w4, w5, w6⟩
  unfold State.retire State.setSelf
  rw [w1]
theorem stores_of {i : Instr} {s : State} {x : Acc} {f : State → State} {v : Nat} {g : Bool} (hf : x.fetch = false) (hn : 0 < x.size) (hw : x.write = true)
    (hm : MemOnly (s.commit x) (f (s.commit x)))
    (hb : Stored s (f (s.commit x)) x.addr x.size v) (ht : Tags s (f (s.commit x)) x.addr x.size g)
    (h : exec i s = .next ((s.access x f).retire)) : Stores i s v g x := by
  have A := access_spec s x f hm hf hn
  obtain ⟨k, w, hs, hka⟩ := A.self
  generalize s.access x f = t at *
  have eb : ∀ a, t.retire.byteAt a = t.byteAt a := fun a => byteAt_self t t.retire.self a
  have et : ∀ a, t.retire.tagAt a = t.tagAt a := fun a => rfl
  refine ⟨_, h, ⟨?_, ?_, ?_, ?_, ?_⟩, ?_, ?_, ?_, ?_, ?_, ?_, ?_⟩
  · intro n; unfold State.g; show Slot.getG { t.self with .. } n = _; rw [hs]; rfl
  · intro n; unfold State.v; show Slot.getV { t.self with .. } n = _; rw [hs]; rfl
  · intro n; unfold State.p; show Slot.getP { t.self with .. } n = _; rw [hs]; rfl
  · show t.self.flags = _; rw [hs]
  · unfold State.retire State.setSelf; simp only; rw [hs]; rfl
  · unfold Retired State.retire State.setSelf State.pc; simp only; rw [hs]; exact ⟨rfl, rfl, by trivial, hka, by trivial⟩
  · exact A.recs
  · exact A.watch
  · exact writeFrame_retire A.frame
  · exact remembered_retire (A.older hw)
  · refine ⟨fun k hk => (eb _).trans ((A.bytes _).trans (hb.1 k hk)), fun b h => (eb _).trans ((A.bytes _).trans (hb.2 b h))⟩
  · intro b
    refine ⟨fun h => (et _).trans ((A.tags _).trans ((ht b).1 h)), fun k hk h => (et _).trans ((A.tags _).trans ((ht b).2 k hk h))⟩

theorem bytesAt_lt (s : State) (a n : Nat) : bytesAt s a n < 256 ^ n := by
  induction n generalizing a with
  | zero => simp [bytesAt]
  | succ n ih =>
    rw [bytesAt, Nat.pow_succ]
    have h1 := ih (a + 1)
    have h2 := (s.byteAt a).isLt
    omega
theorem sextBytes_eq (n v : Nat) (h0 : 0 < n) (hn : n ≤ 8) (hv : v < 2 ^ (8 * n)) :
    sextBytes n v = cut (if 2 ^ (8 * n - 1) ≤ v then (v : Int) - 2 ^ (8 * n) else v) := by
  unfold sextBytes cut
  rw [BitVec.signExtend]
  congr 1
  rw [BitVec.toInt_eq_toNat_cond, BitVec.toNat_ofNat, Nat.mod_eq_of_lt hv]
  have e : 2 ^ (8 * n) = 2 * 2 ^ (8 * n - 1) := by rw [← Nat.pow_succ']; congr 1; omega
  by_cases h : 2 ^ (8 * n - 1) ≤ v
  · rw [if_pos h, if_neg (by omega)]; push_cast; rfl
  · rw [if_neg h, if_pos (by omega)]
theorem isFabric_eq (ea : U64) : isFabric ea = (decide (2 ^ 63 ≤ ea.toNat) && decide (ea.toNat < 2 ^ 63 + 2 ^ 62)) := by
  unfold isFabric
  rw [Bool.eq_iff_iff]
  simp only [beq_iff_eq, Bool.and_eq_true, decide_eq_true_eq]
  rw [← BitVec.toNat_inj, BitVec.extractLsb'_toNat]
  have := ea.isLt
  simp only [Nat.shiftRight_eq_div_pow]
  show _ % 4 = 2 ↔ _
  omega
theorem rightC_eq (s : State) (a : Nat) : s.rightC a = (s.rightsAt s.self.owner a).any (fun e => e.c) := by
  unfold State.rightC
  cases s.rightsAt s.self.owner a <;> rfl
theorem localAddr_mod {s : State} {a : Nat} (h : a % 16 = 0) : s.localAddr a % 16 = 0 := by
  unfold State.localAddr
  split
  · rename_i d o hp
    split
    · have ho : o % 16 = 0 := by
        unfold placeOf at hp
        simp only at hp
        split_ifs at hp
        cases hp
        omega
      unfold fabricLocal spadBase hostBase
      split
      · exact ho
      · split <;> omega
    · exact h
  · exact h

/-! ### Atomics -/

theorem spanCut_eq (s : State) (c : BitVec 2) : s.sync c.toNat = spanCut s c := by
  have h : s.self.marks.mapFinIdx (fun i m _ => if i ≤ c.toNat then s.self.span else m)
      = Vector.ofFn (fun i : Fin 4 => if i.val ≤ c.toNat then s.self.span else s.self.marks[i]) := by
    apply Vector.ext
    intro i hi
    simp
  unfold State.sync State.setSelf spanCut Slot.closeSpan
  simp only
  rw [h]
theorem SamePlaces.spanCut (s : State) (c : BitVec 2) : SamePlaces s (Claims.spanCut s c) := ⟨fun _ => rfl, fun _ => rfl, rfl, rfl, rfl⟩
theorem sp_byteAt (s : State) (c : BitVec 2) (a : Nat) : (Claims.spanCut s c).byteAt a = s.byteAt a := (SamePlaces.spanCut s c).byteAt a

/-- What is stored, seen from s, when done on a state with the same places. -/
theorem stored_of_same {s u t : State} (h : SamePlaces s u) {a n v : Nat} (hs : Stored u t a n v) : Stored s t a n v := by
  refine ⟨hs.1, fun b hb => (hs.2 b fun k hk => ?_).trans (h.byteAt b)⟩
  have := hb k hk
  unfold Elsewhere at this ⊢
  rw [h.1, h.1, h.2.1, h.2.1]
  exact this
theorem tags_of_same {s u t : State} (h : SamePlaces s u) {a n : Nat} {g : Bool} (hs : Tags u t a n g) : Tags s t a n g := by
  intro b
  have := hs b
  unfold SameGranule at *
  simp only [h.1] at this
  exact ⟨fun e => (this.1 e).trans (h.tagAt b), this.2⟩
theorem stored_same {s t u : State} {a n v : Nat} (h : Stored s t a n v) (hb : ∀ b, u.byteAt b = t.byteAt b) : Stored s u a n v :=
  ⟨fun k hk => (hb _).trans (h.1 k hk), fun b e => (hb _).trans (h.2 b e)⟩
theorem tags_same {s t u : State} {a n : Nat} {g : Bool} (h : Tags s t a n g) (hb : ∀ b, u.tagAt b = t.tagAt b) : Tags s u a n g :=
  fun b => ⟨fun e => (hb _).trans ((h b).1 e), fun k hk e => (hb _).trans ((h b).2 k hk e)⟩

/-- What an atomic stores. -/
def Puts (s : State) (f : State → State) (x : Acc) (new : Option (Nat × Bool)) : Prop :=
  ∀ u, SamePlaces s u → MemOnly u (f u) ∧ match new with
      | none => ∀ a, (f u).byteAt a = u.byteAt a ∧ (f u).tagAt a = u.tagAt a
      | some (v, k) => Stored u (f u) x.addr x.size v ∧ Tags u (f u) x.addr x.size k

theorem holds_of {s u t : State} {x : Acc} {m : Pred} (A : Accessed s t x m u) : Holds s t.retire s.g s.v s.p s.self.flags ∧ Retired s t.retire := by
  obtain ⟨k, w, hs, hka⟩ := A.self
  refine ⟨⟨?_, ?_, ?_, ?_, ?_⟩, ?_⟩
  · intro n; unfold State.g; show Slot.getG { t.self with .. } n = _; rw [hs]; rfl
  · intro n; unfold State.v; show Slot.getV { t.self with .. } n = _; rw [hs]; rfl
  · intro n; unfold State.p; show Slot.getP { t.self with .. } n = _; rw [hs]; rfl
  · show t.self.flags = _; rw [hs]
  · unfold State.retire State.setSelf; simp only; rw [hs]; rfl
  · unfold Retired State.retire State.setSelf State.pc; simp only; rw [hs]; exact ⟨rfl, rfl, by trivial, hka, by trivial⟩

theorem holds_setG {s t : State} {d : BitVec 5} {c : Cap} (h : Holds s t.retire s.g s.v s.p s.self.flags) : Holds s (t.setG d c).retire (gSet s d c) s.v s.p s.self.flags := by
  obtain ⟨h1, h2, h3, h4, h5⟩ := h
  have hg : ∀ n, t.g n = s.g n := fun n => h1 n
  have hset := g_setG' t d c s hg
  obtain ⟨g', e'⟩ := setG_shape t d c
  rw [e'] at hset ⊢
  refine ⟨fun n => hset n, fun n => h2 n, fun n => h3 n, h4, ?_⟩
  have := h5
  unfold State.retire State.setSelf at this ⊢
  simp only at this ⊢
  rw [Slot.mk.injEq] at this ⊢
  simp only [true_and, and_true] at this ⊢
  exact this

theorem atomic_done {i : Instr} {r0 s : State} {x : Acc} {o c : BitVec 2} {new : Option (Nat × Bool)} {f : State → State} {p : State → State} {g : BitVec 5 → Cap}
    (hf : x.fetch = false) (hn : 0 < x.size) (hp : Puts s f x new)
    (hput : (p = id ∧ g = s.g) ∨ ∃ d v, (∀ t : State, t.revoked = s.revoked → p t = t.setG d v) ∧ g = gSet s d v)
    (h : exec i r0 = .next ((p (s.ordered o c (fun t => t.access x f))).retire)) : AtomicIn i r0 s x o c g new := by
  -- the general shape of the state before the register is written
  have key : ∃ t0 u, s.ordered o c (fun t => t.access x f) = t0 ∧ Holds (synced s o c) t0.retire s.g s.v s.p s.self.flags ∧ Retired s t0.retire
      ∧ Recorded (if o = 1 ∨ o = 3 then spanCut s c else s) t0 x ∧ Watched s t0 x 0 ∧ WriteFrame (synced s o c) t0
      ∧ SamePlaces s u ∧ (∀ a, t0.byteAt a = (f u).byteAt a) ∧ (∀ a, t0.tagAt a = (f u).tagAt a) := by
    by_cases h0 : o = 0
    · subst h0
      have A := access_spec s x f (hp _ (Committed.commit s x).same).1 hf hn
      refine ⟨_, s.commit x, rfl, (holds_of A).1, (holds_of A).2, ?_, A.watch, A.frame, (Committed.commit s x).same, A.bytes, A.tags⟩
      exact A.recs
    · have eo : synced s o c = spanCut s c := if_neg h0
      rw [eo]
      by_cases hac : o = 1 ∨ o = 3
      · rw [if_pos hac]
        have hS := (SamePlaces.spanCut s c).trans' (Committed.commit (spanCut s c) x).same
        have A := access_spec (spanCut s c) x f (hp _ hS).1 hf hn
        have e : s.ordered o c (fun t => t.access x f) = (spanCut s c).access x f := by
          unfold State.ordered acquires
          rw [if_neg h0, if_pos (by rcases hac with rfl | rfl <;> rfl), spanCut_eq]
        refine ⟨_, (spanCut s c).commit x, e, (holds_of A).1, (holds_of A).2, A.recs, ?_, A.frame, hS, A.bytes, A.tags⟩
        have := A.watch
        unfold Watched at this ⊢
        rw [watched_eq s (spanCut s c) x rfl rfl] at this
        exact this
      · rw [if_neg hac]
        have hS := (Committed.commit s x).same
        have A := access_spec s x f (hp _ hS).1 hf hn
        have e : s.ordered o c (fun t => t.access x f) = spanCut (s.access x f) c := by
          unfold State.ordered acquires
          rw [if_neg h0, if_neg (by intro e; apply hac; simpa using e), spanCut_eq]
        obtain ⟨k, w, hs, hka⟩ := A.self
        generalize s.access x f = t at *
        have eb : ∀ a, (spanCut t c).byteAt a = t.byteAt a := fun a => sp_byteAt t c a
        refine ⟨_, s.commit x, e, ⟨?_, ?_, ?_, ?_, ?_⟩, ?_, A.recs, A.watch, ?_, hS, fun a => (eb a).trans (A.bytes a), A.tags⟩
        · intro n; unfold State.g; show Slot.getG { t.self with .. } n = _; rw [hs]; rfl
        · intro n; unfold State.v; show Slot.getV { t.self with .. } n = _; rw [hs]; rfl
        · intro n; unfold State.p; show Slot.getP { t.self with .. } n = _; rw [hs]; rfl
        · show t.self.flags = _; rw [hs]
        · unfold State.retire State.setSelf Claims.spanCut; simp only; rw [hs]; rfl
        · unfold Retired State.retire State.setSelf State.pc spanCut; simp only; rw [hs]; exact ⟨rfl, rfl, by trivial, hka, by trivial⟩
        · obtain ⟨w1, w2, w3, w4⟩ := A.frame
          refine ⟨?_, w2, w3, w4⟩
          unfold Claims.spanCut
          rw [w1]
  obtain ⟨t0, u, et, h1, h2, h3, h4, h5, hS, hb, htg⟩ := key
  rw [et] at h
  have hx : synced s o c = s ∨ synced s o c = spanCut s c := by unfold synced; split <;> simp
  have hsg : ∀ n, (synced s o c).g n = s.g n := by rcases hx with e | e <;> rw [e] <;> intro n <;> rfl
  have hmem : match new with
      | none => ∀ a, t0.byteAt a = s.byteAt a ∧ t0.tagAt a = s.tagAt a
      | some (v, k) => Stored s t0 x.addr x.size v ∧ Tags s t0 x.addr x.size k := by
    have := (hp u hS).2
    cases new with
    | none => exact fun a => ⟨(hb a).trans ((this a).1.trans (hS.byteAt a)), (htg a).trans ((this a).2.trans (hS.tagAt a))⟩
    | some y => exact ⟨stored_same (stored_of_same hS this.1) hb, tags_same (tags_of_same hS this.2) htg⟩
  have fin (t1 : State) (e : t1 = { t0 with self := t1.self }) (hh : Holds (synced s o c) t1.retire g s.v s.p s.self.flags) (hr : Retired s t1.retire)
      (hw : t1.self.watchTrap = t0.self.watchTrap) (hi : exec i r0 = .next t1.retire) : AtomicIn i r0 s x o c g new := by
    have er : t1.retire = { t0 with self := t1.retire.self } := by
      unfold State.retire State.setSelf; rw [e]
    have eb : ∀ a, t1.retire.byteAt a = t0.byteAt a := by intro a; rw [er]; exact byteAt_self t0 _ a
    have etg : ∀ a, t1.retire.tagAt a = t0.tagAt a := by intro a; rw [er]; rfl
    refine ⟨_, hi, hh, hr, ?_, ?_, ?_, ?_⟩
    · intro r; rw [er]; exact h3 r
    · unfold Watched at h4 ⊢
      rw [show t1.retire.self.watchTrap = t0.self.watchTrap from hw]
      exact h4
    · obtain ⟨w1, w2, w3, w4, w5, w6⟩ := h5
      refine ⟨?_, ?_, ?_, ?_, ?_, ?_⟩
      · rw [er, w1]
      · rw [er]; exact w2
      · rw [er]; exact w3
      · intro k; rw [er]; exact w4 k
      · rw [er]; exact w5
      · intro k; rw [er]; exact w6 k
    · cases new with
      | none => exact fun a => ⟨(eb a).trans (hmem a).1, (etg a).trans (hmem a).2⟩
      | some y => exact ⟨stored_same hmem.1 eb, tags_same hmem.2 etg⟩
  rcases hput with ⟨rfl, rfl⟩ | ⟨d, v, hpv, rfl⟩
  · exact fin t0 rfl h1 h2 rfl h
  · have hrev : t0.revoked = s.revoked := by
      rw [h5.1]
      rcases hx with e | e <;> rw [e] <;> rfl
    rw [hpv t0 hrev] at h
    have e1 : Holds (synced s o c) t0.retire (synced s o c).g (synced s o c).v (synced s o c).p (synced s o c).self.flags := by
      rcases hx with e | e <;> rw [e] at h1 ⊢ <;> exact h1
    have e2 := holds_setG (d := d) (c := v) e1
    obtain ⟨g', e'⟩ := setG_shape t0 d v
    refine fin (t0.setG d v) (by rw [e']) ?_ ?_ (by rw [e']) h
    · rcases hx with e | e <;> rw [e] at e2 ⊢ <;> exact e2
    · rw [e']
      obtain ⟨r1, r2, r3, r4, r5⟩ := h2
      exact ⟨r1, r2, r3, r4, r5⟩

/-- the value an atomic read, and what it writes, as the meaning computes them -/
def aOld (s : State) (n m : Nat) : Cap := if n = 16 then s.capAt m else { bits := BitVec.ofNat 128 (s.loadN m n), tag := false }
def aNew (s : State) (op n : Nat) (v x e : Cap) (ea : U64) : Option Cap :=
  (atomNew op n v x e).map (fun y => { y with tag := s.storedTag { y with tag := y.tag && n == 16 } ea })
def aPut (n m : Nat) (new : Option Cap) (t : State) : State := match new with
  | none => t
  | some y => if n = 16 then t.storeCap m y y.tag else t.storeData m n y.bits.toNat

theorem scRule_ok {s : State} {c v : Cap} {ea : U64} (h : scOk s c v ea) : s.scRule c v ea (s.rightC (s.localAddr ea.toNat)) = .ok () := by
  unfold State.scRule
  rw [rightC_eq]
  cases ht : v.tag with
  | false => rfl
  | true => rw [(h ht).1, (h ht).2]; rfl

theorem atomic_home {s : State} {op : Nat} {d a : BitVec 5} {x e : Cap} {z o c : BitVec 2} (h : op ≠ 10 ∨ o ≠ 0) :
    s.atomic op d a x e z o c = s.atomicHome op d a x e z o c false := by
  unfold State.atomic
  rw [if_neg (by simpa using Classical.not_and_iff_not_or_not.2 h)]
theorem atomicHome_eq {s : State} {op : Nat} {d a : BitVec 5} {x e : Cap} {z o c : BitVec 2}
    (h1 : Authorises s (s.g a) (atomNeeds op) (s.x a) (atomBytes z)) (ha : (s.x a).toNat % atomBytes z = 0)
    (h2 : Clear s (s.x a) (accessOf s (s.x a) (atomBytes z) (op != 12) (op != 11) true))
    (h3 : scOk s (s.g a) (if atomBytes z = 16 && op != 11 then x else x.untag) (s.x a)) :
    s.atomicHome op d a x e z o c false = .next (((s.ordered o c (fun t => t.access (accessOf s (s.x a) (atomBytes z) (op != 12) (op != 11) true)
      (aPut (atomBytes z) (s.localAddr (s.x a).toNat) (aNew s op (atomBytes z) (aOld s (atomBytes z) (s.localAddr (s.x a).toNat)) x e (s.x a))))).atomPut op
        (atomBytes z) d (s.g a) (aOld s (atomBytes z) (s.localAddr (s.x a).toNat)) (s.rightC (s.localAddr (s.x a).toNat)) (s.x a)).retire) := by
  obtain ⟨h4, h5⟩ := h2
  unfold State.atomicHome
  have hc := capCheck_ok (al := true) h1 (fun _ => ha)
  have hx : s.acc (s.localAddr (s.x a).toNat) (atomBytes z) (op != 12) (op != 11) true = accessOf s (s.x a) (atomBytes z) (op != 12) (op != 11) true := rfl
  simp only [hc, site_here h4, hx, h5, scRule_ok h3, accCheck_ok h5]
  rfl

theorem storedTag_eq (s : State) (v : Cap) (ea : U64) : s.storedTag v ea = storeTag s v ea := by
  unfold State.storedTag State.isRevoked storeTag
  rw [← isFabric_eq]
  cases v.tag <;> simp
theorem loadedTag_eq (s : State) (c v : Cap) (ea : U64) : s.loadedTag c v (s.rightC (s.localAddr ea.toNat)) ea = loadTag s c v ea := by
  unfold State.loadedTag State.isRevoked loadTag
  rw [← isFabric_eq, rightC_eq]
  cases v.tag <;> cases c.holds .lc <;>
    cases (s.rightsAt s.self.owner (s.localAddr ea.toNat)).any (fun e => e.c) <;> cases s.revokedAddr v.bounds.base.toNat <;> simp
theorem loadedTag_eq' {s t : State} (h : t.revoked = s.revoked) (c v : Cap) (ea : U64) :
    t.loadedTag c v (s.rightC (s.localAddr ea.toNat)) ea = loadTag s c v ea := by
  rw [← loadedTag_eq]
  unfold State.loadedTag State.isRevoked State.revokedAddr
  rw [h]
theorem capAt_eq (s : State) (m : Nat) : s.capAt m = capOf s m := by unfold State.capAt capOf; rw [loadN_bytesAt]

theorem puts_none (s : State) (n m : Nat) (x : Acc) : Puts s (aPut n m none) x none := by
  intro u _
  exact ⟨.refl u, fun a => ⟨rfl, rfl⟩⟩
theorem puts_data (s : State) (x : Acc) (y : Cap) (v : Nat) (hn : 0 < x.size) (h16 : x.size < 16) (hp : s.accErr x = none)
    (hv : ∀ k, k < x.size → BitVec.ofNat 8 (y.bits.toNat / 256 ^ k) = BitVec.ofNat 8 (v / 256 ^ k)) :
    Puts s (aPut x.size x.addr (some y)) x (some (v, false)) := by
  intro u hS
  have hpres : ∀ k, k < x.size → (u.phys (x.addr + k)).isSome := by
    intro k hk
    rw [hS.1]
    exact present_of_clear hp hn hk
  obtain ⟨c1, c2, c3, c4⟩ := storeData_spec u x.addr x.size y.bits.toNat hn (by omega) hpres
  have e : aPut x.size x.addr (some y) u = u.storeData x.addr x.size y.bits.toNat := by unfold aPut; simp only; rw [if_neg (by omega)]
  rw [e]
  refine ⟨c1, ⟨fun k hk => (c2 k hk).trans (hv k hk), fun b hb => c3 b hb⟩, ?_⟩
  intro b
  refine ⟨fun h => (c4 b).1 h, fun k hk h => ?_⟩
  rw [(c4 b).2 k hk h]; rfl
theorem puts_cap (s : State) (x : Acc) (y : Cap) (h16 : x.size = 16) (hal : x.addr % 16 = 0) (hp : s.accErr x = none) :
    Puts s (aPut 16 x.addr (some y)) x (some (y.bits.toNat, y.tag)) := by
  intro u hS
  have hpres : ∀ k, k < 16 → (u.phys (x.addr + k)).isSome := by
    intro k hk
    rw [hS.1]
    exact present_of_clear hp (by omega) (by omega)
  obtain ⟨c1, c2, c3, c4⟩ := storeCap_spec u x.addr y y.tag hal hpres
  have e : aPut 16 x.addr (some y) u = u.storeCap x.addr y y.tag := by unfold aPut; rfl
  rw [e]
  refine ⟨c1, ?_⟩
  simp only
  rw [h16]
  exact ⟨⟨fun k hk => c2 k hk, fun b hb => c3 b hb⟩, fun b => ⟨fun h => (c4 b).1 h, fun k hk h => (c4 b).2 k hk h⟩⟩

theorem signedAt_eq (w v : Nat) (hw : 0 < w) : signedAt w v = (BitVec.ofNat w v).toInt := by
  unfold signedAt
  rw [BitVec.toInt_eq_toNat_cond, BitVec.toNat_ofNat]
  have e : 2 ^ w = 2 * 2 ^ (w - 1) := by rw [← Nat.pow_succ']; congr 1; omega
  by_cases h : 2 ^ (w - 1) ≤ v % 2 ^ w
  · rw [if_pos h, if_neg (by omega)]; push_cast; rfl
  · rw [if_neg h, if_pos (by omega)]

theorem atomRet_eq (op n v : Nat) (hn : n = 4 ∨ n = 8) (hv : v < 2 ^ (8 * n)) :
    (Cap.ofInt (atomRet op n v)) = int (if op = 6 ∨ op = 7 ∨ op = 10 then (v : Int) else signedAt (8 * n) v) := by
  have e0 : ∀ x : U64, Cap.ofInt x = { bits := 0#64 ++ x, tag := false } := by
    intro x
    unfold Cap.ofInt
    congr 1
    apply BitVec.eq_of_toNat_eq
    rw [BitVec.toNat_append, BitVec.toNat_setWidth]
    have := x.isLt
    simp
    omega
  rw [e0]
  unfold int
  congr 2
  unfold atomRet
  rcases hn with rfl | rfl
  · by_cases h : op = 6 ∨ op = 7 ∨ op = 10
    · rw [if_pos h, if_neg (by rcases h with rfl | rfl | rfl <;> simp)]
      exact (BitVec.ofInt_natCast _ _).symm
    · rw [if_neg h, if_pos (by simp only [not_or] at h; simp [h.1, h.2.1, h.2.2]), sextBytes_eq 4 v (by omega) (by omega) hv]
      unfold signedAt
      rw [Nat.mod_eq_of_lt hv]
  · rw [if_neg (by simp)]
    unfold cut
    have hb : BitVec.ofInt 64 (signedAt 64 v) = BitVec.ofNat 64 v := by
      rw [signedAt_eq 64 v (by omega), BitVec.ofInt_toInt]
    split
    · exact (BitVec.ofInt_natCast _ _).symm
    · exact hb.symm

theorem bytesAt_bits (s : State) (m n : Nat) (h : n ≤ 16) : (BitVec.ofNat 128 (bytesAt s m n)).toNat % 2 ^ (8 * n) = bytesAt s m n := by
  have h1 := bytesAt_lt s m n
  have h2 : 256 ^ n = 2 ^ (8 * n) := by rw [show 256 = 2 ^ 8 by rfl, ← Nat.pow_mul]
  have h3 : 2 ^ (8 * n) ≤ 2 ^ 128 := Nat.pow_le_pow_right (by decide) (by omega)
  rw [h2] at h1
  rw [BitVec.toNat_ofNat, Nat.mod_eq_of_lt (Nat.lt_of_lt_of_le h1 h3), Nat.mod_eq_of_lt h1]

theorem byte_mod (y n k : Nat) (hk : k < n) : BitVec.ofNat 8 (y / 256 ^ k) = BitVec.ofNat 8 (y % 2 ^ (8 * n) / 256 ^ k) := by
  apply BitVec.eq_of_toNat_eq
  rw [BitVec.toNat_ofNat, BitVec.toNat_ofNat]
  have h2 : 2 ^ (8 * n) = 256 ^ k * (256 * 256 ^ (n - 1 - k)) := by
    rw [show 256 = 2 ^ 8 by rfl, ← Nat.pow_mul, ← Nat.pow_mul, ← Nat.pow_add, ← Nat.pow_add]; congr 1; omega
  rw [h2, Nat.mod_mul_right_div_self, show 2 ^ 8 = 256 by rfl]
  exact (Nat.mod_mul_right_mod _ _ _).symm

/-- an integer read-modify-write -/
theorem rmw_done {r0 s : State} {i : Instr} {op : Nat} {d a : BitVec 5} {x e : Cap} {z o c : BitVec 2} {N : Option Nat}
    (hz : z ≠ 2) (hz3 : z ≠ 3) (hi : exec i r0 = s.atomicHome op d a x e z o c false) (h11 : op ≤ 10)
    (h1 : Authorises s (s.g a) [.r, .w] (s.x a) (atomBytes z)) (ha : (s.x a).toNat % atomBytes z = 0)
    (h2 : Clear s (s.x a) (accessOf s (s.x a) (atomBytes z) true true true))
    (hN : match atomNew op (atomBytes z) { bits := BitVec.ofNat 128 (bytesAt s (s.localAddr (s.x a).toNat) (atomBytes z)), tag := false } x e with
      | none => N = none
      | some y => ∃ v, N = some v ∧ ∀ k, k < atomBytes z → BitVec.ofNat 8 (y.bits.toNat / 256 ^ k) = BitVec.ofNat 8 (v / 256 ^ k)) :
    AtomicIn i r0 s (accessOf s (s.x a) (atomBytes z) true true true) o c
      (gSet s d (int (if op = 6 ∨ op = 7 ∨ op = 10 then (bytesAt s (s.localAddr (s.x a).toNat) (atomBytes z) : Int)
        else signedAt (8 * atomBytes z) (bytesAt s (s.localAddr (s.x a).toNat) (atomBytes z))))) (N.map (fun v => (v, false))) := by
  have hsz : atomBytes z = 4 ∨ atomBytes z = 8 := by
    have := z.isLt
    have h2' : z.toNat ≠ 2 := fun e => hz (BitVec.eq_of_toNat_eq e)
    have h3' : z.toNat ≠ 3 := fun e => hz3 (BitVec.eq_of_toNat_eq e)
    unfold atomBytes
    rcases (show z.toNat = 0 ∨ z.toNat = 1 by omega) with e | e <;> rw [e] <;> simp
  have h12 : op ≠ 12 := by omega
  have h11' : op ≠ 11 := by omega
  have en : atomNeeds op = [.r, .w] := by unfold atomNeeds; rw [if_neg h11', if_neg h12]
  have eb1 : (op != 12) = true := by simpa using h12
  have eb2 : (op != 11) = true := by simpa using h11'
  have h16 : atomBytes z ≠ 16 := by omega
  have he := atomicHome_eq (s := s) (op := op) (d := d) (a := a) (x := x) (e := e) (z := z) (o := o) (c := c) (by rw [en]; exact h1) ha
    (by rw [eb1, eb2]; exact h2) (by rw [if_neg (by simp [h16])]; intro h; cases h)
  rw [eb1, eb2] at he
  rw [he] at hi
  have eold : aOld s (atomBytes z) (s.localAddr (s.x a).toNat) = { bits := BitVec.ofNat 128 (bytesAt s (s.localAddr (s.x a).toNat) (atomBytes z)), tag := false } := by
    unfold aOld; rw [if_neg h16, loadN_bytesAt]
  rw [eold] at hi
  have hlt : bytesAt s (s.localAddr (s.x a).toNat) (atomBytes z) < 2 ^ (8 * atomBytes z) := by
    have := bytesAt_lt s (s.localAddr (s.x a).toNat) (atomBytes z)
    have h2 : 256 ^ (atomBytes z) = 2 ^ (8 * atomBytes z) := by rw [show 256 = 2 ^ 8 by rfl, ← Nat.pow_mul]
    omega
  refine atomic_done (x := accessOf s (s.x a) (atomBytes z) true true true)
    (f := aPut (atomBytes z) (s.localAddr (s.x a).toNat) (aNew s op (atomBytes z) { bits := BitVec.ofNat 128 (bytesAt s (s.localAddr (s.x a).toNat) (atomBytes z)), tag := false } x e (s.x a)))
    (p := fun t => t.atomPut op (atomBytes z) d (s.g a) { bits := BitVec.ofNat 128 (bytesAt s (s.localAddr (s.x a).toNat) (atomBytes z)), tag := false } (s.rightC (s.localAddr (s.x a).toNat)) (s.x a))
    rfl (show 0 < atomBytes z by omega) ?_ (Or.inr ⟨d, _, ?_, rfl⟩) hi
  · unfold aNew
    cases hnew : atomNew op (atomBytes z) { bits := BitVec.ofNat 128 (bytesAt s (s.localAddr (s.x a).toNat) (atomBytes z)), tag := false } x e with
    | none =>
      rw [hnew] at hN
      simp only at hN
      rw [hN]
      exact puts_none _ _ _ _
    | some y =>
      rw [hnew] at hN
      obtain ⟨v, rfl, hv⟩ := hN
      exact puts_data s (accessOf s (s.x a) (atomBytes z) true true true) _ v (show 0 < atomBytes z by omega) (show atomBytes z < 16 by omega) h2.2 hv
  · intro t _
    unfold State.atomPut State.wr
    rw [if_neg h12, if_neg h16]
    congr 1
    rw [bytesAt_bits _ _ _ (by omega), atomRet_eq op _ _ hsz hlt]

theorem z_ne (z : BitVec 1) : z.setWidth 2 ≠ (2 : BitVec 2) ∧ z.setWidth 2 ≠ (3 : BitVec 2) := by
  revert z; decide
theorem atomBytes_w (z : BitVec 1) : atomBytes (z.setWidth 2) = 4 * 2 ^ z.toNat := by
  unfold atomBytes
  rw [BitVec.toNat_setWidth, Nat.mod_eq_of_lt (by have := z.isLt; omega)]
theorem toNat_emod (w v : Nat) : ((v : Int) % 2 ^ w).toNat = v % 2 ^ w := by
  have : ((v : Int) % 2 ^ w) = ((v % 2 ^ w : Nat) : Int) := by push_cast; rfl
  rw [this, Int.toNat_natCast]
theorem low_bits (s : State) (b : BitVec 5) (n : Nat) (hn : n ≤ 8) : (s.g b).bits.toNat % 2 ^ (8 * n) = (s.x b).toNat % 2 ^ (8 * n) := by
  unfold State.x Cap.addr
  rw [BitVec.extractLsb'_toNat, Nat.shiftRight_zero]
  rw [Nat.mod_mod_of_dvd]
  exact Nat.pow_dvd_pow 2 (by omega)
theorem ofInt_mod (w : Nat) (x : Int) : (BitVec.ofInt w x).toNat = (x % 2 ^ w).toNat := by
  rw [BitVec.toNat_ofInt]; push_cast; rfl
/-- signed minimum and maximum as numbers -/
theorem smin_eq (w v y : Nat) (hw : 0 < w) (hv : v < 2 ^ w) (hy : y < 2 ^ w) :
    (if (BitVec.ofNat w v).toInt ≤ (BitVec.ofNat w y).toInt then v else y) = (min (signedAt w v) (signedAt w y) % 2 ^ w).toNat := by
  rw [signedAt_eq w v hw, signedAt_eq w y hw, ← ofInt_mod]
  split
  · rename_i h; rw [min_eq_left h, BitVec.ofInt_toInt, BitVec.toNat_ofNat, Nat.mod_eq_of_lt hv]
  · rename_i h; rw [min_eq_right (le_of_lt (not_le.1 h)), BitVec.ofInt_toInt, BitVec.toNat_ofNat, Nat.mod_eq_of_lt hy]
theorem smax_eq (w v y : Nat) (hw : 0 < w) (hv : v < 2 ^ w) (hy : y < 2 ^ w) :
    (if (BitVec.ofNat w y).toInt ≤ (BitVec.ofNat w v).toInt then v else y) = (max (signedAt w v) (signedAt w y) % 2 ^ w).toNat := by
  rw [signedAt_eq w v hw, signedAt_eq w y hw, ← ofInt_mod]
  split
  · rename_i h; rw [max_eq_left h, BitVec.ofInt_toInt, BitVec.toNat_ofNat, Nat.mod_eq_of_lt hv]
  · rename_i h; rw [max_eq_right (le_of_lt (not_le.1 h)), BitVec.ofInt_toInt, BitVec.toNat_ofNat, Nat.mod_eq_of_lt hy]
theorem bytes128 (v n k : Nat) (hv : v < 2 ^ (8 * n)) (hn : n ≤ 8) : (BitVec.ofNat 128 v).toNat = v := by
  have h3 : 2 ^ (8 * n) ≤ 2 ^ 128 := Nat.pow_le_pow_right (by decide) (by omega)
  rw [BitVec.toNat_ofNat, Nat.mod_eq_of_lt (Nat.lt_of_lt_of_le hv h3)]

theorem amoNew_lt (op n v x : Nat) (hop : op ≤ 7) (hv : v < 2 ^ (8 * n)) (hx : x < 2 ^ (8 * n)) : amoNew op n v x < 2 ^ (8 * n) := by
  have h0 : 0 < 2 ^ (8 * n) := Nat.two_pow_pos _
  unfold amoNew
  simp only
  split
  · exact Nat.mod_lt _ h0
  · exact Nat.lt_of_le_of_lt Nat.and_le_left hv
  · exact Nat.or_lt_two_pow hv hx
  · exact Nat.xor_lt_two_pow hv hx
  · split <;> assumption
  · split <;> assumption
  · exact Nat.lt_of_le_of_lt (Nat.min_le_left _ _) hv
  · exact Nat.max_lt.2 ⟨hv, hx⟩
  · exact hx
  · omega
  · exact hx
theorem amo_done {s : State} {i : Instr} {op : Nat} {d a b : BitVec 5} {z : BitVec 1} {o c : BitVec 2} {new : Nat}
    (hop : op ≤ 7) (hi : exec i s = s.atomic op d a (s.g b) .zero (z.setWidth 2) o c)
    (hp : Passes s a (s.x a) (4 * 2 ^ z.toNat) [.r, .w] (accessOf s (s.x a) (4 * 2 ^ z.toNat) true true true))
    (ha : (s.x a).toNat % (4 * 2 ^ z.toNat) = 0)
    (hnew : amoNew op (4 * 2 ^ z.toNat) (bytesAt s (s.localAddr (s.x a).toNat) (4 * 2 ^ z.toNat)) ((s.x b).toNat % 2 ^ (8 * (4 * 2 ^ z.toNat))) = new) :
    AtomicDone i s (accessOf s (s.x a) (4 * 2 ^ z.toNat) true true true) o c
      (gSet s d (int (if op = 6 ∨ op = 7 ∨ op = 10 then (bytesAt s (s.localAddr (s.x a).toNat) (4 * 2 ^ z.toNat) : Int)
        else signedAt (8 * (4 * 2 ^ z.toNat)) (bytesAt s (s.localAddr (s.x a).toNat) (4 * 2 ^ z.toNat))))) (some (new, false)) := by
  have ew := atomBytes_w z
  have hz := z_ne z
  rw [← ew] at hp ha hnew ⊢
  have hn8 : atomBytes (z.setWidth 2) ≤ 8 := by rw [ew]; have := z.isLt; rcases (show z.toNat = 0 ∨ z.toNat = 1 by omega) with e | e <;> rw [e] <;> simp
  have hlt : bytesAt s (s.localAddr (s.x a).toNat) (atomBytes (z.setWidth 2)) < 2 ^ (8 * atomBytes (z.setWidth 2)) := by
    have := bytesAt_lt s (s.localAddr (s.x a).toNat) (atomBytes (z.setWidth 2))
    have h2 : 256 ^ (atomBytes (z.setWidth 2)) = 2 ^ (8 * atomBytes (z.setWidth 2)) := by rw [show 256 = 2 ^ 8 by rfl, ← Nat.pow_mul]
    omega
  refine rmw_done (N := some new) hz.1 hz.2 (hi.trans (atomic_home (.inl (by omega)))) (by omega) hp.1 ha hp.2 ?_
  have e : atomNew op (atomBytes (z.setWidth 2)) { bits := BitVec.ofNat 128 (bytesAt s (s.localAddr (s.x a).toNat) (atomBytes (z.setWidth 2))), tag := false } (s.g b) .zero
      = some { bits := BitVec.ofNat 128 new, tag := false } := by
    unfold atomNew
    rw [if_neg (by omega), if_neg (by omega), if_neg (by omega), bytesAt_bits _ _ _ (by omega), low_bits _ _ _ hn8, hnew]
  rw [e]
  refine ⟨new, rfl, ?_⟩
  intro k hk
  simp only
  rw [bytes128 new (atomBytes (z.setWidth 2)) k (by rw [← hnew]; exact amoNew_lt _ _ _ _ hop hlt (Nat.mod_lt _ (Nat.two_pow_pos _))) hn8]

/-! ### Barriers -/

theorem barrier_put (s : State) (b : Barrier) : (s.putBarrier b).barrier b.launch b.bench b.k = b := by
  unfold State.barrier State.putBarrier
  have h1 : ∀ l : List Barrier, (l.filter (fun c => !(c.launch == b.launch && c.bench == b.bench && c.k == b.k))).find? (fun c => c.launch == b.launch && c.bench == b.bench && c.k == b.k) = none := by
    intro l
    rw [List.find?_eq_none]
    intro c hc
    have := (List.mem_filter.1 hc).2
    simp only [Bool.not_eq_true'] at this
    simp only [this, Bool.false_eq_true, not_false_eq_true]
  simp only [List.find?_append, h1]
  simp
theorem barrier_key (s : State) (id bench k : Nat) : (s.barrier id bench k).launch = id ∧ (s.barrier id bench k).bench = bench ∧ (s.barrier id bench k).k = k := by
  unfold State.barrier
  cases h : s.barriers.find? (fun b => b.launch == id && b.bench == bench && b.k == k) with
  | none => exact ⟨rfl, rfl, rfl⟩
  | some b => have := List.find?_some h; simp only [Bool.and_eq_true, beq_iff_eq] at this; exact ⟨this.1.1, this.1.2, this.2⟩
def settleOne (l : Launch) (b : Barrier) : Barrier :=
  if b.launch = l.id && !b.arrived.isEmpty && (l.participants b.bench).all (fun t => b.arrived.contains t) then
        { b with gen := b.gen + 1, arrived := [] }
      else b
theorem barrier_settle (s : State) (l : Launch) (id bench k : Nat) : (s.settleBarriers l).barrier id bench k = 
    match s.barriers.find? (fun b => b.launch == id && b.bench == bench && b.k == k) with
    | some b => settleOne l b
    | none => { launch := id, bench := bench, k := k, gen := 0, arrived := [] } := by
  unfold State.barrier State.settleBarriers
  simp only [List.find?_map]
  have e : ((fun b => b.launch == id && b.bench == bench && b.k == k) ∘ (fun b : Barrier => if b.launch = l.id && !b.arrived.isEmpty && (l.participants b.bench).all (fun t => b.arrived.contains t) then
        { b with gen := b.gen + 1, arrived := [] }
      else b)) = (fun b : Barrier => b.launch == id && b.bench == bench && b.k == k) := by
    funext b
    simp only [Function.comp]
    split <;> rfl
  rw [e]
  cases s.barriers.find? (fun b => b.launch == id && b.bench == bench && b.k == k) <;> rfl
theorem find_put (s : State) (b : Barrier) : (s.putBarrier b).barriers.find? (fun c => c.launch == b.launch && c.bench == b.bench && c.k == b.k) = some b := by
  unfold State.putBarrier
  have h1 : ∀ l : List Barrier, (l.filter (fun c => !(c.launch == b.launch && c.bench == b.bench && c.k == b.k))).find? (fun c => c.launch == b.launch && c.bench == b.bench && c.k == b.k) = none := by
    intro l
    rw [List.find?_eq_none]
    intro c hc
    have := (List.mem_filter.1 hc).2
    simp only [Bool.not_eq_true'] at this
    simp only [this, Bool.false_eq_true, not_false_eq_true]
  simp only [List.find?_append, h1]
  simp

/-- An arrival, before its span ends. -/
def arrived0 (s : State) (id lcn stage : Nat) (k : BitVec 2) (v : Option (U64 × Bool)) : State :=
  let s1 : State := { s with
    barriers := (s.putBarrier { s.barrier id s.self.homeBench k.toNat with
      arrived := (s.barrier id s.self.homeBench k.toNat).arrived ++ [(lcn, stage)] }).barriers
    self := s.self.setArrival k (some ((barOf s id k).gen, v)) }
  match s.launch id with
  | some l => s1.settleBarriers l
  | none => s1
theorem arrive_eq (s : State) (id lcn stage : Nat) (k : BitVec 2) (w : Bool) :
    s.arrive id lcn stage k w = (arrived0 s id lcn stage k (if w = true then some (s.pc, s.self.class1) else none)).sync 0 := by
  unfold State.arrive arrived0
  cases w <;> rfl
theorem arrived0_spec (s : State) (id lcn stage : Nat) (k : BitVec 2) (w : Option (U64 × Bool)) :
    ∃ bs, arrived0 s id lcn stage k w = { s with barriers := bs, self := s.self.setArrival k (some ((barOf s id k).gen, w)) }
      ∧ Counted s (arrived0 s id lcn stage k w) id lcn stage k (LastToArrive s id lcn stage k) := by
  have hk := barrier_key s id s.self.homeBench k.toNat
  have hhome : ∀ v, (s.self.setArrival k v).homeBench = s.self.homeBench := fun _ => rfl
  obtain ⟨B, hB1, hB2, hB3, hB4, hB5, hp⟩ : ∃ B : Barrier, B.launch = id ∧ B.bench = s.self.homeBench ∧ B.k = k.toNat ∧ B.gen = (barOf s id k).gen
      ∧ B.arrived = (barOf s id k).arrived ++ [(lcn, stage)]
      ∧ arrived0 s id lcn stage k w = match s.launch id with
        | some l => ({ s with barriers := (s.putBarrier B).barriers, self := s.self.setArrival k (some ((barOf s id k).gen, w)) } : State).settleBarriers l
        | none => { s with barriers := (s.putBarrier B).barriers, self := s.self.setArrival k (some ((barOf s id k).gen, w)) } :=
    ⟨{ s.barrier id s.self.homeBench k.toNat with arrived := (s.barrier id s.self.homeBench k.toNat).arrived ++ [(lcn, stage)] },
      hk.1, hk.2.1, hk.2.2, rfl, rfl, rfl⟩
  have hf := find_put s B
  rw [hB1, hB2, hB3] at hf
  rw [hp]
  generalize (s.putBarrier B).barriers = bs at *
  cases hls : s.launch id with
  | none =>
    refine ⟨bs, rfl, ?_⟩
    have e : barOf ({ s with barriers := bs, self := s.self.setArrival k (some ((barOf s id k).gen, w)) } : State) id k = B := by
      show (bs.find? (fun b => b.launch == id && b.bench == s.self.homeBench && b.k == k.toNat)).getD _ = _
      rw [hf]
      rfl
    refine ⟨?_, fun _ => ?_⟩
    · rintro ⟨l, h, _⟩; rw [hls] at h; cases h
    · simp only
      rw [e]; exact ⟨hB4, hB5⟩
  | some l =>
    have hid : l.id = id := findBy_key (key := Launch.id) hls
    refine ⟨_, rfl, ?_⟩
    have e : barOf (({ s with barriers := bs, self := s.self.setArrival k (some ((barOf s id k).gen, w)) } : State).settleBarriers l) id k
      = settleOne l B := by
      show State.barrier _ id s.self.homeBench k.toNat = _
      rw [barrier_settle]
      show (match bs.find? (fun b => b.launch == id && b.bench == s.self.homeBench && b.k == k.toNat) with | some b => settleOne l b | none => _) = _
      rw [hf]
    have hcond : LastToArrive s id lcn stage k ↔ (l.participants s.self.homeBench).all (fun t => ((barOf s id k).arrived ++ [(lcn, stage)]).contains t) = true := by
      rw [List.all_eq_true]
      constructor
      · rintro ⟨l', h1, h2⟩ p hpp
        rw [hls] at h1
        cases h1
        have := h2 p hpp
        simpa using this
      · intro h
        refine ⟨l, hls, ?_⟩
        intro p hpp
        have := h p hpp
        simpa using this
    refine ⟨fun h => ?_, fun h => ?_⟩
    · simp only
      rw [e]
      unfold settleOne
      rw [hB1, hB2, hid, hB5, hB4, if_pos (by simp only [decide_true, Bool.true_and, hcond.1 h, Bool.and_true]; simp)]
      exact ⟨rfl, rfl⟩
    · simp only
      rw [e]
      unfold settleOne
      rw [hB1, hB2, hid, hB5, hB4, if_neg (by rw [hcond] at h; simp only [Bool.not_eq_true] at h; rw [h]; simp)]
      exact ⟨hB4, hB5⟩
theorem barOf_eq {s t : State} (h : t.barriers = s.barriers) (hc : t.self.homeBench = s.self.homeBench) (id : Nat) (k : BitVec 2) :
    barOf t id k = barOf s id k := by
  unfold barOf State.barrier
  rw [h, hc]
theorem counted_of {s t u : State} {id lcn stage : Nat} {k : BitVec 2} {p : Prop} (h : t.barriers = u.barriers) (hc : t.self.homeBench = u.self.homeBench)
    (hu : Counted s u id lcn stage k p) : Counted s t id lcn stage k p := by
  unfold Counted at *
  rw [barOf_eq h hc]; exact hu
theorem setArrival_get (x : Slot) (k : BitVec 2) (v : Option (Nat × Option (U64 × Bool))) (j : Fin 4) :
    (x.setArrival k v).arrivals[j] = if j.val = k.toNat then v else x.arrivals[j] := by
  unfold Slot.setArrival
  simp only [Fin.getElem_fin]
  rw [Vector.getElem_set]
  by_cases h : k.toNat = j.val
  · rw [if_pos h, if_pos h.symm]
  · rw [if_neg h, if_neg (fun e => h e.symm)]
theorem cut0 (x : Slot) (j : Fin 4) : (x.closeSpan 0).marks[j] = if j.val = 0 then x.span else x.marks[j] := by
  unfold Slot.closeSpan
  simp
/-- What an arrival does: the barrier counts it, and the slot's span ends at bench scope. -/
theorem arrive_spec (s : State) (id lcn stage : Nat) (k : BitVec 2) (w : Bool) :
    ∃ bs, s.arrive id lcn stage k w
        = { s with barriers := bs, self := (s.self.setArrival k (some ((barOf s id k).gen, if w = true then some (s.pc, s.self.class1) else none))).closeSpan 0 }
      ∧ Counted s (s.arrive id lcn stage k w) id lcn stage k (LastToArrive s id lcn stage k) := by
  obtain ⟨bs, e, c⟩ := arrived0_spec s id lcn stage k (if w = true then some (s.pc, s.self.class1) else none)
  refine ⟨bs, ?_, ?_⟩
  · rw [arrive_eq, e]; rfl
  · rw [arrive_eq]; exact counted_of rfl rfl c

theorem mem_of_self (s : State) (bs : List Barrier) (x : Slot) (a : Nat) : ({ s with barriers := bs, self := x } : State).byteAt a = s.byteAt a :=
  (SamePlaces.byteAt (s := s) ⟨fun _ => rfl, fun _ => rfl, rfl, rfl, rfl⟩ a)

theorem launchTask_of {s : State} {id lcn stage : Nat} (h : s.self.role = .launch id lcn stage) : s.self.launchTask = some (id, lcn, stage) := by
  unfold Slot.launchTask; rw [h]

theorem barBefore_none {s : State} {id : Nat} {k : BitVec 2} (h : MayArrive s id k) : s.barBefore id k = none := by
  unfold State.barBefore
  rcases h with h | ⟨g, v, h, hg⟩
  · rw [show (s.self.arrivals[k.toNat]'k.isLt) = none from h]
  · rw [show (s.self.arrivals[k.toNat]'k.isLt) = some (g, v) from h]; simp only; exact if_pos hg
theorem barBefore_some {s : State} {id g : Nat} {k : BitVec 2} {w : Option (U64 × Bool)} (h : arrivalAt s k = some (g, w)) (hg : (barOf s id k).gen ≤ g) :
    s.barBefore id k = some g := by
  unfold State.barBefore
  rw [show (s.self.arrivals[k.toNat]'k.isLt) = some (g, w) from h]
  exact if_neg (Nat.not_lt.2 hg)
theorem barReplay_false {s : State} {k : BitVec 2} (h : ∀ g, ¬HasArrived s k g) : s.barReplay k = false := by
  unfold State.barReplay
  split
  · rename_i g w e
    have := h g
    unfold HasArrived at this
    rw [show arrivalAt s k = some (g, some w) from e] at this
    unfold State.barSite
    simp only [beq_eq_false_iff_ne]
    intro e2
    exact this (by rw [e2])
  · rfl
theorem barReplay_true {s : State} {k : BitVec 2} {g : Nat} (h : HasArrived s k g) : s.barReplay k = true := by
  unfold State.barReplay
  rw [show (s.self.arrivals[k.toNat]'k.isLt) = some (g, some (s.pc, s.self.class1)) from h]
  exact beq_self_eq_true _

/-! ### Lanes -/

theorem setV_shape (s : State) (d : BitVec 5) (x : Vec) : s.setV d x = { s with self := { s.self with v := s.self.v.set d.toNat x d.isLt } } := rfl
theorem vSet_setV (s : State) (d n : BitVec 5) (x : Vec) : (s.setV d x).v n = vSet s d x n := by
  rw [State.v_setV, vSet]
theorem putsV_of {i : Instr} {s : State} {d : BitVec 5} {x : Vec} {fl : U64} {f : FFlags} (hf : fl = f.bits)
    (h : exec i s = .next (((s.addFlags f).setV d x).retire)) : PutsV i s d x fl := by
  subst hf
  refine ⟨_, h, ⟨fun n => rfl, fun n => ?_, fun n => rfl, rfl, slotFrame_flags rfl rfl, rfl, fun a => ?_⟩, rfl, rfl, rfl, rfl, rfl⟩
  · exact vSet_setV (s.addFlags f) d n x
  · exact byteAt_self s _ a
theorem putsV0_of {i : Instr} {s : State} {d : BitVec 5} {x : Vec} (h : exec i s = .next ((s.setV d x).retire)) : PutsV i s d x 0 := by
  refine ⟨_, h, ⟨fun n => rfl, fun n => vSet_setV s d n x, fun n => rfl, ?_, slotFrame_of rfl rfl, rfl, fun a => ?_⟩, rfl, rfl, rfl, rfl, rfl⟩
  · show s.self.flags = s.self.flags ||| 0; simp
  · exact byteAt_self s _ a
theorem setP_shape (s : State) (d : BitVec 3) (x : Pred) : ∃ p', s.setP d x = { s with self := { s.self with p := p' } } := by
  unfold State.setP Slot.setP
  split
  · exact ⟨s.self.p, rfl⟩
  · exact ⟨_, rfl⟩
theorem pSet_setP (s : State) (d n : BitVec 3) (x : Pred) : (s.setP d x).p n = pSet s d x n := by
  rw [State.p_setP, pSet]
  by_cases h2 : n = d
  · subst h2; rfl
  · rw [if_neg (fun h => h2 h.1), if_neg (fun h => h2 h.1)]
theorem putsP0_of {i : Instr} {s : State} {d : BitVec 3} {x : Pred} (h : exec i s = .next ((s.setP d x).retire)) : PutsP i s d x 0 := by
  have hg := pSet_setP s d (x := x)
  obtain ⟨p', e⟩ := setP_shape s d x
  rw [e] at h hg
  refine ⟨_, h, ⟨fun n => rfl, fun n => rfl, fun n => hg n, ?_, slotFrame_of rfl rfl, rfl, fun a => ?_⟩, rfl, rfl, rfl, rfl, rfl⟩
  · show s.self.flags = s.self.flags ||| 0; simp
  · exact byteAt_self s _ a
theorem putsP_of {i : Instr} {s : State} {d : BitVec 3} {x : Pred} {fl : U64} {f : FFlags} (hf : fl = f.bits)
    (h : exec i s = .next (((s.addFlags f).setP d x).retire)) : PutsP i s d x fl := by
  subst hf
  have hg := pSet_setP (s.addFlags f) d (x := x)
  obtain ⟨p', e⟩ := setP_shape (s.addFlags f) d x
  rw [e] at h hg
  refine ⟨_, h, ⟨fun n => rfl, fun n => rfl, fun n => hg n, rfl, slotFrame_flags rfl rfl, rfl, fun a => byteAt_self s _ a⟩, rfl, rfl, rfl, rfl, rfl⟩

theorem packLanes_lt (w : Nat) (l : List Nat) (h : ∀ x ∈ l, x < 2 ^ w) : packLanes w l < 2 ^ (w * l.length) := by
  induction l with
  | nil => simp [packLanes]
  | cons x l ih =>
    have h1 := ih (fun y hy => h y (by simp [hy]))
    have h2 := h x (by simp)
    rw [packLanes, List.length_cons, Nat.mul_succ, Nat.add_comm (w * l.length) w, Nat.pow_add]
    calc x + 2 ^ w * packLanes w l < 2 ^ w + 2 ^ w * packLanes w l := by omega
      _ = 2 ^ w * (packLanes w l + 1) := by rw [Nat.mul_succ, Nat.add_comm]
      _ ≤ 2 ^ w * 2 ^ (w * l.length) := Nat.mul_le_mul_left _ h1
theorem packLanes_get (w : Nat) (l : List Nat) (h : ∀ x ∈ l, x < 2 ^ w) (j : Nat) :
    packLanes w l / 2 ^ (w * j) % 2 ^ w = l.getD j 0 := by
  induction l generalizing j with
  | nil => simp [packLanes]
  | cons x l ih =>
    have h2 := h x (by simp)
    have hw := Nat.two_pow_pos w
    cases j with
    | zero => rw [packLanes, Nat.mul_zero, Nat.pow_zero, Nat.div_one, Nat.add_mul_mod_self_left, Nat.mod_eq_of_lt h2]; rfl
    | succ j =>
      rw [packLanes, Nat.mul_succ, Nat.add_comm (w * j) w, Nat.pow_add, ← Nat.div_div_eq_div_mul, Nat.add_mul_div_left _ _ hw,
        Nat.div_eq_of_lt h2, Nat.zero_add, ih (fun y hy => h y (by simp [hy]))]
      rfl
theorem lane_el (w : Nat) (x : Vec) (i : Nat) : lane w x i = el w x i := by
  unfold lane el
  rw [BitVec.extractLsb'_toNat, Nat.shiftRight_eq_div_pow]
set_option exponentiation.threshold 2048 in
theorem ofNat_pack (w : Nat) (l : List Nat) (h : ∀ x ∈ l, x < 2 ^ w) (hl : w * l.length ≤ 1024) : (BitVec.ofNat 1024 (packLanes w l)).toNat = packLanes w l := by
  rw [BitVec.toNat_ofNat, Nat.mod_eq_of_lt]
  exact Nat.lt_of_lt_of_le (packLanes_lt w l h) (Nat.pow_le_pow_right (by decide) hl)
theorem el_pack (w : Nat) (l : List Nat) (h : ∀ x ∈ l, x < 2 ^ w) (hl : w * l.length ≤ 1024) (j : Nat) :
    el w (BitVec.ofNat 1024 (packLanes w l)) j = l.getD j 0 := by
  unfold el
  rw [ofNat_pack w l h hl, packLanes_get w l h]
theorem el_ofLanes (w n : Nat) (f : Nat → Nat) (h : w * n ≤ 1024) (j : Nat) (hj : j < n) : el w (ofLanes w n f) j = f j % 2 ^ w := by
  unfold ofLanes
  rw [el_pack w _ (by intro x hx; obtain ⟨i, _, rfl⟩ := List.mem_map.1 hx; exact Nat.mod_lt _ (Nat.two_pow_pos _)) (by simpa using h)]
  rw [List.getD_eq_getElem _ _ (by simpa using hj)]
  simp
theorem el_lt (w : Nat) (x : Vec) (i : Nat) : el w x i < 2 ^ w := Nat.mod_lt _ (Nat.two_pow_pos _)

theorem elements_of {i : Instr} {s : State} {d : BitVec 5} {w : Nat} {p : Pred} {old : Vec} {f : Nat → Nat} {g : Nat → Int}
    (h : exec i s = .next ((s.setV d (mergeLanes w (1024 / w) p old f)).retire))
    (hfg : ∀ j, j < 1024 / w → (f j : Int) % 2 ^ w = g j % 2 ^ w) : Elements i s d w p old g := by
  refine ⟨_, putsV0_of h, fun j hj => ?_⟩
  unfold mergeLanes
  rw [el_ofLanes _ _ _ (Nat.mul_div_le 1024 w) j hj]
  by_cases hp : p.getLsbD j = true
  · rw [if_pos hp, if_pos hp, ← hfg j hj]
    rw [show ((f j : Int) % 2 ^ w) = ((f j % 2 ^ w : Nat) : Int) by push_cast; rfl, Int.toNat_natCast]
  · rw [if_neg hp, if_neg hp, lane_el, Nat.mod_eq_of_lt (el_lt _ _ _)]
theorem etWidth_eq (e : BitVec 3) : etWidth e = wide e := rfl
theorem typed_eq (e : BitVec 3) (w v : Nat) : laneInt (etSigned e) w v = typed e w v := by
  unfold laneInt typed etSigned Machine.signedOf
  by_cases h : e.toNat < 4
  · simp only [h, decide_true, if_true, true_and]
    by_cases h2 : v < 2 ^ (w - 1)
    · rw [if_pos h2, if_neg (by omega)]
    · rw [if_neg h2, if_pos (by omega)]
  · simp [h]
theorem clamped_eq (e : BitVec 3) (w : Nat) (v : Int) : clampTo (etSigned e) w v = clamped e w v := by
  unfold clampTo clamped etSigned
  by_cases h : e.toNat < 4 <;> simp [h]
theorem laneBits_mod (w : Nat) (v : Int) : (laneBits w v : Int) % 2 ^ w = v % 2 ^ w := by
  unfold laneBits
  rw [BitVec.toNat_ofInt]
  push_cast
  rw [Int.toNat_of_nonneg (Int.emod_nonneg _ (by positivity)), Int.emod_emod_of_dvd _ (dvd_refl _)]
theorem typed_mod (e : BitVec 3) (w v : Nat) : typed e w v % 2 ^ w = (v : Int) % 2 ^ w := by
  unfold typed
  split
  · rw [Int.sub_emod_right]
  · rfl
theorem wide_pos (e : BitVec 3) : 0 < wide e := by unfold wide; positivity
theorem signedAt_lane (w v : Nat) (h : v < 2 ^ w) : Machine.signedOf w v = signedAt w v := by
  unfold Machine.signedOf signedAt
  rw [Nat.mod_eq_of_lt h]
  by_cases h2 : v < 2 ^ (w - 1)
  · rw [if_pos h2, if_neg (by omega)]
  · rw [if_neg h2, if_pos (by omega)]
theorem all_bits (j : Nat) (h : j < 128) : (BitVec.allOnes 128).getLsbD j = true := by rw [BitVec.getLsbD_allOnes]; simpa using h
theorem elementsAll_of {i : Instr} {s : State} {d : BitVec 5} {w : Nat} {f : Nat → Nat} {g : Nat → Int} (h8 : 8 ≤ w)
    (h : exec i s = .next ((s.setV d (ofLanes w (1024 / w) f)).retire))
    (hfg : ∀ j, j < 1024 / w → (f j : Int) % 2 ^ w = g j % 2 ^ w) : Elements i s d w (BitVec.allOnes 128) 0 g := by
  refine ⟨_, putsV0_of h, fun j hj => ?_⟩
  rw [el_ofLanes _ _ _ (Nat.mul_div_le 1024 w) j hj]
  have hj2 : j < 128 := by
    have : 1024 / w ≤ 1024 / 8 := Nat.div_le_div_left h8 (by decide)
    omega
  rw [if_pos (all_bits j hj2), ← hfg j hj]
  rw [show ((f j : Int) % 2 ^ w) = ((f j % 2 ^ w : Nat) : Int) by push_cast; rfl, Int.toNat_natCast]
theorem activeLanes_eq (w n : Nat) (p : Pred) (x : Vec) : activeLanes w n p x = (active n p).map (fun i => el w x i) := by
  unfold activeLanes active
  apply List.map_congr_left
  intro i _
  exact lane_el _ _ _
theorem foldl_mod {w : Nat} (F : Nat → Nat → Nat) (G : Int → Int → Int) (T : Nat → Int)
    (l : List Nat) (hl : ∀ y ∈ l, y < 2 ^ w) (hF : ∀ x y, x < 2 ^ w → y < 2 ^ w → F x y < 2 ^ w ∧ T (F x y) = G (T x) (T y)) :
    ∀ z, z < 2 ^ w → l.foldl F z < 2 ^ w ∧ T (l.foldl F z) = (l.map T).foldl G (T z) := by
  induction l with
  | nil => intro z hz; exact ⟨hz, rfl⟩
  | cons y l ih =>
    intro z hz
    have h1 := hF z y hz (hl y (by simp))
    have := ih (fun v hv => hl v (by simp [hv])) (F z y) h1.1
    rw [List.foldl_cons, List.map_cons, List.foldl_cons, ← h1.2]
    exact this
theorem foldl_sum (l : List Nat) (z : Nat) : l.foldl (fun x y => x + y) z = z + l.sum := by
  induction l generalizing z with
  | nil => simp
  | cons y l ih => rw [List.foldl_cons, ih, List.sum_cons]; omega
theorem wide_ge (e : BitVec 3) : 8 ≤ wide e := by
  unfold wide
  have := Nat.two_pow_pos (e.toNat % 4)
  omega
theorem active_length (n : Nat) (p : Pred) : (active n p).length ≤ n := by
  unfold active
  exact Nat.le_trans (List.length_filter_le _ _) (by simp)
theorem compareBits_get (n : Nat) (p old : Pred) (f : Nat → Bool) (j : Nat) (hj : j < 128) (hn : n ≤ 128) :
    (compareBits n p old f).getLsbD j = true ↔ j < n ∧ ((p.getLsbD j = true ∧ f j = true) ∨ (p.getLsbD j = false ∧ old.getLsbD j = true)) := by
  unfold compareBits
  have hl : ∀ y ∈ (List.range n).map (fun i => if (if p.getLsbD i then f i else old.getLsbD i) then 1 else 0), y < 2 ^ 1 := by
    intro y hy
    obtain ⟨i, _, rfl⟩ := List.mem_map.1 hy
    by_cases hc : (if p.getLsbD i then f i else old.getLsbD i) = true
    · rw [if_pos hc]; decide
    · rw [if_neg hc]; decide
  have h1 := packLanes_get 1 _ hl j
  have h2 := packLanes_lt 1 _ hl
  have h3 : packLanes 1 ((List.range n).map (fun i => if (if p.getLsbD i then f i else old.getLsbD i) then 1 else 0)) < 2 ^ 128 := by
    refine Nat.lt_of_lt_of_le h2 (Nat.pow_le_pow_right (by decide) ?_)
    simpa using hn
  rw [BitVec.getLsbD_ofNat]
  simp only [hj, decide_true, Bool.true_and]
  rw [Nat.testBit_eq_decide_div_mod_eq, decide_eq_true_eq]
  rw [Nat.one_mul, show 2 ^ 1 = 2 by rfl] at h1
  rw [h1]
  by_cases hjn : j < n
  · rw [List.getD_eq_getElem _ _ (by simpa using hjn), List.getElem_map, List.getElem_range]
    cases p.getLsbD j <;> simp [hjn]
  · rw [List.getD_eq_default _ _ (by simpa using hjn)]
    simp [hjn]
theorem compares_of {i : Instr} {s : State} {d : BitVec 3} {n : Nat} {p : Pred} {f : Nat → Bool} {g : Nat → Prop} {x : Pred} {fl : U64}
    (h : PutsP i s d x fl) (hx : x = compareBits n p (s.p d) f) (hn : n ≤ 128) (hfg : ∀ j, f j = true ↔ g j) : Compares i s d n p g fl := by
  refine ⟨x, h, fun j hj => ?_⟩
  rw [hx, compareBits_get _ _ _ _ _ hj hn]
  simp only [hfg]
theorem ones_get (k j : Nat) : (2 ^ k - 1).testBit j = decide (j < k) := Nat.testBit_two_pow_sub_one k j

/-! ### Floating point -/

theorem none_bits : FFlags.none.bits = 0 := rfl
theorem or_bits (a b : FFlags) : (a.or b).bits = a.bits ||| b.bits := by
  obtain ⟨a1, a2, a3, a4, a5⟩ := a
  obtain ⟨b1, b2, b3, b4, b5⟩ := b
  cases a1 <;> cases a2 <;> cases a3 <;> cases a4 <;> cases a5 <;> cases b1 <;> cases b2 <;> cases b3 <;> cases b4 <;> cases b5 <;> rfl
theorem laneFlags_bits (p : Pred) (f : Nat → Nat × FFlags) (l : List Nat) (z : FFlags) :
    (l.foldl (fun fl i => if p.getLsbD i then fl.or (f i).2 else fl) z).bits
      = (l.filter (fun i => p.getLsbD i)).foldl (fun fl i => fl ||| (f i).2.bits) z.bits := by
  induction l generalizing z with
  | nil => rfl
  | cons x l ih =>
    by_cases h : p.getLsbD x = true
    · rw [List.foldl_cons, List.filter_cons_of_pos (by exact h), List.foldl_cons, ih, if_pos h, or_bits]
    · rw [List.foldl_cons, List.filter_cons_of_neg (by exact h), ih, if_neg h]
theorem raised_eq (n : Nat) (p : Pred) (f : Nat → Nat × FFlags) : raised n p f = (laneFlags n p f).bits := by
  unfold raised active laneFlags
  rw [laneFlags_bits, none_bits]
theorem floats_of {i : Instr} {s : State} {d : BitVec 5} {w : Nat} {p : BitVec 3} {f g : Nat → Nat × FFlags}
    (h : exec i s = s.fpLanes d p w f) (hfg : ∀ j, f j = g j) : Floats i s d w (s.p p) g := by
  have e : f = g := funext hfg
  subst e
  refine ⟨_, putsV_of (raised_eq _ _ _) h, fun j hj => ?_⟩
  unfold mergeLanes
  rw [el_ofLanes _ _ _ (Nat.mul_div_le 1024 w) j hj]
  by_cases hp : (s.p p).getLsbD j = true
  · rw [if_pos hp, if_pos hp]
  · rw [if_neg hp, if_neg hp, lane_el, Nat.mod_eq_of_lt (el_lt _ _ _)]
theorem mode_eq (s : State) : s.mode = roundMode s := by
  unfold State.mode RMode.ofCode roundMode
  have h : s.self.round.toNat % 4 < 4 := Nat.mod_lt _ (by decide)
  generalize s.self.round.toNat % 4 = k at h ⊢
  match k, h with
  | 0, _ => rfl
  | 1, _ => rfl
  | 2, _ => rfl
  | 3, _ => rfl
theorem flo_eq (f : Fmt) (x : Vec) (i : Nat) : fpLane f x i = flo f x i := by unfold fpLane flo; rw [lane_el]
theorem fmtOf_width (e : BitVec 2) : 16 ≤ (fmtOf e).width ∧ 0 < (fmtOf e).width := by
  unfold fmtOf; split
  · decide
  · split <;> decide
theorem sign_flip (n x : Nat) (h : x < 2 ^ (n + 1)) : (x + 2 ^ n) % 2 ^ (n + 1) = x ^^^ 2 ^ n := by
  apply Nat.eq_of_testBit_eq
  intro k
  have hp := Nat.two_pow_pos n
  rw [Nat.testBit_xor, Nat.testBit_two_pow, Nat.pow_succ] 
  rw [Nat.pow_succ] at h
  by_cases hx : x < 2 ^ n
  · rw [Nat.mod_eq_of_lt (by omega), Nat.add_comm]
    by_cases hk : k = n
    · subst hk
      rw [Nat.testBit_two_pow_add_eq]; simp
    · rcases Nat.lt_or_gt_of_ne hk with h1 | h1
      · rw [Nat.testBit_two_pow_add_gt h1]; simp [Ne.symm hk]
      · rw [Nat.testBit_lt_two_pow (x := 2 ^ n + x), Nat.testBit_lt_two_pow (x := x)]
        · simp [Ne.symm hk]
        · exact lt_of_lt_of_le hx (Nat.pow_le_pow_right (by decide) (le_of_lt h1))
        · have := Nat.pow_le_pow_right (n := 2) (by decide) (Nat.succ_le_of_lt h1)
          rw [Nat.pow_succ] at this; omega
  · obtain ⟨y, rfl⟩ : ∃ y, x = 2 ^ n + y := ⟨x - 2 ^ n, by omega⟩
    have hy : y < 2 ^ n := by omega
    rw [show 2 ^ n + y + 2 ^ n = y + 2 ^ n * 2 by omega, Nat.add_mod_right, Nat.mod_eq_of_lt (by omega)]
    by_cases hk : k = n
    · subst hk
      rw [Nat.testBit_two_pow_add_eq]; simp
    · rcases Nat.lt_or_gt_of_ne hk with h1 | h1
      · rw [Nat.testBit_two_pow_add_gt h1]; simp [Ne.symm hk]
      · rw [Nat.testBit_lt_two_pow (x := 2 ^ n + y), Nat.testBit_lt_two_pow (x := y)]
        · simp [Ne.symm hk]
        · exact lt_of_lt_of_le hy (Nat.pow_le_pow_right (by decide) (le_of_lt h1))
        · have := Nat.pow_le_pow_right (n := 2) (by decide) (Nat.succ_le_of_lt h1)
          rw [Nat.pow_succ] at this; omega
theorem finInt_val (a : Bool) (m : Nat) (e q : Int) (h : q ≤ e) : ((finInt a m e q : Int) : ℚ) * (2 : ℚ) ^ q = valQ (.fin a m e) := by
  have h2 : (2 : ℚ) ^ e = 2 ^ (e - q).toNat * (2 : ℚ) ^ q := by
    rw [← zpow_natCast, Int.toNat_of_nonneg (by omega), ← zpow_add₀ (by norm_num)]; congr 1; omega
  unfold finInt valQ
  cases a <;> simp only [Bool.false_eq_true, if_false, if_true] <;> push_cast <;> rw [h2] <;> ring
theorem cmpVal_cases (x y : FVal) (hx : x.isNan = false) (hy : y.isNan = false) :
    (below x y ↔ cmpVal x y < 0) ∧ (alike x y ↔ cmpVal x y = 0) ∧ (below y x ↔ 0 < cmpVal x y) := by
  cases x with
  | nan q => cases hx
  | inf a =>
    cases y with
    | nan q => cases hy
    | inf b => cases a <;> cases b <;> simp [below, alike, cmpVal]
    | fin b n k => cases a <;> simp [below, alike, cmpVal]
  | fin a m e =>
    cases y with
    | nan q => cases hy
    | inf b => cases b <;> simp [below, alike, cmpVal]
    | fin b n k =>
      have h1 := finInt_val a m e (min e k) (min_le_left _ _)
      have h2 := finInt_val b n k (min e k) (min_le_right _ _)
      have hp : (0 : ℚ) < 2 ^ (min e k) := by positivity
      simp only [below, alike, cmpVal, ← h1, ← h2]
      generalize finInt a m e (min e k) = u
      generalize finInt b n k (min e k) = v
      refine ⟨?_, ?_, ?_⟩
      · rw [mul_lt_mul_iff_left₀ hp, Int.cast_lt]; omega
      · rw [mul_left_inj' hp.ne', Int.cast_inj]; omega
      · rw [mul_lt_mul_iff_left₀ hp, Int.cast_lt]; omega
theorem nvIf_eq (b : Bool) : (nvIf b).2 = invalid b := rfl

end Sys2Proof
end

