-- ==== Sys2Proof/Laws/Lanes.lean ====
section
/-! SUPPORT. Laws of accesses in lanes: what a plain read may see, several accesses in order, vector loads and stores, tile rows. -/
set_option Elab.async false
namespace Sys2Proof

open Machine Claims

/-! ### What a plain read sees (R110, R129) -/

theorem ofBytesLE_lt (l : List U8) : ofBytesLE l < 256 ^ l.length := by
  induction l with
  | nil => decide
  | cons b l ih => rw [ofBytesLE, List.length_cons, Nat.pow_succ]; have := b.isLt; omega
theorem ofBytesLE_byte (l : List U8) (k : Nat) (h : k < l.length) : BitVec.ofNat 8 (ofBytesLE l / 256 ^ k) = l[k] := by
  induction l generalizing k with
  | nil => simp at h
  | cons b l ih =>
    rw [ofBytesLE]
    have hb := b.isLt
    cases k with
    | zero =>
      rw [Nat.pow_zero, Nat.div_one]
      apply BitVec.eq_of_toNat_eq
      rw [BitVec.toNat_ofNat, List.getElem_cons_zero]
      omega
    | succ k =>
      rw [Nat.pow_succ, Nat.mul_comm (256 ^ k), ← Nat.div_div_eq_div_mul, show (b.toNat + 256 * ofBytesLE l) / 256 = ofBytesLE l by omega,
        List.getElem_cons_succ]
      exact ih k (by simpa using h)
theorem bytesAt_byte (s : State) (a n k : Nat) (h : k < n) : BitVec.ofNat 8 (bytesAt s a n / 256 ^ k) = s.byteAt (a + k) := by
  induction n generalizing a k with
  | zero => omega
  | succ n ih =>
    rw [bytesAt]
    have hb := (s.byteAt a).isLt
    cases k with
    | zero =>
      apply BitVec.eq_of_toNat_eq
      simp only [Nat.add_zero, Nat.pow_zero, Nat.div_one, BitVec.toNat_ofNat]
      show _ % 256 = _
      omega
    | succ k =>
      rw [Nat.pow_succ, Nat.mul_comm (256 ^ k), ← Nat.div_div_eq_div_mul, show ((s.byteAt a).toNat + 256 * bytesAt s (a + 1) n) / 256 = bytesAt s (a + 1) n by omega,
        ih (a + 1) k (by omega)]
      congr 1; omega
/-- What a plain read gives is what it may give, whatever the draw. -/
theorem seen_mayRead (s : State) (q : Agent) (a n f : Nat) : MayReadBy s q a n (({ s with free := f } : State).seenN q a n) := by
  have hm : ∀ b k, ({ s with free := f } : State).missable q b k = s.missable q b k := fun _ _ => rfl
  have hb : ∀ b, ({ s with free := f } : State).byteAt b = s.byteAt b := fun b =>
    (SamePlaces.byteAt (s := s) ⟨fun _ => rfl, fun _ => rfl, rfl, rfl, rfl⟩ b)
  have hl : ∀ b k, ({ s with free := f } : State).loadN b k = bytesAt s b k := by
    intro b k
    induction k generalizing b with
    | zero => rfl
    | succ k ih => rw [State.loadN, bytesAt, ih, hb]
  unfold MayReadBy State.seenN
  cases ho : s.older.isEmpty with
  | true =>
    have h0 : s.older = [] := by simpa using ho
    simp only [ho, if_true, hl]
    refine ⟨bytesAt_lt s a n, fun _ => by trivial, ?_⟩
    split
    · exact ⟨[], List.nil_prefix, fun k hk => bytesAt_byte s a n k hk⟩
    · exact fun k hk => ⟨[], List.nil_prefix, bytesAt_byte s a n k hk⟩
  | false =>
    have h0 : s.older ≠ [] := by simpa using ho
    simp only [ho, Bool.false_eq_true, if_false, hb]
    refine ⟨?_, fun h => absurd h h0, ?_⟩
    · have := ofBytesLE_lt ((List.range n).map (fun i => bytesUnder (({ s with free := f } : State).missedAt q a n i) (a + i) (s.byteAt (a + i))))
      simpa using this
    · unfold State.missedAt
      simp only [hm]
      split
      · rename_i h
        have h' : (decide (a % n = 0) && decide (n ≤ 16)) = true := by rw [decide_eq_true h.1, decide_eq_true h.2]; rfl
        refine ⟨(s.missable q a n).take (Config.older f 0 % ((s.missable q a n).length + 1)), List.take_prefix _ _, fun k hk => ?_⟩
        rw [ofBytesLE_byte _ k (by simpa using hk), List.getElem_map, List.getElem_range, if_pos h']
      · rename_i h
        have h' : ¬(decide (a % n = 0) && decide (n ≤ 16)) = true := by
          rw [Bool.and_eq_true, decide_eq_true_iff, decide_eq_true_iff]; exact h
        intro k hk
        refine ⟨(s.missable q (a + k) 1).take (Config.older f k % ((s.missable q (a + k) 1).length + 1)), List.take_prefix _ _, ?_⟩
        rw [ofBytesLE_byte _ k (by simpa using hk), List.getElem_map, List.getElem_range, if_neg h']

/-- What a plain read of a capability gives is what it may give. -/
theorem seenCap_mayRead (s : State) (q : Agent) (a : Nat) (h : a % 16 = 0) : MayReadCapBy s q a (s.seenCap q a) := by
  have hs := seen_mayRead s q a 16 s.free
  unfold MayReadCapBy State.seenCap
  cases ho : s.older.isEmpty with
  | true =>
    have h0 : s.older = [] := by simpa using ho
    rw [if_pos rfl]
    have e : s.capAt a = { bits := BitVec.ofNat 128 (bytesAt s a 16), tag := s.tagAt a } := by unfold State.capAt; rw [loadN_bytesAt]
    refine ⟨fun _ => e, [], List.nil_prefix, ?_, fun k hk => ?_⟩
    · rw [e]; rfl
    · rw [e]
      show (BitVec.ofNat 128 (bytesAt s a 16)).extractLsb' (8 * k) 8 = s.byteAt (a + k)
      rw [← bytesAt_byte s a 16 k hk]
      apply BitVec.eq_of_toNat_eq
      rw [BitVec.extractLsb'_toNat, Nat.shiftRight_eq_div_pow, BitVec.toNat_ofNat, BitVec.toNat_ofNat, Nat.mod_eq_of_lt (show bytesAt s a 16 < 2 ^ 128 from bytesAt_lt s a 16), Nat.pow_mul]
  | false =>
    have h0 : s.older ≠ [] := by simpa using ho
    rw [if_neg (by simp)]
    have h' : (decide (a % 16 = 0) && decide (16 ≤ 16)) = true := by rw [decide_eq_true h]; rfl
    refine ⟨fun h => absurd h h0, s.missedAt q a 16 0, ?_, rfl, fun k hk => ?_⟩
    · unfold State.missedAt; rw [if_pos h']; exact List.take_prefix _ _
    · have e : s.seenN q a 16 = ofBytesLE ((List.range 16).map (fun i => bytesUnder (s.missedAt q a 16 i) (a + i) (s.byteAt (a + i)))) := by
        unfold State.seenN; rw [ho]; rfl
      have e2 : s.missedAt q a 16 k = s.missedAt q a 16 0 := by unfold State.missedAt; rw [if_pos h', if_pos h']
      have e3 : (BitVec.ofNat 128 (s.seenN q a 16)).extractLsb' (8 * k) 8 = BitVec.ofNat 8 (s.seenN q a 16 / 256 ^ k) := by
        apply BitVec.eq_of_toNat_eq
        rw [BitVec.extractLsb'_toNat, Nat.shiftRight_eq_div_pow, BitVec.toNat_ofNat, BitVec.toNat_ofNat, Nat.mod_eq_of_lt (show s.seenN q a 16 < 2 ^ 128 from hs.1), Nat.pow_mul]
      show (BitVec.ofNat 128 (s.seenN q a 16)).extractLsb' (8 * k) 8 = _
      rw [e3, e, ofBytesLE_byte _ k (by simpa using hk), List.getElem_map, List.getElem_range, e2]
theorem byteAt_free (s : State) (f a : Nat) : ({ s with free := f } : State).byteAt a = s.byteAt a :=
  (SamePlaces.byteAt (s := s) ⟨fun _ => rfl, fun _ => rfl, rfl, rfl, rfl⟩ a)
theorem recorded_free {s t : State} {f : Nat} {x : Acc} (h : Recorded { s with free := f } t x) : Recorded s t x := by
  intro r
  rw [h r]
  refine or_congr Iff.rfl (and_congr_right fun _ => and_congr_right fun hh => ?_)
  have : ({ s with free := f } : State).agentSpan x.agent = s.agentSpan x.agent := by
    unfold State.agentSpan
    cases e : x.agent with
    | handler d v u i => exact absurd e (hh d v u i)
    | slot c i r => rfl
    | cmd c n => rfl
  rw [this]
/-- A plain load: what it writes, its record and its watch. -/
theorem loads_of {i : Instr} {s : State} {d : BitVec 5} {c : Cap} {x : Acc} {q : Agent} {a n : Nat} (hw : x.write = false) (hf : x.fetch = false) (hn : 0 < x.size)
    (h : exec i s = .next ((((s.looked q a n).access x id).setG d c).retire)) : Loads i s d c x := by
  obtain ⟨f, e⟩ := looked_shape s q a n
  rw [e] at h
  obtain ⟨A, e2⟩ := load_eff (s := { s with free := f }) hw rfl hf hn
  obtain ⟨k, w, hs, hk⟩ := A.self
  have hs : (({ s with free := f } : State).access x id).self = { s.self with park := k, watchTrap := w } := hs
  have hk : k.alone = s.self.park.alone := hk
  have hg := fun m => gSet_setG (({ s with free := f } : State).access x id) d m c
  generalize ({ s with free := f } : State).access x id = t at *
  obtain ⟨g', e3⟩ := setG_shape t d c
  rw [e3] at h hg
  have hB : ∀ b, t.byteAt b = s.byteAt b := fun b => (A.bytes b).trans (byteAt_free s f b)
  refine ⟨_, h, ⟨?_, ?_, ?_, ?_, ?_⟩, ?_, recorded_free A.recs, A.watch, ?_, fun b => ⟨?_, A.tags b⟩⟩
  · intro m
    have := hg m
    unfold gSet at this ⊢
    have h3 : t.g m = s.g m := by unfold State.g; rw [hs]; rfl
    rw [h3] at this
    exact this
  · intro m; unfold State.v; show Slot.getV { t.self with .. } m = _; rw [hs]; rfl
  · intro m; unfold State.p; show Slot.getP { t.self with .. } m = _; rw [hs]; rfl
  · show t.self.flags = _; rw [hs]
  · unfold State.retire State.setSelf Slot.retired; simp only; rw [hs]
  · unfold Retired State.retire State.setSelf Slot.retired State.pc; simp only; rw [hs]; exact ⟨rfl, rfl, by trivial, hk, by trivial⟩
  · unfold State.retire State.setSelf; rw [e2]
  · exact (byteAt_self t _ b).trans (hB b)

/-! ### Accesses in lanes -/

theorem writeFrame_trans {s t u : State} (h : WriteFrame s t) (g : WriteFrame t u) : WriteFrame s u := by
  obtain ⟨h1, h2, ⟨l, h3⟩, h4, h5, h6⟩ := h
  obtain ⟨g1, g2, ⟨m, g3⟩, g4, g5, g6⟩ := g
  refine ⟨?_, g2.trans h2, ⟨m ++ l, by rw [g3, h3, List.append_assoc]⟩, fun k => (g4 k).trans (h4 k), g5.trans h5, fun k => (g6 k).trans (h6 k)⟩
  rw [g1, h1]
/-- What one access after another leaves of the slot and of the device. -/
structure Alike (s t : State) : Prop where
  self : ∃ k w, t.self = { s.self with park := k, watchTrap := w } ∧ k.alone = s.self.park.alone
  frame : WriteFrame s t
theorem Alike.trans' {s t u : State} (h : Alike s t) (g : Alike t u) : Alike s u := by
  obtain ⟨⟨k, w, h1, h3⟩, h2⟩ := h
  obtain ⟨⟨k', w', g1, g3⟩, g2⟩ := g
  exact ⟨⟨k', w', by rw [g1, h1], by rw [g3, h1]; exact h3⟩, writeFrame_trans h2 g2⟩
theorem writeFrame_refl (s : State) : WriteFrame s s := ⟨rfl, rfl, ⟨[], rfl⟩, fun _ => rfl, rfl, fun _ => rfl⟩
theorem Alike.refl (s : State) : Alike s s := ⟨⟨s.self.park, s.self.watchTrap, rfl, rfl⟩, writeFrame_refl s⟩
theorem Accessed.alike {s t u : State} {x : Acc} {m : Pred} (h : Accessed s t x m u) : Alike s t := ⟨h.self, h.frame⟩
theorem Alike.isChecked {s t : State} (h : Alike s t) (a : Nat) : t.isChecked a = s.isChecked a := by rw [h.frame.1]; rfl
theorem Alike.same {s t : State} (h : Alike s t) : Committed s { s with trans := t.trans, kept := t.kept } :=
  ⟨s.recs, s.behind, t.kept, s.dirtyLog, t.trans, s.older, rfl, h.frame.2.2.2.1, h.frame.2.1, [], rfl⟩
theorem Alike.phys {s t : State} (h : Alike s t) (a : Nat) : t.phys a = s.phys a := by
  have e : t.phys a = ({ s with trans := t.trans, kept := t.kept } : State).phys a := by
    conv_lhs => rw [h.frame.1]
    rfl
  rw [e]
  exact h.same.same.1 a
theorem Alike.sealKey {s t : State} (h : Alike s t) (a : Nat) : t.sealKey a = s.sealKey a := by
  conv_lhs => rw [h.frame.1]
  rfl
theorem Alike.elsewhere {s t : State} (h : Alike s t) (a b : Nat) : Elsewhere t a b ↔ Elsewhere s a b := by
  unfold Elsewhere; rw [h.phys, h.phys, h.sealKey, h.sealKey]
theorem Alike.granule {s t : State} (h : Alike s t) (a b : Nat) : SameGranule t a b ↔ SameGranule s a b := by
  unfold SameGranule; rw [h.phys, h.phys]
theorem Alike.watched {s t : State} (h : Alike s t) (x : Acc) : t.watched x = s.watched x := by
  obtain ⟨⟨k, w, h1, -⟩, h2⟩ := h
  have hc : t.self.core = s.self.core := by rw [h1]
  apply watched_eq
  · rw [h1]
  · rw [hc]; have := congrArg Core.watch (h2.2.2.2.2.2 s.self.core); exact this
/-- A slot but for what it waits for and a pending watch trap. -/
def calm (x : Slot) : Slot := { x with park := .no, watchTrap := none }
theorem find_calm (l m : List Slot) (f : Slot → Bool) (hf : ∀ x y : Slot, calm x = calm y → f x = f y) (h : l.map calm = m.map calm) :
    (l.find? f).map calm = (m.find? f).map calm := by
  induction l generalizing m with
  | nil => cases m with
    | nil => rfl
    | cons y m => cases h
  | cons x l ih =>
    cases m with
    | nil => cases h
    | cons y m =>
      rw [List.map_cons, List.map_cons] at h
      injection h with h1 h2
      rw [List.find?_cons, List.find?_cons, hf x y h1]
      cases f y
      · exact ih m h2
      · exact congrArg some h1
theorem Alike.agentSpan {s t : State} (h : Alike s t) {a : Agent} (hh : ∀ d v u i, a ≠ .handler d v u i) : t.agentSpan a = s.agentSpan a := by
  have key : (t.agentSlot a).map Slot.span = (s.agentSlot a).map Slot.span := by
    have := find_calm t.heldSlots s.heldSlots (fun x => x.agent == a && x.running) ?_ ?_
    · have h2 := congrArg (Option.map Slot.span) this
      rw [Option.map_map, Option.map_map] at h2
      exact h2
    · intro x y hxy
      have h1 := congrArg Slot.agent hxy
      have h2 := congrArg Slot.role hxy
      have h1 : x.agent = y.agent := h1
      have h2 : x.role = y.role := h2
      unfold Slot.running
      rw [h1, h2]
    · obtain ⟨⟨k, w, h1, -⟩, h2⟩ := h
      have ho : t.owners = s.owners := by rw [h2.1]
      unfold State.heldSlots State.slots
      rw [List.map_append, List.map_append, ho, List.map_cons, List.map_cons]
      congr 1
      have h3 := congrArg (List.map (fun x : Slot => { x with watchTrap := none })) h2.2.2.2.2.1
      rw [List.map_map, List.map_map] at h3
      rw [show t.others.map calm = s.others.map calm from h3, h1]
      rfl
  unfold State.agentSpan
  cases a with
  | slot c i r =>
    simp only
    cases h1 : t.agentSlot (.slot c i r) <;> cases h2 : s.agentSlot (.slot c i r) <;> rw [h1, h2] at key <;> simp_all
  | handler d v u i => exact absurd rfl (hh d v u i)
  | cmd c n => rfl
theorem recordedAll_nil (s t : State) (h : t.recs = s.recs) : RecordedAll s t [] := by intro r; rw [h]; simp
theorem recordedAll_cons {s t u : State} {x : Acc} {xs : List Acc} (ha : Alike s t) (h : Recorded s t x) (g : RecordedAll t u xs) : RecordedAll s u (x :: xs) := by
  intro r
  rw [g r, h r]
  simp only [List.mem_cons, exists_eq_or_imp, ha.isChecked, or_assoc]
  refine or_congr Iff.rfl (or_congr Iff.rfl (exists_congr fun y => and_congr_right fun _ => and_congr_right fun _ => and_congr_right fun hh => ?_))
  rw [ha.agentSpan hh]
theorem foldl_min (l : List (Nat × Pred)) (a b : Nat) : l.foldl (fun n x => min n x.1) (min a b) = min a (l.foldl (fun n x => min n x.1) b) := by
  induction l generalizing b with
  | nil => rfl
  | cons x l ih => rw [List.foldl_cons, List.foldl_cons, Nat.min_assoc, ih]
theorem foldl_or (l : List (Nat × Pred)) (a b : Pred) : l.foldl (fun m x => m ||| x.2) (a ||| b) = a ||| l.foldl (fun m x => m ||| x.2) b := by
  induction l generalizing b with
  | nil => rfl
  | cons x l ih => rw [List.foldl_cons, List.foldl_cons, BitVec.or_assoc, ih]
theorem min_word (a : Nat) (k : U64) : (BitVec.ofNat 64 (min a k.toNat)).toNat = min a k.toNat := by
  rw [BitVec.toNat_ofNat]
  exact Nat.mod_eq_of_lt (lt_of_le_of_lt (Nat.min_le_right _ _) k.isLt)
theorem watchedAll_nil (s t : State) (h : t.self.watchTrap = s.self.watchTrap) : WatchedAll s t [] := h
theorem watchedAll_cons {s t u : State} {x : Acc} {m : Pred} {xs : List (Acc × Pred)} (ha : Alike s t) (h : Watched s t x m)
    (hb : ∀ a, s.watched x = some a → a < 2 ^ 64) (g : WatchedAll t u xs) : WatchedAll s u ((x, m) :: xs) := by
  have hw : (xs.filterMap (fun x => (t.watched x.1).map (fun a => (a, x.2)))) = xs.filterMap (fun x => (s.watched x.1).map (fun a => (a, x.2))) := by
    congr 1; funext y; rw [ha.watched]
  have hp : t.pc = s.pc := by obtain ⟨k, w, e, -⟩ := ha.self; unfold State.pc; rw [e]
  unfold WatchedAll at g ⊢
  unfold Watched at h
  rw [hw] at g
  cases h1 : s.watched x with
  | none =>
    rw [h1] at h
    simp only at h
    rw [List.filterMap_cons_none (by simp [h1])]
    rw [h, hp] at g
    exact g
  | some a =>
    rw [h1] at h
    simp only at h
    rw [List.filterMap_cons_some (b := (a, m)) (by simp [h1])]
    simp only
    cases h2 : s.self.watchTrap with
    | none =>
      rw [h2] at h
      obtain ⟨w, h3⟩ := h
      refine ⟨w, ?_⟩
      cases h4 : xs.filterMap (fun x => (s.watched x.1).map (fun a => (a, x.2))) with
      | nil => rw [h4] at g; rw [show u.self.watchTrap = _ from g, h3]; rfl
      | cons y ys =>
        rw [h4] at g
        simp only [h3, hp, if_true] at g
        rw [g, List.foldl_cons, List.foldl_cons, foldl_min, foldl_or, BitVec.toNat_ofNat, Nat.mod_eq_of_lt (hb a h1), Nat.min_comm]
    | some y =>
      obtain ⟨k, pc, w⟩ := y
      rw [h2] at h
      simp only at h ⊢
      cases h4 : xs.filterMap (fun x => (s.watched x.1).map (fun a => (a, x.2))) with
      | nil => rw [h4] at g; rw [show u.self.watchTrap = _ from g, h]; rfl
      | cons y ys =>
        rw [h4] at g
        by_cases h5 : pc = s.pc
        · rw [if_pos h5] at h ⊢
          simp only [h, hp, h5, if_true] at g
          rw [g, List.foldl_cons, List.foldl_cons, foldl_min, foldl_or, min_word, h5]
          congr 3
          · rw [← Nat.min_assoc, Nat.min_comm _ a]
          · rw [BitVec.or_assoc]
        · rw [if_neg h5] at h ⊢
          simp only [h, hp, h5, if_false] at g
          exact g
theorem phys_lt {s : State} {a : Nat} (h : (s.phys a).isSome) : a < 2 ^ 63 := by
  unfold State.phys at h
  have hb : spadBase + Config.benches * 2 ^ 24 ≤ 2 ^ 63 := by decide
  have hh : hostBase + 2 ^ 48 ≤ 2 ^ 63 := by decide
  split at h
  · rename_i e
    exact Nat.lt_of_lt_of_le ((placeOf_frame_iff _ _).1 e).2.1 hb
  · rename_i e
    rcases (placeOf_seg_iff _ _).1 e with ⟨-, e, -⟩ | ⟨-, e, -⟩
    · exact Nat.lt_trans e (by decide)
    · exact Nat.lt_of_lt_of_le e hh
  · cases h
theorem watchMatch_le {wa wm : U64} {a last b : Nat} (hl : a ≤ last) (h : watchMatch wa wm a last = some b) : b ≤ last := by
  unfold watchMatch at h
  obtain ⟨i, hi, h⟩ := List.exists_of_findSome?_eq_some h
  rw [List.mem_range] at hi
  simp only at h
  split at h
  · injection h with h; subst h; omega
  · cases h
theorem watched_le {s : State} {x : Acc} {a : Nat} (hx : 0 < x.size) (h : s.watched x = some a) : a ≤ x.last := by
  unfold State.watched at h
  split at h
  · cases h
  · have hl : x.addr ≤ x.last := by unfold Acc.last; omega
    have key : ∀ (l : List (Fin 4)) (b : Option Nat), (∀ c, b = some c → c ≤ x.last) → ∀ c, l.foldl (fun best i =>
        match (if (!(s.myCore.watchMask i).getLsbD 3 && (((s.myCore.watchMask i).getLsbD 2 && x.fetch) || ((s.myCore.watchMask i).getLsbD 1 && (x.write || x.atomic))
          || ((s.myCore.watchMask i).getLsbD 0 && (x.read || x.atomic)))) = true then watchMatch (s.myCore.watchAddr i) (s.myCore.watchMask i) x.addr x.last else none) with
        | none => best
        | some a =>
          match best with
          | none => some a
          | some b => some (min a b)) b = some c → c ≤ x.last := by
      intro l
      induction l with
      | nil => intro b hb c hc; exact hb c hc
      | cons i l ih =>
        intro b hb c hc
        rw [List.foldl_cons] at hc
        refine ih _ ?_ c hc
        intro d hd
        split at hd
        · exact hb d hd
        · rename_i a0 ha0
          have h0 : a0 ≤ x.last := by
            split at ha0
            · exact watchMatch_le hl ha0
            · cases ha0
          split at hd
          · injection hd with hd; omega
          · injection hd with hd; omega
    exact key _ none (fun c hc => by cases hc) a h
theorem watched_lt {s : State} {x : Acc} (hx : 0 < x.size) (hp : ∀ k, k < x.size → (s.phys (x.addr + k)).isSome) : ∀ a, s.watched x = some a → a < 2 ^ 64 := by
  intro a h
  have h1 := watched_le hx h
  have h2 := phys_lt (hp (x.size - 1) (by omega))
  unfold Acc.last at h1
  omega
theorem loads_all (xs : List (Acc × Pred)) (s : State)
    (h : ∀ x ∈ xs, x.1.write = false ∧ x.1.fetch = false ∧ 0 < x.1.size ∧ ∀ k, k < x.1.size → (s.phys (x.1.addr + k)).isSome) :
    let t := xs.foldl (fun v x => v.accessLane x.1 x.2 id) s
    Alike s t ∧ RecordedAll s t (xs.map Prod.fst) ∧ WatchedAll s t xs ∧ t = { s with self := t.self, recs := t.recs } ∧ ∀ a, t.byteAt a = s.byteAt a ∧ t.tagAt a = s.tagAt a := by
  induction xs generalizing s with
  | nil => exact ⟨.refl s, recordedAll_nil s s rfl, rfl, rfl, fun _ => ⟨rfl, rfl⟩⟩
  | cons x xs ih =>
    obtain ⟨h1, h2, h3, h4⟩ := h x (by simp)
    obtain ⟨A, e⟩ := loadLane_eff (m := x.2) h1 rfl h2 h3 (s := s) (x := x.1)
    obtain ⟨i1, i2, i3, i4, i5⟩ := ih (s.accessLane x.1 x.2 id) (fun y hy => by
      obtain ⟨a, b, c, d⟩ := h y (by simp [hy])
      exact ⟨a, b, c, fun k hk => by rw [A.alike.phys]; exact d k hk⟩)
    refine ⟨A.alike.trans' i1, recordedAll_cons A.alike A.recs i2, watchedAll_cons A.alike A.watch (watched_lt h3 h4) i3, ?_, fun a => ⟨(i5 a).1.trans (A.bytes a), (i5 a).2.trans (A.tags a)⟩⟩
    show (xs.foldl (fun v x => v.accessLane x.1 x.2 id) (s.accessLane x.1 x.2 id))
      = { s with self := (xs.foldl (fun v x => v.accessLane x.1 x.2 id) (s.accessLane x.1 x.2 id)).self, recs := (xs.foldl (fun v x => v.accessLane x.1 x.2 id) (s.accessLane x.1 x.2 id)).recs }
    generalize xs.foldl (fun v x => v.accessLane x.1 x.2 id) (s.accessLane x.1 x.2 id) = u at i4 ⊢
    generalize s.accessLane x.1 x.2 id = t1 at e i4
    rw [i4, e]
theorem storedAll_cons {s t u : State} {x : Acc × Nat} {xs : List (Acc × Nat)} (ha : Alike s t) (h : StoredAll s t [x]) (g : StoredAll t u xs) : StoredAll s u (x :: xs) := by
  obtain ⟨h1, h2, h3⟩ := h
  obtain ⟨g1, g2, g3⟩ := g
  refine ⟨?_, ?_, ?_⟩
  · intro pre y post e k hk hn
    cases pre with
    | nil =>
      rw [List.nil_append] at e
      injection e with e1 e2
      subst e1 e2
      rw [g2 _ (fun z hz j hj => (ha.elsewhere _ _).2 (hn z hz j hj))]
      exact h1 [] x [] rfl k hk (fun z hz => by simp at hz)
    | cons z pre =>
      rw [List.cons_append] at e
      injection e with e1 e2
      exact g1 pre y post e2 k hk (fun z hz j hj => (ha.elsewhere _ _).2 (hn z hz j hj))
  · intro b hb
    rw [g2 b (fun z hz j hj => (ha.elsewhere _ _).2 (hb z (by simp [hz]) j hj))]
    exact h2 b (fun y hy k hk => hb y (by rw [List.mem_singleton] at hy; simp [hy]) k hk)
  · intro b
    refine ⟨fun hb => ?_, fun hb => ?_⟩
    · rw [(g3 b).1 (fun z hz j hj hg => hb z (by simp [hz]) j hj ((ha.granule _ _).1 hg))]
      exact (h3 b).1 (fun y hy k hk => hb y (by rw [List.mem_singleton] at hy; simp [hy]) k hk)
    · obtain ⟨z, hz, k, hk, hg⟩ := hb
      by_cases hm : ∃ z ∈ xs, ∃ k, k < z.1.size ∧ SameGranule t (z.1.addr + k) b
      · exact (g3 b).2 hm
      · rcases List.mem_cons.1 hz with rfl | hz
        · rw [(g3 b).1 (fun w hw j hj hg2 => hm ⟨w, hw, j, hj, hg2⟩)]
          exact (h3 b).2 ⟨z, by simp, k, hk, hg⟩
        · exact absurd ⟨z, hz, k, hk, (ha.granule _ _).2 hg⟩ hm
/-- A store of one lane. -/
theorem store_one (x : Acc) (v : Nat) (m : Pred) (s : State) (h1 : x.fetch = false) (h2 : 0 < x.size) (h3 : x.size ≤ 2 ^ 13) (h4 : ∀ k, k < x.size → (s.phys (x.addr + k)).isSome) :
    let t := s.accessLane x m (fun w => w.storeData x.addr x.size v)
    Alike s t ∧ Recorded s t x ∧ Watched s t x m ∧ StoredAll s t [(x, v)] := by
  have hS := (Committed.commit s x).same
  obtain ⟨c1, c2, c3, c4⟩ := storeData_spec (s.commit x) x.addr x.size v h2 h3 (fun k hk => by rw [hS.1]; exact h4 k hk)
  have A := accessLane_spec s x m (fun w => w.storeData x.addr x.size v) c1 h1 h2
  refine ⟨A.alike, A.recs, A.watch, ?_, ?_, ?_⟩
  · intro pre y post e k hk hn
    cases pre with
    | nil =>
      rw [List.nil_append] at e
      injection e with e1 e2
      subst e1 e2
      exact (A.bytes _).trans (c2 k hk)
    | cons z pre => simp at e
  · intro b hb
    have hb := hb (x, v) (by simp)
    refine (A.bytes b).trans ?_
    rw [c3 b (fun k hk => ?_), hS.byteAt]
    have := hb k hk
    unfold Elsewhere at this
    unfold Apart
    rw [hS.1, hS.1, hS.2.1, hS.2.1]
    exact this
  · intro b
    refine ⟨fun hb => (A.tags b).trans ?_, fun hb => (A.tags b).trans ?_⟩
    · rw [(c4 b).1 (fun k hk => ?_), hS.tagAt]
      rw [hS.1, hS.1]; exact hb (x, v) (by simp) k hk
    · obtain ⟨z, hz, k, hk, hg⟩ := hb
      rw [List.mem_singleton] at hz
      subst hz
      exact (c4 b).2 k hk (by rw [hS.1, hS.1]; exact hg)
theorem capClass_ok {s : State} {c : Cap} {need : Perm} (h1 : c.tag = true) (h2 : c.otype = 0) (h3 : s.revokedAddr c.bounds.base.toNat = false) (h4 : c.holds need = true) :
    s.capClass c need = none := by
  unfold State.capClass Cap.isSealed State.isRevoked
  rw [h1, h2, h3, h4]
  rfl
/-- The lanes of a list of numbers. -/
def lanesOf (L : List Nat) (ea : Nat → U64) (n : Nat) : List Lane := L.map (fun i => .single i (ea i) n)
theorem laneCheck_ok {s : State} {r : BitVec 5} {need : Perm} {write al : Bool} {n : Nat} {L : List Nat} {ea : Nat → U64} {lanes : List Lane} {first : U64}
    {al2 : Bool} (h : LanesPass s (s.g r) need write al n L ea) (ha : al2 = true → al = true) (hl : ∀ x ∈ lanes, ∃ i ∈ L, x.ea = ea i ∧ x.n = n) :
    s.laneCheck r (s.g r) need write al2 lanes first = .ok () := by
  obtain ⟨h1, h2, h3, h4, -, -, h5⟩ := h
  have f1 : lanes.filter (fun x => !(s.g r).inBounds x.ea.toNat x.n) = [] := by
    rw [List.filter_eq_nil_iff]
    intro x hx
    obtain ⟨i, hi, e1, e2⟩ := hl x hx
    obtain ⟨b1, b2, -⟩ := h5 i hi
    rw [e1, e2]
    unfold Cap.inBounds
    simp only [Bool.not_eq_true', Bool.not_eq_false, Bool.and_eq_true, decide_eq_true_eq]
    exact ⟨b1, by exact_mod_cast b2⟩
  have f2 : (if al2 = true then lanes.filter (fun x => x.ea.toNat % x.n != 0) else []) = [] := by
    cases al2 with
    | false => rfl
    | true =>
      have ha := ha rfl
      subst ha
      rw [if_pos rfl, List.filter_eq_nil_iff]
      intro x hx
      obtain ⟨i, hi, e1, e2⟩ := hl x hx
      rw [e1, e2, (h5 i hi).2.2.1 rfl]
      simp
  have f3 : (lanes.filter (fun x => !s.isRemote x)).filterMap (fun x => (s.accErr (s.laneAcc x write)).map (fun e => (x, e))) = [] := by
    rw [List.filterMap_eq_nil_iff]
    intro x hx
    obtain ⟨i, hi, e1, e2⟩ := hl x (List.mem_of_mem_filter hx)
    have := (h5 i hi).2.2.2.2
    have e3 : s.laneAcc x write = laneOf s ea n write i := by unfold State.laneAcc laneOf accessOf; rw [e1, e2]; rfl
    rw [e3, this]; rfl
  unfold State.laneCheck
  rw [capClass_ok h1 h2 h3 h4]
  simp only [f1, f2, f3]
  rfl
theorem not_remote {s : State} {c : Cap} {need : Perm} {write al : Bool} {n : Nat} {L : List Nat} {ea : Nat → U64} (h : LanesPass s c need write al n L ea)
    {lanes : List Lane} (hl : ∀ x ∈ lanes, ∃ i ∈ L, x.ea = ea i ∧ x.n = n) : (∀ x ∈ lanes, s.isRemote x = false) ∧ lanes.filter s.isRemote = [] ∧ lanes.filter (fun x => !s.isRemote x) = lanes := by
  have hr : ∀ x ∈ lanes, s.isRemote x = false := by
    intro x hx
    obtain ⟨i, hi, e1, -⟩ := hl x hx
    unfold State.isRemote
    rw [e1, (h.2.2.2.2.2.2 i hi).2.2.2.1]
    rfl
  refine ⟨hr, ?_, ?_⟩
  · rw [List.filter_eq_nil_iff]; intro x hx; rw [hr x hx]; decide
  · rw [List.filter_eq_self]; intro x hx; rw [hr x hx]; rfl
theorem exchange_nil (s : State) (h1 : s.self.sent = []) (h2 : s.self.replies = []) : s.exchange [] = .ok (s, []) := by
  have e : (s.setSelf (fun x => { x with sent := [], replies := [] })) = s := by
    have : ({ s.self with sent := [], replies := [] } : Slot) = s.self := by
      generalize s.self = x at h1 h2
      cases x; simp only at h1 h2; subst h1 h2; rfl
    show ({ s with self := { s.self with sent := [], replies := [] } } : State) = s
    rw [this]
  unfold State.exchange
  simp only [List.foldl_nil, ite_self, h1]
  show Except.ok (s.setSelf (fun x => { x with sent := [], replies := [] }), []) = _
  rw [e]
/-- A lane's access and its mask. -/
def laneHit (s : State) (w : Bool) (x : Lane) : Acc × Pred := (s.laneAcc x w, x.mask)
theorem loadLanes_ok {s : State} {r : BitVec 5} {al al2 : Bool} {n : Nat} {L : List Nat} {ea : Nat → U64} {lanes : List Lane} {first : U64}
    (h : LanesPass s (s.g r) .r false al n L ea) (ha : al2 = true → al = true) (hl : ∀ x ∈ lanes, ∃ i ∈ L, x.ea = ea i ∧ x.n = n) :
    ∃ f, s.loadLanes r (s.g r) al2 lanes first = .ok ({ (lanes.map (laneHit s false)).foldl (fun v x => v.accessLane x.1 x.2 id) s with free := f },
      lanes.map (fun x => (x.i, ({ s with free := s.free + x.i } : State).seenN s.self.agent (s.localAddr x.ea.toNat) x.n))) := by
  obtain ⟨r1, r2, r3⟩ := not_remote h hl
  unfold State.loadLanes
  rw [laneCheck_ok h ha hl, r2, r3]
  simp only [List.flatMap_nil, List.filterMap_nil]
  have e : (lanes.map (laneHit s false)).foldl (fun v x => v.accessLane x.1 x.2 id) s = lanes.foldl (fun v x => v.accessLane (s.laneAcc x false) x.mask id) s := by
    rw [List.foldl_map]; rfl
  rw [e]
  have ev : lanes.map (fun x => (x.i, if s.isRemote x then
        (((([] : List Lane).zip ([] : List Reply)).filter (fun y => y.1.i == x.i)).map (fun y => y.2.value.bits.toNat)).zipIdx.foldl
          (fun n y => n + 2 ^ (128 * y.2) * (y.1 % 2 ^ (8 * min 16 (x.n - 16 * y.2)))) 0
      else ({ s with free := s.free + x.i } : State).seenN s.me (s.localAddr x.ea.toNat) x.n))
    = lanes.map (fun x => (x.i, ({ s with free := s.free + x.i } : State).seenN s.self.agent (s.localAddr x.ea.toNat) x.n)) := by
    apply List.map_congr_left
    intro x hx
    rw [r1 x hx]; rfl
  show ∃ f, (do
    let (t, replies) ← s.exchange []
    let u ← t.laneReplies (([] : List Lane).zip replies) false
    let v := lanes.foldl (fun v x => v.accessLane (s.laneAcc x false) x.mask id) (u.watchLanes [] false)
    let w := if lanes.any (fun x => !(s.missable s.me (s.localAddr x.ea.toNat) x.n).isEmpty) then { v with free := v.free + lanes.length } else v
    Except.ok (w, lanes.map (fun x => (x.i, if s.isRemote x then
        (((([] : List Lane).zip replies).filter (fun y => y.1.i == x.i)).map (fun y => y.2.value.bits.toNat)).zipIdx.foldl
          (fun n y => n + 2 ^ (128 * y.2) * (y.1 % 2 ^ (8 * min 16 (x.n - 16 * y.2)))) 0
      else ({ s with free := s.free + x.i } : State).seenN s.me (s.localAddr x.ea.toNat) x.n))) : Run (State × List (Nat × Nat))) = _
  rw [exchange_nil s h.2.2.2.2.1 h.2.2.2.2.2.1]
  show ∃ f, Except.ok (if (lanes.any (fun x => !(s.missable s.me (s.localAddr x.ea.toNat) x.n).isEmpty)) = true then
    { (lanes.foldl (fun v x => v.accessLane (s.laneAcc x false) x.mask id) s) with free := (lanes.foldl (fun v x => v.accessLane (s.laneAcc x false) x.mask id) s).free + lanes.length }
    else lanes.foldl (fun v x => v.accessLane (s.laneAcc x false) x.mask id) s, lanes.map _) = _
  rw [ev]
  generalize lanes.foldl (fun v x => v.accessLane (s.laneAcc x false) x.mask id) s = v
  split
  · exact ⟨v.free + lanes.length, rfl⟩
  · exact ⟨v.free, rfl⟩
theorem saveLanes_ok {s : State} {r : BitVec 5} {al al2 : Bool} {n : Nat} {L : List Nat} {ea : Nat → U64} {lanes : List Lane} {first : U64} {value : Nat → Nat}
    (h : LanesPass s (s.g r) .w true al n L ea) (ha : al2 = true → al = true) (hn : 0 < n) (hn2 : n ≤ 2 ^ 13)
    (hl : ∀ x ∈ lanes, ∃ i ∈ L, x = .single i (ea i) n) :
    ∃ t, s.saveLanes r (s.g r) al2 lanes first value = .ok t ∧ Alike s t ∧ RecordedAll s t (lanes.map (fun x => s.laneAcc x true))
      ∧ WatchedAll s t (lanes.map (laneHit s true)) ∧ StoredAll s t (lanes.map (fun x => (s.laneAcc x true, value x.i))) := by
  have hl2 : ∀ x ∈ lanes, ∃ i ∈ L, x.ea = ea i ∧ x.n = n := fun x hx => by obtain ⟨i, hi, rfl⟩ := hl x hx; exact ⟨i, hi, rfl, rfl⟩
  obtain ⟨r1, r2, r3⟩ := not_remote h hl2
  -- the stores with their masks, lane by lane
  have key : ∀ (l : List Lane) (u : State), (∀ x ∈ l, ∃ i ∈ L, x.ea = ea i ∧ x.n = n) → Alike s u →
      let t := l.foldl (fun v x => v.accessLane (s.laneAcc x true) x.mask (fun w => w.storeData (s.localAddr x.ea.toNat) x.n (value x.i))) u
      Alike u t ∧ RecordedAll u t (l.map (fun x => s.laneAcc x true)) ∧ WatchedAll u t (l.map (laneHit s true)) ∧ StoredAll u t (l.map (fun x => (s.laneAcc x true, value x.i))) := by
    intro l
    induction l with
    | nil =>
      intro u _ _
      exact ⟨.refl u, recordedAll_nil u u rfl, rfl, fun pre x post h => by simp at h, fun _ _ => rfl, fun b => ⟨fun _ => rfl, fun ⟨x, hx, _⟩ => by simp at hx⟩⟩
    | cons x l ih =>
      intro u hx hu
      obtain ⟨i, hi, e1, e2⟩ := hx x (by simp)
      have e3 : s.laneAcc x true = laneOf s ea n true i := by unfold State.laneAcc laneOf accessOf; rw [e1, e2]; rfl
      have hp : ∀ k, k < n → (s.phys ((s.laneAcc x true).addr + k)).isSome := fun k hk => by
        rw [e3]; exact present_of_clear (x := laneOf s ea n true i) (h.2.2.2.2.2.2 i hi).2.2.2.2 hn hk
      obtain ⟨a1, hr, hw, a4⟩ := store_one (s.laneAcc x true) (value x.i) x.mask u rfl (by show 0 < x.n; rw [e2]; exact hn) (by show x.n ≤ 2 ^ 13; rw [e2]; exact hn2)
        (fun k hk => by rw [hu.phys]; exact hp k (by rw [← e2]; exact hk))
      change Alike u (u.accessLane (s.laneAcc x true) x.mask (fun w => w.storeData (s.localAddr x.ea.toNat) x.n (value x.i))) at a1
      change Recorded u (u.accessLane (s.laneAcc x true) x.mask (fun w => w.storeData (s.localAddr x.ea.toNat) x.n (value x.i))) _ at hr
      change Watched u (u.accessLane (s.laneAcc x true) x.mask (fun w => w.storeData (s.localAddr x.ea.toNat) x.n (value x.i))) _ _ at hw
      change StoredAll u (u.accessLane (s.laneAcc x true) x.mask (fun w => w.storeData (s.localAddr x.ea.toNat) x.n (value x.i))) _ at a4
      obtain ⟨b1, b2, b3, b4⟩ := ih (u.accessLane (s.laneAcc x true) x.mask (fun w => w.storeData (s.localAddr x.ea.toNat) x.n (value x.i)))
        (fun y hy => hx y (by simp [hy])) (hu.trans' a1)
      rw [List.foldl_cons]
      generalize u.accessLane (s.laneAcc x true) x.mask (fun w => w.storeData (s.localAddr x.ea.toNat) x.n (value x.i)) = u1 at *
      refine ⟨a1.trans' b1, recordedAll_cons a1 hr b2, watchedAll_cons a1 hw (watched_lt (by show 0 < x.n; rw [e2]; exact hn) (fun k hk => by rw [hu.phys]; exact hp k (by rw [← e2]; exact hk))) b3, ?_⟩
      exact storedAll_cons a1 a4 b4
  obtain ⟨a1, a2, a3, a4⟩ := key lanes s hl2 (.refl s)
  refine ⟨_, ?_, a1, a2, a3, a4⟩
  unfold State.saveLanes
  rw [laneCheck_ok h ha hl2, r2, r3, h.2.2.2.2.1]
  simp only [List.flatMap_nil, List.filterMap_nil, List.isEmpty_nil, if_true]
  generalize lanes.foldl (fun v x => v.accessLane (s.laneAcc x true) x.mask (fun w => w.storeData (s.localAddr x.ea.toNat) x.n (value x.i))) s = t at a1 ⊢
  obtain ⟨⟨k, w, e, -⟩, -⟩ := a1
  show (do
    let (u, replies) ← t.exchange []
    let v ← u.laneReplies ((([] : List (Lane × Nat)).map Prod.fst).zip replies) true
    Except.ok (v.watchLanes [] true) : Run State) = _
  rw [exchange_nil t (by rw [e]; exact h.2.2.2.2.1) (by rw [e]; exact h.2.2.2.2.2.1)]
  rfl
theorem holds_retire {s t : State} (h : Alike s t) (f : Vector Vec 32) (v : BitVec 5 → Vec) (hv : ∀ n : BitVec 5, f[n.toNat] = v n) :
    Holds s (State.retire { t with self := { t.self with v := f } }) s.g v s.p s.self.flags ∧ Retired s (State.retire { t with self := { t.self with v := f } }) := by
  obtain ⟨⟨k, w, hs, hk⟩, -⟩ := h
  refine ⟨⟨?_, hv, ?_, ?_, ?_⟩, ?_⟩
  · intro n; unfold State.g; show Slot.getG { t.self with v := f } n = _; rw [hs]; rfl
  · intro n; unfold State.p; show Slot.getP { t.self with v := f } n = _; rw [hs]; rfl
  · show t.self.flags = _; rw [hs]
  · unfold State.retire State.setSelf Slot.retired; simp only; rw [hs]
  · unfold Retired State.retire State.setSelf Slot.retired State.pc; simp only; rw [hs]; exact ⟨rfl, rfl, by trivial, hk, by trivial⟩
theorem holds_retire0 {s t : State} (h : Alike s t) : Holds s t.retire s.g s.v s.p s.self.flags ∧ Retired s t.retire := by
  have := holds_retire h t.self.v s.v (fun n => by obtain ⟨⟨k, w, hs, -⟩, -⟩ := h; rw [hs]; rfl)
  exact this
theorem loadsLanes_of {i : Instr} {s : State} {d : BitVec 5} {v : Vec} {xs : List (Acc × Pred)} {f : Nat}
    (hx : ∀ x ∈ xs, x.1.write = false ∧ x.1.fetch = false ∧ 0 < x.1.size ∧ ∀ k, k < x.1.size → (s.phys (x.1.addr + k)).isSome)
    (h : exec i s = .next ((({ xs.foldl (fun v x => v.accessLane x.1 x.2 id) s with free := f } : State).setV d v).retire)) : LoadsLanes i s (vSet s d v) xs := by
  obtain ⟨A, R, W, a4, a5⟩ := loads_all xs s hx
  generalize xs.foldl (fun v x => v.accessLane x.1 x.2 id) s = t at *
  rw [setV_shape] at h
  have hv : ∀ n : BitVec 5, (t.self.v.set d.toNat v d.isLt)[n.toNat] = vSet s d v n := by
    intro n
    have := vSet_setV t d n v
    have h2 : (t.setV d v).v n = (t.self.v.set d.toNat v d.isLt)[n.toNat] := rfl
    rw [← h2, this]
    unfold vSet
    have h3 : t.v n = s.v n := by obtain ⟨⟨k, w, hs, -⟩, -⟩ := A; unfold State.v; rw [hs]; rfl
    rw [h3]
  obtain ⟨H, T⟩ := holds_retire A _ _ hv
  refine ⟨_, h, H, T, R, W, ?_, fun a => ⟨?_, (a5 a).2⟩⟩
  · unfold State.retire State.setSelf; rw [a4]
  · exact (byteAt_self { t with free := f } _ a).trans ((byteAt_free t f a).trans (a5 a).1)
theorem storesLanes_of {i : Instr} {s t : State} {xs : List (Acc × Nat)} {bits : List Pred} (a1 : Alike s t) (a2 : RecordedAll s t (xs.map Prod.fst))
    (a3 : WatchedAll s t ((xs.map Prod.fst).zip bits)) (a4 : StoredAll s t xs) (h : exec i s = .next t.retire) : StoresLanes i s xs bits := by
  obtain ⟨H, T⟩ := holds_retire0 a1
  have eb : ∀ a, t.retire.byteAt a = t.byteAt a := fun a => byteAt_self t t.retire.self a
  exact ⟨_, h, H, T, a2, a3, writeFrame_retire a1.frame, fun pre x post e k hk hn => (eb _).trans (a4.1 pre x post e k hk hn),
    fun b hb => (eb b).trans (a4.2.1 b hb), a4.2.2⟩
theorem active_lt {n : Nat} {p : Pred} {i : Nat} (h : i ∈ active n p) : i < n := by
  unfold active at h
  exact List.mem_range.1 (List.mem_of_mem_filter h)
theorem vlanes_eq (s : State) (p : BitVec 3) (n : Nat) (f : Nat → U64) : s.vlanes p n f = lanesOf (active (128 / n) (s.p p)) f n := rfl
theorem lanesOf_single {L : List Nat} {ea : Nat → U64} {n : Nat} : ∀ x ∈ lanesOf L ea n, ∃ i ∈ L, x = .single i (ea i) n := by
  intro x hx
  obtain ⟨i, hi, rfl⟩ := List.mem_map.1 hx
  exact ⟨i, hi, rfl⟩
theorem lanesOf_mem {L : List Nat} {ea : Nat → U64} {n : Nat} : ∀ x ∈ lanesOf L ea n, ∃ i ∈ L, x.ea = ea i ∧ x.n = n := by
  intro x hx
  obtain ⟨i, hi, rfl⟩ := lanesOf_single x hx
  exact ⟨i, hi, rfl, rfl⟩
theorem lanesOf_acc (s : State) (L : List Nat) (ea : Nat → U64) (n : Nat) (w : Bool) : (lanesOf L ea n).map (fun x => s.laneAcc x w) = L.map (laneOf s ea n w) := by
  unfold lanesOf; rw [List.map_map]; rfl
theorem lanesOf_hit (s : State) (L : List Nat) (ea : Nat → U64) (n : Nat) (w : Bool) : (lanesOf L ea n).map (laneHit s w) = L.map (fun j => (laneOf s ea n w j, bit j)) := by
  unfold lanesOf; rw [List.map_map]; rfl
theorem laneValue_map (L : List Nat) (f : Nat → Nat) (i : Nat) (hi : i ∈ L) : laneValue (L.map (fun j => (j, f j))) i = f i := by
  unfold laneValue
  induction L with
  | nil => simp at hi
  | cons y L ih =>
    rw [List.map_cons, findBy]
    by_cases hy : y = i
    · subst hy; simp
    · simp only [hy, if_false]
      rcases List.mem_cons.1 hi with h | h
      · exact absurd h.symm hy
      · exact ih h
theorem pow_ok (z : BitVec 2) : 0 < 2 ^ z.toNat ∧ 2 ^ z.toNat ≤ 8 := by
  have := z.isLt
  refine ⟨Nat.two_pow_pos _, ?_⟩
  calc 2 ^ z.toNat ≤ 2 ^ 3 := Nat.pow_le_pow_right (by decide) (by omega)
    _ = 8 := by decide
theorem pow_ok1 (y : BitVec 1) : 0 < 4 * 2 ^ y.toNat ∧ 4 * 2 ^ y.toNat ≤ 8 := by
  have := y.isLt
  have h : 2 ^ y.toNat ≤ 2 ^ 1 := Nat.pow_le_pow_right (by decide) (by omega)
  have := Nat.two_pow_pos y.toNat
  omega
theorem lanes_width (n : Nat) : 8 * n * (128 / n) ≤ 1024 := by
  have := Nat.div_mul_le_self 128 n
  calc 8 * n * (128 / n) = 8 * (128 / n * n) := by ring
    _ ≤ 8 * 128 := Nat.mul_le_mul_left _ this
    _ = 1024 := by decide
theorem mem_active {n : Nat} {p : Pred} {j : Nat} (h : j < n) (hp : p.getLsbD j = true) : j ∈ active n p := by
  unfold active; rw [List.mem_filter]; exact ⟨List.mem_range.2 h, hp⟩
theorem laneAcc_of {s : State} {ea : Nat → U64} {n i : Nat} {w : Bool} {x : Lane} (e1 : x.ea = ea i) (e2 : x.n = n) : s.laneAcc x w = laneOf s ea n w i := by
  unfold State.laneAcc laneOf accessOf; rw [e1, e2]; rfl
theorem hits_ok {s : State} {c : Cap} {need : Perm} {al : Bool} {n : Nat} {L : List Nat} {ea : Nat → U64} {lanes : List Lane} (hn : 0 < n)
    (h : LanesPass s c need false al n L ea) (hl : ∀ x ∈ lanes, ∃ i ∈ L, x.ea = ea i ∧ x.n = n) :
    ∀ x ∈ lanes.map (laneHit s false), x.1.write = false ∧ x.1.fetch = false ∧ 0 < x.1.size ∧ ∀ k, k < x.1.size → (s.phys (x.1.addr + k)).isSome := by
  intro x hx
  obtain ⟨y, hy, rfl⟩ := List.mem_map.1 hx
  obtain ⟨i, hi, e1, e2⟩ := hl y hy
  have e3 : (laneHit s false y).1 = laneOf s ea n false i := laneAcc_of e1 e2
  rw [e3]
  exact ⟨rfl, rfl, hn, fun k hk => present_of_clear (h.2.2.2.2.2.2 i hi).2.2.2.2 hn hk⟩
theorem el_mod (n x : Nat) (s : State) (q : Agent) (a : Nat) (h : MayReadBy s q a n x) : x % 2 ^ (8 * n) = x := by
  apply Nat.mod_eq_of_lt
  rw [Nat.pow_mul]; exact h.1
theorem vload_ok {s : State} {i : Instr} {d a b : BitVec 5} {p : BitVec 3} {n : Nat} {ea : Nat → U64} (hn : 0 < n)
    (he : exec i s = s.vload d a b p n (lanesOf (active (128 / n) (s.p p)) ea n))
    (h : LanesPass s (s.g a) .r false true n (active (128 / n) (s.p p)) ea) :
    ∃ v, LoadsLanes i s (vSet s d v) ((active (128 / n) (s.p p)).map (fun j => (laneOf s ea n false j, bit j))) ∧ ∀ j, j < 128 / n →
        if (s.p p).getLsbD j = true then MayRead s (s.localAddr (ea j).toNat) n (el (8 * n) v j) else el (8 * n) v j = el (8 * n) (s.v d) j := by
  obtain ⟨f, e⟩ := loadLanes_ok (al2 := true) (first := s.x a + s.x b) h (fun h => h) lanesOf_mem
  rw [State.vload, e] at he
  have hl : (lanesOf (active (128 / n) (s.p p)) ea n).map (fun x => (x.i, ({ s with free := s.free + x.i } : State).seenN s.self.agent (s.localAddr x.ea.toNat) x.n))
      = (active (128 / n) (s.p p)).map (fun j => (j, ({ s with free := s.free + j } : State).seenN s.self.agent (s.localAddr (ea j).toNat) n)) := by
    unfold lanesOf; rw [List.map_map]; rfl
  rw [hl] at he
  have hx := hits_ok hn h (lanes := lanesOf (active (128 / n) (s.p p)) ea n) lanesOf_mem
  have L := loadsLanes_of hx he
  rw [lanesOf_hit] at L
  refine ⟨_, L, fun j hj => ?_⟩
  unfold mergeLanes
  rw [el_ofLanes _ _ _ (lanes_width n) j hj]
  by_cases hp : (s.p p).getLsbD j = true
  · rw [if_pos hp, if_pos hp, laneValue_map _ (fun j => ({ s with free := s.free + j } : State).seenN s.self.agent (s.localAddr (ea j).toNat) n) j (mem_active hj hp)]
    have M := seen_mayRead s s.self.agent (s.localAddr (ea j).toNat) n (s.free + j)
    rw [el_mod n _ s _ _ M]
    exact M
  · rw [if_neg hp, if_neg hp, lane_el, Nat.mod_eq_of_lt (el_lt _ _ _)]
theorem vstore_ok {s : State} {i : Instr} {d a b : BitVec 5} {p : BitVec 3} {n : Nat} {ea : Nat → U64} (hn : 0 < n) (hn2 : n ≤ 8)
    (he : exec i s = s.vstore d a b n (lanesOf (active (128 / n) (s.p p)) ea n))
    (h : LanesPass s (s.g a) .w true true n (active (128 / n) (s.p p)) ea) :
    StoresLanes i s ((active (128 / n) (s.p p)).map (fun j => (laneOf s ea n true j, el (8 * n) (s.v d) j))) ((active (128 / n) (s.p p)).map bit) := by
  obtain ⟨t, e, a1, a2, a3, a4⟩ := saveLanes_ok (al2 := true) (first := s.x a + s.x b) (value := lane (8 * n) (s.v d)) h (fun h => h) hn (by omega) lanesOf_single
  rw [State.vstore, e] at he
  have hl : (lanesOf (active (128 / n) (s.p p)) ea n).map (fun x => (s.laneAcc x true, lane (8 * n) (s.v d) x.i)) = (active (128 / n) (s.p p)).map (fun j => (laneOf s ea n true j, el (8 * n) (s.v d) j)) := by
    unfold lanesOf; rw [List.map_map]
    apply List.map_congr_left
    intro j _
    exact congrArg _ (lane_el _ _ _)
  rw [hl] at a4
  rw [lanesOf_acc] at a2
  rw [lanesOf_hit] at a3
  refine storesLanes_of a1 ?_ ?_ a4 he
  · rw [List.map_map]; exact a2
  · rw [List.map_map, List.zip_map']; exact a3
theorem foldl_mask (l : List Nat) (m : Pred) (ea : Nat → U64) (n : Nat) (j : Nat) :
    ((l.map (fun i => Lane.single i (ea i) n)).foldl (fun m x => m ||| x.mask) m).getLsbD j = true ↔ m.getLsbD j = true ∨ (j < 128 ∧ j ∈ l) := by
  induction l generalizing m with
  | nil => simp
  | cons x l ih =>
    rw [List.map_cons, List.foldl_cons, ih, BitVec.getLsbD_or, Bool.or_eq_true]
    have : (Lane.single x (ea x) n).mask.getLsbD j = true ↔ j < 128 ∧ j = x := by
      unfold Lane.single
      simp only [BitVec.getLsbD_shiftLeft]
      by_cases h1 : j < 128
      · simp only [h1, decide_true, Bool.true_and, true_and]
        by_cases h2 : j < x
        · simp [h2]; omega
        · simp only [h2, decide_false, Bool.not_false, Bool.true_and]
          rw [BitVec.getLsbD_one]
          simp; omega
      · simp [h1]
    rw [this, List.mem_cons]
    tauto
theorem filter_head (l : List Nat) (bad : Nat → Bool) (hs : l.Pairwise (· < ·)) (j : Nat) (hj : j ∈ l) (hb : bad j = true) (hlt : ∀ m ∈ l, m < j → bad m = false) :
    ∃ r, l.filter bad = j :: r := by
  induction l with
  | nil => simp at hj
  | cons x l ih =>
    rw [List.pairwise_cons] at hs
    rcases List.mem_cons.1 hj with rfl | hj
    · exact ⟨_, List.filter_cons_of_pos hb⟩
    · have := hlt x (by simp) (hs.1 j hj)
      rw [List.filter_cons_of_neg (by simp [this])]
      exact ih hs.2 hj (fun m hm => hlt m (by simp [hm]))
theorem active_sorted (n : Nat) (p : Pred) : (active n p).Pairwise (· < ·) := List.Pairwise.filter _ List.pairwise_lt_range
theorem shapeRows_eq (w : U64) : shapeRows w = w.toNat % 2 ^ 8 + 1 := by
  unfold shapeRows; rw [BitVec.extractLsb'_toNat, Nat.shiftRight_zero]
theorem shapeCols_eq (w : U64) : shapeCols w = w.toNat / 2 ^ 8 % 2 ^ 8 + 1 := by
  unfold shapeCols; rw [BitVec.extractLsb'_toNat, Nat.shiftRight_eq_div_pow]
theorem shapeFmt_eq (w : U64) : shapeFmt w = w.toNat / 2 ^ 16 % 2 ^ 4 := by
  unfold shapeFmt; rw [BitVec.extractLsb'_toNat, Nat.shiftRight_eq_div_pow]
theorem tilePut_of (s u : State) (d : BitVec 3) (x : TileData) (z : Strip) (hc : u.cores = s.cores) (hs : u.self.core = s.self.core) : TilePut s (u.setTile d x z) d x z := by
  have hmy : u.myCore = s.myCore := by unfold State.myCore; rw [hs]; exact core_of_cores s u hc _
  have hput : ∀ k, (u.setTile d x z).core k = if k = s.self.core then { s.myCore with tiles := s.myCore.tiles.set d.toNat x d.isLt, strips := s.myCore.strips.set d.toNat z d.isLt } else s.core k := by
    intro k
    unfold State.setTile
    simp only [hmy]
    have hi : s.myCore.idx = s.self.core := core_idx s _
    by_cases h : k = s.self.core
    · rw [if_pos h, h]
      have := State.core_putCore u { s.myCore with tiles := s.myCore.tiles.set d.toNat x d.isLt, strips := s.myCore.strips.set d.toNat z d.isLt }
      rw [show ({ s.myCore with tiles := s.myCore.tiles.set d.toNat x d.isLt, strips := s.myCore.strips.set d.toNat z d.isLt } : Core).idx = s.self.core from hi] at this
      exact this
    · rw [if_neg h, State.core_putCore_other]
      · exact core_of_cores s u hc k
      · show k ≠ s.myCore.idx; rw [hi]; exact h
  have hself : (u.setTile d x z).self = u.self := rfl
  have hmy2 : (u.setTile d x z).myCore = { s.myCore with tiles := s.myCore.tiles.set d.toNat x d.isLt, strips := s.myCore.strips.set d.toNat z d.isLt } := by
    unfold State.myCore; rw [hself, hs, hput, if_pos rfl]; rfl
  refine ⟨fun e => ?_, fun e => ?_, fun e => ?_, fun k => ⟨?_, fun h => ?_⟩⟩
  · unfold State.tile; simp only [hmy2]
    rw [Vector.getElem_set]
    by_cases h : e = d
    · subst h; simp
    · rw [if_neg (fun h2 => h (BitVec.eq_of_toNat_eq h2.symm)), if_neg h]
  · unfold State.strip; simp only [hmy2]
    rw [Vector.getElem_set]
    by_cases h : e = d
    · subst h; simp
    · rw [if_neg (fun h2 => h (BitVec.eq_of_toNat_eq h2.symm)), if_neg h]
  · unfold State.shape; simp only [hmy2]
  · rw [hput]
    by_cases h : k = s.self.core
    · rw [if_pos h, h]; rfl
    · rw [if_neg h]
  · rw [hput, if_neg h]
theorem tile_loads {i : Instr} {s : State} {d : BitVec 3} {v : TileData} {z : Strip} {xs : List (Acc × Pred)} {f : Nat}
    (hx : ∀ x ∈ xs, x.1.write = false ∧ x.1.fetch = false ∧ 0 < x.1.size ∧ ∀ k, k < x.1.size → (s.phys (x.1.addr + k)).isSome)
    (h : exec i s = .next ((({ xs.foldl (fun v x => v.accessLane x.1 x.2 id) s with free := f } : State).setTile d v z).retire)) :
    ∃ t, exec i s = .next t ∧ Holds s t s.g s.v s.p s.self.flags ∧ Retired s t ∧ RecordedAll s t (xs.map Prod.fst)
        ∧ WatchedAll s t xs ∧ t = { s with self := t.self, recs := t.recs, cores := t.cores, free := t.free }
        ∧ TilePut s t d v z ∧ ∀ a, t.byteAt a = s.byteAt a ∧ t.tagAt a = s.tagAt a := by
  obtain ⟨A, R, W, a4, a5⟩ := loads_all xs s hx
  generalize xs.foldl (fun v x => v.accessLane x.1 x.2 id) s = t at *
  obtain ⟨H, T⟩ := holds_retire0 A
  have hcore : t.self.core = s.self.core := by obtain ⟨⟨k, w, e, -⟩, -⟩ := A; rw [e]
  have P := tilePut_of s { t with free := f } d v z (by rw [a4]) hcore
  refine ⟨_, h, H, T, R, W, ?_, P, fun a => ⟨?_, (a5 a).2⟩⟩
  · unfold State.retire State.setSelf State.setTile State.putCore
    simp only
    rw [a4]
  · refine Eq.trans (byteAt_self (({ t with free := f } : State).setTile d v z) _ a) ?_
    show ({ t with free := f } : State).byteAt a = _
    exact (byteAt_free t f a).trans (a5 a).1
theorem packRows_rows (L : List Nat) (f : Nat → Nat) (n : Nat) (hf : ∀ i ∈ L, f i < 2 ^ (8 * n)) (hw : 8 * n * L.length ≤ 65536) :
    (packRows n (L.map (fun i => (i, f i)))).toNat = packLanes (8 * n) (L.map f) := by
  unfold packRows
  rw [List.map_map, BitVec.toNat_ofNat]
  apply Nat.mod_eq_of_lt
  have := packLanes_lt (8 * n) (L.map f) (by intro x hx; obtain ⟨i, hi, rfl⟩ := List.mem_map.1 hx; exact hf i hi)
  rw [List.length_map] at this
  exact lt_of_lt_of_le this (Nat.pow_le_pow_right (by decide) hw)
theorem tile_stops (s : State) (d : BitVec 3) (x y : BitVec 5) :
    (s.self.idx ≠ 0 → ∀ i ∈ [Instr.tld d x y, .tst d x y, .tzero d, .tzp d x, .tgetzp d x y], exec i s = .next (s.trap 0x01 0))
    ∧ (s.self.idx = 0 → s.tileLocked s.self.core d = true → exec (.tzero d) s = .next (s.waitAlone (.tile d))) := by
  refine ⟨fun h => ?_, fun h hl => ?_⟩
  · have hslot : s.slotZero = .error (s.trap 0x01 0) := by unfold State.slotZero; rw [if_neg h]
    intro i hi
    simp only [List.mem_cons, List.mem_nil_iff, or_false] at hi
    rcases hi with rfl | rfl | rfl | rfl | rfl
    · show execTld d x y s = _; unfold execTld; rw [hslot]; rfl
    · show execTst d x y s = _; unfold execTst; rw [hslot]; rfl
    · show execTzero d s = _; unfold execTzero; rw [hslot]; rfl
    · show execTzp d x s = _; unfold execTzp; rw [hslot]; rfl
    · show execTgetzp d x y s = _; unfold execTgetzp; rw [hslot]; rfl
  · show execTzero d s = _
    unfold execTzero
    have hslot : s.slotZero = .ok () := by unfold State.slotZero; rw [if_pos h]
    have hu : s.unlocked d = .error (s.waitAlone (.tile d)) := by unfold State.unlocked; rw [hl]; rfl
    rw [hslot, hu]; rfl

end Sys2Proof
end

