-- ==== Sys2Proof/Laws/Numbers.lean ====
section
/-! SUPPORT. Laws of the numbers: reductions, conversions, quantisation, exact values over the rationals. -/
set_option Elab.async false
namespace Sys2Proof

open Machine Claims

/-! ### Reductions, conversions and quantisation -/

theorem fieldOf_laneBits (w : Nat) (v : Int) : laneBits w v = fieldOf w v := by
  have h := laneBits_mod w v
  unfold fieldOf
  have h2 : laneBits w v < 2 ^ w := by unfold laneBits; exact (BitVec.ofInt w v).isLt
  rw [← h, show ((laneBits w v : Int) % 2 ^ w) = ((laneBits w v % 2 ^ w : Nat) : Int) by push_cast; rfl, Int.toNat_natCast, Nat.mod_eq_of_lt h2]
theorem fieldOf_lt (w : Nat) (v : Int) : fieldOf w v < 2 ^ w := by
  rw [← fieldOf_laneBits]; unfold laneBits; exact (BitVec.ofInt w v).isLt
set_option exponentiation.threshold 2048 in
theorem ofLanes_lt (w n : Nat) (f : Nat → Nat) (h : w * n ≤ 1024) : (ofLanes w n f).toNat < 2 ^ (w * n) := by
  unfold ofLanes
  have hl : ∀ x ∈ (List.range n).map (fun i => f i % 2 ^ w), x < 2 ^ w := by
    intro x hx; obtain ⟨i, _, rfl⟩ := List.mem_map.1 hx; exact Nat.mod_lt _ (Nat.two_pow_pos _)
  have hn : ((List.range n).map (fun i => f i % 2 ^ w)).length = n := by simp
  rw [ofNat_pack w _ hl (by rw [hn]; exact h)]
  have := packLanes_lt w _ hl
  rwa [hn] at this
theorem cvt_width (n : Nat) : 4 ≤ (cvtType n).width := by
  unfold cvtType; split <;> decide
theorem active_raised {m : Nat} (hm : m ≤ 128) (f : Nat → Nat × FFlags) : raised m (BitVec.allOnes 128) f = (laneFlags m (BitVec.allOnes 128) f).bits := raised_eq _ _ _
theorem treeLevel_eq (m : RMode) (h : Nat) (x : Nat → FVal) :
    (treeLevel m ((List.range (2 * h)).map x)).1 = (List.range h).map (fun i => Fmt.f32.decode (addBits .f32 m (x i) (x (i + h))).1)
    ∧ ∀ j, (treeLevel m ((List.range (2 * h)).map x)).2.bits.getLsbD j = true ↔ ∃ i, i < h ∧ (addBits .f32 m (x i) (x (i + h))).2.bits.getLsbD j = true := by
  have e : (((List.range (2 * h)).map x).take h).zip (((List.range (2 * h)).map x).drop h) = (List.range h).map (fun i => (x i, x (i + h))) := by
    apply List.ext_getElem
    · simp; omega
    · intro i h1 h2
      simp at h1 h2 ⊢
      rw [Nat.add_comm]
  have hl : ((List.range (2 * h)).map x).length / 2 = h := by simp
  unfold treeLevel
  rw [hl]
  simp only [e]
  have h3 (l : List Nat) : (List.foldr (fun (xy : FVal × FVal) (acc : List FVal × FFlags) => (Fmt.f32.decode (addBits Fmt.f32 m xy.1 xy.2).1 :: acc.1, acc.2.or (addBits Fmt.f32 m xy.1 xy.2).2)) ([], FFlags.none)
      (List.map (fun i => (x i, x (i + h))) l)).1 = l.map (fun i => Fmt.f32.decode (addBits .f32 m (x i) (x (i + h))).1)
    ∧ ∀ j, (List.foldr (fun (xy : FVal × FVal) (acc : List FVal × FFlags) => (Fmt.f32.decode (addBits Fmt.f32 m xy.1 xy.2).1 :: acc.1, acc.2.or (addBits Fmt.f32 m xy.1 xy.2).2)) ([], FFlags.none)
      (List.map (fun i => (x i, x (i + h))) l)).2.bits.getLsbD j = true ↔ ∃ i ∈ l, (addBits .f32 m (x i) (x (i + h))).2.bits.getLsbD j = true := by
    induction l with
    | nil => exact ⟨rfl, fun j => by simp [none_bits]⟩
    | cons y l ih =>
      simp only [List.map_cons, List.foldr_cons]
      refine ⟨by rw [ih.1], fun j => ?_⟩
      rw [or_bits, BitVec.getLsbD_or, Bool.or_eq_true, ih.2 j]
      simp [or_comm]
  refine ⟨(h3 _).1, fun j => ?_⟩
  rw [(h3 _).2 j]
  simp
theorem treeSum_eq (m : RMode) (L : Nat) (x : Nat → FVal) (k : Nat) (hk : k ≤ L) (f : FFlags) :
    (treeSum m k ((List.range (2 ^ k)).map (tree m (2 ^ L) x (L - k))) f).1 = tree m (2 ^ L) x L 0
    ∧ ∀ j, (treeSum m k ((List.range (2 ^ k)).map (tree m (2 ^ L) x (L - k))) f).2.bits.getLsbD j = true ↔ f.bits.getLsbD j = true ∨
        ∃ q i, L - k ≤ q ∧ q < L ∧ i < 2 ^ L / 2 ^ (q + 1)
          ∧ (addBits .f32 m (tree m (2 ^ L) x q i) (tree m (2 ^ L) x q (i + 2 ^ L / 2 ^ (q + 1)))).2.bits.getLsbD j = true := by
  induction k generalizing f with
  | zero =>
    refine ⟨?_, fun j => ?_⟩
    · simp [treeSum]
    · simp only [treeSum]
      constructor
      · exact .inl
      · rintro (h | ⟨q, i, h1, h2, -⟩)
        · exact h
        · omega
  | succ k ih =>
    have h2k : 2 ^ (k + 1) = 2 * 2 ^ k := by rw [Nat.pow_succ, Nat.mul_comm]
    have hd : 2 ^ L / 2 ^ (L - (k + 1) + 1) = 2 ^ k := by
      rw [show L - (k + 1) + 1 = L - k by omega, Nat.pow_div (by omega) (by decide)]; congr 1; omega
    have e := treeLevel_eq m (2 ^ k) (tree m (2 ^ L) x (L - (k + 1)))
    have e1 : (List.range (2 ^ k)).map (fun i => Fmt.f32.decode (addBits .f32 m (tree m (2 ^ L) x (L - (k + 1)) i) (tree m (2 ^ L) x (L - (k + 1)) (i + 2 ^ k))).1)
        = (List.range (2 ^ k)).map (tree m (2 ^ L) x (L - k)) := by
      apply List.map_congr_left
      intro i _
      rw [show L - k = (L - (k + 1)) + 1 by omega, tree, hd]
    rw [treeSum, h2k]
    rw [e.1, e1]
    refine ⟨(ih (by omega) _).1, fun j => ?_⟩
    rw [(ih (by omega) _).2 j, or_bits, BitVec.getLsbD_or, Bool.or_eq_true, e.2 j]
    constructor
    · rintro ((h | ⟨i, h1, h3⟩) | ⟨q, i, h1, h3, h4, h5⟩)
      · exact .inl h
      · exact .inr ⟨L - (k + 1), i, le_refl _, by omega, by rw [hd]; exact h1, by rw [hd]; exact h3⟩
      · exact .inr ⟨q, i, by omega, h3, h4, h5⟩
    · rintro (h | ⟨q, i, h1, h3, h4, h5⟩)
      · exact .inl (.inl h)
      · by_cases hq : q = L - (k + 1)
        · subst hq
          rw [hd] at h4 h5
          exact .inl (.inr ⟨i, h4, h5⟩)
        · exact .inr ⟨q, i, by omega, h3, h4, h5⟩
theorem fmtOf_lanes (e : BitVec 2) : ∃ L, 1024 / (fmtOf e).width = 2 ^ L := by
  unfold fmtOf; split
  · exact ⟨5, by decide⟩
  · split
    · exact ⟨6, by decide⟩
    · exact ⟨6, by decide⟩
/-- The greatest so far. -/
def Best (l : List Nat) (r : Nat) : Prop :=
  ((∀ z ∈ l, (Fmt.f32.decode z).isNan = true) → (Fmt.f32.decode r).isNan = true)
  ∧ ((∃ z ∈ l, (Fmt.f32.decode z).isNan = false) → r ∈ l ∧ (Fmt.f32.decode r).isNan = false
          ∧ ∀ z ∈ l, ¬below (Fmt.f32.decode r) (Fmt.f32.decode z) ∧ (alike (Fmt.f32.decode r) (Fmt.f32.decode z) → (Fmt.f32.decode r).sign = true → (Fmt.f32.decode z).sign = true))
theorem nan_nan : (Fmt.f32.decode Fmt.f32.nan).isNan = true := by decide
theorem ord_trans (x y z : FVal) (h : ¬below y x ∧ (alike y x → y.sign = true → x.sign = true)) (h2 : ¬below z y ∧ (alike z y → z.sign = true → y.sign = true))
    (hx : x.isNan = false) (hy : y.isNan = false) (hz : z.isNan = false) : ¬below z x ∧ (alike z x → z.sign = true → x.sign = true) := by
  cases x <;> cases y <;> cases z <;> simp only [FVal.isNan, reduceCtorEq] at hx hy hz <;> dsimp only [below, alike, FVal.sign] at h h2 ⊢
  case inf.inf.inf a b c => cases a <;> cases b <;> cases c <;> simp at h h2 ⊢
  case inf.inf.fin a b c _ _ => cases a <;> cases b <;> cases c <;> simp at h h2 ⊢
  case inf.fin.inf a b _ _ c => cases a <;> cases b <;> cases c <;> simp at h h2 ⊢
  case inf.fin.fin a b _ _ c _ _ => cases a <;> cases b <;> cases c <;> simp at h h2 ⊢
  case fin.inf.inf a _ _ b c => cases a <;> cases b <;> cases c <;> simp at h h2 ⊢
  case fin.inf.fin a _ _ b c _ _ => cases a <;> cases b <;> cases c <;> simp at h h2 ⊢
  case fin.fin.inf a _ _ b _ _ c => cases a <;> cases b <;> cases c <;> simp at h h2 ⊢
  case fin.fin.fin a m e b n k c l q =>
    generalize valQ (.fin a m e) = u at *
    generalize valQ (.fin b n k) = v at *
    generalize valQ (.fin c l q) = w at *
    refine ⟨fun h3 => ?_, fun h3 h4 => ?_⟩
    · have := h.1; have := h2.1; push Not at *; linarith
    · have h5 := h.1; have h6 := h2.1; push Not at h5 h6
      have h7 : w = v := le_antisymm (by linarith) (by linarith)
      exact h.2 (by rw [← h7, h3]) (h2.2 h7 h4)
theorem max_step (u w : Nat) :
    let r := (minMaxBits .f32 true u w).1
    ((Fmt.f32.decode u).isNan = true → (Fmt.f32.decode w).isNan = true → r = Fmt.f32.nan)
    ∧ ((Fmt.f32.decode u).isNan = true → (Fmt.f32.decode w).isNan = false → r = w)
    ∧ ((Fmt.f32.decode u).isNan = false → (Fmt.f32.decode w).isNan = true → r = u)
    ∧ ((Fmt.f32.decode u).isNan = false → (Fmt.f32.decode w).isNan = false → 
       (r = u ∧ ¬below (Fmt.f32.decode u) (Fmt.f32.decode w) ∧ (alike (Fmt.f32.decode u) (Fmt.f32.decode w) → (Fmt.f32.decode u).sign = true → (Fmt.f32.decode w).sign = true))
       ∨ (r = w ∧ ¬below (Fmt.f32.decode w) (Fmt.f32.decode u) ∧ (alike (Fmt.f32.decode w) (Fmt.f32.decode u) → (Fmt.f32.decode w).sign = true → (Fmt.f32.decode u).sign = true))) := by
  intro r
  have hr : r = (minMaxBits .f32 true u w).1 := rfl
  rw [hr]
  unfold minMaxBits
  simp only
  refine ⟨fun h h2 => ?_, fun h h2 => ?_, fun h h2 => ?_, fun h h2 => ?_⟩
  · rw [h, h2]; rfl
  · rw [h, h2]; rfl
  · rw [h, h2]; rfl
  · rw [h, h2]
    simp only [Bool.false_and, Bool.false_eq_true, if_false, if_true]
    obtain ⟨c1, c2, c3⟩ := cmpVal_cases (Fmt.f32.decode u) (Fmt.f32.decode w) h h2
    obtain ⟨d1, d2, d3⟩ := cmpVal_cases (Fmt.f32.decode w) (Fmt.f32.decode u) h2 h
    have e : alike (Fmt.f32.decode w) (Fmt.f32.decode u) ↔ alike (Fmt.f32.decode u) (Fmt.f32.decode w) := by
      cases Fmt.f32.decode u <;> cases Fmt.f32.decode w <;> simp only [alike] <;> exact eq_comm
    rw [e, c1, c2, c3]
    generalize cmpVal (Fmt.f32.decode u) (Fmt.f32.decode w) = c
    rcases lt_trichotomy c 0 with h3 | h3 | h3
    · have : ¬c = 0 := by omega
      have : ¬0 < c := by omega
      simp [*]
    · subst h3; cases (Fmt.f32.decode u).sign <;> cases (Fmt.f32.decode w).sign <;> simp
    · have : ¬c = 0 := by omega
      have : ¬c < 0 := by omega
      simp [*]
theorem scale_val (n : Bool) (m : Nat) (e : Int) : ((if n then -1 else 1) * (scaleNum m e : ℚ) / scaleDen e) = valQ (.fin n m e) := by
  unfold scaleNum scaleDen valQ
  by_cases h : 0 ≤ e
  · rw [if_pos h, if_pos h]
    push_cast
    rw [show (2 : ℚ) ^ e = 2 ^ e.toNat by rw [← zpow_natCast, Int.toNat_of_nonneg h]]
    ring
  · rw [if_neg h, if_neg h]
    push_cast
    rw [show (2 : ℚ) ^ e = ((2 : ℚ) ^ (-e).toNat)⁻¹ by rw [← zpow_natCast, Int.toNat_of_nonneg (by omega), zpow_neg, inv_inv]]
    ring
theorem scaleNum_pos {m : Nat} {e : Int} (h : 0 < m) : 0 < scaleNum m e := by unfold scaleNum; split <;> positivity
theorem scaleDen_pos (e : Int) : 0 < scaleDen e := by unfold scaleDen; split <;> positivity
theorem roundRat_val (h : Obligations.rounding) (f : Fmt) (hf : f ∈ fmts) (mode : RMode) (n : Bool) (m : Nat) (e : Int) (hm : m ≠ 0) :
    Rounded f mode (valQ (.fin n m e)) (roundRat f mode n (scaleNum m e) (scaleDen e)) := by
  have := h f hf mode n _ _ (scaleNum_pos (e := e) (Nat.pos_of_ne_zero hm)) (scaleDen_pos e)
  rwa [scale_val] at this
theorem quiet_f32 (h : Obligations.rounding) (f : Fmt) (b : Nat) :
    ((Fmt.f32.decode (widened f b)).isSig = false) ∧ ((convertFF f .f32 .rne false b).2.nv = (f.decode b).isSig) ∧ (Fmt.f32.decode (widened f b)).isNan = (f.decode b).isNan
    ∧ ((f.decode b).isNan = true → widened f b = Fmt.f32.nan) := by
  unfold widened convertFF
  cases hd : f.decode b with
  | nan q => cases q <;> exact ⟨by decide, rfl, by decide, fun _ => rfl⟩
  | inf n => cases n <;> exact ⟨by decide, rfl, by decide, fun h => by cases h⟩
  | fin n m e =>
    by_cases hm : m = 0
    · simp only [hm, if_true]
      cases n <;> exact ⟨by decide, rfl, (by decide : _ = false), fun h => by cases h⟩
    · have hr := roundRat_val h .f32 (by simp [fmts]) .rne n m e hm
      simp only [hm, if_false]
      rw [show (decide (Fmt.f32.width = 8)) = false by decide]
      simp only [Bool.false_and, Bool.false_eq_true, if_false]
      generalize roundRat .f32 .rne n (scaleNum m e) (scaleDen e) = r at hr ⊢
      obtain ⟨h1, -, h3, h4⟩ := hr
      refine ⟨?_, h1, ?_, fun h => by cases h⟩
      all_goals
        show _ = false
        cases ho : r.2.ofl
        · obtain ⟨⟨y, ⟨-, n', m', e', hd', -⟩, -⟩, -⟩ := h3 ho
          rw [hd']; rfl
        · have := (h4 ho).2.2.1
          rw [this]
          unfold overflowed
          rw [if_pos (.inl rfl)]
          cases decide (valQ (FVal.fin n m e) < 0) <;> decide
theorem nan_rel (x y : FVal) (h : x.isNan = true) : ¬below x y ∧ ¬below y x ∧ ¬alike x y ∧ ¬alike y x := by
  cases x with
  | nan q => cases y <;> simp [below, alike]
  | inf a => cases h
  | fin a m e => cases h
theorem self_rel (x : FVal) : ¬below x x := by
  cases x with
  | nan q => simp [below]
  | inf a => cases a <;> simp [below]
  | fin a m e => simp [below]
theorem best_step {l : List Nat} {r w : Nat} (h : Best l r) (hl : l ≠ []) : Best (l ++ [w]) (minMaxBits .f32 true r w).1 := by
  obtain ⟨h1, h2⟩ := h
  obtain ⟨m1, m2, m3, m4⟩ := max_step r w
  by_cases hn : ∃ z ∈ l, (Fmt.f32.decode z).isNan = false
  · obtain ⟨hm, hr, hb⟩ := h2 hn
    refine ⟨fun ha => ?_, fun _ => ?_⟩
    · obtain ⟨z, hz, hz2⟩ := hn
      rw [ha z (by simp [hz])] at hz2; cases hz2
    · cases hw : (Fmt.f32.decode w).isNan with
      | true =>
        rw [m3 hr hw]
        refine ⟨by simp [hm], hr, fun z hz => ?_⟩
        rcases List.mem_append.1 hz with hz | hz
        · exact hb z hz
        · rw [List.mem_singleton.1 hz]
          obtain ⟨-, n2, -, n4⟩ := nan_rel _ (Fmt.f32.decode r) hw
          exact ⟨n2, fun h => absurd h n4⟩
      | false =>
        rcases m4 hr hw with ⟨e, hx⟩ | ⟨e, hx⟩
        · rw [e]
          refine ⟨by simp [hm], hr, fun z hz => ?_⟩
          rcases List.mem_append.1 hz with hz | hz
          · exact hb z hz
          · rw [List.mem_singleton.1 hz]; exact hx
        · rw [e]
          refine ⟨by simp, hw, fun z hz => ?_⟩
          rcases List.mem_append.1 hz with hz | hz
          · cases hzn : (Fmt.f32.decode z).isNan with
            | true => obtain ⟨-, n2, -, n4⟩ := nan_rel _ (Fmt.f32.decode w) hzn; exact ⟨n2, fun h => absurd h n4⟩
            | false => exact ord_trans _ _ _ (hb z hz) hx hzn hr hw
          · rw [List.mem_singleton.1 hz]
            exact ⟨self_rel _, fun _ h => h⟩
  · have ha : ∀ z ∈ l, (Fmt.f32.decode z).isNan = true := by
      intro z hz; by_contra hc; exact hn ⟨z, hz, by simpa using hc⟩
    have hr := h1 ha
    cases hw : (Fmt.f32.decode w).isNan with
    | true =>
      rw [m1 hr hw]
      refine ⟨fun _ => nan_nan, ?_⟩
      rintro ⟨z, hz, hz2⟩
      rcases List.mem_append.1 hz with hz | hz
      · rw [ha z hz] at hz2; cases hz2
      · rw [List.mem_singleton.1 hz, hw] at hz2; cases hz2
    | false =>
      rw [m2 hr hw]
      refine ⟨fun h => ?_, fun _ => ⟨by simp, hw, fun z hz => ?_⟩⟩
      · have := h w (by simp); rw [hw] at this; cases this
      · rcases List.mem_append.1 hz with hz | hz
        · obtain ⟨-, n2, -, n4⟩ := nan_rel _ (Fmt.f32.decode w) (ha z hz); exact ⟨n2, fun h => absurd h n4⟩
        · rw [List.mem_singleton.1 hz]
          exact ⟨self_rel _, fun _ h => h⟩
theorem invalid_bits (b : Bool) : (invalid b).bits = (nvIf b).2.bits := rfl
theorem decode_bounds (f : Fmt) (hf : f ∈ fmts) (b : Nat) (n : Bool) (m : Nat) (e : Int) (h : f.decode b = .fin n m e) : m < 2 ^ 24 ∧ -149 ≤ e ∧ (e ≤ 104 ∨ (e ≤ 120 ∧ m < 2 ^ 8)) := by
  have h1 : b % 2 ^ f.mw < 2 ^ f.mw := Nat.mod_lt _ (Nat.two_pow_pos _)
  have h2 : b / 2 ^ f.mw % 2 ^ f.ew < 2 ^ f.ew := Nat.mod_lt _ (Nat.two_pow_pos _)
  unfold Fmt.decode at h
  simp only at h
  generalize b % 2 ^ f.mw = u at h h1
  generalize b / 2 ^ f.mw % 2 ^ f.ew = w at h h2
  simp only [fmts, List.mem_cons, List.mem_nil_iff, or_false] at hf
  have key : (m = u ∧ e = f.minQ) ∨ (m = 2 ^ f.mw + u ∧ e = (w : Int) - f.bias - f.mw ∧ (f.ieee = true → w ≠ 2 ^ f.ew - 1) ∧ w ≠ 0) := by
    split at h
    · split at h <;> cases h
    · rename_i c1
      split at h
      · cases h
      · split at h
        · cases h; exact .inl ⟨rfl, rfl⟩
        · rename_i c3; cases h; exact .inr ⟨rfl, rfl, fun hi hw => c1 ⟨hi, hw⟩, c3⟩
  rcases hf with rfl | rfl | rfl | rfl | rfl
  · change u < 2 ^ 23 at h1; change w < 2 ^ 8 at h2; change (m = u ∧ e = 1 - 127 - 23) ∨ (m = 2 ^ 23 + u ∧ e = w - 127 - 23 ∧ (true = true → w ≠ 2 ^ 8 - 1) ∧ w ≠ 0) at key
    norm_num at h1 h2 key ⊢; omega
  · change u < 2 ^ 10 at h1; change w < 2 ^ 5 at h2; change (m = u ∧ e = 1 - 15 - 10) ∨ (m = 2 ^ 10 + u ∧ e = w - 15 - 10 ∧ (true = true → w ≠ 2 ^ 5 - 1) ∧ w ≠ 0) at key
    norm_num at h1 h2 key ⊢; omega
  · change u < 2 ^ 7 at h1; change w < 2 ^ 8 at h2; change (m = u ∧ e = 1 - 127 - 7) ∨ (m = 2 ^ 7 + u ∧ e = w - 127 - 7 ∧ (true = true → w ≠ 2 ^ 8 - 1) ∧ w ≠ 0) at key
    norm_num at h1 h2 key ⊢; omega
  · change u < 2 ^ 3 at h1; change w < 2 ^ 4 at h2; change (m = u ∧ e = 1 - 7 - 3) ∨ (m = 2 ^ 3 + u ∧ e = w - 7 - 3 ∧ (false = true → w ≠ 2 ^ 4 - 1) ∧ w ≠ 0) at key
    norm_num at h1 h2 key ⊢; omega
  · change u < 2 ^ 2 at h1; change w < 2 ^ 5 at h2; change (m = u ∧ e = 1 - 15 - 2) ∨ (m = 2 ^ 2 + u ∧ e = w - 15 - 2 ∧ (true = true → w ≠ 2 ^ 5 - 1) ∧ w ≠ 0) at key
    norm_num at h1 h2 key ⊢; omega
theorem log2_scale (m k : Nat) (hm : 0 < m) : Nat.log2 (m * 2 ^ k) = Nat.log2 m + k := by
  induction k with
  | zero => simp
  | succ k ih =>
    have hk : m * 2 ^ k ≠ 0 := by positivity
    rw [Nat.log2_eq_log_two] at ih ⊢
    rw [Nat.pow_succ, ← Nat.mul_assoc, Nat.log_mul_base (by decide) hk, ih]; rfl
theorem ratLog2_le (m : Nat) (e : Int) (hm : 0 < m) : ratLog2 (scaleNum m e) (scaleDen e) ≤ Nat.log2 m + e := by
  have h : (Nat.log2 (scaleNum m e) : Int) - Nat.log2 (scaleDen e) = Nat.log2 m + e := by
    unfold scaleNum scaleDen
    by_cases he : 0 ≤ e
    · rw [if_pos he, if_pos he, log2_scale _ _ hm, show Nat.log2 1 = 0 by decide]; omega
    · have h2 : Nat.log2 (2 ^ (-e).toNat) = (-e).toNat := by have := log2_scale 1 (-e).toNat (by decide); rw [Nat.one_mul] at this; rw [this, show Nat.log2 1 = 0 by decide, Nat.zero_add]
      rw [if_neg he, if_neg he, h2]; omega
  unfold ratLog2
  simp only
  rw [h]
  split <;> omega
theorem exact_div (m : Nat) (e q : Int) (h : q ≤ e) : scaleNum (scaleNum m e) (-q) % (scaleDen e * scaleNum 1 q) = 0 := by
  apply Nat.mod_eq_zero_of_dvd
  have h1 : ∃ a b : Nat, scaleNum m e = m * 2 ^ a ∧ scaleDen e = 2 ^ b ∧ (a : Int) - b = e := by
    unfold scaleNum scaleDen
    by_cases he : 0 ≤ e
    · exact ⟨e.toNat, 0, by rw [if_pos he], by rw [if_pos he]; rfl, by omega⟩
    · exact ⟨0, (-e).toNat, by rw [if_neg he]; simp, by rw [if_neg he], by omega⟩
  obtain ⟨a, b, h1, h2, h3⟩ := h1
  have h4 : ∃ c d : Nat, scaleNum (scaleNum m e) (-q) = scaleNum m e * 2 ^ c ∧ scaleNum 1 q = 2 ^ d ∧ (d : Int) - c = q := by
    generalize scaleNum m e = x
    unfold scaleNum
    by_cases hq : 0 ≤ q
    · by_cases h0 : q = 0
      · subst h0; exact ⟨0, 0, by simp, by simp, by simp⟩
      · exact ⟨0, q.toNat, by rw [if_neg (by omega)]; simp, by rw [if_pos hq, Nat.one_mul], by omega⟩
    · exact ⟨(-q).toNat, 0, by rw [if_pos (by omega)], by rw [if_neg hq]; rfl, by omega⟩
  obtain ⟨c, d, h4, h5, h6⟩ := h4
  rw [h4, h1, h2, h5, Nat.mul_assoc, ← Nat.pow_add, ← Nat.pow_add]
  exact dvd_mul_of_dvd_right (Nat.pow_dvd_pow _ (by omega)) _
theorem widen_exact (h : Obligations.rounding) (f : Fmt) (hf : f ∈ fmts) (b : Nat) (n : Bool) (m : Nat) (e : Int) (mode : RMode)
    (hd : f.decode b = .fin n m e) (hm : m ≠ 0) :
    (roundRat .f32 mode n (scaleNum m e) (scaleDen e)).2 = .none ∧ FiniteAt .f32 (roundRat .f32 mode n (scaleNum m e) (scaleDen e)).1 (valQ (.fin n m e)) := by
  obtain ⟨b1, b2, b3⟩ := decode_bounds f hf b n m e hd
  have hp := Nat.pos_of_ne_zero hm
  have hl := ratLog2_le m e hp
  have hlog : Nat.log2 m < 24 := (Nat.log2_lt hm).2 b1
  have hq : max (ratLog2 (scaleNum m e) (scaleDen e) - Fmt.f32.mw) Fmt.f32.minQ ≤ e := by
    apply max_le
    · show _ - 23 ≤ e; omega
    · show (1 - 127 - 23 : Int) ≤ e; omega
  have hx : (roundRat .f32 mode n (scaleNum m e) (scaleDen e)).2.ofl = false → (roundRat .f32 mode n (scaleNum m e) (scaleDen e)).2.nx = false ∧ (roundRat .f32 mode n (scaleNum m e) (scaleDen e)).2.ufl = false := by
    unfold roundRat
    simp only
    split
    · intro h; cases h
    · intro _
      have := exact_div m e _ hq
      unfold roundQuot
      simp only [this]
      constructor <;> simp
  have hr := roundRat_val h .f32 (by simp [fmts]) mode n m e hm
  generalize roundRat .f32 mode n (scaleNum m e) (scaleDen e) = r at hr hx ⊢
  obtain ⟨h1, h2, h3, h4⟩ := hr
  have ho : r.2.ofl = false := by
    by_contra hc
    have hb := (h4 (by simpa using hc)).2.2.2 0x7F7FFFFF (valQ (.fin false (2 ^ 24 - 1) 104)) ⟨by decide, _, _, _, by decide, rfl⟩
    have e1 : |valQ (.fin n m e)| = m * (2 : ℚ) ^ e := by
      unfold valQ; rw [abs_mul, abs_mul, abs_of_pos (a := (2 : ℚ) ^ e) (by positivity), abs_of_nonneg (a := (m : ℚ)) (by positivity)]
      cases n <;> simp
    have e3 : (m : ℚ) ≤ 2 ^ 24 - 1 := by
      have : m ≤ 2 ^ 24 - 1 := by omega
      have := (Nat.cast_le (α := ℚ)).2 this
      rw [Nat.cast_sub (by decide)] at this; push_cast at this; exact this
    rw [e1] at hb
    have : |valQ (.fin false (2 ^ 24 - 1) 104)| = (2 ^ 24 - 1) * (2 : ℚ) ^ (104 : Int) := by unfold valQ; norm_num
    rw [this] at hb
    have : (m : ℚ) * (2 : ℚ) ^ e ≤ (2 ^ 24 - 1) * (2 : ℚ) ^ (104 : Int) := by
      rcases b3 with b3 | ⟨b3, b4⟩
      · have e2 : (2 : ℚ) ^ e ≤ 2 ^ (104 : Int) := zpow_le_zpow_right₀ (by norm_num) b3
        exact mul_le_mul e3 e2 (by positivity) (by norm_num)
      · have e2 : (2 : ℚ) ^ e ≤ 2 ^ (120 : Int) := zpow_le_zpow_right₀ (by norm_num) b3
        have e4 : (m : ℚ) ≤ 2 ^ 8 - 1 := by
          have : m ≤ 2 ^ 8 - 1 := by omega
          have := (Nat.cast_le (α := ℚ)).2 this
          rw [Nat.cast_sub (by decide)] at this; push_cast at this; exact this
        refine le_trans (mul_le_mul e4 e2 (by positivity) (by norm_num)) ?_
        norm_num
    linarith
  obtain ⟨f1, f2⟩ := hx ho
  obtain ⟨-, g2, -⟩ := h3 ho
  refine ⟨?_, ?_⟩
  · obtain ⟨r1, nv, dz, ofl, ufl, nx⟩ := r
    simp only at h1 h2 ho f1 f2
    subst h1 h2 ho f1 f2
    rfl
  · by_contra hc
    rw [g2.2 hc] at f1; cases f1
theorem widen_flags (h : Obligations.rounding) (f : Fmt) (hf : f ∈ fmts) (b : Nat) : (convertFF f .f32 .rne false b).2 = invalid (f.decode b).isSig := by
  unfold convertFF
  cases hd : f.decode b with
  | nan q => rfl
  | inf n => rfl
  | fin n m e =>
    by_cases hm : m = 0
    · simp only [hm, if_true]; rfl
    · simp only [hm, if_false]
      rw [show (decide (Fmt.f32.width = 8)) = false by decide]
      simp only [Bool.false_and, Bool.false_eq_true, if_false]
      rw [(widen_exact h f hf b n m e .rne hd hm).1]; rfl
theorem or_invalid (a b : Bool) : (invalid a).or (invalid b) = invalid (a || b) := by cases a <;> cases b <;> rfl
theorem minMax_flags (f : Fmt) (c : Bool) (u w : Nat) : (minMaxBits f c u w).2 = invalid ((f.decode u).isSig || (f.decode w).isSig) := by
  unfold minMaxBits
  simp only
  split
  · rfl
  · split
    · rfl
    · split <;> rfl
theorem max_quiet (r w : Nat) (hw : (Fmt.f32.decode w).isSig = false) : (Fmt.f32.decode (minMaxBits .f32 true r w).1).isSig = false := by
  obtain ⟨m1, m2, m3, m4⟩ := max_step r w
  have hq (x : FVal) (h : x.isNan = false) : x.isSig = false := by cases x <;> first | rfl | cases h
  cases hr : (Fmt.f32.decode r).isNan <;> cases hn : (Fmt.f32.decode w).isNan
  · rcases m4 hr hn with ⟨e, -⟩ | ⟨e, -⟩ <;> rw [e]
    · exact hq _ hr
    · exact hw
  · rw [m3 hr hn]; exact hq _ hr
  · rw [m2 hr hn]; exact hw
  · rw [m1 hr hn]; decide
theorem max_fold (h : Obligations.rounding) (f : Fmt) (hf : f ∈ fmts) (l : List Nat) (L : List Nat) (hL : L ≠ []) (r : Nat) (sg : Bool) (hb : Best L r) :
    let R := (l.map (convertFF f .f32 .rne false)).foldl (fun (acc : Nat × FFlags) x => ((minMaxBits .f32 true acc.1 x.1).1, (acc.2.or x.2).or (minMaxBits .f32 true acc.1 x.1).2)) (r, invalid sg)
    Best (L ++ l.map (widened f)) R.1 ∧ R.2 = invalid (sg || (!l.isEmpty && (Fmt.f32.decode r).isSig) || l.any (fun b => (f.decode b).isSig))
    ∧ (l ≠ [] → (∀ z ∈ L ++ l.map (widened f), (Fmt.f32.decode z).isNan = true) → R.1 = Fmt.f32.nan) := by
  induction l generalizing L r sg with
  | nil => refine ⟨by simpa using hb, by simp, fun h => absurd rfl h⟩
  | cons b l ih =>
    intro R
    obtain ⟨q1, -, q3, -⟩ := quiet_f32 h f b
    have hs := best_step (w := widened f b) hb hL
    have i := ih (L ++ [widened f b]) (by simp) (minMaxBits .f32 true r (widened f b)).1 (sg || (f.decode b).isSig || (Fmt.f32.decode r).isSig) hs
    have hR : R = (l.map (convertFF f .f32 .rne false)).foldl (fun (acc : Nat × FFlags) x => ((minMaxBits .f32 true acc.1 x.1).1, (acc.2.or x.2).or (minMaxBits .f32 true acc.1 x.1).2))
        ((minMaxBits .f32 true r (widened f b)).1, invalid (sg || (f.decode b).isSig || (Fmt.f32.decode r).isSig)) := by
      have e : ((invalid sg).or (convertFF f .f32 .rne false b).2).or (minMaxBits .f32 true r (widened f b)).2 = invalid (sg || (f.decode b).isSig || (Fmt.f32.decode r).isSig) := by
        rw [widen_flags h f hf, minMax_flags, or_invalid, or_invalid, q1, Bool.or_false]
      rw [← e]; rfl
    rw [← hR] at i
    obtain ⟨i1, i2, i3⟩ := i
    rw [List.append_assoc] at i1 i3
    refine ⟨i1, ?_, fun _ ha => ?_⟩
    · rw [i2, max_quiet r _ q1]
      congr 1
      rw [List.any_cons]
      show _ = (sg || (true && (Fmt.f32.decode r).isSig) || _)
      cases sg <;> cases (f.decode b).isSig <;> cases (Fmt.f32.decode r).isSig <;> cases l.any (fun b => (f.decode b).isSig) <;> simp
    · by_cases hl : l = []
      · subst hl
        rw [hR]
        show (minMaxBits .f32 true r (widened f b)).1 = _
        obtain ⟨m1, -⟩ := max_step r (widened f b)
        exact m1 (hb.1 (fun z hz => ha z (by simp [hz]))) (ha _ (by simp))
      · exact i3 hl ha
theorem code_eq (f : BitVec 2) : quantBits f = (if f.getLsbD 0 = true then 4 else 8) := by unfold quantBits; cases f.getLsbD 0 <;> rfl
theorem asInt_lane (b : Nat) (g : Bool) (v : Nat) (h : v < 2 ^ b) : laneInt g b v = asInt b g v := by
  unfold laneInt asInt
  cases g with
  | true => simp only [if_true]; exact signedAt_lane b v h
  | false => simp only [Bool.false_eq_true, if_false]; rw [Nat.mod_eq_of_lt h]
theorem or_none (a : FFlags) : a.or .none = a := by cases a; simp [FFlags.or, FFlags.none]
theorem none_or (a : FFlags) : FFlags.none.or a = a := by cases a; rfl
theorem foldl_or_const (l : List Nat) (f : Nat → FFlags) (c z : FFlags) (h : ∀ i ∈ l, f i = c) : l.foldl (fun fl i => fl.or (f i)) z = if l = [] then z else z.or c := by
  induction l generalizing z with
  | nil => rfl
  | cons x l ih =>
    rw [List.foldl_cons, ih _ (fun i hi => h i (by simp [hi])), h x (by simp)]
    rw [if_neg (List.cons_ne_nil x l)]
    by_cases hl : l = []
    · rw [if_pos hl]
    · rw [if_neg hl]
      cases z; cases c; simp [FFlags.or]
theorem foldl_or_inv (l : List Nat) (f : Nat → Bool) (z : Bool) : l.foldl (fun fl i => fl.or (invalid (f i))) (invalid z) = invalid (z || l.any f) := by
  induction l generalizing z with
  | nil => simp
  | cons x l ih => rw [List.foldl_cons, or_invalid, ih, List.any_cons, Bool.or_assoc]
/-- Registers written in turn. -/
theorem setV_fold (t : State) (d : BitVec 5) (reg : Nat → Vec) (n : Nat) (hn : n ≤ 32) :
    ∃ v', (List.range n).foldl (fun t k => t.setV (d + BitVec.ofNat 5 k) (reg k)) t = { t with self := { t.self with v := v' } }
      ∧ ∀ k : BitVec 5, v'[k.toNat] = if (k - d).toNat < n then reg (k - d).toNat else t.self.v[k.toNat] := by
  induction n with
  | zero => exact ⟨t.self.v, rfl, fun k => by simp⟩
  | succ n ih =>
    obtain ⟨v', h1, h2⟩ := ih (by omega)
    refine ⟨v'.set (d + BitVec.ofNat 5 n).toNat (reg n) (by omega), ?_, fun k => ?_⟩
    · rw [List.range_succ, List.foldl_append, h1]; rfl
    · rw [Vector.getElem_set]
      have hk : (d + BitVec.ofNat 5 n).toNat = k.toNat ↔ (k - d).toNat = n := by
        rw [BitVec.toNat_inj]
        constructor
        · intro h
          have : k - d = BitVec.ofNat 5 n := by rw [← h]; bv_omega
          rw [this, BitVec.toNat_ofNat]; omega
        · intro h
          apply BitVec.eq_of_toNat_eq
          subst h
          rw [BitVec.ofNat_toNat, BitVec.setWidth_eq]
          bv_omega
      by_cases hc : (k - d).toNat = n
      · rw [if_pos (hk.2 hc), if_pos (by omega), hc]
      · rw [if_neg (fun h => hc (hk.1 h)), h2]
        by_cases h3 : (k - d).toNat < n
        · rw [if_pos h3, if_pos (by omega)]
        · rw [if_neg h3, if_neg (by omega)]
theorem exact_f32 (h : Obligations.rounding) (n : Bool) (m : Nat) (e : Int) (hm : m ≠ 0) (h1 : m < 2 ^ 24) (h2 : -149 ≤ e) (h3 : e ≤ 104) :
    (roundRat .f32 .rne n (scaleNum m e) (scaleDen e)).2 = .none ∧ FiniteAt .f32 (roundRat .f32 .rne n (scaleNum m e) (scaleDen e)).1 (valQ (.fin n m e)) := by
  have hp := Nat.pos_of_ne_zero hm
  have hl := ratLog2_le m e hp
  have hlog : Nat.log2 m < 24 := (Nat.log2_lt hm).2 h1
  have hq : max (ratLog2 (scaleNum m e) (scaleDen e) - Fmt.f32.mw) Fmt.f32.minQ ≤ e := by
    apply max_le
    · show _ - 23 ≤ e; omega
    · show (1 - 127 - 23 : Int) ≤ e; omega
  have hx : (roundRat .f32 .rne n (scaleNum m e) (scaleDen e)).2.ofl = false → (roundRat .f32 .rne n (scaleNum m e) (scaleDen e)).2.nx = false ∧ (roundRat .f32 .rne n (scaleNum m e) (scaleDen e)).2.ufl = false := by
    unfold roundRat
    simp only
    split
    · intro h; cases h
    · intro _
      have := exact_div m e _ hq
      unfold roundQuot
      simp only [this]
      constructor <;> simp
  have hr := roundRat_val h .f32 (by simp [fmts]) .rne n m e hm
  generalize roundRat .f32 .rne n (scaleNum m e) (scaleDen e) = r at hr hx ⊢
  obtain ⟨g1, g2, g3, g4⟩ := hr
  have ho : r.2.ofl = false := by
    by_contra hc
    have hb := (g4 (by simpa using hc)).2.2.2 0x7F7FFFFF (valQ (.fin false (2 ^ 24 - 1) 104)) ⟨by decide, _, _, _, by decide, rfl⟩
    have e1 : |valQ (.fin n m e)| = m * (2 : ℚ) ^ e := by
      unfold valQ; rw [abs_mul, abs_mul, abs_of_pos (a := (2 : ℚ) ^ e) (by positivity), abs_of_nonneg (a := (m : ℚ)) (by positivity)]
      cases n <;> simp
    have e3 : (m : ℚ) ≤ 2 ^ 24 - 1 := by
      have : m ≤ 2 ^ 24 - 1 := by omega
      have := (Nat.cast_le (α := ℚ)).2 this
      rw [Nat.cast_sub (by decide)] at this; push_cast at this; exact this
    rw [e1, show |valQ (.fin false (2 ^ 24 - 1) 104)| = (2 ^ 24 - 1) * (2 : ℚ) ^ (104 : Int) by unfold valQ; norm_num] at hb
    have e2 : (2 : ℚ) ^ e ≤ 2 ^ (104 : Int) := zpow_le_zpow_right₀ (by norm_num) h3
    have := mul_le_mul e3 e2 (by positivity) (by norm_num)
    linarith
  obtain ⟨f1, f2⟩ := hx ho
  refine ⟨?_, ?_⟩
  · obtain ⟨r1, nv, dz, ofl, ufl, nx⟩ := r
    simp only at g1 g2 ho f1 f2
    subst g1 g2 ho f1 f2
    rfl
  · by_contra hc
    rw [(g3 ho).2.1.2 hc] at f1; cases f1
theorem f16_bounds (b : Nat) (n : Bool) (m : Nat) (e : Int) (h : Fmt.f16.decode b = .fin n m e) : m < 2 ^ 11 ∧ -24 ≤ e ∧ e ≤ 5 := by
  have h1 : b % 2 ^ 10 < 2 ^ 10 := Nat.mod_lt _ (Nat.two_pow_pos _)
  have h2 : b / 2 ^ 10 % 2 ^ 5 < 2 ^ 5 := Nat.mod_lt _ (Nat.two_pow_pos _)
  unfold Fmt.decode at h
  simp only [show Fmt.f16.mw = 10 from rfl, show Fmt.f16.ew = 5 from rfl, show Fmt.f16.ieee = true from rfl, show Fmt.f16.bias = 15 from rfl, show Fmt.f16.minQ = -24 from rfl] at h
  generalize b % 2 ^ 10 = u at h h1
  generalize b / 2 ^ 10 % 2 ^ 5 = w at h h2
  split at h
  · split at h <;> cases h
  · rename_i c1
    split at h
    · cases h
    · split at h
      · cases h; omega
      · rename_i c3
        cases h
        have : ¬w = 31 := fun hw => c1 ⟨trivial, hw⟩
        norm_num at h1 h2 ⊢; omega
theorem f32_zero (b : Bool) : FiniteAt .f32 (Fmt.f32.zero b) 0 := by
  cases b
  · exact ⟨by decide, false, 0, -149, by decide, by simp [valQ]⟩
  · exact ⟨by decide, true, 0, -149, by decide, by simp [valQ]⟩
theorem dequant_spec (h : Obligations.rounding) (sc code : Nat) (q : Int) (hq : q.natAbs < 2 ^ 9) :
    match Fmt.f16.decode sc with
    | .nan sig => dequantBits sc code q = (Fmt.f32.nan, invalid sig)
    | .inf neg => dequantBits sc code q = (if q = 0 then (Fmt.f32.nan, invalid true) else (Fmt.f32.inf (neg != decide (q < 0)), .none))
    | .fin neg m e => FiniteAt .f32 (dequantBits sc code q).1 (valQ (.fin neg m e) * q) ∧ (dequantBits sc code q).2 = .none := by
  unfold dequantBits
  cases hd : Fmt.f16.decode sc with
  | nan sig => rfl
  | inf neg => rfl
  | fin n m e =>
    obtain ⟨b1, b2, b3⟩ := f16_bounds sc n m e hd
    simp only
    by_cases h0 : q = 0
    · subst h0
      cases n
      · simp only [decide_true, Bool.and_false, Bool.false_eq_true, if_false, Int.natAbs_zero, Nat.mul_zero]
        have hz0 : roundVal .f32 .rne (.fin (false != decide ((0 : Int) < 0)) 0 e) = (Fmt.f32.zero false, .none) := rfl
        rw [Int.cast_zero, mul_zero]
        rw [hz0]
        exact ⟨f32_zero false, rfl⟩
      · simp only [decide_true, Bool.and_true, if_true]
        refine ⟨?_, trivial⟩
        rw [Int.cast_zero, mul_zero]
        exact f32_zero _
    · simp only [h0, decide_false, Bool.false_and, Bool.false_eq_true, if_false]
      unfold roundVal
      simp only
      have hv : valQ (.fin (n != decide (q < 0)) (m * q.natAbs) e) = valQ (.fin n m e) * q := by
        unfold valQ
        have hc : (q.natAbs : ℚ) = |(q : ℚ)| := by rw [← Int.cast_abs, Int.abs_eq_natAbs, Int.cast_natCast]
        push_cast
        rw [hc]
        by_cases hs : q < 0
        · have : (q : ℚ) < 0 := by exact_mod_cast hs
          rw [abs_of_neg this]
          cases n <;> simp [hs] <;> ring
        · have : (0 : ℚ) ≤ q := by exact_mod_cast (not_lt.1 hs)
          rw [abs_of_nonneg this]
          cases n <;> simp [hs] <;> ring
      by_cases hm : m * q.natAbs = 0
      · rw [if_pos hm]
        have hm0 : m = 0 := by
          rcases Nat.mul_eq_zero.1 hm with h | h
          · exact h
          · omega
        subst hm0
        refine ⟨?_, by trivial⟩
        rw [show valQ (.fin n 0 e) = 0 by simp [valQ], zero_mul]
        exact f32_zero _
      · rw [if_neg hm, ← hv]
        have hlt : m * q.natAbs < 2 ^ 24 := by
          have : m * q.natAbs ≤ 2 ^ 11 * 2 ^ 9 := Nat.mul_le_mul (by omega) (by omega)
          omega
        obtain ⟨x1, x2⟩ := exact_f32 h (n != decide (q < 0)) (m * q.natAbs) e hm hlt (by omega) (by omega)
        exact ⟨x2, x1⟩
theorem finiteAt_lt {f : Fmt} {b : Nat} {y : ℚ} (h : FiniteAt f b y) : b < 2 ^ f.width := h.1
theorem asInt_bound (b : Nat) (g : Bool) (v : Nat) (hb : b ≤ 8) (h0 : 0 < b) : -128 ≤ asInt b g v ∧ asInt b g v ≤ 255 := by
  have h1 : v % 2 ^ b < 2 ^ b := Nat.mod_lt _ (Nat.two_pow_pos _)
  have h2 : 2 ^ b ≤ 2 ^ 8 := Nat.pow_le_pow_right (by decide) hb
  have h3 : 2 ^ (b - 1) ≤ 2 ^ 7 := Nat.pow_le_pow_right (by decide) (by omega)
  have h4 : 2 * 2 ^ (b - 1) = 2 ^ b := by rw [← Nat.pow_succ']; congr 1; omega
  unfold asInt signedAt
  cases g
  · simp only [Bool.false_eq_true, if_false]; omega
  · simp only [if_true]
    have : ((2 : Int) ^ b) = ((2 ^ b : Nat) : Int) := by push_cast; rfl
    split <;> omega
theorem laneBits_field (w : Nat) (v : Int) : laneBits w v = fieldOf w v := fieldOf_laneBits w v
theorem roundQuot_spec (mode : RMode) (neg : Bool) (num den : Nat) (hd : 0 < den) :
    RoundsInt mode ((if neg then -1 else 1) * num / den) (if neg then -((roundQuot mode neg num den).1 : Int) else (roundQuot mode neg num den).1)
    ∧ ((roundQuot mode neg num den).2 = true ↔ ((if neg then -((roundQuot mode neg num den).1 : Int) else (roundQuot mode neg num den).1 : Int) : ℚ) ≠ (if neg then -1 else 1) * num / den) := by
  have hdq : (0 : ℚ) < den := by exact_mod_cast hd
  have hdiv : (num : ℚ) = den * (num / den : Nat) + (num % den : Nat) := by exact_mod_cast (Nat.div_add_mod num den).symm
  have hmod := Nat.mod_lt num hd
  unfold roundQuot
  simp only
  generalize num / den = q at *
  generalize num % den = r at *
  have hv : ((if neg then -1 else 1) * (num : ℚ) / den) = (if neg then -1 else 1) * (q + r / den) := by
    rw [hdiv]; field_simp
  rw [hv]
  have hr0 : (0 : ℚ) ≤ r / den := by positivity
  have hr1 : (r : ℚ) / den < 1 := by rw [div_lt_one hdq]; exact_mod_cast hmod
  have hrz : (r : ℚ) / den = 0 ↔ r = 0 := by rw [div_eq_zero_iff]; simp [hdq.ne']
  have hh : (r : ℚ) / den = 1 / 2 ↔ 2 * r = den := by
    rw [div_eq_div_iff hdq.ne' two_ne_zero]
    constructor <;> intro h
    · have : (r * 2 : Nat) = 1 * den := by exact_mod_cast h
      omega
    · have : (r * 2 : Nat) = 1 * den := by omega
      exact_mod_cast this
  have hl : (r : ℚ) / den < 1 / 2 ↔ 2 * r < den := by
    rw [div_lt_div_iff₀ hdq two_pos]
    constructor <;> intro h
    · have : r * 2 < 1 * den := by exact_mod_cast h
      omega
    · have : (r * 2 : Nat) < 1 * den := by omega
      exact_mod_cast this
  have hg : (r : ℚ) / den = 1 / 2 ∨ (r : ℚ) / den < 1 / 2 ∨ 1 / 2 < (r : ℚ) / den := by
    rcases lt_trichotomy ((r : ℚ) / den) (1 / 2) with h | h | h
    · exact .inr (.inl h)
    · exact .inl h
    · exact .inr (.inr h)
  generalize (r : ℚ) / den = t at *
  have hq0 : (0 : ℚ) ≤ q := by positivity
  have hcase : r = 0 ∨ 0 < r := by omega
  have ht : r = 0 ∨ 0 < t := by
    rcases hcase with h | h
    · exact .inl h
    · right; rcases hr0.lt_or_eq with h2 | h2
      · exact h2
      · have := hrz.1 h2.symm; omega
  cases mode with
  | rne =>
    simp only [RoundsInt]
    rcases hg with h | h | h
    · have e := hh.1 h
      by_cases ho : q % 2 = 1
      · have : (decide (2 * r > den) || (decide (2 * r = den) && decide (q % 2 = 1))) = true := by simp [e, ho]
        rw [this]
        simp only [if_true]
        cases neg <;> simp only [Bool.false_eq_true, if_false, if_true] <;> push_cast <;> refine ⟨⟨?_, fun _ => ?_⟩, ?_⟩
        · rw [abs_le]; constructor <;> linarith
        · omega
        · have : 0 < r := by omega
          simp only [this, decide_true, true_iff]; intro hc; linarith
        · rw [abs_le]; constructor <;> linarith
        · omega
        · have : 0 < r := by omega
          simp only [this, decide_true, true_iff]; intro hc; linarith
      · have : (decide (2 * r > den) || (decide (2 * r = den) && decide (q % 2 = 1))) = false := by simp [e, ho]
        rw [this]
        simp only [Bool.false_eq_true, if_false]
        cases neg <;> simp only [Bool.false_eq_true, if_false, if_true] <;> push_cast <;> refine ⟨⟨?_, fun _ => ?_⟩, ?_⟩
        · rw [abs_le]; constructor <;> linarith
        · omega
        · have : 0 < r := by omega
          simp only [this, decide_true, true_iff]; intro hc; linarith
        · rw [abs_le]; constructor <;> linarith
        · omega
        · have : 0 < r := by omega
          simp only [this, decide_true, true_iff]; intro hc; linarith
    · have e := hl.1 h
      have : (decide (2 * r > den) || (decide (2 * r = den) && decide (q % 2 = 1))) = false := by
        rw [decide_eq_false (by omega), decide_eq_false (p := 2 * r = den) (by omega)]; rfl
      rw [this]
      simp only [Bool.false_eq_true, if_false]
      cases neg <;> simp only [Bool.false_eq_true, if_false, if_true] <;> push_cast <;> refine ⟨⟨?_, fun hx => ?_⟩, ?_⟩
      · rw [abs_le]; constructor <;> linarith
      · exfalso; rw [abs_of_nonpos (by linarith)] at hx; linarith
      · rw [decide_eq_true_eq]; constructor
        · intro h0 hc; have : t = 0 := by linarith
          rw [hrz] at this; omega
        · intro hc; rcases hcase with h0 | h0
          · exfalso; apply hc; have := hrz.2 h0; linarith
          · exact h0
      · rw [abs_le]; constructor <;> linarith
      · exfalso; rw [abs_of_nonneg (by linarith)] at hx; linarith
      · rw [decide_eq_true_eq]; constructor
        · intro h0 hc; have : t = 0 := by linarith
          rw [hrz] at this; omega
        · intro hc; rcases hcase with h0 | h0
          · exfalso; apply hc; have := hrz.2 h0; linarith
          · exact h0
    · have e : den < 2 * r := by
        by_contra hc
        rcases Nat.lt_or_ge (2 * r) den with h2 | h2
        · have := hl.2 h2; linarith
        · have := hh.2 (by omega); linarith
      have : (decide (2 * r > den) || (decide (2 * r = den) && decide (q % 2 = 1))) = true := by
        rw [decide_eq_true (by omega)]; rfl
      rw [this]
      simp only [if_true]
      have hp : 0 < r := by omega
      cases neg <;> simp only [Bool.false_eq_true, if_false, if_true] <;> push_cast <;> refine ⟨⟨?_, fun hx => ?_⟩, ?_⟩
      · rw [abs_le]; constructor <;> linarith
      · exfalso; rw [abs_of_nonneg (by linarith)] at hx; linarith
      · simp only [hp, decide_true, true_iff]; intro hc; linarith
      · rw [abs_le]; constructor <;> linarith
      · exfalso; rw [abs_of_nonpos (by linarith)] at hx; linarith
      · simp only [hp, decide_true, true_iff]; intro hc; linarith
  | rtz =>
    simp only [RoundsInt, Bool.false_eq_true, if_false]
    have hn : (decide (0 < r) = true ↔ t ≠ 0) := by rw [decide_eq_true_eq, ne_eq, hrz]; omega
    cases neg <;> simp only [Bool.false_eq_true, if_false, if_true] <;> push_cast <;> refine ⟨⟨?_, ?_, ?_⟩, hn.trans ?_⟩
    · rw [abs_of_nonneg hq0, abs_of_nonneg (by linarith)]; linarith
    · rw [abs_of_nonneg hq0, abs_of_nonneg (by linarith)]; linarith
    · exact mul_nonneg hq0 (by linarith)
    · exact ⟨fun h hc => h (by linarith), fun h hc => h (by rw [hc]; ring)⟩
    · rw [abs_neg, abs_of_nonneg hq0, abs_of_nonpos (by linarith)]; linarith
    · rw [abs_neg, abs_of_nonneg hq0, abs_of_nonpos (by linarith)]; linarith
    · have := mul_nonneg hq0 (show 0 ≤ (q : ℚ) + t by linarith); linarith
    · exact ⟨fun h hc => h (by linarith), fun h hc => h (by rw [hc]; ring)⟩
  | rdn =>
    have hn : (decide (0 < r) = true ↔ t ≠ 0) := by rw [decide_eq_true_eq, ne_eq, hrz]; omega
    cases neg <;> simp only [RoundsInt, Bool.false_and, Bool.true_and, Bool.false_eq_true, if_false, if_true, decide_eq_true_eq] <;> push_cast
    · refine ⟨⟨by linarith, by linarith⟩, ?_⟩
      rw [ne_eq, show ((q : ℚ) = 1 * (q + t)) ↔ t = 0 by constructor <;> intro h <;> linarith, hrz]; omega
    · rcases ht with h | h
      · subst h
        have := hrz.2 rfl
        simp only [lt_irrefl, if_false, false_iff, not_not]
        refine ⟨⟨by linarith, by linarith⟩, ?_⟩
        rw [this]; simp
      · have h0 : 0 < r := by
          rcases hcase with h2 | h2
          · have := hrz.2 h2; linarith
          · exact h2
        simp only [h0, if_true, true_iff]
        push_cast
        refine ⟨⟨by linarith, by linarith⟩, fun hc => by linarith⟩
  | rup =>
    cases neg <;> simp only [RoundsInt, Bool.not_false, Bool.not_true, Bool.false_and, Bool.true_and, Bool.false_eq_true, if_false, if_true, decide_eq_true_eq] <;> push_cast
    · rcases ht with h | h
      · subst h
        have := hrz.2 rfl
        simp only [lt_irrefl, if_false, false_iff, not_not]
        refine ⟨⟨by linarith, by linarith⟩, ?_⟩
        rw [this]; simp
      · have h0 : 0 < r := by
          rcases hcase with h2 | h2
          · have := hrz.2 h2; linarith
          · exact h2
        simp only [h0, if_true, true_iff]
        push_cast
        refine ⟨⟨by linarith, by linarith⟩, fun hc => by linarith⟩
    · refine ⟨⟨by linarith, by linarith⟩, ?_⟩
      rw [ne_eq, show (-(q : ℚ) = -1 * (q + t)) ↔ t = 0 by constructor <;> intro h <;> linarith, hrz]; omega
theorem narrow_eq (f : Fmt) (g : Fmt) (mode : RMode) (sat : Bool) (n : Bool) (v : ℚ) (r : Nat × FFlags) (hs : n = decide (v < 0)) (hr : Rounded g mode v r) :
    Narrowed g mode sat v (if (decide (g.width = 8) && sat && r.2.ofl) = true then (g.largest n, r.2) else r) := by
  refine ⟨r, hr, ?_⟩
  rw [hs]
  by_cases h1 : g.width = 8 <;> cases sat <;> cases r.2.ofl <;> simp [h1]
theorem valQ_neg (n : Bool) (m : Nat) (e : Int) (hm : m ≠ 0) : n = decide (valQ (.fin n m e) < 0) := by
  have h1 : (0 : ℚ) < m := by exact_mod_cast Nat.pos_of_ne_zero hm
  have h2 : (0 : ℚ) < (2 : ℚ) ^ e := by positivity
  unfold valQ
  cases n
  · simp only [Bool.false_eq_true, if_false, one_mul]
    have := mul_pos h1 h2
    rw [eq_comm, decide_eq_false_iff_not]; linarith
  · simp only [if_true]
    have := mul_pos h1 h2
    rw [eq_comm, decide_eq_true_eq]; linarith
theorem clamp_range (w : Nat) (g : Bool) (v : Int) : clampTo g w v = max (leastOf w g) (min (greatestOf w g) v) := by
  cases g <;> rfl
theorem sel_eq {α : Type} (sat : Bool) (x y : α) : (if sat then x else y) = (if sat = true then x else y) := rfl
theorem rat2_val (x : FVal) : ((Rat2.ofVal x).num : ℚ) / (Rat2.ofVal x).den = valQ x ∧ 0 < (Rat2.ofVal x).den := by
  cases x with
  | nan q => exact ⟨by simp [Rat2.ofVal, valQ], Nat.one_pos⟩
  | inf q => exact ⟨by simp [Rat2.ofVal, valQ], Nat.one_pos⟩
  | fin n m e =>
    refine ⟨?_, scaleDen_pos e⟩
    rw [← scale_val]
    unfold Rat2.ofVal
    cases n <;> simp
/-- The rational a pair stands for. -/
def rq (r : Rat2) : ℚ := r.num / r.den
theorem rq_le (a b : Rat2) (ha : 0 < a.den) (hb : 0 < b.den) : a.le b = true ↔ rq a ≤ rq b := by
  unfold Rat2.le rq
  have h1 : (0 : ℚ) < a.den := by exact_mod_cast ha
  have h2 : (0 : ℚ) < b.den := by exact_mod_cast hb
  rw [decide_eq_true_eq, div_le_div_iff₀ h1 h2]
  exact_mod_cast Iff.rfl
theorem rq_sub (a b : Rat2) (ha : 0 < a.den) (hb : 0 < b.den) : rq (a.sub b) = rq a - rq b ∧ 0 < (a.sub b).den := by
  refine ⟨?_, Nat.mul_pos ha hb⟩
  have h1 : (a.den : ℚ) ≠ 0 := by exact_mod_cast ha.ne'
  have h2 : (b.den : ℚ) ≠ 0 := by exact_mod_cast hb.ne'
  unfold rq Rat2.sub
  push_cast
  field_simp
theorem rq_abs (a : Rat2) : rq a.abs = |rq a| := by
  unfold rq Rat2.abs
  rw [abs_div, Nat.abs_cast]
  congr 1
  rw [← Int.cast_abs, Int.abs_eq_natAbs]
theorem rneDiv_spec (a b : Rat2) (ha : 0 < a.den) (hb : 0 < b.den) (hp : 0 < b.num) : RoundsInt .rne (rq a / rq b) (a.rneDiv b) := by
  have hd : 0 < a.den * b.num.natAbs := Nat.mul_pos ha (by omega)
  obtain ⟨s1, -⟩ := roundQuot_spec .rne (decide (a.num < 0)) (a.num.natAbs * b.den) (a.den * b.num.natAbs) hd
  have hv : (if decide (a.num < 0) = true then (-1 : ℚ) else 1) * ((a.num.natAbs * b.den : Nat) : ℚ) / ((a.den * b.num.natAbs : Nat) : ℚ) = rq a / rq b := by
    have hc (z : Int) : (z.natAbs : ℚ) = |(z : ℚ)| := by rw [← Int.cast_abs, Int.abs_eq_natAbs, Int.cast_natCast]
    have hb1 : (0 : ℚ) < b.num := by exact_mod_cast hp
    have h1 : (a.den : ℚ) ≠ 0 := by exact_mod_cast ha.ne'
    have h2 : (b.den : ℚ) ≠ 0 := by exact_mod_cast hb.ne'
    push_cast
    rw [hc, hc, abs_of_pos hb1]
    unfold rq
    by_cases hs : a.num < 0
    · have : (a.num : ℚ) < 0 := by exact_mod_cast hs
      rw [abs_of_neg this]; simp only [hs, decide_true, if_true]; field_simp
    · have : (0 : ℚ) ≤ a.num := by exact_mod_cast (not_lt.1 hs)
      rw [abs_of_nonneg this]; simp only [hs, decide_false, Bool.false_eq_true, if_false]; field_simp
  rw [hv] at s1
  unfold Rat2.rneDiv
  simp only
  by_cases hs : a.num < 0
  · rw [if_pos hs]; simp only [hs, decide_true, if_true] at s1 ⊢; exact s1
  · rw [if_neg hs]; simp only [hs, decide_false, Bool.false_eq_true, if_false] at s1 ⊢; exact s1
theorem maxRat_spec (l : List Rat2) (hl : ∀ x ∈ l, 0 < x.den) (z : Rat2) (hz : 0 < z.den) :
    0 < (maxRat l z).den ∧ rq z ≤ rq (maxRat l z) ∧ (∀ x ∈ l, rq x ≤ rq (maxRat l z)) ∧ (maxRat l z = z ∨ maxRat l z ∈ l) := by
  induction l generalizing z with
  | nil => exact ⟨hz, le_refl _, by simp, .inl rfl⟩
  | cons x l ih =>
    have hx := hl x (by simp)
    show 0 < (maxRat l (if z.le x then x else z)).den ∧ rq z ≤ rq (maxRat l (if z.le x then x else z)) ∧ (∀ y ∈ x :: l, rq y ≤ rq (maxRat l (if z.le x then x else z))) ∧ (maxRat l (if z.le x then x else z) = z ∨ maxRat l (if z.le x then x else z) ∈ x :: l)
    by_cases hc : z.le x = true
    · rw [if_pos hc]
      obtain ⟨a, b, c, d⟩ := ih (fun y hy => hl y (by simp [hy])) x hx
      have := (rq_le z x hz hx).1 hc
      refine ⟨a, le_trans this b, ?_, ?_⟩
      · intro y hy; rcases List.mem_cons.1 hy with rfl | hy
        · exact b
        · exact c y hy
      · right; rcases d with d | d
        · rw [d]; simp
        · simp [d]
    · rw [if_neg hc]
      obtain ⟨a, b, c, d⟩ := ih (fun y hy => hl y (by simp [hy])) z hz
      have : rq x ≤ rq z := by
        by_contra h2; exact hc ((rq_le z x hz hx).2 (le_of_lt (not_le.1 h2)))
      refine ⟨a, b, ?_, ?_⟩
      · intro y hy; rcases List.mem_cons.1 hy with rfl | hy
        · exact le_trans this b
        · exact c y hy
      · rcases d with d | d
        · exact .inl d
        · right; simp [d]
theorem minRat_spec (l : List Rat2) (hl : ∀ x ∈ l, 0 < x.den) (z : Rat2) (hz : 0 < z.den) :
    0 < (minRat l z).den ∧ rq (minRat l z) ≤ rq z ∧ (∀ x ∈ l, rq (minRat l z) ≤ rq x) ∧ (minRat l z = z ∨ minRat l z ∈ l) := by
  induction l generalizing z with
  | nil => exact ⟨hz, le_refl _, by simp, .inl rfl⟩
  | cons x l ih =>
    have hx := hl x (by simp)
    show 0 < (minRat l (if x.le z then x else z)).den ∧ rq (minRat l (if x.le z then x else z)) ≤ rq z ∧ (∀ y ∈ x :: l, rq (minRat l (if x.le z then x else z)) ≤ rq y) ∧ (minRat l (if x.le z then x else z) = z ∨ minRat l (if x.le z then x else z) ∈ x :: l)
    by_cases hc : x.le z = true
    · rw [if_pos hc]
      obtain ⟨a, b, c, d⟩ := ih (fun y hy => hl y (by simp [hy])) x hx
      have := (rq_le x z hx hz).1 hc
      refine ⟨a, le_trans b this, ?_, ?_⟩
      · intro y hy; rcases List.mem_cons.1 hy with rfl | hy
        · exact b
        · exact c y hy
      · right; rcases d with d | d
        · rw [d]; simp
        · simp [d]
    · rw [if_neg hc]
      obtain ⟨a, b, c, d⟩ := ih (fun y hy => hl y (by simp [hy])) z hz
      have : rq z ≤ rq x := by
        by_contra h2; exact hc ((rq_le x z hx hz).2 (le_of_lt (not_le.1 h2)))
      refine ⟨a, b, ?_, ?_⟩
      · intro y hy; rcases List.mem_cons.1 hy with rfl | hy
        · exact le_trans b this
        · exact c y hy
      · rcases d with d | d
        · exact .inl d
        · right; simp [d]
theorem quantScale_spec (h : Obligations.rounding) (range : Rat2) (steps : Nat) (hd : 0 < range.den) (hs : 0 < steps) (h0 : 0 ≤ range.num) :
    ∃ y, Scale (rq range / steps) (quantScale range steps) y ∧ y = rq (Rat2.ofVal (Fmt.f16.decode (quantScale range steps))) ∧ 0 < (Rat2.ofVal (Fmt.f16.decode (quantScale range steps))).num
      ∧ 0 < (Rat2.ofVal (Fmt.f16.decode (quantScale range steps))).den := by
  have hsq : (0 : ℚ) < steps := by exact_mod_cast hs
  have hdq : (0 : ℚ) < range.den := by exact_mod_cast hd
  have pos (b : Nat) (y : ℚ) (hy : 0 < y) (hf : FiniteAt .f16 b y) : y = rq (Rat2.ofVal (Fmt.f16.decode b)) ∧ 0 < (Rat2.ofVal (Fmt.f16.decode b)).num ∧ 0 < (Rat2.ofVal (Fmt.f16.decode b)).den := by
    obtain ⟨-, n, m, e, hd, hv⟩ := hf
    obtain ⟨r1, r2⟩ := rat2_val (Fmt.f16.decode b)
    have : y = rq (Rat2.ofVal (Fmt.f16.decode b)) := by rw [hv, ← hd]; exact r1.symm
    refine ⟨this, ?_, r2⟩
    rw [this] at hy
    unfold rq at hy
    have h3 : (0 : ℚ) < (Rat2.ofVal (Fmt.f16.decode b)).den := by exact_mod_cast r2
    have := (div_pos_iff_of_pos_right h3).1 hy
    exact_mod_cast this
  by_cases hz : range.num = 0
  · have hq : quantScale range steps = 0x3C00 := by unfold quantScale rup16; simp [hz]
    have hf : FiniteAt .f16 0x3C00 1 := ⟨by decide, false, 1024, -10, by decide, by norm_num [valQ]⟩
    rw [hq]
    refine ⟨1, ⟨hf, ?_⟩, pos _ _ one_pos hf⟩
    rw [if_pos (by unfold rq; rw [hz]; simp)]
    exact ⟨rfl, rfl⟩
  · have hp : 0 < range.num := by omega
    have hr := h .f16 (by simp [fmts]) .rup false range.num.toNat (range.den * steps) (by omega) (Nat.mul_pos hd hs)
    have hv : (if false = true then (-1 : ℚ) else 1) * ((range.num.toNat : Nat) : ℚ) / ((range.den * steps : Nat) : ℚ) = rq range / steps := by
      have : ((range.num.toNat : Nat) : ℚ) = range.num := by
        have := Int.toNat_of_nonneg h0
        exact_mod_cast congrArg (Int.cast (R := ℚ)) this
      rw [this]; unfold rq; push_cast; simp; field_simp
    rw [hv] at hr
    have hrange : 0 < rq range / steps := by
      have : (0 : ℚ) < range.num := by exact_mod_cast hp
      unfold rq; positivity
    have hu : rup16 { num := range.num, den := range.den * steps } = if (roundRat .f16 .rup false range.num.toNat (range.den * steps)).2.ofl then Fmt.f16.largest false else (roundRat .f16 .rup false range.num.toNat (range.den * steps)).1 := by
      unfold rup16
      simp only
      rw [if_neg (by omega)]
    have hmax : FiniteAt .f16 (Fmt.f16.largest false) 65504 := ⟨by decide, false, 2047, 5, by decide, by norm_num [valQ]⟩
    have hbig : ∀ c z, FiniteAt .f16 c z → z ≤ 65504 := by
      rintro c z ⟨-, n, m, e, hd, rfl⟩
      obtain ⟨b1, b2, b3⟩ := f16_bounds c n m e hd
      have e1 : (m : ℚ) ≤ 2047 := by exact_mod_cast (show m ≤ 2047 by omega)
      have e2 : (2 : ℚ) ^ e ≤ 2 ^ (5 : Int) := zpow_le_zpow_right₀ (by norm_num) b3
      have := mul_le_mul e1 e2 (by positivity) (by norm_num)
      have h3 : (2047 : ℚ) * 2 ^ (5 : Int) = 65504 := by norm_num
      have h4 : (0 : ℚ) ≤ m * (2 : ℚ) ^ e := by positivity
      unfold valQ
      cases n
      · simp only [Bool.false_eq_true, if_false, one_mul]; linarith
      · simp only [if_true]; linarith
    generalize roundRat .f16 .rup false range.num.toNat (range.den * steps) = r at hr hu
    obtain ⟨-, -, h3, h4⟩ := hr
    cases ho : r.2.ofl with
    | true =>
      rw [ho] at hu
      simp only [if_true] at hu
      have hq : quantScale range steps = Fmt.f16.largest false := by
        unfold quantScale; simp only; rw [hu]; rfl
      rw [hq]
      have hgt := (h4 ho).2.2.2 _ _ hmax
      rw [abs_of_pos (by norm_num), abs_of_pos hrange] at hgt
      refine ⟨65504, ⟨hmax, ?_⟩, pos _ _ (by norm_num) hmax⟩
      rw [if_neg hrange.ne', if_pos hgt]
    | false =>
      rw [ho] at hu
      simp only [Bool.false_eq_true, if_false] at hu
      obtain ⟨⟨y, hy, hrd⟩, -, -⟩ := h3 ho
      have hle : rq range / steps ≤ y := (hrd _ _ hmax).1
      have hy0 : 0 < y := lt_of_lt_of_le hrange hle
      have hne : r.1 ≠ 0 := by
        intro h0
        rw [h0] at hy
        obtain ⟨-, n, m, e, hd, hv⟩ := hy
        have : Fmt.f16.decode 0 = .fin false 0 (-24) := by decide
        rw [this] at hd
        cases hd
        rw [hv] at hy0; simp [valQ] at hy0
      have hq : quantScale range steps = r.1 := by
        unfold quantScale; simp only; rw [hu, if_neg hne]
      rw [hq]
      refine ⟨y, ⟨hy, ?_⟩, pos _ _ hy0 hy⟩
      rw [if_neg hrange.ne']
      by_cases hb : 65504 < rq range / steps
      · have := hbig _ _ hy
        linarith
      · rw [if_neg hb]
        exact ⟨hle, fun c z hc hz => (hrd c z hc).2 hz⟩
theorem clampInt_eq (lo hi v : Int) : clampInt lo hi v = max lo (min hi v) := rfl
theorem quantise_spec (h : Obligations.rounding) (f : BitVec 2) (n : Nat) (x : Nat → FVal) :
    let Q := quantise f ((List.range n).map (fun i => Rat2.ofVal (x i)))
    ∃ (z : Int) (q : Nat → Int), Q.2.1 = z.toNat ∧ Quantised (quantBits f) n (f.getLsbD 1) (fun i => valQ (x i)) Q.1 z q ∧ Q.2.2 = (List.range n).map (fun i => fieldOf (quantBits f) (q i)) := by
  intro Q
  have hb : 1 ≤ quantBits f - 1 := by unfold quantBits; split <;> decide
  have hz0 : (0 : ℚ) = rq { num := 0, den := 1 } := by simp [rq]
  have hl : ∀ r ∈ (List.range n).map (fun i => Rat2.ofVal (x i)), 0 < r.den := by
    intro r hr; obtain ⟨i, -, rfl⟩ := List.mem_map.1 hr; exact (rat2_val _).2
  have hrq (i : Nat) : rq (Rat2.ofVal (x i)) = valQ (x i) := (rat2_val _).1
  have hpow (k : Nat) (hk : 1 ≤ k) : 0 < 2 ^ k - 1 := by
    have : 2 ^ 1 ≤ 2 ^ k := Nat.pow_le_pow_right (by decide) hk
    omega
  have hcast (k : Nat) : ((2 ^ k - 1 : Nat) : ℚ) = 2 ^ k - 1 := by
    rw [Nat.cast_sub (Nat.one_le_two_pow)]; push_cast; rfl
  have numpos (r : Rat2) (hd : 0 < r.den) (hr : 0 ≤ rq r) : 0 ≤ r.num := by
    by_contra hc
    have h1 : (r.num : ℚ) < 0 := by exact_mod_cast (not_le.1 hc)
    have h2 : (0 : ℚ) < r.den := by exact_mod_cast hd
    have := div_neg_of_neg_of_pos h1 h2
    unfold rq at hr; linarith
  by_cases hs : quantSigned f = true
  · have hs2 : f.getLsbD 1 = true := hs
    have hQ : Q = (quantScale (maxRat (((List.range n).map (fun i => Rat2.ofVal (x i))).map Rat2.abs) { num := 0, den := 1 }) (2 ^ (quantBits f - 1) - 1), 0,
      ((List.range n).map (fun i => Rat2.ofVal (x i))).map (fun r => laneBits (quantBits f) (clampInt (-(2 ^ (quantBits f - 1) - 1)) (2 ^ (quantBits f - 1) - 1)
        (r.rneDiv (Rat2.ofVal (Fmt.f16.decode (quantScale (maxRat (((List.range n).map (fun i => Rat2.ofVal (x i))).map Rat2.abs) { num := 0, den := 1 }) (2 ^ (quantBits f - 1) - 1)))))))) := by
      show quantise f _ = _
      unfold quantise
      simp only [hs, if_true]
    have hl2 : ∀ r ∈ ((List.range n).map (fun i => Rat2.ofVal (x i))).map Rat2.abs, 0 < r.den := by
      intro r hr; obtain ⟨r', hr', rfl⟩ := List.mem_map.1 hr; exact hl r' hr'
    obtain ⟨m1, m2, m3, m4⟩ := maxRat_spec _ hl2 { num := 0, den := 1 } Nat.one_pos
    rw [← hz0] at m2
    obtain ⟨y, y1, y2, y3, y4⟩ := quantScale_spec h _ (2 ^ (quantBits f - 1) - 1) m1 (hpow _ hb) (numpos _ m1 m2)
    rw [hQ]
    refine ⟨0, fun i => max (-(2 ^ (quantBits f - 1) - 1)) (min (2 ^ (quantBits f - 1) - 1) ((Rat2.ofVal (x i)).rneDiv (Rat2.ofVal (Fmt.f16.decode (quantScale (maxRat (((List.range n).map (fun i => Rat2.ofVal (x i))).map Rat2.abs) { num := 0, den := 1 }) (2 ^ (quantBits f - 1) - 1)))))), rfl, ?_, ?_⟩
    · refine ⟨y, fun i => (Rat2.ofVal (x i)).rneDiv (Rat2.ofVal (Fmt.f16.decode (quantScale (maxRat (((List.range n).map (fun i => Rat2.ofVal (x i))).map Rat2.abs) { num := 0, den := 1 }) (2 ^ (quantBits f - 1) - 1)))), fun i hi => ?_, ?_⟩
      · have := rneDiv_spec (Rat2.ofVal (x i)) _ (rat2_val _).2 y4 y3
        rw [← y2, hrq] at this; exact this
      · rw [if_pos hs2]
        rw [hcast] at y1
        refine ⟨_, ⟨m2, fun i hi => ?_, ?_⟩, y1, rfl, fun i hi => rfl⟩
        · have := m3 (Rat2.ofVal (x i)).abs (List.mem_map.2 ⟨_, List.mem_map.2 ⟨i, List.mem_range.2 hi, rfl⟩, rfl⟩)
          rw [rq_abs, hrq] at this; exact this
        · rcases m4 with m4 | m4
          · left; rw [m4]; exact hz0.symm
          · right
            obtain ⟨r, hr, hr2⟩ := List.mem_map.1 m4
            obtain ⟨i, hi, rfl⟩ := List.mem_map.1 hr
            refine ⟨i, List.mem_range.1 hi, ?_⟩
            show _ = |valQ (x i)|
            rw [← hr2, rq_abs, hrq]
    · simp only [List.map_map]
      apply List.map_congr_left
      intro i _
      simp only [Function.comp, fieldOf_laneBits, clampInt_eq]
  · have hs2 : f.getLsbD 1 = false := by simpa [quantSigned] using hs
    have hQ : Q = (quantScale ((maxRat ((List.range n).map (fun i => Rat2.ofVal (x i))) { num := 0, den := 1 }).sub (minRat ((List.range n).map (fun i => Rat2.ofVal (x i))) { num := 0, den := 1 })) (2 ^ quantBits f - 1),
      (clampInt 0 (2 ^ quantBits f - 1) ((({ num := 0, den := 1 } : Rat2).sub (minRat ((List.range n).map (fun i => Rat2.ofVal (x i))) { num := 0, den := 1 })).rneDiv (Rat2.ofVal (Fmt.f16.decode (quantScale ((maxRat ((List.range n).map (fun i => Rat2.ofVal (x i))) { num := 0, den := 1 }).sub (minRat ((List.range n).map (fun i => Rat2.ofVal (x i))) { num := 0, den := 1 })) (2 ^ quantBits f - 1)))))).toNat,
      ((List.range n).map (fun i => Rat2.ofVal (x i))).map (fun r => laneBits (quantBits f) (clampInt 0 (2 ^ quantBits f - 1) (r.rneDiv (Rat2.ofVal (Fmt.f16.decode (quantScale ((maxRat ((List.range n).map (fun i => Rat2.ofVal (x i))) { num := 0, den := 1 }).sub (minRat ((List.range n).map (fun i => Rat2.ofVal (x i))) { num := 0, den := 1 })) (2 ^ quantBits f - 1)))) +
        clampInt 0 (2 ^ quantBits f - 1) ((({ num := 0, den := 1 } : Rat2).sub (minRat ((List.range n).map (fun i => Rat2.ofVal (x i))) { num := 0, den := 1 })).rneDiv (Rat2.ofVal (Fmt.f16.decode (quantScale ((maxRat ((List.range n).map (fun i => Rat2.ofVal (x i))) { num := 0, den := 1 }).sub (minRat ((List.range n).map (fun i => Rat2.ofVal (x i))) { num := 0, den := 1 })) (2 ^ quantBits f - 1))))))))) := by
      show quantise f _ = _
      unfold quantise
      simp only [hs, if_false, Bool.false_eq_true]
    obtain ⟨m1, m2, m3, m4⟩ := maxRat_spec _ hl { num := 0, den := 1 } Nat.one_pos
    obtain ⟨n1, n2, n3, n4⟩ := minRat_spec _ hl { num := 0, den := 1 } Nat.one_pos
    rw [← hz0] at m2 n2
    obtain ⟨u1, u2⟩ := rq_sub _ _ m1 n1
    obtain ⟨w1, w2⟩ := rq_sub { num := 0, den := 1 } _ Nat.one_pos n1
    rw [← hz0, zero_sub] at w1
    obtain ⟨y, y1, y2, y3, y4⟩ := quantScale_spec h _ (2 ^ quantBits f - 1) u2 (hpow _ (by omega)) (numpos _ u2 (by rw [u1]; linarith))
    rw [hcast, u1] at y1
    have hk0 := rneDiv_spec _ _ w2 y4 y3
    rw [← y2, w1] at hk0
    rw [hQ]
    generalize hSC : quantScale ((maxRat ((List.range n).map (fun i => Rat2.ofVal (x i))) { num := 0, den := 1 }).sub (minRat ((List.range n).map (fun i => Rat2.ofVal (x i))) { num := 0, den := 1 })) (2 ^ quantBits f - 1) = SC at *
    generalize hK : (({ num := 0, den := 1 } : Rat2).sub (minRat ((List.range n).map (fun i => Rat2.ofVal (x i))) { num := 0, den := 1 })).rneDiv (Rat2.ofVal (Fmt.f16.decode SC)) = K at *
    refine ⟨max 0 (min (2 ^ quantBits f - 1) K), fun i => max 0 (min (2 ^ quantBits f - 1) ((Rat2.ofVal (x i)).rneDiv (Rat2.ofVal (Fmt.f16.decode SC)) + max 0 (min (2 ^ quantBits f - 1) K))), rfl, ?_, ?_⟩
    · refine ⟨y, fun i => (Rat2.ofVal (x i)).rneDiv (Rat2.ofVal (Fmt.f16.decode SC)), fun i hi => ?_, ?_⟩
      · have := rneDiv_spec (Rat2.ofVal (x i)) _ (rat2_val _).2 y4 y3
        rw [← y2, hrq] at this; exact this
      · rw [if_neg (by rw [hs2]; decide)]
        refine ⟨_, _, K, ⟨n2, fun i hi => ?_, ?_⟩, ⟨m2, fun i hi => ?_, ?_⟩, y1, hk0, rfl, fun i hi => rfl⟩
        · have := n3 (Rat2.ofVal (x i)) (List.mem_map.2 ⟨i, List.mem_range.2 hi, rfl⟩)
          rw [hrq] at this; exact this
        · rcases n4 with n4 | n4
          · left; rw [n4]; exact hz0.symm
          · right
            obtain ⟨i, hi, hr⟩ := List.mem_map.1 n4
            exact ⟨i, List.mem_range.1 hi, by rw [← hr, hrq]⟩
        · have := m3 (Rat2.ofVal (x i)) (List.mem_map.2 ⟨i, List.mem_range.2 hi, rfl⟩)
          rw [hrq] at this; exact this
        · rcases m4 with m4 | m4
          · left; rw [m4]; exact hz0.symm
          · right
            obtain ⟨i, hi, hr⟩ := List.mem_map.1 m4
            exact ⟨i, List.mem_range.1 hi, by rw [← hr, hrq]⟩
    · simp only [List.map_map]
      apply List.map_congr_left
      intro i _
      simp only [Function.comp, fieldOf_laneBits, clampInt_eq]

end Sys2Proof
end

