-- ==== Sys2Proof/Laws/PerInstr.lean ====
section
/-! SUPPORT. Decoding undoes encoding, one lemma for each instruction: every field of the word that `encode` writes is read back
by `decode`, with every operand at every value that the encoding admits (R154, R162, R171 to R173). -/
set_option Elab.async false

namespace Sys2Proof.Laws

/-! ### Fields of a concatenation -/

theorem Ext.lo {n m : Nat} {x : BitVec n} {y : BitVec m} {l k : Nat} {v : BitVec k} (h : y.extractLsb' l k = v)
    (e : l + k ≤ m := by decide) : (x ++ y).extractLsb' l k = v := by
  subst h
  ext i hi
  simp only [BitVec.getElem_extractLsb', BitVec.getLsbD_append]
  rw [if_pos (by omega)]

theorem Ext.hi {n m : Nat} {x : BitVec n} {y : BitVec m} {l : Nat} (l' : Nat) {k : Nat} {v : BitVec k}
    (h : x.extractLsb' l' k = v) (e : l = l' + m := by rfl) : (x ++ y).extractLsb' l k = v := by
  subst h e
  ext i hi
  simp only [BitVec.getElem_extractLsb', BitVec.getLsbD_append]
  rw [if_neg (by omega)]
  congr 1
  omega

theorem Ext.all {m : Nat} (x : BitVec m) : x.extractLsb' 0 m = x := by
  ext i hi
  simp

theorem Ext.marker {w : U32} {s : Bool} (h : w.extractLsb' 31 1 = BitVec.ofBool s) : w.getLsbD 31 = s := by
  have := congrArg (fun y => y.getLsbD 0) h
  simpa using this

/-- A word whose bits [5:4] are `v` has at least 16 v in bits [5:0]. -/
theorem Ext.atLeast (w : U32) (v : Nat) (hv : v < 4) (h : w.extractLsb' 4 2 = BitVec.ofNat 2 v) :
    16 * v ≤ (w.extractLsb' 0 6).toNat := by
  have h1 := congrArg BitVec.toNat h
  simp only [BitVec.extractLsb'_toNat, BitVec.toNat_ofNat, Nat.shiftRight_eq_div_pow] at h1 ⊢
  omega

/-! ### The decoder -/

theorem fixedAt_ok {w : U32} {lo n v : Nat} {x : BitVec n} {k : Except DecodeError Instr} (h : w.extractLsb' lo n = x)
    (e : x.toNat = v := by rfl) : fixedAt w lo n v k = k := by
  rw [fixedAt, h, if_pos e]

/-- A word of a major opcode that is assigned is neither of the two words that are never instructions. -/
theorem decode_of {w : U32} {s : Bool} {i : Instr} {m : BitVec 6} (hm : w.extractLsb' 25 6 = m) (h0 : m ≠ 0) (h1 : m ≠ 63)
    (hs : w.getLsbD 31 = s) (hi : decodeMajor w = .ok i) (hwf : i.wf = true) : decode w = .ok (s, i) := by
  have hz : ¬(w = 0 ∨ w = 0xFFFFFFFF#32) := by
    rintro (h | h)
    · exact h0 (hm.symm.trans (by rw [h]; rfl))
    · exact h1 (hm.symm.trans (by rw [h]; rfl))
  rw [decode, if_neg hz, hi]
  simp only [hwf, if_true, hs]

end Sys2Proof.Laws

namespace Sys2Proof.Laws.RoundTrip

/-- The word of a well-formed instruction decodes to it, with its settle marker. -/
def Statement (i : Instr) : Prop := ∀ s : Bool, i.wf = true → decode (encode s i) = .ok (s, i)

theorem add (d : BitVec 5) (a : BitVec 5) (b : BitVec 5) : Statement (.add d a b) := by
  intro s hwf
  have f25_6 : (encode s (.add d a b)).extractLsb' 25 6 = 0x01#6 := Ext.hi 15 <| Ext.hi 10 <| Ext.hi 5 <| Ext.hi 0 <| Ext.lo <| (Ext.all _)
  have f0_10 : (encode s (.add d a b)).extractLsb' 0 10 = 0#10 := Ext.lo <| (Ext.all _)
  have f20_5 : (encode s (.add d a b)).extractLsb' 20 5 = d := Ext.hi 10 <| Ext.hi 5 <| Ext.hi 0 <| Ext.lo <| (Ext.all _)
  have f15_5 : (encode s (.add d a b)).extractLsb' 15 5 = a := Ext.hi 5 <| Ext.hi 0 <| Ext.lo <| (Ext.all _)
  have f10_5 : (encode s (.add d a b)).extractLsb' 10 5 = b := Ext.hi 0 <| Ext.lo <| (Ext.all _)
  have f31 : (encode s (.add d a b)).getLsbD 31 = s := Ext.marker (Ext.hi 21 <| Ext.hi 16 <| Ext.hi 11 <| Ext.hi 6 <| Ext.hi 0 <| (Ext.all _))
  generalize encode s (.add d a b) = w at *
  refine decode_of f25_6 (by decide) (by decide) f31 ?_ hwf
  have h1 : decodeMajor w = decodeOp w := by rw [decodeMajor, f25_6]; rfl
  have h2 : decodeOp w = pure (.add (w.extractLsb' 20 5) (w.extractLsb' 15 5) (w.extractLsb' 10 5)) := by rw [decodeOp, f0_10]; rfl
  rw [h1, h2, f20_5, f15_5, f10_5]; rfl
theorem sub (d : BitVec 5) (a : BitVec 5) (b : BitVec 5) : Statement (.sub d a b) := by
  intro s hwf
  have f25_6 : (encode s (.sub d a b)).extractLsb' 25 6 = 0x01#6 := Ext.hi 15 <| Ext.hi 10 <| Ext.hi 5 <| Ext.hi 0 <| Ext.lo <| (Ext.all _)
  have f0_10 : (encode s (.sub d a b)).extractLsb' 0 10 = 1#10 := Ext.lo <| (Ext.all _)
  have f20_5 : (encode s (.sub d a b)).extractLsb' 20 5 = d := Ext.hi 10 <| Ext.hi 5 <| Ext.hi 0 <| Ext.lo <| (Ext.all _)
  have f15_5 : (encode s (.sub d a b)).extractLsb' 15 5 = a := Ext.hi 5 <| Ext.hi 0 <| Ext.lo <| (Ext.all _)
  have f10_5 : (encode s (.sub d a b)).extractLsb' 10 5 = b := Ext.hi 0 <| Ext.lo <| (Ext.all _)
  have f31 : (encode s (.sub d a b)).getLsbD 31 = s := Ext.marker (Ext.hi 21 <| Ext.hi 16 <| Ext.hi 11 <| Ext.hi 6 <| Ext.hi 0 <| (Ext.all _))
  generalize encode s (.sub d a b) = w at *
  refine decode_of f25_6 (by decide) (by decide) f31 ?_ hwf
  have h1 : decodeMajor w = decodeOp w := by rw [decodeMajor, f25_6]; rfl
  have h2 : decodeOp w = pure (.sub (w.extractLsb' 20 5) (w.extractLsb' 15 5) (w.extractLsb' 10 5)) := by rw [decodeOp, f0_10]; rfl
  rw [h1, h2, f20_5, f15_5, f10_5]; rfl
theorem and (d : BitVec 5) (a : BitVec 5) (b : BitVec 5) : Statement (.and d a b) := by
  intro s hwf
  have f25_6 : (encode s (.and d a b)).extractLsb' 25 6 = 0x01#6 := Ext.hi 15 <| Ext.hi 10 <| Ext.hi 5 <| Ext.hi 0 <| Ext.lo <| (Ext.all _)
  have f0_10 : (encode s (.and d a b)).extractLsb' 0 10 = 2#10 := Ext.lo <| (Ext.all _)
  have f20_5 : (encode s (.and d a b)).extractLsb' 20 5 = d := Ext.hi 10 <| Ext.hi 5 <| Ext.hi 0 <| Ext.lo <| (Ext.all _)
  have f15_5 : (encode s (.and d a b)).extractLsb' 15 5 = a := Ext.hi 5 <| Ext.hi 0 <| Ext.lo <| (Ext.all _)
  have f10_5 : (encode s (.and d a b)).extractLsb' 10 5 = b := Ext.hi 0 <| Ext.lo <| (Ext.all _)
  have f31 : (encode s (.and d a b)).getLsbD 31 = s := Ext.marker (Ext.hi 21 <| Ext.hi 16 <| Ext.hi 11 <| Ext.hi 6 <| Ext.hi 0 <| (Ext.all _))
  generalize encode s (.and d a b) = w at *
  refine decode_of f25_6 (by decide) (by decide) f31 ?_ hwf
  have h1 : decodeMajor w = decodeOp w := by rw [decodeMajor, f25_6]; rfl
  have h2 : decodeOp w = pure (.and (w.extractLsb' 20 5) (w.extractLsb' 15 5) (w.extractLsb' 10 5)) := by rw [decodeOp, f0_10]; rfl
  rw [h1, h2, f20_5, f15_5, f10_5]; rfl
theorem or (d : BitVec 5) (a : BitVec 5) (b : BitVec 5) : Statement (.or d a b) := by
  intro s hwf
  have f25_6 : (encode s (.or d a b)).extractLsb' 25 6 = 0x01#6 := Ext.hi 15 <| Ext.hi 10 <| Ext.hi 5 <| Ext.hi 0 <| Ext.lo <| (Ext.all _)
  have f0_10 : (encode s (.or d a b)).extractLsb' 0 10 = 3#10 := Ext.lo <| (Ext.all _)
  have f20_5 : (encode s (.or d a b)).extractLsb' 20 5 = d := Ext.hi 10 <| Ext.hi 5 <| Ext.hi 0 <| Ext.lo <| (Ext.all _)
  have f15_5 : (encode s (.or d a b)).extractLsb' 15 5 = a := Ext.hi 5 <| Ext.hi 0 <| Ext.lo <| (Ext.all _)
  have f10_5 : (encode s (.or d a b)).extractLsb' 10 5 = b := Ext.hi 0 <| Ext.lo <| (Ext.all _)
  have f31 : (encode s (.or d a b)).getLsbD 31 = s := Ext.marker (Ext.hi 21 <| Ext.hi 16 <| Ext.hi 11 <| Ext.hi 6 <| Ext.hi 0 <| (Ext.all _))
  generalize encode s (.or d a b) = w at *
  refine decode_of f25_6 (by decide) (by decide) f31 ?_ hwf
  have h1 : decodeMajor w = decodeOp w := by rw [decodeMajor, f25_6]; rfl
  have h2 : decodeOp w = pure (.or (w.extractLsb' 20 5) (w.extractLsb' 15 5) (w.extractLsb' 10 5)) := by rw [decodeOp, f0_10]; rfl
  rw [h1, h2, f20_5, f15_5, f10_5]; rfl
theorem xor (d : BitVec 5) (a : BitVec 5) (b : BitVec 5) : Statement (.xor d a b) := by
  intro s hwf
  have f25_6 : (encode s (.xor d a b)).extractLsb' 25 6 = 0x01#6 := Ext.hi 15 <| Ext.hi 10 <| Ext.hi 5 <| Ext.hi 0 <| Ext.lo <| (Ext.all _)
  have f0_10 : (encode s (.xor d a b)).extractLsb' 0 10 = 4#10 := Ext.lo <| (Ext.all _)
  have f20_5 : (encode s (.xor d a b)).extractLsb' 20 5 = d := Ext.hi 10 <| Ext.hi 5 <| Ext.hi 0 <| Ext.lo <| (Ext.all _)
  have f15_5 : (encode s (.xor d a b)).extractLsb' 15 5 = a := Ext.hi 5 <| Ext.hi 0 <| Ext.lo <| (Ext.all _)
  have f10_5 : (encode s (.xor d a b)).extractLsb' 10 5 = b := Ext.hi 0 <| Ext.lo <| (Ext.all _)
  have f31 : (encode s (.xor d a b)).getLsbD 31 = s := Ext.marker (Ext.hi 21 <| Ext.hi 16 <| Ext.hi 11 <| Ext.hi 6 <| Ext.hi 0 <| (Ext.all _))
  generalize encode s (.xor d a b) = w at *
  refine decode_of f25_6 (by decide) (by decide) f31 ?_ hwf
  have h1 : decodeMajor w = decodeOp w := by rw [decodeMajor, f25_6]; rfl
  have h2 : decodeOp w = pure (.xor (w.extractLsb' 20 5) (w.extractLsb' 15 5) (w.extractLsb' 10 5)) := by rw [decodeOp, f0_10]; rfl
  rw [h1, h2, f20_5, f15_5, f10_5]; rfl
theorem andn (d : BitVec 5) (a : BitVec 5) (b : BitVec 5) : Statement (.andn d a b) := by
  intro s hwf
  have f25_6 : (encode s (.andn d a b)).extractLsb' 25 6 = 0x01#6 := Ext.hi 15 <| Ext.hi 10 <| Ext.hi 5 <| Ext.hi 0 <| Ext.lo <| (Ext.all _)
  have f0_10 : (encode s (.andn d a b)).extractLsb' 0 10 = 5#10 := Ext.lo <| (Ext.all _)
  have f20_5 : (encode s (.andn d a b)).extractLsb' 20 5 = d := Ext.hi 10 <| Ext.hi 5 <| Ext.hi 0 <| Ext.lo <| (Ext.all _)
  have f15_5 : (encode s (.andn d a b)).extractLsb' 15 5 = a := Ext.hi 5 <| Ext.hi 0 <| Ext.lo <| (Ext.all _)
  have f10_5 : (encode s (.andn d a b)).extractLsb' 10 5 = b := Ext.hi 0 <| Ext.lo <| (Ext.all _)
  have f31 : (encode s (.andn d a b)).getLsbD 31 = s := Ext.marker (Ext.hi 21 <| Ext.hi 16 <| Ext.hi 11 <| Ext.hi 6 <| Ext.hi 0 <| (Ext.all _))
  generalize encode s (.andn d a b) = w at *
  refine decode_of f25_6 (by decide) (by decide) f31 ?_ hwf
  have h1 : decodeMajor w = decodeOp w := by rw [decodeMajor, f25_6]; rfl
  have h2 : decodeOp w = pure (.andn (w.extractLsb' 20 5) (w.extractLsb' 15 5) (w.extractLsb' 10 5)) := by rw [decodeOp, f0_10]; rfl
  rw [h1, h2, f20_5, f15_5, f10_5]; rfl
theorem sll (d : BitVec 5) (a : BitVec 5) (b : BitVec 5) : Statement (.sll d a b) := by
  intro s hwf
  have f25_6 : (encode s (.sll d a b)).extractLsb' 25 6 = 0x01#6 := Ext.hi 15 <| Ext.hi 10 <| Ext.hi 5 <| Ext.hi 0 <| Ext.lo <| (Ext.all _)
  have f0_10 : (encode s (.sll d a b)).extractLsb' 0 10 = 6#10 := Ext.lo <| (Ext.all _)
  have f20_5 : (encode s (.sll d a b)).extractLsb' 20 5 = d := Ext.hi 10 <| Ext.hi 5 <| Ext.hi 0 <| Ext.lo <| (Ext.all _)
  have f15_5 : (encode s (.sll d a b)).extractLsb' 15 5 = a := Ext.hi 5 <| Ext.hi 0 <| Ext.lo <| (Ext.all _)
  have f10_5 : (encode s (.sll d a b)).extractLsb' 10 5 = b := Ext.hi 0 <| Ext.lo <| (Ext.all _)
  have f31 : (encode s (.sll d a b)).getLsbD 31 = s := Ext.marker (Ext.hi 21 <| Ext.hi 16 <| Ext.hi 11 <| Ext.hi 6 <| Ext.hi 0 <| (Ext.all _))
  generalize encode s (.sll d a b) = w at *
  refine decode_of f25_6 (by decide) (by decide) f31 ?_ hwf
  have h1 : decodeMajor w = decodeOp w := by rw [decodeMajor, f25_6]; rfl
  have h2 : decodeOp w = pure (.sll (w.extractLsb' 20 5) (w.extractLsb' 15 5) (w.extractLsb' 10 5)) := by rw [decodeOp, f0_10]; rfl
  rw [h1, h2, f20_5, f15_5, f10_5]; rfl
theorem srl (d : BitVec 5) (a : BitVec 5) (b : BitVec 5) : Statement (.srl d a b) := by
  intro s hwf
  have f25_6 : (encode s (.srl d a b)).extractLsb' 25 6 = 0x01#6 := Ext.hi 15 <| Ext.hi 10 <| Ext.hi 5 <| Ext.hi 0 <| Ext.lo <| (Ext.all _)
  have f0_10 : (encode s (.srl d a b)).extractLsb' 0 10 = 7#10 := Ext.lo <| (Ext.all _)
  have f20_5 : (encode s (.srl d a b)).extractLsb' 20 5 = d := Ext.hi 10 <| Ext.hi 5 <| Ext.hi 0 <| Ext.lo <| (Ext.all _)
  have f15_5 : (encode s (.srl d a b)).extractLsb' 15 5 = a := Ext.hi 5 <| Ext.hi 0 <| Ext.lo <| (Ext.all _)
  have f10_5 : (encode s (.srl d a b)).extractLsb' 10 5 = b := Ext.hi 0 <| Ext.lo <| (Ext.all _)
  have f31 : (encode s (.srl d a b)).getLsbD 31 = s := Ext.marker (Ext.hi 21 <| Ext.hi 16 <| Ext.hi 11 <| Ext.hi 6 <| Ext.hi 0 <| (Ext.all _))
  generalize encode s (.srl d a b) = w at *
  refine decode_of f25_6 (by decide) (by decide) f31 ?_ hwf
  have h1 : decodeMajor w = decodeOp w := by rw [decodeMajor, f25_6]; rfl
  have h2 : decodeOp w = pure (.srl (w.extractLsb' 20 5) (w.extractLsb' 15 5) (w.extractLsb' 10 5)) := by rw [decodeOp, f0_10]; rfl
  rw [h1, h2, f20_5, f15_5, f10_5]; rfl
theorem sra (d : BitVec 5) (a : BitVec 5) (b : BitVec 5) : Statement (.sra d a b) := by
  intro s hwf
  have f25_6 : (encode s (.sra d a b)).extractLsb' 25 6 = 0x01#6 := Ext.hi 15 <| Ext.hi 10 <| Ext.hi 5 <| Ext.hi 0 <| Ext.lo <| (Ext.all _)
  have f0_10 : (encode s (.sra d a b)).extractLsb' 0 10 = 8#10 := Ext.lo <| (Ext.all _)
  have f20_5 : (encode s (.sra d a b)).extractLsb' 20 5 = d := Ext.hi 10 <| Ext.hi 5 <| Ext.hi 0 <| Ext.lo <| (Ext.all _)
  have f15_5 : (encode s (.sra d a b)).extractLsb' 15 5 = a := Ext.hi 5 <| Ext.hi 0 <| Ext.lo <| (Ext.all _)
  have f10_5 : (encode s (.sra d a b)).extractLsb' 10 5 = b := Ext.hi 0 <| Ext.lo <| (Ext.all _)
  have f31 : (encode s (.sra d a b)).getLsbD 31 = s := Ext.marker (Ext.hi 21 <| Ext.hi 16 <| Ext.hi 11 <| Ext.hi 6 <| Ext.hi 0 <| (Ext.all _))
  generalize encode s (.sra d a b) = w at *
  refine decode_of f25_6 (by decide) (by decide) f31 ?_ hwf
  have h1 : decodeMajor w = decodeOp w := by rw [decodeMajor, f25_6]; rfl
  have h2 : decodeOp w = pure (.sra (w.extractLsb' 20 5) (w.extractLsb' 15 5) (w.extractLsb' 10 5)) := by rw [decodeOp, f0_10]; rfl
  rw [h1, h2, f20_5, f15_5, f10_5]; rfl
theorem slt (d : BitVec 5) (a : BitVec 5) (b : BitVec 5) : Statement (.slt d a b) := by
  intro s hwf
  have f25_6 : (encode s (.slt d a b)).extractLsb' 25 6 = 0x01#6 := Ext.hi 15 <| Ext.hi 10 <| Ext.hi 5 <| Ext.hi 0 <| Ext.lo <| (Ext.all _)
  have f0_10 : (encode s (.slt d a b)).extractLsb' 0 10 = 11#10 := Ext.lo <| (Ext.all _)
  have f20_5 : (encode s (.slt d a b)).extractLsb' 20 5 = d := Ext.hi 10 <| Ext.hi 5 <| Ext.hi 0 <| Ext.lo <| (Ext.all _)
  have f15_5 : (encode s (.slt d a b)).extractLsb' 15 5 = a := Ext.hi 5 <| Ext.hi 0 <| Ext.lo <| (Ext.all _)
  have f10_5 : (encode s (.slt d a b)).extractLsb' 10 5 = b := Ext.hi 0 <| Ext.lo <| (Ext.all _)
  have f31 : (encode s (.slt d a b)).getLsbD 31 = s := Ext.marker (Ext.hi 21 <| Ext.hi 16 <| Ext.hi 11 <| Ext.hi 6 <| Ext.hi 0 <| (Ext.all _))
  generalize encode s (.slt d a b) = w at *
  refine decode_of f25_6 (by decide) (by decide) f31 ?_ hwf
  have h1 : decodeMajor w = decodeOp w := by rw [decodeMajor, f25_6]; rfl
  have h2 : decodeOp w = pure (.slt (w.extractLsb' 20 5) (w.extractLsb' 15 5) (w.extractLsb' 10 5)) := by rw [decodeOp, f0_10]; rfl
  rw [h1, h2, f20_5, f15_5, f10_5]; rfl
theorem sltu (d : BitVec 5) (a : BitVec 5) (b : BitVec 5) : Statement (.sltu d a b) := by
  intro s hwf
  have f25_6 : (encode s (.sltu d a b)).extractLsb' 25 6 = 0x01#6 := Ext.hi 15 <| Ext.hi 10 <| Ext.hi 5 <| Ext.hi 0 <| Ext.lo <| (Ext.all _)
  have f0_10 : (encode s (.sltu d a b)).extractLsb' 0 10 = 12#10 := Ext.lo <| (Ext.all _)
  have f20_5 : (encode s (.sltu d a b)).extractLsb' 20 5 = d := Ext.hi 10 <| Ext.hi 5 <| Ext.hi 0 <| Ext.lo <| (Ext.all _)
  have f15_5 : (encode s (.sltu d a b)).extractLsb' 15 5 = a := Ext.hi 5 <| Ext.hi 0 <| Ext.lo <| (Ext.all _)
  have f10_5 : (encode s (.sltu d a b)).extractLsb' 10 5 = b := Ext.hi 0 <| Ext.lo <| (Ext.all _)
  have f31 : (encode s (.sltu d a b)).getLsbD 31 = s := Ext.marker (Ext.hi 21 <| Ext.hi 16 <| Ext.hi 11 <| Ext.hi 6 <| Ext.hi 0 <| (Ext.all _))
  generalize encode s (.sltu d a b) = w at *
  refine decode_of f25_6 (by decide) (by decide) f31 ?_ hwf
  have h1 : decodeMajor w = decodeOp w := by rw [decodeMajor, f25_6]; rfl
  have h2 : decodeOp w = pure (.sltu (w.extractLsb' 20 5) (w.extractLsb' 15 5) (w.extractLsb' 10 5)) := by rw [decodeOp, f0_10]; rfl
  rw [h1, h2, f20_5, f15_5, f10_5]; rfl
theorem min (d : BitVec 5) (a : BitVec 5) (b : BitVec 5) : Statement (.min d a b) := by
  intro s hwf
  have f25_6 : (encode s (.min d a b)).extractLsb' 25 6 = 0x01#6 := Ext.hi 15 <| Ext.hi 10 <| Ext.hi 5 <| Ext.hi 0 <| Ext.lo <| (Ext.all _)
  have f0_10 : (encode s (.min d a b)).extractLsb' 0 10 = 13#10 := Ext.lo <| (Ext.all _)
  have f20_5 : (encode s (.min d a b)).extractLsb' 20 5 = d := Ext.hi 10 <| Ext.hi 5 <| Ext.hi 0 <| Ext.lo <| (Ext.all _)
  have f15_5 : (encode s (.min d a b)).extractLsb' 15 5 = a := Ext.hi 5 <| Ext.hi 0 <| Ext.lo <| (Ext.all _)
  have f10_5 : (encode s (.min d a b)).extractLsb' 10 5 = b := Ext.hi 0 <| Ext.lo <| (Ext.all _)
  have f31 : (encode s (.min d a b)).getLsbD 31 = s := Ext.marker (Ext.hi 21 <| Ext.hi 16 <| Ext.hi 11 <| Ext.hi 6 <| Ext.hi 0 <| (Ext.all _))
  generalize encode s (.min d a b) = w at *
  refine decode_of f25_6 (by decide) (by decide) f31 ?_ hwf
  have h1 : decodeMajor w = decodeOp w := by rw [decodeMajor, f25_6]; rfl
  have h2 : decodeOp w = pure (.min (w.extractLsb' 20 5) (w.extractLsb' 15 5) (w.extractLsb' 10 5)) := by rw [decodeOp, f0_10]; rfl
  rw [h1, h2, f20_5, f15_5, f10_5]; rfl
theorem max (d : BitVec 5) (a : BitVec 5) (b : BitVec 5) : Statement (.max d a b) := by
  intro s hwf
  have f25_6 : (encode s (.max d a b)).extractLsb' 25 6 = 0x01#6 := Ext.hi 15 <| Ext.hi 10 <| Ext.hi 5 <| Ext.hi 0 <| Ext.lo <| (Ext.all _)
  have f0_10 : (encode s (.max d a b)).extractLsb' 0 10 = 14#10 := Ext.lo <| (Ext.all _)
  have f20_5 : (encode s (.max d a b)).extractLsb' 20 5 = d := Ext.hi 10 <| Ext.hi 5 <| Ext.hi 0 <| Ext.lo <| (Ext.all _)
  have f15_5 : (encode s (.max d a b)).extractLsb' 15 5 = a := Ext.hi 5 <| Ext.hi 0 <| Ext.lo <| (Ext.all _)
  have f10_5 : (encode s (.max d a b)).extractLsb' 10 5 = b := Ext.hi 0 <| Ext.lo <| (Ext.all _)
  have f31 : (encode s (.max d a b)).getLsbD 31 = s := Ext.marker (Ext.hi 21 <| Ext.hi 16 <| Ext.hi 11 <| Ext.hi 6 <| Ext.hi 0 <| (Ext.all _))
  generalize encode s (.max d a b) = w at *
  refine decode_of f25_6 (by decide) (by decide) f31 ?_ hwf
  have h1 : decodeMajor w = decodeOp w := by rw [decodeMajor, f25_6]; rfl
  have h2 : decodeOp w = pure (.max (w.extractLsb' 20 5) (w.extractLsb' 15 5) (w.extractLsb' 10 5)) := by rw [decodeOp, f0_10]; rfl
  rw [h1, h2, f20_5, f15_5, f10_5]; rfl
theorem minu (d : BitVec 5) (a : BitVec 5) (b : BitVec 5) : Statement (.minu d a b) := by
  intro s hwf
  have f25_6 : (encode s (.minu d a b)).extractLsb' 25 6 = 0x01#6 := Ext.hi 15 <| Ext.hi 10 <| Ext.hi 5 <| Ext.hi 0 <| Ext.lo <| (Ext.all _)
  have f0_10 : (encode s (.minu d a b)).extractLsb' 0 10 = 15#10 := Ext.lo <| (Ext.all _)
  have f20_5 : (encode s (.minu d a b)).extractLsb' 20 5 = d := Ext.hi 10 <| Ext.hi 5 <| Ext.hi 0 <| Ext.lo <| (Ext.all _)
  have f15_5 : (encode s (.minu d a b)).extractLsb' 15 5 = a := Ext.hi 5 <| Ext.hi 0 <| Ext.lo <| (Ext.all _)
  have f10_5 : (encode s (.minu d a b)).extractLsb' 10 5 = b := Ext.hi 0 <| Ext.lo <| (Ext.all _)
  have f31 : (encode s (.minu d a b)).getLsbD 31 = s := Ext.marker (Ext.hi 21 <| Ext.hi 16 <| Ext.hi 11 <| Ext.hi 6 <| Ext.hi 0 <| (Ext.all _))
  generalize encode s (.minu d a b) = w at *
  refine decode_of f25_6 (by decide) (by decide) f31 ?_ hwf
  have h1 : decodeMajor w = decodeOp w := by rw [decodeMajor, f25_6]; rfl
  have h2 : decodeOp w = pure (.minu (w.extractLsb' 20 5) (w.extractLsb' 15 5) (w.extractLsb' 10 5)) := by rw [decodeOp, f0_10]; rfl
  rw [h1, h2, f20_5, f15_5, f10_5]; rfl
theorem maxu (d : BitVec 5) (a : BitVec 5) (b : BitVec 5) : Statement (.maxu d a b) := by
  intro s hwf
  have f25_6 : (encode s (.maxu d a b)).extractLsb' 25 6 = 0x01#6 := Ext.hi 15 <| Ext.hi 10 <| Ext.hi 5 <| Ext.hi 0 <| Ext.lo <| (Ext.all _)
  have f0_10 : (encode s (.maxu d a b)).extractLsb' 0 10 = 16#10 := Ext.lo <| (Ext.all _)
  have f20_5 : (encode s (.maxu d a b)).extractLsb' 20 5 = d := Ext.hi 10 <| Ext.hi 5 <| Ext.hi 0 <| Ext.lo <| (Ext.all _)
  have f15_5 : (encode s (.maxu d a b)).extractLsb' 15 5 = a := Ext.hi 5 <| Ext.hi 0 <| Ext.lo <| (Ext.all _)
  have f10_5 : (encode s (.maxu d a b)).extractLsb' 10 5 = b := Ext.hi 0 <| Ext.lo <| (Ext.all _)
  have f31 : (encode s (.maxu d a b)).getLsbD 31 = s := Ext.marker (Ext.hi 21 <| Ext.hi 16 <| Ext.hi 11 <| Ext.hi 6 <| Ext.hi 0 <| (Ext.all _))
  generalize encode s (.maxu d a b) = w at *
  refine decode_of f25_6 (by decide) (by decide) f31 ?_ hwf
  have h1 : decodeMajor w = decodeOp w := by rw [decodeMajor, f25_6]; rfl
  have h2 : decodeOp w = pure (.maxu (w.extractLsb' 20 5) (w.extractLsb' 15 5) (w.extractLsb' 10 5)) := by rw [decodeOp, f0_10]; rfl
  rw [h1, h2, f20_5, f15_5, f10_5]; rfl
theorem mul (d : BitVec 5) (a : BitVec 5) (b : BitVec 5) : Statement (.mul d a b) := by
  intro s hwf
  have f25_6 : (encode s (.mul d a b)).extractLsb' 25 6 = 0x01#6 := Ext.hi 15 <| Ext.hi 10 <| Ext.hi 5 <| Ext.hi 0 <| Ext.lo <| (Ext.all _)
  have f0_10 : (encode s (.mul d a b)).extractLsb' 0 10 = 17#10 := Ext.lo <| (Ext.all _)
  have f20_5 : (encode s (.mul d a b)).extractLsb' 20 5 = d := Ext.hi 10 <| Ext.hi 5 <| Ext.hi 0 <| Ext.lo <| (Ext.all _)
  have f15_5 : (encode s (.mul d a b)).extractLsb' 15 5 = a := Ext.hi 5 <| Ext.hi 0 <| Ext.lo <| (Ext.all _)
  have f10_5 : (encode s (.mul d a b)).extractLsb' 10 5 = b := Ext.hi 0 <| Ext.lo <| (Ext.all _)
  have f31 : (encode s (.mul d a b)).getLsbD 31 = s := Ext.marker (Ext.hi 21 <| Ext.hi 16 <| Ext.hi 11 <| Ext.hi 6 <| Ext.hi 0 <| (Ext.all _))
  generalize encode s (.mul d a b) = w at *
  refine decode_of f25_6 (by decide) (by decide) f31 ?_ hwf
  have h1 : decodeMajor w = decodeOp w := by rw [decodeMajor, f25_6]; rfl
  have h2 : decodeOp w = pure (.mul (w.extractLsb' 20 5) (w.extractLsb' 15 5) (w.extractLsb' 10 5)) := by rw [decodeOp, f0_10]; rfl
  rw [h1, h2, f20_5, f15_5, f10_5]; rfl
theorem mulh (d : BitVec 5) (a : BitVec 5) (b : BitVec 5) : Statement (.mulh d a b) := by
  intro s hwf
  have f25_6 : (encode s (.mulh d a b)).extractLsb' 25 6 = 0x01#6 := Ext.hi 15 <| Ext.hi 10 <| Ext.hi 5 <| Ext.hi 0 <| Ext.lo <| (Ext.all _)
  have f0_10 : (encode s (.mulh d a b)).extractLsb' 0 10 = 18#10 := Ext.lo <| (Ext.all _)
  have f20_5 : (encode s (.mulh d a b)).extractLsb' 20 5 = d := Ext.hi 10 <| Ext.hi 5 <| Ext.hi 0 <| Ext.lo <| (Ext.all _)
  have f15_5 : (encode s (.mulh d a b)).extractLsb' 15 5 = a := Ext.hi 5 <| Ext.hi 0 <| Ext.lo <| (Ext.all _)
  have f10_5 : (encode s (.mulh d a b)).extractLsb' 10 5 = b := Ext.hi 0 <| Ext.lo <| (Ext.all _)
  have f31 : (encode s (.mulh d a b)).getLsbD 31 = s := Ext.marker (Ext.hi 21 <| Ext.hi 16 <| Ext.hi 11 <| Ext.hi 6 <| Ext.hi 0 <| (Ext.all _))
  generalize encode s (.mulh d a b) = w at *
  refine decode_of f25_6 (by decide) (by decide) f31 ?_ hwf
  have h1 : decodeMajor w = decodeOp w := by rw [decodeMajor, f25_6]; rfl
  have h2 : decodeOp w = pure (.mulh (w.extractLsb' 20 5) (w.extractLsb' 15 5) (w.extractLsb' 10 5)) := by rw [decodeOp, f0_10]; rfl
  rw [h1, h2, f20_5, f15_5, f10_5]; rfl
theorem mulhu (d : BitVec 5) (a : BitVec 5) (b : BitVec 5) : Statement (.mulhu d a b) := by
  intro s hwf
  have f25_6 : (encode s (.mulhu d a b)).extractLsb' 25 6 = 0x01#6 := Ext.hi 15 <| Ext.hi 10 <| Ext.hi 5 <| Ext.hi 0 <| Ext.lo <| (Ext.all _)
  have f0_10 : (encode s (.mulhu d a b)).extractLsb' 0 10 = 19#10 := Ext.lo <| (Ext.all _)
  have f20_5 : (encode s (.mulhu d a b)).extractLsb' 20 5 = d := Ext.hi 10 <| Ext.hi 5 <| Ext.hi 0 <| Ext.lo <| (Ext.all _)
  have f15_5 : (encode s (.mulhu d a b)).extractLsb' 15 5 = a := Ext.hi 5 <| Ext.hi 0 <| Ext.lo <| (Ext.all _)
  have f10_5 : (encode s (.mulhu d a b)).extractLsb' 10 5 = b := Ext.hi 0 <| Ext.lo <| (Ext.all _)
  have f31 : (encode s (.mulhu d a b)).getLsbD 31 = s := Ext.marker (Ext.hi 21 <| Ext.hi 16 <| Ext.hi 11 <| Ext.hi 6 <| Ext.hi 0 <| (Ext.all _))
  generalize encode s (.mulhu d a b) = w at *
  refine decode_of f25_6 (by decide) (by decide) f31 ?_ hwf
  have h1 : decodeMajor w = decodeOp w := by rw [decodeMajor, f25_6]; rfl
  have h2 : decodeOp w = pure (.mulhu (w.extractLsb' 20 5) (w.extractLsb' 15 5) (w.extractLsb' 10 5)) := by rw [decodeOp, f0_10]; rfl
  rw [h1, h2, f20_5, f15_5, f10_5]; rfl
theorem div (d : BitVec 5) (a : BitVec 5) (b : BitVec 5) : Statement (.div d a b) := by
  intro s hwf
  have f25_6 : (encode s (.div d a b)).extractLsb' 25 6 = 0x01#6 := Ext.hi 15 <| Ext.hi 10 <| Ext.hi 5 <| Ext.hi 0 <| Ext.lo <| (Ext.all _)
  have f0_10 : (encode s (.div d a b)).extractLsb' 0 10 = 21#10 := Ext.lo <| (Ext.all _)
  have f20_5 : (encode s (.div d a b)).extractLsb' 20 5 = d := Ext.hi 10 <| Ext.hi 5 <| Ext.hi 0 <| Ext.lo <| (Ext.all _)
  have f15_5 : (encode s (.div d a b)).extractLsb' 15 5 = a := Ext.hi 5 <| Ext.hi 0 <| Ext.lo <| (Ext.all _)
  have f10_5 : (encode s (.div d a b)).extractLsb' 10 5 = b := Ext.hi 0 <| Ext.lo <| (Ext.all _)
  have f31 : (encode s (.div d a b)).getLsbD 31 = s := Ext.marker (Ext.hi 21 <| Ext.hi 16 <| Ext.hi 11 <| Ext.hi 6 <| Ext.hi 0 <| (Ext.all _))
  generalize encode s (.div d a b) = w at *
  refine decode_of f25_6 (by decide) (by decide) f31 ?_ hwf
  have h1 : decodeMajor w = decodeOp w := by rw [decodeMajor, f25_6]; rfl
  have h2 : decodeOp w = pure (.div (w.extractLsb' 20 5) (w.extractLsb' 15 5) (w.extractLsb' 10 5)) := by rw [decodeOp, f0_10]; rfl
  rw [h1, h2, f20_5, f15_5, f10_5]; rfl
theorem divu (d : BitVec 5) (a : BitVec 5) (b : BitVec 5) : Statement (.divu d a b) := by
  intro s hwf
  have f25_6 : (encode s (.divu d a b)).extractLsb' 25 6 = 0x01#6 := Ext.hi 15 <| Ext.hi 10 <| Ext.hi 5 <| Ext.hi 0 <| Ext.lo <| (Ext.all _)
  have f0_10 : (encode s (.divu d a b)).extractLsb' 0 10 = 22#10 := Ext.lo <| (Ext.all _)
  have f20_5 : (encode s (.divu d a b)).extractLsb' 20 5 = d := Ext.hi 10 <| Ext.hi 5 <| Ext.hi 0 <| Ext.lo <| (Ext.all _)
  have f15_5 : (encode s (.divu d a b)).extractLsb' 15 5 = a := Ext.hi 5 <| Ext.hi 0 <| Ext.lo <| (Ext.all _)
  have f10_5 : (encode s (.divu d a b)).extractLsb' 10 5 = b := Ext.hi 0 <| Ext.lo <| (Ext.all _)
  have f31 : (encode s (.divu d a b)).getLsbD 31 = s := Ext.marker (Ext.hi 21 <| Ext.hi 16 <| Ext.hi 11 <| Ext.hi 6 <| Ext.hi 0 <| (Ext.all _))
  generalize encode s (.divu d a b) = w at *
  refine decode_of f25_6 (by decide) (by decide) f31 ?_ hwf
  have h1 : decodeMajor w = decodeOp w := by rw [decodeMajor, f25_6]; rfl
  have h2 : decodeOp w = pure (.divu (w.extractLsb' 20 5) (w.extractLsb' 15 5) (w.extractLsb' 10 5)) := by rw [decodeOp, f0_10]; rfl
  rw [h1, h2, f20_5, f15_5, f10_5]; rfl
theorem rem (d : BitVec 5) (a : BitVec 5) (b : BitVec 5) : Statement (.rem d a b) := by
  intro s hwf
  have f25_6 : (encode s (.rem d a b)).extractLsb' 25 6 = 0x01#6 := Ext.hi 15 <| Ext.hi 10 <| Ext.hi 5 <| Ext.hi 0 <| Ext.lo <| (Ext.all _)
  have f0_10 : (encode s (.rem d a b)).extractLsb' 0 10 = 23#10 := Ext.lo <| (Ext.all _)
  have f20_5 : (encode s (.rem d a b)).extractLsb' 20 5 = d := Ext.hi 10 <| Ext.hi 5 <| Ext.hi 0 <| Ext.lo <| (Ext.all _)
  have f15_5 : (encode s (.rem d a b)).extractLsb' 15 5 = a := Ext.hi 5 <| Ext.hi 0 <| Ext.lo <| (Ext.all _)
  have f10_5 : (encode s (.rem d a b)).extractLsb' 10 5 = b := Ext.hi 0 <| Ext.lo <| (Ext.all _)
  have f31 : (encode s (.rem d a b)).getLsbD 31 = s := Ext.marker (Ext.hi 21 <| Ext.hi 16 <| Ext.hi 11 <| Ext.hi 6 <| Ext.hi 0 <| (Ext.all _))
  generalize encode s (.rem d a b) = w at *
  refine decode_of f25_6 (by decide) (by decide) f31 ?_ hwf
  have h1 : decodeMajor w = decodeOp w := by rw [decodeMajor, f25_6]; rfl
  have h2 : decodeOp w = pure (.rem (w.extractLsb' 20 5) (w.extractLsb' 15 5) (w.extractLsb' 10 5)) := by rw [decodeOp, f0_10]; rfl
  rw [h1, h2, f20_5, f15_5, f10_5]; rfl
theorem remu (d : BitVec 5) (a : BitVec 5) (b : BitVec 5) : Statement (.remu d a b) := by
  intro s hwf
  have f25_6 : (encode s (.remu d a b)).extractLsb' 25 6 = 0x01#6 := Ext.hi 15 <| Ext.hi 10 <| Ext.hi 5 <| Ext.hi 0 <| Ext.lo <| (Ext.all _)
  have f0_10 : (encode s (.remu d a b)).extractLsb' 0 10 = 24#10 := Ext.lo <| (Ext.all _)
  have f20_5 : (encode s (.remu d a b)).extractLsb' 20 5 = d := Ext.hi 10 <| Ext.hi 5 <| Ext.hi 0 <| Ext.lo <| (Ext.all _)
  have f15_5 : (encode s (.remu d a b)).extractLsb' 15 5 = a := Ext.hi 5 <| Ext.hi 0 <| Ext.lo <| (Ext.all _)
  have f10_5 : (encode s (.remu d a b)).extractLsb' 10 5 = b := Ext.hi 0 <| Ext.lo <| (Ext.all _)
  have f31 : (encode s (.remu d a b)).getLsbD 31 = s := Ext.marker (Ext.hi 21 <| Ext.hi 16 <| Ext.hi 11 <| Ext.hi 6 <| Ext.hi 0 <| (Ext.all _))
  generalize encode s (.remu d a b) = w at *
  refine decode_of f25_6 (by decide) (by decide) f31 ?_ hwf
  have h1 : decodeMajor w = decodeOp w := by rw [decodeMajor, f25_6]; rfl
  have h2 : decodeOp w = pure (.remu (w.extractLsb' 20 5) (w.extractLsb' 15 5) (w.extractLsb' 10 5)) := by rw [decodeOp, f0_10]; rfl
  rw [h1, h2, f20_5, f15_5, f10_5]; rfl
theorem clz (d : BitVec 5) (a : BitVec 5) : Statement (.clz d a) := by
  intro s hwf
  have f25_6 : (encode s (.clz d a)).extractLsb' 25 6 = 0x01#6 := Ext.hi 10 <| Ext.hi 5 <| Ext.hi 0 <| Ext.lo <| (Ext.all _)
  have f0_10 : (encode s (.clz d a)).extractLsb' 0 10 = 25#10 := Ext.lo <| rfl
  have f10_5 : (encode s (.clz d a)).extractLsb' 10 5 = 0#5 := Ext.lo <| rfl
  have f20_5 : (encode s (.clz d a)).extractLsb' 20 5 = d := Ext.hi 5 <| Ext.hi 0 <| Ext.lo <| (Ext.all _)
  have f15_5 : (encode s (.clz d a)).extractLsb' 15 5 = a := Ext.hi 0 <| Ext.lo <| (Ext.all _)
  have f31 : (encode s (.clz d a)).getLsbD 31 = s := Ext.marker (Ext.hi 16 <| Ext.hi 11 <| Ext.hi 6 <| Ext.hi 0 <| (Ext.all _))
  generalize encode s (.clz d a) = w at *
  refine decode_of f25_6 (by decide) (by decide) f31 ?_ hwf
  have h1 : decodeMajor w = decodeOp w := by rw [decodeMajor, f25_6]; rfl
  have h2 : decodeOp w = fixedAt w 10 5 0 (pure (.clz (w.extractLsb' 20 5) (w.extractLsb' 15 5))) := by rw [decodeOp, f0_10]; rfl
  rw [h1, h2, fixedAt_ok f10_5, f20_5, f15_5]; rfl
theorem ctz (d : BitVec 5) (a : BitVec 5) : Statement (.ctz d a) := by
  intro s hwf
  have f25_6 : (encode s (.ctz d a)).extractLsb' 25 6 = 0x01#6 := Ext.hi 10 <| Ext.hi 5 <| Ext.hi 0 <| Ext.lo <| (Ext.all _)
  have f0_10 : (encode s (.ctz d a)).extractLsb' 0 10 = 26#10 := Ext.lo <| rfl
  have f10_5 : (encode s (.ctz d a)).extractLsb' 10 5 = 0#5 := Ext.lo <| rfl
  have f20_5 : (encode s (.ctz d a)).extractLsb' 20 5 = d := Ext.hi 5 <| Ext.hi 0 <| Ext.lo <| (Ext.all _)
  have f15_5 : (encode s (.ctz d a)).extractLsb' 15 5 = a := Ext.hi 0 <| Ext.lo <| (Ext.all _)
  have f31 : (encode s (.ctz d a)).getLsbD 31 = s := Ext.marker (Ext.hi 16 <| Ext.hi 11 <| Ext.hi 6 <| Ext.hi 0 <| (Ext.all _))
  generalize encode s (.ctz d a) = w at *
  refine decode_of f25_6 (by decide) (by decide) f31 ?_ hwf
  have h1 : decodeMajor w = decodeOp w := by rw [decodeMajor, f25_6]; rfl
  have h2 : decodeOp w = fixedAt w 10 5 0 (pure (.ctz (w.extractLsb' 20 5) (w.extractLsb' 15 5))) := by rw [decodeOp, f0_10]; rfl
  rw [h1, h2, fixedAt_ok f10_5, f20_5, f15_5]; rfl
theorem popc (d : BitVec 5) (a : BitVec 5) : Statement (.popc d a) := by
  intro s hwf
  have f25_6 : (encode s (.popc d a)).extractLsb' 25 6 = 0x01#6 := Ext.hi 10 <| Ext.hi 5 <| Ext.hi 0 <| Ext.lo <| (Ext.all _)
  have f0_10 : (encode s (.popc d a)).extractLsb' 0 10 = 27#10 := Ext.lo <| rfl
  have f10_5 : (encode s (.popc d a)).extractLsb' 10 5 = 0#5 := Ext.lo <| rfl
  have f20_5 : (encode s (.popc d a)).extractLsb' 20 5 = d := Ext.hi 5 <| Ext.hi 0 <| Ext.lo <| (Ext.all _)
  have f15_5 : (encode s (.popc d a)).extractLsb' 15 5 = a := Ext.hi 0 <| Ext.lo <| (Ext.all _)
  have f31 : (encode s (.popc d a)).getLsbD 31 = s := Ext.marker (Ext.hi 16 <| Ext.hi 11 <| Ext.hi 6 <| Ext.hi 0 <| (Ext.all _))
  generalize encode s (.popc d a) = w at *
  refine decode_of f25_6 (by decide) (by decide) f31 ?_ hwf
  have h1 : decodeMajor w = decodeOp w := by rw [decodeMajor, f25_6]; rfl
  have h2 : decodeOp w = fixedAt w 10 5 0 (pure (.popc (w.extractLsb' 20 5) (w.extractLsb' 15 5))) := by rw [decodeOp, f0_10]; rfl
  rw [h1, h2, fixedAt_ok f10_5, f20_5, f15_5]; rfl
theorem gpair (d : BitVec 5) (a : BitVec 5) (b : BitVec 5) : Statement (.gpair d a b) := by
  intro s hwf
  have f25_6 : (encode s (.gpair d a b)).extractLsb' 25 6 = 0x01#6 := Ext.hi 15 <| Ext.hi 10 <| Ext.hi 5 <| Ext.hi 0 <| Ext.lo <| (Ext.all _)
  have f0_10 : (encode s (.gpair d a b)).extractLsb' 0 10 = 28#10 := Ext.lo <| (Ext.all _)
  have f20_5 : (encode s (.gpair d a b)).extractLsb' 20 5 = d := Ext.hi 10 <| Ext.hi 5 <| Ext.hi 0 <| Ext.lo <| (Ext.all _)
  have f15_5 : (encode s (.gpair d a b)).extractLsb' 15 5 = a := Ext.hi 5 <| Ext.hi 0 <| Ext.lo <| (Ext.all _)
  have f10_5 : (encode s (.gpair d a b)).extractLsb' 10 5 = b := Ext.hi 0 <| Ext.lo <| (Ext.all _)
  have f31 : (encode s (.gpair d a b)).getLsbD 31 = s := Ext.marker (Ext.hi 21 <| Ext.hi 16 <| Ext.hi 11 <| Ext.hi 6 <| Ext.hi 0 <| (Ext.all _))
  generalize encode s (.gpair d a b) = w at *
  refine decode_of f25_6 (by decide) (by decide) f31 ?_ hwf
  have h1 : decodeMajor w = decodeOp w := by rw [decodeMajor, f25_6]; rfl
  have h2 : decodeOp w = pure (.gpair (w.extractLsb' 20 5) (w.extractLsb' 15 5) (w.extractLsb' 10 5)) := by rw [decodeOp, f0_10]; rfl
  rw [h1, h2, f20_5, f15_5, f10_5]; rfl
theorem ghi (d : BitVec 5) (a : BitVec 5) : Statement (.ghi d a) := by
  intro s hwf
  have f25_6 : (encode s (.ghi d a)).extractLsb' 25 6 = 0x01#6 := Ext.hi 10 <| Ext.hi 5 <| Ext.hi 0 <| Ext.lo <| (Ext.all _)
  have f0_10 : (encode s (.ghi d a)).extractLsb' 0 10 = 29#10 := Ext.lo <| rfl
  have f10_5 : (encode s (.ghi d a)).extractLsb' 10 5 = 0#5 := Ext.lo <| rfl
  have f20_5 : (encode s (.ghi d a)).extractLsb' 20 5 = d := Ext.hi 5 <| Ext.hi 0 <| Ext.lo <| (Ext.all _)
  have f15_5 : (encode s (.ghi d a)).extractLsb' 15 5 = a := Ext.hi 0 <| Ext.lo <| (Ext.all _)
  have f31 : (encode s (.ghi d a)).getLsbD 31 = s := Ext.marker (Ext.hi 16 <| Ext.hi 11 <| Ext.hi 6 <| Ext.hi 0 <| (Ext.all _))
  generalize encode s (.ghi d a) = w at *
  refine decode_of f25_6 (by decide) (by decide) f31 ?_ hwf
  have h1 : decodeMajor w = decodeOp w := by rw [decodeMajor, f25_6]; rfl
  have h2 : decodeOp w = fixedAt w 10 5 0 (pure (.ghi (w.extractLsb' 20 5) (w.extractLsb' 15 5))) := by rw [decodeOp, f0_10]; rfl
  rw [h1, h2, fixedAt_ok f10_5, f20_5, f15_5]; rfl
theorem addw (d : BitVec 5) (a : BitVec 5) (b : BitVec 5) : Statement (.addw d a b) := by
  intro s hwf
  have f25_6 : (encode s (.addw d a b)).extractLsb' 25 6 = 0x02#6 := Ext.hi 15 <| Ext.hi 10 <| Ext.hi 5 <| Ext.hi 0 <| Ext.lo <| (Ext.all _)
  have f0_10 : (encode s (.addw d a b)).extractLsb' 0 10 = 0#10 := Ext.lo <| (Ext.all _)
  have f20_5 : (encode s (.addw d a b)).extractLsb' 20 5 = d := Ext.hi 10 <| Ext.hi 5 <| Ext.hi 0 <| Ext.lo <| (Ext.all _)
  have f15_5 : (encode s (.addw d a b)).extractLsb' 15 5 = a := Ext.hi 5 <| Ext.hi 0 <| Ext.lo <| (Ext.all _)
  have f10_5 : (encode s (.addw d a b)).extractLsb' 10 5 = b := Ext.hi 0 <| Ext.lo <| (Ext.all _)
  have f31 : (encode s (.addw d a b)).getLsbD 31 = s := Ext.marker (Ext.hi 21 <| Ext.hi 16 <| Ext.hi 11 <| Ext.hi 6 <| Ext.hi 0 <| (Ext.all _))
  generalize encode s (.addw d a b) = w at *
  refine decode_of f25_6 (by decide) (by decide) f31 ?_ hwf
  have h1 : decodeMajor w = decodeOpW w := by rw [decodeMajor, f25_6]; rfl
  have h2 : decodeOpW w = pure (.addw (w.extractLsb' 20 5) (w.extractLsb' 15 5) (w.extractLsb' 10 5)) := by rw [decodeOpW, f0_10]; rfl
  rw [h1, h2, f20_5, f15_5, f10_5]; rfl
theorem subw (d : BitVec 5) (a : BitVec 5) (b : BitVec 5) : Statement (.subw d a b) := by
  intro s hwf
  have f25_6 : (encode s (.subw d a b)).extractLsb' 25 6 = 0x02#6 := Ext.hi 15 <| Ext.hi 10 <| Ext.hi 5 <| Ext.hi 0 <| Ext.lo <| (Ext.all _)
  have f0_10 : (encode s (.subw d a b)).extractLsb' 0 10 = 1#10 := Ext.lo <| (Ext.all _)
  have f20_5 : (encode s (.subw d a b)).extractLsb' 20 5 = d := Ext.hi 10 <| Ext.hi 5 <| Ext.hi 0 <| Ext.lo <| (Ext.all _)
  have f15_5 : (encode s (.subw d a b)).extractLsb' 15 5 = a := Ext.hi 5 <| Ext.hi 0 <| Ext.lo <| (Ext.all _)
  have f10_5 : (encode s (.subw d a b)).extractLsb' 10 5 = b := Ext.hi 0 <| Ext.lo <| (Ext.all _)
  have f31 : (encode s (.subw d a b)).getLsbD 31 = s := Ext.marker (Ext.hi 21 <| Ext.hi 16 <| Ext.hi 11 <| Ext.hi 6 <| Ext.hi 0 <| (Ext.all _))
  generalize encode s (.subw d a b) = w at *
  refine decode_of f25_6 (by decide) (by decide) f31 ?_ hwf
  have h1 : decodeMajor w = decodeOpW w := by rw [decodeMajor, f25_6]; rfl
  have h2 : decodeOpW w = pure (.subw (w.extractLsb' 20 5) (w.extractLsb' 15 5) (w.extractLsb' 10 5)) := by rw [decodeOpW, f0_10]; rfl
  rw [h1, h2, f20_5, f15_5, f10_5]; rfl
theorem sllw (d : BitVec 5) (a : BitVec 5) (b : BitVec 5) : Statement (.sllw d a b) := by
  intro s hwf
  have f25_6 : (encode s (.sllw d a b)).extractLsb' 25 6 = 0x02#6 := Ext.hi 15 <| Ext.hi 10 <| Ext.hi 5 <| Ext.hi 0 <| Ext.lo <| (Ext.all _)
  have f0_10 : (encode s (.sllw d a b)).extractLsb' 0 10 = 6#10 := Ext.lo <| (Ext.all _)
  have f20_5 : (encode s (.sllw d a b)).extractLsb' 20 5 = d := Ext.hi 10 <| Ext.hi 5 <| Ext.hi 0 <| Ext.lo <| (Ext.all _)
  have f15_5 : (encode s (.sllw d a b)).extractLsb' 15 5 = a := Ext.hi 5 <| Ext.hi 0 <| Ext.lo <| (Ext.all _)
  have f10_5 : (encode s (.sllw d a b)).extractLsb' 10 5 = b := Ext.hi 0 <| Ext.lo <| (Ext.all _)
  have f31 : (encode s (.sllw d a b)).getLsbD 31 = s := Ext.marker (Ext.hi 21 <| Ext.hi 16 <| Ext.hi 11 <| Ext.hi 6 <| Ext.hi 0 <| (Ext.all _))
  generalize encode s (.sllw d a b) = w at *
  refine decode_of f25_6 (by decide) (by decide) f31 ?_ hwf
  have h1 : decodeMajor w = decodeOpW w := by rw [decodeMajor, f25_6]; rfl
  have h2 : decodeOpW w = pure (.sllw (w.extractLsb' 20 5) (w.extractLsb' 15 5) (w.extractLsb' 10 5)) := by rw [decodeOpW, f0_10]; rfl
  rw [h1, h2, f20_5, f15_5, f10_5]; rfl
theorem srlw (d : BitVec 5) (a : BitVec 5) (b : BitVec 5) : Statement (.srlw d a b) := by
  intro s hwf
  have f25_6 : (encode s (.srlw d a b)).extractLsb' 25 6 = 0x02#6 := Ext.hi 15 <| Ext.hi 10 <| Ext.hi 5 <| Ext.hi 0 <| Ext.lo <| (Ext.all _)
  have f0_10 : (encode s (.srlw d a b)).extractLsb' 0 10 = 7#10 := Ext.lo <| (Ext.all _)
  have f20_5 : (encode s (.srlw d a b)).extractLsb' 20 5 = d := Ext.hi 10 <| Ext.hi 5 <| Ext.hi 0 <| Ext.lo <| (Ext.all _)
  have f15_5 : (encode s (.srlw d a b)).extractLsb' 15 5 = a := Ext.hi 5 <| Ext.hi 0 <| Ext.lo <| (Ext.all _)
  have f10_5 : (encode s (.srlw d a b)).extractLsb' 10 5 = b := Ext.hi 0 <| Ext.lo <| (Ext.all _)
  have f31 : (encode s (.srlw d a b)).getLsbD 31 = s := Ext.marker (Ext.hi 21 <| Ext.hi 16 <| Ext.hi 11 <| Ext.hi 6 <| Ext.hi 0 <| (Ext.all _))
  generalize encode s (.srlw d a b) = w at *
  refine decode_of f25_6 (by decide) (by decide) f31 ?_ hwf
  have h1 : decodeMajor w = decodeOpW w := by rw [decodeMajor, f25_6]; rfl
  have h2 : decodeOpW w = pure (.srlw (w.extractLsb' 20 5) (w.extractLsb' 15 5) (w.extractLsb' 10 5)) := by rw [decodeOpW, f0_10]; rfl
  rw [h1, h2, f20_5, f15_5, f10_5]; rfl
theorem sraw (d : BitVec 5) (a : BitVec 5) (b : BitVec 5) : Statement (.sraw d a b) := by
  intro s hwf
  have f25_6 : (encode s (.sraw d a b)).extractLsb' 25 6 = 0x02#6 := Ext.hi 15 <| Ext.hi 10 <| Ext.hi 5 <| Ext.hi 0 <| Ext.lo <| (Ext.all _)
  have f0_10 : (encode s (.sraw d a b)).extractLsb' 0 10 = 8#10 := Ext.lo <| (Ext.all _)
  have f20_5 : (encode s (.sraw d a b)).extractLsb' 20 5 = d := Ext.hi 10 <| Ext.hi 5 <| Ext.hi 0 <| Ext.lo <| (Ext.all _)
  have f15_5 : (encode s (.sraw d a b)).extractLsb' 15 5 = a := Ext.hi 5 <| Ext.hi 0 <| Ext.lo <| (Ext.all _)
  have f10_5 : (encode s (.sraw d a b)).extractLsb' 10 5 = b := Ext.hi 0 <| Ext.lo <| (Ext.all _)
  have f31 : (encode s (.sraw d a b)).getLsbD 31 = s := Ext.marker (Ext.hi 21 <| Ext.hi 16 <| Ext.hi 11 <| Ext.hi 6 <| Ext.hi 0 <| (Ext.all _))
  generalize encode s (.sraw d a b) = w at *
  refine decode_of f25_6 (by decide) (by decide) f31 ?_ hwf
  have h1 : decodeMajor w = decodeOpW w := by rw [decodeMajor, f25_6]; rfl
  have h2 : decodeOpW w = pure (.sraw (w.extractLsb' 20 5) (w.extractLsb' 15 5) (w.extractLsb' 10 5)) := by rw [decodeOpW, f0_10]; rfl
  rw [h1, h2, f20_5, f15_5, f10_5]; rfl
theorem mulw (d : BitVec 5) (a : BitVec 5) (b : BitVec 5) : Statement (.mulw d a b) := by
  intro s hwf
  have f25_6 : (encode s (.mulw d a b)).extractLsb' 25 6 = 0x02#6 := Ext.hi 15 <| Ext.hi 10 <| Ext.hi 5 <| Ext.hi 0 <| Ext.lo <| (Ext.all _)
  have f0_10 : (encode s (.mulw d a b)).extractLsb' 0 10 = 17#10 := Ext.lo <| (Ext.all _)
  have f20_5 : (encode s (.mulw d a b)).extractLsb' 20 5 = d := Ext.hi 10 <| Ext.hi 5 <| Ext.hi 0 <| Ext.lo <| (Ext.all _)
  have f15_5 : (encode s (.mulw d a b)).extractLsb' 15 5 = a := Ext.hi 5 <| Ext.hi 0 <| Ext.lo <| (Ext.all _)
  have f10_5 : (encode s (.mulw d a b)).extractLsb' 10 5 = b := Ext.hi 0 <| Ext.lo <| (Ext.all _)
  have f31 : (encode s (.mulw d a b)).getLsbD 31 = s := Ext.marker (Ext.hi 21 <| Ext.hi 16 <| Ext.hi 11 <| Ext.hi 6 <| Ext.hi 0 <| (Ext.all _))
  generalize encode s (.mulw d a b) = w at *
  refine decode_of f25_6 (by decide) (by decide) f31 ?_ hwf
  have h1 : decodeMajor w = decodeOpW w := by rw [decodeMajor, f25_6]; rfl
  have h2 : decodeOpW w = pure (.mulw (w.extractLsb' 20 5) (w.extractLsb' 15 5) (w.extractLsb' 10 5)) := by rw [decodeOpW, f0_10]; rfl
  rw [h1, h2, f20_5, f15_5, f10_5]; rfl
theorem divw (d : BitVec 5) (a : BitVec 5) (b : BitVec 5) : Statement (.divw d a b) := by
  intro s hwf
  have f25_6 : (encode s (.divw d a b)).extractLsb' 25 6 = 0x02#6 := Ext.hi 15 <| Ext.hi 10 <| Ext.hi 5 <| Ext.hi 0 <| Ext.lo <| (Ext.all _)
  have f0_10 : (encode s (.divw d a b)).extractLsb' 0 10 = 21#10 := Ext.lo <| (Ext.all _)
  have f20_5 : (encode s (.divw d a b)).extractLsb' 20 5 = d := Ext.hi 10 <| Ext.hi 5 <| Ext.hi 0 <| Ext.lo <| (Ext.all _)
  have f15_5 : (encode s (.divw d a b)).extractLsb' 15 5 = a := Ext.hi 5 <| Ext.hi 0 <| Ext.lo <| (Ext.all _)
  have f10_5 : (encode s (.divw d a b)).extractLsb' 10 5 = b := Ext.hi 0 <| Ext.lo <| (Ext.all _)
  have f31 : (encode s (.divw d a b)).getLsbD 31 = s := Ext.marker (Ext.hi 21 <| Ext.hi 16 <| Ext.hi 11 <| Ext.hi 6 <| Ext.hi 0 <| (Ext.all _))
  generalize encode s (.divw d a b) = w at *
  refine decode_of f25_6 (by decide) (by decide) f31 ?_ hwf
  have h1 : decodeMajor w = decodeOpW w := by rw [decodeMajor, f25_6]; rfl
  have h2 : decodeOpW w = pure (.divw (w.extractLsb' 20 5) (w.extractLsb' 15 5) (w.extractLsb' 10 5)) := by rw [decodeOpW, f0_10]; rfl
  rw [h1, h2, f20_5, f15_5, f10_5]; rfl
theorem divuw (d : BitVec 5) (a : BitVec 5) (b : BitVec 5) : Statement (.divuw d a b) := by
  intro s hwf
  have f25_6 : (encode s (.divuw d a b)).extractLsb' 25 6 = 0x02#6 := Ext.hi 15 <| Ext.hi 10 <| Ext.hi 5 <| Ext.hi 0 <| Ext.lo <| (Ext.all _)
  have f0_10 : (encode s (.divuw d a b)).extractLsb' 0 10 = 22#10 := Ext.lo <| (Ext.all _)
  have f20_5 : (encode s (.divuw d a b)).extractLsb' 20 5 = d := Ext.hi 10 <| Ext.hi 5 <| Ext.hi 0 <| Ext.lo <| (Ext.all _)
  have f15_5 : (encode s (.divuw d a b)).extractLsb' 15 5 = a := Ext.hi 5 <| Ext.hi 0 <| Ext.lo <| (Ext.all _)
  have f10_5 : (encode s (.divuw d a b)).extractLsb' 10 5 = b := Ext.hi 0 <| Ext.lo <| (Ext.all _)
  have f31 : (encode s (.divuw d a b)).getLsbD 31 = s := Ext.marker (Ext.hi 21 <| Ext.hi 16 <| Ext.hi 11 <| Ext.hi 6 <| Ext.hi 0 <| (Ext.all _))
  generalize encode s (.divuw d a b) = w at *
  refine decode_of f25_6 (by decide) (by decide) f31 ?_ hwf
  have h1 : decodeMajor w = decodeOpW w := by rw [decodeMajor, f25_6]; rfl
  have h2 : decodeOpW w = pure (.divuw (w.extractLsb' 20 5) (w.extractLsb' 15 5) (w.extractLsb' 10 5)) := by rw [decodeOpW, f0_10]; rfl
  rw [h1, h2, f20_5, f15_5, f10_5]; rfl
theorem remw (d : BitVec 5) (a : BitVec 5) (b : BitVec 5) : Statement (.remw d a b) := by
  intro s hwf
  have f25_6 : (encode s (.remw d a b)).extractLsb' 25 6 = 0x02#6 := Ext.hi 15 <| Ext.hi 10 <| Ext.hi 5 <| Ext.hi 0 <| Ext.lo <| (Ext.all _)
  have f0_10 : (encode s (.remw d a b)).extractLsb' 0 10 = 23#10 := Ext.lo <| (Ext.all _)
  have f20_5 : (encode s (.remw d a b)).extractLsb' 20 5 = d := Ext.hi 10 <| Ext.hi 5 <| Ext.hi 0 <| Ext.lo <| (Ext.all _)
  have f15_5 : (encode s (.remw d a b)).extractLsb' 15 5 = a := Ext.hi 5 <| Ext.hi 0 <| Ext.lo <| (Ext.all _)
  have f10_5 : (encode s (.remw d a b)).extractLsb' 10 5 = b := Ext.hi 0 <| Ext.lo <| (Ext.all _)
  have f31 : (encode s (.remw d a b)).getLsbD 31 = s := Ext.marker (Ext.hi 21 <| Ext.hi 16 <| Ext.hi 11 <| Ext.hi 6 <| Ext.hi 0 <| (Ext.all _))
  generalize encode s (.remw d a b) = w at *
  refine decode_of f25_6 (by decide) (by decide) f31 ?_ hwf
  have h1 : decodeMajor w = decodeOpW w := by rw [decodeMajor, f25_6]; rfl
  have h2 : decodeOpW w = pure (.remw (w.extractLsb' 20 5) (w.extractLsb' 15 5) (w.extractLsb' 10 5)) := by rw [decodeOpW, f0_10]; rfl
  rw [h1, h2, f20_5, f15_5, f10_5]; rfl
theorem remuw (d : BitVec 5) (a : BitVec 5) (b : BitVec 5) : Statement (.remuw d a b) := by
  intro s hwf
  have f25_6 : (encode s (.remuw d a b)).extractLsb' 25 6 = 0x02#6 := Ext.hi 15 <| Ext.hi 10 <| Ext.hi 5 <| Ext.hi 0 <| Ext.lo <| (Ext.all _)
  have f0_10 : (encode s (.remuw d a b)).extractLsb' 0 10 = 24#10 := Ext.lo <| (Ext.all _)
  have f20_5 : (encode s (.remuw d a b)).extractLsb' 20 5 = d := Ext.hi 10 <| Ext.hi 5 <| Ext.hi 0 <| Ext.lo <| (Ext.all _)
  have f15_5 : (encode s (.remuw d a b)).extractLsb' 15 5 = a := Ext.hi 5 <| Ext.hi 0 <| Ext.lo <| (Ext.all _)
  have f10_5 : (encode s (.remuw d a b)).extractLsb' 10 5 = b := Ext.hi 0 <| Ext.lo <| (Ext.all _)
  have f31 : (encode s (.remuw d a b)).getLsbD 31 = s := Ext.marker (Ext.hi 21 <| Ext.hi 16 <| Ext.hi 11 <| Ext.hi 6 <| Ext.hi 0 <| (Ext.all _))
  generalize encode s (.remuw d a b) = w at *
  refine decode_of f25_6 (by decide) (by decide) f31 ?_ hwf
  have h1 : decodeMajor w = decodeOpW w := by rw [decodeMajor, f25_6]; rfl
  have h2 : decodeOpW w = pure (.remuw (w.extractLsb' 20 5) (w.extractLsb' 15 5) (w.extractLsb' 10 5)) := by rw [decodeOpW, f0_10]; rfl
  rw [h1, h2, f20_5, f15_5, f10_5]; rfl
theorem addi (d : BitVec 5) (a : BitVec 5) (i : BitVec 15) : Statement (.addi d a i) := by
  intro s hwf
  have f25_6 : (encode s (.addi d a i)).extractLsb' 25 6 = 0x03#6 := Ext.hi 10 <| Ext.hi 5 <| Ext.hi 0 <| Ext.lo <| (Ext.all _)
  have f20_5 : (encode s (.addi d a i)).extractLsb' 20 5 = d := Ext.hi 5 <| Ext.hi 0 <| Ext.lo <| (Ext.all _)
  have f15_5 : (encode s (.addi d a i)).extractLsb' 15 5 = a := Ext.hi 0 <| Ext.lo <| (Ext.all _)
  have f0_15 : (encode s (.addi d a i)).extractLsb' 0 15 = i := Ext.lo <| (Ext.all _)
  have f31 : (encode s (.addi d a i)).getLsbD 31 = s := Ext.marker (Ext.hi 16 <| Ext.hi 11 <| Ext.hi 6 <| Ext.hi 0 <| (Ext.all _))
  generalize encode s (.addi d a i) = w at *
  refine decode_of f25_6 (by decide) (by decide) f31 ?_ hwf
  have h1 : decodeMajor w = pure (.addi (w.extractLsb' 20 5) (w.extractLsb' 15 5) (w.extractLsb' 0 15)) := by rw [decodeMajor, f25_6]; rfl
  rw [h1, f20_5, f15_5, f0_15]; rfl
theorem andi (d : BitVec 5) (a : BitVec 5) (i : BitVec 15) : Statement (.andi d a i) := by
  intro s hwf
  have f25_6 : (encode s (.andi d a i)).extractLsb' 25 6 = 0x04#6 := Ext.hi 10 <| Ext.hi 5 <| Ext.hi 0 <| Ext.lo <| (Ext.all _)
  have f20_5 : (encode s (.andi d a i)).extractLsb' 20 5 = d := Ext.hi 5 <| Ext.hi 0 <| Ext.lo <| (Ext.all _)
  have f15_5 : (encode s (.andi d a i)).extractLsb' 15 5 = a := Ext.hi 0 <| Ext.lo <| (Ext.all _)
  have f0_15 : (encode s (.andi d a i)).extractLsb' 0 15 = i := Ext.lo <| (Ext.all _)
  have f31 : (encode s (.andi d a i)).getLsbD 31 = s := Ext.marker (Ext.hi 16 <| Ext.hi 11 <| Ext.hi 6 <| Ext.hi 0 <| (Ext.all _))
  generalize encode s (.andi d a i) = w at *
  refine decode_of f25_6 (by decide) (by decide) f31 ?_ hwf
  have h1 : decodeMajor w = pure (.andi (w.extractLsb' 20 5) (w.extractLsb' 15 5) (w.extractLsb' 0 15)) := by rw [decodeMajor, f25_6]; rfl
  rw [h1, f20_5, f15_5, f0_15]; rfl
theorem ori (d : BitVec 5) (a : BitVec 5) (i : BitVec 15) : Statement (.ori d a i) := by
  intro s hwf
  have f25_6 : (encode s (.ori d a i)).extractLsb' 25 6 = 0x05#6 := Ext.hi 10 <| Ext.hi 5 <| Ext.hi 0 <| Ext.lo <| (Ext.all _)
  have f20_5 : (encode s (.ori d a i)).extractLsb' 20 5 = d := Ext.hi 5 <| Ext.hi 0 <| Ext.lo <| (Ext.all _)
  have f15_5 : (encode s (.ori d a i)).extractLsb' 15 5 = a := Ext.hi 0 <| Ext.lo <| (Ext.all _)
  have f0_15 : (encode s (.ori d a i)).extractLsb' 0 15 = i := Ext.lo <| (Ext.all _)
  have f31 : (encode s (.ori d a i)).getLsbD 31 = s := Ext.marker (Ext.hi 16 <| Ext.hi 11 <| Ext.hi 6 <| Ext.hi 0 <| (Ext.all _))
  generalize encode s (.ori d a i) = w at *
  refine decode_of f25_6 (by decide) (by decide) f31 ?_ hwf
  have h1 : decodeMajor w = pure (.ori (w.extractLsb' 20 5) (w.extractLsb' 15 5) (w.extractLsb' 0 15)) := by rw [decodeMajor, f25_6]; rfl
  rw [h1, f20_5, f15_5, f0_15]; rfl
theorem xori (d : BitVec 5) (a : BitVec 5) (i : BitVec 15) : Statement (.xori d a i) := by
  intro s hwf
  have f25_6 : (encode s (.xori d a i)).extractLsb' 25 6 = 0x06#6 := Ext.hi 10 <| Ext.hi 5 <| Ext.hi 0 <| Ext.lo <| (Ext.all _)
  have f20_5 : (encode s (.xori d a i)).extractLsb' 20 5 = d := Ext.hi 5 <| Ext.hi 0 <| Ext.lo <| (Ext.all _)
  have f15_5 : (encode s (.xori d a i)).extractLsb' 15 5 = a := Ext.hi 0 <| Ext.lo <| (Ext.all _)
  have f0_15 : (encode s (.xori d a i)).extractLsb' 0 15 = i := Ext.lo <| (Ext.all _)
  have f31 : (encode s (.xori d a i)).getLsbD 31 = s := Ext.marker (Ext.hi 16 <| Ext.hi 11 <| Ext.hi 6 <| Ext.hi 0 <| (Ext.all _))
  generalize encode s (.xori d a i) = w at *
  refine decode_of f25_6 (by decide) (by decide) f31 ?_ hwf
  have h1 : decodeMajor w = pure (.xori (w.extractLsb' 20 5) (w.extractLsb' 15 5) (w.extractLsb' 0 15)) := by rw [decodeMajor, f25_6]; rfl
  rw [h1, f20_5, f15_5, f0_15]; rfl
theorem slti (d : BitVec 5) (a : BitVec 5) (i : BitVec 15) : Statement (.slti d a i) := by
  intro s hwf
  have f25_6 : (encode s (.slti d a i)).extractLsb' 25 6 = 0x08#6 := Ext.hi 10 <| Ext.hi 5 <| Ext.hi 0 <| Ext.lo <| (Ext.all _)
  have f20_5 : (encode s (.slti d a i)).extractLsb' 20 5 = d := Ext.hi 5 <| Ext.hi 0 <| Ext.lo <| (Ext.all _)
  have f15_5 : (encode s (.slti d a i)).extractLsb' 15 5 = a := Ext.hi 0 <| Ext.lo <| (Ext.all _)
  have f0_15 : (encode s (.slti d a i)).extractLsb' 0 15 = i := Ext.lo <| (Ext.all _)
  have f31 : (encode s (.slti d a i)).getLsbD 31 = s := Ext.marker (Ext.hi 16 <| Ext.hi 11 <| Ext.hi 6 <| Ext.hi 0 <| (Ext.all _))
  generalize encode s (.slti d a i) = w at *
  refine decode_of f25_6 (by decide) (by decide) f31 ?_ hwf
  have h1 : decodeMajor w = pure (.slti (w.extractLsb' 20 5) (w.extractLsb' 15 5) (w.extractLsb' 0 15)) := by rw [decodeMajor, f25_6]; rfl
  rw [h1, f20_5, f15_5, f0_15]; rfl
theorem sltiu (d : BitVec 5) (a : BitVec 5) (i : BitVec 15) : Statement (.sltiu d a i) := by
  intro s hwf
  have f25_6 : (encode s (.sltiu d a i)).extractLsb' 25 6 = 0x09#6 := Ext.hi 10 <| Ext.hi 5 <| Ext.hi 0 <| Ext.lo <| (Ext.all _)
  have f20_5 : (encode s (.sltiu d a i)).extractLsb' 20 5 = d := Ext.hi 5 <| Ext.hi 0 <| Ext.lo <| (Ext.all _)
  have f15_5 : (encode s (.sltiu d a i)).extractLsb' 15 5 = a := Ext.hi 0 <| Ext.lo <| (Ext.all _)
  have f0_15 : (encode s (.sltiu d a i)).extractLsb' 0 15 = i := Ext.lo <| (Ext.all _)
  have f31 : (encode s (.sltiu d a i)).getLsbD 31 = s := Ext.marker (Ext.hi 16 <| Ext.hi 11 <| Ext.hi 6 <| Ext.hi 0 <| (Ext.all _))
  generalize encode s (.sltiu d a i) = w at *
  refine decode_of f25_6 (by decide) (by decide) f31 ?_ hwf
  have h1 : decodeMajor w = pure (.sltiu (w.extractLsb' 20 5) (w.extractLsb' 15 5) (w.extractLsb' 0 15)) := by rw [decodeMajor, f25_6]; rfl
  rw [h1, f20_5, f15_5, f0_15]; rfl
theorem addiw (d : BitVec 5) (a : BitVec 5) (i : BitVec 15) : Statement (.addiw d a i) := by
  intro s hwf
  have f25_6 : (encode s (.addiw d a i)).extractLsb' 25 6 = 0x0F#6 := Ext.hi 10 <| Ext.hi 5 <| Ext.hi 0 <| Ext.lo <| (Ext.all _)
  have f20_5 : (encode s (.addiw d a i)).extractLsb' 20 5 = d := Ext.hi 5 <| Ext.hi 0 <| Ext.lo <| (Ext.all _)
  have f15_5 : (encode s (.addiw d a i)).extractLsb' 15 5 = a := Ext.hi 0 <| Ext.lo <| (Ext.all _)
  have f0_15 : (encode s (.addiw d a i)).extractLsb' 0 15 = i := Ext.lo <| (Ext.all _)
  have f31 : (encode s (.addiw d a i)).getLsbD 31 = s := Ext.marker (Ext.hi 16 <| Ext.hi 11 <| Ext.hi 6 <| Ext.hi 0 <| (Ext.all _))
  generalize encode s (.addiw d a i) = w at *
  refine decode_of f25_6 (by decide) (by decide) f31 ?_ hwf
  have h1 : decodeMajor w = pure (.addiw (w.extractLsb' 20 5) (w.extractLsb' 15 5) (w.extractLsb' 0 15)) := by rw [decodeMajor, f25_6]; rfl
  rw [h1, f20_5, f15_5, f0_15]; rfl
theorem slli (d : BitVec 5) (a : BitVec 5) (n : BitVec 6) : Statement (.slli d a n) := by
  intro s hwf
  have f25_6 : (encode s (.slli d a n)).extractLsb' 25 6 = 0x07#6 := Ext.hi 19 <| Ext.hi 10 <| Ext.hi 5 <| Ext.hi 0 <| Ext.lo <| (Ext.all _)
  have f12_3 : (encode s (.slli d a n)).extractLsb' 12 3 = 0#3 := Ext.hi 6 <| Ext.lo <| rfl
  have f6_6 : (encode s (.slli d a n)).extractLsb' 6 6 = 0#6 := Ext.hi 0 <| Ext.lo <| rfl
  have f20_5 : (encode s (.slli d a n)).extractLsb' 20 5 = d := Ext.hi 14 <| Ext.hi 5 <| Ext.hi 0 <| Ext.lo <| (Ext.all _)
  have f15_5 : (encode s (.slli d a n)).extractLsb' 15 5 = a := Ext.hi 9 <| Ext.hi 0 <| Ext.lo <| (Ext.all _)
  have f0_6 : (encode s (.slli d a n)).extractLsb' 0 6 = n := Ext.lo <| (Ext.all _)
  have f31 : (encode s (.slli d a n)).getLsbD 31 = s := Ext.marker (Ext.hi 25 <| Ext.hi 16 <| Ext.hi 11 <| Ext.hi 6 <| Ext.hi 0 <| (Ext.all _))
  generalize encode s (.slli d a n) = w at *
  refine decode_of f25_6 (by decide) (by decide) f31 ?_ hwf
  have h1 : decodeMajor w = decodeShi w := by rw [decodeMajor, f25_6]; rfl
  have h2 : decodeShi w = fixedAt w 6 6 0 (pure (.slli (w.extractLsb' 20 5) (w.extractLsb' 15 5) (w.extractLsb' 0 6))) := by rw [decodeShi, f12_3]; rfl
  rw [h1, h2, fixedAt_ok f6_6, f20_5, f15_5, f0_6]; rfl
theorem srli (d : BitVec 5) (a : BitVec 5) (n : BitVec 6) : Statement (.srli d a n) := by
  intro s hwf
  have f25_6 : (encode s (.srli d a n)).extractLsb' 25 6 = 0x07#6 := Ext.hi 19 <| Ext.hi 10 <| Ext.hi 5 <| Ext.hi 0 <| Ext.lo <| (Ext.all _)
  have f12_3 : (encode s (.srli d a n)).extractLsb' 12 3 = 1#3 := Ext.hi 6 <| Ext.lo <| rfl
  have f6_6 : (encode s (.srli d a n)).extractLsb' 6 6 = 0#6 := Ext.hi 0 <| Ext.lo <| rfl
  have f20_5 : (encode s (.srli d a n)).extractLsb' 20 5 = d := Ext.hi 14 <| Ext.hi 5 <| Ext.hi 0 <| Ext.lo <| (Ext.all _)
  have f15_5 : (encode s (.srli d a n)).extractLsb' 15 5 = a := Ext.hi 9 <| Ext.hi 0 <| Ext.lo <| (Ext.all _)
  have f0_6 : (encode s (.srli d a n)).extractLsb' 0 6 = n := Ext.lo <| (Ext.all _)
  have f31 : (encode s (.srli d a n)).getLsbD 31 = s := Ext.marker (Ext.hi 25 <| Ext.hi 16 <| Ext.hi 11 <| Ext.hi 6 <| Ext.hi 0 <| (Ext.all _))
  generalize encode s (.srli d a n) = w at *
  refine decode_of f25_6 (by decide) (by decide) f31 ?_ hwf
  have h1 : decodeMajor w = decodeShi w := by rw [decodeMajor, f25_6]; rfl
  have h2 : decodeShi w = fixedAt w 6 6 0 (pure (.srli (w.extractLsb' 20 5) (w.extractLsb' 15 5) (w.extractLsb' 0 6))) := by rw [decodeShi, f12_3]; rfl
  rw [h1, h2, fixedAt_ok f6_6, f20_5, f15_5, f0_6]; rfl
theorem srai (d : BitVec 5) (a : BitVec 5) (n : BitVec 6) : Statement (.srai d a n) := by
  intro s hwf
  have f25_6 : (encode s (.srai d a n)).extractLsb' 25 6 = 0x07#6 := Ext.hi 19 <| Ext.hi 10 <| Ext.hi 5 <| Ext.hi 0 <| Ext.lo <| (Ext.all _)
  have f12_3 : (encode s (.srai d a n)).extractLsb' 12 3 = 2#3 := Ext.hi 6 <| Ext.lo <| rfl
  have f6_6 : (encode s (.srai d a n)).extractLsb' 6 6 = 0#6 := Ext.hi 0 <| Ext.lo <| rfl
  have f20_5 : (encode s (.srai d a n)).extractLsb' 20 5 = d := Ext.hi 14 <| Ext.hi 5 <| Ext.hi 0 <| Ext.lo <| (Ext.all _)
  have f15_5 : (encode s (.srai d a n)).extractLsb' 15 5 = a := Ext.hi 9 <| Ext.hi 0 <| Ext.lo <| (Ext.all _)
  have f0_6 : (encode s (.srai d a n)).extractLsb' 0 6 = n := Ext.lo <| (Ext.all _)
  have f31 : (encode s (.srai d a n)).getLsbD 31 = s := Ext.marker (Ext.hi 25 <| Ext.hi 16 <| Ext.hi 11 <| Ext.hi 6 <| Ext.hi 0 <| (Ext.all _))
  generalize encode s (.srai d a n) = w at *
  refine decode_of f25_6 (by decide) (by decide) f31 ?_ hwf
  have h1 : decodeMajor w = decodeShi w := by rw [decodeMajor, f25_6]; rfl
  have h2 : decodeShi w = fixedAt w 6 6 0 (pure (.srai (w.extractLsb' 20 5) (w.extractLsb' 15 5) (w.extractLsb' 0 6))) := by rw [decodeShi, f12_3]; rfl
  rw [h1, h2, fixedAt_ok f6_6, f20_5, f15_5, f0_6]; rfl
theorem slliw (d : BitVec 5) (a : BitVec 5) (n : BitVec 5) : Statement (.slliw d a n) := by
  intro s hwf
  have f25_6 : (encode s (.slliw d a n)).extractLsb' 25 6 = 0x07#6 := Ext.hi 20 <| Ext.hi 10 <| Ext.hi 5 <| Ext.hi 0 <| Ext.lo <| (Ext.all _)
  have f12_3 : (encode s (.slliw d a n)).extractLsb' 12 3 = 3#3 := Ext.hi 7 <| Ext.lo <| rfl
  have f5_7 : (encode s (.slliw d a n)).extractLsb' 5 7 = 0#7 := Ext.hi 0 <| Ext.lo <| rfl
  have f20_5 : (encode s (.slliw d a n)).extractLsb' 20 5 = d := Ext.hi 15 <| Ext.hi 5 <| Ext.hi 0 <| Ext.lo <| (Ext.all _)
  have f15_5 : (encode s (.slliw d a n)).extractLsb' 15 5 = a := Ext.hi 10 <| Ext.hi 0 <| Ext.lo <| (Ext.all _)
  have f0_5 : (encode s (.slliw d a n)).extractLsb' 0 5 = n := Ext.lo <| (Ext.all _)
  have f31 : (encode s (.slliw d a n)).getLsbD 31 = s := Ext.marker (Ext.hi 26 <| Ext.hi 16 <| Ext.hi 11 <| Ext.hi 6 <| Ext.hi 0 <| (Ext.all _))
  generalize encode s (.slliw d a n) = w at *
  refine decode_of f25_6 (by decide) (by decide) f31 ?_ hwf
  have h1 : decodeMajor w = decodeShi w := by rw [decodeMajor, f25_6]; rfl
  have h2 : decodeShi w = fixedAt w 5 7 0 (pure (.slliw (w.extractLsb' 20 5) (w.extractLsb' 15 5) (w.extractLsb' 0 5))) := by rw [decodeShi, f12_3]; rfl
  rw [h1, h2, fixedAt_ok f5_7, f20_5, f15_5, f0_5]; rfl
theorem srliw (d : BitVec 5) (a : BitVec 5) (n : BitVec 5) : Statement (.srliw d a n) := by
  intro s hwf
  have f25_6 : (encode s (.srliw d a n)).extractLsb' 25 6 = 0x07#6 := Ext.hi 20 <| Ext.hi 10 <| Ext.hi 5 <| Ext.hi 0 <| Ext.lo <| (Ext.all _)
  have f12_3 : (encode s (.srliw d a n)).extractLsb' 12 3 = 4#3 := Ext.hi 7 <| Ext.lo <| rfl
  have f5_7 : (encode s (.srliw d a n)).extractLsb' 5 7 = 0#7 := Ext.hi 0 <| Ext.lo <| rfl
  have f20_5 : (encode s (.srliw d a n)).extractLsb' 20 5 = d := Ext.hi 15 <| Ext.hi 5 <| Ext.hi 0 <| Ext.lo <| (Ext.all _)
  have f15_5 : (encode s (.srliw d a n)).extractLsb' 15 5 = a := Ext.hi 10 <| Ext.hi 0 <| Ext.lo <| (Ext.all _)
  have f0_5 : (encode s (.srliw d a n)).extractLsb' 0 5 = n := Ext.lo <| (Ext.all _)
  have f31 : (encode s (.srliw d a n)).getLsbD 31 = s := Ext.marker (Ext.hi 26 <| Ext.hi 16 <| Ext.hi 11 <| Ext.hi 6 <| Ext.hi 0 <| (Ext.all _))
  generalize encode s (.srliw d a n) = w at *
  refine decode_of f25_6 (by decide) (by decide) f31 ?_ hwf
  have h1 : decodeMajor w = decodeShi w := by rw [decodeMajor, f25_6]; rfl
  have h2 : decodeShi w = fixedAt w 5 7 0 (pure (.srliw (w.extractLsb' 20 5) (w.extractLsb' 15 5) (w.extractLsb' 0 5))) := by rw [decodeShi, f12_3]; rfl
  rw [h1, h2, fixedAt_ok f5_7, f20_5, f15_5, f0_5]; rfl
theorem sraiw (d : BitVec 5) (a : BitVec 5) (n : BitVec 5) : Statement (.sraiw d a n) := by
  intro s hwf
  have f25_6 : (encode s (.sraiw d a n)).extractLsb' 25 6 = 0x07#6 := Ext.hi 20 <| Ext.hi 10 <| Ext.hi 5 <| Ext.hi 0 <| Ext.lo <| (Ext.all _)
  have f12_3 : (encode s (.sraiw d a n)).extractLsb' 12 3 = 5#3 := Ext.hi 7 <| Ext.lo <| rfl
  have f5_7 : (encode s (.sraiw d a n)).extractLsb' 5 7 = 0#7 := Ext.hi 0 <| Ext.lo <| rfl
  have f20_5 : (encode s (.sraiw d a n)).extractLsb' 20 5 = d := Ext.hi 15 <| Ext.hi 5 <| Ext.hi 0 <| Ext.lo <| (Ext.all _)
  have f15_5 : (encode s (.sraiw d a n)).extractLsb' 15 5 = a := Ext.hi 10 <| Ext.hi 0 <| Ext.lo <| (Ext.all _)
  have f0_5 : (encode s (.sraiw d a n)).extractLsb' 0 5 = n := Ext.lo <| (Ext.all _)
  have f31 : (encode s (.sraiw d a n)).getLsbD 31 = s := Ext.marker (Ext.hi 26 <| Ext.hi 16 <| Ext.hi 11 <| Ext.hi 6 <| Ext.hi 0 <| (Ext.all _))
  generalize encode s (.sraiw d a n) = w at *
  refine decode_of f25_6 (by decide) (by decide) f31 ?_ hwf
  have h1 : decodeMajor w = decodeShi w := by rw [decodeMajor, f25_6]; rfl
  have h2 : decodeShi w = fixedAt w 5 7 0 (pure (.sraiw (w.extractLsb' 20 5) (w.extractLsb' 15 5) (w.extractLsb' 0 5))) := by rw [decodeShi, f12_3]; rfl
  rw [h1, h2, fixedAt_ok f5_7, f20_5, f15_5, f0_5]; rfl
theorem lui (d : BitVec 5) (i : BitVec 20) : Statement (.lui d i) := by
  intro s hwf
  have f25_6 : (encode s (.lui d i)).extractLsb' 25 6 = 0x0A#6 := Ext.hi 5 <| Ext.hi 0 <| Ext.lo <| (Ext.all _)
  have f20_5 : (encode s (.lui d i)).extractLsb' 20 5 = d := Ext.hi 0 <| Ext.lo <| (Ext.all _)
  have f0_20 : (encode s (.lui d i)).extractLsb' 0 20 = i := Ext.lo <| (Ext.all _)
  have f31 : (encode s (.lui d i)).getLsbD 31 = s := Ext.marker (Ext.hi 11 <| Ext.hi 6 <| Ext.hi 0 <| (Ext.all _))
  generalize encode s (.lui d i) = w at *
  refine decode_of f25_6 (by decide) (by decide) f31 ?_ hwf
  have h1 : decodeMajor w = pure (.lui (w.extractLsb' 20 5) (w.extractLsb' 0 20)) := by rw [decodeMajor, f25_6]; rfl
  rw [h1, f20_5, f0_20]; rfl
theorem capc (d : BitVec 5) (i : BitVec 20) : Statement (.capc d i) := by
  intro s hwf
  have f25_6 : (encode s (.capc d i)).extractLsb' 25 6 = 0x0B#6 := Ext.hi 5 <| Ext.hi 0 <| Ext.lo <| (Ext.all _)
  have f20_5 : (encode s (.capc d i)).extractLsb' 20 5 = d := Ext.hi 0 <| Ext.lo <| (Ext.all _)
  have f0_20 : (encode s (.capc d i)).extractLsb' 0 20 = i := Ext.lo <| (Ext.all _)
  have f31 : (encode s (.capc d i)).getLsbD 31 = s := Ext.marker (Ext.hi 11 <| Ext.hi 6 <| Ext.hi 0 <| (Ext.all _))
  generalize encode s (.capc d i) = w at *
  refine decode_of f25_6 (by decide) (by decide) f31 ?_ hwf
  have h1 : decodeMajor w = pure (.capc (w.extractLsb' 20 5) (w.extractLsb' 0 20)) := by rw [decodeMajor, f25_6]; rfl
  rw [h1, f20_5, f0_20]; rfl
theorem jal (d : BitVec 5) (o : BitVec 20) : Statement (.jal d o) := by
  intro s hwf
  have f25_6 : (encode s (.jal d o)).extractLsb' 25 6 = 0x0C#6 := Ext.hi 5 <| Ext.hi 0 <| Ext.lo <| (Ext.all _)
  have f20_5 : (encode s (.jal d o)).extractLsb' 20 5 = d := Ext.hi 0 <| Ext.lo <| (Ext.all _)
  have f0_20 : (encode s (.jal d o)).extractLsb' 0 20 = o := Ext.lo <| (Ext.all _)
  have f31 : (encode s (.jal d o)).getLsbD 31 = s := Ext.marker (Ext.hi 11 <| Ext.hi 6 <| Ext.hi 0 <| (Ext.all _))
  generalize encode s (.jal d o) = w at *
  refine decode_of f25_6 (by decide) (by decide) f31 ?_ hwf
  have h1 : decodeMajor w = pure (.jal (w.extractLsb' 20 5) (w.extractLsb' 0 20)) := by rw [decodeMajor, f25_6]; rfl
  rw [h1, f20_5, f0_20]; rfl
theorem jalr (d : BitVec 5) (a : BitVec 5) (i : BitVec 15) : Statement (.jalr d a i) := by
  intro s hwf
  have f25_6 : (encode s (.jalr d a i)).extractLsb' 25 6 = 0x0D#6 := Ext.hi 10 <| Ext.hi 5 <| Ext.hi 0 <| Ext.lo <| (Ext.all _)
  have f20_5 : (encode s (.jalr d a i)).extractLsb' 20 5 = d := Ext.hi 5 <| Ext.hi 0 <| Ext.lo <| (Ext.all _)
  have f15_5 : (encode s (.jalr d a i)).extractLsb' 15 5 = a := Ext.hi 0 <| Ext.lo <| (Ext.all _)
  have f0_15 : (encode s (.jalr d a i)).extractLsb' 0 15 = i := Ext.lo <| (Ext.all _)
  have f31 : (encode s (.jalr d a i)).getLsbD 31 = s := Ext.marker (Ext.hi 16 <| Ext.hi 11 <| Ext.hi 6 <| Ext.hi 0 <| (Ext.all _))
  generalize encode s (.jalr d a i) = w at *
  refine decode_of f25_6 (by decide) (by decide) f31 ?_ hwf
  have h1 : decodeMajor w = pure (.jalr (w.extractLsb' 20 5) (w.extractLsb' 15 5) (w.extractLsb' 0 15)) := by rw [decodeMajor, f25_6]; rfl
  rw [h1, f20_5, f15_5, f0_15]; rfl
theorem beq (a : BitVec 5) (b : BitVec 5) (o : BitVec 12) : Statement (.beq a b o) := by
  intro s hwf
  have f25_6 : (encode s (.beq a b o)).extractLsb' 25 6 = 0x0E#6 := Ext.hi 13 <| Ext.hi 10 <| Ext.hi 5 <| Ext.hi 0 <| Ext.lo <| (Ext.all _)
  have f12_3 : (encode s (.beq a b o)).extractLsb' 12 3 = 0#3 := Ext.hi 0 <| Ext.lo <| (Ext.all _)
  have f20_5 : (encode s (.beq a b o)).extractLsb' 20 5 = a := Ext.hi 8 <| Ext.hi 5 <| Ext.hi 0 <| Ext.lo <| (Ext.all _)
  have f15_5 : (encode s (.beq a b o)).extractLsb' 15 5 = b := Ext.hi 3 <| Ext.hi 0 <| Ext.lo <| (Ext.all _)
  have f0_12 : (encode s (.beq a b o)).extractLsb' 0 12 = o := Ext.lo <| (Ext.all _)
  have f31 : (encode s (.beq a b o)).getLsbD 31 = s := Ext.marker (Ext.hi 19 <| Ext.hi 16 <| Ext.hi 11 <| Ext.hi 6 <| Ext.hi 0 <| (Ext.all _))
  generalize encode s (.beq a b o) = w at *
  refine decode_of f25_6 (by decide) (by decide) f31 ?_ hwf
  have h1 : decodeMajor w = decodeBr w := by rw [decodeMajor, f25_6]; rfl
  have h2 : decodeBr w = pure (.beq (w.extractLsb' 20 5) (w.extractLsb' 15 5) (w.extractLsb' 0 12)) := by rw [decodeBr, f12_3]; rfl
  rw [h1, h2, f20_5, f15_5, f0_12]; rfl
theorem bne (a : BitVec 5) (b : BitVec 5) (o : BitVec 12) : Statement (.bne a b o) := by
  intro s hwf
  have f25_6 : (encode s (.bne a b o)).extractLsb' 25 6 = 0x0E#6 := Ext.hi 13 <| Ext.hi 10 <| Ext.hi 5 <| Ext.hi 0 <| Ext.lo <| (Ext.all _)
  have f12_3 : (encode s (.bne a b o)).extractLsb' 12 3 = 1#3 := Ext.hi 0 <| Ext.lo <| (Ext.all _)
  have f20_5 : (encode s (.bne a b o)).extractLsb' 20 5 = a := Ext.hi 8 <| Ext.hi 5 <| Ext.hi 0 <| Ext.lo <| (Ext.all _)
  have f15_5 : (encode s (.bne a b o)).extractLsb' 15 5 = b := Ext.hi 3 <| Ext.hi 0 <| Ext.lo <| (Ext.all _)
  have f0_12 : (encode s (.bne a b o)).extractLsb' 0 12 = o := Ext.lo <| (Ext.all _)
  have f31 : (encode s (.bne a b o)).getLsbD 31 = s := Ext.marker (Ext.hi 19 <| Ext.hi 16 <| Ext.hi 11 <| Ext.hi 6 <| Ext.hi 0 <| (Ext.all _))
  generalize encode s (.bne a b o) = w at *
  refine decode_of f25_6 (by decide) (by decide) f31 ?_ hwf
  have h1 : decodeMajor w = decodeBr w := by rw [decodeMajor, f25_6]; rfl
  have h2 : decodeBr w = pure (.bne (w.extractLsb' 20 5) (w.extractLsb' 15 5) (w.extractLsb' 0 12)) := by rw [decodeBr, f12_3]; rfl
  rw [h1, h2, f20_5, f15_5, f0_12]; rfl
theorem blt (a : BitVec 5) (b : BitVec 5) (o : BitVec 12) : Statement (.blt a b o) := by
  intro s hwf
  have f25_6 : (encode s (.blt a b o)).extractLsb' 25 6 = 0x0E#6 := Ext.hi 13 <| Ext.hi 10 <| Ext.hi 5 <| Ext.hi 0 <| Ext.lo <| (Ext.all _)
  have f12_3 : (encode s (.blt a b o)).extractLsb' 12 3 = 2#3 := Ext.hi 0 <| Ext.lo <| (Ext.all _)
  have f20_5 : (encode s (.blt a b o)).extractLsb' 20 5 = a := Ext.hi 8 <| Ext.hi 5 <| Ext.hi 0 <| Ext.lo <| (Ext.all _)
  have f15_5 : (encode s (.blt a b o)).extractLsb' 15 5 = b := Ext.hi 3 <| Ext.hi 0 <| Ext.lo <| (Ext.all _)
  have f0_12 : (encode s (.blt a b o)).extractLsb' 0 12 = o := Ext.lo <| (Ext.all _)
  have f31 : (encode s (.blt a b o)).getLsbD 31 = s := Ext.marker (Ext.hi 19 <| Ext.hi 16 <| Ext.hi 11 <| Ext.hi 6 <| Ext.hi 0 <| (Ext.all _))
  generalize encode s (.blt a b o) = w at *
  refine decode_of f25_6 (by decide) (by decide) f31 ?_ hwf
  have h1 : decodeMajor w = decodeBr w := by rw [decodeMajor, f25_6]; rfl
  have h2 : decodeBr w = pure (.blt (w.extractLsb' 20 5) (w.extractLsb' 15 5) (w.extractLsb' 0 12)) := by rw [decodeBr, f12_3]; rfl
  rw [h1, h2, f20_5, f15_5, f0_12]; rfl
theorem bge (a : BitVec 5) (b : BitVec 5) (o : BitVec 12) : Statement (.bge a b o) := by
  intro s hwf
  have f25_6 : (encode s (.bge a b o)).extractLsb' 25 6 = 0x0E#6 := Ext.hi 13 <| Ext.hi 10 <| Ext.hi 5 <| Ext.hi 0 <| Ext.lo <| (Ext.all _)
  have f12_3 : (encode s (.bge a b o)).extractLsb' 12 3 = 3#3 := Ext.hi 0 <| Ext.lo <| (Ext.all _)
  have f20_5 : (encode s (.bge a b o)).extractLsb' 20 5 = a := Ext.hi 8 <| Ext.hi 5 <| Ext.hi 0 <| Ext.lo <| (Ext.all _)
  have f15_5 : (encode s (.bge a b o)).extractLsb' 15 5 = b := Ext.hi 3 <| Ext.hi 0 <| Ext.lo <| (Ext.all _)
  have f0_12 : (encode s (.bge a b o)).extractLsb' 0 12 = o := Ext.lo <| (Ext.all _)
  have f31 : (encode s (.bge a b o)).getLsbD 31 = s := Ext.marker (Ext.hi 19 <| Ext.hi 16 <| Ext.hi 11 <| Ext.hi 6 <| Ext.hi 0 <| (Ext.all _))
  generalize encode s (.bge a b o) = w at *
  refine decode_of f25_6 (by decide) (by decide) f31 ?_ hwf
  have h1 : decodeMajor w = decodeBr w := by rw [decodeMajor, f25_6]; rfl
  have h2 : decodeBr w = pure (.bge (w.extractLsb' 20 5) (w.extractLsb' 15 5) (w.extractLsb' 0 12)) := by rw [decodeBr, f12_3]; rfl
  rw [h1, h2, f20_5, f15_5, f0_12]; rfl
theorem bltu (a : BitVec 5) (b : BitVec 5) (o : BitVec 12) : Statement (.bltu a b o) := by
  intro s hwf
  have f25_6 : (encode s (.bltu a b o)).extractLsb' 25 6 = 0x0E#6 := Ext.hi 13 <| Ext.hi 10 <| Ext.hi 5 <| Ext.hi 0 <| Ext.lo <| (Ext.all _)
  have f12_3 : (encode s (.bltu a b o)).extractLsb' 12 3 = 4#3 := Ext.hi 0 <| Ext.lo <| (Ext.all _)
  have f20_5 : (encode s (.bltu a b o)).extractLsb' 20 5 = a := Ext.hi 8 <| Ext.hi 5 <| Ext.hi 0 <| Ext.lo <| (Ext.all _)
  have f15_5 : (encode s (.bltu a b o)).extractLsb' 15 5 = b := Ext.hi 3 <| Ext.hi 0 <| Ext.lo <| (Ext.all _)
  have f0_12 : (encode s (.bltu a b o)).extractLsb' 0 12 = o := Ext.lo <| (Ext.all _)
  have f31 : (encode s (.bltu a b o)).getLsbD 31 = s := Ext.marker (Ext.hi 19 <| Ext.hi 16 <| Ext.hi 11 <| Ext.hi 6 <| Ext.hi 0 <| (Ext.all _))
  generalize encode s (.bltu a b o) = w at *
  refine decode_of f25_6 (by decide) (by decide) f31 ?_ hwf
  have h1 : decodeMajor w = decodeBr w := by rw [decodeMajor, f25_6]; rfl
  have h2 : decodeBr w = pure (.bltu (w.extractLsb' 20 5) (w.extractLsb' 15 5) (w.extractLsb' 0 12)) := by rw [decodeBr, f12_3]; rfl
  rw [h1, h2, f20_5, f15_5, f0_12]; rfl
theorem bgeu (a : BitVec 5) (b : BitVec 5) (o : BitVec 12) : Statement (.bgeu a b o) := by
  intro s hwf
  have f25_6 : (encode s (.bgeu a b o)).extractLsb' 25 6 = 0x0E#6 := Ext.hi 13 <| Ext.hi 10 <| Ext.hi 5 <| Ext.hi 0 <| Ext.lo <| (Ext.all _)
  have f12_3 : (encode s (.bgeu a b o)).extractLsb' 12 3 = 5#3 := Ext.hi 0 <| Ext.lo <| (Ext.all _)
  have f20_5 : (encode s (.bgeu a b o)).extractLsb' 20 5 = a := Ext.hi 8 <| Ext.hi 5 <| Ext.hi 0 <| Ext.lo <| (Ext.all _)
  have f15_5 : (encode s (.bgeu a b o)).extractLsb' 15 5 = b := Ext.hi 3 <| Ext.hi 0 <| Ext.lo <| (Ext.all _)
  have f0_12 : (encode s (.bgeu a b o)).extractLsb' 0 12 = o := Ext.lo <| (Ext.all _)
  have f31 : (encode s (.bgeu a b o)).getLsbD 31 = s := Ext.marker (Ext.hi 19 <| Ext.hi 16 <| Ext.hi 11 <| Ext.hi 6 <| Ext.hi 0 <| (Ext.all _))
  generalize encode s (.bgeu a b o) = w at *
  refine decode_of f25_6 (by decide) (by decide) f31 ?_ hwf
  have h1 : decodeMajor w = decodeBr w := by rw [decodeMajor, f25_6]; rfl
  have h2 : decodeBr w = pure (.bgeu (w.extractLsb' 20 5) (w.extractLsb' 15 5) (w.extractLsb' 0 12)) := by rw [decodeBr, f12_3]; rfl
  rw [h1, h2, f20_5, f15_5, f0_12]; rfl
theorem btag (a : BitVec 5) (o : BitVec 12) : Statement (.btag a o) := by
  intro s hwf
  have f25_6 : (encode s (.btag a o)).extractLsb' 25 6 = 0x0E#6 := Ext.hi 13 <| Ext.hi 5 <| Ext.hi 0 <| Ext.lo <| (Ext.all _)
  have f12_3 : (encode s (.btag a o)).extractLsb' 12 3 = 6#3 := Ext.hi 0 <| Ext.lo <| rfl
  have f15_5 : (encode s (.btag a o)).extractLsb' 15 5 = 0#5 := Ext.hi 3 <| Ext.lo <| rfl
  have f20_5 : (encode s (.btag a o)).extractLsb' 20 5 = a := Ext.hi 8 <| Ext.hi 0 <| Ext.lo <| (Ext.all _)
  have f0_12 : (encode s (.btag a o)).extractLsb' 0 12 = o := Ext.lo <| (Ext.all _)
  have f31 : (encode s (.btag a o)).getLsbD 31 = s := Ext.marker (Ext.hi 19 <| Ext.hi 11 <| Ext.hi 6 <| Ext.hi 0 <| (Ext.all _))
  generalize encode s (.btag a o) = w at *
  refine decode_of f25_6 (by decide) (by decide) f31 ?_ hwf
  have h1 : decodeMajor w = decodeBr w := by rw [decodeMajor, f25_6]; rfl
  have h2 : decodeBr w = fixedAt w 15 5 0 (pure (.btag (w.extractLsb' 20 5) (w.extractLsb' 0 12))) := by rw [decodeBr, f12_3]; rfl
  rw [h1, h2, fixedAt_ok f15_5, f20_5, f0_12]; rfl
theorem bntag (a : BitVec 5) (o : BitVec 12) : Statement (.bntag a o) := by
  intro s hwf
  have f25_6 : (encode s (.bntag a o)).extractLsb' 25 6 = 0x0E#6 := Ext.hi 13 <| Ext.hi 5 <| Ext.hi 0 <| Ext.lo <| (Ext.all _)
  have f12_3 : (encode s (.bntag a o)).extractLsb' 12 3 = 7#3 := Ext.hi 0 <| Ext.lo <| rfl
  have f15_5 : (encode s (.bntag a o)).extractLsb' 15 5 = 0#5 := Ext.hi 3 <| Ext.lo <| rfl
  have f20_5 : (encode s (.bntag a o)).extractLsb' 20 5 = a := Ext.hi 8 <| Ext.hi 0 <| Ext.lo <| (Ext.all _)
  have f0_12 : (encode s (.bntag a o)).extractLsb' 0 12 = o := Ext.lo <| (Ext.all _)
  have f31 : (encode s (.bntag a o)).getLsbD 31 = s := Ext.marker (Ext.hi 19 <| Ext.hi 11 <| Ext.hi 6 <| Ext.hi 0 <| (Ext.all _))
  generalize encode s (.bntag a o) = w at *
  refine decode_of f25_6 (by decide) (by decide) f31 ?_ hwf
  have h1 : decodeMajor w = decodeBr w := by rw [decodeMajor, f25_6]; rfl
  have h2 : decodeBr w = fixedAt w 15 5 0 (pure (.bntag (w.extractLsb' 20 5) (w.extractLsb' 0 12))) := by rw [decodeBr, f12_3]; rfl
  rw [h1, h2, fixedAt_ok f15_5, f20_5, f0_12]; rfl
theorem lb (d : BitVec 5) (a : BitVec 5) (i : BitVec 12) : Statement (.lb d a i) := by
  intro s hwf
  have f25_6 : (encode s (.lb d a i)).extractLsb' 25 6 = 0x10#6 := Ext.hi 13 <| Ext.hi 10 <| Ext.hi 5 <| Ext.hi 0 <| Ext.lo <| (Ext.all _)
  have f12_3 : (encode s (.lb d a i)).extractLsb' 12 3 = 0#3 := Ext.hi 0 <| Ext.lo <| (Ext.all _)
  have f20_5 : (encode s (.lb d a i)).extractLsb' 20 5 = d := Ext.hi 8 <| Ext.hi 5 <| Ext.hi 0 <| Ext.lo <| (Ext.all _)
  have f15_5 : (encode s (.lb d a i)).extractLsb' 15 5 = a := Ext.hi 3 <| Ext.hi 0 <| Ext.lo <| (Ext.all _)
  have f0_12 : (encode s (.lb d a i)).extractLsb' 0 12 = i := Ext.lo <| (Ext.all _)
  have f31 : (encode s (.lb d a i)).getLsbD 31 = s := Ext.marker (Ext.hi 19 <| Ext.hi 16 <| Ext.hi 11 <| Ext.hi 6 <| Ext.hi 0 <| (Ext.all _))
  generalize encode s (.lb d a i) = w at *
  refine decode_of f25_6 (by decide) (by decide) f31 ?_ hwf
  have h1 : decodeMajor w = decodeLoad w := by rw [decodeMajor, f25_6]; rfl
  have h2 : decodeLoad w = pure (.lb (w.extractLsb' 20 5) (w.extractLsb' 15 5) (w.extractLsb' 0 12)) := by rw [decodeLoad, f12_3]; rfl
  rw [h1, h2, f20_5, f15_5, f0_12]; rfl
theorem lh (d : BitVec 5) (a : BitVec 5) (i : BitVec 12) : Statement (.lh d a i) := by
  intro s hwf
  have f25_6 : (encode s (.lh d a i)).extractLsb' 25 6 = 0x10#6 := Ext.hi 13 <| Ext.hi 10 <| Ext.hi 5 <| Ext.hi 0 <| Ext.lo <| (Ext.all _)
  have f12_3 : (encode s (.lh d a i)).extractLsb' 12 3 = 1#3 := Ext.hi 0 <| Ext.lo <| (Ext.all _)
  have f20_5 : (encode s (.lh d a i)).extractLsb' 20 5 = d := Ext.hi 8 <| Ext.hi 5 <| Ext.hi 0 <| Ext.lo <| (Ext.all _)
  have f15_5 : (encode s (.lh d a i)).extractLsb' 15 5 = a := Ext.hi 3 <| Ext.hi 0 <| Ext.lo <| (Ext.all _)
  have f0_12 : (encode s (.lh d a i)).extractLsb' 0 12 = i := Ext.lo <| (Ext.all _)
  have f31 : (encode s (.lh d a i)).getLsbD 31 = s := Ext.marker (Ext.hi 19 <| Ext.hi 16 <| Ext.hi 11 <| Ext.hi 6 <| Ext.hi 0 <| (Ext.all _))
  generalize encode s (.lh d a i) = w at *
  refine decode_of f25_6 (by decide) (by decide) f31 ?_ hwf
  have h1 : decodeMajor w = decodeLoad w := by rw [decodeMajor, f25_6]; rfl
  have h2 : decodeLoad w = pure (.lh (w.extractLsb' 20 5) (w.extractLsb' 15 5) (w.extractLsb' 0 12)) := by rw [decodeLoad, f12_3]; rfl
  rw [h1, h2, f20_5, f15_5, f0_12]; rfl
theorem lw (d : BitVec 5) (a : BitVec 5) (i : BitVec 12) : Statement (.lw d a i) := by
  intro s hwf
  have f25_6 : (encode s (.lw d a i)).extractLsb' 25 6 = 0x10#6 := Ext.hi 13 <| Ext.hi 10 <| Ext.hi 5 <| Ext.hi 0 <| Ext.lo <| (Ext.all _)
  have f12_3 : (encode s (.lw d a i)).extractLsb' 12 3 = 2#3 := Ext.hi 0 <| Ext.lo <| (Ext.all _)
  have f20_5 : (encode s (.lw d a i)).extractLsb' 20 5 = d := Ext.hi 8 <| Ext.hi 5 <| Ext.hi 0 <| Ext.lo <| (Ext.all _)
  have f15_5 : (encode s (.lw d a i)).extractLsb' 15 5 = a := Ext.hi 3 <| Ext.hi 0 <| Ext.lo <| (Ext.all _)
  have f0_12 : (encode s (.lw d a i)).extractLsb' 0 12 = i := Ext.lo <| (Ext.all _)
  have f31 : (encode s (.lw d a i)).getLsbD 31 = s := Ext.marker (Ext.hi 19 <| Ext.hi 16 <| Ext.hi 11 <| Ext.hi 6 <| Ext.hi 0 <| (Ext.all _))
  generalize encode s (.lw d a i) = w at *
  refine decode_of f25_6 (by decide) (by decide) f31 ?_ hwf
  have h1 : decodeMajor w = decodeLoad w := by rw [decodeMajor, f25_6]; rfl
  have h2 : decodeLoad w = pure (.lw (w.extractLsb' 20 5) (w.extractLsb' 15 5) (w.extractLsb' 0 12)) := by rw [decodeLoad, f12_3]; rfl
  rw [h1, h2, f20_5, f15_5, f0_12]; rfl
theorem ld (d : BitVec 5) (a : BitVec 5) (i : BitVec 12) : Statement (.ld d a i) := by
  intro s hwf
  have f25_6 : (encode s (.ld d a i)).extractLsb' 25 6 = 0x10#6 := Ext.hi 13 <| Ext.hi 10 <| Ext.hi 5 <| Ext.hi 0 <| Ext.lo <| (Ext.all _)
  have f12_3 : (encode s (.ld d a i)).extractLsb' 12 3 = 3#3 := Ext.hi 0 <| Ext.lo <| (Ext.all _)
  have f20_5 : (encode s (.ld d a i)).extractLsb' 20 5 = d := Ext.hi 8 <| Ext.hi 5 <| Ext.hi 0 <| Ext.lo <| (Ext.all _)
  have f15_5 : (encode s (.ld d a i)).extractLsb' 15 5 = a := Ext.hi 3 <| Ext.hi 0 <| Ext.lo <| (Ext.all _)
  have f0_12 : (encode s (.ld d a i)).extractLsb' 0 12 = i := Ext.lo <| (Ext.all _)
  have f31 : (encode s (.ld d a i)).getLsbD 31 = s := Ext.marker (Ext.hi 19 <| Ext.hi 16 <| Ext.hi 11 <| Ext.hi 6 <| Ext.hi 0 <| (Ext.all _))
  generalize encode s (.ld d a i) = w at *
  refine decode_of f25_6 (by decide) (by decide) f31 ?_ hwf
  have h1 : decodeMajor w = decodeLoad w := by rw [decodeMajor, f25_6]; rfl
  have h2 : decodeLoad w = pure (.ld (w.extractLsb' 20 5) (w.extractLsb' 15 5) (w.extractLsb' 0 12)) := by rw [decodeLoad, f12_3]; rfl
  rw [h1, h2, f20_5, f15_5, f0_12]; rfl
theorem lbn (d : BitVec 5) (a : BitVec 5) (i : BitVec 12) : Statement (.lbn d a i) := by
  intro s hwf
  have f25_6 : (encode s (.lbn d a i)).extractLsb' 25 6 = 0x10#6 := Ext.hi 13 <| Ext.hi 10 <| Ext.hi 5 <| Ext.hi 0 <| Ext.lo <| (Ext.all _)
  have f12_3 : (encode s (.lbn d a i)).extractLsb' 12 3 = 4#3 := Ext.hi 0 <| Ext.lo <| (Ext.all _)
  have f20_5 : (encode s (.lbn d a i)).extractLsb' 20 5 = d := Ext.hi 8 <| Ext.hi 5 <| Ext.hi 0 <| Ext.lo <| (Ext.all _)
  have f15_5 : (encode s (.lbn d a i)).extractLsb' 15 5 = a := Ext.hi 3 <| Ext.hi 0 <| Ext.lo <| (Ext.all _)
  have f0_12 : (encode s (.lbn d a i)).extractLsb' 0 12 = i := Ext.lo <| (Ext.all _)
  have f31 : (encode s (.lbn d a i)).getLsbD 31 = s := Ext.marker (Ext.hi 19 <| Ext.hi 16 <| Ext.hi 11 <| Ext.hi 6 <| Ext.hi 0 <| (Ext.all _))
  generalize encode s (.lbn d a i) = w at *
  refine decode_of f25_6 (by decide) (by decide) f31 ?_ hwf
  have h1 : decodeMajor w = decodeLoad w := by rw [decodeMajor, f25_6]; rfl
  have h2 : decodeLoad w = pure (.lbn (w.extractLsb' 20 5) (w.extractLsb' 15 5) (w.extractLsb' 0 12)) := by rw [decodeLoad, f12_3]; rfl
  rw [h1, h2, f20_5, f15_5, f0_12]; rfl
theorem lhn (d : BitVec 5) (a : BitVec 5) (i : BitVec 12) : Statement (.lhn d a i) := by
  intro s hwf
  have f25_6 : (encode s (.lhn d a i)).extractLsb' 25 6 = 0x10#6 := Ext.hi 13 <| Ext.hi 10 <| Ext.hi 5 <| Ext.hi 0 <| Ext.lo <| (Ext.all _)
  have f12_3 : (encode s (.lhn d a i)).extractLsb' 12 3 = 5#3 := Ext.hi 0 <| Ext.lo <| (Ext.all _)
  have f20_5 : (encode s (.lhn d a i)).extractLsb' 20 5 = d := Ext.hi 8 <| Ext.hi 5 <| Ext.hi 0 <| Ext.lo <| (Ext.all _)
  have f15_5 : (encode s (.lhn d a i)).extractLsb' 15 5 = a := Ext.hi 3 <| Ext.hi 0 <| Ext.lo <| (Ext.all _)
  have f0_12 : (encode s (.lhn d a i)).extractLsb' 0 12 = i := Ext.lo <| (Ext.all _)
  have f31 : (encode s (.lhn d a i)).getLsbD 31 = s := Ext.marker (Ext.hi 19 <| Ext.hi 16 <| Ext.hi 11 <| Ext.hi 6 <| Ext.hi 0 <| (Ext.all _))
  generalize encode s (.lhn d a i) = w at *
  refine decode_of f25_6 (by decide) (by decide) f31 ?_ hwf
  have h1 : decodeMajor w = decodeLoad w := by rw [decodeMajor, f25_6]; rfl
  have h2 : decodeLoad w = pure (.lhn (w.extractLsb' 20 5) (w.extractLsb' 15 5) (w.extractLsb' 0 12)) := by rw [decodeLoad, f12_3]; rfl
  rw [h1, h2, f20_5, f15_5, f0_12]; rfl
theorem lwn (d : BitVec 5) (a : BitVec 5) (i : BitVec 12) : Statement (.lwn d a i) := by
  intro s hwf
  have f25_6 : (encode s (.lwn d a i)).extractLsb' 25 6 = 0x10#6 := Ext.hi 13 <| Ext.hi 10 <| Ext.hi 5 <| Ext.hi 0 <| Ext.lo <| (Ext.all _)
  have f12_3 : (encode s (.lwn d a i)).extractLsb' 12 3 = 6#3 := Ext.hi 0 <| Ext.lo <| (Ext.all _)
  have f20_5 : (encode s (.lwn d a i)).extractLsb' 20 5 = d := Ext.hi 8 <| Ext.hi 5 <| Ext.hi 0 <| Ext.lo <| (Ext.all _)
  have f15_5 : (encode s (.lwn d a i)).extractLsb' 15 5 = a := Ext.hi 3 <| Ext.hi 0 <| Ext.lo <| (Ext.all _)
  have f0_12 : (encode s (.lwn d a i)).extractLsb' 0 12 = i := Ext.lo <| (Ext.all _)
  have f31 : (encode s (.lwn d a i)).getLsbD 31 = s := Ext.marker (Ext.hi 19 <| Ext.hi 16 <| Ext.hi 11 <| Ext.hi 6 <| Ext.hi 0 <| (Ext.all _))
  generalize encode s (.lwn d a i) = w at *
  refine decode_of f25_6 (by decide) (by decide) f31 ?_ hwf
  have h1 : decodeMajor w = decodeLoad w := by rw [decodeMajor, f25_6]; rfl
  have h2 : decodeLoad w = pure (.lwn (w.extractLsb' 20 5) (w.extractLsb' 15 5) (w.extractLsb' 0 12)) := by rw [decodeLoad, f12_3]; rfl
  rw [h1, h2, f20_5, f15_5, f0_12]; rfl
theorem lc (d : BitVec 5) (a : BitVec 5) (i : BitVec 12) : Statement (.lc d a i) := by
  intro s hwf
  have f25_6 : (encode s (.lc d a i)).extractLsb' 25 6 = 0x10#6 := Ext.hi 13 <| Ext.hi 10 <| Ext.hi 5 <| Ext.hi 0 <| Ext.lo <| (Ext.all _)
  have f12_3 : (encode s (.lc d a i)).extractLsb' 12 3 = 7#3 := Ext.hi 0 <| Ext.lo <| (Ext.all _)
  have f20_5 : (encode s (.lc d a i)).extractLsb' 20 5 = d := Ext.hi 8 <| Ext.hi 5 <| Ext.hi 0 <| Ext.lo <| (Ext.all _)
  have f15_5 : (encode s (.lc d a i)).extractLsb' 15 5 = a := Ext.hi 3 <| Ext.hi 0 <| Ext.lo <| (Ext.all _)
  have f0_12 : (encode s (.lc d a i)).extractLsb' 0 12 = i := Ext.lo <| (Ext.all _)
  have f31 : (encode s (.lc d a i)).getLsbD 31 = s := Ext.marker (Ext.hi 19 <| Ext.hi 16 <| Ext.hi 11 <| Ext.hi 6 <| Ext.hi 0 <| (Ext.all _))
  generalize encode s (.lc d a i) = w at *
  refine decode_of f25_6 (by decide) (by decide) f31 ?_ hwf
  have h1 : decodeMajor w = decodeLoad w := by rw [decodeMajor, f25_6]; rfl
  have h2 : decodeLoad w = pure (.lc (w.extractLsb' 20 5) (w.extractLsb' 15 5) (w.extractLsb' 0 12)) := by rw [decodeLoad, f12_3]; rfl
  rw [h1, h2, f20_5, f15_5, f0_12]; rfl
theorem sb (d : BitVec 5) (a : BitVec 5) (i : BitVec 12) : Statement (.sb d a i) := by
  intro s hwf
  have f25_6 : (encode s (.sb d a i)).extractLsb' 25 6 = 0x11#6 := Ext.hi 13 <| Ext.hi 10 <| Ext.hi 5 <| Ext.hi 0 <| Ext.lo <| (Ext.all _)
  have f12_3 : (encode s (.sb d a i)).extractLsb' 12 3 = 0#3 := Ext.hi 0 <| Ext.lo <| (Ext.all _)
  have f20_5 : (encode s (.sb d a i)).extractLsb' 20 5 = d := Ext.hi 8 <| Ext.hi 5 <| Ext.hi 0 <| Ext.lo <| (Ext.all _)
  have f15_5 : (encode s (.sb d a i)).extractLsb' 15 5 = a := Ext.hi 3 <| Ext.hi 0 <| Ext.lo <| (Ext.all _)
  have f0_12 : (encode s (.sb d a i)).extractLsb' 0 12 = i := Ext.lo <| (Ext.all _)
  have f31 : (encode s (.sb d a i)).getLsbD 31 = s := Ext.marker (Ext.hi 19 <| Ext.hi 16 <| Ext.hi 11 <| Ext.hi 6 <| Ext.hi 0 <| (Ext.all _))
  generalize encode s (.sb d a i) = w at *
  refine decode_of f25_6 (by decide) (by decide) f31 ?_ hwf
  have h1 : decodeMajor w = decodeStore w := by rw [decodeMajor, f25_6]; rfl
  have h2 : decodeStore w = pure (.sb (w.extractLsb' 20 5) (w.extractLsb' 15 5) (w.extractLsb' 0 12)) := by rw [decodeStore, f12_3]; rfl
  rw [h1, h2, f20_5, f15_5, f0_12]; rfl
theorem sh (d : BitVec 5) (a : BitVec 5) (i : BitVec 12) : Statement (.sh d a i) := by
  intro s hwf
  have f25_6 : (encode s (.sh d a i)).extractLsb' 25 6 = 0x11#6 := Ext.hi 13 <| Ext.hi 10 <| Ext.hi 5 <| Ext.hi 0 <| Ext.lo <| (Ext.all _)
  have f12_3 : (encode s (.sh d a i)).extractLsb' 12 3 = 1#3 := Ext.hi 0 <| Ext.lo <| (Ext.all _)
  have f20_5 : (encode s (.sh d a i)).extractLsb' 20 5 = d := Ext.hi 8 <| Ext.hi 5 <| Ext.hi 0 <| Ext.lo <| (Ext.all _)
  have f15_5 : (encode s (.sh d a i)).extractLsb' 15 5 = a := Ext.hi 3 <| Ext.hi 0 <| Ext.lo <| (Ext.all _)
  have f0_12 : (encode s (.sh d a i)).extractLsb' 0 12 = i := Ext.lo <| (Ext.all _)
  have f31 : (encode s (.sh d a i)).getLsbD 31 = s := Ext.marker (Ext.hi 19 <| Ext.hi 16 <| Ext.hi 11 <| Ext.hi 6 <| Ext.hi 0 <| (Ext.all _))
  generalize encode s (.sh d a i) = w at *
  refine decode_of f25_6 (by decide) (by decide) f31 ?_ hwf
  have h1 : decodeMajor w = decodeStore w := by rw [decodeMajor, f25_6]; rfl
  have h2 : decodeStore w = pure (.sh (w.extractLsb' 20 5) (w.extractLsb' 15 5) (w.extractLsb' 0 12)) := by rw [decodeStore, f12_3]; rfl
  rw [h1, h2, f20_5, f15_5, f0_12]; rfl
theorem sw (d : BitVec 5) (a : BitVec 5) (i : BitVec 12) : Statement (.sw d a i) := by
  intro s hwf
  have f25_6 : (encode s (.sw d a i)).extractLsb' 25 6 = 0x11#6 := Ext.hi 13 <| Ext.hi 10 <| Ext.hi 5 <| Ext.hi 0 <| Ext.lo <| (Ext.all _)
  have f12_3 : (encode s (.sw d a i)).extractLsb' 12 3 = 2#3 := Ext.hi 0 <| Ext.lo <| (Ext.all _)
  have f20_5 : (encode s (.sw d a i)).extractLsb' 20 5 = d := Ext.hi 8 <| Ext.hi 5 <| Ext.hi 0 <| Ext.lo <| (Ext.all _)
  have f15_5 : (encode s (.sw d a i)).extractLsb' 15 5 = a := Ext.hi 3 <| Ext.hi 0 <| Ext.lo <| (Ext.all _)
  have f0_12 : (encode s (.sw d a i)).extractLsb' 0 12 = i := Ext.lo <| (Ext.all _)
  have f31 : (encode s (.sw d a i)).getLsbD 31 = s := Ext.marker (Ext.hi 19 <| Ext.hi 16 <| Ext.hi 11 <| Ext.hi 6 <| Ext.hi 0 <| (Ext.all _))
  generalize encode s (.sw d a i) = w at *
  refine decode_of f25_6 (by decide) (by decide) f31 ?_ hwf
  have h1 : decodeMajor w = decodeStore w := by rw [decodeMajor, f25_6]; rfl
  have h2 : decodeStore w = pure (.sw (w.extractLsb' 20 5) (w.extractLsb' 15 5) (w.extractLsb' 0 12)) := by rw [decodeStore, f12_3]; rfl
  rw [h1, h2, f20_5, f15_5, f0_12]; rfl
theorem sd (d : BitVec 5) (a : BitVec 5) (i : BitVec 12) : Statement (.sd d a i) := by
  intro s hwf
  have f25_6 : (encode s (.sd d a i)).extractLsb' 25 6 = 0x11#6 := Ext.hi 13 <| Ext.hi 10 <| Ext.hi 5 <| Ext.hi 0 <| Ext.lo <| (Ext.all _)
  have f12_3 : (encode s (.sd d a i)).extractLsb' 12 3 = 3#3 := Ext.hi 0 <| Ext.lo <| (Ext.all _)
  have f20_5 : (encode s (.sd d a i)).extractLsb' 20 5 = d := Ext.hi 8 <| Ext.hi 5 <| Ext.hi 0 <| Ext.lo <| (Ext.all _)
  have f15_5 : (encode s (.sd d a i)).extractLsb' 15 5 = a := Ext.hi 3 <| Ext.hi 0 <| Ext.lo <| (Ext.all _)
  have f0_12 : (encode s (.sd d a i)).extractLsb' 0 12 = i := Ext.lo <| (Ext.all _)
  have f31 : (encode s (.sd d a i)).getLsbD 31 = s := Ext.marker (Ext.hi 19 <| Ext.hi 16 <| Ext.hi 11 <| Ext.hi 6 <| Ext.hi 0 <| (Ext.all _))
  generalize encode s (.sd d a i) = w at *
  refine decode_of f25_6 (by decide) (by decide) f31 ?_ hwf
  have h1 : decodeMajor w = decodeStore w := by rw [decodeMajor, f25_6]; rfl
  have h2 : decodeStore w = pure (.sd (w.extractLsb' 20 5) (w.extractLsb' 15 5) (w.extractLsb' 0 12)) := by rw [decodeStore, f12_3]; rfl
  rw [h1, h2, f20_5, f15_5, f0_12]; rfl
theorem sc (d : BitVec 5) (a : BitVec 5) (i : BitVec 12) : Statement (.sc d a i) := by
  intro s hwf
  have f25_6 : (encode s (.sc d a i)).extractLsb' 25 6 = 0x11#6 := Ext.hi 13 <| Ext.hi 10 <| Ext.hi 5 <| Ext.hi 0 <| Ext.lo <| (Ext.all _)
  have f12_3 : (encode s (.sc d a i)).extractLsb' 12 3 = 7#3 := Ext.hi 0 <| Ext.lo <| (Ext.all _)
  have f20_5 : (encode s (.sc d a i)).extractLsb' 20 5 = d := Ext.hi 8 <| Ext.hi 5 <| Ext.hi 0 <| Ext.lo <| (Ext.all _)
  have f15_5 : (encode s (.sc d a i)).extractLsb' 15 5 = a := Ext.hi 3 <| Ext.hi 0 <| Ext.lo <| (Ext.all _)
  have f0_12 : (encode s (.sc d a i)).extractLsb' 0 12 = i := Ext.lo <| (Ext.all _)
  have f31 : (encode s (.sc d a i)).getLsbD 31 = s := Ext.marker (Ext.hi 19 <| Ext.hi 16 <| Ext.hi 11 <| Ext.hi 6 <| Ext.hi 0 <| (Ext.all _))
  generalize encode s (.sc d a i) = w at *
  refine decode_of f25_6 (by decide) (by decide) f31 ?_ hwf
  have h1 : decodeMajor w = decodeStore w := by rw [decodeMajor, f25_6]; rfl
  have h2 : decodeStore w = pure (.sc (w.extractLsb' 20 5) (w.extractLsb' 15 5) (w.extractLsb' 0 12)) := by rw [decodeStore, f12_3]; rfl
  rw [h1, h2, f20_5, f15_5, f0_12]; rfl
theorem cgetaddr (d : BitVec 5) (a : BitVec 5) : Statement (.cgetaddr d a) := by
  intro s hwf
  have f25_6 : (encode s (.cgetaddr d a)).extractLsb' 25 6 = 0x12#6 := Ext.hi 10 <| Ext.hi 5 <| Ext.hi 0 <| Ext.lo <| (Ext.all _)
  have f0_10 : (encode s (.cgetaddr d a)).extractLsb' 0 10 = 0#10 := Ext.lo <| rfl
  have f10_5 : (encode s (.cgetaddr d a)).extractLsb' 10 5 = 0#5 := Ext.lo <| rfl
  have f20_5 : (encode s (.cgetaddr d a)).extractLsb' 20 5 = d := Ext.hi 5 <| Ext.hi 0 <| Ext.lo <| (Ext.all _)
  have f15_5 : (encode s (.cgetaddr d a)).extractLsb' 15 5 = a := Ext.hi 0 <| Ext.lo <| (Ext.all _)
  have f31 : (encode s (.cgetaddr d a)).getLsbD 31 = s := Ext.marker (Ext.hi 16 <| Ext.hi 11 <| Ext.hi 6 <| Ext.hi 0 <| (Ext.all _))
  generalize encode s (.cgetaddr d a) = w at *
  refine decode_of f25_6 (by decide) (by decide) f31 ?_ hwf
  have h1 : decodeMajor w = decodeCap w := by rw [decodeMajor, f25_6]; rfl
  have h2 : decodeCap w = fixedAt w 10 5 0 (pure (.cgetaddr (w.extractLsb' 20 5) (w.extractLsb' 15 5))) := by rw [decodeCap, f0_10]; rfl
  rw [h1, h2, fixedAt_ok f10_5, f20_5, f15_5]; rfl
theorem cgetbase (d : BitVec 5) (a : BitVec 5) : Statement (.cgetbase d a) := by
  intro s hwf
  have f25_6 : (encode s (.cgetbase d a)).extractLsb' 25 6 = 0x12#6 := Ext.hi 10 <| Ext.hi 5 <| Ext.hi 0 <| Ext.lo <| (Ext.all _)
  have f0_10 : (encode s (.cgetbase d a)).extractLsb' 0 10 = 1#10 := Ext.lo <| rfl
  have f10_5 : (encode s (.cgetbase d a)).extractLsb' 10 5 = 0#5 := Ext.lo <| rfl
  have f20_5 : (encode s (.cgetbase d a)).extractLsb' 20 5 = d := Ext.hi 5 <| Ext.hi 0 <| Ext.lo <| (Ext.all _)
  have f15_5 : (encode s (.cgetbase d a)).extractLsb' 15 5 = a := Ext.hi 0 <| Ext.lo <| (Ext.all _)
  have f31 : (encode s (.cgetbase d a)).getLsbD 31 = s := Ext.marker (Ext.hi 16 <| Ext.hi 11 <| Ext.hi 6 <| Ext.hi 0 <| (Ext.all _))
  generalize encode s (.cgetbase d a) = w at *
  refine decode_of f25_6 (by decide) (by decide) f31 ?_ hwf
  have h1 : decodeMajor w = decodeCap w := by rw [decodeMajor, f25_6]; rfl
  have h2 : decodeCap w = fixedAt w 10 5 0 (pure (.cgetbase (w.extractLsb' 20 5) (w.extractLsb' 15 5))) := by rw [decodeCap, f0_10]; rfl
  rw [h1, h2, fixedAt_ok f10_5, f20_5, f15_5]; rfl
theorem cgetlen (d : BitVec 5) (a : BitVec 5) : Statement (.cgetlen d a) := by
  intro s hwf
  have f25_6 : (encode s (.cgetlen d a)).extractLsb' 25 6 = 0x12#6 := Ext.hi 10 <| Ext.hi 5 <| Ext.hi 0 <| Ext.lo <| (Ext.all _)
  have f0_10 : (encode s (.cgetlen d a)).extractLsb' 0 10 = 2#10 := Ext.lo <| rfl
  have f10_5 : (encode s (.cgetlen d a)).extractLsb' 10 5 = 0#5 := Ext.lo <| rfl
  have f20_5 : (encode s (.cgetlen d a)).extractLsb' 20 5 = d := Ext.hi 5 <| Ext.hi 0 <| Ext.lo <| (Ext.all _)
  have f15_5 : (encode s (.cgetlen d a)).extractLsb' 15 5 = a := Ext.hi 0 <| Ext.lo <| (Ext.all _)
  have f31 : (encode s (.cgetlen d a)).getLsbD 31 = s := Ext.marker (Ext.hi 16 <| Ext.hi 11 <| Ext.hi 6 <| Ext.hi 0 <| (Ext.all _))
  generalize encode s (.cgetlen d a) = w at *
  refine decode_of f25_6 (by decide) (by decide) f31 ?_ hwf
  have h1 : decodeMajor w = decodeCap w := by rw [decodeMajor, f25_6]; rfl
  have h2 : decodeCap w = fixedAt w 10 5 0 (pure (.cgetlen (w.extractLsb' 20 5) (w.extractLsb' 15 5))) := by rw [decodeCap, f0_10]; rfl
  rw [h1, h2, fixedAt_ok f10_5, f20_5, f15_5]; rfl
theorem cgetperm (d : BitVec 5) (a : BitVec 5) : Statement (.cgetperm d a) := by
  intro s hwf
  have f25_6 : (encode s (.cgetperm d a)).extractLsb' 25 6 = 0x12#6 := Ext.hi 10 <| Ext.hi 5 <| Ext.hi 0 <| Ext.lo <| (Ext.all _)
  have f0_10 : (encode s (.cgetperm d a)).extractLsb' 0 10 = 3#10 := Ext.lo <| rfl
  have f10_5 : (encode s (.cgetperm d a)).extractLsb' 10 5 = 0#5 := Ext.lo <| rfl
  have f20_5 : (encode s (.cgetperm d a)).extractLsb' 20 5 = d := Ext.hi 5 <| Ext.hi 0 <| Ext.lo <| (Ext.all _)
  have f15_5 : (encode s (.cgetperm d a)).extractLsb' 15 5 = a := Ext.hi 0 <| Ext.lo <| (Ext.all _)
  have f31 : (encode s (.cgetperm d a)).getLsbD 31 = s := Ext.marker (Ext.hi 16 <| Ext.hi 11 <| Ext.hi 6 <| Ext.hi 0 <| (Ext.all _))
  generalize encode s (.cgetperm d a) = w at *
  refine decode_of f25_6 (by decide) (by decide) f31 ?_ hwf
  have h1 : decodeMajor w = decodeCap w := by rw [decodeMajor, f25_6]; rfl
  have h2 : decodeCap w = fixedAt w 10 5 0 (pure (.cgetperm (w.extractLsb' 20 5) (w.extractLsb' 15 5))) := by rw [decodeCap, f0_10]; rfl
  rw [h1, h2, fixedAt_ok f10_5, f20_5, f15_5]; rfl
theorem cgettype (d : BitVec 5) (a : BitVec 5) : Statement (.cgettype d a) := by
  intro s hwf
  have f25_6 : (encode s (.cgettype d a)).extractLsb' 25 6 = 0x12#6 := Ext.hi 10 <| Ext.hi 5 <| Ext.hi 0 <| Ext.lo <| (Ext.all _)
  have f0_10 : (encode s (.cgettype d a)).extractLsb' 0 10 = 4#10 := Ext.lo <| rfl
  have f10_5 : (encode s (.cgettype d a)).extractLsb' 10 5 = 0#5 := Ext.lo <| rfl
  have f20_5 : (encode s (.cgettype d a)).extractLsb' 20 5 = d := Ext.hi 5 <| Ext.hi 0 <| Ext.lo <| (Ext.all _)
  have f15_5 : (encode s (.cgettype d a)).extractLsb' 15 5 = a := Ext.hi 0 <| Ext.lo <| (Ext.all _)
  have f31 : (encode s (.cgettype d a)).getLsbD 31 = s := Ext.marker (Ext.hi 16 <| Ext.hi 11 <| Ext.hi 6 <| Ext.hi 0 <| (Ext.all _))
  generalize encode s (.cgettype d a) = w at *
  refine decode_of f25_6 (by decide) (by decide) f31 ?_ hwf
  have h1 : decodeMajor w = decodeCap w := by rw [decodeMajor, f25_6]; rfl
  have h2 : decodeCap w = fixedAt w 10 5 0 (pure (.cgettype (w.extractLsb' 20 5) (w.extractLsb' 15 5))) := by rw [decodeCap, f0_10]; rfl
  rw [h1, h2, fixedAt_ok f10_5, f20_5, f15_5]; rfl
theorem cgettag (d : BitVec 5) (a : BitVec 5) : Statement (.cgettag d a) := by
  intro s hwf
  have f25_6 : (encode s (.cgettag d a)).extractLsb' 25 6 = 0x12#6 := Ext.hi 10 <| Ext.hi 5 <| Ext.hi 0 <| Ext.lo <| (Ext.all _)
  have f0_10 : (encode s (.cgettag d a)).extractLsb' 0 10 = 5#10 := Ext.lo <| rfl
  have f10_5 : (encode s (.cgettag d a)).extractLsb' 10 5 = 0#5 := Ext.lo <| rfl
  have f20_5 : (encode s (.cgettag d a)).extractLsb' 20 5 = d := Ext.hi 5 <| Ext.hi 0 <| Ext.lo <| (Ext.all _)
  have f15_5 : (encode s (.cgettag d a)).extractLsb' 15 5 = a := Ext.hi 0 <| Ext.lo <| (Ext.all _)
  have f31 : (encode s (.cgettag d a)).getLsbD 31 = s := Ext.marker (Ext.hi 16 <| Ext.hi 11 <| Ext.hi 6 <| Ext.hi 0 <| (Ext.all _))
  generalize encode s (.cgettag d a) = w at *
  refine decode_of f25_6 (by decide) (by decide) f31 ?_ hwf
  have h1 : decodeMajor w = decodeCap w := by rw [decodeMajor, f25_6]; rfl
  have h2 : decodeCap w = fixedAt w 10 5 0 (pure (.cgettag (w.extractLsb' 20 5) (w.extractLsb' 15 5))) := by rw [decodeCap, f0_10]; rfl
  rw [h1, h2, fixedAt_ok f10_5, f20_5, f15_5]; rfl
theorem csetaddr (d : BitVec 5) (a : BitVec 5) (b : BitVec 5) : Statement (.csetaddr d a b) := by
  intro s hwf
  have f25_6 : (encode s (.csetaddr d a b)).extractLsb' 25 6 = 0x12#6 := Ext.hi 15 <| Ext.hi 10 <| Ext.hi 5 <| Ext.hi 0 <| Ext.lo <| (Ext.all _)
  have f0_10 : (encode s (.csetaddr d a b)).extractLsb' 0 10 = 6#10 := Ext.lo <| (Ext.all _)
  have f20_5 : (encode s (.csetaddr d a b)).extractLsb' 20 5 = d := Ext.hi 10 <| Ext.hi 5 <| Ext.hi 0 <| Ext.lo <| (Ext.all _)
  have f15_5 : (encode s (.csetaddr d a b)).extractLsb' 15 5 = a := Ext.hi 5 <| Ext.hi 0 <| Ext.lo <| (Ext.all _)
  have f10_5 : (encode s (.csetaddr d a b)).extractLsb' 10 5 = b := Ext.hi 0 <| Ext.lo <| (Ext.all _)
  have f31 : (encode s (.csetaddr d a b)).getLsbD 31 = s := Ext.marker (Ext.hi 21 <| Ext.hi 16 <| Ext.hi 11 <| Ext.hi 6 <| Ext.hi 0 <| (Ext.all _))
  generalize encode s (.csetaddr d a b) = w at *
  refine decode_of f25_6 (by decide) (by decide) f31 ?_ hwf
  have h1 : decodeMajor w = decodeCap w := by rw [decodeMajor, f25_6]; rfl
  have h2 : decodeCap w = pure (.csetaddr (w.extractLsb' 20 5) (w.extractLsb' 15 5) (w.extractLsb' 10 5)) := by rw [decodeCap, f0_10]; rfl
  rw [h1, h2, f20_5, f15_5, f10_5]; rfl
theorem cinc (d : BitVec 5) (a : BitVec 5) (b : BitVec 5) : Statement (.cinc d a b) := by
  intro s hwf
  have f25_6 : (encode s (.cinc d a b)).extractLsb' 25 6 = 0x12#6 := Ext.hi 15 <| Ext.hi 10 <| Ext.hi 5 <| Ext.hi 0 <| Ext.lo <| (Ext.all _)
  have f0_10 : (encode s (.cinc d a b)).extractLsb' 0 10 = 7#10 := Ext.lo <| (Ext.all _)
  have f20_5 : (encode s (.cinc d a b)).extractLsb' 20 5 = d := Ext.hi 10 <| Ext.hi 5 <| Ext.hi 0 <| Ext.lo <| (Ext.all _)
  have f15_5 : (encode s (.cinc d a b)).extractLsb' 15 5 = a := Ext.hi 5 <| Ext.hi 0 <| Ext.lo <| (Ext.all _)
  have f10_5 : (encode s (.cinc d a b)).extractLsb' 10 5 = b := Ext.hi 0 <| Ext.lo <| (Ext.all _)
  have f31 : (encode s (.cinc d a b)).getLsbD 31 = s := Ext.marker (Ext.hi 21 <| Ext.hi 16 <| Ext.hi 11 <| Ext.hi 6 <| Ext.hi 0 <| (Ext.all _))
  generalize encode s (.cinc d a b) = w at *
  refine decode_of f25_6 (by decide) (by decide) f31 ?_ hwf
  have h1 : decodeMajor w = decodeCap w := by rw [decodeMajor, f25_6]; rfl
  have h2 : decodeCap w = pure (.cinc (w.extractLsb' 20 5) (w.extractLsb' 15 5) (w.extractLsb' 10 5)) := by rw [decodeCap, f0_10]; rfl
  rw [h1, h2, f20_5, f15_5, f10_5]; rfl
theorem csetb (d : BitVec 5) (a : BitVec 5) (b : BitVec 5) : Statement (.csetb d a b) := by
  intro s hwf
  have f25_6 : (encode s (.csetb d a b)).extractLsb' 25 6 = 0x12#6 := Ext.hi 15 <| Ext.hi 10 <| Ext.hi 5 <| Ext.hi 0 <| Ext.lo <| (Ext.all _)
  have f0_10 : (encode s (.csetb d a b)).extractLsb' 0 10 = 8#10 := Ext.lo <| (Ext.all _)
  have f20_5 : (encode s (.csetb d a b)).extractLsb' 20 5 = d := Ext.hi 10 <| Ext.hi 5 <| Ext.hi 0 <| Ext.lo <| (Ext.all _)
  have f15_5 : (encode s (.csetb d a b)).extractLsb' 15 5 = a := Ext.hi 5 <| Ext.hi 0 <| Ext.lo <| (Ext.all _)
  have f10_5 : (encode s (.csetb d a b)).extractLsb' 10 5 = b := Ext.hi 0 <| Ext.lo <| (Ext.all _)
  have f31 : (encode s (.csetb d a b)).getLsbD 31 = s := Ext.marker (Ext.hi 21 <| Ext.hi 16 <| Ext.hi 11 <| Ext.hi 6 <| Ext.hi 0 <| (Ext.all _))
  generalize encode s (.csetb d a b) = w at *
  refine decode_of f25_6 (by decide) (by decide) f31 ?_ hwf
  have h1 : decodeMajor w = decodeCap w := by rw [decodeMajor, f25_6]; rfl
  have h2 : decodeCap w = pure (.csetb (w.extractLsb' 20 5) (w.extractLsb' 15 5) (w.extractLsb' 10 5)) := by rw [decodeCap, f0_10]; rfl
  rw [h1, h2, f20_5, f15_5, f10_5]; rfl
theorem csetbx (d : BitVec 5) (a : BitVec 5) (b : BitVec 5) : Statement (.csetbx d a b) := by
  intro s hwf
  have f25_6 : (encode s (.csetbx d a b)).extractLsb' 25 6 = 0x12#6 := Ext.hi 15 <| Ext.hi 10 <| Ext.hi 5 <| Ext.hi 0 <| Ext.lo <| (Ext.all _)
  have f0_10 : (encode s (.csetbx d a b)).extractLsb' 0 10 = 9#10 := Ext.lo <| (Ext.all _)
  have f20_5 : (encode s (.csetbx d a b)).extractLsb' 20 5 = d := Ext.hi 10 <| Ext.hi 5 <| Ext.hi 0 <| Ext.lo <| (Ext.all _)
  have f15_5 : (encode s (.csetbx d a b)).extractLsb' 15 5 = a := Ext.hi 5 <| Ext.hi 0 <| Ext.lo <| (Ext.all _)
  have f10_5 : (encode s (.csetbx d a b)).extractLsb' 10 5 = b := Ext.hi 0 <| Ext.lo <| (Ext.all _)
  have f31 : (encode s (.csetbx d a b)).getLsbD 31 = s := Ext.marker (Ext.hi 21 <| Ext.hi 16 <| Ext.hi 11 <| Ext.hi 6 <| Ext.hi 0 <| (Ext.all _))
  generalize encode s (.csetbx d a b) = w at *
  refine decode_of f25_6 (by decide) (by decide) f31 ?_ hwf
  have h1 : decodeMajor w = decodeCap w := by rw [decodeMajor, f25_6]; rfl
  have h2 : decodeCap w = pure (.csetbx (w.extractLsb' 20 5) (w.extractLsb' 15 5) (w.extractLsb' 10 5)) := by rw [decodeCap, f0_10]; rfl
  rw [h1, h2, f20_5, f15_5, f10_5]; rfl
theorem candp (d : BitVec 5) (a : BitVec 5) (b : BitVec 5) : Statement (.candp d a b) := by
  intro s hwf
  have f25_6 : (encode s (.candp d a b)).extractLsb' 25 6 = 0x12#6 := Ext.hi 15 <| Ext.hi 10 <| Ext.hi 5 <| Ext.hi 0 <| Ext.lo <| (Ext.all _)
  have f0_10 : (encode s (.candp d a b)).extractLsb' 0 10 = 10#10 := Ext.lo <| (Ext.all _)
  have f20_5 : (encode s (.candp d a b)).extractLsb' 20 5 = d := Ext.hi 10 <| Ext.hi 5 <| Ext.hi 0 <| Ext.lo <| (Ext.all _)
  have f15_5 : (encode s (.candp d a b)).extractLsb' 15 5 = a := Ext.hi 5 <| Ext.hi 0 <| Ext.lo <| (Ext.all _)
  have f10_5 : (encode s (.candp d a b)).extractLsb' 10 5 = b := Ext.hi 0 <| Ext.lo <| (Ext.all _)
  have f31 : (encode s (.candp d a b)).getLsbD 31 = s := Ext.marker (Ext.hi 21 <| Ext.hi 16 <| Ext.hi 11 <| Ext.hi 6 <| Ext.hi 0 <| (Ext.all _))
  generalize encode s (.candp d a b) = w at *
  refine decode_of f25_6 (by decide) (by decide) f31 ?_ hwf
  have h1 : decodeMajor w = decodeCap w := by rw [decodeMajor, f25_6]; rfl
  have h2 : decodeCap w = pure (.candp (w.extractLsb' 20 5) (w.extractLsb' 15 5) (w.extractLsb' 10 5)) := by rw [decodeCap, f0_10]; rfl
  rw [h1, h2, f20_5, f15_5, f10_5]; rfl
theorem cseal (d : BitVec 5) (a : BitVec 5) (b : BitVec 5) : Statement (.cseal d a b) := by
  intro s hwf
  have f25_6 : (encode s (.cseal d a b)).extractLsb' 25 6 = 0x12#6 := Ext.hi 15 <| Ext.hi 10 <| Ext.hi 5 <| Ext.hi 0 <| Ext.lo <| (Ext.all _)
  have f0_10 : (encode s (.cseal d a b)).extractLsb' 0 10 = 11#10 := Ext.lo <| (Ext.all _)
  have f20_5 : (encode s (.cseal d a b)).extractLsb' 20 5 = d := Ext.hi 10 <| Ext.hi 5 <| Ext.hi 0 <| Ext.lo <| (Ext.all _)
  have f15_5 : (encode s (.cseal d a b)).extractLsb' 15 5 = a := Ext.hi 5 <| Ext.hi 0 <| Ext.lo <| (Ext.all _)
  have f10_5 : (encode s (.cseal d a b)).extractLsb' 10 5 = b := Ext.hi 0 <| Ext.lo <| (Ext.all _)
  have f31 : (encode s (.cseal d a b)).getLsbD 31 = s := Ext.marker (Ext.hi 21 <| Ext.hi 16 <| Ext.hi 11 <| Ext.hi 6 <| Ext.hi 0 <| (Ext.all _))
  generalize encode s (.cseal d a b) = w at *
  refine decode_of f25_6 (by decide) (by decide) f31 ?_ hwf
  have h1 : decodeMajor w = decodeCap w := by rw [decodeMajor, f25_6]; rfl
  have h2 : decodeCap w = pure (.cseal (w.extractLsb' 20 5) (w.extractLsb' 15 5) (w.extractLsb' 10 5)) := by rw [decodeCap, f0_10]; rfl
  rw [h1, h2, f20_5, f15_5, f10_5]; rfl
theorem cunseal (d : BitVec 5) (a : BitVec 5) (b : BitVec 5) : Statement (.cunseal d a b) := by
  intro s hwf
  have f25_6 : (encode s (.cunseal d a b)).extractLsb' 25 6 = 0x12#6 := Ext.hi 15 <| Ext.hi 10 <| Ext.hi 5 <| Ext.hi 0 <| Ext.lo <| (Ext.all _)
  have f0_10 : (encode s (.cunseal d a b)).extractLsb' 0 10 = 12#10 := Ext.lo <| (Ext.all _)
  have f20_5 : (encode s (.cunseal d a b)).extractLsb' 20 5 = d := Ext.hi 10 <| Ext.hi 5 <| Ext.hi 0 <| Ext.lo <| (Ext.all _)
  have f15_5 : (encode s (.cunseal d a b)).extractLsb' 15 5 = a := Ext.hi 5 <| Ext.hi 0 <| Ext.lo <| (Ext.all _)
  have f10_5 : (encode s (.cunseal d a b)).extractLsb' 10 5 = b := Ext.hi 0 <| Ext.lo <| (Ext.all _)
  have f31 : (encode s (.cunseal d a b)).getLsbD 31 = s := Ext.marker (Ext.hi 21 <| Ext.hi 16 <| Ext.hi 11 <| Ext.hi 6 <| Ext.hi 0 <| (Ext.all _))
  generalize encode s (.cunseal d a b) = w at *
  refine decode_of f25_6 (by decide) (by decide) f31 ?_ hwf
  have h1 : decodeMajor w = decodeCap w := by rw [decodeMajor, f25_6]; rfl
  have h2 : decodeCap w = pure (.cunseal (w.extractLsb' 20 5) (w.extractLsb' 15 5) (w.extractLsb' 10 5)) := by rw [decodeCap, f0_10]; rfl
  rw [h1, h2, f20_5, f15_5, f10_5]; rfl
theorem ctestsub (d : BitVec 5) (a : BitVec 5) (b : BitVec 5) : Statement (.ctestsub d a b) := by
  intro s hwf
  have f25_6 : (encode s (.ctestsub d a b)).extractLsb' 25 6 = 0x12#6 := Ext.hi 15 <| Ext.hi 10 <| Ext.hi 5 <| Ext.hi 0 <| Ext.lo <| (Ext.all _)
  have f0_10 : (encode s (.ctestsub d a b)).extractLsb' 0 10 = 13#10 := Ext.lo <| (Ext.all _)
  have f20_5 : (encode s (.ctestsub d a b)).extractLsb' 20 5 = d := Ext.hi 10 <| Ext.hi 5 <| Ext.hi 0 <| Ext.lo <| (Ext.all _)
  have f15_5 : (encode s (.ctestsub d a b)).extractLsb' 15 5 = a := Ext.hi 5 <| Ext.hi 0 <| Ext.lo <| (Ext.all _)
  have f10_5 : (encode s (.ctestsub d a b)).extractLsb' 10 5 = b := Ext.hi 0 <| Ext.lo <| (Ext.all _)
  have f31 : (encode s (.ctestsub d a b)).getLsbD 31 = s := Ext.marker (Ext.hi 21 <| Ext.hi 16 <| Ext.hi 11 <| Ext.hi 6 <| Ext.hi 0 <| (Ext.all _))
  generalize encode s (.ctestsub d a b) = w at *
  refine decode_of f25_6 (by decide) (by decide) f31 ?_ hwf
  have h1 : decodeMajor w = decodeCap w := by rw [decodeMajor, f25_6]; rfl
  have h2 : decodeCap w = pure (.ctestsub (w.extractLsb' 20 5) (w.extractLsb' 15 5) (w.extractLsb' 10 5)) := by rw [decodeCap, f0_10]; rfl
  rw [h1, h2, f20_5, f15_5, f10_5]; rfl
theorem cclrtag (d : BitVec 5) (a : BitVec 5) : Statement (.cclrtag d a) := by
  intro s hwf
  have f25_6 : (encode s (.cclrtag d a)).extractLsb' 25 6 = 0x12#6 := Ext.hi 10 <| Ext.hi 5 <| Ext.hi 0 <| Ext.lo <| (Ext.all _)
  have f0_10 : (encode s (.cclrtag d a)).extractLsb' 0 10 = 14#10 := Ext.lo <| rfl
  have f10_5 : (encode s (.cclrtag d a)).extractLsb' 10 5 = 0#5 := Ext.lo <| rfl
  have f20_5 : (encode s (.cclrtag d a)).extractLsb' 20 5 = d := Ext.hi 5 <| Ext.hi 0 <| Ext.lo <| (Ext.all _)
  have f15_5 : (encode s (.cclrtag d a)).extractLsb' 15 5 = a := Ext.hi 0 <| Ext.lo <| (Ext.all _)
  have f31 : (encode s (.cclrtag d a)).getLsbD 31 = s := Ext.marker (Ext.hi 16 <| Ext.hi 11 <| Ext.hi 6 <| Ext.hi 0 <| (Ext.all _))
  generalize encode s (.cclrtag d a) = w at *
  refine decode_of f25_6 (by decide) (by decide) f31 ?_ hwf
  have h1 : decodeMajor w = decodeCap w := by rw [decodeMajor, f25_6]; rfl
  have h2 : decodeCap w = fixedAt w 10 5 0 (pure (.cclrtag (w.extractLsb' 20 5) (w.extractLsb' 15 5))) := by rw [decodeCap, f0_10]; rfl
  rw [h1, h2, fixedAt_ok f10_5, f20_5, f15_5]; rfl
theorem cmove (d : BitVec 5) (a : BitVec 5) : Statement (.cmove d a) := by
  intro s hwf
  have f25_6 : (encode s (.cmove d a)).extractLsb' 25 6 = 0x12#6 := Ext.hi 10 <| Ext.hi 5 <| Ext.hi 0 <| Ext.lo <| (Ext.all _)
  have f0_10 : (encode s (.cmove d a)).extractLsb' 0 10 = 15#10 := Ext.lo <| rfl
  have f10_5 : (encode s (.cmove d a)).extractLsb' 10 5 = 0#5 := Ext.lo <| rfl
  have f20_5 : (encode s (.cmove d a)).extractLsb' 20 5 = d := Ext.hi 5 <| Ext.hi 0 <| Ext.lo <| (Ext.all _)
  have f15_5 : (encode s (.cmove d a)).extractLsb' 15 5 = a := Ext.hi 0 <| Ext.lo <| (Ext.all _)
  have f31 : (encode s (.cmove d a)).getLsbD 31 = s := Ext.marker (Ext.hi 16 <| Ext.hi 11 <| Ext.hi 6 <| Ext.hi 0 <| (Ext.all _))
  generalize encode s (.cmove d a) = w at *
  refine decode_of f25_6 (by decide) (by decide) f31 ?_ hwf
  have h1 : decodeMajor w = decodeCap w := by rw [decodeMajor, f25_6]; rfl
  have h2 : decodeCap w = fixedAt w 10 5 0 (pure (.cmove (w.extractLsb' 20 5) (w.extractLsb' 15 5))) := by rw [decodeCap, f0_10]; rfl
  rw [h1, h2, fixedAt_ok f10_5, f20_5, f15_5]; rfl
theorem creplen (d : BitVec 5) (a : BitVec 5) : Statement (.creplen d a) := by
  intro s hwf
  have f25_6 : (encode s (.creplen d a)).extractLsb' 25 6 = 0x12#6 := Ext.hi 10 <| Ext.hi 5 <| Ext.hi 0 <| Ext.lo <| (Ext.all _)
  have f0_10 : (encode s (.creplen d a)).extractLsb' 0 10 = 16#10 := Ext.lo <| rfl
  have f10_5 : (encode s (.creplen d a)).extractLsb' 10 5 = 0#5 := Ext.lo <| rfl
  have f20_5 : (encode s (.creplen d a)).extractLsb' 20 5 = d := Ext.hi 5 <| Ext.hi 0 <| Ext.lo <| (Ext.all _)
  have f15_5 : (encode s (.creplen d a)).extractLsb' 15 5 = a := Ext.hi 0 <| Ext.lo <| (Ext.all _)
  have f31 : (encode s (.creplen d a)).getLsbD 31 = s := Ext.marker (Ext.hi 16 <| Ext.hi 11 <| Ext.hi 6 <| Ext.hi 0 <| (Ext.all _))
  generalize encode s (.creplen d a) = w at *
  refine decode_of f25_6 (by decide) (by decide) f31 ?_ hwf
  have h1 : decodeMajor w = decodeCap w := by rw [decodeMajor, f25_6]; rfl
  have h2 : decodeCap w = fixedAt w 10 5 0 (pure (.creplen (w.extractLsb' 20 5) (w.extractLsb' 15 5))) := by rw [decodeCap, f0_10]; rfl
  rw [h1, h2, fixedAt_ok f10_5, f20_5, f15_5]; rfl
theorem cinci (d : BitVec 5) (a : BitVec 5) (i : BitVec 14) : Statement (.cinci d a i) := by
  intro s hwf
  have f25_6 : (encode s (.cinci d a i)).extractLsb' 25 6 = 0x13#6 := Ext.hi 11 <| Ext.hi 10 <| Ext.hi 5 <| Ext.hi 0 <| Ext.lo <| (Ext.all _)
  have f14_1 : (encode s (.cinci d a i)).extractLsb' 14 1 = 0#1 := Ext.hi 0 <| Ext.lo <| (Ext.all _)
  have f20_5 : (encode s (.cinci d a i)).extractLsb' 20 5 = d := Ext.hi 6 <| Ext.hi 5 <| Ext.hi 0 <| Ext.lo <| (Ext.all _)
  have f15_5 : (encode s (.cinci d a i)).extractLsb' 15 5 = a := Ext.hi 1 <| Ext.hi 0 <| Ext.lo <| (Ext.all _)
  have f0_14 : (encode s (.cinci d a i)).extractLsb' 0 14 = i := Ext.lo <| (Ext.all _)
  have f31 : (encode s (.cinci d a i)).getLsbD 31 = s := Ext.marker (Ext.hi 17 <| Ext.hi 16 <| Ext.hi 11 <| Ext.hi 6 <| Ext.hi 0 <| (Ext.all _))
  generalize encode s (.cinci d a i) = w at *
  refine decode_of f25_6 (by decide) (by decide) f31 ?_ hwf
  have h1 : decodeMajor w = decodeCapi w := by rw [decodeMajor, f25_6]; rfl
  have h2 : decodeCapi w = pure (.cinci (w.extractLsb' 20 5) (w.extractLsb' 15 5) (w.extractLsb' 0 14)) := by rw [decodeCapi, f14_1]; rfl
  rw [h1, h2, f20_5, f15_5, f0_14]; rfl
theorem csetbi (d : BitVec 5) (a : BitVec 5) (i : BitVec 14) : Statement (.csetbi d a i) := by
  intro s hwf
  have f25_6 : (encode s (.csetbi d a i)).extractLsb' 25 6 = 0x13#6 := Ext.hi 11 <| Ext.hi 10 <| Ext.hi 5 <| Ext.hi 0 <| Ext.lo <| (Ext.all _)
  have f14_1 : (encode s (.csetbi d a i)).extractLsb' 14 1 = 1#1 := Ext.hi 0 <| Ext.lo <| (Ext.all _)
  have f20_5 : (encode s (.csetbi d a i)).extractLsb' 20 5 = d := Ext.hi 6 <| Ext.hi 5 <| Ext.hi 0 <| Ext.lo <| (Ext.all _)
  have f15_5 : (encode s (.csetbi d a i)).extractLsb' 15 5 = a := Ext.hi 1 <| Ext.hi 0 <| Ext.lo <| (Ext.all _)
  have f0_14 : (encode s (.csetbi d a i)).extractLsb' 0 14 = i := Ext.lo <| (Ext.all _)
  have f31 : (encode s (.csetbi d a i)).getLsbD 31 = s := Ext.marker (Ext.hi 17 <| Ext.hi 16 <| Ext.hi 11 <| Ext.hi 6 <| Ext.hi 0 <| (Ext.all _))
  generalize encode s (.csetbi d a i) = w at *
  refine decode_of f25_6 (by decide) (by decide) f31 ?_ hwf
  have h1 : decodeMajor w = decodeCapi w := by rw [decodeMajor, f25_6]; rfl
  have h2 : decodeCapi w = pure (.csetbi (w.extractLsb' 20 5) (w.extractLsb' 15 5) (w.extractLsb' 0 14)) := by rw [decodeCapi, f14_1]; rfl
  rw [h1, h2, f20_5, f15_5, f0_14]; rfl
theorem amoadd (d : BitVec 5) (a : BitVec 5) (b : BitVec 5) (z : BitVec 1) (o : BitVec 2) (c : BitVec 2) : Statement (.amoadd d a b z o c) := by
  intro s hwf
  have f25_6 : (encode s (.amoadd d a b z o c)).extractLsb' 25 6 = 0x14#6 := Ext.hi 23 <| Ext.hi 21 <| Ext.hi 20 <| Ext.hi 15 <| Ext.hi 10 <| Ext.hi 5 <| Ext.hi 0 <| Ext.lo <| (Ext.all _)
  have f6_4 : (encode s (.amoadd d a b z o c)).extractLsb' 6 4 = 0#4 := Ext.hi 4 <| Ext.hi 2 <| Ext.hi 1 <| Ext.lo <| rfl
  have f5_1 : (encode s (.amoadd d a b z o c)).extractLsb' 5 1 = 0#1 := Ext.hi 3 <| Ext.hi 1 <| Ext.hi 0 <| Ext.lo <| rfl
  have f20_5 : (encode s (.amoadd d a b z o c)).extractLsb' 20 5 = d := Ext.hi 18 <| Ext.hi 16 <| Ext.hi 15 <| Ext.hi 10 <| Ext.hi 5 <| Ext.hi 0 <| Ext.lo <| (Ext.all _)
  have f15_5 : (encode s (.amoadd d a b z o c)).extractLsb' 15 5 = a := Ext.hi 13 <| Ext.hi 11 <| Ext.hi 10 <| Ext.hi 5 <| Ext.hi 0 <| Ext.lo <| (Ext.all _)
  have f10_5 : (encode s (.amoadd d a b z o c)).extractLsb' 10 5 = b := Ext.hi 8 <| Ext.hi 6 <| Ext.hi 5 <| Ext.hi 0 <| Ext.lo <| (Ext.all _)
  have f4_1 : (encode s (.amoadd d a b z o c)).extractLsb' 4 1 = z := Ext.hi 2 <| Ext.hi 0 <| Ext.lo <| (Ext.all _)
  have f2_2 : (encode s (.amoadd d a b z o c)).extractLsb' 2 2 = o := Ext.hi 0 <| Ext.lo <| (Ext.all _)
  have f0_2 : (encode s (.amoadd d a b z o c)).extractLsb' 0 2 = c := Ext.lo <| (Ext.all _)
  have f31 : (encode s (.amoadd d a b z o c)).getLsbD 31 = s := Ext.marker (Ext.hi 29 <| Ext.hi 27 <| Ext.hi 26 <| Ext.hi 21 <| Ext.hi 16 <| Ext.hi 11 <| Ext.hi 6 <| Ext.hi 0 <| (Ext.all _))
  generalize encode s (.amoadd d a b z o c) = w at *
  refine decode_of f25_6 (by decide) (by decide) f31 ?_ hwf
  have h1 : decodeMajor w = decodeAtom w := by rw [decodeMajor, f25_6]; rfl
  have h2 : decodeAtom w = fixedAt w 5 1 0 (pure (.amoadd (w.extractLsb' 20 5) (w.extractLsb' 15 5) (w.extractLsb' 10 5) (w.extractLsb' 4 1) (w.extractLsb' 2 2) (w.extractLsb' 0 2))) := by rw [decodeAtom, f6_4]; rfl
  rw [h1, h2, fixedAt_ok f5_1, f20_5, f15_5, f10_5, f4_1, f2_2, f0_2]; rfl
theorem amoand (d : BitVec 5) (a : BitVec 5) (b : BitVec 5) (z : BitVec 1) (o : BitVec 2) (c : BitVec 2) : Statement (.amoand d a b z o c) := by
  intro s hwf
  have f25_6 : (encode s (.amoand d a b z o c)).extractLsb' 25 6 = 0x14#6 := Ext.hi 23 <| Ext.hi 21 <| Ext.hi 20 <| Ext.hi 15 <| Ext.hi 10 <| Ext.hi 5 <| Ext.hi 0 <| Ext.lo <| (Ext.all _)
  have f6_4 : (encode s (.amoand d a b z o c)).extractLsb' 6 4 = 1#4 := Ext.hi 4 <| Ext.hi 2 <| Ext.hi 1 <| Ext.lo <| rfl
  have f5_1 : (encode s (.amoand d a b z o c)).extractLsb' 5 1 = 0#1 := Ext.hi 3 <| Ext.hi 1 <| Ext.hi 0 <| Ext.lo <| rfl
  have f20_5 : (encode s (.amoand d a b z o c)).extractLsb' 20 5 = d := Ext.hi 18 <| Ext.hi 16 <| Ext.hi 15 <| Ext.hi 10 <| Ext.hi 5 <| Ext.hi 0 <| Ext.lo <| (Ext.all _)
  have f15_5 : (encode s (.amoand d a b z o c)).extractLsb' 15 5 = a := Ext.hi 13 <| Ext.hi 11 <| Ext.hi 10 <| Ext.hi 5 <| Ext.hi 0 <| Ext.lo <| (Ext.all _)
  have f10_5 : (encode s (.amoand d a b z o c)).extractLsb' 10 5 = b := Ext.hi 8 <| Ext.hi 6 <| Ext.hi 5 <| Ext.hi 0 <| Ext.lo <| (Ext.all _)
  have f4_1 : (encode s (.amoand d a b z o c)).extractLsb' 4 1 = z := Ext.hi 2 <| Ext.hi 0 <| Ext.lo <| (Ext.all _)
  have f2_2 : (encode s (.amoand d a b z o c)).extractLsb' 2 2 = o := Ext.hi 0 <| Ext.lo <| (Ext.all _)
  have f0_2 : (encode s (.amoand d a b z o c)).extractLsb' 0 2 = c := Ext.lo <| (Ext.all _)
  have f31 : (encode s (.amoand d a b z o c)).getLsbD 31 = s := Ext.marker (Ext.hi 29 <| Ext.hi 27 <| Ext.hi 26 <| Ext.hi 21 <| Ext.hi 16 <| Ext.hi 11 <| Ext.hi 6 <| Ext.hi 0 <| (Ext.all _))
  generalize encode s (.amoand d a b z o c) = w at *
  refine decode_of f25_6 (by decide) (by decide) f31 ?_ hwf
  have h1 : decodeMajor w = decodeAtom w := by rw [decodeMajor, f25_6]; rfl
  have h2 : decodeAtom w = fixedAt w 5 1 0 (pure (.amoand (w.extractLsb' 20 5) (w.extractLsb' 15 5) (w.extractLsb' 10 5) (w.extractLsb' 4 1) (w.extractLsb' 2 2) (w.extractLsb' 0 2))) := by rw [decodeAtom, f6_4]; rfl
  rw [h1, h2, fixedAt_ok f5_1, f20_5, f15_5, f10_5, f4_1, f2_2, f0_2]; rfl
theorem amoor (d : BitVec 5) (a : BitVec 5) (b : BitVec 5) (z : BitVec 1) (o : BitVec 2) (c : BitVec 2) : Statement (.amoor d a b z o c) := by
  intro s hwf
  have f25_6 : (encode s (.amoor d a b z o c)).extractLsb' 25 6 = 0x14#6 := Ext.hi 23 <| Ext.hi 21 <| Ext.hi 20 <| Ext.hi 15 <| Ext.hi 10 <| Ext.hi 5 <| Ext.hi 0 <| Ext.lo <| (Ext.all _)
  have f6_4 : (encode s (.amoor d a b z o c)).extractLsb' 6 4 = 2#4 := Ext.hi 4 <| Ext.hi 2 <| Ext.hi 1 <| Ext.lo <| rfl
  have f5_1 : (encode s (.amoor d a b z o c)).extractLsb' 5 1 = 0#1 := Ext.hi 3 <| Ext.hi 1 <| Ext.hi 0 <| Ext.lo <| rfl
  have f20_5 : (encode s (.amoor d a b z o c)).extractLsb' 20 5 = d := Ext.hi 18 <| Ext.hi 16 <| Ext.hi 15 <| Ext.hi 10 <| Ext.hi 5 <| Ext.hi 0 <| Ext.lo <| (Ext.all _)
  have f15_5 : (encode s (.amoor d a b z o c)).extractLsb' 15 5 = a := Ext.hi 13 <| Ext.hi 11 <| Ext.hi 10 <| Ext.hi 5 <| Ext.hi 0 <| Ext.lo <| (Ext.all _)
  have f10_5 : (encode s (.amoor d a b z o c)).extractLsb' 10 5 = b := Ext.hi 8 <| Ext.hi 6 <| Ext.hi 5 <| Ext.hi 0 <| Ext.lo <| (Ext.all _)
  have f4_1 : (encode s (.amoor d a b z o c)).extractLsb' 4 1 = z := Ext.hi 2 <| Ext.hi 0 <| Ext.lo <| (Ext.all _)
  have f2_2 : (encode s (.amoor d a b z o c)).extractLsb' 2 2 = o := Ext.hi 0 <| Ext.lo <| (Ext.all _)
  have f0_2 : (encode s (.amoor d a b z o c)).extractLsb' 0 2 = c := Ext.lo <| (Ext.all _)
  have f31 : (encode s (.amoor d a b z o c)).getLsbD 31 = s := Ext.marker (Ext.hi 29 <| Ext.hi 27 <| Ext.hi 26 <| Ext.hi 21 <| Ext.hi 16 <| Ext.hi 11 <| Ext.hi 6 <| Ext.hi 0 <| (Ext.all _))
  generalize encode s (.amoor d a b z o c) = w at *
  refine decode_of f25_6 (by decide) (by decide) f31 ?_ hwf
  have h1 : decodeMajor w = decodeAtom w := by rw [decodeMajor, f25_6]; rfl
  have h2 : decodeAtom w = fixedAt w 5 1 0 (pure (.amoor (w.extractLsb' 20 5) (w.extractLsb' 15 5) (w.extractLsb' 10 5) (w.extractLsb' 4 1) (w.extractLsb' 2 2) (w.extractLsb' 0 2))) := by rw [decodeAtom, f6_4]; rfl
  rw [h1, h2, fixedAt_ok f5_1, f20_5, f15_5, f10_5, f4_1, f2_2, f0_2]; rfl
theorem amoxor (d : BitVec 5) (a : BitVec 5) (b : BitVec 5) (z : BitVec 1) (o : BitVec 2) (c : BitVec 2) : Statement (.amoxor d a b z o c) := by
  intro s hwf
  have f25_6 : (encode s (.amoxor d a b z o c)).extractLsb' 25 6 = 0x14#6 := Ext.hi 23 <| Ext.hi 21 <| Ext.hi 20 <| Ext.hi 15 <| Ext.hi 10 <| Ext.hi 5 <| Ext.hi 0 <| Ext.lo <| (Ext.all _)
  have f6_4 : (encode s (.amoxor d a b z o c)).extractLsb' 6 4 = 3#4 := Ext.hi 4 <| Ext.hi 2 <| Ext.hi 1 <| Ext.lo <| rfl
  have f5_1 : (encode s (.amoxor d a b z o c)).extractLsb' 5 1 = 0#1 := Ext.hi 3 <| Ext.hi 1 <| Ext.hi 0 <| Ext.lo <| rfl
  have f20_5 : (encode s (.amoxor d a b z o c)).extractLsb' 20 5 = d := Ext.hi 18 <| Ext.hi 16 <| Ext.hi 15 <| Ext.hi 10 <| Ext.hi 5 <| Ext.hi 0 <| Ext.lo <| (Ext.all _)
  have f15_5 : (encode s (.amoxor d a b z o c)).extractLsb' 15 5 = a := Ext.hi 13 <| Ext.hi 11 <| Ext.hi 10 <| Ext.hi 5 <| Ext.hi 0 <| Ext.lo <| (Ext.all _)
  have f10_5 : (encode s (.amoxor d a b z o c)).extractLsb' 10 5 = b := Ext.hi 8 <| Ext.hi 6 <| Ext.hi 5 <| Ext.hi 0 <| Ext.lo <| (Ext.all _)
  have f4_1 : (encode s (.amoxor d a b z o c)).extractLsb' 4 1 = z := Ext.hi 2 <| Ext.hi 0 <| Ext.lo <| (Ext.all _)
  have f2_2 : (encode s (.amoxor d a b z o c)).extractLsb' 2 2 = o := Ext.hi 0 <| Ext.lo <| (Ext.all _)
  have f0_2 : (encode s (.amoxor d a b z o c)).extractLsb' 0 2 = c := Ext.lo <| (Ext.all _)
  have f31 : (encode s (.amoxor d a b z o c)).getLsbD 31 = s := Ext.marker (Ext.hi 29 <| Ext.hi 27 <| Ext.hi 26 <| Ext.hi 21 <| Ext.hi 16 <| Ext.hi 11 <| Ext.hi 6 <| Ext.hi 0 <| (Ext.all _))
  generalize encode s (.amoxor d a b z o c) = w at *
  refine decode_of f25_6 (by decide) (by decide) f31 ?_ hwf
  have h1 : decodeMajor w = decodeAtom w := by rw [decodeMajor, f25_6]; rfl
  have h2 : decodeAtom w = fixedAt w 5 1 0 (pure (.amoxor (w.extractLsb' 20 5) (w.extractLsb' 15 5) (w.extractLsb' 10 5) (w.extractLsb' 4 1) (w.extractLsb' 2 2) (w.extractLsb' 0 2))) := by rw [decodeAtom, f6_4]; rfl
  rw [h1, h2, fixedAt_ok f5_1, f20_5, f15_5, f10_5, f4_1, f2_2, f0_2]; rfl
theorem amomin (d : BitVec 5) (a : BitVec 5) (b : BitVec 5) (z : BitVec 1) (o : BitVec 2) (c : BitVec 2) : Statement (.amomin d a b z o c) := by
  intro s hwf
  have f25_6 : (encode s (.amomin d a b z o c)).extractLsb' 25 6 = 0x14#6 := Ext.hi 23 <| Ext.hi 21 <| Ext.hi 20 <| Ext.hi 15 <| Ext.hi 10 <| Ext.hi 5 <| Ext.hi 0 <| Ext.lo <| (Ext.all _)
  have f6_4 : (encode s (.amomin d a b z o c)).extractLsb' 6 4 = 4#4 := Ext.hi 4 <| Ext.hi 2 <| Ext.hi 1 <| Ext.lo <| rfl
  have f5_1 : (encode s (.amomin d a b z o c)).extractLsb' 5 1 = 0#1 := Ext.hi 3 <| Ext.hi 1 <| Ext.hi 0 <| Ext.lo <| rfl
  have f20_5 : (encode s (.amomin d a b z o c)).extractLsb' 20 5 = d := Ext.hi 18 <| Ext.hi 16 <| Ext.hi 15 <| Ext.hi 10 <| Ext.hi 5 <| Ext.hi 0 <| Ext.lo <| (Ext.all _)
  have f15_5 : (encode s (.amomin d a b z o c)).extractLsb' 15 5 = a := Ext.hi 13 <| Ext.hi 11 <| Ext.hi 10 <| Ext.hi 5 <| Ext.hi 0 <| Ext.lo <| (Ext.all _)
  have f10_5 : (encode s (.amomin d a b z o c)).extractLsb' 10 5 = b := Ext.hi 8 <| Ext.hi 6 <| Ext.hi 5 <| Ext.hi 0 <| Ext.lo <| (Ext.all _)
  have f4_1 : (encode s (.amomin d a b z o c)).extractLsb' 4 1 = z := Ext.hi 2 <| Ext.hi 0 <| Ext.lo <| (Ext.all _)
  have f2_2 : (encode s (.amomin d a b z o c)).extractLsb' 2 2 = o := Ext.hi 0 <| Ext.lo <| (Ext.all _)
  have f0_2 : (encode s (.amomin d a b z o c)).extractLsb' 0 2 = c := Ext.lo <| (Ext.all _)
  have f31 : (encode s (.amomin d a b z o c)).getLsbD 31 = s := Ext.marker (Ext.hi 29 <| Ext.hi 27 <| Ext.hi 26 <| Ext.hi 21 <| Ext.hi 16 <| Ext.hi 11 <| Ext.hi 6 <| Ext.hi 0 <| (Ext.all _))
  generalize encode s (.amomin d a b z o c) = w at *
  refine decode_of f25_6 (by decide) (by decide) f31 ?_ hwf
  have h1 : decodeMajor w = decodeAtom w := by rw [decodeMajor, f25_6]; rfl
  have h2 : decodeAtom w = fixedAt w 5 1 0 (pure (.amomin (w.extractLsb' 20 5) (w.extractLsb' 15 5) (w.extractLsb' 10 5) (w.extractLsb' 4 1) (w.extractLsb' 2 2) (w.extractLsb' 0 2))) := by rw [decodeAtom, f6_4]; rfl
  rw [h1, h2, fixedAt_ok f5_1, f20_5, f15_5, f10_5, f4_1, f2_2, f0_2]; rfl
theorem amomax (d : BitVec 5) (a : BitVec 5) (b : BitVec 5) (z : BitVec 1) (o : BitVec 2) (c : BitVec 2) : Statement (.amomax d a b z o c) := by
  intro s hwf
  have f25_6 : (encode s (.amomax d a b z o c)).extractLsb' 25 6 = 0x14#6 := Ext.hi 23 <| Ext.hi 21 <| Ext.hi 20 <| Ext.hi 15 <| Ext.hi 10 <| Ext.hi 5 <| Ext.hi 0 <| Ext.lo <| (Ext.all _)
  have f6_4 : (encode s (.amomax d a b z o c)).extractLsb' 6 4 = 5#4 := Ext.hi 4 <| Ext.hi 2 <| Ext.hi 1 <| Ext.lo <| rfl
  have f5_1 : (encode s (.amomax d a b z o c)).extractLsb' 5 1 = 0#1 := Ext.hi 3 <| Ext.hi 1 <| Ext.hi 0 <| Ext.lo <| rfl
  have f20_5 : (encode s (.amomax d a b z o c)).extractLsb' 20 5 = d := Ext.hi 18 <| Ext.hi 16 <| Ext.hi 15 <| Ext.hi 10 <| Ext.hi 5 <| Ext.hi 0 <| Ext.lo <| (Ext.all _)
  have f15_5 : (encode s (.amomax d a b z o c)).extractLsb' 15 5 = a := Ext.hi 13 <| Ext.hi 11 <| Ext.hi 10 <| Ext.hi 5 <| Ext.hi 0 <| Ext.lo <| (Ext.all _)
  have f10_5 : (encode s (.amomax d a b z o c)).extractLsb' 10 5 = b := Ext.hi 8 <| Ext.hi 6 <| Ext.hi 5 <| Ext.hi 0 <| Ext.lo <| (Ext.all _)
  have f4_1 : (encode s (.amomax d a b z o c)).extractLsb' 4 1 = z := Ext.hi 2 <| Ext.hi 0 <| Ext.lo <| (Ext.all _)
  have f2_2 : (encode s (.amomax d a b z o c)).extractLsb' 2 2 = o := Ext.hi 0 <| Ext.lo <| (Ext.all _)
  have f0_2 : (encode s (.amomax d a b z o c)).extractLsb' 0 2 = c := Ext.lo <| (Ext.all _)
  have f31 : (encode s (.amomax d a b z o c)).getLsbD 31 = s := Ext.marker (Ext.hi 29 <| Ext.hi 27 <| Ext.hi 26 <| Ext.hi 21 <| Ext.hi 16 <| Ext.hi 11 <| Ext.hi 6 <| Ext.hi 0 <| (Ext.all _))
  generalize encode s (.amomax d a b z o c) = w at *
  refine decode_of f25_6 (by decide) (by decide) f31 ?_ hwf
  have h1 : decodeMajor w = decodeAtom w := by rw [decodeMajor, f25_6]; rfl
  have h2 : decodeAtom w = fixedAt w 5 1 0 (pure (.amomax (w.extractLsb' 20 5) (w.extractLsb' 15 5) (w.extractLsb' 10 5) (w.extractLsb' 4 1) (w.extractLsb' 2 2) (w.extractLsb' 0 2))) := by rw [decodeAtom, f6_4]; rfl
  rw [h1, h2, fixedAt_ok f5_1, f20_5, f15_5, f10_5, f4_1, f2_2, f0_2]; rfl
theorem amominu (d : BitVec 5) (a : BitVec 5) (b : BitVec 5) (z : BitVec 1) (o : BitVec 2) (c : BitVec 2) : Statement (.amominu d a b z o c) := by
  intro s hwf
  have f25_6 : (encode s (.amominu d a b z o c)).extractLsb' 25 6 = 0x14#6 := Ext.hi 23 <| Ext.hi 21 <| Ext.hi 20 <| Ext.hi 15 <| Ext.hi 10 <| Ext.hi 5 <| Ext.hi 0 <| Ext.lo <| (Ext.all _)
  have f6_4 : (encode s (.amominu d a b z o c)).extractLsb' 6 4 = 6#4 := Ext.hi 4 <| Ext.hi 2 <| Ext.hi 1 <| Ext.lo <| rfl
  have f5_1 : (encode s (.amominu d a b z o c)).extractLsb' 5 1 = 0#1 := Ext.hi 3 <| Ext.hi 1 <| Ext.hi 0 <| Ext.lo <| rfl
  have f20_5 : (encode s (.amominu d a b z o c)).extractLsb' 20 5 = d := Ext.hi 18 <| Ext.hi 16 <| Ext.hi 15 <| Ext.hi 10 <| Ext.hi 5 <| Ext.hi 0 <| Ext.lo <| (Ext.all _)
  have f15_5 : (encode s (.amominu d a b z o c)).extractLsb' 15 5 = a := Ext.hi 13 <| Ext.hi 11 <| Ext.hi 10 <| Ext.hi 5 <| Ext.hi 0 <| Ext.lo <| (Ext.all _)
  have f10_5 : (encode s (.amominu d a b z o c)).extractLsb' 10 5 = b := Ext.hi 8 <| Ext.hi 6 <| Ext.hi 5 <| Ext.hi 0 <| Ext.lo <| (Ext.all _)
  have f4_1 : (encode s (.amominu d a b z o c)).extractLsb' 4 1 = z := Ext.hi 2 <| Ext.hi 0 <| Ext.lo <| (Ext.all _)
  have f2_2 : (encode s (.amominu d a b z o c)).extractLsb' 2 2 = o := Ext.hi 0 <| Ext.lo <| (Ext.all _)
  have f0_2 : (encode s (.amominu d a b z o c)).extractLsb' 0 2 = c := Ext.lo <| (Ext.all _)
  have f31 : (encode s (.amominu d a b z o c)).getLsbD 31 = s := Ext.marker (Ext.hi 29 <| Ext.hi 27 <| Ext.hi 26 <| Ext.hi 21 <| Ext.hi 16 <| Ext.hi 11 <| Ext.hi 6 <| Ext.hi 0 <| (Ext.all _))
  generalize encode s (.amominu d a b z o c) = w at *
  refine decode_of f25_6 (by decide) (by decide) f31 ?_ hwf
  have h1 : decodeMajor w = decodeAtom w := by rw [decodeMajor, f25_6]; rfl
  have h2 : decodeAtom w = fixedAt w 5 1 0 (pure (.amominu (w.extractLsb' 20 5) (w.extractLsb' 15 5) (w.extractLsb' 10 5) (w.extractLsb' 4 1) (w.extractLsb' 2 2) (w.extractLsb' 0 2))) := by rw [decodeAtom, f6_4]; rfl
  rw [h1, h2, fixedAt_ok f5_1, f20_5, f15_5, f10_5, f4_1, f2_2, f0_2]; rfl
theorem amomaxu (d : BitVec 5) (a : BitVec 5) (b : BitVec 5) (z : BitVec 1) (o : BitVec 2) (c : BitVec 2) : Statement (.amomaxu d a b z o c) := by
  intro s hwf
  have f25_6 : (encode s (.amomaxu d a b z o c)).extractLsb' 25 6 = 0x14#6 := Ext.hi 23 <| Ext.hi 21 <| Ext.hi 20 <| Ext.hi 15 <| Ext.hi 10 <| Ext.hi 5 <| Ext.hi 0 <| Ext.lo <| (Ext.all _)
  have f6_4 : (encode s (.amomaxu d a b z o c)).extractLsb' 6 4 = 7#4 := Ext.hi 4 <| Ext.hi 2 <| Ext.hi 1 <| Ext.lo <| rfl
  have f5_1 : (encode s (.amomaxu d a b z o c)).extractLsb' 5 1 = 0#1 := Ext.hi 3 <| Ext.hi 1 <| Ext.hi 0 <| Ext.lo <| rfl
  have f20_5 : (encode s (.amomaxu d a b z o c)).extractLsb' 20 5 = d := Ext.hi 18 <| Ext.hi 16 <| Ext.hi 15 <| Ext.hi 10 <| Ext.hi 5 <| Ext.hi 0 <| Ext.lo <| (Ext.all _)
  have f15_5 : (encode s (.amomaxu d a b z o c)).extractLsb' 15 5 = a := Ext.hi 13 <| Ext.hi 11 <| Ext.hi 10 <| Ext.hi 5 <| Ext.hi 0 <| Ext.lo <| (Ext.all _)
  have f10_5 : (encode s (.amomaxu d a b z o c)).extractLsb' 10 5 = b := Ext.hi 8 <| Ext.hi 6 <| Ext.hi 5 <| Ext.hi 0 <| Ext.lo <| (Ext.all _)
  have f4_1 : (encode s (.amomaxu d a b z o c)).extractLsb' 4 1 = z := Ext.hi 2 <| Ext.hi 0 <| Ext.lo <| (Ext.all _)
  have f2_2 : (encode s (.amomaxu d a b z o c)).extractLsb' 2 2 = o := Ext.hi 0 <| Ext.lo <| (Ext.all _)
  have f0_2 : (encode s (.amomaxu d a b z o c)).extractLsb' 0 2 = c := Ext.lo <| (Ext.all _)
  have f31 : (encode s (.amomaxu d a b z o c)).getLsbD 31 = s := Ext.marker (Ext.hi 29 <| Ext.hi 27 <| Ext.hi 26 <| Ext.hi 21 <| Ext.hi 16 <| Ext.hi 11 <| Ext.hi 6 <| Ext.hi 0 <| (Ext.all _))
  generalize encode s (.amomaxu d a b z o c) = w at *
  refine decode_of f25_6 (by decide) (by decide) f31 ?_ hwf
  have h1 : decodeMajor w = decodeAtom w := by rw [decodeMajor, f25_6]; rfl
  have h2 : decodeAtom w = fixedAt w 5 1 0 (pure (.amomaxu (w.extractLsb' 20 5) (w.extractLsb' 15 5) (w.extractLsb' 10 5) (w.extractLsb' 4 1) (w.extractLsb' 2 2) (w.extractLsb' 0 2))) := by rw [decodeAtom, f6_4]; rfl
  rw [h1, h2, fixedAt_ok f5_1, f20_5, f15_5, f10_5, f4_1, f2_2, f0_2]; rfl
theorem amoswap (d : BitVec 5) (a : BitVec 5) (b : BitVec 5) (z : BitVec 2) (o : BitVec 2) (c : BitVec 2) : Statement (.amoswap d a b z o c) := by
  intro s hwf
  have f25_6 : (encode s (.amoswap d a b z o c)).extractLsb' 25 6 = 0x14#6 := Ext.hi 23 <| Ext.hi 21 <| Ext.hi 19 <| Ext.hi 15 <| Ext.hi 10 <| Ext.hi 5 <| Ext.hi 0 <| Ext.lo <| (Ext.all _)
  have f6_4 : (encode s (.amoswap d a b z o c)).extractLsb' 6 4 = 8#4 := Ext.hi 4 <| Ext.hi 2 <| Ext.hi 0 <| Ext.lo <| (Ext.all _)
  have f20_5 : (encode s (.amoswap d a b z o c)).extractLsb' 20 5 = d := Ext.hi 18 <| Ext.hi 16 <| Ext.hi 14 <| Ext.hi 10 <| Ext.hi 5 <| Ext.hi 0 <| Ext.lo <| (Ext.all _)
  have f15_5 : (encode s (.amoswap d a b z o c)).extractLsb' 15 5 = a := Ext.hi 13 <| Ext.hi 11 <| Ext.hi 9 <| Ext.hi 5 <| Ext.hi 0 <| Ext.lo <| (Ext.all _)
  have f10_5 : (encode s (.amoswap d a b z o c)).extractLsb' 10 5 = b := Ext.hi 8 <| Ext.hi 6 <| Ext.hi 4 <| Ext.hi 0 <| Ext.lo <| (Ext.all _)
  have f4_2 : (encode s (.amoswap d a b z o c)).extractLsb' 4 2 = z := Ext.hi 2 <| Ext.hi 0 <| Ext.lo <| (Ext.all _)
  have f2_2 : (encode s (.amoswap d a b z o c)).extractLsb' 2 2 = o := Ext.hi 0 <| Ext.lo <| (Ext.all _)
  have f0_2 : (encode s (.amoswap d a b z o c)).extractLsb' 0 2 = c := Ext.lo <| (Ext.all _)
  have f31 : (encode s (.amoswap d a b z o c)).getLsbD 31 = s := Ext.marker (Ext.hi 29 <| Ext.hi 27 <| Ext.hi 25 <| Ext.hi 21 <| Ext.hi 16 <| Ext.hi 11 <| Ext.hi 6 <| Ext.hi 0 <| (Ext.all _))
  generalize encode s (.amoswap d a b z o c) = w at *
  refine decode_of f25_6 (by decide) (by decide) f31 ?_ hwf
  have h1 : decodeMajor w = decodeAtom w := by rw [decodeMajor, f25_6]; rfl
  have h2 : decodeAtom w = pure (.amoswap (w.extractLsb' 20 5) (w.extractLsb' 15 5) (w.extractLsb' 10 5) (w.extractLsb' 4 2) (w.extractLsb' 2 2) (w.extractLsb' 0 2)) := by rw [decodeAtom, f6_4]; rfl
  rw [h1, h2, f20_5, f15_5, f10_5, f4_2, f2_2, f0_2]; rfl
theorem cas (d : BitVec 5) (a : BitVec 5) (b : BitVec 5) (z : BitVec 2) (o : BitVec 2) (c : BitVec 2) : Statement (.cas d a b z o c) := by
  intro s hwf
  have f25_6 : (encode s (.cas d a b z o c)).extractLsb' 25 6 = 0x14#6 := Ext.hi 23 <| Ext.hi 21 <| Ext.hi 19 <| Ext.hi 15 <| Ext.hi 10 <| Ext.hi 5 <| Ext.hi 0 <| Ext.lo <| (Ext.all _)
  have f6_4 : (encode s (.cas d a b z o c)).extractLsb' 6 4 = 9#4 := Ext.hi 4 <| Ext.hi 2 <| Ext.hi 0 <| Ext.lo <| (Ext.all _)
  have f20_5 : (encode s (.cas d a b z o c)).extractLsb' 20 5 = d := Ext.hi 18 <| Ext.hi 16 <| Ext.hi 14 <| Ext.hi 10 <| Ext.hi 5 <| Ext.hi 0 <| Ext.lo <| (Ext.all _)
  have f15_5 : (encode s (.cas d a b z o c)).extractLsb' 15 5 = a := Ext.hi 13 <| Ext.hi 11 <| Ext.hi 9 <| Ext.hi 5 <| Ext.hi 0 <| Ext.lo <| (Ext.all _)
  have f10_5 : (encode s (.cas d a b z o c)).extractLsb' 10 5 = b := Ext.hi 8 <| Ext.hi 6 <| Ext.hi 4 <| Ext.hi 0 <| Ext.lo <| (Ext.all _)
  have f4_2 : (encode s (.cas d a b z o c)).extractLsb' 4 2 = z := Ext.hi 2 <| Ext.hi 0 <| Ext.lo <| (Ext.all _)
  have f2_2 : (encode s (.cas d a b z o c)).extractLsb' 2 2 = o := Ext.hi 0 <| Ext.lo <| (Ext.all _)
  have f0_2 : (encode s (.cas d a b z o c)).extractLsb' 0 2 = c := Ext.lo <| (Ext.all _)
  have f31 : (encode s (.cas d a b z o c)).getLsbD 31 = s := Ext.marker (Ext.hi 29 <| Ext.hi 27 <| Ext.hi 25 <| Ext.hi 21 <| Ext.hi 16 <| Ext.hi 11 <| Ext.hi 6 <| Ext.hi 0 <| (Ext.all _))
  generalize encode s (.cas d a b z o c) = w at *
  refine decode_of f25_6 (by decide) (by decide) f31 ?_ hwf
  have h1 : decodeMajor w = decodeAtom w := by rw [decodeMajor, f25_6]; rfl
  have h2 : decodeAtom w = pure (.cas (w.extractLsb' 20 5) (w.extractLsb' 15 5) (w.extractLsb' 10 5) (w.extractLsb' 4 2) (w.extractLsb' 2 2) (w.extractLsb' 0 2)) := by rw [decodeAtom, f6_4]; rfl
  rw [h1, h2, f20_5, f15_5, f10_5, f4_2, f2_2, f0_2]; rfl
theorem amofadd (d : BitVec 5) (a : BitVec 5) (b : BitVec 5) (o : BitVec 2) (c : BitVec 2) : Statement (.amofadd d a b o c) := by
  intro s hwf
  have f25_6 : (encode s (.amofadd d a b o c)).extractLsb' 25 6 = 0x14#6 := Ext.hi 23 <| Ext.hi 21 <| Ext.hi 15 <| Ext.hi 10 <| Ext.hi 5 <| Ext.hi 0 <| Ext.lo <| (Ext.all _)
  have f6_4 : (encode s (.amofadd d a b o c)).extractLsb' 6 4 = 10#4 := Ext.hi 4 <| Ext.hi 2 <| Ext.lo <| rfl
  have f4_2 : (encode s (.amofadd d a b o c)).extractLsb' 4 2 = 0#2 := Ext.hi 2 <| Ext.hi 0 <| Ext.lo <| rfl
  have f20_5 : (encode s (.amofadd d a b o c)).extractLsb' 20 5 = d := Ext.hi 18 <| Ext.hi 16 <| Ext.hi 10 <| Ext.hi 5 <| Ext.hi 0 <| Ext.lo <| (Ext.all _)
  have f15_5 : (encode s (.amofadd d a b o c)).extractLsb' 15 5 = a := Ext.hi 13 <| Ext.hi 11 <| Ext.hi 5 <| Ext.hi 0 <| Ext.lo <| (Ext.all _)
  have f10_5 : (encode s (.amofadd d a b o c)).extractLsb' 10 5 = b := Ext.hi 8 <| Ext.hi 6 <| Ext.hi 0 <| Ext.lo <| (Ext.all _)
  have f2_2 : (encode s (.amofadd d a b o c)).extractLsb' 2 2 = o := Ext.hi 0 <| Ext.lo <| (Ext.all _)
  have f0_2 : (encode s (.amofadd d a b o c)).extractLsb' 0 2 = c := Ext.lo <| (Ext.all _)
  have f31 : (encode s (.amofadd d a b o c)).getLsbD 31 = s := Ext.marker (Ext.hi 29 <| Ext.hi 27 <| Ext.hi 21 <| Ext.hi 16 <| Ext.hi 11 <| Ext.hi 6 <| Ext.hi 0 <| (Ext.all _))
  generalize encode s (.amofadd d a b o c) = w at *
  refine decode_of f25_6 (by decide) (by decide) f31 ?_ hwf
  have h1 : decodeMajor w = decodeAtom w := by rw [decodeMajor, f25_6]; rfl
  have h2 : decodeAtom w = fixedAt w 4 2 0 (pure (.amofadd (w.extractLsb' 20 5) (w.extractLsb' 15 5) (w.extractLsb' 10 5) (w.extractLsb' 2 2) (w.extractLsb' 0 2))) := by rw [decodeAtom, f6_4]; rfl
  rw [h1, h2, fixedAt_ok f4_2, f20_5, f15_5, f10_5, f2_2, f0_2]; rfl
theorem lda (d : BitVec 5) (a : BitVec 5) (z : BitVec 2) (o : BitVec 1) (c : BitVec 2) : Statement (.lda d a z o c) := by
  intro s hwf
  have f25_6 : (encode s (.lda d a z o c)).extractLsb' 25 6 = 0x14#6 := Ext.hi 23 <| Ext.hi 22 <| Ext.hi 21 <| Ext.hi 19 <| Ext.hi 10 <| Ext.hi 5 <| Ext.hi 0 <| Ext.lo <| (Ext.all _)
  have f6_4 : (encode s (.lda d a z o c)).extractLsb' 6 4 = 11#4 := Ext.hi 4 <| Ext.hi 3 <| Ext.hi 2 <| Ext.hi 0 <| Ext.lo <| rfl
  have f10_5 : (encode s (.lda d a z o c)).extractLsb' 10 5 = 0#5 := Ext.hi 8 <| Ext.hi 7 <| Ext.hi 6 <| Ext.hi 4 <| Ext.lo <| rfl
  have f3_1 : (encode s (.lda d a z o c)).extractLsb' 3 1 = 0#1 := Ext.hi 1 <| Ext.hi 0 <| Ext.lo <| (Ext.all _)
  have f20_5 : (encode s (.lda d a z o c)).extractLsb' 20 5 = d := Ext.hi 18 <| Ext.hi 17 <| Ext.hi 16 <| Ext.hi 14 <| Ext.hi 5 <| Ext.hi 0 <| Ext.lo <| (Ext.all _)
  have f15_5 : (encode s (.lda d a z o c)).extractLsb' 15 5 = a := Ext.hi 13 <| Ext.hi 12 <| Ext.hi 11 <| Ext.hi 9 <| Ext.hi 0 <| Ext.lo <| (Ext.all _)
  have f4_2 : (encode s (.lda d a z o c)).extractLsb' 4 2 = z := Ext.hi 2 <| Ext.hi 1 <| Ext.hi 0 <| Ext.lo <| (Ext.all _)
  have f2_1 : (encode s (.lda d a z o c)).extractLsb' 2 1 = o := Ext.hi 0 <| Ext.lo <| (Ext.all _)
  have f0_2 : (encode s (.lda d a z o c)).extractLsb' 0 2 = c := Ext.lo <| (Ext.all _)
  have f31 : (encode s (.lda d a z o c)).getLsbD 31 = s := Ext.marker (Ext.hi 29 <| Ext.hi 28 <| Ext.hi 27 <| Ext.hi 25 <| Ext.hi 16 <| Ext.hi 11 <| Ext.hi 6 <| Ext.hi 0 <| (Ext.all _))
  generalize encode s (.lda d a z o c) = w at *
  refine decode_of f25_6 (by decide) (by decide) f31 ?_ hwf
  have h1 : decodeMajor w = decodeAtom w := by rw [decodeMajor, f25_6]; rfl
  have h2 : decodeAtom w = fixedAt w 10 5 0 (fixedAt w 3 1 0 (pure (.lda (w.extractLsb' 20 5) (w.extractLsb' 15 5) (w.extractLsb' 4 2) (w.extractLsb' 2 1) (w.extractLsb' 0 2)))) := by rw [decodeAtom, f6_4]; rfl
  rw [h1, h2, fixedAt_ok f10_5, fixedAt_ok f3_1, f20_5, f15_5, f4_2, f2_1, f0_2]; rfl
theorem stl (d : BitVec 5) (a : BitVec 5) (z : BitVec 2) (o : BitVec 1) (c : BitVec 2) : Statement (.stl d a z o c) := by
  intro s hwf
  have f25_6 : (encode s (.stl d a z o c)).extractLsb' 25 6 = 0x14#6 := Ext.hi 23 <| Ext.hi 22 <| Ext.hi 21 <| Ext.hi 19 <| Ext.hi 10 <| Ext.hi 5 <| Ext.hi 0 <| Ext.lo <| (Ext.all _)
  have f6_4 : (encode s (.stl d a z o c)).extractLsb' 6 4 = 12#4 := Ext.hi 4 <| Ext.hi 3 <| Ext.hi 2 <| Ext.hi 0 <| Ext.lo <| rfl
  have f10_5 : (encode s (.stl d a z o c)).extractLsb' 10 5 = 0#5 := Ext.hi 8 <| Ext.hi 7 <| Ext.hi 6 <| Ext.hi 4 <| Ext.lo <| rfl
  have f2_1 : (encode s (.stl d a z o c)).extractLsb' 2 1 = 0#1 := Ext.hi 0 <| Ext.lo <| (Ext.all _)
  have f20_5 : (encode s (.stl d a z o c)).extractLsb' 20 5 = d := Ext.hi 18 <| Ext.hi 17 <| Ext.hi 16 <| Ext.hi 14 <| Ext.hi 5 <| Ext.hi 0 <| Ext.lo <| (Ext.all _)
  have f15_5 : (encode s (.stl d a z o c)).extractLsb' 15 5 = a := Ext.hi 13 <| Ext.hi 12 <| Ext.hi 11 <| Ext.hi 9 <| Ext.hi 0 <| Ext.lo <| (Ext.all _)
  have f4_2 : (encode s (.stl d a z o c)).extractLsb' 4 2 = z := Ext.hi 2 <| Ext.hi 1 <| Ext.hi 0 <| Ext.lo <| (Ext.all _)
  have f3_1 : (encode s (.stl d a z o c)).extractLsb' 3 1 = o := Ext.hi 1 <| Ext.hi 0 <| Ext.lo <| (Ext.all _)
  have f0_2 : (encode s (.stl d a z o c)).extractLsb' 0 2 = c := Ext.lo <| (Ext.all _)
  have f31 : (encode s (.stl d a z o c)).getLsbD 31 = s := Ext.marker (Ext.hi 29 <| Ext.hi 28 <| Ext.hi 27 <| Ext.hi 25 <| Ext.hi 16 <| Ext.hi 11 <| Ext.hi 6 <| Ext.hi 0 <| (Ext.all _))
  generalize encode s (.stl d a z o c) = w at *
  refine decode_of f25_6 (by decide) (by decide) f31 ?_ hwf
  have h1 : decodeMajor w = decodeAtom w := by rw [decodeMajor, f25_6]; rfl
  have h2 : decodeAtom w = fixedAt w 10 5 0 (fixedAt w 2 1 0 (pure (.stl (w.extractLsb' 20 5) (w.extractLsb' 15 5) (w.extractLsb' 4 2) (w.extractLsb' 3 1) (w.extractLsb' 0 2)))) := by rw [decodeAtom, f6_4]; rfl
  rw [h1, h2, fixedAt_ok f10_5, fixedAt_ok f2_1, f20_5, f15_5, f4_2, f3_1, f0_2]; rfl
theorem fence (f : BitVec 4) (c : BitVec 2) : Statement (.fence f c) := by
  intro s hwf
  have f25_6 : (encode s (.fence f c)).extractLsb' 25 6 = 0x16#6 := Ext.hi 21 <| Ext.hi 19 <| Ext.hi 15 <| Ext.hi 0 <| Ext.lo <| (Ext.all _)
  have f0_4 : (encode s (.fence f c)).extractLsb' 0 4 = 0#4 := Ext.lo <| (Ext.all _)
  have f10_15 : (encode s (.fence f c)).extractLsb' 10 15 = 0#15 := Ext.hi 6 <| Ext.hi 4 <| Ext.hi 0 <| Ext.lo <| (Ext.all _)
  have f6_4 : (encode s (.fence f c)).extractLsb' 6 4 = f := Ext.hi 2 <| Ext.hi 0 <| Ext.lo <| (Ext.all _)
  have f4_2 : (encode s (.fence f c)).extractLsb' 4 2 = c := Ext.hi 0 <| Ext.lo <| (Ext.all _)
  have f31 : (encode s (.fence f c)).getLsbD 31 = s := Ext.marker (Ext.hi 27 <| Ext.hi 25 <| Ext.hi 21 <| Ext.hi 6 <| Ext.hi 0 <| (Ext.all _))
  generalize encode s (.fence f c) = w at *
  refine decode_of f25_6 (by decide) (by decide) f31 ?_ hwf
  have h1 : decodeMajor w = decodeSync w := by rw [decodeMajor, f25_6]; rfl
  have h2 : decodeSync w = fixedAt w 10 15 0 (pure (.fence (w.extractLsb' 6 4) (w.extractLsb' 4 2))) := by rw [decodeSync, f0_4]; rfl
  rw [h1, h2, fixedAt_ok f10_15, f6_4, f4_2]; rfl
theorem barb (k : BitVec 2) : Statement (.barb k) := by
  intro s hwf
  have f25_6 : (encode s (.barb k)).extractLsb' 25 6 = 0x16#6 := Ext.hi 17 <| Ext.hi 15 <| Ext.hi 0 <| Ext.lo <| (Ext.all _)
  have f0_4 : (encode s (.barb k)).extractLsb' 0 4 = 1#4 := Ext.lo <| rfl
  have f10_15 : (encode s (.barb k)).extractLsb' 10 15 = 0#15 := Ext.hi 2 <| Ext.hi 0 <| Ext.lo <| (Ext.all _)
  have f4_4 : (encode s (.barb k)).extractLsb' 4 4 = 0#4 := Ext.lo <| rfl
  have f8_2 : (encode s (.barb k)).extractLsb' 8 2 = k := Ext.hi 0 <| Ext.lo <| (Ext.all _)
  have f31 : (encode s (.barb k)).getLsbD 31 = s := Ext.marker (Ext.hi 23 <| Ext.hi 21 <| Ext.hi 6 <| Ext.hi 0 <| (Ext.all _))
  generalize encode s (.barb k) = w at *
  refine decode_of f25_6 (by decide) (by decide) f31 ?_ hwf
  have h1 : decodeMajor w = decodeSync w := by rw [decodeMajor, f25_6]; rfl
  have h2 : decodeSync w = fixedAt w 10 15 0 (fixedAt w 4 4 0 (pure (.barb (w.extractLsb' 8 2)))) := by rw [decodeSync, f0_4]; rfl
  rw [h1, h2, fixedAt_ok f10_15, fixedAt_ok f4_4, f8_2]; rfl
theorem bara (k : BitVec 2) : Statement (.bara k) := by
  intro s hwf
  have f25_6 : (encode s (.bara k)).extractLsb' 25 6 = 0x16#6 := Ext.hi 17 <| Ext.hi 15 <| Ext.hi 0 <| Ext.lo <| (Ext.all _)
  have f0_4 : (encode s (.bara k)).extractLsb' 0 4 = 2#4 := Ext.lo <| rfl
  have f10_15 : (encode s (.bara k)).extractLsb' 10 15 = 0#15 := Ext.hi 2 <| Ext.hi 0 <| Ext.lo <| (Ext.all _)
  have f4_4 : (encode s (.bara k)).extractLsb' 4 4 = 0#4 := Ext.lo <| rfl
  have f8_2 : (encode s (.bara k)).extractLsb' 8 2 = k := Ext.hi 0 <| Ext.lo <| (Ext.all _)
  have f31 : (encode s (.bara k)).getLsbD 31 = s := Ext.marker (Ext.hi 23 <| Ext.hi 21 <| Ext.hi 6 <| Ext.hi 0 <| (Ext.all _))
  generalize encode s (.bara k) = w at *
  refine decode_of f25_6 (by decide) (by decide) f31 ?_ hwf
  have h1 : decodeMajor w = decodeSync w := by rw [decodeMajor, f25_6]; rfl
  have h2 : decodeSync w = fixedAt w 10 15 0 (fixedAt w 4 4 0 (pure (.bara (w.extractLsb' 8 2)))) := by rw [decodeSync, f0_4]; rfl
  rw [h1, h2, fixedAt_ok f10_15, fixedAt_ok f4_4, f8_2]; rfl
theorem barw (k : BitVec 2) : Statement (.barw k) := by
  intro s hwf
  have f25_6 : (encode s (.barw k)).extractLsb' 25 6 = 0x16#6 := Ext.hi 17 <| Ext.hi 15 <| Ext.hi 0 <| Ext.lo <| (Ext.all _)
  have f0_4 : (encode s (.barw k)).extractLsb' 0 4 = 3#4 := Ext.lo <| rfl
  have f10_15 : (encode s (.barw k)).extractLsb' 10 15 = 0#15 := Ext.hi 2 <| Ext.hi 0 <| Ext.lo <| (Ext.all _)
  have f4_4 : (encode s (.barw k)).extractLsb' 4 4 = 0#4 := Ext.lo <| rfl
  have f8_2 : (encode s (.barw k)).extractLsb' 8 2 = k := Ext.hi 0 <| Ext.lo <| (Ext.all _)
  have f31 : (encode s (.barw k)).getLsbD 31 = s := Ext.marker (Ext.hi 23 <| Ext.hi 21 <| Ext.hi 6 <| Ext.hi 0 <| (Ext.all _))
  generalize encode s (.barw k) = w at *
  refine decode_of f25_6 (by decide) (by decide) f31 ?_ hwf
  have h1 : decodeMajor w = decodeSync w := by rw [decodeMajor, f25_6]; rfl
  have h2 : decodeSync w = fixedAt w 10 15 0 (fixedAt w 4 4 0 (pure (.barw (w.extractLsb' 8 2)))) := by rw [decodeSync, f0_4]; rfl
  rw [h1, h2, fixedAt_ok f10_15, fixedAt_ok f4_4, f8_2]; rfl
theorem vadd (d : BitVec 5) (a : BitVec 5) (b : BitVec 5) (p : BitVec 3) (e : BitVec 3) : Statement (.vadd d a b p e) := by
  intro s hwf
  have f25_6 : (encode s (.vadd d a b p e)).extractLsb' 25 6 = 0x18#6 := Ext.hi 21 <| Ext.hi 18 <| Ext.hi 15 <| Ext.hi 10 <| Ext.hi 5 <| Ext.hi 0 <| Ext.lo <| (Ext.all _)
  have f0_4 : (encode s (.vadd d a b p e)).extractLsb' 0 4 = 0#4 := Ext.lo <| (Ext.all _)
  have f20_5 : (encode s (.vadd d a b p e)).extractLsb' 20 5 = d := Ext.hi 16 <| Ext.hi 13 <| Ext.hi 10 <| Ext.hi 5 <| Ext.hi 0 <| Ext.lo <| (Ext.all _)
  have f15_5 : (encode s (.vadd d a b p e)).extractLsb' 15 5 = a := Ext.hi 11 <| Ext.hi 8 <| Ext.hi 5 <| Ext.hi 0 <| Ext.lo <| (Ext.all _)
  have f10_5 : (encode s (.vadd d a b p e)).extractLsb' 10 5 = b := Ext.hi 6 <| Ext.hi 3 <| Ext.hi 0 <| Ext.lo <| (Ext.all _)
  have f7_3 : (encode s (.vadd d a b p e)).extractLsb' 7 3 = p := Ext.hi 3 <| Ext.hi 0 <| Ext.lo <| (Ext.all _)
  have f4_3 : (encode s (.vadd d a b p e)).extractLsb' 4 3 = e := Ext.hi 0 <| Ext.lo <| (Ext.all _)
  have f31 : (encode s (.vadd d a b p e)).getLsbD 31 = s := Ext.marker (Ext.hi 27 <| Ext.hi 24 <| Ext.hi 21 <| Ext.hi 16 <| Ext.hi 11 <| Ext.hi 6 <| Ext.hi 0 <| (Ext.all _))
  generalize encode s (.vadd d a b p e) = w at *
  refine decode_of f25_6 (by decide) (by decide) f31 ?_ hwf
  have h1 : decodeMajor w = decodeVia w := by rw [decodeMajor, f25_6]; rfl
  have h2 : decodeVia w = pure (.vadd (w.extractLsb' 20 5) (w.extractLsb' 15 5) (w.extractLsb' 10 5) (w.extractLsb' 7 3) (w.extractLsb' 4 3)) := by rw [decodeVia, f0_4]; rfl
  rw [h1, h2, f20_5, f15_5, f10_5, f7_3, f4_3]; rfl
theorem vsub (d : BitVec 5) (a : BitVec 5) (b : BitVec 5) (p : BitVec 3) (e : BitVec 3) : Statement (.vsub d a b p e) := by
  intro s hwf
  have f25_6 : (encode s (.vsub d a b p e)).extractLsb' 25 6 = 0x18#6 := Ext.hi 21 <| Ext.hi 18 <| Ext.hi 15 <| Ext.hi 10 <| Ext.hi 5 <| Ext.hi 0 <| Ext.lo <| (Ext.all _)
  have f0_4 : (encode s (.vsub d a b p e)).extractLsb' 0 4 = 1#4 := Ext.lo <| (Ext.all _)
  have f20_5 : (encode s (.vsub d a b p e)).extractLsb' 20 5 = d := Ext.hi 16 <| Ext.hi 13 <| Ext.hi 10 <| Ext.hi 5 <| Ext.hi 0 <| Ext.lo <| (Ext.all _)
  have f15_5 : (encode s (.vsub d a b p e)).extractLsb' 15 5 = a := Ext.hi 11 <| Ext.hi 8 <| Ext.hi 5 <| Ext.hi 0 <| Ext.lo <| (Ext.all _)
  have f10_5 : (encode s (.vsub d a b p e)).extractLsb' 10 5 = b := Ext.hi 6 <| Ext.hi 3 <| Ext.hi 0 <| Ext.lo <| (Ext.all _)
  have f7_3 : (encode s (.vsub d a b p e)).extractLsb' 7 3 = p := Ext.hi 3 <| Ext.hi 0 <| Ext.lo <| (Ext.all _)
  have f4_3 : (encode s (.vsub d a b p e)).extractLsb' 4 3 = e := Ext.hi 0 <| Ext.lo <| (Ext.all _)
  have f31 : (encode s (.vsub d a b p e)).getLsbD 31 = s := Ext.marker (Ext.hi 27 <| Ext.hi 24 <| Ext.hi 21 <| Ext.hi 16 <| Ext.hi 11 <| Ext.hi 6 <| Ext.hi 0 <| (Ext.all _))
  generalize encode s (.vsub d a b p e) = w at *
  refine decode_of f25_6 (by decide) (by decide) f31 ?_ hwf
  have h1 : decodeMajor w = decodeVia w := by rw [decodeMajor, f25_6]; rfl
  have h2 : decodeVia w = pure (.vsub (w.extractLsb' 20 5) (w.extractLsb' 15 5) (w.extractLsb' 10 5) (w.extractLsb' 7 3) (w.extractLsb' 4 3)) := by rw [decodeVia, f0_4]; rfl
  rw [h1, h2, f20_5, f15_5, f10_5, f7_3, f4_3]; rfl
theorem vmul (d : BitVec 5) (a : BitVec 5) (b : BitVec 5) (p : BitVec 3) (e : BitVec 3) : Statement (.vmul d a b p e) := by
  intro s hwf
  have f25_6 : (encode s (.vmul d a b p e)).extractLsb' 25 6 = 0x18#6 := Ext.hi 21 <| Ext.hi 18 <| Ext.hi 15 <| Ext.hi 10 <| Ext.hi 5 <| Ext.hi 0 <| Ext.lo <| (Ext.all _)
  have f0_4 : (encode s (.vmul d a b p e)).extractLsb' 0 4 = 2#4 := Ext.lo <| (Ext.all _)
  have f20_5 : (encode s (.vmul d a b p e)).extractLsb' 20 5 = d := Ext.hi 16 <| Ext.hi 13 <| Ext.hi 10 <| Ext.hi 5 <| Ext.hi 0 <| Ext.lo <| (Ext.all _)
  have f15_5 : (encode s (.vmul d a b p e)).extractLsb' 15 5 = a := Ext.hi 11 <| Ext.hi 8 <| Ext.hi 5 <| Ext.hi 0 <| Ext.lo <| (Ext.all _)
  have f10_5 : (encode s (.vmul d a b p e)).extractLsb' 10 5 = b := Ext.hi 6 <| Ext.hi 3 <| Ext.hi 0 <| Ext.lo <| (Ext.all _)
  have f7_3 : (encode s (.vmul d a b p e)).extractLsb' 7 3 = p := Ext.hi 3 <| Ext.hi 0 <| Ext.lo <| (Ext.all _)
  have f4_3 : (encode s (.vmul d a b p e)).extractLsb' 4 3 = e := Ext.hi 0 <| Ext.lo <| (Ext.all _)
  have f31 : (encode s (.vmul d a b p e)).getLsbD 31 = s := Ext.marker (Ext.hi 27 <| Ext.hi 24 <| Ext.hi 21 <| Ext.hi 16 <| Ext.hi 11 <| Ext.hi 6 <| Ext.hi 0 <| (Ext.all _))
  generalize encode s (.vmul d a b p e) = w at *
  refine decode_of f25_6 (by decide) (by decide) f31 ?_ hwf
  have h1 : decodeMajor w = decodeVia w := by rw [decodeMajor, f25_6]; rfl
  have h2 : decodeVia w = pure (.vmul (w.extractLsb' 20 5) (w.extractLsb' 15 5) (w.extractLsb' 10 5) (w.extractLsb' 7 3) (w.extractLsb' 4 3)) := by rw [decodeVia, f0_4]; rfl
  rw [h1, h2, f20_5, f15_5, f10_5, f7_3, f4_3]; rfl
theorem vmulh (d : BitVec 5) (a : BitVec 5) (b : BitVec 5) (p : BitVec 3) (e : BitVec 3) : Statement (.vmulh d a b p e) := by
  intro s hwf
  have f25_6 : (encode s (.vmulh d a b p e)).extractLsb' 25 6 = 0x18#6 := Ext.hi 21 <| Ext.hi 18 <| Ext.hi 15 <| Ext.hi 10 <| Ext.hi 5 <| Ext.hi 0 <| Ext.lo <| (Ext.all _)
  have f0_4 : (encode s (.vmulh d a b p e)).extractLsb' 0 4 = 3#4 := Ext.lo <| (Ext.all _)
  have f20_5 : (encode s (.vmulh d a b p e)).extractLsb' 20 5 = d := Ext.hi 16 <| Ext.hi 13 <| Ext.hi 10 <| Ext.hi 5 <| Ext.hi 0 <| Ext.lo <| (Ext.all _)
  have f15_5 : (encode s (.vmulh d a b p e)).extractLsb' 15 5 = a := Ext.hi 11 <| Ext.hi 8 <| Ext.hi 5 <| Ext.hi 0 <| Ext.lo <| (Ext.all _)
  have f10_5 : (encode s (.vmulh d a b p e)).extractLsb' 10 5 = b := Ext.hi 6 <| Ext.hi 3 <| Ext.hi 0 <| Ext.lo <| (Ext.all _)
  have f7_3 : (encode s (.vmulh d a b p e)).extractLsb' 7 3 = p := Ext.hi 3 <| Ext.hi 0 <| Ext.lo <| (Ext.all _)
  have f4_3 : (encode s (.vmulh d a b p e)).extractLsb' 4 3 = e := Ext.hi 0 <| Ext.lo <| (Ext.all _)
  have f31 : (encode s (.vmulh d a b p e)).getLsbD 31 = s := Ext.marker (Ext.hi 27 <| Ext.hi 24 <| Ext.hi 21 <| Ext.hi 16 <| Ext.hi 11 <| Ext.hi 6 <| Ext.hi 0 <| (Ext.all _))
  generalize encode s (.vmulh d a b p e) = w at *
  refine decode_of f25_6 (by decide) (by decide) f31 ?_ hwf
  have h1 : decodeMajor w = decodeVia w := by rw [decodeMajor, f25_6]; rfl
  have h2 : decodeVia w = pure (.vmulh (w.extractLsb' 20 5) (w.extractLsb' 15 5) (w.extractLsb' 10 5) (w.extractLsb' 7 3) (w.extractLsb' 4 3)) := by rw [decodeVia, f0_4]; rfl
  rw [h1, h2, f20_5, f15_5, f10_5, f7_3, f4_3]; rfl
theorem vmin (d : BitVec 5) (a : BitVec 5) (b : BitVec 5) (p : BitVec 3) (e : BitVec 3) : Statement (.vmin d a b p e) := by
  intro s hwf
  have f25_6 : (encode s (.vmin d a b p e)).extractLsb' 25 6 = 0x18#6 := Ext.hi 21 <| Ext.hi 18 <| Ext.hi 15 <| Ext.hi 10 <| Ext.hi 5 <| Ext.hi 0 <| Ext.lo <| (Ext.all _)
  have f0_4 : (encode s (.vmin d a b p e)).extractLsb' 0 4 = 4#4 := Ext.lo <| (Ext.all _)
  have f20_5 : (encode s (.vmin d a b p e)).extractLsb' 20 5 = d := Ext.hi 16 <| Ext.hi 13 <| Ext.hi 10 <| Ext.hi 5 <| Ext.hi 0 <| Ext.lo <| (Ext.all _)
  have f15_5 : (encode s (.vmin d a b p e)).extractLsb' 15 5 = a := Ext.hi 11 <| Ext.hi 8 <| Ext.hi 5 <| Ext.hi 0 <| Ext.lo <| (Ext.all _)
  have f10_5 : (encode s (.vmin d a b p e)).extractLsb' 10 5 = b := Ext.hi 6 <| Ext.hi 3 <| Ext.hi 0 <| Ext.lo <| (Ext.all _)
  have f7_3 : (encode s (.vmin d a b p e)).extractLsb' 7 3 = p := Ext.hi 3 <| Ext.hi 0 <| Ext.lo <| (Ext.all _)
  have f4_3 : (encode s (.vmin d a b p e)).extractLsb' 4 3 = e := Ext.hi 0 <| Ext.lo <| (Ext.all _)
  have f31 : (encode s (.vmin d a b p e)).getLsbD 31 = s := Ext.marker (Ext.hi 27 <| Ext.hi 24 <| Ext.hi 21 <| Ext.hi 16 <| Ext.hi 11 <| Ext.hi 6 <| Ext.hi 0 <| (Ext.all _))
  generalize encode s (.vmin d a b p e) = w at *
  refine decode_of f25_6 (by decide) (by decide) f31 ?_ hwf
  have h1 : decodeMajor w = decodeVia w := by rw [decodeMajor, f25_6]; rfl
  have h2 : decodeVia w = pure (.vmin (w.extractLsb' 20 5) (w.extractLsb' 15 5) (w.extractLsb' 10 5) (w.extractLsb' 7 3) (w.extractLsb' 4 3)) := by rw [decodeVia, f0_4]; rfl
  rw [h1, h2, f20_5, f15_5, f10_5, f7_3, f4_3]; rfl
theorem vmax (d : BitVec 5) (a : BitVec 5) (b : BitVec 5) (p : BitVec 3) (e : BitVec 3) : Statement (.vmax d a b p e) := by
  intro s hwf
  have f25_6 : (encode s (.vmax d a b p e)).extractLsb' 25 6 = 0x18#6 := Ext.hi 21 <| Ext.hi 18 <| Ext.hi 15 <| Ext.hi 10 <| Ext.hi 5 <| Ext.hi 0 <| Ext.lo <| (Ext.all _)
  have f0_4 : (encode s (.vmax d a b p e)).extractLsb' 0 4 = 5#4 := Ext.lo <| (Ext.all _)
  have f20_5 : (encode s (.vmax d a b p e)).extractLsb' 20 5 = d := Ext.hi 16 <| Ext.hi 13 <| Ext.hi 10 <| Ext.hi 5 <| Ext.hi 0 <| Ext.lo <| (Ext.all _)
  have f15_5 : (encode s (.vmax d a b p e)).extractLsb' 15 5 = a := Ext.hi 11 <| Ext.hi 8 <| Ext.hi 5 <| Ext.hi 0 <| Ext.lo <| (Ext.all _)
  have f10_5 : (encode s (.vmax d a b p e)).extractLsb' 10 5 = b := Ext.hi 6 <| Ext.hi 3 <| Ext.hi 0 <| Ext.lo <| (Ext.all _)
  have f7_3 : (encode s (.vmax d a b p e)).extractLsb' 7 3 = p := Ext.hi 3 <| Ext.hi 0 <| Ext.lo <| (Ext.all _)
  have f4_3 : (encode s (.vmax d a b p e)).extractLsb' 4 3 = e := Ext.hi 0 <| Ext.lo <| (Ext.all _)
  have f31 : (encode s (.vmax d a b p e)).getLsbD 31 = s := Ext.marker (Ext.hi 27 <| Ext.hi 24 <| Ext.hi 21 <| Ext.hi 16 <| Ext.hi 11 <| Ext.hi 6 <| Ext.hi 0 <| (Ext.all _))
  generalize encode s (.vmax d a b p e) = w at *
  refine decode_of f25_6 (by decide) (by decide) f31 ?_ hwf
  have h1 : decodeMajor w = decodeVia w := by rw [decodeMajor, f25_6]; rfl
  have h2 : decodeVia w = pure (.vmax (w.extractLsb' 20 5) (w.extractLsb' 15 5) (w.extractLsb' 10 5) (w.extractLsb' 7 3) (w.extractLsb' 4 3)) := by rw [decodeVia, f0_4]; rfl
  rw [h1, h2, f20_5, f15_5, f10_5, f7_3, f4_3]; rfl
theorem vand (d : BitVec 5) (a : BitVec 5) (b : BitVec 5) (p : BitVec 3) (e : BitVec 3) : Statement (.vand d a b p e) := by
  intro s hwf
  have f25_6 : (encode s (.vand d a b p e)).extractLsb' 25 6 = 0x18#6 := Ext.hi 21 <| Ext.hi 18 <| Ext.hi 15 <| Ext.hi 10 <| Ext.hi 5 <| Ext.hi 0 <| Ext.lo <| (Ext.all _)
  have f0_4 : (encode s (.vand d a b p e)).extractLsb' 0 4 = 6#4 := Ext.lo <| (Ext.all _)
  have f20_5 : (encode s (.vand d a b p e)).extractLsb' 20 5 = d := Ext.hi 16 <| Ext.hi 13 <| Ext.hi 10 <| Ext.hi 5 <| Ext.hi 0 <| Ext.lo <| (Ext.all _)
  have f15_5 : (encode s (.vand d a b p e)).extractLsb' 15 5 = a := Ext.hi 11 <| Ext.hi 8 <| Ext.hi 5 <| Ext.hi 0 <| Ext.lo <| (Ext.all _)
  have f10_5 : (encode s (.vand d a b p e)).extractLsb' 10 5 = b := Ext.hi 6 <| Ext.hi 3 <| Ext.hi 0 <| Ext.lo <| (Ext.all _)
  have f7_3 : (encode s (.vand d a b p e)).extractLsb' 7 3 = p := Ext.hi 3 <| Ext.hi 0 <| Ext.lo <| (Ext.all _)
  have f4_3 : (encode s (.vand d a b p e)).extractLsb' 4 3 = e := Ext.hi 0 <| Ext.lo <| (Ext.all _)
  have f31 : (encode s (.vand d a b p e)).getLsbD 31 = s := Ext.marker (Ext.hi 27 <| Ext.hi 24 <| Ext.hi 21 <| Ext.hi 16 <| Ext.hi 11 <| Ext.hi 6 <| Ext.hi 0 <| (Ext.all _))
  generalize encode s (.vand d a b p e) = w at *
  refine decode_of f25_6 (by decide) (by decide) f31 ?_ hwf
  have h1 : decodeMajor w = decodeVia w := by rw [decodeMajor, f25_6]; rfl
  have h2 : decodeVia w = pure (.vand (w.extractLsb' 20 5) (w.extractLsb' 15 5) (w.extractLsb' 10 5) (w.extractLsb' 7 3) (w.extractLsb' 4 3)) := by rw [decodeVia, f0_4]; rfl
  rw [h1, h2, f20_5, f15_5, f10_5, f7_3, f4_3]; rfl
theorem vor (d : BitVec 5) (a : BitVec 5) (b : BitVec 5) (p : BitVec 3) (e : BitVec 3) : Statement (.vor d a b p e) := by
  intro s hwf
  have f25_6 : (encode s (.vor d a b p e)).extractLsb' 25 6 = 0x18#6 := Ext.hi 21 <| Ext.hi 18 <| Ext.hi 15 <| Ext.hi 10 <| Ext.hi 5 <| Ext.hi 0 <| Ext.lo <| (Ext.all _)
  have f0_4 : (encode s (.vor d a b p e)).extractLsb' 0 4 = 7#4 := Ext.lo <| (Ext.all _)
  have f20_5 : (encode s (.vor d a b p e)).extractLsb' 20 5 = d := Ext.hi 16 <| Ext.hi 13 <| Ext.hi 10 <| Ext.hi 5 <| Ext.hi 0 <| Ext.lo <| (Ext.all _)
  have f15_5 : (encode s (.vor d a b p e)).extractLsb' 15 5 = a := Ext.hi 11 <| Ext.hi 8 <| Ext.hi 5 <| Ext.hi 0 <| Ext.lo <| (Ext.all _)
  have f10_5 : (encode s (.vor d a b p e)).extractLsb' 10 5 = b := Ext.hi 6 <| Ext.hi 3 <| Ext.hi 0 <| Ext.lo <| (Ext.all _)
  have f7_3 : (encode s (.vor d a b p e)).extractLsb' 7 3 = p := Ext.hi 3 <| Ext.hi 0 <| Ext.lo <| (Ext.all _)
  have f4_3 : (encode s (.vor d a b p e)).extractLsb' 4 3 = e := Ext.hi 0 <| Ext.lo <| (Ext.all _)
  have f31 : (encode s (.vor d a b p e)).getLsbD 31 = s := Ext.marker (Ext.hi 27 <| Ext.hi 24 <| Ext.hi 21 <| Ext.hi 16 <| Ext.hi 11 <| Ext.hi 6 <| Ext.hi 0 <| (Ext.all _))
  generalize encode s (.vor d a b p e) = w at *
  refine decode_of f25_6 (by decide) (by decide) f31 ?_ hwf
  have h1 : decodeMajor w = decodeVia w := by rw [decodeMajor, f25_6]; rfl
  have h2 : decodeVia w = pure (.vor (w.extractLsb' 20 5) (w.extractLsb' 15 5) (w.extractLsb' 10 5) (w.extractLsb' 7 3) (w.extractLsb' 4 3)) := by rw [decodeVia, f0_4]; rfl
  rw [h1, h2, f20_5, f15_5, f10_5, f7_3, f4_3]; rfl
theorem vxor (d : BitVec 5) (a : BitVec 5) (b : BitVec 5) (p : BitVec 3) (e : BitVec 3) : Statement (.vxor d a b p e) := by
  intro s hwf
  have f25_6 : (encode s (.vxor d a b p e)).extractLsb' 25 6 = 0x18#6 := Ext.hi 21 <| Ext.hi 18 <| Ext.hi 15 <| Ext.hi 10 <| Ext.hi 5 <| Ext.hi 0 <| Ext.lo <| (Ext.all _)
  have f0_4 : (encode s (.vxor d a b p e)).extractLsb' 0 4 = 8#4 := Ext.lo <| (Ext.all _)
  have f20_5 : (encode s (.vxor d a b p e)).extractLsb' 20 5 = d := Ext.hi 16 <| Ext.hi 13 <| Ext.hi 10 <| Ext.hi 5 <| Ext.hi 0 <| Ext.lo <| (Ext.all _)
  have f15_5 : (encode s (.vxor d a b p e)).extractLsb' 15 5 = a := Ext.hi 11 <| Ext.hi 8 <| Ext.hi 5 <| Ext.hi 0 <| Ext.lo <| (Ext.all _)
  have f10_5 : (encode s (.vxor d a b p e)).extractLsb' 10 5 = b := Ext.hi 6 <| Ext.hi 3 <| Ext.hi 0 <| Ext.lo <| (Ext.all _)
  have f7_3 : (encode s (.vxor d a b p e)).extractLsb' 7 3 = p := Ext.hi 3 <| Ext.hi 0 <| Ext.lo <| (Ext.all _)
  have f4_3 : (encode s (.vxor d a b p e)).extractLsb' 4 3 = e := Ext.hi 0 <| Ext.lo <| (Ext.all _)
  have f31 : (encode s (.vxor d a b p e)).getLsbD 31 = s := Ext.marker (Ext.hi 27 <| Ext.hi 24 <| Ext.hi 21 <| Ext.hi 16 <| Ext.hi 11 <| Ext.hi 6 <| Ext.hi 0 <| (Ext.all _))
  generalize encode s (.vxor d a b p e) = w at *
  refine decode_of f25_6 (by decide) (by decide) f31 ?_ hwf
  have h1 : decodeMajor w = decodeVia w := by rw [decodeMajor, f25_6]; rfl
  have h2 : decodeVia w = pure (.vxor (w.extractLsb' 20 5) (w.extractLsb' 15 5) (w.extractLsb' 10 5) (w.extractLsb' 7 3) (w.extractLsb' 4 3)) := by rw [decodeVia, f0_4]; rfl
  rw [h1, h2, f20_5, f15_5, f10_5, f7_3, f4_3]; rfl
theorem vsll (d : BitVec 5) (a : BitVec 5) (b : BitVec 5) (p : BitVec 3) (e : BitVec 3) : Statement (.vsll d a b p e) := by
  intro s hwf
  have f25_6 : (encode s (.vsll d a b p e)).extractLsb' 25 6 = 0x18#6 := Ext.hi 21 <| Ext.hi 18 <| Ext.hi 15 <| Ext.hi 10 <| Ext.hi 5 <| Ext.hi 0 <| Ext.lo <| (Ext.all _)
  have f0_4 : (encode s (.vsll d a b p e)).extractLsb' 0 4 = 9#4 := Ext.lo <| (Ext.all _)
  have f20_5 : (encode s (.vsll d a b p e)).extractLsb' 20 5 = d := Ext.hi 16 <| Ext.hi 13 <| Ext.hi 10 <| Ext.hi 5 <| Ext.hi 0 <| Ext.lo <| (Ext.all _)
  have f15_5 : (encode s (.vsll d a b p e)).extractLsb' 15 5 = a := Ext.hi 11 <| Ext.hi 8 <| Ext.hi 5 <| Ext.hi 0 <| Ext.lo <| (Ext.all _)
  have f10_5 : (encode s (.vsll d a b p e)).extractLsb' 10 5 = b := Ext.hi 6 <| Ext.hi 3 <| Ext.hi 0 <| Ext.lo <| (Ext.all _)
  have f7_3 : (encode s (.vsll d a b p e)).extractLsb' 7 3 = p := Ext.hi 3 <| Ext.hi 0 <| Ext.lo <| (Ext.all _)
  have f4_3 : (encode s (.vsll d a b p e)).extractLsb' 4 3 = e := Ext.hi 0 <| Ext.lo <| (Ext.all _)
  have f31 : (encode s (.vsll d a b p e)).getLsbD 31 = s := Ext.marker (Ext.hi 27 <| Ext.hi 24 <| Ext.hi 21 <| Ext.hi 16 <| Ext.hi 11 <| Ext.hi 6 <| Ext.hi 0 <| (Ext.all _))
  generalize encode s (.vsll d a b p e) = w at *
  refine decode_of f25_6 (by decide) (by decide) f31 ?_ hwf
  have h1 : decodeMajor w = decodeVia w := by rw [decodeMajor, f25_6]; rfl
  have h2 : decodeVia w = pure (.vsll (w.extractLsb' 20 5) (w.extractLsb' 15 5) (w.extractLsb' 10 5) (w.extractLsb' 7 3) (w.extractLsb' 4 3)) := by rw [decodeVia, f0_4]; rfl
  rw [h1, h2, f20_5, f15_5, f10_5, f7_3, f4_3]; rfl
theorem vsrl (d : BitVec 5) (a : BitVec 5) (b : BitVec 5) (p : BitVec 3) (e : BitVec 3) : Statement (.vsrl d a b p e) := by
  intro s hwf
  have f25_6 : (encode s (.vsrl d a b p e)).extractLsb' 25 6 = 0x18#6 := Ext.hi 21 <| Ext.hi 18 <| Ext.hi 15 <| Ext.hi 10 <| Ext.hi 5 <| Ext.hi 0 <| Ext.lo <| (Ext.all _)
  have f0_4 : (encode s (.vsrl d a b p e)).extractLsb' 0 4 = 10#4 := Ext.lo <| (Ext.all _)
  have f20_5 : (encode s (.vsrl d a b p e)).extractLsb' 20 5 = d := Ext.hi 16 <| Ext.hi 13 <| Ext.hi 10 <| Ext.hi 5 <| Ext.hi 0 <| Ext.lo <| (Ext.all _)
  have f15_5 : (encode s (.vsrl d a b p e)).extractLsb' 15 5 = a := Ext.hi 11 <| Ext.hi 8 <| Ext.hi 5 <| Ext.hi 0 <| Ext.lo <| (Ext.all _)
  have f10_5 : (encode s (.vsrl d a b p e)).extractLsb' 10 5 = b := Ext.hi 6 <| Ext.hi 3 <| Ext.hi 0 <| Ext.lo <| (Ext.all _)
  have f7_3 : (encode s (.vsrl d a b p e)).extractLsb' 7 3 = p := Ext.hi 3 <| Ext.hi 0 <| Ext.lo <| (Ext.all _)
  have f4_3 : (encode s (.vsrl d a b p e)).extractLsb' 4 3 = e := Ext.hi 0 <| Ext.lo <| (Ext.all _)
  have f31 : (encode s (.vsrl d a b p e)).getLsbD 31 = s := Ext.marker (Ext.hi 27 <| Ext.hi 24 <| Ext.hi 21 <| Ext.hi 16 <| Ext.hi 11 <| Ext.hi 6 <| Ext.hi 0 <| (Ext.all _))
  generalize encode s (.vsrl d a b p e) = w at *
  refine decode_of f25_6 (by decide) (by decide) f31 ?_ hwf
  have h1 : decodeMajor w = decodeVia w := by rw [decodeMajor, f25_6]; rfl
  have h2 : decodeVia w = pure (.vsrl (w.extractLsb' 20 5) (w.extractLsb' 15 5) (w.extractLsb' 10 5) (w.extractLsb' 7 3) (w.extractLsb' 4 3)) := by rw [decodeVia, f0_4]; rfl
  rw [h1, h2, f20_5, f15_5, f10_5, f7_3, f4_3]; rfl
theorem vsra (d : BitVec 5) (a : BitVec 5) (b : BitVec 5) (p : BitVec 3) (e : BitVec 3) : Statement (.vsra d a b p e) := by
  intro s hwf
  have f25_6 : (encode s (.vsra d a b p e)).extractLsb' 25 6 = 0x18#6 := Ext.hi 21 <| Ext.hi 18 <| Ext.hi 15 <| Ext.hi 10 <| Ext.hi 5 <| Ext.hi 0 <| Ext.lo <| (Ext.all _)
  have f0_4 : (encode s (.vsra d a b p e)).extractLsb' 0 4 = 11#4 := Ext.lo <| (Ext.all _)
  have f20_5 : (encode s (.vsra d a b p e)).extractLsb' 20 5 = d := Ext.hi 16 <| Ext.hi 13 <| Ext.hi 10 <| Ext.hi 5 <| Ext.hi 0 <| Ext.lo <| (Ext.all _)
  have f15_5 : (encode s (.vsra d a b p e)).extractLsb' 15 5 = a := Ext.hi 11 <| Ext.hi 8 <| Ext.hi 5 <| Ext.hi 0 <| Ext.lo <| (Ext.all _)
  have f10_5 : (encode s (.vsra d a b p e)).extractLsb' 10 5 = b := Ext.hi 6 <| Ext.hi 3 <| Ext.hi 0 <| Ext.lo <| (Ext.all _)
  have f7_3 : (encode s (.vsra d a b p e)).extractLsb' 7 3 = p := Ext.hi 3 <| Ext.hi 0 <| Ext.lo <| (Ext.all _)
  have f4_3 : (encode s (.vsra d a b p e)).extractLsb' 4 3 = e := Ext.hi 0 <| Ext.lo <| (Ext.all _)
  have f31 : (encode s (.vsra d a b p e)).getLsbD 31 = s := Ext.marker (Ext.hi 27 <| Ext.hi 24 <| Ext.hi 21 <| Ext.hi 16 <| Ext.hi 11 <| Ext.hi 6 <| Ext.hi 0 <| (Ext.all _))
  generalize encode s (.vsra d a b p e) = w at *
  refine decode_of f25_6 (by decide) (by decide) f31 ?_ hwf
  have h1 : decodeMajor w = decodeVia w := by rw [decodeMajor, f25_6]; rfl
  have h2 : decodeVia w = pure (.vsra (w.extractLsb' 20 5) (w.extractLsb' 15 5) (w.extractLsb' 10 5) (w.extractLsb' 7 3) (w.extractLsb' 4 3)) := by rw [decodeVia, f0_4]; rfl
  rw [h1, h2, f20_5, f15_5, f10_5, f7_3, f4_3]; rfl
theorem vaddsat (d : BitVec 5) (a : BitVec 5) (b : BitVec 5) (p : BitVec 3) (e : BitVec 3) : Statement (.vaddsat d a b p e) := by
  intro s hwf
  have f25_6 : (encode s (.vaddsat d a b p e)).extractLsb' 25 6 = 0x18#6 := Ext.hi 21 <| Ext.hi 18 <| Ext.hi 15 <| Ext.hi 10 <| Ext.hi 5 <| Ext.hi 0 <| Ext.lo <| (Ext.all _)
  have f0_4 : (encode s (.vaddsat d a b p e)).extractLsb' 0 4 = 12#4 := Ext.lo <| (Ext.all _)
  have f20_5 : (encode s (.vaddsat d a b p e)).extractLsb' 20 5 = d := Ext.hi 16 <| Ext.hi 13 <| Ext.hi 10 <| Ext.hi 5 <| Ext.hi 0 <| Ext.lo <| (Ext.all _)
  have f15_5 : (encode s (.vaddsat d a b p e)).extractLsb' 15 5 = a := Ext.hi 11 <| Ext.hi 8 <| Ext.hi 5 <| Ext.hi 0 <| Ext.lo <| (Ext.all _)
  have f10_5 : (encode s (.vaddsat d a b p e)).extractLsb' 10 5 = b := Ext.hi 6 <| Ext.hi 3 <| Ext.hi 0 <| Ext.lo <| (Ext.all _)
  have f7_3 : (encode s (.vaddsat d a b p e)).extractLsb' 7 3 = p := Ext.hi 3 <| Ext.hi 0 <| Ext.lo <| (Ext.all _)
  have f4_3 : (encode s (.vaddsat d a b p e)).extractLsb' 4 3 = e := Ext.hi 0 <| Ext.lo <| (Ext.all _)
  have f31 : (encode s (.vaddsat d a b p e)).getLsbD 31 = s := Ext.marker (Ext.hi 27 <| Ext.hi 24 <| Ext.hi 21 <| Ext.hi 16 <| Ext.hi 11 <| Ext.hi 6 <| Ext.hi 0 <| (Ext.all _))
  generalize encode s (.vaddsat d a b p e) = w at *
  refine decode_of f25_6 (by decide) (by decide) f31 ?_ hwf
  have h1 : decodeMajor w = decodeVia w := by rw [decodeMajor, f25_6]; rfl
  have h2 : decodeVia w = pure (.vaddsat (w.extractLsb' 20 5) (w.extractLsb' 15 5) (w.extractLsb' 10 5) (w.extractLsb' 7 3) (w.extractLsb' 4 3)) := by rw [decodeVia, f0_4]; rfl
  rw [h1, h2, f20_5, f15_5, f10_5, f7_3, f4_3]; rfl
theorem vsubsat (d : BitVec 5) (a : BitVec 5) (b : BitVec 5) (p : BitVec 3) (e : BitVec 3) : Statement (.vsubsat d a b p e) := by
  intro s hwf
  have f25_6 : (encode s (.vsubsat d a b p e)).extractLsb' 25 6 = 0x18#6 := Ext.hi 21 <| Ext.hi 18 <| Ext.hi 15 <| Ext.hi 10 <| Ext.hi 5 <| Ext.hi 0 <| Ext.lo <| (Ext.all _)
  have f0_4 : (encode s (.vsubsat d a b p e)).extractLsb' 0 4 = 13#4 := Ext.lo <| (Ext.all _)
  have f20_5 : (encode s (.vsubsat d a b p e)).extractLsb' 20 5 = d := Ext.hi 16 <| Ext.hi 13 <| Ext.hi 10 <| Ext.hi 5 <| Ext.hi 0 <| Ext.lo <| (Ext.all _)
  have f15_5 : (encode s (.vsubsat d a b p e)).extractLsb' 15 5 = a := Ext.hi 11 <| Ext.hi 8 <| Ext.hi 5 <| Ext.hi 0 <| Ext.lo <| (Ext.all _)
  have f10_5 : (encode s (.vsubsat d a b p e)).extractLsb' 10 5 = b := Ext.hi 6 <| Ext.hi 3 <| Ext.hi 0 <| Ext.lo <| (Ext.all _)
  have f7_3 : (encode s (.vsubsat d a b p e)).extractLsb' 7 3 = p := Ext.hi 3 <| Ext.hi 0 <| Ext.lo <| (Ext.all _)
  have f4_3 : (encode s (.vsubsat d a b p e)).extractLsb' 4 3 = e := Ext.hi 0 <| Ext.lo <| (Ext.all _)
  have f31 : (encode s (.vsubsat d a b p e)).getLsbD 31 = s := Ext.marker (Ext.hi 27 <| Ext.hi 24 <| Ext.hi 21 <| Ext.hi 16 <| Ext.hi 11 <| Ext.hi 6 <| Ext.hi 0 <| (Ext.all _))
  generalize encode s (.vsubsat d a b p e) = w at *
  refine decode_of f25_6 (by decide) (by decide) f31 ?_ hwf
  have h1 : decodeMajor w = decodeVia w := by rw [decodeMajor, f25_6]; rfl
  have h2 : decodeVia w = pure (.vsubsat (w.extractLsb' 20 5) (w.extractLsb' 15 5) (w.extractLsb' 10 5) (w.extractLsb' 7 3) (w.extractLsb' 4 3)) := by rw [decodeVia, f0_4]; rfl
  rw [h1, h2, f20_5, f15_5, f10_5, f7_3, f4_3]; rfl
theorem vdot4 (d : BitVec 5) (a : BitVec 5) (b : BitVec 5) (p : BitVec 3) (e : BitVec 1) : Statement (.vdot4 d a b p e) := by
  intro s hwf
  have f25_6 : (encode s (.vdot4 d a b p e)).extractLsb' 25 6 = 0x19#6 := Ext.hi 19 <| Ext.hi 18 <| Ext.hi 15 <| Ext.hi 10 <| Ext.hi 5 <| Ext.hi 0 <| Ext.lo <| (Ext.all _)
  have f0_4 : (encode s (.vdot4 d a b p e)).extractLsb' 0 4 = 0#4 := Ext.lo <| rfl
  have f4_2 : (encode s (.vdot4 d a b p e)).extractLsb' 4 2 = 0#2 := Ext.lo <| rfl
  have f20_5 : (encode s (.vdot4 d a b p e)).extractLsb' 20 5 = d := Ext.hi 14 <| Ext.hi 13 <| Ext.hi 10 <| Ext.hi 5 <| Ext.hi 0 <| Ext.lo <| (Ext.all _)
  have f15_5 : (encode s (.vdot4 d a b p e)).extractLsb' 15 5 = a := Ext.hi 9 <| Ext.hi 8 <| Ext.hi 5 <| Ext.hi 0 <| Ext.lo <| (Ext.all _)
  have f10_5 : (encode s (.vdot4 d a b p e)).extractLsb' 10 5 = b := Ext.hi 4 <| Ext.hi 3 <| Ext.hi 0 <| Ext.lo <| (Ext.all _)
  have f7_3 : (encode s (.vdot4 d a b p e)).extractLsb' 7 3 = p := Ext.hi 1 <| Ext.hi 0 <| Ext.lo <| (Ext.all _)
  have f6_1 : (encode s (.vdot4 d a b p e)).extractLsb' 6 1 = e := Ext.hi 0 <| Ext.lo <| (Ext.all _)
  have f31 : (encode s (.vdot4 d a b p e)).getLsbD 31 = s := Ext.marker (Ext.hi 25 <| Ext.hi 24 <| Ext.hi 21 <| Ext.hi 16 <| Ext.hi 11 <| Ext.hi 6 <| Ext.hi 0 <| (Ext.all _))
  generalize encode s (.vdot4 d a b p e) = w at *
  refine decode_of f25_6 (by decide) (by decide) f31 ?_ hwf
  have h1 : decodeMajor w = decodeVib w := by rw [decodeMajor, f25_6]; rfl
  have h2 : decodeVib w = fixedAt w 4 2 0 (pure (.vdot4 (w.extractLsb' 20 5) (w.extractLsb' 15 5) (w.extractLsb' 10 5) (w.extractLsb' 7 3) (w.extractLsb' 6 1))) := by rw [decodeVib, f0_4]; rfl
  rw [h1, h2, fixedAt_ok f4_2, f20_5, f15_5, f10_5, f7_3, f6_1]; rfl
theorem vmulw (d : BitVec 5) (a : BitVec 5) (b : BitVec 5) (p : BitVec 3) (e : BitVec 3) : Statement (.vmulw d a b p e) := by
  intro s hwf
  have f25_6 : (encode s (.vmulw d a b p e)).extractLsb' 25 6 = 0x19#6 := Ext.hi 21 <| Ext.hi 18 <| Ext.hi 15 <| Ext.hi 10 <| Ext.hi 5 <| Ext.hi 0 <| Ext.lo <| (Ext.all _)
  have f0_4 : (encode s (.vmulw d a b p e)).extractLsb' 0 4 = 1#4 := Ext.lo <| (Ext.all _)
  have f20_5 : (encode s (.vmulw d a b p e)).extractLsb' 20 5 = d := Ext.hi 16 <| Ext.hi 13 <| Ext.hi 10 <| Ext.hi 5 <| Ext.hi 0 <| Ext.lo <| (Ext.all _)
  have f15_5 : (encode s (.vmulw d a b p e)).extractLsb' 15 5 = a := Ext.hi 11 <| Ext.hi 8 <| Ext.hi 5 <| Ext.hi 0 <| Ext.lo <| (Ext.all _)
  have f10_5 : (encode s (.vmulw d a b p e)).extractLsb' 10 5 = b := Ext.hi 6 <| Ext.hi 3 <| Ext.hi 0 <| Ext.lo <| (Ext.all _)
  have f7_3 : (encode s (.vmulw d a b p e)).extractLsb' 7 3 = p := Ext.hi 3 <| Ext.hi 0 <| Ext.lo <| (Ext.all _)
  have f4_3 : (encode s (.vmulw d a b p e)).extractLsb' 4 3 = e := Ext.hi 0 <| Ext.lo <| (Ext.all _)
  have f31 : (encode s (.vmulw d a b p e)).getLsbD 31 = s := Ext.marker (Ext.hi 27 <| Ext.hi 24 <| Ext.hi 21 <| Ext.hi 16 <| Ext.hi 11 <| Ext.hi 6 <| Ext.hi 0 <| (Ext.all _))
  generalize encode s (.vmulw d a b p e) = w at *
  refine decode_of f25_6 (by decide) (by decide) f31 ?_ hwf
  have h1 : decodeMajor w = decodeVib w := by rw [decodeMajor, f25_6]; rfl
  have h2 : decodeVib w = pure (.vmulw (w.extractLsb' 20 5) (w.extractLsb' 15 5) (w.extractLsb' 10 5) (w.extractLsb' 7 3) (w.extractLsb' 4 3)) := by rw [decodeVib, f0_4]; rfl
  rw [h1, h2, f20_5, f15_5, f10_5, f7_3, f4_3]; rfl
theorem vnarrow (d : BitVec 5) (a : BitVec 5) (b : BitVec 5) (p : BitVec 3) (e : BitVec 3) : Statement (.vnarrow d a b p e) := by
  intro s hwf
  have f25_6 : (encode s (.vnarrow d a b p e)).extractLsb' 25 6 = 0x19#6 := Ext.hi 21 <| Ext.hi 18 <| Ext.hi 15 <| Ext.hi 10 <| Ext.hi 5 <| Ext.hi 0 <| Ext.lo <| (Ext.all _)
  have f0_4 : (encode s (.vnarrow d a b p e)).extractLsb' 0 4 = 2#4 := Ext.lo <| (Ext.all _)
  have f20_5 : (encode s (.vnarrow d a b p e)).extractLsb' 20 5 = d := Ext.hi 16 <| Ext.hi 13 <| Ext.hi 10 <| Ext.hi 5 <| Ext.hi 0 <| Ext.lo <| (Ext.all _)
  have f15_5 : (encode s (.vnarrow d a b p e)).extractLsb' 15 5 = a := Ext.hi 11 <| Ext.hi 8 <| Ext.hi 5 <| Ext.hi 0 <| Ext.lo <| (Ext.all _)
  have f10_5 : (encode s (.vnarrow d a b p e)).extractLsb' 10 5 = b := Ext.hi 6 <| Ext.hi 3 <| Ext.hi 0 <| Ext.lo <| (Ext.all _)
  have f7_3 : (encode s (.vnarrow d a b p e)).extractLsb' 7 3 = p := Ext.hi 3 <| Ext.hi 0 <| Ext.lo <| (Ext.all _)
  have f4_3 : (encode s (.vnarrow d a b p e)).extractLsb' 4 3 = e := Ext.hi 0 <| Ext.lo <| (Ext.all _)
  have f31 : (encode s (.vnarrow d a b p e)).getLsbD 31 = s := Ext.marker (Ext.hi 27 <| Ext.hi 24 <| Ext.hi 21 <| Ext.hi 16 <| Ext.hi 11 <| Ext.hi 6 <| Ext.hi 0 <| (Ext.all _))
  generalize encode s (.vnarrow d a b p e) = w at *
  refine decode_of f25_6 (by decide) (by decide) f31 ?_ hwf
  have h1 : decodeMajor w = decodeVib w := by rw [decodeMajor, f25_6]; rfl
  have h2 : decodeVib w = pure (.vnarrow (w.extractLsb' 20 5) (w.extractLsb' 15 5) (w.extractLsb' 10 5) (w.extractLsb' 7 3) (w.extractLsb' 4 3)) := by rw [decodeVib, f0_4]; rfl
  rw [h1, h2, f20_5, f15_5, f10_5, f7_3, f4_3]; rfl
theorem vsel (d : BitVec 5) (a : BitVec 5) (b : BitVec 5) (p : BitVec 3) (e : BitVec 3) : Statement (.vsel d a b p e) := by
  intro s hwf
  have f25_6 : (encode s (.vsel d a b p e)).extractLsb' 25 6 = 0x19#6 := Ext.hi 21 <| Ext.hi 18 <| Ext.hi 15 <| Ext.hi 10 <| Ext.hi 5 <| Ext.hi 0 <| Ext.lo <| (Ext.all _)
  have f0_4 : (encode s (.vsel d a b p e)).extractLsb' 0 4 = 3#4 := Ext.lo <| (Ext.all _)
  have f20_5 : (encode s (.vsel d a b p e)).extractLsb' 20 5 = d := Ext.hi 16 <| Ext.hi 13 <| Ext.hi 10 <| Ext.hi 5 <| Ext.hi 0 <| Ext.lo <| (Ext.all _)
  have f15_5 : (encode s (.vsel d a b p e)).extractLsb' 15 5 = a := Ext.hi 11 <| Ext.hi 8 <| Ext.hi 5 <| Ext.hi 0 <| Ext.lo <| (Ext.all _)
  have f10_5 : (encode s (.vsel d a b p e)).extractLsb' 10 5 = b := Ext.hi 6 <| Ext.hi 3 <| Ext.hi 0 <| Ext.lo <| (Ext.all _)
  have f7_3 : (encode s (.vsel d a b p e)).extractLsb' 7 3 = p := Ext.hi 3 <| Ext.hi 0 <| Ext.lo <| (Ext.all _)
  have f4_3 : (encode s (.vsel d a b p e)).extractLsb' 4 3 = e := Ext.hi 0 <| Ext.lo <| (Ext.all _)
  have f31 : (encode s (.vsel d a b p e)).getLsbD 31 = s := Ext.marker (Ext.hi 27 <| Ext.hi 24 <| Ext.hi 21 <| Ext.hi 16 <| Ext.hi 11 <| Ext.hi 6 <| Ext.hi 0 <| (Ext.all _))
  generalize encode s (.vsel d a b p e) = w at *
  refine decode_of f25_6 (by decide) (by decide) f31 ?_ hwf
  have h1 : decodeMajor w = decodeVib w := by rw [decodeMajor, f25_6]; rfl
  have h2 : decodeVib w = pure (.vsel (w.extractLsb' 20 5) (w.extractLsb' 15 5) (w.extractLsb' 10 5) (w.extractLsb' 7 3) (w.extractLsb' 4 3)) := by rw [decodeVib, f0_4]; rfl
  rw [h1, h2, f20_5, f15_5, f10_5, f7_3, f4_3]; rfl
theorem vmov (d : BitVec 5) (a : BitVec 5) (p : BitVec 3) (e : BitVec 3) : Statement (.vmov d a p e) := by
  intro s hwf
  have f25_6 : (encode s (.vmov d a p e)).extractLsb' 25 6 = 0x19#6 := Ext.hi 21 <| Ext.hi 18 <| Ext.hi 15 <| Ext.hi 10 <| Ext.hi 5 <| Ext.hi 0 <| Ext.lo <| (Ext.all _)
  have f0_4 : (encode s (.vmov d a p e)).extractLsb' 0 4 = 4#4 := Ext.lo <| (Ext.all _)
  have f10_5 : (encode s (.vmov d a p e)).extractLsb' 10 5 = 0#5 := Ext.hi 6 <| Ext.hi 3 <| Ext.hi 0 <| Ext.lo <| (Ext.all _)
  have f20_5 : (encode s (.vmov d a p e)).extractLsb' 20 5 = d := Ext.hi 16 <| Ext.hi 13 <| Ext.hi 10 <| Ext.hi 5 <| Ext.hi 0 <| Ext.lo <| (Ext.all _)
  have f15_5 : (encode s (.vmov d a p e)).extractLsb' 15 5 = a := Ext.hi 11 <| Ext.hi 8 <| Ext.hi 5 <| Ext.hi 0 <| Ext.lo <| (Ext.all _)
  have f7_3 : (encode s (.vmov d a p e)).extractLsb' 7 3 = p := Ext.hi 3 <| Ext.hi 0 <| Ext.lo <| (Ext.all _)
  have f4_3 : (encode s (.vmov d a p e)).extractLsb' 4 3 = e := Ext.hi 0 <| Ext.lo <| (Ext.all _)
  have f31 : (encode s (.vmov d a p e)).getLsbD 31 = s := Ext.marker (Ext.hi 27 <| Ext.hi 24 <| Ext.hi 21 <| Ext.hi 16 <| Ext.hi 11 <| Ext.hi 6 <| Ext.hi 0 <| (Ext.all _))
  generalize encode s (.vmov d a p e) = w at *
  refine decode_of f25_6 (by decide) (by decide) f31 ?_ hwf
  have h1 : decodeMajor w = decodeVib w := by rw [decodeMajor, f25_6]; rfl
  have h2 : decodeVib w = fixedAt w 10 5 0 (pure (.vmov (w.extractLsb' 20 5) (w.extractLsb' 15 5) (w.extractLsb' 7 3) (w.extractLsb' 4 3))) := by rw [decodeVib, f0_4]; rfl
  rw [h1, h2, fixedAt_ok f10_5, f20_5, f15_5, f7_3, f4_3]; rfl
theorem vidx (d : BitVec 5) (p : BitVec 3) (e : BitVec 3) : Statement (.vidx d p e) := by
  intro s hwf
  have f25_6 : (encode s (.vidx d p e)).extractLsb' 25 6 = 0x19#6 := Ext.hi 21 <| Ext.hi 18 <| Ext.hi 15 <| Ext.hi 5 <| Ext.hi 0 <| Ext.lo <| (Ext.all _)
  have f0_4 : (encode s (.vidx d p e)).extractLsb' 0 4 = 5#4 := Ext.lo <| (Ext.all _)
  have f10_10 : (encode s (.vidx d p e)).extractLsb' 10 10 = 0#10 := Ext.hi 6 <| Ext.hi 3 <| Ext.hi 0 <| Ext.lo <| (Ext.all _)
  have f20_5 : (encode s (.vidx d p e)).extractLsb' 20 5 = d := Ext.hi 16 <| Ext.hi 13 <| Ext.hi 10 <| Ext.hi 0 <| Ext.lo <| (Ext.all _)
  have f7_3 : (encode s (.vidx d p e)).extractLsb' 7 3 = p := Ext.hi 3 <| Ext.hi 0 <| Ext.lo <| (Ext.all _)
  have f4_3 : (encode s (.vidx d p e)).extractLsb' 4 3 = e := Ext.hi 0 <| Ext.lo <| (Ext.all _)
  have f31 : (encode s (.vidx d p e)).getLsbD 31 = s := Ext.marker (Ext.hi 27 <| Ext.hi 24 <| Ext.hi 21 <| Ext.hi 11 <| Ext.hi 6 <| Ext.hi 0 <| (Ext.all _))
  generalize encode s (.vidx d p e) = w at *
  refine decode_of f25_6 (by decide) (by decide) f31 ?_ hwf
  have h1 : decodeMajor w = decodeVib w := by rw [decodeMajor, f25_6]; rfl
  have h2 : decodeVib w = fixedAt w 10 10 0 (pure (.vidx (w.extractLsb' 20 5) (w.extractLsb' 7 3) (w.extractLsb' 4 3))) := by rw [decodeVib, f0_4]; rfl
  rw [h1, h2, fixedAt_ok f10_10, f20_5, f7_3, f4_3]; rfl
theorem vfadd (d : BitVec 5) (a : BitVec 5) (b : BitVec 5) (p : BitVec 3) (e : BitVec 2) : Statement (.vfadd d a b p e) := by
  intro s hwf
  have f25_6 : (encode s (.vfadd d a b p e)).extractLsb' 25 6 = 0x1A#6 := Ext.hi 21 <| Ext.hi 19 <| Ext.hi 18 <| Ext.hi 15 <| Ext.hi 10 <| Ext.hi 5 <| Ext.hi 0 <| Ext.lo <| (Ext.all _)
  have f0_4 : (encode s (.vfadd d a b p e)).extractLsb' 0 4 = 0#4 := Ext.lo <| (Ext.all _)
  have f6_1 : (encode s (.vfadd d a b p e)).extractLsb' 6 1 = 0#1 := Ext.hi 2 <| Ext.hi 0 <| Ext.lo <| (Ext.all _)
  have f20_5 : (encode s (.vfadd d a b p e)).extractLsb' 20 5 = d := Ext.hi 16 <| Ext.hi 14 <| Ext.hi 13 <| Ext.hi 10 <| Ext.hi 5 <| Ext.hi 0 <| Ext.lo <| (Ext.all _)
  have f15_5 : (encode s (.vfadd d a b p e)).extractLsb' 15 5 = a := Ext.hi 11 <| Ext.hi 9 <| Ext.hi 8 <| Ext.hi 5 <| Ext.hi 0 <| Ext.lo <| (Ext.all _)
  have f10_5 : (encode s (.vfadd d a b p e)).extractLsb' 10 5 = b := Ext.hi 6 <| Ext.hi 4 <| Ext.hi 3 <| Ext.hi 0 <| Ext.lo <| (Ext.all _)
  have f7_3 : (encode s (.vfadd d a b p e)).extractLsb' 7 3 = p := Ext.hi 3 <| Ext.hi 1 <| Ext.hi 0 <| Ext.lo <| (Ext.all _)
  have f4_2 : (encode s (.vfadd d a b p e)).extractLsb' 4 2 = e := Ext.hi 0 <| Ext.lo <| (Ext.all _)
  have f31 : (encode s (.vfadd d a b p e)).getLsbD 31 = s := Ext.marker (Ext.hi 27 <| Ext.hi 25 <| Ext.hi 24 <| Ext.hi 21 <| Ext.hi 16 <| Ext.hi 11 <| Ext.hi 6 <| Ext.hi 0 <| (Ext.all _))
  generalize encode s (.vfadd d a b p e) = w at *
  refine decode_of f25_6 (by decide) (by decide) f31 ?_ hwf
  have h1 : decodeMajor w = decodeVf w := by rw [decodeMajor, f25_6]; rfl
  have h2 : decodeVf w = fixedAt w 6 1 0 (pure (.vfadd (w.extractLsb' 20 5) (w.extractLsb' 15 5) (w.extractLsb' 10 5) (w.extractLsb' 7 3) (w.extractLsb' 4 2))) := by rw [decodeVf, f0_4]; rfl
  rw [h1, h2, fixedAt_ok f6_1, f20_5, f15_5, f10_5, f7_3, f4_2]; rfl
theorem vfsub (d : BitVec 5) (a : BitVec 5) (b : BitVec 5) (p : BitVec 3) (e : BitVec 2) : Statement (.vfsub d a b p e) := by
  intro s hwf
  have f25_6 : (encode s (.vfsub d a b p e)).extractLsb' 25 6 = 0x1A#6 := Ext.hi 21 <| Ext.hi 19 <| Ext.hi 18 <| Ext.hi 15 <| Ext.hi 10 <| Ext.hi 5 <| Ext.hi 0 <| Ext.lo <| (Ext.all _)
  have f0_4 : (encode s (.vfsub d a b p e)).extractLsb' 0 4 = 1#4 := Ext.lo <| (Ext.all _)
  have f6_1 : (encode s (.vfsub d a b p e)).extractLsb' 6 1 = 0#1 := Ext.hi 2 <| Ext.hi 0 <| Ext.lo <| (Ext.all _)
  have f20_5 : (encode s (.vfsub d a b p e)).extractLsb' 20 5 = d := Ext.hi 16 <| Ext.hi 14 <| Ext.hi 13 <| Ext.hi 10 <| Ext.hi 5 <| Ext.hi 0 <| Ext.lo <| (Ext.all _)
  have f15_5 : (encode s (.vfsub d a b p e)).extractLsb' 15 5 = a := Ext.hi 11 <| Ext.hi 9 <| Ext.hi 8 <| Ext.hi 5 <| Ext.hi 0 <| Ext.lo <| (Ext.all _)
  have f10_5 : (encode s (.vfsub d a b p e)).extractLsb' 10 5 = b := Ext.hi 6 <| Ext.hi 4 <| Ext.hi 3 <| Ext.hi 0 <| Ext.lo <| (Ext.all _)
  have f7_3 : (encode s (.vfsub d a b p e)).extractLsb' 7 3 = p := Ext.hi 3 <| Ext.hi 1 <| Ext.hi 0 <| Ext.lo <| (Ext.all _)
  have f4_2 : (encode s (.vfsub d a b p e)).extractLsb' 4 2 = e := Ext.hi 0 <| Ext.lo <| (Ext.all _)
  have f31 : (encode s (.vfsub d a b p e)).getLsbD 31 = s := Ext.marker (Ext.hi 27 <| Ext.hi 25 <| Ext.hi 24 <| Ext.hi 21 <| Ext.hi 16 <| Ext.hi 11 <| Ext.hi 6 <| Ext.hi 0 <| (Ext.all _))
  generalize encode s (.vfsub d a b p e) = w at *
  refine decode_of f25_6 (by decide) (by decide) f31 ?_ hwf
  have h1 : decodeMajor w = decodeVf w := by rw [decodeMajor, f25_6]; rfl
  have h2 : decodeVf w = fixedAt w 6 1 0 (pure (.vfsub (w.extractLsb' 20 5) (w.extractLsb' 15 5) (w.extractLsb' 10 5) (w.extractLsb' 7 3) (w.extractLsb' 4 2))) := by rw [decodeVf, f0_4]; rfl
  rw [h1, h2, fixedAt_ok f6_1, f20_5, f15_5, f10_5, f7_3, f4_2]; rfl
theorem vfmul (d : BitVec 5) (a : BitVec 5) (b : BitVec 5) (p : BitVec 3) (e : BitVec 2) : Statement (.vfmul d a b p e) := by
  intro s hwf
  have f25_6 : (encode s (.vfmul d a b p e)).extractLsb' 25 6 = 0x1A#6 := Ext.hi 21 <| Ext.hi 19 <| Ext.hi 18 <| Ext.hi 15 <| Ext.hi 10 <| Ext.hi 5 <| Ext.hi 0 <| Ext.lo <| (Ext.all _)
  have f0_4 : (encode s (.vfmul d a b p e)).extractLsb' 0 4 = 2#4 := Ext.lo <| (Ext.all _)
  have f6_1 : (encode s (.vfmul d a b p e)).extractLsb' 6 1 = 0#1 := Ext.hi 2 <| Ext.hi 0 <| Ext.lo <| (Ext.all _)
  have f20_5 : (encode s (.vfmul d a b p e)).extractLsb' 20 5 = d := Ext.hi 16 <| Ext.hi 14 <| Ext.hi 13 <| Ext.hi 10 <| Ext.hi 5 <| Ext.hi 0 <| Ext.lo <| (Ext.all _)
  have f15_5 : (encode s (.vfmul d a b p e)).extractLsb' 15 5 = a := Ext.hi 11 <| Ext.hi 9 <| Ext.hi 8 <| Ext.hi 5 <| Ext.hi 0 <| Ext.lo <| (Ext.all _)
  have f10_5 : (encode s (.vfmul d a b p e)).extractLsb' 10 5 = b := Ext.hi 6 <| Ext.hi 4 <| Ext.hi 3 <| Ext.hi 0 <| Ext.lo <| (Ext.all _)
  have f7_3 : (encode s (.vfmul d a b p e)).extractLsb' 7 3 = p := Ext.hi 3 <| Ext.hi 1 <| Ext.hi 0 <| Ext.lo <| (Ext.all _)
  have f4_2 : (encode s (.vfmul d a b p e)).extractLsb' 4 2 = e := Ext.hi 0 <| Ext.lo <| (Ext.all _)
  have f31 : (encode s (.vfmul d a b p e)).getLsbD 31 = s := Ext.marker (Ext.hi 27 <| Ext.hi 25 <| Ext.hi 24 <| Ext.hi 21 <| Ext.hi 16 <| Ext.hi 11 <| Ext.hi 6 <| Ext.hi 0 <| (Ext.all _))
  generalize encode s (.vfmul d a b p e) = w at *
  refine decode_of f25_6 (by decide) (by decide) f31 ?_ hwf
  have h1 : decodeMajor w = decodeVf w := by rw [decodeMajor, f25_6]; rfl
  have h2 : decodeVf w = fixedAt w 6 1 0 (pure (.vfmul (w.extractLsb' 20 5) (w.extractLsb' 15 5) (w.extractLsb' 10 5) (w.extractLsb' 7 3) (w.extractLsb' 4 2))) := by rw [decodeVf, f0_4]; rfl
  rw [h1, h2, fixedAt_ok f6_1, f20_5, f15_5, f10_5, f7_3, f4_2]; rfl
theorem vfma (d : BitVec 5) (a : BitVec 5) (b : BitVec 5) (p : BitVec 3) (e : BitVec 2) : Statement (.vfma d a b p e) := by
  intro s hwf
  have f25_6 : (encode s (.vfma d a b p e)).extractLsb' 25 6 = 0x1A#6 := Ext.hi 21 <| Ext.hi 19 <| Ext.hi 18 <| Ext.hi 15 <| Ext.hi 10 <| Ext.hi 5 <| Ext.hi 0 <| Ext.lo <| (Ext.all _)
  have f0_4 : (encode s (.vfma d a b p e)).extractLsb' 0 4 = 3#4 := Ext.lo <| (Ext.all _)
  have f6_1 : (encode s (.vfma d a b p e)).extractLsb' 6 1 = 0#1 := Ext.hi 2 <| Ext.hi 0 <| Ext.lo <| (Ext.all _)
  have f20_5 : (encode s (.vfma d a b p e)).extractLsb' 20 5 = d := Ext.hi 16 <| Ext.hi 14 <| Ext.hi 13 <| Ext.hi 10 <| Ext.hi 5 <| Ext.hi 0 <| Ext.lo <| (Ext.all _)
  have f15_5 : (encode s (.vfma d a b p e)).extractLsb' 15 5 = a := Ext.hi 11 <| Ext.hi 9 <| Ext.hi 8 <| Ext.hi 5 <| Ext.hi 0 <| Ext.lo <| (Ext.all _)
  have f10_5 : (encode s (.vfma d a b p e)).extractLsb' 10 5 = b := Ext.hi 6 <| Ext.hi 4 <| Ext.hi 3 <| Ext.hi 0 <| Ext.lo <| (Ext.all _)
  have f7_3 : (encode s (.vfma d a b p e)).extractLsb' 7 3 = p := Ext.hi 3 <| Ext.hi 1 <| Ext.hi 0 <| Ext.lo <| (Ext.all _)
  have f4_2 : (encode s (.vfma d a b p e)).extractLsb' 4 2 = e := Ext.hi 0 <| Ext.lo <| (Ext.all _)
  have f31 : (encode s (.vfma d a b p e)).getLsbD 31 = s := Ext.marker (Ext.hi 27 <| Ext.hi 25 <| Ext.hi 24 <| Ext.hi 21 <| Ext.hi 16 <| Ext.hi 11 <| Ext.hi 6 <| Ext.hi 0 <| (Ext.all _))
  generalize encode s (.vfma d a b p e) = w at *
  refine decode_of f25_6 (by decide) (by decide) f31 ?_ hwf
  have h1 : decodeMajor w = decodeVf w := by rw [decodeMajor, f25_6]; rfl
  have h2 : decodeVf w = fixedAt w 6 1 0 (pure (.vfma (w.extractLsb' 20 5) (w.extractLsb' 15 5) (w.extractLsb' 10 5) (w.extractLsb' 7 3) (w.extractLsb' 4 2))) := by rw [decodeVf, f0_4]; rfl
  rw [h1, h2, fixedAt_ok f6_1, f20_5, f15_5, f10_5, f7_3, f4_2]; rfl
theorem vfms (d : BitVec 5) (a : BitVec 5) (b : BitVec 5) (p : BitVec 3) (e : BitVec 2) : Statement (.vfms d a b p e) := by
  intro s hwf
  have f25_6 : (encode s (.vfms d a b p e)).extractLsb' 25 6 = 0x1A#6 := Ext.hi 21 <| Ext.hi 19 <| Ext.hi 18 <| Ext.hi 15 <| Ext.hi 10 <| Ext.hi 5 <| Ext.hi 0 <| Ext.lo <| (Ext.all _)
  have f0_4 : (encode s (.vfms d a b p e)).extractLsb' 0 4 = 4#4 := Ext.lo <| (Ext.all _)
  have f6_1 : (encode s (.vfms d a b p e)).extractLsb' 6 1 = 0#1 := Ext.hi 2 <| Ext.hi 0 <| Ext.lo <| (Ext.all _)
  have f20_5 : (encode s (.vfms d a b p e)).extractLsb' 20 5 = d := Ext.hi 16 <| Ext.hi 14 <| Ext.hi 13 <| Ext.hi 10 <| Ext.hi 5 <| Ext.hi 0 <| Ext.lo <| (Ext.all _)
  have f15_5 : (encode s (.vfms d a b p e)).extractLsb' 15 5 = a := Ext.hi 11 <| Ext.hi 9 <| Ext.hi 8 <| Ext.hi 5 <| Ext.hi 0 <| Ext.lo <| (Ext.all _)
  have f10_5 : (encode s (.vfms d a b p e)).extractLsb' 10 5 = b := Ext.hi 6 <| Ext.hi 4 <| Ext.hi 3 <| Ext.hi 0 <| Ext.lo <| (Ext.all _)
  have f7_3 : (encode s (.vfms d a b p e)).extractLsb' 7 3 = p := Ext.hi 3 <| Ext.hi 1 <| Ext.hi 0 <| Ext.lo <| (Ext.all _)
  have f4_2 : (encode s (.vfms d a b p e)).extractLsb' 4 2 = e := Ext.hi 0 <| Ext.lo <| (Ext.all _)
  have f31 : (encode s (.vfms d a b p e)).getLsbD 31 = s := Ext.marker (Ext.hi 27 <| Ext.hi 25 <| Ext.hi 24 <| Ext.hi 21 <| Ext.hi 16 <| Ext.hi 11 <| Ext.hi 6 <| Ext.hi 0 <| (Ext.all _))
  generalize encode s (.vfms d a b p e) = w at *
  refine decode_of f25_6 (by decide) (by decide) f31 ?_ hwf
  have h1 : decodeMajor w = decodeVf w := by rw [decodeMajor, f25_6]; rfl
  have h2 : decodeVf w = fixedAt w 6 1 0 (pure (.vfms (w.extractLsb' 20 5) (w.extractLsb' 15 5) (w.extractLsb' 10 5) (w.extractLsb' 7 3) (w.extractLsb' 4 2))) := by rw [decodeVf, f0_4]; rfl
  rw [h1, h2, fixedAt_ok f6_1, f20_5, f15_5, f10_5, f7_3, f4_2]; rfl
theorem vfnma (d : BitVec 5) (a : BitVec 5) (b : BitVec 5) (p : BitVec 3) (e : BitVec 2) : Statement (.vfnma d a b p e) := by
  intro s hwf
  have f25_6 : (encode s (.vfnma d a b p e)).extractLsb' 25 6 = 0x1A#6 := Ext.hi 21 <| Ext.hi 19 <| Ext.hi 18 <| Ext.hi 15 <| Ext.hi 10 <| Ext.hi 5 <| Ext.hi 0 <| Ext.lo <| (Ext.all _)
  have f0_4 : (encode s (.vfnma d a b p e)).extractLsb' 0 4 = 5#4 := Ext.lo <| (Ext.all _)
  have f6_1 : (encode s (.vfnma d a b p e)).extractLsb' 6 1 = 0#1 := Ext.hi 2 <| Ext.hi 0 <| Ext.lo <| (Ext.all _)
  have f20_5 : (encode s (.vfnma d a b p e)).extractLsb' 20 5 = d := Ext.hi 16 <| Ext.hi 14 <| Ext.hi 13 <| Ext.hi 10 <| Ext.hi 5 <| Ext.hi 0 <| Ext.lo <| (Ext.all _)
  have f15_5 : (encode s (.vfnma d a b p e)).extractLsb' 15 5 = a := Ext.hi 11 <| Ext.hi 9 <| Ext.hi 8 <| Ext.hi 5 <| Ext.hi 0 <| Ext.lo <| (Ext.all _)
  have f10_5 : (encode s (.vfnma d a b p e)).extractLsb' 10 5 = b := Ext.hi 6 <| Ext.hi 4 <| Ext.hi 3 <| Ext.hi 0 <| Ext.lo <| (Ext.all _)
  have f7_3 : (encode s (.vfnma d a b p e)).extractLsb' 7 3 = p := Ext.hi 3 <| Ext.hi 1 <| Ext.hi 0 <| Ext.lo <| (Ext.all _)
  have f4_2 : (encode s (.vfnma d a b p e)).extractLsb' 4 2 = e := Ext.hi 0 <| Ext.lo <| (Ext.all _)
  have f31 : (encode s (.vfnma d a b p e)).getLsbD 31 = s := Ext.marker (Ext.hi 27 <| Ext.hi 25 <| Ext.hi 24 <| Ext.hi 21 <| Ext.hi 16 <| Ext.hi 11 <| Ext.hi 6 <| Ext.hi 0 <| (Ext.all _))
  generalize encode s (.vfnma d a b p e) = w at *
  refine decode_of f25_6 (by decide) (by decide) f31 ?_ hwf
  have h1 : decodeMajor w = decodeVf w := by rw [decodeMajor, f25_6]; rfl
  have h2 : decodeVf w = fixedAt w 6 1 0 (pure (.vfnma (w.extractLsb' 20 5) (w.extractLsb' 15 5) (w.extractLsb' 10 5) (w.extractLsb' 7 3) (w.extractLsb' 4 2))) := by rw [decodeVf, f0_4]; rfl
  rw [h1, h2, fixedAt_ok f6_1, f20_5, f15_5, f10_5, f7_3, f4_2]; rfl
theorem vfdiv (d : BitVec 5) (a : BitVec 5) (b : BitVec 5) (p : BitVec 3) (e : BitVec 2) : Statement (.vfdiv d a b p e) := by
  intro s hwf
  have f25_6 : (encode s (.vfdiv d a b p e)).extractLsb' 25 6 = 0x1A#6 := Ext.hi 21 <| Ext.hi 19 <| Ext.hi 18 <| Ext.hi 15 <| Ext.hi 10 <| Ext.hi 5 <| Ext.hi 0 <| Ext.lo <| (Ext.all _)
  have f0_4 : (encode s (.vfdiv d a b p e)).extractLsb' 0 4 = 6#4 := Ext.lo <| (Ext.all _)
  have f6_1 : (encode s (.vfdiv d a b p e)).extractLsb' 6 1 = 0#1 := Ext.hi 2 <| Ext.hi 0 <| Ext.lo <| (Ext.all _)
  have f20_5 : (encode s (.vfdiv d a b p e)).extractLsb' 20 5 = d := Ext.hi 16 <| Ext.hi 14 <| Ext.hi 13 <| Ext.hi 10 <| Ext.hi 5 <| Ext.hi 0 <| Ext.lo <| (Ext.all _)
  have f15_5 : (encode s (.vfdiv d a b p e)).extractLsb' 15 5 = a := Ext.hi 11 <| Ext.hi 9 <| Ext.hi 8 <| Ext.hi 5 <| Ext.hi 0 <| Ext.lo <| (Ext.all _)
  have f10_5 : (encode s (.vfdiv d a b p e)).extractLsb' 10 5 = b := Ext.hi 6 <| Ext.hi 4 <| Ext.hi 3 <| Ext.hi 0 <| Ext.lo <| (Ext.all _)
  have f7_3 : (encode s (.vfdiv d a b p e)).extractLsb' 7 3 = p := Ext.hi 3 <| Ext.hi 1 <| Ext.hi 0 <| Ext.lo <| (Ext.all _)
  have f4_2 : (encode s (.vfdiv d a b p e)).extractLsb' 4 2 = e := Ext.hi 0 <| Ext.lo <| (Ext.all _)
  have f31 : (encode s (.vfdiv d a b p e)).getLsbD 31 = s := Ext.marker (Ext.hi 27 <| Ext.hi 25 <| Ext.hi 24 <| Ext.hi 21 <| Ext.hi 16 <| Ext.hi 11 <| Ext.hi 6 <| Ext.hi 0 <| (Ext.all _))
  generalize encode s (.vfdiv d a b p e) = w at *
  refine decode_of f25_6 (by decide) (by decide) f31 ?_ hwf
  have h1 : decodeMajor w = decodeVf w := by rw [decodeMajor, f25_6]; rfl
  have h2 : decodeVf w = fixedAt w 6 1 0 (pure (.vfdiv (w.extractLsb' 20 5) (w.extractLsb' 15 5) (w.extractLsb' 10 5) (w.extractLsb' 7 3) (w.extractLsb' 4 2))) := by rw [decodeVf, f0_4]; rfl
  rw [h1, h2, fixedAt_ok f6_1, f20_5, f15_5, f10_5, f7_3, f4_2]; rfl
theorem vfsqrt (d : BitVec 5) (a : BitVec 5) (p : BitVec 3) (e : BitVec 2) : Statement (.vfsqrt d a p e) := by
  intro s hwf
  have f25_6 : (encode s (.vfsqrt d a p e)).extractLsb' 25 6 = 0x1A#6 := Ext.hi 21 <| Ext.hi 19 <| Ext.hi 18 <| Ext.hi 15 <| Ext.hi 10 <| Ext.hi 5 <| Ext.hi 0 <| Ext.lo <| (Ext.all _)
  have f0_4 : (encode s (.vfsqrt d a p e)).extractLsb' 0 4 = 7#4 := Ext.lo <| (Ext.all _)
  have f10_5 : (encode s (.vfsqrt d a p e)).extractLsb' 10 5 = 0#5 := Ext.hi 6 <| Ext.hi 4 <| Ext.hi 3 <| Ext.hi 0 <| Ext.lo <| (Ext.all _)
  have f6_1 : (encode s (.vfsqrt d a p e)).extractLsb' 6 1 = 0#1 := Ext.hi 2 <| Ext.hi 0 <| Ext.lo <| (Ext.all _)
  have f20_5 : (encode s (.vfsqrt d a p e)).extractLsb' 20 5 = d := Ext.hi 16 <| Ext.hi 14 <| Ext.hi 13 <| Ext.hi 10 <| Ext.hi 5 <| Ext.hi 0 <| Ext.lo <| (Ext.all _)
  have f15_5 : (encode s (.vfsqrt d a p e)).extractLsb' 15 5 = a := Ext.hi 11 <| Ext.hi 9 <| Ext.hi 8 <| Ext.hi 5 <| Ext.hi 0 <| Ext.lo <| (Ext.all _)
  have f7_3 : (encode s (.vfsqrt d a p e)).extractLsb' 7 3 = p := Ext.hi 3 <| Ext.hi 1 <| Ext.hi 0 <| Ext.lo <| (Ext.all _)
  have f4_2 : (encode s (.vfsqrt d a p e)).extractLsb' 4 2 = e := Ext.hi 0 <| Ext.lo <| (Ext.all _)
  have f31 : (encode s (.vfsqrt d a p e)).getLsbD 31 = s := Ext.marker (Ext.hi 27 <| Ext.hi 25 <| Ext.hi 24 <| Ext.hi 21 <| Ext.hi 16 <| Ext.hi 11 <| Ext.hi 6 <| Ext.hi 0 <| (Ext.all _))
  generalize encode s (.vfsqrt d a p e) = w at *
  refine decode_of f25_6 (by decide) (by decide) f31 ?_ hwf
  have h1 : decodeMajor w = decodeVf w := by rw [decodeMajor, f25_6]; rfl
  have h2 : decodeVf w = fixedAt w 10 5 0 (fixedAt w 6 1 0 (pure (.vfsqrt (w.extractLsb' 20 5) (w.extractLsb' 15 5) (w.extractLsb' 7 3) (w.extractLsb' 4 2)))) := by rw [decodeVf, f0_4]; rfl
  rw [h1, h2, fixedAt_ok f10_5, fixedAt_ok f6_1, f20_5, f15_5, f7_3, f4_2]; rfl
theorem vfmin (d : BitVec 5) (a : BitVec 5) (b : BitVec 5) (p : BitVec 3) (e : BitVec 2) : Statement (.vfmin d a b p e) := by
  intro s hwf
  have f25_6 : (encode s (.vfmin d a b p e)).extractLsb' 25 6 = 0x1A#6 := Ext.hi 21 <| Ext.hi 19 <| Ext.hi 18 <| Ext.hi 15 <| Ext.hi 10 <| Ext.hi 5 <| Ext.hi 0 <| Ext.lo <| (Ext.all _)
  have f0_4 : (encode s (.vfmin d a b p e)).extractLsb' 0 4 = 8#4 := Ext.lo <| (Ext.all _)
  have f6_1 : (encode s (.vfmin d a b p e)).extractLsb' 6 1 = 0#1 := Ext.hi 2 <| Ext.hi 0 <| Ext.lo <| (Ext.all _)
  have f20_5 : (encode s (.vfmin d a b p e)).extractLsb' 20 5 = d := Ext.hi 16 <| Ext.hi 14 <| Ext.hi 13 <| Ext.hi 10 <| Ext.hi 5 <| Ext.hi 0 <| Ext.lo <| (Ext.all _)
  have f15_5 : (encode s (.vfmin d a b p e)).extractLsb' 15 5 = a := Ext.hi 11 <| Ext.hi 9 <| Ext.hi 8 <| Ext.hi 5 <| Ext.hi 0 <| Ext.lo <| (Ext.all _)
  have f10_5 : (encode s (.vfmin d a b p e)).extractLsb' 10 5 = b := Ext.hi 6 <| Ext.hi 4 <| Ext.hi 3 <| Ext.hi 0 <| Ext.lo <| (Ext.all _)
  have f7_3 : (encode s (.vfmin d a b p e)).extractLsb' 7 3 = p := Ext.hi 3 <| Ext.hi 1 <| Ext.hi 0 <| Ext.lo <| (Ext.all _)
  have f4_2 : (encode s (.vfmin d a b p e)).extractLsb' 4 2 = e := Ext.hi 0 <| Ext.lo <| (Ext.all _)
  have f31 : (encode s (.vfmin d a b p e)).getLsbD 31 = s := Ext.marker (Ext.hi 27 <| Ext.hi 25 <| Ext.hi 24 <| Ext.hi 21 <| Ext.hi 16 <| Ext.hi 11 <| Ext.hi 6 <| Ext.hi 0 <| (Ext.all _))
  generalize encode s (.vfmin d a b p e) = w at *
  refine decode_of f25_6 (by decide) (by decide) f31 ?_ hwf
  have h1 : decodeMajor w = decodeVf w := by rw [decodeMajor, f25_6]; rfl
  have h2 : decodeVf w = fixedAt w 6 1 0 (pure (.vfmin (w.extractLsb' 20 5) (w.extractLsb' 15 5) (w.extractLsb' 10 5) (w.extractLsb' 7 3) (w.extractLsb' 4 2))) := by rw [decodeVf, f0_4]; rfl
  rw [h1, h2, fixedAt_ok f6_1, f20_5, f15_5, f10_5, f7_3, f4_2]; rfl
theorem vfmax (d : BitVec 5) (a : BitVec 5) (b : BitVec 5) (p : BitVec 3) (e : BitVec 2) : Statement (.vfmax d a b p e) := by
  intro s hwf
  have f25_6 : (encode s (.vfmax d a b p e)).extractLsb' 25 6 = 0x1A#6 := Ext.hi 21 <| Ext.hi 19 <| Ext.hi 18 <| Ext.hi 15 <| Ext.hi 10 <| Ext.hi 5 <| Ext.hi 0 <| Ext.lo <| (Ext.all _)
  have f0_4 : (encode s (.vfmax d a b p e)).extractLsb' 0 4 = 9#4 := Ext.lo <| (Ext.all _)
  have f6_1 : (encode s (.vfmax d a b p e)).extractLsb' 6 1 = 0#1 := Ext.hi 2 <| Ext.hi 0 <| Ext.lo <| (Ext.all _)
  have f20_5 : (encode s (.vfmax d a b p e)).extractLsb' 20 5 = d := Ext.hi 16 <| Ext.hi 14 <| Ext.hi 13 <| Ext.hi 10 <| Ext.hi 5 <| Ext.hi 0 <| Ext.lo <| (Ext.all _)
  have f15_5 : (encode s (.vfmax d a b p e)).extractLsb' 15 5 = a := Ext.hi 11 <| Ext.hi 9 <| Ext.hi 8 <| Ext.hi 5 <| Ext.hi 0 <| Ext.lo <| (Ext.all _)
  have f10_5 : (encode s (.vfmax d a b p e)).extractLsb' 10 5 = b := Ext.hi 6 <| Ext.hi 4 <| Ext.hi 3 <| Ext.hi 0 <| Ext.lo <| (Ext.all _)
  have f7_3 : (encode s (.vfmax d a b p e)).extractLsb' 7 3 = p := Ext.hi 3 <| Ext.hi 1 <| Ext.hi 0 <| Ext.lo <| (Ext.all _)
  have f4_2 : (encode s (.vfmax d a b p e)).extractLsb' 4 2 = e := Ext.hi 0 <| Ext.lo <| (Ext.all _)
  have f31 : (encode s (.vfmax d a b p e)).getLsbD 31 = s := Ext.marker (Ext.hi 27 <| Ext.hi 25 <| Ext.hi 24 <| Ext.hi 21 <| Ext.hi 16 <| Ext.hi 11 <| Ext.hi 6 <| Ext.hi 0 <| (Ext.all _))
  generalize encode s (.vfmax d a b p e) = w at *
  refine decode_of f25_6 (by decide) (by decide) f31 ?_ hwf
  have h1 : decodeMajor w = decodeVf w := by rw [decodeMajor, f25_6]; rfl
  have h2 : decodeVf w = fixedAt w 6 1 0 (pure (.vfmax (w.extractLsb' 20 5) (w.extractLsb' 15 5) (w.extractLsb' 10 5) (w.extractLsb' 7 3) (w.extractLsb' 4 2))) := by rw [decodeVf, f0_4]; rfl
  rw [h1, h2, fixedAt_ok f6_1, f20_5, f15_5, f10_5, f7_3, f4_2]; rfl
theorem vfabs (d : BitVec 5) (a : BitVec 5) (p : BitVec 3) (e : BitVec 2) : Statement (.vfabs d a p e) := by
  intro s hwf
  have f25_6 : (encode s (.vfabs d a p e)).extractLsb' 25 6 = 0x1A#6 := Ext.hi 21 <| Ext.hi 19 <| Ext.hi 18 <| Ext.hi 15 <| Ext.hi 10 <| Ext.hi 5 <| Ext.hi 0 <| Ext.lo <| (Ext.all _)
  have f0_4 : (encode s (.vfabs d a p e)).extractLsb' 0 4 = 10#4 := Ext.lo <| (Ext.all _)
  have f10_5 : (encode s (.vfabs d a p e)).extractLsb' 10 5 = 0#5 := Ext.hi 6 <| Ext.hi 4 <| Ext.hi 3 <| Ext.hi 0 <| Ext.lo <| (Ext.all _)
  have f6_1 : (encode s (.vfabs d a p e)).extractLsb' 6 1 = 0#1 := Ext.hi 2 <| Ext.hi 0 <| Ext.lo <| (Ext.all _)
  have f20_5 : (encode s (.vfabs d a p e)).extractLsb' 20 5 = d := Ext.hi 16 <| Ext.hi 14 <| Ext.hi 13 <| Ext.hi 10 <| Ext.hi 5 <| Ext.hi 0 <| Ext.lo <| (Ext.all _)
  have f15_5 : (encode s (.vfabs d a p e)).extractLsb' 15 5 = a := Ext.hi 11 <| Ext.hi 9 <| Ext.hi 8 <| Ext.hi 5 <| Ext.hi 0 <| Ext.lo <| (Ext.all _)
  have f7_3 : (encode s (.vfabs d a p e)).extractLsb' 7 3 = p := Ext.hi 3 <| Ext.hi 1 <| Ext.hi 0 <| Ext.lo <| (Ext.all _)
  have f4_2 : (encode s (.vfabs d a p e)).extractLsb' 4 2 = e := Ext.hi 0 <| Ext.lo <| (Ext.all _)
  have f31 : (encode s (.vfabs d a p e)).getLsbD 31 = s := Ext.marker (Ext.hi 27 <| Ext.hi 25 <| Ext.hi 24 <| Ext.hi 21 <| Ext.hi 16 <| Ext.hi 11 <| Ext.hi 6 <| Ext.hi 0 <| (Ext.all _))
  generalize encode s (.vfabs d a p e) = w at *
  refine decode_of f25_6 (by decide) (by decide) f31 ?_ hwf
  have h1 : decodeMajor w = decodeVf w := by rw [decodeMajor, f25_6]; rfl
  have h2 : decodeVf w = fixedAt w 10 5 0 (fixedAt w 6 1 0 (pure (.vfabs (w.extractLsb' 20 5) (w.extractLsb' 15 5) (w.extractLsb' 7 3) (w.extractLsb' 4 2)))) := by rw [decodeVf, f0_4]; rfl
  rw [h1, h2, fixedAt_ok f10_5, fixedAt_ok f6_1, f20_5, f15_5, f7_3, f4_2]; rfl
theorem vfneg (d : BitVec 5) (a : BitVec 5) (p : BitVec 3) (e : BitVec 2) : Statement (.vfneg d a p e) := by
  intro s hwf
  have f25_6 : (encode s (.vfneg d a p e)).extractLsb' 25 6 = 0x1A#6 := Ext.hi 21 <| Ext.hi 19 <| Ext.hi 18 <| Ext.hi 15 <| Ext.hi 10 <| Ext.hi 5 <| Ext.hi 0 <| Ext.lo <| (Ext.all _)
  have f0_4 : (encode s (.vfneg d a p e)).extractLsb' 0 4 = 11#4 := Ext.lo <| (Ext.all _)
  have f10_5 : (encode s (.vfneg d a p e)).extractLsb' 10 5 = 0#5 := Ext.hi 6 <| Ext.hi 4 <| Ext.hi 3 <| Ext.hi 0 <| Ext.lo <| (Ext.all _)
  have f6_1 : (encode s (.vfneg d a p e)).extractLsb' 6 1 = 0#1 := Ext.hi 2 <| Ext.hi 0 <| Ext.lo <| (Ext.all _)
  have f20_5 : (encode s (.vfneg d a p e)).extractLsb' 20 5 = d := Ext.hi 16 <| Ext.hi 14 <| Ext.hi 13 <| Ext.hi 10 <| Ext.hi 5 <| Ext.hi 0 <| Ext.lo <| (Ext.all _)
  have f15_5 : (encode s (.vfneg d a p e)).extractLsb' 15 5 = a := Ext.hi 11 <| Ext.hi 9 <| Ext.hi 8 <| Ext.hi 5 <| Ext.hi 0 <| Ext.lo <| (Ext.all _)
  have f7_3 : (encode s (.vfneg d a p e)).extractLsb' 7 3 = p := Ext.hi 3 <| Ext.hi 1 <| Ext.hi 0 <| Ext.lo <| (Ext.all _)
  have f4_2 : (encode s (.vfneg d a p e)).extractLsb' 4 2 = e := Ext.hi 0 <| Ext.lo <| (Ext.all _)
  have f31 : (encode s (.vfneg d a p e)).getLsbD 31 = s := Ext.marker (Ext.hi 27 <| Ext.hi 25 <| Ext.hi 24 <| Ext.hi 21 <| Ext.hi 16 <| Ext.hi 11 <| Ext.hi 6 <| Ext.hi 0 <| (Ext.all _))
  generalize encode s (.vfneg d a p e) = w at *
  refine decode_of f25_6 (by decide) (by decide) f31 ?_ hwf
  have h1 : decodeMajor w = decodeVf w := by rw [decodeMajor, f25_6]; rfl
  have h2 : decodeVf w = fixedAt w 10 5 0 (fixedAt w 6 1 0 (pure (.vfneg (w.extractLsb' 20 5) (w.extractLsb' 15 5) (w.extractLsb' 7 3) (w.extractLsb' 4 2)))) := by rw [decodeVf, f0_4]; rfl
  rw [h1, h2, fixedAt_ok f10_5, fixedAt_ok f6_1, f20_5, f15_5, f7_3, f4_2]; rfl
theorem vfexp2 (d : BitVec 5) (a : BitVec 5) (p : BitVec 3) (e : BitVec 2) : Statement (.vfexp2 d a p e) := by
  intro s hwf
  have f25_6 : (encode s (.vfexp2 d a p e)).extractLsb' 25 6 = 0x1A#6 := Ext.hi 21 <| Ext.hi 19 <| Ext.hi 18 <| Ext.hi 15 <| Ext.hi 10 <| Ext.hi 5 <| Ext.hi 0 <| Ext.lo <| (Ext.all _)
  have f0_4 : (encode s (.vfexp2 d a p e)).extractLsb' 0 4 = 12#4 := Ext.lo <| (Ext.all _)
  have f10_5 : (encode s (.vfexp2 d a p e)).extractLsb' 10 5 = 0#5 := Ext.hi 6 <| Ext.hi 4 <| Ext.hi 3 <| Ext.hi 0 <| Ext.lo <| (Ext.all _)
  have f6_1 : (encode s (.vfexp2 d a p e)).extractLsb' 6 1 = 0#1 := Ext.hi 2 <| Ext.hi 0 <| Ext.lo <| (Ext.all _)
  have f20_5 : (encode s (.vfexp2 d a p e)).extractLsb' 20 5 = d := Ext.hi 16 <| Ext.hi 14 <| Ext.hi 13 <| Ext.hi 10 <| Ext.hi 5 <| Ext.hi 0 <| Ext.lo <| (Ext.all _)
  have f15_5 : (encode s (.vfexp2 d a p e)).extractLsb' 15 5 = a := Ext.hi 11 <| Ext.hi 9 <| Ext.hi 8 <| Ext.hi 5 <| Ext.hi 0 <| Ext.lo <| (Ext.all _)
  have f7_3 : (encode s (.vfexp2 d a p e)).extractLsb' 7 3 = p := Ext.hi 3 <| Ext.hi 1 <| Ext.hi 0 <| Ext.lo <| (Ext.all _)
  have f4_2 : (encode s (.vfexp2 d a p e)).extractLsb' 4 2 = e := Ext.hi 0 <| Ext.lo <| (Ext.all _)
  have f31 : (encode s (.vfexp2 d a p e)).getLsbD 31 = s := Ext.marker (Ext.hi 27 <| Ext.hi 25 <| Ext.hi 24 <| Ext.hi 21 <| Ext.hi 16 <| Ext.hi 11 <| Ext.hi 6 <| Ext.hi 0 <| (Ext.all _))
  generalize encode s (.vfexp2 d a p e) = w at *
  refine decode_of f25_6 (by decide) (by decide) f31 ?_ hwf
  have h1 : decodeMajor w = decodeVf w := by rw [decodeMajor, f25_6]; rfl
  have h2 : decodeVf w = fixedAt w 10 5 0 (fixedAt w 6 1 0 (pure (.vfexp2 (w.extractLsb' 20 5) (w.extractLsb' 15 5) (w.extractLsb' 7 3) (w.extractLsb' 4 2)))) := by rw [decodeVf, f0_4]; rfl
  rw [h1, h2, fixedAt_ok f10_5, fixedAt_ok f6_1, f20_5, f15_5, f7_3, f4_2]; rfl
theorem vfdot2 (d : BitVec 5) (a : BitVec 5) (b : BitVec 5) (p : BitVec 3) (e : BitVec 2) : Statement (.vfdot2 d a b p e) := by
  intro s hwf
  have f25_6 : (encode s (.vfdot2 d a b p e)).extractLsb' 25 6 = 0x1A#6 := Ext.hi 21 <| Ext.hi 19 <| Ext.hi 18 <| Ext.hi 15 <| Ext.hi 10 <| Ext.hi 5 <| Ext.hi 0 <| Ext.lo <| (Ext.all _)
  have f0_4 : (encode s (.vfdot2 d a b p e)).extractLsb' 0 4 = 13#4 := Ext.lo <| (Ext.all _)
  have f6_1 : (encode s (.vfdot2 d a b p e)).extractLsb' 6 1 = 0#1 := Ext.hi 2 <| Ext.hi 0 <| Ext.lo <| (Ext.all _)
  have f20_5 : (encode s (.vfdot2 d a b p e)).extractLsb' 20 5 = d := Ext.hi 16 <| Ext.hi 14 <| Ext.hi 13 <| Ext.hi 10 <| Ext.hi 5 <| Ext.hi 0 <| Ext.lo <| (Ext.all _)
  have f15_5 : (encode s (.vfdot2 d a b p e)).extractLsb' 15 5 = a := Ext.hi 11 <| Ext.hi 9 <| Ext.hi 8 <| Ext.hi 5 <| Ext.hi 0 <| Ext.lo <| (Ext.all _)
  have f10_5 : (encode s (.vfdot2 d a b p e)).extractLsb' 10 5 = b := Ext.hi 6 <| Ext.hi 4 <| Ext.hi 3 <| Ext.hi 0 <| Ext.lo <| (Ext.all _)
  have f7_3 : (encode s (.vfdot2 d a b p e)).extractLsb' 7 3 = p := Ext.hi 3 <| Ext.hi 1 <| Ext.hi 0 <| Ext.lo <| (Ext.all _)
  have f4_2 : (encode s (.vfdot2 d a b p e)).extractLsb' 4 2 = e := Ext.hi 0 <| Ext.lo <| (Ext.all _)
  have f31 : (encode s (.vfdot2 d a b p e)).getLsbD 31 = s := Ext.marker (Ext.hi 27 <| Ext.hi 25 <| Ext.hi 24 <| Ext.hi 21 <| Ext.hi 16 <| Ext.hi 11 <| Ext.hi 6 <| Ext.hi 0 <| (Ext.all _))
  generalize encode s (.vfdot2 d a b p e) = w at *
  refine decode_of f25_6 (by decide) (by decide) f31 ?_ hwf
  have h1 : decodeMajor w = decodeVf w := by rw [decodeMajor, f25_6]; rfl
  have h2 : decodeVf w = fixedAt w 6 1 0 (pure (.vfdot2 (w.extractLsb' 20 5) (w.extractLsb' 15 5) (w.extractLsb' 10 5) (w.extractLsb' 7 3) (w.extractLsb' 4 2))) := by rw [decodeVf, f0_4]; rfl
  rw [h1, h2, fixedAt_ok f6_1, f20_5, f15_5, f10_5, f7_3, f4_2]; rfl
theorem vbcast (d : BitVec 5) (w : BitVec 2) (g : BitVec 5) (p : BitVec 3) : Statement (.vbcast d w g p) := by
  intro s hwf
  have f25_6 : (encode s (.vbcast d w g p)).extractLsb' 25 6 = 0x1B#6 := Ext.hi 23 <| Ext.hi 20 <| Ext.hi 15 <| Ext.hi 13 <| Ext.hi 5 <| Ext.hi 0 <| Ext.lo <| (Ext.all _)
  have f0_2 : (encode s (.vbcast d w g p)).extractLsb' 0 2 = 0#2 := Ext.lo <| (Ext.all _)
  have f12_8 : (encode s (.vbcast d w g p)).extractLsb' 12 8 = 0#8 := Ext.hi 10 <| Ext.hi 7 <| Ext.hi 2 <| Ext.hi 0 <| Ext.lo <| (Ext.all _)
  have f20_5 : (encode s (.vbcast d w g p)).extractLsb' 20 5 = d := Ext.hi 18 <| Ext.hi 15 <| Ext.hi 10 <| Ext.hi 8 <| Ext.hi 0 <| Ext.lo <| (Ext.all _)
  have f10_2 : (encode s (.vbcast d w g p)).extractLsb' 10 2 = w := Ext.hi 8 <| Ext.hi 5 <| Ext.hi 0 <| Ext.lo <| (Ext.all _)
  have f5_5 : (encode s (.vbcast d w g p)).extractLsb' 5 5 = g := Ext.hi 3 <| Ext.hi 0 <| Ext.lo <| (Ext.all _)
  have f2_3 : (encode s (.vbcast d w g p)).extractLsb' 2 3 = p := Ext.hi 0 <| Ext.lo <| (Ext.all _)
  have f31 : (encode s (.vbcast d w g p)).getLsbD 31 = s := Ext.marker (Ext.hi 29 <| Ext.hi 26 <| Ext.hi 21 <| Ext.hi 19 <| Ext.hi 11 <| Ext.hi 6 <| Ext.hi 0 <| (Ext.all _))
  generalize encode s (.vbcast d w g p) = w at *
  refine decode_of f25_6 (by decide) (by decide) f31 ?_ hwf
  have h1 : decodeMajor w = decodeVs w := by rw [decodeMajor, f25_6]; rfl
  have h2 : decodeVs w = fixedAt w 12 8 0 (pure (.vbcast (w.extractLsb' 20 5) (w.extractLsb' 10 2) (w.extractLsb' 5 5) (w.extractLsb' 2 3))) := by rw [decodeVs, f0_2]; rfl
  rw [h1, h2, fixedAt_ok f12_8, f20_5, f10_2, f5_5, f2_3]; rfl
theorem vfmas (d : BitVec 5) (a : BitVec 5) (g : BitVec 5) (p : BitVec 3) : Statement (.vfmas d a g p) := by
  intro s hwf
  have f25_6 : (encode s (.vfmas d a g p)).extractLsb' 25 6 = 0x1B#6 := Ext.hi 23 <| Ext.hi 20 <| Ext.hi 15 <| Ext.hi 10 <| Ext.hi 5 <| Ext.hi 0 <| Ext.lo <| (Ext.all _)
  have f0_2 : (encode s (.vfmas d a g p)).extractLsb' 0 2 = 1#2 := Ext.lo <| (Ext.all _)
  have f10_5 : (encode s (.vfmas d a g p)).extractLsb' 10 5 = 0#5 := Ext.hi 8 <| Ext.hi 5 <| Ext.hi 0 <| Ext.lo <| (Ext.all _)
  have f20_5 : (encode s (.vfmas d a g p)).extractLsb' 20 5 = d := Ext.hi 18 <| Ext.hi 15 <| Ext.hi 10 <| Ext.hi 5 <| Ext.hi 0 <| Ext.lo <| (Ext.all _)
  have f15_5 : (encode s (.vfmas d a g p)).extractLsb' 15 5 = a := Ext.hi 13 <| Ext.hi 10 <| Ext.hi 5 <| Ext.hi 0 <| Ext.lo <| (Ext.all _)
  have f5_5 : (encode s (.vfmas d a g p)).extractLsb' 5 5 = g := Ext.hi 3 <| Ext.hi 0 <| Ext.lo <| (Ext.all _)
  have f2_3 : (encode s (.vfmas d a g p)).extractLsb' 2 3 = p := Ext.hi 0 <| Ext.lo <| (Ext.all _)
  have f31 : (encode s (.vfmas d a g p)).getLsbD 31 = s := Ext.marker (Ext.hi 29 <| Ext.hi 26 <| Ext.hi 21 <| Ext.hi 16 <| Ext.hi 11 <| Ext.hi 6 <| Ext.hi 0 <| (Ext.all _))
  generalize encode s (.vfmas d a g p) = w at *
  refine decode_of f25_6 (by decide) (by decide) f31 ?_ hwf
  have h1 : decodeMajor w = decodeVs w := by rw [decodeMajor, f25_6]; rfl
  have h2 : decodeVs w = fixedAt w 10 5 0 (pure (.vfmas (w.extractLsb' 20 5) (w.extractLsb' 15 5) (w.extractLsb' 5 5) (w.extractLsb' 2 3))) := by rw [decodeVs, f0_2]; rfl
  rw [h1, h2, fixedAt_ok f10_5, f20_5, f15_5, f5_5, f2_3]; rfl
theorem vscacc (d : BitVec 5) (a : BitVec 5) (b : BitVec 5) (g : BitVec 5) (p : BitVec 3) : Statement (.vscacc d a b g p) := by
  intro s hwf
  have f25_6 : (encode s (.vscacc d a b g p)).extractLsb' 25 6 = 0x1B#6 := Ext.hi 23 <| Ext.hi 20 <| Ext.hi 15 <| Ext.hi 10 <| Ext.hi 5 <| Ext.hi 0 <| Ext.lo <| (Ext.all _)
  have f0_2 : (encode s (.vscacc d a b g p)).extractLsb' 0 2 = 2#2 := Ext.lo <| (Ext.all _)
  have f20_5 : (encode s (.vscacc d a b g p)).extractLsb' 20 5 = d := Ext.hi 18 <| Ext.hi 15 <| Ext.hi 10 <| Ext.hi 5 <| Ext.hi 0 <| Ext.lo <| (Ext.all _)
  have f15_5 : (encode s (.vscacc d a b g p)).extractLsb' 15 5 = a := Ext.hi 13 <| Ext.hi 10 <| Ext.hi 5 <| Ext.hi 0 <| Ext.lo <| (Ext.all _)
  have f10_5 : (encode s (.vscacc d a b g p)).extractLsb' 10 5 = b := Ext.hi 8 <| Ext.hi 5 <| Ext.hi 0 <| Ext.lo <| (Ext.all _)
  have f5_5 : (encode s (.vscacc d a b g p)).extractLsb' 5 5 = g := Ext.hi 3 <| Ext.hi 0 <| Ext.lo <| (Ext.all _)
  have f2_3 : (encode s (.vscacc d a b g p)).extractLsb' 2 3 = p := Ext.hi 0 <| Ext.lo <| (Ext.all _)
  have f31 : (encode s (.vscacc d a b g p)).getLsbD 31 = s := Ext.marker (Ext.hi 29 <| Ext.hi 26 <| Ext.hi 21 <| Ext.hi 16 <| Ext.hi 11 <| Ext.hi 6 <| Ext.hi 0 <| (Ext.all _))
  generalize encode s (.vscacc d a b g p) = w at *
  refine decode_of f25_6 (by decide) (by decide) f31 ?_ hwf
  have h1 : decodeMajor w = decodeVs w := by rw [decodeMajor, f25_6]; rfl
  have h2 : decodeVs w = pure (.vscacc (w.extractLsb' 20 5) (w.extractLsb' 15 5) (w.extractLsb' 10 5) (w.extractLsb' 5 5) (w.extractLsb' 2 3)) := by rw [decodeVs, f0_2]; rfl
  rw [h1, h2, f20_5, f15_5, f10_5, f5_5, f2_3]; rfl
theorem vins (d : BitVec 5) (k : BitVec 5) (g : BitVec 5) : Statement (.vins d k g) := by
  intro s hwf
  have f25_6 : (encode s (.vins d k g)).extractLsb' 25 6 = 0x1B#6 := Ext.hi 20 <| Ext.hi 15 <| Ext.hi 10 <| Ext.hi 5 <| Ext.hi 0 <| Ext.lo <| (Ext.all _)
  have f0_2 : (encode s (.vins d k g)).extractLsb' 0 2 = 3#2 := Ext.lo <| rfl
  have f10_5 : (encode s (.vins d k g)).extractLsb' 10 5 = 0#5 := Ext.hi 5 <| Ext.hi 0 <| Ext.lo <| (Ext.all _)
  have f2_3 : (encode s (.vins d k g)).extractLsb' 2 3 = 0#3 := Ext.lo <| rfl
  have f20_5 : (encode s (.vins d k g)).extractLsb' 20 5 = d := Ext.hi 15 <| Ext.hi 10 <| Ext.hi 5 <| Ext.hi 0 <| Ext.lo <| (Ext.all _)
  have f15_5 : (encode s (.vins d k g)).extractLsb' 15 5 = k := Ext.hi 10 <| Ext.hi 5 <| Ext.hi 0 <| Ext.lo <| (Ext.all _)
  have f5_5 : (encode s (.vins d k g)).extractLsb' 5 5 = g := Ext.hi 0 <| Ext.lo <| (Ext.all _)
  have f31 : (encode s (.vins d k g)).getLsbD 31 = s := Ext.marker (Ext.hi 26 <| Ext.hi 21 <| Ext.hi 16 <| Ext.hi 11 <| Ext.hi 6 <| Ext.hi 0 <| (Ext.all _))
  generalize encode s (.vins d k g) = w at *
  refine decode_of f25_6 (by decide) (by decide) f31 ?_ hwf
  have h1 : decodeMajor w = decodeVs w := by rw [decodeMajor, f25_6]; rfl
  have h2 : decodeVs w = fixedAt w 10 5 0 (fixedAt w 2 3 0 (pure (.vins (w.extractLsb' 20 5) (w.extractLsb' 15 5) (w.extractLsb' 5 5)))) := by rw [decodeVs, f0_2]; rfl
  rw [h1, h2, fixedAt_ok f10_5, fixedAt_ok f2_3, f20_5, f15_5, f5_5]; rfl
theorem vld (d : BitVec 5) (a : BitVec 5) (b : BitVec 5) (p : BitVec 3) (z : BitVec 2) : Statement (.vld d a b p z) := by
  intro s hwf
  have f25_6 : (encode s (.vld d a b p z)).extractLsb' 25 6 = 0x1C#6 := Ext.hi 23 <| Ext.hi 21 <| Ext.hi 18 <| Ext.hi 15 <| Ext.hi 10 <| Ext.hi 5 <| Ext.hi 0 <| Ext.lo <| (Ext.all _)
  have f4_3 : (encode s (.vld d a b p z)).extractLsb' 4 3 = 0#3 := Ext.hi 2 <| Ext.hi 0 <| Ext.lo <| (Ext.all _)
  have f0_2 : (encode s (.vld d a b p z)).extractLsb' 0 2 = 0#2 := Ext.lo <| (Ext.all _)
  have f20_5 : (encode s (.vld d a b p z)).extractLsb' 20 5 = d := Ext.hi 18 <| Ext.hi 16 <| Ext.hi 13 <| Ext.hi 10 <| Ext.hi 5 <| Ext.hi 0 <| Ext.lo <| (Ext.all _)
  have f15_5 : (encode s (.vld d a b p z)).extractLsb' 15 5 = a := Ext.hi 13 <| Ext.hi 11 <| Ext.hi 8 <| Ext.hi 5 <| Ext.hi 0 <| Ext.lo <| (Ext.all _)
  have f10_5 : (encode s (.vld d a b p z)).extractLsb' 10 5 = b := Ext.hi 8 <| Ext.hi 6 <| Ext.hi 3 <| Ext.hi 0 <| Ext.lo <| (Ext.all _)
  have f7_3 : (encode s (.vld d a b p z)).extractLsb' 7 3 = p := Ext.hi 5 <| Ext.hi 3 <| Ext.hi 0 <| Ext.lo <| (Ext.all _)
  have f2_2 : (encode s (.vld d a b p z)).extractLsb' 2 2 = z := Ext.hi 0 <| Ext.lo <| (Ext.all _)
  have f31 : (encode s (.vld d a b p z)).getLsbD 31 = s := Ext.marker (Ext.hi 29 <| Ext.hi 27 <| Ext.hi 24 <| Ext.hi 21 <| Ext.hi 16 <| Ext.hi 11 <| Ext.hi 6 <| Ext.hi 0 <| (Ext.all _))
  generalize encode s (.vld d a b p z) = w at *
  refine decode_of f25_6 (by decide) (by decide) f31 ?_ hwf
  have h1 : decodeMajor w = decodeVmld w := by rw [decodeMajor, f25_6]; rfl
  have h2 : decodeVmld w = fixedAt w 0 2 0 (pure (.vld (w.extractLsb' 20 5) (w.extractLsb' 15 5) (w.extractLsb' 10 5) (w.extractLsb' 7 3) (w.extractLsb' 2 2))) := by rw [decodeVmld, f4_3]; rfl
  rw [h1, h2, fixedAt_ok f0_2, f20_5, f15_5, f10_5, f7_3, f2_2]; rfl
theorem vlds (d : BitVec 5) (a : BitVec 5) (b : BitVec 5) (p : BitVec 3) (z : BitVec 2) : Statement (.vlds d a b p z) := by
  intro s hwf
  have f25_6 : (encode s (.vlds d a b p z)).extractLsb' 25 6 = 0x1C#6 := Ext.hi 23 <| Ext.hi 21 <| Ext.hi 18 <| Ext.hi 15 <| Ext.hi 10 <| Ext.hi 5 <| Ext.hi 0 <| Ext.lo <| (Ext.all _)
  have f4_3 : (encode s (.vlds d a b p z)).extractLsb' 4 3 = 1#3 := Ext.hi 2 <| Ext.hi 0 <| Ext.lo <| (Ext.all _)
  have f0_2 : (encode s (.vlds d a b p z)).extractLsb' 0 2 = 0#2 := Ext.lo <| (Ext.all _)
  have f20_5 : (encode s (.vlds d a b p z)).extractLsb' 20 5 = d := Ext.hi 18 <| Ext.hi 16 <| Ext.hi 13 <| Ext.hi 10 <| Ext.hi 5 <| Ext.hi 0 <| Ext.lo <| (Ext.all _)
  have f15_5 : (encode s (.vlds d a b p z)).extractLsb' 15 5 = a := Ext.hi 13 <| Ext.hi 11 <| Ext.hi 8 <| Ext.hi 5 <| Ext.hi 0 <| Ext.lo <| (Ext.all _)
  have f10_5 : (encode s (.vlds d a b p z)).extractLsb' 10 5 = b := Ext.hi 8 <| Ext.hi 6 <| Ext.hi 3 <| Ext.hi 0 <| Ext.lo <| (Ext.all _)
  have f7_3 : (encode s (.vlds d a b p z)).extractLsb' 7 3 = p := Ext.hi 5 <| Ext.hi 3 <| Ext.hi 0 <| Ext.lo <| (Ext.all _)
  have f2_2 : (encode s (.vlds d a b p z)).extractLsb' 2 2 = z := Ext.hi 0 <| Ext.lo <| (Ext.all _)
  have f31 : (encode s (.vlds d a b p z)).getLsbD 31 = s := Ext.marker (Ext.hi 29 <| Ext.hi 27 <| Ext.hi 24 <| Ext.hi 21 <| Ext.hi 16 <| Ext.hi 11 <| Ext.hi 6 <| Ext.hi 0 <| (Ext.all _))
  generalize encode s (.vlds d a b p z) = w at *
  refine decode_of f25_6 (by decide) (by decide) f31 ?_ hwf
  have h1 : decodeMajor w = decodeVmld w := by rw [decodeMajor, f25_6]; rfl
  have h2 : decodeVmld w = fixedAt w 0 2 0 (pure (.vlds (w.extractLsb' 20 5) (w.extractLsb' 15 5) (w.extractLsb' 10 5) (w.extractLsb' 7 3) (w.extractLsb' 2 2))) := by rw [decodeVmld, f4_3]; rfl
  rw [h1, h2, fixedAt_ok f0_2, f20_5, f15_5, f10_5, f7_3, f2_2]; rfl
theorem vldx (d : BitVec 5) (a : BitVec 5) (b : BitVec 5) (p : BitVec 3) (z : BitVec 1) : Statement (.vldx d a b p z) := by
  intro s hwf
  have f25_6 : (encode s (.vldx d a b p z)).extractLsb' 25 6 = 0x1C#6 := Ext.hi 23 <| Ext.hi 22 <| Ext.hi 18 <| Ext.hi 15 <| Ext.hi 10 <| Ext.hi 5 <| Ext.hi 0 <| Ext.lo <| (Ext.all _)
  have f4_3 : (encode s (.vldx d a b p z)).extractLsb' 4 3 = 2#3 := Ext.hi 2 <| Ext.hi 1 <| Ext.lo <| rfl
  have f3_1 : (encode s (.vldx d a b p z)).extractLsb' 3 1 = 1#1 := Ext.hi 1 <| Ext.hi 0 <| Ext.lo <| rfl
  have f0_2 : (encode s (.vldx d a b p z)).extractLsb' 0 2 = 0#2 := Ext.lo <| (Ext.all _)
  have f20_5 : (encode s (.vldx d a b p z)).extractLsb' 20 5 = d := Ext.hi 18 <| Ext.hi 17 <| Ext.hi 13 <| Ext.hi 10 <| Ext.hi 5 <| Ext.hi 0 <| Ext.lo <| (Ext.all _)
  have f15_5 : (encode s (.vldx d a b p z)).extractLsb' 15 5 = a := Ext.hi 13 <| Ext.hi 12 <| Ext.hi 8 <| Ext.hi 5 <| Ext.hi 0 <| Ext.lo <| (Ext.all _)
  have f10_5 : (encode s (.vldx d a b p z)).extractLsb' 10 5 = b := Ext.hi 8 <| Ext.hi 7 <| Ext.hi 3 <| Ext.hi 0 <| Ext.lo <| (Ext.all _)
  have f7_3 : (encode s (.vldx d a b p z)).extractLsb' 7 3 = p := Ext.hi 5 <| Ext.hi 4 <| Ext.hi 0 <| Ext.lo <| (Ext.all _)
  have f2_1 : (encode s (.vldx d a b p z)).extractLsb' 2 1 = z := Ext.hi 0 <| Ext.lo <| (Ext.all _)
  have f31 : (encode s (.vldx d a b p z)).getLsbD 31 = s := Ext.marker (Ext.hi 29 <| Ext.hi 28 <| Ext.hi 24 <| Ext.hi 21 <| Ext.hi 16 <| Ext.hi 11 <| Ext.hi 6 <| Ext.hi 0 <| (Ext.all _))
  generalize encode s (.vldx d a b p z) = w at *
  refine decode_of f25_6 (by decide) (by decide) f31 ?_ hwf
  have h1 : decodeMajor w = decodeVmld w := by rw [decodeMajor, f25_6]; rfl
  have h2 : decodeVmld w = fixedAt w 3 1 1 (fixedAt w 0 2 0 (pure (.vldx (w.extractLsb' 20 5) (w.extractLsb' 15 5) (w.extractLsb' 10 5) (w.extractLsb' 7 3) (w.extractLsb' 2 1)))) := by rw [decodeVmld, f4_3]; rfl
  rw [h1, h2, fixedAt_ok f3_1, fixedAt_ok f0_2, f20_5, f15_5, f10_5, f7_3, f2_1]; rfl
theorem vldb (d : BitVec 5) (a : BitVec 5) (b : BitVec 5) (p : BitVec 3) (z : BitVec 2) : Statement (.vldb d a b p z) := by
  intro s hwf
  have f25_6 : (encode s (.vldb d a b p z)).extractLsb' 25 6 = 0x1C#6 := Ext.hi 23 <| Ext.hi 21 <| Ext.hi 18 <| Ext.hi 15 <| Ext.hi 10 <| Ext.hi 5 <| Ext.hi 0 <| Ext.lo <| (Ext.all _)
  have f4_3 : (encode s (.vldb d a b p z)).extractLsb' 4 3 = 3#3 := Ext.hi 2 <| Ext.hi 0 <| Ext.lo <| (Ext.all _)
  have f0_2 : (encode s (.vldb d a b p z)).extractLsb' 0 2 = 0#2 := Ext.lo <| (Ext.all _)
  have f20_5 : (encode s (.vldb d a b p z)).extractLsb' 20 5 = d := Ext.hi 18 <| Ext.hi 16 <| Ext.hi 13 <| Ext.hi 10 <| Ext.hi 5 <| Ext.hi 0 <| Ext.lo <| (Ext.all _)
  have f15_5 : (encode s (.vldb d a b p z)).extractLsb' 15 5 = a := Ext.hi 13 <| Ext.hi 11 <| Ext.hi 8 <| Ext.hi 5 <| Ext.hi 0 <| Ext.lo <| (Ext.all _)
  have f10_5 : (encode s (.vldb d a b p z)).extractLsb' 10 5 = b := Ext.hi 8 <| Ext.hi 6 <| Ext.hi 3 <| Ext.hi 0 <| Ext.lo <| (Ext.all _)
  have f7_3 : (encode s (.vldb d a b p z)).extractLsb' 7 3 = p := Ext.hi 5 <| Ext.hi 3 <| Ext.hi 0 <| Ext.lo <| (Ext.all _)
  have f2_2 : (encode s (.vldb d a b p z)).extractLsb' 2 2 = z := Ext.hi 0 <| Ext.lo <| (Ext.all _)
  have f31 : (encode s (.vldb d a b p z)).getLsbD 31 = s := Ext.marker (Ext.hi 29 <| Ext.hi 27 <| Ext.hi 24 <| Ext.hi 21 <| Ext.hi 16 <| Ext.hi 11 <| Ext.hi 6 <| Ext.hi 0 <| (Ext.all _))
  generalize encode s (.vldb d a b p z) = w at *
  refine decode_of f25_6 (by decide) (by decide) f31 ?_ hwf
  have h1 : decodeMajor w = decodeVmld w := by rw [decodeMajor, f25_6]; rfl
  have h2 : decodeVmld w = fixedAt w 0 2 0 (pure (.vldb (w.extractLsb' 20 5) (w.extractLsb' 15 5) (w.extractLsb' 10 5) (w.extractLsb' 7 3) (w.extractLsb' 2 2))) := by rw [decodeVmld, f4_3]; rfl
  rw [h1, h2, fixedAt_ok f0_2, f20_5, f15_5, f10_5, f7_3, f2_2]; rfl
theorem vst (d : BitVec 5) (a : BitVec 5) (b : BitVec 5) (p : BitVec 3) (z : BitVec 2) : Statement (.vst d a b p z) := by
  intro s hwf
  have f25_6 : (encode s (.vst d a b p z)).extractLsb' 25 6 = 0x1D#6 := Ext.hi 23 <| Ext.hi 21 <| Ext.hi 18 <| Ext.hi 15 <| Ext.hi 10 <| Ext.hi 5 <| Ext.hi 0 <| Ext.lo <| (Ext.all _)
  have f4_3 : (encode s (.vst d a b p z)).extractLsb' 4 3 = 0#3 := Ext.hi 2 <| Ext.hi 0 <| Ext.lo <| (Ext.all _)
  have f0_2 : (encode s (.vst d a b p z)).extractLsb' 0 2 = 0#2 := Ext.lo <| (Ext.all _)
  have f20_5 : (encode s (.vst d a b p z)).extractLsb' 20 5 = d := Ext.hi 18 <| Ext.hi 16 <| Ext.hi 13 <| Ext.hi 10 <| Ext.hi 5 <| Ext.hi 0 <| Ext.lo <| (Ext.all _)
  have f15_5 : (encode s (.vst d a b p z)).extractLsb' 15 5 = a := Ext.hi 13 <| Ext.hi 11 <| Ext.hi 8 <| Ext.hi 5 <| Ext.hi 0 <| Ext.lo <| (Ext.all _)
  have f10_5 : (encode s (.vst d a b p z)).extractLsb' 10 5 = b := Ext.hi 8 <| Ext.hi 6 <| Ext.hi 3 <| Ext.hi 0 <| Ext.lo <| (Ext.all _)
  have f7_3 : (encode s (.vst d a b p z)).extractLsb' 7 3 = p := Ext.hi 5 <| Ext.hi 3 <| Ext.hi 0 <| Ext.lo <| (Ext.all _)
  have f2_2 : (encode s (.vst d a b p z)).extractLsb' 2 2 = z := Ext.hi 0 <| Ext.lo <| (Ext.all _)
  have f31 : (encode s (.vst d a b p z)).getLsbD 31 = s := Ext.marker (Ext.hi 29 <| Ext.hi 27 <| Ext.hi 24 <| Ext.hi 21 <| Ext.hi 16 <| Ext.hi 11 <| Ext.hi 6 <| Ext.hi 0 <| (Ext.all _))
  generalize encode s (.vst d a b p z) = w at *
  refine decode_of f25_6 (by decide) (by decide) f31 ?_ hwf
  have h1 : decodeMajor w = decodeVmst w := by rw [decodeMajor, f25_6]; rfl
  have h2 : decodeVmst w = fixedAt w 0 2 0 (pure (.vst (w.extractLsb' 20 5) (w.extractLsb' 15 5) (w.extractLsb' 10 5) (w.extractLsb' 7 3) (w.extractLsb' 2 2))) := by rw [decodeVmst, f4_3]; rfl
  rw [h1, h2, fixedAt_ok f0_2, f20_5, f15_5, f10_5, f7_3, f2_2]; rfl
theorem vsts (d : BitVec 5) (a : BitVec 5) (b : BitVec 5) (p : BitVec 3) (z : BitVec 2) : Statement (.vsts d a b p z) := by
  intro s hwf
  have f25_6 : (encode s (.vsts d a b p z)).extractLsb' 25 6 = 0x1D#6 := Ext.hi 23 <| Ext.hi 21 <| Ext.hi 18 <| Ext.hi 15 <| Ext.hi 10 <| Ext.hi 5 <| Ext.hi 0 <| Ext.lo <| (Ext.all _)
  have f4_3 : (encode s (.vsts d a b p z)).extractLsb' 4 3 = 1#3 := Ext.hi 2 <| Ext.hi 0 <| Ext.lo <| (Ext.all _)
  have f0_2 : (encode s (.vsts d a b p z)).extractLsb' 0 2 = 0#2 := Ext.lo <| (Ext.all _)
  have f20_5 : (encode s (.vsts d a b p z)).extractLsb' 20 5 = d := Ext.hi 18 <| Ext.hi 16 <| Ext.hi 13 <| Ext.hi 10 <| Ext.hi 5 <| Ext.hi 0 <| Ext.lo <| (Ext.all _)
  have f15_5 : (encode s (.vsts d a b p z)).extractLsb' 15 5 = a := Ext.hi 13 <| Ext.hi 11 <| Ext.hi 8 <| Ext.hi 5 <| Ext.hi 0 <| Ext.lo <| (Ext.all _)
  have f10_5 : (encode s (.vsts d a b p z)).extractLsb' 10 5 = b := Ext.hi 8 <| Ext.hi 6 <| Ext.hi 3 <| Ext.hi 0 <| Ext.lo <| (Ext.all _)
  have f7_3 : (encode s (.vsts d a b p z)).extractLsb' 7 3 = p := Ext.hi 5 <| Ext.hi 3 <| Ext.hi 0 <| Ext.lo <| (Ext.all _)
  have f2_2 : (encode s (.vsts d a b p z)).extractLsb' 2 2 = z := Ext.hi 0 <| Ext.lo <| (Ext.all _)
  have f31 : (encode s (.vsts d a b p z)).getLsbD 31 = s := Ext.marker (Ext.hi 29 <| Ext.hi 27 <| Ext.hi 24 <| Ext.hi 21 <| Ext.hi 16 <| Ext.hi 11 <| Ext.hi 6 <| Ext.hi 0 <| (Ext.all _))
  generalize encode s (.vsts d a b p z) = w at *
  refine decode_of f25_6 (by decide) (by decide) f31 ?_ hwf
  have h1 : decodeMajor w = decodeVmst w := by rw [decodeMajor, f25_6]; rfl
  have h2 : decodeVmst w = fixedAt w 0 2 0 (pure (.vsts (w.extractLsb' 20 5) (w.extractLsb' 15 5) (w.extractLsb' 10 5) (w.extractLsb' 7 3) (w.extractLsb' 2 2))) := by rw [decodeVmst, f4_3]; rfl
  rw [h1, h2, fixedAt_ok f0_2, f20_5, f15_5, f10_5, f7_3, f2_2]; rfl
theorem vstx (d : BitVec 5) (a : BitVec 5) (b : BitVec 5) (p : BitVec 3) (z : BitVec 1) : Statement (.vstx d a b p z) := by
  intro s hwf
  have f25_6 : (encode s (.vstx d a b p z)).extractLsb' 25 6 = 0x1D#6 := Ext.hi 23 <| Ext.hi 22 <| Ext.hi 18 <| Ext.hi 15 <| Ext.hi 10 <| Ext.hi 5 <| Ext.hi 0 <| Ext.lo <| (Ext.all _)
  have f4_3 : (encode s (.vstx d a b p z)).extractLsb' 4 3 = 2#3 := Ext.hi 2 <| Ext.hi 1 <| Ext.lo <| rfl
  have f3_1 : (encode s (.vstx d a b p z)).extractLsb' 3 1 = 1#1 := Ext.hi 1 <| Ext.hi 0 <| Ext.lo <| rfl
  have f0_2 : (encode s (.vstx d a b p z)).extractLsb' 0 2 = 0#2 := Ext.lo <| (Ext.all _)
  have f20_5 : (encode s (.vstx d a b p z)).extractLsb' 20 5 = d := Ext.hi 18 <| Ext.hi 17 <| Ext.hi 13 <| Ext.hi 10 <| Ext.hi 5 <| Ext.hi 0 <| Ext.lo <| (Ext.all _)
  have f15_5 : (encode s (.vstx d a b p z)).extractLsb' 15 5 = a := Ext.hi 13 <| Ext.hi 12 <| Ext.hi 8 <| Ext.hi 5 <| Ext.hi 0 <| Ext.lo <| (Ext.all _)
  have f10_5 : (encode s (.vstx d a b p z)).extractLsb' 10 5 = b := Ext.hi 8 <| Ext.hi 7 <| Ext.hi 3 <| Ext.hi 0 <| Ext.lo <| (Ext.all _)
  have f7_3 : (encode s (.vstx d a b p z)).extractLsb' 7 3 = p := Ext.hi 5 <| Ext.hi 4 <| Ext.hi 0 <| Ext.lo <| (Ext.all _)
  have f2_1 : (encode s (.vstx d a b p z)).extractLsb' 2 1 = z := Ext.hi 0 <| Ext.lo <| (Ext.all _)
  have f31 : (encode s (.vstx d a b p z)).getLsbD 31 = s := Ext.marker (Ext.hi 29 <| Ext.hi 28 <| Ext.hi 24 <| Ext.hi 21 <| Ext.hi 16 <| Ext.hi 11 <| Ext.hi 6 <| Ext.hi 0 <| (Ext.all _))
  generalize encode s (.vstx d a b p z) = w at *
  refine decode_of f25_6 (by decide) (by decide) f31 ?_ hwf
  have h1 : decodeMajor w = decodeVmst w := by rw [decodeMajor, f25_6]; rfl
  have h2 : decodeVmst w = fixedAt w 3 1 1 (fixedAt w 0 2 0 (pure (.vstx (w.extractLsb' 20 5) (w.extractLsb' 15 5) (w.extractLsb' 10 5) (w.extractLsb' 7 3) (w.extractLsb' 2 1)))) := by rw [decodeVmst, f4_3]; rfl
  rw [h1, h2, fixedAt_ok f3_1, fixedAt_ok f0_2, f20_5, f15_5, f10_5, f7_3, f2_1]; rfl
theorem vperm (d : BitVec 5) (a : BitVec 5) (b : BitVec 5) (p : BitVec 3) (e : BitVec 3) : Statement (.vperm d a b p e) := by
  intro s hwf
  have f25_6 : (encode s (.vperm d a b p e)).extractLsb' 25 6 = 0x1E#6 := Ext.hi 21 <| Ext.hi 18 <| Ext.hi 15 <| Ext.hi 10 <| Ext.hi 5 <| Ext.hi 0 <| Ext.lo <| (Ext.all _)
  have f0_4 : (encode s (.vperm d a b p e)).extractLsb' 0 4 = 0#4 := Ext.lo <| (Ext.all _)
  have f20_5 : (encode s (.vperm d a b p e)).extractLsb' 20 5 = d := Ext.hi 16 <| Ext.hi 13 <| Ext.hi 10 <| Ext.hi 5 <| Ext.hi 0 <| Ext.lo <| (Ext.all _)
  have f15_5 : (encode s (.vperm d a b p e)).extractLsb' 15 5 = a := Ext.hi 11 <| Ext.hi 8 <| Ext.hi 5 <| Ext.hi 0 <| Ext.lo <| (Ext.all _)
  have f10_5 : (encode s (.vperm d a b p e)).extractLsb' 10 5 = b := Ext.hi 6 <| Ext.hi 3 <| Ext.hi 0 <| Ext.lo <| (Ext.all _)
  have f7_3 : (encode s (.vperm d a b p e)).extractLsb' 7 3 = p := Ext.hi 3 <| Ext.hi 0 <| Ext.lo <| (Ext.all _)
  have f4_3 : (encode s (.vperm d a b p e)).extractLsb' 4 3 = e := Ext.hi 0 <| Ext.lo <| (Ext.all _)
  have f31 : (encode s (.vperm d a b p e)).getLsbD 31 = s := Ext.marker (Ext.hi 27 <| Ext.hi 24 <| Ext.hi 21 <| Ext.hi 16 <| Ext.hi 11 <| Ext.hi 6 <| Ext.hi 0 <| (Ext.all _))
  generalize encode s (.vperm d a b p e) = w at *
  refine decode_of f25_6 (by decide) (by decide) f31 ?_ hwf
  have h1 : decodeMajor w = decodeVprm w := by rw [decodeMajor, f25_6]; rfl
  have h2 : decodeVprm w = pure (.vperm (w.extractLsb' 20 5) (w.extractLsb' 15 5) (w.extractLsb' 10 5) (w.extractLsb' 7 3) (w.extractLsb' 4 3)) := by rw [decodeVprm, f0_4]; rfl
  rw [h1, h2, f20_5, f15_5, f10_5, f7_3, f4_3]; rfl
theorem vslideup (d : BitVec 5) (a : BitVec 5) (b : BitVec 5) (p : BitVec 3) (e : BitVec 3) : Statement (.vslideup d a b p e) := by
  intro s hwf
  have f25_6 : (encode s (.vslideup d a b p e)).extractLsb' 25 6 = 0x1E#6 := Ext.hi 21 <| Ext.hi 18 <| Ext.hi 15 <| Ext.hi 10 <| Ext.hi 5 <| Ext.hi 0 <| Ext.lo <| (Ext.all _)
  have f0_4 : (encode s (.vslideup d a b p e)).extractLsb' 0 4 = 1#4 := Ext.lo <| (Ext.all _)
  have f20_5 : (encode s (.vslideup d a b p e)).extractLsb' 20 5 = d := Ext.hi 16 <| Ext.hi 13 <| Ext.hi 10 <| Ext.hi 5 <| Ext.hi 0 <| Ext.lo <| (Ext.all _)
  have f15_5 : (encode s (.vslideup d a b p e)).extractLsb' 15 5 = a := Ext.hi 11 <| Ext.hi 8 <| Ext.hi 5 <| Ext.hi 0 <| Ext.lo <| (Ext.all _)
  have f10_5 : (encode s (.vslideup d a b p e)).extractLsb' 10 5 = b := Ext.hi 6 <| Ext.hi 3 <| Ext.hi 0 <| Ext.lo <| (Ext.all _)
  have f7_3 : (encode s (.vslideup d a b p e)).extractLsb' 7 3 = p := Ext.hi 3 <| Ext.hi 0 <| Ext.lo <| (Ext.all _)
  have f4_3 : (encode s (.vslideup d a b p e)).extractLsb' 4 3 = e := Ext.hi 0 <| Ext.lo <| (Ext.all _)
  have f31 : (encode s (.vslideup d a b p e)).getLsbD 31 = s := Ext.marker (Ext.hi 27 <| Ext.hi 24 <| Ext.hi 21 <| Ext.hi 16 <| Ext.hi 11 <| Ext.hi 6 <| Ext.hi 0 <| (Ext.all _))
  generalize encode s (.vslideup d a b p e) = w at *
  refine decode_of f25_6 (by decide) (by decide) f31 ?_ hwf
  have h1 : decodeMajor w = decodeVprm w := by rw [decodeMajor, f25_6]; rfl
  have h2 : decodeVprm w = pure (.vslideup (w.extractLsb' 20 5) (w.extractLsb' 15 5) (w.extractLsb' 10 5) (w.extractLsb' 7 3) (w.extractLsb' 4 3)) := by rw [decodeVprm, f0_4]; rfl
  rw [h1, h2, f20_5, f15_5, f10_5, f7_3, f4_3]; rfl
theorem vslidedn (d : BitVec 5) (a : BitVec 5) (b : BitVec 5) (p : BitVec 3) (e : BitVec 3) : Statement (.vslidedn d a b p e) := by
  intro s hwf
  have f25_6 : (encode s (.vslidedn d a b p e)).extractLsb' 25 6 = 0x1E#6 := Ext.hi 21 <| Ext.hi 18 <| Ext.hi 15 <| Ext.hi 10 <| Ext.hi 5 <| Ext.hi 0 <| Ext.lo <| (Ext.all _)
  have f0_4 : (encode s (.vslidedn d a b p e)).extractLsb' 0 4 = 2#4 := Ext.lo <| (Ext.all _)
  have f20_5 : (encode s (.vslidedn d a b p e)).extractLsb' 20 5 = d := Ext.hi 16 <| Ext.hi 13 <| Ext.hi 10 <| Ext.hi 5 <| Ext.hi 0 <| Ext.lo <| (Ext.all _)
  have f15_5 : (encode s (.vslidedn d a b p e)).extractLsb' 15 5 = a := Ext.hi 11 <| Ext.hi 8 <| Ext.hi 5 <| Ext.hi 0 <| Ext.lo <| (Ext.all _)
  have f10_5 : (encode s (.vslidedn d a b p e)).extractLsb' 10 5 = b := Ext.hi 6 <| Ext.hi 3 <| Ext.hi 0 <| Ext.lo <| (Ext.all _)
  have f7_3 : (encode s (.vslidedn d a b p e)).extractLsb' 7 3 = p := Ext.hi 3 <| Ext.hi 0 <| Ext.lo <| (Ext.all _)
  have f4_3 : (encode s (.vslidedn d a b p e)).extractLsb' 4 3 = e := Ext.hi 0 <| Ext.lo <| (Ext.all _)
  have f31 : (encode s (.vslidedn d a b p e)).getLsbD 31 = s := Ext.marker (Ext.hi 27 <| Ext.hi 24 <| Ext.hi 21 <| Ext.hi 16 <| Ext.hi 11 <| Ext.hi 6 <| Ext.hi 0 <| (Ext.all _))
  generalize encode s (.vslidedn d a b p e) = w at *
  refine decode_of f25_6 (by decide) (by decide) f31 ?_ hwf
  have h1 : decodeMajor w = decodeVprm w := by rw [decodeMajor, f25_6]; rfl
  have h2 : decodeVprm w = pure (.vslidedn (w.extractLsb' 20 5) (w.extractLsb' 15 5) (w.extractLsb' 10 5) (w.extractLsb' 7 3) (w.extractLsb' 4 3)) := by rw [decodeVprm, f0_4]; rfl
  rw [h1, h2, f20_5, f15_5, f10_5, f7_3, f4_3]; rfl
theorem vredadd (d : BitVec 5) (a : BitVec 5) (b : BitVec 5) (p : BitVec 3) (e : BitVec 3) : Statement (.vredadd d a b p e) := by
  intro s hwf
  have f25_6 : (encode s (.vredadd d a b p e)).extractLsb' 25 6 = 0x1E#6 := Ext.hi 21 <| Ext.hi 18 <| Ext.hi 15 <| Ext.hi 10 <| Ext.hi 5 <| Ext.hi 0 <| Ext.lo <| (Ext.all _)
  have f0_4 : (encode s (.vredadd d a b p e)).extractLsb' 0 4 = 3#4 := Ext.lo <| (Ext.all _)
  have f20_5 : (encode s (.vredadd d a b p e)).extractLsb' 20 5 = d := Ext.hi 16 <| Ext.hi 13 <| Ext.hi 10 <| Ext.hi 5 <| Ext.hi 0 <| Ext.lo <| (Ext.all _)
  have f15_5 : (encode s (.vredadd d a b p e)).extractLsb' 15 5 = a := Ext.hi 11 <| Ext.hi 8 <| Ext.hi 5 <| Ext.hi 0 <| Ext.lo <| (Ext.all _)
  have f10_5 : (encode s (.vredadd d a b p e)).extractLsb' 10 5 = b := Ext.hi 6 <| Ext.hi 3 <| Ext.hi 0 <| Ext.lo <| (Ext.all _)
  have f7_3 : (encode s (.vredadd d a b p e)).extractLsb' 7 3 = p := Ext.hi 3 <| Ext.hi 0 <| Ext.lo <| (Ext.all _)
  have f4_3 : (encode s (.vredadd d a b p e)).extractLsb' 4 3 = e := Ext.hi 0 <| Ext.lo <| (Ext.all _)
  have f31 : (encode s (.vredadd d a b p e)).getLsbD 31 = s := Ext.marker (Ext.hi 27 <| Ext.hi 24 <| Ext.hi 21 <| Ext.hi 16 <| Ext.hi 11 <| Ext.hi 6 <| Ext.hi 0 <| (Ext.all _))
  generalize encode s (.vredadd d a b p e) = w at *
  refine decode_of f25_6 (by decide) (by decide) f31 ?_ hwf
  have h1 : decodeMajor w = decodeVprm w := by rw [decodeMajor, f25_6]; rfl
  have h2 : decodeVprm w = pure (.vredadd (w.extractLsb' 20 5) (w.extractLsb' 15 5) (w.extractLsb' 10 5) (w.extractLsb' 7 3) (w.extractLsb' 4 3)) := by rw [decodeVprm, f0_4]; rfl
  rw [h1, h2, f20_5, f15_5, f10_5, f7_3, f4_3]; rfl
theorem vredmin (d : BitVec 5) (a : BitVec 5) (b : BitVec 5) (p : BitVec 3) (e : BitVec 3) : Statement (.vredmin d a b p e) := by
  intro s hwf
  have f25_6 : (encode s (.vredmin d a b p e)).extractLsb' 25 6 = 0x1E#6 := Ext.hi 21 <| Ext.hi 18 <| Ext.hi 15 <| Ext.hi 10 <| Ext.hi 5 <| Ext.hi 0 <| Ext.lo <| (Ext.all _)
  have f0_4 : (encode s (.vredmin d a b p e)).extractLsb' 0 4 = 4#4 := Ext.lo <| (Ext.all _)
  have f20_5 : (encode s (.vredmin d a b p e)).extractLsb' 20 5 = d := Ext.hi 16 <| Ext.hi 13 <| Ext.hi 10 <| Ext.hi 5 <| Ext.hi 0 <| Ext.lo <| (Ext.all _)
  have f15_5 : (encode s (.vredmin d a b p e)).extractLsb' 15 5 = a := Ext.hi 11 <| Ext.hi 8 <| Ext.hi 5 <| Ext.hi 0 <| Ext.lo <| (Ext.all _)
  have f10_5 : (encode s (.vredmin d a b p e)).extractLsb' 10 5 = b := Ext.hi 6 <| Ext.hi 3 <| Ext.hi 0 <| Ext.lo <| (Ext.all _)
  have f7_3 : (encode s (.vredmin d a b p e)).extractLsb' 7 3 = p := Ext.hi 3 <| Ext.hi 0 <| Ext.lo <| (Ext.all _)
  have f4_3 : (encode s (.vredmin d a b p e)).extractLsb' 4 3 = e := Ext.hi 0 <| Ext.lo <| (Ext.all _)
  have f31 : (encode s (.vredmin d a b p e)).getLsbD 31 = s := Ext.marker (Ext.hi 27 <| Ext.hi 24 <| Ext.hi 21 <| Ext.hi 16 <| Ext.hi 11 <| Ext.hi 6 <| Ext.hi 0 <| (Ext.all _))
  generalize encode s (.vredmin d a b p e) = w at *
  refine decode_of f25_6 (by decide) (by decide) f31 ?_ hwf
  have h1 : decodeMajor w = decodeVprm w := by rw [decodeMajor, f25_6]; rfl
  have h2 : decodeVprm w = pure (.vredmin (w.extractLsb' 20 5) (w.extractLsb' 15 5) (w.extractLsb' 10 5) (w.extractLsb' 7 3) (w.extractLsb' 4 3)) := by rw [decodeVprm, f0_4]; rfl
  rw [h1, h2, f20_5, f15_5, f10_5, f7_3, f4_3]; rfl
theorem vredmax (d : BitVec 5) (a : BitVec 5) (b : BitVec 5) (p : BitVec 3) (e : BitVec 3) : Statement (.vredmax d a b p e) := by
  intro s hwf
  have f25_6 : (encode s (.vredmax d a b p e)).extractLsb' 25 6 = 0x1E#6 := Ext.hi 21 <| Ext.hi 18 <| Ext.hi 15 <| Ext.hi 10 <| Ext.hi 5 <| Ext.hi 0 <| Ext.lo <| (Ext.all _)
  have f0_4 : (encode s (.vredmax d a b p e)).extractLsb' 0 4 = 5#4 := Ext.lo <| (Ext.all _)
  have f20_5 : (encode s (.vredmax d a b p e)).extractLsb' 20 5 = d := Ext.hi 16 <| Ext.hi 13 <| Ext.hi 10 <| Ext.hi 5 <| Ext.hi 0 <| Ext.lo <| (Ext.all _)
  have f15_5 : (encode s (.vredmax d a b p e)).extractLsb' 15 5 = a := Ext.hi 11 <| Ext.hi 8 <| Ext.hi 5 <| Ext.hi 0 <| Ext.lo <| (Ext.all _)
  have f10_5 : (encode s (.vredmax d a b p e)).extractLsb' 10 5 = b := Ext.hi 6 <| Ext.hi 3 <| Ext.hi 0 <| Ext.lo <| (Ext.all _)
  have f7_3 : (encode s (.vredmax d a b p e)).extractLsb' 7 3 = p := Ext.hi 3 <| Ext.hi 0 <| Ext.lo <| (Ext.all _)
  have f4_3 : (encode s (.vredmax d a b p e)).extractLsb' 4 3 = e := Ext.hi 0 <| Ext.lo <| (Ext.all _)
  have f31 : (encode s (.vredmax d a b p e)).getLsbD 31 = s := Ext.marker (Ext.hi 27 <| Ext.hi 24 <| Ext.hi 21 <| Ext.hi 16 <| Ext.hi 11 <| Ext.hi 6 <| Ext.hi 0 <| (Ext.all _))
  generalize encode s (.vredmax d a b p e) = w at *
  refine decode_of f25_6 (by decide) (by decide) f31 ?_ hwf
  have h1 : decodeMajor w = decodeVprm w := by rw [decodeMajor, f25_6]; rfl
  have h2 : decodeVprm w = pure (.vredmax (w.extractLsb' 20 5) (w.extractLsb' 15 5) (w.extractLsb' 10 5) (w.extractLsb' 7 3) (w.extractLsb' 4 3)) := by rw [decodeVprm, f0_4]; rfl
  rw [h1, h2, f20_5, f15_5, f10_5, f7_3, f4_3]; rfl
theorem vfredadd (d : BitVec 5) (a : BitVec 5) (b : BitVec 5) (p : BitVec 3) (e : BitVec 2) : Statement (.vfredadd d a b p e) := by
  intro s hwf
  have f25_6 : (encode s (.vfredadd d a b p e)).extractLsb' 25 6 = 0x1E#6 := Ext.hi 21 <| Ext.hi 19 <| Ext.hi 18 <| Ext.hi 15 <| Ext.hi 10 <| Ext.hi 5 <| Ext.hi 0 <| Ext.lo <| (Ext.all _)
  have f0_4 : (encode s (.vfredadd d a b p e)).extractLsb' 0 4 = 6#4 := Ext.lo <| (Ext.all _)
  have f6_1 : (encode s (.vfredadd d a b p e)).extractLsb' 6 1 = 0#1 := Ext.hi 2 <| Ext.hi 0 <| Ext.lo <| (Ext.all _)
  have f20_5 : (encode s (.vfredadd d a b p e)).extractLsb' 20 5 = d := Ext.hi 16 <| Ext.hi 14 <| Ext.hi 13 <| Ext.hi 10 <| Ext.hi 5 <| Ext.hi 0 <| Ext.lo <| (Ext.all _)
  have f15_5 : (encode s (.vfredadd d a b p e)).extractLsb' 15 5 = a := Ext.hi 11 <| Ext.hi 9 <| Ext.hi 8 <| Ext.hi 5 <| Ext.hi 0 <| Ext.lo <| (Ext.all _)
  have f10_5 : (encode s (.vfredadd d a b p e)).extractLsb' 10 5 = b := Ext.hi 6 <| Ext.hi 4 <| Ext.hi 3 <| Ext.hi 0 <| Ext.lo <| (Ext.all _)
  have f7_3 : (encode s (.vfredadd d a b p e)).extractLsb' 7 3 = p := Ext.hi 3 <| Ext.hi 1 <| Ext.hi 0 <| Ext.lo <| (Ext.all _)
  have f4_2 : (encode s (.vfredadd d a b p e)).extractLsb' 4 2 = e := Ext.hi 0 <| Ext.lo <| (Ext.all _)
  have f31 : (encode s (.vfredadd d a b p e)).getLsbD 31 = s := Ext.marker (Ext.hi 27 <| Ext.hi 25 <| Ext.hi 24 <| Ext.hi 21 <| Ext.hi 16 <| Ext.hi 11 <| Ext.hi 6 <| Ext.hi 0 <| (Ext.all _))
  generalize encode s (.vfredadd d a b p e) = w at *
  refine decode_of f25_6 (by decide) (by decide) f31 ?_ hwf
  have h1 : decodeMajor w = decodeVprm w := by rw [decodeMajor, f25_6]; rfl
  have h2 : decodeVprm w = fixedAt w 6 1 0 (pure (.vfredadd (w.extractLsb' 20 5) (w.extractLsb' 15 5) (w.extractLsb' 10 5) (w.extractLsb' 7 3) (w.extractLsb' 4 2))) := by rw [decodeVprm, f0_4]; rfl
  rw [h1, h2, fixedAt_ok f6_1, f20_5, f15_5, f10_5, f7_3, f4_2]; rfl
theorem vfredmax (d : BitVec 5) (a : BitVec 5) (b : BitVec 5) (p : BitVec 3) (e : BitVec 2) : Statement (.vfredmax d a b p e) := by
  intro s hwf
  have f25_6 : (encode s (.vfredmax d a b p e)).extractLsb' 25 6 = 0x1E#6 := Ext.hi 21 <| Ext.hi 19 <| Ext.hi 18 <| Ext.hi 15 <| Ext.hi 10 <| Ext.hi 5 <| Ext.hi 0 <| Ext.lo <| (Ext.all _)
  have f0_4 : (encode s (.vfredmax d a b p e)).extractLsb' 0 4 = 7#4 := Ext.lo <| (Ext.all _)
  have f6_1 : (encode s (.vfredmax d a b p e)).extractLsb' 6 1 = 0#1 := Ext.hi 2 <| Ext.hi 0 <| Ext.lo <| (Ext.all _)
  have f20_5 : (encode s (.vfredmax d a b p e)).extractLsb' 20 5 = d := Ext.hi 16 <| Ext.hi 14 <| Ext.hi 13 <| Ext.hi 10 <| Ext.hi 5 <| Ext.hi 0 <| Ext.lo <| (Ext.all _)
  have f15_5 : (encode s (.vfredmax d a b p e)).extractLsb' 15 5 = a := Ext.hi 11 <| Ext.hi 9 <| Ext.hi 8 <| Ext.hi 5 <| Ext.hi 0 <| Ext.lo <| (Ext.all _)
  have f10_5 : (encode s (.vfredmax d a b p e)).extractLsb' 10 5 = b := Ext.hi 6 <| Ext.hi 4 <| Ext.hi 3 <| Ext.hi 0 <| Ext.lo <| (Ext.all _)
  have f7_3 : (encode s (.vfredmax d a b p e)).extractLsb' 7 3 = p := Ext.hi 3 <| Ext.hi 1 <| Ext.hi 0 <| Ext.lo <| (Ext.all _)
  have f4_2 : (encode s (.vfredmax d a b p e)).extractLsb' 4 2 = e := Ext.hi 0 <| Ext.lo <| (Ext.all _)
  have f31 : (encode s (.vfredmax d a b p e)).getLsbD 31 = s := Ext.marker (Ext.hi 27 <| Ext.hi 25 <| Ext.hi 24 <| Ext.hi 21 <| Ext.hi 16 <| Ext.hi 11 <| Ext.hi 6 <| Ext.hi 0 <| (Ext.all _))
  generalize encode s (.vfredmax d a b p e) = w at *
  refine decode_of f25_6 (by decide) (by decide) f31 ?_ hwf
  have h1 : decodeMajor w = decodeVprm w := by rw [decodeMajor, f25_6]; rfl
  have h2 : decodeVprm w = fixedAt w 6 1 0 (pure (.vfredmax (w.extractLsb' 20 5) (w.extractLsb' 15 5) (w.extractLsb' 10 5) (w.extractLsb' 7 3) (w.extractLsb' 4 2))) := by rw [decodeVprm, f0_4]; rfl
  rw [h1, h2, fixedAt_ok f6_1, f20_5, f15_5, f10_5, f7_3, f4_2]; rfl
theorem vcompress (d : BitVec 5) (a : BitVec 5) (p : BitVec 3) (e : BitVec 3) : Statement (.vcompress d a p e) := by
  intro s hwf
  have f25_6 : (encode s (.vcompress d a p e)).extractLsb' 25 6 = 0x1E#6 := Ext.hi 21 <| Ext.hi 18 <| Ext.hi 15 <| Ext.hi 10 <| Ext.hi 5 <| Ext.hi 0 <| Ext.lo <| (Ext.all _)
  have f0_4 : (encode s (.vcompress d a p e)).extractLsb' 0 4 = 8#4 := Ext.lo <| (Ext.all _)
  have f10_5 : (encode s (.vcompress d a p e)).extractLsb' 10 5 = 0#5 := Ext.hi 6 <| Ext.hi 3 <| Ext.hi 0 <| Ext.lo <| (Ext.all _)
  have f20_5 : (encode s (.vcompress d a p e)).extractLsb' 20 5 = d := Ext.hi 16 <| Ext.hi 13 <| Ext.hi 10 <| Ext.hi 5 <| Ext.hi 0 <| Ext.lo <| (Ext.all _)
  have f15_5 : (encode s (.vcompress d a p e)).extractLsb' 15 5 = a := Ext.hi 11 <| Ext.hi 8 <| Ext.hi 5 <| Ext.hi 0 <| Ext.lo <| (Ext.all _)
  have f7_3 : (encode s (.vcompress d a p e)).extractLsb' 7 3 = p := Ext.hi 3 <| Ext.hi 0 <| Ext.lo <| (Ext.all _)
  have f4_3 : (encode s (.vcompress d a p e)).extractLsb' 4 3 = e := Ext.hi 0 <| Ext.lo <| (Ext.all _)
  have f31 : (encode s (.vcompress d a p e)).getLsbD 31 = s := Ext.marker (Ext.hi 27 <| Ext.hi 24 <| Ext.hi 21 <| Ext.hi 16 <| Ext.hi 11 <| Ext.hi 6 <| Ext.hi 0 <| (Ext.all _))
  generalize encode s (.vcompress d a p e) = w at *
  refine decode_of f25_6 (by decide) (by decide) f31 ?_ hwf
  have h1 : decodeMajor w = decodeVprm w := by rw [decodeMajor, f25_6]; rfl
  have h2 : decodeVprm w = fixedAt w 10 5 0 (pure (.vcompress (w.extractLsb' 20 5) (w.extractLsb' 15 5) (w.extractLsb' 7 3) (w.extractLsb' 4 3))) := by rw [decodeVprm, f0_4]; rfl
  rw [h1, h2, fixedAt_ok f10_5, f20_5, f15_5, f7_3, f4_3]; rfl
theorem vextg (d : BitVec 5) (a : BitVec 5) (k : BitVec 5) (e : BitVec 3) : Statement (.vextg d a k e) := by
  intro s hwf
  have f25_6 : (encode s (.vextg d a k e)).extractLsb' 25 6 = 0x1E#6 := Ext.hi 21 <| Ext.hi 18 <| Ext.hi 15 <| Ext.hi 10 <| Ext.hi 5 <| Ext.hi 0 <| Ext.lo <| (Ext.all _)
  have f0_4 : (encode s (.vextg d a k e)).extractLsb' 0 4 = 9#4 := Ext.lo <| (Ext.all _)
  have f7_3 : (encode s (.vextg d a k e)).extractLsb' 7 3 = 0#3 := Ext.hi 3 <| Ext.hi 0 <| Ext.lo <| (Ext.all _)
  have f20_5 : (encode s (.vextg d a k e)).extractLsb' 20 5 = d := Ext.hi 16 <| Ext.hi 13 <| Ext.hi 10 <| Ext.hi 5 <| Ext.hi 0 <| Ext.lo <| (Ext.all _)
  have f15_5 : (encode s (.vextg d a k e)).extractLsb' 15 5 = a := Ext.hi 11 <| Ext.hi 8 <| Ext.hi 5 <| Ext.hi 0 <| Ext.lo <| (Ext.all _)
  have f10_5 : (encode s (.vextg d a k e)).extractLsb' 10 5 = k := Ext.hi 6 <| Ext.hi 3 <| Ext.hi 0 <| Ext.lo <| (Ext.all _)
  have f4_3 : (encode s (.vextg d a k e)).extractLsb' 4 3 = e := Ext.hi 0 <| Ext.lo <| (Ext.all _)
  have f31 : (encode s (.vextg d a k e)).getLsbD 31 = s := Ext.marker (Ext.hi 27 <| Ext.hi 24 <| Ext.hi 21 <| Ext.hi 16 <| Ext.hi 11 <| Ext.hi 6 <| Ext.hi 0 <| (Ext.all _))
  generalize encode s (.vextg d a k e) = w at *
  refine decode_of f25_6 (by decide) (by decide) f31 ?_ hwf
  have h1 : decodeMajor w = decodeVprm w := by rw [decodeMajor, f25_6]; rfl
  have h2 : decodeVprm w = fixedAt w 7 3 0 (pure (.vextg (w.extractLsb' 20 5) (w.extractLsb' 15 5) (w.extractLsb' 10 5) (w.extractLsb' 4 3))) := by rw [decodeVprm, f0_4]; rfl
  rw [h1, h2, fixedAt_ok f7_3, f20_5, f15_5, f10_5, f4_3]; rfl
theorem vcmpeq (d : BitVec 3) (a : BitVec 5) (b : BitVec 5) (p : BitVec 3) (e : BitVec 3) : Statement (.vcmpeq d a b p e) := by
  intro s hwf
  have f25_6 : (encode s (.vcmpeq d a b p e)).extractLsb' 25 6 = 0x1F#6 := Ext.hi 21 <| Ext.hi 18 <| Ext.hi 15 <| Ext.hi 10 <| Ext.hi 5 <| Ext.hi 2 <| Ext.hi 0 <| Ext.lo <| (Ext.all _)
  have f0_4 : (encode s (.vcmpeq d a b p e)).extractLsb' 0 4 = 0#4 := Ext.lo <| (Ext.all _)
  have f23_2 : (encode s (.vcmpeq d a b p e)).extractLsb' 23 2 = 0#2 := Ext.hi 19 <| Ext.hi 16 <| Ext.hi 13 <| Ext.hi 8 <| Ext.hi 3 <| Ext.hi 0 <| Ext.lo <| (Ext.all _)
  have f20_3 : (encode s (.vcmpeq d a b p e)).extractLsb' 20 3 = d := Ext.hi 16 <| Ext.hi 13 <| Ext.hi 10 <| Ext.hi 5 <| Ext.hi 0 <| Ext.lo <| (Ext.all _)
  have f15_5 : (encode s (.vcmpeq d a b p e)).extractLsb' 15 5 = a := Ext.hi 11 <| Ext.hi 8 <| Ext.hi 5 <| Ext.hi 0 <| Ext.lo <| (Ext.all _)
  have f10_5 : (encode s (.vcmpeq d a b p e)).extractLsb' 10 5 = b := Ext.hi 6 <| Ext.hi 3 <| Ext.hi 0 <| Ext.lo <| (Ext.all _)
  have f7_3 : (encode s (.vcmpeq d a b p e)).extractLsb' 7 3 = p := Ext.hi 3 <| Ext.hi 0 <| Ext.lo <| (Ext.all _)
  have f4_3 : (encode s (.vcmpeq d a b p e)).extractLsb' 4 3 = e := Ext.hi 0 <| Ext.lo <| (Ext.all _)
  have f31 : (encode s (.vcmpeq d a b p e)).getLsbD 31 = s := Ext.marker (Ext.hi 27 <| Ext.hi 24 <| Ext.hi 21 <| Ext.hi 16 <| Ext.hi 11 <| Ext.hi 8 <| Ext.hi 6 <| Ext.hi 0 <| (Ext.all _))
  generalize encode s (.vcmpeq d a b p e) = w at *
  refine decode_of f25_6 (by decide) (by decide) f31 ?_ hwf
  have h1 : decodeMajor w = decodeVprd w := by rw [decodeMajor, f25_6]; rfl
  have h2 : decodeVprd w = fixedAt w 23 2 0 (pure (.vcmpeq (w.extractLsb' 20 3) (w.extractLsb' 15 5) (w.extractLsb' 10 5) (w.extractLsb' 7 3) (w.extractLsb' 4 3))) := by rw [decodeVprd, f0_4]; rfl
  rw [h1, h2, fixedAt_ok f23_2, f20_3, f15_5, f10_5, f7_3, f4_3]; rfl
theorem vcmplt (d : BitVec 3) (a : BitVec 5) (b : BitVec 5) (p : BitVec 3) (e : BitVec 3) : Statement (.vcmplt d a b p e) := by
  intro s hwf
  have f25_6 : (encode s (.vcmplt d a b p e)).extractLsb' 25 6 = 0x1F#6 := Ext.hi 21 <| Ext.hi 18 <| Ext.hi 15 <| Ext.hi 10 <| Ext.hi 5 <| Ext.hi 2 <| Ext.hi 0 <| Ext.lo <| (Ext.all _)
  have f0_4 : (encode s (.vcmplt d a b p e)).extractLsb' 0 4 = 1#4 := Ext.lo <| (Ext.all _)
  have f23_2 : (encode s (.vcmplt d a b p e)).extractLsb' 23 2 = 0#2 := Ext.hi 19 <| Ext.hi 16 <| Ext.hi 13 <| Ext.hi 8 <| Ext.hi 3 <| Ext.hi 0 <| Ext.lo <| (Ext.all _)
  have f20_3 : (encode s (.vcmplt d a b p e)).extractLsb' 20 3 = d := Ext.hi 16 <| Ext.hi 13 <| Ext.hi 10 <| Ext.hi 5 <| Ext.hi 0 <| Ext.lo <| (Ext.all _)
  have f15_5 : (encode s (.vcmplt d a b p e)).extractLsb' 15 5 = a := Ext.hi 11 <| Ext.hi 8 <| Ext.hi 5 <| Ext.hi 0 <| Ext.lo <| (Ext.all _)
  have f10_5 : (encode s (.vcmplt d a b p e)).extractLsb' 10 5 = b := Ext.hi 6 <| Ext.hi 3 <| Ext.hi 0 <| Ext.lo <| (Ext.all _)
  have f7_3 : (encode s (.vcmplt d a b p e)).extractLsb' 7 3 = p := Ext.hi 3 <| Ext.hi 0 <| Ext.lo <| (Ext.all _)
  have f4_3 : (encode s (.vcmplt d a b p e)).extractLsb' 4 3 = e := Ext.hi 0 <| Ext.lo <| (Ext.all _)
  have f31 : (encode s (.vcmplt d a b p e)).getLsbD 31 = s := Ext.marker (Ext.hi 27 <| Ext.hi 24 <| Ext.hi 21 <| Ext.hi 16 <| Ext.hi 11 <| Ext.hi 8 <| Ext.hi 6 <| Ext.hi 0 <| (Ext.all _))
  generalize encode s (.vcmplt d a b p e) = w at *
  refine decode_of f25_6 (by decide) (by decide) f31 ?_ hwf
  have h1 : decodeMajor w = decodeVprd w := by rw [decodeMajor, f25_6]; rfl
  have h2 : decodeVprd w = fixedAt w 23 2 0 (pure (.vcmplt (w.extractLsb' 20 3) (w.extractLsb' 15 5) (w.extractLsb' 10 5) (w.extractLsb' 7 3) (w.extractLsb' 4 3))) := by rw [decodeVprd, f0_4]; rfl
  rw [h1, h2, fixedAt_ok f23_2, f20_3, f15_5, f10_5, f7_3, f4_3]; rfl
theorem vcmple (d : BitVec 3) (a : BitVec 5) (b : BitVec 5) (p : BitVec 3) (e : BitVec 3) : Statement (.vcmple d a b p e) := by
  intro s hwf
  have f25_6 : (encode s (.vcmple d a b p e)).extractLsb' 25 6 = 0x1F#6 := Ext.hi 21 <| Ext.hi 18 <| Ext.hi 15 <| Ext.hi 10 <| Ext.hi 5 <| Ext.hi 2 <| Ext.hi 0 <| Ext.lo <| (Ext.all _)
  have f0_4 : (encode s (.vcmple d a b p e)).extractLsb' 0 4 = 2#4 := Ext.lo <| (Ext.all _)
  have f23_2 : (encode s (.vcmple d a b p e)).extractLsb' 23 2 = 0#2 := Ext.hi 19 <| Ext.hi 16 <| Ext.hi 13 <| Ext.hi 8 <| Ext.hi 3 <| Ext.hi 0 <| Ext.lo <| (Ext.all _)
  have f20_3 : (encode s (.vcmple d a b p e)).extractLsb' 20 3 = d := Ext.hi 16 <| Ext.hi 13 <| Ext.hi 10 <| Ext.hi 5 <| Ext.hi 0 <| Ext.lo <| (Ext.all _)
  have f15_5 : (encode s (.vcmple d a b p e)).extractLsb' 15 5 = a := Ext.hi 11 <| Ext.hi 8 <| Ext.hi 5 <| Ext.hi 0 <| Ext.lo <| (Ext.all _)
  have f10_5 : (encode s (.vcmple d a b p e)).extractLsb' 10 5 = b := Ext.hi 6 <| Ext.hi 3 <| Ext.hi 0 <| Ext.lo <| (Ext.all _)
  have f7_3 : (encode s (.vcmple d a b p e)).extractLsb' 7 3 = p := Ext.hi 3 <| Ext.hi 0 <| Ext.lo <| (Ext.all _)
  have f4_3 : (encode s (.vcmple d a b p e)).extractLsb' 4 3 = e := Ext.hi 0 <| Ext.lo <| (Ext.all _)
  have f31 : (encode s (.vcmple d a b p e)).getLsbD 31 = s := Ext.marker (Ext.hi 27 <| Ext.hi 24 <| Ext.hi 21 <| Ext.hi 16 <| Ext.hi 11 <| Ext.hi 8 <| Ext.hi 6 <| Ext.hi 0 <| (Ext.all _))
  generalize encode s (.vcmple d a b p e) = w at *
  refine decode_of f25_6 (by decide) (by decide) f31 ?_ hwf
  have h1 : decodeMajor w = decodeVprd w := by rw [decodeMajor, f25_6]; rfl
  have h2 : decodeVprd w = fixedAt w 23 2 0 (pure (.vcmple (w.extractLsb' 20 3) (w.extractLsb' 15 5) (w.extractLsb' 10 5) (w.extractLsb' 7 3) (w.extractLsb' 4 3))) := by rw [decodeVprd, f0_4]; rfl
  rw [h1, h2, fixedAt_ok f23_2, f20_3, f15_5, f10_5, f7_3, f4_3]; rfl
theorem vfcmpeq (d : BitVec 3) (a : BitVec 5) (b : BitVec 5) (p : BitVec 3) (e : BitVec 2) : Statement (.vfcmpeq d a b p e) := by
  intro s hwf
  have f25_6 : (encode s (.vfcmpeq d a b p e)).extractLsb' 25 6 = 0x1F#6 := Ext.hi 21 <| Ext.hi 19 <| Ext.hi 18 <| Ext.hi 15 <| Ext.hi 10 <| Ext.hi 5 <| Ext.hi 2 <| Ext.hi 0 <| Ext.lo <| (Ext.all _)
  have f0_4 : (encode s (.vfcmpeq d a b p e)).extractLsb' 0 4 = 3#4 := Ext.lo <| (Ext.all _)
  have f23_2 : (encode s (.vfcmpeq d a b p e)).extractLsb' 23 2 = 0#2 := Ext.hi 19 <| Ext.hi 17 <| Ext.hi 16 <| Ext.hi 13 <| Ext.hi 8 <| Ext.hi 3 <| Ext.hi 0 <| Ext.lo <| (Ext.all _)
  have f6_1 : (encode s (.vfcmpeq d a b p e)).extractLsb' 6 1 = 0#1 := Ext.hi 2 <| Ext.hi 0 <| Ext.lo <| (Ext.all _)
  have f20_3 : (encode s (.vfcmpeq d a b p e)).extractLsb' 20 3 = d := Ext.hi 16 <| Ext.hi 14 <| Ext.hi 13 <| Ext.hi 10 <| Ext.hi 5 <| Ext.hi 0 <| Ext.lo <| (Ext.all _)
  have f15_5 : (encode s (.vfcmpeq d a b p e)).extractLsb' 15 5 = a := Ext.hi 11 <| Ext.hi 9 <| Ext.hi 8 <| Ext.hi 5 <| Ext.hi 0 <| Ext.lo <| (Ext.all _)
  have f10_5 : (encode s (.vfcmpeq d a b p e)).extractLsb' 10 5 = b := Ext.hi 6 <| Ext.hi 4 <| Ext.hi 3 <| Ext.hi 0 <| Ext.lo <| (Ext.all _)
  have f7_3 : (encode s (.vfcmpeq d a b p e)).extractLsb' 7 3 = p := Ext.hi 3 <| Ext.hi 1 <| Ext.hi 0 <| Ext.lo <| (Ext.all _)
  have f4_2 : (encode s (.vfcmpeq d a b p e)).extractLsb' 4 2 = e := Ext.hi 0 <| Ext.lo <| (Ext.all _)
  have f31 : (encode s (.vfcmpeq d a b p e)).getLsbD 31 = s := Ext.marker (Ext.hi 27 <| Ext.hi 25 <| Ext.hi 24 <| Ext.hi 21 <| Ext.hi 16 <| Ext.hi 11 <| Ext.hi 8 <| Ext.hi 6 <| Ext.hi 0 <| (Ext.all _))
  generalize encode s (.vfcmpeq d a b p e) = w at *
  refine decode_of f25_6 (by decide) (by decide) f31 ?_ hwf
  have h1 : decodeMajor w = decodeVprd w := by rw [decodeMajor, f25_6]; rfl
  have h2 : decodeVprd w = fixedAt w 23 2 0 (fixedAt w 6 1 0 (pure (.vfcmpeq (w.extractLsb' 20 3) (w.extractLsb' 15 5) (w.extractLsb' 10 5) (w.extractLsb' 7 3) (w.extractLsb' 4 2)))) := by rw [decodeVprd, f0_4]; rfl
  rw [h1, h2, fixedAt_ok f23_2, fixedAt_ok f6_1, f20_3, f15_5, f10_5, f7_3, f4_2]; rfl
theorem vfcmplt (d : BitVec 3) (a : BitVec 5) (b : BitVec 5) (p : BitVec 3) (e : BitVec 2) : Statement (.vfcmplt d a b p e) := by
  intro s hwf
  have f25_6 : (encode s (.vfcmplt d a b p e)).extractLsb' 25 6 = 0x1F#6 := Ext.hi 21 <| Ext.hi 19 <| Ext.hi 18 <| Ext.hi 15 <| Ext.hi 10 <| Ext.hi 5 <| Ext.hi 2 <| Ext.hi 0 <| Ext.lo <| (Ext.all _)
  have f0_4 : (encode s (.vfcmplt d a b p e)).extractLsb' 0 4 = 4#4 := Ext.lo <| (Ext.all _)
  have f23_2 : (encode s (.vfcmplt d a b p e)).extractLsb' 23 2 = 0#2 := Ext.hi 19 <| Ext.hi 17 <| Ext.hi 16 <| Ext.hi 13 <| Ext.hi 8 <| Ext.hi 3 <| Ext.hi 0 <| Ext.lo <| (Ext.all _)
  have f6_1 : (encode s (.vfcmplt d a b p e)).extractLsb' 6 1 = 0#1 := Ext.hi 2 <| Ext.hi 0 <| Ext.lo <| (Ext.all _)
  have f20_3 : (encode s (.vfcmplt d a b p e)).extractLsb' 20 3 = d := Ext.hi 16 <| Ext.hi 14 <| Ext.hi 13 <| Ext.hi 10 <| Ext.hi 5 <| Ext.hi 0 <| Ext.lo <| (Ext.all _)
  have f15_5 : (encode s (.vfcmplt d a b p e)).extractLsb' 15 5 = a := Ext.hi 11 <| Ext.hi 9 <| Ext.hi 8 <| Ext.hi 5 <| Ext.hi 0 <| Ext.lo <| (Ext.all _)
  have f10_5 : (encode s (.vfcmplt d a b p e)).extractLsb' 10 5 = b := Ext.hi 6 <| Ext.hi 4 <| Ext.hi 3 <| Ext.hi 0 <| Ext.lo <| (Ext.all _)
  have f7_3 : (encode s (.vfcmplt d a b p e)).extractLsb' 7 3 = p := Ext.hi 3 <| Ext.hi 1 <| Ext.hi 0 <| Ext.lo <| (Ext.all _)
  have f4_2 : (encode s (.vfcmplt d a b p e)).extractLsb' 4 2 = e := Ext.hi 0 <| Ext.lo <| (Ext.all _)
  have f31 : (encode s (.vfcmplt d a b p e)).getLsbD 31 = s := Ext.marker (Ext.hi 27 <| Ext.hi 25 <| Ext.hi 24 <| Ext.hi 21 <| Ext.hi 16 <| Ext.hi 11 <| Ext.hi 8 <| Ext.hi 6 <| Ext.hi 0 <| (Ext.all _))
  generalize encode s (.vfcmplt d a b p e) = w at *
  refine decode_of f25_6 (by decide) (by decide) f31 ?_ hwf
  have h1 : decodeMajor w = decodeVprd w := by rw [decodeMajor, f25_6]; rfl
  have h2 : decodeVprd w = fixedAt w 23 2 0 (fixedAt w 6 1 0 (pure (.vfcmplt (w.extractLsb' 20 3) (w.extractLsb' 15 5) (w.extractLsb' 10 5) (w.extractLsb' 7 3) (w.extractLsb' 4 2)))) := by rw [decodeVprd, f0_4]; rfl
  rw [h1, h2, fixedAt_ok f23_2, fixedAt_ok f6_1, f20_3, f15_5, f10_5, f7_3, f4_2]; rfl
theorem vfcmple (d : BitVec 3) (a : BitVec 5) (b : BitVec 5) (p : BitVec 3) (e : BitVec 2) : Statement (.vfcmple d a b p e) := by
  intro s hwf
  have f25_6 : (encode s (.vfcmple d a b p e)).extractLsb' 25 6 = 0x1F#6 := Ext.hi 21 <| Ext.hi 19 <| Ext.hi 18 <| Ext.hi 15 <| Ext.hi 10 <| Ext.hi 5 <| Ext.hi 2 <| Ext.hi 0 <| Ext.lo <| (Ext.all _)
  have f0_4 : (encode s (.vfcmple d a b p e)).extractLsb' 0 4 = 5#4 := Ext.lo <| (Ext.all _)
  have f23_2 : (encode s (.vfcmple d a b p e)).extractLsb' 23 2 = 0#2 := Ext.hi 19 <| Ext.hi 17 <| Ext.hi 16 <| Ext.hi 13 <| Ext.hi 8 <| Ext.hi 3 <| Ext.hi 0 <| Ext.lo <| (Ext.all _)
  have f6_1 : (encode s (.vfcmple d a b p e)).extractLsb' 6 1 = 0#1 := Ext.hi 2 <| Ext.hi 0 <| Ext.lo <| (Ext.all _)
  have f20_3 : (encode s (.vfcmple d a b p e)).extractLsb' 20 3 = d := Ext.hi 16 <| Ext.hi 14 <| Ext.hi 13 <| Ext.hi 10 <| Ext.hi 5 <| Ext.hi 0 <| Ext.lo <| (Ext.all _)
  have f15_5 : (encode s (.vfcmple d a b p e)).extractLsb' 15 5 = a := Ext.hi 11 <| Ext.hi 9 <| Ext.hi 8 <| Ext.hi 5 <| Ext.hi 0 <| Ext.lo <| (Ext.all _)
  have f10_5 : (encode s (.vfcmple d a b p e)).extractLsb' 10 5 = b := Ext.hi 6 <| Ext.hi 4 <| Ext.hi 3 <| Ext.hi 0 <| Ext.lo <| (Ext.all _)
  have f7_3 : (encode s (.vfcmple d a b p e)).extractLsb' 7 3 = p := Ext.hi 3 <| Ext.hi 1 <| Ext.hi 0 <| Ext.lo <| (Ext.all _)
  have f4_2 : (encode s (.vfcmple d a b p e)).extractLsb' 4 2 = e := Ext.hi 0 <| Ext.lo <| (Ext.all _)
  have f31 : (encode s (.vfcmple d a b p e)).getLsbD 31 = s := Ext.marker (Ext.hi 27 <| Ext.hi 25 <| Ext.hi 24 <| Ext.hi 21 <| Ext.hi 16 <| Ext.hi 11 <| Ext.hi 8 <| Ext.hi 6 <| Ext.hi 0 <| (Ext.all _))
  generalize encode s (.vfcmple d a b p e) = w at *
  refine decode_of f25_6 (by decide) (by decide) f31 ?_ hwf
  have h1 : decodeMajor w = decodeVprd w := by rw [decodeMajor, f25_6]; rfl
  have h2 : decodeVprd w = fixedAt w 23 2 0 (fixedAt w 6 1 0 (pure (.vfcmple (w.extractLsb' 20 3) (w.extractLsb' 15 5) (w.extractLsb' 10 5) (w.extractLsb' 7 3) (w.extractLsb' 4 2)))) := by rw [decodeVprd, f0_4]; rfl
  rw [h1, h2, fixedAt_ok f23_2, fixedAt_ok f6_1, f20_3, f15_5, f10_5, f7_3, f4_2]; rfl
theorem vfcmpun (d : BitVec 3) (a : BitVec 5) (b : BitVec 5) (p : BitVec 3) (e : BitVec 2) : Statement (.vfcmpun d a b p e) := by
  intro s hwf
  have f25_6 : (encode s (.vfcmpun d a b p e)).extractLsb' 25 6 = 0x1F#6 := Ext.hi 21 <| Ext.hi 19 <| Ext.hi 18 <| Ext.hi 15 <| Ext.hi 10 <| Ext.hi 5 <| Ext.hi 2 <| Ext.hi 0 <| Ext.lo <| (Ext.all _)
  have f0_4 : (encode s (.vfcmpun d a b p e)).extractLsb' 0 4 = 6#4 := Ext.lo <| (Ext.all _)
  have f23_2 : (encode s (.vfcmpun d a b p e)).extractLsb' 23 2 = 0#2 := Ext.hi 19 <| Ext.hi 17 <| Ext.hi 16 <| Ext.hi 13 <| Ext.hi 8 <| Ext.hi 3 <| Ext.hi 0 <| Ext.lo <| (Ext.all _)
  have f6_1 : (encode s (.vfcmpun d a b p e)).extractLsb' 6 1 = 0#1 := Ext.hi 2 <| Ext.hi 0 <| Ext.lo <| (Ext.all _)
  have f20_3 : (encode s (.vfcmpun d a b p e)).extractLsb' 20 3 = d := Ext.hi 16 <| Ext.hi 14 <| Ext.hi 13 <| Ext.hi 10 <| Ext.hi 5 <| Ext.hi 0 <| Ext.lo <| (Ext.all _)
  have f15_5 : (encode s (.vfcmpun d a b p e)).extractLsb' 15 5 = a := Ext.hi 11 <| Ext.hi 9 <| Ext.hi 8 <| Ext.hi 5 <| Ext.hi 0 <| Ext.lo <| (Ext.all _)
  have f10_5 : (encode s (.vfcmpun d a b p e)).extractLsb' 10 5 = b := Ext.hi 6 <| Ext.hi 4 <| Ext.hi 3 <| Ext.hi 0 <| Ext.lo <| (Ext.all _)
  have f7_3 : (encode s (.vfcmpun d a b p e)).extractLsb' 7 3 = p := Ext.hi 3 <| Ext.hi 1 <| Ext.hi 0 <| Ext.lo <| (Ext.all _)
  have f4_2 : (encode s (.vfcmpun d a b p e)).extractLsb' 4 2 = e := Ext.hi 0 <| Ext.lo <| (Ext.all _)
  have f31 : (encode s (.vfcmpun d a b p e)).getLsbD 31 = s := Ext.marker (Ext.hi 27 <| Ext.hi 25 <| Ext.hi 24 <| Ext.hi 21 <| Ext.hi 16 <| Ext.hi 11 <| Ext.hi 8 <| Ext.hi 6 <| Ext.hi 0 <| (Ext.all _))
  generalize encode s (.vfcmpun d a b p e) = w at *
  refine decode_of f25_6 (by decide) (by decide) f31 ?_ hwf
  have h1 : decodeMajor w = decodeVprd w := by rw [decodeMajor, f25_6]; rfl
  have h2 : decodeVprd w = fixedAt w 23 2 0 (fixedAt w 6 1 0 (pure (.vfcmpun (w.extractLsb' 20 3) (w.extractLsb' 15 5) (w.extractLsb' 10 5) (w.extractLsb' 7 3) (w.extractLsb' 4 2)))) := by rw [decodeVprd, f0_4]; rfl
  rw [h1, h2, fixedAt_ok f23_2, fixedAt_ok f6_1, f20_3, f15_5, f10_5, f7_3, f4_2]; rfl
theorem pand (d : BitVec 3) (a : BitVec 3) (b : BitVec 3) : Statement (.pand d a b) := by
  intro s hwf
  have f25_6 : (encode s (.pand d a b)).extractLsb' 25 6 = 0x1F#6 := Ext.hi 15 <| Ext.hi 12 <| Ext.hi 10 <| Ext.hi 7 <| Ext.hi 5 <| Ext.hi 2 <| Ext.hi 0 <| Ext.lo <| (Ext.all _)
  have f0_4 : (encode s (.pand d a b)).extractLsb' 0 4 = 7#4 := Ext.lo <| rfl
  have f23_2 : (encode s (.pand d a b)).extractLsb' 23 2 = 0#2 := Ext.hi 13 <| Ext.hi 10 <| Ext.hi 8 <| Ext.hi 5 <| Ext.hi 3 <| Ext.hi 0 <| Ext.lo <| (Ext.all _)
  have f18_2 : (encode s (.pand d a b)).extractLsb' 18 2 = 0#2 := Ext.hi 8 <| Ext.hi 5 <| Ext.hi 3 <| Ext.hi 0 <| Ext.lo <| (Ext.all _)
  have f13_2 : (encode s (.pand d a b)).extractLsb' 13 2 = 0#2 := Ext.hi 3 <| Ext.hi 0 <| Ext.lo <| (Ext.all _)
  have f4_6 : (encode s (.pand d a b)).extractLsb' 4 6 = 0#6 := Ext.lo <| rfl
  have f20_3 : (encode s (.pand d a b)).extractLsb' 20 3 = d := Ext.hi 10 <| Ext.hi 7 <| Ext.hi 5 <| Ext.hi 2 <| Ext.hi 0 <| Ext.lo <| (Ext.all _)
  have f15_3 : (encode s (.pand d a b)).extractLsb' 15 3 = a := Ext.hi 5 <| Ext.hi 2 <| Ext.hi 0 <| Ext.lo <| (Ext.all _)
  have f10_3 : (encode s (.pand d a b)).extractLsb' 10 3 = b := Ext.hi 0 <| Ext.lo <| (Ext.all _)
  have f31 : (encode s (.pand d a b)).getLsbD 31 = s := Ext.marker (Ext.hi 21 <| Ext.hi 18 <| Ext.hi 16 <| Ext.hi 13 <| Ext.hi 11 <| Ext.hi 8 <| Ext.hi 6 <| Ext.hi 0 <| (Ext.all _))
  generalize encode s (.pand d a b) = w at *
  refine decode_of f25_6 (by decide) (by decide) f31 ?_ hwf
  have h1 : decodeMajor w = decodeVprd w := by rw [decodeMajor, f25_6]; rfl
  have h2 : decodeVprd w = fixedAt w 23 2 0 (fixedAt w 18 2 0 (fixedAt w 13 2 0 (fixedAt w 4 6 0 (pure (.pand (w.extractLsb' 20 3) (w.extractLsb' 15 3) (w.extractLsb' 10 3)))))) := by rw [decodeVprd, f0_4]; rfl
  rw [h1, h2, fixedAt_ok f23_2, fixedAt_ok f18_2, fixedAt_ok f13_2, fixedAt_ok f4_6, f20_3, f15_3, f10_3]; rfl
theorem por (d : BitVec 3) (a : BitVec 3) (b : BitVec 3) : Statement (.por d a b) := by
  intro s hwf
  have f25_6 : (encode s (.por d a b)).extractLsb' 25 6 = 0x1F#6 := Ext.hi 15 <| Ext.hi 12 <| Ext.hi 10 <| Ext.hi 7 <| Ext.hi 5 <| Ext.hi 2 <| Ext.hi 0 <| Ext.lo <| (Ext.all _)
  have f0_4 : (encode s (.por d a b)).extractLsb' 0 4 = 8#4 := Ext.lo <| rfl
  have f23_2 : (encode s (.por d a b)).extractLsb' 23 2 = 0#2 := Ext.hi 13 <| Ext.hi 10 <| Ext.hi 8 <| Ext.hi 5 <| Ext.hi 3 <| Ext.hi 0 <| Ext.lo <| (Ext.all _)
  have f18_2 : (encode s (.por d a b)).extractLsb' 18 2 = 0#2 := Ext.hi 8 <| Ext.hi 5 <| Ext.hi 3 <| Ext.hi 0 <| Ext.lo <| (Ext.all _)
  have f13_2 : (encode s (.por d a b)).extractLsb' 13 2 = 0#2 := Ext.hi 3 <| Ext.hi 0 <| Ext.lo <| (Ext.all _)
  have f4_6 : (encode s (.por d a b)).extractLsb' 4 6 = 0#6 := Ext.lo <| rfl
  have f20_3 : (encode s (.por d a b)).extractLsb' 20 3 = d := Ext.hi 10 <| Ext.hi 7 <| Ext.hi 5 <| Ext.hi 2 <| Ext.hi 0 <| Ext.lo <| (Ext.all _)
  have f15_3 : (encode s (.por d a b)).extractLsb' 15 3 = a := Ext.hi 5 <| Ext.hi 2 <| Ext.hi 0 <| Ext.lo <| (Ext.all _)
  have f10_3 : (encode s (.por d a b)).extractLsb' 10 3 = b := Ext.hi 0 <| Ext.lo <| (Ext.all _)
  have f31 : (encode s (.por d a b)).getLsbD 31 = s := Ext.marker (Ext.hi 21 <| Ext.hi 18 <| Ext.hi 16 <| Ext.hi 13 <| Ext.hi 11 <| Ext.hi 8 <| Ext.hi 6 <| Ext.hi 0 <| (Ext.all _))
  generalize encode s (.por d a b) = w at *
  refine decode_of f25_6 (by decide) (by decide) f31 ?_ hwf
  have h1 : decodeMajor w = decodeVprd w := by rw [decodeMajor, f25_6]; rfl
  have h2 : decodeVprd w = fixedAt w 23 2 0 (fixedAt w 18 2 0 (fixedAt w 13 2 0 (fixedAt w 4 6 0 (pure (.por (w.extractLsb' 20 3) (w.extractLsb' 15 3) (w.extractLsb' 10 3)))))) := by rw [decodeVprd, f0_4]; rfl
  rw [h1, h2, fixedAt_ok f23_2, fixedAt_ok f18_2, fixedAt_ok f13_2, fixedAt_ok f4_6, f20_3, f15_3, f10_3]; rfl
theorem pxor (d : BitVec 3) (a : BitVec 3) (b : BitVec 3) : Statement (.pxor d a b) := by
  intro s hwf
  have f25_6 : (encode s (.pxor d a b)).extractLsb' 25 6 = 0x1F#6 := Ext.hi 15 <| Ext.hi 12 <| Ext.hi 10 <| Ext.hi 7 <| Ext.hi 5 <| Ext.hi 2 <| Ext.hi 0 <| Ext.lo <| (Ext.all _)
  have f0_4 : (encode s (.pxor d a b)).extractLsb' 0 4 = 9#4 := Ext.lo <| rfl
  have f23_2 : (encode s (.pxor d a b)).extractLsb' 23 2 = 0#2 := Ext.hi 13 <| Ext.hi 10 <| Ext.hi 8 <| Ext.hi 5 <| Ext.hi 3 <| Ext.hi 0 <| Ext.lo <| (Ext.all _)
  have f18_2 : (encode s (.pxor d a b)).extractLsb' 18 2 = 0#2 := Ext.hi 8 <| Ext.hi 5 <| Ext.hi 3 <| Ext.hi 0 <| Ext.lo <| (Ext.all _)
  have f13_2 : (encode s (.pxor d a b)).extractLsb' 13 2 = 0#2 := Ext.hi 3 <| Ext.hi 0 <| Ext.lo <| (Ext.all _)
  have f4_6 : (encode s (.pxor d a b)).extractLsb' 4 6 = 0#6 := Ext.lo <| rfl
  have f20_3 : (encode s (.pxor d a b)).extractLsb' 20 3 = d := Ext.hi 10 <| Ext.hi 7 <| Ext.hi 5 <| Ext.hi 2 <| Ext.hi 0 <| Ext.lo <| (Ext.all _)
  have f15_3 : (encode s (.pxor d a b)).extractLsb' 15 3 = a := Ext.hi 5 <| Ext.hi 2 <| Ext.hi 0 <| Ext.lo <| (Ext.all _)
  have f10_3 : (encode s (.pxor d a b)).extractLsb' 10 3 = b := Ext.hi 0 <| Ext.lo <| (Ext.all _)
  have f31 : (encode s (.pxor d a b)).getLsbD 31 = s := Ext.marker (Ext.hi 21 <| Ext.hi 18 <| Ext.hi 16 <| Ext.hi 13 <| Ext.hi 11 <| Ext.hi 8 <| Ext.hi 6 <| Ext.hi 0 <| (Ext.all _))
  generalize encode s (.pxor d a b) = w at *
  refine decode_of f25_6 (by decide) (by decide) f31 ?_ hwf
  have h1 : decodeMajor w = decodeVprd w := by rw [decodeMajor, f25_6]; rfl
  have h2 : decodeVprd w = fixedAt w 23 2 0 (fixedAt w 18 2 0 (fixedAt w 13 2 0 (fixedAt w 4 6 0 (pure (.pxor (w.extractLsb' 20 3) (w.extractLsb' 15 3) (w.extractLsb' 10 3)))))) := by rw [decodeVprd, f0_4]; rfl
  rw [h1, h2, fixedAt_ok f23_2, fixedAt_ok f18_2, fixedAt_ok f13_2, fixedAt_ok f4_6, f20_3, f15_3, f10_3]; rfl
theorem pnot (d : BitVec 3) (a : BitVec 3) : Statement (.pnot d a) := by
  intro s hwf
  have f25_6 : (encode s (.pnot d a)).extractLsb' 25 6 = 0x1F#6 := Ext.hi 10 <| Ext.hi 7 <| Ext.hi 5 <| Ext.hi 2 <| Ext.hi 0 <| Ext.lo <| (Ext.all _)
  have f0_4 : (encode s (.pnot d a)).extractLsb' 0 4 = 10#4 := Ext.lo <| rfl
  have f23_2 : (encode s (.pnot d a)).extractLsb' 23 2 = 0#2 := Ext.hi 8 <| Ext.hi 5 <| Ext.hi 3 <| Ext.hi 0 <| Ext.lo <| (Ext.all _)
  have f18_2 : (encode s (.pnot d a)).extractLsb' 18 2 = 0#2 := Ext.hi 3 <| Ext.hi 0 <| Ext.lo <| (Ext.all _)
  have f4_11 : (encode s (.pnot d a)).extractLsb' 4 11 = 0#11 := Ext.lo <| rfl
  have f20_3 : (encode s (.pnot d a)).extractLsb' 20 3 = d := Ext.hi 5 <| Ext.hi 2 <| Ext.hi 0 <| Ext.lo <| (Ext.all _)
  have f15_3 : (encode s (.pnot d a)).extractLsb' 15 3 = a := Ext.hi 0 <| Ext.lo <| (Ext.all _)
  have f31 : (encode s (.pnot d a)).getLsbD 31 = s := Ext.marker (Ext.hi 16 <| Ext.hi 13 <| Ext.hi 11 <| Ext.hi 8 <| Ext.hi 6 <| Ext.hi 0 <| (Ext.all _))
  generalize encode s (.pnot d a) = w at *
  refine decode_of f25_6 (by decide) (by decide) f31 ?_ hwf
  have h1 : decodeMajor w = decodeVprd w := by rw [decodeMajor, f25_6]; rfl
  have h2 : decodeVprd w = fixedAt w 23 2 0 (fixedAt w 18 2 0 (fixedAt w 4 11 0 (pure (.pnot (w.extractLsb' 20 3) (w.extractLsb' 15 3))))) := by rw [decodeVprd, f0_4]; rfl
  rw [h1, h2, fixedAt_ok f23_2, fixedAt_ok f18_2, fixedAt_ok f4_11, f20_3, f15_3]; rfl
theorem psetn (d : BitVec 3) (g : BitVec 5) : Statement (.psetn d g) := by
  intro s hwf
  have f25_6 : (encode s (.psetn d g)).extractLsb' 25 6 = 0x1F#6 := Ext.hi 10 <| Ext.hi 5 <| Ext.hi 2 <| Ext.hi 0 <| Ext.lo <| (Ext.all _)
  have f0_4 : (encode s (.psetn d g)).extractLsb' 0 4 = 11#4 := Ext.lo <| rfl
  have f23_2 : (encode s (.psetn d g)).extractLsb' 23 2 = 0#2 := Ext.hi 8 <| Ext.hi 3 <| Ext.hi 0 <| Ext.lo <| (Ext.all _)
  have f4_11 : (encode s (.psetn d g)).extractLsb' 4 11 = 0#11 := Ext.lo <| rfl
  have f20_3 : (encode s (.psetn d g)).extractLsb' 20 3 = d := Ext.hi 5 <| Ext.hi 0 <| Ext.lo <| (Ext.all _)
  have f15_5 : (encode s (.psetn d g)).extractLsb' 15 5 = g := Ext.hi 0 <| Ext.lo <| (Ext.all _)
  have f31 : (encode s (.psetn d g)).getLsbD 31 = s := Ext.marker (Ext.hi 16 <| Ext.hi 11 <| Ext.hi 8 <| Ext.hi 6 <| Ext.hi 0 <| (Ext.all _))
  generalize encode s (.psetn d g) = w at *
  refine decode_of f25_6 (by decide) (by decide) f31 ?_ hwf
  have h1 : decodeMajor w = decodeVprd w := by rw [decodeMajor, f25_6]; rfl
  have h2 : decodeVprd w = fixedAt w 23 2 0 (fixedAt w 4 11 0 (pure (.psetn (w.extractLsb' 20 3) (w.extractLsb' 15 5)))) := by rw [decodeVprd, f0_4]; rfl
  rw [h1, h2, fixedAt_ok f23_2, fixedAt_ok f4_11, f20_3, f15_5]; rfl
theorem pcnt (d : BitVec 5) (a : BitVec 3) : Statement (.pcnt d a) := by
  intro s hwf
  have f25_6 : (encode s (.pcnt d a)).extractLsb' 25 6 = 0x1F#6 := Ext.hi 10 <| Ext.hi 7 <| Ext.hi 5 <| Ext.hi 0 <| Ext.lo <| (Ext.all _)
  have f0_4 : (encode s (.pcnt d a)).extractLsb' 0 4 = 12#4 := Ext.lo <| rfl
  have f18_2 : (encode s (.pcnt d a)).extractLsb' 18 2 = 0#2 := Ext.hi 3 <| Ext.hi 0 <| Ext.lo <| (Ext.all _)
  have f4_11 : (encode s (.pcnt d a)).extractLsb' 4 11 = 0#11 := Ext.lo <| rfl
  have f20_5 : (encode s (.pcnt d a)).extractLsb' 20 5 = d := Ext.hi 5 <| Ext.hi 2 <| Ext.hi 0 <| Ext.lo <| (Ext.all _)
  have f15_3 : (encode s (.pcnt d a)).extractLsb' 15 3 = a := Ext.hi 0 <| Ext.lo <| (Ext.all _)
  have f31 : (encode s (.pcnt d a)).getLsbD 31 = s := Ext.marker (Ext.hi 16 <| Ext.hi 13 <| Ext.hi 11 <| Ext.hi 6 <| Ext.hi 0 <| (Ext.all _))
  generalize encode s (.pcnt d a) = w at *
  refine decode_of f25_6 (by decide) (by decide) f31 ?_ hwf
  have h1 : decodeMajor w = decodeVprd w := by rw [decodeMajor, f25_6]; rfl
  have h2 : decodeVprd w = fixedAt w 18 2 0 (fixedAt w 4 11 0 (pure (.pcnt (w.extractLsb' 20 5) (w.extractLsb' 15 3)))) := by rw [decodeVprd, f0_4]; rfl
  rw [h1, h2, fixedAt_ok f18_2, fixedAt_ok f4_11, f20_5, f15_3]; rfl
theorem pfirst (d : BitVec 5) (a : BitVec 3) : Statement (.pfirst d a) := by
  intro s hwf
  have f25_6 : (encode s (.pfirst d a)).extractLsb' 25 6 = 0x1F#6 := Ext.hi 10 <| Ext.hi 7 <| Ext.hi 5 <| Ext.hi 0 <| Ext.lo <| (Ext.all _)
  have f0_4 : (encode s (.pfirst d a)).extractLsb' 0 4 = 13#4 := Ext.lo <| rfl
  have f18_2 : (encode s (.pfirst d a)).extractLsb' 18 2 = 0#2 := Ext.hi 3 <| Ext.hi 0 <| Ext.lo <| (Ext.all _)
  have f4_11 : (encode s (.pfirst d a)).extractLsb' 4 11 = 0#11 := Ext.lo <| rfl
  have f20_5 : (encode s (.pfirst d a)).extractLsb' 20 5 = d := Ext.hi 5 <| Ext.hi 2 <| Ext.hi 0 <| Ext.lo <| (Ext.all _)
  have f15_3 : (encode s (.pfirst d a)).extractLsb' 15 3 = a := Ext.hi 0 <| Ext.lo <| (Ext.all _)
  have f31 : (encode s (.pfirst d a)).getLsbD 31 = s := Ext.marker (Ext.hi 16 <| Ext.hi 13 <| Ext.hi 11 <| Ext.hi 6 <| Ext.hi 0 <| (Ext.all _))
  generalize encode s (.pfirst d a) = w at *
  refine decode_of f25_6 (by decide) (by decide) f31 ?_ hwf
  have h1 : decodeMajor w = decodeVprd w := by rw [decodeMajor, f25_6]; rfl
  have h2 : decodeVprd w = fixedAt w 18 2 0 (fixedAt w 4 11 0 (pure (.pfirst (w.extractLsb' 20 5) (w.extractLsb' 15 3)))) := by rw [decodeVprd, f0_4]; rfl
  rw [h1, h2, fixedAt_ok f18_2, fixedAt_ok f4_11, f20_5, f15_3]; rfl
theorem vcvt (d : BitVec 5) (a : BitVec 5) (x : BitVec 5) (y : BitVec 5) (r : BitVec 3) (t : BitVec 1) : Statement (.vcvt d a x y r t) := by
  intro s hwf
  have f25_6 : (encode s (.vcvt d a x y r t)).extractLsb' 25 6 = 0x20#6 := Ext.hi 24 <| Ext.hi 23 <| Ext.hi 20 <| Ext.hi 15 <| Ext.hi 10 <| Ext.hi 5 <| Ext.hi 0 <| Ext.lo <| (Ext.all _)
  have f0_1 : (encode s (.vcvt d a x y r t)).extractLsb' 0 1 = 0#1 := Ext.lo <| (Ext.all _)
  have f20_5 : (encode s (.vcvt d a x y r t)).extractLsb' 20 5 = d := Ext.hi 19 <| Ext.hi 18 <| Ext.hi 15 <| Ext.hi 10 <| Ext.hi 5 <| Ext.hi 0 <| Ext.lo <| (Ext.all _)
  have f15_5 : (encode s (.vcvt d a x y r t)).extractLsb' 15 5 = a := Ext.hi 14 <| Ext.hi 13 <| Ext.hi 10 <| Ext.hi 5 <| Ext.hi 0 <| Ext.lo <| (Ext.all _)
  have f10_5 : (encode s (.vcvt d a x y r t)).extractLsb' 10 5 = x := Ext.hi 9 <| Ext.hi 8 <| Ext.hi 5 <| Ext.hi 0 <| Ext.lo <| (Ext.all _)
  have f5_5 : (encode s (.vcvt d a x y r t)).extractLsb' 5 5 = y := Ext.hi 4 <| Ext.hi 3 <| Ext.hi 0 <| Ext.lo <| (Ext.all _)
  have f2_3 : (encode s (.vcvt d a x y r t)).extractLsb' 2 3 = r := Ext.hi 1 <| Ext.hi 0 <| Ext.lo <| (Ext.all _)
  have f1_1 : (encode s (.vcvt d a x y r t)).extractLsb' 1 1 = t := Ext.hi 0 <| Ext.lo <| (Ext.all _)
  have f31 : (encode s (.vcvt d a x y r t)).getLsbD 31 = s := Ext.marker (Ext.hi 30 <| Ext.hi 29 <| Ext.hi 26 <| Ext.hi 21 <| Ext.hi 16 <| Ext.hi 11 <| Ext.hi 6 <| Ext.hi 0 <| (Ext.all _))
  generalize encode s (.vcvt d a x y r t) = w at *
  refine decode_of f25_6 (by decide) (by decide) f31 ?_ hwf
  have h1 : decodeMajor w = fixedAt w 0 1 0 (pure (.vcvt (w.extractLsb' 20 5) (w.extractLsb' 15 5) (w.extractLsb' 10 5) (w.extractLsb' 5 5) (w.extractLsb' 2 3) (w.extractLsb' 1 1))) := by rw [decodeMajor, f25_6]; rfl
  rw [h1, fixedAt_ok f0_1, f20_5, f15_5, f10_5, f5_5, f2_3, f1_1]; rfl
theorem vquant (d : BitVec 5) (a : BitVec 5) (g : BitVec 5) (r : BitVec 2) (f : BitVec 2) : Statement (.vquant d a g r f) := by
  intro s hwf
  have f25_6 : (encode s (.vquant d a g r f)).extractLsb' 25 6 = 0x21#6 := Ext.hi 19 <| Ext.hi 17 <| Ext.hi 15 <| Ext.hi 10 <| Ext.hi 5 <| Ext.hi 0 <| Ext.lo <| (Ext.all _)
  have f0_6 : (encode s (.vquant d a g r f)).extractLsb' 0 6 = 0#6 := Ext.lo <| (Ext.all _)
  have f20_5 : (encode s (.vquant d a g r f)).extractLsb' 20 5 = d := Ext.hi 14 <| Ext.hi 12 <| Ext.hi 10 <| Ext.hi 5 <| Ext.hi 0 <| Ext.lo <| (Ext.all _)
  have f15_5 : (encode s (.vquant d a g r f)).extractLsb' 15 5 = a := Ext.hi 9 <| Ext.hi 7 <| Ext.hi 5 <| Ext.hi 0 <| Ext.lo <| (Ext.all _)
  have f10_5 : (encode s (.vquant d a g r f)).extractLsb' 10 5 = g := Ext.hi 4 <| Ext.hi 2 <| Ext.hi 0 <| Ext.lo <| (Ext.all _)
  have f8_2 : (encode s (.vquant d a g r f)).extractLsb' 8 2 = r := Ext.hi 2 <| Ext.hi 0 <| Ext.lo <| (Ext.all _)
  have f6_2 : (encode s (.vquant d a g r f)).extractLsb' 6 2 = f := Ext.hi 0 <| Ext.lo <| (Ext.all _)
  have f31 : (encode s (.vquant d a g r f)).getLsbD 31 = s := Ext.marker (Ext.hi 25 <| Ext.hi 23 <| Ext.hi 21 <| Ext.hi 16 <| Ext.hi 11 <| Ext.hi 6 <| Ext.hi 0 <| (Ext.all _))
  generalize encode s (.vquant d a g r f) = w at *
  refine decode_of f25_6 (by decide) (by decide) f31 ?_ hwf
  have h1 : decodeMajor w = decodeVq w := by rw [decodeMajor, f25_6]; rfl
  have h2 : decodeVq w = pure (.vquant (w.extractLsb' 20 5) (w.extractLsb' 15 5) (w.extractLsb' 10 5) (w.extractLsb' 8 2) (w.extractLsb' 6 2)) := by rw [decodeVq, f0_6]; rfl
  rw [h1, h2, f20_5, f15_5, f10_5, f8_2, f6_2]; rfl
theorem vdeq (d : BitVec 5) (a : BitVec 5) (g : BitVec 5) (r : BitVec 2) (f : BitVec 2) : Statement (.vdeq d a g r f) := by
  intro s hwf
  have f25_6 : (encode s (.vdeq d a g r f)).extractLsb' 25 6 = 0x21#6 := Ext.hi 19 <| Ext.hi 17 <| Ext.hi 15 <| Ext.hi 10 <| Ext.hi 5 <| Ext.hi 0 <| Ext.lo <| (Ext.all _)
  have f0_6 : (encode s (.vdeq d a g r f)).extractLsb' 0 6 = 1#6 := Ext.lo <| (Ext.all _)
  have f20_5 : (encode s (.vdeq d a g r f)).extractLsb' 20 5 = d := Ext.hi 14 <| Ext.hi 12 <| Ext.hi 10 <| Ext.hi 5 <| Ext.hi 0 <| Ext.lo <| (Ext.all _)
  have f15_5 : (encode s (.vdeq d a g r f)).extractLsb' 15 5 = a := Ext.hi 9 <| Ext.hi 7 <| Ext.hi 5 <| Ext.hi 0 <| Ext.lo <| (Ext.all _)
  have f10_5 : (encode s (.vdeq d a g r f)).extractLsb' 10 5 = g := Ext.hi 4 <| Ext.hi 2 <| Ext.hi 0 <| Ext.lo <| (Ext.all _)
  have f8_2 : (encode s (.vdeq d a g r f)).extractLsb' 8 2 = r := Ext.hi 2 <| Ext.hi 0 <| Ext.lo <| (Ext.all _)
  have f6_2 : (encode s (.vdeq d a g r f)).extractLsb' 6 2 = f := Ext.hi 0 <| Ext.lo <| (Ext.all _)
  have f31 : (encode s (.vdeq d a g r f)).getLsbD 31 = s := Ext.marker (Ext.hi 25 <| Ext.hi 23 <| Ext.hi 21 <| Ext.hi 16 <| Ext.hi 11 <| Ext.hi 6 <| Ext.hi 0 <| (Ext.all _))
  generalize encode s (.vdeq d a g r f) = w at *
  refine decode_of f25_6 (by decide) (by decide) f31 ?_ hwf
  have h1 : decodeMajor w = decodeVq w := by rw [decodeMajor, f25_6]; rfl
  have h2 : decodeVq w = pure (.vdeq (w.extractLsb' 20 5) (w.extractLsb' 15 5) (w.extractLsb' 10 5) (w.extractLsb' 8 2) (w.extractLsb' 6 2)) := by rw [decodeVq, f0_6]; rfl
  rw [h1, h2, f20_5, f15_5, f10_5, f8_2, f6_2]; rfl
theorem vpack (d : BitVec 5) (a : BitVec 5) (f : BitVec 1) : Statement (.vpack d a f) := by
  intro s hwf
  have f25_6 : (encode s (.vpack d a f)).extractLsb' 25 6 = 0x21#6 := Ext.hi 18 <| Ext.hi 17 <| Ext.hi 10 <| Ext.hi 5 <| Ext.hi 0 <| Ext.lo <| (Ext.all _)
  have f0_6 : (encode s (.vpack d a f)).extractLsb' 0 6 = 2#6 := Ext.lo <| rfl
  have f8_7 : (encode s (.vpack d a f)).extractLsb' 8 7 = 0#7 := Ext.hi 1 <| Ext.hi 0 <| Ext.lo <| (Ext.all _)
  have f6_1 : (encode s (.vpack d a f)).extractLsb' 6 1 = 1#1 := Ext.lo <| rfl
  have f20_5 : (encode s (.vpack d a f)).extractLsb' 20 5 = d := Ext.hi 13 <| Ext.hi 12 <| Ext.hi 5 <| Ext.hi 0 <| Ext.lo <| (Ext.all _)
  have f15_5 : (encode s (.vpack d a f)).extractLsb' 15 5 = a := Ext.hi 8 <| Ext.hi 7 <| Ext.hi 0 <| Ext.lo <| (Ext.all _)
  have f7_1 : (encode s (.vpack d a f)).extractLsb' 7 1 = f := Ext.hi 0 <| Ext.lo <| (Ext.all _)
  have f31 : (encode s (.vpack d a f)).getLsbD 31 = s := Ext.marker (Ext.hi 24 <| Ext.hi 23 <| Ext.hi 16 <| Ext.hi 11 <| Ext.hi 6 <| Ext.hi 0 <| (Ext.all _))
  generalize encode s (.vpack d a f) = w at *
  refine decode_of f25_6 (by decide) (by decide) f31 ?_ hwf
  have h1 : decodeMajor w = decodeVq w := by rw [decodeMajor, f25_6]; rfl
  have h2 : decodeVq w = fixedAt w 8 7 0 (fixedAt w 6 1 1 (pure (.vpack (w.extractLsb' 20 5) (w.extractLsb' 15 5) (w.extractLsb' 7 1)))) := by rw [decodeVq, f0_6]; rfl
  rw [h1, h2, fixedAt_ok f8_7, fixedAt_ok f6_1, f20_5, f15_5, f7_1]; rfl
theorem vunpk (d : BitVec 5) (a : BitVec 5) (f : BitVec 1) : Statement (.vunpk d a f) := by
  intro s hwf
  have f25_6 : (encode s (.vunpk d a f)).extractLsb' 25 6 = 0x21#6 := Ext.hi 18 <| Ext.hi 17 <| Ext.hi 10 <| Ext.hi 5 <| Ext.hi 0 <| Ext.lo <| (Ext.all _)
  have f0_6 : (encode s (.vunpk d a f)).extractLsb' 0 6 = 3#6 := Ext.lo <| rfl
  have f8_7 : (encode s (.vunpk d a f)).extractLsb' 8 7 = 0#7 := Ext.hi 1 <| Ext.hi 0 <| Ext.lo <| (Ext.all _)
  have f6_1 : (encode s (.vunpk d a f)).extractLsb' 6 1 = 1#1 := Ext.lo <| rfl
  have f20_5 : (encode s (.vunpk d a f)).extractLsb' 20 5 = d := Ext.hi 13 <| Ext.hi 12 <| Ext.hi 5 <| Ext.hi 0 <| Ext.lo <| (Ext.all _)
  have f15_5 : (encode s (.vunpk d a f)).extractLsb' 15 5 = a := Ext.hi 8 <| Ext.hi 7 <| Ext.hi 0 <| Ext.lo <| (Ext.all _)
  have f7_1 : (encode s (.vunpk d a f)).extractLsb' 7 1 = f := Ext.hi 0 <| Ext.lo <| (Ext.all _)
  have f31 : (encode s (.vunpk d a f)).getLsbD 31 = s := Ext.marker (Ext.hi 24 <| Ext.hi 23 <| Ext.hi 16 <| Ext.hi 11 <| Ext.hi 6 <| Ext.hi 0 <| (Ext.all _))
  generalize encode s (.vunpk d a f) = w at *
  refine decode_of f25_6 (by decide) (by decide) f31 ?_ hwf
  have h1 : decodeMajor w = decodeVq w := by rw [decodeMajor, f25_6]; rfl
  have h2 : decodeVq w = fixedAt w 8 7 0 (fixedAt w 6 1 1 (pure (.vunpk (w.extractLsb' 20 5) (w.extractLsb' 15 5) (w.extractLsb' 7 1)))) := by rw [decodeVq, f0_6]; rfl
  rw [h1, h2, fixedAt_ok f8_7, fixedAt_ok f6_1, f20_5, f15_5, f7_1]; rfl
theorem tld (d : BitVec 3) (x : BitVec 5) (y : BitVec 5) : Statement (.tld d x y) := by
  intro s hwf
  have f25_6 : (encode s (.tld d x y)).extractLsb' 25 6 = 0x22#6 := Ext.hi 19 <| Ext.hi 14 <| Ext.hi 9 <| Ext.hi 3 <| Ext.hi 0 <| Ext.lo <| (Ext.all _)
  have f0_6 : (encode s (.tld d x y)).extractLsb' 0 6 = 0#6 := Ext.lo <| (Ext.all _)
  have f16_6 : (encode s (.tld d x y)).extractLsb' 16 6 = 0#6 := Ext.hi 10 <| Ext.hi 5 <| Ext.hi 0 <| Ext.lo <| (Ext.all _)
  have f22_3 : (encode s (.tld d x y)).extractLsb' 22 3 = d := Ext.hi 16 <| Ext.hi 11 <| Ext.hi 6 <| Ext.hi 0 <| Ext.lo <| (Ext.all _)
  have f11_5 : (encode s (.tld d x y)).extractLsb' 11 5 = x := Ext.hi 5 <| Ext.hi 0 <| Ext.lo <| (Ext.all _)
  have f6_5 : (encode s (.tld d x y)).extractLsb' 6 5 = y := Ext.hi 0 <| Ext.lo <| (Ext.all _)
  have f31 : (encode s (.tld d x y)).getLsbD 31 = s := Ext.marker (Ext.hi 25 <| Ext.hi 20 <| Ext.hi 15 <| Ext.hi 9 <| Ext.hi 6 <| Ext.hi 0 <| (Ext.all _))
  generalize encode s (.tld d x y) = w at *
  refine decode_of f25_6 (by decide) (by decide) f31 ?_ hwf
  have h1 : decodeMajor w = decodeTile w := by rw [decodeMajor, f25_6]; rfl
  have h2 : decodeTile w = fixedAt w 16 6 0 (pure (.tld (w.extractLsb' 22 3) (w.extractLsb' 11 5) (w.extractLsb' 6 5))) := by rw [decodeTile, f0_6]; rfl
  rw [h1, h2, fixedAt_ok f16_6, f22_3, f11_5, f6_5]; rfl
theorem tst (a : BitVec 3) (x : BitVec 5) (y : BitVec 5) : Statement (.tst a x y) := by
  intro s hwf
  have f25_6 : (encode s (.tst a x y)).extractLsb' 25 6 = 0x22#6 := Ext.hi 19 <| Ext.hi 14 <| Ext.hi 9 <| Ext.hi 6 <| Ext.hi 3 <| Ext.hi 0 <| Ext.lo <| (Ext.all _)
  have f0_6 : (encode s (.tst a x y)).extractLsb' 0 6 = 1#6 := Ext.lo <| (Ext.all _)
  have f22_3 : (encode s (.tst a x y)).extractLsb' 22 3 = 0#3 := Ext.hi 16 <| Ext.hi 11 <| Ext.hi 6 <| Ext.hi 3 <| Ext.hi 0 <| Ext.lo <| (Ext.all _)
  have f16_3 : (encode s (.tst a x y)).extractLsb' 16 3 = 0#3 := Ext.hi 10 <| Ext.hi 5 <| Ext.hi 0 <| Ext.lo <| (Ext.all _)
  have f19_3 : (encode s (.tst a x y)).extractLsb' 19 3 = a := Ext.hi 13 <| Ext.hi 8 <| Ext.hi 3 <| Ext.hi 0 <| Ext.lo <| (Ext.all _)
  have f11_5 : (encode s (.tst a x y)).extractLsb' 11 5 = x := Ext.hi 5 <| Ext.hi 0 <| Ext.lo <| (Ext.all _)
  have f6_5 : (encode s (.tst a x y)).extractLsb' 6 5 = y := Ext.hi 0 <| Ext.lo <| (Ext.all _)
  have f31 : (encode s (.tst a x y)).getLsbD 31 = s := Ext.marker (Ext.hi 25 <| Ext.hi 20 <| Ext.hi 15 <| Ext.hi 12 <| Ext.hi 9 <| Ext.hi 6 <| Ext.hi 0 <| (Ext.all _))
  generalize encode s (.tst a x y) = w at *
  refine decode_of f25_6 (by decide) (by decide) f31 ?_ hwf
  have h1 : decodeMajor w = decodeTile w := by rw [decodeMajor, f25_6]; rfl
  have h2 : decodeTile w = fixedAt w 22 3 0 (fixedAt w 16 3 0 (pure (.tst (w.extractLsb' 19 3) (w.extractLsb' 11 5) (w.extractLsb' 6 5)))) := by rw [decodeTile, f0_6]; rfl
  rw [h1, h2, fixedAt_ok f22_3, fixedAt_ok f16_3, f19_3, f11_5, f6_5]; rfl
theorem tzero (d : BitVec 3) : Statement (.tzero d) := by
  intro s hwf
  have f25_6 : (encode s (.tzero d)).extractLsb' 25 6 = 0x22#6 := Ext.hi 3 <| Ext.hi 0 <| Ext.lo <| (Ext.all _)
  have f0_6 : (encode s (.tzero d)).extractLsb' 0 6 = 2#6 := Ext.lo <| rfl
  have f6_16 : (encode s (.tzero d)).extractLsb' 6 16 = 0#16 := Ext.lo <| rfl
  have f22_3 : (encode s (.tzero d)).extractLsb' 22 3 = d := Ext.hi 0 <| Ext.lo <| (Ext.all _)
  have f31 : (encode s (.tzero d)).getLsbD 31 = s := Ext.marker (Ext.hi 9 <| Ext.hi 6 <| Ext.hi 0 <| (Ext.all _))
  generalize encode s (.tzero d) = w at *
  refine decode_of f25_6 (by decide) (by decide) f31 ?_ hwf
  have h1 : decodeMajor w = decodeTile w := by rw [decodeMajor, f25_6]; rfl
  have h2 : decodeTile w = fixedAt w 6 16 0 (pure (.tzero (w.extractLsb' 22 3))) := by rw [decodeTile, f0_6]; rfl
  rw [h1, h2, fixedAt_ok f6_16, f22_3]; rfl
theorem tzp (d : BitVec 3) (x : BitVec 5) : Statement (.tzp d x) := by
  intro s hwf
  have f25_6 : (encode s (.tzp d x)).extractLsb' 25 6 = 0x22#6 := Ext.hi 14 <| Ext.hi 9 <| Ext.hi 3 <| Ext.hi 0 <| Ext.lo <| (Ext.all _)
  have f0_6 : (encode s (.tzp d x)).extractLsb' 0 6 = 3#6 := Ext.lo <| rfl
  have f16_6 : (encode s (.tzp d x)).extractLsb' 16 6 = 0#6 := Ext.hi 5 <| Ext.hi 0 <| Ext.lo <| (Ext.all _)
  have f6_5 : (encode s (.tzp d x)).extractLsb' 6 5 = 0#5 := Ext.lo <| rfl
  have f22_3 : (encode s (.tzp d x)).extractLsb' 22 3 = d := Ext.hi 11 <| Ext.hi 6 <| Ext.hi 0 <| Ext.lo <| (Ext.all _)
  have f11_5 : (encode s (.tzp d x)).extractLsb' 11 5 = x := Ext.hi 0 <| Ext.lo <| (Ext.all _)
  have f31 : (encode s (.tzp d x)).getLsbD 31 = s := Ext.marker (Ext.hi 20 <| Ext.hi 15 <| Ext.hi 9 <| Ext.hi 6 <| Ext.hi 0 <| (Ext.all _))
  generalize encode s (.tzp d x) = w at *
  refine decode_of f25_6 (by decide) (by decide) f31 ?_ hwf
  have h1 : decodeMajor w = decodeTile w := by rw [decodeMajor, f25_6]; rfl
  have h2 : decodeTile w = fixedAt w 16 6 0 (fixedAt w 6 5 0 (pure (.tzp (w.extractLsb' 22 3) (w.extractLsb' 11 5)))) := by rw [decodeTile, f0_6]; rfl
  rw [h1, h2, fixedAt_ok f16_6, fixedAt_ok f6_5, f22_3, f11_5]; rfl
theorem tgetzp (a : BitVec 3) (x : BitVec 5) (y : BitVec 5) : Statement (.tgetzp a x y) := by
  intro s hwf
  have f25_6 : (encode s (.tgetzp a x y)).extractLsb' 25 6 = 0x22#6 := Ext.hi 19 <| Ext.hi 14 <| Ext.hi 9 <| Ext.hi 6 <| Ext.hi 3 <| Ext.hi 0 <| Ext.lo <| (Ext.all _)
  have f0_6 : (encode s (.tgetzp a x y)).extractLsb' 0 6 = 4#6 := Ext.lo <| (Ext.all _)
  have f22_3 : (encode s (.tgetzp a x y)).extractLsb' 22 3 = 0#3 := Ext.hi 16 <| Ext.hi 11 <| Ext.hi 6 <| Ext.hi 3 <| Ext.hi 0 <| Ext.lo <| (Ext.all _)
  have f16_3 : (encode s (.tgetzp a x y)).extractLsb' 16 3 = 0#3 := Ext.hi 10 <| Ext.hi 5 <| Ext.hi 0 <| Ext.lo <| (Ext.all _)
  have f19_3 : (encode s (.tgetzp a x y)).extractLsb' 19 3 = a := Ext.hi 13 <| Ext.hi 8 <| Ext.hi 3 <| Ext.hi 0 <| Ext.lo <| (Ext.all _)
  have f11_5 : (encode s (.tgetzp a x y)).extractLsb' 11 5 = x := Ext.hi 5 <| Ext.hi 0 <| Ext.lo <| (Ext.all _)
  have f6_5 : (encode s (.tgetzp a x y)).extractLsb' 6 5 = y := Ext.hi 0 <| Ext.lo <| (Ext.all _)
  have f31 : (encode s (.tgetzp a x y)).getLsbD 31 = s := Ext.marker (Ext.hi 25 <| Ext.hi 20 <| Ext.hi 15 <| Ext.hi 12 <| Ext.hi 9 <| Ext.hi 6 <| Ext.hi 0 <| (Ext.all _))
  generalize encode s (.tgetzp a x y) = w at *
  refine decode_of f25_6 (by decide) (by decide) f31 ?_ hwf
  have h1 : decodeMajor w = decodeTile w := by rw [decodeMajor, f25_6]; rfl
  have h2 : decodeTile w = fixedAt w 22 3 0 (fixedAt w 16 3 0 (pure (.tgetzp (w.extractLsb' 19 3) (w.extractLsb' 11 5) (w.extractLsb' 6 5)))) := by rw [decodeTile, f0_6]; rfl
  rw [h1, h2, fixedAt_ok f22_3, fixedAt_ok f16_3, f19_3, f11_5, f6_5]; rfl
theorem lease (x : BitVec 5) (y : BitVec 5) : Statement (.lease x y) := by
  intro s hwf
  have f25_6 : (encode s (.lease x y)).extractLsb' 25 6 = 0x23#6 := Ext.hi 19 <| Ext.hi 14 <| Ext.hi 9 <| Ext.hi 0 <| Ext.lo <| (Ext.all _)
  have f0_6 : (encode s (.lease x y)).extractLsb' 0 6 = 0#6 := Ext.lo <| (Ext.all _)
  have f16_9 : (encode s (.lease x y)).extractLsb' 16 9 = 0#9 := Ext.hi 10 <| Ext.hi 5 <| Ext.hi 0 <| Ext.lo <| (Ext.all _)
  have f11_5 : (encode s (.lease x y)).extractLsb' 11 5 = x := Ext.hi 5 <| Ext.hi 0 <| Ext.lo <| (Ext.all _)
  have f6_5 : (encode s (.lease x y)).extractLsb' 6 5 = y := Ext.hi 0 <| Ext.lo <| (Ext.all _)
  have f31 : (encode s (.lease x y)).getLsbD 31 = s := Ext.marker (Ext.hi 25 <| Ext.hi 20 <| Ext.hi 15 <| Ext.hi 6 <| Ext.hi 0 <| (Ext.all _))
  generalize encode s (.lease x y) = w at *
  refine decode_of f25_6 (by decide) (by decide) f31 ?_ hwf
  have h1 : decodeMajor w = decodeLoom w := by rw [decodeMajor, f25_6]; rfl
  have h2 : decodeLoom w = fixedAt w 16 9 0 (pure (.lease (w.extractLsb' 11 5) (w.extractLsb' 6 5))) := by rw [decodeLoom, f0_6]; rfl
  rw [h1, h2, fixedAt_ok f16_9, f11_5, f6_5]; rfl
theorem mwin (x : BitVec 5) : Statement (.mwin x) := by
  intro s hwf
  have f25_6 : (encode s (.mwin x)).extractLsb' 25 6 = 0x23#6 := Ext.hi 14 <| Ext.hi 9 <| Ext.hi 0 <| Ext.lo <| (Ext.all _)
  have f0_6 : (encode s (.mwin x)).extractLsb' 0 6 = 3#6 := Ext.lo <| rfl
  have f16_9 : (encode s (.mwin x)).extractLsb' 16 9 = 0#9 := Ext.hi 5 <| Ext.hi 0 <| Ext.lo <| (Ext.all _)
  have f6_5 : (encode s (.mwin x)).extractLsb' 6 5 = 0#5 := Ext.lo <| rfl
  have f11_5 : (encode s (.mwin x)).extractLsb' 11 5 = x := Ext.hi 0 <| Ext.lo <| (Ext.all _)
  have f31 : (encode s (.mwin x)).getLsbD 31 = s := Ext.marker (Ext.hi 20 <| Ext.hi 15 <| Ext.hi 6 <| Ext.hi 0 <| (Ext.all _))
  generalize encode s (.mwin x) = w at *
  refine decode_of f25_6 (by decide) (by decide) f31 ?_ hwf
  have h1 : decodeMajor w = decodeLoom w := by rw [decodeMajor, f25_6]; rfl
  have h2 : decodeLoom w = fixedAt w 16 9 0 (fixedAt w 6 5 0 (pure (.mwin (w.extractLsb' 11 5)))) := by rw [decodeLoom, f0_6]; rfl
  rw [h1, h2, fixedAt_ok f16_9, fixedAt_ok f6_5, f11_5]; rfl
theorem mdrain (x : BitVec 5) : Statement (.mdrain x) := by
  intro s hwf
  have f25_6 : (encode s (.mdrain x)).extractLsb' 25 6 = 0x23#6 := Ext.hi 14 <| Ext.hi 9 <| Ext.hi 0 <| Ext.lo <| (Ext.all _)
  have f0_6 : (encode s (.mdrain x)).extractLsb' 0 6 = 4#6 := Ext.lo <| rfl
  have f16_9 : (encode s (.mdrain x)).extractLsb' 16 9 = 0#9 := Ext.hi 5 <| Ext.hi 0 <| Ext.lo <| (Ext.all _)
  have f6_5 : (encode s (.mdrain x)).extractLsb' 6 5 = 0#5 := Ext.lo <| rfl
  have f11_5 : (encode s (.mdrain x)).extractLsb' 11 5 = x := Ext.hi 0 <| Ext.lo <| (Ext.all _)
  have f31 : (encode s (.mdrain x)).getLsbD 31 = s := Ext.marker (Ext.hi 20 <| Ext.hi 15 <| Ext.hi 6 <| Ext.hi 0 <| (Ext.all _))
  generalize encode s (.mdrain x) = w at *
  refine decode_of f25_6 (by decide) (by decide) f31 ?_ hwf
  have h1 : decodeMajor w = decodeLoom w := by rw [decodeMajor, f25_6]; rfl
  have h2 : decodeLoom w = fixedAt w 16 9 0 (fixedAt w 6 5 0 (pure (.mdrain (w.extractLsb' 11 5)))) := by rw [decodeLoom, f0_6]; rfl
  rw [h1, h2, fixedAt_ok f16_9, fixedAt_ok f6_5, f11_5]; rfl
theorem lstat (x : BitVec 5) (y : BitVec 5) : Statement (.lstat x y) := by
  intro s hwf
  have f25_6 : (encode s (.lstat x y)).extractLsb' 25 6 = 0x23#6 := Ext.hi 19 <| Ext.hi 14 <| Ext.hi 9 <| Ext.hi 0 <| Ext.lo <| (Ext.all _)
  have f0_6 : (encode s (.lstat x y)).extractLsb' 0 6 = 5#6 := Ext.lo <| (Ext.all _)
  have f16_9 : (encode s (.lstat x y)).extractLsb' 16 9 = 0#9 := Ext.hi 10 <| Ext.hi 5 <| Ext.hi 0 <| Ext.lo <| (Ext.all _)
  have f11_5 : (encode s (.lstat x y)).extractLsb' 11 5 = x := Ext.hi 5 <| Ext.hi 0 <| Ext.lo <| (Ext.all _)
  have f6_5 : (encode s (.lstat x y)).extractLsb' 6 5 = y := Ext.hi 0 <| Ext.lo <| (Ext.all _)
  have f31 : (encode s (.lstat x y)).getLsbD 31 = s := Ext.marker (Ext.hi 25 <| Ext.hi 20 <| Ext.hi 15 <| Ext.hi 6 <| Ext.hi 0 <| (Ext.all _))
  generalize encode s (.lstat x y) = w at *
  refine decode_of f25_6 (by decide) (by decide) f31 ?_ hwf
  have h1 : decodeMajor w = decodeLoom w := by rw [decodeMajor, f25_6]; rfl
  have h2 : decodeLoom w = fixedAt w 16 9 0 (pure (.lstat (w.extractLsb' 11 5) (w.extractLsb' 6 5))) := by rw [decodeLoom, f0_6]; rfl
  rw [h1, h2, fixedAt_ok f16_9, f11_5, f6_5]; rfl
theorem mma (a : BitVec 3) (b : BitVec 3) (p : BitVec 4) : Statement (.mma a b p) := by
  intro s hwf
  have f25_6 : (encode s (.mma a b p)).extractLsb' 25 6 = 0x23#6 := Ext.hi 21 <| Ext.hi 9 <| Ext.hi 6 <| Ext.hi 3 <| Ext.hi 0 <| Ext.lo <| (Ext.all _)
  have f4_2 : (encode s (.mma a b p)).extractLsb' 4 2 = 1#2 := Ext.hi 0 <| Ext.lo <| rfl
  have f22_3 : (encode s (.mma a b p)).extractLsb' 22 3 = 0#3 := Ext.hi 18 <| Ext.hi 6 <| Ext.hi 3 <| Ext.hi 0 <| Ext.lo <| (Ext.all _)
  have f6_10 : (encode s (.mma a b p)).extractLsb' 6 10 = 0#10 := Ext.hi 2 <| Ext.lo <| rfl
  have f19_3 : (encode s (.mma a b p)).extractLsb' 19 3 = a := Ext.hi 15 <| Ext.hi 3 <| Ext.hi 0 <| Ext.lo <| (Ext.all _)
  have f16_3 : (encode s (.mma a b p)).extractLsb' 16 3 = b := Ext.hi 12 <| Ext.hi 0 <| Ext.lo <| (Ext.all _)
  have f0_4 : (encode s (.mma a b p)).extractLsb' 0 4 = p := Ext.lo <| (Ext.all _)
  have f31 : (encode s (.mma a b p)).getLsbD 31 = s := Ext.marker (Ext.hi 27 <| Ext.hi 15 <| Ext.hi 12 <| Ext.hi 9 <| Ext.hi 6 <| Ext.hi 0 <| (Ext.all _))
  generalize encode s (.mma a b p) = w at *
  refine decode_of f25_6 (by decide) (by decide) f31 ?_ hwf
  have h1 : decodeMajor w = decodeLoom w := by rw [decodeMajor, f25_6]; rfl
  have h2 : decodeLoom w = fixedAt w 22 3 0 (fixedAt w 6 10 0 (pure (.mma (w.extractLsb' 19 3) (w.extractLsb' 16 3) (w.extractLsb' 0 4)))) := by
    have hn : 16 ≤ (w.extractLsb' 0 6).toNat := Ext.atLeast w 1 (by decide) f4_2
    rw [decodeLoom]; split <;> first | omega | rw [f4_2]; rfl
  rw [h1, h2, fixedAt_ok f22_3, fixedAt_ok f6_10, f19_3, f16_3, f0_4]; rfl
theorem mmaz (a : BitVec 3) (b : BitVec 3) (p : BitVec 4) : Statement (.mmaz a b p) := by
  intro s hwf
  have f25_6 : (encode s (.mmaz a b p)).extractLsb' 25 6 = 0x23#6 := Ext.hi 21 <| Ext.hi 9 <| Ext.hi 6 <| Ext.hi 3 <| Ext.hi 0 <| Ext.lo <| (Ext.all _)
  have f4_2 : (encode s (.mmaz a b p)).extractLsb' 4 2 = 2#2 := Ext.hi 0 <| Ext.lo <| rfl
  have f22_3 : (encode s (.mmaz a b p)).extractLsb' 22 3 = 0#3 := Ext.hi 18 <| Ext.hi 6 <| Ext.hi 3 <| Ext.hi 0 <| Ext.lo <| (Ext.all _)
  have f6_10 : (encode s (.mmaz a b p)).extractLsb' 6 10 = 0#10 := Ext.hi 2 <| Ext.lo <| rfl
  have f19_3 : (encode s (.mmaz a b p)).extractLsb' 19 3 = a := Ext.hi 15 <| Ext.hi 3 <| Ext.hi 0 <| Ext.lo <| (Ext.all _)
  have f16_3 : (encode s (.mmaz a b p)).extractLsb' 16 3 = b := Ext.hi 12 <| Ext.hi 0 <| Ext.lo <| (Ext.all _)
  have f0_4 : (encode s (.mmaz a b p)).extractLsb' 0 4 = p := Ext.lo <| (Ext.all _)
  have f31 : (encode s (.mmaz a b p)).getLsbD 31 = s := Ext.marker (Ext.hi 27 <| Ext.hi 15 <| Ext.hi 12 <| Ext.hi 9 <| Ext.hi 6 <| Ext.hi 0 <| (Ext.all _))
  generalize encode s (.mmaz a b p) = w at *
  refine decode_of f25_6 (by decide) (by decide) f31 ?_ hwf
  have h1 : decodeMajor w = decodeLoom w := by rw [decodeMajor, f25_6]; rfl
  have h2 : decodeLoom w = fixedAt w 22 3 0 (fixedAt w 6 10 0 (pure (.mmaz (w.extractLsb' 19 3) (w.extractLsb' 16 3) (w.extractLsb' 0 4)))) := by
    have hn : 32 ≤ (w.extractLsb' 0 6).toNat := Ext.atLeast w 2 (by decide) f4_2
    rw [decodeLoom]; split <;> first | omega | rw [f4_2]; rfl
  rw [h1, h2, fixedAt_ok f22_3, fixedAt_ok f6_10, f19_3, f16_3, f0_4]; rfl
theorem push (d : BitVec 5) (a : BitVec 5) (k : BitVec 3) : Statement (.push d a k) := by
  intro s hwf
  have f25_6 : (encode s (.push d a k)).extractLsb' 25 6 = 0x24#6 := Ext.hi 22 <| Ext.hi 10 <| Ext.hi 5 <| Ext.hi 0 <| Ext.lo <| (Ext.all _)
  have f4_6 : (encode s (.push d a k)).extractLsb' 4 6 = 0#6 := Ext.hi 1 <| Ext.lo <| rfl
  have f10_5 : (encode s (.push d a k)).extractLsb' 10 5 = 0#5 := Ext.hi 7 <| Ext.lo <| rfl
  have f3_1 : (encode s (.push d a k)).extractLsb' 3 1 = 0#1 := Ext.hi 0 <| Ext.lo <| rfl
  have f20_5 : (encode s (.push d a k)).extractLsb' 20 5 = d := Ext.hi 17 <| Ext.hi 5 <| Ext.hi 0 <| Ext.lo <| (Ext.all _)
  have f15_5 : (encode s (.push d a k)).extractLsb' 15 5 = a := Ext.hi 12 <| Ext.hi 0 <| Ext.lo <| (Ext.all _)
  have f0_3 : (encode s (.push d a k)).extractLsb' 0 3 = k := Ext.lo <| (Ext.all _)
  have f31 : (encode s (.push d a k)).getLsbD 31 = s := Ext.marker (Ext.hi 28 <| Ext.hi 16 <| Ext.hi 11 <| Ext.hi 6 <| Ext.hi 0 <| (Ext.all _))
  generalize encode s (.push d a k) = w at *
  refine decode_of f25_6 (by decide) (by decide) f31 ?_ hwf
  have h1 : decodeMajor w = decodeQue w := by rw [decodeMajor, f25_6]; rfl
  have h2 : decodeQue w = fixedAt w 10 5 0 (fixedAt w 3 1 0 (pure (.push (w.extractLsb' 20 5) (w.extractLsb' 15 5) (w.extractLsb' 0 3)))) := by rw [decodeQue, f4_6]; rfl
  rw [h1, h2, fixedAt_ok f10_5, fixedAt_ok f3_1, f20_5, f15_5, f0_3]; rfl
theorem movq (b : BitVec 5) (k : BitVec 3) : Statement (.movq b k) := by
  intro s hwf
  have f25_6 : (encode s (.movq b k)).extractLsb' 25 6 = 0x24#6 := Ext.hi 22 <| Ext.hi 15 <| Ext.hi 10 <| Ext.hi 0 <| Ext.lo <| (Ext.all _)
  have f4_6 : (encode s (.movq b k)).extractLsb' 4 6 = 1#6 := Ext.hi 1 <| Ext.lo <| rfl
  have f15_10 : (encode s (.movq b k)).extractLsb' 15 10 = 0#10 := Ext.hi 12 <| Ext.hi 5 <| Ext.hi 0 <| Ext.lo <| (Ext.all _)
  have f3_1 : (encode s (.movq b k)).extractLsb' 3 1 = 0#1 := Ext.hi 0 <| Ext.lo <| rfl
  have f10_5 : (encode s (.movq b k)).extractLsb' 10 5 = b := Ext.hi 7 <| Ext.hi 0 <| Ext.lo <| (Ext.all _)
  have f0_3 : (encode s (.movq b k)).extractLsb' 0 3 = k := Ext.lo <| (Ext.all _)
  have f31 : (encode s (.movq b k)).getLsbD 31 = s := Ext.marker (Ext.hi 28 <| Ext.hi 21 <| Ext.hi 16 <| Ext.hi 6 <| Ext.hi 0 <| (Ext.all _))
  generalize encode s (.movq b k) = w at *
  refine decode_of f25_6 (by decide) (by decide) f31 ?_ hwf
  have h1 : decodeMajor w = decodeQue w := by rw [decodeMajor, f25_6]; rfl
  have h2 : decodeQue w = fixedAt w 15 10 0 (fixedAt w 3 1 0 (pure (.movq (w.extractLsb' 10 5) (w.extractLsb' 0 3)))) := by rw [decodeQue, f4_6]; rfl
  rw [h1, h2, fixedAt_ok f15_10, fixedAt_ok f3_1, f10_5, f0_3]; rfl
theorem qpop (d : BitVec 5) (k : BitVec 3) : Statement (.qpop d k) := by
  intro s hwf
  have f25_6 : (encode s (.qpop d k)).extractLsb' 25 6 = 0x24#6 := Ext.hi 22 <| Ext.hi 5 <| Ext.hi 0 <| Ext.lo <| (Ext.all _)
  have f4_6 : (encode s (.qpop d k)).extractLsb' 4 6 = 2#6 := Ext.hi 1 <| Ext.lo <| rfl
  have f10_10 : (encode s (.qpop d k)).extractLsb' 10 10 = 0#10 := Ext.hi 7 <| Ext.lo <| rfl
  have f3_1 : (encode s (.qpop d k)).extractLsb' 3 1 = 0#1 := Ext.hi 0 <| Ext.lo <| rfl
  have f20_5 : (encode s (.qpop d k)).extractLsb' 20 5 = d := Ext.hi 17 <| Ext.hi 0 <| Ext.lo <| (Ext.all _)
  have f0_3 : (encode s (.qpop d k)).extractLsb' 0 3 = k := Ext.lo <| (Ext.all _)
  have f31 : (encode s (.qpop d k)).getLsbD 31 = s := Ext.marker (Ext.hi 28 <| Ext.hi 11 <| Ext.hi 6 <| Ext.hi 0 <| (Ext.all _))
  generalize encode s (.qpop d k) = w at *
  refine decode_of f25_6 (by decide) (by decide) f31 ?_ hwf
  have h1 : decodeMajor w = decodeQue w := by rw [decodeMajor, f25_6]; rfl
  have h2 : decodeQue w = fixedAt w 10 10 0 (fixedAt w 3 1 0 (pure (.qpop (w.extractLsb' 20 5) (w.extractLsb' 0 3)))) := by rw [decodeQue, f4_6]; rfl
  rw [h1, h2, fixedAt_ok f10_10, fixedAt_ok f3_1, f20_5, f0_3]; rfl
theorem qstat (d : BitVec 5) (k : BitVec 3) : Statement (.qstat d k) := by
  intro s hwf
  have f25_6 : (encode s (.qstat d k)).extractLsb' 25 6 = 0x24#6 := Ext.hi 22 <| Ext.hi 5 <| Ext.hi 0 <| Ext.lo <| (Ext.all _)
  have f4_6 : (encode s (.qstat d k)).extractLsb' 4 6 = 3#6 := Ext.hi 1 <| Ext.lo <| rfl
  have f10_10 : (encode s (.qstat d k)).extractLsb' 10 10 = 0#10 := Ext.hi 7 <| Ext.lo <| rfl
  have f3_1 : (encode s (.qstat d k)).extractLsb' 3 1 = 0#1 := Ext.hi 0 <| Ext.lo <| rfl
  have f20_5 : (encode s (.qstat d k)).extractLsb' 20 5 = d := Ext.hi 17 <| Ext.hi 0 <| Ext.lo <| (Ext.all _)
  have f0_3 : (encode s (.qstat d k)).extractLsb' 0 3 = k := Ext.lo <| (Ext.all _)
  have f31 : (encode s (.qstat d k)).getLsbD 31 = s := Ext.marker (Ext.hi 28 <| Ext.hi 11 <| Ext.hi 6 <| Ext.hi 0 <| (Ext.all _))
  generalize encode s (.qstat d k) = w at *
  refine decode_of f25_6 (by decide) (by decide) f31 ?_ hwf
  have h1 : decodeMajor w = decodeQue w := by rw [decodeMajor, f25_6]; rfl
  have h2 : decodeQue w = fixedAt w 10 10 0 (fixedAt w 3 1 0 (pure (.qstat (w.extractLsb' 20 5) (w.extractLsb' 0 3)))) := by rw [decodeQue, f4_6]; rfl
  rw [h1, h2, fixedAt_ok f10_10, fixedAt_ok f3_1, f20_5, f0_3]; rfl
theorem bindq (a : BitVec 5) (k : BitVec 3) : Statement (.bindq a k) := by
  intro s hwf
  have f25_6 : (encode s (.bindq a k)).extractLsb' 25 6 = 0x24#6 := Ext.hi 22 <| Ext.hi 10 <| Ext.hi 5 <| Ext.hi 0 <| Ext.lo <| (Ext.all _)
  have f4_6 : (encode s (.bindq a k)).extractLsb' 4 6 = 4#6 := Ext.hi 1 <| Ext.lo <| rfl
  have f20_5 : (encode s (.bindq a k)).extractLsb' 20 5 = 0#5 := Ext.hi 17 <| Ext.hi 5 <| Ext.hi 0 <| Ext.lo <| (Ext.all _)
  have f10_5 : (encode s (.bindq a k)).extractLsb' 10 5 = 0#5 := Ext.hi 7 <| Ext.lo <| rfl
  have f3_1 : (encode s (.bindq a k)).extractLsb' 3 1 = 0#1 := Ext.hi 0 <| Ext.lo <| rfl
  have f15_5 : (encode s (.bindq a k)).extractLsb' 15 5 = a := Ext.hi 12 <| Ext.hi 0 <| Ext.lo <| (Ext.all _)
  have f0_3 : (encode s (.bindq a k)).extractLsb' 0 3 = k := Ext.lo <| (Ext.all _)
  have f31 : (encode s (.bindq a k)).getLsbD 31 = s := Ext.marker (Ext.hi 28 <| Ext.hi 16 <| Ext.hi 11 <| Ext.hi 6 <| Ext.hi 0 <| (Ext.all _))
  generalize encode s (.bindq a k) = w at *
  refine decode_of f25_6 (by decide) (by decide) f31 ?_ hwf
  have h1 : decodeMajor w = decodeQue w := by rw [decodeMajor, f25_6]; rfl
  have h2 : decodeQue w = fixedAt w 20 5 0 (fixedAt w 10 5 0 (fixedAt w 3 1 0 (pure (.bindq (w.extractLsb' 15 5) (w.extractLsb' 0 3))))) := by rw [decodeQue, f4_6]; rfl
  rw [h1, h2, fixedAt_ok f20_5, fixedAt_ok f10_5, fixedAt_ok f3_1, f15_5, f0_3]; rfl
theorem tlwait (b : BitVec 5) (k : BitVec 4) : Statement (.tlwait b k) := by
  intro s hwf
  have f25_6 : (encode s (.tlwait b k)).extractLsb' 25 6 = 0x25#6 := Ext.hi 21 <| Ext.hi 15 <| Ext.hi 10 <| Ext.hi 0 <| Ext.lo <| (Ext.all _)
  have f4_6 : (encode s (.tlwait b k)).extractLsb' 4 6 = 0#6 := Ext.hi 0 <| Ext.lo <| (Ext.all _)
  have f15_10 : (encode s (.tlwait b k)).extractLsb' 15 10 = 0#10 := Ext.hi 11 <| Ext.hi 5 <| Ext.hi 0 <| Ext.lo <| (Ext.all _)
  have f10_5 : (encode s (.tlwait b k)).extractLsb' 10 5 = b := Ext.hi 6 <| Ext.hi 0 <| Ext.lo <| (Ext.all _)
  have f0_4 : (encode s (.tlwait b k)).extractLsb' 0 4 = k := Ext.lo <| (Ext.all _)
  have f31 : (encode s (.tlwait b k)).getLsbD 31 = s := Ext.marker (Ext.hi 27 <| Ext.hi 21 <| Ext.hi 16 <| Ext.hi 6 <| Ext.hi 0 <| (Ext.all _))
  generalize encode s (.tlwait b k) = w at *
  refine decode_of f25_6 (by decide) (by decide) f31 ?_ hwf
  have h1 : decodeMajor w = decodeTln w := by rw [decodeMajor, f25_6]; rfl
  have h2 : decodeTln w = fixedAt w 15 10 0 (pure (.tlwait (w.extractLsb' 10 5) (w.extractLsb' 0 4))) := by rw [decodeTln, f4_6]; rfl
  rw [h1, h2, fixedAt_ok f15_10, f10_5, f0_4]; rfl
theorem tltest (d : BitVec 5) (b : BitVec 5) (k : BitVec 4) : Statement (.tltest d b k) := by
  intro s hwf
  have f25_6 : (encode s (.tltest d b k)).extractLsb' 25 6 = 0x25#6 := Ext.hi 21 <| Ext.hi 15 <| Ext.hi 10 <| Ext.hi 5 <| Ext.hi 0 <| Ext.lo <| (Ext.all _)
  have f4_6 : (encode s (.tltest d b k)).extractLsb' 4 6 = 1#6 := Ext.hi 0 <| Ext.lo <| (Ext.all _)
  have f15_5 : (encode s (.tltest d b k)).extractLsb' 15 5 = 0#5 := Ext.hi 11 <| Ext.hi 5 <| Ext.hi 0 <| Ext.lo <| (Ext.all _)
  have f20_5 : (encode s (.tltest d b k)).extractLsb' 20 5 = d := Ext.hi 16 <| Ext.hi 10 <| Ext.hi 5 <| Ext.hi 0 <| Ext.lo <| (Ext.all _)
  have f10_5 : (encode s (.tltest d b k)).extractLsb' 10 5 = b := Ext.hi 6 <| Ext.hi 0 <| Ext.lo <| (Ext.all _)
  have f0_4 : (encode s (.tltest d b k)).extractLsb' 0 4 = k := Ext.lo <| (Ext.all _)
  have f31 : (encode s (.tltest d b k)).getLsbD 31 = s := Ext.marker (Ext.hi 27 <| Ext.hi 21 <| Ext.hi 16 <| Ext.hi 11 <| Ext.hi 6 <| Ext.hi 0 <| (Ext.all _))
  generalize encode s (.tltest d b k) = w at *
  refine decode_of f25_6 (by decide) (by decide) f31 ?_ hwf
  have h1 : decodeMajor w = decodeTln w := by rw [decodeMajor, f25_6]; rfl
  have h2 : decodeTln w = fixedAt w 15 5 0 (pure (.tltest (w.extractLsb' 20 5) (w.extractLsb' 10 5) (w.extractLsb' 0 4))) := by rw [decodeTln, f4_6]; rfl
  rw [h1, h2, fixedAt_ok f15_5, f20_5, f10_5, f0_4]; rfl
theorem tlread (d : BitVec 5) (k : BitVec 4) : Statement (.tlread d k) := by
  intro s hwf
  have f25_6 : (encode s (.tlread d k)).extractLsb' 25 6 = 0x25#6 := Ext.hi 21 <| Ext.hi 5 <| Ext.hi 0 <| Ext.lo <| (Ext.all _)
  have f4_6 : (encode s (.tlread d k)).extractLsb' 4 6 = 2#6 := Ext.hi 0 <| Ext.lo <| rfl
  have f10_10 : (encode s (.tlread d k)).extractLsb' 10 10 = 0#10 := Ext.hi 6 <| Ext.lo <| rfl
  have f20_5 : (encode s (.tlread d k)).extractLsb' 20 5 = d := Ext.hi 16 <| Ext.hi 0 <| Ext.lo <| (Ext.all _)
  have f0_4 : (encode s (.tlread d k)).extractLsb' 0 4 = k := Ext.lo <| (Ext.all _)
  have f31 : (encode s (.tlread d k)).getLsbD 31 = s := Ext.marker (Ext.hi 27 <| Ext.hi 11 <| Ext.hi 6 <| Ext.hi 0 <| (Ext.all _))
  generalize encode s (.tlread d k) = w at *
  refine decode_of f25_6 (by decide) (by decide) f31 ?_ hwf
  have h1 : decodeMajor w = decodeTln w := by rw [decodeMajor, f25_6]; rfl
  have h2 : decodeTln w = fixedAt w 10 10 0 (pure (.tlread (w.extractLsb' 20 5) (w.extractLsb' 0 4))) := by rw [decodeTln, f4_6]; rfl
  rw [h1, h2, fixedAt_ok f10_10, f20_5, f0_4]; rfl
theorem evpop (d : BitVec 5) : Statement (.evpop d) := by
  intro s hwf
  have f25_6 : (encode s (.evpop d)).extractLsb' 25 6 = 0x25#6 := Ext.hi 5 <| Ext.hi 0 <| Ext.lo <| (Ext.all _)
  have f4_6 : (encode s (.evpop d)).extractLsb' 4 6 = 3#6 := Ext.lo <| rfl
  have f10_10 : (encode s (.evpop d)).extractLsb' 10 10 = 0#10 := Ext.lo <| rfl
  have f0_4 : (encode s (.evpop d)).extractLsb' 0 4 = 0#4 := Ext.lo <| rfl
  have f20_5 : (encode s (.evpop d)).extractLsb' 20 5 = d := Ext.hi 0 <| Ext.lo <| (Ext.all _)
  have f31 : (encode s (.evpop d)).getLsbD 31 = s := Ext.marker (Ext.hi 11 <| Ext.hi 6 <| Ext.hi 0 <| (Ext.all _))
  generalize encode s (.evpop d) = w at *
  refine decode_of f25_6 (by decide) (by decide) f31 ?_ hwf
  have h1 : decodeMajor w = decodeTln w := by rw [decodeMajor, f25_6]; rfl
  have h2 : decodeTln w = fixedAt w 10 10 0 (fixedAt w 0 4 0 (pure (.evpop (w.extractLsb' 20 5)))) := by rw [decodeTln, f4_6]; rfl
  rw [h1, h2, fixedAt_ok f10_10, fixedAt_ok f0_4, f20_5]; rfl
theorem evwait (d : BitVec 5) (a : BitVec 5) : Statement (.evwait d a) := by
  intro s hwf
  have f25_6 : (encode s (.evwait d a)).extractLsb' 25 6 = 0x25#6 := Ext.hi 10 <| Ext.hi 5 <| Ext.hi 0 <| Ext.lo <| (Ext.all _)
  have f4_6 : (encode s (.evwait d a)).extractLsb' 4 6 = 4#6 := Ext.lo <| rfl
  have f10_5 : (encode s (.evwait d a)).extractLsb' 10 5 = 0#5 := Ext.lo <| rfl
  have f0_4 : (encode s (.evwait d a)).extractLsb' 0 4 = 0#4 := Ext.lo <| rfl
  have f20_5 : (encode s (.evwait d a)).extractLsb' 20 5 = d := Ext.hi 5 <| Ext.hi 0 <| Ext.lo <| (Ext.all _)
  have f15_5 : (encode s (.evwait d a)).extractLsb' 15 5 = a := Ext.hi 0 <| Ext.lo <| (Ext.all _)
  have f31 : (encode s (.evwait d a)).getLsbD 31 = s := Ext.marker (Ext.hi 16 <| Ext.hi 11 <| Ext.hi 6 <| Ext.hi 0 <| (Ext.all _))
  generalize encode s (.evwait d a) = w at *
  refine decode_of f25_6 (by decide) (by decide) f31 ?_ hwf
  have h1 : decodeMajor w = decodeTln w := by rw [decodeMajor, f25_6]; rfl
  have h2 : decodeTln w = fixedAt w 10 5 0 (fixedAt w 0 4 0 (pure (.evwait (w.extractLsb' 20 5) (w.extractLsb' 15 5)))) := by rw [decodeTln, f4_6]; rfl
  rw [h1, h2, fixedAt_ok f10_5, fixedAt_ok f0_4, f20_5, f15_5]; rfl
theorem evtry (d : BitVec 5) : Statement (.evtry d) := by
  intro s hwf
  have f25_6 : (encode s (.evtry d)).extractLsb' 25 6 = 0x25#6 := Ext.hi 5 <| Ext.hi 0 <| Ext.lo <| (Ext.all _)
  have f4_6 : (encode s (.evtry d)).extractLsb' 4 6 = 5#6 := Ext.lo <| rfl
  have f10_10 : (encode s (.evtry d)).extractLsb' 10 10 = 0#10 := Ext.lo <| rfl
  have f0_4 : (encode s (.evtry d)).extractLsb' 0 4 = 0#4 := Ext.lo <| rfl
  have f20_5 : (encode s (.evtry d)).extractLsb' 20 5 = d := Ext.hi 0 <| Ext.lo <| (Ext.all _)
  have f31 : (encode s (.evtry d)).getLsbD 31 = s := Ext.marker (Ext.hi 11 <| Ext.hi 6 <| Ext.hi 0 <| (Ext.all _))
  generalize encode s (.evtry d) = w at *
  refine decode_of f25_6 (by decide) (by decide) f31 ?_ hwf
  have h1 : decodeMajor w = decodeTln w := by rw [decodeMajor, f25_6]; rfl
  have h2 : decodeTln w = fixedAt w 10 10 0 (fixedAt w 0 4 0 (pure (.evtry (w.extractLsb' 20 5)))) := by rw [decodeTln, f4_6]; rfl
  rw [h1, h2, fixedAt_ok f10_10, fixedAt_ok f0_4, f20_5]; rfl
theorem send (d : BitVec 5) (a : BitVec 5) (b : BitVec 5) : Statement (.send d a b) := by
  intro s hwf
  have f25_6 : (encode s (.send d a b)).extractLsb' 25 6 = 0x26#6 := Ext.hi 15 <| Ext.hi 10 <| Ext.hi 5 <| Ext.hi 0 <| Ext.lo <| (Ext.all _)
  have f4_6 : (encode s (.send d a b)).extractLsb' 4 6 = 0#6 := Ext.lo <| rfl
  have f0_4 : (encode s (.send d a b)).extractLsb' 0 4 = 0#4 := Ext.lo <| rfl
  have f20_5 : (encode s (.send d a b)).extractLsb' 20 5 = d := Ext.hi 10 <| Ext.hi 5 <| Ext.hi 0 <| Ext.lo <| (Ext.all _)
  have f15_5 : (encode s (.send d a b)).extractLsb' 15 5 = a := Ext.hi 5 <| Ext.hi 0 <| Ext.lo <| (Ext.all _)
  have f10_5 : (encode s (.send d a b)).extractLsb' 10 5 = b := Ext.hi 0 <| Ext.lo <| (Ext.all _)
  have f31 : (encode s (.send d a b)).getLsbD 31 = s := Ext.marker (Ext.hi 21 <| Ext.hi 16 <| Ext.hi 11 <| Ext.hi 6 <| Ext.hi 0 <| (Ext.all _))
  generalize encode s (.send d a b) = w at *
  refine decode_of f25_6 (by decide) (by decide) f31 ?_ hwf
  have h1 : decodeMajor w = decodeMsg w := by rw [decodeMajor, f25_6]; rfl
  have h2 : decodeMsg w = fixedAt w 0 4 0 (pure (.send (w.extractLsb' 20 5) (w.extractLsb' 15 5) (w.extractLsb' 10 5))) := by rw [decodeMsg, f4_6]; rfl
  rw [h1, h2, fixedAt_ok f0_4, f20_5, f15_5, f10_5]; rfl
theorem sendt (d : BitVec 5) (a : BitVec 5) (b : BitVec 5) (k : BitVec 4) : Statement (.sendt d a b k) := by
  intro s hwf
  have f25_6 : (encode s (.sendt d a b k)).extractLsb' 25 6 = 0x26#6 := Ext.hi 21 <| Ext.hi 15 <| Ext.hi 10 <| Ext.hi 5 <| Ext.hi 0 <| Ext.lo <| (Ext.all _)
  have f4_6 : (encode s (.sendt d a b k)).extractLsb' 4 6 = 1#6 := Ext.hi 0 <| Ext.lo <| (Ext.all _)
  have f20_5 : (encode s (.sendt d a b k)).extractLsb' 20 5 = d := Ext.hi 16 <| Ext.hi 10 <| Ext.hi 5 <| Ext.hi 0 <| Ext.lo <| (Ext.all _)
  have f15_5 : (encode s (.sendt d a b k)).extractLsb' 15 5 = a := Ext.hi 11 <| Ext.hi 5 <| Ext.hi 0 <| Ext.lo <| (Ext.all _)
  have f10_5 : (encode s (.sendt d a b k)).extractLsb' 10 5 = b := Ext.hi 6 <| Ext.hi 0 <| Ext.lo <| (Ext.all _)
  have f0_4 : (encode s (.sendt d a b k)).extractLsb' 0 4 = k := Ext.lo <| (Ext.all _)
  have f31 : (encode s (.sendt d a b k)).getLsbD 31 = s := Ext.marker (Ext.hi 27 <| Ext.hi 21 <| Ext.hi 16 <| Ext.hi 11 <| Ext.hi 6 <| Ext.hi 0 <| (Ext.all _))
  generalize encode s (.sendt d a b k) = w at *
  refine decode_of f25_6 (by decide) (by decide) f31 ?_ hwf
  have h1 : decodeMajor w = decodeMsg w := by rw [decodeMajor, f25_6]; rfl
  have h2 : decodeMsg w = pure (.sendt (w.extractLsb' 20 5) (w.extractLsb' 15 5) (w.extractLsb' 10 5) (w.extractLsb' 0 4)) := by rw [decodeMsg, f4_6]; rfl
  rw [h1, h2, f20_5, f15_5, f10_5, f0_4]; rfl
theorem spawn (d : BitVec 5) (a : BitVec 5) (b : BitVec 5) : Statement (.spawn d a b) := by
  intro s hwf
  have f25_6 : (encode s (.spawn d a b)).extractLsb' 25 6 = 0x26#6 := Ext.hi 15 <| Ext.hi 10 <| Ext.hi 5 <| Ext.hi 0 <| Ext.lo <| (Ext.all _)
  have f4_6 : (encode s (.spawn d a b)).extractLsb' 4 6 = 2#6 := Ext.lo <| rfl
  have f0_4 : (encode s (.spawn d a b)).extractLsb' 0 4 = 0#4 := Ext.lo <| rfl
  have f20_5 : (encode s (.spawn d a b)).extractLsb' 20 5 = d := Ext.hi 10 <| Ext.hi 5 <| Ext.hi 0 <| Ext.lo <| (Ext.all _)
  have f15_5 : (encode s (.spawn d a b)).extractLsb' 15 5 = a := Ext.hi 5 <| Ext.hi 0 <| Ext.lo <| (Ext.all _)
  have f10_5 : (encode s (.spawn d a b)).extractLsb' 10 5 = b := Ext.hi 0 <| Ext.lo <| (Ext.all _)
  have f31 : (encode s (.spawn d a b)).getLsbD 31 = s := Ext.marker (Ext.hi 21 <| Ext.hi 16 <| Ext.hi 11 <| Ext.hi 6 <| Ext.hi 0 <| (Ext.all _))
  generalize encode s (.spawn d a b) = w at *
  refine decode_of f25_6 (by decide) (by decide) f31 ?_ hwf
  have h1 : decodeMajor w = decodeMsg w := by rw [decodeMajor, f25_6]; rfl
  have h2 : decodeMsg w = fixedAt w 0 4 0 (pure (.spawn (w.extractLsb' 20 5) (w.extractLsb' 15 5) (w.extractLsb' 10 5))) := by rw [decodeMsg, f4_6]; rfl
  rw [h1, h2, fixedAt_ok f0_4, f20_5, f15_5, f10_5]; rfl
theorem dlg (d : BitVec 5) (a : BitVec 5) (b : BitVec 5) : Statement (.dlg d a b) := by
  intro s hwf
  have f25_6 : (encode s (.dlg d a b)).extractLsb' 25 6 = 0x26#6 := Ext.hi 15 <| Ext.hi 10 <| Ext.hi 5 <| Ext.hi 0 <| Ext.lo <| (Ext.all _)
  have f4_6 : (encode s (.dlg d a b)).extractLsb' 4 6 = 3#6 := Ext.lo <| rfl
  have f0_4 : (encode s (.dlg d a b)).extractLsb' 0 4 = 0#4 := Ext.lo <| rfl
  have f20_5 : (encode s (.dlg d a b)).extractLsb' 20 5 = d := Ext.hi 10 <| Ext.hi 5 <| Ext.hi 0 <| Ext.lo <| (Ext.all _)
  have f15_5 : (encode s (.dlg d a b)).extractLsb' 15 5 = a := Ext.hi 5 <| Ext.hi 0 <| Ext.lo <| (Ext.all _)
  have f10_5 : (encode s (.dlg d a b)).extractLsb' 10 5 = b := Ext.hi 0 <| Ext.lo <| (Ext.all _)
  have f31 : (encode s (.dlg d a b)).getLsbD 31 = s := Ext.marker (Ext.hi 21 <| Ext.hi 16 <| Ext.hi 11 <| Ext.hi 6 <| Ext.hi 0 <| (Ext.all _))
  generalize encode s (.dlg d a b) = w at *
  refine decode_of f25_6 (by decide) (by decide) f31 ?_ hwf
  have h1 : decodeMajor w = decodeMsg w := by rw [decodeMajor, f25_6]; rfl
  have h2 : decodeMsg w = fixedAt w 0 4 0 (pure (.dlg (w.extractLsb' 20 5) (w.extractLsb' 15 5) (w.extractLsb' 10 5))) := by rw [decodeMsg, f4_6]; rfl
  rw [h1, h2, fixedAt_ok f0_4, f20_5, f15_5, f10_5]; rfl
theorem dlga (d : BitVec 5) (a : BitVec 5) (b : BitVec 5) : Statement (.dlga d a b) := by
  intro s hwf
  have f25_6 : (encode s (.dlga d a b)).extractLsb' 25 6 = 0x26#6 := Ext.hi 15 <| Ext.hi 10 <| Ext.hi 5 <| Ext.hi 0 <| Ext.lo <| (Ext.all _)
  have f4_6 : (encode s (.dlga d a b)).extractLsb' 4 6 = 4#6 := Ext.lo <| rfl
  have f0_4 : (encode s (.dlga d a b)).extractLsb' 0 4 = 0#4 := Ext.lo <| rfl
  have f20_5 : (encode s (.dlga d a b)).extractLsb' 20 5 = d := Ext.hi 10 <| Ext.hi 5 <| Ext.hi 0 <| Ext.lo <| (Ext.all _)
  have f15_5 : (encode s (.dlga d a b)).extractLsb' 15 5 = a := Ext.hi 5 <| Ext.hi 0 <| Ext.lo <| (Ext.all _)
  have f10_5 : (encode s (.dlga d a b)).extractLsb' 10 5 = b := Ext.hi 0 <| Ext.lo <| (Ext.all _)
  have f31 : (encode s (.dlga d a b)).getLsbD 31 = s := Ext.marker (Ext.hi 21 <| Ext.hi 16 <| Ext.hi 11 <| Ext.hi 6 <| Ext.hi 0 <| (Ext.all _))
  generalize encode s (.dlga d a b) = w at *
  refine decode_of f25_6 (by decide) (by decide) f31 ?_ hwf
  have h1 : decodeMajor w = decodeMsg w := by rw [decodeMajor, f25_6]; rfl
  have h2 : decodeMsg w = fixedAt w 0 4 0 (pure (.dlga (w.extractLsb' 20 5) (w.extractLsb' 15 5) (w.extractLsb' 10 5))) := by rw [decodeMsg, f4_6]; rfl
  rw [h1, h2, fixedAt_ok f0_4, f20_5, f15_5, f10_5]; rfl
theorem tyield (d : BitVec 5) (a : BitVec 5) : Statement (.tyield d a) := by
  intro s hwf
  have f25_6 : (encode s (.tyield d a)).extractLsb' 25 6 = 0x27#6 := Ext.hi 10 <| Ext.hi 5 <| Ext.hi 0 <| Ext.lo <| (Ext.all _)
  have f0_10 : (encode s (.tyield d a)).extractLsb' 0 10 = 1#10 := Ext.lo <| rfl
  have f10_5 : (encode s (.tyield d a)).extractLsb' 10 5 = 0#5 := Ext.lo <| rfl
  have f20_5 : (encode s (.tyield d a)).extractLsb' 20 5 = d := Ext.hi 5 <| Ext.hi 0 <| Ext.lo <| (Ext.all _)
  have f15_5 : (encode s (.tyield d a)).extractLsb' 15 5 = a := Ext.hi 0 <| Ext.lo <| (Ext.all _)
  have f31 : (encode s (.tyield d a)).getLsbD 31 = s := Ext.marker (Ext.hi 16 <| Ext.hi 11 <| Ext.hi 6 <| Ext.hi 0 <| (Ext.all _))
  generalize encode s (.tyield d a) = w at *
  refine decode_of f25_6 (by decide) (by decide) f31 ?_ hwf
  have h1 : decodeMajor w = decodeTask w := by rw [decodeMajor, f25_6]; rfl
  have h2 : decodeTask w = fixedAt w 10 5 0 (pure (.tyield (w.extractLsb' 20 5) (w.extractLsb' 15 5))) := by rw [decodeTask, f0_10]; rfl
  rw [h1, h2, fixedAt_ok f10_5, f20_5, f15_5]; rfl
theorem tself (d : BitVec 5) : Statement (.tself d) := by
  intro s hwf
  have f25_6 : (encode s (.tself d)).extractLsb' 25 6 = 0x27#6 := Ext.hi 5 <| Ext.hi 0 <| Ext.lo <| (Ext.all _)
  have f0_10 : (encode s (.tself d)).extractLsb' 0 10 = 3#10 := Ext.lo <| rfl
  have f10_10 : (encode s (.tself d)).extractLsb' 10 10 = 0#10 := Ext.lo <| rfl
  have f20_5 : (encode s (.tself d)).extractLsb' 20 5 = d := Ext.hi 0 <| Ext.lo <| (Ext.all _)
  have f31 : (encode s (.tself d)).getLsbD 31 = s := Ext.marker (Ext.hi 11 <| Ext.hi 6 <| Ext.hi 0 <| (Ext.all _))
  generalize encode s (.tself d) = w at *
  refine decode_of f25_6 (by decide) (by decide) f31 ?_ hwf
  have h1 : decodeMajor w = decodeTask w := by rw [decodeMajor, f25_6]; rfl
  have h2 : decodeTask w = fixedAt w 10 10 0 (pure (.tself (w.extractLsb' 20 5))) := by rw [decodeTask, f0_10]; rfl
  rw [h1, h2, fixedAt_ok f10_10, f20_5]; rfl
theorem give (d : BitVec 5) (a : BitVec 5) (b : BitVec 5) : Statement (.give d a b) := by
  intro s hwf
  have f25_6 : (encode s (.give d a b)).extractLsb' 25 6 = 0x28#6 := Ext.hi 15 <| Ext.hi 10 <| Ext.hi 5 <| Ext.hi 0 <| Ext.lo <| (Ext.all _)
  have f0_10 : (encode s (.give d a b)).extractLsb' 0 10 = 0#10 := Ext.lo <| (Ext.all _)
  have f20_5 : (encode s (.give d a b)).extractLsb' 20 5 = d := Ext.hi 10 <| Ext.hi 5 <| Ext.hi 0 <| Ext.lo <| (Ext.all _)
  have f15_5 : (encode s (.give d a b)).extractLsb' 15 5 = a := Ext.hi 5 <| Ext.hi 0 <| Ext.lo <| (Ext.all _)
  have f10_5 : (encode s (.give d a b)).extractLsb' 10 5 = b := Ext.hi 0 <| Ext.lo <| (Ext.all _)
  have f31 : (encode s (.give d a b)).getLsbD 31 = s := Ext.marker (Ext.hi 21 <| Ext.hi 16 <| Ext.hi 11 <| Ext.hi 6 <| Ext.hi 0 <| (Ext.all _))
  generalize encode s (.give d a b) = w at *
  refine decode_of f25_6 (by decide) (by decide) f31 ?_ hwf
  have h1 : decodeMajor w = decodeHold w := by rw [decodeMajor, f25_6]; rfl
  have h2 : decodeHold w = pure (.give (w.extractLsb' 20 5) (w.extractLsb' 15 5) (w.extractLsb' 10 5)) := by rw [decodeHold, f0_10]; rfl
  rw [h1, h2, f20_5, f15_5, f10_5]; rfl
theorem accept (d : BitVec 5) (a : BitVec 5) (b : BitVec 5) : Statement (.accept d a b) := by
  intro s hwf
  have f25_6 : (encode s (.accept d a b)).extractLsb' 25 6 = 0x28#6 := Ext.hi 15 <| Ext.hi 10 <| Ext.hi 5 <| Ext.hi 0 <| Ext.lo <| (Ext.all _)
  have f0_10 : (encode s (.accept d a b)).extractLsb' 0 10 = 1#10 := Ext.lo <| (Ext.all _)
  have f20_5 : (encode s (.accept d a b)).extractLsb' 20 5 = d := Ext.hi 10 <| Ext.hi 5 <| Ext.hi 0 <| Ext.lo <| (Ext.all _)
  have f15_5 : (encode s (.accept d a b)).extractLsb' 15 5 = a := Ext.hi 5 <| Ext.hi 0 <| Ext.lo <| (Ext.all _)
  have f10_5 : (encode s (.accept d a b)).extractLsb' 10 5 = b := Ext.hi 0 <| Ext.lo <| (Ext.all _)
  have f31 : (encode s (.accept d a b)).getLsbD 31 = s := Ext.marker (Ext.hi 21 <| Ext.hi 16 <| Ext.hi 11 <| Ext.hi 6 <| Ext.hi 0 <| (Ext.all _))
  generalize encode s (.accept d a b) = w at *
  refine decode_of f25_6 (by decide) (by decide) f31 ?_ hwf
  have h1 : decodeMajor w = decodeHold w := by rw [decodeMajor, f25_6]; rfl
  have h2 : decodeHold w = pure (.accept (w.extractLsb' 20 5) (w.extractLsb' 15 5) (w.extractLsb' 10 5)) := by rw [decodeHold, f0_10]; rfl
  rw [h1, h2, f20_5, f15_5, f10_5]; rfl
theorem decline (d : BitVec 5) (a : BitVec 5) : Statement (.decline d a) := by
  intro s hwf
  have f25_6 : (encode s (.decline d a)).extractLsb' 25 6 = 0x28#6 := Ext.hi 10 <| Ext.hi 5 <| Ext.hi 0 <| Ext.lo <| (Ext.all _)
  have f0_10 : (encode s (.decline d a)).extractLsb' 0 10 = 2#10 := Ext.lo <| rfl
  have f10_5 : (encode s (.decline d a)).extractLsb' 10 5 = 0#5 := Ext.lo <| rfl
  have f20_5 : (encode s (.decline d a)).extractLsb' 20 5 = d := Ext.hi 5 <| Ext.hi 0 <| Ext.lo <| (Ext.all _)
  have f15_5 : (encode s (.decline d a)).extractLsb' 15 5 = a := Ext.hi 0 <| Ext.lo <| (Ext.all _)
  have f31 : (encode s (.decline d a)).getLsbD 31 = s := Ext.marker (Ext.hi 16 <| Ext.hi 11 <| Ext.hi 6 <| Ext.hi 0 <| (Ext.all _))
  generalize encode s (.decline d a) = w at *
  refine decode_of f25_6 (by decide) (by decide) f31 ?_ hwf
  have h1 : decodeMajor w = decodeHold w := by rw [decodeMajor, f25_6]; rfl
  have h2 : decodeHold w = fixedAt w 10 5 0 (pure (.decline (w.extractLsb' 20 5) (w.extractLsb' 15 5))) := by rw [decodeHold, f0_10]; rfl
  rw [h1, h2, fixedAt_ok f10_5, f20_5, f15_5]; rfl
theorem lend (d : BitVec 5) (a : BitVec 5) (b : BitVec 5) : Statement (.lend d a b) := by
  intro s hwf
  have f25_6 : (encode s (.lend d a b)).extractLsb' 25 6 = 0x28#6 := Ext.hi 15 <| Ext.hi 10 <| Ext.hi 5 <| Ext.hi 0 <| Ext.lo <| (Ext.all _)
  have f0_10 : (encode s (.lend d a b)).extractLsb' 0 10 = 3#10 := Ext.lo <| (Ext.all _)
  have f20_5 : (encode s (.lend d a b)).extractLsb' 20 5 = d := Ext.hi 10 <| Ext.hi 5 <| Ext.hi 0 <| Ext.lo <| (Ext.all _)
  have f15_5 : (encode s (.lend d a b)).extractLsb' 15 5 = a := Ext.hi 5 <| Ext.hi 0 <| Ext.lo <| (Ext.all _)
  have f10_5 : (encode s (.lend d a b)).extractLsb' 10 5 = b := Ext.hi 0 <| Ext.lo <| (Ext.all _)
  have f31 : (encode s (.lend d a b)).getLsbD 31 = s := Ext.marker (Ext.hi 21 <| Ext.hi 16 <| Ext.hi 11 <| Ext.hi 6 <| Ext.hi 0 <| (Ext.all _))
  generalize encode s (.lend d a b) = w at *
  refine decode_of f25_6 (by decide) (by decide) f31 ?_ hwf
  have h1 : decodeMajor w = decodeHold w := by rw [decodeMajor, f25_6]; rfl
  have h2 : decodeHold w = pure (.lend (w.extractLsb' 20 5) (w.extractLsb' 15 5) (w.extractLsb' 10 5)) := by rw [decodeHold, f0_10]; rfl
  rw [h1, h2, f20_5, f15_5, f10_5]; rfl
theorem returnLoan (d : BitVec 5) (a : BitVec 5) : Statement (.returnLoan d a) := by
  intro s hwf
  have f25_6 : (encode s (.returnLoan d a)).extractLsb' 25 6 = 0x28#6 := Ext.hi 10 <| Ext.hi 5 <| Ext.hi 0 <| Ext.lo <| (Ext.all _)
  have f0_10 : (encode s (.returnLoan d a)).extractLsb' 0 10 = 4#10 := Ext.lo <| rfl
  have f10_5 : (encode s (.returnLoan d a)).extractLsb' 10 5 = 0#5 := Ext.lo <| rfl
  have f20_5 : (encode s (.returnLoan d a)).extractLsb' 20 5 = d := Ext.hi 5 <| Ext.hi 0 <| Ext.lo <| (Ext.all _)
  have f15_5 : (encode s (.returnLoan d a)).extractLsb' 15 5 = a := Ext.hi 0 <| Ext.lo <| (Ext.all _)
  have f31 : (encode s (.returnLoan d a)).getLsbD 31 = s := Ext.marker (Ext.hi 16 <| Ext.hi 11 <| Ext.hi 6 <| Ext.hi 0 <| (Ext.all _))
  generalize encode s (.returnLoan d a) = w at *
  refine decode_of f25_6 (by decide) (by decide) f31 ?_ hwf
  have h1 : decodeMajor w = decodeHold w := by rw [decodeMajor, f25_6]; rfl
  have h2 : decodeHold w = fixedAt w 10 5 0 (pure (.returnLoan (w.extractLsb' 20 5) (w.extractLsb' 15 5))) := by rw [decodeHold, f0_10]; rfl
  rw [h1, h2, fixedAt_ok f10_5, f20_5, f15_5]; rfl
theorem reclaim (d : BitVec 5) (a : BitVec 5) : Statement (.reclaim d a) := by
  intro s hwf
  have f25_6 : (encode s (.reclaim d a)).extractLsb' 25 6 = 0x28#6 := Ext.hi 10 <| Ext.hi 5 <| Ext.hi 0 <| Ext.lo <| (Ext.all _)
  have f0_10 : (encode s (.reclaim d a)).extractLsb' 0 10 = 5#10 := Ext.lo <| rfl
  have f10_5 : (encode s (.reclaim d a)).extractLsb' 10 5 = 0#5 := Ext.lo <| rfl
  have f20_5 : (encode s (.reclaim d a)).extractLsb' 20 5 = d := Ext.hi 5 <| Ext.hi 0 <| Ext.lo <| (Ext.all _)
  have f15_5 : (encode s (.reclaim d a)).extractLsb' 15 5 = a := Ext.hi 0 <| Ext.lo <| (Ext.all _)
  have f31 : (encode s (.reclaim d a)).getLsbD 31 = s := Ext.marker (Ext.hi 16 <| Ext.hi 11 <| Ext.hi 6 <| Ext.hi 0 <| (Ext.all _))
  generalize encode s (.reclaim d a) = w at *
  refine decode_of f25_6 (by decide) (by decide) f31 ?_ hwf
  have h1 : decodeMajor w = decodeHold w := by rw [decodeMajor, f25_6]; rfl
  have h2 : decodeHold w = fixedAt w 10 5 0 (pure (.reclaim (w.extractLsb' 20 5) (w.extractLsb' 15 5))) := by rw [decodeHold, f0_10]; rfl
  rw [h1, h2, fixedAt_ok f10_5, f20_5, f15_5]; rfl
theorem hquery (d : BitVec 5) (a : BitVec 5) (b : BitVec 5) : Statement (.hquery d a b) := by
  intro s hwf
  have f25_6 : (encode s (.hquery d a b)).extractLsb' 25 6 = 0x28#6 := Ext.hi 15 <| Ext.hi 10 <| Ext.hi 5 <| Ext.hi 0 <| Ext.lo <| (Ext.all _)
  have f0_10 : (encode s (.hquery d a b)).extractLsb' 0 10 = 6#10 := Ext.lo <| (Ext.all _)
  have f20_5 : (encode s (.hquery d a b)).extractLsb' 20 5 = d := Ext.hi 10 <| Ext.hi 5 <| Ext.hi 0 <| Ext.lo <| (Ext.all _)
  have f15_5 : (encode s (.hquery d a b)).extractLsb' 15 5 = a := Ext.hi 5 <| Ext.hi 0 <| Ext.lo <| (Ext.all _)
  have f10_5 : (encode s (.hquery d a b)).extractLsb' 10 5 = b := Ext.hi 0 <| Ext.lo <| (Ext.all _)
  have f31 : (encode s (.hquery d a b)).getLsbD 31 = s := Ext.marker (Ext.hi 21 <| Ext.hi 16 <| Ext.hi 11 <| Ext.hi 6 <| Ext.hi 0 <| (Ext.all _))
  generalize encode s (.hquery d a b) = w at *
  refine decode_of f25_6 (by decide) (by decide) f31 ?_ hwf
  have h1 : decodeMajor w = decodeHold w := by rw [decodeMajor, f25_6]; rfl
  have h2 : decodeHold w = pure (.hquery (w.extractLsb' 20 5) (w.extractLsb' 15 5) (w.extractLsb' 10 5)) := by rw [decodeHold, f0_10]; rfl
  rw [h1, h2, f20_5, f15_5, f10_5]; rfl
theorem ownnew (d : BitVec 5) (a : BitVec 5) : Statement (.ownnew d a) := by
  intro s hwf
  have f25_6 : (encode s (.ownnew d a)).extractLsb' 25 6 = 0x28#6 := Ext.hi 10 <| Ext.hi 5 <| Ext.hi 0 <| Ext.lo <| (Ext.all _)
  have f0_10 : (encode s (.ownnew d a)).extractLsb' 0 10 = 7#10 := Ext.lo <| rfl
  have f10_5 : (encode s (.ownnew d a)).extractLsb' 10 5 = 0#5 := Ext.lo <| rfl
  have f20_5 : (encode s (.ownnew d a)).extractLsb' 20 5 = d := Ext.hi 5 <| Ext.hi 0 <| Ext.lo <| (Ext.all _)
  have f15_5 : (encode s (.ownnew d a)).extractLsb' 15 5 = a := Ext.hi 0 <| Ext.lo <| (Ext.all _)
  have f31 : (encode s (.ownnew d a)).getLsbD 31 = s := Ext.marker (Ext.hi 16 <| Ext.hi 11 <| Ext.hi 6 <| Ext.hi 0 <| (Ext.all _))
  generalize encode s (.ownnew d a) = w at *
  refine decode_of f25_6 (by decide) (by decide) f31 ?_ hwf
  have h1 : decodeMajor w = decodeHold w := by rw [decodeMajor, f25_6]; rfl
  have h2 : decodeHold w = fixedAt w 10 5 0 (pure (.ownnew (w.extractLsb' 20 5) (w.extractLsb' 15 5))) := by rw [decodeHold, f0_10]; rfl
  rw [h1, h2, fixedAt_ok f10_5, f20_5, f15_5]; rfl
theorem ownend (d : BitVec 5) : Statement (.ownend d) := by
  intro s hwf
  have f25_6 : (encode s (.ownend d)).extractLsb' 25 6 = 0x28#6 := Ext.hi 5 <| Ext.hi 0 <| Ext.lo <| (Ext.all _)
  have f0_10 : (encode s (.ownend d)).extractLsb' 0 10 = 8#10 := Ext.lo <| rfl
  have f10_10 : (encode s (.ownend d)).extractLsb' 10 10 = 0#10 := Ext.lo <| rfl
  have f20_5 : (encode s (.ownend d)).extractLsb' 20 5 = d := Ext.hi 0 <| Ext.lo <| (Ext.all _)
  have f31 : (encode s (.ownend d)).getLsbD 31 = s := Ext.marker (Ext.hi 11 <| Ext.hi 6 <| Ext.hi 0 <| (Ext.all _))
  generalize encode s (.ownend d) = w at *
  refine decode_of f25_6 (by decide) (by decide) f31 ?_ hwf
  have h1 : decodeMajor w = decodeHold w := by rw [decodeMajor, f25_6]; rfl
  have h2 : decodeHold w = fixedAt w 10 10 0 (pure (.ownend (w.extractLsb' 20 5))) := by rw [decodeHold, f0_10]; rfl
  rw [h1, h2, fixedAt_ok f10_10, f20_5]; rfl
theorem renew (d : BitVec 5) : Statement (.renew d) := by
  intro s hwf
  have f25_6 : (encode s (.renew d)).extractLsb' 25 6 = 0x28#6 := Ext.hi 5 <| Ext.hi 0 <| Ext.lo <| (Ext.all _)
  have f0_10 : (encode s (.renew d)).extractLsb' 0 10 = 9#10 := Ext.lo <| rfl
  have f10_10 : (encode s (.renew d)).extractLsb' 10 10 = 0#10 := Ext.lo <| rfl
  have f20_5 : (encode s (.renew d)).extractLsb' 20 5 = d := Ext.hi 0 <| Ext.lo <| (Ext.all _)
  have f31 : (encode s (.renew d)).getLsbD 31 = s := Ext.marker (Ext.hi 11 <| Ext.hi 6 <| Ext.hi 0 <| (Ext.all _))
  generalize encode s (.renew d) = w at *
  refine decode_of f25_6 (by decide) (by decide) f31 ?_ hwf
  have h1 : decodeMajor w = decodeHold w := by rw [decodeMajor, f25_6]; rfl
  have h2 : decodeHold w = fixedAt w 10 10 0 (pure (.renew (w.extractLsb' 20 5))) := by rw [decodeHold, f0_10]; rfl
  rw [h1, h2, fixedAt_ok f10_10, f20_5]; rfl
theorem claim (d : BitVec 5) (a : BitVec 5) : Statement (.claim d a) := by
  intro s hwf
  have f25_6 : (encode s (.claim d a)).extractLsb' 25 6 = 0x28#6 := Ext.hi 10 <| Ext.hi 5 <| Ext.hi 0 <| Ext.lo <| (Ext.all _)
  have f0_10 : (encode s (.claim d a)).extractLsb' 0 10 = 10#10 := Ext.lo <| rfl
  have f10_5 : (encode s (.claim d a)).extractLsb' 10 5 = 0#5 := Ext.lo <| rfl
  have f20_5 : (encode s (.claim d a)).extractLsb' 20 5 = d := Ext.hi 5 <| Ext.hi 0 <| Ext.lo <| (Ext.all _)
  have f15_5 : (encode s (.claim d a)).extractLsb' 15 5 = a := Ext.hi 0 <| Ext.lo <| (Ext.all _)
  have f31 : (encode s (.claim d a)).getLsbD 31 = s := Ext.marker (Ext.hi 16 <| Ext.hi 11 <| Ext.hi 6 <| Ext.hi 0 <| (Ext.all _))
  generalize encode s (.claim d a) = w at *
  refine decode_of f25_6 (by decide) (by decide) f31 ?_ hwf
  have h1 : decodeMajor w = decodeHold w := by rw [decodeMajor, f25_6]; rfl
  have h2 : decodeHold w = fixedAt w 10 5 0 (pure (.claim (w.extractLsb' 20 5) (w.extractLsb' 15 5))) := by rw [decodeHold, f0_10]; rfl
  rw [h1, h2, fixedAt_ok f10_5, f20_5, f15_5]; rfl
theorem setheir (d : BitVec 5) (a : BitVec 5) : Statement (.setheir d a) := by
  intro s hwf
  have f25_6 : (encode s (.setheir d a)).extractLsb' 25 6 = 0x28#6 := Ext.hi 10 <| Ext.hi 5 <| Ext.hi 0 <| Ext.lo <| (Ext.all _)
  have f0_10 : (encode s (.setheir d a)).extractLsb' 0 10 = 11#10 := Ext.lo <| rfl
  have f10_5 : (encode s (.setheir d a)).extractLsb' 10 5 = 0#5 := Ext.lo <| rfl
  have f20_5 : (encode s (.setheir d a)).extractLsb' 20 5 = d := Ext.hi 5 <| Ext.hi 0 <| Ext.lo <| (Ext.all _)
  have f15_5 : (encode s (.setheir d a)).extractLsb' 15 5 = a := Ext.hi 0 <| Ext.lo <| (Ext.all _)
  have f31 : (encode s (.setheir d a)).getLsbD 31 = s := Ext.marker (Ext.hi 16 <| Ext.hi 11 <| Ext.hi 6 <| Ext.hi 0 <| (Ext.all _))
  generalize encode s (.setheir d a) = w at *
  refine decode_of f25_6 (by decide) (by decide) f31 ?_ hwf
  have h1 : decodeMajor w = decodeHold w := by rw [decodeMajor, f25_6]; rfl
  have h2 : decodeHold w = fixedAt w 10 5 0 (pure (.setheir (w.extractLsb' 20 5) (w.extractLsb' 15 5))) := by rw [decodeHold, f0_10]; rfl
  rw [h1, h2, fixedAt_ok f10_5, f20_5, f15_5]; rfl
theorem map (d : BitVec 5) (a : BitVec 5) (b : BitVec 5) : Statement (.map d a b) := by
  intro s hwf
  have f25_6 : (encode s (.map d a b)).extractLsb' 25 6 = 0x29#6 := Ext.hi 15 <| Ext.hi 10 <| Ext.hi 5 <| Ext.hi 0 <| Ext.lo <| (Ext.all _)
  have f0_10 : (encode s (.map d a b)).extractLsb' 0 10 = 0#10 := Ext.lo <| (Ext.all _)
  have f20_5 : (encode s (.map d a b)).extractLsb' 20 5 = d := Ext.hi 10 <| Ext.hi 5 <| Ext.hi 0 <| Ext.lo <| (Ext.all _)
  have f15_5 : (encode s (.map d a b)).extractLsb' 15 5 = a := Ext.hi 5 <| Ext.hi 0 <| Ext.lo <| (Ext.all _)
  have f10_5 : (encode s (.map d a b)).extractLsb' 10 5 = b := Ext.hi 0 <| Ext.lo <| (Ext.all _)
  have f31 : (encode s (.map d a b)).getLsbD 31 = s := Ext.marker (Ext.hi 21 <| Ext.hi 16 <| Ext.hi 11 <| Ext.hi 6 <| Ext.hi 0 <| (Ext.all _))
  generalize encode s (.map d a b) = w at *
  refine decode_of f25_6 (by decide) (by decide) f31 ?_ hwf
  have h1 : decodeMajor w = decodeMaps w := by rw [decodeMajor, f25_6]; rfl
  have h2 : decodeMaps w = pure (.map (w.extractLsb' 20 5) (w.extractLsb' 15 5) (w.extractLsb' 10 5)) := by rw [decodeMaps, f0_10]; rfl
  rw [h1, h2, f20_5, f15_5, f10_5]; rfl
theorem unmap (d : BitVec 5) (a : BitVec 5) (b : BitVec 5) : Statement (.unmap d a b) := by
  intro s hwf
  have f25_6 : (encode s (.unmap d a b)).extractLsb' 25 6 = 0x29#6 := Ext.hi 15 <| Ext.hi 10 <| Ext.hi 5 <| Ext.hi 0 <| Ext.lo <| (Ext.all _)
  have f0_10 : (encode s (.unmap d a b)).extractLsb' 0 10 = 1#10 := Ext.lo <| (Ext.all _)
  have f20_5 : (encode s (.unmap d a b)).extractLsb' 20 5 = d := Ext.hi 10 <| Ext.hi 5 <| Ext.hi 0 <| Ext.lo <| (Ext.all _)
  have f15_5 : (encode s (.unmap d a b)).extractLsb' 15 5 = a := Ext.hi 5 <| Ext.hi 0 <| Ext.lo <| (Ext.all _)
  have f10_5 : (encode s (.unmap d a b)).extractLsb' 10 5 = b := Ext.hi 0 <| Ext.lo <| (Ext.all _)
  have f31 : (encode s (.unmap d a b)).getLsbD 31 = s := Ext.marker (Ext.hi 21 <| Ext.hi 16 <| Ext.hi 11 <| Ext.hi 6 <| Ext.hi 0 <| (Ext.all _))
  generalize encode s (.unmap d a b) = w at *
  refine decode_of f25_6 (by decide) (by decide) f31 ?_ hwf
  have h1 : decodeMajor w = decodeMaps w := by rw [decodeMajor, f25_6]; rfl
  have h2 : decodeMaps w = pure (.unmap (w.extractLsb' 20 5) (w.extractLsb' 15 5) (w.extractLsb' 10 5)) := by rw [decodeMaps, f0_10]; rfl
  rw [h1, h2, f20_5, f15_5, f10_5]; rfl
theorem setclass (d : BitVec 5) (a : BitVec 5) (b : BitVec 5) : Statement (.setclass d a b) := by
  intro s hwf
  have f25_6 : (encode s (.setclass d a b)).extractLsb' 25 6 = 0x29#6 := Ext.hi 15 <| Ext.hi 10 <| Ext.hi 5 <| Ext.hi 0 <| Ext.lo <| (Ext.all _)
  have f0_10 : (encode s (.setclass d a b)).extractLsb' 0 10 = 2#10 := Ext.lo <| (Ext.all _)
  have f20_5 : (encode s (.setclass d a b)).extractLsb' 20 5 = d := Ext.hi 10 <| Ext.hi 5 <| Ext.hi 0 <| Ext.lo <| (Ext.all _)
  have f15_5 : (encode s (.setclass d a b)).extractLsb' 15 5 = a := Ext.hi 5 <| Ext.hi 0 <| Ext.lo <| (Ext.all _)
  have f10_5 : (encode s (.setclass d a b)).extractLsb' 10 5 = b := Ext.hi 0 <| Ext.lo <| (Ext.all _)
  have f31 : (encode s (.setclass d a b)).getLsbD 31 = s := Ext.marker (Ext.hi 21 <| Ext.hi 16 <| Ext.hi 11 <| Ext.hi 6 <| Ext.hi 0 <| (Ext.all _))
  generalize encode s (.setclass d a b) = w at *
  refine decode_of f25_6 (by decide) (by decide) f31 ?_ hwf
  have h1 : decodeMajor w = decodeMaps w := by rw [decodeMajor, f25_6]; rfl
  have h2 : decodeMaps w = pure (.setclass (w.extractLsb' 20 5) (w.extractLsb' 15 5) (w.extractLsb' 10 5)) := by rw [decodeMaps, f0_10]; rfl
  rw [h1, h2, f20_5, f15_5, f10_5]; rfl
theorem revoke (d : BitVec 5) (a : BitVec 5) (b : BitVec 5) : Statement (.revoke d a b) := by
  intro s hwf
  have f25_6 : (encode s (.revoke d a b)).extractLsb' 25 6 = 0x29#6 := Ext.hi 15 <| Ext.hi 10 <| Ext.hi 5 <| Ext.hi 0 <| Ext.lo <| (Ext.all _)
  have f0_10 : (encode s (.revoke d a b)).extractLsb' 0 10 = 3#10 := Ext.lo <| (Ext.all _)
  have f20_5 : (encode s (.revoke d a b)).extractLsb' 20 5 = d := Ext.hi 10 <| Ext.hi 5 <| Ext.hi 0 <| Ext.lo <| (Ext.all _)
  have f15_5 : (encode s (.revoke d a b)).extractLsb' 15 5 = a := Ext.hi 5 <| Ext.hi 0 <| Ext.lo <| (Ext.all _)
  have f10_5 : (encode s (.revoke d a b)).extractLsb' 10 5 = b := Ext.hi 0 <| Ext.lo <| (Ext.all _)
  have f31 : (encode s (.revoke d a b)).getLsbD 31 = s := Ext.marker (Ext.hi 21 <| Ext.hi 16 <| Ext.hi 11 <| Ext.hi 6 <| Ext.hi 0 <| (Ext.all _))
  generalize encode s (.revoke d a b) = w at *
  refine decode_of f25_6 (by decide) (by decide) f31 ?_ hwf
  have h1 : decodeMajor w = decodeMaps w := by rw [decodeMajor, f25_6]; rfl
  have h2 : decodeMaps w = pure (.revoke (w.extractLsb' 20 5) (w.extractLsb' 15 5) (w.extractLsb' 10 5)) := by rw [decodeMaps, f0_10]; rfl
  rw [h1, h2, f20_5, f15_5, f10_5]; rfl
theorem scrub (d : BitVec 5) (a : BitVec 5) (b : BitVec 5) : Statement (.scrub d a b) := by
  intro s hwf
  have f25_6 : (encode s (.scrub d a b)).extractLsb' 25 6 = 0x29#6 := Ext.hi 15 <| Ext.hi 10 <| Ext.hi 5 <| Ext.hi 0 <| Ext.lo <| (Ext.all _)
  have f0_10 : (encode s (.scrub d a b)).extractLsb' 0 10 = 4#10 := Ext.lo <| (Ext.all _)
  have f20_5 : (encode s (.scrub d a b)).extractLsb' 20 5 = d := Ext.hi 10 <| Ext.hi 5 <| Ext.hi 0 <| Ext.lo <| (Ext.all _)
  have f15_5 : (encode s (.scrub d a b)).extractLsb' 15 5 = a := Ext.hi 5 <| Ext.hi 0 <| Ext.lo <| (Ext.all _)
  have f10_5 : (encode s (.scrub d a b)).extractLsb' 10 5 = b := Ext.hi 0 <| Ext.lo <| (Ext.all _)
  have f31 : (encode s (.scrub d a b)).getLsbD 31 = s := Ext.marker (Ext.hi 21 <| Ext.hi 16 <| Ext.hi 11 <| Ext.hi 6 <| Ext.hi 0 <| (Ext.all _))
  generalize encode s (.scrub d a b) = w at *
  refine decode_of f25_6 (by decide) (by decide) f31 ?_ hwf
  have h1 : decodeMajor w = decodeMaps w := by rw [decodeMajor, f25_6]; rfl
  have h2 : decodeMaps w = pure (.scrub (w.extractLsb' 20 5) (w.extractLsb' 15 5) (w.extractLsb' 10 5)) := by rw [decodeMaps, f0_10]; rfl
  rw [h1, h2, f20_5, f15_5, f10_5]; rfl
theorem share (d : BitVec 5) (a : BitVec 5) (b : BitVec 5) : Statement (.share d a b) := by
  intro s hwf
  have f25_6 : (encode s (.share d a b)).extractLsb' 25 6 = 0x29#6 := Ext.hi 15 <| Ext.hi 10 <| Ext.hi 5 <| Ext.hi 0 <| Ext.lo <| (Ext.all _)
  have f0_10 : (encode s (.share d a b)).extractLsb' 0 10 = 5#10 := Ext.lo <| (Ext.all _)
  have f20_5 : (encode s (.share d a b)).extractLsb' 20 5 = d := Ext.hi 10 <| Ext.hi 5 <| Ext.hi 0 <| Ext.lo <| (Ext.all _)
  have f15_5 : (encode s (.share d a b)).extractLsb' 15 5 = a := Ext.hi 5 <| Ext.hi 0 <| Ext.lo <| (Ext.all _)
  have f10_5 : (encode s (.share d a b)).extractLsb' 10 5 = b := Ext.hi 0 <| Ext.lo <| (Ext.all _)
  have f31 : (encode s (.share d a b)).getLsbD 31 = s := Ext.marker (Ext.hi 21 <| Ext.hi 16 <| Ext.hi 11 <| Ext.hi 6 <| Ext.hi 0 <| (Ext.all _))
  generalize encode s (.share d a b) = w at *
  refine decode_of f25_6 (by decide) (by decide) f31 ?_ hwf
  have h1 : decodeMajor w = decodeMaps w := by rw [decodeMajor, f25_6]; rfl
  have h2 : decodeMaps w = pure (.share (w.extractLsb' 20 5) (w.extractLsb' 15 5) (w.extractLsb' 10 5)) := by rw [decodeMaps, f0_10]; rfl
  rw [h1, h2, f20_5, f15_5, f10_5]; rfl
theorem swname (d : BitVec 5) (a : BitVec 5) (b : BitVec 5) (k : BitVec 2) : Statement (.swname d a b k) := by
  intro s hwf
  have f25_6 : (encode s (.swname d a b k)).extractLsb' 25 6 = 0x2A#6 := Ext.hi 21 <| Ext.hi 19 <| Ext.hi 15 <| Ext.hi 10 <| Ext.hi 5 <| Ext.hi 0 <| Ext.lo <| (Ext.all _)
  have f0_4 : (encode s (.swname d a b k)).extractLsb' 0 4 = 0#4 := Ext.lo <| (Ext.all _)
  have f6_4 : (encode s (.swname d a b k)).extractLsb' 6 4 = 0#4 := Ext.hi 2 <| Ext.hi 0 <| Ext.lo <| (Ext.all _)
  have f20_5 : (encode s (.swname d a b k)).extractLsb' 20 5 = d := Ext.hi 16 <| Ext.hi 14 <| Ext.hi 10 <| Ext.hi 5 <| Ext.hi 0 <| Ext.lo <| (Ext.all _)
  have f15_5 : (encode s (.swname d a b k)).extractLsb' 15 5 = a := Ext.hi 11 <| Ext.hi 9 <| Ext.hi 5 <| Ext.hi 0 <| Ext.lo <| (Ext.all _)
  have f10_5 : (encode s (.swname d a b k)).extractLsb' 10 5 = b := Ext.hi 6 <| Ext.hi 4 <| Ext.hi 0 <| Ext.lo <| (Ext.all _)
  have f4_2 : (encode s (.swname d a b k)).extractLsb' 4 2 = k := Ext.hi 0 <| Ext.lo <| (Ext.all _)
  have f31 : (encode s (.swname d a b k)).getLsbD 31 = s := Ext.marker (Ext.hi 27 <| Ext.hi 25 <| Ext.hi 21 <| Ext.hi 16 <| Ext.hi 11 <| Ext.hi 6 <| Ext.hi 0 <| (Ext.all _))
  generalize encode s (.swname d a b k) = w at *
  refine decode_of f25_6 (by decide) (by decide) f31 ?_ hwf
  have h1 : decodeMajor w = decodeSwt w := by rw [decodeMajor, f25_6]; rfl
  have h2 : decodeSwt w = fixedAt w 6 4 0 (pure (.swname (w.extractLsb' 20 5) (w.extractLsb' 15 5) (w.extractLsb' 10 5) (w.extractLsb' 4 2))) := by rw [decodeSwt, f0_4]; rfl
  rw [h1, h2, fixedAt_ok f6_4, f20_5, f15_5, f10_5, f4_2]; rfl
theorem swhash (d : BitVec 5) (a : BitVec 5) (b : BitVec 5) (k : BitVec 2) : Statement (.swhash d a b k) := by
  intro s hwf
  have f25_6 : (encode s (.swhash d a b k)).extractLsb' 25 6 = 0x2A#6 := Ext.hi 21 <| Ext.hi 19 <| Ext.hi 15 <| Ext.hi 10 <| Ext.hi 5 <| Ext.hi 0 <| Ext.lo <| (Ext.all _)
  have f0_4 : (encode s (.swhash d a b k)).extractLsb' 0 4 = 1#4 := Ext.lo <| (Ext.all _)
  have f6_4 : (encode s (.swhash d a b k)).extractLsb' 6 4 = 0#4 := Ext.hi 2 <| Ext.hi 0 <| Ext.lo <| (Ext.all _)
  have f20_5 : (encode s (.swhash d a b k)).extractLsb' 20 5 = d := Ext.hi 16 <| Ext.hi 14 <| Ext.hi 10 <| Ext.hi 5 <| Ext.hi 0 <| Ext.lo <| (Ext.all _)
  have f15_5 : (encode s (.swhash d a b k)).extractLsb' 15 5 = a := Ext.hi 11 <| Ext.hi 9 <| Ext.hi 5 <| Ext.hi 0 <| Ext.lo <| (Ext.all _)
  have f10_5 : (encode s (.swhash d a b k)).extractLsb' 10 5 = b := Ext.hi 6 <| Ext.hi 4 <| Ext.hi 0 <| Ext.lo <| (Ext.all _)
  have f4_2 : (encode s (.swhash d a b k)).extractLsb' 4 2 = k := Ext.hi 0 <| Ext.lo <| (Ext.all _)
  have f31 : (encode s (.swhash d a b k)).getLsbD 31 = s := Ext.marker (Ext.hi 27 <| Ext.hi 25 <| Ext.hi 21 <| Ext.hi 16 <| Ext.hi 11 <| Ext.hi 6 <| Ext.hi 0 <| (Ext.all _))
  generalize encode s (.swhash d a b k) = w at *
  refine decode_of f25_6 (by decide) (by decide) f31 ?_ hwf
  have h1 : decodeMajor w = decodeSwt w := by rw [decodeMajor, f25_6]; rfl
  have h2 : decodeSwt w = fixedAt w 6 4 0 (pure (.swhash (w.extractLsb' 20 5) (w.extractLsb' 15 5) (w.extractLsb' 10 5) (w.extractLsb' 4 2))) := by rw [decodeSwt, f0_4]; rfl
  rw [h1, h2, fixedAt_ok f6_4, f20_5, f15_5, f10_5, f4_2]; rfl
theorem swread (d : BitVec 5) (a : BitVec 5) (b : BitVec 5) (v : BitVec 5) : Statement (.swread d a b v) := by
  intro s hwf
  have f25_6 : (encode s (.swread d a b v)).extractLsb' 25 6 = 0x2A#6 := Ext.hi 21 <| Ext.hi 16 <| Ext.hi 15 <| Ext.hi 10 <| Ext.hi 5 <| Ext.hi 0 <| Ext.lo <| (Ext.all _)
  have f0_4 : (encode s (.swread d a b v)).extractLsb' 0 4 = 2#4 := Ext.lo <| (Ext.all _)
  have f9_1 : (encode s (.swread d a b v)).extractLsb' 9 1 = 0#1 := Ext.hi 5 <| Ext.hi 0 <| Ext.lo <| (Ext.all _)
  have f20_5 : (encode s (.swread d a b v)).extractLsb' 20 5 = d := Ext.hi 16 <| Ext.hi 11 <| Ext.hi 10 <| Ext.hi 5 <| Ext.hi 0 <| Ext.lo <| (Ext.all _)
  have f15_5 : (encode s (.swread d a b v)).extractLsb' 15 5 = a := Ext.hi 11 <| Ext.hi 6 <| Ext.hi 5 <| Ext.hi 0 <| Ext.lo <| (Ext.all _)
  have f10_5 : (encode s (.swread d a b v)).extractLsb' 10 5 = b := Ext.hi 6 <| Ext.hi 1 <| Ext.hi 0 <| Ext.lo <| (Ext.all _)
  have f4_5 : (encode s (.swread d a b v)).extractLsb' 4 5 = v := Ext.hi 0 <| Ext.lo <| (Ext.all _)
  have f31 : (encode s (.swread d a b v)).getLsbD 31 = s := Ext.marker (Ext.hi 27 <| Ext.hi 22 <| Ext.hi 21 <| Ext.hi 16 <| Ext.hi 11 <| Ext.hi 6 <| Ext.hi 0 <| (Ext.all _))
  generalize encode s (.swread d a b v) = w at *
  refine decode_of f25_6 (by decide) (by decide) f31 ?_ hwf
  have h1 : decodeMajor w = decodeSwt w := by rw [decodeMajor, f25_6]; rfl
  have h2 : decodeSwt w = fixedAt w 9 1 0 (pure (.swread (w.extractLsb' 20 5) (w.extractLsb' 15 5) (w.extractLsb' 10 5) (w.extractLsb' 4 5))) := by rw [decodeSwt, f0_4]; rfl
  rw [h1, h2, fixedAt_ok f9_1, f20_5, f15_5, f10_5, f4_5]; rfl
theorem swref (d : BitVec 5) (a : BitVec 5) (b : BitVec 5) : Statement (.swref d a b) := by
  intro s hwf
  have f25_6 : (encode s (.swref d a b)).extractLsb' 25 6 = 0x2A#6 := Ext.hi 15 <| Ext.hi 10 <| Ext.hi 5 <| Ext.hi 0 <| Ext.lo <| (Ext.all _)
  have f0_4 : (encode s (.swref d a b)).extractLsb' 0 4 = 3#4 := Ext.lo <| rfl
  have f4_6 : (encode s (.swref d a b)).extractLsb' 4 6 = 0#6 := Ext.lo <| rfl
  have f20_5 : (encode s (.swref d a b)).extractLsb' 20 5 = d := Ext.hi 10 <| Ext.hi 5 <| Ext.hi 0 <| Ext.lo <| (Ext.all _)
  have f15_5 : (encode s (.swref d a b)).extractLsb' 15 5 = a := Ext.hi 5 <| Ext.hi 0 <| Ext.lo <| (Ext.all _)
  have f10_5 : (encode s (.swref d a b)).extractLsb' 10 5 = b := Ext.hi 0 <| Ext.lo <| (Ext.all _)
  have f31 : (encode s (.swref d a b)).getLsbD 31 = s := Ext.marker (Ext.hi 21 <| Ext.hi 16 <| Ext.hi 11 <| Ext.hi 6 <| Ext.hi 0 <| (Ext.all _))
  generalize encode s (.swref d a b) = w at *
  refine decode_of f25_6 (by decide) (by decide) f31 ?_ hwf
  have h1 : decodeMajor w = decodeSwt w := by rw [decodeMajor, f25_6]; rfl
  have h2 : decodeSwt w = fixedAt w 4 6 0 (pure (.swref (w.extractLsb' 20 5) (w.extractLsb' 15 5) (w.extractLsb' 10 5))) := by rw [decodeSwt, f0_4]; rfl
  rw [h1, h2, fixedAt_ok f4_6, f20_5, f15_5, f10_5]; rfl
theorem swrel (d : BitVec 5) (a : BitVec 5) (b : BitVec 5) : Statement (.swrel d a b) := by
  intro s hwf
  have f25_6 : (encode s (.swrel d a b)).extractLsb' 25 6 = 0x2A#6 := Ext.hi 15 <| Ext.hi 10 <| Ext.hi 5 <| Ext.hi 0 <| Ext.lo <| (Ext.all _)
  have f0_4 : (encode s (.swrel d a b)).extractLsb' 0 4 = 4#4 := Ext.lo <| rfl
  have f4_6 : (encode s (.swrel d a b)).extractLsb' 4 6 = 0#6 := Ext.lo <| rfl
  have f20_5 : (encode s (.swrel d a b)).extractLsb' 20 5 = d := Ext.hi 10 <| Ext.hi 5 <| Ext.hi 0 <| Ext.lo <| (Ext.all _)
  have f15_5 : (encode s (.swrel d a b)).extractLsb' 15 5 = a := Ext.hi 5 <| Ext.hi 0 <| Ext.lo <| (Ext.all _)
  have f10_5 : (encode s (.swrel d a b)).extractLsb' 10 5 = b := Ext.hi 0 <| Ext.lo <| (Ext.all _)
  have f31 : (encode s (.swrel d a b)).getLsbD 31 = s := Ext.marker (Ext.hi 21 <| Ext.hi 16 <| Ext.hi 11 <| Ext.hi 6 <| Ext.hi 0 <| (Ext.all _))
  generalize encode s (.swrel d a b) = w at *
  refine decode_of f25_6 (by decide) (by decide) f31 ?_ hwf
  have h1 : decodeMajor w = decodeSwt w := by rw [decodeMajor, f25_6]; rfl
  have h2 : decodeSwt w = fixedAt w 4 6 0 (pure (.swrel (w.extractLsb' 20 5) (w.extractLsb' 15 5) (w.extractLsb' 10 5))) := by rw [decodeSwt, f0_4]; rfl
  rw [h1, h2, fixedAt_ok f4_6, f20_5, f15_5, f10_5]; rfl
theorem swwalk (d : BitVec 5) (a : BitVec 5) (b : BitVec 5) : Statement (.swwalk d a b) := by
  intro s hwf
  have f25_6 : (encode s (.swwalk d a b)).extractLsb' 25 6 = 0x2A#6 := Ext.hi 15 <| Ext.hi 10 <| Ext.hi 5 <| Ext.hi 0 <| Ext.lo <| (Ext.all _)
  have f0_4 : (encode s (.swwalk d a b)).extractLsb' 0 4 = 5#4 := Ext.lo <| rfl
  have f4_6 : (encode s (.swwalk d a b)).extractLsb' 4 6 = 0#6 := Ext.lo <| rfl
  have f20_5 : (encode s (.swwalk d a b)).extractLsb' 20 5 = d := Ext.hi 10 <| Ext.hi 5 <| Ext.hi 0 <| Ext.lo <| (Ext.all _)
  have f15_5 : (encode s (.swwalk d a b)).extractLsb' 15 5 = a := Ext.hi 5 <| Ext.hi 0 <| Ext.lo <| (Ext.all _)
  have f10_5 : (encode s (.swwalk d a b)).extractLsb' 10 5 = b := Ext.hi 0 <| Ext.lo <| (Ext.all _)
  have f31 : (encode s (.swwalk d a b)).getLsbD 31 = s := Ext.marker (Ext.hi 21 <| Ext.hi 16 <| Ext.hi 11 <| Ext.hi 6 <| Ext.hi 0 <| (Ext.all _))
  generalize encode s (.swwalk d a b) = w at *
  refine decode_of f25_6 (by decide) (by decide) f31 ?_ hwf
  have h1 : decodeMajor w = decodeSwt w := by rw [decodeMajor, f25_6]; rfl
  have h2 : decodeSwt w = fixedAt w 4 6 0 (pure (.swwalk (w.extractLsb' 20 5) (w.extractLsb' 15 5) (w.extractLsb' 10 5))) := by rw [decodeSwt, f0_4]; rfl
  rw [h1, h2, fixedAt_ok f4_6, f20_5, f15_5, f10_5]; rfl
theorem rdc (d : BitVec 5) (n : BitVec 12) : Statement (.rdc d n) := by
  intro s hwf
  have f25_6 : (encode s (.rdc d n)).extractLsb' 25 6 = 0x2B#6 := Ext.hi 22 <| Ext.hi 10 <| Ext.hi 5 <| Ext.hi 0 <| Ext.lo <| (Ext.all _)
  have f0_3 : (encode s (.rdc d n)).extractLsb' 0 3 = 0#3 := Ext.lo <| (Ext.all _)
  have f15_5 : (encode s (.rdc d n)).extractLsb' 15 5 = 0#5 := Ext.hi 12 <| Ext.hi 0 <| Ext.lo <| (Ext.all _)
  have f20_5 : (encode s (.rdc d n)).extractLsb' 20 5 = d := Ext.hi 17 <| Ext.hi 5 <| Ext.hi 0 <| Ext.lo <| (Ext.all _)
  have f3_12 : (encode s (.rdc d n)).extractLsb' 3 12 = n := Ext.hi 0 <| Ext.lo <| (Ext.all _)
  have f31 : (encode s (.rdc d n)).getLsbD 31 = s := Ext.marker (Ext.hi 28 <| Ext.hi 16 <| Ext.hi 11 <| Ext.hi 6 <| Ext.hi 0 <| (Ext.all _))
  generalize encode s (.rdc d n) = w at *
  refine decode_of f25_6 (by decide) (by decide) f31 ?_ hwf
  have h1 : decodeMajor w = decodeCtl w := by rw [decodeMajor, f25_6]; rfl
  have h2 : decodeCtl w = fixedAt w 15 5 0 (pure (.rdc (w.extractLsb' 20 5) (w.extractLsb' 3 12))) := by rw [decodeCtl, f0_3]; rfl
  rw [h1, h2, fixedAt_ok f15_5, f20_5, f3_12]; rfl
theorem wrc (a : BitVec 5) (n : BitVec 12) : Statement (.wrc a n) := by
  intro s hwf
  have f25_6 : (encode s (.wrc a n)).extractLsb' 25 6 = 0x2B#6 := Ext.hi 22 <| Ext.hi 10 <| Ext.hi 5 <| Ext.hi 0 <| Ext.lo <| (Ext.all _)
  have f0_3 : (encode s (.wrc a n)).extractLsb' 0 3 = 1#3 := Ext.lo <| (Ext.all _)
  have f20_5 : (encode s (.wrc a n)).extractLsb' 20 5 = 0#5 := Ext.hi 17 <| Ext.hi 5 <| Ext.hi 0 <| Ext.lo <| (Ext.all _)
  have f15_5 : (encode s (.wrc a n)).extractLsb' 15 5 = a := Ext.hi 12 <| Ext.hi 0 <| Ext.lo <| (Ext.all _)
  have f3_12 : (encode s (.wrc a n)).extractLsb' 3 12 = n := Ext.hi 0 <| Ext.lo <| (Ext.all _)
  have f31 : (encode s (.wrc a n)).getLsbD 31 = s := Ext.marker (Ext.hi 28 <| Ext.hi 16 <| Ext.hi 11 <| Ext.hi 6 <| Ext.hi 0 <| (Ext.all _))
  generalize encode s (.wrc a n) = w at *
  refine decode_of f25_6 (by decide) (by decide) f31 ?_ hwf
  have h1 : decodeMajor w = decodeCtl w := by rw [decodeMajor, f25_6]; rfl
  have h2 : decodeCtl w = fixedAt w 20 5 0 (pure (.wrc (w.extractLsb' 15 5) (w.extractLsb' 3 12))) := by rw [decodeCtl, f0_3]; rfl
  rw [h1, h2, fixedAt_ok f20_5, f15_5, f3_12]; rfl
theorem trap (a : BitVec 5) : Statement (.trap a) := by
  intro s hwf
  have f25_6 : (encode s (.trap a)).extractLsb' 25 6 = 0x2C#6 := Ext.hi 10 <| Ext.hi 5 <| Ext.hi 0 <| Ext.lo <| (Ext.all _)
  have f0_10 : (encode s (.trap a)).extractLsb' 0 10 = 0#10 := Ext.lo <| rfl
  have f20_5 : (encode s (.trap a)).extractLsb' 20 5 = 0#5 := Ext.hi 5 <| Ext.hi 0 <| Ext.lo <| (Ext.all _)
  have f10_5 : (encode s (.trap a)).extractLsb' 10 5 = 0#5 := Ext.lo <| rfl
  have f15_5 : (encode s (.trap a)).extractLsb' 15 5 = a := Ext.hi 0 <| Ext.lo <| (Ext.all _)
  have f31 : (encode s (.trap a)).getLsbD 31 = s := Ext.marker (Ext.hi 16 <| Ext.hi 11 <| Ext.hi 6 <| Ext.hi 0 <| (Ext.all _))
  generalize encode s (.trap a) = w at *
  refine decode_of f25_6 (by decide) (by decide) f31 ?_ hwf
  have h1 : decodeMajor w = decodeSys w := by rw [decodeMajor, f25_6]; rfl
  have h2 : decodeSys w = fixedAt w 20 5 0 (fixedAt w 10 5 0 (pure (.trap (w.extractLsb' 15 5)))) := by rw [decodeSys, f0_10]; rfl
  rw [h1, h2, fixedAt_ok f20_5, fixedAt_ok f10_5, f15_5]; rfl
theorem tret (y : BitVec 1) : Statement (.tret y) := by
  intro s hwf
  have f25_6 : (encode s (.tret y)).extractLsb' 25 6 = 0x2C#6 := Ext.hi 5 <| Ext.hi 4 <| Ext.hi 0 <| Ext.lo <| (Ext.all _)
  have f0_10 : (encode s (.tret y)).extractLsb' 0 10 = 1#10 := Ext.lo <| rfl
  have f21_4 : (encode s (.tret y)).extractLsb' 21 4 = 0#4 := Ext.hi 1 <| Ext.hi 0 <| Ext.lo <| (Ext.all _)
  have f10_10 : (encode s (.tret y)).extractLsb' 10 10 = 0#10 := Ext.lo <| rfl
  have f20_1 : (encode s (.tret y)).extractLsb' 20 1 = y := Ext.hi 0 <| Ext.lo <| (Ext.all _)
  have f31 : (encode s (.tret y)).getLsbD 31 = s := Ext.marker (Ext.hi 11 <| Ext.hi 10 <| Ext.hi 6 <| Ext.hi 0 <| (Ext.all _))
  generalize encode s (.tret y) = w at *
  refine decode_of f25_6 (by decide) (by decide) f31 ?_ hwf
  have h1 : decodeMajor w = decodeSys w := by rw [decodeMajor, f25_6]; rfl
  have h2 : decodeSys w = fixedAt w 21 4 0 (fixedAt w 10 10 0 (pure (.tret (w.extractLsb' 20 1)))) := by rw [decodeSys, f0_10]; rfl
  rw [h1, h2, fixedAt_ok f21_4, fixedAt_ok f10_10, f20_1]; rfl
theorem lrel : Statement (.lrel) := by
  intro s hwf
  have f25_6 : (encode s (.lrel)).extractLsb' 25 6 = 0x23#6 := Ext.hi 0 <| Ext.lo <| (Ext.all _)
  have f0_6 : (encode s (.lrel)).extractLsb' 0 6 = 1#6 := Ext.lo <| rfl
  have f6_19 : (encode s (.lrel)).extractLsb' 6 19 = 0#19 := Ext.lo <| rfl
  have f31 : (encode s (.lrel)).getLsbD 31 = s := Ext.marker (Ext.hi 6 <| Ext.hi 0 <| (Ext.all _))
  generalize encode s (.lrel) = w at *
  refine decode_of f25_6 (by decide) (by decide) f31 ?_ hwf
  have h1 : decodeMajor w = decodeLoom w := by rw [decodeMajor, f25_6]; rfl
  have h2 : decodeLoom w = fixedAt w 6 19 0 (pure .lrel) := by rw [decodeLoom, f0_6]; rfl
  rw [h1, h2, fixedAt_ok f6_19]; rfl
theorem mclr : Statement (.mclr) := by
  intro s hwf
  have f25_6 : (encode s (.mclr)).extractLsb' 25 6 = 0x23#6 := Ext.hi 0 <| Ext.lo <| (Ext.all _)
  have f0_6 : (encode s (.mclr)).extractLsb' 0 6 = 2#6 := Ext.lo <| rfl
  have f6_19 : (encode s (.mclr)).extractLsb' 6 19 = 0#19 := Ext.lo <| rfl
  have f31 : (encode s (.mclr)).getLsbD 31 = s := Ext.marker (Ext.hi 6 <| Ext.hi 0 <| (Ext.all _))
  generalize encode s (.mclr) = w at *
  refine decode_of f25_6 (by decide) (by decide) f31 ?_ hwf
  have h1 : decodeMajor w = decodeLoom w := by rw [decodeMajor, f25_6]; rfl
  have h2 : decodeLoom w = fixedAt w 6 19 0 (pure .mclr) := by rw [decodeLoom, f0_6]; rfl
  rw [h1, h2, fixedAt_ok f6_19]; rfl
theorem dlgret : Statement (.dlgret) := by
  intro s hwf
  have f25_6 : (encode s (.dlgret)).extractLsb' 25 6 = 0x26#6 := Ext.hi 0 <| Ext.lo <| (Ext.all _)
  have f4_6 : (encode s (.dlgret)).extractLsb' 4 6 = 5#6 := Ext.lo <| rfl
  have f10_15 : (encode s (.dlgret)).extractLsb' 10 15 = 0#15 := Ext.lo <| rfl
  have f0_4 : (encode s (.dlgret)).extractLsb' 0 4 = 0#4 := Ext.lo <| rfl
  have f31 : (encode s (.dlgret)).getLsbD 31 = s := Ext.marker (Ext.hi 6 <| Ext.hi 0 <| (Ext.all _))
  generalize encode s (.dlgret) = w at *
  refine decode_of f25_6 (by decide) (by decide) f31 ?_ hwf
  have h1 : decodeMajor w = decodeMsg w := by rw [decodeMajor, f25_6]; rfl
  have h2 : decodeMsg w = fixedAt w 10 15 0 (fixedAt w 0 4 0 (pure .dlgret)) := by rw [decodeMsg, f4_6]; rfl
  rw [h1, h2, fixedAt_ok f10_15, fixedAt_ok f0_4]; rfl
theorem chain : Statement (.chain) := by
  intro s hwf
  have f25_6 : (encode s (.chain)).extractLsb' 25 6 = 0x26#6 := Ext.hi 0 <| Ext.lo <| (Ext.all _)
  have f4_6 : (encode s (.chain)).extractLsb' 4 6 = 6#6 := Ext.lo <| rfl
  have f10_15 : (encode s (.chain)).extractLsb' 10 15 = 0#15 := Ext.lo <| rfl
  have f0_4 : (encode s (.chain)).extractLsb' 0 4 = 0#4 := Ext.lo <| rfl
  have f31 : (encode s (.chain)).getLsbD 31 = s := Ext.marker (Ext.hi 6 <| Ext.hi 0 <| (Ext.all _))
  generalize encode s (.chain) = w at *
  refine decode_of f25_6 (by decide) (by decide) f31 ?_ hwf
  have h1 : decodeMajor w = decodeMsg w := by rw [decodeMajor, f25_6]; rfl
  have h2 : decodeMsg w = fixedAt w 10 15 0 (fixedAt w 0 4 0 (pure .chain)) := by rw [decodeMsg, f4_6]; rfl
  rw [h1, h2, fixedAt_ok f10_15, fixedAt_ok f0_4]; rfl
theorem replay : Statement (.replay) := by
  intro s hwf
  have f25_6 : (encode s (.replay)).extractLsb' 25 6 = 0x26#6 := Ext.hi 0 <| Ext.lo <| (Ext.all _)
  have f4_6 : (encode s (.replay)).extractLsb' 4 6 = 7#6 := Ext.lo <| rfl
  have f10_15 : (encode s (.replay)).extractLsb' 10 15 = 0#15 := Ext.lo <| rfl
  have f0_4 : (encode s (.replay)).extractLsb' 0 4 = 0#4 := Ext.lo <| rfl
  have f31 : (encode s (.replay)).getLsbD 31 = s := Ext.marker (Ext.hi 6 <| Ext.hi 0 <| (Ext.all _))
  generalize encode s (.replay) = w at *
  refine decode_of f25_6 (by decide) (by decide) f31 ?_ hwf
  have h1 : decodeMajor w = decodeMsg w := by rw [decodeMajor, f25_6]; rfl
  have h2 : decodeMsg w = fixedAt w 10 15 0 (fixedAt w 0 4 0 (pure .replay)) := by rw [decodeMsg, f4_6]; rfl
  rw [h1, h2, fixedAt_ok f10_15, fixedAt_ok f0_4]; rfl
theorem tend : Statement (.tend) := by
  intro s hwf
  have f25_6 : (encode s (.tend)).extractLsb' 25 6 = 0x27#6 := Ext.hi 0 <| Ext.lo <| (Ext.all _)
  have f0_10 : (encode s (.tend)).extractLsb' 0 10 = 0#10 := Ext.lo <| rfl
  have f10_15 : (encode s (.tend)).extractLsb' 10 15 = 0#15 := Ext.lo <| rfl
  have f31 : (encode s (.tend)).getLsbD 31 = s := Ext.marker (Ext.hi 6 <| Ext.hi 0 <| (Ext.all _))
  generalize encode s (.tend) = w at *
  refine decode_of f25_6 (by decide) (by decide) f31 ?_ hwf
  have h1 : decodeMajor w = decodeTask w := by rw [decodeMajor, f25_6]; rfl
  have h2 : decodeTask w = fixedAt w 10 15 0 (pure .tend) := by rw [decodeTask, f0_10]; rfl
  rw [h1, h2, fixedAt_ok f10_15]; rfl
theorem upret : Statement (.upret) := by
  intro s hwf
  have f25_6 : (encode s (.upret)).extractLsb' 25 6 = 0x27#6 := Ext.hi 0 <| Ext.lo <| (Ext.all _)
  have f0_10 : (encode s (.upret)).extractLsb' 0 10 = 2#10 := Ext.lo <| rfl
  have f10_15 : (encode s (.upret)).extractLsb' 10 15 = 0#15 := Ext.lo <| rfl
  have f31 : (encode s (.upret)).getLsbD 31 = s := Ext.marker (Ext.hi 6 <| Ext.hi 0 <| (Ext.all _))
  generalize encode s (.upret) = w at *
  refine decode_of f25_6 (by decide) (by decide) f31 ?_ hwf
  have h1 : decodeMajor w = decodeTask w := by rw [decodeMajor, f25_6]; rfl
  have h2 : decodeTask w = fixedAt w 10 15 0 (pure .upret) := by rw [decodeTask, f0_10]; rfl
  rw [h1, h2, fixedAt_ok f10_15]; rfl
theorem brk : Statement (.brk) := by
  intro s hwf
  have f25_6 : (encode s (.brk)).extractLsb' 25 6 = 0x2C#6 := Ext.hi 0 <| Ext.lo <| (Ext.all _)
  have f0_10 : (encode s (.brk)).extractLsb' 0 10 = 2#10 := Ext.lo <| rfl
  have f10_15 : (encode s (.brk)).extractLsb' 10 15 = 0#15 := Ext.lo <| rfl
  have f31 : (encode s (.brk)).getLsbD 31 = s := Ext.marker (Ext.hi 6 <| Ext.hi 0 <| (Ext.all _))
  generalize encode s (.brk) = w at *
  refine decode_of f25_6 (by decide) (by decide) f31 ?_ hwf
  have h1 : decodeMajor w = decodeSys w := by rw [decodeMajor, f25_6]; rfl
  have h2 : decodeSys w = fixedAt w 10 15 0 (pure .brk) := by rw [decodeSys, f0_10]; rfl
  rw [h1, h2, fixedAt_ok f10_15]; rfl
theorem nop : Statement (.nop) := by
  intro s hwf
  have f25_6 : (encode s (.nop)).extractLsb' 25 6 = 0x2C#6 := Ext.hi 0 <| Ext.lo <| (Ext.all _)
  have f0_10 : (encode s (.nop)).extractLsb' 0 10 = 3#10 := Ext.lo <| rfl
  have f10_15 : (encode s (.nop)).extractLsb' 10 15 = 0#15 := Ext.lo <| rfl
  have f31 : (encode s (.nop)).getLsbD 31 = s := Ext.marker (Ext.hi 6 <| Ext.hi 0 <| (Ext.all _))
  generalize encode s (.nop) = w at *
  refine decode_of f25_6 (by decide) (by decide) f31 ?_ hwf
  have h1 : decodeMajor w = decodeSys w := by rw [decodeMajor, f25_6]; rfl
  have h2 : decodeSys w = fixedAt w 10 15 0 (pure .nop) := by rw [decodeSys, f0_10]; rfl
  rw [h1, h2, fixedAt_ok f10_15]; rfl
theorem arrayMatrixCommand (_bench : Nat) (_loom : Nat) : Statement (.arrayMatrixCommand _bench _loom) := fun _ h => nomatch h
theorem loomGrant (_bench : Nat) (_loom : Nat) : Statement (.loomGrant _bench _loom) := fun _ h => nomatch h
theorem loomIdleExpiry (_bench : Nat) (_loom : Nat) : Statement (.loomIdleExpiry _bench _loom) := fun _ h => nomatch h
theorem selvageHandlerStart (_bench : Nat) (_loom : Nat) : Statement (.selvageHandlerStart _bench _loom) := fun _ h => nomatch h
theorem watchWrite (_n : BitVec 3) (_a : BitVec 5) : Statement (.watchWrite _n _a) := fun _ h => nomatch h
theorem emulentWrite (_a : BitVec 5) : Statement (.emulentWrite _a) := fun _ h => nomatch h
theorem hqctxWrite (_a : BitVec 5) : Statement (.hqctxWrite _a) := fun _ h => nomatch h
theorem hqcapWrite (_w : BitVec 1) (_a : BitVec 5) : Statement (.hqcapWrite _w _a) := fun _ h => nomatch h
theorem assayEndpointHandle (_owner : U16) : Statement (.assayEndpointHandle _owner) := fun _ h => nomatch h
theorem assayAttestation (_owner : U16) : Statement (.assayAttestation _owner) := fun _ h => nomatch h
theorem assayKeyImport (_owner : U16) : Statement (.assayKeyImport _owner) := fun _ h => nomatch h
theorem assayPublicKeys (_owner : U16) : Statement (.assayPublicKeys _owner) := fun _ h => nomatch h
theorem copy (_ctx : Nat) : Statement (.copy _ctx) := fun _ h => nomatch h
theorem copy2d (_ctx : Nat) : Statement (.copy2d _ctx) := fun _ h => nomatch h
theorem fill (_ctx : Nat) : Statement (.fill _ctx) := fun _ h => nomatch h
theorem resume (_ctx : Nat) : Statement (.resume _ctx) := fun _ h => nomatch h
theorem framecopy (_ctx : Nat) : Statement (.framecopy _ctx) := fun _ h => nomatch h
theorem framecopyPass1 (_ctx : Nat) : Statement (.framecopyPass1 _ctx) := fun _ h => nomatch h
theorem framecopyPass2 (_ctx : Nat) : Statement (.framecopyPass2 _ctx) := fun _ h => nomatch h
theorem framecopyPass3 (_ctx : Nat) : Statement (.framecopyPass3 _ctx) := fun _ h => nomatch h
theorem gather (_ctx : Nat) : Statement (.gather _ctx) := fun _ h => nomatch h
theorem allreduce (_ctx : Nat) (_agree : Bool) (_reach : Bool) (_peers : List (List U8)) : Statement (.allreduce _ctx _agree _reach _peers) := fun _ h => nomatch h
theorem redscat (_ctx : Nat) (_agree : Bool) (_reach : Bool) (_peers : List (List U8)) : Statement (.redscat _ctx _agree _reach _peers) := fun _ h => nomatch h
theorem allgather (_ctx : Nat) (_agree : Bool) (_reach : Bool) (_peers : List (List U8)) : Statement (.allgather _ctx _agree _reach _peers) := fun _ h => nomatch h
theorem mcast (_ctx : Nat) (_reach : Bool) : Statement (.mcast _ctx _reach) := fun _ h => nomatch h
theorem launch (_ctx : Nat) : Statement (.launch _ctx) := fun _ h => nomatch h
theorem launchPlacement (_launch : Nat) (_core : Nat) : Statement (.launchPlacement _launch _core) := fun _ h => nomatch h
theorem swout (_ctx : Nat) : Statement (.swout _ctx) := fun _ h => nomatch h
theorem releaseCommand (_ctx : Nat) : Statement (.releaseCommand _ctx) := fun _ h => nomatch h
theorem releaseCommandPlacement (_region : Nat) : Statement (.releaseCommandPlacement _region) := fun _ h => nomatch h
theorem sweep (_ctx : Nat) : Statement (.sweep _ctx) := fun _ h => nomatch h
theorem nsend (_ctx : Nat) : Statement (.nsend _ctx) := fun _ h => nomatch h
theorem nrecv (_ctx : Nat) : Statement (.nrecv _ctx) := fun _ h => nomatch h
theorem nwrite (_ctx : Nat) : Statement (.nwrite _ctx) := fun _ h => nomatch h
theorem nread (_ctx : Nat) : Statement (.nread _ctx) := fun _ h => nomatch h
theorem packetArrival (_pkt : Packet) : Statement (.packetArrival _pkt) := fun _ h => nomatch h
theorem selectiveAckArrival (_ctx : Nat) (_number : Nat) (_acked : List Nat) (_marked : List Nat) (_status : U16) : Statement (.selectiveAckArrival _ctx _number _acked _marked _status) := fun _ h => nomatch h
theorem retransmissionTimeout (_ctx : Nat) (_number : Nat) (_seq : Nat) (_nacked : Bool) : Statement (.retransmissionTimeout _ctx _number _seq _nacked) := fun _ h => nomatch h
theorem eventRecordPost (_core : Nat) : Statement (.eventRecordPost _core) := fun _ h => nomatch h
theorem hostPush (_q : Nat) (_link : BitVec 1) (_whole : Bool) (_w0 : U128) (_w1 : U128) (_w2 : U128) (_w3 : U128) : Statement (.hostPush _q _link _whole _w0 _w1 _w2 _w3) := fun _ h => nomatch h
theorem hostQueuePass (_q : Nat) : Statement (.hostQueuePass _q) := fun _ h => nomatch h
theorem messageArrival (_core : Nat) (_m : Msg) : Statement (.messageArrival _core _m) := fun _ h => nomatch h
theorem inboxTaskStart (_core : Nat) : Statement (.inboxTaskStart _core) := fun _ h => nomatch h
theorem stewardRequestStart (_core : Nat) : Statement (.stewardRequestStart _core) := fun _ h => nomatch h
theorem dlgReplyArrival (_core : Nat) (_slot : Nat) : Statement (.dlgReplyArrival _core _slot) := fun _ h => nomatch h
theorem dlgResend (_core : Nat) (_slot : Nat) : Statement (.dlgResend _core _slot) := fun _ h => nomatch h
theorem issueCycle (_core : Nat) (_cycles : Nat) : Statement (.issueCycle _core _cycles) := fun _ h => nomatch h
theorem issueGuardExpiry (_core : Nat) (_slot : Nat) : Statement (.issueGuardExpiry _core _slot) := fun _ h => nomatch h
theorem rotaTurnStart (_core : Nat) : Statement (.rotaTurnStart _core) := fun _ h => nomatch h
theorem sliceEnd (_core : Nat) : Statement (.sliceEnd _core) := fun _ h => nomatch h
theorem sliceLimitExpiry (_core : Nat) : Statement (.sliceLimitExpiry _core) := fun _ h => nomatch h
theorem sliceBudgetEnd (_core : Nat) : Statement (.sliceBudgetEnd _core) := fun _ h => nomatch h
theorem trapDelivery (_core : Nat) (_slot : Nat) : Statement (.trapDelivery _core _slot) := fun _ h => nomatch h
theorem imageRestore (_core : Nat) (_slot : Nat) : Statement (.imageRestore _core _slot) := fun _ h => nomatch h
theorem writeProtectRetry (_core : Nat) (_slot : Nat) : Statement (.writeProtectRetry _core _slot) := fun _ h => nomatch h
theorem uncorrectableError (_addr : U64) (_inSlice : Bool) (_dirtyInSlice : Bool) : Statement (.uncorrectableError _addr _inSlice _dirtyInSlice) := fun _ h => nomatch h
theorem macFailure (_addr : U64) : Statement (.macFailure _addr) := fun _ h => nomatch h
theorem offerDeadline (_res : U64) : Statement (.offerDeadline _res) := fun _ h => nomatch h
theorem termEnd (_res : U64) : Statement (.termEnd _res) := fun _ h => nomatch h
theorem ownerLapse (_owner : U16) : Statement (.ownerLapse _owner) := fun _ h => nomatch h
theorem recoveryBudgetEnd (_res : U64) : Statement (.recoveryBudgetEnd _res) := fun _ h => nomatch h
theorem recoveryComplete (_res : U64) : Statement (.recoveryComplete _res) := fun _ h => nomatch h
theorem registerScanDeadline (_core : Nat) : Statement (.registerScanDeadline _core) := fun _ h => nomatch h
theorem classRebalance (_die : BitVec 2) : Statement (.classRebalance _die) := fun _ h => nomatch h
theorem replyHandler (_r : Reply) : Statement (.replyHandler _r) := fun _ h => nomatch h
theorem loadHandler (_r : FabricReq) : Statement (.loadHandler _r) := fun _ h => nomatch h
theorem storeHandler (_r : FabricReq) : Statement (.storeHandler _r) := fun _ h => nomatch h
theorem atomicHandler (_r : FabricReq) : Statement (.atomicHandler _r) := fun _ h => nomatch h
theorem swatchCountHandler (_r : FabricReq) : Statement (.swatchCountHandler _r) := fun _ h => nomatch h
theorem spawnHandler (_core : Nat) (_r : FabricReq) (_m : Msg) : Statement (.spawnHandler _core _r _m) := fun _ h => nomatch h
theorem bulkStoreHandler (_r : FabricReq) : Statement (.bulkStoreHandler _r) := fun _ h => nomatch h
theorem launchHandler (_r : FabricReq) (_w0 : Cap) (_w1 : Cap) (_w2 : U128) (_shop : Nat) (_priority : BitVec 2) : Statement (.launchHandler _r _w0 _w1 _w2 _shop _priority) := fun _ h => nomatch h
theorem unimplementedHandler (_handler : U8) (_r : FabricReq) (_m : Msg) : Statement (.unimplementedHandler _handler _r _m) := fun _ h => nomatch h
theorem linkTraining (_link : Nat) (_peer : BitVec 14) (_signed : Bool) : Statement (.linkTraining _link _peer _signed) := fun _ h => nomatch h
theorem linkNarrowing (_link : Nat) : Statement (.linkNarrowing _link) := fun _ h => nomatch h
theorem linkDown (_link : Nat) : Statement (.linkDown _link) := fun _ h => nomatch h
theorem ocsDrainRequest (_link : Nat) : Statement (.ocsDrainRequest _link) := fun _ h => nomatch h
theorem drainMarkerReturn (_link : Nat) : Statement (.drainMarkerReturn _link) := fun _ h => nomatch h
theorem routeHoldTimeout (_peer : BitVec 14) : Statement (.routeHoldTimeout _peer) := fun _ h => nomatch h
theorem start (_value : U64) : Statement (.start _value) := fun _ h => nomatch h
theorem devnumWrite (_value : U64) : Statement (.devnumWrite _value) := fun _ h => nomatch h
theorem reset (_verified : Bool) (_bad : List Nat) : Statement (.reset _verified _bad) := fun _ h => nomatch h
theorem clockStep (_up : Bool) : Statement (.clockStep _up) := fun _ h => nomatch h
theorem spanCapacityStallLimit (_core : Nat) (_slot : Nat) : Statement (.spanCapacityStallLimit _core _slot) := fun _ h => nomatch h
theorem tyieldCycleLimit (_core : Nat) (_slot : Nat) : Statement (.tyieldCycleLimit _core _slot) := fun _ h => nomatch h
theorem evwaitCycleLimit (_core : Nat) (_slot : Nat) : Statement (.evwaitCycleLimit _core _slot) := fun _ h => nomatch h
theorem ideStreamKeying (_link : BitVec 1) : Statement (.ideStreamKeying _link) := fun _ h => nomatch h
theorem benchQuarantine (_bench : Nat) : Statement (.benchQuarantine _bench) := fun _ h => nomatch h

end Sys2Proof.Laws.RoundTrip
end

