-- ==== Sys2Proof/Laws/Scalar.lean ====
section
/-! SUPPORT. Laws of the scalar instructions, control transfers and capability instructions. -/
set_option Elab.async false
namespace Sys2Proof

open Machine Claims

/-! ### Scalar arithmetic -/

theorem cut_toInt (x : U64) : cut x.toInt = x := BitVec.ofInt_toInt
theorem cut_toNat (x : U64) : cut x.toNat = x := by simp [cut]
theorem slt_iff (x y : U64) : x.slt y = decide (x.toInt < y.toInt) := by simp [BitVec.slt]
theorem ult_iff (x y : U64) : x.ult y = decide (x.toNat < y.toNat) := by simp [BitVec.ult]
theorem sar_eq (w : Nat) (x : BitVec w) (k : Nat) : x.sshiftRight k = BitVec.ofInt w (x.toInt / 2 ^ k) := by
  apply BitVec.eq_of_toInt_eq
  rw [BitVec.toInt_sshiftRight]
  rw [Int.shiftRight_eq_div_pow, BitVec.toInt_ofInt]
  have h1 := BitVec.le_toInt x; have h2 := BitVec.toInt_lt (x := x)
  rcases Nat.eq_zero_or_pos w with rfl | hw
  · simp [BitVec.toInt_zero_length]
  obtain ⟨w, rfl⟩ : ∃ v, w = v + 1 := ⟨w - 1, by omega⟩
  simp only [Nat.add_sub_cancel] at h1 h2
  have hp : (0:Int) < 2^k := by positivity
  have hp1 : (1:Int) ≤ 2^k := hp
  have hW : (0:Int) < 2^w := by positivity
  have e1 : ((2 ^ (w + 1) : Nat) : Int) = 2 * 2 ^ w := by push_cast; rw [pow_succ]; ring
  have b1 : -2 ^ w ≤ x.toInt / 2 ^ k := by
    apply Int.le_ediv_of_mul_le hp
    nlinarith
  have b2 : x.toInt / 2 ^ k < 2 ^ w := by
    apply Int.ediv_lt_of_lt_mul hp
    nlinarith
  have : (x.toInt / 2 ^ k).bmod (2 ^ (w + 1)) = x.toInt / 2 ^ k := by
    apply Int.bmod_eq_of_le
    · rw [e1]; omega
    · rw [e1]; omega
  push_cast at this ⊢
  exact this.symm
theorem shl_eq (w : Nat) (x : BitVec w) (k : Nat) : x <<< k = BitVec.ofInt w ((x.toNat * 2 ^ k : Nat) : Int) := by
  rw [BitVec.ofInt_natCast]
  apply BitVec.eq_of_toNat_eq
  simp [BitVec.toNat_shiftLeft, Nat.shiftLeft_eq]
theorem shr_eq (w : Nat) (x : BitVec w) (k : Nat) : x >>> k = BitVec.ofInt w ((x.toNat / 2 ^ k : Nat) : Int) := by
  rw [BitVec.ofInt_natCast]
  apply BitVec.eq_of_toNat_eq
  simp [BitVec.toNat_ushiftRight, Nat.shiftRight_eq_div_pow]
  rw [Nat.mod_eq_of_lt]
  exact Nat.lt_of_le_of_lt (Nat.div_le_self _ _) x.isLt

theorem divS_eq {w : Nat} (x y : BitVec (w + 1)) : divS x y = BitVec.ofInt (w + 1) (quot (w + 1) x.toInt y.toInt) := by
  unfold divS quot
  by_cases h : y = 0
  · subst h; simp
    rw [show (-1 : Int) = -((1:Nat):Int) from rfl, BitVec.ofInt_neg, BitVec.ofInt_natCast]
    exact (BitVec.neg_one_eq_allOnes).symm
  · rw [if_neg h, if_neg (fun e => h (BitVec.eq_of_toInt_eq (by simpa using e)))]
    split
    · rename_i h2; rw [h2.1, h2.2]; simp
      rw [BitVec.ofInt_neg]
      have e : BitVec.ofInt (w + 1) (2 ^ w) = BitVec.ofNat (w + 1) (2 ^ w) := by rw [← BitVec.ofInt_natCast]; norm_cast
      rw [e]
      apply BitVec.eq_of_toNat_eq
      have hw : 2 ^ w < 2 ^ (w + 1) := Nat.pow_lt_pow_right (by decide) (by omega)
      rw [BitVec.toNat_neg, BitVec.toNat_ofNat, Nat.mod_eq_of_lt hw, show 2 ^ (w + 1) - 2 ^ w = 2 ^ w by rw [pow_succ]; omega, Nat.mod_eq_of_lt hw]
    · rfl
theorem remS_eq {w : Nat} (x y : BitVec (w + 1)) : remS x y = BitVec.ofInt (w + 1) (rmdr (w + 1) x.toInt y.toInt) := by
  unfold remS rmdr
  by_cases h : y = 0
  · subst h; simp
  · rw [if_neg h, if_neg (fun e => h (BitVec.eq_of_toInt_eq (by simpa using e)))]
    split
    · rename_i h2; rw [h2.1, h2.2]; simp
    · rw [Int.tmod_def]
theorem divU_eq (w : Nat) (x y : BitVec w) : divU x y = BitVec.ofInt w (if y.toNat = 0 then 2 ^ w - 1 else (x.toNat / y.toNat : Nat)) := by
  unfold divU
  by_cases h : y = 0
  · subst h; simp
    apply BitVec.eq_of_toNat_eq
    have : ((2:Int)^w - 1) = ((2^w-1 : Nat) : Int) := by rw [Nat.cast_sub Nat.one_le_two_pow]; simp
    rw [this, BitVec.ofInt_natCast]; simp
  · rw [if_neg h, if_neg (fun e => h (BitVec.eq_of_toNat_eq (by simpa using e))), BitVec.ofInt_natCast]
theorem remU_eq (w : Nat) (x y : BitVec w) : remU x y = BitVec.ofInt w (if y.toNat = 0 then x.toNat else x.toNat - y.toNat * (x.toNat / y.toNat) : Int) := by
  unfold remU
  by_cases h : y = 0
  · subst h; simp
  · rw [if_neg h, if_neg (fun e => h (BitVec.eq_of_toNat_eq (by simpa using e)))]
    have : ((x.toNat : Int) - y.toNat * (x.toNat / y.toNat)) = ((x.toNat % y.toNat : Nat) : Int) := by
      rw [Int.natCast_mod, Int.emod_def]
    rw [this, BitVec.ofInt_natCast]
theorem trailingFrom_spec (x : U64) (i k : Nat) : let r := trailingFrom x i k
    (i ≤ r ∧ r ≤ i + k ∧ (∀ j, i ≤ j → j < r → x.getLsbD j = false) ∧ (r < i + k → x.getLsbD r = true)) := by
  induction k generalizing i with
  | zero => simp [trailingFrom]; intro j h1 h2; omega
  | succ k ih =>
    simp only [trailingFrom]
    split
    · rename_i h; refine ⟨le_refl _, by omega, by intro j h1 h2; omega, fun _ => h⟩
    · rename_i h
      have := ih (i+1)
      refine ⟨by omega, by omega, ?_, fun hh => this.2.2.2 (by omega)⟩
      intro j h1 h2
      rcases Nat.eq_or_lt_of_le h1 with rfl | h3
      · simpa using h
      · exact this.2.2.1 j h3 h2
theorem countP_sum (x : U64) (l : List Nat) : l.countP (fun i => x.getLsbD i) = (l.map (fun i => (x.getLsbD i).toNat)).sum := by
  induction l with
  | nil => rfl
  | cons i l ih => rw [List.countP_cons, List.map_cons, List.sum_cons, ih]; cases x.getLsbD i <;> simp [Nat.add_comm]
theorem scalar_counts_ok : Claims.Counts := by
  intro s d a
  refine ⟨⟨leadingZeros (s.x a), putsX_of rfl rfl, ?_, ?_⟩, ⟨trailingZeros (s.x a), putsX_of rfl rfl, ?_, ?_⟩, putsX_of rfl ?_⟩
  · intro h; unfold leadingZeros; exact if_pos h
  · intro h
    have hz : (s.x a).toNat ≠ 0 := fun e => h (BitVec.eq_of_toNat_eq (by simpa using e))
    have h1 := Nat.log2_self_le hz
    have h2 := Nat.lt_log2_self (n := (s.x a).toNat)
    have h3 : (s.x a).toNat.log2 < 64 := (Nat.log2_lt hz).2 (s.x a).isLt
    have hl : leadingZeros (s.x a) = 63 - (s.x a).toNat.log2 := if_neg h
    rw [hl]
    refine ⟨by omega, ?_, ?_⟩
    · rw [show 63 - (63 - (s.x a).toNat.log2) = (s.x a).toNat.log2 by omega]; exact h1
    · rw [show 64 - (63 - (s.x a).toNat.log2) = (s.x a).toNat.log2 + 1 by omega]; exact h2
  · intro h; rw [h]; decide
  · intro h
    have := trailingFrom_spec (s.x a) 0 64
    simp only [Nat.zero_add] at this
    have hlt : trailingZeros (s.x a) < 64 := by
      by_contra hc
      apply h
      apply BitVec.eq_of_getLsbD_eq
      intro i hi
      rw [show (0 : U64).getLsbD i = false from BitVec.getLsbD_zero]
      exact this.2.2.1 i (Nat.zero_le _) (by unfold trailingZeros at hc; omega)
    exact ⟨hlt, this.2.2.2 hlt, fun j hj => this.2.2.1 j (Nat.zero_le _) hj⟩
  · rw [oneBits, countP_sum]
theorem low_eq (x : U64) : low x = (x.setWidth 32).toNat := by simp [low]
theorem slow_eq (x : U64) : slow x = (x.setWidth 32).toInt := by
  rw [slow, low_eq, BitVec.ofNat_toNat]; simp
theorem cut_imm {n : Nat} (i : BitVec n) : cut i.toInt = i.signExtend 64 := rfl
theorem sext_toInt (i : BitVec 15) : (i.signExtend 64).toInt = i.toInt := BitVec.toInt_signExtend_of_le (by decide)

/-! ### Control transfers and capabilities -/

theorem byteAt_slot (s : State) (x : Slot) (a : Nat) : ({ s with self := x } : State).byteAt a = s.byteAt a := byteAt_self s x a
theorem moveCursor_eq (c : Cap) (a : U64) : c.moveCursor a = atCursor c a := rfl
theorem cut_mul (n : Nat) (h : n + 2 ≤ 64) (o : BitVec n) : (4 : U64) * o.signExtend 64 = cut (4 * o.toInt) := by
  rw [cut, BitVec.ofInt_mul]; rfl
theorem jumpClass_none {s : State} {c : Cap} (h : Enterable s c) : s.jumpClass c = none := by
  obtain ⟨h1, h2, h3, h4, h5, h6, h7⟩ := h
  have a1 : c.isSealed = false := by simp [Cap.isSealed, h2]
  have a2 : s.isRevoked c = false := by simp [State.isRevoked, h3]
  have a3 : c.inBounds c.addr.toNat 4 = true := by
    simp only [Cap.inBounds, Bool.and_eq_true, decide_eq_true_eq]; constructor; exact h5; push_cast; omega
  simp [State.jumpClass, State.capClass, h1, a1, a2, h4, a3, h7]
theorem capClass_some {s : State} {c : Cap} {k : BitVec 6} (h : EntryClass s c k) : s.jumpClass c = some k := by
  have a3 : c.inBounds c.addr.toNat 4 = decide (c.bounds.base ≤ c.addr.toNat ∧ (c.addr.toNat : Int) + 4 ≤ c.bounds.top) := by
    simp only [Cap.inBounds, Bool.decide_and]; push_cast; rfl
  rcases h with ⟨h1, rfl⟩ | ⟨h1, h2, rfl⟩ | ⟨h1, h2, h3, rfl⟩ | ⟨h1, h2, h3, h4, rfl⟩ | ⟨h1, h2, h3, h4, h5, rfl⟩ | ⟨h1, h2, h3, h4, h5, h6, h7, rfl⟩
  all_goals simp_all [State.jumpClass, State.capClass, Cap.isSealed, State.isRevoked]
theorem jumps_of {i : Instr} {s : State} {d : BitVec 5} {c : Cap} (h : exec i s = .next (s.transfer d c)) : Jumps i s d c := by
  have hg := gSet_setG s d (c := s.link)
  unfold State.transfer at h
  obtain ⟨g', e⟩ := setG_shape s d s.link
  rw [e] at h hg
  exact ⟨_, h, ⟨fun n => hg n, fun _ => rfl, fun _ => rfl, rfl, slotFrame_of rfl rfl, rfl, fun a => byteAt_self s _ a⟩, rfl, rfl, rfl, rfl, rfl⟩
theorem goes_of {i : Instr} {s : State} {c : Cap} (h : exec i s = .next (s.jumpTo c)) : Goes i s c :=
  ⟨_, h, ⟨fun _ => rfl, fun _ => rfl, fun _ => rfl, rfl, slotFrame_of rfl rfl, rfl, fun a => byteAt_self s _ a⟩, rfl, rfl, rfl, rfl, rfl⟩
theorem transferPc_ok {s : State} {d : BitVec 5} {w : U64} (h : Enterable s (atCursor s.self.pcc (s.pc + 4 * w))) :
    s.transferPc d w = s.transfer d (atCursor s.self.pcc (s.pc + 4 * w)) := by
  have := jumpClass_none h
  simp only [State.transferPc, moveCursor_eq, this]
theorem transferPc_bad {s : State} {d : BitVec 5} {w : U64} {k : BitVec 6} (h : EntryClass s (atCursor s.self.pcc (s.pc + 4 * w)) k) :
    s.transferPc d w = (if k = 0x16 then { s with self := { s.self with pcc := s.self.pcc.untag } } else s).trap k (atCursor s.self.pcc (s.pc + 4 * w)).addr := by
  have := capClass_some h
  simp only [State.transferPc, moveCursor_eq, this]; rfl
theorem branches_of {i : Instr} {s : State} {b : Bool} {P : Prop} {o : BitVec 12} (h : exec i s = s.branch b o) (e : b = true ↔ P) : Branches i s P o := by
  obtain rfl : (b = true) = P := propext e
  constructor
  · intro hb
    have hb : b = false := by simpa using hb
    subst hb
    exact goes_of h
  · intro hb he
    subst hb
    rw [← cut_mul 12 (by decide)] at he ⊢
    apply goes_of
    rw [h]
    show Host.Outcome.next (s.transferPc 0 _) = _
    rw [transferPc_ok he]; rfl
theorem own_region (x lim : Nat) (hl : lim < 262144) :
    (((x / 262144 : Nat) : Int) - iver (decide (x % 262144 < lim))) * 262144 + lim ≤ x
    ∧ (x : Int) < (((x / 262144 : Nat) : Int) - iver (decide (x % 262144 < lim))) * 262144 + lim + 262144 := by
  unfold iver; split <;> simp at * <;> omega
theorem extract_lo {n m : Nat} (x : BitVec n) (y : BitVec m) (lo k : Nat) (h : lo + k ≤ m) : (x ++ y).extractLsb' lo k = y.extractLsb' lo k := Laws.Ext.lo rfl h
theorem extract_hi {n m : Nat} (x : BitVec n) (y : BitVec m) (lo k : Nat) (h : m ≤ lo) : (x ++ y).extractLsb' lo k = x.extractLsb' (lo - m) k := Laws.Ext.hi (lo - m) rfl (by omega)

theorem encodeFrom_spec (b l k : Nat) (hk : k ≤ 46) : ∃ e, 46 - k ≤ e ∧ e ≤ 46 ∧ encodeBoundsFrom b l k = (e, b / 2 ^ e % 2 ^ 18, (b + l + 2 ^ e - 1) / 2 ^ e % 2 ^ 18)
    ∧ (e < 46 → (b + l + 2 ^ e - 1) / 2 ^ e - b / 2 ^ e ≤ 2 ^ 18 - 1) ∧ (boundsFit b l (46 - k) = true → e = 46 - k) := by
  induction k with
  | zero => exact ⟨46, by omega, by omega, rfl, by omega, by simp⟩
  | succ k ih =>
    unfold encodeBoundsFrom
    simp only
    split
    · rename_i h
      exact ⟨45 - k, by omega, by omega, rfl, fun _ => by simpa [boundsFit] using h, fun _ => by omega⟩
    · rename_i h
      obtain ⟨e, h1, h2, h3, h4, h5⟩ := ih (by omega)
      exact ⟨e, by omega, h2, h3, h4, fun hf => absurd (by rwa [show 46 - (k+1) = 45 - k by omega] at hf) h⟩

theorem withBounds_fields (c : Cap) (b l : Nat) : let n := c.withBounds b l
    n.perms = c.perms ∧ n.otype = c.otype ∧ n.expo = BitVec.ofNat 6 (encodeBounds b l).1 ∧ n.mantT = BitVec.ofNat 18 (encodeBounds b l).2.2
    ∧ n.mantB = BitVec.ofNat 18 (encodeBounds b l).2.1 ∧ n.addr = c.addr := by
  simp only [Cap.withBounds]
  refine ⟨?_, ?_, ?_, ?_, ?_, ?_⟩
  · exact Laws.Ext.hi 52 <| Laws.Ext.hi 50 <| Laws.Ext.hi 32 <| Laws.Ext.hi 14 <| Laws.Ext.hi 8 <| Laws.Ext.hi 0 <| Laws.Ext.all _
  · exact Laws.Ext.hi 44 <| Laws.Ext.hi 42 <| Laws.Ext.hi 24 <| Laws.Ext.hi 6 <| Laws.Ext.hi 0 <| Laws.Ext.lo <| Laws.Ext.all _
  · exact Laws.Ext.hi 38 <| Laws.Ext.hi 36 <| Laws.Ext.hi 18 <| Laws.Ext.hi 0 <| Laws.Ext.lo <| Laws.Ext.all _
  · exact Laws.Ext.hi 20 <| Laws.Ext.hi 18 <| Laws.Ext.hi 0 <| Laws.Ext.lo <| Laws.Ext.all _
  · exact Laws.Ext.hi 2 <| Laws.Ext.hi 0 <| Laws.Ext.lo <| Laws.Ext.all _
  · exact Laws.Ext.lo <| Laws.Ext.all _

theorem window (x y : Nat) (h : x ≤ y) (h2 : y - x ≤ 262143) : 
   let lim := (y % 262144 + (262144 - (y % 262144 + 262144 - x % 262144) % 262144 + 1) / 2) % 262144
   (((x / 262144 : Nat) : Int) + iver (decide (x % 262144 < lim)) - iver (decide (x % 262144 < lim))) * 262144 + (x % 262144 : Nat) = x
   ∧ (((x / 262144 : Nat) : Int) + iver (decide (y % 262144 < lim)) - iver (decide (x % 262144 < lim))) * 262144 + (y % 262144 : Nat) = y := by
  intro lim
  unfold iver
  have hl : lim = (y % 262144 + (262144 - (y % 262144 + 262144 - x % 262144) % 262144 + 1) / 2) % 262144 := rfl
  clear_value lim
  constructor
  · omega
  · split <;> split <;> simp at * <;> omega

theorem ceil_ge (v e : Nat) : v ≤ (v + 2 ^ e - 1) / 2 ^ e * 2 ^ e := by
  have hp : 0 < 2 ^ e := by positivity
  have := Nat.div_add_mod (v + 2 ^ e - 1) (2 ^ e)
  have := Nat.mod_lt (v + 2 ^ e - 1) hp
  rw [Nat.mul_comm ((v + 2 ^ e - 1) / 2 ^ e)]
  omega
theorem withBounds_bounds (c : Cap) (l : Nat) (hb : c.addr.toNat + l ≤ 2 ^ 64) : ∃ e, let n := c.withBounds c.addr.toNat l
    n.bounds.base = ((c.addr.toNat / 2 ^ e * 2 ^ e : Nat) : Int) ∧ n.bounds.top = (((c.addr.toNat + l + 2 ^ e - 1) / 2 ^ e * 2 ^ e : Nat) : Int)
    ∧ (l < 2 ^ 18 → e = 0) := by
  obtain ⟨e, h1, h2, h3, h4, h5⟩ := encodeFrom_spec c.addr.toNat l 46 (by omega)
  obtain ⟨f1, f2, f3, f4, f5, f6⟩ := withBounds_fields c c.addr.toNat l
  refine ⟨e, ?_⟩
  intro n
  have g3 : n.expo.toNat = e := by rw [f3, encodeBounds, h3]; simp; omega
  have g4 : n.mantT.toNat = (c.addr.toNat + l + 2 ^ e - 1) / 2 ^ e % 2 ^ 18 := by rw [f4, encodeBounds, h3]; simp
  have g5 : n.mantB.toNat = c.addr.toNat / 2 ^ e % 2 ^ 18 := by rw [f5, encodeBounds, h3]; simp
  have hz : l < 2 ^ 18 → e = 0 := fun hl => h5 (by simp [boundsFit]; omega)
  unfold Cap.bounds Cap.boundsAt
  have f7 : n.addr = c.addr := f6
  simp only [f7, g3, g4, g5]
  have hm : Nat.min e 46 = e := Nat.min_eq_left h2
  rw [hm]
  have hxy : c.addr.toNat / 2 ^ e ≤ (c.addr.toNat + l + 2 ^ e - 1) / 2 ^ e := by
    have hp : 0 < 2 ^ e := by positivity
    exact Nat.div_le_div_right (by omega)
  split
  · rename_i he
    subst he
    have hal := c.addr.isLt
    refine ⟨?_, ?_, hz⟩
    · simp; omega
    · simp only
      have hy : (c.addr.toNat + l + 2 ^ 46 - 1) / 2 ^ 46 ≤ 2 ^ 18 := by omega
      split
      · rename_i h0
        have : (c.addr.toNat + l + 2 ^ 46 - 1) / 2 ^ 46 = 2 ^ 18 := by
          rcases Nat.eq_or_lt_of_le hy with h | h
          · exact h
          · have h6 : (c.addr.toNat + l + 2 ^ 46 - 1) / 2 ^ 46 = 0 := by omega
            have h7 : l < 2 ^ 18 := by omega
            exact absurd (hz h7) (by decide)
        rw [this]; norm_num
      · rename_i h0
        have : (c.addr.toNat + l + 2 ^ 46 - 1) / 2 ^ 46 % 2 ^ 18 = (c.addr.toNat + l + 2 ^ 46 - 1) / 2 ^ 46 := by omega
        rw [this]; push_cast; norm_num
  · rename_i he
    have hw := window _ _ hxy (h4 (by omega))
    simp only at hw
    simp only [show (2:Nat)^18 = 262144 from rfl]
    have d1 (v : Nat) : v / 2 ^ (e + 18) = v / 2 ^ e / 262144 := by rw [pow_add, Nat.div_div_eq_div_mul]; norm_num
    have q : (2:Int) ^ (e + 18) = 262144 * 2 ^ e := by rw [pow_add]; norm_num; ring
    rw [d1, q]
    have key (A B X P : Int) (h : A * 262144 + B = X) : A * (262144 * P) + B * P = X * P := by rw [← h]; ring
    refine ⟨?_, ?_, hz⟩
    · rw [Nat.cast_mul, Nat.cast_pow]; exact key _ _ _ _ hw.1
    · rw [Nat.cast_mul, Nat.cast_pow]; exact key _ _ _ _ hw.2

theorem derivable_eq (s : State) (c : Cap) : s.derivable c = derivable s c := by
  unfold State.derivable derivable Cap.isSealed State.isRevoked bne
  cases c.tag <;> simp
theorem setBounds_spec {s : State} {c : Cap} {l : Nat} {exact' : Bool} : BoundsSet s c (c.setBounds l exact' (s.derivable c)) l exact' := by
  have hd := derivable_eq s c
  unfold BoundsSet Cap.setBounds
  simp only
  by_cases h : 2 ^ 64 < c.addr.toNat + l
  · rw [if_pos h, if_pos h]; rfl
  · rw [if_neg h, if_neg h]
    obtain ⟨f1, f2, f3, f4, f5, f6⟩ := withBounds_fields c c.addr.toNat l
    obtain ⟨e, b1, b2, b3⟩ := withBounds_bounds c l (by omega)
    have hp : 0 < 2 ^ e := by positivity
    refine ⟨f6, f1, f2, ?_, ?_, ?_, ?_⟩
    · show (c.withBounds c.addr.toNat l).bounds.base ≤ _
      rw [b1]; exact_mod_cast Nat.div_mul_le_self _ _
    · show _ ≤ (c.withBounds c.addr.toNat l).bounds.top
      rw [b2]; exact_mod_cast ceil_ge _ e
    · intro hl
      obtain rfl := b3 hl
      constructor
      · show (c.withBounds c.addr.toNat l).bounds.base = _
        rw [b1]; simp
      · show (c.withBounds c.addr.toNat l).bounds.top = _
        rw [b2]; simp
    · simp only [hd, Bool.and_eq_true, Bool.or_eq_true, Bool.not_eq_true', Bounds.within, decide_eq_true_eq]
      show (derivable s c = true ∧ (_ ∧ _)) ∧ _ ↔ derivable s c = true ∧ _ ∧ _ ∧ (exact' = true → (c.withBounds c.addr.toNat l).bounds.base = _ ∧ (c.withBounds c.addr.toNat l).bounds.top = _)
      have hbd (n : Cap) (t : Bool) : ({ n with tag := t } : Cap).bounds = n.bounds := rfl
      simp only [hbd]
      cases exact' <;> simp [and_assoc]
theorem repFrom_spec (l k : Nat) (hk : k ≤ 46) : ∃ e, 46 - k ≤ e ∧ e ≤ 46 ∧ (∀ j, 46 - k ≤ j → j < e → 2 ^ 18 - 1 < (l + 2 ^ j - 1) / 2 ^ j)
    ∧ (e < 46 → (l + 2 ^ e - 1) / 2 ^ e ≤ 2 ^ 18 - 1) ∧ repLengthFrom l k = (l + 2 ^ e - 1) / 2 ^ e * 2 ^ e := by
  induction k with
  | zero => exact ⟨46, by omega, by omega, by intro j h1 h2; omega, by omega, rfl⟩
  | succ k ih =>
    unfold repLengthFrom
    simp only
    split
    · rename_i h
      exact ⟨45 - k, by omega, by omega, by intro j h1 h2; omega, fun _ => h, rfl⟩
    · rename_i h
      obtain ⟨e, h1, h2, h3, h4, h5⟩ := ih (by omega)
      refine ⟨e, by omega, h2, ?_, h4, h5⟩
      intro j h6 h7
      rcases Nat.lt_or_ge j (46 - k) with h8 | h8
      · obtain rfl : j = 45 - k := by omega
        omega
      · exact h3 j h8 h7
theorem zext (n m : Nat) (x : BitVec n) : (0#m ++ x).toNat = x.toNat := by
  simp
theorem low12 (y : U64) : y.setWidth 12 = y.extractLsb' 0 12 := by
  apply BitVec.eq_of_toNat_eq; simp
theorem isSealed_iff (c : Cap) : c.isSealed = decide (c.otype ≠ 0) := by
  by_cases h : c.otype = 0
  · rw [decide_eq_false (by simpa using h)]; simp [Cap.isSealed, h]
  · rw [decide_eq_true h]; unfold Cap.isSealed; simpa using h
theorem inB1 (k : Cap) : k.inBounds k.addr.toNat 1 = decide (k.bounds.base ≤ k.addr.toNat ∧ (k.addr.toNat : Int) < k.bounds.top) := by
  unfold Cap.inBounds
  rw [Bool.decide_and]; congr 1
theorem sealClass_eq (s : State) (c k : Cap) (need : Perm) (b : Bool) : s.sealClass c k need b =
    if ¬(c.tag = true ∧ k.tag = true) then some 0x03
    else if ¬((c.otype ≠ 0 ↔ b = true) ∧ k.otype = 0) then some 0x06
    else if ¬(s.revokedAddr c.bounds.base.toNat = false ∧ s.revokedAddr k.bounds.base.toNat = false) ∧ c.tag = true ∧ k.tag = true then some 0x16
    else if ¬(k.holds need = true) then some 0x05
    else if ¬(k.bounds.base ≤ k.addr.toNat ∧ (k.addr.toNat : Int) < k.bounds.top) then some 0x04 else none := by
  unfold State.sealClass State.isRevoked
  have e : (c.isSealed != b) = decide (¬(c.otype ≠ 0 ↔ b = true)) := by
    rw [isSealed_iff]; by_cases h : c.otype = 0 <;> cases b
    · rw [decide_eq_false (by simpa using h), decide_eq_false (by simpa using h)]; rfl
    · rw [decide_eq_false (by simpa using h), decide_eq_true (by simpa using h)]; rfl
    · rw [decide_eq_true h, decide_eq_true (by simpa using h)]; rfl
    · rw [decide_eq_true h, decide_eq_false (by simpa using h)]; rfl
  rw [e, isSealed_iff k, inB1]
  by_cases hA : (c.otype ≠ 0 ↔ b = true) <;> by_cases hk : k.otype = 0 <;>
    by_cases hB : (k.bounds.base ≤ k.addr.toNat ∧ (k.addr.toNat : Int) < k.bounds.top) <;> simp only [hA, hk, hB] <;>
    cases c.tag <;> cases k.tag <;> cases s.revokedAddr c.bounds.base.toNat <;> cases s.revokedAddr k.bounds.base.toNat <;> cases k.holds need <;> simp <;> exact hk
theorem sealClass_none {s : State} {c k : Cap} {need : Perm} {b : Bool} (h : SealPasses s c k need b) : s.sealClass c k need b = none := by
  obtain ⟨h1, h2, h3, h4, h5, h6, h7, h8, h9⟩ := h
  rw [sealClass_eq, if_neg (not_not.2 ⟨h1, h2⟩), if_neg (not_not.2 ⟨h3, h4⟩), if_neg (fun h => h.1 ⟨h5, h6⟩), if_neg (not_not.2 h7), if_neg (not_not.2 ⟨h8, h9⟩)]
theorem sealClass_some {s : State} {c k : Cap} {need : Perm} {b : Bool} {cls} (h : SealClass s c k need b cls) : s.sealClass c k need b = some cls := by
  rw [sealClass_eq]
  rcases h with ⟨h1, rfl⟩ | ⟨h1, h2, rfl⟩ | ⟨h1, h2, h3, rfl⟩ | ⟨h1, h2, h3, h4, rfl⟩ | ⟨h1, h2, h3, h4, h5, rfl⟩
  · rw [if_pos h1]
  · rw [if_neg (not_not.2 h1), if_pos h2]
  · rw [if_neg (not_not.2 h1), if_neg (not_not.2 h2), if_pos ⟨h3, h1⟩]
  · rw [if_neg (not_not.2 h1), if_neg (not_not.2 h2), if_neg (fun h => h.1 h3), if_pos (by rw [h4]; decide)]
  · rw [if_neg (not_not.2 h1), if_neg (not_not.2 h2), if_neg (fun h => h.1 h3), if_neg (not_not.2 h4), if_pos h5]
theorem sealTrap_plain {s : State} {a b : BitVec 5} {cls} (h : cls ≠ 0x16) : s.sealTrap a b cls = s.trap cls 0 := by
  unfold State.sealTrap; simp only; rw [if_neg h]
theorem sealTrap_rev (s : State) (a b : BitVec 5) : ∃ u : State, s.sealTrap a b 0x16 = u.trap 0x16 0 ∧ (∀ n, (u.g n).bits = (s.g n).bits) ∧ ∀ n, n ≠ a → n ≠ b → u.g n = s.g n := by
  unfold State.sealTrap
  simp only
  rw [if_pos trivial]
  have e (t : State) (r n : BitVec 5) (h : ∀ m, (t.g m).bits = (s.g m).bits) : ((t.setG r (s.g r).untag).g n).bits = (s.g n).bits := by
    rw [State.g_setG]; split
    · rename_i h1; rw [h1.1]; rfl
    · exact h n
  refine ⟨_, rfl, ?_, ?_⟩
  · intro n
    split <;> split
    · exact e _ _ _ (fun m => e _ _ _ (fun _ => rfl))
    · exact e _ _ _ (fun _ => rfl)
    · exact e _ _ _ (fun _ => rfl)
    · rfl
  · intro n h1 h2
    split <;> split <;> simp [h1, h2]
theorem sealable_iff (o : Nat) : (o == 2 || o == 3 || o == 5 || (decide (16 ≤ o) && decide (o < 256))) = decide (sealable o) := by
  rw [Bool.eq_iff_iff]
  simp only [Bool.or_eq_true, Bool.and_eq_true, decide_eq_true_eq, beq_iff_eq, sealable]
  omega

end Sys2Proof
end

