-- ==== Sys2Proof/Laws/Loom.lean ====
section
/-! SUPPORT. Laws of the loom: records kept by key, leases, matrix commands, the array's arithmetic, chains. -/
set_option Elab.async false
namespace Sys2Proof

open Machine Claims

/-! ### Leases, matrix commands, chains -/

theorem completes_of {i : Instr} {s u : State} (h : exec i s = .next u.retire) : Completes i s u := ⟨_, h, ⟨rfl, rfl, rfl, rfl, rfl⟩, rfl⟩

theorem ext_mod (w : U64) (a n : Nat) : (w.extractLsb' a n).toNat = w.toNat / 2 ^ a % 2 ^ n := by
  simp [BitVec.extractLsb'_toNat, Nat.shiftRight_eq_div_pow]
theorem ext_eq (w : U64) (a n : Nat) (x : BitVec n) : w.extractLsb' a n = x ↔ w.toNat / 2 ^ a % 2 ^ n = x.toNat := by
  rw [← BitVec.toNat_inj, ext_mod]
theorem sum_foldl (l : List Drain) (n : Nat) : l.foldl (fun n d => n + d.rows.length) n = n + (l.map (fun d => d.rows.length)).sum := by
  induction l generalizing n with
  | nil => rfl
  | cons d l ih => rw [List.foldl_cons, ih, List.map_cons, List.sum_cons]; omega
theorem waitingRows_eq (l : Loom) : l.waitingRows = (l.drains.map (fun d => d.rows.length)).sum := by
  unfold Loom.waitingRows; rw [sum_foldl]; omega
theorem loomIdx_eq (c : Core) : c.loomIdx = c.lease.request.toNat % 4 := by
  unfold Core.loomIdx; rw [ext_mod]; norm_num
theorem loom_key (s : State) (b i : Nat) : loomKey (s.loom b i) = b * 3 + i := by
  unfold State.loom
  cases h : findBy loomKey (b * 3 + i) s.looms with
  | none => rfl
  | some x => simpa using findBy_key h
theorem find_putBy {α : Type} (key : α → Nat) (x : α) (l : List α) : findBy key (key x) (putBy key x l) = some x := by
  induction l with
  | nil => simp [putBy, findBy]
  | cons y l ih =>
    unfold putBy
    split
    · simp [findBy]
    · split
      · simp [findBy]
      · rename_i h1 h2
        unfold findBy; rw [if_neg (fun e => h2 e.symm)]; exact ih
theorem loom_put (s : State) (l : Loom) (b i : Nat) (h : loomKey l = b * 3 + i) : (s.putLoom l).loom b i = l := by
  unfold State.loom State.putLoom; rw [← h]; simp only [find_putBy, Option.getD_some]
theorem core_put (s : State) (c : Core) : (s.putCore c).core c.idx = c := by
  unfold State.core State.putCore; simp only [find_putBy, Option.getD_some]
theorem putBy_put {α : Type} (key : α → Nat) (x y : α) (h : key y = key x) (l : List α) : putBy key x (putBy key y l) = putBy key x l := by
  induction l with
  | nil => simp [putBy, h]
  | cons z l ih =>
    rcases lt_trichotomy (key x) (key z) with a | a | a
    · rw [show putBy key x (z :: l) = x :: z :: l by simp [putBy, a], show putBy key y (z :: l) = y :: z :: l by simp [putBy, h, a]]
      simp [putBy, h]
    · rw [show putBy key x (z :: l) = x :: l by simp [putBy, a], show putBy key y (z :: l) = y :: l by simp [putBy, h, a]]
      simp [putBy, h]
    · have n1 : ¬key x < key z := by omega
      have n2 : key x ≠ key z := by omega
      rw [show putBy key x (z :: l) = z :: putBy key x l by simp [putBy, n1, n2], show putBy key y (z :: l) = z :: putBy key y l by simp [putBy, h, n1, n2]]
      rw [show putBy key x (z :: putBy key y l) = z :: putBy key x (putBy key y l) by simp [putBy, n1, n2], ih]
theorem putCore_putCore (s : State) (c d : Core) (h : d.idx = c.idx) : (s.putCore d).putCore c = s.putCore c := by
  unfold State.putCore; simp only [putBy_put Core.idx c d h]
theorem putLoom_putLoom (s : State) (c d : Loom) (h : loomKey d = loomKey c) : (s.putLoom d).putLoom c = s.putLoom c := by
  unfold State.putLoom; simp only [putBy_put loomKey c d h]

theorem leaseStatus_some {s : State} {w st : U64} (h : TurnedAway s w st) : s.leaseStatus w = some st := by
  unfold TurnedAway at h
  unfold State.leaseStatus
  have e1 : (w.extractLsb' 14 2 != 0 || w.extractLsb' 4 4 != 0) = decide ¬(w.toNat / 2 ^ 14 % 4 = 0 ∧ w.toNat / 2 ^ 4 % 16 = 0) := by
    rw [Bool.eq_iff_iff]; simp only [Bool.or_eq_true, bne_iff_ne, decide_eq_true_eq, ne_eq, ext_eq]; norm_num; tauto
  have e2 : (w.extractLsb' 0 2 == 3) = decide ¬(w.toNat % 4 ≠ 3) := by
    rw [Bool.eq_iff_iff]; simp only [beq_iff_eq, ext_eq, decide_eq_true_eq]; norm_num; exact Iff.rfl
  have e3 : ((drainSeats w).isEmpty || decide (16 < (drainSeats w).length)) = decide ¬(seatsOf w ≠ [] ∧ (seatsOf w).length ≤ 16) := by
    rw [Bool.eq_iff_iff]; simp only [Bool.or_eq_true, List.isEmpty_iff, decide_eq_true_eq]
    have e : drainSeats w = seatsOf w := rfl
    rw [e]; rw [not_and_or]; simp
  have e5 : ((drainSeats w).any fun q => s.coreUser (coreBench s.self.core * 48 + q) != s.self.owner)
      = decide ¬(∀ q ∈ seatsOf w, s.coreUser (coreBench s.self.core * 48 + q) = s.self.owner) := by
    rw [Bool.eq_iff_iff]
    have e : drainSeats w = seatsOf w := rfl
    rw [e]; simp
  simp only [e1, e2, e3, e5, decide_eq_true_eq]
  rcases h with h | h | h | h | h
  · rw [if_pos h.1, h.2]
  · rw [if_neg (not_not.2 h.1), if_pos h.2.1, h.2.2]
  · rw [if_neg (not_not.2 h.1), if_neg (not_not.2 h.2.1), if_pos h.2.2.1, h.2.2.2]
  · rw [if_neg (not_not.2 h.1), if_neg (not_not.2 h.2.1), if_neg (not_not.2 h.2.2.1), if_pos (by simpa using h.2.2.2.1), h.2.2.2.2]
  · rw [if_neg (not_not.2 h.1), if_neg (not_not.2 h.2.1), if_neg (not_not.2 h.2.2.1), if_neg (by simpa using h.2.2.2.1), if_pos h.2.2.2.2.1, h.2.2.2.2.2]
theorem leaseStatus_none {s : State} {w : U64} (h : Asks s w) : s.leaseStatus w = none := by
  obtain ⟨a, b, c, d, e, f, g⟩ := h
  unfold State.leaseStatus
  rw [if_neg (by simp only [Bool.or_eq_true, bne_iff_ne, ne_eq, ext_eq, not_or, not_not]; exact ⟨by simpa using a, by simpa using b⟩),
    if_neg (by simp only [beq_iff_eq, ext_eq]; simpa using c),
    if_neg (by
      have e' : drainSeats w = seatsOf w := rfl
      simp only [e', Bool.or_eq_true, List.isEmpty_iff, decide_eq_true_eq, not_or]; exact ⟨d, by omega⟩),
    if_neg (by simp [f]),
    if_neg (by
      have e' : drainSeats w = seatsOf w := rfl
      rw [e']; simpa using g)]

theorem myCore_put (s : State) (l : Loom) (c : Core) (h : c.idx = s.self.core) : ((s.putLoom l).putCore c).myCore = c := by
  unfold State.myCore; rw [show ((s.putLoom l).putCore c).self.core = c.idx from h.symm]; exact core_put _ _
theorem myCore_idx (s : State) : s.myCore.idx = s.self.core := core_idx s _
theorem next_only (q : Nat) (hq : q < 48) (n : Nat) : (List.range 48).findSome? (fun i => let r := (n + 1 + i) % 48; if [q].contains r then some r else none) = some q := by
  cases h : (List.range 48).findSome? (fun i => let r := (n + 1 + i) % 48; if [q].contains r then some r else none) with
  | none =>
    rw [List.findSome?_eq_none_iff] at h
    have := h ((q + 48 - (n + 1) % 48) % 48) (List.mem_range.2 (Nat.mod_lt _ (by norm_num)))
    have e : (n + 1 + (q + 48 - (n + 1) % 48) % 48) % 48 = q := by omega
    rw [e] at this
    simp at this
  | some x =>
    obtain ⟨i, -, hi⟩ := List.exists_of_findSome?_eq_some h
    dsimp only at hi
    split at hi
    · rename_i hc
      have hc' : (n + 1 + i) % 48 = q := by simpa using hc
      rw [← hi, hc']
    · cases hi
theorem leaseGranted_id {t : State} {q : Nat} (h : (t.slot q 0).leasing = false) : t.leaseGranted q = t := by
  unfold State.leaseGranted
  unfold Slot.leasing at h
  dsimp only
  split
  · rename_i e; rw [e] at h; exact absurd h (by simp)
  · rfl
theorem mySlot_self (s : State) (h : s.self.idx = 0) : s.slot s.self.core 0 = s.self := by
  unfold State.slot slotKey; rw [h, if_pos rfl]
theorem grant_free {t : State} {b i q : Nat} (h1 : (t.loom b i).holder = none) (h2 : (t.loom b i).pending = [q]) (h3 : (t.loom b i).waitingRows ≤ 8) (hq : q < 48)
    (hp : (t.slot (b * 48 + q) 0).leasing = false) :
    t.grant b i = (t.putLoom { (t.loom b i).cleared with
      holder := some q, last := q, pending := []
      left := ((t.core (b * 48 + q)).lease.request.extractLsb' 8 6).toNat + 1, w := 0, dflt := true, queue := [], lastCmd := t.cycle }).putCore
      { t.core (b * 48 + q) with lease := { (t.core (b * 48 + q)).lease with state := 2 } } := by
  have e : (t.loom b i).nextSeat = some q := by
    unfold Loom.nextSeat; rw [h2]; exact next_only q hq _
  unfold State.grant
  dsimp only
  rw [if_neg (by omega), e, h1]
  dsimp only
  rw [leaseGranted_id (by exact hp), h2]
  simp
theorem grant_held {t : State} {b i : Nat} (h1 : (t.loom b i).holder ≠ none) : t.grant b i = t := by
  unfold State.grant
  dsimp only
  cases h : (t.loom b i).holder with
  | none => exact absurd h h1
  | some x => rfl
theorem seat_core (s : State) : coreBench s.self.core * 48 + mySeat s = s.self.core := by unfold coreBench mySeat; omega
theorem askLoom_free {s : State} {w : U64} {h : Cap} (hi0 : s.self.idx = 0) (hp : s.self.park = .no) (hf : FreeLoom (loomOf s w)) :
    s.askLoom (asked s w h 1) = (s.putLoom (granted s (loomOf s w) w)).putCore { s.myCore with lease := asked s w h 2 } := by
  obtain ⟨h1, h2, h3⟩ := hf
  have hq : mySeat s < 48 := Nat.mod_lt _ (by norm_num)
  have hi : (w.extractLsb' 0 2).toNat = w.toNat % 4 := by rw [ext_mod]; norm_num
  have key : loomKey (loomOf s w) = coreBench s.self.core * 3 + w.toNat % 4 := loom_key _ _ _
  let s1 := s.putCore { s.myCore with lease := asked s w h 1 }
  let l := loomOf s w
  let t := s1.putLoom { l with pending := setAdd l.pending (coreSeat s.self.core) }
  have e0 : s.askLoom (asked s w h 1) = t.grant (coreBench s.self.core) (w.toNat % 4) := by
    unfold State.askLoom; dsimp only
    rw [show (asked s w h 1).request = w from rfl, hi]; rfl
  have el : t.loom (coreBench s.self.core) (w.toNat % 4) = { l with pending := setAdd l.pending (coreSeat s.self.core) } := loom_put _ _ _ _ key
  have ep : setAdd l.pending (coreSeat s.self.core) = [mySeat s] := by rw [show l.pending = [] from h2]; rfl
  rw [e0, grant_free (q := mySeat s) (by rw [el]; exact h1) (by rw [el]; exact ep) (by rw [el]; rw [waitingRows_eq]; exact h3) hq
    (by rw [seat_core, show t.slot s.self.core 0 = s.slot s.self.core 0 from rfl, mySlot_self s hi0]; unfold Slot.leasing; rw [hp]), seat_core]
  have ec : t.core s.self.core = { s.myCore with lease := asked s w h 1 } := by
    show s1.core s.self.core = _
    rw [← myCore_idx s]; exact core_put _ _
  rw [ec, el]
  have er : (w.extractLsb' 8 6).toNat + 1 = w.toNat / 2 ^ 8 % 2 ^ 6 + 1 := by rw [ext_mod]
  have sw : ∀ (u : State) (c : Core) (l1 l2 : Loom) (d : Core), loomKey l1 = loomKey l2 → c.idx = d.idx →
      (((u.putCore c).putLoom l1).putLoom l2).putCore d = (u.putLoom l2).putCore d := fun u c l1 l2 d a b => by
    rw [putLoom_putLoom _ _ _ a, show (u.putCore c).putLoom l2 = (u.putLoom l2).putCore c from rfl, putCore_putCore _ _ _ b]
  have g : granted s (loomOf s w) w = { l.cleared with
      holder := some (mySeat s), last := mySeat s, pending := [], left := (w.extractLsb' 8 6).toNat + 1, w := 0, dflt := true, queue := [], lastCmd := s.cycle } := by
    unfold granted; rw [← er]; rfl
  rw [g]
  exact sw s _ _ _ _ rfl rfl
theorem askLoom_held {s : State} {w : U64} {h : Cap} (hf : (loomOf s w).holder ≠ none) :
    s.askLoom (asked s w h 1) = (s.putCore { s.myCore with lease := asked s w h 1 }).putLoom
      { loomOf s w with pending := setAdd (loomOf s w).pending (mySeat s) } := by
  have hi : (w.extractLsb' 0 2).toNat = w.toNat % 4 := by rw [ext_mod]; norm_num
  have key : loomKey (loomOf s w) = coreBench s.self.core * 3 + w.toNat % 4 := loom_key _ _ _
  let s1 := s.putCore { s.myCore with lease := asked s w h 1 }
  let l := loomOf s w
  let t := s1.putLoom { l with pending := setAdd l.pending (coreSeat s.self.core) }
  have e0 : s.askLoom (asked s w h 1) = t.grant (coreBench s.self.core) (w.toNat % 4) := by
    unfold State.askLoom; dsimp only
    rw [show (asked s w h 1).request = w from rfl, hi]; rfl
  have el : t.loom (coreBench s.self.core) (w.toNat % 4) = { l with pending := setAdd l.pending (coreSeat s.self.core) } := loom_put _ _ _ _ key
  rw [e0, grant_held (by rw [el]; exact hf)]; rfl

theorem isRevoked_of {s : State} {c : Cap} {b : Bool} (h : c.tag = true) (r : s.revokedAddr c.bounds.base.toNat = b) : s.isRevoked c = b := by
  unfold State.isRevoked; rw [h, r]; rfl

theorem lease_eq {s : State} {x y : BitVec 5} (hi : s.self.idx = 0) (hp : ¬Leasing s) :
    exec (.lease x y) s = finish (
      if (!(s.g y).tag) = true then .error (s.trap 0x03 0)
      else if ((s.g y).otype != 5) = true then .error (s.trap 0x06 0)
      else if s.isRevoked (s.g y) = true then .error (s.capTrap y 0x16 (.plain 0x16 0))
      else match s.leaseStatus (s.x x) with
      | some st => .ok ((s.wr x st).retire)
      | none =>
        let t := (unparked s).askLoom { state := 1, request := s.x x, handler := s.g y, larg := s.myCore.larg, trapvec := s.self.trapvec, upvec := s.self.upvec, owner := s.self.owner }
        if (t.myCore.lease.state == 2) = true then .ok ((t.wr x 0).retire) else .ok (t.wait (.grant x y))) := by
  have sz : s.slotZero = .ok () := by unfold State.slotZero; simp [hi]
  have hp' : (s.self.leasing && s.myCore.lease.state == 1) = false := by
    rw [Bool.and_eq_false_iff, beq_eq_false_iff_ne]
    unfold Leasing at hp
    by_cases h : s.myCore.lease.state = 1
    · left; unfold Slot.leasing; split
      · rename_i e; exact absurd ⟨h, _, _, e⟩ hp
      · rfl
    · exact .inr h
  show execLease x y s = _
  unfold execLease
  simp only [sz, hp', bind, Except.bind, Bool.false_eq_true, if_false]
  all_goals congr 1

theorem lease_got {s t : State} {x y : BitVec 5} (hi : s.self.idx = 0) (hp : ¬Leasing s) (h : Handler s (s.g y))
    (hs : s.leaseStatus (s.x x) = none) (ht : (unparked s).askLoom (asked s (s.x x) (s.g y) 1) = t) :
    exec (.lease x y) s = if t.myCore.lease.state = 2 then .next ((t.wr x 0).retire) else .next (t.wait (.grant x y)) := by
  obtain ⟨h1, h2, h3⟩ := h
  rw [lease_eq hi hp, h1, h2, isRevoked_of h1 h3, hs]
  subst ht
  show finish (if (((unparked s).askLoom (asked s (s.x x) (s.g y) 1)).myCore.lease.state == 2) = true then _ else _) = _
  by_cases q : ((unparked s).askLoom (asked s (s.x x) (s.g y) 1)).myCore.lease.state = 2
  · rw [if_pos q, if_pos (by simpa using q)]; rfl
  · rw [if_neg q, if_neg (by simpa using q)]; rfl

theorem arrayStep_looms (s : State) (b i : Nat) : ∃ ls, s.arrayStep b i = { s with looms := ls } := by
  unfold State.arrayStep
  dsimp only
  split
  · exact ⟨_, rfl⟩
  · exact ⟨s.looms, rfl⟩
theorem flushLoom_looms (k : Nat) : ∀ (s : State) (b i : Nat), ∃ ls, s.flushLoom b i k = { s with looms := ls } := by
  induction k with
  | zero => intro s b i; exact ⟨s.looms, rfl⟩
  | succ k ih =>
    intro s b i
    obtain ⟨x, hx⟩ := arrayStep_looms s b i
    unfold State.flushLoom; rw [hx]
    obtain ⟨y, hy⟩ := ih { s with looms := x } b i
    exact ⟨y, hy⟩
theorem flushed_looms (s : State) (b i : Nat) : ∃ ls, s.flushed b i = { s with looms := ls } := flushLoom_looms _ s b i

theorem slotZero_ok {s : State} (hi : s.self.idx = 0) : s.slotZero = .ok () := by unfold State.slotZero; simp [hi]
theorem leased_ok {s : State} {r : Bool} (hi : s.self.idx = 0) (h : s.myCore.lease.state = 2 ∨ (r = true ∧ s.myCore.lease.state = 3)) : s.leased r = .ok () := by
  unfold State.leased
  rw [slotZero_ok hi]
  simp only [bind, Except.bind]
  rcases h with h | ⟨rfl, h⟩ <;> simp [h]
theorem leased_no {s : State} {r : Bool} (hi : s.self.idx = 0) (h : s.myCore.lease.state ≠ 2) (h3 : r = false ∨ s.myCore.lease.state ≠ 3) : s.leased r = .error (s.trap 0x0D 0) := by
  unfold State.leased
  rw [slotZero_ok hi]
  simp only [bind, Except.bind]
  rcases h3 with h3 | h3
  · subst h3; simp [show ¬s.myCore.lease.state = 2#2 from h]
  · simp [show ¬s.myCore.lease.state = 2#2 from h, show ¬s.myCore.lease.state = 3#2 from h3]
theorem settled_eq (s : State) : s.settledLoom = (afterQueue s, heldLoom (afterQueue s)) := by
  unfold State.settledLoom
  obtain ⟨ls, h⟩ := flushed_looms s (coreBench s.self.core) s.myCore.loomIdx
  have e : afterQueue s = s.flushed (coreBench s.self.core) s.myCore.loomIdx := by unfold afterQueue; rw [loomIdx_eq]
  rw [e]
  dsimp only
  congr 1
  rw [h]
  show _ = State.loom _ _ (s.myCore.lease.request.toNat % 4)
  rw [loomIdx_eq]
theorem afterQueue_looms (s : State) : ∃ ls, afterQueue s = { s with looms := ls } := flushed_looms _ _ _

theorem drain_eq (s : State) (f : BitVec 2) : s.drainLease s.self.core f false 0 =
    (fun u : State => u.putCore { u.myCore with lease := .none }) ((afterQueue s).putLoom { emptied (heldLoom (afterQueue s)) with
      holder := none, count := (heldLoom (afterQueue s)).count + 1, drains := (heldLoom (afterQueue s)).drains ++ drainOf s (heldLoom (afterQueue s)) f }) := by
  obtain ⟨ls, h⟩ := afterQueue_looms s
  have e : s.flushed (coreBench s.self.core) (s.core s.self.core).loomIdx = afterQueue s := by unfold afterQueue; rw [loomIdx_eq]; rfl
  have e2 : (afterQueue s).loom (coreBench s.self.core) (s.core s.self.core).loomIdx = heldLoom (afterQueue s) := by
    rw [h]; show State.loom _ _ _ = State.loom _ _ (s.myCore.lease.request.toNat % 4); rw [loomIdx_eq]; rfl
  have e3 : (afterQueue s).myCore = s.core s.self.core := by rw [h]; rfl
  unfold State.drainLease
  dsimp only
  rw [e, e2]
  by_cases hr : (heldLoom (afterQueue s)).r = 0
  · rw [if_pos hr, if_pos hr]
    unfold State.endDrain drainOf
    rw [if_neg (by simp), if_pos hr, List.append_nil]
    show _ = State.putCore _ { (afterQueue s).myCore with lease := .none }
    rw [e3]; rfl
  · rw [if_neg hr, if_neg hr]
    unfold drainOf
    rw [if_neg hr]
    show _ = State.putCore _ { (afterQueue s).myCore with lease := .none }
    rw [e3]; rfl

theorem appN (m n : Nat) (a : BitVec m) (b : BitVec n) : (a ++ b).toNat = a.toNat * 2 ^ n + b.toNat := by
  rw [BitVec.toNat_append, ← Nat.shiftLeft_add_eq_or_of_lt b.isLt, Nat.shiftLeft_eq]

theorem loom_status_ok : Claims.LoomStatus := by
  intro s x y l rows
  by_cases h3 : (s.x y).toNat % 4 = 3
  · refine ⟨0, putsX_of (x := 0) ?_ rfl, fun _ => rfl, fun h => absurd h3 h⟩
    show execLstat x y s = _
    unfold execLstat
    dsimp only
    rw [if_pos h3]
  · have hw : l.waitingRows = rows := waitingRows_eq l
    have hr : min 8 rows < 16 := by omega
    refine ⟨BitVec.ofNat 32 l.count ++ BitVec.ofNat 8 l.pending.length ++ 0#2 ++ BitVec.ofNat 6 l.last ++ 0#4
      ++ BitVec.ofNat 4 (min 8 l.waitingRows) ++ (if l.drains.isEmpty then 0#1 else 1#1) ++ (match l.holder with
      | some q => 1#1 ++ BitVec.ofNat 6 q
      | none => 0#1 ++ 0x3F#6 : BitVec 7), putsX_of (x := _) ?_ rfl, fun h => absurd h h3, fun _ => ?_⟩
    · show execLstat x y s = _
      unfold execLstat
      dsimp only
      rw [if_neg h3]; rfl
    · rw [hw]
      generalize hA : BitVec.ofNat 32 l.count = A
      generalize hB : BitVec.ofNat 8 l.pending.length = B
      generalize hC : BitVec.ofNat 6 l.last = C
      generalize hD : BitVec.ofNat 4 (min 8 rows) = D
      generalize hE : (if l.drains.isEmpty then 0#1 else 1#1) = E
      generalize hF : (match l.holder with
        | some q => 1#1 ++ BitVec.ofNat 6 q
        | none => 0#1 ++ 0x3F#6 : BitVec 7) = F
      have e : (A ++ B ++ 0#2 ++ C ++ 0#4 ++ D ++ E ++ F).toNat = ((((((A.toNat * 2 ^ 8 + B.toNat) * 2 ^ 2 + 0) * 2 ^ 6 + C.toNat) * 2 ^ 4 + 0) * 2 ^ 4 + D.toNat) * 2 ^ 1 + E.toNat) * 2 ^ 7 + F.toNat := by
        simp only [appN]; rfl
      have ha : A.toNat = l.count % 2 ^ 32 := by rw [← hA, BitVec.toNat_ofNat]
      have hb : B.toNat = l.pending.length % 2 ^ 8 := by rw [← hB, BitVec.toNat_ofNat]
      have hc : C.toNat = l.last % 2 ^ 6 := by rw [← hC, BitVec.toNat_ofNat]
      have hd : D.toNat = min 8 rows := by rw [← hD, BitVec.toNat_ofNat]; omega
      have he : (E.toNat = 1 ↔ l.drains ≠ []) ∧ E.toNat < 2 := by
        rw [← hE]; cases l.drains <;> simp
      have hf : (F.toNat / 64 = 1 ↔ l.holder ≠ none) ∧ F.toNat % 64 = (match l.holder with | some q => q % 2 ^ 6 | none => 0x3F) ∧ F.toNat < 128 := by
        rw [← hF]
        cases l.holder with
        | none => simp
        | some q =>
          have := appN _ _ 1#1 (BitVec.ofNat 6 q)
          dsimp only
          rw [this, BitVec.toNat_ofNat]
          simp only [BitVec.toNat_ofNat]
          refine ⟨?_, ?_, ?_⟩
          · constructor
            · intro _ h; cases h
            · intro _; omega
          · omega
          · omega
      have b7 : ∀ z : U64, z.getLsbD 7 = true ↔ z.toNat / 128 % 2 = 1 := fun z => by
        rw [show z.getLsbD 7 = z.toNat.testBit 7 from rfl, Nat.testBit_eq_decide_div_mod_eq]; simp
      have b6 : ∀ z : U64, z.getLsbD 6 = true ↔ z.toNat / 64 % 2 = 1 := fun z => by
        rw [show z.getLsbD 6 = z.toNat.testBit 6 from rfl, Nat.testBit_eq_decide_div_mod_eq]; simp
      rw [b7, b6]
      have l0 : A.toNat < 2 ^ 32 := A.isLt
      have l1 : B.toNat < 2 ^ 8 := B.isLt
      have l2 : C.toNat < 2 ^ 6 := C.isLt
      show (A ++ B ++ 0#2 ++ C ++ 0#4 ++ D ++ E ++ F).toNat / 2 ^ 32 = _ ∧ (A ++ B ++ 0#2 ++ C ++ 0#4 ++ D ++ E ++ F).toNat / 2 ^ 24 % 2 ^ 8 = _ ∧ _
      refine ⟨?_, ?_, ?_, ?_, ?_, ?_, ?_, ?_, ?_⟩
      · rw [e]; omega
      · rw [e]; omega
      · rw [e]; omega
      · rw [e]; omega
      · rw [e]; omega
      · rw [e]; omega
      · rw [← he.1]; rw [e]; omega
      · rw [← hf.1]; rw [e]; omega
      · refine Eq.trans ?_ hf.2.1; rw [e]; omega

theorem shapeValid_iff (w : U64) : shapeValid w = true ↔ (w.toNat / 2 ^ 16 % 2 ^ 4 < 8 ∧ (w.toNat % 2 ^ 8 + 1) * (w.toNat / 2 ^ 8 % 2 ^ 8 + 1) * fmtBits (w.toNat / 2 ^ 16 % 2 ^ 4) ≤ 2 ^ 16
      ∧ (w.toNat / 2 ^ 8 % 2 ^ 8 + 1) * fmtBits (w.toNat / 2 ^ 16 % 2 ^ 4) % 8 = 0) := by
  unfold shapeValid shapeRows shapeCols shapeFmt
  simp only [ext_mod, Bool.and_eq_true, decide_eq_true_eq]
  norm_num; tauto

theorem combined_of (o : BitVec 2) (m v : Vec) : Chained o.toNat m v (chainCombine o m v).1 ∧ (o ≠ 0 → (chainCombine o m v).2 = .none) := by
  have o4 := o.isLt
  refine ⟨⟨fun h e he => ?_, fun h e he => ?_, fun h e he => ?_⟩, fun h => ?_⟩
  · have ho : o = 0 := by apply BitVec.eq_of_toNat_eq; rw [h]; rfl
    subst ho
    unfold chainCombine; rw [if_pos rfl]
    dsimp only
    rw [el_ofLanes 32 32 _ (by norm_num) e he, flo_eq, flo_eq]
  · have ho : o = 1 := by apply BitVec.eq_of_toNat_eq; rw [h]; rfl
    subst ho
    unfold chainCombine; rw [if_neg (by decide), if_pos rfl]
    dsimp only
    rw [el_ofLanes 32 32 _ (by norm_num) e he, lane_el, lane_el]
  · have ho : o = 2 := by apply BitVec.eq_of_toNat_eq; rw [h]; rfl
    subst ho
    unfold chainCombine; rw [if_neg (by decide), if_neg (by decide)]
    dsimp only
    rw [el_ofLanes 128 8 _ (by norm_num) e he]
    have ex : ∀ y : Vec, signedAt 128 (el 128 y e) = (y.extractLsb' (128 * e) 128).toInt := fun y => by
      rw [signedAt_eq _ _ (by norm_num)]
      congr 1
      apply BitVec.eq_of_toNat_eq
      rw [BitVec.extractLsb'_toNat, BitVec.toNat_ofNat, Nat.shiftRight_eq_div_pow]
      unfold el; rw [Nat.mod_mod]
    rw [ex, ex, signedAt_eq _ _ (by norm_num)]
    generalize m.extractLsb' (128 * e) 128 = a
    generalize v.extractLsb' (128 * e) 128 = b
    have i0 : accInvalid.toInt = -2 ^ 127 := by decide
    have ia : ∀ x : U128, x = accInvalid ↔ x.toInt = -2 ^ 127 := fun x => by rw [← i0]; exact BitVec.toInt_inj.symm
    have er : BitVec.ofNat 128 ((rawAdd a b).toNat % 2 ^ 128) = rawAdd a b := by
      apply BitVec.eq_of_toNat_eq; rw [BitVec.toNat_ofNat, Nat.mod_mod, Nat.mod_eq_of_lt (rawAdd a b).isLt]
    rw [er]
    unfold rawAdd
    simp only [ia]
    split
    · exact i0
    · rw [BitVec.toInt_ofInt]
      have mx : accMax = 2 ^ 127 - 1 := rfl
      rw [mx]
      have b1 : (if (2:Int) ^ 127 - 1 < a.toInt + b.toInt then (2:Int) ^ 127 - 1 else if a.toInt + b.toInt < -(2 ^ 127 - 1) then -(2 ^ 127 - 1) else a.toInt + b.toInt)
          = max (-(2 ^ 127 - 1)) (min (2 ^ 127 - 1) (a.toInt + b.toInt)) := by
        split <;> [skip; split] <;> omega
      rw [b1]
      generalize a.toInt + b.toInt = q
      have h1 : -(2 ^ 127 - 1) ≤ max (-(2 ^ 127 - 1)) (min (2 ^ 127 - 1) q) := le_max_left _ _
      have h2 : max (-(2 ^ 127 - 1)) (min (2 ^ 127 - 1) q) ≤ (2:Int) ^ 127 - 1 := by omega
      apply Int.bmod_eq_of_le <;> omega
  · have h1 : ¬o = 0 := h
    unfold chainCombine; rw [if_neg h1]; split <;> rfl

theorem or_new {n : Nat} (w a f g : BitVec n) : (w ||| (a &&& ~~~f)) ||| (g &&& ~~~(f ||| a)) = w ||| ((a ||| g) &&& ~~~f) := by
  apply BitVec.eq_of_getLsbD_eq
  intro i hi
  simp only [BitVec.getLsbD_or, BitVec.getLsbD_and, BitVec.getLsbD_not, hi, decide_true, Bool.true_and]
  cases w.getLsbD i <;> cases a.getLsbD i <;> cases f.getLsbD i <;> cases g.getLsbD i <;> rfl
theorem chain_fold (l : List (BitVec 5 × Vec × FFlags)) (hd : (l.map Prod.fst).Nodup) : ∀ s : State,
    let t := l.foldl (fun t x => (t.setV x.1 x.2.1).addFlags x.2.2) s
    (∃ f v, t = { s with self := { s.self with v := v, flags := s.self.flags ||| f, winFlags := s.self.winFlags ||| (f &&& ~~~s.self.flags) } } ∧ ((∀ x ∈ l, x.2.2 = .none) → f = 0))
      ∧ (∀ n, n ∉ l.map Prod.fst → t.v n = s.v n) ∧ ∀ x ∈ l, t.v x.1 = x.2.1 := by
  induction l with
  | nil => intro s t; exact ⟨⟨0, s.self.v, by simp [t], fun _ => rfl⟩, fun n _ => rfl, fun x hx => absurd hx (by simp)⟩
  | cons y l ih =>
    intro s t
    have hd' : y.1 ∉ l.map Prod.fst ∧ (l.map Prod.fst).Nodup := by simpa using hd
    obtain ⟨⟨f, v, e, z⟩, h1, h2⟩ := ih hd'.2 ((s.setV y.1 y.2.1).addFlags y.2.2)
    refine ⟨⟨y.2.2.bits ||| f, v, ?_, fun h => ?_⟩, fun n hn => ?_, fun x hx => ?_⟩
    · show List.foldl _ _ _ = _
      rw [List.foldl_cons, e, ← BitVec.or_assoc]
      rw [← or_new s.self.winFlags y.2.2.bits s.self.flags f]
      rfl
    · rw [z (fun x hx => h x (List.mem_cons_of_mem _ hx)), h y (List.mem_cons_self ..)]; decide
    · have hn' : n ≠ y.1 ∧ n ∉ l.map Prod.fst := by simpa using hn
      show State.v (List.foldl _ _ _) n = _
      rw [List.foldl_cons, h1 n hn'.2]
      show (s.setV y.1 y.2.1).v n = _
      rw [State.v_setV, if_neg hn'.1]
    · show State.v (List.foldl _ _ _) x.1 = _
      rw [List.foldl_cons]
      rcases List.mem_cons.1 hx with rfl | hx
      · rw [h1 _ hd'.1]
        show (s.setV x.1 x.2.1).v x.1 = _
        rw [State.v_setV, if_pos rfl]
      · exact h2 x hx

theorem setup_eq (s : State) : s.myCore.chainSetup = { pred := chainSide s.myCore.chain[0], succ := chainSide s.myCore.chain[1], op := BitVec.ofNat 2 (chainOp s), first := BitVec.ofNat 5 (chainFirst s), count := chainCount s } := by
  unfold Core.chainSetup chainOp chainFirst chainCount
  simp only [ChainSetup.mk.injEq]
  refine ⟨rfl, rfl, ?_, ?_, ?_⟩
  · apply BitVec.eq_of_toNat_eq; rw [ext_mod, BitVec.toNat_ofNat]; simp
  · apply BitVec.eq_of_toNat_eq; rw [ext_mod, BitVec.toNat_ofNat]; simp
  · rw [ext_mod]; simp

theorem chain_launch {s : State} {id lcn stage : Nat} {l : Launch} (hr : s.self.role = .launch id lcn stage) (hl : s.launch id = some l) (hc : ChainLegal s)
    (hp : ∀ q, chainSide s.myCore.chain[0] = some q → q < l.width) (hs : ∀ q, chainSide s.myCore.chain[1] = some q → q < l.width) :
    exec .chain s = match s.predSide l stage lcn (chainSide s.myCore.chain[0]), s.succSide l stage lcn (chainSide s.myCore.chain[1]) with
        | .never, _ => .next (s.trap 0x0E 0)
        | _, .never => .next (s.trap 0x0E 0)
        | .ready, .ready => .next ((s.chainGo l stage lcn s.myCore.chainSetup).sync 2).retire
        | _, _ => .next ((s.chainAsk l stage lcn (chainSide s.myCore.chain[1])).wait .chain) := by
  obtain ⟨c1, c2, c3, c4⟩ := hc
  show execChain s = _
  unfold execChain
  dsimp only
  rw [hr]
  dsimp only
  rw [hl]
  dsimp only
  have o : chainOp s < 4 := Nat.mod_lt _ (by norm_num)
  have f : chainFirst s < 32 := Nat.mod_lt _ (by norm_num)
  have e1 : (s.myCore.chainSetup.op = 3 || decide (s.myCore.chainSetup.count < 1) || decide (8 < s.myCore.chainSetup.count) || decide (31 < s.myCore.chainSetup.first.toNat + s.myCore.chainSetup.count - 1)) = false := by
    rw [setup_eq]
    dsimp only
    have : ¬BitVec.ofNat 2 (chainOp s) = 3 := fun h => by
      have := congrArg BitVec.toNat h; rw [BitVec.toNat_ofNat] at this
      have h3 : (3 : BitVec 2).toNat = 3 := rfl
      rw [h3] at this; omega
    rw [BitVec.toNat_ofNat]
    simp only [this, decide_false, Bool.false_or, Bool.or_eq_false_iff, decide_eq_false_iff_not]
    omega
  rw [if_neg (by rw [e1]; simp)]
  have e2 : (s.myCore.chainSetup.pred.any (fun q => decide (l.width ≤ q)) || s.myCore.chainSetup.succ.any (fun q => decide (l.width ≤ q))) = false := by
    rw [setup_eq]
    dsimp only
    rw [Bool.or_eq_false_iff]
    constructor
    · cases h : chainSide s.myCore.chain[0] with
      | none => rfl
      | some q => have := hp q h; simpa using this
    · cases h : chainSide s.myCore.chain[1] with
      | none => rfl
      | some q => have := hs q h; simpa using this
  rw [if_neg (by rw [e2]; simp), setup_eq]
  all_goals rfl

theorem find_put_ne {α : Type} (key : α → Nat) (x : α) (l : List α) (k : Nat) (h : key x ≠ k) : findBy key k (putBy key x l) = findBy key k l := by
  induction l with
  | nil => simp [putBy, findBy, h]
  | cons y l ih =>
    unfold putBy
    split
    · rw [findBy, if_neg h]
    · split
      · rename_i _ e
        rw [findBy, if_neg h, findBy, if_neg (by rw [← e]; exact h)]
      · rw [findBy, ih]; rfl
theorem core_put_ne (s : State) (c : Core) (k : Nat) (h : c.idx ≠ k) : (s.putCore c).core k = s.core k := by
  unfold State.core State.putCore
  dsimp only
  rw [find_put_ne _ _ _ _ h]

theorem rneScaled_spec (x e : Int) : RoundsInt .rne (x * (2 : ℚ) ^ e) (rneScaled x e).1
    ∧ ((rneScaled x e).2 = true ↔ ((rneScaled x e).1 : ℚ) ≠ x * (2 : ℚ) ^ e) := by
  unfold rneScaled
  by_cases h : 0 ≤ e
  · rw [if_pos h]
    have he : (2 : ℚ) ^ e = 2 ^ e.toNat := by
      conv_lhs => rw [← Int.toNat_of_nonneg h]
      rw [zpow_natCast]
    have hv : ((x * 2 ^ e.toNat : Int) : ℚ) = x * (2 : ℚ) ^ e := by rw [he]; push_cast; rfl
    dsimp only
    rw [← hv]
    unfold RoundsInt
    dsimp only
    refine ⟨⟨?_, fun q => ?_⟩, ?_⟩
    · rw [sub_self, abs_zero]; norm_num
    · rw [sub_self, abs_zero] at q; norm_num at q
    · simp
  · rw [if_neg h]
    have hd : 0 < 2 ^ (-e).toNat := by positivity
    have s := roundQuot_spec .rne (decide (x < 0)) x.natAbs (2 ^ (-e).toNat) hd
    have he : (2 : ℚ) ^ e = ((2 ^ (-e).toNat : Nat) : ℚ)⁻¹ := by
      have : e = -((-e).toNat : Int) := by omega
      conv_lhs => rw [this]
      rw [zpow_neg, zpow_natCast]; push_cast; rfl
    have hv : (if (decide (x < 0)) = true then (-1 : ℚ) else 1) * x.natAbs / ((2 ^ (-e).toNat : Nat) : ℚ) = x * (2 : ℚ) ^ e := by
      rw [he, div_eq_mul_inv]
      congr 1
      by_cases hx : x < 0
      · have h1 : (x.natAbs : ℚ) = -x := by
          rw [Nat.cast_natAbs, abs_of_neg hx]; push_cast; rfl
        simp only [hx, decide_true, if_true]; rw [h1]; ring
      · have h1 : (x.natAbs : ℚ) = x := by
          rw [Nat.cast_natAbs, abs_of_nonneg (by omega)]
        simp only [hx, decide_false]; rw [h1]; simp
    rw [hv] at s
    dsimp only
    by_cases hx : x < 0
    · simp only [hx, decide_true, if_true] at s ⊢; exact s
    · simp only [hx, decide_false, Bool.false_eq_true, if_false] at s ⊢; exact s

/-- The rounded product of two elements and whether it was inexact. -/
def cellTerm (za zb w : Int) (a b : Int × Int) : Int × Bool := rneScaled ((a.1 - za) * (b.1 - zb)) (a.2 + b.2 - w)

theorem dot_spec (za zb w : Int) : ∀ (l m : List (Option (Int × Int))), l.length = m.length →
    dotCell za zb w l m = if (∀ x ∈ l, x ≠ none) ∧ (∀ x ∈ m, x ≠ none) then
        some ((List.zipWith (fun a b => (cellTerm za zb w (a.getD 0) (b.getD 0)).1) l m).sum,
          (List.zipWith (fun a b => (cellTerm za zb w (a.getD 0) (b.getD 0)).2) l m).any id)
      else none := by
  intro l
  induction l with
  | nil =>
    intro m hm
    have : m = [] := by cases m with | nil => rfl | cons _ _ => simp at hm
    subst this
    simp [dotCell]
  | cons x l ih =>
    intro m hm
    cases m with
    | nil => simp at hm
    | cons y m =>
      have hl : l.length = m.length := by simpa using hm
      cases x with
      | none => rw [if_neg (fun h => h.1 none (List.mem_cons_self ..) rfl)]; cases y <;> rfl
      | some x =>
        cases y with
        | none => rw [if_neg (fun h => h.2 none (List.mem_cons_self ..) rfl)]; rfl
        | some y =>
          obtain ⟨x, e⟩ := x
          obtain ⟨y, k⟩ := y
          rw [dotCell, ih m hl]
          by_cases hc : (∀ x ∈ l, x ≠ none) ∧ (∀ x ∈ m, x ≠ none)
          · have hp : (∀ z ∈ some (x, e) :: l, z ≠ none) ∧ (∀ z ∈ some (y, k) :: m, z ≠ none) := by
              constructor
              · intro z hz; rcases List.mem_cons.1 hz with rfl | hz
                · exact fun h => by cases h
                · exact hc.1 z hz
              · intro z hz; rcases List.mem_cons.1 hz with rfl | hz
                · exact fun h => by cases h
                · exact hc.2 z hz
            rw [if_pos hc, if_pos hp]
            rw [List.zipWith_cons_cons, List.zipWith_cons_cons, List.sum_cons, List.any_cons]
            show some (_ + (cellTerm za zb w (x, e) (y, k)).1, _ || (cellTerm za zb w (x, e) (y, k)).2) = some ((cellTerm za zb w (x, e) (y, k)).1 + _, (cellTerm za zb w (x, e) (y, k)).2 || _)
            rw [Int.add_comm, Bool.or_comm]
          · rw [if_neg hc, if_neg (fun h => hc ⟨fun z hz => h.1 z (List.mem_cons_of_mem _ hz), fun z hz => h.2 z (List.mem_cons_of_mem _ hz)⟩)]

theorem dot_range (za zb w : Int) (K : Nat) (f g : Nat → Option (Int × Int)) :
    dotCell za zb w ((List.range K).map f) ((List.range K).map g) =
      if ∃ k, k < K ∧ (f k = none ∨ g k = none) then none else
        some (((List.range K).map (fun k => (cellTerm za zb w ((f k).getD 0) ((g k).getD 0)).1)).sum,
          (List.range K).any (fun k => (cellTerm za zb w ((f k).getD 0) ((g k).getD 0)).2)) := by
  have hz : ∀ {γ : Type} (h : Option (Int × Int) → Option (Int × Int) → γ), List.zipWith h ((List.range K).map f) ((List.range K).map g) = (List.range K).map (fun k => h (f k) (g k)) := by
    intro γ h; rw [List.zipWith_map, List.zipWith_self]
  rw [dot_spec _ _ _ _ _ (by simp)]
  by_cases hb : ∃ k, k < K ∧ (f k = none ∨ g k = none)
  · rw [if_pos hb, if_neg]
    rintro ⟨h1, h2⟩
    obtain ⟨k, hk, h | h⟩ := hb
    · exact h1 (f k) (List.mem_map.2 ⟨k, List.mem_range.2 hk, rfl⟩) h
    · exact h2 (g k) (List.mem_map.2 ⟨k, List.mem_range.2 hk, rfl⟩) h
  · have hp : (∀ x ∈ (List.range K).map f, x ≠ none) ∧ (∀ x ∈ (List.range K).map g, x ≠ none) := by
      constructor
      · intro x hx; obtain ⟨k, hk, rfl⟩ := List.mem_map.1 hx
        exact fun h => hb ⟨k, List.mem_range.1 hk, .inl h⟩
      · intro x hx; obtain ⟨k, hk, rfl⟩ := List.mem_map.1 hx
        exact fun h => hb ⟨k, List.mem_range.1 hk, .inr h⟩
    rw [if_neg hb, if_pos hp, hz, hz, List.any_map]
    rfl

/-- The accumulator at a key. -/
def accAt (l : List (Nat × U128)) (k : Nat) : U128 := match findBy (·.1) k l with
  | some x => x.2
  | none => 0
theorem accAt_nil (k : Nat) : accAt [] k = 0 := rfl
theorem accAt_cons (x : Nat × U128) (l : List (Nat × U128)) (k : Nat) : accAt (x :: l) k = if x.1 = k then x.2 else accAt l k := by
  unfold accAt; rw [findBy]; by_cases h : x.1 = k
  · rw [if_pos h, if_pos h]
  · rw [if_neg h, if_neg h]
theorem accAt_below (l : List (Nat × U128)) (k : Nat) (h : ∀ x ∈ l, k < x.1) : accAt l k = 0 := by
  induction l with
  | nil => rfl
  | cons x l ih => rw [accAt_cons, if_neg (by have := h x (List.mem_cons_self ..); omega), ih fun y hy => h y (List.mem_cons_of_mem _ hy)]
/-- An update at a key. -/
def updAt (u : List (Nat × Option (Int × Bool))) (k : Nat) : Option (Option (Int × Bool)) := (findBy (·.1) k u).map Prod.snd
theorem updAt_cons (x : Nat × Option (Int × Bool)) (u : List (Nat × Option (Int × Bool))) (k : Nat) : updAt (x :: u) k = if x.1 = k then some x.2 else updAt u k := by
  unfold updAt; rw [findBy]; by_cases h : x.1 = k
  · rw [if_pos h, if_pos h]; rfl
  · rw [if_neg h, if_neg h]
theorem updAt_below (u : List (Nat × Option (Int × Bool))) (k : Nat) (h : ∀ x ∈ u, k < x.1) : updAt u k = none := by
  induction u with
  | nil => rfl
  | cons x l ih => rw [updAt_cons, if_neg (by have := h x (List.mem_cons_self ..); omega), ih fun y hy => h y (List.mem_cons_of_mem _ hy)]

theorem merge_spec : ∀ (n : Nat) (old : List (Nat × U128)) (u : List (Nat × Option (Int × Bool))), old.length + u.length ≤ n →
    old.Pairwise (fun x y => x.1 < y.1) → u.Pairwise (fun x y => x.1 < y.1) →
    (accMerge n old u).Pairwise (fun x y => x.1 < y.1)
    ∧ (∀ b, (∀ x ∈ old, b < x.1) → (∀ x ∈ u, b < x.1) → ∀ x ∈ accMerge n old u, b < x.1)
    ∧ ∀ k, accAt (accMerge n old u) k = match updAt u k with
      | none => accAt old k
      | some d => (accStep (accAt old k) d).1 := by
  intro n
  induction n with
  | zero =>
    intro old u hl ho hu
    have h1 : old = [] := by cases old with | nil => rfl | cons _ _ => simp at hl
    have h2 : u = [] := by cases u with | nil => rfl | cons _ _ => simp at hl
    subst h1 h2
    exact ⟨List.Pairwise.nil, fun b _ _ x hx => absurd hx (by simp [accMerge]), fun k => rfl⟩
  | succ n ih =>
    intro old u hl ho hu
    cases u with
    | nil =>
      have : accMerge (n + 1) old [] = old := by cases old <;> rfl
      rw [this]
      exact ⟨ho, fun b h _ => h, fun k => rfl⟩
    | cons y u =>
      obtain ⟨yk, yd⟩ := y
      have hu2 := (List.pairwise_cons.1 hu)
      cases old with
      | nil =>
        have hl' : ([] : List (Nat × U128)).length + u.length ≤ n := by simp at hl ⊢; omega
        obtain ⟨a, b, c⟩ := ih [] u hl' ho hu2.2
        have hb := b yk (fun x hx => absurd hx (by simp)) hu2.1
        have c' : ∀ k, accAt (if (accStep 0 yd).1 = 0 then accMerge n [] u else (yk, (accStep 0 yd).1) :: accMerge n [] u) k
            = if yk = k then (accStep 0 yd).1 else accAt (accMerge n [] u) k := by
          intro k
          by_cases hz : (accStep 0 yd).1 = 0
          · rw [if_pos hz]
            by_cases hk : yk = k
            · rw [if_pos hk, hz, accAt_below _ _ (by rw [← hk]; exact hb)]
            · rw [if_neg hk]
          · rw [if_neg hz, accAt_cons]
        have e : accMerge (n + 1) [] ((yk, yd) :: u) = if (accStep 0 yd).1 = 0 then accMerge n [] u else (yk, (accStep 0 yd).1) :: accMerge n [] u := rfl
        rw [e]
        refine ⟨?_, fun d h1 h2 x hx => ?_, fun k => ?_⟩
        · split
          · exact a
          · exact List.pairwise_cons.2 ⟨hb, a⟩
        · split at hx
          · exact b d h1 (fun z hz => h2 z (List.mem_cons_of_mem _ hz)) x hx
          · rcases List.mem_cons.1 hx with rfl | hx
            · exact h2 (yk, yd) (List.mem_cons_self ..)
            · exact b d h1 (fun z hz => h2 z (List.mem_cons_of_mem _ hz)) x hx
        · rw [c', updAt_cons]
          by_cases hk : yk = k
          · rw [if_pos hk, if_pos hk]; rfl
          · rw [if_neg hk, if_neg hk, c]
      | cons x old =>
        obtain ⟨xk, xv⟩ := x
        have ho2 := (List.pairwise_cons.1 ho)
        rcases lt_trichotomy xk yk with hlt | heq | hgt
        · have e : accMerge (n + 1) ((xk, xv) :: old) ((yk, yd) :: u) = (xk, xv) :: accMerge n old ((yk, yd) :: u) := by
            rw [accMerge, if_pos hlt]
          obtain ⟨a, b, c⟩ := ih old ((yk, yd) :: u) (by simp at hl ⊢; omega) ho2.2 hu
          have huy : ∀ z ∈ (yk, yd) :: u, xk < z.1 := by
            intro z hz; rcases List.mem_cons.1 hz with rfl | hz
            · exact hlt
            · have := hu2.1 z hz; simp at this; omega
          rw [e]
          refine ⟨List.pairwise_cons.2 ⟨b xk ho2.1 huy, a⟩, fun d h1 h2 z hz => ?_, fun k => ?_⟩
          · rcases List.mem_cons.1 hz with rfl | hz
            · exact h1 (xk, xv) (List.mem_cons_self ..)
            · exact b d (fun w hw => h1 w (List.mem_cons_of_mem _ hw)) h2 z hz
          · rw [accAt_cons, accAt_cons, c]
            by_cases hk : xk = k
            · subst hk
              rw [if_pos rfl, if_pos rfl, updAt_below _ _ huy]
            · rw [if_neg hk, if_neg hk]
        · subst heq
          have e : accMerge (n + 1) ((xk, xv) :: old) ((xk, yd) :: u) = if (accStep xv yd).1 = 0 then accMerge n old u else (xk, (accStep xv yd).1) :: accMerge n old u := by
            rw [accMerge, if_neg (by omega), if_pos rfl]
          obtain ⟨a, b, c⟩ := ih old u (by simp at hl ⊢; omega) ho2.2 hu2.2
          have hb := b xk ho2.1 hu2.1
          rw [e]
          refine ⟨?_, fun d h1 h2 z hz => ?_, fun k => ?_⟩
          · split
            · exact a
            · exact List.pairwise_cons.2 ⟨hb, a⟩
          · have hz' := b d (fun w hw => h1 w (List.mem_cons_of_mem _ hw)) (fun w hw => h2 w (List.mem_cons_of_mem _ hw))
            split at hz
            · exact hz' z hz
            · rcases List.mem_cons.1 hz with rfl | hz
              · exact h1 (xk, xv) (List.mem_cons_self ..)
              · exact hz' z hz
          · have c' : accAt (if (accStep xv yd).1 = 0 then accMerge n old u else (xk, (accStep xv yd).1) :: accMerge n old u) k
                = if xk = k then (accStep xv yd).1 else accAt (accMerge n old u) k := by
              by_cases hz : (accStep xv yd).1 = 0
              · rw [if_pos hz]
                by_cases hk : xk = k
                · rw [if_pos hk, hz, accAt_below _ _ (by rw [← hk]; exact hb)]
                · rw [if_neg hk]
              · rw [if_neg hz, accAt_cons]
            rw [c', updAt_cons, accAt_cons]
            by_cases hk : xk = k
            · rw [if_pos hk, if_pos hk, if_pos hk]
            · rw [if_neg hk, if_neg hk, if_neg hk, c]
        · have e : accMerge (n + 1) ((xk, xv) :: old) ((yk, yd) :: u) = if (accStep 0 yd).1 = 0 then accMerge n ((xk, xv) :: old) u else (yk, (accStep 0 yd).1) :: accMerge n ((xk, xv) :: old) u := by
            rw [accMerge, if_neg (by omega), if_neg (by omega)]
          obtain ⟨a, b, c⟩ := ih ((xk, xv) :: old) u (by simp at hl ⊢; omega) ho hu2.2
          have hoy : ∀ z ∈ (xk, xv) :: old, yk < z.1 := by
            intro z hz; rcases List.mem_cons.1 hz with rfl | hz
            · exact hgt
            · have := ho2.1 z hz; simp at this; omega
          have hb := b yk hoy hu2.1
          rw [e]
          refine ⟨?_, fun d h1 h2 z hz => ?_, fun k => ?_⟩
          · split
            · exact a
            · exact List.pairwise_cons.2 ⟨hb, a⟩
          · have hz' := b d h1 (fun w hw => h2 w (List.mem_cons_of_mem _ hw))
            split at hz
            · exact hz' z hz
            · rcases List.mem_cons.1 hz with rfl | hz
              · exact h2 (yk, yd) (List.mem_cons_self ..)
              · exact hz' z hz
          · have c' : accAt (if (accStep 0 yd).1 = 0 then accMerge n ((xk, xv) :: old) u else (yk, (accStep 0 yd).1) :: accMerge n ((xk, xv) :: old) u) k
                = if yk = k then (accStep 0 yd).1 else accAt (accMerge n ((xk, xv) :: old) u) k := by
              by_cases hz : (accStep 0 yd).1 = 0
              · rw [if_pos hz]
                by_cases hk : yk = k
                · rw [if_pos hk, hz, accAt_below _ _ (by rw [← hk]; exact hb)]
                · rw [if_neg hk]
              · rw [if_neg hz, accAt_cons]
            rw [c', updAt_cons]
            by_cases hk : yk = k
            · rw [if_pos hk, if_pos hk, ← hk, accAt_below _ _ hoy]
            · rw [if_neg hk, if_neg hk, c]

theorem findBy_none {α : Type} (key : α → Nat) (k : Nat) (l : List α) (h : ∀ x ∈ l, key x ≠ k) : findBy key k l = none := by
  induction l with
  | nil => rfl
  | cons x l ih => rw [findBy, if_neg (h x (List.mem_cons_self ..)), ih fun y hy => h y (List.mem_cons_of_mem _ hy)]
theorem mem_putBy {α : Type} (key : α → Nat) (x y : α) (l : List α) (h : y ∈ putBy key x l) : y = x ∨ y ∈ l := by
  induction l with
  | nil => left; simpa [putBy] using h
  | cons z l ih =>
    unfold putBy at h
    split at h
    · rcases List.mem_cons.1 h with h | h
      · exact .inl h
      · exact .inr h
    · split at h
      · rcases List.mem_cons.1 h with h | h
        · exact .inl h
        · exact .inr (List.mem_cons_of_mem _ h)
      · rcases List.mem_cons.1 h with h | h
        · exact .inr (h ▸ List.mem_cons_self ..)
        · rcases ih h with h | h
          · exact .inl h
          · exact .inr (List.mem_cons_of_mem _ h)
theorem sorted_putBy {α : Type} (key : α → Nat) (x : α) (l : List α) (h : l.Pairwise (fun a b => key a < key b)) : (putBy key x l).Pairwise (fun a b => key a < key b) := by
  induction l with
  | nil => simp [putBy]
  | cons z l ih =>
    obtain ⟨h1, h2⟩ := List.pairwise_cons.1 h
    unfold putBy
    split
    · rename_i hlt
      refine List.pairwise_cons.2 ⟨fun y hy => ?_, h⟩
      rcases List.mem_cons.1 hy with rfl | hy
      · exact hlt
      · have := h1 y hy; omega
    · split
      · rename_i _ e
        exact List.pairwise_cons.2 ⟨fun y hy => by have := h1 y hy; omega, h2⟩
      · refine List.pairwise_cons.2 ⟨fun y hy => ?_, ih h2⟩
        rcases mem_putBy key x y l hy with rfl | hy
        · omega
        · exact h1 y hy

/-- The flags at a row. -/
def flAt (l : List (Nat × BitVec 3)) (k : Nat) : BitVec 3 := match findBy (·.1) k l with
  | some x => x.2
  | none => 0
theorem flAt_put (l : List (Nat × BitVec 3)) (i k : Nat) (f : BitVec 3) : flAt (putBy (·.1) (i, f) l) k = if i = k then f else flAt l k := by
  unfold flAt
  by_cases h : i = k
  · subst h; rw [if_pos rfl, find_putBy (fun x : Nat × BitVec 3 => x.1) (i, f) l]
  · rw [if_neg h, find_put_ne (fun x : Nat × BitVec 3 => x.1) (i, f) l k h]
theorem flags_fold (g : Nat → BitVec 3) (l0 : List (Nat × BitVec 3)) (hs : l0.Pairwise (fun x y => x.1 < y.1)) (m : Nat)
    (hg : ∀ i, i < m → g i = 0 → flAt l0 i = 0) :
    let r := (List.range m).foldl (fun fl i => if g i = 0 then fl else putBy (·.1) (i, g i) fl) l0
    r.Pairwise (fun x y => x.1 < y.1) ∧ ∀ k, flAt r k = if k < m then g k else flAt l0 k := by
  induction m with
  | zero => exact ⟨hs, fun k => rfl⟩
  | succ m ih =>
    obtain ⟨a, b⟩ := ih fun i hi => hg i (by omega)
    intro r
    have e : r = (fun fl i => if g i = 0 then fl else putBy (·.1) (i, g i) fl) ((List.range m).foldl (fun fl i => if g i = 0 then fl else putBy (·.1) (i, g i) fl) l0) m := by
      simp only [r]; rw [List.range_succ, List.foldl_append]; rfl
    rw [e]
    dsimp only
    generalize (List.range m).foldl (fun fl i => if g i = 0 then fl else putBy (·.1) (i, g i) fl) l0 = q at *
    by_cases h0 : g m = 0
    · rw [if_pos h0]
      refine ⟨a, fun k => ?_⟩
      rw [b k]
      rcases lt_trichotomy k m with h | h | h
      · rw [if_pos h, if_pos (by omega)]
      · rw [if_neg (by omega), if_pos (by omega), h, h0, hg m (by omega) h0]
      · rw [if_neg (by omega), if_neg (by omega)]
    · rw [if_neg h0]
      refine ⟨sorted_putBy _ _ _ a, fun k => ?_⟩
      rw [flAt_put, b k]
      rcases lt_trichotomy k m with h | h | h
      · rw [if_neg (by omega), if_pos h, if_pos (by omega)]
      · rw [if_pos h.symm, if_pos (by omega), h]
      · rw [if_neg (by omega), if_neg (by omega), if_neg (by omega)]
theorem or_fold_bit {α : Type} (h : α → BitVec 3) (l : List α) (z : BitVec 3) (b : Nat) :
    (l.foldl (fun f x => f ||| h x) z).getLsbD b = true ↔ z.getLsbD b = true ∨ ∃ x ∈ l, (h x).getLsbD b = true := by
  induction l generalizing z with
  | nil => simp
  | cons x l ih => rw [List.foldl_cons, ih, BitVec.getLsbD_or, Bool.or_eq_true]; simp [or_assoc]

theorem tileVal_spec (fmt v : Nat) (hf : fmt < 8) (w : Nat) (hw : w / 2 ^ 16 % 2 ^ 4 = fmt) (hv : v < 2 ^ fmtBits fmt) :
    elementVal w v = (tileVal fmt v).map (fun x => (x.1 : ℚ) * 2 ^ x.2) := by
  unfold elementVal tileVal
  rw [hw]
  have fl : ∀ f : Fmt, (match f.decode v with
    | .fin n m e => some (valQ (.fin n m e))
    | _ => none) = (match f.decode v with
    | .fin n m e => some (if n then -(m : Int) else m, e)
    | _ => none : Option (Int × Int)).map (fun x => (x.1 : ℚ) * 2 ^ x.2) := by
    intro f
    cases f.decode v with
    | fin n m e => cases n <;> simp [valQ]
    | inf n => rfl
    | nan q => rfl
  interval_cases fmt
  · exact fl .e4m3
  · exact fl .e5m2
  · exact fl .f16
  · exact fl .bf16
  · have hv' : v < 2 ^ 8 := hv
    simp only [signedAt_lane 8 v hv']
    simp [signedAt_lane 8 v hv']
  · simp
  · have hv' : v < 2 ^ 4 := hv
    simp [signedAt_lane 4 v hv']
  · simp

theorem accStep_none (old : U128) : accStep old none = (accInvalid, 4#3) := rfl
theorem accStep_spec (old : U128) (S : Int) (ix : Bool) :
    let r := accStep old (some (S, ix))
    (old.toInt = -2 ^ 127 → r.1 = old) ∧ (old.toInt ≠ -2 ^ 127 → r.1.toInt = max (-(2 ^ 127 - 1)) (min (2 ^ 127 - 1) (old.toInt + S)))
    ∧ r.2.getLsbD 2 = false ∧ (r.2.getLsbD 1 = true ↔ old.toInt ≠ -2 ^ 127 ∧ 2 ^ 127 - 1 < |old.toInt + S|) ∧ r.2.getLsbD 0 = ix := by
  have i0 : accInvalid.toInt = -2 ^ 127 := by decide
  have ia : old = accInvalid ↔ old.toInt = -2 ^ 127 := by rw [← i0]; exact BitVec.toInt_inj.symm
  have mx : accMax = 2 ^ 127 - 1 := rfl
  have mn : accMax.natAbs = 2 ^ 127 - 1 := by decide
  intro r
  have er : r = if old = accInvalid then (old, if ix then (1 : BitVec 3) else 0) else
      if (old.toInt + S).natAbs ≤ accMax.natAbs then (BitVec.ofInt 128 (old.toInt + S), if ix then (1 : BitVec 3) else 0)
      else (BitVec.ofInt 128 (if old.toInt + S < 0 then -accMax else accMax), (if ix then (1 : BitVec 3) else 0) ||| 2#3) := rfl
  have f2 : (if ix then (1 : BitVec 3) else 0).getLsbD 2 = false := by cases ix <;> decide
  have f1 : (if ix then (1 : BitVec 3) else 0).getLsbD 1 = false := by cases ix <;> decide
  have f0 : (if ix then (1 : BitVec 3) else 0).getLsbD 0 = ix := by cases ix <;> decide
  have g2 : ((if ix then (1 : BitVec 3) else 0) ||| 2#3).getLsbD 2 = false := by cases ix <;> decide
  have g1 : ((if ix then (1 : BitVec 3) else 0) ||| 2#3).getLsbD 1 = true := by cases ix <;> decide
  have g0 : ((if ix then (1 : BitVec 3) else 0) ||| 2#3).getLsbD 0 = ix := by cases ix <;> decide
  by_cases h : old = accInvalid
  · have h' := ia.1 h
    rw [er, if_pos h]
    exact ⟨fun _ => rfl, fun g => absurd h' g, f2, ⟨fun q => absurd (f1.symm.trans q) (by decide), fun q => absurd h' q.1⟩, f0⟩
  · have h' : old.toInt ≠ -2 ^ 127 := fun g => h (ia.2 g)
    rw [er, if_neg h, mn]
    have bm : ∀ q : Int, -(2 ^ 127 - 1) ≤ q → q ≤ 2 ^ 127 - 1 → (BitVec.ofInt 128 q).toInt = q := fun q a b => by
      rw [BitVec.toInt_ofInt]; apply Int.bmod_eq_of_le <;> omega
    generalize hv : old.toInt + S = v
    by_cases hb : v.natAbs ≤ 2 ^ 127 - 1
    · rw [if_pos hb]
      refine ⟨fun g => absurd g h', fun _ => ?_, f2, ⟨fun q => absurd (f1.symm.trans q) (by decide), ?_⟩, f0⟩
      · dsimp only; rw [bm v (by omega) (by omega)]; omega
      · rintro ⟨-, q⟩; rw [lt_abs] at q; omega
    · rw [if_neg hb]
      refine ⟨fun g => absurd g h', fun _ => ?_, g2, ⟨fun _ => ⟨h', ?_⟩, fun _ => g1⟩, g0⟩
      · dsimp only; rw [mx]
        split
        · rw [bm _ (by omega) (by omega)]; omega
        · rw [bm _ (by omega) (by omega)]; omega
      · rw [lt_abs]; omega

theorem upd_find {u : List (Nat × Option (Int × Bool))} (hu : u.Pairwise (fun x y => x.1 < y.1)) {x : Nat × Option (Int × Bool)} (h : x ∈ u) : updAt u x.1 = some x.2 := by
  induction u with
  | nil => exact absurd h (by simp)
  | cons y u ih =>
    obtain ⟨h1, h2⟩ := List.pairwise_cons.1 hu
    rw [updAt_cons]
    rcases List.mem_cons.1 h with rfl | h
    · rw [if_pos rfl]
    · rw [if_neg (by have := h1 x h; omega), ih h2 h]
theorem upd_none {u : List (Nat × Option (Int × Bool))} {k : Nat} (h : ∀ x ∈ u, x.1 ≠ k) : updAt u k = none := by
  unfold updAt; rw [findBy_none _ _ _ h]; rfl

/-- A table of updates: row i < M, column j < N ≤ 128, at key i × 128 + j. -/
def updTable (M N : Nat) (d : Nat → Nat → Option (Int × Bool)) : List (Nat × Option (Int × Bool)) :=
  ((List.range M).map (fun i => (List.range N).map (fun j => (i * 128 + j, d i j)))).flatten
theorem updTable_mem {M N : Nat} {d : Nat → Nat → Option (Int × Bool)} {x : Nat × Option (Int × Bool)} :
    x ∈ updTable M N d ↔ ∃ i j, i < M ∧ j < N ∧ x = (i * 128 + j, d i j) := by
  unfold updTable
  simp only [List.mem_flatten, List.mem_map, List.mem_range]
  constructor
  · rintro ⟨_, ⟨i, hi, rfl⟩, hx⟩
    obtain ⟨j, hj, rfl⟩ := List.mem_map.1 hx
    exact ⟨i, j, hi, List.mem_range.1 hj, rfl⟩
  · rintro ⟨i, j, hi, hj, rfl⟩
    exact ⟨_, ⟨i, hi, rfl⟩, List.mem_map.2 ⟨j, List.mem_range.2 hj, rfl⟩⟩
theorem updTable_sorted (M N : Nat) (d : Nat → Nat → Option (Int × Bool)) (hN : N ≤ 128) : (updTable M N d).Pairwise (fun x y => x.1 < y.1) := by
  unfold updTable
  rw [List.pairwise_flatten]
  constructor
  · intro l hl
    obtain ⟨i, -, rfl⟩ := List.mem_map.1 hl
    rw [List.pairwise_map]
    exact List.pairwise_lt_range.imp (fun h => by dsimp only; omega)
  · rw [List.pairwise_map]
    refine List.pairwise_lt_range.imp ?_
    intro i k hik x hx y hy
    obtain ⟨a, ha, rfl⟩ := List.mem_map.1 hx
    obtain ⟨b, hb, rfl⟩ := List.mem_map.1 hy
    have := List.mem_range.1 ha
    have := List.mem_range.1 hb
    dsimp only; omega

theorem tileElem_eq (t : TileData) (w : U64) (r c : Nat) : tileElem t w r c = element t w.toNat r c := by
  unfold tileElem element
  rw [BitVec.extractLsb'_toNat, Nat.shiftRight_eq_div_pow, shapeFmt_eq, shapeCols_eq]
theorem element_lt (t : TileData) (w r c : Nat) : element t w r c < 2 ^ fmtBits (w / 2 ^ 16 % 2 ^ 4) := Nat.mod_lt _ (Nat.two_pow_pos _)

theorem perform_eq (l : Loom) (pair : Nat) (z : Bool) (ta : TileData) (sa : Strip) (wa : U64) (tb : TileData) (sb : Strip) (wb : U64) :
    let w : Int := if l.dflt = true then pairWindow pair else l.w.toInt
    let M := min 128 (shapeRows wa)
    let N := min 128 (shapeCols wb)
    let za (i : Nat) : Int :=
      if z && (shapeFmt wa == 5 || shapeFmt wa == 7) && shapeStrip wa then ((sa.extractLsb' (8 * i) (fmtBits (shapeFmt wa))).toNat : Int) else 0
    let zb (j : Nat) : Int :=
      if z && (shapeFmt wb == 5 || shapeFmt wb == 7) && shapeStrip wb then ((sb.extractLsb' (8 * j) (fmtBits (shapeFmt wb))).toNat : Int) else 0
    let d (i j : Nat) : Option (Int × Bool) := dotCell (za i) (zb j) w
      ((List.range (shapeCols wa)).map (fun k => tileVal (shapeFmt wa) (tileElem ta wa i k)))
      ((List.range (shapeCols wa)).map (fun k => tileVal (shapeFmt wb) (tileElem tb wb k j)))
    let g (i : Nat) : BitVec 3 := ((List.range N).foldl (fun f j => f ||| (accStep (l.cell i j) (d i j)).2) (l.rowFlags i))
    l.perform pair z ta sa wa tb sb wb = { l with
      w := BitVec.ofInt 8 w, dflt := false, clear := false, r := max l.r M, c := max l.c N
      acc := accMerge (l.acc.length + (updTable M N d).length) l.acc (updTable M N d)
      flags := (List.range M).foldl (fun fl i => if g i = 0 then fl else putBy (·.1) (i, g i) fl) l.flags } := by
  intro w M N za zb d g
  have hu : ((List.range M).map (fun i => (i, (List.range (shapeCols wa)).map (fun k => tileVal (shapeFmt wa) (tileElem ta wa i k))))).map
      (fun r => ((List.range N).map (fun j => (j, (List.range (shapeCols wa)).map (fun k => tileVal (shapeFmt wb) (tileElem tb wb k j))))).map
        (fun c => (r.1 * 128 + c.1, dotCell (za r.1) (zb c.1) w r.2 c.2)))
      = (List.range M).map (fun i => (List.range N).map (fun j => (i * 128 + j, d i j))) := by
    rw [List.map_map]
    refine List.map_congr_left fun i _ => ?_
    show List.map _ (List.map _ _) = _
    rw [List.map_map]
    refine List.map_congr_left fun j _ => rfl
  have hg : ∀ i, i < M → (((List.range M).map (fun i => (List.range N).map (fun j => (i * 128 + j, d i j)))).getD i []).foldl
      (fun f u => f ||| (accStep (l.cell i (u.1 % 128)) u.2).2) (l.rowFlags i) = g i := by
    intro i hi
    rw [List.getD_eq_getElem _ _ (by simpa using hi), List.getElem_map, List.getElem_range, List.foldl_map]
    show List.foldl _ _ _ = List.foldl _ _ _
    refine List.foldl_ext _ _ _ fun f j hj => ?_
    have hj' := List.mem_range.1 hj
    have : (i * 128 + j) % 128 = j := by omega
    dsimp only
    rw [this]
  unfold Loom.perform
  dsimp only
  rw [hu]
  have hf : ∀ fl0, (List.range M).foldl (fun fl i =>
      let f := (((List.range M).map (fun i => (List.range N).map (fun j => (i * 128 + j, d i j)))).getD i []).foldl
        (fun f u => f ||| (accStep (l.cell i (u.1 % 128)) u.2).2) (l.rowFlags i)
      if f = 0 then fl else putBy (·.1) (i, f) fl) fl0 = (List.range M).foldl (fun fl i => if g i = 0 then fl else putBy (·.1) (i, g i) fl) fl0 := by
    intro fl0
    refine List.foldl_ext _ _ _ fun fl i hi => ?_
    dsimp only
    rw [hg i (List.mem_range.1 hi)]
  exact congrArg (fun x => ({ l with
      w := BitVec.ofInt 8 w, dflt := false, clear := false, r := max l.r M, c := max l.c N
      acc := accMerge (l.acc.length + (updTable M N d).length) l.acc (updTable M N d)
      flags := x } : Loom)) (hf l.flags)

theorem rounds_exists (q : ℚ) : ∃ n, RoundsInt .rne q n := by
  have hd : 0 < q.den := q.den_pos
  have s := (roundQuot_spec .rne (decide (q.num < 0)) q.num.natAbs q.den hd).1
  have hv : (if (decide (q.num < 0)) = true then (-1 : ℚ) else 1) * q.num.natAbs / q.den = q := by
    have hq := Rat.num_div_den q
    by_cases hx : q.num < 0
    · simp only [hx, decide_true, if_true]; rw [Nat.cast_natAbs, abs_of_neg hx]; push_cast; rw [← hq]; simp [Rat.num_div_den]
    · simp only [hx, decide_false]; rw [Nat.cast_natAbs, abs_of_nonneg (by omega)]; simp [Rat.num_div_den]
  rw [hv] at s
  exact ⟨_, s⟩

theorem zeroPoint_eq (z : Bool) (w : U64) (st : Strip) (j : Nat) :
    zeroPoint z w.toNat st j = ((if z && (shapeFmt w == 5 || shapeFmt w == 7) && shapeStrip w then ((st.extractLsb' (8 * j) (fmtBits (shapeFmt w))).toNat : Int) else 0 : Int) : ℚ) := by
  unfold zeroPoint
  have es : shapeStrip w = true ↔ w.toNat / 2 ^ 20 % 2 = 1 := by
    unfold shapeStrip; rw [show w.getLsbD 20 = w.toNat.testBit 20 from rfl, Nat.testBit_eq_decide_div_mod_eq]; simp
  rw [shapeFmt_eq]
  by_cases h : z = true ∧ (w.toNat / 2 ^ 16 % 2 ^ 4 = 5 ∨ w.toNat / 2 ^ 16 % 2 ^ 4 = 7) ∧ w.toNat / 2 ^ 20 % 2 = 1
  · rw [if_pos h, if_pos (by rw [Bool.and_eq_true, Bool.and_eq_true, Bool.or_eq_true, es, beq_iff_eq, beq_iff_eq]; tauto)]
    rw [BitVec.extractLsb'_toNat, Nat.shiftRight_eq_div_pow]; push_cast; rfl
  · rw [if_neg h, if_neg (by rw [Bool.and_eq_true, Bool.and_eq_true, Bool.or_eq_true, es, beq_iff_eq, beq_iff_eq]; tauto)]; rfl
theorem tileVal_exp {f v : Nat} (h : f = 5 ∨ f = 7) : ∀ x, tileVal f v = some x → x.2 = 0 := by
  intro x hx
  rcases h with rfl | rfl <;> simp [tileVal] at hx <;> rw [← hx]
theorem zp_exp (z : Bool) (w : U64) (st : Strip) (j v : Nat) (x : Int × Int) (h : tileVal (shapeFmt w) v = some x) :
    zeroPoint z w.toNat st j = 0 ∨ x.2 = 0 := by
  by_cases hf : shapeFmt w = 5 ∨ shapeFmt w = 7
  · exact .inr (tileVal_exp hf x h)
  · left; unfold zeroPoint; rw [← shapeFmt_eq]; rw [if_neg (fun q => hf q.2.1)]

/-! ### Queue registers, timelines, events -/

theorem chip_eq (u : State) : chipCut u = u.sync 2 := (spanCut_eq u 2).symm
theorem bound_eq (s : State) (k : Nat) : s.myCore.bound k = bindingOf s k := rfl
theorem wordClass_ok {s : State} {use : Nat} {c : Cap} (h : WordPasses s use c) : s.wordClass use c = none := by
  unfold State.wordClass
  rcases h with h | ⟨h, h2⟩ | ⟨h1, h2, h3, h4⟩
  · rw [if_pos (by simp [h])]
  · rw [if_pos (by simp [h, h2])]
  · by_cases hu : use = 0
    · rw [if_pos (by simp [hu])]
    · rw [if_neg (by simp [hu, h1]), h1]
      have hs : (c.isSealed && !(use == 2 && c.otype == 1)) = false := by
        unfold Cap.isSealed
        rcases h2 with h2 | ⟨h2, h5⟩
        · simp [h2]
        · simp [h2, h5]
      rw [hs, isRevoked_of h1 h3, h4]; rfl
theorem w3_code (x : U128) : (x.extractLsb' 0 8).toNat = x.toNat % 256 := by
  rw [BitVec.extractLsb'_toNat]; simp
theorem bindingOf_lt {s : State} {k : Nat} {b : Nat × Nat} (h : bindingOf s k = some b) : k < 6 := by
  unfold bindingOf at h; split at h
  · assumption
  · cases h

theorem queue_moves : Claims.QueueMoves := by
  intro s d a b k n use
  refine ⟨fun ci gen hb hg h0 h1 => ?_, fun hb => ?_, fun ci gen hb hg => ?_, fun h => ?_, fun q hk hq => ⟨fun hl => ?_, fun hl => ?_⟩,
    fun q hk hq => ⟨fun c l hi => ?_, fun hi hp => ?_, fun hi hp => ?_⟩, fun ci gen w l hn hb hw hh => ?_, fun hk => ?_, fun hk => ?_, fun hn hb => ?_, fun ci gen hb => ?_⟩
  · have hn := bindingOf_lt hb
    have hb' : s.myCore.bound k.toNat = some (ci, gen) := hb
    have e : exec (.push d a k) s = if 32 ≤ (s.ctx ci).waiting.length then .next ((s.wr d 1).retire)
        else .next ((((s.accept ci (s.g a) (s.g (a + 1)) (s.g (a + 2)) (s.g (a + 3)) (some (s.self.core, k.toNat, s.myCore.binding k.toNat)) none).sync 2).wr d 0).retire) := by
      have c0 := wordClass_ok h0
      have c1 := wordClass_ok h1
      show execPush d a k s = _
      unfold execPush
      have e6 : ¬6 ≤ k.toNat := by omega
      simp only [bind, Except.bind, if_neg e6, hb', hg, w3_code]
      rw [if_neg (by simp)]
      rw [show s.wordClass (wordUse ((s.g (a + 3)).bits.toNat % 256)).1 (s.g a) = none from c0,
        show s.wordClass (wordUse ((s.g (a + 3)).bits.toNat % 256)).2 (s.g (a + 1)) = none from c1]
      dsimp only
      split <;> rfl
    refine ⟨fun hl => ?_, fun hl => ?_⟩
    · refine putsX_of (x := 1) ?_ rfl
      rw [e, if_pos hl]
    · refine completes_of ?_
      rw [e, if_neg (by omega), chip_eq]
      rfl
  · show execPush d a k s = _
    unfold execPush
    have hb' : s.myCore.bound k.toNat = none := hb
    by_cases e6 : 6 ≤ k.toNat
    · simp only [bind, Except.bind, if_pos e6]; rfl
    · simp only [bind, Except.bind, if_neg e6, hb']; rfl
  · have hn := bindingOf_lt hb
    have hb' : s.myCore.bound k.toNat = some (ci, gen) := hb
    have e6 : ¬6 ≤ k.toNat := by omega
    show execPush d a k s = _
    unfold execPush
    simp only [bind, Except.bind, if_neg e6, hb']
    rw [if_pos hg]; rfl
  · show execMovq b k s = _
    unfold execMovq
    by_cases h7 : k = 7
    · rw [if_neg (by simp [h7])]
      rcases h with h | h
      · exact absurd h7 h
      · rw [show s.stageOf s.self.q7 = none from h]
    · rw [if_pos h7]
  · show execMovq b k s = _
    unfold execMovq
    rw [if_neg (by simp [hk]), show s.stageOf s.self.q7 = some q from hq]
    dsimp only
    rw [if_pos hl]
  · refine completes_of ?_
    show execMovq b k s = _
    unfold execMovq
    rw [if_neg (by simp [hk]), show s.stageOf s.self.q7 = some q from hq]
    dsimp only
    rw [if_neg (by omega)]
    have ed : s.dropRevoked (s.g b) = { bits := (s.g b).bits, tag := (s.g b).tag && !s.revokedAddr (s.g b).bounds.base.toNat } := by
      unfold State.dropRevoked State.isRevoked Cap.untag
      cases h1 : (s.g b).tag <;> cases h2 : s.revokedAddr (s.g b).bounds.base.toNat <;> simp [h1] <;> rw [← h1]
    rw [ed]
    have := spanCut_eq (s.putStageq { q with items := q.items ++ [{ bits := (s.g b).bits, tag := (s.g b).tag && !s.revokedAddr (s.g b).bounds.base.toNat }] }) 0
    rw [← this]; rfl
  · refine completes_of ?_
    subst hk
    show execQpop d 6 s = _
    unfold execQpop
    rw [if_neg (by decide), if_pos rfl, show s.stageOf s.self.q6 = some q from hq]
    dsimp only
    rw [hi]
    have := spanCut_eq ((s.putStageq { q with items := l }).setG d c) 0
    rw [← this]; rfl
  · subst hk
    show execQpop d 6 s = _
    unfold execQpop
    rw [if_neg (by decide), if_pos rfl, show s.stageOf s.self.q6 = some q from hq]
    dsimp only
    rw [hi, hp]; rfl
  · subst hk
    show execQpop d 6 s = _
    unfold execQpop
    rw [if_neg (by decide), if_pos rfl, show s.stageOf s.self.q6 = some q from hq]
    dsimp only
    rw [hi, hp]; rfl
  · refine completes_of ?_
    have hn' : k.toNat < 6 := hn
    have h6 : k ≠ 6 := fun h => by rw [h] at hn'; exact absurd hn' (by decide)
    have h7 : k ≠ 7 := fun h => by rw [h] at hn'; exact absurd hn' (by decide)
    show execQpop d k s = _
    unfold execQpop
    rw [if_neg h7, if_neg h6, show s.myCore.bound k.toNat = some (ci, gen) from hb]
    dsimp only
    rw [show s.myCore.fifo k.toNat = w :: l from hw]
    dsimp only
    have ef : s.myCore.setFifo k.toNat l = { s.myCore with results := s.myCore.results.set n l hn } := by
      unfold Core.setFifo; rw [dif_pos hn']
    rw [ef]
    have er : ∀ t : State, t.ctxs = s.ctxs → t.fifoRoom s.self.core k.toNat ci = t := by
      intro t ht
      unfold State.fifoRoom
      dsimp only
      have ex : t.ctx ci = s.ctx ci := by unfold State.ctx; rw [ht]
      rw [ex]
      have : (s.ctx ci).heldResults.find? (fun h => h.1 == s.self.core && h.2.1 == k.toNat) = none := by
        rw [List.find?_eq_none]
        intro x hx
        rcases hh x hx with h | h
        · simp [h]
        · simp [show ¬x.2.1 = k.toNat from h]
      rw [this]
    rw [er]
    rfl
  · subst hk
    have : ∀ x : Option StageQ, (x.map (fun q => q.items.length)).getD 0 = (x.map (fun q => q.items.length)).getD 0 := fun _ => rfl
    refine putsX_of (x := BitVec.ofNat 64 (((s.stageOf s.self.q6).map (fun x => x.items.length)).getD 0)) ?_ rfl
    show execQstat d 6 s = _
    unfold execQstat; dsimp only; rw [if_pos rfl]; rfl
  · subst hk
    refine putsX_of (x := if (s.stageOf s.self.q7).isSome then BitVec.ofNat 64 (16 - ((s.stageOf s.self.q7).map (fun x => x.items.length)).getD 0) else 0) ?_ ?_
    · show execQstat d 7 s = _
      unfold execQstat; dsimp only; rw [if_neg (by decide), if_pos rfl]; rfl
    · show _ = ((s.stageOf s.self.q7).map _).getD 0
      cases s.stageOf s.self.q7 <;> rfl
  · have hn' : k.toNat < 6 := hn
    have h6 : k ≠ 6 := fun h => by rw [h] at hn'; exact absurd hn' (by decide)
    have h7 : k ≠ 7 := fun h => by rw [h] at hn'; exact absurd hn' (by decide)
    refine putsX_of (x := 0) ?_ rfl
    show execQstat d k s = _
    unfold execQstat; dsimp only; rw [if_neg h6, if_neg h7, show s.myCore.bound k.toNat = none from hb]; rfl
  · have hn' : k.toNat < 6 := bindingOf_lt hb
    have h6 : k ≠ 6 := fun h => by rw [h] at hn'; exact absurd hn' (by decide)
    have h7 : k ≠ 7 := fun h => by rw [h] at hn'; exact absurd hn' (by decide)
    refine putsX_of (x := 0#17 ++ BitVec.ofNat 15 ci ++ 0#12 ++ BitVec.ofNat 3 (ctxKind ci)
        ++ 1#1 ++ BitVec.ofNat 8 (wordsOf s n).length ++ BitVec.ofNat 8 (32 - (s.ctx ci).waiting.length)) ?_ rfl
    show execQstat d k s = _
    unfold execQstat; dsimp only; rw [if_neg h6, if_neg h7, show s.myCore.bound k.toNat = some (ci, gen) from hb]; rfl

theorem advance_frame (n : Nat) : ∀ (s : State) (ci : Nat), ∃ cs r, s.advance ci n = { s with ctxs := cs, recs := r } := by
  induction n with
  | zero => intro s ci; exact ⟨s.ctxs, s.recs, rfl⟩
  | succ n ih =>
    intro s ci
    unfold State.advance
    dsimp only
    split
    · obtain ⟨cs, r, e⟩ := ih { (s.putCtx { s.ctx ci with counter := (s.ctx ci).counter + 1, done := (s.ctx ci).done.filter (· != (s.ctx ci).counter + 1) }) with
          recs := s.recs.filter (fun r => r.agent != Agent.cmd ci ((s.ctx ci).counter + 1)) } ci
      rw [e]; exact ⟨cs, r, rfl⟩
    · exact ⟨s.ctxs, s.recs, rfl⟩
theorem advanceAll_frame (s : State) (ci : Nat) : ∃ cs r w v, s.advanceAll ci = { s with ctxs := cs, recs := r, sweeps := w, revoked := v } := by
  unfold State.advanceAll
  obtain ⟨cs, r, e⟩ := advance_frame (s.ctx ci).done.length s ci
  rw [e]; exact ⟨cs, r, _, _, rfl⟩
theorem unbind_frame (s : State) (core k : Nat) : ∃ cs r w v, s.unbindQ core k = { s.putCore (((s.core core).setBound k none).setFifo k []) with ctxs := cs, recs := r, sweeps := w, revoked := v } := by
  unfold State.unbindQ
  dsimp only
  split
  · exact ⟨s.ctxs, s.recs, s.sweeps, s.revoked, rfl⟩
  · rename_i ci g _
    obtain ⟨cs, r, w, v, e⟩ := advanceAll_frame ((s.putCore (((s.core core).setBound k none).setFifo k [])).putCtx
      { (s.putCore (((s.core core).setBound k none).setFifo k [])).ctx ci with
        heldResults := ((s.putCore (((s.core core).setBound k none).setFifo k [])).ctx ci).heldResults.filter (fun h => !(h.1 == core && h.2.1 == k)) }) ci
    rw [e]; exact ⟨cs, r, w, v, rfl⟩

theorem boundCtx_eq (s : State) (k : Nat) : s.boundCtx k = match bindingOf s k with
    | none => .error (s.trap 0x0E 0)
    | some (ci, gen) => if s.ctxCurrent ci gen then .ok ci else .error (s.trap 0x0F 0) := rfl
theorem taken_eq (s : State) (d : BitVec 5) : s.popEvent d = taken s d := by
  unfold State.popEvent taken
  cases s.myCore.events <;> rfl

end Sys2Proof
end

