-- ==== Sys2Proof/Laws/Tasks.lean ====
section
/-! SUPPORT. Laws of tasks, messages and delegation: from the meanings' operations to the words that the statements use. -/
set_option Elab.async false
namespace Sys2Proof

open Machine Claims

/-! ### Messages, delegation and the TASK group -/

theorem place_eq (s : State) (n : Nat) : s.placeWord n 0 = BitVec.ofNat 64 (placeOfSelf s n) := by
  apply BitVec.eq_of_toNat_eq
  unfold State.placeWord placeOfSelf
  simp only [appN, BitVec.toNat_ofNat]
  have z1 : (0 : BitVec 1).toNat = 0 := rfl
  rw [z1]
  have h1 := s.self.owner.isLt
  have h2 := s.devnum.isLt
  have c1 : coreSeat s.self.core = s.self.core % 48 := rfl
  have c2 : coreBench s.self.core = s.self.core / 48 := rfl
  rw [c1, c2]
  have h3 : s.self.core / 48 % 2 ^ 7 < 2 ^ 7 := Nat.mod_lt _ (by norm_num)
  have h4 : s.self.core % 48 % 2 ^ 6 < 2 ^ 6 := Nat.mod_lt _ (by norm_num)
  have h5 : n % 2 ^ 4 < 2 ^ 4 := Nat.mod_lt _ (by norm_num)
  have h6 : s.self.idx % 2 ^ 4 < 2 ^ 4 := Nat.mod_lt _ (by norm_num)
  omega
theorem moved_eq (s : State) (n : BitVec 5) : s.dropRevoked (s.g n) = moved s n := by
  unfold State.dropRevoked moved State.isRevoked Cap.untag
  cases h1 : (s.g n).tag <;> cases h2 : s.revokedAddr (s.g n).bounds.base.toNat <;> simp [h1] <;> rw [← h1]
theorem kept_word {s : State} {c : Cap} (h : c.tag = true → s.revokedAddr c.bounds.base.toNat = false) : s.dropRevoked c = c := by
  unfold State.dropRevoked State.isRevoked
  cases h1 : c.tag with
  | false => rfl
  | true => rw [h h1]; rfl
theorem letter_eq (s : State) (c : Cap) (core : Nat) (slot : BitVec 4) (sp : Bool) (tail : List U8) (hc : s.dropRevoked c = c) :
    s.message c { device := none, core := core, slot := slot } sp tail = letter s c slot sp tail := by
  unfold State.message letter throughFabric
  dsimp only
  simp only [Option.isSome_none, Bool.false_and, Bool.false_eq_true, if_false, Option.isNone_none]
  rw [place_eq, hc, moved_eq, moved_eq, moved_eq, moved_eq]
theorem target_here {s : State} {w : U64} {core slot : Nat} {sp : Bool} (h : NamesHere s w core slot) (hs : if sp = true then slot < 8 ∨ slot = 15 else slot = 0) :
    s.targetOf w sp = some { device := none, core := core, slot := BitVec.ofNat 4 slot } := by
  obtain ⟨h1, h2, h3, h4, h5, h6, h7⟩ := h
  unfold State.targetOf
  dsimp only
  have e1 : (w.extractLsb' 6 7).toNat = w.toNat / 2 ^ 6 % 2 ^ 7 := ext_mod _ _ _
  have e2 : (w.extractLsb' 0 6).toNat = w.toNat % 2 ^ 6 := by rw [ext_mod]; norm_num
  have e3 : (w.extractLsb' 36 28 != 0) = false := by
    have : w.extractLsb' 36 28 = 0 := by rw [ext_eq, h3]; rfl
    rw [this]; rfl
  have e4 : (w.extractLsb' 28 4 != 0) = false := by
    have : w.extractLsb' 28 4 = 0 := by rw [ext_eq, h4]; rfl
    rw [this]; rfl
  have e5 : w.extractLsb' 32 4 = BitVec.ofNat 4 slot := by
    rw [ext_eq, BitVec.toNat_ofNat, h7, Nat.mod_mod]
  have e6 : (w.getLsbD 27 && w.extractLsb' 13 14 != s.devnum) = false := by
    cases hb : w.getLsbD 27 with
    | false => rfl
    | true =>
      have : w.extractLsb' 13 14 = s.devnum := by rw [ext_eq]; exact h5 hb
      rw [this]; simp
  rw [e1, e2, e3, e4, e5, e6]
  have hs4 : slot < 16 := by rw [h7]; exact Nat.mod_lt _ (by norm_num)
  rw [if_neg (by simp; omega)]
  cases sp with
  | false =>
    simp only [Bool.false_eq_true, if_false] at hs
    subst hs
    rw [if_neg (by simp), if_neg (by simp), if_neg (by simp), h6]
  | true =>
    simp only [if_true] at hs
    rw [if_neg (by simp), if_neg ?_, if_neg (by simp), h6]
    rcases hs with hs | hs
    · have : (BitVec.ofNat 4 slot).toNat < 8 := by rw [BitVec.toNat_ofNat]; omega
      simp only [Bool.true_and, Bool.not_eq_true', Bool.or_eq_false_iff, decide_eq_false_iff_not]
      omega
    · subst hs; decide
theorem entry_ok {s : State} {a : BitVec 5} {o : BitVec 8} (h : EntryOk s (s.g a) o) : s.entryCheck a o = .ok () := by
  obtain ⟨h1, h2, h3⟩ := h
  unfold State.entryCheck
  dsimp only
  rw [h1, h2, isRevoked_of h1 h3]; simp
theorem room_eq (c : Core) (m : Msg) : c.hasRoom m = true ↔ Roomy c m.tail.length := by
  unfold Core.hasRoom Roomy; simp
theorem putSlot_self (s : State) (x : Slot) (h : slotKey s.self = slotKey x) : s.putSlot x = { s with self := x } := by
  unfold State.putSlot; rw [if_pos h]
theorem putSlot_other (s : State) (x : Slot) (h : slotKey s.self ≠ slotKey x) : s.putSlot x = { s with others := putBy slotKey x s.others } := by
  unfold State.putSlot; rw [if_neg h]
theorem setG_key (x : Slot) (n : BitVec 5) (c : Cap) : slotKey (x.setG n c) = slotKey x := by
  unfold Slot.setG; split <;> rfl
theorem begin_key (x : Slot) (run : Nat) (role : Role) (owner : U16) (pcc g3 w4 w5 w6 w7 : Cap) :
    slotKey (x.begin run role owner pcc g3 w4 w5 w6 w7) = slotKey x := by
  unfold Slot.begin; dsimp only; rw [setG_key, setG_key, setG_key, setG_key, setG_key]; rfl
theorem setG_tail (x : Slot) (n : BitVec 5) (c : Cap) : (x.setG n c).tail = x.tail := by
  unfold Slot.setG; split <;> rfl
theorem begin_tail (x : Slot) (run : Nat) (role : Role) (owner : U16) (pcc g3 w4 w5 w6 w7 : Cap) :
    (x.begin run role owner pcc g3 w4 w5 w6 w7).tail = none := by
  unfold Slot.begin; dsimp only; rw [setG_tail, setG_tail, setG_tail, setG_tail, setG_tail]; rfl
theorem heapPlace_ok {u : State} {o : U16} {m : Msg} (h : u.heapRoom o m = true) : HeapPlace u o m (u.heapTake o m) := by
  have hr : (u.heapUsed o).length + heapRecords m ≤ 8192 := by
    unfold State.heapRoom at h; simp only [Bool.and_eq_true, decide_eq_true_eq] at h; exact h.2
  unfold State.heapTake
  dsimp only
  unfold HeapPlace
  generalize u.heapUsed o = used at hr ⊢
  generalize hl : (List.range (used.length + heapRecords m)).filter (fun k => !used.contains k) = l
  have hlen : heapRecords m ≤ l.length := by
    rw [← hl]
    have h1 : (List.range (used.length + heapRecords m)).length = ((List.range (used.length + heapRecords m)).filter (fun k => !used.contains k)).length
        + ((List.range (used.length + heapRecords m)).filter (fun k => used.contains k)).length := by
      have := List.length_eq_countP_add_countP (fun k => used.contains k) (l := List.range (used.length + heapRecords m))
      rw [List.countP_eq_length_filter, List.countP_eq_length_filter] at this
      simp only [Bool.not_eq_true, Bool.decide_eq_false] at this
      omega
    have h2 : ((List.range (used.length + heapRecords m)).filter (fun k => used.contains k)).length ≤ used.length := by
      apply List.Subperm.length_le
      apply List.subperm_of_subset ((List.nodup_range).filter _)
      intro k hk
      have := (List.mem_filter.1 hk).2
      simpa using this
    rw [List.length_range] at h1
    omega
  refine ⟨by rw [List.length_take, Nat.min_eq_left hlen]; rfl, ?_, fun k hk => ?_⟩
  · exact ((hl ▸ (List.nodup_range).filter _) : l.Nodup).sublist (List.take_sublist ..)
  · have := List.mem_of_mem_take hk
    rw [← hl, List.mem_filter, List.mem_range] at this
    refine ⟨by omega, ?_⟩
    simpa using this.2

theorem deliver_ok {i : Instr} {s u : State} {d b : BitVec 5} {core : Nat} {m : Msg} {place : U64} {fn : Nat} (hb : u.x b = place)
    (h : let r := (u.sync 2).arriveMessage core m
      exec i s = .next (if (if r.2 then (0 : U16) else 1) = 0 then (r.1.wr d ((if r.2 then (0 : U16) else 1).setWidth 64)).retire
        else (wordsBack ((r.1.refused (r.1.x b) fn (if r.2 then 0 else 1)).wr d ((if r.2 then (0 : U16) else 1).setWidth 64)) m).retire)) :
    Delivers i s u d core m place fn := by
  have e : (u.sync 2).arriveMessage core m = if (!(u.core core).overflow && (u.core core).hasRoom m) = true then (posted (u.sync 2) core m, true)
      else if u.heapRoom (u.coreUser core) m = true then (overflows (u.sync 2) core m (u.heapTake (u.coreUser core) m), true) else (u.sync 2, false) := rfl
  dsimp only at h
  refine ⟨fun ho hr => completes_of ?_, fun hn => ?_⟩
  · rw [if_pos (by rw [ho, (room_eq _ _).2 hr]; rfl)] at e
    rw [h, e, chip_eq]; rfl
  · have hn' : ¬(!(u.core core).overflow && (u.core core).hasRoom m) = true := by
      rw [Bool.and_eq_true, room_eq, Bool.not_eq_true']
      rintro ⟨a, b⟩
      rcases hn with hn | hn
      · rw [a] at hn; cases hn
      · exact hn b
    refine ⟨fun hh => ⟨_, heapPlace_ok hh, completes_of ?_⟩, fun hh => completes_of ?_⟩
    · rw [if_neg hn', if_pos hh] at e
      rw [h, e, chip_eq]; rfl
    · rw [if_neg hn', if_neg (by rw [hh]; simp)] at e
      rw [h, e, chip_eq, ← hb]; rfl

theorem tail_bytes (s : State) (a n : Nat) : bytesLE n (bytesAt s a n) = (List.range n).map (fun j => s.byteAt (a + j)) := by
  unfold bytesLE
  refine List.map_congr_left fun j hj => ?_
  have hj' := List.mem_range.1 hj
  have key : ∀ (n a j : Nat), j < n → bytesAt s a n / 256 ^ j % 256 = (s.byteAt (a + j)).toNat := by
    intro n
    induction n with
    | zero => intro a j h; omega
    | succ n ih =>
      intro a j h
      rw [bytesAt]
      have hb := (s.byteAt a).isLt
      cases j with
      | zero => simp; omega
      | succ j =>
        rw [pow_succ', ← Nat.div_div_eq_div_mul]
        have : ((s.byteAt a).toNat + 256 * bytesAt s (a + 1) n) / 256 = bytesAt s (a + 1) n := by omega
        rw [this, ih (a + 1) j (by omega)]
        congr 2; omega
  apply BitVec.eq_of_toNat_eq
  rw [BitVec.toNat_ofNat, ← key n a j hj']

theorem spawn_refused {s : State} {d a b : BitVec 5} {core slot : Nat} (h0 : s.self.sent = []) (hj : Enterable s (s.g a))
    (hn : NamesHere s (s.x b) core slot) (hz : slot < 8 ∨ slot = 15)
    (hbad : s.coreUser core ≠ s.self.owner ∨ (s.core core).overflow = true ∨ ¬Roomy (s.core core) 0) :
    execSpawn d a b s = if s.self.depth = 15 then .next (({ s with self := { s.self with sent := [], replies := [] } } : State).trap 0x0E 0)
      else .next (((({ s.sync 2 with self := { (s.sync 2).self with depth := s.self.depth + 1 } } : State).wr d 1)).retire) := by
  have et : s.target b true = .ok { device := none, core := core, slot := BitVec.ofNat 4 slot } := by
    unfold State.target; rw [target_here hn (by simpa using hz)]
  unfold execSpawn
  dsimp only
  rw [h0, jumpClass_none hj, et]
  simp only [bind, Except.bind, pure, Except.pure, List.isEmpty_nil, if_true]
  rw [letter_eq _ _ _ _ _ _ (kept_word (fun _ => hj.2.2.1))]
  unfold State.sendTo
  dsimp only
  have ea : ((s.sync 2).arriveSpawn core s.self.owner (letter s (s.g a) (BitVec.ofNat 4 slot) true [])) = (s.sync 2, false) := by
    unfold State.arriveSpawn
    have : ¬((s.sync 2).coreUser core == s.self.owner && !((s.sync 2).core core).overflow && ((s.sync 2).core core).hasRoom (letter s (s.g a) (BitVec.ofNat 4 slot) true [])) = true := by
      simp only [Bool.and_eq_true, beq_iff_eq, Bool.not_eq_true']
      rintro ⟨⟨x, y⟩, z⟩
      rcases hbad with h | h | h
      · exact h x
      · rw [show ((s.sync 2).core core).overflow = true from h] at y; cases y
      · exact h ((room_eq _ _).1 z)
    rw [if_neg this]
  simp only [Target.scope, Option.isSome_none, Bool.false_and, Bool.false_eq_true, if_false]
  rw [ea]
  simp only [Bool.false_eq_true, if_false]
  by_cases hd : s.self.depth = 15
  · rw [if_pos hd, if_neg (by decide), if_pos hd]; rfl
  · rw [if_neg hd, if_neg (by decide), if_neg hd]; rfl

theorem passed_ok {s : State} {d a : BitVec 5} {x : U64} (h : exec (.tyield d a) s = .next ((s.wr d x).passOn)) :
    ∃ t, exec (.tyield d a) s = .next t
      ∧ Registers s t (gSet s d { bits := 0#64 ++ x, tag := false }) s.v s.p s.self.flags ∧ Moved s t (s.self.pcc.withAddrBits (s.pc + 4)) := by
  rw [wr_eq] at h
  have hg := gSet_setG s d (c := { bits := 0#64 ++ x, tag := false })
  obtain ⟨g', e⟩ := setG_shape s d { bits := 0#64 ++ x, tag := false }
  rw [e] at h hg
  exact ⟨_, h, ⟨fun n => hg n, fun _ => rfl, fun _ => rfl, rfl, slotFrame_of rfl rfl, rfl, fun a => byteAt_self s _ a⟩, rfl, rfl, rfl, rfl, rfl⟩
theorem slot_self (s : State) : s.slot s.self.core s.self.idx = s.self := by
  unfold State.slot; exact if_pos rfl

theorem noDevice_room {s : State} (h : s.myCore.replyEntries.length < 8) : ¬8 ≤ s.myCore.replyEntries.length := by omega
theorem delegates_ok {s : State} {d : BitVec 5} {async : Bool} {core slot : Nat} {m : Msg} (hc : core < 8192) (hs : (s.core core).steward.length < 32) :
    Delegates s (s.delegate d { device := none, core := core, slot := 0 } m async) d async core m := by
  unfold State.delegate
  dsimp only
  unfold State.sendRequest Target.code
  dsimp only
  rw [if_pos hc]
  unfold State.queueSteward
  have hi := myCore_idx s
  have hcore : ∀ q, ((((({ s with nextTxn := s.nextTxn + 1 } : State).putCore { s.myCore with replyEntries := s.myCore.replyEntries ++ [s.self.idx] }).setSelf
      (fun x => { x with delegated := some (d, async, m, core) })).sync (Target.scope { device := none, core := core, slot := 0 })).core q)
      = { s.core q with replyEntries := if q = s.self.core then (s.core q).replyEntries ++ [s.self.idx] else (s.core q).replyEntries } := by
    intro q
    show (s.putCore { s.myCore with replyEntries := s.myCore.replyEntries ++ [s.self.idx] }).core q = _
    by_cases hq : q = s.self.core
    · subst hq
      have := core_put s { s.myCore with replyEntries := s.myCore.replyEntries ++ [s.self.idx] }
      rw [show ({ s.myCore with replyEntries := s.myCore.replyEntries ++ [s.self.idx] } : Core).idx = s.self.core from hi] at this
      rw [this, if_pos rfl]; rfl
    · rw [if_neg hq]
      exact core_put_ne s _ q (by rw [show ({ s.myCore with replyEntries := s.myCore.replyEntries ++ [s.self.idx] } : Core).idx = s.self.core from hi]; exact fun h => hq h.symm)
  have hst : (((((({ s with nextTxn := s.nextTxn + 1 } : State).putCore { s.myCore with replyEntries := s.myCore.replyEntries ++ [s.self.idx] }).setSelf
      (fun x => { x with delegated := some (d, async, m, core) })).sync (Target.scope { device := none, core := core, slot := 0 })).core core).steward.length < 32) := by
    rw [hcore]; exact hs
  dsimp only
  rw [if_pos hst]
  dsimp only
  constructor
  · rw [chip_eq]; rfl
  · intro q
    generalize (((({ s with nextTxn := s.nextTxn + 1 } : State).putCore { s.myCore with replyEntries := s.myCore.replyEntries ++ [s.self.idx] }).setSelf
      (fun x => { x with delegated := some (d, async, m, core) })).sync (Target.scope { device := none, core := core, slot := 0 })) = u at hcore
    have hk : ({ u.core core with steward := (u.core core).steward ++ [m] } : Core).idx = core := core_idx u core
    by_cases hq : q = core
    · subst hq
      have := core_put u { u.core q with steward := (u.core q).steward ++ [m] }
      rw [hk] at this
      rw [this, if_pos rfl, hcore]
    · rw [if_neg hq, core_put_ne u _ q (by rw [hk]; exact fun h => hq h.symm), hcore]

theorem here_bound {s : State} {w : U64} {core slot : Nat} (h : NamesHere s w core slot) : core < 8192 := by
  obtain ⟨h1, h2, h3, h4, h5, h6, h7⟩ := h
  omega
theorem replied_eq (U : State) (d : BitVec 5) (r : Reply) : replied U d r = { U with self := U.self.takeReply d r } := by
  unfold replied Slot.takeReply
  have e3 : messageStatus r = replyStatusOf r := rfl
  rw [e3]
  unfold State.wr
  simp only [State.setG]
theorem ended_eq (U : State) (d : BitVec 5) (m : Msg) (r : Reply) (hm : m.replyLocal = true) : U.setSelf (fun y => y.endDelegation d m r)
    = { chipCut (replied U d r) with self := { (chipCut (replied U d r)).self with delegated := none, delegateReply := none, resend := none } } := by
  rw [chip_eq, replied_eq]
  unfold Slot.endDelegation State.setSelf State.sync State.setSelf
  rw [hm]
  dsimp only
  generalize U.self.takeReply d r = X
  rfl

end Sys2Proof
end

