-- ==== Sys2Proof/Laws/Controls.lean ====
section
/-! SUPPORT. Laws of the control registers: what each number reads and writes, monitors, host queues. -/
set_option Elab.async false
namespace Sys2Proof

open Machine Claims

/-! ### Reading and writing -/

theorem rdc_cap {s : State} {d : BitVec 5} {n : BitVec 12} {c : Cap} (h : s.readCtl n = some c) (h1 : n ≠ 0x004) (h2 : n ≠ 0x109) : PutsG (.rdc d n) s d c := by
  refine putsG_of ?_
  show execRdc d n s = _
  unfold execRdc
  rw [h]
  dsimp only
  rw [if_neg (by simpa using ⟨h1, h2⟩)]
theorem rdc_int {s : State} {d : BitVec 5} {n : BitVec 12} {x y : U64} (h : s.readCtl n = some (Cap.ofInt x)) (e : x = y) (h1 : n ≠ 0x004) (h2 : n ≠ 0x109) : PutsX (.rdc d n) s d y := by
  subst e
  refine putsX_of (x := x) ?_ rfl
  show execRdc d n s = _
  unfold execRdc
  rw [h]
  dsimp only
  rw [if_neg (by simpa using ⟨h1, h2⟩)]; rfl
theorem seen_flags (f w c : U64) : f &&& (~~~w ||| c) &&& f = f &&& (~~~w ||| c) ∧ f &&& ~~~w &&& (f &&& (~~~w ||| c)) = f &&& ~~~w := by
  constructor
  · ext i hi; simp; intros; assumption
  · ext i hi; simp; cases f[i] <;> cases w[i] <;> simp
/-- An instruction that waits alone parks so (R155, R243). -/
theorem parksAlone_of {i : Instr} {s : State} {p : Park} (h : exec i s = .next (s.waitAlone p)) : ParksAlone i s p := by
  unfold State.waitAlone State.alone at h
  refine ⟨fun e => ⟨_, h, ?_⟩, fun e hd => ?_, fun e hd k pc w hw => ?_, fun e hd hw => ⟨_, h, ?_⟩⟩
  · rw [if_pos e]; rfl
  · rw [h, if_neg e, if_pos hd]; rfl
  · rw [h, if_neg e, if_neg (by rw [hd]; simp), hw]
  · rw [if_neg e, if_neg (by rw [hd]; simp), hw]; rfl
theorem party_some {s : State} (h : hostqParty s) : s.myHostq = some (hostqOf s) := by
  unfold State.myHostq hostqOf hostqParty at *
  dsimp only
  have e : (s.self.hqsel.extractLsb' 0 16).toNat = s.self.hqsel.toNat % 2 ^ 16 := by rw [ext_mod]; norm_num
  rw [e, if_pos]
  unfold State.uses
  simpa using h
theorem party_none {s : State} (h : ¬hostqParty s) : s.myHostq = none := by
  unfold State.myHostq hostqParty at *
  dsimp only
  have e : (s.self.hqsel.extractLsb' 0 16).toNat = s.self.hqsel.toNat % 2 ^ 16 := by rw [ext_mod]; norm_num
  rw [e, if_neg]
  unfold State.uses
  simpa using h
theorem findBy_eq {α : Type} (key : α → Nat) (k : Nat) (l : List α) : findBy key k l = l.find? (fun x => key x = k) := by
  induction l with
  | nil => rfl
  | cons y l ih =>
    unfold findBy
    rw [List.find?_cons]
    by_cases h : key y = k
    · simp [h]
    · simp [h, ih]
theorem entropy_eq (s : State) (e : Nat) : s.netStat e = entropyState s e := by
  unfold State.netStat entropyState
  rw [bound_eq]
  cases hb : bindingOf s 5 with
  | none => rfl
  | some b =>
    obtain ⟨ci, g⟩ := b
    dsimp only
    rw [findBy_eq]
    cases hf : (s.ctx ci).entropy.find? (fun x => x.1 = e) with
    | none =>
      simp
    | some x =>
      by_cases hk : ctxKind ci = 4
      · simp only [hk, if_true, ne_eq, not_true, if_false]
        apply BitVec.eq_of_toNat_eq
        rw [appN]
        unfold cut
        rw [BitVec.ofInt_natCast, BitVec.toNat_ofNat]
        have h1 := x.2.1.isLt
        have h2 := x.2.2.isLt
        omega
      · simp [hk]
theorem read021 (s : State) : s.readCtl 0x021 = (match s.myHostq with
    | some q => some ((q.ctx.map (fun b => ctxHandle b.1 b.2)).getD .zero)
    | none => some (Cap.ofInt 0)) := rfl
set_option maxRecDepth 20000 in
theorem readStat (s : State) (k : Nat) (n : BitVec 12) (hn : n.toNat = k) (h1 : 0x200 ≤ k) (h2 : k < 0x300) : s.readCtl n = some (Cap.ofInt (s.netStat (k - 0x200))) := by
  unfold State.readCtl
  dsimp only
  rw [hn]
  split
  all_goals first | (exfalso; omega) | skip
  rw [if_pos (by simp; omega)]
set_option maxRecDepth 20000 in
theorem readNoneN (s : State) (k : Nat)  (n : BitVec 12) (h : ¬(0x200 ≤ k ∧ k < 0x300)) (hk : n.toNat = k) 
   (h' : k ∉ [0x001, 0x002, 0x003, 0x004, 0x005, 0x006, 0x007, 0x008, 0x009, 0x00A, 0x00B, 0x010, 0x011, 0x012, 0x013, 0x014, 0x015, 0x016, 0x017, 0x018, 0x019,
        0x020, 0x021, 0x022, 0x023, 0x108, 0x109, 0x110, 0x111, 0x112, 0x113, 0x130, 0x300, 0x400, 0x401, 0x420, 0x421]) (h1 : k < 0x100 ∨ 0x100 + 8 ≤ k) (h2 : k < 0x120 ∨ 0x120 + 8 ≤ k) : s.readCtl n = none := by
  unfold State.readCtl
  dsimp only
  rw [hk]
  split
  all_goals first | (exfalso; exact h' (by decide)) | (exfalso; clear h'; omega) | skip
  rw [if_neg]
  intro hc
  apply h
  simpa using hc
theorem readNone (s : State) (n : BitVec 12) (h : n ∉ [0x001, 0x002, 0x003, 0x004, 0x005, 0x006, 0x007, 0x008, 0x009, 0x00A, 0x00B, 0x010, 0x011, 0x012, 0x013, 0x014, 0x015, 0x016, 0x017, 0x018, 0x019,
        0x020, 0x021, 0x022, 0x023, 0x108, 0x109, 0x110, 0x111, 0x112, 0x113, 0x130, 0x300, 0x400, 0x401, 0x420, 0x421])
    (h1 : n.toNat < 0x100 ∨ 0x100 + 8 ≤ n.toNat) (h2 : n.toNat < 0x120 ∨ 0x120 + 8 ≤ n.toNat) (h3 : n.toNat < 0x200 ∨ 0x300 ≤ n.toNat) : s.readCtl n = none := by
  refine readNoneN s n.toNat n (by omega) rfl ?_ h1 h2
  intro hm
  apply h
  have h0 : n = BitVec.ofNat 12 n.toNat := by simp
  generalize n.toNat = k at hm h0
  subst h0
  clear h h1 h2 h3
  fin_cases hm <;> decide
theorem wrote_ok {i : Instr} {s u : State} {r : Run State} (h : exec i s = wrote r) (e : r = .ok u) : Completes i s u := by
  refine completes_of ?_
  rw [h, e]; rfl
theorem mask_mod (w : U64) (k : Nat) (hk : k ≤ 64) : cut (w.toNat % 2 ^ k : Nat) = w &&& BitVec.ofNat 64 (2 ^ k - 1) := by
  apply BitVec.eq_of_toNat_eq
  unfold cut
  have h2 : 2 ^ k ≤ 2 ^ 64 := Nat.pow_le_pow_right (by norm_num) hk
  have hp : 0 < 2 ^ k := Nat.two_pow_pos k
  rw [BitVec.ofInt_natCast, BitVec.toNat_ofNat, BitVec.toNat_and, BitVec.toNat_ofNat]
  rw [Nat.mod_eq_of_lt (a := 2 ^ k - 1) (by omega), Nat.and_two_pow_sub_one_eq_mod, Nat.mod_eq_of_lt]
  have := Nat.mod_lt w.toNat hp
  omega
theorem fields_zero (w m : U64) : fields 0 w m = w &&& m := by unfold fields; ext i hi; simp
theorem hostq_ok {s : State} {i : Instr} {ok : Bool} {P : Prop} {f : HostQ → HostQ} {r : Run State} (h : exec i s = wrote r) (e : r = s.setHostq ok f) (hP : ok = true ↔ P) :
    let hqErr (u : State) (e : Bool) : State := { u with self := { u.self with hqsel := fields (if e then 0x8000000000000000 else 0) u.self.hqsel 0xFFFF } }
    (¬hostqParty s ∨ ¬P → Completes i s (hqErr s true))
      ∧ (hostqParty s → P → (hostqOf s).blocks ≠ [] → exec i s = .next (s.wait (.hostqRoom (hostqOf s).q)))
      ∧ (hostqParty s → P → (hostqOf s).blocks = [] → Completes i s (hqErr (s.putHostq (f (hostqOf s))) false)) := by
  intro hqErr
  have eh : ∀ (u : State) (b : Bool), u.hqErr b = hqErr u b := by
    intro u b
    have : ∀ x : U64, (x &&& 0xFFFF#64) ||| (if b = true then 1#64 <<< 63 else 0) = fields (if b = true then 0x8000000000000000 else 0) x 0xFFFF := by
      intro x
      unfold fields
      rw [BitVec.or_comm]
      cases b <;> rfl
    unfold State.hqErr State.setSelf
    dsimp only
    rw [this]
  subst e
  unfold State.setHostq at h
  refine ⟨fun hn => ?_, fun hp hk hb => ?_, fun hp hk hb => ?_⟩
  · refine wrote_ok h ?_
    rw [← eh]
    cases hq : s.myHostq with
    | none => rfl
    | some q =>
      rcases hn with hn | hn
      · rw [party_none hn] at hq; cases hq
      · have : ok = false := by cases ok with
          | false => rfl
          | true => exact absurd (hP.1 rfl) hn
        rw [this]; rfl
  · rw [h, party_some hp, hP.2 hk]
    dsimp only
    rw [if_neg (by simp), if_pos (by simpa using hb)]; rfl
  · refine wrote_ok h ?_
    rw [← eh, party_some hp, hP.2 hk]
    dsimp only
    rw [if_neg (by simp), if_neg (by simp [hb])]
set_option maxRecDepth 20000 in
theorem writeNoneN (s : State) (k : Nat) (n : BitVec 12) (c : Cap) (hk : n.toNat = k)
    (h' : k ∉ [0x001, 0x002, 0x003, 0x004, 0x005, 0x007, 0x010, 0x012, 0x013, 0x019, 0x020, 0x021, 0x022, 0x023, 0x108, 0x110, 0x111, 0x112, 0x113, 0x400, 0x420])
    (h1 : k < 0x100 ∨ 0x100 + 8 ≤ k) (h2 : k < 0x120 ∨ 0x120 + 8 ≤ k) : s.writeCtl n c = .error (s.trap 0x01 0) := by
  unfold State.writeCtl
  dsimp only
  rw [hk]
  split
  all_goals first | (exfalso; exact h' (by decide)) | (exfalso; clear h'; omega) | rfl
theorem writeNone (s : State) (n : BitVec 12) (c : Cap) (h : n ∉ [0x001, 0x002, 0x003, 0x004, 0x005, 0x007, 0x010, 0x012, 0x013, 0x019, 0x020, 0x021, 0x022, 0x023, 0x108, 0x110, 0x111, 0x112, 0x113, 0x400, 0x420])
    (h1 : n.toNat < 0x100 ∨ 0x100 + 8 ≤ n.toNat) (h2 : n.toNat < 0x120 ∨ 0x120 + 8 ≤ n.toNat) : s.writeCtl n c = .error (s.trap 0x01 0) := by
  refine writeNoneN s n.toNat n c rfl ?_ h1 h2
  intro hm
  apply h
  have h0 : n = BitVec.ofNat 12 n.toNat := by simp
  generalize n.toNat = k at hm h0
  subst h0
  clear h h1 h2
  fin_cases hm <;> decide
theorem low_half (x y : U64) : x.extractLsb' 32 32 ++ y.extractLsb' 0 32 = fields x y 0xFFFFFFFF := by
  have hm : ∀ i, (0xFFFFFFFF : U64).getLsbD i = decide (i < 32) := by
    intro i
    rw [show (0xFFFFFFFF : U64) = (BitVec.allOnes 32).setWidth 64 from rfl, BitVec.getLsbD_setWidth, BitVec.getLsbD_allOnes]
    by_cases h : i < 32
    · simp [h]; omega
    · simp [h]
  unfold fields
  apply BitVec.eq_of_getLsbD_eq
  intro i hi
  rw [BitVec.getLsbD_append, BitVec.getLsbD_or, BitVec.getLsbD_and, BitVec.getLsbD_and, BitVec.getLsbD_not, hm]
  by_cases h : i < 32
  · simp [h]
  · simp [h, hi]
    have : 32 + (i - 32) = i := by omega
    rw [this]
    have h2 : i - 32 < 32 := by omega
    simp [h2, BitVec.getLsbD_eq_getElem hi]
theorem authorises_iff (s : State) (c : Cap) (needs : List Perm) (hn : needs ≠ []) (ea : U64) (n : Nat) :
    Authorises s c needs ea n ↔ ((needs.findSome? (s.capClass c)).isSome || !c.inBounds ea.toNat n) = false := by
  rw [Bool.or_eq_false_iff]
  have hb : (!c.inBounds ea.toNat n) = false ↔ (c.bounds.base ≤ ea.toNat ∧ (ea.toNat : Int) + n ≤ c.bounds.top) := by
    unfold Cap.inBounds; simp
  rw [hb]
  have hf : (needs.findSome? (s.capClass c)).isSome = false ↔ (c.tag = true ∧ c.otype = 0 ∧ s.revokedAddr c.bounds.base.toNat = false ∧ ∀ k ∈ needs, c.holds k = true) := by
    rw [Option.isSome_eq_false_iff, Option.isNone_iff_eq_none]
    constructor
    · intro h
      rw [List.findSome?_eq_none_iff] at h
      have hc : ∀ k ∈ needs, c.tag = true ∧ c.otype = 0 ∧ s.revokedAddr c.bounds.base.toNat = false ∧ c.holds k = true := by
        intro k hk
        have := h k hk
        unfold State.capClass State.isRevoked at this
        rw [isSealed_iff] at this
        cases h1 : c.tag
        · simp [h1] at this
        · by_cases h2 : c.otype = 0
          · cases h3 : s.revokedAddr c.bounds.base.toNat
            · cases h4 : c.holds k
              · simp [h1, h2, h3, h4] at this
              · exact ⟨rfl, h2, rfl, rfl⟩
            · simp [h1, h2, h3] at this
          · simp [h1] at this
            split at this
            · exact absurd ‹_› h2
            · cases this
      obtain ⟨k, hk⟩ := List.exists_mem_of_ne_nil _ hn
      have := hc k hk
      exact ⟨this.1, this.2.1, this.2.2.1, fun k hk => (hc k hk).2.2.2⟩
    · rintro ⟨h1, h2, h3, h4⟩
      exact findSome_none h1 h2 h3 h4
  rw [hf]
  unfold Authorises
  tauto
theorem map_putBy {α β : Type} (key : α → Nat) (f : α → β) (x y : α) (h : key x = key y) (hf : f x = f y) (l : List α) : (putBy key x l).map f = (putBy key y l).map f := by
  induction l with
  | nil => simp [putBy, hf]
  | cons z l ih =>
    unfold putBy
    rw [h]
    split
    · simp [hf]
    · split
      · simp [hf]
      · simp [ih]
theorem monitor_iff (u : State) (addr mask : U64) (k : Nat) : u.monitorSlice addr mask = some k ↔ Installs u addr mask k := by
  unfold State.monitorSlice Installs
  have hm : mask.extractLsb' 8 56 = BitVec.allOnes 56 ↔ mask.toNat / 2 ^ 8 = 2 ^ 56 - 1 := by
    rw [ext_eq]
    have := mask.isLt
    rw [BitVec.toNat_allOnes, Nat.mod_eq_of_lt (by omega)]
  have hc : ∀ (j : Nat), (u.cores.map (fun c => (c.monitors.toList.filter (fun m => m == some j)).length)).sum = (u.cores.map (fun c => c.monitors.toList.countP (fun m => m = some j))).sum := by
    intro j; congr 1; apply List.map_congr_left; intro c _
    rw [List.countP_eq_length_filter]
    congr 2
    funext m
    rw [Bool.eq_iff_iff]; simp
  cases hp : placeOf addr.toNat with
  | seg i =>
    dsimp only
    cases he : u.segAttr i with
    | none => simp [he]
    | some e =>
      cases hr : u.rightsOn u.self.owner false i with
      | none => simp [hr]
      | some r =>
        dsimp only
        rw [hc]
        constructor
        · intro h
          split at h
          · cases h
          · rename_i hn
            simp only [Bool.or_eq_true, bne_iff_ne, ne_eq, decide_eq_true_eq, Bool.not_eq_true', not_or, not_not, Bool.not_eq_true, beq_iff_eq] at hn
            obtain ⟨⟨⟨⟨⟨h1, h2⟩, h3⟩, h4⟩, h5⟩, h6⟩ := hn
            cases h
            refine ⟨hm.1 h1, h2, h3, i, e, r, rfl, he, hr, ?_, ?_, rfl, ?_⟩
            · simpa using h5
            · have h4' : ¬e.place = 1 → e.place = 2 := by simpa using h4
              by_cases h : e.place = 1
              · exact .inl h
              · exact .inr (h4' h)
            · omega
        · rintro ⟨h1, h2, h3, i', e', r', hi, he', hr', h4, h5, rfl, h6⟩
          cases hi
          rw [he] at he'; cases he'
          rw [hr] at hr'; cases hr'
          rw [if_neg]
          simp only [Bool.or_eq_true, bne_iff_ne, ne_eq, decide_eq_true_eq, Bool.not_eq_true', not_or, not_not, Bool.not_eq_true, beq_iff_eq]
          refine ⟨⟨⟨⟨⟨hm.2 h1, h2⟩, h3⟩, ?_⟩, ?_⟩, by omega⟩
          · rcases h5 with h | h <;> simp [h]
          · simpa using h4
  | none => simp
  | frame _ => simp
  | coreArea => simp
  | fabric _ _ => simp
theorem installs_congr {u v : State} (h1 : v = { u with cores := v.cores }) (h2 : v.cores.map (fun c => c.monitors) = u.cores.map (fun c => c.monitors)) (addr mask : U64) (k : Nat) :
    Installs v addr mask k ↔ Installs u addr mask k := by
  have h3 : v.cores.map (fun c => c.monitors.toList.countP (fun m => m = some k)) = u.cores.map (fun c => c.monitors.toList.countP (fun m => m = some k)) := by
    have := congrArg (List.map (fun m : Vector (Option Nat) 4 => m.toList.countP (fun x => x = some k))) h2
    simpa [Function.comp_def] using this
  unfold Installs
  rw [h3]
  rw [h1]
  rfl
theorem setWatch_ok (s : State) (k : Fin 8) (w : U64) : Watching s k w (s.setWatch (BitVec.ofNat 3 k) w) := by
  have hk : (BitVec.ofNat 3 k.val).toNat = k.val := by rw [BitVec.toNat_ofNat]; have := k.isLt; omega
  have hodd : (BitVec.ofNat 3 k.val).getLsbD 0 = decide (k.val % 2 = 1) := by fin_cases k <;> rfl
  have hl := k.isLt
  obtain ⟨kv, hkl⟩ := k
  dsimp only at hk hodd hl
  have hidx := myCore_idx s
  -- the pair's registers after the raw write
  have hi : ∀ (h : (BitVec.ofNat 3 kv).toNat / 2 < 4), (⟨(BitVec.ofNat 3 kv).toNat / 2, h⟩ : Fin 4) = ⟨kv / 2, by omega⟩ := by
    intro h; apply Fin.ext; show (BitVec.ofNat 3 kv).toNat / 2 = kv / 2; rw [hk]
  unfold Watching State.setWatch
  intro pair old addr mask bare at'
  dsimp only
  simp only [hi, hk, hodd]
  generalize hv : (if decide (kv % 2 = 1) = true then w else w &&& ~~~(0xF#64)) = v
  have hmask : Core.watchMask { s.myCore with watch := s.myCore.watch.set kv v, monitors := s.myCore.monitors.set (kv / 2) none } ⟨kv / 2, by omega⟩ = mask := by
    unfold Core.watchMask
    show (s.myCore.watch.set kv v)[2 * (kv / 2) + 1] = if kv % 2 = 0 then s.myCore.watch[kv / 2 * 2 + 1] else w
    rw [Vector.getElem_set]
    by_cases h : kv % 2 = 0
    · rw [if_neg (by omega), if_pos h]; congr 1; omega
    · rw [if_pos (by omega), if_neg h, ← hv, if_pos (by simp; omega)]
  have haddr : Core.watchAddr { s.myCore with watch := s.myCore.watch.set kv v, monitors := s.myCore.monitors.set (kv / 2) none } ⟨kv / 2, by omega⟩ &&& ~~~(0xF#64) = addr := by
    unfold Core.watchAddr
    show (s.myCore.watch.set kv v)[2 * (kv / 2)] &&& ~~~(0xF#64) = (if kv % 2 = 0 then w else s.myCore.watch[kv / 2 * 2]) &&& ~~~(0xF : U64)
    rw [Vector.getElem_set]
    by_cases h : kv % 2 = 0
    · rw [if_pos (by omega), if_pos h, ← hv, if_neg (by simp; omega), BitVec.and_assoc, BitVec.and_self]; rfl
    · rw [if_neg (by omega), if_neg h]; congr 2; omega
  rw [hmask, haddr]
  have hvec : ∀ x : U64, (s.myCore.watch.set kv v).set (2 * (kv / 2)) x = ((old.set (kv / 2 * 2) x).set (kv / 2 * 2 + 1) mask) := by
    intro x
    apply Vector.ext
    intro j hj
    simp only [Vector.getElem_set]
    have hm : mask = if kv % 2 = 0 then s.myCore.watch[kv / 2 * 2 + 1] else w := rfl
    by_cases h1 : j = 2 * (kv / 2)
    · rw [if_pos h1.symm, if_neg (by omega), if_pos (by omega)]
    · rw [if_neg (fun h => h1 h.symm)]
      by_cases h2 : j = kv / 2 * 2 + 1
      · rw [if_pos h2.symm, hm]
        by_cases h : kv % 2 = 0
        · rw [if_neg (by omega), if_pos h]; subst h2; rfl
        · rw [if_pos (by omega), if_neg h, ← hv, if_pos (by simp; omega)]
      · rw [if_neg (by omega), if_neg (by omega), if_neg (by omega)]
  simp only [hvec, Vector.set_set]
  have hmon : ∀ a m k, State.monitorSlice (s.putCore { s.myCore with watch := s.myCore.watch.set kv v, monitors := s.myCore.monitors.set (kv / 2) none }) a m = some k ↔ Installs bare a m k := by
    intro a m k
    rw [monitor_iff]
    refine installs_congr (u := bare) rfl ?_ a m k
    exact map_putBy Core.idx (fun c => c.monitors) { s.myCore with watch := s.myCore.watch.set kv v, monitors := s.myCore.monitors.set (kv / 2) none }
      { s.myCore with monitors := s.myCore.monitors.set (kv / 2) none } rfl rfl s.cores
  generalize State.monitorSlice (s.putCore { s.myCore with watch := s.myCore.watch.set kv v, monitors := s.myCore.monitors.set (kv / 2) none }) = M at *
  refine ⟨fun h => ?_, fun h => ⟨fun k hk => ?_, fun hn => ?_⟩⟩
  · refine Eq.trans (putCore_putCore _ _ _ (by rfl)) ?_
    rw [h]; rfl
  · refine Eq.trans (putCore_putCore _ _ _ (by rfl)) ?_
    rw [h]
    rw [← hmon] at hk
    rw [if_pos rfl, hk]; rfl
  · refine Eq.trans (putCore_putCore _ _ _ (by rfl)) ?_
    rw [h]
    have : M addr mask = none := by
      cases hq : M addr mask with
      | none => rfl
      | some k => exact absurd ((hmon _ _ _).1 hq) (hn k)
    rw [if_pos rfl, this]; rfl

/-! ### Delivery and return -/

theorem kind_eq (s : State) (k : BitVec 2) : s.self.kind = k ↔ frameKind s = k.toNat := by
  unfold Slot.kind frameKind
  rw [ext_eq]; norm_num
theorem swapped (x y : Slot) (hg : y.g = x.g) (n : BitVec 5) (h : n ≠ 0) (c : Cap) : 
    ∃ g', y.setG n c = { y with g := g' } ∧ (Slot.getG { y with g := g' } n = c) ∧ ∀ m, m ≠ n → Slot.getG { y with g := g' } m = x.getG m := by
  have e : y.setG n c = { y with g := y.g.set n.toNat c n.isLt } := by unfold Slot.setG; rw [if_neg h]
  refine ⟨_, e, ?_, fun m hm => ?_⟩
  · rw [← e, Slot.getG_setG, if_pos ⟨rfl, h⟩]
  · rw [← e, Slot.getG_setG, if_neg (fun q => hm q.1)]
    unfold Slot.getG; simp only [hg]
theorem fields_clear (x : U64) : x &&& ~~~(0x300#64) = fields x 0 0x300 := by unfold fields; simp
theorem resume_ok (s : State) : Returned s (s.setSelf Slot.resume) := by
  unfold Returned State.setSelf Slot.resume
  dsimp only
  obtain ⟨g', e, h1, h2⟩ := swapped s.self ({ s.self with
    tstack := s.self.getG 2, tfclass := s.self.tfclass &&& ~~~(0x300#64), class1 := false, pcc := s.self.tfpcc
    winStart := s.self.tfpcc.addr, winDone := s.self.tfdone.extractLsb' 0 32, winReads := [], winWrites := []
    afterTransfer := true, replay := true }) rfl 2 (by decide) s.self.tstack
  rw [e]
  refine ⟨⟨rfl, h1, h2⟩, ?_⟩
  rw [fields_clear]
  have : s.self.tfdone.extractLsb' 0 32 = s.self.tfdone.setWidth 32 := by
    apply BitVec.eq_of_toNat_eq; rw [ext_mod, BitVec.toNat_setWidth]; norm_num
  rw [this]
theorem vector_eq (x : Slot) (cls : BitVec 6) : x.vectorFor cls = vectorOf x cls := by
  unfold Slot.vectorFor vectorOf
  simp only [Bool.and_eq_true, decide_eq_true_eq]
theorem entry_iff (c : Cap) : c.isVector = true ↔ GoodVector c := by
  unfold Cap.isVector GoodVector
  rw [isSealed_iff]; simp [and_assoc]
theorem deliver_spec (s : State) (x : Trap) (pc : U64) (word : U32) :
    Delivered s (s.setSelf (fun y => y.deliver x pc word s.us)) x.cls x.addr x.lanes x.agent pc word s.self.winDone := by
  unfold Delivered State.setSelf Slot.deliver
  dsimp only
  obtain ⟨g', e, h1, h2⟩ := swapped s.self ({ s.self with
    class1 := true
    tfpcc := s.self.pcc.withAddrBits s.self.winStart, tfpc := pc, tfdone := word ++ s.self.winDone
    tfclass := 0#54 ++ trapKind x.cls ++ 0#2 ++ x.cls
    tfaddr := x.addr, tflane0 := x.lanes.extractLsb' 0 64, tflane1 := x.lanes.extractLsb' 64 64, tfagent := x.agent
    tftime := BitVec.ofNat 64 s.us
    tstack := s.self.getG 2, pcc := s.self.vectorFor x.cls
    afterTransfer := true, replay := false, winDone := 0, winReads := [], winWrites := [], watchTrap := none, park := .no
    sent := [], replies := [], tail := none
    coopDue := if x.cls = 0x15 then false else s.self.coopDue }) rfl 2 (by decide) s.self.tstack
  rw [e]
  refine ⟨⟨rfl, h1, h2⟩, ?_⟩
  rw [vector_eq]
  have a1 : word ++ s.self.winDone = cut (s.self.winDone.toNat + 2 ^ 32 * word.toNat : Nat) := by
    apply BitVec.eq_of_toNat_eq
    unfold cut
    rw [BitVec.ofInt_natCast, BitVec.toNat_ofNat, appN]
    have := s.self.winDone.isLt; have := word.isLt; omega
  have a2 : 0#54 ++ trapKind x.cls ++ 0#2 ++ x.cls = cut (x.cls.toNat + 2 ^ 8 * kindOf x.cls : Nat) := by
    apply BitVec.eq_of_toNat_eq
    unfold cut
    rw [BitVec.ofInt_natCast, BitVec.toNat_ofNat]
    simp only [appN]
    have h : (trapKind x.cls).toNat = kindOf x.cls := by
      unfold trapKind kindOf; split <;> (try split) <;> rfl
    have := x.cls.isLt
    have : kindOf x.cls < 4 := by rw [← h]; exact (trapKind x.cls).isLt
    rw [h]; simp; omega
  have a3 : x.lanes.extractLsb' 0 64 = cut (x.lanes.toNat % 2 ^ 64 : Nat) := by
    apply BitVec.eq_of_toNat_eq
    unfold cut
    rw [BitVec.ofInt_natCast, BitVec.toNat_ofNat, BitVec.extractLsb'_toNat, Nat.shiftRight_eq_div_pow]; norm_num
  have a4 : x.lanes.extractLsb' 64 64 = cut (x.lanes.toNat / 2 ^ 64 : Nat) := by
    apply BitVec.eq_of_toNat_eq
    unfold cut
    rw [BitVec.ofInt_natCast, BitVec.toNat_ofNat, BitVec.extractLsb'_toNat, Nat.shiftRight_eq_div_pow]
  have a5 : (if x.cls = 0x15 then false else s.self.coopDue) = (s.self.coopDue && decide (x.cls ≠ 0x15)) := by
    by_cases h : x.cls = 0x15
    · rw [if_pos h, h]; simp
    · have h2 : decide (x.cls ≠ 0x15) = true := by rw [decide_eq_true_eq]; exact h
      rw [if_neg h, h2, Bool.and_true]
  have a6 : (BitVec.ofNat 64 s.us) = cut s.us := by unfold cut; rw [BitVec.ofInt_natCast]
  rw [a1, a2, a3, a4, a5, a6]
theorem leasing_no {x : Slot} (h : ∀ d b, x.park ≠ .grant d b) : x.leasing = false := by
  unfold Slot.leasing; split
  · rename_i e; exact absurd e (h _ _)
  · rfl
theorem takeAt_ok {s : State} {x : Trap} {pc : U64} {word : U32} (h1 : s.self.class1 = false) (h2 : s.self.leasing = false) (h3 : GoodVector (vectorOf s.self x.cls)) :
    Delivered s (s.takeTrapAt x pc word) x.cls x.addr x.lanes x.agent pc word s.self.winDone := by
  have : s.takeTrapAt x pc word = s.setSelf (fun y => y.deliver x pc word s.us) := by
    unfold State.takeTrapAt
    rw [h1, if_neg (by simp)]
    dsimp only
    rw [h2, if_neg (by decide : ¬(false = true)), if_pos ((entry_iff _).2 (by rw [vector_eq]; exact h3))]
  rw [this]
  exact deliver_spec s x pc word
theorem abort_eq (s : State) (reason cls : Nat) : s.abort s.self.core s.self.idx reason cls =
    (if s.self.idx = 0 then ((s.dump s.self reason cls).budgetDrain s.self.core).withdraw s.self.core else s.dump s.self reason cls).endTask s.self.core s.self.idx .abort := by
  unfold State.abort
  dsimp only
  rw [slot_self]
theorem done_delivered {s : State} {cls : BitVec 6} {a : U64} (h1 : s.self.class1 = false) (h2 : s.self.leasing = false) (h3 : GoodVector (vectorOf s.self cls)) :
    Delivered s (s.trapDone cls a) cls a 0 0 s.pc (faulting s) (s.self.winDone ||| doneBit s.self.winStart s.pc) := by
  have := takeAt_ok (s := s.setSelf (fun x => { x with winDone := x.winDone ||| doneBit x.winStart x.pcc.addr })) (x := .plain cls a)
    (pc := s.pc) (word := (s.setSelf (fun x => { x with winDone := x.winDone ||| doneBit x.winStart x.pcc.addr })).wordAt s.pc) h1 h2 h3
  have ew : (s.setSelf (fun x => { x with winDone := x.winDone ||| doneBit x.winStart x.pcc.addr })).wordAt s.pc = faulting s := by
    unfold State.wordAt faulting
    have hl : ∀ (x : Slot) a n, ({ s with self := x } : State).loadN a n = s.loadN a n := by
      intro x a n
      rw [loadN_bytesAt, loadN_bytesAt]
      induction n generalizing a with
      | zero => rfl
      | succ n ih => rw [bytesAt, bytesAt, ih, byteAt_self]
    unfold State.setSelf
    rw [hl]; rfl
  rw [ew] at this
  exact this

end Sys2Proof
end

