-- ==== Sys2Proof/Laws/Holdings.lean ====
section
/-! SUPPORT. Holdings: the status of a holding instruction, an entry at rest, offers, loans, the owner members. -/

namespace Sys2Proof
open Machine Claims

/-! ### Holdings -/

theorem entry_id (s : State) (id : U64) : (s.entry id).id = id := by
  unfold State.entry
  cases h : findBy entryKey id.toNat s.entries with
  | none => rfl
  | some x =>
    have := findBy_key h
    exact BitVec.eq_of_toNat_eq this
theorem entry_put (s : State) (e : Entry) (id : U64) (h : e.id = id) : (s.putEntry e).entry id = e := by
  subst h
  unfold State.entry State.putEntry
  have : findBy entryKey e.id.toNat (putBy entryKey e s.entries) = some e := find_putBy entryKey e s.entries
  dsimp only
  rw [this]; rfl
theorem putEntry_put (s : State) (e f : Entry) (h : e.id = f.id) : (s.putEntry e).putEntry f = s.putEntry f := by
  unfold State.putEntry; rw [putBy_put _ _ _ (by unfold entryKey; rw [h])]
theorem lapse_not (s : State) (o : Owner) (h : ∀ p ∈ s.owners, s.lapseDue p = false) : s.lapse o.id = s := by
  unfold State.lapse
  split
  · rfl
  · rename_i p hp
    have hm : p ∈ s.owners := by
      unfold State.owner at hp
      clear h
      generalize s.owners = l at hp ⊢
      induction l with
      | nil => cases hp
      | cons q l ih =>
        unfold findBy at hp
        split at hp
        · cases hp; exact List.mem_cons_self ..
        · exact List.mem_cons_of_mem _ (ih hp)
    rw [h p hm]; rfl
theorem lapses_rest {s : State} (h : NoLapse s) : s.lapses = s := by
  unfold State.lapses
  generalize hl : s.owners = l
  have : ∀ l : List Owner, l.foldl (fun t o => t.lapse o.id) s = s := by
    intro l
    induction l with
    | nil => rfl
    | cons o l ih => rw [List.foldl_cons, lapse_not s o h]; exact ih
  exact this l
theorem timeUp_iff (s : State) (t f : Nat) : s.timeUp t f = decide (t * 1750 + f ≤ present s) := rfl
theorem fresh_rest {s : State} {id : U64} (h : Resting s (s.entry id)) : s.fresh id = s := by
  obtain ⟨h0, h1, h2, h3⟩ := h
  have ho : s.offerOver (s.entry id) = false := by
    unfold State.offerOver
    cases hd : (s.entry id).deadline with
    | none => simp
    | some t =>
      rw [h1]
      by_cases hs : (s.entry id).state = .offered ∨ (s.entry id).state = .offeredLoan
      · have := h2 hs t hd
        unfold momentOf at this
        simp [timeUp_iff]; omega
      · have : ((s.entry id).state == .offered || (s.entry id).state == .offeredLoan) = false := by
          simp only [Bool.or_eq_false_iff, beq_eq_false_iff_ne]; tauto
        rw [this]; rfl
  have ht : s.termOver (s.entry id) = false := by
    unfold State.termOver
    by_cases hs : (s.entry id).state = .lent
    · rcases h3 hs with h | h
      · rw [h]; simp
      · cases hd : (s.entry id).termEnd with
        | none => simp
        | some t => have := h t hd; unfold momentOf at this; simp [timeUp_iff]; intro _ _; omega
    · have : ((s.entry id).state == .lent) = false := by simpa using hs
      rw [this]; rfl
  unfold State.fresh State.applyDeadline
  rw [lapses_rest h0, ho]
  simp only [Bool.false_eq_true, if_false]
  unfold State.endTerm
  dsimp only
  rw [ht]; rfl
theorem justFounded_iff (s : State) (e : Entry) : s.justFounded e = true ↔ JustFounded s e := by
  unfold State.justFounded JustFounded State.meOwner
  cases h : s.owner e.holder with
  | none => simp
  | some o => simp
theorem status_bits (c n : Nat) (h : c < 2 ^ 32) : swStatus c n = 0#64 ++ statusWord c n := by
  unfold swStatus statusWord cut
  apply BitVec.eq_of_toNat_eq
  rw [BitVec.ofInt_natCast, zext, BitVec.toNat_ofNat, BitVec.toNat_ofNat]
  have : n % 2 ^ 32 < 2 ^ 32 := Nat.mod_lt _ (by norm_num)
  omega
theorem status_eq (s : State) (d : BitVec 5) (c n : Nat) (h : c < 2 ^ 32) : s.status d c n = (s.wr d (statusWord c n)).retire := by
  unfold State.status
  rw [status_bits _ _ h, wr_eq]
theorem ends_of {i : Instr} {s u : State} {d : BitVec 5} {c n : Nat} (h : exec i s = .next ((u.sync 2).status d c n)) (hc : c < 2 ^ 32) : Ends i s u d c n := by
  refine completes_of ?_
  rw [h, status_eq _ _ _ _ hc, chip_eq]
theorem refuses_of {i : Instr} {s : State} {d : BitVec 5} {c n : Nat} (h : exec i s = finish (s.refuse d c n)) (hc : c < 2 ^ 32) : Refuses i s d c n := ends_of h hc
theorem holdStart_ok {s : State} {d : BitVec 5} {id : U64} (h1 : resValid id = true) (h2 : s.lapsed s.self.owner = false) : s.holdStart d id = .ok () := by
  unfold State.holdStart State.meOwner; rw [h1, h2]; rfl
theorem unit_ok {s : State} {e : Entry} (h : e.recovery = none) : s.unitBusy e = .ok () := by
  unfold State.unitBusy; rw [h]; rfl
theorem party_eq (t : U128) : termsParty t = party t := by
  unfold termsParty party
  apply BitVec.eq_of_toNat_eq; rw [BitVec.extractLsb'_toNat, BitVec.toNat_ofNat]; simp
theorem badTerms_iff (s : State) (id : U64) (t : U128) (lend : Bool) : s.badTerms id t lend = true ↔ BadTerms s id t lend := by
  unfold State.badTerms BadTerms State.meOwner sliceTooShort
  have hp : termsParty t = party t := by
    unfold termsParty party
    apply BitVec.eq_of_toNat_eq; rw [BitVec.extractLsb'_toNat, BitVec.toNat_ofNat]; simp
  have hz : termsZero t = 0 ↔ t.toNat / 2 ^ 17 % 2 ^ 15 = 0 := by
    unfold termsZero
    rw [← BitVec.toNat_inj, BitVec.extractLsb'_toNat, Nat.shiftRight_eq_div_pow]; rfl
  have ht : termsTerm t = field32 t 64 := by
    unfold termsTerm field32; rw [BitVec.extractLsb'_toNat, Nat.shiftRight_eq_div_pow]
  have hb : termsBudget t = field32 t 32 := by
    unfold termsBudget field32; rw [BitVec.extractLsb'_toNat, Nat.shiftRight_eq_div_pow]
  dsimp only
  rw [hp, ht, hb]
  simp only [Bool.or_eq_true, Bool.and_eq_true, bne_iff_ne, beq_iff_eq, ne_eq, decide_eq_true_eq, Bool.not_eq_true', hz]
  have hr : Config.ratedMHz = 1750 := rfl
  rw [hr]
  have hs : (s.rotaOf id).slice.toNat ≠ 0 ↔ (s.rotaOf id).slice ≠ 0 := by
    rw [ne_eq, ne_eq, ← BitVec.toNat_inj]; rfl
  simp only [ne_eq] at hs ⊢
  simp only [hs, or_assoc, and_assoc]
theorem inUse_iff (s : State) (id : U64) : s.inUse id = true ↔ InUse s id := by
  unfold State.inUse InUse State.keyInUse State.wayPins
  split
  · rename_i h
    simp [h, and_assoc]
  · rename_i h
    simp [h, and_assoc]
  · rename_i h1 h2
    constructor
    · intro h; cases h
    · rintro (⟨h, -⟩ | ⟨h, -⟩)
      · exact absurd h h1
      · exact absurd h h2
theorem underSweep_iff (s : State) (id : U64) : (isRevUnit id && s.revoked.contains (unitOf id)) = true ↔ UnderSweep s id := by
  unfold UnderSweep isRevUnit
  simp
theorem offers_ok {s : State} {d a b : BitVec 5} {i : Instr} {lend : Bool} (h : exec i s = finish (s.offer d a b lend)) : Offers s d a b i lend := by
  unfold Offers
  intro id e t hr hv hl
  have hf : s.fresh (s.x a) = s := fresh_rest hr
  have hstart : s.holdStart d (s.x a) = .ok () := holdStart_ok hv hl
  have hu : s.unitBusy (s.entry (s.x a)) = .ok () := unit_ok hr.2.1
  unfold State.offer at h
  dsimp only at h
  rw [hstart, hf, hu] at h
  simp only [bind, Except.bind, pure, Except.pure] at h
  rw [show s.x a = id from rfl, show s.entry id = e from rfl, show (s.g b).bits = t from rfl, show s.meOwner = s.self.owner from rfl] at h
  refine ⟨fun h1 => ?_, fun h1 hj => ?_, fun h1 h2 hj => ?_, fun h1 h2 => ?_, fun h1 h2 hj => ⟨fun h3 => ?_, fun h3 h4 => ?_, fun h3 h4 h5 => ?_, fun h3 h4 h5 => ?_⟩⟩
  · by_cases h2 : e.other = s.self.owner
    · rw [if_pos h2]
      refine refuses_of ?_ (by norm_num)
      rw [h, if_pos ⟨h1, h2⟩]; rfl
    · rw [if_neg h2]
      refine refuses_of ?_ (by norm_num)
      rw [h, if_neg (fun q => h2 q.2), h1]; rfl
  · refine refuses_of ?_ (by norm_num)
    rw [h, if_neg (fun q => by rw [h1] at q; cases q.1), h1]
    dsimp only
    rw [if_pos ((justFounded_iff _ _).2 hj)]; rfl
  · refine refuses_of ?_ (by norm_num)
    rw [h, if_neg (fun q => by rw [h1] at q; cases q.1), h1]
    dsimp only
    rw [if_neg (fun q => hj ((justFounded_iff _ _).1 q)), if_pos h2]; rfl
  · refine refuses_of ?_ (by cases e.state <;> decide)
    rw [h, if_neg (fun q => h2 q.1)]
    cases hs : e.state <;> first | exact absurd hs h1 | exact absurd hs h2 | rfl
  all_goals
    rw [if_neg (fun q => by rw [h1] at q; cases q.1), h1] at h
    try dsimp only at h
    rw [if_neg (fun q => hj ((justFounded_iff _ _).1 q)), if_neg (by simpa using h2)] at h
    try dsimp only at h
  · refine refuses_of ?_ (by norm_num)
    rw [h, if_pos ((badTerms_iff _ _ _ _).2 h3)]; rfl
  all_goals
    rw [if_neg (fun q => h3 ((badTerms_iff _ _ _ _).1 q))] at h
    try dsimp only at h
  · refine refuses_of ?_ (by norm_num)
    rw [h, if_pos ((inUse_iff _ _).2 h4)]; rfl
  all_goals
    rw [if_neg (fun q => h4 ((inUse_iff _ _).1 q))] at h
    try dsimp only at h
  · refine ⟨_, refuses_of (n := s.sweepNumber (unitOf id)) ?_ (by norm_num)⟩
    rw [h, if_pos ((underSweep_iff _ _).2 h5)]; rfl
  · rw [if_neg (fun q => h5 ((underSweep_iff _ _).1 q))] at h
    try dsimp only at h
    refine completes_of ?_
    rw [h]
    have e1 : termsParty t = party t := party_eq t
    have e2 : termsTimeout t = field32 t 96 := by unfold termsTimeout field32; rw [BitVec.extractLsb'_toNat, Nat.shiftRight_eq_div_pow]
    have e3 : BitVec.ofNat 64 (termsTerm t) = cut (field32 t 64) := by
      unfold cut; rw [BitVec.ofInt_natCast]; unfold termsTerm field32; rw [BitVec.extractLsb'_toNat, Nat.shiftRight_eq_div_pow]
    rw [e1, e2, e3, status_eq _ _ _ _ (by norm_num), chip_eq]
    rfl
theorem plain_begin {s : State} {e : Entry} {st : HState} {p : Passing} (h : Plain e.id) :
    s.beginPassing e st p = s.putEntry { e with state := st, recovery := some ⟨p.taker, p.fromOwner, p.returned, p.record, p.keep, none, 0, true, 0, s.ratedNow + termsBudget e.terms, true⟩ } := by
  have hk : resKind e.id = 9 ∨ resKind e.id = 12 := h
  have hc : isCoreKind e.id = false := by unfold isCoreKind; rcases hk with h | h <;> rw [h] <;> rfl
  have hslots : s.entrySlots e.id p.fromOwner = [] := by unfold State.entrySlots; rw [hc]; rfl
  have huse : s.endUse e.id p.fromOwner = s := by unfold State.endUse; dsimp only; rcases hk with h | h <;> rw [h] <;> rfl
  have hsw : (resKind e.id == 5 || (resKind e.id == 4 && p.recovery)) = false := by rcases hk with h | h <;> rw [h] <;> rfl
  have hkeep : (p.keep && resKind e.id != 5 && resKind e.id != 6 && resKind e.id != 8) = p.keep := by
    rcases hk with h | h <;> rw [h] <;> simp
  unfold State.beginPassing
  dsimp only
  rw [hslots, huse, hsw, hkeep, hc]
  rfl
theorem scrub_plain {v : State} {id : U64} {o : U16} (h : Plain id) (keep : Bool) : (if keep = true then v else v.scrub id o) = scrubbedIf keep v id o := by
  unfold scrubbedIf State.scrub
  rcases h with h | h
  · rw [h]; cases keep <;> rfl
  · rw [h]; cases keep <;> rfl
theorem settle_plain {v : State} {E : Entry} {R : Recovery} (hv : v.entry E.id = E) (hR : E.recovery = some R) (h : Plain E.id) :
    let w := scrubbedIf R.keep v E.id R.fromOwner
    v.settleEntry E.id = if R.record then (w.putEntry (w.passed E R)).reclaimRecord E R (if R.returned then 1 else if R.forced then 3 else 2) else w.putEntry (w.passed E R) := by
  intro w
  have hk : resKind E.id = 9 ∨ resKind E.id = 12 := h
  have hrev : isRevUnit E.id = false := by unfold isRevUnit; rcases hk with h | h <;> rw [h] <;> rfl
  have hslots : v.entrySlots E.id R.fromOwner = [] := by
    unfold State.entrySlots isCoreKind; rcases hk with h | h <;> rw [h] <;> rfl
  unfold State.settleEntry
  dsimp only
  rw [hrev]
  simp only [Bool.false_eq_true, if_false]
  rw [hv, hR]
  dsimp only
  rw [if_pos (by unfold State.passingReady; rw [hslots, hrev]; rfl)]
  unfold State.finishPassing
  dsimp only
  have hk1 : (if resKind E.id = 1 then v.reclaimRequests (resIndex E.id) else v) = v := by rcases hk with h | h <;> rw [h] <;> rfl
  rw [hk1, scrub_plain h]
  have himg : ∀ u : State, u.releaseImages E.id R.fromOwner = u := by
    intro u; unfold State.releaseImages; rw [if_pos]; rcases hk with h | h <;> rw [h] <;> decide
  have hid : (w.passed E R).id = E.id := by unfold State.passed; dsimp only; split <;> rfl
  have hins : ∀ u : State, u.installed (w.passed E R) = u := by
    intro u; unfold State.installed; rw [hid]; rcases hk with h | h <;> rw [h] <;> rfl
  rw [himg, hins]
theorem passed_held {v : State} {E e : Entry} {R : Recovery} (hE : E.state ≠ .offeredLoan)
    (he : { E with state := e.state, deadline := e.deadline, recovery := e.recovery, keepBoth := e.keepBoth, termEnd := e.termEnd } = e) :
    v.passed E R = passedTo v e R.taker := by
  unfold State.passed passedTo
  dsimp only
  rw [if_neg hE, ← he]
theorem wait_free {s : State} {id : U64} (h : s.self.park = .no) : ¬s.self.park = .change id := by rw [h]; simp
theorem party_ok {s : State} {d : BitVec 5} {e : Entry} {f : Entry → U16} (h1 : e.state = .offered ∨ e.state = .offeredLoan) (h2 : f e = s.self.owner) : s.offerParty d e f = .ok () := by
  unfold State.offerParty
  rcases h1 with h1 | h1 <;> rw [h1] <;> exact if_neg (fun q => q h2)
theorem past_retire (u : State) : Past u u.retire := ⟨⟨rfl, rfl, rfl, rfl, rfl⟩, rfl⟩
theorem retired_retire (u : State) : Retired u u.retire := ⟨rfl, rfl, rfl, rfl, rfl⟩
theorem retire_shape (u : State) : u.retire = { u with self := u.retire.self } := rfl
theorem retired_wr {s u : State} {d : BitVec 5} {x : U64} (h : u.self.pcc = s.self.pcc ∧ u.self.winDone = s.self.winDone ∧ u.self.winStart = s.self.winStart ∧ u.self.park.alone = s.self.park.alone) : Retired s ((u.wr d x).retire) := by
  have := retired_retire (u.wr d x)
  rw [wr_eq] at this ⊢
  obtain ⟨g', e⟩ := setG_shape u d { bits := 0#64 ++ x, tag := false }
  rw [e] at this ⊢
  obtain ⟨h1, h2, h3, h4⟩ := h
  obtain ⟨r1, r2, r3, r4, r5⟩ := this
  refine ⟨?_, ?_, r3, r4.trans h4, r5⟩
  · rw [r1]; show u.self.pcc.withAddrBits (u.self.pcc.addr + 4) = s.self.pcc.withAddrBits (s.self.pcc.addr + 4); rw [h1]
  · rw [r2]; show u.self.winDone ||| doneBit u.self.winStart u.self.pcc.addr = s.self.winDone ||| doneBit s.self.winStart s.self.pcc.addr; rw [h1, h2, h3]
theorem recalls_of {s : State} {i : Instr} {d : BitVec 5} {e : Entry} {id : U64} {returned : Bool} (he : e.id = id) (hr : Resting s e) (h1 : e.state = .lent)
    (h : exec i s = .next (s.recall d e returned)) : Recalls i s d e returned := by
  unfold Recalls
  intro t number
  have hrec : s.recall d e returned = ((t.wr d (statusWord 0 number)).retire).settleEntry e.id := by
    have hT : t = (s.sync 2).beginPassing e .recalling (passing e.holder e.other returned true (returned && e.keepBoth) true) := by
      show State.beginPassing (chipCut s) _ _ _ = _
      rw [chip_eq]
    have hn : number = match (t.entry e.id).recovery with | some r => r.number | none => 0 := rfl
    clear_value number t
    unfold State.recall
    dsimp only
    rw [show (⟨e.holder, e.other, returned, true, returned && e.keepBoth, true⟩ : Passing) = passing e.holder e.other returned true (returned && e.keepBoth) true from rfl, ← hT, status_eq _ _ _ _ (by norm_num)]
    congr 5
    rw [hn]
    all_goals cases (t.entry e.id).recovery <;> rfl
  have first : ∀ (T : State), s.recall d e returned = T.retire.settleEntry e.id → ∃ v, Past T v ∧ exec i s = .next (v.settleEntry e.id) :=
    fun T hT => ⟨T.retire, past_retire T, by rw [h, hT]⟩
  refine ⟨first _ hrec, fun hpl => ?_⟩
  have e1 : t = (chipCut s).putEntry { e with state := .recalling, recovery := some ⟨e.holder, e.other, returned, true, returned && e.keepBoth, none, 0, true, 0, (chipCut s).ratedNow + termsBudget e.terms, true⟩ } :=
    plain_begin hpl
  have hent : ∀ x : Slot, ({ t with self := x } : State).entry e.id = { e with state := .recalling, recovery := some ⟨e.holder, e.other, returned, true, returned && e.keepBoth, none, 0, true, 0, (chipCut s).ratedNow + termsBudget e.terms, true⟩ } := by
    intro x; rw [e1]; exact entry_put (chipCut s) _ _ rfl
  have hnum : number = 0 := by
    show (match (t.entry e.id).recovery with | some r => r.number | none => 0) = 0
    rw [hent t.self]
  generalize hE : ({ e with state := .recalling, recovery := some ⟨e.holder, e.other, returned, true, returned && e.keepBoth, none, 0, true, 0, (chipCut s).ratedNow + termsBudget e.terms, true⟩ } : Entry) = E at e1 hent
  have hEid : E.id = e.id := by rw [← hE]
  have e2 := settle_plain (v := (t.wr d (statusWord 0 number)).retire) (E := E) (R := ⟨e.holder, e.other, returned, true, returned && e.keepBoth, none, 0, true, 0, (chipCut s).ratedNow + termsBudget e.terms, true⟩)
    (by rw [hEid]; exact hent _) (by rw [← hE]) (by rw [hEid]; exact hpl)
  rw [hEid] at e2
  rw [e2, hnum] at hrec
  simp only [if_true] at hrec
  refine ⟨((chipCut s).wr d (statusWord 0 0)).retire, ⟨e.holder, e.other, returned, true, returned && e.keepBoth, none, 0, true, 0, (chipCut s).ratedNow + termsBudget e.terms, true⟩, past_retire _, ?_⟩
  rw [hE]
  have e3 : (t.wr d (statusWord 0 0)).retire = (((chipCut s).wr d (statusWord 0 0)).retire).putEntry E := by rw [e1]; rfl
  rw [e3] at hrec
  intro w
  rw [h, hrec]
  have hpass : w.passed E ⟨e.holder, e.other, returned, true, returned && e.keepBoth, none, 0, true, 0, (chipCut s).ratedNow + termsBudget e.terms, true⟩ = passedTo w e e.holder := by
    refine passed_held ?_ ?_
    · rw [← hE]; simp
    · rw [← hE]
  show Host.Outcome.next (State.reclaimRecord (w.putEntry (w.passed E _)) _ _ _) = _
  rw [hpass]
  unfold State.reclaimRecord State.holdSource
  dsimp only
  rw [hEid]
  congr 2
  cases returned <;> rfl
theorem queryCap_eq (s : State) (e : Entry) (h : e.recovery = none) : s.queryWord e = queryCap s e := by
  unfold queryCap State.queryWord Entry.isParty State.meOwner
  simp only [h, Option.isNone_none, Bool.and_true]
  have e1 : (resKind e.id == 6 && s.self.owner != 0
      && (e.state == .held && e.holder == s.self.owner || e.state == .lent && e.other == s.self.owner))
      = decide (resKind e.id = 6 ∧ s.self.owner ≠ 0 ∧ ((e.state = .held ∧ e.holder = s.self.owner) ∨ (e.state = .lent ∧ e.other = s.self.owner))) := by
    rw [Bool.eq_iff_iff]; simp only [Bool.and_eq_true, Bool.or_eq_true, beq_iff_eq, bne_iff_ne, decide_eq_true_eq, and_assoc]
  have e2 : (s.self.owner != 0 && (e.holder == s.self.owner || e.other == s.self.owner)) = decide (s.self.owner ≠ 0 ∧ (e.holder = s.self.owner ∨ e.other = s.self.owner)) := by
    rw [Bool.eq_iff_iff]; simp only [Bool.and_eq_true, Bool.or_eq_true, beq_iff_eq, bne_iff_ne, decide_eq_true_eq]
  rw [e1, e2]
  simp only [decide_eq_true_eq]
theorem queryWord_eq (s : State) (e : Entry) : e.word s.self.owner = queryWord s e := by
  unfold Entry.word queryWord Entry.isParty
  have e2 : (s.self.owner != 0 && (e.holder == s.self.owner || e.other == s.self.owner)) = decide (s.self.owner ≠ 0 ∧ (e.holder = s.self.owner ∨ e.other = s.self.owner)) := by
    rw [Bool.eq_iff_iff]; simp only [Bool.and_eq_true, Bool.or_eq_true, beq_iff_eq, bne_iff_ne, decide_eq_true_eq]
  rw [e2]
  dsimp only
  have ht : (if (!decide (s.self.owner ≠ 0 ∧ (e.holder = s.self.owner ∨ e.other = s.self.owner))) = true then 0
      else match e.state with | .offered => e.deadline.getD 0 | .offeredLoan => e.deadline.getD 0 | .lent => e.termEnd.getD 0 | _ => 0)
      = if s.self.owner ≠ 0 ∧ (e.holder = s.self.owner ∨ e.other = s.self.owner) then
        (match e.state with | .offered | .offeredLoan => e.deadline.getD 0 | .lent => e.termEnd.getD 0 | _ => 0) else 0 := by
    by_cases h : s.self.owner ≠ 0 ∧ (e.holder = s.self.owner ∨ e.other = s.self.owner)
    · rw [if_pos h, if_neg (by rw [decide_eq_true h]; simp)]
    · rw [if_neg h, if_pos (by rw [decide_eq_false h]; rfl)]
  have hh : (if e.state = HState.retired then (0#16) else e.holder).toNat = if e.state = HState.retired then 0 else e.holder.toNat := by
    split <;> rfl
  rw [← hh]
  have hb : ∀ b : Bool, (BitVec.ofBool b).toNat = b.toNat := by intro b; cases b <;> rfl
  have hT : ∀ T : Nat, BitVec.ofNat 64 T ++ e.other ++ (if e.state = .retired then 0#16 else e.holder) ++ 0#6 ++ BitVec.ofBool e.inherited ++ BitVec.ofBool e.lapsedBorrower
    ++ 0#4 ++ BitVec.ofNat 4 e.state.code ++ 0#16 = BitVec.ofNat 128 (e.state.code * 2 ^ 16 + e.lapsedBorrower.toNat * 2 ^ 24 + e.inherited.toNat * 2 ^ 25
    + (if e.state = .retired then 0#16 else e.holder).toNat * 2 ^ 32 + e.other.toNat * 2 ^ 48 + T % 2 ^ 64 * 2 ^ 64) := by
    intro T
    apply BitVec.eq_of_toNat_eq
    generalize (if e.state = .retired then 0#16 else e.holder) = x
    simp only [appN, BitVec.toNat_ofNat, hb]
    have h1 : e.state.code < 16 := by cases e.state <;> decide
    have h2 := x.isLt
    have h3 := e.other.isLt
    have h4 : e.lapsedBorrower.toNat ≤ 1 := by cases e.lapsedBorrower <;> decide
    have h5 : e.inherited.toNat ≤ 1 := by cases e.inherited <;> decide
    have h6 : T % 2 ^ 64 < 2 ^ 64 := Nat.mod_lt _ (by norm_num)
    omega
  exact (hT _).trans (congrArg (fun T : Nat => BitVec.ofNat 128 (e.state.code * 2 ^ 16 + e.lapsedBorrower.toNat * 2 ^ 24 + e.inherited.toNat * 2 ^ 25
    + (if e.state = .retired then 0#16 else e.holder).toNat * 2 ^ 32 + e.other.toNat * 2 ^ 48 + T % 2 ^ 64 * 2 ^ 64)) ht)
theorem named_eq (w : U64) : ownerWord w = if w.toNat < 2 ^ 16 then some (BitVec.ofNat 16 w.toNat) else none := by
  unfold ownerWord
  have h1 : w.extractLsb' 16 48 = 0 ↔ w.toNat < 2 ^ 16 := by
    rw [ext_eq]
    have := w.isLt
    constructor
    · intro h; have h' : w.toNat / 2 ^ 16 % 2 ^ 48 = 0 := h; omega
    · intro h; show w.toNat / 2 ^ 16 % 2 ^ 48 = 0; omega
  have h2 : w.extractLsb' 0 16 = BitVec.ofNat 16 w.toNat := by
    apply BitVec.eq_of_toNat_eq; rw [ext_mod, BitVec.toNat_ofNat]; norm_num
  rw [h2]
  by_cases h : w.toNat < 2 ^ 16
  · rw [if_pos h, if_pos (h1.2 h)]
  · rw [if_neg h, if_neg (fun q => h (h1.1 q))]
theorem high_word (c : Cap) : c.high = BitVec.ofNat 64 (c.bits.toNat / 2 ^ 64) := by
  unfold Cap.high
  apply BitVec.eq_of_toNat_eq
  rw [BitVec.extractLsb'_toNat, BitVec.toNat_ofNat, Nat.shiftRight_eq_div_pow]
theorem low_word (c : Cap) : c.addr = BitVec.ofNat 64 (c.bits.toNat / 2 ^ 0) := by
  unfold Cap.addr
  apply BitVec.eq_of_toNat_eq
  simp
theorem charter_words (f : Nat → Cap) : (f 0).addr = charterField f 0 ∧ charterField f 1 = (f 0).high ∧ (f 1).addr = charterField f 2 ∧ (f 1).high = charterField f 3
    ∧ (f 2).addr = charterField f 4 ∧ (f 2).high = charterField f 5 := by
  unfold charterField
  refine ⟨low_word _, (high_word _).symm, low_word _, high_word _, low_word _, high_word _⟩
theorem badCharter_iff (s T : State) (f : Nat → Cap) (n : Nat) (hst : T.meOwner = s.self.owner) (hh : ∀ o id, T.holds o id = s.holds o id)
    (hen : ∀ id, T.entry id = s.entry id) (hlv : ∀ o, T.lives o = s.lives o) : T.badCharter ([0, 1, 2, 3].map f) n = none ↔ GoodCharter s f n := by
  obtain ⟨w0, w1, w2, w3, w4, w5⟩ := charter_words f
  have he : ∀ (c : Prop) [Decidable c] (m : Nat) (q : Option Nat), (if c then some m else q) = none ↔ ¬c ∧ q = none := by
    intro c _ m q; split <;> simp_all
  have hm : ∀ (id : U64) (k : Nat), (resKind id == k && resValid id && T.holds T.meOwner id && (T.entry id).recovery.isNone) = decide (resKind id = k ∧ resValid id = true ∧ s.holds s.self.owner id = true ∧ (s.entry id).recovery = none) := by
    intro id k
    rw [hst, hh, hen, Bool.eq_iff_iff]
    simp only [Bool.and_eq_true, beq_iff_eq, Option.isNone_iff_eq_none, and_assoc, decide_eq_true_eq]
  have x0 : (([0, 1, 2, 3].map f)[0 / 2]?.getD Cap.zero).addr = charterField f 0 := w0
  have x1 : (([0, 1, 2, 3].map f)[1 / 2]?.getD Cap.zero).high = charterField f 1 := w1.symm
  have x2 : (([0, 1, 2, 3].map f)[2 / 2]?.getD Cap.zero).addr = charterField f 2 := w2
  have x3 : (([0, 1, 2, 3].map f)[3 / 2]?.getD Cap.zero).high = charterField f 3 := w3
  have x4 : (([0, 1, 2, 3].map f)[4 / 2]?.getD Cap.zero).addr = charterField f 4 := w4
  have x5 : (([0, 1, 2, 3].map f)[5 / 2]?.getD Cap.zero).high = charterField f 5 := w5
  have hl3 : (([0, 1, 2, 3].map f)[3]?).getD .zero = f 3 := rfl
  unfold State.badCharter GoodCharter
  simp only [hm, hlv, show (0 % 2 = 0) = True from by simp, show (1 % 2 = 0) = False from by simp, show (2 % 2 = 0) = True from by simp, show (3 % 2 = 0) = False from by simp, show (4 % 2 = 0) = True from by simp, show (5 % 2 = 0) = False from by simp, if_true, if_false, x0, x1, x2, x3, x4, x5, hl3]
  generalize charterField f 0 = a0
  generalize charterField f 1 = a1
  generalize charterField f 2 = a2
  generalize charterField f 3 = a3
  generalize charterField f 4 = a4
  generalize charterField f 5 = a5
  have h16 : a0.extractLsb' 0 16 = BitVec.ofNat 16 a0.toNat := by
    apply BitVec.eq_of_toNat_eq; rw [ext_mod, BitVec.toNat_ofNat]; norm_num
  have h32 : a0.extractLsb' 16 16 = 0 ↔ a0.toNat / 2 ^ 16 % 2 ^ 16 = 0 := by rw [ext_eq]; rfl
  have hs : (f 3).isSealed = false ↔ (f 3).otype = 0 := by unfold Cap.isSealed; simp
  try rw [h16]
  simp only [he, Bool.or_eq_true, Bool.and_eq_true, Bool.not_eq_true', bne_iff_ne, ne_eq, beq_iff_eq, not_or, not_and, not_not, h32, and_true, Bool.not_eq_true, hs, decide_eq_true_eq, Bool.not_eq_false, decide_eq_false_iff_not]
  simp only [and_assoc, Classical.not_imp, not_not, ← or_iff_not_imp_left]
end Sys2Proof
end

