-- ==== Sys2Proof/Laws/Mappings.lean ====
section
/-! SUPPORT. Mappings: map words, attributes, and each MAPS member by its fields. -/
set_option Elab.async false

namespace Sys2Proof
open Machine Claims

/-! ### The MAPS group -/

theorem answers_of {i : Instr} {s u : State} {d : BitVec 5} {c n : Nat} (h : exec i s = .next (u.status d c n)) (hc : c < 2 ^ 32) : Answers i s u d c n :=
  completes_of (by rw [h, status_eq _ _ _ _ hc])
theorem deny_bind {s : State} {d : BitVec 5} {c n : Nat} {α : Type} (k : Unit → Run α) : (s.deny d c n >>= k) = .error (s.status d c n) := rfl
theorem finish_error (t : State) : finish (.error t) = .next t := rfl
theorem finish_ok (t : State) : finish (.ok t) = .next t := rfl
theorem error_bind {α β : Type} (t : State) (k : α → Run β) : ((.error t : Run α) >>= k) = .error t := rfl
theorem ok_bind {α β : Type} (x : α) (k : α → Run β) : ((.ok x : Run α) >>= k) = k x := rfl
theorem pure_bind' {α β : Type} (x : α) (k : α → Run β) : ((pure x : Run α) >>= k) = k x := rfl
theorem heldByMe_iff (s : State) (id : U64) : s.heldByMe id = true ↔ HeldByMe s id := by
  unfold State.heldByMe HeldByMe State.holds
  simp [and_assoc, State.meOwner]
theorem borrows_iff (s : State) (id : U64) : s.borrows id = true ↔ Borrows s id := by
  unfold State.borrows Borrows
  simp [and_assoc, State.meOwner]
theorem mayUse_iff (s : State) (id : U64) : s.mayUse id = true ↔ MayUse s id := by
  unfold State.mayUse MayUse Borrows HeldByMe
  simp [State.meOwner]
  tauto
theorem ext128_mod (m : U128) (k n : Nat) : (m.extractLsb' k n).toNat = fld m k n := by
  simp [BitVec.extractLsb'_toNat, Nat.shiftRight_eq_div_pow, fld]
theorem ext128 (m : U128) (k n : Nat) : m.extractLsb' k n = BitVec.ofNat n (fld m k n) := by
  apply BitVec.eq_of_toNat_eq
  rw [ext128_mod, BitVec.toNat_ofNat, fld, Nat.mod_mod]
theorem ext128_eq (m : U128) (k n : Nat) (x : BitVec n) : m.extractLsb' k n = x ↔ x.toNat = fld m k n := by
  rw [← BitVec.toNat_inj, ext128_mod]; exact eq_comm
theorem none_if {α : Type} (c : Prop) [Decidable c] (m : α) (q : Option α) : (if c then some m else q) = none ↔ ¬c ∧ q = none := by
  split <;> simp_all
theorem attrDiff_none (e : Rights) (m : U128) : attrDiff e m = none ↔ SameAttr e m := by
  unfold attrDiff SameAttr
  simp only [none_if, bne_iff_ne, ne_eq, not_not, mapPlace, mapUnchecked, mapSealed, mapKey, mapMigration, mapBig, mapCls, mapHome, ext128_eq, and_true]
  constructor
  · rintro ⟨h1, h2, h3, h4, h5, h6, h7, h8⟩; exact ⟨h1, h2.symm, h3.symm, h4, h5, h6.symm, h7, h8⟩
  · rintro ⟨h1, h2, h3, h4, h5, h6, h7, h8⟩; exact ⟨h1, h2.symm, h3.symm, h4, h5, h6.symm, h7, h8⟩
theorem badAttr_none (s : State) (seg : Nat) (m : U128) : s.badAttr seg m = none ↔ GoodAttr s seg m := by
  have h1 : mapPlace m = 0 ↔ fld m 16 2 = 0 := by rw [mapPlace, ext128_eq]; exact eq_comm
  have h2 : mapPlace m = 3 ↔ fld m 16 2 = 3 := by rw [mapPlace, ext128_eq]; exact eq_comm
  have h3 : mapKey m = 0 ↔ fld m 20 12 = 0 := by rw [mapKey, ext128_eq]; exact eq_comm
  have h4 : mapMigration m = 0 ↔ fld m 33 2 = 0 := by rw [mapMigration, ext128_eq]; exact eq_comm
  have h5 : mapMigration m = 3 ↔ fld m 33 2 = 3 := by rw [mapMigration, ext128_eq]; exact eq_comm
  have h6 : mapHome m = 0 ↔ fld m 42 2 = 0 := by rw [mapHome, ext128_eq]; exact eq_comm
  have h8 : (¬m.getLsbD 19 = true) ↔ m.getLsbD 19 = false := by simp
  have h7 : (mapKey m).toNat = fld m 20 12 := ext128_mod _ _ _
  unfold State.badAttr GoodAttr
  simp only [none_if, Bool.or_eq_true, Bool.and_eq_true, Bool.not_eq_true', beq_iff_eq, bne_iff_ne, ne_eq, h1, h2, h3, h4, h5, h6, h7, mapUnchecked, mapSealed, and_true, not_or, not_and, not_not,
    beq_eq_false_iff_ne, Bool.not_eq_false, mayUse_iff, State.meOwner, h8]
  rw [← ext128, ← ext128]
  constructor
  · rintro ⟨⟨a1, a2⟩, a3, a4, a5, a6, ⟨a7, a8⟩, a9, a10⟩
    exact ⟨a1, fun h => ⟨a2 h, a10 h⟩, fun h => ⟨a3 h, a4 h, a8 h⟩, a5, a6, a7, a9⟩
  · rintro ⟨a1, a2, a3, a5, a6, a7, a9⟩
    exact ⟨⟨a1, fun h => (a2 h).1⟩, fun h => (a3 h).1, fun h => (a3 h).2.1, a5, a6, ⟨a7, fun h => (a3 h).2.2⟩, a9, fun h => (a2 h).2⟩
theorem and_mask (x : U64) (mk : Nat) : x &&& BitVec.ofNat 64 mk = 0 ↔ ∀ i, i < 64 → mk.testBit i = true → x.getLsbD i = false := by
  constructor
  · intro h i hi hm
    have h2 : (x &&& BitVec.ofNat 64 mk).getLsbD i = false := by rw [h]; simp
    rw [BitVec.getLsbD_and, BitVec.getLsbD_ofNat, hm] at h2
    simpa [hi] using h2
  · intro h
    apply BitVec.eq_of_getLsbD_eq
    intro i hi
    rw [BitVec.getLsbD_and, BitVec.getLsbD_ofNat]
    cases hm : mk.testBit i with
    | false => simp
    | true => simp [h i hi hm]
theorem fld_zero (m : U128) (k n : Nat) : fld m k n = 0 ↔ ∀ i, i < n → m.getLsbD (k + i) = false := by
  rw [← ext128_mod]
  constructor
  · intro h i hi
    have h1 : m.extractLsb' k n = 0#n := BitVec.eq_of_toNat_eq (by rw [h]; simp)
    have h2 : (m.extractLsb' k n).getLsbD i = false := by rw [h1]; simp
    rw [BitVec.getLsbD_extractLsb'] at h2
    simpa [hi] using h2
  · intro h
    have h1 : m.extractLsb' k n = 0#n := by
      apply BitVec.eq_of_getLsbD_eq
      intro i hi
      rw [BitVec.getLsbD_extractLsb']
      simp [h i hi]
    rw [h1]; simp
theorem mapZero_iff (m : U128) : mapZero m = 0 ↔ fld m 44 20 = 0 ∧ fld m 7 5 = 0 := by
  unfold mapZero
  rw [and_mask, fld_zero, fld_zero]
  have e : ∀ i, i < 64 → (m.extractLsb' 0 64).getLsbD i = m.getLsbD i := by
    intro i hi; rw [BitVec.getLsbD_extractLsb']; simp [hi]
  constructor
  · intro h
    constructor
    · intro i hi
      have := h (44 + i) (by omega) (by revert i; decide)
      rwa [e _ (by omega)] at this
    · intro i hi
      have := h (7 + i) (by omega) (by revert i; decide)
      rwa [e _ (by omega)] at this
  · rintro ⟨h1, h2⟩ i hi ht
    rw [e i hi]
    rcases (show 44 ≤ i ∨ (7 ≤ i ∧ i < 12) from by revert ht; revert i; decide) with h | ⟨h, h'⟩
    · have := h1 (i - 44) (by omega); rwa [show 44 + (i - 44) = i from by omega] at this
    · have := h2 (i - 7) (by omega); rwa [show 7 + (i - 7) = i from by omega] at this
theorem segOf_some {a : U64} {seg : Nat} (h : placeOf a.toNat = .seg seg) : segOf a = some seg := by unfold segOf; rw [h]
theorem pageSize_eq (m : U128) : (if mapBig m = true then 2 ^ 21 else 2 ^ 14) = pageSize m := rfl
theorem mapPage_eq (m : U128) : mapPage m = fld m 0 7 := ext128_mod _ _ _
theorem map_new (s : State) (x : U64) (m : U128) (seg pos : Nat) :
    ({ vpn := x.toNat / 2 ^ 14 % 2 ^ 42, size := mapBig m, present := mapFrame m != 0, lost := false, clean := true, migrating := 0
       protect := mapMigration m == 1, key := mapKey m, host := segIsHost seg
       page := if mapFrame m = 0 then 0 else resIndex (mapFrame m) * 128 + mapPage m, pos := pos } : Machine.Trans) = newPage x m seg pos := by
  have e1 : (mapMigration m == 1) = decide (fld m 33 2 = 1) := by
    rw [Bool.eq_iff_iff, beq_iff_eq, decide_eq_true_eq, mapMigration, ext128_eq]; exact eq_comm
  have e2 : mapKey m = BitVec.ofNat 12 (fld m 20 12) := ext128 _ _ _
  rw [e1, e2, mapPage_eq]; rfl
theorem ext64_eq (w : U64) (k n : Nat) : w.extractLsb' k n = BitVec.ofNat n (w.toNat / 2 ^ k) := by
  apply BitVec.eq_of_toNat_eq
  rw [ext_mod, BitVec.toNat_ofNat]
theorem bit_div (w : U64) (i : Nat) : w.getLsbD i = decide (w.toNat / 2 ^ i % 2 = 1) := by
  rw [BitVec.getLsbD, Nat.testBit_eq_decide_div_mod_eq]
theorem bits_zero (w : U64) (k n : Nat) (h : w.toNat / 2 ^ k % 2 ^ n = 0) (i : Nat) (hi : i < n) : w.getLsbD (k + i) = false := by
  have h1 : w.extractLsb' k n = 0#n := BitVec.eq_of_toNat_eq (by rw [ext_mod, h]; simp)
  have h2 : (w.extractLsb' k n).getLsbD i = false := by rw [h1]; simp
  rw [BitVec.getLsbD_extractLsb'] at h2
  simpa [hi] using h2
theorem and3 (w : U64) : w &&& 3 = BitVec.ofNat 64 (w.toNat % 4) := by
  apply BitVec.eq_of_toNat_eq
  rw [BitVec.toNat_and, BitVec.toNat_ofNat, show (3 : U64).toNat = 2 ^ 2 - 1 from rfl, Nat.and_two_pow_sub_one_eq_mod]
  rw [Nat.mod_eq_of_lt (a := w.toNat % 4) (by omega)]
theorem z03 : ((0 : U64) = 3) = False := by simp
theorem z13 : ((1 : U64) = 3) = False := by simp
theorem z10 : ((1 : U64) = 0) = False := by simp
theorem selects_parts {s : State} {a : BitVec 5} {id : U64} {k : Nat} (h : Selects s a id k) :
    (s.g a).bits.extractLsb' 0 64 = id ∧ ((s.g a).bits.extractLsb' 64 8).toNat = k ∧ (s.g a).bits.extractLsb' 72 56 = 0 ∧ resValid id = true := by
  obtain ⟨h1, h2, h3, h4⟩ := h
  refine ⟨h1, by rw [ext128_mod]; exact h2, ?_, h4⟩
  apply BitVec.eq_of_toNat_eq
  rw [ext128_mod, fld, h3]; rfl
theorem setclass_seg {s : State} {d a b : BitVec 5} {seg k : Nat} (h1 : resIndex (mkRes 5 seg) = seg) (h2 : resKind (mkRes 5 seg) = 5) (h : Selects s a (mkRes 5 seg) k) (hk : k < 3) :
    exec (.setclass d a b) s = finish (if k = 0 then s.setAttr d seg (s.g b).bits else if k = 1 then s.formRegion d seg (s.g b).bits
      else (do
        s.zeroAbove d (s.g b).bits 0
        if !s.heldByMe (mkRes 5 seg) then s.deny d 1 0
        match s.region seg with
        | none => .error (s.status d 4 0)
        | some r => .ok ((s.discardRegion r).status d 0 0))) := by
  obtain ⟨p1, p2, p3, p4⟩ := selects_parts h
  show execSetclass d a b s = _
  unfold execSetclass State.setClass
  simp only [p1, p2, p3, p4, h1, h2, ne_eq, not_true_eq_false, if_false, Bool.not_true, Bool.false_eq_true, Nat.reduceEqDiff, show ¬(3 ≤ k) from by omega]
  all_goals rfl
theorem attr_diff {n : Nat} (x : BitVec n) (m : U128) (k : Nat) : (m.extractLsb' k n = x) ↔ x.toNat = fld m k n := ext128_eq m k n x
theorem zero_above {s : State} {d : BitVec 5} {v : U128} {n : Nat} (hn : n ≤ 64) (h : v.toNat < 2 ^ n) (mask : U128) (hm : mask = BitVec.ofNat 128 (2 ^ n - 1)) : s.zeroAbove d v mask = .ok () := by
  unfold State.zeroAbove
  have h1 : v &&& ~~~mask = 0 := by
    subst hm
    apply BitVec.eq_of_getLsbD_eq
    intro i hi
    rw [BitVec.getLsbD_and, BitVec.getLsbD_not, BitVec.getLsbD_ofNat, Nat.testBit_two_pow_sub_one]
    by_cases hin : i < n
    · simp [hi, hin]
    · have : v.getLsbD i = false := by
        rw [BitVec.getLsbD, Nat.testBit_lt_two_pow]
        exact lt_of_lt_of_le h (Nat.pow_le_pow_right (by norm_num) (by omega))
      simp [this]
  rw [if_neg (by rw [h1]; simp)]
theorem rights_map (s t : State) (d : BitVec 5) (c n : Nat) (f g : Rights → Rights) (h : f = g) :
    Host.Outcome.next (φ := Fault) (ρ := Refusal) (({ t with rights := s.rights.map f } : State).status d c n) = .next (({ t with rights := s.rights.map g } : State).status d c n) := by rw [h]
theorem nn03 : ((0 : Nat) = 3) = False := by simp
theorem nn13 : ((1 : Nat) = 3) = False := by simp
theorem nn23 : ((2 : Nat) = 3) = False := by simp
theorem nn10 : ((1 : Nat) = 0) = False := by simp
theorem nn20 : ((2 : Nat) = 0) = False := by simp
theorem nn21 : ((2 : Nat) = 1) = False := by simp
theorem foldl_self {α : Type} (f : State → α → State) (h : ∀ t x, (f t x).self = t.self) (l : List α) (s : State) : (l.foldl f s).self = s.self := by
  induction l generalizing s with
  | nil => rfl
  | cons x l ih => rw [List.foldl_cons, ih, h]
theorem zeroPhys_self (s : State) (b n : Nat) : (s.zeroPhys b n).self = s.self := rfl
theorem putSector_self (s : State) (l : Nat) (o : OldLine) (k : Nat) : (s.putSector l o k).self = s.self := rfl
theorem putLine_self (s : State) (l : Nat) (o : OldLine) : (s.putLine l o).self = s.self := rfl
theorem putSectors_self (s : State) (l : Nat) (o : OldLine) (d : BitVec 2) : (s.putSectors l o d).self = s.self := by
  unfold State.putSectors
  dsimp only
  split
  · rfl
  · split <;> split <;> rfl
theorem markLog_self (s : State) (a k n : Nat) : (s.markLog a k n).self = s.self := by
  unfold State.markLog; split <;> rfl
theorem markWritten_self (s : State) (l : Nat) (d : BitVec 2) : (s.markWritten l d).self = s.self := by
  unfold State.markWritten
  split
  · dsimp only
    split <;> split <;> first | rfl | rw [markLog_self, markLog_self] | rw [markLog_self]
  · rfl
theorem soil_self (s : State) (a : Nat) : (s.soil a).self = s.self := by
  unfold State.soil; repeat (first | rfl | split)
theorem evictLine_self (s : State) (k : KeptLine) : (s.evictLine k).self = s.self := by
  unfold State.evictLine
  dsimp only
  rw [zeroPhys_self]
  split
  · split
    · rw [soil_self, markWritten_self, putSectors_self]
    · rfl
  · rfl
theorem evictIf_self (s : State) (f : KeptLine → Bool) : (s.evictIf f).self = s.self := by
  unfold State.evictIf; exact foldl_self _ evictLine_self _ _
theorem writeBack_self (s : State) (lo hi : Nat) : (s.writeBack lo hi).self = s.self := by
  unfold State.writeBack
  dsimp only
  refine (evictIf_self _ _).trans ?_
  exact foldl_self (fun t (o : OldLine) => t.markWritten o.line o.dirty) (fun t o => markWritten_self t o.line o.dirty) _ _
theorem writeBackSeg_self (s : State) (seg : Nat) : (s.writeBackSeg seg).self = s.self := by
  unfold State.writeBackSeg; exact foldl_self (fun t (x : Machine.Trans) => t.writeBack x.base (x.base + x.bytes)) (fun t x => writeBack_self t x.base (x.base + x.bytes)) _ s
theorem loseWay_self (s : State) (die : BitVec 2) (c : BitVec 6) (a : Bool) : (s.loseWay die c a).self = s.self := by
  unfold State.loseWay
  dsimp only
  split
  · rfl
  · rw [evictIf_self, foldl_self _ (fun t o => writeBack_self t _ _)]; rfl
theorem leavePool_self (s : State) (die : BitVec 2) (way : Nat) : (s.leavePool die way).self = s.self := by
  unfold State.leavePool
  dsimp only
  split
  · rfl
  · split
    · exact loseWay_self _ _ _ _
    · rfl
theorem high_eq (c : Cap) : c.high.toNat = c.bits.toNat / 2 ^ 64 := by
  rw [show c.high = c.bits.extractLsb' 64 64 from rfl, ext128_mod, fld]
  have := c.bits.isLt
  omega
theorem revokeUnits_eq {first : U64} {n : Nat} {units : List Unit30} (h : RangeOf first n units) : revokeUnits first n = some units := by
  obtain ⟨h1, h2, h3⟩ := h
  unfold revokeUnits
  rw [h1]
  subst h2
  rcases h3 with ⟨a1, a2⟩ | ⟨a1, a2, a3⟩ | ⟨a1, a2, a3⟩
  · rw [if_neg (by simp), if_pos a1, if_pos (show resIndex first + n ≤ Config.spadFrames from a2), a1]; rfl
  · rw [if_neg (by simp), if_neg (by omega), if_pos a1, if_pos a2, if_pos a3, a1]; rfl
  · rw [if_neg (by simp), if_neg (by omega), if_pos a1, if_neg (by omega), if_pos (show resIndex first + n ≤ 2 ^ 26 + Config.hostFrames from a3), a1]; rfl
theorem status_set (n : Nat) : (swStatus 0 n).setWidth 64 = statusWord 0 n := by
  rw [status_bits _ _ (by norm_num)]
  apply BitVec.eq_of_toNat_eq
  rw [BitVec.toNat_setWidth, zext]
  exact Nat.mod_eq_of_lt (statusWord 0 n).isLt
theorem capCheck_plain {s : State} {r : BitVec 5} {c : Cap} {ea : U64} {n : Nat} (h1 : c.tag = true) (h2 : c.otype = 0) (h3 : s.revokedAddr c.bounds.base.toNat = false) (h4 : c.holds .w = true)
    (h5 : c.inBounds ea.toNat n = true) : s.capCheck r c ea n [.w] false = .ok () := by
  have hr : s.isRevoked c = false := by unfold State.isRevoked; rw [h3]; simp
  unfold State.capCheck
  have hk : s.capClass c Perm.w = none := capClass_ok h1 h2 h3 h4
  simp [Cap.isSealed, h1, h2, hr, h4, h5, hk]

end Sys2Proof
end

