-- ==== Sys2Proof/Tests/Slice0.lean ====
section
/-! SUPPORT. Tests: ill-formed terms, words of the spec's encoding tables, single steps, and states that meet the hypotheses of the
obligations. Expected results are the spec's: its tables, its worked examples, or its rules worked by hand. -/
set_option Elab.async false

namespace Sys2Proof.Tests
open Machine Claims

/-! ### Ill-formed terms: one for each limit of `Instr.wf` -/

/-- R203 (the size 3), R207 (an empty set of FENCE). -/
theorem test_wf_memory :
    ∀ i ∈ ([.amoswap 1 2 3 3 0 0, .cas 1 2 3 3 0 0, .lda 1 2 3 0 0, .stl 1 2 3 0 0, .fence 0b0011 0, .fence 0b1100 0] : List Instr), i.wf = false := by decide

/-- R222, R223, R228, R230: element types that a member does not take; R224, R226: a register pair that does not exist; R228: an element
that a vector does not have. -/
theorem test_wf_vector :
    ∀ i ∈ ([.vmulw 1 2 3 0 3, .vnarrow 1 2 3 0 7, .vfadd 1 2 3 0 3, .vfsub 1 2 3 0 3, .vfmul 1 2 3 0 3, .vfma 1 2 3 0 3, .vfms 1 2 3 0 3,
      .vfnma 1 2 3 0 3, .vfdiv 1 2 3 0 3, .vfsqrt 1 2 0 3, .vfmin 1 2 3 0 3, .vfmax 1 2 3 0 3, .vfabs 1 2 0 3, .vfneg 1 2 0 3, .vfexp2 1 2 0 3,
      .vfdot2 1 2 3 0 0, .vfdot2 1 2 3 0 3, .vscacc 1 31 3 4 0, .vldx 31 2 3 0 0, .vstx 31 2 3 0 0, .vfredadd 1 2 3 0 3, .vfredmax 1 2 3 0 3,
      .vextg 1 2 16 3, .vfcmpeq 1 2 3 0 3, .vfcmplt 1 2 3 0 3, .vfcmple 1 2 3 0 3, .vfcmpun 1 2 3 0 3] : List Instr), i.wf = false := by decide

/-- R231: formats, a conversion to itself, a rounding mode of 5, saturation of a format without it; R233, R234: groups and register runs. -/
theorem test_wf_convert :
    ∀ i ∈ ([.vcvt 1 2 5 8 0 0, .vcvt 1 2 8 16 0 0, .vcvt 1 2 8 8 0 0, .vcvt 1 2 8 0 5 0, .vcvt 1 2 0 8 0 1, .vquant 1 2 3 3 0, .vquant 1 31 3 1 0,
      .vdeq 31 2 3 1 0, .vdeq 1 2 3 3 0] : List Instr), i.wf = false := by decide

/-- R250: pairs; R307, R311: register runs; R345: the kind of a swatch, the pair of SWREAD. -/
theorem test_wf_system :
    ∀ i ∈ ([.mma 1 2 15, .mmaz 1 2 15, .mmaz 1 2 5, .push 1 0 0, .push 1 29 0, .evpop 0, .evpop 31, .evwait 0 1, .evwait 31 1, .swname 1 2 3 0,
      .swname 1 2 3 3, .swhash 1 2 3 0, .swhash 1 2 3 3, .swread 1 2 3 31, .start 0, .copy 0] : List Instr), i.wf = false := by decide

/-! ### Words of the spec's tables, by major opcode -/

/-- A word decodes to an instruction with a settle marker. -/
def reads (w : U32) (b : Bool) (i : Instr) : Bool := decide (decode w = .ok (b, i))
/-- A word decodes to nothing. -/
def refused (w : U32) : Bool := match decode w with
  | .ok _ => false
  | .error _ => true

theorem test_decode_scalar :
    reads 0x02952C00 false (.add 9 10 11) && reads 0x8294AC00 true (.add 9 9 11) && reads 0x02C6B815 false (.div 12 13 14)
      && reads 0x04C6B815 false (.divw 12 13 14) && reads 0x02950019 false (.clz 9 10) && reads 0x0244A81C false (.gpair 4 9 10)
      && reads 0x02A4AC18 false (.remu 10 9 11) && refused 0x02950419 := by decide
theorem test_decode_immediate :
    reads 0x06C07FFB false (.addi 12 0 (-5)) && reads 0x0E948003 false (.slli 9 9 3) && reads 0x0E94A03F false (.srai 9 9 63)
      && reads 0x0E94D01F false (.sraiw 9 9 31) && reads 0x8F08100E true (.srli 16 16 14) && reads 0x1E94FFFF false (.addiw 9 9 (-1))
      && reads 0x14948D16 false (.lui 9 0x48D16) && reads 0x8694E789 true (.addi 9 9 (-6263)) && refused 0x0E94D020 := by decide
theorem test_decode_control :
    reads 0x16900003 false (.capc 9 3) && reads 0x18100010 false (.jal 1 16) && reads 0x1A008000 false (.jalr 0 1 0)
      && reads 0x1C954FFD false (.bltu 9 10 (-3)) && reads 0x9CC00FFF true (.beq 12 0 (-1)) && reads 0x1D901FFF false (.bne 25 0 (-1))
      && reads 0x1C806002 false (.btag 8 2) := by decide
theorem test_decode_loads_and_stores :
    reads 0x20D42002 false (.lw 13 8 2) && reads 0x20917002 false (.lc 9 2 2) && reads 0x20944003 false (.lbn 9 8 3)
      && reads 0xA17B5000 true (.lhn 23 22 0) && reads 0x21EB3003 false (.ld 30 22 3) && reads 0x22B42000 false (.sw 11 8 0)
      && reads 0x22913FFE false (.sd 9 2 (-2)) && reads 0x22917000 false (.sc 9 2 0) && reads 0xA2A68000 true (.sb 10 13 0) := by decide
theorem test_decode_atomics :
    reads 0x28C502C6 false (.lda 12 10 0 1 2) && reads 0x28C4381D false (.amoadd 12 8 14 1 3 1) && reads 0x28B5030A false (.stl 11 10 0 1 2)
      && reads 0x28C5366A false (.cas 12 10 13 2 2 2) && reads 0x28C43A82 false (.amofadd 12 8 14 0 2) && reads 0x299502E6 false (.lda 25 10 2 1 2)
      && refused 0x28C43AA2 := by decide
theorem test_decode_capabilities :
    reads 0x24C48002 false (.cgetlen 12 9) && reads 0x24942808 false (.csetb 9 8 10) && reads 0x2494AC0A false (.candp 9 9 11)
      && reads 0x2454800F false (.cmove 5 9) && reads 0x26948040 false (.cinci 9 9 64) && reads 0x2694C100 false (.csetbi 9 9 256)
      && reads 0x2C0001A0 false (.fence 6 2) && reads 0x2C000201 false (.barb 2) := by decide
theorem test_decode_vector_integer :
    reads 0x30110C20 false (.vadd 1 2 3 0 2) && reads 0x301088CC false (.vaddsat 1 1 2 1 4) && reads 0x3284A800 false (.vdot4 8 9 10 0 0)
      && reads 0xB2310440 true (.vdot4 3 2 1 0 1) && reads 0xBC418063 true (.vredadd 4 3 0 0 6) && reads 0xBCD20069 true (.vextg 13 4 0 6)
      && refused 0x3284A820 := by decide
theorem test_decode_vector_float :
    reads 0x34321500 false (.vfadd 3 4 5 2 0) && reads 0x3484A803 false (.vfma 8 9 10 0 0) && reads 0x3484A82D false (.vfdot2 8 9 10 0 2)
      && reads 0x36300920 false (.vbcast 3 2 9 0) && reads 0x36811122 false (.vscacc 8 2 4 9 0) && reads 0x3C240006 false (.vfredadd 2 8 0 0 0)
      && reads 0x3E242404 false (.vfcmplt 2 8 9 0 0) && refused 0x3484A833 := by decide
theorem test_decode_vector_memory :
    reads 0x38840008 false (.vld 8 8 0 0 2) && reads 0x3A842898 false (.vsts 8 8 10 1 2) && reads 0x3825B034 false (.vldb 2 11 12 0 1)
      && reads 0x4063A002 false (.vcvt 6 7 8 0 0 1) && reads 0x40638110 false (.vcvt 6 7 0 8 4 0) && reads 0x42803040 false (.vquant 8 0 12 0 1)
      && reads 0x42143041 false (.vdeq 1 8 12 0 1) := by decide
theorem test_decode_loom :
    reads 0xC4004000 true (.tld 0 8 0) && reads 0x44404800 false (.tld 1 9 0) && reads 0x44004281 false (.tst 0 8 10)
      && reads 0x44C00002 false (.tzero 3) && reads 0xC4406003 true (.tzp 1 12) && reads 0x44084A84 false (.tgetzp 1 9 10)
      && reads 0x46006D00 false (.lease 13 20) && reads 0x46004803 false (.mwin 9) && reads 0x46007004 false (.mdrain 14)
      && reads 0x46004A85 false (.lstat 9 10) && reads 0x46130011 false (.mma 2 3 1) && reads 0xC601002A true (.mmaz 0 1 10)
      && refused 0x46130811 := by decide
theorem test_decode_queues :
    reads 0x48CA0000 false (.push 12 20 0) && reads 0x48002417 false (.movq 9 7) && reads 0x48900026 false (.qpop 9 6)
      && reads 0x48900030 false (.qstat 9 0) && reads 0x480C0045 false (.bindq 24 5) && reads 0x4A003400 false (.tlwait 13 0)
      && reads 0x4AC03410 false (.tltest 12 13 0) && reads 0x4AD00025 false (.tlread 13 5) && reads 0x4AE00030 false (.evpop 14)
      && reads 0x4AE48040 false (.evwait 14 9) && reads 0x4AC00050 false (.evtry 12) && refused 0x48CE8000 := by decide
theorem test_decode_tasks :
    reads 0x4CCA2800 false (.send 12 20 10) && reads 0x4CDA2813 false (.sendt 13 20 10 3) && reads 0x4CC4A820 false (.spawn 12 9 10)
      && reads 0x4CCAA830 false (.dlg 12 21 10) && reads 0x4CCAA840 false (.dlga 12 21 10) && reads 0x4C000050 false .dlgret
      && reads 0x4C000060 false .chain && reads 0x4C000070 false .replay && reads 0x4E000000 false .tend && reads 0x4EC48001 false (.tyield 12 9)
      && reads 0x4E000002 false .upret && reads 0x4EC00003 false (.tself 12) && refused 0x4CCA2801 := by decide
theorem test_decode_holdings :
    reads 0x50C4A800 false (.give 12 9 10) && reads 0xD0D4A803 true (.lend 13 9 10) && reads 0x50D48001 false (.accept 13 9 0)
      && reads 0x50C48005 false (.reclaim 12 9) && reads 0x50E4BC06 false (.hquery 14 9 15) && reads 0x50C00009 false (.renew 12)
      && reads 0xD2E84400 true (.map 14 16 17) && reads 0x52C4A803 false (.revoke 12 9 10) := by decide
theorem test_decode_swatches_and_system :
    reads 0x54C4A820 false (.swname 12 9 10 2) && reads 0x550A2010 false (.swname 16 20 8 1) && reads 0x54C4A882 false (.swread 12 9 10 8)
      && reads 0xD58A6403 true (.swref 24 20 25) && reads 0x54C4A804 false (.swrel 12 9 10) && reads 0xD5BA6405 true (.swwalk 27 20 25)
      && reads 0x56C00048 false (.rdc 12 9) && reads 0x56060039 false (.wrc 12 7) && reads 0x58048000 false (.trap 9)
      && reads 0x58100001 false (.tret 1) && reads 0x58000003 false .nop && refused 0 && refused 0xFFFFFFFF := by decide

/-! ### The machine -/

/-- The seed task right after START: slot 0 of core 0 runs in the host window (R410). -/
def started : State := State.reset.withFetchWord 32 0



/-! ### States that meet the hypotheses of the obligations

Each `test_hyp_<statement>` shows that the hypotheses of the statement's clauses hold together somewhere, a boundary value among them where a
range is named. -/

/-- `started` with capability registers. -/
def withG (l : List (BitVec 5 × Cap)) : State := l.foldl (fun s x => s.setG x.1 x.2) started
/-- The device root with a cursor; an address in a scratchpad frame of core 0. -/
def root (a : U64) : Cap := deviceRoot.withAddrBits a
def pad : U64 := 0x0010000000014000
/-- A capability of 64 bytes of that frame. -/
def small (perms : BitVec 12) (otype : BitVec 8) (a : U64) : Cap := Cap.make perms otype 0x10000000014000 64 a.toNat
/-- A state in which the frame's unit is under a sweep. -/
def swept (s : State) : State := { s with revoked := [unitOf (mkRes 4 5)] }

theorem test_hyp_gpair : (31 : BitVec 5) ≠ 0 := by decide
/-- Taken to the last word in bounds of the PCC, and not taken. -/
theorem test_hyp_branches :
    (let s := started
     (s.x 0 = s.x 0 ∧ Enterable s (atCursor s.self.pcc (s.pc + cut (4 * (2047 : BitVec 12).toInt)))) ∧ ¬s.x 0 ≠ s.x 0)
    ∧ (1 : BitVec 5) ≠ 0 ∧ 6 ≤ (6 : BitVec 3).toNat := by
  and_intros <;> decide
/-- JAL by the least offset that stays in bounds, JALR to the frame's base; and each class of check. -/
theorem test_hyp_jumps :
    Enterable started (atCursor started.self.pcc (started.pc + cut (4 * (0 : BitVec 20).toInt)))
    ∧ (let s := withG [(1, root pad)]; Enterable s (atCursor (s.g 1) (s.x 1 + cut (0 : BitVec 15).toInt)))
    ∧ EntryClass started (atCursor started.self.pcc (started.pc + cut (4 * (-1 : BitVec 20).toInt))) 0x04
    ∧ EntryClass started .zero 0x03 ∧ EntryClass started (small 0x200 2 pad) 0x06
    ∧ EntryClass (swept started) (small 0x200 0 pad) 0x16 ∧ EntryClass started (small 0x800 0 pad) 0x05
    ∧ EntryClass started (small 0x200 0 (pad + 61)) 0x04 ∧ EntryClass started (small 0x200 0 (pad + 2)) 0x0B := by
  and_intros <;> (try unfold EntryClass) <;> decide

/-- CSEAL to otype 255, and to otype 2 of a capability with X; CUNSEAL of otype 16; each class of check; an otype that is not given; a cursor that
is not the otype. -/
theorem test_hyp_sealing :
    (let s := withG [(1, root pad), (2, otypeRoot.withAddrBits 255)]
     SealPasses s (s.g 1) (s.g 2) .se false ∧ sealable (s.g 2).addr.toNat)
    ∧ (let s := withG [(1, root pad), (2, otypeRoot.withAddrBits 2)]
       SealPasses s (s.g 1) (s.g 2) .se false ∧ sealable (s.g 2).addr.toNat ∧ (s.g 1).holds .x = true)
    ∧ (let s := withG [(1, small 0x200 16 pad), (2, otypeRoot.withAddrBits 16)]
       SealPasses s (s.g 1) (s.g 2) .us true ∧ 16 ≤ (s.g 1).otype.toNat ∧ (s.g 2).addr.toNat = (s.g 1).otype.toNat)
    ∧ SealClass started .zero otypeRoot .se false 0x03 ∧ SealClass started (small 0x200 2 pad) otypeRoot .se false 0x06
    ∧ SealClass started (root pad) otypeRoot .us true 0x06 ∧ SealClass (swept started) (small 0x200 0 pad) otypeRoot .se false 0x16
    ∧ SealClass (swept started) (small 0x200 16 pad) otypeRoot .us true 0x16 ∧ SealClass started (root pad) (root 1) .se false 0x05
    ∧ SealClass started (root pad) (otypeRoot.withAddrBits 256) .se false 0x04
    ∧ (SealPasses started (root pad) (otypeRoot.withAddrBits 4) .se false ∧ ¬sealable 4)
    ∧ (SealPasses started (small 0x800 0 pad) (otypeRoot.withAddrBits 2) .se false ∧ (small 0x800 0 pad).holds .x = false)
    ∧ (SealPasses started (small 0x200 2 pad) (otypeRoot.withAddrBits 2) .us true ∧ (small 0x200 2 pad).otype.toNat < 16) := by
  and_intros <;> (try unfold SealClass) <;> decide

/-- An access of `n` bytes at `ea` through `c` in `s` passes. -/
def passes (s : State) (a : BitVec 5) (ea : U64) (n : Nat) (needs : List Perm) (read write atomic : Bool) : Prop :=
  Passes s a ea n needs (accessOf s ea n read write atomic)

/-- The least immediate, an odd address, and the last byte of the frame's bounds. -/
theorem test_hyp_loads :
    (let s := withG [(1, root (pad + 2049))]
     passes s 1 (meaOf s 1 (-2048) 1) 1 [.r] true false false ∧ passes s 1 (meaOf s 1 0 2) 2 [.r] true false false
       ∧ passes s 1 (meaOf s 1 2047 4) 4 [.r] true false false ∧ passes s 1 (meaOf s 1 1 8) 8 [.r] true false false)
    ∧ (let s := withG [(1, small 0x800 0 (pad + 60))]; passes s 1 (meaOf s 1 3 1) 1 [.r] true false false) := by
  unfold passes; and_intros <;> decide
theorem test_hyp_stores :
    (let s := withG [(1, root (pad + 2049))]
     passes s 1 (meaOf s 1 (-2048) 1) 1 [.w] false true false ∧ passes s 1 (meaOf s 1 0 2) 2 [.w] false true false
       ∧ passes s 1 (meaOf s 1 2047 4) 4 [.w] false true false ∧ passes s 1 (meaOf s 1 1 8) 8 [.w] false true false)
    ∧ (let s := withG [(1, small 0x400 0 (pad + 60))]; passes s 1 (meaOf s 1 3 1) 1 [.w] false true false) := by
  unfold passes; and_intros <;> decide

/-- The frame's own entry without the C right. -/
def noC (s : State) : State := { s with rights := [{ Rights.frameOwn 1 5 with c := false }] }
/-- LC; SC of an untagged and of a tagged value; SC without the permission, and without the right. -/
theorem test_hyp_capability_accesses :
    (let s := withG [(1, root pad), (2, root 0)]
     let ea := meaOf s 1 (-1) 16
     ea.toNat % 16 = 0 ∧ passes s 1 ea 16 [.r] true false false ∧ passes s 1 ea 16 [.w] false true false ∧ (s.g 2).tag = true
       ∧ (s.g 1).holds .sc = true ∧ (s.rightsAt s.self.owner (s.localAddr ea.toNat)).any (fun e => e.c) = true)
    ∧ (let s := withG [(1, small 0xC00 0 (pad + 48)), (2, root 0)]
       let ea := meaOf s 1 0 16
       ea.toNat % 16 = 0 ∧ passes s 1 ea 16 [.w] false true false ∧ (s.g 2).tag = true ∧ (s.g 1).holds .sc = false)
    ∧ (let s := noC (withG [(1, root pad), (2, root 0)])
       let ea := meaOf s 1 0 16
       ea.toNat % 16 = 0 ∧ passes s 1 ea 16 [.w] false true false ∧ (s.g 2).tag = true ∧ (s.g 1).holds .sc = true
         ∧ (s.rightsAt s.self.owner (s.localAddr ea.toNat)).any (fun e => e.c) = false) := by
  unfold passes; and_intros <;> decide

/-- Sizes w, d and q; a CAS of equal and of unequal values; the tag traps. -/
theorem test_hyp_atomics :
    (let s := withG [(1, root (pad + 4)), (2, root (pad + 8)), (3, root (pad + 48)), (4, .zero), (5, root 0)]
     passes s 1 (s.x 1) 4 [.r, .w] true true true ∧ (s.x 1).toNat % 4 = 0 ∧ passes s 2 (s.x 2) 8 [.r, .w] true true true ∧ (s.x 2).toNat % 8 = 0
       ∧ passes s 3 (s.x 3) 16 [.r, .w] true true true ∧ (s.x 3).toNat % 16 = 0 ∧ bytesAt s (accessOf s (s.x 1) 4 true true true).addr 4 = 0
       ∧ (s.x 3).toNat % 2 ^ 32 ≠ 0 ∧ capOf s (accessOf s (s.x 3) 16 true true true).addr = s.g 4 ∧ capOf s (accessOf s (s.x 3) 16 true true true).addr ≠ s.g 5)
    ∧ (let s := withG [(1, root (pad + 48)), (2, root 0), (4, .zero)]
       (passes s 1 (s.x 1) 4 [.r] true false true ∧ passes s 1 (s.x 1) 8 [.r] true false true ∧ passes s 1 (s.x 1) 16 [.r] true false true)
         ∧ passes s 1 (s.x 1) 4 [.w] false true true ∧ passes s 1 (s.x 1) 16 [.w] false true true ∧ scOk s (s.g 1) (s.g 4) (s.x 1)
         ∧ scOk s (s.g 1) (s.g 2) (s.x 1))
    ∧ (let s := withG [(1, small 0xC00 0 (pad + 48)), (2, root 0)]
       passes s 1 (s.x 1) 16 [.r, .w] true true true ∧ (s.g 2).tag = true ∧ (s.g 1).holds .sc = false)
    ∧ (let s := noC (withG [(1, root pad), (2, root 0)])
       passes s 1 (s.x 1) 16 [.r, .w] true true true ∧ (s.g 2).tag = true ∧ (s.g 1).holds .sc = true
         ∧ (s.rightsAt s.self.owner (s.localAddr (s.x 1).toNat)).any (fun e => e.c) = false) := by
  unfold passes; and_intros <;> (try unfold scOk) <;> decide
/-- A reply to a relaxed AMOFADD of a router. -/
def routerReply (n : Nat) : Reply := { txn := n, status := 0, value := Cap.ofInt 5, w4 := .zero, w5 := .zero, w6 := .zero, w7 := .zero, detail := 0 }
/-- AMOFADD, where nothing is in a router, and where its reply is there; a group's place. -/
theorem test_hyp_float_adds :
    (let s := withG [(1, root (pad + 4))]
     let u : State := { s.routersEmpty with free := s.free + 1 }
     s.self.sent = [] ∧ passes s 1 (s.x 1) 4 [.r, .w] true true true ∧ passes u 1 (u.x 1) 4 [.r, .w] true true true ∧ (s.x 1).toNat % 4 = 0
       ∧ (u.x 1).toNat % 4 = 0 ∧ s.remoteOf (s.x 1).toNat = none ∧ ∀ k < 4, (s.phys (s.localAddr (s.x 1).toNat + k)).isSome = true)
    ∧ [routerReply 7].find? (fun q => q.txn == 7) = some (routerReply 7) := by
  unfold passes; and_intros <;> decide

/-- A launch of one shop on bench 0, stages 1, with two tasks placed on core 0. -/
def twoTasks : Launch :=
  { id := 7, ctx := 0, number := 1, owner := 1, entry := root pad, data := .zero, w2 := 0, priority := 0, ev := false, shop := some 0, answers := none
    placed := [(0, 0, 0), (1, 0, 0)], ended := [], aborted := 0, benches := [], remote := [], begun := true, failed := 0, token := (0, 7), asked := []
    granted := [], asks := [], given := [], farEnded := [] }
/-- The seed's slot as the task at logical core `lcn` of that launch, at barrier 3, which has counted `arrived` and where it has arrival `v`. -/
def atBarrier (lcn gen : Nat) (arrived : List (Nat × Nat)) (v : Option (Nat × Option (U64 × Bool))) : State :=
  { started with
    self := { started.self with role := .launch 7 lcn 0, arrivals := #v[none, none, none, v] }
    launches := [twoTasks], barriers := [{ launch := 7, bench := 0, k := 3, gen := gen, arrived := arrived }] }

/-- Barrier 3: no arrival outstanding, an arrival whose generation has completed, the last and not the last to arrive; a slot without a launch;
an arrival by BARA and one by BARB, of a generation that runs and of one that has completed. -/
theorem test_hyp_barriers :
    (let s := atBarrier 1 0 [(0, 0)] none; s.self.role = .launch 7 1 0 ∧ MayArrive s 7 3 ∧ (∀ g, ¬HasArrived s 3 g) ∧ LastToArrive s 7 1 0 3)
    ∧ (let s := atBarrier 1 0 [] none; s.self.role = .launch 7 1 0 ∧ MayArrive s 7 3 ∧ (∀ g, ¬HasArrived s 3 g) ∧ ¬LastToArrive s 7 1 0 3)
    ∧ (let s := atBarrier 1 1 [(0, 0)] (some (0, none)); s.self.role = .launch 7 1 0 ∧ MayArrive s 7 3)
    ∧ (∀ id lcn stage, started.self.role ≠ .launch id lcn stage)
    ∧ (let s := atBarrier 1 1 [] (some (1, none)); arrivalAt s 3 = some (1, none) ∧ (barOf s 7 3).gen ≤ 1)
    ∧ (let s := atBarrier 1 1 [] (some (0, some (started.pc, false))); HasArrived s 3 0 ∧ 0 < (barOf s 7 3).gen)
    ∧ (let s := atBarrier 1 1 [] (some (1, some (started.pc, false))); HasArrived s 3 1 ∧ (barOf s 7 3).gen ≤ 1) := by
  have hn : ∀ l g s, s = atBarrier 1 0 l none → ¬HasArrived s 3 g := by
    intro l g s e h; subst e; unfold HasArrived at h; exact nomatch (show (none : Option (Nat × Option (U64 × Bool))) = some _ from h)
  refine ⟨⟨rfl, .inl rfl, fun g => hn _ g _ rfl, ⟨twoTasks, rfl, by decide⟩⟩, ⟨rfl, .inl rfl, fun g => hn _ g _ rfl, ?_⟩, ⟨rfl, .inr ⟨0, none, rfl, by decide⟩⟩,
    (fun _ _ _ h => by rw [show started.self.role = .seed from rfl] at h; cases h), ⟨rfl, by decide⟩, ⟨by unfold HasArrived; decide, by decide⟩, ⟨by unfold HasArrived; decide, by decide⟩⟩
  rintro ⟨l, h, h2⟩
  cases h
  exact absurd (h2 (0, 0) (by decide)) (by decide)
/-- At the first word of a window, and at a later one: with a DLGA outstanding, with a watch trap pending, with neither. -/
theorem test_hyp_own_window :
    started.self.winStart = started.pc
    ∧ (let s := { started with self := { started.self with winStart := 0, delegated := some (0, false, default, 0) } }
       s.self.winStart ≠ s.pc ∧ s.self.delegated.isSome = true)
    ∧ (let s := { started with self := { started.self with winStart := 0, watchTrap := some (⟨0x14, 0, 0, 0⟩, 0, 0) } }
       s.self.winStart ≠ s.pc ∧ s.self.delegated = none ∧ s.self.watchTrap = some (⟨0x14, 0, 0, 0⟩, 0, 0))
    ∧ (let s := { started with self := { started.self with winStart := 0 } }
       s.self.winStart ≠ s.pc ∧ s.self.delegated = none ∧ s.self.watchTrap = none) := by
  and_intros <;> decide

/-- `withG` with a predicate in p1 and indices in v2. -/
def lanes (l : List (BitVec 5 × Cap)) (p : Pred) : State := (withG l).setP 1 p
/-- Element sizes 1, 4 and 8, the first and the last lane active; VLDB through a capability of its bytes alone; strided and indexed lanes. -/
theorem test_hyp_vector_accesses :
    (let s := lanes [(1, root pad), (2, .zero)] (2 ^ 31 + 1)
     LanesPass s (s.g 1) .r false true 4 (active 32 (s.p 1)) (eaUnit s 1 2 4) ∧ LanesPass s (s.g 1) .w true true 4 (active 32 (s.p 1)) (eaUnit s 1 2 4)
       ∧ LanesPass s (s.g 1) .r false true 4 (active 32 (s.p 1)) (eaIndex s 4 1 2 4) ∧ LanesPass s (s.g 1) .w true true 4 (active 32 (s.p 1)) (eaIndex s 4 1 2 4))
    ∧ (let s := lanes [(1, root pad), (2, .zero)] (2 ^ 127 + 1)
       LanesPass s (s.g 1) .r false true 1 (active 128 (s.p 1)) (eaUnit s 1 2 1) ∧ LanesPass s (s.g 1) .w true true 1 (active 128 (s.p 1)) (eaUnit s 1 2 1))
    ∧ (let s := lanes [(1, root pad), (2, root 16)] (2 ^ 15 + 1)
       LanesPass s (s.g 1) .r false true 8 (active 16 (s.p 1)) (eaStride s 1 2) ∧ LanesPass s (s.g 1) .w true true 8 (active 16 (s.p 1)) (eaStride s 1 2))
    ∧ (let s := lanes [(1, small 0x800 0 (pad + 60)), (2, .zero)] (2 ^ 31)
       LanesPass s (s.g 1) .r false true 4 ((active 32 (s.p 1)).take 1) (fun _ => s.x 1 + s.x 2)) := by
  unfold LanesPass Clear; and_intros <;> decide +kernel
/-- The lowest of two lanes out of bounds, and the lowest of two misaligned lanes. -/
theorem test_hyp_vector_traps :
    (let s := lanes [(1, small 0xC00 0 (pad + 56)), (2, .zero)] 15
     let out (j : Nat) : Prop := ¬((s.g 1).bounds.base ≤ (eaUnit s 1 2 4 j).toNat ∧ ((eaUnit s 1 2 4 j).toNat : Int) + 4 ≤ (s.g 1).bounds.top)
     (s.g 1).tag = true ∧ (s.g 1).otype = 0 ∧ s.revokedAddr (s.g 1).bounds.base.toNat = false ∧ (s.g 1).holds .r = true ∧ (s.g 1).holds .w = true
       ∧ s.self.sent = [] ∧ 2 ∈ active 32 (s.p 1) ∧ out 2 ∧ ∀ m ∈ active 32 (s.p 1), m < 2 → ¬out m)
    ∧ (let s := lanes [(1, small 0xC00 0 (pad + 2)), (2, .zero)] 12
       let out (j : Nat) : Prop := ¬((s.g 1).bounds.base ≤ (eaUnit s 1 2 4 j).toNat ∧ ((eaUnit s 1 2 4 j).toNat : Int) + 4 ≤ (s.g 1).bounds.top)
       (∀ j ∈ active 32 (s.p 1), ¬out j) ∧ 2 ∈ active 32 (s.p 1) ∧ (eaUnit s 1 2 4 2).toNat % 4 ≠ 0
         ∧ ∀ m ∈ active 32 (s.p 1), m < 2 → ¬(eaUnit s 1 2 4 m).toNat % 4 ≠ 0) := by
  and_intros <;> decide +kernel

/-- Rounding: any numerator and denominator. Conversions: a NaN, an infinity, a zero and a number of FP8, an integer field. -/
theorem test_hyp_numbers :
    ((.f32 : Fmt) ∈ fmts ∧ 0 < 1 ∧ 0 < 3) ∧ (Fmt.e4m3.decode 0x7F = .nan false ∧ Fmt.e5m2.decode 0xFC = .inf true)
    ∧ (∃ n e, Fmt.e4m3.decode 0x80 = .fin n 0 e) ∧ (∃ n m e, Fmt.e4m3.decode 0x7E = .fin n m e ∧ m ≠ 0)
    ∧ ((0 : Nat) < 2 ^ 8 ∧ asInt 8 true 0 = 0) ∧ ((255 : Nat) < 2 ^ 8 ∧ asInt 8 true 255 ≠ 0) := by
  refine ⟨by decide, ⟨rfl, rfl⟩, ⟨_, _, rfl⟩, ⟨_, _, _, rfl, by decide⟩, by decide, by decide⟩
/-- Groups of 32 and of 128: finite elements, and a NaN in the last element of the last register. -/
theorem test_hyp_quantisation :
    (Instr.vquant 1 28 3 2 1).wf = true ∧ (Instr.vdeq 28 1 3 2 1).wf = true
    ∧ (∀ i, i < 32 → ¬∀ n m e, flo .f32 (started.v (31 + BitVec.ofNat 5 (i / 32))) (i % 32) ≠ .fin n m e)
    ∧ (let s := started.setV 31 (BitVec.ofNat 1024 (0x7FC00000 * 2 ^ 992))
       ∃ i, i < 128 ∧ ∀ n m e, flo .f32 (s.v (28 + BitVec.ofNat 5 (i / 32))) (i % 32) ≠ .fin n m e) := by
  refine ⟨by decide, by decide, ?_, ⟨127, by decide, ?_⟩⟩
  · intro i hi h
    have : ∀ i, i < 32 → flo .f32 (started.v (31 + BitVec.ofNat 5 (i / 32))) (i % 32) = .fin false 0 (-149) := by decide +kernel
    exact h _ _ _ (this i hi)
  · intro n m e h
    have : flo .f32 ((started.setV 31 (BitVec.ofNat 1024 (0x7FC00000 * 2 ^ 992))).v (28 + BitVec.ofNat 5 (127 / 32))) (127 % 32) = .nan false := by decide +kernel
    rw [this] at h; cases h

/-- The tile of shape 2 × 128 in S8, of 1 × 128 × 16 bits, and shapes that are not valid; a locked tile; another slot. -/
def shaped (k : Fin 8) (w : U64) (s : State) : State := s.putCore { s.myCore with shapes := s.myCore.shapes.set k w }
def validShape (w : Nat) : Prop :=
  w / 2 ^ 16 % 2 ^ 4 < 8 ∧ (w % 2 ^ 8 + 1) * (w / 2 ^ 8 % 2 ^ 8 + 1) * fmtBits (w / 2 ^ 16 % 2 ^ 4) ≤ 2 ^ 16
    ∧ (w / 2 ^ 8 % 2 ^ 8 + 1) * fmtBits (w / 2 ^ 16 % 2 ^ 4) % 8 = 0
/-- A loom of bench 0 that the core in seat 0 leases, with a command queued that reads tile 2. -/
def leased (st : BitVec 2) (l : Loom) : State :=
  let s := started.putLoom l
  s.putCore { s.myCore with lease := { Lease.none with state := st, request := 0x10000, handler := small 0x200 5 pad } }
def busyLoom : Loom := { Loom.blank 0 0 with holder := some 0, left := 3, queue := [{ ta := 2, tb := 3, pair := 1, zp := false, opA := (0, 0, 0), opB := (0, 0, 0) }], clear := false }
theorem test_hyp_tiles :
    ({ started with self := { started.self with idx := 9 } } : State).self.idx ≠ 0
    ∧ (started.self.idx = 0 ∧ (leased 2 busyLoom).tileLocked 0 2 = true ∧ (leased 2 busyLoom).tileLocked 0 4 = false)
    ∧ (let s := shaped 7 0x47F01 (withG [(1, root pad), (2, .zero)])
       validShape (s.shape 7).toNat ∧ s.tileLocked s.self.core 7 = false
         ∧ LanesPass s (s.g 1) .r false false 128 (List.range 2) (fun r => s.x 1 + BitVec.ofNat 64 r * 128)
         ∧ LanesPass s (s.g 1) .w true false 128 (List.range 2) (fun r => s.x 1 + BitVec.ofNat 64 r * 128))
    ∧ ¬validShape 0x8FF00 ∧ ¬validShape 0x4FFFF ∧ ¬validShape 0x60001
    ∧ (let s := withG [(1, root pad)]; LanesPass s (s.g 1) .r false false 128 [0] (fun _ => s.x 1)) := by
  unfold LanesPass Clear validShape; and_intros <;> decide +kernel

/-- A lease handler entry, and a request for loom 0 by seat 0 with a budget of 3 and a mask of seats 0 and 47. -/
def handlerEntry : Cap := small 0x200 5 pad
def request (loom : Nat) : U64 := BitVec.ofNat 64 (loom + 2 ^ 9 + 2 ^ 16 + 2 ^ 63)
def asking (loom : Nat) (l : Loom) : State := (withG [(1, { bits := 0#64 ++ request loom, tag := false }), (2, handlerEntry)]).putLoom l
/-- Granted; each check of the entry; each check of the request; a free loom, a loom with 8 rows left, a held loom. -/
theorem test_hyp_leases :
    Leasing { (leased 1 busyLoom) with self := { (leased 1 busyLoom).self with park := .grant 1 2 } } ∧ ¬Leasing started ∧ Cap.zero.tag = false ∧ ((root pad).tag = true ∧ (root pad).otype ≠ 5)
    ∧ (handlerEntry.tag = true ∧ handlerEntry.otype = 5 ∧ (swept started).revokedAddr handlerEntry.bounds.base.toNat = true)
    ∧ Handler started handlerEntry
    ∧ (TurnedAway started 0x4000 5 ∧ TurnedAway started 0x10003 1 ∧ TurnedAway started 0x1FFFF0000 2 ∧ TurnedAway started 0 2
      ∧ TurnedAway (leased 3 busyLoom) 0x10000 3
      ∧ TurnedAway (started.putEntry { Entry.atReset (mkRes 1 47) with holder := 2 }) (request 0) 4)
    ∧ (let s := asking 0 (Loom.blank 0 0)
       Handler s (s.g 2) ∧ Asks s (s.x 1) ∧ FreeLoom (loomOf s (s.x 1)))
    ∧ (let s := asking 2 { Loom.blank 0 2 with drains := [{ rows := List.replicate 8 ⟨0, [], 0⟩, format := 0, budget := false, seats := [], lease := .none, holder := 0, number := 1, w := 0, r := 8, c := 1, discarded := false }] }
       Asks s (s.x 1) ∧ FreeLoom (loomOf s (s.x 1)))
    ∧ (let s := asking 1 { Loom.blank 0 1 with holder := some 5 }
       Asks s (s.x 1) ∧ (loomOf s (s.x 1)).holder ≠ none) := by
  refine ⟨⟨by decide +kernel, 1, 2, rfl⟩, fun h => absurd h.1 (by decide +kernel), ?_⟩
  and_intros <;> (try unfold TurnedAway) <;> decide +kernel

/-- Each state of the lease; a clear loom and one that is not. -/
theorem test_hyp_lease_commands :
    started.self.idx = 0 ∧ (leased 2 busyLoom).myCore.lease.state = 2 ∧ (leased 3 busyLoom).myCore.lease.state = 3
    ∧ (leased 1 busyLoom).myCore.lease.state = 1 ∧ started.myCore.lease.state = 0
    ∧ (let s := leased 2 { busyLoom with queue := [], clear := true }; (heldLoom (afterQueue s)).clear = true)
    ∧ (let s := leased 2 { busyLoom with queue := [] }; (heldLoom (afterQueue s)).clear = false)
    ∧ (0 : U64).toNat % 4 ≠ 3 ∧ (3 : U64).toNat % 4 = 3 := by
  and_intros <;> decide +kernel

/-- S8 tiles 2 × 64 and 64 × 1 that fit pair 6, with three commands queued, with four, and none left to count; shapes that do not fit. -/
def fitting (n : Nat) : State :=
  shaped 3 0x4003F (shaped 2 0x43F01 (leased 2 { busyLoom with queue := List.replicate n { ta := 2, tb := 3, pair := 6, zp := false, opA := (0, 0, 0), opB := (0, 0, 0) } }))
theorem test_hyp_matrix_commands :
    (let s := fitting 3
     let k := 6
     s.self.idx = 0 ∧ s.myCore.lease.state = 2 ∧ (heldLoom s).left ≠ 0 ∧ validShape (s.shape 2).toNat ∧ validShape (s.shape 3).toNat
       ∧ ((s.shape 2).toNat / 2 ^ 16 % 2 ^ 4 = (pairFormats k).1 ∧ (s.shape 3).toNat / 2 ^ 16 % 2 ^ 4 = (pairFormats k).2)
       ∧ (s.shape 2).toNat / 2 ^ 8 % 2 ^ 8 = (s.shape 3).toNat % 2 ^ 8 ∧ (s.shape 2).toNat / 2 ^ 8 % 2 ^ 8 + 1 ≤ pairKMax k
       ∧ (heldLoom s).queue.length < 4 ∧ shapesFit k (s.shape 2) (s.shape 3) = true)
    ∧ 4 ≤ (heldLoom (fitting 4)).queue.length ∧ (pairFormats 6).1 ≠ (0 : U64).toNat / 2 ^ 16 % 2 ^ 4
    ∧ started.myCore.lease.state = 0 ∧ (leased 1 busyLoom).myCore.lease.state = 1 := by
  unfold validShape; and_intros <;> decide +kernel
theorem test_hyp_array_arithmetic : CellsListed busyLoom ∧ shapesFit 6 0x43F01 0x4003F = true := by
  unfold CellsListed; decide +kernel


/-- A task of a launch with chain registers (predecessor, successor, operation, registers) and messages held for its launch. -/
def chained (lcn : Nat) (a b c d : U64) (l : Launch) (m : List ChainMsg) : State :=
  let s : State := { started with self := { started.self with role := .launch 7 lcn 0 }, launches := [l], chainMsgs := m }
  s.putCore { s.myCore with chain := #v[a, b, c, d] }
/-- `twoTasks` on two seats; after its task 0 has ended; on two devices, with two seats on each; that launch with its asked entry given. -/
def onTwoSeats : Launch := { twoTasks with w2 := 1 }
def zeroEnded : Launch := { onTwoSeats with ended := [(0, 0)] }
def onTwoDevices : Launch := { onTwoSeats with w2 := 1 + 2 ^ 13 }
def entryGiven : Launch := { onTwoDevices with asked := [(1, 2, 0)], granted := [(1, 2, 0)] }
def noOne : U64 := 0x8000000000000000
def aMessage (source target n : Nat) : ChainMsg := { launch := 7, stage := 0, source := source, target := target, regs := List.replicate n 0 }
def messagesFor (s : State) (target : Nat) : List ChainMsg := s.chainMsgs.filter (fun m => m.launch == 7 && m.stage == 0 && m.target == target)
/-- Configurations at the ends of their ranges; a member outside the launch; alone; with a predecessor that has, has not, and never will send; with a
successor with and without room for a message, here and on another device. -/
theorem test_hyp_chains :
    (∀ a b c, started.self.role ≠ .launch a b c)
    ∧ (let s := chained 1 noOne noOne 0 0x1808 onTwoSeats []
       s.self.role = .launch 7 1 0 ∧ s.launch 7 = some onTwoSeats ∧ ChainLegal s ∧ chainSide s.myCore.chain[0] = none ∧ chainSide s.myCore.chain[1] = none)
    ∧ ¬ChainLegal (chained 1 noOne noOne 3 1 onTwoSeats []) ∧ ¬ChainLegal (chained 1 noOne noOne 0 0 onTwoSeats [])
    ∧ ¬ChainLegal (chained 1 noOne noOne 0 9 onTwoSeats []) ∧ ¬ChainLegal (chained 1 noOne noOne 0 0x1908 onTwoSeats [])
    ∧ (let s := chained 1 2 noOne 0 1 onTwoSeats []
       ChainLegal s ∧ chainSide s.myCore.chain[0] = some 2 ∧ onTwoSeats.shops * onTwoSeats.benchesN * onTwoSeats.seats ≤ 2)
    ∧ (let s := chained 1 0 noOne 2 1 onTwoSeats []
       ChainLegal s ∧ chainSide s.myCore.chain[0] = some 0 ∧ chainSide s.myCore.chain[1] = none
         ∧ 0 < onTwoSeats.shops * onTwoSeats.benchesN * onTwoSeats.seats ∧ messagesFor s 1 = [] ∧ (0, 0) ∉ onTwoSeats.ended ∧ (0, 0) ∉ onTwoSeats.farEnded)
    ∧ (0, 0) ∈ zeroEnded.ended
    ∧ (let s := chained 1 0 noOne 1 8 onTwoSeats [aMessage 0 1 8]
       ChainLegal s ∧ s.chainMsgs.find? (fun m => m.launch == 7 && m.stage == 0 && m.target == 1 && m.source == 0) = some (aMessage 0 1 8)
         ∧ (aMessage 0 1 8).regs.length = chainCount s)
    ∧ (let s := chained 0 noOne 1 0 1 onTwoSeats [aMessage 0 1 1]
       ChainLegal s ∧ chainSide s.myCore.chain[0] = none ∧ chainSide s.myCore.chain[1] = some 1 ∧ (1, 0) ∉ onTwoSeats.ended
         ∧ onTwoSeats.shop = some (1 / (onTwoSeats.benchesN * onTwoSeats.seats)) ∧ (1, 0, 0) ∈ onTwoSeats.placed ∧ (messagesFor s 1).length + 0 < 2
         ∧ onTwoSeats.given = [])
    ∧ 2 ≤ (messagesFor (chained 0 noOne 1 0 1 onTwoSeats [aMessage 0 1 1, aMessage 0 1 1]) 1).length
    ∧ (let s := chained 1 noOne 2 0 1 onTwoDevices []
       ChainLegal s ∧ chainSide s.myCore.chain[1] = some 2 ∧ 2 < onTwoDevices.shops * onTwoDevices.benchesN * onTwoDevices.seats
         ∧ onTwoDevices.shop ≠ some (2 / (onTwoDevices.benchesN * onTwoDevices.seats)) ∧ (1, 2, 0) ∉ onTwoDevices.granted)
    ∧ (1, 2, 0) ∈ entryGiven.granted := by
  refine ⟨fun _ _ _ h => ?_, ?_⟩
  · rw [show started.self.role = .seed from rfl] at h; cases h
  · and_intros <;> (try unfold ChainLegal) <;> decide +kernel

/-- `q` bound to context `ci` under generation `gen`, with result words; the context has `n` blocks waiting; words 0 to 3 of a block in g8 to g11. -/
def block (code : Nat) : Cmd := { number := 1, w0 := .zero, w1 := .zero, w2 := .zero, w3 := { bits := BitVec.ofNat 128 code, tag := false }, via := none, doomed := none }
def bound (q : Fin 6) (ci gen n : Nat) (w : List U128) (code : Nat) : State :=
  let s := withG [(8, root pad), (9, root pad), (11, { bits := BitVec.ofNat 128 code, tag := false })]
  (s.putCore { s.myCore with qbind := s.myCore.qbind.set q (some (ci, gen)), results := s.myCore.results.set q w }).putCtx
    { Ctx.blank ci with waiting := List.replicate n (block 1) }
/-- Stage queues 0 and 1, bound to q6 and q7, with `n` items each. -/
def staged (n : Nat) (ended : Bool) : State :=
  { started with
    self := { started.self with q6 := some 0, q7 := some 1 }
    stageqs := [{ id := 0, launch := 7, lcn := 0, stage := 0, items := List.replicate n .zero, producerEnded := ended }
      , { id := 1, launch := 7, lcn := 0, stage := 1, items := List.replicate n .zero, producerEnded := ended }] }
/-- PUSH of a copy to a context with room, full, unbound, and of another holder; MOVQ and QPOP of stage queues at 0, 15 and 16 items; a result word;
BINDQ of q6, to nothing, of an untagged value, of a capability, of a handle that is stale and of one that is current. -/
theorem test_hyp_queue_registers :
    (let s := bound 5 0x2000 0 31 [7] 1
     bindingOf s 5 = some (0x2000, 0) ∧ (s.ctx 0x2000).gen = 0 ∧ WordPasses s (wordUse 1).1 (s.g 8) ∧ WordPasses s (wordUse 1).2 (s.g 9)
       ∧ (s.ctx 0x2000).waiting.length < 32 ∧ wordsOf s 5 = [7] ∧ (∀ x ∈ (s.ctx 0x2000).heldResults, x.1 ≠ s.self.core ∨ x.2.1 ≠ 5))
    ∧ 32 ≤ ((bound 5 0x2000 0 32 [] 1).ctx 0x2000).waiting.length
    ∧ bindingOf started 0 = none ∧ bindingOf started 7 = none
    ∧ (let s := bound 0 0x2000 1 0 [] 1; bindingOf s 0 = some (0x2000, 1) ∧ (s.ctx 0x2000).gen ≠ 1)
    ∧ stageBound started started.self.q7 = none
    ∧ (∃ q, stageBound (staged 16 false) (staged 16 false).self.q7 = some q ∧ 16 ≤ q.items.length)
    ∧ (∃ q, stageBound (staged 15 false) (staged 15 false).self.q7 = some q ∧ q.items.length < 16)
    ∧ (∃ q c l, stageBound (staged 1 false) (staged 1 false).self.q6 = some q ∧ q.items = c :: l)
    ∧ (∃ q, stageBound (staged 0 false) (staged 0 false).self.q6 = some q ∧ q.items = [] ∧ q.producerEnded = false)
    ∧ (∃ q, stageBound (staged 0 true) (staged 0 true).self.q6 = some q ∧ q.items = [] ∧ q.producerEnded = true)
    ∧ (6 ≤ (6 : BitVec 3).toNat ∧ (5 : BitVec 3).toNat < 6 ∧ (1 : BitVec 5) ≠ 0 ∧ Cap.zero.tag = false ∧ (root pad).tag = true ∧ (root pad).otype ≠ 4)
    ∧ (let h := ctxHandle 0x2000 1
       h.tag = true ∧ h.otype = 4 ∧ started.revokedAddr h.bounds.base.toNat = false ∧ started.ctxCurrent (h.addr.toNat % 2 ^ 15) (h.addr.toNat / 2 ^ 15) = false)
    ∧ (let h := ctxHandle 0x2000 0
       h.tag = true ∧ h.otype = 4 ∧ started.revokedAddr h.bounds.base.toNat = false ∧ started.ctxCurrent (h.addr.toNat % 2 ^ 15) (h.addr.toNat / 2 ^ 15) = true) := by
  refine ⟨?_, by decide +kernel, rfl, rfl, by decide +kernel, rfl, ⟨_, rfl, by decide⟩, ⟨_, rfl, by decide⟩, ⟨_, _, _, rfl, rfl⟩, ⟨_, rfl, rfl, rfl⟩,
    ⟨_, rfl, rfl, rfl⟩, by decide, by decide +kernel, by decide +kernel⟩
  and_intros <;> (try unfold WordPasses) <;> decide +kernel

/-- A record in the event queue of core 0; a queue that the owner may not use. -/
def aRecord : EvRec := { kind := 1, status := 0, source := 0, number := 5, d0 := 1, d1 := 2 }
def withRecord : State := started.putCore { started.myCore with events := [aRecord] }
def parkedOn (p : Park) (s : State) : State := { s with self := { s.self with park := p } }
/-- A counter reached and one ahead; records and none; a wait whose limit has come; bindings and queues that are missing. -/
theorem test_hyp_timelines :
    bindingOf started 15 = none ∧ (let s := bound 0 0x2000 1 0 [] 1; bindingOf s 0 = some (0x2000, 1) ∧ s.ctxCurrent 0x2000 1 = false)
    ∧ (let s := bound 0 0x2000 0 0 [] 1; bindingOf s 0 = some (0x2000, 0) ∧ s.ctxCurrent 0x2000 0 = true ∧ (s.x 0).toNat ≤ (s.ctx 0x2000).counter
        ∧ (s.ctx 0x2000).counter < (s.x 8).toNat)
    ∧ ¬HasEvents (started.putEntry { Entry.atReset (mkRes 10 0) with holder := 2 })
    ∧ (HasEvents started ∧ started.myCore.events = [] ∧ ∀ e l, started.self.park ≠ .event e l)
    ∧ (HasEvents withRecord ∧ withRecord.myCore.events ≠ [])
    ∧ (let s := parkedOn (.event 4 (some 0)) started
       HasEvents s ∧ s.myCore.events = [] ∧ s.self.park = .event 4 (some 0) ∧ 0 ≤ s.cycle) := by
  unfold HasEvents
  refine ⟨rfl, by decide +kernel, by decide +kernel, by decide +kernel, ⟨by decide +kernel, by decide +kernel, fun _ _ h => ?_⟩, by decide +kernel, by decide +kernel⟩
  rw [show started.self.park = .no from rfl] at h; cases h

/-- A message entry and a delegation entry; place words of core 4,607, of a bench too far, and of slot 15. -/
def placeWord (slot bench seat : Nat) : Cap := { bits := BitVec.ofNat 128 (seat + bench * 2 ^ 6 + slot * 2 ^ 32), tag := false }
def sender (entry : Cap) (place : Cap) : State := withG [(1, entry), (2, place), (3, root pad)]
/-- Owner 2 holds core 4,607 and a save-area frame. -/
def heaped : State :=
  ((started.putOwner { Owner.house with id := 2, saveFrame := some 3 }).putEntry { Entry.atReset (mkRes 1 4607) with holder := 2 }).putEntry
    { Entry.atReset (mkRes 3 3) with holder := 2 }
/-- Entries of each kind of failure; a core with an empty and with a full inbox; a tail of 256 bytes and one of 4,096; SPAWN to slots 7 and 15, to a
core of another owner, and at inline depth 15. -/
theorem test_hyp_messages :
    (started.self.sent = [] ∧ Cap.zero.tag = false ∧ (root pad).tag = true ∧ (root pad).otype ≠ 3)
    ∧ (let s := sender (small 0x200 3 pad) (placeWord 0 96 0); EntryOk s (s.g 1) 3 ∧ 95 < (s.x 2).toNat / 2 ^ 6 % 2 ^ 7)
    ∧ (let s := sender (small 0x200 3 pad) (placeWord 0 95 47)
       s.self.tail = none ∧ EntryOk s (s.g 1) 3 ∧ NamesHere s (s.x 2) 4607 0 ∧ (s.core 4607).overflow = false ∧ Roomy (s.core 4607) 4096
         ∧ LanesPass s (s.g 3) .r false false 256 [0] (fun _ => s.x 3) ∧ LanesPass s (s.g 3) .r false false 4096 [0] (fun _ => s.x 3))
    ∧ ¬Roomy { Core.blank 4607 with inbox := List.replicate 64 (letter started .zero 0 false []) } 0 ∧ ({ Core.blank 0 with overflow := true } : Core).overflow = true
    ∧ started.heapRoom (started.coreUser 0) (letter started .zero 0 false []) = false ∧ heaped.heapRoom (heaped.coreUser 4607) (letter started .zero 0 false []) = true
    ∧ (let s := sender (small 0x200 0 pad) (placeWord 15 95 47)
       Enterable s (s.g 1) ∧ (∀ r ∈ [(4 : BitVec 5), 5, 6, 7], (s.g r).tag = true → s.revokedAddr (s.g r).bounds.base.toNat = false)
         ∧ NamesHere s (s.x 2) 4607 15 ∧ s.coreUser 4607 = s.self.owner)
    ∧ (let s := sender (small 0x200 0 pad) (placeWord 7 0 0); NamesHere s (s.x 2) 0 7)
    ∧ (started.putEntry { Entry.atReset (mkRes 1 4607) with holder := 2 }).coreUser 4607 ≠ started.self.owner
    ∧ (({ started with self := { started.self with depth := 15 } } : State).self.depth = 15 ∧ started.self.depth ≠ 15) := by
  unfold EntryOk LanesPass Clear Roomy; and_intros <;> decide +kernel

/-- A request outstanding, its reply arrived; room and no room for another; the steward's slot with a request to answer. -/
def aReply : Reply := { txn := 0, status := 0, value := .zero, w4 := .zero, w5 := .zero, w6 := .zero, w7 := .zero, detail := 0 }
def delegating (async : Bool) : State :=
  { started with self := { started.self with
      delegated := some (1, async, letter started .zero 0 false [], 0), delegateReply := some aReply } }
def stewarding : State :=
  { started with self := { started.self with idx := 8, role := .steward, answers := some (letter started .zero 0 false []) } }
theorem test_hyp_delegation :
    (delegating false).self.delegated ≠ none
    ∧ (let s := sender (small 0x200 2 pad) (placeWord 0 95 47)
       s.self.delegated = none ∧ EntryOk s (s.g 1) 2 ∧ NamesHere s (s.x 2) 4607 0 ∧ s.myCore.replyEntries.length < 8 ∧ (s.core 4607).steward.length < 32)
    ∧ (∀ async, (delegating async).self.delegated = some (1, async, letter started .zero 0 false [], 0) ∧ (delegating async).self.delegateReply = some aReply
        ∧ (letter started .zero 0 false []).replyLocal = true)
    ∧ started.self.idx ≠ 8
    ∧ (stewarding.self.idx = 8 ∧ stewarding.self.role = .steward ∧ stewarding.self.delegated = none ∧ stewarding.self.answers = some (letter started .zero 0 false [])
        ∧ stewarding.myCore.steward = []) := by
  unfold EntryOk
  refine ⟨by decide +kernel, by and_intros <;> decide +kernel, fun _ => ⟨rfl, rfl, rfl⟩, by decide +kernel, ⟨rfl, rfl, rfl, rfl, rfl⟩⟩

/-- Ends of a task at each depth; the yields and their causes; the porter with a message, with room for it and without. -/
def asTask (idx depth : Nat) (role : Role) (park : Park) : State :=
  let s := withG [(1, root pad)]
  { s with self := { s.self with idx := idx, depth := depth, role := role, park := park } }
def portering (n : Nat) : State :=
  let s := asTask 9 0 .porter .no
  s.putCore { s.myCore with overflow := true, overflowed := [(letter s .zero 0 false [], [0])], inbox := List.replicate n (letter s .zero 0 false []) }
theorem test_hyp_tasks :
    (asTask 8 0 .steward .no).self.idx = 8 ∧ ((asTask 7 0 .spawned .no).self.depth = 0 ∧ (asTask 7 0 .spawned .no).self.role = .spawned
      ∧ (asTask 7 0 .spawned .no).self.delegated = none)
    ∧ ((asTask 7 15 .spawned .no).self.depth ≠ 0 ∧ Enterable (asTask 7 15 .spawned .no) ((asTask 7 15 .spawned .no).g 1))
    ∧ (∀ e l x, started.self.park ≠ .yield e l x) ∧ started.self.coopDue = false
    ∧ ({ started with self := { started.self with coopDue := true } } : State).self.coopDue = true
    ∧ ((3 : BitVec 2) ≠ 0 ∧ ∀ c, some 0 = some c → c ≤ started.cycle) ∧ (∀ c, some 1 = some c → started.cycle < c)
    ∧ started.self.idx ≠ 9 ∧ (asTask 9 0 .porter .no).myCore.overflowed = []
    ∧ ((portering 63).self.idx = 9 ∧ (portering 63).myCore.overflowed = [(letter (asTask 9 0 .porter .no) .zero 0 false [], [0])]
      ∧ Roomy (portering 63).myCore 0) ∧ ¬Roomy (portering 64).myCore 0 := by
  unfold Roomy Enterable
  refine ⟨rfl, ⟨rfl, rfl, rfl⟩, ⟨by decide, by decide +kernel⟩, fun _ _ _ h => ?_, by decide +kernel, rfl, ⟨by decide, ?_⟩, ?_, by decide +kernel,
    by decide +kernel, ⟨rfl, rfl, by decide +kernel⟩, by decide +kernel⟩
  · rw [show started.self.park = .no from rfl] at h; cases h
  · rintro c h; cases h; decide +kernel
  · rintro c h; cases h; decide +kernel

/-- RDC: a party to host queue 0 and none; the owner's registers; an unassigned number. -/
theorem test_hyp_control_register_reads :
    hostqParty started ∧ ¬hostqParty (started.putEntry { Entry.atReset (mkRes 7 0) with holder := 2 }) ∧ started.owner started.self.owner = some Owner.house
    ∧ ((0x128 : BitVec 12) ∉ ([0x001, 0x108, 0x130] : List (BitVec 12)) ∧ (∀ lo ∈ [0x100, 0x120], (0x128 : BitVec 12).toNat < lo ∨ lo + 8 ≤ (0x128 : BitVec 12).toNat)
      ∧ (0x128 : BitVec 12).toNat < 0x200) ∧ 255 < 256 := by
  unfold hostqParty; and_intros <;> decide +kernel
/-- WRC: tiles locked and not; monitors; handles, capabilities that derive and not; blocks that wait; a request to the assay core, busy, unfit, fit. -/
def monitored : State :=
  let e : Rights := { Rights.frameOwn 1 0 with frame := false, index := 3, place := 2, r := true }
  { started with rights := [e] }
theorem test_hyp_control_register_writes :
    (asTask 9 0 .spawned .no).self.idx ≠ 0 ∧ ((leased 2 busyLoom).self.idx = 0 ∧ (leased 2 busyLoom).tileLocked 0 3 = true)
    ∧ started.tileLocked started.self.core 7 = false
    ∧ (0x8 : U64).getLsbD 3 = true ∧ (0x7 : U64).getLsbD 3 = false
    ∧ (∃ k, Installs monitored 0x600010 0xFFFFFFFFFFFFFF08 k) ∧ (∀ k, ¬Installs monitored 0x600010 0x8 k)
    ∧ (hostqParty started ∧ (hostqOf started).blocks = [] ∧ (ctxHandle 0 0).otype = 4 ∧ started.ctxCurrent 0 0 = true)
    ∧ ((root pad).tag = true ∧ (root pad).otype = 0 ∧ (root pad).holds .en = true) ∧ (small 0x800 0 pad).holds .en = false
    ∧ (hostqOf (started.putHostq { HostQ.zero with blocks := [(0, 0, 0, 0)] })).blocks ≠ []
    ∧ ((Owner.house.assaystat.getLsbD 0 = false ∧ Authorises started (root pad) [.r, .w, .sc] (root pad).addr 2048 ∧ (root pad).addr.toNat % 16 = 0)
      ∧ ¬Authorises started (small 0xFF0 0 pad) [.r, .w, .sc] (small 0xFF0 0 pad).addr 2048 ∧ ({ Owner.house with assaystat := 1 } : Owner).assaystat.getLsbD 0 = true) := by
  refine ⟨by decide, ⟨rfl, by decide +kernel⟩, by decide +kernel, by decide, by decide, ⟨homeSlice { Rights.frameOwn 1 0 with frame := false, index := 3, place := 2 } 0x600010, ?_⟩, ?_,
    ?_, by decide +kernel, by decide +kernel, by decide +kernel, ?_⟩
  · exact ⟨by decide, by decide, by decide, 3, _, _, by decide +kernel, rfl, rfl, rfl, by decide, rfl, by decide +kernel⟩
  · rintro k ⟨h, _⟩; exact absurd h (by decide)
  · unfold hostqParty; decide +kernel
  · unfold Authorises; and_intros <;> decide +kernel

/-- A good vector for each class, and none; class 1; a watch trap at its settle point; a cooperative pre-emption; each kind of frame. -/
def vectored : State :=
  { started with self := { started.self with trapvec := root pad, upvec := root pad, coopVec := root pad, winDone := 0x7FFFFFFF, winStart := started.pc - 124
                                             afterTransfer := false, coopDue := true } }
def framed (kind cls : Nat) : State := { started with self := { started.self with tfclass := cut (cls + 2 ^ 8 * kind : Nat) } }
theorem test_hyp_traps :
    (vectored.self.class1 = false ∧ (∀ d b, vectored.self.park ≠ .grant d b) ∧ ∀ c ∈ [(0x01 : BitVec 6), 0x08, 0x15, 0x16], GoodVector (vectorOf vectored.self c))
    ∧ ¬GoodVector (vectorOf started.self 0x13) ∧ ({ started with self := { started.self with class1 := true } } : State).self.class1 = true
    ∧ (let s : State := { vectored with self := { vectored.self with watchTrap := some ({ cls := 0x14, addr := 0, lanes := 0, agent := 0 }, started.pc, 0)
                                                                     afterTransfer := true, coopDue := false } }
       s.self.role ≠ .free ∧ s.self.watchTrap = some ({ cls := 0x14, addr := 0, lanes := 0, agent := 0 }, started.pc, 0) ∧ s.self.afterTransfer = true
         ∧ s.self.replay = false ∧ s.self.delegated = none ∧ s.self.swLater = [] ∧ s.self.class1 = false ∧ GoodVector (vectorOf s.self 0x14))
    ∧ (vectored.self.role ≠ .free ∧ vectored.self.watchTrap = none ∧ vectored.self.coopDue = true ∧ vectored.self.hold = false ∧ vectored.self.sent = [] ∧ vectored.self.swLater = []
      ∧ vectored.self.delegated = none ∧ vectored.self.park.holding = false
      ∧ (vectored.pc - vectored.self.winStart).toNat / 4 = 31 ∧ vectored.self.winDone.getLsbD 31 = false)
    ∧ (∀ e l c, vectored.self.park ≠ .yield e l c)
    ∧ (frameKind (framed 1 0x13) = 1 ∧ frameKind (framed 2 0x08) = 2 ∧ frameKind (framed 3 0x15) = 3 ∧ frameKind (framed 0 0) = 0
      ∧ (framed 3 0x15).self.tfclass.toNat % 2 ^ 6 = 0x15 ∧ (framed 1 0x13).self.tfclass.toNat % 2 ^ 6 ≠ 0x15
      ∧ (framed 3 0x15).recovering (framed 3 0x15).self.core (framed 3 0x15).self.owner = false ∧ (framed 3 0x15).myCore.turn.phase.toNat < 2) := by
  unfold GoodVector
  refine ⟨⟨by decide +kernel, fun _ _ h => ?_, ?_⟩, by decide +kernel, rfl, ?_, ?_, fun _ _ _ h => ?_, ?_⟩
  · rw [show vectored.self.park = .no from rfl] at h; cases h
  · decide +kernel
  · and_intros <;> decide +kernel
  · and_intros <;> decide +kernel
  · rw [show vectored.self.park = .no from rfl] at h; cases h
  · and_intros <;> decide +kernel

/-! Holdings, mappings, swatches -/

/-- A core-time entry, or another resource, with a state, a holder and another party; owner 2 lives. -/
def twoOwners : State := started.putOwner { Owner.house with id := 2, heir := 1 }
def holding (id : U64) (st : HState) (holder other : U16) (f : Entry → Entry) : State :=
  let s := twoOwners.putEntry (f { Entry.atReset id with state := st, holder := holder, other := other })
  { s with us := 100 }
def termsTo (o : Nat) : U128 := BitVec.ofNat 128 (o + 5 * 2 ^ 64)
def way0 : U64 := mkRes 9 0
theorem test_hyp_holdings_offers :
    (¬JustFounded (holding way0 .held 1 0 id) ((holding way0 .held 1 0 id).entry way0)
      ∧ ¬JustFounded (holding way0 .held 2 0 id) ((holding way0 .held 2 0 id).entry way0))
    ∧ (let s := (holding way0 .held 2 0 id).putOwner { Owner.house with id := 2, heir := 1, founded := some (1, way0, 100) }
       Resting s (s.entry way0) ∧ (s.entry way0).state = .held ∧ JustFounded s (s.entry way0))
    ∧ (let s := holding way0 .held 1 0 id
     Resting s (s.entry way0) ∧ resValid way0 = true ∧ s.lapsed s.self.owner = false ∧ (s.entry way0).state = .held ∧ (s.entry way0).holder = s.self.owner
       ∧ ¬BadTerms s way0 (termsTo 2) false ∧ ¬BadTerms s way0 (termsTo 2) true ∧ ¬UnderSweep s way0)
    ∧ BadTerms started way0 0x20000 false ∧ BadTerms started way0 0 false ∧ BadTerms started way0 1 false ∧ BadTerms started way0 3 true
    ∧ BadTerms twoOwners (mkRes 12 5) 2 true ∧ BadTerms twoOwners way0 2 true
    ∧ ((holding way0 .lent 1 2 id).entry way0).state = .lent ∧ ((holding way0 .held 2 0 id).entry way0).holder ≠ started.self.owner
    ∧ (let s := holding way0 .offered 1 2 (fun e => { e with deadline := some 101 })
       Resting s (s.entry way0) ∧ (s.entry way0).state ≠ .held ∧ (s.entry way0).state ≠ .lent)
    ∧ (let s := swept started; UnderSweep s (mkRes 4 5))
    ∧ (let s : State := { started with rights := [{ Rights.frameOwn 1 3 with frame := false, sealedSeg := true, key := 4095 }] }; InUse s (mkRes 8 4095))
    ∧ ¬InUse started way0
    ∧ (resValid 0 = false ∧ (started.putOwner { Owner.house with lapsed := true }).lapsed 1 = true) := by
  unfold Resting NoLapse BadTerms UnderSweep
  refine ⟨⟨?_, ?_⟩, ⟨?_, ?_, _, rfl, ?_⟩, ?_, ?_, ?_, ?_, ?_, ?_, ?_, ?_, ?_, ?_, ?_, ?_, ?_, ?_⟩
  case refine_17 => exact .inl ⟨rfl, _, List.mem_singleton.2 rfl, rfl, rfl, rfl⟩
  case refine_18 =>
    rintro (⟨h, _⟩ | ⟨_, e, h, _⟩)
    · revert h; decide
    · rw [show started.rights = [] from rfl] at h; cases h
  case refine_1 => rintro ⟨o, h, h2⟩; cases h; revert h2; decide +kernel
  case refine_2 => rintro ⟨o, h, h2⟩; cases h; revert h2; decide +kernel
  all_goals and_intros <;> decide +kernel

/-- A change of holder that ACCEPT waits for; offers to and by the issuing owner, with a flags word in order and not; loans of each party, before and at
the end of their term, of a lapsed borrower; a core whose slot keeps its change of holder waiting. -/
def busyCore : State :=
  { holding (mkRes 1 5) .offered 2 1 id with others := [{ Slot.blank 5 0 with role := .spawned, owner := 2 }] }
theorem test_hyp_holdings_answers :
    (let s := parkedOn (.change way0) (holding way0 .held 1 0 id); s.self.park = .change way0 ∧ (s.entry way0).recovery = none)
    ∧ ((holding way0 .recalling 1 2 (fun e => { e with recovery := some ⟨1, 2, true, true, false, none, 0, false, 0, 0, false⟩ })).entry way0).recovery ≠ none
    ∧ started.self.park = .no
    ∧ (let s := holding way0 .offered 2 1 id
       Resting s (s.entry way0) ∧ resValid way0 = true ∧ s.lapsed s.self.owner = false ∧ (s.entry way0).state = .offered ∧ (s.entry way0).other = s.self.owner
         ∧ (s.entry way0).holder ≠ s.self.owner ∧ (0x10000 : U64) &&& ~~~0x10000 = 0 ∧ (0x20000 : U64) &&& ~~~0x10000 ≠ 0 ∧ Plain way0
         ∧ (((s.beginPassing (s.entry way0) .offered (passing 1 2 false false false false)).settleEntry way0).entry way0).recovery = none)
    ∧ (let e := busyCore.entry (mkRes 1 5)
       ((busyCore.beginPassing e .offered (passing 1 2 false false false false)).settleEntry (mkRes 1 5)).entry (mkRes 1 5) ≠ { e with recovery := none }
         ∧ (((busyCore.beginPassing e .offered (passing 1 2 false false false false)).settleEntry (mkRes 1 5)).entry (mkRes 1 5)).recovery.isSome = true)
    ∧ (let s := holding way0 .offeredLoan 1 2 id; (s.entry way0).state = .offeredLoan ∧ (s.entry way0).holder = s.self.owner ∧ (s.entry way0).other ≠ s.self.owner)
    ∧ (let s := holding way0 .lent 1 2 (fun e => { e with termEnd := some 101, termPosted := true })
       Resting s (s.entry way0) ∧ (s.entry way0).state = .lent ∧ (s.entry way0).holder = s.self.owner ∧ (s.entry way0).termEnd = some 101 ∧ present s < momentOf (s.entry way0) 101
         ∧ (s.entry way0).lapsedBorrower = false ∧ (s.entry way0).other ≠ s.self.owner)
    ∧ (let s := holding way0 .lent 1 2 (fun e => { e with termEnd := some 100, termPosted := true })
       Resting s (s.entry way0) ∧ ∀ t, (s.entry way0).termEnd = some t → present s < momentOf (s.entry way0) t → (s.entry way0).lapsedBorrower = true)
    ∧ (let s := holding way0 .lent 1 2 (fun e => { e with termEnd := some 101, termPosted := true, lapsedBorrower := true })
       ∀ t, (s.entry way0).termEnd = some t → present s < momentOf (s.entry way0) t → (s.entry way0).lapsedBorrower = true)
    ∧ (let s := holding way0 .lent 2 1 (fun e => { e with termEnd := some 101 })
       Resting s (s.entry way0) ∧ (s.entry way0).other = s.self.owner ∧ (s.entry way0).holder ≠ s.self.owner)
    ∧ (let s := holding way0 .held 1 0 id
       (s.entry way0).state ≠ .lent ∧ (s.entry way0).state ≠ .offered ∧ (s.entry way0).state ≠ .offeredLoan) := by
  unfold Resting NoLapse Plain
  refine ⟨by decide +kernel, by decide +kernel, rfl, ?_, ?_, by decide +kernel, ?_, ⟨?_, ?_⟩, ?_, ?_, by decide +kernel⟩
  · and_intros <;> decide +kernel
  · and_intros <;> decide +kernel
  · and_intros <;> decide +kernel
  · and_intros <;> decide +kernel
  · intro t h; rw [show ((holding way0 .lent 1 2 (fun e => { e with termEnd := some 100, termPosted := true })).entry way0).termEnd = some 100 from rfl] at h
    cases h; decide +kernel
  · intro s t _ _; rfl
  · refine ⟨⟨by decide +kernel, by decide +kernel, fun h => absurd h (by decide +kernel), fun _ => .inr fun t h => ?_⟩, by decide +kernel⟩
    rw [show ((holding way0 .lent 2 1 (fun e => { e with termEnd := some 101 })).entry way0).termEnd = some 101 from rfl] at h
    cases h; decide +kernel

/-- A charter at the frame's base, for a seed on core 5 or on core 0, where a slot runs. -/
def chartered (core : Nat) : State :=
  let s := withG [(1, root pad)]
  let put (s : State) (k a b : Nat) : State := s.storeCap (pad.toNat + 16 * k) { bits := BitVec.ofNat 128 (a + b * 2 ^ 64), tag := false } false
  ((put (put (put s 0 1 (mkRes 1 core).toNat) 1 (mkRes 10 5).toNat 0) 2 0 0).storeCap (pad.toNat + 48) (root pad) true)
def asOwner (o : U16) (s : State) : State := { s with self := { s.self with owner := o } }
def lapsedTwo (heir : U16) : State := started.putOwner { Owner.house with id := 2, heir := heir, lapsed := true }
/-- The charter's words, as g1 loads them. -/
def charterAt (s : State) (k : Nat) : Cap :=
  let m := s.localAddr (s.x 1).toNat + 16 * k
  { capOf s m with tag := s.loadedTag (s.g 1) (capOf s m) (s.rightC m) (s.x 1) }
theorem test_hyp_owners :
    (let s := chartered 5
     Authorises s (s.g 1) [.r] (s.x 1) 64 ∧ (s.x 1).toNat % 16 = 0 ∧ Clear s (s.x 1) (accessOf s (s.x 1) 64 true false false) ∧ s.lapsed s.self.owner = false
       ∧ s.freeOwnerSlot s.self.owner = some 2 ∧ GoodCharter s (charterAt s) 2 ∧ resIndex (charterField (charterAt s) 1) = 5 ∧ IdleCore s 5)
    ∧ (let s := chartered 0; GoodCharter s (charterAt s) 2 ∧ resKind (charterField (charterAt s) 1) = 1 ∧ resIndex (charterField (charterAt s) 1) = 0 ∧ ¬IdleCore s 0)
    ∧ ¬GoodCharter started (fun _ => .zero) 2
    ∧ (asOwner 2 twoOwners).freeOwnerSlot (asOwner 2 twoOwners).self.owner = none
    ∧ isHouse started ∧ ¬isHouse (asOwner 2 twoOwners) ∧ (asOwner 2 (lapsedTwo 1)).lapsed (asOwner 2 (lapsedTwo 1)).self.owner = true
    ∧ (∃ o, (asOwner 2 twoOwners).owner 2 = some o ∧ o.lapsed = false ∧ (asOwner 2 twoOwners).lapseDue o = false)
    ∧ (parkedOn (.claim 2 (some 4)) started).self.park = .claim 2 (some 4)
    ∧ (∃ o, twoOwners.owner 2 = some o ∧ o.lapsed = false) ∧ NoLapse twoOwners ∧ started.owner 3 = none
    ∧ (∃ o, (lapsedTwo 1).owner 2 = some o ∧ o.lapsed = true ∧ (lapsedTwo 1).successor o = (lapsedTwo 1).self.owner
        ∧ (((((lapsedTwo 1).wait (.claim o.id none)).beginDissolve o.id 1).endDissolve o.id).self.park = .claim 2 (some 1)))
    ∧ (let s := (lapsedTwo 1).putEntry { Entry.atReset (mkRes 1 5) with holder := 2 }
       let t : State := { s with others := [{ Slot.blank 5 0 with role := .spawned, owner := 2 }] }
       ∃ o, t.owner 2 = some o ∧ (((t.wait (.claim o.id none)).beginDissolve o.id 1).endDissolve o.id).self.park = .claim 2 none)
    ∧ (∃ o, (asOwner 3 (lapsedTwo 1)).owner 2 = some o ∧ o.lapsed = true ∧ (asOwner 3 (lapsedTwo 1)).successor o ≠ 3)
    ∧ (twoOwners.lives 2 = true ∧ twoOwners.lives 3 = false) := by
  unfold isHouse IdleCore NoLapse
  refine ⟨?_, ?_, ?_, by decide +kernel, by decide +kernel, by decide +kernel, by decide +kernel, ⟨_, rfl, rfl, by decide +kernel⟩, rfl, ⟨_, rfl, rfl⟩, by decide +kernel, by decide +kernel,
    ⟨_, rfl, rfl, by decide +kernel, by decide +kernel⟩, ⟨_, rfl, by decide +kernel⟩, ⟨_, rfl, rfl, by decide +kernel⟩, by decide +kernel⟩
  · unfold GoodCharter; and_intros <;> decide +kernel
  · unfold GoodCharter; and_intros <;> decide +kernel
  · rintro ⟨h, _⟩; revert h; decide +kernel

/-- A map word: R, W, X and C, a place, a 2 MiB page, a backing frame. -/
def mapWord (place : Nat) (frame : U64) : U128 := BitVec.ofNat 128 (0xF000 + place * 2 ^ 16 + 2 ^ 35 + frame.toNat * 2 ^ 64)
/-- An own entry of a segment with that word's attributes. -/
def ownEntry (seg : Nat) (place : BitVec 2) : Rights :=
  { Rights.frameOwn 1 seg with frame := false, place := place, home := 0, big := true }
def page5 : U64 := 0xA00000
/-- A page of segment 5 held by the issuing owner, by another, under sweep; bit 32; an entry new and one present; a frame, and none. -/
theorem test_hyp_map :
    (∀ n, placeOf pad.toNat ≠ .seg n) ∧ (placeOf page5.toNat = .seg 5 ∧ (page5 + 0x4000).toNat % pageSize (mapWord 2 0) ≠ 0 ∧ placeOf (page5 + 0x4000).toNat = .seg 5)
    ∧ (GoodPage page5 (mapWord 2 (mkRes 3 2)) 5 ∧ GoodPage (page5 - 0x200000) (mapWord 3 0) 4)
    ∧ ¬MayUse (holding (mkRes 5 5) .held 2 0 id) (mkRes 5 5) ∧ MayUse started (mkRes 5 5) ∧ segUnit 5 ∉ started.revoked
    ∧ segUnit 5 ∈ ({ started with revoked := [segUnit 5] } : State).revoked ∧ (0x100000000 : U128).getLsbD 32 = true
    ∧ (∃ own, OwnFor started 5 (mapWord 2 (mkRes 3 2)) own) ∧ OwnFor { started with rights := [ownEntry 5 2] } 5 (mapWord 2 (mkRes 3 2)) (ownEntry 5 2)
    ∧ GoodFrame started page5 (mapWord 2 (mkRes 3 2)) 5 ∧ GoodFrame started page5 (mapWord 2 0) 5 ∧ ∃ pos, PosFor started page5 (mapWord 2 (mkRes 3 2)) pos := by
  have p : (started.rightsPos 1 false 5).isSome = true := by decide +kernel
  have q : (started.transPos (pageKey page5 (mapWord 2 (mkRes 3 2))) 0).isSome = true := by decide +kernel
  refine ⟨fun n h => ?_, by decide +kernel, ?_, ?_, ?_, by decide +kernel, by decide +kernel, by decide +kernel,
    ⟨_, .inr ⟨by decide +kernel, ?_, none, (started.rightsPos 1 false 5).get p, ⟨fun h => absurd h (by decide +kernel), fun _ => rfl⟩, (Option.some_get p).symm, rfl⟩⟩, .inl ⟨rfl, ?_⟩, ?_,
    .inl rfl, ⟨(started.transPos (pageKey page5 (mapWord 2 (mkRes 3 2))) 0).get q, .inr ⟨by decide +kernel, (Option.some_get q).symm⟩⟩⟩
  · rw [show placeOf pad.toNat = .frame 5 by decide +kernel] at h; cases h
  · unfold GoodPage; and_intros <;> decide +kernel
  · unfold MayUse HeldByMe Borrows; decide +kernel
  · unfold MayUse HeldByMe Borrows; decide +kernel
  · unfold GoodAttr MayUse HeldByMe Borrows; and_intros <;> decide +kernel
  · unfold SameAttr; and_intros <;> decide +kernel
  · unfold GoodFrame MayUse HeldByMe Borrows; refine .inr ?_; and_intros <;> decide +kernel

/-- Pages, segments and shares to unmap, present and missing; the word's ends. -/
def mappedFive : State :=
  { started with
    rights := [ownEntry 5 2, { ownEntry 5 2 with owner := 2, own := false }]
    trans := [⟨640, true, true, false, true, 0, false, 0, false, 256, 0⟩] }
theorem test_hyp_unmap :
    ((0x30003 : Nat) / 4 % 2 ^ 14 = 0 ∧ 0x30003 / 2 ^ 32 = 0 ∧ 0x30003 % 4 = 3) ∧ started.transAt page5.toNat = none ∧ (mappedFive.transAt page5.toNat).isSome = true
    ∧ (mappedFive.ownOf 5).isSome = true ∧ (started.ownOf 5 = none ∧ (∀ t ∈ started.trans, t.seg ≠ 5) ∧ ∀ e ∈ started.rights, e.frame = false → e.index ≠ 5)
    ∧ mappedFive.rights.any (fun e => e.frame == false && e.index == 5 && !e.own && e.owner == 2) = true
    ∧ started.rights.any (fun e => e.frame == false && e.index == 5 && !e.own && e.owner == 2) = false := by
  and_intros <;> decide +kernel

/-- Selectors in g1, values in g2. -/
def setting (s : State) (id : U64) (k : Nat) (v : U128) : State :=
  (s.setG 1 { bits := BitVec.ofNat 128 (id.toNat + k * 2 ^ 64), tag := false }).setG 2 { bits := v, tag := false }
def two5 : State := { started with rights := [ownEntry 5 2, ownEntry 6 2] }
theorem test_hyp_setclass_segments :
    (let s := setting two5 (mkRes 5 5) 0 (mapWord 2 0)
     resIndex (mkRes 5 5) = 5 ∧ resKind (mkRes 5 5) = 5 ∧ Selects s 1 (mkRes 5 5) 0 ∧ MayUse s (mkRes 5 5) ∧ fld (mapWord 2 0) 44 20 = 0 ∧ fld (mapWord 2 0) 7 5 = 0
       ∧ s.ownOf 5 = some (ownEntry 5 2) ∧ GoodAttr s 5 (mapWord 2 0) ∧ (ownEntry 5 2).key.toNat = fld (mapWord 2 0) 20 12
       ∧ (ownEntry 5 2).named = (mapWord 2 0).getLsbD 32 ∧ (ownEntry 5 2).big = (mapWord 2 0).getLsbD 35 ∧ (ownEntry 5 2).home.toNat = fld (mapWord 2 0) 42 2
       ∧ (ownEntry 5 2).named = false ∧ ¬InRun s 5 ∧ (ownEntry 5 2).sealedSeg = (mapWord 2 0).getLsbD 19 ∧ Pins s (mapWord 2 0) none)
    ∧ (let s := setting two5 (mkRes 5 5) 0 (mapWord 2 0 + 2 ^ 19)
       (ownEntry 5 2).sealedSeg ≠ (mapWord 2 0 + 2 ^ 19).getLsbD 19 ∧ s.somePresent 5 = false ∧ GoodAttr s 5 (mapWord 2 0 + 2 ^ 19))
    ∧ ¬MayUse (holding (mkRes 5 5) .held 2 0 id) (mkRes 5 5)
    ∧ (∃ k, Pins started (mapWord 1 0) (some k))
    ∧ (let v : U128 := BitVec.ofNat 128 (2 + (mkRes 6 5120).toNat * 2 ^ 64)
       let s := setting two5 (mkRes 5 5) 1 v
       Selects s 1 (mkRes 5 5) 1 ∧ 0 < fld v 0 12 ∧ fld v 12 52 = 0 ∧ resKind (mkRes 6 5120) = 6 ∧ resValid (mkRes 6 5120) = true ∧ ctxKind 5120 = 5
         ∧ (∀ j, j < 2 → resValid (mkRes 5 (5 + j)) = true ∧ HeldByMe s (mkRes 5 (5 + j)))
         ∧ (∀ j, j < 2 → s.ownOf (5 + j) = some (ownEntry (5 + j) 2)) ∧ HeldByMe s (mkRes 6 5120))
    ∧ (let s := setting two5 (mkRes 5 5) 2 0; Selects s 1 (mkRes 5 5) 2 ∧ HeldByMe s (mkRes 5 5) ∧ s.region 5 = none) := by
  have p : (started.pinFor 0 0).isSome = true := by decide +kernel
  refine ⟨?_, ?_, ?_, ⟨(started.pinFor 0 0).get p, fun _ => ⟨_, (Option.some_get p).symm, rfl⟩, fun h => absurd rfl h⟩, ?_, ?_⟩
  · unfold GoodAttr MayUse HeldByMe Borrows InRun; and_intros <;> decide +kernel
  · unfold GoodAttr MayUse HeldByMe Borrows; and_intros <;> decide +kernel
  · unfold MayUse HeldByMe Borrows; decide +kernel
  · unfold HeldByMe; and_intros <;> decide +kernel
  · unfold HeldByMe; and_intros <;> decide +kernel

/-- A ring entry of a core that the issuing owner holds or does not, lent with a slice too short for its budget, and not. -/
def ring0 : U64 := mkRes 2 0
def ringState (st : HState) (budget : U32) (coreHolder : U16) (k : Nat) (v : U128) : State :=
  let s := setting (holding ring0 st 1 2 id) ring0 k v
  (s.putEntry { Entry.atReset (mkRes 1 0) with holder := coreHolder }).putCore { s.myCore with
    rota := s.myCore.rota.set 0 { Rota.blank with budget := budget } }
theorem test_hyp_setclass_turns :
    (let s := ringState .held 0 1 3 0; resKind ring0 = 2 ∧ Selects s 1 ring0 3 ∧ (s.entry ring0).user = s.self.owner)
    ∧ ((ringState .lent 0 1 3 0).entry ring0).user ≠ started.self.owner
    ∧ (let s := ringState .lent 1000 1 0 2; Selects s 1 ring0 0 ∧ (s.g 2).bits.toNat < 2 ^ 32 ∧ (s.entry (mkRes 1 0)).holder = s.self.owner
        ∧ (s.entry ring0).state = .lent ∧ (s.x 2).toNat ≠ 0 ∧ (s.x 2).toNat * 1750 < (s.rotaOf ring0).budget.toNat + 2 * 1750)
    ∧ (let s := ringState .lent 0 1 0 2; ¬(s.x 2).toNat * 1750 < (s.rotaOf ring0).budget.toNat + 2 * 1750)
    ∧ ((ringState .held 0 2 2 0).entry (mkRes 1 0)).holder ≠ started.self.owner
    ∧ (let s := ringState .held 0 1 2 (2 ^ 32 - 1); Selects s 1 ring0 2 ∧ (s.g 2).bits.toNat < 2 ^ 32 ∧ (s.entry ring0).state ≠ .lent) := by
  and_intros <;> decide +kernel
/-- Way unit 0 of die 0 held and not, in a class, in the pool, with and without pinned segments; the ends of a ceiling. -/
def pinnedWay : State := { started with rights := [{ ownEntry 5 1 with pin := some 0 }] }
theorem test_hyp_setclass_ways :
    (let s := setting started way0 0 0; resKind way0 = 9 ∧ Selects s 1 way0 0 ∧ HeldByMe s way0 ∧ (s.cls 0 0).owner = s.self.owner ∧ s.wayClass 0 0 = some 0)
    ∧ ¬HeldByMe (holding way0 .held 2 0 id) way0 ∧ (started.cls 0 63).owner = 0
    ∧ ((started.putCls { Cls.zero 0 with owner := 2 }).cls 0 0).owner ≠ started.self.owner
    ∧ pinnedWay.wayPins 0 0 = true ∧ started.wayPins 0 0 = false ∧ started.wayClass 0 0 ≠ some 63
    ∧ ({ started with pool := [((0 : BitVec 2), 0)] } : State).wayClass 0 0 = none
    ∧ (Selects (setting started way0 1 0) 1 way0 1 ∧ Selects (setting started way0 2 33) 1 way0 2) := by
  unfold HeldByMe; and_intros <;> decide +kernel

/-- A range of segments, of frames, and of one unit that another holds; a sweep context with room and full. -/
def revoking (first : U64) (n : Nat) (waiting : Nat) (s : State) : State :=
  ((s.setG 1 { bits := BitVec.ofNat 128 (first.toNat + n * 2 ^ 64), tag := false }).setG 2 (ctxHandle 6144 0)).putCtx
    { Ctx.blank 6144 with waiting := List.replicate waiting (block 1) }
theorem test_hyp_revoke :
    (started.self.park = .no ∧ Cap.zero.tag = false)
    ∧ (let s := revoking (mkRes 5 5) 2 31 started
       let units := (List.range 2).map (fun j => ({ frame := decide (resKind (s.x 1) = 4), index := resIndex (s.x 1) + j } : Unit30))
       SweepHandle s (s.g 2) 6144 ∧ (s.g 1).bits.toNat / 2 ^ 64 = 2 ∧ RangeOf (s.x 1) 2 units
         ∧ (∀ u ∈ units, MayUse s (mkRes (if u.frame then 4 else 5) u.index)) ∧ (s.ctx 6144).waiting.length < 32)
    ∧ (let s := revoking (mkRes 4 73727) 1 32 started
       RangeOf (s.x 1) 1 [{ frame := true, index := 73727 }] ∧ 32 ≤ (s.ctx 6144).waiting.length ∧ MayUse s (mkRes 4 73727))
    ∧ RangeOf (mkRes 5 (2 ^ 26)) 1 [{ frame := false, index := 2 ^ 26 }]
    ∧ ¬MayUse (holding (mkRes 5 5) .held 2 0 id) (mkRes 5 5)
    ∧ ((revoking (mkRes 5 5) 0 0 started).g 1).bits.toNat / 2 ^ 64 = 0 ∧ 65536 < ((revoking (mkRes 5 5) 65537 0 started).g 1).bits.toNat / 2 ^ 64 := by
  unfold RangeOf MayUse HeldByMe Borrows; and_intros <;> decide +kernel

/-- A frame to zero and one to withdraw; a receipt of a host frame; counts at their ends. -/
def scrubbing (n : Nat) (f : U64 := mkRes 3 7) : State :=
  let s := started.putEntry { Entry.atReset (mkRes 3 8) with state := .retired }
  (s.setG 1 { bits := BitVec.ofNat 128 (f.toNat + n * 2 ^ 64), tag := false }).setG 2 (root pad)
theorem scrubbed_two : scrubbed (scrubbing 2) 1 = [mkRes 3 7, mkRes 3 8] := by decide +kernel
theorem scrubbed_host : scrubbed (scrubbing 1 (mkRes 11 9000)) 1 = [mkRes 11 9000] := by decide +kernel
theorem scrubs_held : Scrubs (scrubbing 2) (mkRes 3 7) := by
  unfold Scrubs; and_intros <;> [decide +kernel; decide +kernel; skip]; right; and_intros <;> decide +kernel
theorem scrubs_retired : Scrubs (scrubbing 2) (mkRes 3 8) := by
  unfold Scrubs; and_intros <;> [decide +kernel; decide +kernel; skip]; left; decide +kernel
theorem test_hyp_scrub_host : Scrubs (scrubbing 1 (mkRes 11 9000)) (mkRes 11 9000) := by
  unfold Scrubs; and_intros <;> [decide +kernel; decide +kernel; skip]; right; and_intros <;> decide +kernel
theorem test_hyp_scrub :
    ((scrubbing 0).g 1).bits.toNat / 2 ^ 64 = 0 ∧ 4096 < ((scrubbing 4097).g 1).bits.toNat / 2 ^ 64 := by decide +kernel
theorem test_hyp_scrub_frames :
    let s := scrubbing 2
    (s.g 1).bits.toNat / 2 ^ 64 = 2 ∧ resKind (s.x 1) = 3 ∧ (∀ f ∈ scrubbed s 1, Scrubs s f) ∧ s.self.sent = [] := by
  refine ⟨by decide +kernel, by decide +kernel, ?_, by decide +kernel⟩
  simp only [scrubbed_two, List.forall_mem_cons]; exact ⟨scrubs_held, scrubs_retired, by simp⟩
theorem test_hyp_scrub_receipt :
    let s := scrubbing 1 (mkRes 11 9000)
    (s.g 2).tag = true ∧ (s.g 2).otype = 0 ∧ s.revokedAddr (s.g 2).bounds.base.toNat = false ∧ (s.g 2).holds .w = true
      ∧ (s.g 2).inBounds (s.x 2).toNat (608 + 8) = true ∧ (s.laneCheck 2 (s.g 2) .w true false (longLanes (s.x 2) (608 + 8)) (s.x 2)).toOption = some () := by
  and_intros <;> decide +kernel
theorem test_hyp_scrub_stores :
    let s := scrubbing 1 (mkRes 11 9000)
    let l := scrubbed s 1
    let t := (l.filter (fun f => (s.entry f).state != .retired)).foldl State.scrubFrame s
    (t.saveLanes 2 (s.g 2) false (longLanes (s.x 2) (608 + 8)) (s.x 2) (fun i => ofBytesLE (((t.receipt (s.receipts + 1) l []).drop (256 * i)).take 256))).toOption.isSome = true := by
  simp only [scrubbed_host]; decide +kernel
/-- Shares of segment 5 with owner 2: its bits, its withdrawal, a borrowed segment, an owner that does not live. -/
theorem test_hyp_share :
    (let s : State := { twoOwners with rights := [ownEntry 5 2] }
     resKind (mkRes 5 5) = 5 ∧ resValid (mkRes 5 5) = true ∧ ¬Borrows s (mkRes 5 5) ∧ HeldByMe s (mkRes 5 5) ∧ s.lives 2 = true ∧ 2 ≠ s.self.owner
       ∧ s.rightsOn s.self.owner false 5 = some (ownEntry 5 2) ∧ (ownEntry 5 2).r = true ∧ (ownEntry 5 2).w = true ∧ (ownEntry 5 2).x = true
       ∧ (ownEntry 5 2).c = true ∧ (0xF0002 : Nat) < 2 ^ 20 ∧ (0x2 : Nat) / 2 ^ 16 = 0)
    ∧ Borrows (holding (mkRes 5 5) .lent 2 1 id) (mkRes 5 5) ∧ ¬HeldByMe (holding (mkRes 5 5) .held 2 0 id) (mkRes 5 5) ∧ twoOwners.lives 3 = false
    ∧ (∃ pos, ({ twoOwners with rights := [ownEntry 5 2] } : State).rightsPos 2 false 5 = some pos) := by
  have p : (({ twoOwners with rights := [ownEntry 5 2] } : State).rightsPos 2 false 5).isSome = true := by decide +kernel
  refine ⟨?_, ?_, ?_, by decide +kernel, ⟨_, (Option.some_get p).symm⟩⟩
  · unfold HeldByMe Borrows; and_intros <;> decide +kernel
  · unfold Borrows; and_intros <;> decide +kernel
  · unfold HeldByMe; decide +kernel

/-- A region of segment 5 with a leaf, and a node whose child 0 is the leaf; their counts; both lie in the window of their names. -/
def region5 : Region := { seg := 5, n := 1, saltOwner := 1, salt := 0, relCtx := mkRes 6 5120, lastRel := 0, live := 2, used := [0, 1], heldReleases := [] }
def leafName : U128 := 1#32 ++ 5#32 ++ 0#64
def nodeName : U128 := 1#32 ++ 6#32 ++ 0#64
def aLeaf (n : U32) : SwEntry := { pos := 8, name := leafName, count := n, line := 0, node := false }
def aNode (n : U32) : SwEntry := { pos := 9, name := nodeName, count := n, line := 1, node := true }
def swatched (n : U32) : State :=
  let s : State := { started with rights := [ownEntry 5 2], trans := mappedFive.trans, regions := [region5] }
  ((((s.putSw region5 (aLeaf n) 1).putSw region5 (aNode n) 1).unitWrite (dataAddr region5 1) (bytesLE 16 leafName.toNat)).setG 1 (root page5)).setG 2
    { bits := leafName, tag := false }
/-- The lines of a region are there, or not; what an index entry says; a header at its bounds. -/
theorem test_hyp_lines :
    (∀ a ∈ lookup region5 leafName, (swatched 1).isAbsent a = false) ∧ (∀ a ∈ lookup region5 leafName, (swatched 1).isPoisoned a = false ∧ (swatched 1).macOk a = true)
    ∧ started.isAbsent page5.toNat = true ∧ ({ swatched 1 with poison := [2 ^ 14] } : State).isPoisoned 0xA00000 = true
    ∧ (aLeaf 1).line < 2 ^ 32 ∧ region5.n < 2 ^ 12 ∧ region5.live < 2 ^ 32 ∧ region5.lastRel.toNat < 2 ^ 64 := by
  and_intros <;> decide +kernel
/-- A region that a capability reaches, a source; names live, missing, of a node, with counts at their ends. -/
theorem test_hyp_swatches :
    (let s := swatched 1
     Local s 1 ∧ s.self.swDefer = false ∧ Source (s.setG 2 (root pad)) 2 ∧ (s.g 1).tag = true ∧ (s.g 1).otype = 0 ∧ s.revokedAddr (s.g 1).bounds.base.toNat = false
       ∧ (s.g 1).holds .sw = true ∧ s.regionAt (s.localAddr (s.x 1).toNat) = some region5 ∧ (s.g 1).inBounds (s.x 1).toNat 256 = true
       ∧ s.rightsOn s.self.owner false 5 = some (ownEntry 5 2) ∧ s.remoteOf (s.x 1).toNat = none ∧ s.self.sent = []) := by
  unfold Local Source LanesPass Clear; and_intros <;> decide +kernel
theorem test_hyp_names :
    (let s := swatched 1
     nameStop s region5 leafName = none ∧ s.liveIn region5 leafName = some (aLeaf 1) ∧ s.liveIn region5 nodeName = some (aNode 1) ∧ nameStop s region5 nodeName = none
       ∧ s.lineBad (dataAddr region5 0) = none ∧ s.lineBad (dataAddr region5 1) = none ∧ child (s.content region5 1) 0 = leafName
       ∧ nameStop s region5 (leafName + 1) = none ∧ s.liveIn region5 (leafName + 1) = none
       ∧ ((freedIn s region5 (aNode 1)).ctx region5.ctxIndex).waiting.length < 32)
    ∧ (let s := swatched 2; s.liveIn region5 leafName = some (aLeaf 2) ∧ (2 : U32) ≠ 1 ∧ (2 : U32) ≠ 0xFFFFFFFF)
    ∧ (swatched 0xFFFFFFFF).liveIn region5 leafName = some (aLeaf 0xFFFFFFFF) := by
  and_intros <;> decide +kernel
/-- A walk of one level, at its end, and stopped by a leaf and by an empty child. -/
theorem test_hyp_walks :
    (let s := swatched 1
     Steps s region5 1 (fun j => if j = 0 then nodeName else leafName) 1 ∧ Steps s region5 0x12 (fun _ => nodeName) 0
       ∧ 1 ≤ (1 : U64).toNat % 16 ∧ (s.liveIn region5 leafName).isSome = true ∧ (aLeaf 1).node = false
       ∧ child (s.content region5 1) ((0x12 : U64).toNat / 2 ^ 4 % 16) = 0) := by
  refine ⟨fun i h => ?_, fun i h => absurd h (by omega), by decide, by decide +kernel, rfl, by decide +kernel⟩
  obtain rfl : i = 0 := by omega
  exact ⟨by decide +kernel, aNode 1, by decide +kernel, by decide +kernel, rfl, by decide +kernel, by decide +kernel⟩
/-- Content not named yet, with a place and a collision index; one that is named; a node whose children are in place. -/
theorem test_hyp_contents :
    (let s := swatched 1
     let h := leafName + 256
     h.toNat / 2 ^ 72 ≠ 0 ∧ stopAt s region5 h = none ∧ LinesPresent s region5 h false ∧ (∀ e, ¬Names s region5 h 7 false e)
       ∧ collision (s.window region5 h) h = some 0 ∧ (region5.place (s.window region5 h) h).isSome = true ∧ region5.freeCount ≠ 0
       ∧ ChildHere s region5 leafName ∧ Names s region5 nodeName (s.content region5 1) true (aNode 1)
       ∧ ∀ l < 8, s.isAbsent (dataAddr region5 l) = false) := by
  have w : (swatched 1).window region5 (leafName + 256) = [aLeaf 1, aNode 1] := by decide +kernel
  refine ⟨by decide, by decide +kernel, ?_, fun e h => ?_, by decide +kernel, by decide +kernel, by decide +kernel, .inr ⟨by decide +kernel, by decide +kernel⟩,
    ⟨by decide +kernel, by decide, rfl, rfl⟩, by decide +kernel⟩
  · intro e h; rw [w] at h; revert e; decide +kernel
  · have m := h.1; rw [w] at m
    rcases List.mem_cons.1 m with rfl | m
    · exact absurd h.2.1 (by decide)
    · obtain rfl := List.mem_singleton.1 m; exact absurd h.2.1 (by decide)
/-- A capability of another device's window, and a reply; one without fabric rights, a region that is not there, and one without rights. -/
theorem test_hyp_regions :
    (let s := (swatched 1).setG 1 (root 0x8001000000A00000)
     (s.g 1).tag = true ∧ (s.g 1).otype = 0 ∧ (s.g 1).holds .sw = true ∧ (s.g 1).holds .fb = true ∧ (s.remoteOf (s.x 1).toNat).isSome = true
       ∧ (s.g 1).inBounds (s.x 1).toNat 256 = true ∧ s.self.sent = [] ∧ s.self.replies = [] ∧ s.self.park.alone = false ∧ isFabric (s.x 1) = true)
    ∧ [routerReply 3].find? (fun x => x.txn == 3) = some (routerReply 3)
    ∧ (let s := started.setG 1 (root page5); s.regionAt (s.localAddr (s.x 1).toNat) = none)
    ∧ (let s : State := { swatched 1 with rights := [] }; s.regionAt (s.localAddr (s.x 1).toNat) = some region5 ∧ s.rightsOn s.self.owner false 5 = none)
    ∧ (let s : State := { swatched 1 with self := { (swatched 1).self with swDefer := true } }; s.self.swDefer = true) := by
  and_intros <;> decide +kernel

/-- A link of a width; a device with links, a message, a request. -/
def aLink (width : Nat) (up draining : Bool) : Link := { idx := 31, peer := 2, up := up, full := 8, width := width, draining := draining, dark := false, key := 0 }
def linked (l : List Link) : State := { started with links := l }
/-- A link that trains, and one up already; its widths at their ends; one that drains; a peer that a route is held for, and none. -/
theorem test_hyp_links :
    (started.bootstat.getLsbD 2 = true ∧ (46 : Nat) < 47 ∧ (8191 : BitVec 14).toNat < 8192 ∧ started.devnum.toNat < 8192 ∧ (8191 : BitVec 14) ≠ started.devnum
      ∧ ∀ l, started.linkAt 46 = some l → l.up = false)
    ∧ (linked [aLink 8 true false]).linkAt 31 = some (aLink 8 true false) ∧ 2 < (aLink 4 true false).width ∧ (aLink 2 true false).width ≤ 2
    ∧ started.linkAt 31 = none ∧ (linked [aLink 8 true true]).linkAt 31 = some (aLink 8 true true)
    ∧ (∃ x ∈ ((linked [aLink 8 true false, { aLink 8 true false with idx := 32 }]).putLink (linkOff (aLink 8 true false))).links, x.up = true)
    ∧ (∃ x ∈ (linked [{ aLink 8 false false with dark := true }]).links, x.dark = true) := by
  and_intros <;> decide +kernel
/-- Before and after START, with and without a stream of PCI Express; a host queue bound, with room, with 16 blocks, and its context's last place. -/
def hosted (n gen waiting : Nat) : State :=
  let w := List.replicate waiting (block 1)
  (started.putHostq { started.hostq 0 with ctx := some (0, gen), blocks := List.replicate n (0, 0, 0, 0) }).putCtx { Ctx.blank 0 with waiting := w }
theorem test_hyp_host :
    State.reset.bootstat.getLsbD 2 = false ∧ State.reset.bootstat.toNat % 4 = 3 ∧ started.bootstat.getLsbD 2 = true ∧ State.reset.ide = []
    ∧ ({ State.reset with ide := [0] } : State).ide ≠ [] ∧ (0x8000000000000000 : U64).getLsbD 63 = true ∧ resValid (mkRes 7 0) = true
    ∧ (((hosted 15 0 0).hostq 0).ctx.isSome = true ∧ ((hosted 15 0 0).hostq 0).blocks.length < 16) ∧ ¬((hosted 16 0 0).hostq 0).blocks.length < 16
    ∧ ((hosted 1 0 31).hostq 0).blocks = (0, 0, 0, 0) :: [] ∧ ((hosted 1 0 31).ctx 0).gen = 0 ∧ ((hosted 1 0 31).ctx 0).waiting.length < 32
    ∧ 32 ≤ ((hosted 1 0 32).ctx 0).waiting.length ∧ ((hosted 1 5 0).ctx 0).gen ≠ 5 := by
  and_intros <;> decide +kernel
/-- A message of each kind of entry; an inbox and a steward's queue with room and full, and the heap of owner 2. -/
def messageTo (entry : Cap) : Msg := letter started entry 15 false []
def asked (n : Nat) : FabricReq := { (default : FabricReq) with owner := 1, size := n, addr := 0xA00000, device := 2, unit := 1, txn := 3 }
def boxes (n k : Nat) (s : State) : State :=
  s.putCore { s.myCore with inbox := List.replicate n (messageTo (root pad)), steward := List.replicate k (messageTo (root pad)) }
theorem test_hyp_arrivals :
    (root pad).otype ≠ 2 ∧ (root pad).tag = true ∧ (small 0x200 2 pad).otype = 2 ∧ (small 0x200 2 pad).tag = true ∧ Cap.zero.tag = false
    ∧ ((boxes 63 31 started).core 0).steward.length < 32 ∧ ((boxes 63 31 started).core 0).overflow = false ∧ Roomy ((boxes 63 31 started).core 0) 0
    ∧ ¬Roomy ((boxes 64 32 started).core 0) 0 ∧ 32 ≤ ((boxes 64 32 started).core 0).steward.length
    ∧ heaped.heapRoom (heaped.coreUser 4607) (messageTo (root pad)) = true ∧ started.heapRoom (started.coreUser 0) (messageTo (root pad)) = false
    ∧ started.coreUser 0 = (asked 8).owner ∧ started.coreUser 0 ≠ ({ asked 8 with owner := 3 } : FabricReq).owner := by
  unfold Roomy; and_intros <;> decide +kernel
/-- A message that finds a slot, and none for one to slot 0, which runs; a steward's slot free; a request to send again; a record held, of a context too. -/
def resending (n : Nat) : State :=
  let s := boxes 0 n (delegating false)
  { s with self := { s.self with resend := some 0 } }
theorem test_hyp_starts :
    ((boxes 1 1 started).core 0).inbox = messageTo (root pad) :: [] ∧ (boxes 1 1 started).userMayRun 0 = true ∧ (boxes 1 1 started).slotFor 0 15 = some 1
    ∧ (boxes 1 1 started).slotFor 0 0 = none ∧ ((boxes 1 1 started).slot 0 8).role = .free ∧ ((resending 31).slot 0 0).resend = some 0
    ∧ ((resending 31).slot 0 0).delegated = some (1, false, letter started .zero 0 false [], 0) ∧ 0 ≤ (resending 31).cycle
    ∧ ((resending 31).core 0).steward.length < 32 ∧ 32 ≤ ((resending 32).core 0).steward.length
    ∧ (let s := started.putCore { started.myCore with held := [aRecord, { aRecord with source := 2 ^ 30 }] }
       (s.core 0).held = aRecord :: [{ aRecord with source := 2 ^ 30 }] ∧ (s.core 0).events.length < 64 ∧ aRecord.source.toNat / 2 ^ 30 ≠ 1
         ∧ (2 ^ 30 : Nat) / 2 ^ 30 = 1) := by
  and_intros <;> decide +kernel
/-- Accesses for a device that pass, with and without the C right, and one for an owner without rights; a region's counts. -/
def capable (s : State) (c : Bool) : State := { s with rights := [{ ownEntry 5 2 with c := c }] }
theorem test_hyp_handlers :
    (∀ n ∈ [(1 : Nat), 8, 16], HandlerPass (swatched 1) (asked n) n false true false ∧ HandlerPass (swatched 1) (asked n) n true false false
      ∧ HandlerPass (swatched 1) (asked n) n true true true ∧ HandlerPass (swatched 1) (asked n) n false true true ∧ HandlerPass (swatched 1) (asked n) n true false true)
    ∧ reqLocal (asked 16) % 16 = 0 ∧ ((swatched 1).rightsAt 1 (reqLocal (asked 16))).any (fun e => e.c) = true
    ∧ ((capable (swatched 1) false).rightsAt 1 (reqLocal (asked 16))).any (fun e => e.c) = false ∧ HandlerPass (capable (swatched 1) false) (asked 16) 16 true true true
    ∧ (swatched 1).accErr ((swatched 1).reqAcc { asked 8 with owner := 3 } 8 true false false) = some .rights
    ∧ (swatched 1).regionAt (reqLocal (asked 16)) = some region5 ∧ started.regionAt (reqLocal (asked 16)) = none ∧ placeOf (reqLocal (asked 16)) = .seg 5
    ∧ (swatched 1).rightsOn (asked 16).owner false 5 = some (ownEntry 5 2) ∧ (swatched 1).rightsOn 3 false 5 = none := by
  unfold HandlerPass; and_intros <;> decide +kernel
/-- A reply that a slot waits for, and one that a launch waits for; an owner with an emulation task, without one, and no owner. -/
theorem test_hyp_replies :
    (started.launches.find? (fun l => l.remote.contains 3) = none ∧ started.farOf 3 = none ∧ (∀ x ∈ started.heldSlots, x.returned (routerReply 3) = false)
      ∧ started.delegates 3 = false)
    ∧ ({ started with launches := [{ twoTasks with remote := [3] }] } : State).launches.find? (fun l => l.remote.contains 3) = some { twoTasks with remote := [3] }
    ∧ started.owner 9 = none ∧ (∃ o, started.owner 1 = some o ∧ o.emulent.tag = false)
    ∧ (∃ o, (started.putOwner { Owner.house with emulent := root pad }).owner 1 = some o ∧ o.emulent.tag = true ∧ (started.core o.emulcore).overflow = false) := by
  refine ⟨by and_intros <;> decide +kernel, by decide +kernel, by decide +kernel, ⟨Owner.house, by decide +kernel, by decide⟩,
    ⟨{ Owner.house with emulent := root pad }, by decide +kernel, by decide +kernel, by decide +kernel⟩⟩

/-- A class-4 slot that has waited `n` cycles. -/
def starving (n : Nat) : State := { started with self := { started.self with starved := n } }
/-- Core 0 lent to owner 2's turns: phases of a turn, its slots, its times. -/
def turning (phase : BitVec 2) (role : Role) (us : Nat) : State :=
  let s := (holding (mkRes 2 0) .lent 1 2 id)
  let c := s.myCore
  { (s.putCore { c with
      turn := { entry := 0, phase := phase, start := 0, ended := 0, limited := 0 }
      rota := c.rota.set 0 { slice := 5, limit := 5, budget := 0, handler := .zero } }) with self := { s.self with role := role, owner := 2 }, us := us }
theorem test_hyp_turns :
    started.usFrac < started.clock
    ∧ (let s := starving 7; (s.core 0).nextAt ≤ s.cycle ∧ s.ready (s.slot 0 0) = true ∧ (s.slot 0 0).cls = 4 ∧ 7 ≤ (s.slot 0 0).starved) ∧ (started.slot 0 0).starved < 7
    ∧ started.turnStep 0 = .wait ∧ (turning 0 .seed 5).turnStep 0 = .go 1
    ∧ { started.putCore { started.myCore with turn := { entry := 0, phase := 1, start := 0, ended := 0, limited := 0 } } with self := { started.self with role := .free } }.turnStep 0 = .stop
    ∧ ((turning 1 .seed 5).rotaRuns 0 = true ∧ ((turning 1 .seed 5).core 0).turn.phase = 1 ∧ 0 + 5 ≤ (turning 1 .seed 5).us)
    ∧ ((turning 2 .seed 5).turnSlots 0 ≠ [] ∧ ((turning 2 .seed 5).core 0).turn.phase = 2)
    ∧ (((turning 3 .seed 5).core 0).turn.phase = 3 ∧ ∃ x ∈ (turning 3 .seed 5).turnSlots 0, x.savable = true) := by
  refine ⟨by decide +kernel, by and_intros <;> decide +kernel, by decide +kernel, by decide +kernel, by decide +kernel, by decide +kernel, by and_intros <;> decide +kernel, by and_intros <;> decide +kernel,
    by decide +kernel, (turning 3 .seed 5).self, by decide +kernel, by decide +kernel⟩
/-- Waits whose time has come and has not; an image that fits a free slot, and none. -/
def anImage (c : Core) (x : Slot) : Image :=
  { offset := none, size := 0, turn := none, isYield := true, slot := x, lease := c.lease, shapes := c.shapes, tiles := c.tiles, strips := c.strips
    larg := c.larg, chain := c.chain, watch := c.watch, qbind := c.qbind }
def imaged : State := started.putOwner { Owner.house with images := [anImage started.myCore { started.self with idx := 1 }] }
theorem test_hyp_waits :
    ((parkedOn (.protect 0) started).slot 0 0).park = .protect 0 ∧ 0 ≤ started.cycle ∧ started.cycle < 5
    ∧ ((parkedOn (.record 0 0 0 0) { started with cycle := 65536 }).slot 0 0).park = .record 0 0 0 0 ∧ 0 + 65536 ≤ ({ started with cycle := 65536 } : State).cycle
    ∧ ((parkedOn (.yield 3 (some 0) 0) started).switchTo 0 0).self.park = .yield 3 (some 0) 0 ∧ (started.switchTo 0 0).self.park = .no
    ∧ started.imageFor 0 1 = none ∧ imaged.imageFor 0 1 = some (1, anImage started.myCore { started.self with idx := 1 }) := by
  and_intros <;> decide +kernel
/-- A free loom that seats wait for, with and without a slot that waits; one idle for 4,096 cycles while another waits; a row of a drain, its holder's
core, gone and there. -/
def aDrain : Drain :=
  { rows := [{ index := 0, regs := [], flags := 0 }], format := 0, budget := false, seats := [0], lease := { Lease.none with owner := 1 }, holder := 0, number := 0
    w := 0, r := 1, c := 1, discarded := false }
theorem test_hyp_looms :
    busyLoom.queue ≠ [] ∧ (Loom.blank 0 0).queue = []
    ∧ (let l := { Loom.blank 0 0 with pending := [47, 3] }; l.holder = none ∧ l.waitingRows ≤ 8 ∧ l.nextSeat = some 3)
    ∧ (parkedOn (.grant 5 1) started).self.park = .grant 5 1 ∧ (∀ d b, started.self.park ≠ .grant d b)
    ∧ (let l := { Loom.blank 0 0 with holder := some 47, pending := [3] }
       l.holder = some 47 ∧ l.queue = [] ∧ (∃ p ∈ l.pending, p ≠ 47) ∧ l.lastCmd + 4096 ≤ ({ started with cycle := 4096 } : State).cycle)
    ∧ (let l := { Loom.blank 0 0 with drains := [aDrain] }; l.drains = aDrain :: [] ∧ aDrain.rows ≠ [] ∧ started.rowCore 0 aDrain 0 = some 0)
    ∧ started.rowCore 0 { aDrain with seats := [] } 0 = none ∧ started.handlerMayRun 0 = true ∧ started.selvageSlot 0 = some 1 := by
  refine ⟨by decide, by decide, by decide, by decide, fun d b h => ?_, ?_⟩; rotate_left
  · and_intros <;> decide +kernel
  rw [show started.self.park = .no from rfl] at h; cases h

/-- A block of a code and flags; context `ci` with it to start. -/
def order (code : Nat) (w0 w1 : Cap) (len extra : Nat) : Cmd :=
  { number := 1, w0 := w0, w1 := w1, w2 := { bits := BitVec.ofNat 128 (len + extra * 2 ^ 64), tag := false }, w3 := { bits := BitVec.ofNat 128 code, tag := false }
    via := none, doomed := none }
def serving (s : State) (ci : Nat) (c : Cmd) : State := s.putCtx { Ctx.blank ci with waiting := [c] }
def soundly (ci code : Nat) (w0 w1 : Cap) (len extra : Nat) : Prop :=
  let c := order code w0 w1 len extra
  Serves (serving started ci c) ci c ∧ Sound (serving started ci c) ci (code % 256) c
/-- For each code a block of no bytes that its engine starts and takes: of die 3's engines too. -/
theorem test_hyp_commands :
    (∀ code ∈ [0x01, 0x02, 0x03, 0x04, 0x05], soundly 1024 code .zero .zero 0 0) ∧ soundly (1024 + 3 * 8192) 0x01 .zero .zero 0 0
    ∧ soundly 2048 0x10 .zero .zero (2 ^ 32) 0 ∧ (∀ code ∈ [0x20, 0x21, 0x22, 0x23], soundly 3072 code .zero .zero 0 0)
    ∧ (∀ code ∈ [0x30, 0x31, 0x32, 0x33], soundly 4096 code .zero .zero 0 0) ∧ soundly 0 0x40 .zero .zero 0 0 ∧ soundly 5120 0x50 .zero .zero 0 0
    ∧ (let c := order 0x20 .zero .zero 0 0; started.codeOk 1024 c = false) ∧ (order 0x101 .zero .zero 0 1).badWords = some 320
    ∧ (order (0x01 + 2 ^ 10) .zero .zero 0 0).badWord3 = some 394 ∧ (started.ctx 1024).stalled = [] ∧ started.startable 1024 = none
    ∧ (Ctx.blank 1024).waitsFar 1 = false := by
  unfold soundly Serves Sound; and_intros <;> decide +kernel
/-- A command that waits with its engine's other work done. -/
theorem test_hyp_stalled :
    let c := order 0x03 .zero (root pad) 0 0
    let s := started.putCtx { Ctx.blank 1024 with active := [c], stalls := [(1, none, 0)] }
    (s.ctx 1024).stalled = [c] ∧ c.code = 0x03 ∧ c.doomed = none := by and_intros <;> decide +kernel
/-- FILL of a granule; NSEND, NWRITE and NREAD of an endpoint; NRECV; RESUME of no parked command. -/
def ended9 : State := { started with endpoints := [{ id := 9, owner := 1, address := 1, context := 2, ctx := 4096 }] }
def toNine : Cap := (root 9).withOtype 1
theorem test_hyp_moves :
    (let c := order 0x03 .zero (root pad) 32 0
     let u := (serving started 1024 c).startCmd 1024 c
     Serves (serving started 1024 c) 1024 c ∧ Sound (serving started 1024 c) 1024 0x03 c ∧ (u.ctx 1024).waitsFar c.number = false ∧ 0 < c.len.toNat
       ∧ c.len.toNat ≤ 32 - c.w1.addr.toNat % 32 ∧ u.remoteOf c.w1.addr.toNat = none ∧ u.unitCheck 1024 c c.w1 .w c.w1.addr.toNat 32 = none
       ∧ u.accErr (u.engAcc 1024 c c.w1.addr.toNat 32 true) = none ∧ u.isAbsent (u.localAddr c.w1.addr.toNat) = false
       ∧ ∀ p ∈ (u.ctx 1024).parked, p.cmd.number ≠ 0)
    ∧ (let c := order 0x30 (root pad) toNine 0 0
       let u := (serving ended9 4096 c).startCmd 4096 c
       Serves (serving ended9 4096 c) 4096 c ∧ Sound (serving ended9 4096 c) 4096 0x30 c ∧ (u.endpointOf c.w1 (u.actsFor 4096)).isSome = true ∧ u.netCap c.w0 .r = none
         ∧ c.w0.inBounds c.w0.addr.toNat 0 = true)
    ∧ (let c := order 0x33 toNine (root pad) 64 0
       let u := (serving ended9 4096 c).startCmd 4096 c
       Serves (serving ended9 4096 c) 4096 c ∧ Sound (serving ended9 4096 c) 4096 0x33 c ∧ (u.endpointOf c.w0 (u.actsFor 4096)).isSome = true ∧ u.netCap c.w1 .w = none
         ∧ c.len.toNat % 2 ^ 32 ≠ 0)
    ∧ (let c := order 0x31 .zero (root pad) 0 (2 ^ 32)
       let u := (serving started 4096 c).startCmd 4096 c
       Sound (serving started 4096 c) 4096 0x31 c ∧ u.netCap c.w1 .w = none ∧ c.extra.toNat / 2 ^ 32 = 1 ∧ c.len.toNat % 2 ^ 32 = 0) := by
  unfold Serves Sound; and_intros <;> decide +kernel
/-- FRAMECOPY of frames 7 to 8, plain and pass by pass; a frame that is not the owner's; a pass that fails; SWEEP. -/
def logged : State := started.setLog (mkRes 3 7) [3]
def copyFrame (pass len : Nat) : Cmd := order (0x05 + pass * 2 ^ 10) (Cap.ofInt (mkRes 3 7)) (Cap.ofInt (mkRes 3 8)) len 0
theorem test_hyp_frames :
    (∀ len ∈ [0, 1], Serves (serving started 1024 (copyFrame 0 len)) 1024 (copyFrame 0 len) ∧ Sound (serving started 1024 (copyFrame 0 len)) 1024 5 (copyFrame 0 len))
    ∧ (∀ p ∈ [1, 2, 3], Serves (serving logged 1024 (copyFrame p 1)) 1024 (copyFrame p 1) ∧ Sound (serving logged 1024 (copyFrame p 1)) 1024 5 (copyFrame p 1)
        ∧ (copyFrame p 1).passNo = p)
    ∧ (copyFrame 0 1).passNo = 0 ∧ (started.frameFor 1 (mkRes 3 7) = true ∧ started.frameFor 1 (mkRes 3 8) = true) ∧ started.frameFor 2 (mkRes 3 7) = false
    ∧ started.passCheck 1 (copyFrame 1 1) true = none ∧ logged.passCheck 1 (copyFrame 2 1) false = none ∧ started.passCheck 1 (copyFrame 2 1) false = some (1, 0)
    ∧ (let c := order 0x60 .zero .zero 0 0
       let s : State := { started with sweeps := [{ id := 0, units := [unitOf (mkRes 4 5)], ctx := some 1024, number := 1, scanBy := none }] }
       Serves (serving s 1024 c) 1024 c ∧ Sound (serving s 1024 c) 1024 0x60 c ∧ (s.sweeps.find? (fun w => w.ctx == some 1024 && w.number == c.number)).isSome = true) := by
  unfold Serves Sound; and_intros <;> decide +kernel
/-- LAUNCH through an entry that may be executed, that may not, and that is revoked; a launch to place, and its owner's other; a release, run and
held; SWOUT of a leaf. -/
def waitingLaunch : Launch := { onTwoSeats with placed := [] }
theorem test_hyp_launches :
    (let c := order 0x40 (root pad) .zero 0 0
     let s := serving started 0 c
     Serves s 0 c ∧ Sound s 0 0x40 c ∧ s.isRevoked c.w0 = false ∧ s.isRevoked c.w1 = false ∧ s.badLaunch 0 c = none)
    ∧ started.badLaunch 0 (order 0x40 .zero .zero 0 0) = some 125 ∧ (swept started).isRevoked (small 0x200 0 pad) = true ∧ started.launch 7 = none
    ∧ (let s : State := { started with launches := [waitingLaunch] }
       s.launch 7 = some waitingLaunch ∧ (s.servedLaunch waitingLaunch.owner).map Launch.id = some 7 ∧ waitingLaunch.begun = true
         ∧ waitingLaunch.shop.isSome = true ∧ waitingLaunch.resident = false ∧ (s.placeOn waitingLaunch 0).isSome = true)
    ∧ (let s : State := { started with launches := [waitingLaunch, { waitingLaunch with id := 8 }] }
       s.launch 8 = some { waitingLaunch with id := 8 } ∧ (s.servedLaunch 1).map Launch.id ≠ some 8) := by
  unfold Serves Sound; and_intros <;> decide +kernel
def held1 : HeldRelease := HeldRelease.mk [leafName] false none none none
theorem test_hyp_releases :
    (let c := order 0x51 .zero .zero 0 0
     let x : Release := { ctx := 5120, number := 1, region := 5, children := [leafName], lost := false, ran := false, status := 0, waits := [] }
     let s := serving { swatched 1 with releases := [x] } 5120 c
     s.startable 5120 = some c ∧ c.code = 0x51 ∧ s.releases.find? (fun x => x.is 5120 c.number) = some x)
    ∧ started.startable 5120 = none
    ∧ (let g := { region5 with heldReleases := [held1] }
       let s := (swatched 1).putRegion g
       s.region 5 = some g ∧ (s.ctx g.ctxIndex).waiting.length < 32 ∧ held1.txn = none ∧ held1.device = none ∧ held1.parent = none)
    ∧ started.region 5 = none := by
  and_intros <;> decide +kernel
theorem test_hyp_swout :
    let c := { order 0x50 (root page5) (root pad) 0 0 with w2 := { bits := leafName, tag := false } }
    let s := serving (swatched 1) 5120 c
    let u := s.startCmd 5120 c
    Serves s 5120 c ∧ Sound s 5120 0x50 c ∧ (u.swoutCheck 5120 c 1).toOption = some region5 ∧ u.nameBad region5 c.w2.bits = none
      ∧ u.liveIn region5 c.w2.bits = some (aLeaf 1) ∧ u.liveIn region5 (leafName + 1) = none
      ∧ (u.swoutCheck 5120 { c with w1 := .zero } 1).toOption = none := by
  unfold Serves Sound; and_intros <;> decide +kernel
/-- Packets for no context, and of each kind for one; a window that serves a write, and one too small; a flight reported, due, sent eight times. -/
def aPacket (kind : BitVec 2) : Packet := { (default : Packet) with ctx := 4096, kind := kind, tag := 5, total := 3, data := [1, 2, 3] }
def receiving (mode : BitVec 2) (capacity : Nat) : Recv :=
  { cmd := order 0x31 .zero (root pad) capacity 0, mode := mode, tag := 5, capacity := capacity, msg := none, placed := [], held := [], stalled := none }
def anOut : OutPacket := { ctx := 4096, flow := 0, seq := 0, number := 1, entropy := 0, kind := 0, tag := 5, total := 0, offset := 0, base := 0, len := 0, rccc := false, data := [], delivery := 0 }
def flying (sends : Nat) (acked refused : Bool) : State :=
  let f : Flight := { p := anOut, sends := sends, sentAt := 0, acked := acked, refused := refused, later := [] }
  { started.putCtx { Ctx.blank 4096 with flights := [f] } with us := 64 * 2 ^ 7 }
theorem test_hyp_packets :
    (ctxKind 4096 = 4 ∧ resValid (mkRes 6 4096) = true ∧ ctxKind 1024 ≠ 4)
    ∧ (∀ k ∈ [(0 : BitVec 2), 1, 2, 3], started.takeAgain (aPacket k) = none)
    ∧ (let s := started.putCtx { Ctx.blank 4096 with recvs := [receiving 1 3] }
       (s.ctx 4096).recvs = receiving 1 3 :: [] ∧ s.takeAgain (aPacket 1) = none ∧ (receiving 1 3).tag = (aPacket 1).tag ∧ 0 + (aPacket 1).total ≤ (receiving 1 3).capacity
         ∧ (s.placeAt 4096 (receiving 1 3) 0 (aPacket 1).data).toOption.isSome = true ∧ ∀ r ∈ (s.ctx 4096).recvs, r.mode ≠ 0)
    ∧ ¬(0 + (aPacket 1).total ≤ (receiving 1 2).capacity)
    ∧ (let s := started.putCtx { Ctx.blank 4096 with recvs := [receiving 1 3], past := [] }; s.takeAgain (aPacket 0) = none)
    ∧ (started.ctx 4096).flights.find? (fun f => f.p.number == 1) = none
    ∧ (∀ n ∈ [1, 7, 8], ((flying n false false).ctx 4096).flights.find? (fun f => f.p.number == 1 && f.p.seq == 0) = some ⟨anOut, n, 0, false, false, []⟩
        ∧ 0 + 64 * 2 ^ (n - 1) ≤ (flying n false false).us)
    ∧ ({ flying 1 false false with us := 63 } : State).us < 0 + 64 * 2 ^ (1 - 1) := by
  and_intros <;> decide +kernel

/-- Offers, terms and recoveries whose time has come, and has not. -/
def recovered (forced : Bool) (role : Role) (k : U64) : State :=
  let r : Recovery := { taker := 1, fromOwner := 2, returned := false, record := false, keep := false, sweep := none, number := 0, forced := forced, saved := 0
                        budgetEnd := 0, budgetDone := false }
  let s := holding k .held 1 0 (fun e => { e with recovery := some r })
  { s with self := { s.self with role := role, owner := 2 } }
theorem test_hyp_deadlines :
    (let s := holding way0 .offered 1 2 (fun e => { e with deadline := some 100 })
     (s.entry way0).state = .offered ∧ (s.entry way0).recovery = none ∧ (s.entry way0).deadline = some 100 ∧ momentOf (s.entry way0) 100 ≤ present s)
    ∧ (let s := holding way0 .offered 1 2 (fun e => { e with deadline := some 101 }); ¬momentOf (s.entry way0) 101 ≤ present s)
    ∧ (∀ b, let s := holding way0 .lent 1 2 (fun e => { e with termEnd := some 100, inherited := b })
       (s.entry way0).state = .lent ∧ (s.entry way0).termPosted = false ∧ (s.entry way0).termEnd = some 100 ∧ momentOf (s.entry way0) 100 ≤ present s
         ∧ (s.entry way0).inherited = b)
    ∧ started.owner 9 = none
    ∧ (let o := { Owner.house with id := 2, heir := 1, keepAlive := 50 }
       let s : State := { started.putOwner o with us := 50 }
       s.owner 2 = some o ∧ o.lapsed = false ∧ o.id ≠ Config.house ∧ o.keepAlive ≠ 0 ∧ (o.renewed + o.keepAlive) * 1750 + o.renewedFrac ≤ present s)
    ∧ (started.owner 1 = some Owner.house ∧ Owner.house.keepAlive = 0) := by
  refine ⟨by decide +kernel, by decide +kernel, fun b => ?_, by decide +kernel⟩; cases b <;> decide +kernel
theorem test_hyp_recoveries :
    (let s := recovered false .seed (mkRes 1 0)
     (s.entry (mkRes 1 0)).id = mkRes 1 0 ∧ (s.entry (mkRes 1 0)).recovery.isSome = true ∧ s.entrySlots (mkRes 1 0) 2 ≠ [] ∧ isRevUnit (mkRes 1 0) = false
       ∧ (∃ y ∈ s.entrySlots (mkRes 1 0) 2, y.savable = true) ∧ 0 ≤ s.ratedNow ∧ ∀ o ∈ s.owners, o.dissolving = none)
    ∧ (let s := recovered true .free way0
       Plain way0 ∧ (s.entry way0).id = way0 ∧ s.entrySlots way0 2 = [] ∧ (s.entry way0).state ≠ .offeredLoan)
    ∧ (started.entry way0).recovery = none := by
  refine ⟨⟨by decide +kernel, by decide +kernel, by decide +kernel, by decide +kernel, ⟨(recovered false .seed (mkRes 1 0)).self, by decide +kernel⟩, by decide +kernel, by decide +kernel⟩, ?_, by decide +kernel⟩
  and_intros <;> (try unfold Plain) <;> decide +kernel
/-- A scan of the issuing core and of another; a millisecond since the last rebalancing, and none; addresses mapped clean and dirty, unmapped, and past
the frames; a line with a MAC. -/
theorem test_hyp_units :
    started.self.core = 0 ∧ started.self.core ≠ 4607 ∧ started.rebalanceDue 0 = false ∧ ({ started with us := 1000 } : State).rebalanceDue 3 = true
    ∧ mappedFive.mappedAt (2 ^ 22) = some (⟨640, true, true, false, true, 0, false, 0, false, 256, 0⟩, 0xA00000) ∧ started.mappedAt 0 = none
    ∧ 172031 * 2 ^ 21 / 2 ^ 21 < 172032 ∧ 172032 ≤ 172032 * 2 ^ 21 / 2 ^ 21
    ∧ ((swatched 1).mappedAt (2 ^ 22)).any (fun x => x.1.clean == false) = true
    ∧ started.storedMac 5 = none ∧ ({ started with sealedLines := [(5, 7)] } : State).storedMac 5 = some 7 := by
  and_intros <;> decide +kernel
/-- A request to the assay core, of each operation and of none, at a block that can be reached; a key slot held, held by another, and none. -/
def assaying (op id : Nat) : State :=
  let s := started.putOwner { Owner.house with assayreq := root pad, assaystat := 1 }
  (s.storeData 0x10000000014000 2 op).storeData 0x10000000014010 8 id
/-- Nothing of the block is protected, so nothing is made ready. -/
theorem assay_ready {s : State} {o : Owner} (h : s.accErr (s.assayAcc o true) = none) : s.assayReady o = s := by
  simp only [State.assayReady, State.unprotected, h]
theorem test_hyp_assays :
    started.owner 9 = none ∧ (∃ o, started.owner 1 = some o ∧ o.assaystat.getLsbD 0 = false)
    ∧ (∀ op ∈ [0, 1, 2, 3, 4, 5], let s := assaying op (mkRes 8 7).toNat
        ∃ o, s.owner 1 = some o ∧ o.id = 1 ∧ o.assaystat.getLsbD 0 = true ∧ s.remoteOf o.assayreq.addr.toNat = none ∧ s.assayBlocked o = false
          ∧ s.assayWaits o = false ∧ ofBytesLE (s.assayIn o 0 2) = op ∧ s.accErr (s.assayAcc o true) = none ∧ ofBytesLE (s.assayIn o 16 8) = (mkRes 8 7).toNat)
    ∧ resKind (mkRes 8 7) = 8 ∧ resValid (mkRes 8 7) = true ∧ started.holds 1 (mkRes 8 7) = true ∧ started.holds 2 (mkRes 8 7) = false ∧ resKind way0 ≠ 8 := by
  refine ⟨by decide +kernel, ⟨Owner.house, by decide +kernel⟩, fun op h => ⟨{ Owner.house with assayreq := root pad, assaystat := 1 }, ?_⟩, by decide +kernel⟩
  revert op; decide +kernel

/-- The seed's first word, before its slot is picked: it is settled; in strict mode it reads a register that its window has written. -/
def atFirst (w : Nat) : State := { State.reset.withFetchWord 32 w with picked := false }
def strictly (w : Nat) : State :=
  let s := atFirst w
  { s with self := { s.self with strict := true, afterTransfer := false, winStart := s.pc - 4, winWrites := [(.g 10, .cap .zero)] } }
/-- A word that is not done is not passed over. -/
theorem skip_none {x : Slot} (h : x.winDone.getLsbD x.pos = false) : x.skip 32 = x := by
  rw [show (32 : Nat) = 31 + 1 from rfl, Slot.skip, h, Bool.and_false, if_neg (by decide)]
theorem test_hyp_steps :
    (let s := atFirst 0x58000003
     s.picked = false ∧ AtWord s 0x58000003 ∧ (issuing s 0x58000003).fetch.toOption = some () ∧ decode 0x58000003 = .ok (false, .nop)
       ∧ Settled (issuing s 0x58000003).routersEmpty .nop)
    ∧ (let s := strictly 0x02952C00
       AtWord s 0x02952C00 ∧ (issuing s 0x02952C00).fetch.toOption = some () ∧ decode 0x02952C00 = .ok (false, .add 9 10 11)
         ∧ ¬Settled (issuing s 0x02952C00).routersEmpty (.add 9 10 11) ∧ (issuing s 0x02952C00).routersEmpty.self.strict = true)
    ∧ (∃ e, decode 0 = .error e) := by
  refine ⟨?_, ?_, ⟨_, rfl⟩⟩ <;> unfold AtWord Settled <;> and_intros <;> first | exact skip_none (by decide +kernel) | decide +kernel
/-- Events from outside; an event that is due, none due with a slot to issue, and with none. -/
theorem test_hyp_events :
    ({ atFirst 0 with agenda := [.hostQueuePass 0, .nop] } : State).agenda = .hostQueuePass 0 :: [.nop] ∧ isWord (.hostQueuePass 0) = false ∧ isWord .nop = true
    ∧ picks (.issueCycle 0 5) = true ∧ picks (.hostQueuePass 0) = false ∧ (atFirst 0).agenda = []
    ∧ (atFirst 0).routersEmpty.dueEvent.isNone = true ∧ (atFirst 0).nextIssuer.isSome = true ∧ State.reset.nextIssuer.isNone = true ∧ State.reset.agenda = []
    ∧ State.reset.picked = false := by
  and_intros <;> decide +kernel

/-! ### Steps: the first word after reset -/

/-- What the seed task's first word leads to. -/
def runs (w : Nat) (f : State → Bool) : Bool := match step (State.reset.withFetchWord 32 w) with
  | .next t => f t
  | _ => false
/-- R185: ADDI adds a sign-extended immediate; R173: the PCC moves to the next word. -/
theorem test_step_addi : runs 0x06C07FFB (fun t => t.x 12 == 0xFFFFFFFFFFFFFFFB && t.pc == started.pc + 4) = true := by decide +kernel
/-- R183: a division by zero gives all ones. -/
theorem test_step_div : runs 0x02C6B815 (fun t => t.x 12 == 0xFFFFFFFFFFFFFFFF) = true := by decide +kernel
/-- R190: JAL links the next word, and goes 16 words on. -/
theorem test_step_jal : runs 0x18100010 (fun t => t.x 1 == started.pc + 4 && t.pc == started.pc + 64) = true := by decide +kernel
/-- R362: a trap of a task without a vector aborts it: the slot is free. -/
theorem test_step_illegal : runs 0 (fun t => t.self.role == .free) = true := by decide +kernel
/-- Instructions at the limits of `Instr.wf`. -/
theorem test_hyp_round_trip :
    ∀ i ∈ ([.add 0 31 31, .fence 0b0101 0, .vldx 30 2 3 0 3, .vextg 1 2 15 3, .mma 2 3 14, .push 31 28 0, .swread 1 2 3 30, .swname 1 2 3 2] : List Instr),
      i.wf = true := by decide

end Sys2Proof.Tests
end

section
/-! SUPPORT. The events of the device itself: links, bring-up and RESET, the clock, benches that leave service, host queues. First what each
event does, one lemma for each outcome; then the statement of device events from them. -/
namespace Sys2Proof

open Machine Claims

/-! ### Links (R393, R399 to R401, R409) -/

theorem started_iff (s : State) : s.started = true ↔ s.bootstat.getLsbD 2 = true := Iff.rfl
theorem link_not_up_iff (s : State) (link : Nat) :
    (s.linkAt link).any Link.up = false ↔ ∀ l, s.linkAt link = some l → l.up = false := by
  cases s.linkAt link <;> simp

/-- What a link needs to train (R393, R401, R409): a started device, a signed peer in the fabric's range, and the link not yet up. -/
def MayTrain (s : State) (link : Nat) (peer : BitVec 14) (signed : Bool) : Prop :=
  s.bootstat.getLsbD 2 = true ∧ signed = true ∧ link < 47 ∧ peer.toNat < 8192 ∧ s.devnum.toNat < 8192 ∧ peer ≠ s.devnum
    ∧ ∀ l, s.linkAt link = some l → l.up = false

theorem mayTrain_iff (s : State) (link : Nat) (peer : BitVec 14) (signed : Bool) :
    (s.started && signed && decide (link < 47) && decide (peer.toNat < 8192) && decide (s.devnum.toNat < 8192)
      && peer != s.devnum && !(s.linkAt link).any Link.up) = true ↔ MayTrain s link peer signed := by
  simp only [Bool.and_eq_true, Bool.not_eq_true', link_not_up_iff, started_iff, decide_eq_true_eq, bne_iff_ne, MayTrain, and_assoc]

theorem exec_linkTraining_trains {s : State} {link : Nat} {peer : BitVec 14} {signed : Bool} (h : MayTrain s link peer signed) :
    exec (.linkTraining link peer signed) s = .next
      { s.putLink (linkUp link peer (agreedKey s.devnum peer (Config.linkSecret s.free) (Config.peerSecret s.free))) with
        unreachable := s.unreachable.filter (· != peer), free := s.free + 1 } :=
  if_pos ((mayTrain_iff s link peer signed).2 h)
theorem exec_linkTraining_rests {s : State} {link : Nat} {peer : BitVec 14} {signed : Bool} (h : ¬MayTrain s link peer signed) :
    exec (.linkTraining link peer signed) s = .next s :=
  if_neg (fun e => h ((mayTrain_iff s link peer signed).1 e))

theorem exec_linkNarrowing_some {s : State} {link : Nat} {l : Link} (h : s.linkAt link = some l) :
    exec (.linkNarrowing link) s = if !l.up then .next s else if l.width ≤ leastWidth link then .next (s.dropLink l)
      else .next { s.putLink { l with width := l.width / 2 } with devstat := s.devstat ||| 9 } := by
  show execLinkNarrowing link s = _
  rw [execLinkNarrowing, h]
theorem exec_linkDown_some {s : State} {link : Nat} {l : Link} (h : s.linkAt link = some l) :
    exec (.linkDown link) s = .next (s.dropLink l) := by
  show execLinkDown link s = _
  rw [execLinkDown, h]
theorem exec_ocsDrainRequest_some {s : State} {link : Nat} {l : Link} (h : s.linkAt link = some l) :
    exec (.ocsDrainRequest link) s = if l.up && !l.draining && decide (31 ≤ link) then
      .next { s.putLink { l with draining := true } with out := s.out ++ [.drainMarker link] } else .next s := by
  show execOcsDrainRequest link s = _
  rw [execOcsDrainRequest, h]
theorem exec_drainMarkerReturn_some {s : State} {link : Nat} {l : Link} (h : s.linkAt link = some l) :
    exec (.drainMarkerReturn link) s = if l.draining then .next (s.putLink { linkOff l with dark := true }) else .next s := by
  show execDrainMarkerReturn link s = _
  rw [execDrainMarkerReturn, h]; rfl

/-- A link that has never trained has no events but its training. -/
theorem exec_of_linkAt_none {s : State} {link : Nat} (h : s.linkAt link = none) :
    ∀ i ∈ ([.linkNarrowing link, .linkDown link, .ocsDrainRequest link, .drainMarkerReturn link] : List Instr), exec i s = .next s := by
  have narrowing : exec (.linkNarrowing link) s = .next s := by show execLinkNarrowing link s = _; rw [execLinkNarrowing, h]
  have down : exec (.linkDown link) s = .next s := by show execLinkDown link s = _; rw [execLinkDown, h]
  have drain : exec (.ocsDrainRequest link) s = .next s := by show execOcsDrainRequest link s = _; rw [execOcsDrainRequest, h]
  have marker : exec (.drainMarkerReturn link) s = .next s := by show execDrainMarkerReturn link s = _; rw [execDrainMarkerReturn, h]
  simpa using And.intro narrowing ⟨down, drain, marker⟩

/-- A link is left that carries traffic, or holds it until it trains again (R394, R400). -/
def KeepsLink (t : State) : Prop := ∃ x ∈ t.links, x.up = true ∨ x.dark = true ∨ x.draining = true

theorem keepsLink_iff (t : State) : t.links.any (fun l => l.up || l.dark || l.draining) = true ↔ KeepsLink t := by
  simp only [KeepsLink, List.any_eq_true, Bool.or_eq_true, or_assoc]
theorem dropLink_other {s : State} {l : Link} (h : KeepsLink (s.putLink (linkOff l))) : s.dropLink l = s.putLink (linkOff l) :=
  if_pos ((keepsLink_iff _).2 h)
theorem dropLink_last {s : State} {l : Link} (h : ¬KeepsLink (s.putLink (linkOff l))) :
    s.dropLink l = (s.putLink (linkOff l)).giveUp (fun _ => true) :=
  if_neg (fun e => h ((keepsLink_iff _).1 e))

/-- A peer whose traffic is held (R400): a link is dark, and no link to the peer is up. -/
def RouteHeld (s : State) (peer : BitVec 14) : Prop := (∃ x ∈ s.links, x.dark = true) ∧ ∀ x ∈ s.links, ¬(x.up = true ∧ x.peer = peer)

theorem routeHeld_iff (s : State) (peer : BitVec 14) :
    (s.links.any Link.dark && !(s.links.any (fun l => l.up && l.peer == peer))) = true ↔ RouteHeld s peer := by
  simp [RouteHeld]
theorem exec_routeHoldTimeout_held {s : State} {peer : BitVec 14} (h : RouteHeld s peer) :
    exec (.routeHoldTimeout peer) s = .next ({ s with unreachable := s.unreachable.insert peer }.giveUp (· == peer)) :=
  if_pos ((routeHeld_iff s peer).2 h)
theorem exec_routeHoldTimeout_rests {s : State} {peer : BitVec 14} (h : ¬RouteHeld s peer) :
    exec (.routeHoldTimeout peer) s = .next s :=
  if_neg (fun e => h ((routeHeld_iff s peer).1 e))

theorem linkEvents : Claims.LinkEvents := by
  intro s link l peer signed
  refine ⟨fun h => ⟨_, _, exec_linkTraining_trains h⟩, fun h => exec_linkTraining_rests h, exec_of_linkAt_none,
    fun h => ⟨fun hu => ?_, fun hu hw => ?_, fun hu hw => ?_, fun hk => ?_, fun hk => ?_, fun hu hd hl => ?_, fun hn => ?_, fun hd => ?_,
      fun hd => ?_⟩,
    fun h => ⟨_, fun _ => List.mem_insert_iff, exec_routeHoldTimeout_held h⟩, fun h => exec_routeHoldTimeout_rests h⟩
  · simp [exec_linkNarrowing_some h, hu]
  · have wide : ¬l.width ≤ leastWidth link := Nat.not_le.2 hw
    simp [exec_linkNarrowing_some h, hu, wide]
  · have narrow : l.width ≤ leastWidth link := hw
    simp [exec_linkNarrowing_some h, exec_linkDown_some h, hu, narrow]
  · rw [exec_linkDown_some h, dropLink_other hk]
  · rw [exec_linkDown_some h, dropLink_last hk]
  · simp [exec_ocsDrainRequest_some h, hu, hd, hl]
  · rw [exec_ocsDrainRequest_some h, if_neg (by simpa [and_assoc] using hn)]
  · rw [exec_drainMarkerReturn_some h, if_pos hd]
  · simp [exec_drainMarkerReturn_some h, hd]

/-! ### The clock, PCI Express, benches (R5, R402, R412) -/

theorem exec_clockStep (s : State) (up : Bool) :
    exec (.clockStep up) s = .next { s with
      clock := if up then (if s.clock + 25 ≤ 1750 then s.clock + 25 else s.clock) else (if 1025 ≤ s.clock then s.clock - 25 else s.clock) } := by
  have least : 1000 ≤ s.clock - 25 ↔ 1025 ≤ s.clock := by omega
  cases up with
  | true => rfl
  | false => exact congrArg (fun c : Nat => Host.Outcome.next { s with clock := c }) (if_congr least rfl rfl)
theorem exec_ideStreamKeying (s : State) (link : BitVec 1) : exec (.ideStreamKeying link) s = .next { s with ide := s.ide.insert link } := by
  show execIdeStreamKeying link s = _
  unfold execIdeStreamKeying
  by_cases h : s.ide.contains link = true
  · rw [if_pos h, List.insert_of_mem (by simpa using h)]
  · rw [if_neg h, List.insert_of_not_mem (by simpa using h)]
theorem exec_benchQuarantine_none {s : State} {bench : Nat} (h : 96 ≤ bench) : exec (.benchQuarantine bench) s = .next s := if_pos h
theorem exec_benchQuarantine {s : State} {bench : Nat} (h : bench < 96) :
    exec (.benchQuarantine bench) s = .next { s with quarantined := s.quarantined.insert bench, devstat := s.devstat ||| 5 } :=
  if_neg (Nat.not_le.2 h)

theorem serviceEvents : Claims.ServiceEvents := fun s up link _ =>
  ⟨exec_clockStep s up, ⟨_, fun _ => List.mem_insert_iff, exec_ideStreamKeying s link⟩, exec_benchQuarantine_none,
    fun h => ⟨_, fun _ => List.mem_insert_iff, exec_benchQuarantine h⟩⟩

/-! ### Bring-up (R408 to R410) -/

theorem hostHeard_iff (s : State) : s.hostHeard = true ↔ s.ide ≠ [] := by simp [State.hostHeard]
theorem hostHeard_none {s : State} (h : s.ide = []) : s.hostHeard = false := by simp [State.hostHeard, h]

theorem exec_devnumWrite_ignored {s : State} {v : U64} (h : ¬(s.ide ≠ [] ∧ s.started = false)) : exec (.devnumWrite v) s = .next s :=
  congrArg Host.Outcome.next (if_neg (by simpa [hostHeard_iff] using h))
theorem exec_devnumWrite {s : State} {v : U64} (h : s.ide ≠ []) (h1 : s.started = false) :
    exec (.devnumWrite v) s = .next { s with devnum := BitVec.ofNat 14 v.toNat } := by
  show execDevnumWrite v s = _
  rw [execDevnumWrite, if_pos (by simp [hostHeard_iff, h, h1]), ext64_eq, pow_zero, Nat.div_one]

/-- The write that starts the device (R408, R410): its first with bit 63 set, once firmware is verified and memory tested. -/
def StartsDevice (s : State) (v : U64) : Prop := v.getLsbD 63 = true ∧ s.started = false ∧ s.bootstat.toNat % 4 = 3

theorem startsDevice_iff (s : State) (v : U64) :
    (v.getLsbD 63 && !s.started && s.bootstat.extractLsb' 0 2 == 3) = true ↔ StartsDevice s v := by
  simp [StartsDevice, ext_eq, and_assoc]
theorem seedPcc_eq (v : U64) : seedPcc (v.extractLsb' 0 48) = Cap.make 0xA60 0 hostBase (2 ^ 48) (hostBase + v.toNat % 2 ^ 48) := by
  rw [seedPcc, ext_mod, pow_zero, Nat.div_one]
theorem exec_start_unheard {s : State} {v : U64} (h : s.ide = []) : exec (.start v) s = .next s :=
  if_pos (by rw [hostHeard_none h]; rfl)
theorem exec_start_heard {s : State} (v : U64) (h : s.ide ≠ []) :
    let t := { s with startReg := v &&& 0x8000FFFFFFFFFFFF }
    exec (.start v) s = if v.getLsbD 63 && !s.started && s.bootstat.extractLsb' 0 2 == 3 then
      .next (({ t with bootstat := t.bootstat ||| 4 }).seed (v.extractLsb' 0 48)) else .next t :=
  if_neg (by simp [hostHeard_iff, h])
theorem exec_start_only_written {s : State} {v : U64} (h : s.ide ≠ []) (h1 : ¬StartsDevice s v) :
    exec (.start v) s = .next { s with startReg := v &&& 0x8000FFFFFFFFFFFF } :=
  (exec_start_heard v h).trans (if_neg (fun e => h1 ((startsDevice_iff s v).1 e)))
theorem exec_start_starts {s : State} {v : U64} (h : s.ide ≠ []) (h1 : StartsDevice s v) :
    exec (.start v) s = .next ({ s with startReg := v &&& 0x8000FFFFFFFFFFFF, bootstat := s.bootstat ||| 4 }.startTask 0 0 .seed 1
      (Cap.make 0xA60 0 hostBase (2 ^ 48) (hostBase + v.toNat % 2 ^ 48)) deviceRoot .zero (Cap.make 0x00C 0 0 256 0) .zero .zero) := by
  rw [exec_start_heard v h, if_pos ((startsDevice_iff s v).2 h1), State.seed, seedPcc_eq]; rfl

/-! ### RESET (R56, R407) -/

theorem entry_putEntry_other (s : State) (e : Entry) (id : U64) (h : id ≠ e.id) : (s.putEntry e).entry id = s.entry id := by
  have key : id.toNat ≠ entryKey e := fun k => h (BitVec.eq_of_toNat_eq k)
  simp [State.entry, State.putEntry, findBy_putBy_other _ _ _ key]

/-- The entry of a frame that is found bad at RESET. -/
def badFrame (t : State) (f : Nat) : State := t.putEntry { Entry.atReset (mkRes 3 f) with state := .retired }

theorem foldl_badFrame_shape (l : List Nat) (t : State) : l.foldl badFrame t = { t with entries := (l.foldl badFrame t).entries } := by
  induction l generalizing t with
  | nil => rfl
  | cons f l ih => rw [List.foldl_cons, ih]; rfl
theorem entry_foldl_badFrame_other {l : List Nat} {id : U64} (h : ∀ f ∈ l, id ≠ mkRes 3 f) (t : State) :
    (l.foldl badFrame t).entry id = t.entry id := by
  induction l generalizing t with
  | nil => rfl
  | cons f l ih =>
    obtain ⟨hf, hl⟩ := List.forall_mem_cons.1 h
    rw [List.foldl_cons, ih hl]
    exact entry_putEntry_other _ _ _ hf
theorem entry_foldl_badFrame {l : List Nat} {id : U64} {t : State} (h : (t.entry id).state = .retired ∨ ∃ f ∈ l, id = mkRes 3 f) :
    ((l.foldl badFrame t).entry id).state = .retired := by
  induction l generalizing t with
  | nil => simpa using h
  | cons k l ih =>
    refine ih ?_
    by_cases hk : id = mkRes 3 k
    · exact .inl (by rw [badFrame, entry_put _ _ _ hk.symm])
    · rcases h with h | ⟨f, hf, e⟩
      · exact .inl (by rw [badFrame, entry_putEntry_other _ _ _ hk, h])
      · rcases List.mem_cons.1 hf with rfl | hf
        · exact absurd e hk
        · exact .inr ⟨f, hf, e⟩

theorem countRetired_shape (s : State) : s.countRetired = { s with devstat := s.countRetired.devstat } := by
  unfold State.countRetired
  dsimp only
  split <;> rfl
theorem countRetired_entry (s : State) (id : U64) : s.countRetired.entry id = s.entry id := by
  rw [countRetired_shape]; rfl

/-- The machine as RESET leaves it, before any frame is judged. -/
def afterReset (s : State) : State := { State.reset with
  free := s.free, nextTxn := s.nextTxn, nextId := s.nextId, out := s.out, boots := s.boots + 1, bootKeys := BootKeys.drawn (s.boots + 1) }
/-- The frames that RESET retires: those of the list that exist (R38). -/
def badFrames (bad : List Nat) : List Nat := bad.filter (fun f => decide (f < Config.hbmFrames))
/-- The machine after RESET with firmware that verifies. -/
def verifiedReset (bad : List Nat) (s : State) : State := ((badFrames bad).foldl badFrame (afterReset s)).countRetired

theorem mem_badFrames {bad : List Nat} {id : U64} : (∃ f ∈ badFrames bad, id = mkRes 3 f) ↔ ∃ f ∈ bad, f < 172032 ∧ id = mkRes 3 f := by
  simp only [badFrames, List.mem_filter, decide_eq_true_eq, and_assoc]; rfl
theorem exec_reset_unverified (s : State) (bad : List Nat) : exec (.reset false bad) s = .next { afterReset s with bootstat := 0 } := rfl
theorem exec_reset_verified (s : State) (bad : List Nat) : exec (.reset true bad) s = .next (verifiedReset bad s) := rfl
theorem verifiedReset_shape (bad : List Nat) (s : State) :
    verifiedReset bad s = { afterReset s with entries := (verifiedReset bad s).entries, devstat := (verifiedReset bad s).devstat } := by
  rw [verifiedReset, countRetired_shape, foldl_badFrame_shape]
theorem verifiedReset_bad {bad : List Nat} {id : U64} (s : State) (h : ∃ f ∈ bad, f < 172032 ∧ id = mkRes 3 f) :
    ((verifiedReset bad s).entry id).state = .retired := by
  rw [verifiedReset, countRetired_entry, entry_foldl_badFrame (.inr (mem_badFrames.2 h))]
theorem verifiedReset_good {bad : List Nat} {id : U64} (s : State) (h : ¬∃ f ∈ bad, f < 172032 ∧ id = mkRes 3 f) :
    (verifiedReset bad s).entry id = State.reset.entry id := by
  have good : ∀ f ∈ badFrames bad, id ≠ mkRes 3 f := fun f hf e => h (mem_badFrames.1 ⟨f, hf, e⟩)
  rw [verifiedReset, countRetired_entry, entry_foldl_badFrame_other good]; rfl

theorem bringUp : Claims.BringUp := by
  intro s v bad
  refine ⟨fun h => ⟨exec_devnumWrite_ignored fun e => e.1 h, exec_start_unheard h⟩,
    fun h => ⟨fun hs => ⟨?_, ?_⟩, fun hs => ?_, fun hs hw => ?_, fun hs hv hb => ?_⟩,
    exec_reset_unverified s bad, _, exec_reset_verified s bad, verifiedReset_shape bad s, fun _ => verifiedReset_bad s,
    fun _ => verifiedReset_good s⟩
  · exact exec_devnumWrite_ignored fun e => by simp [(started_iff s).2 hs] at e
  · exact exec_start_only_written h fun e => by simp [StartsDevice, (started_iff s).2 hs] at e
  · exact exec_devnumWrite h (Bool.eq_false_iff.2 hs)
  · refine exec_start_only_written h fun ⟨hv, _, hb⟩ => ?_
    rcases hw with hw | hw
    · rw [hw] at hv; cases hv
    · exact hw hb
  · exact exec_start_starts h ⟨hv, Bool.eq_false_iff.2 hs, hb⟩

/-! ### Host work queues (R403 to R405, R414) -/

/-- A write to a queue's window is heard over a keyed link, at a queue that exists (R402, R403). -/
def PushReaches (s : State) (q : Nat) (link : BitVec 1) : Prop := link ∈ s.ide ∧ resValid (mkRes 7 q) = true
/-- A push enters its queue: one whole block, to a bound queue with room (R403). -/
def PushEnters (s : State) (q : Nat) (whole : Bool) : Prop := whole = true ∧ (s.hostq q).ctx.isSome = true ∧ (s.hostq q).blocks.length < 16

section
variable {s : State} {q : Nat} {link : BitVec 1} {whole : Bool} (w0 w1 w2 w3 : U128)

theorem exec_hostPush_lost (h : ¬PushReaches s q link) : exec (.hostPush q link whole w0 w1 w2 w3) s = .next s := by
  refine if_pos ?_
  simpa [PushReaches, imp_iff_not_or] using h
theorem exec_hostPush_reaches (h : PushReaches s q link) : exec (.hostPush q link whole w0 w1 w2 w3) s =
    if whole && (s.hostq q).ctx.isSome && (s.hostq q).blocks.length < 16 then
      .next (s.putHostq { s.hostq q with blocks := (s.hostq q).blocks ++ [(w0, w1, w2, w3)] })
    else .next (s.putHostq { s.hostq q with dropped := (s.hostq q).dropped + 1 }) := by
  obtain ⟨hl, hq⟩ := h
  exact if_neg (by simp [hl, hq])
theorem exec_hostPush_enters (h : PushReaches s q link) (h1 : PushEnters s q whole) : exec (.hostPush q link whole w0 w1 w2 w3) s =
    .next (s.putHostq { s.hostq q with blocks := (s.hostq q).blocks ++ [(w0, w1, w2, w3)] }) := by
  rw [exec_hostPush_reaches _ _ _ _ h, if_pos (by simpa [PushEnters, and_assoc] using h1)]
theorem exec_hostPush_drops (h : PushReaches s q link) (h1 : ¬PushEnters s q whole) : exec (.hostPush q link whole w0 w1 w2 w3) s =
    .next (s.putHostq { s.hostq q with dropped := (s.hostq q).dropped + 1 }) := by
  rw [exec_hostPush_reaches _ _ _ _ h, if_neg (by simpa [PushEnters, and_assoc] using h1)]
end

/-- Words 0 and 1 of a block, as its command code uses them (R405). -/
def passedWord0 (s : State) (q : Nat) (x0 x3 : U128) : Cap := s.hostWord (wordUse (x3.toNat % 2 ^ 8)).1 (s.hostq q).cap0 x0
def passedWord1 (s : State) (q : Nat) (x1 x3 : U128) : Cap := s.hostWord (wordUse (x3.toNat % 2 ^ 8)).2 (s.hostq q).cap1 x1
/-- A word of a block that should be a capability could not be derived (R405). -/
def Underived (s : State) (q : Nat) (x0 x1 x3 : U128) : Prop :=
  let use := wordUse (x3.toNat % 2 ^ 8)
  (use.1 ≠ 0 ∧ (passedWord0 s q x0 x3).tag = false) ∨ (use.2 ≠ 0 ∧ (passedWord1 s q x1 x3).tag = false)
/-- The error that such a block completes with. -/
def passedError (s : State) (q : Nat) (x0 x1 x3 : U128) : Option U16 :=
  let use := wordUse (x3.toNat % 2 ^ 8)
  if (use.1 != 0 && !(passedWord0 s q x0 x3).tag) || (use.2 != 0 && !(passedWord1 s q x1 x3).tag) then some 4 else none

theorem passedError_some {s : State} {q : Nat} {x0 x1 x3 : U128} (h : Underived s q x0 x1 x3) : passedError s q x0 x1 x3 = some 4 :=
  if_pos (by simpa [Underived] using h)
theorem passedError_none {s : State} {q : Nat} {x0 x1 x3 : U128} (h : ¬Underived s q x0 x1 x3) : passedError s q x0 x1 x3 = none :=
  if_neg (by simpa [Underived] using h)

theorem exec_hostQueuePass_rests {s : State} {q : Nat} (h : (s.hostq q).blocks = [] ∨ (s.hostq q).ctx = none) :
    exec (.hostQueuePass q) s = .next s := by
  show execHostQueuePass q s = _
  unfold execHostQueuePass State.passBlock
  rcases h with h | h
  · simp [h]
  · cases hb : (s.hostq q).blocks <;> simp [h, hb]

section
variable {s : State} {q : Nat} {x0 x1 x2 x3 : U128} {rest : List (U128 × U128 × U128 × U128)} {ci gen : Nat}

theorem passBlock_head (hb : (s.hostq q).blocks = (x0, x1, x2, x3) :: rest) (hc : (s.hostq q).ctx = some (ci, gen)) :
    s.passBlock q =
      if (s.ctx ci).gen ≠ gen then s.putHostq { s.hostq q with blocks := rest, dropped := (s.hostq q).dropped + 1 }
      else if 32 ≤ (s.ctx ci).waiting.length then s
      else (s.putHostq { s.hostq q with blocks := rest }).accept ci (passedWord0 s q x0 x3) (passedWord1 s q x1 x3) (word128 x2) (word128 x3) none
        (passedError s q x0 x1 x3) := by
  have code : (x3.extractLsb' 0 8).toNat = x3.toNat % 2 ^ 8 := by rw [ext128_mod, fld, pow_zero, Nat.div_one]
  unfold State.passBlock
  simp only [hb, hc, code]
  rfl
theorem exec_hostQueuePass_stale (hb : (s.hostq q).blocks = (x0, x1, x2, x3) :: rest) (hc : (s.hostq q).ctx = some (ci, gen))
    (hg : (s.ctx ci).gen ≠ gen) :
    exec (.hostQueuePass q) s = .next (s.putHostq { s.hostq q with blocks := rest, dropped := (s.hostq q).dropped + 1 }) :=
  congrArg Host.Outcome.next ((passBlock_head hb hc).trans (if_pos hg))
theorem exec_hostQueuePass_waits (hb : (s.hostq q).blocks = (x0, x1, x2, x3) :: rest) (hc : (s.hostq q).ctx = some (ci, gen))
    (hg : (s.ctx ci).gen = gen) (hw : 32 ≤ (s.ctx ci).waiting.length) : exec (.hostQueuePass q) s = .next s :=
  congrArg Host.Outcome.next ((passBlock_head hb hc).trans ((if_neg (not_not.2 hg)).trans (if_pos hw)))
theorem exec_hostQueuePass_accepts (hb : (s.hostq q).blocks = (x0, x1, x2, x3) :: rest) (hc : (s.hostq q).ctx = some (ci, gen))
    (hg : (s.ctx ci).gen = gen) (hw : (s.ctx ci).waiting.length < 32) :
    exec (.hostQueuePass q) s = .next ((s.putHostq { s.hostq q with blocks := rest }).accept ci (passedWord0 s q x0 x3) (passedWord1 s q x1 x3)
      (word128 x2) (word128 x3) none (passedError s q x0 x1 x3)) :=
  congrArg Host.Outcome.next ((passBlock_head hb hc).trans ((if_neg (not_not.2 hg)).trans (if_neg (Nat.not_le.2 hw))))
end

theorem hostQueues : Claims.HostQueues := by
  intro s q link whole w0 w1 w2 w3
  refine ⟨exec_hostPush_lost w0 w1 w2 w3, exec_hostPush_enters w0 w1 w2 w3, exec_hostPush_drops w0 w1 w2 w3, exec_hostQueuePass_rests,
    fun x0 x1 x2 x3 rest ci gen hb hc => ⟨exec_hostQueuePass_stale hb hc, exec_hostQueuePass_waits hb hc, fun hg hw =>
      ⟨_, passedError_some, passedError_none, exec_hostQueuePass_accepts hb hc hg hw⟩⟩⟩

/-- Settles O52, part by part: links, the clock and benches, bring-up and RESET, host queues. -/
theorem deviceEvents : Obligations.device_events := ⟨linkEvents, serviceEvents, bringUp, hostQueues⟩

end Sys2Proof
end

section
/-! SUPPORT. Capabilities: when a cursor keeps its bounds, the setting of bounds, and sealing. First what each operation answers, one lemma
for each outcome; then the statements from them. -/
namespace Sys2Proof
open Machine Claims

/-! ### Cursors and bounds (R16, R17) -/

/-- Which of the windows of 2 ^ 18 granules, counted from granule `lim`, holds a granule (R16). -/
def windowOf (lim q : Nat) : Int := (q / 2 ^ 18 : Nat) - iver (decide (q % 2 ^ 18 < lim))

theorem windowOf_eq_iff {lim : Nat} (hl : lim < 2 ^ 18) (q : Nat) (w : Int) :
    windowOf lim q = w ↔ w * 2 ^ 18 + lim ≤ q ∧ (q : Int) < w * 2 ^ 18 + lim + 2 ^ 18 := by
  obtain ⟨lo, hi⟩ := own_region q lim hl
  unfold windowOf
  constructor
  · rintro rfl
    exact ⟨lo, hi⟩
  · rintro ⟨h1, h2⟩
    norm_num at h1 h2 ⊢
    omega

/-- A cursor is in a window, measured in bytes, exactly when its granule is. -/
theorem cursor_mem_window_iff (e a : Nat) (n : Int) :
    (n * 2 ^ e ≤ a ∧ (a : Int) < n * 2 ^ e + 2 ^ (e + 18)) ↔ n ≤ (a / 2 ^ e : Nat) ∧ ((a / 2 ^ e : Nat) : Int) < n + 2 ^ 18 := by
  have hp : (0 : Int) < 2 ^ e := by positivity
  have hs : n * 2 ^ e + 2 ^ (e + 18) = (n + 2 ^ 18) * 2 ^ e := by ring
  rw [hs, Int.natCast_div, Nat.cast_pow, Nat.cast_ofNat, Int.le_ediv_iff_mul_le hp, Int.ediv_lt_iff_lt_mul hp]

/-- The granule at which the representable region begins within a window: R16's lim. -/
def regionLim (c : Cap) : Nat :=
  (c.mantT.toNat + (2 ^ 18 - (c.mantT.toNat + 2 ^ 18 - c.mantB.toNat) % 2 ^ 18 + 1) / 2) % 2 ^ 18
theorem regionLim_lt (c : Cap) : regionLim c < 2 ^ 18 := Nat.mod_lt _ (by decide)

/-- Decoding at an exponent below 46, by the window that the cursor is in (R16). -/
theorem boundsAt_of_expo_lt {c : Cap} (h : c.expo.toNat < 46) (a : U64) :
    let w := windowOf (regionLim c) (a.toNat / 2 ^ c.expo.toNat)
    let place (m : BitVec 18) : Int :=
      w * 2 ^ (c.expo.toNat + 18) + (iver (decide (m.toNat < regionLim c)) * 2 ^ (c.expo.toNat + 18) + m.toNat * 2 ^ c.expo.toNat)
    c.boundsAt a = { base := place c.mantB, top := place c.mantT, region := (w * 2 ^ 18 + regionLim c) * 2 ^ c.expo.toNat
                     size := 2 ^ (c.expo.toNat + 18) } := by
  have he : Nat.min c.expo.toNat 46 = c.expo.toNat := Nat.min_eq_left (by omega)
  have hq : a.toNat / 2 ^ (c.expo.toNat + 18) = a.toNat / 2 ^ c.expo.toNat / 2 ^ 18 := by rw [pow_add, Nat.div_div_eq_div_mul]
  unfold Cap.boundsAt windowOf regionLim
  simp only [he, if_neg (show c.expo.toNat ≠ 46 by omega), hq]
  refine (Bounds.mk.injEq ..).mpr ⟨by ring, by ring, by rw [pow_add]; ring, rfl⟩
theorem boundsAt_of_expo_ge {c : Cap} (h : 46 ≤ c.expo.toNat) (a b : U64) :
    c.boundsAt a = c.boundsAt b ∧ (c.boundsAt a).region = 0 ∧ (c.boundsAt a).size = 2 ^ 64 := by
  have he : Nat.min c.expo.toNat 46 = 46 := Nat.min_eq_right h
  simp [Cap.boundsAt, he]

/-- Settles O8: below exponent 46 base and top move with the window that the cursor is in, and the representable region is that window;
from 46 on neither depends on the cursor. -/
theorem representableIffSameBounds : Obligations.representable_iff_same_bounds := by
  intro c a
  rw [Cap.representable, Bool.and_eq_true, decide_eq_true_iff, decide_eq_true_iff, Cap.bounds]
  rcases Nat.lt_or_ge c.expo.toNat 46 with h | h
  · have hp : (2 : Int) ^ (c.expo.toNat + 18) ≠ 0 := by positivity
    simp only [boundsAt_of_expo_lt h]
    rw [cursor_mem_window_iff, ← windowOf_eq_iff (regionLim_lt c)]
    constructor
    · intro hw
      rw [hw]
      exact ⟨rfl, rfl⟩
    · rintro ⟨hw, -⟩
      exact mul_right_cancel₀ hp (add_right_cancel hw)
  · obtain ⟨same, region, size⟩ := boundsAt_of_expo_ge h c.addr a
    have ha := a.isLt
    rw [region, size, ← same]
    exact iff_of_true ⟨by omega, by omega⟩ ⟨rfl, rfl⟩

/-! ### Setting bounds (R18, R200, R202) -/

/-- Settles O9: what each of the three writes is `Cap.setBounds` of its source. -/
theorem setBounds : Obligations.set_bounds := fun _ _ _ _ _ =>
  ⟨⟨_, putsG_of rfl, setBounds_spec⟩, ⟨_, putsG_of rfl, setBounds_spec⟩, ⟨_, putsG_of rfl, setBounds_spec⟩⟩

/-! ### Sealing (R26, R27, R31) -/

theorem exec_cseal_stops {s : State} {d a b : BitVec 5} {cls : BitVec 6} (h : s.sealClass (s.g a) (s.g b) .se false = some cls) :
    exec (.cseal d a b) s = .next (s.sealTrap a b cls) := by
  show execCseal d a b s = _
  simp only [execCseal, h]
theorem exec_cunseal_stops {s : State} {d a b : BitVec 5} {cls : BitVec 6} (h : s.sealClass (s.g a) (s.g b) .us true = some cls) :
    exec (.cunseal d a b) s = .next (s.sealTrap a b cls) := by
  show execCunseal d a b s = _
  simp only [execCunseal, h]

section
variable {s : State} {d a b : BitVec 5}

theorem exec_cseal_passes (h : SealPasses s (s.g a) (s.g b) .se false) : exec (.cseal d a b) s =
    if sealable (s.g b).addr.toNat ∧ ((s.g b).addr.toNat < 16 → (s.g a).holds .x = true) then
      s.putCap d (retyped (s.g a) (BitVec.ofNat 8 (s.g b).addr.toNat))
    else .next (s.trap 0x06 0) := by
  have trapped : s.sealTrap a b 0x06 = s.trap 0x06 0 := sealTrap_plain (by decide)
  show execCseal d a b s = _
  simp only [execCseal, sealClass_none h, sealable_iff, trapped]
  by_cases ho : sealable (s.g b).addr.toNat
  · by_cases hx : (s.g b).addr.toNat < 16 → (s.g a).holds .x = true
    · rw [if_neg (by simpa only [Bool.not_eq_true', decide_eq_false_iff_not, not_not] using ho), if_neg (by simpa using hx), if_pos ⟨ho, hx⟩]; rfl
    · rw [if_neg (by simpa only [Bool.not_eq_true', decide_eq_false_iff_not, not_not] using ho), if_pos (by simpa using hx), if_neg (fun e => hx e.2)]
  · rw [if_pos (by simpa only [Bool.not_eq_true', decide_eq_false_iff_not] using ho), if_neg (fun e => ho e.1)]
theorem exec_cunseal_passes (h : SealPasses s (s.g a) (s.g b) .us true) : exec (.cunseal d a b) s =
    if 16 ≤ (s.g a).otype.toNat ∧ (s.g b).addr.toNat = (s.g a).otype.toNat then s.putCap d (retyped (s.g a) 0)
    else .next (s.trap 0x06 0) := by
  have trapped : s.sealTrap a b 0x06 = s.trap 0x06 0 := sealTrap_plain (by decide)
  show execCunseal d a b s = _
  simp only [execCunseal, sealClass_none h, trapped]
  by_cases ho : 16 ≤ (s.g a).otype.toNat
  · by_cases hk : (s.g b).addr.toNat = (s.g a).otype.toNat
    · rw [if_neg (by omega), if_neg (not_not.2 hk), if_pos ⟨ho, hk⟩]; rfl
    · rw [if_neg (by omega), if_pos hk, if_neg (fun e => hk e.2)]
  · rw [if_pos (by omega), if_neg (fun e => ho e.1)]
end

theorem setG_setG_same (s : State) (n : BitVec 5) (c : Cap) : (s.setG n c).setG n c = s.setG n c := by
  unfold State.setG Slot.setG
  split
  · rfl
  · simp

theorem isRevoked_iff (s : State) (c : Cap) : s.isRevoked c = true ↔ c.tag = true ∧ s.revokedAddr c.bounds.base.toNat = true := by
  simp [State.isRevoked]
theorem isRevoked_setG (s : State) (n : BitVec 5) (c k : Cap) : (s.setG n c).isRevoked k = s.isRevoked k := rfl
/-- An operand that has lost its tag is not revoked any more, and losing it again changes nothing; another operand is as it was. -/
theorem untag_after_untag (s : State) (a b : BitVec 5) :
    let u := if s.isRevoked (s.g a) = true then s.setG a (s.g a).untag else s
    (if u.isRevoked (u.g b) = true then u.setG b (u.g b).untag else u) = if s.isRevoked (s.g b) = true then u.setG b (s.g b).untag else u := by
  by_cases ha : s.isRevoked (s.g a) = true
  · by_cases hb : b = a
    · subst hb
      have lost : (s.setG b (s.g b).untag).isRevoked ((s.setG b (s.g b).untag).g b) = false := by
        by_cases h0 : b = 0
        · subst h0; rfl
        · rw [State.g_setG, if_pos ⟨rfl, h0⟩]; rfl
      simp only [if_pos ha, lost, setG_setG_same]
      rfl
    · simp [if_pos ha, hb, isRevoked_setG]
  · simp only [if_neg ha]

/-- The trap of a seal, and what a use of a revoked operand takes from it (R31). -/
theorem sealTrap_eq (s : State) (a b : BitVec 5) (cls : BitVec 6) :
    s.sealTrap a b cls = (if cls = 0x16 then untagRevoked s a b else s).trap cls 0 := by
  by_cases hc : cls = 0x16
  · unfold State.sealTrap untagRevoked
    simp only [if_pos hc, ← isRevoked_iff]
    exact congrArg (State.trap · cls 0) (untag_after_untag s a b).symm
  · rw [sealTrap_plain hc, if_neg hc]

theorem sealingCompletes : SealingCompletes := fun _ _ _ _ =>
  ⟨fun h ho hx => putsG_of ((exec_cseal_passes h).trans (if_pos ⟨ho, hx⟩)),
    fun h ho hk => putsG_of ((exec_cunseal_passes h).trans (if_pos ⟨ho, hk⟩))⟩
theorem sealingTraps : SealingTraps := fun s _ a b cls =>
  ⟨fun h => (exec_cseal_stops (sealClass_some h)).trans (congrArg Host.Outcome.next (sealTrap_eq s a b cls)),
    fun h => (exec_cunseal_stops (sealClass_some h)).trans (congrArg Host.Outcome.next (sealTrap_eq s a b cls)),
    fun h hn => (exec_cseal_passes h).trans (if_neg hn), fun h hn => (exec_cunseal_passes h).trans (if_neg hn)⟩

/-- Settles O11: where the checks pass, and the traps in their order. -/
theorem sealing : Obligations.sealing := ⟨sealingCompletes, sealingTraps⟩

end Sys2Proof
end

section
/-! SUPPORT. What expires, what errs, and the assay core: deadlines, terms, lapses and recoveries; the register scan, cache classes, errors in memory;
the operations on an assay block. First what each event answers, one lemma for each outcome; then the statements from them. -/
namespace Sys2Proof
open Machine Claims

/-! ### Deadlines and terms (R42) -/

theorem offerOver_iff (s : State) (e : Entry) : s.offerOver e = true ↔
    (e.state = .offered ∨ e.state = .offeredLoan) ∧ e.recovery = none ∧ ∃ t, e.deadline = some t ∧ momentOf e t ≤ present s := by
  unfold State.offerOver
  cases e.deadline <;> simp [timeUp_iff, momentOf, and_assoc]
theorem termOver_iff (s : State) (e : Entry) : s.termOver e = true ↔
    e.state = .lent ∧ e.termPosted = false ∧ ∃ t, e.termEnd = some t ∧ momentOf e t ≤ present s := by
  unfold State.termOver
  cases e.termEnd <;> simp [timeUp_iff, momentOf, and_assoc]

theorem exec_offerDeadline_over {s : State} {id : U64} (h : s.offerOver (s.entry id) = true) :
    exec (.offerDeadline id) s = .next (s.putEntry (withdrawn (s.entry id))) := congrArg Host.Outcome.next (if_pos h)
theorem exec_offerDeadline_stands {s : State} {id : U64} (h : ¬s.offerOver (s.entry id) = true) : exec (.offerDeadline id) s = .next s :=
  congrArg Host.Outcome.next (if_neg h)

/-- The state in which a loan's term has ended and its holder has heard of it (R42). -/
def termNoticed (s : State) (id : U64) (t : Nat) : State :=
  (s.putEntry { s.entry id with termPosted := true }).notice (s.entry id).holder
    { kind := 11, status := 0, source := s.source 2 (s.entry id).other.toNat, number := 0, d0 := id, d1 := BitVec.ofNat 64 t }

theorem exec_termEnd_stands {s : State} {id : U64} (h : ¬s.termOver (s.entry id) = true) : exec (.termEnd id) s = .next s :=
  congrArg Host.Outcome.next (if_pos (by simpa using h))
theorem exec_termEnd_over {s : State} {id : U64} {t : Nat} (h : s.termOver (s.entry id) = true) (ht : (s.entry id).termEnd = some t) :
    exec (.termEnd id) s = .next (if (s.entry id).inherited = true then
      ((termNoticed s id t).beginPassing { s.entry id with termPosted := true } .recalling
        (passing (s.entry id).holder (s.entry id).other false true false true)).settleEntry id
      else termNoticed s id t) := by
  show Host.Outcome.next (s.endTerm id) = _
  simp only [State.endTerm, ht, if_neg (show ¬(!s.termOver (s.entry id)) = true by simp [h]), State.holdSource, Option.getD_some, termNoticed, passing]

/-! ### Lapse (R53) -/

theorem lapseDue_iff (s : State) (o : Owner) : s.lapseDue o = true ↔
    o.lapsed = false ∧ o.id ≠ Config.house ∧ o.keepAlive ≠ 0 ∧ (o.renewed + o.keepAlive) * 1750 + o.renewedFrac ≤ present s := by
  simp [State.lapseDue, timeUp_iff, and_assoc]

theorem exec_ownerLapse_none {s : State} {x : U16} (h : s.owner x = none) : exec (.ownerLapse x) s = .next s := by
  show Host.Outcome.next (s.lapse x) = _
  simp only [State.lapse, h]
theorem exec_ownerLapse_stands {s : State} {x : U16} {o : Owner} (h : s.owner x = some o) (hd : ¬s.lapseDue o = true) :
    exec (.ownerLapse x) s = .next s := by
  show Host.Outcome.next (s.lapse x) = _
  simp only [State.lapse, h, if_pos (show (!s.lapseDue o) = true by simpa using hd)]
/-- The record of a lapse; the fields that the spec does not state are free values (log 49). -/
def lapseRecord (s : State) (x : U16) : EvRec :=
  { kind := 8, status := (Config.free (4 * s.free)).setWidth 16, source := s.source 2 x.toNat
    number := Config.free (4 * s.free + 1), d0 := Config.free (4 * s.free + 2), d1 := Config.free (4 * s.free + 3) }
theorem exec_ownerLapse_due {s : State} {x : U16} {o : Owner} (h : s.owner x = some o) (hd : s.lapseDue o = true) :
    exec (.ownerLapse x) s = .next (({ s.putOwner { o with lapsed := true } with
      entries := s.entries.map (Entry.whenLapsed x), free := s.free + 1 }).notice o.heir (lapseRecord s x)) := by
  show Host.Outcome.next (s.lapse x) = _
  simp only [State.lapse, h, if_neg (show ¬(!s.lapseDue o) = true by simp [hd])]
  rfl

/-! ### What a write-back leaves alone (R67, R78, R89) -/

/-- Everything but memory with its tags, MACs and translations, the cached lines, the logs of written sectors, and the count of free choices. -/
def offMemory (s : State) : State :=
  { s with mem := [], behind := [], kept := [], tags := [], poison := [], sealedLines := [], trans := [], dirtyLog := [], free := 0 }

theorem foldl_keeps {α β : Type} (g : State → β) (f : State → α → State) (h : ∀ t x, g (f t x) = g t) (l : List α) (s : State) :
    g (l.foldl f s) = g s := by
  induction l generalizing s with
  | nil => rfl
  | cons x l ih => rw [List.foldl_cons, ih, h]

theorem offMemory_putSectors (s : State) (l : Nat) (o : OldLine) (d : BitVec 2) : offMemory (s.putSectors l o d) = offMemory s := by
  unfold State.putSectors
  dsimp only
  split
  · rfl
  · split <;> split <;> rfl
theorem offMemory_markLog (s : State) (a k n : Nat) : offMemory (s.markLog a k n) = offMemory s := by
  unfold State.markLog
  split <;> rfl
theorem offMemory_markWritten (s : State) (l : Nat) (d : BitVec 2) : offMemory (s.markWritten l d) = offMemory s := by
  unfold State.markWritten
  split
  · dsimp only
    split <;> split <;> simp only [offMemory_markLog]
  · rfl
theorem offMemory_soil (s : State) (a : Nat) : offMemory (s.soil a) = offMemory s := by
  unfold State.soil
  split
  · split
    · split
      · split <;> rfl
      · rfl
    · rfl
  · rfl
theorem offMemory_zeroPhys (s : State) (p n : Nat) : offMemory (s.zeroPhys p n) = offMemory s := rfl
theorem offMemory_evictLine (s : State) (k : KeptLine) : offMemory (s.evictLine k) = offMemory s := by
  unfold State.evictLine
  dsimp only
  rw [offMemory_zeroPhys]
  split
  · split
    · rw [offMemory_soil, offMemory_markWritten, offMemory_putSectors]; rfl
    · rfl
  · rfl
theorem offMemory_evictIf (s : State) (f : KeptLine → Bool) : offMemory (s.evictIf f) = offMemory s :=
  foldl_keeps offMemory _ offMemory_evictLine _ _
theorem offMemory_writeBack (s : State) (lo hi : Nat) : offMemory (s.writeBack lo hi) = offMemory s :=
  (offMemory_evictIf _ _).trans (foldl_keeps offMemory _ (fun t _ => offMemory_markWritten t _ _) _ _)
theorem offMemory_loseWay (s : State) (die : BitVec 2) (c : BitVec 6) (all : Bool) : offMemory (s.loseWay die c all) = offMemory s := by
  unfold State.loseWay
  split
  · rfl
  · exact (offMemory_evictIf _ _).trans (foldl_keeps offMemory _ (fun t _ => offMemory_writeBack t _ _) _ _)
theorem offMemory_loseUnit (s : State) (unit : Nat) (owner : U16) : offMemory (s.loseUnit unit owner) = offMemory s := by
  unfold State.loseUnit
  dsimp only
  split
  · split
    · exact offMemory_loseWay _ _ _ _
    · rfl
  · exact foldl_keeps offMemory _ (fun t _ => offMemory_loseWay t _ _ _) _ _
theorem offMemory_scrubbedIf (keep : Bool) (s : State) (id : U64) (o : U16) : offMemory (scrubbedIf keep s id o) = offMemory s := by
  unfold scrubbedIf
  split
  · exact offMemory_loseUnit _ _ _
  · rfl

theorem owners_of_offMemory {s t : State} (h : offMemory t = offMemory s) : t.owners = s.owners := by
  have same := congrArg State.owners h
  exact same
/-- Whether an owner has lapsed is told by the owners and the time. -/
theorem lapsed_of_offMemory {s t : State} (h : offMemory t = offMemory s) (o : U16) : t.lapsed o = s.lapsed o := by
  have same := congrArg (State.lapsed · o) h
  exact same
theorem passedTo_congr {s t : State} (h : ∀ o, t.lapsed o = s.lapsed o) (e : Entry) (o : U16) : passedTo t e o = passedTo s e o := by
  unfold passedTo
  rw [h]

/-! ### Recoveries (R44, R47, R48) -/

theorem budgetOver_iff {s : State} {e : Entry} {r : Recovery} (h : e.recovery = some r) : s.budgetOver e = true ↔
    r.budgetDone = false ∧ r.budgetEnd ≤ s.ratedNow ∧ ∃ y ∈ s.entrySlots e.id r.fromOwner, y.savable = true := by
  simp [State.budgetOver, h, and_assoc]
theorem budgetOver_none {s : State} {e : Entry} (h : e.recovery = none) : s.budgetOver e = false := by
  simp [State.budgetOver, h]
theorem exec_recoveryBudgetEnd_stands {s : State} {id : U64} (h : ¬s.budgetOver (s.entry id) = true) :
    exec (.recoveryBudgetEnd id) s = .next s := congrArg Host.Outcome.next (if_pos (by simpa using h))
theorem exec_recoveryBudgetEnd_over {s : State} {id : U64} {r : Recovery} (h : s.budgetOver (s.entry id) = true)
    (hr : (s.entry id).recovery = some r) :
    let t := s.forceSaves (s.entrySlots id r.fromOwner) none
    exec (.recoveryBudgetEnd id) s = .next (t.1.putEntry { t.1.entry id with
      recovery := some { r with forced := true, saved := r.saved + t.2, budgetDone := (t.1.entrySlots id r.fromOwner).isEmpty } }) := by
  refine congrArg Host.Outcome.next ((if_neg (by simp [h])).trans ?_)
  simp only [hr]

/-- While no owner is being dissolved, the end of a recovery brings no dissolution to its end. -/
theorem foldl_endDissolve_rests (l : List Owner) (h : ∀ o ∈ l, o.dissolving = none) (t : State) :
    l.foldl (fun u o => if o.dissolving.isSome then u.endDissolve o.id else u) t = t := by
  induction l with
  | nil => rfl
  | cons o l ih =>
    obtain ⟨ho, hl⟩ := List.forall_mem_cons.1 h
    rw [List.foldl_cons, ho]
    exact ih hl
theorem exec_recoveryComplete {s t : State} {id : U64} (h : s.settleEntry id = t) (ht : t.owners = s.owners) (hs : ∀ o ∈ s.owners, o.dissolving = none) :
    exec (.recoveryComplete id) s = .next t := by
  show Host.Outcome.next (s.completeRecovery id) = _
  simp only [State.completeRecovery, h]
  exact congrArg Host.Outcome.next (foldl_endDissolve_rests _ (ht ▸ hs) t)

theorem settleEntry_none {s : State} {id : U64} (h : (s.entry id).recovery = none) (hu : isRevUnit id = false) : s.settleEntry id = s := by
  simp [State.settleEntry, hu, h]
theorem settleEntry_waits {s : State} {id : U64} {r : Recovery} (h : (s.entry id).recovery = some r) (hu : isRevUnit id = false)
    (hw : s.entrySlots id r.fromOwner ≠ []) : s.settleEntry id = s := by
  simp [State.settleEntry, hu, h, State.passingReady, entry_id, hw]
theorem settleEntry_plain {s : State} {id : U64} {r : Recovery} (h : (s.entry id).recovery = some r) (hp : Plain id) (hk : r.keep = false)
    (hr : r.record = false) (hl : (s.entry id).state ≠ .offeredLoan) :
    s.settleEntry id = (scrubbedIf false s id r.fromOwner).putEntry (passedTo s (s.entry id) r.taker) := by
  have hid := entry_id s id
  have settled := settle_plain (v := s) (E := s.entry id) (by rw [hid]) h (hid.symm ▸ hp)
  have held := passed_held (v := scrubbedIf false s id r.fromOwner) (E := s.entry id) (e := s.entry id) (R := r) hl rfl
  simp only [hid, hk, hr, Bool.false_eq_true, if_false] at settled
  rw [settled, held, passedTo_congr (lapsed_of_offMemory (offMemory_scrubbedIf false s id r.fromOwner))]

theorem holdingUnitEvents : HoldingEvents := by
  intro s id x
  refine ⟨fun h => exec_offerDeadline_over ((offerOver_iff s _).2 h), fun h => exec_offerDeadline_stands (mt (offerOver_iff s _).1 h),
    fun h => exec_termEnd_stands (mt (termOver_iff s _).1 h), fun t h ht => ?_, exec_ownerLapse_none, fun o ho => ?_, fun h => ?_, fun r hr => ?_,
    fun hd => ⟨fun h hu => ?_, fun r hr hu _ hw => ?_⟩, fun r hr hp _ _ hk hrec hl hd => ?_⟩
  · have run := exec_termEnd_over ((termOver_iff s _).2 h) ht
    exact ⟨fun hi => run.trans (congrArg _ (if_neg (by simp [hi]))), fun hi => run.trans (congrArg _ (if_pos hi))⟩
  · exact ⟨fun h => exec_ownerLapse_stands ho (mt (lapseDue_iff s o).1 h),
      fun h => ⟨lapseRecord s x, rfl, rfl, exec_ownerLapse_due ho ((lapseDue_iff s o).2 h)⟩⟩
  · exact exec_recoveryBudgetEnd_stands (by simp [budgetOver_none h])
  · have run := budgetOver_iff (s := s) hr
    rw [entry_id] at run
    exact ⟨fun _ h => exec_recoveryBudgetEnd_stands (mt run.1 h), fun _ h => exec_recoveryBudgetEnd_over (run.2 h) hr⟩
  · exact exec_recoveryComplete (settleEntry_none h hu) rfl hd
  · exact exec_recoveryComplete (settleEntry_waits hr hu hw) rfl hd
  · refine exec_recoveryComplete (settleEntry_plain hr hp hk hrec hl) ?_ hd
    show (scrubbedIf false s id r.fromOwner).owners = s.owners
    exact owners_of_offMemory (offMemory_scrubbedIf false s id r.fromOwner)

/-! ### The register scan (R33) -/

theorem getG_mapCaps (x : Slot) (f : Cap → Cap) {n : BitVec 5} (h : n ≠ 0) : (x.mapCaps f).getG n = f (x.getG n) := by
  unfold Slot.getG
  rw [if_neg h, if_neg h]
  simp [Slot.mapCaps]
/-- To drop the tag of a revoked value is to drop what tag it has, where its base is revoked (R31). -/
theorem dropRevoked_eq (s : State) (c : Cap) : s.dropRevoked c = if s.revokedAddr c.bounds.base.toNat = true then c.untag else c := by
  obtain ⟨bits, tag⟩ := c
  cases tag
  · simp [State.dropRevoked, State.isRevoked, Cap.untag]
  · simp [State.dropRevoked, State.isRevoked]

theorem exec_registerScanDeadline (s : State) (core : Nat) : exec (.registerScanDeadline core) s = .next (s.registerScan core) := rfl
theorem registerScan_shape (s : State) (core : Nat) :
    let t := s.registerScan core
    t = { s with self := t.self, others := t.others, cores := t.cores, owners := t.owners } := rfl
theorem registerScan_g {s : State} {core : Nat} (h : s.self.core = core) {n : BitVec 5} (hn : n ≠ 0) :
    (s.registerScan core).g n = s.dropRevoked (s.g n) := by
  have scanned : (s.registerScan core).self = s.self.mapCaps s.dropRevoked := if_pos h
  show (s.registerScan core).self.getG n = _
  rw [scanned, getG_mapCaps _ _ hn]; rfl
theorem registerScan_self {s : State} {core : Nat} (h : s.self.core ≠ core) : (s.registerScan core).self = s.self := if_neg h

/-! ### Cache classes (R88) -/

theorem exec_classRebalance_rests {s : State} {die : BitVec 2} (h : s.rebalanceDue die = false) : exec (.classRebalance die) s = .next s :=
  congrArg Host.Outcome.next (if_pos (by simp [h]))
theorem exec_classRebalance_due {s : State} {die : BitVec 2} (h : s.rebalanceDue die = true) :
    let t := (s.monitored die).rebalance die [] 64
    exec (.classRebalance die) s = .next { t with
      rebalanced := putBy (fun x : Nat × Nat => x.1) (die.toNat, s.us / 1000) t.rebalanced
      classes := t.classes.map (fun x => if x.die = die then { x with hits := x.hits.map (· / 2), misses := x.misses / 2 } else x) } := by
  intro t
  refine congrArg Host.Outcome.next ((if_neg (by simp [h])).trans ?_)
  simp only [beq_iff_eq]
  rfl

/-! ### Errors in memory (R86, R373, R374) -/

/-- A line is lost: it is poisoned from now on. -/
def lineLost (t : State) (p : Nat) : State := { t with poison := setAdd t.poison (p / 256) }

theorem exec_uncorrectableError_clean_copy (s : State) (addr : U64) : exec (.uncorrectableError addr true false) s = .next s := rfl
theorem exec_uncorrectableError_slice_unmapped {s : State} {addr : U64} (h : s.mappedAt addr.toNat = none) :
    exec (.uncorrectableError addr true true) s = .next (lineLost s addr.toNat) := by
  show execUncorrectableError addr true true s = _
  simp only [execUncorrectableError, h, if_true]; rfl
theorem exec_uncorrectableError_slice_mapped {s : State} {addr : U64} {t : Machine.Trans} {a : Nat} (h : s.mappedAt addr.toNat = some (t, a)) :
    exec (.uncorrectableError addr true true) s = .next (lineLost (s.owesError a) addr.toNat) := by
  show execUncorrectableError addr true true s = _
  simp only [execUncorrectableError, h, if_true]; rfl

theorem exec_uncorrectableError_elsewhere {s : State} {addr : U64} (dirty : Bool) (h : 172032 ≤ addr.toNat / 2 ^ 21) :
    exec (.uncorrectableError addr false dirty) s = .next s := if_neg (Nat.not_lt.2 h)
theorem exec_uncorrectableError_hbm {s : State} {addr : U64} (dirty : Bool) (h : addr.toNat / 2 ^ 21 < 172032) :
    exec (.uncorrectableError addr false dirty) s = .next (s.hbmError addr.toNat) := if_pos h

theorem notice_trans (s : State) (o : U16) (r : EvRec) : (s.notice o r).trans = s.trans := by
  unfold State.notice
  split
  · unfold State.postEvent
    dsimp only
    split <;> rfl
  · rfl
theorem retireEntry_trans (s : State) (id : U64) : (s.retireEntry id).trans = s.trans := by
  unfold State.retireEntry
  dsimp only
  split
  · rfl
  · split
    · exact notice_trans _ _ _
    · rfl
  · exact notice_trans _ _ _
  · rfl
/-- The state in which the frame of an erroneous line is retired and counted (R5, R373). -/
def frameRetired (s : State) (p : Nat) : State := (s.retireEntry (mkRes 3 (p / 2 ^ 21))).countRetired
theorem frameRetired_mappedAt (s : State) (p q : Nat) : (frameRetired s p).mappedAt q = s.mappedAt q := by
  have same : (frameRetired s p).trans = s.trans := by rw [frameRetired, countRetired_shape]; exact retireEntry_trans _ _
  unfold State.mappedAt
  rw [same]

theorem hbmError_unmapped {s : State} {p : Nat} (h : (frameRetired s p).mappedAt p = none) : s.hbmError p = lineLost (frameRetired s p) p := by
  rw [frameRetired_mappedAt] at h
  simp only [State.hbmError, h]; rfl
theorem hbmError_mapped {s : State} {p a : Nat} {t : Machine.Trans} (h : (frameRetired s p).mappedAt p = some (t, a)) : s.hbmError p =
    if t.clean = true then { (frameRetired s p).owesError a with trans := putBy transKey { t with present := false, lost := true } (frameRetired s p).trans }
    else lineLost ((frameRetired s p).owesError a) p := by
  rw [frameRetired_mappedAt] at h
  simp only [State.hbmError, h]; rfl

theorem exec_macFailure_none {s : State} {addr : U64} (h : s.storedMac (addr.toNat / 256) = none) : exec (.macFailure addr) s = .next s := by
  show execMacFailure addr s = _
  simp only [execMacFailure, h]
theorem exec_macFailure_some {s : State} {addr : U64} {m : U64} (h : s.storedMac (addr.toNat / 256) = some m) :
    exec (.macFailure addr) s = .next { s with sealedLines := putBy (fun x : Nat × U64 => x.1) (addr.toNat / 256, ~~~m) s.sealedLines } := by
  show execMacFailure addr s = _
  simp only [execMacFailure, h]

theorem unitEvents : UnitEvents := by
  intro s core die addr dirty
  refine ⟨⟨_, exec_registerScanDeadline s core, registerScan_shape s core,
      fun h n hn => (registerScan_g h hn).trans (dropRevoked_eq s _), registerScan_self⟩,
    exec_classRebalance_rests, fun h => ⟨_, rfl, exec_classRebalance_due h⟩, exec_uncorrectableError_clean_copy s addr,
    exec_uncorrectableError_slice_unmapped, fun _ _ => exec_uncorrectableError_slice_mapped,
    exec_uncorrectableError_elsewhere dirty, fun hp => ⟨fun h => ?_, fun t a h => ⟨fun ht => ?_, fun ht => ?_⟩⟩,
    exec_macFailure_none, fun _ => exec_macFailure_some⟩
  · rw [exec_uncorrectableError_hbm dirty hp, hbmError_unmapped h]; rfl
  · rw [exec_uncorrectableError_hbm dirty hp, hbmError_mapped h, if_neg (by simp [ht])]; rfl
  · rw [exec_uncorrectableError_hbm dirty hp, hbmError_mapped h, if_pos ht]; rfl

/-! ### The assay core (R397, R406) -/

/-- An outstanding request whose block can be reached, read and written, with nothing that holds the writing up. -/
def AssayReaches (s : State) (o : Owner) : Prop :=
  o.assaystat.getLsbD 0 = true ∧ s.remoteOf o.assayreq.addr.toNat = none ∧ s.assayBlocked o = false ∧ s.assayWaits o = false
/-- The operation that a request asks for. -/
def assayOp (s : State) (o : Owner) : Nat := ofBytesLE (s.assayIn o 0 2)

theorem assayEnd_of_owner {s t : State} {x : U16} {o : Owner} (h : s.owner x = some o) (ht : t.owners = s.owners) (op status : Nat) :
    t.assayEnd x op status = assayed t o op status := by
  have hx : t.owner x = some o := by rw [State.owner, ht]; exact h
  simp only [State.assayEnd, hx]; rfl

section
variable {s : State} {x : U16} {o : Owner} {op : Nat} {run : State → Owner → State × Nat}

theorem assay_none (h : s.owner x = none) : s.assay x op run = s := by simp only [State.assay, h]
theorem assay_idle (h : s.owner x = some o) (hb : o.assaystat.getLsbD 0 = false) : s.assay x op run = s := by
  simp only [State.assay, h]
  exact if_pos (by rw [hb]; rfl)
theorem assay_reaches (h : s.owner x = some o) (hr : AssayReaches s o) : s.assay x op run =
    if assayOp s o = 0 ∨ 4 < assayOp s o then assayed s o (assayOp s o) 0x11
    else if assayOp s o ≠ op then s
    else (run (s.assayReady o) o).1.assayEnd x op (run (s.assayReady o) o).2 := by
  obtain ⟨hb, hf, hk, hw⟩ := hr
  simp only [State.assay, h]
  rw [if_neg (by simp only [hb]; decide), if_neg (by simp [hf, hk]), if_neg (by simp [hw]), assayEnd_of_owner h rfl]
  exact if_congr (by simp [assayOp]) rfl rfl
theorem assay_unknown (h : s.owner x = some o) (hr : AssayReaches s o) (hop : assayOp s o = 0 ∨ 4 < assayOp s o) :
    s.assay x op run = assayed s o (assayOp s o) 0x11 := (assay_reaches h hr).trans (if_pos hop)
theorem assay_other (h : s.owner x = some o) (hr : AssayReaches s o) (h0 : assayOp s o ≠ 0) (h4 : assayOp s o ≤ 4) (hop : assayOp s o ≠ op) :
    s.assay x op run = s := (assay_reaches h hr).trans ((if_neg (by omega)).trans (if_pos hop))
theorem assay_runs (h : s.owner x = some o) (hr : AssayReaches s o) (hy : s.assayReady o = s) (hop : assayOp s o = op) (h0 : op ≠ 0) (h4 : op ≤ 4) :
    s.assay x op run = (run s o).1.assayEnd x op (run s o).2 := by
  rw [assay_reaches h hr, if_neg (by omega), if_neg (not_not.2 hop), hy]
end

/-- The event of each operation carries it out. -/
theorem exec_assay (s : State) (x : U16) :
    exec (.assayEndpointHandle x) s = .next (s.assay x 1 State.assayHandle) ∧ exec (.assayAttestation x) s = .next (s.assay x 2 State.assayAttest)
      ∧ exec (.assayKeyImport x) s = .next (s.assay x 3 State.assayImport) ∧ exec (.assayPublicKeys x) s = .next (s.assay x 4 State.assayKeys) :=
  ⟨rfl, rfl, rfl, rfl⟩
/-- What holds of the events of all four operations. -/
theorem forall_assay_events {s : State} {x : U16} {P : Nat → Host.Outcome State Fault Refusal → Prop}
    (h : ∀ op run, P op (.next (s.assay x op run))) :
    ∀ i ∈ ([(1, .assayEndpointHandle x), (2, .assayAttestation x), (3, .assayKeyImport x), (4, .assayPublicKeys x)] : List (Nat × Instr)),
      P i.1 (exec i.2 s) := by
  obtain ⟨h1, h2, h3, h4⟩ := exec_assay s x
  simp only [List.forall_mem_cons, h1, h2, h3, h4]
  exact ⟨h _ _, h _ _, h _ _, h _ _, by simp⟩

section
variable {s : State} {x : U16} {o : Owner}

/-- A key in its slot. -/
def keyStored (s : State) (id : U64) (k : BitVec 256) : State :=
  { s with keys := putBy (fun y : Nat × BitVec 256 => y.1) (resIndex id, k) s.keys }
/-- The key slot that an import names. -/
def importSlot (s : State) (o : Owner) : U64 := BitVec.ofNat 64 (ofBytesLE (s.assayIn o 16 8))

theorem assayImport_bad (h : resKind (importSlot s o) ≠ 8 ∨ resValid (importSlot s o) = false) : s.assayImport o = (s, 4) :=
  if_pos (by simpa [importSlot] using h)
theorem assayImport_foreign (hk : resKind (importSlot s o) = 8) (hv : resValid (importSlot s o) = true) (hh : s.holds o.id (importSlot s o) = false) :
    s.assayImport o = (s, 1) :=
  (if_neg (by simpa [importSlot] using ⟨hk, hv⟩)).trans (if_pos (by simpa [importSlot] using hh))
theorem assayImport_refused (hk : resKind (importSlot s o) = 8) (hv : resValid (importSlot s o) = true) (hh : s.holds o.id (importSlot s o) = true)
    (hu : Config.importUnwrap (s.assayIn o 512 512) = none) : s.assayImport o = (s, 0x11) :=
  (if_neg (by simpa [importSlot] using ⟨hk, hv⟩)).trans ((if_neg (by simpa [importSlot] using hh)).trans (by rw [hu]))
theorem assayImport_stored {k : BitVec 256} (hk : resKind (importSlot s o) = 8) (hv : resValid (importSlot s o) = true)
    (hh : s.holds o.id (importSlot s o) = true) (hu : Config.importUnwrap (s.assayIn o 512 512) = some k) :
    s.assayImport o = (keyStored s (importSlot s o) k, 0) :=
  (if_neg (by simpa [importSlot] using ⟨hk, hv⟩)).trans ((if_neg (by simpa [importSlot] using hh)).trans (by rw [hu]; rfl))
end

theorem assayEvents : AssayEvents := by
  intro s x events
  obtain ⟨e1, e2, e3, e4⟩ := exec_assay s x
  refine ⟨fun i hi h => ?_, fun o ho hid => ⟨fun i hi hb => ?_, fun hb hf hk hw => ?_⟩⟩
  · exact forall_assay_events (P := fun _ r => r = .next s) (fun _ _ => congrArg _ (assay_none h)) i hi
  · exact forall_assay_events (P := fun _ r => r = .next s) (fun _ _ => congrArg _ (assay_idle ho hb)) i hi
  · have hr : AssayReaches s o := ⟨hb, hf, hk, hw⟩
    refine ⟨fun i hi hop => ?_, fun i hi h0 h4 hop => ?_, fun hy => ⟨fun hop => ⟨fun h => ?_, fun h1 h2 h3 => ?_, fun h1 h2 h3 => ?_⟩,
      fun hop => ?_, fun hop => ?_, fun hop => ?_⟩⟩
    · exact forall_assay_events (P := fun _ r => r = .next (assayed s o (assayOp s o) 0x11)) (fun _ _ => congrArg _ (assay_unknown ho hr hop)) i hi
    · exact forall_assay_events (P := fun k r => assayOp s o ≠ k → r = .next s) (fun _ _ hk => congrArg _ (assay_other ho hr h0 h4 hk)) i hi hop
    · rw [e3, assay_runs ho hr hy hop (by decide) (by decide), assayImport_bad h, assayEnd_of_owner ho rfl]
    · rw [e3, assay_runs ho hr hy hop (by decide) (by decide), assayImport_foreign h1 h2 (hid.symm ▸ h3), assayEnd_of_owner ho rfl]
    · rw [e3, assay_runs ho hr hy hop (by decide) (by decide)]
      cases hu : Config.importUnwrap (s.assayIn o 512 512) with
      | none => rw [assayImport_refused h1 h2 (hid.symm ▸ h3) hu, assayEnd_of_owner ho rfl]
      | some k =>
        rw [assayImport_stored h1 h2 (hid.symm ▸ h3) hu]
        exact congrArg _ (assayEnd_of_owner (t := keyStored s (importSlot s o) k) ho rfl _ _)
    · rw [e2, assay_runs ho hr hy hop (by decide) (by decide), State.assayAttest, hid]
    · rw [e4, assay_runs ho hr hy hop (by decide) (by decide), State.assayKeys]
    · exact ⟨(s.assayHandle o).1, (s.assayHandle o).2, rfl, by rw [e1, assay_runs ho hr hy hop (by decide) (by decide)]⟩

/-- Settles O56, part by part: deadlines, terms, lapses and recoveries; scan, classes and errors; the assay core. -/
theorem holdingEvents : Obligations.holding_events := ⟨holdingUnitEvents, unitEvents, assayEvents⟩

end Sys2Proof
end

section
/-! SUPPORT. Engines: what a turn of an engine does with the next command of a context, and the commands that end before a byte moves. -/
namespace Sys2Proof
open Machine Claims

/-! ### An engine takes a command (R297 to R300) -/

section
variable {s : State} {ci code : Nat} {run : State → Cmd → Ran} {c : Cmd}

theorem attempt_ok {v : State} (hd : c.doomed = none) (h : run s c = .ok v) : s.attempt ci c run = ran ci c v := by
  simp only [State.attempt, hd, h]; rfl
theorem attempt_waits {line : Option Nat} (hd : c.doomed = none) (h : run s c = .error line) :
    s.attempt ci c run = s.stallOn ci c.number line := by
  simp only [State.attempt, hd, h]
theorem attempt_doomed {st : U16} (hd : c.doomed = some st) : s.attempt ci c run = s.ends ci c st.toNat 0 := by
  simp only [State.attempt, hd]

/-- No started command waits: the engine turns to the next one. -/
theorem engineRun_of_no_stall (h : (s.ctx ci).stalled = []) : s.engineRun ci code run = s.startNext ci code run := by
  simp only [State.engineRun, h, List.findSome?_nil]
theorem engineRun_goes_on {v : State} (h : (s.ctx ci).stalled = [c]) (hc : c.code = code) (hd : c.doomed = none) (hv : run s c = .ok v)
    (hn : ran ci c v ≠ s) : s.engineRun ci code run = ran ci c v := by
  simp [State.engineRun, h, attempt_ok hd hv, hc, hn]

theorem startNext_none (h : s.startable ci = none) : s.startNext ci code run = s := by
  simp only [State.startNext, h]
theorem startNext_refused (h : s.startable ci = some c) (hk : s.codeOk ci c = false) :
    s.startNext ci code run = (s.startCmd ci c).ends ci c 1 384 := by
  simp only [State.startNext, h, hk]
  rfl
theorem startNext_other (h : s.startable ci = some c) (hk : s.codeOk ci c = true) (hc : c.code ≠ code) : s.startNext ci code run = s := by
  simp [State.startNext, h, hk, hc]
theorem startNext_doomed {st : U16} (h : s.startable ci = some c) (hk : s.codeOk ci c = true) (hc : c.code = code) (hd : c.doomed = some st) :
    s.startNext ci code run = (s.startCmd ci c).ends ci c st.toNat 0 := by
  simp only [State.startNext, h, hk, hc, hd, attempt_doomed hd]
  cases c.badWord3.orElse (fun _ => c.badWords) <;> simp
theorem startNext_bad {bit : Nat} (h : s.startable ci = some c) (hk : s.codeOk ci c = true) (hc : c.code = code) (hd : c.doomed = none)
    (hb : c.badWord3.orElse (fun _ => c.badWords) = some bit) : s.startNext ci code run = (s.startCmd ci c).ends ci c 1 bit := by
  simp only [State.startNext, h, hk, hc, hd, hb]
  simp
theorem startNext_sound (h : s.startable ci = some c) (hs : Sound s ci code c) : s.startNext ci code run = (s.startCmd ci c).attempt ci c run := by
  obtain ⟨hk, hc, -, h3, h0⟩ := hs
  have hb : c.badWord3.orElse (fun _ => c.badWords) = none := by rw [h3, h0]; rfl
  simp only [State.startNext, h, hk, hc, hb]
  simp

/-- A sound command that an engine takes, and that its run answers with a state. -/
theorem engineRun_sound {v : State} (h : Serves s ci c) (hs : Sound s ci code c) (hv : run (s.startCmd ci c) c = .ok v) :
    s.engineRun ci code run = ran ci c v := by
  rw [engineRun_of_no_stall h.1, startNext_sound h.2 hs]
  exact attempt_ok hs.2.2.1 hv
end

/-- What an event whose meaning is a turn of an engine does. -/
theorem engine_of {i : Instr} {s : State} {ci code : Nat} {run : State → Cmd → Ran} (h : exec i s = .next (s.engineRun ci code run)) :
    Engine i s ci code run := by
  unfold Engine
  rw [h]
  simp only [Host.Outcome.next.injEq]
  refine ⟨fun hl hn => ?_, fun c hc => ?_, fun c hl hk hd v hv hn => engineRun_goes_on hl hk hd hv hn⟩
  · rw [engineRun_of_no_stall hl, startNext_none hn]
  · obtain ⟨hl, hn⟩ := hc
    rw [engineRun_of_no_stall hl]
    refine ⟨startNext_refused hn, startNext_other hn, fun hk he => ⟨fun st => startNext_doomed hn hk he, fun hd bit hb => ?_, fun hd hb bit hb' => ?_⟩,
      fun hs => ⟨_, rfl, fun v hv => ?_, fun line hv => ⟨(s.startCmd ci c).stalledSince ci c.number line, ?_⟩⟩⟩
    · exact startNext_bad hn hk he hd (by rw [hb]; rfl)
    · exact startNext_bad hn hk he hd (by rw [hb, hb']; rfl)
    · rw [startNext_sound hn hs, attempt_ok hs.2.2.1 hv]
    · rw [startNext_sound hn hs, attempt_waits hs.2.2.1 hv]; rfl

/-- The operation and the tree of a reduction, as fields of word 2 (R305). -/
theorem redOp_eq (c : Cmd) : c.redOp = c.extra.toNat / 2 ^ 44 % 16 := by
  rw [Cmd.redOp, ext_mod]; rfl
theorem redTree_eq (c : Cmd) : c.redTree = (c.extra.toNat / 2 ^ 42 % 4 == 1) := by
  rw [Cmd.redTree, Bool.eq_iff_iff, beq_iff_eq, beq_iff_eq, ext_eq]
  rfl

theorem engineCommands : EngineCommands := by
  intro s ci agree reach peers
  simp only [← redOp_eq, ← redTree_eq]
  exact ⟨engine_of rfl, engine_of rfl, engine_of rfl, engine_of rfl, engine_of rfl, engine_of rfl, engine_of rfl, engine_of rfl, engine_of rfl,
    engine_of rfl, engine_of rfl, engine_of rfl, engine_of rfl, engine_of rfl, engine_of rfl, engine_of rfl⟩

/-! ### Commands of no bytes (R301, R304, R305, R319) -/

/-- An event that is a turn of an engine, where the engine takes a sound command that its run answers with a state. -/
theorem exec_of_sound {i : Instr} {s v : State} {ci code : Nat} {run : State → Cmd → Ran} {c : Cmd} (hi : exec i s = .next (s.engineRun ci code run))
    (h : Serves s ci c) (hs : Sound s ci code c) (hv : run (s.startCmd ci c) c = .ok v) : exec i s = .next (ran ci c v) :=
  hi.trans (congrArg _ (engineRun_sound h hs hv))

/-- A pass that has come through, with nothing outstanding and no page absent, completes its command. -/
theorem finish_done {j : Job} {m : Move} {only : Option Pages} (hf : (m.s.ctx j.ci).waitsFar j.cmd.number = false) (hp : m.pages = []) :
    j.finish (.ok m) only = .ok (m.s.ends j.ci j.cmd 0 m.done) := by
  unfold Ctx.waitsFar at hf
  simp only [Job.finish, hf, hp]
  rfl

/-- How far a command has come that begins in a state. -/
def atStart (s : State) : Move := { s := s, done := 0, pages := [], wrote := [], first := [] }

theorem units4k_zero (src : Option Nat) (dst : Nat) : units4k src dst 0 = [] := rfl
theorem read_zero (m : Move) (j : Job) (k : Cap) (a : Nat) : m.read j k a 0 = .ok (m, []) := rfl
theorem write_nil (m : Move) (j : Job) (k : Cap) (a : Nat) : m.write j k a [] = .ok m := rfl
theorem own_nil (m : Move) (j : Job) (a : Nat) : m.own j a [] = .ok m := rfl

section
variable {s : State} {ci : Nat} {c : Cmd}

theorem runCopy_no_units (hf : (s.ctx ci).waitsFar c.number = false) (hu : copyUnits c = []) : s.runCopy ci c = .ok (s.ends ci c 0 0) := by
  simp only [State.runCopy, Job.pass, hu, List.foldlM_nil]
  exact finish_done (j := jobOf s ci c) (m := atStart s) hf rfl
theorem copyUnits_copy (hc : c.code = 0x01) (h : c.len = 0) : copyUnits c = [] := by
  simp only [copyUnits, hc, h]
  exact units4k_zero _ _
theorem copyUnits_fill (hc : c.code = 0x03) (h : c.len = 0) : copyUnits c = [] := by
  simp only [copyUnits, hc, h]
  exact units4k_zero _ _
theorem copyUnits_copy2d (hc : c.code = 0x02) (h : c.len = 0) : copyUnits c = [] := by
  simp only [copyUnits, hc, rows2d, h]
  rfl

theorem runGather_empty (hf : (s.ctx ci).waitsFar c.number = false) (h : c.len.toNat % 2 ^ 32 = 0) : s.runGather ci c = .ok (s.ends ci c 0 0) := by
  have hn : (c.len.extractLsb' 0 32).toNat = 0 := by rw [ext_mod, pow_zero, Nat.div_one, h]
  simp only [State.runGather, Job.gather, jobOf, hn, List.range_zero, List.takeWhile_nil, List.length_nil, if_true, Job.gatherWith]
  exact finish_done (m := atStart s) hf rfl

theorem contribute_nil (s : State) (c : Cmd) : s.contribute c [] = s := by
  refine (congrArg (fun l => ({ s with out := s.out ++ l } : State)) (List.flatMap_eq_nil_iff.2 fun _ _ => rfl)).trans ?_
  rw [List.append_nil]
/-- Members that contribute nothing. -/
theorem contributions_zero (own : BitVec 14) (l : List (BitVec 14)) (peers : List (List U8)) : (contributions own [] 0 l peers).flatten = [] := by
  induction l generalizing peers with
  | nil => rfl
  | cons d l ih =>
    unfold contributions
    split
    · exact ih peers
    · cases peers with
      | nil => exact ih []
      | cons p more => simpa [pad] using ih more
theorem reduceBytes_zero (op : Nat) (tree : Bool) (l : List (List U8)) : reduceBytes op tree l 0 = [] := rfl

/-- What every member receives of members that contribute nothing is nothing. -/
def MakesNothing (out : List (List U8) → Nat → Nat → List U8) : Prop := ∀ l r, l.flatten = [] → out l 0 r = []

theorem collective_empty {peers : List (List U8)} {out : List (List U8) → Nat → Nat → List U8} (hf : (s.ctx ci).waitsFar c.number = false)
    (h : c.len.toNat % 2 ^ 40 = 0) (ho : MakesNothing out) :
    s.collective ci c true true peers out = .ok (s.ends ci c 0 0) := by
  have hn : (c.len.extractLsb' 0 40).toNat = 0 := by rw [ext_mod, pow_zero, Nat.div_one, h]
  simp only [State.collective, hn, read_zero]
  refine Eq.trans ?_ (finish_done (j := jobOf s ci c) (m := atStart s) (only := none) hf rfl)
  refine congrArg (Job.finish _ · none) ?_
  show Move.write { atStart s with s := s.contribute c [] } _ _ _ _ = _
  rw [contribute_nil, ho _ _ (contributions_zero _ _ _), write_nil]; rfl
theorem runMcast_empty (hf : (s.ctx ci).waitsFar c.number = false) (h : c.len.toNat % 2 ^ 40 = 0) :
    s.runMcast ci c true = .ok (s.ends ci c 0 0) := by
  have hn : (c.len.extractLsb' 0 40).toNat = 0 := by rw [ext_mod, pow_zero, Nat.div_one, h]
  simp only [State.runMcast, hn, read_zero]
  refine Eq.trans ?_ (finish_done (j := jobOf s ci c) (m := atStart s) (only := none) hf rfl)
  refine congrArg (Job.finish _ · none) ?_
  show (if c.members.contains s.devnum = true then Move.own { atStart s with s := List.foldl (fun t _ => t) s _ } _ _ []
    else .ok { atStart s with s := List.foldl (fun t _ => t) s _ }) = .ok (atStart s)
  rw [List.foldl_fixed, own_nil, ite_self]
  rfl

theorem netBytes_eq (c : Cmd) : c.netBytes = c.len.toNat % 2 ^ 32 := by rw [Cmd.netBytes, ext_mod, pow_zero, Nat.div_one]
theorem runSend_empty_write {e : Endpoint} (hc : c.code = 0x32) (h : c.len.toNat % 2 ^ 32 = 0) (he : s.endpointOf c.w1 (s.actsFor ci) = some e)
    (hn : s.netCap c.w0 .r = none) : s.runSend ci c = .ok (s.ends ci c 0 0) := by
  simp [State.runSend, he, hn, netBytes_eq c ▸ h, hc]
theorem runNread_empty {e : Endpoint} (h : c.len.toNat % 2 ^ 32 = 0) (he : s.endpointOf c.w0 (s.actsFor ci) = some e)
    (hn : s.netCap c.w1 .w = none) : s.runNread ci c = .ok (s.ends ci c 0 0) := by
  simp [State.runNread, he, hn, netBytes_eq c ▸ h]
end

/-- An event of a collective, where what it comes to does not hang on what is made of the contributions. -/
theorem exec_collective {s v : State} {ci : Nat} {c : Cmd} {agree reach : Bool} {peers : List (List U8)} (h : Serves s ci c)
    (hv : ∀ out, MakesNothing out → (s.startCmd ci c).collective ci c agree reach peers out = .ok v) :
    ∀ x ∈ ([(0x20, .allreduce ci agree reach peers), (0x21, .redscat ci agree reach peers), (0x22, .allgather ci agree reach peers)] : List (Nat × Instr)),
      Sound s ci x.1 c → exec x.2 s = .next (ran ci c v) := by
  simp only [List.forall_mem_cons]
  refine ⟨fun hs => exec_of_sound rfl h hs (hv _ fun _ _ _ => rfl), fun hs => exec_of_sound rfl h hs (hv _ fun _ _ _ => by simp [reduceBytes_zero]),
    fun hs => exec_of_sound rfl h hs (hv _ fun _ _ hl => hl), by simp⟩

theorem emptyCommands : EmptyCommands := by
  intro s ci c agree reach peers h u ends collectives
  refine ⟨fun x hx hs => ?_, fun hs hr => ?_, fun hf => ⟨fun hl => ⟨fun hs => ?_, fun hs => ?_, fun hs => ?_⟩,
      fun hs hl => ?_, fun hl ha hr => ⟨fun x hx hs => ?_, fun hs => ?_⟩⟩,
    fun e hl => ⟨fun hs he hn => ?_, fun hs he hn => ?_⟩⟩
  · exact ⟨fun ha => exec_collective h (by subst ha; exact fun _ _ => rfl) x hx hs,
      fun ha hr => exec_collective h (by subst ha hr; exact fun _ _ => rfl) x hx hs⟩
  · subst hr; exact exec_of_sound rfl h hs rfl
  · exact exec_of_sound rfl h hs (runCopy_no_units hf (copyUnits_copy hs.2.1 hl))
  · exact exec_of_sound rfl h hs (runCopy_no_units hf (copyUnits_fill hs.2.1 hl))
  · exact exec_of_sound rfl h hs (runCopy_no_units hf (copyUnits_copy2d hs.2.1 hl))
  · exact exec_of_sound rfl h hs (runGather_empty hf hl)
  · subst ha hr
    exact exec_collective h (fun _ ho => collective_empty hf hl ho) x hx hs
  · subst hr; exact exec_of_sound rfl h hs (runMcast_empty hf hl)
  · exact exec_of_sound rfl h hs (runSend_empty_write hs.2.1 hl he hn)
  · exact exec_of_sound rfl h hs (runNread_empty hl he hn)

end Sys2Proof
end

section
/-! SUPPORT. Engines: bytes that a command puts into memory, FILL within one granule, RESUME, and the commands of the network. -/
namespace Sys2Proof
open Machine Claims

/-! ### A list of bytes put into memory -/

/-- The bytes of a list put from an address on, the first at offset `i`. -/
def putBytes (s : State) (a i : Nat) (l : List U8) : State := (l.zipIdx i).foldl (fun t y => t.putByte (a + y.2) y.1) s

theorem putBytes_spec (l : List U8) : ∀ (s : State) (a i : Nat), i + l.length ≤ 2 ^ 13 → (∀ k < l.length, (s.phys (a + (i + k))).isSome) →
    MemOnly s (putBytes s a i l) ∧ (∀ k (h : k < l.length), (putBytes s a i l).byteAt (a + (i + k)) = l[k])
      ∧ ∀ b, (∀ k < l.length, Apart s (a + (i + k)) b) → (putBytes s a i l).byteAt b = s.byteAt b := by
  induction l with
  | nil => exact fun s _ _ _ _ => ⟨.refl s, fun _ h => absurd h (Nat.not_lt_zero _), fun _ _ => rfl⟩
  | cons v l ih =>
    intro s a i hi hp
    simp only [List.length_cons] at hi hp ⊢
    obtain ⟨p, hp0⟩ := Option.isSome_iff_exists.1 (hp 0 (Nat.succ_pos _))
    obtain ⟨put, -, same, other⟩ := putByte_spec s (a + i) p v hp0
    have step (k : Nat) : i + 1 + k = i + (k + 1) := by omega
    obtain ⟨puts, sames, others⟩ := ih (s.putByte (a + i) v) a (i + 1) (by omega) fun k hk => by rw [put.phys, step]; exact hp _ (by omega)
    have e : putBytes s a i (v :: l) = putBytes (s.putByte (a + i) v) a (i + 1) l := rfl
    rw [e]
    refine ⟨put.trans' puts, fun k hk => ?_, fun b hb => ?_⟩
    · cases k with
      | zero =>
        refine (others (a + i) fun k hk => ?_).trans same
        rw [put.apart, step]
        exact apart_near (n := i + (l.length + 1)) hi (by omega) (by omega) (by omega) (hp _ (by omega)) (hp 0 (by omega))
      | succ k => rw [← step k, sames k (by omega)]; rfl
    · rw [others b fun k hk => by rw [put.apart, step]; exact hb _ (by omega), other b (hb 0 (by omega))]

theorem clearTags_spec (s : State) (a n : Nat) : MemOnly s (s.clearTags a n) ∧ ∀ b, (s.clearTags a n).byteAt b = s.byteAt b := by
  unfold State.clearTags
  split
  · exact ⟨.refl s, fun _ => rfl⟩
  · obtain ⟨only, bytes, -⟩ := clearTagsFrom_spec ((a + n - 1) / 16 - a / 16 + 1) s (a / 16)
    exact ⟨only, bytes⟩

/-! ### An access that goes through: contexts, and the bytes of a write -/

theorem performed_ctx {s : State} {x : Acc} {f : State → State} (hf : MemOnly (s.commit x) (f (s.commit x))) (k : Nat) :
    (s.performed x f).ctx k = s.ctx k := by
  have ctxs : (s.performed x f).ctxs = s.ctxs := by
    obtain ⟨_, _, _, _, noted, -⟩ := Noted.monitorPost (f (s.commit x)) x
    obtain ⟨_, _, _, only⟩ := hf
    obtain ⟨_, _, _, _, _, _, committed, -⟩ := Committed.commit s x
    rw [State.performed, noted, only, committed]
  unfold State.ctx
  rw [ctxs]
/-- The bytes of a list written by an access that goes through, and the tags of their granules dropped. -/
def writeBytes (a : Nat) (l : List U8) (s : State) : State := (putBytes s a 0 l).clearTags a l.length

theorem performed_writeBytes {s : State} {x : Acc} {l : List U8} (hx : x.size = l.length) (h0 : 0 < l.length) (hn : l.length ≤ 2 ^ 13)
    (hok : s.accErr x = none) : (∀ k, (s.performed x (writeBytes x.addr l)).ctx k = s.ctx k)
      ∧ (∀ k (h : k < l.length), (s.performed x (writeBytes x.addr l)).byteAt (x.addr + k) = l[k])
      ∧ ∀ b, (∀ k < l.length, Elsewhere s (x.addr + k) b) → (s.performed x (writeBytes x.addr l)).byteAt b = s.byteAt b := by
  have places := (Committed.commit s x).same
  have apart (a b : Nat) : Apart (s.commit x) a b ↔ Elsewhere s a b := by
    unfold Apart Elsewhere; rw [places.1, places.1, places.2.1, places.2.1]
  obtain ⟨put, bytes, others⟩ := putBytes_spec l (s.commit x) x.addr 0 (by omega) fun k hk => by
    rw [places.1, Nat.zero_add]; exact present_of_clear hok (hx ▸ h0) (hx ▸ hk)
  obtain ⟨cleared, clear⟩ := clearTags_spec (putBytes (s.commit x) x.addr 0 l) x.addr l.length
  have byteAt (b : Nat) : (s.performed x (writeBytes x.addr l)).byteAt b = (putBytes (s.commit x) x.addr 0 l).byteAt b :=
    ((Noted.monitorPost _ x).same.byteAt b).trans (clear b)
  simp only [Nat.zero_add] at bytes others
  refine ⟨performed_ctx (put.trans' cleared), fun k hk => (byteAt _).trans (bytes k hk), fun b hb => ?_⟩
  rw [byteAt, others b fun k hk => (apart _ _).2 (hb k hk)]
  exact places.byteAt b

/-! ### FILL within one granule (R301) -/

theorem units4k_granule {a n : Nat} (h0 : 0 < n) (h : n ≤ 32 - a % 32) : units4k none a n = [{ src := none, dst := a, n := n, index := none }] := by
  have one : (n + a % 16 + 4095) / 4096 = 1 := by omega
  have all : min (4096 - a % 16) n = n := by omega
  simp [units4k, one, all, show n ≠ 0 by omega]
theorem pieces_granule {a n : Nat} (h0 : 0 < n) (h : n ≤ 32 - a % 32) :
    (CopyUnit.mk none a n none).pieces (n + 1) = [{ src := none, dst := a, n := n, index := none }] := by
  obtain ⟨m, rfl⟩ : ∃ m, n = m + 1 := ⟨n - 1, by omega⟩
  have all : min (m + 1) (min (32 - a % 32) 32) = m + 1 := by omega
  simp only [CopyUnit.pieces, toEdge, Option.map_none, Option.getD_none, all, Nat.sub_self, if_true]
  rfl

/-- The bytes of a pattern that stand at `n` addresses from `a` on. -/
def patternBytes (pattern : U128) (a n : Nat) : List U8 := (List.range n).map fun i => pattern.extractLsb' (8 * ((a + i) % 16)) 8

section
variable {s : State} {ci : Nat} {c : Cmd}

theorem check_ok {m : Move} {x : Acc} (h : m.s.accErr x = none) : m.check x = .ok m := by
  simp only [Move.check, Move.checkN, h]

/-- Bytes without tags that reach a place of this device. -/
theorem place_here {m : Move} {j : Job} {dst : Nat} {l : List U8} (hr : m.s.remoteOf dst = none)
    (hok : m.s.accErr (m.s.engAcc j.ci j.cmd dst l.length true) = none) :
    m.place j dst l [] = .ok { m with
      s := m.s.performed (m.s.engAcc j.ci j.cmd dst l.length true) (writeBytes (m.s.localAddr dst) l)
      done := m.done + l.length } := by
  simp only [Move.place, hr, check_ok hok]
  rfl

/-- The state that a piece of a pattern leaves. -/
def patternPut (s : State) (ci : Nat) (c : Cmd) (a n : Nat) : State :=
  s.performed (s.engAcc ci c a n true) (writeBytes (s.localAddr a) (patternBytes c.w0.bits a n))
/-- How far a command is after one piece of its pattern. -/
def onePiece (s : State) (ci : Nat) (c : Cmd) (a n : Nat) : Move := { atStart s with s := patternPut s ci c a n, done := n }

theorem patternPut_spec {a n : Nat} (h0 : 0 < n) (hn : n ≤ 32) (hok : s.accErr (s.engAcc ci c a n true) = none) :
    (∀ k, (patternPut s ci c a n).ctx k = s.ctx k)
      ∧ (∀ k < n, (patternPut s ci c a n).byteAt (s.localAddr a + k) = c.w0.bits.extractLsb' (8 * ((a + k) % 16)) 8)
      ∧ ∀ b, (∀ k < n, Elsewhere s (s.localAddr a + k) b) → (patternPut s ci c a n).byteAt b = s.byteAt b := by
  have len : (patternBytes c.w0.bits a n).length = n := by simp [patternBytes]
  obtain ⟨ctx, bytes, others⟩ := performed_writeBytes (l := patternBytes c.w0.bits a n) len.symm (by omega) (by omega) hok
  rw [len] at others
  exact ⟨ctx, fun k hk => (bytes k (by omega)).trans (by simp [patternBytes]), others⟩
theorem piece_fill {a n : Nat} (hr : s.remoteOf a = none) (hok : s.accErr (s.engAcc ci c a n true) = none) (hp : s.isAbsent (s.localAddr a) = false) :
    (atStart s).piece (jobOf s ci c) false { src := none, dst := a, n := n, index := none } = .ok (onePiece s ci c a n) := by
  have addrs : (atStart s).s.pieceAddrs { src := none, dst := a, n := n, index := none } = [s.localAddr a] := by simp [State.pieceAddrs, atStart, hr]
  have absent : (atStart s).s.isAbsent (s.localAddr a) = false := hp
  have len : (patternBytes c.w0.bits a n).length = n := by simp [patternBytes]
  have placed := place_here (m := atStart s) (j := jobOf s ci c) (l := patternBytes c.w0.bits a n) hr (by rw [len]; exact hok)
  rw [len, show (atStart s).done + n = n from Nat.zero_add n] at placed
  unfold Move.piece
  simp only [addrs, List.filter_cons, absent, List.filter_nil]
  exact placed

theorem runCopy_fill {a n : Nat} (hc : c.code = 0x03) (ha : c.w1.addr.toNat = a) (hl : c.len.toNat = n) (hf : (s.ctx ci).waitsFar c.number = false)
    (h0 : 0 < n) (h : n ≤ 32 - a % 32) (hr : s.remoteOf a = none) (hu : s.unitCheck ci c c.w1 .w a n = none)
    (hok : s.accErr (s.engAcc ci c a n true) = none) (hp : s.isAbsent (s.localAddr a) = false) :
    s.runCopy ci c = .ok ((patternPut s ci c a n).ends ci c 0 n) := by
  have units : copyUnits c = [{ src := none, dst := a, n := n, index := none }] := by
    simp only [copyUnits, hc, ha, hl]; exact units4k_granule h0 h
  have unit : (atStart s).unit (jobOf s ci c) false none { src := none, dst := a, n := n, index := none } = .ok (onePiece s ci c a n) := by
    have checked : (atStart s).s.unitCheck (jobOf s ci c).ci (jobOf s ci c).cmd (jobOf s ci c).dst .w a n = none := hu
    have every : [Piece.mk none a n none].filter ((atStart s).s.replays none) = [Piece.mk none a n none] := rfl
    simp only [Move.unit, Option.bind_none, Option.orElse_none, checked, pieces_granule h0 h, every, List.foldlM_cons, piece_fill hr hok hp]
    rfl
  have far : ((onePiece s ci c a n).s.ctx ci).waitsFar c.number = false :=
    (congrArg (Ctx.waitsFar · c.number) ((patternPut_spec h0 (by omega) hok).1 ci)).trans hf
  simp only [State.runCopy, Job.pass, units]
  refine Eq.trans ?_ (finish_done (j := jobOf s ci c) (m := onePiece s ci c a n) (only := none) far rfl)
  refine congrArg (Job.finish _ · none) ?_
  show (atStart s).unit _ false none _ >>= _ = _
  rw [unit]
  rfl
end

/-! ### RESUME and the network (R303, R318 to R321) -/

section
variable {s : State} {ci : Nat} {c : Cmd}

theorem runResume_none (h : ∀ p ∈ (s.ctx ci).parked, p.cmd.number ≠ c.w0.addr.toNat) : s.runResume ci c = .ok (s.ends ci c 1 0) := by
  have none : (s.ctx ci).parked.find? (fun p => p.cmd.number == c.w0.addr.toNat) = none := List.find?_eq_none.2 fun p hp => by simpa using h p hp
  simp only [State.runResume, none]

/-- The mode of a receive, a field of word 2 (R319). -/
def recvMode (c : Cmd) : BitVec 2 := BitVec.ofNat 2 (c.extra.toNat / 2 ^ 32)

theorem runNrecv_empty (hn : s.netCap c.w1 (if recvMode c = 2 then .r else .w) = none) (hm : recvMode c ≠ 0) (hl : c.len.toNat % 2 ^ 32 = 0) :
    s.runNrecv ci c = .ok (s.ends ci c 0 0) := by
  simp only [State.runNrecv, ext64_eq]
  rw [← recvMode, hn]
  exact if_pos ⟨hm, by rw [netBytes_eq, hl]⟩
theorem runNrecv_posts (hn : s.netCap c.w1 (if recvMode c = 2 then .r else .w) = none) (h : recvMode c = 0 ∨ c.len.toNat % 2 ^ 32 ≠ 0) :
    s.runNrecv ci c = .ok (s.putCtx { s.ctx ci with
      recvs := (s.ctx ci).recvs ++ [{ cmd := c, mode := recvMode c, tag := BitVec.ofNat 32 c.extra.toNat, capacity := c.len.toNat % 2 ^ 32, msg := none
                                      placed := [], held := [], stalled := none }] }) := by
  have tag : c.netTag = BitVec.ofNat 32 c.extra.toNat := by rw [Cmd.netTag, ext64_eq, pow_zero, Nat.div_one]
  simp only [State.runNrecv, ext64_eq, netBytes_eq, tag]
  rw [← recvMode, hn]
  exact if_neg fun e => h.elim e.1 fun hl => hl e.2
theorem runSend_empty_message {e : Endpoint} (hc : c.code = 0x30) (hl : c.len.toNat % 2 ^ 32 = 0) (he : s.endpointOf c.w1 (s.actsFor ci) = some e)
    (hn : s.netCap c.w0 .r = none) (hb : c.w0.inBounds c.w0.addr.toNat 0 = true) :
    s.runSend ci c = .ok (s.sendPackets ci (packetsOf c ci e 0 0 0 ((s.ctx ci).nextSeq e.flow) [])) := by
  have h0 : c.netBytes = 0 := by rw [netBytes_eq, hl]
  simp [State.runSend, he, hn, h0, hc, hb, read_zero, State.sendBytes]
theorem runNread_asks {e : Endpoint} (hl : c.len.toNat % 2 ^ 32 ≠ 0) (he : s.endpointOf c.w0 (s.actsFor ci) = some e) (hn : s.netCap c.w1 .w = none) :
    s.runNread ci c = .ok (s.sendPackets ci
      (packetsOf c ci e 2 (c.len.toNat % 2 ^ 32) (c.len.toNat / 2 ^ 32) ((s.ctx ci).nextSeq e.flow) [])) := by
  have offset : c.netOffset = c.len.toNat / 2 ^ 32 := by rw [Cmd.netOffset, ext_mod]; omega
  simp only [State.runNread, he, hn, netBytes_eq, offset]
  exact if_neg hl
end

theorem movingCommands : MovingCommands := by
  intro s ci c h u a n m
  refine ⟨fun hs hf h0 hn hr hu hok hp => ⟨patternPut u ci c a n, ?_, (patternPut_spec h0 (by omega) hok).2⟩,
    fun hs hp => exec_of_sound rfl h hs (runResume_none hp), fun hs => ?_,
    fun e hs hl he hn hb => exec_of_sound rfl h hs (runSend_empty_message hs.2.1 hl he hn hb),
    fun e hs hl he hn => exec_of_sound rfl h hs (runNread_asks hl he hn)⟩
  · exact exec_of_sound rfl h hs (runCopy_fill hs.2.1 rfl rfl hf h0 hn hr hu hok hp)
  · intro mode hn
    exact ⟨fun hm hl => exec_of_sound rfl h hs (runNrecv_empty hn hm hl), fun hm => exec_of_sound rfl h hs (runNrecv_posts hn hm)⟩

end Sys2Proof
end

section
/-! SUPPORT. Engines: FRAMECOPY and its passes, SWEEP, LAUNCH with its placement, and the commands that serve queues. -/
namespace Sys2Proof
open Machine Claims

/-! ### FRAMECOPY, its passes, SWEEP (R32 to R34, R302, R375 to R378) -/

section
variable {s : State} {ci pass : Nat} {run : State → Cmd → Ran} {c : Cmd}

theorem frameRun_other (h : s.startable ci = some c) (hc : c.code = 0x05) (hp : c.passNo ≠ pass) : s.frameRun ci pass run = s := by
  simp only [State.frameRun, h]
  exact if_pos ⟨hc, hp⟩
theorem frameRun_sound {v : State} (h : Serves s ci c) (hs : Sound s ci 0x05 c) (hp : c.passNo = pass) (hv : run (s.startCmd ci c) c = .ok v) :
    s.frameRun ci pass run = ran ci c v := by
  simp only [State.frameRun, h.2]
  exact (if_neg fun e => e.2 hp).trans (engineRun_sound h hs hv)
end

/-- An event of FRAMECOPY or of one of its passes, where its engine takes a sound command for it. -/
theorem exec_of_pass {i : Instr} {s v : State} {ci pass : Nat} {run : State → Cmd → Ran} {c : Cmd} (hi : exec i s = .next (s.frameRun ci pass run))
    (h : Serves s ci c) (hs : Sound s ci 0x05 c) (hp : c.passNo = pass) (hv : run (s.startCmd ci c) c = .ok v) : exec i s = .next (ran ci c v) :=
  hi.trans (congrArg _ (frameRun_sound h hs hp hv))

section
variable {s : State} {ci : Nat} {c : Cmd}

/-- The frames of a command are those of the owner it acts for. -/
def FramesMine (s : State) (ci : Nat) (c : Cmd) : Prop :=
  s.frameFor (s.actsFor ci) c.srcFrame = true ∧ s.frameFor (s.actsFor ci) c.dstFrame = true

theorem runFramecopy_foreign (h : ¬FramesMine s ci c) : s.runFramecopy ci c = .ok (s.ends ci c 0x14 0) :=
  if_pos (by simpa [FramesMine, imp_iff_not_or] using h)
theorem runFramecopy_copies (h : FramesMine s ci c) :
    let whole := if c.len = 0 then 2 ^ 14 else 2 ^ 21
    let a := (frameSpan c.srcFrame).1 + c.w0.bits.toNat / 2 ^ 64 % 2 ^ 7 * 2 ^ 14
    let b := (frameSpan c.dstFrame).1 + c.w1.bits.toNat / 2 ^ 64 % 2 ^ 7 * 2 ^ 14
    s.runFramecopy ci c = .ok ((((s.settleCaches a (a + whole)).copyLines a b whole).filled b whole).ends ci c 0 whole) := by
  obtain ⟨hsrc, hdst⟩ := h
  simp only [State.runFramecopy, hsrc, hdst, ext128_mod, fld]
  rfl

theorem runPass1_fails {k d : Nat} (h : s.passCheck (s.actsFor ci) c true = some (k, d)) : s.runPass1 ci c = .ok (s.ends ci c k d) := by
  simp only [State.runPass1, h]
theorem runPass2_fails {k d : Nat} (h : s.passCheck (s.actsFor ci) c false = some (k, d)) : s.runPass2 ci c = .ok (s.ends ci c k d) := by
  simp only [State.runPass2, h]
theorem runPass3_fails {k d : Nat} (h : s.passCheck (s.actsFor ci) c false = some (k, d)) : s.runPass3 ci c = .ok (s.ends ci c k d) := by
  simp only [State.runPass3, h]

theorem runPass1_copies (h : s.passCheck (s.actsFor ci) c true = none) :
    let src := (frameSpan c.srcFrame).1
    let t := (s.mapBacked c.srcFrame (fun t => { t with migrating := 1, protect := s.migClass t == 1 })).setLog c.srcFrame []
    s.runPass1 ci c = .ok (((t.settleCaches src (src + 2 ^ 21)).copyLines src (frameSpan c.dstFrame).1 (2 ^ 21)).ends ci c 0 (2 ^ 21)) := by
  simp only [State.runPass1, h]

/-- The marked sectors of the source frame, moved to the destination. -/
def sectorsMoved (t : State) (c : Cmd) (l : List Nat) : State :=
  l.foldl (fun w k => w.copySector (frameSpan c.srcFrame).1 (frameSpan c.dstFrame).1 k) t
/-- The sectors marked in the log of a command's source frame. -/
def markedSectors (t : State) (c : Cmd) : List Nat := (t.logOf c.srcFrame).getD []

theorem runPass2_copies (h : s.passCheck (s.actsFor ci) c false = none) :
    let src := (frameSpan c.srcFrame).1
    let t := s.settleCaches src (src + 2 ^ 21)
    ∃ v : State, s.runPass2 ci c = .ok (v.ends ci c 0 (128 * (markedSectors t c).length))
      ∧ v = { sectorsMoved (t.setLog c.srcFrame []) c (markedSectors t c) with trans := v.trans } := by
  intro src t
  simp only [State.runPass2, h]
  exact ⟨_, rfl, rfl⟩
theorem runPass3_copies (h : s.passCheck (s.actsFor ci) c false = none) :
    let src := (frameSpan c.srcFrame).1
    let t := s.writeBack src (src + 2 ^ 21)
    let moved := sectorsMoved t c (markedSectors t c)
    ∃ v : State, s.runPass3 ci c = .ok ((((v.putEntry { moved.entry c.srcFrame with id := c.dstFrame }).putEntry
        { Entry.atReset c.srcFrame with holder := s.actsFor ci }).zeroFrame c.srcFrame).ends ci c 0 (128 * (markedSectors t c).length))
      ∧ v = { moved with trans := v.trans, dirtyLog := v.dirtyLog } := by
  intro src t moved
  simp only [State.runPass3, h]
  exact ⟨_, rfl, rfl⟩

theorem runSweep_of_sweep {w : Sweep} (h : s.sweeps.find? (fun w => w.ctx == some ci && w.number == c.number) = some w) :
    s.runSweep ci c = .ok ((s.sweepAll w.units).endCmd ((s.sweepAll w.units).actsFor ci) ci c 0 none none) := by
  simp only [State.runSweep, h]
end

/-- The events of code 0x05, by the pass that each makes (R375). -/
noncomputable def passEvents (ci : Nat) : List (Nat × Instr) := [(0, .framecopy ci), (1, .framecopyPass1 ci), (2, .framecopyPass2 ci), (3, .framecopyPass3 ci)]
/-- Each of them is a turn of the copy engine, and all passes but 0 make the same checks first. -/
theorem passEvents_run (ci : Nat) : ∀ x ∈ passEvents ci, ∃ run : State → Cmd → Ran,
    (∀ s, exec x.2 s = .next (s.frameRun ci x.1 run))
      ∧ (x.1 ≠ 0 → ∀ s c k d, s.passCheck (s.actsFor ci) c (x.1 == 1) = some (k, d) → run s c = .ok (s.ends ci c k d)) := by
  simp only [passEvents, List.forall_mem_cons]
  exact ⟨⟨_, fun _ => rfl, fun h => absurd rfl h⟩, ⟨_, fun _ => rfl, fun _ _ _ _ _ h => runPass1_fails h⟩,
    ⟨_, fun _ => rfl, fun _ _ _ _ _ h => runPass2_fails h⟩, ⟨_, fun _ => rfl, fun _ _ _ _ _ h => runPass3_fails h⟩, by simp⟩

theorem exec_pass_other {s : State} {ci : Nat} {c : Cmd} (h : s.startable ci = some c) (hc : c.code = 0x05) :
    ∀ x ∈ passEvents ci, c.passNo ≠ x.1 → exec x.2 s = .next s := by
  intro x hx hp
  obtain ⟨run, hi, -⟩ := passEvents_run ci x hx
  rw [hi, frameRun_other h hc hp]
theorem exec_pass_fails {s : State} {ci : Nat} {c : Cmd} (h : Serves s ci c) (hs : Sound s ci 0x05 c) :
    ∀ x ∈ passEvents ci, x.1 ≠ 0 → c.passNo = x.1 →
      ∀ k d, (s.startCmd ci c).passCheck ((s.startCmd ci c).actsFor ci) c (x.1 == 1) = some (k, d) →
        exec x.2 s = .next (ran ci c ((s.startCmd ci c).ends ci c k d)) := by
  intro x hx h0 hp k d hk
  obtain ⟨run, hi, hrun⟩ := passEvents_run ci x hx
  exact exec_of_pass (hi s) h hs hp (hrun h0 _ _ _ _ hk)

theorem frameCommands : FrameCommands := by
  intro s ci c h
  refine ⟨fun hs => ⟨exec_pass_other h.2 hs.2.1, fun hp hm => exec_of_pass rfl h hs hp (runFramecopy_foreign hm),
    fun hp hm => exec_of_pass rfl h hs hp (runFramecopy_copies hm), exec_pass_fails h hs, fun hp hk => exec_of_pass rfl h hs hp (runPass1_copies hk),
    fun hp hk => ?_, fun hp hk => ?_⟩, fun hs w hw => exec_of_sound rfl h hs (runSweep_of_sweep hw)⟩
  · obtain ⟨v, hv, shape⟩ := runPass2_copies hk
    exact ⟨v, exec_of_pass rfl h hs hp hv, shape⟩
  · obtain ⟨v, hv, shape⟩ := runPass3_copies hk
    exact ⟨v, exec_of_pass rfl h hs hp hv, shape⟩

/-! ### LAUNCH and its placement (R266 to R268) -/

section
variable {s : State} {ci : Nat} {c : Cmd}

theorem runLaunch_revoked (h : s.isRevoked c.w0 = true ∨ s.isRevoked c.w1 = true) : s.runLaunch ci c = .ok (s.ends ci c 0x0A 0) :=
  if_pos (by simpa using h)
theorem runLaunch_bad {bit : Nat} (h0 : s.isRevoked c.w0 = false) (h1 : s.isRevoked c.w1 = false) (h : s.badLaunch ci c = some bit) :
    s.runLaunch ci c = .ok (s.ends ci c 2 bit) := by
  simp only [State.runLaunch, h0, h1, h]
  rfl
/-- A launch as its command puts it in its owner's queue. -/
def accepted (s : State) (ci : Nat) (c : Cmd) : Launch :=
  { id := s.nextId, ctx := ci, number := c.number, owner := s.actsFor ci, entry := c.w0, data := c.w1, w2 := c.w2.bits
    priority := c.priority, ev := c.flagEV, shop := localShop c.w2.bits s.devnum, answers := none, placed := [], ended := []
    aborted := 0, benches := [], remote := [], begun := false, failed := 0, token := (s.devnum, s.nextId), asked := []
    granted := [], asks := [], given := [], farEnded := [] }
theorem runLaunch_accepted (h0 : s.isRevoked c.w0 = false) (h1 : s.isRevoked c.w1 = false) (h : s.badLaunch ci c = none) :
    s.runLaunch ci c = .ok { s with nextId := s.nextId + 1, launches := putBy Launch.id (accepted s ci c) s.launches } := by
  simp only [State.runLaunch, h0, h1, h]
  rfl
end

section
variable {s : State} {id core : Nat} {l : Launch}

theorem place_none (h : s.launch id = none) : s.place id core = s := by
  simp only [State.place, h]
theorem place_not_served (h : s.launch id = some l) (hs : (s.servedLaunch l.owner).map Launch.id ≠ some id) : s.place id core = s := by
  simp only [State.place, h]
  exact if_pos hs
theorem place_task {i : Nat} (h : s.launch id = some l) (hs : (s.servedLaunch l.owner).map Launch.id = some id) (hb : l.begun = true)
    (hl : l.shop.isSome = true) (hr : l.resident = false) (hi : s.placeOn l core = some i) :
    s.place id core = s.startLaunchTask l (l.placed.length / l.stages) (l.placed.length % l.stages) core i := by
  have begun : s.beginLaunch l = s := if_pos hb
  have here : ¬l.shop.isNone = true := by rw [← Option.not_isSome, hl]; decide
  simp only [State.place, h, begun, if_neg (not_not.2 hs), if_neg here, hr, State.placeTask, hi]
  rfl
end

/-! ### SWOUT (R108) -/

section
variable {s : State} {ci : Nat} {c : Cmd}

/-- The depth that a copy out asks for. -/
theorem swoutDepth_eq (c : Cmd) : c.cflags % 8 + 1 = c.w3.bits.toNat / 2 ^ 10 % 8 + 1 := by
  rw [Cmd.cflags, ext128_mod, fld, Nat.mod_mod_of_dvd _ (by decide)]

theorem runSwout_stops {st : Nat} (h : s.swoutCheck ci c (c.cflags % 8 + 1) = .error st) : s.runSwout ci c = .ok (s.endSwout ci c st 0 0) := by
  simp only [State.runSwout, h]
theorem runSwout_not_live {r : Region} (h : s.swoutCheck ci c (c.cflags % 8 + 1) = .ok r) (hb : s.nameBad r c.w2.bits = none)
    (hl : s.liveIn r c.w2.bits = none) : s.runSwout ci c = .ok (s.endSwout ci c 6 0 0) := by
  simp only [State.runSwout, h, hb, hl]
theorem runSwout_copies {r : Region} {e : SwEntry} {m : Move} (h : s.swoutCheck ci c (c.cflags % 8 + 1) = .ok r)
    (hb : s.nameBad r c.w2.bits = none) (hl : s.liveIn r c.w2.bits = some e)
    (hm : Move.swNode { ci := ci, cmd := c, src := none, dst := c.w1, pattern := 0, start := s } r (c.cflags % 8) c.w1.addr.toNat c.w2.bits
      { s := (s.swref r c.w2.bits).1, done := 0, pages := [], wrote := [], first := [] } = .ok m)
    (hf : ((m.s.swoutEnd r.seg c.w2.bits).ctx ci).waitsFar c.number = false) :
    s.runSwout ci c = .ok ((m.s.swoutEnd r.seg c.w2.bits).endSwout ci c 0 m.done 0) := by
  simp only [State.runSwout, h, hb, hl, Nat.add_sub_cancel, hm, hf]
  rfl
end

/-! ### RELEASE (R102, R109) -/

section
variable {s : State} {ci seg : Nat} {c : Cmd}

theorem exec_releaseCommand_none (h : s.startable ci = none) : exec (.releaseCommand ci) s = .next s := by
  show Host.Outcome.next (s.runRelease ci) = _
  simp only [State.runRelease, h]
theorem exec_releaseCommand {x : Release} (h : s.startable ci = some c) (hc : c.code = 0x51)
    (hx : s.releases.find? (fun x => x.is ci c.number) = some x) :
    let r := if x.lost then (s.startCmd ci c, [], 0x0D) else (s.startCmd ci c).dropChildren x.region x.number [] x.children
    let t : State := { r.1 with releases := r.1.releases.map (fun (y : Release) =>
      if y.ctx == ci && y.number == c.number then { y with ran := true, status := r.2.2, waits := r.2.1 } else y) }
    exec (.releaseCommand ci) s = .next (t.settleReleases t.releases.length) := by
  show Host.Outcome.next (s.runRelease ci) = _
  simp only [State.runRelease, h, hc, hx]
  rfl

theorem exec_releaseCommandPlacement_none (h : s.region seg = none) : exec (.releaseCommandPlacement seg) s = .next s := by
  show Host.Outcome.next (s.releaseEnters seg) = _
  simp only [State.releaseEnters, h]
theorem exec_releaseCommandPlacement_full {g : Region} {h : HeldRelease} {rest : List HeldRelease} (hg : s.region seg = some g)
    (hr : g.heldReleases = h :: rest) (hw : 32 ≤ (s.ctx g.ctxIndex).waiting.length) : exec (.releaseCommandPlacement seg) s = .next s := by
  show Host.Outcome.next (s.releaseEnters seg) = _
  simp only [State.releaseEnters, hg, hr, if_pos hw]
theorem exec_releaseCommandPlacement_enters {g : Region} {h : HeldRelease} {rest : List HeldRelease} (hg : s.region seg = some g)
    (hr : g.heldReleases = h :: rest) (hw : (s.ctx g.ctxIndex).waiting.length < 32) (h1 : h.txn = none) (h2 : h.device = none)
    (h3 : h.parent = none) :
    exec (.releaseCommandPlacement seg) s = .next (s.enterRelease { g with heldReleases := rest } h).1 := by
  show Host.Outcome.next (s.releaseEnters seg) = _
  simp only [State.releaseEnters, hg, hr, if_neg (Nat.not_le.2 hw), h1, h2, h3]
end

theorem queueCommands : QueueCommands := by
  intro s ci id core seg c u
  refine ⟨fun h hs => ⟨fun hr => exec_of_sound rfl h hs (runLaunch_revoked hr), fun h0 h1 =>
      ⟨fun bit hb => exec_of_sound rfl h hs (runLaunch_bad h0 h1 hb),
      fun hb => ⟨accepted u ci c, rfl, rfl, rfl, rfl, rfl, rfl, rfl, rfl, rfl, rfl, exec_of_sound rfl h hs (runLaunch_accepted h0 h1 hb)⟩⟩⟩,
    fun h => congrArg Host.Outcome.next (place_none h), fun l h hs => congrArg Host.Outcome.next (place_not_served h hs),
    fun l i h hs hb hl hr hi => congrArg Host.Outcome.next (place_task h hs hb hl hr hi), fun h hs => ?_,
    exec_releaseCommand_none, fun x h hc hx => exec_releaseCommand h hc hx, exec_releaseCommandPlacement_none,
    fun g h rest hg hr => ⟨exec_releaseCommandPlacement_full hg hr, exec_releaseCommandPlacement_enters hg hr⟩⟩
  rw [← swoutDepth_eq]
  exact ⟨fun st hst => exec_of_sound rfl h hs (runSwout_stops hst), fun r hr hb => ⟨fun hl => exec_of_sound rfl h hs (runSwout_not_live hr hb hl),
    fun e m hl hm hf => exec_of_sound rfl h hs (runSwout_copies hr hb hl hm hf)⟩⟩

end Sys2Proof
end

section
/-! SUPPORT. Packets that arrive, acknowledgements and timeouts; then the events of engines as a whole. -/
namespace Sys2Proof
open Machine Claims

/-! ### Packets that arrive (R321, R324) -/

section
variable {s : State} {p : Packet}

/-- A packet for a network context of this device that is no late copy of one that a complete receive has taken. -/
def ArrivesNew (s : State) (p : Packet) : Prop := ctxKind p.ctx = 4 ∧ resValid (mkRes 6 p.ctx) = true ∧ s.takeAgain p = none

theorem exec_packetArrival_lost (h : ctxKind p.ctx ≠ 4 ∨ resValid (mkRes 6 p.ctx) = false) : exec (.packetArrival p) s = .next s :=
  congrArg Host.Outcome.next (if_pos (by simpa using h))
theorem exec_packetArrival_again {t : State} (hk : ctxKind p.ctx = 4) (hv : resValid (mkRes 6 p.ctx) = true) (h : s.takeAgain p = some t) :
    exec (.packetArrival p) s = .next t := by
  show Host.Outcome.next (s.takePacket p) = _
  simp [State.takePacket, hk, hv, h]
theorem exec_packetArrival_message (h : ArrivesNew s p) (hp : p.kind = 0) : exec (.packetArrival p) s = .next (s.takeMessage p) := by
  obtain ⟨hk, hv, hn⟩ := h
  show Host.Outcome.next (s.takePacket p) = _
  simp [State.takePacket, hk, hv, hn, hp]
theorem exec_packetArrival_write (h : ArrivesNew s p) (hp : p.kind = 1) : exec (.packetArrival p) s = .next (s.takeWrite p) := by
  obtain ⟨hk, hv, hn⟩ := h
  show Host.Outcome.next (s.takePacket p) = _
  simp [State.takePacket, hk, hv, hn, hp]
theorem exec_packetArrival_read (h : ArrivesNew s p) (hp : p.kind = 2) : exec (.packetArrival p) s = .next (s.takeRead p) := by
  obtain ⟨hk, hv, hn⟩ := h
  show Host.Outcome.next (s.takePacket p) = _
  simp [State.takePacket, hk, hv, hn, hp]
theorem exec_packetArrival_readBytes (h : ArrivesNew s p) (hp : p.kind = 3) : exec (.packetArrival p) s = .next (s.takeReadBytes p) := by
  obtain ⟨hk, hv, hn⟩ := h
  show Host.Outcome.next (s.takePacket p) = _
  simp [State.takePacket, hk, hv, hn, hp]

/-- No receive is posted for messages: a message is refused. -/
theorem takeMessage_refused (h : ∀ r ∈ (s.ctx p.ctx).recvs, r.mode ≠ 0) : s.takeMessage p = s.answerPacket p 0x12 [] := by
  have matched : (s.ctx p.ctx).recvOf p.msg = none := List.find?_eq_none.2 fun r hr e => h r hr (by simpa using (by simpa using e : _ ∧ _).1)
  have free : (s.ctx p.ctx).recvs.find? (fun r => r.mode == 0 && r.msg.isNone && r.tag == p.tag) = none :=
    List.find?_eq_none.2 fun r hr e => h r hr (by simpa using (by simpa using e : (_ ∧ _) ∧ _).1.1)
  simp only [State.takeMessage, matched, free]
  rfl
/-- A window that serves a whole written transfer (R321). -/
def ServesWrite (r : Recv) (p : Packet) : Prop := r.mode = 1 ∧ r.tag = p.tag ∧ p.base + p.total ≤ r.capacity
theorem takeWrite_refused (h : ∀ r ∈ (s.ctx p.ctx).recvs, ¬ServesWrite r p) : s.takeWrite p = s.answerPacket p 0x12 [] := by
  have hw : (s.ctx p.ctx).window 1 p = none := List.find?_eq_none.2 fun r hr e => h r hr (by simpa [ServesWrite, and_assoc] using e)
  simp only [State.takeWrite, hw]
theorem takeWrite_placed {r : Recv} {rest : List Recv} {t : State} (hr : (s.ctx p.ctx).recvs = r :: rest) (h : ServesWrite r p)
    (hp : s.placeAt p.ctx r p.offset p.data = .ok t) : s.takeWrite p = (t.tookPacket p).recvMore p (r.note p.msg p.offset p.data.length) [] := by
  have hw : (s.ctx p.ctx).window 1 p = some r := by
    unfold Ctx.window
    rw [hr]
    exact List.find?_cons_of_pos (by simpa [ServesWrite, and_assoc] using h)
  simp only [State.takeWrite, hw, hp]
end

/-! ### Acknowledgements and timeouts (R320) -/

section
variable {s : State} {ci number seq : Nat} {acked marked : List Nat} {status : U16} {refused : Bool} {f : Flight}

theorem exec_selectiveAck_none (h : (s.ctx ci).flights.find? (fun f => f.p.number == number) = none) :
    exec (.selectiveAckArrival ci number acked marked status) s = .next s := by
  show Host.Outcome.next (s.report ci number acked marked status.toNat) = _
  simp only [State.report, h]
/-- A report's packets of a command. -/
def reportedBy (number : Nat) (acked : List Nat) (g : Flight) : Bool := g.p.number == number && acked.contains g.p.seq

theorem exec_selectiveAck_refuses (h : (s.ctx ci).flights.find? (fun f => f.p.number == number) = some f) (hs : status = 0x12) :
    exec (.selectiveAckArrival ci number acked marked status) s = .next (s.putCtx { s.ctx ci with
      flights := (s.ctx ci).flights.map (fun g => if reportedBy number acked g = true ∧ g.acked = false then { g with refused := true } else g) }) := by
  subst hs
  show Host.Outcome.next (s.report ci number acked marked _) = _
  simp only [State.report, h, reportedBy]
  simp
theorem exec_selectiveAck_fails (h : (s.ctx ci).flights.find? (fun f => f.p.number == number) = some f) (h0 : status ≠ 0) (h1 : status ≠ 0x12) :
    exec (.selectiveAckArrival ci number acked marked status) s = .next ((s.putCtx { s.ctx ci with
      flights := (s.ctx ci).flights.map (fun g => if reportedBy number acked g = true then { g with acked := true } else g)
      }).endSend ci number status.toNat) := by
  have n0 : status.toNat ≠ 0 := fun e => h0 (BitVec.eq_of_toNat_eq e)
  have n1 : status.toNat ≠ 0x12 := fun e => h1 (BitVec.eq_of_toNat_eq e)
  show Host.Outcome.next (s.report ci number acked marked _) = _
  simp only [State.report, h, if_neg n1, if_pos n0, reportedBy]
  simp
theorem exec_selectiveAck_reports (h : (s.ctx ci).flights.find? (fun f => f.p.number == number) = some f) (h0 : status = 0) :
    exec (.selectiveAckArrival ci number acked marked status) s = .next
      ((((s.ctx ci).flights.filter (fun g => g.p.flow == f.p.flow)).map (fun g => g.p.seq)).foldl (fun t q => t.reportOne f.p.flow ci acked marked q) s) := by
  subst h0
  show Host.Outcome.next (s.report ci number acked marked _) = _
  simp only [State.report, h]
  rfl

theorem timedOut_iff (s : State) (f : Flight) : s.timedOut f = true ↔ f.acked = false ∧ f.sentAt + 64 * 2 ^ (f.sends - 1) ≤ s.us := by
  simp [State.timedOut]
theorem exec_retransmission_early (h : (s.ctx ci).flights.find? (fun f => f.p.number == number && f.p.seq == seq) = some f) (ht : ¬s.timedOut f = true) :
    exec (.retransmissionTimeout ci number seq refused) s = .next s := by
  show Host.Outcome.next (s.retransmit ci number seq refused) = _
  simp only [State.retransmit, h, if_neg ht]
theorem exec_retransmission_lost (h : (s.ctx ci).flights.find? (fun f => f.p.number == number && f.p.seq == seq) = some f) (ht : s.timedOut f = true) :
    exec (.retransmissionTimeout ci number seq refused) s = .next (s.lose { f with refused := f.refused || refused }) := by
  show Host.Outcome.next (s.retransmit ci number seq refused) = _
  simp only [State.retransmit, h, if_pos ht]
/-- A loss is counted at the packet's entropy value (R322). -/
def lossCounted (s : State) (f : Flight) : State := s.putCtx ((s.ctx f.p.ctx).countAt f.p.entropy 0 1)
theorem lose_ends (h : 8 ≤ f.sends) : s.lose f = (lossCounted s f).endSend f.p.ctx f.p.number (if f.refused then 0x12 else 0x0E) := if_pos h
theorem lose_sends_again (h : f.sends < 8) : s.lose f =
    { (lossCounted s f).putCtx (((lossCounted s f).ctx f.p.ctx).putFlight { f with sends := f.sends + 1, sentAt := s.us, later := [] }) with
      out := s.out ++ [.packet (f.sends + 1) f.p] } := if_neg (Nat.not_le.2 h)
end

theorem packetEvents : PacketEvents := by
  intro s p ci number seq acked marked status refused f
  refine ⟨exec_packetArrival_lost, fun hk hv => ⟨fun t => exec_packetArrival_again hk hv, fun hn => ?_⟩, exec_selectiveAck_none,
    fun h => ⟨exec_selectiveAck_refuses h, exec_selectiveAck_fails h, exec_selectiveAck_reports h⟩,
    fun h => ⟨fun he => exec_retransmission_early h ?_, fun ha ht => ⟨fun h8 => ?_, fun h8 => ?_⟩⟩⟩
  · have new : ArrivesNew s p := ⟨hk, hv, hn⟩
    refine ⟨exec_packetArrival_message new, exec_packetArrival_write new, exec_packetArrival_read new, exec_packetArrival_readBytes new,
      fun hp hr => ?_, fun hp hr => ?_, fun r rest t hr hp h1 h2 h3 ht => ?_⟩
    · rw [exec_packetArrival_message new hp, takeMessage_refused hr]
    · rw [exec_packetArrival_write new hp, takeWrite_refused hr]
    · rw [exec_packetArrival_write new hp, takeWrite_placed hr ⟨h1, h2, h3⟩ ht]
  · rw [timedOut_iff]
    rcases he with he | he
    · simp [he]
    · omega
  · rw [exec_retransmission_lost h ((timedOut_iff s f).2 ⟨ha, ht⟩), lose_ends (f := { f with refused := f.refused || refused }) h8]; rfl
  · rw [exec_retransmission_lost h ((timedOut_iff s f).2 ⟨ha, ht⟩), lose_sends_again (f := { f with refused := f.refused || refused }) h8]; rfl

/-- Settles O55, part by part: turns of an engine; commands of no bytes, that move bytes, of frames, of queues; packets. -/
theorem engineEvents : Obligations.engine_events :=
  ⟨engineCommands, emptyCommands, movingCommands, frameCommands, queueCommands, packetEvents⟩

end Sys2Proof
end

section
/-! SUPPORT. The machine right after reset: what each of its stores answers, one lemma for each; then the statement of reset from them. -/
namespace Sys2Proof
open Machine Claims

/-! ### Stores that list nothing, or the house's alone -/

theorem reset_entry (id : U64) : State.reset.entry id = Entry.atReset id := rfl
theorem reset_slot_idle (core idx : Nat) : (State.reset.slot core idx).role = .free ∧ (State.reset.slot core idx).span = 1 := by
  unfold State.slot
  split <;> exact ⟨rfl, rfl⟩
theorem reset_loom (bench idx : Nat) : State.reset.loom bench idx = Loom.blank bench idx := rfl
theorem reset_class_zero (die : BitVec 2) : Cls.zero die ∈ State.reset.classes := by
  revert die
  decide
theorem reset_hostq_zero : State.reset.hostq 0 = HostQ.zero := rfl
theorem reset_hostq_pos {q : Nat} (h : 0 < q) : State.reset.hostq q = HostQ.blank q := by
  have other : hostqKey HostQ.zero ≠ q := Nat.ne_of_lt h
  show (findBy hostqKey q [HostQ.zero]).getD (HostQ.blank q) = _
  simp [findBy, other]

/-! ### The host window (R10, R411) -/

theorem reset_hostReset_iff (seg : Nat) : State.reset.hostReset seg = true ↔ 2 ^ 26 ≤ seg ∧ seg < 2 ^ 26 + 8192 := by
  simp [State.hostReset, State.reset]
theorem placeOf_hostBase {h : Nat} (hh : h < 8192) : placeOf (hostBase + h * 2 ^ 21) = .seg (2 ^ 26 + h) := by
  have scratchpads : spadBase + Config.benches * 2 ^ 24 ≤ hostBase := by decide
  have spad : spadBase ≤ hostBase := by decide
  have low : 2 ^ 47 ≤ hostBase := by decide
  unfold placeOf
  rw [if_neg (by omega), if_neg (by omega), if_neg (by omega), if_neg (by omega), if_neg (by omega), if_pos (by omega)]
  rw [Nat.add_sub_cancel_left, Nat.mul_div_cancel _ (by decide)]

/-- Reset lists no rights: those of a segment are the house's, where it has its reset entry. -/
theorem reset_rightsOn_seg (owner : U16) (seg : Nat) : State.reset.rightsOn owner false seg =
    if State.reset.hostReset seg && owner == Config.house then some (Rights.hostReset (seg - 2 ^ 26)) else none := rfl
theorem reset_rightsOn_host {h : Nat} (hh : h < 8192) : State.reset.rightsOn 1 false (2 ^ 26 + h) = some (Rights.hostReset h) := by
  have there : State.reset.hostReset (2 ^ 26 + h) = true := (reset_hostReset_iff _).2 ⟨by omega, by omega⟩
  have place : 2 ^ 26 + h - 2 ^ 26 = h := Nat.add_sub_cancel_left ..
  rw [reset_rightsOn_seg, there, place]
  rfl
theorem reset_rightsOn_other {seg : Nat} (h : seg < 2 ^ 26 ∨ 2 ^ 26 + 8192 ≤ seg) (owner : U16) :
    State.reset.rightsOn owner false seg = none := by
  have gone : ¬State.reset.hostReset seg = true := fun e => by
    have := (reset_hostReset_iff seg).1 e
    omega
  rw [reset_rightsOn_seg, Bool.eq_false_iff.2 gone]
  rfl
/-- Reset lists no translations. -/
theorem reset_transAt_seg {a seg : Nat} (h : placeOf a = .seg seg) :
    State.reset.transAt a = if State.reset.hostReset seg = true then some (Trans.hostReset (seg - 2 ^ 26)) else none := by
  have unlisted : State.reset.trans = [] := rfl
  simp only [State.transAt, h, unlisted, findBy]
theorem reset_transAt_host {h : Nat} (hh : h < 8192) : State.reset.transAt (hostBase + h * 2 ^ 21) = some (Trans.hostReset h) := by
  have there : State.reset.hostReset (2 ^ 26 + h) = true := (reset_hostReset_iff _).2 ⟨by omega, by omega⟩
  have place : 2 ^ 26 + h - 2 ^ 26 = h := Nat.add_sub_cancel_left ..
  rw [reset_transAt_seg (placeOf_hostBase hh), if_pos there, place]

/-! ### Scratchpad frames (R58) -/

theorem reset_uses_iff (owner : U16) (id : U64) : State.reset.uses owner id = true ↔ owner = 1 := by
  have house : State.reset.userOf id = 1 := rfl
  simp only [State.uses, house, Bool.and_eq_true, beq_iff_eq, bne_iff_ne]
  constructor
  · exact fun e => e.1.symm
  · rintro rfl
    exact ⟨rfl, by decide⟩
theorem reset_rightsOn_frame (owner : U16) (f : Nat) : (State.reset.rightsOn owner true f).isSome = true ↔ owner = 1 := by
  rw [← reset_uses_iff owner (mkRes 4 f)]
  show (if State.reset.uses owner (mkRes 4 f) then some (Rights.frameOwn owner f) else none).isSome = true ↔ _
  split <;> simp_all

/-- Settles O59: what each store of the machine after reset answers. -/
theorem resetState : Obligations.reset_state := by
  refine ⟨rfl, fun id => ?_, reset_slot_idle, fun bench idx => ?_, fun die => ⟨Cls.zero die, reset_class_zero die, rfl, rfl, rfl, rfl, rfl⟩,
    ⟨rfl, fun q hq => ?_⟩, fun h hh => ⟨⟨Rights.hostReset h, reset_rightsOn_host hh, rfl, rfl, rfl, rfl, rfl, rfl, rfl, rfl, rfl, rfl, rfl⟩,
      ⟨Trans.hostReset h, reset_transAt_host hh, rfl, rfl, rfl, rfl⟩⟩, fun owner seg h => reset_rightsOn_other h owner, reset_rightsOn_frame⟩
  · rw [reset_entry]
    exact ⟨rfl, rfl, rfl⟩
  · rw [reset_loom]
    exact ⟨rfl, rfl⟩
  · rw [reset_hostq_pos hq]
    rfl

end Sys2Proof
end

section
/-! SUPPORT. The owner members (R51, R53, R54, R335): the reading of a charter, what OWNNEW, OWNEND, RENEW, CLAIM and SETHEIR answer, one lemma for
each outcome; then the statement of the owner members from them. -/
namespace Sys2Proof
open Machine Claims

/-! ### The reading of a charter (R198, R335) -/

/-- The machine once the first `k` granules at `m` have been looked at. -/
def lookedAt (s : State) (m : Nat) : Nat → State
  | 0 => s
  | k + 1 => (lookedAt s m k).looked s.me (m + 16 * k) 16

theorem lookedAt_shape (s : State) (m k : Nat) : ∃ f, lookedAt s m k = { s with free := f } := by
  induction k with
  | zero => exact ⟨s.free, rfl⟩
  | succ k ih =>
    obtain ⟨f, e⟩ := ih
    obtain ⟨f', e'⟩ := looked_shape (lookedAt s m k) s.me (m + 16 * k) 16
    exact ⟨f', by rw [lookedAt, e', e]⟩

theorem bytesAt_free (s : State) (f a n : Nat) : bytesAt { s with free := f } a n = bytesAt s a n := by
  induction n generalizing a with
  | zero => rfl
  | succ n ih => rw [bytesAt, bytesAt, byteAt_free, ih]
/-- What a read of a granule may give does not depend on the draws so far. -/
theorem mayReadCapBy_of_free {s : State} {f : Nat} {q : Agent} {a : Nat} {v : Cap} (h : MayReadCapBy { s with free := f } q a v) : MayReadCapBy s q a v := by
  obtain ⟨now, l, among, tag, bytes⟩ := h
  have sameByte := byteAt_free s f
  refine ⟨fun h0 => ?_, l, among, tag, fun k hk => ?_⟩
  · rw [now h0, bytesAt_free]
    rfl
  · rw [bytes k hk, sameByte]

/-- Word `k` of the charter as OWNNEW loads it. -/
def charterWord (s : State) (a : BitVec 5) (k : Nat) : Cap :=
  let m := s.localAddr (s.x a).toNat
  let v := (lookedAt s m k).seenCap s.me (m + 16 * k)
  { v with tag := s.loadedTag (s.g a) v (s.rightC (m + 16 * k)) (s.x a) }

theorem isCharterWord_charterWord {s : State} {a : BitVec 5} (h : (s.x a).toNat % 16 = 0) (k : Nat) : IsCharterWord s a k (charterWord s a k) := by
  have aligned : (s.localAddr (s.x a).toNat + 16 * k) % 16 = 0 := by
    rw [Nat.add_mul_mod_self_left]
    exact localAddr_mod h
  refine ⟨_, ?_, rfl⟩
  obtain ⟨f, e⟩ := lookedAt_shape s (s.localAddr (s.x a).toNat) k
  have seen := seenCap_mayRead (lookedAt s (s.localAddr (s.x a).toNat) k) s.me _ aligned
  rw [e] at seen ⊢
  exact mayReadCapBy_of_free seen

/-- The loads of the first `n` words, one after another. -/
theorem foldl_charterWords (s : State) (a : BitVec 5) (n : Nat) :
    (List.range n).foldl (fun (r : State × List Cap) i =>
      let g := s.localAddr (s.x a).toNat + 16 * i
      let v := r.1.seenCap s.me g
      (r.1.looked s.me g 16, r.2 ++ [{ v with tag := s.loadedTag (s.g a) v (s.rightC g) (s.x a) }])) (s, [])
      = (lookedAt s (s.localAddr (s.x a).toNat) n, (List.range n).map (charterWord s a)) := by
  induction n with
  | zero => rfl
  | succ n ih => rw [List.range_succ, List.foldl_append, ih, List.map_append]; rfl

/-- The machine once the charter has been read. -/
def charterRead (s : State) (a : BitVec 5) : State :=
  (lookedAt s (s.localAddr (s.x a).toNat) 4).access (accessOf s (s.x a) 64 true false false) id

theorem readCharter_ok {s : State} {a : BitVec 5} (ha : Authorises s (s.g a) [.r] (s.x a) 64) (hm : (s.x a).toNat % 16 = 0)
    (hc : Clear s (s.x a) (accessOf s (s.x a) 64 true false false)) :
    s.readCharter a = .ok (charterRead s a, [0, 1, 2, 3].map (charterWord s a)) := by
  obtain ⟨near, clear⟩ := hc
  have passes := accCheck_ok (x := s.acc (s.localAddr (s.x a).toNat) 64 true false false) (ea := s.x a) clear
  have words := foldl_charterWords s a 4
  unfold State.readCharter
  simp only [capCheck_ok (al := false) ha (by simp), site_here near, hm, passes, words]
  rfl

/-- A state in which a charter has been read: its access is recorded, a watch may have matched, and nothing else has changed. -/
theorem charterRead_spec (s : State) (a : BitVec 5) :
    let x := accessOf s (s.x a) 64 true false false
    let u := charterRead s a
    u = { s with self := { s.self with watchTrap := u.self.watchTrap, park := u.self.park }, recs := u.recs, free := u.free }
      ∧ Recorded s u x ∧ Watched s u x 0 := by
  intro x u
  obtain ⟨f, e⟩ := lookedAt_shape s (s.localAddr (s.x a).toNat) 4
  have read : u = ({ s with free := f } : State).access x id := by rw [← e]; rfl
  obtain ⟨A, shape⟩ := load_eff (s := { s with free := f }) (x := x) rfl read rfl (show 0 < 64 by decide)
  obtain ⟨k, w, self, -⟩ := A.self
  refine ⟨?_, recorded_free A.recs, A.watch⟩
  rw [shape, self]

section
variable (s : State) (a : BitVec 5)

theorem charterRead_shape : charterRead s a = { s with
    self := { s.self with watchTrap := (charterRead s a).self.watchTrap, park := (charterRead s a).self.park }
    recs := (charterRead s a).recs, free := (charterRead s a).free } := (charterRead_spec s a).1

/-! Who holds what, and who lives, are as they were before the charter was read. -/

theorem charterRead_owner : (charterRead s a).self.owner = s.self.owner := by rw [charterRead_shape]
theorem charterRead_lapsed (o : U16) : (charterRead s a).lapsed o = s.lapsed o := by rw [charterRead_shape]; rfl
theorem charterRead_lives (o : U16) : (charterRead s a).lives o = s.lives o := by rw [charterRead_shape]; rfl
theorem charterRead_entry (id : U64) : (charterRead s a).entry id = s.entry id := by rw [charterRead_shape]; rfl
theorem charterRead_holds (o : U16) (id : U64) : (charterRead s a).holds o id = s.holds o id := by rw [charterRead_shape]; rfl
theorem charterRead_coreIdle (core : Nat) : (charterRead s a).coreIdle core = s.coreIdle core := by rw [charterRead_shape]; rfl

theorem charterRead_badCharter_iff (n : Nat) :
    (charterRead s a).badCharter ([0, 1, 2, 3].map (charterWord s a)) n = none ↔ GoodCharter s (charterWord s a) n :=
  badCharter_iff s _ _ n (charterRead_owner s a) (charterRead_holds s a) (charterRead_entry s a) (charterRead_lives s a)
end

/-! ### OWNNEW (R51, R335) -/

theorem coreIdle_iff (s : State) (core : Nat) : s.coreIdle core = true ↔ IdleCore s core := by
  simp only [State.coreIdle, IdleCore, Bool.and_eq_true, Bool.not_eq_true', List.any_eq_false, Bool.and_eq_true, beq_iff_eq, not_and, List.isEmpty_iff]
theorem charterRead_seedFree_iff (s : State) (a : BitVec 5) :
    (charterRead s a).seedFree (charterOf ([0, 1, 2, 3].map (charterWord s a))).seed = true
      ↔ (resKind (charterField (charterWord s a) 1) = 1 → IdleCore s (resIndex (charterField (charterWord s a) 1))) := by
  have seed : (charterOf ([0, 1, 2, 3].map (charterWord s a))).seed = charterField (charterWord s a) 1 := (charter_words (charterWord s a)).2.1.symm
  simp only [seed, State.seedFree, charterRead_coreIdle, Bool.or_eq_true, bne_iff_ne, ne_eq, coreIdle_iff, imp_iff_not_or]

section
variable {s u : State} {d a : BitVec 5} {l : List Cap} {n off : Nat}

theorem exec_ownnew_lapsed (h : s.readCharter a = .ok (u, l)) (hl : u.lapsed u.self.owner = true) :
    exec (.ownnew d a) s = finish (u.refuse d 10 0) := by
  show execOwnnew d a s = _
  simp only [execOwnnew, h, State.meOwner, hl, bind, Except.bind, if_true]
  rfl
theorem exec_ownnew_full (h : s.readCharter a = .ok (u, l)) (hl : u.lapsed u.self.owner = false) (hn : u.freeOwnerSlot u.self.owner = none) :
    exec (.ownnew d a) s = finish (u.refuse d 4 0) := by
  show execOwnnew d a s = _
  simp only [execOwnnew, h, State.meOwner, hl, hn, bind, Except.bind]
  rfl
theorem exec_ownnew_bad (h : s.readCharter a = .ok (u, l)) (hl : u.lapsed u.self.owner = false) (hn : u.freeOwnerSlot u.self.owner = some n)
    (hb : u.badCharter l n = some off) : exec (.ownnew d a) s = finish (u.refuse d 8 off) := by
  show execOwnnew d a s = _
  simp only [execOwnnew, h, State.meOwner, hl, hn, hb, bind, Except.bind]
  rfl
theorem exec_ownnew_busy (h : s.readCharter a = .ok (u, l)) (hl : u.lapsed u.self.owner = false) (hn : u.freeOwnerSlot u.self.owner = some n)
    (hb : u.badCharter l n = none) (hs : u.seedFree (charterOf l).seed = false) : exec (.ownnew d a) s = finish (u.refuse d 9 0) := by
  show execOwnnew d a s = _
  simp only [execOwnnew, h, State.meOwner, hl, hn, hb, hs, bind, Except.bind]
  rfl
theorem exec_ownnew_founds (h : s.readCharter a = .ok (u, l)) (hl : u.lapsed u.self.owner = false) (hn : u.freeOwnerSlot u.self.owner = some n)
    (hb : u.badCharter l n = none) (hs : u.seedFree (charterOf l).seed = true) :
    exec (.ownnew d a) s = .next (((u.sync 2).found n (charterOf l)).status d 0 n) := by
  show execOwnnew d a s = _
  simp only [execOwnnew, h, State.meOwner, hl, hn, hb, hs, bind, Except.bind]
  rfl
end

/-! ### OWNEND and RENEW (R53, R54, R335) -/

section
variable {s : State} {d a : BitVec 5} {o : Owner}

theorem exec_ownend_house (h : isHouse s) : exec (.ownend d) s = finish (s.refuse d 11 0) := by
  have me : s.meOwner = Config.house := h
  show execOwnend d s = _
  simp only [execOwnend, me, if_true]
  rfl
theorem exec_ownend_lapsed (h : ¬isHouse s) (hl : s.lapsed s.self.owner = true) : exec (.ownend d) s = finish (s.refuse d 10 0) := by
  have other : ¬s.self.owner = Config.house := h
  show execOwnend d s = _
  simp only [execOwnend, State.meOwner, if_neg other, hl, if_true]
  rfl
theorem exec_ownend_ends (h : ¬isHouse s) (hl : s.lapsed s.self.owner = false) (ho : s.owner s.self.owner = some o) :
    exec (.ownend d) s = .next ((((s.sync 2).status d 0 0).beginDissolve o.id (s.successor o)).endDissolve o.id) := by
  have other : ¬s.self.owner = Config.house := h
  show execOwnend d s = _
  simp only [execOwnend, State.meOwner, if_neg other, hl, ho]
  rfl

theorem exec_renew_lapsed (h : s.lapsed s.self.owner = true) : exec (.renew d) s = finish (s.refuse d 10 0) := if_pos h
theorem exec_renew_renews (h : s.lapsed s.self.owner = false) (ho : s.owner s.self.owner = some o) :
    exec (.renew d) s = .next (((s.sync 2).putOwner { o with renewed := s.us, renewedFrac := s.usFrac * 1750 / s.clock }).status d 0 0) := by
  show execRenew d s = _
  simp only [execRenew, State.meOwner, h, ho]
  rfl
theorem lapsed_of_owner (ho : s.owner s.self.owner = some o) : s.lapsed s.self.owner = (o.lapsed || s.lapseDue o) := by
  rw [State.lapsed, ho]

/-! ### SETHEIR (R51, R335) -/

theorem exec_setheir_house (h : isHouse s) : exec (.setheir d a) s = finish (s.refuse d 11 0) := by
  have me : s.meOwner = Config.house := h
  show execSetheir d a s = _
  simp only [execSetheir, me, if_true]
  rfl
theorem exec_setheir_unnamed (h : ¬isHouse s) (hn : ownerWord (s.x a) = none) : exec (.setheir d a) s = finish (s.refuse d 4 0) := by
  have other : ¬s.self.owner = Config.house := h
  show execSetheir d a s = _
  simp only [execSetheir, State.meOwner, if_neg other, hn]
variable {heir : U16}
theorem exec_setheir_dead (h : ¬isHouse s) (hn : ownerWord (s.x a) = some heir) (hv : s.lives heir = false) :
    exec (.setheir d a) s = finish (s.refuse d 4 0) := by
  have other : ¬s.self.owner = Config.house := h
  show execSetheir d a s = _
  simp only [execSetheir, State.meOwner, if_neg other, hn, hv]
  rfl
theorem exec_setheir_live (h : ¬isHouse s) (hn : ownerWord (s.x a) = some heir) (hv : s.lives heir = true) (ho : s.owner s.self.owner = some o) :
    exec (.setheir d a) s = finish (
      if s.lapsed s.self.owner = true then s.refuse d 10 0
      else if heir = s.self.owner then s.refuse d 1 0
      else .ok (((s.sync 2).putOwner { o with heir := heir }).status d 0 0)) := by
  have other : ¬s.self.owner = Config.house := h
  show execSetheir d a s = _
  simp only [execSetheir, State.meOwner, if_neg other, hn, hv, ho]
  rfl
end

/-! ### CLAIM (R54, R55, R335) -/

/-- A CLAIM is over when every entry has passed; until then it waits. -/
def claimEnd (d : BitVec 5) (t : State) : State :=
  match t.self.park with
  | .claim _ (some n) => (t.sync 2).status d 0 n
  | _ => t

section
variable {s : State} {d a : BitVec 5} {o : Owner}

theorem claimEnd_over {t : State} {id : U16} {n : Nat} (h : t.self.park = .claim id (some n)) : claimEnd d t = (t.sync 2).status d 0 n := by
  rw [claimEnd, h]
theorem claimEnd_waits {t : State} {id : U16} (h : t.self.park = .claim id none) : claimEnd d t = t := by
  rw [claimEnd, h]

theorem exec_claim_over {id : U16} {n : Nat} (h : s.self.park = .claim id (some n)) : exec (.claim d a) s = .next ((s.sync 2).status d 0 n) := by
  show execClaim d a s = _
  simp only [execClaim, h]
theorem exec_claim_none (hr : NoLapse s) (hp : s.self.park = .no) (h : (ownerWord (s.x a)).bind s.owner = none) :
    exec (.claim d a) s = finish (s.refuse d 4 0) := by
  show execClaim d a s = _
  simp only [execClaim, hp, lapses_rest hr, h]

/-- The machine in which the issuer's claim of an owner has begun, and is over if every entry has passed. -/
def afterClaim (s : State) (o : Owner) : State :=
  let w := s.wait (.claim o.id none)
  (if o.dissolving = none then w.beginDissolve o.id s.self.owner else w).endDissolve o.id

theorem exec_claim_named (hr : NoLapse s) (hp : s.self.park = .no) (h : (ownerWord (s.x a)).bind s.owner = some o) :
    exec (.claim d a) s = finish (
      if s.lapsed s.self.owner = true then s.refuse d 10 0
      else if (!o.lapsed) = true then s.refuse d 2 6
      else if s.successor o ≠ s.self.owner then s.refuse d 1 0
      else .ok (claimEnd d (afterClaim s o))) := by
  have begun (w : State) : (if o.dissolving.isSome = true then w else w.beginDissolve o.id s.self.owner)
      = if o.dissolving = none then w.beginDissolve o.id s.self.owner else w := by cases o.dissolving <;> rfl
  show execClaim d a s = _
  simp only [execClaim, hp, lapses_rest hr, h, State.meOwner, begun, afterClaim]
  rfl
end

theorem completes_of_status {i : Instr} {s t : State} {d : BitVec 5} {c n : Nat} (h : exec i s = .next (t.status d c n)) (hc : c < 2 ^ 32) :
    Completes i s (t.wr d (statusWord c n)) :=
  completes_of (h.trans (congrArg Host.Outcome.next (status_eq t d c n hc)))

theorem ownnew_outcomes {s : State} {a : BitVec 5} (d : BitVec 5) (ha : Authorises s (s.g a) [.r] (s.x a) 64) (hm : (s.x a).toNat % 16 = 0)
    (hc : Clear s (s.x a) (accessOf s (s.x a) 64 true false false)) :
    let u := charterRead s a
    let word := charterWord s a
    let seed := charterField word 1
    (s.lapsed s.self.owner = true → Ends (.ownnew d a) s u d 10 0)
      ∧ (s.lapsed s.self.owner = false → u.freeOwnerSlot s.self.owner = none → Ends (.ownnew d a) s u d 4 0)
      ∧ ∀ n, s.lapsed s.self.owner = false → u.freeOwnerSlot s.self.owner = some n →
          (¬GoodCharter s word n → ∃ off, u.badCharter ([0, 1, 2, 3].map word) n = some off ∧ Ends (.ownnew d a) s u d 8 off)
          ∧ (GoodCharter s word n →
              (resKind seed = 1 → ¬IdleCore s (resIndex seed) → Ends (.ownnew d a) s u d 9 0)
              ∧ ((resKind seed = 1 → IdleCore s (resIndex seed)) →
                  Completes (.ownnew d a) s (((chipCut u).found n (charterOf ([0, 1, 2, 3].map word))).wr d (statusWord 0 n)))) := by
  intro u word seed
  have read : s.readCharter a = .ok (u, [0, 1, 2, 3].map word) := readCharter_ok ha hm hc
  have owner : u.self.owner = s.self.owner := charterRead_owner s a
  have lapsed : u.lapsed s.self.owner = s.lapsed s.self.owner := charterRead_lapsed s a _
  rw [← lapsed, ← owner]
  refine ⟨fun hl => ends_of (exec_ownnew_lapsed read hl) (by decide),
    fun hl hn => ends_of (exec_ownnew_full read hl hn) (by decide), fun n hl hn => ?_⟩
  have good := charterRead_badCharter_iff s a n
  have free := charterRead_seedFree_iff s a
  refine ⟨fun hg => ?_, fun hg => ⟨fun hk hi => ?_, fun hi => ?_⟩⟩
  · obtain ⟨off, bad⟩ := Option.ne_none_iff_exists'.1 (fun e => hg (good.1 e))
    exact ⟨off, bad, ends_of (exec_ownnew_bad read hl hn bad) (by decide)⟩
  · have busy := Bool.eq_false_iff.2 (fun e => hi (free.1 e hk))
    exact ends_of (exec_ownnew_busy read hl hn (good.2 hg) busy) (by decide)
  · rw [chip_eq]
    exact completes_of_status (exec_ownnew_founds read hl hn (good.2 hg) (free.2 hi)) (by decide)
theorem ownend_ends {s : State} {o : Owner} (d : BitVec 5) (h : ¬isHouse s) (ho : s.owner s.self.owner = some o) (hl : s.lapsed s.self.owner = false) :
    ∃ v, Past ((chipCut s).wr d (statusWord 0 0)) v
      ∧ exec (.ownend d) s = .next ((v.beginDissolve o.id (s.successor o)).endDissolve o.id) :=
  ⟨_, past_retire _, by rw [exec_ownend_ends h hl ho, status_eq _ _ _ _ (by decide), chip_eq]⟩
theorem renew_ends {s : State} {o : Owner} (d : BitVec 5) (ho : s.owner s.self.owner = some o) (hl : o.lapsed = false) (hd : s.lapseDue o = false) :
    Ends (.renew d) s (s.putOwner { o with renewed := s.us, renewedFrac := s.usFrac * 1750 / s.clock }) d 0 0 := by
  have lives : s.lapsed s.self.owner = false := by rw [lapsed_of_owner ho, hl, hd]; rfl
  exact ends_of (exec_renew_renews lives ho) (by decide)
theorem claim_outcomes {s : State} {a : BitVec 5} {o : Owner} (d : BitVec 5) (hr : NoLapse s) (hp : s.self.park = .no)
    (h : (ownerWord (s.x a)).bind s.owner = some o) :
    (s.lapsed s.self.owner = true → Refuses (.claim d a) s d 10 0)
      ∧ (s.lapsed s.self.owner = false → o.lapsed = false → Refuses (.claim d a) s d 2 6)
      ∧ (s.lapsed s.self.owner = false → o.lapsed = true → s.successor o ≠ s.self.owner → Refuses (.claim d a) s d 1 0)
      ∧ (s.lapsed s.self.owner = false → o.lapsed = true → s.successor o = s.self.owner →
          (∀ id, (afterClaim s o).self.park = .claim id none → exec (.claim d a) s = .next (afterClaim s o))
          ∧ ∀ id n, (afterClaim s o).self.park = .claim id (some n) → Ends (.claim d a) s (afterClaim s o) d 0 n) := by
  have claims := exec_claim_named (d := d) hr hp h
  refine ⟨fun hl => ?_, fun hl ho => ?_, fun hl ho hs => ?_, fun hl ho hs => ?_⟩
  · exact refuses_of (claims.trans (by rw [if_pos hl])) (by decide)
  · exact refuses_of (claims.trans (by simp [hl, ho])) (by decide)
  · exact refuses_of (claims.trans (by simp [hl, ho, hs])) (by decide)
  · have begins : exec (.claim d a) s = .next (claimEnd d (afterClaim s o)) := by simpa [hl, ho, hs, finish] using claims
    exact ⟨fun id hw => by rw [begins, claimEnd_waits hw], fun id n hw => ends_of (begins.trans (by rw [claimEnd_over hw])) (by decide)⟩
theorem setheir_outcomes {s : State} {a : BitVec 5} {o : Owner} {heir : U16} (d : BitVec 5) (hh : ¬isHouse s) (hn : ownerWord (s.x a) = some heir)
    (hv : s.lives heir = true) (ho : s.owner s.self.owner = some o) :
    (s.lapsed s.self.owner = true → Refuses (.setheir d a) s d 10 0)
      ∧ (s.lapsed s.self.owner = false → heir = s.self.owner → Refuses (.setheir d a) s d 1 0)
      ∧ (s.lapsed s.self.owner = false → heir ≠ s.self.owner → Ends (.setheir d a) s (s.putOwner { o with heir := heir }) d 0 0) := by
  have sets := exec_setheir_live (d := d) hh hn hv ho
  refine ⟨fun hl => ?_, fun hl hm => ?_, fun hl hm => ?_⟩
  · exact refuses_of (sets.trans (by rw [if_pos hl])) (by decide)
  · exact refuses_of (sets.trans (by simp [hl, hm])) (by decide)
  · exact ends_of (sets.trans (by simp only [hl, if_neg hm]; rfl)) (by decide)

theorem ownerMembers : Claims.OwnerMembers := by
  intro s d a me named x
  have names : ownerWord (s.x a) = named := named_eq (s.x a)
  refine ⟨fun ha hm hc => ?_, fun hh => ?_, fun hh hl => ?_, fun o hh ho hl => ownend_ends d hh ho hl, fun hl => ?_, fun o ho hl hd => renew_ends d ho hl hd,
    fun id n hp => ?_, fun hr hp hn => ?_, fun o hr hp hn => claim_outcomes d hr hp (by rwa [names]), fun hh => ?_, fun hh hn => ?_,
    fun heir o hh hn hv ho => setheir_outcomes d hh (names.trans hn) hv ho⟩
  · obtain ⟨shape, recorded, watched⟩ := charterRead_spec s a
    exact ⟨charterRead s a, charterWord s a, fun k _ => isCharterWord_charterWord hm k, shape, recorded, watched, ownnew_outcomes d ha hm hc⟩
  · exact refuses_of (exec_ownend_house hh) (by decide)
  · exact refuses_of (exec_ownend_lapsed hh hl) (by decide)
  · exact refuses_of (exec_renew_lapsed hl) (by decide)
  · exact ends_of (exec_claim_over hp) (by decide)
  · exact refuses_of (exec_claim_none hr hp (by rwa [names])) (by decide)
  · exact refuses_of (exec_setheir_house hh) (by decide)
  · rcases hn with hn | ⟨h, hn, hv⟩
    · exact refuses_of (exec_setheir_unnamed hh (names.trans hn)) (by decide)
    · exact refuses_of (exec_setheir_dead hh (names.trans hn) hv) (by decide)

end Sys2Proof
end

section
/-! SUPPORT. The operations on an entry (R42 to R48, R331 to R334): how each begins, what it is at a unit where the entry is at rest, and what
it answers, one lemma for each outcome; then the statement of the operations from them. -/
namespace Sys2Proof
open Machine Claims

theorem termsTerm_eq (t : U128) : termsTerm t = field32 t 64 := by
  rw [termsTerm, field32, BitVec.extractLsb'_toNat, Nat.shiftRight_eq_div_pow]

/-! ### How an operation begins (R333, steps 1 and 2) -/

section
variable {s : State} {d a b : BitVec 5} {id : U64} {i : Instr}

theorem holdStart_invalid (h : resValid id = false) : s.holdStart d id = refuseU s d 4 0 := by
  unfold State.holdStart
  rw [h]
  rfl
theorem holdStart_lapsed (h : resValid id = true) (hl : s.lapsed s.self.owner = true) : s.holdStart d id = refuseU s d 10 0 := by
  unfold State.holdStart State.meOwner
  rw [h, hl]
  rfl
/-- An operation whose first part refuses. -/
theorem refuses_of_bind {r : Run Unit} {rest : Unit → Run State} {c n : Nat} (h : exec i s = finish (r >>= rest)) (hr : r = refuseU s d c n)
    (hc : c < 2 ^ 32) : Refuses i s d c n := by
  subst hr
  exact refuses_of h hc

/-- The six operations on an entry; their start comes first, but for an ACCEPT that has begun already. -/
theorem begins_with_holdStart (hp : s.self.park = .no) :
    ∀ i ∈ ([.give d a b, .accept d a b, .decline d a, .lend d a b, .returnLoan d a, .reclaim d a] : List Instr),
      ∃ rest, exec i s = finish (s.holdStart d (s.x a) >>= rest) := by
  have accepts : ∃ rest, exec (.accept d a b) s = finish (s.holdStart d (s.x a) >>= rest) := ⟨_, if_neg (wait_free hp)⟩
  simp only [List.forall_mem_cons, List.not_mem_nil, false_imp_iff, implies_true, and_true]
  exact ⟨⟨_, rfl⟩, accepts, ⟨_, rfl⟩, ⟨_, rfl⟩, ⟨_, rfl⟩, ⟨_, rfl⟩⟩
end

/-! ### An operation at its unit -/

/-- Steps 1 to 3 of R333 pass, and the unit has nothing of its own to do with the entry first. -/
structure AtUnit (s : State) (id : U64) : Prop where
  rests : Resting s (s.entry id)
  valid : resValid id = true
  alive : s.lapsed s.self.owner = false

section
variable {s : State} {id : U64}

theorem AtUnit.starts (h : AtUnit s id) (d : BitVec 5) : s.holdStart d id = .ok () := holdStart_ok h.valid h.alive
theorem AtUnit.fresh (h : AtUnit s id) : s.fresh id = s := fresh_rest h.rests
theorem AtUnit.recovery (h : AtUnit s id) : (s.entry id).recovery = none := by
  obtain ⟨-, recovery, -, -⟩ := h.rests
  exact recovery
theorem AtUnit.idle (h : AtUnit s id) : s.unitBusy (s.entry id) = .ok () := unit_ok h.recovery
end

/-- What a loan's term has still to run, in whole microseconds rounded up (R48). -/
def termLeft (s : State) (e : Entry) : Nat :=
  match e.termEnd with
  | some t => (momentOf e t - present s + 1749) / 1750
  | none => 0

theorem termLeft_some {s : State} {e : Entry} {t : Nat} (h : e.termEnd = some t) : termLeft s e = (momentOf e t - present s + 1749) / 1750 := by
  rw [termLeft, h]
theorem termLeft_ne_zero_iff (s : State) (e : Entry) : termLeft s e ≠ 0 ↔ ∃ t, e.termEnd = some t ∧ present s < momentOf e t := by
  cases h : e.termEnd with
  | none => simp [termLeft, h]
  | some t =>
    rw [termLeft_some h]
    simp only [Option.some.injEq, exists_eq_left']
    omega

/-- An entry whose offer has been accepted with the keep bit of `gb` (R42). -/
def acceptedEntry (s : State) (b : BitVec 5) (e : Entry) : Entry :=
  { e with
    keepBoth := e.terms.getLsbD 16 && (s.x b).getLsbD 16, deadline := none
    termEnd := if e.state = .offeredLoan then some (s.us + field32 e.terms 64) else none, frac := s.usFrac * 1750 / s.clock }
/-- The machine in which an accepted entry has begun to pass, and has passed if there is nothing to wait for (R44). -/
def afterAccept (s : State) (b : BitVec 5) (id : U64) : State :=
  let x := acceptedEntry s b (s.entry id)
  (s.beginPassing x x.state (passing s.self.owner x.holder false false x.keepBoth false)).settleEntry id
/-- An ACCEPT is over when the change of holder is; until then it waits (R44, R336). -/
def acceptEnd (d : BitVec 5) (id : U64) (t : State) : State :=
  if (t.entry id).recovery = none then (t.sync 2).status d 0 0 else t.wait (.change id)

section
variable {s : State} {d a b : BitVec 5}

theorem exec_decline_atUnit (h : AtUnit s (s.x a)) : exec (.decline d a) s = finish (s.offerParty d (s.entry (s.x a)) Entry.other >>= fun _ =>
    .ok (((s.sync 2).putEntry (withdrawn (s.entry (s.x a)))).status d 0 0)) := by
  show execDecline d a s = _
  simp only [execDecline, h.starts, h.fresh, h.idle]
  rfl
theorem exec_accept_atUnit (hp : s.self.park = .no) (h : AtUnit s (s.x a)) : exec (.accept d a b) s = finish (
    s.offerParty d (s.entry (s.x a)) Entry.other >>= fun _ =>
      if s.x b &&& ~~~0x10000 ≠ 0 then s.refuse d 6 0 else .ok (acceptEnd d (s.x a) (afterAccept s b (s.x a)))) := by
  have free : ¬s.self.park = .change (s.x a) := wait_free hp
  show execAccept d a b s = _
  simp only [execAccept, if_neg free, h.starts, h.fresh, h.idle, afterAccept, acceptedEntry, acceptEnd,
    termsTerm_eq, Option.isNone_iff_eq_none, beq_iff_eq]
  rfl
theorem exec_returnLoan_loan (h : AtUnit s (s.x a)) (hs : (s.entry (s.x a)).state = .lent) : exec (.returnLoan d a) s = finish (
    if (s.entry (s.x a)).other ≠ s.self.owner then s.refuse d 1 0 else .ok (s.recall d (s.entry (s.x a)) true)) := by
  show execReturnLoan d a s = _
  simp only [execReturnLoan, h.starts, h.fresh, h.idle, hs]
  rfl
theorem exec_returnLoan_other (h : AtUnit s (s.x a)) (hs : (s.entry (s.x a)).state ≠ .lent) :
    exec (.returnLoan d a) s = finish (s.refuse d 2 (s.entry (s.x a)).state.code) := by
  show execReturnLoan d a s = _
  simp only [execReturnLoan, h.starts, h.fresh, h.idle]
  cases e : (s.entry (s.x a)).state with
  | lent => exact absurd e hs
  | _ => rfl
theorem exec_reclaim_loan (h : AtUnit s (s.x a)) (hs : (s.entry (s.x a)).state = .lent) : exec (.reclaim d a) s = finish (
    if (s.entry (s.x a)).holder ≠ s.self.owner then s.refuse d 1 0
    else if termLeft s (s.entry (s.x a)) ≠ 0 ∧ (s.entry (s.x a)).lapsedBorrower = false then s.refuse d 3 (termLeft s (s.entry (s.x a)))
    else .ok (s.recall d (s.entry (s.x a)) false)) := by
  show execReclaim d a s = _
  simp only [execReclaim, h.starts, h.fresh, h.idle, ← Bool.not_eq_true']
  simp only [bind, Except.bind, hs, if_true]
  rfl
theorem exec_reclaim_other (h : AtUnit s (s.x a)) (hs : (s.entry (s.x a)).state ≠ .lent) : exec (.reclaim d a) s = finish (
    s.offerParty d (s.entry (s.x a)) Entry.holder >>= fun _ => .ok (((s.sync 2).putEntry (withdrawn (s.entry (s.x a)))).status d 0 0)) := by
  show execReclaim d a s = _
  simp only [execReclaim, h.starts, h.fresh, h.idle]
  simp only [bind, Except.bind, if_neg hs]
  rfl

theorem recipients_ask (hp : s.self.park = .no) (h : AtUnit s (s.x a)) :
    ∀ i ∈ ([.accept d a b, .decline d a] : List Instr), ∃ rest, exec i s = finish (s.offerParty d (s.entry (s.x a)) Entry.other >>= rest) := by
  simp only [List.forall_mem_cons, List.not_mem_nil, false_imp_iff, implies_true, and_true]
  exact ⟨⟨_, exec_accept_atUnit hp h⟩, ⟨_, exec_decline_atUnit h⟩⟩
end

/-! ### The outcomes at a unit -/

section
variable {s : State} {d a b : BitVec 5} {e : Entry} {party : Entry → U16}

/-- An offer of the entry stands. -/
def Offered (e : Entry) : Prop := e.state = .offered ∨ e.state = .offeredLoan

theorem ne_lent_of_offered (h : Offered e) : e.state ≠ .lent := by
  rcases h with h | h <;> rw [h] <;> decide
theorem offerParty_none (h1 : e.state ≠ .offered) (h2 : e.state ≠ .offeredLoan) : s.offerParty d e party = refuseU s d 2 e.state.code := by
  unfold State.offerParty
  cases h : e.state with
  | offered => exact absurd h h1
  | offeredLoan => exact absurd h h2
  | _ => rfl
theorem offerParty_other (h : Offered e) (hp : party e ≠ s.self.owner) : s.offerParty d e party = refuseU s d 1 0 := by
  unfold State.offerParty
  rcases h with h | h <;> rw [h] <;> exact if_pos hp

theorem decline_ends (h : AtUnit s (s.x a)) (ho : Offered (s.entry (s.x a))) (hp : (s.entry (s.x a)).other = s.self.owner) :
    Ends (.decline d a) s (s.putEntry (withdrawn (s.entry (s.x a)))) d 0 0 :=
  ends_of ((exec_decline_atUnit h).trans (by rw [party_ok ho hp]; rfl)) (by decide)
theorem accept_refuses (hpk : s.self.park = .no) (h : AtUnit s (s.x a)) (ho : Offered (s.entry (s.x a))) (hp : (s.entry (s.x a)).other = s.self.owner)
    (hb : s.x b &&& ~~~0x10000 ≠ 0) : Refuses (.accept d a b) s d 6 0 :=
  refuses_of ((exec_accept_atUnit hpk h).trans (by rw [party_ok ho hp, if_pos hb]; rfl)) (by decide)
theorem acceptEnd_over {d : BitVec 5} {id : U64} {t : State} (h : (t.entry id).recovery = none) : acceptEnd d id t = (t.sync 2).status d 0 0 := if_pos h
theorem acceptEnd_waits {d : BitVec 5} {id : U64} {t : State} (h : (t.entry id).recovery ≠ none) : acceptEnd d id t = t.wait (.change id) := if_neg h
theorem exec_accept_passes (hpk : s.self.park = .no) (h : AtUnit s (s.x a)) (ho : Offered (s.entry (s.x a))) (hp : (s.entry (s.x a)).other = s.self.owner)
    (hb : s.x b &&& ~~~0x10000 = 0) : exec (.accept d a b) s = .next (acceptEnd d (s.x a) (afterAccept s b (s.x a))) := by
  rw [exec_accept_atUnit hpk h, party_ok ho hp, if_neg (not_not.2 hb)]
  rfl
theorem accept_ends (hpk : s.self.park = .no) (h : AtUnit s (s.x a)) (ho : Offered (s.entry (s.x a))) (hp : (s.entry (s.x a)).other = s.self.owner)
    (hb : s.x b &&& ~~~0x10000 = 0) (hr : ((afterAccept s b (s.x a)).entry (s.x a)).recovery = none) :
    Ends (.accept d a b) s (afterAccept s b (s.x a)) d 0 0 :=
  ends_of ((exec_accept_passes hpk h ho hp hb).trans (congrArg Host.Outcome.next (acceptEnd_over hr))) (by decide)
theorem accept_waits (hpk : s.self.park = .no) (h : AtUnit s (s.x a)) (ho : Offered (s.entry (s.x a))) (hp : (s.entry (s.x a)).other = s.self.owner)
    (hb : s.x b &&& ~~~0x10000 = 0) (hr : ((afterAccept s b (s.x a)).entry (s.x a)).recovery ≠ none) :
    exec (.accept d a b) s = .next ((afterAccept s b (s.x a)).wait (.change (s.x a))) :=
  (exec_accept_passes hpk h ho hp hb).trans (congrArg Host.Outcome.next (acceptEnd_waits hr))

theorem reclaim_withdraws (h : AtUnit s (s.x a)) (ho : Offered (s.entry (s.x a))) (hp : (s.entry (s.x a)).holder = s.self.owner) :
    Ends (.reclaim d a) s (s.putEntry (withdrawn (s.entry (s.x a)))) d 0 0 :=
  ends_of ((exec_reclaim_other h (ne_lent_of_offered ho)).trans (by rw [party_ok ho hp]; rfl)) (by decide)
theorem reclaim_too_early (h : AtUnit s (s.x a)) (hs : (s.entry (s.x a)).state = .lent) (hp : (s.entry (s.x a)).holder = s.self.owner) {t : Nat}
    (ht : (s.entry (s.x a)).termEnd = some t) (early : present s < momentOf (s.entry (s.x a)) t) (hl : (s.entry (s.x a)).lapsedBorrower = false) :
    Refuses (.reclaim d a) s d 3 ((momentOf (s.entry (s.x a)) t - present s + 1749) / 1750) := by
  have left : termLeft s (s.entry (s.x a)) ≠ 0 := (termLeft_ne_zero_iff _ _).2 ⟨t, ht, early⟩
  rw [← termLeft_some ht]
  exact refuses_of ((exec_reclaim_loan h hs).trans (by rw [if_neg (not_not.2 hp), if_pos ⟨left, hl⟩])) (by decide)
theorem reclaim_recalls (h : AtUnit s (s.x a)) (hs : (s.entry (s.x a)).state = .lent) (hp : (s.entry (s.x a)).holder = s.self.owner)
    (hl : ∀ t, (s.entry (s.x a)).termEnd = some t → present s < momentOf (s.entry (s.x a)) t → (s.entry (s.x a)).lapsedBorrower = true) :
    Recalls (.reclaim d a) s d (s.entry (s.x a)) false := by
  have ended : ¬(termLeft s (s.entry (s.x a)) ≠ 0 ∧ (s.entry (s.x a)).lapsedBorrower = false) := by
    rintro ⟨left, lives⟩
    obtain ⟨t, ht, early⟩ := (termLeft_ne_zero_iff _ _).1 left
    rw [hl t ht early] at lives
    cases lives
  exact recalls_of (entry_id s _) h.rests hs ((exec_reclaim_loan h hs).trans (by rw [if_neg (not_not.2 hp), if_neg ended]; rfl))
theorem returnLoan_recalls (h : AtUnit s (s.x a)) (hs : (s.entry (s.x a)).state = .lent) (hp : (s.entry (s.x a)).other = s.self.owner) :
    Recalls (.returnLoan d a) s d (s.entry (s.x a)) true :=
  recalls_of (entry_id s _) h.rests hs ((exec_returnLoan_loan h hs).trans (by rw [if_neg (not_not.2 hp)]; rfl))

theorem hquery_answers (h : AtUnit s (s.x a)) : Completes (.hquery d a b) s
    (((chipCut s).setG d { bits := queryWord s (s.entry (s.x a)), tag := false }).setG b (queryCap s (s.entry (s.x a)))) := by
  refine completes_of ?_
  show execHquery d a b s = _
  simp only [execHquery, h.valid, h.fresh, State.meOwner, queryWord_eq, queryCap_eq _ _ h.recovery, chip_eq]
  rfl
theorem hquery_invalid (h : resValid (s.x a) = false) : Completes (.hquery d a b) s (((chipCut s).wr d 4).setG b .zero) := by
  refine completes_of ?_
  show execHquery d a b s = _
  simp only [execHquery, h, chip_eq]
  rfl
end

/-! ### An ACCEPT with nothing to wait for (R42, R44) -/

/-- The entry while it passes from its giver to the issuer. -/
def passingEntry (s : State) (b : BitVec 5) (id : U64) : Entry :=
  let x := acceptedEntry s b (s.entry id)
  { x with
    recovery := some
      { taker := s.self.owner, fromOwner := x.holder, returned := false, record := false, keep := x.keepBoth, sweep := none, number := 0, forced := true
        saved := 0, budgetEnd := s.ratedNow + termsBudget x.terms, budgetDone := true } }
/-- The machine in which such a change has begun, and the resource has been scrubbed. -/
def plainScrubbed (s : State) (b : BitVec 5) (id : U64) : State :=
  scrubbedIf (acceptedEntry s b (s.entry id)).keepBoth (s.putEntry (passingEntry s b id)) id (s.entry id).holder
/-- The entry after it. -/
def plainAccepted (s : State) (b : BitVec 5) (id : U64) : Entry :=
  let x := acceptedEntry s b (s.entry id)
  let w := plainScrubbed s b id
  if x.state = .offeredLoan then { x with state := .lent, lapsedBorrower := w.lapsed s.self.owner } else passedTo w x s.self.owner

section
variable {s : State} {b : BitVec 5} {id : U64}

theorem plainAccepted_id : (plainAccepted s b id).id = id := by
  unfold plainAccepted
  dsimp only
  split <;> exact entry_id s id
theorem plainAccepted_recovery (h : (s.entry id).recovery = none) : (plainAccepted s b id).recovery = none := by
  unfold plainAccepted
  dsimp only
  split
  · exact h
  · rfl
theorem passed_lent {v : State} {x : Entry} {r : Recovery} (h : x.state = .offeredLoan) :
    v.passed x r = { x with recovery := none, deadline := none, state := .lent, other := r.taker, lapsedBorrower := v.lapsed r.taker } := if_pos h
theorem passed_passingEntry (h : (s.entry id).recovery = none) (hp : (s.entry id).other = s.self.owner) {r : Recovery}
    (hr : (passingEntry s b id).recovery = some r) : (plainScrubbed s b id).passed (passingEntry s b id) r = plainAccepted s b id := by
  cases hr
  unfold plainAccepted
  by_cases hs : (s.entry id).state = .offeredLoan
  · have lent : (passingEntry s b id).state = .offeredLoan := hs
    rw [passed_lent lent]
    simp only [passingEntry, acceptedEntry, if_pos hs, h, hp]
  · exact (passed_held (E := passingEntry s b id) (e := acceptedEntry s b (s.entry id)) hs rfl).trans (if_neg hs).symm
theorem afterAccept_plain (hpl : Plain id) (h : (s.entry id).recovery = none) (hp : (s.entry id).other = s.self.owner) :
    afterAccept s b id = (plainScrubbed s b id).putEntry (plainAccepted s b id) := by
  have place : (passingEntry s b id).id = id := entry_id s id
  have hpl' : Plain (passingEntry s b id).id := by rwa [place]
  have begun := plain_begin (s := s) (e := acceptedEntry s b (s.entry id)) (st := (s.entry id).state)
    (p := passing s.self.owner (s.entry id).holder false false (acceptedEntry s b (s.entry id)).keepBoth false) hpl'
  have settled := settle_plain (entry_put s _ _ rfl) rfl hpl'
  rw [place] at settled
  rw [← passed_passingEntry h hp rfl]
  exact (congrArg (fun t : State => t.settleEntry id) begun).trans settled
end

/-- An ACCEPT that has begun already (R336). -/
theorem exec_accept_parked {s : State} {d a b : BitVec 5} (h : s.self.park = .change (s.x a)) :
    exec (.accept d a b) s = .next (acceptEnd d (s.x a) s) := by
  show execAccept d a b s = _
  simp only [execAccept, if_pos h, acceptEnd, Option.isNone_iff_eq_none]
theorem wait_of_park {s : State} {p : Park} (h : s.self.park = p) : s.wait p = s := by
  subst h
  rfl

/-! ### The statement -/

/-- Settles O49: the owner members, and the operations on an entry from their outcomes. -/
theorem holdings : Obligations.holdings := by
  refine ⟨ownerMembers, fun s d a b => ?_⟩
  intro id e me accepted six recipients
  refine ⟨fun hw => ⟨fun hr => ?_, fun hr => ?_⟩, fun hp => ⟨fun i hi => ?_, offers_ok rfl, offers_ok rfl, fun hrest hv hl => ?_, fun hv => ?_⟩⟩
  · exact ends_of ((exec_accept_parked hw).trans (by rw [acceptEnd_over hr])) (by decide)
  · rw [exec_accept_parked hw, acceptEnd_waits hr, wait_of_park hw]
  · obtain ⟨rest, starts⟩ := begins_with_holdStart hp i hi
    exact ⟨fun hv => refuses_of_bind starts (holdStart_invalid hv) (by decide),
      fun hv hl => refuses_of_bind starts (holdStart_lapsed hv hl) (by decide)⟩
  · have unit : AtUnit s id := ⟨hrest, hv, hl⟩
    refine ⟨fun i hi => ?_, fun ho hm => ⟨?_, fun hb => ?_, fun hb => ?_⟩, fun ho hm => ?_, fun ho hm => ?_, fun hs hm => ?_,
      fun hs hm t ht early hb => ?_, fun hs hm hb => ?_, fun hs hm => ?_, fun hs hm => ?_, fun h1 h2 h3 => ?_, fun hs => ?_, ?_⟩
    · obtain ⟨rest, asks⟩ := recipients_ask hp unit i hi
      exact ⟨fun h1 h2 => refuses_of_bind asks (offerParty_none h1 h2) (by decide), fun ho hm => refuses_of_bind asks (offerParty_other ho hm) (by decide)⟩
    · exact decline_ends unit ho hm
    · exact accept_refuses hp unit ho hm hb
    · refine ⟨⟨accept_ends hp unit ho hm hb, accept_waits hp unit ho hm hb⟩, fun hpl => ?_⟩
      have plain := afterAccept_plain (b := b) hpl unit.recovery hm
      have ends : Ends (.accept d a b) s (afterAccept s b id) d 0 0 :=
        accept_ends hp unit ho hm hb (by rw [plain, entry_put _ _ _ plainAccepted_id, plainAccepted_recovery unit.recovery])
      rw [plain] at ends
      exact ⟨_, ends⟩
    · exact reclaim_withdraws unit ho hm
    · exact refuses_of_bind (exec_reclaim_other unit (ne_lent_of_offered ho)) (offerParty_other ho hm) (by decide)
    · exact refuses_of ((exec_reclaim_loan unit hs).trans (by rw [if_pos hm])) (by decide)
    · exact reclaim_too_early unit hs hm ht early hb
    · exact reclaim_recalls unit hs hm hb
    · exact returnLoan_recalls unit hs hm
    · exact refuses_of ((exec_returnLoan_loan unit hs).trans (by rw [if_pos hm])) (by decide)
    · exact refuses_of_bind (exec_reclaim_other unit h1) (offerParty_none h2 h3) (by decide)
    · exact refuses_of (exec_returnLoan_other unit hs) (by decide)
    · exact hquery_answers unit
  · exact hquery_invalid hv

end Sys2Proof
end

section
/-! SUPPORT. Counts on a swatch of another device (R103, R109): what SWREF and SWREL meet where no route leads to that device, and the statement
of the swatches, which leaves this case out. -/
namespace Sys2Proof
open Machine Claims

/-! ### A request that no route takes (R400) -/

/-- The reply that a request meets at once where its peer is unreachable. -/
def unreachableReply (txn : Nat) : Reply :=
  { txn := txn, status := 0x0E, value := .zero, w4 := .zero, w5 := .zero, w6 := .zero, w7 := .zero, detail := 0 }

/-- A slot after such a request: a transaction number is used up, and nothing is outstanding. -/
def answeredAtOnce (s : State) : State := { s with nextTxn := s.nextTxn + 1, self := { s.self with sent := [], replies := [] } }

section
variable {s : State} {dev : BitVec 14}

theorem sendOne_unreachable (make : Nat → OutMsg) (h : s.reaches dev = false) :
    s.sendOne (dev, make) = { s with
      nextTxn := s.nextTxn + 1
      self := { s.self with sent := s.self.sent ++ [s.nextTxn], replies := s.self.replies ++ [unreachableReply s.nextTxn] } } := by
  simp only [State.sendOne, h]
  rfl

/-- A slot with no request outstanding has its answer at once: nothing is sent, and nothing is waited for. -/
theorem exchange_unreachable (make : Nat → OutMsg) (h : s.reaches dev = false) (hs : s.self.sent = []) (hr : s.self.replies = []) :
    s.exchange [(dev, make)] = .ok (answeredAtOnce s, [unreachableReply s.nextTxn]) := by
  have answered : [unreachableReply s.nextTxn].find? (fun r => r.txn == s.nextTxn) = some (unreachableReply s.nextTxn) :=
    List.find?_cons_of_pos (beq_self_eq_true s.nextTxn)
  simp only [State.exchange, hs, List.isEmpty_nil, if_true, List.foldl_cons, List.foldl_nil, sendOne_unreachable make h, hr, List.nil_append,
    List.mapM_cons, List.mapM_nil, answered]
  rfl
end

/-! ### A count through the window of another device (R96, R103) -/

/-- The region capability in ga passes every check of a count through the window of another device. -/
structure FarRegion (s : State) (a : BitVec 5) (dev : BitVec 14) (off : Nat) : Prop where
  tag : (s.g a).tag = true
  unsealed : (s.g a).otype = 0
  unrevoked : s.revokedAddr (s.g a).bounds.base.toNat = false
  swatch : (s.g a).holds .sw = true
  fabric : (s.g a).holds .fb = true
  far : s.remoteOf (s.x a).toNat = some (dev, off)
  inside : (s.g a).inBounds (s.x a).toNat 256 = true

theorem FarRegion.cap {s : State} {a : BitVec 5} {dev : BitVec 14} {off : Nat} (h : FarRegion s a dev off) : s.regionCap a = .ok () := by
  rw [State.regionCap, capClass_ok h.tag h.unsealed h.unrevoked h.swatch]

/-- A count on a swatch of an unreachable device raises data lost in the step that issues it. -/
theorem count_unreachable {s : State} {d a b : BitVec 5} {rel : Bool} {dev : BitVec 14} {off : Nat} (h : FarRegion s a dev off)
    (hs : s.self.sent = []) (hr : s.self.replies = []) (route : s.reaches dev = false) :
    s.count d a b rel = .error ((answeredAtOnce s).trap 0x11 (s.x a)) := by
  rw [State.count, h.cap]
  simp only [h.fabric, Bool.not_true, Bool.and_false, show s.remoteOf (s.g a).addr.toNat = some (dev, off) from h.far,
    show (s.g a).inBounds (s.g a).addr.toNat 256 = true from h.inside, exchange_unreachable _ route hs hr]
  rfl

/-! ### The statement -/

/-- The seed task right after START, before any link is up, with the device root in g1, its cursor at the window of device 1. -/
def unlinked : State := (State.reset.withFetchWord 32 0).setG 1 (deviceRoot.withAddrBits 0x8001000000000000)

theorem unlinked_farRegion : FarRegion unlinked 1 1 0 := by constructor <;> decide

/-- Refutes O51, at `CountsAfar`: it has SWREF send its request and wait wherever none is outstanding, but where no route leads to the target
device the request is answered at once, and the instruction raises data lost (R103, R400). No hypothesis asks for a route. -/
theorem not_swatches : ¬Obligations.swatches := by
  rintro ⟨-, -, -, -, -, -, -, afar, -, -⟩
  have window := unlinked_farRegion
  have traps : exec (.swref 2 1 3) unlinked = .next ((answeredAtOnce unlinked).trap 0x11 (unlinked.x 1)) :=
    congrArg finish (count_unreachable (d := 2) window (by decide) (by decide) (by decide))
  obtain ⟨-, sends⟩ := afar unlinked 2 1 3 1 0 false window.tag window.unsealed window.unrevoked window.swatch window.fabric window.far
  obtain ⟨waits, -⟩ := sends window.inside
  have same := Host.Outcome.next.inj (traps.symm.trans (waits (by decide) (by decide) (by decide)))
  have requests := congrArg (fun t : State => t.self.sent) same
  exact absurd requests (by decide)

end Sys2Proof
end

section
/-! SUPPORT. FENCE and the barriers of a bench (R115, R117, R208 to R210): what each instruction answers, one lemma for each outcome; then the
statements from them. -/
namespace Sys2Proof
open Machine Claims

/-! ### FENCE -/

theorem exec_fence (s : State) (f : BitVec 4) (c : BitVec 2) : exec (.fence f c) s = .next (spanCut s c).retire := by
  rw [← spanCut_eq]; rfl

theorem fences : Claims.Fences := fun s f c =>
  ⟨_, exec_fence s f c, ⟨fun _ => rfl, fun _ => rfl, fun _ => rfl, rfl, slotFrame_of rfl rfl, rfl, byteAt_self _ _⟩, rfl, rfl, rfl, rfl, rfl⟩

/-! ### Windows of their own (R155, R210) -/

section
variable {s : State}

theorem alone_here (h : s.self.winStart = s.pc) : s.alone = .ok s := if_pos h
theorem alone_delegated (h : s.self.winStart ≠ s.pc) (hd : s.self.delegated.isSome = true) :
    s.alone = .error { s with self := { s.self with park := .settle } } := (if_neg h).trans (if_pos hd)
theorem alone_settled (h : s.self.winStart ≠ s.pc) (hd : s.self.delegated = none) : s.alone = match s.self.watchTrap with
    | some (t, pc, w) => .error (s.takeTrapAt t pc w)
    | none => .ok (ownWindow s) := by
  rw [State.alone, if_neg h, hd] <;> rfl

/-- An instruction that, once it is a window of its own, does `f`; what keeps it from becoming one is all that happens before. -/
theorem inOwnWindow_of {i : Instr} {f : State → State → Prop} (stops : ∀ u, s.alone = .error u → exec i s = .next u)
    (goes : ∀ u, s.alone = .ok u → u = s ∨ u = ownWindow s → u.self.winStart = u.pc → ∃ t, exec i s = .next t ∧ f u t) : InOwnWindow i s f :=
  ⟨fun h => goes s (alone_here h) (.inl rfl) h, fun h hd => stops _ (alone_delegated h hd),
    fun h hd _ _ _ hw => stops _ ((alone_settled h hd).trans (by rw [hw])),
    fun h hd hw => goes (ownWindow s) ((alone_settled h hd).trans (by rw [hw])) (.inr rfl) rfl⟩

theorem waitAlone_here {p : Park} (h : s.self.winStart = s.pc) : s.waitAlone p = s.wait p := by
  rw [State.waitAlone, alone_here h]
end

/-! ### What an arrival leaves, and what a wait does (R209, R210) -/

theorem barrierFrame_of {s : State} {bs : List Barrier} {x : Slot}
    (h : x = { s.self with
      pcc := x.pcc, winDone := x.winDone, park := x.park, afterTransfer := x.afterTransfer, replay := x.replay
      arrivals := x.arrivals, marks := x.marks, span := x.span }) : BarrierFrame s { s with barriers := bs, self := x } :=
  ⟨h, rfl, mem_of_self s bs x⟩

/-- An arrival changes barriers, the slot's arrivals and its span alone. -/
theorem arrive_shape (s : State) (id lcn stage : Nat) (k : BitVec 2) (b : Bool) :
    ∃ bs, s.arrive id lcn stage k b = { s with
        barriers := bs
        self := { s.self with
          arrivals := (s.self.setArrival k (some ((barOf s id k).gen, if b = true then some (s.pc, s.self.class1) else none))).arrivals
          marks := (s.self.closeSpan 0).marks, span := s.self.span + 1 } }
      ∧ Counted s (s.arrive id lcn stage k b) id lcn stage k (LastToArrive s id lcn stage k) := arrive_spec s id lcn stage k b
theorem barDone_shape (s : State) (k : BitVec 2) : s.barDone k = { s with self := { s.self with
    arrivals := (s.self.setArrival k none).arrivals, winDone := s.self.winDone ||| doneBit s.self.winStart s.self.pcc.addr, park := .no
    afterTransfer := s.self.park.alone, replay := false, pcc := s.self.pcc.withAddrBits (s.self.pcc.addr + 4) } } := rfl

theorem arrivalIs_of {s t : State} {k : BitVec 2} {v : Option (Nat × Option (U64 × Bool))}
    (h : t.self.arrivals = (s.self.setArrival k v).arrivals) : ArrivalIs s t k v := fun j => by
  rw [h]; exact setArrival_get s.self k v j
theorem arrivalIs_same {s t : State} {k : BitVec 2} (h : t.self.arrivals = s.self.arrivals) : ArrivalIs s t k (arrivalAt s k) := fun j => by
  rw [h]
  by_cases e : j.val = k.toNat
  · rw [if_pos e]; simp only [Fin.getElem_fin, e, arrivalAt]
  · rw [if_neg e]
theorem setArrival_again (x : Slot) (k : BitVec 2) (v w : Option (Nat × Option (U64 × Bool))) :
    ((x.setArrival k v).setArrival k w).arrivals = (x.setArrival k w).arrivals := by
  simp [Slot.setArrival]
theorem counted_last {s t : State} {id lcn stage : Nat} {k : BitVec 2} {p : Prop} (h : Counted s t id lcn stage k p) (hp : p) :
    Counted s t id lcn stage k True := ⟨fun _ => h.1 hp, fun n => absurd trivial n⟩
theorem counted_early {s t : State} {id lcn stage : Nat} {k : BitVec 2} {p : Prop} (h : Counted s t id lcn stage k p) (hp : ¬p) :
    Counted s t id lcn stage k False := ⟨False.elim, fun _ => h.2 hp⟩
theorem benchCut_of {s t : State} (hs : t.self.span = s.self.span + 1) (hm : t.self.marks = (s.self.closeSpan 0).marks) : BenchCut s t :=
  ⟨hs, fun j => by rw [hm]; exact cut0 s.self j⟩

section
variable {s : State} {k : BitVec 2} {id lcn stage g : Nat} {w : Option (U64 × Bool)}

/-- After its arrival a slot stands at its barrier in the generation that ran. -/
theorem arrivalAt_arrive (s : State) (id lcn stage : Nat) (k : BitVec 2) (b : Bool) :
    arrivalAt (s.arrive id lcn stage k b) k = some ((barOf s id k).gen, if b = true then some (s.pc, s.self.class1) else none) := by
  obtain ⟨bs, e, -⟩ := arrive_spec s id lcn stage k b
  have h := setArrival_get s.self k (some ((barOf s id k).gen, if b = true then some (s.pc, s.self.class1) else none)) ⟨k.toNat, k.isLt⟩
  rw [if_pos rfl] at h
  rw [e]; exact h

theorem barWait_none (h : arrivalAt s k = none) : s.barWait id k = (s.sync 0).retire := by
  rw [State.barWait, show s.self.arrivals[k.toNat]'k.isLt = none from h]
theorem barWait_over (h : arrivalAt s k = some (g, w)) (hg : g < (barOf s id k).gen) : s.barWait id k = (s.sync 0).barDone k := by
  rw [State.barWait, show s.self.arrivals[k.toNat]'k.isLt = some (g, w) from h]; exact if_pos hg
theorem barWait_runs (h : arrivalAt s k = some (g, w)) (hg : (barOf s id k).gen ≤ g) : s.barWait id k = s.waitAlone (.barrier k.toNat g) := by
  rw [State.barWait, show s.self.arrivals[k.toNat]'k.isLt = some (g, w) from h]; exact if_neg (Nat.not_lt.2 hg)
theorem barbWait_over (h : arrivalAt s k = some (g, w)) (hg : g < (barOf s id k).gen) : s.barbWait id k = s.barDone k := by
  rw [State.barbWait, show s.self.arrivals[k.toNat]'k.isLt = some (g, w) from h]; exact if_pos hg
theorem barbWait_runs (h : arrivalAt s k = some (g, w)) (hg : (barOf s id k).gen ≤ g) : s.barbWait id k = s.waitAlone (.barrier k.toNat g) := by
  rw [State.barbWait, show s.self.arrivals[k.toNat]'k.isLt = some (g, w) from h]; exact if_neg (Nat.not_lt.2 hg)

/-! ### What each instruction answers -/

theorem exec_barriers_noLaunch (h : ∀ id lcn stage, s.self.role ≠ .launch id lcn stage) :
    exec (.bara k) s = .next (s.trap 0x01 0) ∧ exec (.barw k) s = .next (s.trap 0x01 0) ∧ exec (.barb k) s = .next (s.trap 0x01 0) := by
  have e : s.self.launchTask = none := by
    unfold Slot.launchTask
    split
    · exact absurd ‹_› (h _ _ _)
    · rfl
  refine ⟨?_, ?_, ?_⟩
  · show execBara k s = _; rw [execBara, e]
  · show execBarw k s = _; rw [execBarw, e]
  · show execBarb k s = _; rw [execBarb, e]

variable (role : s.self.role = .launch id lcn stage)
include role

theorem exec_bara_arrives (h : MayArrive s id k) : exec (.bara k) s = .next (s.arrive id lcn stage k false).retire := by
  show execBara k s = _
  simp only [execBara, launchTask_of role, barBefore_none h]
theorem exec_bara_waits (h : arrivalAt s k = some (g, w)) (hg : (barOf s id k).gen ≤ g) :
    exec (.bara k) s = .next (s.waitAlone (.barrier k.toNat g)) := by
  show execBara k s = _
  simp only [execBara, launchTask_of role, barBefore_some h hg]
theorem exec_barw : exec (.barw k) s = .next (s.barWait id k) := by
  show execBarw k s = _
  simp only [execBarw, launchTask_of role]
theorem exec_barb_again (h : HasArrived s k g) : exec (.barb k) s = .next (s.barbWait id k) := by
  show execBarb k s = _
  simp only [execBarb, launchTask_of role, barReplay_true h, if_true]
theorem exec_barb_before (h : arrivalAt s k = some (g, w)) (hg : (barOf s id k).gen ≤ g) :
    exec (.barb k) s = .next (s.waitAlone (.barrier k.toNat g)) := by
  by_cases hr : HasArrived s k g
  · rw [exec_barb_again role hr, barbWait_runs h hg]
  · have fresh : ∀ n, ¬HasArrived s k n := fun n hn => hr (by
      have e : some (n, some (s.pc, s.self.class1)) = some (g, w) := hn.symm.trans h
      cases e; exact h)
    show execBarb k s = _
    simp [execBarb, launchTask_of role, barReplay_false fresh, barBefore_some h hg]

section
variable (may : MayArrive s id k) (fresh : ∀ g, ¬HasArrived s k g)
include may fresh

theorem exec_barb_last (last : LastToArrive s id lcn stage k) : exec (.barb k) s = .next ((s.arrive id lcn stage k true).barDone k) := by
  obtain ⟨bs, -, counted, -⟩ := arrive_spec s id lcn stage k true
  have ended : (s.arrive id lcn stage k true).barBefore id k = none :=
    barBefore_none (.inr ⟨_, _, arrivalAt_arrive s id lcn stage k true, by rw [(counted last).1]; exact Nat.lt_succ_self _⟩)
  show execBarb k s = _
  simp [execBarb, launchTask_of role, barReplay_false fresh, barBefore_none may, ended]
/-- A BARB that others keep waiting is a window of its own before it arrives. -/
theorem exec_barb_early (early : ¬LastToArrive s id lcn stage k) : exec (.barb k) s = .next (match s.alone with
    | .error u => u
    | .ok u => (u.arrive id lcn stage k true).barbWait id k) := by
  obtain ⟨bs, -, -, counted⟩ := arrive_spec s id lcn stage k true
  have runs := barBefore_some (id := id) (arrivalAt_arrive s id lcn stage k true) (le_of_eq (counted early).1)
  show execBarb k s = _
  simp only [execBarb, launchTask_of role, barReplay_false fresh, barBefore_none may, runs, Bool.false_eq_true, if_false, Option.isNone_some]
  cases s.alone <;> rfl
end
end

/-! ### The statements -/

theorem barrierArrives : Claims.BarrierArrives := by
  intro s k id lcn stage role may
  refine ⟨_, exec_bara_arrives role may, ?_⟩
  obtain ⟨bs, e, counted⟩ := arrive_shape s id lcn stage k false
  rw [e] at counted ⊢
  exact ⟨barrierFrame_of rfl, ⟨rfl, rfl, rfl, rfl, rfl⟩, benchCut_of rfl rfl, arrivalIs_of rfl, counted_of rfl rfl counted⟩

theorem barrierWaits : Claims.BarrierWaits := by
  intro s k id lcn stage role may
  refine ⟨_, exec_barw role, ?_⟩
  rcases may with fresh | ⟨g, w, arrived, ended⟩
  · rw [barWait_none fresh]
    have same := arrivalIs_same (s := s) (t := (s.sync 0).retire) (k := k) rfl
    rw [fresh] at same
    exact ⟨barrierFrame_of rfl, rfl, ⟨rfl, rfl, rfl, rfl, rfl⟩, benchCut_of rfl rfl, same⟩
  · rw [barWait_over arrived ended, barDone_shape]
    exact ⟨barrierFrame_of rfl, rfl, ⟨rfl, rfl, rfl, rfl, rfl⟩, benchCut_of rfl rfl, arrivalIs_of rfl⟩

theorem barrierBoth : Claims.BarrierBoth := by
  intro s k id lcn stage role
  refine ⟨fun may fresh last => ⟨_, exec_barb_last role may fresh last, ?_⟩, fun g arrived ended => ⟨_, exec_barb_again role arrived, ?_⟩⟩
  · obtain ⟨bs, e, counted⟩ := arrive_shape s id lcn stage k true
    rw [e] at counted ⊢
    rw [barDone_shape]
    exact ⟨barrierFrame_of rfl, ⟨rfl, rfl, rfl, rfl, rfl⟩, benchCut_of rfl rfl, arrivalIs_of (setArrival_again s.self k _ _),
      counted_of rfl rfl (counted_last counted last)⟩
  · rw [barbWait_over arrived ended]
    exact ⟨barrierFrame_of rfl, rfl, ⟨rfl, rfl, rfl, rfl, rfl⟩, rfl, rfl, arrivalIs_of rfl⟩

/-- A BARB that is not the last to arrive, in a window of its own, stands at its barrier after its arrival. -/
theorem barb_parks {u : State} {k : BitVec 2} {id lcn stage : Nat} (own : u.self.winStart = u.pc) (early : ¬LastToArrive u id lcn stage k) :
    (u.arrive id lcn stage k true).barbWait id k
      = (u.arrive id lcn stage k true).wait (.barrier k.toNat (barOf u id k).gen) := by
  obtain ⟨bs, e, -, counted⟩ := arrive_spec u id lcn stage k true
  rw [barbWait_runs (arrivalAt_arrive u id lcn stage k true) (le_of_eq (counted early).1), waitAlone_here (by rw [e]; exact own)]

theorem barrierStops : Claims.BarrierStops := by
  intro s k
  refine ⟨exec_barriers_noLaunch, fun id lcn stage role => ⟨fun g w arrived runs => ⟨parksAlone_of (exec_bara_waits role arrived runs),
    parksAlone_of ((exec_barw role).trans (by rw [barWait_runs arrived runs])), parksAlone_of (exec_barb_before role arrived runs)⟩,
    fun may fresh early => ?_⟩⟩
  have answer := exec_barb_early role may fresh early
  refine inOwnWindow_of (fun u hu => by rw [answer, hu]) fun u hu same own => ?_
  have stays : ¬LastToArrive u id lcn stage k := by rcases same with rfl | rfl <;> exact early
  refine ⟨(u.arrive id lcn stage k true).wait (.barrier k.toNat (barOf u id k).gen), ?_, ?_⟩
  · rw [answer, hu]
    exact congrArg _ (barb_parks own stays)
  · obtain ⟨bs, e, counted⟩ := arrive_shape u id lcn stage k true
    rw [if_pos rfl] at e
    rw [e] at counted ⊢
    exact ⟨barrierFrame_of rfl, counted_of rfl rfl (counted_early counted stays), benchCut_of rfl rfl, rfl, rfl, rfl, arrivalIs_of rfl⟩

/-- Settles O20, part by part: FENCE; where the barrier instructions complete; where they trap or park. -/
theorem fenceAndBarriers : Obligations.fence_and_barriers := ⟨fences, barrierArrives, barrierWaits, barrierBoth, barrierStops⟩

end Sys2Proof
end

section
/-! SUPPORT. How a core picks the slot that issues (R263): cycles that pass, and the order of the round robin. -/
namespace Sys2Proof
open Machine Claims

/-! ### Cycles that pass (R263, R412) -/

theorem waitCount_shape (s : State) (x : Slot) : ∃ n, s.waitCount x = { x with starved := n } := by
  unfold State.waitCount
  dsimp only
  split
  · exact ⟨_, rfl⟩
  · exact ⟨_, rfl⟩

theorem later_none {s : State} (h : s.usFrac < s.clock) : Later s s 0 := by
  refine ⟨⟨s.self, s.others, ?_⟩, ⟨s.self.starved, rfl⟩, rfl, fun j x y hx hy => ⟨x.starved, ?_⟩⟩
  · rw [Nat.add_zero, Nat.add_zero, Nat.div_eq_of_lt h, Nat.mod_eq_of_lt h]; rfl
  · exact Option.some.inj (hy.symm.trans hx)

theorem later_tick (s : State) : Later s s.tick 1 := by
  refine ⟨⟨_, _, rfl⟩, waitCount_shape s s.self, List.length_map _, fun j x y hx hy => ?_⟩
  have hy : (s.others.map s.waitCount)[j]? = some y := hy
  rw [List.getElem?_map, hx] at hy
  cases hy
  exact waitCount_shape s x

/-- Microseconds counted over a number of cycles, and over more after them. -/
theorem carry_add (f a b c : Nat) : (f + a) / c + ((f + a) % c + b) / c = (f + (a + b)) / c := by
  rcases Nat.eq_zero_or_pos c with rfl | hc
  · simp
  · have parts : f + (a + b) = (f + a) % c + b + c * ((f + a) / c) := by
      have := Nat.div_add_mod (f + a) c
      omega
    rw [parts, Nat.add_mul_div_left _ _ hc, Nat.add_comm]

theorem later_trans {s t u : State} {a b : Nat} (h : Later s t a) (h' : Later t u b) : Later s u (a + b) := by
  obtain ⟨⟨x, l, e⟩, ⟨m, hm⟩, len, each⟩ := h
  obtain ⟨⟨y, l', e'⟩, ⟨n, hn⟩, len', each'⟩ := h'
  refine ⟨⟨y, l', ?_⟩, ⟨n, by rw [hn, hm]⟩, len'.trans len, fun j p q hp hq => ?_⟩
  · have f : t.usFrac = (s.usFrac + a) % s.clock := by rw [e]
    have us : t.us = s.us + (s.usFrac + a) / s.clock := by rw [e]
    have cyc : t.cycle = s.cycle + a := by rw [e]
    have clk : t.clock = s.clock := by rw [e]
    rw [e', f, us, cyc, clk, Nat.add_assoc, Nat.add_assoc s.us, carry_add, Nat.mod_add_mod, Nat.add_assoc s.usFrac, e]
  · have hj : j < t.others.length := by rw [len]; exact (List.getElem?_eq_some_iff.1 hp).1
    obtain ⟨n₁, h₁⟩ := each j p _ hp (List.getElem?_eq_getElem hj)
    obtain ⟨n₂, h₂⟩ := each' j _ q (List.getElem?_eq_getElem hj) hq
    exact ⟨n₂, by rw [h₂, h₁]⟩

/-- Cycles pass until a core has a slot to issue, or as many as were asked for. -/
theorem pass_later {s : State} (n : Nat) (h : s.usFrac < s.clock) :
    ∃ k ≤ n, Later s (s.pass n) k ∧ (k < n → (s.pass n).nextCore.isSome = true) := by
  induction n generalizing s with
  | zero => exact ⟨0, le_rfl, later_none h, fun lt => absurd lt (lt_irrefl _)⟩
  | succ n ih =>
    by_cases go : s.nextCore.isSome = true
    · rw [State.pass, if_pos go]
      exact ⟨0, Nat.zero_le _, later_none h, fun _ => go⟩
    · rw [State.pass, if_neg go]
      obtain ⟨k, hk, later, ends⟩ := ih (s := s.tick) (Nat.mod_lt _ (Nat.zero_lt_of_lt h))
      exact ⟨1 + k, by omega, later_trans (later_tick s) later, fun lt => ends (by omega)⟩

/-! ### The round robin (R263) -/

/-- How far a slot of a core stands after the one that issued last. -/
def roundPlace (c : Core) (j : Nat) : Nat := (j + 19 - c.lastIssued % 10) % 10

theorem roundPlace_order (c : Core) {k : Nat} (h : k < 10) : roundPlace c ((c.lastIssued + 1 + k) % 10) = k := by
  unfold roundPlace; omega
theorem order_roundPlace (c : Core) {j : Nat} (h : j < 10) : (c.lastIssued + 1 + roundPlace c j) % 10 = j := by
  unfold roundPlace; omega

section
variable {c : Core} {r : Nat → Bool}

theorem find_order_none (h : c.order.find? r = none) {j : Nat} (hj : j < 10) : r j = false := by
  have hm : j ∈ c.order := List.mem_map.2 ⟨roundPlace c j, List.mem_range.2 (Nat.mod_lt _ (by norm_num)), order_roundPlace c hj⟩
  simpa using List.find?_eq_none.1 h j hm

/-- What is found in the order of the round robin comes first in it. -/
theorem find_order_some {i : Nat} (h : c.order.find? r = some i) :
    i < 10 ∧ r i = true ∧ ∀ j < 10, r j = true → roundPlace c i ≤ roundPlace c j := by
  rw [Core.order, List.find?_map, Option.map_eq_some_iff] at h
  obtain ⟨k, hk, rfl⟩ := h
  obtain ⟨found, mem, before⟩ := List.find?_range_eq_some.1 hk
  refine ⟨Nat.mod_lt _ (by norm_num), found, fun j hj hr => ?_⟩
  rw [roundPlace_order c (List.mem_range.1 mem)]
  by_contra lt
  have no := before _ (Nat.lt_of_not_le lt)
  rw [Function.comp, order_roundPlace c hj, hr] at no
  exact absurd no (by decide)
end

theorem cls_mem (x : Slot) : x.cls ∈ ([1, 2, 3, 4] : List Nat) := by
  unfold Slot.cls
  split
  · simp
  · split <;> simp

/-- The first of an ascending list that answers: none below it does. -/
theorem findSome_ascending {l : List Nat} (asc : l.Pairwise (· < ·)) {f : Nat → Option Nat} {i : Nat} (h : l.findSome? f = some i) :
    ∃ k, f k = some i ∧ ∀ m ∈ l, m < k → f m = none := by
  obtain ⟨l₁, k, l₂, rfl, hk, before⟩ := List.findSome?_eq_some_iff.1 h
  refine ⟨k, hk, fun m hm lt => ?_⟩
  rcases List.mem_append.1 hm with hm | hm
  · exact before m hm
  · rcases List.mem_cons.1 hm with rfl | hm
    · exact absurd lt (lt_irrefl _)
    · have gt := (List.pairwise_cons.1 (List.pairwise_append.1 asc).2.1).1 m hm
      exact absurd lt (Nat.lt_asymm gt)

section
variable {s : State} {core : Nat}

/-- A class-4 slot that has been ready for 7 cycles. -/
def heldUp (s : State) (core i : Nat) : Bool := (s.slot core i).cls == 4 && decide (7 ≤ (s.slot core i).starved)

theorem pick_eq (s : State) (core : Nat) : s.pick core =
    match (s.core core).order.find? (fun i => s.ready (s.slot core i) && heldUp s core i) with
    | some i => some i
    | none => ([1, 2, 3, 4] : List Nat).findSome? (fun k =>
        (s.core core).order.find? (fun i => s.ready (s.slot core i) && (s.slot core i).cls == k)) := by
  simp only [State.pick, List.find?_filter, Bool.decide_and, Bool.decide_eq_true] <;> rfl

theorem pick_none (h : s.pick core = none) : ∀ j < 10, s.ready (s.slot core j) = false := by
  intro j hj
  rw [pick_eq] at h
  split at h
  · cases h
  · have no := find_order_none (List.findSome?_eq_none_iff.1 h _ (cls_mem (s.slot core j))) hj
    simpa using no

theorem pick_some {i : Nat} (h : s.pick core = some i) : PickRule s core i := by
  rw [pick_eq] at h
  split at h
  case h_1 j found =>
    cases h
    obtain ⟨hi, here, first⟩ := find_order_some found
    simp only [heldUp, Bool.and_eq_true, beq_iff_eq, decide_eq_true_eq] at here first
    exact ⟨⟨hi, here.1⟩, .inl ⟨here.2, fun j ready held => first j ready.1 ⟨ready.2, held⟩⟩⟩
  case h_2 noHeld =>
    obtain ⟨k, found, above⟩ := findSome_ascending (by decide) h
    obtain ⟨hi, here, first⟩ := find_order_some found
    simp only [Bool.and_eq_true, beq_iff_eq] at here first
    refine ⟨⟨hi, here.1⟩, .inr ⟨fun j ready held => ?_, fun j ready => ?_⟩⟩
    · have no := find_order_none noHeld ready.1
      simp [heldUp, ready.2, held.1, held.2] at no
    · rw [here.2]
      rcases Nat.lt_trichotomy (s.slot core j).cls k with lt | eq | gt
      · have no := find_order_none (above _ (cls_mem (s.slot core j)) lt) ready.1
        simp [ready.2] at no
      · exact .inr ⟨eq.symm, first j ready.1 ⟨ready.2, eq⟩⟩
      · exact .inl gt
end

/-! ### The statement -/

theorem exec_issueCycle (s : State) (core n : Nat) : exec (.issueCycle core n) s =
    .next (match (if (s.pass n).mayIssue core then (s.pass n).pick core else none) with
      | some i => (s.pass n).pickSlot core i
      | none => s.pass n) := by
  show execIssueCycle core n s = _
  rw [execIssueCycle]
  cases if (s.pass n).mayIssue core then (s.pass n).pick core else none <;> rfl

theorem exec_issueGuardExpiry (s : State) (core slot : Nat) : exec (.issueGuardExpiry core slot) s =
    .next (if (s.core core).nextAt ≤ s.cycle ∧ s.ready (s.slot core slot) = true ∧ (s.slot core slot).cls = 4 ∧ 7 ≤ (s.slot core slot).starved
      then s.pickSlot core slot else s) := by
  show execIssueGuardExpiry core slot s = _
  simp only [execIssueGuardExpiry, State.mayIssue, Bool.and_eq_true, decide_eq_true_eq, beq_iff_eq, and_assoc]
  split <;> rfl

theorem issueEvents : Claims.IssueEvents := by
  intro s core slot n hus
  obtain ⟨k, hk, later, ends⟩ := pass_later n hus
  refine ⟨⟨_, k, exec_issueCycle s core n, hk, s.pass n, later, ends, ?_⟩, fun due => ?_, fun idle => ?_⟩
  · generalize s.pass n = u
    by_cases may : (u.core core).nextAt ≤ u.cycle
    · rw [if_pos (show u.mayIssue core = true from decide_eq_true may)]
      cases h : u.pick core with
      | none => exact .inl ⟨rfl, fun _ => pick_none h⟩
      | some i => exact .inr ⟨i, may, pick_some h, rfl⟩
    · rw [if_neg (by simpa [State.mayIssue] using may)]
      exact .inl ⟨rfl, fun h => absurd h may⟩
  · rw [exec_issueGuardExpiry, if_pos due]
  · rw [exec_issueGuardExpiry, if_neg idle]

end Sys2Proof
end

section
/-! SUPPORT. Turns of a rota, waits of slots that end, and what a loom does by itself: what each event answers where its time has come and where it
has not; then the statements from them, and the statement of the schedule's events. -/
namespace Sys2Proof
open Machine Claims

/-! ### Turns (R283, R287 to R290) -/

section
variable {s : State} {core : Nat}

theorem startTurn_wait (h : s.turnStep core = .wait) : s.startTurn core = s := by
  rw [State.startTurn, h]
theorem startTurn_stop (h : s.turnStep core = .stop) :
    let c := s.core core
    let t := if s.userOf (mkRes 2 (core * 8 + c.turn.entry)) = s.coreUser core then s else s.scrubCoreRegs core
    s.startTurn core = t.putCore { t.core core with turn := { c.turn with phase := 0 } } := by
  rw [State.startTurn, h]; rfl
theorem startTurn_go {k : Nat} (h : s.turnStep core = .go k) :
    let c := s.core core
    let before := if c.turn.phase = 0 then s.coreUser core else s.userOf (mkRes 2 (core * 8 + c.turn.entry))
    let t := if before = s.userOf (mkRes 2 (core * 8 + k)) then s else s.scrubCoreRegs core
    s.startTurn core = t.putCore { t.core core with turn := { entry := k, phase := 1, start := s.us, ended := s.us, limited := 0 } } := by
  rw [State.startTurn, h]; rfl

theorem sliceOver_iff (s : State) (core : Nat) : s.sliceOver core = true ↔
    (s.core core).turn.phase = 1
      ∧ (s.rotaRuns core = true ∨ s.userOf (mkRes 2 (core * 8 + (s.core core).turn.entry)) ≠ s.coreUser core)
      ∧ ((s.core core).turn.start + ((s.core core).rotaAt (s.core core).turn.entry).slice.toNat ≤ s.us ∨ s.turnIdle core = true) := by
  simp only [State.sliceOver, turnRes, Bool.and_eq_true, Bool.or_eq_true, beq_iff_eq, bne_iff_ne, decide_eq_true_eq, and_assoc]
theorem limitOver_iff (s : State) (core : Nat) : s.limitOver core = true ↔
    (s.core core).turn.phase = 2 ∧ s.turnSlots core ≠ []
      ∧ (s.core core).turn.ended + ((s.core core).rotaAt (s.core core).turn.entry).limit.toNat ≤ s.us := by
  simp only [State.limitOver, Bool.and_eq_true, beq_iff_eq, Bool.not_eq_true', List.isEmpty_eq_false_iff, decide_eq_true_eq, and_assoc]
theorem sliceBudgetOver_iff (s : State) (core : Nat) : s.sliceBudgetOver core = true ↔
    (s.core core).turn.phase = 3 ∧ (∃ x ∈ s.turnSlots core, x.savable = true)
      ∧ (s.core core).turn.limited + ((s.core core).rotaAt (s.core core).turn.entry).budget.toNat ≤ s.ratedNow := by
  simp only [State.sliceBudgetOver, Bool.and_eq_true, beq_iff_eq, List.any_eq_true, decide_eq_true_eq, and_assoc]

theorem endSlice_over (h : s.sliceOver core = true) :
    let c := s.core core
    let t := s.putCore { c with turn := { c.turn with phase := 2, ended := s.us } }
    s.endSlice core = (if (t.core core).lease.state = 2 then t.budgetDrain core else t).noteYield core 3 := by
  rw [State.endSlice, h]; rfl
theorem endSlice_runs (h : ¬s.sliceOver core = true) : s.endSlice core = s := if_pos (by simpa using h)
theorem passLimit_over (h : s.limitOver core = true) :
    let c := s.core core
    let t := s.putCore { c with turn := { c.turn with phase := 3, limited := s.ratedNow } }
    s.passLimit core = t.preempt (t.turnSlots core) (c.rotaAt c.turn.entry).handler := by
  rw [State.passLimit, h]; rfl
theorem passLimit_runs (h : ¬s.limitOver core = true) : s.passLimit core = s := if_pos (by simpa using h)
theorem endSliceBudget_over (h : s.sliceBudgetOver core = true) :
    s.endSliceBudget core = (s.forceSaves (s.turnSlots core) (some (core * 8 + (s.core core).turn.entry))).1 := by
  rw [State.endSliceBudget, h]; rfl
theorem endSliceBudget_runs (h : ¬s.sliceBudgetOver core = true) : s.endSliceBudget core = s := if_pos (by simpa using h)
end

theorem turnEvents : Claims.TurnEvents := by
  intro s core k
  refine ⟨fun h => congrArg Host.Outcome.next (startTurn_wait h), fun h => congrArg Host.Outcome.next (startTurn_stop h),
    fun h => congrArg Host.Outcome.next (startTurn_go h), ?_⟩
  rw [← sliceOver_iff, ← limitOver_iff, ← sliceBudgetOver_iff]
  exact ⟨fun h => congrArg Host.Outcome.next (endSlice_over h), fun h => congrArg Host.Outcome.next (endSlice_runs h),
    fun h => congrArg Host.Outcome.next (passLimit_over h), fun h => congrArg Host.Outcome.next (passLimit_runs h),
    fun h => congrArg Host.Outcome.next (endSliceBudget_over h), fun h => congrArg Host.Outcome.next (endSliceBudget_runs h)⟩

/-! ### Waits that end (R125, R283, R313, R369, R376) -/

section
variable {s : State} {core slot : Nat} {d : BitVec 5}

theorem exec_writeProtectRetry {due : Nat} (h : (s.slot core slot).park = .protect due) : exec (.writeProtectRetry core slot) s =
    .next (if due ≤ s.cycle then s.putSlot { s.slot core slot with park := .no } else s) := by
  show execWriteProtectRetry core slot s = _
  rw [execWriteProtectRetry, h]
theorem stalledOut_record {x : Slot} {line since : Nat} {ea : U64} {lanes : Pred} (h : x.park = .record line since ea lanes) :
    s.stalledOut x = decide (65536 ≤ s.cycle - since) := by
  rw [State.stalledOut, h]
theorem exec_spanCapacityStallLimit {line since : Nat} {ea : U64} {lanes : Pred} (h : (s.slot core slot).park = .record line since ea lanes) :
    exec (.spanCapacityStallLimit core slot) s =
      .next (if 65536 ≤ s.cycle - since then (s.switchTo core slot).takeTrap { cls := 0x0A, addr := ea, lanes := lanes, agent := 0 } else s) := by
  show execSpanCapacityStallLimit core slot s = _
  simp only [execSpanCapacityStallLimit, h, stalledOut_record h, decide_eq_true_eq]
  split <;> rfl

theorem tyieldEnds_past {limit : Nat} (h : (s.switchTo core slot).self.park = .yield d (some limit) 0) (past : limit ≤ (s.switchTo core slot).cycle) :
    s.tyieldEnds core slot = ((s.switchTo core slot).wr d 0).passOn := by
  simp only [State.tyieldEnds, h]
  exact if_pos (decide_eq_true past)
theorem evwaitEnds_past {limit : Nat} (h : (s.switchTo core slot).self.park = .event d (some limit)) (past : limit ≤ (s.switchTo core slot).cycle)
    (empty : (s.switchTo core slot).myCore.events = []) :
    s.evwaitEnds core slot = (((s.switchTo core slot).wr d 0).wr (d + 1) 0).retire := by
  have pop : (s.switchTo core slot).popEvent d = ((s.switchTo core slot).wr d 0).wr (d + 1) 0 := by rw [State.popEvent, empty]
  simp only [State.evwaitEnds, h, ← pop]
  exact if_pos (decide_eq_true past)
theorem ends_awake (h : (s.switchTo core slot).self.park = .no) : s.tyieldEnds core slot = s ∧ s.evwaitEnds core slot = s := by
  simp only [State.tyieldEnds, State.evwaitEnds, h, and_self]

theorem restoreAt_none (h : s.imageFor core slot = none) : s.restoreAt core slot = s := by
  rw [State.restoreAt, h]
theorem restoreAt_some {o : U16} {i : Image} (h : s.imageFor core slot = some (o, i)) : s.restoreAt core slot = s.restore o i core slot := by
  rw [State.restoreAt, h]
end

theorem waitEvents : Claims.WaitEvents := by
  intro s core slot d limit
  refine ⟨fun due h now => ?_, fun due h early => ?_, fun line since ea lanes h now => ?_, fun line since ea lanes h early => ?_,
    fun h past => congrArg Host.Outcome.next (tyieldEnds_past h past), fun h past empty => congrArg Host.Outcome.next (evwaitEnds_past h past empty),
    fun h => ⟨congrArg Host.Outcome.next (ends_awake h).1, congrArg Host.Outcome.next (ends_awake h).2⟩,
    fun h => congrArg Host.Outcome.next (restoreAt_none h), fun o i h => congrArg Host.Outcome.next (restoreAt_some h)⟩
  · rw [exec_writeProtectRetry h, if_pos now]
  · rw [exec_writeProtectRetry h, if_neg (Nat.not_le.2 early)]
  · rw [exec_spanCapacityStallLimit h, if_pos (Nat.le_sub_of_add_le' now)]
  · rw [exec_spanCapacityStallLimit h, if_neg (by omega)]

/-! ### The loom by itself (R246, R247, R251, R256) -/

section
variable {s : State} {bench idx : Nat}

theorem arrayStep_some {m : MatCmd} {rest : List MatCmd} (h : (s.loom bench idx).queue = m :: rest) : s.arrayStep bench idx =
    s.putLoom { (s.loom bench idx).perform m.pair m.zp m.opA.1 m.opA.2.1 m.opA.2.2 m.opB.1 m.opB.2.1 m.opB.2.2 with
      queue := rest, lastCmd := s.cycle } := by
  simp only [State.arrayStep, h]
theorem arrayStep_none (h : (s.loom bench idx).queue = []) : s.arrayStep bench idx = s := by
  simp only [State.arrayStep, h]

/-- A loom and a core as a grant to a seat leaves them (R246): the array cleared, its budget that of the request. -/
def grantedTo (s : State) (bench idx q : Nat) : State :=
  let l := s.loom bench idx
  let c := s.core (bench * 48 + q)
  (s.putLoom { l.cleared with
    holder := some q, last := q, pending := l.pending.filter (· != q), left := (c.lease.request.extractLsb' 8 6).toNat + 1, w := 0, dflt := true
    queue := [], lastCmd := s.cycle }).putCore { c with lease := { c.lease with state := 2 } }

theorem grantedTo_eq (s : State) (bench idx q : Nat) :
    let l := s.loom bench idx
    let c := s.core (bench * 48 + q)
    grantedTo s bench idx q = (s.putLoom { l with
      acc := [], flags := [], r := 0, c := 0, clear := true, holder := some q, last := q, pending := l.pending.filter (· ≠ q)
      left := c.lease.request.toNat / 2 ^ 8 % 2 ^ 6 + 1, w := 0, dflt := true, queue := [], lastCmd := s.cycle }).putCore
        { c with lease := { c.lease with state := 2 } } := by
  intro l c
  have others : (fun p : Nat => decide (p ≠ q)) = (· != q) := funext fun p => by rw [bne, decide_not]; rfl
  rw [others, ← ext_mod]
  rfl

theorem grant_next {q : Nat} (free : (s.loom bench idx).holder = none) (rows : (s.loom bench idx).waitingRows ≤ 8)
    (next : (s.loom bench idx).nextSeat = some q) : s.grant bench idx = (grantedTo s bench idx q).leaseGranted (bench * 48 + q) := by
  simp only [State.grant, free, if_neg (Nat.not_lt.2 rows), next]
  rfl
theorem grant_none (h : (s.loom bench idx).holder ≠ none ∨ 8 < (s.loom bench idx).waitingRows ∨ (s.loom bench idx).nextSeat = none) :
    s.grant bench idx = s := by
  cases free : (s.loom bench idx).holder with
  | some q => exact grant_held (by rw [free]; exact Option.some_ne_none q)
  | none =>
    have noSeat : (if 8 < (s.loom bench idx).waitingRows then none else (s.loom bench idx).nextSeat) = none := by
      rcases h with held | rows | unseated
      · exact absurd free held
      · exact if_pos rows
      · rw [unseated, ite_self]
    simp only [State.grant, noSeat, free]

theorem setG_only (x : Slot) (d : BitVec 5) (c : Cap) : x.setG d c = { x with g := (x.setG d c).g } := by
  unfold Slot.setG
  split <;> rfl
/-- A LEASE that its grant completes, whatever the window notes of its registers. -/
theorem leaseWritten_retired (y : Slot) (d : BitVec 5) (reads : List Reg) (writes : List (Reg × RegVal)) :
    LeaseWritten y ({ y with winReads := reads, winWrites := writes }.setG d (Cap.ofInt 0)).retired d := by
  have written (n : BitVec 5) : ({ y with winReads := reads, winWrites := writes }.setG d (Cap.ofInt 0)).getG n
      = if n = d ∧ n ≠ 0 then Cap.ofInt 0 else y.getG n := by
    rw [Slot.getG_setG]
    exact if_congr (and_congr_right fun e => by rw [e]) rfl rfl
  rw [setG_only] at written ⊢
  exact ⟨written, rfl, rfl, rfl⟩
theorem leaseGranted_waits {core : Nat} {d b : BitVec 5} (h : (s.slot core 0).park = .grant d b) :
    ∃ x, LeaseWritten (s.slot core 0) x d ∧ s.leaseGranted core = s.putSlot x := by
  simp only [State.leaseGranted, h]
  rw [← h]
  exact ⟨_, leaseWritten_retired _ _ _ _, rfl⟩
theorem leasing_false {x : Slot} (h : ∀ d b, x.park ≠ .grant d b) : x.leasing = false := by
  unfold Slot.leasing
  split
  · exact absurd ‹_› (h _ _)
  · rfl

theorem loomIdle_iff {l : Loom} {q : Nat} (held : l.holder = some q) :
    s.loomIdle l = true ↔ l.queue = [] ∧ (∃ p ∈ l.pending, p ≠ q) ∧ l.lastCmd + 4096 ≤ s.cycle := by
  simp only [State.loomIdle, held, Bool.and_eq_true, List.isEmpty_iff, List.any_eq_true, bne_iff_ne, decide_eq_true_eq, and_assoc]
theorem loomExpires_held {q : Nat} (held : (s.loom bench idx).holder = some q) :
    s.loomExpires bench idx = if s.loomIdle (s.loom bench idx) then s.budgetDrain (bench * 48 + q) else s := by
  simp only [State.loomExpires, held]
theorem loomExpires_free (free : (s.loom bench idx).holder = none) : s.loomExpires bench idx = s := by
  simp only [State.loomExpires, free]

theorem selvageStart_none (h : (s.loom bench idx).drains = []) : s.selvageStart bench idx = s := by
  rw [State.selvageStart, h]
section
variable {d : Drain} {more : List Drain} {row : DrainRow} {rows : List DrainRow} (hd : (s.loom bench idx).drains = d :: more) (hr : d.rows = row :: rows)
include hd hr

theorem selvageStart_discards (h : s.rowCore bench d row.index = none) :
    s.selvageStart bench idx = s.popRow bench idx { d with discarded := true } := by
  simp only [State.selvageStart, hd, hr, h]
theorem selvageStart_row {core : Nat} (h : s.rowCore bench d row.index = some core) : s.selvageStart bench idx =
    match (if s.handlerMayRun core then s.selvageSlot core else none) with
    | none => s
    | some i => (s.startHandler core i idx d row).popRow bench idx d := by
  simp only [State.selvageStart, hd, hr, h] <;> rfl
end
end

theorem loomEvents : Claims.LoomEvents := by
  intro s bench idx
  refine ⟨fun m rest h => congrArg Host.Outcome.next (arrayStep_some h), fun h => congrArg Host.Outcome.next (arrayStep_none h),
    fun q free rows next => ?_, fun h => congrArg Host.Outcome.next (grant_none h), fun q held empty others time => congrArg Host.Outcome.next ?_,
    fun idle => congrArg Host.Outcome.next ?_, fun h => congrArg Host.Outcome.next (selvageStart_none h), fun d more row rows hd hr =>
    ⟨fun h => congrArg Host.Outcome.next (selvageStart_discards hd hr h), fun core h =>
      ⟨fun stays => congrArg Host.Outcome.next ?_, fun i may slot => congrArg Host.Outcome.next ?_⟩⟩⟩
  · dsimp only
    rw [← grantedTo_eq]
    have answer : exec (.loomGrant bench idx) s = .next ((grantedTo s bench idx q).leaseGranted (bench * 48 + q)) :=
      congrArg Host.Outcome.next (grant_next free rows next)
    refine ⟨fun awake => by rw [answer, leaseGranted_id (leasing_false awake)], fun d b waits => ?_⟩
    obtain ⟨x, written, granted⟩ := leaseGranted_waits waits
    exact ⟨x, written, by rw [answer, granted]⟩
  · exact (loomExpires_held held).trans (if_pos ((loomIdle_iff held).2 ⟨empty, others, time⟩))
  · cases held : (s.loom bench idx).holder with
    | none => exact loomExpires_free held
    | some q => exact (loomExpires_held held).trans (if_neg fun h => idle q held ((loomIdle_iff held).1 h))
  · rw [selvageStart_row hd hr h]
    rcases stays with no | full
    · rw [no]; rfl
    · rw [full, ite_self]
  · rw [selvageStart_row hd hr h, may, slot]; rfl

/-- Settles O54, part by part: issue, turns, waits that end, looms. -/
theorem scheduleEvents : Obligations.schedule_events := ⟨issueEvents, turnEvents, waitEvents, loomEvents⟩

end Sys2Proof
end

section
/-! SUPPORT. The words: what `encode` writes, `decode` reads back, and the spec's written words as the decoder reads them. -/
namespace Sys2Proof.Laws.RoundTrip

/-- The words of every instruction: the constructors' own lemmas, in the order of `Instr`. -/
theorem ofInstr (i : Instr) : Statement i :=
  i.casesOn
    add sub and or xor andn sll srl sra slt sltu min max minu maxu mul mulh mulhu div divu rem remu clz ctz popc gpair ghi addw subw
    sllw srlw sraw mulw divw divuw remw remuw addi andi ori xori slti sltiu addiw slli srli srai slliw srliw sraiw lui capc jal jalr
    beq bne blt bge bltu bgeu btag bntag lb lh lw ld lbn lhn lwn lc sb sh sw sd sc cgetaddr cgetbase cgetlen cgetperm cgettype cgettag
    csetaddr cinc csetb csetbx candp cseal cunseal ctestsub cclrtag cmove creplen cinci csetbi amoadd amoand amoor amoxor amomin amomax
    amominu amomaxu amoswap cas amofadd lda stl fence barb bara barw vadd vsub vmul vmulh vmin vmax vand vor vxor vsll vsrl vsra
    vaddsat vsubsat vdot4 vmulw vnarrow vsel vmov vidx vfadd vfsub vfmul vfma vfms vfnma vfdiv vfsqrt vfmin vfmax vfabs vfneg vfexp2
    vfdot2 vbcast vfmas vscacc vins vld vlds vldx vldb vst vsts vstx vperm vslideup vslidedn vredadd vredmin vredmax vfredadd vfredmax
    vcompress vextg vcmpeq vcmplt vcmple vfcmpeq vfcmplt vfcmple vfcmpun pand por pxor pnot psetn pcnt pfirst vcvt vquant vdeq vpack
    vunpk tld tst tzero tzp tgetzp lease mwin mdrain lstat mma mmaz push movq qpop qstat bindq tlwait tltest tlread evpop evwait evtry
    send sendt spawn dlg dlga tyield tself give accept decline lend returnLoan reclaim hquery ownnew ownend renew claim setheir map
    unmap setclass revoke scrub share swname swhash swread swref swrel swwalk rdc wrc trap tret lrel mclr dlgret chain replay tend
    upret brk nop arrayMatrixCommand loomGrant loomIdleExpiry selvageHandlerStart watchWrite emulentWrite hqctxWrite hqcapWrite
    assayEndpointHandle assayAttestation assayKeyImport assayPublicKeys copy copy2d fill resume framecopy framecopyPass1 framecopyPass2
    framecopyPass3 gather allreduce redscat allgather mcast launch launchPlacement swout releaseCommand releaseCommandPlacement sweep
    nsend nrecv nwrite nread packetArrival selectiveAckArrival retransmissionTimeout eventRecordPost hostPush hostQueuePass
    messageArrival inboxTaskStart stewardRequestStart dlgReplyArrival dlgResend issueCycle issueGuardExpiry rotaTurnStart sliceEnd
    sliceLimitExpiry sliceBudgetEnd trapDelivery imageRestore writeProtectRetry uncorrectableError macFailure offerDeadline termEnd
    ownerLapse recoveryBudgetEnd recoveryComplete registerScanDeadline classRebalance replyHandler loadHandler storeHandler
    atomicHandler swatchCountHandler spawnHandler bulkStoreHandler launchHandler unimplementedHandler linkTraining linkNarrowing
    linkDown ocsDrainRequest drainMarkerReturn routeHoldTimeout start devnumWrite reset clockStep spanCapacityStallLimit
    tyieldCycleLimit evwaitCycleLimit ideStreamKeying benchQuarantine

end Sys2Proof.Laws.RoundTrip

namespace Sys2Proof

/-- Settles O60, instruction by instruction. -/
theorem roundTrip : Obligations.round_trip := by
  intro s i hwf
  exact Laws.RoundTrip.ofInstr i s hwf

/-- Settles O58: each word that stands beside an instruction is its encoding, so that the round trip decodes it; each of the others fails
at the error for which it stands. -/
theorem decodeWords : Obligations.decode_words := by
  refine ⟨fun x hx => ?_, ?_⟩
  · have encoded : x.1 = encode x.2.1 x.2.2 ∧ x.2.2.wf = true := by revert x; decide
    rw [encoded.1]
    exact roundTrip x.2.1 x.2.2 encoded.2
  · simp only [List.forall_mem_cons]
    exact ⟨⟨.zeroField, rfl⟩, ⟨.zeroField, rfl⟩, ⟨.zeroField, rfl⟩, ⟨.value, rfl⟩, ⟨.zeroField, rfl⟩, ⟨.zeroField, rfl⟩, ⟨.value, rfl⟩,
      ⟨.never, rfl⟩, ⟨.never, rfl⟩, fun _ h => nomatch h⟩

end Sys2Proof
end

section
/-! SUPPORT. The control registers: what each number reads and what each write of one leaves, register by register; then the statements of
RDC and WRC from them. -/
namespace Sys2Proof
open Machine Claims

/-! ### Reading (R167, R168) -/

theorem cut_natCast (n : Nat) : cut n = BitVec.ofNat 64 n := BitVec.ofInt_natCast 64 n

theorem readCtl_capRegs (s : State) : ∀ r ∈ capRegs s, s.readCtl r.1 = some r.2 := by
  simp only [capRegs, List.forall_mem_cons]
  exact ⟨rfl, rfl, rfl, rfl, rfl, fun _ h => nomatch h⟩

theorem readCtl_intRegs (s : State) : ∀ r ∈ intRegs s, s.readCtl r.1 = some (Cap.ofInt r.2) := by
  have owner : s.self.owner.setWidth 64 = cut s.self.owner.toNat := by rw [cut_natCast, BitVec.ofNat_toNat]
  simp only [intRegs, List.forall_mem_cons, cut_natCast, ← owner]
  exact ⟨rfl, rfl, rfl, rfl, rfl, rfl, rfl, rfl, rfl, rfl, rfl, rfl, rfl, rfl, rfl, rfl, rfl, rfl, rfl, rfl, rfl, rfl, fun _ h => nomatch h⟩

theorem readCtl_shape (s : State) (i : Fin 8) : s.readCtl (BitVec.ofNat 12 (0x100 + i)) = some (Cap.ofInt s.myCore.shapes[i]) := by
  fin_cases i <;> rfl
theorem readCtl_watch (s : State) (i : Fin 8) : s.readCtl (BitVec.ofNat 12 (0x120 + i)) = some (Cap.ofInt s.myCore.watch[i]) := by
  fin_cases i <;> rfl

/-- A register's number, written as a sum, is none of the numbers that it does not equal. -/
theorem ofNat_ne {k : Nat} (hk : k < 2 ^ 12) {m : BitVec 12} (h : k ≠ m.toNat) : BitVec.ofNat 12 k ≠ m := by
  rintro rfl
  exact h (Nat.mod_eq_of_lt hk).symm

/-- EVQSTAT (R314). -/
theorem evqstat_eq (s : State) : s.evqstat = eventState s := by
  apply BitVec.eq_of_toNat_eq
  have held : min 255 s.myCore.held.length < 2 ^ 8 := by omega
  have user := (s.userOf (mkRes 10 s.self.core)).isLt
  rw [eventState, cut_natCast, State.evqstat]
  simp only [appN, BitVec.toNat_ofNat]
  omega

/-- RDC of FLAGS: what the window has newly set may be missing, and nothing else (R158). -/
theorem exec_rdc_flags (s : State) (d : BitVec 5) : exec (.rdc d 0x004) s = .next ((s.drawn.wr d s.seenFlags).retire) := rfl

theorem readCtl_hqcap0 (s : State) : s.readCtl 0x022 = some ((s.myHostq.map HostQ.cap0).getD .zero) := rfl
theorem readCtl_hqcap1 (s : State) : s.readCtl 0x023 = some ((s.myHostq.map HostQ.cap1).getD .zero) := rfl
theorem readCtl_emulent (s : State) : s.readCtl 0x400 = some ((s.myOwner.map Owner.emulent).getD .zero) := rfl
theorem readCtl_emulcore (s : State) : s.readCtl 0x401 = some (Cap.ofInt (BitVec.ofNat 64 ((s.myOwner.map Owner.emulcore).getD 0))) := rfl
theorem readCtl_assayreq (s : State) : s.readCtl 0x420 = some ((s.myOwner.map Owner.assayreq).getD .zero) := rfl
theorem readCtl_assaystat (s : State) : s.readCtl 0x421 = some (Cap.ofInt ((s.myOwner.map Owner.assaystat).getD 0)) := rfl

/-- The registers of the issuing owner (R397, R406). -/
theorem readCtl_owner {s : State} {o : Owner} (h : s.owner s.self.owner = some o) :
    s.readCtl 0x400 = some o.emulent ∧ s.readCtl 0x401 = some (Cap.ofInt (cut o.emulcore)) ∧ s.readCtl 0x420 = some o.assayreq
      ∧ s.readCtl 0x421 = some (Cap.ofInt o.assaystat) := by
  have mine : s.myOwner = some o := h
  rw [readCtl_emulent, readCtl_emulcore, readCtl_assayreq, readCtl_assaystat, mine, cut_natCast]
  exact ⟨rfl, rfl, rfl, rfl⟩

/-- The registers of the host queue that HQSEL names, as a party to it reads them (R404). -/
theorem readCtl_party {s : State} (h : hostqParty s) :
    s.readCtl 0x021 = some (((hostqOf s).ctx.map (fun b => ctxHandle b.1 b.2)).getD .zero)
      ∧ s.readCtl 0x022 = some (hostqOf s).cap0 ∧ s.readCtl 0x023 = some (hostqOf s).cap1 := by
  rw [read021, readCtl_hqcap0, readCtl_hqcap1, party_some h]
  exact ⟨rfl, rfl, rfl⟩

theorem readCtl_stranger {s : State} (h : ¬hostqParty s) :
    s.readCtl 0x021 = some (Cap.ofInt 0) ∧ s.readCtl 0x022 = some (Cap.ofInt 0) ∧ s.readCtl 0x023 = some (Cap.ofInt 0) := by
  rw [read021, readCtl_hqcap0, readCtl_hqcap1, party_none h]
  exact ⟨rfl, rfl, rfl⟩

theorem exec_rdc_unassigned {s : State} (d : BitVec 5) {n : BitVec 12} (h : s.readCtl n = none) : exec (.rdc d n) s = .next (s.trap 0x01 0) := by
  show execRdc d n s = _
  rw [execRdc, h]

/-- Settles O46, register by register. -/
theorem controlRegisterReads : Obligations.control_register_reads := by
  intro s d n
  refine ⟨fun r hr => ?_, fun r hr => ?_, fun i => ⟨?_, ?_⟩, ?_, ?_, fun e he => ?_, fun h => ?_, fun h => ?_, fun h => ?_, fun o h => ?_,
    fun hn near stats => ?_⟩
  · have other : r.1 ≠ 0x004 ∧ r.1 ≠ 0x109 := by
      revert r; simp [capRegs]
    exact rdc_cap (readCtl_capRegs s r hr) other.1 other.2
  · have other : r.1 ≠ 0x004 ∧ r.1 ≠ 0x109 := by
      revert r; simp [intRegs]
    exact rdc_int (readCtl_intRegs s r hr) rfl other.1 other.2
  · exact rdc_int (readCtl_shape s i) rfl (ofNat_ne (by omega) (by simp; omega)) (ofNat_ne (by omega) (by simp; omega))
  · exact rdc_int (readCtl_watch s i) rfl (ofNat_ne (by omega) (by simp; omega)) (ofNat_ne (by omega) (by simp; omega))
  · obtain ⟨known, settled⟩ := seen_flags s.self.flags s.self.winFlags (Config.flagsSubset s.free)
    exact ⟨s.seenFlags, known, settled, completes_of (exec_rdc_flags s d)⟩
  · exact rdc_int (congrArg (fun x => some (Cap.ofInt x)) (evqstat_eq s)) rfl (by decide) (by decide)
  · have number : (BitVec.ofNat 12 (0x200 + e)).toNat = 0x200 + e := by rw [BitVec.toNat_ofNat]; omega
    have read := readStat s (0x200 + e) _ number (by omega) (by omega)
    rw [Nat.add_sub_cancel_left] at read
    exact rdc_int read (entropy_eq s e) (ofNat_ne (by omega) (by simp; omega)) (ofNat_ne (by omega) (by simp; omega))
  · have handle := (readCtl_party h).1
    cases bound : (hostqOf s).ctx with
    | none | some b =>
      rw [bound] at handle
      exact rdc_cap handle (by decide) (by decide)
  · obtain ⟨-, first, second⟩ := readCtl_party h
    exact ⟨rdc_cap first (by decide) (by decide), rdc_cap second (by decide) (by decide)⟩
  · obtain ⟨binding, first, second⟩ := readCtl_stranger h
    have zero {r : BitVec 12} (read : s.readCtl r = some (Cap.ofInt 0)) : r ≠ 0x004 → r ≠ 0x109 → PutsX (.rdc d r) s d 0 := rdc_int read rfl
    simp only [List.forall_mem_cons]
    exact ⟨zero binding (by decide) (by decide), zero first (by decide) (by decide), zero second (by decide) (by decide), fun _ h => nomatch h⟩
  · obtain ⟨entry, core, request, status⟩ := readCtl_owner h
    exact ⟨rdc_cap entry (by decide) (by decide), rdc_int core rfl (by decide) (by decide), rdc_cap request (by decide) (by decide),
      rdc_int status rfl (by decide) (by decide)⟩
  · exact exec_rdc_unassigned d (readNone s n hn (near 0x100 (by simp)) (near 0x120 (by simp)) stats)

/-! ### Writing (R167, R168) -/

theorem bits_mod_two (w : U64) : w &&& 1 = cut (w.toNat % 2 : Nat) := (mask_mod w 1 (by decide)).symm
theorem bits_mod_four (w : U64) : w &&& 3 = cut (w.toNat % 4 : Nat) := (mask_mod w 2 (by decide)).symm
theorem bits_mod_flags (w : U64) : w &&& 0x1F = cut (w.toNat % 2 ^ 5 : Nat) := (mask_mod w 5 (by decide)).symm

/-- HQSEL keeps its ERR bit (R404). -/
theorem hqsel_fields (old new : U64) : (old &&& 1 <<< 63) ||| (new &&& 0xFFFF) = fields (old &&& 0x800000000000FFFF) new 0xFFFF := by
  rw [fields, BitVec.and_assoc]; rfl

theorem writeCtl_slot (s : State) (c : Cap) : ∀ r ∈ slotWrites s.self c, s.writeCtl r.1 c = .ok { s with self := r.2 } := by
  simp only [slotWrites, List.forall_mem_cons, ← bits_mod_two, ← bits_mod_four, ← bits_mod_flags, ← low_half, ← hqsel_fields]
  exact ⟨rfl, rfl, rfl, rfl, rfl, rfl, rfl, rfl, rfl, rfl, rfl, fun _ h => nomatch h⟩

theorem writeCtl_chain (s : State) (c : Cap) : ∀ r ∈ chainWrites s.myCore c.addr, s.writeCtl r.1 c = .ok (s.putCore r.2) := by
  simp only [chainWrites, List.forall_mem_cons, fields_zero]
  exact ⟨rfl, rfl, rfl, rfl, fun _ h => nomatch h⟩

theorem writeCtl_shape (s : State) (c : Cap) (t : Fin 8) : s.writeCtl (BitVec.ofNat 12 (0x100 + t)) c = s.setShape (BitVec.ofNat 3 t) c.addr := by
  fin_cases t <;> rfl
theorem writeCtl_watch (s : State) (c : Cap) (k : Fin 8) :
    s.writeCtl (BitVec.ofNat 12 (0x120 + k)) c = .ok (s.setWatch (BitVec.ofNat 3 k) c.addr) := by
  fin_cases k <;> rfl

/-! ### TSHAPE (R168, R243) -/

section
variable {s : State} {i : Instr} {t : BitVec 3} {w : U64} (run : exec i s = wrote (s.setShape t w))
include run

theorem shape_traps (h : s.self.idx ≠ 0) : exec i s = .next (s.trap 0x01 0) := by
  have slot : s.slotZero = .error (s.trap 0x01 0) := if_neg h
  rw [run, State.setShape, slot]; rfl
theorem shape_waits (h : s.self.idx = 0) (locked : s.tileLocked s.self.core t = true) : ParksAlone i s (.tile t) := by
  have waits : s.unlocked t = .error (s.waitAlone (.tile t)) := if_pos locked
  refine parksAlone_of ?_
  rw [run, State.setShape, slotZero_ok h, waits]; rfl
theorem shape_completes (h : s.self.idx = 0) (free : s.tileLocked s.self.core t = false) :
    Completes i s (s.putCore { s.myCore with shapes := s.myCore.shapes.set t.toNat (w &&& 0x1FFFFF) t.isLt }) := by
  have passes : s.unlocked t = .ok () := if_neg (by simp [free])
  refine completes_of ?_
  rw [run, State.setShape, slotZero_ok h, passes]; rfl

end

/-! ### The registers of an owner (R397, R406) -/

theorem setEmulent_some {s : State} {o : Owner} (h : s.owner s.self.owner = some o) (c : Cap) :
    s.setEmulent c = s.putOwner { o with emulcore := s.self.core, emulent := if c.tag = true ∧ c.otype = 3 then c else c.untag } := by
  have mine : s.myOwner = some o := h
  simp [State.setEmulent, mine]

/-- What ASSAYREQ takes (R406): a capability to read and write 2,048 aligned bytes and capabilities in them. -/
def AssayFit (s : State) (c : Cap) : Prop := Authorises s c [.r, .w, .sc] c.addr 2048 ∧ c.addr.toNat % 16 = 0

theorem assayFit_iff (s : State) (c : Cap) :
    ((([.r, .w, .sc] : List Perm).findSome? (s.capClass c)).isSome || !c.inBounds c.addr.toNat 2048 || c.addr.toNat % 16 != 0) = false
      ↔ AssayFit s c := by
  rw [AssayFit, authorises_iff s c _ (by simp), Bool.or_eq_false_iff, bne_eq_false_iff_eq]

/-- The status of a refused write stands in ASSAYSTAT[47:32] (R406). -/
theorem assayRefusal_fields (old : U64) {code : U64} (h : code <<< 32 &&& ~~~(0xFFFFFFFF : U64) = code <<< 32) :
    (old &&& 0xFFFFFFFF#64) ||| (code <<< 32) = fields (code <<< 32) old 0xFFFFFFFF := by
  rw [fields, h, BitVec.or_comm]; rfl

section
variable {s : State} {o : Owner} (h : s.owner s.self.owner = some o) {c : Cap}
include h

theorem setAssayreq_busy (busy : o.assaystat.getLsbD 0 = true) :
    s.setAssayreq c = s.putOwner { o with assaystat := fields ((0x0009 : U64) <<< 32) o.assaystat 0xFFFFFFFF } := by
  have mine : s.myOwner = some o := h
  rw [← assayRefusal_fields _ (by decide)]
  simp only [State.setAssayreq, mine, busy, if_true]
theorem setAssayreq_unfit (idle : o.assaystat.getLsbD 0 = false) (unfit : ¬AssayFit s c) :
    s.setAssayreq c = s.putOwner { o with assaystat := fields ((0x0011 : U64) <<< 32) o.assaystat 0xFFFFFFFF } := by
  have mine : s.myOwner = some o := h
  rw [← assayFit_iff, Bool.not_eq_false] at unfit
  rw [← assayRefusal_fields _ (by decide)]
  simp only [State.setAssayreq, mine, idle, unfit, if_true, if_neg Bool.false_ne_true]
theorem setAssayreq_starts (idle : o.assaystat.getLsbD 0 = false) (fit : AssayFit s c) :
    s.setAssayreq c = s.putOwner { o with assayreq := c, assaystat := fields 0 o.assaystat 0xFFFFFFFF ||| 1 } := by
  have mine : s.myOwner = some o := h
  rw [← assayFit_iff] at fit
  rw [fields_zero]
  simp only [State.setAssayreq, mine, idle, fit, if_neg Bool.false_ne_true]; rfl

end

/-! ### The registers of a host queue (R404) -/

theorem setHqctx_tagged {s : State} {c : Cap} (h : c.tag = true) :
    s.setHqctx c = s.setHostq (c.otype == 4 && s.ctxCurrent (handleCtx c) (handleGen c))
      (fun q => { q with ctx := some (handleCtx c, handleGen c), dropped := 0 }) := if_neg (by simp [h])
theorem setHqctx_untagged {s : State} {c : Cap} (h : c.tag = false) : s.setHqctx c = s.setHostq true (fun q => { q with ctx := none }) :=
  if_pos (by simp [h])

/-- What HQCAP0 and HQCAP1 take: a capability that words can be derived from (R404). -/
theorem derives_iff (c : Cap) : (c.tag && !c.isSealed && c.holds .en) = true ↔ c.tag = true ∧ c.otype = 0 ∧ c.holds .en = true := by
  simp [isSealed_iff, and_assoc]

/-- Settles O47, register by register. -/
theorem controlRegisterWrites : Obligations.control_register_writes := by
  intro s a n c hqErr binds handle derives
  have hostq {ok : Bool} {f : HostQ → HostQ} {P : Prop} (hP : ok = true ↔ P) {i : Instr} (run : exec i s = wrote (s.setHostq ok f)) :
      binds i P (f (hostqOf s)) := hostq_ok run rfl hP
  refine ⟨fun r hr => wrote_ok rfl (writeCtl_slot s c r hr), fun r hr => wrote_ok rfl (writeCtl_chain s c r hr), wrote_ok rfl rfl, fun t => ?_,
    fun k => ?_, ?_, ?_, ?_, ?_, fun o h => ?_, fun hn near => ?_⟩
  · have run : exec (.wrc a (BitVec.ofNat 12 (0x100 + t))) s = wrote (s.setShape (BitVec.ofNat 3 t) c.addr) :=
      congrArg wrote (writeCtl_shape s c t)
    have number : (BitVec.ofNat 3 t).toNat = t := Nat.mod_eq_of_lt t.isLt
    refine ⟨shape_traps run, shape_waits run, fun h free => ?_⟩
    simpa only [number, fields_zero] using shape_completes run h free
  · have watching := setWatch_ok s k c.addr
    simp only [List.forall_mem_cons]
    exact ⟨⟨_, wrote_ok rfl (writeCtl_watch s c k), watching⟩, ⟨_, wrote_ok rfl rfl, watching⟩, fun _ h => nomatch h⟩
  · simp only [List.forall_mem_cons]
    exact ⟨fun o h => wrote_ok rfl (congrArg Except.ok (setEmulent_some h c)), fun o h => wrote_ok rfl (congrArg Except.ok (setEmulent_some h c)),
      fun _ h => nomatch h⟩
  · have current : (c.otype == 4 && s.ctxCurrent (handleCtx c) (handleGen c)) = true ↔ handle := by
      rw [Bool.and_eq_true, beq_iff_eq]; rfl
    have tagged {i : Instr} (run : exec i s = wrote (s.setHqctx c)) (h : c.tag = true) :=
      hostq current (run.trans (congrArg wrote (setHqctx_tagged h)))
    have untagged {i : Instr} (run : exec i s = wrote (s.setHqctx c)) (h : c.tag = false) :=
      hostq (iff_true_intro rfl) (run.trans (congrArg wrote (setHqctx_untagged h)))
    simp only [List.forall_mem_cons]
    exact ⟨⟨tagged rfl, untagged rfl⟩, ⟨tagged rfl, untagged rfl⟩, fun _ h => nomatch h⟩
  · have word {i : Instr} (run : exec i s = wrote (s.setHqcap 0 c)) := hostq (derives_iff c) run
    simp only [List.forall_mem_cons]
    exact ⟨word rfl, word rfl, fun _ h => nomatch h⟩
  · have word {i : Instr} (run : exec i s = wrote (s.setHqcap 1 c)) := hostq (derives_iff c) run
    simp only [List.forall_mem_cons]
    exact ⟨word rfl, word rfl, fun _ h => nomatch h⟩
  · have run : exec (.wrc a 0x420) s = wrote (.ok (s.setAssayreq c)) := rfl
    exact ⟨fun busy => wrote_ok run (congrArg Except.ok (setAssayreq_busy h busy)),
      fun idle unfit => wrote_ok run (congrArg Except.ok (setAssayreq_unfit h idle unfit)),
      fun idle fit => wrote_ok run (congrArg Except.ok (setAssayreq_starts h idle fit))⟩
  · show wrote (s.writeCtl n c) = _
    rw [writeNone s n c hn (near 0x100 (by simp)) (near 0x120 (by simp))]; rfl

end Sys2Proof
end

section
/-! SUPPORT. Steps: what reaching the routers leaves of the issuing slot, how a picked slot comes to the execution of its word, what the
execution leaves besides the instruction's own outcome; then the statement of steps. -/
namespace Sys2Proof
open Machine Claims

/-! ### The routers empty (R131, R132) -/

theorem MemOnly.putByte (s : State) (a : Nat) (v : U8) : MemOnly s (s.putByte a v) := by
  cases h : s.phys a with
  | none =>
    rw [State.putByte, h]
    exact .refl s
  | some p => exact (putByte_spec s a p v h).1
theorem MemOnly.storeN (n : Nat) : ∀ (s : State) (a v : Nat), MemOnly s (s.storeN a n v) := by
  induction n with
  | zero => exact fun s _ _ => .refl s
  | succ n ih => exact fun s a v => (MemOnly.putByte s a _).trans' (ih _ _ _)
theorem MemOnly.storeData (s : State) (a n v : Nat) : MemOnly s (s.storeData a n v) :=
  (MemOnly.storeN n s a v).trans' (clearTags_spec _ a n).1

/-- The issuing slot has at most been woken, and got replies. -/
def SelfAnswered (s t : State) : Prop := ∃ p l, t.self = { s.self with park := p, replies := l }

theorem SelfAnswered.refl (s : State) : SelfAnswered s s := ⟨s.self.park, s.self.replies, rfl⟩
theorem SelfAnswered.trans' {s t u : State} (h : SelfAnswered s t) (g : SelfAnswered t u) : SelfAnswered s u := by
  obtain ⟨p, l, e⟩ := h
  obtain ⟨q, m, e'⟩ := g
  exact ⟨q, m, by rw [e', e]⟩
theorem SelfAnswered.foldl {α : Type} {f : State → α → State} (hf : ∀ t x, SelfAnswered t (f t x)) (l : List α) (s : State) :
    SelfAnswered s (l.foldl f s) := by
  induction l generalizing s with
  | nil => exact .refl s
  | cons x l ih => exact (hf s x).trans' (ih _)
theorem MemOnly.selfAnswered {s t : State} (h : MemOnly s t) : SelfAnswered s t := by
  obtain ⟨_, _, _, rfl⟩ := h
  exact .refl s
theorem Noted.selfAnswered {s t : State} (h : Noted s t) : SelfAnswered s t := by
  obtain ⟨x, _, _, _, rfl, e, -⟩ := h
  exact ⟨x.park, s.self.replies, e⟩

/-- A slot is kept under its own number. -/
theorem slotKey_slot (s : State) (core idx : Nat) : slotKey (s.slot core idx) = core * 16 + idx := by
  unfold State.slot
  split
  · assumption
  · cases h : findBy slotKey (core * 16 + idx) s.others with
    | none => rfl
    | some x => exact findBy_key h

/-- Replacing the replies of a kept slot changes the issuing slot in its replies alone. -/
theorem SelfAnswered.putSlot (s : State) (core idx : Nat) (l : List Reply) :
    SelfAnswered s (s.putSlot { s.slot core idx with replies := l }) := by
  have key : slotKey { s.slot core idx with replies := l } = core * 16 + idx := slotKey_slot s core idx
  by_cases here : slotKey s.self = core * 16 + idx
  · have mine : s.slot core idx = s.self := if_pos here
    rw [putSlot_self _ _ (here.trans key.symm), mine]
    exact ⟨s.self.park, l, rfl⟩
  · rw [putSlot_other _ _ (fun e => here (e.trans key))]
    exact .refl s
theorem SelfAnswered.routedReply (s : State) (m : Routed) (v : Nat) : SelfAnswered s (s.routedReply m v) := by
  unfold State.routedReply
  dsimp only
  split
  · exact .putSlot s _ _ _
  · exact .refl s
theorem SelfAnswered.routedApply (s : State) (l : List Routed) : SelfAnswered s (s.routedApply l) := by
  cases l with
  | nil => exact .refl s
  | cons m rest =>
    have stored := MemOnly.selfAnswered (MemOnly.storeData s m.acc.addr 4
      (amoNew 10 4 (s.loadN m.acc.addr 4) (rest.foldl (fun n r => amoNew 10 4 n r.operand.toNat) m.operand.toNat)))
    have posted := SelfAnswered.foldl (fun t (r : Routed) => Noted.selfAnswered (Noted.monitorPost t r.acc)) (m :: rest)
    have replied := SelfAnswered.foldl (fun t (r : Routed × Nat) => SelfAnswered.routedReply t r.1 r.2)
    exact (stored.trans' (posted _)).trans' (replied _ _)
theorem SelfAnswered.routersEmpty (s : State) : SelfAnswered s s.routersEmpty :=
  .foldl (f := State.routedApply) SelfAnswered.routedApply s.routed { s with routed := [] }

/-! ### From the pick to the execution (R155, R156) -/

/-- Nothing of the issuing slot is under way that an execution would settle first: no delegation, no swatch request, no watch trap. -/
def Quiet (s : State) : Prop := s.self.delegated = none ∧ s.self.swLater = [] ∧ s.self.watchTrap = none

theorem Quiet.of_selfAnswered {s t : State} (h : Quiet s) (g : SelfAnswered s t) : Quiet t := by
  obtain ⟨p, l, e⟩ := g
  rw [Quiet, e]; exact h

/-- With nothing under way, a trap comes as it is. -/
theorem trapsAs_quiet {s : State} (h : Quiet s) (t : State) : s.trapsAs t = t := by
  obtain ⟨del, sw, watch⟩ := h
  unfold State.trapsAs
  simp [del, sw, watch]

section
variable {s : State} {w : U32} (h : AtWord s w)
include h

theorem quiet_issuing : Quiet (issuing s w) := by
  obtain ⟨-, -, watch, -, del, sw, -⟩ := h
  unfold issuing
  split <;> exact ⟨del, sw, watch⟩

theorem atNext_atWord : s.atNext = s := by
  obtain ⟨-, -, -, -, -, -, skip, -⟩ := h
  have still : s.setSelf (fun x => x.skip 32) = s := by rw [State.setSelf, skip]
  unfold State.atNext
  dsimp only
  rw [still]
  simp

theorem issuing_park_coopDue : (issuing s w).self.park = .no ∧ (issuing s w).self.coopDue = false := by
  obtain ⟨-, park, -, coop, -⟩ := h
  unfold issuing
  split <;> exact ⟨park, coop⟩

/-- Nothing comes before the fetch of the word, in the window that a settle point begins (R155, R156). -/
theorem issue_atWord (fetches : (issuing s w).fetch = .ok ()) (run : Instr → State → Host.Outcome State Fault Refusal) :
    (∀ e, decode w = .error e → s.issue run = .next ((issuing s w).trap 0x01 0))
      ∧ ∀ b i, decode w = .ok (b, i) → s.issue run = (issuing s w).runInstr run i := by
  have quiet := quiet_issuing h
  have next := atNext_atWord h
  obtain ⟨park, coop⟩ := issuing_park_coopDue h
  obtain ⟨role, -, watch, -, del, sw, -, word⟩ := h
  have window : (if s.self.settles w = true then s.setSelf Slot.startWindow else s) = issuing s w := rfl
  have uncoop : (issuing s w).self.coopReady = false := by simp [Slot.coopReady, coop]
  have unfetched : (issuing s w).self.fetched = false := by simp [Slot.fetched, park]
  unfold State.issue
  simp only [role, next, word, del, sw, watch, window, uncoop, unfetched, fetches, ite_self, trapsAs_quiet quiet, if_false, Option.isSome_none,
    List.isEmpty_nil, Bool.and_false, Bool.not_true, Bool.false_and, Bool.false_eq_true]
  constructor
  · intro e he; rw [he]
  · intro b i hi; rw [hi]
end

/-! ### The execution (R131, R157, R158, R353) -/

/-- The routers have emptied, unless another relaxed AMOFADD joins the groups in them (R131). -/
def reached (i : Instr) (v : State) : State :=
  match i with
  | .amofadd _ _ _ 0 _ => v
  | _ => v.routersEmpty

theorem executes_iff (i : Instr) (v z : State) : Executes i v z ↔ (isSwatch i = false → z = reached i v)
    ∧ ∃ n q, z = { reached i v with free := n, self := { (reached i v).self with swDefer := q } } := Iff.rfl

theorem quiet_reached {v : State} (h : Quiet v) (i : Instr) : Quiet (reached i v) := by
  unfold reached
  split
  · exact h
  · exact h.of_selfAnswered (.routersEmpty v)

/-- With no swatch request on its way, an instruction meets nothing but its own choice whether it reaches its unit later (R353). -/
theorem swOrder_quiet {u : State} (h : u.self.swLater = []) (i : Instr) :
    ∃ n q, (isSwatch i = false → { u with free := n, self := { u.self with swDefer := q } } = u)
      ∧ ∀ r w, u.swOrder i r w = .ok { u with free := n, self := { u.self with swDefer := q } } := by
  unfold State.swOrder
  cases hi : isSwatch i with
  | false =>
    have none : u.self.swLater.isEmpty = true := by rw [h]; rfl
    exact ⟨u.free, u.self.swDefer, fun _ => rfl, fun r w => (if_neg Bool.false_ne_true).trans (if_pos none)⟩
  | true =>
    simp only [if_true, reduceCtorEq, false_implies, true_and, forall_const]
    split
    · exact ⟨u.free + 1, Config.swatchLater u.free, rfl⟩
    · split
      · exact ⟨u.free, false, rfl⟩
      · exact ⟨u.free, u.self.swDefer, rfl⟩

/-- The registers that a swatch instruction reads and writes are those that its word names. -/
theorem regs_swatch {i : Instr} (h : isSwatch i = true) (s t : State) : readsOf s i = readsOf t i ∧ writesOf s i = writesOf t i := by
  cases i with
  | swname | swread | swref | swrel | swwalk => exact ⟨rfl, rfl⟩
  | _ => exact absurd h Bool.false_ne_true

theorem swFollow_none {z : State} (h : z.self.swLater = []) (t : State) (i : Instr) : z.swFollow t i = t := by
  unfold State.swFollow
  rw [h]
  cases t.self.swLater <;> simp

theorem windowNoted_noteWindow (s t : State) (r w : List Reg) : WindowNoted t (s.noteWindow t r w) := by
  unfold State.noteWindow
  split <;> rfl

/-- What executing an instruction comes to in the state `z` (R157, R158, R160): with its registers settled its own outcome, and the window
notes them; unsettled, in strict mode, the trap. -/
def RunsIn (run : Instr → State → Host.Outcome State Fault Refusal) (i : Instr) (v z : State) : Prop :=
  (Settled z i →
    (∀ t, run i z = .next t → ∃ u, WindowNoted t u ∧ v.runInstr run i = .next u)
    ∧ (∀ f, run i z = .fault f → v.runInstr run i = .fault f) ∧ (∀ f, run i z = .refused f → v.runInstr run i = .refused f))
  ∧ (¬Settled z i → z.self.strict = true → v.runInstr run i = .next (z.trap 0x02 0))

theorem runInstr_quiet {v : State} (h : Quiet v) (run : Instr → State → Host.Outcome State Fault Refusal) (i : Instr) :
    ∃ z, Executes i v z ∧ RunsIn run i v z := by
  have quiet := quiet_reached h i
  obtain ⟨n, q, same, order⟩ := swOrder_quiet quiet.2.1 i
  generalize hz : ({ reached i v with free := n, self := { (reached i v).self with swDefer := q } } : State) = z at same order
  have quietZ : Quiet z := by rw [← hz]; exact quiet
  have regs : readsOf (reached i v) i = readsOf z i ∧ writesOf (reached i v) i = writesOf z i := by
    cases hi : isSwatch i with
    | true => exact regs_swatch hi _ _
    | false => rw [same hi]; exact ⟨rfl, rfl⟩
  refine ⟨z, (executes_iff i v z).2 ⟨same, n, q, hz.symm⟩, ?_⟩
  have settle : ¬Settled z i ↔ z.self.unsettled (readsOf z i) (writesOf z i) = true := by simp [Settled]
  unfold RunsIn State.runInstr
  extract_lets s1 reads writes
  have ordered : s1.swOrder i reads writes = .ok z := order _ _
  have hr : reads = readsOf z i := regs.1
  have hw : writes = writesOf z i := regs.2
  rw [ordered]
  dsimp only
  rw [hr, hw]
  refine ⟨fun settled => ?_, fun unsettled strict => ?_⟩
  · have clean : z.self.unsettled (readsOf z i) (writesOf z i) = false := settled
    rw [clean]
    refine ⟨fun t ht => ⟨z.noteWindow t (readsOf z i) (writesOf z i), windowNoted_noteWindow _ _ _ _, ?_⟩, fun f hf => ?_, fun f hf => ?_⟩
    · simp [ht, trapsAs_quiet quietZ, swFollow_none quietZ.2.1]
    · simp [hf]
    · simp [hf]
  · simp [settle.1 unsettled, strict, trapsAs_quiet quietZ]

/-! ### Which core issues (R263) -/

theorem nextCore_mayIssue {s : State} : ∀ c, s.nextCore = some c → s.mayIssue c = true := by
  refine List.foldlRecOn (motive := fun b => ∀ c, b = some c → s.mayIssue c = true) _ _ (by simp) fun b hb x hx c hc => ?_
  have mine : s.mayIssue x.core = true := by
    have both := (List.mem_filter.1 hx).2
    rw [Bool.and_eq_true] at both
    exact both.1
  cases b with
  | none => cases hc; exact mine
  | some d =>
    dsimp only at hc
    split at hc
    · cases hc; exact mine
    · exact hb c hc

/-- The next issuing slot is the pick of a core that may still issue in this cycle. -/
theorem nextIssuer_some {s t : State} (h : s.nextIssuer = some t) :
    ∃ core i, (s.core core).nextAt ≤ s.cycle ∧ PickRule s core i ∧ t = { s.pickSlot core i with picked := false } := by
  unfold State.nextIssuer at h
  cases hc : s.nextCore with
  | none => rw [hc] at h; cases h
  | some core =>
    rw [hc] at h
    obtain ⟨i, picked, rfl⟩ := Option.map_eq_some_iff.1 h
    exact ⟨core, i, of_decide_eq_true (nextCore_mayIssue core hc), pick_some picked, rfl⟩

/-! ### A step -/

theorem step_picked {s : State} (h : s.picked = false) : step { s with picked := true } = s.issue exec := by
  have back : ({ s with picked := false } : State) = s := by rw [← h]
  have issues : step { s with picked := true } = ({ s with picked := false } : State).issue exec := if_pos rfl
  rw [issues, back]

section
variable {s : State} (unpicked : s.picked = false)
include unpicked

theorem step_event {i : Instr} {rest : List Instr} (h : s.agenda = i :: rest) : step s =
    if isWord i then .next { s with agenda := rest } else if picks i then exec i { s with agenda := rest }
      else exec i { s.routersEmpty with agenda := rest } := by
  rw [step, if_neg (by simp [unpicked]), h]

variable (empty : s.agenda = [])
include empty

theorem step_due {t : State} (h : s.routersEmpty.dueEvent = some t) : step s = .next t := by
  rw [step, if_neg (by simp [unpicked]), empty]
  simp only [h]
theorem step_issues {t : State} (h : s.routersEmpty.dueEvent = none) (next : s.nextIssuer = some t) : step s = t.issue exec := by
  rw [step, if_neg (by simp [unpicked]), empty]
  simp only [h, next]
theorem step_passes (h : s.routersEmpty.dueEvent = none) (next : s.nextIssuer = none) : step s = .next s.meanwhile.tick := by
  rw [step, if_neg (by simp [unpicked]), empty]
  simp only [h, next]
end

/-- Settles O57: a picked slot's word, events, what happens by itself and the cycles, and the placing of a word. -/
theorem stepRunsDecoded : Obligations.step_runs_decoded := by
  refine ⟨?_, fun s i rest unpicked agenda => ?_,
    fun s unpicked agenda => ⟨fun t => step_due unpicked agenda, fun quiet => ⟨fun idle => ?_, fun t next => ⟨?_, nextIssuer_some next⟩⟩⟩,
    fun _ _ _ => rfl⟩
  · intro s w unpicked word fetches v p
    refine ⟨fun b i hd => ?_, fun e he => (step_picked unpicked).trans ((issue_atWord word fetches exec).1 e he)⟩
    have run : step p = v.runInstr exec i := (step_picked unpicked).trans ((issue_atWord word fetches exec).2 b i hd)
    rw [run]
    exact runInstr_quiet (quiet_issuing word) exec i
  · rw [step_event unpicked agenda]
    refine ⟨fun event picks => ?_, fun event other => ?_, fun word => if_pos word⟩
    · rw [if_neg (by simp [event]), if_pos picks]
    · rw [if_neg (by simp [event]), if_neg (by simp [other])]
  · exact ⟨_, later_tick s.meanwhile, step_passes unpicked agenda quiet idle⟩
  · obtain ⟨_, _, -, -, rfl⟩ := nextIssuer_some next
    exact (step_issues unpicked agenda quiet next).trans (step_picked rfl).symm

end Sys2Proof
end

section
/-! SUPPORT. The scalar instructions and the control transfers (R181 to R193): the arithmetic of words as that of the integers they stand
for, what a transfer answers, and the words whose zero fields are not zero; then the statements from them. -/
namespace Sys2Proof
open Machine Claims

/-! ### Words as integers (R182) -/

theorem add_eq_ofInt {w : Nat} (x y : BitVec w) : x + y = BitVec.ofInt w (x.toInt + y.toInt) := by
  rw [BitVec.ofInt_add, BitVec.ofInt_toInt, BitVec.ofInt_toInt]
theorem sub_eq_ofInt {w : Nat} (x y : BitVec w) : x - y = BitVec.ofInt w (x.toInt - y.toInt) := by
  rw [Int.sub_eq_add_neg, BitVec.ofInt_add, BitVec.ofInt_neg, BitVec.ofInt_toInt, BitVec.ofInt_toInt, BitVec.sub_eq_add_neg]
theorem mul_eq_ofInt {w : Nat} (x y : BitVec w) : x * y = BitVec.ofInt w (x.toInt * y.toInt) := by
  rw [BitVec.ofInt_mul, BitVec.ofInt_toInt, BitVec.ofInt_toInt]
theorem shiftLeft_eq_ofInt {w : Nat} (x : BitVec w) (k : Nat) : x <<< k = BitVec.ofInt w (x.toNat * 2 ^ k) := by
  exact_mod_cast shl_eq w x k
theorem ushiftRight_eq_ofInt {w : Nat} (x : BitVec w) (k : Nat) : x >>> k = BitVec.ofInt w (x.toNat / 2 ^ k) := by
  exact_mod_cast shr_eq w x k

theorem boolWord_eq {b : Bool} {P : Prop} [Decidable P] (h : b = true ↔ P) : boolWord b = if P then 1 else 0 := by
  unfold boolWord
  exact if_congr h rfl rfl

theorem slt_true_iff (x y : U64) : x.slt y = true ↔ x.toInt < y.toInt := BitVec.slt_iff_toInt_lt
theorem ult_true_iff (x y : U64) : x.ult y = true ↔ x.toNat < y.toNat := BitVec.ult_iff_lt

/-- The choice of the lesser of two words is the minimum under any reading of words as integers, signed or not. -/
theorem lesser_eq_cut_min {read : U64 → Int} (reads : ∀ z, cut (read z) = z) {b : Bool} {x y : U64} (h : b = true ↔ read y < read x) :
    (if b then y else x) = cut (min (read x) (read y)) := by
  by_cases less : read y < read x
  · rw [if_pos (h.mpr less), min_eq_right less.le, reads]
  · rw [if_neg (mt h.mp less), min_eq_left (not_lt.mp less), reads]
theorem greater_eq_cut_max {read : U64 → Int} (reads : ∀ z, cut (read z) = z) {b : Bool} {x y : U64} (h : b = true ↔ read x < read y) :
    (if b then y else x) = cut (max (read x) (read y)) := by
  by_cases less : read x < read y
  · rw [if_pos (h.mpr less), max_eq_right less.le, reads]
  · rw [if_neg (mt h.mp less), max_eq_left (not_lt.mp less), reads]

/-- Settles O1: the counts, and each member by the arithmetic of its word. -/
theorem scalarOp : Obligations.scalar_op := by
  refine ⟨scalar_counts_ok, fun s d a b => ?_⟩
  have ult_int : ∀ x y : U64, x.ult y = true ↔ (x.toNat : Int) < y.toNat := fun x y => (ult_true_iff x y).trans Int.ofNat_lt.symm
  exact ⟨putsX_of rfl (add_eq_ofInt _ _), putsX_of rfl (sub_eq_ofInt _ _),
    putsX_of rfl rfl, putsX_of rfl rfl, putsX_of rfl rfl, putsX_of rfl rfl,
    putsX_of rfl (shiftLeft_eq_ofInt _ _), putsX_of rfl (ushiftRight_eq_ofInt _ _), putsX_of rfl (sar_eq 64 _ _),
    putsX_of rfl (boolWord_eq (slt_true_iff _ _)), putsX_of rfl (boolWord_eq (ult_true_iff _ _)),
    putsX_of rfl (lesser_eq_cut_min cut_toInt (slt_true_iff _ _)), putsX_of rfl (greater_eq_cut_max cut_toInt (slt_true_iff _ _)),
    putsX_of rfl (lesser_eq_cut_min cut_toNat (ult_int _ _)), putsX_of rfl (greater_eq_cut_max cut_toNat (ult_int _ _)),
    putsX_of rfl (mul_eq_ofInt _ _), putsX_of rfl rfl, putsX_of rfl (BitVec.ofInt_natCast 64 _).symm⟩

/-- Settles O2: the model's four divisions at 64 bits. -/
theorem scalarDivision : Obligations.scalar_division := fun _ _ _ _ =>
  ⟨putsX_of rfl (divS_eq _ _), putsX_of rfl (remS_eq _ _), putsX_of rfl (divU_eq 64 _ _), putsX_of rfl (remU_eq 64 _ _)⟩

/-! ### Narrow words and immediates (R184 to R187) -/

theorem scalarOpw : Claims.ScalarOpw := by
  intro s d a b
  simp only [low_eq, slow_eq]
  exact ⟨putsX32_of rfl (add_eq_ofInt _ _), putsX32_of rfl (sub_eq_ofInt _ _),
    putsX32_of rfl (shiftLeft_eq_ofInt _ _), putsX32_of rfl (ushiftRight_eq_ofInt _ _), putsX32_of rfl (sar_eq 32 _ _),
    putsX32_of rfl (mul_eq_ofInt _ _), putsX32_of rfl (divS_eq _ _), putsX32_of rfl (remS_eq _ _),
    putsX32_of rfl (divU_eq 32 _ _), putsX32_of rfl (remU_eq 32 _ _)⟩

/-- A word plus a sign-extended immediate, at any width. -/
theorem add_signExtend_eq_ofInt {w n : Nat} (x : BitVec w) (i : BitVec n) : x + i.signExtend w = BitVec.ofInt w (x.toInt + i.toInt) := by
  rw [BitVec.ofInt_add, BitVec.ofInt_toInt]
  rfl
/-- LUI's word: the zero bits below the immediate are a product (R187). -/
theorem lui_word (u : BitVec 20) : (u ++ 0#14).signExtend 64 = cut (u.toInt * 2 ^ 14) := by
  rw [← cut_imm, BitVec.toInt_append_zero, Int.mul_comm]

theorem scalarImmediate : Claims.ScalarImmediate := by
  intro s d a i n m u
  simp only [low_eq, slow_eq]
  have slti : (s.x a).slt (i.signExtend 64) = true ↔ (s.x a).toInt < i.toInt := by rw [slt_true_iff, sext_toInt]
  exact ⟨putsX_of rfl (add_signExtend_eq_ofInt _ i), putsX_of rfl rfl, putsX_of rfl rfl, putsX_of rfl rfl,
    putsX_of rfl (boolWord_eq slti), putsX_of rfl (boolWord_eq (ult_true_iff _ _)), putsX32_of rfl (add_signExtend_eq_ofInt _ i),
    putsX_of rfl (shiftLeft_eq_ofInt _ _), putsX_of rfl (ushiftRight_eq_ofInt _ _), putsX_of rfl (sar_eq 64 _ _),
    putsX32_of rfl (shiftLeft_eq_ofInt _ _), putsX32_of rfl (ushiftRight_eq_ofInt _ _), putsX32_of rfl (sar_eq 32 _ _),
    putsX_of rfl (lui_word u)⟩

/-- Settles O4: the 32-bit members and the immediate forms. -/
theorem scalarNarrowAndImmediate : Obligations.scalar_narrow_and_immediate := ⟨scalarOpw, scalarImmediate⟩

/-! ### Words with a zero field (R173) -/

theorem fixedAt_fails {w : U32} {lo n v : Nat} {x : BitVec n} {k : Except DecodeError Instr} (field : w.extractLsb' lo n = x)
    (differs : x.toNat ≠ v) : fixedAt w lo n v k = .error .zeroField := by
  rw [fixedAt, field, if_neg differs]
theorem decode_fails {w : U32} {e : DecodeError} (h : decodeMajor w = .error e) : ∃ e, decode w = .error e := by
  rw [decode]
  split
  · exact ⟨_, rfl⟩
  · exact ⟨e, by rw [h]⟩

theorem decode_ghi_fails (d a b : BitVec 5) (h : b ≠ 0) : ∃ e, decode (0#1 ++ 0x01#6 ++ d ++ a ++ b ++ 0x1D#10) = .error e := by
  have major : (0#1 ++ 0x01#6 ++ d ++ a ++ b ++ 0x1D#10).extractLsb' 25 6 = 0x01#6 :=
    Laws.Ext.hi 15 <| Laws.Ext.hi 10 <| Laws.Ext.hi 5 <| Laws.Ext.hi 0 <| Laws.Ext.lo <| Laws.Ext.all _
  have fn : (0#1 ++ 0x01#6 ++ d ++ a ++ b ++ 0x1D#10).extractLsb' 0 10 = 0x1D#10 := Laws.Ext.lo <| Laws.Ext.all _
  have field : (0#1 ++ 0x01#6 ++ d ++ a ++ b ++ 0x1D#10).extractLsb' 10 5 = b := Laws.Ext.hi 0 <| Laws.Ext.lo <| Laws.Ext.all _
  generalize 0#1 ++ 0x01#6 ++ d ++ a ++ b ++ 0x1D#10 = w at *
  have nonzero : b.toNat ≠ 0 := fun e => h (BitVec.eq_of_toNat_eq e)
  have opens : decodeMajor w = decodeOp w := by rw [decodeMajor, major]; rfl
  have ghi : decodeOp w = fixedAt w 10 5 0 (pure (.ghi (w.extractLsb' 20 5) (w.extractLsb' 15 5))) := by rw [decodeOp, fn]; rfl
  exact decode_fails (opens.trans (ghi.trans (fixedAt_fails field nonzero)))

/-- The conditions BTAG and BNTAG, 6 and 7, leave no room for a second register (R192). -/
theorem decode_tagBranch_fails (a b : BitVec 5) (cond : BitVec 3) (o : BitVec 12) (h : b ≠ 0) (hc : 6 ≤ cond.toNat) :
    ∃ e, decode (0#1 ++ 0x0E#6 ++ a ++ b ++ cond ++ o) = .error e := by
  have major : (0#1 ++ 0x0E#6 ++ a ++ b ++ cond ++ o).extractLsb' 25 6 = 0x0E#6 :=
    Laws.Ext.hi 13 <| Laws.Ext.hi 10 <| Laws.Ext.hi 5 <| Laws.Ext.hi 0 <| Laws.Ext.lo <| Laws.Ext.all _
  have selector : (0#1 ++ 0x0E#6 ++ a ++ b ++ cond ++ o).extractLsb' 12 3 = cond := Laws.Ext.hi 0 <| Laws.Ext.lo <| Laws.Ext.all _
  have field : (0#1 ++ 0x0E#6 ++ a ++ b ++ cond ++ o).extractLsb' 15 5 = b :=
    Laws.Ext.hi 3 <| Laws.Ext.hi 0 <| Laws.Ext.lo <| Laws.Ext.all _
  generalize 0#1 ++ 0x0E#6 ++ a ++ b ++ cond ++ o = w at *
  have nonzero : b.toNat ≠ 0 := fun e => h (BitVec.eq_of_toNat_eq e)
  have opens : decodeMajor w = decodeBr w := by rw [decodeMajor, major]; rfl
  obtain tag | untagged : cond.toNat = 6 ∨ cond.toNat = 7 := by have := cond.isLt; omega
  · have btag : decodeBr w = fixedAt w 15 5 0 (pure (.btag (w.extractLsb' 20 5) (w.extractLsb' 0 12))) := by
      rw [decodeBr, selector, tag]; rfl
    exact decode_fails (opens.trans (btag.trans (fixedAt_fails field nonzero)))
  · have bntag : decodeBr w = fixedAt w 15 5 0 (pure (.bntag (w.extractLsb' 20 5) (w.extractLsb' 0 12))) := by
      rw [decodeBr, selector, untagged]; rfl
    exact decode_fails (opens.trans (bntag.trans (fixedAt_fails field nonzero)))

/-! GHI, BTAG and BNTAG are encoded with the zero field and the selector as one. -/

theorem encode_ghi (d a : BitVec 5) : 0#1 ++ 0x01#6 ++ d ++ a ++ 0#5 ++ 0x1D#10 = encode false (.ghi d a) := BitVec.append_assoc
theorem encode_btag (a : BitVec 5) (o : BitVec 12) : 0#1 ++ 0x0E#6 ++ a ++ 0#5 ++ 6#3 ++ o = encode false (.btag a o) :=
  congrArg (· ++ o) BitVec.append_assoc
theorem encode_bntag (a : BitVec 5) (o : BitVec 12) : 0#1 ++ 0x0E#6 ++ a ++ 0#5 ++ 7#3 ++ o = encode false (.bntag a o) :=
  congrArg (· ++ o) BitVec.append_assoc

/-- Settles O3: what the two write, their words by the round trip, and the words of GHI that are none. -/
theorem gpairGhi : Obligations.gpair_ghi := fun _ d a b =>
  ⟨putsG_of rfl, putsX_of rfl rfl, roundTrip false (.gpair d a b) rfl,
    (congrArg decode (encode_ghi d a)).trans (roundTrip false (.ghi d a) rfl), decode_ghi_fails d a b⟩

/-! ### Transfers (R189 to R193, R31) -/

section
variable {s : State} {n : Nat} (short : n + 2 ≤ 64) {o : BitVec n} (d : BitVec 5)
include short

theorem transferPc_enterable (h : Enterable s (atCursor s.self.pcc (s.pc + cut (4 * o.toInt)))) :
    s.transferPc d (o.signExtend 64) = s.transfer d (atCursor s.self.pcc (s.pc + cut (4 * o.toInt))) := by
  rw [← cut_mul n short] at h ⊢
  exact transferPc_ok h
theorem transferPc_traps {k : BitVec 6} (h : EntryClass s (atCursor s.self.pcc (s.pc + cut (4 * o.toInt))) k) :
    s.transferPc d (o.signExtend 64) =
      (if k = 0x16 then { s with self := { s.self with pcc := s.self.pcc.untag } } else s).trap k
        (atCursor s.self.pcc (s.pc + cut (4 * o.toInt))).addr := by
  rw [← cut_mul n short] at h ⊢
  exact transferPc_bad h
end

theorem capTrap_eq_trap (s : State) (r : BitVec 5) (k : BitVec 6) (c : U64) :
    s.capTrap r k (.plain k c) = (if k = 0x16 then s.setG r (s.g r).untag else s).trap k c := by
  unfold State.capTrap State.trap
  split <;> rfl

section
variable {s : State} (d : BitVec 5) {a : BitVec 5} {i : BitVec 15}

theorem exec_jalr_enterable (h : Enterable s (atCursor (s.g a) (s.x a + cut i.toInt))) :
    exec (.jalr d a i) s = .next (s.transfer d (atCursor (s.g a) (s.x a + cut i.toInt))) := by
  show execJalr d a i s = _
  simp only [execJalr, moveCursor_eq, ← cut_imm, jumpClass_none h]
theorem exec_jalr_traps {k : BitVec 6} (h : EntryClass s (atCursor (s.g a) (s.x a + cut i.toInt)) k) :
    exec (.jalr d a i) s =
      .next ((if k = 0x16 then s.setG a (s.g a).untag else s).trap k (atCursor (s.g a) (s.x a + cut i.toInt)).addr) := by
  show execJalr d a i s = _
  simp only [execJalr, moveCursor_eq, ← cut_imm, capClass_some h, capTrap_eq_trap]
end

theorem exec_beq_taken {s : State} {a b : BitVec 5} (same : s.x a = s.x b) (o : BitVec 12) :
    exec (.beq a b o) s = .next (s.transferPc 0 (o.signExtend 64)) := by
  show s.branch (s.x a == s.x b) o = _
  rw [beq_iff_eq.mpr same]
  rfl

theorem jumpAndLink : Claims.JumpAndLink := fun _ d _ _ _ =>
  ⟨fun near => jumps_of (congrArg _ (transferPc_enterable (by decide) d near)), fun far => jumps_of (exec_jalr_enterable d far)⟩

theorem transferTraps : Claims.TransferTraps := fun _ d _ _ _ _ _ _ =>
  ⟨fun near => congrArg _ (transferPc_traps (by decide) d near),
    fun branch same => (exec_beq_taken same _).trans (congrArg _ (transferPc_traps (by decide) 0 branch)),
    fun far => exec_jalr_traps d far⟩

/-- Settles O6: where the target passes the checks, and where it fails one. -/
theorem jumpsAndTransferTraps : Obligations.jumps_and_transfer_traps := ⟨jumpAndLink, transferTraps⟩

/-- Settles O5: each condition as the statement reads it, and the words by the round trip. -/
theorem branches : Obligations.branches := by
  intro s a b o
  have sge : ∀ x y : U64, (!x.slt y) = true ↔ y.toInt ≤ x.toInt := fun x y => by rw [slt_iff]; simp
  have uge : ∀ x y : U64, (!x.ult y) = true ↔ y.toNat ≤ x.toNat := fun x y => by rw [ult_iff]; simp
  refine ⟨branches_of rfl beq_iff_eq, branches_of rfl bne_iff_ne, branches_of rfl (slt_true_iff _ _), branches_of rfl (sge _ _),
    branches_of rfl (ult_true_iff _ _), branches_of rfl (uge _ _), branches_of rfl Iff.rfl, branches_of rfl (Bool.not_eq_true' _).to_iff, ?_⟩
  exact ⟨roundTrip false (.beq a b o) rfl, roundTrip false (.bne a b o) rfl, roundTrip false (.blt a b o) rfl,
    roundTrip false (.bge a b o) rfl, roundTrip false (.bltu a b o) rfl, roundTrip false (.bgeu a b o) rfl,
    (congrArg decode (encode_btag a o)).trans (roundTrip false (.btag a o) rfl),
    (congrArg decode (encode_bntag a o)).trans (roundTrip false (.bntag a o) rfl), fun h cond => decode_tagBranch_fails a b cond o h⟩

/-- Settles O7: the offset of the model counts words, the statement's bytes. -/
theorem capc : Obligations.capc := fun s d i =>
  ⟨by rw [← cut_mul 20 (by decide)]; exact putsG_of rfl, roundTrip false (.capc d i) rfl⟩

end Sys2Proof
end

section
/-! SUPPORT. The capability group but sealing (R199 to R202), loads and stores of data and of capabilities (R196 to R198): what each
answers where its checks pass, and where a capability may not be stored; then the statements from them. -/
namespace Sys2Proof
open Machine Claims

/-! ### Queries and derivations (R199 to R202, R31) -/

theorem subset_iff (c k : Cap) : c.subset k = true ↔ c.tag = true ∧ k.tag = true ∧ c.otype = 0 ∧ k.otype = 0 ∧ c.bounds.base ≤ k.bounds.base
    ∧ k.bounds.top ≤ c.bounds.top ∧ k.perms &&& c.perms = k.perms := by
  simp [Cap.subset, Cap.isSealed, Bounds.within, and_assoc]

theorem capabilityQueries : Claims.CapabilityQueries := by
  intro s d a b
  obtain ⟨e, -, top, below, least, length⟩ := repFrom_spec (s.x a).toNat 46 le_rfl
  refine ⟨putsX_of rfl rfl, putsX_of rfl rfl, putsX_of rfl rfl, putsX_of rfl (BitVec.setWidth_eq_append (by decide)),
    putsX_of rfl (BitVec.setWidth_eq_append (by decide)), putsX_of rfl (boolWord_eq Iff.rfl), putsX_of rfl (boolWord_eq (subset_iff _ _)),
    e, top, fun j => below j (by omega), least, putsX_of rfl ?_⟩
  rw [cut_natCast, ← length]
  rfl

/-- CMOVE keeps the bits, and the tag of a capability that is not revoked (R202, R31). -/
theorem exec_cmove (s : State) (d a : BitVec 5) : exec (.cmove d a) s =
    .next ((s.setG d { bits := (s.g a).bits, tag := (s.g a).tag && !s.revokedAddr (s.g a).bounds.base.toNat }).retire) := by
  have moved : s.dropRevoked (s.g a) = { bits := (s.g a).bits, tag := (s.g a).tag && !s.revokedAddr (s.g a).bounds.base.toNat } := by
    rw [dropRevoked_eq]
    cases s.revokedAddr (s.g a).bounds.base.toNat with
    | true => rw [Bool.not_true, Bool.and_false]; rfl
    | false => rw [Bool.not_false, Bool.and_true]; rfl
  rw [← moved]
  rfl

theorem capabilityDerivations : Claims.CapabilityDerivations := by
  intro s d a b i
  simp only [← derivable_eq, ← low12]
  exact ⟨putsG_of rfl, putsG_of rfl, putsG_of rfl, putsG_of rfl, putsG_of rfl, putsG_of (exec_cmove s d a)⟩

/-- Settles O10: the queries, and the derivations. -/
theorem capabilityMembers : Obligations.capability_members := ⟨capabilityQueries, capabilityDerivations⟩

/-! ### Loads of data (R196, R197) -/

section
variable {s : State} {d a : BitVec 5} {i : BitVec 12} {n : Nat}

theorem load_passes (f : Nat → U64) (h : Passes s a (meaOf s a i n) n [.r] (accessOf s (meaOf s a i n) n true false false)) :
    let m := s.localAddr (meaOf s a i n).toNat
    s.load d a i n f
      = .next ((((s.looked s.me m n).access (accessOf s (meaOf s a i n) n true false false) id).wr d (f (s.seenN s.me m n))).retire) := by
  obtain ⟨auth, near, clear⟩ := h
  have passes := accCheck_ok (x := s.acc (s.localAddr (meaOf s a i n).toNat) n true false false) (ea := meaOf s a i n) clear
  unfold State.load State.loadData
  simp only [meaOf_eq, capCheck_ok (al := false) auth (by simp), site_here near, passes]
  rfl

/-- A load whose register value is the integer `g` of the bytes it reads. -/
theorem loads_of_load {j : Instr} {f : Nat → U64} {g : Nat → Int} (hj : exec j s = s.load d a i n f) (hn : 0 < n)
    (hf : ∀ v, v < 256 ^ n → f v = cut (g v)) (h : Passes s a (meaOf s a i n) n [.r] (accessOf s (meaOf s a i n) n true false false)) :
    ∃ v, MayRead s (s.localAddr (meaOf s a i n).toNat) n v
      ∧ Loads j s d { bits := 0#64 ++ cut (g v), tag := false } (accessOf s (meaOf s a i n) n true false false) := by
  have seen := seen_mayRead s s.me (s.localAddr (meaOf s a i n).toNat) n s.free
  refine ⟨_, seen, loads_of (q := s.me) (a := s.localAddr (meaOf s a i n).toNat) (n := n) rfl rfl hn ?_⟩
  rw [hj, load_passes f h, wr_eq, ← hf _ seen.1]
end

theorem sextBytes_signed {n : Nat} (h0 : 0 < n) (hn : n ≤ 8) (v : Nat) (hv : v < 256 ^ n) :
    sextBytes n v = cut (if 2 ^ (8 * n - 1) ≤ v then (v : Int) - 2 ^ (8 * n) else v) :=
  sextBytes_eq n v h0 hn (by rwa [Nat.pow_mul])

/-- Settles O12: each load by the integer that it makes of its bytes. -/
theorem loads : Obligations.loads := by
  intro s d a i
  have unsigned : ∀ {n} (v : Nat), v < 256 ^ n → BitVec.ofNat 64 v = cut v := fun v _ => (cut_natCast v).symm
  exact ⟨loads_of_load rfl (by decide) (sextBytes_signed (by decide) (by decide)), loads_of_load rfl (by decide) (sextBytes_signed (by decide) (by decide)),
    loads_of_load rfl (by decide) (sextBytes_signed (by decide) (by decide)), loads_of_load rfl (by decide) unsigned,
    loads_of_load rfl (by decide) unsigned, loads_of_load rfl (by decide) unsigned, loads_of_load rfl (by decide) unsigned⟩

/-! ### Stores of data (R24, R196, R197) -/

/-- A store whose write puts a value and a tag for every state with the same places. -/
theorem stores_of_puts {j : Instr} {s : State} {x : Acc} {f : State → State} {v : Nat} {g : Bool} (hf : x.fetch = false) (hn : 0 < x.size)
    (hw : x.write = true) (hp : Puts s f x (some (v, g))) (h : exec j s = .next ((s.access x f).retire)) : Stores j s v g x := by
  have same := (Committed.commit s x).same
  obtain ⟨only, stored, tags⟩ := hp _ same
  exact stores_of hf hn hw only (stored_of_same same stored) (tags_of_same same tags) h

/-- The bits of an integer in a register are the integer's own (R23). -/
theorem ofInt_bits (x : U64) : (Cap.ofInt x).bits.toNat = x.toNat := BitVec.toNat_setWidth_of_le (by decide)

section
variable {s : State} {d a : BitVec 5} {i : BitVec 12} {n : Nat}

theorem store_passes (h : Passes s a (meaOf s a i n) n [.w] (accessOf s (meaOf s a i n) n false true false)) :
    s.store d a i n = .next ((s.access (accessOf s (meaOf s a i n) n false true false)
      (fun t => t.storeData (s.localAddr (meaOf s a i n).toNat) n (s.x d).toNat)).retire) := by
  obtain ⟨auth, near, clear⟩ := h
  have passes := accCheck_ok (x := s.acc (s.localAddr (meaOf s a i n).toNat) n false true false) (ea := meaOf s a i n) clear
  unfold State.store State.saveData
  simp only [meaOf_eq, capCheck_ok (al := false) auth (by simp), site_here near, passes]
  rfl

theorem stores_of_store {j : Instr} (hj : exec j s = s.store d a i n) (hn : 0 < n) (h16 : n < 16)
    (h : Passes s a (meaOf s a i n) n [.w] (accessOf s (meaOf s a i n) n false true false)) :
    Stores j s (s.x d).toNat false (accessOf s (meaOf s a i n) n false true false) := by
  have puts := puts_data s (accessOf s (meaOf s a i n) n false true false) (Cap.ofInt (s.x d)) (s.x d).toNat hn h16 h.2.2
    (fun k _ => by rw [ofInt_bits])
  refine stores_of_puts rfl hn rfl puts ?_
  rw [hj, store_passes h]
  have write : aPut n (s.localAddr (meaOf s a i n).toNat) (some (Cap.ofInt (s.x d)))
      = fun t => t.storeData (s.localAddr (meaOf s a i n).toNat) n (s.x d).toNat := by
    funext t
    rw [aPut, if_neg (by omega), ofInt_bits]
  exact congrArg (fun f => Host.Outcome.next (s.access _ f).retire) write.symm
end

/-- Settles O13: the four stores are one at four sizes. -/
theorem stores : Obligations.stores := fun _ _ _ _ =>
  ⟨stores_of_store rfl (by decide) (by decide), stores_of_store rfl (by decide) (by decide), stores_of_store rfl (by decide) (by decide),
    stores_of_store rfl (by decide) (by decide)⟩

/-! ### LC and SC (R24, R198) -/

theorem scRule_noPermission {s : State} {c v : Cap} {ea : U64} (tagged : v.tag = true) (h : c.holds .sc = false) (right : Bool) :
    s.scRule c v ea right = .error (s.trap 0x05 ea) := by
  rw [State.scRule, tagged, h]
  rfl
theorem scRule_noRight {s : State} {c v : Cap} {ea : U64} (tagged : v.tag = true) (h : c.holds .sc = true) :
    s.scRule c v ea false = .error (s.trap 0x07 ea) := by
  rw [State.scRule, tagged, h]
  rfl

/-- A load keeps a tag where a store would, and only through LC and the C right. -/
theorem loadTag_eq (s : State) (c v : Cap) (ea : U64) :
    loadTag s c v ea = (c.holds .lc && (s.rightsAt s.self.owner (s.localAddr ea.toNat)).any (fun e => e.c) && storeTag s v ea) := by
  simp only [loadTag, storeTag, Bool.and_assoc]

section
variable {s : State} {d a : BitVec 5} {i : BitVec 12} (aligned : (meaOf s a i 16).toNat % 16 = 0)
include aligned

theorem exec_lc_passes (h : Passes s a (meaOf s a i 16) 16 [.r] (accessOf s (meaOf s a i 16) 16 true false false)) :
    exec (.lc d a i) s = .next ((((s.looked s.me (s.localAddr (meaOf s a i 16).toNat) 16).access (accessOf s (meaOf s a i 16) 16 true false false) id).setG d
      { s.seenCap s.me (s.localAddr (meaOf s a i 16).toNat) with
        tag := loadTag s (s.g a) (s.seenCap s.me (s.localAddr (meaOf s a i 16).toNat)) (meaOf s a i 16) }).retire) := by
  obtain ⟨auth, near, clear⟩ := h
  have passes := accCheck_ok (x := s.acc (s.localAddr (meaOf s a i 16).toNat) 16 true false false) (ea := meaOf s a i 16) clear
  show execLc d a i s = _
  simp only [execLc, meaOf_eq, capCheck_ok (al := true) auth (fun _ => aligned), site_here near, ← loadedTag_eq]
  change finish (do s.accCheck (s.acc (s.localAddr (meaOf s a i 16).toNat) 16 true false false) (meaOf s a i 16); _) = _
  rw [passes]
  rfl

variable (h : Passes s a (meaOf s a i 16) 16 [.w] (accessOf s (meaOf s a i 16) 16 false true false))
include h

/-- SC past its checks: the rule of R198 decides whether it stores. -/
theorem exec_sc_passes : exec (.sc d a i) s =
    match s.scRule (s.g a) (s.g d) (meaOf s a i 16) (s.rightC (s.localAddr (meaOf s a i 16).toNat)) with
    | .error t => .next t
    | .ok _ => .next ((s.access (accessOf s (meaOf s a i 16) 16 false true false)
        (aPut 16 (s.localAddr (meaOf s a i 16).toNat) (some { s.g d with tag := storeTag s (s.g d) (meaOf s a i 16) }))).retire) := by
  obtain ⟨auth, near, clear⟩ := h
  have passes := accCheck_ok (x := s.acc (s.localAddr (meaOf s a i 16).toNat) 16 false true false) (ea := meaOf s a i 16) clear
  have here : s.accErr (s.acc (s.localAddr (meaOf s a i 16).toNat) 16 false true false) = none := clear
  show execSc d a i s = _
  simp only [execSc, meaOf_eq, capCheck_ok (al := true) auth (fun _ => aligned), site_here near, passes, here, ← storedTag_eq]
  cases s.scRule (s.g a) (s.g d) (meaOf s a i 16) (s.rightC (s.localAddr (meaOf s a i 16).toNat)) <;> rfl
end

/-- Settles O14: what LC writes, and SC past its checks by the rule for a tagged value. -/
theorem capabilityAccesses : Obligations.capability_accesses := by
  intro s d a i
  refine ⟨fun aligned h => ⟨_, seenCap_mayRead s s.me _ (localAddr_mod aligned), ?_⟩, fun aligned h allowed => ?_,
    fun aligned h tagged perm => ?_, fun aligned h tagged perm right => ?_⟩
  · have read := exec_lc_passes (d := d) aligned h
    rw [loadTag_eq] at read
    exact loads_of rfl rfl (show 0 < 16 by decide) read
  · have puts := puts_cap s (accessOf s (meaOf s a i 16) 16 false true false) { s.g d with tag := storeTag s (s.g d) (meaOf s a i 16) } rfl
      (localAddr_mod aligned) h.2.2
    refine stores_of_puts rfl (show 0 < 16 by decide) rfl puts ?_
    rw [exec_sc_passes aligned h, scRule_ok allowed]
    rfl
  · rw [exec_sc_passes aligned h, scRule_noPermission tagged perm]
  · rw [exec_sc_passes aligned h, rightC_eq, right, scRule_noRight tagged perm]

end Sys2Proof
end

section
/-! SUPPORT. The atomics (R203 to R206) but AMOFADD: an atomic at its home from what it puts into memory and what it returns, then the integer
read-modify-writes, CAS, size q, LDA and STL; and the statements from them. -/
namespace Sys2Proof
open Machine Claims

/-! ### What an atomic stores and returns (R204) -/

theorem bytesAt_lt_two_pow (s : State) (a n : Nat) : bytesAt s a n < 2 ^ (8 * n) := by
  rw [Nat.pow_mul]
  exact bytesAt_lt s a n

theorem atomBytes_narrow {z : BitVec 2} (h2 : z ≠ 2) (h3 : z ≠ 3) : atomBytes z = 4 ∨ atomBytes z = 8 := by
  revert z; decide

/-- What a read-modify-write at a size below q stores: its function of the old bytes and of the operand's low bytes. -/
theorem atomNew_value {op n : Nat} (h9 : op ≠ 9) (h11 : op ≠ 11) (h16 : n < 16) (s : State) (m : Nat) (x e : Cap) :
    atomNew op n { bits := BitVec.ofNat 128 (bytesAt s m n), tag := false } x e
      = some { bits := BitVec.ofNat 128 (amoNew op n (bytesAt s m n) (x.bits.toNat % 2 ^ (8 * n))), tag := false } := by
  rw [atomNew, if_neg h11, if_neg h9, if_neg (by omega), bytesAt_bits _ _ _ (by omega)]
/-- A 128-bit value holds the low 16 bytes of a number. -/
theorem ofNat_byte (v k : Nat) (h : k < 16) : BitVec.ofNat 8 ((BitVec.ofNat 128 v).toNat / 256 ^ k) = BitVec.ofNat 8 (v / 256 ^ k) :=
  (byte_mod v 16 k h).symm

theorem scOk_untag (s : State) (c v : Cap) (ea : U64) : scOk s c v.untag ea := fun tagged => nomatch tagged
/-- The rule of SC asks something of an atomic's operand at size q alone, and nothing of LDA (R198). -/
theorem scOk_operand {s : State} {c x : Cap} {ea : U64} {n op : Nat} (h : n = 16 → op ≠ 11 → scOk s c x ea) :
    scOk s c (if n = 16 && op != 11 then x else x.untag) ea := by
  split
  · rename_i q
    rw [Bool.and_eq_true, decide_eq_true_iff, bne_iff_ne] at q
    exact h q.1 q.2
  · exact scOk_untag s c x ea

section
variable {r0 s : State} {i : Instr} {op : Nat} {d a : BitVec 5} {x e : Cap} {z o c : BitVec 2}

/-- An atomic at its home, from what it puts into memory and what it writes to its register. -/
theorem atomicIn_of_home {new : Option (Nat × Bool)} {g : BitVec 5 → Cap} (hi : exec i r0 = s.atomicHome op d a x e z o c false)
    (h : Passes s a (s.x a) (atomBytes z) (atomNeeds op) (accessOf s (s.x a) (atomBytes z) (op != 12) (op != 11) true))
    (aligned : (s.x a).toNat % atomBytes z = 0) (allowed : atomBytes z = 16 → op ≠ 11 → scOk s (s.g a) x (s.x a))
    (puts : Puts s (aPut (atomBytes z) (s.localAddr (s.x a).toNat)
        (aNew s op (atomBytes z) (aOld s (atomBytes z) (s.localAddr (s.x a).toNat)) x e (s.x a)))
      (accessOf s (s.x a) (atomBytes z) (op != 12) (op != 11) true) new)
    (writes : (op = 12 ∧ g = s.g) ∨ ∃ v, (∀ t : State, t.revoked = s.revoked →
        t.atomPut op (atomBytes z) d (s.g a) (aOld s (atomBytes z) (s.localAddr (s.x a).toNat)) (s.rightC (s.localAddr (s.x a).toNat)) (s.x a)
          = t.setG d v) ∧ g = gSet s d v) :
    AtomicIn i r0 s (accessOf s (s.x a) (atomBytes z) (op != 12) (op != 11) true) o c g new := by
  have some_byte : 0 < atomBytes z := Nat.mul_pos (by decide) (Nat.two_pow_pos _)
  refine atomic_done (p := fun t => t.atomPut op (atomBytes z) d (s.g a) (aOld s (atomBytes z) (s.localAddr (s.x a).toNat))
    (s.rightC (s.localAddr (s.x a).toNat)) (s.x a)) rfl some_byte puts ?_ (hi.trans (atomicHome_eq h.1 aligned h.2 (scOk_operand allowed)))
  rcases writes with ⟨stl, rfl⟩ | ⟨v, put, rfl⟩
  · exact .inl ⟨funext fun t => if_pos stl, rfl⟩
  · exact .inr ⟨d, v, put, rfl⟩

/-- A read-modify-write at size w or d whose new value depends on the old one and the operand alone. -/
theorem atomicIn_of_value (hz : z ≠ 2) (hz3 : z ≠ 3) (hi : exec i r0 = s.atomicHome op d a x e z o c false) (h9 : op ≠ 9) (h10 : op ≤ 10)
    (h : Passes s a (s.x a) (atomBytes z) [.r, .w] (accessOf s (s.x a) (atomBytes z) true true true)) (aligned : (s.x a).toNat % atomBytes z = 0) :
    let v := bytesAt s (s.localAddr (s.x a).toNat) (atomBytes z)
    AtomicIn i r0 s (accessOf s (s.x a) (atomBytes z) true true true) o c
      (gSet s d (int (if op = 6 ∨ op = 7 ∨ op = 10 then (v : Int) else signedAt (8 * atomBytes z) v)))
      (some (amoNew op (atomBytes z) v (x.bits.toNat % 2 ^ (8 * atomBytes z)), false)) := by
  have narrow : atomBytes z < 16 := by have := atomBytes_narrow hz hz3; omega
  refine rmw_done (N := some _) hz hz3 hi h10 h.1 aligned h.2 ?_
  rw [atomNew_value h9 (by omega) narrow]
  exact ⟨_, rfl, fun k hk => ofNat_byte _ k (by omega)⟩
end

/-! ### Each at its home -/

section
variable (s : State) (d a b : BitVec 5) (z o c : BitVec 2)

theorem exec_amoswap : exec (.amoswap d a b z o c) s = s.atomicHome 8 d a (s.g b) .zero z o c false := atomic_home (op := 8) (.inl (by decide))
theorem exec_cas : exec (.cas d a b z o c) s = s.atomicHome 9 d a (s.g b) (s.g d) z o c false := atomic_home (op := 9) (.inl (by decide))
theorem exec_lda (l : BitVec 1) : exec (.lda d a z l c) s = s.atomicHome 11 d a .zero .zero z (l.setWidth 2) c false :=
  atomic_home (op := 11) (.inl (by decide))
theorem exec_stl (l : BitVec 1) : exec (.stl d a z l c) s = s.atomicHome 12 d a (s.g d) .zero z (if l = 1 then 2 else 0) c false :=
  atomic_home (op := 12) (.inl (by decide))
end

/-! ### Integer read-modify-writes (R204) -/

section
variable {s : State} {i : Instr} {d a b : BitVec 5} {z : BitVec 1} {o c : BitVec 2}

/-- One of the nine at size w or d, by the integers that it returns and stores. -/
theorem atomicDone_of_integer (op : Nat) {old new : Int} (hi : exec i s = s.atomic op d a (s.g b) .zero (z.setWidth 2) o c) (hop : op ≤ 8)
    (holdv : old = if op = 6 ∨ op = 7 ∨ op = 10 then (bytesAt s (s.localAddr (s.x a).toNat) (4 * 2 ^ z.toNat) : Int)
      else signedAt (8 * (4 * 2 ^ z.toNat)) (bytesAt s (s.localAddr (s.x a).toNat) (4 * 2 ^ z.toNat)))
    (hnew : (new % 2 ^ (8 * (4 * 2 ^ z.toNat))).toNat = amoNew op (4 * 2 ^ z.toNat) (bytesAt s (s.localAddr (s.x a).toNat) (4 * 2 ^ z.toNat))
      ((s.x b).toNat % 2 ^ (8 * (4 * 2 ^ z.toNat))))
    (h : Passes s a (s.x a) (4 * 2 ^ z.toNat) [.r, .w] (accessOf s (s.x a) (4 * 2 ^ z.toNat) true true true))
    (aligned : (s.x a).toNat % (4 * 2 ^ z.toNat) = 0) :
    AtomicDone i s (accessOf s (s.x a) (4 * 2 ^ z.toNat) true true true) o c (gSet s d (int old))
      (some ((new % 2 ^ (8 * (4 * 2 ^ z.toNat))).toNat, false)) := by
  obtain ⟨two, three⟩ := z_ne z
  subst holdv
  rw [hnew, ← low_bits s b _ (pow_ok1 z).2]
  rw [← atomBytes_w] at h aligned ⊢
  exact atomicIn_of_value two three (hi.trans (atomic_home (.inl (by omega)))) (by omega) (by omega) h aligned
end

/-- Settles O15: the eight, and AMOSWAP. -/
theorem atomicInteger : Obligations.atomic_integer := by
  intro s d a b z o c n w ea x v y done
  have hv : v < 2 ^ w := bytesAt_lt_two_pow s _ n
  have hy : y < 2 ^ w := Nat.mod_lt _ (Nat.two_pow_pos w)
  have hw : 0 < w := by have := (pow_ok1 z).1; omega
  -- a number below 2 ^ w is stored as it is
  have whole : ∀ {u : Nat}, u < 2 ^ w → ((u : Int) % 2 ^ w).toNat = u := fun h => (toNat_emod w _).trans (Nat.mod_eq_of_lt h)
  have below : ∀ op, op ≤ 7 → amoNew op n v y < 2 ^ w := fun op hop => amoNew_lt op n v y hop hv hy
  exact ⟨atomicDone_of_integer 0 rfl (by decide) rfl (by exact_mod_cast toNat_emod w (v + y)),
    atomicDone_of_integer 1 rfl (by decide) rfl (whole (below 1 (by decide))), atomicDone_of_integer 2 rfl (by decide) rfl (whole (below 2 (by decide))),
    atomicDone_of_integer 3 rfl (by decide) rfl (whole (below 3 (by decide))), atomicDone_of_integer 4 rfl (by decide) rfl (smin_eq w v y hw hv hy).symm,
    atomicDone_of_integer 5 rfl (by decide) rfl (smax_eq w v y hw hv hy).symm, atomicDone_of_integer 6 rfl (by decide) rfl (whole (below 6 (by decide))),
    atomicDone_of_integer 7 rfl (by decide) rfl (whole (below 7 (by decide))), atomicDone_of_integer 8 rfl (by decide) rfl (whole hy)⟩

/-! ### Compare and swap at sizes w and d (R204) -/

theorem atomNew_cas {n : Nat} (h16 : n < 16) (s : State) (m : Nat) (x e : Cap) :
    atomNew 9 n { bits := BitVec.ofNat 128 (bytesAt s m n), tag := false } x e
      = if bytesAt s m n = e.bits.toNat % 2 ^ (8 * n) then some x else none := by
  rw [atomNew, if_neg (by decide), if_pos rfl, if_neg (by omega), bytesAt_bits _ _ _ (by omega)]

/-- CAS at a size below q, where the old value equals the one expected and where it does not. -/
theorem atomicDone_cas {s : State} {d a b : BitVec 5} {z o c : BitVec 2} (hz : z ≠ 2) (hz3 : z ≠ 3)
    (h : Passes s a (s.x a) (atomBytes z) [.r, .w] (accessOf s (s.x a) (atomBytes z) true true true)) (aligned : (s.x a).toNat % atomBytes z = 0) :
    let v := bytesAt s (s.localAddr (s.x a).toNat) (atomBytes z)
    AtomicDone (.cas d a b z o c) s (accessOf s (s.x a) (atomBytes z) true true true) o c (gSet s d (int (signedAt (8 * atomBytes z) v)))
      (if v = (s.x d).toNat % 2 ^ (8 * atomBytes z) then some ((s.x b).toNat % 2 ^ (8 * atomBytes z), false) else none) := by
  intro v
  have n8 : atomBytes z ≤ 8 := by have := atomBytes_narrow hz hz3; omega
  have new := atomNew_cas (n := atomBytes z) (by omega) s (s.localAddr (s.x a).toNat) (s.g b) (s.g d)
  rw [low_bits s d _ n8] at new
  have cas := fun N => rmw_done (N := N) hz hz3 (exec_cas s d a b z o c) (by decide) h.1 aligned h.2
  rw [if_neg (show ¬(9 = 6 ∨ 9 = 7 ∨ 9 = 10) by decide)] at cas
  by_cases equal : v = (s.x d).toNat % 2 ^ (8 * atomBytes z)
  · rw [if_pos equal] at new ⊢
    rw [new] at cas
    exact cas (some _) ⟨_, rfl, fun k hk => by rw [← low_bits s b _ n8]; exact byte_mod _ _ k hk⟩
  · rw [if_neg equal] at new ⊢
    rw [new] at cas
    exact cas none rfl

theorem compareAndSwap : Claims.CompareAndSwap := by
  intro s d a b z o c n w ea x v h aligned
  obtain ⟨two, three⟩ := z_ne z
  have size : n = atomBytes (z.setWidth 2) := (atomBytes_w z).symm
  have cas := atomicDone_cas (s := s) (d := d) (a := a) (b := b) (o := o) (c := c) two three
  rw [← size] at cas
  exact cas h aligned

/-! ### Size q (R198, R204) -/

/-- What a size-q atomic puts into memory: the value it stores, with the tag that R198 leaves it. -/
theorem puts_q {s : State} {m : Nat} {acc : Acc} (op : Nat) (v x e : Cap) (ea : U64) (place : acc.addr = m) (size : acc.size = 16) (aligned : m % 16 = 0)
    (clear : s.accErr acc = none) :
    Puts s (aPut 16 m (aNew s op 16 v x e ea)) acc ((atomNew op 16 v x e).map fun y => (y.bits.toNat, storeTag s y ea)) := by
  subst place
  unfold aNew
  cases atomNew op 16 v x e with
  | none => exact puts_none s 16 acc.addr acc
  | some y =>
    have stored : ({ y with tag := y.tag && (16 == 16) } : Cap) = y := by rw [beq_self_eq_true, Bool.and_true]
    rw [Option.map_some, Option.map_some, stored, storedTag_eq]
    exact puts_cap s acc { y with tag := storeTag s y ea } size aligned clear

section
variable {s : State} {i : Instr} {d a : BitVec 5} {x e : Cap} {o c : BitVec 2} (op : Nat)

/-- A size-q atomic: it stores by its function of the old value, and its register gets that value as LC would load it; STL writes none. -/
theorem atomicDone_q {new : Option Cap} {g : BitVec 5 → Cap} (hi : exec i s = s.atomicHome op d a x e 2 o c false)
    (h : Passes s a (s.x a) 16 (atomNeeds op) (accessOf s (s.x a) 16 (op != 12) (op != 11) true)) (aligned : (s.x a).toNat % 16 = 0)
    (allowed : op ≠ 11 → scOk s (s.g a) x (s.x a)) (hnew : atomNew op 16 (capOf s (s.localAddr (s.x a).toNat)) x e = new)
    (hg : (if op = 12 then s.g else gSet s d { capOf s (s.localAddr (s.x a).toNat) with
      tag := loadTag s (s.g a) (capOf s (s.localAddr (s.x a).toNat)) (s.x a) }) = g) :
    AtomicDone i s (accessOf s (s.x a) 16 (op != 12) (op != 11) true) o c g (new.map fun y => (y.bits.toNat, storeTag s y (s.x a))) := by
  have old : aOld s (atomBytes 2) (s.localAddr (s.x a).toNat) = capOf s (s.localAddr (s.x a).toNat) := capAt_eq s _
  refine atomicIn_of_home (z := 2) hi h aligned (fun _ => allowed) ?_ ?_
  · rw [old, ← hnew]
    exact puts_q op _ x e (s.x a) rfl rfl (localAddr_mod aligned) h.2.2
  · by_cases stl : op = 12
    · exact .inl ⟨stl, hg.symm.trans (if_pos stl)⟩
    · refine .inr ⟨_, fun t same => ?_, hg.symm.trans (if_neg stl)⟩
      rw [old, State.atomPut, if_neg stl, if_pos (show atomBytes 2 = 16 from rfl), loadedTag_eq' same]

/-- A size-q atomic that the rule of SC refuses traps before anything else of it. -/
theorem exec_atomic_refused {t : State} (hi : exec i s = s.atomicHome op d a x e 2 o c false) (h11 : op ≠ 11)
    (h : Passes s a (s.x a) 16 (atomNeeds op) (accessOf s (s.x a) 16 (op != 12) (op != 11) true)) (aligned : (s.x a).toNat % 16 = 0)
    (refused : s.scRule (s.g a) x (s.x a) (s.rightC (s.localAddr (s.x a).toNat)) = .error t) : exec i s = .next t := by
  obtain ⟨auth, near, clear⟩ := h
  have here : s.accErr (s.acc (s.localAddr (s.x a).toNat) 16 (op != 12) (op != 11) true) = none := clear
  have value : (if atomBytes 2 = 16 && op != 11 then x else x.untag) = x := if_pos (by simp [h11, atomBytes])
  rw [hi, State.atomicHome]
  simp only [show atomBytes 2 = 16 from rfl] at value ⊢
  simp only [capCheck_ok (al := true) auth (fun _ => aligned), site_here near, here, value, refused]
  rfl
end

/-- Whatever the old value, what an atomic of size q other than CAS and LDA stores is its operand (R204). -/
theorem atomNew_operand_q {op : Nat} (h9 : op ≠ 9) (h11 : op ≠ 11) (v x e : Cap) : atomNew op 16 v x e = some x := by
  rw [atomNew, if_neg h11, if_neg h9, if_pos rfl]
theorem atomNew_cas_q (v x e : Cap) : atomNew 9 16 v x e = if v = e then some x else none := by
  rw [atomNew, if_neg (by decide), if_pos rfl, if_pos rfl]
  simp only [beq_iff_eq]

/-- Settles O17: AMOSWAP stores its operand, and CAS where bits and tag are those expected. -/
theorem atomicCapability : Obligations.atomic_capability := by
  intro s d a b o c ea x v old new h aligned allowed
  refine ⟨atomicDone_q 8 (exec_amoswap s d a b 2 o c) h aligned (fun _ => allowed) (atomNew_operand_q (by decide) (by decide) _ _ _) (if_neg (by decide)), ?_⟩
  have cas := atomicDone_q 9 (exec_cas s d a b 2 o c) h aligned (fun _ => allowed) (atomNew_cas_q _ _ _) (if_neg (by decide))
  rwa [apply_ite (Option.map _)] at cas

/-- Settles O19: the rule of SC comes before the old value is read. -/
theorem atomicTagTraps : Obligations.atomic_tag_traps := by
  intro s d a b o c ea x right h aligned tagged
  have refused : ∀ t, s.scRule (s.g a) (s.g b) ea (s.rightC (s.localAddr ea.toNat)) = .error t →
      exec (.amoswap d a b 2 o c) s = .next t ∧ exec (.cas d a b 2 o c) s = .next t := fun t ht =>
    ⟨exec_atomic_refused 8 (exec_amoswap s d a b 2 o c) (by decide) h aligned ht, exec_atomic_refused 9 (exec_cas s d a b 2 o c) (by decide) h aligned ht⟩
  refine ⟨fun perm => refused _ (scRule_noPermission tagged perm _), fun perm noRight => refused _ ?_⟩
  have none : s.rightC (s.localAddr ea.toNat) = false := (rightC_eq s _).trans noRight
  rw [none, scRule_noRight tagged perm]

/-! ### LDA and STL (R204, R206) -/

theorem aOld_narrow {n : Nat} (h : n < 16) (s : State) (m : Nat) : aOld s n m = { bits := BitVec.ofNat 128 (bytesAt s m n), tag := false } := by
  rw [aOld, if_neg (by omega), loadN_bytesAt]

section
variable {s : State} {d a : BitVec 5} {z : BitVec 2} {o : BitVec 1} {c : BitVec 2} (two : z ≠ 2) (three : z ≠ 3)
  (aligned : (s.x a).toNat % atomBytes z = 0)
include two three aligned

theorem atomicDone_lda (h : Passes s a (s.x a) (atomBytes z) [.r] (accessOf s (s.x a) (atomBytes z) true false true)) :
    AtomicDone (.lda d a z o c) s (accessOf s (s.x a) (atomBytes z) true false true) (o.setWidth 2) c
      (gSet s d (int (signedAt (8 * atomBytes z) (bytesAt s (s.localAddr (s.x a).toNat) (atomBytes z))))) none := by
  have size := atomBytes_narrow two three
  refine atomicIn_of_home (exec_lda s d a z c o) h aligned (fun _ load => absurd rfl load) (puts_none s _ _ _) (.inr ⟨_, fun t _ => ?_, rfl⟩)
  have returned := atomRet_eq 11 (atomBytes z) _ size (bytesAt_lt_two_pow s (s.localAddr (s.x a).toNat) (atomBytes z))
  rw [if_neg (show ¬(11 = 6 ∨ 11 = 7 ∨ 11 = 10) by decide)] at returned
  rw [State.atomPut, if_neg (by decide), if_neg (by omega), State.wr, aOld_narrow (by omega), bytesAt_bits _ _ _ (by omega), returned]

theorem atomicDone_stl (h : Passes s a (s.x a) (atomBytes z) [.w] (accessOf s (s.x a) (atomBytes z) false true true)) :
    AtomicDone (.stl d a z o c) s (accessOf s (s.x a) (atomBytes z) false true true) (if o = 1 then 2 else 0) c s.g
      (some ((s.g d).bits.toNat % 2 ^ (8 * atomBytes z), false)) := by
  have size := atomBytes_narrow two three
  refine atomicIn_of_home (exec_stl s d a z c o) h aligned (fun q => by omega) ?_ (.inl ⟨rfl, rfl⟩)
  rw [aOld_narrow (by omega), aNew, atomNew_value (by decide) (by decide) (by omega)]
  exact puts_data s (accessOf s (s.x a) (atomBytes z) false true true) _ _ (show 0 < atomBytes z by omega) (show atomBytes z < 16 by omega) h.2.2
    fun k (hk : k < atomBytes z) => ofNat_byte _ k (by omega)
end

/-- Settles O18: at size q and at the sizes below. -/
theorem atomicLoadStore : Obligations.atomic_load_store := by
  intro s d a z o c n w ea xl xs v three aligned
  by_cases two : z = 2
  · subst two
    refine ⟨fun h => atomicDone_q 11 (exec_lda s d a 2 c o) h aligned (fun load => absurd rfl load) (if_pos rfl) (if_neg (by decide)), fun h allowed => ?_⟩
    have store := atomicDone_q 12 (exec_stl s d a 2 c o) h aligned (fun _ => allowed rfl) (atomNew_operand_q (by decide) (by decide) _ _ _) (if_pos rfl)
    have whole : (s.g d).bits.toNat % 2 ^ w = (s.g d).bits.toNat := Nat.mod_eq_of_lt (s.g d).bits.isLt
    have tag : decide ((2 : BitVec 2) = 2 ∧ storeTag s (s.g d) ea = true) = storeTag s (s.g d) ea := by simp
    rw [whole, tag]
    exact store
  · rw [if_neg two, decide_eq_false (fun both => two both.1)]
    exact ⟨atomicDone_lda two three aligned, fun h _ => atomicDone_stl two three aligned h⟩

end Sys2Proof
end

section
/-! SUPPORT. AMOFADD, and the groups that meet in routers (R131, R132, R204, R205). -/
namespace Sys2Proof
open Machine Claims

/-! ### An FP32 sum has 32 bits (R213, R215) -/

/-- Numerator and denominator scaled by a power of two, compared as the rationals that they are. -/
theorem scaled_lt_iff (num den c : Nat) (q : Int) : scaleNum num (-q) < c * (den * scaleNum 1 q) ↔ (num : ℚ) < c * den * 2 ^ q := by
  unfold scaleNum
  rcases lt_trichotomy q 0 with neg | rfl | pos
  · obtain ⟨k, rfl⟩ : ∃ k : Nat, q = -k := ⟨q.natAbs, by omega⟩
    have hp : (0 : ℚ) < 2 ^ k := by positivity
    rw [if_pos (by omega), if_neg (by omega), neg_neg, Int.toNat_natCast, zpow_neg, zpow_natCast, ← div_eq_mul_inv, lt_div_iff₀ hp, mul_one]
    exact_mod_cast Iff.rfl
  · simp only [neg_zero, le_refl, if_true, Int.toNat_zero, pow_zero, mul_one, zpow_zero]
    exact_mod_cast Iff.rfl
  · obtain ⟨k, rfl⟩ : ∃ k : Nat, q = k := ⟨q.natAbs, by omega⟩
    rw [if_neg (by omega), if_pos (by omega), Int.toNat_natCast, one_mul, zpow_natCast, mul_assoc]
    exact_mod_cast Iff.rfl

/-- The highest bit of a quotient bounds it. -/
theorem lt_ratLog2 (num : Nat) {den : Nat} (hd : 0 < den) : (num : ℚ) < den * 2 ^ (ratLog2 num den + 1) := by
  unfold ratLog2
  dsimp only
  split
  · rename_i below
    have := (scaled_lt_iff num den 1 _).1 (by rwa [Nat.one_mul])
    rwa [Nat.cast_one, one_mul, ← sub_add_cancel ((Nat.log2 num : Int) - Nat.log2 den) 1] at this
  · have top : (num : ℚ) < 2 ^ (Nat.log2 num + 1) := by exact_mod_cast Nat.lt_log2_self
    have least : (2 : ℚ) ^ Nat.log2 den ≤ den := by exact_mod_cast Nat.log2_self_le hd.ne'
    calc (num : ℚ) < 2 ^ (Nat.log2 num + 1) := top
      _ = 2 ^ Nat.log2 den * 2 ^ ((Nat.log2 num : Int) - Nat.log2 den + 1) := by
        rw [← zpow_natCast, ← zpow_natCast, ← zpow_add₀ two_ne_zero]
        congr 1
        push_cast
        ring
      _ ≤ den * 2 ^ ((Nat.log2 num : Int) - Nat.log2 den + 1) := by gcongr

theorem roundQuot_le {mode : RMode} {neg : Bool} {num den c : Nat} (h : num < c * den) : (roundQuot mode neg num den).1 ≤ c := by
  have below : num / den < c := Nat.div_lt_of_lt_mul (by rwa [Nat.mul_comm])
  have either : ∀ up : Bool, (if up then num / den + 1 else num / den) ≤ c := fun up => by split <;> omega
  exact either _

theorem pack_lt (neg : Bool) {m : Nat} {q : Int} (hm : m ≤ 2 ^ 24) (lo : -149 ≤ q) (hi : q ≤ 104) (top : m = 2 ^ 24 → q < 104) :
    Fmt.f32.pack neg m q < 2 ^ 32 := by
  have sign : (if neg then 2 ^ (8 + 23) else 0) ≤ 2 ^ 31 := by cases neg <;> decide
  unfold Fmt.pack
  simp only [show Fmt.f32.ew = 8 from rfl, show Fmt.f32.mw = 23 from rfl, show Fmt.f32.bias = 127 from rfl]
  split
  · omega
  · split
    · rename_i carry
      have := top carry
      omega
    · omega

theorem overflowBits_lt (mode : RMode) (neg : Bool) : overflowBits .f32 mode neg < 2 ^ 32 := by
  cases mode <;> cases neg <;> decide

theorem roundRat_lt (mode : RMode) (neg : Bool) (num : Nat) {den : Nat} (hd : 0 < den) : (roundRat .f32 mode neg num den).1 < 2 ^ 32 := by
  unfold roundRat
  dsimp only
  have bits : ratLog2 num den + 1 ≤ max (ratLog2 num den - Fmt.f32.mw) Fmt.f32.minQ + 24 := by
    have : (Fmt.f32.mw : Int) = 23 := rfl
    omega
  have least : -149 ≤ max (ratLog2 num den - Fmt.f32.mw) Fmt.f32.minQ := le_max_right _ _
  generalize max (ratLog2 num den - Fmt.f32.mw) Fmt.f32.minQ = q at *
  have small : scaleNum num (-q) < 2 ^ 24 * (den * scaleNum 1 q) := by
    rw [scaled_lt_iff]
    calc (num : ℚ) < den * 2 ^ (ratLog2 num den + 1) := lt_ratLog2 num hd
      _ ≤ den * 2 ^ (q + 24) := by gcongr; norm_num
      _ = (2 ^ 24 : Nat) * den * 2 ^ q := by rw [zpow_add₀ two_ne_zero]; push_cast; ring
  have rounded := roundQuot_le (mode := mode) (neg := neg) small
  generalize (roundQuot mode neg (scaleNum num (-q)) (den * scaleNum 1 q)).1 = m at *
  split
  · exact overflowBits_lt mode neg
  · rename_i fits
    simp only [Bool.or_eq_true, Bool.and_eq_true, decide_eq_true_eq, not_or, not_and, show Fmt.f32.maxQ = 104 by decide, show Fmt.f32.maxM = 2 ^ 24 - 1 by decide] at fits
    exact pack_lt neg rounded least (by omega) fun carry => by have := mt fits.2; omega

theorem fadd_lt (x y : Nat) : fadd x y < 2 ^ 32 := by
  show (roundVal .f32 .rne (addVal .rne (Fmt.f32.decode x) (Fmt.f32.decode y)).1).1 < 2 ^ 32
  cases (addVal .rne (Fmt.f32.decode x) (Fmt.f32.decode y)).1 with
  | nan q => exact (by decide : Fmt.f32.nan < 2 ^ 32)
  | inf n => cases n <;> decide
  | fin n m e =>
    unfold roundVal
    dsimp only
    split
    · cases n <;> decide
    · exact roundRat_lt .rne n _ (scaleDen_pos e)

/-! ### A group reaches its location (R132) -/

theorem SamePlaces.foldl {α : Type} {f : State → α → State} (hf : ∀ t x, SamePlaces t (f t x)) (l : List α) (s : State) : SamePlaces s (l.foldl f s) := by
  induction l generalizing s with
  | nil => exact .refl s
  | cons x l ih => exact (hf s x).trans' (ih _)
theorem SamePlaces.putSlot (s : State) (x : Slot) : SamePlaces s (s.putSlot x) := by
  unfold State.putSlot
  split <;> exact ⟨fun _ => rfl, fun _ => rfl, rfl, rfl, rfl⟩
theorem SamePlaces.routedReply (s : State) (m : Routed) (v : Nat) : SamePlaces s (s.routedReply m v) := by
  unfold State.routedReply
  dsimp only
  split
  · exact SamePlaces.putSlot s _
  · exact .refl s

/-- Bytes that are those of a number, as one number. -/
theorem bytesAt_of_byteAt {s : State} : ∀ {n a v : Nat}, v < 256 ^ n → (∀ k, k < n → s.byteAt (a + k) = BitVec.ofNat 8 (v / 256 ^ k)) →
    bytesAt s a n = v
  | 0, _, v, hv, _ => by rw [bytesAt]; omega
  | n + 1, a, v, hv, h => by
    have rest : bytesAt s (a + 1) n = v / 256 := by
      refine bytesAt_of_byteAt (by rw [Nat.pow_succ] at hv; omega) fun k hk => ?_
      rw [show a + 1 + k = a + (k + 1) by omega, h (k + 1) (by omega), Nat.div_div_eq_div_mul, Nat.pow_succ, Nat.mul_comm]
    have low := h 0 (by omega)
    rw [Nat.add_zero, Nat.pow_zero, Nat.div_one] at low
    rw [bytesAt, rest, low, BitVec.toNat_ofNat]
    omega

theorem mergedAdds : Claims.MergedAdds := by
  intro s m l present sum
  have added : ∀ v, amoNew 10 4 v sum = fadd v sum := fun _ => rfl
  obtain ⟨-, bytes, -⟩ := storeData_spec s m.acc.addr 4 (amoNew 10 4 (s.loadN m.acc.addr 4) sum) (by decide) (by decide) present
  have same : SamePlaces (s.storeData m.acc.addr 4 (amoNew 10 4 (s.loadN m.acc.addr 4) sum)) (s.routedApply (m :: l)) :=
    (SamePlaces.foldl (fun t (r : Routed) => (Noted.monitorPost t r.acc).same) (m :: l) _).trans'
      (SamePlaces.foldl (fun t (r : Routed × Nat) => SamePlaces.routedReply t r.1 r.2) (routedValues (s.loadN m.acc.addr 4) (m :: l)) _)
  rw [added, loadN_bytesAt] at *
  exact bytesAt_of_byteAt (fadd_lt _ _) fun k hk => (same.byteAt _).trans (bytes k hk)

/-! ### AMOFADD (R131, R204, R205) -/

/-- A register's low 32 bits are those of its address. -/
theorem addr_mod_word (x : Cap) : x.addr.toNat % 2 ^ 32 = x.bits.toNat % 2 ^ 32 := by
  rw [Cap.addr, BitVec.extractLsb'_toNat, Nat.shiftRight_zero, Nat.mod_mod_of_dvd _ (by decide)]

/-- AMOFADD at its home, in a state in which it has met no other. -/
theorem atomicIn_amofadd {r0 s : State} {i : Instr} {d a : BitVec 5} {x : Cap} {o c : BitVec 2} (hi : exec i r0 = s.atomicHome 10 d a x .zero 0 o c false)
    (h : Passes s a (s.x a) 4 [.r, .w] (accessOf s (s.x a) 4 true true true)) (aligned : (s.x a).toNat % 4 = 0) :
    let v := bytesAt s (s.localAddr (s.x a).toNat) 4
    AtomicIn i r0 s (accessOf s (s.x a) 4 true true true) o c (gSet s d (int v)) (some (fadd v (x.addr.toNat % 2 ^ 32), false)) := by
  have done := atomicIn_of_value (z := 0) (by decide) (by decide) hi (by decide) (by decide) h aligned
  dsimp only at done
  rw [if_pos (show 10 = 6 ∨ 10 = 7 ∨ 10 = 10 by decide), show atomBytes 0 = 4 from rfl, ← addr_mod_word] at done
  exact done

/-- The group that an AMOFADD has joined is one of the groups: the others of its address with it behind them, or it alone. -/
theorem mem_joined (groups : List (List Routed)) (here : List Routed → Bool) (m : Routed) :
    ∃ l k, k ++ [m] = l ∧ l ∈ (if groups.any here then groups.map (fun l => if here l then l ++ [m] else l) else groups ++ [[m]])
      ∧ (k = [] ∨ k ∈ groups) := by
  split
  · rename_i some_here
    obtain ⟨k, mem, at_k⟩ := List.any_eq_true.1 some_here
    exact ⟨_, k, rfl, List.mem_map.2 ⟨k, mem, if_pos at_k⟩, .inr mem⟩
  · exact ⟨_, [], rfl, by simp, .inl rfl⟩

section
variable {s : State} {d a b : BitVec 5} {c : BitVec 2}

/-- A relaxed AMOFADD with none of its own on the way: the router's choice decides (log 12). -/
theorem exec_amofadd_relaxed (idle : s.self.sent = []) (near : s.remoteOf (s.x a).toNat = none) : exec (.amofadd d a b 0 c) s =
    if Config.merged s.free then s.atomicHome 10 d a (s.g b) .zero 0 0 c true
    else ({ s.routersEmpty with free := s.free + 1 } : State).atomicHome 10 d a (s.g b) .zero 0 0 c false := by
  show s.atomic 10 d a (s.g b) .zero 0 0 c = _
  rw [State.atomic, if_pos (by rfl), site_here near]
  simp only [idle]
  rfl

/-- One that meets others joins them, past its checks. -/
theorem atomicHome_routes {x : Cap} (h : Passes s a (s.x a) 4 [.r, .w] (accessOf s (s.x a) 4 true true true)) (aligned : (s.x a).toNat % 4 = 0) :
    s.atomicHome 10 d a x .zero 0 0 c true = .next (s.route (accessOf s (s.x a) 4 true true true) (x.bits.setWidth 32)) := by
  obtain ⟨auth, near, clear⟩ := h
  have here : s.accErr (s.acc (s.localAddr (s.x a).toNat) 4 true true true) = none := clear
  have passes := accCheck_ok (ea := s.x a) here
  have rule : s.scRule (s.g a) (if (4 = 16 : Bool) && 10 != 11 then x else x.untag) (s.x a) (s.rightC (s.localAddr (s.x a).toNat)) = .ok () :=
    scRule_ok (scOk_untag s _ x _)
  have check := capCheck_ok (al := true) auth (fun _ => aligned)
  rw [State.atomicHome]
  simp only [show atomBytes 0 = 4 from rfl, show atomNeeds 10 = [.r, .w] from rfl, check, site_here near]
  have here : s.accErr (s.acc (s.localAddr (s.x a).toNat) 4 (10 != 12) (10 != 11) true) = none := clear
  have passes := accCheck_ok (ea := s.x a) here
  simp only [here, rule, passes]
  rfl
end

/-- What one that meets others leaves: its record, itself in its group, and the wait for its answer. -/
theorem route_leaves (s : State) (x : Acc) (v : U32) (idle : s.self.sent = []) (hf : x.fetch = false) (hn : 0 < x.size) :
    Holds s { s.route x v with self := { (s.route x v).self with sent := [] } } s.g s.v s.p s.self.flags
      ∧ (s.route x v).self.sent = [s.nextTxn] ∧ (s.route x v).self.park = .reply ∧ (s.route x v).self.pcc = s.self.pcc
      ∧ (s.route x v).self.winDone = s.self.winDone ∧ Recorded s (s.route x v) x
      ∧ (∃ l m, m ++ [{ core := s.self.core, idx := s.self.idx, txn := s.nextTxn, acc := x, operand := v }] = l ∧ l ∈ (s.route x v).routed
        ∧ (m = [] ∨ m ∈ s.routed))
      ∧ ∀ a, (s.route x v).byteAt a = s.byteAt a ∧ (s.route x v).tagAt a = s.tagAt a := by
  have same : SamePlaces s (s.route x v) := (Committed.commit s x).same.trans' ⟨fun _ => rfl, fun _ => rfl, rfl, rfl, rfl⟩
  obtain ⟨r, bh, k, dl, tr, o, e, -⟩ := Committed.commit s x
  have slot : (s.route x v).self = { s.self with sent := s.self.sent ++ [s.nextTxn], park := .reply } := by
    show ({ (s.commit x).self with sent := (s.commit x).self.sent ++ [s.nextTxn], park := .reply } : Slot) = _
    rw [e]
  refine ⟨?_, ?_, ?_, ?_, ?_, recorded s x hf hn _ (commit_recs s x), mem_joined s.routed _ _, fun a => ⟨same.byteAt a, same.tagAt a⟩⟩
  · refine ⟨fun n => ?_, fun n => ?_, fun n => ?_, ?_, ?_⟩
    · show Slot.getG _ n = _; rw [slot]; rfl
    · show Slot.getV _ n = _; rw [slot]; rfl
    · show Slot.getP _ n = _; rw [slot]; rfl
    · rw [slot]
    · rw [slot]
      dsimp only
      generalize s.self = y at idle
      cases y
      subst idle
      rfl
  · rw [slot, idle]; rfl
  all_goals rw [slot]

/-- The answer of a router is there: the request is off the list, and so are the replies. -/
theorem exchange_answered {s : State} {n : Nat} {r : Reply} (sent : s.self.sent = [n]) (reply : s.self.replies.find? (fun q => q.txn == n) = some r) :
    s.exchange [] = .ok ({ s with self := { s.self with sent := [], replies := [] } }, [r]) := by
  rw [State.exchange]
  simp [sent, reply]
  rfl

theorem Alike.noteWatch (s : State) (x : Acc) (m : Pred) : Alike s (s.noteWatch x m) := by
  rw [noteWatch_eq]
  exact ⟨⟨_, _, rfl, rfl⟩, rfl, rfl, ⟨[], rfl⟩, fun _ => rfl, rfl, fun _ => rfl⟩

/-- One that has been in a router ends with its answer. -/
theorem routedEnd_leaves {s : State} {n : Nat} {r : Reply} {d : BitVec 5} {x : Acc} (sent : s.self.sent = [n])
    (reply : s.self.replies.find? (fun q => q.txn == n) = some r) :
    Holds { s with self := { s.self with sent := [], replies := [] } } (s.routedEnd d x) (gSet s d (int (r.value.addr.toNat % 2 ^ 32))) s.v s.p
        s.self.flags
      ∧ Retired s (s.routedEnd d x) ∧ Watched s (s.routedEnd d x) x 0 ∧ s.routedEnd d x = { s with self := (s.routedEnd d x).self } := by
  have value : ({ bits := 0#64 ++ (r.value.addr.setWidth 32).setWidth 64, tag := false } : Cap) = int (r.value.addr.toNat % 2 ^ 32) := by
    have word : (r.value.addr.setWidth 32).setWidth 64 = cut (r.value.addr.toNat % 2 ^ 32) := by
      rw [cut, show ((r.value.addr.toNat : Int) % 2 ^ 32) = ((r.value.addr.toNat % 2 ^ 32 : Nat) : Int) from rfl, BitVec.ofInt_natCast]
      apply BitVec.eq_of_toNat_eq
      rw [BitVec.toNat_setWidth, BitVec.toNat_setWidth, BitVec.toNat_ofNat]
    rw [word, int]
  have ends : s.routedEnd d x = (((({ s with self := { s.self with sent := [], replies := [] } } : State).noteWatch x 0)).setG d
      (int (r.value.addr.toNat % 2 ^ 32))).retire := by
    rw [State.routedEnd, exchange_answered sent reply]
    dsimp only
    rw [wr_eq, value]
  have watched := noteWatch_watched s { s with self := { s.self with sent := [], replies := [] } } x 0 (watched_eq _ _ x rfl rfl) rfl rfl
  have alike := Alike.noteWatch { s with self := { s.self with sent := [], replies := [] } } x 0
  have frame := noteWatch_eq { s with self := { s.self with sent := [], replies := [] } } x 0
  rw [ends]
  generalize State.noteWatch _ x 0 = t at *
  obtain ⟨holds, retired⟩ := holds_retire0 alike
  refine ⟨holds_setG holds, ?_⟩
  obtain ⟨g, shape⟩ := setG_shape t d (int (r.value.addr.toNat % 2 ^ 32))
  rw [shape]
  refine ⟨retired, watched, ?_⟩
  rw [frame]
  rfl

/-- AMOFADD: at its home, joined with others in a router, and answered by one. -/
theorem floatAdd : Claims.FloatAdd := by
  intro s d a b o c ea f y u fu
  refine ⟨fun ordered h aligned => ?_, fun idle h hu aligned alignedu => ?_, fun n r sent reply near => ?_⟩
  · exact atomicIn_amofadd (atomic_home (op := 10) (.inr ordered)) h aligned
  · have runs := exec_amofadd_relaxed (d := d) (b := b) (c := c) idle h.2.1
    split at runs
    · have operand : (s.g b).bits.setWidth 32 = BitVec.ofNat 32 y := by
        apply BitVec.eq_of_toNat_eq
        rw [BitVec.toNat_setWidth, BitVec.toNat_ofNat, ← addr_mod_word]
        exact (Nat.mod_mod _ _).symm
      rw [atomicHome_routes h aligned, operand] at runs
      exact .inr ⟨_, runs, route_leaves s f _ idle rfl (Nat.succ_pos 3)⟩
    · exact .inl (atomicIn_amofadd runs hu alignedu)
  · refine ⟨_, ?_, routedEnd_leaves sent reply⟩
    show s.atomic 10 d a (s.g b) .zero 0 0 c = _
    rw [State.atomic, if_pos (by rfl), site_here near]
    simp [sent]
    rfl

/-- Settles O16: CAS, AMOFADD, and what a group of AMOFADDs does to its location. -/
theorem atomicCompare : Obligations.atomic_compare := ⟨compareAndSwap, floatAdd, mergedAdds⟩

end Sys2Proof
end

section
/-! SUPPORT. Rounding (R213, R215, R216): the fields of a format's finite values, the grid that they lie on, what a choice on that grid rounds;
then rounding of a rational, and the sum, product, fused product and quotient that round once. -/
namespace Sys2Proof
open Machine Claims

/-! ### The fields of a finite value (R213) -/

/-- What R213's formats have in common: a mantissa bit, and exponent fields for subnormals, normals and what is not finite. -/
theorem fmt_fields {f : Fmt} (hf : f ∈ fmts) : 1 ≤ f.mw ∧ 2 ≤ f.ew := by
  simp only [fmts, List.mem_cons, List.mem_nil_iff, or_false] at hf
  rcases hf with rfl | rfl | rfl | rfl | rfl <;> decide

theorem maxField_bounds {f : Fmt} (hf : f ∈ fmts) : 1 ≤ f.maxField ∧ f.maxField < 2 ^ f.ew ∧ (f.ieee = true → f.maxField + 1 < 2 ^ f.ew) := by
  have := Nat.pow_le_pow_right (n := 2) (by decide) (fmt_fields hf).2
  unfold Fmt.maxField
  cases f.ieee <;> simp <;> omega

theorem maxM_bounds {f : Fmt} (hf : f ∈ fmts) : 2 ^ f.mw ≤ f.maxM ∧ f.maxM < 2 ^ (f.mw + 1) ∧ (f.ieee = false → f.maxM + 1 < 2 ^ (f.mw + 1)) := by
  have := Nat.pow_le_pow_right (n := 2) (by decide) (fmt_fields hf).1
  unfold Fmt.maxM
  rw [Nat.pow_succ]
  cases f.ieee <;> simp <;> omega

/-- The fields of bits that are put together from a sign, an exponent field and a mantissa field. -/
theorem fields_of_bits (f : Fmt) (neg : Bool) {E M : Nat} (hE : E < 2 ^ f.ew) (hM : M < 2 ^ f.mw) :
    let b := f.zero neg + E * 2 ^ f.mw + M
    b % 2 ^ f.mw = M ∧ b / 2 ^ f.mw % 2 ^ f.ew = E ∧ b / 2 ^ (f.ew + f.mw) % 2 = neg.toNat ∧ b < 2 ^ f.width := by
  have shape : f.zero neg + E * 2 ^ f.mw + M = M + 2 ^ f.mw * (E + 2 ^ f.ew * neg.toNat) := by
    cases neg <;> simp [Fmt.zero, Nat.pow_add] <;> ring
  have high : (M + 2 ^ f.mw * (E + 2 ^ f.ew * neg.toNat)) / 2 ^ f.mw = E + 2 ^ f.ew * neg.toNat := by
    rw [Nat.add_mul_div_left _ _ (Nat.two_pow_pos _), Nat.div_eq_of_lt hM, Nat.zero_add]
  have sign : (E + 2 ^ f.ew * neg.toNat) / 2 ^ f.ew = neg.toNat := by
    rw [Nat.add_mul_div_left _ _ (Nat.two_pow_pos _), Nat.div_eq_of_lt hE, Nat.zero_add]
  have one := neg.toNat_lt
  dsimp only
  rw [shape]
  refine ⟨?_, ?_, ?_, ?_⟩
  · rw [Nat.add_mul_mod_self_left, Nat.mod_eq_of_lt hM]
  · rw [high, Nat.add_mul_mod_self_left, Nat.mod_eq_of_lt hE]
  · rw [Nat.add_comm f.ew, Nat.pow_add, ← Nat.div_div_eq_div_mul, high, sign, Nat.mod_eq_of_lt one]
  · calc M + 2 ^ f.mw * (E + 2 ^ f.ew * neg.toNat) < 2 ^ f.mw * (E + 2 ^ f.ew * neg.toNat + 1) := by rw [Nat.mul_succ]; omega
      _ ≤ 2 ^ f.mw * (2 ^ f.ew * 2) := Nat.mul_le_mul_left _ (by
        have : 2 ^ f.ew * neg.toNat ≤ 2 ^ f.ew * 1 := Nat.mul_le_mul_left _ (by omega)
        omega)
      _ = 2 ^ f.width := by rw [Fmt.width, Nat.pow_add, Nat.pow_add]; ring

/-- Bits of a finite value, read back. -/
theorem decode_of_fields {f : Fmt} (hf : f ∈ fmts) (neg : Bool) {E M : Nat} (hE : E ≤ f.maxField) (hM : M < 2 ^ f.mw)
    (top : E = f.maxField → 2 ^ f.mw + M ≤ f.maxM) :
    f.decode (f.zero neg + E * 2 ^ f.mw + M)
      = if E = 0 then .fin neg M f.minQ else .fin neg (2 ^ f.mw + M) ((E : Int) - f.bias - f.mw) := by
  obtain ⟨least, lt, ieee⟩ := maxField_bounds hf
  obtain ⟨-, -, nan⟩ := maxM_bounds hf
  obtain ⟨mant, expo, sign, -⟩ := fields_of_bits f neg (Nat.lt_of_le_of_lt hE lt) hM
  have neg_eq : decide (neg.toNat = 1) = neg := by cases neg <;> rfl
  unfold Fmt.decode
  dsimp only
  rw [mant, expo, sign, neg_eq]
  have finite : ¬(f.ieee = true ∧ E = 2 ^ f.ew - 1) := fun ⟨i, e⟩ => by have := ieee i; omega
  have number : ¬(¬f.ieee = true ∧ E = 2 ^ f.ew - 1 ∧ M = 2 ^ f.mw - 1) := fun ⟨i, e, m⟩ => by
    have := nan (by simpa using i)
    have := top (by omega)
    have := Nat.pow_succ 2 f.mw
    omega
  rw [if_neg finite, if_neg number]

/-- The exponent and the mantissa of a finite value lie within the format. -/
theorem finite_bounds {f : Fmt} (hf : f ∈ fmts) {b : Nat} {n : Bool} {m : Nat} {e : Int} (h : f.decode b = .fin n m e) :
    f.minQ ≤ e ∧ e ≤ f.maxQ ∧ m < 2 ^ (f.mw + 1) ∧ (e = f.maxQ → m ≤ f.maxM) := by
  have hM : b % 2 ^ f.mw < 2 ^ f.mw := Nat.mod_lt _ (Nat.two_pow_pos _)
  have hE : b / 2 ^ f.mw % 2 ^ f.ew < 2 ^ f.ew := Nat.mod_lt _ (Nat.two_pow_pos _)
  obtain ⟨least, -, -⟩ := maxField_bounds hf
  obtain ⟨mLeast, -, -⟩ := maxM_bounds hf
  have double := Nat.pow_succ 2 f.mw
  have topQ : f.maxQ = (f.maxField : Int) - f.bias - f.mw := rfl
  have lowQ : f.minQ = 1 - (f.bias : Int) - f.mw := rfl
  unfold Fmt.decode at h
  dsimp only at h
  generalize b % 2 ^ f.mw = M at h hM
  generalize b / 2 ^ f.mw % 2 ^ f.ew = E at h hE
  split at h
  · split at h <;> cases h
  · rename_i special
    split at h
    · cases h
    · rename_i number
      split at h
      · cases h
        omega
      · cases h
        have field : E ≤ f.maxField ∧ (E = f.maxField → 2 ^ f.mw + M ≤ f.maxM) := by
          unfold Fmt.maxField Fmt.maxM
          cases i : f.ieee <;> simp [i] at special number ⊢ <;> omega
        omega

/-- Bits put together from fields within the format denote the value of those fields, and end in the mantissa's last bit. -/
theorem finiteAt_of_fields {f : Fmt} (hf : f ∈ fmts) (neg : Bool) {E M : Nat} (hE : E ≤ f.maxField) (hM : M < 2 ^ f.mw)
    (top : E = f.maxField → 2 ^ f.mw + M ≤ f.maxM) :
    FiniteAt f (f.zero neg + E * 2 ^ f.mw + M)
      (valQ (if E = 0 then .fin neg M f.minQ else .fin neg (2 ^ f.mw + M) ((E : Int) - f.bias - f.mw)))
    ∧ (f.zero neg + E * 2 ^ f.mw + M) % 2 = M % 2 := by
  obtain ⟨-, lt, -⟩ := maxField_bounds hf
  obtain ⟨mw, ew⟩ := fmt_fields hf
  refine ⟨⟨(fields_of_bits f neg (Nat.lt_of_le_of_lt hE lt) hM).2.2.2, ?_⟩, ?_⟩
  · rw [decode_of_fields hf neg hE hM top]
    split <;> exact ⟨_, _, _, rfl, rfl⟩
  · have mantissa : 2 ∣ E * 2 ^ f.mw := dvd_mul_of_dvd_right (dvd_pow_self 2 (by omega)) E
    have sign : 2 ∣ f.zero neg := by
      cases neg
      · exact dvd_zero 2
      · exact dvd_pow_self 2 (by omega)
    omega

/-- Bits that are packed from a mantissa and an exponent within the format denote that value (R213). -/
theorem finiteAt_pack {f : Fmt} (hf : f ∈ fmts) (neg : Bool) {m : Nat} {q : Int} (low : f.minQ ≤ q) (normal : f.minQ < q → 2 ^ f.mw ≤ m)
    (carry : m ≤ 2 ^ (f.mw + 1)) (fits : q < f.maxQ ∨ (q = f.maxQ ∧ m ≤ f.maxM)) :
    FiniteAt f (f.pack neg m q) (valQ (.fin neg m q)) ∧ f.pack neg m q % 2 = m % 2 := by
  obtain ⟨mLeast, mLt, -⟩ := maxM_bounds hf
  have topQ : f.maxQ = (f.maxField : Int) - f.bias - f.mw := rfl
  have lowQ : f.minQ = 1 - (f.bias : Int) - f.mw := rfl
  have double : 2 ^ (f.mw + 1) = 2 ^ f.mw * 2 := Nat.pow_succ 2 f.mw
  have even : 2 ^ f.mw % 2 = 0 := Nat.mod_eq_zero_of_dvd (dvd_pow_self 2 (by have := (fmt_fields hf).1; omega))
  by_cases subnormal : m < 2 ^ f.mw
  · have atMin : q = f.minQ := by by_contra other; have := normal (by omega); omega
    have bits : f.pack neg m q = f.zero neg + 0 * 2 ^ f.mw + m := by unfold Fmt.pack; rw [if_pos subnormal]; simp [Fmt.zero]
    have fields := finiteAt_of_fields hf neg (Nat.zero_le _) subnormal (by have := (maxField_bounds hf).1; omega)
    rwa [if_pos rfl, ← atMin, ← bits] at fields
  · by_cases carried : m = 2 ^ (f.mw + 1)
    · have bits : f.pack neg m q = f.zero neg + (q + 1 + f.mw + f.bias).toNat * 2 ^ f.mw + 0 := by
        unfold Fmt.pack; rw [if_neg subnormal, if_pos carried]; simp [Fmt.zero]
      have fields := finiteAt_of_fields hf neg (E := (q + 1 + f.mw + f.bias).toNat) (by omega) (Nat.two_pow_pos f.mw) (fun _ => by omega)
      have value : valQ (.fin neg (2 ^ f.mw + 0) (q + 1)) = valQ (.fin neg m q) := by
        simp only [valQ]
        rw [carried, zpow_add₀ two_ne_zero, double]
        push_cast
        ring
      rw [if_neg (by omega), show ((q + 1 + f.mw + f.bias).toNat : Int) - f.bias - f.mw = q + 1 by omega, value, ← bits] at fields
      exact ⟨fields.1, fields.2.trans (by omega)⟩
    · have bits : f.pack neg m q = f.zero neg + (q + f.mw + f.bias).toNat * 2 ^ f.mw + (m - 2 ^ f.mw) := by
        unfold Fmt.pack; rw [if_neg subnormal, if_neg carried]; simp [Fmt.zero]
      have fields := finiteAt_of_fields hf neg (E := (q + f.mw + f.bias).toNat) (M := m - 2 ^ f.mw) (by omega) (by omega) (fun _ => by omega)
      rw [if_neg (by omega), show ((q + f.mw + f.bias).toNat : Int) - f.bias - f.mw = q by omega,
        show 2 ^ f.mw + (m - 2 ^ f.mw) = m by omega, ← bits] at fields
      exact ⟨fields.1, fields.2.trans (by omega)⟩

/-! ### The grid of a format around a value (R215) -/

theorem abs_valQ (n : Bool) (m : Nat) (e : Int) : |valQ (.fin n m e)| = m * (2 : ℚ) ^ e := by
  have sign : |if n = true then (-1 : ℚ) else 1| = 1 := by cases n <;> simp
  rw [valQ, abs_mul, abs_mul, sign, one_mul, Nat.abs_cast, abs_of_pos (by positivity : (0 : ℚ) < 2 ^ e)]

/-- No finite value lies beyond the largest. -/
theorem finite_le_largest {f : Fmt} (hf : f ∈ fmts) {b : Nat} {z : ℚ} (h : FiniteAt f b z) : |z| ≤ f.maxM * (2 : ℚ) ^ f.maxQ := by
  obtain ⟨-, n, m, e, read, rfl⟩ := h
  obtain ⟨-, high, mLt, top⟩ := finite_bounds hf read
  obtain ⟨mLeast, -, -⟩ := maxM_bounds hf
  rw [abs_valQ]
  rcases high.lt_or_eq with below | rfl
  · have twice : m ≤ f.maxM * 2 := by rw [Nat.pow_succ] at mLt; omega
    have step : e ≤ f.maxQ - 1 := by omega
    calc (m : ℚ) * 2 ^ e ≤ (f.maxM * 2 : Nat) * 2 ^ (f.maxQ - 1) := by gcongr; norm_num
      _ = f.maxM * 2 ^ f.maxQ := by rw [zpow_sub₀ two_ne_zero, zpow_one]; push_cast; ring
  · have := top rfl
    gcongr

/-- At the spacing 2 ^ q, a finite value is a whole number of steps, or lies below the first of the 2 ^ mw steps of normals. -/
theorem finite_on_grid {f : Fmt} (hf : f ∈ fmts) {b : Nat} {z : ℚ} (h : FiniteAt f b z) (q : Int) :
    (∃ k : Int, z = k * 2 ^ q) ∨ (f.minQ < q ∧ |z| < 2 ^ f.mw * (2 : ℚ) ^ q) := by
  obtain ⟨-, n, m, e, read, rfl⟩ := h
  obtain ⟨low, -, mLt, -⟩ := finite_bounds hf read
  by_cases coarse : q ≤ e
  · exact .inl ⟨finInt n m e q, (finInt_val n m e q coarse).symm⟩
  · refine .inr ⟨by omega, ?_⟩
    have step : e ≤ q - 1 := by omega
    rw [abs_valQ]
    calc (m : ℚ) * 2 ^ e < (2 ^ (f.mw + 1) : Nat) * 2 ^ e := by gcongr
      _ ≤ (2 ^ (f.mw + 1) : Nat) * 2 ^ (q - 1) := by gcongr; norm_num
      _ = 2 ^ f.mw * 2 ^ q := by rw [zpow_sub₀ two_ne_zero, zpow_one, Nat.pow_succ]; push_cast; ring

/-- What a mode asks of y, chosen for v, beside another candidate z; `even` says that y's last bit is 0 (R215). -/
def Chosen (mode : RMode) (even : Prop) (v y z : ℚ) : Prop :=
  match mode with
  | .rne => |y - v| ≤ |z - v| ∧ (z ≠ y → |z - v| = |y - v| → even)
  | .rtz => |y| ≤ |v| ∧ 0 ≤ y * v ∧ (|z| ≤ |v| → |z| ≤ |y|)
  | .rdn => y ≤ v ∧ (z ≤ v → z ≤ y)
  | .rup => v ≤ y ∧ (v ≤ z → y ≤ z)

theorem rounds_of_chosen {f : Fmt} {mode : RMode} {v y : ℚ} {b : Nat} (finite : FiniteAt f b y)
    (best : ∀ c z, FiniteAt f c z → Chosen mode (b % 2 = 0) v y z) : Rounds f mode v b := by
  refine ⟨y, finite, fun c z h => ?_⟩
  have := best c z h
  cases mode <;> exact this

/-- An integer to which a mode rounds lies within 1. -/
theorem roundsInt_near {mode : RMode} {w : ℚ} {n : Int} (h : RoundsInt mode w n) : |n - w| < 1 := by
  cases mode with
  | rne => exact lt_of_le_of_lt h.1 (by norm_num)
  | rtz =>
    obtain ⟨le, lt, same⟩ := h
    rw [abs_lt]
    cases abs_cases w <;> cases abs_cases (n : ℚ) <;> constructor <;> nlinarith
  | rdn => obtain ⟨le, lt⟩ := h; rw [abs_lt]; constructor <;> linarith
  | rup => obtain ⟨le, lt⟩ := h; rw [abs_lt]; constructor <;> linarith

/-- Among integers, the rounded one is chosen. -/
theorem chosen_int {mode : RMode} {w : ℚ} {n : Int} (h : RoundsInt mode w n) (k : Int) : Chosen mode (n % 2 = 0) w n k := by
  cases mode with
  | rne =>
    obtain ⟨half, tie⟩ := h
    by_cases same : k = n
    · rw [same]; exact ⟨le_refl _, fun ne => absurd rfl ne⟩
    · have apart : (1 : ℚ) ≤ |(k : ℚ) - n| := by exact_mod_cast Int.one_le_abs (sub_ne_zero.2 same)
      have triangle := abs_sub_le (k : ℚ) w n
      rw [abs_sub_comm w] at triangle
      exact ⟨by linarith, fun _ eq => tie (by linarith)⟩
  | rtz =>
    obtain ⟨le, lt, same⟩ := h
    refine ⟨le, same, fun within => ?_⟩
    have : |(k : ℚ)| < |(n : ℚ)| + 1 := lt_of_le_of_lt within lt
    have : |k| < |n| + 1 := by exact_mod_cast this
    exact_mod_cast Int.lt_add_one_iff.1 this
  | rdn =>
    obtain ⟨le, lt⟩ := h
    refine ⟨le, fun below => ?_⟩
    have : k < n + 1 := by exact_mod_cast lt_of_le_of_lt below lt
    exact_mod_cast Int.lt_add_one_iff.1 this
  | rup =>
    obtain ⟨le, lt⟩ := h
    refine ⟨le, fun above => ?_⟩
    have : n - 1 < k := by exact_mod_cast lt_of_lt_of_le lt above
    exact_mod_cast Int.sub_one_lt_iff.1 this

/-- A candidate nearer to 0 than an integer T, which w is not, cannot compete with the rounded integer. -/
theorem chosen_inner {mode : RMode} {w : ℚ} {n : Int} (h : RoundsInt mode w n) {T : Nat} {x : ℚ} (inner : |x| < T) (outer : T ≤ |w|) :
    Chosen mode (n % 2 = 0) w n x := by
  have up := chosen_int h T
  have down := chosen_int h (-T)
  push_cast at up down
  rw [abs_lt] at inner
  obtain ⟨xl, xu⟩ := inner
  rcases le_total 0 w with pos | neg
  · rw [abs_of_nonneg pos] at outer
    cases mode with
    | rne =>
      have farther : |(T : ℚ) - w| < |x - w| := by rw [abs_of_nonpos (by linarith), abs_of_nonpos (by linarith)]; linarith
      exact ⟨by linarith [up.1], fun _ eq => by linarith [up.1]⟩
    | rtz =>
      refine ⟨up.1, up.2.1, fun _ => ?_⟩
      have := up.2.2 (by rw [Nat.abs_cast, abs_of_nonneg pos]; exact outer)
      rw [Nat.abs_cast] at this
      exact le_trans (abs_le.2 ⟨by linarith, by linarith⟩) this
    | rdn => exact ⟨up.1, fun _ => by linarith [up.2 outer]⟩
    | rup => exact ⟨up.1, fun above => by linarith⟩
  · rw [abs_of_nonpos neg] at outer
    cases mode with
    | rne =>
      have farther : |-(T : ℚ) - w| < |x - w| := by rw [abs_of_nonneg (by linarith), abs_of_nonneg (by linarith)]; linarith
      exact ⟨by linarith [down.1], fun _ eq => by linarith [down.1]⟩
    | rtz =>
      refine ⟨down.1, down.2.1, fun _ => ?_⟩
      have := down.2.2 (by rw [abs_neg, Nat.abs_cast, abs_of_nonpos neg]; exact outer)
      rw [abs_neg, Nat.abs_cast] at this
      exact le_trans (abs_le.2 ⟨by linarith, by linarith⟩) this
    | rdn => exact ⟨down.1, fun below => by linarith⟩
    | rup => exact ⟨down.1, fun _ => by linarith [down.2 (by linarith)]⟩

/-- A choice scales with the step of the grid. -/
theorem Chosen.scale {mode : RMode} {even : Prop} {w n x u : ℚ} (hu : 0 < u) (h : Chosen mode even w n x) : Chosen mode even (w * u) (n * u) (x * u) := by
  have size : ∀ a : ℚ, |a * u| = |a| * u := fun a => by rw [abs_mul, abs_of_pos hu]
  cases mode with
  | rne =>
    obtain ⟨near, tie⟩ := h
    refine ⟨?_, fun ne eq => ?_⟩
    · rw [← sub_mul, ← sub_mul, size, size]; exact mul_le_mul_of_nonneg_right near hu.le
    · rw [← sub_mul, ← sub_mul, size, size] at eq
      exact tie (fun same => ne (by rw [same])) (mul_right_cancel₀ hu.ne' eq)
  | rtz =>
    obtain ⟨le, same, most⟩ := h
    refine ⟨?_, ?_, fun within => ?_⟩
    · rw [size, size]; exact mul_le_mul_of_nonneg_right le hu.le
    · rw [mul_mul_mul_comm]; exact mul_nonneg same (mul_pos hu hu).le
    · rw [size, size] at within ⊢
      exact mul_le_mul_of_nonneg_right (most (le_of_mul_le_mul_right within hu)) hu.le
  | rdn => exact ⟨mul_le_mul_of_nonneg_right h.1 hu.le, fun below => mul_le_mul_of_nonneg_right (h.2 (le_of_mul_le_mul_right below hu)) hu.le⟩
  | rup => exact ⟨mul_le_mul_of_nonneg_right h.1 hu.le, fun above => mul_le_mul_of_nonneg_right (h.2 (le_of_mul_le_mul_right above hu)) hu.le⟩

/-! ### Rounding a rational to a format (R215, R216) -/

/-- The highest bit of a quotient is at most the quotient. -/
theorem ratLog2_le_quotient {num : Nat} (hn : 0 < num) (den : Nat) : (den : ℚ) * 2 ^ ratLog2 num den ≤ num := by
  have top : (den : ℚ) < 2 ^ (Nat.log2 den + 1) := by exact_mod_cast Nat.lt_log2_self
  have least : (2 : ℚ) ^ Nat.log2 num ≤ num := by exact_mod_cast Nat.log2_self_le hn.ne'
  unfold ratLog2
  dsimp only
  split
  · calc (den : ℚ) * 2 ^ ((Nat.log2 num : Int) - Nat.log2 den - 1) ≤ 2 ^ (Nat.log2 den + 1) * 2 ^ ((Nat.log2 num : Int) - Nat.log2 den - 1) := by gcongr
      _ = 2 ^ Nat.log2 num := by
        rw [← zpow_natCast, ← zpow_natCast, ← zpow_add₀ two_ne_zero]
        congr 1
        push_cast
        ring
      _ ≤ num := least
  · rename_i above
    have := mt (scaled_lt_iff num den 1 _).2 (by rwa [Nat.one_mul])
    rw [Nat.cast_one, one_mul] at this
    exact not_lt.1 this

/-- A quotient in steps of 2 ^ q. -/
theorem scaled_quotient (num : Nat) {den : Nat} (hd : 0 < den) (q : Int) :
    (scaleNum num (-q) : ℚ) / (den * scaleNum 1 q : Nat) = num / den / 2 ^ q := by
  have hdq : (den : ℚ) ≠ 0 := by exact_mod_cast hd.ne'
  unfold scaleNum
  rcases lt_or_ge 0 q with pos | le
  · obtain ⟨k, rfl⟩ : ∃ k : Nat, q = k := ⟨q.natAbs, by omega⟩
    rw [if_neg (by omega), if_pos (by omega), Int.toNat_natCast, zpow_natCast]
    push_cast
    field_simp
  · obtain ⟨k, rfl⟩ : ∃ k : Nat, q = -k := ⟨q.natAbs, by omega⟩
    have one : (if 0 ≤ -(k : Int) then 1 * 2 ^ (-(k : Int)).toNat else 1) = 1 := by
      split
      · rw [show (-(k : Int)).toNat = 0 by omega]; rfl
      · rfl
    rw [if_pos (by omega), one, neg_neg, Int.toNat_natCast, zpow_neg, zpow_natCast]
    push_cast
    field_simp

theorem overflowBits_eq (f : Fmt) (mode : RMode) (neg : Bool) : overflowBits f mode neg = overflowed f mode neg := by
  cases mode <;> cases neg <;> simp [overflowBits, overflowed]

/-- A signed count of steps of 2 ^ q, as the value that its sign, mantissa and exponent denote. -/
theorem valQ_steps (neg : Bool) (m : Nat) (q : Int) : valQ (.fin neg m q) = ((if neg then -(m : Int) else m : Int) : ℚ) * 2 ^ q := by
  cases neg <;> simp [valQ]

theorem le_roundQuot {mode : RMode} {neg : Bool} {num den c : Nat} (hd : 0 < den) (h : c * den ≤ num) : c ≤ (roundQuot mode neg num den).1 := by
  have least : c ≤ num / den := (Nat.le_div_iff_mul_le hd).2 h
  have either : ∀ up : Bool, c ≤ if up then num / den + 1 else num / den := fun up => by split <;> omega
  exact either _

/-- A quotient lies between its highest bit and the next. -/
theorem quotient_bits {num den : Nat} (hn : 0 < num) (hd : 0 < den) :
    (2 : ℚ) ^ ratLog2 num den ≤ num / den ∧ (num : ℚ) / den < 2 ^ (ratLog2 num den + 1) := by
  have hdq : (0 : ℚ) < den := by exact_mod_cast hd
  rw [le_div_iff₀ hdq, div_lt_iff₀ hdq, mul_comm, mul_comm _ (den : ℚ)]
  exact ⟨ratLog2_le_quotient hn den, lt_ratLog2 num hd⟩

theorem abs_signed (neg : Bool) (num den : Nat) : |(if neg then -1 else 1) * (num : ℚ) / den| = num / den := by
  have size : (0 : ℚ) ≤ num / den := by positivity
  cases neg
  · simp only [Bool.false_eq_true, if_false, one_mul, abs_of_nonneg size]
  · simp only [if_true, neg_mul, one_mul, neg_div, abs_neg, abs_of_nonneg size]

/-- The step of the grid that a quotient is rounded on. -/
def stepOf (f : Fmt) (num den : Nat) : Int := max (ratLog2 num den - f.mw) f.minQ

/-- What a rational rounds to on its grid, and where that lies: the steps w of the value, and the integer n among them. -/
theorem rounded_steps {f : Fmt} (mode : RMode) (neg : Bool) {num den : Nat} (hn : 0 < num) (hd : 0 < den) :
    let q := stepOf f num den
    let r := roundQuot mode neg (scaleNum num (-q)) (den * scaleNum 1 q)
    let n : Int := if neg then -(r.1 : Int) else r.1
    ∃ w : ℚ, (if neg then -1 else 1) * (num : ℚ) / den = w * 2 ^ q ∧ RoundsInt mode w n ∧ (r.2 = true ↔ (n : ℚ) ≠ w)
      ∧ (f.minQ < q → 2 ^ f.mw ≤ |w| ∧ 2 ^ f.mw ≤ r.1) ∧ r.1 ≤ 2 ^ (f.mw + 1) := by
  intro q r n
  have hp : (0 : ℚ) < 2 ^ q := by positivity
  have hdq : (0 : ℚ) < den := by exact_mod_cast hd
  have positive : 0 < den * scaleNum 1 q := Nat.mul_pos hd (scaleNum_pos Nat.one_pos)
  obtain ⟨bit, next⟩ := quotient_bits hn hd
  obtain ⟨rounds, inexact⟩ := roundQuot_spec mode neg (scaleNum num (-q)) (den * scaleNum 1 q) positive
  rw [mul_div_assoc, scaled_quotient num hd] at rounds inexact
  refine ⟨_, ?_, rounds, inexact, fun above => ?_, roundQuot_le ((scaled_lt_iff _ _ _ _).2 ?_)⟩
  · rw [mul_assoc, div_mul_cancel₀ _ hp.ne', mul_div_assoc]
  · have exponent : ratLog2 num den = f.mw + q := by
      have : q = max (ratLog2 num den - f.mw) f.minQ := rfl
      omega
    rw [exponent, zpow_add₀ two_ne_zero, zpow_natCast] at bit
    refine ⟨?_, le_roundQuot positive (not_lt.1 (mt (scaled_lt_iff _ _ _ _).1 (not_lt.2 ?_)))⟩
    · rw [← mul_div_assoc, ← mul_div_assoc, abs_div, abs_signed, abs_of_pos hp, le_div_iff₀ hp]
      exact bit
    · rw [le_div_iff₀ hdq] at bit
      push_cast
      linarith
  · have exponent : ratLog2 num den + 1 ≤ (f.mw + 1 : Nat) + q := by
      have : q = max (ratLog2 num den - f.mw) f.minQ := rfl
      omega
    calc (num : ℚ) < 2 ^ (ratLog2 num den + 1) * den := (div_lt_iff₀ hdq).1 next
      _ ≤ 2 ^ (((f.mw + 1 : Nat) : Int) + q) * den := by
        gcongr
        norm_num
      _ = (2 ^ (f.mw + 1) : Nat) * den * 2 ^ q := by rw [zpow_add₀ two_ne_zero, zpow_natCast]; push_cast; ring

/-- A value that rounds beyond the largest finite one lies beyond it. -/
theorem beyond_of_spent {f : Fmt} (hf : f ∈ fmts) (mode : RMode) (neg : Bool) {num den : Nat} (hn : 0 < num) (hd : 0 < den)
    (spent : f.maxQ < stepOf f num den ∨ (stepOf f num den = f.maxQ
      ∧ f.maxM < (roundQuot mode neg (scaleNum num (-stepOf f num den)) (den * scaleNum 1 (stepOf f num den))).1)) :
    f.maxM * (2 : ℚ) ^ f.maxQ < num / den := by
  obtain ⟨w, value, rounds, -, normal, -⟩ := rounded_steps (f := f) mode neg hn hd
  have size := abs_signed neg num den
  rw [value, abs_mul, abs_of_pos (by positivity : (0 : ℚ) < 2 ^ stepOf f num den)] at size
  rw [← size]
  generalize stepOf f num den = q at *
  generalize (roundQuot mode neg (scaleNum num (-q)) (den * scaleNum 1 q)).1 = m at *
  rcases spent with above | ⟨rfl, past⟩
  · have low : f.minQ ≤ f.maxQ := by
      have := (maxField_bounds hf).1
      unfold Fmt.minQ Fmt.maxQ
      omega
    have outer := (normal (by omega)).1
    have mLt : (f.maxM : ℚ) < 2 ^ (f.mw + 1) := by exact_mod_cast (maxM_bounds hf).2.1
    have step : f.maxQ + 1 ≤ q := above
    calc (f.maxM : ℚ) * 2 ^ f.maxQ < 2 ^ (f.mw + 1) * 2 ^ f.maxQ := by gcongr
      _ = 2 ^ f.mw * 2 ^ (f.maxQ + 1) := by rw [zpow_add₀ two_ne_zero, zpow_one, pow_succ]; ring
      _ ≤ |w| * 2 ^ q := by
        gcongr
        norm_num
  · have near := roundsInt_near rounds
    have integer : |((if neg then -(m : Int) else m : Int) : ℚ)| = m := by cases neg <;> simp
    have triangle := abs_sub_abs_le_abs_sub ((if neg then -(m : Int) else m : Int) : ℚ) w
    rw [integer] at triangle
    have : (f.maxM : ℚ) + 1 ≤ m := by exact_mod_cast past
    gcongr
    linarith

/-- The bits that a value within the format rounds to: the chosen ones, and equal to it where it lies on the grid. -/
theorem rounds_of_fits {f : Fmt} (hf : f ∈ fmts) (mode : RMode) (neg : Bool) {num den : Nat} (hn : 0 < num) (hd : 0 < den) :
    let q := stepOf f num den
    let r := roundQuot mode neg (scaleNum num (-q)) (den * scaleNum 1 q)
    let v : ℚ := (if neg then -1 else 1) * num / den
    (q < f.maxQ ∨ (q = f.maxQ ∧ r.1 ≤ f.maxM)) →
      Rounds f mode v (f.pack neg r.1 q) ∧ (r.2 = true ↔ ¬FiniteAt f (f.pack neg r.1 q) v) := by
  intro q r v fits
  obtain ⟨w, value, rounds, inexact, normal, carry⟩ := rounded_steps (f := f) mode neg hn hd
  change v = w * 2 ^ q at value
  have hp : (0 : ℚ) < 2 ^ q := by positivity
  obtain ⟨finite, parity⟩ := finiteAt_pack hf neg (le_max_right _ _) (fun above => (normal above).2) carry fits
  change FiniteAt f (f.pack neg r.1 q) _ at finite
  change f.pack neg r.1 q % 2 = r.1 % 2 at parity
  rw [valQ_steps] at finite
  refine ⟨rounds_of_chosen finite fun c z other => ?_, ?_⟩
  · have even : f.pack neg r.1 q % 2 = 0 ↔ (if neg then -(r.1 : Int) else r.1) % 2 = 0 := by
      rw [parity]
      cases neg
      · simp only [Bool.false_eq_true, if_false]; omega
      · simp only [if_true]; omega
    have onGrid : z = z / 2 ^ q * 2 ^ q := (div_mul_cancel₀ z hp.ne').symm
    rw [propext even, value, onGrid]
    refine Chosen.scale hp ?_
    rcases finite_on_grid hf other q with ⟨k, whole⟩ | ⟨above, inner⟩
    · rw [whole, mul_div_cancel_right₀ _ hp.ne']
      exact chosen_int rounds k
    · refine chosen_inner (T := 2 ^ f.mw) rounds ?_ (by push_cast; exact (normal above).1)
      rw [abs_div, abs_of_pos hp, div_lt_iff₀ hp]
      push_cast
      exact inner
  · rw [inexact, value, not_iff_not]
    constructor
    · intro exact_
      rwa [exact_] at finite
    · rintro ⟨-, n', m', e', read, eq⟩
      obtain ⟨-, n, m, e, read', eq'⟩ := finite
      rw [read'] at read
      cases read
      exact mul_right_cancel₀ hp.ne' (eq'.trans eq.symm)

/-- Below the smallest normal, as the highest bit tells it. -/
theorem tiny_iff (f : Fmt) {num den : Nat} (hn : 0 < num) (hd : 0 < den) :
    ratLog2 num den < f.minQ + f.mw ↔ (num : ℚ) / den < 2 ^ (1 - (f.bias : Int)) := by
  obtain ⟨bit, next⟩ := quotient_bits hn hd
  rw [show f.minQ + f.mw = 1 - (f.bias : Int) by unfold Fmt.minQ; omega]
  constructor
  · intro below
    exact lt_of_lt_of_le next (zpow_le_zpow_right₀ (by norm_num) (by omega))
  · intro below
    exact (zpow_lt_zpow_iff_right₀ (by norm_num : (1 : ℚ) < 2)).1 (lt_of_le_of_lt bit below)

theorem signed_neg_iff (neg : Bool) {num den : Nat} (hn : 0 < num) (hd : 0 < den) :
    decide ((if neg then -1 else 1) * (num : ℚ) / den < 0) = neg := by
  have : (0 : ℚ) < num / den := div_pos (by exact_mod_cast hn) (by exact_mod_cast hd)
  cases neg
  · simp only [Bool.false_eq_true, if_false, one_mul, decide_eq_false_iff_not, not_lt, this.le]
  · simp only [if_true, neg_mul, one_mul, neg_div, decide_eq_true_eq, Left.neg_neg_iff, this]

/-- Settles O25: a value is rounded among the steps of its binade's grid, on which every finite value lies that can compete; it overflows
where its rounded steps pass the largest value, and then lies beyond it. -/
theorem rounding : Obligations.rounding := by
  intro f hf mode neg num den hn hd
  unfold roundRat
  dsimp only
  rw [show max (ratLog2 num den - f.mw) f.minQ = stepOf f num den from rfl]
  have beyond := beyond_of_spent hf mode neg hn hd
  have within := rounds_of_fits hf mode neg hn hd
  dsimp only at within
  generalize roundQuot mode neg (scaleNum num (-stepOf f num den)) (den * scaleNum 1 (stepOf f num den)) = r at *
  have spent_iff : (decide (f.maxQ < stepOf f num den) || (decide (stepOf f num den = f.maxQ) && decide (f.maxM < r.1))) = true
      ↔ f.maxQ < stepOf f num den ∨ (stepOf f num den = f.maxQ ∧ f.maxM < r.1) := by simp
  by_cases spent : f.maxQ < stepOf f num den ∨ (stepOf f num den = f.maxQ ∧ f.maxM < r.1)
  · rw [if_pos (spent_iff.2 spent)]
    refine ⟨rfl, rfl, (fun h => by cases h), fun _ => ⟨rfl, rfl, ?_, fun c z finite => ?_⟩⟩
    · rw [signed_neg_iff neg hn hd]
      exact overflowBits_eq f mode neg
    · rw [abs_signed]
      exact lt_of_le_of_lt (finite_le_largest hf finite) (beyond spent)
  · rw [if_neg (mt spent_iff.1 spent)]
    obtain ⟨rounds, inexact⟩ := within (by omega)
    refine ⟨rfl, rfl, fun _ => ⟨rounds, inexact, ?_⟩, fun h => by cases h⟩
    rw [abs_signed, ← tiny_iff f hn hd, Bool.and_eq_true, decide_eq_true_eq]

/-! ### The arithmetic that rounds once (R215, R216, R223) -/

theorem or_invalid_false (r : Nat × FFlags) : (r.1, r.2.or (invalid false)) = r := by
  rw [show invalid false = FFlags.none from rfl, or_none]

theorem roundVal_zero (f : Fmt) (mode : RMode) (n : Bool) (e : Int) : roundVal f mode (.fin n 0 e) = (f.zero n, .none) := rfl

/-- A finite value that is not zero is rounded once. -/
theorem roundVal_rounded {f : Fmt} (hf : f ∈ fmts) (mode : RMode) {n : Bool} {m : Nat} {e : Int} (hm : m ≠ 0) :
    Rounded f mode (valQ (.fin n m e)) (roundVal f mode (.fin n m e)) := by
  rw [show roundVal f mode (.fin n m e) = roundRat f mode n (scaleNum m e) (scaleDen e) from if_neg hm]
  exact roundRat_val rounding f hf mode n m e hm

theorem valQ_eq_zero (n : Bool) (m : Nat) (e : Int) : valQ (.fin n m e) = 0 ↔ m = 0 := by
  have : (2 : ℚ) ^ e ≠ 0 := by positivity
  cases n <;> simp [valQ, this]

theorem valQ_mul (a b : Bool) (m n : Nat) (i j : Int) : valQ (.fin (a != b) (m * n) (i + j)) = valQ (.fin a m i) * valQ (.fin b n j) := by
  simp only [valQ]
  rw [zpow_add₀ two_ne_zero]
  cases a <;> cases b <;> simp <;> ring

/-- A finite result, rounded: once where it is not zero, the signed zero where it is. -/
theorem roundVal_once {f : Fmt} (hf : f ∈ fmts) (mode : RMode) {n sign : Bool} {m : Nat} {e : Int} {v : ℚ} (value : valQ (.fin n m e) = v)
    (zero : m = 0 → n = sign) :
    (v ≠ 0 → Rounded f mode v (roundVal f mode (.fin n m e))) ∧ (v = 0 → roundVal f mode (.fin n m e) = (f.zero sign, .none)) := by
  subst value
  refine ⟨fun ne => roundVal_rounded hf mode (mt (valQ_eq_zero n m e).2 ne), fun eq => ?_⟩
  have hm := (valQ_eq_zero n m e).1 eq
  rw [hm, zero hm, roundVal_zero]

/-- The sum of two finite values is finite, exact, and never invalid; an exact zero is signed as R215 says. -/
theorem addVal_fin (mode : RMode) (a b : Bool) (m n : Nat) (i j : Int) :
    ∃ s k e, addVal mode (.fin a m i) (.fin b n j) = (.fin s k e, false) ∧ valQ (.fin s k e) = valQ (.fin a m i) + valQ (.fin b n j)
      ∧ (k = 0 → s = if a = b then a else decide (mode = .rdn)) := by
  have left := finInt_val a m i (min i j) (min_le_left _ _)
  have right := finInt_val b n j (min i j) (min_le_right _ _)
  unfold addVal
  dsimp only
  rw [← left, ← right, ← add_mul]
  generalize finInt a m i (min i j) = x
  generalize finInt b n j (min i j) = y
  by_cases zero : x + y = 0
  · rw [if_pos zero]
    have : (x : ℚ) + y = 0 := by exact_mod_cast zero
    exact ⟨_, _, _, rfl, by rw [this]; simp [valQ], fun _ => rfl⟩
  · rw [if_neg zero]
    refine ⟨_, _, _, rfl, ?_, fun none => absurd none (Int.natAbs_ne_zero.2 zero)⟩
    have magnitude : (((x + y).natAbs : Nat) : ℚ) = |(x : ℚ) + y| := by
      rw [← Int.cast_add, ← Int.cast_abs, Int.abs_eq_natAbs, Int.cast_natCast]
    rw [valQ, magnitude]
    by_cases neg : x + y < 0
    · have : (x : ℚ) + y < 0 := by exact_mod_cast neg
      simp [neg, abs_of_neg this]
    · have : 0 ≤ (x : ℚ) + y := by exact_mod_cast not_lt.1 neg
      simp [neg, abs_of_nonneg this]

theorem addBits_fin (f : Fmt) (mode : RMode) (a b : Bool) (m n : Nat) (i j : Int) :
    addBits f mode (.fin a m i) (.fin b n j) = roundVal f mode (addVal mode (.fin a m i) (.fin b n j)).1 := by
  obtain ⟨s, k, e, sum, -, -⟩ := addVal_fin mode a b m n i j
  unfold addBits
  rw [sum]
  exact or_invalid_false _

theorem mulBits_fin (f : Fmt) (mode : RMode) (a b : Bool) (m n : Nat) (i j : Int) :
    mulBits f mode (.fin a m i) (.fin b n j) = roundVal f mode (.fin (a != b) (m * n) (i + j)) := or_invalid_false _

theorem fmaBits_fin (f : Fmt) (mode : RMode) (a b c : Bool) (m n l : Nat) (i j k : Int) :
    fmaBits f mode (.fin a m i) (.fin b n j) (.fin c l k)
      = roundVal f mode (addVal mode (.fin (a != b) (m * n) (i + j)) (.fin c l k)).1 := by
  obtain ⟨s, k', e, sum, -, -⟩ := addVal_fin mode (a != b) c (m * n) l (i + j) k
  unfold fmaBits mulVal
  dsimp only
  rw [sum]
  exact or_invalid_false _

/-- The quotient of two mantissas at the difference of their exponents is the quotient of the values. -/
theorem valQ_div (a b : Bool) (m : Nat) {n : Nat} (hn : n ≠ 0) (i j : Int) :
    (if (a != b) = true then -1 else 1) * (scaleNum m (i - j) : ℚ) / (n * scaleDen (i - j) : Nat) = valQ (.fin a m i) / valQ (.fin b n j) := by
  have hnq : (n : ℚ) ≠ 0 := by exact_mod_cast hn
  have scaled := scale_val (a != b) m (i - j)
  have hp : (2 : ℚ) ^ j ≠ 0 := by positivity
  rw [Nat.cast_mul, mul_comm (n : ℚ), ← div_div, scaled]
  simp only [valQ]
  rw [zpow_sub₀ two_ne_zero]
  cases a <;> cases b <;> simp <;> field_simp

/-- Settles O26: every operation forms the exact result of finite operands, which is rounded once. -/
theorem arithmeticRoundsOnce : Obligations.arithmetic_rounds_once := by
  intro f hf mode a b c m n l i j k
  refine ⟨?_, ?_, ?_, fun hn => ?_⟩
  · obtain ⟨s, p, e, sum, value, zero⟩ := addVal_fin mode a b m n i j
    rw [addBits_fin, sum]
    exact roundVal_once hf mode value zero
  · rw [mulBits_fin]
    exact roundVal_once hf mode (valQ_mul a b m n i j) fun _ => rfl
  · obtain ⟨s, p, e, sum, value, zero⟩ := addVal_fin mode (a != b) c (m * n) l (i + j) k
    rw [fmaBits_fin, sum]
    refine roundVal_once hf mode (value.trans (by rw [valQ_mul])) fun none => (zero none).trans ?_
    by_cases same : (a != b) = c
    · rw [if_pos same, if_pos same, same]
    · rw [if_neg same, if_neg same]
  · have quotient := valQ_div a b m hn i j
    have divisor := mt (valQ_eq_zero b n j).1 hn
    unfold divBits
    dsimp only
    rw [if_neg hn]
    refine ⟨fun ne => ?_, fun eq => ?_⟩
    · have hm : m ≠ 0 := fun none => ne (by rw [(valQ_eq_zero a m i).2 none, zero_div])
      rw [if_neg hm, ← quotient]
      exact rounding f hf mode (a != b) _ _ (scaleNum_pos (Nat.pos_of_ne_zero hm)) (Nat.mul_pos (Nat.pos_of_ne_zero hn) (scaleDen_pos _))
    · have hm : m = 0 := (valQ_eq_zero a m i).1 ((div_eq_zero_iff.1 eq).resolve_right divisor)
      rw [if_pos hm]

end Sys2Proof
end

section
/-! SUPPORT. Vectors of integers, permutes and predicates (R165, R221, R222, R224, R228, R230): what an element of a result is modulo its
width, once for the members that take two elements and once for reductions; then the statements of these groups. -/
namespace Sys2Proof
open Machine Claims

/-! ### Members of two elements (R221) -/

/-- A member of VIA, from what its operation gives of two fields of the element's width. -/
theorem elements_of_via {i : Instr} {s : State} {d a b : BitVec 5} {p e : BitVec 3} {f : Bool → Nat → Nat → Nat → Nat} {g : Nat → Nat → Int}
    (h : exec i s = s.via d a b p e f)
    (agree : ∀ x y, x < 2 ^ wide e → y < 2 ^ wide e → (f (etSigned e) (wide e) x y : Int) % 2 ^ wide e = g x y % 2 ^ wide e) :
    Elements i s d (wide e) (s.p p) (s.v d) (fun j => g (el (wide e) (s.v a) j) (el (wide e) (s.v b) j)) := by
  refine elements_of h fun j _ => ?_
  rw [etWidth_eq, lane_el, lane_el]
  exact agree _ _ (el_lt _ _ _) (el_lt _ _ _)

theorem sub_field {w x y : Nat} (hy : y < 2 ^ w) : ((x + 2 ^ w - y : Nat) : Int) % 2 ^ w = ((x : Int) - y) % 2 ^ w := by
  rw [Nat.cast_sub (by omega)]
  push_cast
  rw [show (x : Int) + 2 ^ w - y = x - y + 2 ^ w by ring, Int.add_emod_right]

/-- The lesser of two fields by their type, as a field. -/
theorem min_field (e : BitVec 3) (w x y : Nat) :
    (((if laneInt (etSigned e) w x ≤ laneInt (etSigned e) w y then x else y : Nat)) : Int) % 2 ^ w = min (typed e w x) (typed e w y) % 2 ^ w := by
  rw [typed_eq, typed_eq, min_def]
  split <;> rw [typed_mod]

/-- The greater of two fields by their type, as a field. -/
theorem max_field (e : BitVec 3) (w x y : Nat) :
    (((if laneInt (etSigned e) w y ≤ laneInt (etSigned e) w x then x else y : Nat)) : Int) % 2 ^ w = max (typed e w x) (typed e w y) % 2 ^ w := by
  rw [typed_eq, typed_eq, max_comm, max_def]
  split <;> rw [typed_mod]

theorem vectorInteger : Claims.VectorInteger := by
  intro s d a b p e w x y xs ys is
  refine ⟨?vadd, ?vsub, ?vmul, ?vmulh, ?vmin, ?vmax, ?vand, ?vor, ?vxor, ?vsll, ?vsrl, ?vsra, ?vaddsat, ?vsubsat⟩
  case vadd =>
    exact elements_of_via (f := fun _ _ x y => x + y) (g := fun x y => x + y) rfl
      fun x y _ _ => by push_cast; rfl
  case vsub =>
    exact elements_of_via (f := fun _ w x y => x + 2 ^ w - y) (g := fun x y => x - y) rfl
      fun x y _ hy => sub_field hy
  case vmul =>
    exact elements_of_via (f := fun _ _ x y => x * y) (g := fun x y => x * y) rfl
      fun x y _ _ => by push_cast; rfl
  case vmulh =>
    exact elements_of_via (f := fun g w x y => laneBits w (laneInt g w x * laneInt g w y / 2 ^ w))
      (g := fun x y => typed e w x * typed e w y / 2 ^ w) rfl
      fun x y _ _ => by rw [laneBits_mod, typed_eq, typed_eq]
  case vmin =>
    exact elements_of_via (f := fun g w x y => if laneInt g w x ≤ laneInt g w y then x else y) (g := fun x y => min (typed e w x) (typed e w y)) rfl
      fun x y _ _ => min_field e _ x y
  case vmax =>
    exact elements_of_via (f := fun g w x y => if laneInt g w y ≤ laneInt g w x then x else y) (g := fun x y => max (typed e w x) (typed e w y)) rfl
      fun x y _ _ => max_field e _ x y
  case vand =>
    exact elements_of_via (f := fun _ _ x y => x &&& y) (g := fun x y => (x &&& y : Nat)) rfl
      fun x y _ _ => rfl
  case vor =>
    exact elements_of_via (f := fun _ _ x y => x ||| y) (g := fun x y => (x ||| y : Nat)) rfl
      fun x y _ _ => rfl
  case vxor =>
    exact elements_of_via (f := fun _ _ x y => x ^^^ y) (g := fun x y => (x ^^^ y : Nat)) rfl
      fun x y _ _ => rfl
  case vsll =>
    exact elements_of_via (f := fun _ w x y => x * 2 ^ (y % w)) (g := fun x y => x * 2 ^ (y % w)) rfl
      fun x y _ _ => by push_cast; rfl
  case vsrl =>
    exact elements_of_via (f := fun _ w x y => x / 2 ^ (y % w)) (g := fun x y => x / 2 ^ (y % w)) rfl
      fun x y _ _ => by push_cast; rfl
  case vsra =>
    exact elements_of_via (f := fun _ w x y => laneBits w (signedOf w x / 2 ^ (y % w))) (g := fun x y => signedAt w x / 2 ^ (y % w)) rfl
      fun x y hx _ => by rw [laneBits_mod, signedAt_lane _ _ hx]
  case vaddsat =>
    exact elements_of_via (f := fun g w x y => laneBits w (clampTo g w (laneInt g w x + laneInt g w y)))
      (g := fun x y => clamped e w (typed e w x + typed e w y)) rfl
      fun x y _ _ => by rw [laneBits_mod, clamped_eq, typed_eq, typed_eq]
  case vsubsat =>
    exact elements_of_via (f := fun g w x y => laneBits w (clampTo g w (laneInt g w x - laneInt g w y)))
      (g := fun x y => clamped e w (typed e w x - typed e w y)) rfl
      fun x y _ _ => by rw [laneBits_mod, clamped_eq, typed_eq, typed_eq]

/-! ### Members whose elements come from elsewhere (R222, R224) -/

/-- A byte of VDOT4 by its type: signed for code 0 (R222). -/
theorem dot_byte (z : BitVec 1) (r : Vec) (k : Nat) :
    laneInt (z == 0) 8 (lane 8 r k) = if z = 0 then signedAt 8 (el 8 r k) else (el 8 r k : Int) := by
  rw [lane_el]
  unfold laneInt
  have code : (z == 0) = true ↔ z = 0 := beq_iff_eq
  by_cases signed : z = 0
  · rw [if_pos signed, if_pos (code.2 signed), signedAt_lane _ _ (el_lt _ _ _)]
  · rw [if_neg (mt code.1 signed), if_neg signed]

theorem vectorIntegerSpecial : Claims.VectorIntegerSpecial := by
  intro s d a b k g p e z q w t8 byte
  refine ⟨?vdot4, ?vmulw, ?vnarrow, ?vsel, ?vmov, ?vidx, ?vbcast, ?vins⟩
  case vdot4 =>
    refine elements_of rfl fun j _ => ?_
    rw [laneBits_mod, lane_el]
    simp only [dot_byte]
    rfl
  case vmulw =>
    refine elements_of rfl fun j _ => ?_
    rw [etWidth_eq, laneBits_mod, typed_eq, typed_eq, lane_el, lane_el]
  case vnarrow =>
    refine elements_of rfl fun j _ => ?_
    rw [etWidth_eq, laneBits_mod, clamped_eq, typed_eq, lane_el, lane_el]
  case vsel => exact elements_of rfl fun j _ => by rw [etWidth_eq, lane_el]
  case vmov => exact elements_of rfl fun j _ => by rw [etWidth_eq, lane_el]
  case vidx => exact elements_of rfl fun j _ => rfl
  case vbcast => exact elements_of rfl fun j _ => rfl
  case vins =>
    refine elementsAll_of (by decide) rfl fun j _ => ?_
    rw [lane_el]
    split <;> rfl

/-- Settles O21: VIA from its operations on two fields; the others element by element. -/
theorem vectorIntegerMembers : Obligations.vector_integer_members := ⟨vectorInteger, vectorIntegerSpecial⟩

/-! ### Permutes, reductions and extraction (R228) -/

/-- A reduction, from what folding its operation over fields gives of the integers that they stand for. -/
theorem elements_of_reduce {i : Instr} {s : State} {d a b : BitVec 5} {p e : BitVec 3} {f : Bool → Nat → Nat → Nat → Nat} {v : Int}
    (h : exec i s = s.reduce d a b p e f)
    (agree : ((((active (1024 / wide e) (s.p p)).map (el (wide e) (s.v a))).foldl (f (etSigned e) (wide e))
      (el (wide e) (s.v b) 0) : Nat) : Int) % 2 ^ wide e
      = v % 2 ^ wide e) :
    Elements i s d (wide e) (BitVec.allOnes 128) 0 (fun j => if j = 0 then v else 0) := by
  refine elementsAll_of (wide_ge e) h fun j _ => ?_
  rw [etWidth_eq, activeLanes_eq, lane_el]
  by_cases first : j = 0
  · rw [if_pos first, if_pos first]
    exact agree
  · rw [if_neg first, if_neg first]
    rfl

/-- A fold that picks one of two fields follows the fold over their integers. -/
theorem foldl_pick {e : BitVec 3} {w : Nat} {F : Nat → Nat → Nat} {G : Int → Int → Int}
    (pick : ∀ x y, typed e w (F x y) = G (typed e w x) (typed e w y)) :
    ∀ (l : List Nat) (z : Nat), typed e w (l.foldl F z) = (l.map (typed e w)).foldl G (typed e w z)
  | [], _ => rfl
  | y :: l, z => by
    rw [List.foldl_cons, List.map_cons, List.foldl_cons, ← pick]
    exact foldl_pick pick l (F z y)

theorem typed_min (e : BitVec 3) (w x y : Nat) :
    typed e w (if laneInt (etSigned e) w x ≤ laneInt (etSigned e) w y then x else y) = min (typed e w x) (typed e w y) := by
  rw [typed_eq, typed_eq, min_def]
  split <;> rfl

theorem typed_max (e : BitVec 3) (w x y : Nat) :
    typed e w (if laneInt (etSigned e) w y ≤ laneInt (etSigned e) w x then x else y) = max (typed e w x) (typed e w y) := by
  rw [typed_eq, typed_eq, max_comm, max_def]
  split <;> rfl

/-- The active elements, packed to the bottom. -/
theorem el_packed_active (w : Nat) (p : Pred) (x : Vec) (j : Nat) :
    el w (BitVec.ofNat 1024 (packLanes w (activeLanes w (1024 / w) p x))) j = ((active (1024 / w) p).map (el w x)).getD j 0 := by
  have fields : ∀ y ∈ (active (1024 / w) p).map (el w x), y < 2 ^ w := fun y hy => by
    obtain ⟨i, -, rfl⟩ := List.mem_map.1 hy
    exact el_lt _ _ _
  have room : w * ((active (1024 / w) p).map (el w x)).length ≤ 1024 := by
    rw [List.length_map]
    exact Nat.le_trans (Nat.mul_le_mul_left _ (active_length _ _)) (Nat.mul_div_le 1024 w)
  rw [activeLanes_eq]
  exact el_pack w _ fields room j

/-- Settles O22: permutes element by element, reductions as folds over the active elements' integers. -/
theorem vectorPermutes : Obligations.vector_permutes := by
  intro s d a b k p e w n m x only0
  refine ⟨?vperm, ?vslideup, ?vslidedn, ?vredadd, ?vredmin, ?vredmax, ?vcompress, ?vextg⟩
  case vperm => exact elements_of rfl fun j _ => by rw [etWidth_eq, lane_el, lane_el]
  case vslideup => exact elements_of rfl fun j _ => by rw [etWidth_eq, lane_el, lane_el]; split <;> rfl
  case vslidedn => exact elements_of rfl fun j _ => by rw [etWidth_eq, lane_el, lane_el]; split <;> rfl
  case vredadd =>
    refine elements_of_reduce (f := fun _ _ x y => x + y) rfl ?_
    rw [foldl_sum]
    push_cast
    rw [List.map_map]
    rfl
  case vredmin =>
    refine elements_of_reduce (f := fun g w x y => if laneInt g w x ≤ laneInt g w y then x else y) rfl ?_
    rw [← typed_mod e, foldl_pick (typed_min e _), List.map_map]
    rfl
  case vredmax =>
    refine elements_of_reduce (f := fun g w x y => if laneInt g w y ≤ laneInt g w x then x else y) rfl ?_
    rw [← typed_mod e, foldl_pick (typed_max e _), List.map_map]
    rfl
  case vcompress =>
    refine ⟨_, putsV0_of rfl, fun j hj => ?_⟩
    have lanes : j < 128 := Nat.lt_of_lt_of_le hj (Nat.div_le_div_left (c := 8) (wide_ge e) (by decide))
    rw [if_pos (all_bits j lanes), etWidth_eq, el_packed_active, toNat_emod, Nat.mod_eq_of_lt]
    by_cases within : j < ((active (1024 / wide e) (s.p p)).map (el (wide e) (s.v a))).length
    · rw [List.getD_eq_getElem _ _ within, List.getElem_map]
      exact el_lt _ _ _
    · rw [List.getD_eq_default _ _ (not_lt.1 within)]
      exact Nat.two_pow_pos _
  case vextg =>
    refine putsX_of rfl ?_
    rw [etWidth_eq, typed_eq, lane_el]
    rfl

/-! ### Compares and predicates (R230) -/

/-- An integer compare, from what its test says of two integers. -/
theorem compares_of_vcmp {i : Instr} {s : State} {d : BitVec 3} {a b : BitVec 5} {p e : BitVec 3} {f : Int → Int → Bool} {g : Int → Int → Prop}
    (h : exec i s = s.vcmp d a b p e f) (test : ∀ x y, f x y = true ↔ g x y) :
    Compares i s d (1024 / wide e) (s.p p)
      (fun j => g (typed e (wide e) (el (wide e) (s.v a) j)) (typed e (wide e) (el (wide e) (s.v b) j))) 0 := by
  refine compares_of (putsP0_of h) rfl (Nat.div_le_div_left (c := 8) (wide_ge e) (by decide)) fun j => ?_
  rw [etWidth_eq, typed_eq, typed_eq, lane_el, lane_el]
  exact test _ _

/-- The bits below a count, of 128. -/
theorem lowest_bits (k j : Nat) (hj : j < 128) : (BitVec.ofNat 128 (2 ^ min k 128 - 1)).getLsbD j = true ↔ j < k := by
  rw [BitVec.getLsbD_ofNat, Nat.testBit_two_pow_sub_one]
  simp only [hj, decide_true, Bool.true_and, decide_eq_true_eq]
  omega

/-- Settles O23: compares by their tests, the others by what their predicate or count is. -/
theorem predicates : Obligations.predicates := by
  intro s d p a b e u v g w x y
  refine ⟨?vcmpeq, ?vcmplt, ?vcmple, putsP0_of rfl, putsP0_of rfl, putsP0_of rfl, putsP0_of rfl, ?psetn, ?pcnt, ?pfirst⟩
  case vcmpeq => exact compares_of_vcmp (f := fun x y => decide (x = y)) (g := fun x y => x = y) rfl fun x y => decide_eq_true_iff
  case vcmplt => exact compares_of_vcmp (f := fun x y => decide (x < y)) (g := fun x y => x < y) rfl fun x y => decide_eq_true_iff
  case vcmple => exact compares_of_vcmp (f := fun x y => decide (x ≤ y)) (g := fun x y => x ≤ y) rfl fun x y => decide_eq_true_iff
  case psetn => exact ⟨_, putsP0_of rfl, fun j hj => lowest_bits _ j hj⟩
  case pcnt =>
    refine putsX_of rfl ?_
    rw [List.countP_eq_length_filter]
    exact (BitVec.ofInt_natCast 64 _).symm
  case pfirst =>
    refine putsX_of rfl ?_
    rw [← List.head?_filter, ← List.headD_eq_head?_getD]
    exact (BitVec.ofInt_natCast 64 _).symm
end Sys2Proof
end

section
/-! SUPPORT. Floating-point lanes (R216, R223 to R225, R228 to R230): an instruction of VF from its operation on three elements, the
order of two elements, and the reductions; then the statements of these groups. -/
namespace Sys2Proof
open Machine Claims

/-! ### Lanes of VF (R223) -/

theorem fpFmt_eq (e : BitVec 2) : fpFmt e = fmtOf e := rfl

/-- A member of VF gives in each lane what its operation gives of the elements of va, vb and vd in the mode of ROUND. -/
theorem floats_of_vf {i : Instr} {s : State} {d a b : BitVec 5} {p : BitVec 3} {e : BitVec 2} {f : Fmt → RMode → FVal → FVal → FVal → Nat × FFlags}
    (h : exec i s = s.vf d a b p e f) :
    Floats i s d (fmtOf e).width (s.p p)
      (fun j => f (fmtOf e) (roundMode s) (flo (fmtOf e) (s.v a) j) (flo (fmtOf e) (s.v b) j) (flo (fmtOf e) (s.v d) j)) := by
  refine floats_of h fun j => ?_
  rw [fpFmt_eq, mode_eq, flo_eq, flo_eq, flo_eq]

/-- Flipping the sign bit of an element (R223). -/
theorem flipped_sign {w x : Nat} (hw : 0 < w) (hx : x < 2 ^ w) : ((x + 2 ^ (w - 1) : Nat) : Int) % 2 ^ w = ((x ^^^ 2 ^ (w - 1) : Nat) : Int) % 2 ^ w := by
  obtain ⟨n, rfl⟩ : ∃ n, w = n + 1 := ⟨w - 1, by omega⟩
  rw [Nat.add_sub_cancel, ← sign_flip n x hx]
  push_cast
  rw [Int.emod_emod_of_dvd _ (dvd_refl _)]

/-- Settles O24: each instruction from its operation on the elements of a lane. -/
theorem vectorFloat : Obligations.vector_float := by
  intro s d a b g p e f m P x y z c
  refine ⟨?vfadd, ?vfsub, ?vfmul, ?vfma, ?vfms, ?vfnma, ?vfdiv, ?vfsqrt, ?vfexp2, ?vfdot2, ?vfmas, ?vscacc, ?vfabs, ?vfneg⟩
  case vfadd => exact floats_of_vf (b := b) (f := fun k m x y _ => addBits k m x y) rfl
  case vfsub => exact floats_of_vf (b := b) (f := fun k m x y _ => addBits k m x y.negate) rfl
  case vfmul => exact floats_of_vf (b := b) (f := fun k m x y _ => mulBits k m x y) rfl
  case vfma => exact floats_of_vf (b := b) (f := fun k m x y z => fmaBits k m x y z) rfl
  case vfms => exact floats_of_vf (b := b) (f := fun k m x y z => fmaBits k m x y z.negate) rfl
  case vfnma => exact floats_of_vf (b := b) (f := fun k m x y z => fmaBits k m x.negate y z) rfl
  case vfdiv => exact floats_of_vf (b := b) (f := fun k m x y _ => divBits k m x y) rfl
  case vfsqrt => exact floats_of_vf (b := a) (f := fun k m x _ _ => sqrtBits k m x) rfl
  case vfexp2 => exact floats_of_vf (b := a) (f := fun k m x _ _ => exp2Bits k m x) rfl
  case vfdot2 =>
    refine floats_of rfl fun j => ?_
    rw [fpFmt_eq, mode_eq, flo_eq, flo_eq, flo_eq, flo_eq, flo_eq]
  case vfmas =>
    refine floats_of rfl fun j => ?_
    rw [mode_eq, flo_eq, flo_eq]
    rfl
  case vscacc =>
    refine floats_of rfl fun j => ?_
    rw [flo_eq, flo_eq, flo_eq, flo_eq]
    rfl
  case vfabs => exact elements_of rfl fun j _ => by rw [fpFmt_eq, lane_el]
  case vfneg =>
    refine elements_of rfl fun j _ => ?_
    rw [fpFmt_eq, lane_el]
    exact flipped_sign (fmtOf_width e).2 (el_lt _ _ _)

/-! ### The order of two elements (R223, R230) -/

/-- VFMIN and VFMAX beside a NaN: the other element, and the canonical NaN where both are one (R223). -/
theorem minMaxBits_nan (f : Fmt) (big : Bool) (u w : Nat) :
    ((f.decode u).isNan = true → (minMaxBits f big u w).1 = if (f.decode w).isNan = true then f.nan else w)
    ∧ ((f.decode u).isNan = false → (f.decode w).isNan = true → (minMaxBits f big u w).1 = u) := by
  unfold minMaxBits
  dsimp only
  refine ⟨fun nan => ?_, fun number nan => ?_⟩
  · rw [nan]
    cases (f.decode w).isNan <;> rfl
  · rw [number, nan]
    rfl

/-- VFMIN of two numbers (R223). -/
theorem minMaxBits_min (f : Fmt) (u w : Nat) (hu : (f.decode u).isNan = false) (hw : (f.decode w).isNan = false) :
    let first := below (f.decode u) (f.decode w) ∨ (alike (f.decode u) (f.decode w) ∧ ((f.decode u).sign = true ∨ (f.decode w).sign = false))
    (first → (minMaxBits f false u w).1 = u) ∧ (¬first → (minMaxBits f false u w).1 = w) := by
  obtain ⟨lt, eq, -⟩ := cmpVal_cases _ _ hu hw
  unfold minMaxBits
  dsimp only
  rw [hu, hw, lt, eq]
  rcases lt_trichotomy (cmpVal (f.decode u) (f.decode w)) 0 with neg | zero | pos
  · simp [neg, neg.ne, neg.le]
  · rw [zero]
    cases (f.decode u).sign <;> cases (f.decode w).sign <;> simp
  · simp [pos, pos.ne', pos.le]

/-- VFMAX of two numbers (R223). -/
theorem minMaxBits_max (f : Fmt) (u w : Nat) (hu : (f.decode u).isNan = false) (hw : (f.decode w).isNan = false) :
    (below (f.decode u) (f.decode w) → (minMaxBits f true u w).1 = w) ∧ (below (f.decode w) (f.decode u) → (minMaxBits f true u w).1 = u)
    ∧ (alike (f.decode u) (f.decode w) → (minMaxBits f true u w).1 = if (f.decode u).sign = true ∧ (f.decode w).sign = false then w else u) := by
  obtain ⟨lt, eq, gt⟩ := cmpVal_cases _ _ hu hw
  unfold minMaxBits
  dsimp only
  rw [hu, hw, lt, eq, gt]
  refine ⟨fun neg => ?_, fun pos => ?_, fun zero => ?_⟩
  · simp [neg, neg.ne]
  · simp [pos.ne', pos.le]
  · simp [zero]

/-- A lane of VFMIN or VFMAX as its element and the flag of a signalling NaN. -/
theorem minMaxBits_split (f : Fmt) (big : Bool) (u w : Nat) :
    minMaxBits f big u w = ((minMaxBits f big u w).1, (nvIf ((f.decode u).isSig || (f.decode w).isSig)).2) :=
  Prod.ext rfl (minMax_flags f big u w)

/-- Beside a NaN nothing is below or equal. -/
theorem unordered (x y : FVal) (h : (x.isNan || y.isNan) = true) : ¬below x y ∧ ¬alike x y := by
  rcases Bool.or_eq_true _ _ ▸ h with nan | nan
  · obtain ⟨lt, -, eq, -⟩ := nan_rel x y nan
    exact ⟨lt, eq⟩
  · obtain ⟨-, lt, -, eq⟩ := nan_rel y x nan
    exact ⟨lt, eq⟩

theorem isSig_of_number {x : FVal} (h : x.isNan = false) : x.isSig = false := by
  cases x with
  | nan q => cases h
  | inf n => rfl
  | fin n m e => rfl

/-- A signalling NaN adds nothing where any NaN raises NV. -/
theorem sig_or_nan (x y : FVal) : (x.isSig || y.isSig || (true && (x.isNan || y.isNan))) = (x.isNan || y.isNan) := by
  cases hx : x.isNan
  · cases hy : y.isNan
    · rw [isSig_of_number hx, isSig_of_number hy]; rfl
    · simp
  · simp

theorem sig_only (x y : FVal) : (x.isSig || y.isSig || (false && (x.isNan || y.isNan))) = (x.isSig || y.isSig) := Bool.or_false _

/-- A floating-point compare, from what its test says of two numbers and its answer beside a NaN (R230). -/
theorem compares_of_vfcmp {i : Instr} {s : State} {q : BitVec 3} {a b : BitVec 5} {p : BitVec 3} {e : BitVec 2} {f : Int → Bool} {un any : Bool}
    {g : FVal → FVal → Prop} {nv : FVal → FVal → Bool} (h : exec i s = s.vfcmp q a b p e f un any)
    (number : ∀ x y, x.isNan = false → y.isNan = false → (f (cmpVal x y) = true ↔ g x y))
    (nan : ∀ x y, (x.isNan || y.isNan) = true → (un = true ↔ g x y))
    (raises : ∀ x y, (x.isSig || y.isSig || (any && (x.isNan || y.isNan))) = nv x y) :
    Compares i s q (1024 / (fmtOf e).width) (s.p p) (fun j => g (flo (fmtOf e) (s.v a) j) (flo (fmtOf e) (s.v b) j))
      (raised (1024 / (fmtOf e).width) (s.p p) (fun j => nvIf (nv (flo (fmtOf e) (s.v a) j) (flo (fmtOf e) (s.v b) j)))) := by
  have lanes : 1024 / (fmtOf e).width ≤ 128 := Nat.div_le_div_left (c := 8) (by have := (fmtOf_width e).1; omega) (by decide)
  refine compares_of (f := fun j => if (flo (fmtOf e) (s.v a) j).isNan || (flo (fmtOf e) (s.v b) j).isNan then un
    else f (cmpVal (flo (fmtOf e) (s.v a) j) (flo (fmtOf e) (s.v b) j))) (putsP_of (raised_eq _ _ _) (h.trans ?_)) rfl lanes fun j => ?_
  · unfold State.vfcmp
    dsimp only
    simp only [raises, fpFmt_eq, flo_eq]
    rfl
  · by_cases unord : ((flo (fmtOf e) (s.v a) j).isNan || (flo (fmtOf e) (s.v b) j).isNan) = true
    · rw [if_pos unord]
      exact nan _ _ unord
    · rw [if_neg unord]
      simp only [Bool.or_eq_true, not_or, Bool.not_eq_true] at unord
      exact number _ _ unord.1 unord.2

/-- Settles O27: VFMIN and VFMAX beside NaNs and of two numbers; the compares by their tests. -/
theorem floatOrder : Obligations.float_order := by
  intro s d a b q p e f n P u w x y sig any first
  refine ⟨?vfmin, ?vfmax, ?vfcmpeq, ?vfcmplt, ?vfcmple, ?vfcmpun⟩
  case vfmin =>
    refine ⟨fun i => (minMaxBits f false (u i) (w i)).1, floats_of rfl fun j => ?_, fun i => ?_⟩
    · rw [fpFmt_eq, lane_el, lane_el]
      exact minMaxBits_split f false (u j) (w j)
    · obtain ⟨left, right⟩ := minMaxBits_nan f false (u i) (w i)
      refine ⟨left, right, fun numbers => ?_⟩
      obtain ⟨hu, hw⟩ := Bool.or_eq_false_iff.1 numbers
      exact minMaxBits_min f (u i) (w i) hu hw
  case vfmax =>
    refine ⟨fun i => (minMaxBits f true (u i) (w i)).1, floats_of rfl fun j => ?_, fun i => ?_⟩
    · rw [fpFmt_eq, lane_el, lane_el]
      exact minMaxBits_split f true (u j) (w j)
    · obtain ⟨left, right⟩ := minMaxBits_nan f true (u i) (w i)
      refine ⟨left, right, fun numbers => ?_⟩
      obtain ⟨hu, hw⟩ := Bool.or_eq_false_iff.1 numbers
      exact minMaxBits_max f (u i) (w i) hu hw
  case vfcmpeq =>
    refine compares_of_vfcmp (f := fun c => decide (c = 0)) (un := false) (any := false) (g := alike) (nv := fun x y => x.isSig || y.isSig)
      rfl (fun x y hx hy => ?_) (fun x y nan => ?_) sig_only
    · rw [decide_eq_true_iff, (cmpVal_cases x y hx hy).2.1]
    · simp [(unordered x y nan).2]
  case vfcmplt =>
    refine compares_of_vfcmp (f := fun c => decide (c < 0)) (un := false) (any := true) (g := below) (nv := fun x y => x.isNan || y.isNan)
      rfl (fun x y hx hy => ?_) (fun x y nan => ?_) sig_or_nan
    · rw [decide_eq_true_iff, (cmpVal_cases x y hx hy).1]
    · simp [(unordered x y nan).1]
  case vfcmple =>
    refine compares_of_vfcmp (f := fun c => decide (c ≤ 0)) (un := false) (any := true) (g := fun x y => below x y ∨ alike x y)
      (nv := fun x y => x.isNan || y.isNan) rfl (fun x y hx hy => ?_) (fun x y nan => ?_) sig_or_nan
    · obtain ⟨lt, eq, -⟩ := cmpVal_cases x y hx hy
      rw [decide_eq_true_iff, lt, eq, le_iff_lt_or_eq]
    · simp [unordered x y nan]
  case vfcmpun =>
    refine compares_of_vfcmp (f := fun _ => false) (un := true) (any := false) (g := fun x y => (x.isNan || y.isNan) = true)
      (nv := fun x y => x.isSig || y.isSig) rfl (fun x y hx hy => ?_) (fun x y nan => ?_) sig_only
    · simp [hx, hy]
    · simp [nan]

/-! ### The reductions (R228, R229) -/

/-- The tree over the lanes, and every flag that an addition of it raises (R229). -/
theorem treeSum_lanes (m : RMode) (L : Nat) (x : Nat → FVal) :
    (treeSum m L ((List.range (2 ^ L)).map x) .none).1 = tree m (2 ^ L) x L 0
    ∧ ∀ j, (treeSum m L ((List.range (2 ^ L)).map x) .none).2.bits.getLsbD j = true ↔ ∃ k i, k < L ∧ i < 2 ^ L / 2 ^ (k + 1)
        ∧ (addBits .f32 m (tree m (2 ^ L) x k i) (tree m (2 ^ L) x k (i + 2 ^ L / 2 ^ (k + 1)))).2.bits.getLsbD j = true := by
  obtain ⟨sum, flags⟩ := treeSum_eq m L x L le_rfl .none
  rw [Nat.sub_self] at sum flags
  refine ⟨sum, fun j => (flags j).trans ?_⟩
  simp [none_bits]

theorem best_singleton (r : Nat) : Best [r] r := by
  refine ⟨fun nan => nan r (List.mem_singleton_self r), fun ⟨z, hz, number⟩ => ⟨List.mem_singleton_self r, ?_, fun z hz => ?_⟩⟩
  · rwa [List.mem_singleton.1 hz] at number
  · rw [List.mem_singleton.1 hz]
    exact ⟨self_rel _, fun _ neg => neg⟩

/-- The greatest of a value and the elements that follow it, over all of them: NaNs ignored beside numbers, NV for a signalling one. -/
theorem max_all {f : Fmt} (hf : f ∈ fmts) (r : Nat) (l : List Nat) :
    let R := (l.map (convertFF f .f32 .rne false)).foldl (fun (acc : Nat × FFlags) x =>
      ((minMaxBits .f32 true acc.1 x.1).1, (acc.2.or x.2).or (minMaxBits .f32 true acc.1 x.1).2))
      (if (l.map (convertFF f .f32 .rne false)).isEmpty then minMaxBits .f32 true r r else (r, .none))
    Best (r :: l.map (widened f)) R.1 ∧ R.2 = invalid ((Fmt.f32.decode r).isSig || l.any (fun b => (f.decode b).isSig))
      ∧ ((∀ z ∈ r :: l.map (widened f), (Fmt.f32.decode z).isNan = true) → R.1 = Fmt.f32.nan) := by
  cases l with
  | nil =>
    have alone := best_step (w := r) (best_singleton r) (List.cons_ne_nil _ _)
    refine ⟨⟨fun nan => alone.1 ?_, fun number => ?_⟩, ?_, fun nan => ?_⟩
    · simpa using nan
    · obtain ⟨mem, rest⟩ := alone.2 (by simpa using number)
      exact ⟨by simpa using mem, by simpa using rest⟩
    · refine (minMax_flags .f32 true r r).trans ?_
      simp
    · exact (max_step r r).1 (nan r (by simp)) (nan r (by simp))
  | cons b l =>
    obtain ⟨best, flags, canonical⟩ := max_fold rounding f hf (b :: l) [r] (List.cons_ne_nil _ _) r false (best_singleton r)
    exact ⟨best, flags.trans (congrArg invalid (by simp)), canonical (List.cons_ne_nil _ _)⟩

theorem fmtOf_mem (e : BitVec 2) : fmtOf e ∈ fmts := by
  unfold fmtOf fmts
  split
  · simp
  · split <;> simp

/-- Settles O28: the tree by its levels, the greatest by the fold over the active elements. -/
theorem vectorFloatReductions : Obligations.vector_float_reductions := by
  intro s d a b p e f m P n x sum last zs num
  refine ⟨?vfredadd, ?vfredmax⟩
  case vfredadd =>
    obtain ⟨L, lanes⟩ := fmtOf_lanes e
    have count : n = 2 ^ L := lanes
    have log : Nat.log2 n = L := by rw [count, Nat.log2_two_pow]
    obtain ⟨total, flags⟩ := treeSum_lanes m L x
    rw [← count] at total flags
    have final : last = addBits .f32 m (flo .f32 (s.v b) 0) (tree m n x L 0) := by rw [← log]
    refine ⟨(treeSum m L ((List.range n).map x) .none).2.bits, putsV_of (or_bits _ _).symm ?_, ?_⟩
    · have lane : (fun i => if (s.p p).getLsbD i then fpLane (fpFmt e) (s.v a) i else .fin true 0 0) = x := by
        funext i
        rw [fpFmt_eq, flo_eq]
      show execVfredadd d a b p e s = _
      unfold execVfredadd State.putV
      dsimp only
      rw [lane, mode_eq, flo_eq, show 1024 / (fpFmt e).width = n from rfl, log, total, final]
    · rw [log]
      exact flags
  case vfredmax =>
    obtain ⟨best, flags, canonical⟩ := max_all (fmtOf_mem e) (el 32 (s.v b) 0) ((active n P).map (fun i => el f.width (s.v a) i))
    rw [List.map_map] at best canonical
    refine ⟨_, _, putsV_of rfl ?_, ⟨_, congrArg FFlags.bits flags, ?_⟩, canonical, best.2⟩
    · show execVfredmax d a b p e s = _
      unfold execVfredmax State.putV
      dsimp only
      rw [activeLanes_eq, lane_el]
      rfl
    · rw [Bool.or_eq_true, List.any_eq_true]
      simp only [List.mem_map, exists_exists_and_eq_and]
      rfl
end Sys2Proof
end

section
/-! SUPPORT. Conversions and quantisation (R217, R218, R231 to R234): what one element becomes, by what it denotes; then the lanes of VCVT, the
groups of VQUANT and VDEQ, and the nibbles of VPACK and VUNPK. -/
namespace Sys2Proof
open Machine Claims

/-! ### One element to a float (R217, R232) -/

theorem convertFF_nan {f : Fmt} {b : Nat} {q : Bool} (h : f.decode b = .nan q) (g : Fmt) (mode : RMode) (sat : Bool) :
    convertFF f g mode sat b = (g.nan, (nvIf q).2) := by
  unfold convertFF
  rw [h]
  rfl

theorem convertFF_inf {f : Fmt} {b : Nat} {n : Bool} (h : f.decode b = .inf n) (g : Fmt) (mode : RMode) (sat : Bool) :
    convertFF f g mode sat b
      = if g.ieee = true then (if (decide (g.width = 8) && sat) = true then (g.largest n, .none) else (g.inf n, .none))
        else if sat = true then (g.largest n, .none) else (g.nan, (nvIf true).2) := by
  unfold convertFF
  rw [h]
  rfl

/-- A value that is not zero is rounded once, and saturates in FP8 (R217). -/
theorem convertFF_narrowed {f g : Fmt} (hg : g ∈ fmts) {b : Nat} {n : Bool} {m : Nat} {e : Int} (h : f.decode b = .fin n m e) (hm : m ≠ 0)
    (mode : RMode) (sat : Bool) : Narrowed g mode sat (valQ (.fin n m e)) (convertFF f g mode sat b) := by
  unfold convertFF
  rw [h]
  dsimp only
  rw [if_neg hm]
  exact narrow_eq f g mode sat n _ _ (valQ_neg n m e hm) (roundRat_val rounding g hg mode n m e hm)

theorem convertFF_zero {f : Fmt} {b : Nat} {n : Bool} {e : Int} (h : f.decode b = .fin n 0 e) (g : Fmt) (mode : RMode) (sat : Bool) :
    convertFF f g mode sat b = (g.zero n, .none) := by
  unfold convertFF
  rw [h]
  rfl

/-- Every finite value of a narrower format is one of FP32 (R232). -/
theorem convertFF_widens {f : Fmt} (hf : f ∈ fmts) {b : Nat} {n : Bool} {m : Nat} {e : Int} (h : f.decode b = .fin n m e) (mode : RMode) (sat : Bool) :
    (convertFF f .f32 mode sat b).2 = .none ∧ FiniteAt .f32 (convertFF f .f32 mode sat b).1 (valQ (.fin n m e)) := by
  by_cases hm : m = 0
  · subst hm
    rw [convertFF_zero h, (valQ_eq_zero n 0 e).2 rfl]
    exact ⟨rfl, f32_zero n⟩
  · have exact_ : convertFF f .f32 mode sat b = roundRat .f32 mode n (scaleNum m e) (scaleDen e) := by
      unfold convertFF
      rw [h]
      dsimp only
      rw [if_neg hm, show decide (Fmt.f32.width = 8) = false from rfl]
      rfl
    rw [exact_]
    exact widen_exact rounding f hf b n m e mode h hm

/-- An integer that is not zero is rounded once, and saturates in FP8 (R217). -/
theorem convertIF_narrowed {g : Fmt} (hg : g ∈ fmts) (mode : RMode) (sat : Bool) {z : Int} (hz : z ≠ 0) :
    Narrowed g mode sat z (convertIF g mode sat z) := by
  unfold convertIF
  rw [if_neg hz]
  have value : (if decide (z < 0) = true then (-1 : ℚ) else 1) * (z.natAbs : Nat) / (1 : Nat) = z := by
    have size : ((z.natAbs : Nat) : ℚ) = |(z : ℚ)| := by rw [← Int.cast_abs, Int.abs_eq_natAbs, Int.cast_natCast]
    rw [size, Nat.cast_one, div_one]
    by_cases neg : z < 0
    · have : (z : ℚ) < 0 := by exact_mod_cast neg
      simp [neg, abs_of_neg this]
    · have : (0 : ℚ) ≤ z := by exact_mod_cast not_lt.1 neg
      simp [neg, abs_of_nonneg this]
  have rounded := rounding g hg mode (decide (z < 0)) z.natAbs 1 (Int.natAbs_pos.2 hz) Nat.one_pos
  rw [value] at rounded
  exact narrow_eq g g mode sat _ _ _ (by simp only [Int.cast_lt_zero]) rounded

/-! ### One element to an integer (R232) -/

theorem convertFI_nan {f : Fmt} {b : Nat} {q : Bool} (h : f.decode b = .nan q) (mode : RMode) (lo hi : Int) :
    convertFI f mode lo hi b = (0, (nvIf true).2) := by
  unfold convertFI
  rw [h]
  rfl

theorem convertFI_inf {f : Fmt} {b : Nat} {n : Bool} (h : f.decode b = .inf n) (mode : RMode) (lo hi : Int) :
    convertFI f mode lo hi b = (if n = true then lo else hi, (nvIf true).2) := by
  unfold convertFI
  rw [h]
  rfl

/-- A finite value is rounded to an integer; beyond the range it is the bound, and invalid. -/
theorem convertFI_fin {f : Fmt} {b : Nat} {n : Bool} {m : Nat} {e : Int} (h : f.decode b = .fin n m e) (mode : RMode) (lo hi : Int) :
    ∃ k, RoundsInt mode (valQ (.fin n m e)) k
      ∧ convertFI f mode lo hi b = (if k < lo then (lo, (nvIf true).2) else if hi < k then (hi, (nvIf true).2)
          else (k, { FFlags.none with nx := decide ((k : ℚ) ≠ valQ (.fin n m e)) })) := by
  obtain ⟨rounds, inexact⟩ := roundQuot_spec mode n (scaleNum m e) (scaleDen e) (scaleDen_pos e)
  rw [scale_val] at rounds inexact
  refine ⟨_, rounds, ?_⟩
  unfold convertFI
  rw [h]
  dsimp only
  rw [← Bool.eq_iff_iff.2 (inexact.trans decide_eq_true_iff.symm)]
  rfl

theorem laneBits_zero (w : Nat) : laneBits w 0 = 0 := by
  unfold laneBits
  simp

/-- Settles O30: one element by what it denotes, case by case. -/
theorem conversions : Obligations.conversions := by
  intro f hf g hg mode sat b w v sgn un hw hv fp fi i z small sel
  have toInt : fi = (fieldOf w (convertFI f mode (leastOf w sgn) (greatestOf w sgn) b).1,
    (convertFI f mode (leastOf w sgn) (greatestOf w sgn) b).2) :=
    Prod.ext (fieldOf_laneBits w _) rfl
  refine ⟨fun q nan => ⟨convertFF_nan nan g mode sat, ?_⟩, fun n inf => ?_, fun n m e fin => ⟨fun zero => ?_, fun hm => ?_, fun _ wide => ?_, ?_⟩,
    fun hb => ⟨fun zero => ?_, fun hz => ?_⟩, fun hb => ?_⟩
  · rw [toInt, convertFI_nan nan, ← fieldOf_laneBits, laneBits_zero]
  · have float : fp = _ := convertFF_inf inf g mode sat
    rw [float, toInt, convertFI_inf inf]
    refine ⟨fun narrow ieee => ?_, fun ieee => ?_, fun wide => ?_, rfl⟩
    · rw [if_pos ieee, decide_eq_true narrow, Bool.true_and]
    · rw [if_neg (by rw [ieee]; decide)]
    · have ieee : g.ieee = true := by
        simp only [fmts, List.mem_cons, List.mem_nil_iff, or_false] at hg
        rcases hg with rfl | rfl | rfl | rfl | rfl
        · rfl
        · rfl
        · rfl
        · exact absurd rfl wide
        · rfl
      rw [if_pos ieee, decide_eq_false wide]
      rfl
  · subst zero
    exact convertFF_zero fin g mode sat
  · exact convertFF_narrowed hg fin hm mode sat
  · subst wide
    exact convertFF_widens hf fin mode sat
  · obtain ⟨k, rounds, converted⟩ := convertFI_fin fin mode (leastOf w sgn) (greatestOf w sgn)
    rw [toInt, converted]
    refine ⟨k, rounds, fun below => ?_, fun above => ?_, fun low high => ?_⟩
    · rw [if_pos below]
    · have range : leastOf w sgn ≤ greatestOf w sgn := by
        have : (0 : Int) < 2 ^ (w - 1) := by positivity
        have : (0 : Int) < 2 ^ w := by positivity
        unfold leastOf greatestOf
        split <;> omega
      rw [if_neg (by omega), if_pos above]
    · rw [if_neg (by omega), if_neg (by omega)]
  · have int : i = convertIF g mode sat z := congrArg (convertIF g mode sat) (asInt_lane w sgn b hb)
    rw [int, zero]
    rfl
  · have int : i = convertIF g mode sat z := congrArg (convertIF g mode sat) (asInt_lane w sgn b hb)
    rw [int]
    exact convertIF_narrowed hg mode sat hz
  · have int : cvtBits (.int w sgn) (.int v un) mode sat b = (laneBits v (if sat then clampTo un v z else z), .none) := by
      show (laneBits v (if sat then clampTo un v (laneInt sgn w b) else laneInt sgn w b), FFlags.none) = _
      rw [asInt_lane w sgn b hb]
    rw [int, fieldOf_laneBits, clamp_range]

/-! ### The lanes of VCVT (R231) -/

theorem lanes_room (a b : Nat) : b * (1024 / max a b) ≤ 1024 :=
  le_trans (Nat.mul_le_mul_right _ (le_max_right a b)) (Nat.mul_div_le 1024 (max a b))

/-- Settles O29: every lane converted, the rest zero. -/
theorem vectorConvert : Obligations.vector_convert := by
  intro s d a x y r t src dst m mode one
  have converted : (fun j => cvtBits src dst (if r = 4 then s.mode else .ofCode r.toNat) (t == 1) (lane src.width (s.v a) j)) = one := by
    funext j
    rw [lane_el, mode_eq]
  refine ⟨ofLanes dst.width m (fun i => (one i).1), putsV_of (raised_eq m _ one) ?_, fun i hi => el_ofLanes _ _ _ (lanes_room _ _) i hi, ?_⟩
  · rw [← converted]
    rfl
  · rw [Nat.mul_comm]
    exact ofLanes_lt _ _ _ (lanes_room _ _)

/-! ### VQUANT (R218, R233) -/

/-- The register at element i of a group, and the element in it, as VQUANT reads them. -/
def groupElement (s : State) (a : BitVec 5) (i : Nat) : FVal := flo .f32 (s.v (a + BitVec.ofNat 5 (i / 32))) (i % 32)
/-- What is no finite number. -/
def notFinite (x : FVal) : Bool := match x with
  | .fin _ _ _ => false
  | _ => true

theorem notFinite_iff (x : FVal) : notFinite x = true ↔ ∀ n m e, x ≠ .fin n m e := by
  cases x with
  | nan q => simp [notFinite]
  | inf n => simp [notFinite]
  | fin n m e => simp [notFinite]

/-- A predicate of n bits, bit by bit. -/
theorem packed_bit {n : Nat} (hn : n ≤ 128) (f : Nat → Bool) {i : Nat} (hi : i < 128) :
    (BitVec.ofNat 128 (packLanes 1 ((List.range n).map (fun i => if f i then 1 else 0)))).getLsbD i = true ↔ i < n ∧ f i = true := by
  have bits := compareBits_get n (BitVec.allOnes 128) 0 f i hi hn
  have all : (List.range n).map (fun i => if (if (BitVec.allOnes 128).getLsbD i then f i else (0 : Pred).getLsbD i) then 1 else 0)
      = (List.range n).map (fun i => if f i then 1 else 0) := by
    refine List.map_congr_left fun j hj => ?_
    rw [if_pos (all_bits j (by have := List.mem_range.1 hj; omega))]
  unfold compareBits at bits
  rw [all, all_bits i hi] at bits
  simpa using bits

/-- Codes of b bits, packed into a register. -/
theorem packed_codes {b n : Nat} (room : b * n ≤ 1024) (q : Nat → Int) :
    (∀ i, i < n → el b (BitVec.ofNat 1024 (packLanes b ((List.range n).map (fun i => fieldOf b (q i))))) i = fieldOf b (q i))
    ∧ (BitVec.ofNat 1024 (packLanes b ((List.range n).map (fun i => fieldOf b (q i))))).toNat < 2 ^ (b * n) := by
  have codes : ∀ x ∈ (List.range n).map (fun i => fieldOf b (q i)), x < 2 ^ b := fun x hx => by
    obtain ⟨i, -, rfl⟩ := List.mem_map.1 hx
    exact fieldOf_lt b (q i)
  have length : ((List.range n).map (fun i => fieldOf b (q i))).length = n := by simp
  refine ⟨fun i hi => ?_, ?_⟩
  · rw [el_pack b _ codes (by rwa [length]), List.getD_eq_getElem _ _ (by rwa [length])]
    simp
  · rw [ofNat_pack b _ codes (by rwa [length])]
    have := packLanes_lt b _ codes
    rwa [length] at this

/-- An instruction that writes a v register, a g register, FLAGS and a predicate completes with these and nothing else. -/
theorem registers_written {s : State} (d g : BitVec 5) (q : BitVec 3) (v : Vec) (x : U64) (f : FFlags) (y : Pred) :
    let t := ((((s.setV d v).wr g x).addFlags f).setP q y).retire
    Registers s t (gSet s g { bits := 0#64 ++ x, tag := false }) (vSet s d v) (pSet s q y) (s.self.flags ||| f.bits) ∧ Retired s t := by
  intro t
  have hg := fun n => gSet_setG (s.setV d v) g n (c := { bits := 0#64 ++ x, tag := false })
  have hp := fun n => pSet_setP (((s.setV d v).setG g { bits := 0#64 ++ x, tag := false }).addFlags f) q n y
  obtain ⟨g', eg⟩ := setG_shape (s.setV d v) g { bits := 0#64 ++ x, tag := false }
  obtain ⟨p', ep⟩ := setP_shape (((s.setV d v).setG g { bits := 0#64 ++ x, tag := false }).addFlags f) q y
  have shape : t = ((((s.setV d v).setG g { bits := 0#64 ++ x, tag := false }).addFlags f).setP q y).retire := by rw [← wr_eq]
  rw [ep] at hp shape
  rw [eg] at hg hp shape
  rw [shape]
  exact ⟨⟨hg, fun n => vSet_setV s d n v, hp, rfl, slotFrame_flags rfl rfl, rfl, fun a => byteAt_self s _ a⟩, rfl, rfl, rfl, rfl, rfl⟩

theorem addFlags_none (s : State) : s.addFlags .none = s := by
  unfold State.addFlags
  simp [none_bits]

theorem quantised_group (f : BitVec 2) : (if f.getLsbD 0 = true then 4 else 8) = quantBits f := (code_eq f).symm

/-- A group fills at most a register with its codes, and at most four registers with its elements (R233). -/
theorem group_room {r f : BitVec 2} {within : Bool} (wf : (r != 3 && within) = true) :
    32 * 2 ^ r.toNat ≤ 128 ∧ quantBits f * (32 * 2 ^ r.toNat) ≤ 1024 := by
  have hr : r ≠ 3 := bne_iff_ne.1 (Bool.and_eq_true_iff.1 wf).1
  have size : 2 ^ r.toNat ≤ 2 ^ 2 := Nat.pow_le_pow_right (by decide) (by
    have := r.isLt
    have : r.toNat ≠ 3 := fun h => hr (BitVec.eq_of_toNat_eq h)
    omega)
  have bits : quantBits f ≤ 8 := by
    unfold quantBits
    split <;> decide
  exact ⟨by omega, le_trans (Nat.mul_le_mul bits (Nat.mul_le_mul_left 32 size)) (by decide)⟩

/-- VQUANT of a group with a NaN or an infinity, and of one without. -/
theorem exec_vquant (d a g : BitVec 5) (r f : BitVec 2) (s : State) :
    exec (.vquant d a g r f) s
      = if ((List.range (32 * 2 ^ r.toNat)).any fun i => notFinite (groupElement s a i)) = true then
          .next (((((s.setV d 0).wr g 0x7E00).addFlags (invalid true)).setP 7 (BitVec.ofNat 128
            (packLanes 1 ((List.range (32 * 2 ^ r.toNat)).map (fun i => if notFinite (groupElement s a i) then 1 else 0))))).retire)
        else
          let q := quantise f ((List.range (32 * 2 ^ r.toNat)).map (fun i => Rat2.ofVal (groupElement s a i)))
          .next (((((s.setV d (BitVec.ofNat 1024 (packLanes (quantBits f) q.2.2))).wr g
            (BitVec.ofNat 64 (q.1 + 65536 * q.2.1))).addFlags .none).setP 7 0).retire) := by
  show execVquant d a g r f s = _
  unfold execVquant
  simp only [flo_eq, addFlags_none]
  rfl

theorem vectorQuantise : Claims.VectorQuantise := by
  intro s d a g r f wf n b x bad does
  obtain ⟨lanes, room⟩ := group_room (f := f) (within := decide (a.toNat + 2 ^ r.toNat < 33)) wf
  have odd (i : Nat) : notFinite (groupElement s a i) = true ↔ bad i := notFinite_iff _
  have any : ((List.range (32 * 2 ^ r.toNat)).any fun i => notFinite (groupElement s a i)) = true ↔ ∃ i, i < n ∧ bad i := by
    simp only [List.any_eq_true, List.mem_range, odd]
    rfl
  have runs := exec_vquant d a g r f s
  refine ⟨fun some => ?_, fun none => ?_⟩
  · rw [if_pos (any.2 some)] at runs
    obtain ⟨written, retired⟩ := registers_written (s := s) d g 7 0 0x7E00 (invalid true)
      (BitVec.ofNat 128 (packLanes 1 ((List.range (32 * 2 ^ r.toNat)).map (fun i => if notFinite (groupElement s a i) then 1 else 0))))
    refine ⟨_, ⟨_, runs, written, retired⟩, fun i hi => ?_⟩
    rw [packed_bit lanes _ hi, odd]
  · rw [if_neg (mt any.1 (fun ⟨i, hi, h⟩ => none i hi h))] at runs
    obtain ⟨z, q, zero, quantised, codes⟩ := quantise_spec rounding f n x
    dsimp only at runs
    change exec (.vquant d a g r f) s = .next (((((s.setV d (BitVec.ofNat 1024 (packLanes (quantBits f)
      (quantise f ((List.range n).map (fun i => Rat2.ofVal (x i)))).2.2))).wr g
        (BitVec.ofNat 64 ((quantise f ((List.range n).map (fun i => Rat2.ofVal (x i)))).1
        + 65536 * (quantise f ((List.range n).map (fun i => Rat2.ofVal (x i)))).2.1))).addFlags .none).setP 7 0).retire) at runs
    rw [zero, codes] at runs
    obtain ⟨written, retired⟩ := registers_written (s := s) d g 7 (BitVec.ofNat 1024
        (packLanes (quantBits f) ((List.range n).map (fun i => fieldOf (quantBits f) (q i)))))
      (BitVec.ofNat 64 ((quantise f ((List.range n).map (fun i => Rat2.ofVal (x i)))).1 + 65536 * z.toNat)) .none 0
    obtain ⟨elements, small⟩ := packed_codes room q
    have width : b = quantBits f := quantised_group f
    rw [width]
    exact ⟨_, _, z, q, ⟨_, runs, written, retired⟩, quantised, elements, small⟩

/-! ### VPACK, VUNPK and VDEQ (R218, R234) -/

theorem packs : Claims.Packs := by
  intro s d a f u k
  have half : 4 * 128 = 512 := rfl
  rw [← half]
  refine ⟨⟨_, putsV0_of rfl, ofLanes_lt 4 128 _ (by decide), fun i hi => ?_⟩, elementsAll_of (by decide) rfl fun i _ => ?_⟩
  · rw [el_ofLanes 4 128 _ (by decide) i hi, lane_el]
    by_cases unsigned : f = 0
    · rw [if_pos unsigned, if_pos unsigned]
      exact Nat.mod_eq_of_lt (by omega)
    · rw [if_neg unsigned, if_neg unsigned, fieldOf_laneBits, Nat.mod_eq_of_lt (fieldOf_lt 4 _), signedAt_lane 8 _ (el_lt 8 _ _)]
      rfl
  · rw [lane_el]
    by_cases unsigned : f = 0
    · rw [if_pos unsigned, if_pos unsigned]
    · rw [if_neg unsigned, if_neg unsigned, laneBits_mod, signedAt_lane 4 _ (el_lt 4 _ _)]

/-- The code of an element less the zero point, as VDEQ multiplies it (R234). -/
def codeLessZero (s : State) (a g : BitVec 5) (f : BitVec 2) (i : Nat) : Int :=
  asInt (quantBits f) (f.getLsbD 1) (el (quantBits f) (s.v a) i) - if f.getLsbD 1 = true then (0 : Int) else ((s.x g).toNat / 2 ^ 16 % 2 ^ 8 : Nat)
/-- One element of VDEQ. -/
def dequantised (s : State) (a g : BitVec 5) (f : BitVec 2) (i : Nat) : Nat × FFlags :=
  dequantBits ((s.x g).toNat % 2 ^ 16) (el (quantBits f) (s.v a) i) (codeLessZero s a g f i)
/-- The flags of a group's elements. -/
def dequantFlags (s : State) (a g : BitVec 5) (f : BitVec 2) (n : Nat) : FFlags := (List.range n).foldl (fun fl i => fl.or (dequantised s a g f i).2) .none

theorem codeLessZero_small (s : State) (a g : BitVec 5) (f : BitVec 2) (i : Nat) : (codeLessZero s a g f i).natAbs < 2 ^ 9 := by
  have bits : quantBits f ≤ 8 ∧ 0 < quantBits f := by unfold quantBits; split <;> decide
  obtain ⟨low, high⟩ := asInt_bound (quantBits f) (f.getLsbD 1) (el (quantBits f) (s.v a) i) bits.1 bits.2
  unfold codeLessZero
  split <;> omega

/-- VDEQ writes its elements to the registers of the group and gathers their flags. -/
theorem exec_vdeq (d a g : BitVec 5) (r f : BitVec 2) (s : State) :
    exec (.vdeq d a g r f) s = .next (((List.range (2 ^ r.toNat)).foldl
      (fun t k => t.setV (d + BitVec.ofNat 5 k) (ofLanes 32 32 (fun j => (dequantised s a g f (32 * k + j)).1)))
      (s.addFlags (dequantFlags s a g f (32 * 2 ^ r.toNat)))).retire) := by
  have registers : groupSize r / 32 = 2 ^ r.toNat := Nat.mul_div_cancel_left _ (by decide)
  have one (i : Nat) : dequantBits ((s.x g).toNat % 65536) (lane (quantBits f) (s.v a) i) (laneInt (quantSigned f) (quantBits f)
      (lane (quantBits f) (s.v a) i) - if quantSigned f = true then (0 : Int) else ((s.x g).toNat / 65536 % 256 : Nat)) = dequantised s a g f i := by
    rw [lane_el, asInt_lane _ _ _ (el_lt _ _ _)]
    rfl
  show execVdeq d a g r f s = _
  unfold execVdeq
  simp only [registers, one]
  rfl

/-- The bits and the flags of the elements of a group, by what the scale denotes (R234). -/
theorem dequantised_spec (s : State) (a g : BitVec 5) (f : BitVec 2) (i : Nat) :
    (dequantised s a g f i).1 < 2 ^ 32 ∧
    match Fmt.f16.decode ((s.x g).toNat % 2 ^ 16) with
    | .nan sig => dequantised s a g f i = (Fmt.f32.nan, invalid sig)
    | .inf neg => (codeLessZero s a g f i = 0 → (dequantised s a g f i).1 = Fmt.f32.nan)
        ∧ (codeLessZero s a g f i ≠ 0 → (dequantised s a g f i).1 = Fmt.f32.inf (neg != decide (codeLessZero s a g f i < 0)))
        ∧ (dequantised s a g f i).2 = invalid (decide (codeLessZero s a g f i = 0))
    | .fin neg m e => FiniteAt .f32 (dequantised s a g f i).1 (valQ (.fin neg m e) * codeLessZero s a g f i) ∧ (dequantised s a g f i).2 = .none := by
  have spec := dequant_spec rounding ((s.x g).toNat % 2 ^ 16) (el (quantBits f) (s.v a) i) _ (codeLessZero_small s a g f i)
  rw [show dequantBits _ _ _ = dequantised s a g f i from rfl] at spec
  generalize dequantised s a g f i = x at *
  cases scale : Fmt.f16.decode ((s.x g).toNat % 2 ^ 16) with
  | nan sig =>
    rw [scale] at spec
    rw [spec]
    exact ⟨(by decide : Fmt.f32.nan < 2 ^ 32), rfl⟩
  | inf neg =>
    rw [scale] at spec
    subst spec
    by_cases zero : codeLessZero s a g f i = 0
    · simp only [zero, if_true]
      exact ⟨by decide, fun _ => trivial, fun h => absurd rfl h, by simp⟩
    · simp only [zero, if_false]
      refine ⟨?_, fun h => absurd h (by simp), fun _ => trivial, by simp; rfl⟩
      cases neg != decide (codeLessZero s a g f i < 0) <;> decide
  | fin neg m e =>
    rw [scale] at spec
    exact ⟨finiteAt_lt spec.1, spec⟩

/-- The flags of a group whose elements are each invalid or not. -/
theorem dequantFlags_invalid {s : State} {a g : BitVec 5} {f : BitVec 2} {bad : Nat → Bool} (h : ∀ i, (dequantised s a g f i).2 = invalid (bad i))
    (n : Nat) :
    (dequantFlags s a g f n).bits = (nvIf ((List.range n).any bad)).2.bits := by
  unfold dequantFlags
  rw [show (fun (fl : FFlags) i => fl.or (dequantised s a g f i).2) = fun fl i => fl.or (invalid (bad i)) from funext₂ fun fl i => by rw [h],
    show FFlags.none = invalid false from rfl, foldl_or_inv, Bool.false_or, invalid_bits]

theorem vectorDequantise : Claims.VectorDequantise := by
  refine ⟨packs, ?_⟩
  intro s d a g r f wf n b sc z q
  have width : b = quantBits f := quantised_group f
  have code (i : Nat) : q i = codeLessZero s a g f i := by
    show asInt b _ (el b _ i) - _ = _
    rw [width]
    rfl
  have count : 2 ^ r.toNat ≤ 32 := Nat.pow_le_pow_right (j := 5) (by decide) (by have := r.isLt; omega)
  obtain ⟨v', folded, registers⟩ := setV_fold (s.addFlags (dequantFlags s a g f n)) d
    (fun k => ofLanes 32 32 (fun j => (dequantised s a g f (32 * k + j)).1)) (2 ^ r.toNat) count
  refine ⟨_, fun i => (dequantised s a g f i).1, (dequantFlags s a g f n).bits,
    (exec_vdeq d a g r f s).trans (congrArg (fun t : State => Host.Outcome.next t.retire) folded), ⟨rfl, rfl, rfl, rfl, rfl⟩,
    ⟨fun _ => rfl, fun _ => rfl, fun _ => rfl, rfl,
      slotFrame_flags rfl rfl, rfl, fun a => byteAt_self s _ a⟩, fun k hk j hj => ?_, fun k hk => ?_, fun i hi => ?_⟩
  · show el 32 v'[k.toNat] j = _
    rw [registers, if_pos hk, el_ofLanes 32 32 _ (by decide) j hj]
    exact Nat.mod_eq_of_lt (dequantised_spec s a g f _).1
  · show v'[k.toNat] = _
    rw [registers, if_neg (not_lt.2 hk)]
    rfl
  · have each := fun j => (dequantised_spec s a g f j).2
    cases scale : Fmt.f16.decode sc with
    | nan sig =>
      rw [show Fmt.f16.decode ((s.x g).toNat % 2 ^ 16) = .nan sig from scale] at each
      dsimp only at each ⊢
      refine ⟨by rw [each], ?_⟩
      have raised : ((List.range n).any fun _ => sig) = sig := by
        rw [Bool.eq_iff_iff, List.any_eq_true]
        exact ⟨fun ⟨_, _, h⟩ => h, fun h => ⟨i, List.mem_range.2 hi, h⟩⟩
      rw [dequantFlags_invalid (bad := fun _ => sig) (fun j => by rw [each]), raised]
    | inf neg =>
      rw [show Fmt.f16.decode ((s.x g).toNat % 2 ^ 16) = .inf neg from scale] at each
      dsimp only at each ⊢
      obtain ⟨canonical, infinite, -⟩ := each i
      rw [code]
      refine ⟨canonical, infinite, ?_⟩
      have raised : ((List.range n).any fun j => decide (codeLessZero s a g f j = 0)) = decide (∃ j, j < n ∧ q j = 0) := by
        rw [Bool.eq_iff_iff, List.any_eq_true]
        simp only [decide_eq_true_eq, List.mem_range, code]
      rw [dequantFlags_invalid fun j => (each j).2.2, raised]
    | fin neg m e =>
      rw [show Fmt.f16.decode ((s.x g).toNat % 2 ^ 16) = .fin neg m e from scale] at each
      dsimp only at each ⊢
      rw [code]
      refine ⟨(each i).1, ?_⟩
      rw [dequantFlags_invalid (bad := fun _ => false) fun j => (each j).2]
      simp [nvIf_eq, invalid, FFlags.none, FFlags.bits]

/-- Settles O31: VQUANT by its group's bad elements or its codes, VDEQ by what its scale denotes. -/
theorem quantisation : Obligations.quantisation := ⟨vectorQuantise, vectorDequantise⟩
end Sys2Proof
end

section
/-! SUPPORT. Vector loads and stores (R226, R227): VLDB's one read, and the traps of bounds and alignment with the lanes that they name; then the
statements of accesses in lanes. -/
namespace Sys2Proof
open Machine Claims

/-! ### Lanes and their masks -/

theorem laneMask_lanesOf (L : List Nat) (ea : Nat → U64) (n : Nat) {j : Nat} (hj : j < 128) : (laneMask (lanesOf L ea n)).getLsbD j = true ↔ j ∈ L := by
  refine (foldl_mask L 0 ea n j).trans ?_
  simp [hj]

theorem laneMask_bits (L : List Nat) (ea : Nat → U64) (n : Nat) : laneMask (lanesOf L ea n) = L.foldl (fun m i => m ||| bit i) 0 := by
  unfold laneMask lanesOf
  rw [List.foldl_map]
  rfl

/-! ### VLDB reads once (R226) -/

/-- The lanes that VLDB reads: the first active one, with the mask of all. -/
def broadcastLanes (L : List Nat) (ea : Nat → U64) (n : Nat) : List Lane :=
  ((lanesOf L ea n).take 1).map fun x => { x with mask := laneMask (lanesOf L ea n) }

theorem broadcastLanes_eq (L : List Nat) (ea : Nat → U64) (n : Nat) :
    broadcastLanes L ea n = (L.take 1).map fun i => { i := i, ea := ea i, n := n, mask := L.foldl (fun m i => m ||| bit i) 0 } := by
  unfold broadcastLanes
  rw [laneMask_bits, lanesOf, ← List.map_take, List.map_map]
  rfl

/-- What lanes read, by their numbers (R129). -/
def lanesSeen (s : State) (lanes : List Lane) : List (Nat × Nat) :=
  lanes.map fun x => (x.i, ({ s with free := s.free + x.i } : State).seenN s.self.agent (s.localAddr x.ea.toNat) x.n)
/-- The first value that lanes loaded, as VLDB takes it. -/
def firstLoaded (l : List (Nat × Nat)) : Nat := match l with
  | x :: _ => x.2
  | [] => 0

/-- VLDB: one read where a lane is active, and its value in every active lane. -/
theorem vldb_reads_once {s : State} {d a b : BitVec 5} {p : BitVec 3} {z : BitVec 2} :
    let n := 2 ^ z.toNat
    let one (_ : Nat) : U64 := s.x a + s.x b
    let L := active (128 / n) (s.p p)
    LanesPass s (s.g a) .r false true n (L.take 1) one →
      ∃ v r, LoadsLanes (.vldb d a b p z) s (vSet s d v) ((L.take 1).map (fun j => (laneOf s one n false j, L.foldl (fun m i => m ||| bit i) 0)))
        ∧ (L ≠ [] → MayRead s (s.localAddr (one 0).toNat) n r) ∧ ∀ j, j < 128 / n →
        el (8 * n) v j = if (s.p p).getLsbD j = true then r else el (8 * n) (s.v d) j := by
  intro n one L pass
  have lanes := broadcastLanes_eq L one n
  have each : ∀ x ∈ broadcastLanes L one n, ∃ i ∈ L.take 1, x.ea = one i ∧ x.n = n := fun x hx => by
    rw [lanes] at hx
    obtain ⟨i, hi, rfl⟩ := List.mem_map.1 hx
    exact ⟨i, hi, rfl, rfl⟩
  obtain ⟨free, loaded⟩ := loadLanes_ok (al2 := true) (first := s.x a + s.x b) pass (fun h => h) each
  have hits : (broadcastLanes L one n).map (laneHit s false) = (L.take 1).map (fun j => (laneOf s one n false j, L.foldl (fun m i => m ||| bit i) 0)) := by
    rw [lanes, List.map_map]
    rfl
  have runs : exec (.vldb d a b p z) s = finish (do
      let (t, l) ← s.loadLanes a (s.g a) true (broadcastLanes L one n) (s.x a + s.x b)
      .ok ((t.setV d (mergeLanes (8 * n) (128 / n) (s.p p) (s.v d) (fun _ => firstLoaded l))).retire)) := rfl
  rw [loaded] at runs
  have loads := loadsLanes_of (hits_ok (pow_ok z).1 pass each) runs
  rw [hits] at loads
  have value : ∀ r, (∀ j ∈ L, r % 2 ^ (8 * n) = r) → ∀ j, j < 128 / n → el (8 * n) (mergeLanes (8 * n) (128 / n) (s.p p) (s.v d) (fun _ => r)) j
      = if (s.p p).getLsbD j = true then r else el (8 * n) (s.v d) j := fun r fits j hj => by
    unfold mergeLanes
    rw [el_ofLanes _ _ _ (lanes_width n) j hj]
    by_cases on : (s.p p).getLsbD j = true
    · rw [if_pos on, if_pos on, fits j (mem_active hj on)]
    · rw [if_neg on, if_neg on, lane_el, Nat.mod_eq_of_lt (el_lt _ _ _)]
  refine ⟨_, firstLoaded (lanesSeen s (broadcastLanes L one n)), loads, ?_⟩
  change (L ≠ [] → MayRead s _ n (firstLoaded (lanesSeen s (broadcastLanes L one n)))) ∧ ∀ j, j < 128 / n →
    el (8 * n) (mergeLanes (8 * n) (128 / n) (s.p p) (s.v d) (fun _ => firstLoaded (lanesSeen s (broadcastLanes L one n)))) j = _
  rw [lanes]
  cases first : L with
  | nil => exact ⟨fun some => absurd rfl some, value 0 fun _ _ => Nat.zero_mod _⟩
  | cons i rest =>
    have seen := seen_mayRead s s.self.agent (s.localAddr (one 0).toNat) n (s.free + i)
    exact ⟨fun _ => seen, value _ fun _ _ => el_mod n _ s _ _ seen⟩

theorem indexLanes_eq (s : State) (d a b : BitVec 5) (p : BitVec 3) (n : Nat) : s.indexLanes d a b p n = s.vlanes p n (eaIndex s d a b n) := by
  unfold State.indexLanes
  simp only [lane_el]
  rfl

/-- Settles O32: the strided and indexed loads lane by lane, VLDB by its one read. -/
theorem vectorLoads : Obligations.vector_loads := by
  intro s d a b p z y n k c L ld one
  have indexed : exec (.vldx d a b p y) s = s.vload d a b p k (lanesOf (active (128 / k) (s.p p)) (eaIndex s d a b k) k) := by
    rw [← vlanes_eq, ← indexLanes_eq]
    rfl
  exact ⟨vload_ok (ea := eaUnit s a b n) (pow_ok z).1 rfl, vload_ok (ea := eaStride s a b) (pow_ok z).1 rfl,
    vload_ok (ea := eaIndex s d a b k) (pow_ok1 y).1 indexed, vldb_reads_once⟩

/-- Settles O33: the active lanes stored one after another. -/
theorem vectorStores : Obligations.vector_stores := by
  intro s d a b p z y n k st
  have indexed : exec (.vstx d a b p y) s = s.vstore d a b k (lanesOf (active (128 / k) (s.p p)) (eaIndex s d a b k) k) := by
    rw [← vlanes_eq, ← indexLanes_eq]
    rfl
  exact ⟨vstore_ok (ea := eaUnit s a b n) (pow_ok z).1 (pow_ok z).2 rfl, vstore_ok (ea := eaStride s a b) (pow_ok z).1 (pow_ok z).2 rfl,
    vstore_ok (ea := eaIndex s d a b k) (pow_ok1 y).1 (pow_ok1 y).2 indexed⟩

/-! ### The traps of bounds and alignment (R227, steps 2 and 3) -/

theorem filter_lanesOf (L : List Nat) (ea : Nat → U64) (n : Nat) (f : Lane → Bool) (g : Nat → Bool) (h : ∀ i, f (.single i (ea i) n) = g i) :
    (lanesOf L ea n).filter f = lanesOf (L.filter g) ea n := by
  unfold lanesOf
  rw [List.filter_map]
  congr 1
  exact List.filter_congr fun i _ => h i

/-- The lanes out of bounds, and those misaligned. -/
def outOfBounds (c : Cap) (ea : Nat → U64) (n i : Nat) : Bool := !c.inBounds (ea i).toNat n
def misaligned (ea : Nat → U64) (n i : Nat) : Bool := (ea i).toNat % n != 0

/-- With the capability in order, a lane out of bounds stops the access; with none, a misaligned one does (R227). -/
theorem laneCheck_stops {s : State} {r : BitVec 5} {c : Cap} {need : Perm} {write : Bool} {first : U64} {L : List Nat} {ea : Nat → U64} {n j : Nat}
    {rest : List Nat} (pass : s.capClass c need = none) :
    (L.filter (outOfBounds c ea n) = j :: rest → s.laneCheck r c need write true (lanesOf L ea n) first
      = .error (s.takeTrap { cls := 0x04, addr := ea j, lanes := laneMask (lanesOf (L.filter (outOfBounds c ea n)) ea n), agent := 0 }))
    ∧ (L.filter (outOfBounds c ea n) = [] → L.filter (misaligned ea n) = j :: rest → s.laneCheck r c need write true (lanesOf L ea n) first
      = .error (s.takeTrap { cls := 0x0B, addr := ea j, lanes := laneMask (lanesOf (L.filter (misaligned ea n)) ea n), agent := 0 })) := by
  have out := filter_lanesOf L ea n (fun x => !c.inBounds x.ea.toNat x.n) (outOfBounds c ea n) fun _ => rfl
  have off := filter_lanesOf L ea n (fun x => x.ea.toNat % x.n != 0) (misaligned ea n) fun _ => rfl
  unfold State.laneCheck
  rw [pass]
  dsimp only
  rw [out, if_pos rfl, off]
  refine ⟨fun lowest => ?_, fun none lowest => ?_⟩
  · rw [lowest]
    rfl
  · rw [none, lowest]
    rfl

/-- A vector load or store whose lanes stop takes their trap. -/
theorem vector_access_stops {s : State} {d a b : BitVec 5} {p : BitVec 3} {z : BitVec 2} {write : Bool} {t : State} (idle : s.self.sent = [])
    (stops : s.laneCheck a (s.g a) (if write = true then .w else .r) write true
      (lanesOf (active (128 / 2 ^ z.toNat) (s.p p)) (eaUnit s a b (2 ^ z.toNat)) (2 ^ z.toNat)) (s.x a + s.x b) = .error t) :
    exec (if write = true then .vst d a b p z else .vld d a b p z) s = .next t := by
  cases write with
  | false =>
    show finish (do
      let (t, l) ← s.loadLanes a (s.g a) true (lanesOf (active (128 / 2 ^ z.toNat) (s.p p)) (eaUnit s a b (2 ^ z.toNat)) (2 ^ z.toNat)) (s.x a + s.x b)
      .ok ((t.setV d (mergeLanes (8 * 2 ^ z.toNat) (128 / 2 ^ z.toNat) (s.p p) (s.v d) (laneValue l))).retire)) = _
    unfold State.loadLanes
    rw [show s.laneCheck a (s.g a) .r false true _ _ = _ from stops]
    rfl
  | true =>
    show finish (do
      let t ← s.saveLanes a (s.g a) true (lanesOf (active (128 / 2 ^ z.toNat) (s.p p)) (eaUnit s a b (2 ^ z.toNat)) (2 ^ z.toNat)) (s.x a + s.x b)
        (lane (8 * 2 ^ z.toNat) (s.v d))
      .ok t.retire) = _
    unfold State.saveLanes
    rw [show s.laneCheck a (s.g a) .w true true _ _ = _ from stops, idle]
    rfl

/-- A trap whose mask is that of the lanes that a test picks names the lanes that fail it. -/
theorem lanesTrap_of {s : State} {k : BitVec 6} {ea : Nat → U64} {n j : Nat} {L : List Nat} {test : Nat → Bool} {bad : Nat → Prop}
    {o : Host.Outcome State Fault Refusal} (fails : ∀ i, test i = true ↔ bad i)
    (taken : o = .next (s.takeTrap { cls := k, addr := ea j, lanes := laneMask (lanesOf (L.filter test) ea n), agent := 0 })) :
    lanesTrap s k (ea j) L bad o :=
  ⟨_, taken, fun i hi => by rw [laneMask_lanesOf _ _ _ hi, List.mem_filter, fails]⟩

/-- Settles O34: the lanes that fail a step are those its filter keeps, the lowest first. -/
theorem vectorLaneTraps : Obligations.vector_lane_traps := by
  intro s d a b p z write n c L ea i out off tag unsealed live held idle
  have outTest (j : Nat) : outOfBounds c ea n j = true ↔ out j := by
    unfold outOfBounds Cap.inBounds
    rw [Bool.not_eq_true', Bool.and_eq_false_iff, decide_eq_false_iff_not, decide_eq_false_iff_not, ← not_and_or, Nat.cast_add]
  have offTest (j : Nat) : misaligned ea n j = true ↔ off j := bne_iff_ne
  have lowest {test : Nat → Bool} {bad : Nat → Prop} (h : ∀ i, test i = true ↔ bad i) (j : Nat) (hj : j ∈ L) (fails : bad j)
      (least : ∀ m ∈ L, m < j → ¬bad m) : ∃ rest, L.filter test = j :: rest :=
    filter_head L test (active_sorted _ _) j hj ((h j).2 fails) fun m hm lt => Bool.eq_false_iff.2 (mt (h m).1 (least m hm lt))
  have pass := capClass_ok tag unsealed live held
  refine ⟨fun j hj fails least => ?_, fun inside j hj fails least => ?_⟩
  · obtain ⟨rest, first⟩ := lowest outTest j hj fails least
    exact lanesTrap_of outTest (vector_access_stops idle ((laneCheck_stops pass).1 first))
  · obtain ⟨rest, first⟩ := lowest offTest j hj fails least
    have none : L.filter (outOfBounds c ea n) = [] := List.filter_eq_nil_iff.2 fun m hm => mt (outTest m).1 (inside m hm)
    exact lanesTrap_of offTest (vector_access_stops idle ((laneCheck_stops pass).2 none first))
end Sys2Proof
end

section
/-! SUPPORT. The loom's array (R251, R252): the window of a command, its products one by one, the cells and the row flags after it; then the
statement of the array's arithmetic. -/
namespace Sys2Proof
open Machine Claims

/-! ### The window and the operands -/

/-- The window exponent that a command is performed with (R251). -/
def commandWindow (l : Loom) (pair : Nat) : Int := if l.dflt = true then pairWindow pair else l.w.toInt

/-- The zero point of row or column j, as the array subtracts it. -/
def zeroCode (z : Bool) (w : U64) (st : Strip) (j : Nat) : Int :=
  if z && (shapeFmt w == 5 || shapeFmt w == 7) && shapeStrip w then ((st.extractLsb' (8 * j) (fmtBits (shapeFmt w))).toNat : Int) else 0

theorem pairWindow_range (p : Nat) : -64 ≤ pairWindow p ∧ pairWindow p ≤ 0 := by
  unfold pairWindow
  split <;> decide

/-- The window register holds every window exponent. -/
theorem commandWindow_register (l : Loom) (pair : Nat) : (BitVec.ofInt 8 (commandWindow l pair)).toInt = commandWindow l pair := by
  unfold commandWindow
  split
  · obtain ⟨low, high⟩ := pairWindow_range pair
    rw [BitVec.toInt_ofInt]
    apply Int.bmod_eq_of_le <;> omega
  · rw [BitVec.ofInt_toInt]

/-- Shapes that fit a pair are of tile formats. -/
theorem formats_of_shapesFit {pair : Nat} {wa wb : U64} (fits : shapesFit pair wa wb = true) : shapeFmt wa < 8 ∧ shapeFmt wb < 8 := by
  simp only [shapesFit, shapeValid, Bool.and_eq_true, decide_eq_true_eq] at fits
  tauto

/-- An element under a shape of a tile format has the value of its code. -/
theorem elementVal_element (t : TileData) {w : U64} (valid : shapeFmt w < 8) (r c : Nat) :
    elementVal w.toNat (element t w.toNat r c) = (tileVal (shapeFmt w) (tileElem t w r c)).map (fun x => (x.1 : ℚ) * 2 ^ x.2) := by
  rw [tileElem_eq]
  refine tileVal_spec _ _ valid _ (shapeFmt_eq w).symm ?_
  rw [shapeFmt_eq]
  exact element_lt _ _ _ _

/-- A zero point is subtracted from integer codes only, so the exponent of the element's value still scales the difference. -/
theorem elementVal_sub_zeroPoint (z : Bool) {w : U64} (valid : shapeFmt w < 8) (t : TileData) (st : Strip) (r c j : Nat) :
    (elementVal w.toNat (element t w.toNat r c)).getD 0 - zeroPoint z w.toNat st j
      = ((((tileVal (shapeFmt w) (tileElem t w r c)).getD 0).1 - zeroCode z w st j : Int) : ℚ) * 2 ^ ((tileVal (shapeFmt w) (tileElem t w r c)).getD 0).2 := by
  have zero : zeroPoint z w.toNat st j = (zeroCode z w st j : ℚ) := zeroPoint_eq z w st j
  rw [elementVal_element t valid]
  cases value : tileVal (shapeFmt w) (tileElem t w r c) with
  | none => simp [zero]
  | some x =>
    show (x.1 : ℚ) * 2 ^ x.2 - _ = ((x.1 - _ : Int) : ℚ) * 2 ^ x.2
    rcases zp_exp z w st j _ x value with h | h
    · rw [zero] at h
      rw [zero, Int.cast_sub, h, sub_zero, sub_zero]
    · rw [zero, h, zpow_zero, mul_one, mul_one, Int.cast_sub]

/-- One product: rounded once to the window, ties to even, and inexact when that changes it. -/
theorem cellTerm_spec (za zb w : Int) (x y : Int × Int) :
    let exact : ℚ := ((x.1 - za : Int) : ℚ) * 2 ^ x.2 * (((y.1 - zb : Int) : ℚ) * 2 ^ y.2) / 2 ^ w
    RoundsInt .rne exact (cellTerm za zb w x y).1 ∧ ((cellTerm za zb w x y).2 = true ↔ ((cellTerm za zb w x y).1 : ℚ) ≠ exact) := by
  intro exact
  have scaled : exact = ((x.1 - za) * (y.1 - zb) : Int) * (2 : ℚ) ^ (x.2 + y.2 - w) := by
    rw [zpow_sub₀ two_ne_zero, zpow_add₀ two_ne_zero, Int.cast_mul]
    dsimp only [exact]
    ring
  rw [scaled]
  exact rneScaled_spec _ _

/-! ### A command on the cells and the row flags -/

/-- What a command brings to cell (i, j): the sum of its rounded products, none where an operand is no number (R251). -/
def commandCell (l : Loom) (pair : Nat) (z : Bool) (ta : TileData) (sa : Strip) (wa : U64) (tb : TileData) (sb : Strip) (wb : U64) (i j : Nat) :
    Option (Int × Bool) :=
  dotCell (zeroCode z wa sa i) (zeroCode z wb sb j) (commandWindow l pair)
    ((List.range (shapeCols wa)).map (fun k => tileVal (shapeFmt wa) (tileElem ta wa i k)))
    ((List.range (shapeCols wa)).map (fun k => tileVal (shapeFmt wb) (tileElem tb wb k j)))

/-- The flags of row i after the updates d of its first n cells. -/
def rowFlagsAfter (l : Loom) (n : Nat) (d : Nat → Nat → Option (Int × Bool)) (i : Nat) : BitVec 3 :=
  (List.range n).foldl (fun f j => f ||| (accStep (l.cell i j) (d i j)).2) (l.rowFlags i)

/-- A loom after the updates d of its first m rows and n columns. -/
def updatedBy (l : Loom) (w : Int) (m n : Nat) (d : Nat → Nat → Option (Int × Bool)) : Loom :=
  { l with
    w := BitVec.ofInt 8 w, dflt := false, clear := false, r := max l.r m, c := max l.c n
    acc := accMerge (l.acc.length + (updTable m n d).length) l.acc (updTable m n d)
    flags := (List.range m).foldl (fun fl i => if rowFlagsAfter l n d i = 0 then fl else putBy (·.1) (i, rowFlagsAfter l n d i) fl) l.flags }

theorem perform_updatedBy (l : Loom) (pair : Nat) (z : Bool) (ta : TileData) (sa : Strip) (wa : U64) (tb : TileData) (sb : Strip) (wb : U64) :
    l.perform pair z ta sa wa tb sb wb
      = updatedBy l (commandWindow l pair) (min 128 (shapeRows wa)) (min 128 (shapeCols wb)) (commandCell l pair z ta sa wa tb sb wb) :=
  perform_eq l pair z ta sa wa tb sb wb

section
variable {l : Loom} {m n : Nat} (d : Nat → Nat → Option (Int × Bool))

theorem updAt_updTable (hn : n ≤ 128) (i j : Nat) (hj : j < 128) :
    updAt (updTable m n d) (i * 128 + j) = if i < m ∧ j < n then some (d i j) else none := by
  split
  · next inside => exact upd_find (updTable_sorted m n d hn) (updTable_mem.2 ⟨i, j, inside.1, inside.2, rfl⟩)
  · next outside =>
    refine upd_none fun x hx => ?_
    obtain ⟨a, b, ha, hb, rfl⟩ := updTable_mem.1 hx
    dsimp only
    omega

/-- A row flag after the updates was set before, or one of them sets it. -/
theorem rowFlagsAfter_bit (i b : Nat) : (rowFlagsAfter l n d i).getLsbD b = true ↔
    (l.rowFlags i).getLsbD b = true ∨ ∃ j, j < n ∧ (accStep (l.cell i j) (d i j)).2.getLsbD b = true := by
  unfold rowFlagsAfter
  rw [or_fold_bit]
  simp only [List.mem_range]

theorem rowFlags_zero {i : Nat} (h : rowFlagsAfter l n d i = 0) : l.rowFlags i = 0 := by
  apply BitVec.eq_of_getLsbD_eq
  intro b _
  have kept := (rowFlagsAfter_bit (l := l) (n := n) d i b).2
  rw [h] at kept
  simpa using fun set => kept (.inl set)

variable (w : Int) (listed : CellsListed l)
include listed

theorem cellsListed_updatedBy (hn : n ≤ 128) : CellsListed (updatedBy l w m n d) :=
  ⟨(merge_spec _ _ _ le_rfl listed.1 (updTable_sorted m n d hn)).1, (flags_fold _ _ listed.2 m fun _ _ => rowFlags_zero d).1⟩

theorem cell_updatedBy (hn : n ≤ 128) (i j : Nat) (hj : j < 128) :
    (updatedBy l w m n d).cell i j = if i < m ∧ j < n then (accStep (l.cell i j) (d i j)).1 else l.cell i j := by
  refine ((merge_spec _ _ _ le_rfl listed.1 (updTable_sorted m n d hn)).2.2 (i * 128 + j)).trans ?_
  rw [updAt_updTable d hn i j hj]
  by_cases inside : i < m ∧ j < n
  · rw [if_pos inside, if_pos inside]
    rfl
  · rw [if_neg inside, if_neg inside]
    rfl

theorem rowFlags_updatedBy (i : Nat) : (updatedBy l w m n d).rowFlags i = if i < m then rowFlagsAfter l n d i else l.rowFlags i :=
  (flags_fold (rowFlagsAfter l n d) _ listed.2 m fun _ _ => rowFlags_zero d).2 i

end

/-! ### One cell under one command -/

/-- What a cell and its row's flags become by an update that is missing where an operand is no number. -/
theorem accStep_update (old : U128) (bad : Prop) [Decidable bad] (S : Int) (ix : Bool) :
    let r := accStep old (if bad then none else some (S, ix))
    (bad → r.1.toInt = -2 ^ 127) ∧ (¬bad → old.toInt = -2 ^ 127 → r.1 = old)
    ∧ (¬bad ∧ old.toInt ≠ -2 ^ 127 → r.1.toInt = max (-(2 ^ 127 - 1)) (min (2 ^ 127 - 1) (old.toInt + S)))
    ∧ (r.2.getLsbD 2 = true ↔ bad)
    ∧ (r.2.getLsbD 1 = true ↔ (¬bad ∧ old.toInt ≠ -2 ^ 127) ∧ 2 ^ 127 - 1 < |old.toInt + S|)
    ∧ (r.2.getLsbD 0 = true ↔ ¬bad ∧ ix = true) := by
  by_cases h : bad
  · rw [if_pos h, accStep_none]
    simp only [h, not_true_eq_false, false_and, false_imp_iff, true_imp_iff, true_and, iff_true, iff_false]
    decide
  · obtain ⟨same, sum, invalid, overflow, inexact⟩ := accStep_spec old S ix
    rw [if_neg h]
    simp only [h, not_false_eq_true, true_and, false_imp_iff, true_imp_iff, iff_false, Bool.not_eq_true]
    exact ⟨same, sum, invalid, overflow, by rw [inexact]⟩

section
variable (l : Loom) (pair : Nat) (z : Bool) (ta : TileData) (sa : Strip) (wa : U64) (tb : TileData) (sb : Strip) (wb : U64)

/-- The product k of cell (i, j), rounded to the window, and whether it is inexact; an operand that is no number counts as zero. -/
def commandTerm (i j k : Nat) : Int × Bool :=
  cellTerm (zeroCode z wa sa i) (zeroCode z wb sb j) (commandWindow l pair)
    ((tileVal (shapeFmt wa) (tileElem ta wa i k)).getD 0) ((tileVal (shapeFmt wb) (tileElem tb wb k j)).getD 0)

/-- The product k of cell (i, j), exactly, in units of the window (R251). -/
def exactTerm (i j k : Nat) : ℚ :=
  ((elementVal wa.toNat (element ta wa.toNat i k)).getD 0 - zeroPoint z wa.toNat sa i)
    * ((elementVal wb.toNat (element tb wb.toNat k j)).getD 0 - zeroPoint z wb.toNat sb j) / 2 ^ commandWindow l pair

/-- An operand of cell (i, j) is no number. -/
def noNumber (i j : Nat) : Prop :=
  ∃ k, k < wa.toNat / 2 ^ 8 % 2 ^ 8 + 1 ∧ (elementVal wa.toNat (element ta wa.toNat i k) = none ∨ elementVal wb.toNat (element tb wb.toNat k j) = none)

variable {wa wb} (validA : shapeFmt wa < 8) (validB : shapeFmt wb < 8)
include validA validB

theorem commandTerm_rounds (i j k : Nat) :
    RoundsInt .rne (exactTerm l pair z ta sa wa tb sb wb i j k) (commandTerm l pair z ta sa wa tb sb wb i j k).1
    ∧ ((commandTerm l pair z ta sa wa tb sb wb i j k).2 = true
        ↔ ((commandTerm l pair z ta sa wa tb sb wb i j k).1 : ℚ) ≠ exactTerm l pair z ta sa wa tb sb wb i j k) := by
  unfold exactTerm
  rw [elementVal_sub_zeroPoint z validA, elementVal_sub_zeroPoint z validB]
  exact cellTerm_spec _ _ _ _ _

/-- A command brings a cell the sum of its rounded products, and nothing where an operand is no number. -/
theorem commandCell_eq (i j : Nat) [Decidable (noNumber ta wa tb wb i j)] : commandCell l pair z ta sa wa tb sb wb i j =
    if noNumber ta wa tb wb i j then none else
      some (((List.range (wa.toNat / 2 ^ 8 % 2 ^ 8 + 1)).map fun k => (commandTerm l pair z ta sa wa tb sb wb i j k).1).sum,
        (List.range (wa.toNat / 2 ^ 8 % 2 ^ 8 + 1)).any fun k => (commandTerm l pair z ta sa wa tb sb wb i j k).2) := by
  have missing : noNumber ta wa tb wb i j ↔ ∃ k, k < wa.toNat / 2 ^ 8 % 2 ^ 8 + 1
      ∧ (tileVal (shapeFmt wa) (tileElem ta wa i k) = none ∨ tileVal (shapeFmt wb) (tileElem tb wb k j) = none) := by
    unfold noNumber
    simp only [elementVal_element _ validA, elementVal_element _ validB, Option.map_eq_none_iff]
  unfold commandCell
  rw [dot_range, shapeCols_eq]
  exact if_congr missing.symm rfl rfl

/-- Some product is inexact. -/
theorem any_inexact (i j K : Nat) : (List.range K).any (fun k => (commandTerm l pair z ta sa wa tb sb wb i j k).2) = true ↔
    ∃ k, k < K ∧ ((commandTerm l pair z ta sa wa tb sb wb i j k).1 : ℚ) ≠ exactTerm l pair z ta sa wa tb sb wb i j k := by
  simp only [List.any_eq_true, List.mem_range, (commandTerm_rounds l pair z ta sa tb sb validA validB i j _).2]

end

/-- Settles O39: a command is the table of its cells' sums, merged into the listed cells and row flags; each cell by `accStep_update`. -/
theorem arrayArithmetic : Obligations.array_arithmetic := by
  classical
  intro l pair z ta sa wa tb sb wb listed fits u M K N w A B p bad flag
  obtain ⟨validA, validB⟩ := formats_of_shapesFit fits
  have eu : u = updatedBy l w M N (commandCell l pair z ta sa wa tb sb wb) := by
    show l.perform pair z ta sa wa tb sb wb = _
    rw [perform_updatedBy, shapeRows_eq, shapeCols_eq]
    rfl
  have hN : N ≤ 128 := min_le_left _ _
  have step (i j : Nat) := accStep_update (l.cell i j) (noNumber ta wa tb wb i j)
    (((List.range K).map fun k => (commandTerm l pair z ta sa wa tb sb wb i j k).1).sum)
    ((List.range K).any fun k => (commandTerm l pair z ta sa wa tb sb wb i j k).2)
  simp only [K, ← commandCell_eq l pair z ta sa tb sb validA validB] at step
  have cells (i j : Nat) (hj : j < 128) := cell_updatedBy (m := M) (commandCell l pair z ta sa wa tb sb wb) w listed hN i j hj
  have flags (i : Nat) := rowFlags_updatedBy (m := M) (n := N) (commandCell l pair z ta sa wa tb sb wb) w listed i
  rw [← eu] at cells flags
  refine ⟨eu ▸ cellsListed_updatedBy _ w listed hN, ?_, by rw [eu]; rfl, by rw [eu]; rfl, by rw [eu]; rfl, by rw [eu]; rfl,
    fun i j hj outside => ?_, fun i outside => ?_, fun i j k => (commandTerm l pair z ta sa wa tb sb wb i j k).1,
    fun i j k => (commandTerm_rounds l pair z ta sa tb sb validA validB i j k).1, fun i hi => ?_⟩
  · rw [eu]
    exact commandWindow_register l pair
  · rw [cells i j hj, if_neg (by omega)]
  · rw [flags i, if_neg (by omega)]
  · have row (b : Nat) (c : Nat → Prop) (sets : ∀ j, (accStep (l.cell i j) (commandCell l pair z ta sa wa tb sb wb i j)).2.getLsbD b = true ↔ c j) :
        flag i b c := by
      show (u.rowFlags i).getLsbD b = true ↔ _
      rw [flags i, if_pos hi, rowFlagsAfter_bit]
      simp only [sets]
    refine ⟨fun j hj => ?_, row 2 _ fun j => ?_, row 1 _ fun j => ?_, row 0 _ fun j => ?_⟩
    · obtain ⟨invalid, kept, sum, -⟩ := step i j
      rw [cells i j (by omega), if_pos ⟨hi, hj⟩]
      exact ⟨invalid, kept, sum⟩
    · obtain ⟨-, -, -, invalid, -, -⟩ := step i j
      exact invalid
    · obtain ⟨-, -, -, -, overflow, -⟩ := step i j
      exact overflow
    · obtain ⟨-, -, -, -, -, inexact⟩ := step i j
      exact inexact.trans (and_congr_right fun _ => any_inexact l pair z ta sa tb sb validA validB i j K)
end Sys2Proof
end

section
/-! SUPPORT. LEASE (R244 to R246) and the commands of a held lease (R247, R253, R254): each outcome from the lemmas of `Laws/Loom`; then their
two statements. -/
namespace Sys2Proof
open Machine Claims

/-! ### LEASE -/

/-- A LEASE that waits for its grant goes on waiting. -/
theorem lease_waits {s : State} (x y : BitVec 5) (zero : s.self.idx = 0) (waits : Leasing s) : exec (.lease x y) s = .next s := by
  obtain ⟨asked, d, b, parked⟩ := waits
  have again : (s.self.leasing && s.myCore.lease.state == 1) = true := by
    unfold Slot.leasing
    rw [parked, asked]
    rfl
  show execLease x y s = _
  unfold execLease
  rw [slotZero_ok zero]
  simp only [bind, Except.bind, again, if_true]
  rfl

section
variable {s : State} {x y : BitVec 5} (zero : s.self.idx = 0) (fresh : ¬Leasing s)
include zero fresh

/-- What gb fails, traps (R245). -/
theorem lease_untagged (h : (s.g y).tag = false) : exec (.lease x y) s = .next (s.trap 0x03 0) := by
  rw [lease_eq zero fresh, h]
  rfl

theorem lease_otherType (tagged : (s.g y).tag = true) (h : (s.g y).otype ≠ 5) : exec (.lease x y) s = .next (s.trap 0x06 0) := by
  rw [lease_eq zero fresh, tagged, if_neg (by decide), if_pos (bne_iff_ne.2 h)]
  rfl

theorem lease_revoked (tagged : (s.g y).tag = true) (entry : (s.g y).otype = 5) (h : s.revokedAddr (s.g y).bounds.base.toNat = true) :
    exec (.lease x y) s = .next ((s.setG y (s.g y).untag).trap 0x16 0) := by
  rw [lease_eq zero fresh, tagged, entry, isRevoked_of tagged h]
  rfl

variable (handler : Handler s (s.g y))
include handler

/-- A request that a check turns away writes its status (R245). -/
theorem lease_turnedAway {st : U64} (away : TurnedAway s (s.x x) st) : PutsX (.lease x y) s x st := by
  obtain ⟨tagged, entry, live⟩ := handler
  refine putsX_of (x := st) ?_ rfl
  rw [lease_eq zero fresh, tagged, entry, isRevoked_of tagged live, leaseStatus_some away]
  rfl

/-- A free loom grants at once (R246). -/
theorem lease_granted (asks : Asks s (s.x x)) (free : FreeLoom (loomOf s (s.x x))) : Completes (.lease x y) s
    ((((unparked s).putLoom (granted s (loomOf s (s.x x)) (s.x x))).putCore { s.myCore with lease := asked s (s.x x) (s.g y) 2 }).wr x 0) := by
  have given : (unparked s).askLoom (asked s (s.x x) (s.g y) 1)
      = ((unparked s).putLoom (granted s (loomOf s (s.x x)) (s.x x))).putCore { s.myCore with lease := asked s (s.x x) (s.g y) 2 } :=
    askLoom_free (s := unparked s) zero rfl free
  refine completes_of ?_
  have leased := myCore_put (unparked s) (granted s (loomOf s (s.x x)) (s.x x)) { s.myCore with lease := asked s (s.x x) (s.g y) 2 } (myCore_idx s)
  rw [lease_got zero fresh handler (leaseStatus_none asks) given, leased, if_pos]
  rfl

/-- At a held loom the request is recorded, and LEASE parks (R245). -/
theorem lease_pending (asks : Asks s (s.x x)) (held : (loomOf s (s.x x)).holder ≠ none) : exec (.lease x y) s = .next
    (((s.putCore { s.myCore with lease := asked s (s.x x) (s.g y) 1 }).putLoom
      { loomOf s (s.x x) with pending := setAdd (loomOf s (s.x x)).pending (mySeat s) }).wait (.grant x y)) := by
  have noted := askLoom_held (s := unparked s) (w := s.x x) (h := s.g y) held
  have recorded := myCore_put (unparked s) { loomOf s (s.x x) with pending := setAdd (loomOf s (s.x x)).pending (mySeat s) }
    { s.myCore with lease := asked s (s.x x) (s.g y) 1 } (myCore_idx s)
  rw [lease_got zero fresh handler (leaseStatus_none asks) noted, if_neg]
  · rfl
  · have asking : _ = 1#2 := congrArg (fun c : Core => c.lease.state) recorded
    exact fun two => absurd (asking.symm.trans two) (by decide)

end

/-- Settles O36: by what LEASE finds, one lemma each. -/
theorem leases : Obligations.leases := by
  intro s x y zero h w l
  exact ⟨lease_waits x y zero, fun fresh => ⟨lease_untagged zero fresh, lease_otherType zero fresh, lease_revoked zero fresh, fun handler =>
    ⟨fun _ => lease_turnedAway zero fresh handler, lease_granted zero fresh handler, lease_pending zero fresh handler⟩⟩⟩

/-! ### The commands of a held lease -/

/-- A member without the lease it needs traps (R254). -/
theorem finish_leased {s : State} {rearm : Bool} (zero : s.self.idx = 0) (lacks : s.myCore.lease.state ≠ 2)
    (notRearm : rearm = false ∨ s.myCore.lease.state ≠ 3) (rest : Run State) :
    finish (s.leased rearm >>= fun _ => rest) = .next (s.trap 0x0D 0) := by
  rw [leased_no zero lacks notRearm]
  rfl

section
variable {s : State} (zero : s.self.idx = 0)
include zero

section
variable (held : s.myCore.lease.state = 2)
include held

theorem lrel_held : exec .lrel s
    = .next (((afterQueue s).putLoom { (heldLoom (afterQueue s)).cleared with holder := none }).dropLease).retire := by
  show execLrel s = _
  unfold execLrel
  rw [leased_ok zero (.inl held), settled_eq, held]
  rfl

theorem mclr_held : exec .mclr s = .next ((afterQueue s).putLoom (heldLoom (afterQueue s)).cleared).retire := by
  show execMclr s = _
  unfold execMclr
  rw [leased_ok zero (.inl held), settled_eq]
  rfl

theorem mwin_held (x : BitVec 5) : exec (.mwin x) s = if (heldLoom (afterQueue s)).clear = true
    then .next ((afterQueue s).putLoom { heldLoom (afterQueue s) with w := (s.x x).setWidth 8, dflt := false }).retire
    else .next (s.trap 0x0D 1) := by
  show execMwin x s = _
  unfold execMwin
  rw [leased_ok zero (.inl held), settled_eq]
  cases h : (heldLoom (afterQueue s)).clear <;> simp [bind, Except.bind, h, finish]

theorem mdrain_held (x : BitVec 5) : exec (.mdrain x) s = .next (s.drainLease s.self.core ((s.x x).setWidth 2) false 0).retire := by
  show execMdrain x s = _
  unfold execMdrain
  rw [leased_ok zero (.inl held), held]
  rfl

end

/-- LREL and MDRAIN end a lease in REARM (R247). -/
theorem lrel_rearm (rearm : s.myCore.lease.state = 3) : exec .lrel s = .next s.dropLease.retire := by
  show execLrel s = _
  unfold execLrel
  rw [leased_ok zero (.inr ⟨rfl, rearm⟩), rearm]
  rfl

theorem mdrain_rearm (x : BitVec 5) (rearm : s.myCore.lease.state = 3) : exec (.mdrain x) s = .next s.dropLease.retire := by
  show execMdrain x s = _
  unfold execMdrain
  rw [leased_ok zero (.inr ⟨rfl, rearm⟩), rearm]
  rfl

end

/-- Settles O37: each member of a held lease, of one in REARM, and without one. -/
theorem leaseCommands : Obligations.lease_commands := by
  refine ⟨loom_status_ok, ?_⟩
  intro s x zero k t l none
  refine ⟨fun held => ⟨completes_of (lrel_held zero held), completes_of (mclr_held zero held), fun clear => completes_of ?_, fun full => ?_,
    completes_of ?_⟩, fun rearm => ⟨completes_of (lrel_rearm zero rearm), completes_of (mdrain_rearm zero x rearm)⟩, fun without => ?_, fun rearm => ?_⟩
  · rw [mwin_held zero held, if_pos clear]
    rfl
  · rw [mwin_held zero held, if_neg (by rw [full]; decide)]
  · rw [mdrain_held zero held, drain_eq]
    rfl
  · have lacks : k.state ≠ 2 ∧ k.state ≠ 3 := by rcases without with h | h <;> rw [h] <;> decide
    simp only [List.forall_mem_cons, List.not_mem_nil, false_imp_iff, implies_true, and_true]
    exact ⟨finish_leased zero lacks.1 (.inr lacks.2) _, finish_leased zero lacks.1 (.inl rfl) _, finish_leased zero lacks.1 (.inl rfl) _,
      finish_leased zero lacks.1 (.inr lacks.2) _⟩
  · have lacks : k.state ≠ 2 := by rw [rearm]; decide
    simp only [List.forall_mem_cons, List.not_mem_nil, false_imp_iff, implies_true, and_true]
    exact ⟨finish_leased zero lacks (.inl rfl) _, finish_leased zero lacks (.inl rfl) _⟩
end Sys2Proof
end

section
/-! SUPPORT. MMA and MMAZ (R250, R251, R254): when shapes fit a pair, and what becomes of a command by the lease and the queue; then the statement of
matrix commands. -/
namespace Sys2Proof
open Machine Claims

/-- When two shapes fit a pair, by the fields of their words (R251). -/
theorem shapesFit_iff (p : Nat) (wa wb : U64) :
    let valid (w : Nat) : Prop := w / 2 ^ 16 % 2 ^ 4 < 8 ∧ (w % 2 ^ 8 + 1) * (w / 2 ^ 8 % 2 ^ 8 + 1) * fmtBits (w / 2 ^ 16 % 2 ^ 4) ≤ 2 ^ 16
      ∧ (w / 2 ^ 8 % 2 ^ 8 + 1) * fmtBits (w / 2 ^ 16 % 2 ^ 4) % 8 = 0
    shapesFit p wa wb = true ↔ valid wa.toNat ∧ valid wb.toNat ∧ wa.toNat / 2 ^ 16 % 2 ^ 4 = (pairFormats p).1 ∧ wb.toNat / 2 ^ 16 % 2 ^ 4 = (pairFormats p).2
      ∧ wa.toNat / 2 ^ 8 % 2 ^ 8 = wb.toNat % 2 ^ 8 ∧ wa.toNat / 2 ^ 8 % 2 ^ 8 + 1 ≤ pairKMax p := by
  intro valid
  simp only [shapesFit, Bool.and_eq_true, decide_eq_true_eq, shapeValid_iff, shapeFmt_eq, shapeCols_eq, shapeRows_eq, Nat.add_right_cancel_iff, and_assoc, valid]

theorem exec_matrix (a b : BitVec 3) (p : BitVec 4) (z : Bool) (s : State) :
    exec (if z = true then .mmaz a b p else .mma a b p) s = finish (s.matrix a b p.toNat z) := by
  cases z <;> rfl

/-- The loom of the issuing core's lease, as the meanings of matrix commands find it. -/
theorem heldLoom_eq (s : State) : s.loom (coreBench s.self.core) s.myCore.loomIdx = heldLoom s := by
  rw [loomIdx_eq]
  rfl

section
variable {s : State} (zero : s.self.idx = 0) (a b : BitVec 3) (p : Nat) (z : Bool)
include zero

theorem matrix_unleased (none : s.myCore.lease.state = 0) : s.matrix a b p z = .error (s.trap 0x0D 0) := by
  unfold State.matrix
  rw [slotZero_ok zero]
  simp only [bind, Except.bind, none, if_true]

/-- A request not granted yet waits (R251). -/
theorem matrix_asking (asking : s.myCore.lease.state = 1) : s.matrix a b p z = .error (s.wait .loom) := by
  unfold State.matrix
  rw [slotZero_ok zero]
  simp [bind, Except.bind, asking]

/-- With a lease held and a command left in its budget: the shapes, then the queue (R251). -/
theorem matrix_held (held : s.myCore.lease.state = 2) (left : (heldLoom s).left ≠ 0) : s.matrix a b p z =
    if shapesFit p (s.shape a) (s.shape b) = true then
      if 4 ≤ (heldLoom s).queue.length then .error (s.wait .loom)
      else .ok (s.putLoom { heldLoom s with
        left := (heldLoom s).left - 1
        queue := (heldLoom s).queue ++ [{ ta := a, tb := b, opA := (s.tile a, s.strip a, s.shape a), opB := (s.tile b, s.strip b, s.shape b), pair := p, zp := z }] }).retire
    else .error (s.trap 0x0C 0) := by
  have budget : ((heldLoom s).left == 0) = false := beq_eq_false_iff_ne.2 left
  unfold State.matrix
  rw [slotZero_ok zero]
  cases fits : shapesFit p (s.shape a) (s.shape b) <;> simp [bind, Except.bind, held, heldLoom_eq, budget, fits]

end

/-- Settles O38: the outcomes of `matrix_held`, and those without a grant. -/
theorem matrixCommands : Obligations.matrix_commands := by
  intro s a b p z zero i k l queued wa wb valid fit
  have run : exec i s = finish (s.matrix a b p.toNat z) := exec_matrix a b p z s
  have fits : shapesFit p.toNat (s.shape a) (s.shape b) = true ↔ fit := shapesFit_iff p.toNat (s.shape a) (s.shape b)
  refine ⟨fun none => ?_, fun held left unfit => ?_, fun held left ok full => ?_, fun asking => ?_, fun held left ok room => completes_of ?_⟩
  · rw [run, matrix_unleased zero a b p.toNat z none]
    rfl
  · rw [run, matrix_held zero a b p.toNat z held left, if_neg (mt fits.1 unfit)]
    rfl
  · rw [run, matrix_held zero a b p.toNat z held left, if_pos (fits.2 ok), if_pos full]
    rfl
  · rw [run, matrix_asking zero a b p.toNat z asking]
    rfl
  · rw [run, matrix_held zero a b p.toNat z held left, if_pos (fits.2 ok), if_neg (Nat.not_le.2 room)]
    rfl
end Sys2Proof
end

section
/-! SUPPORT. The tile instructions (R237, R240 to R243): the rows of a tile in memory, what a load into a tile leaves and what its rows then hold;
then the statement of tiles. -/
namespace Sys2Proof
open Machine Claims

/-! ### Rows -/

theorem shapeRowBytes_eq (w : U64) : shapeRowBytes w = (w.toNat / 2 ^ 8 % 2 ^ 8 + 1) * fmtBits (w.toNat / 2 ^ 16 % 2 ^ 4) / 8 := by
  rw [shapeRowBytes, shapeCols_eq, shapeFmt_eq]

theorem fmtBits_pos (c : Nat) : 0 < fmtBits c := by
  unfold fmtBits
  split
  · decide
  · split <;> decide

/-- The rows of a valid shape are of at least one byte, and fit a tile (R239). -/
theorem rows_fit {w : U64} (valid : shapeValid w = true) : 0 < shapeRowBytes w ∧ 8 * shapeRowBytes w * shapeRows w ≤ 65536 := by
  simp only [shapeValid, Bool.and_eq_true, decide_eq_true_eq] at valid
  obtain ⟨⟨-, size⟩, whole⟩ := valid
  have bits : 0 < shapeCols w * fmtBits (shapeFmt w) := Nat.mul_pos (Nat.succ_pos _) (fmtBits_pos _)
  have bytes : 8 * shapeRowBytes w = shapeCols w * fmtBits (shapeFmt w) := by unfold shapeRowBytes; omega
  refine ⟨by omega, ?_⟩
  rw [bytes]
  calc shapeCols w * fmtBits (shapeFmt w) * shapeRows w = shapeRows w * shapeCols w * fmtBits (shapeFmt w) := by ring
    _ ≤ 65536 := size

theorem row_small {w : U64} (valid : shapeValid w = true) : 0 < shapeRowBytes w ∧ shapeRowBytes w ≤ 2 ^ 13 := by
  obtain ⟨pos, fit⟩ := rows_fit valid
  have one : 8 * shapeRowBytes w * 1 ≤ 8 * shapeRowBytes w * shapeRows w := Nat.mul_le_mul_left _ (Nat.succ_pos _)
  omega

/-- The address of row r: at the stride, or one row after another where that is 0 (R241). -/
def rowAddr (w base stride : U64) (r : Nat) : U64 :=
  base + BitVec.ofNat 64 r * (if stride = 0 then BitVec.ofNat 64 (shapeRowBytes w) else stride)

theorem tileRows_eq (w base stride : U64) :
    tileRows w base stride = lanesOf (List.range (shapeRows w)) (rowAddr w base stride) (shapeRowBytes w) := rfl

/-! ### Loads into a tile -/

/-- What lane r of a load reads (R129). -/
def seenLane (s : State) (ea : Nat → U64) (n r : Nat) : Nat := ({ s with free := s.free + r } : State).seenN s.self.agent (s.localAddr (ea r).toNat) n

theorem seenLane_mayRead (s : State) (ea : Nat → U64) (n r : Nat) : MayRead s (s.localAddr (ea r).toNat) n (seenLane s ea n r) :=
  seen_mayRead s s.self.agent (s.localAddr (ea r).toNat) n (s.free + r)

theorem seenLane_lt (s : State) (ea : Nat → U64) (n r : Nat) : seenLane s ea n r < 2 ^ (8 * n) := by
  obtain ⟨small, -⟩ := seenLane_mayRead s ea n r
  rw [Nat.pow_mul]
  exact small

/-- The instruction reads the lanes L of n bytes each, puts v and z into tile d and its strip, and changes nothing else. -/
def FillsTile (i : Instr) (s : State) (n : Nat) (L : List Nat) (ea : Nat → U64) (d : BitVec 3) (v : TileData) (z : Strip) : Prop :=
  ∃ t, exec i s = .next t ∧ Holds s t s.g s.v s.p s.self.flags ∧ Retired s t ∧ RecordedAll s t (L.map (laneOf s ea n false))
    ∧ WatchedAll s t (L.map (fun j => (laneOf s ea n false j, bit j)))
    ∧ t = { s with self := t.self, recs := t.recs, cores := t.cores, free := t.free }
    ∧ TilePut s t d v z ∧ ∀ a, t.byteAt a = s.byteAt a ∧ t.tagAt a = s.tagAt a

theorem fillsTile_of {i : Instr} {s : State} {d : BitVec 3} {x : BitVec 5} {n : Nat} {L : List Nat} {ea : Nat → U64} {first : U64}
    {v : List (Nat × Nat) → TileData} {z : List (Nat × Nat) → Strip} (pos : 0 < n) (pass : LanesPass s (s.g x) .r false false n L ea)
    (run : exec i s = finish (do
      s.laneCheck x (s.g x) .r false false (lanesOf L ea n) first
      let (t, l) ← s.loadLanes x (s.g x) false (lanesOf L ea n) first
      .ok ((t.setTile d (v l) (z l)).retire))) :
    let l := L.map fun r => (r, seenLane s ea n r)
    FillsTile i s n L ea d (v l) (z l) := by
  intro l
  obtain ⟨free, loaded⟩ := loadLanes_ok (al2 := false) (first := first) pass (fun h => h) lanesOf_mem
  have seen : (lanesOf L ea n).map (fun x => (x.i, ({ s with free := s.free + x.i } : State).seenN s.self.agent (s.localAddr x.ea.toNat) x.n)) = l := by
    unfold lanesOf
    rw [List.map_map]
    rfl
  rw [laneCheck_ok pass (fun h => h) lanesOf_mem, loaded, seen] at run
  have fills := tile_loads (hits_ok pos pass lanesOf_mem) run
  rw [lanesOf_hit, List.map_map] at fills
  exact fills

/-- An instruction that stores the lanes L of n bytes each, unaligned ones too, and completes. -/
theorem storesLanes_run {i : Instr} {s : State} {x : BitVec 5} {n : Nat} {L : List Nat} {ea : Nat → U64} {first : U64} {value : Nat → Nat}
    (pos : 0 < n) (small : n ≤ 2 ^ 13) (pass : LanesPass s (s.g x) .w true false n L ea)
    (run : exec i s = finish (do
      let t ← s.saveLanes x (s.g x) false (lanesOf L ea n) first value
      .ok t.retire)) :
    StoresLanes i s (L.map fun r => (laneOf s ea n true r, value r)) (L.map bit) := by
  obtain ⟨t, saved, alike, recorded, watched, stored⟩ :=
    saveLanes_ok (al2 := false) (first := first) (value := value) pass (fun h => h) pos small lanesOf_single
  have rows : (lanesOf L ea n).map (fun l => (s.laneAcc l true, value l.i)) = L.map fun r => (laneOf s ea n true r, value r) := by
    unfold lanesOf
    rw [List.map_map]
    rfl
  rw [lanesOf_acc] at recorded
  rw [lanesOf_hit] at watched
  rw [rows] at stored
  rw [saved] at run
  refine storesLanes_of alike ?_ ?_ stored run
  · rw [List.map_map]
    exact recorded
  · rw [List.map_map, List.zip_map']
    exact watched

/-! ### TLD, TST, TZERO, TZP, TGETZP -/

section
variable {s : State} (zero : s.self.idx = 0)
include zero

theorem tld_invalid {d : BitVec 3} (x y : BitVec 5) (bad : shapeValid (s.shape d) = false) : exec (.tld d x y) s = .next (s.trap 0x0C 0) := by
  show execTld d x y s = _
  unfold execTld
  rw [slotZero_ok zero]
  dsimp only [bind, Except.bind]
  rw [bad]
  rfl

theorem tst_invalid {d : BitVec 3} (x y : BitVec 5) (bad : shapeValid (s.shape d) = false) : exec (.tst d x y) s = .next (s.trap 0x0C 0) := by
  show execTst d x y s = _
  unfold execTst
  rw [slotZero_ok zero]
  dsimp only [bind, Except.bind]
  rw [bad]
  rfl

section
variable {d : BitVec 3} (free : s.tileLocked s.self.core d = false)
include free

/-- TLD puts the rows one after another from byte 0 (R241). -/
theorem tld_fills {x y : BitVec 5} (valid : shapeValid (s.shape d) = true) (pass : LanesPass s (s.g x) .r false false (shapeRowBytes (s.shape d))
      (List.range (shapeRows (s.shape d))) (rowAddr (s.shape d) (s.x x) (s.x y))) :
    let n := shapeRowBytes (s.shape d)
    let ea := rowAddr (s.shape d) (s.x x) (s.x y)
    FillsTile (.tld d x y) s n (List.range (shapeRows (s.shape d))) ea d
      (packRows n ((List.range (shapeRows (s.shape d))).map fun r => (r, seenLane s ea n r))) (s.strip d) := by
  have unlocked : s.unlocked d = .ok () := if_neg (by simp [free])
  refine fillsTile_of (first := s.x x) (v := packRows (shapeRowBytes (s.shape d))) (z := fun _ => s.strip d) (rows_fit valid).1 pass ?_
  show execTld d x y s = _
  unfold execTld
  rw [slotZero_ok zero, unlocked, ← tileRows_eq]
  dsimp only [bind, Except.bind]
  rw [valid]
  rfl

/-- TZP reads the 128 bytes of a strip (R242). -/
theorem tzp_fills {x : BitVec 5} (pass : LanesPass s (s.g x) .r false false 128 [0] fun _ => s.x x) :
    FillsTile (.tzp d x) s 128 [0] (fun _ => s.x x) d (s.tile d) (BitVec.ofNat 1024 (packLanes 1024 [seenLane s (fun _ => s.x x) 128 0])) := by
  have unlocked : s.unlocked d = .ok () := if_neg (by simp [free])
  refine fillsTile_of (first := s.x x) (v := fun _ => s.tile d) (z := fun l => BitVec.ofNat 1024 (packLanes 1024 (l.map Prod.snd))) (by decide) pass ?_
  show execTzp d x s = _
  unfold execTzp
  rw [slotZero_ok zero, unlocked]
  rfl

theorem tzero_runs : exec (.tzero d) s = .next (s.setTile d 0 0).retire := by
  have unlocked : s.unlocked d = .ok () := if_neg (by simp [free])
  show execTzero d s = _
  unfold execTzero
  rw [slotZero_ok zero, unlocked]
  rfl

theorem tzero_clears : ∃ t, exec (.tzero d) s = .next t ∧ Holds s t s.g s.v s.p s.self.flags ∧ Retired s t
    ∧ t = { s with self := t.self, cores := t.cores } ∧ TilePut s t d 0 0 ∧ ∀ a, t.byteAt a = s.byteAt a := by
  obtain ⟨holds, retired⟩ := holds_retire0 (.refl s)
  exact ⟨_, tzero_runs zero free, holds, retired, rfl, tilePut_of s s d 0 0 rfl rfl, fun a => byteAt_self (s.setTile d 0 0) _ a⟩

end

/-- TST stores the rows in ascending order (R241). -/
theorem tst_stores {d : BitVec 3} {x y : BitVec 5} (valid : shapeValid (s.shape d) = true) (pass : LanesPass s (s.g x) .w true false (shapeRowBytes (s.shape d))
      (List.range (shapeRows (s.shape d))) (rowAddr (s.shape d) (s.x x) (s.x y))) :
    let n := shapeRowBytes (s.shape d)
    let ea := rowAddr (s.shape d) (s.x x) (s.x y)
    let rows := List.range (shapeRows (s.shape d))
    StoresLanes (.tst d x y) s (rows.map fun r => (laneOf s ea n true r, (s.tile d).toNat / 2 ^ (8 * n * r) % 2 ^ (8 * n))) (rows.map bit) := by
  intro n ea rows
  have bits (r : Nat) : (s.tile d).toNat / 2 ^ (8 * n * r) % 2 ^ (8 * n) = ((s.tile d).extractLsb' (8 * n * r) (8 * n)).toNat := by
    rw [BitVec.extractLsb'_toNat, Nat.shiftRight_eq_div_pow]
  simp only [bits]
  obtain ⟨pos, small⟩ := row_small valid
  refine storesLanes_run (first := s.x x) pos small pass ?_
  show execTst d x y s = _
  unfold execTst
  rw [slotZero_ok zero]
  dsimp only [bind, Except.bind]
  rw [valid, tileRows_eq]
  rfl

theorem tgetzp_reads (d : BitVec 3) (x y : BitVec 5) :
    PutsX (.tgetzp d x y) s x (BitVec.ofNat 64 ((s.strip d).toNat / 2 ^ (8 * ((s.x y).toNat % 128)) % 256)) := by
  refine putsX_of (x := ((s.strip d).extractLsb' (8 * ((s.x y).toNat % 128)) 8).setWidth 64) ?_ ?_
  · show execTgetzp d x y s = _
    unfold execTgetzp
    rw [slotZero_ok zero]
    rfl
  · apply BitVec.eq_of_toNat_eq
    rw [BitVec.toNat_setWidth, BitVec.extractLsb'_toNat, Nat.shiftRight_eq_div_pow, BitVec.toNat_ofNat]

end

/-- What a tile holds whose rows were put one after another: nothing beyond them, and each row in its place. -/
theorem packRows_get {w : U64} (valid : shapeValid w = true) (f : Nat → Nat) (small : ∀ r, f r < 2 ^ (8 * shapeRowBytes w)) :
    let v := packRows (shapeRowBytes w) ((List.range (shapeRows w)).map fun r => (r, f r))
    v.toNat < 2 ^ (8 * shapeRowBytes w * shapeRows w)
    ∧ ∀ r ∈ List.range (shapeRows w), v.toNat / 2 ^ (8 * shapeRowBytes w * r) % 2 ^ (8 * shapeRowBytes w) = f r := by
  intro v
  have packed : v.toNat = packLanes (8 * shapeRowBytes w) ((List.range (shapeRows w)).map f) :=
    packRows_rows _ f _ (fun r _ => small r) (by rw [List.length_range]; exact (rows_fit valid).2)
  have each : ∀ q ∈ (List.range (shapeRows w)).map f, q < 2 ^ (8 * shapeRowBytes w) := fun q hq => by
    obtain ⟨r, -, rfl⟩ := List.mem_map.1 hq
    exact small r
  rw [packed]
  refine ⟨?_, fun r hr => ?_⟩
  · have bound := packLanes_lt _ _ each
    rwa [List.length_map, List.length_range] at bound
  · rw [packLanes_get _ _ each]
    simp [List.mem_range.1 hr]

/-- What a register holds that is one lane. -/
theorem packLanes_single {b x : Nat} (fits : b ≤ 1024) (small : x < 2 ^ b) : (BitVec.ofNat 1024 (packLanes b [x])).toNat = x := by
  rw [ofNat_pack b [x] (by simpa using small) (by simpa using fits)]
  simp [packLanes]

/-- Settles O35: the rows of a tile as lanes. -/
theorem tiles : Obligations.tiles := by
  intro s d x y
  obtain ⟨outside, locked⟩ := tile_stops s d x y
  refine ⟨outside, fun zero lock => parksAlone_of (locked zero lock), fun zero => ?_⟩
  intro c w len rows valid stride ea one loads
  have validIff : shapeValid w = true ↔ valid := shapeValid_iff w
  have hlen : shapeRowBytes w = len := shapeRowBytes_eq w
  have hrows : List.range (shapeRows w) = rows := congrArg List.range (shapeRows_eq w)
  have hea : rowAddr w (s.x x) (s.x y) = ea := by
    funext r
    show rowAddr w (s.x x) (s.x y) r = _
    unfold rowAddr
    rw [hlen]
  refine ⟨fun ok free pass => ?_, fun ok pass => ?_, fun bad => ?_, fun free => tzero_clears zero free, fun free pass => ?_, tgetzp_reads zero d x y⟩
  · rw [← hlen, ← hrows, ← hea] at pass ⊢
    have fills := tld_fills zero free (validIff.2 ok) pass
    obtain ⟨beyond, row⟩ := packRows_get (validIff.2 ok) (seenLane s (rowAddr w (s.x x) (s.x y)) (shapeRowBytes w)) (seenLane_lt s _ _)
    refine ⟨_, fills, by rwa [List.length_range], fun r hr => ?_⟩
    rw [row r hr]
    exact seenLane_mayRead s _ _ r
  · rw [← hlen, ← hrows, ← hea] at pass ⊢
    exact tst_stores zero (validIff.2 ok) pass
  · have invalid : shapeValid w = false := Bool.eq_false_iff.2 (mt validIff.1 bad)
    exact ⟨tld_invalid zero x y invalid, tst_invalid zero x y invalid⟩
  · refine ⟨_, ?_, tzp_fills zero free pass⟩
    rw [packLanes_single (b := 8 * 128) (by decide) (seenLane_lt s _ 128 0)]
    exact seenLane_mayRead s _ _ 0
end Sys2Proof
end

section
/-! SUPPORT. CHAIN (R258, R259): when each side is ready, what combining with the predecessor's message leaves, what is sent on; then the statement of
chains. -/
namespace Sys2Proof
open Machine Claims

/-! ### The two sides -/

/-- A task of a stage has ended, here or elsewhere. -/
def taskEnded (l : Launch) (stage q : Nat) : Prop := (q, stage) ∈ l.ended ∨ (q, stage) ∈ l.farEnded

/-- A task that has started here has a chain entry neither filled nor reserved (R259). -/
def entryFree (s : State) (l : Launch) (stage q : Nat) : Prop :=
  (∃ t ∈ l.placed, t.1 = q ∧ t.2.1 = stage)
    ∧ (s.chainMsgs.filter (fun m => m.launch == l.id && m.stage == stage && m.target == q)).length
      + (l.given.filter (fun g => g.2 == (q, stage))).length < 2

theorem chainRoom_iff (s : State) (l : Launch) (stage q : Nat) : s.chainRoom l stage q = true ↔ entryFree s l stage q := by
  simp [State.chainRoom, Launch.coreOf, entryFree, List.find?_isSome]

section
variable {s : State} {l : Launch} {stage lcn q : Nat}

theorem ended_contains : (l.ended.contains (q, stage) || l.farEnded.contains (q, stage)) = true ↔ taskEnded l stage q := by
  simp [taskEnded]

theorem predSide_ready {m : ChainMsg} (sent : s.chainMsg l.id stage lcn q = some m) : s.predSide l stage lcn (some q) = .ready := by
  simp [State.predSide, sent]

theorem predSide_never (unsent : s.chainMsg l.id stage lcn q = none) (ended : taskEnded l stage q) : s.predSide l stage lcn (some q) = .never := by
  unfold State.predSide
  simp only [unsent, Option.isSome_none, Bool.false_eq_true, if_false]
  exact if_pos (ended_contains.2 ended)

theorem predSide_notYet (unsent : s.chainMsg l.id stage lcn q = none) (runs : ¬taskEnded l stage q) : s.predSide l stage lcn (some q) = .notYet := by
  unfold State.predSide
  simp only [unsent, Option.isSome_none, Bool.false_eq_true, if_false]
  exact if_neg (mt ended_contains.1 runs)

theorem succSide_never (ended : taskEnded l stage q) : s.succSide l stage lcn (some q) = .never := if_pos (ended_contains.2 ended)

/-- A successor that runs: here it takes a free entry, elsewhere one that its device has reserved (log 25). -/
theorem succSide_here (runs : ¬taskEnded l stage q) (near : l.shop = some (l.shopOf q)) :
    s.succSide l stage lcn (some q) = if s.chainRoom l stage q = true then .ready else .notYet :=
  (if_neg (mt ended_contains.1 runs)).trans (if_pos near)

theorem succSide_elsewhere (runs : ¬taskEnded l stage q) (far : l.shop ≠ some (l.shopOf q)) :
    s.succSide l stage lcn (some q) = if l.granted.contains (lcn, q, stage) = true then .ready else .notYet :=
  (if_neg (mt ended_contains.1 runs)).trans (if_neg far)

/-- A side without a task is ready, and so is a predecessor that has sent. -/
theorem predSide_sent {pred : Option Nat} (sent : ∀ j, pred = some j → s.chainMsg l.id stage lcn j ≠ none) : s.predSide l stage lcn pred = .ready := by
  cases pred with
  | none => rfl
  | some j =>
    obtain ⟨m, found⟩ := Option.ne_none_iff_exists'.1 (sent j rfl)
    exact predSide_ready found

/-- A successor that runs is ready once it has an entry for the message. -/
theorem succSide_goes {succ : Option Nat} (goes : ∀ q, succ = some q → ¬taskEnded l stage q ∧ (l.shop = some (l.shopOf q) → entryFree s l stage q)
    ∧ (l.shop ≠ some (l.shopOf q) → (lcn, q, stage) ∈ l.granted)) : s.succSide l stage lcn succ = .ready := by
  cases succ with
  | none => rfl
  | some q =>
    obtain ⟨runs, here, elsewhere⟩ := goes q rfl
    by_cases near : l.shop = some (l.shopOf q)
    · rw [succSide_here runs near, if_pos ((chainRoom_iff s l stage q).2 (here near))]
    · rw [succSide_elsewhere runs near, if_pos (List.contains_iff_mem.2 (elsewhere near))]

/-- A task elsewhere is asked for an entry, once (log 25). -/
theorem chainAsk_elsewhere (far : l.shop ≠ some (l.shopOf q)) (wanting : (lcn, q, stage) ∉ l.granted) :
    s.chainAsk l stage lcn (some q) = if (lcn, q, stage) ∈ l.asked then s
      else (s.putLaunch { l with asked := l.asked ++ [(lcn, q, stage)] }).chainSay l (l.deviceOf q) stage lcn q .ask := by
  by_cases asked : (lcn, q, stage) ∈ l.asked <;> simp [State.chainAsk, far, wanting, asked]

theorem chainAsk_here (near : l.shop = some (l.shopOf q)) : s.chainAsk l stage lcn (some q) = s := by
  simp [State.chainAsk, near]

/-! ### What is sent on -/

/-- CHAIN's message to the successor, where there is one: into an entry here, or to the device of a task elsewhere. -/
def sentOn (t : State) (l : Launch) (stage lcn : Nat) (succ : Option Nat) (regs : List Vec) : State :=
  match succ with
  | none => t
  | some q =>
    if l.shop = some (l.shopOf q) then
      { t with chainMsgs := t.chainMsgs ++ [{ launch := l.id, stage := stage, source := lcn, target := q, regs := regs }] }
    else (t.putLaunch { l with granted := l.granted.erase (lcn, q, stage) }).chainSay l (l.deviceOf q) stage lcn q (.message regs)

theorem sentOn_frame (t : State) (l : Launch) (stage lcn : Nat) (succ : Option Nat) (regs : List Vec) :
    ∃ msgs launches out, sentOn t l stage lcn succ regs = { t with chainMsgs := msgs, launches := launches, out := out } := by
  unfold sentOn
  cases succ with
  | none => exact ⟨_, _, _, rfl⟩
  | some q =>
    dsimp only
    split
    · exact ⟨_, _, _, rfl⟩
    · exact ⟨_, _, _, rfl⟩

theorem sentOn_here (t : State) (near : l.shop = some (l.shopOf q)) {regs : List Vec} : sentOn t l stage lcn (some q) regs
    = { t with chainMsgs := t.chainMsgs ++ [{ launch := l.id, stage := stage, source := lcn, target := q, regs := regs }] } := if_pos near

theorem sentOn_elsewhere (t : State) (far : l.shop ≠ some (l.shopOf q)) {regs : List Vec} : sentOn t l stage lcn (some q) regs
    = (t.putLaunch { l with granted := l.granted.erase (lcn, q, stage) }).chainSay l (l.deviceOf q) stage lcn q (.message regs) := if_neg far

end

/-! ### Combining with the predecessor's message -/

/-- The messages that are left when one is consumed. -/
def messagesWithout (s : State) : Option ChainMsg → List ChainMsg
  | some m => s.chainMsgs.erase m
  | none => s.chainMsgs

/-- The registers of a chain and what becomes of them beside the message's. -/
def combinings (s : State) (m : ChainMsg) : List (BitVec 5 × Vec × FFlags) :=
  ((chainVs s).zip m.regs).map fun x => (x.1, chainCombine (BitVec.ofNat 2 (chainOp s)) x.2 (s.v x.1))

/-- The registers written and the flags added, in order. -/
def written (s : State) (l : List (BitVec 5 × Vec × FFlags)) : State := l.foldl (fun t x => (t.setV x.1 x.2.1).addFlags x.2.2) s

/-- The registers of a chain combined with the message's, which is consumed. -/
def combinedWith (s : State) : Option ChainMsg → State
  | some m => { written s (combinings s m) with chainMsgs := (written s (combinings s m)).chainMsgs.erase m }
  | none => s

theorem chainVs_eq (s : State) :
    (List.range (chainCount s)).map (fun q => BitVec.ofNat 5 (chainFirst s) + BitVec.ofNat 5 q) = chainVs s := by
  unfold chainVs
  simp only [BitVec.ofNat_add]

theorem chainVs_nodup {s : State} (legal : ChainLegal s) : (chainVs s).Nodup := by
  obtain ⟨-, -, -, inside⟩ := legal
  refine List.Nodup.map_on (fun a ha b hb same => ?_) List.nodup_range
  have equal := congrArg BitVec.toNat same
  rw [BitVec.toNat_ofNat, BitVec.toNat_ofNat] at equal
  have := List.mem_range.1 ha
  have := List.mem_range.1 hb
  omega

/-- What combining leaves (R259). -/
structure Combines (s : State) (msg : Option ChainMsg) (t : State) : Prop where
  frame : ∃ v flags winFlags, t = { s with self := { s.self with v := v, flags := flags, winFlags := winFlags }, chainMsgs := messagesWithout s msg }
  window : t.self.winFlags = s.self.winFlags ||| (t.self.flags &&& ~~~s.self.flags)
  others : ∀ n, n ∉ chainVs s → t.v n = s.v n
  flags : ∃ fl, t.self.flags = s.self.flags ||| fl ∧ (chainOp s ≠ 0 ∨ msg = none → fl = 0)
  kept : msg = none → ∀ n, t.v n = s.v n
  each : ∀ m, msg = some m → ∀ j, j < chainCount s →
    Chained (chainOp s) (m.regs.getD j 0) (s.v (BitVec.ofNat 5 (chainFirst s + j))) (t.v (BitVec.ofNat 5 (chainFirst s + j)))

theorem combines_none (s : State) : Combines s none (combinedWith s none) where
  frame := ⟨_, _, _, rfl⟩
  window := by
    show s.self.winFlags = s.self.winFlags ||| (s.self.flags &&& ~~~s.self.flags)
    simp
  others _ _ := rfl
  flags := ⟨0, (BitVec.or_zero (x := s.self.flags)).symm, fun _ => rfl⟩
  kept _ _ := rfl
  each _ h := nomatch h

theorem chainOp_toNat (s : State) : (BitVec.ofNat 2 (chainOp s)).toNat = chainOp s := by
  rw [BitVec.toNat_ofNat]
  exact Nat.mod_mod _ _

section
variable {s : State} {m : ChainMsg} (legal : ChainLegal s) (whole : m.regs.length = chainCount s)

include whole

theorem combinings_registers : (combinings s m).map Prod.fst = chainVs s := by
  unfold combinings
  rw [List.map_map]
  refine List.map_fst_zip ?_
  rw [whole, chainVs, List.length_map, List.length_range]

theorem combinings_mem {j : Nat} (inside : j < chainCount s) :
    (BitVec.ofNat 5 (chainFirst s + j), chainCombine (BitVec.ofNat 2 (chainOp s)) (m.regs.getD j 0) (s.v (BitVec.ofNat 5 (chainFirst s + j)))) ∈ combinings s m := by
  refine List.mem_map.2 ⟨(BitVec.ofNat 5 (chainFirst s + j), m.regs.getD j 0), ?_, rfl⟩
  have there : j < ((chainVs s).zip m.regs).length := by
    rw [List.length_zip, whole, chainVs, List.length_map, List.length_range]
    omega
  have pair : ((chainVs s).zip m.regs)[j] = (BitVec.ofNat 5 (chainFirst s + j), m.regs.getD j 0) := by
    rw [List.getElem_zip, List.getD_eq_getElem _ _ (by omega)]
    simp [chainVs]
  exact pair ▸ List.getElem_mem there

include legal

theorem combines_some : Combines s (some m) (combinedWith s (some m)) := by
  have registers := combinings_registers whole
  obtain ⟨⟨f, v, folded, quiet⟩, others, each⟩ := chain_fold (combinings s m) (registers ▸ chainVs_nodup legal) s
  have result : written s (combinings s m)
    = { s with self := { s.self with v := v, flags := s.self.flags ||| f, winFlags := s.self.winFlags ||| (f &&& ~~~s.self.flags) } } := folded
  refine ⟨⟨v, s.self.flags ||| f, s.self.winFlags ||| (f &&& ~~~s.self.flags), ?_⟩, ?_, fun n out => others n (registers ▸ out), ⟨f, ?_, fun op => quiet ?_⟩, (nomatch ·), ?_⟩
  · rw [combinedWith, result]
    rfl
  · rw [combinedWith, result]
    show s.self.winFlags ||| (f &&& ~~~s.self.flags) = s.self.winFlags ||| ((s.self.flags ||| f) &&& ~~~s.self.flags)
    ext i
    simp only [BitVec.getElem_or, BitVec.getElem_and, BitVec.getElem_not]
    cases s.self.flags[i] <;> simp
  · rw [combinedWith, result]
  · intro x hx
    obtain ⟨y, -, rfl⟩ := List.mem_map.1 hx
    refine (combined_of _ y.2 (s.v y.1)).2 fun zero => ?_
    rcases op with nonzero | none
    · exact nonzero (by rw [← chainOp_toNat, zero]; rfl)
    · cases none
  · rintro _ ⟨⟩ j hj
    rw [show (combinedWith s (some m)).v _ = _ from each _ (combinings_mem whole hj)]
    have combined := (combined_of (BitVec.ofNat 2 (chainOp s)) (m.regs.getD j 0) (s.v (BitVec.ofNat 5 (chainFirst s + j)))).1
    rwa [chainOp_toNat] at combined

end

/-- Where the predecessor has sent as many registers as the chain has, or there is none. -/
theorem combines_received {s : State} (legal : ChainLegal s) {pred : Option Nat} {msg : Nat → Option ChainMsg}
    (sent : ∀ q, pred = some q → ∃ m, msg q = some m ∧ m.regs.length = chainCount s) : Combines s (pred.bind msg) (combinedWith s (pred.bind msg)) := by
  cases pred with
  | none => exact combines_none s
  | some q =>
    obtain ⟨m, found, whole⟩ := sent q rfl
    rw [Option.bind_some, found]
    exact combines_some legal whole

/-- CHAIN's effect: it combines, then sends what it has combined. -/
theorem chainGo_eq (s : State) (l : Launch) (stage lcn : Nat) :
    s.chainGo l stage lcn s.myCore.chainSetup
      = let t := combinedWith s ((chainSide s.myCore.chain[0]).bind fun q => s.chainMsg l.id stage lcn q)
        sentOn t l stage lcn (chainSide s.myCore.chain[1]) ((chainVs s).map t.v) := by
  rw [setup_eq]
  unfold State.chainGo
  simp only [chainVs_eq]
  cases (chainSide s.myCore.chain[0]).bind fun q => s.chainMsg l.id stage lcn q with
  | none => rfl
  | some m => rfl

/-! ### CHAIN -/

theorem chain_noTask {s : State} (noTask : ∀ a b c, s.self.role ≠ .launch a b c) : exec .chain s = .next (s.trap 0x01 0) := by
  show execChain s = _
  unfold execChain
  cases role : s.self.role with
  | launch a b c => exact absurd role (noTask a b c)
  | _ => rfl

theorem chainSetup_illegal (s : State) : (s.myCore.chainSetup.op = 3 || decide (s.myCore.chainSetup.count < 1) || decide (8 < s.myCore.chainSetup.count)
    || decide (31 < s.myCore.chainSetup.first.toNat + s.myCore.chainSetup.count - 1)) = true ↔ ¬ChainLegal s := by
  have op : BitVec.ofNat 2 (chainOp s) = 3 ↔ chainOp s = 3 := by
    rw [← BitVec.toNat_inj, chainOp_toNat]
    rfl
  have first : (BitVec.ofNat 5 (chainFirst s)).toNat = chainFirst s := by
    rw [BitVec.toNat_ofNat]
    exact Nat.mod_mod _ _
  rw [setup_eq]
  dsimp only
  rw [first]
  simp only [op, Bool.or_eq_true, decide_eq_true_eq, ChainLegal]
  omega

section
variable {s : State} {id lcn stage : Nat} {l : Launch} (role : s.self.role = .launch id lcn stage) (launch : s.launch id = some l)
include role launch

theorem chain_illegal (illegal : ¬ChainLegal s) : exec .chain s = .next (s.trap 0x01 0) := by
  show execChain s = _
  unfold execChain
  rw [role]
  dsimp only
  rw [launch]
  exact if_pos ((chainSetup_illegal s).2 illegal)

variable (legal : ChainLegal s)
include legal

theorem chain_outside (outside : ∃ q, (chainSide s.myCore.chain[0] = some q ∨ chainSide s.myCore.chain[1] = some q) ∧ l.width ≤ q) :
    exec .chain s = .next (s.trap 0x0E 0) := by
  have beyond : (s.myCore.chainSetup.pred.any (fun q => decide (l.width ≤ q)) || s.myCore.chainSetup.succ.any (fun q => decide (l.width ≤ q))) = true := by
    rw [setup_eq]
    obtain ⟨q, side | side, wide⟩ := outside <;> simp [side, wide]
  show execChain s = _
  unfold execChain
  rw [role]
  dsimp only
  rw [launch]
  exact (if_neg (mt (chainSetup_illegal s).1 (not_not.2 legal))).trans (if_pos beyond)

section
variable (inside : ∀ q, chainSide s.myCore.chain[0] = some q ∨ chainSide s.myCore.chain[1] = some q → q < l.width)
include inside

/-- A side that never comes, traps (R259). -/
theorem chain_never (never : s.predSide l stage lcn (chainSide s.myCore.chain[0]) = .never ∨ s.succSide l stage lcn (chainSide s.myCore.chain[1]) = .never) :
    exec .chain s = .next (s.trap 0x0E 0) := by
  rw [chain_launch role launch legal (fun q h => inside q (.inl h)) (fun q h => inside q (.inr h))]
  rcases never with h | h
  · rw [h]
  · rw [h]
    cases s.predSide l stage lcn (chainSide s.myCore.chain[0]) <;> rfl

/-- CHAIN waits while one side is not there and the other can still come, after the request for an entry elsewhere (log 25). -/
theorem chain_waits {pred succ : Side} (hp : s.predSide l stage lcn (chainSide s.myCore.chain[0]) = pred)
    (hs : s.succSide l stage lcn (chainSide s.myCore.chain[1]) = succ) (p : pred = .notYet ∧ succ = .ready ∨ pred = .ready ∧ succ = .notYet) :
    exec .chain s = .next ((s.chainAsk l stage lcn (chainSide s.myCore.chain[1])).wait .chain) := by
  rw [chain_launch role launch legal (fun q h => inside q (.inl h)) (fun q h => inside q (.inr h)), hp, hs]
  rcases p with ⟨rfl, rfl⟩ | ⟨rfl, rfl⟩ <;> rfl

theorem chain_completes (hp : s.predSide l stage lcn (chainSide s.myCore.chain[0]) = .ready)
    (hs : s.succSide l stage lcn (chainSide s.myCore.chain[1]) = .ready) :
    Completes .chain s (chipCut (s.chainGo l stage lcn s.myCore.chainSetup)) := by
  refine completes_of ?_
  rw [chain_launch role launch legal (fun q h => inside q (.inl h)) (fun q h => inside q (.inr h)), hp, hs, chip_eq]

end

end

/-- Settles O40: by what each side finds; where both are ready, by what combining leaves and what is sent on. -/
theorem chains : Obligations.chains := by
  intro s id lcn stage l pred succ width msg ended near dev room goes tells
  refine ⟨chain_noTask, chain_illegal, fun role launch legal => ⟨chain_outside role launch legal, fun inside => ?_⟩⟩
  have waits {p q : Side} := chain_waits (pred := p) (succ := q) role launch legal inside
  have notRoom (q : Nat) (full : ¬room q) : ¬s.chainRoom l stage q = true := mt (chainRoom_iff s l stage q).1 full
  refine ⟨?_, fun q side unsent runs last => ?_, fun q side runs sent here full => ?_, fun q side runs sent far wanting => ?_, fun sent ready => ?_⟩
  · rintro (⟨q, side, unsent, gone⟩ | ⟨q, side, gone⟩)
    · exact chain_never role launch legal inside (.inl ((congrArg _ side).trans (predSide_never unsent gone)))
    · exact chain_never role launch legal inside (.inr ((congrArg _ side).trans (succSide_never gone)))
  · have stays : s.chainAsk l stage lcn succ = s := by rw [last]; rfl
    rw [waits ((congrArg _ side).trans (predSide_notYet unsent runs)) (congrArg _ last) (.inl ⟨rfl, rfl⟩)]
    exact congrArg (fun t : State => Host.Outcome.next (t.wait .chain)) stays
  · have stays : s.chainAsk l stage lcn succ = s := (congrArg _ side).trans (chainAsk_here here)
    rw [waits (predSide_sent sent) ((congrArg _ side).trans ((succSide_here runs here).trans (if_neg (notRoom q full)))) (.inr ⟨rfl, rfl⟩)]
    exact congrArg (fun t : State => Host.Outcome.next (t.wait .chain)) stays
  · have asks := (congrArg (s.chainAsk l stage lcn) side).trans (chainAsk_elsewhere far wanting)
    rw [waits (predSide_sent sent) ((congrArg _ side).trans ((succSide_elsewhere runs far).trans (if_neg (mt List.contains_iff_mem.1 wanting)))) (.inr ⟨rfl, rfl⟩)]
    exact congrArg (fun t : State => Host.Outcome.next (t.wait .chain)) asks
  · have sentAll : ∀ j, pred = some j → s.chainMsg l.id stage lcn j ≠ none := fun j side => by
      obtain ⟨m, found, -⟩ := sent j side
      exact Option.ne_none_iff_exists'.2 ⟨m, found⟩
    have done := chain_completes role launch legal inside (predSide_sent sentAll) (succSide_goes ready)
    rw [chainGo_eq] at done
    change Completes .chain s (chipCut (sentOn (combinedWith s (pred.bind msg)) l stage lcn succ ((chainVs s).map (combinedWith s (pred.bind msg)).v))) at done
    have combines : Combines s (pred.bind msg) (combinedWith s (pred.bind msg)) := combines_received legal sent
    generalize combinedWith s (pred.bind msg) = t at combines done
    obtain ⟨⟨v, flags, winFlags, frame⟩, window, others, added, kept, each⟩ := combines
    obtain ⟨msgs, launches, out, sends⟩ := sentOn_frame t l stage lcn succ ((chainVs s).map t.v)
    refine ⟨_, done, ?_, ?_, ?_, ?_, ?_, ?_, ?_⟩
    · rw [sends, frame]
      rfl
    · rw [sends]
      exact window
    · rw [sends]
      exact others
    · rw [sends]
      obtain ⟨fl, adds, quiet⟩ := added
      refine ⟨fl, adds, fun h => quiet (h.imp_right fun alone => ?_)⟩
      rw [alone]
      rfl
    · rw [sends]
      exact fun alone => kept (by rw [alone]; rfl)
    · rw [sends]
      intro q m side found
      exact each m (by rw [side, Option.bind_some, found])
    · intro left
      have consumed : t.chainMsgs = left := by rw [frame]; rfl
      have unsent : t.launches = s.launches ∧ t.out = s.out := by rw [frame]; exact ⟨rfl, rfl⟩
      refine ⟨fun alone => ?_, fun q side => ⟨fun here => ?_, fun far => ?_⟩⟩
      · rw [alone]
        exact ⟨consumed, unsent⟩
      · rw [side, sentOn_here t here]
        exact ⟨unsent.1, unsent.2, congrArg (· ++ _) consumed⟩
      · rw [side, sentOn_elsewhere t far]
        exact ⟨consumed, congrArg (putBy Launch.id _) unsent.1, congrArg (· ++ _) unsent.2⟩
end Sys2Proof
end

section
/-! SUPPORT. Traps and returns: when the task aborts instead, what a pending delivery takes, which return a frame admits; then the statement. -/
namespace Sys2Proof
open Machine Claims

/-! ### Taking a trap (R357, R362) -/

theorem takeTrap_class1 {s : State} (x : Trap) (h : s.self.class1 = true) : s.takeTrap x = s.abort s.self.core s.self.idx 1 x.cls.toNat :=
  if_pos h

/-- With a bad vector the trap is delivered all the same, and the task aborts then. -/
theorem takeTrap_badVector {s : State} {x : Trap} (h1 : s.self.class1 = false) (h2 : s.self.leasing = false) (h3 : ¬GoodVector (vectorOf s.self x.cls)) :
    ∃ t, Delivered s t x.cls x.addr x.lanes x.agent s.pc (faulting s) s.self.winDone
      ∧ s.takeTrap x = t.abort t.self.core t.self.idx 2 x.cls.toNat := by
  have bad : ¬(s.self.vectorFor x.cls).isVector = true := by rwa [vector_eq, entry_iff]
  have delivered := deliver_spec s x s.pc (faulting s)
  refine ⟨_, delivered, ?_⟩
  obtain ⟨-, frame⟩ := delivered
  rw [congrArg (fun t : State => t.self.core) frame, congrArg (fun t : State => t.self.idx) frame]
  unfold State.takeTrap State.takeTrapAt
  rw [h1, h2]
  exact if_neg bad

/-! ### Pending deliveries (R288, R357, R371) -/

theorem switchTo_self (s : State) : s.switchTo s.self.core s.self.idx = s := if_pos rfl

/-- A slot stands at the word that it executes next, where a window must begin or the word is not complete (R155, R159). -/
theorem atNext_still {s : State} (h : s.self.mustStart = true ∨ s.self.winDone.getLsbD s.self.pos = false) : s.atNext = s := by
  have still : s.self.skip 32 = s.self := if_neg (by simpa [imp_iff_not_or] using h)
  unfold State.atNext State.setSelf
  simp only [still]
  exact if_neg (by simp)

theorem exec_trapDelivery_self {s : State} (runs : s.self.role ≠ .free) :
    exec (.trapDelivery s.self.core s.self.idx) s = .next (s.deliver s.self.core s.self.idx) :=
  congrArg Host.Outcome.next (if_pos (by rw [slot_self]; simpa [Slot.running] using runs))

theorem deliver_watch {s : State} {x : Trap} {pc : U64} {w : U32} (watch : s.self.watchTrap = some (x, pc, w)) (starts : s.self.mustStart = true)
    (h1 : s.self.delegated = none) (h2 : s.self.swLater = []) : s.deliver s.self.core s.self.idx = s.takeTrapAt x pc w := by
  unfold State.deliver
  simp only [switchTo_self, atNext_still (.inl starts), watch, Slot.settles, starts, h1, h2]
  rfl

theorem deliver_coop {s : State} (watch : s.self.watchTrap = none) (ready : s.self.coopReady = true) (awake : ∀ e l c, s.self.park ≠ .yield e l c)
    (within : s.self.mustStart = false) (undone : s.self.winDone.getLsbD s.self.pos = false) :
    s.deliver s.self.core s.self.idx = s.takeTrapAt (.plain 0x15 0) s.pc 0 := by
  have still := atNext_still (.inr undone)
  have taken : s.deliverCoop = s.takeTrapAt (.plain 0x15 0) s.pc 0 := by
    unfold State.deliverCoop
    simp only [still, watch, within]
    rfl
  unfold State.deliver
  simp only [switchTo_self, still, watch, ready, taken]
  exact if_pos rfl

theorem traps : Claims.Traps := by
  intro s a x
  refine ⟨fun h1 h2 h3 => takeAt_ok h1 (leasing_no h2) h3, fun h1 => (takeTrap_class1 x h1).trans (abort_eq s 1 _), fun h1 h2 h3 => ?_,
    fun h1 h2 h3 => ⟨⟨_, rfl, done_delivered h1 (leasing_no h2) h3⟩, ⟨_, rfl, done_delivered h1 (leasing_no h2) h3⟩⟩, completes_of rfl,
    fun pc w runs watch after replay del sw h1 h2 h3 => ?_,
    fun runs watch due hold sent sw del held awake within near undone h1 h2 h3 => ?_⟩
  · obtain ⟨t, delivered, aborted⟩ := takeTrap_badVector h1 (leasing_no h2) h3
    exact ⟨t, delivered, aborted.trans (abort_eq t 2 _)⟩
  · have starts : s.self.mustStart = true := by simp [Slot.mustStart, after, replay]
    exact ⟨_, (exec_trapDelivery_self runs).trans (congrArg _ (deliver_watch watch starts del sw)), takeAt_ok h1 (leasing_no h2) h3⟩
  · have ready : s.self.coopReady = true := by simpa [Slot.coopReady, Slot.running, due, h1, hold, sent, sw, del, held] using runs
    have inside : s.self.mustStart = false := by
      simp only [Slot.mustStart, within, Bool.false_and, Bool.false_or]
      exact decide_eq_false (Nat.not_le.2 near)
    exact ⟨_, (exec_trapDelivery_self runs).trans (congrArg _ (deliver_coop watch ready awake inside undone)), takeAt_ok h1 (leasing_no h2) h3⟩

/-! ### The returns (R284, R361, R368) -/

theorem kind_eq_iff (s : State) (k : BitVec 2) : s.self.kind = k ↔ frameKind s = k.toNat := ext_eq _ _ _ _
theorem frameClass_eq_iff (s : State) : s.self.tfclass.extractLsb' 0 6 = 0x15 ↔ s.self.tfclass.toNat % 2 ^ 6 = 0x15 := by
  rw [ext_eq, pow_zero, Nat.div_one]
  rfl
/-- A frame that TRET returns from: of a trap or of a cooperative pre-emption. -/
theorem kind_tret_iff (s : State) : (s.self.kind = 1 || s.self.kind = 3) = true ↔ frameKind s = 1 ∨ frameKind s = 3 := by
  simp [kind_eq_iff]

section
variable {s : State}

theorem exec_tret_plain (h : frameKind s = 1 ∨ frameKind s = 3) : exec (.tret 0) s = .next (s.setSelf Slot.resume) :=
  (if_pos ((kind_tret_iff s).2 h)).trans (if_pos rfl)
theorem exec_tret_otherKind (y : BitVec 1) (h : ¬(frameKind s = 1 ∨ frameKind s = 3)) : exec (.tret y) s = .next (s.trap 0x01 0) :=
  if_neg fun e => h ((kind_tret_iff s).1 e)
theorem exec_tretYield (h : frameKind s = 1 ∨ frameKind s = 3) :
    exec (.tret 1) s = if s.self.tfclass.toNat % 2 ^ 6 = 0x15 then .next s.yieldNow else .next (s.trap 0x01 0) :=
  (if_pos ((kind_tret_iff s).2 h)).trans ((if_neg (by decide)).trans (if_congr (frameClass_eq_iff s) rfl rfl))
/-- Where neither a recovery nor the end of the turn is at hand, TRET.yield returns (R368). -/
theorem yieldNow_returns (h1 : s.recovering s.self.core s.self.owner = false) (h2 : s.myCore.turn.phase.toNat < 2) :
    s.yieldNow = s.setSelf Slot.resume :=
  (if_neg (by simp [h1])).trans (if_neg (Nat.not_le.2 h2))
theorem exec_upret : exec .upret s = if frameKind s = 2 then .next (s.setSelf Slot.resume) else .next (s.trap 0x01 0) :=
  if_congr (kind_eq_iff s 2) rfl rfl
end

theorem trapReturns : Claims.TrapReturns := by
  intro s
  refine ⟨fun h => ⟨_, exec_tret_plain h, resume_ok s⟩, fun h1 h3 => ⟨exec_tret_otherKind 0 (not_or.2 ⟨h1, h3⟩), exec_tret_otherKind 1 (not_or.2 ⟨h1, h3⟩)⟩,
    fun other => ?_, fun h cls h1 h2 => ⟨_, ?_, resume_ok s⟩, fun h => ⟨_, exec_upret.trans (if_pos h), resume_ok s⟩, fun h => exec_upret.trans (if_neg h)⟩
  · by_cases h : frameKind s = 1 ∨ frameKind s = 3
    · exact (exec_tretYield h).trans (if_neg other)
    · exact exec_tret_otherKind 1 h
  · rw [exec_tretYield h, if_pos cls, yieldNow_returns h1 h2]

/-- Settles O48: taking a trap, its delivery by a step of its own, and the returns. -/
theorem trapsAndReturns : Obligations.traps_and_returns := ⟨traps, trapReturns⟩

end Sys2Proof
end

section
/-! SUPPORT. The TASK group: how a task ends, TYIELD, REPLAY of the porter; then the statement. -/
namespace Sys2Proof
open Machine Claims

/-! ### The end of a task (R264, R282) -/

/-- What the end of a task does besides freeing its slot, where it owes nobody an answer: after a SPAWN, or a request that has been
answered. -/
theorem afterTask_tend (t : State) {x : Slot} (undelegated : x.delegated = none) (role : x.role = .spawned ∨ x.role = .steward) :
    t.afterTask x .tend = { t with recs := t.recs.filter (fun r => r.agent != x.agent), upcalls := t.upcalls.filter (fun u => u.1 != x.agent) } := by
  unfold State.afterTask
  simp only [undelegated]
  rcases role with role | role
  · simp only [role]
  · simp only [role]
    cases x.answers <;> rfl
theorem endTask_ended {s : State} (undelegated : s.self.delegated = none) (role : s.self.role = .spawned ∨ s.self.role = .steward) :
    s.endTask s.self.core s.self.idx .tend = ended s := by
  have freed : s.putSlot s.self.freed = { s with self := s.self.freed } := putSlot_self s _ rfl
  unfold State.endTask
  simp only [slot_self, freed, afterTask_tend _ undelegated role]
  rfl

theorem exec_tend_steward {s : State} (h : s.self.idx = 8) : exec .tend s = .next (s.trap 0x01 0) := if_pos h
theorem exec_tend_ends {s : State} (h : s.self.idx ≠ 8) (h0 : s.self.depth = 0) : exec .tend s = .next (s.endTask s.self.core s.self.idx .tend) :=
  (if_neg h).trans (if_pos h0)
theorem exec_tend_returns {s : State} (h : s.self.idx ≠ 8) (h0 : s.self.depth ≠ 0) (enters : Enterable s (s.g 1)) :
    exec .tend s = .next (((s.sync 3).setSelf fun x => { x with depth := x.depth - 1 }).jumpTo (s.g 1)) := by
  show execTend s = _
  simp only [execTend, if_neg h, if_neg h0, jumpClass_none enters]

/-! ### TYIELD (R283) -/

section
variable {s : State} (d a : BitVec 5)

theorem exec_tyield_begins (awake : ∀ e l x, s.self.park ≠ .yield e l x) : exec (.tyield d a) s =
    if s.self.coopDue then .next ((s.wr d 3).passOn)
    else .next (s.wait (.yield d (s.limitFrom (s.x a)) 0)) := by
  show execTyield d a s = _
  unfold execTyield
  split
  · next yields => exact absurd yields (awake _ _ _)
  · rfl
theorem exec_tyield_parked {e : BitVec 5} {l : Option Nat} {x : BitVec 2} (h : s.self.park = .yield e l x) : exec (.tyield d a) s =
    if x ≠ 0 then .next ((s.wr d (x.setWidth 64)).passOn)
    else if s.past l then .next ((s.wr d 0).passOn) else .next (s.wait (.yield e l 0)) := by
  show execTyield d a s = _
  simp only [execTyield, h]
end

theorem past_iff (s : State) (l : Option Nat) : s.past l = true ↔ ∃ c, l = some c ∧ c ≤ s.cycle := by
  cases l <;> simp [State.past]

/-! ### REPLAY (R278) -/

/-- A message enters the inbox of a core that has just been changed. -/
theorem enterInbox_putCore (s : State) {c : Core} {core : Nat} (m : Msg) (h : c.idx = core) :
    (s.putCore c).enterInbox core m = (s.putCore { c with inbox := c.inbox ++ [m] }).noteYield core 2 := by
  subst h
  unfold State.enterInbox
  simp only [core_put]
  exact congrArg (State.noteYield · c.idx 2) (putCore_putCore s { c with inbox := c.inbox ++ [m] } c rfl)
theorem replayHead_cons {s : State} {m : Msg} {k : List Nat} {rest : List (Msg × List Nat)} (h : s.myCore.overflowed = (m, k) :: rest) :
    s.replayHead s.self.core = (s.putCore { s.myCore with
      overflowed := rest, inbox := s.myCore.inbox ++ [s.heapRead (s.coreUser s.self.core) m k] }).noteYield s.self.core 2 := by
  have here : s.core s.self.core = s.myCore := rfl
  simp only [State.replayHead, here, h]
  exact enterInbox_putCore s _ (core_idx s _)

section
variable {s : State} (porter : s.self.idx = 9)
include porter

theorem exec_replay_empty (h : s.myCore.overflowed = []) : exec .replay s = .next ((s.sync 2).retire) := by
  show execReplay s = _
  simp only [execReplay, porter, h]
  rfl
theorem exec_replay_head {m : Msg} {k : List Nat} {rest : List (Msg × List Nat)} (h : s.myCore.overflowed = (m, k) :: rest) : exec .replay s =
    if s.myCore.hasRoom m then .next (((s.replayHead s.self.core).sync 2).retire) else .next (s.wait .inboxRoom) := by
  show execReplay s = _
  simp only [execReplay, porter, h]
  rfl
end

/-- Settles O45: each member by what it answers in each case. -/
theorem tasks : Obligations.tasks := by
  intro s d a
  refine ⟨putsX_of rfl (place_eq s _), exec_tend_steward, fun h h0 role undelegated => ?_, fun h h0 enters => ⟨_, exec_tend_returns h h0 enters, ⟨rfl, rfl, rfl, rfl, rfl⟩, ?_⟩,
    fun awake => ⟨fun due => passed_ok ?_, fun undue => ?_⟩, fun e l x parked => ⟨fun woken => passed_ok ?_, fun unwoken => ⟨fun c limit reached => passed_ok ?_, fun stands => ?_⟩⟩,
    fun h => if_pos h, fun porter empty => completes_of ?_, fun m k l porter head => ⟨fun full => ?_, fun room => completes_of ?_⟩⟩
  · exact (exec_tend_ends h h0).trans (congrArg _ (endTask_ended undelegated (.inl role)))
  · rw [← show s.sync 3 = spanCut s 3 from spanCut_eq s 3]
    rfl
  · rw [exec_tyield_begins d a awake, if_pos due]
  · rw [exec_tyield_begins d a awake, if_neg (by simp [undue])]
    rfl
  · rw [exec_tyield_parked d a parked, if_pos woken]
  · rw [exec_tyield_parked d a parked, if_neg (not_not.2 unwoken), if_pos ((past_iff s l).2 ⟨c, limit, reached⟩)]
  · have running : ¬s.past l = true := fun reached => by
      obtain ⟨c, limit, now⟩ := (past_iff s l).1 reached
      exact absurd (stands c limit) (Nat.not_lt.2 now)
    rw [exec_tyield_parked d a parked, if_neg (not_not.2 unwoken), if_neg running]
  · rw [exec_replay_empty porter empty, chip_eq]
  · rw [exec_replay_head porter head, if_neg (mt (room_eq _ _).1 full)]
  · rw [exec_replay_head porter head, if_pos ((room_eq _ _).2 room), replayHead_cons head, chip_eq]

end Sys2Proof
end

section
/-! SUPPORT. Delegation within the device: what DLG and DLGA come to, the reply's event, DLGRET; then the statement. -/
namespace Sys2Proof
open Machine Claims

/-! ### Requests (R279) -/

theorem exec_dlg (s : State) (d a b : BitVec 5) : exec (.dlg d a b) s = finish (s.dlg d a b false) := rfl
theorem exec_dlga (s : State) (d a b : BitVec 5) : exec (.dlga d a b) s = finish (s.dlg d a b true) := rfl

section
variable {s : State} {d a b : BitVec 5}

theorem dlg_outstanding (async : Bool) (h : s.self.delegated ≠ none) : s.dlg d a b async = .ok (s.wait .delegate) :=
  if_pos (Option.isSome_iff_ne_none.2 h)
theorem target_ok {core : Nat} (names : NamesHere s (s.x b) core 0) : s.target b false = .ok { device := none, core := core, slot := 0 } := by
  simp only [State.target, target_here names (sp := false) (by simp)]
  rfl
theorem dlg_sends {core : Nat} (async : Bool) (idle : s.self.delegated = none) (entry : EntryOk s (s.g a) 2) (names : NamesHere s (s.x b) core 0)
    (room : s.myCore.replyEntries.length < 8) :
    let u := s.delegate d { device := none, core := core, slot := 0 } (letter s (s.g a) 0 false []) async
    s.dlg d a b async = .ok (if async then u.retire else u.wait .delegate) := by
  obtain ⟨-, -, unrevoked⟩ := id entry
  have word := letter_eq s (s.g a) core 0 false [] (kept_word fun _ => unrevoked)
  simp only [State.dlg, idle, entry_ok entry, target_ok names, word, bind, Except.bind, Option.isSome_none, Option.any_none, Bool.false_eq_true,
    if_false, if_neg (Nat.not_le.2 room)]
end

/-! ### Replies (R279) -/

theorem exec_dlgReplyArrival_self {s : State} {d : BitVec 5} {async : Bool} {m : Msg} {target : Nat} {r : Reply}
    (asked : s.self.delegated = some (d, async, m, target)) (reply : s.self.delegateReply = some r) :
    let u := s.putCore { s.myCore with replyEntries := s.myCore.replyEntries.erase s.self.idx }
    let v := u.setSelf fun y => y.endDelegation d m r
    exec (.dlgReplyArrival s.self.core s.self.idx) s = .next (if async then v else v.retire) := by
  intro u v
  have still : u.switchTo s.self.core s.self.idx = u := if_pos rfl
  show execDlgReplyArrival s.self.core s.self.idx s = _
  simp only [execDlgReplyArrival, State.dlgReplied, slot_self, asked, reply]
  rw [show s.core s.self.core = s.myCore from rfl]
  simp only [u] at still
  rw [still]
  rfl

/-! ### DLGRET (R280) -/

/-- An answer within the device, from a steward task that has no request outstanding itself, leaves its slot as it is. -/
theorem replyTo_self {s : State} (txn : Nat) (r : Reply) (idle : s.self.delegated = none) : (s.replyTo txn r).self = s.self := by
  unfold State.replyTo
  simp only [idle]
  rfl
theorem answer_moved (s : State) {m : Msg} (here : m.replyLocal = true) : s.answer m 0 (s.g 4) (s.g 5) (s.g 6) (s.g 7) =
    s.replyTo m.txn { txn := m.txn, status := 0, value := .zero, w4 := moved s 4, w5 := moved s 5, w6 := moved s 6, w7 := moved s 7, detail := 0 } := by
  unfold State.answer
  simp only [here, Bool.true_or, if_true, moved_eq]

theorem findBy_map {α : Type} {key : α → Nat} {f : α → α} (h : ∀ x, key (f x) = key x) (k : Nat) (l : List α) :
    findBy key k (l.map f) = (findBy key k l).map f := by
  induction l with
  | nil => rfl
  | cons x l ih => simp only [List.map_cons, findBy, h, ih, apply_ite (Option.map f), Option.map_some]

/-- The scan of registers at a task boundary takes nothing from the stores of messages (R33). -/
theorem steward_scanCore (s : State) (core k : Nat) : ((s.scanCore core).core k).steward = (s.core k).steward := by
  unfold State.scanCore
  split
  · rfl
  · unfold State.core State.registerScan
    dsimp only
    rw [findBy_map (fun c => by split <;> rfl)]
    cases findBy Core.idx k s.cores with
    | none => rfl
    | some c =>
      show Core.steward (if c.idx = core then _ else c) = c.steward
      split <;> rfl
theorem stewardStart_none {s : State} {core : Nat} (h : (s.core core).steward = []) : s.stewardStart core = s := by
  simp only [State.stewardStart, h]

theorem exec_dlgret {s : State} {m : Msg} {r : State} (slot : s.self.idx = 8) (role : s.self.role = .steward) (idle : s.self.delegated = none)
    (serves : s.self.answers = some m) (answered : s.answer m 0 (s.g 4) (s.g 5) (s.g 6) (s.g 7) = r) (kept : r.self = s.self)
    (empty : (r.core s.self.core).steward = []) : exec .dlgret s = .next (ended r) := by
  have ends : r.endTask s.self.core 8 .tend = ended r := by
    have := endTask_ended (s := r) (by rw [kept, idle]) (.inr (by rw [kept, role]))
    rwa [kept, slot] at this
  have none_waits : ((ended r).core s.self.core).steward = [] := (steward_scanCore _ _ _).trans empty
  show execDlgret s = _
  simp only [execDlgret, slot, serves, answered, ends, stewardStart_none none_waits]
  rfl

theorem replyTo_cores (s : State) (txn : Nat) (r : Reply) : (s.replyTo txn r).cores = s.cores := by
  unfold State.replyTo
  dsimp only
  split <;> rfl

/-- Settles O44: the requests, the reply's event, and the answer, each by what it comes to. -/
theorem delegation : Obligations.delegation := by
  intro s d a b core slot
  refine ⟨fun busy => ⟨?_, ?_⟩, fun idle entry names slot0 room queue => ?_, fun async m target r asked reply here => ⟨fun h => ?_, fun h => completes_of ?_⟩,
    fun h => if_pos h, fun m r idx role idle serves here empty answered => ?_⟩
  · rw [exec_dlg, dlg_outstanding false busy]
    rfl
  · rw [exec_dlga, dlg_outstanding true busy]
    rfl
  · subst slot0
    refine ⟨⟨_, ?_, delegates_ok (slot := 0) (here_bound names) queue⟩, ⟨_, completes_of ?_, delegates_ok (slot := 0) (here_bound names) queue⟩⟩
    · rw [exec_dlg, dlg_sends false idle entry names room]
      rfl
    · rw [exec_dlga, dlg_sends true idle entry names room]
      rfl
  · rw [exec_dlgReplyArrival_self asked reply, ended_eq _ d m r here, h]
    rfl
  · rw [exec_dlgReplyArrival_self asked reply, ended_eq _ d m r here, h]
    rfl
  · subst answered
    exact exec_dlgret idx role idle serves (answer_moved s here) (replyTo_self _ _ idle) (by rwa [core_of_cores _ _ (replyTo_cores ..)])

end Sys2Proof
end

section
/-! SUPPORT. SEND, SENDT and SPAWN within the device: what stops them, the tail that SENDT reads, what becomes of the message; then the statement. -/
namespace Sys2Proof
open Machine Claims

/-! ### What stops a message (R265, R274) -/

theorem exec_send (s : State) (d a b : BitVec 5) : exec (.send d a b) s = finish (s.send d a b none) := rfl
theorem exec_sendt (s : State) (d a b : BitVec 5) (k : BitVec 4) : exec (.sendt d a b k) s = finish (s.send d a b (some k)) := rfl

section
variable {s : State} {d a b : BitVec 5}

theorem entryCheck_untagged (otype : BitVec 8) (h : (s.g a).tag = false) : s.entryCheck a otype = .error (s.trap 0x03 0) :=
  if_pos (by rw [h]; rfl)
theorem entryCheck_otherType {otype : BitVec 8} (h : (s.g a).tag = true) (h1 : (s.g a).otype ≠ otype) : s.entryCheck a otype = .error (s.trap 0x06 0) :=
  (if_neg (by simp [h])).trans (if_pos (by simpa using h1))
theorem target_noBench (spawn : Bool) (h : 95 < (s.x b).toNat / 2 ^ 6 % 2 ^ 7) : s.target b spawn = .error (s.trap 0x0E 0) := by
  have none_named : s.targetOf (s.x b) spawn = none := if_pos (by simp only [ext_mod, h, decide_true, Bool.true_or])
  rw [State.target, none_named]

theorem send_badEntry {k : Option (BitVec 4)} {t : State} (idle : s.self.sent = []) (h : s.entryCheck a 3 = .error t) : s.send d a b k = .error t := by
  simp only [State.send, idle, h]
  rfl
theorem send_badTarget {k : Option (BitVec 4)} {t : State} (idle : s.self.sent = []) (entry : EntryOk s (s.g a) 3) (h : s.target b false = .error t) :
    s.send d a b k = .error t := by
  simp only [State.send, idle, entry_ok entry, h]
  rfl

/-! ### What becomes of a message (R273, R274) -/

theorem send_delivers {core : Nat} (idle : s.self.sent = []) (entry : EntryOk s (s.g a) 3) (names : NamesHere s (s.x b) core 0) :
    Delivers (.send d a b) s s d core (letter s (s.g a) 0 false []) (s.x b) 0 := by
  obtain ⟨-, -, unrevoked⟩ := id entry
  have word := letter_eq s (s.g a) core 0 false [] (kept_word fun _ => unrevoked)
  refine deliver_ok rfl ?_
  rw [exec_send]
  simp only [State.send, idle, entry_ok entry, target_ok names, word, State.sendTo, Target.scope, bind, Except.bind, pure, Except.pure, Option.isSome_none,
    Bool.false_eq_true, if_false, List.isEmpty_nil, if_true]
  split
  · rfl
  · rfl

/-- The state after SENDT has read its tail: the slot's watch trap and its park, the records, the draws (R358, R129). -/
def TailRead (s u : State) : Prop :=
  u = { s with self := { s.self with watchTrap := u.self.watchTrap, park := u.self.park }, recs := u.recs, free := u.free }

theorem tailRead_of_alike {s t : State} (alike : Alike s t) (shape : t = { s with self := t.self, recs := t.recs }) (f : Nat) :
    TailRead s { t with free := f } := by
  obtain ⟨⟨park, watch, self, -⟩, -⟩ := alike
  unfold TailRead
  rw [shape, self]
theorem TailRead.letter {s u : State} (h : TailRead s u) (entry : Cap) (slot : BitVec 4) (spawned : Bool) (tail : List U8) :
    letter u entry slot spawned tail = letter s entry slot spawned tail := by
  rw [h]
  rfl
theorem TailRead.g {s u : State} (h : TailRead s u) (n : BitVec 5) : u.g n = s.g n := by
  rw [h]
  rfl
theorem TailRead.revokedAddr {s u : State} (h : TailRead s u) (x : Nat) : u.revokedAddr x = s.revokedAddr x := by
  rw [h]
  rfl

/-- The tail of a SENDT: one lane, which adds nothing to a lane mask. -/
def tailLane (s : State) (d : BitVec 5) (n : Nat) : Lane := { i := 0, ea := s.x d, n := n, mask := 0 }

theorem tail_loads {n : Nat} (pos : 0 < n) (pass : LanesPass s (s.g d) .r false false n [0] fun _ => s.x d) :
    ∃ (u : State) (v : Nat), MayRead s (s.localAddr (s.x d).toNat) n v ∧ TailRead s u
      ∧ RecordedAll s u [laneOf s (fun _ => s.x d) n false 0] ∧ WatchedAll s u [(laneOf s (fun _ => s.x d) n false 0, 0)]
      ∧ s.loadLanes d (s.g d) false [tailLane s d n] (s.x d) = .ok (u, [(0, v)]) := by
  have lane : ∀ x ∈ [tailLane s d n], ∃ i ∈ [0], x.ea = s.x d ∧ x.n = n := by simp [tailLane]
  obtain ⟨f, loaded⟩ := loadLanes_ok (al2 := false) (first := s.x d) pass (fun h => h) lane
  obtain ⟨alike, recorded, watched, shape, -⟩ := loads_all _ s (hits_ok pos pass lane)
  exact ⟨_, _, seen_mayRead s s.self.agent _ n (s.free + 0), tailRead_of_alike alike shape f, recorded, watched, loaded⟩

theorem sendt_delivers {core : Nat} {k : BitVec 4} {u : State} {v : Nat} (idle : s.self.sent = []) (entry : EntryOk s (s.g a) 3)
    (names : NamesHere s (s.x b) core 0) (read : TailRead s u)
    (loaded : s.loadLanes d (s.g d) false [tailLane s d ((k.toNat + 1) * 256)] (s.x d) = .ok (u, [(0, v)])) :
    Delivers (.sendt d a b k) s u d core (letter s (s.g a) 0 false (bytesLE ((k.toNat + 1) * 256) v)) (s.x b) 1 := by
  obtain ⟨-, -, unrevoked⟩ := id entry
  have word := letter_eq u (s.g a) core 0 false (bytesLE ((k.toNat + 1) * 256) v) (kept_word fun _ => by rw [read.revokedAddr, unrevoked])
  rw [read.letter] at word
  refine deliver_ok (congrArg Cap.addr (read.g b)) ?_
  rw [exec_sendt]
  simp only [tailLane] at loaded
  simp only [State.send, idle, entry_ok entry, target_ok names, loaded, read.g, word, State.sendTo, Target.scope, bind, Except.bind, pure, Except.pure,
    Option.isSome_none, Bool.false_eq_true, if_false, List.isEmpty_nil, if_true, List.map_cons, List.map_nil, List.sum_cons, List.sum_nil, Nat.add_zero]
  split
  · rfl
  · rfl

/-! ### SPAWN (R276) -/

theorem spawn_enters {core slot : Nat} (idle : s.self.sent = []) (entry : Enterable s (s.g a)) (names : NamesHere s (s.x b) core slot)
    (general : slot < 8 ∨ slot = 15) (own : s.coreUser core = s.self.owner) (calm : (s.core core).overflow = false) (room : Roomy (s.core core) 0) :
    exec (.spawn d a b) s = .next (((posted (s.sync 2) core (letter s (s.g a) (BitVec.ofNat 4 slot) true [])).wr d 0).retire) := by
  have named : s.target b true = .ok { device := none, core := core, slot := BitVec.ofNat 4 slot } := by
    simp only [State.target, target_here names (sp := true) (by simpa using general)]
  obtain ⟨-, -, unrevoked, -⟩ := id entry
  have word := letter_eq s (s.g a) core (BitVec.ofNat 4 slot) true [] (kept_word fun _ => unrevoked)
  have fits : (s.core core).hasRoom (letter s (s.g a) (BitVec.ofNat 4 slot) true []) = true := (room_eq _ _).2 room
  have enters : (s.coreUser core == s.self.owner && !(s.core core).overflow && (s.core core).hasRoom (letter s (s.g a) (BitVec.ofNat 4 slot) true [])) = true := by
    rw [own, calm, fits, beq_self_eq_true]
    rfl
  have arrives : (s.sync 2).arriveSpawn core s.self.owner (letter s (s.g a) (BitVec.ofNat 4 slot) true []) =
      (posted (s.sync 2) core (letter s (s.g a) (BitVec.ofNat 4 slot) true []), true) := if_pos enters
  show execSpawn d a b s = _
  simp only [execSpawn, idle, jumpClass_none entry, named, word, State.sendTo, Target.scope, arrives, bind, Except.bind, pure, Except.pure,
    Option.isSome_none, Bool.false_and, Bool.false_eq_true, if_false, List.isEmpty_nil, if_true]
  rfl
end

/-- Settles O43: what stops each of the three, and what the message that is sent becomes. -/
theorem messages : Obligations.messages := by
  intro s d a b k core slot
  refine ⟨fun idle untagged => ⟨?_, ?_⟩, fun idle tagged other => ?_, fun idle entry far => ?_, fun idle _ entry names slot0 => ?_,
    fun _ entry names slot0 pass => ?_, fun idle entry names general => ⟨fun own calm room => completes_of ?_, fun refused => ⟨fun deep => ?_, fun shallow => completes_of ?_⟩⟩⟩
  · rw [exec_send, send_badEntry idle (entryCheck_untagged 3 untagged)]
    rfl
  · rw [exec_sendt, send_badEntry idle (entryCheck_untagged 3 untagged)]
    rfl
  · rw [exec_send, send_badEntry idle (entryCheck_otherType tagged other)]
    rfl
  · rw [exec_send, send_badTarget idle entry (target_noBench false far)]
    rfl
  · subst slot0
    exact send_delivers idle entry names
  · subst slot0
    obtain ⟨-, -, -, -, idle, -, -⟩ := id pass
    obtain ⟨u, v, may, read, recorded, watched, loaded⟩ := tail_loads (by omega) pass
    exact ⟨u, v, may, read, recorded, watched, sendt_delivers idle entry names read loaded⟩
  · rw [spawn_enters idle entry names general own calm room, chip_eq]
  · exact (spawn_refused idle entry names general refused).trans (if_pos deep)
  · rw [chip_eq]
    exact (spawn_refused idle entry names general refused).trans (if_neg shallow)

end Sys2Proof
end

section
/-! SUPPORT. Messages from elsewhere: what becomes of an arrival, which tasks start for the message stores, and the hardware handlers. First what each
event answers, one lemma for each outcome; then the statements from them. -/
namespace Sys2Proof
open Machine Claims

/-! ### Arrivals (R271, R273, R276, R277, R279) -/

/-- A core takes a message into its inbox: it is not in overflow mode, and has room (R271, R277). -/
def TakesIn (s : State) (core : Nat) (m : Msg) : Prop := (s.core core).overflow = false ∧ Roomy (s.core core) m.tail.length

theorem takesIn_iff (s : State) (core : Nat) (m : Msg) : (!(s.core core).overflow && (s.core core).hasRoom m) = true ↔ TakesIn s core m := by
  simp [TakesIn, room_eq]

/-- The device in an origin word (R265). -/
theorem originDevice_eq (w : U64) : w.extractLsb' 13 14 = BitVec.ofNat 14 (w.toNat / 2 ^ 13) := by
  apply BitVec.eq_of_toNat_eq
  rw [ext_mod, BitVec.toNat_ofNat]

section
variable {s : State} {core : Nat} {m : Msg}

theorem arriveMessage_posted (h : TakesIn s core m) : s.arriveMessage core m = (posted s core m, true) := if_pos ((takesIn_iff s core m).2 h)
theorem arriveMessage_overflows (h : ¬TakesIn s core m) (heap : s.heapRoom (s.coreUser core) m = true) :
    s.arriveMessage core m = (overflows s core m (s.heapTake (s.coreUser core) m), true) :=
  (if_neg (mt (takesIn_iff s core m).1 h)).trans (if_pos heap)
theorem arriveMessage_refused (h : ¬TakesIn s core m) (heap : ¬s.heapRoom (s.coreUser core) m = true) : s.arriveMessage core m = (s, false) :=
  (if_neg (mt (takesIn_iff s core m).1 h)).trans (if_neg heap)
theorem arriveSpawn_posted (owner : U16) (h : s.coreUser core = owner ∧ TakesIn s core m) : s.arriveSpawn core owner m = (posted s core m, true) :=
  if_pos (by rw [Bool.and_assoc, Bool.and_eq_true, takesIn_iff, beq_iff_eq]; exact h)
theorem arriveSpawn_refused (owner : U16) (h : ¬(s.coreUser core = owner ∧ TakesIn s core m)) : s.arriveSpawn core owner m = (s, false) :=
  if_neg (by rw [Bool.and_assoc, Bool.and_eq_true, takesIn_iff, beq_iff_eq]; exact h)

theorem exec_messageArrival_noCore (h : 4608 ≤ core) : exec (.messageArrival core m) s = .next s := if_pos h
theorem exec_spawnHandler_noCore (r : FabricReq) (h : 4608 ≤ core) : exec (.spawnHandler core r m) s = .next s := if_pos h
end

section
variable {s : State} {core : Nat} {m : Msg} (valid : core < 4608)
include valid

theorem exec_messageArrival_untagged (h : m.entry.tag = false) :
    exec (.messageArrival core m) s = .next (answered s (BitVec.ofNat 14 (m.origin.toNat / 2 ^ 13)) m.txn 5) := by
  rw [← originDevice_eq]
  exact (if_neg (Nat.not_le.2 valid)).trans (if_pos (by rw [h]; rfl))
theorem exec_messageArrival_request (h : m.entry.tag = true) (ty : m.entry.otype = 2) : exec (.messageArrival core m) s =
    if (s.core core).steward.length < 32 then
      .next (s.putCore { s.core core with steward := (s.core core).steward ++ [{ m with replyLocal := false }] })
    else .next (answered s (BitVec.ofNat 14 (m.origin.toNat / 2 ^ 13)) m.txn 1) := by
  rw [← originDevice_eq]
  refine (if_neg (Nat.not_le.2 valid)).trans ((if_neg (by simp [h])).trans ((if_pos ty).trans ?_))
  unfold State.queueSteward
  by_cases room : (s.core core).steward.length < 32
  · simp only [if_pos room]
  · simp only [if_neg room]
    rfl
theorem exec_messageArrival_message (h : m.entry.tag = true) (ty : m.entry.otype ≠ 2) :
    let a := s.arriveMessage core { m with replyLocal := false }
    exec (.messageArrival core m) s = .next (answered a.1 (BitVec.ofNat 14 (m.origin.toNat / 2 ^ 13)) m.txn (if a.2 then 0 else 1)) := by
  rw [← originDevice_eq]
  exact (if_neg (Nat.not_le.2 valid)).trans ((if_neg (by simp [h])).trans (if_neg ty))

variable (r : FabricReq)
theorem exec_spawnHandler_untagged (h : m.entry.tag = false) : exec (.spawnHandler core r m) s = .next (answered s r.device r.txn 1) :=
  (if_neg (Nat.not_le.2 valid)).trans (if_pos (by rw [h]; rfl))
theorem exec_spawnHandler_tagged (h : m.entry.tag = true) :
    let a := s.arriveSpawn core r.owner { m with spawned := true, replyLocal := false }
    exec (.spawnHandler core r m) s = .next (answered a.1 r.device r.txn (if a.2 then 0 else 1)) :=
  (if_neg (Nat.not_le.2 valid)).trans (if_neg (by simp [h]))
end

theorem arrivals : Claims.Arrivals := by
  intro s core m r
  refine ⟨fun h => ⟨exec_messageArrival_noCore h, exec_spawnHandler_noCore r h⟩,
    fun valid h => ⟨exec_messageArrival_untagged valid h, exec_spawnHandler_untagged valid r h⟩,
    fun valid h => ⟨fun ty room => ?_, fun ty full => ?_, fun ty room => ?_, fun ty full heap => ⟨_, heapPlace_ok heap, ?_⟩, fun ty full heap => ?_,
      fun own room => ?_, fun refused => ?_⟩⟩
  · rw [exec_messageArrival_request valid h ty, if_pos room]
  · rw [exec_messageArrival_request valid h ty, if_neg (Nat.not_lt.2 full)]
  · rw [exec_messageArrival_message valid h ty, arriveMessage_posted (m := { m with replyLocal := false }) room]
    rfl
  · rw [exec_messageArrival_message valid h ty, arriveMessage_overflows (m := { m with replyLocal := false }) full heap]
    rfl
  · rw [exec_messageArrival_message valid h ty, arriveMessage_refused (m := { m with replyLocal := false }) full heap]
    rfl
  · rw [exec_spawnHandler_tagged valid r h, arriveSpawn_posted (m := { m with spawned := true, replyLocal := false }) r.owner ⟨own, room⟩]
    rfl
  · rw [exec_spawnHandler_tagged valid r h, arriveSpawn_refused (m := { m with spawned := true, replyLocal := false }) r.owner refused]
    rfl

/-! ### Tasks that start for the message stores (R271, R275, R280) -/

theorem running_iff (x : Slot) : x.running = true ↔ x.role ≠ .free := by simp [Slot.running]

theorem originWord_eq (m : Msg) : originWord m = { bits := BitVec.ofNat 128 (m.origin.toNat + m.emul.getD 0 % 256 * 2 ^ 64), tag := false } := by
  refine congrArg (Cap.mk · false) (BitVec.eq_of_toNat_eq ?_)
  have := m.origin.isLt
  rw [appN, BitVec.toNat_ofNat, BitVec.toNat_ofNat]
  omega

section
variable {s : State} {core : Nat} {m : Msg} {rest : List Msg}

theorem exec_inboxTaskStart_empty (h : (s.core core).inbox = []) : exec (.inboxTaskStart core) s = .next s := by
  show execInboxTaskStart core s = _
  simp only [execInboxTaskStart, State.inboxStart, h]
theorem exec_inboxTaskStart_waits (h : (s.core core).inbox = m :: rest)
    (waits : s.userMayRun core = false ∨ s.slotFor core (if m.spawned then m.place else 15) = none) : exec (.inboxTaskStart core) s = .next s := by
  show execInboxTaskStart core s = _
  simp only [execInboxTaskStart, State.inboxStart, h]
  rcases waits with barred | noSlot
  · simp only [barred, Bool.not_false, if_true]
  · simp only [noSlot, ite_self]
theorem exec_inboxTaskStart_starts {i : Nat} (h : (s.core core).inbox = m :: rest) (runs : s.userMayRun core = true)
    (slot : s.slotFor core (if m.spawned then m.place else 15) = some i) :
    let u := (s.putCore { s.core core with inbox := rest }).startTask core i (if m.spawned then .spawned else .message) (s.coreUser core)
      (if m.spawned then m.entry else m.entry.withOtype 0)
      { bits := BitVec.ofNat 128 (m.origin.toNat + m.emul.getD 0 % 256 * 2 ^ 64), tag := false } m.w4 m.w5 m.w6 m.w7
    exec (.inboxTaskStart core) s = .next (u.putSlot { (u.slot core i).withTail m.tail with answers := if m.emul.isSome then some m else none }) := by
  show execInboxTaskStart core s = _
  simp only [execInboxTaskStart, State.inboxStart, h, runs, slot, originWord_eq]
  rfl

theorem exec_stewardRequestStart_empty (h : (s.core core).steward = []) : exec (.stewardRequestStart core) s = .next s :=
  congrArg Host.Outcome.next (stewardStart_none h)
theorem exec_stewardRequestStart_waits (h : (s.core core).steward = m :: rest) (waits : (s.slot core 8).role ≠ .free ∨ s.userMayRun core = false) :
    exec (.stewardRequestStart core) s = .next s := by
  show execStewardRequestStart core s = _
  simp only [execStewardRequestStart, State.stewardStart, h]
  exact congrArg Host.Outcome.next (if_pos (by simpa [running_iff] using waits))
theorem exec_stewardRequestStart_starts (h : (s.core core).steward = m :: rest) (free : (s.slot core 8).role = .free) (runs : s.userMayRun core = true) :
    let u := (s.putCore { s.core core with steward := rest }).startTask core 8 .steward (s.coreUser core) (m.entry.withOtype 0) (Cap.ofInt m.origin)
      m.w4 m.w5 m.w6 m.w7
    exec (.stewardRequestStart core) s = .next (u.putSlot { u.slot core 8 with answers := some m }) := by
  show execStewardRequestStart core s = _
  simp only [execStewardRequestStart, State.stewardStart, h]
  exact congrArg Host.Outcome.next (if_neg (by simp [Slot.running, free, runs]))
end

/-- A request of a slot that is due goes to its core, or waits for another microsecond (R279). -/
theorem resent_here {s : State} {x : Slot} {due target : Nat} {d : BitVec 5} {async : Bool} {m : Msg} (h : x.resend = some due)
    (asked : x.delegated = some (d, async, m, target)) (now : due ≤ s.cycle) (here : target < 8192) :
    s.resent x = if (s.core target).steward.length < 32 then some (s.putCore { s.core target with steward := (s.core target).steward ++ [m] }, none)
      else some (s, some (s.cycle + s.clock)) := by
  simp only [State.resent, h, asked, if_neg (Nat.not_lt.2 now), State.sendRequest, if_pos here, State.queueSteward]
  by_cases room : (s.core target).steward.length < 32
  · simp only [if_pos room]
  · simp only [if_neg room]
theorem exec_dlgResend {s t : State} {core slot : Nat} {again : Option Nat} (h : s.resent (s.slot core slot) = some (t, again)) :
    exec (.dlgResend core slot) s = .next (t.putSlot { t.slot core slot with resend := again }) := by
  show execDlgResend core slot s = _
  simp only [execDlgResend, State.resend, h]

theorem exec_eventRecordPost_rests {s : State} {core : Nat} (h : (s.core core).held = [] ∨ 64 ≤ (s.core core).events.length) :
    exec (.eventRecordPost core) s = .next s := by
  show execEventRecordPost core s = _
  unfold execEventRecordPost State.postHeld
  rcases h with none_held | full
  · simp only [none_held]
  · simp only [full, if_true]
    cases (s.core core).held <;> rfl
theorem exec_eventRecordPost_posts {s : State} {core : Nat} {x : EvRec} {more : List EvRec} (h : (s.core core).held = x :: more)
    (room : (s.core core).events.length < 64) :
    let t := (s.putCore { s.core core with held := more }).enterEvent core x
    exec (.eventRecordPost core) s = .next (if x.source.toNat / 2 ^ 30 = 1 then t.advanceAll (x.source.toNat % 2 ^ 15) else t) := by
  intro t
  have kind : x.source.extractLsb' 30 2 = 1 ↔ x.source.toNat / 2 ^ 30 = 1 := by
    rw [← BitVec.toNat_inj, BitVec.extractLsb'_toNat, Nat.shiftRight_eq_div_pow]
    have := x.source.isLt
    show _ % 4 = 1 ↔ _
    omega
  have index : (x.source.extractLsb' 0 15).toNat = x.source.toNat % 2 ^ 15 := BitVec.extractLsb'_toNat ..
  show execEventRecordPost core s = _
  simp only [execEventRecordPost, State.postHeld, h, if_neg (Nat.not_le.2 room), kind, index]
  rfl

theorem starting : Claims.Starting := by
  intro s core slot m rest
  refine ⟨exec_inboxTaskStart_empty, fun h => ⟨exec_inboxTaskStart_waits h, fun i => exec_inboxTaskStart_starts h⟩, exec_stewardRequestStart_empty,
    fun h => ⟨exec_stewardRequestStart_waits h, exec_stewardRequestStart_starts h⟩,
    fun due d async target h asked now here => ⟨fun room => ?_, fun full => ?_⟩, exec_eventRecordPost_rests,
    fun x more h room => ⟨fun kind => ?_, fun kind => ?_⟩⟩
  · exact exec_dlgResend ((resent_here h asked now here).trans (if_pos room))
  · exact exec_dlgResend ((resent_here h asked now here).trans (if_neg (Nat.not_lt.2 full)))
  · rw [exec_eventRecordPost_posts h room, if_pos kind]
  · rw [exec_eventRecordPost_posts h room, if_neg kind]

end Sys2Proof
end

section
/-! SUPPORT. Loads, stores, atomics and bulk stores for other devices (R396): the access of a request is judged once for the four handlers that make
one; then what each of them answers. -/
namespace Sys2Proof
open Machine Claims

/-! ### The access of a request (R64, R133, R396) -/

/-- The requester's owner may store capabilities at an address (R64). -/
def MayStoreCaps (s : State) (owner : U16) (a : Nat) : Prop := ∃ e, s.rightsAt owner a = some e ∧ e.c = true

theorem mayStoreCaps_iff (s : State) (owner : U16) (a : Nat) : (s.rightsAt owner a).any (fun e => e.c) = true ↔ MayStoreCaps s owner a := by
  unfold MayStoreCaps
  cases s.rightsAt owner a <;> simp

section
variable {s : State} {r : FabricReq} {x : Acc}

theorem unprotected_of_accErr (h : ∀ a, s.accErr x ≠ some (.protect a)) (k : Nat) : s.unprotected r x k = s := by
  cases k with
  | zero => rfl
  | succ k =>
    unfold State.unprotected
    split
    · next a protect => exact absurd protect (h a)
    · rfl

variable (run : State → State)

theorem serveAccess_passes {cap : Bool} (h : s.accErr x = none) (may : cap = true → MayStoreCaps s r.owner x.addr) :
    s.serveAccess r x cap run = .ok (run s) := by
  have still := unprotected_of_accErr (r := r) (x := x) (s := s) (by simp [h]) 2
  have allowed : (cap && !(s.rightsAt r.owner x.addr).any fun e => e.c) = false := by
    cases cap with
    | false => rfl
    | true => rw [(mayStoreCaps_iff ..).2 (may rfl)]; rfl
  simp only [State.serveAccess, still, h, allowed]
  rfl
theorem serveAccess_noCapRight (h : s.accErr x = none) (may : ¬MayStoreCaps s r.owner x.addr) :
    s.serveAccess r x true run = .ok (answered s r.device r.txn 5) := by
  have still := unprotected_of_accErr (r := r) (x := x) (s := s) (by simp [h]) 2
  have barred : ((s.rightsAt r.owner x.addr).any fun e => e.c) = false := Bool.eq_false_iff.2 (mt (mayStoreCaps_iff ..).1 may)
  simp only [State.serveAccess, still, h, barred]
  rfl
theorem serveAccess_rights (cap : Bool) (h : s.accErr x = some .rights) : s.serveAccess r x cap run = .ok (answered s r.device r.txn 5) := by
  have still := unprotected_of_accErr (r := r) (x := x) (s := s) (by simp [h]) 2
  simp only [State.serveAccess, still, h]
  rfl
end

/-! ### Loads, stores, atomics, bulk stores -/

section
variable {s t : State} {r : FabricReq}

theorem takeRequest_ok {handler : Nat} (h : s.serve handler r = .ok t) : s.takeRequest handler r = t := by
  unfold State.takeRequest
  rw [h]
theorem exec_loadHandler (h : s.serveLoad r = .ok t) : exec (.loadHandler r) s = .next t := congrArg Host.Outcome.next (takeRequest_ok h)
theorem exec_storeHandler (h : s.serveStore r = .ok t) : exec (.storeHandler r) s = .next t := congrArg Host.Outcome.next (takeRequest_ok h)
theorem exec_atomicHandler (h : s.serveAtomic r = .ok t) : exec (.atomicHandler r) s = .next t := congrArg Host.Outcome.next (takeRequest_ok h)
theorem exec_bulkStoreHandler (plain : r.chain = none) (h : s.serveBulk r = .ok t) : exec (.bulkStoreHandler r) s = .next t := by
  show execBulkStoreHandler r s = _
  simp only [execBulkStoreHandler, plain]
  exact congrArg Host.Outcome.next (takeRequest_ok h)
theorem exec_bulkStoreHandler_chain {n : ChainNote} (h : r.chain = some n) : exec (.bulkStoreHandler r) s = .next (s.takeChain n) := by
  show execBulkStoreHandler r s = _
  simp only [execBulkStoreHandler, h]
end

/-- The access of a load for another device: atomic for an LDA. -/
def loadAccess (s : State) (r : FabricReq) : Acc := s.reqAcc r r.size false true (r.op == 11)

section
variable {s : State} {r : FabricReq} (pass : s.accErr (loadAccess s r) = none)
include pass

theorem serveLoad_plain (plain : r.op ≠ 11) :
    s.serveLoad r = .ok (served s ((s.looked (loadAccess s r).agent (reqLocal r) r.size).performed (loadAccess s r) id) r
      (if r.capability then s.fabricValue r (s.seenCap (loadAccess s r).agent (reqLocal r))
       else word128 (BitVec.ofNat 128 (s.seenN (loadAccess s r).agent (reqLocal r) r.size)))) := by
  have atomic : (r.op == 11) = false := by simpa using plain
  unfold State.serveLoad
  refine (serveAccess_passes (cap := false) _ pass (fun h => nomatch h)).trans ?_
  simp only [loadAccess, State.reqAcc, atomic]
  rfl
theorem serveLoad_atomic (atomic : r.op = 11) :
    s.serveLoad r = .ok (served s (s.performed (loadAccess s r) id) r
      (if r.capability then s.fabricValue r (s.capAt (reqLocal r)) else word128 (BitVec.ofNat 128 (bytesAt s (reqLocal r) r.size)))) := by
  have atomic : (r.op == 11) = true := by simpa using atomic
  unfold State.serveLoad
  refine (serveAccess_passes (cap := false) _ pass (fun h => nomatch h)).trans ?_
  rw [← loadN_bytesAt]
  simp only [loadAccess, State.reqAcc, atomic]
  rfl
end

theorem looked_drew (s : State) (q : Agent) (a n : Nat) : s.looked q a n = s ∨ s.looked q a n = { s with free := s.free + 1 } := by
  unfold State.looked
  split
  · exact .inl rfl
  · exact .inr rfl

/-- The capability that a request carries is tagged: its tag came with it, or beside it. -/
def CarriesTag (r : FabricReq) : Prop := r.data.tag = true ∨ r.tagged = true

theorem carriesTag_iff (r : FabricReq) : (r.capability && (r.data.tag || r.tagged)) = true ↔ r.capability = true ∧ CarriesTag r := by
  simp [CarriesTag]

section
variable {s : State} {r : FabricReq}

theorem serveStore_data (pass : s.accErr (s.reqAcc r r.size true false (r.op == 12)) = none) (data : r.capability = false) :
    s.serveStore r = .ok (served s (s.performed (s.reqAcc r r.size true false (r.op == 12)) fun u => u.storeData (reqLocal r) r.size r.data.bits.toNat) r .zero) := by
  unfold State.serveStore
  simp only [data]
  exact serveAccess_passes _ pass (fun h => nomatch h)
theorem serveStore_cap (pass : s.accErr (s.reqAcc r r.size true false (r.op == 12)) = none) (cap : r.capability = true)
    (may : CarriesTag r → MayStoreCaps s r.owner (reqLocal r)) :
    s.serveStore r = .ok (served s (s.performed (s.reqAcc r r.size true false (r.op == 12)) fun u => u.storeCap (reqLocal r) r.data (u.dropRevoked r.data).tag) r
      .zero) := by
  unfold State.serveStore
  refine (serveAccess_passes _ pass fun h => may ((carriesTag_iff r).1 h).2).trans ?_
  simp only [cap]
  rfl
theorem serveStore_noCapRight (pass : s.accErr (s.reqAcc r r.size true false (r.op == 12)) = none) (cap : r.capability = true) (tagged : CarriesTag r)
    (may : ¬MayStoreCaps s r.owner (reqLocal r)) : s.serveStore r = .ok (answered s r.device r.txn 5) := by
  unfold State.serveStore
  simp only [(carriesTag_iff r).2 ⟨cap, tagged⟩]
  exact serveAccess_noCapRight _ pass may

/-- The value that an atomic for another device finds. -/
def atomicFinds (s : State) (r : FabricReq) : Cap := if r.capability = true then s.capAt (reqLocal r) else word128 (BitVec.ofNat 128 (s.loadN (reqLocal r) r.size))
/-- What an atomic for another device stores (R203 to R206). -/
def atomicStores (s : State) (r : FabricReq) (u : State) : State :=
  match atomNew r.op.toNat r.size (atomicFinds s r) (s.dropRevoked r.data) r.expect with
  | none => u
  | some y => if r.capability = true then u.storeCap (reqLocal r) y y.tag else u.storeData (reqLocal r) r.size y.bits.toNat

theorem serveAtomic_passes (pass : s.accErr (s.reqAcc r r.size (r.op != 11) (r.op != 12) true) = none)
    (may : r.capability = true → CarriesTag r → MayStoreCaps s r.owner (reqLocal r)) :
    s.serveAtomic r = .ok (served s (s.performed (s.reqAcc r r.size (r.op != 11) (r.op != 12) true) (atomicStores s r)) r (s.fabricValue r (atomicFinds s r))) := by
  unfold State.serveAtomic
  exact serveAccess_passes _ pass fun h => may ((carriesTag_iff r).1 h).1 ((carriesTag_iff r).1 h).2
theorem serveAtomic_noCapRight (pass : s.accErr (s.reqAcc r r.size (r.op != 11) (r.op != 12) true) = none) (cap : r.capability = true) (tagged : CarriesTag r)
    (may : ¬MayStoreCaps s r.owner (reqLocal r)) : s.serveAtomic r = .ok (answered s r.device r.txn 5) := by
  unfold State.serveAtomic
  simp only [(carriesTag_iff r).2 ⟨cap, tagged⟩]
  exact serveAccess_noCapRight _ pass may

theorem serveBulk_untagged (pass : s.accErr (s.reqAcc r r.tail.length true false false) = none) (none_tagged : r.tags = []) :
    s.serveBulk r = .ok (served s (s.performed (s.reqAcc r r.tail.length true false false)
      fun u => ((r.tail.zipIdx).foldl (fun w y => w.putByte (reqLocal r + y.2) y.1) u).clearTags (reqLocal r) r.tail.length) r .zero) := by
  unfold State.serveBulk
  simp only [none_tagged]
  exact serveAccess_passes _ pass (fun h => nomatch h)
end

/-! ### Rights that the owner lacks -/

section
variable {s : State} {r : FabricReq}

theorem serveLoad_rights (barred : s.accErr (loadAccess s r) = some .rights) : s.serveLoad r = .ok (answered s r.device r.txn 5) := by
  unfold State.serveLoad
  exact serveAccess_rights _ _ barred
theorem serveStore_rights (barred : s.accErr (s.reqAcc r r.size true false (r.op == 12)) = some .rights) :
    s.serveStore r = .ok (answered s r.device r.txn 5) := by
  unfold State.serveStore
  exact serveAccess_rights _ _ barred
theorem serveAtomic_rights (barred : s.accErr (s.reqAcc r r.size (r.op != 11) (r.op != 12) true) = some .rights) :
    s.serveAtomic r = .ok (answered s r.device r.txn 5) := by
  unfold State.serveAtomic
  exact serveAccess_rights _ _ barred
theorem serveBulk_rights (barred : s.accErr (s.reqAcc r r.tail.length true false false) = some .rights) :
    s.serveBulk r = .ok (answered s r.device r.txn 5) := by
  unfold State.serveBulk
  exact serveAccess_rights _ _ barred
end

theorem handlers : Claims.Handlers := by
  intro s r
  refine ⟨fun pass data => ⟨fun plain => ⟨_, s.looked (loadAccess s r).agent (reqLocal r) r.size, seen_mayRead s _ _ _ s.free, looked_drew ..,  exec_loadHandler ?_⟩, fun atomic => exec_loadHandler ?_⟩,
    fun pass cap => ⟨fun plain size aligned => ⟨_, s.looked (loadAccess s r).agent (reqLocal r) r.size, seenCap_mayRead s _ _ aligned, looked_drew .., exec_loadHandler ?_⟩, fun atomic => exec_loadHandler ?_⟩,
    fun pass data => exec_storeHandler (serveStore_data pass data), fun pass cap may => exec_storeHandler (serveStore_cap pass cap (may cap)),
    fun pass cap tagged barred => exec_storeHandler (serveStore_noCapRight pass cap tagged barred),
    fun pass cap tagged barred => exec_atomicHandler (serveAtomic_noCapRight pass cap tagged barred),
    fun pass may => exec_atomicHandler (serveAtomic_passes pass may),
    fun n plain length pass none_tagged => exec_bulkStoreHandler plain ?_, fun n chain => exec_bulkStoreHandler_chain chain,
    fun i n w rd at0 which barred => ?_⟩
  · rw [serveLoad_plain pass plain, data]
    rfl
  · rw [serveLoad_atomic pass atomic, data]
    rfl
  · rw [serveLoad_plain pass plain, cap]
    rfl
  · rw [serveLoad_atomic pass atomic, cap]
    rfl
  · subst length
    exact serveBulk_untagged pass none_tagged
  · rcases which with ⟨rfl, rfl, rfl, rfl, rfl⟩ | ⟨rfl, rfl, rfl, rfl, rfl⟩ | ⟨rfl, rfl, rfl, rfl, rfl⟩ | ⟨rfl, plain, rfl, rfl, rfl, rfl⟩
    · exact exec_loadHandler (serveLoad_rights barred)
    · exact exec_storeHandler (serveStore_rights barred)
    · exact exec_atomicHandler (serveAtomic_rights barred)
    · exact exec_bulkStoreHandler plain (serveBulk_rights barred)

end Sys2Proof
end

section
/-! SUPPORT. Counts on swatches for other devices (R103, R109): what stops an operation on a name, what a reference and a release do to its entry, and
what the handler answers; then replies, launches and unimplemented handlers, and the statement of messages. -/
namespace Sys2Proof
open Machine Claims

/-! ### What stops an operation on a name (R99, R100) -/

theorem firstLine_eq (r : Region) (h : U128) : r.firstLine h = h.toNat / 2 ^ 96 % (910 * r.n) := by
  have top : (h.extractLsb' 96 32).toNat = h.toNat / 2 ^ 96 := by
    have := h.isLt
    rw [BitVec.extractLsb'_toNat, Nat.shiftRight_eq_div_pow]
    omega
  unfold Region.firstLine
  rw [top]
  rfl
theorem windowBad_eq_stopAt (s : State) (r : Region) (h : U128) : s.windowBad r h = stopAt s r h := by
  unfold State.windowBad stopAt lookup Region.windowLine
  simp only [firstLine_eq]
  rfl
theorem nameBad_eq_nameStop (s : State) (r : Region) (name : U128) : s.nameBad r name = nameStop s r name := by
  unfold State.nameBad nameStop
  rw [windowBad_eq_stopAt]
  cases stopAt s r name with
  | some e => rfl
  | none => cases s.liveIn r name <;> rfl

/-- What stops an operation: an absent page, data lost, or an integrity failure; nothing that is an answer. -/
def Stops (x : SwEnd) : Prop := (∃ k, x = .swatch k) ∨ (∃ a, x = .lost a) ∨ ∃ a, x = .integrity a

theorem lineBad_stops {s : State} {a : Nat} {x : SwEnd} (h : s.lineBad a = some x) : Stops x := by
  unfold State.lineBad at h
  split at h
  · exact .inr (.inl ⟨a, (Option.some.inj h).symm⟩)
  · split at h
    · exact .inr (.inr ⟨a, (Option.some.inj h).symm⟩)
    · nomatch h
theorem linesBad_stops {s : State} {l : List Nat} {x : SwEnd} (h : s.linesBad l = some x) : Stops x := by
  unfold State.linesBad at h
  split at h
  · exact .inl ⟨5, (Option.some.inj h).symm⟩
  · obtain ⟨a, -, bad⟩ := List.exists_of_findSome?_eq_some h
    exact lineBad_stops bad
theorem nameStop_stops {s : State} {r : Region} {name : U128} {x : SwEnd} (h : nameStop s r name = some x) : Stops x := by
  unfold nameStop at h
  split at h
  · next stop => exact linesBad_stops (stop.trans h)
  · obtain ⟨e, -, absent⟩ := Option.bind_eq_some_iff.1 h
    split at absent
    · exact .inl ⟨5, (Option.some.inj absent).symm⟩
    · nomatch absent

/-! ### References and releases of a name (R101, R102) -/

theorem freedWord_eq (n : Nat) : freedWord n = BitVec.ofNat 64 n ++ statusWord 3 n := by
  have low : BitVec.ofNat 32 n ++ 3#32 = statusWord 3 n := by
    apply BitVec.eq_of_toNat_eq
    unfold statusWord cut
    rw [appN, BitVec.ofInt_natCast, BitVec.toNat_ofNat, BitVec.toNat_ofNat, BitVec.toNat_ofNat]
    omega
  rw [← low]
  exact BitVec.append_assoc

section
variable {s : State} {r : Region} {name : U128} {who : HeldRelease} {e : SwEntry}

theorem swref_unknown (h : s.liveIn r name = none) : s.swref r name = (s, 1) := by simp only [State.swref, h]
theorem swref_pinned (h : s.liveIn r name = some e) (pin : e.count = 0xFFFFFFFF) : s.swref r name = (s, 2) := by
  simp only [State.swref, h]
  exact if_pos pin
theorem addRef_counts (h : s.liveIn r name = some e) (pin : e.count ≠ 0xFFFFFFFF) : s.addRef r name = s.putSw r { e with count := e.count + 1 } 1 := by
  simp only [State.addRef, h]
  exact if_neg pin
theorem swref_counts (h : s.liveIn r name = some e) (pin : e.count ≠ 0xFFFFFFFF) : s.swref r name = (s.putSw r { e with count := e.count + 1 } 1, 0) := by
  rw [← addRef_counts h pin]
  simp only [State.swref, h]
  exact if_neg pin

theorem swrel_unknown (h : s.liveIn r name = none) : s.swrel r name who = (s, { status := 1, number := none, held := false }) := by
  simp only [State.swrel, h]
theorem swrel_pinned (h : s.liveIn r name = some e) (pin : e.count = 0xFFFFFFFF) :
    s.swrel r name who = (s, { status := 2, number := none, held := false }) := by
  simp only [State.swrel, h]
  exact if_pos pin
theorem swrel_counts (h : s.liveIn r name = some e) (pin : e.count ≠ 0xFFFFFFFF) (more : e.count ≠ 1) :
    s.swrel r name who = (s.putSw r { e with count := e.count - 1 } 1, { status := 0, number := none, held := false }) := by
  simp only [State.swrel, h]
  exact (if_neg pin).trans (if_pos more)

/-- The last reference to a swatch goes: its entry and its line are freed, and a node's children are dropped by a release command. -/
theorem swrel_last (h : s.liveIn r name = some e) (last : e.count = 1) : s.swrel r name who =
    if e.node = true then
      let bad := (s.lineBad (dataAddr r e.line)).isSome
      let p := (freedIn s r e).placeRelease (without r e) { who with children := if bad then [] else children (s.content r e.line), lost := bad }
      (p.1, { status := 3, number := p.2, held := p.2.isNone })
    else (freedIn s r e, { status := 3, number := none, held := false }) := by
  have pin : e.count ≠ pinned := by
    rw [last]
    decide
  simp only [State.swrel, h]
  exact (if_neg pin).trans (if_neg (not_not.2 last))
theorem swrel_leaf (h : s.liveIn r name = some e) (last : e.count = 1) (leaf : e.node = false) :
    s.swrel r name who = (freedIn s r e, { status := 3, number := none, held := false }) := by
  rw [swrel_last h last, leaf]
  exact if_neg Bool.false_ne_true
theorem swrel_node (h : s.liveIn r name = some e) (last : e.count = 1) (node : e.node = true) (room : ((freedIn s r e).ctx r.ctxIndex).waiting.length < 32) :
    let bad := (s.lineBad (dataAddr r e.line)).isSome
    let t := (freedIn s r e).enterRelease (without r e) { who with children := if bad then [] else children (s.content r e.line), lost := bad }
    s.swrel r name who = (t.1, { status := 3, number := some t.2, held := false }) := by
  have place (w : HeldRelease) : (freedIn s r e).placeRelease (without r e) w
      = (((freedIn s r e).enterRelease (without r e) w).1, some ((freedIn s r e).enterRelease (without r e) w).2) := if_pos room
  intro bad t
  exact (swrel_last h last).trans ((if_pos node).trans (congrArg (fun p : State × Option Nat => (p.1, Dropped.mk 3 p.2 p.2.isNone)) (place _)))
end

/-! ### The handler -/

section
variable {s : State} {r : FabricReq}

theorem exec_countHandler_noRegion (h : s.regionAt (reqLocal r) = none) : exec (.swatchCountHandler r) s = .next (answered s r.device r.txn 0x15) := by
  show execSwatchCountHandler r s = _
  have h : s.regionAt (fabricLocal r.addr.toNat) = none := h
  simp only [execSwatchCountHandler, h]
  rfl

/-- The status that answers a count which its region's lines stop (R103, R109). -/
def countStatus (x : SwEnd) : U16 :=
  match x with
  | .lost _ => 0xD
  | .integrity _ => 0xC
  | _ => 6

/-- Whom a release for another device tells its number. -/
def tellsDevice (r : FabricReq) : HeldRelease := { HeldRelease.quiet with device := some (r.device, r.txn) }

/-- What goes back for a count, by what it ends with. -/
def countAnswer (r : FabricReq) (x : State × SwEnd) : Host.Outcome State Fault Refusal :=
  match x with
  | (t, .value v) => .next (served t t r (word128 v))
  | (t, .refuse st k) => .next (served t t r (word128 (swStatus st k)))
  | (t, .held) => .next t
  | (t, e) => .next (answered t r.device r.txn (BitVec.ofNat 16 e.status))

variable {g : Region} {seg : Nat} (region : s.regionAt (reqLocal r) = some g) (place : placeOf (reqLocal r) = .seg seg)
include region place

theorem exec_countHandler_noRights (h : ∀ e, s.rightsOn r.owner false seg = some e → ¬(e.r = true ∧ e.w = true)) :
    exec (.swatchCountHandler r) s = .next (answered s r.device r.txn 5) := by
  show execSwatchCountHandler r s = _
  have region : s.regionAt (fabricLocal r.addr.toNat) = some g := region
  have place : placeOf (fabricLocal r.addr.toNat) = .seg seg := place
  unfold execSwatchCountHandler
  rw [region, place]
  dsimp only
  cases rights : s.rightsOn r.owner false seg with
  | none => rfl
  | some e =>
    have lacks : (!(e.r && e.w)) = true := by
      rw [Bool.not_eq_true', Bool.eq_false_iff, ne_eq, Bool.and_eq_true]
      exact h e rights
    exact if_pos lacks

variable {e : Rights} (rights : s.rightsOn r.owner false seg = some e) (read : e.r = true) (write : e.w = true)
include rights read write

theorem exec_countHandler_passes :
    exec (.swatchCountHandler r) s = countAnswer r (s.countHere g (r.op == 1) r.data.bits (tellsDevice r)) := by
  show execSwatchCountHandler r s = _
  have region : s.regionAt (fabricLocal r.addr.toNat) = some g := region
  have place : placeOf (fabricLocal r.addr.toNat) = .seg seg := place
  unfold execSwatchCountHandler tellsDevice
  rw [region, place]
  dsimp only
  rw [rights]
  refine (if_neg (by simp [read, write])).trans ?_
  rcases s.countHere g (r.op == 1) r.data.bits _ with ⟨t, x⟩
  cases x <;> rfl
theorem exec_countHandler_answers {t : State} {v : U128} (h : s.countHere g (r.op == 1) r.data.bits (tellsDevice r) = (t, .value v)) :
    exec (.swatchCountHandler r) s = .next (served s t r (word128 v)) :=
  (exec_countHandler_passes region place rights read write).trans (congrArg (countAnswer r) h)
theorem exec_countHandler_stops (x : SwEnd) (h : nameStop s g r.data.bits = some x) :
    exec (.swatchCountHandler r) s = .next (answered s r.device r.txn (countStatus x)) := by
  have stop : s.countHere g (r.op == 1) r.data.bits (tellsDevice r) = (s, x) := by
    simp only [State.countHere, nameBad_eq_nameStop, h]
  rw [exec_countHandler_passes region place rights read write, stop]
  obtain ⟨k, rfl⟩ | ⟨a, rfl⟩ | ⟨a, rfl⟩ := nameStop_stops h <;> rfl
end

section
variable {s : State} {g : Region} {name : U128} (free : nameStop s g name = none)
include free

theorem countHere_ref {t : State} {st : Nat} (h : s.swref g name = (t, st)) (small : st < 2 ^ 32) (who : HeldRelease) :
    s.countHere g false name who = (t, .value (failure st 0)) := by
  simp only [State.countHere, nameBad_eq_nameStop, free, h, status_bits st 0 small]
  rfl
theorem countHere_rel {t : State} {st : Nat} {who : HeldRelease} (h : s.swrel g name who = (t, { status := st, number := none, held := false }))
    (small : st < 2 ^ 32) : s.countHere g true name who = (t, .value (failure st 0)) := by
  simp only [State.countHere, nameBad_eq_nameStop, free, h, status_bits st 0 small]
  rfl
theorem countHere_relNode {t : State} {st n : Nat} {who : HeldRelease} (h : s.swrel g name who = (t, { status := st, number := some n, held := false })) :
    s.countHere g true name who = (t, .value (BitVec.ofNat 64 n ++ statusWord 3 n)) := by
  simp only [State.countHere, nameBad_eq_nameStop, free, h, freedWord_eq]
  rfl
/-- A name that is not counted answers its status, whatever the operation. -/
theorem countHere_same {st : Nat} {who : HeldRelease} (ref : s.swref g name = (s, st)) (rel : s.swrel g name who = (s, { status := st, number := none, held := false }))
    (small : st < 2 ^ 32) (op : Bool) : s.countHere g op name who = (s, .value (failure st 0)) := by
  cases op with
  | false => exact countHere_ref free ref small who
  | true => exact countHere_rel free rel small
end

theorem countHandler : Claims.CountHandler := by
  intro s r a i name
  refine ⟨exec_countHandler_noRegion, fun g region seg place => ⟨exec_countHandler_noRights region place,
    fun e rights read write => ⟨fun x stop => exec_countHandler_stops region place rights read write x stop, fun free => ?_⟩⟩⟩
  have answers {t : State} {v : U128} (h : s.countHere g (r.op == 1) name (tellsDevice r) = (t, .value v)) :
      exec i s = .next (served s t r (word128 v)) := exec_countHandler_answers region place rights read write h
  refine ⟨fun unknown => answers (countHere_same free (swref_unknown unknown) (swrel_unknown unknown) (by decide) _),
    fun x live => ⟨fun pin => answers (countHere_same free (swref_pinned live pin) (swrel_pinned live pin) (by decide) _),
      fun pin => ⟨fun ref => answers ?_, fun rel more => answers ?_, fun rel last leaf => answers ?_, fun rel last node room => answers ?_⟩⟩⟩
  · rw [ref]
    exact countHere_ref free (swref_counts live pin) (by decide) _
  · rw [rel]
    exact countHere_rel free (swrel_counts live pin more) (by decide)
  · rw [rel]
    exact countHere_rel free (swrel_leaf live last leaf) (by decide)
  · rw [rel]
    exact countHere_relNode free (swrel_node live last node room)

/-! ### Replies, launches, unimplemented handlers (R268, R396, R398) -/

section
variable {s : State} {rep : Reply}

theorem exec_replyHandler_launch {l : Launch} (h : s.launches.find? (fun l => l.remote.contains rep.txn) = some l) :
    exec (.replyHandler rep) s = .next (s.shopEnded l rep) := by
  show execReplyHandler rep s = _
  simp only [execReplyHandler, State.takeReply, h]
theorem exec_replyHandler_slot (launch : s.launches.find? (fun l => l.remote.contains rep.txn) = none) (far : s.farOf rep.txn = none)
    (returned : ∀ x ∈ s.heldSlots, x.returned rep = false) (delegation : s.delegates rep.txn = false) :
    exec (.replyHandler rep) s = .next (s.deliverReply rep) := by
  have none_returned : (s.heldSlots.any fun x => x.returned rep) = false := List.any_eq_false.2 fun x hx => Bool.eq_false_iff.1 (returned x hx)
  show execReplyHandler rep s = _
  simp only [execReplyHandler, State.takeReply, launch, far, none_returned, delegation, Bool.false_eq_true, if_false]
end

/-- The message for an owner's emulation entry that a request to an unimplemented handler becomes (R398). -/
def emulated (o : Owner) (handler : U8) (r : FabricReq) (m : Msg) : Msg :=
  { m with entry := o.emulent, spawned := false, replyLocal := false, emul := some handler.toNat
           tail := pad ((m.tail.length + 255) / 256 * 256) m.tail, txn := r.txn, place := 15 }

section
variable {s : State} {handler : U8} {r : FabricReq} {m : Msg}

theorem exec_unimplementedHandler_noOwner (h : s.owner r.owner = none) :
    exec (.unimplementedHandler handler r m) s = .next (answered s r.device r.txn 0xF) := by
  show execUnimplementedHandler handler r m s = _
  simp only [execUnimplementedHandler, h]
  rfl
variable {o : Owner} (owner : s.owner r.owner = some o)
include owner

theorem exec_unimplementedHandler_noEntry (h : o.emulent.tag = false) :
    exec (.unimplementedHandler handler r m) s = .next (answered s r.device r.txn 0xF) := by
  show execUnimplementedHandler handler r m s = _
  simp only [execUnimplementedHandler, owner, h]
  rfl
theorem exec_unimplementedHandler_posted (tagged : o.emulent.tag = true) (takes : TakesIn s o.emulcore (emulated o handler r m)) :
    exec (.unimplementedHandler handler r m) s = .next (posted s o.emulcore (emulated o handler r m)) := by
  have arrives := arriveMessage_posted takes
  unfold emulated at arrives ⊢
  show execUnimplementedHandler handler r m s = _
  simp only [execUnimplementedHandler, owner, tagged, arrives]
  rfl
end

theorem answers18 : Claims.Answers18 := by
  intro s r rep handler m w0 w1 w2 shop pr
  refine ⟨exec_replyHandler_slot, fun l => exec_replyHandler_launch, ⟨_, rfl, rfl, rfl, rfl, rfl, rfl, rfl, rfl, rfl, rfl, rfl, rfl⟩, fun unserved => ?_,
    fun o owner tagged flows room => exec_unimplementedHandler_posted owner tagged ⟨flows, room⟩⟩
  rcases unserved with unknown | ⟨o, owner, untagged⟩
  · exact exec_unimplementedHandler_noOwner unknown
  · exact exec_unimplementedHandler_noEntry owner untagged

/-- Settles O53: what arrives, what starts for it, and each hardware handler, from one equation for each of their outcomes. -/
theorem messageEvents : Obligations.message_events := ⟨arrivals, starting, handlers, countHandler, answers18⟩

end Sys2Proof
end

section
/-! SUPPORT. BINDQ, the timelines and the event queue: what an unbound register holds, and each instruction by what its register or its core
has. -/
namespace Sys2Proof
open Machine Claims

/-! ### BINDQ (R310) -/

@[simp] theorem setBound_idx (c : Core) (k : Nat) (b : Option (Nat × Nat)) : (c.setBound k b).idx = c.idx := by
  unfold Core.setBound
  split <;> rfl
@[simp] theorem setFifo_idx (c : Core) (k : Nat) (l : List U128) : (c.setFifo k l).idx = c.idx := by
  unfold Core.setFifo
  split <;> rfl

section
variable {k : Nat} (hk : k < 6)
include hk

theorem setBound_below (c : Core) (b : Option (Nat × Nat)) :
    c.setBound k b = { c with qbind := c.qbind.set k b hk, bindNo := c.bindNo.set k (c.bindNo[k] + 1) hk } := dif_pos hk
theorem setFifo_below (c : Core) (l : List U128) : c.setFifo k l = { c with results := c.results.set k l hk } := dif_pos hk

/-- Unbinding a register touches its core, contexts, records, sweeps and revoked units only, and leaves the register empty. -/
theorem unbindQ_empties (s : State) : let u := s.unbindQ s.self.core k
    bindingOf u k = none ∧ wordsOf u k = [] ∧ u.self = s.self ∧ u.mem = s.mem := by
  obtain ⟨cs, r, w, v, unbound⟩ := unbind_frame s s.self.core k
  have core : (s.unbindQ s.self.core k).myCore = (s.myCore.setBound k none).setFifo k [] := by
    rw [unbound]
    have h := core_put s ((s.myCore.setBound k none).setFifo k [])
    rwa [setFifo_idx, setBound_idx, myCore_idx] at h
  refine ⟨?_, ?_, by rw [unbound]; rfl, by rw [unbound]; rfl⟩
  · rw [bindingOf, dif_pos hk, core, setBound_below hk, setFifo_below hk]
    simp
  · rw [wordsOf, dif_pos hk, core, setBound_below hk, setFifo_below hk]
    simp
end

section
variable {s : State} {a : BitVec 5} {k : BitVec 3}

theorem exec_bindq_above (above : 6 ≤ k.toNat) : exec (.bindq a k) s = .next (s.trap 0x0E 0) := by
  show execBindq a k s = _
  simp only [execBindq, if_pos above]
  rfl

variable (below : k.toNat < 6)
include below

theorem exec_bindq_g0 : exec (.bindq 0 k) s = .next ((s.unbindQ s.self.core k.toNat).retire) := by
  show execBindq 0 k s = _
  simp only [execBindq, if_neg (Nat.not_le.2 below)]
  rfl

variable (named : a ≠ 0)
include named

theorem exec_bindq_untagged (untagged : (s.g a).tag = false) : exec (.bindq a k) s = .next (s.trap 0x03 0) := by
  show execBindq a k s = _
  simp only [execBindq, if_neg (Nat.not_le.2 below), if_neg named, untagged]
  rfl

variable (tagged : (s.g a).tag = true)
include tagged

theorem exec_bindq_noHandle (other : (s.g a).otype ≠ 4) : exec (.bindq a k) s = .next (s.trap 0x06 0) := by
  show execBindq a k s = _
  simp only [execBindq, if_neg (Nat.not_le.2 below), if_neg named, tagged, bne_iff_ne, ne_eq, other, not_false_eq_true, if_true]
  rfl

/-- A handle that is not revoked: its context is bound where it is current, and the instruction traps where it is stale. -/
theorem exec_bindq_handle (handle : (s.g a).otype = 4) (valid : s.revokedAddr (s.g a).bounds.base.toNat = false) :
    let u := s.unbindQ s.self.core k.toNat
    exec (.bindq a k) s = .next (if s.ctxCurrent (handleCtx (s.g a)) (handleGen (s.g a)) = true
      then (u.putCore (u.myCore.setBound k.toNat (some (handleCtx (s.g a), handleGen (s.g a))))).retire else s.trap 0x0F 0) := by
  have live : s.isRevoked (s.g a) = false := isRevoked_of tagged valid
  show execBindq a k s = _
  simp only [execBindq, if_neg (Nat.not_le.2 below), if_neg named, tagged, handle, live]
  cases s.ctxCurrent (handleCtx (s.g a)) (handleGen (s.g a)) <;> rfl
end

/-- Settles O41: PUSH, MOVQ, QPOP and QSTAT by `queue_moves`; BINDQ by what it finds in its register. -/
theorem queueRegisters : Obligations.queue_registers := by
  refine ⟨queue_moves, fun s a k => ?_⟩
  intro h u ci gen
  refine ⟨exec_bindq_above, fun below => ?_, fun below named tagged handle valid current => ?_⟩
  · obtain ⟨unbound, emptied, slot, mem⟩ := unbindQ_empties below s
    refine ⟨unbound, emptied, slot, mem, ?_, exec_bindq_untagged below, exec_bindq_noHandle below, fun named tagged handle valid stale => ?_⟩
    · rintro rfl
      exact completes_of (exec_bindq_g0 below)
    · have stale' : s.ctxCurrent (handleCtx h) (handleGen h) = false := stale
      rw [exec_bindq_handle below named tagged handle valid, stale']
      rfl
  · have current' : s.ctxCurrent (handleCtx h) (handleGen h) = true := current
    refine completes_of ?_
    rw [exec_bindq_handle below named tagged handle valid, current', setBound_below below]
    rfl

/-! ### Timelines (R311, R312) -/

section
variable {s : State} {n : Nat}

theorem boundCtx_unbound (h : bindingOf s n = none) : s.boundCtx n = .error (s.trap 0x0E 0) := by
  rw [boundCtx_eq, h]
theorem boundCtx_bound {ci gen : Nat} (h : bindingOf s n = some (ci, gen)) :
    s.boundCtx n = if s.ctxCurrent ci gen then .ok ci else .error (s.trap 0x0F 0) := by
  rw [boundCtx_eq, h]

/-- The three timeline members take the trap that their register's binding calls for. -/
theorem exec_timeline_trap {k : BitVec 4} {t : State} (d a : BitVec 5) (h : s.boundCtx k.toNat = .error t) :
    ∀ i ∈ [Instr.tlwait a k, .tltest d a k, .tlread d k], exec i s = .next t := by
  simp only [List.mem_cons, List.not_mem_nil, or_false, forall_eq_or_imp, forall_eq]
  refine ⟨?_, ?_, ?_⟩
  · show execTlwait a k s = _
    rw [execTlwait, h]
    rfl
  · show execTltest d a k s = _
    rw [execTltest, h]
    rfl
  · show execTlread d k s = _
    rw [execTlread, h]
    rfl
end

section
variable {s : State} {k : BitVec 4} {ci : Nat} (bound : s.boundCtx k.toNat = .ok ci)
include bound

theorem exec_tlwait (a : BitVec 5) : exec (.tlwait a k) s = .next (if (s.x a).toNat ≤ (s.ctx ci).counter
    then (chipCut s).retire else s.wait (.timeline ci (s.x a).toNat)) := by
  show execTlwait a k s = _
  rw [execTlwait, bound, chip_eq]
  show finish (if _ then _ else _) = _
  split <;> rfl
theorem exec_tltest (d a : BitVec 5) : exec (.tltest d a k) s = .next (if (s.x a).toNat ≤ (s.ctx ci).counter
    then ((chipCut s).wr d 1).retire else (s.wr d 0).retire) := by
  show execTltest d a k s = _
  rw [execTltest, bound, chip_eq]
  show finish (if _ then _ else _) = _
  split <;> rfl
theorem exec_tlread (d : BitVec 5) : exec (.tlread d k) s = .next ((s.setG d
    { bits := BitVec.ofNat 64 (s.ctx ci).accepted ++ BitVec.ofNat 64 (s.ctx ci).counter, tag := false }).retire) := by
  show execTlread d k s = _
  rw [execTlread, bound]
  rfl
end

/-! ### The event queue (R313) -/

section
variable {s : State}

theorem exec_events_trap (d a : BitVec 5) (h : ¬HasEvents s) :
    ∀ i ∈ [Instr.evpop d, .evwait d a, .evtry d], exec i s = .next (s.trap 0x0F 0) := by
  have none : s.hasEvents = .error (s.trap 0x0F 0) := if_neg h
  simp only [List.mem_cons, List.not_mem_nil, or_false, forall_eq_or_imp, forall_eq]
  refine ⟨?_, ?_, ?_⟩
  · show execEvpop d s = _
    rw [execEvpop, none]
    rfl
  · show execEvwait d a s = _
    rw [execEvwait, none]
    rfl
  · show execEvtry d s = _
    rw [execEvtry, none]
    rfl

variable (owns : HasEvents s)
include owns

theorem hasEvents_ok : s.hasEvents = .ok () := if_pos owns

theorem exec_evpop (d : BitVec 5) : exec (.evpop d) s = .next ((taken s d).retire) := by
  show execEvpop d s = _
  rw [execEvpop, hasEvents_ok owns, taken_eq]
  rfl
theorem exec_evtry (d : BitVec 5) : exec (.evtry d) s = .next ((s.wr d (0#16
    ++ (match s.myCore.events with | [] => 0#32 | r :: _ => r.status ++ r.kind) ++ 0#9 ++ BitVec.ofNat 7 s.myCore.events.length)).retire) := by
  show execEvtry d s = _
  rw [execEvtry, hasEvents_ok owns]
  cases s.myCore.events <;> rfl

/-- The cycle that ends an EVWAIT: the one it has parked with, else the one its register gives. -/
def waitLimit (s : State) (a : BitVec 5) : Option Nat := match s.self.park with
  | .event _ l => l
  | _ => s.limitFrom (s.x a)

theorem exec_evwait_ends (d a : BitVec 5) (ends : s.myCore.events ≠ [] ∨ s.past (waitLimit s a) = true) :
    exec (.evwait d a) s = .next ((taken s d).retire) := by
  have ready : (!s.myCore.events.isEmpty || s.past (waitLimit s a)) = true := by
    rcases ends with some | late
    · simp [some]
    · simp [late]
  show execEvwait d a s = _
  rw [execEvwait, hasEvents_ok owns, taken_eq]
  show finish (if (!s.myCore.events.isEmpty || s.past (waitLimit s a)) = true then _ else _) = _
  rw [if_pos ready]
  rfl
theorem exec_evwait_parks (d a : BitVec 5) (empty : s.myCore.events = []) (early : s.past (waitLimit s a) = false) :
    exec (.evwait d a) s = .next (s.wait (.event d (waitLimit s a))) := by
  show execEvwait d a s = _
  rw [execEvwait, hasEvents_ok owns]
  show finish (if (!s.myCore.events.isEmpty || s.past (waitLimit s a)) = true then _ else _) = _
  rw [empty, early]
  rfl
end

theorem waitLimit_first {s : State} (a : BitVec 5) (first : ∀ e l, s.self.park ≠ .event e l) : waitLimit s a = s.limitFrom (s.x a) := by
  unfold waitLimit
  split
  · exact absurd ‹_› (first _ _)
  · rfl
theorem waitLimit_parked {s : State} {e : BitVec 5} {l : Option Nat} (a : BitVec 5) (parked : s.self.park = .event e l) : waitLimit s a = l := by
  rw [waitLimit, parked]

/-- A limit that is set now lies ahead. -/
theorem past_limitFrom (s : State) (n : U64) : s.past (s.limitFrom n) = false := by
  unfold State.limitFrom
  dsimp only
  split
  · rfl
  · exact decide_eq_false (by omega)

/-- Settles O42: timelines by their register's binding, the event queue by whether the owner may use it. -/
theorem timelinesAndEvents : Obligations.timelines_and_events := by
  intro s d a k v
  refine ⟨fun unbound => exec_timeline_trap d a (boundCtx_unbound unbound), fun ci gen bound stale => exec_timeline_trap d a ?_,
    fun ci gen bound current => ?_, exec_events_trap d a, fun owns => ?_⟩
  · rw [boundCtx_bound bound, stale]
    rfl
  · have ok : s.boundCtx k.toNat = .ok ci := by
      rw [boundCtx_bound bound, current]
      rfl
    refine ⟨fun reached => ⟨completes_of ?_, completes_of ?_⟩, fun ahead => ⟨?_, putsX_of ?_ rfl⟩, putsG_of (exec_tlread ok d)⟩
    · rw [exec_tlwait ok, if_pos reached]
    · rw [exec_tltest ok, if_pos reached]
    · rw [exec_tlwait ok, if_neg (Nat.not_le.2 ahead)]
    · rw [exec_tltest ok, if_neg (Nat.not_le.2 ahead)]
  · refine ⟨completes_of (exec_evpop owns d), fun some => completes_of (exec_evwait_ends owns d a (.inl some)), fun empty first => ?_,
      fun e c empty parked late => completes_of (exec_evwait_ends owns d a (.inr ?_)), putsX_of (exec_evtry owns d) rfl⟩
    · have limit := waitLimit_first a first
      rw [exec_evwait_parks owns d a empty (by rw [limit]; exact past_limitFrom s _), limit]
      rfl
    · rw [waitLimit_parked a parked]
      exact decide_eq_true late

end Sys2Proof
end

section
/-! SUPPORT. MAP and UNMAP: one lemma for each outcome. Here and below a chain of `if_neg` and `if_pos` walks through a member's checks in the
order in which it makes them. -/
namespace Sys2Proof
open Machine Claims

theorem denies_of {i : Instr} {s : State} {d : BitVec 5} {c n : Nat} (h : exec i s = .next (s.status d c n)) (hc : c < 2 ^ 32) : Denies i s d c n :=
  answers_of h hc
theorem not_mayUse {s : State} {id : U64} (h : ¬MayUse s id) : (!s.mayUse id) = true := by
  simpa using mt (mayUse_iff s id).1 h
theorem mayUse_passes {s : State} {id : U64} (h : MayUse s id) : ¬(!s.mayUse id) = true := by
  simp [(mayUse_iff s id).2 h]

theorem not_heldByMe {s : State} {id : U64} (h : ¬HeldByMe s id) : (!s.heldByMe id) = true := by
  simpa using mt (heldByMe_iff s id).1 h
theorem heldByMe_passes {s : State} {id : U64} (h : HeldByMe s id) : ¬(!s.heldByMe id) = true := by
  simp [(heldByMe_iff s id).2 h]

theorem finish_of_ok {r : Run State} {t : State} (h : r = .ok t) : finish r = .next t := by rw [h, finish_ok]
theorem finish_of_error {r : Run State} {t : State} (h : r = .error t) : finish r = .next t := by rw [h, finish_error]
theorem bind_of_ok {α β : Type} {x : Run α} {v : α} (h : x = .ok v) (k : α → Run β) : (x >>= k) = k v := by rw [h, ok_bind]

/-! ### MAP (R338, R339) -/

section
variable {s : State} {d : BitVec 5} {a : U64} {m : U128} {seg : Nat}

theorem map_nowhere (h : ∀ n, placeOf a.toNat ≠ .seg n) : s.map d a m = .error (s.status d 4 0) := by
  have nowhere : segOf a = none := by
    unfold segOf
    split
    · exact absurd ‹_› (h _)
    · rfl
  unfold State.map
  rw [nowhere]

theorem map_misaligned (place : placeOf a.toNat = .seg seg) (h : a.toNat % pageSize m ≠ 0) :
    s.map d a m = .error (s.status d 0x11 (lowBit a)) := by
  unfold State.map
  rw [segOf_some place]
  exact (if_pos h).trans rfl

/-- A page that passes MAP's checks of its address and of the word's reserved and page fields. -/
theorem goodPage_passes (page : GoodPage a m seg) : segOf a = some seg ∧ (¬(a.toNat % if mapBig m = true then 2 ^ 21 else 2 ^ 14) ≠ 0)
    ∧ ¬mapZero m ≠ 0 ∧ ¬(mapBig m && mapPage m != 0) = true := by
  obtain ⟨place, aligned, high, low, first⟩ := page
  refine ⟨segOf_some place, not_not.2 aligned, not_not.2 ((mapZero_iff m).2 ⟨high, low⟩), ?_⟩
  rw [mapPage_eq]
  simpa [mapBig] using first

theorem map_notUsed (page : GoodPage a m seg) (h : ¬MayUse s (mkRes 5 seg)) : s.map d a m = .error (s.status d 1 0) := by
  obtain ⟨place, aligned, zero, first⟩ := goodPage_passes page
  unfold State.map
  rw [place]
  exact (if_neg aligned).trans ((if_neg zero).trans ((if_neg first).trans ((if_pos (not_mayUse h)).trans rfl)))

/-- The translation entry that MAP finds under its key is the one it replaces. -/
theorem replacedBy_eq (s : State) (a : U64) (m : U128) (seg : Nat) : replacedBy s a m seg = (findBy transKey (pageKey a m) s.trans).orElse (fun _ =>
    if s.hostReset seg && transKey (Trans.hostReset (seg - 2 ^ 26)) == pageKey a m then some (Trans.hostReset (seg - 2 ^ 26)) else none) := by
  unfold replacedBy
  cases findBy transKey (pageKey a m) s.trans with
  | some t => rfl
  | none => simp

/-- The lines of a page that MAP backs anew are kept, unless its frame is the same. -/
theorem remapped_some (s : State) (o n : Machine.Trans) :
    remapped s (some o) n = if (n.present && o.page == n.page) = true then s else s.keepLines o := by
  by_cases same : n.present = true ∧ o.page = n.page
  · simp [remapped, same]
  · rw [remapped, if_neg same, if_neg (by simpa using same)]

theorem ownEntry_eq (s : State) (seg : Nat) (m : U128) (pos : Nat) (pin : Option Nat) :
    ownEntry s.meOwner seg m pos pin = newOwn s seg m pos pin := by
  simp only [ownEntry, newOwn, mapPlace, mapKey, mapMigration, mapHome, mapCls, ext128]
  rfl

theorem mapPlace_pinned (m : U128) : mapPlace m = 1 ↔ fld m 16 2 = 1 := by
  rw [mapPlace, ext128_eq]
  exact eq_comm

/-- The position that a new own entry is pinned at (R72). -/
theorem pins_eq {pin : Option Nat} (h : Pins s m pin) :
    (if mapPlace m = 1 then s.pinFor (mapHome m) (mapCls m) else none) = pin ∧ ¬(mapPlace m = 1 ∧ pin.isNone = true) := by
  obtain ⟨pinned, free⟩ := h
  simp only [mapPlace_pinned, mapHome, mapCls, ext128]
  by_cases place : fld m 16 2 = 1
  · obtain ⟨k, found, rfl⟩ := pinned place
    simp [place, found]
  · simp [place, free place]

theorem goodFrame_passes (frame : GoodFrame s a m seg) (backed : mapFrame m ≠ 0) :
    (¬(decide (resKind (mapFrame m) ≠ if segIsHost seg = true then 11 else 3) || !resValid (mapFrame m)) = true) ∧ MayUse s (mapFrame m)
      ∧ (¬(!segIsHost seg && homeDie (mapFrame m) != (mapHome m).toNat) = true) ∧ (¬s.isSaveFrame (mapFrame m) = true)
      ∧ ¬s.pageTaken (segIsHost seg) (resIndex (mapFrame m) * 128 + mapPage m) (if mapBig m = true then 128 else 1) (pageKey a m) = true := by
  obtain ⟨kind, valid, used, home, save, taken⟩ := frame.resolve_left backed
  refine ⟨?_, used, ?_, ?_, ?_⟩
  · have kind' : resKind (mapFrame m) = if segIsHost seg = true then 11 else 3 := kind
    have valid' : resValid (mapFrame m) = true := valid
    simp [kind', valid']
  · have home' : segIsHost seg = false → homeDie (mapFrame m) = (mapHome m).toNat := fun h => (home h).trans (ext128_mod m 42 2).symm
    cases host : segIsHost seg with
    | true => simp
    | false => simp [home' host]
  · have save' : s.isSaveFrame (mapFrame m) = false := save
    simp [save']
  · rw [mapPage_eq]
    exact ne_true_of_eq_false taken

section
variable (page : GoodPage a m seg) (used : MayUse s (mkRes 5 seg))
include page used

theorem map_revoked (h : segUnit seg ∈ s.revoked) : s.map d a m = .error (s.status d 7 (s.sweepNumber (segUnit seg))) := by
  obtain ⟨place, aligned, zero, first⟩ := goodPage_passes page
  have revoked : s.revoked.contains (segUnit seg) = true := List.contains_iff_mem.2 h
  unfold State.map
  rw [place]
  exact (if_neg aligned).trans ((if_neg zero).trans ((if_neg first).trans ((if_neg (mayUse_passes used)).trans ((if_pos revoked).trans rfl))))

theorem map_named (live : segUnit seg ∉ s.revoked) (h : m.getLsbD 32 = true) : s.map d a m = .error (s.status d 0xC 32) := by
  obtain ⟨place, aligned, zero, first⟩ := goodPage_passes page
  have live' : ¬s.revoked.contains (segUnit seg) = true := mt List.contains_iff_mem.1 live
  unfold State.map
  rw [place]
  exact (if_neg aligned).trans ((if_neg zero).trans ((if_neg first).trans ((if_neg (mayUse_passes used)).trans ((if_neg live').trans ((if_pos h).trans rfl)))))

theorem map_done (live : segUnit seg ∉ s.revoked) (plain : m.getLsbD 32 = false) {own : Rights} {pos : Nat} (rights : OwnFor s seg m own)
    (frame : GoodFrame s a m seg) (position : PosFor s a m pos) :
    s.map d a m = .ok ((mapped s a m seg own pos).status d 0 (if (replacedBy s a m seg).isSome = true then 1 else 0)) := by
  obtain ⟨place, aligned, zero, first⟩ := goodPage_passes page
  have live' : ¬s.revoked.contains (segUnit seg) = true := mt List.contains_iff_mem.1 live
  have plain' : ¬m.getLsbD 32 = true := ne_true_of_eq_false plain
  unfold State.map
  rw [place]
  refine (if_neg aligned).trans ((if_neg zero).trans ((if_neg first).trans ((if_neg (mayUse_passes used)).trans ((if_neg live').trans ((if_neg plain').trans ?_)))))
  -- what follows needs of the own entry only that it is `own`, whether found or made
  refine Eq.trans (b := ?_) ?rights ?rest
  case rights =>
    rcases rights with ⟨found, same⟩ | ⟨absent, good, pin, p, pins, free, new⟩
    · simp -zeta only [found, (attrDiff_none own m).2 same, pure_bind']
      exact rfl
    · obtain ⟨pin_eq, pinned⟩ := pins_eq pins
      have free' : s.rightsPos s.meOwner false seg = some p := free
      simp -zeta only [absent, (badAttr_none s seg m).2 good, pin_eq]
      refine (if_neg pinned).trans ?_
      simp -zeta only [free', pure_bind', ownEntry_eq, ← new]
      exact rfl
  case rest =>
  refine (ite_eq_right_iff.2 fun backed => ?_).trans ?_
  · obtain ⟨kind, used, home, save, taken⟩ := goodFrame_passes frame backed
    exact (if_neg kind).trans ((if_neg (mayUse_passes used)).trans ((if_neg home).trans ((if_neg save).trans (if_neg taken))))
  rw [mapped, ← map_new s, show (BitVec.toNat a / 2 ^ 14 % 2 ^ 42 * 2 + if mapBig m = true then 1 else 0) = pageKey a m from rfl, ← replacedBy_eq]
  generalize replacedBy s a m seg = old
  refine Eq.trans (b := ?_) ?position ?rest
  case position =>
    rcases position with ⟨t, found, same⟩ | ⟨absent, free⟩
    · simp -zeta only [found, ← same]
      exact rfl
    · have free' : s.transPos (pageKey a m) (mapHome m).toNat = some pos := by
        rw [mapHome, ext128_mod]
        exact free
      simp -zeta only [absent, free']
  case rest =>
  cases old with
  | none => rfl
  | some o =>
    rw [remapped_some]
    rfl
end
end

/-- MAP (R339), by how far it gets. -/
theorem maps : Claims.Maps := by
  intro s d a b seg m x i
  have denied {c n : Nat} (hc : c < 2 ^ 32) (h : s.map d x m = .error (s.status d c n)) : Denies i s d c n := denies_of (finish_of_error h) hc
  refine ⟨fun nowhere => denied (by norm_num) (map_nowhere nowhere), fun place off => ⟨_, denied (by norm_num) (map_misaligned place off)⟩,
    fun page no => denied (by norm_num) (map_notUsed page no), fun page used revoked => denied (by norm_num) (map_revoked page used revoked),
    fun page used live => ⟨fun named => denied (by norm_num) (map_named page used live named), fun plain own pos rights frame position => ?_⟩⟩
  exact answers_of (finish_of_ok (map_done page used live plain rights frame position)) (by norm_num)

/-! ### UNMAP (R340) -/

/-- The bits of UNMAP's word that must be zero: [15:2] and [63:32]. -/
theorem unmap_clean {w : U64} (low : w.toNat / 4 % 2 ^ 14 = 0) (high : w.toNat / 2 ^ 32 = 0) : w &&& 0xFFFFFFFF0000FFFC#64 = 0 := by
  refine (and_mask w 0xFFFFFFFF0000FFFC).2 fun i hi set => ?_
  rcases (show (2 ≤ i ∧ i < 16) ∨ 32 ≤ i from by revert set; revert i; decide) with ⟨h1, h2⟩ | h
  · have := bits_zero w 2 14 low (i - 2) (by omega)
    rwa [show 2 + (i - 2) = i from by omega] at this
  · have := bits_zero w 32 32 (by rw [high]; rfl) (i - 32) (by omega)
    rwa [show 32 + (i - 32) = i from by omega] at this
theorem and3_eq (w : U64) {k : Nat} (hk : k < 4) : w &&& 3 = BitVec.ofNat 64 k ↔ w.toNat % 4 = k := by
  rw [and3, ← BitVec.toNat_inj, BitVec.toNat_ofNat, BitVec.toNat_ofNat]
  omega

section
variable {s : State} {d a b : BitVec 5} {seg : Nat} (place : placeOf (s.x a).toNat = .seg seg) (clean : s.x b &&& 0xFFFFFFFF0000FFFC#64 = 0)
include place clean

theorem exec_unmap_badKind (kind : (s.x b).toNat % 4 = 3) : exec (.unmap d a b) s = .next (s.status d 0x11 0) := by
  show execUnmap d a b s = _
  unfold execUnmap
  rw [segOf_some place]
  exact finish_of_error ((if_neg (not_not.2 clean)).trans ((if_pos ((and3_eq _ (by norm_num)).2 kind)).trans rfl))

theorem exec_unmap_notUsed (kind : (s.x b).toNat % 4 ≠ 3) (no : ¬MayUse s (mkRes 5 seg)) : exec (.unmap d a b) s = .next (s.status d 1 0) := by
  show execUnmap d a b s = _
  unfold execUnmap
  rw [segOf_some place]
  exact finish_of_error ((if_neg (not_not.2 clean)).trans ((if_neg (mt (and3_eq _ (by norm_num)).1 kind)).trans ((if_pos (not_mayUse no)).trans rfl)))

variable (used : MayUse s (mkRes 5 seg))
include used

theorem exec_unmap_page (kind : (s.x b).toNat % 4 = 0) : exec (.unmap d a b) s = .next (match s.transAt (s.x a).toNat with
    | none => s.status d 0xF 0
    | some t => (((s.keepHostRights seg).hostLeaves seg).dropTrans t).status d 0 0) := by
  have not3 : (s.x b).toNat % 4 ≠ 3 := by omega
  show execUnmap d a b s = _
  unfold execUnmap
  rw [segOf_some place]
  refine (congrArg finish ((if_neg (not_not.2 clean)).trans ((if_neg (mt (and3_eq _ (by norm_num)).1 not3)).trans ((if_neg (mayUse_passes used)).trans
    (if_pos ((and3_eq _ (by norm_num)).2 kind)))))).trans ?_
  cases s.transAt (s.x a).toNat <;> rfl

/-- Kind 1 finds nothing where the segment has no own entry, no translation entry and no right. -/
theorem exec_unmap_segment (kind : (s.x b).toNat % 4 = 1) : exec (.unmap d a b) s = .next
    (if s.ownOf seg = none ∧ (∀ t ∈ s.trans, t.seg ≠ seg) ∧ (∀ e ∈ s.rights, e.frame = false → e.index ≠ seg) then s.status d 0xF 0
     else (s.dropSegment seg).status d 0 0) := by
  have not3 : (s.x b).toNat % 4 ≠ 3 := by omega
  have not0 : (s.x b).toNat % 4 ≠ 0 := by omega
  have nothing : ((s.ownOf seg).isNone = true ∧ (!(s.trans.any (fun t => t.seg == seg))) = true ∧ (!(s.rights.any (fun e => !e.frame && e.index == seg))) = true)
      ↔ s.ownOf seg = none ∧ (∀ t ∈ s.trans, t.seg ≠ seg) ∧ (∀ e ∈ s.rights, e.frame = false → e.index ≠ seg) := by
    simp
  show execUnmap d a b s = _
  unfold execUnmap
  rw [segOf_some place]
  refine (congrArg finish ((if_neg (not_not.2 clean)).trans ((if_neg (mt (and3_eq _ (by norm_num)).1 not3)).trans ((if_neg (mayUse_passes used)).trans
    ((if_neg (mt (and3_eq _ (by norm_num)).1 not0)).trans (if_pos ((and3_eq _ (by norm_num)).2 kind))))))).trans ?_
  by_cases h : s.ownOf seg = none ∧ (∀ t ∈ s.trans, t.seg ≠ seg) ∧ (∀ e ∈ s.rights, e.frame = false → e.index ≠ seg)
  · rw [if_pos h]
    exact finish_of_error ((if_pos (nothing.2 h)).trans rfl)
  · rw [if_neg h]
    exact finish_of_ok ((if_neg (mt nothing.1 h)).trans rfl)

/-- The share that UNMAP of kind 2 names: another owner's entry of the segment. -/
def namedShare (s : State) (b : BitVec 5) (seg : Nat) (e : Rights) : Bool :=
  e.frame == false && e.index == seg && !e.own && e.owner == BitVec.ofNat 16 ((s.x b).toNat / 2 ^ 16)

theorem exec_unmap_share (kind : (s.x b).toNat % 4 = 2) : exec (.unmap d a b) s = .next
    (if s.rights.any (namedShare s b seg) = true
     then ({ s.writeBackSeg seg with rights := (s.writeBackSeg seg).rights.filter (fun e => !namedShare s b seg e) } : State).status d 0 0
     else s.status d 0xF 0) := by
  have not3 : (s.x b).toNat % 4 ≠ 3 := by omega
  have not0 : (s.x b).toNat % 4 ≠ 0 := by omega
  have not1 : (s.x b).toNat % 4 ≠ 1 := by omega
  have mine : (fun e : Rights => !e.frame && e.index == seg && !e.own && e.owner == (s.x b).extractLsb' 16 16) = namedShare s b seg := by
    funext e
    rw [namedShare, ext64_eq, beq_false]
  show execUnmap d a b s = _
  unfold execUnmap
  rw [segOf_some place]
  rw [← mine]
  refine (congrArg finish ((if_neg (not_not.2 clean)).trans ((if_neg (mt (and3_eq _ (by norm_num)).1 not3)).trans ((if_neg (mayUse_passes used)).trans
    ((if_neg (mt (and3_eq _ (by norm_num)).1 not0)).trans (if_neg (mt (and3_eq _ (by norm_num)).1 not1))))))).trans ?_
  by_cases shared : s.rights.any (fun e => !e.frame && e.index == seg && !e.own && e.owner == (s.x b).extractLsb' 16 16) = true
  · rw [if_pos shared]
    exact finish_of_ok ((if_neg (by simp [shared])).trans rfl)
  · rw [if_neg shared]
    exact finish_of_error ((if_pos (by simpa using shared)).trans rfl)
end

/-- UNMAP (R340), by its kind. -/
theorem unmaps : Claims.Unmaps := by
  intro s d a b seg w i place low high
  have clean := unmap_clean low high
  refine ⟨fun kind => denies_of (exec_unmap_badKind place clean kind) (by norm_num), fun kind no => denies_of (exec_unmap_notUsed place clean kind no) (by norm_num),
    fun used => ⟨fun kind absent => denies_of ?_ (by norm_num), fun kind t found => answers_of ?_ (by norm_num), fun kind present => answers_of ?_ (by norm_num),
      fun kind own trans rights => denies_of ?_ (by norm_num),
      fun kind => ⟨fun shared => answers_of ?_ (by norm_num), fun unshared => denies_of ?_ (by norm_num)⟩⟩⟩
  · rw [exec_unmap_page place clean used kind, absent]
  · rw [exec_unmap_page place clean used kind, found]
  · rw [exec_unmap_segment place clean used kind, if_neg]
    rintro ⟨own, trans, rights⟩
    rcases present with entry | ⟨t, mem, here⟩ | ⟨e, mem, segment, here⟩
    · rw [own] at entry
      cases entry
    · exact trans t mem here
    · exact rights e mem segment here
  · rw [exec_unmap_segment place clean used kind, if_pos ⟨own, trans, rights⟩]
  · rw [exec_unmap_share place clean used kind]
    exact congrArg Host.Outcome.next (if_pos shared)
  · have unshared' : ¬s.rights.any (namedShare s b seg) = true := ne_true_of_eq_false unshared
    rw [exec_unmap_share place clean used kind, if_neg unshared']

end Sys2Proof
end

section
/-! SUPPORT. SETCLASS of a segment, of a region, of a core-time entry and of an L2 way unit: one lemma for each field and outcome. -/
namespace Sys2Proof
open Machine Claims

/-! ### SETCLASS of a segment (R341) -/

theorem freeClasses_eq (s : State) : s.freeClasses = classesFreed s := by
  unfold State.freeClasses classesFreed
  congr 1
  refine List.map_congr_left fun x _ => ?_
  have named : (x.owner != 0 && x.floor == 0 && !s.rights.any (fun e => !e.frame && e.home == x.die && e.cls == x.cls)) = true
      ↔ x.owner ≠ 0 ∧ x.floor = 0 ∧ ∀ e ∈ s.rights, e.frame = false → e.home = x.die → e.cls ≠ x.cls := by
    simp [and_assoc]
  by_cases h : x.owner ≠ 0 ∧ x.floor = 0 ∧ ∀ e ∈ s.rights, e.frame = false → e.home = x.die → e.cls ≠ x.cls
  · rw [if_pos h, if_pos (named.2 h)]
  · rw [if_neg h, if_neg (mt named.1 h)]

theorem attributed_eq (s : State) (seg : Nat) (m : U128) (pin : Option Nat) :
    ({ s with rights := s.rights.map (fun (x : Rights) =>
        if !x.frame && x.index == seg then
          { x with
            place := mapPlace m, unchecked := mapUnchecked m, sealedSeg := mapSealed m, migration := mapMigration m
            cls := mapCls m, pin := if x.own then pin else none }
        else x) } : State) = attributed s seg m pin := by
  unfold attributed
  congr 1
  refine List.map_congr_left fun x _ => ?_
  rw [mapPlace, mapMigration, mapCls, ext128, ext128, ext128]
  by_cases h : x.frame = false ∧ x.index = seg
  · rw [if_pos h, if_pos (by simpa using h)]
    rfl
  · rw [if_neg h, if_neg (by simpa using h)]

/-- A word of SETCLASS changes a segment as R61, R63, R87, R92 and R341 allow. -/
structure Changes (s : State) (seg : Nat) (e : Rights) (m : U128) : Prop where
  good : GoodAttr s seg m
  key : e.key.toNat = fld m 20 12
  named : e.named = m.getLsbD 32
  big : e.big = m.getLsbD 35
  home : e.home.toNat = fld m 42 2
  namedPlace : e.named = true → fld m 16 2 = 2 ∧ fld m 33 2 = 0
  runClass : InRun s seg → e.cls.toNat = fld m 36 6
  resealed : e.sealedSeg ≠ m.getLsbD 19 → ¬InRun s seg ∧ s.somePresent seg = false

section
variable {s : State} {d a b : BitVec 5} {seg : Nat} {e : Rights} {m : U128} {pin : Option Nat}

theorem badChange_none (h : Changes s seg e m) : s.badChange seg e m = none := by
  obtain ⟨good, key, named, big, home, namedPlace, runClass, resealed⟩ := h
  have place : ¬(e.named && mapPlace m != 2) = true := by
    simp only [Bool.and_eq_true, bne_iff_ne, ne_eq, not_and, not_not]
    exact fun h => (ext128_eq m 16 2 2).2 (namedPlace h).1.symm
  have sealing : ¬(mapSealed m != e.sealedSeg && (decide (1 < s.regionSize seg) || s.somePresent seg)) = true := by
    simp only [Bool.and_eq_true, bne_iff_ne, ne_eq, not_and, Bool.or_eq_true, decide_eq_true_eq, not_or]
    exact fun h => ⟨(resealed (Ne.symm h)).1, by simp [(resealed (Ne.symm h)).2]⟩
  have migration : ¬(e.named && mapMigration m != 0) = true := by
    simp only [Bool.and_eq_true, bne_iff_ne, ne_eq, not_and, not_not]
    exact fun h => (ext128_eq m 33 2 0).2 (namedPlace h).2.symm
  have cls : ¬(decide (1 < s.regionSize seg) && mapCls m != e.cls) = true := by
    simp only [Bool.and_eq_true, bne_iff_ne, ne_eq, decide_eq_true_eq, not_and, not_not]
    exact fun h => (ext128_eq m 36 6 e.cls).2 (runClass h)
  have key' : mapKey m = e.key := (ext128_eq m 20 12 e.key).2 key
  have big' : mapBig m = e.big := big.symm
  have home' : mapHome m = e.home := (ext128_eq m 42 2 e.home).2 home
  unfold State.badChange
  dsimp only
  rw [if_neg place, if_neg sealing, if_neg (not_not.2 key'), if_neg (by simp [named]), if_neg migration, if_neg (not_not.2 big'), if_neg cls,
    if_neg (not_not.2 home'), (badAttr_none s seg m).2 good]

/-- The position at which a changed segment is pinned: its own where it stays SLICE-PINNED in its class (R72). -/
theorem changedPin_eq (home : e.home.toNat = fld m 42 2)
    (h : if e.place = 1 ∧ fld m 16 2 = 1 ∧ e.cls.toNat = fld m 36 6 then pin = e.pin ∧ pin.isSome = true else Pins s m pin) :
    (if (e.place == 1 && mapPlace m == 1 && mapCls m == e.cls) = true then e.pin
      else if mapPlace m = 1 then s.pinFor e.home (mapCls m) else none) = pin ∧ ¬(mapPlace m = 1 ∧ pin.isNone = true) := by
  have stays : (e.place == 1 && mapPlace m == 1 && mapCls m == e.cls) = true ↔ e.place = 1 ∧ fld m 16 2 = 1 ∧ e.cls.toNat = fld m 36 6 := by
    simp only [Bool.and_eq_true, beq_iff_eq, and_assoc, mapPlace_pinned, mapCls, ext128_eq]
  by_cases same : e.place = 1 ∧ fld m 16 2 = 1 ∧ e.cls.toNat = fld m 36 6
  · rw [if_pos same] at h
    rw [if_pos (stays.2 same)]
    exact ⟨h.1.symm, fun unpinned => by simp [Option.isNone_iff_eq_none.1 unpinned.2] at h⟩
  · rw [if_neg same] at h
    rw [if_neg (mt stays.1 same), show e.home = mapHome m from ((ext128_eq m 42 2 e.home).2 home).symm]
    exact pins_eq h

/-- A segment moves, and its lines are written back first, where its place, its class or its sealing changes (R341). -/
theorem moves_iff : (mapPlace m != e.place || mapCls m != e.cls || mapSealed m != e.sealedSeg) = true
    ↔ e.place.toNat ≠ fld m 16 2 ∨ e.cls.toNat ≠ fld m 36 6 ∨ e.sealedSeg ≠ m.getLsbD 19 := by
  simp only [Bool.or_eq_true, bne_iff_ne, ne_eq, or_assoc, mapPlace, mapCls, ext128_eq]
  rw [show (mapSealed m = e.sealedSeg) = (e.sealedSeg = m.getLsbD 19) from propext eq_comm]

theorem setAttr_notUsed (no : ¬MayUse s (mkRes 5 seg)) : s.setAttr d seg m = .error (s.status d 1 0) := by
  unfold State.setAttr
  exact (if_pos (not_mayUse no)).trans rfl

theorem setAttr_done (used : MayUse s (mkRes 5 seg)) (zero : mapZero m = 0) (found : s.ownOf seg = some e) (changes : Changes s seg e m)
    (pinned : if e.place = 1 ∧ fld m 16 2 = 1 ∧ e.cls.toNat = fld m 36 6 then pin = e.pin ∧ pin.isSome = true else Pins s m pin) :
    let t := if e.place.toNat ≠ fld m 16 2 ∨ e.cls.toNat ≠ fld m 36 6 ∨ e.sealedSeg ≠ m.getLsbD 19 then s.writeBackSeg seg else s
    let u := if e.unchecked = m.getLsbD 18 then t else rechecked t seg
    s.setAttr d seg m = .ok ((classesFreed (attributed (u.keepHostRights seg) seg m pin)).status d 0 0) := by
  obtain ⟨pin_eq, pins⟩ := changedPin_eq changes.home pinned
  intro t u
  have moved : (if (mapPlace m != e.place || mapCls m != e.cls || mapSealed m != e.sealedSeg) = true then s.writeBackSeg seg else s) = t :=
    if_congr moves_iff rfl rfl
  have checked : (if mapUnchecked m = e.unchecked then t else t.recheck seg) = u := if_congr eq_comm rfl rfl
  unfold State.setAttr
  refine (if_neg (mayUse_passes used)).trans ((if_neg (not_not.2 zero)).trans ?_)
  simp only [found, badChange_none changes, pin_eq, moved, checked, ok_bind]
  refine (if_neg pins).trans ?_
  rw [attributed_eq, freeClasses_eq]
end

/-- SETCLASS of a segment's attributes. -/
theorem setsAttributes : Claims.SetsAttributes := by
  intro s d a b seg e pin m hi hk sel
  have run : exec (.setclass d a b) s = finish (s.setAttr d seg m) := (setclass_seg hi hk sel (by norm_num)).trans (congrArg finish (if_pos rfl))
  refine ⟨fun no => denies_of (run.trans (finish_of_error (setAttr_notUsed no))) (by norm_num), ?_⟩
  intro used high low found good key named big home namedPlace runClass resealed pinned
  exact answers_of (run.trans (finish_of_ok (setAttr_done used ((mapZero_iff m).2 ⟨high, low⟩) found
    ⟨good, key, named, big, home, namedPlace, runClass, resealed⟩ pinned))) (by norm_num)

/-! ### SETCLASS that forms or discards a region (R92, R109) -/

section
variable {s : State} {d a b : BitVec 5} {seg n : Nat} {v : U128} {e : Rights}

/-- Every segment of a run has an own entry of which `f` does not hold. -/
theorem someOwn_run {f : Rights → Bool} (h : ∀ j, j < n → ∃ x, s.ownOf (seg + j) = some x ∧ f x = false) :
    ¬s.someOwn ((List.range n).map (fun i => seg + i)) f = true := by
  simp only [State.someOwn, List.any_map, List.any_eq_true, List.mem_range, Function.comp, not_exists, not_and]
  intro j below
  obtain ⟨x, found, no⟩ := h j below
  rw [found]
  simp [no]

theorem run_contains (i : Nat) : ((List.range n).map (fun i => seg + i)).contains i = true ↔ seg ≤ i ∧ i < seg + n := by
  rw [List.contains_iff_mem, List.mem_map]
  constructor
  · rintro ⟨j, below, rfl⟩
    have := List.mem_range.1 below
    omega
  · rintro ⟨low, high⟩
    exact ⟨i - seg, List.mem_range.2 (by omega), by omega⟩

/-- The own entries and the shares of a run become content-named. -/
theorem namedRun_eq (t : State) (seg n : Nat) :
    ({ t with rights := t.rights.map (fun (x : Rights) =>
        if !x.frame && ((List.range n).map (fun i => seg + i)).contains x.index then { x with named := true } else x) } : State)
      = { t with rights := t.rights.map (fun x => if x.frame = false ∧ seg ≤ x.index ∧ x.index < seg + n then { x with named := true } else x) } := by
  congr 1
  refine List.map_congr_left fun x _ => ?_
  have run : (!x.frame && ((List.range n).map (fun i => seg + i)).contains x.index) = true ↔ x.frame = false ∧ seg ≤ x.index ∧ x.index < seg + n := by
    rw [Bool.and_eq_true, run_contains, Bool.not_eq_true']
  by_cases h : x.frame = false ∧ seg ≤ x.index ∧ x.index < seg + n
  · rw [if_pos h, if_pos (run.2 h)]
  · rw [if_neg h, if_neg (mt run.1 h)]

/-- An own entry of a run beside the first segment's, `e` (R92). -/
def LikeFirst (e x : Rights) : Prop :=
  x.place = 2 ∧ x.sealedSeg = e.sealedSeg ∧ x.key = e.key ∧ x.named = false ∧ x.migration = 0 ∧ x.cls = e.cls

/-- A word that forms a region of a run of segments that are alike, released through a context of the issuer (R92). -/
structure Forms (s : State) (seg : Nat) (v : U128) (e : Rights) : Prop where
  any : 0 < fld v 0 12
  zero : fld v 12 52 = 0
  kind : resKind (v.extractLsb' 64 64) = 6
  valid : resValid (v.extractLsb' 64 64) = true
  release : ctxKind (resIndex (v.extractLsb' 64 64)) = 5
  held : ∀ j, j < fld v 0 12 → resValid (mkRes 5 (seg + j)) = true ∧ HeldByMe s (mkRes 5 (seg + j))
  own : s.ownOf seg = some e
  alike : ∀ j, j < fld v 0 12 → ∃ x, s.ownOf (seg + j) = some x ∧ LikeFirst e x
  ctx : HeldByMe s (v.extractLsb' 64 64)

theorem formRegion_done (h : Forms s seg v e) :
    let t := formed s seg (fld v 0 12) (v.extractLsb' 64 64)
    s.formRegion d seg v = .ok (({ t with
      rights := t.rights.map (fun x =>
        if x.frame = false ∧ seg ≤ x.index ∧ x.index < seg + fld v 0 12 then { x with named := true } else x) } : State).status d 0 0) := by
  obtain ⟨any, zero, kind, valid, release, held, own, alike, ctx⟩ := h
  have zero' : v.extractLsb' 12 52 = 0 := (ext128_eq v 12 52 0).2 zero.symm
  have context : ¬(decide (resKind (v.extractLsb' 64 64) ≠ 6) || !resValid (v.extractLsb' 64 64)
      || decide (ctxKind (resIndex (v.extractLsb' 64 64)) ≠ 5)) = true := by
    simp [kind, valid, release]
  have named : ¬((List.range (fld v 0 12)).map (fun i => seg + i)).any (fun i => !resValid (mkRes 5 i)) = true := by
    simpa using fun j below => (held j below).1
  have mine : ¬((List.range (fld v 0 12)).map (fun i => seg + i)).any (fun i => !s.heldByMe (mkRes 5 i)) = true := by
    simpa using fun j below => (heldByMe_iff s _).2 (held j below).2
  have same (f : Rights → Bool) (hf : ∀ x, LikeFirst e x → f x = false) :
      ¬s.someOwn ((List.range (fld v 0 12)).map (fun i => seg + i)) f = true :=
    someOwn_run fun j below => (alike j below).imp fun x hx => ⟨hx.1, hf x hx.2⟩
  unfold State.formRegion
  rw [ext128_mod v 0 12, own]
  refine (if_neg (not_not.2 zero')).trans ((if_neg (Nat.ne_of_gt any)).trans ((if_neg context).trans ((if_neg named).trans ((if_neg mine).trans ?_))))
  refine (if_neg (same _ fun x ⟨h, _⟩ => by simp [h])).trans ((if_neg (same _ fun x ⟨_, h, _⟩ => by simp [h])).trans
    ((if_neg (same _ fun x ⟨_, _, h, _⟩ => by simp [h])).trans ((if_neg (same _ fun x ⟨_, _, _, h, _⟩ => h)).trans
    ((if_neg (same _ fun x ⟨_, _, _, _, h, _⟩ => by simp [h])).trans ((if_neg (same _ fun x ⟨_, _, _, _, _, h⟩ => by simp [h])).trans
    ((if_neg (heldByMe_passes ctx)).trans ?_))))))
  simp only [List.foldl_map, namedRun_eq]
  rfl
end

/-- SETCLASS that forms or discards a region. -/
theorem formsRegions : Claims.FormsRegions := by
  intro s d a b seg e v n ctx i hi hk
  refine ⟨fun sel any zero kind valid release held own alike context => ?_, fun sel zero held => ?_⟩
  · have run : exec i s = finish (s.formRegion d seg v) := (setclass_seg hi hk sel (by norm_num)).trans (congrArg finish rfl)
    exact answers_of (run.trans (finish_of_ok (formRegion_done ⟨any, zero, kind, valid, release, held, own, alike, context⟩))) (by norm_num)
  · have clear : s.zeroAbove d v 0 = .ok () := if_neg (by simp [zero])
    have run := setclass_seg hi hk sel (d := d) (b := b) (by norm_num)
    rw [if_neg (by norm_num), if_neg (by norm_num), show (s.g b).bits = v from rfl, clear, ok_bind] at run
    refine ⟨fun r found => answers_of (run.trans (finish_of_ok ?_)) (by norm_num), fun absent => denies_of (run.trans (finish_of_error ?_)) (by norm_num)⟩
    · rw [found]
      exact (if_neg (heldByMe_passes held)).trans rfl
    · rw [absent]
      exact (if_neg (heldByMe_passes held)).trans rfl

/-! ### SETCLASS of a core-time entry (R287, R341) -/

theorem extract_low (v : U128) (n : Nat) : v.extractLsb' 0 n = BitVec.ofNat n v.toNat := by
  apply BitVec.eq_of_toNat_eq
  simp
theorem addr_small {c : Cap} (small : c.bits.toNat < 2 ^ 32) : c.addr.toNat = c.bits.toNat := by
  rw [show c.addr = c.bits.extractLsb' 0 64 from rfl, extract_low, BitVec.toNat_ofNat]
  omega

theorem zeroAbove_rota {s : State} {d : BitVec 5} {c : Cap} (small : c.bits.toNat < 2 ^ 32) : s.zeroAbove d c.bits 0xFFFFFFFF = .ok () :=
  zero_above (by norm_num) small _ rfl

section
variable {s : State} {d a b : BitVec 5} {id : U64} {k : Nat}

theorem setclass_rota (kind : resKind id = 2) (sel : Selects s a id k) (hk : k < 4) :
    exec (.setclass d a b) s = finish (s.setRota d id k (s.g b)) := by
  obtain ⟨p1, p2, p3, p4⟩ := selects_parts sel
  show execSetclass d a b s = _
  unfold execSetclass State.setClass
  simp only [p1, p2, p3, p4, kind, ne_eq, not_true_eq_false, if_false, Bool.not_true, Bool.false_eq_true, Nat.reduceEqDiff, Nat.not_le.2 hk]

theorem setclass_way (kind : resKind id = 9) (sel : Selects s a id k) (hk : k < 3) :
    exec (.setclass d a b) s = finish (s.setWay d id k (s.g b)) := by
  obtain ⟨p1, p2, p3, p4⟩ := selects_parts sel
  show execSetclass d a b s = _
  unfold execSetclass State.setClass
  simp only [p1, p2, p3, p4, kind, ne_eq, not_true_eq_false, if_false, Bool.not_true, Bool.false_eq_true, Nat.reduceEqDiff, Nat.not_le.2 hk]
end

section
variable {s : State} {d : BitVec 5} {id : U64} {k : Nat} {c : Cap}

theorem setRota_handler : s.setRota d id 3 c = if (s.entry id).user ≠ s.self.owner then .error (s.status d 1 0)
    else .ok ((withRota s id (fun x => { x with handler := if s.isRevoked c then c.untag else c })).status d 0 0) := by
  unfold State.setRota
  by_cases other : (s.entry id).user ≠ s.self.owner
  · rw [if_pos other]
    exact (if_pos rfl).trans ((if_pos other).trans rfl)
  · rw [if_neg other]
    exact (if_pos rfl).trans ((if_neg other).trans rfl)

variable (small : c.bits.toNat < 2 ^ 32)
include small

theorem setRota_notHeld (field : k < 3) (other : (s.entry (mkRes 1 (resCore id))).holder ≠ s.self.owner) : s.setRota d id k c = .error (s.status d 1 0) := by
  unfold State.setRota
  rw [zeroAbove_rota small]
  exact (if_neg (by omega)).trans ((if_pos other).trans rfl)

variable (held : (s.entry (mkRes 1 (resCore id))).holder = s.self.owner)
include held

/-- A slice of a lent entry that is below its budget's share and 2 µs (R46, R413). -/
theorem setRota_slice : s.setRota d id 0 c =
    if (s.entry id).state = .lent ∧ c.addr.toNat ≠ 0 ∧ c.addr.toNat * 1750 < (s.rotaOf id).budget.toNat + 2 * 1750 then .error (s.status d 6 0)
    else .ok ((withRota s id (fun x => { x with slice := BitVec.ofNat 32 c.addr.toNat })).status d 0 0) := by
  have value : (BitVec.ofNat 32 c.bits.toNat).toNat = c.addr.toNat := by
    rw [addr_small small, BitVec.toNat_ofNat, Nat.mod_eq_of_lt small]
  have short : (decide ((s.entry id).state = .lent) && sliceTooShort (c.bits.extractLsb' 0 32).toNat (s.rotaOf id).budget.toNat) = true
      ↔ (s.entry id).state = .lent ∧ c.addr.toNat ≠ 0 ∧ c.addr.toNat * 1750 < (s.rotaOf id).budget.toNat + 2 * 1750 := by
    rw [extract_low, value, sliceTooShort, show Config.ratedMHz = 1750 from rfl]
    simp
  unfold State.setRota
  rw [zeroAbove_rota small]
  refine (if_neg (by omega)).trans ((if_neg (not_not.2 held)).trans ((if_pos rfl).trans ?_))
  by_cases h : (s.entry id).state = .lent ∧ c.addr.toNat ≠ 0 ∧ c.addr.toNat * 1750 < (s.rotaOf id).budget.toNat + 2 * 1750
  · rw [if_pos h]
    exact (if_pos (short.2 h)).trans rfl
  · rw [if_neg h, addr_small small, ← extract_low]
    exact (if_neg (mt short.1 h)).trans rfl

theorem setRota_limit : s.setRota d id 1 c = .ok ((withRota s id (fun x => { x with limit := BitVec.ofNat 32 c.addr.toNat })).status d 0 0) := by
  unfold State.setRota
  rw [zeroAbove_rota small, addr_small small, ← extract_low]
  exact (if_neg (by omega)).trans ((if_neg (not_not.2 held)).trans ((if_neg (by omega)).trans ((if_pos rfl).trans rfl)))

theorem setRota_budget : s.setRota d id 2 c = if (s.entry id).state = .lent then .error (s.status d 2 4)
    else .ok ((withRota s id (fun x => { x with budget := BitVec.ofNat 32 c.addr.toNat })).status d 0 0) := by
  unfold State.setRota
  rw [zeroAbove_rota small, addr_small small, ← extract_low]
  refine (if_neg (by omega)).trans ((if_neg (not_not.2 held)).trans ((if_neg (by omega)).trans ((if_neg (by omega)).trans ?_)))
  by_cases lent : (s.entry id).state = .lent
  · exact ((if_pos lent).trans rfl).trans (if_pos lent).symm
  · exact ((if_neg lent).trans rfl).trans (if_neg lent).symm
end

/-- SETCLASS of a core-time entry, field by field. -/
theorem setsRota : Claims.SetsRota := by
  intro s d a b id k v core e i short kind sel
  refine ⟨?_, fun field small other => ?_, fun field small held => ⟨?_, ?_, ?_, ?_, ?_⟩⟩
  · rintro rfl
    have run : exec i s = finish (s.setRota d id 3 (s.g b)) := setclass_rota kind sel (by norm_num)
    rw [setRota_handler] at run
    refine ⟨fun mine => answers_of (run.trans (finish_of_ok (if_neg (not_not.2 mine)))) (by norm_num),
      fun other => denies_of (run.trans (finish_of_error (if_pos other))) (by norm_num)⟩
  · exact denies_of ((setclass_rota kind sel (by omega)).trans (finish_of_error (setRota_notHeld small field other))) (by norm_num)
  · rintro rfl shorter
    exact denies_of ((setclass_rota kind sel (by norm_num)).trans (finish_of_error ((setRota_slice small held).trans (if_pos shorter)))) (by norm_num)
  · rintro rfl enough
    exact answers_of ((setclass_rota kind sel (by norm_num)).trans (finish_of_ok ((setRota_slice small held).trans (if_neg enough)))) (by norm_num)
  · rintro rfl
    exact answers_of ((setclass_rota kind sel (by norm_num)).trans (finish_of_ok (setRota_limit small held))) (by norm_num)
  · rintro rfl lent
    exact denies_of ((setclass_rota kind sel (by norm_num)).trans (finish_of_error ((setRota_budget small held).trans (if_pos lent)))) (by norm_num)
  · rintro rfl back
    exact answers_of ((setclass_rota kind sel (by norm_num)).trans (finish_of_ok ((setRota_budget small held).trans (if_neg back)))) (by norm_num)

/-! ### SETCLASS of an L2 way unit (R87, R341) -/

/-- The state whose way unit has left its class, or the pool. -/
def unassigned (s : State) (die : BitVec 2) (way : Nat) : State := match s.wayClass die way with
  | some x => s.leaveClass die x
  | none => s.leavePool die way

theorem leaveClass_self (s : State) (die : BitVec 2) (c : BitVec 6) : (s.leaveClass die c).self = s.self := loseWay_self s die c _
theorem unassigned_self (s : State) (die : BitVec 2) (way : Nat) : (unassigned s die way).self = s.self := by
  unfold unassigned
  split
  · exact leaveClass_self s die _
  · exact leavePool_self s die way

theorem zeroAbove_way {s : State} {d : BitVec 5} {c : Cap} (small : c.bits.toNat < 64) : s.zeroAbove d c.bits 0x3F = .ok () :=
  zero_above (n := 6) (by norm_num) small _ rfl

section
variable {s : State} {d : BitVec 5} {id : U64} {c : Cap}

theorem setWay_notHeld (small : c.bits.toNat < 64) (no : ¬HeldByMe s id) : s.setWay d id 0 c = .error (s.status d 1 0) := by
  unfold State.setWay
  rw [zeroAbove_way small]
  exact (if_pos rfl).trans ((if_pos (not_heldByMe no)).trans rfl)

theorem setWay_above (large : 32 < c.bits.toNat) (small : c.bits.toNat < 64) : s.setWay d id 2 c = .error (s.status d 0x11 0) := by
  have value : (c.bits.extractLsb' 0 6).toNat = c.bits.toNat := by
    rw [extract_low, BitVec.toNat_ofNat, Nat.mod_eq_of_lt small]
  unfold State.setWay
  rw [zeroAbove_way small, value]
  exact (if_neg (by norm_num)).trans ((if_neg (by norm_num)).trans ((if_pos large).trans rfl))

/-- A ceiling is at least the floor of its class; where the class holds more ways, they are lost first (R87). -/
theorem setWay_ceiling (small : c.bits.toNat ≤ 32) {die : BitVec 2} (hd : BitVec.ofNat 2 (resIndex id / 32) = die) {x : BitVec 6}
    (cur : s.wayClass die (resIndex id % 32) = some x) :
    let top := max c.bits.toNat (s.cls die x).floor
    let t := if top < (s.cls die x).ways then s.loseWay die x (decide (top = 0)) else s
    s.setWay d id 2 c = if (s.cls die x).owner ≠ s.self.owner then .error (s.status d 1 0)
      else .ok ((t.putCls { s.cls die x with ceiling := top, ways := min (s.cls die x).ways top }).status d 0 0) := by
  have value : (c.bits.extractLsb' 0 6).toNat = c.bits.toNat := by
    rw [extract_low, BitVec.toNat_ofNat, Nat.mod_eq_of_lt (by omega)]
  intro top t
  unfold State.setWay
  rw [zeroAbove_way (by omega), value, hd]
  refine (if_neg (by norm_num)).trans ((if_neg (by norm_num)).trans ((if_neg (Nat.not_lt.2 small)).trans ?_))
  rw [cur]
  by_cases other : (s.cls die x).owner ≠ s.self.owner
  · exact ((if_pos other).trans rfl).trans (if_pos other).symm
  · exact ((if_neg other).trans rfl).trans (if_neg other).symm

variable (held : HeldByMe s id)
include held

section
variable (small : c.bits.toNat < 64) {die : BitVec 2} (hd : BitVec.ofNat 2 (resIndex id / 32) = die) {k : BitVec 6} (hk : BitVec.ofNat 6 c.bits.toNat = k)
include small hd hk

theorem setWay_foreign (owned : (s.cls die k).owner ≠ 0) (other : (s.cls die k).owner ≠ s.self.owner) : s.setWay d id 0 c = .error (s.status d 1 0) := by
  unfold State.setWay
  rw [zeroAbove_way small, extract_low, hd, hk]
  exact (if_pos rfl).trans ((if_neg (heldByMe_passes held)).trans ((if_pos ⟨owned, other⟩).trans rfl))

/-- A way unit joins a class that is free or the issuer's, unless it is of it already or holds pinned segments. -/
theorem setWay_joins (mine : (s.cls die k).owner = 0 ∨ (s.cls die k).owner = s.self.owner) :
    s.setWay d id 0 c = if s.wayClass die (resIndex id % 32) = some k then .ok (s.status d 0 0)
      else if s.wayPins die.toNat (resIndex id % 32) = true then .error (s.status d 0x10 0)
      else .ok ((joined (unassigned s die (resIndex id % 32)) die (resIndex id % 32) k).status d 0 0) := by
  unfold State.setWay
  rw [zeroAbove_way small, extract_low, hd, hk]
  refine (if_pos rfl).trans ((if_neg (heldByMe_passes held)).trans ((if_neg (by tauto)).trans ?_))
  by_cases same : s.wayClass die (resIndex id % 32) = some k
  · exact ((if_pos same).trans rfl).trans (if_pos same).symm
  · refine ((if_neg same).trans ?_).trans (if_neg same).symm
    by_cases pinned : s.wayPins die.toNat (resIndex id % 32) = true
    · exact ((if_pos pinned).trans rfl).trans (if_pos pinned).symm
    · refine ((if_neg pinned).trans ?_).trans (if_neg pinned).symm
      rw [joined, unassigned_self]
      rfl
end

/-- A way unit goes back to the pool, unless it holds pinned segments. -/
theorem setWay_leaves (zero : c.bits = 0) {die : BitVec 2} (hd : BitVec.ofNat 2 (resIndex id / 32) = die) :
    s.setWay d id 1 c = if s.wayPins die.toNat (resIndex id % 32) = true then .error (s.status d 0x10 0)
      else match s.wayClass die (resIndex id % 32) with
        | none => .ok (s.status d 0 0)
        | some x => .ok (({ s.leaveClass die x with
            pool := (s.leaveClass die x).pool ++ [(die, resIndex id % 32)]
            ways := (s.leaveClass die x).ways.filter (fun w => !(w.1 == die && w.2.1 == resIndex id % 32)) } : State).status d 0 0) := by
  have clear : s.zeroAbove d c.bits 0 = .ok () := if_neg (by simp [zero])
  unfold State.setWay
  rw [clear, hd]
  refine (if_neg (by norm_num)).trans ((if_pos rfl).trans ((if_neg (heldByMe_passes held)).trans ?_))
  by_cases pinned : s.wayPins die.toNat (resIndex id % 32) = true
  · exact ((if_pos pinned).trans rfl).trans (if_pos pinned).symm
  · refine ((if_neg pinned).trans ?_).trans (if_neg pinned).symm
    cases s.wayClass die (resIndex id % 32) <;> rfl
end

/-- SETCLASS of an L2 way unit, field by field. -/
theorem setsWays : Claims.SetsWays := by
  intro s d a b id k v die way i c cur kind sel
  have run {r : Run State} (hk : k < 3) (h : s.setWay d id k (s.g b) = r) : exec i s = finish r :=
    (setclass_way kind sel hk).trans (congrArg finish h)
  refine ⟨?_, ?_, ?_, ?_, ?_, ?_, ?_⟩
  · rintro rfl small no
    exact denies_of ((run (by norm_num) (setWay_notHeld small no)).trans rfl) (by norm_num)
  · rintro rfl small held owned other
    exact denies_of ((run (by norm_num) (setWay_foreign held small rfl rfl owned other)).trans rfl) (by norm_num)
  · rintro rfl small held mine
    have joins := run (by norm_num) (setWay_joins held small rfl rfl mine)
    refine ⟨fun same => denies_of (joins.trans (finish_of_ok (if_pos same))) (by norm_num),
      fun other pinned => denies_of (joins.trans (finish_of_error ((if_neg other).trans (if_pos pinned)))) (by norm_num),
      fun other free => answers_of (joins.trans (finish_of_ok ((if_neg other).trans (if_neg ?_)))) (by norm_num)⟩
    exact ne_true_of_eq_false free
  · rintro rfl zero held pinned
    exact denies_of ((run (by norm_num) (setWay_leaves held (BitVec.eq_of_toNat_eq zero) rfl)).trans (finish_of_error (if_pos pinned))) (by norm_num)
  · rintro rfl zero held free
    have free' : ¬s.wayPins die.toNat way = true := ne_true_of_eq_false free
    have leaves := (run (by norm_num) (setWay_leaves held (BitVec.eq_of_toNat_eq zero) rfl)).trans (congrArg finish (if_neg free'))
    refine ⟨fun pooled => denies_of (leaves.trans ?_) (by norm_num), fun x classed => answers_of (leaves.trans ?_) (by norm_num)⟩
    · rw [show s.wayClass die way = none from pooled]
      rfl
    · rw [show s.wayClass die way = some x from classed]
      rfl
  · rintro rfl large small
    exact denies_of ((run (by norm_num) (setWay_above large small)).trans rfl) (by norm_num)
  · rintro rfl small x classed
    have ceiling := run (by norm_num) (setWay_ceiling small rfl classed)
    exact ⟨fun other => denies_of (ceiling.trans (finish_of_error (if_pos other))) (by norm_num),
      fun mine => answers_of (ceiling.trans (finish_of_ok (if_neg (not_not.2 mine)))) (by norm_num)⟩

end Sys2Proof
end

section
/-! SUPPORT. REVOKE, SCRUB and SHARE: one lemma for each outcome; then the statement of the MAPS group from its members. -/
namespace Sys2Proof
open Machine Claims

/-! ### REVOKE (R342) -/

section
variable {s : State} {d a b : BitVec 5} {units : List Unit30} {ci : Nat}

theorem sweepHandle_ok (handle : SweepHandle s (s.g b) ci) : s.sweepHandle b = .ok ci := by
  obtain ⟨tagged, sealing, live, current, kind, rfl⟩ := handle
  unfold State.sweepHandle
  simp [tagged, sealing, live, current, kind]

/-- Some unit is neither held nor borrowed by the issuer. -/
theorem foreign_iff : units.any (fun u => !s.mayUse (unitRes u)) = true ↔ ∃ u ∈ units, ¬MayUse s (mkRes (if u.frame then 4 else 5) u.index) := by
  simp only [List.any_eq_true, Bool.not_eq_true', ← Bool.not_eq_true, mayUse_iff]
  rfl

theorem exec_revoke_untagged (untagged : (s.g b).tag = false) (free : s.self.park = .no) : exec (.revoke d a b) s = .next (s.trap 0x03 0) := by
  have trap : s.sweepHandle b = .error (s.trap 0x03 0) := (if_pos (by simp [untagged])).trans rfl
  show execRevoke d a b s = _
  unfold execRevoke
  rw [free, trap]
  rfl

section
variable (free : s.self.park = .no) (handle : SweepHandle s (s.g b) ci)
include free handle

theorem exec_revoke_badCount (count : (s.g a).bits.toNat / 2 ^ 64 = 0 ∨ 65536 < (s.g a).bits.toNat / 2 ^ 64) :
    exec (.revoke d a b) s = finish (s.refuse d 0x11 64) := by
  show execRevoke d a b s = _
  unfold execRevoke
  rw [free, sweepHandle_ok handle, high_eq]
  exact congrArg finish ((if_pos count).trans rfl)

variable (count : ¬((s.g a).bits.toNat / 2 ^ 64 = 0 ∨ 65536 < (s.g a).bits.toNat / 2 ^ 64))
  (range : RangeOf (s.x a) ((s.g a).bits.toNat / 2 ^ 64) units)
include count range

/-- The units that REVOKE names are its issuer's to revoke, or it refuses; then they are revoked, and their sweep is placed. -/
theorem exec_revoke_range : exec (.revoke d a b) s = finish
    (if s.lapsed s.self.owner = true then s.refuse d 10 0
     else if units.any (fun u => !s.mayUse (unitRes u)) = true then s.refuse d 1 0
     else .ok (({ s with revoked := s.revoked ++ units.filter (fun u => !s.revoked.contains u) } : State).placeSweep d ci units (s.x a))) := by
  show execRevoke d a b s = _
  unfold execRevoke
  rw [free, sweepHandle_ok handle, high_eq]
  refine congrArg finish ((if_neg count).trans ?_)
  rw [revokeUnits_eq range]
  by_cases lapsed : s.lapsed s.self.owner = true
  · exact ((if_pos lapsed).trans rfl).trans (if_pos lapsed).symm
  · refine ((if_neg lapsed).trans ?_).trans (if_neg lapsed).symm
    by_cases foreign : units.any (fun u => !s.mayUse (unitRes u)) = true
    · exact ((if_pos foreign).trans rfl).trans (if_pos foreign).symm
    · exact ((if_neg foreign).trans rfl).trans (if_neg foreign).symm
end

theorem placeSweep_waits {t : State} (first : U64) (full : 32 ≤ (t.ctx ci).waiting.length) : t.placeSweep d ci units first = t.wait (.ctxRoom ci) := if_pos full
theorem placeSweep_done {t : State} {first : U64} (room : (t.ctx ci).waiting.length < 32) :
    let r := t.sweepOn units (some ci) first
    t.placeSweep d ci units first = ((chipCut r.1).setG d { bits := BitVec.ofNat 64 r.2 ++ statusWord 0 r.2, tag := false }).retire := by
  intro r
  rw [chip_eq, ← status_set]
  exact if_neg (Nat.not_le.2 room)
end

/-- REVOKE (R342), by its handle, its range, its issuer and the room of its context. -/
theorem revokes : Claims.Revokes := by
  intro s d a b units ci n i
  refine ⟨exec_revoke_untagged, fun free handle => ⟨fun count => refuses_of (exec_revoke_badCount free handle count) (by norm_num), fun any few range => ?_⟩⟩
  have run := exec_revoke_range (d := d) free handle (by omega) range
  refine ⟨fun lapsed => refuses_of (run.trans (congrArg finish (if_pos lapsed))) (by norm_num), fun lives other => ?_, fun lives mine => ?_⟩
  all_goals
    have lives' : ¬s.lapsed s.self.owner = true := ne_true_of_eq_false lives
    replace run := run.trans (congrArg finish (if_neg lives'))
  · exact refuses_of (run.trans (congrArg finish (if_pos (foreign_iff.2 other)))) (by norm_num)
  · replace run := run.trans (congrArg finish (if_neg (mt foreign_iff.1 fun ⟨u, named, no⟩ => no (mine u named))))
    refine ⟨fun full => run.trans ?_, fun room => completes_of (run.trans ?_)⟩
    · refine congrArg Host.Outcome.next (placeSweep_waits _ ?_)
      exact full
    · refine congrArg Host.Outcome.next (placeSweep_done ?_)
      exact room

/-! ### SCRUB (R57, R343) -/

/-- A frame is zeroed; an HBM frame that cannot be rewritten is retired besides (R57). -/
theorem scrubFrame_cases (s : State) (f : U64) :
    let z : State := { s.zeroFrame f with free := s.free + 1 }
    s.scrubFrame f = z ∨ (resKind f = 3 ∧ s.scrubFrame f = (z.retireEntry f).countRetired) := by
  intro z
  unfold State.scrubFrame
  by_cases fails : (resKind f == 3 && Config.scrubFails s.free) = true
  · exact .inr ⟨by simpa using (Bool.and_eq_true_iff.1 fails).1, if_pos fails⟩
  · exact .inl (if_neg fails)

section
variable {s : State} {d a b : BitVec 5}

theorem scrubCheck_none {f : U64} (h : Scrubs s f) : s.scrubCheck f = none := by
  obtain ⟨valid, mine, state⟩ := h
  have mine' : (s.entry f).holder = s.meOwner := mine
  unfold State.scrubCheck
  rcases state with retired | ⟨held, rests, free⟩
  · simp [valid, mine', retired]
  · simp [valid, mine', held, rests, free]

/-- What the frames that SCRUB names are after it. -/
def scrubbedState (s : State) (a : BitVec 5) : State := ((scrubbed s a).filter (fun f => (s.entry f).state != .retired)).foldl State.scrubFrame s

theorem exec_scrub_badCount (count : (s.g a).bits.toNat / 2 ^ 64 = 0 ∨ 4096 < (s.g a).bits.toNat / 2 ^ 64) :
    exec (.scrub d a b) s = .next (s.status d 0x11 64) := by
  show execScrub d a b s = _
  unfold execScrub
  rw [high_eq]
  exact finish_of_error ((if_pos count).trans rfl)

/-- The frames that SCRUB names pass its checks. -/
theorem scrubChecks_none (frames : ∀ f ∈ scrubbed s a, Scrubs s f) :
    (scrubbed s a).zipIdx.findSome? (fun x => (s.scrubCheck x.1).map (fun k => (k, x.2))) = none := by
  rw [List.findSome?_eq_none_iff]
  intro x mem
  rw [scrubCheck_none (frames x.1 (List.fst_mem_of_mem_zipIdx mem))]
  rfl

section
variable (count : ¬((s.g a).bits.toNat / 2 ^ 64 = 0 ∨ 4096 < (s.g a).bits.toNat / 2 ^ 64)) (kind : resKind (s.x a) = 3 ∨ resKind (s.x a) = 11)
  (frames : ∀ f ∈ scrubbed s a, Scrubs s f) (first : s.self.sent = [])
include count kind frames first

theorem exec_scrub_untagged (untagged : (s.g b).tag = false) : exec (.scrub d a b) s = .next ((scrubbedState s a).status d 0
    ((scrubbed s a).filter (fun f => ((scrubbedState s a).entry f).state == .retired)).length) := by
  have sent : s.self.sent.isEmpty = true := by rw [first]; rfl
  have kind' : ¬(resKind (s.x a) ≠ 3 ∧ resKind (s.x a) ≠ 11) := by tauto
  have noReceipt : ¬((s.g b).tag && true) = true := by simp [untagged]
  have unlisted : (!(s.g b).tag) = true := by simp [untagged]
  have checks := scrubChecks_none frames
  unfold scrubbed at checks
  show execScrub d a b s = _
  unfold execScrub
  rw [high_eq, sent]
  refine finish_of_ok ((if_neg count).trans ((if_neg noReceipt).trans ((if_neg kind').trans ((if_pos rfl).trans ?_))))
  rw [checks]
  exact (if_pos unlisted).trans rfl

theorem exec_scrub_receipt (tagged : (s.g b).tag = true)
    (cap : s.capCheck b (s.g b) (s.x b) (608 + 8 * ((s.g a).bits.toNat / 2 ^ 64)) [.w] false = .ok ())
    (lanes : s.laneCheck b (s.g b) .w true false (longLanes (s.x b) (608 + 8 * ((s.g a).bits.toNat / 2 ^ 64))) (s.x b) = .ok ()) {u : State}
    (saved : let t := scrubbedState s a
      let gone := (scrubbed s a).filter (fun f => (t.entry f).state == .retired)
      let done := (scrubbed s a).filter (fun f => (t.entry f).state != .retired)
      t.saveLanes b (s.g b) false (longLanes (s.x b) (608 + 8 * ((s.g a).bits.toNat / 2 ^ 64))) (s.x b)
        (fun i => ofBytesLE (((t.receipt (s.receipts + 1) done gone).drop (256 * i)).take 256)) = .ok u) :
    exec (.scrub d a b) s = .next (({ u with receipts := s.receipts + 1, free := u.free + 1 } : State).setG d
      { bits := BitVec.ofNat 64 (s.receipts + 1)
          ++ statusWord 0 ((scrubbed s a).filter (fun f => ((scrubbedState s a).entry f).state == .retired)).length, tag := false }).retire := by
  have sent : s.self.sent.isEmpty = true := by rw [first]; rfl
  have kind' : ¬(resKind (s.x a) ≠ 3 ∧ resKind (s.x a) ≠ 11) := by tauto
  have receipt : ((s.g b).tag && true) = true := by simp [tagged]
  have listed : ¬(!(s.g b).tag) = true := by simp [tagged]
  have checks := scrubChecks_none frames
  unfold scrubbed at checks
  show execScrub d a b s = _
  unfold execScrub
  rw [high_eq, sent, ← status_set]
  refine finish_of_ok ((if_neg count).trans ((if_pos receipt).trans ((bind_of_ok cap _).trans ((bind_of_ok lanes _).trans ((if_neg kind').trans
    ((if_pos rfl).trans ?_))))))
  rw [checks]
  exact (if_neg listed).trans ((bind_of_ok saved _).trans rfl)
end
end

/-- SCRUB (R57, R343), with a receipt and without. -/
theorem scrubsFrames : Claims.ScrubsFrames := by
  intro s d a b n i l t gone done
  refine ⟨scrubFrame_cases s, fun count => denies_of (exec_scrub_badCount count) (by norm_num), fun any few kind frames first => ?_⟩
  have count : ¬(n = 0 ∨ 4096 < n) := by omega
  refine ⟨fun untagged => answers_of (exec_scrub_untagged count kind frames first untagged) (by norm_num), ?_⟩
  intro tagged sealing live writes bounds lanes receipt u saved
  exact completes_of (exec_scrub_receipt count kind frames first tagged (capCheck_plain tagged sealing live writes bounds) lanes saved)

/-! ### SHARE (R344) -/

/-- Rights that lie within others leave none over. -/
theorem rights_within : ∀ (ask : BitVec 4) (r w x c : Bool), (ask.getLsbD 3 = true → r = true) → (ask.getLsbD 2 = true → w = true) →
    (ask.getLsbD 1 = true → x = true) → (ask.getLsbD 0 = true → c = true) →
    ask &&& ~~~(BitVec.ofBool r ++ BitVec.ofBool w ++ BitVec.ofBool x ++ BitVec.ofBool c) = 0 := by decide

theorem ask_bit (w : U64) (j : Nat) (hj : j < 4) : (w.extractLsb' 16 4).getLsbD j = decide (w.toNat / 2 ^ 16 / 2 ^ j % 2 = 1) := by
  rw [BitVec.getLsbD_extractLsb', bit_div, Nat.div_div_eq_div_mul, ← Nat.pow_add]
  simp [hj]

theorem owner_bits (w : U64) : w.extractLsb' 0 16 = BitVec.ofNat 16 w.toNat := by
  rw [ext64_eq, pow_zero, Nat.div_one]
theorem frame_beq (id : U64) : (resKind id == 4) = decide (resKind id = 4) := by
  rw [Bool.eq_iff_iff, beq_iff_eq, decide_eq_true_eq]
theorem ask_some {w : U64} (clean : w.toNat < 2 ^ 20) (asks : w.toNat / 2 ^ 16 ≠ 0) : ¬w.extractLsb' 16 4 = 0 := by
  rw [ext64_eq, ← BitVec.toNat_inj, BitVec.toNat_ofNat]
  show ¬_ = 0
  omega
theorem noPartner_iff (s : State) (o : U16) : (!s.lives o || o == s.meOwner) = true ↔ s.lives o = false ∨ o = s.self.owner := by
  simp [State.meOwner]

/-- An owner's entry of the unit that SHARE names. -/
def sharedWith (s : State) (a b : BitVec 5) (e : Rights) : Bool :=
  e.owner == BitVec.ofNat 16 (s.x b).toNat && e.frame == decide (resKind (s.x a) = 4) && e.index == resIndex (s.x a)
theorem sharedWith_eq (s : State) (a b : BitVec 5) : sharedWith s a b
    = fun e => e.owner == (s.x b).extractLsb' 0 16 && e.frame == (resKind (s.x a) == 4) && e.index == resIndex (s.x a) := by
  funext e
  rw [sharedWith, owner_bits, frame_beq]

section
variable {s : State} {d a b : BitVec 5}

/-- A unit that the issuer holds it has not borrowed. -/
theorem held_passes {id : U64} (held : HeldByMe s id) : (¬s.borrows id = true) ∧ ¬(!s.heldByMe id) = true := by
  refine ⟨fun h => ?_, heldByMe_passes held⟩
  obtain ⟨-, lent, -⟩ := (borrows_iff s _).1 h
  obtain ⟨-, mine, -⟩ := held
  rw [mine] at lent
  cases lent

variable (clean : (s.x b).toNat < 2 ^ 20) (kind : resKind (s.x a) = 4 ∨ resKind (s.x a) = 5) (valid : resValid (s.x a) = true)
include clean kind valid

/-- SHARE's word and unit are in order. -/
theorem share_passes : (¬(s.x b) &&& ~~~(0xFFFFF#64) ≠ 0) ∧ ¬(!isRevUnit (s.x a) || !resValid (s.x a)) = true := by
  have high : (s.x b) &&& ~~~(0xFFFFF#64) = 0 := by
    refine (and_mask (s.x b) 0xFFFFFFFFFFF00000).2 fun i hi set => ?_
    have above : 20 ≤ i := by revert set; revert i; decide
    rw [bit_div, Nat.div_eq_of_lt (lt_of_lt_of_le clean (Nat.pow_le_pow_right (by norm_num) above))]
    rfl
  have unit : isRevUnit (s.x a) = true := by
    unfold isRevUnit
    rcases kind with kind | kind <;> simp [kind]
  exact ⟨not_not.2 high, by simp [unit, valid]⟩

theorem exec_share_borrowed (h : Borrows s (s.x a)) : exec (.share d a b) s = .next (s.status d 5 0) := by
  obtain ⟨word, unit⟩ := share_passes clean kind valid
  show execShare d a b s = _
  unfold execShare
  exact finish_of_error ((if_neg word).trans ((if_neg unit).trans ((if_pos ((borrows_iff s _).2 h)).trans rfl)))

theorem exec_share_notHeld (own : ¬Borrows s (s.x a)) (no : ¬HeldByMe s (s.x a)) : exec (.share d a b) s = .next (s.status d 1 0) := by
  obtain ⟨word, unit⟩ := share_passes clean kind valid
  show execShare d a b s = _
  unfold execShare
  exact finish_of_error ((if_neg word).trans ((if_neg unit).trans ((if_neg (mt (borrows_iff s _).1 own)).trans ((if_pos (not_heldByMe no)).trans rfl))))

variable (held : HeldByMe s (s.x a))
include held

theorem exec_share_noPartner (h : s.lives (BitVec.ofNat 16 (s.x b).toNat) = false ∨ BitVec.ofNat 16 (s.x b).toNat = s.self.owner) :
    exec (.share d a b) s = .next (s.status d 4 0) := by
  obtain ⟨word, unit⟩ := share_passes clean kind valid
  obtain ⟨own, mine⟩ := held_passes held
  rw [← owner_bits] at h
  show execShare d a b s = _
  unfold execShare
  exact finish_of_error ((if_neg word).trans ((if_neg unit).trans ((if_neg own).trans ((if_neg mine).trans ((if_pos ((noPartner_iff s _).2 h)).trans rfl)))))

variable (partner : ¬(s.lives (BitVec.ofNat 16 (s.x b).toNat) = false ∨ BitVec.ofNat 16 (s.x b).toNat = s.self.owner))
include partner

theorem exec_share_withdraws (nothing : (s.x b).toNat / 2 ^ 16 = 0) :
    let t := if decide (resKind (s.x a) = 4) = false ∧ s.rights.any (sharedWith s a b) = true then s.writeBackSeg (resIndex (s.x a)) else s
    exec (.share d a b) s = .next (({ t with rights := t.rights.filter (fun e => !sharedWith s a b e) } : State).status d 0 0) := by
  obtain ⟨word, unit⟩ := share_passes clean kind valid
  obtain ⟨own, mine⟩ := held_passes held
  rw [← owner_bits] at partner
  have ask : (s.x b).extractLsb' 16 4 = 0 := by
    rw [ext64_eq, nothing]
    rfl
  have written : (decide (resKind (s.x a) = 4) = false ∧ s.rights.any (sharedWith s a b) = true)
      ↔ (!(resKind (s.x a) == 4) && s.rights.any (sharedWith s a b)) = true := by
    simp
  intro t
  have back : t = if (!(resKind (s.x a) == 4) && s.rights.any (sharedWith s a b)) = true then s.writeBackSeg (resIndex (s.x a)) else s :=
    if_congr written rfl rfl
  rw [back, sharedWith_eq]
  show execShare d a b s = _
  unfold execShare
  exact finish_of_error ((if_neg word).trans ((if_neg unit).trans ((if_neg own).trans ((if_neg mine).trans
    ((if_neg (mt (noPartner_iff s _).1 partner)).trans ((if_pos ask).trans rfl))))))

section
variable (asks : (s.x b).toNat / 2 ^ 16 ≠ 0)
include asks

theorem exec_share_noRights (noRights : s.rightsOn s.self.owner (decide (resKind (s.x a) = 4)) (resIndex (s.x a)) = none) :
    ∃ k, exec (.share d a b) s = .next (s.status d 0x11 k) := by
  obtain ⟨word, unit⟩ := share_passes clean kind valid
  obtain ⟨own, mine⟩ := held_passes held
  rw [← owner_bits] at partner
  rw [← frame_beq] at noRights
  refine ⟨lowBit ((s.x b).extractLsb' 16 4) + 16, ?_⟩
  show execShare d a b s = _
  unfold execShare
  refine finish_of_error ((if_neg word).trans ((if_neg unit).trans ((if_neg own).trans ((if_neg mine).trans
    ((if_neg (mt (noPartner_iff s _).1 partner)).trans ((if_neg (ask_some clean asks)).trans ?_))))))
  rw [show s.rightsOn s.meOwner (resKind (s.x a) == 4) (resIndex (s.x a)) = none from noRights]

variable {own : Rights} (rights : s.rightsOn s.self.owner (decide (resKind (s.x a) = 4)) (resIndex (s.x a)) = some own)
include rights

theorem exec_share_done (within : (s.x b).extractLsb' 16 4 &&& ~~~(BitVec.ofBool own.r ++ BitVec.ofBool own.w ++ BitVec.ofBool own.x ++ BitVec.ofBool own.c) = 0)
    {pos : Nat} (position : let t := s.keepHostRights (resIndex (s.x a))
      (∃ e, t.rights.find? (sharedWith s a b) = some e ∧ pos = e.pos) ∨ (t.rights.find? (sharedWith s a b) = none
        ∧ t.rightsPos (BitVec.ofNat 16 (s.x b).toNat) (decide (resKind (s.x a) = 4)) (resIndex (s.x a)) = some pos)) :
    exec (.share d a b) s = .next (((s.keepHostRights (resIndex (s.x a))).putRights { own with
      owner := BitVec.ofNat 16 (s.x b).toNat, r := ((s.x b).extractLsb' 16 4).getLsbD 3, w := ((s.x b).extractLsb' 16 4).getLsbD 2
      x := ((s.x b).extractLsb' 16 4).getLsbD 1, c := ((s.x b).extractLsb' 16 4).getLsbD 0, own := false, pos := pos, pin := none }).status d 0 0) := by
  obtain ⟨word, unit⟩ := share_passes clean kind valid
  obtain ⟨held', mine⟩ := held_passes held
  rw [← owner_bits] at partner position ⊢
  rw [← frame_beq] at rights position
  rw [sharedWith_eq] at position
  show execShare d a b s = _
  unfold execShare
  refine finish_of_ok ((if_neg word).trans ((if_neg unit).trans ((if_neg held').trans ((if_neg mine).trans
    ((if_neg (mt (noPartner_iff s _).1 partner)).trans ((if_neg (ask_some clean asks)).trans ?_))))))
  rw [show s.rightsOn s.meOwner (resKind (s.x a) == 4) (resIndex (s.x a)) = some own from rights]
  refine (if_neg (not_not.2 within)).trans ?_
  rcases position with ⟨e, found, rfl⟩ | ⟨absent, free⟩
  · simp only [found]
    rfl
  · simp only [absent, free]
    rfl
end
end

/-- SHARE (R344), by its unit, its partner and the rights it asks for. -/
theorem shares : Claims.Shares := by
  intro s d a b id w o ask i frame unit mine clean kind valid
  have b3 : ((s.x b).extractLsb' 16 4).getLsbD 3 = decide (ask / 8 % 2 = 1) := ask_bit (s.x b) 3 (by norm_num)
  have b2 : ((s.x b).extractLsb' 16 4).getLsbD 2 = decide (ask / 4 % 2 = 1) := ask_bit (s.x b) 2 (by norm_num)
  have b1 : ((s.x b).extractLsb' 16 4).getLsbD 1 = decide (ask / 2 % 2 = 1) := ask_bit (s.x b) 1 (by norm_num)
  have b0 : ((s.x b).extractLsb' 16 4).getLsbD 0 = decide (ask % 2 = 1) := by
    rw [ask_bit _ 0 (by norm_num), pow_zero, Nat.div_one]
  refine ⟨fun borrowed => denies_of (exec_share_borrowed clean kind valid borrowed) (by norm_num),
    fun own no => denies_of (exec_share_notHeld clean kind valid own no) (by norm_num),
    fun held nobody => denies_of (exec_share_noPartner clean kind valid held nobody) (by norm_num), fun held lives other => ?_⟩
  have partner : ¬(s.lives o = false ∨ o = s.self.owner) := by simp [lives, other]
  refine ⟨fun zero => answers_of (exec_share_withdraws clean kind valid held partner zero) (by norm_num), fun asks noRights => ?_, ?_⟩
  · exact (exec_share_noRights clean kind valid held partner asks noRights).imp fun k run => denies_of run (by norm_num)
  · intro own asks rights hr hw hx hc t pos position
    have within := rights_within ((s.x b).extractLsb' 16 4) own.r own.w own.x own.c (by rwa [b3, decide_eq_true_eq])
      (by rwa [b2, decide_eq_true_eq]) (by rwa [b1, decide_eq_true_eq]) (by rwa [b0, decide_eq_true_eq])
    have run := exec_share_done (d := d) clean kind valid held partner asks rights within position
    rw [b3, b2, b1, b0] at run
    exact answers_of run (by norm_num)

/-- Settles O50, member by member, SETCLASS by the kind of its resource. -/
theorem mappings : Obligations.mappings :=
  ⟨maps, unmaps, setsAttributes, formsRegions, setsRota, setsWays, revokes, scrubsFrames, shares⟩

end Sys2Proof
end
